-- ==== Sys2Proof/Word.lean ====
section
/-! DEFINITION. The words the model computes with, sorted key/value maps, and the shape of a register map row. -/

namespace Sys2Proof

/-- A register or memory doubleword. -/
abbrev Word := BitVec 64
/-- A 32-bit register word or instruction word. -/
abbrev Half := BitVec 32
/-- One byte. -/
abbrev Byte := BitVec 8

/-- A finite map from natural keys, kept as a list of pairs in rising key order. -/
abbrev SMap (α : Type) := List (Nat × α)

/-- The entry of key `a`, if any. -/
def SMap.find {α : Type} : SMap α → Nat → Option α
  | [], _ => none
  | (k, v) :: t, a => if a = k then some v else SMap.find t a

/-- The entry of key `a`, or `d` when there is none. -/
def SMap.getD {α : Type} (m : SMap α) (a : Nat) (d : α) : α := (SMap.find m a).getD d

/-- Sets the entry of key `a`, keeping the keys in rising order. -/
def SMap.put {α : Type} : SMap α → Nat → α → SMap α
  | [], a, v => [(a, v)]
  | (k, w) :: t, a, v =>
    if a = k then (a, v) :: t
    else if a < k then (a, v) :: (k, w) :: t
    else (k, w) :: SMap.put t a v

/-- Removes the entry of key `a`. -/
def SMap.del {α : Type} (m : SMap α) (a : Nat) : SMap α := m.filter (fun p => p.1 != a)

/-- Sets key `a` to `v` where an absent key reads as `d`: a value equal to `d` removes the entry. -/
def SMap.putD {α : Type} [DecidableEq α] (d : α) (m : SMap α) (a : Nat) (v : α) : SMap α :=
  if v = d then SMap.del m a else SMap.put m a v

/-- Applies `f` to the entry of key `a` where there is one. -/
def SMap.upd {α : Type} (m : SMap α) (a : Nat) (f : α → α) : SMap α :=
  match SMap.find m a with
  | some v => SMap.put m a (f v)
  | none => m

/-- The keys are strictly rising. -/
def SMap.sorted {α : Type} : SMap α → Bool
  | [] => true
  | [_] => true
  | (k, _) :: (k', v) :: t => decide (k < k') && SMap.sorted ((k', v) :: t)

/-- A field of a register: the register's address, its lowest bit and its width. -/
structure Fld where
  addr : Nat
  lo : Nat
  w : Nat
  deriving DecidableEq, Repr

/-- The field of `w` bits at bit `lo` of a register value. -/
def extractField (v : Word) (lo w : Nat) : Nat := (v.extractLsb' lo w).toNat

/-- `v` with its field of `w` bits at bit `lo` replaced by the low bits of `x`. -/
def insertField (v : Word) (lo w x : Nat) : Word :=
  (v &&& ~~~((BitVec.allOnes w).setWidth 64 <<< lo)) ||| ((BitVec.ofNat w x).setWidth 64 <<< lo)

/-- Access types of R11; `hostRW` and `mgtRW` are the two sides of a letterbox register (R447). -/
inductive Acc where
  | ro | rw | rwp | wo | w1c | w1s | hostRW | mgtRW
  deriving DecidableEq, Repr

/-- Reset classes of R12; `live` is the dash of the tables, a value with no stored state of its own. -/
inductive RCls where
  | live | p | k | m | c | f
  deriving DecidableEq, Repr

/-- One row of a field map: lowest bit, width, access type, reset value, and the encodings that are not
reserved, as closed intervals (the empty list: every encoding). -/
structure FieldRow where
  lo : Nat
  w : Nat
  acc : Acc
  rst : Nat
  legal : List (Nat × Nat)
  deriving DecidableEq, Repr

/-- One row of a block summary: offset, array dimensions (count and stride each), width in bytes, reset class
and field map. -/
structure RegRow where
  off : Nat
  dims : List (Nat × Nat)
  bytes : Nat
  cls : RCls
  fields : List FieldRow
  deriving DecidableEq, Repr

/-- The register blocks of R36; `mgt` is the management half of the CFL page (R478). -/
inductive Block where
  | pwr | aon | clk | ctc | hif | che | mat | cmp | dig | key | axc | sch | dmc | mem | net | lbx | cfl | mgt | pbk | dbg
  deriving DecidableEq, Repr

/-- One row of the register block table. -/
structure BlockRow where
  blk : Block
  base : Nat
  stride : Nat
  count : Nat
  rows : List RegRow
  deriving DecidableEq, Repr

end Sys2Proof
end

