-- ==== Sys2Proof/Args.lean ====
section
/-! DEFINITION. Plain data that commands carry as operands: what the outside world or the environment hands to the
module with an event. -/

namespace Sys2Proof

/-- One logical block as a host transfers it: its data and its protection information (R90). -/
structure LBlk where
  data : List Byte
  guard : Nat
  app : Nat
  ref : Nat
  deriving DecidableEq, Repr

/-- The protection-information fields of an I/O command (R91): PRACT, the three checks of PRCHK, the initial reference
tag, the application tag and its mask. -/
structure PrInfo where
  pract : Bool
  guardChk : Bool
  appChk : Bool
  refChk : Bool
  ref0 : Nat
  app : Nat
  appMask : Nat
  deriving DecidableEq, Repr

/-- What a fetched submission queue entry asks for, as far as fetch and ordering need it: the kind of command, its
namespace and its LBA range. -/
inductive CmdKind where
  | admin | read | write | flush | dealloc | memory | program | fusedPair | resv | copy | unsupported
  deriving DecidableEq, Repr

/-- The host-specified fields of a Namespace Management Create (R114). `other` says that a field outside the table is
not zero. -/
structure NsCreate where
  csi : Nat
  nsze : Nat
  ncap : Nat
  flbas : Nat
  dps : Nat
  nmic : Nat
  vendor : Nat
  other : Bool
  deriving DecidableEq, Repr

/-- How the decode of a page read ended (R155): at first attempt, with a stored set at step 1, at step 2, or in need
of step 3; or at first attempt with data that then failed its check (R242) in the light decompressor, in central engine
`eng`, or in both. -/
inductive Decode where
  | hard | retry (set : Nat) | soft | fail
  | check (light : Bool) (eng : Option Nat)
  deriving DecidableEq, Repr

/-- A fault of a die operation (R164): not ready at three times its maximum time; a bus transfer CRC error, a command not acknowledged or a
status that cannot be read; or no answer to die reset. -/
inductive DieFault where
  | timeout | bus | dead
  deriving DecidableEq, Repr

/-- A PHY calibration (R172): whether it succeeds, whether the one in the channel reset after a failure does, and the µs it takes. -/
structure CalRun where
  good : Bool
  again : Bool
  us : Nat
  deriving DecidableEq, Repr

/-- Images saved at Idle-Deep entry, by unit (R69). -/
inductive SavedUnit where
  | matchBanks | digest | keys | sorting | network
  deriving DecidableEq, Repr

/-- Why a module reset was asked for: the bits of AON.RST_CAUSE. -/
inductive RstCause where
  | perst | mgmt | wdt | rise | pll
  deriving DecidableEq, Repr

/-- What an orderly stop leads to (R60, R62). -/
inductive StopGoal where
  | watch
  | reset (c : RstCause)
  deriving DecidableEq, Repr

/-- Whose addresses a descriptor holds: physical (firmware), SLM offsets of a function (host), or an execution's. -/
inductive Space where
  | phys
  | host (f : Nat)
  | exec (e : Nat)
  deriving DecidableEq, Repr

/-- A parity error in the caches of a cluster (R289, R290): in a clean line, in a dirty line of this number, or in tags. -/
inductive Parity where
  | clean | data (line : Nat) | tag
  deriving DecidableEq, Repr

/-- What the decoder finds in a line or word read (R400, R407, R410, R411): nothing wrong; corrections in the codewords of
these lanes, or at this bit of an SRAM word, and whether they complete the thousand lines of R416; or an uncorrectable
codeword, and whether it is the sixteenth page of R417 within an hour. -/
inductive MemRes where
  | good | corrected (lanes : List Nat) (failing : Bool) | uncorr (sixteenth : Bool)
  deriving DecidableEq, Repr

/-- Whose data an uncorrectable DRAM read finds (R410): data of a write before landing; data of a read, with whether the second
read failed too; a clean or dirty map page; other firmware data, with whether firmware recovers; anything whose row tells
itself. -/
inductive MemOwner where
  | hostWrite (tag : Nat) | hostRead (tag : Nat) (again : Bool) | mapPage (key : Nat) | firmware (recovered : Bool) | other
  deriving DecidableEq, Repr

/-- Received frames by what the engine does with them (R425): resolution of, or echo to, an address of a port by its index; priority
flow control or pause; a segment or packet of a connection; anything else. -/
inductive NetFrame where
  | resolve (port addr : Nat) | echo (port addr : Nat) | pause | transport (conn : Nat) | other
  deriving DecidableEq, Repr

/-- Why a port is retired or a fault counted against it (R438): a failed SerDes calibration, an uncorrectable buffer error with
whether it is the second within 10 s, or CTRL.RETIRE with a key. -/
inductive PortFault where
  | cal | mem (second : Bool) | ctrl (key req : Nat)
  deriving DecidableEq, Repr

/-- A component image of an update package (R484–R488): component, version, and whether its signature and
format are good. -/
structure FwImage where
  comp : Nat
  version : Nat
  good : Bool
  deriving DecidableEq, Repr

/-- What a configuration read asks for: the Alternative Routing-ID capability of a function; of a port, TotalVFs, First VF offset, VF
stride, NumVFs and the L1 levels its Link Control and L1 PM Substates registers enable; a function's BAR2 size (R83, R85, R86). -/
inductive CfgItem where
  | ari (f : Nat) | totalVfs | firstVf | vfStride | numVfs | aspm | bar2 (f : Nat)
  deriving DecidableEq, Repr

/-- A configuration request: a write of SR-IOV NumVFs, of a function's MSI-X or MSI Enable, of the enabled L1 levels (1 for L1, 2 and 3 for
L1.1 and L1.2), of a function's BAR2 size as `2 ^ k` GiB; a read; any other. The link partner's request to enter an L1 level travels with
them (R77, R83, R85, R86, R88). -/
inductive CfgReq where
  | other | numVf (n : Nat) | msix (f : Nat) (on : Bool) | msi (f : Nat) (on : Bool)
  | aspm (on : List Nat) | enterL1 (level : Nat) | bar2 (f k : Nat) | read (x : CfgItem)
  deriving DecidableEq, Repr

/-- A request to the NVMe-MI management endpoint (R471): Read NVMe-MI Data Structure with its type, the two polls (the second with the
first controller), Configuration Set and Get, VPD Read and Write, Reset, and the vendor opcodes 0xC0–0xC2 with the key in request
byte 0. -/
inductive MiReq where
  | structure_ (dtyp : Nat) | subsystem | controllers (first : Nat)
  | configSet (id value : Nat) | configGet (id : Nat)
  | vpdRead (off len : Nat) | vpdWrite (off : Nat) (data : List Byte)
  | reset | moduleReset (key : Nat) | watchToRise (key : Nat) | watchToKeep (key : Nat)
  deriving DecidableEq, Repr

/-- A soft error in a row of a match array (R224–R226): array cells that make its entry match every key, or none, which the shadow does not
share; a shadow error that can be corrected; one that cannot. -/
inductive RowFault where
  | every | never | shadowCe | shadowDead
  deriving DecidableEq, Repr

end Sys2Proof
end

