-- ==== Sys2Proof/Syntax.lean ====
section
/-! DEFINITION. The commands the module takes: one constructor per row of the opcode table, in its order, with the row's rule. The operands
are what comes with the event from outside: addresses, values, identifiers, a requester number, or what the environment decides (an outcome
of the media, a measured value, a received message). -/

namespace Sys2Proof

/-- The commands. -/
inductive Instr where
  | registerWrite (addr size : Nat) (value : Word) (req : Nat)
  | malformedRegisterAccess (addr size : Nat) (value : Option Word) (req : Nat)
  | reservedAddressAccess (addr size req : Nat)
  | stalledAccessComplete
  | doorbellWrite (ctrl q tail : Nat)
  | cqHeadDoorbell (ctrl q head : Nat)
  | commandFetch (cid : Nat) (k : CmdKind) (nsid lba nlb : Nat)
  | tagFreed
  | trackerEntryFreed
  | write (tag : Nat) (data : List LBlk) (pr : PrInfo)
  | landingProgramDone (tag : Nat) (ok : Bool) (badChan : Nat)
  | read (tag : Nat) (pr : PrInfo)
  | mapPageLoadDone (page : Nat)
  | pageReadDone (chan die : Nat) (dec : Decode)
  | rebuildComplete (chan key : Nat) (ok : Bool)
  | flush (tag : Nat)
  | writeZeroes (tag : Nat) (deac : Bool) (pr : PrInfo)
  | datasetManagement (tag : Nat) (ad : Bool) (ranges : List (Nat × Nat))
  | compare (tag : Nat) (data : List LBlk) (pr : PrInfo)
  | fusedCompareAndWrite (tagC tagW : Nat) (cmp data : List LBlk) (pr : PrInfo) (bad : Bool)
  | verify (tag : Nat) (pr : PrInfo)
  | copy (tag fmt : Nat) (ranges : List (Nat × Nat)) (pr : PrInfo) (bad : List Nat)
  | reservationRegister (tag act : Nat) (iekey : Bool) (cptpl crkey nrkey : Nat)
  | reservationAcquire (tag act : Nat) (iekey : Bool) (rtype crkey prkey : Nat)
  | reservationRelease (tag act : Nat) (iekey : Bool) (rtype crkey : Nat)
  | reservationReport (tag dwords : Nat) (eds : Bool)
  | abort (tag sqid cid : Nat)
  | createIoSubmissionQueue (tag qid size0 cq prio addr : Nat) (pc : Bool)
  | createIoCompletionQueue (tag qid size0 addr : Nat) (pc : Bool) (vector : Option Nat)
  | deleteIoSubmissionQueue (tag qid : Nat)
  | deleteIoCompletionQueue (tag qid : Nat)
  | identify (tag cns cntid csi : Nat)
  | getFeatures (tag fid sel dw11 : Nat)
  | setFeatures (tag fid dw11 : Nat) (sv : Bool) (data : List Byte)
  | setPowerManagement (tag dw11 : Nat) (sv : Bool)
  | setOrderedQueue (tag dw11 : Nat) (sv : Bool)
  | setLandingPoolPolicy (tag dw11 : Nat) (sv : Bool)
  | setScanDefaults (tag dw11 : Nat) (sv : Bool)
  | setComputeRuntime (tag dw11 : Nat) (sv : Bool)
  | setThermalThresholds (tag dw11 : Nat) (sv : Bool)
  | setEventNotification (tag dw11 : Nat) (sv : Bool)
  | setTenantArbitrationReadOut (tag dw11 : Nat) (sv : Bool)
  | setNetworkPorts (tag dw11 : Nat) (sv : Bool) (data : List Byte) (lost : List Nat)
  | getLogPage (tag lid off dwords lsp : Nat) (rae : Bool)
  | moduleIdentityLog (tag off dwords : Nat)
  | wearAndSparesLog (tag off dwords : Nat)
  | powerAndModeLog (tag off dwords : Nat)
  | tagsAndOrderingLog (tag off dwords : Nat)
  | channelHealthLog (tag off dwords : Nat)
  | matchArraysLog (tag off dwords : Nat)
  | computeClustersLog (tag off dwords : Nat)
  | dramAndSramErrorsLog (tag off dwords : Nat)
  | networkPortsLog (tag off dwords : Nat)
  | sensorsAndThrottlingLog (tag off dwords : Nat)
  | eventRecorderWindowLog (tag off dwords : Nat) (byIndex rae : Bool) (tier : Nat)
  | firmwareComponentsLog (tag off dwords : Nat)
  | tenantResourcesLog (tag off dwords : Nat)
  | scanStatisticsLog (tag off dwords : Nat)
  | asynchronousEventRequest (tag : Nat)
  | keepAlive (tag : Nat)
  | namespaceCreate (tag : Nat) (a : NsCreate)
  | namespaceDelete (tag : Nat)
  | namespaceAttach (tag : Nat) (ctrls : List Nat)
  | namespaceDetach (tag : Nat) (ctrls : List Nat)
  | formatNvm (tag idx ses pi : Nat) (ext : Bool)
  | sanitize (tag act : Nat) (ndas : Bool)
  | sanitizeComplete (bad : Bool) (failed : List (Nat × Nat))
  | deviceSelfTest (tag code : Nat)
  | nvmeMiSend (tag : Nat) (r : MiReq)
  | nvmeMiReceive (tag : Nat) (r : MiReq)
  | secondaryControllerOffline (tag cntlid : Nat)
  | secondaryControllerOnline (tag cntlid : Nat)
  | firmwareDownload (tag off dwords : Nat)
  | firmwareCommit (tag fs ca : Nat) (images : List FwImage)
  | controlFirmwareHandover (ended : Option Bool)
  | fetchHold (v req : Nat)
  | shutdown (ctrl : Nat) (normal : Bool)
  | controllerReset (ctrl : Nat)
  | functionLevelReset (f : Nat)
  | nvmSubsystemReset (value : Nat)
  | perstAssert
  | perstDeassert
  | perstbAssert
  | linkTrained (portB : Bool) (speed width : Nat) (flit degraded : Bool)
  | linkDown (portB : Bool)
  | configurationRequest (portB : Bool) (r : CfgReq)
  | barReservedAccess (f bar off : Nat) (value : Option Nat)
  | vbusWarn
  | pfailAssert
  | pfailDeassert
  | pfailHoldExpiry
  | braceComplete
  | braceRecovery
  | holdupSwitchIn
  | brownoutLimit
  | sealStart
  | sealEnd (energy duration : Nat)
  | sealJudgment (vbusAt50 : Bool)
  | restExpiry
  | keepVbusRecovery
  | regulatorCutoff (franked : Nat)
  | inputAtStartThreshold (aux : Bool)
  | inputStop (aux : Bool)
  | inputOvervoltage (aux : Bool)
  | inputReconnect (aux : Bool)
  | sourceTransfer
  | sourceReturn
  | reserveReached
  | reserveLow
  | heldWriteTimeout (tag : Nat)
  | bankTest
  | bankTestInterval
  | bankTestDone (energy cap esr : Nat)
  | pwrdisAssert
  | pwrdisHoldExpiry
  | pwrdisDeassert
  | wakeTimerExpiry
  | resetReqModule (key req : Nat)
  | resetReqNvmssr (key req : Nat)
  | resetReqKeep (key req : Nat)
  | resetReqStart (key req : Nat)
  | moduleReset (c : RstCause)
  | moduleResetOffExpiry
  | managementWatchdogExpiry
  | orderlyStop (g : StopGoal)
  | orderlyStopGraceExpiry
  | inputQualified (aux : Bool)
  | firmwareVerified (fallbacks : Nat) (allFail : Bool)
  | dramDelayCheck (failed : List Nat)
  | mapDirectoryLoaded (primaryOk secondOk : Bool) (cals : List CalRun)
  | journalReplayDone (ms : Nat) (primaryOk secondOk : Bool)
  | openBlockScanDone (ms total : Nat)
  | cstsRdySet (ctrl : Nat)
  | riseTimeout
  | idleConditionsChange (transfers : Bool)
  | apstIdleExpiry (ctrl ps : Nat)
  | idleEntry (deep : Bool)
  | idleWake (bit elapsed : Nat) (bad : List SavedUnit)
  | delayWakeExpiry (elapsed : Nat)
  | pllLockLoss (n lockUs : Nat)
  | xtalSwitch
  | controlCoreRetire (k : Nat)
  | fillRecompute
  | foldStart (source : Nat) (quiet : Bool)
  | foldProgramDone (source : Nat) (ok : Bool) (bad : List Nat)
  | garbageCollection
  | gcCopyLanded (source : Nat) (ok : Bool) (badChan : Nat) (bad : List Nat)
  | wearLevelling
  | secureDiscard
  | journalFlush
  | checkpoint
  | mapPageWritten (page : Nat)
  | backgroundMapLoad
  | eraseDone (chan die : Nat) (ok : Bool)
  | dieTimeout (chan die : Nat) (fault : DieFault)
  | governorAdmit (chan : Nat) (bus foldLate : Bool)
  | eraseSuspend (chan die run : Nat)
  | suspendResume (chan die : Nat) (limit bus : Bool)
  | preReadIssue (chan : Nat) (bus : Bool)
  | preReadStaged (chan die : Nat) (ok : Bool)
  | retryBackoffExpiry (chan die : Nat) (ok calGood : Bool)
  | channelReset (chan : Nat) (calGood : Bool) (us : Nat)
  | calibrate (chan : Nat) (good again : Bool) (us : Nat)
  | periodicCalibration (chan : Nat) (good again : Bool) (us : Nat)
  | channelHold (chan v : Nat)
  | channelRetire (chan : Nat) (byFailure : Bool) (key req : Nat)
  | patrolRead (chan die sb : Nat)
  | microcodeSwitch (chan version : Nat) (ok : Bool)
  | scan (tag off : Nat)
  | scanJobAccepted
  | scanIuEvaluate (num iu via : Nat)
  | outputRingSpace (num chan : Nat)
  | scanTimeLimit (num : Nat)
  | scanContextAbort (chan mask req : Nat)
  | scanJobComplete (num : Nat)
  | matchLookup (tag off n : Nat)
  | matchTableCreate (tag c11 c12 c13 : Nat)
  | matchTableDelete (tag n : Nat)
  | matchSearch (f table : Nat) (key : List Word) (errs : List (Nat × RowFault))
  | matchSearchFrom (f table : Nat) (key : List Word) (start : Nat) (errs : List (Nat × RowFault))
  | matchWriteEntry (f table index : Nat) (value care : List Word)
  | matchDeleteEntry (f table index : Nat)
  | matchReadEntry (f table index : Nat)
  | tableMapWrite (table req : Nat) (v : Word)
  | tableClearDone (bank : Nat)
  | entryInvalidate (bank row req : Nat)
  | entryValidate (bank row req : Nat)
  | matchWindowWrite (bank off req : Nat) (bs : List Byte)
  | matchScrub (bank : Nat) (fixed : List (Nat × Nat)) (dead : List Nat) (corrected : Nat)
  | rowRepair (bank row : Nat) (readBack : Bool)
  | columnRepair (bank bit : Nat)
  | compress (n : Nat) (sp : Space) (addr : Nat) (more : List Byte)
  | expand (n : Nat) (sp : Space) (addr : Nat)
  | check (n : Nat) (sp : Space) (addr : Nat)
  | engineFault (n : Nat)
  | engineAbort (n : Nat) (sp : Space) (addr : Nat)
  | engineRetire (n key req : Nat)
  | digestClaim (c req : Nat)
  | digestRelease (c req : Nat)
  | digestStart (c v req : Nat)
  | digestDataWrite (c : Nat) (w : Word) (size off req : Nat)
  | digestKeyWrite (c j : Nat) (w : Word) (req : Nat)
  | digestBlockTaken (c : Nat)
  | digestFinish (c v req : Nat)
  | digestAbort (c v req : Nat)
  | digestExport (c v req : Nat)
  | digestImport (c v req : Nat)
  | digestLetter (sp : Space) (addr : Nat)
  | keyManagerAlarm (letters : List (Space × Nat))
  | contextAlarm (c : Nat)
  | slotReloadDone (ok : Bool)
  | loadKeySlot (slot entry req : Nat) (ok : Bool)
  | zeroizeKeySlot (slot entry req : Nat)
  | cryptoEraseEntry (entry req : Nat)
  | keyUnwrap (nsid : Nat) (ok : Bool)
  | keySlotFreed (slot : Nat) (ok : Bool)
  | runAheadEntry (k a : Nat)
  | runAheadExit (k cycles : Nat) (fault : Bool)
  | preReadDispatchTimeout (h : Nat)
  | preStagedExpiry (f nsid iu : Nat)
  | windowLoad (k ea : Nat)
  | windowPageStaged (h : Nat)
  | dirtyFault (n : Nat) (p : Parity) (left : Nat) (selfTest : Bool)
  | fillError (n : Nat) (load : Option (Nat × Half × Word))
  | cacheEnableWrite (n v req : Nat)
  | wayLockWrite (n v req : Nat)
  | invAll (n req : Nat)
  | cleanAll (n req : Nat)
  | cleanInvAll (n req : Nat)
  | invRange (n req : Nat)
  | cleanRange (n req : Nat)
  | cleanInvRange (n req : Nat)
  | iinvRange (n req : Nat)
  | lockFillRange (n req : Nat)
  | cmoDone (n : Nat)
  | clusterReset (n : Nat) (selfTest : Bool)
  | clusterRetire (n : Nat) (byCtrl : Bool) (key req : Nat)
  | runtimeUpdate (n : Nat)
  | runtimeUpdateGraceExpiry (n version : Nat) (startOk selfTest : Bool)
  | add (k : Nat) (w : Half)
  | sub (k : Nat) (w : Half)
  | and (k : Nat) (w : Half)
  | or (k : Nat) (w : Half)
  | xor (k : Nat) (w : Half)
  | andn (k : Nat) (w : Half)
  | orn (k : Nat) (w : Half)
  | sll (k : Nat) (w : Half)
  | srl (k : Nat) (w : Half)
  | sra (k : Nat) (w : Half)
  | ror (k : Nat) (w : Half)
  | addw (k : Nat) (w : Half)
  | subw (k : Nat) (w : Half)
  | sllw (k : Nat) (w : Half)
  | srlw (k : Nat) (w : Half)
  | sraw (k : Nat) (w : Half)
  | mul (k : Nat) (w : Half)
  | mulh (k : Nat) (w : Half)
  | mulhu (k : Nat) (w : Half)
  | mulw (k : Nat) (w : Half)
  | div (k : Nat) (w : Half)
  | divu (k : Nat) (w : Half)
  | rem (k : Nat) (w : Half)
  | remu (k : Nat) (w : Half)
  | clz (k : Nat) (w : Half)
  | ctz (k : Nat) (w : Half)
  | popc (k : Nat) (w : Half)
  | bswap (k : Nat) (w : Half)
  | sextb (k : Nat) (w : Half)
  | sexth (k : Nat) (w : Half)
  | sextw (k : Nat) (w : Half)
  | zextw (k : Nat) (w : Half)
  | min (k : Nat) (w : Half)
  | max (k : Nat) (w : Half)
  | minu (k : Nat) (w : Half)
  | maxu (k : Nat) (w : Half)
  | cmpeq (k : Nat) (w : Half)
  | cmpne (k : Nat) (w : Half)
  | cmplt (k : Nat) (w : Half)
  | cmpltu (k : Nat) (w : Half)
  | cmple (k : Nat) (w : Half)
  | cmpleu (k : Nat) (w : Half)
  | sel (k : Nat) (w : Half)
  | addi (k : Nat) (w : Half)
  | andi (k : Nat) (w : Half)
  | ori (k : Nat) (w : Half)
  | xori (k : Nat) (w : Half)
  | lui (k : Nat) (w : Half)
  | shi (k : Nat) (w : Half)
  | cmpeqi (k : Nat) (w : Half)
  | cmpnei (k : Nat) (w : Half)
  | cmplti (k : Nat) (w : Half)
  | cmpltui (k : Nat) (w : Half)
  | addpc (k : Nat) (w : Half)
  | ldb (k : Nat) (w : Half)
  | ldbu (k : Nat) (w : Half)
  | ldh (k : Nat) (w : Half)
  | ldhu (k : Nat) (w : Half)
  | ldw (k : Nat) (w : Half)
  | ldwu (k : Nat) (w : Half)
  | ldd (k : Nat) (w : Half)
  | stb (k : Nat) (w : Half)
  | sth (k : Nat) (w : Half)
  | stw (k : Nat) (w : Half)
  | std (k : Nat) (w : Half)
  | wldbu (k : Nat) (w : Half)
  | wldhu (k : Nat) (w : Half)
  | wldwu (k : Nat) (w : Half)
  | wldd (k : Nat) (w : Half)
  | prd (k : Nat) (w : Half)
  | amoSwap (k : Nat) (w : Half)
  | amoAdd (k : Nat) (w : Half)
  | amoAnd (k : Nat) (w : Half)
  | amoOr (k : Nat) (w : Half)
  | amoXor (k : Nat) (w : Half)
  | amoMin (k : Nat) (w : Half)
  | amoMax (k : Nat) (w : Half)
  | amoMinu (k : Nat) (w : Half)
  | amoMaxu (k : Nat) (w : Half)
  | amoCas (k : Nat) (w : Half)
  | amoLd (k : Nat) (w : Half)
  | amoSt (k : Nat) (w : Half)
  | beqz (k : Nat) (w : Half)
  | bnez (k : Nat) (w : Half)
  | j (k : Nat) (w : Half)
  | call (k : Nat) (w : Half)
  | jr (k : Nat) (w : Half)
  | callr (k : Nat) (w : Half)
  | ret (k : Nat) (w : Half)
  | svreq (k : Nat) (w : Half)
  | dbgtrap (k : Nat) (w : Half)
  | fence (k : Nat) (w : Half)
  | ifence (k : Nat) (w : Half)
  | mfsr (k : Nat) (w : Half)
  | mtsr (k : Nat) (w : Half)
  | xret (k : Nat) (w : Half)
  | idle (k : Nat) (w : Half)
  | tlbinv (k : Nat) (w : Half)
  | reservedInstruction (k : Nat) (w : Half)
  | interruptTaken (k : Nat) (ext : Bool)
  | timerCompareMatch (k cycles : Nat)
  | vadd (k : Nat) (w : Half)
  | vsub (k : Nat) (w : Half)
  | vmul (k : Nat) (w : Half)
  | vmulhu (k : Nat) (w : Half)
  | vand (k : Nat) (w : Half)
  | vor (k : Nat) (w : Half)
  | vxor (k : Nat) (w : Half)
  | vandn (k : Nat) (w : Half)
  | vmin (k : Nat) (w : Half)
  | vmax (k : Nat) (w : Half)
  | vminu (k : Nat) (w : Half)
  | vmaxu (k : Nat) (w : Half)
  | vaddss (k : Nat) (w : Half)
  | vaddsu (k : Nat) (w : Half)
  | vsubss (k : Nat) (w : Half)
  | vsubsu (k : Nat) (w : Half)
  | vsll (k : Nat) (w : Half)
  | vsrl (k : Nat) (w : Half)
  | vsra (k : Nat) (w : Half)
  | vbsl (k : Nat) (w : Half)
  | vcmpeq (k : Nat) (w : Half)
  | vcmpgt (k : Nat) (w : Half)
  | vcmpgtu (k : Nat) (w : Half)
  | vclmul (k : Nat) (w : Half)
  | vfadd (k : Nat) (w : Half)
  | vfsub (k : Nat) (w : Half)
  | vfmul (k : Nat) (w : Half)
  | vfma (k : Nat) (w : Half)
  | vfmin (k : Nat) (w : Half)
  | vfmax (k : Nat) (w : Half)
  | vfcmpeq (k : Nat) (w : Half)
  | vfcmplt (k : Nat) (w : Half)
  | vfcmple (k : Nat) (w : Half)
  | vcvtif (k : Nat) (w : Half)
  | vcvtfi (k : Nat) (w : Half)
  | vdup (k : Nat) (w : Half)
  | vext (k : Nat) (w : Half)
  | vins (k : Nat) (w : Half)
  | vmovmsk (k : Nat) (w : Half)
  | vshufb (k : Nat) (w : Half)
  | vredaddu (k : Nat) (w : Half)
  | vredmaxu (k : Nat) (w : Half)
  | vredminu (k : Nat) (w : Half)
  | vmov (k : Nat) (w : Half)
  | vld (k : Nat) (w : Half)
  | vst (k : Nat) (w : Half)
  | submit (p req : Nat)
  | take (p fn ns req : Nat)
  | done (p st req : Nat)
  | query (p req : Nat)
  | cancel (p req : Nat)
  | ctrAllocate (p req : Nat)
  | ctrAdd (p req : Nat)
  | ctrSet (p req : Nat)
  | ctrRead (p req : Nat)
  | ctrFree (p req : Nat)
  | routeRead (req : Nat)
  | routeCreate (req : Nat)
  | routeDelete (req : Nat)
  | endOwner (req : Nat)
  | routeSetClusters (req : Nat)
  | orderedModeWrite (b req : Nat)
  | letterDue
  | letterAging (id : Nat)
  | letterOffer (p : Nat)
  | letterDispatch (window : Bool) (id ns : Nat)
  | engineLetterEnd (id unit : Nat) (more : List Byte)
  | exit (k : Nat)
  | wmap (k : Nat)
  | wunmap (k : Nat)
  | tcreate (k : Nat)
  | tdelete (k : Nat)
  | route (k : Nat)
  | memoryRead (tag off len : Nat)
  | memoryWrite (tag off : Nat) (data : List Byte)
  | memoryFill (tag off len : Nat) (pat : Word)
  | memoryCopyToSlm (tag off : Nat) (ranges : List (Nat × Nat × Nat)) (pr : PrInfo) (bad : List Nat)
  | memoryCopyToNvm (tag off nsid slba nlb : Nat) (pr : PrInfo)
  | memoryRangeSetCreate (tag : Nat) (ranges : List (Nat × Nat))
  | memoryRangeSetDelete (tag id : Nat)
  | loadProgram (tag slot ptype off : Nat) (data : List Byte)
  | unloadProgram (tag slot : Nat)
  | activateProgram (tag slot : Nat)
  | deactivateProgram (tag slot : Nat)
  | executeProgram (tag slot rset : Nat) (params : List Byte)
  | executionTimeLimit (e : Nat)
  | executionEnd (e : Nat)
  | mediaRead (id : Nat) (bad : List Nat)
  | dramRead (addr port : Nat) (res : MemRes) (o : MemOwner)
  | narrowWrite (addr port : Nat) (data : List Byte) (core : Option Nat) (res : MemRes)
  | portUrgent (n p : Nat) (on : Bool)
  | refreshInterval (n repaid postponed : Nat) (hot : Bool)
  | delayApply (n : Nat) (good : Bool)
  | recalibrationDue (n : Nat) (drift : List (Nat × Nat)) (stage : List Half) (aged good : Bool)
  | dramHold (n : Nat) (on : Bool)
  | dramChannelRetire (n key req : Nat)
  | pageRetire (n page : Nat)
  | scrubStep (word : Option (Bool × Nat)) (res : MemRes) (late : Bool)
  | sramRead (retained : Bool) (addr : Nat) (res : MemRes)
  | sramRepair (m : Nat) (column : Bool) (index : Nat)
  | portLinkDown (n : Nat)
  | portLinkUp (n speed : Nat) (fec : Bool)
  | addressFailback (n : Nat)
  | announcementRepeat (n : Nat)
  | moduleInsert (n power temp : Nat)
  | moduleRemove (n : Nat)
  | modulePoll (n power temp : Nat)
  | portRetrain (n : Nat)
  | portRetire (n : Nat) (f : PortFault)
  | frameReceived (n : Nat) (k : NetFrame) (len corr uncorr : Nat) (full drained : Option Nat)
  | connect (c n : Nat) (roce : Bool) (nqn : List Byte) (disc : Bool) (k qid size kato : Nat)
  | propertySet (k off value : Nat)
  | katoExpiry (k : Nat)
  | connectionClosed (c : Nat)
  | icreq (c n : Nat) (hdgst ddgst : Bool) (hpda : Nat)
  | h2cData (c tag : Nat) (headBad dataBad : Bool)
  | tlsHandshake (c n slot : Nat) (ok : Bool)
  | queuePairError (c : Nat)
  | cePacketReceived (c : Nat) (recent : Bool)
  | cnpReceived (c : Nat)
  | rateRecoveryTimer (c : Nat)
  | letterboxDoorbell (f : Nat) (msgs : List (List Byte)) (tail : Nat)
  | letterboxQuery
  | assign
  | move
  | claim (down : Bool)
  | relay
  | m2hHeadWrite (f head : Nat)
  | sensorRead (i t16 : Nat)
  | thermalEvaluation (cool : Bool)
  | capControl
  | enec (addr : Option Nat) (events : Nat)
  | disec (addr : Option Nat) (events : Nat)
  | rstdaa
  | entdaa (a : Nat)
  | setdasa (static a : Nat)
  | setnewda (old a : Nat)
  | setmwl (addr : Option Nat) (n : Nat)
  | setmrl (addr : Option Nat) (n : Nat)
  | getmwl (addr : Nat)
  | getmrl (addr : Nat)
  | getpid (addr : Nat)
  | getbcr (addr : Nat)
  | getdcr (addr : Nat)
  | getstatus (addr : Nat)
  | rstact (addr : Option Nat) (action : Nat)
  | hotJoin
  | ibiDeferExpiry
  | setEndpointId (eid : Nat)
  | readNvmeMiDataStructure (dtyp : Nat)
  | subsystemHealthStatusPoll
  | controllerHealthStatusPoll (first : Nat)
  | configurationSet (id v : Nat)
  | configurationGet (id : Nat)
  | vpdRead (off len : Nat)
  | vpdWrite (off : Nat) (data : List Byte)
  | nvmeMiReset
  | tunnelledAdminCommand (ctrl cid nsid : Nat)
  | miModuleReset (key : Nat)
  | miWatchToRise (key : Nat)
  | miWatchToKeep (key : Nat)
  | setNumericEffecterValue (w : Nat)
  | getSensorReading (i : Nat)
  | requestUpdate
  | activateFirmware (selfContained : Bool)
  | cflProgram (addr : Nat) (data : Word) (req : Nat)
  | cflEraseSector (addr key req : Nat)
  | cflEraseGroup (addr key req : Nat)
  | cflOperationDone (bad : List Nat)
  | cflRead (addr : Nat) (res : MemRes) (early : Bool) (req : Nat)
  | settingsCommit (bytes : Nat)
  | settingsCompaction
  | managementFirmwareSwitch (ended : Option Bool)
  | networkFirmwareSwitch (ended : Option Bool)
  | postmark (code src : Nat) (args : List Nat)
  | postmarkWrite
  | coalescingWindowEnd (lane code src : Nat)
  | postmarkSubmit (k req : Nat)
  | cursorWrite (w q : Nat) (forMctp : Bool)
  | drain
  | sealSegmentErase
  | ident (tag : Nat) (badFrame : Bool)
  | debugRead (tag size addr : Nat) (badFrame late : Bool)
  | debugWrite (tag size addr : Nat) (data : Word) (badFrame late : Bool)
  | readInc (tag size : Nat) (badFrame late : Bool)
  | writeInc (tag size : Nat) (data : Word) (badFrame late : Bool)
  | collect (tag : Nat) (badFrame : Bool)
  | repeatRequest (tag : Nat) (badFrame : Bool)
  | lineReset
  | debugAccessComplete
  | coreHalt (k req : Nat)
  | coreResume (k req : Nat)
  | coreStep (k : Nat) (noInt : Bool) (req : Nat)
  | breakpointHit (k : Nat)
  | watchpointHit (k addr n : Nat) (load store : Bool)
  | regDataWrite (k : Nat) (v : Word) (req : Nat)
  | pcWrite (k : Nat) (v : Word) (req : Nat)
  | debugResetPin
  | debugResetCommand (key req : Nat)
  | controllerEnable (f asq acq ams mps : Nat)
  | perstbDeassert
  | pcieHotReset (portB : Bool)
  | bar2Access (f off n : Nat) (data : Option (List Byte))
  | journalFlushDone
  | relocation
  | retransmissionTimeout (c : Nat)
  | platformEventMessage
  | updateComponent (i : FwImage)
  | starvationEpisode (n p : Nat)
  deriving DecidableEq, Repr

end Sys2Proof
end

