-- ==== Sys2Proof/Config.lean ====
section
/-! DEFINITION. What the manual leaves open: free values no proof can see (opaque, no body). -/

namespace Sys2Proof

/-- The `n`th free value of a run: the value the manual leaves open at a point where the module goes on. -/
opaque Config.freeValue : Nat → BitVec 64

/-- The module's serial number as a number; its low 12 bits stand in the I3C provisional ID (R467). -/
opaque Config.serialNumber : Nat

/-- The vital product data as manufactured (R471). -/
opaque Config.vpdByte : Nat → Byte

/-- The bytes of the boot ROM, by offset (R33). -/
opaque Config.bootRom : Nat → Byte

/-- Factory bad blocks of each plane of the die numbered 8 × channel + die, within the allowance of 40 (R126). -/
opaque Config.factoryBad : Nat → Fin 41

end Sys2Proof
end

