-- ==== Sys2Proof/Machine/Parts/Bus.lean ====
section
/-! DEFINITION. What register access and the debug link keep between accesses: latched words, stalled accesses, the link's address and
last response (R9, R37, R506, R507). -/

namespace Sys2Proof.Machine

/-- A register access that waits: address, size, the value of a write, requester (R37). -/
structure BusAcc where
  addr : Nat
  size : Nat
  val : Option Word
  req : Nat
  deriving DecidableEq, Repr

/-- The Boward Debug Link: the address of READ_INC and WRITE_INC, the last response, the access pending, and the result of one that has
ended (`none` a bus error) with its address and size (R506, R507). -/
structure DbgLink where
  addr : Nat
  resp : List Byte
  pend : Option BusAcc
  done : Option (Option Word × BusAcc)
  deriving DecidableEq, Repr

/-- Words latched by a read of a low word (key 2 × address), low words held for a write (key 2 × address + 1), stalled accesses in order
of arrival, and the debug link. -/
structure BusSt where
  latch : SMap Word
  stalled : List BusAcc
  link : DbgLink
  deriving DecidableEq, Repr

/-- Nothing latched, stalled or sent. -/
def BusSt.reset : BusSt := ⟨[], [], ⟨0, [], none, none⟩⟩

end Sys2Proof.Machine
end

