-- ==== Sys2Proof/Machine/Parts/Comp.lean ====
section
/-! DEFINITION. Stream contexts of the compression engines (R246). -/

namespace Sys2Proof.Machine

/-- A stream carried across descriptors: format, direction, input and output given so far, and the context buffer as the
engine wrote it. -/
structure CompCtx where
  format : Nat
  expand : Bool
  input : List Byte
  output : List Byte
  image : List Byte
  deriving DecidableEq, Repr

/-- The compression engines: stream contexts by the physical address of their buffer. -/
structure Comp where
  ctxs : SMap CompCtx
  /-- ticks at which an operation of an engine last met an internal fault (R253) -/
  faults : SMap Nat
  deriving DecidableEq, Repr

/-- No stream under way. -/
def Comp.reset : Comp := ⟨[], []⟩

end Sys2Proof.Machine
end

