-- ==== Sys2Proof/Machine/Parts/Core.lean ====
section
/-! DEFINITION. Axgal cores and compute clusters beyond the AXC, CTC and DBG registers (R277–R348). Cores are numbered as
R508 numbers them. -/

namespace Sys2Proof.Machine

/-- A cached translation: first virtual address, log2 of the bytes covered, the entry and where it lies (R341). -/
structure TlbEnt where
  va : Nat
  bits : Nat
  entry : Word
  at_ : Nat
  deriving DecidableEq, Repr

/-- One core. System registers are kept by number (R333); `tables` names the execution whose translation tables the runtime
has installed for User level (R380). -/
structure Core where
  g : SMap Word
  pc : Word
  lvl : Nat
  v : SMap (BitVec 256)
  sys : SMap Word
  tlb : List TlbEnt
  tables : Option Nat
  idle : Bool
  locked : Bool
  /-- one step of the debug link is under way, and the breakpoint at the resume address is passed once (R509, R510) -/
  stepping : Bool
  passBp : Bool
  /-- in run-ahead: number of the episode and pre-reads it may still make, by RA_CFG as it stood at entry (R280, R284, R306) -/
  ahead : Option (Nat × Nat)
  episodes : Nat
  /-- level of the external interrupt request where its source is not modelled (R339) -/
  ext : Bool
  deriving DecidableEq, Repr

/-- A core at its reset: Machine level at the boot ROM (R331). -/
def Core.fresh : Core := ⟨[], 0x8000000, 2, [], [], [], none, false, false, false, false, none, 0, false⟩

/-- The User state of a suspended letter, and the cluster it ran on (R360). -/
structure SavedCtx where
  cluster : Nat
  g : SMap Word
  pc : Word
  stklim : Word
  vstat : Word
  v : SMap (BitVec 256)
  deriving DecidableEq, Repr

/-- A 64-byte line that is dirty in the caches of a cluster: the cluster and what DRAM holds (R286, R293). -/
structure DirtyLine where
  cluster : Nat
  old : List Byte
  deriving DecidableEq, Repr

/-- What a runtime update of a cluster is doing (R303). -/
inductive RtUpd where
  | none | grace
  deriving DecidableEq, Repr

/-- A compute cluster. -/
structure Clus where
  /-- locked L2 entries: way and line (R291) -/
  locked : List (Nat × Nat)
  /-- functions whose letters have run here since the last reset (R290) -/
  funcs : List Nat
  faultsLife : Nat
  faults24 : Nat
  resets : Nat
  version : Nat
  update : RtUpd
  /-- maintenance operation under way, 0 when none (R293) -/
  cmo : Nat
  /-- totals of log page 0xC6 from before the last cluster reset: clean repairs, instructions, episodes, pre-reads
  submitted, claimed and unclaimed -/
  acc : List Nat
  deriving DecidableEq, Repr

/-- A cluster never faulted. -/
def Clus.fresh : Clus := ⟨[], [], 0, 0, 0, 0, .none, 0, [0, 0, 0, 0, 0, 0]⟩

end Sys2Proof.Machine
end

