-- ==== Sys2Proof/Machine/Parts/Dig.lean ====
section
/-! DEFINITION. Digest contexts, state blobs and the key manager (R257–R276). -/

namespace Sys2Proof.Machine

/-- What a digest context holds beside its registers: the HMAC key registers, the key in use, the message so far and the
word held back (R262, R263). -/
structure DigCtx where
  keyRegs : List Word
  key : List Byte
  msg : List Byte
  held : Option Word
  deriving DecidableEq, Repr

/-- An empty context. -/
def DigCtx.fresh : DigCtx := ⟨List.replicate 16 0, [], [], none⟩

/-- A state blob exported since the last Rise: its bytes, and the message it carries (R265). -/
structure DigBlob where
  image : List Byte
  alg : Nat
  hmac : Bool
  key : List Byte
  msg : List Byte
  held : Option Word
  decl : Nat
  deriving DecidableEq, Repr

/-- The digest engine: contexts, blobs, and the letters that wait for a context, in arrival order (R259). -/
structure Dig where
  ctxs : SMap DigCtx
  blobs : List DigBlob
  waiting : List (Space × Nat)
  deriving DecidableEq, Repr

/-- No message. -/
def Dig.reset : Dig := ⟨[], [], []⟩

/-- The key manager: the key store (entry to key, keys told apart by number), its generation, the slots (slot to entry) with
their order of use, and entries that wait for a slot (R269, R270). -/
structure Keys where
  store : SMap Nat
  gen : Nat
  nextKey : Nat
  slots : SMap Nat
  lru : List Nat
  waiting : List Nat
  deriving DecidableEq, Repr

/-- The key store at manufacture holds the metadata key. -/
def Keys.reset : Keys := ⟨[(0, 0)], 1, 1, [], [], []⟩

end Sys2Proof.Machine
end

