-- ==== Sys2Proof/Machine/Parts/Dram.lean ====
section
/-! DEFINITION. DRAM and SRAM error handling beyond the DMC and MEM registers (R398–R420). -/

namespace Sys2Proof.Machine

/-- The memories' own state. -/
structure Dram where
  /-- poisoned lines, by address / 64 (R409) -/
  poison : List Nat
  /-- lines found uncorrectable and not yet scrubbed or rewritten (R410) -/
  bad : List Nat
  /-- poisoned words of fabric SRAM, by address / 8 (R411) -/
  sram : List Nat
  /-- log entries whose postmark is still to be written: its CODE and SOURCE, and the entry, none for a lost one (R412) -/
  logWait : List (Nat × Nat × Option Nat)
  /-- fabric and retained SRAM, corrected and uncorrectable, since power-on -/
  sramCnt : SMap Nat
  /-- recalibrations of a channel that failed in succession, and channels whose recalibration waits for the end of
  Idle-Shallow (R405, R417) -/
  recalFails : SMap Nat
  recalDue : List Nat
  /-- field repairs of the fuse-shadow table: macro, whether a column, and its number (R419) -/
  fuses : List (Nat × Bool × Nat)
  deriving DecidableEq, Repr

/-- No error yet. -/
def Dram.reset : Dram := ⟨[], [], [], [], [], [], [], []⟩

end Sys2Proof.Machine
end

