-- ==== Sys2Proof/Machine/Parts/Nvme.lean ====
section
/-! DEFINITION. NVMe controllers, queues, command tags and namespaces (R85–R112, R114–R120). -/

namespace Sys2Proof.Machine

/-- A completion: queue and command identifiers, status code type and code, DNR, dwords 0 and 1 and the data
transferred. -/
structure Cqe where
  sq : Nat
  cid : Nat
  sct : Nat
  sc : Nat
  dnr : Bool
  dw0 : Nat
  dw1 : Nat
  data : List Byte
  deriving DecidableEq, Repr

/-- A submission queue. `paused` waits for nothing of its own: fetching looks at its controller and completion queue. -/
structure Sq where
  size : Nat
  head : Nat
  tail : Nat
  cq : Nat
  prio : Nat
  ordered : Bool
  haltErr : Bool
  halted : Bool
  deriving DecidableEq, Repr

/-- A completion queue: entries posted since the host's head, and completions held while it is full (R94). -/
structure Cq where
  size : Nat
  head : Nat
  tail : Nat
  vector : Option Nat
  posted : List Cqe
  held : List (Nat × Cqe)
  deriving DecidableEq, Repr

/-- How far a fetched command has come. -/
inductive Phase where
  /-- fetched; nothing done yet -/
  | fetched
  /-- a write held at admission for want of the Commit reserve (R43) or by brace (R27) -/
  | held
  /-- waits for a map page (R124), given by its key -/
  | waitMap (page : Nat)
  /-- a media operation of the command has started -/
  | started
  /-- a write waits for the current contents of units it covers in part (R122) -/
  | merging
  /-- its SLC programs have succeeded and it waits for the journal (R144) or for landing space (R130) -/
  | waitJournal
  | waitLanding
  /-- its result stands and waits to be posted in order (R103) -/
  | done
  deriving DecidableEq, Repr

/-- The contents of one indirection unit: its logical blocks by offset within it, absent ones zero. -/
abbrev IuData := SMap LBlk

/-- The landing page reserved for a unit of a write, and its stored size (R17, R118). -/
structure Place where
  sb : Nat
  chan : Nat
  die : Nat
  stored : Nat
  deriving DecidableEq, Repr

/-- A fetched command, holding a tag (R93). -/
structure Cmd where
  tag : Nat
  ctrl : Nat
  sq : Nat
  cid : Nat
  order : Nat
  /-- the queue was ordered, and halting on errors, when the command was fetched (R104) -/
  ordered : Bool
  haltErr : Bool
  kind : CmdKind
  nsid : Nat
  lba : Nat
  nlb : Nat
  /-- the tag came from the shared pool -/
  shared : Bool
  /-- it holds an entry of the overlap tracker (R99) -/
  tracked : Bool
  phase : Phase
  /-- a write that has been admitted (R43, R118), and a command of which a media operation has started (R109) -/
  admitted : Bool
  media : Bool
  /-- data to be written, by LBA, and whether the write replaces or deallocates -/
  wdata : SMap LBlk
  dealloc : Bool
  /-- landing pages of its units, by unit number, from the start of its landing (R17, R130) -/
  places : SMap Place
  /-- units a read still waits for, units whose map lookup has run, and the versions found (R101) -/
  need : List Nat
  looked : List Nat
  got : SMap IuData
  /-- fields of the command kept until it completes -/
  pr : PrInfo
  verifyOnly : Bool
  compareOnly : Bool
  /-- an Abort that has been executed, its completion held (R89) -/
  abort : Bool
  result : Option Cqe
  deriving DecidableEq, Repr

/-- Reservation of a namespace: registrants (host and key), holder, type, generation, persistence (R89). -/
structure Resv where
  regs : List (Nat × Nat)
  holder : Option Nat
  rtype : Nat
  gen : Nat
  ptpl : Bool
  deriving DecidableEq, Repr

/-- A namespace. CSI 0 is an NVM namespace, 3 a memory namespace, 4 a compute namespace. Sizes in LBAs, or in bytes
for memory. -/
structure Ns where
  csi : Nat
  nsze : Nat
  ncap : Nat
  flbas : Nat
  /-- metadata is transferred at the end of the logical block (extended LBA) -/
  ext : Bool
  dps : Nat
  shared : Bool
  options : Nat
  owner : Nat
  attached : List Nat
  keyLost : Bool
  keyEntry : Nat
  resv : Resv
  deriving DecidableEq, Repr

/-- A controller (R85, R89). `fabric` controllers have CNTLID from 0x0100. -/
structure Ctrl where
  func : Nat
  fabric : Bool
  portB : Bool
  pf : Bool
  online : Bool
  en : Bool
  rdy : Bool
  /-- CSTS.SHST, and whether the shutdown was normal -/
  shst : Nat
  shnNormal : Bool
  /-- a normal shutdown of the last enabled controller: SHST waits for the checkpoint (R107) -/
  ckpt : Bool
  ams : Nat
  mps : Nat
  reserve : Nat
  ownUsed : Nat
  paused : Bool
  setPs : Nat
  reqPs : Nat
  apst : Bool
  aers : List Nat
  feats : SMap Nat
  sqs : SMap Sq
  cqs : SMap Cq
  weight : Nat
  deficit : Nat
  /-- round robin among its queues, by class, and the position in the weighted sequence of classes (R96) -/
  sqLast : SMap Nat
  wrr : Nat
  selfTest : Nat
  errors : Nat
  deriving DecidableEq, Repr

/-- An asynchronous event waiting to be reported on a controller: type, information and log page. -/
structure Aen where
  ctrl : Nat
  typ : Nat
  info : Nat
  log : Nat
  deriving DecidableEq, Repr

/-- One entry of the Error Information log (R91). -/
structure ErrEntry where
  ctrl : Nat
  sq : Nat
  cid : Nat
  sct : Nat
  sc : Nat
  lba : Nat
  nsid : Nat
  /-- Command Specific and Vendor Specific Information -/
  cmdInfo : Nat
  vendorInfo : Nat
  deriving DecidableEq, Repr

/-- The NVMe subsystem. -/
structure Nvme where
  ctrls : SMap Ctrl
  /-- outstanding commands in fetch order -/
  cmds : List Cmd
  order : Nat
  nextTag : Nat
  /-- tags freed by posted completions and not yet returned: controller, from the shared pool (R515) -/
  freedTags : List (Nat × Bool)
  sharedFree : Nat
  /-- controllers in a tag pause, in the order they paused -/
  pausedFor : List Nat
  tagEmptySeen : Bool
  ovlPause : Bool
  /-- the controller last served by admin round robin and by deficit round robin (R96) -/
  adminLast : Nat
  ioLast : Nat
  cqStops : Nat
  orderHalts : Nat
  /-- admission is stopped by an orderly stop (R62) -/
  stopped : Bool
  /-- held commands may not be fetched or admitted during brace (R27) -/
  brace : Bool
  ns : SMap Ns
  /-- saved values of features, by controller and identifier: key 256 × controller + identifier -/
  saved : SMap Nat
  errs : List ErrEntry
  /-- asynchronous events waiting to be reported, and event types already reported and not yet cleared, as
  pairs of controller and type -/
  aens : List Aen
  aenMasked : List (Nat × Nat)
  /-- namespaces changed since the Changed Namespace List was read: controller and identifier -/
  changed : List (Nat × Nat)
  /-- reservation notifications not yet read: controller, type (1 preempted, 2 released, 3 reservation preempted), namespace; and those
  raised so far on each controller -/
  resvLog : List (Nat × Nat × Nat)
  resvCount : SMap Nat
  /-- pigeonholes with a tail doorbell whose work letter control firmware has not served: controller and queue (R26) -/
  pigeon : List (Nat × Nat)
  /-- configuration requests answered with Configuration Request Retry Status since link-up, and answered normally -/
  crs : Nat
  cfgDone : Nat
  /-- BAR accesses that completed with Unsupported Request or were discarded -/
  barUr : Nat
  /-- data of the last BAR2 read; none when it completed with Unsupported Request or poisoned -/
  barRead : Option (List Byte)
  numVfA : Nat
  numVfB : Nat
  /-- interrupts sent: controller and vector -/
  irqs : List (Nat × Nat)
  /-- dwords of the MSI-X tables, by 512 × function + dword, and pending bits: function and vector (R86, R88) -/
  msix : SMap Nat
  msixPend : List (Nat × Nat)
  /-- functions whose MSI Enable bit is set (R88) -/
  msiOn : List Nat
  /-- the answer to the last configuration read, if it had one -/
  cfgRead : Option Nat
  /-- BAR2 sizes set through Resizable BAR, as powers of two of 1 GiB (R86) -/
  bar2 : SMap Nat
  /-- of each port (A, B): the L1 levels the host enables, and the level the link is in (R83); whether it last trained below partner
  capability (R82) -/
  aspmA : List Nat
  aspmB : List Nat
  levelA : Nat
  levelB : Nat
  degrA : Bool
  degrB : Bool
  sanState : Nat
  sanCrypto : Bool
  dual : Bool
  deriving DecidableEq, Repr

/-- Protection information that asks for nothing. -/
def PrInfo.none : PrInfo := ⟨false, false, false, false, 0, 0, 0⟩

/-- The subsystem with no controller enabled. -/
def Nvme.reset : Nvme where
  ctrls := []
  cmds := []
  order := 0
  nextTag := 0
  freedTags := []
  sharedFree := 65536
  pausedFor := []
  tagEmptySeen := false
  ovlPause := false
  adminLast := 0
  ioLast := 0
  cqStops := 0
  orderHalts := 0
  stopped := false
  brace := false
  ns := []
  saved := []
  errs := []
  aens := []
  aenMasked := []
  changed := []
  resvLog := []
  resvCount := []
  pigeon := []
  crs := 0
  cfgDone := 0
  barUr := 0
  barRead := none
  numVfA := 0
  numVfB := 0
  irqs := []
  msix := []
  msixPend := []
  msiOn := []
  cfgRead := none
  bar2 := []
  aspmA := []
  aspmB := []
  levelA := 0
  levelB := 0
  degrA := false
  degrB := false
  sanState := 0
  sanCrypto := false
  dual := false

/-- A controller after reset (R89: power state PS0, APST disabled). -/
def Ctrl.fresh (func : Nat) (fabric portB pf : Bool) : Ctrl where
  func := func
  fabric := fabric
  portB := portB
  pf := pf
  online := true
  en := false
  rdy := false
  shst := 0
  shnNormal := false
  ckpt := false
  ams := 0
  mps := 4096
  reserve := 0
  ownUsed := 0
  paused := false
  setPs := 0
  reqPs := 0
  apst := false
  aers := []
  feats := []
  sqs := []
  cqs := []
  weight := 1
  deficit := 0
  sqLast := []
  wrr := 0
  selfTest := 0
  errors := 0

end Sys2Proof.Machine
end

