-- ==== Sys2Proof/Machine/Parts/Ftl.lean ====
section
/-! DEFINITION. Flash translation: the map, superblocks, landing pool, journal and wear (R121–R151), and the flash
channels' operations (R152–R176). -/

namespace Sys2Proof.Machine

/-- A map entry that names a place: the superblock that holds the unit, its contents, and the uncorrectable mark. -/
structure Iu where
  sb : Nat
  chan : Nat
  die : Nat
  data : IuData
  /-- stored bytes, in the units of R118 -/
  stored : Nat
  uncorr : Bool
  /-- number of its landing, in landing order (R200) -/
  landed : Nat
  deriving DecidableEq, Repr

/-- What a superblock is in use for (R128, R145): `preparing` while its blocks are erased for SLC-mode use. -/
inductive SbUse where
  | preparing | landing | fold | gcTarget | full | erasing
  deriving DecidableEq, Repr

/-- A superblock: up to 32 four-plane blocks, one on each working channel (R127). -/
structure Sb where
  use : SbUse
  slc : Bool
  static : Bool
  /-- holds data of namespaces with SD set and nothing else (R141) -/
  sd : Bool
  /-- its block on each channel, and the channel of its parity block -/
  blocks : SMap Nat
  parity : Nat
  /-- units of data programmed on each channel -/
  fill : SMap Nat
  /-- tick of its last program (R133) -/
  lastProg : Nat
  /-- channels whose block takes no further program, is suspect, or is a QLC block closed by an interrupted program (R138, R167) -/
  closed : List Nat
  suspect : List Nat
  unstable : List Nat
  /-- blocks (superblock and channel) that must hold nothing before this victim is erased (R139) -/
  waits : List (Nat × Nat)
  deriving DecidableEq, Repr

/-- A superblock with no blocks. -/
def Sb.none : Sb where
  use := .full
  slc := false
  static := false
  sd := false
  blocks := []
  parity := 0
  fill := []
  lastProg := 0
  closed := []
  suspect := []
  unstable := []
  waits := []

/-- A block's state: free, in a superblock, being erased, erased but not recorded, its record on the way to flash, retired (R137, R168). -/
inductive BlkSt where
  | free | used | erasing | erased | recording | retired
  deriving DecidableEq, Repr

/-- A four-plane block of a channel. -/
structure Blk where
  st : BlkSt
  wear : Nat
  /-- belongs to the static landing pool, and its SLC-mode erases there (R134) -/
  static : Bool
  slcErases : Nat
  /-- erased for SLC-mode use (R128) -/
  slcReady : Bool
  /-- erase-pending: its erase ends with a blank check (R168) -/
  pending : Bool
  /-- read-level set that last decoded a page, reads since the last program, and queued for refresh (R155, R173) -/
  remembered : Nat
  reads : Nat
  refresh : Bool
  deriving DecidableEq, Repr

/-- A block never used in a superblock, with the wear of whole-module erases. -/
def Blk.fresh (wear : Nat) : Blk where
  st := .free
  wear := wear
  static := false
  slcErases := 0
  slcReady := wear == 0
  pending := false
  remembered := 0
  reads := 0
  refresh := false

/-- A folding or copying operation under way: its number, from and to which superblock, and its units with the channel each goes to (R131, R133). -/
structure Move where
  id : Nat
  target : Nat
  source : Nat
  slots : List (Nat × Nat)
  deriving DecidableEq, Repr

/-- Flash translation. -/
structure Ftl where
  /-- the map: key nsid × 2^40 + IU number, absent for a deallocated unit -/
  map : SMap Iu
  /-- map pages in the cache and those of them that are dirty: key nsid × 2^32 + page number (R123, R124) -/
  cached : List Nat
  dirty : List Nat
  sbs : SMap Sb
  nextSb : Nat
  /-- blocks that have been in a superblock, by 65,536 × channel + block; the first block of each channel that has not; and the wear of
  those that have not -/
  blks : SMap Blk
  nextBlk : SMap Nat
  freshWear : Nat
  /-- units landed so far -/
  landings : Nat
  openDyn : Option Nat
  openStatic : Option Nat
  openSd : Option Nat
  folds : List Move
  copies : List Move
  nextMove : Nat
  /-- bytes of journal unflushed, in flight to flash, and written since the last checkpoint (R144) -/
  unflushed : Nat
  flushing : Nat
  sinceCkpt : Nat
  checkpoints : Nat
  /-- SLC pages programmed in the journal superblocks and in the metadata area (R126, R128, R145) -/
  journalPages : Nat
  metaPages : Nat
  /-- dynamic landing target, in SLC superblocks, and fill in 0.01 % (R128) -/
  dynTarget : Nat
  fill : Nat
  /-- EAGER_FOLD as of the last fill computation (R132) -/
  eager : Bool
  /-- superblocks queued for secure discard, with the bytes still pending (R141) -/
  discard : List (Nat × Nat)
  /-- superblocks that hold a current or stale copy of each SD namespace (R141) -/
  sdHolds : List (Nat × Nat)
  hostBytes : Nat
  qlcBytes : Nat
  slcBytes : Nat
  eraseRetired : Nat
  progRetired : Nat
  /-- retirements by plane group: key 8 × channel + die; each of its four planes has its spares (R126, R138) -/
  planeRetired : SMap Nat
  wearFlags : Nat
  /-- background map loading has still to run, from this page on (R125) -/
  bgLoad : Option Nat
  deriving DecidableEq, Repr

/-- Translation at manufacture: an empty map. -/
def Ftl.reset : Ftl where
  map := []
  cached := []
  dirty := []
  sbs := []
  nextSb := 1
  blks := []
  nextBlk := []
  freshWear := 0
  landings := 0
  openDyn := none
  openStatic := none
  openSd := none
  folds := []
  copies := []
  nextMove := 0
  unflushed := 0
  flushing := 0
  sinceCkpt := 0
  checkpoints := 0
  journalPages := 0
  metaPages := 0
  dynTarget := 0
  fill := 0
  eager := true
  discard := []
  sdHolds := []
  hostBytes := 0
  qlcBytes := 0
  slcBytes := 0
  eraseRetired := 0
  progRetired := 0
  planeRetired := []
  wearFlags := 0
  bgLoad := none

/-- The kinds of die operation. -/
inductive DieKind where
  | read | progSlc | progQlc | erase
  deriving DecidableEq, Repr

/-- What an operation is for: a unit read for a command, window or scan; a landing, journal, metadata or map page program or read; a fold
or copy; a patrol; an erase; a read that contributes to a rebuild (R156, R157). -/
inductive OpUse where
  | unit | landing | journal | mapPage | fold | copy | patrol | erase | contrib | scan
  deriving DecidableEq, Repr

/-- An operation of a channel engine: its queue class, its die, the superblock and the unit or command concerned. -/
structure ChanOp where
  kind : DieKind
  use : OpUse
  cls : Nat
  die : Nat
  sb : Nat
  /-- command tag, number of a move, scan job or other number of the requester, 0 when none, and the map key read or written -/
  tag : Nat
  key : Nat
  /-- read letter handle of a class 3 or 6 read, or the channel whose page a contributing read rebuilds; and whether it was cancelled -/
  handle : Nat
  cancelled : Bool
  retries : Nat
  suspends : Nat
  /-- suspend limits in force when the operation started: minimum run in 100 µs units, suspends allowed (R160, R175) -/
  minRun : Nat
  maxSusp : Nat
  deriving DecidableEq, Repr

/-- A read that waits for rebuild from channel parity. `counts`: it is step 3 of an escalation (R156). `check`: the page was read, and its
unit failed its check (R242). `failed`: a contributing read has failed. -/
structure Rebuild where
  op : ChanOp
  counts : Bool
  check : Bool
  failed : Bool
  deriving DecidableEq, Repr

/-- One flash channel engine beyond its registers. -/
structure Chan where
  queue : List ChanOp
  /-- operations running and suspended, by die -/
  dies : SMap ChanOp
  susp : SMap ChanOp
  rebuilds : List Rebuild
  /-- operations in a retry back-off (R165) -/
  backoff : List ChanOp
  retired : Bool
  secondFail : Bool
  /-- permanently failed and not yet retired (R169), the tick of the last failed retry sequence, dies that answer no die reset (R164) -/
  failed : Bool
  lastFail : Option Nat
  dead : List Nat
  /-- a program was cut off with the power: the scan at Rise finds its unstable pages (R167) -/
  cutProgram : Bool
  /-- counts since manufacture of log page 0xC4 (R176) -/
  calFailLife : Nat
  seqFailLife : Nat
  uncorrLife : Nat
  /-- counts since power-on: retries, recoveries by step, suspends -/
  pRetry : Nat
  pStep1 : Nat
  pStep2 : Nat
  pStep3 : Nat
  pSusp : Nat
  prevUcode : Nat
  deriving DecidableEq, Repr

/-- An idle channel engine. -/
def Chan.fresh : Chan where
  queue := []
  dies := []
  susp := []
  rebuilds := []
  backoff := []
  retired := false
  secondFail := false
  failed := false
  lastFail := none
  dead := []
  cutProgram := false
  calFailLife := 0
  seqFailLife := 0
  uncorrLife := 0
  pRetry := 0
  pStep1 := 0
  pStep2 := 0
  pStep3 := 0
  pSusp := 0
  prevUcode := 0

/-- The channel engines by number; an absent one is idle. -/
structure Media where
  chans : SMap Chan
  retireOrder : List Nat
  deriving DecidableEq, Repr

/-- All channels idle, none retired. -/
def Media.reset : Media := ⟨[], []⟩

end Sys2Proof.Machine
end

