-- ==== Sys2Proof/Machine/Parts/Match.lean ====
section
/-! DEFINITION. The match arrays' rows, tags and table bookkeeping (R205–R230). -/

namespace Sys2Proof.Machine

/-- One row: value, care mask and the VALID flag of an entry's head row (R205, R206). -/
structure CamRow where
  value : BitVec 128
  care : BitVec 128
  valid : Bool
  deriving DecidableEq, Repr

/-- A row that holds nothing. -/
def CamRow.empty : CamRow := ⟨0, 0, false⟩

/-- The result of a match operation (R214, R215). -/
structure MatRes where
  status : Nat
  hit : Bool
  multi : Bool
  lost : Bool
  falseHit : Bool
  degraded : Bool
  count : Nat
  index : Nat
  value : List Word
  care : List Word
  deriving DecidableEq, Repr

/-- The match arrays. Rows are keyed by 8,192 × bank + row, tags and clearing groups by 128 × bank + group. -/
structure Mat where
  rows : SMap CamRow
  /-- tag value and tag care of groups (R216) -/
  tags : SMap (Nat × Nat)
  clearing : List Nat
  /-- rows written since their entry was invalidated (R223) -/
  written : List Nat
  /-- lost entries: table and index (R226) -/
  lost : List (Nat × Nat)
  retired : List Nat
  /-- replica that serves the next search of a table (R210) -/
  turn : SMap Nat
  /-- spare rows in use: 8,192 × bank + row replaced (R227) -/
  spared : List Nat
  /-- soft errors not yet met, by head row (R224–R226) -/
  faulty : SMap RowFault
  /-- false hits and scrub fixes: row, bit position of a scrub fix, tick (R227); uncorrectable shadow errors: bank, tick (R229) -/
  fixes : List (Nat × Option Nat × Nat)
  dead : List (Nat × Nat)
  last : MatRes
  /-- counts since power-on of log page 0xC5 (R231) -/
  searches : Nat
  falseHits : Nat
  updates : Nat
  bankFalse : SMap Nat
  bankFix : SMap Nat
  deriving DecidableEq, Repr

/-- A result that says nothing. -/
def MatRes.none : MatRes := ⟨0, false, false, false, false, false, 0, 0xFFFFFFFF, [], []⟩

/-- Empty arrays. -/
def Mat.reset : Mat := ⟨[], [], [], [], [], [], [], [], [], [], [], MatRes.none, 0, 0, 0, [], []⟩

end Sys2Proof.Machine
end

