-- ==== Sys2Proof/Machine/Parts/Pow.lean ====
section
/-! DEFINITION. The power front end, Commit, and mode control beyond what the PWR, AON, CLK and CTC registers hold
(R38–R78). -/

namespace Sys2Proof.Machine

/-- What the module waits for between a seal and the next Rise (R50, R55, R72). -/
inductive AfterSeal where
  /-- no wait -/
  | none
  /-- every rail off, the judgment of R50 not yet made -/
  | judge
  /-- the 50 ms rest before Rise -/
  | rest
  /-- Keep until VBUS has been at 50 V for 20 ms -/
  | keepVbus
  /-- Keep until PFAIL_N goes high -/
  | keepPfail
  /-- the 10 ms with domains off of a module reset -/
  | resetOff
  deriving DecidableEq, Repr

/-- Steps of Rise (R76), in order. -/
inductive RiseStep where
  | idle | qualified | firmware | dram | directory | replayed | done
  deriving DecidableEq, Repr

/-- A reset that waits: for the component of a live activation in progress (R108, R488), or for the end of a Commit (R61, R73). Of the
module, the NVM subsystem, a controller, a function, a port in dual-port mode, a cluster, a channel, or the debug block. -/
inductive LateReset where
  | module (c : RstCause) | subsystem (perst : Bool) | ctrl (c : Nat) | flr (f : Nat)
  | port (portB : Bool) | cluster (n : Nat) (selfTest : Bool) | channel (n : Nat) (calGood : Bool) (us : Nat) | debug (cause : Nat)
  deriving DecidableEq, Repr

/-- The power front end and the mode sequencer. -/
structure Pow where
  /-- level of the inputs' pins, true while asserted -/
  pfailLow : Bool
  pwrdis : Bool
  perst : Bool
  perstB : Bool
  /-- tick since which PERST_N has been asserted with PWRDIS deasserted (R528) -/
  wakeSince : Option Nat
  /-- inputs disconnected for overvoltage (R38) -/
  ovMains : Bool
  ovAux : Bool
  /-- inputs that have reached their start threshold in Dark and are in their 100 ms of qualification (R38) -/
  qualMains : Bool
  qualAux : Bool
  /-- Commit: brace finished, PFAIL_N asserted during the brace, an event of R48 met, seal by hold expiry -/
  braceDone : Bool
  pfailInBrace : Bool
  sealDue : Bool
  byHold : Bool
  /-- the transition that Commit preempted: TARGET and TRANS at brace entry -/
  braceFrom : Nat
  fromMode : Nat
  heldTarget : Nat
  heldTrans : Bool
  /-- steps of seal done: 1 the first domains off, 2 the metadata written and the next domains off, 3 the recorder's copy made (R48) -/
  sealStep : Nat
  /-- requests that wait for the end of Commit (R61, R71, R73): a module reset, Watch after a PLL loss, smaller resets in order -/
  resetWait : Option RstCause
  watchWait : Bool
  waitResets : List LateReset
  afterSeal : AfterSeal
  /-- an orderly stop in its 1 s of grace -/
  stopping : Option StopGoal
  /-- causes that arrived during a transition and wait for its end (R61) -/
  waiting : List StopGoal
  riseStep : RiseStep
  riseTimeouts : Nat
  slotFallbacks : Nat
  /-- operational mode last left for idle, mode Sanitize was entered from, mode halted from -/
  idleFrom : Nat
  sanFrom : Nat
  haltFrom : Nat
  /-- a sanitize operation is in progress and resumes at the next Rise (R73) -/
  sanPending : Bool
  /-- Watch was entered for the third loss of a PLL, which only a module reset or power-on ends (R71), or for that or a fault of Rise
  (R78, R529) -/
  pllWatch : Bool
  faultWatch : Bool
  /-- hours since the last bank test, and the counters of log page 0xC2 (R58) -/
  testHours : Nat
  commits : Nat
  recovered : Nat
  sealsCut : Nat
  transfers : Nat
  tests : Nat
  modeSecs : SMap Nat
  /-- a Rise from Dark must skip SEQ values because the last stop was unclean (R52) -/
  sealCut : Bool
  /-- a Commit whose end is reported at the next Rise (code 0x0283 of R504) -/
  commitToReport : Bool
  /-- the idle and deep-idle conditions as last judged, and whether an SLM or fabric transfer was then in progress (R64) -/
  idleOk : Bool
  deepOk : Bool
  moving : Bool
  /-- entry to Idle-Shallow (`false`) or Idle-Deep (`true`) that waits for the die operations to end (R162), and the tick of the last
  entry (R66) -/
  idleWait : Option Bool
  idleAt : Nat
  deriving DecidableEq, Repr

/-- The front end with no input connected: the module in Dark. -/
def Pow.reset : Pow where
  pfailLow := false
  pwrdis := false
  perst := false
  perstB := false
  wakeSince := none
  ovMains := false
  ovAux := false
  qualMains := false
  qualAux := false
  braceDone := false
  pfailInBrace := false
  sealDue := false
  byHold := false
  braceFrom := 0
  fromMode := 0
  heldTarget := 0
  heldTrans := false
  sealStep := 0
  resetWait := none
  watchWait := false
  waitResets := []
  afterSeal := .none
  stopping := none
  waiting := []
  riseStep := .idle
  riseTimeouts := 0
  slotFallbacks := 0
  idleFrom := 4
  sanFrom := 4
  haltFrom := 4
  sanPending := false
  pllWatch := false
  faultWatch := false
  testHours := 0
  commits := 0
  recovered := 0
  sealsCut := 0
  transfers := 0
  tests := 0
  modeSecs := []
  sealCut := false
  commitToReport := false
  idleOk := false
  deepOk := false
  moving := false
  idleWait := none
  idleAt := 0

end Sys2Proof.Machine
end

