-- ==== Sys2Proof/Machine/Parts/Mgt.lean ====
section
/-! DEFINITION. The management subsystem beyond its registers: sensors, caps, the I3C target, MCTP, config flash, the settings store
and firmware components (R461–R493). -/

namespace Sys2Proof.Machine

/-- One slot of a firmware component (R485, R491): version, generation and state (0 empty, 1 valid, 2 invalid). -/
structure FwSlot where
  version : Nat
  gen : Nat
  state : Nat
  deriving DecidableEq, Repr

/-- A firmware component: its active slot, the slot active at the next Rise, its last activation result and its slots. -/
structure Fw where
  active : Nat
  next : Nat
  result : Nat
  slots : SMap FwSlot
  deriving DecidableEq, Repr

/-- The update in progress (R486–R490): components left to activate live, the slot of each, units of the first not yet switched, the
Firmware Commit that waits for it, and the last update result of log page 0xCB. -/
structure Upd where
  todo : List Nat
  slots : SMap Nat
  units : List Nat
  switching : Bool
  tag : Option Nat
  last : Nat
  deriving DecidableEq, Repr

/-- A config flash operation under way (R473): a word's program, or the erase of `count` sectors. -/
inductive CflOp where
  | program (word : Nat) (data : Word)
  | erase (sector count : Nat)
  deriving DecidableEq, Repr

/-- One copy of the settings store (R479–R482): sequence number of its last delta, active half, bytes of deltas in it, and whether it
has a valid base image. -/
structure StoreCopy where
  seq : Nat
  half : Nat
  deltas : Nat
  valid : Bool
  deriving DecidableEq, Repr

/-- A result of a tunnelled admin command (R471): status, dword 0 and data. -/
structure MiDone where
  sct : Nat
  sc : Nat
  dw0 : Nat
  data : List Byte
  deriving DecidableEq, Repr

/-- The management subsystem. -/
structure Mgt where
  /-- minimum of each sensor since power-on, °C as a byte; the maximum stands in MGT.SENSOR -/
  mins : SMap Nat
  /-- tenths of a second at each thermal level and rises of the level, since manufacture -/
  tenths : SMap Nat
  rises : Nat
  /-- controllers whose Critical Warning bit 1 is set -/
  warned : List Nat
  /-- limits a cap has lowered: cores used in each cluster, budgets to return to, steps of command fetch -/
  capCores : Nat
  budgets : SMap Nat
  fetchSteps : Nat
  /-- I3C: maximum write and read lengths, reset action, Hot-Join raised -/
  mwl : Nat
  mrl : Nat
  rstact : Nat
  hotJoin : Bool
  /-- messages held for the bus owner, ticks of in-band interrupts of the last second, interrupts deferred -/
  outbox : List (List Byte)
  ibis : List Nat
  ibiWait : Nat
  /-- what the last I3C GET command returned -/
  answer : List Byte
  /-- NVMe-MI: vital product data, configuration, results of tunnelled commands -/
  vpd : SMap Byte
  cfg : SMap Nat
  done : List MiDone
  /-- firmware -/
  fw : SMap Fw
  upd : Upd
  late : List LateReset
  pieces : List (Nat × Nat)
  /-- config flash: programmed words by word number, sectors whose erase was cut off and which must be erased again before use (R476),
  retired sectors, the operation under way, the word last read -/
  flash : SMap Word
  eraseAgain : List Nat
  retired : List Nat
  op : Option CflOp
  readWord : Word
  /-- settings: class P registers changed since the last commit with their committed values, and the two copies -/
  unsaved : SMap Word
  storeA : StoreCopy
  storeB : StoreCopy
  deriving DecidableEq, Repr

/-- A component as it leaves manufacture: one valid image of generation 1 in slot 0. -/
def Fw.made : Fw := ⟨0, 0, 0, [(0, ⟨0, 1, 1⟩), (1, ⟨0, 0, 0⟩), (2, ⟨0, 0, 0⟩)]⟩

/-- No update. -/
def Upd.idle : Upd := ⟨[], [], [], false, none, 0⟩

/-- The management subsystem as it leaves manufacture, unpowered. -/
def Mgt.reset : Mgt where
  mins := []
  tenths := []
  rises := 0
  warned := []
  capCores := 8
  budgets := []
  fetchSteps := 0
  mwl := 69
  mrl := 69
  rstact := 0
  hotJoin := false
  outbox := []
  ibis := []
  ibiWait := 0
  answer := []
  vpd := []
  cfg := []
  done := []
  fw := [(1, Fw.made), (2, Fw.made), (3, Fw.made), (4, Fw.made), (5, Fw.made)]
  upd := Upd.idle
  late := []
  pieces := []
  flash := []
  eraseAgain := []
  retired := []
  op := none
  readWord := 0
  unsaved := []
  storeA := ⟨0, 0, 0, true⟩
  storeB := ⟨0, 0, 0, true⟩

end Sys2Proof.Machine
end

