-- ==== Sys2Proof/Machine/Parts/Net.lean ====
section
/-! DEFINITION. Network ports, connections, associations, the host table and pre-shared keys (R423–R441). -/

namespace Sys2Proof.Machine

/-- Rate control of a RoCEv2 queue pair (R433): α, rates in b/s, and recovery steps since the last CNP. -/
structure Dcqcn where
  alpha : Rat
  cur : Rat
  target : Rat
  steps : Nat
  deriving DecidableEq, Repr

/-- A TCP connection or RoCEv2 queue pair, by number: the port its address belongs to, digests and alignment of ICReq, TLS with its
PSK slot, the controller and queue it carries, and retries since the last acknowledgement. -/
structure NetConn where
  port : Nat
  roce : Bool
  ready : Bool
  hdgst : Bool
  ddgst : Bool
  hpda : Nat
  tls : Option Nat
  ctrl : Option Nat
  queue : Nat
  rate : Dcqcn
  retries : Nat
  deriving DecidableEq, Repr

/-- An association of a fabric or discovery controller: host entry (none for discovery), keep-alive time in ms, 0 disabled. -/
structure Assoc where
  ctrl : Nat
  entry : Option Nat
  kato : Nat
  disc : Bool
  deriving DecidableEq, Repr

/-- What the engine sends on a port: announcements of an address, answers, pauses, congestion notifications, retransmissions, closing
messages and Connect responses (controller and status). -/
inductive NetOut where
  | announce (port owner addr : Nat)
  | answer (port : Nat) (k : NetFrame)
  | pause (port prio : Nat) (on : Bool)
  | cnp (conn : Nat)
  | resend (conn : Nat)
  | icResp (conn : Nat) (hdgst ddgst : Bool)
  | close (conn : Nat) (orderly : Bool)
  | connected (conn ctrl : Nat)
  | refused (conn sct sc : Nat) (dnr : Bool)
  | property (conn : Nat) (ok : Bool)
  deriving DecidableEq, Repr

/-- The network engine. -/
structure Net where
  /-- data structures of feature 0xC7: ports, host entries and PSK slots; an absent one is at its default -/
  ports : SMap (List Byte)
  hosts : SMap (List Byte)
  psks : SMap (List Byte)
  /-- saved values of the three -/
  savedPorts : SMap (List Byte)
  savedHosts : SMap (List Byte)
  savedPsks : SMap (List Byte)
  conns : SMap NetConn
  assocs : List Assoc
  /-- ports whose addresses the other port holds, and announcements each port's addresses still get -/
  moved : List Nat
  repeats : SMap Nat
  /-- calibration failures in succession by port, priorities paused, link-down events since power-on by port -/
  calFails : SMap Nat
  paused : List (Nat × Nat)
  downs : SMap Nat
  out : List NetOut
  /-- network engine firmware is being switched: keep-alive timers stand (R490) -/
  switching : Bool
  deriving DecidableEq, Repr

/-- No connection, and every setting at its default. -/
def Net.reset : Net := ⟨[], [], [], [], [], [], [], [], [], [], [], [], [], [], false⟩

end Sys2Proof.Machine
end

