-- ==== Sys2Proof/Machine/Parts/Pbk.lean ====
section
/-! DEFINITION. The event recorder's own state: lane queues, coalescing tables, tiers and windows (R494–R503). -/

namespace Sys2Proof.Machine

/-- An occurrence on its way to the writer of the event recorder (R502). -/
structure Ev where
  lane : Nat
  code : Nat
  src : Nat
  count : Nat
  args : List Nat
  rep : Bool
  drop : Bool
  deriving DecidableEq, Repr

/-- A written postmark (R494): the fields of its 64 bytes. -/
structure Postmark where
  seq : Nat
  lane : Nat
  rep : Bool
  drop : Bool
  damaged : Bool
  code : Nat
  src : Nat
  count : Nat
  pwrcyc : Nat
  args : List Nat
  frank : Word
  deriving DecidableEq, Repr

/-- An open entry of a coalescing table of lane 2 or 3 (R502). `due` says that its window has ended with a
count and its repeat postmark waits for a queue entry. -/
structure Coal where
  lane : Nat
  code : Nat
  src : Nat
  count : Nat
  args : List Nat
  due : Bool
  deriving DecidableEq, Repr

/-- What a segment of the persistent tier is used for (R499). -/
inductive SegRole where
  /-- held erased for a seal copy -/
  | erased
  /-- the segment drained postmarks go to -/
  | drain
  /-- drained or sealed postmarks of earlier use -/
  | history
  /-- written by the last seal, before the next Rise -/
  | sealed
  deriving DecidableEq, Repr

/-- One 2 MiB segment of the persistent tier, with the order in which segments were put to use. -/
structure Seg where
  role : SegRole
  age : Nat
  marks : List Postmark
  deriving DecidableEq, Repr

/-- The event recorder (Postbook). -/
structure Pbk where
  q0 : List Ev
  q1 : List Ev
  q2 : List Ev
  q3 : List Ev
  /-- events of lanes 0 and 1 that their blocks hold until the queue has room -/
  held0 : List Ev
  held1 : List Ev
  coal : List Coal
  /-- the RAM tier, oldest first, at most 32,768 postmarks (R498) -/
  ram : List Postmark
  segs : SMap Seg
  segAge : Nat
  /-- window snapshots (R500) -/
  win : SMap (List Postmark)
  /-- postmarks of drained lanes written and not yet drained, by SEQ (R499) -/
  toDrain : List Nat
  /-- SEQ values of lane 0 postmarks not yet read (R503); they drive ALERT_N -/
  unread : List Nat
  /-- the asynchronous event was sent and log page 0xCA not yet read with RAE cleared (R503) -/
  aenSent : Bool
  /-- SEQ values waiting for a PLDM PlatformEventMessage (R503) -/
  mctpWait : List Nat
  /-- the latest controller-initiated telemetry capture (R501) -/
  telemetry : List Postmark
  /-- host-initiated telemetry as last captured: RAM tier and persistent tier -/
  hostRam : List Postmark
  hostFlash : List Postmark
  /-- the last stop was an orderly stop or a completed seal (R497) -/
  cleanStop : Bool
  /-- the last seal found no erased segment (R499) -/
  sealMissed : Bool
  deriving DecidableEq, Repr

/-- The recorder as it leaves manufacture: empty tiers, two segments erased for seal (R499). -/
def Pbk.reset : Pbk where
  q0 := []
  q1 := []
  q2 := []
  q3 := []
  held0 := []
  held1 := []
  coal := []
  ram := []
  segs := [(0, ⟨.erased, 0, []⟩), (1, ⟨.erased, 0, []⟩), (2, ⟨.drain, 1, []⟩), (3, ⟨.history, 0, []⟩),
    (4, ⟨.history, 0, []⟩), (5, ⟨.history, 0, []⟩), (6, ⟨.history, 0, []⟩), (7, ⟨.history, 0, []⟩)]
  segAge := 1
  win := []
  toDrain := []
  unread := []
  aenSent := false
  mctpWait := []
  telemetry := []
  hostRam := []
  hostFlash := []
  cleanStop := false
  sealMissed := false

end Sys2Proof.Machine
end

