-- ==== Sys2Proof/Machine/Parts/Prog.lean ====
section
/-! DEFINITION. Program slots, memory range sets, executions and their windows (R375–R391, R296). -/

namespace Sys2Proof.Machine

/-- A parcel's header as validated (R377). -/
structure Parcel where
  entry : Nat
  textOff : Nat
  textSize : Nat
  rodataOff : Nat
  rodataSize : Nat
  dataOff : Nat
  dataSize : Nat
  bss : Nat
  stack : Nat
  frames : Nat
  routes : Nat
  /-- pieces of the function's private memory that hold the image: text, then rodata, then data -/
  image : List (Nat × Nat)
  deriving DecidableEq, Repr

/-- A program slot: staged pieces by load offset, latest first, and the activated image. -/
structure Slot where
  pieces : List (Nat × List Byte)
  /-- 2 MiB blocks of the staging buffer charged so far -/
  blocks : List Nat
  active : Option Parcel
  deriving DecidableEq, Repr

/-- A range of an execution's address space, backed by SLM of its function, or by pieces of its private memory: `off` is the
byte of the pieces, or of SLM, at which it starts. -/
structure Region where
  va : Nat
  len : Nat
  write : Bool
  exec : Bool
  slm : Bool
  pieces : List (Nat × Nat)
  off : Nat
  deriving DecidableEq, Repr

/-- A mapped window (R384): its namespace, first unit and unit count. `closing`: an unmap waits (R298). -/
structure Window where
  nsid : Nat
  iu : Nat
  count : Nat
  closing : Bool
  deriving DecidableEq, Repr

/-- A program execution (R380). -/
structure Exec where
  func : Nat
  ctrl : Nat
  tag : Nat
  slot : Nat
  rset : Nat
  start : Nat
  limit : Nat
  regions : List Region
  /-- pieces of private memory taken by data, bss, frames and the parameter page (offset, length) -/
  ext : List (Nat × Nat)
  /-- compute letters in flight and the frame each holds; address of frame 0 and its size -/
  inUse : List (Nat × Nat)
  frame0 : Nat
  stack : Nat
  /-- handle of the first letter and length of the parameter data (R382) -/
  firstLetter : Nat
  plen : Nat
  maxRoutes : Nat
  pcEnd : Word
  faddr : Word
  windows : SMap Window
  ended : Nat
  tables : List Nat
  /-- reason and dword 0, once an event of R389 has ended it -/
  endWith : Option (Nat × Nat)
  frames : Nat
  deriving DecidableEq, Repr

/-- State of a page that is held for a function (R284, R296, R297). -/
inductive PageState where
  | preStaged | staged
  /-- delivered only to the letters that waited for it: superseded by a write, or unreadable -/
  | stale | bad
  deriving DecidableEq, Repr

/-- A page of a function's window cache or of the pre-read staging. `waiters`: letters whose load has still to execute
again (R325); `chan`, `core`, `born`, `episode`: channel that read it, core that made a pre-read, tick of its staging, and the run-ahead episode
of a pre-read. -/
structure StagePage where
  func : Nat
  nsid : Nat
  iu : Nat
  state : PageState
  data : List Byte
  waiters : List Nat
  chan : Nat
  core : Nat
  born : Nat
  episode : Option Nat
  deriving DecidableEq, Repr

/-- Programs of every function: slots and range sets by 16 × function + index, executions by identifier, pages in use
order. -/
structure Progs where
  slots : SMap Slot
  rsets : SMap (List (Nat × Nat))
  execs : SMap Exec
  nextExec : Nat
  /-- Execute Program commands that wait for one of 4,096 executions: tag, function, slot, range set, parameters -/
  waiting : List (Nat × Nat × Nat × Nat × List Byte)
  /-- private memory in use: function, offset, length -/
  alloc : List (Nat × Nat × Nat)
  /-- staged pages, most recently used first -/
  pages : List StagePage
  /-- User state of suspended letters, by letter identifier -/
  saved : SMap SavedCtx
  /-- window cache size in effect for each function, in 16 MiB units (R397) -/
  wcache : SMap Nat
  deriving DecidableEq, Repr

/-- No program. -/
def Progs.reset : Progs := ⟨[], [], [], 1, [], [], [], [], []⟩

end Sys2Proof.Machine
end

