-- ==== Sys2Proof/Machine/Parts/Scan.lean ====
section
/-! DEFINITION. Scan jobs: descriptors, accumulators, fragments and totals (R177–R203). -/

namespace Sys2Proof.Machine

/-- A scan job descriptor as accepted (R177). -/
structure ScanDesc where
  nsid : Nat
  framing : Nat
  outmode : Nat
  malf : Nat
  dealloc : Bool
  unread : Bool
  ring : Bool
  prefixIncl : Bool
  prefixBe : Bool
  prefixW : Nat
  slba : Nat
  nlb : Nat
  base : Nat
  reclen : Nat
  rdelim : Byte
  fdelim : Byte
  quote : Byte
  patCount : Nat
  instrCount : Nat
  patOff : Nat
  patLen : Nat
  timeLimit : Nat
  codeAddr : Nat
  patAddr : Nat
  consts : List Word
  outAddr : Nat
  outSize : Nat
  resultAddr : Nat
  deriving DecidableEq, Repr

/-- One accumulator: its value, overflow, and whether it received a value. -/
structure Acc where
  val : Word
  ovf : Bool
  valid : Bool
  deriving DecidableEq, Repr

/-- The counts of a job (R196). -/
structure ScanCnt where
  read : Nat
  framed : Nat
  selected : Nat
  malformed : Nat
  truncated : Nat
  seam : Nat
  late : Nat
  dealloc : Nat
  unread : Nat
  probes : Nat
  deriving DecidableEq, Repr

/-- No counts. -/
def ScanCnt.zero : ScanCnt := ⟨0, 0, 0, 0, 0, 0, 0, 0, 0, 0⟩

/-- Sum of two sets of counts. -/
def ScanCnt.add (a b : ScanCnt) : ScanCnt :=
  ⟨a.read + b.read, a.framed + b.framed, a.selected + b.selected, a.malformed + b.malformed, a.truncated + b.truncated,
    a.seam + b.seam, a.late + b.late, a.dealloc + b.dealloc, a.unread + b.unread, a.probes + b.probes⟩

/-- One side of an IU boundary in the seam store (R183). -/
inductive Frag where
  /-- nothing of a record to be joined lies there -/
  | none
  /-- the side lies in a skipped IU; `rec`: a record is known to cross -/
  | gone (crosses : Bool)
  | part (off : Nat) (bytes : List Byte) (late : Bool)
  deriving DecidableEq, Repr

/-- What a channel still has to write before an IU's contributions are released (R193, R194). -/
structure HeldOut where
  iu : Nat
  entries : List (List Byte)
  aggs : List (Nat × Word)
  cnt : ScanCnt
  deriving DecidableEq, Repr

/-- What a job's lookup of a unit found, and how far its read has come: queued on its channel, read, not to be read as deallocated (skipped or
evaluated as zeros), or unreadable (R179, R180). -/
inductive ScanSrc where
  | queued | read | skipped | zeros | unread
  deriving DecidableEq, Repr

/-- A unit between its lookup and its evaluation: its channel, the copy found, and whether that landed after acceptance (R179, R200). -/
structure ScanRead where
  iu : Nat
  chan : Option Nat
  src : ScanSrc
  data : IuData
  late : Bool
  deriving DecidableEq, Repr

/-- A running job. -/
structure ScanRun where
  ctx : Nat
  desc : ScanDesc
  code : List Word
  pats : List (List Byte × Bool)
  /-- landings made before acceptance (R200) -/
  mark : Nat
  work : List Nat
  limit : Nat
  done : List Nat
  accs : SMap (List Acc)
  frags : SMap (Option Frag × Option Frag)
  cnt : ScanCnt
  used : SMap Nat
  outBytes : Nat
  held : SMap HeldOut
  stop : Option Nat
  firstBad : Option Nat
  /-- the next unit the map walk looks up, and the units looked up and not evaluated (R179) -/
  walk : Nat
  reads : List ScanRead
  deriving DecidableEq, Repr

/-- A job, waiting or running: its number, submitter, and where its descriptor lies. -/
structure ScanJob where
  num : Nat
  func : Nat
  ctrl : Nat
  exec : Option Nat
  /-- the host command that waits for it, or the letter -/
  tag : Option Nat
  letter : Option Nat
  sp : Space
  addr : Nat
  run : Option ScanRun
  deriving DecidableEq, Repr

/-- Scan jobs, and the counts since power-on of log page 0xCD (R203). -/
structure Scans where
  jobs : List ScanJob
  nextNum : Nat
  accepted : Nat
  ended0 : Nat
  endedOther : Nat
  notRun : Nat
  bytes : Nat
  outBytes : Nat
  total : ScanCnt
  queueHigh : Nat
  /-- program jobs that have ended: letter and result status -/
  ends : List (Nat × Nat)
  deriving DecidableEq, Repr

/-- No job. -/
def Scans.reset : Scans := ⟨[], 1, 0, 0, 0, 0, 0, 0, ScanCnt.zero, 0, []⟩

end Sys2Proof.Machine
end

