-- ==== Sys2Proof/Machine/Parts/Sch.lean ====
section
/-! DEFINITION. The sorting office: letters, routes, dependence counters and read entries (R349–R366). -/

namespace Sys2Proof.Machine

/-- Where a letter stands (R350); waiting and delayed letters are told apart by what they still wait for. -/
inductive LState where
  | held | ready | running | suspended
  deriving DecidableEq, Repr

/-- A letter in flight. -/
structure Letter where
  id : Nat
  gen : Nat
  route : Nat
  kind : Nat
  /-- owner function (0x80 firmware), execution and cluster mask of its route -/
  owner : Nat
  exec : Nat
  clusters : Nat
  prio : Nat
  target : Nat
  /-- counter it waits on and counter it signals, with the allocation each belongs to -/
  waitCtr : Option (Nat × Nat)
  sigCtr : Option (Nat × Nat)
  due : Option Nat
  arg0 : Word
  arg1 : Word
  d0 : Word
  d1 : Word
  state : LState
  seq : Nat
  /-- place among the ready letters; 0, ahead of all, for one that was suspended (R350) -/
  readySeq : Nat
  readyTick : Nat
  /-- dispatched while ordered-route mode was in effect -/
  ordered : Bool
  port : Option Nat
  deriving DecidableEq, Repr

/-- A route record (R352). -/
structure Route where
  kind : Nat
  owner : Nat
  exec : Nat
  clusters : Nat
  deleting : Bool
  deriving DecidableEq, Repr

/-- A dependence counter (R355) with the number of its allocation and its owner. -/
structure DepCtr where
  value : Nat
  sat : Bool
  under : Bool
  alloc : Nat
  owner : Nat
  exec : Nat
  deriving DecidableEq, Repr

/-- A window read the scheduler tracks (R361): the page, whether it is a pre-read, the letters suspended on it, the core,
run-ahead episode (none for PRD) and execution of a pre-read, whether it has gone to the window service and to a die, the
version looked up, and whether a write has superseded it (R297). -/
structure ReadEntry where
  handle : Nat
  func : Nat
  nsid : Nat
  iu : Nat
  pre : Bool
  letters : List Nat
  core : Nat
  episode : Option Nat
  exec : Nat
  born : Nat
  sent : Bool
  atDie : Bool
  chan : Nat
  data : List Byte
  arrived : Option Bool
  stale : Bool
  deriving DecidableEq, Repr

/-- The sorting office. -/
structure Sch where
  letters : List Letter
  /-- identifiers never used yet start here; freed ones in the order they were freed -/
  nextId : Nat
  freed : List Nat
  /-- generation and end status of each identifier's last letter -/
  past : SMap (Nat × Nat)
  seq : Nat
  rseq : Nat
  routes : SMap Route
  ctrs : SMap DepCtr
  nextAlloc : Nat
  /-- signals held for submission order: route, submission number, counter and its allocation (R352) -/
  signals : List (Nat × Nat × Nat × Nat)
  /-- letter each port holds, and ports offered one -/
  holds : SMap Nat
  offered : List Nat
  lettersFull : Bool
  /-- letters that became due in the present tick (R356) -/
  dueNow : Nat
  burst : Bool
  /-- route of each function last served (R358) -/
  lastRoute : SMap Nat
  reads : List ReadEntry
  nextRead : Nat
  deriving DecidableEq, Repr

/-- The scheduler after a reset that resets it. -/
def Sch.reset : Sch where
  letters := []
  nextId := 0
  freed := []
  past := []
  seq := 0
  rseq := 1
  routes := []
  ctrs := []
  nextAlloc := 1
  signals := []
  holds := []
  offered := []
  lettersFull := false
  dueNow := 0
  burst := false
  lastRoute := []
  reads := []
  nextRead := 1

end Sys2Proof.Machine
end

