-- ==== Sys2Proof/Machine/Parts/Tenant.lean ====
section
/-! DEFINITION. The sharing of the module among functions: granules, resources and letterboxes (R443–R458). -/

namespace Sys2Proof.Machine

/-- The assigned resources of a function beside its granules (R453). -/
structure Res where
  qps : Nat
  vecs : Nat
  nsCap : Nat
  keySlots : Nat
  arbW : Nat
  compW : Nat
  mask : Nat
  excl : Bool
  letters : Nat
  execs : Nat
  banks : Nat
  scanRun : Nat
  scanQ : Nat
  deriving DecidableEq, Repr

/-- A letterbox message: header fields and payload words (R451). -/
structure Msg where
  typ : Nat
  op : Nat
  tag : Nat
  func : Nat
  status : Nat
  lost : Nat
  payload : List Byte
  deriving DecidableEq, Repr

/-- The tenants. -/
structure Ten where
  /-- granules that are SLM and private memory of each function, in the order they were granted (R455) -/
  slm : SMap (List Nat)
  priv : SMap (List Nat)
  /-- granules of each function's memory namespace: the first so many of its SLM granules (R369) -/
  memNs : SMap Nat
  res : SMap Res
  manager : Nat
  /-- notices held for want of M2H space, and the count dropped since the last posted (R450) -/
  hold : SMap (List Msg)
  lost : SMap Nat
  /-- functions whose doorbells wait to be served, in arrival order (R449) -/
  doorbells : List Nat
  paused : Bool
  /-- functions whose MSI-X Enable bit is set (R454) -/
  msixOn : List Nat
  /-- interrupts sent for M2H_TAIL: function and MSI-X entry -/
  m2hIrqs : List (Nat × Nat)
  deriving DecidableEq, Repr

/-- The tenants at manufacture (R455): the manager function holds 191 SLM and 32 private granules. -/
def Ten.reset : Ten where
  slm := [(0, List.range 191)]
  priv := [(0, (List.range 32).map (· + 192))]
  memNs := []
  res := []
  manager := 0
  hold := []
  lost := []
  doorbells := []
  paused := false
  msixOn := []
  m2hIrqs := []

end Sys2Proof.Machine
end

