-- ==== Sys2Proof/Machine/RegTable.lean ====
section
/-! DEFINITION. The register maps of the spec as data: every block summary and field map (R36 and the
register tables of the chapters), with one name per register (`Reg.…`) and per field (`Fl.…`).
An address names a whole register, 32 or 64 bits wide (R9); reserved bits are those no field row covers (R10). -/

namespace Sys2Proof.Machine

def Reg.PWR_STATUS : Nat := 0x40010000
def Fl.PWR_STATUS_MAINS_OK : Fld := ⟨Reg.PWR_STATUS, 0, 1⟩
def Fl.PWR_STATUS_AUX_OK : Fld := ⟨Reg.PWR_STATUS, 1, 1⟩
def Fl.PWR_STATUS_ACTIVE : Fld := ⟨Reg.PWR_STATUS, 2, 1⟩
def Fl.PWR_STATUS_CHG_ON : Fld := ⟨Reg.PWR_STATUS, 3, 1⟩
def Fl.PWR_STATUS_RESERVE_OK : Fld := ⟨Reg.PWR_STATUS, 4, 1⟩
def Fl.PWR_STATUS_SWITCHED_IN : Fld := ⟨Reg.PWR_STATUS, 5, 1⟩
def Fl.PWR_STATUS_BANK_STATE : Fld := ⟨Reg.PWR_STATUS, 6, 2⟩
def Reg.PWR_SRC_CFG : Nat := 0x40010004
def Fl.PWR_SRC_CFG_PRIO : Fld := ⟨Reg.PWR_SRC_CFG, 0, 1⟩
def Fl.PWR_SRC_CFG_MAINS_EN : Fld := ⟨Reg.PWR_SRC_CFG, 1, 1⟩
def Fl.PWR_SRC_CFG_AUX_EN : Fld := ⟨Reg.PWR_SRC_CFG, 2, 1⟩
def Fl.PWR_SRC_CFG_RETURN_DLY : Fld := ⟨Reg.PWR_SRC_CFG, 4, 4⟩
def Reg.PWR_PFAIL_CFG : Nat := 0x40010008
def Fl.PWR_PFAIL_CFG_EN : Fld := ⟨Reg.PWR_PFAIL_CFG, 0, 1⟩
def Fl.PWR_PFAIL_CFG_HOLD : Fld := ⟨Reg.PWR_PFAIL_CFG, 4, 4⟩
def Reg.PWR_VBUS_MON : Nat := 0x4001000C
def Fl.PWR_VBUS_MON_VBUS : Fld := ⟨Reg.PWR_VBUS_MON, 0, 16⟩
def Fl.PWR_VBUS_MON_VCAP : Fld := ⟨Reg.PWR_VBUS_MON, 16, 16⟩
def Reg.PWR_VIN_MON : Nat := 0x40010010
def Fl.PWR_VIN_MON_MAINS : Fld := ⟨Reg.PWR_VIN_MON, 0, 16⟩
def Fl.PWR_VIN_MON_AUX : Fld := ⟨Reg.PWR_VIN_MON, 16, 16⟩
def Reg.PWR_IN_POWER : Nat := 0x40010014
def Fl.PWR_IN_POWER_INPUT : Fld := ⟨Reg.PWR_IN_POWER, 0, 16⟩
def Fl.PWR_IN_POWER_CHARGER : Fld := ⟨Reg.PWR_IN_POWER, 16, 16⟩
def Reg.PWR_CAP_HEALTH : Nat := 0x40010018
def Fl.PWR_CAP_HEALTH_ENERGY : Fld := ⟨Reg.PWR_CAP_HEALTH, 0, 12⟩
def Fl.PWR_CAP_HEALTH_CAP : Fld := ⟨Reg.PWR_CAP_HEALTH, 12, 12⟩
def Fl.PWR_CAP_HEALTH_ESR : Fld := ⟨Reg.PWR_CAP_HEALTH, 24, 8⟩
def Reg.PWR_CAP_CTRL : Nat := 0x4001001C
def Fl.PWR_CAP_CTRL_TEST : Fld := ⟨Reg.PWR_CAP_CTRL, 0, 1⟩
def Fl.PWR_CAP_CTRL_TEST_BUSY : Fld := ⟨Reg.PWR_CAP_CTRL, 1, 1⟩
def Fl.PWR_CAP_CTRL_INTERVAL : Fld := ⟨Reg.PWR_CAP_CTRL, 8, 8⟩
def Reg.PWR_COMMIT_STATE : Nat := 0x40010020
def Fl.PWR_COMMIT_STATE_PHASE : Fld := ⟨Reg.PWR_COMMIT_STATE, 0, 2⟩
def Fl.PWR_COMMIT_STATE_CAUSE_VWARN : Fld := ⟨Reg.PWR_COMMIT_STATE, 2, 1⟩
def Fl.PWR_COMMIT_STATE_CAUSE_PFAIL : Fld := ⟨Reg.PWR_COMMIT_STATE, 3, 1⟩
def Fl.PWR_COMMIT_STATE_CAUSE_BROWNOUT : Fld := ⟨Reg.PWR_COMMIT_STATE, 4, 1⟩
def Reg.PWR_COMMIT_LAST : Nat := 0x40010024
def Fl.PWR_COMMIT_LAST_ENERGY : Fld := ⟨Reg.PWR_COMMIT_LAST, 0, 12⟩
def Fl.PWR_COMMIT_LAST_DURATION : Fld := ⟨Reg.PWR_COMMIT_LAST, 12, 12⟩
def Fl.PWR_COMMIT_LAST_COMPLETE : Fld := ⟨Reg.PWR_COMMIT_LAST, 24, 1⟩
def Fl.PWR_COMMIT_LAST_FROM_MODE : Fld := ⟨Reg.PWR_COMMIT_LAST, 25, 4⟩
def Reg.PWR_EVENT : Nat := 0x40010028
def Fl.PWR_EVENT_BRACE : Fld := ⟨Reg.PWR_EVENT, 0, 1⟩
def Fl.PWR_EVENT_RECOVER : Fld := ⟨Reg.PWR_EVENT, 1, 1⟩
def Fl.PWR_EVENT_SWITCHOVER : Fld := ⟨Reg.PWR_EVENT, 2, 1⟩
def Fl.PWR_EVENT_BANK_WARN : Fld := ⟨Reg.PWR_EVENT, 3, 1⟩
def Fl.PWR_EVENT_BANK_EOL : Fld := ⟨Reg.PWR_EVENT, 4, 1⟩
def Fl.PWR_EVENT_BANK_FAIL : Fld := ⟨Reg.PWR_EVENT, 5, 1⟩
def Fl.PWR_EVENT_RESERVE_LOW : Fld := ⟨Reg.PWR_EVENT, 6, 1⟩
def Fl.PWR_EVENT_TEST_REFUSED : Fld := ⟨Reg.PWR_EVENT, 7, 1⟩
def Fl.PWR_EVENT_INPUT_OV : Fld := ⟨Reg.PWR_EVENT, 8, 1⟩
def Reg.PWR_EVENT_EN : Nat := 0x4001002C

def Reg.AON_MODE : Nat := 0x40000000
def Fl.AON_MODE_CUR : Fld := ⟨Reg.AON_MODE, 0, 4⟩
def Fl.AON_MODE_PREV : Fld := ⟨Reg.AON_MODE, 4, 4⟩
def Fl.AON_MODE_TARGET : Fld := ⟨Reg.AON_MODE, 8, 4⟩
def Fl.AON_MODE_TRANS : Fld := ⟨Reg.AON_MODE, 12, 1⟩
def Fl.AON_MODE_RO_CAUSE : Fld := ⟨Reg.AON_MODE, 16, 3⟩
def Reg.AON_RST_CAUSE : Nat := 0x40000004
def Fl.AON_RST_CAUSE_POWER_ON : Fld := ⟨Reg.AON_RST_CAUSE, 0, 1⟩
def Fl.AON_RST_CAUSE_MOD_PERST : Fld := ⟨Reg.AON_RST_CAUSE, 1, 1⟩
def Fl.AON_RST_CAUSE_MOD_MGMT : Fld := ⟨Reg.AON_RST_CAUSE, 2, 1⟩
def Fl.AON_RST_CAUSE_MOD_WDT : Fld := ⟨Reg.AON_RST_CAUSE, 3, 1⟩
def Fl.AON_RST_CAUSE_MOD_RISE : Fld := ⟨Reg.AON_RST_CAUSE, 4, 1⟩
def Fl.AON_RST_CAUSE_MOD_PLL : Fld := ⟨Reg.AON_RST_CAUSE, 5, 1⟩
def Fl.AON_RST_CAUSE_NVMSSR_REG : Fld := ⟨Reg.AON_RST_CAUSE, 6, 1⟩
def Fl.AON_RST_CAUSE_NVMSSR_PERST : Fld := ⟨Reg.AON_RST_CAUSE, 7, 1⟩
def Fl.AON_RST_CAUSE_CLUSTER : Fld := ⟨Reg.AON_RST_CAUSE, 8, 1⟩
def Fl.AON_RST_CAUSE_CHANNEL : Fld := ⟨Reg.AON_RST_CAUSE, 9, 1⟩
def Fl.AON_RST_CAUSE_DEBUG : Fld := ⟨Reg.AON_RST_CAUSE, 10, 1⟩
def Reg.AON_WAKE_EN : Nat := 0x40000008
def Fl.AON_WAKE_EN_PWRDIS : Fld := ⟨Reg.AON_WAKE_EN, 0, 1⟩
def Fl.AON_WAKE_EN_PERST : Fld := ⟨Reg.AON_WAKE_EN, 1, 1⟩
def Fl.AON_WAKE_EN_TIMER : Fld := ⟨Reg.AON_WAKE_EN, 2, 1⟩
def Reg.AON_WAKE_SRC : Nat := 0x4000000C
def Fl.AON_WAKE_SRC_PWRDIS : Fld := ⟨Reg.AON_WAKE_SRC, 0, 1⟩
def Fl.AON_WAKE_SRC_PERST : Fld := ⟨Reg.AON_WAKE_SRC, 1, 1⟩
def Fl.AON_WAKE_SRC_TIMER : Fld := ⟨Reg.AON_WAKE_SRC, 2, 1⟩
def Fl.AON_WAKE_SRC_VBUS : Fld := ⟨Reg.AON_WAKE_SRC, 3, 1⟩
def Fl.AON_WAKE_SRC_PFAIL : Fld := ⟨Reg.AON_WAKE_SRC, 4, 1⟩
def Fl.AON_WAKE_SRC_HOST : Fld := ⟨Reg.AON_WAKE_SRC, 5, 1⟩
def Fl.AON_WAKE_SRC_NET : Fld := ⟨Reg.AON_WAKE_SRC, 6, 1⟩
def Fl.AON_WAKE_SRC_MCTP : Fld := ⟨Reg.AON_WAKE_SRC, 7, 1⟩
def Fl.AON_WAKE_SRC_DELAY : Fld := ⟨Reg.AON_WAKE_SRC, 8, 1⟩
def Fl.AON_WAKE_SRC_THERMAL : Fld := ⟨Reg.AON_WAKE_SRC, 9, 1⟩
def Fl.AON_WAKE_SRC_DEBUG : Fld := ⟨Reg.AON_WAKE_SRC, 10, 1⟩
def Reg.AON_WAKE_TIMER : Nat := 0x40000010
def Fl.AON_WAKE_TIMER_SECONDS : Fld := ⟨Reg.AON_WAKE_TIMER, 0, 32⟩
def Reg.AON_PWRCYC : Nat := 0x40000014
def Reg.AON_PD_ON_LO : Nat := 0x40000018
def Fl.AON_PD_ON_LO_PD : Fld := ⟨Reg.AON_PD_ON_LO, 0, 32⟩
def Reg.AON_PD_ON_HI : Nat := 0x4000001C
def Fl.AON_PD_ON_HI_PD : Fld := ⟨Reg.AON_PD_ON_HI, 0, 8⟩
def Reg.AON_PD_RETIRED_LO : Nat := 0x40000020
def Fl.AON_PD_RETIRED_LO_PD : Fld := ⟨Reg.AON_PD_RETIRED_LO, 0, 32⟩
def Reg.AON_PD_RETIRED_HI : Nat := 0x40000024
def Fl.AON_PD_RETIRED_HI_PD : Fld := ⟨Reg.AON_PD_RETIRED_HI, 0, 8⟩
def Reg.AON_RISE_LAST : Nat := 0x40000028
def Fl.AON_RISE_LAST_TOTAL : Fld := ⟨Reg.AON_RISE_LAST, 0, 12⟩
def Fl.AON_RISE_LAST_REPLAY : Fld := ⟨Reg.AON_RISE_LAST, 12, 9⟩
def Fl.AON_RISE_LAST_SCAN : Fld := ⟨Reg.AON_RISE_LAST, 21, 9⟩
def Fl.AON_RISE_LAST_SLOT_FALLBACK : Fld := ⟨Reg.AON_RISE_LAST, 30, 1⟩
def Fl.AON_RISE_LAST_LATE : Fld := ⟨Reg.AON_RISE_LAST, 31, 1⟩
def Reg.AON_RESET_REQ : Nat := 0x4000002C
def Fl.AON_RESET_REQ_MODULE : Fld := ⟨Reg.AON_RESET_REQ, 0, 1⟩
def Fl.AON_RESET_REQ_NVMSSR : Fld := ⟨Reg.AON_RESET_REQ, 1, 1⟩
def Fl.AON_RESET_REQ_KEEP : Fld := ⟨Reg.AON_RESET_REQ, 2, 1⟩
def Fl.AON_RESET_REQ_START : Fld := ⟨Reg.AON_RESET_REQ, 3, 1⟩
def Fl.AON_RESET_REQ_KEY : Fld := ⟨Reg.AON_RESET_REQ, 8, 8⟩
def Reg.AON_DELAY_WAKE : Nat := 0x40000030
def Fl.AON_DELAY_WAKE_PERIODS : Fld := ⟨Reg.AON_DELAY_WAKE, 0, 32⟩

def Reg.CLK_STATUS : Nat := 0x40020000
def Fl.CLK_STATUS_XTAL_OK : Fld := ⟨Reg.CLK_STATUS, 0, 1⟩
def Fl.CLK_STATUS_ON_RC : Fld := ⟨Reg.CLK_STATUS, 1, 1⟩
def Fl.CLK_STATUS_REF25_OK : Fld := ⟨Reg.CLK_STATUS, 2, 1⟩
def Fl.CLK_STATUS_PLL_LOCK : Fld := ⟨Reg.CLK_STATUS, 3, 5⟩
def Fl.CLK_STATUS_PCIE_REF_OK : Fld := ⟨Reg.CLK_STATUS, 8, 1⟩
def Fl.CLK_STATUS_NET_REF_OK : Fld := ⟨Reg.CLK_STATUS, 9, 1⟩
def Reg.CLK_REF_CTRL : Nat := 0x40020004
def Fl.CLK_REF_CTRL_PCIE_SRIS : Fld := ⟨Reg.CLK_REF_CTRL, 0, 1⟩
def Reg.CLK_PLL_CTRL (i : Nat) : Nat := 0x40020010 + 0x4 * i
def Fl.CLK_PLL_CTRL_EN (i : Nat) : Fld := ⟨Reg.CLK_PLL_CTRL i, 0, 1⟩
def Fl.CLK_PLL_CTRL_LOCKED (i : Nat) : Fld := ⟨Reg.CLK_PLL_CTRL i, 1, 1⟩
def Fl.CLK_PLL_CTRL_LOCK_TIME (i : Nat) : Fld := ⟨Reg.CLK_PLL_CTRL i, 8, 8⟩
def Fl.CLK_PLL_CTRL_LOSS_COUNT (i : Nat) : Fld := ⟨Reg.CLK_PLL_CTRL i, 16, 4⟩
def Reg.CLK_LOCK_LOSS : Nat := 0x40020024
def Fl.CLK_LOCK_LOSS_PLL : Fld := ⟨Reg.CLK_LOCK_LOSS, 0, 5⟩
def Reg.CLK_LOSS_CYCLE : Nat := 0x40020028
def Fl.CLK_LOSS_CYCLE_PLL (f : Nat) : Fld := ⟨Reg.CLK_LOSS_CYCLE, 0 + 3 * f, 3⟩

def Reg.CTC_CORE_STATUS : Nat := 0x4A000000
def Fl.CTC_CORE_STATUS_CORE (f : Nat) : Fld := ⟨Reg.CTC_CORE_STATUS, 0 + 2 * f, 2⟩
def Reg.CTC_CORE_RETIRED : Nat := 0x4A000004
def Fl.CTC_CORE_RETIRED_CORE : Fld := ⟨Reg.CTC_CORE_RETIRED, 0, 12⟩

def Reg.HIF_LINK_STATUS : Nat := 0x41000000
def Fl.HIF_LINK_STATUS_UP_A : Fld := ⟨Reg.HIF_LINK_STATUS, 0, 1⟩
def Fl.HIF_LINK_STATUS_SPEED_A : Fld := ⟨Reg.HIF_LINK_STATUS, 1, 3⟩
def Fl.HIF_LINK_STATUS_WIDTH_A : Fld := ⟨Reg.HIF_LINK_STATUS, 4, 4⟩
def Fl.HIF_LINK_STATUS_FLIT_A : Fld := ⟨Reg.HIF_LINK_STATUS, 8, 1⟩
def Fl.HIF_LINK_STATUS_DUAL : Fld := ⟨Reg.HIF_LINK_STATUS, 9, 1⟩
def Fl.HIF_LINK_STATUS_DEGRADED : Fld := ⟨Reg.HIF_LINK_STATUS, 10, 1⟩
def Fl.HIF_LINK_STATUS_UP_B : Fld := ⟨Reg.HIF_LINK_STATUS, 11, 1⟩
def Fl.HIF_LINK_STATUS_SPEED_B : Fld := ⟨Reg.HIF_LINK_STATUS, 12, 3⟩
def Fl.HIF_LINK_STATUS_WIDTH_B : Fld := ⟨Reg.HIF_LINK_STATUS, 15, 4⟩
def Fl.HIF_LINK_STATUS_FLIT_B : Fld := ⟨Reg.HIF_LINK_STATUS, 19, 1⟩
def Reg.HIF_LINK_CFG : Nat := 0x41000004
def Fl.HIF_LINK_CFG_MAX_SPEED : Fld := ⟨Reg.HIF_LINK_CFG, 0, 3⟩
def Fl.HIF_LINK_CFG_L1_ALLOW : Fld := ⟨Reg.HIF_LINK_CFG, 3, 1⟩
def Reg.HIF_FUNC_STATUS : Nat := 0x41000008
def Fl.HIF_FUNC_STATUS_NUMVF_A : Fld := ⟨Reg.HIF_FUNC_STATUS, 0, 8⟩
def Fl.HIF_FUNC_STATUS_NUMVF_B : Fld := ⟨Reg.HIF_FUNC_STATUS, 8, 8⟩
def Reg.HIF_TAG_STATUS : Nat := 0x41000010
def Reg.HIF_TAG_SHARED : Nat := 0x41000014
def Reg.HIF_TAG_CFG : Nat := 0x41000018
def Fl.HIF_TAG_CFG_RESERVE : Fld := ⟨Reg.HIF_TAG_CFG, 0, 9⟩
def Reg.HIF_OVL_STATUS : Nat := 0x4100001C
def Fl.HIF_OVL_STATUS_IN_USE : Fld := ⟨Reg.HIF_OVL_STATUS, 0, 15⟩
def Fl.HIF_OVL_STATUS_FULL : Fld := ⟨Reg.HIF_OVL_STATUS, 15, 1⟩
def Fl.HIF_OVL_STATUS_HWM : Fld := ⟨Reg.HIF_OVL_STATUS, 16, 15⟩
def Reg.HIF_STALL_TAG : Nat := 0x41000020
def Reg.HIF_STALL_OVL : Nat := 0x41000024
def Reg.HIF_EVENT : Nat := 0x41000030
def Fl.HIF_EVENT_LINK_DOWN_A : Fld := ⟨Reg.HIF_EVENT, 0, 1⟩
def Fl.HIF_EVENT_LINK_DOWN_B : Fld := ⟨Reg.HIF_EVENT, 1, 1⟩
def Fl.HIF_EVENT_DEGRADED : Fld := ⟨Reg.HIF_EVENT, 2, 1⟩
def Fl.HIF_EVENT_TAG_EMPTY : Fld := ⟨Reg.HIF_EVENT, 3, 1⟩
def Fl.HIF_EVENT_OVL_FULL : Fld := ⟨Reg.HIF_EVENT, 4, 1⟩
def Fl.HIF_EVENT_CQ_HELD : Fld := ⟨Reg.HIF_EVENT, 5, 1⟩
def Fl.HIF_EVENT_FLR : Fld := ⟨Reg.HIF_EVENT, 6, 1⟩
def Fl.HIF_EVENT_NSSR : Fld := ⟨Reg.HIF_EVENT, 7, 1⟩
def Reg.HIF_EVENT_EN : Nat := 0x41000034
def Reg.HIF_FETCH_CTRL : Nat := 0x41000040
def Fl.HIF_FETCH_CTRL_HOLD : Fld := ⟨Reg.HIF_FETCH_CTRL, 0, 1⟩
def Fl.HIF_FETCH_CTRL_HELD : Fld := ⟨Reg.HIF_FETCH_CTRL, 1, 1⟩

def Reg.CHE_STATUS (n : Nat) : Nat := 0x46000000 + 0x10000 * n
def Fl.CHE_STATUS_STATE (n : Nat) : Fld := ⟨Reg.CHE_STATUS n, 0, 2⟩
def Fl.CHE_STATUS_BUSY (n : Nat) : Fld := ⟨Reg.CHE_STATUS n, 2, 1⟩
def Fl.CHE_STATUS_GOV_WAIT (n : Nat) : Fld := ⟨Reg.CHE_STATUS n, 3, 1⟩
def Fl.CHE_STATUS_REBUILD_ONLY (n : Nat) : Fld := ⟨Reg.CHE_STATUS n, 4, 1⟩
def Reg.CHE_CTRL (n : Nat) : Nat := 0x46000004 + 0x10000 * n
def Fl.CHE_CTRL_RESET (n : Nat) : Fld := ⟨Reg.CHE_CTRL n, 0, 1⟩
def Fl.CHE_CTRL_CALIBRATE (n : Nat) : Fld := ⟨Reg.CHE_CTRL n, 1, 1⟩
def Fl.CHE_CTRL_HOLD (n : Nat) : Fld := ⟨Reg.CHE_CTRL n, 2, 1⟩
def Fl.CHE_CTRL_HELD (n : Nat) : Fld := ⟨Reg.CHE_CTRL n, 3, 1⟩
def Fl.CHE_CTRL_RETIRE (n : Nat) : Fld := ⟨Reg.CHE_CTRL n, 4, 1⟩
def Fl.CHE_CTRL_KEY (n : Nat) : Fld := ⟨Reg.CHE_CTRL n, 8, 8⟩
def Reg.CHE_GOV_CFG (n : Nat) : Nat := 0x46000008 + 0x10000 * n
def Fl.CHE_GOV_CFG_BUDGET (n : Nat) : Fld := ⟨Reg.CHE_GOV_CFG n, 0, 12⟩
def Fl.CHE_GOV_CFG_ERASE_MAX (n : Nat) : Fld := ⟨Reg.CHE_GOV_CFG n, 12, 3⟩
def Reg.CHE_SUSP_CFG (n : Nat) : Nat := 0x4600000C + 0x10000 * n
def Fl.CHE_SUSP_CFG_ERS_MIN_RUN (n : Nat) : Fld := ⟨Reg.CHE_SUSP_CFG n, 0, 8⟩
def Fl.CHE_SUSP_CFG_ERS_MAX (n : Nat) : Fld := ⟨Reg.CHE_SUSP_CFG n, 8, 5⟩
def Fl.CHE_SUSP_CFG_PRG_MAX (n : Nat) : Fld := ⟨Reg.CHE_SUSP_CFG n, 13, 2⟩
def Reg.CHE_DIE_STATE (n : Nat) : Nat := 0x46000010 + 0x10000 * n
def Fl.CHE_DIE_STATE_DIE (n : Nat) (f : Nat) : Fld := ⟨Reg.CHE_DIE_STATE n, 0 + 4 * f, 4⟩
def Reg.CHE_CAL (n : Nat) : Nat := 0x46000014 + 0x10000 * n
def Fl.CHE_CAL_OK (n : Nat) : Fld := ⟨Reg.CHE_CAL n, 0, 1⟩
def Fl.CHE_CAL_BUSY (n : Nat) : Fld := ⟨Reg.CHE_CAL n, 1, 1⟩
def Fl.CHE_CAL_FAIL_RUN (n : Nat) : Fld := ⟨Reg.CHE_CAL n, 2, 2⟩
def Fl.CHE_CAL_LAST_US (n : Nat) : Fld := ⟨Reg.CHE_CAL n, 8, 8⟩
def Reg.CHE_UCODE (n : Nat) : Nat := 0x46000018 + 0x10000 * n
def Fl.CHE_UCODE_VERSION (n : Nat) : Fld := ⟨Reg.CHE_UCODE n, 0, 16⟩
def Fl.CHE_UCODE_STATE (n : Nat) : Fld := ⟨Reg.CHE_UCODE n, 16, 2⟩
def Reg.CHE_FAIL_HIST (n : Nat) : Nat := 0x4600001C + 0x10000 * n
def Fl.CHE_FAIL_HIST_SEQ_FAIL (n : Nat) : Fld := ⟨Reg.CHE_FAIL_HIST n, 0, 8⟩
def Fl.CHE_FAIL_HIST_CAL_FAIL (n : Nat) : Fld := ⟨Reg.CHE_FAIL_HIST n, 8, 8⟩
def Reg.CHE_EVENT (n : Nat) : Nat := 0x46000020 + 0x10000 * n
def Fl.CHE_EVENT_BUS_RETRY (n : Nat) : Fld := ⟨Reg.CHE_EVENT n, 0, 1⟩
def Fl.CHE_EVENT_RETRY_FAIL (n : Nat) : Fld := ⟨Reg.CHE_EVENT n, 1, 1⟩
def Fl.CHE_EVENT_CAL_FAIL (n : Nat) : Fld := ⟨Reg.CHE_EVENT n, 2, 1⟩
def Fl.CHE_EVENT_PROG_FAIL (n : Nat) : Fld := ⟨Reg.CHE_EVENT n, 3, 1⟩
def Fl.CHE_EVENT_ERASE_FAIL (n : Nat) : Fld := ⟨Reg.CHE_EVENT n, 4, 1⟩
def Fl.CHE_EVENT_UNSTABLE (n : Nat) : Fld := ⟨Reg.CHE_EVENT n, 5, 1⟩
def Fl.CHE_EVENT_REBUILD (n : Nat) : Fld := ⟨Reg.CHE_EVENT n, 6, 1⟩
def Fl.CHE_EVENT_UNCORR (n : Nat) : Fld := ⟨Reg.CHE_EVENT n, 7, 1⟩
def Fl.CHE_EVENT_RETIRED (n : Nat) : Fld := ⟨Reg.CHE_EVENT n, 8, 1⟩
def Fl.CHE_EVENT_SUSP_LIMIT (n : Nat) : Fld := ⟨Reg.CHE_EVENT n, 9, 1⟩
def Reg.CHE_EVENT_EN (n : Nat) : Nat := 0x46000024 + 0x10000 * n
def Reg.CHE_CNT_ERASE (n : Nat) : Nat := 0x46000028 + 0x10000 * n
def Reg.CHE_CNT_BUSRETRY (n : Nat) : Nat := 0x4600002C + 0x10000 * n
def Reg.CHE_CNT_READ (n : Nat) : Nat := 0x46000030 + 0x10000 * n
def Reg.CHE_CNT_PROG (n : Nat) : Nat := 0x46000038 + 0x10000 * n
def Reg.CHE_CNT_RRETRY (n : Nat) : Nat := 0x46000040 + 0x10000 * n
def Reg.CHE_CNT_SOFT (n : Nat) : Nat := 0x46000044 + 0x10000 * n
def Reg.CHE_CNT_REBUILD (n : Nat) : Nat := 0x46000048 + 0x10000 * n
def Reg.CHE_CNT_SUSPEND (n : Nat) : Nat := 0x4600004C + 0x10000 * n
def Reg.CHE_QDEPTH (n : Nat) : Nat := 0x46000050 + 0x10000 * n
def Fl.CHE_QDEPTH_CLASS (n : Nat) (f : Nat) : Fld := ⟨Reg.CHE_QDEPTH n, 0 + 8 * f, 8⟩
def Reg.CHE_SF_STATUS (n : Nat) : Nat := 0x46008000 + 0x10000 * n
def Fl.CHE_SF_STATUS_CTX_BUSY (n : Nat) : Fld := ⟨Reg.CHE_SF_STATUS n, 0, 4⟩
def Fl.CHE_SF_STATUS_CTX_CUR (n : Nat) : Fld := ⟨Reg.CHE_SF_STATUS n, 4, 4⟩
def Fl.CHE_SF_STATUS_PROBE_WAIT (n : Nat) : Fld := ⟨Reg.CHE_SF_STATUS n, 8, 1⟩
def Fl.CHE_SF_STATUS_OUT_WAIT (n : Nat) : Fld := ⟨Reg.CHE_SF_STATUS n, 9, 1⟩
def Fl.CHE_SF_STATUS_SEAM_WAIT (n : Nat) : Fld := ⟨Reg.CHE_SF_STATUS n, 10, 1⟩
def Reg.CHE_SF_CTRL (n : Nat) : Nat := 0x46008004 + 0x10000 * n
def Fl.CHE_SF_CTRL_ABORT (n : Nat) : Fld := ⟨Reg.CHE_SF_CTRL n, 0, 4⟩
def Reg.CHE_SF_CAP (n : Nat) : Nat := 0x46008008 + 0x10000 * n
def Fl.CHE_SF_CAP_CONTEXTS (n : Nat) : Fld := ⟨Reg.CHE_SF_CAP n, 0, 4⟩
def Fl.CHE_SF_CAP_MAX_INSTR (n : Nat) : Fld := ⟨Reg.CHE_SF_CAP n, 4, 9⟩
def Fl.CHE_SF_CAP_MAX_PAT (n : Nat) : Fld := ⟨Reg.CHE_SF_CAP n, 13, 7⟩
def Fl.CHE_SF_CAP_LANES (n : Nat) : Fld := ⟨Reg.CHE_SF_CAP n, 20, 4⟩
def Fl.CHE_SF_CAP_VERSION (n : Nat) : Fld := ⟨Reg.CHE_SF_CAP n, 24, 8⟩
def Reg.CHE_SF_EVENT (n : Nat) : Nat := 0x4600800C + 0x10000 * n
def Fl.CHE_SF_EVENT_MALFORMED (n : Nat) : Fld := ⟨Reg.CHE_SF_EVENT n, 0, 1⟩
def Fl.CHE_SF_EVENT_BAD_BLOCK (n : Nat) : Fld := ⟨Reg.CHE_SF_EVENT n, 1, 1⟩
def Fl.CHE_SF_EVENT_UNREAD (n : Nat) : Fld := ⟨Reg.CHE_SF_EVENT n, 2, 1⟩
def Fl.CHE_SF_EVENT_SEAM_FULL (n : Nat) : Fld := ⟨Reg.CHE_SF_EVENT n, 3, 1⟩
def Fl.CHE_SF_EVENT_NO_TABLE (n : Nat) : Fld := ⟨Reg.CHE_SF_EVENT n, 4, 1⟩
def Fl.CHE_SF_EVENT_AGG_OVF (n : Nat) : Fld := ⟨Reg.CHE_SF_EVENT n, 5, 1⟩
def Fl.CHE_SF_EVENT_CTX_ABORT (n : Nat) : Fld := ⟨Reg.CHE_SF_EVENT n, 6, 1⟩
def Reg.CHE_SF_EVENT_EN (n : Nat) : Nat := 0x46008010 + 0x10000 * n
def Reg.CHE_SF_CTX_STATE (n : Nat) (i : Nat) : Nat := 0x46008040 + 0x10000 * n + 0x20 * i
def Fl.CHE_SF_CTX_STATE_STATE (n : Nat) (i : Nat) : Fld := ⟨Reg.CHE_SF_CTX_STATE n i, 0, 2⟩
def Fl.CHE_SF_CTX_STATE_FRAMING (n : Nat) (i : Nat) : Fld := ⟨Reg.CHE_SF_CTX_STATE n i, 2, 2⟩
def Fl.CHE_SF_CTX_STATE_OUTMODE (n : Nat) (i : Nat) : Fld := ⟨Reg.CHE_SF_CTX_STATE n i, 4, 2⟩
def Fl.CHE_SF_CTX_STATE_RING (n : Nat) (i : Nat) : Fld := ⟨Reg.CHE_SF_CTX_STATE n i, 6, 1⟩
def Reg.CHE_SF_CTX_JOB (n : Nat) (i : Nat) : Nat := 0x46008044 + 0x10000 * n + 0x20 * i
def Fl.CHE_SF_CTX_JOB_JOB (n : Nat) (i : Nat) : Fld := ⟨Reg.CHE_SF_CTX_JOB n i, 0, 12⟩
def Fl.CHE_SF_CTX_JOB_FUNC (n : Nat) (i : Nat) : Fld := ⟨Reg.CHE_SF_CTX_JOB n i, 16, 7⟩
def Fl.CHE_SF_CTX_JOB_PROG (n : Nat) (i : Nat) : Fld := ⟨Reg.CHE_SF_CTX_JOB n i, 23, 1⟩
def Reg.CHE_SF_CTX_IU (n : Nat) (i : Nat) : Nat := 0x46008048 + 0x10000 * n + 0x20 * i
def Fl.CHE_SF_CTX_IU_IU (n : Nat) (i : Nat) : Fld := ⟨Reg.CHE_SF_CTX_IU n i, 0, 40⟩
def Reg.CHE_SF_CTX_OUT (n : Nat) (i : Nat) : Nat := 0x46008050 + 0x10000 * n + 0x20 * i
def Fl.CHE_SF_CTX_OUT_BYTES (n : Nat) (i : Nat) : Fld := ⟨Reg.CHE_SF_CTX_OUT n i, 0, 64⟩
def Reg.CHE_SF_CNT_FRAMED (n : Nat) : Nat := 0x460080C0 + 0x10000 * n
def Reg.CHE_SF_CNT_SELECTED (n : Nat) : Nat := 0x460080C8 + 0x10000 * n
def Reg.CHE_SF_CNT_PROBE (n : Nat) : Nat := 0x460080D0 + 0x10000 * n
def Reg.CHE_SF_CNT_PROBE_WAIT (n : Nat) : Nat := 0x460080D8 + 0x10000 * n
def Reg.CHE_SF_CNT_OUT_WAIT (n : Nat) : Nat := 0x460080E0 + 0x10000 * n
def Reg.CHE_SF_CNT_MALFORMED (n : Nat) : Nat := 0x460080E8 + 0x10000 * n
def Reg.CHE_SF_CNT_SEAM (n : Nat) : Nat := 0x460080EC + 0x10000 * n
def Reg.CHE_SF_CODE (n : Nat) (i : Nat) (j : Nat) : Nat := 0x46009000 + 0x10000 * n + 0x800 * i + 0x8 * j
def Reg.CHE_SF_CONST (n : Nat) (i : Nat) (j : Nat) : Nat := 0x4600B000 + 0x10000 * n + 0x40 * i + 0x8 * j
def Reg.CHE_SF_PAT (n : Nat) (i : Nat) (j : Nat) : Nat := 0x4600C000 + 0x10000 * n + 0x900 * i + 0x4 * j

def Reg.MAT_STATUS (n : Nat) : Nat := 0x44000000 + 0x10000 * n
def Fl.MAT_STATUS_STATE (n : Nat) : Fld := ⟨Reg.MAT_STATUS n, 0, 2⟩
def Fl.MAT_STATUS_CLEARING (n : Nat) : Fld := ⟨Reg.MAT_STATUS n, 2, 1⟩
def Fl.MAT_STATUS_UPD_BUSY (n : Nat) : Fld := ⟨Reg.MAT_STATUS n, 3, 1⟩
def Fl.MAT_STATUS_SCRUB_BUSY (n : Nat) : Fld := ⟨Reg.MAT_STATUS n, 4, 1⟩
def Fl.MAT_STATUS_VALID_ENTRIES (n : Nat) : Fld := ⟨Reg.MAT_STATUS n, 5, 14⟩
def Reg.MAT_CFG (n : Nat) : Nat := 0x44000004 + 0x10000 * n
def Fl.MAT_CFG_WIDTH (n : Nat) : Fld := ⟨Reg.MAT_CFG n, 0, 2⟩
def Fl.MAT_CFG_PF_EN (n : Nat) : Fld := ⟨Reg.MAT_CFG n, 2, 1⟩
def Fl.MAT_CFG_PF_BYTE (n : Nat) : Fld := ⟨Reg.MAT_CFG n, 3, 3⟩
def Reg.MAT_ENTRY_OP (n : Nat) : Nat := 0x44000008 + 0x10000 * n
def Fl.MAT_ENTRY_OP_ROW (n : Nat) : Fld := ⟨Reg.MAT_ENTRY_OP n, 0, 13⟩
def Fl.MAT_ENTRY_OP_OP (n : Nat) : Fld := ⟨Reg.MAT_ENTRY_OP n, 16, 2⟩
def Fl.MAT_ENTRY_OP_BUSY (n : Nat) : Fld := ⟨Reg.MAT_ENTRY_OP n, 31, 1⟩
def Reg.MAT_SCRUB_CFG (n : Nat) : Nat := 0x4400000C + 0x10000 * n
def Fl.MAT_SCRUB_CFG_PERIOD (n : Nat) : Fld := ⟨Reg.MAT_SCRUB_CFG n, 0, 10⟩
def Reg.MAT_REPAIR (n : Nat) : Nat := 0x44000010 + 0x10000 * n
def Fl.MAT_REPAIR_ROWS_FREE (n : Nat) : Fld := ⟨Reg.MAT_REPAIR n, 0, 7⟩
def Fl.MAT_REPAIR_COLS_FREE (n : Nat) : Fld := ⟨Reg.MAT_REPAIR n, 7, 3⟩
def Reg.MAT_EVENT (n : Nat) : Nat := 0x44000014 + 0x10000 * n
def Fl.MAT_EVENT_FALSE_HIT (n : Nat) : Fld := ⟨Reg.MAT_EVENT n, 0, 1⟩
def Fl.MAT_EVENT_SHADOW_CE (n : Nat) : Fld := ⟨Reg.MAT_EVENT n, 1, 1⟩
def Fl.MAT_EVENT_LOST (n : Nat) : Fld := ⟨Reg.MAT_EVENT n, 2, 1⟩
def Fl.MAT_EVENT_SCRUB_FIX (n : Nat) : Fld := ⟨Reg.MAT_EVENT n, 3, 1⟩
def Fl.MAT_EVENT_ROW_REPAIR (n : Nat) : Fld := ⟨Reg.MAT_EVENT n, 4, 1⟩
def Fl.MAT_EVENT_COL_REPAIR (n : Nat) : Fld := ⟨Reg.MAT_EVENT n, 5, 1⟩
def Fl.MAT_EVENT_RETIRED (n : Nat) : Fld := ⟨Reg.MAT_EVENT n, 6, 1⟩
def Reg.MAT_EVENT_EN (n : Nat) : Nat := 0x44000018 + 0x10000 * n
def Reg.MAT_CNT_SEARCH (n : Nat) : Nat := 0x44000020 + 0x10000 * n
def Reg.MAT_CNT_HIT (n : Nat) : Nat := 0x44000028 + 0x10000 * n
def Reg.MAT_CNT_GROUPS (n : Nat) : Nat := 0x44000030 + 0x10000 * n
def Reg.MAT_CNT_FALSE_HIT (n : Nat) : Nat := 0x44000038 + 0x10000 * n
def Reg.MAT_CNT_SHADOW_CE (n : Nat) : Nat := 0x4400003C + 0x10000 * n
def Reg.MAT_CNT_SCRUB_FIX (n : Nat) : Nat := 0x44000040 + 0x10000 * n
def Reg.MAT_TBL_MAP (n : Nat) (i : Nat) : Nat := 0x44008000 + 0x10000 * n + 0x8 * i
def Fl.MAT_TBL_MAP_VALID (n : Nat) (i : Nat) : Fld := ⟨Reg.MAT_TBL_MAP n i, 0, 1⟩
def Fl.MAT_TBL_MAP_SHARED (n : Nat) (i : Nat) : Fld := ⟨Reg.MAT_TBL_MAP n i, 1, 1⟩
def Fl.MAT_TBL_MAP_WIDTH (n : Nat) (i : Nat) : Fld := ⟨Reg.MAT_TBL_MAP n i, 2, 2⟩
def Fl.MAT_TBL_MAP_FIRST_BANK (n : Nat) (i : Nat) : Fld := ⟨Reg.MAT_TBL_MAP n i, 4, 4⟩
def Fl.MAT_TBL_MAP_LEN (n : Nat) (i : Nat) : Fld := ⟨Reg.MAT_TBL_MAP n i, 8, 5⟩
def Fl.MAT_TBL_MAP_REPLICAS (n : Nat) (i : Nat) : Fld := ⟨Reg.MAT_TBL_MAP n i, 13, 5⟩
def Fl.MAT_TBL_MAP_OWNER (n : Nat) (i : Nat) : Fld := ⟨Reg.MAT_TBL_MAP n i, 18, 8⟩
def Fl.MAT_TBL_MAP_DEGRADED (n : Nat) (i : Nat) : Fld := ⟨Reg.MAT_TBL_MAP n i, 26, 1⟩
def Fl.MAT_TBL_MAP_LOST (n : Nat) (i : Nat) : Fld := ⟨Reg.MAT_TBL_MAP n i, 27, 1⟩
def Fl.MAT_TBL_MAP_GLO (n : Nat) (i : Nat) : Fld := ⟨Reg.MAT_TBL_MAP n i, 32, 7⟩
def Fl.MAT_TBL_MAP_GHI (n : Nat) (i : Nat) : Fld := ⟨Reg.MAT_TBL_MAP n i, 40, 7⟩
def Fl.MAT_TBL_MAP_REP_DISABLE (n : Nat) (i : Nat) : Fld := ⟨Reg.MAT_TBL_MAP n i, 48, 16⟩

def Reg.CMP_STATUS (n : Nat) : Nat := 0x45000000 + 0x10000 * n
def Fl.CMP_STATUS_STATE (n : Nat) : Fld := ⟨Reg.CMP_STATUS n, 0, 2⟩
def Fl.CMP_STATUS_BUSY (n : Nat) : Fld := ⟨Reg.CMP_STATUS n, 2, 1⟩
def Fl.CMP_STATUS_FORMAT (n : Nat) : Fld := ⟨Reg.CMP_STATUS n, 3, 3⟩
def Fl.CMP_STATUS_DIRECTION (n : Nat) : Fld := ⟨Reg.CMP_STATUS n, 6, 1⟩
def Reg.CMP_CTRL (n : Nat) : Nat := 0x45000004 + 0x10000 * n
def Fl.CMP_CTRL_ABORT (n : Nat) : Fld := ⟨Reg.CMP_CTRL n, 0, 1⟩
def Fl.CMP_CTRL_RETIRE (n : Nat) : Fld := ⟨Reg.CMP_CTRL n, 1, 1⟩
def Fl.CMP_CTRL_KEY (n : Nat) : Fld := ⟨Reg.CMP_CTRL n, 8, 8⟩
def Reg.CMP_CFG (n : Nat) : Nat := 0x45000008 + 0x10000 * n
def Fl.CMP_CFG_SCAN_SHARE (n : Nat) : Fld := ⟨Reg.CMP_CFG n, 0, 4⟩
def Fl.CMP_CFG_PROG_SHARE (n : Nat) : Fld := ⟨Reg.CMP_CFG n, 4, 4⟩
def Reg.CMP_QDEPTH (n : Nat) : Nat := 0x4500000C + 0x10000 * n
def Fl.CMP_QDEPTH_IO (n : Nat) : Fld := ⟨Reg.CMP_QDEPTH n, 0, 8⟩
def Fl.CMP_QDEPTH_SCAN (n : Nat) : Fld := ⟨Reg.CMP_QDEPTH n, 8, 8⟩
def Fl.CMP_QDEPTH_PROG (n : Nat) : Fld := ⟨Reg.CMP_QDEPTH n, 16, 8⟩
def Reg.CMP_EVENT (n : Nat) : Nat := 0x45000010 + 0x10000 * n
def Fl.CMP_EVENT_CHECK_FAIL (n : Nat) : Fld := ⟨Reg.CMP_EVENT n, 0, 1⟩
def Fl.CMP_EVENT_VERIFY_FAIL (n : Nat) : Fld := ⟨Reg.CMP_EVENT n, 1, 1⟩
def Fl.CMP_EVENT_FAULT (n : Nat) : Fld := ⟨Reg.CMP_EVENT n, 2, 1⟩
def Fl.CMP_EVENT_RETIRED (n : Nat) : Fld := ⟨Reg.CMP_EVENT n, 3, 1⟩
def Fl.CMP_EVENT_SW_FALLBACK (n : Nat) : Fld := ⟨Reg.CMP_EVENT n, 4, 1⟩
def Fl.CMP_EVENT_LD_FAIL (n : Nat) : Fld := ⟨Reg.CMP_EVENT n, 5, 1⟩
def Reg.CMP_EVENT_EN (n : Nat) : Nat := 0x45000014 + 0x10000 * n
def Reg.CMP_CNT_CHECK_FAIL (n : Nat) : Nat := 0x45000018 + 0x10000 * n
def Reg.CMP_CNT_VERIFY_FAIL (n : Nat) : Nat := 0x4500001C + 0x10000 * n
def Reg.CMP_CNT_IN (n : Nat) : Nat := 0x45000020 + 0x10000 * n
def Reg.CMP_CNT_OUT (n : Nat) : Nat := 0x45000028 + 0x10000 * n
def Reg.CMP_CNT_DESC (n : Nat) : Nat := 0x45000030 + 0x10000 * n
def Reg.CMP_CNT_FAULT (n : Nat) : Nat := 0x45000038 + 0x10000 * n
def Reg.CMP_LD_CNT_BLOCKS (n : Nat) (i : Nat) : Nat := 0x45000100 + 0x10000 * n + 0x8 * i
def Reg.CMP_LD_CNT_FAIL (n : Nat) (i : Nat) : Nat := 0x45000200 + 0x10000 * n + 0x4 * i

def Reg.DIG_STATUS : Nat := 0x45100000
def Fl.DIG_STATUS_FREE : Fld := ⟨Reg.DIG_STATUS, 0, 16⟩
def Fl.DIG_STATUS_CORE_BUSY : Fld := ⟨Reg.DIG_STATUS, 16, 4⟩
def Fl.DIG_STATUS_LETTERS_WAIT : Fld := ⟨Reg.DIG_STATUS, 20, 5⟩
def Reg.DIG_CFG : Nat := 0x45100004
def Fl.DIG_CFG_CLAIM_MAX : Fld := ⟨Reg.DIG_CFG, 0, 4⟩
def Reg.DIG_EVENT : Nat := 0x45100008
def Fl.DIG_EVENT_CLEARED : Fld := ⟨Reg.DIG_EVENT, 0, 1⟩
def Fl.DIG_EVENT_FOREIGN : Fld := ⟨Reg.DIG_EVENT, 1, 1⟩
def Fl.DIG_EVENT_BLOB_REFUSED : Fld := ⟨Reg.DIG_EVENT, 2, 1⟩
def Fl.DIG_EVENT_CTX_ALARM : Fld := ⟨Reg.DIG_EVENT, 3, 1⟩
def Reg.DIG_EVENT_EN : Nat := 0x4510000C
def Reg.DIG_CNT_BYTES : Nat := 0x45100010
def Reg.DIG_CTX_CTRL (i : Nat) : Nat := 0x45101000 + 0x100 * i
def Fl.DIG_CTX_CTRL_ALG (i : Nat) : Fld := ⟨Reg.DIG_CTX_CTRL i, 0, 3⟩
def Fl.DIG_CTX_CTRL_HMAC (i : Nat) : Fld := ⟨Reg.DIG_CTX_CTRL i, 3, 1⟩
def Fl.DIG_CTX_CTRL_OP (i : Nat) : Fld := ⟨Reg.DIG_CTX_CTRL i, 4, 3⟩
def Fl.DIG_CTX_CTRL_LAST_BYTES (i : Nat) : Fld := ⟨Reg.DIG_CTX_CTRL i, 8, 3⟩
def Reg.DIG_CTX_STATUS (i : Nat) : Nat := 0x45101004 + 0x100 * i
def Fl.DIG_CTX_STATUS_STATE (i : Nat) : Fld := ⟨Reg.DIG_CTX_STATUS i, 0, 3⟩
def Fl.DIG_CTX_STATUS_BUSY (i : Nat) : Fld := ⟨Reg.DIG_CTX_STATUS i, 3, 1⟩
def Fl.DIG_CTX_STATUS_ERR (i : Nat) : Fld := ⟨Reg.DIG_CTX_STATUS i, 4, 4⟩
def Fl.DIG_CTX_STATUS_OWNER (i : Nat) : Fld := ⟨Reg.DIG_CTX_STATUS i, 8, 8⟩
def Reg.DIG_CTX_DECL (i : Nat) : Nat := 0x45101008 + 0x100 * i
def Fl.DIG_CTX_DECL_DECL (i : Nat) : Fld := ⟨Reg.DIG_CTX_DECL i, 0, 64⟩
def Reg.DIG_CTX_COUNT (i : Nat) : Nat := 0x45101010 + 0x100 * i
def Reg.DIG_CTX_DATA (i : Nat) : Nat := 0x45101018 + 0x100 * i
def Fl.DIG_CTX_DATA_WORD (i : Nat) : Fld := ⟨Reg.DIG_CTX_DATA i, 0, 64⟩
def Reg.DIG_CTX_KEY (i : Nat) (j : Nat) : Nat := 0x45101020 + 0x100 * i + 0x8 * j
def Fl.DIG_CTX_KEY_KEY (i : Nat) (j : Nat) : Fld := ⟨Reg.DIG_CTX_KEY i j, 0, 64⟩
def Reg.DIG_CTX_BLOB (i : Nat) : Nat := 0x451010A0 + 0x100 * i
def Fl.DIG_CTX_BLOB_ADDR (i : Nat) : Fld := ⟨Reg.DIG_CTX_BLOB i, 0, 48⟩
def Reg.DIG_CTX_RESULT (i : Nat) (j : Nat) : Nat := 0x451010C0 + 0x100 * i + 0x8 * j
def Fl.DIG_CTX_RESULT_RESULT (i : Nat) (j : Nat) : Fld := ⟨Reg.DIG_CTX_RESULT i j, 0, 64⟩

def Reg.KEY_STATUS : Nat := 0x45200000
def Fl.KEY_STATUS_READY : Fld := ⟨Reg.KEY_STATUS, 0, 1⟩
def Fl.KEY_STATUS_ALARM : Fld := ⟨Reg.KEY_STATUS, 1, 1⟩
def Fl.KEY_STATUS_ERASING : Fld := ⟨Reg.KEY_STATUS, 2, 1⟩
def Fl.KEY_STATUS_LOADED : Fld := ⟨Reg.KEY_STATUS, 3, 11⟩
def Reg.KEY_SLOT_OP : Nat := 0x45200004
def Fl.KEY_SLOT_OP_SLOT : Fld := ⟨Reg.KEY_SLOT_OP, 0, 10⟩
def Fl.KEY_SLOT_OP_ENTRY : Fld := ⟨Reg.KEY_SLOT_OP, 12, 12⟩
def Fl.KEY_SLOT_OP_OP : Fld := ⟨Reg.KEY_SLOT_OP, 24, 3⟩
def Fl.KEY_SLOT_OP_BUSY : Fld := ⟨Reg.KEY_SLOT_OP, 31, 1⟩
def Reg.KEY_SLOT_RESULT : Nat := 0x45200008
def Fl.KEY_SLOT_RESULT_RESULT : Fld := ⟨Reg.KEY_SLOT_RESULT, 0, 3⟩
def Reg.KEY_EVENT : Nat := 0x4520000C
def Fl.KEY_EVENT_ALARM : Fld := ⟨Reg.KEY_EVENT, 0, 1⟩
def Fl.KEY_EVENT_UNWRAP_FAIL : Fld := ⟨Reg.KEY_EVENT, 1, 1⟩
def Fl.KEY_EVENT_SLOT_WAIT : Fld := ⟨Reg.KEY_EVENT, 2, 1⟩
def Fl.KEY_EVENT_ERASED : Fld := ⟨Reg.KEY_EVENT, 3, 1⟩
def Fl.KEY_EVENT_RELOADED : Fld := ⟨Reg.KEY_EVENT, 4, 1⟩
def Reg.KEY_EVENT_EN : Nat := 0x45200010
def Reg.KEY_CNT_UNWRAP : Nat := 0x45200018
def Reg.KEY_CNT_SLOT_WAIT : Nat := 0x45200020

def Reg.AXC_STATUS (n : Nat) : Nat := 0x49000000 + 0x100000 * n
def Fl.AXC_STATUS_STATE (n : Nat) : Fld := ⟨Reg.AXC_STATUS n, 0, 2⟩
def Fl.AXC_STATUS_CORES_RUN (n : Nat) : Fld := ⟨Reg.AXC_STATUS n, 2, 8⟩
def Fl.AXC_STATUS_CORES_RA (n : Nat) : Fld := ⟨Reg.AXC_STATUS n, 10, 8⟩
def Fl.AXC_STATUS_INV_DONE (n : Nat) : Fld := ⟨Reg.AXC_STATUS n, 18, 1⟩
def Fl.AXC_STATUS_CMO_BUSY (n : Nat) : Fld := ⟨Reg.AXC_STATUS n, 19, 1⟩
def Fl.AXC_STATUS_LOCKED_WAYS (n : Nat) : Fld := ⟨Reg.AXC_STATUS n, 20, 4⟩
def Reg.AXC_CTRL (n : Nat) : Nat := 0x49000004 + 0x100000 * n
def Fl.AXC_CTRL_RESET (n : Nat) : Fld := ⟨Reg.AXC_CTRL n, 0, 1⟩
def Fl.AXC_CTRL_RETIRE (n : Nat) : Fld := ⟨Reg.AXC_CTRL n, 1, 1⟩
def Fl.AXC_CTRL_KEY (n : Nat) : Fld := ⟨Reg.AXC_CTRL n, 8, 8⟩
def Reg.AXC_CACHE_CTRL (n : Nat) : Nat := 0x49000008 + 0x100000 * n
def Fl.AXC_CACHE_CTRL_L1I_EN (n : Nat) : Fld := ⟨Reg.AXC_CACHE_CTRL n, 0, 1⟩
def Fl.AXC_CACHE_CTRL_L1D_EN (n : Nat) : Fld := ⟨Reg.AXC_CACHE_CTRL n, 1, 1⟩
def Fl.AXC_CACHE_CTRL_L2_EN (n : Nat) : Fld := ⟨Reg.AXC_CACHE_CTRL n, 2, 1⟩
def Fl.AXC_CACHE_CTRL_INV_DONE (n : Nat) : Fld := ⟨Reg.AXC_CACHE_CTRL n, 3, 1⟩
def Fl.AXC_CACHE_CTRL_CHANGING (n : Nat) : Fld := ⟨Reg.AXC_CACHE_CTRL n, 4, 1⟩
def Reg.AXC_LOCK_CTRL (n : Nat) : Nat := 0x4900000C + 0x100000 * n
def Fl.AXC_LOCK_CTRL_WAYS (n : Nat) : Fld := ⟨Reg.AXC_LOCK_CTRL n, 0, 16⟩
def Reg.AXC_RA_CFG (n : Nat) : Nat := 0x49000010 + 0x100000 * n
def Fl.AXC_RA_CFG_EN (n : Nat) : Fld := ⟨Reg.AXC_RA_CFG n, 0, 1⟩
def Fl.AXC_RA_CFG_PRD_EN (n : Nat) : Fld := ⟨Reg.AXC_RA_CFG n, 1, 1⟩
def Fl.AXC_RA_CFG_PRD_MAX (n : Nat) : Fld := ⟨Reg.AXC_RA_CFG n, 8, 7⟩
def Fl.AXC_RA_CFG_MAX_INSTR (n : Nat) : Fld := ⟨Reg.AXC_RA_CFG n, 16, 14⟩
def Reg.AXC_CMO_CTRL (n : Nat) : Nat := 0x49000014 + 0x100000 * n
def Fl.AXC_CMO_CTRL_OP (n : Nat) : Fld := ⟨Reg.AXC_CMO_CTRL n, 0, 4⟩
def Fl.AXC_CMO_CTRL_BUSY (n : Nat) : Fld := ⟨Reg.AXC_CMO_CTRL n, 4, 1⟩
def Fl.AXC_CMO_CTRL_ERR (n : Nat) : Fld := ⟨Reg.AXC_CMO_CTRL n, 5, 1⟩
def Fl.AXC_CMO_CTRL_LOCKED_HIT (n : Nat) : Fld := ⟨Reg.AXC_CMO_CTRL n, 6, 1⟩
def Fl.AXC_CMO_CTRL_LOCK_SHORT (n : Nat) : Fld := ⟨Reg.AXC_CMO_CTRL n, 7, 1⟩
def Reg.AXC_CMO_BASE (n : Nat) : Nat := 0x49000018 + 0x100000 * n
def Fl.AXC_CMO_BASE_ADDR (n : Nat) : Fld := ⟨Reg.AXC_CMO_BASE n, 6, 42⟩
def Reg.AXC_CMO_LEN (n : Nat) : Nat := 0x49000020 + 0x100000 * n
def Fl.AXC_CMO_LEN_BYTES (n : Nat) : Fld := ⟨Reg.AXC_CMO_LEN n, 0, 40⟩
def Reg.AXC_FAULT_ADDR (n : Nat) : Nat := 0x49000028 + 0x100000 * n
def Fl.AXC_FAULT_ADDR_VALID (n : Nat) : Fld := ⟨Reg.AXC_FAULT_ADDR n, 0, 1⟩
def Fl.AXC_FAULT_ADDR_TAG (n : Nat) : Fld := ⟨Reg.AXC_FAULT_ADDR n, 1, 1⟩
def Fl.AXC_FAULT_ADDR_ADDR (n : Nat) : Fld := ⟨Reg.AXC_FAULT_ADDR n, 6, 42⟩
def Reg.AXC_EVENT (n : Nat) : Nat := 0x49000030 + 0x100000 * n
def Fl.AXC_EVENT_PAR_CLEAN (n : Nat) : Fld := ⟨Reg.AXC_EVENT n, 0, 1⟩
def Fl.AXC_EVENT_PAR_DIRTY (n : Nat) : Fld := ⟨Reg.AXC_EVENT n, 1, 1⟩
def Fl.AXC_EVENT_FILL_ERR (n : Nat) : Fld := ⟨Reg.AXC_EVENT n, 2, 1⟩
def Fl.AXC_EVENT_LOCKED_HIT (n : Nat) : Fld := ⟨Reg.AXC_EVENT n, 3, 1⟩
def Fl.AXC_EVENT_CLUSTER_RESET (n : Nat) : Fld := ⟨Reg.AXC_EVENT n, 4, 1⟩
def Fl.AXC_EVENT_RETIRED (n : Nat) : Fld := ⟨Reg.AXC_EVENT n, 5, 1⟩
def Reg.AXC_EVENT_EN (n : Nat) : Nat := 0x49000034 + 0x100000 * n
def Reg.AXC_CNT_PAR_CLEAN (n : Nat) : Nat := 0x49000038 + 0x100000 * n
def Reg.AXC_CNT_PAR_DIRTY (n : Nat) : Nat := 0x4900003C + 0x100000 * n
def Reg.AXC_CNT_LOCKED_HIT (n : Nat) : Nat := 0x49000040 + 0x100000 * n
def Reg.AXC_CORE_STATUS (n : Nat) (i : Nat) : Nat := 0x49000100 + 0x100000 * n + 0x40 * i
def Fl.AXC_CORE_STATUS_STATE (n : Nat) (i : Nat) : Fld := ⟨Reg.AXC_CORE_STATUS n i, 0, 2⟩
def Fl.AXC_CORE_STATUS_RUNAHEAD (n : Nat) (i : Nat) : Fld := ⟨Reg.AXC_CORE_STATUS n i, 2, 1⟩
def Fl.AXC_CORE_STATUS_PRIV (n : Nat) (i : Nat) : Fld := ⟨Reg.AXC_CORE_STATUS n i, 3, 1⟩
def Reg.AXC_CNT_RA_EPISODES (n : Nat) (i : Nat) : Nat := 0x49000104 + 0x100000 * n + 0x40 * i
def Reg.AXC_CNT_CYCLES (n : Nat) (i : Nat) : Nat := 0x49000108 + 0x100000 * n + 0x40 * i
def Reg.AXC_CNT_INSTR (n : Nat) (i : Nat) : Nat := 0x49000110 + 0x100000 * n + 0x40 * i
def Reg.AXC_CNT_L2_MISS (n : Nat) (i : Nat) : Nat := 0x49000118 + 0x100000 * n + 0x40 * i
def Reg.AXC_CNT_RA_CYCLES (n : Nat) (i : Nat) : Nat := 0x49000120 + 0x100000 * n + 0x40 * i
def Reg.AXC_CNT_PRD_ISSUED (n : Nat) (i : Nat) : Nat := 0x49000128 + 0x100000 * n + 0x40 * i
def Reg.AXC_CNT_PRD_CLAIMED (n : Nat) (i : Nat) : Nat := 0x4900012C + 0x100000 * n + 0x40 * i
def Reg.AXC_CNT_PRD_EXPIRED (n : Nat) (i : Nat) : Nat := 0x49000130 + 0x100000 * n + 0x40 * i
def Reg.AXC_CNT_MISPRED (n : Nat) (i : Nat) : Nat := 0x49000134 + 0x100000 * n + 0x40 * i

def Reg.SCH_STATUS : Nat := 0x43000000
def Fl.SCH_STATUS_ORDERED : Fld := ⟨Reg.SCH_STATUS, 0, 1⟩
def Fl.SCH_STATUS_FROZEN : Fld := ⟨Reg.SCH_STATUS, 1, 1⟩
def Fl.SCH_STATUS_BRACE_HOLD : Fld := ⟨Reg.SCH_STATUS, 2, 1⟩
def Reg.SCH_CTRL : Nat := 0x43000004
def Fl.SCH_CTRL_ORDERED_MODE : Fld := ⟨Reg.SCH_CTRL, 0, 1⟩
def Reg.SCH_CFG : Nat := 0x43000008
def Fl.SCH_CFG_AGE_US : Fld := ⟨Reg.SCH_CFG, 0, 16⟩
def Fl.SCH_CFG_FW_RESERVE : Fld := ⟨Reg.SCH_CFG, 16, 5⟩
def Reg.SCH_TICK : Nat := 0x43000010
def Reg.SCH_LETTERS : Nat := 0x43000018
def Fl.SCH_LETTERS_IN_USE : Fld := ⟨Reg.SCH_LETTERS, 0, 21⟩
def Fl.SCH_LETTERS_HWM : Fld := ⟨Reg.SCH_LETTERS, 32, 21⟩
def Reg.SCH_ROUTES : Nat := 0x43000020
def Fl.SCH_ROUTES_IN_USE : Fld := ⟨Reg.SCH_ROUTES, 0, 19⟩
def Reg.SCH_COUNTERS : Nat := 0x43000024
def Fl.SCH_COUNTERS_IN_USE : Fld := ⟨Reg.SCH_COUNTERS, 0, 17⟩
def Reg.SCH_PRD_STATUS : Nat := 0x43000028
def Fl.SCH_PRD_STATUS_ENTRIES : Fld := ⟨Reg.SCH_PRD_STATUS, 0, 15⟩
def Fl.SCH_PRD_STATUS_PRD : Fld := ⟨Reg.SCH_PRD_STATUS, 16, 15⟩
def Reg.SCH_EVENT : Nat := 0x4300002C
def Fl.SCH_EVENT_LETTERS_FULL : Fld := ⟨Reg.SCH_EVENT, 0, 1⟩
def Fl.SCH_EVENT_ROUTES_FULL : Fld := ⟨Reg.SCH_EVENT, 1, 1⟩
def Fl.SCH_EVENT_COUNTERS_FULL : Fld := ⟨Reg.SCH_EVENT, 2, 1⟩
def Fl.SCH_EVENT_CTR_SAT : Fld := ⟨Reg.SCH_EVENT, 3, 1⟩
def Fl.SCH_EVENT_CTR_UNDER : Fld := ⟨Reg.SCH_EVENT, 4, 1⟩
def Fl.SCH_EVENT_DELAY_BURST : Fld := ⟨Reg.SCH_EVENT, 5, 1⟩
def Fl.SCH_EVENT_NO_TARGET : Fld := ⟨Reg.SCH_EVENT, 6, 1⟩
def Fl.SCH_EVENT_RESTORE_FAIL : Fld := ⟨Reg.SCH_EVENT, 7, 1⟩
def Reg.SCH_EVENT_EN : Nat := 0x43000030
def Reg.SCH_ROUTE_SEL : Nat := 0x43000034
def Fl.SCH_ROUTE_SEL_ROUTE : Fld := ⟨Reg.SCH_ROUTE_SEL, 0, 18⟩
def Fl.SCH_ROUTE_SEL_ANY : Fld := ⟨Reg.SCH_ROUTE_SEL, 31, 1⟩
def Reg.SCH_ROUTE_DATA : Nat := 0x43000038
def Fl.SCH_ROUTE_DATA_KIND : Fld := ⟨Reg.SCH_ROUTE_DATA, 0, 2⟩
def Fl.SCH_ROUTE_DATA_OWNER : Fld := ⟨Reg.SCH_ROUTE_DATA, 2, 8⟩
def Fl.SCH_ROUTE_DATA_EXEC : Fld := ⟨Reg.SCH_ROUTE_DATA, 16, 16⟩
def Fl.SCH_ROUTE_DATA_CLUSTERS : Fld := ⟨Reg.SCH_ROUTE_DATA, 32, 8⟩
def Fl.SCH_ROUTE_DATA_LOCKED : Fld := ⟨Reg.SCH_ROUTE_DATA, 40, 1⟩
def Reg.SCH_ROUTE_CMD : Nat := 0x43000040
def Fl.SCH_ROUTE_CMD_OP : Fld := ⟨Reg.SCH_ROUTE_CMD, 0, 3⟩
def Fl.SCH_ROUTE_CMD_BUSY : Fld := ⟨Reg.SCH_ROUTE_CMD, 3, 1⟩
def Fl.SCH_ROUTE_CMD_RESULT : Fld := ⟨Reg.SCH_ROUTE_CMD, 4, 4⟩
def Reg.SCH_WAKE_DUE : Nat := 0x43000048
def Fl.SCH_WAKE_DUE_DUE : Fld := ⟨Reg.SCH_WAKE_DUE, 0, 64⟩
def Reg.SCH_QDEPTH (i : Nat) : Nat := 0x43000100 + 0x8 * i
def Fl.SCH_QDEPTH_PRIO (i : Nat) (f : Nat) : Fld := ⟨Reg.SCH_QDEPTH i, 0 + 16 * f, 16⟩
def Reg.SCH_HIST (i : Nat) (j : Nat) : Nat := 0x43000400 + 0x40 * i + 0x4 * j
def Reg.SCH_PORT_TAKEN (i : Nat) : Nat := 0x43000800 + 0x10 * i
def Reg.SCH_PORT_BUSY (i : Nat) : Nat := 0x43000808 + 0x10 * i
def Reg.SCH_SUBMIT_D (i : Nat) (j : Nat) : Nat := 0x43010000 + 0x100 * i + 0x8 * j
def Reg.SCH_SUBMIT (i : Nat) : Nat := 0x43010020 + 0x100 * i
def Fl.SCH_SUBMIT_HANDLE (i : Nat) : Fld := ⟨Reg.SCH_SUBMIT i, 0, 32⟩
def Fl.SCH_SUBMIT_RESULT (i : Nat) : Fld := ⟨Reg.SCH_SUBMIT i, 32, 8⟩
def Reg.SCH_TAKE (i : Nat) : Nat := 0x43010028 + 0x100 * i
def Fl.SCH_TAKE_HANDLE (i : Nat) : Fld := ⟨Reg.SCH_TAKE i, 0, 32⟩
def Reg.SCH_TAKE_D (i : Nat) (j : Nat) : Nat := 0x43010030 + 0x100 * i + 0x8 * j
def Reg.SCH_DONE (i : Nat) : Nat := 0x43010050 + 0x100 * i
def Fl.SCH_DONE_STATUS (i : Nat) : Fld := ⟨Reg.SCH_DONE i, 0, 8⟩
def Reg.SCH_ARG (i : Nat) : Nat := 0x43010058 + 0x100 * i
def Fl.SCH_ARG_VALUE (i : Nat) : Fld := ⟨Reg.SCH_ARG i, 0, 32⟩
def Fl.SCH_ARG_OP (i : Nat) : Fld := ⟨Reg.SCH_ARG i, 32, 3⟩
def Reg.SCH_QUERY (i : Nat) : Nat := 0x43010060 + 0x100 * i
def Fl.SCH_QUERY_STATE (i : Nat) : Fld := ⟨Reg.SCH_QUERY i, 0, 3⟩
def Fl.SCH_QUERY_END_STATUS (i : Nat) : Fld := ⟨Reg.SCH_QUERY i, 8, 8⟩
def Reg.SCH_CANCEL (i : Nat) : Nat := 0x43010068 + 0x100 * i
def Fl.SCH_CANCEL_RESULT (i : Nat) : Fld := ⟨Reg.SCH_CANCEL i, 0, 2⟩
def Reg.SCH_CTR (i : Nat) : Nat := 0x43010070 + 0x100 * i
def Fl.SCH_CTR_VALUE (i : Nat) : Fld := ⟨Reg.SCH_CTR i, 0, 16⟩
def Fl.SCH_CTR_STATUS (i : Nat) : Fld := ⟨Reg.SCH_CTR i, 16, 8⟩
def Fl.SCH_CTR_SAT (i : Nat) : Fld := ⟨Reg.SCH_CTR i, 24, 1⟩
def Fl.SCH_CTR_UNDER (i : Nat) : Fld := ⟨Reg.SCH_CTR i, 25, 1⟩
def Reg.SCH_PORT_TICK (i : Nat) : Nat := 0x43010078 + 0x100 * i

def Reg.DMC_STATUS (n : Nat) : Nat := 0x47000000 + 0x100000 * n
def Fl.DMC_STATUS_STATE (n : Nat) : Fld := ⟨Reg.DMC_STATUS n, 0, 2⟩
def Fl.DMC_STATUS_HOT (n : Nat) : Fld := ⟨Reg.DMC_STATUS n, 2, 1⟩
def Fl.DMC_STATUS_URGENT (n : Nat) : Fld := ⟨Reg.DMC_STATUS n, 3, 8⟩
def Fl.DMC_STATUS_COPYING (n : Nat) : Fld := ⟨Reg.DMC_STATUS n, 11, 1⟩
def Reg.DMC_CTRL (n : Nat) : Nat := 0x47000004 + 0x100000 * n
def Fl.DMC_CTRL_HOLD (n : Nat) : Fld := ⟨Reg.DMC_CTRL n, 0, 1⟩
def Fl.DMC_CTRL_HELD (n : Nat) : Fld := ⟨Reg.DMC_CTRL n, 1, 1⟩
def Fl.DMC_CTRL_APPLY (n : Nat) : Fld := ⟨Reg.DMC_CTRL n, 2, 1⟩
def Fl.DMC_CTRL_RETIRE (n : Nat) : Fld := ⟨Reg.DMC_CTRL n, 3, 1⟩
def Fl.DMC_CTRL_KEY (n : Nat) : Fld := ⟨Reg.DMC_CTRL n, 8, 8⟩
def Reg.DMC_REF_CFG (n : Nat) : Nat := 0x47000008 + 0x100000 * n
def Fl.DMC_REF_CFG_POSTPONE_MAX (n : Nat) : Fld := ⟨Reg.DMC_REF_CFG n, 0, 4⟩
def Reg.DMC_REF_STATUS (n : Nat) : Nat := 0x4700000C + 0x100000 * n
def Fl.DMC_REF_STATUS_DEBT (n : Nat) : Fld := ⟨Reg.DMC_REF_STATUS n, 0, 4⟩
def Reg.DMC_DEV_FAILED (n : Nat) : Nat := 0x47000010 + 0x100000 * n
def Fl.DMC_DEV_FAILED_LANE (n : Nat) : Fld := ⟨Reg.DMC_DEV_FAILED n, 0, 20⟩
def Reg.DMC_EVENT (n : Nat) : Nat := 0x47000014 + 0x100000 * n
def Fl.DMC_EVENT_CE (n : Nat) : Fld := ⟨Reg.DMC_EVENT n, 0, 1⟩
def Fl.DMC_EVENT_UE (n : Nat) : Fld := ⟨Reg.DMC_EVENT n, 1, 1⟩
def Fl.DMC_EVENT_POISON_RD (n : Nat) : Fld := ⟨Reg.DMC_EVENT n, 2, 1⟩
def Fl.DMC_EVENT_STARVE (n : Nat) : Fld := ⟨Reg.DMC_EVENT n, 3, 1⟩
def Fl.DMC_EVENT_REF_FORCED (n : Nat) : Fld := ⟨Reg.DMC_EVENT n, 4, 1⟩
def Fl.DMC_EVENT_RECAL_FAIL (n : Nat) : Fld := ⟨Reg.DMC_EVENT n, 5, 1⟩
def Fl.DMC_EVENT_PAGE_RETIRED (n : Nat) : Fld := ⟨Reg.DMC_EVENT n, 6, 1⟩
def Fl.DMC_EVENT_REMAP_FULL (n : Nat) : Fld := ⟨Reg.DMC_EVENT n, 7, 1⟩
def Fl.DMC_EVENT_DEV_FAIL (n : Nat) : Fld := ⟨Reg.DMC_EVENT n, 8, 1⟩
def Fl.DMC_EVENT_CH_FAIL (n : Nat) : Fld := ⟨Reg.DMC_EVENT n, 9, 1⟩
def Reg.DMC_EVENT_EN (n : Nat) : Nat := 0x47000018 + 0x100000 * n
def Reg.DMC_REMAP_CMD (n : Nat) : Nat := 0x47000020 + 0x100000 * n
def Fl.DMC_REMAP_CMD_PAGE (n : Nat) : Fld := ⟨Reg.DMC_REMAP_CMD n, 0, 23⟩
def Fl.DMC_REMAP_CMD_GO (n : Nat) : Fld := ⟨Reg.DMC_REMAP_CMD n, 23, 1⟩
def Fl.DMC_REMAP_CMD_BUSY (n : Nat) : Fld := ⟨Reg.DMC_REMAP_CMD n, 24, 1⟩
def Fl.DMC_REMAP_CMD_RESULT (n : Nat) : Fld := ⟨Reg.DMC_REMAP_CMD n, 25, 3⟩
def Reg.DMC_REMAP_STATUS (n : Nat) : Nat := 0x47000024 + 0x100000 * n
def Fl.DMC_REMAP_STATUS_USED (n : Nat) : Fld := ⟨Reg.DMC_REMAP_STATUS n, 0, 10⟩
def Reg.DMC_LAT (n : Nat) (i : Nat) : Nat := 0x47000040 + 0x100000 * n + 0x4 * i
def Fl.DMC_LAT_TARGET (n : Nat) (i : Nat) : Fld := ⟨Reg.DMC_LAT n i, 0, 16⟩
def Reg.DMC_CNT_CE (n : Nat) : Nat := 0x47000080 + 0x100000 * n
def Reg.DMC_CNT_UE (n : Nat) : Nat := 0x47000084 + 0x100000 * n
def Reg.DMC_CNT_POISON_RD (n : Nat) : Nat := 0x47000088 + 0x100000 * n
def Reg.DMC_CNT_CE_FAILDEV (n : Nat) : Nat := 0x4700008C + 0x100000 * n
def Reg.DMC_CNT_REF_FORCED (n : Nat) : Nat := 0x47000090 + 0x100000 * n
def Reg.DMC_CNT_RECAL (n : Nat) : Nat := 0x47000094 + 0x100000 * n
def Reg.DMC_CNT_RECAL_FAIL (n : Nat) : Nat := 0x47000098 + 0x100000 * n
def Reg.DMC_CNT_RMW (n : Nat) : Nat := 0x470000A0 + 0x100000 * n
def Reg.DMC_CNT_URGENT (n : Nat) (i : Nat) : Nat := 0x470000C0 + 0x100000 * n + 0x4 * i
def Reg.DMC_DELAY (n : Nat) (i : Nat) : Nat := 0x47000100 + 0x100000 * n + 0x4 * i
def Fl.DMC_DELAY_WR_DLY (n : Nat) (i : Nat) : Fld := ⟨Reg.DMC_DELAY n i, 0, 8⟩
def Fl.DMC_DELAY_RD_DLY (n : Nat) (i : Nat) : Fld := ⟨Reg.DMC_DELAY n i, 8, 8⟩
def Fl.DMC_DELAY_RD_EN (n : Nat) (i : Nat) : Fld := ⟨Reg.DMC_DELAY n i, 16, 6⟩
def Fl.DMC_DELAY_VREF (n : Nat) (i : Nat) : Fld := ⟨Reg.DMC_DELAY n i, 22, 7⟩
def Reg.DMC_STAGE (n : Nat) (i : Nat) : Nat := 0x47000180 + 0x100000 * n + 0x4 * i
def Fl.DMC_STAGE_WR_DLY (n : Nat) (i : Nat) : Fld := ⟨Reg.DMC_STAGE n i, 0, 8⟩
def Fl.DMC_STAGE_RD_DLY (n : Nat) (i : Nat) : Fld := ⟨Reg.DMC_STAGE n i, 8, 8⟩
def Fl.DMC_STAGE_RD_EN (n : Nat) (i : Nat) : Fld := ⟨Reg.DMC_STAGE n i, 16, 6⟩
def Fl.DMC_STAGE_VREF (n : Nat) (i : Nat) : Fld := ⟨Reg.DMC_STAGE n i, 22, 7⟩
def Reg.DMC_DRIFT (n : Nat) (i : Nat) : Nat := 0x47000200 + 0x100000 * n + 0x4 * i
def Fl.DMC_DRIFT_RD (n : Nat) (i : Nat) : Fld := ⟨Reg.DMC_DRIFT n i, 0, 8⟩
def Fl.DMC_DRIFT_WR (n : Nat) (i : Nat) : Fld := ⟨Reg.DMC_DRIFT n i, 8, 8⟩
def Reg.DMC_REMAP (n : Nat) (i : Nat) : Nat := 0x47001000 + 0x100000 * n + 0x8 * i
def Fl.DMC_REMAP_VALID (n : Nat) (i : Nat) : Fld := ⟨Reg.DMC_REMAP n i, 0, 1⟩
def Fl.DMC_REMAP_PAGE (n : Nat) (i : Nat) : Fld := ⟨Reg.DMC_REMAP n i, 23, 23⟩

def Reg.MEM_STATUS : Nat := 0x48100000
def Fl.MEM_STATUS_CHANNELS : Fld := ⟨Reg.MEM_STATUS, 0, 4⟩
def Fl.MEM_STATUS_THREE_CH : Fld := ⟨Reg.MEM_STATUS, 4, 1⟩
def Fl.MEM_STATUS_SCRUB_BUSY : Fld := ⟨Reg.MEM_STATUS, 5, 1⟩
def Fl.MEM_STATUS_SCRUB_LATE : Fld := ⟨Reg.MEM_STATUS, 6, 1⟩
def Reg.MEM_SCRUB_CFG : Nat := 0x48100004
def Fl.MEM_SCRUB_CFG_DRAM_HOURS : Fld := ⟨Reg.MEM_SCRUB_CFG, 0, 8⟩
def Fl.MEM_SCRUB_CFG_SRAM_SEC : Fld := ⟨Reg.MEM_SCRUB_CFG, 8, 8⟩
def Reg.MEM_SCRUB_POS : Nat := 0x48100008
def Fl.MEM_SCRUB_POS_ADDR : Fld := ⟨Reg.MEM_SCRUB_POS, 0, 48⟩
def Reg.MEM_LOG_HEAD : Nat := 0x48100010
def Fl.MEM_LOG_HEAD_INDEX : Fld := ⟨Reg.MEM_LOG_HEAD, 0, 8⟩
def Fl.MEM_LOG_HEAD_FULL : Fld := ⟨Reg.MEM_LOG_HEAD, 8, 1⟩
def Reg.MEM_LOG_TAIL : Nat := 0x48100014
def Fl.MEM_LOG_TAIL_INDEX : Fld := ⟨Reg.MEM_LOG_TAIL, 0, 8⟩
def Reg.MEM_EVENT : Nat := 0x48100018
def Fl.MEM_EVENT_SRAM_CE : Fld := ⟨Reg.MEM_EVENT, 0, 1⟩
def Fl.MEM_EVENT_SRAM_UE : Fld := ⟨Reg.MEM_EVENT, 1, 1⟩
def Fl.MEM_EVENT_LOG_FULL : Fld := ⟨Reg.MEM_EVENT, 2, 1⟩
def Fl.MEM_EVENT_ROW_REPAIR : Fld := ⟨Reg.MEM_EVENT, 3, 1⟩
def Fl.MEM_EVENT_COL_REPAIR : Fld := ⟨Reg.MEM_EVENT, 4, 1⟩
def Fl.MEM_EVENT_NO_SPARE : Fld := ⟨Reg.MEM_EVENT, 5, 1⟩
def Fl.MEM_EVENT_SCRUB_LATE : Fld := ⟨Reg.MEM_EVENT, 6, 1⟩
def Reg.MEM_EVENT_EN : Nat := 0x4810001C
def Reg.MEM_CNT_SRAM_CE : Nat := 0x48100020
def Reg.MEM_CNT_SRAM_UE : Nat := 0x48100024
def Reg.MEM_CNT_LOG_LOST : Nat := 0x48100028
def Reg.MEM_CNT_SCRUB_PASS : Nat := 0x4810002C
def Reg.MEM_SRAM_REPAIR (i : Nat) : Nat := 0x48100200 + 0x4 * i
def Fl.MEM_SRAM_REPAIR_ROWS_FREE (i : Nat) : Fld := ⟨Reg.MEM_SRAM_REPAIR i, 0, 5⟩
def Fl.MEM_SRAM_REPAIR_COLS_FREE (i : Nat) : Fld := ⟨Reg.MEM_SRAM_REPAIR i, 5, 2⟩
def Reg.MEM_LOG0 (i : Nat) : Nat := 0x48101000 + 0x10 * i
def Fl.MEM_LOG0_ADDR (i : Nat) : Fld := ⟨Reg.MEM_LOG0 i, 0, 48⟩
def Fl.MEM_LOG0_SOURCE (i : Nat) : Fld := ⟨Reg.MEM_LOG0 i, 48, 4⟩
def Fl.MEM_LOG0_TYPE (i : Nat) : Fld := ⟨Reg.MEM_LOG0 i, 52, 4⟩
def Fl.MEM_LOG0_PORT (i : Nat) : Fld := ⟨Reg.MEM_LOG0 i, 56, 3⟩
def Fl.MEM_LOG0_LANE (i : Nat) : Fld := ⟨Reg.MEM_LOG0 i, 59, 5⟩
def Reg.MEM_LOG1 (i : Nat) : Nat := 0x48101008 + 0x10 * i
def Fl.MEM_LOG1_BIT (i : Nat) : Fld := ⟨Reg.MEM_LOG1 i, 0, 8⟩
def Fl.MEM_LOG1_SEQ (i : Nat) : Fld := ⟨Reg.MEM_LOG1 i, 8, 56⟩

def Reg.NET_STATUS (n : Nat) : Nat := 0x42000000 + 0x100000 * n
def Fl.NET_STATUS_STATE (n : Nat) : Fld := ⟨Reg.NET_STATUS n, 0, 2⟩
def Fl.NET_STATUS_SPEED (n : Nat) : Fld := ⟨Reg.NET_STATUS n, 2, 3⟩
def Fl.NET_STATUS_FEC_ON (n : Nat) : Fld := ⟨Reg.NET_STATUS n, 5, 1⟩
def Fl.NET_STATUS_HOLDS_OTHER (n : Nat) : Fld := ⟨Reg.NET_STATUS n, 6, 1⟩
def Reg.NET_CTRL (n : Nat) : Nat := 0x42000004 + 0x100000 * n
def Fl.NET_CTRL_RETRAIN (n : Nat) : Fld := ⟨Reg.NET_CTRL n, 0, 1⟩
def Fl.NET_CTRL_RETIRE (n : Nat) : Fld := ⟨Reg.NET_CTRL n, 1, 1⟩
def Fl.NET_CTRL_KEY (n : Nat) : Fld := ⟨Reg.NET_CTRL n, 8, 8⟩
def Reg.NET_LINK_CFG (n : Nat) : Nat := 0x42000008 + 0x100000 * n
def Fl.NET_LINK_CFG_ENABLE (n : Nat) : Fld := ⟨Reg.NET_LINK_CFG n, 0, 1⟩
def Fl.NET_LINK_CFG_SPEED (n : Nat) : Fld := ⟨Reg.NET_LINK_CFG n, 1, 3⟩
def Fl.NET_LINK_CFG_PFC_EN (n : Nat) : Fld := ⟨Reg.NET_LINK_CFG n, 4, 1⟩
def Fl.NET_LINK_CFG_PFC_MASK (n : Nat) : Fld := ⟨Reg.NET_LINK_CFG n, 5, 8⟩
def Fl.NET_LINK_CFG_ROCE_PRIO (n : Nat) : Fld := ⟨Reg.NET_LINK_CFG n, 13, 3⟩
def Fl.NET_LINK_CFG_FAILOVER (n : Nat) : Fld := ⟨Reg.NET_LINK_CFG n, 16, 1⟩
def Fl.NET_LINK_CFG_TCP_EN (n : Nat) : Fld := ⟨Reg.NET_LINK_CFG n, 17, 1⟩
def Fl.NET_LINK_CFG_ROCE_EN (n : Nat) : Fld := ⟨Reg.NET_LINK_CFG n, 18, 1⟩
def Reg.NET_MOD_STATUS (n : Nat) : Nat := 0x4200000C + 0x100000 * n
def Fl.NET_MOD_STATUS_PRESENT (n : Nat) : Fld := ⟨Reg.NET_MOD_STATUS n, 0, 1⟩
def Fl.NET_MOD_STATUS_LOWPOWER_HELD (n : Nat) : Fld := ⟨Reg.NET_MOD_STATUS n, 1, 1⟩
def Fl.NET_MOD_STATUS_POWER (n : Nat) : Fld := ⟨Reg.NET_MOD_STATUS n, 8, 8⟩
def Fl.NET_MOD_STATUS_TEMP (n : Nat) : Fld := ⟨Reg.NET_MOD_STATUS n, 16, 8⟩
def Reg.NET_EVENT (n : Nat) : Nat := 0x42000010 + 0x100000 * n
def Fl.NET_EVENT_LINK_UP (n : Nat) : Fld := ⟨Reg.NET_EVENT n, 0, 1⟩
def Fl.NET_EVENT_LINK_DOWN (n : Nat) : Fld := ⟨Reg.NET_EVENT n, 1, 1⟩
def Fl.NET_EVENT_MOD_INSERT (n : Nat) : Fld := ⟨Reg.NET_EVENT n, 2, 1⟩
def Fl.NET_EVENT_MOD_REMOVE (n : Nat) : Fld := ⟨Reg.NET_EVENT n, 3, 1⟩
def Fl.NET_EVENT_MOD_POWER (n : Nat) : Fld := ⟨Reg.NET_EVENT n, 4, 1⟩
def Fl.NET_EVENT_CAL_FAIL (n : Nat) : Fld := ⟨Reg.NET_EVENT n, 5, 1⟩
def Fl.NET_EVENT_MEM_UE (n : Nat) : Fld := ⟨Reg.NET_EVENT n, 6, 1⟩
def Fl.NET_EVENT_RETIRED (n : Nat) : Fld := ⟨Reg.NET_EVENT n, 7, 1⟩
def Fl.NET_EVENT_FAILOVER (n : Nat) : Fld := ⟨Reg.NET_EVENT n, 8, 1⟩
def Fl.NET_EVENT_TLS_FAIL (n : Nat) : Fld := ⟨Reg.NET_EVENT n, 9, 1⟩
def Fl.NET_EVENT_CONNECT_REFUSED (n : Nat) : Fld := ⟨Reg.NET_EVENT n, 10, 1⟩
def Reg.NET_EVENT_EN (n : Nat) : Nat := 0x42000014 + 0x100000 * n
def Reg.NET_CONN (n : Nat) : Nat := 0x42000018 + 0x100000 * n
def Fl.NET_CONN_TCP (n : Nat) : Fld := ⟨Reg.NET_CONN n, 0, 12⟩
def Fl.NET_CONN_QP (n : Nat) : Fld := ⟨Reg.NET_CONN n, 12, 12⟩
def Reg.NET_CNT_RX_BYTES (n : Nat) : Nat := 0x42000020 + 0x100000 * n
def Reg.NET_CNT_TX_BYTES (n : Nat) : Nat := 0x42000028 + 0x100000 * n
def Reg.NET_CNT_FEC_CORR (n : Nat) : Nat := 0x42000030 + 0x100000 * n
def Reg.NET_CNT_FEC_UNCORR (n : Nat) : Nat := 0x42000038 + 0x100000 * n
def Reg.NET_CNT_PFC_TX (n : Nat) : Nat := 0x4200003C + 0x100000 * n
def Reg.NET_CNT_CNP_RX (n : Nat) : Nat := 0x42000040 + 0x100000 * n
def Reg.NET_CNT_CNP_TX (n : Nat) : Nat := 0x42000044 + 0x100000 * n
def Reg.NET_CNT_TLS_FAIL (n : Nat) : Nat := 0x42000048 + 0x100000 * n
def Reg.NET_CNT_CONNECT_REF (n : Nat) : Nat := 0x4200004C + 0x100000 * n

def Reg.LBX_H2M_TAIL (n : Nat) : Nat := 0x40100000 + 0x1000 * n
def Fl.LBX_H2M_TAIL_INDEX (n : Nat) : Fld := ⟨Reg.LBX_H2M_TAIL n, 0, 8⟩
def Reg.LBX_H2M_HEAD (n : Nat) : Nat := 0x40100004 + 0x1000 * n
def Fl.LBX_H2M_HEAD_INDEX (n : Nat) : Fld := ⟨Reg.LBX_H2M_HEAD n, 0, 8⟩
def Reg.LBX_M2H_TAIL (n : Nat) : Nat := 0x40100008 + 0x1000 * n
def Fl.LBX_M2H_TAIL_INDEX (n : Nat) : Fld := ⟨Reg.LBX_M2H_TAIL n, 0, 8⟩
def Reg.LBX_M2H_HEAD (n : Nat) : Nat := 0x4010000C + 0x1000 * n
def Fl.LBX_M2H_HEAD_INDEX (n : Nat) : Fld := ⟨Reg.LBX_M2H_HEAD n, 0, 8⟩
def Reg.LBX_STATUS (n : Nat) : Nat := 0x40100010 + 0x1000 * n
def Fl.LBX_STATUS_MANAGER (n : Nat) : Fld := ⟨Reg.LBX_STATUS n, 0, 1⟩
def Fl.LBX_STATUS_ONLINE (n : Nat) : Fld := ⟨Reg.LBX_STATUS n, 1, 1⟩
def Fl.LBX_STATUS_HELD (n : Nat) : Fld := ⟨Reg.LBX_STATUS n, 2, 1⟩
def Fl.LBX_STATUS_PAUSED (n : Nat) : Fld := ⟨Reg.LBX_STATUS n, 3, 1⟩
def Reg.LBX_VECTOR (n : Nat) : Nat := 0x40100014 + 0x1000 * n
def Fl.LBX_VECTOR_EN (n : Nat) : Fld := ⟨Reg.LBX_VECTOR n, 0, 1⟩
def Fl.LBX_VECTOR_NUM (n : Nat) : Fld := ⟨Reg.LBX_VECTOR n, 1, 7⟩
def Reg.LBX_H2M_SLOT (n : Nat) (i : Nat) (j : Nat) : Nat := 0x40100400 + 0x1000 * n + 0x100 * i + 0x4 * j
def Reg.LBX_M2H_SLOT (n : Nat) (i : Nat) (j : Nat) : Nat := 0x40100800 + 0x1000 * n + 0x100 * i + 0x4 * j

def Reg.CFL_STATUS : Nat := 0x48000000
def Fl.CFL_STATUS_BUSY : Fld := ⟨Reg.CFL_STATUS, 0, 1⟩
def Fl.CFL_STATUS_SUSPENDED : Fld := ⟨Reg.CFL_STATUS, 1, 1⟩
def Fl.CFL_STATUS_SEAL : Fld := ⟨Reg.CFL_STATUS, 2, 1⟩
def Fl.CFL_STATUS_BANK : Fld := ⟨Reg.CFL_STATUS, 3, 3⟩
def Fl.CFL_STATUS_SUSP_COUNT : Fld := ⟨Reg.CFL_STATUS, 6, 6⟩
def Reg.CFL_CMD : Nat := 0x48000004
def Fl.CFL_CMD_OP : Fld := ⟨Reg.CFL_CMD, 0, 3⟩
def Fl.CFL_CMD_RESULT : Fld := ⟨Reg.CFL_CMD, 4, 3⟩
def Fl.CFL_CMD_KEY : Fld := ⟨Reg.CFL_CMD, 8, 8⟩
def Reg.CFL_ADDR : Nat := 0x48000008
def Fl.CFL_ADDR_WORD : Fld := ⟨Reg.CFL_ADDR, 3, 25⟩
def Reg.CFL_DATA : Nat := 0x48000010
def Fl.CFL_DATA_WORD : Fld := ⟨Reg.CFL_DATA, 0, 64⟩
def Reg.CFL_SUSP_CFG : Nat := 0x48000018
def Fl.CFL_SUSP_CFG_MIN_RUN : Fld := ⟨Reg.CFL_SUSP_CFG, 0, 8⟩
def Fl.CFL_SUSP_CFG_MAX : Fld := ⟨Reg.CFL_SUSP_CFG, 8, 6⟩
def Reg.CFL_EVENT : Nat := 0x4800001C
def Fl.CFL_EVENT_CE : Fld := ⟨Reg.CFL_EVENT, 0, 1⟩
def Fl.CFL_EVENT_UE : Fld := ⟨Reg.CFL_EVENT, 1, 1⟩
def Fl.CFL_EVENT_ERASE_FAIL : Fld := ⟨Reg.CFL_EVENT, 2, 1⟩
def Fl.CFL_EVENT_PROG_FAIL : Fld := ⟨Reg.CFL_EVENT, 3, 1⟩
def Fl.CFL_EVENT_RETIRED : Fld := ⟨Reg.CFL_EVENT, 4, 1⟩
def Fl.CFL_EVENT_SPARES_LOW : Fld := ⟨Reg.CFL_EVENT, 5, 1⟩
def Fl.CFL_EVENT_SUSP_LIMIT : Fld := ⟨Reg.CFL_EVENT, 6, 1⟩
def Reg.CFL_EVENT_EN : Nat := 0x48000020
def Reg.CFL_CNT_CE : Nat := 0x48000024
def Reg.CFL_CNT_UE : Nat := 0x48000028
def Reg.CFL_CNT_ERASE : Nat := 0x4800002C
def Reg.CFL_SPARES : Nat := 0x48000030
def Fl.CFL_SPARES_FREE : Fld := ⟨Reg.CFL_SPARES, 0, 13⟩

def Reg.MGT_SENSOR (i : Nat) : Nat := 0x48008000 + 0x4 * i
def Fl.MGT_SENSOR_TEMP (i : Nat) : Fld := ⟨Reg.MGT_SENSOR i, 0, 16⟩
def Fl.MGT_SENSOR_MAX (i : Nat) : Fld := ⟨Reg.MGT_SENSOR i, 16, 8⟩
def Reg.MGT_THERM : Nat := 0x48008040
def Fl.MGT_THERM_LEVEL : Fld := ⟨Reg.MGT_THERM, 0, 2⟩
def Fl.MGT_THERM_BY_BASE : Fld := ⟨Reg.MGT_THERM, 2, 1⟩
def Fl.MGT_THERM_BY_JUNCTION : Fld := ⟨Reg.MGT_THERM, 3, 1⟩
def Reg.MGT_CAP : Nat := 0x48008044
def Fl.MGT_CAP_WATTS : Fld := ⟨Reg.MGT_CAP, 0, 8⟩
def Fl.MGT_CAP_SOURCE : Fld := ⟨Reg.MGT_CAP, 8, 3⟩
def Reg.MGT_MGMT_CAP : Nat := 0x48008048
def Fl.MGT_MGMT_CAP_WATTS : Fld := ⟨Reg.MGT_MGMT_CAP, 0, 8⟩
def Reg.MGT_I3C : Nat := 0x48008050
def Fl.MGT_I3C_DA : Fld := ⟨Reg.MGT_I3C, 0, 7⟩
def Fl.MGT_I3C_DA_VALID : Fld := ⟨Reg.MGT_I3C, 7, 1⟩
def Fl.MGT_I3C_EID : Fld := ⟨Reg.MGT_I3C, 8, 8⟩
def Fl.MGT_I3C_HJ_EN : Fld := ⟨Reg.MGT_I3C, 16, 1⟩
def Fl.MGT_I3C_IBI_EN : Fld := ⟨Reg.MGT_I3C, 17, 1⟩
def Reg.MGT_CNT_IBI : Nat := 0x48008054
def Reg.MGT_CNT_IBI_DEFER : Nat := 0x48008058
def Reg.MGT_UPD : Nat := 0x48008060
def Fl.MGT_UPD_STATE : Fld := ⟨Reg.MGT_UPD, 0, 2⟩
def Fl.MGT_UPD_COMPONENT : Fld := ⟨Reg.MGT_UPD, 2, 3⟩
def Fl.MGT_UPD_SOURCE : Fld := ⟨Reg.MGT_UPD, 5, 1⟩

def Reg.PBK_STATUS : Nat := 0x40040000
def Fl.PBK_STATUS_PENDING : Fld := ⟨Reg.PBK_STATUS, 0, 4⟩
def Fl.PBK_STATUS_DRAINING : Fld := ⟨Reg.PBK_STATUS, 4, 1⟩
def Fl.PBK_STATUS_SEALED : Fld := ⟨Reg.PBK_STATUS, 5, 1⟩
def Fl.PBK_STATUS_SEAL_SEGS : Fld := ⟨Reg.PBK_STATUS, 6, 2⟩
def Reg.PBK_CFG : Nat := 0x40040004
def Fl.PBK_CFG_COAL2 : Fld := ⟨Reg.PBK_CFG, 0, 8⟩
def Fl.PBK_CFG_COAL3 : Fld := ⟨Reg.PBK_CFG, 8, 8⟩
def Fl.PBK_CFG_DRAIN : Fld := ⟨Reg.PBK_CFG, 16, 4⟩
def Reg.PBK_EVENT : Nat := 0x40040008
def Fl.PBK_EVENT_DROP : Fld := ⟨Reg.PBK_EVENT, 0, 1⟩
def Fl.PBK_EVENT_DAMAGED : Fld := ⟨Reg.PBK_EVENT, 1, 1⟩
def Fl.PBK_EVENT_NO_SEAL_SEG : Fld := ⟨Reg.PBK_EVENT, 2, 1⟩
def Fl.PBK_EVENT_LANE0 : Fld := ⟨Reg.PBK_EVENT, 3, 1⟩
def Reg.PBK_EVENT_EN : Nat := 0x4004000C
def Reg.PBK_NEXT_SEQ : Nat := 0x40040010
def Fl.PBK_NEXT_SEQ_SEQ : Fld := ⟨Reg.PBK_NEXT_SEQ, 0, 56⟩
def Reg.PBK_OLDEST_SEQ : Nat := 0x40040018
def Fl.PBK_OLDEST_SEQ_SEQ : Fld := ⟨Reg.PBK_OLDEST_SEQ, 0, 56⟩
def Reg.PBK_PERSIST_SEQ : Nat := 0x40040020
def Fl.PBK_PERSIST_SEQ_SEQ : Fld := ⟨Reg.PBK_PERSIST_SEQ, 0, 56⟩
def Reg.PBK_DROP2 : Nat := 0x40040028
def Reg.PBK_DROP3 : Nat := 0x4004002C
def Reg.PBK_CURSOR (i : Nat) : Nat := 0x40040040 + 0x10 * i
def Fl.PBK_CURSOR_SEQ (i : Nat) : Fld := ⟨Reg.PBK_CURSOR i, 0, 56⟩
def Reg.PBK_WIN_STATUS (i : Nat) : Nat := 0x40040048 + 0x10 * i
def Fl.PBK_WIN_STATUS_FIRST (i : Nat) : Fld := ⟨Reg.PBK_WIN_STATUS i, 0, 56⟩
def Fl.PBK_WIN_STATUS_COUNT (i : Nat) : Fld := ⟨Reg.PBK_WIN_STATUS i, 56, 5⟩
def Fl.PBK_WIN_STATUS_LOST (i : Nat) : Fld := ⟨Reg.PBK_WIN_STATUS i, 61, 1⟩
def Reg.PBK_SUBMIT_HEAD (i : Nat) : Nat := 0x40040100 + 0x40 * i
def Fl.PBK_SUBMIT_HEAD_CODE (i : Nat) : Fld := ⟨Reg.PBK_SUBMIT_HEAD i, 0, 16⟩
def Fl.PBK_SUBMIT_HEAD_SOURCE (i : Nat) : Fld := ⟨Reg.PBK_SUBMIT_HEAD i, 16, 16⟩
def Reg.PBK_SUBMIT_GO (i : Nat) : Nat := 0x40040104 + 0x40 * i
def Fl.PBK_SUBMIT_GO_LANE (i : Nat) : Fld := ⟨Reg.PBK_SUBMIT_GO i, 0, 2⟩
def Fl.PBK_SUBMIT_GO_GO (i : Nat) : Fld := ⟨Reg.PBK_SUBMIT_GO i, 31, 1⟩
def Reg.PBK_SUBMIT_ARG (i : Nat) (j : Nat) : Nat := 0x40040108 + 0x40 * i + 0x4 * j
def Reg.PBK_WINDOW (i : Nat) (j : Nat) : Nat := 0x40041000 + 0x400 * i + 0x4 * j

def Reg.DBG_LINK_STATUS : Nat := 0x4F000000
def Fl.DBG_LINK_STATUS_FAULT : Fld := ⟨Reg.DBG_LINK_STATUS, 0, 1⟩
def Fl.DBG_LINK_STATUS_CRC_ERR : Fld := ⟨Reg.DBG_LINK_STATUS, 1, 1⟩
def Fl.DBG_LINK_STATUS_PENDING : Fld := ⟨Reg.DBG_LINK_STATUS, 2, 1⟩
def Reg.DBG_CTRL : Nat := 0x4F000004
def Fl.DBG_CTRL_DRESET : Fld := ⟨Reg.DBG_CTRL, 0, 1⟩
def Fl.DBG_CTRL_KEY : Fld := ⟨Reg.DBG_CTRL, 8, 8⟩
def Reg.DBG_HALTED_LO : Nat := 0x4F000010
def Fl.DBG_HALTED_LO_CORES : Fld := ⟨Reg.DBG_HALTED_LO, 0, 32⟩
def Reg.DBG_HALTED_MID : Nat := 0x4F000014
def Fl.DBG_HALTED_MID_CORES : Fld := ⟨Reg.DBG_HALTED_MID, 0, 32⟩
def Reg.DBG_HALTED_HI : Nat := 0x4F000018
def Fl.DBG_HALTED_HI_CORES : Fld := ⟨Reg.DBG_HALTED_HI, 0, 13⟩
def Reg.DBG_CORE_CTRL (i : Nat) : Nat := 0x4F001000 + 0x100 * i
def Fl.DBG_CORE_CTRL_HALT (i : Nat) : Fld := ⟨Reg.DBG_CORE_CTRL i, 0, 1⟩
def Fl.DBG_CORE_CTRL_RESUME (i : Nat) : Fld := ⟨Reg.DBG_CORE_CTRL i, 1, 1⟩
def Fl.DBG_CORE_CTRL_STEP (i : Nat) : Fld := ⟨Reg.DBG_CORE_CTRL i, 2, 1⟩
def Fl.DBG_CORE_CTRL_STEP_NOINT (i : Nat) : Fld := ⟨Reg.DBG_CORE_CTRL i, 3, 1⟩
def Fl.DBG_CORE_CTRL_DBGTRAP_HALT (i : Nat) : Fld := ⟨Reg.DBG_CORE_CTRL i, 4, 1⟩
def Reg.DBG_CORE_DSTATUS (i : Nat) : Nat := 0x4F001004 + 0x100 * i
def Fl.DBG_CORE_DSTATUS_HALTED (i : Nat) : Fld := ⟨Reg.DBG_CORE_DSTATUS i, 0, 1⟩
def Fl.DBG_CORE_DSTATUS_CAUSE (i : Nat) : Fld := ⟨Reg.DBG_CORE_DSTATUS i, 1, 3⟩
def Fl.DBG_CORE_DSTATUS_INDEX (i : Nat) : Fld := ⟨Reg.DBG_CORE_DSTATUS i, 4, 3⟩
def Fl.DBG_CORE_DSTATUS_LETTER (i : Nat) : Fld := ⟨Reg.DBG_CORE_DSTATUS i, 7, 1⟩
def Reg.DBG_PC (i : Nat) : Nat := 0x4F001008 + 0x100 * i
def Fl.DBG_PC_ADDR (i : Nat) : Fld := ⟨Reg.DBG_PC i, 0, 64⟩
def Reg.DBG_REG_SEL (i : Nat) : Nat := 0x4F001010 + 0x100 * i
def Fl.DBG_REG_SEL_NUM (i : Nat) : Fld := ⟨Reg.DBG_REG_SEL i, 0, 5⟩
def Fl.DBG_REG_SEL_QUARTER (i : Nat) : Fld := ⟨Reg.DBG_REG_SEL i, 5, 2⟩
def Fl.DBG_REG_SEL_GROUP (i : Nat) : Fld := ⟨Reg.DBG_REG_SEL i, 7, 2⟩
def Fl.DBG_REG_SEL_SYSNUM (i : Nat) : Fld := ⟨Reg.DBG_REG_SEL i, 16, 10⟩
def Reg.DBG_REG_DATA (i : Nat) : Nat := 0x4F001018 + 0x100 * i
def Fl.DBG_REG_DATA_DATA (i : Nat) : Fld := ⟨Reg.DBG_REG_DATA i, 0, 64⟩
def Reg.DBG_BP (i : Nat) (j : Nat) : Nat := 0x4F001020 + 0x100 * i + 0x8 * j
def Fl.DBG_BP_EN (i : Nat) (j : Nat) : Fld := ⟨Reg.DBG_BP i j, 0, 1⟩
def Fl.DBG_BP_ADDR (i : Nat) (j : Nat) : Fld := ⟨Reg.DBG_BP i j, 2, 62⟩
def Reg.DBG_WP_ADDR (i : Nat) (j : Nat) : Nat := 0x4F001060 + 0x100 * i + 0x8 * j
def Fl.DBG_WP_ADDR_ADDR (i : Nat) (j : Nat) : Fld := ⟨Reg.DBG_WP_ADDR i j, 0, 64⟩
def Reg.DBG_WP_CFG (i : Nat) (j : Nat) : Nat := 0x4F001080 + 0x100 * i + 0x4 * j
def Fl.DBG_WP_CFG_EN (i : Nat) (j : Nat) : Fld := ⟨Reg.DBG_WP_CFG i j, 0, 1⟩
def Fl.DBG_WP_CFG_LOAD (i : Nat) (j : Nat) : Fld := ⟨Reg.DBG_WP_CFG i j, 1, 1⟩
def Fl.DBG_WP_CFG_STORE (i : Nat) (j : Nat) : Fld := ⟨Reg.DBG_WP_CFG i j, 2, 1⟩
def Fl.DBG_WP_CFG_SIZE (i : Nat) (j : Nat) : Fld := ⟨Reg.DBG_WP_CFG i j, 3, 5⟩

/-- The PWR register map (offsets within one block). -/
def regRowsPWR : List RegRow := [
  ⟨0x0, [], 4, .live, [⟨0, 1, .ro, 0, []⟩, ⟨1, 1, .ro, 0, []⟩, ⟨2, 1, .ro, 0, []⟩, ⟨3, 1, .ro, 0, []⟩, ⟨4, 1, .ro, 0, []⟩, ⟨5, 1, .ro, 0, []⟩, ⟨6, 2, .ro, 0, []⟩]⟩,
  ⟨0x4, [], 4, .p, [⟨0, 1, .rwp, 0, []⟩, ⟨1, 1, .rwp, 1, []⟩, ⟨2, 1, .rwp, 1, []⟩, ⟨4, 4, .rwp, 1, []⟩]⟩,
  ⟨0x8, [], 4, .p, [⟨0, 1, .rwp, 1, []⟩, ⟨4, 4, .rwp, 1, [(1, 10)]⟩]⟩,
  ⟨0xC, [], 4, .live, [⟨0, 16, .ro, 0, []⟩, ⟨16, 16, .ro, 0, []⟩]⟩,
  ⟨0x10, [], 4, .live, [⟨0, 16, .ro, 0, []⟩, ⟨16, 16, .ro, 0, []⟩]⟩,
  ⟨0x14, [], 4, .live, [⟨0, 16, .ro, 0, []⟩, ⟨16, 16, .ro, 0, []⟩]⟩,
  ⟨0x18, [], 4, .p, [⟨0, 12, .ro, 800, []⟩, ⟨12, 12, .ro, 500, []⟩, ⟨24, 8, .ro, 20, []⟩]⟩,
  ⟨0x1C, [], 4, .m, [⟨0, 1, .w1s, 0, []⟩, ⟨1, 1, .ro, 0, []⟩, ⟨8, 8, .rw, 24, [(1, 255)]⟩]⟩,
  ⟨0x20, [], 4, .k, [⟨0, 2, .ro, 0, []⟩, ⟨2, 1, .ro, 0, []⟩, ⟨3, 1, .ro, 0, []⟩, ⟨4, 1, .ro, 0, []⟩]⟩,
  ⟨0x24, [], 4, .p, [⟨0, 12, .ro, 0, []⟩, ⟨12, 12, .ro, 0, []⟩, ⟨24, 1, .ro, 0, []⟩, ⟨25, 4, .ro, 0, []⟩]⟩,
  ⟨0x28, [], 4, .k, [⟨0, 1, .w1c, 0, []⟩, ⟨1, 1, .w1c, 0, []⟩, ⟨2, 1, .w1c, 0, []⟩, ⟨3, 1, .w1c, 0, []⟩, ⟨4, 1, .w1c, 0, []⟩, ⟨5, 1, .w1c, 0, []⟩, ⟨6, 1, .w1c, 0, []⟩, ⟨7, 1, .w1c, 0, []⟩, ⟨8, 1, .w1c, 0, []⟩]⟩,
  ⟨0x2C, [], 4, .m, [⟨0, 1, .rw, 0, []⟩, ⟨1, 1, .rw, 0, []⟩, ⟨2, 1, .rw, 0, []⟩, ⟨3, 1, .rw, 0, []⟩, ⟨4, 1, .rw, 0, []⟩, ⟨5, 1, .rw, 0, []⟩, ⟨6, 1, .rw, 0, []⟩, ⟨7, 1, .rw, 0, []⟩, ⟨8, 1, .rw, 0, []⟩]⟩]

/-- The AON register map (offsets within one block). -/
def regRowsAON : List RegRow := [
  ⟨0x0, [], 4, .live, [⟨0, 4, .ro, 0, []⟩, ⟨4, 4, .ro, 0, []⟩, ⟨8, 4, .ro, 0, []⟩, ⟨12, 1, .ro, 0, []⟩, ⟨16, 3, .ro, 0, []⟩]⟩,
  ⟨0x4, [], 4, .k, [⟨0, 1, .w1c, 1, []⟩, ⟨1, 1, .w1c, 0, []⟩, ⟨2, 1, .w1c, 0, []⟩, ⟨3, 1, .w1c, 0, []⟩, ⟨4, 1, .w1c, 0, []⟩, ⟨5, 1, .w1c, 0, []⟩, ⟨6, 1, .w1c, 0, []⟩, ⟨7, 1, .w1c, 0, []⟩, ⟨8, 1, .w1c, 0, []⟩, ⟨9, 1, .w1c, 0, []⟩, ⟨10, 1, .w1c, 0, []⟩]⟩,
  ⟨0x8, [], 4, .p, [⟨0, 1, .rwp, 1, []⟩, ⟨1, 1, .rwp, 1, []⟩, ⟨2, 1, .rwp, 1, []⟩]⟩,
  ⟨0xC, [], 4, .k, [⟨0, 1, .w1c, 0, []⟩, ⟨1, 1, .w1c, 0, []⟩, ⟨2, 1, .w1c, 0, []⟩, ⟨3, 1, .w1c, 0, []⟩, ⟨4, 1, .w1c, 0, []⟩, ⟨5, 1, .w1c, 0, []⟩, ⟨6, 1, .w1c, 0, []⟩, ⟨7, 1, .w1c, 0, []⟩, ⟨8, 1, .w1c, 0, []⟩, ⟨9, 1, .w1c, 0, []⟩, ⟨10, 1, .w1c, 0, []⟩]⟩,
  ⟨0x10, [], 4, .m, [⟨0, 32, .rw, 0, []⟩]⟩,
  ⟨0x14, [], 4, .p, [⟨0, 32, .ro, 0, []⟩]⟩,
  ⟨0x18, [], 4, .live, [⟨0, 32, .ro, 0, []⟩]⟩,
  ⟨0x1C, [], 4, .live, [⟨0, 8, .ro, 0, []⟩]⟩,
  ⟨0x20, [], 4, .p, [⟨0, 32, .ro, 0, []⟩]⟩,
  ⟨0x24, [], 4, .p, [⟨0, 8, .ro, 0, []⟩]⟩,
  ⟨0x28, [], 4, .k, [⟨0, 12, .ro, 0, []⟩, ⟨12, 9, .ro, 0, []⟩, ⟨21, 9, .ro, 0, []⟩, ⟨30, 1, .ro, 0, []⟩, ⟨31, 1, .ro, 0, []⟩]⟩,
  ⟨0x2C, [], 4, .m, [⟨0, 1, .wo, 0, []⟩, ⟨1, 1, .wo, 0, []⟩, ⟨2, 1, .wo, 0, []⟩, ⟨3, 1, .wo, 0, []⟩, ⟨8, 8, .wo, 0, []⟩]⟩,
  ⟨0x30, [], 4, .m, [⟨0, 32, .ro, 0, []⟩]⟩]

/-- The CLK register map (offsets within one block). -/
def regRowsCLK : List RegRow := [
  ⟨0x0, [], 4, .live, [⟨0, 1, .ro, 0, []⟩, ⟨1, 1, .ro, 0, []⟩, ⟨2, 1, .ro, 0, []⟩, ⟨3, 5, .ro, 0, []⟩, ⟨8, 1, .ro, 0, []⟩, ⟨9, 1, .ro, 0, []⟩]⟩,
  ⟨0x4, [], 4, .p, [⟨0, 1, .rwp, 0, []⟩]⟩,
  ⟨0x10, [(5, 0x4)], 4, .m, [⟨0, 1, .rw, 0, []⟩, ⟨1, 1, .ro, 0, []⟩, ⟨8, 8, .ro, 0, []⟩, ⟨16, 4, .ro, 0, []⟩]⟩,
  ⟨0x24, [], 4, .k, [⟨0, 5, .w1c, 0, []⟩]⟩,
  ⟨0x28, [], 4, .k, [⟨0, 3, .ro, 0, []⟩, ⟨3, 3, .ro, 0, []⟩, ⟨6, 3, .ro, 0, []⟩, ⟨9, 3, .ro, 0, []⟩, ⟨12, 3, .ro, 0, []⟩]⟩]

/-- The CTC register map (offsets within one block). -/
def regRowsCTC : List RegRow := [
  ⟨0x0, [], 4, .live, [⟨0, 2, .ro, 0, []⟩, ⟨2, 2, .ro, 0, []⟩, ⟨4, 2, .ro, 0, []⟩, ⟨6, 2, .ro, 0, []⟩, ⟨8, 2, .ro, 0, []⟩, ⟨10, 2, .ro, 0, []⟩, ⟨12, 2, .ro, 0, []⟩, ⟨14, 2, .ro, 0, []⟩, ⟨16, 2, .ro, 0, []⟩, ⟨18, 2, .ro, 0, []⟩, ⟨20, 2, .ro, 0, []⟩, ⟨22, 2, .ro, 0, []⟩]⟩,
  ⟨0x4, [], 4, .p, [⟨0, 12, .ro, 0, []⟩]⟩]

/-- The HIF register map (offsets within one block). -/
def regRowsHIF : List RegRow := [
  ⟨0x0, [], 4, .live, [⟨0, 1, .ro, 0, []⟩, ⟨1, 3, .ro, 0, []⟩, ⟨4, 4, .ro, 0, []⟩, ⟨8, 1, .ro, 0, []⟩, ⟨9, 1, .ro, 0, []⟩, ⟨10, 1, .ro, 0, []⟩, ⟨11, 1, .ro, 0, []⟩, ⟨12, 3, .ro, 0, []⟩, ⟨15, 4, .ro, 0, []⟩, ⟨19, 1, .ro, 0, []⟩]⟩,
  ⟨0x4, [], 4, .p, [⟨0, 3, .rwp, 6, [(3, 6)]⟩, ⟨3, 1, .rwp, 1, []⟩]⟩,
  ⟨0x8, [], 4, .live, [⟨0, 8, .ro, 0, []⟩, ⟨8, 8, .ro, 0, []⟩]⟩,
  ⟨0x10, [], 4, .live, [⟨0, 17, .ro, 0, []⟩]⟩,
  ⟨0x14, [], 4, .live, [⟨0, 17, .ro, 0, []⟩]⟩,
  ⟨0x18, [], 4, .p, [⟨0, 9, .rwp, 128, [(0, 256)]⟩]⟩,
  ⟨0x1C, [], 4, .live, [⟨0, 15, .ro, 0, []⟩, ⟨15, 1, .ro, 0, []⟩, ⟨16, 15, .ro, 0, []⟩]⟩,
  ⟨0x20, [], 4, .m, [⟨0, 32, .ro, 0, []⟩]⟩,
  ⟨0x24, [], 4, .m, [⟨0, 32, .ro, 0, []⟩]⟩,
  ⟨0x30, [], 4, .k, [⟨0, 1, .w1c, 0, []⟩, ⟨1, 1, .w1c, 0, []⟩, ⟨2, 1, .w1c, 0, []⟩, ⟨3, 1, .w1c, 0, []⟩, ⟨4, 1, .w1c, 0, []⟩, ⟨5, 1, .w1c, 0, []⟩, ⟨6, 1, .w1c, 0, []⟩, ⟨7, 1, .w1c, 0, []⟩]⟩,
  ⟨0x34, [], 4, .m, [⟨0, 1, .rw, 0, []⟩, ⟨1, 1, .rw, 0, []⟩, ⟨2, 1, .rw, 0, []⟩, ⟨3, 1, .rw, 0, []⟩, ⟨4, 1, .rw, 0, []⟩, ⟨5, 1, .rw, 0, []⟩, ⟨6, 1, .rw, 0, []⟩, ⟨7, 1, .rw, 0, []⟩]⟩,
  ⟨0x40, [], 4, .m, [⟨0, 1, .rw, 0, []⟩, ⟨1, 1, .ro, 0, []⟩]⟩]

/-- The CHE register map (offsets within one block). -/
def regRowsCHE : List RegRow := [
  ⟨0x0, [], 4, .live, [⟨0, 2, .ro, 0, []⟩, ⟨2, 1, .ro, 0, []⟩, ⟨3, 1, .ro, 0, []⟩, ⟨4, 1, .ro, 0, []⟩]⟩,
  ⟨0x4, [], 4, .m, [⟨0, 1, .wo, 0, []⟩, ⟨1, 1, .wo, 0, []⟩, ⟨2, 1, .rw, 0, []⟩, ⟨3, 1, .ro, 0, []⟩, ⟨4, 1, .wo, 0, []⟩, ⟨8, 8, .wo, 0, []⟩]⟩,
  ⟨0x8, [], 4, .m, [⟨0, 12, .rw, 750, [(0, 1500)]⟩, ⟨12, 3, .rw, 4, [(1, 7)]⟩]⟩,
  ⟨0xC, [], 4, .p, [⟨0, 8, .rwp, 15, [(15, 255)]⟩, ⟨8, 5, .rwp, 16, [(0, 16)]⟩, ⟨13, 2, .rwp, 2, [(0, 2)]⟩]⟩,
  ⟨0x10, [], 4, .live, [⟨0, 4, .ro, 0, []⟩, ⟨4, 4, .ro, 0, []⟩, ⟨8, 4, .ro, 0, []⟩, ⟨12, 4, .ro, 0, []⟩, ⟨16, 4, .ro, 0, []⟩, ⟨20, 4, .ro, 0, []⟩, ⟨24, 4, .ro, 0, []⟩, ⟨28, 4, .ro, 0, []⟩]⟩,
  ⟨0x14, [], 4, .live, [⟨0, 1, .ro, 0, []⟩, ⟨1, 1, .ro, 0, []⟩, ⟨2, 2, .ro, 0, []⟩, ⟨8, 8, .ro, 0, []⟩]⟩,
  ⟨0x18, [], 4, .m, [⟨0, 16, .ro, 0, []⟩, ⟨16, 2, .ro, 0, []⟩]⟩,
  ⟨0x1C, [], 4, .m, [⟨0, 8, .ro, 0, []⟩, ⟨8, 8, .ro, 0, []⟩]⟩,
  ⟨0x20, [], 4, .k, [⟨0, 1, .w1c, 0, []⟩, ⟨1, 1, .w1c, 0, []⟩, ⟨2, 1, .w1c, 0, []⟩, ⟨3, 1, .w1c, 0, []⟩, ⟨4, 1, .w1c, 0, []⟩, ⟨5, 1, .w1c, 0, []⟩, ⟨6, 1, .w1c, 0, []⟩, ⟨7, 1, .w1c, 0, []⟩, ⟨8, 1, .w1c, 0, []⟩, ⟨9, 1, .w1c, 0, []⟩]⟩,
  ⟨0x24, [], 4, .m, [⟨0, 1, .rw, 0, []⟩, ⟨1, 1, .rw, 0, []⟩, ⟨2, 1, .rw, 0, []⟩, ⟨3, 1, .rw, 0, []⟩, ⟨4, 1, .rw, 0, []⟩, ⟨5, 1, .rw, 0, []⟩, ⟨6, 1, .rw, 0, []⟩, ⟨7, 1, .rw, 0, []⟩, ⟨8, 1, .rw, 0, []⟩, ⟨9, 1, .rw, 0, []⟩]⟩,
  ⟨0x28, [], 4, .m, [⟨0, 32, .ro, 0, []⟩]⟩,
  ⟨0x2C, [], 4, .m, [⟨0, 32, .ro, 0, []⟩]⟩,
  ⟨0x30, [], 8, .m, [⟨0, 64, .ro, 0, []⟩]⟩,
  ⟨0x38, [], 8, .m, [⟨0, 64, .ro, 0, []⟩]⟩,
  ⟨0x40, [], 4, .m, [⟨0, 32, .ro, 0, []⟩]⟩,
  ⟨0x44, [], 4, .m, [⟨0, 32, .ro, 0, []⟩]⟩,
  ⟨0x48, [], 4, .m, [⟨0, 32, .ro, 0, []⟩]⟩,
  ⟨0x4C, [], 4, .m, [⟨0, 32, .ro, 0, []⟩]⟩,
  ⟨0x50, [], 8, .live, [⟨0, 8, .ro, 0, []⟩, ⟨8, 8, .ro, 0, []⟩, ⟨16, 8, .ro, 0, []⟩, ⟨24, 8, .ro, 0, []⟩, ⟨32, 8, .ro, 0, []⟩, ⟨40, 8, .ro, 0, []⟩]⟩,
  ⟨0x8000, [], 4, .live, [⟨0, 4, .ro, 0, []⟩, ⟨4, 4, .ro, 0, []⟩, ⟨8, 1, .ro, 0, []⟩, ⟨9, 1, .ro, 0, []⟩, ⟨10, 1, .ro, 0, []⟩]⟩,
  ⟨0x8004, [], 4, .m, [⟨0, 4, .wo, 0, []⟩]⟩,
  ⟨0x8008, [], 4, .live, [⟨0, 4, .ro, 4, []⟩, ⟨4, 9, .ro, 256, []⟩, ⟨13, 7, .ro, 64, []⟩, ⟨20, 4, .ro, 2, []⟩, ⟨24, 8, .ro, 0, []⟩]⟩,
  ⟨0x800C, [], 4, .k, [⟨0, 1, .w1c, 0, []⟩, ⟨1, 1, .w1c, 0, []⟩, ⟨2, 1, .w1c, 0, []⟩, ⟨3, 1, .w1c, 0, []⟩, ⟨4, 1, .w1c, 0, []⟩, ⟨5, 1, .w1c, 0, []⟩, ⟨6, 1, .w1c, 0, []⟩]⟩,
  ⟨0x8010, [], 4, .m, [⟨0, 1, .rw, 0, []⟩, ⟨1, 1, .rw, 0, []⟩, ⟨2, 1, .rw, 0, []⟩, ⟨3, 1, .rw, 0, []⟩, ⟨4, 1, .rw, 0, []⟩, ⟨5, 1, .rw, 0, []⟩, ⟨6, 1, .rw, 0, []⟩]⟩,
  ⟨0x8040, [(4, 0x20)], 4, .m, [⟨0, 2, .ro, 0, []⟩, ⟨2, 2, .ro, 0, []⟩, ⟨4, 2, .ro, 0, []⟩, ⟨6, 1, .ro, 0, []⟩]⟩,
  ⟨0x8044, [(4, 0x20)], 4, .m, [⟨0, 12, .ro, 0, []⟩, ⟨16, 7, .ro, 0, []⟩, ⟨23, 1, .ro, 0, []⟩]⟩,
  ⟨0x8048, [(4, 0x20)], 8, .live, [⟨0, 40, .ro, 0, []⟩]⟩,
  ⟨0x8050, [(4, 0x20)], 8, .m, [⟨0, 64, .ro, 0, []⟩]⟩,
  ⟨0x80C0, [], 8, .m, [⟨0, 64, .ro, 0, []⟩]⟩,
  ⟨0x80C8, [], 8, .m, [⟨0, 64, .ro, 0, []⟩]⟩,
  ⟨0x80D0, [], 8, .m, [⟨0, 64, .ro, 0, []⟩]⟩,
  ⟨0x80D8, [], 8, .m, [⟨0, 64, .ro, 0, []⟩]⟩,
  ⟨0x80E0, [], 8, .m, [⟨0, 64, .ro, 0, []⟩]⟩,
  ⟨0x80E8, [], 4, .m, [⟨0, 32, .ro, 0, []⟩]⟩,
  ⟨0x80EC, [], 4, .m, [⟨0, 32, .ro, 0, []⟩]⟩,
  ⟨0x9000, [(4, 0x800), (256, 0x8)], 8, .m, [⟨0, 64, .rw, 0, []⟩]⟩,
  ⟨0xB000, [(4, 0x40), (8, 0x8)], 8, .m, [⟨0, 64, .rw, 0, []⟩]⟩,
  ⟨0xC000, [(4, 0x900), (576, 0x4)], 4, .m, [⟨0, 32, .rw, 0, []⟩]⟩]

/-- The MAT register map (offsets within one block). -/
def regRowsMAT : List RegRow := [
  ⟨0x0, [], 4, .live, [⟨0, 2, .ro, 0, []⟩, ⟨2, 1, .ro, 0, []⟩, ⟨3, 1, .ro, 0, []⟩, ⟨4, 1, .ro, 0, []⟩, ⟨5, 14, .ro, 0, []⟩]⟩,
  ⟨0x4, [], 4, .m, [⟨0, 2, .rw, 0, [(0, 2)]⟩, ⟨2, 1, .rw, 1, []⟩, ⟨3, 3, .rw, 0, []⟩]⟩,
  ⟨0x8, [], 4, .m, [⟨0, 13, .rw, 0, []⟩, ⟨16, 2, .wo, 0, []⟩, ⟨31, 1, .ro, 0, []⟩]⟩,
  ⟨0xC, [], 4, .m, [⟨0, 10, .rw, 100, [(10, 1000)]⟩]⟩,
  ⟨0x10, [], 4, .p, [⟨0, 7, .ro, 64, []⟩, ⟨7, 3, .ro, 4, []⟩]⟩,
  ⟨0x14, [], 4, .k, [⟨0, 1, .w1c, 0, []⟩, ⟨1, 1, .w1c, 0, []⟩, ⟨2, 1, .w1c, 0, []⟩, ⟨3, 1, .w1c, 0, []⟩, ⟨4, 1, .w1c, 0, []⟩, ⟨5, 1, .w1c, 0, []⟩, ⟨6, 1, .w1c, 0, []⟩]⟩,
  ⟨0x18, [], 4, .m, [⟨0, 1, .rw, 0, []⟩, ⟨1, 1, .rw, 0, []⟩, ⟨2, 1, .rw, 0, []⟩, ⟨3, 1, .rw, 0, []⟩, ⟨4, 1, .rw, 0, []⟩, ⟨5, 1, .rw, 0, []⟩, ⟨6, 1, .rw, 0, []⟩]⟩,
  ⟨0x20, [], 8, .m, [⟨0, 64, .ro, 0, []⟩]⟩,
  ⟨0x28, [], 8, .m, [⟨0, 64, .ro, 0, []⟩]⟩,
  ⟨0x30, [], 8, .m, [⟨0, 64, .ro, 0, []⟩]⟩,
  ⟨0x38, [], 4, .m, [⟨0, 32, .ro, 0, []⟩]⟩,
  ⟨0x3C, [], 4, .m, [⟨0, 32, .ro, 0, []⟩]⟩,
  ⟨0x40, [], 4, .m, [⟨0, 32, .ro, 0, []⟩]⟩,
  ⟨0x8000, [(256, 0x8)], 8, .m, [⟨0, 1, .rw, 0, []⟩, ⟨1, 1, .rw, 0, []⟩, ⟨2, 2, .rw, 0, []⟩, ⟨4, 4, .rw, 0, []⟩, ⟨8, 5, .rw, 0, []⟩, ⟨13, 5, .rw, 0, []⟩, ⟨18, 8, .rw, 0, []⟩, ⟨26, 1, .ro, 0, []⟩, ⟨27, 1, .ro, 0, []⟩, ⟨32, 7, .rw, 0, []⟩, ⟨40, 7, .rw, 0, []⟩, ⟨48, 16, .rw, 0, []⟩]⟩]

/-- The CMP register map (offsets within one block). -/
def regRowsCMP : List RegRow := [
  ⟨0x0, [], 4, .live, [⟨0, 2, .ro, 0, []⟩, ⟨2, 1, .ro, 0, []⟩, ⟨3, 3, .ro, 0, []⟩, ⟨6, 1, .ro, 0, []⟩]⟩,
  ⟨0x4, [], 4, .m, [⟨0, 1, .wo, 0, []⟩, ⟨1, 1, .wo, 0, []⟩, ⟨8, 8, .wo, 0, []⟩]⟩,
  ⟨0x8, [], 4, .m, [⟨0, 4, .rw, 4, []⟩, ⟨4, 4, .rw, 4, []⟩]⟩,
  ⟨0xC, [], 4, .live, [⟨0, 8, .ro, 0, []⟩, ⟨8, 8, .ro, 0, []⟩, ⟨16, 8, .ro, 0, []⟩]⟩,
  ⟨0x10, [], 4, .k, [⟨0, 1, .w1c, 0, []⟩, ⟨1, 1, .w1c, 0, []⟩, ⟨2, 1, .w1c, 0, []⟩, ⟨3, 1, .w1c, 0, []⟩, ⟨4, 1, .w1c, 0, []⟩, ⟨5, 1, .w1c, 0, []⟩]⟩,
  ⟨0x14, [], 4, .m, [⟨0, 1, .rw, 0, []⟩, ⟨1, 1, .rw, 0, []⟩, ⟨2, 1, .rw, 0, []⟩, ⟨3, 1, .rw, 0, []⟩, ⟨4, 1, .rw, 0, []⟩, ⟨5, 1, .rw, 0, []⟩]⟩,
  ⟨0x18, [], 4, .m, [⟨0, 32, .ro, 0, []⟩]⟩,
  ⟨0x1C, [], 4, .m, [⟨0, 32, .ro, 0, []⟩]⟩,
  ⟨0x20, [], 8, .m, [⟨0, 64, .ro, 0, []⟩]⟩,
  ⟨0x28, [], 8, .m, [⟨0, 64, .ro, 0, []⟩]⟩,
  ⟨0x30, [], 8, .m, [⟨0, 64, .ro, 0, []⟩]⟩,
  ⟨0x38, [], 4, .m, [⟨0, 32, .ro, 0, []⟩]⟩,
  ⟨0x100, [(32, 0x8)], 8, .m, [⟨0, 64, .ro, 0, []⟩]⟩,
  ⟨0x200, [(32, 0x4)], 4, .m, [⟨0, 32, .ro, 0, []⟩]⟩]

/-- The DIG register map (offsets within one block). -/
def regRowsDIG : List RegRow := [
  ⟨0x0, [], 4, .live, [⟨0, 16, .ro, 0, []⟩, ⟨16, 4, .ro, 0, []⟩, ⟨20, 5, .ro, 0, []⟩]⟩,
  ⟨0x4, [], 4, .m, [⟨0, 4, .rw, 4, [(0, 8)]⟩]⟩,
  ⟨0x8, [], 4, .k, [⟨0, 1, .w1c, 0, []⟩, ⟨1, 1, .w1c, 0, []⟩, ⟨2, 1, .w1c, 0, []⟩, ⟨3, 1, .w1c, 0, []⟩]⟩,
  ⟨0xC, [], 4, .m, [⟨0, 1, .rw, 0, []⟩, ⟨1, 1, .rw, 0, []⟩, ⟨2, 1, .rw, 0, []⟩, ⟨3, 1, .rw, 0, []⟩]⟩,
  ⟨0x10, [], 8, .m, [⟨0, 64, .ro, 0, []⟩]⟩,
  ⟨0x1000, [(16, 0x100)], 4, .m, [⟨0, 3, .rw, 0, [(0, 4)]⟩, ⟨3, 1, .rw, 0, []⟩, ⟨4, 3, .wo, 0, []⟩, ⟨8, 3, .rw, 0, []⟩]⟩,
  ⟨0x1004, [(16, 0x100)], 4, .m, [⟨0, 3, .ro, 0, []⟩, ⟨3, 1, .ro, 0, []⟩, ⟨4, 4, .ro, 0, []⟩, ⟨8, 8, .ro, 255, []⟩]⟩,
  ⟨0x1008, [(16, 0x100)], 8, .m, [⟨0, 64, .rw, 0xffffffffffffffff, []⟩]⟩,
  ⟨0x1010, [(16, 0x100)], 8, .m, [⟨0, 64, .ro, 0, []⟩]⟩,
  ⟨0x1018, [(16, 0x100)], 8, .live, [⟨0, 64, .wo, 0, []⟩]⟩,
  ⟨0x1020, [(16, 0x100), (16, 0x8)], 8, .live, [⟨0, 64, .wo, 0, []⟩]⟩,
  ⟨0x10A0, [(16, 0x100)], 8, .m, [⟨0, 48, .rw, 0, []⟩]⟩,
  ⟨0x10C0, [(16, 0x100), (8, 0x8)], 8, .m, [⟨0, 64, .ro, 0, []⟩]⟩]

/-- The KEY register map (offsets within one block). -/
def regRowsKEY : List RegRow := [
  ⟨0x0, [], 4, .live, [⟨0, 1, .ro, 0, []⟩, ⟨1, 1, .ro, 0, []⟩, ⟨2, 1, .ro, 0, []⟩, ⟨3, 11, .ro, 0, []⟩]⟩,
  ⟨0x4, [], 4, .m, [⟨0, 10, .rw, 0, []⟩, ⟨12, 12, .rw, 0, [(0, 2048)]⟩, ⟨24, 3, .wo, 0, []⟩, ⟨31, 1, .ro, 0, []⟩]⟩,
  ⟨0x8, [], 4, .m, [⟨0, 3, .ro, 0, []⟩]⟩,
  ⟨0xC, [], 4, .k, [⟨0, 1, .w1c, 0, []⟩, ⟨1, 1, .w1c, 0, []⟩, ⟨2, 1, .w1c, 0, []⟩, ⟨3, 1, .w1c, 0, []⟩, ⟨4, 1, .w1c, 0, []⟩]⟩,
  ⟨0x10, [], 4, .m, [⟨0, 1, .rw, 0, []⟩, ⟨1, 1, .rw, 0, []⟩, ⟨2, 1, .rw, 0, []⟩, ⟨3, 1, .rw, 0, []⟩, ⟨4, 1, .rw, 0, []⟩]⟩,
  ⟨0x18, [], 8, .m, [⟨0, 64, .ro, 0, []⟩]⟩,
  ⟨0x20, [], 8, .m, [⟨0, 64, .ro, 0, []⟩]⟩]

/-- The AXC register map (offsets within one block). -/
def regRowsAXC : List RegRow := [
  ⟨0x0, [], 4, .live, [⟨0, 2, .ro, 0, []⟩, ⟨2, 8, .ro, 0, []⟩, ⟨10, 8, .ro, 0, []⟩, ⟨18, 1, .ro, 0, []⟩, ⟨19, 1, .ro, 0, []⟩, ⟨20, 4, .ro, 0, []⟩]⟩,
  ⟨0x4, [], 4, .m, [⟨0, 1, .wo, 0, []⟩, ⟨1, 1, .wo, 0, []⟩, ⟨8, 8, .wo, 0, []⟩]⟩,
  ⟨0x8, [], 4, .m, [⟨0, 1, .rw, 0, []⟩, ⟨1, 1, .rw, 0, []⟩, ⟨2, 1, .rw, 0, []⟩, ⟨3, 1, .ro, 0, []⟩, ⟨4, 1, .ro, 0, []⟩]⟩,
  ⟨0xC, [], 4, .m, [⟨0, 16, .rw, 0, []⟩]⟩,
  ⟨0x10, [], 4, .m, [⟨0, 1, .rw, 1, []⟩, ⟨1, 1, .rw, 1, []⟩, ⟨8, 7, .rw, 16, [(0, 64)]⟩, ⟨16, 14, .rw, 2048, [(16, 8192)]⟩]⟩,
  ⟨0x14, [], 4, .m, [⟨0, 4, .wo, 0, []⟩, ⟨4, 1, .ro, 0, []⟩, ⟨5, 1, .ro, 0, []⟩, ⟨6, 1, .w1c, 0, []⟩, ⟨7, 1, .w1c, 0, []⟩]⟩,
  ⟨0x18, [], 8, .m, [⟨6, 42, .rw, 0, []⟩]⟩,
  ⟨0x20, [], 8, .m, [⟨0, 40, .rw, 0, []⟩]⟩,
  ⟨0x28, [], 8, .k, [⟨0, 1, .w1c, 0, []⟩, ⟨1, 1, .ro, 0, []⟩, ⟨6, 42, .ro, 0, []⟩]⟩,
  ⟨0x30, [], 4, .k, [⟨0, 1, .w1c, 0, []⟩, ⟨1, 1, .w1c, 0, []⟩, ⟨2, 1, .w1c, 0, []⟩, ⟨3, 1, .w1c, 0, []⟩, ⟨4, 1, .w1c, 0, []⟩, ⟨5, 1, .w1c, 0, []⟩]⟩,
  ⟨0x34, [], 4, .m, [⟨0, 1, .rw, 0, []⟩, ⟨1, 1, .rw, 0, []⟩, ⟨2, 1, .rw, 0, []⟩, ⟨3, 1, .rw, 0, []⟩, ⟨4, 1, .rw, 0, []⟩, ⟨5, 1, .rw, 0, []⟩]⟩,
  ⟨0x38, [], 4, .m, [⟨0, 32, .ro, 0, []⟩]⟩,
  ⟨0x3C, [], 4, .m, [⟨0, 32, .ro, 0, []⟩]⟩,
  ⟨0x40, [], 4, .m, [⟨0, 32, .ro, 0, []⟩]⟩,
  ⟨0x100, [(8, 0x40)], 4, .live, [⟨0, 2, .ro, 0, []⟩, ⟨2, 1, .ro, 0, []⟩, ⟨3, 1, .ro, 0, []⟩]⟩,
  ⟨0x104, [(8, 0x40)], 4, .m, [⟨0, 32, .ro, 0, []⟩]⟩,
  ⟨0x108, [(8, 0x40)], 8, .m, [⟨0, 64, .ro, 0, []⟩]⟩,
  ⟨0x110, [(8, 0x40)], 8, .m, [⟨0, 64, .ro, 0, []⟩]⟩,
  ⟨0x118, [(8, 0x40)], 8, .m, [⟨0, 64, .ro, 0, []⟩]⟩,
  ⟨0x120, [(8, 0x40)], 8, .m, [⟨0, 64, .ro, 0, []⟩]⟩,
  ⟨0x128, [(8, 0x40)], 4, .m, [⟨0, 32, .ro, 0, []⟩]⟩,
  ⟨0x12C, [(8, 0x40)], 4, .m, [⟨0, 32, .ro, 0, []⟩]⟩,
  ⟨0x130, [(8, 0x40)], 4, .m, [⟨0, 32, .ro, 0, []⟩]⟩,
  ⟨0x134, [(8, 0x40)], 4, .m, [⟨0, 32, .ro, 0, []⟩]⟩]

/-- The SCH register map (offsets within one block). -/
def regRowsSCH : List RegRow := [
  ⟨0x0, [], 4, .live, [⟨0, 1, .ro, 0, []⟩, ⟨1, 1, .ro, 0, []⟩, ⟨2, 1, .ro, 0, []⟩]⟩,
  ⟨0x4, [], 4, .m, [⟨0, 1, .rw, 1, []⟩]⟩,
  ⟨0x8, [], 4, .m, [⟨0, 16, .rw, 1000, []⟩, ⟨16, 5, .rw, 16, [(1, 31)]⟩]⟩,
  ⟨0x10, [], 8, .live, [⟨0, 64, .ro, 0, []⟩]⟩,
  ⟨0x18, [], 8, .live, [⟨0, 21, .ro, 0, []⟩, ⟨32, 21, .ro, 0, []⟩]⟩,
  ⟨0x20, [], 4, .live, [⟨0, 19, .ro, 0, []⟩]⟩,
  ⟨0x24, [], 4, .live, [⟨0, 17, .ro, 0, []⟩]⟩,
  ⟨0x28, [], 4, .live, [⟨0, 15, .ro, 0, []⟩, ⟨16, 15, .ro, 0, []⟩]⟩,
  ⟨0x2C, [], 4, .k, [⟨0, 1, .w1c, 0, []⟩, ⟨1, 1, .w1c, 0, []⟩, ⟨2, 1, .w1c, 0, []⟩, ⟨3, 1, .w1c, 0, []⟩, ⟨4, 1, .w1c, 0, []⟩, ⟨5, 1, .w1c, 0, []⟩, ⟨6, 1, .w1c, 0, []⟩, ⟨7, 1, .w1c, 0, []⟩]⟩,
  ⟨0x30, [], 4, .m, [⟨0, 1, .rw, 0, []⟩, ⟨1, 1, .rw, 0, []⟩, ⟨2, 1, .rw, 0, []⟩, ⟨3, 1, .rw, 0, []⟩, ⟨4, 1, .rw, 0, []⟩, ⟨5, 1, .rw, 0, []⟩, ⟨6, 1, .rw, 0, []⟩, ⟨7, 1, .rw, 0, []⟩]⟩,
  ⟨0x34, [], 4, .m, [⟨0, 18, .rw, 0, []⟩, ⟨31, 1, .rw, 0, []⟩]⟩,
  ⟨0x38, [], 8, .m, [⟨0, 2, .rw, 0, []⟩, ⟨2, 8, .rw, 0, []⟩, ⟨16, 16, .rw, 0, []⟩, ⟨32, 8, .rw, 0, []⟩, ⟨40, 1, .ro, 0, []⟩]⟩,
  ⟨0x40, [], 4, .m, [⟨0, 3, .wo, 0, []⟩, ⟨3, 1, .ro, 0, []⟩, ⟨4, 4, .ro, 0, []⟩]⟩,
  ⟨0x48, [], 8, .live, [⟨0, 64, .ro, 0xffffffffffffffff, []⟩]⟩,
  ⟨0x100, [(8, 0x8)], 8, .live, [⟨0, 16, .ro, 0, []⟩, ⟨16, 16, .ro, 0, []⟩, ⟨32, 16, .ro, 0, []⟩, ⟨48, 16, .ro, 0, []⟩]⟩,
  ⟨0x400, [(7, 0x40), (16, 0x4)], 4, .m, [⟨0, 32, .ro, 0, []⟩]⟩,
  ⟨0x800, [(76, 0x10)], 8, .m, [⟨0, 64, .ro, 0, []⟩]⟩,
  ⟨0x808, [(76, 0x10)], 8, .m, [⟨0, 64, .ro, 0, []⟩]⟩,
  ⟨0x10000, [(76, 0x100), (4, 0x8)], 8, .m, [⟨0, 64, .rw, 0, []⟩]⟩,
  ⟨0x10020, [(76, 0x100)], 8, .live, [⟨0, 32, .ro, 0, []⟩, ⟨32, 8, .ro, 0, []⟩]⟩,
  ⟨0x10028, [(76, 0x100)], 8, .live, [⟨0, 32, .ro, 0, []⟩]⟩,
  ⟨0x10030, [(76, 0x100), (4, 0x8)], 8, .m, [⟨0, 64, .ro, 0, []⟩]⟩,
  ⟨0x10050, [(76, 0x100)], 4, .live, [⟨0, 8, .wo, 0, []⟩]⟩,
  ⟨0x10058, [(76, 0x100)], 8, .m, [⟨0, 32, .rw, 0, []⟩, ⟨32, 3, .rw, 0, []⟩]⟩,
  ⟨0x10060, [(76, 0x100)], 8, .live, [⟨0, 3, .ro, 0, []⟩, ⟨8, 8, .ro, 0, []⟩]⟩,
  ⟨0x10068, [(76, 0x100)], 8, .live, [⟨0, 2, .ro, 0, []⟩]⟩,
  ⟨0x10070, [(76, 0x100)], 8, .live, [⟨0, 16, .ro, 0, []⟩, ⟨16, 8, .ro, 0, []⟩, ⟨24, 1, .ro, 0, []⟩, ⟨25, 1, .ro, 0, []⟩]⟩,
  ⟨0x10078, [(76, 0x100)], 8, .live, [⟨0, 64, .ro, 0, []⟩]⟩]

/-- The DMC register map (offsets within one block). -/
def regRowsDMC : List RegRow := [
  ⟨0x0, [], 4, .live, [⟨0, 2, .ro, 0, []⟩, ⟨2, 1, .ro, 0, []⟩, ⟨3, 8, .ro, 0, []⟩, ⟨11, 1, .ro, 0, []⟩]⟩,
  ⟨0x4, [], 4, .m, [⟨0, 1, .rw, 0, []⟩, ⟨1, 1, .ro, 0, []⟩, ⟨2, 1, .wo, 0, []⟩, ⟨3, 1, .wo, 0, []⟩, ⟨8, 8, .wo, 0, []⟩]⟩,
  ⟨0x8, [], 4, .m, [⟨0, 4, .rw, 8, [(1, 8)]⟩]⟩,
  ⟨0xC, [], 4, .live, [⟨0, 4, .ro, 0, []⟩]⟩,
  ⟨0x10, [], 4, .p, [⟨0, 20, .ro, 0, []⟩]⟩,
  ⟨0x14, [], 4, .k, [⟨0, 1, .w1c, 0, []⟩, ⟨1, 1, .w1c, 0, []⟩, ⟨2, 1, .w1c, 0, []⟩, ⟨3, 1, .w1c, 0, []⟩, ⟨4, 1, .w1c, 0, []⟩, ⟨5, 1, .w1c, 0, []⟩, ⟨6, 1, .w1c, 0, []⟩, ⟨7, 1, .w1c, 0, []⟩, ⟨8, 1, .w1c, 0, []⟩, ⟨9, 1, .w1c, 0, []⟩]⟩,
  ⟨0x18, [], 4, .m, [⟨0, 1, .rw, 0, []⟩, ⟨1, 1, .rw, 0, []⟩, ⟨2, 1, .rw, 0, []⟩, ⟨3, 1, .rw, 0, []⟩, ⟨4, 1, .rw, 0, []⟩, ⟨5, 1, .rw, 0, []⟩, ⟨6, 1, .rw, 0, []⟩, ⟨7, 1, .rw, 0, []⟩, ⟨8, 1, .rw, 0, []⟩, ⟨9, 1, .rw, 0, []⟩]⟩,
  ⟨0x20, [], 4, .m, [⟨0, 23, .rw, 0, []⟩, ⟨23, 1, .wo, 0, []⟩, ⟨24, 1, .ro, 0, []⟩, ⟨25, 3, .ro, 0, []⟩]⟩,
  ⟨0x24, [], 4, .live, [⟨0, 10, .ro, 0, []⟩]⟩,
  ⟨0x40, [(8, 0x4)], 4, .m, [⟨0, 16, .rw, 0, []⟩]⟩,
  ⟨0x80, [], 4, .m, [⟨0, 32, .ro, 0, []⟩]⟩,
  ⟨0x84, [], 4, .m, [⟨0, 32, .ro, 0, []⟩]⟩,
  ⟨0x88, [], 4, .m, [⟨0, 32, .ro, 0, []⟩]⟩,
  ⟨0x8C, [], 4, .m, [⟨0, 32, .ro, 0, []⟩]⟩,
  ⟨0x90, [], 4, .m, [⟨0, 32, .ro, 0, []⟩]⟩,
  ⟨0x94, [], 4, .m, [⟨0, 32, .ro, 0, []⟩]⟩,
  ⟨0x98, [], 4, .m, [⟨0, 32, .ro, 0, []⟩]⟩,
  ⟨0xA0, [], 8, .m, [⟨0, 64, .ro, 0, []⟩]⟩,
  ⟨0xC0, [(8, 0x4)], 4, .m, [⟨0, 32, .ro, 0, []⟩]⟩,
  ⟨0x100, [(20, 0x4)], 4, .m, [⟨0, 8, .ro, 0, []⟩, ⟨8, 8, .ro, 0, []⟩, ⟨16, 6, .ro, 0, []⟩, ⟨22, 7, .ro, 0, []⟩]⟩,
  ⟨0x180, [(20, 0x4)], 4, .m, [⟨0, 8, .rw, 0, []⟩, ⟨8, 8, .rw, 0, []⟩, ⟨16, 6, .rw, 0, []⟩, ⟨22, 7, .rw, 0, []⟩]⟩,
  ⟨0x200, [(20, 0x4)], 4, .live, [⟨0, 8, .ro, 0, []⟩, ⟨8, 8, .ro, 0, []⟩]⟩,
  ⟨0x1000, [(512, 0x8)], 8, .p, [⟨0, 1, .ro, 0, []⟩, ⟨23, 23, .ro, 0, []⟩]⟩]

/-- The MEM register map (offsets within one block). -/
def regRowsMEM : List RegRow := [
  ⟨0x0, [], 4, .live, [⟨0, 4, .ro, 0, []⟩, ⟨4, 1, .ro, 0, []⟩, ⟨5, 1, .ro, 0, []⟩, ⟨6, 1, .ro, 0, []⟩]⟩,
  ⟨0x4, [], 4, .m, [⟨0, 8, .rw, 24, [(1, 168)]⟩, ⟨8, 8, .rw, 10, [(1, 255)]⟩]⟩,
  ⟨0x8, [], 8, .live, [⟨0, 48, .ro, 0, []⟩]⟩,
  ⟨0x10, [], 4, .live, [⟨0, 8, .ro, 0, []⟩, ⟨8, 1, .ro, 0, []⟩]⟩,
  ⟨0x14, [], 4, .m, [⟨0, 8, .rw, 0, []⟩]⟩,
  ⟨0x18, [], 4, .k, [⟨0, 1, .w1c, 0, []⟩, ⟨1, 1, .w1c, 0, []⟩, ⟨2, 1, .w1c, 0, []⟩, ⟨3, 1, .w1c, 0, []⟩, ⟨4, 1, .w1c, 0, []⟩, ⟨5, 1, .w1c, 0, []⟩, ⟨6, 1, .w1c, 0, []⟩]⟩,
  ⟨0x1C, [], 4, .m, [⟨0, 1, .rw, 0, []⟩, ⟨1, 1, .rw, 0, []⟩, ⟨2, 1, .rw, 0, []⟩, ⟨3, 1, .rw, 0, []⟩, ⟨4, 1, .rw, 0, []⟩, ⟨5, 1, .rw, 0, []⟩, ⟨6, 1, .rw, 0, []⟩]⟩,
  ⟨0x20, [], 4, .m, [⟨0, 32, .ro, 0, []⟩]⟩,
  ⟨0x24, [], 4, .m, [⟨0, 32, .ro, 0, []⟩]⟩,
  ⟨0x28, [], 4, .m, [⟨0, 32, .ro, 0, []⟩]⟩,
  ⟨0x2C, [], 4, .m, [⟨0, 32, .ro, 0, []⟩]⟩,
  ⟨0x200, [(66, 0x4)], 4, .p, [⟨0, 5, .ro, 16, []⟩, ⟨5, 2, .ro, 2, []⟩]⟩,
  ⟨0x1000, [(256, 0x10)], 8, .m, [⟨0, 48, .ro, 0, []⟩, ⟨48, 4, .ro, 0, []⟩, ⟨52, 4, .ro, 0, []⟩, ⟨56, 3, .ro, 0, []⟩, ⟨59, 5, .ro, 0, []⟩]⟩,
  ⟨0x1008, [(256, 0x10)], 8, .m, [⟨0, 8, .ro, 0, []⟩, ⟨8, 56, .ro, 0, []⟩]⟩]

/-- The NET register map (offsets within one block). -/
def regRowsNET : List RegRow := [
  ⟨0x0, [], 4, .live, [⟨0, 2, .ro, 0, []⟩, ⟨2, 3, .ro, 0, []⟩, ⟨5, 1, .ro, 0, []⟩, ⟨6, 1, .ro, 0, []⟩]⟩,
  ⟨0x4, [], 4, .m, [⟨0, 1, .wo, 0, []⟩, ⟨1, 1, .wo, 0, []⟩, ⟨8, 8, .wo, 0, []⟩]⟩,
  ⟨0x8, [], 4, .p, [⟨0, 1, .rwp, 1, []⟩, ⟨1, 3, .rwp, 0, [(0, 4)]⟩, ⟨4, 1, .rwp, 0, []⟩, ⟨5, 8, .rwp, 0, []⟩, ⟨13, 3, .rwp, 3, []⟩, ⟨16, 1, .rwp, 0, []⟩, ⟨17, 1, .rwp, 1, []⟩, ⟨18, 1, .rwp, 1, []⟩]⟩,
  ⟨0xC, [], 4, .live, [⟨0, 1, .ro, 0, []⟩, ⟨1, 1, .ro, 0, []⟩, ⟨8, 8, .ro, 0, []⟩, ⟨16, 8, .ro, 0, []⟩]⟩,
  ⟨0x10, [], 4, .k, [⟨0, 1, .w1c, 0, []⟩, ⟨1, 1, .w1c, 0, []⟩, ⟨2, 1, .w1c, 0, []⟩, ⟨3, 1, .w1c, 0, []⟩, ⟨4, 1, .w1c, 0, []⟩, ⟨5, 1, .w1c, 0, []⟩, ⟨6, 1, .w1c, 0, []⟩, ⟨7, 1, .w1c, 0, []⟩, ⟨8, 1, .w1c, 0, []⟩, ⟨9, 1, .w1c, 0, []⟩, ⟨10, 1, .w1c, 0, []⟩]⟩,
  ⟨0x14, [], 4, .m, [⟨0, 1, .rw, 0, []⟩, ⟨1, 1, .rw, 0, []⟩, ⟨2, 1, .rw, 0, []⟩, ⟨3, 1, .rw, 0, []⟩, ⟨4, 1, .rw, 0, []⟩, ⟨5, 1, .rw, 0, []⟩, ⟨6, 1, .rw, 0, []⟩, ⟨7, 1, .rw, 0, []⟩, ⟨8, 1, .rw, 0, []⟩, ⟨9, 1, .rw, 0, []⟩, ⟨10, 1, .rw, 0, []⟩]⟩,
  ⟨0x18, [], 4, .live, [⟨0, 12, .ro, 0, []⟩, ⟨12, 12, .ro, 0, []⟩]⟩,
  ⟨0x20, [], 8, .m, [⟨0, 64, .ro, 0, []⟩]⟩,
  ⟨0x28, [], 8, .m, [⟨0, 64, .ro, 0, []⟩]⟩,
  ⟨0x30, [], 8, .m, [⟨0, 64, .ro, 0, []⟩]⟩,
  ⟨0x38, [], 4, .m, [⟨0, 32, .ro, 0, []⟩]⟩,
  ⟨0x3C, [], 4, .m, [⟨0, 32, .ro, 0, []⟩]⟩,
  ⟨0x40, [], 4, .m, [⟨0, 32, .ro, 0, []⟩]⟩,
  ⟨0x44, [], 4, .m, [⟨0, 32, .ro, 0, []⟩]⟩,
  ⟨0x48, [], 4, .m, [⟨0, 32, .ro, 0, []⟩]⟩,
  ⟨0x4C, [], 4, .m, [⟨0, 32, .ro, 0, []⟩]⟩]

/-- The LBX register map (offsets within one block). -/
def regRowsLBX : List RegRow := [
  ⟨0x0, [], 4, .f, [⟨0, 8, .hostRW, 0, []⟩]⟩,
  ⟨0x4, [], 4, .f, [⟨0, 8, .mgtRW, 0, []⟩]⟩,
  ⟨0x8, [], 4, .f, [⟨0, 8, .mgtRW, 0, []⟩]⟩,
  ⟨0xC, [], 4, .f, [⟨0, 8, .hostRW, 0, []⟩]⟩,
  ⟨0x10, [], 4, .live, [⟨0, 1, .ro, 0, []⟩, ⟨1, 1, .ro, 0, []⟩, ⟨2, 1, .ro, 0, []⟩, ⟨3, 1, .ro, 0, []⟩]⟩,
  ⟨0x14, [], 4, .f, [⟨0, 1, .hostRW, 0, []⟩, ⟨1, 7, .hostRW, 0, []⟩]⟩,
  ⟨0x400, [(4, 0x100), (64, 0x4)], 4, .f, [⟨0, 32, .hostRW, 0, []⟩]⟩,
  ⟨0x800, [(8, 0x100), (64, 0x4)], 4, .f, [⟨0, 32, .mgtRW, 0, []⟩]⟩]

/-- The CFL register map (offsets within one block). -/
def regRowsCFL : List RegRow := [
  ⟨0x0, [], 4, .live, [⟨0, 1, .ro, 0, []⟩, ⟨1, 1, .ro, 0, []⟩, ⟨2, 1, .ro, 0, []⟩, ⟨3, 3, .ro, 0, []⟩, ⟨6, 6, .ro, 0, []⟩]⟩,
  ⟨0x4, [], 4, .m, [⟨0, 3, .wo, 0, []⟩, ⟨4, 3, .ro, 0, []⟩, ⟨8, 8, .wo, 0, []⟩]⟩,
  ⟨0x8, [], 4, .m, [⟨3, 25, .rw, 0, []⟩]⟩,
  ⟨0x10, [], 8, .m, [⟨0, 64, .rw, 0, []⟩]⟩,
  ⟨0x18, [], 4, .p, [⟨0, 8, .rwp, 5, [(5, 255)]⟩, ⟨8, 6, .rwp, 32, [(0, 32)]⟩]⟩,
  ⟨0x1C, [], 4, .k, [⟨0, 1, .w1c, 0, []⟩, ⟨1, 1, .w1c, 0, []⟩, ⟨2, 1, .w1c, 0, []⟩, ⟨3, 1, .w1c, 0, []⟩, ⟨4, 1, .w1c, 0, []⟩, ⟨5, 1, .w1c, 0, []⟩, ⟨6, 1, .w1c, 0, []⟩]⟩,
  ⟨0x20, [], 4, .m, [⟨0, 1, .rw, 0, []⟩, ⟨1, 1, .rw, 0, []⟩, ⟨2, 1, .rw, 0, []⟩, ⟨3, 1, .rw, 0, []⟩, ⟨4, 1, .rw, 0, []⟩, ⟨5, 1, .rw, 0, []⟩, ⟨6, 1, .rw, 0, []⟩]⟩,
  ⟨0x24, [], 4, .m, [⟨0, 32, .ro, 0, []⟩]⟩,
  ⟨0x28, [], 4, .m, [⟨0, 32, .ro, 0, []⟩]⟩,
  ⟨0x2C, [], 4, .m, [⟨0, 32, .ro, 0, []⟩]⟩,
  ⟨0x30, [], 4, .p, [⟨0, 13, .ro, 4096, []⟩]⟩]

/-- The MGT register map (offsets within one block). -/
def regRowsMGT : List RegRow := [
  ⟨0x0, [(12, 0x4)], 4, .live, [⟨0, 16, .ro, 0, []⟩, ⟨16, 8, .ro, 0, []⟩]⟩,
  ⟨0x40, [], 4, .live, [⟨0, 2, .ro, 0, []⟩, ⟨2, 1, .ro, 0, []⟩, ⟨3, 1, .ro, 0, []⟩]⟩,
  ⟨0x44, [], 4, .live, [⟨0, 8, .ro, 0, []⟩, ⟨8, 3, .ro, 0, []⟩]⟩,
  ⟨0x48, [], 4, .p, [⟨0, 8, .rwp, 0, [(0, 0), (25, 125)]⟩]⟩,
  ⟨0x50, [], 4, .live, [⟨0, 7, .ro, 0, []⟩, ⟨7, 1, .ro, 0, []⟩, ⟨8, 8, .ro, 0, []⟩, ⟨16, 1, .ro, 0, []⟩, ⟨17, 1, .ro, 0, []⟩]⟩,
  ⟨0x54, [], 4, .m, [⟨0, 32, .ro, 0, []⟩]⟩,
  ⟨0x58, [], 4, .m, [⟨0, 32, .ro, 0, []⟩]⟩,
  ⟨0x60, [], 4, .live, [⟨0, 2, .ro, 0, []⟩, ⟨2, 3, .ro, 0, []⟩, ⟨5, 1, .ro, 0, []⟩]⟩]

/-- The PBK register map (offsets within one block). -/
def regRowsPBK : List RegRow := [
  ⟨0x0, [], 4, .live, [⟨0, 4, .ro, 0, []⟩, ⟨4, 1, .ro, 0, []⟩, ⟨5, 1, .ro, 0, []⟩, ⟨6, 2, .ro, 0, []⟩]⟩,
  ⟨0x4, [], 4, .p, [⟨0, 8, .rwp, 10, [(1, 255)]⟩, ⟨8, 8, .rwp, 100, [(1, 255)]⟩, ⟨16, 4, .rwp, 3, []⟩]⟩,
  ⟨0x8, [], 4, .k, [⟨0, 1, .w1c, 0, []⟩, ⟨1, 1, .w1c, 0, []⟩, ⟨2, 1, .w1c, 0, []⟩, ⟨3, 1, .w1c, 0, []⟩]⟩,
  ⟨0xC, [], 4, .m, [⟨0, 1, .rw, 0, []⟩, ⟨1, 1, .rw, 0, []⟩, ⟨2, 1, .rw, 0, []⟩, ⟨3, 1, .rw, 0, []⟩]⟩,
  ⟨0x10, [], 8, .k, [⟨0, 56, .ro, 1, []⟩]⟩,
  ⟨0x18, [], 8, .live, [⟨0, 56, .ro, 0, []⟩]⟩,
  ⟨0x20, [], 8, .live, [⟨0, 56, .ro, 0, []⟩]⟩,
  ⟨0x28, [], 4, .m, [⟨0, 32, .ro, 0, []⟩]⟩,
  ⟨0x2C, [], 4, .m, [⟨0, 32, .ro, 0, []⟩]⟩,
  ⟨0x40, [(2, 0x10)], 8, .m, [⟨0, 56, .rw, 0, []⟩]⟩,
  ⟨0x48, [(2, 0x10)], 8, .live, [⟨0, 56, .ro, 0, []⟩, ⟨56, 5, .ro, 0, []⟩, ⟨61, 1, .ro, 0, []⟩]⟩,
  ⟨0x100, [(14, 0x40)], 4, .m, [⟨0, 16, .rw, 0, []⟩, ⟨16, 16, .rw, 0, []⟩]⟩,
  ⟨0x104, [(14, 0x40)], 4, .m, [⟨0, 2, .rw, 0, []⟩, ⟨31, 1, .wo, 0, []⟩]⟩,
  ⟨0x108, [(14, 0x40), (9, 0x4)], 4, .m, [⟨0, 32, .rw, 0, []⟩]⟩,
  ⟨0x1000, [(2, 0x400), (256, 0x4)], 4, .live, [⟨0, 32, .ro, 0, []⟩]⟩]

/-- The DBG register map (offsets within one block). -/
def regRowsDBG : List RegRow := [
  ⟨0x0, [], 4, .live, [⟨0, 1, .ro, 0, []⟩, ⟨1, 1, .ro, 0, []⟩, ⟨2, 1, .ro, 0, []⟩]⟩,
  ⟨0x4, [], 4, .m, [⟨0, 1, .wo, 0, []⟩, ⟨8, 8, .wo, 0, []⟩]⟩,
  ⟨0x10, [], 4, .live, [⟨0, 32, .ro, 0, []⟩]⟩,
  ⟨0x14, [], 4, .live, [⟨0, 32, .ro, 0, []⟩]⟩,
  ⟨0x18, [], 4, .live, [⟨0, 13, .ro, 0, []⟩]⟩,
  ⟨0x1000, [(77, 0x100)], 4, .m, [⟨0, 1, .wo, 0, []⟩, ⟨1, 1, .wo, 0, []⟩, ⟨2, 1, .wo, 0, []⟩, ⟨3, 1, .rw, 0, []⟩, ⟨4, 1, .rw, 0, []⟩]⟩,
  ⟨0x1004, [(77, 0x100)], 4, .live, [⟨0, 1, .ro, 0, []⟩, ⟨1, 3, .ro, 0, []⟩, ⟨4, 3, .ro, 0, []⟩, ⟨7, 1, .ro, 0, []⟩]⟩,
  ⟨0x1008, [(77, 0x100)], 8, .live, [⟨0, 64, .rw, 0, []⟩]⟩,
  ⟨0x1010, [(77, 0x100)], 4, .m, [⟨0, 5, .rw, 0, []⟩, ⟨5, 2, .rw, 0, []⟩, ⟨7, 2, .rw, 0, [(0, 2)]⟩, ⟨16, 10, .rw, 0, []⟩]⟩,
  ⟨0x1018, [(77, 0x100)], 8, .live, [⟨0, 64, .rw, 0, []⟩]⟩,
  ⟨0x1020, [(77, 0x100), (8, 0x8)], 8, .m, [⟨0, 1, .rw, 0, []⟩, ⟨2, 62, .rw, 0, []⟩]⟩,
  ⟨0x1060, [(77, 0x100), (4, 0x8)], 8, .m, [⟨0, 64, .rw, 0, []⟩]⟩,
  ⟨0x1080, [(77, 0x100), (4, 0x4)], 4, .m, [⟨0, 1, .rw, 0, []⟩, ⟨1, 1, .rw, 0, []⟩, ⟨2, 1, .rw, 0, []⟩, ⟨3, 5, .rw, 0, [(0, 30)]⟩]⟩]

/-- The register blocks (R36): name, base, size of one instance's share, instances, map. -/
def regBlocks : List BlockRow := [
  ⟨.pwr, 0x40010000, 0x10000, 1, regRowsPWR⟩,
  ⟨.aon, 0x40000000, 0x10000, 1, regRowsAON⟩,
  ⟨.clk, 0x40020000, 0x10000, 1, regRowsCLK⟩,
  ⟨.ctc, 0x4A000000, 0x100000, 1, regRowsCTC⟩,
  ⟨.hif, 0x41000000, 0x100000, 1, regRowsHIF⟩,
  ⟨.che, 0x46000000, 0x10000, 32, regRowsCHE⟩,
  ⟨.mat, 0x44000000, 0x10000, 16, regRowsMAT⟩,
  ⟨.cmp, 0x45000000, 0x10000, 4, regRowsCMP⟩,
  ⟨.dig, 0x45100000, 0x10000, 1, regRowsDIG⟩,
  ⟨.key, 0x45200000, 0x10000, 1, regRowsKEY⟩,
  ⟨.axc, 0x49000000, 0x100000, 8, regRowsAXC⟩,
  ⟨.sch, 0x43000000, 0x100000, 1, regRowsSCH⟩,
  ⟨.dmc, 0x47000000, 0x100000, 4, regRowsDMC⟩,
  ⟨.mem, 0x48100000, 0x10000, 1, regRowsMEM⟩,
  ⟨.net, 0x42000000, 0x100000, 2, regRowsNET⟩,
  ⟨.lbx, 0x40100000, 0x1000, 128, regRowsLBX⟩,
  ⟨.cfl, 0x48000000, 0x8000, 1, regRowsCFL⟩,
  ⟨.mgt, 0x48008000, 0x8000, 1, regRowsMGT⟩,
  ⟨.pbk, 0x40040000, 0x10000, 1, regRowsPBK⟩,
  ⟨.dbg, 0x4F000000, 0x10000, 1, regRowsDBG⟩]

end Sys2Proof.Machine
end

