-- ==== Sys2Proof/Machine/State.lean ====
section
/-! DEFINITION. The state of the module as plain data, why a command can stop, and the state at reset. Registers of R36 live in `regs`,
each at its address; everything else the manual gives a part of the module stands in that part's own structure (Machine/Parts). -/

namespace Sys2Proof.Machine

/-- Faults. No command of the module stops it: the manual gives every row an effect, and a command that does not apply changes
nothing (log entry 2). The type therefore has no constructor. -/
inductive Fault where
  deriving DecidableEq, Repr

/-- Refusals. -/
inductive Refusal where
  /-- A row that has no meaning yet, by its mnemonic. Raised by no arm: every row has its meaning. Safe. -/
  | notModelled (mnemonic : String)
  deriving DecidableEq, Repr

/-- The module. -/
structure State where
  /-- commands that wait, first in first out -/
  pending : List Instr
  /-- registers of control register space by address, status fields included; an absent one holds its reset value (R9–R12, R36) -/
  regs : SMap Word
  /-- bytes of DRAM and fabric SRAM by physical address; an absent one reads as `memDefault` (R31–R33) -/
  mem : List Host.Cell
  /-- the model's own: number of the next free value -/
  free : Nat
  /-- the model's own: microseconds passed while no command waited -/
  tick : Nat
  /-- variant, in the order of R1 -/
  variant : Nat
  /-- module-wide vendor features in effect, by identifier (R111) -/
  feat : SMap Nat
  pbk : Pbk
  pow : Pow
  nv : Nvme
  ftl : Ftl
  media : Media
  ten : Ten
  prog : Progs
  dram : Dram
  mat : Mat
  comp : Comp
  scan : Scans
  dig : Dig
  keys : Keys
  sch : Sch
  /-- cores by the index of R508, and compute clusters; an absent one is as it leaves reset -/
  cores : SMap Core
  clus : SMap Clus
  net : Net
  mgt : Mgt
  /-- what register access and the debug link keep between accesses (R9, R37, R507) -/
  bus : BusSt
  /-- totals since power-on of counters that smaller resets have cleared, by register -/
  acc : SMap Nat
  /-- lines dirty in a cluster's caches, by address / 64 (R286) -/
  dirty : SMap DirtyLine
  deriving DecidableEq, Repr

/-- The module as it leaves manufacture, in Dark: no input, every register at its reset value, memory empty. -/
def State.reset : State where
  pending := []
  regs := []
  mem := []
  free := 0
  tick := 0
  variant := 1
  feat := []
  pbk := Pbk.reset
  pow := Pow.reset
  nv := Nvme.reset
  ftl := Ftl.reset
  media := Media.reset
  ten := Ten.reset
  prog := Progs.reset
  dram := Dram.reset
  mat := Mat.reset
  comp := Comp.reset
  scan := Scans.reset
  dig := Dig.reset
  keys := Keys.reset
  sch := Sch.reset
  cores := []
  clus := []
  net := Net.reset
  mgt := Mgt.reset
  bus := BusSt.reset
  acc := []
  dirty := []

end Sys2Proof.Machine
end

