-- ==== Sys2Proof/Machine/Ops.lean ====
section
/-! DEFINITION. The operations every meaning is written with: registers and their fields, memory, power domains,
postmarks, EVENT bits and free values. -/

namespace Sys2Proof.Machine

/-- The outcome of a command. -/
abbrev Out := Host.Outcome State Fault Refusal

/-! ### The register map -/

/-- `d` is the offset of an element of an array with these dimensions. -/
def dimsHit : List (Nat × Nat) → Nat → Bool
  | [], d => d == 0
  | (c, st) :: t, d => decide (d / st < c) && dimsHit t (d % st)

/-- The row of a block's map whose register (or array element) starts at offset `off`. -/
def rowAt : List RegRow → Nat → Option RegRow
  | [], _ => none
  | r :: t, off => if r.off ≤ off ∧ dimsHit r.dims (off - r.off) then some r else rowAt t off

/-- The block row an address of control register space falls into (R36). -/
def blockRowAt (a : Nat) : List BlockRow → Option BlockRow
  | [] => none
  | b :: t => if b.base ≤ a ∧ a < b.base + b.stride * b.count then some b else blockRowAt a t

/-- Block, instance and map row of the register that starts at address `a` (R36). -/
def regInfo (a : Nat) : Option (Block × Nat × RegRow) :=
  match blockRowAt a regBlocks with
  | none => none
  | some b => (rowAt b.rows ((a - b.base) % b.stride)).map (fun r => (b.blk, (a - b.base) / b.stride, r))

/-- The reset value a field map gives. -/
def fieldsReset : List FieldRow → Word
  | [] => 0
  | f :: t => insertField (fieldsReset t) f.lo f.w f.rst

/-- Default latency targets of the DMC ports, in units of 10 ns (the DMC ports table of R401). -/
def dmcLatDefault (p : Nat) : Nat := ([20, 50, 100, 100, 200, 200, 500, 0] : List Nat).getD p 0

/-- The value the register at address `a` holds after the reset of its class. -/
def resetVal (a : Nat) : Word :=
  match regInfo a with
  | none => 0
  | some (b, i, r) =>
    if b = .dmc ∧ r.off = 0x40 then BitVec.ofNat 64 (dmcLatDefault ((a - Reg.DMC_LAT i 0) / 4))
    else fieldsReset r.fields

/-- The register at address `a`. -/
def rd (a : Nat) (s : State) : Word := SMap.getD s.regs a (resetVal a)

/-- Sets the register at address `a`. -/
def wr (a : Nat) (v : Word) (s : State) : State := { s with regs := SMap.put s.regs a v }

/-- A field of a register. -/
def fget (f : Fld) (s : State) : Nat := extractField (rd f.addr s) f.lo f.w

/-- Sets a field of a register, leaving its other fields. -/
def fset (f : Fld) (v : Nat) (s : State) : State := wr f.addr (insertField (rd f.addr s) f.lo f.w v) s

/-- Adds to a counter register of `w` bits, stopping at all ones. -/
def cntAdd (a w n : Nat) (s : State) : State :=
  wr a (BitVec.ofNat 64 (Nat.min ((rd a s).toNat + n) (2 ^ w - 1))) s

/-- Before a reset clears counters, they are added to their totals since power-on. -/
def keepCounts (as : List Nat) (s : State) : State :=
  { s with acc := as.foldl (fun m a => SMap.put m a (SMap.getD m a 0 + (rd a s).toNat)) s.acc }

/-- A counter of `w` bits since power-on, stopping at all ones. -/
def sincePower (a w : Nat) (s : State) : Nat := Nat.min (SMap.getD s.acc a 0 + (rd a s).toNat) (2 ^ w - 1)

/-- Returns to their reset values the registers for which `p` holds of block, instance and map row. -/
def clearRegs (p : Block → Nat → RegRow → Bool) (s : State) : State :=
  { s with regs := s.regs.filter (fun e =>
      match regInfo e.1 with
      | some (b, i, r) => !p b i r
      | none => true) }

/-! ### Free values -/

/-- The next free value, as a number below `2 ^ w`. -/
def freeNat (w : Nat) (s : State) : Nat := (Config.freeValue s.free).toNat % 2 ^ w

/-- Passes to the next free value. -/
def useFree (s : State) : State := { s with free := s.free + 1 }

/-! ### Memory -/

/-- What a byte of memory that nothing has written reads as. -/
def memDefault : Byte := 0

/-- One byte of memory. -/
def rdByte (a : Nat) (s : State) : Byte := SMap.getD s.mem a memDefault

/-- Writes one byte of memory, keeping the canonical form. Memory holds what every agent sees (R286); the line is dirty in no
cache until a core's store marks it so. -/
def wrByte (a : Nat) (b : Byte) (s : State) : State :=
  { s with mem := SMap.putD memDefault s.mem a b, dirty := SMap.del s.dirty (a / 64) }

/-- `n` bytes of memory from address `a`, lowest address first. -/
def rdBytes (a : Nat) : Nat → State → List Byte
  | 0, _ => []
  | n + 1, s => rdByte a s :: rdBytes (a + 1) n s

/-- Writes a list of bytes from address `a` up. -/
def wrBytes (a : Nat) : List Byte → State → State
  | [], s => s
  | b :: t, s => wrBytes (a + 1) t (wrByte a b s)

/-- The little-endian value of a list of bytes (R7). -/
def leVal : List Byte → Nat
  | [] => 0
  | b :: t => b.toNat + 256 * leVal t

/-- The `n` low bytes of a value, least significant first (R7). -/
def leBytes : Nat → Nat → List Byte
  | 0, _ => []
  | n + 1, v => BitVec.ofNat 8 v :: leBytes n (v / 256)

/-- Canonical form of memory: addresses strictly rising and no entry equal to the default byte. -/
def Memory.wf (m : List Host.Cell) : Bool := SMap.sorted m && m.all (fun c => c.2 != memDefault)

/-! ### Lists and sets kept in the state -/

/-- Applies `f` to the first `n` numbers, in order. -/
def forN (f : Nat → State → State) : Nat → State → State
  | 0, s => s
  | n + 1, s => f n (forN f n s)

/-- Applies `f` to each element of a list, in order. -/
def forEach {α : Type} (f : α → State → State) : List α → State → State
  | [], s => s
  | a :: t, s => forEach f t (f a s)

/-! ### Power domains and modes (R13, R67) -/

/-- The mode in effect, with the encodings of R13. -/
def mode (s : State) : Nat := fget Fl.AON_MODE_CUR s

/-- Domain `PDn` is powered. -/
def pdOn (n : Nat) (s : State) : Bool :=
  if n < 32 then (rd Reg.AON_PD_ON_LO s).getLsbD n else (rd Reg.AON_PD_ON_HI s).getLsbD (n - 32)

/-- Domain `PDn` is marked retired (R68). -/
def pdRetired (n : Nat) (s : State) : Bool :=
  if n < 32 then (rd Reg.AON_PD_RETIRED_LO s).getLsbD n else (rd Reg.AON_PD_RETIRED_HI s).getLsbD (n - 32)

/-- Marks domain `PDn` retired and off (R68). -/
def retireDomain (n : Nat) (s : State) : State :=
  if n < 32 then s |> fset ⟨Reg.AON_PD_RETIRED_LO, n, 1⟩ 1 |> fset ⟨Reg.AON_PD_ON_LO, n, 1⟩ 0
  else s |> fset ⟨Reg.AON_PD_RETIRED_HI, n - 32, 1⟩ 1 |> fset ⟨Reg.AON_PD_ON_HI, n - 32, 1⟩ 0

/-! ### Postmarks (R502, R504) -/

/-- Lane 0, 1 and 3 EVENT bits of a group (the EVENT-bit lanes table of R504); every other bit is lane 2. -/
def eventLane (g bit : Nat) : Nat :=
  let t (l0 l1 l3 : List Nat) : Nat :=
    if l0.contains bit then 0 else if l1.contains bit then 1 else if l3.contains bit then 3 else 2
  match g with
  | 0x01 => t [0, 5] [4, 6] [2, 1]
  | 0x04 => t [] [] [6, 7]
  | 0x06 => t [8] [1, 2, 3, 4, 7] []
  | 0x08 => t [6] [2] []
  | 0x09 => t [3, 4] [] []
  | 0x0A => t [] [3] []
  | 0x0B => t [0, 1] [] [3, 4]
  | 0x0C => t [5] [1, 2] [4]
  | 0x0D => t [] [7] []
  | 0x0E => t [9] [1, 5, 8, 7] []
  | 0x0F => t [] [1, 5] []
  | 0x10 => t [7] [] [0, 2, 3]
  | 0x12 => t [] [1, 4, 5] []
  | _ => 2

/-- The lane of every code (R504). Drop postmarks (0x0001) carry their own lane. Reset postmarks are lane 1 for
kinds 0 and 1, told by the first argument. -/
def codeLane (code : Nat) (args : List Nat) : Nat :=
  if 0x100 ≤ code ∧ code % 256 < 0x20 then eventLane (code / 256) (code % 256)
  else match code with
    | 0x0002 => 0 | 0x0003 => 1 | 0x0280 => 3
    | 0x0281 => if args.headD 0 ≤ 1 then 1 else 3
    | 0x0282 => 0 | 0x0283 => 0 | 0x0284 => 1 | 0x0285 => 3 | 0x0380 => 1 | 0x0480 => 2 | 0x0580 => 1
    | 0x1280 => 1 | 0x1281 => 2 | 0x1380 => 0 | 0x1381 => 3 | 0x1382 => 1 | 0x1383 => 0 | 0x1480 => 2
    | 0x1481 => 2 | 0x1580 => 0 | _ => 2

/-- The queue of a lane. -/
def laneQ (l : Nat) (p : Pbk) : List Ev :=
  match l with
  | 0 => p.q0 | 1 => p.q1 | 2 => p.q2 | _ => p.q3

/-- Replaces the queue of a lane. -/
def setLaneQ (l : Nat) (q : List Ev) (p : Pbk) : Pbk :=
  match l with
  | 0 => { p with q0 := q } | 1 => { p with q1 := q } | 2 => { p with q2 := q } | _ => { p with q3 := q }

/-- Ordinary entries a lane's queue still takes: 256, one of them reserved for drop postmarks in lanes 2 and 3. -/
def laneHasRoom (l : Nat) (p : Pbk) : Bool :=
  if l < 2 then decide ((laneQ l p).length < 256)
  else decide (((laneQ l p).filter (fun e => !e.drop)).length < 255)

/-- Counts a drop in DROP2 or DROP3 and keeps the drop postmark that waits in the queue up to date (R502). -/
def dropOccurrence (e : Ev) (p : Pbk) : Pbk :=
  let q := laneQ e.lane p
  if q.any (·.drop) then
    setLaneQ e.lane (q.map (fun x => if x.drop then { x with count := x.count + 1 } else x)) p
  else
    setLaneQ e.lane (q ++ [⟨e.lane, 0x0001, 0, 1, [e.code + 65536 * e.src], false, true⟩]) p

/-- An occurrence reaches its lane (R502): lanes 0 and 1 queue it or leave it held with its block; lanes 2 and 3
coalesce, queue or drop. -/
def enterLane (e : Ev) (s : State) : State :=
  let p := s.pbk
  if e.lane = 0 then
    if laneHasRoom 0 p then { s with pbk := setLaneQ 0 (p.q0 ++ [e]) p }
    else { s with pbk := { p with held0 := p.held0 ++ [e] } }
  else if e.lane = 1 then
    if laneHasRoom 1 p then { s with pbk := setLaneQ 1 (p.q1 ++ [e]) p }
    else { s with pbk := { p with held1 := p.held1 ++ [e] } }
  else
    let key (c : Coal) : Bool := c.lane == e.lane && c.code == e.code && c.src == e.src
    if p.coal.any key then
      { s with pbk := { p with coal := p.coal.map (fun c =>
          if key c then { c with count := c.count + 1, args := e.args } else c) } }
    else if (p.coal.filter (fun c => c.lane == e.lane)).length < 64 then
      if laneHasRoom e.lane p then
        { s with pbk := { setLaneQ e.lane (laneQ e.lane p ++ [e]) p with
            coal := p.coal ++ [⟨e.lane, e.code, e.src, 0, e.args, false⟩] } }
      else
        { s with pbk := { p with coal := p.coal ++ [⟨e.lane, e.code, e.src, 1, e.args, false⟩] } }
    else if laneHasRoom e.lane p then
      { s with pbk := setLaneQ e.lane (laneQ e.lane p ++ [e]) p }
    else
      { s with pbk := dropOccurrence e p }
        |> cntAdd (if e.lane = 2 then Reg.PBK_DROP2 else Reg.PBK_DROP3) 32 1
        |> fset Fl.PBK_EVENT_DROP 1

/-- Recomputes PBK.STATUS.PENDING from the lane queues. -/
def pbkPending (s : State) : State :=
  let b (l : Nat) : Nat := if (laneQ l s.pbk).isEmpty then 0 else 2 ^ l
  fset Fl.PBK_STATUS_PENDING (b 0 + b 1 + b 2 + b 3) s

/-- An event of CODE `code` and SOURCE `src` with arguments is recorded, in the lane R504 gives it. -/
def postmark (code src : Nat) (args : List Nat) (s : State) : State :=
  pbkPending (enterLane ⟨codeLane code args, code, src, 1, args, false, false⟩ s)

/-- The other postmark of a group, code 0xFF: the address and value concerned and the number of the rule (R504). -/
def otherPostmark (g inst addr val rule : Nat) (s : State) : State :=
  postmark (g * 256 + 0xFF) (g + 256 * inst)
    [addr % 2 ^ 32, addr / 2 ^ 32, val % 2 ^ 32, val / 2 ^ 32, rule] s

/-- An EVENT bit sets: the bit, and the postmark of its group with the register's value after it (R57, R504). -/
def raiseEvent (g inst : Nat) (f : Fld) (s : State) : State :=
  let s' := fset f 1 s
  postmark (g * 256 + f.lo) (g + 256 * inst) [(rd f.addr s').toNat] s'

/-- The bus error of R9, R34 and R37: no effect, postmark 0x1480 (requester as in R542). -/
def busError (addr req size : Nat) (s : State) : State :=
  postmark 0x1480 0x14 [addr % 2 ^ 32, addr / 2 ^ 32, req, size] s

/-- A write ignored under R10: no effect but postmark 0x1481. -/
def writeIgnored (addr req val : Nat) (s : State) : State :=
  postmark 0x1481 0x14 [addr % 2 ^ 32, addr / 2 ^ 32, req, val] s

/-! ### Modes -/

/-- The power domains switched on in a mode, as a mask of PD00–PD39 (the power domain table of R67);
gated and retained domains are powered. -/
def modeDomains (m : Nat) : Nat :=
  match m with
  | 0x0 => 0
  | 0x1 => 1
  | 0x2 => 0x800000007
  | 0x7 => 0x80000018F
  | 0x9 => 0xFFFFFFFFFF - 0xFF000 - 0x3F00000
  | _ => 0xFFFFFFFFFF

/-- The retired domains as a mask. -/
def retiredMask (s : State) : Nat :=
  ((rd Reg.AON_PD_RETIRED_LO s).extractLsb' 0 32).toNat + 2 ^ 32 * ((rd Reg.AON_PD_RETIRED_HI s).extractLsb' 0 8).toNat

/-- Sets a field where its value changes. -/
def fsetTo (f : Fld) (v : Nat) (s : State) : State := if fget f s = v then s else fset f v s

/-- STATE of a unit whose domain is on or off: 0 off, 1 running once on; a retired unit of a block that reports it keeps 3. -/
def showUnit (f : Fld) (pd : Nat) (gone : Bool) (s : State) : State :=
  if fget f s = 3 ∧ gone then s
  else if !pdOn pd s || gone then fsetTo f 0 s
  else if fget f s = 0 then fset f 1 s else s

/-- The channel engines, match banks and compression engines report their state after domains have changed. -/
def showUnits (s : State) : State :=
  s |> forN (fun n t => showUnit (Fl.CHE_STATUS_STATE n) (27 + n / 8) ((SMap.find t.media.chans n).any (·.retired)) t) 32
    |> forN (fun n t => showUnit (Fl.MAT_STATUS_STATE n) (20 + n / 4) (t.mat.retired.contains n) t) 16
    |> forN (fun n t => showUnit (Fl.CMP_STATUS_STATE n) (24 + n / 2) (fget (Fl.CMP_STATUS_STATE n) t == 3) t) 4

/-- Sets the powered domains to those of `mask` that are not retired (R67, R68). -/
def setDomains (mask : Nat) (s : State) : State :=
  let m : BitVec 40 := BitVec.ofNat 40 mask &&& ~~~(BitVec.ofNat 40 (retiredMask s))
  s |> wr Reg.AON_PD_ON_LO ((m.extractLsb' 0 32).setWidth 64) |> wr Reg.AON_PD_ON_HI ((m.extractLsb' 32 8).setWidth 64)
    |> showUnits

/-- Starts a transition to mode `m`: CUR keeps the mode being left (R59). -/
def beginTransition (m : Nat) (s : State) : State := s |> fset Fl.AON_MODE_TARGET m |> fset Fl.AON_MODE_TRANS 1

/-- Mode `m` is entered: CUR, PREV, TARGET and TRANS, and the mode-change postmark (R59, R504). -/
def enterMode (m : Nat) (s : State) : State :=
  let old := mode s
  s |> fset Fl.AON_MODE_PREV old |> fset Fl.AON_MODE_CUR m |> fset Fl.AON_MODE_TARGET m
    |> fset Fl.AON_MODE_TRANS 0 |> postmark 0x0280 0x02 [old, m]

/-- A reset is recorded: kind 0–7 in the order of R72, and cause (R72, R504). -/
def resetPostmark (kind cause : Nat) (s : State) : State := postmark 0x0281 0x02 [kind, cause] s

/-- The modes in which the module serves commands: Serve, Serve-Capped, Sanitize and Read-Only. -/
def serving (s : State) : Bool := mode s == 4 || mode s == 5 || mode s == 9 || mode s == 10

/-! ### Features (R89, R111) -/

/-- The default of a module-wide vendor feature: landing pool policy (R132), scan defaults (R202), thermal thresholds
(R465) and event notification (R503). -/
def featureDefault (id : Nat) : Nat :=
  match id with
  | 0xC0 => 100 + 256
  | 0xC1 => 3600
  | 0xC3 => 0x035A5550
  | 0xC5 => 0x113
  | _ => 0

/-- The value of a module-wide vendor feature. -/
def featureValue (id : Nat) (s : State) : Nat := SMap.getD s.feat id (featureDefault id)

/-- Controllers with CC.EN = 1. -/
def enabledControllers (s : State) : List Nat := (s.nv.ctrls.filter (fun e => e.2.en)).map (·.1)

/-- A controller by identifier. -/
def ctrlAt (c : Nat) (s : State) : Option Ctrl := SMap.find s.nv.ctrls c

/-- Changes a controller that exists. -/
def updCtrl (c : Nat) (f : Ctrl → Ctrl) (s : State) : State := { s with nv := { s.nv with ctrls := SMap.upd s.nv.ctrls c f } }

end Sys2Proof.Machine
end

