-- ==== Sys2Proof/Machine/I3cOps.lean ====
section
/-! DEFINITION. What the I3C target does with messages for the bus owner: in-band interrupts and the messages that wait to be read
(R467–R470). -/

namespace Sys2Proof.Machine

/-- In-band interrupts of the last second; a tick of the model is 1 µs. -/
def recentIbis (s : State) : List Nat := s.mgt.ibis.filter (fun t => decide (s.tick < t + 1000000))

/-- An in-band interrupt leaves: it is counted and its moment kept. -/
def sendIbi (s : State) : State :=
  cntAdd Reg.MGT_CNT_IBI 32 1 { s with mgt := { s.mgt with ibis := recentIbis s ++ [s.tick] } }

/-- An in-band interrupt is due: it is raised, or deferred and counted while 100 of the last second stand (R469). Without a dynamic
address, or disabled, the target raises none. -/
def raiseIbi (s : State) : State :=
  if fget Fl.MGT_I3C_IBI_EN s = 0 ∨ fget Fl.MGT_I3C_DA_VALID s = 0 then s
  else if (recentIbis s).length < 100 then sendIbi s
  else cntAdd Reg.MGT_CNT_IBI_DEFER 32 1 { s with mgt := { s.mgt with ibiWait := s.mgt.ibiWait + 1 } }

/-- A message for the bus owner joins those waiting to be read. -/
def postMctp (m : List Byte) (s : State) : State := raiseIbi { s with mgt := { s.mgt with outbox := s.mgt.outbox ++ [m] } }

/-- The response to a request: the bus owner has read what waited before it. -/
def replyMctp (m : List Byte) (s : State) : State := raiseIbi { s with mgt := { s.mgt with outbox := [m] } }

/-- A result of an admin command tunnelled over NVMe-MI: kept, and sent as message type 4 (R471). -/
def tunnelResult (sct sc dw0 : Nat) (data : List Byte) (s : State) : State :=
  postMctp ([4, 0] ++ leBytes 4 dw0 ++ leBytes 2 (2 * sc + 512 * sct) ++ data)
    { s with mgt := { s.mgt with done := s.mgt.done ++ [⟨sct, sc, dw0, data⟩] } }

end Sys2Proof.Machine
end

