-- ==== Sys2Proof/Machine/Space.lean ====
section
/-! DEFINITION. Address spaces: physical memory, a function's SLM and an execution's program addresses (R33, R177, R373,
R381, R383, R409), and the resources of functions (R443, R453). -/

namespace Sys2Proof.Machine

/-! ### Functions -/

/-- Functions that are physical: 0, and 64 in dual-port mode. -/
def isPhysical (f : Nat) (s : State) : Bool := f == 0 || (s.nv.dual && f == 64)

/-- A function's resources; until assigned, the defaults of R453. -/
def resOf (f : Nat) (s : State) : Res :=
  SMap.getD s.ten.res f ⟨32, if isPhysical f s then 33 else 15, 1024, 0, 16, 16, 0xFF, false, 64, 64, 16, 4, 256⟩

/-- The function index a controller acts for (R443); fabric controllers act for the function they name (R427). -/
def funcOf (c : Nat) (s : State) : Nat := match ctrlAt c s with | some x => x.func | none => 0

/-- Identifier of the PCIe controller of function `f` (R85). -/
def cntlidOf (f : Nat) (s : State) : Nat := if s.nv.dual && decide (64 ≤ f) then 0x81 + (f - 64) else f + 1

/-- The mask bit of a vector in its function's MSI-X table; 1 until the host writes it (log 62). -/
def msixMasked (f v : Nat) (s : State) : Bool := SMap.getD s.nv.msix (512 * f + 4 * v + 3) 1 % 2 == 1

/-- An interrupt of function `f` may be sent: by MSI-X where enabled and unmasked, otherwise only by a physical function, as its one MSI
message or INTA (R88). -/
def irqOpen (f v : Nat) (s : State) : Bool := if s.ten.msixOn.contains f then !msixMasked f v s else isPhysical f s

/-- An interrupt that may not be sent: a masked vector becomes pending. -/
def irqPend (f v : Nat) (s : State) : State :=
  if s.ten.msixOn.contains f ∧ ¬ s.nv.msixPend.contains (f, v) then { s with nv := { s.nv with msixPend := s.nv.msixPend ++ [(f, v)] } } else s

/-- A controller sees a namespace: attached, or for a fabric controller attached to the PCIe controller of its function (R427). -/
def sees (n : Ns) (c : Nat) (s : State) : Bool :=
  n.attached.contains c || (match ctrlAt c s with
    | some x => x.fabric && n.attached.contains (cntlidOf x.func s)
    | none => false)

/-! ### Regions of physical memory (R33) -/

/-- The three-channel configuration is in use (R418). -/
def threeCh (s : State) : Bool := fget Fl.MEM_STATUS_THREE_CH s == 1

/-- First address past DRAM (R33, R418). -/
def dramEnd (s : State) : Nat := if threeCh s then 0x5800000000 else 0x6000000000

/-- Fabric SRAM or DRAM. -/
def isMem (a : Nat) (s : State) : Bool := decide (a < 0x4000000) || (decide (0x4000000000 ≤ a) && decide (a < dramEnd s))

/-- First address of granule 0 (R31, R418). -/
def granBase (s : State) : Nat := if threeCh s then 0x4E80000000 else 0x5200000000

/-- Physical address of byte `off` of a list of granules (R32). -/
def granuleByte (gs : List Nat) (off : Nat) (s : State) : Option Nat :=
  (gs[off / 0x10000000]?).map (fun g => granBase s + g * 0x10000000 + off % 0x10000000)

/-- Size in bytes of a function's memory namespace. -/
def slmSize (f : Nat) (s : State) : Nat := SMap.getD s.ten.memNs f 0 * 0x10000000

/-- Physical address of byte `off` of a function's memory namespace (R373). -/
def slmByte (f off : Nat) (s : State) : Option Nat :=
  if off < slmSize f s then granuleByte (SMap.getD s.ten.slm f []) off s else none

/-- Physical address of byte `off` of a function's private memory. -/
def privByte (f off : Nat) (s : State) : Option Nat := granuleByte (SMap.getD s.ten.priv f []) off s

/-! ### Spaces -/

/-- Offset of byte `o` of a list of pieces (offset, length). -/
def pieceByte : List (Nat × Nat) → Nat → Option Nat
  | [], _ => none
  | (p, n) :: t, o => if o < n then some (p + o) else pieceByte t (o - n)

/-- The region of an execution that holds a virtual address. -/
def regionAt (e : Exec) (a : Nat) : Option Region := e.regions.find? (fun r => decide (r.va ≤ a) && decide (a < r.va + r.len))

/-- Physical address of a byte of a space, with write permission where `write`. -/
def xlate (sp : Space) (write : Bool) (a : Nat) (s : State) : Option Nat :=
  match sp with
  | .phys => if isMem a s then some a else none
  | .host f => slmByte f a s
  | .exec i =>
    match SMap.find s.prog.execs i with
    | none => none
    | some e =>
      match regionAt e a with
      | none => none
      | some r =>
        if write && !r.write then none
        else if r.slm then slmByte e.func (r.off + (a - r.va)) s
        else (pieceByte r.pieces (r.off + (a - r.va))).bind (fun o => privByte e.func o s)

/-- The line, or word of SRAM, that holds an address is poisoned or uncorrectable (R409–R411). -/
def poisoned (a : Nat) (s : State) : Bool :=
  if a < 0x4000000 then s.dram.sram.contains (a / 8) else s.dram.poison.contains (a / 64) || s.dram.bad.contains (a / 64)

/-- `n` bytes of a space; none where an address cannot be reached or its line is poisoned (a bus error). -/
def readSpace (sp : Space) (a : Nat) : Nat → State → Option (List Byte)
  | 0, _ => some []
  | n + 1, s =>
    match xlate sp false a s with
    | none => none
    | some p => if poisoned p s then none else (readSpace sp (a + 1) n s).map (fun t => rdByte p s :: t)

/-- Every byte of a list may be written at `a`. -/
def writable (sp : Space) (a n : Nat) (s : State) : Bool := (List.range n).all (fun i => (xlate sp true (a + i) s).isSome)

/-- Writes bytes into a space, those that can be reached. -/
def putSpace (sp : Space) (a : Nat) : List Byte → State → State
  | [], s => s
  | b :: t, s =>
    putSpace sp (a + 1) t (match xlate sp true a s with
      | some p => wrByte p b s
      | none => s)

/-- Every one of the `w` bytes of unit `l` is among the addresses written. -/
def coversAll (ps : List Nat) (w l : Nat) : Bool := (List.range w).all (fun o => ps.contains (l * w + o))

/-- Whole lines, and whole words of SRAM, that have been written are no longer poisoned or uncorrectable (R409–R411). -/
def clearPoison (ps : List Nat) (s : State) : State :=
  { s with dram := { s.dram with
      poison := s.dram.poison.filter (fun l => !coversAll ps 64 l)
      bad := s.dram.bad.filter (fun l => !coversAll ps 64 l)
      sram := s.dram.sram.filter (fun l => !coversAll ps 8 l) } }

/-- A line that is written is invalidated in the caches: a locked entry that holds it becomes empty (R286, R291). -/
def snoopLocked (ps : List Nat) (s : State) : State :=
  { s with clus := s.clus.map (fun e => (e.1, { e.2 with locked := e.2.locked.filter (fun w => !ps.any (fun p => p / 64 == w.2)) })) }

/-- Writes bytes into a space, clearing the poison of what they cover whole (R409). -/
def writeSpace (sp : Space) (a : Nat) (bs : List Byte) (s : State) : State :=
  let ps := (List.range bs.length).filterMap (fun i => xlate sp true (a + i) s)
  snoopLocked ps (clearPoison ps (putSpace sp a bs s))

/-- Contents of memory from `a` to `b` are gone: every byte reads as the default, and no line is poisoned. -/
def zeroRange (a b : Nat) (s : State) : State :=
  let in' (x : Nat) : Bool := decide (a ≤ x) && decide (x < b)
  { s with
    mem := s.mem.filter (fun c => !in' c.1)
    dirty := s.dirty.filter (fun c => !in' (64 * c.1))
    dram := { s.dram with
      poison := s.dram.poison.filter (fun l => !in' (64 * l))
      bad := s.dram.bad.filter (fun l => !in' (64 * l))
      sram := s.dram.sram.filter (fun l => !in' (8 * l)) } }

/-- Zero-fills a granule (R369, R455). -/
def zeroGranule (g : Nat) (s : State) : State :=
  zeroRange (granBase s + g * 0x10000000) (granBase s + (g + 1) * 0x10000000) s

/-- The number in `n` bytes of a list from offset `o`. -/
def fieldAt (bs : List Byte) (o n : Nat) : Nat := leVal ((bs.drop o).take n)

end Sys2Proof.Machine
end

