-- ==== Sys2Proof/Machine/Queues.lean ====
section
/-! DEFINITION. Queues, command tags, the overlap tracker, fetching, completion and asynchronous events
(R92–R96, R98, R99, R103–R105, R515). -/

namespace Sys2Proof.Machine

/-! ### Commands -/

/-- The outstanding command that holds a tag. -/
def cmdAt (tag : Nat) (s : State) : Option Cmd := s.nv.cmds.find? (fun c => c.tag == tag)

/-- Replaces the outstanding command of the same tag. -/
def setCmd (c : Cmd) (s : State) : State :=
  { s with nv := { s.nv with cmds := s.nv.cmds.map (fun x => if x.tag = c.tag then c else x) } }

/-- A submission queue of a controller. -/
def sqAt (c q : Nat) (s : State) : Option Sq := (ctrlAt c s).bind (fun x => SMap.find x.sqs q)

/-- A completion queue of a controller. -/
def cqAt (c q : Nat) (s : State) : Option Cq := (ctrlAt c s).bind (fun x => SMap.find x.cqs q)

/-- Changes a submission queue. -/
def updSq (c q : Nat) (f : Sq → Sq) (s : State) : State := updCtrl c (fun x => { x with sqs := SMap.upd x.sqs q f }) s

/-- Changes a completion queue. -/
def updCq (c q : Nat) (f : Cq → Cq) (s : State) : State := updCtrl c (fun x => { x with cqs := SMap.upd x.cqs q f }) s

/-- The completion queue a submission queue is bound to. -/
def cqOf (c q : Nat) (s : State) : Option Cq := (sqAt c q s).bind (fun x => cqAt c x.cq s)

/-- Tags in use, the overlap tracker's occupancy, as HIF shows them. -/
def showTags (s : State) : State :=
  let used := s.nv.cmds.length + s.nv.freedTags.length
  let ovl := (s.nv.cmds.filter (·.tracked)).length
  s |> fset Fl.HIF_OVL_STATUS_IN_USE ovl |> fset Fl.HIF_OVL_STATUS_FULL (if ovl ≥ 16384 then 1 else 0)
    |> fset Fl.HIF_OVL_STATUS_HWM (max ovl (fget Fl.HIF_OVL_STATUS_HWM s))
    |> wr Reg.HIF_TAG_STATUS (BitVec.ofNat 64 used) |> wr Reg.HIF_TAG_SHARED (BitVec.ofNat 64 s.nv.sharedFree)

/-! ### Posting completions (R94, R103) -/

/-- A completion queue has no free entry. -/
def cqFull (q : Cq) : Bool := (q.tail + 1) % max q.size 1 == q.head

/-- Writes an entry to a completion queue, and asks for its interrupt. -/
def postEntry (c cq : Nat) (e : Cqe) (s : State) : State :=
  let s1 := updCq c cq (fun q => { q with tail := (q.tail + 1) % max q.size 1, posted := q.posted ++ [e] }) s
  match (cqAt c cq s).bind (·.vector) with
  | none => s1
  | some v => if irqOpen (funcOf c s) v s then { s1 with nv := { s1.nv with irqs := s1.nv.irqs ++ [(c, v)] } } else irqPend (funcOf c s) v s1

/-- A command whose completion has been written leaves: its tag is freed and its tracker entry ends. -/
def retireCmd (x : Cmd) (s : State) : State :=
  { s with nv := { s.nv with
      cmds := s.nv.cmds.filter (fun y => y.tag != x.tag)
      freedTags := s.nv.freedTags ++ [(x.ctrl, x.shared)] } }

/-- The completion of a command is already held for a full queue. -/
def isHeld (x : Cmd) (s : State) : Bool :=
  match cqOf x.ctrl x.sq s with
  | none => false
  | some q => q.held.any (fun h => h.1 == x.tag)

/-- The completion of command `x` may be posted now: on an ordered queue only in fetch order (R103). -/
def mayPost (x : Cmd) (s : State) : Bool :=
  !x.ordered ||
    (match s.nv.cmds.find? (fun y => y.ctrl == x.ctrl && y.sq == x.sq && y.ordered && !isHeld y s) with
      | none => true
      | some y => y.tag == x.tag)

/-- Posts the result of a command, or holds it while its completion queue is full: CQ_HELD, and one fetch stop counted
(R94). -/
def postResult (x : Cmd) (e : Cqe) (s : State) : State :=
  match sqAt x.ctrl x.sq s, cqOf x.ctrl x.sq s with
  | some q, some k =>
    if cqFull k || !k.held.isEmpty then
      { updCq x.ctrl q.cq (fun k => { k with held := k.held ++ [(x.tag, e)] }) s with
        nv := { (updCq x.ctrl q.cq (fun k => { k with held := k.held ++ [(x.tag, e)] }) s).nv with
          cqStops := s.nv.cqStops + (if k.held.isEmpty then 1 else 0) } }
        |> raiseEvent 0x04 0 Fl.HIF_EVENT_CQ_HELD
    else retireCmd x (postEntry x.ctrl q.cq e s)
  | _, _ =>
    -- a command tunnelled over NVMe-MI answers management firmware
    retireCmd x (if x.sq = 65535 then tunnelResult e.sct e.sc e.dw0 e.data s else s)

/-- A Flush whose earlier commands of its queue and namespace, other Flushes too, have all completed: their completions are posted (R98). -/
def flushReady (x : Cmd) (s : State) : Bool :=
  s.nv.cmds.all (fun y => !(y.ctrl == x.ctrl && y.sq == x.sq && decide (y.order < x.order) &&
    (x.nsid == 0xFFFFFFFF || y.nsid == 0xFFFFFFFF || y.nsid == x.nsid)))

/-- A successful completion. -/
def okCqe (x : Cmd) : Cqe := ⟨x.sq, x.cid, 0, 0, false, 0, 0, []⟩

/-- One result that may be posted is posted; a Flush whose wait is over completes (R98). -/
def settleOne (s : State) : State :=
  match s.nv.cmds.find? (fun x => x.result.isSome && !isHeld x s && mayPost x s) with
  | some x => match x.result with
    | some e => postResult x e s
    | none => s
  | none =>
    match s.nv.cmds.find? (fun x => x.kind == .flush && x.phase == .started && x.result.isNone && flushReady x s) with
    | some x => setCmd { x with result := some (okCqe x), phase := .done } s
    | none => s

/-- Results are posted as far as order and room allow, none in Halt (R59). -/
def settle : Nat → State → State
  | 0, s => s
  | n + 1, s => if mode s = 0xB then s else settle n (settleOne s)

/-- No fetched command of the controller is left but Asynchronous Event Requests. -/
def drained (c : Nat) (x : Ctrl) (s : State) : Bool := s.nv.cmds.all (fun y => y.ctrl != c || x.aers.contains y.tag)

/-- A controller in shutdown with no fetched command left reports SHST 2, the last enabled one once its checkpoint is written (R107). -/
def shutdownProgress (s : State) : State :=
  { s with nv := { s.nv with ctrls := s.nv.ctrls.map (fun e =>
      if e.2.shst = 1 ∧ e.2.ckpt = false ∧ drained e.1 e.2 s = true then (e.1, { e.2 with shst := 2 }) else e) } }

/-- A shutdown begins (R107): the controller stops fetching, and a normal shutdown of the last enabled controller waits for a checkpoint. -/
def beginShutdown (c : Nat) (normal : Bool) (s : State) : State :=
  let last := s.nv.ctrls.all (fun e => e.1 == c || !e.2.en || e.2.shst != 0)
  updCtrl c (fun x => { x with shst := 1, shnNormal := normal, ckpt := normal && last }) s

/-- A shutdown waits for its checkpoint, every fetched command completed. -/
def awaitsCheckpoint (s : State) : Bool := s.nv.ctrls.any (fun e => e.2.shst == 1 && e.2.ckpt && drained e.1 e.2 s)

/-- The checkpoint that ends a shutdown is written. -/
def shutdownWritten (s : State) : State :=
  shutdownProgress { s with nv := { s.nv with ctrls := s.nv.ctrls.map (fun e =>
    if e.2.ckpt ∧ drained e.1 e.2 s = true then (e.1, { e.2 with ckpt := false }) else e) } }

/-- Everything that follows from results being ready: posting, Flush, shutdown, and the counts HIF shows. -/
def settleAll (s : State) : State := showTags (shutdownProgress (settle (2 * s.nv.cmds.length + 2) s))

/-- Held completions of a completion queue are posted while it has room (R94), none in Halt (R59). -/
def postHeld (c cq : Nat) : Nat → State → State
  | 0, s => s
  | n + 1, s =>
    match cqAt c cq s with
    | none => s
    | some k => match k.held with
      | [] => s
      | (tag, e) :: rest =>
        if cqFull k ∨ mode s = 0xB then s
        else
          let s1 := postEntry c cq e (updCq c cq (fun k => { k with held := rest }) s)
          postHeld c cq n (match cmdAt tag s1 with | some x => retireCmd x s1 | none => s1)

/-- Halt ends: what it withheld is posted (R59). -/
def postWithheld (s : State) : State :=
  settleAll (forEach (fun e t => forEach (fun q u => postHeld e.1 q.1 (q.2.held.length + 1) u) e.2.cqs t) s.nv.ctrls s)

/-- A failure of a command fetched from an ordered queue with HALT_ON_ERR halts it: every command fetched later under that setting ends
with Ordered Queue Halted, one whose result has not been posted too (R105). -/
def haltQueue (x : Cmd) (s : State) : State :=
  match sqAt x.ctrl x.sq s with
  | none => s
  | some q =>
    if x.ordered && x.haltErr && !q.halted then
      let s1 := updSq x.ctrl x.sq (fun q => { q with halted := q.ordered && q.haltErr }) s
      { s1 with nv := { s1.nv with
          orderHalts := s1.nv.orderHalts + 1
          cmds := s1.nv.cmds.map (fun y =>
            if y.ctrl = x.ctrl ∧ y.sq = x.sq ∧ x.order < y.order ∧ y.ordered ∧ y.haltErr then
              { y with result := some ⟨y.sq, y.cid, 7, 0xC2, false, 0, 0, []⟩, phase := .done, wdata := [], places := [] }
            else y) } }
    else s

/-- Ends a command with a status, dwords 0 and 1 and data; an error goes to the Error Information log and may halt an ordered
queue. -/
def completeBoth (tag sct sc : Nat) (dnr : Bool) (dw0 dw1 : Nat) (data : List Byte) (s : State) : State :=
  match cmdAt tag s with
  | none => s
  | some x =>
    if x.result.isSome then s
    else
      let s1 := setCmd { x with result := some ⟨x.sq, x.cid, sct, sc, dnr, dw0, dw1, data⟩, phase := .done, places := [] } s
      if sct = 0 ∧ sc = 0 then settleAll s1
      else settleAll (haltQueue x { s1 with nv := { s1.nv with
          ctrls := SMap.upd s1.nv.ctrls x.ctrl (fun c => { c with errors := c.errors + 1 }), errs := (⟨x.ctrl, x.sq, x.cid, sct, sc, x.lba, x.nsid, 0, 0⟩ :: s1.nv.errs).take 64 } })

/-- Ends a command with a status, dword 0 and data. -/
def complete (tag sct sc : Nat) (dnr : Bool) (dw0 : Nat) (data : List Byte) (s : State) : State :=
  completeBoth tag sct sc dnr dw0 0 data s

/-- Successful completion. -/
def completeOk (tag : Nat) (s : State) : State := complete tag 0 0 false 0 [] s
/-- Successful completion with dword 0. -/
def completeDw (tag dw0 : Nat) (s : State) : State := complete tag 0 0 false dw0 [] s
/-- Successful completion with data for the host. -/
def completeData (tag : Nat) (d : List Byte) (s : State) : State := complete tag 0 0 false 0 d s
/-- Completion with a generic status and DNR. -/
def completeErr (tag sc : Nat) (s : State) : State := complete tag 0 sc true 0 [] s
/-- Invalid Field in Command, DNR set (R89). -/
def invalidField (tag : Nat) (s : State) : State := complete tag 0 0x02 true 0 [] s

/-! ### Asynchronous events (R89) -/

/-- Reports waiting events on controllers with an Asynchronous Event Request outstanding, one per type until its log
page is read. -/
def deliverAens : Nat → State → State
  | 0, s => s
  | n + 1, s =>
    match s.nv.aens.find? (fun a => !s.nv.aenMasked.contains (a.ctrl, a.typ) &&
        (match ctrlAt a.ctrl s with | some c => !c.aers.isEmpty | none => false)) with
    | none => s
    | some a => match ctrlAt a.ctrl s with
      | none => s
      | some c => match c.aers with
        | [] => s
        | t :: rest =>
          let s1 := updCtrl a.ctrl (fun c => { c with aers := rest }) { s with nv := { s.nv with
            aens := s.nv.aens.erase a, aenMasked := s.nv.aenMasked ++ [(a.ctrl, a.typ)] } }
          deliverAens n (completeDw t (a.typ + 256 * a.info + 65536 * a.log) s1)

/-- An asynchronous event is raised on each of the controllers. -/
def raiseAen (ctrls : List Nat) (typ info log : Nat) (s : State) : State :=
  deliverAens (s.nv.aens.length + ctrls.length + 1)
    { s with nv := { s.nv with aens := s.nv.aens ++ ctrls.map (fun c => ⟨c, typ, info, log⟩) } }

/-- A log page is read with RAE cleared: the event types that named it may be reported again. -/
def clearAen (ctrl typ : Nat) (s : State) : State :=
  deliverAens (s.nv.aens.length + 1) { s with nv := { s.nv with aenMasked := s.nv.aenMasked.filter (· != (ctrl, typ)) } }

/-- Asynchronous Event Configuration after controller reset: every SMART critical warning and Namespace Attribute
Notices (R89). -/
def aecDefault : Nat := 0xFF + 256

/-- The Asynchronous Event Configuration of a controller. -/
def aecOf (c : Nat) (s : State) : Nat :=
  match ctrlAt c s with
  | none => 0
  | some x => SMap.getD x.feats 0x0B (SMap.getD s.nv.saved (256 * c + 0x0B) aecDefault)

/-- A SMART / Health critical warning bit sets: event type 1 on the controllers that enable it (R147). -/
def smartEvent (bit : Nat) (s : State) : State :=
  raiseAen ((enabledControllers s).filter (fun c => aecOf c s / 2 ^ bit % 2 == 1))
    1 (if bit = 0 then 2 else if bit = 1 then 1 else if bit = 4 then 0 else 0) 0x02 s

/-- Namespace Attribute Changed: the namespace enters the Changed Namespace List of the controllers, and those that enable the
notice get the event (R120, R445). -/
def nsChanged (nsid : Nat) (ctrls : List Nat) (s : State) : State :=
  let new := (ctrls.filter (fun c => !s.nv.changed.contains (c, nsid))).map (fun c => (c, nsid))
  raiseAen (ctrls.filter (fun c => aecOf c s / 256 % 2 == 1)) 2 0 0x04 { s with nv := { s.nv with changed := s.nv.changed ++ new } }

/-! ### Tags and the tracker (R93, R99, R515) -/

/-- A tag number no outstanding command uses, from `t` on. -/
def freshTag : Nat → Nat → List Cmd → Nat
  | 0, t, _ => t % 65536
  | n + 1, t, cs => if cs.any (fun c => c.tag == t % 65536) then freshTag n (t + 1) cs else t % 65536

/-- A tag is free for controller `c`: one of its own, or a shared one. -/
def tagFor (c : Nat) (s : State) : Option Bool :=
  match ctrlAt c s with
  | none => none
  | some x => if x.ownUsed < x.reserve then some false else if 0 < s.nv.sharedFree then some true else none

/-- Fetching for controller `c` pauses for want of a tag (R93). -/
def tagPause (c : Nat) (s : State) : State :=
  match ctrlAt c s with
  | none => s
  | some x =>
    if x.paused then s
    else
      let s1 := updCtrl c (fun x => { x with paused := true }) { s with nv := { s.nv with pausedFor := s.nv.pausedFor ++ [c] } }
        |> cntAdd Reg.HIF_STALL_TAG 32 1
      if s.nv.tagEmptySeen then s1
      else raiseEvent 0x04 0 Fl.HIF_EVENT_TAG_EMPTY { s1 with nv := { s1.nv with tagEmptySeen := true } }

/-- The tracker is full: one pause for every controller until an entry frees (R99). -/
def trackerPause (s : State) : State :=
  if s.nv.ovlPause then s
  else { s with nv := { s.nv with ovlPause := true } } |> cntAdd Reg.HIF_STALL_OVL 32 1 |> raiseEvent 0x04 0 Fl.HIF_EVENT_OVL_FULL

/-- A freed tag refills its controller's reserve, or joins the shared pool and resumes the controller that paused
first (R515). -/
def returnTag (c : Nat) (s : State) : State :=
  match ctrlAt c s with
  | some x =>
    if 0 < x.ownUsed then
      let s1 := updCtrl c (fun x => { x with ownUsed := x.ownUsed - 1, paused := false }) s
      showTags { s1 with nv := { s1.nv with pausedFor := s1.nv.pausedFor.filter (· != c) } }
    else shareTag s
  | none => shareTag s
where
  shareTag (s : State) : State :=
    let s1 := { s with nv := { s.nv with sharedFree := s.nv.sharedFree + 1, tagEmptySeen := false } }
    match s1.nv.pausedFor with
    | [] => showTags s1
    | p :: t => showTags (updCtrl p (fun x => { x with paused := false }) { s1 with nv := { s1.nv with pausedFor := t } })

/-! ### Fetching (R93, R96) -/

/-- Kinds of command that hold an overlap tracker entry (R99): not admin, Flush or SLM commands. -/
def trackedKind (k : CmdKind) : Bool :=
  match k with
  | .read | .write | .dealloc | .fusedPair | .copy => true
  | .admin | .flush | .memory | .program | .resv | .unsupported => false

/-- Submission queue `q` of controller `c` may be fetched from now. -/
def fetchable (c q : Nat) (s : State) : Bool :=
  match ctrlAt c s with
  | none => false
  | some x =>
    x.en && x.rdy && x.online && x.shst == 0 && !x.paused && !s.nv.stopped && fget Fl.HIF_FETCH_CTRL_HOLD s == 0 &&
    (match SMap.find x.sqs q with
      | none => false
      | some k => k.head != k.tail && (match SMap.find x.cqs k.cq with
        | none => false
        | some r => r.held.isEmpty))

/-- Controllers in round robin order, starting after `last`. -/
def afterCtrl (last : Nat) (cs : List Nat) : List Nat := cs.filter (fun c => decide (last < c)) ++ cs.filter (fun c => decide (c ≤ last))

/-- The classes of one weighted round robin turn: high, medium and low by the weights of the Arbitration feature
(dword 11: LPW, MPW and HPW, 0's based). -/
def wrrSeq (arb : Nat) : List Nat :=
  List.replicate (arb / 2 ^ 24 % 256 + 1) 1 ++ List.replicate (arb / 2 ^ 16 % 256 + 1) 2 ++ List.replicate (arb / 2 ^ 8 % 256 + 1) 3

/-- Class under which round robin remembers a queue's turn: its priority, or one class for all under plain round robin. -/
def turnClass (x : Ctrl) (q : Nat) : Nat := if x.ams = 0 then 4 else ((SMap.find x.sqs q).map (·.prio)).getD 4

/-- The queue chosen within a controller: round robin, or weighted round robin with the urgent class first (R96). -/
def pickSq (c : Nat) (x : Ctrl) (s : State) : Option Nat :=
  let qs := (x.sqs.map (·.1)).filter (fun q => q != 0 && fetchable c q s)
  let rr (p : Nat) : Option Nat := (afterCtrl (SMap.getD x.sqLast p 0) (qs.filter (fun q => turnClass x q == p))).head?
  if x.ams = 0 then rr 4
  else
    let seq := wrrSeq (SMap.getD x.feats 0x01 0)
    let turn := seq.drop (x.wrr % seq.length) ++ seq.take (x.wrr % seq.length)
    match rr 0 with
    | some q => some q
    | none => turn.findSome? rr

/-- The queue arbitration chooses: admin queues of every controller round robin, then controllers by deficit round robin
on command count (R96). -/
def arbitrate (s : State) : Option (Nat × Nat) :=
  let cs := s.nv.ctrls.map (·.1)
  match (afterCtrl s.nv.adminLast cs).find? (fun c => fetchable c 0 s) with
  | some c => some (c, 0)
  | none =>
    let io (c : Nat) : Option (Nat × Nat) := (ctrlAt c s).bind (fun x => (pickSq c x s).map (fun q => (c, q)))
    match (ctrlAt s.nv.ioLast s).bind (fun x => if 0 < x.deficit then io s.nv.ioLast else none) with
    | some p => some p
    | none => (afterCtrl s.nv.ioLast cs).findSome? io

/-- Bookkeeping of the arbitration after a fetch from queue `q` of controller `c`; the urgent class takes no weighted turn. -/
def arbitrated (c q : Nat) (s : State) : State :=
  if q = 0 then { s with nv := { s.nv with adminLast := c } }
  else
    let s1 := updCtrl c (fun x => { x with
      deficit := (if s.nv.ioLast = c ∧ 0 < x.deficit then x.deficit else x.weight) - 1
      sqLast := SMap.put x.sqLast (turnClass x q) q
      wrr := if turnClass x q = 0 then x.wrr else x.wrr + 1 }) s
    { s1 with nv := { s1.nv with ioLast := c } }

/-- Tracker entries in use. -/
def tracked (s : State) : Nat := (s.nv.cmds.filter (·.tracked)).length

/-- A command enters with its tag: the next entry of queue `q` is consumed, under the queue's order settings (R104); the tracker may be full
with it (R99). One fetched on a halted queue ends at once (R105). -/
def enterCmd (c q cid : Nat) (k : CmdKind) (nsid lba nlb : Nat) (sharedTag : Bool) (s : State) : State :=
  let tag := freshTag (s.nv.cmds.length + 1) s.nv.nextTag s.nv.cmds
  let sq := sqAt c q s
  let x : Cmd :=
    { tag := tag, ctrl := c, sq := q, cid := cid, order := s.nv.order, ordered := sq.any (·.ordered), haltErr := sq.any (·.haltErr), kind := k
      nsid := nsid, lba := lba, nlb := nlb, shared := sharedTag, tracked := trackedKind k, phase := .fetched, admitted := false, media := false
      wdata := [], dealloc := false, places := [], need := [], looked := [], got := [], pr := PrInfo.none, verifyOnly := false
      compareOnly := false, abort := false, result := none }
  let s1 := updSq c q (fun k => { k with head := (k.head + 1) % max k.size 1 }) s
  let s2 := if sharedTag then { s1 with nv := { s1.nv with sharedFree := s1.nv.sharedFree - 1 } }
    else updCtrl c (fun x => { x with ownUsed := x.ownUsed + 1 }) s1
  let s3 := showTags { s2 with nv := { s2.nv with cmds := s2.nv.cmds ++ [x], order := s2.nv.order + 1, nextTag := tag + 1 } }
  let s4 := if x.tracked && decide (16384 ≤ tracked s3) then trackerPause s3 else s3
  if sq.any (·.halted) then complete tag 7 0xC2 false 0 [] s4
  else if k = .unsupported then completeErr tag 0x01 s4
  else s4

/-- Controllers with something to fetch and no tag for it pause (R93). -/
def pauseTagless (s : State) : State :=
  forEach (fun e t => if (tagFor e.1 t).isNone && e.2.sqs.any (fun q => fetchable e.1 q.1 t) then tagPause e.1 t else t) s.nv.ctrls s

/-- One fetch: the arbitrated queue's next command, given a tag and, for a media command, a tracker entry, unless the tracker pauses media
commands (R93, R96, R99). -/
def fetchCommand (cid : Nat) (k : CmdKind) (nsid lba nlb : Nat) (s : State) : State :=
  let s0 := pauseTagless s
  match arbitrate s0 with
  | none => s0
  | some (c, q) =>
    if trackedKind k && (s0.nv.ovlPause || decide (16384 ≤ tracked s0)) then trackerPause s0
    else match tagFor c s0 with
      | none => tagPause c s0
      | some sh => arbitrated c q (enterCmd c q cid k nsid lba nlb sh s0)

/-! ### Overlap (R100, R101) -/

/-- LBAs of one indirection unit in an LBA format of 512 or 4,096 bytes (R114, R115). -/
def lbasPerIu (flbas : Nat) : Nat := if flbas < 3 then 32 else 4

/-- A namespace by identifier. -/
def nsAt (nsid : Nat) (s : State) : Option Ns := SMap.find s.nv.ns nsid

/-- LBAs per unit of a namespace. -/
def nsK (nsid : Nat) (s : State) : Nat := match nsAt nsid s with | some n => lbasPerIu n.flbas | none => 4

/-- The units a command touches. -/
def iusOf (x : Cmd) (s : State) : List Nat :=
  let k := nsK x.nsid s
  (List.range ((x.lba + x.nlb - 1) / k - x.lba / k + 1)).map (· + x.lba / k)

/-- Two commands IU-overlap. -/
def overlaps (x y : Cmd) (s : State) : Bool :=
  x.nsid == y.nsid && decide (0 < x.nlb) && decide (0 < y.nlb) &&
    (let k := nsK x.nsid s
     decide (x.lba / k ≤ (y.lba + y.nlb - 1) / k) && decide (y.lba / k ≤ (x.lba + x.nlb - 1) / k))

/-- Kinds that change media or the map. -/
def writesKind (k : CmdKind) : Bool :=
  match k with
  | .write | .dealloc | .fusedPair | .copy => true
  | .admin | .read | .flush | .memory | .program | .resv | .unsupported => false

/-- An earlier overlapping write is not yet applied: writes apply in fetch order on every queue (R100, R101). -/
def waitsForWrite (x : Cmd) (s : State) : Bool :=
  s.nv.cmds.any (fun y => decide (y.order < x.order) && writesKind y.kind && y.result.isNone && overlaps x y s)

/-- An earlier read of the same queue has not yet looked up a common unit, or an earlier Copy of its namespace has not yet read its source
(R99, R100). -/
def waitsForRead (x : Cmd) (s : State) : Bool :=
  s.nv.cmds.any (fun y => decide (y.order < x.order) && y.result.isNone && y.ctrl == x.ctrl && y.sq == x.sq &&
    ((y.kind == .read && overlaps x y s && (iusOf x s).any (fun iu => (iusOf y s).contains iu && !y.looked.contains iu)) ||
      (y.kind == .copy && y.phase == .fetched && y.nsid == x.nsid)))

/-- On an ordered queue an earlier Flush holds a command until it completes (R103). -/
def heldByFlush (x : Cmd) (s : State) : Bool :=
  x.ordered && s.nv.cmds.any (fun y => y.ctrl == x.ctrl && y.sq == x.sq && y.kind == .flush && y.ordered && decide (y.order < x.order))

end Sys2Proof.Machine
end

