-- ==== Sys2Proof/Machine/ModeOps.lean ====
section
/-! DEFINITION. Entering a mode with its domains and clocks, and entering Read-Only (R59, R67, R70, R149). -/

namespace Sys2Proof.Machine

/-- A domain that PLL `n` feeds is powered and clocked (R70); in Idle-Shallow only management, DRAM refresh and what stays on with them
is clocked. PLL index 0 is PLL_CPU, 1 PLL_CTL, 2 PLL_FAB, 3 PLL_FLS, 4 PLL_DRAM. -/
def pllWanted (n : Nat) (s : State) : Bool :=
  let any (l : List Nat) : Bool := l.any (fun d => pdOn d s)
  let clocked := mode s != 6
  match n with
  | 0 => clocked && any [12, 13, 14, 15, 16, 17, 18, 19]
  | 1 => clocked && any [4, 5]
  | 2 => pdOn 1 s
  | 3 => clocked && any [27, 28, 29, 30]
  | _ => any [31, 32, 33, 34]

/-- PLL `n` starts or stops (R70, R80): running, locked, and the 100 µs its lock takes at a start. -/
def setPll (n : Nat) (on : Bool) (s : State) : State :=
  let b := if on then 1 else 0
  let s1 := s |> fset ⟨Reg.CLK_STATUS, 3 + n, 1⟩ b |> fset (Fl.CLK_PLL_CTRL_EN n) b |> fset (Fl.CLK_PLL_CTRL_LOCKED n) b
  if on && fget (Fl.CLK_PLL_CTRL_LOCKED n) s == 0 then fset (Fl.CLK_PLL_CTRL_LOCK_TIME n) 100 s1 else s1

/-- Every clock source runs while a domain that it feeds is on, and only then (R70). -/
def showClocks (s : State) : State :=
  forN (fun n t => setPll n (pllWanted n t) t) 5
    (s |> fset Fl.CLK_STATUS_REF25_OK (if pdOn 1 s then 1 else 0)
      |> fset Fl.CLK_STATUS_PCIE_REF_OK (if pdOn 8 s then 1 else 0)
      |> fset Fl.CLK_STATUS_NET_REF_OK (if pdOn 10 s || pdOn 11 s then 1 else 0))

/-- Domains switch on and off, and the clocks that feed them (R67, R70). -/
def setPower (mask : Nat) (s : State) : State := showClocks (setDomains mask s)

/-- Mode `m` is entered with its domains and clocks (R59, R67, R70). -/
def goMode (m : Nat) (s : State) : State := s |> enterMode m |> setPower (modeDomains m)

/-- A reset that waits for the end of the Commit in progress (R61, R73). -/
def waitCommit (r : LateReset) (s : State) : State := { s with pow := { s.pow with waitResets := s.pow.waitResets ++ [r] } }

/-! ### Status indication (R529) -/

/-- What a status output shows: off, on, or on and off in equal halves once or four times a second. -/
inductive Led where
  | off | on | hz1 | hz4
  deriving DecidableEq, Repr

/-- STATUS_LED0 and STATUS_LED1 (R529). -/
def statusLeds (s : State) : Led × Led :=
  match mode s with
  | 0x2 => if s.pow.faultWatch then (.off, .hz1) else (.hz1, .off)
  | 0x3 => (.hz4, .off)
  | 0x4 => (.on, .off)
  | 0x5 => (.on, .off)
  | 0x6 => (.on, .off)
  | 0x7 => (.on, .off)
  | 0x8 => (.off, .on)
  | 0x9 => (.on, .hz1)
  | 0xA => (.on, .on)
  | 0xB => (.on, .hz4)
  | _ => (.off, .off)

/-! ### ALERT_N and WAKE_N (R503, R526, R528) -/

/-- PERST_N or PWRDIS has a new filtered level: the time with PERST_N asserted and PWRDIS deasserted goes on, starts or ends. -/
def wakeTimer (s : State) : State :=
  { s with pow := { s.pow with wakeSince := if s.pow.perst && !s.pow.pwrdis then some (s.pow.wakeSince.getD s.tick) else none } }

/-- ALERT_N is asserted: a lane 0 postmark is unread and feature 0xC5 enables the alert (R503). -/
def alertN (s : State) : Bool := mode s != 0 && featureValue 0xC5 s / 256 % 2 == 1 && !s.pbk.unread.isEmpty

/-- WAKE_N is asserted: PERST_N has been for 100 ms with PWRDIS deasserted, and an asynchronous event or an unread lane 0 postmark awaits the
host (R528). -/
def wakeN (s : State) : Bool :=
  mode s != 0 && s.pow.wakeSince.any (fun t => decide (t + 100000 ≤ s.tick)) && (!s.nv.aens.isEmpty || !s.pbk.unread.isEmpty)

/-! ### Read-Only -/

/-- A Read-Only cause is recorded for good, with its postmark (R60, R504). -/
def recordReadOnlyCause (cause : Nat) (s : State) : State :=
  if fget Fl.AON_MODE_RO_CAUSE s ≠ 0 then s
  else s |> fset Fl.AON_MODE_RO_CAUSE cause |> postmark 0x0282 0x02 [cause]

/-- Commands that write and whose landing has not started complete with Namespace is Write Protected (R149). -/
def refuseUnstarted (s : State) : State :=
  forEach (fun x t => completeErr x.tag 0x20 t)
    (s.nv.cmds.filter (fun x => writesKind x.kind && x.result.isNone &&
      (match x.phase with
        | .held | .waitMap _ | .merging | .waitLanding => true
        | .fetched | .started | .waitJournal | .done => false))) s

/-- A recorded Read-Only cause acts now: in Serve, Serve-Capped and Sanitize outside a transition (R60, R61). A sanitize operation that
began in Read-Only runs to its end. -/
def readOnlyDue (s : State) : Bool :=
  fget Fl.AON_MODE_RO_CAUSE s != 0 && fget Fl.AON_MODE_TRANS s == 0 &&
    (mode s == 4 || mode s == 5 || (mode s == 9 && s.pow.sanFrom != 10))

/-- Read-Only is entered (R60, R149); critical warning bit 3 sets (R147). -/
def goReadOnly (s : State) : State := smartEvent 3 (refuseUnstarted (goMode 10 s))

/-- A sanitize operation that Read-Only ends has failed. DESIGN CHOICE (log entry 54): the manual gives the mode, not the status. -/
def failSanitize (s : State) : State :=
  if s.pow.sanPending then { s with nv := { s.nv with sanState := 3 }, pow := { s.pow with sanPending := false } } else s

/-- Read-Only is entered where its cause is recorded and may act (R60, R149). -/
def settleReadOnly (s : State) : State := if readOnlyDue s then goReadOnly (failSanitize s) else s

/-- A Read-Only cause is found: Serve, Serve-Capped and Sanitize give way at once, Rise at its end, Halt, idle, Commit and a transition
once they are left (R60, R61, R149). -/
def enterReadOnly (cause : Nat) (s : State) : State := settleReadOnly (recordReadOnlyCause cause s)

/-- Control cores not retired (R16). -/
def workingControlCores (s : State) : Nat :=
  ((List.range 12).filter (fun k => fget ⟨Reg.CTC_CORE_RETIRED, k, 1⟩ s == 0)).length

end Sys2Proof.Machine
end

