-- ==== Sys2Proof/Machine/SchOps.lean ====
section
/-! DEFINITION. The sorting office: submitting, dispatching and ending letters, routes, counters and delays; rows SUBMIT to
ENGINE_LETTER_END but those that run an engine (R349–R367). -/

namespace Sys2Proof.Machine

/-- The owner number of module firmware. -/
def schFirmware : Nat := 0x80

/-- The scheduler works: PD06 powered. -/
def schUp (s : State) : Bool := pdOn 6 s

/-- Changes the scheduler. -/
def updSch (f : Sch → Sch) (s : State) : State := { s with sch := f s.sch }

/-- Ordered-route mode is in effect. -/
def orderedMode (s : State) : Bool := fget Fl.SCH_CTRL_ORDERED_MODE s == 1

/-- A cluster is in service: powered and not retired (R301, R302). -/
def clusterServes (c : Nat) (s : State) : Bool := decide (c < 8) && pdOn (12 + c) s && fget (Fl.AXC_STATUS_STATE c) s != 3

/-- A cluster, as never faulted until something is recorded of it. -/
def clusAt (c : Nat) (s : State) : Clus := SMap.getD s.clus c Clus.fresh

/-- Changes a cluster. -/
def updClus (n : Nat) (f : Clus → Clus) (s : State) : State := { s with clus := SMap.put s.clus n (f (clusAt n s)) }

/-- A cluster takes letters: in service and in neither a reset nor a runtime update. -/
def clusterTakes (c : Nat) (s : State) : Bool :=
  clusterServes c s && fget (Fl.AXC_STATUS_STATE c) s == 1 && (clusAt c s).update == .none

/-! ### Letters -/

/-- A letter in flight, by identifier. -/
def letterAt (id : Nat) (s : State) : Option Letter := s.sch.letters.find? (fun l => l.id == id)

/-- Replaces a letter. -/
def setLetter (l : Letter) (s : State) : State :=
  updSch (fun z => { z with letters := z.letters.map (fun x => if x.id = l.id then l else x) }) s

/-- The handle of a letter. -/
def handleOf (l : Letter) : Nat := l.id + l.gen * 2 ^ 20

/-- The letter a handle names, while in flight. -/
def letterOf (h : Nat) (s : State) : Option Letter := s.sch.letters.find? (fun l => handleOf l == h)

/-- A letter no longer waits on its counter. -/
def ctrClear (l : Letter) (s : State) : Bool :=
  match l.waitCtr with
  | none => true
  | some (i, a) => match SMap.find s.sch.ctrs i with
    | some c => c.alloc != a || (c.value == 0 && !c.sat)
    | none => true

/-- State code of a letter in flight (R350). -/
def stateCode (l : Letter) (s : State) : Nat :=
  match l.state with
  | .held => if ctrClear l s then 2 else 1
  | .ready => 3
  | .running => 4
  | .suspended => 5

/-- Letters, routes, counters, delays and ready lists as the SCH registers show them (R367). -/
def showSch (s : State) : State :=
  let n := s.sch.letters.length
  let ready (t p : Nat) : Nat := Nat.min (s.sch.letters.filter (fun l => l.state == .ready && l.target == t && l.prio == p)).length 65535
  let dues := s.sch.letters.filterMap (fun l => if l.state = .held then l.due else none)
  let demand := s.sch.reads.filter (fun r => !r.pre)
  let s1 := s |> fset Fl.SCH_LETTERS_IN_USE n |> fset Fl.SCH_LETTERS_HWM (max n (fget Fl.SCH_LETTERS_HWM s))
    |> wr Reg.SCH_ROUTES (BitVec.ofNat 64 s.sch.routes.length) |> wr Reg.SCH_COUNTERS (BitVec.ofNat 64 s.sch.ctrs.length)
    |> fset Fl.SCH_PRD_STATUS_ENTRIES (Nat.min s.sch.reads.length 16384) |> fset Fl.SCH_PRD_STATUS_PRD (s.sch.reads.length - demand.length)
    |> wr Reg.SCH_WAKE_DUE (match dues with
      | [] => BitVec.allOnes 64
      | d :: t => BitVec.ofNat 64 (t.foldl min d))
    |> fset Fl.SCH_STATUS_ORDERED (if orderedMode s then 1 else 0)
  let s2 := forN (fun t u => forN (fun p v => fset (Fl.SCH_QDEPTH_PRIO t p) (ready t p) v) 4 u) 7 s1
  fset (Fl.SCH_QDEPTH_PRIO 7 0) (Nat.min (demand.filter (fun r => !r.sent)).length 65535) s2

/-! ### Signals and ends (R351–R355) -/

/-- An execution meets an event that ends it: reason, low half of dword 0, and S.FADDR and S.RPC for the log (R389, R390). The
first event counts. -/
def recordEnd (e reason low : Nat) (faddr pc : Word) (s : State) : State :=
  { s with prog := { s.prog with execs := SMap.upd s.prog.execs e (fun x =>
      if x.endWith.isSome then x else { x with endWith := some (reason, low), faddr := faddr, pcEnd := pc }) } }

/-- A letter of an execution has ended: it is counted, and its frame and saved state are free (R382, R389). -/
def execLetterEnded (l : Letter) (s : State) : State :=
  if l.owner = schFirmware then s
  else { s with prog := { s.prog with
      saved := SMap.del s.prog.saved l.id
      execs := SMap.upd s.prog.execs l.exec (fun x => { x with
        ended := x.ended + 1, inUse := x.inUse.filter (fun u => u.1 != l.id) }) } }

/-- Letters that waited on a counter now at 0 become ready, in submission order, unless still delayed. -/
def makeReady (id : Nat) (s : State) : State :=
  match letterAt id s with
  | none => s
  | some l =>
    if l.state = .held ∧ l.due = none ∧ ctrClear l s then
      updSch (fun z => { z with rseq := z.rseq + 1 }) (setLetter { l with state := .ready, readySeq := s.sch.rseq, readyTick := (rd Reg.SCH_TICK s).toNat } s)
    else s

/-- Every letter that may become ready does. -/
def releaseReady (s : State) : State := forEach makeReady (s.sch.letters.map (·.id)) s

/-- One decrement of counter `i` of allocation `a` (R355). -/
def decrement (i a : Nat) (s : State) : State :=
  match SMap.find s.sch.ctrs i with
  | none => s
  | some c =>
    if c.alloc ≠ a then s
    else if c.value = 0 then
      raiseEvent 0x0D 0 Fl.SCH_EVENT_CTR_UNDER (updSch (fun z => { z with ctrs := SMap.put z.ctrs i { c with under := true } }) s)
    else updSch (fun z => { z with ctrs := SMap.put z.ctrs i { c with value := c.value - 1 } }) s

/-- Held signals of a route are released in submission order once every earlier letter of the route has ended. -/
def releaseSignals : Nat → State → State
  | 0, s => s
  | n + 1, s =>
    match s.sch.signals.find? (fun g => s.sch.letters.all (fun l => l.route != g.1 || decide (g.2.1 < l.seq)) &&
        s.sch.signals.all (fun h => h.1 != g.1 || decide (g.2.1 ≤ h.2.1))) with
    | none => s
    | some g => releaseSignals n (decrement g.2.2.1 g.2.2.2 (updSch (fun z => { z with signals := z.signals.erase g }) s))

/-- A route being deleted is freed once its last letter has ended (R354). -/
def freeRoutes (s : State) : State :=
  updSch (fun z => { z with routes := z.routes.filter (fun e => !e.2.deleting || z.letters.any (fun l => l.route == e.1)) }) s

/-- A letter ends once: its status is kept for QUERY, its identifier joins the tail of the free list, its signal is
decremented or held for order (R350–R353). -/
def endLetter (id status : Nat) (s : State) : State :=
  match letterAt id s with
  | none => s
  | some l =>
    let s1 := updSch (fun z => { z with
      letters := z.letters.filter (fun x => x.id != id)
      freed := z.freed ++ [id]
      past := SMap.put z.past id (l.gen, status)
      lettersFull := false
      holds := z.holds.filter (fun e => e.2 != id)
      reads := z.reads.map (fun r => { r with letters := r.letters.filter (· != id) }) }) s
    let ord := l.kind == 3 || (match l.state with
      | .running | .suspended => l.ordered
      | .held | .ready => orderedMode s)
    let s2 := match l.sigCtr with
      | none => s1
      | some (i, a) => if ord then updSch (fun z => { z with signals := z.signals ++ [(l.route, l.seq, i, a)] }) s1 else decrement i a s1
    let s3 := execLetterEnded l (releaseSignals (s2.sch.signals.length + 1) s2)
    showSch (releaseReady (freeRoutes s3))

/-- Ends several letters. -/
def endLetters (ids : List Nat) (status : Nat) (s : State) : State := forEach (fun i t => endLetter i status t) ids s

/-- A compute letter whose mask has no cluster in service ends with status 0x85 (R358). -/
def endStranded (s : State) : State :=
  let bad := s.sch.letters.filter (fun l => l.target == 0 && l.state == .ready &&
    !((List.range 8).any (fun c => l.clusters / 2 ^ c % 2 == 1 && clusterServes c s)))
  forEach (fun (l : Letter) t =>
    let t1 := raiseEvent 0x0D 0 Fl.SCH_EVENT_NO_TARGET (endLetter l.id 0x85 t)
    if l.owner = schFirmware then t1 else recordEnd l.exec 8 0 0 0 t1) bad s

/-- What follows from any change. -/
def settleSch (s : State) : State := showSch (endStranded (releaseReady s))

/-! ### Ports (R367) -/

/-- The requester that owns a port. -/
def portOwner (p : Nat) : Nat := if p < 64 then 0x40 + p else p - 64

/-- The agent may use the port's page: its own core, control firmware, management firmware or the debug link. -/
def portAllows (p req : Nat) : Bool := decide (p < 76) && (req == portOwner p || decide (req ≤ 0x0B) || req == 0x10 || req == 0x11)

/-- The letter a port's core holds. -/
def heldBy (p : Nat) (s : State) : Option Letter := (SMap.find s.sch.holds p).bind (fun id => letterAt id s)

/-- Whose behalf a port acts on: none for a compute port without a letter; control ports act for firmware. -/
def portActor (p : Nat) (s : State) : Option (Nat × Nat × Bool) :=
  if 64 ≤ p then some (schFirmware, 0, true) else (heldBy p s).map (fun l => (l.owner, l.exec, false))

/-- The actor owns what belongs to `owner` and `exec`; control cores own everything. -/
def actorOwns (a : Nat × Nat × Bool) (owner exec : Nat) : Bool := a.2.2 || (a.1 == owner && a.2.1 == exec)

/-! ### Submission (R349, R366) -/

/-- A submitted record. -/
structure SubRec where
  route : Nat
  prio : Nat
  target : Nat
  waitEn : Bool
  sigEn : Bool
  waitCtr : Nat
  sigCtr : Nat
  delay : Nat
  reserved : Bool
  deriving DecidableEq, Repr

/-- Decodes D0 and D1. -/
def subRecOf (d0 d1 : Word) : SubRec :=
  ⟨extractField d0 0 18, extractField d0 18 2, extractField d0 20 4, d0.getLsbD 24, d0.getLsbD 25, extractField d0 32 16, extractField d0 48 16,
    extractField d1 0 32, extractField d0 26 6 != 0 || extractField d1 32 32 != 0⟩

/-- Letters tenants may not take. -/
def fwReserve (s : State) : Nat := 1024 * fget Fl.SCH_CFG_FW_RESERVE s

/-- Every refusal that applies to a submission by an actor. -/
def refusals (a : Option (Nat × Nat × Bool)) (r : SubRec) (s : State) : List Nat :=
  match a with
  | none => [3]
  | some a =>
    let rt := SMap.find s.sch.routes r.route
    let ctr (i : Nat) : Bool := match SMap.find s.sch.ctrs i with
      | some c => actorOwns a c.owner c.exec
      | none => false
    let tenant := match rt with
      | some x => x.owner != schFirmware
      | none => false
    let n := s.sch.letters.length
    (if n ≥ 1048576 ∨ (tenant = true ∧ n ≥ 1048576 - fwReserve s) then [1] else []) ++
    (if tenant && (match rt with
        | some x => decide ((resOf x.owner s).letters * 1024 ≤ (s.sch.letters.filter (fun l => l.owner == x.owner)).length)
        | none => false) then [2] else []) ++
    (match rt with
      | some x => if x.deleting ∨ actorOwns a x.owner x.exec = false then [3] else []
      | none => [3]) ++
    (if r.reserved ∨ 7 ≤ r.target ∨ (a.2.2 = false ∧ r.target = 1) then [4] else []) ++
    (if r.waitEn ∧ ctr r.waitCtr = false then [5] else []) ++
    (if r.sigEn ∧ ctr r.sigCtr = false then [6] else []) ++
    (if r.waitEn && (SMap.find s.sch.ctrs r.waitCtr).any (·.sat) then [7] else [])

/-- A counter with its allocation. -/
def ctrRef (en : Bool) (i : Nat) (s : State) : Option (Nat × Nat) :=
  if en then (SMap.find s.sch.ctrs i).map (fun c => (i, c.alloc)) else none

/-- A letter enters: the next identifier of the free list, with a new generation. -/
def enterLetter (r : SubRec) (x : Route) (d0 d1 arg0 arg1 : Word) (s : State) : Nat × State :=
  let fresh := decide (s.sch.nextId < 1048576)
  let id := if fresh then s.sch.nextId else s.sch.freed.headD 0
  let gen := match SMap.find s.sch.past id with
    | some p => if p.1 = 4095 then 1 else p.1 + 1
    | none => 1
  let tick := (rd Reg.SCH_TICK s).toNat
  let l : Letter :=
    { id := id, gen := gen, route := r.route, kind := x.kind, owner := x.owner, exec := x.exec, clusters := x.clusters
      prio := r.prio, target := r.target, waitCtr := ctrRef r.waitEn r.waitCtr s, sigCtr := ctrRef r.sigEn r.sigCtr s
      due := if r.delay = 0 then none else some (tick + r.delay)
      arg0 := arg0, arg1 := arg1, d0 := d0, d1 := d1, state := .held, seq := s.sch.seq, readySeq := 0, readyTick := 0
      ordered := false, port := none }
  (handleOf l, settleSch (updSch (fun z => { z with
    letters := z.letters ++ [l]
    nextId := if fresh then z.nextId + 1 else z.nextId
    freed := if fresh then z.freed else z.freed.drop 1
    seq := z.seq + 1 }) s))

/-! ### Pigeonholes (R26) -/

/-- Route of the letters that pigeonholes raise: they have no route record. DESIGN CHOICE (log entry 60). -/
def pigeonRoute : Nat := 2 ^ 18

/-- A tail doorbell lands in the pigeonhole of its queue, which raises a work letter to the control cores unless one waits (R26). -/
def raisePigeon (c q : Nat) (s : State) : State :=
  if s.nv.pigeon.contains (c, q) then s
  else
    let s1 := { s with nv := { s.nv with pigeon := s.nv.pigeon ++ [(c, q)] } }
    if schUp s && decide (s.sch.letters.length < 1048576) then
      (enterLetter ⟨pigeonRoute, 0, 1, false, false, 0, 0, 0, false⟩ ⟨1, schFirmware, 0, 0, false⟩ 0x100000 0 (BitVec.ofNat 64 c) (BitVec.ofNat 64 q) s1).2
    else s1

/-- Pigeonholes that `p` picks are served: their letters end, but for one that a core runs, which ends with the core's DONE. -/
def servePigeon (p : Nat × Nat → Bool) (s : State) : State :=
  let gone := s.nv.pigeon.filter p
  let mine (l : Letter) : Bool := l.route == pigeonRoute && l.state != .running &&
    gone.any (fun g => l.arg0 == BitVec.ofNat 64 g.1 && l.arg1 == BitVec.ofNat 64 g.2)
  if gone.isEmpty then s
  else endLetters ((s.sch.letters.filter mine).map (·.id)) 0 { s with nv := { s.nv with pigeon := s.nv.pigeon.filter (fun g => !p g) } }

/-- A submission: the value SUBMIT reads as. Where several refusals apply the manual does not say which is given. -/
def submitLetter (a : Option (Nat × Nat × Bool)) (d0 d1 arg0 arg1 : Word) (s : State) : Nat × State :=
  let r := subRecOf d0 d1
  match refusals a r s with
  | [] =>
    match SMap.find s.sch.routes r.route with
    | some x => enterLetter r x d0 d1 arg0 arg1 s
    | none => (3 * 2 ^ 32, s)
  | c :: t =>
    let code := if t.isEmpty then c else (c :: t).getD (freeNat 64 s % (t.length + 1)) c
    let s1 := if t.isEmpty then s else useFree s
    if code = 1 ∧ s.sch.lettersFull = false then
      (2 ^ 32, raiseEvent 0x0D 0 Fl.SCH_EVENT_LETTERS_FULL (updSch (fun z => { z with lettersFull := true }) s1))
    else (code * 2 ^ 32, s1)

/-- A port access by an agent that may not: bus error (R367). -/
def portError (p off req size : Nat) (s : State) : State := busError (Reg.SCH_SUBMIT_D p 0 + off) req size s

/-- SUBMIT of port `p`. -/
def portSubmit (p : Nat) (s : State) : Word × State :=
  let d (j : Nat) : Word := rd (Reg.SCH_SUBMIT_D p j) s
  let r := submitLetter (portActor p s) (d 0) (d 1) (d 2) (d 3) s
  let v := BitVec.ofNat 64 r.1
  (v, wr (Reg.SCH_SUBMIT p) v r.2)

/-! ### Dispatch to cores (R358, R359) -/

/-- A route lets one more of its letters run: atomic routes, and every route in ordered-route mode, one at a time. -/
def routeFree (l : Letter) (s : State) : Bool :=
  !(l.kind == 2 || orderedMode s) || s.sch.letters.all (fun x => x.route != l.route || (x.state != .running && x.state != .suspended))

/-- Thermal level 3 holds back compute letters, and a power cap may leave a cluster fewer cores to dispatch to (R463, R464). -/
def clusterUncapped (c : Nat) (s : State) : Bool :=
  fget Fl.MGT_THERM_LEVEL s != 3 &&
    decide ((s.sch.letters.filter (fun x => x.state == .running && x.port.any (fun q => q / 8 == c))).length < s.mgt.capCores)

/-- In ordered-route mode letters leave one module-wide queue in the order in which they became ready (R353): only its first may go, those that
brace holds apart (R365). -/
def inTurn (l : Letter) (s : State) : Bool :=
  !orderedMode s || s.sch.letters.all (fun x => x.state != .ready || decide (l.readySeq ≤ x.readySeq) ||
    (decide (5 ≤ x.target) && fget Fl.SCH_STATUS_BRACE_HOLD s == 1))

/-- Letter `l` may go to the core of port `p`. -/
def suits (p : Nat) (l : Letter) (s : State) : Bool :=
  l.state == .ready && routeFree l s && inTurn l s &&
  (if p < 64 then l.target == 0 && l.clusters / 2 ^ (p / 8) % 2 == 1 && clusterTakes (p / 8) s && clusterUncapped (p / 8) s
    else l.target == 1)

/-- A is served before b among ready letters of one route. -/
def earlier (a b : Letter) : Bool := decide (a.readySeq < b.readySeq)

/-- The earliest of some letters. -/
def firstLetter : List Letter → Option Letter
  | [] => none
  | l :: t => match firstLetter t with
    | none => some l
    | some m => if earlier m l then some m else some l

/-- The letter a core gets: in ordered-route mode the first that became ready; otherwise firmware before tenants, lower PRIO
first, function `fn` where the deficit round robin on core time gives it the turn, routes in turn. -/
def pickLetter (p fn : Nat) (s : State) : Option Letter :=
  let ls := s.sch.letters.filter (fun l => suits p l s)
  if orderedMode s then firstLetter ls
  else
    let fw := ls.filter (fun l => l.owner == schFirmware)
    let g := if fw.isEmpty then ls else fw
    let pr := (List.range 4).find? (fun k => g.any (fun l => l.prio == k))
    let g2 := g.filter (fun l => some l.prio == pr)
    let g3 := if g2.any (fun l => l.owner == fn) then g2.filter (fun l => l.owner == fn)
      else g2.filter (fun l => some l.owner == g2.head?.map (·.owner))
    match g3.head? with
    | none => none
    | some h =>
      let last := SMap.getD s.sch.lastRoute h.owner 0
      let rs := (g3.map (·.route)).dedup
      let nexts := rs.filter (fun r => decide (last < r))
      let r := if nexts.isEmpty then rs.foldl min (rs.headD 0) else nexts.foldl min (nexts.headD 0)
      firstLetter (g3.filter (fun l => l.route == r))

/-- Histogram bucket of a wait in nanoseconds. -/
def histBucket (ns : Nat) : Nat := if ns < 128 then 0 else Nat.min (Nat.log2 ns - 6) 15

/-- A letter is dispatched: running, its waiting time counted. -/
def dispatched (l : Letter) (ns : Nat) (s : State) : State :=
  setLetter { l with state := .running, ordered := orderedMode s } s
    |> updSch (fun z => { z with lastRoute := SMap.put z.lastRoute l.owner l.route })
    |> cntAdd (Reg.SCH_HIST l.target (histBucket ns)) 32 1

/-- TAKE of port `p`: the letter held, or an offered one. -/
def portTake (p fn ns : Nat) (s : State) : Word × State :=
  match heldBy p s with
  | some l => (BitVec.ofNat 64 (handleOf l), s)
  | none =>
    match (if s.sch.offered.contains p then pickLetter p fn s else none) with
    | none => (0, wr (Reg.SCH_TAKE p) 0 (updSch (fun z => { z with offered := z.offered.filter (· != p) }) s))
    | some l =>
      let v := BitVec.ofNat 64 (handleOf l)
      let s1 := dispatched l ns s
      let s2 := setLetter { l with state := .running, ordered := orderedMode s, port := some p } s1
      let s3 := updSch (fun z => { z with holds := SMap.put z.holds p l.id, offered := z.offered.filter (· != p) }) s2
      (v, s3 |> wr (Reg.SCH_TAKE p) v |> wr (Reg.SCH_TAKE_D p 0) l.d0 |> wr (Reg.SCH_TAKE_D p 1) l.d1
        |> wr (Reg.SCH_TAKE_D p 2) l.arg0 |> wr (Reg.SCH_TAKE_D p 3) l.arg1 |> cntAdd (Reg.SCH_PORT_TAKEN p) 64 1 |> showSch)

/-- Row LETTER_OFFER (R359): LETTER is set for an idle core for which a ready letter waits. -/
def execLetterOffer (p : Nat) (s : State) : Out :=
  if schUp s ∧ p < 76 ∧ (heldBy p s).isNone ∧ s.sch.letters.any (fun l => suits p l s) ∧ s.sch.offered.contains p = false then
    .next (updSch (fun z => { z with offered := z.offered ++ [p] }) s)
  else .next s

/-- LETTER of a port's pending register: a ready letter is offered to its core (R339, R359). -/
def letterPending (p : Nat) (s : State) : Bool := s.sch.offered.contains p && s.sch.letters.any (fun l => suits p l s)

/-- DONE of port `p` (R351): statuses from 0x80 end the letter with 0x7F; without a letter it is ignored. -/
def portDone (p st req : Nat) (s : State) : State :=
  match heldBy p s with
  | none => writeIgnored (Reg.SCH_DONE p) req st s
  | some l => endLetter l.id (if 0x80 ≤ st % 256 then 0x7F else st % 256) s

/-! ### QUERY, CANCEL and counters (R349, R355, R364) -/

/-- The value QUERY reads as for a handle. -/
def queryValue (h : Nat) (s : State) : Nat :=
  match letterOf h s with
  | some l => stateCode l s
  | none => match SMap.find s.sch.past (h % 2 ^ 20) with
    | some p => if p.1 = h / 2 ^ 20 ∧ s.sch.letters.all (fun l => l.id != h % 2 ^ 20) then 6 + 256 * p.2 else 0
    | none => 0

/-- QUERY of port `p`. -/
def portQuery (p : Nat) (s : State) : Word × State :=
  let v := BitVec.ofNat 64 (queryValue (fget (Fl.SCH_ARG_VALUE p) s) s)
  (v, wr (Reg.SCH_QUERY p) v s)

/-- The cancellation of a letter by an actor (R364): what CANCEL reads as. -/
def cancelLetter (a : Option (Nat × Nat × Bool)) (h : Nat) (s : State) : Nat × State :=
  match letterOf h s with
  | none => (2, s)
  | some l =>
    match a with
    | none => (3, s)
    | some a =>
      if actorOwns a l.owner l.exec = false then (3, s)
      else if l.state = .running ∨ l.state = .suspended then (1, s)
      else (0, endLetter l.id 0x80 s)

/-- CANCEL of port `p`. -/
def portCancel (p : Nat) (s : State) : Word × State :=
  let r := cancelLetter (portActor p s) (fget (Fl.SCH_ARG_VALUE p) s) s
  (BitVec.ofNat 64 r.1, wr (Reg.SCH_CANCEL p) (BitVec.ofNat 64 r.1) r.2)

/-- The value CTR reads as: index or value, status, flags. -/
def ctrWord (v st : Nat) (c : Option DepCtr) : Nat :=
  v + st * 65536 + (if c.any (·.sat) then 2 ^ 24 else 0) + (if c.any (·.under) then 2 ^ 25 else 0)

/-- Letters waiting on a counter. -/
def waitersOf (i a : Nat) (s : State) : List Nat :=
  (s.sch.letters.filter (fun l => l.state == .held && l.waitCtr == some (i, a))).map (·.id)

/-- Puts a counter back. -/
def putCtr (i : Nat) (c : DepCtr) (s : State) : State := updSch (fun z => { z with ctrs := SMap.put z.ctrs i c }) s

/-- Allocates a counter for an actor. -/
def ctrAllocate (a : Nat × Nat × Bool) (v : Nat) (s : State) : Nat × State :=
  match (List.range 65536).find? (fun i => (SMap.find s.sch.ctrs i).isNone) with
  | none => (ctrWord 0 1 none, raiseEvent 0x0D 0 Fl.SCH_EVENT_COUNTERS_FULL s)
  | some i =>
    let c : DepCtr := ⟨v, false, false, s.sch.nextAlloc, a.1, a.2.1⟩
    (ctrWord i 0 none, updSch (fun z => { z with nextAlloc := z.nextAlloc + 1 }) (putCtr i c s))

/-- ADD, SET, read and FREE on a counter an actor owns. -/
def ctrChange (op i v : Nat) (c : DepCtr) (s : State) : Nat × State :=
  match op with
  | 2 =>
    if 65535 < c.value + v then
      let c' := { c with value := 65535, sat := true }
      (ctrWord 65535 3 (some c'), endLetters (waitersOf i c.alloc s) 0x83 (raiseEvent 0x0D 0 Fl.SCH_EVENT_CTR_SAT (putCtr i c' s)))
    else
      let c' := { c with value := c.value + v }
      (ctrWord c'.value (if c.sat then 3 else 0) (some c'), putCtr i c' s)
  | 3 =>
    let c' := { c with value := v, sat := false, under := false }
    (ctrWord v 0 (some c'), putCtr i c' s)
  | 4 => (ctrWord c.value 0 (some c), s)
  | _ => (ctrWord 0 0 none, updSch (fun z => { z with ctrs := SMap.del z.ctrs i }) (endLetters (waitersOf i c.alloc s) 0x83 s))

/-- CTR of port `p`, with the operation `op` of ARG. -/
def portCtr (p op : Nat) (s : State) : Word × State :=
  let arg := fget (Fl.SCH_ARG_VALUE p) s
  let r : Nat × State :=
    match portActor p s with
    | none => (ctrWord 0 2 none, s)
    | some a =>
      if op = 1 then ctrAllocate a (arg / 65536) s
      else if op = 0 ∨ 6 ≤ op then (ctrWord 0 2 none, s)
      else match SMap.find s.sch.ctrs (arg % 65536) with
        | none => (ctrWord 0 2 none, s)
        | some c => if actorOwns a c.owner c.exec then ctrChange op (arg % 65536) (arg / 65536) c s else (ctrWord 0 2 none, s)
  (BitVec.ofNat 64 r.1, wr (Reg.SCH_CTR p) (BitVec.ofNat 64 r.1) (settleSch r.2))

/-! ### Routes (R352, R354, R364, R367) -/

/-- RESULT of ROUTE_CMD. -/
def routeResult (r : Nat) (s : State) : State := fset Fl.SCH_ROUTE_CMD_RESULT r s

/-- ROUTE_DATA of a route. -/
def showRoute (i : Nat) (x : Route) (s : State) : State :=
  let locked := (x.kind == 2 || orderedMode s) && s.sch.letters.any (fun l => l.route == i && (l.state == .running || l.state == .suspended))
  s |> fset Fl.SCH_ROUTE_DATA_KIND x.kind |> fset Fl.SCH_ROUTE_DATA_OWNER x.owner |> fset Fl.SCH_ROUTE_DATA_EXEC x.exec
    |> fset Fl.SCH_ROUTE_DATA_CLUSTERS x.clusters |> fset Fl.SCH_ROUTE_DATA_LOCKED (if locked then 1 else 0)

/-- Creates a route at an index, or at any free one: RESULT and the index. -/
def createRoute (any : Bool) (i : Nat) (x : Route) (s : State) : Nat × Nat × State :=
  if x.kind = 0 ∨ (127 < x.owner ∧ x.owner ≠ schFirmware) then (3, i, s)
  else if any then
    match (List.range 262144).find? (fun k => (SMap.find s.sch.routes k).isNone) with
    | none => (1, i, raiseEvent 0x0D 0 Fl.SCH_EVENT_ROUTES_FULL s)
    | some k => (0, k, updSch (fun z => { z with routes := SMap.put z.routes k x }) s)
  else if (SMap.find s.sch.routes i).isSome then (2, i, s)
  else (0, i, updSch (fun z => { z with routes := SMap.put z.routes i x }) s)

/-- Deletes a route (R354). -/
def deleteRoute (i : Nat) (s : State) : State :=
  match SMap.find s.sch.routes i with
  | none => s
  | some x =>
    let s1 := updSch (fun z => { z with routes := SMap.put z.routes i { x with deleting := true } }) s
    freeRoutes (endLetters ((s1.sch.letters.filter (fun l => l.route == i && (l.state == .held || l.state == .ready))).map (·.id)) 0x81 s1)

/-- END_OWNER (R364): every letter not running of an execution ends with status 0x82, its counters and routes are freed,
the read entries of its suspended letters are released unless shared. Its pre-reads are cancelled beforehand. -/
def endOwner (owner exec : Nat) (s : State) : State :=
  let mine (l : Letter) : Bool := l.owner == owner && l.exec == exec
  let ids := (s.sch.letters.filter (fun l => mine l && l.state != .running)).map (·.id)
  let s1 := endLetters ids 0x82 s
  let held := (s.sch.reads.filter (fun r => !r.letters.isEmpty)).map (·.handle)
  settleSch (updSch (fun z => { z with
    routes := z.routes.filter (fun e => !(e.2.owner == owner && e.2.exec == exec))
    ctrs := z.ctrs.filter (fun e => !(e.2.owner == owner && e.2.exec == exec))
    reads := z.reads.filter (fun r => r.pre || !r.letters.isEmpty || !held.contains r.handle) }) s1)

/-- ROUTE_CMD (R367). Control firmware, management firmware and the debug link reach it. -/
def routeCmd (op req : Nat) (s : State) : State :=
  let i := fget Fl.SCH_ROUTE_SEL_ROUTE s
  let x : Route := ⟨fget Fl.SCH_ROUTE_DATA_KIND s, fget Fl.SCH_ROUTE_DATA_OWNER s, fget Fl.SCH_ROUTE_DATA_EXEC s, fget Fl.SCH_ROUTE_DATA_CLUSTERS s, false⟩
  if ¬ (schUp s ∧ (req ≤ 0x0B ∨ req = 0x10 ∨ req = 0x11)) then busError Reg.SCH_ROUTE_CMD req 4 s
  else match op with
    | 1 => match SMap.find s.sch.routes i with
      | some y => routeResult 0 (showRoute i y s)
      | none => routeResult 2 (fset Fl.SCH_ROUTE_DATA_KIND 0 s)
    | 2 =>
      let r := createRoute (fget Fl.SCH_ROUTE_SEL_ANY s == 1) i x s
      showSch (routeResult r.1 (fset Fl.SCH_ROUTE_SEL_ROUTE r.2.1 r.2.2))
    | 3 => match SMap.find s.sch.routes i with
      | some _ => showSch (routeResult 0 (deleteRoute i s))
      | none => routeResult 2 s
    | 4 => routeResult 0 (endOwner x.owner x.exec s)
    | 5 => match SMap.find s.sch.routes i with
      | some y => settleSch (routeResult 0 (updSch (fun z => { z with
          routes := SMap.put z.routes i { y with clusters := x.clusters }
          letters := z.letters.map (fun l => if l.route = i then { l with clusters := x.clusters } else l) }) s))
      | none => routeResult 2 s
    | _ => s

/-- Row ROUTE_READ. -/
def execRouteRead (req : Nat) (s : State) : Out := .next (routeCmd 1 req s)
/-- Row ROUTE_CREATE. -/
def execRouteCreate (req : Nat) (s : State) : Out := .next (routeCmd 2 req s)
/-- Row ROUTE_DELETE. -/
def execRouteDelete (req : Nat) (s : State) : Out := .next (routeCmd 3 req s)
/-- Row ROUTE_SET_CLUSTERS. -/
def execRouteSetClusters (req : Nat) (s : State) : Out := .next (routeCmd 5 req s)

/-- CTRL.ORDERED_MODE is written (R353). -/
def setOrdered (b : Nat) (s : State) : State := showSch (fset Fl.SCH_CTRL_ORDERED_MODE (b % 2) s)

/-- Row ORDERED_MODE_WRITE. -/
def execOrderedModeWrite (b req : Nat) (s : State) : Out :=
  if schUp s ∧ (req ≤ 0x0B ∨ req = 0x10 ∨ req = 0x11) then .next (setOrdered b s) else .next (busError Reg.SCH_CTRL req 4 s)

/-! ### Delays, aging and the tick (R356–R358) -/

/-- A letter falls due before another: earlier due tick, then earlier submission. -/
def dueFirst : List Letter → Option Letter
  | [] => none
  | l :: t => match dueFirst t with
    | none => some l
    | some m => if m.due.getD 0 < l.due.getD 0 then some m else some l

/-- Row LETTER_DUE (R356): the earliest due letter leaves its delay list; at most 512 in one tick. -/
def execLetterDue (s : State) : Out :=
  let tick := (rd Reg.SCH_TICK s).toNat
  match dueFirst (s.sch.letters.filter (fun l => l.state == .held && l.due.any (fun d => decide (d ≤ tick)))) with
  | none => .next s
  | some l =>
    if ¬ schUp s ∨ fget Fl.SCH_STATUS_FROZEN s = 1 then .next s
    else if s.sch.dueNow < 512 then
      .next (settleSch (updSch (fun z => { z with dueNow := z.dueNow + 1 }) (setLetter { l with due := none } s)))
    else if s.sch.burst then .next s
    else .next (raiseEvent 0x0D 0 Fl.SCH_EVENT_DELAY_BURST (updSch (fun z => { z with burst := true }) s))

/-- Row LETTER_AGING (R358). -/
def execLetterAging (id : Nat) (s : State) : Out :=
  let age := fget Fl.SCH_CFG_AGE_US s
  let tick := (rd Reg.SCH_TICK s).toNat
  match letterAt id s with
  | none => .next s
  | some l =>
    if schUp s ∧ age ≠ 0 ∧ l.state = .ready ∧ 0 < l.prio ∧ age < tick - l.readyTick then
      .next (showSch (setLetter { l with prio := l.prio - 1, readyTick := tick } s))
    else .next s

/-- One microsecond of the scheduler: the tick advances and ports that hold a letter count it. -/
def schTick (s : State) : State :=
  if schUp s = true ∧ fget Fl.SCH_STATUS_FROZEN s = 0 ∧ mode s ≠ 6 then
    let s1 := wr Reg.SCH_TICK (rd Reg.SCH_TICK s + 1) s
    let s2 := forEach (fun e t => cntAdd (Reg.SCH_PORT_BUSY e.1) 64 1 t) s1.sch.holds s1
    updSch (fun z => { z with dueNow := 0, burst := false }) s2
  else s

/-! ### Resets and modes (R365) -/

/-- The scheduler returns to its reset state. -/
def schReset (s : State) : State := showSch ({ s with sch := Sch.reset })

/-- Targets 5 and 6 are held during brace (R365). -/
def schBrace (s : State) : State := showSch (fset Fl.SCH_STATUS_BRACE_HOLD 1 s)

/-- Held letters go on after a recovery. -/
def schRecover (s : State) : State := fset Fl.SCH_STATUS_BRACE_HOLD 0 s

end Sys2Proof.Machine
end

