-- ==== Sys2Proof/Machine/CoreBase.lean ====
section
/-! DEFINITION. Axgal cores: registers, system registers, taking a trap and returning from one, halting (R307, R317,
R331–R339, R508–R511). -/

namespace Sys2Proof.Machine

/-! ### Cores (R348, R508) -/

/-- Cores 0–63 are compute cores, 64–75 control cores, 76 the management core. -/
def isCompute (k : Nat) : Bool := decide (k < 64)

/-- A control core. -/
def isControl (k : Nat) : Bool := decide (64 ≤ k) && decide (k < 76)

/-- A core, in its reset state until something changes it. -/
def coreAt (k : Nat) (s : State) : Core := SMap.getD s.cores k Core.fresh

/-- Power, clocks, service and reset of the unit a core belongs to allow it to run (R67, R81, R301): in Idle-Shallow the clocks of
clusters and control cores are stopped. -/
def coreUp (k : Nat) (s : State) : Bool :=
  if k < 64 then pdOn (12 + k / 8) s && mode s != 6 && fget (Fl.AXC_STATUS_STATE (k / 8)) s == 1
  else if k < 76 then pdOn (if k < 70 then 4 else 5) s && mode s != 6 && fget ⟨Reg.CTC_CORE_RETIRED, k - 64, 1⟩ s == 0
  else k == 76 && pdOn 1 s

/-- The core is halted by the debug link. -/
def coreHalted (k : Nat) (s : State) : Bool := fget (Fl.DBG_CORE_DSTATUS_HALTED k) s == 1

/-- The port of a core, and the letter it holds. -/
def letterHeld (k : Nat) (s : State) : Option Letter := if k < 76 then heldBy k s else none

/-- The core has an execution's letter in hand: the execution. -/
def execOfCore (k : Nat) (s : State) : Option Nat :=
  match letterHeld k s with
  | some l => if l.owner == schFirmware then none else some l.exec
  | none => none

/-- Halted cores as the three HALTED words show them, core state as CORE_STATUS, CTC.CORE_STATUS and DBG show it
(R81, R306, R513). -/
def showCore (k : Nat) (s : State) : State :=
  let c := coreAt k s
  let h := coreHalted k s
  let s1 :=
    if k < 64 then
      let n := k / 8
      let i := k % 8
      let up := pdOn (12 + n) s
      let st := if !up then 0 else if h then 3 else if (letterHeld k s).isSome then 1 else 2
      s |> fset (Fl.AXC_CORE_STATUS_STATE n i) st |> fset (Fl.AXC_CORE_STATUS_RUNAHEAD n i) (if c.ahead.isSome then 1 else 0)
        |> fset (Fl.AXC_CORE_STATUS_PRIV n i) (if c.lvl = 0 then 0 else 1)
        |> fset ⟨Reg.AXC_STATUS n, 2 + i, 1⟩ (if st = 1 then 1 else 0)
        |> fset ⟨Reg.AXC_STATUS n, 10 + i, 1⟩ (if c.ahead.isSome then 1 else 0)
    else if k < 76 then
      let j := k - 64
      fset (Fl.CTC_CORE_STATUS_CORE j)
        (if fget ⟨Reg.CTC_CORE_RETIRED, j, 1⟩ s = 1 then 3 else if pdOn (if j < 6 then 4 else 5) s = false then 0 else if h then 2 else 1) s
    else s
  let w := if k < 32 then Reg.DBG_HALTED_LO else if k < 64 then Reg.DBG_HALTED_MID else Reg.DBG_HALTED_HI
  s1 |> fset ⟨w, k % 32, 1⟩ (if h then 1 else 0)
    |> fset (Fl.DBG_CORE_DSTATUS_LETTER k) (if (letterHeld k s).isSome then 1 else 0)

/-- Replaces a core. -/
def setCore (k : Nat) (c : Core) (s : State) : State := showCore k { s with cores := SMap.put s.cores k c }

/-- Returns a core to its reset state (R74, R331). -/
def coreReset (k : Nat) (s : State) : State := showCore k { s with cores := SMap.del s.cores k }

/-- The core executes instructions now: up, not halted, locked, in IDLE, or in run-ahead. -/
def coreRuns (k : Nat) (s : State) : Bool :=
  coreUp k s && !coreHalted k s && !(coreAt k s).locked && !(coreAt k s).idle && (coreAt k s).ahead.isNone

/-! ### General and vector registers (R307, R342) -/

/-- General register `r`; g0 reads as zero. -/
def gr (k r : Nat) (s : State) : Word := if r = 0 then 0 else SMap.getD (coreAt k s).g r 0

/-- Writes general register `r`; a write of g0 is discarded. -/
def setG (k r : Nat) (v : Word) (s : State) : State :=
  if r = 0 then s else { s with cores := SMap.put s.cores k { coreAt k s with g := SMap.put (coreAt k s).g r v } }

/-- Vector register `r`. -/
def vr (k r : Nat) (s : State) : BitVec 256 := SMap.getD (coreAt k s).v r 0

/-- Sets the program counter. -/
def setPc (k : Nat) (v : Word) (s : State) : State := { s with cores := SMap.put s.cores k { coreAt k s with pc := v } }

/-! ### System registers (R317, R333, R339, R340, R341) -/

/-- Offset of the trap set of a level within the register numbers. -/
def trapBase (lvl : Nat) : Nat := if lvl = 1 then 0x40 else 0x80

/-- The register number exists on the core. -/
def sysExists (k n : Nat) : Bool :=
  decide (n ≤ 5) || (isCompute k && decide (0x40 ≤ n) && decide (n ≤ 0x4B)) ||
    (decide (0x80 ≤ n) && decide (n ≤ 0x8B) && n != 0x88) || (isCompute k && decide (0xC0 ≤ n) && decide (n ≤ 0xC7))

/-- The lowest level that reaches a register. -/
def sysLevel (n : Nat) : Nat := if n < 0x40 then 0 else if n < 0x80 then 1 else 2

/-- Read-only registers: CCOUNT, ICOUNT, CORE_ID and ISAVER. -/
def sysReadOnly (n : Nat) : Bool := decide (n ≤ 3)

/-- CORE_ID. -/
def coreId (k : Nat) : Word :=
  if k < 64 then BitVec.ofNat 64 (k % 8 + k / 8 * 8)
  else if k < 76 then BitVec.ofNat 64 ((k - 64) % 8 + (if k < 72 then 8 else 9) * 8 + 128)
  else BitVec.ofNat 64 (15 * 8 + 256)

/-- ISAVER (R348). -/
def isaver (k : Nat) : Word := if k < 64 then 0x1F01 else if k < 76 then 0x901 else 0x1

/-- Reset value of a system register. -/
def sysReset (n : Nat) : Word := if n = 0x4B ∨ n = 0x8B then BitVec.allOnes 64 else if 0xC0 ≤ n then 0x60 else 0

/-- The stored value of a system register. -/
def sysAt (k n : Nat) (s : State) : Word := SMap.getD (coreAt k s).sys n (sysReset n)

/-- Stores a system register. -/
def putSys (k n : Nat) (v : Word) (s : State) : State :=
  { s with cores := SMap.put s.cores k { coreAt k s with sys := SMap.put (coreAt k s).sys n v } }

/-- A field of a system register. -/
def sysField (k n lo w : Nat) (s : State) : Nat := extractField (sysAt k n s) lo w

/-- Sets a field of a system register. -/
def setSysField (k n lo w v : Nat) (s : State) : State := putSys k n (insertField (sysAt k n s) lo w v) s

/-- Pairs of EVENT and EVENT_EN registers that the management core's EXTERNAL line gathers (R57, R339). -/
def eventPairs : List (Nat × Nat) :=
  [(Reg.PWR_EVENT, Reg.PWR_EVENT_EN), (Reg.HIF_EVENT, Reg.HIF_EVENT_EN),
    (Reg.DIG_EVENT, Reg.DIG_EVENT_EN), (Reg.KEY_EVENT, Reg.KEY_EVENT_EN), (Reg.SCH_EVENT, Reg.SCH_EVENT_EN),
    (Reg.MEM_EVENT, Reg.MEM_EVENT_EN), (Reg.CFL_EVENT, Reg.CFL_EVENT_EN),
    (Reg.PBK_EVENT, Reg.PBK_EVENT_EN)] ++
  (List.range 32).map (fun n => (Reg.CHE_EVENT n, Reg.CHE_EVENT_EN n)) ++
  (List.range 32).map (fun n => (Reg.CHE_SF_EVENT n, Reg.CHE_SF_EVENT_EN n)) ++
  (List.range 16).map (fun n => (Reg.MAT_EVENT n, Reg.MAT_EVENT_EN n)) ++
  (List.range 4).map (fun n => (Reg.CMP_EVENT n, Reg.CMP_EVENT_EN n)) ++
  (List.range 8).map (fun n => (Reg.AXC_EVENT n, Reg.AXC_EVENT_EN n)) ++
  (List.range 4).map (fun n => (Reg.DMC_EVENT n, Reg.DMC_EVENT_EN n)) ++
  (List.range 2).map (fun n => (Reg.NET_EVENT n, Reg.NET_EVENT_EN n))

/-- The EXTERNAL line of a core (R339). -/
def extLine (k : Nat) (s : State) : Bool :=
  if k = 76 then eventPairs.any (fun p => (rd p.1 s &&& rd p.2 s) != 0) else (coreAt k s).ext

/-- L.IPEND of a core (R339). -/
def ipend (k lvl : Nat) (s : State) : Word :=
  let timer := decide ((sysAt k (trapBase lvl + 0xB) s).toNat ≤ (sysAt k 0 s).toNat)
  let letter := if isCompute k then decide (lvl = 1) && letterPending k s else isControl k && decide (lvl = 2) && letterPending k s
  let ext := decide (lvl = 2) && extLine k s
  let err := decide (lvl = 2) && (sysAt k 0x8A s).getLsbD 3
  let b (x : Bool) (n : Nat) : Nat := if x then n else 0
  BitVec.ofNat 64 (b timer 1 + b letter 2 + b ext 4 + b err 8)

/-- What MFSR reads of an existing register. -/
def sysRead (k n : Nat) (s : State) : Word :=
  if n = 2 then coreId k else if n = 3 then isaver k
  else if n = 0x4A then ipend k 1 s else if n = 0x8A then ipend k 2 s else sysAt k n s

/-- The bits of a register that software writes. -/
def sysMask (n : Nat) : Nat :=
  if n = 4 then 2 ^ 64 - 7 else if n = 5 then 31
  else if n < 0xC0 then
    match n % 64 with
    | 0 => 0x7F
    | 1 => 2 ^ 64 - 4096
    | 2 => 2 ^ 64 - 4
    | 3 => 2 ^ 63 + 255
    | 4 => 2 ^ 32 - 1
    | 5 => 2 ^ 64 - 1
    | 6 => 2 ^ 64 - 1
    | 7 => 2 ^ 64 - 7
    | 8 => 2 ^ 48 - 4096 + 1
    | 9 => 15
    | 11 => 2 ^ 64 - 1
    | _ => 0
  else 2 ^ 48 - 4096 + 0x1FF

/-- Levels a core implements (R331). -/
def levelExists (k l : Nat) : Bool := if isCompute k then decide (l ≤ 2) else l == 2

/-- A write that R10 ignores: SLV above the register's level or not implemented, a PMR size outside 12 to 40. -/
def sysWriteBad (k n : Nat) (v : Word) : Bool :=
  if n = 0x40 ∨ n = 0x80 then
    let l := extractField v 2 2
    decide ((if n = 0x40 then 1 else 2) < l) || !levelExists k l
  else if 0xC0 ≤ n then decide (extractField v 3 6 < 12) || decide (40 < extractField v 3 6)
  else false

/-- The requester number of a core (R542). -/
def coreReq (k : Nat) : Nat := if k < 64 then 0x40 + k else if k < 76 then k - 64 else 0x10

/-- A write of an existing writable register. Of L.IPEND the ERROR bit is cleared by a one. -/
def sysWrite (k n : Nat) (v : Word) (s : State) : State :=
  if sysWriteBad k n v then otherPostmark 0x14 0 n v.toNat 10 s
  else if n = 0x8A then putSys k n (sysAt k n s &&& ~~~(v &&& 8)) s
  else if n = 0x4A then s
  else
    let m := BitVec.ofNat 64 (sysMask n)
    let s1 := putSys k n (v &&& m) s
    if n = 0x48 then { s1 with cores := SMap.put s1.cores k { coreAt k s1 with tables := none } } else s1

/-- Cycles pass on a core: CCOUNT and, on a compute core, CNT_CYCLES. -/
def passCycles (k n : Nat) (s : State) : State :=
  let s1 := putSys k 0 (sysAt k 0 s + BitVec.ofNat 64 n) s
  if k < 64 then cntAdd (Reg.AXC_CNT_CYCLES (k / 8) (k % 8)) 64 n s1 else s1

/-- One instruction retires. -/
def retire (k : Nat) (s : State) : State :=
  let s1 := putSys k 1 (sysAt k 1 s + 1) s
  if k < 64 then cntAdd (Reg.AXC_CNT_INSTR (k / 8) (k % 8)) 64 1 s1 else s1

/-- Run-ahead ends after so many cycles: the checkpoint is restored, and the episode counted once (R282, R283). -/
def leaveAhead (k cycles : Nat) (s : State) : State :=
  match (coreAt k s).ahead with
  | none => s
  | some (n, _) =>
    { s with cores := SMap.put s.cores k { coreAt k s with ahead := none, episodes := n } }
      |> cntAdd (Reg.AXC_CNT_RA_EPISODES (k / 8) (k % 8)) 32 1 |> cntAdd (Reg.AXC_CNT_RA_CYCLES (k / 8) (k % 8)) 64 cycles
      |> passCycles k cycles |> showCore k

/-! ### Halting (R508–R511) -/

/-- A control core that halts takes the module into Halt, but not out of Commit, idle or a transition, which end first (R60, R61); the
last one resumed takes it back, where a Read-Only cause found meanwhile acts (R81). -/
def haltMode (s : State) : State :=
  let any := (List.range 12).any (fun j => coreHalted (64 + j) s)
  let m := mode s
  if any && m != 0xB && m != 8 && m != 6 && m != 7 && fget Fl.AON_MODE_TRANS s == 0 then
    enterMode 0xB { s with pow := { s.pow with haltFrom := m } }
  else if !any && m == 0xB then settleReadOnly (postWithheld (enterMode s.pow.haltFrom s))
  else s

/-- A core halts before its next instruction, with a cause and index. -/
def haltCore (k cause index : Nat) (s : State) : State :=
  if coreHalted k s ∨ coreUp k s = false then s
  else
    let s := if (coreAt k s).ahead.isSome then leaveAhead k (freeNat 16 s) (useFree s) else s
    s |> fset (Fl.DBG_CORE_DSTATUS_HALTED k) 1 |> fset (Fl.DBG_CORE_DSTATUS_CAUSE k) cause |> fset (Fl.DBG_CORE_DSTATUS_INDEX k) index
      |> fset (Fl.DBG_PC_ADDR k) (coreAt k s).pc.toNat
      |> setCore k { coreAt k s with stepping := false, idle := false }
      |> updSch (fun z => { z with offered := z.offered.filter (· != k) })
      |> postmark 0x1380 0x13 [k, cause] |> haltMode

/-- A core resumes. -/
def resumeCore (k : Nat) (s : State) : State :=
  if coreHalted k s then
    s |> fset (Fl.DBG_CORE_DSTATUS_HALTED k) 0 |> setCore k { coreAt k s with passBp := true }
      |> postmark 0x1381 0x13 [k] |> haltMode
  else s

/-- After an instruction, trap or interrupt: a step of the debug link ends. -/
def afterStep (k : Nat) (s : State) : State :=
  let c := coreAt k s
  let s1 := { s with cores := SMap.put s.cores k { c with passBp := false } }
  if c.stepping then haltCore k 3 0 s1 else showCore k s1

/-- Breakpoints and watchpoints of a core are switched off (R511). -/
def clearPoints (k : Nat) (s : State) : State :=
  s |> forN (fun i => fset (Fl.DBG_BP_EN k i) 0) 8 |> forN (fun i => fset (Fl.DBG_WP_CFG_EN k i) 0) 4

/-- Every halted core resumes and every breakpoint and watchpoint goes off, at brace and before an orderly stop; the postmark
gives the HALTED words (R62, R511). -/
def releaseHalts (s : State) : State :=
  let any := (List.range 77).any (fun k => coreHalted k s)
  let words := [(rd Reg.DBG_HALTED_LO s).toNat, (rd Reg.DBG_HALTED_MID s).toNat, (rd Reg.DBG_HALTED_HI s).toNat]
  let s1 := forN (fun k t => clearPoints k (resumeCore k t)) 77 s
  if any then postmark 0x1383 0x13 words s1 else s1

/-- The enabled breakpoint that an address meets. -/
def bpHit (k : Nat) (pc : Word) (s : State) : Option Nat :=
  (List.range 8).find? (fun i => fget (Fl.DBG_BP_EN k i) s == 1 && decide (fget (Fl.DBG_BP_ADDR k i) s = pc.toNat / 4))

/-- The enabled watchpoint that a load or store of `n` bytes at `a` meets. -/
def wpHit (k a n : Nat) (load store : Bool) (s : State) : Option Nat :=
  (List.range 4).find? (fun i =>
    let sz := 2 ^ fget (Fl.DBG_WP_CFG_SIZE k i) s
    let b := (rd (Reg.DBG_WP_ADDR k i) s).toNat / sz * sz
    fget (Fl.DBG_WP_CFG_EN k i) s == 1 &&
      ((load && fget (Fl.DBG_WP_CFG_LOAD k i) s == 1) || (store && fget (Fl.DBG_WP_CFG_STORE k i) s == 1)) &&
      decide (a < b + sz) && decide (b < a + n))

/-! ### Traps and interrupts (R334–R339) -/

/-- Entry to level `l` (R335): RPC, CAUSE, ESYN, FADDR and LSTAT of the level are written and the core jumps to its vector. -/
def enterTrap (k l : Nat) (cause : Nat) (int : Bool) (rpc esyn faddr : Word) (s : State) : State :=
  let c := coreAt k s
  let b := trapBase l
  let st := sysAt k b s
  let st1 := insertField (insertField (insertField (insertField st 1 1 (extractField st 0 1)) 0 1 0) 2 2 c.lvl) 6 1 1
  let sys := SMap.put (SMap.put (SMap.put (SMap.put (SMap.put c.sys b st1) (b + 2) rpc)
    (b + 3) (BitVec.ofNat 64 (cause + (if int then 2 ^ 63 else 0)))) (b + 4) esyn) (b + 5) faddr
  let vec := sysAt k (b + 1) s + (if int then BitVec.ofNat 64 (0x100 * (cause + 1)) else 0)
  setCore k { c with sys := sys, lvl := l, pc := vec, idle := false } s

/-- The core locks (R338): it executes nothing further; the postmark names the core and both causes. -/
def lockCore (k cause : Nat) (s : State) : State :=
  setCore k { coreAt k s with locked := true } s
    |> otherPostmark (if k < 64 then 0x0C else 0x15) 0 k (cause + 256 * sysField k 0x83 0 8 s) 338

/-- A synchronous trap of core `k` (R334, R337, R338). A trap at User level other than a service request with an assigned
number ends the letter's execution (R389). -/
def takeTrap (k cause : Nat) (word : Half) (faddr : Word) (s : State) : State :=
  let c := coreAt k s
  let esyn : Word := if cause ≤ 2 then 0 else word.setWidth 64
  let call := cause == 6 && decide (1 ≤ word.toNat % 1024) && decide (word.toNat % 1024 ≤ 12)
  let s0 := if c.lvl = 0 && !call then
      (match execOfCore k s with
        | some e => recordEnd e 2 cause faddr c.pc s
        | none => s)
    else s
  let nested := isCompute k && decide (c.lvl < 2) && sysField k 0x40 6 1 s == 1
  let toM := !isCompute k || decide (1 ≤ c.lvl) || nested
  let cause' := if nested then 0x0F else cause
  if toM && sysField k 0x80 6 1 s == 1 then afterStep k (lockCore k cause' s0)
  else afterStep k (enterTrap k (if toM then 2 else 1) cause' false c.pc esyn faddr s0)

/-- The interrupt core `k` takes now, if any: level and line (R339). -/
def pendingInt (k : Nat) (s : State) : Option (Nat × Nat) :=
  let c := coreAt k s
  let at_ (l : Nat) : Option (Nat × Nat) :=
    let m := ipend k l s &&& sysAt k (trapBase l + 9) s
    if decide (c.lvl < l) || (c.lvl == l && sysField k (trapBase l) 0 1 s == 1) then
      (([3, 2, 1, 0] : List Nat).find? (fun i => m.getLsbD i)).map (fun i => (l, i))
    else none
  match at_ 2 with
  | some x => some x
  | none => if isCompute k then at_ 1 else none

/-- A bit is set in both L.IPEND and L.IMASK of some level. -/
def wakes (k : Nat) (s : State) : Bool :=
  (ipend k 2 s &&& sysAt k 0x89 s) != 0 || (isCompute k && (ipend k 1 s &&& sysAt k 0x49 s) != 0)

/-- XRET at level `l` (R336). -/
def returnFrom (k : Nat) (s : State) : State :=
  let c := coreAt k s
  let b := trapBase c.lvl
  let st := sysAt k b s
  let st1 := insertField (insertField (insertField (insertField st 0 1 (extractField st 1 1)) 1 1 1) 2 2 0) 6 1 0
  setCore k { c with sys := SMap.put c.sys b st1, lvl := extractField st 2 2, pc := sysAt k (b + 2) s } s

/-! ### Service requests (R383) -/

/-- Core `k` is in its runtime with service request `n` of a letter of an execution: the execution. -/
def svCall (k n : Nat) (s : State) : Option Nat :=
  if isCompute k && coreUp k s && !coreHalted k s && (coreAt k s).lvl == 1 && sysAt k 0x43 s == 6 &&
      sysField k 0x44 0 10 s == n && sysField k 0x40 2 2 s == 0 then execOfCore k s
  else none

/-- The runtime answers a service request: g1 and g2 are written and the letter goes on after its SVREQ. -/
def svAnswer (k : Nat) (g1 g2 : Option Word) (s : State) : State :=
  let s1 := match g1 with
    | some v => setG k 1 v s
    | none => s
  let s2 := match g2 with
    | some v => setG k 2 v s1
    | none => s1
  returnFrom k (putSys k 0x42 (sysAt k 0x42 s2 + 4) s2)

/-- The letter of a core ends or is suspended: the core waits in its runtime for the next one (R359, R383); a run-ahead episode ends with it,
and is counted (R25, R283) over cycles that nothing gives. -/
def leaveLetter (k : Nat) (s : State) : State :=
  let s1 := if (coreAt k s).ahead.isSome then leaveAhead k (freeNat 16 s) (useFree s) else s
  setCore k { coreAt k s1 with lvl := 1, tables := none, ahead := none } s1

/-- The counts of a cluster's registers, in the order of `Clus.acc`. -/
def clusCounts (n : Nat) (s : State) : List Nat :=
  let sum (r : Nat → Nat) : Nat := (List.range 8).foldl (fun t i => t + (rd (r i) s).toNat) 0
  [(rd (Reg.AXC_CNT_PAR_CLEAN n) s).toNat, sum (Reg.AXC_CNT_INSTR n), sum (Reg.AXC_CNT_RA_EPISODES n), sum (Reg.AXC_CNT_PRD_ISSUED n),
    sum (Reg.AXC_CNT_PRD_CLAIMED n), sum (Reg.AXC_CNT_PRD_EXPIRED n)]

/-- Before a reset clears them, a cluster's counts are added to its totals since power-on. -/
def keepClusCounts (n : Nat) (s : State) : State :=
  updClus n (fun c => { c with acc := (c.acc.zip (clusCounts n s)).map (fun p => p.1 + p.2) }) s

end Sys2Proof.Machine
end

