-- ==== Sys2Proof/Machine/DramBase.lean ====
section
/-! DEFINITION. DRAM channels and the memory error log: decode, error counters, Rise (R398–R422). -/

namespace Sys2Proof.Machine

/-! ### Channels and pages (R399, R418) -/

/-- DRAM channels in service. -/
def dramChannels (s : State) : List Nat := (List.range 4).filter (fun n => fget Fl.MEM_STATUS_CHANNELS s / 2 ^ n % 2 == 1)

/-- A channel is marked retired for good (R417). -/
def dramRetired (n : Nat) (s : State) : Bool := pdRetired (31 + n) s

/-- Channel and channel-local page of a DRAM address (R399). -/
def dramPlace (a : Nat) (s : State) : Nat × Nat :=
  let o := a - 0x4000000000
  if threeCh s then ((dramChannels s).getD (o / 4096 % 3) 0, o / 4096 / 3)
  else ((o / 2 ^ 12 % 4) ^^^ (o / 2 ^ 20 % 4) ^^^ (o / 2 ^ 28 % 4), o / 2 ^ 14)

/-- Pages of a channel's part of the firmware region: 16 GiB over the working channels. -/
def firmwarePages (n : Nat) (s : State) : Nat :=
  if threeCh s then (if (dramChannels s).headD 0 = n then 1398102 else 1398101) else 1048576

/-- Page `p` of channel `n` lies in its spare area, the last 2 MiB of that part (R415). -/
def inSpareArea (n p : Nat) (s : State) : Bool :=
  decide (firmwarePages n s - 512 ≤ p) && decide (p < firmwarePages n s)

/-! ### The error log (R412) -/

/-- An entry goes to the log, or is lost where the ring is full; its SEQ follows when the postmark of `code` is written. -/
def memLog (addr source typ port lane bit code src : Nat) (s : State) : State :=
  if fget Fl.MEM_LOG_HEAD_FULL s = 1 then
    { s with dram := { s.dram with logWait := s.dram.logWait ++ [(code, src, none)] } }
      |> cntAdd Reg.MEM_CNT_LOG_LOST 32 1 |> raiseEvent 0x0F 0 Fl.MEM_EVENT_LOG_FULL
  else
    let i := fget Fl.MEM_LOG_HEAD_INDEX s
    let s1 := { s with dram := { s.dram with logWait := s.dram.logWait ++ [(code, src, some i)] } }
      |> wr (Reg.MEM_LOG0 i) 0 |> wr (Reg.MEM_LOG1 i) 0
      |> fset (Fl.MEM_LOG0_ADDR i) addr |> fset (Fl.MEM_LOG0_SOURCE i) source |> fset (Fl.MEM_LOG0_TYPE i) typ
      |> fset (Fl.MEM_LOG0_PORT i) port |> fset (Fl.MEM_LOG0_LANE i) lane |> fset (Fl.MEM_LOG1_BIT i) bit
      |> fset Fl.MEM_LOG_HEAD_INDEX ((i + 1) % 256)
    if (i + 1) % 256 = fget Fl.MEM_LOG_TAIL_INDEX s then fset Fl.MEM_LOG_HEAD_FULL 1 s1 else s1

/-- Firmware advances LOG_TAIL: entries up to it are free again (R412). A write of the value it has frees none (DESIGN CHOICE, log 70). -/
def logTail (v : Nat) (s : State) : State :=
  let old := fget Fl.MEM_LOG_TAIL_INDEX s
  let s1 := fset Fl.MEM_LOG_TAIL_INDEX v s
  if v % 256 = old then s1 else fset Fl.MEM_LOG_HEAD_FULL 0 s1

/-- An EVENT bit of channel `n` with its log entry: the entry waits for the number of that postmark. -/
def dmcError (n : Nat) (f : Fld) (addr typ port lane : Nat) (s : State) : State :=
  raiseEvent 0x0E n f (memLog addr 0 typ port lane 0 (0x0E00 + f.lo) (0x0E + 256 * n) s)

/-! ### Counters since power-on (R420) -/

/-- Error counters of the DMCs that log page 0xC7 shows since power-on. -/
def dmcCounters : List Nat :=
  (List.range 4).flatMap (fun n => [Reg.DMC_CNT_CE n, Reg.DMC_CNT_UE n, Reg.DMC_CNT_POISON_RD n, Reg.DMC_CNT_CE_FAILDEV n,
    Reg.DMC_CNT_REF_FORCED n, Reg.DMC_CNT_RECAL n, Reg.DMC_CNT_RECAL_FAIL n])

/-- The MEM counters of the page. -/
def memCounters : List Nat := [Reg.MEM_CNT_SCRUB_PASS, Reg.MEM_CNT_LOG_LOST]

/-! ### Rise, and loss of contents (R74, R406, R417, R418) -/

/-- DRAM contents are lost: the domains PD31 to PD34 are off. -/
def dramLost (s : State) : State :=
  zeroRange 0x4000000000 0x6000000000 s |> forN (fun n => fset (Fl.DMC_STATUS_STATE n) 0) 4

/-- Fabric SRAM contents are lost with its domain. -/
def sramLost (s : State) : State := zeroRange 0 0x4000000 s

/-- Valid remap entries of a channel. -/
def remapUsed (n : Nat) (s : State) : Nat :=
  ((List.range 512).filter (fun i => fget (Fl.DMC_REMAP_VALID n i) s == 1)).length

/-- The DRAM phase of Rise ends with the channels of `bad` out of service (R31, R418). -/
def dramRise (bad : List Nat) (s : State) : State :=
  let good := (List.range 4).filter (fun n => !bad.contains n)
  let s1 := s |> fset Fl.MEM_STATUS_CHANNELS ((good.map (2 ^ ·)).sum) |> fset Fl.MEM_STATUS_THREE_CH (if bad.isEmpty then 0 else 1)
    |> fset Fl.MEM_STATUS_SCRUB_BUSY 1 |> fset Fl.MEM_SCRUB_POS_ADDR 0x4000000000
  forN (fun n t => t |> fset (Fl.DMC_STATUS_STATE n) (if good.contains n then 1 else if dramRetired n t then 3 else 0)
    |> fset (Fl.DMC_REMAP_STATUS_USED n) (remapUsed n t)) 4 s1

end Sys2Proof.Machine
end

