-- ==== Sys2Proof/Machine/Postbook.lean ====
section
/-! DEFINITION. The event recorder: writer, coalescing windows, tiers and windows (R494–R504). -/

namespace Sys2Proof.Machine

/-! ### CRC-32C and the bytes of a postmark (R235, R494) -/

/-- Eight steps of the reflected CRC-32C division. -/
def crcSteps : Nat → Half → Half
  | 0, c => c
  | n + 1, c => crcSteps n (if c.getLsbD 0 then (c >>> 1) ^^^ 0x82F63B78 else c >>> 1)

/-- CRC-32C of a list of bytes with the register at `c` (R235): reflected, polynomial 0x1EDC6F41. -/
def crc32cFrom (c : Half) : List Byte → Half
  | [] => c
  | b :: t => crc32cFrom (crcSteps 8 (c ^^^ b.setWidth 32)) t

/-- CRC-32C: initial value and final XOR all ones (R235). -/
def crc32c (bs : List Byte) : Half := ~~~(crc32cFrom 0xFFFFFFFF bs)

/-- The HEAD field (R494). -/
def postmarkHead (p : Postmark) : Nat :=
  p.seq % 2 ^ 56 + 2 ^ 56 * (p.lane % 4) + (if p.rep then 2 ^ 58 else 0) + (if p.drop then 2 ^ 59 else 0)
    + (if p.damaged then 2 ^ 60 else 0)

/-- Bytes 55:0 of a postmark (R494). -/
def postmarkBody (p : Postmark) : List Byte :=
  leBytes 8 (postmarkHead p) ++ leBytes 2 p.code ++ leBytes 2 p.src ++ leBytes 4 p.count ++ leBytes 4 p.pwrcyc
    ++ (List.range 9).flatMap (fun i => leBytes 4 (p.args.getD i 0))

/-- The frank: CRC-32C of the body, the low SEQ bits and the marker 0xA5 (R494, R495). -/
def frankOf (p : Postmark) : Word :=
  (crc32c (postmarkBody p)).setWidth 64 ||| (BitVec.ofNat 64 (p.seq % 2 ^ 24) <<< 32) ||| (0xA5#64 <<< 56)

/-- The 64 bytes of a postmark as stored. -/
def postmarkBytes (p : Postmark) : List Byte := postmarkBody p ++ leBytes 8 p.frank.toNat

/-- A postmark is valid only when its frank agrees with its body (R495). -/
def postmarkValid (p : Postmark) : Bool := p.frank == frankOf p

/-! ### The writer (R496, R498, R502) -/

/-- The lowest lane with something queued. -/
def nextLane (p : Pbk) : Option Nat := (List.range 4).find? (fun l => !(laneQ l p).isEmpty)

/-- Queues the repeat postmark of an entry whose window has ended with a count, and opens its next window. -/
def queueRepeat (c : Coal) (p : Pbk) : Pbk :=
  { setLaneQ c.lane (laneQ c.lane p ++ [⟨c.lane, c.code, c.src, c.count, c.args, true, false⟩]) p with
    coal := p.coal.map (fun x => if x.lane = c.lane ∧ x.code = c.code ∧ x.src = c.src then
      { x with count := 0, due := false } else x) }

/-- A queue entry of lane `l` has become free: a held event, or a repeat postmark that waited, takes it (R502). -/
def refillLane (l : Nat) (p : Pbk) : Pbk :=
  match l with
  | 0 => match p.held0 with
    | [] => p
    | e :: t => { p with q0 := p.q0 ++ [e], held0 := t }
  | 1 => match p.held1 with
    | [] => p
    | e :: t => { p with q1 := p.q1 ++ [e], held1 := t }
  | _ => match p.coal.find? (fun c => c.lane == l && c.due) with
    | none => p
    | some c => if laneHasRoom l p then queueRepeat c p else p

/-- The event of the asynchronous event for a written postmark (R503): type Vendor Specific (7), information 0xC0,
log page 0xCA, once until the page is read. -/
def notifyPostmark (lane seq : Nat) (s : State) : State :=
  let f := featureValue 0xC5 s
  let s1 := if f / 2 ^ lane % 2 = 1 ∧ ¬ s.pbk.aenSent then
      raiseAen (enabledControllers s) 7 0xC0 0xCA { s with pbk := { s.pbk with aenSent := true } }
    else s
  if f / 2 ^ (4 + lane) % 2 = 1 then { s1 with pbk := { s1.pbk with mctpWait := s1.pbk.mctpWait ++ [seq] } } else s1

/-- OLDEST_SEQ follows the RAM tier; an empty tier shows the next number. -/
def oldestSeq (s : State) : Nat :=
  match s.pbk.ram with
  | [] => (rd Reg.PBK_NEXT_SEQ s).toNat
  | p :: _ => p.seq

/-- The number of a written postmark goes into the error log entries that wait for it (R412): the oldest of its code and source in
lanes 0 and 1, all of them where lanes 2 and 3 coalesce. -/
def fillLogSeq (e : Ev) (n : Nat) (s : State) : State :=
  let is (w : Nat × Nat × Option Nat) : Bool := w.1 == e.code && w.2.1 == e.src
  let mine := s.dram.logWait.filter is
  let todo := if e.lane < 2 then mine.take 1 else mine
  let rest := if e.lane < 2 then s.dram.logWait.eraseP is else s.dram.logWait.filter (fun w => !is w)
  forEach (fun w t => match w.2.2 with
      | some i => fset (Fl.MEM_LOG1_SEQ i) n t
      | none => t) todo { s with dram := { s.dram with logWait := rest } }

/-- Writes one event as the next postmark (R494–R498). -/
def writeEvent (e : Ev) (s : State) : State :=
  let n := (rd Reg.PBK_NEXT_SEQ s).toNat
  let p0 : Postmark := ⟨n, e.lane, e.rep, e.drop, false, e.code, e.src, e.count, (rd Reg.AON_PWRCYC s).toNat,
    (e.args.take 9).map (· % 2 ^ 32), 0⟩
  let p := { p0 with frank := frankOf p0 }
  let ram := s.pbk.ram ++ [p]
  let ram' := if ram.length > 32768 then ram.drop 1 else ram
  let drained := fget Fl.PBK_CFG_DRAIN s / 2 ^ e.lane % 2 == 1 || e.lane < 2
  let s1 := wr Reg.PBK_NEXT_SEQ (BitVec.ofNat 64 (n + 1)) { s with pbk := { s.pbk with
      ram := ram'
      toDrain := if drained then s.pbk.toDrain ++ [n] else s.pbk.toDrain } }
  let s2 := wr Reg.PBK_OLDEST_SEQ (BitVec.ofNat 64 (oldestSeq s1)) s1
  let s3 := if e.lane = 0 then
      fset Fl.PBK_EVENT_LANE0 1 { s2 with pbk := { s2.pbk with unread := s2.pbk.unread ++ [n], telemetry := ram' } }
    else s2
  notifyPostmark e.lane n (fillLogSeq e n s3)

/-- The writer takes the next queued entry in strict lane order and writes it. -/
def writeNext (s : State) : State :=
  match nextLane s.pbk with
  | none => s
  | some l => match laneQ l s.pbk with
    | [] => s
    | e :: t => pbkPending (writeEvent e { s with pbk := refillLane l (setLaneQ l t s.pbk) })

/-- Every queued entry is written, `n` at most. -/
def writeAll : Nat → State → State
  | 0, s => s
  | n + 1, s => match nextLane s.pbk with
    | none => s
    | some _ => writeAll n (writeNext s)

/-- A coalescing window of a key ends (R502): a repeat postmark is queued, or waits for a queue entry, or the entry
closes. -/
def windowEnd (lane code src : Nat) (s : State) : State :=
  let key (c : Coal) : Bool := c.lane == lane && c.code == code && c.src == src
  match s.pbk.coal.find? key with
  | none => s
  | some c =>
    if c.count = 0 then { s with pbk := { s.pbk with coal := s.pbk.coal.filter (fun x => !key x) } }
    else if laneHasRoom lane s.pbk then pbkPending { s with pbk := queueRepeat c s.pbk }
    else { s with pbk := { s.pbk with coal := s.pbk.coal.map (fun x => if key x then { x with due := true } else x) } }

/-! ### The persistent tier (R497, R499) -/

/-- A segment holds 32,768 postmarks of 64 bytes. -/
def segFull (g : Seg) : Bool := decide (g.marks.length ≥ 32768)

/-- The history segment put to use longest ago. -/
def oldestHistory (segs : SMap Seg) : Option Nat :=
  (segs.filter (fun e => e.2.role == .history)).foldl
    (fun best e => match best with
      | none => some e.1
      | some b => if e.2.age < (SMap.getD segs b ⟨.history, 0, []⟩).age then some e.1 else some b) none

/-- The segment in a role, if any. -/
def segIn (r : SegRole) (segs : SMap Seg) : Option Nat := (segs.find? (fun e => e.2.role == r)).map (·.1)

/-- Erased segments held for seal, as PBK.STATUS.SEAL_SEGS shows them. -/
def erasedSegs (segs : SMap Seg) : Nat := (segs.filter (fun e => e.2.role == .erased)).length

/-- PBK.STATUS.SEAL_SEGS follows the segments; fewer than two sets NO_SEAL_SEG. -/
def showSealSegs (s : State) : State :=
  let n := erasedSegs s.pbk.segs
  let s1 := fset Fl.PBK_STATUS_SEAL_SEGS n s
  if n < 2 then fset Fl.PBK_EVENT_NO_SEAL_SEG 1 s1 else s1

/-- One postmark is copied into the drain segment; a full segment becomes history and the oldest history segment is
erased and takes its place. -/
def drainOne (p : Postmark) (s : State) : State :=
  let segs := s.pbk.segs
  let cur := (segIn .drain segs).getD 2
  let g := SMap.getD segs cur ⟨.drain, 0, []⟩
  if segFull g then
    let segs1 := SMap.put segs cur { g with role := .history }
    match oldestHistory segs1 with
    | none => s
    | some o => { s with pbk := { s.pbk with
        segs := SMap.put segs1 o ⟨.drain, s.pbk.segAge + 1, [p]⟩, segAge := s.pbk.segAge + 1 } }
  else { s with pbk := { s.pbk with segs := SMap.put segs cur { g with marks := g.marks ++ [p] } } }

/-- Postmarks of drained lanes reach the persistent tier (R499); PERSIST_SEQ is the highest drained. -/
def drainAll (s : State) : State :=
  let todo := s.pbk.ram.filter (fun p => s.pbk.toDrain.contains p.seq)
  let hi := todo.foldl (fun m p => max m p.seq) (rd Reg.PBK_PERSIST_SEQ s).toNat
  let s1 := forEach drainOne todo s
  wr Reg.PBK_PERSIST_SEQ (BitVec.ofNat 64 hi) { s1 with pbk := { s1.pbk with toDrain := [] } }

/-- Seal start (R48, R499): pending repeat postmarks are written, which ends their windows, then the RAM tier is copied into an erased segment;
with none erased nothing is copied. -/
def pbkSealCopy (s : State) : State :=
  let s0 := writeAll 1600 s
  let s1 := forEach (fun c t => if c.count > 0 ∧ laneHasRoom c.lane t.pbk then { t with pbk := queueRepeat c t.pbk } else t) s0.pbk.coal s0
  let s2 := writeAll 1600 { s1 with pbk := { s1.pbk with coal := [] } }
  match segIn .erased s2.pbk.segs with
  | none => { s2 with pbk := { s2.pbk with sealMissed := true } }
  | some i =>
    let s3 := { s2 with pbk := { s2.pbk with
      segs := SMap.put s2.pbk.segs i ⟨.sealed, s2.pbk.segAge + 1, s2.pbk.ram⟩, segAge := s2.pbk.segAge + 1, sealMissed := false } }
    showSealSegs (fset Fl.PBK_STATUS_SEALED 1 s3)

/-- The highest valid SEQ of the persistent tier. -/
def highestPersist (p : Pbk) : Nat :=
  p.segs.foldl (fun m e => (e.2.marks.filter postmarkValid).foldl (fun k q => max k q.seq) m) 0

/-- Rise from Dark (R497–R499): NEXT_SEQ is set, the RAM tier starts empty, the sealed segment joins the history and
the postmarks about the last stop are recorded. -/
def pbkRise (s : State) : State :=
  let hi := highestPersist s.pbk
  let n := if hi = 0 then 1 else if s.pbk.cleanStop then hi + 1 else hi + 65537
  let s1 := { s with pbk := { s.pbk with
      q0 := [], q1 := [], q2 := [], q3 := [], held0 := [], held1 := [], coal := [], ram := [], win := [], toDrain := []
      segs := s.pbk.segs.map (fun e => if e.2.role = .sealed then (e.1, { e.2 with role := .history }) else e)
      cleanStop := false, sealMissed := false } }
  let s2 := s1 |> wr Reg.PBK_NEXT_SEQ (BitVec.ofNat 64 n) |> wr Reg.PBK_OLDEST_SEQ (BitVec.ofNat 64 n)
    |> wr Reg.PBK_PERSIST_SEQ (BitVec.ofNat 64 hi) |> fset Fl.PBK_STATUS_PENDING 0 |> showSealSegs
  let s3 := if s.pbk.sealMissed then postmark 0x0003 0 [] s2 else s2
  if ¬ s.pbk.cleanStop ∧ s.pow.sealCut then postmark 0x0002 0 [hi % 2 ^ 32, hi / 2 ^ 32] s3 else s3

/-- The oldest history segments are erased until two are held erased (R499). -/
def eraseForSeal (s : State) : State :=
  if erasedSegs s.pbk.segs < 2 then
    match oldestHistory s.pbk.segs with
    | none => s
    | some o => showSealSegs { s with pbk := { s.pbk with segs := SMap.put s.pbk.segs o ⟨.erased, 0, []⟩ } }
  else s

/-! ### Windows (R500) -/

/-- A damaged slot is copied with DAMAGED set, SEQ and CODE kept and bytes 55:12 zeroed. -/
def windowCopy (p : Postmark) : Postmark :=
  if postmarkValid p then p
  else { p with damaged := true, count := 0, pwrcyc := 0, args := [] }

/-- A CURSOR write takes a snapshot of at most 16 postmarks from SEQ `q` on. -/
def takeWindow (w q : Nat) (s : State) : State :=
  let old := oldestSeq s
  let next := (rd Reg.PBK_NEXT_SEQ s).toNat
  let from' := max q old
  let got := if q ≥ next then [] else ((s.pbk.ram.filter (fun p => from' ≤ p.seq)).take 16).map windowCopy
  let first := match got with
    | [] => from'
    | p :: _ => p.seq
  let bad := got.any (·.damaged)
  let s1 := { s with pbk := { s.pbk with win := SMap.put s.pbk.win w got } }
    |> wr (Reg.PBK_CURSOR w) (BitVec.ofNat 64 (q % 2 ^ 56))
    |> fset (Fl.PBK_WIN_STATUS_FIRST w) first |> fset (Fl.PBK_WIN_STATUS_COUNT w) got.length
    |> fset (Fl.PBK_WIN_STATUS_LOST w) (if q < old then 1 else 0)
  if bad then fset Fl.PBK_EVENT_DAMAGED 1 s1 else s1

/-! ### Rows -/

/-- An event raises a postmark into its lane (R502). -/
def execPostmark (code src : Nat) (args : List Nat) (s : State) : Out := .next (postmark code src args s)

/-- The writer takes the next queued postmark, numbers it and writes it with its frank (R495, R496). -/
def execPostmarkWrite (s : State) : Out := .next (writeNext s)

/-- A coalescing window ends (R502). -/
def execCoalescingWindowEnd (lane code src : Nat) (s : State) : Out := .next (windowEnd lane code src s)

/-- The agents that may write SUBMIT[k]: control core k, the management core for 12, the debug link for 13 (R512). -/
def submitAgent (k : Nat) : Nat := if k < 12 then k else if k = 12 then 0x010 else 0x011

/-- EVENT or SF_EVENT bits of the block of a group; groups without such a register, and the recorder itself (R512), have none. -/
def eventBits (g : Nat) : Nat :=
  match g with
  | 0x01 => 9 | 0x04 => 8 | 0x06 => 10 | 0x07 => 7 | 0x08 => 7 | 0x09 => 6 | 0x0A => 4 | 0x0B => 5 | 0x0C => 6 | 0x0D => 8
  | 0x0E => 10 | 0x0F => 7 | 0x10 => 11 | 0x12 => 7 | _ => 0

/-- The codes R504 names; others are reserved and never written. -/
def codeNamed (code : Nat) : Bool :=
  let g := code / 256
  let lo := code % 256
  decide (g ≤ 0x15) && (decide (lo = 0xFF) || decide (lo < eventBits g)
    || [0x0002, 0x0003, 0x0280, 0x0281, 0x0282, 0x0283, 0x0284, 0x0285, 0x0380, 0x0480, 0x0580, 0x1280, 0x1281,
        0x1380, 0x1381, 0x1382, 0x1383, 0x1480, 0x1481, 0x1580].contains code)

/-- Firmware sets SUBMIT[k].GO (R512): the postmark of the group's CODE, SOURCE and arguments enters the lane of its
code; a write from another agent completes with a bus error. -/
def submitPostmark (k req : Nat) (s : State) : State :=
  if k ≥ 14 ∨ req ≠ submitAgent k then busError (Reg.PBK_SUBMIT_GO k) req 4 s
  else
    let code := fget (Fl.PBK_SUBMIT_HEAD_CODE k) s
    if codeNamed code then
      postmark code (fget (Fl.PBK_SUBMIT_HEAD_SOURCE k) s)
        ((List.range 9).map (fun a => (rd (Reg.PBK_SUBMIT_ARG k a) s).toNat)) s
    else writeIgnored (Reg.PBK_SUBMIT_GO k) req 0x80000000 s

/-- Row POSTMARK_SUBMIT (R512). -/
def execPostmarkSubmit (k req : Nat) (s : State) : Out := .next (submitPostmark k req s)

/-- Lane 0 postmarks of these numbers have been read (R503). -/
def markRead (seqs : List Nat) (s : State) : State :=
  { s with pbk := { s.pbk with unread := s.pbk.unread.filter (fun q => !seqs.contains q) } }

/-- A CURSOR write copies a snapshot into its window (R500); `forMctp` marks a read of window 0 on behalf of an MCTP
request, which reads lane 0 postmarks (R503). -/
def execCursorWrite (w q : Nat) (forMctp : Bool) (s : State) : Out :=
  if w < 2 then
    let s1 := takeWindow w (q % 2 ^ 56) s
    .next (if forMctp && w == 0 then markRead ((SMap.getD s1.pbk.win 0 []).map (·.seq)) s1 else s1)
  else .next s

/-- Drained lanes are copied to the persistent tier, in Watch and above (R499). -/
def execDrain (s : State) : Out := if mode s < 2 then .next s else .next (drainAll s)

/-- After CSTS.RDY the oldest history segment is erased so that two seal segments are held (R499). -/
def execSealSegmentErase (s : State) : Out := .next (eraseForSeal s)

end Sys2Proof.Machine
end

