-- ==== Sys2Proof/Machine/Codec.lean ====
section
/-! DEFINITION. The compression formats of R234–R238: native blocks, LZ4, Deflate, zlib and gzip, and the check values.
The standards' own layouts (RFC 1950, 1951, 1952, the LZ4 block and frame formats) are PRESUMED (log entry 20). -/

namespace Sys2Proof.Machine

/-! ### Check values -/

/-- Adler-32. -/
def adler32 (bs : List Byte) : Nat :=
  let r := bs.foldl (fun (p : Nat × Nat) (b : Byte) => let a := (p.1 + b.toNat) % 65521; (a, (p.2 + a) % 65521)) (1, 0)
  r.2 * 65536 + r.1

/-- Eight steps of the reflected CRC-32 division. -/
def crc32Steps : Nat → Half → Half
  | 0, c => c
  | n + 1, c => crc32Steps n (if c.getLsbD 0 then (c >>> 1) ^^^ 0xEDB88320 else c >>> 1)

/-- CRC-32 as gzip uses it. -/
def crc32 (bs : List Byte) : Nat :=
  (~~~(bs.foldl (fun (c : Half) (b : Byte) => crc32Steps 8 (c ^^^ b.setWidth 32)) (BitVec.allOnes 32))).toNat

/-- Splits a list into pieces of `n`, the last perhaps shorter; `fuel` bounds their number. -/
def pieces {α : Type} (n : Nat) : Nat → List α → List (List α)
  | 0, _ => []
  | _ + 1, [] => []
  | k + 1, l => l.take n :: pieces n k (l.drop n)

/-- xxHash32 with seed 0. -/
def xxh32 (bs : List Byte) : Nat :=
  let p1 : Half := 2654435761
  let p2 : Half := 2246822519
  let p3 : Half := 3266489917
  let p4 : Half := 668265263
  let p5 : Half := 374761393
  let n := bs.length
  let round (acc : Half) (x : Nat) : Half := ((acc + BitVec.ofNat 32 x * p2).rotateLeft 13) * p1
  let body := bs.take (n / 16 * 16)
  let h0 : Half :=
    if n < 16 then p5
    else
      let v := (pieces 16 (n / 16) body).foldl (fun (v : Half × Half × Half × Half) (s : List Byte) =>
        (round v.1 (leVal (s.take 4)), round v.2.1 (leVal ((s.drop 4).take 4)), round v.2.2.1 (leVal ((s.drop 8).take 4)),
          round v.2.2.2 (leVal (s.drop 12)))) (p1 + p2, p2, 0, 0 - p1)
      v.1.rotateLeft 1 + v.2.1.rotateLeft 7 + v.2.2.1.rotateLeft 12 + v.2.2.2.rotateLeft 18
  let rest := bs.drop (n / 16 * 16)
  let h1 := h0 + BitVec.ofNat 32 n
  let h2 := (pieces 4 (rest.length / 4) (rest.take (rest.length / 4 * 4))).foldl
    (fun (h : Half) (s : List Byte) => ((h + BitVec.ofNat 32 (leVal s) * p3).rotateLeft 17) * p4) h1
  let h3 := (rest.drop (rest.length / 4 * 4)).foldl
    (fun (h : Half) (b : Byte) => ((h + b.setWidth 32 * p5).rotateLeft 11) * p1) h2
  let h4 := (h3 ^^^ (h3 >>> 15)) * p2
  let h5 := (h4 ^^^ (h4 >>> 13)) * p3
  (h5 ^^^ (h5 >>> 16)).toNat

/-- xxHash64 with seed 0. -/
def xxh64 (bs : List Byte) : Nat :=
  let p1 : Word := 0x9E3779B185EBCA87
  let p2 : Word := 0xC2B2AE3D27D4EB4F
  let p3 : Word := 0x165667B19E3779F9
  let p4 : Word := 0x85EBCA77C2B2AE63
  let p5 : Word := 0x27D4EB2F165667C5
  let n := bs.length
  let round (acc x : Word) : Word := ((acc + x * p2).rotateLeft 31) * p1
  let rdw (s : List Byte) (k : Nat) : Word := BitVec.ofNat 64 (leVal ((s.drop k).take 8))
  let h0 : Word :=
    if n < 32 then p5
    else
      let v := (pieces 32 (n / 32) (bs.take (n / 32 * 32))).foldl (fun (v : Word × Word × Word × Word) (s : List Byte) =>
        (round v.1 (rdw s 0), round v.2.1 (rdw s 8), round v.2.2.1 (rdw s 16), round v.2.2.2 (rdw s 24)))
        (p1 + p2, p2, 0, 0 - p1)
      let merge (h x : Word) : Word := (h ^^^ round 0 x) * p1 + p4
      let h := v.1.rotateLeft 1 + v.2.1.rotateLeft 7 + v.2.2.1.rotateLeft 12 + v.2.2.2.rotateLeft 18
      merge (merge (merge (merge h v.1) v.2.1) v.2.2.1) v.2.2.2
  let rest := bs.drop (n / 32 * 32)
  let h1 := h0 + BitVec.ofNat 64 n
  let h2 := (pieces 8 (rest.length / 8) (rest.take (rest.length / 8 * 8))).foldl
    (fun (h : Word) (s : List Byte) => ((h ^^^ round 0 (rdw s 0)).rotateLeft 27) * p1 + p4) h1
  let rest2 := rest.drop (rest.length / 8 * 8)
  let h3 := (pieces 4 (rest2.length / 4) (rest2.take (rest2.length / 4 * 4))).foldl
    (fun (h : Word) (s : List Byte) => ((h ^^^ (BitVec.ofNat 64 (leVal s) * p1)).rotateLeft 23) * p2 + p3) h2
  let h4 := (rest2.drop (rest2.length / 4 * 4)).foldl
    (fun (h : Word) (b : Byte) => ((h ^^^ (b.setWidth 64 * p5)).rotateLeft 11) * p1) h3
  let h5 := (h4 ^^^ (h4 >>> 33)) * p2
  let h6 := (h5 ^^^ (h5 >>> 29)) * p3
  (h6 ^^^ (h6 >>> 32)).toNat

/-! ### What expanding gives -/

/-- An expanded stream: output, source bytes used, the check value of the output in the format's own algorithm, and
whether the stream's own check and lengths agree. -/
structure Ended where
  out : List Byte
  used : Nat
  chk : Nat
  checkOk : Bool
  lenOk : Bool
  deriving DecidableEq, Repr

/-- Expansion of a source: it ended, the source stops inside the stream, or a status of R249 with the output so far. -/
inductive Expanded where
  | ended (e : Ended)
  | more (out : List Byte)
  | bad (status : Nat) (out : List Byte)
  deriving DecidableEq, Repr

/-! ### LZ4 blocks (R236) -/

/-- Reads the extra bytes of a length of 15: the sum and the rest; none when the source stops. -/
def lz4Len : List Byte → Nat → Option (Nat × List Byte)
  | [], _ => none
  | b :: t, n => if b = 0xFF then lz4Len t (n + 255) else some (n + b.toNat, t)

/-- Copies `n` bytes from distance `d` back; the output is kept newest first. -/
def copyBack : Nat → Nat → List Byte → List Byte
  | 0, _, out => out
  | n + 1, d, out => copyBack n d (out.getD (d - 1) 0 :: out)

/-- How an LZ4 block's sequences ended: output (newest first), source left. -/
inductive Lz4End where
  | done (out : List Byte)
  | short (out : List Byte)
  | bad (out : List Byte)
  deriving DecidableEq, Repr

/-- Sequences of an LZ4 block that is the whole of `src`. -/
def lz4Seqs : Nat → List Byte → List Byte → Lz4End
  | 0, _, out => .bad out
  | _ + 1, [], out => .short out
  | k + 1, t :: src, out =>
    let l0 := t.toNat / 16
    match (if l0 = 15 then lz4Len src 15 else some (l0, src)) with
    | none => .short out
    | some (ll, s1) =>
      if s1.length < ll then .short ((s1.reverse) ++ out)
      else
        let out1 := (s1.take ll).reverse ++ out
        match s1.drop ll with
        | [] => .done out1
        | [_] => .short out1
        | a :: b :: s2 =>
          let d := a.toNat + 256 * b.toNat
          let m0 := t.toNat % 16
          match (if m0 = 15 then lz4Len s2 15 else some (m0, s2)) with
          | none => .short out1
          | some (ml, s3) =>
            if d = 0 ∨ out1.length < d then .bad out1 else lz4Seqs k s3 (copyBack (ml + 4) d out1)

/-- Expands one LZ4 block after `hist` (newest first); the output without the history, oldest first. -/
def lz4Block (src hist : List Byte) : Lz4End :=
  let cut (o : List Byte) : List Byte := (o.take (o.length - hist.length)).reverse
  match lz4Seqs (src.length + 1) src hist with
  | .done o => .done (cut o)
  | .short o => .short (cut o)
  | .bad o => .bad (cut o)

/-- Blocks of an LZ4 frame: `bc` block checksums, `linked` blocks; output newest first. -/
def lz4Frames (bc linked : Bool) (maxBlk : Nat) : Nat → List Byte → List Byte → Expanded × List Byte
  | 0, src, out => (.bad 7 out.reverse, src)
  | k + 1, src, out =>
    if src.length < 4 then (.more out.reverse, src)
    else
      let h := leVal (src.take 4)
      if h = 0 then (.ended ⟨out.reverse, 0, 0, true, true⟩, src.drop 4)
      else
        let n := h % 0x80000000
        let body := (src.drop 4).take n
        let rest := src.drop (4 + n)
        let ck := if bc then 4 else 0
        if maxBlk < n then (.bad 7 out.reverse, src)
        else if body.length < n ∨ rest.length < ck then (.more out.reverse, src)
        else if bc ∧ leVal (rest.take 4) ≠ xxh32 body then (.bad 6 out.reverse, src)
        else if 0x80000000 ≤ h then lz4Frames bc linked maxBlk k (rest.drop ck) (body.reverse ++ out)
        else match lz4Block body (if linked then out.take 65536 else []) with
          | .done o => lz4Frames bc linked maxBlk k (rest.drop ck) (o.reverse ++ out)
          | .short _ => (.bad 7 out.reverse, src)
          | .bad _ => (.bad 7 out.reverse, src)

/-- Expands an LZ4 frame (R238). -/
def lz4Frame (src : List Byte) : Expanded :=
  if src.length < 7 then .more []
  else if leVal (src.take 4) ≠ 0x184D2204 then .bad (if leVal (src.take 4) = 0x184C2102 then 8 else 7) []
  else
    let flg := fieldOf 4
    let bd := fieldOf 5
    let hasSize := flg / 8 % 2 == 1
    let hasDict := flg % 2 == 1
    let hdr := 6 + (if hasSize then 8 else 0) + (if hasDict then 4 else 0)
    if flg / 64 ≠ 1 ∨ flg / 2 % 2 = 1 ∨ bd % 16 ≠ 0 ∨ bd / 128 = 1 ∨ bd / 16 < 4 then .bad 7 []
    else if src.length ≤ hdr then .more []
    else if xxh32 ((src.drop 4).take (hdr - 4)) / 256 % 256 ≠ fieldOf hdr then .bad 7 []
    else if hasDict then .bad 8 []
    else
      let maxBlk := 2 ^ (8 + 2 * (bd / 16))
      let body := src.drop (hdr + 1)
      match lz4Frames (flg / 16 % 2 == 1) (flg / 32 % 2 == 0) maxBlk (src.length + 1) body [] with
      | (.ended e, rest) =>
        let ck := if flg / 4 % 2 = 1 then 4 else 0
        if rest.length < ck then .more e.out
        else
          let x := xxh32 e.out
          .ended ⟨e.out, src.length - rest.length + ck, x, ck == 0 || leVal (rest.take 4) == x,
            !hasSize || leVal ((src.drop 6).take 8) == e.out.length⟩
      | (.more o, _) => .more o
      | (.bad st o, _) => .bad st o
where
  fieldOf (i : Nat) : Nat := (src.getD i 0).toNat

/-! ### Deflate (RFC 1951) -/

/-- The bits of a byte list, least significant first. -/
def bitsOf (bs : List Byte) : List Bool := bs.flatMap (fun b => (List.range 8).map (fun i => b.getLsbD i))

/-- The number in `n` bits, least significant first, and the rest. -/
def takeBits : Nat → List Bool → Option (Nat × List Bool)
  | 0, l => some (0, l)
  | _ + 1, [] => none
  | n + 1, b :: t => (takeBits n t).map (fun p => ((if b then 1 else 0) + 2 * p.1, p.2))

/-- A canonical Huffman code: symbols of each length 1 to 15, in order. -/
abbrev Huff := List (List Nat)

/-- The code with these lengths by symbol. -/
def huffOf (lens : List Nat) : Huff :=
  (List.range 15).map (fun l => (lens.zipIdx.filter (fun p => p.1 == l + 1)).map (·.2))

/-- Free codes left by a set of lengths; negative when over-subscribed. -/
def huffLeft (h : Huff) : Int := h.foldl (fun (l : Int) (syms : List Nat) => l * 2 - syms.length) 1

/-- Decodes one symbol: none when the source stops, an empty option inside for a bad code. -/
def huffSym : Huff → Nat → Nat → List Bool → Option (Option Nat × List Bool)
  | [], _, _, l => some (none, l)
  | _ :: _, _, _, [] => none
  | syms :: h, code, first, b :: t =>
    let c := code * 2 + (if b then 1 else 0)
    if c < first + syms.length ∧ first ≤ c then some (some (syms.getD (c - first) 0), t)
    else huffSym h c ((first + syms.length) * 2) t

/-- Base and extra bits of a length symbol. -/
def lenBase (sym : Nat) : Nat × Nat :=
  ([(3, 0), (4, 0), (5, 0), (6, 0), (7, 0), (8, 0), (9, 0), (10, 0), (11, 1), (13, 1), (15, 1), (17, 1), (19, 2), (23, 2), (27, 2),
    (31, 2), (35, 3), (43, 3), (51, 3), (59, 3), (67, 4), (83, 4), (99, 4), (115, 4), (131, 5), (163, 5), (195, 5), (227, 5),
    (258, 0)] : List (Nat × Nat)).getD (sym - 257) (0, 0)

/-- Base and extra bits of a distance symbol. -/
def distBase (sym : Nat) : Nat × Nat :=
  if sym < 4 then (sym + 1, 0) else (2 ^ (sym / 2 - 1) * (2 + sym % 2) + 1, sym / 2 - 1)

/-- State of inflating: bits left and output, newest first. -/
inductive Inf where
  | ok (bits : List Bool) (out : List Byte)
  | more (out : List Byte)
  | bad (out : List Byte)
  deriving DecidableEq, Repr

/-- Literals and matches of one block up to its end code. -/
def infCodes (lit dist : Huff) : Nat → List Bool → List Byte → Inf
  | 0, _, out => .bad out
  | k + 1, bits, out =>
    match huffSym lit 0 0 bits with
    | none => .more out
    | some (none, _) => .bad out
    | some (some sym, b1) =>
      if sym < 256 then infCodes lit dist k b1 (BitVec.ofNat 8 sym :: out)
      else if sym = 256 then .ok b1 out
      else if 285 < sym then .bad out
      else match takeBits (lenBase sym).2 b1 with
        | none => .more out
        | some (x, b2) =>
          match huffSym dist 0 0 b2 with
          | none => .more out
          | some (none, _) => .bad out
          | some (some ds, b3) =>
            if 29 < ds then .bad out
            else match takeBits (distBase ds).2 b3 with
              | none => .more out
              | some (y, b4) =>
                let d := (distBase ds).1 + y
                if out.length < d ∨ 32768 < d then .bad out
                else infCodes lit dist k b4 (copyBack ((lenBase sym).1 + x) d out)

/-- Code lengths of a dynamic block, decoded with the code length code; newest first. -/
def infLens (h : Huff) (want : Nat) : Nat → List Bool → List Nat → Option (Option (List Nat × List Bool))
  | 0, _, _ => some none
  | k + 1, bits, acc =>
    if want < acc.length then some none
    else if acc.length = want then some (some (acc.reverse, bits))
    else match huffSym h 0 0 bits with
      | none => none
      | some (none, _) => some none
      | some (some sym, b1) =>
        if sym < 16 then infLens h want k b1 (sym :: acc)
        else
          let rep (base n : Nat) (v : Nat) : Option (Option (List Nat × List Bool)) :=
            match takeBits n b1 with
            | none => none
            | some (x, b2) => infLens h want k b2 (List.replicate (base + x) v ++ acc)
          match sym with
          | 16 => match acc with
            | [] => some none
            | v :: _ => rep 3 2 v
          | 17 => rep 3 3 0
          | _ => rep 11 7 0

/-- Order of the code length code's lengths. -/
def clOrder : List Nat := [16, 17, 18, 0, 8, 7, 9, 6, 10, 5, 11, 4, 12, 3, 13, 2, 14, 1, 15]

/-- The code length code: `n` lengths of 3 bits in their order. -/
def clLens : Nat → List Bool → Option (List Nat × List Bool)
  | 0, l => some ([], l)
  | n + 1, l => (takeBits 3 l).bind (fun p => (clLens n p.2).map (fun q => (p.1 :: q.1, q.2)))

/-- Fixed literal and distance codes. -/
def fixedLit : Huff := huffOf (List.replicate 144 8 ++ List.replicate 112 9 ++ List.replicate 24 7 ++ List.replicate 8 8)
def fixedDist : Huff := huffOf (List.replicate 30 5)

/-- The codes of a dynamic block. -/
def infDynamic (bits : List Bool) : Option (Option (Huff × Huff × List Bool)) :=
  match takeBits 5 bits with
  | none => none
  | some (a, b1) => match takeBits 5 b1 with
    | none => none
    | some (d, b2) => match takeBits 4 b2 with
      | none => none
      | some (c, b3) => match clLens (c + 4) b3 with
        | none => none
        | some (ls, b4) =>
          let lens := (List.range 19).map (fun sym => match (clOrder.zip ls).find? (fun p => p.1 == sym) with | some p => p.2 | none => 0)
          if huffLeft (huffOf lens) ≠ 0 ∨ 29 < a ∨ 29 < d then some none
          else match infLens (huffOf lens) (a + 257 + d + 1) 400 b4 [] with
            | none => none
            | some none => some none
            | some (some (all, b5)) =>
              let lit := huffOf (all.take (a + 257))
              let dist := huffOf (all.drop (a + 257))
              if huffLeft lit < 0 ∨ huffLeft dist < 0 ∨ all.getD 256 0 = 0 then some none else some (some (lit, dist, b5))

/-- Deflate blocks up to the last one. The bit list is a whole number of bytes less what has been read. -/
def infBlocks : Nat → List Bool → List Byte → Inf
  | 0, _, out => .bad out
  | k + 1, bits, out =>
    match takeBits 3 bits with
    | none => .more out
    | some (h, b1) =>
      let r : Inf :=
        match h / 2 with
        | 0 =>
          let b2 := b1.drop (b1.length % 8)
          match takeBits 16 b2 with
          | none => .more out
          | some (n, b3) => match takeBits 16 b3 with
            | none => .more out
            | some (m, b4) =>
              if n + m ≠ 65535 then .bad out
              else if b4.length < 8 * n then .more out
              else .ok (b4.drop (8 * n)) (((pieces 8 n (b4.take (8 * n))).map (fun bs =>
                BitVec.ofNat 8 (match takeBits 8 bs with | some p => p.1 | none => 0))).reverse ++ out)
        | 1 => infCodes fixedLit fixedDist (b1.length + 1) b1 out
        | 2 => match infDynamic b1 with
          | none => .more out
          | some none => .bad out
          | some (some (l, d, b2)) => infCodes l d (b2.length + 1) b2 out
        | _ => .bad out
      match r with
      | .ok b2 o => if h % 2 = 1 then .ok b2 o else infBlocks k b2 o
      | .more o => .more o
      | .bad o => .bad o

/-- Expands raw Deflate: output, and bytes used. -/
def inflate (src : List Byte) : Expanded :=
  match infBlocks (8 * src.length + 1) (bitsOf src) [] with
  | .ok b o =>
    let out := o.reverse
    .ended ⟨out, src.length - b.length / 8, (crc32c out).toNat, true, true⟩
  | .more o => .more o.reverse
  | .bad o => .bad 7 o.reverse

/-- Expands zlib (RFC 1950, R238). -/
def zlibExpand (src : List Byte) : Expanded :=
  if src.length < 2 then .more []
  else
    let cmf := (src.getD 0 0).toNat
    let flg := (src.getD 1 0).toNat
    if cmf % 16 ≠ 8 ∨ 7 < cmf / 16 ∨ (cmf * 256 + flg) % 31 ≠ 0 then .bad 7 []
    else if flg / 32 % 2 = 1 then .bad 8 []
    else match inflate (src.drop 2) with
      | .ended e =>
        let t := src.drop (2 + e.used)
        let a := adler32 e.out
        if t.length < 4 then .more e.out else .ended ⟨e.out, 2 + e.used + 4, a, leVal (t.take 4).reverse == a, true⟩
      | .more o => .more o
      | .bad st o => .bad st o

/-- Skips a zero-terminated name: what follows it. -/
def skipName : List Byte → Option (List Byte)
  | [] => none
  | b :: t => if b = 0 then some t else skipName t

/-- The bytes after a gzip member's header; none when the source stops, an empty option inside when it is malformed. -/
def gzipHeader (src : List Byte) : Option (Option (List Byte)) :=
  if src.length < 10 then none
  else if leVal (src.take 2) ≠ 0x8B1F ∨ src.getD 2 0 ≠ 8 ∨ 32 ≤ (src.getD 3 0).toNat then some none
  else
    let flg := (src.getD 3 0).toNat
    let r0 := src.drop 10
    let r1 : Option (List Byte) :=
      if flg / 4 % 2 = 1 then
        if r0.length < 2 then none
        else
          let n := leVal (r0.take 2)
          if r0.length < 2 + n then none else some (r0.drop (2 + n))
      else some r0
    let r2 := r1.bind (fun l => if flg / 8 % 2 = 1 then skipName l else some l)
    let r3 := r2.bind (fun l => if flg / 16 % 2 = 1 then skipName l else some l)
    match r3 with
    | none => none
    | some l =>
      if flg / 2 % 2 = 1 then
        if l.length < 2 then none
        else if leVal (l.take 2) ≠ crc32 (src.take (src.length - l.length)) % 65536 then some none
        else some (some (l.drop 2))
      else some (some l)

/-- Expands gzip members one after another as one stream (R238). -/
def gzipMembers : Nat → List Byte → List Byte → Bool → Bool → Expanded
  | 0, _, out, _, _ => .bad 7 out
  | k + 1, src, out, ck, ln =>
    match gzipHeader src with
    | none => .more out
    | some none => .bad 7 out
    | some (some body) =>
      match inflate body with
      | .more o => .more (out ++ o)
      | .bad st o => .bad st (out ++ o)
      | .ended e =>
        let t := body.drop e.used
        if t.length < 8 then .more (out ++ e.out)
        else
          let ck' := ck && leVal (t.take 4) == crc32 e.out
          let ln' := ln && leVal ((t.drop 4).take 4) == e.out.length % 2 ^ 32
          let rest := t.drop 8
          let all := out ++ e.out
          if 2 ≤ rest.length ∧ leVal (rest.take 2) = 0x8B1F then gzipMembers k rest all ck' ln'
          else .ended ⟨all, rest.length, crc32 all, ck', ln'⟩

/-- Expands gzip. -/
def gzipExpand (src : List Byte) : Expanded :=
  match gzipMembers (src.length + 1) src [] true true with
  | .ended e => .ended { e with used := src.length - e.used }
  | .more o => .more o
  | .bad st o => .bad st o

/-! ### Native blocks (R235–R237) -/

/-- A native block's header. -/
structure NatHdr where
  method : Nat
  level : Nat
  orig : Nat
  pay : Nat
  check : Nat
  deriving DecidableEq, Repr

/-- The header in 16 bytes, when it passes HCHECK and its reserved fields are zero. -/
def natHeader (h : List Byte) : Option NatHdr :=
  if leVal ((h.drop 14).take 2) = (crc32c (h.take 14)).toNat % 65536 ∧ leVal ((h.drop 6).take 4) = 0 ∧
      1 ≤ (h.getD 0 0).toNat ∧ (h.getD 0 0).toNat ≤ 3 then
    some ⟨(h.getD 0 0).toNat, (h.getD 1 0).toNat, leVal ((h.drop 2).take 2) + 1, leVal ((h.drop 4).take 2) + 1, leVal ((h.drop 10).take 4)⟩
  else none

/-- The payload of a block decodes, using exactly its bytes. -/
def natPayload (h : NatHdr) (p : List Byte) : Option (List Byte) :=
  match h.method with
  | 1 => some p
  | 2 => match lz4Block p [] with
    | .done o => some o
    | .short _ => none
    | .bad _ => none
  | _ => match inflate p with
    | .ended e => if e.used = p.length then some e.out else none
    | .more _ => none
    | .bad _ _ => none

/-- Expands one native block at the head of `src`: output and padded size, or the status of R249. -/
def natBlock (src : List Byte) : Expanded :=
  if src.length < 16 then .more []
  else match natHeader (src.take 16) with
    | none => .bad 7 []
    | some h =>
      let p := (src.drop 16).take h.pay
      if p.length < h.pay then .more []
      else match natPayload h p with
        | none => .bad 7 []
        | some o => .ended ⟨o, 16 + (h.pay + 7) / 8 * 8, (crc32c o).toNat, (crc32c o).toNat == h.check, o.length == h.orig⟩

/-- A block is valid (R236). -/
def natValid (src : List Byte) : Option (List Byte × Nat × Nat) :=
  match natBlock src with
  | .ended e => if e.checkOk && e.lenOk then some (e.out, e.used, (src.getD 0 0).toNat) else none
  | .more _ => none
  | .bad _ _ => none

/-- Blocks one after another to the end of the source or a header of zeros, as one stream. -/
def natStream : Nat → List Byte → List Byte → Nat → Bool → Bool → Expanded
  | 0, _, out, used, ck, ln => .ended ⟨out, used, (crc32c out).toNat, ck, ln⟩
  | k + 1, src, out, used, ck, ln =>
    if src.isEmpty then .ended ⟨out, used, (crc32c out).toNat, ck, ln⟩
    else if (src.take 16).all (· == 0) then .ended ⟨out, used, (crc32c out).toNat, ck, ln⟩
    else match natBlock src with
      | .ended e => natStream k (src.drop e.used) (out ++ e.out) (used + min e.used src.length) (ck && e.checkOk) (ln && e.lenOk)
      | .more o => .more (out ++ o)
      | .bad st o => .bad st (out ++ o)

end Sys2Proof.Machine
end

