-- ==== Sys2Proof/Machine/Zstd.lean ====
section
/-! DEFINITION. Zstandard expansion (RFC 8878, PRESUMED, log entry 20) with the subset of R238. -/

namespace Sys2Proof.Machine

/-- The bits of a backward bit stream, in reading order: below the marker bit of the last byte, most significant first. -/
def backBits (bs : List Byte) : List Bool :=
  let l := bs.reverse.flatMap (fun b => (List.range 8).map (fun i => b.getLsbD (7 - i)))
  (l.dropWhile (fun b => !b)).drop 1

/-- The number in `n` bits, most significant first; bits past the end read as 0, and `over` counts them. -/
def backNum : Nat → List Bool → Nat → Nat × List Bool × Nat
  | 0, l, acc => (acc, l, 0)
  | n + 1, [], acc => let r := backNum n [] (acc * 2); (r.1, r.2.1, r.2.2 + 1)
  | n + 1, b :: t, acc => backNum n t (acc * 2 + (if b then 1 else 0))

/-- One entry of an FSE decoding table. -/
structure FseCell where
  sym : Nat
  nb : Nat
  base : Nat
  deriving DecidableEq, Repr

/-- An FSE table: accuracy log and its cells by state. -/
structure Fse where
  log : Nat
  cells : List FseCell
  deriving DecidableEq, Repr

/-- Normalised counts read from a forward bit stream: `remaining` points, counts newest first (a count of -1 is a
probability below one). -/
def fseCounts : Nat → Nat → List Bool → List Int → Option (List Int × List Bool)
  | 0, _, _, _ => none
  | k + 1, remaining, bits, acc =>
    if remaining = 0 then some (acc.reverse, bits)
    else
      let n := Nat.log2 (remaining + 1) + 1
      match takeBits n bits with
      | none => none
      | some (v, rest) =>
        let low := 2 ^ (n - 1)
        let thr := 2 ^ n - 1 - (remaining + 1)
        let (val, rest') : Nat × List Bool :=
          if v % low < thr then (v % low, bits.drop (n - 1)) else if low ≤ v then (v - thr, rest) else (v, rest)
        let p : Int := val - 1
        if remaining < p.natAbs then none
        else if p = 0 then
          match zeros (rest'.length + 1) rest' 1 with
          | none => none
          | some (z, r2) => fseCounts k remaining r2 (List.replicate z 0 ++ acc)
        else fseCounts k (remaining - p.natAbs) rest' (p :: acc)
where
  zeros : Nat → List Bool → Nat → Option (Nat × List Bool)
    | 0, _, _ => none
    | k + 1, bits, z =>
      match takeBits 2 bits with
      | none => none
      | some (r, t) => if r = 3 then zeros k t (z + 3) else some (z + r, t)

/-- Spreads the symbols of positive count over the states below `high`, in steps. -/
def fseSpread (size high step : Nat) : Nat → Nat → List Nat → SMap Nat → SMap Nat
  | 0, _, _, m => m
  | _, _, [], m => m
  | k + 1, pos, s :: t, m =>
    if high ≤ pos then fseSpread size high step k ((pos + step) % size) (s :: t) m
    else fseSpread size high step k ((pos + step) % size) t (SMap.put m pos s)

/-- Numbers the states of each symbol in order and gives each its bits and base. -/
def fseCells (log : Nat) : List Nat → SMap Nat → List FseCell
  | [], _ => []
  | s :: t, next =>
    let n := SMap.getD next s 1
    let nb := log - Nat.log2 n
    ⟨s, nb, n * 2 ^ nb - 2 ^ log⟩ :: fseCells log t (SMap.put next s (n + 1))

/-- The table of normalised counts. -/
def fseTable (log : Nat) (counts : List Int) : Fse :=
  let size := 2 ^ log
  let idx := counts.zipIdx
  let lows := (idx.filter (fun p => p.1 == -1)).map (·.2)
  let high := size - lows.length
  let syms := idx.flatMap (fun p => if 0 < p.1 then List.replicate p.1.toNat p.2 else [])
  let m := fseSpread size high (size / 2 + size / 8 + 3) (4 * size) 0 syms []
  let order := (List.range size).map (fun i => if i < high then SMap.getD m i 0 else lows.getD (size - 1 - i) 0)
  let next : SMap Nat := idx.foldl (fun m p => if p.1 = 0 then m else SMap.put m p.2 (if p.1 < 0 then 1 else p.1.toNat)) []
  ⟨log, fseCells log order next⟩

/-- A table description at the head of `src`, of accuracy at most `maxLog`: the table and the bytes after it. -/
def fseRead (maxLog : Nat) (src : List Byte) : Option (Fse × List Byte) :=
  let bits := bitsOf src
  match takeBits 4 bits with
  | none => none
  | some (a, b1) =>
    let log := a + 5
    if maxLog < log then none
    else match fseCounts 300 (2 ^ log) b1 [] with
      | none => none
      | some (c, rest) => some (fseTable log c, src.drop (src.length - rest.length / 8))

/-- A one-symbol table. -/
def fseRle (s : Nat) : Fse := ⟨0, [⟨s, 0, 0⟩]⟩

/-- The cell of a state. -/
def Fse.at (t : Fse) (st : Nat) : FseCell := t.cells.getD st ⟨0, 0, 0⟩

/-! ### Huffman literals -/

/-- A literal code: greatest number of bits and, by the next that many bits, symbol and length. -/
structure HufTab where
  bits : Nat
  cells : List (Nat × Nat)
  deriving DecidableEq, Repr

/-- The table of a list of weights, the last symbol's weight implied. -/
def hufOfWeights (ws : List Nat) : Option HufTab :=
  let sum := ws.foldl (fun n w => n + (if w = 0 then 0 else 2 ^ (w - 1))) 0
  if sum = 0 then none
  else
    let mb := Nat.log2 sum + 1
    let left := 2 ^ mb - sum
    if 2 ^ Nat.log2 left ≠ left ∨ 11 < mb then none
    else
      let all := (ws ++ [Nat.log2 left + 1]).zipIdx
      some ⟨mb, (List.range mb).flatMap (fun i => (all.filter (fun p => p.1 == i + 1)).flatMap (fun p =>
        List.replicate (2 ^ i) (p.2, mb - i)))⟩

/-- Weights of an FSE-coded tree: two states in turn until the stream is used up. -/
def hufFseWeights (t : Fse) : Nat → Nat → Nat → List Bool → List Nat → Option (List Nat)
  | 0, _, _, _, _ => none
  | k + 1, s1, s2, bits, acc =>
    let c := t.at s1
    if bits.length < c.nb then some ((t.at s2).sym :: c.sym :: acc).reverse
    else
      let r := backNum c.nb bits 0
      hufFseWeights t k s2 (c.base + r.1) r.2.1 (c.sym :: acc)

/-- The tree description at the head of `src`. -/
def hufRead (src : List Byte) : Option (HufTab × List Byte) :=
  match src with
  | [] => none
  | h :: t =>
    let n := h.toNat
    if 128 ≤ n then
      let cnt := n - 127
      let bytes := (cnt + 1) / 2
      if t.length < bytes then none
      else
        let ws := ((t.take bytes).flatMap (fun b => [b.toNat / 16, b.toNat % 16])).take cnt
        (hufOfWeights ws).map (fun x => (x, t.drop bytes))
    else if t.length < n then none
    else match fseRead 6 (t.take n) with
      | none => none
      | some (f, rest) =>
        let bits := backBits rest
        let a := backNum f.log bits 0
        let b := backNum f.log a.2.1 0
        ((hufFseWeights f 256 a.1 b.1 b.2.1 []).bind hufOfWeights).map (fun x => (x, t.drop n))

/-- `n` literals of one backward stream. -/
def hufStream (h : HufTab) : Nat → List Bool → Option (List Byte × List Bool)
  | 0, l => some ([], l)
  | n + 1, l =>
    let c := h.cells.getD (backNum h.bits l 0).1 (0, 0)
    if c.2 = 0 ∨ l.length < c.2 then none
    else (hufStream h n (l.drop c.2)).map (fun p => (BitVec.ofNat 8 c.1 :: p.1, p.2))

/-- A whole stream gives exactly `n` literals. -/
def hufAll (h : HufTab) (n : Nat) (bs : List Byte) : Option (List Byte) :=
  (hufStream h n (backBits bs)).bind (fun p => if p.2.isEmpty then some p.1 else none)

/-- Literals in one or four streams. -/
def hufLiterals (h : HufTab) (four : Bool) (n : Nat) (bs : List Byte) : Option (List Byte) :=
  if !four then hufAll h n bs
  else
    let l (i : Nat) : Nat := leVal ((bs.drop (2 * i)).take 2)
    let body := bs.drop 6
    let q := (n + 3) / 4
    if bs.length < 6 ∨ body.length < l 0 + l 1 + l 2 ∨ n < 3 * q then none
    else
      (hufAll h q (body.take (l 0))).bind (fun a =>
        (hufAll h q ((body.drop (l 0)).take (l 1))).bind (fun b =>
          (hufAll h q ((body.drop (l 0 + l 1)).take (l 2))).bind (fun c =>
            (hufAll h (n - 3 * q) (body.drop (l 0 + l 1 + l 2))).map (fun d => a ++ b ++ c ++ d))))

/-! ### Sequences -/

/-- Base and extra bits of a literal length code. -/
def llBase (c : Nat) : Nat × Nat :=
  if c < 16 then (c, 0)
  else ([(16, 1), (18, 1), (20, 1), (22, 1), (24, 2), (28, 2), (32, 3), (40, 3), (48, 4), (64, 6), (128, 7), (256, 8), (512, 9),
    (1024, 10), (2048, 11), (4096, 12), (8192, 13), (16384, 14), (32768, 15), (65536, 16)] : List (Nat × Nat)).getD (c - 16) (0, 0)

/-- Base and extra bits of a match length code. -/
def mlBase (c : Nat) : Nat × Nat :=
  if c < 32 then (c + 3, 0)
  else ([(35, 1), (37, 1), (39, 1), (41, 1), (43, 2), (47, 2), (51, 3), (59, 3), (67, 4), (83, 4), (99, 5), (131, 7), (259, 8),
    (515, 9), (1027, 10), (2051, 11), (4099, 12), (8195, 13), (16387, 14), (32771, 15), (65539, 16)] : List (Nat × Nat)).getD (c - 32) (0, 0)

/-- Predefined tables. -/
def llDefault : Fse := fseTable 6 [4, 3, 2, 2, 2, 2, 2, 2, 2, 2, 2, 2, 2, 1, 1, 1, 2, 2, 2, 2, 2, 2, 2, 2, 2, 3, 2, 1, 1, 1, 1, 1, -1, -1, -1, -1]
def mlDefault : Fse := fseTable 6 ([1, 4, 3, 2, 2, 2, 2, 2, 2] ++ List.replicate 37 1 ++ List.replicate 7 (-1))
def ofDefault : Fse := fseTable 5 ([1, 1, 1, 1, 1, 1, 2, 2, 2] ++ List.replicate 15 1 ++ List.replicate 5 (-1))

/-- What a frame keeps from block to block: literal code, the three sequence tables and the repeat offsets. -/
structure ZState where
  huf : Option HufTab
  ll : Option Fse
  of' : Option Fse
  ml : Option Fse
  reps : Nat × Nat × Nat
  deriving DecidableEq, Repr

/-- A sequence table by its mode: predefined, one symbol, described, or the previous one. -/
def seqTable (mode maxLog : Nat) (dflt : Fse) (prev : Option Fse) (src : List Byte) : Option (Fse × List Byte) :=
  match mode with
  | 0 => some (dflt, src)
  | 1 => match src with
    | [] => none
    | b :: t => some (fseRle b.toNat, t)
  | 2 => fseRead maxLog src
  | _ => prev.map (fun p => (p, src))

/-- The offset a code value names, and the repeat offsets after it. -/
def zOffset (v ll : Nat) (r : Nat × Nat × Nat) : Nat × (Nat × Nat × Nat) :=
  if 3 < v then (v - 3, (v - 3, r.1, r.2.1))
  else
    let i := v - 1 + (if ll = 0 then 1 else 0)
    match i with
    | 0 => (r.1, r)
    | 1 => (r.2.1, (r.2.1, r.1, r.2.2))
    | 2 => (r.2.2, (r.2.2, r.1, r.2.1))
    | _ => (r.1 - 1, (r.1 - 1, r.1, r.2.1))

/-- Executes `n` sequences: literals left, output newest first, repeat offsets. -/
def zSeqs (ll of' ml : Fse) : Nat → Nat → Nat → Nat → List Bool → List Byte → List Byte → (Nat × Nat × Nat) →
    Option (List Byte × List Byte × (Nat × Nat × Nat))
  | 0, _, _, _, _, lits, out, r => some (lits, out, r)
  | n + 1, sl, so, sm, bits, lits, out, r =>
    let oc := (of'.at so).sym
    let a := backNum oc bits 0
    let mb := mlBase (ml.at sm).sym
    let b := backNum mb.2 a.2.1 0
    let lb := llBase (ll.at sl).sym
    let c := backNum lb.2 b.2.1 0
    let llen := lb.1 + c.1
    let o := zOffset (2 ^ oc + a.1) llen r
    if 31 < oc ∨ a.2.2 + b.2.2 + c.2.2 ≠ 0 ∨ lits.length < llen then none
    else
      let out1 := (lits.take llen).reverse ++ out
      if o.1 = 0 ∨ out1.length < o.1 then none
      else
        let out2 := copyBack (mb.1 + b.1) o.1 out1
        if n = 0 then some (lits.drop llen, out2, o.2)
        else
          let x := backNum (ll.at sl).nb c.2.1 0
          let y := backNum (ml.at sm).nb x.2.1 0
          let z := backNum (of'.at so).nb y.2.1 0
          if x.2.2 + y.2.2 + z.2.2 ≠ 0 then none
          else zSeqs ll of' ml n ((ll.at sl).base + x.1) ((of'.at so).base + z.1) ((ml.at sm).base + y.1) z.2.1 (lits.drop llen) out2 o.2

/-- The literals section: literals, literal code kept, and the bytes after it. -/
def zLiterals (z : ZState) (src : List Byte) : Option (List Byte × Option HufTab × List Byte) :=
  match src with
  | [] => none
  | h :: _ =>
    let b := h.toNat
    let typ := b % 4
    let sf := b / 4 % 4
    if typ < 2 then
      let (hl, n) : Nat × Nat :=
        if sf % 2 = 0 then (1, b / 8) else if sf = 1 then (2, leVal (src.take 2) / 16) else (3, leVal (src.take 3) / 16)
      let body := src.drop hl
      if src.length < hl then none
      else if typ = 0 then (if body.length < n then none else some (body.take n, z.huf, body.drop n))
      else match body with
        | [] => none
        | x :: t => some (List.replicate n x, z.huf, t)
    else
      let (hl, w) : Nat × Nat := if sf ≤ 1 then (3, 10) else if sf = 2 then (4, 14) else (5, 18)
      let v := leVal (src.take hl) / 16
      let n := v % 2 ^ w
      let csz := v / 2 ^ w % 2 ^ w
      let body := (src.drop hl).take csz
      let rest := (src.drop hl).drop csz
      if src.length < hl + csz then none
      else
        let tab : Option (HufTab × List Byte) := if typ = 2 then hufRead body else z.huf.map (fun t => (t, body))
        tab.bind (fun t => (hufLiterals t.1 (sf != 0) n t.2).map (fun l => (l, some t.1, rest)))

/-- One compressed block: new state and output (newest first). -/
def zBlock (z : ZState) (src out : List Byte) : Option (ZState × List Byte) :=
  match zLiterals z src with
  | none => none
  | some (lits, huf, r0) =>
    match r0 with
    | [] => none
    | n0 :: _ =>
      let k := n0.toNat
      let (hl, cnt) : Nat × Nat :=
        if k < 128 then (1, k) else if k < 255 then (2, (k - 128) * 256 + leVal ((r0.drop 1).take 1)) else (3, leVal ((r0.drop 1).take 2) + 0x7F00)
      if cnt = 0 then (if r0.length = 1 then some ({ z with huf := huf }, lits.reverse ++ out) else none)
      else match r0.drop hl with
        | [] => none
        | m :: r1 =>
          let md := m.toNat
          if md % 4 ≠ 0 then none
          else
            (seqTable (md / 64) 9 llDefault z.ll r1).bind (fun l =>
              (seqTable (md / 16 % 4) 8 ofDefault z.of' l.2).bind (fun o =>
                (seqTable (md / 4 % 4) 9 mlDefault z.ml o.2).bind (fun q =>
                  let bits := backBits q.2
                  let a := backNum l.1.log bits 0
                  let b := backNum o.1.log a.2.1 0
                  let c := backNum q.1.log b.2.1 0
                  (zSeqs l.1 o.1 q.1 cnt a.1 b.1 c.1 c.2.1 lits out z.reps).map (fun r =>
                    (⟨huf, some l.1, some o.1, some q.1, r.2.2⟩, r.1.reverse ++ r.2.1)))))

/-- Blocks of a frame. -/
def zBlocks : Nat → ZState → List Byte → List Byte → Expanded × List Byte
  | 0, _, src, out => (.bad 7 out.reverse, src)
  | k + 1, z, src, out =>
    if src.length < 3 then (.more out.reverse, src)
    else
      let h := leVal (src.take 3)
      let n := h / 8
      let body := src.drop 3
      let need := if h / 2 % 4 = 1 then 1 else n
      if 131072 < n then (.bad 7 out.reverse, src)
      else if body.length < need then (.more out.reverse, src)
      else
        let r : Option (ZState × List Byte) :=
          match h / 2 % 4 with
          | 0 => some (z, (body.take n).reverse ++ out)
          | 1 => some (z, List.replicate n (body.getD 0 0) ++ out)
          | 2 => zBlock z (body.take n) out
          | _ => none
        match r with
        | none => (.bad 7 out.reverse, src)
        | some (z', o) => if h % 2 = 1 then (.ended ⟨o.reverse, 0, 0, true, true⟩, body.drop need) else zBlocks k z' (body.drop need) o

/-- One frame, or a skippable frame, at the head of `src`. -/
def zFrame (src : List Byte) : Expanded × List Byte :=
  if src.length < 5 then (.more [], src)
  else
    let magic := leVal (src.take 4)
    if magic / 16 = 0x184D2A5 then
      if src.length < 8 ∨ src.length < 8 + leVal ((src.drop 4).take 4) then (.more [], src)
      else (.ended ⟨[], 0, 0, true, true⟩, src.drop (8 + leVal ((src.drop 4).take 4)))
    else if magic ≠ 0xFD2FB528 then (.bad 7 [], src)
    else
      let d := (src.getD 4 0).toNat
      let single := d / 32 % 2 == 1
      let dictLen := ([0, 1, 2, 4] : List Nat).getD (d % 4) 0
      let fcsLen := if d / 64 = 0 then (if single then 1 else 0) else ([0, 2, 4, 8] : List Nat).getD (d / 64) 0
      let o1 := 5 + (if single then 0 else 1)
      let hl := o1 + dictLen + fcsLen
      if src.length < hl then (.more [], src)
      else
        let wd := (src.getD 5 0).toNat
        let fcs := leVal ((src.drop (o1 + dictLen)).take fcsLen) + (if fcsLen = 2 then 256 else 0)
        let window := if single then 0 else 2 ^ (10 + wd / 8) + 2 ^ (10 + wd / 8) / 8 * (wd % 8)
        if d / 8 % 2 = 1 then (.bad 7 [], src)
        else if leVal ((src.drop o1).take dictLen) ≠ 0 ∨ 8388608 < window then (.bad 8 [], src)
        else match zBlocks (src.length + 1) ⟨none, none, none, none, (1, 4, 8)⟩ (src.drop hl) [] with
          | (.ended e, rest) =>
            let x := xxh64 e.out % 2 ^ 32
            if d / 4 % 2 = 1 then
              if rest.length < 4 then (.more e.out, rest)
              else (.ended ⟨e.out, 0, x, leVal (rest.take 4) == x, fcsLen == 0 || fcs == e.out.length⟩, rest.drop 4)
            else (.ended ⟨e.out, 0, x, true, fcsLen == 0 || fcs == e.out.length⟩, rest)
          | r => r

/-- Skippable frames at the head are skipped; one frame is expanded. -/
def zstdFrames : Nat → List Byte → Expanded × List Byte
  | 0, src => (.bad 7 [], src)
  | k + 1, src =>
    if 4 ≤ src.length ∧ leVal (src.take 4) / 16 = 0x184D2A5 then
      match zFrame src with
      | (.ended _, rest) => zstdFrames k rest
      | r => r
    else zFrame src

/-- Expands a Zstandard frame. -/
def zstdExpand (src : List Byte) : Expanded :=
  match zstdFrames (src.length + 1) src with
  | (.ended e, rest) => .ended { e with used := src.length - rest.length }
  | (.more o, _) => .more o
  | (.bad st o, _) => .bad st o

end Sys2Proof.Machine
end

