-- ==== Sys2Proof/Machine/CompOps.lean ====
section
/-! DEFINITION. Compression descriptors, stream contexts, and the engines' faults and retirement; rows COMPRESS to
ENGINE_RETIRE (R234–R256). -/

namespace Sys2Proof.Machine

/-! ### Engines -/

/-- Engine `n` is in service: powered and not retired (R253, R255). -/
def compUp (n : Nat) (s : State) : Bool := decide (n < 4) && pdOn (24 + n / 2) s && fget (Fl.CMP_STATUS_STATE n) s != 3

/-- The engine that takes work meant for engine `n` (R252, R253). -/
def compServer (n : Nat) (s : State) : Option Nat :=
  if compUp n s then some n else (List.range 4).find? (fun i => compUp i s)

/-! ### Descriptors (R245) -/

/-- The fields of a compression descriptor. -/
structure CDesc where
  op : Nat
  format : Nat
  level : Nat
  flush : Bool
  final : Bool
  checksum : Bool
  strict : Bool
  srcList : Bool
  dstList : Bool
  block : Nat
  ctx : Nat
  src : Nat
  srcLen : Nat
  dst : Nat
  dstLen : Nat
  decl : Option Nat
  srcN : Nat
  dstN : Nat
  deriving DecidableEq, Repr

/-- Bit `i` of byte `o` of a descriptor. -/
def bitAt (bs : List Byte) (o i : Nat) : Bool := fieldAt bs o 1 / 2 ^ i % 2 == 1

/-- Block sizes a format takes (BLOCK; 0 stands for 16). -/
def blockOk (format b : Nat) : Bool :=
  b == 0 || (if format = 0 then decide (12 ≤ b) && decide (b ≤ 16) else if format = 5 then b == 16 || b == 18 || b == 20 || b == 22 else true)

/-- Decodes a descriptor; none is status 11 (R245, R246, R249). -/
def cdescOf (addr : Nat) (bs : List Byte) : Option CDesc :=
  let d : CDesc :=
    { op := fieldAt bs 0 1, format := fieldAt bs 1 1, level := fieldAt bs 2 1 % 8
      flush := bitAt bs 3 0, final := bitAt bs 3 1, checksum := bitAt bs 3 2, strict := bitAt bs 3 3
      srcList := bitAt bs 3 4, dstList := bitAt bs 3 5
      block := if fieldAt bs 4 1 = 0 then 16 else fieldAt bs 4 1
      ctx := fieldAt bs 8 8, src := fieldAt bs 16 8, srcLen := fieldAt bs 24 8, dst := fieldAt bs 32 8, dstLen := fieldAt bs 40 8
      decl := if fieldAt bs 48 8 = 2 ^ 64 - 1 then none else some (fieldAt bs 48 8)
      srcN := fieldAt bs 56 2, dstN := fieldAt bs 58 2 }
  if addr % 64 ≠ 0 ∨ 3 ≤ d.op ∨ 7 ≤ d.format ∨ 8 ≤ fieldAt bs 2 1 ∨ 64 ≤ fieldAt bs 3 1 ∨ fieldAt bs 5 3 ≠ 0 ∨ fieldAt bs 60 4 ≠ 0 ∨
      blockOk d.format (fieldAt bs 4 1) = false ∨ d.ctx % 4096 ≠ 0 ∨
      (d.srcList = true ∧ (d.srcN = 0 ∨ 4096 < d.srcN)) ∨ (d.dstList = true ∧ (d.dstN = 0 ∨ 4096 < d.dstN)) ∨
      (d.ctx = 0 ∧ d.final = false ∧ ¬ (d.op = 0 ∧ d.flush = true)) ∨
      (d.format = 6 ∧ d.op ≠ 0 ∧ d.decl = none) ∨ (d.format = 6 ∧ d.op = 0 ∧ 4194304 < d.srcLen) then none
  else some d

/-- The pieces of a list of `n` entries of 16 bytes. -/
def listPieces (bs : List Byte) : Nat → List (Nat × Nat)
  | 0 => []
  | n + 1 => (fieldAt bs 0 8, fieldAt bs 8 8) :: listPieces (bs.drop 16) n

/-- The pieces of a source or destination, as far as `len` bytes: none for a bus error, an inner none for a list whose
lengths sum to less (R248). -/
def cpieces (sp : Space) (isList : Bool) (a len n : Nat) (s : State) : Option (Option (List (Nat × Nat))) :=
  if ¬ isList then some (some [(a, len)])
  else match readSpace sp a (16 * n) s with
    | none => none
    | some bs =>
      let ps := listPieces bs n
      if (ps.map (·.2)).sum < len then some none
      else some (some ((ps.foldl (fun (r : List (Nat × Nat) × Nat) p => (r.1 ++ [(p.1, min p.2 r.2)], r.2 - p.2)) ([], len)).1))

/-- The bytes of a list of pieces. -/
def readPieces (sp : Space) : List (Nat × Nat) → State → Option (List Byte)
  | [], _ => some []
  | p :: t, s => match readSpace sp p.1 p.2 s, readPieces sp t s with
    | some a, some b => some (a ++ b)
    | _, _ => none

/-- Writes bytes into pieces, in order. -/
def writePieces (sp : Space) : List (Nat × Nat) → List Byte → State → State
  | [], _, s => s
  | p :: t, bs, s => writePieces sp t (bs.drop p.2) (writeSpace sp p.1 (bs.take p.2) s)

/-- The first `n` bytes of the pieces can be written. -/
def piecesWritable (sp : Space) : List (Nat × Nat) → Nat → State → Bool
  | [], _, _ => true
  | p :: t, n, s => writable sp p.1 (min p.2 n) s && piecesWritable sp t (n - p.2) s

/-! ### Formats -/

/-- Expands a source in a format; `decl` is the declared length. -/
def expandFormat (format : Nat) (src : List Byte) : Expanded :=
  match format with
  | 0 => natStream (src.length + 1) src [] 0 true true
  | 1 => inflate src
  | 2 => zlibExpand src
  | 3 => gzipExpand src
  | 4 => zstdExpand src
  | 5 => lz4Frame src
  | _ => match lz4Block src [] with
    | .done o => .ended ⟨o, src.length, (crc32c o).toNat, true, true⟩
    | .short o => .more o
    | .bad o => .bad 7 o

/-- The check value of original data in a format's own algorithm (CHECK of R245). -/
def checkOf (format : Nat) (d : List Byte) : Nat :=
  match format with
  | 2 => adler32 d
  | 3 => crc32 d
  | 4 => xxh64 d % 2 ^ 32
  | 5 => xxh32 d
  | _ => (crc32c d).toNat

/-- A native stream ends inside a header that fails HCHECK. -/
def natHeaderFails : Nat → List Byte → Bool
  | 0, _ => false
  | k + 1, src =>
    if src.length < 16 ∨ (src.take 16).all (· == 0) then false
    else match natHeader (src.take 16) with
      | none => true
      | some h => natHeaderFails k (src.drop (16 + (h.pay + 7) / 8 * 8))

/-- Every block of a native stream follows the compressor's rules: LEVEL, the method of the level or stored, no payload
larger than stored, and at most 2^BLOCK bytes (R239, R247). -/
def natBlocksOk (level block : Nat) : Nat → List Byte → Bool
  | 0, _ => true
  | k + 1, src =>
    if src.isEmpty then true
    else match natHeader (src.take 16) with
      | none => false
      | some h => h.level == level && (h.method == 1 || h.method == (if level ≤ 2 then 2 else 3)) && decide (h.pay ≤ h.orig) &&
          decide (h.orig ≤ 2 ^ block) && natBlocksOk level block k (src.drop (16 + (h.pay + 7) / 8 * 8))

/-- The opening bytes of a compressed stream are those of R238's Compress column. -/
def streamHead (d : CDesc) (st : List Byte) : Bool :=
  let b (i : Nat) : Nat := fieldAt st i 1
  let kind (v : Nat) : Bool := v / 2 % 4 == 0 || v / 2 % 4 == (if d.level ≤ 2 then 1 else 2)
  match d.format with
  | 0 => natBlocksOk d.level d.block (st.length + 1) st
  | 1 => kind (b 0)
  | 2 => b 0 == 0x78 && kind (b 2)
  | 3 => (st.take 8) == [0x1F, 0x8B, 8, 0, 0, 0, 0, 0] && b 9 == 255 && kind (b 10)
  | 4 => fieldAt st 0 4 == 0xFD2FB528 && (b 4 / 4 % 2 == 1) == d.checksum && b 4 % 4 == 0 && b 4 / 32 % 2 == 0 &&
      (b 4 / 64 != 0) == d.decl.isSome && b 5 == 0x50
  | 5 => b 4 / 16 == 6 && (b 4 / 8 % 2 == 1) == d.decl.isSome && (b 4 / 4 % 2 == 1) == d.checksum && b 5 / 16 == 4 + (d.block - 16) / 2
  | _ => true

/-- `more` is what a compressor may give: with all earlier output it expands to the input, to its end with FINAL, to all
of it with FLUSH, and otherwise to all but at most one block (R247). -/
def compOutputOk (d : CDesc) (input before more : List Byte) : Bool :=
  let st := before ++ more
  let rest (o : List Byte) : Bool :=
    if d.flush then o == input else decide (o.length ≤ input.length) && o == input.take o.length && decide (input.length ≤ o.length + 2 ^ d.block)
  (st.isEmpty && !d.final && rest []) || (streamHead d st &&
  (match expandFormat d.format st with
    | .ended e => decide (e.used = st.length) && e.checkOk && (e.lenOk || d.decl.isSome) &&
        (if d.final then e.out == input else (d.format == 0 && rest e.out))
    | .more o => !d.final && rest o
    | .bad _ _ => false))

/-! ### Contexts (R246) -/

/-- The size of a context buffer. -/
def ctxSize (format : Nat) (expand : Bool) : Nat :=
  if format = 4 then (if expand then 8388608 + 4096 else 1048576 + 4096)
  else if format = 1 ∨ format = 2 ∨ format = 3 then 36864 else 69632

/-- What a descriptor finds at CTX_ADDR. -/
inductive CtxFound where
  | stateless
  | busError
  | found (c : CompCtx) (phys : Nat)
  /-- neither zeroed nor what an engine wrote: the manual says nothing of it -/
  | strange (phys : Nat)
  deriving DecidableEq, Repr

/-- Looks up the stream of a descriptor. -/
def ctxOf (sp : Space) (d : CDesc) (s : State) : CtxFound :=
  let ex := d.op != 0
  if d.ctx = 0 then .stateless
  else match xlate sp true d.ctx s, readSpace sp d.ctx (ctxSize d.format ex) s with
    | some p, some bs =>
      if (bs.take 256).all (· == 0) then .found ⟨d.format, ex, [], [], []⟩ p
      else match SMap.find s.comp.ctxs p with
        | some c => if c.format = d.format ∧ c.expand = ex ∧ c.image = bs then .found c p else .strange p
        | none => .strange p
    | _, _ => .busError

/-- `n` bytes the manual leaves open. -/
def freeBytes (n : Nat) (s : State) : List Byte := (List.range n).map (fun i => (Config.freeValue (s.free + i)).setWidth 8)

/-- A context is written back: its bytes are the engine's own, except that they no longer look like a new stream. -/
def putCtx (sp : Space) (d : CDesc) (phys : Nat) (c : CompCtx) (s : State) : State :=
  let img := 1 :: freeBytes (ctxSize d.format (d.op != 0) - 1) s
  writeSpace sp d.ctx img { s with free := s.free + img.length, comp := { s.comp with ctxs := SMap.put s.comp.ctxs phys { c with image := img } } }

/-! ### How an operation ends -/

/-- The outcome of an operation: status, source bytes consumed, output, check value when the manual fixes it, end of
stream, and the context after it. `valid` output stands in R249; other output is the engine's own. -/
structure CompEnd where
  status : Nat
  used : Nat
  out : List Byte
  valid : Bool
  chk : Option Nat
  ended : Bool
  ctx : Option CompCtx
  deriving DecidableEq, Repr

/-- An ending with no output. -/
def CompEnd.nothing (st : Nat) : CompEnd := ⟨st, 0, [], true, none, false, none⟩

/-- Compression of `src` where the engine gives `more` (R247, R249–R251). -/
def compressEnd (d : CDesc) (c : CompCtx) (src more : List Byte) : CompEnd :=
  let input := c.input ++ src
  if d.dstLen < more.length then ⟨2, src.length, more.take d.dstLen, true, none, false, none⟩
  else
    let st := if d.final then (match d.decl with
        | none => 0
        | some n => if input.length < n then 3 else if n < input.length then 4 else 0) else 1
    ⟨st, src.length, more, true, some (checkOf d.format input), d.final,
      if st ≤ 1 then some { c with input := input, output := c.output ++ more } else none⟩

/-- Expansion of `src` (R249–R251). With OP 2 there is no destination to overrun. -/
def expandEnd (d : CDesc) (c : CompCtx) (src : List Byte) : CompEnd :=
  let all := c.input ++ src
  let fresh (o : List Byte) : List Byte := o.drop c.output.length
  let cap := if d.op = 2 then 2 ^ 64 else d.dstLen
  let keep (o : List Byte) : Option CompCtx := some { c with input := all, output := o }
  let strictCut (o : List Byte) : Option CompEnd :=
    match d.decl with
    | none => none
    | some n => if d.strict ∧ n < o.length ∧ (n - c.output.length) ≤ cap then
        some ⟨4, src.length, (o.take n).drop c.output.length, true, none, false, none⟩ else none
  let overrun (o : List Byte) : Option CompEnd :=
    if cap < (fresh o).length then some ⟨2, src.length, (fresh o).take cap, true, none, false, none⟩ else none
  let first (o : List Byte) (e : CompEnd) : CompEnd := ((strictCut o).orElse (fun _ => overrun o)).getD e
  match expandFormat d.format all with
  | .bad st o => first o ⟨st, src.length, fresh o, false, none, false, none⟩
  | .more o =>
    if d.ctx = 0 then first o ⟨9, src.length, fresh o, false, none, false, none⟩
    else first o ⟨1, src.length, fresh o, true, none, false, keep o⟩
  | .ended e =>
    let used := e.used - c.input.length
    if d.format = 0 ∧ d.ctx ≠ 0 ∧ d.final = false ∧ e.used = all.length ∧ e.checkOk = true ∧ e.lenOk = true then
      first e.out ⟨1, src.length, fresh e.out, true, none, false, keep e.out⟩
    else
      let long := match d.decl with | none => 0 | some n => if e.out.length < n then 3 else if n < e.out.length then 4 else 0
      let st := if e.checkOk = false then 6 else if e.lenOk = false then 5 else if long ≠ 0 then long
        else if e.used < all.length then 10 else 0
      first e.out ⟨st, used, fresh e.out, st != 5 && st != 6, some e.chk, true,
        if st = 0 ∨ st = 10 then keep e.out else none⟩

/-- Reports an ending in bytes 95:64 of the descriptor (R245), and counts it (R256). An open length or check value is a
free value, the length at most what the destination holds. -/
def reportEnd (sp : Space) (addr : Nat) (d : CDesc) (dst : List (Nat × Nat)) (n : Nat) (hdrFail : Bool) (phys : Option Nat)
    (e : CompEnd) (s : State) : State :=
  let openLen := !e.valid && e.status != 5 && e.status != 6
  let prod := if openLen then freeNat 64 s % (min d.dstLen (e.out.length + 1) + 1) else min e.out.length d.dstLen
  let prod' := if d.op = 2 then (if openLen then prod else e.out.length) else prod
  let s1 := useFree s
  let used := if e.valid then e.used else if openLen then freeNat 64 s1 % (d.srcLen + 1) else e.used
  let s2 := useFree s1
  let chk := e.chk.getD (freeNat 32 s2)
  let s3 := useFree s2
  let bytes := if e.valid then e.out else freeBytes prod s3
  let s4 := if e.valid then s3 else { s3 with free := s3.free + prod }
  let s5 := if d.op = 2 ∨ e.status = 11 ∨ e.status = 13 then s4 else writePieces sp dst bytes s4
  let s6 := match e.ctx, phys with
    | some c, some p => putCtx sp d p c s5
    | _, _ => s5
  let upd := e.ctx.isSome && phys.isSome
  let s7 := writeSpace sp (addr + 64) (leBytes 8 used ++ leBytes 8 prod' ++ leBytes 4 chk ++ leBytes 1 e.status
    ++ leBytes 1 ((if e.ended then 1 else 0) + (if upd then 2 else 0))) s6
  let s8 := if e.status = 11 ∨ e.status = 13 then s7
    else s7 |> cntAdd (Reg.CMP_CNT_IN n) 64 used |> cntAdd (Reg.CMP_CNT_OUT n) 64 prod' |> cntAdd (Reg.CMP_CNT_DESC n) 64 1
  if e.status = 6 ∨ hdrFail then raiseEvent 0x09 n (Fl.CMP_EVENT_CHECK_FAIL n) (cntAdd (Reg.CMP_CNT_CHECK_FAIL n) 32 1 s8) else s8

/-- Ends a descriptor with a status and nothing written but the report: CONSUMED and PRODUCED are 0, CHECK is open. -/
def reportOnly (sp : Space) (addr st : Nat) (s : State) : State :=
  useFree (writeSpace sp (addr + 64) (leBytes 8 0 ++ leBytes 8 0 ++ leBytes 4 (freeNat 32 s) ++ leBytes 1 st ++ leBytes 1 0) s)

/-- An operation whose result the manual leaves open (`st`: its status): lengths, check value and the bytes of the
destination are the engine's own. -/
def reportOpen (sp : Space) (addr st : Nat) (d : CDesc) (dst : List (Nat × Nat)) (n : Nat) (s : State) : State :=
  reportEnd sp addr d dst n false none ⟨st, 0, List.replicate d.dstLen 0, false, none, false, none⟩ s

/-- Serves one descriptor on engine `n`: the status it ends with. `more` is the compressor's output. None: the event
cannot happen, for the output is not what a compressor may give. -/
def serveComp (n : Nat) (sp : Space) (addr : Nat) (more : List Byte) (s : State) : Option (Nat × State) :=
  match readSpace sp addr 128 s with
  | none => some (12, s)
  | some bs =>
    match cdescOf addr bs with
    | none => some (11, reportOnly sp addr 11 s)
    | some d =>
      match compServer n s with
      | none => some (13, reportOnly sp addr 13 s)
      | some n =>
        match cpieces sp d.srcList d.src d.srcLen d.srcN s, cpieces sp d.dstList d.dst d.dstLen d.dstN s with
        | some (some sps), some (some dps) =>
          match readPieces sp sps s, ctxOf sp d s with
          | none, _ => some (12, reportOpen sp addr 12 d dps n s)
          | some _, .busError => some (12, reportOpen sp addr 12 d dps n s)
          | some _, .strange _ =>
            let st := freeNat 64 s % 11
            some (st, reportOpen sp addr st d dps n (useFree s))
          | some src, .stateless => finish n d dps src ⟨d.format, d.op != 0, [], [], []⟩ none
          | some src, .found c p => finish n d dps src c (some p)
        | some none, some _ => some (11, reportOnly sp addr 11 s)
        | some _, some none => some (11, reportOnly sp addr 11 s)
        | none, _ => some (12, reportOpen sp addr 12 d [] n s)
        | _, none => some (12, reportOpen sp addr 12 d [] n s)
where
  finish (n : Nat) (d : CDesc) (dps : List (Nat × Nat)) (src : List Byte) (c : CompCtx) (p : Option Nat) : Option (Nat × State) :=
    if d.op = 0 ∧ compOutputOk d (c.input ++ src) c.output more = false then none
    else
      let e := if d.op = 0 then compressEnd d c src more else expandEnd d c src
      let hdr := d.op != 0 && d.format == 0 && e.status == 7 && natHeaderFails (c.input.length + src.length + 1) (c.input ++ src)
      if d.op ≠ 2 ∧ piecesWritable sp dps e.out.length s = false then some (12, reportOpen sp addr 12 d dps n s)
      else some (e.status, reportEnd sp addr d dps n hdr p e s)

/-- The OP of a descriptor; none where it cannot be read. -/
def compOp (sp : Space) (addr : Nat) (s : State) : Option Nat := (readSpace sp addr 1 s).map (fun b => leVal b)

/-- A descriptor row: the descriptor's OP is the row's, or reserved (status 11). -/
def compRow (want n : Nat) (sp : Space) (addr : Nat) (more : List Byte) (s : State) : State :=
  match compOp sp addr s with
  | none => s
  | some op =>
    if op = want ∨ 3 ≤ op then (match serveComp n sp addr more s with
      | some r => r.2
      | none => s)
    else s

/-- Row COMPRESS (R247): engine `n` serves the descriptor at `addr` and gives `more` as its output. -/
def execCompress (n : Nat) (sp : Space) (addr : Nat) (more : List Byte) (s : State) : Out := .next (compRow 0 n sp addr more s)

/-- Row EXPAND (R250). -/
def execExpand (n : Nat) (sp : Space) (addr : Nat) (s : State) : Out := .next (compRow 1 n sp addr [] s)

/-- Row CHECK (R249): expand and verify without writing output. -/
def execCheck (n : Nat) (sp : Space) (addr : Nat) (s : State) : Out := .next (compRow 2 n sp addr [] s)

/-! ### Faults, abort and retirement (R253–R255) -/

/-- Engine `n` is retired for good; its pair's domain goes off with both (R68), and with no engine left software
falls back (R254). -/
def retireComp (n : Nat) (s : State) : State :=
  if ¬ compUp n s then s
  else
    let s1 := raiseEvent 0x09 n (Fl.CMP_EVENT_RETIRED n) (fset (Fl.CMP_STATUS_STATE n) 3 s)
    let pair := n / 2 * 2
    let s2 := if fget (Fl.CMP_STATUS_STATE pair) s1 = 3 ∧ fget (Fl.CMP_STATUS_STATE (pair + 1)) s1 = 3 then retireDomain (24 + n / 2) s1 else s1
    if (List.range 4).all (fun i => fget (Fl.CMP_STATUS_STATE i) s2 == 3) then raiseEvent 0x09 0 (Fl.CMP_EVENT_SW_FALLBACK 0) s2 else s2

/-- Row ENGINE_FAULT (R253): an internal fault on engine `n`; its operation restarts on another engine, from its start. A second operation with
a fault within 10 s retires the engine. -/
def execEngineFault (n : Nat) (s : State) : Out :=
  if ¬ compUp n s then .next s
  else
    let s1 := raiseEvent 0x09 n (Fl.CMP_EVENT_FAULT n) (cntAdd (Reg.CMP_CNT_FAULT n) 32 1
      { s with comp := { s.comp with faults := SMap.put s.comp.faults n s.tick } })
    .next (if (SMap.find s.comp.faults n).any (fun t => decide (s.tick ≤ t + 10000000)) then retireComp n s1 else s1)

/-- The descriptor in progress ends with status 14 (R255). -/
def abortComp (n : Nat) (sp : Space) (addr : Nat) (s : State) : State :=
  match (readSpace sp addr 128 s).bind (cdescOf addr) with
  | none => s
  | some d =>
    match cpieces sp d.dstList d.dst d.dstLen d.dstN s with
    | some (some dps) => reportOpen sp addr 14 d dps n s
    | _ => reportOpen sp addr 14 d [] n s

/-- Row ENGINE_ABORT (R255): CTRL.ABORT of engine `n` while it works on the descriptor at `addr`. -/
def execEngineAbort (n : Nat) (sp : Space) (addr : Nat) (s : State) : Out :=
  .next (if compUp n s then abortComp n sp addr s else s)

/-- Row ENGINE_RETIRE (R253, R256): CTRL.RETIRE with the key; any other key is ignored with a postmark. -/
def execEngineRetire (n key req : Nat) (s : State) : Out :=
  if ¬ compUp n s then .next (busError (Reg.CMP_CTRL n) req 4 s)
  else if key ≠ 0xA5 then .next (writeIgnored (Reg.CMP_CTRL n) req (2 + 256 * key) s)
  else .next (retireComp n s)

end Sys2Proof.Machine
end

