-- ==== Sys2Proof/Machine/Sha.lean ====
section
/-! DEFINITION. The digest algorithms of R257: SHA-256, SHA-384, SHA-512 (FIPS 180-4), SHA3-256, SHA3-512 (FIPS 202), and
HMAC (RFC 2104). -/

namespace Sys2Proof.Machine

/-- Big-endian value of bytes. -/
def beVal (bs : List Byte) : Nat := bs.foldl (fun n b => 256 * n + b.toNat) 0

/-- The `n` low bytes of a value, most significant first. -/
def beBytesOf (n v : Nat) : List Byte := ((List.range n).map (fun i => BitVec.ofNat 8 (v / 2 ^ (8 * i)))).reverse

/-- Pieces of `n` bytes; `k` bounds their number. -/
def chunks (n : Nat) : Nat → List Byte → List (List Byte)
  | 0, _ => []
  | k + 1, l => if l.isEmpty then [] else l.take n :: chunks n k (l.drop n)

/-! ### SHA-2 -/

/-- The figures in which the 32-bit and 64-bit hashes differ: word width, rounds, rotations of Σ0, Σ1, σ0 and σ1. -/
structure Sha2 (w : Nat) where
  rounds : Nat
  big0 : Nat × Nat × Nat
  big1 : Nat × Nat × Nat
  small0 : Nat × Nat × Nat
  small1 : Nat × Nat × Nat
  k : List (BitVec w)

/-- Round constants of SHA-256. -/
def sha256K : List (BitVec 32) :=
  [0x428A2F98, 0x71374491, 0xB5C0FBCF, 0xE9B5DBA5, 0x3956C25B, 0x59F111F1, 0x923F82A4, 0xAB1C5ED5] ++
  [0xD807AA98, 0x12835B01, 0x243185BE, 0x550C7DC3, 0x72BE5D74, 0x80DEB1FE, 0x9BDC06A7, 0xC19BF174] ++
  [0xE49B69C1, 0xEFBE4786, 0x0FC19DC6, 0x240CA1CC, 0x2DE92C6F, 0x4A7484AA, 0x5CB0A9DC, 0x76F988DA] ++
  [0x983E5152, 0xA831C66D, 0xB00327C8, 0xBF597FC7, 0xC6E00BF3, 0xD5A79147, 0x06CA6351, 0x14292967] ++
  [0x27B70A85, 0x2E1B2138, 0x4D2C6DFC, 0x53380D13, 0x650A7354, 0x766A0ABB, 0x81C2C92E, 0x92722C85] ++
  [0xA2BFE8A1, 0xA81A664B, 0xC24B8B70, 0xC76C51A3, 0xD192E819, 0xD6990624, 0xF40E3585, 0x106AA070] ++
  [0x19A4C116, 0x1E376C08, 0x2748774C, 0x34B0BCB5, 0x391C0CB3, 0x4ED8AA4A, 0x5B9CCA4F, 0x682E6FF3] ++
  [0x748F82EE, 0x78A5636F, 0x84C87814, 0x8CC70208, 0x90BEFFFA, 0xA4506CEB, 0xBEF9A3F7, 0xC67178F2]

/-- Round constants of SHA-384 and SHA-512. -/
def sha512K : List (BitVec 64) :=
  [0x428A2F98D728AE22, 0x7137449123EF65CD, 0xB5C0FBCFEC4D3B2F, 0xE9B5DBA58189DBBC] ++
  [0x3956C25BF348B538, 0x59F111F1B605D019, 0x923F82A4AF194F9B, 0xAB1C5ED5DA6D8118] ++
  [0xD807AA98A3030242, 0x12835B0145706FBE, 0x243185BE4EE4B28C, 0x550C7DC3D5FFB4E2] ++
  [0x72BE5D74F27B896F, 0x80DEB1FE3B1696B1, 0x9BDC06A725C71235, 0xC19BF174CF692694] ++
  [0xE49B69C19EF14AD2, 0xEFBE4786384F25E3, 0x0FC19DC68B8CD5B5, 0x240CA1CC77AC9C65] ++
  [0x2DE92C6F592B0275, 0x4A7484AA6EA6E483, 0x5CB0A9DCBD41FBD4, 0x76F988DA831153B5] ++
  [0x983E5152EE66DFAB, 0xA831C66D2DB43210, 0xB00327C898FB213F, 0xBF597FC7BEEF0EE4] ++
  [0xC6E00BF33DA88FC2, 0xD5A79147930AA725, 0x06CA6351E003826F, 0x142929670A0E6E70] ++
  [0x27B70A8546D22FFC, 0x2E1B21385C26C926, 0x4D2C6DFC5AC42AED, 0x53380D139D95B3DF] ++
  [0x650A73548BAF63DE, 0x766A0ABB3C77B2A8, 0x81C2C92E47EDAEE6, 0x92722C851482353B] ++
  [0xA2BFE8A14CF10364, 0xA81A664BBC423001, 0xC24B8B70D0F89791, 0xC76C51A30654BE30] ++
  [0xD192E819D6EF5218, 0xD69906245565A910, 0xF40E35855771202A, 0x106AA07032BBD1B8] ++
  [0x19A4C116B8D2D0C8, 0x1E376C085141AB53, 0x2748774CDF8EEB99, 0x34B0BCB5E19B48A8] ++
  [0x391C0CB3C5C95A63, 0x4ED8AA4AE3418ACB, 0x5B9CCA4F7763E373, 0x682E6FF3D6B2B8A3] ++
  [0x748F82EE5DEFB2FC, 0x78A5636F43172F60, 0x84C87814A1F0AB72, 0x8CC702081A6439EC] ++
  [0x90BEFFFA23631E28, 0xA4506CEBDE82BDE9, 0xBEF9A3F7B2C67915, 0xC67178F2E372532B] ++
  [0xCA273ECEEA26619C, 0xD186B8C721C0C207, 0xEADA7DD6CDE0EB1E, 0xF57D4F7FEE6ED178] ++
  [0x06F067AA72176FBA, 0x0A637DC5A2C898A6, 0x113F9804BEF90DAE, 0x1B710B35131C471B] ++
  [0x28DB77F523047D84, 0x32CAAB7B40C72493, 0x3C9EBE0A15C9BEBC, 0x431D67C49C100D4C] ++
  [0x4CC5D4BECB3E42B6, 0x597F299CFC657E2A, 0x5FCB6FAB3AD6FAEC, 0x6C44198C4A475817]

/-- SHA-256's figures. -/
def sha256P : Sha2 32 := ⟨64, (2, 13, 22), (6, 11, 25), (7, 18, 3), (17, 19, 10), sha256K⟩
/-- SHA-512's figures. -/
def sha512P : Sha2 64 := ⟨80, (28, 34, 39), (14, 18, 41), (1, 8, 7), (19, 61, 6), sha512K⟩

/-- Initial values. -/
def sha256H : List (BitVec 32) := [0x6A09E667, 0xBB67AE85, 0x3C6EF372, 0xA54FF53A, 0x510E527F, 0x9B05688C, 0x1F83D9AB, 0x5BE0CD19]
def sha384H : List (BitVec 64) :=
  [0xCBBB9D5DC1059ED8, 0x629A292A367CD507, 0x9159015A3070DD17, 0x152FECD8F70E5939] ++
  [0x67332667FFC00B31, 0x8EB44A8768581511, 0xDB0C2E0D64F98FA7, 0x47B5481DBEFA4FA4]
def sha512H : List (BitVec 64) :=
  [0x6A09E667F3BCC908, 0xBB67AE8584CAA73B, 0x3C6EF372FE94F82B, 0xA54FF53A5F1D36F1] ++
  [0x510E527FADE682D1, 0x9B05688C2B3E6C1F, 0x1F83D9ABFB41BD6B, 0x5BE0CD19137E2179]

/-- Σ and σ. -/
def bigSigma {w : Nat} (r : Nat × Nat × Nat) (x : BitVec w) : BitVec w := x.rotateRight r.1 ^^^ x.rotateRight r.2.1 ^^^ x.rotateRight r.2.2
def smallSigma {w : Nat} (r : Nat × Nat × Nat) (x : BitVec w) : BitVec w := x.rotateRight r.1 ^^^ x.rotateRight r.2.1 ^^^ (x >>> r.2.2)

/-- The message schedule, newest word first. -/
def sha2Schedule {w : Nat} (p : Sha2 w) : Nat → List (BitVec w) → List (BitVec w)
  | 0, m => m
  | n + 1, m => sha2Schedule p n ((smallSigma p.small1 (m.getD 1 0) + m.getD 6 0 + smallSigma p.small0 (m.getD 14 0) + m.getD 15 0) :: m)

/-- The rounds. -/
def sha2Rounds {w : Nat} (p : Sha2 w) : List (BitVec w × BitVec w) → List (BitVec w) → List (BitVec w)
  | [], v => v
  | (k, m) :: t, [a, b, c, d, e, f, g, h] =>
    let t1 := h + bigSigma p.big1 e + ((e &&& f) ^^^ (~~~e &&& g)) + k + m
    let t2 := bigSigma p.big0 a + ((a &&& b) ^^^ (a &&& c) ^^^ (b &&& c))
    sha2Rounds p t [t1 + t2, a, b, c, d + t1, e, f, g]
  | _ :: _, v => v

/-- One block. -/
def sha2Block {w : Nat} (p : Sha2 w) (h : List (BitVec w)) (b : List Byte) : List (BitVec w) :=
  let m := (chunks (w / 8) 16 b).map (fun x => BitVec.ofNat w (beVal x))
  let ws := (sha2Schedule p (p.rounds - 16) m.reverse).reverse
  List.zipWith (· + ·) h (sha2Rounds p (p.k.zip ws) h)

/-- A padded SHA-2 message. -/
def sha2Pad (w : Nat) (msg : List Byte) : List Byte :=
  let blk := 2 * w
  let z := (blk - (msg.length + 1 + w / 4) % blk) % blk
  msg ++ [0x80] ++ List.replicate z 0 ++ beBytesOf (w / 4) (8 * msg.length)

/-- SHA-2 of a message. -/
def sha2 {w : Nat} (p : Sha2 w) (h0 : List (BitVec w)) (msg : List Byte) : List Byte :=
  let bs := chunks (2 * w) (msg.length / (2 * w) + 3) (sha2Pad w msg)
  (bs.foldl (sha2Block p) h0).flatMap (fun x => beBytesOf (w / 8) x.toNat)

/-! ### SHA-3 -/

/-- Rotation offsets of ρ by lane x + 5 y, and the round constants of ι. -/
def keccakRho : List Nat := [0, 1, 62, 28, 27, 36, 44, 6, 55, 20, 3, 10, 43, 25, 39, 41, 45, 15, 21, 8, 18, 2, 61, 56, 14]
def keccakRC : List (BitVec 64) :=
  [0x0000000000000001, 0x0000000000008082, 0x800000000000808A, 0x8000000080008000] ++
  [0x000000000000808B, 0x0000000080000001, 0x8000000080008081, 0x8000000000008009] ++
  [0x000000000000008A, 0x0000000000000088, 0x0000000080008009, 0x000000008000000A] ++
  [0x000000008000808B, 0x800000000000008B, 0x8000000000008089, 0x8000000000008003] ++
  [0x8000000000008002, 0x8000000000000080, 0x000000000000800A, 0x800000008000000A] ++
  [0x8000000080008081, 0x8000000000008080, 0x0000000080000001, 0x8000000080008008]

/-- One round of Keccak-f[1600]. -/
def keccakRound (rc : BitVec 64) (a : List (BitVec 64)) : List (BitVec 64) :=
  let col (x : Nat) : BitVec 64 := a.getD x 0 ^^^ a.getD (x + 5) 0 ^^^ a.getD (x + 10) 0 ^^^ a.getD (x + 15) 0 ^^^ a.getD (x + 20) 0
  let c := (List.range 5).map col
  let th := (List.range 25).map (fun i => a.getD i 0 ^^^ c.getD ((i + 4) % 5) 0 ^^^ (c.getD ((i + 1) % 5) 0).rotateLeft 1)
  let b := (List.range 25).map (fun i =>
    let x := i % 5
    let y := i / 5
    let sx := (x + 3 * y) % 5
    (th.getD (sx + 5 * x) 0).rotateLeft (keccakRho.getD (sx + 5 * x) 0))
  let chi := (List.range 25).map (fun i =>
    let y := i / 5 * 5
    b.getD i 0 ^^^ (~~~(b.getD (y + (i + 1) % 5) 0) &&& b.getD (y + (i + 2) % 5) 0))
  match chi with
  | [] => []
  | h :: t => (h ^^^ rc) :: t

/-- Keccak-f[1600]. -/
def keccakF (a : List (BitVec 64)) : List (BitVec 64) := keccakRC.foldl (fun v rc => keccakRound rc v) a

/-- SHA-3 with a rate of `rate` bytes and a result of `n` bytes. -/
def sha3 (rate n : Nat) (msg : List Byte) : List Byte :=
  let q := rate - msg.length % rate
  let pad : List Byte := if q = 1 then [0x86] else [0x06] ++ List.replicate (q - 2) 0 ++ [0x80]
  let absorb (v : List (BitVec 64)) (b : List Byte) : List (BitVec 64) :=
    keccakF (v.zipIdx.map (fun p => p.1 ^^^ BitVec.ofNat 64 (beVal ((b.drop (8 * p.2)).take 8).reverse)))
  let v := (chunks rate (msg.length / rate + 2) (msg ++ pad)).foldl absorb (List.replicate 25 0)
  (v.flatMap (fun x => (beBytesOf 8 x.toNat).reverse)).take n

/-! ### The engine's algorithms (R257) -/

/-- Block and result size of an algorithm. -/
def digBlock (alg : Nat) : Nat := match alg with | 0 => 64 | 1 => 128 | 2 => 128 | 3 => 136 | _ => 72
def digLen (alg : Nat) : Nat := match alg with | 0 => 32 | 1 => 48 | 2 => 64 | 3 => 32 | _ => 64

/-- The plain digest of a message. -/
def digest (alg : Nat) (msg : List Byte) : List Byte :=
  match alg with
  | 0 => sha2 sha256P sha256H msg
  | 1 => (sha2 sha512P sha384H msg).take 48
  | 2 => sha2 sha512P sha512H msg
  | 3 => sha3 136 32 msg
  | _ => sha3 72 64 msg

/-- HMAC of a message under a key of at most one block. -/
def hmac (alg : Nat) (key msg : List Byte) : List Byte :=
  let k := (key ++ List.replicate (digBlock alg - key.length) 0).take (digBlock alg)
  digest alg (k.map (· ^^^ 0x5C) ++ digest alg (k.map (· ^^^ 0x36) ++ msg))

end Sys2Proof.Machine
end

