-- ==== Sys2Proof/Machine/DigestOps.lean ====
section
/-! DEFINITION. The digest engine: contexts fed by words, state blobs and digest letters; rows DIGEST_CLAIM to
DIGEST_LETTER and CONTEXT_ALARM (R257–R267, R275). -/

namespace Sys2Proof.Machine

/-! ### Contexts -/

/-- Context `c`. -/
def digCtx (c : Nat) (s : State) : DigCtx := SMap.getD s.dig.ctxs c DigCtx.fresh

/-- Replaces context `c`. -/
def setDigCtx (c : Nat) (x : DigCtx) (s : State) : State := { s with dig := { s.dig with ctxs := SMap.putD DigCtx.fresh s.dig.ctxs c x } }

/-- STATE of a context. -/
def digState (c : Nat) (s : State) : Nat := fget (Fl.DIG_CTX_STATUS_STATE c) s

/-- A free pool context serves letters (R259). -/
def letterCtx (s : State) : Bool := (List.range 16).any (fun c => 6 ≤ c && digState c s == 0)

/-- Digest letters that have reached the engine and wait for a context. -/
def lettersWaiting (s : State) : Nat :=
  s.dig.waiting.length + (if letterCtx s then 0 else (s.sch.letters.filter (fun l => l.target == 3 && l.state == .running)).length)

/-- DIG.STATUS: the pool contexts in state free, and the letters that wait, saturating at 31. -/
def showFree (s : State) : State :=
  s |> fset Fl.DIG_STATUS_FREE (((List.range 16).map (fun c => if 6 ≤ c ∧ digState c s = 0 then 2 ^ c else 0)).sum)
    |> fset Fl.DIG_STATUS_LETTERS_WAIT (Nat.min (lettersWaiting s) 31)

/-- Sets STATE. -/
def setDigState (c st : Nat) (s : State) : State := showFree (fset (Fl.DIG_CTX_STATUS_STATE c) st s)

/-- The result registers. -/
def setResult (c : Nat) (bs : List Byte) (s : State) : State :=
  forN (fun j t => wr (Reg.DIG_CTX_RESULT c j) (BitVec.ofNat 64 (fieldAt bs (8 * j) 8)) t) 8 s

/-- Everything of the message in a context is zeroed (R264). -/
def wipeCtx (c : Nat) (s : State) : State :=
  s |> setDigCtx c DigCtx.fresh |> wr (Reg.DIG_CTX_COUNT c) 0 |> setResult c [] |> fset (Fl.DIG_CTX_STATUS_BUSY c) 0

/-- A fault clears the context: STATE error, ERR the cause (R264). -/
def clearCtx (c err : Nat) (s : State) : State :=
  s |> wipeCtx c |> fset (Fl.DIG_CTX_STATUS_ERR c) err |> setDigState c 4 |> raiseEvent 0x0A 0 Fl.DIG_EVENT_CLEARED

/-- The agent owns the context (R258, R260): control cores 0–3, management 4–5, the claimer of a pool context; the debug
link is exempt. -/
def ownsCtx (c req : Nat) (s : State) : Bool :=
  req == 0x11 || (if c < 4 then decide (req ≤ 0x0B) else if c < 6 then req == 0x10 else fget (Fl.DIG_CTX_STATUS_OWNER c) s == req && digState c s != 0)

/-- A write by another agent: bus error and postmark (R260). -/
def foreignWrite (addr req size : Nat) (s : State) : State :=
  busError addr req size (raiseEvent 0x0A 0 Fl.DIG_EVENT_FOREIGN s)

/-- The digest block answers: domain PD26 is powered. -/
def digUp (s : State) : Bool := pdOn 26 s

/-- The result of a context's message, plain or HMAC. -/
def digResult (alg : Nat) (hm : Bool) (key msg : List Byte) : List Byte := if hm then hmac alg key msg else digest alg msg

/-- The message ends: the result stands, STATE done. -/
def finishCtx (c : Nat) (msg : List Byte) (s : State) : State :=
  let r := digResult (fget (Fl.DIG_CTX_CTRL_ALG c) s) (fget (Fl.DIG_CTX_CTRL_HMAC c) s == 1) (digCtx c s).key msg
  s |> setDigCtx c { digCtx c s with key := [], msg := [], held := none } |> setResult c r
    |> fset (Fl.DIG_CTX_STATUS_BUSY c) 0 |> setDigState c 3

/-- `n` message bytes are absorbed. -/
def countBytes (c n : Nat) (s : State) : State :=
  s |> wr (Reg.DIG_CTX_COUNT c) (rd (Reg.DIG_CTX_COUNT c) s + BitVec.ofNat 64 n) |> cntAdd Reg.DIG_CNT_BYTES 64 n

/-- Declared length; none when all ones. -/
def digDecl (c : Nat) (s : State) : Option Nat :=
  let v := (rd (Reg.DIG_CTX_DECL c) s).toNat
  if v = 2 ^ 64 - 1 then none else some v

/-- Bytes join the message; a block filled sets BUSY (R263). A word held back fills the block only when the next word releases it (DESIGN CHOICE,
log 65). -/
def absorb (c : Nat) (bs : List Byte) (s : State) : State :=
  let x := digCtx c s
  let m := x.msg ++ bs
  let s1 := countBytes c bs.length (setDigCtx c { x with msg := m } s)
  if m.length % digBlock (fget (Fl.DIG_CTX_CTRL_ALG c) s) = 0 then fset (Fl.DIG_CTX_STATUS_BUSY c) 1 s1 else s1

/-! ### State blobs (R265) -/

/-- A new state blob: 512 bytes whose format is private (R265). -/
def newBlob (alg : Nat) (hm : Bool) (x : DigCtx) (decl : Nat) (s : State) : DigBlob × State :=
  (⟨freeBytes 512 s, alg, hm, x.key, x.msg, x.held, decl⟩, { s with free := s.free + 512 })

/-- A blob is remembered with the bytes it was written as. -/
def keepBlob (b : DigBlob) (s : State) : State := { s with dig := { s.dig with blobs := b :: s.dig.blobs } }

/-- The blob whose bytes lie at an address, since the last Rise. -/
def blobOf (bs : List Byte) (s : State) : Option DigBlob := s.dig.blobs.find? (fun b => b.image == bs)

/-! ### Digest letters (R259, R266) -/

/-- Bytes 7 and 63:56 of a digest descriptor. -/
def letterEnds (sp : Space) (addr st count : Nat) (s : State) : State :=
  writeSpace sp (addr + 56) (leBytes 8 count) (writeSpace sp (addr + 7) (leBytes 1 st) s)

/-- A descriptor breaks R266 (status 4). -/
def digDescBad (bs : List Byte) : Bool :=
  let fl := fieldAt bs 1 1
  let start := fl % 2 == 1
  let kl := fieldAt bs 2 1
  decide (4 < fieldAt bs 0 1) || decide (16 ≤ fl) || fieldAt bs 3 1 != 0 || fieldAt bs 6 1 != 0 ||
  (if start && fl / 8 % 2 == 1 then kl == 0 || decide (128 < kl) || decide (digBlock (fieldAt bs 0 1) < kl) else kl != 0) ||
  fieldAt bs 8 8 % 64 != 0 || (fieldAt bs 8 8 == 0 && !(start && fl / 2 % 2 == 1)) ||
  (fl / 4 % 2 == 1 && (fieldAt bs 4 2 == 0 || decide (4096 < fieldAt bs 4 2)))

/-- One digest letter: the status it ends with. -/
def digestLetter (sp : Space) (addr : Nat) (s : State) : Nat × State :=
  match readSpace sp addr 64 s with
  | none => (5, s)
  | some bs =>
    let stop (st n : Nat) : Nat × State := (st, letterEnds sp addr st n s)
    if digDescBad bs then stop 4 0
    else
      let alg := fieldAt bs 0 1
      let fl := fieldAt bs 1 1
      let hm := fl / 8 % 2 == 1
      let blobA := fieldAt bs 8 8
      let srcLen := fieldAt bs 24 8
      let decl := fieldAt bs 32 8
      let base : Option (Option DigBlob) :=
        if fl % 2 = 1 then
          (if hm then (readSpace sp (fieldAt bs 40 8) (fieldAt bs 2 1) s).map (fun k => some ⟨[], alg, hm, k, [], none, decl⟩)
           else some (some ⟨[], alg, hm, [], [], none, decl⟩))
        else (readSpace sp blobA 512 s).map (fun b => (blobOf b s).filter (fun x => x.alg == alg && x.hmac == hm))
      match base with
      | none => stop 5 0
      | some none => (7, letterEnds sp addr 7 0 (raiseEvent 0x0A 0 Fl.DIG_EVENT_BLOB_REFUSED s))
      | some (some b) =>
        let n0 := b.msg.length
        if decl ≠ 2 ^ 64 - 1 ∧ decl < n0 + srcLen then stop 3 n0
        else match cpieces sp (fl / 4 % 2 == 1) (fieldAt bs 16 8) srcLen (fieldAt bs 4 2) s with
          | none => stop 5 n0
          | some none => stop 4 n0
          | some (some ps) =>
            match readPieces sp ps s with
            | none => stop 5 n0
            | some src =>
              let msg := b.msg ++ src
              if fl / 2 % 2 = 1 then
                if decl ≠ 2 ^ 64 - 1 ∧ msg.length < decl then stop 2 n0
                else if writable sp (fieldAt bs 48 8) (digLen alg) s = false then stop 5 n0
                else (0, letterEnds sp addr 0 msg.length
                  (writeSpace sp (fieldAt bs 48 8) (digResult alg hm b.key msg) (cntAdd Reg.DIG_CNT_BYTES 64 src.length s)))
              else if writable sp blobA 512 s = false then stop 5 n0
              else
                let p := newBlob alg hm ⟨[], b.key, msg, none⟩ decl s
                (1, letterEnds sp addr 1 msg.length
                  (writeSpace sp blobA p.1.image (keepBlob p.1 (cntAdd Reg.DIG_CNT_BYTES 64 src.length p.2))))

/-- The letters that waited are served in arrival order once a context is free (R259): each takes it, ends and frees it. -/
def serveLetters (s : State) : State :=
  if letterCtx s then
    showFree (forEach (fun l t => (digestLetter l.1 l.2 t).2) s.dig.waiting { s with dig := { s.dig with waiting := [] } })
  else s

/-! ### Operations of CTX_CTRL (R275) -/

/-- Pool contexts claimed. -/
def claimed (s : State) : Nat := ((List.range 16).filter (fun c => 6 ≤ c && digState c s != 0 && fget (Fl.DIG_CTX_STATUS_OWNER c) s != 0x20)).length

/-- CLAIM (R258): the first claim of a free pool context wins; others, and those beyond CLAIM_MAX, are ignored. -/
def digClaim (c req : Nat) (s : State) : State :=
  if c < 6 then writeIgnored (Reg.DIG_CTX_CTRL c) req 0x60 s
  else if digState c s ≠ 0 ∨ fget Fl.DIG_CFG_CLAIM_MAX s ≤ claimed s then s
  else s |> fset (Fl.DIG_CTX_STATUS_OWNER c) req |> setDigState c 1

/-- RELEASE: clears and frees. -/
def digRelease (c req : Nat) (s : State) : State :=
  if c < 6 then writeIgnored (Reg.DIG_CTX_CTRL c) req 0x70 s
  else s |> wipeCtx c |> fset (Fl.DIG_CTX_STATUS_ERR c) 0 |> fset (Fl.DIG_CTX_STATUS_OWNER c) 0xFF
    |> fset (Fl.DIG_CTX_CTRL_ALG c) 0 |> fset (Fl.DIG_CTX_CTRL_HMAC c) 0 |> wr (Reg.DIG_CTX_DECL c) (BitVec.allOnes 64) |> setDigState c 0 |> serveLetters

/-- The owner a fixed context shows once in use. -/
def fixedOwner (c : Nat) (s : State) : State :=
  if c < 4 then fset (Fl.DIG_CTX_STATUS_OWNER c) 0x0C s else if c < 6 then fset (Fl.DIG_CTX_STATUS_OWNER c) 0x10 s else s

/-- START (R262): absorbing begins with the HMAC key taken from CTX_KEY, which is cleared. -/
def digStart (c : Nat) (s : State) : State :=
  if digState c s = 2 then otherPostmark 0x0A 0 (Reg.DIG_CTX_CTRL c) 0x10 260 (fset (Fl.DIG_CTX_STATUS_ERR c) 4 s)
  else
    let key := (digCtx c s).keyRegs.flatMap (fun w => leBytes 8 w.toNat)
    let s1 := s |> setDigCtx c { DigCtx.fresh with key := if fget (Fl.DIG_CTX_CTRL_HMAC c) s = 1 then key else [] }
      |> wr (Reg.DIG_CTX_COUNT c) 0 |> setResult c [] |> fset (Fl.DIG_CTX_STATUS_ERR c) 0 |> fixedOwner c |> setDigState c 2
    if digDecl c s1 = some 0 then finishCtx c [] s1 else s1

/-- FINISH (R263, R264). After the message has ended it has no effect, with or without a declared length (DESIGN CHOICE, log 65). -/
def digFinish (c : Nat) (s : State) : State :=
  if digState c s = 3 then s
  else if digState c s ≠ 2 then clearCtx c 4 s
  else match digDecl c s with
    | some _ => clearCtx c 1 s
    | none =>
      match (digCtx c s).held with
      | none => finishCtx c (digCtx c s).msg s
      | some w =>
        let n := fget (Fl.DIG_CTX_CTRL_LAST_BYTES c) s
        let bs := leBytes (if n = 0 then 8 else n) w.toNat
        finishCtx c ((digCtx c s).msg ++ bs) (countBytes c bs.length s)

/-- ABORT: clears without setting ERR. -/
def digAbort (c : Nat) (s : State) : State := s |> wipeCtx c |> setDigState c (if c < 6 then 0 else 1)

/-- EXPORT (R265): only between words, with BUSY 0 and a message in progress; otherwise ignored with a postmark (DESIGN CHOICE, log 65). -/
def digExport (c req : Nat) (s : State) : State :=
  let a := fget (Fl.DIG_CTX_BLOB_ADDR c) s / 64 * 64
  if digState c s ≠ 2 ∨ fget (Fl.DIG_CTX_STATUS_BUSY c) s = 1 then writeIgnored (Reg.DIG_CTX_CTRL c) req 0x40 s
  else if writable .phys a 512 s = false then clearCtx c 5 s
  else
    let p := newBlob (fget (Fl.DIG_CTX_CTRL_ALG c) s) (fget (Fl.DIG_CTX_CTRL_HMAC c) s == 1) (digCtx c s) (rd (Reg.DIG_CTX_DECL c) s).toNat s
    p.2 |> keepBlob p.1 |> writeSpace .phys a p.1.image |> wipeCtx c |> setDigState c 1

/-- IMPORT (R265): the message goes on where it was exported. With BUSY 1 it is ignored with a postmark, and while absorbing refused as START is
(DESIGN CHOICE, log 65). -/
def digImport (c req : Nat) (s : State) : State :=
  let a := fget (Fl.DIG_CTX_BLOB_ADDR c) s / 64 * 64
  if fget (Fl.DIG_CTX_STATUS_BUSY c) s = 1 then writeIgnored (Reg.DIG_CTX_CTRL c) req 0x50 s
  else if digState c s = 2 then otherPostmark 0x0A 0 (Reg.DIG_CTX_CTRL c) 0x50 265 (fset (Fl.DIG_CTX_STATUS_ERR c) 4 s)
  else match readSpace .phys a 512 s with
    | none => clearCtx c 5 s
    | some bs =>
      match blobOf bs s with
      | some b =>
        if b.alg = fget (Fl.DIG_CTX_CTRL_ALG c) s ∧ b.hmac = (fget (Fl.DIG_CTX_CTRL_HMAC c) s == 1) then
          s |> setDigCtx c { DigCtx.fresh with key := b.key, msg := b.msg, held := b.held } |> setResult c []
            |> wr (Reg.DIG_CTX_COUNT c) (BitVec.ofNat 64 b.msg.length) |> wr (Reg.DIG_CTX_DECL c) (BitVec.ofNat 64 b.decl)
            |> fset (Fl.DIG_CTX_STATUS_ERR c) 0 |> fixedOwner c |> setDigState c 2
        else raiseEvent 0x0A 0 Fl.DIG_EVENT_BLOB_REFUSED (clearCtx c 7 s)
      | none => raiseEvent 0x0A 0 Fl.DIG_EVENT_BLOB_REFUSED (clearCtx c 7 s)

/-- A write of CTX_CTRL: ALG, HMAC and LAST_BYTES, then OP (R260, R264, R275). While absorbing, a write that changes ALG is the ORDER fault, but
with START or ABORT, and HMAC keeps its value (DESIGN CHOICE, log 65). -/
def digCtrl (c v req : Nat) (s : State) : State :=
  let op := v / 16 % 8
  let alg := v % 8
  if ¬ digUp s then busError (Reg.DIG_CTX_CTRL c) req 4 s
  else if op ≠ 6 ∧ ¬ ownsCtx c req s then foreignWrite (Reg.DIG_CTX_CTRL c) req 4 s
  else if 5 ≤ alg then writeIgnored (Reg.DIG_CTX_CTRL c) req v s
  else if op = 6 then digClaim c req s
  else if digState c s = 2 ∧ op ≠ 1 ∧ op ≠ 3 ∧ (alg ≠ fget (Fl.DIG_CTX_CTRL_ALG c) s) then clearCtx c 4 s
  else
    let s1 := if digState c s = 2 then fset (Fl.DIG_CTX_CTRL_LAST_BYTES c) (v / 256 % 8) s
      else s |> fset (Fl.DIG_CTX_CTRL_ALG c) alg |> fset (Fl.DIG_CTX_CTRL_HMAC c) (v / 8 % 2) |> fset (Fl.DIG_CTX_CTRL_LAST_BYTES c) (v / 256 % 8)
    match op with
    | 1 => digStart c s1
    | 2 => digFinish c s1
    | 3 => digAbort c s1
    | 4 => digExport c req s1
    | 5 => digImport c req s1
    | 7 => digRelease c req s1
    | _ => s1

/-- A CTX_CTRL value with its OP replaced. -/
def withOp (v op : Nat) : Nat := v % 16 + 16 * op + v / 128 * 128

/-- A write of CTX_DATA (R262–R264). After a message without a declared length has ended it is an ORDER fault (DESIGN CHOICE, log 65). -/
def digData (c : Nat) (w : Word) (size off req : Nat) (s : State) : State :=
  let a := Reg.DIG_CTX_DATA c
  if ¬ digUp s then busError a req size s
  else if ¬ ownsCtx c req s then foreignWrite a req size s
  else if size = 1 ∨ size = 2 ∨ off % size ≠ 0 then clearCtx c 5 s
  else if size ≠ 8 then busError a req size s
  else if digState c s = 3 ∧ (digDecl c s).isSome then clearCtx c 2 s
  else if digState c s ≠ 2 then clearCtx c 4 s
  else if fget (Fl.DIG_CTX_STATUS_BUSY c) s = 1 then clearCtx c 3 s
  else
    let x := digCtx c s
    match digDecl c s with
    | some n =>
      let left := n - x.msg.length
      if left ≤ 8 then
        let bs := leBytes left w.toNat
        finishCtx c (x.msg ++ bs) (countBytes c left s)
      else absorb c (leBytes 8 w.toNat) s
    | none =>
      match x.held with
      | none => setDigCtx c { x with held := some w } s
      | some h => absorb c (leBytes 8 h.toNat) (setDigCtx c { x with held := some w } s)

/-- A write of the bits `mask` of CTX_KEY word `j` (R9). -/
def digKey (c j : Nat) (mask w : Word) (req : Nat) (s : State) : State :=
  let a := Reg.DIG_CTX_KEY c j
  if ¬ digUp s then busError a req 8 s
  else if ¬ ownsCtx c req s then foreignWrite a req 8 s
  else if digState c s = 2 then clearCtx c 4 s
  else setDigCtx c { digCtx c s with keyRegs := (digCtx c s).keyRegs.set j (((digCtx c s).keyRegs.getD j 0 &&& ~~~mask) ||| (w &&& mask)) } s

/-- Row DIGEST_CLAIM. -/
def execDigestClaim (c req : Nat) (s : State) : Out := if c < 16 then .next (digCtrl c 0x60 req s) else .next s
/-- Row DIGEST_RELEASE. -/
def execDigestRelease (c req : Nat) (s : State) : Out := if c < 16 then .next (digCtrl c 0x70 req s) else .next s
/-- Row DIGEST_START: `v` is the CTX_CTRL value written. -/
def execDigestStart (c v req : Nat) (s : State) : Out := if c < 16 then .next (digCtrl c (withOp v 1) req s) else .next s
/-- Row DIGEST_DATA_WRITE: `size` and `off` are the access's size and its offset in the register. -/
def execDigestDataWrite (c : Nat) (w : Word) (size off req : Nat) (s : State) : Out :=
  if c < 16 then .next (digData c w size off req s) else .next s
/-- Row DIGEST_KEY_WRITE. -/
def execDigestKeyWrite (c j : Nat) (w : Word) (req : Nat) (s : State) : Out :=
  if c < 16 ∧ j < 16 then .next (digKey c j (BitVec.allOnes 64) w req s) else .next s
/-- Row DIGEST_BLOCK_TAKEN: BUSY clears. -/
def execDigestBlockTaken (c : Nat) (s : State) : Out :=
  if c < 16 ∧ digState c s = 2 then .next (fset (Fl.DIG_CTX_STATUS_BUSY c) 0 s) else .next s
/-- Row DIGEST_FINISH. -/
def execDigestFinish (c v req : Nat) (s : State) : Out := if c < 16 then .next (digCtrl c (withOp v 2) req s) else .next s
/-- Row DIGEST_ABORT. -/
def execDigestAbort (c v req : Nat) (s : State) : Out := if c < 16 then .next (digCtrl c (withOp v 3) req s) else .next s
/-- Row DIGEST_EXPORT. -/
def execDigestExport (c v req : Nat) (s : State) : Out := if c < 16 then .next (digCtrl c (withOp v 4) req s) else .next s
/-- Row DIGEST_IMPORT. -/
def execDigestImport (c v req : Nat) (s : State) : Out := if c < 16 then .next (digCtrl c (withOp v 5) req s) else .next s

/-- Row DIGEST_LETTER: served from start to end when a pool context is free, otherwise it waits in arrival order (R259). A letter is one step, so
two letters that name one blob never run at once (R260). -/
def execDigestLetter (sp : Space) (addr : Nat) (s : State) : Out :=
  if ¬ digUp s then .next s
  else if letterCtx s then .next (digestLetter sp addr s).2
  else .next (showFree { s with dig := { s.dig with waiting := s.dig.waiting ++ [(sp, addr)] } })

/-- Row CONTEXT_ALARM (R267). -/
def execContextAlarm (c : Nat) (s : State) : Out :=
  if digUp s ∧ c < 16 then .next (raiseEvent 0x0A 0 Fl.DIG_EVENT_CTX_ALARM (clearCtx c 6 s)) else .next s

end Sys2Proof.Machine
end

