-- ==== Sys2Proof/Machine/Windows.lean ====
section
/-! DEFINITION. Staged pages of media windows and the window reads under way, as writes and channels meet them (R163, R284,
R296, R297, R363). -/

namespace Sys2Proof.Machine

/-- A pre-read of core `k` has ended, claimed or not: it is counted once, now (R283). -/
def prdEnded (claimed : Bool) (k : Nat) (s : State) : State :=
  if k < 64 then
    s |> cntAdd (Reg.AXC_CNT_PRD_ISSUED (k / 8) (k % 8)) 32 1
      |> cntAdd (if claimed then Reg.AXC_CNT_PRD_CLAIMED (k / 8) (k % 8) else Reg.AXC_CNT_PRD_EXPIRED (k / 8) (k % 8)) 32 1
  else s

/-- Pages that satisfy `p` are discarded; a pre-staged one ends its pre-read unclaimed. -/
def dropPages (p : StagePage → Bool) (s : State) : State :=
  let s1 := forEach (fun g t => prdEnded false g.core t) (s.prog.pages.filter (fun g => p g && g.state == .preStaged)) s
  { s1 with prog := { s1.prog with pages := s1.prog.pages.filter (fun g => !p g) } }

/-- Before the completion of a write of a unit is posted (R297): staged and pre-staged copies are discarded, and a read of
it still pending becomes one that serves only the letters that wait for it. -/
def invalidateWindows (nsid iu : Nat) (s : State) : State :=
  let s1 := dropPages (fun g => g.nsid == nsid && g.iu == iu && (g.state == .staged || g.state == .preStaged)) s
  { s1 with sch := { s1.sch with reads := s1.sch.reads.map (fun r =>
      if r.nsid = nsid ∧ r.iu = iu ∧ r.sent then { r with stale := true } else r) } }

/-- The read entry of a handle. -/
def readAt (h : Nat) (s : State) : Option ReadEntry := s.sch.reads.find? (fun r => r.handle == h)

/-- Changes a read entry. -/
def updRead (h : Nat) (f : ReadEntry → ReadEntry) (s : State) : State :=
  { s with sch := { s.sch with reads := s.sch.reads.map (fun r => if r.handle = h then f r else r) } }

/-- The channel has read the unit of a demand window read, or has failed every step. -/
def windowArrived (h : Nat) (ok : Bool) (s : State) : State := updRead h (fun r => { r with arrived := some ok }) s

/-- The channel has read a unit for a scan job, or has failed every step (R180). -/
def scanArrived (num iu : Nat) (ok : Bool) (s : State) : State :=
  { s with scan := { s.scan with jobs := s.scan.jobs.map (fun j =>
    if j.num = num then { j with run := j.run.map (fun r => { r with reads := r.reads.map (fun x =>
      if x.iu = iu ∧ x.src = .queued then { x with src := if ok then .read else .unread } else x) }) }
    else j) } }

/-- A window read has gone to its die. -/
def windowAtDie (h : Nat) (s : State) : State := updRead h (fun r => { r with atDie := true }) s

end Sys2Proof.Machine
end

