-- ==== Sys2Proof/Machine/FtlBase.lean ====
section
/-! DEFINITION. Flash translation: variant figures, protection information, the map, the channel queues and the read path
(R20, R90, R91, R121–R124, R157). -/

namespace Sys2Proof.Machine

/-! ### Variant figures (R1, R117, R126, R128) -/

/-- The module is a -120 (variants 1 and 3 of R150). -/
def is120 (s : State) : Bool := s.variant % 2 == 1
/-- User capacity in indirection units. -/
def userIus (s : State) : Nat := if is120 s then 7324218750 else 3662109375
/-- Blocks per plane: user data, headroom. -/
def userBlocks (s : State) : Nat := if is120 s then 2404 else 1202
def headroomBlocks (s : State) : Nat := if is120 s then 272 else 76
/-- Superblocks of the static pool that take host data: the pool less the two of the journal. -/
def staticSbs (s : State) : Nat := if is120 s then 30 else 14
/-- Largest dynamic target, in SLC superblocks of 1.5 GiB. -/
def dynMax (s : State) : Nat := if is120 s then 1024 else 512
/-- Superblocks of the journal, of the static pool (R128). -/
def journalSbs : Nat := 2
/-- Blocks of a channel for user data, headroom and the static pool (R126). -/
def chanMade (s : State) : Nat := 8 * (userBlocks s + headroomBlocks s + (if is120 s then 4 else 2))

/-! ### Keys of channel operations (R268, R270) -/

/-- The key store entry of a namespace. -/
def nsEntry (nsid : Nat) (s : State) : Option Nat := (nsAt nsid s).map (·.keyEntry)

/-- The key store entry under which an operation encrypts or decrypts: entry 0 for map pages and the journal, the namespace's for its units;
none where units move as ciphertext or nothing is read out (R268). -/
def opEntry (o : ChanOp) (s : State) : Option Nat :=
  match o.use with
  | .unit | .scan | .landing => nsEntry (o.key / 2 ^ 40) s
  | .mapPage | .journal => some 0
  | .fold | .copy | .patrol | .erase | .contrib => none

/-- An operation whose key no slot holds waits while its entry is unwrapped, and during an alarm (R267, R270). -/
def keyReady (o : ChanOp) (s : State) : Bool :=
  match opEntry o s with
  | none => true
  | some e => s.keys.slots.any (fun x => x.2 == e)

/-! ### Protection information (R90, R91) -/

/-- One bit of the CRC-16 T10 division (polynomial 0x8BB7). -/
def crc16Steps : Nat → BitVec 16 → BitVec 16
  | 0, c => c
  | n + 1, c => crc16Steps n (if c.getLsbD 15 then (c <<< 1) ^^^ 0x8BB7 else c <<< 1)

/-- CRC-16 T10 of a block's data. -/
def crc16 (bs : List Byte) : BitVec 16 :=
  bs.foldl (fun (c : BitVec 16) (b : Byte) => crc16Steps 8 (c ^^^ ((b.setWidth 16) <<< 8))) (0 : BitVec 16)

/-- One bit of the reflected NVMe CRC-64 division. -/
def crc64Steps : Nat → Word → Word
  | 0, c => c
  | n + 1, c => crc64Steps n (if c.getLsbD 0 then (c >>> 1) ^^^ 0x9A6C9329AC4BC9B5 else c >>> 1)

/-- NVMe CRC-64 of a block's data. -/
def crc64 (bs : List Byte) : Word :=
  ~~~(bs.foldl (fun (c : Word) (b : Byte) => crc64Steps 8 (c ^^^ b.setWidth 64)) (BitVec.allOnes 64))

/-- The guard of a block's data in an LBA format: 16-bit in formats 1 and 4, 64-bit in 2 and 5. -/
def guardOf (flbas : Nat) (d : List Byte) : Nat :=
  if flbas % 3 = 1 then (crc16 d).toNat else if flbas % 3 = 2 then (crc64 d).toNat else 0

/-- Width of the reference tag in a format. -/
def refBits (flbas : Nat) : Nat := if flbas % 3 = 2 then 48 else 32

/-- The status of one block's check under protection type `dps`, in the precedence of R91; none when it passes. -/
def checkBlock (dps flbas lba : Nat) (pr : PrInfo) (b : LBlk) : Option Nat :=
  let allOnes := b.ref == 2 ^ refBits flbas - 1
  if dps = 0 ∨ flbas % 3 = 0 then none
  else if b.app = 0xFFFF ∧ (dps = 1 ∨ allOnes) then none
  else if pr.guardChk ∧ b.guard ≠ guardOf flbas b.data then some 0x82
  else if pr.appChk ∧ Nat.land b.app pr.appMask ≠ Nat.land pr.app pr.appMask then some 0x83
  else if pr.refChk ∧ dps = 1 ∧ b.ref ≠ lba % 2 ^ refBits flbas then some 0x84
  else none

/-- The first failing block of a list that starts at `lba`: its status and LBA. -/
def checkBlocks (dps flbas : Nat) (pr : PrInfo) : Nat → List LBlk → Option (Nat × Nat)
  | _, [] => none
  | lba, b :: t => match checkBlock dps flbas lba pr b with
    | some sc => some (sc, lba)
    | none => checkBlocks dps flbas pr (lba + 1) t

/-- With PRACT the module makes the tags of a written block itself. -/
def protect (dps flbas lba : Nat) (pr : PrInfo) (b : LBlk) : LBlk :=
  if pr.pract && dps != 0 then
    { b with guard := guardOf flbas b.data, app := pr.app, ref := (if dps = 1 then lba else pr.ref0) % 2 ^ refBits flbas }
  else b

/-- Bytes of one block in a format (R115). -/
def lbaBytes (flbas : Nat) : Nat := if flbas < 3 then 512 else 4096

/-- A deallocated block: zero data, the guard of zero data, tags all ones (R119). -/
def zeroBlk (flbas : Nat) : LBlk :=
  let d := List.replicate (lbaBytes flbas) (0 : Byte)
  ⟨d, guardOf flbas d, 0xFFFF, 2 ^ refBits flbas - 1⟩

/-- The blocks `n` from `lba` on, out of unit contents by unit number. -/
def blocksOf (k flbas : Nat) (src : Nat → IuData) (lba : Nat) : Nat → List LBlk
  | 0 => []
  | n + 1 => SMap.getD (src (lba / k)) (lba % k) (zeroBlk flbas) :: blocksOf k flbas src (lba + 1) n

/-! ### The map (R121–R124) -/

/-- Map key of a unit, and key of its map page of 2,048 units. -/
def mapKey (nsid iu : Nat) : Nat := nsid * 2 ^ 40 + iu
def pageKey (nsid iu : Nat) : Nat := nsid * 2 ^ 32 + iu / 2048

/-- Map pages the cache holds, and dirty pages allowed at once. -/
def mapCachePages : Nat := 4893354
def dirtyPageLimit : Nat := 699050

/-- The unit a key maps to. -/
def iuAt (key : Nat) (s : State) : Option Iu := SMap.find s.ftl.map key

/-- Contents of a unit; none when deallocated. -/
def iuData (key : Nat) (s : State) : IuData := match iuAt key s with | some u => u.data | none => []

/-- A map page enters the cache; the least recently used clean page leaves a full cache, and with none clean the page stays out (R123). -/
def cachePage (p : Nat) (s : State) : State :=
  let rest := s.ftl.cached.filter (· != p)
  if rest.length < mapCachePages then { s with ftl := { s.ftl with cached := rest ++ [p] } }
  else match rest.find? (fun q => !s.ftl.dirty.contains q) with
    | some q => { s with ftl := { s.ftl with cached := rest.filter (· != q) ++ [p] } }
    | none => s

/-- The page of a map change becomes dirty. -/
def dirtyPage (p : Nat) (s : State) : State :=
  if s.ftl.dirty.contains p then s else { s with ftl := { s.ftl with dirty := s.ftl.dirty ++ [p] } }

/-- The namespace and the map page of a map key. -/
def keyNsid (key : Nat) : Nat := key / 2 ^ 40
def keyPage (key : Nat) : Nat := pageKey (keyNsid key) (key % 2 ^ 40)

/-- Units marked uncorrectable (R151). -/
def uncorrUnits (s : State) : Nat := (s.ftl.map.filter (fun e => e.2.uncorr)).length

/-- Bytes stored for a namespace, units counting their stored size. -/
def nsStored (nsid : Nat) (s : State) : Nat :=
  (s.ftl.map.filter (fun e => e.1 / 2 ^ 40 == nsid)).foldl (fun n e => n + e.2.stored) 0

/-- Bytes stored for every namespace. -/
def storedBytes (s : State) : Nat := s.ftl.map.foldl (fun n e => n + e.2.stored) 0

/-- A namespace option bit (R116). -/
def nsCompressed (n : Ns) : Bool := n.options % 2 == 1
def nsSd (n : Ns) : Bool := n.options / 16 % 2 == 1

/-! ### Channel queues (R157) -/

/-- A channel engine. -/
def chanAt (n : Nat) (s : State) : Chan := SMap.getD s.media.chans n Chan.fresh

/-- The channel's registers that show its queue and dies (R175). -/
def showChan (n : Nat) (s : State) : State :=
  let c := chanAt n s
  let code (d : Nat) : Nat :=
    match SMap.find c.dies d with
    | some o => (match o.kind with
      | .read => 1 | .progSlc => 2 | .progQlc => 2 | .erase => 3)
    | none => match SMap.find c.susp d with
      | some o => if o.kind = .erase then 5 else 4
      | none => if c.dead.contains d then 7 else 0
  let s1 := forN (fun d => fset (Fl.CHE_DIE_STATE_DIE n d) (code d)) 8 s
  let s2 := forN (fun k => fset (Fl.CHE_QDEPTH_CLASS n k) (Nat.min (c.queue.filter (fun o => o.cls == k + 1)).length 255)) 6 s1
  let busy := !c.dies.isEmpty
  s2 |> fset (Fl.CHE_STATUS_BUSY n) (if busy then 1 else 0)
    |> fset (Fl.CHE_CTRL_HELD n) (if fget (Fl.CHE_CTRL_HOLD n) s = 1 ∧ !busy then 1 else 0)

/-- Replaces a channel engine. -/
def setChan (n : Nat) (c : Chan) (s : State) : State :=
  showChan n { s with media := { s.media with chans := SMap.put s.media.chans n c } }

/-- The channel is powered and not retired (R152, R170). -/
def chanUp (n : Nat) (s : State) : Bool := decide (n < 32) && pdOn (27 + n / 8) s && !(chanAt n s).retired

/-- A new operation of kind, purpose, class, die, superblock, requester and map key. -/
def mkOp (kind : DieKind) (use : OpUse) (cls die sb tag key : Nat) : ChanOp := ⟨kind, use, cls, die, sb, tag, key, 0, false, 0, 0, 0, 0⟩

/-- A superblock by number. -/
def sbAt (i : Nat) (s : State) : Sb := SMap.getD s.ftl.sbs i Sb.none

/-- Replaces a superblock. -/
def setSb (i : Nat) (b : Sb) (s : State) : State := { s with ftl := { s.ftl with sbs := SMap.put s.ftl.sbs i b } }

/-- The die of a block of a channel: blocks are numbered over the dies in turn. -/
def blkDie (b : Nat) : Nat := b % 8

/-- An operation joins a channel's queue. -/
def enqueue (n : Nat) (o : ChanOp) (s : State) : State := setChan n { chanAt n s with queue := (chanAt n s).queue ++ [o] } s

/-- The reads that contribute to the rebuild of a page are queued, each on its own channel, at the class of the read (R156, R170). -/
def pushContrib (n : Nat) (o : ChanOp) (s : State) : State :=
  forEach (fun e t =>
      if e.1 = n ∨ (chanAt e.1 t).retired then t
      else enqueue e.1 { (mkOp .read .contrib o.cls (blkDie e.2) o.sb o.tag o.key) with handle := n } t)
    (sbAt o.sb s).blocks s

/-- A read of a channel waits for rebuild from channel parity (R156): `counts` as step 3 of an escalation, `check` after a failed check. -/
def startRebuild (n : Nat) (o : ChanOp) (counts check : Bool) (s : State) : State :=
  pushContrib n o (setChan n { chanAt n s with rebuilds := (chanAt n s).rebuilds ++ [⟨o, counts, check, false⟩] } s)

/-- Queues an operation. A read of a retired channel is served by rebuild at once (R170), as are class 1 and 3 reads during a microcode
switch (R174); a rebuild for such a reason counts in no escalation counter (R156), and a pre-read is dropped (R163). -/
def pushOp (n : Nat) (o : ChanOp) (s : State) : State :=
  let c := chanAt n s
  if c.retired || (fget (Fl.CHE_STATUS_REBUILD_ONLY n) s == 1 && o.kind == .read && (o.cls == 1 || o.cls == 3)) then
    if o.kind = .read ∧ o.cls ≠ 6 ∧ o.use ≠ .contrib then startRebuild n o false false s else s
  else enqueue n o s

/-- A channel has an operation that `is` picks, in its queue, on a die or suspended. -/
def hasOp (is : ChanOp → Bool) (c : Chan) : Bool := c.queue.any is || c.dies.any (fun d => is d.2) || c.susp.any (fun d => is d.2)

/-- The channels that have operations `is` picks. -/
def chansWith (is : ChanOp → Bool) (s : State) : SMap Chan := s.media.chans.filter (fun e => hasOp is e.2)

/-- Operations that `is` picks leave their channels. -/
def dropOps (is : ChanOp → Bool) (s : State) : State :=
  forEach (fun e t => setChan e.1 { e.2 with
      queue := e.2.queue.filter (fun o => !is o), dies := e.2.dies.filter (fun d => !is d.2), susp := e.2.susp.filter (fun d => !is d.2) } t)
    (chansWith is s) s

/-- Operations that `is` picks are over: they leave their channels, and their reads and SLC programs count (R175). -/
def endOps (is : ChanOp → Bool) (s : State) : State :=
  let ended (c : Chan) (k : DieKind) : Nat := ((c.queue ++ c.dies.map (·.2) ++ c.susp.map (·.2)).filter (fun o => is o && o.kind == k && o.cls != 6)).length
  dropOps is (forEach (fun e t => t |> cntAdd (Reg.CHE_CNT_READ e.1) 64 (ended e.2 .read) |> cntAdd (Reg.CHE_CNT_PROG e.1) 64 (ended e.2 .progSlc))
    (chansWith is s) s)

/-- The channel on which a map page, or another page of the metadata area, lies. DESIGN CHOICE (log entry 15). -/
def metaChan (p : Nat) (s : State) : Nat :=
  let ws := (List.range 32).filter (fun c => !s.media.retireOrder.contains c)
  ws.getD (p % max ws.length 1) 0

/-- A demand load of a map page: one class 1 read of the metadata area, unless one is under way (R124, R157). -/
def loadPage (p : Nat) (s : State) : State :=
  let is (o : ChanOp) : Bool := o.use == .mapPage && o.cls == 1 && o.key == p
  if s.media.chans.any (fun e => hasOp is e.2 || e.2.backoff.any is) then s
  else pushOp (metaChan p s) (mkOp .read .mapPage 1 (p % 8) 0 0 p) s

/-! ### Reads for the host (R20, R91) -/

/-- A number as `n` bytes, most significant first. -/
def beBytes (n v : Nat) : List Byte := (leBytes n v).reverse

/-- The protection information of a block as the host transfers it. -/
def metaBytes (flbas : Nat) (b : LBlk) : List Byte :=
  if flbas % 3 = 1 then beBytes 2 b.guard ++ beBytes 2 b.app ++ beBytes 4 b.ref
  else if flbas % 3 = 2 then beBytes 8 b.guard ++ beBytes 2 b.app ++ beBytes 6 b.ref
  else []

/-- The data of a read as the host receives it: each block's data, and its metadata unless the module strips it, at the end of the block or
(`ext` false) in a buffer of its own, which follows here (R90). -/
def hostBytesOf (flbas : Nat) (ext strip : Bool) (bs : List LBlk) : List Byte :=
  let m (b : LBlk) : List Byte := if strip then [] else metaBytes flbas b
  if ext then bs.flatMap (fun b => b.data ++ m b) else bs.flatMap (·.data) ++ bs.flatMap m

/-- Two blocks compare equal: data and, where it is transferred, metadata. -/
def sameBlk (flbas : Nat) (strip : Bool) (a b : LBlk) : Bool :=
  a.data == b.data && (strip || metaBytes flbas a == metaBytes flbas b)

/-- The units of a read have all arrived: protection is checked (R91), then the data is delivered, compared or dropped. -/
def finishRead (tag : Nat) (s : State) : State :=
  match cmdAt tag s with
  | none => s
  | some x =>
    match nsAt x.nsid s with
    | none => complete tag 0 0x0B true 0 [] s
    | some n =>
      let bs := blocksOf (lbasPerIu n.flbas) n.flbas (fun iu => SMap.getD x.got iu []) x.lba x.nlb
      match checkBlocks n.dps n.flbas x.pr x.lba bs with
      | some (sc, lba) => complete tag 2 sc true 0 [] (setCmd { x with lba := lba } s)
      | none =>
        let strip := x.pr.pract && n.dps != 0
        if x.compareOnly then
          let want := (List.range x.nlb).map (fun i => SMap.getD x.wdata (x.lba + i) (zeroBlk n.flbas))
          if (bs.zip want).all (fun p => sameBlk n.flbas strip p.1 p.2) then completeOk tag s
          else complete tag 2 0x85 true 0 [] s
        else if x.verifyOnly then completeOk tag s
        else completeData tag (hostBytesOf n.flbas n.ext strip bs) s

/-- One unit of a host read has arrived, or has failed every step (R20). -/
def readUnitDone (tag key : Nat) (ok : Bool) (s : State) : State :=
  match cmdAt tag s with
  | none => s
  | some x =>
    if x.result.isSome ∨ x.kind ≠ .read ∨ ¬ x.need.contains key then s
    else if ¬ ok then complete tag 2 0x81 true 0 [] s
    else
      let rest := x.need.filter (· != key)
      let s1 := setCmd { x with need := rest } s
      if rest.isEmpty && (iusOf x s).all (fun iu => x.looked.contains iu) then finishRead tag s1 else s1

/-- An earlier write of the same queue still has to change this unit (R100). -/
def unitBlocked (x : Cmd) (iu : Nat) (s : State) : Bool :=
  s.nv.cmds.any (fun y => decide (y.order < x.order) && writesKind y.kind && y.result.isNone && y.ctrl == x.ctrl &&
    y.sq == x.sq && y.nsid == x.nsid && (iusOf y s).contains iu)

/-- The map lookup of one unit of a read (R20, R100, R101): the version found is the one the read returns. It waits for
an earlier write of its queue, or for the map page (R124). -/
def lookUnit (tag iu : Nat) (s : State) : State :=
  match cmdAt tag s with
  | none => s
  | some x =>
    if x.result.isSome || x.looked.contains iu || unitBlocked x iu s then s
    else if !s.ftl.cached.contains (pageKey x.nsid iu) then
      loadPage (pageKey x.nsid iu) (setCmd { x with phase := if x.phase = .started then .started else .waitMap (pageKey x.nsid iu) } s)
    else
      let s1 := cachePage (pageKey x.nsid iu) s
      match iuAt (mapKey x.nsid iu) s with
      | none => setCmd { x with looked := x.looked ++ [iu] } s1
      | some u =>
        if u.uncorr then complete tag 2 0x81 true 0 [] s1
        else pushOp u.chan (mkOp .read .unit 1 u.die u.sb tag (mapKey x.nsid iu))
          (setCmd { x with looked := x.looked ++ [iu], need := x.need ++ [iu], got := SMap.put x.got iu u.data, phase := .started, media := true } s1)

/-- A read makes the lookups it can; one with every lookup made and nothing to read from flash ends at once. -/
def startRead (tag : Nat) (s : State) : State :=
  match cmdAt tag s with
  | none => s
  | some x =>
    let s1 := forEach (lookUnit tag) (iusOf x s) s
    match cmdAt tag s1 with
    | none => s1
    | some y => if y.result.isNone && y.need.isEmpty && (iusOf y s1).all (fun iu => y.looked.contains iu) then finishRead tag s1 else s1

/-- Reads under way (their row has been given) that still have lookups to make. -/
def waitingReads (s : State) : List Nat :=
  (s.nv.cmds.filter (fun x => x.kind == .read && x.result.isNone && x.phase != .fetched &&
    !((iusOf x s).all (fun iu => x.looked.contains iu)))).map (·.tag)

/-- Reads that waited for an earlier write or a map page make their lookups. -/
def wakeReads (s : State) : State := forEach startRead (waitingReads s) s

end Sys2Proof.Machine
end

