-- ==== Sys2Proof/Machine/KeyOps.lean ====
section
/-! DEFINITION. The key manager: slots, the key store, crypto erase and alarms; rows KEY_MANAGER_ALARM and SLOT_RELOAD_DONE
to KEY_SLOT_FREED (R267–R273, R276, R515). -/

namespace Sys2Proof.Machine

/-- LOADED shows how many slots hold a key, READY that slot 0 does. -/
def showKeys (s : State) : State :=
  s |> fset Fl.KEY_STATUS_LOADED s.keys.slots.length |> fset Fl.KEY_STATUS_READY (if (SMap.find s.keys.slots 0).isSome then 1 else 0)

/-- Changes the key manager. -/
def updKeys (f : Keys → Keys) (s : State) : State := showKeys { s with keys := f s.keys }

/-- The namespace a key store entry belongs to. -/
def entryNs (entry : Nat) (s : State) : Option (Nat × Ns) := s.nv.ns.find? (fun e => e.2.csi == 0 && e.2.keyEntry == entry)

/-- A channel operation under this entry's key is in flight: on a die, suspended there or in a back-off. -/
def entryBusy (entry : Nat) (s : State) : Bool :=
  let mine (o : ChanOp) : Bool := opEntry o s == some entry
  s.media.chans.any (fun e => e.2.dies.any (fun d => mine d.2) || e.2.susp.any (fun d => mine d.2) || e.2.backoff.any mine)

/-- Slots whose key some operation uses. -/
def slotBusy (slot : Nat) (s : State) : Bool := (SMap.find s.keys.slots slot).any (fun e => entryBusy e s)

/-- A slot is cleared. -/
def zeroizeSlot (slot : Nat) (s : State) : State :=
  updKeys (fun k => { k with slots := SMap.del k.slots slot, lru := k.lru.filter (· != slot) }) s

/-- A slot gets an entry's key and becomes the most recently used. -/
def fillSlot (slot entry : Nat) (s : State) : State :=
  cntAdd Reg.KEY_CNT_UNWRAP 64 1 (updKeys (fun k => { k with slots := SMap.put k.slots slot entry, lru := k.lru.filter (· != slot) ++ [slot] }) s)

/-- Both copies of an entry failed their check (R271): the namespace is key-lost, or for the metadata key Rise ends in
Read-Only with cause 3. -/
def unwrapFailed (entry : Nat) (s : State) : State :=
  let s1 := raiseEvent 0x0B 0 Fl.KEY_EVENT_UNWRAP_FAIL s
  if entry = 0 then enterReadOnly 3 s1
  else match entryNs entry s1 with
    | none => s1
    | some (n, x) => { s1 with nv := { s1.nv with ns := SMap.put s1.nv.ns n { x with keyLost := true } } }

/-- Entry `entry` is unwrapped into a slot; `ok`: one of its two copies passes its check. -/
def unwrapInto (slot entry : Nat) (ok : Bool) (s : State) : State := if ok then fillSlot slot entry s else unwrapFailed entry s

/-- Slots held by namespaces of one owner. -/
def slotsOf (owner : Nat) (s : State) : List Nat :=
  (s.keys.slots.filter (fun e => (entryNs e.2 s).any (fun n => n.2.owner == owner))).map (·.1)

/-- The slot an unwrap of `entry` takes: an empty one, else the least recently used with no operation in flight; a function
at its bound evicts only its own (R270). -/
def slotFor (entry : Nat) (s : State) : Option Nat :=
  let owner := (entryNs entry s).map (fun e => e.2.owner)
  let bound := match owner with
    | some o => (resOf o s).keySlots
    | none => 0
  let own := match owner with
    | some o => slotsOf o s
    | none => []
  let idle := s.keys.lru.filter (fun x => x != 0 && !slotBusy x s)
  if bound ≠ 0 ∧ bound ≤ own.length then idle.find? (fun x => own.contains x)
  else match ((List.range 1023).map (· + 1)).find? (fun x => (SMap.find s.keys.slots x).isNone) with
    | some x => some x
    | none => idle.head?

/-- A channel operation needs an entry that no slot holds (R270). -/
def needKey (entry : Nat) (ok : Bool) (s : State) : State :=
  if s.keys.slots.any (fun e => e.2 == entry) ∨ fget Fl.KEY_STATUS_ALARM s = 1 ∨ s.keys.waiting.contains entry then s
  else match slotFor entry s with
    | some x => unwrapInto x entry ok s
    | none => raiseEvent 0x0B 0 Fl.KEY_EVENT_SLOT_WAIT (cntAdd Reg.KEY_CNT_SLOT_WAIT 64 1
        (updKeys (fun k => { k with waiting := k.waiting ++ [entry] }) s))

/-- The key manager works. -/
def keyUp (s : State) : Bool := pdOn 26 s

/-- Row KEY_UNWRAP (R270). -/
def execKeyUnwrap (nsid : Nat) (ok : Bool) (s : State) : Out :=
  match nsEntry nsid s with
  | none => .next s
  | some e => if keyUp s then .next (needKey e ok s) else .next s

/-- Row KEY_SLOT_FREED (R515): the operation that waited longest takes the slot. -/
def execKeySlotFreed (slot : Nat) (ok : Bool) (s : State) : Out :=
  match s.keys.waiting with
  | [] => .next s
  | e :: t =>
    if keyUp s ∧ 0 < slot ∧ slot < 1024 ∧ slotBusy slot s = false ∧ fget Fl.KEY_STATUS_ALARM s = 0 then
      .next (unwrapInto slot e ok (updKeys (fun k => { k with waiting := t }) s))
    else .next s

/-! ### Crypto erase (R272) -/

/-- Data stored under an old key can no longer be decrypted: what its units read as is open. -/
def scrambleNs (nsid : Nat) (s : State) : State :=
  let scramble (i : Nat) (b : LBlk) : LBlk :=
    ⟨(List.range b.data.length).map (fun k => (Config.freeValue (s.free + i * 8192 + k)).setWidth 8),
      (Config.freeValue (s.free + i * 8192 + 4096)).toNat, (Config.freeValue (s.free + i * 8192 + 4097)).toNat % 65536,
      (Config.freeValue (s.free + i * 8192 + 4098)).toNat⟩
  { s with
    free := s.free + 8192 * 32 * (s.ftl.map.length + 1)
    ftl := { s.ftl with map := s.ftl.map.zipIdx.map (fun p =>
      if p.1.1 / 2 ^ 40 = nsid then (p.1.1, { p.1.2 with data := p.1.2.data.zipIdx.map (fun q => (q.1.1, scramble (32 * p.2 + q.2) q.1.2)) })
      else p.1) } }

/-- Crypto erase of a set of entries (R272), its four steps in one, so ERASING never reads as 1 (log 66): new keys, a new generation of the store in both copies, and every slot of an old key
zeroized. Namespaces with a new key are no longer key-lost. -/
def cryptoErase (entries : List Nat) (s : State) : State :=
  let s1 := { s with keys := { s.keys with
    gen := s.keys.gen + 1
    nextKey := s.keys.nextKey + entries.length
    store := entries.zipIdx.foldl (fun m e => SMap.put m e.1 (s.keys.nextKey + e.2)) s.keys.store } }
  let s2 := forEach zeroizeSlot ((s.keys.slots.filter (fun e => entries.contains e.2)).map (·.1)) s1
  let s3 := if entries.contains 0 then fillSlot 0 0 s2 else s2
  let s4 := { s3 with nv := { s3.nv with ns := s3.nv.ns.map (fun e =>
    if e.2.csi = 0 ∧ entries.contains e.2.keyEntry then (e.1, { e.2 with keyLost := false }) else e) } }
  raiseEvent 0x0B 0 Fl.KEY_EVENT_ERASED s4

/-! ### SLOT_OP (R276) -/

/-- SLOT_RESULT. -/
def slotResult (r : Nat) (s : State) : State := fset Fl.KEY_SLOT_RESULT_RESULT r s

/-- OP of SLOT_OP on a slot and entry. -/
def slotOp (slot entry op : Nat) (ok : Bool) (s : State) : State :=
  if op = 0 ∨ 4 ≤ op then s
  else if fget Fl.KEY_STATUS_ALARM s = 1 then slotResult 4 s
  else if op = 3 then
    (if (SMap.find s.keys.store entry).isNone then slotResult 2 s
     else slotResult 0 (match entryNs entry s with
       | some (n, _) => scrambleNs n (cryptoErase [entry] s)
       | none => cryptoErase [entry] s))
  else if slotBusy slot s then slotResult 3 s
  else if op = 2 then slotResult 0 (zeroizeSlot slot s)
  else if (SMap.find s.keys.store entry).isNone then slotResult 2 s
  else if ok then slotResult 0 (fillSlot slot entry s)
  else slotResult 1 (unwrapFailed entry s)

/-- A write of KEY.SLOT_OP. `ok`: an entry loaded passes its integrity check in one copy. -/
def writeSlotOp (v req : Nat) (ok : Bool) (s : State) : State :=
  let slot := v % 1024
  let entry := v / 2 ^ 12 % 4096
  let op := v / 2 ^ 24 % 8
  if ¬ keyUp s then busError Reg.KEY_SLOT_OP req 4 s
  else if ¬ (req ≤ 0x0B ∨ req = 0x10 ∨ req = 0x11) then busError Reg.KEY_SLOT_OP req 4 s
  else if 2048 < entry ∨ ((op = 1 ∨ op = 2) ∧ slot = 0 ∧ entry ≠ 0) then writeIgnored Reg.KEY_SLOT_OP req v s
  else slotOp slot entry op ok (s |> fset Fl.KEY_SLOT_OP_SLOT slot |> fset Fl.KEY_SLOT_OP_ENTRY entry)

/-- Row LOAD_KEY_SLOT. -/
def execLoadKeySlot (slot entry req : Nat) (ok : Bool) (s : State) : Out :=
  .next (writeSlotOp (slot % 1024 + entry % 4096 * 2 ^ 12 + 2 ^ 24) req ok s)
/-- Row ZEROIZE_KEY_SLOT. -/
def execZeroizeKeySlot (slot entry req : Nat) (s : State) : Out :=
  .next (writeSlotOp (slot % 1024 + entry % 4096 * 2 ^ 12 + 2 * 2 ^ 24) req true s)
/-- Row CRYPTO_ERASE_ENTRY. -/
def execCryptoEraseEntry (entry req : Nat) (s : State) : Out := .next (writeSlotOp (entry % 4096 * 2 ^ 12 + 3 * 2 ^ 24) req true s)

/-! ### Alarms and reload (R267, R273) -/

/-- Row KEY_MANAGER_ALARM: every context in use is cleared, every slot zeroized, and the digest letters then running end
with status 6. -/
def execKeyManagerAlarm (letters : List (Space × Nat)) (s : State) : Out :=
  if ¬ keyUp s then .next s
  else
    let s1 := forEach (fun c t => clearCtx c 6 t) ((List.range 16).filter (fun c => digState c s != 0)) s
    let s2 := forEach (fun l t => letterEnds l.1 l.2 6 (fieldAt ((readSpace l.1 (l.2 + 56) 8 t).getD []) 0 8) t) letters s1
    let s3 := updKeys (fun k => { k with slots := [], lru := [] }) s2
    .next (raiseEvent 0x0B 0 Fl.KEY_EVENT_ALARM (fset Fl.KEY_STATUS_ALARM 1 s3))

/-- Slot 0 is loaded; `ok`: the metadata key passes its check in one copy. -/
def reloadSlots (ok : Bool) (s : State) : State :=
  let wasAlarm := fget Fl.KEY_STATUS_ALARM s == 1
  let s1 := fset Fl.KEY_STATUS_ALARM 0 s
  let s2 := if ok then fillSlot 0 0 s1 else unwrapFailed 0 s1
  if wasAlarm then raiseEvent 0x0B 0 Fl.KEY_EVENT_RELOADED s2 else s2

/-- Row SLOT_RELOAD_DONE (R273). -/
def execSlotReloadDone (ok : Bool) (s : State) : Out := if keyUp s then .next (reloadSlots ok s) else .next s

end Sys2Proof.Machine
end

