-- ==== Sys2Proof/Machine/FtlOps.lean ====
section
/-! DEFINITION. Flash translation: blocks and superblocks, landing, folding, collection, the journal, wear and Read-Only
(R126–R149). -/

namespace Sys2Proof.Machine

/-! ### Blocks (R126, R134, R136–R138, R155, R168, R173) -/

/-- Key of block `b` of channel `c`. -/
def blkKey (c b : Nat) : Nat := 65536 * c + b

/-- A block of a channel. -/
def blkAt (c b : Nat) (s : State) : Blk := SMap.getD s.ftl.blks (blkKey c b) (Blk.fresh s.ftl.freshWear)

/-- Changes a block. -/
def updBlk (c b : Nat) (f : Blk → Blk) (s : State) : State :=
  { s with ftl := { s.ftl with blks := SMap.put s.ftl.blks (blkKey c b) (f (blkAt c b s)) } }

/-- Changes the block that a superblock has on a channel. -/
def updBlkOf (i c : Nat) (f : Blk → Blk) (s : State) : State :=
  match SMap.find (sbAt i s).blocks c with
  | some b => updBlk c b f s
  | none => s

/-- The block that a superblock has on a channel; one never used where it has none. -/
def blkOn (i c : Nat) (s : State) : Blk :=
  match SMap.find (sbAt i s).blocks c with
  | some b => blkAt c b s
  | none => Blk.fresh 0

/-- Retirement spares of each plane of die `k` (8 × channel + die): 48, and what of the factory bad-block allowance of 40 is unused
(R126). The number of factory bad blocks is open (log entry 58). -/
def sparesOf (k : Nat) : Nat := 48 + (40 - (Config.factoryBad k).val)

/-- Blocks retired on the planes of a die. -/
def retiredOn (k : Nat) (s : State) : Nat := SMap.getD s.ftl.planeRetired k 0

/-- Blocks of a channel for data and landing: those made for it, and a spare for every one retired while spares last (R126, R138). -/
def chanBlocks (c : Nat) (s : State) : Nat :=
  chanMade s + (List.range 8).foldl (fun n d => n + Nat.min (retiredOn (8 * c + d) s) (sparesOf (8 * c + d))) 0

/-- Channels not retired. -/
def workChans (s : State) : List Nat := (List.range 32).filter (fun c => !s.media.retireOrder.contains c)

/-- The free block of channel `c` with the fewest wear units among those that `ok` admits (R134). -/
def leastWorn (c : Nat) (ok : Blk → Bool) (s : State) : Option Nat :=
  let best := (s.ftl.blks.filter (fun e => e.1 / 65536 == c && e.2.st == .free && ok e.2)).foldl
    (fun (m : Option (Nat × Nat)) e => match m with
      | none => some (e.1 % 65536, e.2.wear)
      | some x => if e.2.wear < x.2 then some (e.1 % 65536, e.2.wear) else some x) none
  let next := SMap.getD s.ftl.nextBlk c 0
  let new := decide (next < chanBlocks c s) && ok (Blk.fresh s.ftl.freshWear)
  match best with
  | none => if new then some next else none
  | some x => if new && decide (s.ftl.freshWear ≤ x.2) then some next else some x.1

/-- The free block that a new superblock takes on a channel: the static pool keeps its blocks, and takes others only where it has none
free (R134). -/
def pickBlk (static : Bool) (c : Nat) (s : State) : Option Nat :=
  let general := leastWorn c (fun b => !b.static) s
  if static then (match leastWorn c (·.static) s with | some b => some b | none => general) else general

/-- A block leaves the free ones for a superblock. -/
def takeBlk (static : Bool) (c b : Nat) (s : State) : State :=
  let s1 := updBlk c b (fun x => { x with
    st := .used, slcErases := if static && !x.static then 0 else x.slcErases, static := x.static || static, reads := 0, refresh := false }) s
  { s1 with ftl := { s1.ftl with nextBlk := SMap.put s1.ftl.nextBlk c (max (SMap.getD s1.ftl.nextBlk c 0) (b + 1)) } }

/-! ### Superblocks (R126–R130, R134, R145) -/

/-- Units of data that a block of a superblock holds: SLC 48 MiB, QLC 192 MiB. -/
def blkUnits (b : Sb) : Nat := if b.slc then 3072 else 12288

/-- A superblock takes a unit on channel `c`: a working data channel whose block is neither closed nor full. -/
def takesOn (i c : Nat) (s : State) : Bool :=
  let b := sbAt i s
  (SMap.find b.blocks c).isSome && c != b.parity && !b.closed.contains c && !s.media.retireOrder.contains c &&
    decide (SMap.getD b.fill c 0 < blkUnits b)

/-- The channel that a superblock's next unit goes to: the least filled of those that take one. DESIGN CHOICE (log entry 15). -/
def nextChan (i : Nat) (s : State) : Option Nat :=
  let b := sbAt i s
  ((List.range 32).filter (fun c => takesOn i c s)).foldl (fun (m : Option Nat) c => match m with
    | none => some c
    | some x => if SMap.getD b.fill c 0 < SMap.getD b.fill x 0 then some c else some x) none

/-- `n` units of a superblock are programmed on channel `c`; one that takes no more is full. Its block's reads count anew (R173). -/
def takeUnits (n i c : Nat) (s : State) : State :=
  let b := sbAt i s
  let s1 := updBlkOf i c (fun x => { x with reads := 0 })
    (setSb i { b with fill := SMap.put b.fill c (SMap.getD b.fill c 0 + n), lastProg := s.tick } s)
  if (nextChan i s1).isNone then setSb i { sbAt i s1 with use := .full } s1 else s1

/-- Units of data programmed into a superblock. -/
def usedUnits (b : Sb) : Nat := b.fill.foldl (fun n e => n + e.2) 0

/-- Data channels of a superblock. -/
def dataChans (b : Sb) : Nat := (b.blocks.filter (fun e => e.1 != b.parity)).length

/-- Units mapped to a superblock. -/
def mappedTo (i : Nat) (s : State) : List Nat := (s.ftl.map.filter (fun e => e.2.sb == i && !e.2.uncorr)).map (·.1)

/-- An erase of the block of superblock `i` on channel `c` is queued (R158). -/
def pushErase (i c : Nat) (s : State) : State :=
  match SMap.find (sbAt i s).blocks c with
  | some b => pushOp c (mkOp .erase .erase 5 (blkDie b) i 0 0) (updBlk c b (fun x => { x with st := .erasing }) s)
  | none => s

/-- A superblock is opened for a use, out of the free blocks with the fewest wear units on each working channel (R127, R134), where every
one has a block; the channel of parity rotates. For SLC-mode use its blocks are erased first, unless they are already erased so (R128). -/
def openSb (use : SbUse) (slc static sd : Bool) (s : State) : State :=
  let cs := workChans s
  let i := s.ftl.nextSb
  let picks := cs.map (fun c => (c, pickBlk static c s))
  if picks.any (fun p => p.2.isNone) then s
  else
    let bs : SMap Nat := picks.map (fun p => (p.1, p.2.getD 0))
    let raw := if slc then (bs.filter (fun e => !(blkAt e.1 e.2 s).slcReady)).map (·.1) else []
    let s1 := forEach (fun e t => takeBlk static e.1 e.2 t) bs s
    let b : Sb := { Sb.none with
      use := if raw.isEmpty then use else .preparing
      slc := slc, static := static, sd := sd, blocks := bs, parity := cs.getD (i % max cs.length 1) 0, lastProg := s.tick }
    forEach (pushErase i) raw (setSb i b { s1 with ftl := { s1.ftl with nextSb := i + 1 } })

/-- Superblocks of the landing pool's dynamic or static part. -/
def poolSbs (static : Bool) (s : State) : Nat := (s.ftl.sbs.filter (fun e => e.2.slc && e.2.static == static)).length

/-- Superblocks that a part of the landing pool may have (R128). -/
def landPool (static : Bool) (s : State) : Nat := if static then staticSbs s else s.ftl.dynTarget

/-- The superblock open for landing in a part of the pool; SD data has one of its own (R141, R145). -/
def openOf (sd static : Bool) (s : State) : Option Nat :=
  let o := if sd then s.ftl.openSd else if static then s.ftl.openStatic else s.ftl.openDyn
  match o with
  | some i => if (sbAt i s).static = static ∧ ((sbAt i s).use = .landing ∨ (sbAt i s).use = .preparing) then some i else none
  | none => none

/-- A free landing page of a part of the pool, on channel `want` or on any. -/
def pageOf (sd static : Bool) (want : Option Nat) (s : State) : Option (Nat × Nat) :=
  match openOf sd static s with
  | none => none
  | some i =>
    if (sbAt i s).use ≠ .landing then none
    else match want with
      | some c => if takesOn i c s then some (i, c) else none
      | none => (nextChan i s).map (fun c => (i, c))

/-- A part of the pool opens a superblock where it has no page to give and room for one more, and none being prepared. The one that had no
page to give closes (R145). -/
def openPart (sd static : Bool) (want : Option Nat) (s : State) : State :=
  if (pageOf sd static want s).isSome then s
  else if (openOf sd static s).any (fun i => (sbAt i s).use == .preparing) then s
  else if landPool static s ≤ poolSbs static s then s
  else
    let i := s.ftl.nextSb
    let s1 := openSb .landing true static sd s
    if s1.ftl.nextSb = i then s
    else
      let s2 := match openOf sd static s with
        | some j => setSb j { sbAt j s1 with use := .full } s1
        | none => s1
      { s2 with ftl := { s2.ftl with
          openSd := if sd then some i else s2.ftl.openSd
          openStatic := if !sd && static then some i else s2.ftl.openStatic
          openDyn := if !sd && !static then some i else s2.ftl.openDyn } }

/-- The landing pool has a page where it can: in the dynamic part, else in the static part (R129). -/
def openLanding (sd : Bool) (want : Option Nat) (s : State) : State :=
  let s1 := openPart sd false want s
  if (pageOf sd false want s1).isSome then s1 else openPart sd true want s1

/-- The landing page that the next unit takes: of the dynamic part while that has one (R129). None when the pool has no free page (R130). -/
def landingPage (sd : Bool) (want : Option Nat) (s : State) : Option (Nat × Nat) :=
  match pageOf sd false want s with
  | some p => some p
  | none => pageOf sd true want s

/-- SD data in a superblock is tracked by namespace (R141). -/
def noteSd (nsid i : Nat) (s : State) : State :=
  match nsAt nsid s with
  | none => s
  | some n => if nsSd n && !s.ftl.sdHolds.contains (nsid, i) then
      { s with ftl := { s.ftl with sdHolds := s.ftl.sdHolds ++ [(nsid, i)] } } else s

/-- Superblocks of a unit's copies are queued for secure discard, once each, with the bytes pending (R141). -/
def queueDiscard (nsid : Nat) (s : State) : State :=
  forEach (fun p t => if t.ftl.discard.any (fun d => d.1 == p.2) then t
      else { t with ftl := { t.ftl with discard := t.ftl.discard ++ [(p.2, usedUnits (sbAt p.2 t) * 16384)] } })
    (s.ftl.sdHolds.filter (fun p => p.1 == nsid)) s

/-! ### Map changes and the journal (R17, R122, R144) -/

/-- Bytes the journal buffer holds or has in flight. -/
def journalHeld (s : State) : Nat := s.ftl.unflushed + s.ftl.flushing

/-- A journal entry of `n` bytes is appended. -/
def journal (n : Nat) (s : State) : State := { s with ftl := { s.ftl with unflushed := s.ftl.unflushed + n } }

/-- A program of the map writer. -/
def mapWrite (o : ChanOp) : Bool := o.use == .mapPage && o.kind == .progSlc

/-- The map writer has one dirty page under way, the longest dirty first, in class 2 (R124, R157). DESIGN CHOICE (log entry 15): the order
and the number are its own. -/
def mapWriter (s : State) : State :=
  if !(chansWith mapWrite s).isEmpty then s
  else match s.ftl.dirty with
    | [] => s
    | p :: _ => pushOp (metaChan p s) (mkOp .progSlc .mapPage 2 (p % 8) 0 0 p) s

/-- The map page of a change becomes dirty in the cache. -/
def mapChanged (p : Nat) (s : State) : State := mapWriter (cachePage p (dirtyPage p s))

/-- A compression engine in service other than `skip`; which one is open. -/
def freeEngine (skip : Option Nat) (s : State) : Option Nat :=
  let up := (List.range 4).filter (fun i => fget (Fl.CMP_STATUS_STATE i) s != 3 && some i != skip)
  up[freeNat 2 s % up.length]?

/-- An engine does one operation of a namespace's units: input bytes, output bytes and the operation count (R256). -/
def engineWork (e i o : Nat) (s : State) : State :=
  s |> cntAdd (Reg.CMP_CNT_IN e) 64 i |> cntAdd (Reg.CMP_CNT_OUT e) 64 o |> cntAdd (Reg.CMP_CNT_DESC e) 64 1

/-- An engine compresses a unit and expands what it has produced (R241): none when they differ, which is an event of the engine; else the
stored size, which the manual leaves to the compressor, in steps of 512 B (R118, R240). Whether they differ is open. -/
def tryEngine (e : Nat) (s : State) : Option Nat × State :=
  let s1 := useFree s
  let k := 512 * (1 + freeNat 5 s1)
  let s2 := engineWork e 16384 k (useFree s1)
  if freeNat 1 s = 0 then (some k, s2)
  else (none, cntAdd (Reg.CMP_CNT_VERIFY_FAIL e) 32 1 s2 |> raiseEvent 0x09 e (Fl.CMP_EVENT_VERIFY_FAIL e))

/-- The stored size of a unit: 16 KiB, or for a compressed namespace what an engine produces. After a mismatch another engine compresses it
again, and after a second one, or with no other engine in service, it is stored raw (R241, R254). -/
def storeUnit (n : Ns) (s : State) : Nat × State :=
  if nsCompressed n then
    match freeEngine none s with
    | none => (16384, s)
    | some a =>
      let r := tryEngine a (useFree s)
      match r.1 with
      | some k => (k, r.2)
      | none =>
        match freeEngine (some a) r.2 with
        | none => (16384, r.2)
        | some b => let q := tryEngine b (useFree r.2); (q.1.getD 16384, q.2)
  else (16384, s)

/-! ### Units that have been read -/

/-- How a unit that has been read expands (R240, R242): by the light decompressor, which takes method 2 blocks and raw units, or by a central
engine, which takes method 3. Effort levels 0 to 2 write method 2, and a block that would need method 1 is stored raw (R239, R240). None: its
namespace is not compressed. -/
def lightPath (key : Nat) (s : State) : Option Bool :=
  match nsAt (key / 2 ^ 40) s, iuAt key s with
  | some n, some u => if nsCompressed n then some (decide (u.stored = 16384) || decide (n.options / 2 % 8 ≤ 2)) else none
  | _, _ => none

/-- A unit is expanded: the light decompressor counts a block that it has expanded, and a central engine, whichever, the operation (R242, R256). -/
def expandUnit (key : Nat) (s : State) : State :=
  let u := iuAt key s
  let stored := (u.map (·.stored)).getD 0
  match lightPath key s with
  | some true => if stored < 16384 then cntAdd (Reg.CMP_LD_CNT_BLOCKS 0 ((u.map (·.chan)).getD 0)) 64 1 s else s
  | some false => (match freeEngine none s with
    | some e => engineWork e stored 16384 (useFree s)
    | none => s)
  | none => s

/-- A page of the block that superblock `sb` has on a channel was read: the block's reads, and refresh past the limit of R173. -/
def noteRead (sb chan : Nat) (needRefresh : Bool) (s : State) : State :=
  let limit := if (sbAt sb s).slc then 1000000 else 100000
  updBlkOf sb chan (fun b => { b with reads := b.reads + 1, refresh := b.refresh || needRefresh || decide (limit < b.reads + 1) }) s

/-- A read has failed every step: the event and the counts of its channel, which a retired one keeps (R156, R176). -/
def readLost (chan : Nat) (s : State) : State :=
  let c := chanAt chan s
  if c.retired then s
  else raiseEvent 0x06 chan (Fl.CHE_EVENT_UNCORR chan) (setChan chan { c with uncorrLife := Nat.min (c.uncorrLife + 1) 0xFFFFFFFF } s)

/-- A command reads a unit within its own step, so that its read stands in no queue; it counts as a page read of its channel. DESIGN CHOICE
(log 68). -/
def readHere (key : Nat) (ok : Bool) (s : State) : State :=
  match iuAt key s with
  | none => s
  | some u =>
    if u.uncorr then s
    else
      let s1 := if (chanAt u.chan s).retired then s else noteRead u.sb u.chan (!ok) (cntAdd (Reg.CHE_CNT_READ u.chan) 64 1 s)
      if ok then expandUnit key s1 else readLost u.chan s1

/-- Bytes of metadata that a unit carries in its spare area (R121). -/
def unitMeta (n : Ns) : Nat := lbasPerIu n.flbas * (if n.flbas % 3 = 0 then 0 else if n.flbas % 3 = 1 then 8 else 16)

/-- One unit that has landed at `p`: its new contents replace the old in the map (R17 step 6, R19), the journal and map page follow,
and staged window pages are discarded (R297). -/
def landUnit (p : Place) (nsid iu : Nat) (n : Ns) (d : IuData) (s : State) : State :=
  let u : Iu := ⟨p.sb, p.chan, p.die, d, p.stored, false, s.ftl.landings⟩
  { s with ftl := { s.ftl with
      map := SMap.put s.ftl.map (mapKey nsid iu) u, slcBytes := s.ftl.slcBytes + p.stored + unitMeta n, landings := s.ftl.landings + 1 } }
    |> noteSd nsid p.sb |> journal 16 |> mapChanged (pageKey nsid iu) |> invalidateWindows nsid iu

/-- A whole unit is deallocated. -/
def deallocUnit (nsid iu : Nat) (s : State) : State :=
  { s with ftl := { s.ftl with map := SMap.del s.ftl.map (mapKey nsid iu) } }
    |> mapChanged (pageKey nsid iu) |> invalidateWindows nsid iu

/-- New contents of unit `iu` under a write: its own blocks over the old ones (R122). -/
def mergeUnit (k iu : Nat) (w : SMap LBlk) (old : IuData) : IuData :=
  (w.filter (fun e => e.1 / k == iu)).foldl (fun m e => SMap.put m (e.1 % k) e.2) old

/-- Blocks of unit `iu` a command changes, and whether that is the whole unit. -/
def blocksIn (x : Cmd) (k iu : Nat) : Nat := (x.wdata.filter (fun e => e.1 / k == iu)).length
def coversUnit (x : Cmd) (k iu : Nat) : Bool := blocksIn x k iu == k

/-- A partly covered unit is marked uncorrectable: the write ends with Unrecovered Read Error (R122). -/
def mergeBlocked (x : Cmd) (s : State) : Bool :=
  let k := nsK x.nsid s
  (iusOf x s).any (fun iu => !coversUnit x k iu && blocksIn x k iu != 0 &&
    (match iuAt (mapKey x.nsid iu) s with | some u => u.uncorr | none => false))

/-- Units a write lands: all it changes, but the whole units that it deallocates (R140). -/
def landed (x : Cmd) (s : State) : List Nat :=
  let k := nsK x.nsid s
  (iusOf x s).filter (fun iu => blocksIn x k iu != 0 && !(x.dealloc && coversUnit x k iu))

/-- The units of a command whose map entry it changes, and their map pages. -/
def changed (x : Cmd) (s : State) : List Nat := (iusOf x s).filter (fun iu => blocksIn x (nsK x.nsid s) iu != 0)
def changedPages (x : Cmd) (s : State) : List Nat := ((changed x s).map (fun iu => pageKey x.nsid iu)).dedup

/-- A landing page is reserved for one unit of a command, compressed before it is programmed (R17 steps 2 and 5); none where the pool has
no page. -/
def placeUnit (tag : Nat) (n : Ns) (want : Option Nat) (iu : Nat) (s : State) : State :=
  let s1 := openLanding (nsSd n) want s
  match landingPage (nsSd n) want s1, cmdAt tag s1 with
  | some p, some x =>
    let st := storeUnit n s1
    let pl : Place := ⟨p.1, p.2, blkDie (SMap.getD (sbAt p.1 s1).blocks p.2 0), st.1⟩
    takeUnits 1 p.1 p.2 (setCmd { x with places := SMap.put x.places iu pl } st.2)
  | _, _ => s1

/-- The landing program of a unit is queued on its channel. -/
def pushLanding (tag : Nat) (nsid : Nat) (iu : Nat) (p : Place) (s : State) : State :=
  pushOp p.chan (mkOp .progSlc .landing 2 p.die p.sb tag (mapKey nsid iu)) s

/-- Landing starts: a page is reserved for every unit and its program queued; with a page short the command waits for landing space
(R130), and during brace it is held (R27). -/
def startLanding (x : Cmd) (n : Ns) (s : State) : State :=
  if mode s = 8 then setCmd { x with phase := .held, places := [] } s
  else
    let ius := landed x s
    let s1 := forEach (placeUnit x.tag n none) ius (setCmd { x with phase := .started, places := [] } s)
    let got := match cmdAt x.tag s1 with | some y => y.places | none => []
    if ius.all (fun iu => (SMap.find got iu).isSome) then
      forEach (fun e t => pushLanding x.tag x.nsid e.1 e.2 t) got (setCmd { x with phase := .started, media := true, places := got } s1)
    else openLanding (nsSd n) none (setCmd { x with phase := .waitLanding, places := [] } s)

/-- Units whose current contents a write reads first: mapped, covered in part, and with no earlier write of the unit outstanding, whose
data would stand in DRAM (R101, R122). -/
def mergeReads (x : Cmd) (s : State) : List Nat :=
  let k := nsK x.nsid s
  (landed x s).filter (fun iu => !coversUnit x k iu &&
    (match iuAt (mapKey x.nsid iu) s with | some u => !u.uncorr | none => false) &&
    !(s.nv.cmds.any (fun y => decide (y.order < x.order) && writesKind y.kind && y.result.isNone && y.nsid == x.nsid &&
      (iusOf y s).contains iu)))

/-- A write with its map pages at hand lands; what it covers in part is read before, in class 1 (R122). -/
def beginLanding (x : Cmd) (n : Ns) (s : State) : State :=
  let m := mergeReads x s
  if m.isEmpty then startLanding x n s
  else
    let s1 := setCmd { x with phase := .merging, media := true, need := m } s
    forEach (fun iu t => match iuAt (mapKey x.nsid iu) t with
      | some u => pushOp u.chan (mkOp .read .unit 1 u.die u.sb x.tag (mapKey x.nsid iu)) t
      | none => t) m s1

/-- Units of a command, landed and in flight, are programmed again: on the same channel where it takes them, else on any (R138, R165,
R170); with no page free the command lands anew when there is one (R130). -/
def landAgain (tag : Nat) (ius : List Nat) (s : State) : State :=
  match cmdAt tag s with
  | none => s
  | some x => match nsAt x.nsid s with
    | none => s
    | some n =>
      let again (iu : Nat) (t : State) : State :=
        match cmdAt tag t with
        | none => t
        | some y =>
          let c := (SMap.find y.places iu).map (·.chan)
          let t1 := placeUnit tag n c iu (setCmd { y with places := SMap.del y.places iu } t)
          let placed (u : State) : Bool := (cmdAt tag u).any (fun z => (SMap.find z.places iu).isSome)
          let t2 := if placed t1 then t1 else placeUnit tag n none iu t1
          match (cmdAt tag t2).bind (fun z => SMap.find z.places iu) with
          | some p => pushLanding tag x.nsid iu p t2
          | none => t2
      let s1 := forEach again ius s
      match cmdAt tag s1 with
      | none => s1
      | some y =>
        if ius.all (fun iu => (SMap.find y.places iu).isSome) then s1
        else setCmd { y with phase := .waitLanding, places := [] } (endOps (fun o => o.use == .landing && o.tag == tag) s1)

/-- Journal bytes a command's map change takes: 16 for each unit that lands, 32 for each map page with a deallocated range (R144). -/
def journalNeed (x : Cmd) (s : State) : Nat :=
  16 * (landed x s).length + (if x.dealloc then 32 * (changedPages x s).length else 0)

/-- Journal and dirty pages have room for a command's map change: 4 MiB unflushed and 8 GiB dirty at most (R124, R144). DESIGN CHOICE (log
entry 59): one that alone needs more goes ahead once nothing is unflushed, or dirty. -/
def mapRoom (x : Cmd) (s : State) : Bool :=
  let new := ((changedPages x s).filter (fun p => !s.ftl.dirty.contains p)).length
  (journalHeld s == 0 || decide (journalHeld s + journalNeed x s ≤ 4194304)) &&
    (new == 0 || s.ftl.dirty.isEmpty || decide (s.ftl.dirty.length + new ≤ dirtyPageLimit))

/-- Landed data of a command may change the map now: earlier overlapping writes are applied, reads of its queue have
looked up, on an ordered queue every earlier command has ended, and journal and dirty pages have room (R100, R101,
R103, R124, R144). -/
def mayApply (x : Cmd) (s : State) : Bool :=
  !waitsForWrite x s && !waitsForRead x s &&
    (!x.ordered || s.nv.cmds.all (fun y => !(y.ctrl == x.ctrl && y.sq == x.sq && decide (y.order < x.order) && y.ordered && y.result.isNone))) &&
    mapRoom x s

/-! ### Fill and the dynamic target (R128) -/

/-- The dynamic landing target in SLC superblocks for `stored` bytes of `cap`, of a largest target `dmax`, scaled by
DYN_LIMIT percent. -/
def dynTargetOf (stored cap dmax limit : Nat) : Nat :=
  if stored * 100 ≤ 10 * cap then dmax * limit / 100
  else if 90 * cap ≤ stored * 100 then 0
  else dmax * (90 * cap - stored * 100) * limit / (80 * cap * 100)

/-- The fill, the dynamic target and the folding policy are recomputed (R128, R132); free dynamic superblocks above the target return to
QLC use, since none is set apart before it is opened (R129). -/
def recomputeFill (s : State) : State :=
  let cap := userIus s * 16384
  let st := storedBytes s
  { s with ftl := { s.ftl with
      fill := 10000 * st / cap
      dynTarget := dynTargetOf st cap (dynMax s) (featureValue 0xC0 s % 256)
      eager := featureValue 0xC0 s / 256 % 2 == 1 } }

/-- The map change of a landed command (R17 step 6, R97, R140): each unit it covers is written or deallocated; a deallocation recomputes
the fill (R128). -/
def applyWrite (x : Cmd) (s : State) : State :=
  match nsAt x.nsid s with
  | none => s
  | some n =>
    let k := lbasPerIu n.flbas
    let s1 := forEach (fun iu t =>
        if blocksIn x k iu = 0 then t
        else if x.dealloc && coversUnit x k iu then deallocUnit x.nsid iu t
        else match SMap.find x.places iu with
          | some p => landUnit p x.nsid iu n (mergeUnit k iu x.wdata (iuData (mapKey x.nsid iu) t)) t
          | none => t)
      (iusOf x s) s
    let s2 := if x.dealloc then journal (32 * (changedPages x s).length) s1 else s1
    let s3 := if x.dealloc && nsSd n then queueDiscard x.nsid s2 else s2
    if x.dealloc then recomputeFill s3 else { s3 with ftl := { s3.ftl with hostBytes := s3.ftl.hostBytes + x.nlb * lbaBytes n.flbas } }

/-- One landed command whose turn has come is applied and completes. -/
def applyOne (s : State) : State :=
  match s.nv.cmds.find? (fun x => x.phase == .waitJournal && x.result.isNone && mayApply x s) with
  | none => s
  | some x =>
    if mergeBlocked x s then complete x.tag 2 0x81 true 0 [] s
    else completeOk x.tag (applyWrite x s)

/-- Landed commands are applied in fetch order as far as they may. -/
def applyLanded : Nat → State → State
  | 0, s => s
  | n + 1, s => applyLanded n (wakeReads (applyOne s))

/-- Everything a release lets go on. -/
def applyAll (s : State) : State := applyLanded s.nv.cmds.length s

/-- A write ends with a status before it has landed, and what waited for it goes on. -/
def endWrite (tag sct sc : Nat) (dnr : Bool) (s : State) : State := applyAll (complete tag sct sc dnr 0 [] s)

/-- A merge's read has ended (R122): landing starts after the last one, unless brace holds it (R27); a read that fails every step ends
the write. -/
def mergeRead (tag iu : Nat) (ok : Bool) (s : State) : State :=
  match cmdAt tag s with
  | none => s
  | some x =>
    if x.phase ≠ .merging ∨ x.result.isSome ∨ ¬ x.need.contains iu then s
    else if ¬ ok then endWrite tag 2 0x81 true s
    else
      let rest := x.need.filter (· != iu)
      if ¬ rest.isEmpty then setCmd { x with need := rest } s
      else if mode s = 8 then setCmd { x with need := [], phase := .held } s
      else match nsAt x.nsid s with
        | none => s
        | some n => startLanding { x with need := [] } n s

/-- Writes that wait for landing space start when the pool has a page (R130), but not during brace (R27). -/
def releaseLanding (s : State) : State :=
  if mode s = 8 then s
  else forEach (fun x t => match nsAt x.nsid t with
      | some n => startLanding x n t
      | none => t)
    (s.nv.cmds.filter (fun x => x.phase == .waitLanding && x.result.isNone)) s

/-! ### Read-Only and wear (R133, R147, R148, R518) -/

/-- Blocks in service that have been in a superblock. -/
def servedBlks (s : State) : List Blk := (s.ftl.blks.map (·.2)).filter (fun b => b.st != .retired)
/-- Blocks of the module never in a superblock, and every block in service. -/
def freshBlks (s : State) : Nat := (List.range 32).foldl (fun n c => n + (chanBlocks c s - SMap.getD s.ftl.nextBlk c 0)) 0

/-- Average wear units of blocks in service. -/
def wearAvg (s : State) : Nat :=
  ((servedBlks s).foldl (fun n b => n + b.wear) 0 + freshBlks s * s.ftl.freshWear) / max ((servedBlks s).length + freshBlks s) 1
/-- Largest wear in service. -/
def wearMax (s : State) : Nat := (servedBlks s).foldl (fun n b => max n b.wear) (if freshBlks s = 0 then 0 else s.ftl.freshWear)
/-- Smallest wear in service. -/
def wearMin (s : State) : Nat := (servedBlks s).foldl (fun n b => min n b.wear) (if freshBlks s = 0 then wearMax s else s.ftl.freshWear)
/-- Percentage Used (R147). -/
def pctUsed (s : State) : Nat := Nat.min (wearAvg s * 100 / 60000) 255
/-- Retirement spares at manufacture, on the 1,024 planes of 256 dies (R126). -/
def sparesMade : Nat := (List.range 256).foldl (fun n k => n + 4 * sparesOf k) 0
/-- Retirement spares remaining, module total. -/
def sparesLeft (s : State) : Nat := sparesMade - s.ftl.planeRetired.foldl (fun n e => n + 4 * Nat.min e.2 (sparesOf e.1)) 0
/-- Available Spare, percent (R147). -/
def availSpare (s : State) : Nat := sparesLeft s * 100 / sparesMade
/-- Headroom left on a channel, summed over its 32 planes (R518). -/
def chanHeadroom (c : Nat) (s : State) : Nat :=
  let made := if s.media.retireOrder.isEmpty then 32 * headroomBlocks s else 32 * (if is120 s then 192 else 36)
  made - (s.ftl.planeRetired.filter (fun e => e.1 / 8 == c)).foldl (fun n e => n + 4 * (e.2 - sparesOf e.1)) 0
/-- A block of headroom has been consumed (R147). -/
def headroomUsed (s : State) : Bool := s.ftl.planeRetired.any (fun e => decide (sparesOf e.1 < e.2))

/-- The WEAR_FLAGS conditions that hold now (R148). -/
def wearConditions (s : State) : List Bool :=
  [decide (90 ≤ pctUsed s), decide (availSpare s < 10), decide (100 ≤ pctUsed s),
   s.ftl.planeRetired.any (fun e => decide (sparesOf e.1 ≤ e.2)),
   (List.range 32).any (fun c => !s.media.retireOrder.contains c && decide (chanHeadroom c s < 256)),
   decide (150 ≤ pctUsed s)]

/-- One condition becomes true: its bit, its postmark and its visible effect (R147, R148). -/
def wearFlag (b : Nat) (s : State) : State :=
  let s1 := postmark 0x0580 0x05 [b] { s with ftl := { s.ftl with wearFlags := s.ftl.wearFlags + 2 ^ b } }
  match b with
  | 1 => smartEvent 0 s1
  | 2 => if headroomUsed s then s1 else smartEvent 2 s1
  | 4 => enterReadOnly 1 s1
  | 5 => enterReadOnly 2 s1
  | _ => s1

/-- Conditions newly true are flagged (R148). -/
def checkWear (s : State) : State :=
  forEach (fun b t => if (wearConditions t).getD b false && t.ftl.wearFlags / 2 ^ b % 2 == 0 then wearFlag b t else t)
    (List.range 6) s

/-- A block on a channel and die is retired and uses a spare of its planes, or else headroom (R137, R138); the first headroom block sets
critical warning bit 2 (R147). -/
def retireBlock (chan die : Nat) (byErase : Bool) (s : State) : State :=
  let k := 8 * chan + die
  let s1 := { s with ftl := { s.ftl with
      planeRetired := SMap.put s.ftl.planeRetired k (retiredOn k s + 1)
      eraseRetired := s.ftl.eraseRetired + (if byErase then 1 else 0)
      progRetired := s.ftl.progRetired + (if byErase then 0 else 1) } }
  checkWear (if headroomUsed s1 && !headroomUsed s && s.ftl.wearFlags / 4 % 2 == 0 then smartEvent 2 s1 else s1)

/-- The block that a superblock has on a channel is retired and leaves it. -/
def retireBlkOf (i c : Nat) (byErase : Bool) (s : State) : State :=
  match SMap.find (sbAt i s).blocks c with
  | none => s
  | some b =>
    let s1 := updBlk c b (fun x => { x with st := .retired }) s
    retireBlock c (blkDie b) byErase (setSb i { sbAt i s1 with blocks := SMap.del (sbAt i s1).blocks c } s1)

/-- A unit is mapped as uncorrectable, recorded and journaled (R131, R139, R144). -/
def markUncorrectable (key : Nat) (s : State) : State :=
  match iuAt key s with
  | none => s
  | some u =>
    if u.uncorr then s
    else { s with ftl := { s.ftl with map := SMap.put s.ftl.map key { u with uncorr := true, data := [] } } }
      |> journal 16 |> mapChanged (keyPage key) |> otherPostmark 0x05 0 key 0 139

/-! ### Folding, collection and erasure (R131–R141) -/

/-- Folding, collection and wear levelling run outside Read-Only, Commit and a stop (R149, R47). -/
def relocationRuns (s : State) : Bool := mode s == 4 || mode s == 5

/-- Units of a move that are still mapped to its source, with the channel each goes to. -/
def stillThere (m : Move) (s : State) : List (Nat × Nat) :=
  m.slots.filter (fun p => match iuAt p.1 s with | some u => u.sb == m.source && !u.uncorr | none => false)

/-- QLC pages of a wordline program for `n` units: four pages on each plane that it takes (R152). -/
def wordlinePages (n : Nat) : Nat := (n + 3) / 4 * 4

/-- A unit moves to its place in another superblock, its data unchanged. -/
def remapUnit (target chan key : Nat) (s : State) : State :=
  match iuAt key s with
  | none => s
  | some u =>
    { s with ftl := { s.ftl with
        map := SMap.put s.ftl.map key { u with sb := target, chan := chan, die := blkDie (SMap.getD (sbAt target s).blocks chan 0) } } }
      |> journal 16 |> mapChanged (keyPage key) |> noteSd (keyNsid key) target

/-- A unit on its way is to be mapped to superblock `i`. -/
def awaited (i : Nat) (s : State) : Bool :=
  s.nv.cmds.any (fun x => x.places.any (fun p => p.2.sb == i)) || s.ftl.folds.any (fun m => m.target == i) || s.ftl.copies.any (fun m => m.target == i)

/-- Units with data on the block of superblock `i` on channel `c`. -/
def unitsOn (i c : Nat) (s : State) : List Nat := (s.ftl.map.filter (fun e => e.2.sb == i && e.2.chan == c && !e.2.uncorr)).map (·.1)

/-- A superblock whose last block has gone is no more; nothing of it awaits discard. -/
def dropSb (i : Nat) (s : State) : State :=
  if (sbAt i s).blocks.isEmpty && (mappedTo i s).isEmpty then
    { s with ftl := { s.ftl with
        sbs := SMap.del s.ftl.sbs i, discard := s.ftl.discard.filter (fun d => d.1 != i), sdHolds := s.ftl.sdHolds.filter (fun p => p.2 != i) } }
  else s

/-- A superblock that holds no mapped unit any more, and is to hold none, has its blocks queued for erase (R158); a victim waits until the
suspect blocks that its units were copied to hold nothing (R139). Blocks on a retired channel stay as they are (R170). -/
def queueErase (i : Nat) (s : State) : State :=
  let b := sbAt i s
  if (SMap.find s.ftl.sbs i).isSome ∧ (mappedTo i s).isEmpty ∧ (b.use = .full ∨ b.use = .gcTarget ∨ b.use = .fold) ∧ ¬ awaited i s ∧
      b.waits.all (fun w => (unitsOn w.1 w.2 s).isEmpty) then
    let bs := b.blocks.filter (fun e => !(chanAt e.1 s).retired)
    dropSb i (forEach (pushErase i) ((bs.filter (fun e => (blkAt e.1 e.2 s).st == .used)).map (·.1)) (setSb i { b with use := .erasing, blocks := bs } s))
  else s

/-- Full SLC superblocks of which nothing is mapped any more, and full QLC ones, are erased (R131, R133). -/
def reclaim (s : State) : State :=
  forEach (fun e t => queueErase e.1 t) (s.ftl.sbs.filter (fun e => e.2.use == .full)) s

/-- The open superblock of a use that takes a unit on channel `want`, or on any. -/
def targetOf (use : SbUse) (sd : Bool) (want : Option Nat) (s : State) : Option Nat :=
  (s.ftl.sbs.find? (fun e => e.2.use == use && e.2.sd == sd &&
    (match want with | some c => takesOn e.1 c s | none => (nextChan e.1 s).isSome))).map (·.1)

/-- A QLC target is open where it can be: two of a use at most, one for SD data; beyond them the earlier one closes (R145). -/
def openTarget (use : SbUse) (sd : Bool) (want : Option Nat) (s : State) : State :=
  if (targetOf use sd want s).isSome then s
  else
    let open' := s.ftl.sbs.filter (fun e => e.2.use == use && e.2.sd == sd)
    let s1 := openSb use false false sd s
    if s1.ftl.nextSb = s.ftl.nextSb ∨ open'.length < (if sd then 1 else 2) then s1
    else match open' with
      | e :: _ => setSb e.1 { sbAt e.1 s1 with use := .full } s1
      | [] => s1

/-- The free blocks of channel `c` for QLC superblocks (R136): erased or queued for erase, less what the landing pool may still borrow. -/
def freeOn (c : Nat) (s : State) : Nat :=
  let mine := s.ftl.blks.filter (fun e => e.1 / 65536 == c && !e.2.static)
  let free := (chanBlocks c s - SMap.getD s.ftl.nextBlk c 0) +
    (mine.filter (fun e => e.2.st == .free || e.2.st == .erasing || e.2.st == .erased || e.2.st == .recording)).length
  let static := (s.ftl.blks.filter (fun e => e.1 / 65536 == c && e.2.static && e.2.st != .retired)).length
  free - (s.ftl.dynTarget - poolSbs false s) - (staticSbs s + journalSbs - static)

/-- Free QLC superblocks: the least of the counts of the working channels (R136). -/
def freeQlcSbs (s : State) : Nat := (workChans s).foldl (fun n c => min n (freeOn c s)) (8 * chanMade s)

/-- Below 1.5 times the minimum free reserve of 64 superblocks garbage collection goes before every other relocation (R136). -/
def reserveLow (s : State) : Bool := decide (freeQlcSbs s < 96)

/-- Hours since a superblock's last program (R133), of the ticks of the model's clock. -/
def ageHours (b : Sb) (s : State) : Nat := (s.tick - b.lastProg) / 3600000000

/-- The victim of garbage collection: the full QLC superblock of highest (invalid fraction) × (age + 1) (R133). -/
def gcVictim (s : State) : Option Nat :=
  let score (i : Nat) (b : Sb) : Nat := (usedUnits b - (mappedTo i s).length) * (ageHours b s + 1)
  s.ftl.sbs.foldl (fun best e =>
    if e.2.use = .full ∧ !e.2.slc ∧ (mappedTo e.1 s).length < usedUnits e.2 ∧ !s.ftl.copies.any (fun m => m.source == e.1) then
      (match best with
      | none => some e.1
      | some b => if score b (sbAt b s) * usedUnits e.2 < score e.1 e.2 * usedUnits (sbAt b s) then some e.1 else best)
    else best) none

/-- Slots for as many of the units as the target takes. -/
def takeSlots (t : Nat) : List Nat → State → List (Nat × Nat) × State
  | [], s => ([], s)
  | k :: ks, s =>
    match nextChan t s with
    | none => ([], s)
    | some c =>
      let r := takeSlots t ks (takeUnits 1 t c s)
      ((k, c) :: r.1, r.2)

/-- Superblock `t` takes the units of `slots` from `source`: a copy begins, its reads and programs queued in class 4 (R133, R157). -/
def beginCopy (t source : Nat) (slots : List (Nat × Nat)) (s : State) : State :=
  if slots.isEmpty then s
  else
    let id := s.ftl.nextMove
    let s1 := { s with ftl := { s.ftl with copies := s.ftl.copies ++ [⟨id, t, source, slots⟩], nextMove := id + 1 } }
    let s2 := forEach (fun p u => match iuAt p.1 u with
      | some x => pushOp x.chan (mkOp .read .copy 4 x.die x.sb id p.1) u
      | none => u) slots s1
    forEach (fun c u => pushOp c (mkOp .progQlc .copy 4 (blkDie (SMap.getD (sbAt t u).blocks c 0)) t id 0) u) ((slots.map (·.2)).dedup) s2

/-- Units of a superblock are copied into a QLC target, as many as it takes; the others are left for a later copy. -/
def copyUnits (source : Nat) (ius : List Nat) (s : State) : State :=
  let sd := (sbAt source s).sd
  let s1 := openTarget .gcTarget sd none s
  match targetOf .gcTarget sd none s1 with
  | none => s1
  | some t => let r := takeSlots t ius s1; beginCopy t source r.1 r.2

/-- A copy out of a superblock begins unless one is under way. -/
def startCopyOf (source : Nat) (ius : List Nat) (s : State) : State :=
  if s.ftl.copies.any (fun m => m.source == source) then s else copyUnits source ius s

/-- All of a superblock's valid units are copied; one with none is erased. -/
def vacate (i : Nat) (s : State) : State := if (mappedTo i s).isEmpty then queueErase i s else startCopyOf i (mappedTo i s) s

/-- The units of `slots`, landed on channel `c`, are folded into superblock `t`: their pages are read into the fold buffer, unless they are
there already, and a QLC wordline is programmed, on the same channel and in class 4 (R131, R154, R157). -/
def beginFold (c t source : Nat) (slots : List (Nat × Nat)) (read : Bool) (s : State) : State :=
  let id := s.ftl.nextMove
  let s1 := takeUnits (wordlinePages slots.length) t c
    { s with ftl := { s.ftl with folds := s.ftl.folds ++ [⟨id, t, source, slots⟩], nextMove := id + 1 } }
  let s2 := if read then forEach (fun p u => match iuAt p.1 u with
    | some x => pushOp c (mkOp .read .fold 4 x.die x.sb id p.1) u
    | none => u) slots s1 else s1
  pushOp c (mkOp .progQlc .fold 4 (blkDie (SMap.getD (sbAt t s2).blocks c 0)) t id 0) s2

/-- Units of a superblock landed on channel `c` are folded where a target takes them. -/
def foldUnits (c source : Nat) (ius : List Nat) (read : Bool) (s : State) : State :=
  let sd := (sbAt source s).sd
  let s1 := openTarget .fold sd (some c) s
  match targetOf .fold sd (some c) s1 with
  | none => s1
  | some t =>
    let b := sbAt t s1
    let us := ius.take (min 16 (blkUnits b - SMap.getD b.fill c 0))
    if us.isEmpty then s1 else beginFold c t source (us.map (fun k => (k, c))) read s1

/-- Operations of a move. -/
def moveOp (m : Move) (o : ChanOp) : Bool := (o.use == .fold || o.use == .copy) && o.tag == m.id

/-- A closed block whose data has all left it: a suspect one is retired (R138), an unstable one erased and reused
(R167). -/
def releaseBlocks (i : Nat) (s : State) : State :=
  let left (c : Nat) (t : State) : Bool := !(unitsOn i c t).isEmpty
  let s1 := forEach (fun c t =>
      if left c t then t
      else retireBlkOf i c false (setSb i { sbAt i t with suspect := (sbAt i t).suspect.filter (· != c) } t))
    (sbAt i s).suspect s
  forEach (fun c t =>
      if left c t then t
      else pushErase i c (setSb i { sbAt i t with unstable := (sbAt i t).unstable.filter (· != c) } t))
    (sbAt i s1).unstable s1

/-- The QLC pages of a move are programmed: counted on their channels and in log page 0xC1 (R151, R175). -/
def countQlc (slots : List (Nat × Nat)) (s : State) : State :=
  forEach (fun c t =>
      let n := wordlinePages (slots.filter (fun p => p.2 == c)).length
      cntAdd (Reg.CHE_CNT_PROG c) 64 n { t with ftl := { t.ftl with qlcBytes := t.ftl.qlcBytes + 16384 * n } })
    ((slots.map (·.2)).dedup) s

/-- Units of a move that failed every read step are marked uncorrectable, the others move; the source is queued for
erase when nothing is mapped to it. -/
def finishMove (m : Move) (bad : List Nat) (s : State) : State :=
  let s1 := forEach (fun p t => if bad.contains p.1 then markUncorrectable p.1 t else remapUnit m.target p.2 p.1 t) (stillThere m s) (countQlc m.slots s)
  queueErase m.source (releaseBlocks m.source s1)

/-- A program failure makes the block suspect: nothing more is programmed into it (R138). -/
def programFailed (sb chan : Nat) (s : State) : State :=
  let b := sbAt sb s
  setSb sb { b with
      suspect := if b.suspect.contains chan then b.suspect else b.suspect ++ [chan]
      closed := if b.closed.contains chan then b.closed else b.closed ++ [chan] } s
    |> raiseEvent 0x06 chan (Fl.CHE_EVENT_PROG_FAIL chan)

/-- Units of a copy on channel `c` are to be copied again, from their source (R139); the copy goes on with the others. -/
def copyAgain (m : Move) (c : Nat) (s : State) : State :=
  let bad := (stillThere m s).filter (fun p => p.2 == c)
  let rest := m.slots.filter (fun p => p.2 != c)
  let s1 := { s with ftl := { s.ftl with
    copies := if rest.isEmpty then s.ftl.copies.erase m else s.ftl.copies.map (fun x => if x = m then { m with slots := rest } else x) } }
  copyUnits m.source (bad.map (·.1)) s1

/-- A fold ends without effect: its units stay where they have landed. -/
def dropFold (m : Move) (s : State) : State := endOps (moveOp m) { s with ftl := { s.ftl with folds := s.ftl.folds.erase m } }

/-- A copy ends without effect. -/
def dropCopy (m : Move) (s : State) : State := endOps (moveOp m) { s with ftl := { s.ftl with copies := s.ftl.copies.erase m } }

/-- A program of channel `n` that has not succeeded is made again (R138, R139, R165, R167, R170): a landing at the next page of its channel,
or on another; a fold out of the fold buffer into another wordline of its channel, or, when that has retired, not until it is folded anew;
copied units again from their source; a journal or metadata page at the next page. -/
def programAgain (n : Nat) (o : ChanOp) (s : State) : State :=
  match o.use with
  | .landing => landAgain o.tag [o.key % 2 ^ 40] s
  | .fold => match s.ftl.folds.find? (fun m => m.id == o.tag) with
    | none => s
    | some m => let s1 := dropFold m s; if (chanAt n s).retired then s1 else foldUnits n m.source ((stillThere m s).map (·.1)) false s1
  | .copy => match s.ftl.copies.find? (fun m => m.id == o.tag) with
    | none => s
    | some m => copyAgain m n s
  | .journal | .mapPage => pushOp (metaChan o.key s) o s
  | .unit | .patrol | .erase | .contrib | .scan => s

/-- A program was interrupted (R167): the event, and a QLC block takes no more and is queued for relocation and erase. -/
def interruptedProgram (n : Nat) (o : ChanOp) (s : State) : State :=
  let b := sbAt o.sb s
  if o.kind = .progQlc then
    setSb o.sb { b with
      closed := if b.closed.contains n then b.closed else b.closed ++ [n]
      unstable := if b.unstable.contains n then b.unstable else b.unstable ++ [n] } s
  else s

/-- An erase of a block succeeds: wear 20 units in QLC mode, 1 in SLC mode (R133), and its remembered set is back at 0 (R155). A block leaves
the static pool after 2,000 SLC-mode erases (R134). -/
def erasedBlk (slc : Bool) (st : BlkSt) (x : Blk) : Blk :=
  let n := if slc then x.slcErases + 1 else x.slcErases
  { x with
    st := st, wear := Nat.min (x.wear + (if slc then 1 else 20)) 16777215, slcErases := n, static := x.static && decide (n < 2000)
    slcReady := slc, pending := false, remembered := 0, reads := 0, refresh := false }

/-- A superblock being prepared whose blocks are all erased opens for landing (R128). -/
def prepared (i : Nat) (s : State) : State :=
  let b := sbAt i s
  if b.use = .preparing ∧ b.blocks.all (fun e => (blkAt e.1 e.2 s).st == .used) then setSb i { b with use := .landing } s else s

/-- The block of superblock `i` on channel `c` is erased: for landing it is ready; otherwise it joins the free pool once its success is
recorded in the journal (R168). -/
def eraseSucceeded (i c : Nat) (s : State) : State :=
  let b := sbAt i s
  if b.use = .preparing then applyAll (releaseLanding (prepared i (updBlkOf i c (erasedBlk true .used) s)))
  else journal 16 (checkWear (updBlkOf i c (erasedBlk b.slc .erased) s))

/-- The block of superblock `i` on channel `c` fails its erase (R137): it is retired, and in a superblock being prepared a free block of the
channel takes its place. -/
def eraseFailed (i c : Nat) (s : State) : State :=
  let b := sbAt i s
  let s1 := retireBlkOf i c true (raiseEvent 0x06 c (Fl.CHE_EVENT_ERASE_FAIL c) s)
  if b.use ≠ .preparing then dropSb i s1
  else match pickBlk b.static c s1 with
    | none => applyAll (releaseLanding (prepared i s1))
    | some k =>
      let s2 := takeBlk b.static c k (setSb i { sbAt i s1 with blocks := SMap.put (sbAt i s1).blocks c k } s1)
      if (blkAt c k s1).slcReady then applyAll (releaseLanding (prepared i s2)) else pushErase i c s2

/-- The map is reset: every unit of every namespace deallocated (R142). -/
def resetMap (s : State) : State :=
  { s with ftl := { s.ftl with map := [], dirty := [], folds := [], copies := [] } }

/-- Every unit of one namespace is deallocated, each of its map pages journaled and changed (R120, R143, R144). -/
def deallocNs (nsid : Nat) (s : State) : State :=
  let mine := (s.ftl.map.filter (fun e => keyNsid e.1 == nsid)).map (·.1)
  let pages := (mine.map keyPage).dedup
  recomputeFill (forEach mapChanged pages (journal (32 * pages.length)
    { s with ftl := { s.ftl with map := s.ftl.map.filter (fun e => keyNsid e.1 != nsid) } }))

/-! ### Journal, checkpoint, Rise -/

/-- Pages of the metadata area or the journal are programmed: SLC bytes, and page programs of their channels (R151, R175). -/
def slcPages (pages : List Nat) (s : State) : State :=
  forEach (fun p t => cntAdd (Reg.CHE_CNT_PROG (metaChan p t)) 64 1 { t with ftl := { t.ftl with slcBytes := t.ftl.slcBytes + 16384 } }) pages s

/-- Journal pages that `n` bytes take: each flush pads to the end of an SLC page (R144). -/
def journalPagesOf (n : Nat) : Nat := (n + 16383) / 16384

/-- A flush of the journal buffer begins: its programs are queued in class 2, and the erases that it records go with it (R157, R168). -/
def journalFlush (s : State) : State :=
  let n := journalPagesOf s.ftl.unflushed
  let first := s.ftl.journalPages
  let s1 := { s with ftl := { s.ftl with
      flushing := s.ftl.flushing + s.ftl.unflushed, unflushed := 0, journalPages := first + n
      blks := s.ftl.blks.map (fun e => if e.2.st = .erased then (e.1, { e.2 with st := .recording }) else e) } }
  forEach (fun p t => pushOp (metaChan p t) (mkOp .progSlc .journal 2 (p / 32 % 8) 0 0 p) t) ((List.range n).map (· + first)) s1

/-- Erased blocks whose record is on flash are free, and leave their superblock (R168). -/
def freeRecorded (s : State) : State :=
  forEach (fun e t =>
      let gone := e.2.blocks.filter (fun p => (blkAt p.1 p.2 t).st == .recording)
      if gone.isEmpty then t
      else
        let t1 := forEach (fun p u => updBlk p.1 p.2 (fun x => { x with st := .free }) u) gone t
        dropSb e.1 (setSb e.1 { sbAt e.1 t1 with blocks := (sbAt e.1 t1).blocks.filter (fun p => !gone.contains p) } t1))
    s.ftl.sbs s

/-- The flush has reached flash, padded to whole SLC pages; completions and free blocks that waited for it go on (R144, R168). -/
def ftlJournalOnFlash (s : State) : State :=
  let n := s.ftl.flushing
  let s1 := endOps (fun o => o.use == .journal) s
  let s2 := { s1 with ftl := { s1.ftl with
    flushing := 0, sinceCkpt := s1.ftl.sinceCkpt + journalPagesOf n * 16384, slcBytes := s1.ftl.slcBytes + journalPagesOf n * 16384 } }
  applyAll (releaseLanding (freeRecorded s2))

/-- A checkpoint: dirty map pages written, then the directory (R144). -/
def checkpoint (s : State) : State :=
  let s1 := slcPages s.ftl.dirty (dropOps mapWrite s)
  { s1 with ftl := { s1.ftl with dirty := [], sinceCkpt := 0, checkpoints := s1.ftl.checkpoints + 1, metaPages := s1.ftl.metaPages + s.ftl.dirty.length } }

/-- Journal flushed and checkpoint written (R62, R107, R144). -/
def ftlFlushAndCheckpoint (s : State) : State := checkpoint (ftlJournalOnFlash (journalFlush s))

/-- The metadata of seal: the open-block table and checkpoint delta make the journal on flash complete (R27, R48). -/
def ftlSealMeta (s : State) : State := ftlJournalOnFlash (journalFlush s)

/-- The directory and last checkpoint are loaded; the map cache starts empty (R123, R125). -/
def ftlDirectoryLoaded (s : State) : State := { s with ftl := { s.ftl with cached := [], dirty := [] } }

/-- The journal is replayed (R144). -/
def ftlReplayed (s : State) : State := { s with ftl := { s.ftl with unflushed := 0, flushing := 0, sinceCkpt := 0 } }

/-- A block whose erase was started and is not recorded is erase-pending (R168). -/
def unrecorded (x : Blk) : Bool := x.st == .erasing || x.st == .erased || x.st == .recording

/-- The open-block scan (R145, R146, R167, R168): partly written fold and copy targets are abandoned, their sources stay mapped; unstable
pages of programs cut off are found; erases not recorded are pending; background map loading starts from the beginning. -/
def ftlScanned (s : State) : State :=
  let s1 := { s with ftl := { s.ftl with
      folds := [], copies := [], bgLoad := some 0
      blks := s.ftl.blks.map (fun e => if unrecorded e.2 then (e.1, { e.2 with st := .erasing, pending := true }) else e)
      sbs := s.ftl.sbs.map (fun e => if e.2.use = .fold ∨ e.2.use = .gcTarget then (e.1, { e.2 with use := .full }) else e) } }
  forEach (fun e t => if e.2.cutProgram then raiseEvent 0x06 e.1 (Fl.CHE_EVENT_UNSTABLE e.1) (setChan e.1 { chanAt e.1 t with cutProgram := false } t) else t)
    s1.media.chans s1

/-- Map pages of a namespace. -/
def mapPages (n : Ns) : Nat := (n.nsze / lbasPerIu n.flbas + 2047) / 2048

/-- The first map page at or after key `p`, in namespace and LBA order. -/
def nextMapPage (p : Nat) (s : State) : Option Nat :=
  s.nv.ns.findSome? (fun e =>
    if e.2.csi ≠ 0 ∨ e.1 < p / 2 ^ 32 then none
    else
      let from' := if e.1 = p / 2 ^ 32 then p % 2 ^ 32 else 0
      if from' < mapPages e.2 then some (e.1 * 2 ^ 32 + from') else none)

/-- The map page that background loading loads next; none when the cache is full or the map complete (R125). -/
def bgPage (s : State) : Option Nat :=
  if mapCachePages ≤ s.ftl.cached.length then none else s.ftl.bgLoad.bind (fun p => nextMapPage p s)

/-- Background loading goes on: the read of its next page is queued in class 3, where the page is not in the cache (R125, R157). -/
def bgQueue (s : State) : State :=
  match bgPage s with
  | none => { s with ftl := { s.ftl with bgLoad := none } }
  | some q => if s.ftl.cached.contains q then s else pushOp (metaChan q s) (mkOp .read .mapPage 3 (q % 8) 0 0 q) s

/-- After Rise every erase that is pending is queued, what holds nothing is erased, and background map loading starts (R125, R137, R146,
R168). -/
def ftlResume (s : State) : State :=
  bgQueue <| reclaim (forEach (fun e t => forEach (pushErase e.1) ((e.2.blocks.filter (fun p => (blkAt p.1 p.2 t).st == .erasing)).map (·.1)) t) s.ftl.sbs s)

end Sys2Proof.Machine
end

