-- ==== Sys2Proof/Machine/MgtBase.lean ====
section
/-! DEFINITION. Power caps, temperature warnings, firmware activation and settings that management firmware keeps
(R463–R466, R480, R484–R491). -/

namespace Sys2Proof.Machine

/-- Sets the management state. -/
def setMgt (f : Mgt → Mgt) (s : State) : State := { s with mgt := f s.mgt }

/-! ### Power states and caps (R63, R64, R464) -/

/-- No command but Asynchronous Event Requests outstanding, no program execution, no scan job (R64). -/
def idleConditions (s : State) : Bool :=
  s.nv.cmds.all (fun x => s.nv.ctrls.any (fun e => e.2.aers.contains x.tag)) &&
    s.nv.ctrls.all (fun e => e.2.sqs.all (fun q => q.2.head == q.2.tail)) && s.prog.execs.isEmpty && s.scan.jobs.isEmpty

/-- In addition no memory namespace, no loaded or activated program, no association (R64). -/
def deepConditions (s : State) : Bool :=
  s.ten.memNs.isEmpty && s.nv.ns.all (fun e => e.2.csi != 3) && s.net.assocs.isEmpty &&
    s.prog.slots.all (fun e => e.2.pieces.isEmpty && e.2.active.isNone)

/-- The idle conditions hold: of commands, executions and scans as the state has them, of transfers as last reported (R64). -/
def idleNow (s : State) : Bool := idleConditions s && !s.pow.moving

/-- The deep-idle conditions hold (R64). -/
def deepNow (s : State) : Bool := idleNow s && deepConditions s

/-- The lowest power state requested by the enabled controllers, as far as the idle conditions allow it (R64). -/
def psInEffect (s : State) : Nat :=
  let asked := (s.nv.ctrls.filter (fun e => e.2.en)).map (fun e => e.2.reqPs)
  let ps := asked.foldl Nat.min 4
  if asked.isEmpty then 0
  else if ps < 3 then ps
  else if ps = 3 then (if idleNow s then 3 else 0)
  else if deepNow s then 4 else if idleNow s then 3 else 0

/-- The caps of the three sources in watts, 0 for none: power state, thermal level, management. -/
def capParts (s : State) : Nat × Nat × Nat :=
  let ps := match psInEffect s with | 1 => 70 | 2 => 45 | _ => 0
  let th := match fget Fl.MGT_THERM_LEVEL s with | 1 => 70 | 2 => 45 | 3 => 25 | _ => 0
  (ps, th, fget Fl.MGT_MGMT_CAP_WATTS s)

/-- The lower of two caps, where 0 is none. -/
def lowerCap (a b : Nat) : Nat := if a = 0 then b else if b = 0 then a else Nat.min a b

/-- The cap in effect, in watts; 0 for none. -/
def capNow (s : State) : Nat := let p := capParts s; lowerCap p.1 (lowerCap p.2.1 p.2.2)

/-- MGT.CAP shows the cap in effect and every source that sets one. -/
def showCap (s : State) : State :=
  let p := capParts s
  let b (n w : Nat) : Nat := if w = 0 then 0 else 2 ^ n
  s |> fset Fl.MGT_CAP_WATTS (capNow s) |> fset Fl.MGT_CAP_SOURCE (b 0 p.1 + b 1 p.2.1 + b 2 p.2.2)

/-- The power state or a cap has changed: MGT.CAP, and Serve or Serve-Capped (R60, R464). Sanitize and Read-Only keep their mode. -/
def applyPowerState (s : State) : State :=
  if !pdOn 1 s then s
  else
    let s1 := showCap s
    if fget Fl.AON_MODE_TRANS s = 1 then s1
    else if mode s = 4 ∧ capNow s ≠ 0 then enterMode 5 s1
    else if mode s = 5 ∧ capNow s = 0 then enterMode 4 s1
    else s1

/-- Requested states that autonomous transitions set return to the state last set (R64). -/
def dropAutonomous (s : State) : State :=
  { s with nv := { s.nv with ctrls := s.nv.ctrls.map (fun e => (e.1, { e.2 with reqPs := e.2.setPs })) } }

/-- The idle conditions are judged again (R64): when they have stopped holding, requests that autonomous transitions set fall back, and
the count for the next one starts again when they hold. -/
def judgeIdle (s : State) : State :=
  let s1 := { s with pow := { s.pow with idleOk := idleNow s, deepOk := deepNow s } }
  applyPowerState (if idleNow s then s1 else dropAutonomous s1)

/-! ### Temperatures (R462) -/

/-- A reading of a sensor as a signed number of 1/16 °C; none until the first and on an absent sensor. -/
def sensorTemp (i : Nat) (s : State) : Option Int :=
  let v := fget (Fl.MGT_SENSOR_TEMP i) s
  if v = 0x8000 then none else some (BitVec.ofNat 16 v).toInt

/-- The kelvins NVMe reports of sensor `i`: 0 before the first reading. -/
def sensorKelvin (i : Nat) (s : State) : Nat :=
  match sensorTemp i s with
  | none => 0
  | some t => (t / 16 + 273).toNat

/-- Identifier under which a controller's features hold the threshold of sensor `sel`, over or under. -/
def threshId (sel : Nat) (under : Bool) : Nat := 4 + 2 ^ 32 * (1 + 2 * sel + (if under then 1 else 0))

/-- Default thresholds in kelvins. -/
def threshDefault (sel : Nat) (under : Bool) : Nat :=
  if under then 233 else if sel = 0 then 353 else if sel = 1 then 378 else 363

/-- The threshold of a controller in kelvins. -/
def threshOf (c sel : Nat) (under : Bool) (s : State) : Nat :=
  let id := threshId sel under
  match ctrlAt c s with
  | none => threshDefault sel under
  | some x => SMap.getD x.feats id (SMap.getD s.nv.saved (256 * c + id) (threshDefault sel under))

/-- Critical Warning bit 1 on a controller. -/
def tempWarning (c : Nat) (s : State) : Bool :=
  fget Fl.MGT_THERM_LEVEL s == 3 ||
    (match sensorTemp 0 s with
      | none => false
      | some t => decide (t / 16 + 273 > threshOf c 0 false s) || decide (t / 16 + 273 < threshOf c 0 true s))

/-- Controllers whose warning newly sets get the asynchronous event (R89, R147). -/
def judgeTemp (s : State) : State :=
  let now := (enabledControllers s).filter (fun c => tempWarning c s)
  let new := now.filter (fun c => !s.mgt.warned.contains c && aecOf c s / 2 % 2 == 1)
  let s1 := setMgt (fun m => { m with warned := now }) s
  if new.isEmpty then s1 else raiseAen new 1 1 0x02 s1

/-- The module has inlet air: the -F variants have sensor 11. -/
def hasSensor (i : Nat) (s : State) : Bool := decide (i < 11) || (i == 11 && decide (2 ≤ s.variant))

/-- Whole degrees of a reading as a signed byte. -/
def degreeByte (t : Int) : Nat := (BitVec.ofInt 8 (t / 16)).toNat

/-- A signed byte as an integer. -/
def byteInt (n : Nat) : Int := (BitVec.ofNat 8 n).toInt

/-- A reading in whole degrees, a signed byte, in the sensors' units of 1/16 °C in 16 bits. -/
def sensorOfByte (d : Nat) : Nat := (BitVec.ofInt 16 (16 * byteInt d)).toNat

/-- Sensor `i` reads `t16`, 1/16 °C in 16 bits, 0x8000 for absent: with its maximum and minimum since power-on (R462). -/
def sensorReads (i t16 : Nat) (s : State) : State :=
  let v := t16 % 65536
  let s1 := fset (Fl.MGT_SENSOR_TEMP i) v s
  if v = 0x8000 then judgeTemp s1
  else
    let d := degreeByte (BitVec.ofNat 16 v).toInt
    let hi := fget (Fl.MGT_SENSOR_MAX i) s
    let lo := SMap.getD s.mgt.mins i 0x80
    let s2 := if hi = 0x80 ∨ byteInt hi < byteInt d then fset (Fl.MGT_SENSOR_MAX i) d s1 else s1
    let s3 := if lo = 0x80 ∨ byteInt d < byteInt lo then setMgt (fun m => { m with mins := SMap.put m.mins i d }) s2 else s2
    judgeTemp s3

/-! ### Firmware components (R484–R490) -/

/-- A component, by identifier 1–5. -/
def fwAt (c : Nat) (s : State) : Fw := SMap.getD s.mgt.fw c Fw.made

/-- A slot of a component. -/
def fwSlot (c k : Nat) (s : State) : FwSlot := SMap.getD (fwAt c s).slots k ⟨0, 0, 0⟩

/-- Changes a component. -/
def setFw (c : Nat) (f : Fw → Fw) (s : State) : State := setMgt (fun m => { m with fw := SMap.put m.fw c (f (fwAt c s)) }) s

/-- The highest generation of a component. -/
def fwTop (c : Nat) (s : State) : Nat := ((fwAt c s).slots.map (fun e => e.2.gen)).foldl max 0

/-- An update is in progress (R487). -/
def updBusy (s : State) : Bool := fget Fl.MGT_UPD_STATE s != 0

/-- Sets MGT.UPD. -/
def setUpd (st comp src : Nat) (s : State) : State :=
  s |> fset Fl.MGT_UPD_STATE st |> fset Fl.MGT_UPD_COMPONENT comp |> fset Fl.MGT_UPD_SOURCE src

/-- An update ends with a result of log page 0xCB; a Firmware Commit waiting for it completes. -/
def updEnd (result : Nat) (s : State) : State :=
  let s1 := setUpd 0 0 (fget Fl.MGT_UPD_SOURCE s) (setMgt (fun m => { m with upd := { Upd.idle with last := result }, pieces := [] }) s)
  match s.mgt.upd.tag with
  | none => s1
  | some t => if result = 0 then completeOk t s1 else complete t 1 0x07 true 0 [] s1

/-- Units of a component that switch one by one: working channels, working clusters, else the one unit. -/
def updUnits (c : Nat) (s : State) : List Nat :=
  if c = 4 then (List.range 32).filter (fun n => chanUp n s)
  else if c = 3 then (List.range 8).filter (fun n => pdOn (12 + n) s && fget (Fl.AXC_STATUS_STATE n) s != 3)
  else [0]

/-- Live activation goes on with its next component; a component no unit of which works is active at once. -/
def updNext : Nat → State → State
  | 0, s => s
  | n + 1, s =>
    match s.mgt.upd.todo with
    | [] => updEnd 0 s
    | c :: t =>
      let us := updUnits c s
      let s1 := setUpd 3 c (fget Fl.MGT_UPD_SOURCE s) (setMgt (fun m => { m with upd := { m.upd with units := us, switching := false } }) s)
      if us.isEmpty then updNext n (made c t s1) else s1
where
  /-- component `c` runs its new slot -/
  made (c : Nat) (t : List Nat) (s : State) : State :=
    let k := SMap.getD s.mgt.upd.slots c (fwAt c s).active
    setMgt (fun m => { m with upd := { m.upd with todo := t, units := [], switching := false } })
      (setFw c (fun f => { f with active := k, next := k, result := 0 }) (postmark 0x1280 0x12 [c, 0] s))

/-- A unit has switched to its new image, or returned to the old one: on success of the last unit the next component follows, on
failure the update stops (R488). -/
def unitActivated (c unit : Nat) (ok : Bool) (s : State) : State :=
  let u := s.mgt.upd
  if u.todo.head? = some c ∧ u.units.contains unit then
    if ok then
      let left := u.units.filter (· != unit)
      if left.isEmpty then updNext 6 (updNext.made c u.todo.tail s)
      else setMgt (fun m => { m with upd := { m.upd with units := left } }) s
    else updEnd 2 (setFw c (fun f => { f with result := 2 }) (postmark 0x1280 0x12 [c, 2] s))
  else s

/-- Commit preempts a live activation (R488). -/
def updPreempt (s : State) : State :=
  match s.mgt.upd.todo with
  | [] => s
  | c :: _ => updEnd 3 (setFw c (fun f => { f with result := 3 }) (postmark 0x1280 0x12 [c, 3] s))

/-! ### An erase of config flash that is cut off (R476, R478) -/

/-- Sectors that must be erased again once the erase under way is cut off. -/
def cutErase (m : Mgt) : List Nat :=
  match m.op with
  | some (.erase sec n) => m.eraseAgain ++ (List.range n).map (· + sec)
  | some (.program _ _) | none => m.eraseAgain

/-! ### Class P registers (R11, R480) -/

/-- A class P register is written: its committed value is kept until a settings store commit. -/
def wrP (a : Nat) (v : Word) (s : State) : State :=
  let s1 := wr a v s
  if (SMap.find s.mgt.unsaved a).isSome then s1 else setMgt (fun m => { m with unsaved := SMap.put m.unsaved a (rd a s) }) s1

/-- Power is lost before a commit: class P registers keep what was committed (R480). -/
def dropUnsaved (s : State) : State :=
  setMgt (fun m => { m with unsaved := [] }) (forEach (fun e t => wr e.1 e.2 t) s.mgt.unsaved s)

/-- MGT.MGMT_CAP takes 0 or 25–125 W (R10, R472); whether the value was taken. -/
def mgmtCapOk (w : Nat) : Bool := w == 0 || (decide (25 ≤ w) && decide (w ≤ 125))

/-- Sets the management cap. -/
def setMgmtCap (w : Nat) (s : State) : State :=
  applyPowerState (wrP Reg.MGT_MGMT_CAP (insertField (rd Reg.MGT_MGMT_CAP s) 0 8 w) s)

end Sys2Proof.Machine
end

