-- ==== Sys2Proof/Machine/MediaOps.lean ====
section
/-! DEFINITION. The flash channel engines: reads and their escalation, the power governor, suspends, faults, resets and
retirement (R152–R176), rows PAGE_READ_DONE, REBUILD_COMPLETE and ERASE_DONE to MICROCODE_SWITCH. -/

namespace Sys2Proof.Machine

/-! ### Page reads and escalation (R155, R156) -/

/-- What the end of a page read gives to whoever asked for it. A unit that a fold or copy could not read is uncorrectable (R131, R139). -/
def readEnd (o : ChanOp) (ok : Bool) (s : State) : State :=
  match o.use with
  | .unit =>
    if o.cls = 1 then mergeRead o.tag (o.key % 2 ^ 40) ok (readUnitDone o.tag (o.key % 2 ^ 40) ok s)
    else if o.cls = 3 then windowArrived o.handle ok s
    else s
  | .fold | .copy => if ok then s else markUncorrectable o.key s
  | .scan => scanArrived o.tag (o.key % 2 ^ 40) ok s
  | .landing | .journal | .mapPage | .patrol | .erase | .contrib => s

/-- Reads that want a unit expanded: those of the host, of windows and of scans (R21, R244); relocation moves it as stored. -/
def expands (o : ChanOp) : Bool := o.use == .unit || o.use == .scan

/-- A read unit goes to whoever asked for it, expanded where it wants that (R242). -/
def readFor (o : ChanOp) (ok : Bool) (s : State) : State := readEnd o ok (if ok && expands o then expandUnit o.key s else s)

/-- The light decompressor of a channel finds a unit that fails its check (R242). -/
def lightFail (chan : Nat) (s : State) : State :=
  cntAdd (Reg.CMP_LD_CNT_FAIL 0 chan) 32 1 s |> raiseEvent 0x09 0 (Fl.CMP_EVENT_LD_FAIL 0) |> raiseEvent 0x09 0 (Fl.CMP_EVENT_CHECK_FAIL 0)

/-- Central engine `e` finds a unit that fails its check (R242). -/
def engineFail (e : Nat) (s : State) : State :=
  cntAdd (Reg.CMP_CNT_CHECK_FAIL e) 32 1 s |> raiseEvent 0x09 e (Fl.CMP_EVENT_CHECK_FAIL e)

/-- A read step succeeded: its counter, and the counts since power-on of log page 0xC4, which a retired channel keeps (R176). -/
def countStep (n step : Nat) (s : State) : State :=
  let c := chanAt n s
  if c.retired then s
  else match step with
  | 1 => setChan n { c with pStep1 := Nat.min (c.pStep1 + 1) 0xFFFFFFFF } s |> cntAdd (Reg.CHE_CNT_RRETRY n) 32 1
  | 2 => setChan n { c with pStep2 := Nat.min (c.pStep2 + 1) 0xFFFFFFFF } s |> cntAdd (Reg.CHE_CNT_SOFT n) 32 1
  | _ => setChan n { c with pStep3 := Nat.min (c.pStep3 + 1) 0xFFFFFFFF } s |> cntAdd (Reg.CHE_CNT_REBUILD n) 32 1

/-- A page that contributes to a rebuild on channel `n` has failed, and the rebuild with it (R156). -/
def contribFails (o : ChanOp) (s : State) : State :=
  let n := o.handle
  let c := chanAt n s
  setChan n { c with rebuilds := c.rebuilds.map (fun r => if r.op.key = o.key ∧ r.op.sb = o.sb then { r with failed := true } else r) } s

/-- A pre-read ends without its page: it is discarded, and one promoted meanwhile is read again for its letters (R163, R284). -/
def preReadLost (chan : Nat) (o : ChanOp) (s : State) : State :=
  match readAt o.handle s with
  | none => s
  | some r =>
    if o.cancelled then s
    else if !r.pre then pushOp chan { o with cls := 3 } s
    else prdEnded false r.core (showSch (updSch (fun z => { z with reads := z.reads.filter (fun x => x.handle != o.handle) }) s))

/-- The die read of a page ends and its decode with it: the first step that succeeds counts, and a page that needs step
3 waits for rebuild, but a page that contributes to one has failed (R155, R156). A unit that fails its check in the light decompressor is
expanded once more by a central engine, and one that a central engine finds wrong is recovered by rebuild (R242). -/
def execPageReadDone (chan die : Nat) (dec : Decode) (s : State) : Out :=
  let c := chanAt chan s
  match SMap.find c.dies die with
  | none => .next s
  | some o =>
    if o.kind ≠ .read ∨ o.cls = 6 then .next s
    else
      let s1 := cntAdd (Reg.CHE_CNT_READ chan) 64 1 (setChan chan { c with dies := SMap.del c.dies die } s)
      match dec with
      | .hard => .next (readFor o true (noteRead o.sb chan false s1))
      | .retry set =>
        if set < 8 ∧ set ≠ (blkOn o.sb chan s).remembered then
          let s2 := countStep chan 1 (noteRead o.sb chan false s1)
          .next (readFor o true (updBlkOf o.sb chan (fun b => { b with remembered := set }) s2))
        else .next s
      | .soft => .next (readFor o true (countStep chan 2 (noteRead o.sb chan true s1)))
      | .fail =>
        let s2 := noteRead o.sb chan true s1
        .next (if o.use = .contrib then contribFails o s2 else startRebuild chan o true false s2)
      | .check light eng =>
        if expands o ∧ lightPath o.key s = some light then
          let s2 := noteRead o.sb chan false s1
          let s3 := if light then lightFail chan s2 else s2
          match eng with
          | none => .next (if light then readEnd o true s3 else s)
          | some e => if 4 ≤ e then .next s else .next (startRebuild chan o false true (engineFail e s3))
        else .next s

/-- Every contributing read of the rebuild of unit `key` ends (R156): the page is reconstructed, or, when a contributing page has failed or
`ok` is false, the read fails every step. Reads that contribute count on their own channels. After a failed check the unit is expanded again,
and `ok` says whether it then agrees (R242); by which engine is a free value. -/
def execRebuildComplete (chan key : Nat) (ok : Bool) (s : State) : Out :=
  let c := chanAt chan s
  match c.rebuilds.find? (fun r => r.op.key == key) with
  | none => .next s
  | some r =>
    let s1 := endOps (fun o => o.use == .contrib && o.handle == chan && o.key == key && o.sb == r.op.sb)
      (setChan chan { c with rebuilds := c.rebuilds.erase r } s)
    if ok && !r.failed then
      let s2 := if r.counts then raiseEvent 0x06 chan (Fl.CHE_EVENT_REBUILD chan) (countStep chan 3 s1) else s1
      .next (readFor r.op true s2)
    else if r.check && !r.failed then .next (readFor r.op false (engineFail (freeNat 2 s1) (useFree s1)))
    else .next (readFor r.op false (readLost chan s1))

/-! ### The flash power governor (R157–R159) -/

/-- Milliwatts an operation draws on its die. -/
def opDraw (k : DieKind) : Nat :=
  match k with
  | .read => 50 | .progSlc => 60 | .progQlc => 60 | .erase => 120

/-- Estimated draw of a channel. -/
def chanDraw (c : Chan) (bus : Bool) : Nat :=
  (if bus then 250 else 0) + c.dies.foldl (fun n e => n + opDraw e.2.kind) 0

/-- Erases running on a channel. -/
def erasing (c : Chan) : Nat := (c.dies.filter (fun e => e.2.kind == .erase)).length

/-- The die, and for programs and erases the suspend and ordering rules, allow an operation to issue: no program or
erase to a suspended die or the other LUN of its chip enable (R160), no erase before the earlier reads of its block have completed, in a
back-off or a rebuild too (R158), one operation on a die at a time. -/
def mayIssue (c : Chan) (o : ChanOp) : Bool :=
  let readsIt (q : ChanOp) : Bool := q.kind == .read && q.sb == o.sb
  (SMap.find c.dies o.die).isNone &&
  (match o.kind with
    | .read => true
    | .progSlc | .progQlc => (SMap.find c.susp o.die).isNone && (SMap.find c.susp (o.die / 2 * 2 + (1 - o.die % 2))).isNone
    | .erase => (SMap.find c.susp o.die).isNone && (SMap.find c.susp (o.die / 2 * 2 + (1 - o.die % 2))).isNone &&
        !((c.queue.takeWhile (fun q => q != o)).any readsIt) && !c.backoff.any readsIt && !c.rebuilds.any (fun r => readsIt r.op))

/-- The earliest queued operation of a class that may issue; `ok`: what else allows an operation. -/
def firstOf (ok : ChanOp → Bool) (c : Chan) (cls : Nat) : Option ChanOp := c.queue.find? (fun o => o.cls == cls && ok o && mayIssue c o)

/-- Classes by priority; class 4 goes ahead of class 3 while the fold share is owed (R157). Pre-reads have a row of their
own. -/
def classOrder (foldLate : Bool) : List Nat := if foldLate then [1, 2, 4, 3, 5] else [1, 2, 3, 4, 5]

/-- The operation fits the channel's budget and erase limit (R159). -/
def fits (n : Nat) (c : Chan) (bus : Bool) (o : ChanOp) (s : State) : Bool :=
  decide (chanDraw c bus + opDraw o.kind ≤ fget (Fl.CHE_GOV_CFG_BUDGET n) s) &&
    (o.kind != .erase || decide (erasing c < fget (Fl.CHE_GOV_CFG_ERASE_MAX n) s))

/-- The suspend limits an operation starts with, none used (R160, R175). -/
def withLimits (n : Nat) (o : ChanOp) (s : State) : ChanOp :=
  match o.kind with
  | .erase => { o with suspends := 0, minRun := fget (Fl.CHE_SUSP_CFG_ERS_MIN_RUN n) s, maxSusp := fget (Fl.CHE_SUSP_CFG_ERS_MAX n) s }
  | .progQlc => { o with suspends := 0, minRun := 5, maxSusp := fget (Fl.CHE_SUSP_CFG_PRG_MAX n) s }
  | .read | .progSlc => o

/-- An operation issues to its die. -/
def issueOp (n : Nat) (o : ChanOp) (s : State) : State :=
  let c := chanAt n s
  let s1 := setChan n { c with queue := c.queue.erase o, dies := SMap.put c.dies o.die (withLimits n o s) } s
  if o.use = .unit ∧ (o.cls = 3 ∨ o.cls = 6) then windowAtDie o.handle s1 else s1

/-- The engine issues operations: powered, not permanently failed, not held, not switching its microcode, and no entry to idle waiting for die
operations to end (R162, R169, R174). -/
def chanIssues (n : Nat) (s : State) : Bool :=
  chanUp n s && !(chanAt n s).failed && s.pow.idleWait.isNone && fget (Fl.CHE_CTRL_HOLD n) s == 0 && fget (Fl.CHE_UCODE_STATE n) s != 2

/-- Brace starts no program and no erase but journal and landing programs already admitted (R47), and no scan read (R201). -/
def allowedInMode (o : ChanOp) (s : State) : Bool :=
  mode s != 8 || (o.kind == .read && o.use != .scan) || o.use == .landing || o.use == .journal

/-- The governor looks at the waiting operation of highest priority: it issues, or waits for budget (R159). -/
def execGovernorAdmit (chan : Nat) (bus foldLate : Bool) (s : State) : Out :=
  if chanIssues chan s then
    let c := chanAt chan s
    match (classOrder foldLate).findSome? (fun k => firstOf (fun o => allowedInMode o s && keyReady o s) c k) with
    | none => .next (fset (Fl.CHE_STATUS_GOV_WAIT chan) 0 s)
    | some o =>
      if fits chan c bus o s then .next (issueOp chan o (fset (Fl.CHE_STATUS_GOV_WAIT chan) 0 s))
      else .next (fset (Fl.CHE_STATUS_GOV_WAIT chan) 1 s)
  else .next s

/-- A class 6 pre-read issues when nothing of a higher class can (R157, R163). -/
def execPreReadIssue (chan : Nat) (bus : Bool) (s : State) : Out :=
  if chanIssues chan s then
    let c := chanAt chan s
    let first (k : Nat) : Option ChanOp := firstOf (fun o => allowedInMode o s && keyReady o s) c k
    match (classOrder false).findSome? first, first 6 with
    | none, some o => .next (if fits chan c bus o s then issueOp chan o (fset (Fl.CHE_STATUS_GOV_WAIT chan) 0 s)
        else fset (Fl.CHE_STATUS_GOV_WAIT chan) 1 s)
    | _, _ => .next s
  else .next s

/-! ### Suspend and resume (R160, R161) -/

/-- A queued read of a die that may suspend the operation on it: class 1 to 3 for an erase, class 1 for a QLC program. -/
def suspender (c : Chan) (o : ChanOp) : Bool :=
  c.queue.any (fun q => q.die == o.die && q.kind == .read &&
    (match o.kind with
      | .erase => decide (q.cls ≤ 3)
      | .progQlc => q.cls == 1
      | .read | .progSlc => false))

/-- A read waits for a die whose operation has run `run` × 100 µs since its start or last resume: it is suspended within
its limits, and SUSP_LIMIT sets at the last permitted suspend. -/
def execEraseSuspend (chan die run : Nat) (s : State) : Out :=
  let c := chanAt chan s
  match SMap.find c.dies die with
  | none => .next s
  | some o =>
    if chanUp chan s ∧ suspender c o ∧ o.minRun ≤ run ∧ o.suspends < o.maxSusp then
      let o' := { o with suspends := o.suspends + 1 }
      let s1 := setChan chan { c with dies := SMap.del c.dies die, susp := SMap.put c.susp die o', pSusp := Nat.min (c.pSusp + 1) 0xFFFFFFFF } s
      let s2 := cntAdd (Reg.CHE_CNT_SUSPEND chan) 32 1 s1
      if o'.suspends = o.maxSusp then .next (raiseEvent 0x06 chan (Fl.CHE_EVENT_SUSP_LIMIT chan) s2) else .next s2
    else .next s

/-- A suspended operation goes on where its die is free, and its draw fits the budget (R159); an erase does not during Commit (R47). -/
def resumeDie (chan die : Nat) (bus : Bool) (s : State) : State :=
  let c := chanAt chan s
  match SMap.find c.susp die with
  | none => s
  | some o =>
    if (SMap.find c.dies die).isSome ∨ (mode s = 8 ∧ o.kind = .erase) then s
    else if fits chan c bus o s then setChan chan { c with susp := SMap.del c.susp die, dies := SMap.put c.dies die o } s
    else fset (Fl.CHE_STATUS_GOV_WAIT chan) 1 s

/-- Row SUSPEND_RESUME: after the queued reads of the die; `limit` says that 500 µs have passed, `bus` that the bus transfers. -/
def execSuspendResume (chan die : Nat) (limit bus : Bool) (s : State) : Out :=
  if limit ∨ ¬ (chanAt chan s).queue.any (fun q => q.die == die && q.kind == .read && decide (q.cls ≤ 3)) then
    .next (resumeDie chan die bus s)
  else .next s

/-! ### Calibration, reset and retirement (R165–R172) -/

/-- A calibration that succeeds. -/
def calOk (n us : Nat) (s : State) : State :=
  s |> fset (Fl.CHE_CAL_OK n) 1 |> fset (Fl.CHE_CAL_BUSY n) 0 |> fset (Fl.CHE_CAL_FAIL_RUN n) 0
    |> fset (Fl.CHE_CAL_LAST_US n) (Nat.min us 255)

/-- A calibration that fails: counted since Rise and since manufacture. -/
def calFail (n us : Nat) (s : State) : State :=
  let c := chanAt n s
  let s1 := s |> fset (Fl.CHE_CAL_OK n) 0 |> fset (Fl.CHE_CAL_BUSY n) 0
    |> fset (Fl.CHE_CAL_FAIL_RUN n) (Nat.min (fget (Fl.CHE_CAL_FAIL_RUN n) s + 1) 2)
    |> fset (Fl.CHE_CAL_LAST_US n) (Nat.min us 255)
    |> fset (Fl.CHE_FAIL_HIST_CAL_FAIL n) (Nat.min (fget (Fl.CHE_FAIL_HIST_CAL_FAIL n) s + 1) 255)
    |> setChan n { c with calFailLife := Nat.min (c.calFailLife + 1) 255 }
  raiseEvent 0x06 n (Fl.CHE_EVENT_CAL_FAIL n) s1

/-- Open superblocks close (R170 step 3): each has a block on the retired channel. -/
def closeOpenSbs (s : State) : State :=
  reclaim { s with ftl := { s.ftl with
      openDyn := none, openStatic := none, openSd := none
      sbs := s.ftl.sbs.map (fun e => if e.2.use = .landing ∨ e.2.use = .preparing ∨ e.2.use = .fold ∨ e.2.use = .gcTarget
        then (e.1, { e.2 with use := .full }) else e) } }

/-- An operation of a retired channel goes elsewhere (R170): a read is rebuilt, or fails the rebuild that it contributes to; a program is
made again on another channel; an erase is dropped, and its block left as it is. -/
def moveAway (n : Nat) (o : ChanOp) (s : State) : State :=
  match o.kind with
  | .read =>
    if o.cls = 6 then preReadLost n o s else if o.use = .contrib then contribFails o s else startRebuild n o false false s
  | .progSlc | .progQlc => programAgain n o s
  | .erase => dropSb o.sb (setSb o.sb { sbAt o.sb s with blocks := SMap.del (sbAt o.sb s).blocks n } s)

/-- Every operation of a retired channel goes elsewhere. -/
def emptyRetired (n : Nat) (s : State) : State :=
  let c := chanAt n s
  forEach (moveAway n) (c.queue ++ c.dies.map (·.2) ++ c.susp.map (·.2) ++ c.backoff)
    (setChan n { c with queue := [], dies := [], susp := [], backoff := [] } s)

/-- Data that a second channel failure leaves unreadable: on either failed channel, in a superblock with a block on both (R171). -/
def loseSecond (first second : Nat) (s : State) : State :=
  let both (i : Nat) (t : State) : Bool := (SMap.find (sbAt i t).blocks first).isSome && (SMap.find (sbAt i t).blocks second).isSome
  forEach (fun e t => if both e.2.sb t && (e.2.chan == first || e.2.chan == second) then markUncorrectable e.1 t else t)
    s.ftl.map s

/-- A sanitize leaves the blocks of a channel that retires unerased, each with a postmark (R142). -/
def noteUnerased (n : Nat) (s : State) : State :=
  if mode s = 9 then
    forEach (fun e t => otherPostmark 0x05 n (e.1 % 65536) 0 142 t) (s.ftl.blks.filter (fun e => e.1 / 65536 == n && e.2.st != .retired)) s
  else s

/-- Channel `n` is retired: the first under R170, the second under steps 1 and 5 of it, with Read-Only, cause 3 (R171). -/
def retireChannel (n : Nat) (s : State) : State :=
  let c := chanAt n s
  if c.retired then s
  else
    let first := s.media.retireOrder.isEmpty
    let s1 := { s with media := { s.media with retireOrder := s.media.retireOrder ++ [n] } }
    let s2 := setChan n { c with retired := true, secondFail := !first } s1
    let s3 := emptyRetired n (if first then closeOpenSbs s2 else s2)
    let s4 := noteUnerased n (raiseEvent 0x06 n (Fl.CHE_EVENT_RETIRED n) s3)
    if first then checkWear s4
    else enterReadOnly 3 (loseSecond (s.media.retireOrder.headD 0) n s4)

/-- A channel is permanently failed (R169): it issues nothing more, and is to be retired. -/
def failChannel (n : Nat) (s : State) : State := setChan n { chanAt n s with failed := true } s

/-- A channel reset (R166): operations in progress are aborted, the PHY calibrated, and reads and programs issued again; an aborted program
leaves unstable pages, which the scan after the reset finds (R167), and an aborted erase its block erase-pending and queued again (R168). -/
def channelResetCal (n : Nat) (calGood : Bool) (us : Nat) (s : State) : State :=
  if chanUp n s then
    let c := chanAt n s
    let running := c.dies.map (·.2) ++ c.susp.map (·.2)
    let progs := running.filter (fun o => o.kind == .progSlc || o.kind == .progQlc)
    let s1 := setChan n { c with dies := [], susp := [], queue := running.filter (fun o => o.kind == .read || o.kind == .erase) ++ c.queue } s
    let s2 := forEach (fun o t => if o.kind = .erase then updBlkOf o.sb n (fun b => { b with pending := true }) t else t) running s1
    let s3 := forEach (fun o t => programAgain n o (interruptedProgram n o t)) progs s2
    let s4 := if progs.isEmpty then s3 else raiseEvent 0x06 n (Fl.CHE_EVENT_UNSTABLE n) s3
    let s5 := resetPostmark 6 n (fset Fl.AON_RST_CAUSE_CHANNEL 1 s4)
    if calGood then calOk n us s5
    else
      let s6 := calFail n us s5
      if fget (Fl.CHE_CAL_FAIL_RUN n) s6 ≥ 2 then failChannel n s6 else s6
  else s

/-- A channel reset is asked for: during Commit it waits (R73). -/
def requestChannelReset (chan : Nat) (calGood : Bool) (us : Nat) (s : State) : State :=
  if mode s = 8 ∧ chanUp chan s = true then waitCommit (.channel chan calGood us) s else channelResetCal chan calGood us s

/-- CTRL.RESET or a failed retry sequence (R166). -/
def execChannelReset (chan : Nat) (calGood : Bool) (us : Nat) (s : State) : Out := .next (requestChannelReset chan calGood us s)

/-- A calibration whose results nothing gives: free values (log entry 36). -/
def freeCal (s : State) : CalRun := ⟨freeNat 1 s == 1, freeNat 1 (useFree s) == 1, freeNat 8 (useFree (useFree s))⟩

/-- Passes to the free values after those of a calibration. -/
def useCal (s : State) : State := useFree (useFree (useFree s))

/-- A channel reset by a write of CTRL.RESET, or by lock loss of PLL_FLS (R71), whose calibration results are open. -/
def channelReset (n : Nat) (s : State) : State := requestChannelReset n (freeCal s).good (freeCal s).us (useCal s)

/-- PHY calibration outside a reset: a failure resets the channel, which calibrates again; two failures in succession are a permanent
failure (R164, R169). -/
def calibrate (n : Nat) (good : Bool) (us : Nat) (again : Bool) (s : State) : State :=
  if chanUp n s then
    if good then calOk n us s
    else
      let s1 := calFail n us s
      if fget (Fl.CHE_CAL_FAIL_RUN n) s1 ≥ 2 then failChannel n s1 else channelResetCal n again us s1
  else s

/-- Every channel calibrates at Rise (R172), channel `n` with result `n` of the list. -/
def calibrateAll (runs : List CalRun) (s : State) : State :=
  forN (fun n t => let r := runs.getD n ⟨true, true, 0⟩; calibrate n r.good r.us r.again t) 32 s

/-- CTRL.CALIBRATE (R172). `again` is the result of the calibration in the channel reset that a failure causes. -/
def execCalibrate (chan : Nat) (good again : Bool) (us : Nat) (s : State) : Out := .next (calibrate chan good us again s)

/-- The ten minutes or the 10 °C of R172 have passed, in Serve, Serve-Capped, Read-Only or Sanitize. -/
def execPeriodicCalibration (chan : Nat) (good again : Bool) (us : Nat) (s : State) : Out :=
  if serving s then .next (calibrate chan good us again s) else .next s

/-- CTRL.HOLD is written: nothing new issues, and HELD shows that nothing is in flight (R175). -/
def setHold (n v : Nat) (s : State) : State :=
  if chanUp n s then
    showChan n (fset (Fl.CHE_STATUS_STATE n) (if v = 1 then 3 else 1) (fset (Fl.CHE_CTRL_HOLD n) v s))
  else s

/-- Row CHANNEL_HOLD. -/
def execChannelHold (chan v : Nat) (s : State) : Out := .next (setHold chan (v % 2) s)

/-- CTRL.RETIRE is written: it acts only with key 0xC3, and is otherwise ignored with a postmark (R171, R175). -/
def requestRetire (n key req : Nat) (s : State) : State :=
  if ¬ chanUp n s then busError (Reg.CHE_CTRL n) req 4 s
  else if key % 256 = 0xC3 then retireChannel n s
  else writeIgnored (Reg.CHE_CTRL n) req (0x10 + 256 * (key % 256)) s

/-- Row CHANNEL_RETIRE: a permanently failed channel, or CTRL.RETIRE with its key. -/
def execChannelRetire (chan : Nat) (byFailure : Bool) (key req : Nat) (s : State) : Out :=
  if byFailure then .next (if chanUp chan s && (chanAt chan s).failed then retireChannel chan s else s)
  else .next (requestRetire chan key req s)

/-! ### Retry sequences and timeouts (R164, R165) -/

/-- Another retry sequence has failed within the last 10 s (R169), by the model's clock of microseconds. -/
def recentFail (c : Chan) (s : State) : Bool := c.lastFail.any (fun t => decide (s.tick - t ≤ 10000000))

/-- A retry sequence has failed for good: counted, the channel is reset, and the operation completed another way; a second failed sequence
within 10 s is a permanent failure (R165, R169). An operation queued again counts as another. -/
def retrySequenceFails (n : Nat) (o : ChanOp) (calGood : Bool) (s : State) : State :=
  let c := chanAt n s
  let s1 := s |> fset (Fl.CHE_FAIL_HIST_SEQ_FAIL n) (Nat.min (fget (Fl.CHE_FAIL_HIST_SEQ_FAIL n) s + 1) 255)
    |> setChan n { c with seqFailLife := Nat.min (c.seqFailLife + 1) 65535, lastFail := some s.tick }
    |> raiseEvent 0x06 n (Fl.CHE_EVENT_RETRY_FAIL n)
  let s2 := channelResetCal n calGood (freeNat 8 s1) (useFree s1)
  let s3 := match o.kind with
    | .read => if o.use = .contrib then contribFails o s2 else startRebuild n o false false s2
    | .progSlc | .progQlc => programAgain n o (raiseEvent 0x06 n (Fl.CHE_EVENT_UNSTABLE n) (interruptedProgram n o s2))
    | .erase => enqueue n o (updBlkOf o.sb n (fun b => { b with pending := true }) s2)
  if recentFail c s then failChannel n s3 else s3

/-- A back-off ends and the operation of die `die` is issued again (R165): the retry counts, and it goes back to the front of the queue, as
the governor admits it (R159), backs off again, or fails for the third time. -/
def execRetryBackoffExpiry (chan die : Nat) (ok calGood : Bool) (s : State) : Out :=
  let c := chanAt chan s
  match c.backoff.find? (fun o => o.die == die) with
  | none => .next s
  | some o =>
    let s1 := setChan chan { c with backoff := c.backoff.erase o, pRetry := Nat.min (c.pRetry + 1) 0xFFFFFFFF } s
    let s2 := raiseEvent 0x06 chan (Fl.CHE_EVENT_BUS_RETRY chan) (cntAdd (Reg.CHE_CNT_BUSRETRY chan) 32 1 s1)
    let c2 := chanAt chan s2
    if ok then .next (setChan chan { c2 with queue := { o with retries := 0 } :: c2.queue } s2)
    else if o.retries < 2 then .next (setChan chan { c2 with backoff := c2.backoff ++ [{ o with retries := o.retries + 1 }] } s2)
    else .next (retrySequenceFails chan { o with retries := 0 } calGood s2)

/-- An operation enters its first back-off (R165). -/
def backOff (chan : Nat) (o : ChanOp) (s : State) : State :=
  setChan chan { chanAt chan s with backoff := (chanAt chan s).backoff ++ [{ o with retries := 0 }] } s

/-- A die operation fails (R153, R164). At three times its maximum time the die is reset: a read starts a retry sequence, a program counts as a
program failure and leaves unstable pages, an erase as an erase failure. A bus error starts a retry sequence. A die that answers no reset is as
a failed retry sequence. A pre-read is discarded without a trace (R163). -/
def execDieTimeout (chan die : Nat) (fault : DieFault) (s : State) : Out :=
  let c := chanAt chan s
  match SMap.find c.dies die with
  | none => .next s
  | some o =>
    let s1 := setChan chan { c with dies := SMap.del c.dies die } s
    if o.cls = 6 then .next (preReadLost chan o s1)
    else match fault with
    | .bus => .next (backOff chan o s1)
    | .dead =>
      let s2 := setChan chan { chanAt chan s1 with dead := if c.dead.contains die then c.dead else c.dead ++ [die] } s1
      .next (retrySequenceFails chan o (freeNat 1 s2 == 1) (useFree s2))
    | .timeout =>
      match o.kind with
      | .read => .next (backOff chan o s1)
      | .progSlc | .progQlc =>
        .next (programAgain chan o (programFailed o.sb chan (raiseEvent 0x06 chan (Fl.CHE_EVENT_UNSTABLE chan) s1)))
      | .erase => .next (eraseFailed o.sb chan s1)

/-- An erase ends, with the blank check of a block that was erase-pending (R137, R168): counted; its success is to be recorded in the journal
before the block is free, and a failure retires the block. -/
def execEraseDone (chan die : Nat) (ok : Bool) (s : State) : Out :=
  let c := chanAt chan s
  match SMap.find c.dies die with
  | none => .next s
  | some o =>
    if o.kind ≠ .erase then .next s
    else
      let s1 := cntAdd (Reg.CHE_CNT_ERASE chan) 32 1 (setChan chan { c with dies := SMap.del c.dies die } s)
      .next (if ok then eraseSucceeded o.sb chan s1 else eraseFailed o.sb chan s1)

/-! ### Patrol and microcode (R173, R174) -/

/-- A block's patrol read is queued in class 4; its end queues the block for refresh where needed (R173). -/
def execPatrolRead (chan die sb : Nat) (s : State) : Out :=
  match SMap.find (sbAt sb s).blocks chan with
  | none => .next s
  | some b => if chanUp chan s ∧ die = blkDie b then .next (pushOp chan (mkOp .read .patrol 4 die sb 0 0) s) else .next s

/-- The new image runs on channel `n`, or fails its self-test and the previous one returns (R174). -/
def switchUcode (n version : Nat) (ok : Bool) (s : State) : State :=
  let c := chanAt n s
  let old := fget (Fl.CHE_UCODE_VERSION n) s
  if ok then
    setChan n { c with prevUcode := old } (s |> fset (Fl.CHE_UCODE_VERSION n) version |> fset (Fl.CHE_UCODE_STATE n) 0)
  else otherPostmark 0x06 n (Reg.CHE_UCODE n) version 174 (fset (Fl.CHE_UCODE_STATE n) 3 s)

/-- A channel begins to switch images (R174): HOLD sets, suspended operations go on, and its queued class 1 and 3 reads, with those to come, are
served by rebuild. -/
def beginSwitch (n : Nat) (s : State) : State :=
  let c := chanAt n s
  let diverted (o : ChanOp) : Bool := o.kind == .read && (o.cls == 1 || o.cls == 3) && o.use != .contrib
  let s1 := setHold n 1 (setChan n { c with queue := c.queue.filter (fun o => !diverted o) } s)
  let s2 := forEach (fun o t => startRebuild n o false false t) (c.queue.filter diverted)
    (s1 |> fset (Fl.CHE_UCODE_STATE n) 2 |> fset (Fl.CHE_STATUS_REBUILD_ONLY n) 1)
  forEach (fun d t => resumeDie n d.1 false t) c.susp s2

/-- The switch of a channel is over: HOLD clears, and its reads are its own again. -/
def leaveSwitch (n : Nat) (s : State) : State := setHold n 0 (fset (Fl.CHE_STATUS_REBUILD_ONLY n) 0 s)

/-- The steps of a microcode switch, one each time the row is given: the new image is loaded while the channel serves; the switch begins; and,
with no operation in flight and none suspended, the images change (R174). -/
def microcodeSwitch (chan version : Nat) (ok : Bool) (s : State) : State :=
  let c := chanAt chan s
  if !chanUp chan s then unitActivated 4 chan true s
  else if fget (Fl.CHE_UCODE_STATE chan) s = 1 then beginSwitch chan s
  else if fget (Fl.CHE_UCODE_STATE chan) s ≠ 2 then fset (Fl.CHE_UCODE_STATE chan) 1 s
  else if c.dies.isEmpty ∧ c.susp.isEmpty then unitActivated 4 chan ok (switchUcode chan version ok (leaveSwitch chan s))
  else forEach (fun d t => resumeDie chan d.1 false t) c.susp s

/-- A microcode switch that Commit preempts leaves its channel as it was (R488). -/
def dropSwitch (s : State) : State :=
  forN (fun n t =>
    if fget (Fl.CHE_UCODE_STATE n) t = 2 then leaveSwitch n (fset (Fl.CHE_UCODE_STATE n) 0 t)
    else if fget (Fl.CHE_UCODE_STATE n) t = 1 then fset (Fl.CHE_UCODE_STATE n) 0 t
    else t) 32 s

end Sys2Proof.Machine
end

