-- ==== Sys2Proof/Machine/TenBase.lean ====
section
/-! DEFINITION. Functions, letterbox rings and notices, cluster masks and the fit of granules at Rise (R443–R458). -/

namespace Sys2Proof.Machine

/-! ### Functions (R443, R446) -/

/-- Function `f` is enabled: a physical function, or a virtual one that VF Enable of its port covers. -/
def funcEnabled (f : Nat) (s : State) : Bool :=
  isPhysical f s || (if s.nv.dual && decide (64 ≤ f) then decide (f < 128) && decide (f - 64 ≤ s.nv.numVfB)
    else decide (f < (if s.nv.dual then 64 else 128)) && decide (f ≤ s.nv.numVfA))

/-- Controllers that act for function `f`. -/
def ctrlsOf (f : Nat) (s : State) : List Nat := (s.nv.ctrls.filter (fun e => e.2.func == f)).map (·.1)

/-- The PCIe controller of function `f` is online; one not seen yet is. -/
def funcOnline (f : Nat) (s : State) : Bool :=
  funcEnabled f s && (s.nv.ctrls.filter (fun e => e.2.func == f && !e.2.fabric)).all (fun e => e.2.online)

/-! ### Letterbox rings (R447, R450) -/

/-- LBX[f].STATUS follows the state. -/
def showLbx (f : Nat) (s : State) : State :=
  s |> fset (Fl.LBX_STATUS_MANAGER f) (if s.ten.manager = f then 1 else 0)
    |> fset (Fl.LBX_STATUS_ONLINE f) (if funcOnline f s then 1 else 0)
    |> fset (Fl.LBX_STATUS_HELD f) (if (SMap.getD s.ten.hold f []).isEmpty then 0 else 1)
    |> fset (Fl.LBX_STATUS_PAUSED f) (if s.ten.paused then 1 else 0)

/-- Free slots of a function's M2H ring. -/
def m2hFree (f : Nat) (s : State) : Nat :=
  8 - (fget (Fl.LBX_M2H_TAIL_INDEX f) s + 256 - fget (Fl.LBX_M2H_HEAD_INDEX f) s) % 256

/-- The 256 bytes of a message (R451). -/
def msgBytes (m : Msg) : List Byte :=
  leBytes 1 m.typ ++ leBytes 1 m.op ++ leBytes 2 m.tag ++ leBytes 2 m.func ++ leBytes 1 m.status ++ leBytes 1 m.lost ++ leBytes 8 0
    ++ (m.payload ++ List.replicate 240 0).take 240

/-- Bytes are put into the words of a slot that starts at a register address. -/
def putSlot (a : Nat) (bs : List Byte) (s : State) : State :=
  forN (fun j => wr (a + 4 * j) (BitVec.ofNat 64 (fieldAt bs (4 * j) 4))) 64 s

/-- A message is written to the next M2H slot and M2H_TAIL advances, with its interrupt. -/
def postMsg (f : Nat) (m : Msg) (s : State) : State :=
  let t := fget (Fl.LBX_M2H_TAIL_INDEX f) s
  let s1 := fset (Fl.LBX_M2H_TAIL_INDEX f) (t + 1) (putSlot (Reg.LBX_M2H_SLOT f (t % 8) 0) (msgBytes m) s)
  if fget (Fl.LBX_VECTOR_EN f) s = 1 then
    (if irqOpen f (fget (Fl.LBX_VECTOR_NUM f) s) s then { s1 with ten := { s1.ten with m2hIrqs := s1.ten.m2hIrqs ++ [(f, fget (Fl.LBX_VECTOR_NUM f) s)] } }
    else irqPend f (fget (Fl.LBX_VECTOR_NUM f) s) s1)
  else s1

/-- A notice or relay carries the count of notices dropped before it. -/
def withLost (f : Nat) (m : Msg) (s : State) : Msg := if m.typ = 3 then { m with lost := Nat.min (SMap.getD s.ten.lost f 0) 255 } else m

/-- Posts a notice or relay at once. -/
def postNow (f : Nat) (m : Msg) (s : State) : State :=
  let s1 := postMsg f (withLost f m s) s
  if m.typ = 3 then { s1 with ten := { s1.ten with lost := SMap.del s1.ten.lost f } } else s1

/-- Held messages are posted while the ring keeps more than `keep` slots free. -/
def postHeldMsgs (f keep : Nat) : Nat → State → State
  | 0, s => s
  | n + 1, s =>
    match SMap.getD s.ten.hold f [] with
    | [] => s
    | m :: t => if keep < m2hFree f s then
        postHeldMsgs f keep n (postNow f m { s with ten := { s.ten with hold := SMap.put s.ten.hold f t } })
      else s

/-- A notice or relay goes to a ring that keeps more than `keep` slots free, or to the hold queue; a full queue drops its oldest
notice (R450). -/
def sendMsg (f keep : Nat) (m : Msg) (s : State) : State :=
  let q := SMap.getD s.ten.hold f []
  let s1 :=
    if q.isEmpty && decide (keep < m2hFree f s) then postNow f m s
    else if q.length < 32 then { s with ten := { s.ten with hold := SMap.put s.ten.hold f (q ++ [m]) } }
    else
      let dropped := { s with ten := { s.ten with lost := SMap.put s.ten.lost f (SMap.getD s.ten.lost f 0 + 1) } }
      if q.any (fun x => x.typ == 3) then
        { dropped with ten := { dropped.ten with hold := SMap.put dropped.ten.hold f (q.eraseP (fun x => x.typ == 3) ++ [m]) } }
      else dropped
  showLbx f s1

/-- A notice of management firmware. -/
def notice (op func : Nat) (payload : List Byte) : Msg := ⟨3, op, 0, func, 0, 0, payload⟩

/-- A CHANGED notice (R451): resource, old and new value, cause. -/
def changedMsg (f res old new cause : Nat) : Msg :=
  notice 0x10 f (leBytes 4 res ++ leBytes 4 old ++ leBytes 4 new ++ leBytes 1 cause)

/-- Posts CHANGED to `f` where the value differs and the function is enabled. -/
def sendChanged (f keep res old new cause : Nat) (s : State) : State :=
  if old = new ∨ funcEnabled f s = false then s else sendMsg f keep (changedMsg f res old new cause) s

/-- The letterbox page of `f` is reset: unconsumed requests and undelivered messages are discarded (R458). -/
def lbxReset (f : Nat) (s : State) : State :=
  let base := Reg.LBX_H2M_TAIL f
  showLbx f { s with
    regs := s.regs.filter (fun e => !(decide (base ≤ e.1) && decide (e.1 < base + 0x1000)))
    ten := { s.ten with
      hold := SMap.del s.ten.hold f, lost := SMap.del s.ten.lost f, doorbells := s.ten.doorbells.filter (· != f) } }

/-! ### Cluster masks (R453, R456, R457) -/

/-- The value of resource 9: mask and EXCLUSIVE. -/
def maskValue (r : Res) : Nat := r.mask + (if r.excl then 256 else 0)

/-- Functions enabled or with assignments of their own. -/
def knownFuncs (s : State) : List Nat := (List.range 128).filter (fun f => funcEnabled f s || (SMap.find s.ten.res f).isSome)

/-- Clusters of mask `m`. -/
def maskHas (m n : Nat) : Bool := m / 2 ^ n % 2 == 1

/-- A cluster of `m` lies in the mask of another function that is exclusive. -/
def clashesExclusive (f m : Nat) (s : State) : Bool :=
  (knownFuncs s).any (fun g => g != f && (resOf g s).excl && ((resOf g s).mask &&& m) != 0)

/-- A cluster of `m` lies in any other function's mask. -/
def clashesAny (f m : Nat) (s : State) : Bool := (knownFuncs s).any (fun g => g != f && ((resOf g s).mask &&& m) != 0)

/-- Function `f` gets a mask: its routes and its letters take it at once (R457). -/
def setMask (f m : Nat) (excl : Bool) (s : State) : State :=
  let s1 := { s with ten := { s.ten with res := SMap.put s.ten.res f { resOf f s with mask := m, excl := excl } } }
  settleSch (updSch (fun z => { z with
    routes := z.routes.map (fun r => if r.2.owner = f ∧ r.2.owner < 128 then (r.1, { r.2 with clusters := m }) else r)
    letters := z.letters.map (fun l => if l.owner = f ∧ l.owner < 128 then { l with clusters := m } else l) }) s1)

/-- Clusters in service that are not exclusive to a function other than `f`. -/
def openClusters (f : Nat) (s : State) : Nat :=
  (((List.range 8).filter (fun n => clusterServes n s && !clashesExclusive f (2 ^ n) s)).map (2 ^ ·)).sum

/-- A cluster that retires leaves every mask; an emptied mask becomes every cluster open to its function (R456). -/
def maskRetire (n : Nat) (s : State) : State :=
  forEach (fun f t =>
      let r := resOf f t
      if maskHas r.mask n then
        let m := r.mask - 2 ^ n
        let m' := if m = 0 then openClusters f t else m
        sendChanged f 0 9 (maskValue r) (m' + (if r.excl then 256 else 0)) 1 (setMask f m' r.excl t)
      else t) (knownFuncs s) s

/-! ### Granules (R31, R32, R455, R456) -/

/-- Granules of the pool beside the pre-read staging. -/
def poolSize (s : State) : Nat := if threeCh s then 151 else 223

/-- The granule of the pre-read staging: the last of the SLM region at Rise. -/
def stagingGranule (s : State) : Nat := if threeCh s then 127 else 191

/-- Most granules that may be SLM, and private memory (R455). -/
def slmLimit (s : State) : Nat := if threeCh s then 143 else 215
def privLimit (s : State) : Nat := if threeCh s then 120 else 192

/-- Granules of a function. -/
def slmOf (f : Nat) (s : State) : List Nat := SMap.getD s.ten.slm f []
def privOf (f : Nat) (s : State) : List Nat := SMap.getD s.ten.priv f []

/-- Granules assigned in all. -/
def slmTotal (s : State) : Nat := s.ten.slm.foldl (fun n e => n + e.2.length) 0
def privTotal (s : State) : Nat := s.ten.priv.foldl (fun n e => n + e.2.length) 0

/-- Free granules, lowest first. -/
def freeGranules (s : State) : List Nat :=
  let used := s.ten.slm.flatMap (·.2) ++ s.ten.priv.flatMap (·.2)
  (List.range (poolSize s + 1)).filter (fun g => g != stagingGranule s && !used.contains g)

/-- The saved partitions fit the module. -/
def granulesFit (s : State) : Bool :=
  decide (slmTotal s + privTotal s ≤ poolSize s) && decide (slmTotal s ≤ slmLimit s) && decide (privTotal s ≤ privLimit s)

/-- Takes granules of a function away one by one until the partitions fit or it has none left: `m` steps at most. -/
def lowerPart (priv : Bool) (f : Nat) : Nat → State → State
  | 0, s => s
  | m + 1, s =>
    let l := if priv then privOf f s else slmOf f s
    if granulesFit s || l.isEmpty then s
    else
      let l' := l.dropLast
      lowerPart priv f m { s with ten := if priv then { s.ten with priv := SMap.put s.ten.priv f l' } else { s.ten with slm := SMap.put s.ten.slm f l' } }

/-- Numbers the granules of a partition anew, from those of `pool`, in ascending order of function. -/
def renumber : List (Nat × List Nat) → List Nat → List (Nat × List Nat) × List Nat
  | [], pool => ([], pool)
  | (f, l) :: t, pool =>
    let r := renumber t (pool.drop l.length)
    ((f, pool.take l.length) :: r.1, r.2)

/-- Assignments are applied at Rise (R456): partitions that exceed the module are reduced in descending index, private granules
first, and every granule gets its place in the regions of R31. Memory namespaces keep what remains. -/
def fitGranules (s : State) : State :=
  let old := s
  let s1 := forEach (fun f t => lowerPart false f 224 (lowerPart true f 224 t)) (List.range 128).reverse s
  let pool := (List.range (poolSize s + 1)).filter (· != stagingGranule s)
  let a := renumber s1.ten.slm pool
  let b := renumber s1.ten.priv a.2
  let s2 := { s1 with ten := { s1.ten with
    slm := a.1, priv := b.1
    memNs := s1.ten.memNs.map (fun e => (e.1, Nat.min e.2 (SMap.getD a.1 e.1 []).length)) } }
  forEach (fun f t => t |> sendChanged f 0 4 (privOf f old).length (privOf f t).length 2
    |> sendChanged f 0 3 (slmOf f old).length (slmOf f t).length 2) (List.range 128).reverse s2

end Sys2Proof.Machine
end

