-- ==== Sys2Proof/Machine/Float.lean ====
section
/-! DEFINITION. IEEE binary32 and binary64 arithmetic, round to nearest even, on exact integers (R187, R343). -/

namespace Sys2Proof.Machine

/-- A binary format: exponent bits and fraction bits. -/
structure FpFmt where
  eb : Nat
  mb : Nat
  deriving DecidableEq, Repr

/-- binary32. -/
def f32 : FpFmt := ⟨8, 23⟩
/-- binary64. -/
def f64 : FpFmt := ⟨11, 52⟩

/-- A decoded value: NaN (signalling or not), infinity, or ± m × 2 ^ e. -/
inductive Fp where
  | nan (signalling : Bool)
  | inf (neg : Bool)
  | fin (neg : Bool) (m : Nat) (e : Int)
  deriving DecidableEq, Repr

/-- The exceptions an operation raises: invalid, division by zero, overflow, underflow, inexact. -/
structure FpFlags where
  nv : Bool
  dz : Bool
  ov : Bool
  un : Bool
  nx : Bool
  deriving DecidableEq, Repr

/-- No exception. -/
def FpFlags.none : FpFlags := ⟨false, false, false, false, false⟩
/-- Invalid operation only. -/
def FpFlags.invalid : FpFlags := ⟨true, false, false, false, false⟩
/-- Either of two sets of exceptions. -/
def FpFlags.or (a b : FpFlags) : FpFlags := ⟨a.nv || b.nv, a.dz || b.dz, a.ov || b.ov, a.un || b.un, a.nx || b.nx⟩

/-- Exponent bias. -/
def FpFmt.bias (f : FpFmt) : Int := 2 ^ (f.eb - 1) - 1
/-- Weight of the last place of a subnormal number. -/
def FpFmt.emin (f : FpFmt) : Int := 1 - f.bias - f.mb
/-- Bits of the format. -/
def FpFmt.width (f : FpFmt) : Nat := 1 + f.eb + f.mb

/-- Decodes a pattern. -/
def fpDecode (f : FpFmt) (x : Nat) : Fp :=
  let m := x % 2 ^ f.mb
  let e := x / 2 ^ f.mb % 2 ^ f.eb
  let neg := x / 2 ^ (f.mb + f.eb) % 2 == 1
  if e = 2 ^ f.eb - 1 then
    if m = 0 then .inf neg else .nan (m / 2 ^ (f.mb - 1) == 0)
  else if e = 0 then .fin neg m f.emin
  else .fin neg (m + 2 ^ f.mb) (f.emin + e - 1)

/-- The sign bit in place. -/
def fpSign (f : FpFmt) (neg : Bool) : Nat := if neg then 2 ^ (f.eb + f.mb) else 0
/-- The canonical quiet NaN. -/
def fpNaN (f : FpFmt) : Nat := (2 ^ f.eb - 1) * 2 ^ f.mb + 2 ^ (f.mb - 1)
/-- An infinity. -/
def fpInf (f : FpFmt) (neg : Bool) : Nat := fpSign f neg + (2 ^ f.eb - 1) * 2 ^ f.mb

/-- Bits of a natural number. -/
def bitLen (m : Nat) : Nat := if m = 0 then 0 else Nat.log2 m + 1

/-- ± m × 2 ^ e rounded to nearest even. `sticky` says that the exact value is a little larger in magnitude. -/
def fpRound (f : FpFmt) (neg : Bool) (m : Nat) (e : Int) (sticky : Bool) : Nat × FpFlags :=
  if m = 0 ∧ ¬ sticky then (fpSign f neg, .none)
  else
    let p := f.mb + 1
    let q : Int := max (e + bitLen m - p) f.emin
    let sh := q - e
    let (m', inexact) : Nat × Bool :=
      if sh ≤ 0 then (m * 2 ^ (-sh).toNat, sticky)
      else
        let n := sh.toNat
        let hi := m / 2 ^ n
        let lo := m % 2 ^ n
        let half := 2 ^ (n - 1)
        let up := half < lo ∨ (lo = half ∧ (sticky ∨ hi % 2 = 1))
        (if up then hi + 1 else hi, lo != 0 || sticky)
    let (m2, q2) : Nat × Int := if m' = 2 ^ p then (2 ^ f.mb, q + 1) else (m', q)
    if m2 < 2 ^ f.mb then (fpSign f neg + m2, ⟨false, false, false, inexact, inexact⟩)
    else
      let be := q2 - f.emin + 1
      if be ≥ 2 ^ f.eb - 1 then (fpInf f neg, ⟨false, false, true, false, true⟩)
      else (fpSign f neg + be.toNat * 2 ^ f.mb + (m2 - 2 ^ f.mb), ⟨false, false, false, false, inexact⟩)

/-- A NaN result for operands one of which is NaN. -/
def fpNanOf (f : FpFmt) (xs : List Fp) : Nat × FpFlags :=
  (fpNaN f, if xs.any (fun x => x == .nan true) then .invalid else .none)

/-- Sum of two finite numbers, exactly: sign, magnitude, exponent. An exact zero of unlike signs is +0. -/
def fpSum (n1 : Bool) (m1 : Nat) (e1 : Int) (n2 : Bool) (m2 : Nat) (e2 : Int) : Bool × Nat × Int :=
  let e := min e1 e2
  let a : Int := (m1 * 2 ^ (e1 - e).toNat : Nat)
  let b : Int := (m2 * 2 ^ (e2 - e).toNat : Nat)
  let v := (if n1 then -a else a) + (if n2 then -b else b)
  if v = 0 then (n1 && n2, 0, e) else (decide (v < 0), v.natAbs, e)

/-- Addition. -/
def fpAdd (f : FpFmt) (x y : Nat) : Nat × FpFlags :=
  let a := fpDecode f x
  let b := fpDecode f y
  match a, b with
  | .nan _, _ => fpNanOf f [a, b]
  | _, .nan _ => fpNanOf f [a, b]
  | .inf s, .inf t => if s = t then (fpInf f s, .none) else (fpNaN f, .invalid)
  | .inf s, .fin _ _ _ => (fpInf f s, .none)
  | .fin _ _ _, .inf t => (fpInf f t, .none)
  | .fin s m e, .fin t n g =>
    let r := fpSum s m e t n g
    fpRound f r.1 r.2.1 r.2.2 false

/-- A pattern with its sign inverted. -/
def fpNeg (f : FpFmt) (x : Nat) : Nat := x % 2 ^ (f.eb + f.mb) + (if x / 2 ^ (f.eb + f.mb) % 2 = 1 then 0 else 2 ^ (f.eb + f.mb))

/-- Subtraction. -/
def fpSub (f : FpFmt) (x y : Nat) : Nat × FpFlags :=
  match fpDecode f y with
  | .nan _ => fpAdd f x y
  | .inf _ | .fin _ _ _ => fpAdd f x (fpNeg f y)

/-- Multiplication. -/
def fpMul (f : FpFmt) (x y : Nat) : Nat × FpFlags :=
  let a := fpDecode f x
  let b := fpDecode f y
  match a, b with
  | .nan _, _ => fpNanOf f [a, b]
  | _, .nan _ => fpNanOf f [a, b]
  | .inf s, .inf t => (fpInf f (s != t), .none)
  | .inf s, .fin t n _ => if n = 0 then (fpNaN f, .invalid) else (fpInf f (s != t), .none)
  | .fin s m _, .inf t => if m = 0 then (fpNaN f, .invalid) else (fpInf f (s != t), .none)
  | .fin s m e, .fin t n g => fpRound f (s != t) (m * n) (e + g) false

/-- x × y + z with one rounding. -/
def fpFma (f : FpFmt) (x y z : Nat) : Nat × FpFlags :=
  let a := fpDecode f x
  let b := fpDecode f y
  let c := fpDecode f z
  match a, b, c with
  | .nan _, _, _ => fpNanOf f [a, b, c]
  | _, .nan _, _ => fpNanOf f [a, b, c]
  | .inf s, .inf t, _ => addInf (s != t) c
  | .inf s, .fin t n _, _ => if n = 0 then (fpNaN f, .invalid) else addInf (s != t) c
  | .fin s m _, .inf t, _ => if m = 0 then (fpNaN f, .invalid) else addInf (s != t) c
  | .fin s m e, .fin t n g, c =>
    match c with
    | .nan _ => fpNanOf f [c]
    | .inf u => (fpInf f u, .none)
    | .fin u k h =>
      let r := fpSum (s != t) (m * n) (e + g) u k h
      fpRound f r.1 r.2.1 r.2.2 false
where
  addInf (s : Bool) (c : Fp) : Nat × FpFlags :=
    match c with
    | .nan _ => fpNanOf f [c]
    | .inf u => if u = s then (fpInf f s, .none) else (fpNaN f, .invalid)
    | .fin _ _ _ => (fpInf f s, .none)

/-- Compares two numbers that are not NaN: less, equal, greater. -/
def fpOrder (a b : Fp) : Ordering :=
  match a, b with
  | .inf s, .inf t => if s = t then .eq else if s then .lt else .gt
  | .inf s, _ => if s then .lt else .gt
  | _, .inf t => if t then .gt else .lt
  | .fin s m e, .fin t n g =>
    let x := fpSum s m e (!t) n g
    if x.2.1 = 0 then .eq else if x.1 then .lt else .gt
  | .nan _, _ => .eq
  | _, .nan _ => .eq

/-- The order of two patterns; none when one is NaN. -/
def fpCmp (f : FpFmt) (x y : Nat) : Option Ordering :=
  match fpDecode f x, fpDecode f y with
  | .nan _, _ => none
  | _, .nan _ => none
  | a, b => some (fpOrder a b)

/-- Minimum (`hi` false) or maximum; a NaN operand yields the other operand, and -0 counts as below +0. -/
def fpMinMax (f : FpFmt) (hi : Bool) (x y : Nat) : Nat × FpFlags :=
  let a := fpDecode f x
  let b := fpDecode f y
  let fl := if a = .nan true ∨ b = .nan true then FpFlags.invalid else .none
  match a, b with
  | .nan _, .nan _ => (fpNaN f, fl)
  | .nan _, _ => (y, fl)
  | _, .nan _ => (x, fl)
  | _, _ =>
    let less := match fpOrder a b with
      | .lt => true
      | .gt => false
      | .eq => decide (y < x)
    (if less != hi then x else y, fl)

/-- A signed integer as a floating-point number. -/
def fpOfInt (f : FpFmt) (v : Int) : Nat × FpFlags := fpRound f (decide (v < 0)) v.natAbs 0 false

/-- Truncated to a signed integer of `w` bits and saturated; NaN gives 0. -/
def fpToInt (f : FpFmt) (w : Nat) (x : Nat) : Int × FpFlags :=
  let lo : Int := -(2 ^ (w - 1))
  let hi : Int := 2 ^ (w - 1) - 1
  match fpDecode f x with
  | .nan _ => (0, .invalid)
  | .inf s => (if s then lo else hi, .invalid)
  | .fin s m e =>
    let t : Nat := if 0 ≤ e then m * 2 ^ e.toNat else m / 2 ^ (-e).toNat
    let exact := decide (0 ≤ e) || m % 2 ^ (-e).toNat == 0
    let v : Int := if s then -(t : Int) else t
    if v < lo then (lo, .invalid) else if hi < v then (hi, .invalid)
    else (v, ⟨false, false, false, false, !exact⟩)

/-- binary32 widened to binary64. -/
def fpWiden (x : Nat) : Nat :=
  match fpDecode f32 x with
  | .nan _ => fpNaN f64
  | .inf s => fpInf f64 s
  | .fin s m e => (fpRound f64 s m e false).1

end Sys2Proof.Machine
end

