-- ==== Sys2Proof/Machine/MatchOps.lean ====
section
/-! DEFINITION. The match arrays: tables, searches, updates, scrubbing and repair; rows MATCH_SEARCH to COLUMN_REPAIR
(R205–R233). -/

namespace Sys2Proof.Machine

/-! ### The table map (R208, R209) -/

/-- A decoded map entry. -/
structure Tbl where
  valid : Bool
  shared : Bool
  /-- width in units -/
  w : Nat
  first : Nat
  len : Nat
  reps : Nat
  owner : Nat
  glo : Nat
  ghi : Nat
  disable : Nat
  deriving DecidableEq, Repr

/-- Units of a WIDTH encoding. -/
def widthUnits (c : Nat) : Nat := if c = 0 then 1 else if c = 1 then 2 else 4

/-- Decodes a TBL_MAP value. -/
def tblOf (v : Word) : Tbl where
  valid := extractField v 0 1 == 1
  shared := extractField v 1 1 == 1
  w := widthUnits (extractField v 2 2)
  first := extractField v 4 4
  len := extractField v 8 5
  reps := extractField v 13 5
  owner := extractField v 18 8
  glo := extractField v 32 7
  ghi := extractField v 40 7
  disable := extractField v 48 16

/-- Table `t`. -/
def tblAt (t : Nat) (s : State) : Tbl := tblOf (rd (Reg.MAT_TBL_MAP 0 t) s)

/-- Entries of a table per bank. -/
def Tbl.perBank (b : Tbl) : Nat := (b.ghi - b.glo + 1) * 64 / b.w
/-- Entries of a table. -/
def Tbl.entries (b : Tbl) : Nat := b.len * b.perBank
/-- Banks of replica `r`. -/
def Tbl.banks (b : Tbl) (r : Nat) : List Nat := (List.range b.len).map (fun i => b.first + r * b.len + i)
/-- Banks of every replica. -/
def Tbl.allBanks (b : Tbl) : List Nat := (List.range (b.reps * b.len)).map (· + b.first)
/-- Bank and head row of entry `i` in replica `r` (R209). -/
def Tbl.place (b : Tbl) (r i : Nat) : Nat × Nat := (b.first + r * b.len + i / b.perBank, b.glo * 64 + i % b.perBank * b.w)

/-- The owner number of module firmware. -/
def firmwareOwner : Nat := 0x80

/-- The requester `f` (a function, or firmware) may use table `t` (R211). -/
def tblVisible (f t : Nat) (s : State) : Bool := (tblAt t s).valid && ((tblAt t s).shared || (tblAt t s).owner == f || f == firmwareOwner)

/-- Tables that exist. -/
def validTables (s : State) : List Nat := (List.range 256).filter (fun t => (tblAt t s).valid)

/-- Group `g` of bank `b` belongs to a table, or is still being cleared. -/
def groupTaken (b g : Nat) (s : State) : Bool :=
  s.mat.clearing.contains (128 * b + g) ||
    (validTables s).any (fun t => (tblAt t s).allBanks.contains b && decide ((tblAt t s).glo ≤ g) && decide (g ≤ (tblAt t s).ghi))

/-- A bank has rows of some table. -/
def bankInUse (b : Nat) (s : State) : Bool := (validTables s).any (fun t => (tblAt t s).allBanks.contains b)

/-- A bank is retired (R229). -/
def bankRetired (b : Nat) (s : State) : Bool := s.mat.retired.contains b

/-! ### Rows and tags -/

/-- A row of a bank. -/
def camRow (b r : Nat) (s : State) : CamRow := SMap.getD s.mat.rows (8192 * b + r) CamRow.empty

/-- Replaces a row; an empty row is not listed. -/
def setCamRow (b r : Nat) (v : CamRow) (s : State) : State :=
  { s with mat := { s.mat with rows := SMap.putD CamRow.empty s.mat.rows (8192 * b + r) v } }

/-- Valid entries of a bank, as its STATUS shows them. -/
def showBank (b : Nat) (s : State) : State :=
  let n := (s.mat.rows.filter (fun e => e.1 / 8192 == b && e.2.valid)).length
  s |> fset (Fl.MAT_STATUS_VALID_ENTRIES b) n
    |> fset (Fl.MAT_STATUS_CLEARING b) (if s.mat.clearing.any (fun g => g / 128 == b) then 1 else 0)

/-- Word `j` of an entry of head row `h` (R206): value and care. -/
def entryWord (b h j : Nat) (s : State) : Word × Word :=
  let r := camRow b (h + j / 2) s
  (r.value.extractLsb' (64 * (j % 2)) 64, r.care.extractLsb' (64 * (j % 2)) 64)

/-- The pre-filter byte of a valid entry: value and care. -/
def pfByteOf (b h : Nat) (s : State) : Nat × Nat :=
  let k := 8 * fget (Fl.MAT_CFG_PF_BYTE b) s
  let e := entryWord b h 0 s
  (extractField e.1 k 8, extractField e.2 k 8)

/-- Head rows of the valid entries of a group. -/
def groupHeads (b g : Nat) (s : State) : List Nat :=
  (s.mat.rows.filter (fun e => e.1 / 8192 == b && e.1 % 8192 / 64 == g && e.2.valid)).map (fun e => e.1 % 8192)

/-- A tag narrowed to admit one more byte: care bits stay where both care and agree (R216). -/
def narrowTag (t x : Nat × Nat) : Nat × Nat :=
  let care := Nat.land (Nat.land t.2 x.2) (255 - Nat.xor t.1 x.1)
  (Nat.land t.1 care, care)

/-- The tag of a group from its valid entries, as the scrubber recomputes it (R216, R225). -/
def freshTagOf (b g : Nat) (s : State) : Nat × Nat :=
  match (groupHeads b g s).map (fun h => pfByteOf b h s) with
  | [] => (0, 0)
  | x :: t => t.foldl narrowTag (Nat.land x.1 x.2, x.2)

/-- A validate narrows the tag of its group at once. A group that has held no valid entry since its last scrub pass has no tag, and the first
one sets it; an invalidate leaves the tag (R216). -/
def tagOnValidate (b h : Nat) (s : State) : State :=
  let k := 128 * b + h / 64
  let x := pfByteOf b h s
  let new := match SMap.find s.mat.tags k with
    | some t => narrowTag t x
    | none => (Nat.land x.1 x.2, x.2)
  { s with mat := { s.mat with tags := SMap.put s.mat.tags k new } }

/-- Tags of every group of a bank recomputed, at the end of a scrub pass and when PF_BYTE changes (R216, R225). -/
def refreshTags (bank : Nat) (s : State) : State :=
  forN (fun g u =>
    let m := if (groupHeads bank g u).isEmpty then SMap.del u.mat.tags (128 * bank + g)
      else SMap.put u.mat.tags (128 * bank + g) (freshTagOf bank g u)
    { u with mat := { u.mat with tags := m } }) 128 s

/-! ### Searching (R210, R213, R214, R224) -/

/-- An entry's compared words agree with the key. -/
def entryMatches (b h : Nat) (key : List Word) (s : State) : Bool :=
  (List.range key.length).all (fun j =>
    let e := entryWord b h j s
    ((e.1 ^^^ key.getD j 0) &&& e.2) == 0)

/-- Valid entries of a replica in index order: index, bank and head row. -/
def replicaEntries (t : Tbl) (r : Nat) (s : State) : List (Nat × Nat × Nat) :=
  let lo := t.first + r * t.len
  s.mat.rows.filterMap (fun e =>
    let b := e.1 / 8192
    let row := e.1 % 8192
    if e.2.valid && decide (lo ≤ b) && decide (b < lo + t.len) && decide (t.glo * 64 ≤ row) && decide (row < (t.ghi + 1) * 64) &&
        (row - t.glo * 64) % t.w == 0 && !bankRetired b s then
      some ((b - lo) * t.perBank + (row - t.glo * 64) / t.w, b, row)
    else none)

/-- Groups a search enables on a bank (R216). -/
def enabledGroups (t : Tbl) (b : Nat) (key : List Word) (s : State) : Nat :=
  let kb := extractField (key.getD 0 0) (8 * fget (Fl.MAT_CFG_PF_BYTE b) s) 8
  ((List.range 128).filter (fun g => decide (t.glo ≤ g) && decide (g ≤ t.ghi) && !(groupHeads b g s).isEmpty &&
    (fget (Fl.MAT_CFG_PF_EN b) s == 0 ||
      (let tag := SMap.getD s.mat.tags (128 * b + g) (0, 0)
       Nat.land (Nat.xor kb tag.1) tag.2 == 0)))).length

/-- Replicas that may be searched, from the table's turn on (R210). -/
def pickReplica (n : Nat) (t : Tbl) (s : State) : Nat :=
  let start := SMap.getD s.mat.turn n 0
  let order := (List.range t.reps).map (fun i => (start + i) % max t.reps 1)
  (order.find? (fun r => t.disable / 2 ^ r % 2 == 0)).getD 0

/-- LOST and DEGRADED of a table, as its map entry shows them. -/
def tblLost (n : Nat) (s : State) : Bool := s.mat.lost.any (fun l => l.1 == n)
def tblDegraded (n : Nat) (s : State) : Bool := fget (Fl.MAT_TBL_MAP_DEGRADED 0 n) s == 1

/-- Step 1 on one bank: the head row's VALID becomes 0. -/
def invalidateEntry (b h : Nat) (s : State) : State :=
  showBank b { (setCamRow b h { camRow b h s with valid := false } s) with
    mat := { (setCamRow b h { camRow b h s with valid := false } s).mat with
      written := s.mat.written.filter (fun k => !(k / 8192 == b && decide (h ≤ k % 8192) && decide (k % 8192 < h + widthUnits (fget (Fl.MAT_CFG_WIDTH b) s)))) } }

/-- LOST of a table's map entry follows the lost entries. -/
def showLost (n : Nat) (s : State) : State := fset (Fl.MAT_TBL_MAP_LOST 0 n) (if tblLost n s then 1 else 0) s

/-- A bank is retired (R229): replicas that hold it are disabled; a table whose only replica, or only one not disabled, holds it degrades. -/
def retireBank (bank : Nat) (s : State) : State :=
  if bankRetired bank s then s
  else
    let s1 := raiseEvent 0x08 bank (Fl.MAT_EVENT_RETIRED bank)
      (fset (Fl.MAT_STATUS_STATE bank) 3 { s with mat := { s.mat with retired := s.mat.retired ++ [bank] } })
    let s2 := forEach (fun n u =>
        let t := tblAt n u
        let off := Nat.lor t.disable (2 ^ ((bank - t.first) / max t.len 1))
        if t.allBanks.contains bank then
          if (List.range t.reps).all (fun r => off / 2 ^ r % 2 == 1) then fset (Fl.MAT_TBL_MAP_DEGRADED 0 n) 1 u
          else fset (Fl.MAT_TBL_MAP_REP_DISABLE 0 n) off u
        else u) (validTables s) s1
    if ((List.range 4).map (fun i => bank / 4 * 4 + i)).all (fun b => bankRetired b s2) then retireDomain (20 + bank / 4) s2 else s2

/-- 24 hours in ticks of the model, 1 µs each. -/
def dayTicks : Nat := 86400000000

/-- Soft errors of a row are over. -/
def clearFault (bank row : Nat) (s : State) : State := { s with mat := { s.mat with faulty := SMap.del s.mat.faulty (8192 * bank + row) } }

/-- An entry whose shadow cannot be corrected is lost (R226): invalidated, marked, recorded with table and index. The third such row of a bank
within 24 hours retires it (R229). -/
def loseEntry (bank row : Nat) (s : State) : State :=
  let hit := (validTables s).findSome? (fun n =>
    let t := tblAt n s
    if t.allBanks.contains bank ∧ t.glo * 64 ≤ row ∧ row < (t.ghi + 1) * 64 then
      some (n, (bank - t.first) % max t.len 1 * t.perBank + (row - t.glo * 64) / t.w)
    else none)
  let s0 := clearFault bank row { s with mat := { s.mat with dead := s.mat.dead.filter (fun e => decide (s.tick < e.2 + dayTicks)) ++ [(bank, s.tick)] } }
  let s1 := match hit with
    | none => s0
    | some (n, i) =>
      let w := (tblAt n s).w
      let s1 := invalidateEntry bank (row / w * w) s0
      let s2 := showLost n { s1 with mat := { s1.mat with lost := if s1.mat.lost.contains (n, i) then s1.mat.lost else s1.mat.lost ++ [(n, i)] } }
      otherPostmark 0x08 bank n i 226 (raiseEvent 0x08 bank (Fl.MAT_EVENT_LOST bank) s2)
  if 3 ≤ (s1.mat.dead.filter (fun e => e.1 == bank)).length then retireBank bank s1 else s1

/-- A corrected shadow error is written back (R224, R225). -/
def correctShadow (bank : Nat) (s : State) : State :=
  raiseEvent 0x08 bank (Fl.MAT_EVENT_SHADOW_CE bank) (cntAdd (Reg.MAT_CNT_SHADOW_CE bank) 32 1 s)

/-- A false hit or scrub fix of a row is remembered, the fix with its bit position (R227). -/
def noteFix (bank row : Nat) (bit : Option Nat) (s : State) : State :=
  { s with mat := { s.mat with fixes := s.mat.fixes.filter (fun e => decide (s.tick < e.2.2 + dayTicks)) ++ [(8192 * bank + row, bit, s.tick)] } }

/-- A count since power-on of one bank. -/
def bumpBank (m : SMap Nat) (b : Nat) : SMap Nat := SMap.put m b (Nat.min (SMap.getD m b 0 + 1) 0xFFFFFFFF)

/-- A false hit is discarded: counted, recorded, its rows rewritten from the shadow (R224). -/
def falseHit (b row : Nat) (s : State) : State :=
  noteFix b row none (clearFault b row { s with mat := { s.mat with falseHits := Nat.min (s.mat.falseHits + 1) (2 ^ 64 - 1), bankFalse := bumpBank s.mat.bankFalse b } })
    |> cntAdd (Reg.MAT_CNT_FALSE_HIT b) 32 1 |> raiseEvent 0x08 b (Fl.MAT_EVENT_FALSE_HIT b)
    |> otherPostmark 0x08 b row 0 224

/-- The array matches a key on an entry, with its soft errors (R224, R225). -/
def arrayMatches (b row : Nat) (key : List Word) (s : State) : Bool :=
  match SMap.find s.mat.faulty (8192 * b + row) with
  | some .every => true
  | some .never => false
  | _ => entryMatches b row key s

/-- Verification of array matches in index order (R224, R226): the first whose shadow agrees with the key, and whether a false hit was
discarded. -/
def verifyHits (key : List Word) : List (Nat × Nat × Nat) → Bool → State → Option (Nat × Nat × Nat) × Bool × State
  | [], fh, s => (none, fh, s)
  | e :: t, fh, s =>
    match SMap.find s.mat.faulty (8192 * e.2.1 + e.2.2) with
    | some .shadowDead => verifyHits key t fh (loseEntry e.2.1 e.2.2 s)
    | some .shadowCe =>
      let s1 := correctShadow e.2.1 (clearFault e.2.1 e.2.2 s)
      if entryMatches e.2.1 e.2.2 key s1 then (some e, fh, s1) else verifyHits key t true (falseHit e.2.1 e.2.2 s1)
    | _ => if entryMatches e.2.1 e.2.2 key s then (some e, fh, s) else verifyHits key t true (falseHit e.2.1 e.2.2 s)

/-- A search of table `n` by requester `f` from index `start` with a key (R210, R213, R214). -/
def matchSearch (f n : Nat) (key : List Word) (start : Nat) (s : State) : MatRes × State :=
  let t := tblAt n s
  if ¬ tblVisible f n s then ({ MatRes.none with status := 1 }, s)
  else if 2 * t.w < key.length then ({ MatRes.none with status := 3 }, s)
  else
    let r := pickReplica n t s
    let all := (replicaEntries t r s).filter (fun e => decide (start ≤ e.1) && arrayMatches e.2.1 e.2.2 key s)
    let s1 := { s with mat := { s.mat with turn := SMap.put s.mat.turn n ((r + 1) % max t.reps 1), searches := Nat.min (s.mat.searches + 1) (2 ^ 64 - 1) } }
    let s2 := forEach (fun b u => cntAdd (Reg.MAT_CNT_GROUPS b) 64 (enabledGroups t b key s) (cntAdd (Reg.MAT_CNT_SEARCH b) 64 1 u))
      ((t.banks r).filter (fun b => !bankRetired b s)) s1
    let v := verifyHits key all false s2
    let s4 := match v.1 with
      | some e => cntAdd (Reg.MAT_CNT_HIT e.2.1) 64 1 v.2.2
      | none => v.2.2
    ({ status := 0, hit := v.1.isSome, multi := decide (2 ≤ all.length), lost := tblLost n s4, falseHit := v.2.1
       degraded := tblDegraded n s4, count := Nat.min all.length 65535
       index := match v.1 with | some e => e.1 | none => 0xFFFFFFFF
       value := [], care := [] }, s4)

/-- Soft errors strike entries of the replica that serves a table's next search. -/
def strike (n : Nat) (errs : List (Nat × RowFault)) (s : State) : State :=
  let t := tblAt n s
  let r := pickReplica n t s
  if t.valid then
    forEach (fun e u => if e.1 < t.entries then
      let p := t.place r e.1
      { u with mat := { u.mat with faulty := SMap.put u.mat.faulty (8192 * p.1 + p.2) e.2 } } else u) errs s
  else s

/-! ### Updates (R220, R222, R226) -/

/-- Replicas of entry `i` whose bank is in service. -/
def entryPlaces (t : Tbl) (i : Nat) (s : State) : List (Nat × Nat) :=
  ((List.range t.reps).map (fun r => t.place r i)).filter (fun p => !bankRetired p.1 s)

/-- Step 2: rows get value and care; a value bit without care is held as 0 (R205). -/
def writeRows (b h : Nat) (value care : List Word) (w : Nat) (s : State) : State :=
  forEach (fun i u =>
      let v := (value.getD (2 * i + 1) 0) ++ (value.getD (2 * i) 0)
      let c := (care.getD (2 * i + 1) 0) ++ (care.getD (2 * i) 0)
      let u1 := setCamRow b (h + i) { camRow b (h + i) u with value := v &&& c, care := c } u
      { u1 with mat := { u1.mat with faulty := SMap.del u1.mat.faulty (8192 * b + h + i), written := if u1.mat.written.contains (8192 * b + h + i) then u1.mat.written else u1.mat.written ++ [8192 * b + h + i] } })
    (List.range w) s

/-- Step 3: VALID becomes 1. -/
def validateEntry (b h : Nat) (s : State) : State :=
  showBank b (tagOnValidate b h (setCamRow b h { camRow b h s with valid := true } s))

/-- The status of an update or read of entry `i`: visibility, range, retired bank. -/
def entryStatus (f n i : Nat) (s : State) : Nat :=
  let t := tblAt n s
  if ¬ tblVisible f n s then 1 else if t.entries ≤ i then 2 else if (entryPlaces t i s).isEmpty then 5 else 0

/-- A result of an update or read. -/
def updRes (n st i : Nat) (s : State) : MatRes :=
  { MatRes.none with status := st, index := i, lost := tblLost n s, degraded := tblDegraded n s }

/-- Writes an entry in every replica, in the three steps of R220; the write clears its loss (R226). -/
def matchWrite (f n i : Nat) (value care : List Word) (s : State) : MatRes × State :=
  let t := tblAt n s
  let st := entryStatus f n i s
  if st ≠ 0 then (updRes n st i s, s)
  else if value.length ≠ 2 * t.w then (updRes n 4 i s, s)
  else
    let s1 := forEach (fun p u => validateEntry p.1 p.2 (writeRows p.1 p.2 value care t.w (invalidateEntry p.1 p.2 u))) (entryPlaces t i s) s
    let s2 := showLost n { s1 with mat := { s1.mat with lost := s1.mat.lost.filter (· != (n, i)), updates := Nat.min (s1.mat.updates + 1) (2 ^ 64 - 1) } }
    (updRes n 0 i s2, s2)

/-- Deletes an entry in every replica. -/
def matchDelete (f n i : Nat) (s : State) : MatRes × State :=
  let st := entryStatus f n i s
  if st ≠ 0 then (updRes n st i s, s)
  else
    let s1 := forEach (fun p u => invalidateEntry p.1 p.2 u) (entryPlaces (tblAt n s) i s) s
    let s2 := { s1 with mat := { s1.mat with updates := Nat.min (s1.mat.updates + 1) (2 ^ 64 - 1) } }
    (updRes n 0 i s2, s2)

/-- Reads an entry's value and care from the shadow. -/
def matchRead (f n i : Nat) (s : State) : MatRes × State :=
  let t := tblAt n s
  let st := entryStatus f n i s
  if st ≠ 0 then (updRes n st i s, s)
  else
    let p := (entryPlaces t i s).headD (0, 0)
    let ws := (List.range (2 * t.w)).map (fun j => entryWord p.1 p.2 j s)
    ({ updRes n 0 i s with value := ws.map (·.1), care := ws.map (·.2) }, s)

/-- Remembers the result of a row given on its own. -/
def keepRes (p : MatRes × State) : State := { p.2 with mat := { p.2.mat with last := p.1 } }

/-- Row MATCH_SEARCH (R214). `errs` are soft errors that have struck entries by then; every later search, of a letter or a filter too, may
meet those that this one does not (R224–R226). -/
def execMatchSearch (f table : Nat) (key : List Word) (errs : List (Nat × RowFault)) (s : State) : Out :=
  if key.length = 0 ∨ 8 < key.length then .next (keepRes ({ MatRes.none with status := 4 }, s))
  else .next (keepRes (matchSearch f table key 0 (strike table errs s)))

/-- Row MATCH_SEARCH_FROM (R213). -/
def execMatchSearchFrom (f table : Nat) (key : List Word) (start : Nat) (errs : List (Nat × RowFault)) (s : State) : Out :=
  if key.length = 0 ∨ 8 < key.length then .next (keepRes ({ MatRes.none with status := 4 }, s))
  else .next (keepRes (matchSearch f table key start (strike table errs s)))

/-- Row MATCH_WRITE_ENTRY (R220). -/
def execMatchWriteEntry (f table index : Nat) (value care : List Word) (s : State) : Out :=
  .next (keepRes (matchWrite f table index value care s))

/-- Row MATCH_DELETE_ENTRY (R220). -/
def execMatchDeleteEntry (f table index : Nat) (s : State) : Out := .next (keepRes (matchDelete f table index s))

/-- Row MATCH_READ_ENTRY (R215). -/
def execMatchReadEntry (f table index : Nat) (s : State) : Out := .next (keepRes (matchRead f table index s))

/-! ### Operation blocks (R215) -/

/-- `n` words of a block from offset `o`. -/
def wordsAt (bs : List Byte) (o n : Nat) : List Word := (List.range n).map (fun j => BitVec.ofNat 64 (fieldAt bs (o + 8 * j) 8))

/-- Bytes 159:144 of a block from a result. -/
def resBytes (r : MatRes) : List Byte :=
  let flag (b : Bool) (n : Nat) : Nat := if b then 2 ^ n else 0
  leBytes 1 r.status ++ leBytes 1 (flag r.hit 0 + flag r.multi 1 + flag r.lost 2 + flag r.falseHit 3 + flag r.degraded 4)
    ++ leBytes 2 r.count ++ leBytes 4 r.index ++ leBytes 8 0

/-- Performs an operation block of requester `f`: its result, and the whole block with what the operation returns. -/
def matchBlock (f : Nat) (bs : List Byte) (s : State) : MatRes × List Byte × State :=
  let op := fieldAt bs 0 1
  let n := fieldAt bs 1 1
  let kw := fieldAt bs 2 1
  let i := fieldAt bs 4 4
  let reserved := fieldAt bs 3 1 != 0 || fieldAt bs 8 8 != 0 || (op ≤ 1 && ((bs.drop 80).take 64).any (· != 0))
  let w2 := 2 * (tblAt n s).w
  let bad := decide (5 ≤ op) || kw == 0 || decide (8 < kw) || reserved || ((op == 2 || op == 4) && tblVisible f n s && kw != w2)
  let r : MatRes × State :=
    if bad then ({ MatRes.none with status := 4, index := i }, s)
    else match op with
      | 0 => matchSearch f n (wordsAt bs 16 kw) 0 s
      | 1 => matchSearch f n (wordsAt bs 16 kw) i s
      | 2 => matchWrite f n i (wordsAt bs 16 kw) (wordsAt bs 80 kw) s
      | 3 => matchDelete f n i s
      | _ => matchRead f n i s
  let body := if op = 4 ∧ r.1.status = 0 then
      bs.take 16 ++ r.1.value.flatMap (fun w => leBytes 8 w.toNat) ++ List.replicate (64 - 8 * r.1.value.length) 0
        ++ r.1.care.flatMap (fun w => leBytes 8 w.toNat) ++ List.replicate (64 - 8 * r.1.care.length) 0
    else bs.take 144
  (r.1, body ++ resBytes r.1, r.2)

/-! ### Creating and deleting tables (R208, R211, R212, R394) -/

/-- A TBL_MAP value may be written to entry `n` (R208, R232). -/
def tblMapOk (n : Nat) (v : Word) (s : State) : Bool :=
  let t := tblOf v
  if ¬ t.valid then true
  else
    decide (extractField v 2 2 ≤ 2) && decide (1 ≤ t.len) && decide (1 ≤ t.reps) && decide (t.first + t.reps * t.len ≤ 16) &&
    decide (t.glo ≤ t.ghi) && decide (t.reps ≤ 16) &&
    t.allBanks.all (fun b => !bankRetired b s && widthUnits (fget (Fl.MAT_CFG_WIDTH b) s) == t.w) &&
    !((List.range t.reps).all (fun r => t.disable / 2 ^ r % 2 == 1)) &&
    (validTables s).all (fun m => m == n || !((tblAt m s).allBanks.any (fun b => t.allBanks.contains b)) ||
      decide ((tblAt m s).ghi < t.glo) || decide (t.ghi < (tblAt m s).glo)) &&
    t.allBanks.all (fun b => !(s.mat.clearing.any (fun g => g / 128 == b && decide (t.glo ≤ g % 128) && decide (g % 128 ≤ t.ghi))))

/-- Deletion (R212): VALID clears, and every group of the table starts clearing. -/
def deleteTable (n : Nat) (s : State) : State :=
  let t := tblAt n s
  if ¬ t.valid then s
  else
    let gs := t.allBanks.flatMap (fun b => ((List.range 128).filter (fun g => decide (t.glo ≤ g) && decide (g ≤ t.ghi))).map (fun g => 128 * b + g))
    let s1 := fset (Fl.MAT_TBL_MAP_VALID 0 n) 0 s
    let s2 := { s1 with mat := { s1.mat with clearing := s1.mat.clearing ++ gs, lost := s1.mat.lost.filter (fun l => l.1 != n) } }
    forEach showBank t.allBanks (showLost n s2)

/-- A TBL_MAP write (R208): checked as a whole, else ignored with a postmark; DEGRADED and LOST keep their values. -/
def writeTblMap (n req : Nat) (v : Word) (s : State) : State :=
  if ¬ tblMapOk n v s then writeIgnored (Reg.MAT_TBL_MAP 0 n) req v.toNat s
  else if (tblAt n s).valid ∧ ¬ (tblOf v).valid then deleteTable n s
  else
    let a := Reg.MAT_TBL_MAP 0 n
    let old := rd a s
    wr a ((v &&& 0xFFFF7F7F03FFFFFF) ||| (old &&& 0x0C000000)) s

/-- Row TABLE_MAP_WRITE. -/
def execTableMapWrite (table req : Nat) (v : Word) (s : State) : Out :=
  if table < 256 then .next (writeTblMap table req v s) else .next s

/-- Row TABLE_CLEAR_DONE (R212): every row of the clearing groups of a bank has been invalidated; the groups are free. -/
def execTableClearDone (bank : Nat) (s : State) : Out :=
  let mine (g : Nat) : Bool := g / 128 == bank && s.mat.clearing.contains g
  let s1 := { s with mat := { s.mat with
      rows := s.mat.rows.map (fun e => if mine (128 * (e.1 / 8192) + e.1 % 8192 / 64) then (e.1, { e.2 with valid := false }) else e)
      clearing := s.mat.clearing.filter (fun g => g / 128 != bank) } }
  .next (showBank bank s1)

/-- Units that hold a key of `kw` words (R394). -/
def unitsFor (kw : Nat) : Nat := if kw ≤ 2 then 1 else if kw ≤ 4 then 2 else 4

/-- Bank `b` can take a table of width `w`. -/
def bankFits (b w : Nat) (s : State) : Bool :=
  !bankRetired b s && (widthUnits (fget (Fl.MAT_CFG_WIDTH b) s) == w || !bankInUse b s)

/-- The lowest placement of a table of `len` banks per replica: first bank and first group. -/
def placeTable (w len reps groups : Nat) (s : State) : Option (Nat × Nat) :=
  (List.range 17).findSome? (fun first =>
    if 16 < first + reps * len then none
    else
      let banks := (List.range (reps * len)).map (· + first)
      if banks.all (fun b => bankFits b w s) then
        ((List.range 128).find? (fun g => decide (g + groups ≤ 128) &&
          banks.all (fun b => (List.range groups).all (fun i => !groupTaken b (g + i) s)))).map (fun g => (first, g))
      else none)

/-- Row groups per bank that hold `entries` of width `w` on `len` banks. -/
def groupsFor (w len entries : Nat) : Nat := (entries * w + 64 * len - 1) / (64 * len)

/-- Distinct banks of the tables a function owns. -/
def banksOwned (f : Nat) (s : State) : List Nat :=
  (((validTables s).filter (fun t => (tblAt t s).owner == f)).flatMap (fun t => (tblAt t s).allBanks)).dedup

/-- The outcome of creating a table: its identifier and capacity, no space, or over the bank quota. -/
inductive TblNew where
  | made (t cap : Nat)
  | noSpace
  | quota
  deriving DecidableEq, Repr

/-- Creates a table for `f` (R394): the smallest LEN that fits, the lowest banks and groups. -/
def createTable (f kw reps entries : Nat) (shared : Bool) (s : State) : TblNew × State :=
  let w := unitsFor kw
  let plan := (List.range 17).findSome? (fun len =>
    if len = 0 ∨ 128 < groupsFor w len entries then none
    else (placeTable w len reps (groupsFor w len entries) s).map (fun p => (len, p.1, p.2)))
  match plan, (List.range 256).find? (fun t => !(tblAt t s).valid) with
  | some (len, first, glo), some n =>
    let gs := groupsFor w len entries
    let banks := (List.range (reps * len)).map (· + first)
    if f ≠ firmwareOwner ∧ (resOf f s).banks < ((banksOwned f s) ++ banks).dedup.length then (.quota, s)
    else
      let code := if w = 1 then 0 else if w = 2 then 1 else 2
      let s1 := forEach (fun b u => fset (Fl.MAT_CFG_WIDTH b) code u) banks s
      let v : Nat := 1 + (if shared then 2 else 0) + code * 4 + first * 16 + len * 256 + reps * 8192 + f * 2 ^ 18 +
        glo * 2 ^ 32 + (glo + gs - 1) * 2 ^ 40
      (.made n (len * (gs * 64 / w)), wr (Reg.MAT_TBL_MAP 0 n) (BitVec.ofNat 64 v) s1)
  | _, _ => (.noSpace, s)

/-- Every table of a function is deleted (R230, R458). -/
def deleteTablesOf (f : Nat) (s : State) : State :=
  forEach deleteTable ((validTables s).filter (fun t => (tblAt t s).owner == f)) s

/-! ### Control firmware's own steps (R223, R233) -/

/-- Row ENTRY_INVALIDATE: ENTRY_OP with OP 1. A row that is not a head row is ignored (R232). -/
def entryOp (bank row op req : Nat) (s : State) : State :=
  let w := widthUnits (fget (Fl.MAT_CFG_WIDTH bank) s)
  if row % w ≠ 0 then writeIgnored (Reg.MAT_ENTRY_OP bank) req (row + op * 65536) s
  else
    let s1 := fset (Fl.MAT_ENTRY_OP_ROW bank) row s
    if op = 1 then invalidateEntry bank row s1
    else if op = 2 then
      if (List.range w).all (fun i => s.mat.written.contains (8192 * bank + row + i)) then validateEntry bank row s1
      else writeIgnored (Reg.MAT_ENTRY_OP bank) req (row + op * 65536) s1
    else s1

/-- The bank's registers and window answer: powered and not retired (R229, R34). -/
def bankUp (b : Nat) (s : State) : Bool := decide (b < 16) && pdOn (20 + b / 4) s && !bankRetired b s

/-- Row ENTRY_INVALIDATE. -/
def execEntryInvalidate (bank row req : Nat) (s : State) : Out :=
  if bankUp bank s then .next (entryOp bank (row % 8192) 1 req s) else .next (busError (Reg.MAT_ENTRY_OP bank) req 4 s)

/-- Row ENTRY_VALIDATE. -/
def execEntryValidate (bank row req : Nat) (s : State) : Out :=
  if bankUp bank s then .next (entryOp bank (row % 8192) 2 req s) else .next (busError (Reg.MAT_ENTRY_OP bank) req 4 s)

/-- Physical address of the data window of a bank. -/
def matWindow (bank : Nat) : Nat := 0x80000000 + bank * 0x100000

/-- Writes bytes `o` to `o + bs.length` of a row: value in bytes 15:0, care in 31:16, the rest read-only. -/
def windowRow (r : CamRow) (o : Nat) (bs : List Byte) : CamRow :=
  let old := leBytes 16 r.value.toNat ++ leBytes 16 r.care.toNat
  let new := (List.range 32).map (fun i => if o ≤ i ∧ i < o + bs.length then bs.getD (i - o) 0 else old.getD i 0)
  let c := BitVec.ofNat 128 (leVal (new.drop 16))
  { r with value := BitVec.ofNat 128 (leVal (new.take 16)) &&& c, care := c }

/-- Row MATCH_WINDOW_WRITE (R223, R233): refused for any row of a valid entry, and outside the rows. -/
def execMatchWindowWrite (bank off req : Nat) (bs : List Byte) (s : State) : Out :=
  let row := off / 64
  let w := widthUnits (fget (Fl.MAT_CFG_WIDTH bank) s)
  if ¬ bankUp bank s ∨ 0x80000 ≤ off ∨ (camRow bank (row / w * w) s).valid then
    .next (busError (matWindow bank + off) req bs.length s)
  else
    let s1 := setCamRow bank row (windowRow (camRow bank row s) (off % 64) bs) s
    .next { s1 with mat := { s1.mat with written := if s1.mat.written.contains (8192 * bank + row) then s1.mat.written
      else s1.mat.written ++ [8192 * bank + row] } }

/-! ### Scrubbing, repair and retirement (R225–R229) -/

/-- A row rewritten from its shadow, `bit` the position that differed (R225). -/
def scrubFix (bank row bit : Nat) (s : State) : State :=
  raiseEvent 0x08 bank (Fl.MAT_EVENT_SCRUB_FIX bank) (cntAdd (Reg.MAT_CNT_SCRUB_FIX bank) 32 1
    (noteFix bank row (some bit) (clearFault bank row { s with mat := { s.mat with bankFix := bumpBank s.mat.bankFix bank } })))

/-- Row MATCH_SCRUB (R225): one pass of a bank. `fixed` rows differed from their shadow, at a bit position each, `corrected` shadow errors were
written back, `dead` rows had an uncorrectable shadow; soft errors that struck rows before and no search has met end with the pass. -/
def execMatchScrub (bank : Nat) (fixed : List (Nat × Nat)) (dead : List Nat) (corrected : Nat) (s : State) : Out :=
  if ¬ bankUp bank s then .next s
  else
    let mine (k : RowFault → Bool) : List Nat := (s.mat.faulty.filter (fun e => e.1 / 8192 == bank && k e.2)).map (fun e => e.1 % 8192)
    let s1 := forEach (fun p u => scrubFix bank p.1 p.2 u)
      (fixed ++ (mine (fun k => k == .every || k == .never)).map (fun r => (r, freeNat 7 s))) s
    let s2 := forN (fun _ u => correctShadow bank u) corrected (forEach (fun r u => correctShadow bank (clearFault bank r u)) (mine (· == .shadowCe)) s1)
    .next (refreshTags bank (forEach (loseEntry bank) (dead ++ mine (· == .shadowDead)) (useFree s2)))

/-- A row needs a spare: two false hits or scrub fixes within 24 hours (R227). -/
def rowDue (bank row : Nat) (s : State) : Bool :=
  decide (2 ≤ (s.mat.fixes.filter (fun e => e.1 == 8192 * bank + row && decide (s.tick < e.2.2 + dayTicks))).length)

/-- A bit column needs a spare: scrub fixes hit its position in four or more rows of the bank within 24 hours (R227). -/
def colDue (bank bit : Nat) (s : State) : Bool :=
  decide (4 ≤ ((s.mat.fixes.filter (fun e => e.1 / 8192 == bank && e.2.1 == some bit && decide (s.tick < e.2.2 + dayTicks))).map (·.1)).dedup.length)

/-- Row ROW_REPAIR (R227, R228), due, or for a write that failed its read-back: a spare row takes the place of row `row`, or the bank retires for
want of one (R229). -/
def execRowRepair (bank row : Nat) (readBack : Bool) (s : State) : Out :=
  if bankUp bank s = false ∨ (readBack = false ∧ rowDue bank (row % 8192) s = false) then .next s
  else
    let free := fget (Fl.MAT_REPAIR_ROWS_FREE bank) s
    if free = 0 then .next (retireBank bank s)
    else .next (raiseEvent 0x08 bank (Fl.MAT_EVENT_ROW_REPAIR bank) (fset (Fl.MAT_REPAIR_ROWS_FREE bank) (free - 1)
      { s with mat := { s.mat with
          spared := s.mat.spared ++ [8192 * bank + row % 8192], fixes := s.mat.fixes.filter (fun e => e.1 != 8192 * bank + row % 8192) } }))

/-- Row COLUMN_REPAIR (R227, R228): a spare column takes the place of bit position `bit`, or the bank retires for want of one (R229). -/
def execColumnRepair (bank bit : Nat) (s : State) : Out :=
  if bankUp bank s = false ∨ colDue bank bit s = false then .next s
  else
    let free := fget (Fl.MAT_REPAIR_COLS_FREE bank) s
    if free = 0 then .next (retireBank bank s)
    else .next (raiseEvent 0x08 bank (Fl.MAT_EVENT_COL_REPAIR bank) (fset (Fl.MAT_REPAIR_COLS_FREE bank) (free - 1)
      { s with mat := { s.mat with fixes := s.mat.fixes.filter (fun e => !(e.1 / 8192 == bank && e.2.1 == some bit)) } }))

end Sys2Proof.Machine
end

