-- ==== Sys2Proof/Machine/Filter.lean ====
section
/-! DEFINITION. Record framing and the filter microcode of the channel stream filters (R181–R192). -/

namespace Sys2Proof.Machine

/-! ### Instructions (R186, R187) -/

/-- A decoded instruction. -/
structure FIns where
  opc : Nat
  dst : Nat
  sa : Nat
  sb : Nat
  typ : Nat
  cc : Nat
  i : Bool
  g : Bool
  rsv : Nat
  imm : Nat
  deriving DecidableEq, Repr

/-- Decodes an instruction word. -/
def finsOf (w : Word) : FIns :=
  ⟨extractField w 58 6, extractField w 53 5, extractField w 48 5, extractField w 43 5, extractField w 40 3, extractField w 36 4,
    w.getLsbD 35, w.getLsbD 34, extractField w 32 2, extractField w 0 32⟩

/-- Immediate fields. -/
def FIns.off (x : FIns) : Nat := x.imm % 65536
def FIns.wid (x : FIns) : Nat := x.imm / 65536 % 256
def FIns.len (x : FIns) : Nat := x.imm / 65536

/-- Opcodes with a destination operand, with a destination predicate, and with a gate. -/
def regDst (o : Nat) : Bool := o == 1 || o == 2 || o == 3 || o == 4 || (decide (8 ≤ o) && decide (o ≤ 0x14))
def predDst (o : Nat) : Bool := o == 0x18 || o == 0x19 || o == 0x1A || o == 0x1B || o == 0x20
def gated (o : Nat) : Bool := o == 0x20 || o == 0x29 || o == 0x2A || o == 0x2C
def isOpc (o : Nat) : Bool := o == 0 || regDst o || predDst o || o == 0x28 || o == 0x29 || o == 0x2A || o == 0x2C

/-- An extraction whose TYPE, width or offset breaks R187 or R188. -/
def badExt (x : FIns) : Bool :=
  if x.typ = 6 then x.imm % 4 == 3
  else x.typ == 7 || x.wid == 0 || decide (8 < x.wid) || (x.typ == 4 && x.wid != 4) || (x.typ == 5 && x.wid != 8) ||
    decide (16383 < x.off + x.wid)

/-- An instruction that alone breaks R188 (which encodings it counts as bad beyond the rule's own words: log 63). `delim`: the job is delimited; `keyWords`: words of a table's entries, none
for a table that does not exist. -/
def badIns (delim : Bool) (keyWords : Nat → Option Nat) (x : FIns) : Bool :=
  !isOpc x.opc || x.rsv != 0 || (x.g && !gated x.opc) || (regDst x.opc && decide (0x18 ≤ x.dst)) || (predDst x.opc && decide (14 ≤ x.dst)) ||
  (match x.opc with
    | 1 => badExt x
    | 3 => badExt x
    | 2 => !delim || decide (3 < x.typ)
    | 0x18 => x.cc == 15
    | 0x1A => decide (15 < x.sa) || decide (15 < x.sb) || x.imm / 16 != 0
    | 0x28 => decide (15 < x.dst)
    | 0x29 => decide (16383 < x.off + x.len)
    | 0x2C => decide (10 < x.imm % 16)
    | 0x20 =>
      let kw := x.imm / 256 % 16
      decide (0x18 ≤ x.sb) || kw == 0 || decide (8 < kw) || decide (32 < x.sa + kw) ||
        (match keyWords (x.imm % 256) with
          | some n => decide (n < kw)
          | none => false)
    | _ => false)

/-- The first offending instruction of a program (R188). `n` counts up; `sels`, `accs` and `proj` are what came before. -/
def firstBad (delim : Bool) (keyWords : Nat → Option Nat) : Nat → Nat → List Nat → Nat → List FIns → Option Nat
  | n, _, _, _, [] => some n
  | n, sels, accs, proj, x :: t =>
    let last := t.isEmpty
    let sels' := if x.opc = 0x28 then sels + 1 else sels
    let proj' := if x.opc = 0x29 then proj + x.len else if x.opc = 0x2A then proj + 8 else proj
    if badIns delim keyWords x || (x.opc == 0) != last || decide (1 < sels') || (x.opc == 0x2C && accs.contains (x.dst % 8)) ||
        decide (256 < proj') then some n
    else if last then none
    else firstBad delim keyWords (n + 1) sels' (if x.opc = 0x2C then (x.dst % 8) :: accs else accs) proj' t

/-- The operation of each accumulator a program uses. -/
def accOp (code : List FIns) (k : Nat) : Option Nat :=
  (code.find? (fun x => x.opc == 0x2C && x.dst % 8 == k)).map (fun x => x.imm % 16)

/-! ### Accumulators (R187, R189, R195) -/

/-- Initial value of an operation; largest and smallest binary64 are taken as the infinities (log 63). -/
def accInit (op : Nat) : Word :=
  match op with
  | 4 => BitVec.allOnes 64
  | 5 => 0x7FFFFFFFFFFFFFFF
  | 6 => BitVec.ofNat 64 (fpInf f64 false)
  | 8 => 0x8000000000000000
  | 9 => BitVec.ofNat 64 (fpInf f64 true)
  | _ => 0

/-- A fresh accumulator. -/
def Acc.fresh (op : Nat) : Acc := ⟨accInit op, false, false⟩

/-- Saturating sums. -/
def satU (v : Int) : Word × Bool := if (2 ^ 64 : Int) ≤ v then (BitVec.allOnes 64, true) else (BitVec.ofInt 64 v, false)
def satS (v : Int) : Word × Bool :=
  if (2 ^ 63 : Int) ≤ v then (0x7FFFFFFFFFFFFFFF, true) else if v < -(2 ^ 63 : Int) then (0x8000000000000000, true)
  else (BitVec.ofInt 64 v, false)

/-- One binary step of an operation on an accumulator value. -/
def accStep (op : Nat) (a v : Word) : Word × Bool :=
  match op with
  | 0 => ((satU (a.toNat + v.toNat : Int)).1, false)
  | 1 => satU (a.toNat + v.toNat : Int)
  | 2 => satS (a.toInt + v.toInt)
  | 4 => (if v.toNat < a.toNat then v else a, false)
  | 5 => (if v.toInt < a.toInt then v else a, false)
  | 6 => (match fpCmp f64 v.toNat a.toNat with
    | some .lt => v
    | _ => a, false)
  | 7 => (if a.toNat < v.toNat then v else a, false)
  | 8 => (if a.toInt < v.toInt then v else a, false)
  | 9 => (match fpCmp f64 a.toNat v.toNat with
    | some .lt => v
    | _ => a, false)
  | _ => (BitVec.ofNat 64 (fpAdd f64 a.toNat v.toNat).1, false)

/-- AGG gives a value to an accumulator. -/
def Acc.add (op : Nat) (a : Acc) (v : Word) : Acc :=
  let x := if op = 0 then 1 else if op = 10 then BitVec.ofNat 64 (fpMul f64 v.toNat v.toNat).1 else v
  let r := accStep op a.val x
  ⟨r.1, a.ovf || r.2, true⟩

/-- Merges a channel's accumulator into the job's (R195). -/
def Acc.merge (op : Nat) (a b : Acc) : Acc :=
  if b.valid then
    let r := accStep op a.val b.val
    ⟨r.1, a.ovf || b.ovf || r.2, true⟩
  else a

/-! ### Records and fields (R187, R189, R190) -/

/-- ASCII case folding of a byte. -/
def foldCase (b : Byte) : Byte := if 0x41 ≤ b.toNat ∧ b.toNat ≤ 0x5A then b + 0x20 else b

/-- A list occurs wholly inside another. -/
def occursIn (p : List Byte) : List Byte → Bool
  | [] => p.isEmpty
  | b :: t => p.isPrefixOf (b :: t) || occursIn p t

/-- MHIT of a record (R190). -/
def patternHits (pats : List (List Byte × Bool)) (off len : Nat) (body : List Byte) : Nat :=
  let w := if len = 0 then body.drop off else (body.drop off).take len
  let fw := w.map foldCase
  (pats.zipIdx.map (fun p => if (if p.1.2 then occursIn (p.1.1.map foldCase) fw else occursIn p.1.1 w) then 2 ^ p.2 else 0)).sum

/-- Fields of a delimited record, and whether the last one's quote stays open (R181). -/
def splitFields (fd q : Byte) : List Byte → List Byte → Bool → List (List Byte) × Bool
  | [], cur, inq => ([cur.reverse], inq)
  | b :: t, cur, inq =>
    if q ≠ 0 ∧ b = q then splitFields fd q t (b :: cur) (!inq)
    else if b = fd ∧ inq = false then
      let r := splitFields fd q t [] false
      (cur.reverse :: r.1, r.2)
    else splitFields fd q t (b :: cur) inq

/-- The inside of a quoted field: pairs of QUOTE count as one, the closing QUOTE is dropped. -/
def unquoteTail (q : Byte) : List Byte → List Byte
  | [] => []
  | [b] => if b = q then [] else [b]
  | b :: c :: t => if b = q then (if c = q then q :: unquoteTail q t else c :: t) else b :: unquoteTail q (c :: t)

/-- A field as EXTD takes it. -/
def unquote (q : Byte) (f : List Byte) : List Byte :=
  match f with
  | b :: t => if q ≠ 0 ∧ b = q then unquoteTail q t else f
  | [] => []

/-- Decimal digits of a byte list; none when another byte or nothing is there. -/
def digitsOf (f : List Byte) : Option Nat :=
  if f.isEmpty ∨ f.any (fun b => decide (b.toNat < 0x30) || decide (0x39 < b.toNat)) then none
  else some (f.foldl (fun n b => 10 * n + (b.toNat - 0x30)) 0)

/-- EXTD of one field's bytes: value and parse error (R187, R189). Digits beyond the scale are cut off, and a signed number may have a leading
'+' (log 63). -/
def parseField (typ scale : Nat) (f : List Byte) : Word × Bool :=
  if f.isEmpty then (0, true)
  else if typ = 3 then (BitVec.ofNat 64 (leVal (f.take 8)), false)
  else
    let signed := decide (typ ≠ 0)
    let neg := signed && f.head? == some 0x2D
    let body := if signed && (f.head? == some 0x2D || f.head? == some 0x2B) then f.drop 1 else f
    let num := if typ = 2 then
        let whole := body.takeWhile (· != 0x2E)
        let frac := (body.dropWhile (· != 0x2E)).drop 1
        match digitsOf (whole ++ frac) with
        | none => none
        | some _ => digitsOf (whole ++ (frac ++ List.replicate scale 0x30).take scale ++ (if whole.isEmpty ∧ scale = 0 then [0x30] else []))
      else digitsOf body
    match num with
    | none => (0, true)
    | some n => if typ = 0 then satU n else satS (if neg then -(n : Int) else n)

/-- EXT: `w` bytes at `off` by TYPE; none past the record end. -/
def extractRec (typ off w : Nat) (body : List Byte) : Option Word :=
  let bs := (body.drop off).take w
  if bs.length < w then none
  else
    let v := if typ = 2 ∨ typ = 3 then leVal bs.reverse else leVal bs
    if typ = 4 then some (BitVec.ofNat 64 (fpWiden v))
    else if (typ = 1 ∨ typ = 3) ∧ 2 ^ (8 * w - 1) ≤ v then some (BitVec.ofInt 64 ((v : Int) - 2 ^ (8 * w)))
    else some (BitVec.ofNat 64 v)

/-! ### The machine of one record (R185) -/

/-- Filter state while a record is evaluated. `probes` counts searches, `noTable` says one named a missing table. -/
structure FState where
  r : List Word
  p : List Bool
  proj : List Byte
  sel : Bool
  aggs : List (Nat × Word)
  probes : Nat
  noTable : Bool
  deriving DecidableEq, Repr

/-- What of a job and record the microcode sees. -/
structure FView where
  body : List Byte
  off : Nat
  chan : Nat
  owner : Nat
  fdelim : Byte
  quote : Byte
  mhit : Nat
  deriving DecidableEq, Repr

/-- An operand; a predicate. -/
def FState.get (f : FState) (i : Nat) : Word := f.r.getD i 0
def FState.pred (f : FState) (i : Nat) : Bool := f.p.getD i false
def FState.put (f : FState) (i : Nat) (v : Word) : FState := { f with r := f.r.set i v }
def FState.putP (f : FState) (i : Nat) (b : Bool) : FState := { f with p := f.p.set i b }

/-- An order relation by its place in EQ, NE, LT, LE, GT, GE. -/
def relOf (k : Nat) (o : Ordering) : Bool :=
  match k with
  | 0 => o == .eq
  | 1 => o != .eq
  | 2 => o == .lt
  | 3 => o != .gt
  | 4 => o == .gt
  | _ => o != .lt

/-- CMP (condition codes table). -/
def filterCmp (cc : Nat) (a b : Word) : Bool :=
  if cc < 6 then relOf cc (compare a.toNat b.toNat)
  else if cc < 10 then relOf (cc - 4) (compare a.toInt b.toInt)
  else match fpCmp f64 a.toNat b.toNat with
    | none => false
    | some o => relOf (if cc = 10 then 0 else cc - 9) o

/-- Integer operations 0x08 to 0x0F. -/
def filterAlu (opc : Nat) (a b : Word) : Word :=
  match opc with
  | 0x08 => a + b
  | 0x09 => a - b
  | 0x0A => a &&& b
  | 0x0B => a ||| b
  | 0x0C => a ^^^ b
  | 0x0D => a <<< (b.toNat % 64)
  | 0x0E => a >>> (b.toNat % 64)
  | _ => a * b

/-- One instruction. PROJ past the record end appends what is there, filled up with zeros, and sets P15 as an extraction does (log 63). -/
def filterStep (v : FView) (x : FIns) (f : FState) (s : State) : FState × State :=
  let gateOff := x.g && !f.pred x.cc
  let a := f.get x.sa
  let float := x.opc == 0x10 || x.opc == 0x11 || x.opc == 0x12 || (x.opc == 0x18 && decide (10 ≤ x.cc))
  let b := if x.i then (if float then BitVec.ofNat 64 (fpWiden x.imm) else (BitVec.ofNat 32 x.imm).signExtend 64) else f.get x.sb
  match x.opc with
  | 0x01 | 0x03 =>
    if x.typ = 6 then (f.put x.dst (BitVec.ofNat 64 (if x.imm % 4 = 0 then v.body.length else if x.imm % 4 = 1 then v.off else v.chan)), s)
    else match extractRec x.typ (x.off + (if x.opc = 3 then a.toNat else 0)) x.wid v.body with
      | some w => (f.put x.dst w, s)
      | none => ((f.put x.dst 0).putP 15 true, s)
  | 0x02 =>
    let fs := splitFields v.fdelim v.quote v.body [] false
    let i := x.imm % 256
    let r := if fs.2 ∧ fs.1.length ≤ i + 1 then (0, true)
      else parseField x.typ (x.imm / 256 % 16) (unquote v.quote (fs.1.getD i []))
    (if r.2 then (f.put x.dst r.1).putP 14 true else f.put x.dst r.1, s)
  | 0x04 => (f.put x.dst ((BitVec.ofNat 32 x.imm).signExtend 64), s)
  | 0x10 => (f.put x.dst (BitVec.ofNat 64 (fpAdd f64 a.toNat b.toNat).1), s)
  | 0x11 => (f.put x.dst (BitVec.ofNat 64 (fpSub f64 a.toNat b.toNat).1), s)
  | 0x12 => (f.put x.dst (BitVec.ofNat 64 (fpMul f64 a.toNat b.toNat).1), s)
  | 0x13 => (f.put x.dst (BitVec.ofNat 64 (fpOfInt f64 a.toInt).1), s)
  | 0x14 => (f.put x.dst (BitVec.ofInt 64 (fpToInt f64 64 a.toNat).1), s)
  | 0x18 => (f.putP x.dst (filterCmp x.cc a b), s)
  | 0x19 => (f.putP x.dst ((a &&& b) != 0), s)
  | 0x1A => (f.putP x.dst (x.imm / 2 ^ ((if f.pred x.sa then 2 else 0) + (if f.pred x.sb then 1 else 0)) % 2 == 1), s)
  | 0x1B => (f.putP x.dst ((BitVec.ofNat 64 v.mhit &&& b) != 0), s)
  | 0x20 =>
    if gateOff then ((f.putP x.dst false).put x.sb (BitVec.allOnes 64), s)
    else
      let key := (List.range (x.imm / 256 % 16)).map (fun j => f.get (x.sa + j))
      let r := matchSearch v.owner (x.imm % 256) key 0 s
      let f' := { f with probes := f.probes + 1, noTable := f.noTable || !(tblAt (x.imm % 256) s).valid }
      if r.1.status = 0 ∧ r.1.hit then ((f'.putP x.dst true).put x.sb (BitVec.ofNat 64 r.1.index), r.2)
      else ((f'.putP x.dst false).put x.sb (BitVec.allOnes 64), r.2)
  | 0x28 => ({ f with sel := f.pred x.dst }, s)
  | 0x29 =>
    if gateOff then (f, s)
    else
      let bs := (v.body.drop x.off).take x.len
      let f' := { f with proj := f.proj ++ bs ++ List.replicate (x.len - bs.length) 0 }
      (if bs.length < x.len then f'.putP 15 true else f', s)
  | 0x2A => if gateOff then (f, s) else ({ f with proj := f.proj ++ leBytes 8 a.toNat }, s)
  | 0x2C => if gateOff then (f, s) else ({ f with aggs := f.aggs ++ [(x.dst % 8, a)] }, s)
  | 0x00 => (f, s)
  | _ => (f.put x.dst (filterAlu x.opc a b), s)

/-- A program over one record. -/
def runFilter (v : FView) : List FIns → FState → State → FState × State
  | [], f, s => (f, s)
  | x :: t, f, s =>
    let r := filterStep v x f s
    runFilter v t r.1 r.2

/-- Filter state at the start of a record. -/
def FState.start (consts : List Word) : FState :=
  ⟨List.replicate 24 0 ++ consts, List.replicate 16 false, [], false, [], 0, false⟩

/-! ### Framing (R181–R184) -/

/-- How a framed record stands. -/
inductive RecKind where
  | good | truncated | malformed | badBlock
  deriving DecidableEq, Repr

/-- A framed record: namespace byte offset of its start, its bytes, SEAM and LATE. -/
structure FRec where
  off : Nat
  body : List Byte
  kind : RecKind
  seam : Bool
  late : Bool
  deriving DecidableEq, Repr

/-- Fixed-length records from byte `p` of the IU on: whole ones, then a truncated one at the range end or a tail
fragment. -/
def fixedFrom (rl base hi : Nat) (cutByRange late : Bool) (data : List Byte) : Nat → Nat → List FRec × Frag
  | 0, _ => ([], .none)
  | k + 1, p =>
    if hi ≤ p then ([], .none)
    else if p + rl ≤ hi then
      let r := fixedFrom rl base hi cutByRange late data k (p + rl)
      (⟨base + p, (data.drop p).take rl, .good, false, late⟩ :: r.1, r.2)
    else if cutByRange then ([⟨base + p, [], .truncated, false, late⟩], .none)
    else ([], .part (base + p) (data.drop p) late)

/-- One IU in fixed-length mode: head fragment, records, tail fragment. `base` is the IU's namespace byte offset and
`b0` BASE; the bytes `lo` to `hi` lie in the range. -/
def frameFixed (rl b0 base lo hi : Nat) (late : Bool) (data : List Byte) : Frag × List FRec × Frag :=
  let a := base + lo
  let start := if a ≤ b0 then b0 else b0 + (a - b0 + rl - 1) / rl * rl
  let cut := min start (base + hi)
  let head := if a < cut then Frag.part a ((data.take (cut - base)).drop lo) late else .none
  let r := fixedFrom rl base hi (decide (hi < data.length)) late data (data.length + 1) (start - base)
  (head, r.1, r.2)

/-- One IU in length-prefixed mode. -/
def framePrefixed (w rl : Nat) (incl be : Bool) (base hi : Nat) (late : Bool) (data : List Byte) : Nat → Nat → List FRec
  | 0, _ => []
  | k + 1, p =>
    let bad : List FRec := [⟨base + p, [], .malformed, false, late⟩]
    if hi ≤ p then []
    else if hi - p < w then (if ((data.take hi).drop p).any (· != 0) then bad else [])
    else
      let pre := (data.drop p).take w
      let v := leVal (if be then pre.reverse else pre)
      let total := if incl then v else w + v
      if v = 0 then []
      else if (incl ∧ v < w) ∨ rl < total ∨ hi < p + total then bad
      else ⟨base + p, (data.drop p).take total, .good, false, late⟩ :: framePrefixed w rl incl be base hi late data k (p + total)

/-- Delimited records after an RDELIM, from byte `p` on. -/
def delimFrom (rl : Nat) (rd : Byte) (base hi : Nat) (cutByRange late : Bool) (data : List Byte) : Nat → Nat → List FRec × Frag
  | 0, _ => ([], .none)
  | k + 1, p =>
    let rest := (data.take hi).drop p
    let body := rest.takeWhile (· != rd)
    if body.length < rest.length then
      let r := delimFrom rl rd base hi cutByRange late data k (p + body.length + 1)
      (if body.length ≤ rl then ⟨base + p, body, .good, false, late⟩ :: r.1 else ⟨base + p, [], .malformed, false, late⟩ :: r.1, r.2)
    else if rl < body.length then ([⟨base + p, [], .malformed, false, late⟩], .none)
    else if cutByRange then (if body.isEmpty then [] else [⟨base + p, [], .truncated, false, late⟩], .none)
    else ([], .part (base + p) body late)

/-- One IU in delimited mode. The head fragment keeps its RDELIM, by which the joiner tells that the record ends. -/
def frameDelimited (rl : Nat) (rd : Byte) (base lo hi : Nat) (late : Bool) (data : List Byte) : Frag × List FRec × Frag :=
  let rest := (data.take hi).drop lo
  let h := rest.takeWhile (· != rd)
  if h.length < rest.length then
    let r := delimFrom rl rd base hi (decide (hi < data.length)) late data (data.length + 1) (lo + h.length + 1)
    (.part (base + lo) (h ++ [rd]) late, r.1, r.2)
  else (.part (base + lo) rest late, [], .none)

/-- Records of a native block's payload, each with its 2-byte length as the filter sees it (log 63). -/
def nativeRecs (off : Nat) (late : Bool) : Nat → List Byte → List FRec
  | 0, _ => []
  | k + 1, p =>
    if p.isEmpty then []
    else
      let n := 2 + leVal (p.take 2)
      if p.length < 2 ∨ p.length < n then [⟨off, [], .malformed, false, late⟩]
      else ⟨off, p.take n, .good, false, late⟩ :: nativeRecs off late k (p.drop n)

/-- One IU of native block records: its records, and the methods of the blocks expanded. Fewer than 16 bytes left end the blocks (log 63). -/
def frameNative (off : Nat) (late : Bool) : Nat → List Byte → List FRec × List Nat
  | 0, _ => ([], [])
  | k + 1, src =>
    if src.length < 16 ∨ (src.take 16).all (· == 0) then ([], [])
    else match natValid src with
      | none => ([⟨off, [], .badBlock, false, late⟩], [])
      | some (o, used, m) =>
        let r := frameNative off late k (src.drop used)
        (nativeRecs off late (o.length + 1) o ++ r.1, m :: r.2)

/-- Joins the two sides of a boundary (R180, R182, R183). -/
def joinFrags (framing rl : Nat) (rd : Byte) (t h : Frag) : List FRec :=
  let lost : List FRec := [⟨0, [], .truncated, false, false⟩]
  match t, h with
  | .gone true, _ => lost
  | _, .gone true => lost
  | .gone false, .part _ b _ => if b.isEmpty then [] else lost
  | .part _ b _, .gone false => if b.isEmpty then [] else lost
  | .part o a l1, .part _ b l2 =>
    let seam := !a.isEmpty && !b.isEmpty
    let late := l1 || l2
    if framing = 0 then
      if a.length + b.length < rl then [⟨o, [], .truncated, seam, late⟩] else [⟨o, (a ++ b).take rl, .good, seam, late⟩]
    else if b.getLast? = some rd then
      let body := a ++ b.dropLast
      if rl < body.length then [⟨o, [], .malformed, seam, late⟩] else [⟨o, body, .good, seam && decide (1 < b.length), late⟩]
    else if rl < a.length + b.length then [⟨o, [], .malformed, seam, late⟩]
    else [⟨o, [], .truncated, seam, late⟩]
  | .part o a l, .none => if framing = 0 ∨ a.isEmpty then [] else [⟨o, [], .truncated, false, l⟩]
  | .none, _ => []
  | .gone false, .gone false => []
  | .gone false, .none => []

end Sys2Proof.Machine
end

