-- ==== Sys2Proof/Machine/FtlRows.lean ====
section
/-! DEFINITION. Rows FILL_RECOMPUTE to BACKGROUND_MAP_LOAD, JOURNAL_FLUSH_DONE and RELOCATION: the translation layer's
own work (R125–R145). -/

namespace Sys2Proof.Machine

/-- Once a second, and when a deallocation completes, fill, target and folding policy are recomputed; what holds nothing is erased, and new
landing space lets waiting writes land (R128–R132). -/
def execFillRecompute (s : State) : Out := .next (applyAll (releaseLanding (reclaim (recomputeFill s))))

/-- Units of data an SLC superblock holds now. -/
def landingUnits (s : State) : Nat := ((workChans s).length - 1) * 3072

/-- Free landing units of the dynamic and the static part (R128, R151). -/
def landingFree (static : Bool) (s : State) : Nat :=
  landPool static s * landingUnits s - (s.ftl.sbs.filter (fun e => e.2.slc && e.2.static == static)).foldl
    (fun n e => n + (if e.2.use = .landing ∨ e.2.use = .preparing then usedUnits e.2 else landingUnits s)) 0

/-- Free landing space is below 50 % (R132). -/
def landingBelowHalf (s : State) : Bool :=
  decide (2 * (landingFree false s + landingFree true s) < (staticSbs s + s.ftl.dynTarget) * landingUnits s)

/-- Landed units of superblock `i` on channel `c` that no fold has yet. -/
def unfolded (i c : Nat) (s : State) : List Nat :=
  (unitsOn i c s).filter (fun k => !s.ftl.folds.any (fun m => m.slots.any (fun p => p.1 == k)))

/-- A channel folds the landed data of superblock `i`: it has some, works, and has room in its 512 KiB fold buffer, which takes the pages of
two wordlines (R154). -/
def foldsOn (i c : Nat) (s : State) : Bool :=
  !(chanAt c s).retired && decide ((s.ftl.folds.filter (fun m => m.slots.any (fun p => p.2 == c))).length < 2) && !(unfolded i c s).isEmpty

/-- A wordline of up to 16 landed units of superblock `source` is read into the fold buffer of its channel and its QLC program queued there
(R131, R154). With EAGER_FOLD 0 it waits until space is short or, `quiet`, no write has arrived for 1 s (R132). -/
def execFoldStart (source : Nat) (quiet : Bool) (s : State) : Out :=
  let b := sbAt source s
  if relocationRuns s ∧ b.slc ∧ (b.use = .landing ∨ b.use = .full) ∧ (s.ftl.eager ∨ landingBelowHalf s ∨ quiet) then
    match (List.range 32).find? (fun c => foldsOn source c s) with
    | none => .next s
    | some c => .next (foldUnits c source (unfolded source c s) true s)
  else .next s

/-- The QLC program of a fold ends, the earliest of superblock `source`: its units, but those of `bad` that failed every read step, change
their map entry and free their landing pages; a failed program makes its block suspect and is made again (R131, R138). In Read-Only folding
has stopped, and the units stay where they have landed (R149). -/
def execFoldProgramDone (source : Nat) (ok : Bool) (bad : List Nat) (s : State) : Out :=
  match s.ftl.folds.find? (fun m => m.source == source) with
  | none => .next s
  | some m =>
    let c := (m.slots.headD (0, 0)).2
    if mode s = 10 then .next (dropFold m s)
    else if ok then .next (applyAll (releaseLanding (finishMove m bad (dropFold m s))))
    else
      let s1 := programFailed m.target c (countQlc m.slots (dropFold m s))
      .next (foldUnits c source ((stillThere m s).map (·.1)) false s1)

/-! ### Relocation in the order of R136 -/

/-- A copy out of the superblock is under way. -/
def copying (i : Nat) (s : State) : Bool := s.ftl.copies.any (fun m => m.source == i)

/-- Data on suspect blocks, or on QLC blocks that an interrupted program closed (R138, R167): the superblock and the units. -/
def suspectSource (s : State) : Option (Nat × List Nat) :=
  (s.ftl.sbs.find? (fun e => !(e.2.suspect ++ e.2.unstable).isEmpty && !copying e.1 s)).map
    (fun e => (e.1, (e.2.suspect ++ e.2.unstable).flatMap (fun c => unitsOn e.1 c s)))

/-- A superblock that holds a block on a retired channel (R170). -/
def retiredSource (s : State) : Option Nat :=
  (s.ftl.sbs.find? (fun e => e.2.use == .full && !copying e.1 s && e.2.blocks.any (fun p => (chanAt p.1 s).retired))).map (·.1)

/-- The superblock next to be discarded (R141). -/
def discardSource (s : State) : Option Nat :=
  (s.ftl.discard.find? (fun d => (SMap.find s.ftl.sbs d.1).any (fun b => b.use != .erasing) && !copying d.1 s)).map (·.1)

/-- Smallest wear of a superblock's blocks. -/
def sbWear (b : Sb) (s : State) : Nat := b.blocks.foldl (fun n e => min n (blkAt e.1 e.2 s).wear) 16777215

/-- The full superblock to relocate for its wear: the one with the least-worn block, where wear differs by more than 4,000 units (R134).
DESIGN CHOICE (log entry 15): a superblock is as worn as its least-worn block. -/
def wearSource (s : State) : Option Nat :=
  if wearMin s + 4000 < wearMax s then
    s.ftl.sbs.foldl (fun (b : Option Nat) e =>
      if e.2.use = .full ∧ ¬ copying e.1 s then
        (match b with
        | none => some e.1
        | some i => if sbWear e.2 s < sbWear (sbAt i s) s then some e.1 else b)
      else b) none
  else none

/-- A full superblock with blocks queued for refresh, and those blocks' channels (R173). -/
def refreshSource (s : State) : Option (Nat × List Nat) :=
  let due (e : Nat × Sb) : List Nat := (e.2.blocks.filter (fun p => (blkAt p.1 p.2 s).refresh)).map (·.1)
  (s.ftl.sbs.find? (fun e => e.2.use == .full && !copying e.1 s && !(due e).isEmpty)).map (fun e => (e.1, due e))

/-- Work of a place in the relocation order of R136 waits to be begun. -/
def workAt (k : Nat) (s : State) : Bool :=
  match k with
  | 1 => reserveLow s && (gcVictim s).isSome
  | 2 => (suspectSource s).isSome
  | 3 => (retiredSource s).isSome
  | 4 => (discardSource s).isSome
  | 5 => (wearSource s).isSome || (refreshSource s).isSome
  | _ => (gcVictim s).isSome

/-- Relocation runs, and nothing that goes ahead of place `k` waits (R136). DEDUCED (log entry 15): work begun holds up no other. -/
def turnOf (k : Nat) (s : State) : Bool := relocationRuns s && (List.range k).all (fun j => j == 0 || !workAt j s)

/-- Garbage collection picks its victim and copies its valid units (R133): first of all below 1.5 times the reserve, else last (R136). -/
def execGarbageCollection (s : State) : Out :=
  if turnOf (if reserveLow s then 1 else 6) s then
    match gcVictim s with
    | none => .next s
    | some v => .next (vacate v s)
  else .next s

/-- A copy from superblock `source` lands: its units change their map entry and the source is queued for erase when all have moved. A
program failed on channel `badChan`: its block is suspect, the units of the failed program are copied again from the source, and the source
is not erased while the suspect block holds data (R139). In Read-Only collection has stopped (R149). -/
def execGcCopyLanded (source : Nat) (ok : Bool) (badChan : Nat) (bad : List Nat) (s : State) : Out :=
  match s.ftl.copies.find? (fun m => m.source == source) with
  | none => .next s
  | some m =>
    if mode s = 10 then .next (dropCopy m s)
    else if ok then .next (applyAll (releaseLanding (finishMove m bad (dropCopy m s))))
    else if ¬ m.slots.any (fun p => p.2 == badChan) then .next s
    else
      let s1 := programFailed m.target badChan (countQlc (m.slots.filter (fun p => p.2 == badChan)) (dropCopy m s))
      let b := sbAt source s1
      let s2 := setSb source { b with waits := b.waits ++ [(m.target, badChan)] } s1
      let again := ((stillThere m s).filter (fun p => p.2 == badChan && !bad.contains p.1)).map (·.1)
      let s3 := finishMove { m with slots := m.slots.filter (fun p => p.2 != badChan) } bad s2
      .next (applyAll (releaseLanding (copyUnits source again (forEach markUncorrectable (bad.filter (fun k => m.slots.contains (k, badChan))) s3))))

/-- The least-worn full superblock is relocated when wear differs by more than 4,000 units (R134). -/
def execWearLevelling (s : State) : Out :=
  if turnOf 5 s then
    match wearSource s with
    | none => .next s
    | some i => .next (vacate i s)
  else .next s

/-- A queued superblock has its valid data relocated and is erased (R141). -/
def execSecureDiscard (s : State) : Out :=
  if turnOf 4 s then
    match discardSource s with
    | none => .next s
    | some i => .next (vacate i (setSb i { sbAt i s with use := .full } s))
  else .next s

/-- Relocation of data on suspect or unstable blocks, of superblocks with a block on a retired channel, and of blocks queued for refresh, in
the order of R136 and R173. A block with no data left is retired, erased or no longer queued. -/
def execRelocation (s : State) : Out :=
  if turnOf 2 s then
    match suspectSource s with
    | some (i, []) => .next (queueErase i (releaseBlocks i s))
    | some (i, us) => .next (startCopyOf i us s)
    | none =>
      match retiredSource s with
      | some i => .next (vacate i s)
      | none =>
        if ¬ turnOf 5 s then .next s
        else match refreshSource s with
          | none => .next s
          | some (i, cs) =>
            match cs.flatMap (fun c => unitsOn i c s) with
            | [] => .next (forEach (fun c t => updBlkOf i c (fun x => { x with refresh := false }) t) cs s)
            | us => .next (startCopyOf i us s)
  else .next s

/-! ### Journal and map pages -/

/-- A flush of the journal buffer starts (R144). -/
def execJournalFlush (s : State) : Out := .next (journalFlush s)

/-- The flush has been programmed; completions that waited on 4 MiB unflushed go on (R144). -/
def execJournalFlushDone (s : State) : Out := .next (ftlJournalOnFlash s)

/-- A checkpoint is written when 256 MiB of journal has been written since the last (R144), or, the journal flushed first, to end the
shutdown of the last enabled controller (R107). -/
def execCheckpoint (s : State) : Out :=
  if awaitsCheckpoint s then .next (shutdownWritten (applyAll (ftlFlushAndCheckpoint s)))
  else if 268435456 ≤ s.ftl.sinceCkpt then .next (applyAll (checkpoint s)) else .next s

/-- The map writer has written a dirty page; map changes that waited for the dirty limit go on (R124). -/
def execMapPageWritten (page : Nat) (s : State) : Out :=
  if s.ftl.dirty.contains page then
    let s1 := slcPages [page] (dropOps (fun o => mapWrite o && o.key == page) s)
    .next (applyAll (mapWriter { s1 with ftl := { s1.ftl with dirty := s1.ftl.dirty.filter (· != page), metaPages := s1.ftl.metaPages + 1 } }))
  else .next s

/-- One map page is loaded in the background, until the cache is full or the map complete (R125). -/
def execBackgroundMapLoad (s : State) : Out :=
  match bgPage s with
  | none => .next { s with ftl := { s.ftl with bgLoad := none } }
  | some q =>
    let s1 := endOps (fun o => o.use == .mapPage && o.cls == 3) { s with ftl := { s.ftl with bgLoad := some (q + 1) } }
    .next (bgQueue (if s.ftl.cached.contains q then s1 else wakeReads (cachePage q s1)))

end Sys2Proof.Machine
end

