-- ==== Sys2Proof/Machine/HostIo.lean ====
section
/-! DEFINITION. Doorbells, fetching and the NVM I/O commands: rows DOORBELL_WRITE to VERIFY and COPY, FLUSH, ABORT,
ASYNCHRONOUS_EVENT_REQUEST and HELD_WRITE_TIMEOUT (R17–R20, R43, R89–R103, R109, R515). -/

namespace Sys2Proof.Machine

/-! ### Doorbells and fetching -/

/-- An Error status asynchronous event, Invalid Doorbell Write Value (R95). -/
def badDoorbell (c : Nat) (s : State) : State := raiseAen [c] 0 1 0x01 s

/-- A tail doorbell lands in its pigeonhole and raises a work letter (R26); a tail beyond the queue is reported and
ignored (R95). -/
def tailDoorbell (ctrl q tail : Nat) (s : State) : State :=
  match sqAt ctrl q s with
  | none => s
  | some k =>
    if k.size ≤ tail then badDoorbell ctrl s
    else raisePigeon ctrl q (updSq ctrl q (fun k => { k with tail := tail }) s)

/-- A head doorbell: a head not yet consumed is ignored with an event (R95); otherwise entries free, held completions
are posted and fetching of the bound queues resumes (R94). The work of its letter (R26) is done with it. -/
def headDoorbell (ctrl q head : Nat) (s : State) : State :=
  match cqAt ctrl q s with
  | none => s
  | some k =>
    let n := max k.size 1
    let adv := (head + n - k.head % n) % n
    if k.size ≤ head ∨ (k.tail + n - k.head % n) % n < adv then badDoorbell ctrl s
    else
      let s1 := updCq ctrl q (fun k => { k with head := head, posted := k.posted.drop adv }) s
      settleAll (postHeld ctrl q (k.held.length + 1) s1)

/-- Pigeonholes whose queue has nothing left to fetch are served. -/
def servePigeons (s : State) : State :=
  servePigeon (fun p => match sqAt p.1 p.2 s with
    | some k => k.head == k.tail
    | none => true) s

/-- Row COMMAND_FETCH (R26, R93, R96, R99): arbitration takes the next entry of the chosen queue, which asks for `k` on the LBA
range given. -/
def execCommandFetch (cid : Nat) (k : CmdKind) (nsid lba nlb : Nat) (s : State) : Out :=
  if mode s = 8 then .next s else .next (servePigeons (fetchCommand cid k nsid lba nlb s))

/-- Row TAG_FREED (R515): the tag that a posted completion freed first goes back. -/
def execTagFreed (s : State) : Out :=
  match s.nv.freedTags with
  | [] => .next s
  | (c, _) :: t => .next (returnTag c { s with nv := { s.nv with freedTags := t } })

/-- Row TRACKER_ENTRY_FREED (R99, R515): fetching resumes once an entry is free. -/
def execTrackerEntryFreed (s : State) : Out :=
  if (s.nv.cmds.filter (·.tracked)).length < 16384 then .next { s with nv := { s.nv with ovlPause := false } } else .next s

/-! ### Checks of an I/O command -/

/-- Reservation types whose exclusion covers reads. -/
def exclusive (t : Nat) : Bool := t == 2 || t == 4 || t == 6

/-- The host behind a controller, as its Host Identifier feature tells; without one each controller is a host of its own. -/
def hostOf (c : Nat) (s : State) : Nat :=
  match ctrlAt c s with
  | none => 2 ^ 128 + c
  | some x => let h := SMap.getD x.feats 0x81 0; if h = 0 then 2 ^ 128 + c else h

/-- A reservation forbids host `c` to read or write: exclusion of all but the holder, or of all but the
registrants. -/
def resvConflict (r : Resv) (c : Nat) (write : Bool) : Bool :=
  match r.holder with
  | none => false
  | some h =>
    let registered := r.regs.any (fun p => p.1 == c)
    if !write && !exclusive r.rtype then false
    else if r.rtype ≤ 2 then h != c else !registered

/-- The status an I/O command ends with before anything of it starts, if any: status code type, code and DNR. -/
def ioCheck (x : Cmd) (write : Bool) (s : State) : Option (Nat × Nat × Bool) :=
  match nsAt x.nsid s with
  | none => some (0, 0x0B, true)
  | some n =>
    if !sees n x.ctrl s then some (0, 0x0B, true)
    else if n.csi ≠ 0 then some (0, 0x01, true)
    else if 2097152 < x.nlb * lbaBytes n.flbas ∧ x.kind ≠ .dealloc then some (0, 0x02, true)
    else if n.nsze < x.lba + x.nlb then some (0, 0x80, true)
    else if mode s = 9 then some (0, 0x1D, false)
    else if write ∧ mode s = 10 then some (0, 0x20, true)
    else if n.keyLost then (if write then some (0, 0x20, true) else some (2, 0x81, true))
    else if resvConflict n.resv (hostOf x.ctrl s) write then some (0, 0x83, false)
    else none

/-- The command is still as it was fetched: its row has not been given yet, and no earlier Flush of an ordered queue holds it (R103). -/
def justFetched (tag : Nat) (kinds : List CmdKind) (s : State) : Option Cmd :=
  match cmdAt tag s with
  | some x => if x.phase = .fetched ∧ x.result.isNone ∧ kinds.contains x.kind ∧ ¬ heldByFlush x s then some x else none
  | none => none

/-! ### Writes (R17, R43, R118, R130) -/

/-- What a write must find unused in the share of a compressed namespace, in bytes: its uncompressed size rounded up to whole units; of a
deallocation, the units that it writes with zeros. DESIGN CHOICE (log entry 53): the size counts, not the units spanned. -/
def chargeOf (x : Cmd) (n : Ns) (s : State) : Nat :=
  if x.dealloc then (landed x s).length * 16384 else (x.nlb * lbaBytes n.flbas + 16383) / 16384 * 16384

/-- Unused physical share of a compressed namespace, in bytes (R118): what is stored, and what writes already admitted have yet to store, is
used. -/
def shareFree (nsid : Nat) (n : Ns) (s : State) : Nat :=
  n.ncap / lbasPerIu n.flbas * 16384 - nsStored nsid s -
    (s.nv.cmds.filter (fun y => y.admitted && y.result.isNone && y.nsid == nsid)).foldl (fun t y => t + chargeOf y n s) 0

/-- A write that has passed its checks: held while RESERVE_OK is 0 (R43) or during brace (R27); refused when a compressed share lacks room
(R118). Admitted, which it then stays, it waits for its map page (R124) or for landing space (R130); otherwise landing starts. -/
def admitWrite (tag : Nat) (s : State) : State :=
  match cmdAt tag s with
  | none => s
  | some x =>
    match nsAt x.nsid s with
    | none => endWrite tag 0 0x0B true s
    | some n =>
      if x.result.isSome then s
      else if mode s = 10 then endWrite tag 0 0x20 true s
      else if mode s = 8 ∨ (!x.admitted ∧ fget Fl.PWR_STATUS_RESERVE_OK s = 0) then setCmd { x with phase := .held } s
      else if nsCompressed n ∧ !x.admitted ∧ shareFree x.nsid n s < chargeOf x n s then endWrite tag 0 0x81 true s
      else
        let y := { x with admitted := true }
        match (changedPages x s).find? (fun p => !s.ftl.cached.contains p) with
        | some p => loadPage p (setCmd { y with phase := .waitMap p } s)
        | none => if landed x s = [] then applyAll (setCmd { y with phase := .waitJournal } s) else beginLanding y n (setCmd y s)

/-- A list of blocks as a map by LBA. -/
def blocksFrom : Nat → List LBlk → SMap LBlk
  | _, [] => []
  | lba, b :: t => (lba, b) :: blocksFrom (lba + 1) t

/-- A write of the given data is checked, protected and admitted; a failing check lands nothing (R91). -/
def startWrite (x : Cmd) (data : List LBlk) (pr : PrInfo) (s : State) : State :=
  match ioCheck x true s with
  | some (sct, sc, dnr) => endWrite x.tag sct sc dnr s
  | none =>
    match nsAt x.nsid s with
    | none => s
    | some n =>
      match (if pr.pract then none else checkBlocks n.dps n.flbas pr x.lba data) with
      | some (sc, lba) => endWrite x.tag 2 sc true (setCmd { x with lba := lba } s)
      | none =>
        let bs := (blocksFrom x.lba data).map (fun e => (e.1, protect n.dps n.flbas e.1 pr e.2))
        admitWrite x.tag (setCmd { x with wdata := bs, pr := pr, phase := .held } s)

/-- Row WRITE (R17): the command of this tag with the data the host transfers, one block for each LBA. -/
def execWrite (tag : Nat) (data : List LBlk) (pr : PrInfo) (s : State) : Out :=
  match justFetched tag [.write] s with
  | some x => if data.length = x.nlb then .next (startWrite x data pr s) else .next (applyAll (invalidField tag s))
  | none => .next s

/-- Landing programs of a command. -/
def landingOf (tag : Nat) (o : ChanOp) : Bool := o.use == .landing && o.tag == tag

/-- The landing programs of a command that ends leave the channels. -/
def dropLanding (tag : Nat) (s : State) : State := dropOps (landingOf tag) s

/-- Every SLC program of a write has succeeded: its map change follows in order, then its completion (R17, R18). A program
failed on channel `badChan`: the block is suspect and the data is landed again (R138). -/
def execLandingProgramDone (tag : Nat) (ok : Bool) (badChan : Nat) (s : State) : Out :=
  match cmdAt tag s with
  | none => .next s
  | some x =>
    let bad := x.places.filter (fun p => p.2.chan == badChan)
    if x.phase ≠ .started ∨ x.result.isSome ∨ ¬ writesKind x.kind ∨ (¬ ok ∧ bad = []) then .next s
    else
      let s1 := endOps (landingOf tag) s
      if ok then .next (applyAll (setCmd { x with phase := .waitJournal } s1))
      else
        let s2 := forEach (fun i t => programFailed i badChan t) ((bad.map (·.2.sb)).dedup) s1
        .next (landAgain tag (bad.map (·.1)) s2)

/-- Row WRITE_ZEROES (R97, R140): with DEAC whole units are deallocated and the rest written with zeros; without it zero
data is written through the write path. -/
def execWriteZeroes (tag : Nat) (deac : Bool) (pr : PrInfo) (s : State) : Out :=
  match justFetched tag [.write, .dealloc] s with
  | none => .next s
  | some x =>
    match ioCheck { x with kind := .dealloc } true s with
    | some (sct, sc, dnr) => .next (endWrite tag sct sc dnr s)
    | none =>
      match nsAt x.nsid s with
      | none => .next s
      | some n =>
        let zeros := blocksFrom x.lba (List.replicate x.nlb (zeroBlk n.flbas))
        let bs := if deac then zeros
          else zeros.map (fun e => (e.1, protect n.dps n.flbas e.1 { pr with pract := true } e.2))
        .next (admitWrite tag (setCmd { x with wdata := bs, dealloc := deac, phase := .held } s))

/-- Row DATASET_MANAGEMENT (R140): with the deallocate attribute its ranges (LBA and count) are deallocated or zeroed; the command stands
for the LBAs from the first to the last that they cover. -/
def execDatasetManagement (tag : Nat) (ad : Bool) (ranges : List (Nat × Nat)) (s : State) : Out :=
  match justFetched tag [.dealloc, .write] s with
  | none => .next s
  | some x =>
    if ¬ ad then .next (completeOk tag s)
    else
      match ioCheck { x with kind := .dealloc } true s with
      | some (sct, sc, dnr) => .next (endWrite tag sct sc dnr s)
      | none =>
        match nsAt x.nsid s with
        | none => .next s
        | some n =>
          if ranges.any (fun r => decide (n.nsze < r.1 + r.2)) then .next (endWrite tag 0 0x80 true s)
          else if 256 < ranges.length then .next (applyAll (invalidField tag s))
          else
            let rs := ranges.filter (fun r => r.2 != 0)
            let bs := rs.foldl (fun (m : SMap LBlk) r =>
              (List.range r.2).foldl (fun m i => SMap.put m (r.1 + i) (zeroBlk n.flbas)) m) []
            let lo := rs.foldl (fun m r => min m r.1) (match rs with | r :: _ => r.1 | [] => 0)
            let hi := rs.foldl (fun m r => max m (r.1 + r.2)) lo
            .next (admitWrite tag (setCmd { x with wdata := bs, lba := lo, nlb := hi - lo, dealloc := true, phase := .held } s))

/-! ### Reads -/

/-- A checked read makes its lookups. -/
def beginRead (x : Cmd) (s : State) : State :=
  match ioCheck x false s with
  | some (sct, sc, dnr) => complete x.tag sct sc dnr 0 [] s
  | none => applyAll (startRead x.tag (setCmd { x with phase := .held } s))

/-- Row READ (R20). -/
def execRead (tag : Nat) (pr : PrInfo) (s : State) : Out :=
  match justFetched tag [.read] s with
  | some x => .next (beginRead { x with pr := pr } s)
  | none => .next s

/-- Row VERIFY (R91): a read that checks protection and transfers nothing. -/
def execVerify (tag : Nat) (pr : PrInfo) (s : State) : Out :=
  match justFetched tag [.read] s with
  | some x => .next (beginRead { x with pr := pr, verifyOnly := true } s)
  | none => .next s

/-- Row COMPARE (R89): the LBAs read are compared with host data. -/
def execCompare (tag : Nat) (data : List LBlk) (pr : PrInfo) (s : State) : Out :=
  match justFetched tag [.read] s with
  | some x =>
    if data.length = x.nlb then .next (beginRead { x with pr := pr, compareOnly := true, wdata := blocksFrom x.lba data } s)
    else .next (invalidField tag s)
  | none => .next s

/-- Map pages that commands waited for have been loaded: their reads make their lookups and their writes are admitted
(R124). -/
def execMapPageLoadDone (page : Nat) (s : State) : Out :=
  let s1 := endOps (fun o => o.use == .mapPage && o.kind == .read && o.cls == 1 && o.key == page) s
  let writes := (s.nv.cmds.filter (fun x => x.result.isNone && writesKind x.kind && x.phase == .waitMap page)).map (·.tag)
  .next (applyAll (wakeReads (forEach admitWrite writes (cachePage page s1))))

/-! ### Fused Compare and Write, Copy, Flush (R89, R98, R102) -/

/-- Units of a range of a namespace. -/
def unitsOfLbas (lba nlb : Nat) (n : Ns) : List Nat :=
  let k := lbasPerIu n.flbas
  (List.range ((lba + nlb - 1) / k - lba / k + 1)).map (· + lba / k)

/-- Current blocks of a range; none when a unit of it is uncorrectable or is among those whose read fails every step. -/
def currentBlocks (nsid lba nlb : Nat) (n : Ns) (bad : List Nat) (s : State) : Option (List LBlk) :=
  if (unitsOfLbas lba nlb n).any (fun iu => match iuAt (mapKey nsid iu) s with | some u => u.uncorr || bad.contains iu | none => false) then none
  else some (blocksOf (lbasPerIu n.flbas) n.flbas (fun iu => iuData (mapKey nsid iu) s) lba nlb)

/-- The units of a range are read within the step; those of `bad` fail every step. -/
def readRange (nsid lba nlb : Nat) (n : Ns) (bad : List Nat) (s : State) : State :=
  forEach (fun iu t => readHere (mapKey nsid iu) (!bad.contains iu) t) (unitsOfLbas lba nlb n) s

/-- A map page of a range that is not in the cache. -/
def missingPage (nsid lba nlb : Nat) (n : Ns) (s : State) : Option Nat :=
  ((unitsOfLbas lba nlb n).map (pageKey nsid)).find? (fun p => !s.ftl.cached.contains p)

/-- The Compare of a fused pair fails with a status, and its Write with it. -/
def fusedFails (a b : Cmd) (sct sc : Nat) (dnr : Bool) (s : State) : State := endWrite b.tag 0 0x09 true (complete a.tag sct sc dnr 0 [] s)

/-- The Write of a fused pair whose compare has succeeded: it fails by its own checks, or is admitted (R91, R102). -/
def fusedWrite (b : Cmd) (data : List LBlk) (n : Ns) (s : State) : State :=
  match ioCheck b true s with
  | some (sct, sc, dnr) => endWrite b.tag sct sc dnr s
  | none =>
    match (if b.pr.pract then none else checkBlocks n.dps n.flbas b.pr b.lba data) with
    | some (sc, lba) => endWrite b.tag 2 sc true (setCmd { b with lba := lba } s)
    | none =>
      let bs := (blocksFrom b.lba data).map (fun e => (e.1, protect n.dps n.flbas e.1 b.pr e.2))
      admitWrite b.tag (setCmd { b with wdata := bs, phase := .held } s)

/-- The pair is judged: the unit is read, its protection checked and its LBAs compared; `bad`: the unit's read fails every step. -/
def runFused (a b : Cmd) (cmp data : List LBlk) (n : Ns) (bad : Bool) (s : State) : State :=
  let lost := if bad then iusOf a s else []
  let cur := currentBlocks a.nsid a.lba a.nlb n lost s
  let s := readRange a.nsid a.lba a.nlb n lost s
  match cur with
  | none => fusedFails a b 2 0x81 true s
  | some cur =>
    match checkBlocks n.dps n.flbas a.pr a.lba cur with
    | some (sc, lba) => fusedFails a b 2 sc true (setCmd { a with lba := lba } s)
    | none =>
      if (cur.zip cmp).all (fun p => sameBlk n.flbas (a.pr.pract && n.dps != 0) p.1 p.2) then fusedWrite b data n (completeOk a.tag s)
      else fusedFails a b 2 0x85 true s

/-- Row FUSED_COMPARE_AND_WRITE (R102): tags of the Compare and of the Write, and their data. Both are held together while RESERVE_OK is 0
(R43), while an earlier write of the unit is outstanding, and while its map page loads: the row is then given again. -/
def execFusedCompareAndWrite (tagC tagW : Nat) (cmp data : List LBlk) (pr : PrInfo) (bad : Bool) (s : State) : Out :=
  match justFetched tagC [.fusedPair] s, justFetched tagW [.fusedPair] s with
  | some a, some b =>
    if tagC = tagW then .next s
    else
    let both (sct sc : Nat) (dnr : Bool) : State := endWrite tagW sct sc dnr (complete tagC sct sc dnr 0 [] s)
    match nsAt a.nsid s with
    | none => .next (both 0 0x0B true)
    | some n =>
      let k := lbasPerIu n.flbas
      if a.nsid ≠ b.nsid ∨ a.lba ≠ b.lba ∨ a.nlb ≠ b.nlb ∨ a.nlb = 0 ∨ a.lba / k ≠ (a.lba + a.nlb - 1) / k ∨
          cmp.length ≠ a.nlb ∨ data.length ≠ b.nlb then .next (both 0 0x02 true)
      else
        match ioCheck { a with kind := .dealloc } false s with
        | some (sct, sc, dnr) => .next (fusedFails a b sct sc dnr s)
        | none =>
          if (mode s ≠ 10 ∧ fget Fl.PWR_STATUS_RESERVE_OK s = 0) ∨ mode s = 8 ∨ waitsForWrite a s then .next s
          else
            match missingPage a.nsid a.lba a.nlb n s with
            | some p => .next (loadPage p s)
            | none => .next (runFused { a with pr := pr } { b with pr := pr } cmp data n bad s)
  | _, _ => .next s

/-- An earlier write of the command's queue has yet to change a unit of a range (R100). -/
def earlierWrite (x : Cmd) (lba nlb : Nat) (n : Ns) (s : State) : Bool := (unitsOfLbas lba nlb n).any (fun iu => unitBlocked x iu s)

/-- The source range format that goes with a namespace's guard (R89): 1 for the 64-bit guard, else 0. -/
def copyFormat (n : Ns) : Nat := if n.flbas % 3 = 2 then 1 else 0

/-- Row COPY (R89): up to 128 source ranges of one namespace, 2 MiB at most, to the command's own LBA range; the reads of the units `bad` fail
every step. While an earlier write of its queue has a source unit to change (R100), or a map page loads, it waits: the row is then given
again. -/
def execCopy (tag fmt : Nat) (ranges : List (Nat × Nat)) (pr : PrInfo) (bad : List Nat) (s : State) : Out :=
  match justFetched tag [.copy] s with
  | none => .next s
  | some x =>
    match nsAt x.nsid s with
    | none => .next (endWrite tag 0 0x0B true s)
    | some n =>
      let total := ranges.foldl (fun t r => t + r.2) 0
      if 128 < ranges.length ∨ total * lbaBytes n.flbas > 2097152 then .next (endWrite tag 1 0x83 true s)
      else if total ≠ x.nlb ∨ fmt ≠ copyFormat n then .next (applyAll (invalidField tag s))
      else if ranges.any (fun r => decide (n.nsze < r.1 + r.2)) then .next (endWrite tag 0 0x80 true s)
      else
        match ioCheck { x with kind := .write } false s with
        | some (sct, sc, dnr) => .next (endWrite tag sct sc dnr s)
        | none =>
          if ranges.any (fun r => earlierWrite x r.1 r.2 n s) then .next s
          else
            match ranges.findSome? (fun r => missingPage x.nsid r.1 r.2 n s) with
            | some p => .next (loadPage p s)
            | none =>
              let parts := ranges.map (fun r => (r, currentBlocks x.nsid r.1 r.2 n bad s))
              let s := forEach (fun r t => readRange x.nsid r.1 r.2 n bad t) ranges s
              if parts.any (fun p => p.2.isNone) then .next (endWrite tag 2 0x81 true s)
              else
                match parts.findSome? (fun p => checkBlocks n.dps n.flbas pr p.1.1 (p.2.getD [])) with
                | some (sc, lba) => .next (endWrite tag 2 sc true (setCmd { x with lba := lba } s))
                | none => .next (startWrite x (parts.flatMap (fun p => p.2.getD [])) { pr with pract := true } s)

/-- Row FLUSH (R98): it completes when every earlier command of its queue for the namespace has. -/
def execFlush (tag : Nat) (s : State) : Out :=
  match justFetched tag [.flush] s with
  | some x => .next (settleAll (setCmd { x with phase := .started } s))
  | none => .next s

/-! ### Admission released or given up (R43, R49) -/

/-- Held writes in fetch order. -/
def heldWrites (s : State) : List Nat :=
  (s.nv.cmds.filter (fun x => x.result.isNone && writesKind x.kind && x.phase == .held)).map (·.tag)

/-- Writes held for the Commit reserve or by brace are admitted in order, as far as the reserve allows (R43, R49). -/
def hostAdmitHeld (s : State) : State := if mode s = 8 then s else forEach admitWrite (heldWrites s) s

/-- The other command of a fused pair that is still as it was fetched: pairs follow each other on their queue. -/
def fusedPartner (x : Cmd) (s : State) : Option Cmd :=
  let l := s.nv.cmds.filter (fun y => y.ctrl == x.ctrl && y.sq == x.sq && y.kind == .fusedPair && y.phase == .fetched && y.result.isNone)
  let i := l.findIdx (fun y => y.tag == x.tag)
  if l.length ≤ i then none else l[if i % 2 = 0 then i + 1 else i - 1]?

/-- Row HELD_WRITE_TIMEOUT (R43): a write held for 5 s ends with Hold-Up Reserve Low, both commands of a fused pair alike. -/
def execHeldWriteTimeout (tag : Nat) (s : State) : Out :=
  match cmdAt tag s with
  | none => .next s
  | some x =>
    if x.result.isNone ∧ writesKind x.kind ∧ ¬ x.admitted ∧ (x.phase = .held ∨ (x.kind = .fusedPair ∧ x.phase = .fetched)) ∧
        fget Fl.PWR_STATUS_RESERVE_OK s = 0 then
      let s1 := endWrite tag 7 0xC0 false (setCmd { x with wdata := [] } s)
      .next (match fusedPartner x s with
        | some y => if x.kind = .fusedPair then endWrite y.tag 7 0xC0 false s1 else s1
        | none => s1)
    else .next s

/-! ### Abort and asynchronous event requests (R89, R109) -/

/-- No media operation of the command has started (R109). -/
def notStarted (x : Cmd) : Bool :=
  x.result.isNone &&
    (match x.kind with
      | .read | .write | .dealloc | .fusedPair | .copy | .flush => !x.media
      | .admin | .memory | .program | .resv | .unsupported =>
        (match x.phase with
          | .fetched | .held | .waitMap _ | .waitLanding => true
          | .started | .merging | .waitJournal | .done => false))

/-- Row ABORT (R109): a command not yet started ends with Command Abort Requested; otherwise dword 0 bit 0 says not
aborted. A ninth Abort outstanding on the controller ends with Abort Command Limit Exceeded (R89; the code is NVMe's). -/
def execAbort (tag sqid cid : Nat) (s : State) : Out :=
  match justFetched tag [.admin] s with
  | none => .next s
  | some x =>
    let s := setCmd { x with abort := true } s
    if 8 ≤ (s.nv.cmds.filter (fun y => y.ctrl == x.ctrl && y.abort && y.tag != tag)).length then .next (complete tag 1 0x03 false 0 [] s)
    else
    match s.nv.cmds.find? (fun y => y.ctrl == x.ctrl && y.sq == sqid && y.cid == cid && y.tag != tag) with
    | some y =>
      match s.prog.execs.find? (fun e => e.2.tag == y.tag) with
      | some e => if y.result.isSome then .next (completeDw tag 1 s) else .next (completeDw tag 0 (recordEnd e.1 4 0 0 0 s))
      | none =>
      if notStarted y then
        let s0 := { s with prog := { s.prog with waiting := s.prog.waiting.filter (fun w => w.1 != y.tag) } }
        let s1 := updCtrl x.ctrl (fun c => { c with aers := c.aers.filter (· != y.tag) }) s0
        .next (completeDw tag 0 (endWrite y.tag 0 0x07 false s1))
      else .next (completeDw tag 1 s)
    | none => .next (completeDw tag 1 s)

/-- Row ASYNCHRONOUS_EVENT_REQUEST (R89): held until an enabled event is reported, 16 at most. -/
def execAsynchronousEventRequest (tag : Nat) (s : State) : Out :=
  match justFetched tag [.admin] s with
  | none => .next s
  | some x =>
    match ctrlAt x.ctrl s with
    | none => .next s
    | some c =>
      if c.aers.contains tag then .next s
      else if 16 ≤ c.aers.length then .next (complete tag 1 0x05 true 0 [] s)
      else
        let s1 := updCtrl x.ctrl (fun c => { c with aers := c.aers ++ [tag] }) s
        .next (deliverAens (s1.nv.aens.length + 1) (setCmd { x with phase := .held } s1))

end Sys2Proof.Machine
end

