-- ==== Sys2Proof/Machine/ScanOps.lean ====
section
/-! DEFINITION. Scan jobs from submission to result block; rows SCAN to SCAN_JOB_COMPLETE (R177–R204, R393). -/

namespace Sys2Proof.Machine

/-! ### Jobs -/

/-- A job by number. -/
def scanAt (n : Nat) (s : State) : Option ScanJob := s.scan.jobs.find? (fun j => j.num == n)

/-- Replaces a job. -/
def setScan (j : ScanJob) (s : State) : State :=
  { s with scan := { s.scan with jobs := s.scan.jobs.map (fun x => if x.num = j.num then j else x) } }

/-- Removes a job. -/
def dropScan (n : Nat) (s : State) : State := { s with scan := { s.scan with jobs := s.scan.jobs.filter (fun j => j.num != n) } }

/-- Running jobs and waiting jobs. -/
def scansRunning (s : State) : List ScanJob := s.scan.jobs.filter (fun j => j.run.isSome)
def scansWaiting (s : State) : List ScanJob := s.scan.jobs.filter (fun j => j.run.isNone)

/-- Counters of log page 0xCD stop at all ones. -/
def cap64 (n : Nat) : Nat := Nat.min n (2 ^ 64 - 1)

/-! ### Descriptors (R177) -/

/-- Decodes a descriptor; none where its own bytes break the table. `malfDefault` and `timeDefault` are feature 0xC1. -/
def scanDescOf (bs : List Byte) (malfDefault timeDefault : Nat) : Option ScanDesc :=
  let pol := fieldAt bs 6 1
  let d : ScanDesc :=
    { nsid := fieldAt bs 0 4, framing := fieldAt bs 4 1, outmode := fieldAt bs 5 1
      malf := if pol % 4 = 3 then malfDefault else pol % 4
      dealloc := bitAt bs 6 2, unread := bitAt bs 6 3, ring := bitAt bs 6 4, prefixIncl := bitAt bs 6 5, prefixBe := bitAt bs 6 6
      prefixW := fieldAt bs 7 1, slba := fieldAt bs 8 8, nlb := fieldAt bs 16 8, base := fieldAt bs 24 8, reclen := fieldAt bs 32 2
      rdelim := bs.getD 34 0, fdelim := bs.getD 35 0, quote := bs.getD 36 0
      patCount := fieldAt bs 37 1, instrCount := fieldAt bs 38 2, patOff := fieldAt bs 40 2, patLen := fieldAt bs 42 2
      timeLimit := if fieldAt bs 44 4 = 0 then timeDefault else fieldAt bs 44 4
      codeAddr := fieldAt bs 48 8, patAddr := fieldAt bs 56 8
      consts := (List.range 8).map (fun k => BitVec.ofNat 64 (fieldAt bs (64 + 8 * k) 8))
      outAddr := fieldAt bs 128 8, outSize := fieldAt bs 136 8, resultAddr := fieldAt bs 144 8 }
  if 3 < d.framing ∨ 3 < d.outmode ∨ 128 ≤ pol ∨
      (if d.framing = 1 then d.prefixW ≠ 1 ∧ d.prefixW ≠ 2 ∧ d.prefixW ≠ 4 else d.prefixW ≠ 0) ∨
      d.nlb = 0 ∨ d.reclen < 4 ∨ 16384 < d.reclen ∨ 64 < d.patCount ∨ d.instrCount = 0 ∨ 256 < d.instrCount ∨
      d.codeAddr % 8 ≠ 0 ∨ d.outAddr % 4096 ≠ 0 ∨ d.resultAddr % 64 ≠ 0 ∨
      (d.outSize < 131072 ∧ ¬ (d.outSize = 0 ∧ d.outmode = 3)) ∨ (bs.drop 152).any (· != 0) then none
  else some d

/-- The range, BASE and addresses of a descriptor agree with the namespace and the submitter's memory. -/
def scanDescFits (sp : Space) (func : Nat) (d : ScanDesc) (s : State) : Bool :=
  match nsAt d.nsid s with
  | none => false
  | some n =>
    n.csi == 0 && n.attached.contains (cntlidOf func s) && decide (d.slba + d.nlb ≤ n.nsze) &&
    (d.framing != 0 || decide (d.base ≤ d.slba * lbaBytes n.flbas)) &&
    (!(d.framing == 1 || d.framing == 3) || (d.slba % lbasPerIu n.flbas == 0 && d.nlb % lbasPerIu n.flbas == 0)) &&
    (List.range (8 * d.instrCount)).all (fun i => (xlate sp false (d.codeAddr + i) s).isSome) &&
    (d.patCount == 0 || (List.range (36 * d.patCount)).all (fun i => (xlate sp false (d.patAddr + i) s).isSome)) &&
    writable sp d.outAddr d.outSize s && writable sp d.resultAddr 2048 s

/-- Patterns of a set; none when an entry's length is 0 or above 32 (R190). -/
def patternsOf : Nat → List Byte → Option (List (List Byte × Bool))
  | 0, _ => some []
  | n + 1, bs =>
    let len := fieldAt bs 32 1
    if len = 0 ∨ 32 < len then none
    else (patternsOf n (bs.drop 36)).map (fun t => (bs.take len, bitAt bs 33 0) :: t)

/-! ### Result blocks and ending (R195–R197, R201, R393) -/

/-- Accumulators merged over channels in order 0 to 31 (R195). -/
def mergedAcc (r : ScanRun) (k : Nat) : Acc :=
  match accOp (r.code.map finsOf) k with
  | none => ⟨0, false, false⟩
  | some op => (List.range 32).foldl (fun a c => match SMap.find r.accs c with
      | none => a
      | some l => Acc.merge op a (l.getD k (Acc.fresh op))) (Acc.fresh op)

/-- First and last unit of a job's range. -/
def scanIus (d : ScanDesc) (s : State) : Nat × Nat := (d.slba / nsK d.nsid s, (d.slba + d.nlb - 1) / nsK d.nsid s)

/-- RESUME_LBA: the first LBA of the lowest unit not wholly evaluated (R196). -/
def resumeLba (r : ScanRun) (s : State) : Nat :=
  let p := scanIus r.desc s
  match ((List.range (p.2 - p.1 + 1)).map (· + p.1)).find? (fun iu => !r.done.contains iu) with
  | some iu => max r.desc.slba (iu * nsK r.desc.nsid s)
  | none => r.desc.slba + r.desc.nlb

/-- The result block of a job that ran (R196). Where no status gives RESUME_LBA a meaning it holds a free value. -/
def resultBlock (status : Nat) (r : ScanRun) (s : State) : List Byte :=
  let c := r.cnt
  let accs := (List.range 8).map (mergedAcc r)
  let bits (f : Acc → Bool) : Nat := (accs.zipIdx.map (fun p => if f p.1 then 2 ^ p.2 else 0)).sum
  let resume := if status = 1 ∨ status = 2 ∨ status = 3 ∨ status = 6 ∨ status = 10 then resumeLba r s else freeNat 64 s
  leBytes 1 status ++ leBytes 3 0 ++ leBytes 4 (r.work.map (fun n => 2 ^ n)).sum ++ leBytes 8 resume
    ++ leBytes 8 c.read ++ leBytes 8 c.framed ++ leBytes 8 c.selected ++ leBytes 8 c.malformed ++ leBytes 8 c.truncated
    ++ leBytes 8 c.seam ++ leBytes 8 c.late ++ leBytes 8 c.dealloc ++ leBytes 8 c.unread
    ++ leBytes 8 (r.firstBad.getD (2 ^ 64 - 1)) ++ leBytes 8 c.probes ++ leBytes 8 r.outBytes ++ leBytes 16 0
    ++ accs.flatMap (fun a => leBytes 8 a.val.toNat) ++ leBytes 1 (bits (·.ovf)) ++ leBytes 1 (bits (·.valid)) ++ leBytes 62 0
    ++ (List.range 32).flatMap (fun n => leBytes 8 (SMap.getD r.used n 0)) ++ leBytes 1536 0

/-- The result block of a job that was not run: nothing counted, no unreadable LBA, a free RESUME_LBA. -/
def notRunBlock (status index resume : Nat) : List Byte :=
  leBytes 1 status ++ leBytes 1 0 ++ leBytes 2 index ++ leBytes 4 0 ++ leBytes 8 resume ++ leBytes 72 0 ++ leBytes 8 (2 ^ 64 - 1) ++ leBytes 1952 0

/-- Tells whoever submitted a job how it ended (R393). -/
def scanAnswer (j : ScanJob) (status index : Nat) (s : State) : State :=
  let s1 := match j.letter with
    | some l => { s with scan := { s.scan with ends := s.scan.ends ++ [(l, status)] } }
    | none => s
  match j.tag with
  | none => s1
  | some t =>
    if status = 0 then completeBoth t 0 0 false 0 j.num [] s1
    else if status = 7 ∨ status = 8 ∨ status = 9 then
      completeBoth t 7 0xD5 (status != 9) (status + (if status = 8 then index * 65536 else 0)) j.num [] s1
    else completeBoth t 7 0xD4 (status == 4) status j.num [] s1

/-- A job that does not run: result block with status 7, 8 or 9, and its answer. -/
def scanNotRun (j : ScanJob) (resultAddr status index : Nat) (s : State) : State :=
  let s1 := if resultAddr % 64 = 0 ∧ writable j.sp resultAddr 2048 s then useFree (writeSpace j.sp resultAddr (notRunBlock status index (freeNat 64 s)) s) else s
  scanAnswer j status index { (dropScan j.num s1) with scan := { (dropScan j.num s1).scan with notRun := cap64 (s1.scan.notRun + 1) } }

/-- The context registers of a channel's filter (R204): state 0 frees the context. -/
def showCtx (c : Nat) (j : ScanJob) (d : ScanDesc) (state : Nat) (n : Nat) (s : State) : State :=
  let on := decide (state ≠ 0)
  let v (x : Nat) : Nat := if on then x else 0
  s |> fset (Fl.CHE_SF_CTX_STATE_STATE n c) state |> fset (Fl.CHE_SF_CTX_STATE_FRAMING n c) (v d.framing)
    |> fset (Fl.CHE_SF_CTX_STATE_OUTMODE n c) (v d.outmode) |> fset (Fl.CHE_SF_CTX_STATE_RING n c) (v (if d.ring then 1 else 0))
    |> fset (Fl.CHE_SF_CTX_JOB_JOB n c) (v j.num) |> fset (Fl.CHE_SF_CTX_JOB_FUNC n c) (v j.func)
    |> fset (Fl.CHE_SF_CTX_JOB_PROG n c) (v (if j.exec.isSome then 1 else 0))
    |> fset ⟨Reg.CHE_SF_STATUS n, c, 1⟩ (if on then 1 else 0) |> fset ⟨Reg.CHE_SF_STATUS n, 4 + c, 1⟩ 0

/-- The reads of a job that have not gone to their dies leave their channels. -/
def dropScanReads (num : Nat) (s : State) : State :=
  let is (o : ChanOp) : Bool := o.use == .scan && o.tag == num
  forEach (fun e t => setChan e.1 { e.2 with
      queue := e.2.queue.filter (fun o => !is o), backoff := e.2.backoff.filter (fun o => !is o), rebuilds := e.2.rebuilds.filter (fun r => !is r.op) } t)
    (s.media.chans.filter (fun e => e.2.queue.any is || e.2.backoff.any is || e.2.rebuilds.any (fun r => is r.op))) s

/-- Bytes of a fragment side that holds data. -/
def fragHeld (f : Option Frag) : Nat :=
  match f with
  | some (.part _ b _) => if b.isEmpty then 0 else 1
  | _ => 0

/-- Unpaired fragments count as truncated records (R183). -/
def dropFrags (r : ScanRun) : ScanRun :=
  let n := (r.frags.map (fun e => fragHeld e.2.1 + fragHeld e.2.2)).sum
  { r with frags := [], cnt := { r.cnt with framed := r.cnt.framed + n, truncated := r.cnt.truncated + n } }

/-- A running job ends: fragments dropped, contexts freed, the result block written last where `write`, totals of log page
0xCD, and the answer. -/
def scanEnd (j : ScanJob) (status : Nat) (write : Bool) (s : State) : State :=
  match j.run with
  | none => s
  | some r0 =>
    let r := dropFrags r0
    let s1 := dropScanReads j.num (forEach (showCtx r.ctx j r.desc 0) r.work s)
    let ovf := (List.range 8).any (fun k => (mergedAcc r k).ovf)
    let s2 := if ovf then raiseEvent 0x07 (r.work.headD 0) (Fl.CHE_SF_EVENT_AGG_OVF (r.work.headD 0)) s1 else s1
    let s3 := if write then useFree (writeSpace j.sp r.desc.resultAddr (resultBlock status r s2) s2) else s2
    let z := s3.scan
    scanAnswer j status 0 { s3 with scan := { z with
      jobs := z.jobs.filter (fun x => x.num != j.num)
      ended0 := if status = 0 then cap64 (z.ended0 + 1) else z.ended0
      endedOther := if status = 0 then z.endedOther else cap64 (z.endedOther + 1)
      bytes := cap64 (z.bytes + 16384 * r.cnt.read)
      outBytes := cap64 (z.outBytes + r.outBytes)
      total := ScanCnt.add z.total r.cnt } }

/-- Every job on a namespace stops at once with status 4 (R201). -/
def scanAbortNs (nsid : Nat) (s : State) : State :=
  forEach (fun j t => if j.run.any (fun r => r.desc.nsid == nsid || nsid == 0xFFFFFFFF) then scanEnd j 4 true t else t) s.scan.jobs s

/-- Jobs for which `p` holds end with status 5: running ones with or without a result block, waiting ones likewise (R201). -/
def scanAbort5 (p : ScanJob → Bool) (write : Bool) (s : State) : State :=
  forEach (fun j t =>
      if ¬ p j then t
      else if j.run.isSome then scanEnd j 5 write t
      else
        let ra := fieldAt ((readSpace j.sp j.addr 256 t).getD []) 144 8
        let t1 := if write ∧ ra % 64 = 0 ∧ writable j.sp ra 2048 t then useFree (writeSpace j.sp ra (notRunBlock 5 0 (freeNat 64 t)) t) else t
        scanAnswer j 5 0 (dropScan j.num t1)) s.scan.jobs s

/-- Every job is abandoned without a result block (seal, R201). -/
def scanAbandon (s : State) : State :=
  let s1 := forEach (fun j t => match j.run with
    | some r => dropScanReads j.num (forEach (showCtx r.ctx j r.desc 0) r.work t)
    | none => t) s.scan.jobs s
  { s1 with scan := { s1.scan with jobs := [], ends := [] } }

/-! ### Submission and acceptance (R178, R188) -/

/-- A job enters the queue, or is not accepted when the queue or its function's share of it is full (R178, R453). -/
def scanSubmit (func ctrl : Nat) (exec tag letter : Option Nat) (sp : Space) (addr : Nat) (s : State) : State :=
  let num := s.scan.nextNum
  let j : ScanJob := ⟨num, func, ctrl, exec, tag, letter, sp, addr, none⟩
  let wait := scansWaiting s
  let s1 := { s with scan := { s.scan with nextNum := num % 4095 + 1 } }
  if 4096 ≤ wait.length ∨ (resOf func s).scanQ ≤ (wait.filter (fun x => x.func == func)).length then
    scanNotRun j (fieldAt ((readSpace sp addr 256 s).getD []) 144 8) 9 0 s1
  else
    { s1 with scan := { s1.scan with jobs := s1.scan.jobs ++ [j], queueHigh := max s1.scan.queueHigh (wait.length + 1) } }

/-- A compute namespace's command: CSI 4, owned by the function and attached to the controller (R392). -/
def computeNs (x : Cmd) (s : State) : Bool :=
  (nsAt x.nsid s).any (fun n => n.csi == 4 && sees n x.ctrl s)

/-- Row SCAN (R393): the Scan command with its descriptor's SLM offset. -/
def execScan (tag off : Nat) (s : State) : Out :=
  match justFetched tag [.program] s with
  | none => .next s
  | some x =>
    let f := funcOf x.ctrl s
    if ¬ computeNs x s then .next (complete tag 0 0x0B true 0 [] s)
    else if mode s = 9 then .next (complete tag 0 0x1D false 0 [] s)
    else if off % 64 ≠ 0 ∨ slmSize f s < off + 256 then .next (invalidField tag s)
    else .next (scanSubmit f x.ctrl none (some tag) none (.host f) off (setCmd { x with phase := .started } s))

/-- Contexts in use. -/
def ctxUsed (s : State) : List Nat := s.scan.jobs.filterMap (fun j => j.run.map (·.ctx))

/-- Channels that work. -/
def workingChans (s : State) : List Nat := (List.range 32).filter (fun n => chanUp n s)

/-- The first waiting job whose function may run one more (R178, R453). -/
def nextScan (s : State) : Option ScanJob :=
  (scansWaiting s).find? (fun j => decide (((scansRunning s).filter (fun x => x.func == j.func)).length < (resOf j.func s).scanRun))

/-- The memories of a context are written from the descriptor (R204). -/
def loadCtx (c : Nat) (code : List Word) (consts : List Word) (pats : List Byte) (n : Nat) (s : State) : State :=
  let s1 := forEach (fun p t => wr (Reg.CHE_SF_CODE n c p.2) p.1 t) code.zipIdx s
  let s2 := forEach (fun p t => wr (Reg.CHE_SF_CONST n c p.2) p.1 t) consts.zipIdx s1
  forN (fun i t => wr (Reg.CHE_SF_PAT n c i) (BitVec.ofNat 64 (fieldAt pats (4 * i) 4)) t) (pats.length / 4) s2

/-- Words of a microcode image. -/
def codeWords (bs : List Byte) : Nat → List Word
  | 0 => []
  | n + 1 => BitVec.ofNat 64 (fieldAt bs 0 8) :: codeWords (bs.drop 8) n

/-- Words of a table's entries, for PROBE (R188). -/
def tableWords (t : Nat) (s : State) : Option Nat := if (tblAt t s).valid then some (2 * (tblAt t s).w) else none

/-- Scan reads may go on: not in brace, and in a mode that serves (R201). -/
def scanModes (s : State) : Bool := mode s == 4 || mode s == 5 || mode s == 10

/-- The map walk of a job looks up its next unit (R179): the class 3 read is queued on the channel that holds it; a deallocated unit is not
read, and neither is one marked uncorrectable or key-lost (R180). -/
def lookupUnit (j : ScanJob) (r : ScanRun) (s : State) : State :=
  let d := r.desc
  let key := mapKey d.nsid r.walk
  let lost := (nsAt d.nsid s).any (·.keyLost)
  let entry (c : Option Nat) (src : ScanSrc) (x : IuData) (late : Bool) : State :=
    setScan { j with run := some { r with walk := r.walk + 1, reads := r.reads ++ [⟨r.walk, c, src, x, late⟩] } } s
  match iuAt key s with
  | none => entry none (if d.dealloc then .zeros else .skipped) [] false
  | some x =>
    if x.uncorr || lost then entry (some x.chan) .unread [] false
    else pushOp x.chan (mkOp .read .scan 3 x.die x.sb j.num key) (entry (some x.chan) .queued x.data (decide (r.mark ≤ x.landed)))

/-- Steps of the walk, as long as no channel would hold more than 64 units of the job, none past the range or once the job stops. -/
def walkSteps (num : Nat) : Nat → State → State
  | 0, s => s
  | n + 1, s =>
    match scanAt num s with
    | none => s
    | some j =>
      match j.run with
      | none => s
      | some r =>
        let c := (iuAt (mapKey r.desc.nsid r.walk) s).map (·.chan)
        if r.stop.isSome ∨ (scanIus r.desc s).2 < r.walk ∨ 64 ≤ (r.reads.filter (fun x => x.chan == c)).length then s
        else walkSteps num n (lookupUnit j r s)

/-- The map walk goes on: units evaluated leave, and others take their places (R179). -/
def scanWalk (num : Nat) (s : State) : State :=
  match scanAt num s with
  | none => s
  | some j => match j.run with
    | none => s
    | some r => walkSteps num 2112 (setScan { j with run := some { r with reads := r.reads.filter (fun x => !r.done.contains x.iu) } } s)

/-- Accepts a job: descriptor and microcode are checked and copied, contexts taken on every working channel. -/
def acceptScan (j : ScanJob) (c : Nat) (s : State) : State :=
  let feat := featureValue 0xC1 s
  match readSpace j.sp j.addr 256 s with
  | none => scanNotRun j 1 7 0 s
  | some bs =>
    let ra := fieldAt bs 144 8
    if j.addr % 64 ≠ 0 then scanNotRun j ra 7 0 s
    else match scanDescOf bs (feat / 65536 % 4) (feat % 65536) with
    | none => scanNotRun j ra 7 0 s
    | some d =>
      if ¬ scanDescFits j.sp j.func d s then scanNotRun j ra 7 0 s
      else match readSpace j.sp d.codeAddr (8 * d.instrCount) s, (if d.patCount = 0 then some [] else readSpace j.sp d.patAddr (36 * d.patCount) s) with
        | some cb, some pb =>
          let code := codeWords cb d.instrCount
          match firstBad (d.framing == 2) (fun t => tableWords t s) 0 0 [] 0 (code.map finsOf) with
          | some i => scanNotRun j ra 8 i s
          | none =>
            match patternsOf d.patCount pb with
            | none => scanNotRun j ra 8 (freeNat 16 s) (useFree s)
            | some pats =>
              let work := workingChans s
              let r : ScanRun := ⟨c, d, code, pats, s.ftl.landings, work, d.timeLimit, [], [], [], ScanCnt.zero, [], 0, [], none, none, d.slba / nsK d.nsid s, []⟩
              let s1 := forEach (fun n t => wr (Reg.CHE_SF_CTX_OUT n c) 0 (showCtx c j d 1 n (loadCtx c code d.consts pb n t))) work s
              let seg := d.outSize / 32 / 4096 * 4096
              let s2 := if d.ring then forN (fun n t => writeSpace j.sp (d.outAddr + n * seg) (leBytes 8 64) t) 32 s1 else s1
              scanWalk j.num <| setScan { j with run := some (if d.ring then { r with used := (List.range 32).map (fun n => (n, 64)) } else r) }
                { s2 with scan := { s2.scan with accepted := cap64 (s2.scan.accepted + 1) } }
        | _, _ => scanNotRun j ra 7 0 s

/-- Row SCAN_JOB_ACCEPTED (R178): the first waiting job that may run takes a context on every working channel. -/
def execScanJobAccepted (s : State) : Out :=
  match nextScan s, (List.range 4).find? (fun c => !(ctxUsed s).contains c) with
  | some j, some c => if scanModes s = true ∧ fget Fl.MGT_THERM_LEVEL s ≠ 3 then .next (acceptScan j c s) else .next s
  | _, _ => .next s

/-! ### Evaluating one unit (R179–R194) -/

/-- The 16,384 bytes of a unit. -/
def iuBytes (flbas : Nat) (d : IuData) : List Byte :=
  (List.range (lbasPerIu flbas)).flatMap (fun k => (SMap.getD d k (zeroBlk flbas)).data)

/-- What evaluating records gives: entries to write, aggregate values and counts. -/
structure IuOut where
  entries : List (List Byte)
  aggs : List (Nat × Word)
  cnt : ScanCnt
  stop : Bool
  noTable : Bool
  deriving DecidableEq, Repr

/-- An output entry (R192). -/
def outEntry (off flags chan : Nat) (pay : List Byte) : List Byte :=
  leBytes 8 off ++ leBytes 4 pay.length ++ leBytes 1 flags ++ leBytes 1 chan ++ leBytes 2 0 ++ pay
    ++ List.replicate ((8 - pay.length % 8) % 8) 0

/-- One record (R184, R189, R192). -/
def evalRecord (j : ScanJob) (r : ScanRun) (chan : Nat) (x : FRec) (o : IuOut) (s : State) : IuOut × State :=
  let d := r.desc
  let c0 := { o.cnt with framed := o.cnt.framed + 1, seam := o.cnt.seam + (if x.seam then 1 else 0), late := o.cnt.late + (if x.late then 1 else 0) }
  let fl := (if x.seam then 1 else 0) + (if x.late then 2 else 0)
  match x.kind with
  | .truncated => ({ o with cnt := { c0 with truncated := c0.truncated + 1, late := o.cnt.late } }, s)
  | .malformed | .badBlock =>
    let s1 := raiseEvent 0x07 chan (Fl.CHE_SF_EVENT_MALFORMED chan) s
    let s2 := if x.kind = .badBlock then raiseEvent 0x07 chan (Fl.CHE_SF_EVENT_BAD_BLOCK chan) s1 else s1
    ({ o with
        cnt := { c0 with malformed := c0.malformed + 1 }
        stop := o.stop || d.malf == 1
        entries := if d.malf = 2 ∧ d.outmode ≠ 3 then o.entries ++ [outEntry x.off (fl + 4) chan []] else o.entries }, s2)
  | .good =>
    let v : FView := ⟨x.body, x.off, chan, j.func, d.fdelim, d.quote, patternHits r.pats d.patOff d.patLen x.body⟩
    let p := runFilter v (r.code.map finsOf) (FState.start d.consts) s
    let f := p.1
    let flags := fl + (if f.pred 15 then 8 else 0) + (if f.pred 14 then 16 else 0)
    let sel := f.sel && d.outmode != 3
    let pay := if d.outmode = 0 then x.body else if d.outmode = 2 then f.proj else []
    ({ o with
        entries := if sel then o.entries ++ [outEntry x.off flags chan pay] else o.entries
        aggs := o.aggs ++ f.aggs
        cnt := { c0 with selected := c0.selected + (if sel then 1 else 0), probes := c0.probes + f.probes }
        noTable := o.noTable || f.noTable }, p.2)

/-- Records in order. -/
def evalRecords (j : ScanJob) (r : ScanRun) (chan : Nat) : List FRec → IuOut → State → IuOut × State
  | [], o, s => (o, s)
  | x :: t, o, s =>
    let p := evalRecord j r chan x o s
    evalRecords j r chan t p.1 p.2

/-- One side of boundary `b` becomes known: the joined records when the other side is there, else the fragment is kept. -/
def putFrag (b : Nat) (isHead : Bool) (f : Frag) (r : ScanRun) : List FRec × ScanRun :=
  let e := SMap.getD r.frags b (none, none)
  match (if isHead then e.1 else e.2) with
  | some g =>
    let t := if isHead then g else f
    let h := if isHead then f else g
    (joinFrags r.desc.framing r.desc.reclen r.desc.rdelim t h, { r with frags := SMap.del r.frags b })
  | none => ([], { r with frags := SMap.put r.frags b (if isHead then (e.1, some f) else (some f, e.2)) })

/-- Bytes the seam store holds over all jobs (R183). -/
def seamBytes (s : State) : Nat :=
  let n (f : Option Frag) : Nat := match f with
    | some (.part _ b _) => b.length
    | _ => 0
  ((s.scan.jobs.filterMap (·.run)).map (fun r => (r.frags.map (fun e => n e.2.1 + n e.2.2)).sum)).sum

/-- Fragments and records of one unit: `data` none for a skipped one. Gives the records to evaluate, the job with its
fragments, and the methods of the native blocks expanded. -/
def frameUnit (r : ScanRun) (iu : Nat) (data : Option (List Byte)) (late : Bool) (natOff : Nat) (s : State) : List FRec × ScanRun × List Nat :=
  let d := r.desc
  let lb := 16384 / nsK d.nsid s
  let base := iu * 16384
  let rb0 := d.slba * lb
  let rb1 := (d.slba + d.nlb) * lb
  let lo := rb0 - base
  let hi := Nat.min 16384 (rb1 - base)
  let first := iu == (scanIus d s).1
  let last := iu == (scanIus d s).2
  let bytes := data.getD (List.replicate 16384 0)
  let raw : Frag × List FRec × Frag × List Nat :=
    match d.framing with
    | 0 => let f := frameFixed d.reclen d.base base lo hi late bytes
      (f.1, f.2.1, f.2.2, [])
    | 1 => (.none, framePrefixed d.prefixW d.reclen d.prefixIncl d.prefixBe base hi late bytes 16385 lo, .none, [])
    | 2 => let f := frameDelimited d.reclen d.rdelim base lo hi late bytes
      (f.1, f.2.1, f.2.2, [])
    | _ => let f := frameNative natOff late 1025 bytes
      (.none, f.1, .none, f.2)
  -- a skipped unit: fixed-length records keep their places and count as truncated, other records are not known (R180)
  let cut : Frag × List FRec × Frag × List Nat :=
    match data with
    | some _ => raw
    | none =>
      let side (f : Frag) : Frag := match f with
        | .none => if d.framing = 0 then .none else .gone false
        | _ => .gone (d.framing == 0)
      (side raw.1, if d.framing = 0 then raw.2.1.map (fun x => { x with kind := .truncated }) else [], side raw.2.2.1, [])
  -- the range's first unit: a fixed-length record begun before it is not framed, a delimited one starts there (R182)
  let head := cut.1
  let openFirst : Bool := first && d.framing == 2 && !last && (match head with
    | .part _ b _ => cut.2.1.isEmpty && b.getLast? != some d.rdelim && decide (b.length ≤ d.reclen)
    | _ => false)
  let h1 : List FRec × ScanRun :=
    if first then
      (if d.framing = 2 ∧ openFirst = false then
        (match head with
          | .part o b l => joinFrags 2 d.reclen d.rdelim (.part o [] l) (.part o b l)
          | _ => [])
       else [], r)
    else if d.framing = 1 ∨ d.framing = 3 then ([], r)
    else putFrag iu true head r
  let tail := if openFirst then head else cut.2.2.1
  let t1 : List FRec × ScanRun :=
    if d.framing = 1 ∨ d.framing = 3 then ([], h1.2)
    else if last then
      ((match tail with
        | .part o b _ => if b.isEmpty then [] else [⟨o, [], .truncated, false, false⟩]
        | _ => []), h1.2)
    else putFrag (iu + 1) false tail h1.2
  (h1.1 ++ cut.2.1 ++ t1.1, t1.2, cut.2.2.2)

/-- Where an entry of `len` bytes goes in a ring (R193): padding needed first, and the offset; none while it would reach
the consumer. -/
def ringPlace (seg p c len : Nat) : Option (Nat × Nat) :=
  let used := if c ≤ p then p - c else seg - c + (p - 64)
  let fitsEnd := decide (p + len ≤ seg)
  let pad := if fitsEnd then 0 else seg - p
  if used + pad + len < seg - 64 then some (pad, if fitsEnd then p else 64) else none

/-- Writes one entry to a channel's segment. None: it does not fit. -/
def putEntry (j : ScanJob) (r : ScanRun) (chan : Nat) (e : List Byte) (s : State) : Option (ScanRun × State) :=
  let d := r.desc
  let seg := d.outSize / 32 / 4096 * 4096
  let base := d.outAddr + chan * seg
  let p := SMap.getD r.used chan 0
  if d.ring then
    match ringPlace seg p (fieldAt ((readSpace j.sp (base + 8) 8 s).getD []) 0 8) e.length with
    | none => none
    | some (pad, at') =>
      let padBytes := (outEntry (freeNat 64 s) 32 chan [] ++ List.replicate seg 0).take pad
      let padBytes' := padBytes.take 8 ++ ((leBytes 4 (pad - 16)).take (padBytes.length - 8)) ++ padBytes.drop 12
      let s1 := if pad = 0 then s else writeSpace j.sp (base + p) padBytes' (useFree s)
      let s2 := writeSpace j.sp (base + at') e s1
      let p' := if at' + e.length = seg then 64 else at' + e.length
      some ({ r with used := SMap.put r.used chan p', outBytes := r.outBytes + pad + e.length },
        wr (Reg.CHE_SF_CTX_OUT chan r.ctx) (rd (Reg.CHE_SF_CTX_OUT chan r.ctx) s + BitVec.ofNat 64 (pad + e.length))
          (writeSpace j.sp base (leBytes 8 p') s2))
  else if seg < p + e.length then none
  else some ({ r with used := SMap.put r.used chan (p + e.length), outBytes := r.outBytes + e.length },
    wr (Reg.CHE_SF_CTX_OUT chan r.ctx) (BitVec.ofNat 64 (p + e.length)) (writeSpace j.sp (base + p) e s))

/-- Writes entries as far as they fit; what is left. -/
def putEntries (j : ScanJob) (chan : Nat) : List (List Byte) → ScanRun → State → List (List Byte) × ScanRun × State
  | [], r, s => ([], r, s)
  | e :: t, r, s =>
    match putEntry j r chan e s with
    | none => (e :: t, r, s)
    | some (r', s') => putEntries j chan t r' s'

/-- An evaluated unit releases its contributions and counts (R194). -/
def releaseIu (chan iu : Nat) (aggs : List (Nat × Word)) (cnt : ScanCnt) (r : ScanRun) (s : State) : ScanRun × State :=
  let code := r.code.map finsOf
  let acc0 := SMap.getD r.accs chan ((List.range 8).map (fun k => Acc.fresh ((accOp code k).getD 0)))
  let acc := aggs.foldl (fun l a => l.set a.1 (Acc.add ((accOp code a.1).getD 0) (l.getD a.1 (Acc.fresh 0)) a.2)) acc0
  let fresh := (acc0.zip acc).any (fun p => !p.1.ovf && p.2.ovf)
  let s1 := s |> cntAdd (Reg.CHE_SF_CNT_FRAMED chan) 64 cnt.framed |> cntAdd (Reg.CHE_SF_CNT_SELECTED chan) 64 cnt.selected
    |> cntAdd (Reg.CHE_SF_CNT_PROBE chan) 64 cnt.probes |> cntAdd (Reg.CHE_SF_CNT_MALFORMED chan) 32 cnt.malformed
    |> cntAdd (Reg.CHE_SF_CNT_SEAM chan) 32 cnt.seam
  ({ r with accs := SMap.put r.accs chan acc, cnt := ScanCnt.add r.cnt cnt, done := r.done ++ [iu] },
    if fresh then raiseEvent 0x07 chan (Fl.CHE_SF_EVENT_AGG_OVF chan) s1 else s1)

/-- A job is told to stop with a status at the next unit boundaries; what it has queued is not read. -/
def stopScan (j : ScanJob) (status : Nat) (s : State) : State :=
  match j.run with
  | none => s
  | some r => if r.stop.isSome then s
    else setScan { j with run := some { r with stop := some status, reads := [] } } (dropScanReads j.num <| forEach (fun n t => fset (Fl.CHE_SF_CTX_STATE_STATE n r.ctx) 3 t) r.work s)

/-- SF_STATUS.CTX_CUR: the job's context has a unit on the channel's data path, which stays there while a lane waits (R204). -/
def onPath (r : ScanRun) (chan : Nat) (on : Bool) (s : State) : State := fset ⟨Reg.CHE_SF_STATUS chan, 4 + r.ctx, 1⟩ (if on then 1 else 0) s

/-- Evaluates unit `iu` of a running job on channel `chan`. `src` is the unit's bytes, none when skipped. -/
def evalUnit (j : ScanJob) (r : ScanRun) (iu chan : Nat) (src : Option (List Byte)) (late : Bool) (c0 : ScanCnt) (s : State) : State :=
  let s0 := useFree s
  let fr := frameUnit r iu src late (iu * 16384 + freeNat 14 s) s0
  if 16777216 < seamBytes (setScan { j with run := some fr.2.1 } s0) ∧ seamBytes s0 < seamBytes (setScan { j with run := some fr.2.1 } s0) then
    (if fget (Fl.CHE_SF_STATUS_SEAM_WAIT chan) s = 1 then s
     else raiseEvent 0x07 chan (Fl.CHE_SF_EVENT_SEAM_FULL chan) (fset (Fl.CHE_SF_STATUS_SEAM_WAIT chan) 1 (onPath r chan true s)))
  else
    let s1 := s0 |> fset (Fl.CHE_SF_STATUS_SEAM_WAIT chan) 0 |> fset (Fl.CHE_SF_CTX_IU_IU chan r.ctx) iu |> onPath r chan false
      |> fset (Fl.CHE_SF_CTX_STATE_STATE chan r.ctx) 2
    let ld := fr.2.2.length
    let s2 := if ld = 0 then s1 else cntAdd (Reg.CMP_LD_CNT_BLOCKS 0 chan) 64 (fr.2.2.filter (· != 3)).length s1
    let bad := fr.1.any (fun x => x.kind == .badBlock)
    let s3 := if bad then raiseEvent 0x09 0 (Fl.CMP_EVENT_LD_FAIL 0) (cntAdd (Reg.CMP_LD_CNT_FAIL 0 chan) 32 1 s2) else s2
    let ev := evalRecords j fr.2.1 chan fr.1 ⟨[], [], c0, false, false⟩ s3
    let s4 := if ev.1.noTable then raiseEvent 0x07 chan (Fl.CHE_SF_EVENT_NO_TABLE chan) ev.2 else ev.2
    let out := putEntries j chan ev.1.entries fr.2.1 s4
    let r1 := out.2.1
    let s5 := out.2.2
    if out.1.isEmpty then
      let rel := releaseIu chan iu ev.1.aggs ev.1.cnt r1 s5
      let j1 := { j with run := some rel.1 }
      let s6 := setScan j1 rel.2
      if ev.1.stop then stopScan j1 2 s6 else s6
    else if r.desc.ring then
      setScan { j with run := some { r1 with held := SMap.put r1.held chan ⟨iu, out.1, ev.1.aggs, ev.1.cnt⟩ } }
        (fset (Fl.CHE_SF_STATUS_OUT_WAIT chan) 1 (onPath r chan true s5))
    else stopScan { j with run := some r1 } 1 (setScan { j with run := some r1 } s5)

/-- Row SCAN_IU_EVALUATE (R179–R194, R199): the evaluation of unit `iu` of job `num` once it is read, in rising order on a channel, by the
filter of the channel that holds it, or by that of channel `via`, which rebuilt it, or which takes a unit that no working channel holds. -/
def execScanIuEvaluate (num iu via : Nat) (s : State) : Out :=
  match scanAt num s with
  | none => .next s
  | some j =>
    match j.run with
    | none => .next s
    | some r =>
      let d := r.desc
      match r.reads.find? (fun x => x.iu == iu) with
      | none => .next s
      | some x =>
        let chan := match x.chan with
          | some c => if chanUp c s then c else via
          | none => via
        if r.stop.isSome ∨ x.src = .queued ∨ r.held.any (fun h => h.1 == chan || h.2.iu == iu) = true ∨
            r.reads.any (fun y => decide (y.iu < iu) && y.chan.isSome && y.chan == x.chan) = true ∨
            scanModes s = false ∨ chanUp chan s = false then .next s
        else match x.src, nsAt d.nsid s with
          | .zeros, some _ => .next (scanWalk num (evalUnit j r iu chan (some (List.replicate 16384 0)) false ScanCnt.zero s))
          | .skipped, some _ => .next (scanWalk num (evalUnit j r iu chan none false { ScanCnt.zero with dealloc := 1 } s))
          | .read, some n =>
            .next (scanWalk num (evalUnit j r iu chan (some (iuBytes n.flbas x.data)) x.late { ScanCnt.zero with read := 1 } s))
          | .unread, some n =>
            let bad := max d.slba (iu * lbasPerIu n.flbas)
            let r1 := { r with firstBad := some (match r.firstBad with | some b => min b bad | none => bad) }
            let j1 := { j with run := some r1 }
            let s2 := raiseEvent 0x07 chan (Fl.CHE_SF_EVENT_UNREAD chan) (setScan j1 s)
            if d.unread then
              let j2 := { j with run := some { r1 with cnt := { r1.cnt with unread := r1.cnt.unread + 1 } } }
              .next (stopScan j2 3 (setScan j2 s2))
            else .next (scanWalk num (evalUnit j1 r1 iu chan none false { ScanCnt.zero with unread := 1 } s2))
          | .queued, _ | _, none => .next s

/-- Row OUTPUT_RING_SPACE (R193): the consumer offset of channel `chan`'s segment has advanced. -/
def execOutputRingSpace (num chan : Nat) (s : State) : Out :=
  match scanAt num s with
  | none => .next s
  | some j =>
    match j.run with
    | none => .next s
    | some r =>
      match SMap.find r.held chan with
      | none => .next s
      | some h =>
        let out := putEntries j chan h.entries r s
        if out.1.isEmpty then
          let rel := releaseIu chan h.iu h.aggs h.cnt { out.2.1 with held := SMap.del r.held chan } out.2.2
          .next (scanWalk num (setScan { j with run := some rel.1 } (fset (Fl.CHE_SF_STATUS_OUT_WAIT chan) 0 (onPath r chan false rel.2))))
        else .next (setScan { j with run := some { out.2.1 with held := SMap.put r.held chan { h with entries := out.1 } } } out.2.2)

/-- Row SCAN_TIME_LIMIT (R197): a job with a limit has run for it. -/
def execScanTimeLimit (num : Nat) (s : State) : Out :=
  match scanAt num s with
  | none => .next s
  | some j => .next (if j.run.any (fun r => r.limit != 0) then stopScan j 6 s else s)

/-- SF_CTRL.ABORT with context bits `mask` on channel `chan` (R204). -/
def scanAbortCtx (chan mask : Nat) (s : State) : State :=
  forEach (fun j t => match j.run with
    | some r => if mask / 2 ^ r.ctx % 2 = 1 ∧ r.work.contains chan then
        raiseEvent 0x07 chan (Fl.CHE_SF_EVENT_CTX_ABORT chan) (stopScan j 10 t) else t
    | none => t) s.scan.jobs s

/-- Row SCAN_CONTEXT_ABORT. -/
def execScanContextAbort (chan mask req : Nat) (s : State) : Out :=
  if chanUp chan s then .next (scanAbortCtx chan (mask % 16) s) else .next (busError (Reg.CHE_SF_CTRL chan) req 4 s)

/-- Row SCAN_JOB_COMPLETE (R195): every share has ended. -/
def execScanJobComplete (num : Nat) (s : State) : Out :=
  match scanAt num s with
  | none => .next s
  | some j =>
    match j.run with
    | none => .next s
    | some r =>
      match r.stop with
      | some st => .next (scanEnd j st true s)
      | none =>
        let p := scanIus r.desc s
        if ((List.range (p.2 - p.1 + 1)).map (· + p.1)).all (fun iu => r.done.contains iu) then .next (scanEnd j 0 true s) else .next s

end Sys2Proof.Machine
end

