-- ==== Sys2Proof/Machine/WindowOps.lean ====
section
/-! DEFINITION. Media windows, window reads, run-ahead and pre-reads: rows PRE_READ_STAGED, RUN_AHEAD_ENTRY to
WINDOW_PAGE_STAGED, WMAP and WUNMAP (R280–R284, R296–R298, R324–R326, R360–R363, R384). -/

namespace Sys2Proof.Machine

/-! ### Windows and their pages -/

/-- First address of window `w` of an execution (R381). -/
def winBase (w : Nat) : Nat := 0x400000000000 + w * 0x10000000000

/-- The unit a window address names: namespace and IU. -/
def winUnit (e ea : Nat) (s : State) : Option (Nat × Nat) :=
  match SMap.find s.prog.execs e with
  | none => none
  | some x =>
    if ea < winBase 0 then none
    else
      let w := (ea - winBase 0) / 0x10000000000
      match SMap.find x.windows w with
      | none => none
      | some m =>
        let j := (ea - winBase w) / 16384
        if j < m.count then some (m.nsid, m.iu + j) else none

/-- The function of an execution. -/
def execFunc (e : Nat) (s : State) : Nat := match SMap.find s.prog.execs e with | some x => x.func | none => 0

/-- Expanded bytes of a unit of a namespace. -/
def unitBytes (nsid : Nat) (d : IuData) (s : State) : List Byte := match nsAt nsid s with | some n => iuBytes n.flbas d | none => []

/-- A page held for a function; a pre-staged one for 2 ms (R25). -/
def pageFor (f nsid iu : Nat) (s : State) : Option StagePage :=
  s.prog.pages.find? (fun g => g.func == f && g.nsid == nsid && g.iu == iu &&
    (g.state == .staged || (g.state == .preStaged && decide ((rd Reg.SCH_TICK s).toNat ≤ g.born + 2000))))

/-- A superseded or unreadable page that a letter still waits for. -/
def pageOwed (f nsid iu l : Nat) (s : State) : Option StagePage :=
  s.prog.pages.find? (fun g => g.func == f && g.nsid == nsid && g.iu == iu && (g.state == .stale || g.state == .bad) && g.waiters.contains l)

/-- Pages of a function's window cache (R384, R397). -/
def cachePages (f : Nat) (s : State) : Nat := 1024 * SMap.getD s.prog.wcache f 4

/-- The least recently used page of a function that no letter waits for goes when the window cache is over its size. -/
def evictPage (f : Nat) (s : State) : State :=
  let mine := s.prog.pages.filter (fun g => g.func == f && g.state == .staged)
  if mine.length ≤ cachePages f s then s
  else match (mine.filter (fun g => g.waiters.isEmpty)).getLast? with
    | some g => { s with prog := { s.prog with pages := s.prog.pages.erase g } }
    | none => s

/-- A page becomes the most recently used. -/
def touchPage (g g' : StagePage) (s : State) : State := { s with prog := { s.prog with pages := g' :: s.prog.pages.erase g } }

/-- A page enters the window cache of its function. -/
def stagePage (g : StagePage) (s : State) : State :=
  evictPage g.func { s with prog := { s.prog with pages := g :: s.prog.pages } }

/-! ### Read entries (R361–R363) -/

/-- The scheduler's tick as a number of microseconds. -/
def tickNow (s : State) : Nat := (rd Reg.SCH_TICK s).toNat

/-- Takes a window read out of its channel's queue; one at a die ends with its data discarded (R163). -/
def cancelChanRead (h : Nat) (s : State) : State :=
  forEach (fun e t => setChan e.1 { e.2 with
      queue := e.2.queue.filter (fun o => o.handle != h || !(o.use == .unit && (o.cls == 3 || o.cls == 6)))
      dies := e.2.dies.map (fun d => if d.2.handle = h ∧ d.2.cls = 6 then (d.1, { d.2 with cancelled := true }) else d) } t)
    (s.media.chans.filter (fun e => e.2.queue.any (fun o => o.handle == h) || e.2.dies.any (fun d => d.2.handle == h))) s

/-- A read entry goes; a pre-read among them ends unclaimed. -/
def dropRead (r : ReadEntry) (s : State) : State :=
  let s1 := cancelChanRead r.handle (updSch (fun z => { z with reads := z.reads.filter (fun x => x.handle != r.handle) }) s)
  showSch (if r.pre then prdEnded false r.core s1 else s1)

/-- Pre-reads that satisfy `p` are removed or discarded. -/
def cancelPreReads (p : ReadEntry → Bool) (s : State) : State :=
  forEach dropRead (s.sch.reads.filter (fun r => r.pre && p r)) s

/-- A unit lies in a window of an execution. -/
def inWindowsOf (e nsid iu : Nat) (s : State) : Bool :=
  (SMap.find s.prog.execs e).any (fun x => x.windows.any (fun w => nsid == w.2.nsid && decide (w.2.iu ≤ iu) && decide (iu < w.2.iu + w.2.count)))

/-- END_OWNER of ROUTE_CMD (R364): the execution's pre-reads are removed or discarded too. -/
def endOwnerCmd (req : Nat) (s : State) : State :=
  let f := fget Fl.SCH_ROUTE_DATA_OWNER s
  let e := fget Fl.SCH_ROUTE_DATA_EXEC s
  routeCmd 4 req (if schUp s ∧ (req ≤ 0x0B ∨ req = 0x10 ∨ req = 0x11) then
    cancelPreReads (fun r => r.func == f && r.exec == e) (dropPages (fun g => g.func == f && inWindowsOf e g.nsid g.iu s && g.state == .preStaged) s) else s)

/-- Row END_OWNER. -/
def execEndOwner (req : Nat) (s : State) : Out := .next (endOwnerCmd req s)

/-- A new read entry. -/
def newRead (f nsid iu : Nat) (pre : Bool) (letters : List Nat) (core : Nat) (episode : Option Nat) (exec : Nat) (s : State) : State :=
  showSch (updSch (fun z => { z with
    reads := z.reads ++ [⟨z.nextRead, f, nsid, iu, pre, letters, core, episode, exec, tickNow s, false, false, 0, [], none, false⟩]
    nextRead := z.nextRead + 1 }) s)

/-- Read entries in all. -/
def readEntries : Nat := 16384

/-- A demand read for a page: it joins or promotes the entry under way, or takes a new one, for which the youngest pre-read
not at a die gives way when all are in use. -/
def demandRead (f nsid iu : Nat) (letters : List Nat) (s : State) : State :=
  match s.sch.reads.find? (fun r => r.func == f && r.nsid == nsid && r.iu == iu && !r.stale) with
  | some r =>
    let s1 := updRead r.handle (fun x => { x with pre := false, letters := x.letters ++ letters }) s
    if r.pre then
      let s2 := forEach (fun e t => setChan e.1 { e.2 with
          queue := e.2.queue.map (fun o => if o.handle = r.handle ∧ o.cls = 6 then { o with cls := 3 } else o) } t)
        (s1.media.chans.filter (fun e => e.2.queue.any (fun o => o.handle == r.handle))) s1
      showSch (prdEnded true r.core s2)
    else showSch s1
  | none =>
    let s1 := if s.sch.reads.length < readEntries then s
      else match (s.sch.reads.filter (fun r => r.pre && !r.atDie)).getLast? with
        | some r => dropRead r s
        | none => s
    newRead f nsid iu false letters 0 none 0 s1

/-- A pre-read for an unstaged page; without a free entry it is discarded at submission. -/
def preRead (f nsid iu core : Nat) (episode : Option Nat) (exec : Nat) (s : State) : State :=
  if s.sch.reads.length < readEntries then newRead f nsid iu true [] core episode exec s
  else prdEnded false core s

/-- The window service takes a read entry (R361): the map lookup decides the version; a mapped unit is queued at its channel at
class 3 or 6, a deallocated one arrives as zeros, an uncorrectable one as unreadable. -/
def sendRead (h : Nat) (s : State) : State :=
  match readAt h s with
  | none => s
  | some r =>
    if r.sent || !((s.sch.reads.take readEntries).any (fun x => x.handle == h)) then s
    else
      let key := mapKey r.nsid r.iu
      match iuAt key s with
      | none => updRead h (fun x => { x with sent := true, data := unitBytes r.nsid [] s, arrived := some true }) s
      | some u =>
        if u.uncorr then updRead h (fun x => { x with sent := true, arrived := some false }) s
        else
          let o := { mkOp .read .unit (if r.pre then 6 else 3) u.die u.sb 0 key with handle := h }
          pushOp u.chan o (updRead h (fun x => { x with sent := true, chan := u.chan, data := unitBytes r.nsid u.data s }) s)

/-! ### Suspension (R325, R360) -/

/-- The letter of core `k` is suspended: its User state is kept and the core becomes idle. -/
def suspendLetter (k : Nat) (s : State) : State :=
  match letterHeld k s with
  | none => s
  | some l =>
    let c := coreAt k s
    let ctx : SavedCtx := ⟨k / 8, c.g, c.pc, sysAt k 4 s, sysAt k 5 s, c.v⟩
    let s1 := { s with prog := { s.prog with saved := SMap.put s.prog.saved l.id ctx } }
    let s2 := updSch (fun z => { z with holds := z.holds.filter (fun e => e.2 != l.id) }) (setLetter { l with state := .suspended, port := none } s1)
    showSch (leaveLetter k s2)

/-- Suspended letters return to ready, at the head of their priority (R350). -/
def readyAgain (ids : List Nat) (s : State) : State :=
  settleSch (forEach (fun i t =>
    match letterAt i t with
    | some l => if l.state = .suspended then
        setLetter { l with state := .ready, readySeq := 0, readyTick := tickNow t } t
      else t
    | none => t) ids s)

/-! ### Window loads (R296, R324) -/

/-- What a window load comes to: its bytes, a suspended letter or stalled core, or a trap with its cause. -/
inductive WinRes where
  | served (bs : List Byte) | waits | trap (cause : Nat)
  deriving DecidableEq, Repr

/-- A page without its data waited for: the letter suspends at User level, the core stalls at higher levels. -/
def winWait (k f nsid iu : Nat) (s : State) : WinRes × State :=
  if (coreAt k s).lvl = 0 then
    match letterHeld k s with
    | some l => (.waits, suspendLetter k (demandRead f nsid iu [l.id] s))
    | none => (.waits, s)
  else if s.sch.reads.any (fun r => r.func == f && r.nsid == nsid && r.iu == iu && !r.stale && !r.pre) then (.waits, s)
  else (.waits, demandRead f nsid iu [] s)

/-- A window load of `n` bytes by core `k` outside run-ahead. -/
def windowLoad (k ea n : Nat) (s : State) : WinRes × State :=
  if 16384 < ea % 16384 + n then (.trap 0x09, s)
  else
    match execOfCore k s with
    | none => (.trap 0x0A, s)
    | some e =>
      match winUnit e ea s with
      | none => (.trap 0x0A, s)
      | some (nsid, iu) =>
        let f := execFunc e s
        let l := match letterHeld k s with | some l => l.id | none => 0
        let out (bs : List Byte) : List Byte := (bs.drop (ea % 16384)).take n
        match pageFor f nsid iu s with
        | some g =>
          let g' := { g with state := .staged, waiters := g.waiters.filter (· != l) }
          if g.state = .preStaged then
            (.served (out g.data), evictPage f (touchPage g g' (prdEnded true g.core (cntAdd (Reg.CHE_CNT_READ g.chan) 64 1 s))))
          else (.served (out g.data), touchPage g g' s)
        | none =>
          match pageOwed f nsid iu l s with
          | some g =>
            let w := g.waiters.filter (· != l)
            let s1 := if w.isEmpty then { s with prog := { s.prog with pages := s.prog.pages.erase g } } else touchPage g { g with waiters := w } s
            if g.state = .bad then (.trap 0x0D, s1) else (.served (out g.data), s1)
          | none =>
            if (iuAt (mapKey nsid iu) s).isNone then
              let bs := unitBytes nsid [] s
              (.served (out bs), stagePage ⟨f, nsid, iu, .staged, bs, [], 0, 0, tickNow s, none⟩ s)
            else winWait k f nsid iu s

/-- A window address met in run-ahead: an unstaged page is pre-read while the episode may (R284). -/
def aheadLoad (k ea : Nat) (s : State) : State :=
  match (coreAt k s).ahead, execOfCore k s with
  | some (ep, left), some e =>
    match winUnit e ea s with
    | none => s
    | some (nsid, iu) =>
      let f := execFunc e s
      if (pageFor f nsid iu s).isSome || s.sch.reads.any (fun r => r.func == f && r.nsid == nsid && r.iu == iu && !r.stale) ||
          (iuAt (mapKey nsid iu) s).isNone || left == 0 then s
      else
        preRead f nsid iu k (some ep) e { s with cores := SMap.put s.cores k { coreAt k s with ahead := some (ep, left - 1) } }
  | _, _ => s

/-- PRD of core `k` outside run-ahead (R326). -/
def prdHint (k ea : Nat) (s : State) : State :=
  match execOfCore k s with
  | none => s
  | some e =>
    match winUnit e ea s with
    | none => s
    | some (nsid, iu) =>
      let f := execFunc e s
      let out := s.sch.reads.filter (fun r => r.pre && r.core == k && r.episode.isNone)
      if (pageFor f nsid iu s).isSome || s.sch.reads.any (fun r => r.func == f && r.nsid == nsid && r.iu == iu && !r.stale) ||
          fget (Fl.AXC_RA_CFG_PRD_EN (k / 8)) s == 0 || decide (16 ≤ out.length) then s
      else preRead f nsid iu k none e s

/-- Row WINDOW_LOAD: the access of a window load at virtual address `ea` by core `k`, in run-ahead or outside it. The row gives no
instruction word, so that the word a trap saves is a free value. -/
def execWindowLoad (k ea : Nat) (s : State) : Out :=
  if k < 64 ∧ coreUp k s = true ∧ coreHalted k s = false then
    if (coreAt k s).ahead.isSome then .next (aheadLoad k ea s)
    else if coreRuns k s = false then .next s
    else
      let r := windowLoad k ea 1 s
      match r.1 with
      | .trap c => .next (takeTrap k c ((Config.freeValue r.2.free).setWidth 32) (BitVec.ofNat 64 ea) (useFree r.2))
      | _ => .next r.2
  else .next s

/-- Row WINDOW_PAGE_STAGED (R296, R297, R325): a demand read has arrived; its page is staged, unless a write superseded it or
no step could read it, and the letters that waited return to ready. -/
def execWindowPageStaged (h : Nat) (s : State) : Out :=
  match readAt h s with
  | none => .next s
  | some r =>
    match r.arrived with
    | none => .next s
    | some ok =>
      if r.pre then .next s
      else
        let st : PageState := if !ok then .bad else if r.stale then .stale else .staged
        let g : StagePage := ⟨r.func, r.nsid, r.iu, st, r.data, r.letters, r.chan, r.core, tickNow s, none⟩
        let s1 := updSch (fun z => { z with reads := z.reads.filter (fun x => x.handle != h) }) s
        let s2 := if st != .staged && r.letters.isEmpty then s1 else stagePage g s1
        .next (readyAgain r.letters s2)

/-- Row PRE_READ_STAGED (R163, R284): the die read of a pre-read ends. Cancelled, superseded or undecodable it is discarded; one
promoted meanwhile serves its letters; otherwise its page is pre-staged while the staging has room. -/
def execPreReadStaged (chan die : Nat) (ok : Bool) (s : State) : Out :=
  let c := chanAt chan s
  match SMap.find c.dies die with
  | none => .next s
  | some o =>
    if o.cls ≠ 6 then .next s
    else
      let s1 := setChan chan { c with dies := SMap.del c.dies die } s
      match readAt o.handle s with
      | none => .next s1
      | some r =>
        let held := (s.prog.pages.filter (fun g => g.state == .preStaged)).length
        if o.cancelled ∨ ¬ ok ∨ (r.pre ∧ (r.stale ∨ 16384 ≤ held)) then .next (preReadLost chan o s1)
        else if !r.pre then .next (windowArrived o.handle true s1)
        else
          let s2 := showSch (updSch (fun z => { z with reads := z.reads.filter (fun x => x.handle != o.handle) }) s1)
          .next { s2 with prog := { s2.prog with
            pages := s2.prog.pages ++ [⟨r.func, r.nsid, r.iu, .preStaged, r.data, [], chan, r.core, tickNow s, r.episode⟩] } }

/-- Row PRE_READ_DISPATCH_TIMEOUT (R363): a pre-read not yet with the window service after 2 ms is removed. -/
def execPreReadDispatchTimeout (h : Nat) (s : State) : Out :=
  match readAt h s with
  | some r => if r.pre && !r.sent && decide (r.born + 2000 ≤ tickNow s) then .next (dropRead r s) else .next s
  | none => .next s

/-- Row PRE_STAGED_EXPIRY (R25, R284): a pre-staged page unclaimed for 2 ms is discarded. -/
def execPreStagedExpiry (f nsid iu : Nat) (s : State) : Out :=
  .next (dropPages (fun g => g.func == f && g.nsid == nsid && g.iu == iu && g.state == .preStaged && decide (g.born + 2000 ≤ tickNow s)) s)

/-! ### Run-ahead (R280–R283) -/

/-- Row RUN_AHEAD_ENTRY: a load of DRAM at physical address `a` has missed for 64 cycles and issue depends on it. -/
def execRunAheadEntry (k a : Nat) (s : State) : Out :=
  if k < 64 ∧ coreRuns k s = true ∧ (coreAt k s).stepping = false ∧ fget (Fl.AXC_RA_CFG_EN (k / 8)) s = 1 ∧
      fget (Fl.AXC_CACHE_CTRL_L2_EN (k / 8)) s = 1 ∧ 0x4000000000 ≤ a ∧ a < 0x6000000000 then
    let most := if fget (Fl.AXC_RA_CFG_PRD_EN (k / 8)) s = 1 then fget (Fl.AXC_RA_CFG_PRD_MAX (k / 8)) s else 0
    .next (setCore k { coreAt k s with ahead := some ((coreAt k s).episodes + 1, most) } s)
  else .next s

/-- Row RUN_AHEAD_EXIT: run-ahead ends after `cycles`; where the triggering load ends with a fault the episode's pre-reads are
cancelled and its pre-staged pages discarded, and the load then traps when it executes again. -/
def execRunAheadExit (k cycles : Nat) (fault : Bool) (s : State) : Out :=
  match (coreAt k s).ahead with
  | none => .next s
  | some (ep, _) =>
    let s1 := if fault then dropPages (fun g => g.state == .preStaged && g.core == k && g.episode == some ep)
        (cancelPreReads (fun r => r.core == k && r.episode == some ep) s) else s
    .next (leaveAhead k cycles s1)

/-! ### Mapping (R384, R298) -/

/-- Letters suspended on a page of a range of units of a function. -/
def suspendedOn (f nsid iu n : Nat) (s : State) : Bool :=
  s.sch.reads.any (fun r => r.func == f && r.nsid == nsid && decide (iu ≤ r.iu) && decide (r.iu < iu + n) && !r.letters.isEmpty) ||
    s.prog.pages.any (fun g => g.func == f && g.nsid == nsid && decide (iu ≤ g.iu) && decide (g.iu < iu + n) && !g.waiters.isEmpty)

/-- A window's pages and reads go, and the window with them. -/
def unmapWindow (e w : Nat) (s : State) : State :=
  match SMap.find s.prog.execs e with
  | none => s
  | some x =>
    match SMap.find x.windows w with
    | none => s
    | some m =>
      let inW (nsid iu : Nat) : Bool := nsid == m.nsid && decide (m.iu ≤ iu) && decide (iu < m.iu + m.count)
      let s1 := forEach dropRead (s.sch.reads.filter (fun r => r.func == x.func && inW r.nsid r.iu)) s
      let ids := (s.sch.reads.filter (fun r => r.func == x.func && inW r.nsid r.iu)).flatMap (·.letters)
      let s2 := readyAgain ids (dropPages (fun g => g.func == x.func && inW g.nsid g.iu) s1)
      { s2 with prog := { s2.prog with execs := SMap.upd s2.prog.execs e (fun x => { x with windows := SMap.del x.windows w }) } }

/-- Every window on a namespace is unmapped: before a deletion, format or sanitize of it completes. -/
def unmapNs (nsid : Nat) (s : State) : State :=
  forEach (fun e t => forEach (fun w u => unmapWindow e.1 w.1 u) (e.2.windows.filter (fun w => w.2.nsid == nsid)) t) s.prog.execs s

/-- Bytes of media-window space in use (R35). -/
def windowSpace (s : State) : Nat := s.prog.execs.foldl (fun n e => e.2.windows.foldl (fun n w => n + w.2.count * 16384) n) 0

/-- Whole IUs of an NVM namespace attached to a controller and readable (R384): its first unit and their count. -/
def wholeUnits (ctrl nsid slba nlb : Nat) (s : State) : Option (Nat × Nat) :=
  match nsAt nsid s with
  | none => none
  | some n =>
    let k := lbasPerIu n.flbas
    if n.csi = 0 ∧ sees n ctrl s = true ∧ n.keyLost = false ∧ nlb ≠ 0 ∧ slba % k = 0 ∧ nlb % k = 0 ∧
        slba + nlb ≤ n.nsze ∧ nlb / k * 16384 ≤ 0x10000000000 then some (slba / k, nlb / k)
    else none

/-- WMAP for an execution: window address or 0, and the result. -/
def mapWindow (e nsid slba nlb : Nat) (s : State) : Nat × Nat × State :=
  match SMap.find s.prog.execs e with
  | none => (0, 2, s)
  | some x =>
    match wholeUnits x.ctrl nsid slba nlb s with
    | none => (0, 2, s)
    | some (iu, n) =>
      match (List.range 16).find? (fun w => (SMap.find x.windows w).isNone) with
      | none => (0, 1, s)
      | some w =>
        if 0x100000000000 < windowSpace s + n * 16384 then (0, 3, s)
        else (winBase w, 0, { s with prog := { s.prog with
          execs := SMap.put s.prog.execs e { x with windows := SMap.put x.windows w ⟨nsid, iu, n, false⟩ } } })

/-- Row WMAP: the runtime call of the letter on core `k`. -/
def execWmap (k : Nat) (s : State) : Out :=
  match svCall k 7 s with
  | none => .next s
  | some e =>
    let r := mapWindow e (gr k 1 s).toNat (gr k 2 s).toNat (gr k 3 s).toNat s
    .next (svAnswer k (some (BitVec.ofNat 64 r.1)) (some (BitVec.ofNat 64 r.2.1)) r.2.2)

/-- Row WUNMAP: the runtime call of the letter on core `k`; it waits while a letter is suspended on a page of the window. -/
def execWunmap (k : Nat) (s : State) : Out :=
  match svCall k 8 s with
  | none => .next s
  | some e =>
    let a := (gr k 1 s).toNat
    let w := (a - winBase 0) / 0x10000000000
    match SMap.find s.prog.execs e with
    | none => .next s
    | some x =>
      match (if winBase 0 ≤ a ∧ a = winBase w then SMap.find x.windows w else none) with
      | none => .next (svAnswer k none (some 2) s)
      | some m =>
        if suspendedOn x.func m.nsid m.iu m.count s then
          .next { s with prog := { s.prog with execs := SMap.put s.prog.execs e { x with windows := SMap.put x.windows w { m with closing := true } } } }
        else .next (svAnswer k none (some 0) (unmapWindow e w s))

end Sys2Proof.Machine
end

