-- ==== Sys2Proof/Machine/ClusterOps.lean ====
section
/-! DEFINITION. Compute clusters: caches, way locks, maintenance, parity, reset, retirement and runtime update; rows DIRTY_FAULT
to RUNTIME_UPDATE_GRACE_EXPIRY (R285–R295, R301–R306). -/

namespace Sys2Proof.Machine

/-! ### Dirty lines (R286, R290, R293) -/

/-- First byte of line `l` of memory. -/
def lineBase (l : Nat) : Nat := 64 * l

/-- Every dirty line of a cluster that satisfies `p` is written back. -/
def cleanLines (n : Nat) (p : Nat → Bool) (s : State) : State :=
  { s with dirty := s.dirty.filter (fun e => !(e.2.cluster == n && p e.1)) }

/-- A dirty line's data is lost: memory is again what DRAM held. -/
def loseLine (l : Nat) (s : State) : State :=
  match SMap.find s.dirty l with
  | some d => wrBytes (lineBase l) d.old s
  | none => s

/-- An invalidation without write-back meets a line a core has written: a locked line is still dirty; any other may have been
written back in the meantime, which no rule fixes. -/
def discardLine (n l : Nat) (s : State) : State :=
  if (clusAt n s).locked.any (fun e => e.2 == l) then loseLine l s
  else
    let lost := freeNat 1 s == 1
    let s1 := useFree s
    if lost then loseLine l s1 else { s1 with dirty := SMap.del s1.dirty l }

/-- Dirty lines of a cluster that satisfy `p` are invalidated without write-back. -/
def discardLines (n : Nat) (p : Nat → Bool) (s : State) : State :=
  forEach (fun e t => discardLine n e.1 t) (s.dirty.filter (fun e => e.2.cluster == n && p e.1)) s

/-! ### Cache enables and way locks (R288, R291) -/

/-- A write of CACHE_CTRL (R288). DEDUCED (log 67): an L1 enable needs L2_EN set before the write and left set by it. -/
def cacheCtrl (n v req : Nat) (s : State) : State :=
  let i := v % 2
  let d := v / 2 % 2
  let l2 := v / 4 % 2
  let r := Reg.AXC_CACHE_CTRL n
  let en := fget (Fl.AXC_CACHE_CTRL_L2_EN n) s
  if v % 8 ≠ 0 ∧ fget (Fl.AXC_CACHE_CTRL_INV_DONE n) s = 0 then writeIgnored r req v s
  else if (i = 1 ∨ d = 1) ∧ (l2 = 0 ∨ en = 0) then writeIgnored r req v s
  else if en = 1 ∧ l2 = 0 ∧ (fget (Fl.AXC_CACHE_CTRL_L1I_EN n) s = 1 ∨ fget (Fl.AXC_CACHE_CTRL_L1D_EN n) s = 1) then writeIgnored r req v s
  else
    let s1 := if en = 1 ∧ l2 = 0 then updClus n (fun c => { c with locked := [] }) (cleanLines n (fun _ => true) s) else s
    s1 |> fset (Fl.AXC_CACHE_CTRL_L1I_EN n) i |> fset (Fl.AXC_CACHE_CTRL_L1D_EN n) d |> fset (Fl.AXC_CACHE_CTRL_L2_EN n) l2

/-- The cluster's registers are reached: its domain is on and it is not retired. -/
def clusUp (n : Nat) (s : State) : Bool := decide (n < 8) && pdOn (12 + n) s && fget (Fl.AXC_STATUS_STATE n) s != 3

/-- Row CACHE_ENABLE_WRITE. -/
def execCacheEnableWrite (n v req : Nat) (s : State) : Out :=
  if clusUp n s then .next (cacheCtrl n v req s) else .next (busError (Reg.AXC_CACHE_CTRL n) req 4 s)

/-- One bits of a value below 2^16. -/
def bits16 (v : Nat) : Nat := ((List.range 16).filter (fun i => v / 2 ^ i % 2 == 1)).length

/-- A write of LOCK_CTRL.WAYS: entries of ways unlocked become ordinary lines. -/
def wayLock (n v req : Nat) (s : State) : State :=
  if 12 < bits16 (v % 65536) then writeIgnored (Reg.AXC_LOCK_CTRL n) req v s
  else
    updClus n (fun c => { c with locked := c.locked.filter (fun e => v / 2 ^ e.1 % 2 == 1) }) s
      |> fset (Fl.AXC_LOCK_CTRL_WAYS n) (v % 65536) |> fset (Fl.AXC_STATUS_LOCKED_WAYS n) (bits16 (v % 65536))

/-- Row WAY_LOCK_WRITE. -/
def execWayLockWrite (n v req : Nat) (s : State) : Out :=
  if clusUp n s then .next (wayLock n v req s) else .next (busError (Reg.AXC_LOCK_CTRL n) req 4 s)

/-! ### Maintenance (R292–R295) -/

/-- First line and line count of the range registers. -/
def cmoRange (n : Nat) (s : State) : Nat × Nat :=
  (fget (Fl.AXC_CMO_BASE_ADDR n) s, (fget (Fl.AXC_CMO_LEN_BYTES n) s + 63) / 64)

/-- Lines `a` to `a + k - 1` lie in DRAM or in media-window space. -/
def rangeCacheable (a k : Nat) : Bool :=
  (decide (0x100000000 ≤ a) && decide (a + k ≤ 0x180000000)) || (decide (0x4000000000 ≤ a) && decide (a + k ≤ 0x8000000000))

/-- The engine refuses an operation. -/
def cmoRefused (n op : Nat) (s : State) : Bool :=
  let r := cmoRange n s
  decide (9 ≤ op) || (op == 1 && decide (fget ⟨Reg.AXC_CACHE_CTRL n, 0, 3⟩ s ≠ 0)) ||
    (decide (4 ≤ op) && (r.2 == 0 || !rangeCacheable r.1 r.2)) ||
    (op == 8 && (fget (Fl.AXC_LOCK_CTRL_WAYS n) s == 0 || decide (0x300000 < fget (Fl.AXC_CMO_LEN_BYTES n) s)))

/-- Locked lines of the range are removed: their entries stay reserved. -/
def dropLocked (n a k : Nat) (s : State) : State :=
  let hit := (clusAt n s).locked.filter (fun e => decide (a ≤ e.2) && decide (e.2 < a + k))
  if hit.isEmpty then s
  else
    updClus n (fun c => { c with locked := c.locked.filter (fun e => !(decide (a ≤ e.2) && decide (e.2 < a + k))) }) s
      |> fset (Fl.AXC_CMO_CTRL_LOCKED_HIT n) 1 |> cntAdd (Reg.AXC_CNT_LOCKED_HIT n) 32 hit.length
      |> raiseEvent 0x0C n (Fl.AXC_EVENT_LOCKED_HIT n)

/-- One line is fetched into an empty locked entry of its set (of 4,096), or else into an unlocked way. -/
def lockFill (n l : Nat) (s : State) : State :=
  let c := clusAt n s
  if c.locked.any (fun e => e.2 == l) then s
  else match (List.range 16).find? (fun w => fget (Fl.AXC_LOCK_CTRL_WAYS n) s / 2 ^ w % 2 == 1 &&
      !(c.locked.any (fun e => e.1 == w && e.2 % 4096 == l % 4096))) with
    | some w => updClus n (fun c => { c with locked := c.locked ++ [(w, l)] }) s
    | none => fset (Fl.AXC_CMO_CTRL_LOCK_SHORT n) 1 s

/-- What an accepted operation does to the lines. -/
def cmoEffect (n op : Nat) (s : State) : State :=
  let r := cmoRange n s
  let inR (l : Nat) : Bool := decide (r.1 ≤ l) && decide (l < r.1 + r.2)
  match op with
  | 1 => discardLines n (fun _ => true) s
  | 2 => cleanLines n (fun _ => true) s
  | 3 => updClus n (fun c => { c with locked := [] }) (cleanLines n (fun _ => true) s)
  | 4 => dropLocked n r.1 r.2 (discardLines n inR s)
  | 5 => cleanLines n inR s
  | 6 => dropLocked n r.1 r.2 (cleanLines n inR s)
  | 8 => forEach (fun i t => lockFill n (r.1 + i) t) (List.range r.2) s
  | _ => s

/-- A write of CMO_CTRL.OP: ignored while an operation runs, refused with ERR, or started. -/
def cmoStart (n op req : Nat) (s : State) : State :=
  if fget (Fl.AXC_CMO_CTRL_BUSY n) s = 1 then writeIgnored (Reg.AXC_CMO_CTRL n) req op s
  else if op = 0 then s
  else if cmoRefused n op s then fset (Fl.AXC_CMO_CTRL_ERR n) 1 s
  else
    s |> fset (Fl.AXC_CMO_CTRL_ERR n) 0 |> fset (Fl.AXC_CMO_CTRL_BUSY n) 1 |> fset (Fl.AXC_STATUS_CMO_BUSY n) 1
      |> updClus n (fun c => { c with cmo := op }) |> cmoEffect n op

/-- A maintenance row. -/
def cmoRow (op n req : Nat) (s : State) : Out :=
  if clusUp n s then .next (cmoStart n op req s) else .next (busError (Reg.AXC_CMO_CTRL n) req 4 s)

/-- Row INV_ALL. -/
def execInvAll (n req : Nat) (s : State) : Out := cmoRow 1 n req s
/-- Row CLEAN_ALL. -/
def execCleanAll (n req : Nat) (s : State) : Out := cmoRow 2 n req s
/-- Row CLEAN_INV_ALL. -/
def execCleanInvAll (n req : Nat) (s : State) : Out := cmoRow 3 n req s
/-- Row INV_RANGE. -/
def execInvRange (n req : Nat) (s : State) : Out := cmoRow 4 n req s
/-- Row CLEAN_RANGE. -/
def execCleanRange (n req : Nat) (s : State) : Out := cmoRow 5 n req s
/-- Row CLEAN_INV_RANGE. -/
def execCleanInvRange (n req : Nat) (s : State) : Out := cmoRow 6 n req s
/-- Row IINV_RANGE. -/
def execIinvRange (n req : Nat) (s : State) : Out := cmoRow 7 n req s
/-- Row LOCK_FILL_RANGE. -/
def execLockFillRange (n req : Nat) (s : State) : Out := cmoRow 8 n req s

/-- Row CMO_DONE: the operation ends; after INV_ALL the caches may be enabled. -/
def execCmoDone (n : Nat) (s : State) : Out :=
  if clusUp n s = true ∧ fget (Fl.AXC_CMO_CTRL_BUSY n) s = 1 then
    let s1 := s |> fset (Fl.AXC_CMO_CTRL_BUSY n) 0 |> fset (Fl.AXC_STATUS_CMO_BUSY n) 0
    let s2 := if (clusAt n s).cmo = 1 then s1 |> fset (Fl.AXC_CACHE_CTRL_INV_DONE n) 1 |> fset (Fl.AXC_STATUS_INV_DONE n) 1 else s1
    .next (updClus n (fun c => { c with cmo := 0 }) s2)
  else .next s

/-! ### Cluster reset and retirement (R301, R302) -/

/-- Letters running on a cluster, and letters suspended there. -/
def lettersOn (n : Nat) (s : State) : List Letter :=
  s.sch.letters.filter (fun l => l.target == 0 &&
    ((l.state == .running && l.port.any (fun p => decide (p < 64) && p / 8 == n)) ||
     (l.state == .suspended && (SMap.find s.prog.saved l.id).any (fun c => c.cluster == n))))

/-- Letters on a cluster end with status 0x84 and their executions end with a reason. -/
def endLettersOn (n reason : Nat) (s : State) : State :=
  let ls := lettersOn n s
  let s1 := forEach (fun (l : Letter) t =>
      let pc := match l.port with | some p => (coreAt p t).pc | none => 0
      if l.owner = schFirmware then t else recordEnd l.exec reason 0 0 pc t) ls s
  let s2 := endLetters (ls.map (·.id)) 0x84 s1
  { s2 with prog := { s2.prog with saved := s2.prog.saved.filter (fun e => !(ls.any (fun l => l.id == e.1))) } }

/-- Caches, locks, core registers and class M registers of a cluster return to reset, its breakpoints, watchpoints and halts
with them; the counts are kept for log page 0xC6. -/
def clusClear (n : Nat) (s : State) : State :=
  let s1 := updClus n (fun c => { c with locked := [], funcs := [], cmo := 0 }) (keepClusCounts n s)
  let s2 := forN (fun i t => clearPoints (8 * n + i) (fset (Fl.DBG_CORE_DSTATUS_HALTED (8 * n + i)) 0 t)) 8 s1
  let s3 := clearRegs (fun b i r => b == .axc && i == n && r.cls == .m) s2
  let s4 := s3 |> fset (Fl.AXC_STATUS_INV_DONE n) 0 |> fset (Fl.AXC_STATUS_CMO_BUSY n) 0 |> fset (Fl.AXC_STATUS_LOCKED_WAYS n) 0
  forN (fun i t => coreReset (8 * n + i) t) 8 s4

/-- A cluster retires (R302): class P, its domain off. -/
def clusRetire (n : Nat) (s : State) : State :=
  let s1 := raiseEvent 0x0C n (Fl.AXC_EVENT_RETIRED n) (endLettersOn n 5 s)
  let s2 := clusClear n (cleanLines n (fun _ => true) s1)
  settleSch (maskRetire n (retireDomain (12 + n) (fset (Fl.AXC_STATUS_STATE n) 3 s2)))

/-- A cluster reset (R301) whose letters' executions end with `reason`. -/
def clusterResetWith (n reason : Nat) (selfTest : Bool) (s : State) : State :=
  if clusUp n s = false then s
  else
    let s1 := forN (fun i t => leaveAhead (8 * n + i) (freeNat 16 t) (useFree t)) 8 s
    let s2 := cancelPreReads (fun r => r.core / 8 == n) s1
    let s3 := endLettersOn n reason (dropPages (fun g => g.state == .preStaged && g.core / 8 == n) s2)
    let s4 := clusClear n (cleanLines n (fun _ => true) s3)
    let s5 := updClus n (fun c => { c with resets := Nat.min (c.resets + 1) 0xFFFFFFFF, update := .none }) s4
    let s6 := resetPostmark 5 n (fset Fl.AON_RST_CAUSE_CLUSTER 1 <| raiseEvent 0x0C n (Fl.AXC_EVENT_CLUSTER_RESET n) (fset (Fl.AXC_STATUS_STATE n) 1 s5))
    settleSch (if selfTest then s6 else clusRetire n s6)

/-- A cluster reset that passes its self-test. -/
def clusterReset (n : Nat) (s : State) : State := clusterResetWith n 5 true s

/-- A cluster reset is asked for: during Commit it waits (R73). -/
def requestClusterReset (n : Nat) (selfTest : Bool) (s : State) : State :=
  if mode s = 8 ∧ clusUp n s = true then waitCommit (.cluster n selfTest) s else clusterResetWith n 5 selfTest s

/-- Row CLUSTER_RESET: by CTRL.RESET or a locked core. -/
def execClusterReset (n : Nat) (selfTest : Bool) (s : State) : Out := .next (requestClusterReset n selfTest s)

/-- A write of AXC.CTRL (R306). Compute cores may not. -/
def axcCtrl (n v req : Nat) (selfTest : Bool) (s : State) : State :=
  if 0x40 ≤ req ∧ req < 0x80 then writeIgnored (Reg.AXC_CTRL n) req v s
  else
    let s1 := if v / 2 % 2 = 1 then (if v / 256 % 256 = 0x3C then clusRetire n s else writeIgnored (Reg.AXC_CTRL n) req v s) else s
    if v % 2 = 1 then requestClusterReset n selfTest s1 else s1

/-- Row CLUSTER_RETIRE: by a failed self-test or faults, or by CTRL.RETIRE with key. -/
def execClusterRetire (n : Nat) (byCtrl : Bool) (key req : Nat) (s : State) : Out :=
  if clusUp n s = false then .next s
  else if byCtrl then .next (axcCtrl n (2 + key % 256 * 256) req true s)
  else .next (clusRetire n s)

/-! ### Parity and fill errors (R287, R289, R290) -/

/-- The ERROR interrupt of every core of a cluster becomes pending. -/
def errorLine (n : Nat) (s : State) : State := forN (fun i t => setSysField (8 * n + i) 0x8A 3 1 1 t) 8 s

/-- An execution's memory holds the byte at a physical address. -/
def execHolds (x : Exec) (p : Nat) (s : State) : Bool :=
  let off (gs : List Nat) : Option Nat :=
    (gs.zipIdx.find? (fun g => decide (granBase s + g.1 * 0x10000000 ≤ p) && decide (p < granBase s + (g.1 + 1) * 0x10000000))).map
      (fun g => g.2 * 0x10000000 + (p - (granBase s + g.1 * 0x10000000)))
  let slm := off (SMap.getD s.ten.slm x.func [])
  let prv := off (SMap.getD s.ten.priv x.func [])
  x.regions.any (fun r => r.slm && slm.any (fun o => decide (r.off ≤ o) && decide (o < r.off + r.len))) ||
    x.ext.any (fun e => prv.any (fun o => decide (e.1 ≤ o) && decide (o < e.1 + e.2)))

/-- Row DIRTY_FAULT: a parity error in the caches of a cluster; `left` of its earlier faults are by now older than 24 hours. A
clean line is fetched again; a dirty fault poisons the line, ends executions and resets the cluster. -/
def execDirtyFault (n : Nat) (p : Parity) (left : Nat) (selfTest : Bool) (s : State) : Out :=
  if clusUp n s = false then .next s
  else match p with
    | .clean => .next (errorLine n (raiseEvent 0x0C n (Fl.AXC_EVENT_PAR_CLEAN n) (cntAdd (Reg.AXC_CNT_PAR_CLEAN n) 32 1 s)))
    | _ =>
      let line : Option Nat := match p with
        | .data l => if (SMap.find s.dirty l).any (fun d => d.cluster == n) then some l else none
        | _ => none
      if line.isNone && p != .tag then .next s
      else
        let s1 := match line with
          | some l => { loseLine l s with dram := { s.dram with poison := if s.dram.poison.contains l then s.dram.poison else l :: s.dram.poison } }
          | none => s
        let ends := s.prog.execs.filter (fun e => match line with
          | some l => execHolds e.2 (lineBase l) s
          | none => (clusAt n s).funcs.contains e.2.func)
        let s2 := forEach (fun e t => recordEnd e.1 5 0 0 0 t) ends s1
        let s3 := requestClusterReset n selfTest s2
        let s4 := s3 |> fset (Fl.AXC_FAULT_ADDR_VALID n) 1 |> fset (Fl.AXC_FAULT_ADDR_TAG n) (if line.isNone then 1 else 0)
          |> fset (Fl.AXC_FAULT_ADDR_ADDR n) (line.getD 0) |> cntAdd (Reg.AXC_CNT_PAR_DIRTY n) 32 1
          |> raiseEvent 0x0C n (Fl.AXC_EVENT_PAR_DIRTY n)
          |> updClus n (fun c => { c with faultsLife := Nat.min (c.faultsLife + 1) 0xFFFFFFFF, faults24 := c.faults24 - left + 1 })
        .next (if 3 ≤ (clusAt n s4).faults24 ∧ clusUp n s4 = true then clusRetire n s4 else s4)

/-- Row FILL_ERROR (R287): a chunk of a fill of cluster `n` was uncorrectable; a load of core `k` (its word and address) that
waited for it takes a bus error. -/
def execFillError (n : Nat) (load : Option (Nat × Half × Word)) (s : State) : Out :=
  if clusUp n s = false then .next s
  else
    let s1 := errorLine n (raiseEvent 0x0C n (Fl.AXC_EVENT_FILL_ERR n) s)
    match load with
    | some (k, w, a) => if k / 8 = n ∧ coreRuns k s = true then .next (takeTrap k 0x0D w a s1) else .next s1
    | none => .next s1

/-! ### Runtime update (R303) -/

/-- Row RUNTIME_UPDATE: letters are no longer dispatched to the cluster. -/
def execRuntimeUpdate (n : Nat) (s : State) : Out :=
  if clusUp n s then .next (updClus n (fun c => { c with update := .grace }) s) else .next s

/-- The 20 ms of a runtime update end: the letters left end, the cluster resets and the new runtime starts; one that fails its
start check gives way to the old image. -/
def graceExpiry (n version : Nat) (startOk selfTest : Bool) (s : State) : State :=
  if clusUp n s = false then unitActivated 3 n true s
  else if clusUp n s = true ∧ (clusAt n s).update = .grace then
    let s1 := clusterResetWith n 6 selfTest s
    if startOk then unitActivated 3 n true (updClus n (fun c => { c with version := version % 2 ^ 32 }) s1)
    else unitActivated 3 n false (otherPostmark 0x0C n (Reg.AXC_STATUS n) version 303 s1)
  else s

/-! ### Power (R288, R304) -/

/-- A cluster's domain comes on: caches off, cores in reset. -/
def clusStart (n : Nat) (s : State) : State :=
  if pdOn (12 + n) s && !pdRetired (12 + n) s then clusClear n (fset (Fl.AXC_STATUS_STATE n) 1 s) else s

/-- A cluster's domain goes off, after its dirty lines were written back or (at seal) without. -/
def clusStop (n : Nat) (s : State) : State :=
  if fget (Fl.AXC_STATUS_STATE n) s = 3 then s else clusClear n (fset (Fl.AXC_STATUS_STATE n) 0 (cleanLines n (fun _ => true) s))

end Sys2Proof.Machine
end

