-- ==== Sys2Proof/Machine/ProgBase.lean ====
section
/-! DEFINITION. Private memory, program slots and parcels, and the start and end of program executions and of their letters on
cores (R375–R391, R397). -/

namespace Sys2Proof.Machine

/-! ### Private memory (R376, R378, R380, R384, R397) -/

/-- `n` rounded up to a multiple of 4 KiB. -/
def pageUp (n : Nat) : Nat := (n + 4095) / 4096 * 4096

/-- Bytes of private memory of a function. -/
def privSize (f : Nat) (s : State) : Nat := 0x10000000 * (SMap.getD s.ten.priv f []).length

/-- Private memory charged to a function: images, executions (their parameter pages apart), staging buffers and the window
cache. -/
def privUsed (f : Nat) (s : State) : Nat :=
  (s.prog.alloc.filter (fun a => a.1 == f)).foldl (fun n a => n + a.2.2) 0
    - 4096 * (s.prog.execs.filter (fun e => e.2.func == f)).length
    + (s.prog.slots.filter (fun e => e.1 / 16 == f)).foldl (fun n e => n + 0x200000 * e.2.blocks.length) 0
    + 0x1000000 * SMap.getD s.prog.wcache f 4

/-- The function's private memory has room for `n` more bytes. -/
def privRoom (f n : Nat) (s : State) : Bool := decide (privUsed f s + n ≤ privSize f s)

/-- Free pieces between allocations that are sorted by offset. -/
def holesOf (cur size : Nat) : List (Nat × Nat) → List (Nat × Nat)
  | [] => if cur < size then [(cur, size - cur)] else []
  | (o, n) :: t => (if cur < o then [(cur, o - cur)] else []) ++ holesOf (o + n) size t

/-- Pieces that make up `n` bytes, from the lowest holes. -/
def takePieces : Nat → List (Nat × Nat) → List (Nat × Nat)
  | _, [] => []
  | n, (o, k) :: t => if n = 0 then [] else if n ≤ k then [(o, n)] else (o, k) :: takePieces (n - k) t

/-- Free pieces of a function's private memory. -/
def privHoles (f : Nat) (s : State) : List (Nat × Nat) :=
  let mine := (s.prog.alloc.filter (fun a => a.1 == f)).map (·.2)
  holesOf 0 (privSize f s) (mine.mergeSort (fun a b => decide (a.1 ≤ b.1)))

/-- Allocates `n` bytes of a function's private memory. -/
def privAlloc (f n : Nat) (s : State) : List (Nat × Nat) × State :=
  let ps := takePieces n (privHoles f s)
  (ps, { s with prog := { s.prog with alloc := s.prog.alloc ++ ps.map (fun p => (f, p.1, p.2)) } })

/-- Gives pieces of a function's private memory back. -/
def privFree (f : Nat) (ps : List (Nat × Nat)) (s : State) : State :=
  { s with prog := { s.prog with alloc := s.prog.alloc.filter (fun a => !(a.1 == f && ps.contains a.2)) } }

/-- Writes bytes into pieces of a function's private memory from byte `off`. -/
def writePriv (f : Nat) (ps : List (Nat × Nat)) (off : Nat) : List Byte → State → State
  | [], s => s
  | b :: t, s =>
    writePriv f ps (off + 1) t (match (pieceByte ps off).bind (fun o => privByte f o s) with
      | some p => wrByte p b s
      | none => s)

/-- Reads `n` bytes of pieces of a function's private memory from byte `off`. -/
def readPriv (f : Nat) (ps : List (Nat × Nat)) (off n : Nat) (s : State) : List Byte :=
  (List.range n).map (fun i => match (pieceByte ps (off + i)).bind (fun o => privByte f o s) with
    | some p => rdByte p s
    | none => 0)

/-! ### Feature 0xC2 (R397) -/

/-- The value of feature 0xC2 of a controller: TIME_LIMIT 600 s, WCACHE 4 by default. -/
def featC2 (ctrl : Nat) (s : State) : Nat :=
  match ctrlAt ctrl s with
  | some c => SMap.getD c.feats 0xC2 (600 + 4 * 65536)
  | none => 600 + 4 * 65536

/-- With no execution of a function in flight the window cache takes the size set last. -/
def applyWcache (f : Nat) (s : State) : State :=
  if s.prog.execs.any (fun e => e.2.func == f) then s
  else match s.nv.ctrls.find? (fun c => c.2.func == f && !c.2.fabric) with
    | some c => { s with prog := { s.prog with wcache := SMap.put s.prog.wcache f (featC2 c.1 s / 65536 % 256) } }
    | none => s

/-! ### Slots and parcels (R376–R378) -/

/-- Key of slot or range set `i` of a function. -/
def slotKey (f i : Nat) : Nat := 16 * f + i

/-- A program slot. -/
def slotAt (f i : Nat) (s : State) : Slot := SMap.getD s.prog.slots (slotKey f i) ⟨[], [], none⟩

/-- Puts a slot back. -/
def setSlot (f i : Nat) (x : Slot) (s : State) : State := { s with prog := { s.prog with slots := SMap.put s.prog.slots (slotKey f i) x } }

/-- The byte of a staged parcel at an offset, if loaded. -/
def stagedByte (x : Slot) (o : Nat) : Option Byte :=
  (x.pieces.find? (fun p => decide (p.1 ≤ o) && decide (o < p.1 + p.2.length))).bind (fun p => p.2[o - p.1]?)

/-- `n` staged bytes from an offset, those never loaded as zero. -/
def stagedBytes (x : Slot) (o n : Nat) : List Byte := (List.range n).map (fun i => (stagedByte x (o + i)).getD 0)

/-- The sections of a header: text, rodata and data as offset and size. -/
def parcelSections (h : List Byte) : List (Nat × Nat) :=
  [(fieldAt h 32 4, fieldAt h 36 4), (fieldAt h 40 4, fieldAt h 44 4), (fieldAt h 48 4, fieldAt h 52 4)]

/-- ASCII "LWPARCEL". -/
def parcelMagic : List Byte := [0x4C, 0x57, 0x50, 0x41, 0x52, 0x43, 0x45, 0x4C]

/-- Every reason of the Parcel Invalid table that applies to a loaded parcel (R377, R378). -/
def parcelFaults (x : Slot) : List Nat :=
  let h := stagedBytes x 0 128
  let total := fieldAt h 16 8
  let small := Nat.min total 67108864
  let secs := parcelSections h
  let loaded := (List.range small).all (fun o => (stagedByte x o).isSome)
  let body := stagedBytes x 0 small
  let zeroed := body.take 72 ++ List.replicate (Nat.min 32 (body.length - 72)) 0 ++ body.drop 104
  let used := secs.filter (fun q => q.2 != 0)
  let overlap := (used.zipIdx).any (fun a => (used.zipIdx).any (fun b => decide (a.2 < b.2) &&
    decide (a.1.1 < b.1.1 + b.1.2) && decide (b.1.1 < a.1.1 + a.1.2)))
  let reserved := (h.drop 12).take 4 ++ (h.drop 67).take 5 ++ (h.drop 104).take 24
  let stack := fieldAt h 60 4
  let entry := fieldAt h 24 8
  (if h.take 8 ≠ parcelMagic ∨ fieldAt h 8 2 ≠ 1 then [1] else []) ++
  (if digest 0 zeroed ≠ (h.drop 72).take 32 then [2] else []) ++
  (if 1 < fieldAt h 10 1 ∨ 4 ≤ fieldAt h 11 1 then [3] else []) ++
  (if 67108864 < total ∨ secs.any (fun q => decide (q.1 % 4096 ≠ 0) || decide (total < q.1 + q.2)) ∨ overlap = true ∨
      reserved.any (· != 0) then [4] else []) ++
  (if loaded = false then [5] else []) ++
  (if 0x40000000 < secs.foldl (fun n q => n + q.2) 0 + fieldAt h 56 4 ∨ stack < 4096 ∨ 0x100000 < stack ∨ stack % 4096 ≠ 0 ∨
      fieldAt h 64 2 = 0 ∨ fieldAt h 66 1 = 0 ∨ 16 < fieldAt h 66 1 then [6] else []) ++
  (if entry % 4 ≠ 0 ∨ fieldAt h 36 4 ≤ entry then [7] else [])

/-- The image a valid parcel is charged for: text, rodata and data, each to whole pages. -/
def parcelImage (x : Slot) : List Byte :=
  (parcelSections (stagedBytes x 0 128)).flatMap (fun q =>
    stagedBytes x q.1 q.2 ++ List.replicate (pageUp q.2 - q.2) 0)

/-- The header as kept with the activated image. -/
def parcelOf (x : Slot) (ps : List (Nat × Nat)) : Parcel :=
  let h := stagedBytes x 0 128
  { entry := fieldAt h 24 8, textOff := fieldAt h 32 4, textSize := fieldAt h 36 4, rodataOff := fieldAt h 40 4, rodataSize := fieldAt h 44 4
    dataOff := fieldAt h 48 4, dataSize := fieldAt h 52 4, bss := fieldAt h 56 4, stack := fieldAt h 60 4, frames := fieldAt h 64 2
    routes := fieldAt h 66 1, image := ps }

/-! ### Starting an execution (R380–R382) -/

/-- The addresses and backing of an execution's sections, in order: address, length, write, execute, in the image or in its own
memory, offset there. Frames follow bss. -/
def progLayout (p : Parcel) : List (Nat × Nat × Bool × Bool × Bool × Nat) :=
  let t := pageUp p.textSize
  let r := pageUp p.rodataSize
  let d := pageUp p.dataSize
  let b := pageUp p.bss
  let fr := pageUp (p.frames * (p.stack + 2048))
  [(0x10000, p.textSize, false, true, true, 0), (0x10000 + t, p.rodataSize, false, false, true, t),
    (0x10000 + t + r, p.dataSize, true, false, false, 0), (0x10000 + t + r + d, p.bss, true, false, false, d),
    (0x10000 + t + r + d + b, fr, true, false, false, d + b)]

/-- Private memory an execution is charged: data, bss and frames. -/
def execCharge (p : Parcel) : Nat := pageUp p.dataSize + pageUp p.bss + pageUp (p.frames * (p.stack + 2048))

/-- Address of frame 0. -/
def frameBase (p : Parcel) : Nat := 0x10000 + pageUp p.textSize + pageUp p.rodataSize + pageUp p.dataSize + pageUp p.bss

/-- The regions of an execution (R381). -/
def execRegions (p : Parcel) (ext : List (Nat × Nat)) (ranges : List (Nat × Nat)) : List Region :=
  (progLayout p).map (fun q => ⟨q.1, q.2.1, q.2.2.1, q.2.2.2.1, false, if q.2.2.2.2.1 then p.image else ext, q.2.2.2.2.2⟩) ++
    [⟨0x100000000000, 4096, false, false, false, ext, execCharge p⟩] ++
    ranges.zipIdx.map (fun r => ⟨0x200000000000 + r.2 * 0x1000000000, r.1.2, true, false, true, [], r.1.1⟩)

/-- An execution identifier that is free. -/
def freshExec : Nat → Nat → SMap Exec → Nat
  | 0, n, _ => n
  | k + 1, n, m => if (SMap.find m n).isSome then freshExec k (n % 65535 + 1) m else n

/-- Setup of an execution: memory charged and filled, its route, and its first letter. None where a quota or a table of the
scheduler leaves no room. -/
def startExec (x : Cmd) (f slot rset : Nat) (params : List Byte) (s : State) : Option State :=
  match (slotAt f slot s).active with
  | none => none
  | some p =>
    if privRoom f (execCharge p) s = false then none
    else
      let ranges := if rset = 0 then [] else SMap.getD s.prog.rsets (slotKey f (rset - 1)) []
      let al := privAlloc f (execCharge p + 4096) s
      let e := freshExec 4097 s.prog.nextExec s.prog.execs
      let dat := readPriv f p.image (pageUp p.textSize + pageUp p.rodataSize) p.dataSize al.2
      let s1 := writePriv f al.1 0 (dat ++ List.replicate (pageUp p.dataSize - p.dataSize + pageUp p.bss) 0) al.2
      let s2 := writePriv f al.1 (execCharge p) (params ++ List.replicate (4096 - params.length) 0) s1
      let rt := createRoute true 0 ⟨1, f, e, (resOf f s).mask, false⟩ s2
      if rt.1 ≠ 0 then none
      else
        let c2 := featC2 x.ctrl s
        let ex : Exec :=
          { func := f, ctrl := x.ctrl, tag := x.tag, slot := slot, rset := rset, start := tickNow s, limit := c2 % 65536
            regions := execRegions p al.1 ranges, ext := al.1, inUse := [], frame0 := frameBase p, stack := p.stack, firstLetter := 0
            plen := params.length, maxRoutes := p.routes, pcEnd := 0, faddr := 0, windows := [], ended := 0, tables := []
            endWith := none, frames := p.frames }
        let s3 := { rt.2.2 with prog := { rt.2.2.prog with execs := SMap.put rt.2.2.prog.execs e ex, nextExec := e % 65535 + 1 } }
        let r := submitLetter (some (schFirmware, 0, true)) (BitVec.ofNat 64 rt.2.1) 0 (BitVec.ofNat 64 (0x10000 + p.entry)) 0x100000000000 s3
        if 2 ^ 32 ≤ r.1 then none
        else some { r.2 with prog := { r.2.prog with execs := SMap.upd r.2.prog.execs e (fun y => { y with firstLetter := r.1 }) } }

/-! ### Letters on cores (R360, R382, R383) -/

/-- Four free values as a vector register. -/
def freeVec (s : State) : BitVec 256 :=
  (Config.freeValue s.free) ++ (Config.freeValue (s.free + 1)) ++ (Config.freeValue (s.free + 2)) ++ (Config.freeValue (s.free + 3))

/-- The runtime starts a taken letter on core `k`, or restores a suspended one. Registers to which no rule gives a value are
free. -/
def startLetter (k : Nat) (l : Letter) (s : State) : State :=
  match SMap.find s.prog.execs l.exec with
  | none => s
  | some x =>
    let s0 := updClus (k / 8) (fun c => { c with funcs := if c.funcs.contains x.func then c.funcs else x.func :: c.funcs }) s
    match SMap.find s.prog.saved l.id with
    | some c =>
      let s1 := { s0 with prog := { s0.prog with saved := SMap.del s0.prog.saved l.id } }
      setCore k { coreAt k s1 with g := c.g, pc := c.pc, v := c.v, lvl := 0, tables := some l.exec, idle := false
                                   sys := SMap.put (SMap.put (coreAt k s1).sys 4 c.stklim) 5 c.vstat } s1
    | none =>
      let fr := ((List.range x.frames).find? (fun i => !(x.inUse.any (fun u => u.2 == i)))).getD 0
      let bottom := x.frame0 + fr * (x.stack + 2048) + 2048
      let s1 := { s0 with prog := { s0.prog with execs := SMap.put s0.prog.execs l.exec { x with inUse := x.inUse ++ [(l.id, fr)] } } }
      let s2 := forN (fun i t => useFree (setG k (5 + i) (Config.freeValue t.free) t)) 26 s1
      let s3 := forN (fun i t => { t with
        cores := SMap.put t.cores k { coreAt k t with v := SMap.put (coreAt k t).v i (freeVec t) }, free := t.free + 4 }) 32 s2
      let s4 := s3 |> setG k 1 l.arg1 |> setG k 2 (BitVec.ofNat 64 (handleOf l)) |> setG k 3 (BitVec.ofNat 64 l.exec)
        |> setG k 4 (BitVec.ofNat 64 (if handleOf l = x.firstLetter then x.plen else 0))
        |> setG k 31 (BitVec.ofNat 64 (bottom + x.stack))
      setCore k { coreAt k s4 with pc := l.arg0, lvl := 0, tables := some l.exec, idle := false
                                   sys := SMap.put (coreAt k s4).sys 4 (BitVec.ofNat 64 (bottom + 1)) } s4

/-- The sp at which a letter's entry function returns to the runtime: the top of its frame. -/
def frameTop (k : Nat) (s : State) : Option Word :=
  match letterHeld k s with
  | none => none
  | some l =>
    if (coreAt k s).lvl ≠ 0 then none
    else match SMap.find s.prog.execs l.exec with
      | none => none
      | some x => (x.inUse.find? (fun u => u.1 == l.id)).map (fun u =>
          BitVec.ofNat 64 (x.frame0 + u.2 * (x.stack + 2048) + 2048 + x.stack))

/-- The letter of core `k` ends with a status (R382, R383). -/
def finishLetter (k st : Nat) (s : State) : State :=
  match letterHeld k s with
  | none => s
  | some l => leaveLetter k (endLetter l.id (if 0x80 ≤ st % 256 then 0x7F else st % 256) s)

/-! ### Ends (R386, R389, R390) -/

/-- Letters of an execution in flight. -/
def lettersOfExec (e f : Nat) (s : State) : List Letter := s.sch.letters.filter (fun l => l.owner == f && l.exec == e)

/-- Status of an end reason: type, code, DNR and dword 0 (R389). -/
def endStatus (reason low : Nat) (s : State) : Nat × Nat × Bool × Nat :=
  match reason with
  | 0 => (0, 0, false, low)
  | 1 => (0, 0, false, 0)
  | 2 => (7, 0xD0, true, 2 * 256 + low)
  | 3 => (7, 0xD1, true, 3 * 256)
  | 4 => (0, 0x07, false, 0)
  | 8 => (7, 0xD3, (List.range 8).all (fun c => !clusterServes c s), 8 * 256)
  | r => (7, 0xD2, false, r * 256)

/-- The Error Information entry just made for an execution gets the contents of R390. -/
def endLog (reason : Nat) (x : Exec) (s : State) : State :=
  if reason = 2 ∨ reason = 3 ∨ reason = 5 ∨ reason = 6 ∨ reason = 7 then
    { s with nv := { s.nv with errs := match s.nv.errs with
        | e :: t => { e with lba := x.faddr.toNat, cmdInfo := x.pcEnd.toNat, vendorInfo := reason } :: t
        | [] => [] } }
  else s

/-- END_OWNER is issued, and the runtimes abandon the letters that run on cores (R386). -/
def stopExec (e f : Nat) (s : State) : State :=
  forEach (fun (l : Letter) t => match l.port with
    | some p => if l.target = 0 then leaveLetter p (endLetter l.id 0x7F t) else t
    | none => t) ((lettersOfExec e f s).filter (fun l => l.state == .running)) (endOwner f e s)

/-- A running engine letter of an execution that ends is aborted: its descriptor says so (status 14 of R249, 8 of R266, 5 of R385), written
while the execution's tables still stand. Which engine had it is open. -/
def abortLetterOnEngine (l : Letter) (s : State) : State :=
  let a := l.arg0.toNat
  if l.state ≠ .running then s
  else match l.target with
    | 2 => abortComp (freeNat 2 s) (.exec l.exec) a (useFree s)
    | 3 => letterEnds (.exec l.exec) a 8 (fieldAt ((readSpace (.exec l.exec) (a + 56) 8 s).getD []) 0 8) s
    | 6 => writeSpace (.exec l.exec) (a + 5) (leBytes 1 5) s
    | _ => s

/-- Everything an execution holds is released (R386): its windows, pre-reads, scan jobs, tables and memory. Engine letters still
running end with it. -/
def releaseExec (e : Nat) (x : Exec) (s : State) : State :=
  let left := (lettersOfExec e x.func s).map (·.id)
  let s1 := endLetters left 0x7F (forEach abortLetterOnEngine (lettersOfExec e x.func s) s)
  let s2 := scanAbort5 (fun j => j.exec == some e) false (cancelPreReads (fun r => r.func == x.func && r.exec == e) s1)
  let s3 := { s2 with scan := { s2.scan with ends := s2.scan.ends.filter (fun p => !left.contains p.1) } }
  let s4 := forEach (fun w t => unmapWindow e w.1 t) x.windows s3
  let s5 := endOwner x.func e (forEach deleteTable x.tables s4)
  applyWcache x.func (privFree x.func x.ext { s5 with prog := { s5.prog with execs := SMap.del s5.prog.execs e } })

/-- Executions abandoned with no completion (reasons 9 and 10 of R389). -/
def abandonExecs (p : Exec → Bool) (s : State) : State :=
  forEach (fun e t => releaseExec e.1 e.2 (stopExec e.1 e.2.func t)) (s.prog.execs.filter (fun e => p e.2)) s

/-- Executions that satisfy `p` end with a reason; EXECUTION_END then tears each down. -/
def endExecs (p : Exec → Bool) (reason : Nat) (s : State) : State :=
  forEach (fun e t => recordEnd e.1 reason 0 0 0 t) (s.prog.execs.filter (fun e => p e.2)) s

end Sys2Proof.Machine
end

