-- ==== Sys2Proof/Machine/ProgOps.lean ====
section
/-! DEFINITION. Subsystem Local Memory commands, range sets, program slots, Execute Program and its end, match commands of the host
and the runtime calls: rows MATCH_LOOKUP to MATCH_TABLE_DELETE, LETTER_DISPATCH, ENGINE_LETTER_END, EXIT, and TCREATE to MEDIA_READ
(R358, R368–R397). -/

namespace Sys2Proof.Machine

/-! ### Memory commands (R371, R372) -/

/-- The status a command on a function's memory namespace ends with at once, if any. -/
def slmCheck (x : Cmd) (s : State) : Option (Nat × Nat × Bool) :=
  match nsAt x.nsid s with
  | none => some (0, 0x0B, true)
  | some n =>
    if !sees n x.ctrl s then some (0, 0x0B, true)
    else if n.csi ≠ 3 then some (0, 0x01, true)
    else if mode s = 9 then some (0, 0x1D, false)
    else none

/-- Bytes `off` to `off + n - 1` lie in the function's memory namespace. -/
def slmRange (f off n : Nat) (s : State) : Bool := decide (off + n ≤ slmSize f s)

/-- Row MEMORY_READ. -/
def execMemoryRead (tag off len : Nat) (s : State) : Out :=
  match justFetched tag [.memory] s with
  | none => .next s
  | some x =>
    let f := funcOf x.ctrl s
    match slmCheck x s with
    | some (sct, sc, dnr) => .next (complete tag sct sc dnr 0 [] s)
    | none =>
      if ¬ slmRange f off len s ∨ 2097152 < len then .next (invalidField tag s)
      else match readSpace (.host f) off len s with
        | some bs => .next (completeData tag bs s)
        | none => .next (complete tag 0 0x04 false 0 [] s)

/-- Row MEMORY_WRITE: the bytes the host transfers go to SLM. -/
def execMemoryWrite (tag off : Nat) (data : List Byte) (s : State) : Out :=
  match justFetched tag [.memory] s with
  | none => .next s
  | some x =>
    let f := funcOf x.ctrl s
    match slmCheck x s with
    | some (sct, sc, dnr) => .next (complete tag sct sc dnr 0 [] s)
    | none =>
      if ¬ slmRange f off data.length s ∨ 2097152 < data.length then .next (invalidField tag s)
      else .next (completeOk tag (writeSpace (.host f) off data s))

/-- `n` copies of an 8-byte pattern. -/
def patternBytes (p : Word) : Nat → List Byte
  | 0 => []
  | n + 1 => leBytes 8 p.toNat ++ patternBytes p n

/-- Row MEMORY_FILL. -/
def execMemoryFill (tag off len : Nat) (pat : Word) (s : State) : Out :=
  match justFetched tag [.memory] s with
  | none => .next s
  | some x =>
    let f := funcOf x.ctrl s
    match slmCheck x s with
    | some (sct, sc, dnr) => .next (complete tag sct sc dnr 0 [] s)
    | none =>
      if ¬ slmRange f off len s ∨ off % 8 ≠ 0 ∨ len % 8 ≠ 0 then .next (invalidField tag s)
      else .next (completeOk tag (writeSpace (.host f) off (patternBytes pat (len / 8)) s))

/-- Bytes one logical block takes in SLM: its data, and its metadata unless the module strips or inserts it. -/
def blockSize (n : Ns) (strip : Bool) : Nat := lbaBytes n.flbas + (if strip then 0 else (metaBytes n.flbas (zeroBlk n.flbas)).length)

/-- The blocks of a range of a namespace with the units they lie in, one version for each unit; a unit that cannot be read is
absent. -/
def unitsOfRange (nsid slba nlb : Nat) (n : Ns) (bad : List Nat) (s : State) : List (Option (List LBlk)) :=
  let k := lbasPerIu n.flbas
  (List.range nlb).map (fun i =>
    let iu := (slba + i) / k
    let u := iuAt (mapKey nsid iu) s
    if bad.contains iu ∨ (u.any (·.uncorr)) = true then none
    else some (blocksOf k n.flbas (fun _ => iuData (mapKey nsid iu) s) (slba + i) 1))

/-- The prefix of a list up to its first absent element, and whether there is one. -/
def untilNone {α : Type} : List (Option (List α)) → List α × Bool
  | [] => ([], false)
  | none :: _ => ([], true)
  | some a :: t => let r := untilNone t; (a ++ r.1, r.2)

/-- Row MEMORY_COPY_TO_SLM (R372): source ranges as namespace, first LBA and count; `bad` are units that failed every read step.
Of the units before an unreadable one, those already in SLM are not fixed. -/
def execMemoryCopyToSlm (tag off : Nat) (ranges : List (Nat × Nat × Nat)) (pr : PrInfo) (bad : List Nat) (s : State) : Out :=
  match justFetched tag [.memory] s with
  | none => .next s
  | some x =>
    let f := funcOf x.ctrl s
    match slmCheck x s with
    | some (sct, sc, dnr) => .next (complete tag sct sc dnr 0 [] s)
    | none =>
      let checks := ranges.findSome? (fun r => ioCheck { x with nsid := r.1, lba := r.2.1, nlb := r.2.2, kind := .dealloc } false s)
      let parts := ranges.filterMap (fun r => (nsAt r.1 s).map (fun n => (r, n)))
      let size := parts.foldl (fun t p => t + p.1.2.2 * blockSize p.2 (pr.pract && p.2.dps != 0)) 0
      if ranges.isEmpty ∨ 128 < ranges.length ∨ 67108864 < size then .next (complete tag 1 0x83 true 0 [] s)
      else if off % 8 ≠ 0 ∨ ¬ slmRange f off size s then .next (invalidField tag s)
      else match checks with
        | some (sct, sc, dnr) => .next (complete tag sct sc dnr 0 [] s)
        | none =>
          let read := parts.map (fun p => (p, untilNone (unitsOfRange p.1.1 p.1.2.1 p.1.2.2 p.2 bad s)))
          let s := forEach (fun p t => readRange p.1.1 p.1.2.1 p.1.2.2 p.2 bad t) parts s
          let bytes := read.flatMap (fun r => hostBytesOf r.1.2.flbas r.1.2.ext (pr.pract && r.1.2.dps != 0) r.2.1)
          match read.findSome? (fun r => (checkBlocks r.1.2.dps r.1.2.flbas pr r.1.1.2.1 r.2.1).map (fun e => (e, r.1.1.1))) with
          | some ((sc, lba), ns) => .next (complete tag 2 sc true 0 [] (setCmd { x with lba := lba, nsid := ns } s))
          | none =>
            if read.any (fun r => r.2.2) then
              let upTo := ((read.take ((read.takeWhile (fun r => !r.2.2)).length + 1)).flatMap
                (fun r => hostBytesOf r.1.2.flbas r.1.2.ext (pr.pract && r.1.2.dps != 0) r.2.1))
              let kept := upTo.take (freeNat 64 s % (upTo.length / 16384 + 1) * 16384)
              .next (complete tag 2 0x81 true 0 [] (writeSpace (.host f) off kept (useFree s)))
            else .next (completeOk tag (writeSpace (.host f) off bytes s))

/-- A block from its bytes in SLM. -/
def blkOf (flbas : Nat) (strip : Bool) (bs : List Byte) : LBlk :=
  let d := bs.take (lbaBytes flbas)
  let m := if strip then [] else bs.drop (lbaBytes flbas)
  if flbas % 3 = 1 then ⟨d, beVal (m.take 2), beVal ((m.drop 2).take 2), beVal ((m.drop 4).take 4)⟩
  else if flbas % 3 = 2 then ⟨d, beVal (m.take 8), beVal ((m.drop 8).take 2), beVal ((m.drop 10).take 6)⟩
  else ⟨d, 0, 0, 0⟩

/-- `n` blocks from bytes. -/
def blksOf (n : Ns) (strip : Bool) (bs : List Byte) : Nat → List LBlk
  | 0 => []
  | k + 1 => blkOf n.flbas strip (bs.take (blockSize n strip)) :: blksOf n strip (bs.drop (blockSize n strip)) k

/-- Row MEMORY_COPY_TO_NVM (R372): SLM bytes go to one range of a namespace through the write path; the command holds no tracker
entry and completes when every unit is on the medium. -/
def execMemoryCopyToNvm (tag off nsid slba nlb : Nat) (pr : PrInfo) (s : State) : Out :=
  match justFetched tag [.memory] s with
  | none => .next s
  | some x =>
    let f := funcOf x.ctrl s
    match slmCheck x s with
    | some (sct, sc, dnr) => .next (complete tag sct sc dnr 0 [] s)
    | none =>
      let y := { x with nsid := nsid, lba := slba, nlb := nlb, kind := CmdKind.write, tracked := false }
      match ioCheck { y with kind := .dealloc } true s with
      | some (sct, sc, dnr) => .next (complete tag sct sc dnr 0 [] s)
      | none =>
        match nsAt nsid s with
        | none => .next s
        | some n =>
          let strip := pr.pract && n.dps != 0
          let size := nlb * blockSize n strip
          if 67108864 < size then .next (complete tag 1 0x83 true 0 [] s)
          else if off % 8 ≠ 0 ∨ ¬ slmRange f off size s ∨ nlb = 0 then .next (invalidField tag s)
          else match readSpace (.host f) off size s with
            | none => .next (complete tag 0 0x04 false 0 [] s)
            | some bs =>
              let data := blksOf n strip bs nlb
              match (if pr.pract then none else checkBlocks n.dps n.flbas pr slba data) with
              | some (sc, lba) => .next (complete tag 2 sc true 0 [] (setCmd { y with lba := lba } s))
              | none =>
                let w := (blocksFrom slba data).map (fun e => (e.1, protect n.dps n.flbas e.1 pr e.2))
                .next (admitWrite tag (setCmd { y with wdata := w, pr := pr, phase := .held } s))

/-! ### Range sets (R375) -/

/-- A command on the controller's compute namespace: its function. -/
def progCheck (tag : Nat) (s : State) : Option (Cmd × Nat) :=
  (justFetched tag [.program] s).map (fun x => (x, funcOf x.ctrl s))

/-- Runs a program command, once its namespace has been checked. -/
def progCmd (tag : Nat) (run : Cmd → Nat → State → State) (s : State) : Out :=
  match progCheck tag s with
  | none => .next s
  | some (x, f) =>
    if computeNs x s = false then .next (complete tag 0 0x0B true 0 [] s)
    else if mode s = 9 then .next (complete tag 0 0x1D false 0 [] s)
    else .next (run x f s)

/-- Program In Use. -/
def inUse (tag : Nat) (s : State) : State := complete tag 7 0xD7 false 0 [] s
/-- Tenant Quota Exceeded. -/
def quotaExceeded (tag : Nat) (s : State) : State := complete tag 7 0xC3 true 0 [] s
/-- Command Sequence Error. -/
def sequenceError (tag : Nat) (s : State) : State := complete tag 0 0x0C true 0 [] s

/-- Row MEMORY_RANGE_SET_CREATE: ranges as offset and length; dword 0 holds the identifier, counted from 1. -/
def execMemoryRangeSetCreate (tag : Nat) (ranges : List (Nat × Nat)) (s : State) : Out :=
  progCmd tag (fun _ f t =>
    let ok := !ranges.isEmpty && decide (ranges.length ≤ 32) && ranges.all (fun r =>
      decide (r.1 % 4096 = 0) && decide (r.2 % 4096 = 0) && decide (r.2 ≤ 0x1000000000) && decide (0 < r.2) && slmRange f r.1 r.2 t)
    match (List.range 16).find? (fun i => (SMap.find t.prog.rsets (slotKey f i)).isNone) with
    | some i =>
      if ok then completeDw tag (i + 1) { t with prog := { t.prog with rsets := SMap.put t.prog.rsets (slotKey f i) ranges } }
      else invalidField tag t
    | none => invalidField tag t) s

/-- An execution of the function names range set `id`. -/
def rsetNamed (f id : Nat) (s : State) : Bool := s.prog.execs.any (fun e => e.2.func == f && e.2.rset == id)

/-- Row MEMORY_RANGE_SET_DELETE. -/
def execMemoryRangeSetDelete (tag id : Nat) (s : State) : Out :=
  progCmd tag (fun _ f t =>
    if id = 0 ∨ 16 < id ∨ (SMap.find t.prog.rsets (slotKey f (id - 1))).isNone then invalidField tag t
    else if rsetNamed f id t then inUse tag t
    else completeOk tag { t with prog := { t.prog with rsets := SMap.del t.prog.rsets (slotKey f (id - 1)) } }) s

/-! ### Program slots (R376, R378, R379) -/

/-- 2 MiB blocks of the staging buffer that a piece touches. -/
def stagingBlocks (off n : Nat) : List Nat := ((List.range ((off + n - 1) / 0x200000 + 1)).filter (fun b => decide (off / 0x200000 ≤ b)))

/-- Row LOAD_PROGRAM: a piece of a parcel of program type `ptype` for a slot, at its load offset. -/
def execLoadProgram (tag slot ptype off : Nat) (data : List Byte) (s : State) : Out :=
  progCmd tag (fun _ f t =>
    if 16 ≤ slot ∨ ptype ≠ 0xC1 ∨ off % 4096 ≠ 0 ∨ 0x4000000 < off + data.length ∨ 2097152 < data.length ∨ data.isEmpty then invalidField tag t
    else
      let x := slotAt f slot t
      if x.active.isSome then inUse tag t
      else
        let new := (stagingBlocks off data.length).filter (fun b => !x.blocks.contains b)
        if privRoom f (0x200000 * new.length) t = false then quotaExceeded tag t
        else completeOk tag (setSlot f slot { x with pieces := (off, data) :: x.pieces, blocks := x.blocks ++ new } t)) s

/-- Row UNLOAD_PROGRAM. -/
def execUnloadProgram (tag slot : Nat) (s : State) : Out :=
  progCmd tag (fun _ f t =>
    if 16 ≤ slot then invalidField tag t
    else if (slotAt f slot t).active.isSome then inUse tag t
    else completeOk tag { t with prog := { t.prog with slots := SMap.del t.prog.slots (slotKey f slot) } }) s

/-- Row ACTIVATE_PROGRAM: of several checks that fail the manual does not say which is reported. -/
def execActivateProgram (tag slot : Nat) (s : State) : Out :=
  progCmd tag (fun _ f t =>
    if 16 ≤ slot then invalidField tag t
    else
      let x := slotAt f slot t
      if x.active.isSome then inUse tag t
      else if x.pieces.isEmpty then sequenceError tag t
      else match parcelFaults x with
        | [] =>
          let img := parcelImage x
          if privRoom f img.length t = false then quotaExceeded tag t
          else
            let al := privAlloc f img.length t
            completeOk tag (setSlot f slot ⟨[], [], some (parcelOf x al.1)⟩ (writePriv f al.1 0 img al.2))
        | [r] => complete tag 7 0xD6 true r [] t
        | r :: u => complete tag 7 0xD6 true ((r :: u).getD (freeNat 64 t % (u.length + 1)) r) [] (useFree t)) s

/-- Row DEACTIVATE_PROGRAM. -/
def execDeactivateProgram (tag slot : Nat) (s : State) : Out :=
  progCmd tag (fun _ f t =>
    if 16 ≤ slot then invalidField tag t
    else match (slotAt f slot t).active with
      | none => sequenceError tag t
      | some p =>
        if t.prog.execs.any (fun e => e.2.func == f && e.2.slot == slot) then inUse tag t
        else completeOk tag { (privFree f p.image t) with prog := { (privFree f p.image t).prog with
          slots := SMap.del t.prog.slots (slotKey f slot) } }) s

/-! ### Execution (R380, R386–R391) -/

/-- Execute Program once one of the 4,096 executions is free. -/
def beginExec (x : Cmd) (f slot rset : Nat) (params : List Byte) (s : State) : State :=
  match startExec x f slot rset params s with
  | some t => setCmd { x with phase := .started } t
  | none => quotaExceeded x.tag s

/-- Row EXECUTE_PROGRAM. -/
def execExecuteProgram (tag slot rset : Nat) (params : List Byte) (s : State) : Out :=
  progCmd tag (fun x f t =>
    let r := resOf f t
    if 16 ≤ slot ∨ 4096 < params.length then invalidField tag t
    else if (slotAt f slot t).active.isNone then sequenceError tag t
    else if rset ≠ 0 ∧ (16 < rset ∨ (SMap.find t.prog.rsets (slotKey f (rset - 1))).isNone) then invalidField tag t
    else if (List.range 8).all (fun c => !clusterServes c t) then complete tag 7 0xD3 true (8 * 256) [] t
    else if r.compW = 0 ∨ r.execs ≤ (t.prog.execs.filter (fun e => e.2.func == f)).length +
        (t.prog.waiting.filter (fun w => w.2.1 == f)).length then quotaExceeded tag t
    else if 4096 ≤ t.prog.execs.length then
      setCmd { x with phase := .held } { t with prog := { t.prog with waiting := t.prog.waiting ++ [(tag, f, slot, rset, params)] } }
    else beginExec x f slot rset params t) s

/-- An Execute Program that waited begins. -/
def nextWaiting (s : State) : State :=
  match s.prog.waiting with
  | [] => s
  | (tag, f, slot, rset, params) :: t =>
    if 4096 ≤ s.prog.execs.length then s
    else
      let s1 := { s with prog := { s.prog with waiting := t } }
      match cmdAt tag s1 with
      | some x => if x.result.isSome then s1 else beginExec x f slot rset params s1
      | none => s1

/-- Row EXECUTION_TIME_LIMIT (R387): an execution that the tick has taken past its limit ends. -/
def execExecutionTimeLimit (e : Nat) (s : State) : Out :=
  match SMap.find s.prog.execs e with
  | some x => if x.limit ≠ 0 ∧ x.start + x.limit * 1000000 < tickNow s then .next (recordEnd e 3 0 0 0 s) else .next s
  | none => .next s

/-- The execution has drained, or an event has ended it: the reason. -/
def endReason (e : Nat) (x : Exec) (s : State) : Option (Nat × Nat) :=
  match x.endWith with
  | some r => some r
  | none => if (lettersOfExec e x.func s).isEmpty then some (1, 0) else none

/-- Row EXECUTION_END (R386): letters are stopped; once none is left everything is released and the completion is posted. -/
def execExecutionEnd (e : Nat) (s : State) : Out :=
  match SMap.find s.prog.execs e with
  | none => .next s
  | some x =>
    match endReason e x s with
    | none => .next s
    | some (reason, low) =>
      let s1 := stopExec e x.func s
      if ¬ (lettersOfExec e x.func s1).isEmpty then .next s1
      else
        let y := match SMap.find s1.prog.execs e with | some y => y | none => x
        let s2 := releaseExec e y s1
        let st := endStatus reason low s
        let s3 := completeBoth x.tag st.1 st.2.1 st.2.2.1 st.2.2.2 (Nat.min y.ended 0xFFFFFFFF) [] s2
        .next (nextWaiting (if (cmdAt x.tag s).isSome then endLog reason y s3 else s3))

/-! ### Runtime calls (R383) -/

/-- Row EXIT: the first EXIT of an execution counts. -/
def execExit (k : Nat) (s : State) : Out :=
  match svCall k 6 s with
  | none => .next s
  | some e => .next (recordEnd e 0 ((gr k 1 s).toNat % 2 ^ 32) 0 (coreAt k s).pc s)

/-- A table of an execution of function `f`, with the fields of the match-table command: the identifier and capacity, or a refusal. -/
def newTable (f c11 c12 c13 : Nat) (s : State) : Option TblNew × State :=
  let kw := c11 % 16
  let sh := c11 / 16 % 2 == 1
  let reps := c11 / 32 % 32
  if kw = 0 ∨ 8 < kw ∨ reps = 0 ∨ 16 < reps ∨ c11 / 1024 ≠ 0 ∨ c12 = 0 ∨ c13 ≠ 0 ∨ (sh = true ∧ isPhysical f s = false) then (none, s)
  else
    let r := createTable f kw reps c12 sh s
    (some r.1, r.2)

/-- Row TCREATE. -/
def execTcreate (k : Nat) (s : State) : Out :=
  match svCall k 9 s with
  | none => .next s
  | some e =>
    match readSpace (.exec e) (gr k 1 s).toNat 12 s with
    | none => .next (svAnswer k (some 0) (some 2) s)
    | some bs =>
      let r := newTable (execFunc e s) (fieldAt bs 0 4) (fieldAt bs 4 4) (fieldAt bs 8 4) s
      match r.1 with
      | none => .next (svAnswer k (some 0) (some 2) s)
      | some (.made t _) => .next (svAnswer k (some (BitVec.ofNat 64 t)) (some 0) { r.2 with prog := { r.2.prog with
          execs := SMap.upd r.2.prog.execs e (fun x => { x with tables := x.tables ++ [t] }) } })
      | some .noSpace => .next (svAnswer k (some 0) (some 3) s)
      | some .quota => .next (svAnswer k (some 0) (some 1) s)

/-- Row TDELETE. -/
def execTdelete (k : Nat) (s : State) : Out :=
  match svCall k 10 s with
  | none => .next s
  | some e =>
    match SMap.find s.prog.execs e with
    | none => .next s
    | some x =>
      let t := (gr k 1 s).toNat
      if x.tables.contains t then
        let s1 := deleteTable t { s with prog := { s.prog with execs := SMap.put s.prog.execs e { x with tables := x.tables.filter (· != t) } } }
        .next (svAnswer k none (some 0) s1)
      else .next (svAnswer k none (some 2) s)

/-- Row ROUTE. -/
def execRoute (k : Nat) (s : State) : Out :=
  match svCall k 11 s with
  | none => .next s
  | some e =>
    match SMap.find s.prog.execs e with
    | none => .next s
    | some x =>
      let kind := (gr k 1 s).toNat
      let mine := s.sch.routes.filter (fun r => r.2.owner == x.func && r.2.exec == e)
      if kind = 0 ∨ 3 < kind then .next (svAnswer k (some 0) (some 2) s)
      else if x.maxRoutes ≤ mine.length then .next (svAnswer k (some 0) (some 1) s)
      else
        let r := createRoute true 0 ⟨kind, x.func, e, (resOf x.func s).mask, false⟩ s
        if r.1 = 0 then .next (svAnswer k (some (BitVec.ofNat 64 r.2.1)) (some 0) (showSch r.2.2))
        else .next (svAnswer k (some 0) (some 3) r.2.2)

/-! ### Match commands (R394, R395) -/

/-- What an operation block at SLM offset `off` comes to, from its bytes, after blocks that have so many failures and hits; none where it
cannot be read. -/
def lookupWith (f off bad hit : Nat) (b : Option (List Byte)) (s : State) : Option (Nat × Nat × State) :=
  match b with
  | none => none
  | some bs =>
    let r := matchBlock f bs s
    some (bad + if r.1.status = 0 then 0 else 1, hit + if r.1.hit then 1 else 0, writeSpace (.host f) off r.2.1 r.2.2)

/-- Performs the operation block at SLM offset `off`. -/
def lookupBlock (f off : Nat) (acc : Option (Nat × Nat × State)) : Option (Nat × Nat × State) :=
  match acc with
  | none => none
  | some (bad, hit, s) => lookupWith f off bad hit (readSpace (.host f) off 160 s) s

/-- Performs `n` operation blocks from an SLM offset: blocks with a status other than 0, hits, and the state. -/
def lookupBlocks (f off n : Nat) (s : State) : Option (Nat × Nat × State) :=
  (List.range n).foldl (fun acc i => lookupBlock f (off + 160 * i) acc) (some (0, 0, s))

/-- Row MATCH_LOOKUP: `n` blocks from an SLM offset. -/
def execMatchLookup (tag off n : Nat) (s : State) : Out :=
  progCmd tag (fun _ f t =>
    if off % 8 ≠ 0 ∨ n = 0 ∨ 65536 < n ∨ ¬ slmRange f off (160 * n) t then invalidField tag t
    else match lookupBlocks f off n t with
      | some (bad, hit, u) => completeBoth tag 0 0 false bad hit [] u
      | none => complete tag 0 0x04 false 0 [] t) s

/-- Row MATCH_TABLE_CREATE: dwords 11 to 13 of the command. -/
def execMatchTableCreate (tag c11 c12 c13 : Nat) (s : State) : Out :=
  progCmd tag (fun _ f t =>
    let r := newTable f c11 c12 c13 t
    match r.1 with
    | none => invalidField tag t
    | some (.made n cap) => completeBoth tag 0 0 false n cap [] r.2
    | some .noSpace => complete tag 7 0xD8 false 0 [] t
    | some .quota => quotaExceeded tag t) s

/-- Row MATCH_TABLE_DELETE. -/
def execMatchTableDelete (tag n : Nat) (s : State) : Out :=
  progCmd tag (fun _ f t =>
    if n < 256 ∧ (tblAt n t).valid = true ∧ (tblAt n t).owner = f then completeOk tag (deleteTable n t) else invalidField tag t) s

/-! ### Engine letters (R351, R358, R365, R383) -/

/-- The address space of a letter's descriptor. -/
def letterSpace (l : Letter) : Space := if l.owner = schFirmware then .phys else .exec l.exec

/-- Row LETTER_DISPATCH: the ready engine letter `id`, of which the wait was `ns`, goes to its engine; with `window`, the read
entry of that handle goes to the window service. -/
def execLetterDispatch (window : Bool) (id ns : Nat) (s : State) : Out :=
  if ¬ schUp s then .next s
  else if window then .next (showSch (sendRead id s))
  else match letterAt id s with
    | none => .next s
    | some l =>
      if l.state ≠ .ready ∨ l.target < 2 ∨ routeFree l s = false ∨ inTurn l s = false ∨ (5 ≤ l.target ∧ fget Fl.SCH_STATUS_BRACE_HOLD s = 1) then .next s
      else
        let s1 := showSch (dispatched l ns s)
        if l.target = 5 then
          let ctrl := match SMap.find s.prog.execs l.exec with | some x => x.ctrl | none => 0
          let ex := if l.owner = schFirmware then none else some l.exec
          .next (scanSubmit l.owner ctrl ex none (some l.id) (letterSpace l) l.arg0.toNat s1)
        else .next (if l.target = 3 then showFree s1 else s1)

/-- Row ENGINE_LETTER_END: the engine of a running letter completes it, with `unit` and `more` what a compression engine adds. -/
def execEngineLetterEnd (id unit : Nat) (more : List Byte) (s : State) : Out :=
  match letterAt id s with
  | none => .next s
  | some l =>
    let a := l.arg0.toNat
    let sp := letterSpace l
    if l.state ≠ .running then .next s
    else match l.target with
      | 2 => match serveComp unit sp a more s with
        | some (st, t) => .next (endLetter id st t)
        | none => .next s
      | 3 =>
        if letterCtx s then
          let r := digestLetter sp a s
          .next (showFree (endLetter id r.1 r.2))
        else .next s
      | 4 => match readSpace sp a 160 s with
        | none => .next (endLetter id 4 s)
        | some bs =>
          if writable sp a 160 s then
            let r := matchBlock l.owner bs s
            .next (endLetter id r.1.status (writeSpace sp a r.2.1 r.2.2))
          else .next (endLetter id 4 s)
      | 5 => match s.scan.ends.find? (fun p => p.1 == id) with
        | some p => .next (endLetter id p.2 { s with scan := { s.scan with ends := s.scan.ends.filter (fun q => q.1 != id) } })
        | none => .next s
      | _ => .next s

/-- The data of LBAs for a media read: unreadable ones are zeros, or end it; with the first unreadable LBA. -/
def mediaData (n : Ns) (stop : Bool) : Nat → List (Option (List LBlk)) → List Byte × Option Nat
  | _, [] => ([], none)
  | lba, some bs :: t =>
    let r := mediaData n stop (lba + 1) t
    (bs.flatMap (·.data) ++ r.1, r.2)
  | lba, none :: t =>
    if stop then ([], some lba)
    else
      let r := mediaData n stop (lba + 1) t
      (List.replicate (lbaBytes n.flbas) 0 ++ r.1, some lba)

/-- The media-read letter ends: STATUS and FIRST_BAD are written, then the letter ends. -/
def mediaEnd (l : Letter) (st : Nat) (first : Option Nat) (s : State) : State :=
  let a := l.arg0.toNat
  let s1 := writeSpace (letterSpace l) (a + 5) (leBytes 1 st) s
  endLetter l.id st (writeSpace (letterSpace l) (a + 32) (leBytes 8 (first.getD (2 ^ 64 - 1))) s1)

/-- Row MEDIA_READ (R385): the running media-read letter `id` is served; `bad` are units that failed every read step. -/
def execMediaRead (id : Nat) (bad : List Nat) (s : State) : Out :=
  match letterAt id s with
  | none => .next s
  | some l =>
    if l.state ≠ .running ∨ l.target ≠ 6 then .next s
    else match readSpace (letterSpace l) l.arg0.toNat 64 s with
      | none => .next (endLetter id 4 s)
      | some h =>
        let nsid := fieldAt h 0 4
        let slba := fieldAt h 8 8
        let nlb := fieldAt h 16 8
        let dest := fieldAt h 24 8
        let ok := match SMap.find s.prog.execs l.exec with
          | some x => (nsAt nsid s).any (fun n => sees n x.ctrl s)
          | none => l.owner == schFirmware
        match nsAt nsid s with
        | none => .next (mediaEnd l (if 2 ≤ fieldAt h 4 1 ∨ fieldAt h 6 2 ≠ 0 ∨ nlb = 0 then 3 else 2) none s)
        | some n =>
          if 2 ≤ fieldAt h 4 1 ∨ fieldAt h 6 2 ≠ 0 ∨ nlb = 0 ∨ 16777216 < nlb * lbaBytes n.flbas then
            .next (mediaEnd l 3 none s)
          else if ok = false ∨ n.csi ≠ 0 ∨ n.keyLost = true ∨ n.nsze < slba + nlb then .next (mediaEnd l 2 none s)
          else
            let r := mediaData n (fieldAt h 4 1 % 2 == 1) slba (unitsOfRange nsid slba nlb n bad s)
            let s := readRange nsid slba nlb n bad s
            if writable (letterSpace l) dest r.1.length s = false then .next (mediaEnd l 4 none s)
            else
              let first := (List.range nlb).find? (fun i => ((unitsOfRange nsid slba nlb n bad s).getD i none).isNone)
              .next (mediaEnd l (if r.2.isSome then 1 else 0) (first.map (· + slba)) (writeSpace (letterSpace l) dest r.1 s))

/-! ### Ports at the service of programs (R383) -/

/-- The runtime call SUBMIT of the letter on core `k`. -/
def svSubmit (k e : Nat) (s : State) : State :=
  match readSpace (.exec e) (gr k 1 s).toNat 32 s, SMap.find s.prog.execs e with
  | some bs, some x =>
    let w (o : Nat) : Word := BitVec.ofNat 64 (fieldAt bs o 8)
    let mine := (lettersOfExec e x.func s).filter (fun l => l.target == 0)
    if (subRecOf (w 0) (w 8)).target = 0 ∧ x.frames ≤ mine.length then svAnswer k (some 0) (some 8) s
    else
      let r := submitLetter (some (x.func, e, false)) (w 0) (w 8) (w 16) (w 24) s
      svAnswer k (some (BitVec.ofNat 64 (r.1 % 2 ^ 32))) (some (BitVec.ofNat 64 (r.1 / 2 ^ 32))) r.2
  | _, _ => svAnswer k (some 0) (some 4) s

/-- TAKE of port `p`: on a compute core the runtime starts the letter of an execution that it takes. -/
def takeAndStart (p fn ns : Nat) (s : State) : State :=
  let had := (heldBy p s).isSome
  let s1 := (portTake p fn ns s).2
  if p < 64 ∧ had = false then
    match heldBy p s1 with
    | some l => if l.owner = schFirmware then showCore p s1 else startLetter p l s1
    | none => s1
  else if p < 76 then showCore p s1 else s1

end Sys2Proof.Machine
end

