-- ==== Sys2Proof/Machine/TenantOps.lean ====
section
/-! DEFINITION. Letterbox requests: rows LETTERBOX_DOORBELL to M2H_HEAD_WRITE (R444–R457). -/

namespace Sys2Proof.Machine

/-- Management firmware and the letterbox pages work (PD01). -/
def lbxUp (s : State) : Bool := pdOn 1 s

/-! ### Rings (R448–R450) -/

/-- An ERROR notice: 1 invalid doorbell, 2 unknown TYPE. -/
def errorNotice (f keep what : Nat) (s : State) : State := sendMsg f keep (notice 0x13 f (leBytes 1 what)) s

/-- The host writes H2M_TAIL: the requests up to it are submitted, or the write is ignored (R448). -/
def h2mDoorbell (f tail : Nat) (s : State) : State :=
  let old := fget (Fl.LBX_H2M_TAIL_INDEX f) s
  let head := fget (Fl.LBX_H2M_HEAD_INDEX f) s
  let t := tail % 256
  let adv := (t + 256 - old) % 256
  if 4 < (t + 256 - head) % 256 ∨ 4 < adv then
    errorNotice f 0 1 (otherPostmark 0x11 f (Reg.LBX_H2M_TAIL f) tail 448 s)
  else { fset (Fl.LBX_H2M_TAIL_INDEX f) t s with ten := { s.ten with doorbells := s.ten.doorbells ++ List.replicate adv f } }

/-- The host of function `f` writes messages into the next slots and then the new index. -/
def letterboxDoorbell (f : Nat) (msgs : List (List Byte)) (tail : Nat) (s : State) : State :=
  if lbxUp s = false ∨ funcEnabled f s = false then s
  else
    let t0 := fget (Fl.LBX_H2M_TAIL_INDEX f) s
    h2mDoorbell f tail (forEach (fun m t =>
      putSlot (Reg.LBX_H2M_SLOT f ((t0 + m.2) % 4) 0) (m.1 ++ List.replicate 256 0) t) msgs.zipIdx s)

/-- The host writes M2H_HEAD: held messages are posted as far as slots are free (R450). -/
def m2hHead (f head : Nat) (s : State) : State :=
  showLbx f (postHeldMsgs f 0 33 (fset (Fl.LBX_M2H_HEAD_INDEX f) head s))

/-- The function whose request is served next: the first in doorbell order whose M2H ring has a slot for the response (R449). Doorbells
are kept while management firmware is being activated or its core is halted (R508). -/
def nextRequest (s : State) : Option Nat :=
  if s.ten.paused ∨ lbxUp s = false ∨ coreHalted 76 s = true then none else s.ten.doorbells.find? (fun f => decide (0 < m2hFree f s))

/-- Bytes of the request a function's ring holds at its head. -/
def requestBytes (f : Nat) (s : State) : List Byte :=
  (List.range 64).flatMap (fun j => leBytes 4 (rd (Reg.LBX_H2M_SLOT f (fget (Fl.LBX_H2M_HEAD_INDEX f) s % 4) j) s).toNat)

/-- The request is consumed and its response posted last (R449). -/
def respond (f : Nat) (bs : List Byte) (status : Nat) (payload : List Byte) (s : State) : State :=
  showLbx f (postMsg f ⟨2, fieldAt bs 1 1, fieldAt bs 2 2, fieldAt bs 4 2, status, 0, payload⟩ s)

/-- Takes a request of OP `op` from the front of the requests and answers it with `serve`, which gives status, payload and the
changed state; a request that is no request, or whose operation is unknown, is answered by the row of OP 1. -/
def serveRequest (op : Nat) (serve : Nat → List Byte → State → Nat × List Byte × State) (s : State) : State :=
  match nextRequest s with
  | none => s
  | some f =>
    let bs := requestBytes f s
    let typ := fieldAt bs 0 1
    let o := fieldAt bs 1 1
    let known := typ == 1 && decide (1 ≤ o) && decide (o ≤ 5)
    if (if known then o else 1) ≠ op then s
    else
      let s1 := fset (Fl.LBX_H2M_HEAD_INDEX f) (fget (Fl.LBX_H2M_HEAD_INDEX f) s + 1)
        { s with ten := { s.ten with doorbells := s.ten.doorbells.erase f } }
      if typ = 0 ∨ 4 < typ then respond f bs 2 [] (errorNotice f 1 2 s1)
      else if ¬ known ∨ fieldAt bs 8 8 ≠ 0 ∨ fieldAt bs 6 1 ≠ 0 then respond f bs 2 [] s1
      else
        let r := serve f bs s1
        respond f bs r.1 r.2.1 r.2.2

/-! ### QUERY (R451) -/

/-- Value of resource `r` of a function. -/
def resValue (f r : Nat) (s : State) : Nat :=
  let x := resOf f s
  match r with
  | 1 => x.qps | 2 => x.vecs | 3 => (slmOf f s).length | 4 => (privOf f s).length | 5 => x.nsCap | 6 => x.keySlots
  | 7 => x.arbW | 8 => x.compW | 9 => maskValue x | 10 => x.letters | 11 => x.execs | 12 => x.banks
  | 13 => x.scanRun | 14 => x.scanQ | _ => 0

/-- Granules that hold something of a function's private memory (R455). -/
def privHeld (f : Nat) (s : State) : Nat :=
  let last := (s.prog.alloc.filter (fun a => a.1 == f)).foldl (fun m a => max m (a.2.1 + a.2.2)) 0
  (max last (privUsed f s) + 0xFFFFFFF) / 0x10000000

/-- I/O queue pairs, attached NVM namespaces, letters, executions and scan jobs of a function in use. -/
def qpsUsed (f : Nat) (s : State) : Nat :=
  (s.nv.ctrls.filter (fun e => e.2.func == f)).foldl (fun n e => n + (e.2.sqs.filter (fun q => q.1 != 0)).length) 0
def nsUsed (f : Nat) (s : State) : Nat :=
  (s.nv.ns.filter (fun e => e.2.csi == 0 && e.2.attached.contains (cntlidOf f s))).length
def lettersUsed (f : Nat) (s : State) : Nat := (s.sch.letters.filter (fun l => l.owner == f)).length
def execsUsed (f : Nat) (s : State) : Nat := (s.prog.execs.filter (fun e => e.2.func == f)).length
def scansUsed (running : Bool) (f : Nat) (s : State) : Nat := (s.scan.jobs.filter (fun j => j.func == f && j.run.isSome == running)).length

/-- What a function uses of resource `r`. The manual names no use of the weights, the mask and MSI-X vectors: free values. -/
def resInUse (f r : Nat) (s : State) : Nat :=
  match r with
  | 1 => qpsUsed f s | 3 => SMap.getD s.ten.memNs f 0 | 4 => privHeld f s | 5 => nsUsed f s | 6 => (slotsOf f s).length
  | 10 => (lettersUsed f s + 1023) / 1024 | 11 => execsUsed f s | 12 => (banksOwned f s).length
  | 13 => scansUsed true f s | 14 => scansUsed false f s | _ => (Config.freeValue (s.free + r)).toNat % 2 ^ 32

/-- The answer of QUERY: values from byte 16, use from byte 72. -/
def queryPayload (f : Nat) (s : State) : List Byte :=
  (List.range 14).flatMap (fun i => leBytes 4 (resValue f (i + 1) s)) ++ (List.range 14).flatMap (fun i => leBytes 4 (resInUse f (i + 1) s))

/-- Serves a QUERY. -/
def serveQuery (f : Nat) (bs : List Byte) (s : State) : Nat × List Byte × State :=
  let g := fieldAt bs 4 2
  if f ≠ s.ten.manager ∧ g ≠ f then (1, [], s)
  else if 128 ≤ g ∨ funcEnabled g s = false then (2, [], s)
  else (0, queryPayload g s, { s with free := s.free + 16 })

/-- Row LETTERBOX_QUERY. -/
def execLetterboxQuery (s : State) : Out := .next (serveRequest 1 serveQuery s)

/-! ### ASSIGN (R453, R454, R457) -/

/-- A new value of a resource lies in its range. -/
def resInRange (r v : Nat) : Bool :=
  match r with
  | 1 => decide (v ≤ 32) | 2 => decide (1 ≤ v) && decide (v ≤ 128) | 5 => decide (v ≤ 1024) | 6 => decide (v ≤ 1023)
  | 7 => decide (1 ≤ v) && decide (v ≤ 255) | 8 => decide (v ≤ 255) | 9 => decide (v < 512) && v % 256 != 0
  | 10 => decide (1 ≤ v) && decide (v ≤ 1008) | 11 => decide (v ≤ 4096) | 12 => decide (v ≤ 16) | 13 => decide (v ≤ 4)
  | 14 => decide (v ≤ 4096) | _ => false

/-- Sum of a partition over all functions, with the value of `f` replaced by `v`. -/
def partitionSum (f r v : Nat) (s : State) : Nat := (List.range 128).foldl (fun n g => n + (if g = f then v else resValue g r s)) 0

/-- The refusal of an assignment, if any. -/
def assignRefusal (f r v : Nat) (s : State) : Option Nat :=
  if ¬ resInRange r v then some 2
  else if r = 1 ∧ 4096 < partitionSum f 1 v s then some 3
  else if r = 2 ∧ 2048 < partitionSum f 2 v s then some 3
  else if r = 2 ∧ s.ten.msixOn.contains f then some 5
  else if r = 9 then
    if (List.range 8).all (fun n => !(maskHas v n && clusterServes n s)) then some 2
    else if clashesExclusive f (v % 256) s ∨ (256 ≤ v ∧ clashesAny f (v % 256) s) then some 7
    else none
  else none

/-- A function's resources with one changed. -/
def resWith (r v : Nat) (x : Res) : Res :=
  match r with
  | 1 => { x with qps := v } | 2 => { x with vecs := v } | 5 => { x with nsCap := v } | 6 => { x with keySlots := v }
  | 7 => { x with arbW := v } | 8 => { x with compW := v } | 10 => { x with letters := v } | 11 => { x with execs := v }
  | 12 => { x with banks := v } | 13 => { x with scanRun := v } | 14 => { x with scanQ := v } | _ => x

/-- An accepted assignment takes effect. -/
def applyAssign (f r v : Nat) (s : State) : State :=
  if r = 9 then setMask f (v % 256) (decide (256 ≤ v)) s
  else
    let s1 := { s with ten := { s.ten with res := SMap.put s.ten.res f (resWith r v (resOf f s)) } }
    if r = 7 then { s1 with nv := { s1.nv with ctrls := s1.nv.ctrls.map (fun e => if e.2.func = f then (e.1, { e.2 with weight := v }) else e) } }
    else s1

/-- Notices to the requester leave a slot for its response. -/
def keepFor (requester f : Nat) : Nat := if requester = f then 1 else 0

/-- Serves an ASSIGN. -/
def serveAssign (f : Nat) (bs : List Byte) (s : State) : Nat × List Byte × State :=
  let g := fieldAt bs 4 2
  let r := fieldAt bs 16 4
  let v := fieldAt bs 20 4
  if f ≠ s.ten.manager then (1, [], s)
  else if 128 ≤ g ∨ funcEnabled g s = false then (2, [], s)
  else match assignRefusal g r v s with
    | some st => (st, [], s)
    | none => (0, [], sendChanged g (keepFor f g) r (resValue g r s) v 0 (applyAssign g r v s))

/-- Row ASSIGN. -/
def execAssign (s : State) : Out := .next (serveRequest 2 serveAssign s)

/-! ### MOVE (R455) -/

/-- Refusals of a MOVE that apply: no free granules, below use, a limit. -/
def moveRefusals (g a b : Nat) (s : State) : List Nat :=
  let st := slmTotal s - (slmOf g s).length + a
  let pt := privTotal s - (privOf g s).length + b
  (if poolSize s < st + pt then [3] else []) ++
    (if a < SMap.getD s.ten.memNs g 0 ∨ b < privHeld g s then [4] else []) ++
    (if slmLimit s < st ∨ privLimit s < pt then [6] else [])

/-- A partition gets a new length: the last granules are returned, zero-filled, or the lowest free ones join. -/
def resizePart (l : List Nat) (n : Nat) (s : State) : List Nat × State :=
  if n ≤ l.length then (l.take n, forEach zeroGranule (l.drop n) s) else (l ++ (freeGranules s).take (n - l.length), s)

/-- Sets both partitions of a function: granules returned first. -/
def moveGranules (g a b : Nat) (s : State) : State :=
  let setSlm (n : Nat) (t : State) : State :=
    let p := resizePart (slmOf g t) n t
    { p.2 with ten := { p.2.ten with slm := SMap.put p.2.ten.slm g p.1 } }
  let setPriv (n : Nat) (t : State) : State :=
    let p := resizePart (privOf g t) n t
    { p.2 with ten := { p.2.ten with priv := SMap.put p.2.ten.priv g p.1 } }
  if a ≤ (slmOf g s).length then setPriv b (setSlm a s) else setSlm a (setPriv b s)

/-- Serves a MOVE; where several refusals apply, one of them is given. -/
def serveMove (f : Nat) (bs : List Byte) (s : State) : Nat × List Byte × State :=
  let g := fieldAt bs 4 2
  let a := fieldAt bs 16 2
  let b := fieldAt bs 18 2
  if f ≠ s.ten.manager then (1, [], s)
  else if 128 ≤ g ∨ funcEnabled g s = false ∨ 215 < a ∨ 192 < b then (2, [], s)
  else match moveRefusals g a b s with
    | [] =>
      let k := keepFor f g
      (0, [], sendChanged g k 4 (privOf g s).length b 0 (sendChanged g k 3 (slmOf g s).length a 0 (moveGranules g a b s)))
    | c :: t => (if t.isEmpty then c else (c :: t).getD (freeNat 64 s % (t.length + 1)) c, [], useFree s)

/-- Row MOVE. -/
def execMove (s : State) : Out := .next (serveRequest 3 serveMove s)

/-! ### CLAIM and RELAY (R444, R452) -/

/-- The manager role passes to `f`, with a notice to both physical functions. -/
def becomeManager (f : Nat) (s : State) : State :=
  let s1 := { s with ten := { s.ten with manager := f } }
  let msg := notice 0x11 f (leBytes 2 f)
  let s2 := sendMsg 0 (keepFor f 0) msg s1
  showLbx 0 (showLbx 64 (if s.nv.dual then sendMsg 64 (keepFor f 64) msg s2 else s2))

/-- Serves a CLAIM; `down`: the link of port A has been down for 5 s. -/
def serveClaim (down : Bool) (f : Nat) (_bs : List Byte) (s : State) : Nat × List Byte × State :=
  let upA := fget Fl.HIF_LINK_STATUS_UP_A s == 1
  if s.ten.manager = f then (0, [], s)
  else if (f = 64 ∧ s.nv.dual ∧ down ∧ ¬ upA) ∨ (f = 0 ∧ upA) then (0, [], becomeManager f s)
  else (1, [], s)

/-- Row CLAIM. -/
def execClaim (down : Bool) (s : State) : Out := .next (serveRequest 4 (serveClaim down) s)

/-- Serves a RELAY. The TAG of what is passed on is not stated: a free value. -/
def serveRelay (f : Nat) (bs : List Byte) (s : State) : Nat × List Byte × State :=
  let g := fieldAt bs 4 2
  if f ≠ s.ten.manager ∧ g ≠ s.ten.manager then (1, [], s)
  else if 128 ≤ g ∨ funcEnabled g s = false then (2, [], s)
  else
    let k := keepFor f g
    let q := SMap.getD s.ten.hold g []
    if 32 ≤ q.length then (5, [], s)
    else (0, [], useFree (sendMsg g k ⟨4, 5, freeNat 16 s, f, 0, 0, bs.drop 16⟩ s))

/-- Row RELAY. -/
def execRelay (s : State) : Out := .next (serveRequest 5 serveRelay s)

/-- Management firmware activation holds requests (R449). -/
def setPaused (b : Bool) (s : State) : State :=
  forEach showLbx (knownFuncs s) { s with ten := { s.ten with paused := b } }

end Sys2Proof.Machine
end

