-- ==== Sys2Proof/Machine/HostReset.lean ====
section
/-! DEFINITION. Enabling and resetting controllers and functions (R77, R85, R93, R104–R107, R458). -/

namespace Sys2Proof.Machine

/-! ### Controllers -/

/-- A controller that a reset has stopped has its tags back in the pool: `k` shared tags resume as many paused controllers
(R515). -/
def refillShared (k : Nat) (s : State) : State :=
  let woken := s.nv.pausedFor.take k
  let s1 := { s with nv := { s.nv with
    sharedFree := s.nv.sharedFree + k, tagEmptySeen := s.nv.tagEmptySeen && k == 0, pausedFor := s.nv.pausedFor.drop k } }
  showTags (forEach (fun c => updCtrl c (fun x => { x with paused := false })) woken s1)

/-- CC.EN goes from 0 to 1: a controller of function `f` with admin queues of these sizes takes its reserved tags (R93). An offline
controller keeps CSTS.RDY at 0 (R446). -/
def enableCtrl (c f : Nat) (fabric portB : Bool) (asq acq ams mps : Nat) (s : State) : State :=
  let online := match ctrlAt c s with
    | some x => x.online
    | none => true
  let want := if fabric then 0 else fget Fl.HIF_TAG_CFG_RESERVE s
  let got := Nat.min want s.nv.sharedFree
  let x0 := Ctrl.fresh f fabric portB (isPhysical f s && !fabric)
  let feats := (s.nv.saved.filter (fun e => decide (e.1 < 2 ^ 60) && e.1 % 2 ^ 32 / 256 == c)).map (fun e => (e.1 - 256 * c, e.2))
  let x := { x0 with
    online := online, en := true, ams := ams, mps := mps, reserve := got, feats := feats
    weight := (resOf f s).arbW
    sqs := [(0, ⟨asq, 0, 0, 0, 0, false, false, false⟩)]
    cqs := [(0, ⟨acq, 0, 0, some 0, [], []⟩)] }
  showTags { s with nv := { s.nv with ctrls := SMap.put s.nv.ctrls c x, sharedFree := s.nv.sharedFree - got } }

/-- A unit of an abandoned write that has started holds its old or new contents: a free choice (R19, R106). An uncorrectable unit that the
write covers in part stays so (R122). -/
def abandonUnit (x : Cmd) (n : Ns) (iu : Nat) (s : State) : State :=
  let k := lbasPerIu n.flbas
  let s1 := useFree s
  if freeNat 1 s = 0 ∨ blocksIn x k iu = 0 then s1
  else if x.dealloc && coversUnit x k iu then journal 32 (deallocUnit x.nsid iu s1)
  else if !coversUnit x k iu && (iuAt (mapKey x.nsid iu) s).any (·.uncorr) then s1
  else match SMap.find x.places iu with
    | some p => landUnit p x.nsid iu n (mergeUnit k iu x.wdata (iuData (mapKey x.nsid iu) s)) s1
    | none => s1

/-- A fetched command is abandoned: it gets no completion, and what it has started may take effect (R106). -/
def abandonCmd (x : Cmd) (s : State) : State :=
  let started := x.result.isNone && writesKind x.kind &&
    (match x.phase with
      | .started | .waitJournal => true
      | .fetched | .held | .waitMap _ | .merging | .waitLanding | .done => false)
  let s1 := { (dropLanding x.tag s) with nv := { (dropLanding x.tag s).nv with cmds := s.nv.cmds.filter (fun y => y.tag != x.tag) } }
  if started then
    (match nsAt x.nsid s with
      | some n => forEach (abandonUnit x n) (iusOf x s) s1
      | none => s1)
  else s1

/-- Everything that other commands waited for goes on. -/
def goOn (s : State) : State := settleAll (applyAll (wakeReads s))

/-- Controller reset (R106): commands abandoned, queues discarded, tags returned, executions and scan jobs of the controller ended,
features at their saved values. `scanBlock`: its scan jobs still write a result block (R201). -/
def ctrlClear (c : Nat) (scanBlock : Bool) (s : State) : State :=
  match ctrlAt c s with
  | none => s
  | some x =>
    let mine := s.nv.cmds.filter (fun y => y.ctrl == c)
    let tags := mine.map (·.tag)
    let back := x.reserve + ((mine.filter (·.shared)).length + (s.nv.freedTags.filter (fun t => t.1 == c && t.2)).length)
    let s1 := forEach abandonCmd mine s
    let s2 := abandonExecs (fun e => e.ctrl == c) s1
    let s3 := scanAbort5 (fun j => j.ctrl == c || j.tag.any (fun t => tags.contains t)) scanBlock s2
    let y := { Ctrl.fresh x.func x.fabric x.portB x.pf with online := x.online, weight := x.weight, selfTest := x.selfTest, errors := x.errors }
    let s4 := servePigeon (fun p => p.1 == c) { s3 with
      prog := { s3.prog with waiting := s3.prog.waiting.filter (fun w => !tags.contains w.1) }
      nv := { s3.nv with
        ctrls := SMap.put s3.nv.ctrls c y
        freedTags := s3.nv.freedTags.filter (fun t => t.1 != c)
        pausedFor := s3.nv.pausedFor.filter (· != c)
        aens := s3.nv.aens.filter (fun a => a.ctrl != c)
        aenMasked := s3.nv.aenMasked.filter (fun a => a.1 != c) } }
    goOn (refillShared back s4)

/-- Row-level controller reset with its postmark (R72). -/
def ctrlReset (c cause : Nat) (s : State) : State := resetPostmark 3 cause (ctrlClear c true s)

/-! ### Functions (R74, R106, R458) -/

/-- Everything a function holds in SLM, programs and tables is gone; its namespaces stay, zero-filled and empty. -/
def funcData (f : Nat) (s : State) : State :=
  let mine (k : Nat) : Bool := k / 16 == f
  let s1 := deleteTablesOf f (abandonExecs (fun e => e.func == f) s)
  let s2 := forEach zeroGranule (slmOf f s1) s1
  let s3 := dropPages (fun g => g.func == f) (cancelPreReads (fun r => r.func == f) s2)
  { s3 with prog := { s3.prog with
    slots := s3.prog.slots.filter (fun e => !mine e.1), rsets := s3.prog.rsets.filter (fun e => !mine e.1)
    alloc := s3.prog.alloc.filter (fun a => a.1 != f), waiting := s3.prog.waiting.filter (fun w => w.2.1 != f) } }

/-- The interrupts, BAR2 size and enables that the configuration space of the functions of `p` holds return to their defaults. -/
def clearIrqs (p : Nat → Bool) (s : State) : State :=
  { s with
    ten := { s.ten with msixOn := s.ten.msixOn.filter (fun f => !p f) }
    nv := { s.nv with
      msix := s.nv.msix.filter (fun e => !p (e.1 / 512)), msixPend := s.nv.msixPend.filter (fun e => !p e.1)
      msiOn := s.nv.msiOn.filter (fun f => !p f), bar2 := s.nv.bar2.filter (fun e => !p e.1) } }

/-- Function-level reset of one function (R458): its PCIe controller, its data, its letterbox page and configuration space. -/
def flrOne (f : Nat) (s : State) : State :=
  let s1 := ctrlClear (cntlidOf f s) false (scanAbort5 (fun j => j.func == f) false s)
  let s2 := lbxReset f (funcData f s1)
  clearIrqs (· == f) s2

/-- Virtual functions enabled on a port (HIF.FUNC_STATUS). -/
def setNumVf (portB : Bool) (n : Nat) (s : State) : State :=
  if portB then fset Fl.HIF_FUNC_STATUS_NUMVF_B n { s with nv := { s.nv with numVfB := n } }
  else fset Fl.HIF_FUNC_STATUS_NUMVF_A n { s with nv := { s.nv with numVfA := n } }

/-- Virtual functions of the port of physical function `f`. -/
def vfsOf (f : Nat) (s : State) : List Nat :=
  if f = 0 then ((List.range (s.nv.numVfA + 1)).drop 1) else ((List.range (s.nv.numVfB + 1)).drop 1).map (· + 64)

/-- FLR of function `f`: a physical function resets its port's virtual functions too. The manager learns of each. -/
def funcReset (f : Nat) (s : State) : State :=
  let fs := if isPhysical f s then f :: vfsOf f s else [f]
  let s1 := forEach flrOne fs s
  let s2 := if isPhysical f s then setNumVf (f != 0) 0 s1 else s1
  let s3 := forEach (fun g t => sendMsg t.ten.manager 0 (notice 0x12 g []) t) fs s2
  resetPostmark 4 f (raiseEvent 0x04 0 Fl.HIF_EVENT_FLR s3)

end Sys2Proof.Machine
end

