-- ==== Sys2Proof/Machine/NetBase.lean ====
section
/-! DEFINITION. Network ports, addresses, connections and associations (R423–R441): what rows and resets share. -/

namespace Sys2Proof.Machine

/-- Changes the network engine's state. -/
def updNet (f : Net → Net) (s : State) : State := { s with net := f s.net }

/-- Sends something. -/
def netSend (o : NetOut) (s : State) : State := updNet (fun n => { n with out := n.out ++ [o] }) s

/-! ### Settings (R440) -/

/-- A port's structure by default: enabled, both transports, RoCE priority 3, MTU 1,500, listener 4420, no address. -/
def portDefault : List Byte :=
  [0x19, 0, 3, 0] ++ leBytes 2 1500 ++ leBytes 2 4420 ++ List.replicate 504 0

/-- The structure of a port. -/
def portCfg (n : Nat) (s : State) : List Byte := SMap.getD s.net.ports n portDefault

/-- Address `a` of a port is valid. -/
def addrValid (n a : Nat) (s : State) : Bool := fieldAt (portCfg n s) (16 + 20 * a + 17) 1 % 2 == 1

/-- Valid addresses of a port. -/
def addrsOf (n : Nat) (s : State) : List Nat := (List.range 8).filter (fun a => addrValid n a s)

/-- A host entry's bytes. -/
def hostEntry (i : Nat) (s : State) : List Byte := SMap.getD s.net.hosts i (List.replicate 512 0)

/-- Function, flags, PSK slot and association limit of a host entry. -/
def hostFunc (i : Nat) (s : State) : Nat := fieldAt (hostEntry i s) 256 1
def hostFlag (i b : Nat) (s : State) : Bool := fieldAt (hostEntry i s) 257 1 / 2 ^ b % 2 == 1
def hostPsk (i : Nat) (s : State) : Nat := fieldAt (hostEntry i s) 258 1
def hostMax (i : Nat) (s : State) : Nat := fieldAt (hostEntry i s) 259 1

/-- The valid entry that names a host NQN. -/
def findHost (nqn : List Byte) (s : State) : Option Nat :=
  (List.range 256).find? (fun i => hostFlag i 0 s && (hostEntry i s).take 256 == (nqn ++ List.replicate 256 0).take 256)

/-- A PSK slot holds a key. -/
def pskFilled (i : Nat) (s : State) : Bool := fieldAt (SMap.getD s.net.psks i []) 48 1 != 0

/-! ### Ports -/

/-- A port's domain is powered. -/
def netUp (n : Nat) (s : State) : Bool := decide (n < 2) && pdOn 9 s && pdOn (10 + n) s

/-- A port is up. -/
def portUp (n : Nat) (s : State) : Bool := netUp n s && fget (Fl.NET_STATUS_STATE n) s == 1

/-- The port that holds the addresses of port `n`. -/
def holder (n : Nat) (s : State) : Nat := if s.net.moved.contains n then 1 - n else n

/-- Speeds in b/s by SEL 0 encoding. -/
def speedBps (v : Nat) : Rat := match v with | 1 => 25000000000 | 2 => 50000000000 | 3 => 100000000000 | 4 => 200000000000 | _ => 0

/-- NET.CONN follows the connections. -/
def showConns (s : State) : State :=
  forN (fun n t =>
    let mine := t.net.conns.filter (fun e => holder e.2.port t == n)
    t |> fset (Fl.NET_CONN_TCP n) (mine.filter (fun e => !e.2.roce)).length |> fset (Fl.NET_CONN_QP n) (mine.filter (fun e => e.2.roce)).length) 2 s

/-- Discovery controllers with KATO set learn of a change (R434): a notice naming log page 0x70. -/
def discoveryChange (s : State) : State :=
  raiseAen ((s.net.assocs.filter (fun a => a.disc && a.kato != 0)).map (·.ctrl)) 2 0xF0 0x70 s

/-- Addresses of port `n` are announced on the port that holds them. -/
def announce (n : Nat) (s : State) : State := forEach (fun a => netSend (.announce (holder n s) n a)) (addrsOf n s) s

/-- Addresses of port `n` move to the other port, or back, with an announcement now and two repeats (R437). -/
def moveAddrs (n : Nat) (away : Bool) (s : State) : State :=
  let s1 := updNet (fun x => { x with
    moved := if away then addOnce' n x.moved else x.moved.filter (· != n), repeats := SMap.put x.repeats n 2 }) s
  s1 |> fset (Fl.NET_STATUS_HOLDS_OTHER (1 - n)) (if away then 1 else 0) |> announce n |> showConns
where
  addOnce' (x : Nat) (l : List Nat) : List Nat := if l.contains x then l else x :: l

/-- Failover of a port that is no longer up, where its setting and the other port allow (R437, R438). -/
def failover (n : Nat) (s : State) : State :=
  if fget (Fl.NET_LINK_CFG_FAILOVER n) s = 1 ∧ portUp (1 - n) s = true ∧ s.net.moved.contains n = false then
    moveAddrs n true (raiseEvent 0x10 n (Fl.NET_EVENT_FAILOVER n) s)
  else s

/-- A port is down. -/
def linkDown (n : Nat) (s : State) : State :=
  let s1 := { s with net := { s.net with downs := SMap.put s.net.downs n (SMap.getD s.net.downs n 0 + 1) } }
    |> fset (Fl.NET_STATUS_STATE n) 0 |> fset (Fl.NET_STATUS_SPEED n) 0 |> fset (Fl.NET_STATUS_FEC_ON n) 0
    |> raiseEvent 0x10 n (Fl.NET_EVENT_LINK_DOWN n)
  discoveryChange (failover n s1)

/-- A port is retired for good (R438). -/
def portRetire (n : Nat) (s : State) : State :=
  let s1 := s |> fset (Fl.NET_STATUS_SPEED n) 0 |> fset (Fl.NET_STATUS_FEC_ON n) 0 |> fset (Fl.NET_STATUS_STATE n) 3
    |> raiseEvent 0x10 n (Fl.NET_EVENT_RETIRED n)
  discoveryChange (failover n (retireDomain (10 + n) s1))

/-! ### Connections and associations (R426–R429) -/

/-- A connection is gone. -/
def dropConn (c : Nat) (orderly : Bool) (s : State) : State :=
  match SMap.find s.net.conns c with
  | none => s
  | some _ => showConns (netSend (.close c orderly) (updNet (fun n => { n with conns := SMap.del n.conns c }) s))

/-- An association ends (R429): controller reset for its commands, its connections closed, its controller gone. -/
def endAssoc (c : Nat) (orderly : Bool) (s : State) : State :=
  if s.net.assocs.any (fun a => a.ctrl == c) then
    let s1 := ctrlReset c 0 s
    let s2 := forEach (fun e t => dropConn e.1 orderly t) (s1.net.conns.filter (fun e => e.2.ctrl == some c)) s1
    { s2 with
      net := { s2.net with assocs := s2.net.assocs.filter (fun a => a.ctrl != c) }
      nv := { s2.nv with ctrls := SMap.del s2.nv.ctrls c } }
  else s

/-- A connection closes or fails: the association it carries ends (R429). -/
def connLost (c : Nat) (s : State) : State :=
  match SMap.find s.net.conns c with
  | none => s
  | some x => match x.ctrl with
    | some k => dropConn c false (endAssoc k false s)
    | none => dropConn c false s

/-- Every association ends, and every connection closes. -/
def endAllAssocs (orderly : Bool) (s : State) : State :=
  let s1 := forEach (fun a t => endAssoc a.ctrl orderly t) s.net.assocs s
  forEach (fun e t => dropConn e.1 orderly t) s1.net.conns s1

/-- The network domains go off: connections drop without a message (R439). -/
def netDrop (s : State) : State :=
  let s1 := endAllAssocs false s
  let s2 := updNet (fun n => { n with conns := [], out := [], moved := [], repeats := [], calFails := [], paused := [], switching := false }) s1
  forN (fun n t => t |> fset (Fl.NET_STATUS_STATE n) (if pdRetired (10 + n) t then 3 else 0) |> fset (Fl.NET_STATUS_SPEED n) 0
    |> fset (Fl.NET_STATUS_FEC_ON n) 0 |> fset (Fl.NET_STATUS_HOLDS_OTHER n) 0) 2 (showConns s2)

/-- Counters of the ports that log page 0xC8 shows since power-on (R441). -/
def netCounters : List Nat :=
  (List.range 2).flatMap (fun n => [Reg.NET_CNT_RX_BYTES n, Reg.NET_CNT_TX_BYTES n, Reg.NET_CNT_FEC_CORR n, Reg.NET_CNT_FEC_UNCORR n,
    Reg.NET_CNT_CNP_RX n, Reg.NET_CNT_TLS_FAIL n, Reg.NET_CNT_CONNECT_REF n])

/-! ### Feature 0xC7 (R440) -/

/-- A structure of the feature is free of reserved values. -/
def netStructOk (sel : Nat) (d : List Byte) : Bool :=
  let f (o n : Nat) : Nat := fieldAt d o n
  let zero (a b : Nat) : Bool := ((d.drop a).take (b + 1 - a)).all (· == 0)
  d.length == 512 && (match sel with
    | 0 => decide (f 0 1 < 32) && decide (f 1 1 ≤ 4) && decide (f 2 1 ≤ 7) && decide (1500 ≤ f 4 2) && decide (f 4 2 ≤ 9000) &&
        decide (f 8 2 ≤ 4094) && zero 10 15 && zero 208 511 &&
        (List.range 8).all (fun a => decide (f (16 + 20 * a + 17) 1 ≤ 1) && f (16 + 20 * a + 18) 2 == 0)
    | 1 => decide (f 256 1 ≤ 127) && decide (f 257 1 < 16) && decide (f 258 1 ≤ 63) && decide (1 ≤ f 259 1) && decide (f 259 1 ≤ 8) &&
        zero 260 511 && zero 223 255
    | 2 => (f 48 1 == 0 || f 48 1 == 32 || f 48 1 == 48) && (f 48 1 == 0 || f 49 1 == 1 || f 49 1 == 2) && zero 50 511
    | _ => false)

/-- The link settings of a port mirror its structure (R442). -/
def mirrorPort (n : Nat) (d : List Byte) (s : State) : State :=
  let b (i : Nat) : Nat := fieldAt d 0 1 / 2 ^ i % 2
  s |> fset (Fl.NET_LINK_CFG_ENABLE n) (b 0) |> fset (Fl.NET_LINK_CFG_FAILOVER n) (b 1) |> fset (Fl.NET_LINK_CFG_PFC_EN n) (b 2)
    |> fset (Fl.NET_LINK_CFG_TCP_EN n) (b 3) |> fset (Fl.NET_LINK_CFG_ROCE_EN n) (b 4) |> fset (Fl.NET_LINK_CFG_SPEED n) (fieldAt d 1 1)
    |> fset (Fl.NET_LINK_CFG_ROCE_PRIO n) (fieldAt d 2 1) |> fset (Fl.NET_LINK_CFG_PFC_MASK n) (fieldAt d 3 1)

/-- The link trains again: STATE 2 until it comes up or is down. -/
def retrain (n : Nat) (s : State) : State :=
  if netUp n s = true ∧ fget (Fl.NET_STATUS_STATE n) s ≠ 3 then
    s |> fset (Fl.NET_STATUS_STATE n) 2 |> fset (Fl.NET_STATUS_SPEED n) 0 |> fset (Fl.NET_STATUS_FEC_ON n) 0
  else s

/-- A port gets a new structure: a changed speed or enable retrains the link, and a removed address closes its connections
(`lost`: connections of removed addresses). -/
def setPort (n : Nat) (d : List Byte) (lost : List Nat) (s : State) : State :=
  let old := portCfg n s
  let s1 := mirrorPort n d (updNet (fun x => { x with ports := SMap.put x.ports n d }) s)
  let gone := (List.range 8).any (fun a => addrValid n a s && ((old.drop (16 + 20 * a)).take 18 != (d.drop (16 + 20 * a)).take 18))
  let s2 := if fieldAt old 1 1 ≠ fieldAt d 1 1 then retrain n s1 else s1
  let s3 := if fieldAt d 0 1 % 2 = 0 ∧ portUp n s2 = true then linkDown n s2 else s2
  let s4 := if gone then forEach (fun c t => if (SMap.find t.net.conns c).any (fun x => x.port == n) then connLost c t else t) lost s3 else s3
  discoveryChange s4

/-- A host entry is written: its associations end if it changed (R429). -/
def setHost (i : Nat) (d : List Byte) (s : State) : State :=
  let changed := hostEntry i s != d
  let s1 := updNet (fun x => { x with hosts := SMap.put x.hosts i d }) s
  if changed then
    discoveryChange (forEach (fun a t => if a.entry = some i then endAssoc a.ctrl true t else t) s.net.assocs s1)
  else s1

/-- A PSK slot is written; length 0 empties it. -/
def setPsk (i : Nat) (d : List Byte) (s : State) : State :=
  updNet (fun x => { x with psks := if fieldAt d 48 1 = 0 then SMap.del x.psks i else SMap.put x.psks i d }) s

/-! ### Discovery log (R434) -/

/-- One entry per enabled address, transport and listener, as an initiator of host entry `h` sees them: port, address and whether RoCE. -/
def discEntries (s : State) : List (Nat × Nat × Bool) :=
  (List.range 2).flatMap (fun n => if fget (Fl.NET_LINK_CFG_ENABLE n) s = 1 then
    (addrsOf n s).flatMap (fun a =>
      (if fget (Fl.NET_LINK_CFG_TCP_EN n) s = 1 then [(n, a, false)] else []) ++
      (if fget (Fl.NET_LINK_CFG_ROCE_EN n) s = 1 then [(n, a, true)] else [])) else [])

end Sys2Proof.Machine
end

