-- ==== Sys2Proof/Machine/Resets.lean ====
section
/-! DEFINITION. What each reset, mode entry and low-power mode clears, keeps and restores (R62, R64, R66, R69, R72–R75, R77). -/

namespace Sys2Proof.Machine

/-! ### Contents of domains that lose power -/

/-- Counters that log pages show since power-on. -/
def shownCounters : List Nat :=
  dmcCounters ++ memCounters ++ netCounters ++ [Reg.HIF_STALL_TAG, Reg.HIF_STALL_OVL]

/-- A channel's operations end with its domain: a block whose erase is not recorded is erase-pending, and a program cut off leaves its pages
unstable, which the scan at Rise finds (R167, R168). -/
def chanLost (n : Nat) (s : State) : State :=
  let c := chanAt n s
  let ops := (c.dies ++ c.susp).map (·.2)
  let cut := ops.any (fun o => o.kind == .progSlc || o.kind == .progQlc)
  let s1 := forEach (fun o t => interruptedProgram n o (if o.kind = .erase then updBlkOf o.sb n (fun b => { b with pending := true }) t else t)) ops s
  setChan n { chanAt n s1 with queue := [], dies := [], susp := [], rebuilds := [], backoff := [], dead := [], cutProgram := c.cutProgram || cut } s1

/-- The core state of every core but those of `keep` is gone. -/
def coresLost (keep : Nat → Bool) (s : State) : State :=
  { s with cores := s.cores.filter (fun e => keep e.1) }

/-- Everything that lives in the domains of the serving modes is lost: commands and controllers, SLM, programs, executions, scans,
match entries, digest contexts, key slots, letters, connections, DRAM and fabric SRAM, caches (R74). -/
def loseServing (s : State) : State :=
  let s1 := forEach abandonCmd s.nv.cmds (forN chanLost 32 (forN keepClusCounts 8 (keepCounts shownCounters s)))
  let s2 := scanAbandon (abandonExecs (fun _ => true) s1)
  let s3 := netDrop s2
  let s4 := coresLost (fun k => k == 76) (sramLost (dramLost s3))
  let clean (c : Clus) : Clus := { c with locked := [], funcs := [], update := .none, cmo := 0 }
  { s4 with
    nv := { Nvme.reset with
      ns := s.nv.ns, saved := s.nv.saved, errs := s.nv.errs, order := s4.nv.order, nextTag := s4.nv.nextTag, cqStops := s.nv.cqStops
      orderHalts := s.nv.orderHalts, barUr := s.nv.barUr, sanState := s.nv.sanState, sanCrypto := s.nv.sanCrypto, dual := s.nv.dual }
    prog := { Progs.reset with nextExec := s4.prog.nextExec }
    mat := { Mat.reset with
      retired := s4.mat.retired, spared := s4.mat.spared, fixes := s4.mat.fixes, dead := s4.mat.dead, searches := s4.mat.searches, falseHits := s4.mat.falseHits
      updates := s4.mat.updates, bankFalse := s4.mat.bankFalse, bankFix := s4.mat.bankFix }
    comp := Comp.reset
    dig := Dig.reset
    keys := { s4.keys with slots := [], lru := [], waiting := [] }
    sch := Sch.reset
    clus := s4.clus.map (fun e => (e.1, clean e.2))
    dirty := []
    bus := { s4.bus with latch := [], stalled := [] }
    dram := { s4.dram with poison := [], bad := [], sram := [], logWait := [], recalDue := [] }
    ten := { s4.ten with doorbells := [], hold := [], lost := [], msixOn := [], m2hIrqs := [] }
    mgt := { s4.mgt with upd := { Upd.idle with last := s4.mgt.upd.last }, late := [], pieces := [], warned := [] } }

/-- Key under which the saved value of a module-wide feature is kept beside those of controllers. -/
def wideKey (id : Nat) : Nat := 2 ^ 60 + id

/-- Module-wide features return to their saved values, or to defaults (R75). -/
def restoreFeats (s : State) : State :=
  { s with
    feat := (s.nv.saved.filter (fun e => decide (2 ^ 60 ≤ e.1))).map (fun e => (e.1 - 2 ^ 60, e.2))
    net := { s.net with ports := s.net.savedPorts, hosts := s.net.savedHosts, psks := s.net.savedPsks } }

/-- Blocks of the always-on island, of management with config flash, and of the debug link. -/
def alwaysOn (b : Block) : Bool := b == .aon || b == .pbk
/-- Blocks in PD01 and PD02 (R34). -/
def mgtDomain (b : Block) : Bool := b == .pwr || b == .clk || b == .lbx || b == .mgt || b == .cfl

/-- Live registers that the front end, the mode sequencer and the recorder drive themselves. -/
def selfDriven (b : Block) : Bool := alwaysOn b || b == .pwr || b == .clk

/-- Registers of classes M, C and F, and live ones, return to their reset values in the blocks of `p`; retired compression engines
and clusters still report it. -/
def clearBlocks (p : Block → Bool) (s : State) : State :=
  let comps := (List.range 4).filter (fun n => fget (Fl.CMP_STATUS_STATE n) s == 3)
  let s1 := clearRegs (fun b _ r => p b && (r.cls == .m || r.cls == .c || r.cls == .f || (r.cls == .live && !selfDriven b))) s
  let s2 := forEach (fun n t => fset (Fl.CMP_STATUS_STATE n) 3 t) comps s1
  let s3 := if p .axc then forN (fun n t => if pdRetired (12 + n) t then fset (Fl.AXC_STATUS_STATE n) 3 t else t) 8 s2 else s2
  let s4 := if p .dmc then forN (fun n t => if dramRetired n t then fset (Fl.DMC_STATUS_STATE n) 3 t else t) 4 s3 else s3
  let s5 := if p .net then forN (fun n t => if pdRetired (10 + n) t then fset (Fl.NET_STATUS_STATE n) 3 t else t) 2 s4 else s4
  let s5 := if p .hif then fsetTo Fl.HIF_OVL_STATUS_HWM (fget Fl.HIF_OVL_STATUS_HWM s) s5 else s5
  let s5 := if p .sch then fsetTo Fl.SCH_LETTERS_HWM (fget Fl.SCH_LETTERS_HWM s) s5 else s5
  let s6 := if p .mat then forEach (fun n t => fset (Fl.MAT_STATUS_STATE n) 3 t) s5.mat.retired s5 else s5
  if p .ctc then forN (fun k t => if fget ⟨Reg.CTC_CORE_RETIRED, k, 1⟩ t = 1 then fset (Fl.CTC_CORE_STATUS_CORE k) 3 t else t) 12 s6
  else s6

/-- Breakpoints, watchpoints and halts go. -/
def debugLost (s : State) : State :=
  let s1 := clearRegs (fun b _ r => b == .dbg && r.cls != .k && r.cls != .p) (forN clearPoints 77 s)
  { s1 with bus := { s1.bus with link := ⟨0, [], none, none⟩ } }

/-- The remembered read-level sets of all blocks are lost (R155). -/
def forgetSets (s : State) : State :=
  { s with ftl := { s.ftl with blks := s.ftl.blks.map (fun e => (e.1, { e.2 with remembered := 0 })) } }

/-- Module reset (R72, R74): every domain but PD00 is off for a time; classes M, C and F everywhere return to reset values. -/
def moduleClear (s : State) : State :=
  forgetSets <| restoreFeats (clearBlocks (fun _ => true) (debugLost (coresLost (fun _ => false) (loseServing (keepCounts [Reg.PBK_DROP2, Reg.PBK_DROP3] s)))))

/-- Entry to Watch: what PD01, PD02 and PD35 hold stays, but for breakpoints (R74). -/
def watchClear (s : State) : State :=
  clearBlocks (fun b => !(alwaysOn b || mgtDomain b || b == .dbg) || b == .lbx) (forN clearPoints 77 (loseServing s))

/-- Watch to Keep: PD01, PD02 and PD35 go off. -/
def keepClear (s : State) : State :=
  clearBlocks (fun b => !alwaysOn b) (debugLost (coresLost (fun _ => false) s))

/-- An input has gone with every rail (R46, R50, R74): the recorder's RAM tier and queues are lost, class P keeps what was committed. -/
def enterDark (s : State) : State :=
  let s1 := setDomains 0 (enterMode 0 (dropUnsaved (moduleClear s)))
  { s1 with
    pbk := { s1.pbk with
      q0 := [], q1 := [], q2 := [], q3 := [], held0 := [], held1 := [], coal := [], ram := [], win := [], toDrain := []
      unread := [], aenSent := false, mctpWait := [], telemetry := [], hostRam := [], hostFlash := [] }
    pow := { Pow.reset with
      pfailLow := s.pow.pfailLow, pwrdis := s.pow.pwrdis, perst := s.pow.perst, perstB := s.pow.perstB, wakeSince := s.pow.wakeSince
      ovMains := s.pow.ovMains, ovAux := s.pow.ovAux, sanPending := s.pow.sanPending, testHours := s.pow.testHours
      commits := s.pow.commits, recovered := s.pow.recovered, sealsCut := s.pow.sealsCut, transfers := s.pow.transfers
      tests := s.pow.tests, modeSecs := s.pow.modeSecs, sealCut := s.pow.sealCut, commitToReport := s.pow.commitToReport } }
    |> wr Reg.PWR_STATUS 0 |> wr Reg.CLK_STATUS 0 |> pbkPending

/-- Power-on (R12, R72): class K at its reset values, and counts since power-on start again but those of retired channels (R176).
Registrations of namespaces without
Persist Through Power Loss go. -/
def powerOnClear (s : State) : State :=
  let s1 := clearRegs (fun _ _ r => r.cls == .k || r.cls == .m) s |> fsetTo Fl.HIF_OVL_STATUS_HWM 0 |> fsetTo Fl.SCH_LETTERS_HWM 0
  { s1 with
    acc := []
    nv := { s1.nv with
      cqStops := 0, orderHalts := 0
      ns := s1.nv.ns.map (fun e => if e.2.resv.ptpl then e else (e.1, { e.2 with resv := { e.2.resv with regs := [], holder := none, rtype := 0 } })) }
    scan := { Scans.reset with nextNum := s1.scan.nextNum }
    net := { s1.net with downs := [] }
    dram := { s1.dram with sramCnt := [], recalFails := [] }
    mat := { s1.mat with fixes := [], dead := [], searches := 0, falseHits := 0, updates := 0, bankFalse := [], bankFix := [] }
    media := { s1.media with chans := s1.media.chans.map (fun e =>
      if e.2.retired then e else (e.1, { e.2 with pRetry := 0, pStep1 := 0, pStep2 := 0, pStep3 := 0, pSusp := 0 })) }
    clus := s1.clus.map (fun e => (e.1, { e.2 with acc := Clus.fresh.acc, faults24 := 0, resets := 0 })) }

/-! ### Starting (R76–R78, R348, R462, R468, R481) -/

/-- PD01 comes on: sensors not yet read, the I3C target without address and with its events enabled, limits as configured; the
management core starts. -/
def mgtUp (s : State) : State :=
  let s1 := setMgt (fun m => { m with
    mins := [], warned := [], capCores := 8, budgets := [], fetchSteps := 0, mwl := 69, mrl := 69, rstact := 0
    hotJoin := false, outbox := [], ibis := [], ibiWait := 0, answer := [], op := none, done := [],
    eraseAgain := cutErase m }) s
  forN (fun i t => wr (Reg.MGT_SENSOR i) 0x808000 t) 12 s1
    |> fset Fl.MGT_I3C_HJ_EN 1 |> fset Fl.MGT_I3C_IBI_EN 1 |> coreReset 76

/-- Management comes on unless it is on already. -/
def mgtStart (wasOn : Bool) (s : State) : State := if wasOn then s else mgtUp s

/-- The settings store is read (R481): a copy without a valid base image is rebuilt from the other, and both end level; false when
neither copy is valid. -/
def storeRise (s : State) : Bool × State :=
  let a := s.mgt.storeA
  let b := s.mgt.storeB
  if !a.valid && !b.valid then (false, s)
  else if !b.valid || (a.valid && b.seq ≤ a.seq) then (true, setMgt (fun m => { m with storeB := { a with half := b.half } }) s)
  else (true, setMgt (fun m => { m with storeA := { b with half := a.half } }) s)

/-- Rise takes the slot marked active of every component (R485). -/
def bootFirmware (s : State) : State :=
  forEach (fun c t => setFw c (fun f => if (SMap.getD f.slots f.next ⟨0, 0, 0⟩).state = 1 then { f with active := f.next } else f) t) [1, 2, 3, 4, 5] s

/-- Control firmware falls back by descending generation (R78): the slot reached after `n` failures. -/
def bootFallback (n : Nat) (s : State) : State :=
  let f := fwAt 2 s
  let rec pick (k : Nat) (l : List (Nat × FwSlot)) : Option Nat :=
    match k with
    | 0 => none
    | k + 1 => match l.find? (fun e => l.all (fun g => decide (g.2.gen ≤ e.2.gen))) with
      | none => none
      | some e => if k = 0 then some e.1 else pick k (l.filter (fun g => g.1 != e.1))
  let others := f.slots.filter (fun e => e.1 != f.active && e.2.state == 1)
  match pick n others with
  | none => s
  | some k => setFw 2 (fun f => { f with active := k }) s

/-- The host side at the start of Rise: no link, no configuration request answered yet. -/
def hostRise (s : State) : State :=
  showTags (fset Fl.HIF_LINK_STATUS_DUAL (if s.nv.dual then 1 else 0) { s with nv := { s.nv with crs := 0, cfgDone := 0, stopped := false, brace := false } })

/-- The port-mode strap is sampled, at power-on and at each module reset only (R84): PORTMODE is whatever is tied to the pin. -/
def sampleStrap (s : State) : State := { (useFree s) with nv := { s.nv with dual := freeNat 1 s == 1 } }

/-- The control cores start at the boot ROM, those not retired and powered (R81, R331). -/
def controlCoresStart (s : State) : State :=
  forN (fun k t =>
    if fget ⟨Reg.CTC_CORE_RETIRED, k, 1⟩ t = 1 then t
    else coreReset (64 + k) (fset (Fl.CTC_CORE_STATUS_CORE k) (if pdOn (4 + k / 6) t then 1 else 0) t)) 12 s

/-- Data-path units start: clusters, DRAM-backed granules, key slot 0, the digest engine's free contexts. -/
def keyRise (s : State) : State :=
  let s1 := fitGranules (forN clusStart 8 s)
  showFree (reloadSlots true s1)

/-- The channels run the microcode of its active slot (R175). -/
def ucodeRise (s : State) : State :=
  forN (fun n t => if chanUp n t then fset (Fl.CHE_UCODE_VERSION n) ((fwSlot 4 (fwAt 4 t).active t).version % 65536) t else t) 32 s

/-- The serving mode is reached (R76): the sorting office leaves ordered-route mode, the translation layer takes up its work, and caps that
already hold apply. -/
def serveReached (s : State) : State :=
  let s1 := ftlResume (setOrdered 0 s)
  applyPowerState (checkWear (recomputeFill { s1 with nv := { s1.nv with stopped := false, brace := false } }))

/-! ### Reset requests (R72, R79) -/

/-- The bit of AON.RST_CAUSE of a module reset's cause. -/
def rstBit (c : RstCause) : Fld :=
  match c with
  | .perst => Fl.AON_RST_CAUSE_MOD_PERST
  | .mgmt => Fl.AON_RST_CAUSE_MOD_MGMT
  | .wdt => Fl.AON_RST_CAUSE_MOD_WDT
  | .rise => Fl.AON_RST_CAUSE_MOD_RISE
  | .pll => Fl.AON_RST_CAUSE_MOD_PLL

/-- The cause a reset postmark gives for a module reset: its bit of AON.RST_CAUSE. -/
def rstCode (c : RstCause) : Nat := (rstBit c).lo

/-- A live activation has a component in progress: resets wait for its end (R108, R488). -/
def activating (s : State) : Bool := !s.mgt.upd.todo.isEmpty

/-- Keeps a reset for the end of the component in progress. -/
def resetLater (r : LateReset) (s : State) : State := setMgt (fun m => { m with late := m.late ++ [r] }) s

/-- LINK_STATUS of one port. -/
def setLink (portB : Bool) (up speed width flit : Nat) (s : State) : State :=
  if portB then s |> fset Fl.HIF_LINK_STATUS_UP_B up |> fset Fl.HIF_LINK_STATUS_SPEED_B speed |> fset Fl.HIF_LINK_STATUS_WIDTH_B width
    |> fset Fl.HIF_LINK_STATUS_FLIT_B flit
  else s |> fset Fl.HIF_LINK_STATUS_UP_A up |> fset Fl.HIF_LINK_STATUS_SPEED_A speed |> fset Fl.HIF_LINK_STATUS_WIDTH_A width
    |> fset Fl.HIF_LINK_STATUS_FLIT_A flit

/-- What the host set of a port's L1 levels, the level its link is in, and whether it trained below partner capability. -/
def setLevels (portB : Bool) (on : List Nat) (level : Nat) (degr : Bool) (s : State) : State :=
  let n := s.nv
  let m := if portB then { n with aspmB := on, levelB := level, degrB := degr } else { n with aspmA := on, levelA := level, degrA := degr }
  fset Fl.HIF_LINK_STATUS_DEGRADED (if m.degrA || m.degrB then 1 else 0) { s with nv := m }

/-- The L1 levels the host enables on a port. -/
def aspmOf (portB : Bool) (s : State) : List Nat := if portB then s.nv.aspmB else s.nv.aspmA

/-- The port's link has trained below partner capability. -/
def degraded (portB : Bool) (s : State) : Bool := if portB then s.nv.degrB else s.nv.degrA

/-- The link of a port is down, and its Link Control at defaults, when its reset is asserted or its host resets it. -/
def linkOff (portB : Bool) (s : State) : State := setLevels portB [] 0 (degraded portB s) (setLink portB 0 0 0 0 s)

/-- NVM subsystem reset (R72, R106): every controller and function, HIF and NET, the link, SLM, programs. -/
def subsystemResetNow (perst : Bool) (s : State) : State :=
  let ends := endAllAssocs false (keepCounts (netCounters ++ [Reg.HIF_STALL_TAG, Reg.HIF_STALL_OVL]) s)
  let s1 := forEach (fun e t => ctrlClear e.1 false t) ends.nv.ctrls (scanAbort5 (fun _ => true) false ends)
  let s2 := forEach (fun f t => lbxReset f (funcData f t)) (knownFuncs s1) s1
  let s3 := clearRegs (fun b _ r => r.cls == .c || r.cls == .f || ((b == .hif || b == .net) && r.cls == .m)) s2
  let s4 := linkOff false <| linkOff true <| clearIrqs (fun _ => true) <| setNumVf false 0 (setNumVf true 0 { s3 with
    nv := { s3.nv with crs := 0, ctrls := s3.nv.ctrls.map (fun e => (e.1, { e.2 with online := true })) }
    net := { s3.net with conns := [], paused := [] }
    ten := { s3.ten with doorbells := [] } })
  s4 |> fset (if perst then Fl.AON_RST_CAUSE_NVMSSR_PERST else Fl.AON_RST_CAUSE_NVMSSR_REG) 1
    |> raiseEvent 0x04 0 Fl.HIF_EVENT_NSSR |> resetPostmark 2 (if perst then 7 else 6) |> showConns |> restoreFeats |> goOn

/-- A request for an NVM subsystem reset: during Commit it waits (R73); without power for the PCIe controller there is nothing to
reset. -/
def nvmSubsystemReset (perst : Bool) (s : State) : State :=
  if mode s = 8 then waitCommit (.subsystem perst) s
  else if pdOn 7 s = false then s
  else if activating s then resetLater (.subsystem perst) s
  else subsystemResetNow perst s

/-! ### Smaller resets (R84, R511) -/

/-- Functions of a port. -/
def portFuncs (portB : Bool) (s : State) : List Nat :=
  (List.range 128).filter (fun f => funcEnabled f s && (decide (64 ≤ f) && s.nv.dual) == portB)

/-- In dual-port mode a port's fundamental reset has the NVM subsystem reset's effect on that port's functions (R84). -/
def portReset (portB : Bool) (s : State) : State :=
  let fs := portFuncs portB s
  let s1 := forEach (fun f t => ctrlClear (cntlidOf f t) false t) fs (scanAbort5 (fun j => fs.contains j.func) false s)
  let s2 := forEach (fun f t => lbxReset f (funcData f t)) fs s1
  let s3 := setNumVf portB 0 (linkOff portB (clearIrqs (fun f => fs.contains f) s2))
  let s4 := forEach (fun f t => updCtrl (cntlidOf f t) (fun x => { x with online := true }) t) fs s3
  goOn (resetPostmark 2 7 (raiseEvent 0x04 0 Fl.HIF_EVENT_NSSR (fset Fl.AON_RST_CAUSE_NVMSSR_PERST 1 s4)))

/-- A debug reset: every halted core resumes, points go off, the sticky link bits clear and DBG returns to reset
(R511, R513); cause 0 the pin, 1 the register. -/
def debugReset (cause : Nat) (s : State) : State :=
  let s1 := forN (fun k t => clearPoints k (resumeCore k t)) 77 s
  let s2 := clearRegs (fun b _ r => b == .dbg && r.cls == .m) s1
  forN (fun k t => showCore k t) 77
    (s2 |> fset Fl.DBG_LINK_STATUS_FAULT 0 |> fset Fl.DBG_LINK_STATUS_CRC_ERR 0 |> fset Fl.AON_RST_CAUSE_DEBUG 1
      |> resetPostmark 7 cause |> postmark 0x1382 0x13 [cause])

/-- A port's reset is asked for: it waits for the end of Commit (R73) and of a firmware component in progress (R108). -/
def requestPortReset (portB : Bool) (s : State) : State :=
  if pdOn 7 s = false then s
  else if mode s = 8 then waitCommit (.port portB) s
  else if activating s then resetLater (.port portB) s
  else portReset portB s

/-- A controller reset is asked for, by CC.EN or a hot reset: it waits likewise (R73, R108). That of a fabric controller ends its
association (R429). -/
def requestCtrlReset (c : Nat) (s : State) : State :=
  if mode s = 8 then waitCommit (.ctrl c) s
  else if activating s then resetLater (.ctrl c) s
  else if s.net.assocs.any (fun a => a.ctrl == c) then endAssoc c true s
  else ctrlReset c 0 s

/-- A debug reset is asked for: during Commit it waits (R73). -/
def requestDebugReset (cause : Nat) (s : State) : State := if mode s = 8 then waitCommit (.debug cause) s else debugReset cause s

/-! ### Commit and orderly stop (R47, R48, R62) -/

/-- Erases in progress on a channel are suspended (R47). -/
def braceChan (n : Nat) (s : State) : State :=
  let c := chanAt n s
  let er := c.dies.filter (fun e => e.2.kind == .erase)
  if er.isEmpty then s
  else setChan n { c with
    dies := c.dies.filter (fun e => e.2.kind != .erase)
    susp := er.foldl (fun m e => SMap.put m e.1 { e.2 with suspends := e.2.suspends + 1 }) c.susp } s

/-- What brace does in the blocks: commands held, erases suspended, letters of targets 5 and 6 held, pre-reads not at a die removed (R365), a live activation
preempted. -/
def braceBlocks (s : State) : State :=
  let s1 := setPaused false (updPreempt (dropSwitch (fset Fl.HIF_FETCH_CTRL_HOLD 0 s)))
  schBrace (cancelPreReads (fun r => !r.atDie) <| forN braceChan 32 { s1 with nv := { s1.nv with brace := true } })

/-- Recovery from brace: held commands are released in order. -/
def recoverBlocks (s : State) : State := hostAdmitHeld (schRecover (goOn { s with nv := { s.nv with brace := false } }))

/-- Config flash at seal (R48, R478): a word program ends, an erase is abandoned, and no other is taken. -/
def sealFlash (s : State) : State :=
  let s1 := match s.mgt.op with
    | some (.program w d) => setMgt (fun m => { m with op := none, flash := SMap.put m.flash w d }) (fset Fl.CFL_STATUS_BUSY 0 s)
    | some (.erase _ _) => setMgt (fun m => { m with op := none, eraseAgain := cutErase m }) (fset Fl.CFL_STATUS_BUSY 0 s)
    | none => s
  fset Fl.CFL_STATUS_SEAL 1 s1

/-- The powered domains as a mask. -/
def powered (s : State) : Nat :=
  ((rd Reg.AON_PD_ON_LO s).extractLsb' 0 32).toNat + 2 ^ 32 * ((rd Reg.AON_PD_ON_HI s).extractLsb' 0 8).toNat

/-- The domains of `off` go off; the others stay as they are (R48). -/
def switchOff (off : Nat) (s : State) : State :=
  setPower ((BitVec.ofNat 40 (powered s) &&& ~~~ (BitVec.ofNat 40 off)).toNat) s

/-- The domains of the first two steps of seal (R48). -/
def sealFirst : Nat := 0x3FFF000 + 2 ^ 9 + 2 ^ 10 + 2 ^ 11 + 2 ^ 8 + 2 ^ 6
def sealSecond : Nat := 2 ^ 3 + 2 ^ 4 + 2 ^ 5 + 2 ^ 7 + 0x7C000000 + 0x780000000 + 0xF000000000

/-- An orderly stop admits no more commands (R62). -/
def hostStopAdmission (s : State) : State := { s with nv := { s.nv with stopped := true } }

/-- A command in progress ends with a status; what it has started may take effect (R19). -/
def abortWith (sct sc : Nat) (dnr : Bool) (x : Cmd) (s : State) : State :=
  let s1 := match nsAt x.nsid s with
    | none => s
    | some n =>
      if x.result.isNone && writesKind x.kind && (x.phase == .started || x.phase == .waitJournal) then
        forEach (abandonUnit x n) (iusOf x s) (dropLanding x.tag s)
      else s
  complete x.tag sct sc dnr 0 [] s1

/-- Executions and scans end with the commands that are left; Asynchronous Event Requests stay outstanding. -/
def hostAbortOutstanding (s : State) : State :=
  let s1 := scanAbandon (abandonExecs (fun _ => true) s)
  let keep (x : Cmd) : Bool := s1.nv.ctrls.any (fun e => e.2.aers.contains x.tag)
  forEach (abortWith 7 0xC1 false) (s1.nv.cmds.filter (fun x => !keep x && x.result.isNone)) s1

/-! ### Power states and idle (R64–R66, R69) -/

/-- Key under which a controller's features hold entry `k` of its APST table: Idle Transition Power State and 256 times the idle time. -/
def apstKey (k : Nat) : Nat := 12 + 2 ^ 32 * (k + 1)

/-- The state autonomous transition takes from the state a controller requests, if its table gives one. -/
def apstTarget (c : Nat) (s : State) : Option Nat :=
  match ctrlAt c s with
  | none => none
  | some x =>
    let v := SMap.getD x.feats (apstKey x.reqPs) 0
    if v / 256 = 0 then none else some (v % 256)

/-- APST is enabled on a controller. -/
def apstEnabled (c : Nat) (s : State) : Bool := (ctrlAt c s).any (fun x => x.en && x.apst)

/-- A controller requests power state `ps`, by autonomous transition or by Set Features (R64). -/
def setRequested (c ps : Nat) (auto : Bool) (s : State) : State :=
  applyPowerState (updCtrl c (fun x => { x with reqPs := ps, setPs := if auto then x.setPs else ps }) s)

/-- Ticks from the present tick to the earliest due tick; 0 without one (R66). -/
def schEarliest (s : State) : Nat :=
  let now := (rd Reg.SCH_TICK s).toNat
  match s.sch.letters.filterMap (fun l => if l.state = .held then l.due else none) with
  | [] => 0
  | d :: t => t.foldl Nat.min d - now

/-- At exit from Idle-Shallow the delay lists advance by `elapsed` ticks, and letters whose delay has passed become ready (R66). -/
def idleShallowRestore (elapsed : Nat) (s : State) : State :=
  let now := (rd Reg.SCH_TICK s).toNat + elapsed
  let s1 := wr Reg.SCH_TICK (BitVec.ofNat 64 now) s
  settleSch (updSch (fun z => { z with letters := z.letters.map (fun l =>
    if l.state = .held ∧ l.due.any (fun d => decide (d ≤ now)) then { l with due := none } else l) }) s1)

/-- Entry to Idle-Deep (R69, R74, R75): clusters are cleaned and off, DRAM and the ports go off, control cores and debug points lose
their state, the tick is frozen. -/
def idleDeepSave (s : State) : State :=
  let s1 := forN (fun k t => clearPoints k t) 77 (forN clusStop 8 s)
  let s2 := dramLost s1
  let s3 := { s2 with net := { s2.net with conns := [], moved := [], repeats := [], paused := [] }, cores := s2.cores.filter (fun e => e.1 == 76) }
  forN (fun n t => t |> fset (Fl.NET_STATUS_STATE n) (if pdRetired (10 + n) t then 3 else 0) |> fset (Fl.NET_STATUS_SPEED n) 0
    |> fset (Fl.NET_STATUS_FEC_ON n) 0 |> fset (Fl.NET_STATUS_HOLDS_OTHER n) 0) 2 (fset Fl.SCH_STATUS_FROZEN 1 (showConns s3))

/-- The number that a discarded image's postmark gives for its unit, in the order R69 lists them. -/
def savedUnitNo (u : SavedUnit) : Nat :=
  match u with
  | .matchBanks => 0 | .digest => 1 | .keys => 2 | .sorting => 3 | .network => 4

/-- An image that fails its check: its unit returns to reset state, with a postmark naming it (R69, R365). -/
def discardImage (u : SavedUnit) (s : State) : State :=
  let block (b : Block) (t : State) : State := clearRegs (fun c _ r => c == b && (r.cls == .m || r.cls == .live)) t
  let s1 := match u with
    | .matchBanks => showUnits (forEach (fun n t => fset (Fl.MAT_STATUS_STATE n) 3 t) s.mat.retired
        (block .mat { s with mat := { s.mat with rows := [], tags := [], clearing := [], written := [], lost := [], turn := [], last := MatRes.none } }))
    | .digest => showFree (block .dig { s with dig := { s.dig with ctxs := [] } })
    | .keys => reloadSlots true (block .key { s with keys := { s.keys with slots := [], lru := [], waiting := [] } })
    | .sorting => raiseEvent 0x0D 0 Fl.SCH_EVENT_RESTORE_FAIL (setOrdered 0 (schReset (block .sch s)))
    | .network => keepCounts netCounters s |> clearRegs (fun c _ r => c == .net && r.cls == .m)
  if u = .sorting then s1 else otherPostmark 0x02 0 0 (savedUnitNo u) 69 s1

/-- At exit from Idle-Deep every image but those of `bad` is restored; units that were off start again. -/
def idleDeepRestore (bad : List SavedUnit) (s : State) : State :=
  let s1 := dramRise ((List.range 4).filter (fun n => dramRetired n s)) (fset Fl.SCH_STATUS_FROZEN 0 s)
  let s2 := controlCoresStart (forN clusStart 8 s1)
  let s3 := forN (fun n t => if pdRetired (10 + n) t then t else retrain n t) 2 s2
  forEach discardImage bad s3

end Sys2Proof.Machine
end

