-- ==== Sys2Proof/Machine/PowerModes.lean ====
section
/-! DEFINITION. Power input, Commit, modes, clocks and the ready sequence: rows VBUS_WARN to CONTROL_CORE_RETIRE
(R38–R81). -/

namespace Sys2Proof.Machine

/-! ### Starting Rise -/

/-- The Commit that ended before this Rise is recorded (R504). -/
def reportCommit (s : State) : State :=
  if s.pow.commitToReport then
    postmark 0x0283 0x02 [(rd Reg.PWR_COMMIT_LAST s).toNat] { s with pow := { s.pow with commitToReport := false } }
  else s

/-- What the next Rise finds of a Commit that regulator cutoff ended: not complete, with its mode of entry, and no energy or duration
stated (R52); it counts among the seals that did not complete (R58). -/
def commitCut (s : State) : State :=
  { (s |> fset Fl.PWR_COMMIT_LAST_ENERGY (freeNat 12 s) |> fset Fl.PWR_COMMIT_LAST_DURATION (freeNat 12 (useFree s))
      |> fset Fl.PWR_COMMIT_LAST_COMPLETE 0 |> fset Fl.PWR_COMMIT_LAST_FROM_MODE s.pow.fromMode |> useFree |> useFree) with
    pow := { s.pow with commitToReport := true, sealCut := true, sealsCut := Nat.min (s.pow.sealsCut + 1) 0xFFFFFFFF } }

/-- Rise starts: mode Rise with the always-on island, management, config flash, the PCIe controller and PHY and the
debug link on; each later domain comes on with its step (R67, R76). LOSS_COUNT is cleared at each Rise (R75). -/
def startRise (s : State) : State :=
  let s1 := { s with pow := { s.pow with afterSeal := .none, riseStep := .qualified, slotFallbacks := 0, pllWatch := false, faultWatch := false } }
  reportCommit s1 |> enterMode 3 |> setPower 0x800000187
    |> forN (fun n => fset (Fl.CLK_PLL_CTRL_LOSS_COUNT n) 0) 5
    |> fset Fl.PWR_STATUS_CHG_ON 1
    |> fset Fl.AON_RISE_LAST_SLOT_FALLBACK 0 |> fset Fl.AON_RISE_LAST_LATE 0
    |> hostRise |> bootFirmware |> mgtStart (pdOn 1 s)

/-- Watch is entered from outside Serve: its domains only (R60). -/
def goWatch (s : State) : State :=
  let s1 := mgtStart (pdOn 1 s) (goMode 2 (watchClear s))
  { s1 with pow := { s1.pow with afterSeal := .none, riseStep := .idle, faultWatch := false } }

/-- Watch is entered for a fault of Rise (R78), which the status outputs tell apart (R529). -/
def faultToWatch (s : State) : State := let s1 := goWatch s; { s1 with pow := { s1.pow with faultWatch := true } }

/-- Watch is entered for the third or later loss of a PLL, and kept until a module reset or power-on (R71). -/
def pllToWatch (s : State) : State := let s1 := faultToWatch s; { s1 with pow := { s1.pow with pllWatch := true } }

/-- Leaves Keep on a wake event: to Rise, or to Watch while PWRDIS is asserted (R60). -/
def wakeToRise (s : State) : State := if s.pow.pwrdis then goWatch s else startRise s

/-- A fault of Rise is recorded: row `n` of the faults table (R78, R504). -/
def riseFault (n : Nat) (s : State) : State := postmark 0x0284 0x02 [n] s

/-! ### Reset requests and orderly stop -/

/-- An orderly stop begins (R62): in Halt every halted core is released first; admission stops. A cause that arrives
during a transition waits for its end (R61). -/
def startOrderlyStop (g : StopGoal) (s : State) : State :=
  if fget Fl.AON_MODE_TRANS s = 1 then { s with pow := { s.pow with waiting := s.pow.waiting ++ [g] } }
  else
    let s1 := if mode s = 0xB then enterMode s.pow.haltFrom (releaseHalts s) else s
    let s2 := hostStopAdmission { s1 with pow := { s1.pow with stopping := some g } }
    beginTransition (match g with | .watch => 2 | .reset _ => 1) s2

/-- The module reset proper: every domain except PD00 off for 10 ms, then Rise (R72). -/
def resetOff (c : RstCause) (s : State) : State :=
  let s1 := sampleStrap (moduleClear s) |> fset (rstBit c) 1 |> resetPostmark 1 (rstCode c)
  goMode 1 { s1 with pow := { s1.pow with stopping := none, waiting := [], afterSeal := .resetOff, riseStep := .idle } }

/-- A module reset is asked for (R61, R72, R73): during Commit it waits for seal end; while serving or idle an
orderly stop runs first; otherwise it acts at once. A reset in progress takes it in. -/
def requestModuleReset (c : RstCause) (s : State) : State :=
  let m := mode s
  if m = 0 ∨ s.pow.afterSeal = .resetOff then s
  else if activating s then resetLater (.module c) s
  else if m = 8 then { s with pow := { s.pow with resetWait := some (s.pow.resetWait.getD c) } }
  else match s.pow.stopping with
    | some (.reset _) => s
    | some .watch => { s with pow := { s.pow with waiting := s.pow.waiting ++ [.reset c] } }
    | none =>
      if m = 4 ∨ m = 5 ∨ m = 6 ∨ m = 7 ∨ m = 9 ∨ m = 10 ∨ m = 11 then startOrderlyStop (.reset c) s
      else resetOff c s

/-- A transition has ended: a cause that waited for its end is served, a module reset before an orderly stop (R61). -/
def serveWaiting (s : State) : State :=
  let s1 := { s with pow := { s.pow with waiting := [] } }
  match s.pow.waiting.findSome? (fun x => match x with | .reset c => some c | .watch => none) with
  | some c => requestModuleReset c s1
  | none => if s.pow.waiting.isEmpty then s else startOrderlyStop .watch s1

/-! ### Brace and seal -/

/-- A bank test under way is abandoned by a Commit (R44). -/
def abandonBankTest (s : State) : State :=
  if fget Fl.PWR_CAP_CTRL_TEST_BUSY s = 1 then
    { s with pow := { s.pow with testHours := 0 } }
      |> fset Fl.PWR_CAP_CTRL_TEST 0 |> fset Fl.PWR_CAP_CTRL_TEST_BUSY 0
      |> otherPostmark 0x01 0 Reg.PWR_CAP_CTRL 0 44
  else s

/-- Modes in which brace has nothing to do: Keep, Watch, Rise and Idle-Deep (R51). -/
def braceNoWork (m : Nat) : Bool := m == 1 || m == 2 || m == 3 || m == 7

/-- PFAIL_N is asserted and not ignored (R54, R55). -/
def pfailActs (s : State) : Bool := s.pow.pfailLow && fget Fl.PWR_PFAIL_CFG_EN s == 1

/-- Brace is entered (R27, R47, R51, R54): every halted core is released, programs and erases stop starting, the
journal buffer is flushed, and the mode becomes Commit. An entry to idle that waits is preempted. -/
def enterBrace (byPfail : Bool) (s : State) : State :=
  let m := mode s
  let resume := if m = 0xB then s.pow.haltFrom else m
  let s1 := releaseHalts (abandonBankTest s)
  let s2 := { s1 with pow := { s1.pow with
      braceFrom := resume
      fromMode := m
      heldTarget := fget Fl.AON_MODE_TARGET s
      heldTrans := fget Fl.AON_MODE_TRANS s == 1
      braceDone := braceNoWork resume
      pfailInBrace := byPfail || pfailActs s
      sealDue := false
      byHold := false
      sealStep := 0
      commits := Nat.min (s.pow.commits + 1) 0xFFFFFFFF } }
  s2 |> enterMode 8 |> showClocks
    |> fset Fl.PWR_COMMIT_STATE_PHASE 1
    |> fset Fl.PWR_COMMIT_STATE_CAUSE_VWARN (if byPfail then 0 else 1)
    |> fset Fl.PWR_COMMIT_STATE_CAUSE_PFAIL (if byPfail || pfailActs s then 1 else 0)
    |> fset Fl.PWR_COMMIT_STATE_CAUSE_BROWNOUT 0
    |> raiseEvent 0x01 0 Fl.PWR_EVENT_BRACE
    |> (if m = 3 then riseFault 8 else fun t => t)
    |> braceBlocks
    |> (if braceNoWork resume then fun t => t else journalFlush)

/-- VBUS falls below VWARN (R46, R47): brace starts, or VWARN joins a brace that PFAIL_N started. -/
def execVbusWarn (s : State) : Out :=
  if mode s = 0 then .next s
  else if mode s = 8 then
    if fget Fl.PWR_COMMIT_STATE_PHASE s = 1 then .next (fset Fl.PWR_COMMIT_STATE_CAUSE_VWARN 1 s) else .next s
  else .next (enterBrace false s)

/-- PFAIL_N held low for 10 µs (R54). -/
def execPfailAssert (s : State) : Out :=
  let s1 := { s with pow := { s.pow with pfailLow := true } }
  if fget Fl.PWR_PFAIL_CFG_EN s = 0 ∨ mode s = 0 then .next s1
  else if mode s = 8 then
    if fget Fl.PWR_COMMIT_STATE_PHASE s = 1 then
      .next (fset Fl.PWR_COMMIT_STATE_CAUSE_PFAIL 1 { s1 with pow := { s1.pow with pfailInBrace := true } })
    else .next s1
  else .next (enterBrace true s1)

/-- PFAIL_N goes high (R54, R55): Keep after a hold-expiry seal starts Rise. -/
def execPfailDeassert (s : State) : Out :=
  let s1 := { s with pow := { s.pow with pfailLow := false } }
  if s.pow.afterSeal = .keepPfail ∧ mode s = 1 then .next (wakeToRise (fset Fl.AON_WAKE_SRC_PFAIL 1 s1)) else .next s1

/-- PFAIL_N low for HOLD seconds with VBUS at or above VWARN makes seal due (R48, R55). -/
def execPfailHoldExpiry (s : State) : Out :=
  if fget Fl.PWR_COMMIT_STATE_PHASE s = 1 ∧ s.pow.pfailLow ∧ fget Fl.PWR_PFAIL_CFG_EN s = 1 ∧ ¬ s.pow.sealDue then
    .next { s with pow := { s.pow with sealDue := true, byHold := true } }
  else .next s

/-- A program is in progress on a die of some channel. -/
def programming (s : State) : Bool :=
  s.media.chans.any (fun e => e.2.dies.any (fun d => d.2.kind == .progSlc || d.2.kind == .progQlc))

/-- Every program in flight has finished and the journal buffer is on static SLC (R27, R47). While a program runs this cannot come. -/
def execBraceComplete (s : State) : Out :=
  if fget Fl.PWR_COMMIT_STATE_PHASE s = 1 ∧ programming s = false then
    let s1 := { s with pow := { s.pow with braceDone := true } }
    .next (if braceNoWork s.pow.braceFrom then s1 else ftlJournalOnFlash (journalFlush s1))
  else .next s

/-- A reset that waited for the end of a Commit is carried out once the mode before it is back (R61, R73). -/
def resumeReset (r : LateReset) (s : State) : State :=
  match r with
  | .module c => requestModuleReset c s
  | .subsystem p => nvmSubsystemReset p s
  | .ctrl c => if s.net.assocs.any (fun a => a.ctrl == c) then endAssoc c true s else ctrlReset c 0 s
  | .flr f => funcReset f s
  | .port b => portReset b s
  | .cluster n selfTest => clusterResetWith n 5 selfTest s
  | .channel n calGood us => channelResetCal n calGood us s
  | .debug cause => debugReset cause s

/-- The resets that waited, in order, the module reset first since it takes the others in (R61, R73). -/
def resumeResets (s : State) : State :=
  match s.pow.resetWait with
  | some c => requestModuleReset c { s with pow := { s.pow with resetWait := none, waitResets := [] } }
  | none => forEach resumeReset s.pow.waitResets { s with pow := { s.pow with waitResets := [] } }

/-- The recovery condition is met during brace (R46, R49): the mode at brace entry resumes and held commands are
released in order. Rise, and a transition Commit preempted, go on where they stood; what waited for the end of Commit follows (R61). -/
def execBraceRecovery (s : State) : Out :=
  if fget Fl.PWR_COMMIT_STATE_PHASE s = 1 ∧ ¬ (s.pow.pfailInBrace ∧ pfailActs s) then
    let s1 := s |> enterMode s.pow.braceFrom |> showClocks |> fset Fl.PWR_COMMIT_STATE_PHASE 0
      |> fset Fl.PWR_STATUS_SWITCHED_IN 0 |> raiseEvent 0x01 0 Fl.PWR_EVENT_RECOVER
    let s2 := if s.pow.heldTrans then beginTransition s.pow.heldTarget s1 else s1
    let s3 := recoverBlocks { s2 with pow := { s2.pow with
      sealDue := false, byHold := false, braceDone := false,
      recovered := Nat.min (s.pow.recovered + 1) 0xFFFFFFFF } }
    let s4 := if s3.pow.watchWait then pllToWatch { s3 with pow := { s3.pow with watchWait := false } } else s3
    .next (settleReadOnly (haltMode (resumeResets s4)))
  else .next s

/-- VBUS falls to 44 V (R46, R48): the bank holds VBUS, and seal is due if brace is in progress. After seal end the bank is
disconnected (R50). -/
def execHoldupSwitchIn (s : State) : Out :=
  if mode s = 0 ∨ s.pow.afterSeal = .judge ∨ s.pow.afterSeal = .rest ∨ s.pow.afterSeal = .keepVbus ∨ s.pow.afterSeal = .keepPfail then .next s
  else
    let s1 := fset Fl.PWR_STATUS_SWITCHED_IN 1 s
    if fget Fl.PWR_COMMIT_STATE_PHASE s = 1 then .next { s1 with pow := { s1.pow with sealDue := true } } else .next s1

/-- Brace has lasted 5 s (R48). -/
def execBrownoutLimit (s : State) : Out :=
  if fget Fl.PWR_COMMIT_STATE_PHASE s = 1 then
    .next (fset Fl.PWR_COMMIT_STATE_CAUSE_BROWNOUT 1 { s with pow := { s.pow with sealDue := true } })
  else .next s

/-- Seal writes its metadata with the data path off, where the mode of entry has any, and its second group of domains goes off
(R48, R51). -/
def sealMeta (s : State) : State :=
  let s1 := if braceNoWork s.pow.braceFrom then s else ftlSealMeta s
  let s2 := switchOff sealSecond (watchClear s1)
  { s2 with pow := { s2.pow with sealStep := 2 } }

/-- The recorder's RAM tier is copied to an erased segment (R48, R499). -/
def sealCopy (s : State) : State := let s1 := pbkSealCopy s; { s1 with pow := { s1.pow with sealStep := 3 } }

/-- The next of the steps of a seal in progress (R48); each takes a microsecond or more of the model's clock. -/
def sealAdvance (s : State) : State :=
  if fget Fl.PWR_COMMIT_STATE_PHASE s ≠ 2 then s
  else if s.pow.sealStep = 1 then sealMeta s
  else if s.pow.sealStep = 2 then sealCopy s
  else s

/-- Seal starts once brace is complete and one of the events of R48 has come: the domains of its first step go off, and the other steps
follow. From Keep the bank powers PD01 and PD02 for the recorder's copy (R48, R51). -/
def execSealStart (s : State) : Out :=
  if fget Fl.PWR_COMMIT_STATE_PHASE s = 1 ∧ s.pow.braceDone ∧ s.pow.sealDue then
    let s1 := sealFlash (fset Fl.PWR_COMMIT_STATE_PHASE 2 { s with pow := { s.pow with sealStep := 1 } })
    if s.pow.braceFrom = 1 then .next (setPower 0x7 s1)
    else .next (switchOff sealFirst (clearBlocks (fun b => b == .axc || b == .mat || b == .cmp || b == .net || b == .sch) s1))
  else .next s

/-- The seal copy completes (R50): COMMIT_LAST is written, the bank is disconnected and every rail but that of the always-on island
removed (R61). -/
def execSealEnd (energy duration : Nat) (s : State) : Out :=
  if fget Fl.PWR_COMMIT_STATE_PHASE s = 2 then
    let s0 := sealAdvance (sealAdvance s)
    let s1 := s0 |> fset Fl.PWR_COMMIT_LAST_ENERGY (Nat.min energy 4095) |> fset Fl.PWR_COMMIT_LAST_DURATION (Nat.min duration 4095)
      |> fset Fl.PWR_COMMIT_LAST_COMPLETE 1 |> fset Fl.PWR_COMMIT_LAST_FROM_MODE s.pow.fromMode
      |> fset Fl.PWR_COMMIT_STATE_PHASE 0 |> fset Fl.PWR_STATUS_SWITCHED_IN 0 |> fset Fl.PWR_STATUS_CHG_ON 0
      |> fset Fl.PBK_STATUS_SEALED 0 |> setPower 1
    .next { s1 with
      pow := { s1.pow with afterSeal := .judge, commitToReport := true, sealStep := 0 }
      pbk := { s1.pbk with cleanStop := !s1.pbk.sealMissed } }
  else .next s

/-- A reset that waited for seal end is recorded; every domain but the always-on island is off, so that nothing of its scope is left
(R61, R72, R73). -/
def recordReset (r : LateReset) (s : State) : State :=
  match r with
  | .module c => s |> fset (rstBit c) 1 |> resetPostmark 1 (rstCode c)
  | .subsystem p => s |> fset (if p then Fl.AON_RST_CAUSE_NVMSSR_PERST else Fl.AON_RST_CAUSE_NVMSSR_REG) 1 |> resetPostmark 2 (if p then 7 else 6)
  | .ctrl c => resetPostmark 3 c s
  | .flr f => resetPostmark 4 f s
  | .port _ => s |> fset Fl.AON_RST_CAUSE_NVMSSR_PERST 1 |> resetPostmark 2 7
  | .cluster n _ => s |> fset Fl.AON_RST_CAUSE_CLUSTER 1 |> resetPostmark 5 n
  | .channel n _ _ => s |> fset Fl.AON_RST_CAUSE_CHANNEL 1 |> resetPostmark 6 n
  | .debug cause => s |> fset Fl.AON_RST_CAUSE_DEBUG 1 |> resetPostmark 7 cause

/-- Records the resets that waited for seal end. A module reset takes the others in, and clears what a module reset clears (R61, R73). -/
def recordWaitingReset (s : State) : State :=
  let s1 := { s with pow := { s.pow with resetWait := none, waitResets := [] } }
  match s.pow.resetWait with
  | none => forEach recordReset s.pow.waitResets (keepClear s1)
  | some c => recordReset (.module c) (sampleStrap (moduleClear s1))

/-- 1 ms after seal end (R50, R55, R61, R71): Dark without an input; after a hold-expiry seal Keep until PFAIL_N is
high; otherwise the 50 ms rest or Keep by VBUS, with Watch in their place where a PLL loss asks for it. -/
def execSealJudgment (vbusAt50 : Bool) (s : State) : Out :=
  if s.pow.afterSeal = .judge then
    if fget Fl.PWR_STATUS_MAINS_OK s = 0 ∧ fget Fl.PWR_STATUS_AUX_OK s = 0 then .next (enterDark s)
    else
      let s1 := recordWaitingReset s
      if s.pow.watchWait then .next (pllToWatch { s1 with pow := { s1.pow with watchWait := false } })
      else if s.pow.byHold ∧ fget Fl.PWR_PFAIL_CFG_EN s = 1 then
        let s2 := goMode 1 { s1 with pow := { s1.pow with afterSeal := .keepPfail } }
        if s.pow.pfailLow then .next s2 else .next (wakeToRise (fset Fl.AON_WAKE_SRC_PFAIL 1 s2))
      else if vbusAt50 then .next (beginTransition 3 { s1 with pow := { s1.pow with afterSeal := .rest } })
      else .next (goMode 1 { s1 with pow := { s1.pow with afterSeal := .keepVbus } })
  else .next s

/-- The 50 ms rest ends and Rise starts (R50); a reset asked for meanwhile acts in Rise (R61). -/
def execRestExpiry (s : State) : Out :=
  if s.pow.afterSeal = .rest then .next (resumeResets (startRise (fset Fl.AON_WAKE_SRC_VBUS 1 s))) else .next s

/-- VBUS has been at 50 V or more for 20 ms in Keep after a seal (R50). -/
def execKeepVbusRecovery (s : State) : Out :=
  if s.pow.afterSeal = .keepVbus ∧ mode s = 1 then .next (wakeToRise (fset Fl.AON_WAKE_SRC_VBUS 1 s)) else .next s

/-- VBUS falls to 32 V (R46, R52): every rail drops. A seal in progress stays incomplete, and of its copy the first
`franked` postmarks are valid. -/
def execRegulatorCutoff (franked : Nat) (s : State) : Out :=
  if mode s = 0 then .next s
  else if mode s = 8 ∧ s.pow.afterSeal = .none then
    .next (enterDark (commitCut { s with pbk := { s.pbk with
      cleanStop := false
      segs := s.pbk.segs.map (fun e => if e.2.role = .sealed then (e.1, { e.2 with marks := e.2.marks.take franked }) else e) } }))
  else if s.pow.afterSeal = .none then
    .next (enterDark { s with pbk := { s.pbk with cleanStop := false }, pow := { s.pow with sealCut := true } })
  else .next (enterDark s)

/-! ### Inputs -/

/-- The status bit of an input. -/
def inputOk (aux : Bool) : Fld := if aux then Fl.PWR_STATUS_AUX_OK else Fl.PWR_STATUS_MAINS_OK

/-- The bank state of a measurement: usable energy in 0.1 J, ESR in 2 mΩ units (R45). -/
def bankState (energy esr : Nat) : Nat :=
  if energy < 320 ∨ esr > 60 then 3 else if energy < 600 then 2 else if energy < 660 then 1 else 0

/-- An input is in its 100 ms of qualification (R38). -/
def qualifies (aux : Bool) (s : State) : Bool := if aux then s.pow.qualAux else s.pow.qualMains

/-- Sets whether an input is in its qualification. -/
def setQual (aux on : Bool) (s : State) : State :=
  { s with pow := if aux then { s.pow with qualAux := on } else { s.pow with qualMains := on } }

/-- PWR.SRC_CFG allows drawing from an input (R39, R57). -/
def inputEnabled (aux : Bool) (s : State) : Bool := fget (if aux then Fl.PWR_SRC_CFG_AUX_EN else Fl.PWR_SRC_CFG_MAINS_EN) s == 1

/-- An input reaches its start threshold in Dark: its 100 ms of qualification begin (R38, R76). An input that is never drawn starts
nothing. -/
def execInputAtStartThreshold (aux : Bool) (s : State) : Out :=
  if mode s = 0 then
    let s1 := setQual aux true { s with pow := { s.pow with ovAux := s.pow.ovAux && !aux, ovMains := s.pow.ovMains && aux } }
    if inputEnabled aux s then .next (beginTransition (if s.pow.pwrdis then 2 else 3) s1) else .next s1
  else .next s

/-- The input drawn from when an input qualifies in Dark (R39). -/
def firstSource (aux : Bool) (s : State) : Bool :=
  let pref := fget Fl.PWR_SRC_CFG_PRIO s == 1
  if fget (inputOk pref) s == 1 && inputEnabled pref s then pref else aux

/-- An input qualifies (R38, R76). In Dark, where the input may be drawn from: the power-on reset, class K at its reset values,
AON.PWRCYC incremented, the bank's state told from its last measurement (R45), the event recorder's numbers set under R497, and Rise
(or Watch while PWRDIS is asserted). An input whose qualification ends once the module runs from the other is connected. -/
def execInputQualified (aux : Bool) (s : State) : Out :=
  if qualifies aux s = false then .next s
  else if mode s ≠ 0 ∨ inputEnabled aux s = false then .next (fset (inputOk aux) 1 (setQual aux false s))
  else
    let cyc := (rd Reg.AON_PWRCYC s).toNat
    let s1 := sampleStrap (powerOnClear (setQual aux false s))
    let s2 := s1 |> wr Reg.AON_PWRCYC (BitVec.ofNat 64 (Nat.min (cyc + 1) 0xFFFFFFFF)) |> fset (inputOk aux) 1
    let s3 := s2 |> fset Fl.PWR_STATUS_ACTIVE (if firstSource aux s2 then 1 else 0)
      |> fset Fl.PWR_STATUS_BANK_STATE (bankState (fget Fl.PWR_CAP_HEALTH_ENERGY s) (fget Fl.PWR_CAP_HEALTH_ESR s))
      |> fset Fl.CLK_STATUS_ON_RC 1 |> pbkRise
    let s4 := if cyc ≥ 0xFFFFFFFE then postmark 0x0285 0x02 [0xFFFFFFFF] s3 else s3
    let s5 := if s.pow.sealCut then fset Fl.PWR_COMMIT_LAST_COMPLETE 0 s4 else s4
    .next (wakeToRise (resetPostmark 0 0 { s5 with pow := { s5.pow with sealCut := false, transfers := 0, modeSecs := [], testHours := 0 } }))

/-- An input passes its stop threshold and is disconnected (R38); its qualification is over, and with the last one a start from Dark. -/
def execInputStop (aux : Bool) (s : State) : Out :=
  let s1 := fset (inputOk aux) 0 (setQual aux false s)
  if mode s = 0 ∧ fget Fl.AON_MODE_TRANS s = 1 ∧ qualifies (!aux) s = false then
    .next (s1 |> fset Fl.AON_MODE_TARGET 0 |> fset Fl.AON_MODE_TRANS 0)
  else .next s1

/-- An input rises above its overvoltage threshold and is disconnected (R38). In Dark nothing records it. -/
def execInputOvervoltage (aux : Bool) (s : State) : Out :=
  match execInputStop aux { s with pow := { s.pow with ovAux := s.pow.ovAux || aux, ovMains := s.pow.ovMains || !aux } } with
  | .next t => .next (if mode s = 0 then t else raiseEvent 0x01 0 Fl.PWR_EVENT_INPUT_OV t)
  | o => o

/-- An input back inside its start threshold is reconnected, outside Dark (R38). -/
def execInputReconnect (aux : Bool) (s : State) : Out :=
  if mode s = 0 then .next s
  else .next (fset (inputOk aux) 1
    { s with pow := { s.pow with ovAux := s.pow.ovAux && !aux, ovMains := s.pow.ovMains && aux } })

/-- An input is connected and its enable allows drawing from it (R39, PWR.SRC_CFG). -/
def inputUsable (aux : Bool) (s : State) : Bool :=
  fget (inputOk aux) s == 1 && inputEnabled aux s

/-- The load passes to source `aux` (R39). -/
def takeSource (aux : Bool) (s : State) : State :=
  { s with pow := { s.pow with transfers := Nat.min (s.pow.transfers + 1) 0xFFFFFFFF } }
    |> fset Fl.PWR_STATUS_ACTIVE (if aux then 1 else 0) |> raiseEvent 0x01 0 Fl.PWR_EVENT_SWITCHOVER

/-- The source drawn from has passed its stop threshold: the other takes the load (R39). -/
def execSourceTransfer (s : State) : Out :=
  let cur := fget Fl.PWR_STATUS_ACTIVE s == 1
  if !inputUsable cur s && inputUsable (!cur) s then .next (takeSource (!cur) s) else .next s

/-- The preferred source has been in range for RETURN_DLY seconds (R39); RETURN_DLY 0 keeps the present source. -/
def execSourceReturn (s : State) : Out :=
  let pref := fget Fl.PWR_SRC_CFG_PRIO s == 1
  if (fget Fl.PWR_STATUS_ACTIVE s == 1) != pref && inputUsable pref s && fget Fl.PWR_SRC_CFG_RETURN_DLY s != 0 then
    .next (takeSource pref s)
  else .next s

/-! ### The bank -/

/-- Usable energy reaches 32 J: RESERVE_OK, and the writes held for it are admitted (R42, R43). -/
def execReserveReached (s : State) : Out :=
  if fget Fl.PWR_STATUS_BANK_STATE s = 3 then .next s
  else .next (hostAdmitHeld (fset Fl.PWR_STATUS_RESERVE_OK 1 s))

/-- RESERVE_OK falls to 0 (R43). -/
def execReserveLow (s : State) : Out :=
  if fget Fl.PWR_STATUS_RESERVE_OK s = 1 then
    .next (raiseEvent 0x01 0 Fl.PWR_EVENT_RESERVE_LOW (fset Fl.PWR_STATUS_RESERVE_OK 0 s))
  else .next s

/-- Starts a bank test, or refuses it during Commit or with RESERVE_OK 0 (R44). -/
def startBankTest (s : State) : State :=
  if fget Fl.PWR_CAP_CTRL_TEST_BUSY s = 1 then s
  else if fget Fl.PWR_COMMIT_STATE_PHASE s ≠ 0 ∨ fget Fl.PWR_STATUS_RESERVE_OK s = 0 then
    raiseEvent 0x01 0 Fl.PWR_EVENT_TEST_REFUSED (fset Fl.PWR_CAP_CTRL_TEST 0 s)
  else s |> fset Fl.PWR_CAP_CTRL_TEST 1 |> fset Fl.PWR_CAP_CTRL_TEST_BUSY 1

/-- PWR.CAP_CTRL.TEST is set (R44). -/
def execBankTest (s : State) : Out := .next (startBankTest s)

/-- INTERVAL hours have passed since the last test, in Serve or Serve-Capped (R44). -/
def execBankTestInterval (s : State) : Out :=
  if mode s = 4 ∨ mode s = 5 then .next (startBankTest s) else .next s

/-- A measurement sets the bank state, with the event of a state newly reached (R45). -/
def setBankState (n : Nat) (s : State) : State :=
  let old := fget Fl.PWR_STATUS_BANK_STATE s
  let s0 := fset Fl.PWR_STATUS_BANK_STATE n s
  let s1 := if old < 2 ∧ 2 ≤ n then smartEvent 4 s0 else s0
  if n = old then s1
  else if n = 1 then raiseEvent 0x01 0 Fl.PWR_EVENT_BANK_WARN s1
  else if n = 2 then raiseEvent 0x01 0 Fl.PWR_EVENT_BANK_EOL s1
  else if n = 3 then
    let s2 := raiseEvent 0x01 0 Fl.PWR_EVENT_BANK_FAIL s1
    if fget Fl.PWR_STATUS_RESERVE_OK s = 1 then
      raiseEvent 0x01 0 Fl.PWR_EVENT_RESERVE_LOW (fset Fl.PWR_STATUS_RESERVE_OK 0 s2)
    else s2
  else s1

/-- The test's discharge and computation end with these measurements (R44, R45). -/
def execBankTestDone (energy cap esr : Nat) (s : State) : Out :=
  if fget Fl.PWR_CAP_CTRL_TEST_BUSY s = 1 then
    let s1 := s |> fset Fl.PWR_CAP_CTRL_TEST 0 |> fset Fl.PWR_CAP_CTRL_TEST_BUSY 0
      |> fset Fl.PWR_CAP_HEALTH_ENERGY energy |> fset Fl.PWR_CAP_HEALTH_CAP cap |> fset Fl.PWR_CAP_HEALTH_ESR esr
    .next (setBankState (bankState (energy % 4096) (esr % 256))
      { s1 with pow := { s1.pow with testHours := 0, tests := Nat.min (s1.pow.tests + 1) 0xFFFFFFFF } })
  else .next s

/-! ### Orderly stop and module reset -/

/-- A module reset with its cause (R72). -/
def execModuleReset (c : RstCause) (s : State) : Out := .next (requestModuleReset c s)

/-- The 10 ms with domains off end and Rise starts (R72). -/
def execModuleResetOffExpiry (s : State) : Out :=
  if s.pow.afterSeal = .resetOff ∧ mode s = 1 then .next (startRise s) else .next s

/-- The management watchdog expires 1 s after its last service (R461). It is suspended in Halt and while the
management core is halted (R60, R508). -/
def execManagementWatchdogExpiry (s : State) : Out :=
  if mode s = 0xB ∨ coreHalted 76 s then .next s else .next (requestModuleReset .wdt s)

/-- The module stops admitting commands and gives outstanding ones 1 s (R62). -/
def execOrderlyStop (g : StopGoal) (s : State) : Out :=
  match g with
  | .reset c => .next (requestModuleReset c s)
  | .watch =>
    let m := mode s
    if s.pow.stopping.isSome then .next s
    else if m = 3 ∨ m = 4 ∨ m = 5 ∨ m = 6 ∨ m = 7 ∨ m = 9 ∨ m = 10 ∨ m = 11 then .next (startOrderlyStop .watch s)
    else .next s

/-- The 1 s ends (R62): commands left complete with the abort status, the journal is flushed, a checkpoint written (not in Rise, which has
not restored the map), and the target mode entered; a cause that waited for it is then served (R61). -/
def execOrderlyStopGraceExpiry (s : State) : Out :=
  match s.pow.stopping with
  | none => .next s
  | some g =>
    let s0 := hostAbortOutstanding s
    let s1 := if mode s = 3 then s0 else ftlFlushAndCheckpoint s0
    let s2 := { s1 with pow := { s1.pow with stopping := none }, pbk := { s1.pbk with cleanStop := true } }
    match g with
    | .reset c => .next (resetOff c s2)
    | .watch => .next (serveWaiting { (goWatch s2) with pow := { (goWatch s2).pow with waiting := s.pow.waiting.filter (· != .watch) } })

/-! ### PWRDIS, wake timer and reset requests -/

/-- PWRDIS is asserted; it acts after 5 ms (R60). -/
def execPwrdisAssert (s : State) : Out := .next (wakeTimer { s with pow := { s.pow with pwrdis := true } })

/-- PWRDIS has been asserted for 5 ms: an orderly stop to Watch (R60). -/
def execPwrdisHoldExpiry (s : State) : Out :=
  if s.pow.pwrdis then execOrderlyStop .watch s else .next s

/-- A wake event of Keep or Watch may start Rise: not while Keep waits for VBUS or PFAIL_N after a seal or for the end of a module reset,
and not in Watch after a third PLL loss (R50, R55, R71). DESIGN CHOICE (log entry 55): such an event sets its bit of AON.WAKE_SRC and is over. -/
def mayWake (s : State) : Bool := (mode s == 1 || mode s == 2) && s.pow.afterSeal == .none && !s.pow.pllWatch

/-- PWRDIS is deasserted: an enabled wake from Keep or Watch (R60, AON.WAKE_EN). -/
def execPwrdisDeassert (s : State) : Out :=
  let s1 := wakeTimer { s with pow := { s.pow with pwrdis := false } }
  if mode s = 1 ∨ mode s = 2 then
    let s2 := fset Fl.AON_WAKE_SRC_PWRDIS 1 s1
    if fget Fl.AON_WAKE_EN_PWRDIS s = 1 ∧ mayWake s = true then .next (startRise s2) else .next s2
  else .next s1

/-- AON.WAKE_TIMER reaches 0 in Keep or Watch (R79): a wake from Keep, and Rise from Watch (R60). -/
def execWakeTimerExpiry (s : State) : Out :=
  if (mode s = 1 ∨ mode s = 2) ∧ (rd Reg.AON_WAKE_TIMER s).toNat ≠ 0 then
    let s1 := s |> wr Reg.AON_WAKE_TIMER 0 |> fset Fl.AON_WAKE_SRC_TIMER 1
    if fget Fl.AON_WAKE_EN_TIMER s = 1 ∧ mayWake s = true then .next (if mode s = 1 then wakeToRise s1 else startRise s1) else .next s1
  else .next s

/-- A write of AON.RESET_REQ that sets request bit `bit` acts only with key 0x5A, otherwise it is ignored with a postmark (R79). -/
def withResetKey (key req bit : Nat) (f : State → State) (s : State) : State :=
  if key % 256 = 0x5A then f s else writeIgnored Reg.AON_RESET_REQ req (key % 256 * 256 + 2 ^ bit) s

/-- AON.RESET_REQ.KEEP: Watch to Keep, ignored in other modes (R79). -/
def requestKeep (s : State) : State := if mode s = 2 then goMode 1 (keepClear s) else s

/-- AON.RESET_REQ.START: Watch to Rise, ignored in other modes (R79) and after a third PLL loss (R71). -/
def requestStart (s : State) : State := if mode s = 2 ∧ mayWake s = true then startRise s else s

/-- AON.RESET_REQ.MODULE (R79). -/
def execResetReqModule (key req : Nat) (s : State) : Out := .next (withResetKey key req 0 (requestModuleReset .mgmt) s)

/-- AON.RESET_REQ.NVMSSR (R79): during Commit it waits (R61, R73). -/
def execResetReqNvmssr (key req : Nat) (s : State) : Out :=
  .next (withResetKey key req 1 (nvmSubsystemReset false) s)

/-- AON.RESET_REQ.KEEP (R79). -/
def execResetReqKeep (key req : Nat) (s : State) : Out := .next (withResetKey key req 2 requestKeep s)

/-- AON.RESET_REQ.START (R79). -/
def execResetReqStart (key req : Nat) (s : State) : Out := .next (withResetKey key req 3 requestStart s)

/-! ### The ready sequence -/

/-- Rise stands at step `st`, and no orderly stop has begun (R61, R76). -/
def rising (st : RiseStep) (s : State) : Bool := mode s == 3 && fget Fl.AON_MODE_TRANS s == 0 && s.pow.riseStep == st

/-- Control firmware is verified and runs, after `fallbacks` slots failed, or every slot failed (R76, R78). -/
def execFirmwareVerified (fallbacks : Nat) (allFail : Bool) (s : State) : Out :=
  if rising .qualified s then
    let s1 := if fallbacks = 0 then s else
      fset Fl.AON_RISE_LAST_SLOT_FALLBACK 1 (forN (fun _ => riseFault 1) fallbacks s)
    let s2 := if fallbacks ≥ 2 then fset Fl.AON_RISE_LAST_LATE 1 s1 else s1
    let st := storeRise (bootFallback fallbacks s2)
    if allFail then .next (faultToWatch (riseFault 2 s2))
    else if !st.1 then .next (faultToWatch s2)
    else
      let s2 := st.2
      let s3 := { s2 with pow := { s2.pow with riseStep := .firmware, slotFallbacks := fallbacks } }
      let s4 := s3 |> setPower 0x8000001FF |> controlCoresStart
      if workingControlCores s4 < 10 then .next (riseFault 7 s4) else .next s4
  else .next s

/-- DRAM runs on fixed delays; channels whose check fails are dropped, and two failures lead to Watch (R78, R404,
R418). -/
def execDramDelayCheck (failed : List Nat) (s : State) : Out :=
  if rising .firmware s then
    let bad := (List.range 4).filter (fun c => failed.contains c || dramRetired c s)
    let s0 := setPower 0xF800001FF s
    if bad.length ≥ 2 then .next (faultToWatch (riseFault 4 s0))
    else
      let s1 := if (failed.filter (fun c => !dramRetired c s)).isEmpty then s0 else riseFault 3 s0
      let s2 := setPower 0xF800001FF (dramRise bad s1)
      .next { s2 with pow := { s2.pow with riseStep := .dram } }
  else .next s

/-- The flash channels come on and calibrate, with the results given; the map directory and last checkpoint are loaded; a bad primary uses
the second copy, and two bad copies are fatal media state (R76, R78, R171, R172). -/
def execMapDirectoryLoaded (primaryOk secondOk : Bool) (cals : List CalRun) (s : State) : Out :=
  if rising .dram s then
    let s1 := { (setPower (modeDomains 4) s) with pow := { s.pow with riseStep := .directory } }
    let s2 := keyRise (ftlDirectoryLoaded (calibrateAll cals (ucodeRise s1)))
    if primaryOk then .next s2
    else if secondOk then .next (riseFault 5 s2)
    else .next (recordReadOnlyCause 3 (riseFault 6 s2))
  else .next s

/-- Journal replay completes after `ms` milliseconds (R144); a bad primary copy of the journal uses the second, and two bad copies are fatal
media state (R78). -/
def execJournalReplayDone (ms : Nat) (primaryOk secondOk : Bool) (s : State) : Out :=
  if rising .directory s then
    let s1 := if primaryOk then s else if secondOk then riseFault 5 s else recordReadOnlyCause 3 (riseFault 6 s)
    .next (ftlReplayed (fset Fl.AON_RISE_LAST_REPLAY (Nat.min ms 511)
      { s1 with pow := { s1.pow with riseStep := .replayed } }))
  else .next s

/-- Rise ends (R60, R142): in Serve; in Sanitize with one in progress; in Read-Only with a recorded cause, where a crypto erase goes on
from Read-Only and a block erase cannot. -/
def riseEnds (s : State) : State :=
  let go (from' : Nat) (t : State) : State := goMode 9 { t with pow := { t.pow with sanFrom := from' } }
  if fget Fl.AON_MODE_RO_CAUSE s = 0 then (if s.pow.sanPending then go 4 s else goMode 4 s)
  else if s.pow.sanPending && s.nv.sanCrypto then go 10 (goReadOnly s)
  else goReadOnly (failSanitize s)

/-- The open-block scan completes after `ms`, `total` since the origin: the sorting office leaves ordered-route mode and
the serving mode is entered (R76, R145). -/
def execOpenBlockScanDone (ms total : Nat) (s : State) : Out :=
  if rising .replayed s then
    let s1 := s |> fset Fl.AON_RISE_LAST_SCAN (Nat.min ms 511) |> fset Fl.AON_RISE_LAST_TOTAL (Nat.min total 4095)
    let s2 := if total > 1000 then fset Fl.AON_RISE_LAST_LATE 1 s1 else s1
    let s3 := { s2 with pow := { s2.pow with riseStep := .done, riseTimeouts := 0 } }
    .next (serveReached (riseEnds (ftlScanned s3)))
  else .next s

/-- Rise is not complete 10 s after its origin: a module reset, or Watch at the third consecutive timeout (R78). -/
def execRiseTimeout (s : State) : Out :=
  if mode s = 3 then
    let s1 := riseFault 9 { s with pow := { s.pow with riseTimeouts := s.pow.riseTimeouts + 1 } }
    if s.pow.riseTimeouts + 1 ≥ 3 then
      let s2 := faultToWatch s1
      .next { s2 with pow := { s2.pow with riseTimeouts := 0 } }
    else .next (requestModuleReset .rise s1)
  else .next s

/-! ### Power states and idle -/

/-- The idle conditions begin or stop holding: state of queues, executions and scans, with `transfers` saying whether
an SLM or fabric transfer is in progress (R64). When they stop, autonomous requests fall back. -/
def execIdleConditionsChange (transfers : Bool) (s : State) : Out :=
  .next (judgeIdle { s with pow := { s.pow with moving := transfers } })

/-- Idle Time Prior to Transition elapses on a controller with APST enabled: its requested state becomes `ps` (R65). -/
def execApstIdleExpiry (ctrl ps : Nat) (s : State) : Out :=
  if idleNow s ∧ apstEnabled ctrl s ∧ apstTarget ctrl s = some ps then .next (setRequested ctrl ps true s) else .next s

/-- Time from the present tick to the earliest due tick, in 32.768 kHz periods rounded down (R66); a tick is 1 µs. -/
def delayPeriods (s : State) : Nat := schEarliest s * 32768 / 1000000

/-- An operation runs on a die, or is suspended (R162). -/
def dieBusy (s : State) : Bool := s.media.chans.any (fun e => !e.2.dies.isEmpty || !e.2.susp.isEmpty)

/-- Suspended operations are resumed, to run to their end before an entry to idle completes (R162). -/
def resumeAll (s : State) : State :=
  forEach (fun e t => forEach (fun d u => resumeDie e.1 d.1 false u) e.2.susp t) s.media.chans s

/-- Idle-Shallow (`false`) or Idle-Deep (`true`) is what the power state in effect and its conditions ask for from this mode (R60, R64). -/
def idleDue (deep : Bool) (s : State) : Bool :=
  if deep then (mode s == 4 || mode s == 5 || mode s == 6) && psInEffect s == 4 else (mode s == 4 || mode s == 5) && psInEffect s == 3

/-- The entry completes: saved images and domains off for Idle-Deep, the delay wake counter for Idle-Shallow (R66, R69). -/
def idleEnter (deep : Bool) (s : State) : State :=
  let from' := if mode s = 6 then s.pow.idleFrom else mode s
  let s1 := { s with pow := { s.pow with idleFrom := from', idleWait := none, idleAt := s.tick } }
  if deep then goMode 7 (idleDeepSave (ftlFlushAndCheckpoint s1))
  else goMode 6 (wr Reg.AON_DELAY_WAKE (BitVec.ofNat 64 (delayPeriods s1 % 2 ^ 32)) s1)

/-- An entry to idle that waits is given up, no domain being off yet (R61, R162); what waited for its end follows. -/
def idleAbort (s : State) : State :=
  let s1 := { s with pow := { s.pow with idleWait := none } } |> fset Fl.AON_MODE_TARGET (mode s) |> fset Fl.AON_MODE_TRANS 0
  settleReadOnly (haltMode (serveWaiting s1))

/-- An entry to idle that waits goes on (R162): suspended operations resume, and with the last die operation ended it completes, or is
given up if it is no longer asked for. -/
def idleAdvance (s : State) : State :=
  match s.pow.idleWait with
  | none => s
  | some deep =>
    if fget Fl.AON_MODE_TRANS s = 0 ∨ mode s = 8 then s
    else if !idleDue deep s then idleAbort s
    else if dieBusy s then resumeAll s
    else settleReadOnly (haltMode (serveWaiting (idleEnter deep s)))

/-- Entry to Idle-Shallow or Idle-Deep while the power state and its conditions ask for it (R64): while a die operation runs or is
suspended the transition waits for its end (R61, R162). -/
def execIdleEntry (deep : Bool) (s : State) : Out :=
  if fget Fl.AON_MODE_TRANS s = 1 then .next (idleAdvance s)
  else if idleDue deep s then
    .next (idleAdvance (beginTransition (if deep then 7 else 6) { s with pow := { s.pow with idleWait := some deep } }))
  else .next s

/-- The module leaves idle (R66, R69): the mode last left, delay lists advanced by `elapsed` ticks after Idle-Shallow,
and after Idle-Deep every saved image restored but those of `bad`. A Read-Only cause found in idle acts then (R60). -/
def leaveIdle (bit elapsed : Nat) (bad : List SavedUnit) (s : State) : State :=
  let m := mode s
  let s0 := if s.pow.idleWait.isSome then idleAbort s else s
  let s1 := fset ⟨Reg.AON_WAKE_SRC, bit, 1⟩ 1 s0
  if m = 6 then settleReadOnly (idleShallowRestore elapsed (goMode s.pow.idleFrom s1))
  else if m = 7 then settleReadOnly (idleDeepRestore bad (goMode s.pow.idleFrom s1))
  else s

/-- A wake event of R66 by its bit of AON.WAKE_SRC brings the module out of idle first, its delay lists advanced by the time since entry,
or makes it give up an entry that waits (R61, R162). -/
def wakeBy (bit : Nat) (s : State) : State :=
  if mode s = 6 ∨ mode s = 7 then leaveIdle bit (s.tick - s.pow.idleAt) [] s
  else if s.pow.idleWait.isSome ∧ mode s ≠ 8 then idleAbort s
  else s

/-- The wake events of R66 by their bit of AON.WAKE_SRC: 5 host, 6 network (Idle-Shallow only), 7 MCTP, 1 PERST_N,
9 thermal, 10 debug. -/
def execIdleWake (bit elapsed : Nat) (bad : List SavedUnit) (s : State) : Out :=
  if [1, 5, 7, 9, 10].contains bit || (bit == 6 && mode s != 7) then
    .next (if mode s = 6 ∨ mode s = 7 then leaveIdle bit elapsed bad s else wakeBy bit s)
  else .next s

/-- AON.DELAY_WAKE reaches zero in Idle-Shallow; 0 at entry gives no delay wake (R66, R79). -/
def execDelayWakeExpiry (elapsed : Nat) (s : State) : Out :=
  if mode s = 6 ∧ (rd Reg.AON_DELAY_WAKE s).toNat ≠ 0 then .next (wr Reg.AON_DELAY_WAKE 0 (leaveIdle 8 elapsed [] s)) else .next s

/-- What a microsecond of the model's clock does to modes: the steps of a seal (R48), an entry to idle that waits (R162), and the seconds
and hours of log page 0xC2 (R58). -/
def clockTick (s : State) : State :=
  let s1 := idleAdvance (sealAdvance s)
  let t := s1.tick + 1
  let s2 := if t % 1000000 = 0 then
      { s1 with pow := { s1.pow with modeSecs := SMap.put s1.pow.modeSecs (mode s1) (Nat.min (SMap.getD s1.pow.modeSecs (mode s1) 0 + 1) 0xFFFFFFFF) } }
    else s1
  if t % 3600000000 = 0 then { s2 with pow := { s2.pow with testHours := Nat.min (s2.pow.testHours + 1) 0xFFFFFFFF } } else s2

/-! ### Clocks and control cores -/

/-- PLL `n` loses lock (R71): counted, recorded and relocked in `lockUs`; PLL_CPU resets every cluster, PLL_FLS every
channel, the others the module; the third and later loss leads to Watch. During Commit a module reset or Watch waits
for seal end. A PLL that does not run has no lock to lose. -/
def execPllLockLoss (n lockUs : Nat) (s : State) : Out :=
  if n < 5 ∧ fget (Fl.CLK_PLL_CTRL_LOCKED n) s = 1 then
    let seen := fget (Fl.CLK_LOSS_CYCLE_PLL n) s
    let s1 := s |> fset ⟨Reg.CLK_LOCK_LOSS, n, 1⟩ 1 |> fset (Fl.CLK_LOSS_CYCLE_PLL n) (Nat.min (seen + 1) 7)
      |> fset (Fl.CLK_PLL_CTRL_LOSS_COUNT n) (Nat.min (fget (Fl.CLK_PLL_CTRL_LOSS_COUNT n) s + 1) 15)
      |> fset (Fl.CLK_PLL_CTRL_LOCK_TIME n) (Nat.min lockUs 255)
      |> postmark 0x0380 0x03 [n]
    let commit := decide (mode s = 8)
    if seen + 1 ≥ 3 then
      if commit then .next { s1 with pow := { s1.pow with watchWait := true } } else .next (pllToWatch s1)
    else if n = 0 then .next (forN (fun c => requestClusterReset c true) 8 s1)
    else if n = 3 then .next (forN (fun c => channelReset c) 32 s1)
    else .next (requestModuleReset .pll s1)
  else .next s

/-- The always-on island switches from RC to the crystal (R70). -/
def execXtalSwitch (s : State) : Out :=
  if mode s = 0 then .next s else .next (s |> fset Fl.CLK_STATUS_XTAL_OK 1 |> fset Fl.CLK_STATUS_ON_RC 0)

/-- Control core `k` is retired (R16, R68): a half with no core left is switched off, and with fewer than 8 cores the
module enters Read-Only. A halted core that is retired is halted no more (R81). -/
def execControlCoreRetire (k : Nat) (s : State) : Out :=
  if k < 12 ∧ fget ⟨Reg.CTC_CORE_RETIRED, k, 1⟩ s = 0 then
    let s1 := s |> fset ⟨Reg.CTC_CORE_RETIRED, k, 1⟩ 1 |> fset (Fl.CTC_CORE_STATUS_CORE k) 3
      |> fset (Fl.DBG_CORE_DSTATUS_HALTED (64 + k)) 0 |> postmark 0x1580 0x15 [k]
    let half := k / 6
    let s2 := if (List.range 6).all (fun j => fget ⟨Reg.CTC_CORE_RETIRED, 6 * half + j, 1⟩ s1 == 1)
      then retireDomain (4 + half) s1 else s1
    .next (haltMode (if workingControlCores s2 < 8 then enterReadOnly 4 s2 else s2))
  else .next s

/-! ### Accesses of the host that reach nothing (R87) -/

/-- An access to a reserved BAR offset or beyond SLM (R87): Unsupported Request or discarded, with a postmark. -/
def barReserved (f bar off : Nat) (write : Bool) (s : State) : State :=
  let s1 := postmark 0x0480 0x04 [f, bar, off % 2 ^ 32, off / 2 ^ 32, if write then 1 else 0] s
  { s1 with nv := { s1.nv with barUr := s1.nv.barUr + 1, barRead := if write then s1.nv.barRead else none } }

end Sys2Proof.Machine
end

