-- ==== Sys2Proof/Machine/HostLink.lean ====
section
/-! DEFINITION. What the host does on its links and to controllers and functions: rows DOORBELL_WRITE, CQ_HEAD_DOORBELL, FETCH_HOLD to
BAR_RESERVED_ACCESS, CSTS_RDY_SET, LETTERBOX_DOORBELL, M2H_HEAD_WRITE and CONTROLLER_ENABLE to BAR2_ACCESS (R66, R72, R76, R77,
R82–R88, R106–R108, R113, R373, R528). -/

namespace Sys2Proof.Machine

/-- A doorbell, BAR or configuration access wakes the module. -/
def hostWake (s : State) : State := wakeBy 5 s

/-! ### Accesses through the BARs -/

/-- Row DOORBELL_WRITE (R26, R95). Commands in a queue end the idle conditions (R64). -/
def execDoorbellWrite (ctrl q tail : Nat) (s : State) : Out := .next (judgeIdle (tailDoorbell ctrl q tail (hostWake s)))

/-- Row CQ_HEAD_DOORBELL (R94, R95). -/
def execCqHeadDoorbell (ctrl q head : Nat) (s : State) : Out := .next (headDoorbell ctrl q head (hostWake s))

/-- Row LETTERBOX_DOORBELL (R448): the host of function `f` writes messages into the next slots and then the new index. -/
def execLetterboxDoorbell (f : Nat) (msgs : List (List Byte)) (tail : Nat) (s : State) : Out :=
  .next (letterboxDoorbell f msgs tail (hostWake s))

/-- Row M2H_HEAD_WRITE (R450). -/
def execM2hHeadWrite (f head : Nat) (s : State) : Out :=
  let s1 := hostWake s
  if lbxUp s1 = false ∨ funcEnabled f s1 = false then .next s1 else .next (m2hHead f head s1)

/-- Size of a function's BAR2: a power of two of 1 GiB, 1 GiB unless resized (R86). -/
def bar2Size (f : Nat) (s : State) : Nat := 2 ^ 30 * 2 ^ SMap.getD s.nv.bar2 f 0

/-- Offset `off` of a BAR is reserved (R86, R373). -/
def barIsReserved (f bar off : Nat) (s : State) : Bool :=
  if bar = 0 then decide (0x1108 ≤ off)
  else if bar = 2 then decide (slmSize f s ≤ off)
  else !(decide (off < 0x800) || (decide (0x2000 ≤ off) && decide (off < 0x2010)) || (decide (0x8000 ≤ off) && decide (off < 0x9000)))

/-- CAP as R89 and R77 give its fields (their places PRESUMED, log 62): MQES 65,535, CQR, weighted round robin with urgent class, TO 6, DSTRD 0,
NSSRS, I/O command sets, MPSMIN 0, MPSMAX 4. -/
def ctrlCap : Nat := 0xFFFF + 2 ^ 16 + 2 ^ 17 + 6 * 2 ^ 24 + 2 ^ 36 + 2 ^ 43 + 4 * 2 ^ 52

/-- A controller register of BAR0, by offset (R86): CAP, VS 2.1, CC and CSTS, of four bytes each but CAP, which the offset 4 continues. -/
def ctrlRegister (c off : Nat) (s : State) : Option Nat :=
  let x := ctrlAt c s
  let page := (List.range 5).find? (fun k => 4096 * 2 ^ k == ((x.map (·.mps)).getD 4096))
  if off = 0 then some (ctrlCap % 2 ^ 32)
  else if off = 4 then some (ctrlCap / 2 ^ 32)
  else if off = 8 then some 0x00020100
  else if off = 0x14 then some (x.elim 0 (fun y => (if y.en then 1 else 0) + 2 ^ 7 * page.getD 0 + 2 ^ 11 * y.ams +
    2 ^ 14 * (if y.shst = 0 then 0 else if y.shnNormal then 1 else 2)))
  else if off = 0x1C then some (x.elim 0 (fun y => (if y.rdy then 1 else 0) + 4 * y.shst))
  else none

/-- An MSI-X table entry exists: the table has as many as the function's vectors (R88). -/
def msixEntry (f off : Nat) (s : State) : Bool := decide (off < 16 * (resOf f s).vecs)

/-- A write of an MSI-X table dword; a vector unmasked with its pending bit set sends its interrupt (R86, R88). -/
def msixWrite (f off v : Nat) (s : State) : State :=
  if msixEntry f off s then
    let s1 := { s with nv := { s.nv with msix := SMap.put s.nv.msix (512 * f + off / 4) (v % 2 ^ 32) } }
    let p := (f, off / 16)
    if s1.nv.msixPend.contains p ∧ irqOpen f (off / 16) s1 then
      { s1 with nv := { s1.nv with msixPend := s1.nv.msixPend.filter (· != p), irqs := s1.nv.irqs ++ [(cntlidOf f s1, off / 16)] } }
    else s1
  else s

/-- What a read of a BAR offset that is not reserved returns, a dword: a controller register, an MSI-X table dword, pending bits. -/
def barDword (f bar off : Nat) (s : State) : Option Nat :=
  if bar = 0 then ctrlRegister (cntlidOf f s) off s
  else if bar = 4 ∧ off < 0x800 then
    some (if msixEntry f off s then SMap.getD s.nv.msix (512 * f + off / 4) (if off / 4 % 4 = 3 then 1 else 0) else 0)
  else if bar = 4 ∧ 0x2000 ≤ off ∧ off < 0x2010 then
    some ((List.range 32).foldl (fun a i => a + if s.nv.msixPend.contains (f, (off - 0x2000) / 4 * 32 + i) then 2 ^ i else 0) 0)
  else none

/-- Row BAR_RESERVED_ACCESS (R87), a read or a write of `value`. One whose offset is not reserved is an ordinary access of a dword: to the
controller registers (their writes have rows of their own) or the MSI-X table (R86). -/
def execBarReservedAccess (f bar off : Nat) (value : Option Nat) (s : State) : Out :=
  let s1 := hostWake s
  if pdOn 7 s1 = false ∨ funcEnabled f s1 = false ∨ ¬ (bar = 0 ∨ bar = 2 ∨ bar = 4) ∨ (bar = 2 ∧ bar2Size f s1 ≤ off) then .next s1
  else if barIsReserved f bar off s1 = true then .next (barReserved f bar off value.isSome s1)
  else match value with
    | some v => if bar = 4 ∧ off < 0x800 then .next (msixWrite f off v s1) else .next s1
    | none => match barDword f bar off s1 with
      | some v => .next { s1 with nv := { s1.nv with barRead := some (leBytes 4 v) } }
      | none => .next s1

/-- Row BAR2_ACCESS (R373, R409): a read of `n` bytes, or a write of `data`, of the function's memory namespace. -/
def execBar2Access (f off n : Nat) (data : Option (List Byte)) (s : State) : Out :=
  let s1 := hostWake s
  if pdOn 7 s1 = false ∨ funcEnabled f s1 = false ∨ bar2Size f s1 ≤ off then .next s1
  else
    let len := match data with | some d => d.length | none => n
    if slmSize f s1 < off + len then .next (barReserved f 2 off data.isSome s1)
    else match data with
      | some d => .next (writeSpace (.host f) off d s1)
      | none => .next { s1 with nv := { s1.nv with barRead := readSpace (.host f) off n s1 } }

/-! ### Links (R77, R82–R84, R113) -/

/-- The link of a port is up. -/
def linkUp (portB : Bool) (s : State) : Bool := fget (if portB then Fl.HIF_LINK_STATUS_UP_B else Fl.HIF_LINK_STATUS_UP_A) s == 1

/-- The fundamental reset of a port is asserted. -/
def portInReset (portB : Bool) (s : State) : Bool := if portB then s.pow.perstB else s.pow.perst

/-- Row LINK_TRAINED (R82, R84): the link settles at a speed (encoding of SPEED_A) and width, in FLIT mode or not, `more` when the partner
advertised more: below 64 GT/s or x8 it is then degraded, which records a postmark, that of the event bit where DEGRADED becomes 1 (R113).
DEGRADED stays as the port's last training left it (log 62). A port trains within its lanes and the cap of LINK_CFG.MAX_SPEED, always in
FLIT mode at 64 GT/s. -/
def execLinkTrained (portB : Bool) (speed width : Nat) (flit more : Bool) (s : State) : Out :=
  let dual := s.nv.dual
  if pdOn 7 s = false ∨ pdOn 8 s = false ∨ portInReset portB s = true ∨ (portB = true ∧ dual = false) ∨ speed < 1 ∨
      fget Fl.HIF_LINK_CFG_MAX_SPEED s < speed ∨ ¬ [1, 2, 4, 8].contains width ∨ (dual = true ∧ width = 8) ∨
      (speed = 6 ∧ flit = false) then .next s
  else
    let below := more && decide (speed < 6 ∨ width < 8)
    let s1 := setLevels portB (aspmOf portB s) 0 below (setLink portB 1 speed width (if flit then 1 else 0) s)
    if below = false then .next s1
    else if fget Fl.HIF_LINK_STATUS_DEGRADED s = 0 then .next (raiseEvent 0x04 0 Fl.HIF_EVENT_DEGRADED s1)
    else .next (postmark 0x0402 0x04 [(rd Reg.HIF_EVENT s1).toNat] s1)

/-- Row LINK_DOWN (R113): the port left L0 through a failure that the module did not cause. -/
def execLinkDown (portB : Bool) (s : State) : Out :=
  if linkUp portB s = false then .next s
  else .next (raiseEvent 0x04 0 (if portB then Fl.HIF_EVENT_LINK_DOWN_B else Fl.HIF_EVENT_LINK_DOWN_A) (setLevels portB (aspmOf portB s) 0 (degraded portB s) (setLink portB 0 0 0 0 s)))

/-- Control firmware runs, so configuration requests are answered normally (R76, R77). -/
def configAnswered (s : State) : Bool := mode s != 3 || (s.pow.riseStep != .idle && s.pow.riseStep != .qualified)

/-- A configuration read's answer (R83, R85, R86): every function has the Alternative Routing-ID capability. -/
def configAnswer (portB : Bool) (x : CfgItem) (s : State) : Option Nat :=
  match x with
  | .ari f => if funcEnabled f s then some 1 else none
  | .totalVfs => some (if s.nv.dual then 63 else 127)
  | .firstVf => some 1
  | .vfStride => some 1
  | .numVfs => some (if portB then s.nv.numVfB else s.nv.numVfA)
  | .aspm => some ((aspmOf portB s).foldl (fun a l => a + 2 ^ l) 0)
  | .bar2 f => if funcEnabled f s then some (bar2Size f s) else none

/-- A configuration request takes effect (R83, R85, R86, R88, R454): SR-IOV NumVFs within the port's total; MSI-X Enable; MSI Enable of a
physical function; the L1 levels enabled; L1 entry, which the module refuses while LINK_CFG.L1_ALLOW is 0 (R113) or the host has not enabled
the level; a BAR2 size of 1 to 64 GiB; a read. A link in L1 returns to L0 for any other request. -/
def configEffect (portB : Bool) (r : CfgReq) (s : State) : State :=
  let awake := setLevels portB (aspmOf portB s) 0 (degraded portB s) s
  match r with
  | .other => awake
  | .numVf n => if n ≤ (if s.nv.dual then 63 else 127) then setNumVf portB n awake else awake
  | .msix f on =>
    if funcEnabled f s then
      let l := s.ten.msixOn.filter (· != f)
      { awake with ten := { s.ten with msixOn := if on then l ++ [f] else l } }
    else awake
  | .msi f on =>
    if isPhysical f s then
      let l := s.nv.msiOn.filter (· != f)
      { awake with nv := { awake.nv with msiOn := if on then l ++ [f] else l } }
    else awake
  | .aspm on => setLevels portB (on.filter (fun l => decide (1 ≤ l ∧ l ≤ 3))) 0 (degraded portB s) s
  | .enterL1 l =>
    if fget Fl.HIF_LINK_CFG_L1_ALLOW s = 1 ∧ (aspmOf portB s).contains l = true then setLevels portB (aspmOf portB s) l (degraded portB s) s else s
  | .bar2 f k => if funcEnabled f s = true ∧ k ≤ 6 then { awake with nv := { awake.nv with bar2 := SMap.put s.nv.bar2 f k } } else awake
  | .read x => { awake with nv := { awake.nv with cfgRead := configAnswer portB x s } }

/-- Row CONFIGURATION_REQUEST (R77). -/
def execConfigurationRequest (portB : Bool) (r : CfgReq) (s : State) : Out :=
  let s1 := hostWake s
  if pdOn 7 s1 = false ∨ linkUp portB s1 = false then .next s1
  else if configAnswered s1 then
    .next { (configEffect portB r s1) with nv := { (configEffect portB r s1).nv with cfgDone := s1.nv.cfgDone + 1 } }
  else .next { s1 with nv := { s1.nv with crs := s1.nv.crs + 1 } }

/-- Row PERST_ASSERT (R72, R84, R528): with PWRDIS asserted a module reset, otherwise an NVM subsystem reset, in dual-port mode of
port A's functions. An edge wakes the module from idle. -/
def execPerstAssert (s : State) : Out :=
  let s1 := wakeBy 1 (wakeTimer { s with pow := { s.pow with perst := true } })
  if mode s = 0 then .next s1
  else if s.pow.pwrdis then .next (requestModuleReset .perst s1)
  else if s.nv.dual then .next (requestPortReset false s1)
  else .next (linkOff false (nvmSubsystemReset true s1))

/-- Row PERST_DEASSERT (R60, R77): link training follows; an enabled wake from Keep. -/
def execPerstDeassert (s : State) : Out :=
  let s1 := wakeBy 1 (wakeTimer { s with pow := { s.pow with perst := false } })
  if mode s = 1 then
    let s2 := fset Fl.AON_WAKE_SRC_PERST 1 s1
    if fget Fl.AON_WAKE_EN_PERST s = 1 ∧ mayWake s = true then .next (wakeToRise s2) else .next s2
  else .next s1

/-- Row PERSTB_ASSERT (R84, R528). -/
def execPerstbAssert (s : State) : Out :=
  let s1 := wakeBy 1 { s with pow := { s.pow with perstB := true } }
  if s.nv.dual = true then .next (requestPortReset true s1) else .next s1

/-- Row PERSTB_DEASSERT (R84): port B may train again. -/
def execPerstbDeassert (s : State) : Out := .next (wakeBy 1 { s with pow := { s.pow with perstB := false } })

/-- Row PCIE_HOT_RESET (R89, R113): the link goes down without LINK_DOWN, and the port's controllers are reset. -/
def execPcieHotReset (portB : Bool) (s : State) : Out :=
  if linkUp portB s = false then .next s
  else .next (forEach (fun f t => requestCtrlReset (cntlidOf f t) t)
    ((portFuncs portB s).filter (fun f => (ctrlAt (cntlidOf f s) s).any (·.en))) (linkOff portB s))

/-! ### Controllers and functions -/

/-- Row CONTROLLER_ENABLE (R76, R93): CC.EN from 0 to 1 on the controller of function `f`, with admin queue sizes, arbitration and
page size in the ranges of R89. -/
def execControllerEnable (f asq acq ams mps : Nat) (s : State) : Out :=
  let s1 := hostWake s
  let c := cntlidOf f s1
  if pdOn 7 s1 = false ∨ funcEnabled f s1 = false ∨ (ctrlAt c s1).any (·.en) = true ∨ asq < 2 ∨ 4096 < asq ∨ acq < 2 ∨ 4096 < acq ∨
      1 < ams ∨ ¬ [4096, 8192, 16384, 32768, 65536].contains mps then .next s1
  else .next (enableCtrl c f false (s1.nv.dual && decide (64 ≤ f)) asq acq ams mps s1)

/-- Row CSTS_RDY_SET (R76, R446): 10 ms after the later of bring-up and CC.EN. -/
def execCstsRdySet (ctrl : Nat) (s : State) : Out :=
  if serving s ∧ (ctrlAt ctrl s).any (fun x => x.en && x.online) = true then .next (updCtrl ctrl (fun x => { x with rdy := true }) s)
  else .next s

/-- Row CONTROLLER_RESET (R106): CC.EN from 1 to 0. It waits for a firmware component in progress. -/
def execControllerReset (ctrl : Nat) (s : State) : Out :=
  let s1 := hostWake s
  if (ctrlAt ctrl s1).any (fun x => x.en && !x.fabric) = false then .next s1
  else .next (requestCtrlReset ctrl s1)

/-- Row FUNCTION_LEVEL_RESET (R106, R458). -/
def execFunctionLevelReset (f : Nat) (s : State) : Out :=
  let s1 := hostWake s
  if pdOn 7 s1 = false ∨ funcEnabled f s1 = false then .next s1
  else if mode s1 = 8 then .next (waitCommit (.flr f) s1)
  else if activating s1 then .next (resetLater (.flr f) s1)
  else .next (funcReset f s1)

/-- Row NVM_SUBSYSTEM_RESET (R72): a write of NSSR acts with the value 0x4E56_4D65. -/
def execNvmSubsystemReset (value : Nat) (s : State) : Out :=
  if value = 0x4E564D65 then .next (nvmSubsystemReset false (hostWake s)) else .next (hostWake s)

/-- Row SHUTDOWN (R107). -/
def execShutdown (ctrl : Nat) (normal : Bool) (s : State) : Out :=
  let s1 := hostWake s
  if (ctrlAt ctrl s1).any (fun x => x.en && x.shst == 0) then .next (settleAll (beginShutdown ctrl normal s1)) else .next s1

/-- Row FETCH_HOLD (R108, R113). -/
def execFetchHold (v req : Nat) (s : State) : Out :=
  if pdOn 7 s = false then .next (busError Reg.HIF_FETCH_CTRL req 4 s)
  else .next (s |> fset Fl.HIF_FETCH_CTRL_HOLD v |> fset Fl.HIF_FETCH_CTRL_HELD v)

end Sys2Proof.Machine
end

