-- ==== Sys2Proof/Machine/NetRows.lean ====
section
/-! DEFINITION. Rows PORT_LINK_DOWN to RATE_RECOVERY_TIMER and RETRANSMISSION_TIMEOUT (R423–R439). -/

namespace Sys2Proof.Machine

/-! ### Links (R423, R436, R437, R442) -/

/-- Row PORT_LINK_DOWN. -/
def execPortLinkDown (n : Nat) (s : State) : Out :=
  if netUp n s = true ∧ (fget (Fl.NET_STATUS_STATE n) s = 1 ∨ fget (Fl.NET_STATUS_STATE n) s = 2) then .next (linkDown n s) else .next s

/-- A module is present that may run. -/
def moduleReady (n : Nat) (s : State) : Bool := fget (Fl.NET_MOD_STATUS_PRESENT n) s == 1 && fget (Fl.NET_MOD_STATUS_LOWPOWER_HELD n) s == 0

/-- Row PORT_LINK_UP: the link settles at a speed (1 to 4), with FEC or without. A forced speed that is not reached leaves the port
down. -/
def execPortLinkUp (n speed : Nat) (fec : Bool) (s : State) : Out :=
  let forced := fget (Fl.NET_LINK_CFG_SPEED n) s
  if netUp n s = false ∨ speed = 0 ∨ 4 < speed ∨ fget (Fl.NET_LINK_CFG_ENABLE n) s = 0 ∨ moduleReady n s = false ∨
      fget (Fl.NET_STATUS_STATE n) s = 1 ∨ fget (Fl.NET_STATUS_STATE n) s = 3 then .next s
  else if forced ≠ 0 ∧ forced ≠ speed then
    .next (raiseEvent 0x10 n (Fl.NET_EVENT_LINK_DOWN n) (fset (Fl.NET_STATUS_STATE n) 0 s))
  else
    .next (discoveryChange (updNet (fun x => { x with calFails := SMap.del x.calFails n }) s
      |> fset (Fl.NET_STATUS_STATE n) 1 |> fset (Fl.NET_STATUS_SPEED n) speed
      |> fset (Fl.NET_STATUS_FEC_ON n) (if fec || speed == 4 then 1 else 0) |> raiseEvent 0x10 n (Fl.NET_EVENT_LINK_UP n)))

/-- Row ADDRESS_FAILBACK: 10 s after the port came up. -/
def execAddressFailback (n : Nat) (s : State) : Out :=
  if portUp n s = true ∧ s.net.moved.contains n = true then .next (moveAddrs n false s) else .next s

/-- Row ANNOUNCEMENT_REPEAT. -/
def execAnnouncementRepeat (n : Nat) (s : State) : Out :=
  let k := SMap.getD s.net.repeats n 0
  if 2 ≤ n ∨ k = 0 ∨ netUp (holder n s) s = false then .next s
  else .next (announce n (updNet (fun x => { x with repeats := SMap.putD 0 x.repeats n (k - 1) }) s))

/-- Row PORT_RETRAIN. -/
def execPortRetrain (n : Nat) (s : State) : Out := .next (retrain n s)

/-- A fault is counted against a port, or CTRL.RETIRE written; it may retire the port (R438). -/
def portFault (n : Nat) (f : PortFault) (s : State) : State :=
  match f with
  | .cal =>
    let k := SMap.getD s.net.calFails n 0 + 1
    let s1 := raiseEvent 0x10 n (Fl.NET_EVENT_CAL_FAIL n) (updNet (fun x => { x with calFails := SMap.put x.calFails n k }) s)
    if 2 ≤ k then portRetire n s1 else s1
  | .mem second =>
    let s1 := raiseEvent 0x10 n (Fl.NET_EVENT_MEM_UE n) s
    if second then portRetire n s1 else s1
  | .ctrl key req => if key % 256 = 0x5C then portRetire n s else writeIgnored (Reg.NET_CTRL n) req (2 + key % 256 * 256) s

/-- Row PORT_RETIRE. -/
def execPortRetire (n : Nat) (f : PortFault) (s : State) : Out := if netUp n s then .next (portFault n f s) else .next s

/-! ### Modules in the cages (R424) -/

/-- Power and temperature of a module as read: the temperature is also sensor 9 + n (R424, R462), and more than 6.0 W (units of 0.1 W) is
held in low power. -/
def readModule (n power temp : Nat) (s : State) : State :=
  let s1 := s |> fset (Fl.NET_MOD_STATUS_POWER n) power |> fset (Fl.NET_MOD_STATUS_TEMP n) temp |> sensorReads (9 + n) (sensorOfByte temp)
  if 60 < power ∧ fget (Fl.NET_MOD_STATUS_LOWPOWER_HELD n) s = 0 then
    let s2 := raiseEvent 0x10 n (Fl.NET_EVENT_MOD_POWER n) (fset (Fl.NET_MOD_STATUS_LOWPOWER_HELD n) 1 s1)
    if portUp n s then linkDown n s2 else s2
  else s1

/-- Row MODULE_INSERT: declared power in 0.1 W and temperature in °C. -/
def execModuleInsert (n power temp : Nat) (s : State) : Out :=
  if netUp n s = false ∨ fget (Fl.NET_MOD_STATUS_PRESENT n) s = 1 then .next s
  else .next (readModule n power temp (raiseEvent 0x10 n (Fl.NET_EVENT_MOD_INSERT n) (fset (Fl.NET_MOD_STATUS_PRESENT n) 1 s)))

/-- Row MODULE_REMOVE. -/
def execModuleRemove (n : Nat) (s : State) : Out :=
  if netUp n s = false ∨ fget (Fl.NET_MOD_STATUS_PRESENT n) s = 0 then .next s
  else
    let s1 := sensorReads (9 + n) 0x8000 (raiseEvent 0x10 n (Fl.NET_EVENT_MOD_REMOVE n) (wr (Reg.NET_MOD_STATUS n) 0 s))
    .next (if portUp n s then linkDown n s1 else s1)

/-- Row MODULE_POLL. -/
def execModulePoll (n power temp : Nat) (s : State) : Out :=
  if netUp n s = false ∨ fget (Fl.NET_MOD_STATUS_PRESENT n) s = 0 then .next s else .next (readModule n power temp s)

/-! ### Frames (R425) -/

/-- Pause for a priority begins at 75 % of its buffer and ends at 50 %. -/
def flowControl (n : Nat) (full drained : Option Nat) (s : State) : State :=
  let on := fget (Fl.NET_LINK_CFG_PFC_EN n) s == 1
  let may (p : Nat) : Bool := !on || fget (Fl.NET_LINK_CFG_PFC_MASK n) s / 2 ^ p % 2 == 1
  let s1 := match full with
    | some p => if p < 8 ∧ may p = true ∧ s.net.paused.contains (n, p) = false then
        cntAdd (Reg.NET_CNT_PFC_TX n) 32 1 (netSend (.pause n p true) (updNet (fun x => { x with paused := (n, p) :: x.paused }) s))
      else s
    | none => s
  match drained with
  | some p => if s1.net.paused.contains (n, p) then
      netSend (.pause n p false) (updNet (fun x => { x with paused := x.paused.filter (· != (n, p)) }) s1)
    else s1
  | none => s1

/-- A frame addressed to the module wakes it from Idle-Shallow (R66). -/
def frameWake (n : Nat) (k : NetFrame) (s : State) : State :=
  let mine := match k with
    | .resolve p a | .echo p a => holder p s == n && decide (p < 2) && addrValid p a s
    | .transport _ => true
    | _ => false
  if mode s = 6 ∧ mine = true then wakeBy 6 s else s

/-- Row FRAME_RECEIVED: a frame of `len` bytes with what it is, codewords corrected and not, and priorities whose receive buffer it
fills or finds drained. A frame above 9,216 bytes is not taken. -/
def execFrameReceived (n : Nat) (k : NetFrame) (len corr uncorr : Nat) (full drained : Option Nat) (s : State) : Out :=
  if portUp n s = false then .next s
  else
    let s1 := frameWake n k s |> cntAdd (Reg.NET_CNT_FEC_CORR n) 64 corr |> cntAdd (Reg.NET_CNT_FEC_UNCORR n) 32 uncorr |> flowControl n full drained
    if 9216 < len then .next s1
    else
      let s2 := cntAdd (Reg.NET_CNT_RX_BYTES n) 64 len s1
      match k with
      | .resolve p a => if holder p s = n ∧ p < 2 ∧ addrValid p a s = true then .next (netSend (.answer n k) s2) else .next s2
      | .echo p a =>
        if holder p s = n ∧ p < 2 ∧ addrValid p a s = true then .next (cntAdd (Reg.NET_CNT_TX_BYTES n) 64 len (netSend (.answer n k) s2))
        else .next s2
      | .transport c => .next (updNet (fun x => { x with conns := SMap.upd x.conns c (fun y => { y with retries := 0 }) }) s2)
      | .pause => .next s2
      | .other => .next s2

/-! ### Connections (R426, R427, R430–R432) -/

/-- A new connection on a port; its rate starts at the link's with α 1. -/
def freshConn (n : Nat) (roce : Bool) (s : State) : NetConn :=
  let r := speedBps (fget (Fl.NET_STATUS_SPEED (holder n s)) s)
  ⟨n, roce, roce, false, false, 0, none, none, 0, ⟨1, r, r, 0⟩, 0⟩

/-- The transport of a connection listens on its port. -/
def listens (n : Nat) (roce : Bool) (s : State) : Bool :=
  fget (if roce then Fl.NET_LINK_CFG_ROCE_EN n else Fl.NET_LINK_CFG_TCP_EN n) s == 1

/-- Row TLS_HANDSHAKE: on a new connection `c` to an address of port `n`, with the PSK slot named; `ok`: the handshake itself succeeds. -/
def execTlsHandshake (c n slot : Nat) (ok : Bool) (s : State) : Out :=
  if portUp (holder n s) s = false ∨ 2 ≤ n ∨ (SMap.find s.net.conns c).isSome ∨ listens n false s = false then .next s
  else if ok ∧ pskFilled slot s = true then
    .next (showConns (updNet (fun x => { x with conns := SMap.put x.conns c { freshConn n false s with tls := some slot } }) s))
  else .next (netSend (.close c true) (raiseEvent 0x10 (holder n s) (Fl.NET_EVENT_TLS_FAIL (holder n s))
    (cntAdd (Reg.NET_CNT_TLS_FAIL (holder n s)) 32 1 s)))

/-- Row ICREQ: the connection, new unless TLS has made it, gets its digests and alignment. -/
def execIcreq (c n : Nat) (hdgst ddgst : Bool) (hpda : Nat) (s : State) : Out :=
  if portUp (holder n s) s = false ∨ 2 ≤ n ∨ listens n false s = false then .next s
  else
    let x := (SMap.find s.net.conns c).getD (freshConn n false s)
    if x.ready ∨ x.roce ∨ x.port ≠ n then .next s
    else .next (netSend (.icResp c hdgst ddgst) (showConns (updNet (fun y => { y with
      conns := SMap.put y.conns c { x with ready := true, hdgst := hdgst, ddgst := ddgst, hpda := Nat.min hpda 31 } }) s)))

/-- A Connect is refused with a command-specific status. -/
def refuseConnect (c n sc : Nat) (dnr : Bool) (s : State) : State :=
  let p := holder n s
  s |> cntAdd (Reg.NET_CNT_CONNECT_REF p) 32 1 |> raiseEvent 0x10 p (Fl.NET_EVENT_CONNECT_REFUSED p) |> netSend (.refused c 1 sc dnr)

/-- The lowest free controller identifier of a range. -/
def freeCntlid (a k : Nat) (s : State) : Option Nat := ((List.range k).map (· + a)).find? (fun c => (ctrlAt c s).isNone)

/-- Fabric controllers, and their I/O queues. -/
def fabricCtrls (s : State) : List Nat := (s.nv.ctrls.filter (fun e => e.2.fabric && decide (e.1 < 0x200))).map (·.1)
def fabricQueues (s : State) : Nat := s.net.conns.foldl (fun n e => n + if e.2.ctrl.isSome && e.2.queue != 0 then 1 else 0) 0

/-- The status a Connect for an admin queue is refused with, for the host entry it meets (R426, R427). -/
def connectRefusal (x : NetConn) (entry : Option Nat) (disc : Bool) (size : Nat) (s : State) : Option (Nat × Bool) :=
  if s.nv.stopped then some (0x81, false)
  else match entry with
    | none => if disc then
        (if 32 ≤ (s.net.assocs.filter (·.disc)).length then some (0x81, false) else if 32 < size then some (0x82, true) else none)
      else some (0x84, true)
    | some i =>
      if disc then
        (if 32 ≤ (s.net.assocs.filter (·.disc)).length then some (0x81, false) else if 32 < size then some (0x82, true) else none)
      else if !hostFlag i (if x.roce then 2 else 1) s || (hostFlag i 3 s && x.tls.isNone) then some (0x84, true)
      else if 32 < size then some (0x82, true)
      else if 256 ≤ (fabricCtrls s).length ∨ hostMax i s ≤ (s.net.assocs.filter (fun a => a.entry == some i)).length then some (0x81, false)
      else none

/-- Connect for an admin queue: a new controller, with its association (R426, R427). -/
def connectAdmin (c : Nat) (x : NetConn) (nqn : List Byte) (disc : Bool) (size kato : Nat) (s : State) : State :=
  let entry := findHost nqn s
  match connectRefusal x entry disc size s with
  | some (sc, dnr) => refuseConnect c x.port sc dnr s
  | none =>
    match (if disc then freeCntlid 0x200 32 s else freeCntlid 0x100 256 s) with
    | none => refuseConnect c x.port 0x81 false s
    | some k =>
      let f := if disc then 0 else (entry.map (fun i => hostFunc i s)).getD 0
      let y := { Ctrl.fresh f true false false with
        sqs := [(0, ⟨size, 0, 0, 0, 0, false, false, false⟩)], cqs := [(0, ⟨size, 0, 0, none, [], []⟩)], weight := (resOf f s).arbW }
      let s1 := { s with
        nv := { s.nv with ctrls := SMap.put s.nv.ctrls k y }
        net := { s.net with
          assocs := s.net.assocs ++ [⟨k, if disc then none else entry, Nat.min kato 3600000, disc⟩]
          conns := SMap.put s.net.conns c { x with ctrl := some k, queue := 0 } } }
      netSend (.connected c k) (showConns s1)

/-- Connect for an I/O queue of controller `k`. -/
def connectIo (c : Nat) (x : NetConn) (k qid size : Nat) (s : State) : State :=
  match ctrlAt k s with
  | none => refuseConnect c x.port 0x82 true s
  | some y =>
    if ¬ y.fabric ∨ ¬ y.en ∨ s.net.assocs.all (fun a => a.ctrl != k || a.disc) ∨ 32 < qid ∨ 1024 < size ∨ (SMap.find y.sqs qid).isSome then
      refuseConnect c x.port 0x82 true s
    else if 2048 ≤ fabricQueues s ∨ s.nv.stopped then refuseConnect c x.port 0x81 false s
    else
      let s1 := updCtrl k (fun z => { z with
        sqs := SMap.put z.sqs qid ⟨size, 0, 0, qid, 0, false, false, false⟩, cqs := SMap.put z.cqs qid ⟨size, 0, 0, none, [], []⟩ }) s
      netSend (.connected c k) (showConns (updNet (fun n => { n with conns := SMap.put n.conns c { x with ctrl := some k, queue := qid } }) s1))

/-- Row CONNECT: on connection `c`, which for RoCEv2 is new on port `n`: the host's NQN, whether it names the discovery subsystem, the
controller and queue for an I/O queue (queue 0 asks for a new controller), the queue size and KATO in ms. -/
def execConnect (c n : Nat) (roce : Bool) (nqn : List Byte) (disc : Bool) (k qid size kato : Nat) (s : State) : Out :=
  if portUp (holder n s) s = false ∨ 2 ≤ n ∨ listens n roce s = false then .next s
  else
    let x := (SMap.find s.net.conns c).getD (freshConn n roce s)
    if ¬ x.ready ∨ x.roce ≠ roce ∨ x.port ≠ n ∨ x.ctrl.isSome then .next s
    else if qid = 0 then .next (connectAdmin c x nqn disc size kato s)
    else .next (connectIo c x k qid size s)

/-- Row PROPERTY_SET: CC sets or clears EN and SHN of a fabric controller; NSSR with its key resets the NVM subsystem. -/
def execPropertySet (k off value : Nat) (s : State) : Out :=
  match ctrlAt k s with
  | none => .next s
  | some y =>
    if ¬ y.fabric then .next s
    else if off = 0x14 then
      if value % 2 = 0 ∧ y.en then .next (requestCtrlReset k s)
      else
        let s1 := updCtrl k (fun z => { z with en := value % 2 == 1, ams := value / 2 ^ 11 % 8, mps := 2 ^ (12 + value / 2 ^ 7 % 16) }) s
        if value / 2 ^ 14 % 4 ≠ 0 ∧ y.shst = 0 then .next (settleAll (beginShutdown k (value / 2 ^ 14 % 4 == 1) s1))
        else .next s1
    else if off = 0x20 ∧ value = 0x4E564D65 then .next (nvmSubsystemReset false s)
    else .next s

/-- Keep-alive timers stand during a handover of control firmware and a switch of network firmware (R429, R490). -/
def katoStands (s : State) : Bool := s.net.switching || fget Fl.HIF_FETCH_CTRL_HOLD s == 1

/-- Row KATO_EXPIRY. -/
def execKatoExpiry (k : Nat) (s : State) : Out :=
  if s.net.assocs.any (fun a => a.ctrl == k && a.kato != 0) && !katoStands s then .next (endAssoc k false s) else .next s

/-- Row CONNECTION_CLOSED: a connection closes or fails. -/
def execConnectionClosed (c : Nat) (s : State) : Out := .next (connLost c s)

/-- Row H2C_DATA: data of a command arrives on a connection; a header digest error ends the connection, a data digest error the command
(R430). -/
def execH2cData (c tag : Nat) (headBad dataBad : Bool) (s : State) : Out :=
  match SMap.find s.net.conns c with
  | none => .next s
  | some x =>
    if x.roce then .next s
    else if headBad && x.hdgst then .next (connLost c s)
    else match cmdAt tag s with
      | none => .next s
      | some y =>
        if dataBad && x.ddgst && x.ctrl == some y.ctrl && y.phase == .fetched then .next (complete tag 0 0x22 false 0 [] s) else .next s

/-- Row QUEUE_PAIR_ERROR. -/
def execQueuePairError (c : Nat) (s : State) : Out :=
  if (SMap.find s.net.conns c).any (fun x => x.roce) then .next (connLost c s) else .next s

/-- Row RETRANSMISSION_TIMEOUT: unacknowledged data is sent again; after 7 retries a queue pair is in error. -/
def execRetransmissionTimeout (c : Nat) (s : State) : Out :=
  match SMap.find s.net.conns c with
  | none => .next s
  | some x =>
    if x.roce ∧ 7 ≤ x.retries then .next (connLost c s)
    else .next (netSend (.resend c) (updNet (fun n => { n with conns := SMap.put n.conns c { x with retries := x.retries + 1 } }) s))

/-! ### Congestion (R433) -/

/-- Row CE_PACKET_RECEIVED: a CNP goes out unless one did within 50 µs. -/
def execCePacketReceived (c : Nat) (recent : Bool) (s : State) : Out :=
  match SMap.find s.net.conns c with
  | none => .next s
  | some x => if x.roce ∧ ¬ recent then .next (netSend (.cnp c) (cntAdd (Reg.NET_CNT_CNP_TX (holder x.port s)) 32 1 s)) else .next s

/-- g of R433. -/
def dcqcnG : Rat := 1 / 256

/-- Keeps a rate between 100 Mb/s and the link rate. -/
def clampRate (link r : Rat) : Rat := if r < 100000000 then 100000000 else if link < r then link else r

/-- A CNP: the target is the present rate, which falls, and α rises. -/
def cnpStep (link : Rat) (d : Dcqcn) : Dcqcn :=
  ⟨(1 - dcqcnG) * d.alpha + dcqcnG, clampRate link (d.cur * (1 - d.alpha / 2)), d.cur, 0⟩

/-- A recovery step: five halve the distance to the target, the next five first raise it by 40 Mb/s, later ones by 400 Mb/s. -/
def recoverStep (link : Rat) (d : Dcqcn) : Dcqcn :=
  let add : Rat := if d.steps < 5 then 0 else if d.steps < 10 then 40000000 else 400000000
  let t := clampRate link (d.target + add)
  ⟨(1 - dcqcnG) * d.alpha, clampRate link ((d.cur + t) / 2), t, d.steps + 1⟩

/-- Changes the rate of a queue pair. -/
def stepRate (c : Nat) (f : Rat → Dcqcn → Dcqcn) (s : State) : State :=
  updNet (fun n => { n with conns := SMap.upd n.conns c (fun x =>
    { x with rate := f (speedBps (fget (Fl.NET_STATUS_SPEED (holder x.port s)) s)) x.rate }) }) s

/-- Row CNP_RECEIVED. -/
def execCnpReceived (c : Nat) (s : State) : Out :=
  match SMap.find s.net.conns c with
  | none => .next s
  | some x => if x.roce then .next (cntAdd (Reg.NET_CNT_CNP_RX (holder x.port s)) 32 1 (stepRate c cnpStep s)) else .next s

/-- Row RATE_RECOVERY_TIMER: 55 µs without a CNP. -/
def execRateRecoveryTimer (c : Nat) (s : State) : Out :=
  match SMap.find s.net.conns c with
  | none => .next s
  | some x => if x.roce then .next (stepRate c recoverStep s) else .next s

end Sys2Proof.Machine
end

