-- ==== Sys2Proof/Machine/HostLogs.lean ====
section
/-! DEFINITION. Get Log Page: rows GET_LOG_PAGE to SCAN_STATISTICS_LOG (R58, R89, R111, R112, R147, R150, R151, R176, R203, R231,
R305, R420, R441, R460, R466, R491, R501). -/

namespace Sys2Proof.Machine

/-! ### Building a page -/

/-- Replaces bytes of a page from an offset on. -/
def putBytes (l : List Byte) (off : Nat) (bs : List Byte) : List Byte := l.take off ++ bs ++ l.drop (off + bs.length)

/-- Fields (offset, width, value) written over a page. -/
def withFields (page : List Byte) (fs : List (Nat × Nat × Nat)) : List Byte :=
  fs.foldl (fun l f => putBytes l f.1 (leBytes f.2.1 f.2.2)) page

/-- A page of `n` bytes: fields (offset, width, value) over zeros. -/
def layout (n : Nat) (fs : List (Nat × Nat × Nat)) : List Byte := withFields (List.replicate n 0) fs

/-- Fields moved by an offset. -/
def shiftFields (o : Nat) (fs : List (Nat × Nat × Nat)) : List (Nat × Nat × Nat) := fs.map (fun f => (o + f.1, f.2))

/-- A value held to `w` bytes, stopping at all ones. -/
def satTo (w v : Nat) : Nat := Nat.min v (256 ^ w - 1)

/-- The mask of the numbers below `n` for which `p` holds. -/
def maskOf (n : Nat) (p : Nat → Bool) : Nat := (List.range n).foldl (fun m i => if p i then m + 2 ^ i else m) 0

/-- ASCII bytes. -/
def ascii (cs : List Char) : List Byte := cs.map (fun c => BitVec.ofNat 8 c.toNat)

/-- A log page read asks for `dwords` dwords from offset `off`; `rae` is Retain Asynchronous Event; `lsp` the specific field. -/
structure LogReq where
  off : Nat
  dwords : Nat
  rae : Bool
  lsp : Nat
  deriving DecidableEq, Repr

/-- Answers with the requested part of a page, and lets events of `typ` be reported again unless they are retained (R89). Bytes
beyond the page are free. -/
def answerLog (x : Cmd) (r : LogReq) (typ : Option Nat) (page : List Byte) (s : State) : State :=
  if r.off % 4 ≠ 0 ∨ page.length < r.off then invalidField x.tag s
  else
    let part := (page.drop r.off).take (4 * r.dwords)
    let miss := 4 * r.dwords - part.length
    let s1 := match typ with
      | some t => if r.rae then s else clearAen x.ctrl t s
      | none => s
    completeData x.tag (part ++ freeBytes miss s) { s1 with free := s1.free + miss }

/-- A log page row: the fetched admin command of this tag is answered. -/
def logRow (tag : Nat) (answer : Cmd → State → State) (s : State) : Out :=
  match justFetched tag [.admin] s with
  | some x => .next (answer x s)
  | none => .next s

/-! ### Vendor pages -/

/-- Part number of a variant, 16 bytes padded with spaces (R150). -/
def partNumber (v : Nat) : List Byte :=
  ascii (['D', 'P', 'X', '-', '7', '4', '4', '0', '-', (if v % 2 = 1 then '1' else '0'), (if v % 2 = 1 then '2' else '6'), '0', '-',
    (if v < 2 then 'C' else 'F'), ' ', ' '])

/-- Working channels. -/
def workingChannels (s : State) : Nat := maskOf 32 (fun n => !(chanAt n s).retired)

/-- Page 0xC0, Module Identity (R150). -/
def identityPage (s : State) : List Byte :=
  putBytes (layout 512 [(16, 1, s.variant), (17, 1, 0x10), (20, 8, userIus s * 16384), (28, 4, 16384), (32, 4, workingChannels s),
    (36, 2, if is120 s then 48 else 24), (38, 2, if is120 s then 1536 else 768)]) 0 (partNumber s.variant)

/-- Free landing space in MiB, raw with parity as R128 counts sizes. -/
def landingMiB (static : Bool) (s : State) : Nat := landingFree static s * (workChans s).length / (64 * max ((workChans s).length - 1) 1)

/-- Page 0xC1, Wear and Spares (R151). -/
def wearPage (s : State) : List Byte :=
  layout 512 [(0, 1, fget Fl.AON_MODE_RO_CAUSE s), (1, 1, s.ftl.wearFlags), (2, 1, pctUsed s), (3, 1, availSpare s),
    (4, 4, wearAvg s), (8, 4, wearMax s), (12, 4, wearMin s), (16, 4, sparesLeft s), (20, 4, sparesMade), (24, 4, freeQlcSbs s),
    (28, 4, satTo 4 s.ftl.eraseRetired), (32, 4, satTo 4 s.ftl.progRetired),
    (36, 4, s.ftl.sbs.foldl (fun n e => n + e.2.suspect.length) 0), (40, 4, landingMiB true s), (44, 4, s.ftl.dynTarget * 1536),
    (48, 4, landingMiB false s), (52, 2, s.ftl.fill), (54, 2, satTo 2 (100 * s.ftl.qlcBytes / max s.ftl.hostBytes 1)),
    (56, 8, satTo 8 s.ftl.hostBytes), (64, 8, satTo 8 s.ftl.qlcBytes), (72, 8, satTo 8 s.ftl.slcBytes),
    (80, 8, s.ftl.discard.foldl (fun n e => n + e.2) 0), (88, 4, satTo 4 (uncorrUnits s)), (92, 1, s.media.retireOrder.length)]

/-- The lowest power state an enabled controller requests; 0xFF without one. -/
def lowestRequested (s : State) : Nat :=
  let asked := (s.nv.ctrls.filter (fun e => e.2.en)).map (fun e => e.2.reqPs)
  if asked.isEmpty then 0xFF else asked.foldl Nat.min 4

/-- Bank life used, percent (R58): the energy register counts 0.1 J. -/
def bankLife (s : State) : Nat := Nat.min ((800 - fget Fl.PWR_CAP_HEALTH_ENERGY s) / 2) 255

/-- A register as a number. -/
def regNat (a : Nat) (s : State) : Nat := (rd a s).toNat

/-- Page 0xC2, Power and Mode (R58). -/
def powerPage (s : State) : List Byte :=
  layout 512 ([(0, 1, mode s), (1, 1, psInEffect s), (2, 1, lowestRequested s),
    (3, 1, (if idleNow s then 1 else 0) + (if deepNow s then 2 else 0)), (4, 4, regNat Reg.PWR_STATUS s),
    (8, 4, freeNat 32 s), (12, 4, freeNat 32 (useFree s)), (16, 4, freeNat 32 (useFree (useFree s))),
    (20, 4, regNat Reg.PWR_CAP_HEALTH s), (24, 4, regNat Reg.PWR_COMMIT_LAST s), (28, 1, bankLife s),
    (29, 1, fget Fl.PWR_STATUS_BANK_STATE s), (30, 2, satTo 2 s.pow.testHours), (32, 4, regNat Reg.AON_RST_CAUSE s),
    (36, 4, regNat Reg.AON_PWRCYC s), (40, 4, regNat Reg.AON_RISE_LAST s), (44, 4, satTo 4 s.pow.commits),
    (48, 4, satTo 4 s.pow.recovered), (52, 4, satTo 4 s.pow.sealsCut), (56, 4, satTo 4 s.pow.transfers), (60, 4, satTo 4 s.pow.tests)] ++
    (List.range 12).map (fun m => (64 + 4 * m, 4, satTo 4 (SMap.getD s.pow.modeSecs m 0))))

/-- Page 0xC3, Tags and Ordering (R112). -/
def tagsPage (s : State) : List Byte :=
  layout 512 [(0, 4, regNat Reg.HIF_TAG_STATUS s), (4, 4, regNat Reg.HIF_TAG_SHARED s), (8, 4, fget Fl.HIF_OVL_STATUS_IN_USE s),
    (12, 4, fget Fl.HIF_OVL_STATUS_HWM s), (16, 8, sincePower Reg.HIF_STALL_TAG 64 s), (24, 8, sincePower Reg.HIF_STALL_OVL 64 s),
    (32, 8, satTo 8 s.nv.cqStops), (40, 8, satTo 8 s.nv.orderHalts)]

/-- The entry of a channel in page 0xC4. -/
def channelEntry (n : Nat) (s : State) : List (Nat × Nat × Nat) :=
  let c := chanAt n s
  [(0, 1, if c.secondFail then 2 else if c.retired then 1 else 0), (1, 1, satTo 1 c.calFailLife), (2, 2, satTo 2 c.seqFailLife),
    (4, 4, satTo 4 c.pRetry), (8, 4, satTo 4 c.pStep1), (12, 4, satTo 4 c.pStep2), (16, 4, satTo 4 c.pStep3),
    (20, 4, satTo 4 c.uncorrLife), (24, 4, satTo 4 c.pSusp)]

/-- Page 0xC4, Channel Health (R176). -/
def channelPage (s : State) : List Byte :=
  layout 2048 ([(0, 4, workingChannels s), (4, 1, s.media.retireOrder.length), (5, 1, s.media.retireOrder.headD 0xFF)] ++
    (List.range 32).flatMap (fun n => shiftFields (64 + 32 * n) (channelEntry n s)))

/-- Free row groups of a bank. -/
def freeGroups (b : Nat) (s : State) : Nat := if bankRetired b s then 0 else ((List.range 128).filter (fun g => !groupTaken b g s)).length

/-- The entry of a bank in page 0xC5. -/
def bankEntry (n : Nat) (s : State) : List (Nat × Nat × Nat) :=
  [(0, 1, fget (Fl.MAT_STATUS_STATE n) s), (1, 1, widthUnits (fget (Fl.MAT_CFG_WIDTH n) s)), (2, 2, fget (Fl.MAT_STATUS_VALID_ENTRIES n) s),
    (4, 2, freeGroups n s), (6, 1, fget (Fl.MAT_REPAIR_ROWS_FREE n) s), (7, 1, fget (Fl.MAT_REPAIR_COLS_FREE n) s),
    (8, 4, satTo 4 (SMap.getD s.mat.bankFalse n 0)), (12, 4, satTo 4 (SMap.getD s.mat.bankFix n 0))]

/-- Page 0xC5, Match Arrays (R231). -/
def matchPage (s : State) : List Byte :=
  layout 512 ([(0, 2, (validTables s).length),
    (2, 2, ((validTables s).filter (fun t => fget (Fl.MAT_TBL_MAP_DEGRADED 0 t) s == 1 || fget (Fl.MAT_TBL_MAP_LOST 0 t) s == 1)).length),
    (4, 2, (List.range 16).foldl (fun n b => n + freeGroups b s) 0), (16, 8, satTo 8 s.mat.searches), (24, 8, satTo 8 s.mat.falseHits),
    (32, 8, satTo 8 s.mat.updates)] ++ (List.range 16).flatMap (fun n => shiftFields (64 + 16 * n) (bankEntry n s)))

/-- Counts of a cluster since power-on, in the order of `Clus.acc`. -/
def clusTotals (n : Nat) (s : State) : List Nat := ((clusAt n s).acc.zip (clusCounts n s)).map (fun p => p.1 + p.2)

/-- The entry of a cluster in page 0xC6. -/
def clusterEntry (n : Nat) (s : State) : List (Nat × Nat × Nat) :=
  let c := clusAt n s
  let t (i w : Nat) : Nat := satTo w ((clusTotals n s).getD i 0)
  [(0, 1, fget (Fl.AXC_STATUS_STATE n) s), (1, 1, fget (Fl.AXC_STATUS_LOCKED_WAYS n) s), (2, 1, fget (Fl.AXC_STATUS_CORES_RUN n) s),
    (4, 4, satTo 4 c.faultsLife), (8, 4, satTo 4 c.resets), (12, 4, t 0 4), (16, 4, satTo 4 c.faults24), (20, 8, t 1 8), (28, 8, t 2 8),
    (36, 8, t 3 8), (44, 8, t 4 8), (52, 8, t 5 8), (60, 4, c.version)]

/-- Page 0xC6, Compute Clusters and Sorting Office (R305). -/
def clusterPage (s : State) : List Byte :=
  layout 1024 ([(0, 1, maskOf 8 (fun n => clusUp n s)), (1, 1, ((List.range 8).filter (fun n => pdRetired (12 + n) s)).length),
    (4, 4, fget Fl.SCH_LETTERS_IN_USE s), (8, 4, fget Fl.SCH_LETTERS_HWM s), (12, 4, fget Fl.SCH_ROUTES_IN_USE s),
    (16, 4, fget Fl.SCH_COUNTERS_IN_USE s)] ++ (List.range 8).flatMap (fun n => shiftFields (64 + 64 * n) (clusterEntry n s)))

/-- Bits set in a value below 2^w. -/
def bitCount (w v : Nat) : Nat := ((List.range w).filter (fun i => v / 2 ^ i % 2 == 1)).length

/-- The entry of a DRAM channel in page 0xC7. -/
def dramEntry (n : Nat) (s : State) : List (Nat × Nat × Nat) :=
  let f := regNat (Reg.DMC_DEV_FAILED n) s
  [(0, 1, if dramRetired n s then 1 else 0), (1, 1, bitCount 20 f), (4, 4, f), (8, 4, sincePower (Reg.DMC_CNT_CE n) 32 s),
    (12, 4, sincePower (Reg.DMC_CNT_UE n) 32 s), (16, 4, sincePower (Reg.DMC_CNT_POISON_RD n) 32 s),
    (20, 4, sincePower (Reg.DMC_CNT_CE_FAILDEV n) 32 s), (24, 2, remapUsed n s), (26, 2, 512 - remapUsed n s),
    (28, 4, sincePower (Reg.DMC_CNT_REF_FORCED n) 32 s), (32, 4, sincePower (Reg.DMC_CNT_RECAL n) 32 s),
    (36, 4, sincePower (Reg.DMC_CNT_RECAL_FAIL n) 32 s)]

/-- Page 0xC7, DRAM and SRAM Errors (R420). -/
def memoryPage (s : State) : List Byte :=
  let c (k : Nat) : Nat := satTo 4 (SMap.getD s.dram.sramCnt k 0)
  layout 512 ([(0, 1, maskOf 4 (fun n => (dramChannels s).contains n)), (1, 1, if threeCh s then 1 else 0), (4, 4, if threeCh s then 96 else 128)] ++
    (List.range 4).flatMap (fun n => shiftFields (64 + 64 * n) (dramEntry n s)) ++
    [(320, 4, c 2), (324, 4, c 3), (328, 4, c 4), (332, 4, c 5), (336, 2, satTo 2 s.dram.fuses.length),
      (338, 2, (List.range 66).foldl (fun n m => n + fget (Fl.MEM_SRAM_REPAIR_ROWS_FREE m) s) 0),
      (340, 1, ((List.range 66).filter (fun m => fget (Fl.MEM_SRAM_REPAIR_ROWS_FREE m) s == 0)).length),
      (344, 8, sincePower Reg.MEM_CNT_SCRUB_PASS 64 s), (352, 4, sincePower Reg.MEM_CNT_LOG_LOST 32 s)])

/-- The entry of a port in page 0xC8; its MAC address is a free value. -/
def portEntry (n : Nat) (s : State) : List (Nat × Nat × Nat) :=
  let st := fget (Fl.NET_STATUS_STATE n) s
  let code := if st = 3 then 2 else if fget (Fl.NET_MOD_STATUS_PRESENT n) s = 0 ∨ fget (Fl.NET_MOD_STATUS_LOWPOWER_HELD n) s = 1 then 3
    else if st = 1 then 1 else 0
  [(0, 1, code), (1, 1, fget (Fl.NET_STATUS_SPEED n) s), (2, 6, (Config.freeValue (s.free + n)).toNat), (8, 2, fget (Fl.NET_CONN_TCP n) s),
    (10, 2, fget (Fl.NET_CONN_QP n) s), (12, 8, sincePower (Reg.NET_CNT_RX_BYTES n) 64 s), (20, 8, sincePower (Reg.NET_CNT_TX_BYTES n) 64 s),
    (28, 8, sincePower (Reg.NET_CNT_FEC_CORR n) 64 s), (36, 4, sincePower (Reg.NET_CNT_FEC_UNCORR n) 32 s),
    (40, 4, satTo 4 (SMap.getD s.net.downs n 0)), (44, 4, sincePower (Reg.NET_CNT_CNP_RX n) 32 s),
    (48, 4, sincePower (Reg.NET_CNT_TLS_FAIL n) 32 s), (52, 4, sincePower (Reg.NET_CNT_CONNECT_REF n) 32 s)]

/-- Page 0xC8, Network Ports (R441). -/
def networkPage (s : State) : List Byte :=
  layout 512 ([(0, 2, (fabricCtrls s).length), (2, 2, fabricQueues s), (4, 2, (s.net.hosts.filter (fun e => hostFlag e.1 0 s)).length),
    (6, 1, (s.net.psks.filter (fun e => pskFilled e.1 s)).length), (7, 1, (s.net.assocs.filter (·.disc)).length)] ++
    (List.range 2).flatMap (fun n => shiftFields (64 + 128 * n) (portEntry n s)))

/-- Page 0xC9, Sensors and Throttling (R466). -/
def sensorPage (s : State) : List Byte :=
  let sec (l : Nat) : Nat := satTo 4 (SMap.getD s.mgt.tenths l 0 / 10)
  layout 512 ([(0, 1, fget Fl.MGT_THERM_LEVEL s), (1, 1, fget Fl.MGT_CAP_WATTS s), (2, 1, fget Fl.MGT_CAP_SOURCE s)] ++
    (List.range 12).flatMap (fun i => [(4 + 4 * i, 2, fget (Fl.MGT_SENSOR_TEMP i) s), (6 + 4 * i, 1, fget (Fl.MGT_SENSOR_MAX i) s),
      (7 + 4 * i, 1, SMap.getD s.mgt.mins i 0x80)]) ++
    [(52, 4, sec 1), (56, 4, sec 2), (60, 4, sec 3), (64, 4, satTo 4 s.mgt.rises), (68, 4, regNat Reg.MGT_CNT_IBI_DEFER s)])

/-- The entry of a component in page 0xCB. -/
def componentEntry (c : Nat) (s : State) : List (Nat × Nat × Nat) :=
  let f := fwAt c s
  [(0, 1, f.active), (1, 1, f.next), (2, 1, f.result)] ++ (List.range 3).flatMap (fun k =>
    let x := fwSlot c k s
    [(32 + 32 * k, 8, x.version), (40 + 32 * k, 4, x.gen), (44 + 32 * k, 1, x.state)])

/-- Page 0xCB, Firmware Components (R491). -/
def firmwarePage (s : State) : List Byte :=
  layout 1024 ([(0, 1, fget Fl.MGT_UPD_STATE s), (1, 1, fget Fl.MGT_UPD_COMPONENT s), (2, 1, fget Fl.MGT_UPD_SOURCE s), (3, 1, s.mgt.upd.last)] ++
    (List.range 5).flatMap (fun i => shiftFields (64 + 128 * i) (componentEntry (i + 1) s)))

/-- The entry of a function in page 0xCC. -/
def tenantEntry (f : Nat) (s : State) : List (Nat × Nat × Nat) :=
  let r := resOf f s
  let b (n : Nat) (p : Bool) : Nat := if p then 2 ^ n else 0
  [(0, 1, b 0 (funcEnabled f s) + b 1 (funcOnline f s) + b 2 (s.ten.manager == f) + b 3 r.excl), (1, 1, r.mask), (2, 1, r.arbW), (3, 1, r.compW),
    (4, 2, r.qps), (6, 2, qpsUsed f s), (8, 2, r.vecs), (10, 2, (slmOf f s).length), (12, 2, (privOf f s).length),
    (14, 2, SMap.getD s.ten.memNs f 0), (16, 4, (privUsed f s + 0xFFFFF) / 0x100000), (20, 2, r.nsCap), (22, 2, nsUsed f s), (24, 2, r.keySlots),
    (26, 2, (slotsOf f s).length), (28, 4, r.letters * 1024), (32, 4, lettersUsed f s), (36, 2, r.execs), (38, 2, execsUsed f s), (40, 1, r.banks),
    (41, 1, (banksOwned f s).length), (42, 1, r.scanRun), (43, 1, scansUsed true f s), (44, 2, r.scanQ), (46, 2, scansUsed false f s)]

/-- Page 0xCC, Tenant Resources (R460), as controller `c` sees it. -/
def tenantPage (c : Nat) (s : State) : List Byte :=
  let phys := match ctrlAt c s with | some x => x.pf | none => false
  let fs := (List.range 128).filter (fun f => phys || f == funcOf c s)
  let sum (g : Nat → Nat) : Nat := (List.range 128).foldl (fun n f => n + g f) 0
  layout 8256 ([(0, 2, s.ten.manager), (2, 2, (freeGranules s).length), (4, 2, slmTotal s), (6, 2, privTotal s),
    (8, 2, sum (fun f => (resOf f s).vecs)), (10, 2, sum (fun f => (resOf f s).qps))] ++
    fs.flatMap (fun f => shiftFields (64 + 64 * f) (tenantEntry f s)))

/-- Page 0xCD, Scan Statistics (R203). -/
def scanPage (s : State) : List Byte :=
  let x := s.scan
  let t := x.total
  layout 512 [(0, 8, satTo 8 x.accepted), (8, 8, satTo 8 x.ended0), (16, 8, satTo 8 x.endedOther), (24, 8, satTo 8 x.notRun), (32, 8, satTo 8 x.bytes),
    (40, 8, satTo 8 t.framed), (48, 8, satTo 8 t.selected), (56, 8, satTo 8 t.malformed), (64, 8, satTo 8 t.seam), (72, 8, satTo 8 t.late),
    (80, 8, satTo 8 t.probes), (88, 8, satTo 8 x.outBytes), (96, 2, (x.jobs.filter (·.run.isSome)).length),
    (98, 2, (x.jobs.filter (·.run.isNone)).length), (100, 2, satTo 2 x.queueHigh)]

/-! ### Page 0xCA (R501) -/

/-- Postmarks of the persistent tier in ascending SEQ order. -/
def persistMarks (s : State) : List Postmark :=
  ((s.pbk.segs.flatMap (fun e => e.2.marks)).foldl (fun (m : SMap Postmark) p => SMap.put m p.seq p) []).map (·.2)

/-- The postmarks a request selects, at most `room`: from SEQ `start` on, or the newest. -/
def selectMarks (l : List Postmark) (start : Option Nat) (room : Nat) : List Postmark :=
  match start with
  | some q => (l.filter (fun p => decide (q ≤ p.seq))).take room
  | none => l.drop (l.length - room)

/-- Answers a read of page 0xCA: `start` is the Log Page Offset where the Offset Type is 1. Lane 0 postmarks returned are read. -/
def recorderLog (start : Option Nat) (x : Cmd) (r : LogReq) (s : State) : State :=
  let pf := match ctrlAt x.ctrl s with | some c => c.pf | none => false
  if !pf ∨ (start.isNone ∧ r.off ≠ 0) then invalidField x.tag s
  else
    let tier := if r.lsp % 2 = 1 then persistMarks s else s.pbk.ram
    let next := regNat Reg.PBK_NEXT_SEQ s
    let oldest := match tier with | p :: _ => p.seq | [] => next
    let got := selectMarks tier start (Nat.min 63 (r.dwords / 16 - 1))
    let first := match got with | p :: _ => p.seq | [] => start.getD next
    let gone := match start with | some q => oldest - q | none => 0
    let head := layout 64 [(0, 8, first), (8, 2, got.length), (16, 8, oldest), (24, 8, next), (32, 8, gone),
      (40, 4, sincePower Reg.PBK_DROP2 32 s), (44, 4, sincePower Reg.PBK_DROP3 32 s)]
    let s1 := markRead (got.map (·.seq)) s
    answerLog x { r with off := 0 } (some 7) (head ++ got.flatMap postmarkBytes)
      (if r.rae then s1 else { s1 with pbk := { s1.pbk with aenSent := false } })

/-! ### Standard pages -/

/-- SMART / Health Critical Warning of a controller (R45, R147, R416, R417, R463). -/
def criticalWarning (c : Nat) (s : State) : Nat :=
  let b (n : Nat) (p : Bool) : Nat := if p then 2 ^ n else 0
  let f := s.ftl.wearFlags
  b 0 (decide (availSpare s < 10)) + b 1 (tempWarning c s) +
    b 2 (f / 4 % 2 == 1 || headroomUsed s || (List.range 4).any (fun n => dramRetired n s || regNat (Reg.DMC_DEV_FAILED n) s != 0)) +
    b 3 (mode s == 10) + b 4 (decide (2 ≤ fget Fl.PWR_STATUS_BANK_STATE s))

/-- The SMART / Health page (R147, R462): fields the manual does not state are free. -/
def smartPage (c : Nat) (s : State) : List Byte :=
  withFields (freeBytes 512 s) ([(0, 1, criticalWarning c s), (1, 2, sensorKelvin 0 s), (3, 1, availSpare s), (4, 1, 10), (5, 1, pctUsed s)] ++
    (List.range 8).map (fun i => (200 + 2 * i, 2, sensorKelvin (i + 1) s)))

/-- The Error Information page of a controller: its entries, newest first (R89, R91, R390). -/
def errorPage (c : Nat) (s : State) : List Byte :=
  let es := s.nv.errs.filter (fun e => e.ctrl == c)
  let total := match ctrlAt c s with | some x => x.errors | none => 0
  layout 4096 ((es.zip (List.range 64)).flatMap (fun (p : ErrEntry × Nat) =>
    let e := p.1
    shiftFields (64 * p.2) [(0, 8, total - p.2), (8, 2, e.sq), (10, 2, e.cid), (12, 2, 2 * e.sc + 512 * e.sct), (16, 8, e.lba), (24, 4, e.nsid),
      (28, 1, e.vendorInfo), (32, 8, e.cmdInfo)]))

/-- Firmware Slot Information: the active and next slots and the versions of control firmware (component 2). -/
def slotPage (s : State) : List Byte :=
  let f := fwAt 2 s
  layout 512 ([(0, 1, f.active + 1 + (if f.next = f.active then 0 else 16 * (f.next + 1)))] ++
    (List.range 3).map (fun k => (8 + 8 * k, 8, (fwSlot 2 k s).version)))

/-- Identifiers of the pages the module returns. -/
def logIds : List Nat :=
  [0x00, 0x01, 0x02, 0x03, 0x04, 0x05, 0x06, 0x07, 0x08, 0x80, 0x81, 0x82, 0x83, 0x84, 0xC0, 0xC1, 0xC2, 0xC3, 0xC4, 0xC5, 0xC6, 0xC7, 0xC8, 0xC9, 0xCA, 0xCB, 0xCC, 0xCD]

/-- The Changed Namespace List of a controller. -/
def changedPage (c : Nat) (s : State) : List Byte :=
  let l := (s.nv.changed.filter (fun p => p.1 == c)).map (·.2)
  layout 4096 (if 1024 < l.length then [(0, 4, 0xFFFFFFFF)] else (l.zip (List.range 1024)).map (fun p => (4 * p.2, 4, p.1)))

/-- Opcodes of the admin commands and of the commands of each I/O command set (R89, R367), for Commands Supported and Effects: only
the support bit is stated, the effects are free. -/
def adminOpcodes : List Nat :=
  [0x00, 0x01, 0x02, 0x04, 0x05, 0x06, 0x08, 0x09, 0x0A, 0x0C, 0x0D, 0x10, 0x11, 0x14, 0x15, 0x18, 0x1C, 0x1D, 0x1E, 0x80, 0x84]
def nvmOpcodes : List Nat := [0x00, 0x01, 0x02, 0x05, 0x08, 0x09, 0x0C, 0x0D, 0x0E, 0x11, 0x15, 0x19]

/-- Commands Supported and Effects. -/
def effectsPage (s : State) : List Byte :=
  let bit (i op : Nat) : Nat := (Config.freeValue (s.free + i)).toNat / 2 * 2 % 2 ^ 32 + (if op < 256 then 1 else 0)
  layout 4096 ((adminOpcodes.zip (List.range 32)).map (fun p => (4 * p.1, 4, bit p.2 p.1)) ++
    (nvmOpcodes.zip (List.range 32)).map (fun p => (1024 + 4 * p.1, 4, bit (32 + p.2) p.1)))

/-- Postmarks as telemetry blocks of 512 bytes, the last padded with zeros. -/
def blocksOfMarks (l : List Postmark) : List Byte :=
  let b := l.flatMap postmarkBytes
  b ++ List.replicate ((512 - b.length % 512) % 512) 0

/-- A telemetry page: its header names the last block of each data area (R501). -/
def telemetryPage (lid : Nat) (a1 a2 : List Postmark) (avail : Bool) : List Byte :=
  let d1 := blocksOfMarks a1
  let d2 := blocksOfMarks a2
  let e1 := d1.length / 512
  let e2 := e1 + d2.length / 512
  layout 512 [(0, 1, lid), (8, 2, e1), (10, 2, e2), (12, 2, e2), (382, 1, if avail then 1 else 0)] ++ d1 ++ d2

/-- Sanitize Status (R142): state and whether by crypto erase, with the estimated times for block and crypto erase; progress is free
while it runs. -/
def sanitizePage (s : State) : List Byte :=
  let st := s.nv.sanState
  layout 512 [(0, 2, if st = 2 then (Config.freeValue s.free).toNat % 65536 else 0xFFFF), (2, 2, st), (4, 4, if st = 0 then 0 else if s.nv.sanCrypto then 4 else 2),
    (8, 4, 0xFFFFFFFF), (12, 4, if is120 s then 80 else 45), (16, 4, 2)]

/-- Reservation Notification: the oldest notification not yet read. -/
def resvPage (c : Nat) (s : State) : List Byte :=
  let mine := s.nv.resvLog.filter (fun e => e.1 == c)
  match mine with
  | [] => layout 64 []
  | e :: t => layout 64 [(0, 8, SMap.getD s.nv.resvCount c 0 - t.length), (8, 1, e.2.1), (9, 1, t.length), (12, 4, e.2.2)]

/-- Program List (R370): the slots of a function that hold a program, with its type and whether it is activated. -/
def programPage (f : Nat) (s : State) : List Byte :=
  let l := (List.range 16).filterMap (fun i => (SMap.find s.prog.slots (16 * f + i)).map (fun p => (i, p.active.isSome)))
  layout 4096 ((0, 2, l.length) :: (l.zip (List.range 16)).flatMap (fun e =>
    [(16 + 16 * e.2, 2, e.1.1), (18 + 16 * e.2, 1, 0xC1), (19 + 16 * e.2, 1, if e.1.2 then 1 else 0)]))

/-- Memory Range Set List (R370): the sets of a function with their numbers of ranges. -/
def rangeSetPage (f : Nat) (s : State) : List Byte :=
  let l := (List.range 16).filterMap (fun i => (SMap.find s.prog.rsets (16 * f + i)).map (fun r => (i + 1, r.length)))
  layout 4096 ((0, 2, l.length) :: (l.zip (List.range 16)).flatMap (fun e => [(16 + 8 * e.2, 2, e.1.1), (18 + 8 * e.2, 2, e.1.2)]))

/-- The answer for a standard page. -/
def standardLog (lid : Nat) (x : Cmd) (r : LogReq) (s : State) : State :=
  let whole (p : List Byte) (typ : Option Nat) (n : Nat) : State := answerLog x r typ p { s with free := s.free + n }
  match lid with
  | 0x00 => whole (layout 1024 (logIds.map (fun i => (4 * i, 4, 1)))) none 0
  | 0x01 => whole (errorPage x.ctrl s) (some 0) 0
  | 0x02 =>
    if x.nsid = 0 ∨ x.nsid = 0xFFFFFFFF then whole (smartPage x.ctrl s) (some 1) 512
    else invalidField x.tag s
  | 0x03 => whole (slotPage s) none 0
  | 0x04 =>
    let s1 := answerLog x r (some 2) (changedPage x.ctrl s) s
    { s1 with nv := { s1.nv with changed := s1.nv.changed.filter (fun p => p.1 != x.ctrl) } }
  | 0x05 => whole (effectsPage s) none 64
  | 0x06 => whole (freeBytes 564 s) none 564
  | 0x07 =>
    let s1 := if r.lsp % 2 = 1 then { s with pbk := { s.pbk with hostRam := s.pbk.ram, hostFlash := persistMarks s } } else s
    answerLog x r none (telemetryPage 7 s1.pbk.hostRam s1.pbk.hostFlash (!s1.pbk.telemetry.isEmpty)) s1
  | 0x08 => whole (telemetryPage 8 s.pbk.telemetry [] (!s.pbk.telemetry.isEmpty)) (some 2) 0
  | 0x70 =>
    match ctrlAt x.ctrl s with
    | some c =>
      if c.fabric ∧ 0x200 ≤ x.ctrl then
        whole (layout (1024 * ((discEntries s).length + 1)) ((8, 8, (discEntries s).length) ::
          ((discEntries s).zip (List.range 64)).flatMap (fun e => [(1024 * (e.2 + 1), 1, if e.1.2.2 then 1 else 3), (1024 * (e.2 + 1) + 2, 1, 2)])))
          (some 2) 0
      else complete x.tag 1 0x09 true 0 [] s
    | none => s
  | 0x80 =>
    let mine := s.nv.resvLog.filter (fun e => e.1 == x.ctrl)
    let s1 := answerLog x r (some 6) (resvPage x.ctrl s) s
    if r.rae then s1 else { s1 with nv := { s1.nv with resvLog := match mine with | e :: _ => s1.nv.resvLog.erase e | [] => s1.nv.resvLog } }
  | 0x81 => whole (sanitizePage s) (some 6) 1
  | 0x82 => whole (programPage (funcOf x.ctrl s) s) none 0
  | 0x83 => whole (layout 4096 [(0, 1, 1), (16, 1, 0xC1)]) none 0
  | 0x84 => whole (rangeSetPage (funcOf x.ctrl s) s) none 0
  | _ => complete x.tag 1 0x09 true 0 [] s

/-- Row GET_LOG_PAGE: a standard page by its identifier; one not supported completes with Invalid Log Page (R89, R111). -/
def execGetLogPage (tag lid off dwords lsp : Nat) (rae : Bool) (s : State) : Out :=
  logRow tag (fun x => standardLog lid x ⟨off, dwords, rae, lsp⟩) s

/-- A vendor page row: the page is the module's, whatever NSID says. -/
def vendorRow (tag off dwords : Nat) (page : Cmd → State → List Byte) (s : State) : Out :=
  logRow tag (fun x t => answerLog x ⟨off, dwords, false, 0⟩ none (page x t) t) s

/-- Row MODULE_IDENTITY_LOG. -/
def execModuleIdentityLog (tag off dwords : Nat) (s : State) : Out := vendorRow tag off dwords (fun _ => identityPage) s
/-- Row WEAR_AND_SPARES_LOG. -/
def execWearAndSparesLog (tag off dwords : Nat) (s : State) : Out := vendorRow tag off dwords (fun _ => wearPage) s
/-- Row POWER_AND_MODE_LOG. -/
def execPowerAndModeLog (tag off dwords : Nat) (s : State) : Out :=
  logRow tag (fun x t => answerLog x ⟨off, dwords, false, 0⟩ none (powerPage t) { t with free := t.free + 3 }) s
/-- Row TAGS_AND_ORDERING_LOG. -/
def execTagsAndOrderingLog (tag off dwords : Nat) (s : State) : Out := vendorRow tag off dwords (fun _ => tagsPage) s
/-- Row CHANNEL_HEALTH_LOG. -/
def execChannelHealthLog (tag off dwords : Nat) (s : State) : Out := vendorRow tag off dwords (fun _ => channelPage) s
/-- Row MATCH_ARRAYS_LOG. -/
def execMatchArraysLog (tag off dwords : Nat) (s : State) : Out := vendorRow tag off dwords (fun _ => matchPage) s
/-- Row COMPUTE_CLUSTERS_LOG. -/
def execComputeClustersLog (tag off dwords : Nat) (s : State) : Out := vendorRow tag off dwords (fun _ => clusterPage) s
/-- Row DRAM_AND_SRAM_ERRORS_LOG. -/
def execDramAndSramErrorsLog (tag off dwords : Nat) (s : State) : Out := vendorRow tag off dwords (fun _ => memoryPage) s
/-- Row NETWORK_PORTS_LOG: the MAC addresses use two free values. -/
def execNetworkPortsLog (tag off dwords : Nat) (s : State) : Out :=
  logRow tag (fun x t => answerLog x ⟨off, dwords, false, 0⟩ none (networkPage t) { t with free := t.free + 2 }) s
/-- Row SENSORS_AND_THROTTLING_LOG. -/
def execSensorsAndThrottlingLog (tag off dwords : Nat) (s : State) : Out := vendorRow tag off dwords (fun _ => sensorPage) s
/-- Row EVENT_RECORDER_WINDOW_LOG: `byIndex` is Offset Type 1; `tier` is LSP bit 0. -/
def execEventRecorderWindowLog (tag off dwords : Nat) (byIndex rae : Bool) (tier : Nat) (s : State) : Out :=
  logRow tag (fun x => recorderLog (if byIndex then some off else none) x ⟨off, dwords, rae, tier⟩) s
/-- Row FIRMWARE_COMPONENTS_LOG. -/
def execFirmwareComponentsLog (tag off dwords : Nat) (s : State) : Out := vendorRow tag off dwords (fun _ => firmwarePage) s
/-- Row TENANT_RESOURCES_LOG. -/
def execTenantResourcesLog (tag off dwords : Nat) (s : State) : Out := vendorRow tag off dwords (fun x => tenantPage x.ctrl) s
/-- Row SCAN_STATISTICS_LOG. -/
def execScanStatisticsLog (tag off dwords : Nat) (s : State) : Out := vendorRow tag off dwords (fun _ => scanPage) s

end Sys2Proof.Machine
end

