-- ==== Sys2Proof/Machine/HostResv.lean ====
section
/-! DEFINITION. Reservations: rows RESERVATION_REGISTER to RESERVATION_REPORT (R89: every reservation type, Persist Through Power Loss).
What the manual leaves to NVM Express follows it. -/

namespace Sys2Proof.Machine

/-- Key of a feature that a controller holds for each value of `i` (a namespace, a vector). -/
def indexedFeature (fid i : Nat) : Nat := fid + 2 ^ 32 * (i + 1)

/-- Controllers behind a host that see a namespace. -/
def hostCtrls (h nsid : Nat) (s : State) : List Nat :=
  ((s.nv.ctrls.filter (fun e => e.2.en && hostOf e.1 s == h)).map (·.1)).filter (fun c => (nsAt nsid s).any (fun n => sees n c s))

/-- A notification of type `t` (1 registration preempted, 2 reservation released, 3 reservation preempted) reaches the controllers
of hosts that do not mask it. -/
def resvNotify (t nsid : Nat) (hosts : List Nat) (s : State) : State :=
  let masked (c : Nat) : Bool := (ctrlAt c s).any (fun x => SMap.getD x.feats (indexedFeature 0x82 nsid) 0 / 2 ^ t % 2 == 1)
  let cs := (hosts.flatMap (fun h => hostCtrls h nsid s)).filter (fun c => !masked c)
  let s1 := { s with nv := { s.nv with
    resvLog := s.nv.resvLog ++ cs.map (fun c => (c, t, nsid))
    resvCount := cs.foldl (fun m c => SMap.put m c (SMap.getD m c 0 + 1)) s.nv.resvCount } }
  if cs.isEmpty then s else raiseAen cs 6 0 0x80 s1

/-- Reservation state of a namespace after `f`. -/
def updResv (nsid : Nat) (f : Resv → Resv) (s : State) : State :=
  { s with nv := { s.nv with ns := SMap.upd s.nv.ns nsid (fun n => { n with resv := f n.resv }) } }

/-- The key a host has registered. -/
def Resv.keyOf (r : Resv) (h : Nat) : Option Nat := (r.regs.find? (fun p => p.1 == h)).map (·.2)

/-- The all-registrants types. -/
def allRegistrants (t : Nat) : Bool := decide (5 ≤ t)

/-- A host holds the reservation: every registrant does in the all-registrants types. -/
def Resv.heldBy (r : Resv) (h : Nat) : Bool :=
  match r.holder with
  | none => false
  | some x => if allRegistrants r.rtype then (r.keyOf h).isSome else x == h

/-- A reservation row on an NVM namespace the controller sees; it finds the command, the namespace's reservation and the host. -/
def resvRow (tag : Nat) (run : Cmd → Resv → Nat → State → State) (s : State) : Out :=
  match justFetched tag [.resv] s with
  | none => .next s
  | some x =>
    match nsAt x.nsid s with
    | none => .next (complete tag 0 0x0B true 0 [] s)
    | some n =>
      if !sees n x.ctrl s ∨ n.csi ≠ 0 then .next (complete tag 0 0x0B true 0 [] s)
      else if mode s = 9 then .next (complete tag 0 0x1D false 0 [] s)
      else .next (run x n.resv (hostOf x.ctrl s) s)

/-- Reservation Conflict. -/
def conflict (tag : Nat) (s : State) : State := complete tag 0 0x83 false 0 [] s

/-- The reservation is given up: hosts that stay registered hear of it where the type is registrants-only or all-registrants. -/
def releaseResv (nsid h : Nat) (r : Resv) (s : State) : State :=
  let others := (r.regs.map (·.1)).filter (· != h)
  let s1 := updResv nsid (fun q => { q with holder := none, rtype := 0 }) s
  if 3 ≤ r.rtype then resvNotify 2 nsid others s1 else s1

/-- Hosts lose their registrations. -/
def dropRegs (nsid : Nat) (hosts : List Nat) (s : State) : State :=
  updResv nsid (fun q => { q with regs := q.regs.filter (fun p => !hosts.contains p.1) }) s

/-- Row RESERVATION_REGISTER: action (0 register, 1 unregister, 2 replace), IEKEY, CPTPL and keys. -/
def execReservationRegister (tag act : Nat) (iekey : Bool) (cptpl crkey nrkey : Nat) (s : State) : Out :=
  resvRow tag (fun x r h t =>
    let bump (u : State) : State :=
      let v := updResv x.nsid (fun q => { q with gen := (q.gen + 1) % 2 ^ 32 }) u
      if cptpl = 2 ∨ cptpl = 3 then updResv x.nsid (fun q => { q with ptpl := cptpl == 3 }) v else v
    if 2 < act ∨ cptpl = 1 ∨ 3 < cptpl then invalidField tag t
    else match r.keyOf h with
      | none =>
        if act = 0 then completeOk tag (bump (updResv x.nsid (fun q => { q with regs := q.regs ++ [(h, nrkey)] }) t))
        else conflict tag t
      | some k =>
        if act = 0 then (if k = nrkey then completeOk tag t else conflict tag t)
        else if k ≠ crkey ∧ ¬ iekey then conflict tag t
        else if act = 2 then
          completeOk tag (bump (updResv x.nsid (fun q => { q with regs := q.regs.map (fun p => if p.1 = h then (h, nrkey) else p) }) t))
        else
          let u := dropRegs x.nsid [h] t
          let last := (r.regs.filter (fun p => p.1 != h)).isEmpty
          let v := if r.heldBy h && (!allRegistrants r.rtype || last) then releaseResv x.nsid h r u else u
          completeOk tag (bump v)) s

/-- Registrations with a key are preempted by host `h`; with `all`, every registration but its own. -/
def preempted (r : Resv) (h key : Nat) (all : Bool) : List Nat := ((r.regs.filter (fun p => p.1 != h && (all || p.2 == key))).map (·.1))

/-- Row RESERVATION_ACQUIRE: action (0 acquire, 1 preempt, 2 preempt and abort), IEKEY, type and keys. -/
def execReservationAcquire (tag act : Nat) (iekey : Bool) (rtype crkey prkey : Nat) (s : State) : Out :=
  resvRow tag (fun x r h t =>
    if 2 < act ∨ iekey ∨ rtype = 0 ∨ 6 < rtype then invalidField tag t
    else if r.keyOf h ≠ some crkey then conflict tag t
    else if act = 0 then
      (if r.holder.isSome then (if r.heldBy h ∧ r.rtype = rtype then completeOk tag t else conflict tag t)
      else completeOk tag (updResv x.nsid (fun q => { q with holder := some h, rtype := rtype }) t))
    else
      let held := r.holder.isSome
      let ar := held && allRegistrants r.rtype
      let all := ar && prkey == 0
      let holderKey := r.holder.bind r.keyOf
      let takes := all || (held && !ar && holderKey == some prkey)
      let gone := preempted r h prkey all
      if prkey = 0 ∧ ¬ all then invalidField tag t
      else if gone.isEmpty ∧ ¬ takes then conflict tag t
      else
        let u := dropRegs x.nsid gone (updResv x.nsid (fun q => { q with gen := (q.gen + 1) % 2 ^ 32 }) t)
        let stays := ((r.regs.map (·.1)).filter (fun g => g != h && !gone.contains g))
        let v := resvNotify 1 x.nsid gone u
        let w := if takes then
            let w1 := updResv x.nsid (fun q => { q with holder := some h, rtype := rtype }) v
            if r.rtype ≠ rtype ∧ 3 ≤ r.rtype then resvNotify 2 x.nsid stays w1 else w1
          else v
        let cut := w.nv.cmds.filter (fun y => act == 2 && y.nsid == x.nsid && y.result.isNone && gone.contains (hostOf y.ctrl t))
        completeOk tag (forEach (abortWith 0 0x1B false) cut w)) s

/-- Row RESERVATION_RELEASE: action (0 release, 1 clear), IEKEY, type and key. -/
def execReservationRelease (tag act : Nat) (iekey : Bool) (rtype crkey : Nat) (s : State) : Out :=
  resvRow tag (fun x r h t =>
    if 1 < act ∨ iekey then invalidField tag t
    else if r.keyOf h ≠ some crkey then conflict tag t
    else if act = 1 then
      let others := (r.regs.map (·.1)).filter (· != h)
      completeOk tag (updResv x.nsid (fun q => { q with regs := [], holder := none, rtype := 0, gen := (q.gen + 1) % 2 ^ 32 })
        (resvNotify 3 x.nsid others t))
    else if ¬ r.heldBy h then completeOk tag t
    else if r.rtype ≠ rtype then invalidField tag t
    else completeOk tag (releaseResv x.nsid h r t)) s

/-- The Reservation Status structure, with 64-bit or extended host identifiers. -/
def resvStatus (nsid : Nat) (r : Resv) (eds : Bool) (s : State) : List Byte :=
  let ents := r.regs.flatMap (fun p => (hostCtrls p.1 nsid s).map (fun c => (c, p.1, p.2)))
  let b (p : Bool) : Nat := if p then 1 else 0
  let size := if eds then 64 else 24
  layout (size * (ents.length + 1)) ([(0, 4, r.gen), (4, 1, r.rtype), (5, 2, ents.length), (9, 1, b r.ptpl)] ++
    (ents.zip (List.range ents.length)).flatMap (fun e => shiftFields (size * (e.2 + 1))
      ([(0, 2, e.1.1), (2, 1, b (r.heldBy e.1.2.1))] ++ (if eds then [(8, 8, e.1.2.2), (16, 16, e.1.2.1)] else [(8, 8, e.1.2.1), (16, 8, e.1.2.2)]))))

/-- Row RESERVATION_REPORT: as many dwords as asked for. -/
def execReservationReport (tag dwords : Nat) (eds : Bool) (s : State) : Out :=
  resvRow tag (fun x r _ t => completeData tag ((resvStatus x.nsid r eds t).take (4 * dwords)) t) s

end Sys2Proof.Machine
end

