-- ==== Sys2Proof/Machine/HostAdmin.lean ====
section
/-! DEFINITION. Queue management, features, namespace management, Format, Sanitize and the other admin commands: rows
CREATE_IO_SUBMISSION_QUEUE to DELETE_IO_COMPLETION_QUEUE, GET_FEATURES to SET_NETWORK_PORTS, KEEP_ALIVE to DEVICE_SELF_TEST, and the
SECONDARY_CONTROLLER rows (R64, R89, R92, R103, R104, R114–R120, R132, R142, R143, R202, R368, R369, R397, R428, R440, R445, R446,
R453, R459, R465, R503). -/

namespace Sys2Proof.Machine

/-- An admin command row: the fetched command of this tag. -/
def adminRow (tag : Nat) (run : Cmd → Ctrl → State → State) (s : State) : Out :=
  match justFetched tag [.admin] s with
  | none => .next s
  | some x =>
    match ctrlAt x.ctrl s with
    | none => .next s
    | some c => .next (run x c s)

/-- Invalid Command Opcode, DNR set. -/
def invalidOpcode (tag : Nat) (s : State) : State := complete tag 0 0x01 true 0 [] s

/-- A command that fabric controllers refuse (R428). -/
def pcieRow (tag : Nat) (run : Cmd → Ctrl → State → State) (s : State) : Out :=
  adminRow tag (fun x c t => if c.fabric then invalidOpcode tag t else run x c t) s

/-- A command that is restricted while a sanitize operation is in progress (R59). -/
def unlessSanitize (tag : Nat) (run : State → State) (s : State) : State :=
  if mode s = 9 then complete tag 0 0x1D false 0 [] s else run s

/-! ### Queues (R92, R104, R453) -/

/-- Queue pairs of a function are all used. -/
def queuesUsed (f : Nat) (cqs : Bool) (s : State) : Bool :=
  let n := (s.nv.ctrls.filter (fun e => e.2.func == f)).foldl (fun n e =>
    n + (if cqs then (e.2.cqs.filter (fun q => q.1 != 0)).length else (e.2.sqs.filter (fun q => q.1 != 0)).length)) 0
  decide ((resOf f s).qps ≤ n)

/-- Row CREATE_IO_SUBMISSION_QUEUE: identifier, 0's based size, completion queue, priority, base address, physically contiguous. -/
def execCreateIoSubmissionQueue (tag qid size0 cq prio addr : Nat) (pc : Bool) (s : State) : Out :=
  pcieRow tag (fun x c t =>
    if ¬ pc ∨ addr % c.mps ≠ 0 then invalidField tag t
    else if qid = 0 ∨ 32 < qid ∨ (SMap.find c.sqs qid).isSome then complete tag 1 0x01 true 0 [] t
    else if size0 = 0 ∨ 65535 < size0 then complete tag 1 0x02 true 0 [] t
    else if cq = 0 ∨ 32 < cq then complete tag 1 0x01 true 0 [] t
    else if (SMap.find c.cqs cq).isNone then complete tag 1 0x00 true 0 [] t
    else if queuesUsed c.func false t then quotaExceeded tag t
    else completeOk tag (updCtrl x.ctrl (fun z => { z with
      sqs := SMap.put z.sqs qid ⟨size0 + 1, 0, 0, cq, prio % 4, false, false, false⟩ }) t)) s

/-- Row CREATE_IO_COMPLETION_QUEUE: identifier, 0's based size, base address, physically contiguous, interrupt vector if enabled. -/
def execCreateIoCompletionQueue (tag qid size0 addr : Nat) (pc : Bool) (vector : Option Nat) (s : State) : Out :=
  pcieRow tag (fun x c t =>
    if ¬ pc ∨ addr % c.mps ≠ 0 then invalidField tag t
    else if qid = 0 ∨ 32 < qid ∨ (SMap.find c.cqs qid).isSome then complete tag 1 0x01 true 0 [] t
    else if size0 = 0 ∨ 65535 < size0 then complete tag 1 0x02 true 0 [] t
    else if vector.any (fun v => decide ((resOf c.func t).vecs ≤ v)) then complete tag 1 0x08 true 0 [] t
    else if queuesUsed c.func true t then quotaExceeded tag t
    else completeOk tag (updCtrl x.ctrl (fun z => { z with cqs := SMap.put z.cqs qid ⟨size0 + 1, 0, 0, vector, [], []⟩ }) t)) s

/-- Row DELETE_IO_SUBMISSION_QUEUE: commands in progress on it are aborted; its ordered-queue setting goes with it (R104). -/
def execDeleteIoSubmissionQueue (tag qid : Nat) (s : State) : Out :=
  pcieRow tag (fun x c t =>
    if qid = 0 ∨ (SMap.find c.sqs qid).isNone then complete tag 1 0x01 true 0 [] t
    else
      let mine := t.nv.cmds.filter (fun y => y.ctrl == x.ctrl && y.sq == qid)
      let ended := abandonExecs (fun e => mine.any (fun y => y.tag == e.tag)) t
      let waits := { ended with prog := { ended.prog with waiting := ended.prog.waiting.filter (fun w => !mine.any (fun y => y.tag == w.1)) } }
      let u := forEach (abortWith 0 0x08 false) (mine.filter (·.result.isNone)) waits
      completeOk tag (updCtrl x.ctrl (fun z => { z with sqs := SMap.del z.sqs qid }) u)) s

/-- Row DELETE_IO_COMPLETION_QUEUE: not while a submission queue is bound to it. -/
def execDeleteIoCompletionQueue (tag qid : Nat) (s : State) : Out :=
  pcieRow tag (fun x c t =>
    if qid = 0 ∨ (SMap.find c.cqs qid).isNone then complete tag 1 0x01 true 0 [] t
    else if c.sqs.any (fun q => q.2.cq == qid) then complete tag 1 0x0C true 0 [] t
    else completeOk tag (updCtrl x.ctrl (fun z => { z with cqs := SMap.del z.cqs qid }) t)) s

/-! ### Features (R89, R111) -/

/-- Features the module supports. -/
def featureIds : List Nat :=
  [0x01, 0x02, 0x04, 0x05, 0x07, 0x08, 0x09, 0x0A, 0x0B, 0x0C, 0x0F, 0x19, 0x81, 0x82, 0x83, 0xC0, 0xC1, 0xC2, 0xC3, 0xC4, 0xC5, 0xC6, 0xC7]

/-- Module-wide features held as one dword. -/
def wideFeature (fid : Nat) : Bool := [0xC0, 0xC1, 0xC3, 0xC5].contains fid

/-- Features with a saved value; those of a fabric controller have none of its own. -/
def saveable (fid : Nat) (fabric : Bool) : Bool :=
  wideFeature fid || fid == 0xC7 || (!fabric && [0x01, 0x04, 0x05, 0x08, 0x09, 0x0A, 0x0B, 0xC2].contains fid)

/-- Where a controller keeps the value of a feature: one place, or one for each sensor, vector or namespace. -/
def featureKey (fid dw11 nsid : Nat) : Nat :=
  if fid = 0x04 then threshId (dw11 / 2 ^ 16 % 16) (dw11 / 2 ^ 20 % 4 == 1)
  else if fid = 0x09 then indexedFeature 9 (dw11 % 2 ^ 16)
  else if fid = 0x05 ∨ fid = 0x82 then indexedFeature fid nsid
  else fid

/-- The default of a feature that a controller holds. -/
def ctrlFeatureDefault (fid dw11 : Nat) : Nat :=
  match fid with
  | 0x04 => threshDefault (dw11 / 2 ^ 16 % 16) (dw11 / 2 ^ 20 % 4 == 1)
  | 0x0B => aecDefault
  | 0xC2 => 600 + 4 * 65536
  | _ => 0

/-- Dword 11 of a feature that a controller holds names nothing it should not. -/
def featureArgOk (fid dw11 nsid : Nat) (c : Ctrl) (set : Bool) (s : State) : Bool :=
  let sel := dw11 / 2 ^ 16 % 16
  match fid with
  | 0x04 => (decide (sel ≤ 8) || (set && sel == 15)) && decide (dw11 / 2 ^ 20 % 4 ≤ 1)
  | 0x09 => decide (dw11 % 2 ^ 16 < (resOf c.func s).vecs)
  | 0x05 | 0x82 => nsid == 0xFFFFFFFF || (nsAt nsid s).isSome
  | _ => true

/-- A controller's feature takes a value, saved as well when asked. -/
def putFeature (c key v : Nat) (sv : Bool) (s : State) : State :=
  let s1 := updCtrl c (fun x => { x with feats := SMap.put x.feats key v }) s
  if sv then { s1 with nv := { s1.nv with saved := SMap.put s1.nv.saved (256 * c + key) v } } else s1

/-- Set Features Temperature Threshold: one sensor, or every one that is implemented. -/
def setThreshold (c dw11 : Nat) (sv : Bool) (s : State) : State :=
  let sel := dw11 / 2 ^ 16 % 16
  let under := dw11 / 2 ^ 20 % 4 == 1
  judgeTemp (forEach (fun k t => putFeature c (threshId k under) (dw11 % 65536) sv t) (if sel = 15 then List.range 9 else [sel]) s)

/-- Set Features Autonomous Power State Transition: APSTE and the 32-entry table, whose targets are non-operational states. -/
def setApst (x : Cmd) (dw11 : Nat) (data : List Byte) (s : State) : State :=
  let ent (k : Nat) : Nat × Nat := (fieldAt data (8 * k) 1 / 8, fieldAt data (8 * k + 1) 3)
  if (List.range 5).any (fun k => (ent k).2 != 0 && (ent k).1 != 3 && (ent k).1 != 4) then invalidField x.tag s
  else
    let s1 := forEach (fun k t => putFeature x.ctrl (apstKey k) ((ent k).1 + 256 * (ent k).2) false t) (List.range 5) s
    completeOk x.tag (updCtrl x.ctrl (fun c => { c with apst := dw11 % 2 == 1 }) s1)

/-- A module-wide feature's dword 11 is legal (R132, R202, R465, R503). -/
def wideOk (fid v : Nat) : Bool :=
  match fid with
  | 0xC0 => decide (v < 2 ^ 9) && decide (v % 256 ≤ 100)
  | 0xC1 => decide (v < 2 ^ 18) && v / 65536 != 3
  | 0xC3 => decide (v < 2 ^ 28) && v / 2 ^ 24 != 0 && decide (v % 256 < v / 256 % 256) && decide (v / 256 % 256 < v / 65536 % 256) &&
      decide (v / 65536 % 256 ≤ 95)
  | 0xC5 => decide (v < 2 ^ 9)
  | _ => false

/-- Set Features of a module-wide feature: only a physical function's controller may. -/
def setWide (x : Cmd) (c : Ctrl) (fid v : Nat) (sv : Bool) (s : State) : State :=
  if !c.pf || !wideOk fid v then invalidField x.tag s
  else
    let s1 := { s with feat := SMap.put s.feat fid v }
    completeOk x.tag (if sv then { s1 with nv := { s1.nv with saved := SMap.put s1.nv.saved (wideKey fid) v } } else s1)

/-- Set Features 0xC2, Compute Runtime (R397): the window cache must fit the function's private memory. -/
def setRuntime (x : Cmd) (c : Ctrl) (v : Nat) (sv : Bool) (s : State) : State :=
  let w := v / 65536 % 256
  let used := privUsed c.func s - SMap.getD s.prog.wcache c.func 4 * 0x1000000
  if w = 0 ∨ 2 ^ 24 ≤ v then invalidField x.tag s
  else if privSize c.func s < used + w * 0x1000000 then quotaExceeded x.tag s
  else if sv ∧ c.fabric then complete x.tag 1 0x0D true 0 [] s
  else completeOk x.tag (applyWcache c.func (putFeature x.ctrl 0xC2 v sv s))

/-- Set Features 0xC4, Ordered Queue (R103–R105): it ends a halt and applies to commands fetched from now on. -/
def setOrderedQueue (x : Cmd) (v : Nat) (sv : Bool) (s : State) : State :=
  let q := v % 65536
  if sv then complete x.tag 1 0x0D true 0 [] s
  else if 2 ^ 18 ≤ v ∨ q = 0 ∨ (sqAt x.ctrl q s).isNone then invalidField x.tag s
  else completeOk x.tag (updSq x.ctrl q (fun k => { k with
    ordered := v / 2 ^ 16 % 2 == 1, haltErr := v / 2 ^ 17 % 2 == 1, halted := false }) s)

/-- Set Features 0xC7, Network Ports (R440): a port's configuration, a host entry or a PSK slot; `lost` are the connections whose
address is removed. -/
def setNetwork (x : Cmd) (c : Ctrl) (v : Nat) (sv : Bool) (data : List Byte) (lost : List Nat) (s : State) : State :=
  let sel := v % 4
  let i := v / 4 % 256
  if !c.pf || decide (2 ^ 10 ≤ v) || (sel == 0 && decide (1 < i)) || (sel == 2 && decide (63 < i)) || !netStructOk sel data then
    invalidField x.tag s
  else
    let s1 := match sel with
      | 0 => setPort i data lost s
      | 1 => setHost i data s
      | _ => setPsk i data s
    completeOk x.tag (if sv then updNet (fun n => match sel with
        | 0 => { n with savedPorts := SMap.put n.savedPorts i data }
        | 1 => { n with savedHosts := SMap.put n.savedHosts i data }
        | _ => { n with savedPsks := if fieldAt data 48 1 = 0 then SMap.del n.savedPsks i else SMap.put n.savedPsks i data }) s1
      else s1)

/-- Set Features of feature `fid`. -/
def setFeature (fid dw11 : Nat) (sv : Bool) (data : List Byte) (lost : List Nat) (x : Cmd) (c : Ctrl) (s : State) : State :=
  if !featureIds.contains fid then invalidField x.tag s
  else if fid = 0xC4 then setOrderedQueue x dw11 sv s
  else if fid = 0xC6 then complete x.tag 1 0x0E true 0 [] s
  else if sv && !saveable fid c.fabric then complete x.tag 1 0x0D true 0 [] s
  else if wideFeature fid then setWide x c fid dw11 sv s
  else if !featureArgOk fid dw11 x.nsid c true s then invalidField x.tag s
  else match fid with
    | 0x02 => if 4 < dw11 % 32 then invalidField x.tag s else completeOk x.tag (setRequested x.ctrl (dw11 % 32) false s)
    | 0x04 => completeOk x.tag (setThreshold x.ctrl dw11 sv s)
    | 0x07 =>
      if c.sqs.length > 1 ∨ c.cqs.length > 1 then complete x.tag 0 0x0C true 0 [] s
      else if dw11 % 65536 = 65535 ∨ dw11 / 65536 = 65535 then invalidField x.tag s
      else completeDw x.tag (31 + 31 * 65536) s
    | 0x0C => setApst x dw11 data s
    | 0x0F => completeOk x.tag (updNet (fun n => { n with assocs := n.assocs.map (fun a => if a.ctrl = x.ctrl then { a with kato := dw11 } else a) })
        (putFeature x.ctrl 0x0F dw11 false s))
    | 0x19 => if dw11 % 512 = 0 then completeOk x.tag s else complete x.tag 1 0x2B true 0 [] s
    | 0x81 =>
      if c.fabric then complete x.tag 0 0x0C true 0 [] s
      else completeOk x.tag (putFeature x.ctrl 0x81 (if dw11 % 2 = 1 then fieldAt data 0 16 else fieldAt data 0 8) false s)
    | 0x82 =>
      completeOk x.tag (if x.nsid = 0xFFFFFFFF then
          forEach (fun e t => putFeature x.ctrl (indexedFeature 0x82 e.1) dw11 false t) s.nv.ns s
        else putFeature x.ctrl (indexedFeature 0x82 x.nsid) dw11 false s)
    | 0x83 =>
      if x.nsid = 0xFFFFFFFF then completeOk x.tag (forEach (fun e t => updResv e.1 (fun r => { r with ptpl := dw11 % 2 == 1 }) t) s.nv.ns s)
      else if (nsAt x.nsid s).isNone then complete x.tag 0 0x0B true 0 [] s
      else completeOk x.tag (updResv x.nsid (fun r => { r with ptpl := dw11 % 2 == 1 }) s)
    | 0xC2 => setRuntime x c dw11 sv s
    | 0xC7 => setNetwork x c dw11 sv data lost s
    | _ => completeOk x.tag (putFeature x.ctrl (featureKey fid dw11 x.nsid) dw11 sv s)

/-- Row SET_FEATURES. -/
def execSetFeatures (tag fid dw11 : Nat) (sv : Bool) (data : List Byte) (s : State) : Out :=
  adminRow tag (setFeature fid dw11 sv data []) s

/-- Row SET_POWER_MANAGEMENT (R64). -/
def execSetPowerManagement (tag dw11 : Nat) (sv : Bool) (s : State) : Out := adminRow tag (setFeature 0x02 dw11 sv [] []) s
/-- Row SET_ORDERED_QUEUE. -/
def execSetOrderedQueue (tag dw11 : Nat) (sv : Bool) (s : State) : Out := adminRow tag (setFeature 0xC4 dw11 sv [] []) s
/-- Row SET_LANDING_POOL_POLICY. -/
def execSetLandingPoolPolicy (tag dw11 : Nat) (sv : Bool) (s : State) : Out := adminRow tag (setFeature 0xC0 dw11 sv [] []) s
/-- Row SET_SCAN_DEFAULTS. -/
def execSetScanDefaults (tag dw11 : Nat) (sv : Bool) (s : State) : Out := adminRow tag (setFeature 0xC1 dw11 sv [] []) s
/-- Row SET_COMPUTE_RUNTIME. -/
def execSetComputeRuntime (tag dw11 : Nat) (sv : Bool) (s : State) : Out := adminRow tag (setFeature 0xC2 dw11 sv [] []) s
/-- Row SET_THERMAL_THRESHOLDS. -/
def execSetThermalThresholds (tag dw11 : Nat) (sv : Bool) (s : State) : Out := adminRow tag (setFeature 0xC3 dw11 sv [] []) s
/-- Row SET_EVENT_NOTIFICATION. -/
def execSetEventNotification (tag dw11 : Nat) (sv : Bool) (s : State) : Out := adminRow tag (setFeature 0xC5 dw11 sv [] []) s
/-- Row SET_TENANT_ARBITRATION_READ_OUT. -/
def execSetTenantArbitrationReadOut (tag dw11 : Nat) (sv : Bool) (s : State) : Out := adminRow tag (setFeature 0xC6 dw11 sv [] []) s
/-- Row SET_NETWORK_PORTS: `lost` are the connections whose address is removed. -/
def execSetNetworkPorts (tag dw11 : Nat) (sv : Bool) (data : List Byte) (lost : List Nat) (s : State) : Out :=
  adminRow tag (setFeature 0xC7 dw11 sv data lost) s

/-- The arbitration read-out of a function (R459). -/
def arbReadOut (f : Nat) (s : State) : Nat :=
  let r := resOf f s
  r.arbW % 256 + 256 * (r.compW % 256) + 65536 * (r.mask % 256) + (if r.excl then 2 ^ 24 else 0)

/-- The APST table of a controller as Get Features returns it. -/
def apstTable (c : Ctrl) : List Byte :=
  (List.range 32).flatMap (fun k =>
    let v := SMap.getD c.feats (apstKey k) 0
    leBytes 8 (v % 256 * 8 + v / 256 * 256))

/-- A structure of feature 0xC7 as Get Features returns it: keys read as zero. -/
def networkStruct (which sel i : Nat) (s : State) : List Byte :=
  let pad (d : List Byte) : List Byte := d ++ List.replicate (512 - d.length) 0
  let pick (cur saved : SMap (List Byte)) (d : List Byte) : List Byte :=
    pad (if which = 0 then SMap.getD cur i d else if which = 2 then SMap.getD saved i d else d)
  match sel with
  | 0 => pick s.net.ports s.net.savedPorts portDefault
  | 1 => pick s.net.hosts s.net.savedHosts []
  | _ => putBytes (pick s.net.psks s.net.savedPsks []) 0 (List.replicate 48 0)

/-- The value of a one-dword feature for a select: current, default or saved. -/
def featureSelect (which fid dw11 : Nat) (x : Cmd) (c : Ctrl) (s : State) : Nat :=
  let key := featureKey fid dw11 x.nsid
  let dflt := ctrlFeatureDefault fid dw11
  if wideFeature fid then
    (if which = 0 then featureValue fid s else if which = 2 then SMap.getD s.nv.saved (wideKey fid) (featureDefault fid) else featureDefault fid)
  else match fid with
    | 0x02 => if which = 0 then c.reqPs else 0
    | 0x07 => 31 + 31 * 65536
    | 0x0C => if which = 0 ∧ c.apst then 1 else 0
    | 0x83 => match nsAt x.nsid s with
      | some n => if n.resv.ptpl ∧ which ≠ 1 then 1 else 0
      | none => 0
    | 0xC6 => arbReadOut c.func s
    | _ =>
      if which = 0 then SMap.getD c.feats key dflt
      else if which = 2 then SMap.getD s.nv.saved (256 * x.ctrl + key) dflt
      else dflt

/-- Get Features (R89, R104, R440, R459): select 0 current, 1 default, 2 saved, 3 supported capabilities. -/
def getFeature (fid sel dw11 : Nat) (x : Cmd) (c : Ctrl) (s : State) : State :=
  let b (n : Nat) (p : Bool) : Nat := if p then 2 ^ n else 0
  if !featureIds.contains fid || decide (3 < sel) then invalidField x.tag s
  else if fid = 0xC4 then
    (match sqAt x.ctrl (dw11 % 65536) s with
      | some q =>
        if sel ≠ 0 ∨ dw11 % 65536 = 0 then invalidField x.tag s
        else completeDw x.tag (b 16 q.ordered + b 17 q.haltErr) s
      | none => invalidField x.tag s)
  else if sel = 3 then
    completeDw x.tag (b 0 (saveable fid c.fabric) + b 1 ([0x05, 0x82, 0x83].contains fid) + b 2 (fid != 0xC6)) s
  else if fid = 0xC7 then
    (let w := dw11 % 4
     let i := dw11 / 4 % 256
     if w = 3 ∨ 2 ^ 10 ≤ dw11 ∨ (w = 0 ∧ 1 < i) ∨ (w = 2 ∧ 63 < i) then invalidField x.tag s
     else completeData x.tag (networkStruct sel w i s) s)
  else if !featureArgOk fid dw11 x.nsid c false s then invalidField x.tag s
  else if fid = 0x0C then complete x.tag 0 0 false (featureSelect sel fid dw11 x c s) (if sel = 0 then apstTable c else List.replicate 256 0) s
  else if fid = 0x81 then
    (let v := if sel = 0 then SMap.getD c.feats 0x81 0 else 0
     completeData x.tag (leBytes (if dw11 % 2 = 1 then 16 else 8) v) s)
  else completeDw x.tag (featureSelect sel fid dw11 x c s) s

/-- Row GET_FEATURES. -/
def execGetFeatures (tag fid sel dw11 : Nat) (s : State) : Out := adminRow tag (getFeature fid sel dw11) s

/-- Row KEEP_ALIVE (R429): the association's timer starts again. -/
def execKeepAlive (tag : Nat) (s : State) : Out := adminRow tag (fun x _ t => completeOk x.tag t) s

/-! ### Namespaces (R114–R120, R368, R369, R445) -/

/-- The lowest free namespace identifier. -/
def freeNsid (s : State) : Option Nat := ((List.range 2048).map (· + 1)).find? (fun n => (nsAt n s).isNone)

/-- The sum of the physical shares, in IUs (R117). -/
def sharesUsed (s : State) : Nat :=
  (s.nv.ns.filter (fun e => e.2.csi == 0)).foldl (fun n e => n + e.2.ncap / lbasPerIu e.2.flbas) 0

/-- Protection type `dps` is allowed in LBA format `flbas` (R90, R115). -/
def piAllowed (flbas dps : Nat) : Bool := dps == 0 || ((dps == 1 || dps == 3) && flbas % 3 != 0)

/-- The first rule an NVM Create breaks, in the order of R114: status code type and code. -/
def nvmCreateFault (a : NsCreate) (s : State) : Option (Nat × Nat) :=
  let idx := a.flbas % 16
  let comp := a.vendor % 2 == 1
  let k := lbasPerIu idx
  if a.other then some (0, 0x02)
  else if 32 ≤ a.flbas ∨ 5 < idx ∨ (comp = true ∧ idx % 3 ≠ 0) then some (1, 0x0A)
  else if !piAllowed idx a.dps then some (1, 0x0A)
  else if 32 ≤ a.vendor ∨ (!comp ∧ a.vendor / 2 % 8 ≠ 0) then some (0, 0x02)
  else if a.nsze = 0 ∨ a.nsze % k ≠ 0 then some (0, 0x02)
  else if (!comp ∧ a.ncap ≠ a.nsze) ∨ a.ncap % k ≠ 0 ∨ 2 * a.ncap < a.nsze ∨ a.nsze < a.ncap then some (0, 0x02)
  else if 1 < a.nmic then some (0, 0x02)
  else if userIus s < sharesUsed s + a.ncap / k then some (1, 0x15)
  else if (freeNsid s).isNone then some (1, 0x16)
  else none

/-- A namespace without reservations. -/
def freshNs (a : NsCreate) (owner entry : Nat) : Ns where
  csi := a.csi
  nsze := a.nsze
  ncap := a.ncap
  flbas := a.flbas % 16
  ext := a.flbas / 16 % 2 == 1
  dps := a.dps
  shared := a.nmic == 1
  options := a.vendor
  owner := owner
  attached := []
  keyLost := false
  keyEntry := entry
  resv := ⟨[], none, 0, 0, false⟩

/-- Puts a new namespace and answers with its identifier; an NVM namespace gets a media key of its own (R269). -/
def addNs (tag nsid : Nat) (n : Ns) (s : State) : State :=
  let s1 := { s with nv := { s.nv with ns := SMap.put s.nv.ns nsid n } }
  let s2 := if n.csi = 0 then { s1 with keys := { s1.keys with store := SMap.put s1.keys.store n.keyEntry s1.keys.nextKey, nextKey := s1.keys.nextKey + 1 } }
    else s1
  completeDw tag nsid s2

/-- Create of a memory or compute namespace (R368, R369). -/
def createOwn (x : Cmd) (c : Ctrl) (a : NsCreate) (s : State) : State :=
  let f := c.func
  let g := a.nsze / 0x10000000
  if a.other ∨ a.flbas ≠ 0 ∨ a.dps ≠ 0 ∨ a.vendor ≠ 0 ∨ a.nmic ≠ 0 ∨ (a.csi = 3 ∧ (a.nsze % 0x10000000 ≠ 0 ∨ g = 0)) then invalidField x.tag s
  else if s.nv.ns.any (fun e => e.2.csi == a.csi && e.2.owner == f) then complete x.tag 1 0x16 true 0 [] s
  else match freeNsid s with
    | none => complete x.tag 1 0x16 true 0 [] s
    | some id =>
      if a.csi = 3 then
        (if (slmOf f s).length < g then quotaExceeded x.tag s
        else
          let s1 := forEach zeroGranule ((slmOf f s).take g) { s with ten := { s.ten with memNs := SMap.put s.ten.memNs f g } }
          addNs x.tag id (freshNs a f 0) s1)
      else addNs x.tag id (freshNs a f 0) s

/-- Row NAMESPACE_CREATE. -/
def execNamespaceCreate (tag : Nat) (a : NsCreate) (s : State) : Out :=
  pcieRow tag (fun x c => unlessSanitize tag (fun t =>
    if a.csi = 0 then
      (if c.func ≠ t.ten.manager then invalidField tag t
      else match nvmCreateFault a t, freeNsid t with
        | some (sct, sc), _ => complete tag sct sc true 0 [] t
        | none, none => t
        | none, some id => addNs tag id (freshNs a c.func id) t)
    else if a.csi = 3 ∨ a.csi = 4 then createOwn x c a t
    else invalidField tag t)) s

/-- Commands of a namespace still in progress end with a status; scans of it end and windows on it are unmapped. -/
def quitNs (tag nsid sc : Nat) (s : State) : State :=
  let s1 := dropPages (fun g => g.nsid == nsid) (unmapNs nsid (scanAbortNs nsid s))
  forEach (abortWith 0 sc false) (s1.nv.cmds.filter (fun y => y.nsid == nsid && y.tag != tag && y.result.isNone &&
    (y.kind == .flush || y.kind == .resv || trackedKind y.kind))) s1

/-- Deletes an NVM namespace: its units, its key, its identifier and share (R120, R272). -/
def deleteNvm (tag nsid : Nat) (n : Ns) (s : State) : State :=
  let s1 := quitNs tag nsid 0x0B s
  let s2 := if nsSd n then queueDiscard nsid s1 else s1
  let s3 := cryptoErase [n.keyEntry] (deallocNs nsid s2)
  nsChanged nsid n.attached { s3 with
    keys := { s3.keys with store := SMap.del s3.keys.store n.keyEntry }
    nv := { s3.nv with ns := SMap.del s3.nv.ns nsid } }

/-- A memory range set of the function names SLM, or an execution of it is in flight. -/
def slmInUse (f : Nat) (s : State) : Bool :=
  s.prog.rsets.any (fun e => e.1 / 16 == f && !e.2.isEmpty) || s.prog.execs.any (fun e => e.2.func == f)

/-- Deletes a memory or compute namespace of its own function; the compute namespace's programs and range sets go with it. -/
def deleteOwn (nsid : Nat) (n : Ns) (s : State) : State :=
  let f := n.owner
  let s1 := if n.csi = 3 then
      forEach zeroGranule ((slmOf f s).take (SMap.getD s.ten.memNs f 0)) { s with ten := { s.ten with memNs := SMap.del s.ten.memNs f } }
    else
      let mine (k : Nat) : Bool := k / 16 == f
      let t := abandonExecs (fun e => e.func == f) s
      { t with prog := { t.prog with
          slots := t.prog.slots.filter (fun e => !mine e.1), rsets := t.prog.rsets.filter (fun e => !mine e.1)
          alloc := t.prog.alloc.filter (fun a => a.1 != f) } }
  nsChanged nsid n.attached { s1 with nv := { s1.nv with ns := SMap.del s1.nv.ns nsid } }

/-- Row NAMESPACE_DELETE: identifier 0xFFFFFFFF names every NVM namespace. -/
def execNamespaceDelete (tag : Nat) (s : State) : Out :=
  pcieRow tag (fun x c => unlessSanitize tag (fun t =>
    let mgr := c.func == t.ten.manager
    if x.nsid = 0xFFFFFFFF then
      (if mgr then completeOk tag (forEach (fun e u => deleteNvm tag e.1 e.2 u) (t.nv.ns.filter (fun e => e.2.csi == 0)) t) else invalidField tag t)
    else match nsAt x.nsid t with
      | none => complete tag 0 0x0B true 0 [] t
      | some n =>
        if n.csi = 0 then (if mgr then completeOk tag (deleteNvm tag x.nsid n t) else invalidField tag t)
        else if n.owner ≠ c.func then invalidField tag t
        else if n.csi = 3 ∧ slmInUse c.func t = true then inUse tag t
        else if n.csi = 4 ∧ t.prog.execs.any (fun e => e.2.func == c.func) = true then inUse tag t
        else completeOk tag (deleteOwn x.nsid n t))) s

/-- The function whose PCIe controller has this identifier (R85). -/
def cntlidFunc (c : Nat) (s : State) : Option Nat :=
  if s.nv.dual then (if 1 ≤ c ∧ c ≤ 64 then some (c - 1) else if 0x81 ≤ c ∧ c ≤ 0xC0 then some (c - 0x81 + 64) else none)
  else if 1 ≤ c ∧ c ≤ 128 then some (c - 1) else none

/-- Namespaces attached to a controller. -/
def attachedTo (c : Nat) (s : State) : List (Nat × Ns) := s.nv.ns.filter (fun e => e.2.attached.contains c)

/-- Why a controller cannot have a namespace attached: the command-specific code. -/
def attachFault (n : Ns) (c count : Nat) (s : State) : Option Nat :=
  match cntlidFunc c s with
  | none => some 0x1C
  | some f =>
    if n.csi ≠ 0 ∧ f ≠ n.owner then some 0x1C
    else if n.attached.contains c then some 0x18
    else if n.csi = 0 ∧ !n.shared ∧ (!n.attached.isEmpty ∨ 1 < count) then some 0x19
    else if 1024 ≤ (attachedTo c s).length ∨ (n.csi = 0 ∧ (resOf f s).nsCap ≤ nsUsed f s) then some 0x27
    else none

/-- An attachment command that its controller may give, on a namespace that exists (R445). -/
def attachRow (tag : Nat) (run : Nat → Ns → State → State) (s : State) : Out :=
  pcieRow tag (fun x c => unlessSanitize tag (fun t =>
    match nsAt x.nsid t with
    | none => complete tag 0 0x0B true 0 [] t
    | some n =>
      if n.csi = 0 ∧ c.func ≠ t.ten.manager then invalidField tag t
      else if n.csi ≠ 0 ∧ c.func ≠ n.owner then invalidField tag t
      else run x.nsid n t)) s

/-- Row NAMESPACE_ATTACH: to every controller of the list, or to none. -/
def execNamespaceAttach (tag : Nat) (ctrls : List Nat) (s : State) : Out :=
  attachRow tag (fun nsid n t =>
    match (if ctrls.isEmpty then some 0x1C else ctrls.findSome? (fun c => attachFault n c ctrls.length t)) with
    | some sc => complete tag 1 sc true 0 [] t
    | none =>
      completeOk tag (nsChanged nsid ctrls { t with nv := { t.nv with ns := SMap.put t.nv.ns nsid { n with attached := n.attached ++ ctrls } } })) s

/-- Row NAMESPACE_DETACH. -/
def execNamespaceDetach (tag : Nat) (ctrls : List Nat) (s : State) : Out :=
  attachRow tag (fun nsid n t =>
    match (if ctrls.isEmpty then some 0x1C else ctrls.findSome? (fun c =>
        if (cntlidFunc c t).isNone then some 0x1C else if !n.attached.contains c then some 0x1A else none)) with
    | some sc => complete tag 1 sc true 0 [] t
    | none =>
      completeOk tag (nsChanged nsid ctrls { t with nv := { t.nv with
        ns := SMap.put t.nv.ns nsid { n with attached := n.attached.filter (fun c => !ctrls.contains c) } } })) s

/-! ### Format, Sanitize, self-test (R142, R143, R149) -/

/-- The namespace in another LBA format: the same size in bytes (R143). -/
def reformat (n : Ns) (idx dps : Nat) (ext : Bool) : Ns :=
  let scale (v : Nat) : Nat := v * lbaBytes n.flbas / lbaBytes idx
  { n with flbas := idx, dps := dps, ext := ext, nsze := scale n.nsze, ncap := scale n.ncap }

/-- Formats one namespace: units deallocated, a new key with Secure Erase Settings 1 or 2. -/
def formatNs (tag idx dps ses : Nat) (ext : Bool) (nsid : Nat) (n : Ns) (s : State) : State :=
  let s1 := quitNs tag nsid 0x84 s
  let s2 := if nsSd n then queueDiscard nsid s1 else s1
  let s3 := deallocNs nsid s2
  let s4 := { s3 with nv := { s3.nv with ns := SMap.put s3.nv.ns nsid (reformat n idx dps ext) } }
  nsChanged nsid (if n.flbas = idx ∧ n.dps = dps then [] else n.attached) (if ses = 0 then s4 else cryptoErase [n.keyEntry] s4)

/-- Row FORMAT_NVM: LBA format, Secure Erase Settings, protection type and whether metadata is extended. -/
def execFormatNvm (tag idx ses pi : Nat) (ext : Bool) (s : State) : Out :=
  pcieRow tag (fun x _ => unlessSanitize tag (fun t =>
    let named := t.nv.ns.filter (fun e => e.2.csi == 0 && (e.1 == x.nsid || x.nsid == 0xFFFFFFFF) && sees e.2 x.ctrl t)
    if mode t = 10 then complete tag 0 0x20 true 0 [] t
    else if named.isEmpty ∧ x.nsid ≠ 0xFFFFFFFF then complete tag 0 0x0B true 0 [] t
    else if 2 < ses then invalidField tag t
    else if 5 < idx ∨ !piAllowed idx pi ∨ named.any (fun e => nsCompressed e.2 && idx % 3 != 0) then complete tag 1 0x0A true 0 [] t
    else if named.any (fun e => resvConflict e.2.resv (hostOf x.ctrl t) true) then complete tag 0 0x83 false 0 [] t
    else completeOk tag (forEach (fun e u => formatNs tag idx pi ses ext e.1 e.2 u) named t))) s

/-- Everything that runs ends for a sanitize, and the module enters Sanitize with its compute domains off (R60, R142, R304). -/
def sanitizeStart (tag : Nat) (crypto : Bool) (s : State) : State :=
  let s1 := endExecs (fun _ => true) 7 s
  let s2 := forEach (fun e t => stopExec e.1 e.2.func t) s1.prog.execs s1
  let s3 := forEach (fun e t => unmapNs e.1 t) s2.nv.ns (scanAbortNs 0xFFFFFFFF s2)
  let keep (y : Cmd) : Bool := y.kind == .admin || s3.prog.execs.any (fun e => e.2.tag == y.tag)
  let s4 := forEach (abortWith 0 0x1D false) (s3.nv.cmds.filter (fun y => y.tag != tag && y.result.isNone && !keep y)) s3
  let s5 := cryptoErase (s4.keys.store.map (·.1)) { s4 with
    nv := { s4.nv with sanState := 2, sanCrypto := crypto }
    prog := { s4.prog with waiting := [] }
    pow := { s4.pow with sanFrom := mode s, sanPending := true } }
  goMode 9 (forN clusStop 8 s5)

/-- Row SANITIZE: action 1 exit failure mode, 2 block erase, 3 overwrite, 4 crypto erase; NDAS is No-Deallocate After Sanitize. -/
def execSanitize (tag act : Nat) (ndas : Bool) (s : State) : Out :=
  pcieRow tag (fun _ _ => unlessSanitize tag (fun t =>
    if act = 1 then completeOk tag t
    else if (act ≠ 2 ∧ act ≠ 4) ∨ ndas then invalidField tag t
    else if act = 2 ∧ mode t = 10 then complete tag 0 0x20 true 0 [] t
    else completeOk tag (sanitizeStart tag (act == 4) t))) s

/-- A channel has no operation left. -/
def quietChan (n : Nat) (s : State) : State :=
  setChan n { chanAt n s with queue := [], dies := [], susp := [], backoff := [], rebuilds := [] } s

/-- Every block of the working channels is erased, in the mode of its superblock, and free; each counts (R142, R175). The blocks of the
metadata area are erased with the others. -/
def eraseEverything (s : State) : State :=
  let slcKeys := (s.ftl.sbs.filter (fun e => e.2.slc)).flatMap (fun e => e.2.blocks.map (fun p => blkKey p.1 p.2))
  let here (e : Nat × Blk) : Bool := !s.media.retireOrder.contains (e.1 / 65536) && e.2.st != .retired
  let s1 := { s with ftl := { s.ftl with
    openDyn := none, openStatic := none, openSd := none, discard := [], sdHolds := [], sbs := [], freshWear := s.ftl.freshWear + 20
    blks := s.ftl.blks.map (fun e => if here e then (e.1, erasedBlk (slcKeys.contains e.1) .free e.2) else e) } }
  checkWear (forEach (fun c t => cntAdd (Reg.CHE_CNT_ERASE c) 32 (chanBlocks c t + 256) (quietChan c t)) (workChans s1) s1)

/-- A block failed its erase in a sanitize, and is retired (R137, R142). -/
def eraseLost (c b : Nat) (s : State) : State :=
  if c < 32 ∧ b < chanBlocks c s ∧ ¬ s.media.retireOrder.contains c ∧ (blkAt c b s).st = .free then
    retireBlock c (blkDie b) true (updBlk c b (fun x => { x with st := .retired })
      (raiseEvent 0x06 c (Fl.CHE_EVENT_ERASE_FAIL c)
        { s with ftl := { s.ftl with nextBlk := SMap.put s.ftl.nextBlk c (max (SMap.getD s.ftl.nextBlk c 0) (b + 1)) } }))
  else s

/-- Row SANITIZE_COMPLETE (R60, R142, R230): every unit is deallocated and the mode Sanitize was entered from returns, or Read-Only with
a recorded cause; `bad`: the saved image of the match banks fails its check; `failed`: blocks, by channel and number, that failed their erase,
which does not fail the sanitize. -/
def execSanitizeComplete (bad : Bool) (failed : List (Nat × Nat)) (s : State) : Out :=
  if mode s = 9 ∧ fget Fl.AON_MODE_TRANS s = 0 then
    let s1 := resetMap s
    let s2 := recomputeFill (if s.nv.sanCrypto then s1 else forEach (fun p t => eraseLost p.1 p.2 t) failed (eraseEverything s1))
    let back := if s.pow.sanFrom = 5 then 5 else 4
    let leave (t : State) : State := if mode t = 10 then t else if fget Fl.AON_MODE_RO_CAUSE t ≠ 0 then goReadOnly t else goMode back t
    let s3 := forN clusStart 8 (leave { s2 with nv := { s2.nv with sanState := 1 }, pow := { s2.pow with sanPending := false } })
    let s4 := if bad then discardImage .matchBanks s3 else s3
    .next (applyPowerState (raiseAen (enabledControllers s4) 6 1 0x81 s4))
  else .next s

/-- Row DEVICE_SELF_TEST: short, extended, or abort of one; it ends at once. -/
def execDeviceSelfTest (tag code : Nat) (s : State) : Out :=
  pcieRow tag (fun x _ => unlessSanitize tag (fun t =>
    if code ≠ 1 ∧ code ≠ 2 ∧ code ≠ 15 then invalidField tag t
    else if x.nsid ≠ 0 ∧ x.nsid ≠ 0xFFFFFFFF ∧ (nsAt x.nsid t).isNone = true then complete tag 0 0x0B true 0 [] t
    else completeOk tag (updCtrl x.ctrl (fun c => { c with selfTest := code }) t))) s

/-! ### Virtualization Management (R446) -/

/-- A secondary controller row: from a primary controller, on a controller of one of its virtual functions. -/
def secondaryRow (tag cntlid : Nat) (run : Nat → Ctrl → State → State) (s : State) : Out :=
  pcieRow tag (fun _ c t =>
    if !c.pf then invalidField tag t
    else match cntlidFunc cntlid t with
      | none => complete tag 1 0x1F true 0 [] t
      | some f =>
        if isPhysical f t ∨ (t.nv.dual ∧ f / 64 ≠ c.func / 64) then complete tag 1 0x1F true 0 [] t
        else run f ((ctrlAt cntlid t).getD (Ctrl.fresh f false c.portB false)) t) s

/-- Row SECONDARY_CONTROLLER_OFFLINE. -/
def execSecondaryControllerOffline (tag cntlid : Nat) (s : State) : Out :=
  secondaryRow tag cntlid (fun _ y t =>
    if y.en then complete tag 1 0x20 true 0 [] t
    else completeOk tag { t with nv := { t.nv with ctrls := SMap.put t.nv.ctrls cntlid { y with online := false, rdy := false } } }) s

/-- Row SECONDARY_CONTROLLER_ONLINE: its CSTS.RDY follows CC.EN again. -/
def execSecondaryControllerOnline (tag cntlid : Nat) (s : State) : Out :=
  secondaryRow tag cntlid (fun _ y t =>
    completeOk tag { t with nv := { t.nv with ctrls := SMap.put t.nv.ctrls cntlid { y with online := true } } }) s

end Sys2Proof.Machine
end

