-- ==== Sys2Proof/Machine/HostIdent.lean ====
section
/-! DEFINITION. Row IDENTIFY (R63, R85, R89, R90, R115–R119, R370, R446). Offsets are those of NVM Express; fields the manual does not
state are free. -/

namespace Sys2Proof.Machine

/-- Some bits of a byte-wide or wider field over what is there: offset, width, mask and value. -/
def withMasked (page : List Byte) (fs : List (Nat × Nat × Nat × Nat)) : List Byte :=
  fs.foldl (fun l f =>
    let old := leVal ((l.drop f.1).take f.2.1)
    let keep := (List.range (8 * f.2.1)).foldl (fun v i => if f.2.2.1 / 2 ^ i % 2 = 0 ∧ old / 2 ^ i % 2 = 1 then v + 2 ^ i else v) 0
    putBytes l f.1 (leBytes f.2.1 (keep + f.2.2.2))) page

/-- Power state descriptors (R63): maximum power in 0.01 W, non-operational, entry and exit latency. -/
def powerDescriptors : List (Nat × Nat × Nat × Nat) :=
  [(12500, 0, 1000, 1000), (7000, 0, 1000, 1000), (4500, 0, 1000, 1000), (1100, 2, 35000, 2000), (320, 2, 300000, 450000)]

/-- Largest data transfer, as MDTS gives it. -/
def mdts : Nat := 9

/-- Admin commands beyond the mandatory ones, as OACS shows them: Format, Firmware, Namespace Management, Device Self-test, NVMe-MI and
Virtualization Management; a fabric controller supports NVMe-MI alone of these (R428). -/
def oacs (fabric : Bool) : Nat := if fabric then 64 else 2 + 4 + 8 + 16 + 64 + 128

/-- Optional NVM commands: Compare, Dataset Management, Write Zeroes, Save and Select, Reservations, Verify, Copy. -/
def oncs : Nat := 1 + 4 + 8 + 16 + 32 + 128 + 256

/-- Identify Controller. -/
def identifyController (c : Nat) (x : Ctrl) (s : State) : List Byte :=
  let disc := x.fabric && decide (0x200 ≤ c)
  let page := withFields (freeBytes 4096 s) ([(77, 1, mdts), (78, 2, c), (80, 4, 0x00020100), (84, 4, 1000000), (88, 4, 1400000),
    (111, 1, if disc then 2 else 1), (256, 2, oacs x.fabric), (258, 1, 7), (259, 1, 15), (260, 1, 3 * 2 + 16), (262, 1, 63), (263, 1, 4),
    (265, 1, 1), (270, 2, 1), (280, 16, userIus s * 16384), (296, 16, (userIus s - sharesUsed s) * 16384), (328, 4, 3 + 2 ^ 29),
    (516, 4, 2048), (520, 2, oncs), (522, 2, 1), (525, 1, 0), (526, 2, 31), (528, 2, 31), (532, 2, 31), (540, 4, 1024)] ++
    (if x.fabric then [(1792, 4, 516)] else []) ++
    (powerDescriptors.zip (List.range 5)).flatMap (fun p => shiftFields (2048 + 32 * p.2)
      [(0, 2, p.1.1), (3, 1, p.1.2.1), (4, 4, p.1.2.2.1), (8, 4, p.1.2.2.2)]))
  withMasked page [(261, 1, 0x09, 0x08), (92, 4, 0x100, 0x100)]

/-- Relative performance of an LBA format (R115). -/
def formatRp (i : Nat) : Nat := ([2, 2, 3, 0, 0, 1] : List Nat).getD i 0

/-- An entry of the LBA format list: metadata size, log2 of the data size, relative performance. -/
def lbaFormat (i : Nat) : List (Nat × Nat × Nat) := [(0, 2, ([0, 8, 16] : List Nat).getD (i % 3) 0), (2, 1, if i < 3 then 9 else 12), (3, 1, formatRp i)]

/-- Identify Namespace of an NVM namespace (R90, R114–R119). -/
def identifyNvm (nsid : Nat) (n : Ns) (s : State) : List Byte :=
  let u := lbasPerIu n.flbas - 1
  let nows := if n.flbas < 3 then 991 else 123
  withFields (freeBytes 4096 s) ([(0, 8, n.nsze), (8, 8, n.ncap), (16, 8, nsStored nsid s / lbaBytes n.flbas), (25, 1, 5),
    (26, 1, n.flbas + (if n.ext then 16 else 0)), (27, 1, 3), (28, 1, 1 + 4 + 16), (29, 1, n.dps), (30, 1, if n.shared then 1 else 0), (31, 1, 0x7F),
    (33, 1, 0x19), (34, 2, u), (36, 2, u), (38, 2, u), (40, 2, u), (42, 2, 0), (44, 2, u), (48, 16, n.ncap / lbasPerIu n.flbas * 16384),
    (64, 2, u), (66, 2, u), (68, 2, u), (70, 2, u), (72, 2, nows), (74, 2, 2097152 / lbaBytes n.flbas), (76, 4, 2097152 / lbaBytes n.flbas),
    (80, 1, 127), (3072, 4, n.options)] ++ (List.range 6).flatMap (fun i => shiftFields (128 + 4 * i) (lbaFormat i)))

/-- Identify Namespace of a memory namespace: its size in bytes (R369). -/
def identifyMemory (n : Ns) (s : State) : List Byte := withFields (freeBytes 4096 s) [(0, 8, n.nsze), (8, 8, n.nsze)]

/-- Identify Namespace of a compute namespace (R370): compute engines, program slots, range sets, ranges of a set, and the one
downloadable program type. -/
def identifyCompute (s : State) : List Byte :=
  withFields (freeBytes 4096 s) [(0, 2, 1), (2, 2, 16), (4, 2, 16), (6, 2, 32), (8, 2, 1), (10, 1, 0xC1)]

/-- A list of identifiers, `w` bytes each, in a page of 4,096 bytes. -/
def idList (w : Nat) (ids : List Nat) : List Byte := layout 4096 ((ids.zip (List.range (4096 / w))).map (fun p => (w * p.2, w, p.1)))

/-- A controller list: count, then identifiers. -/
def ctrlList (ids : List Nat) : List Byte :=
  layout 4096 ((0, 2, ids.length) :: (ids.zip (List.range 2047)).map (fun p => (2 + 2 * p.2, 2, p.1)))

/-- The controllers of the module from an identifier on. -/
def ctrlsFrom (c : Nat) (s : State) : List Nat :=
  ((List.range 128).map (fun f => cntlidOf f s) ++ ((s.nv.ctrls.filter (fun e => e.2.fabric)).map (·.1))).filter (fun i => decide (c ≤ i))

/-- Secondary controller list of a primary controller: identifiers, primary, state (online) and number of the virtual function. -/
def secondaryList (c from_ : Nat) (x : Ctrl) (s : State) : List Byte :=
  let fs := (List.range 128).filter (fun f => !isPhysical f s && (!s.nv.dual || f / 64 == x.func / 64) && decide (from_ ≤ cntlidOf f s))
  layout 4096 ((0, 1, fs.length) :: (fs.zip (List.range 127)).flatMap (fun p => shiftFields (32 + 32 * p.2)
    [(0, 2, cntlidOf p.1 s), (2, 2, c), (4, 1, if (ctrlAt (cntlidOf p.1 s) s).all (·.online) then 1 else 0), (8, 2, p.1 % 128)]))

/-- A namespace that a command set serves. -/
def nsIs (csi : Nat) (e : Nat × Ns) : Bool := e.2.csi == csi

/-- The answer of Identify: structure `cns`, controller identifier and command set of the command. -/
def identify (cns cntid csi : Nat) (x : Cmd) (c : Ctrl) (s : State) : State :=
  let used (t : State) : State := { t with free := t.free + 4096 }
  let give (d : List Byte) : State := completeData x.tag d (used s)
  let seen (p : Nat × Ns → Bool) : List Nat := ((s.nv.ns.filter (fun e => sees e.2 x.ctrl s && p e && decide (x.nsid < e.1))).map (·.1)).take 1024
  let ofNs (n : Ns) : List Byte := if n.csi = 3 then identifyMemory n s else if n.csi = 4 then identifyCompute s else identifyNvm x.nsid n s
  let zeros := List.replicate 4096 (0 : Byte)
  let badNs := complete x.tag 0 0x0B true 0 [] s
  match cns with
  | 0x00 =>
    match nsAt x.nsid s with
    | some n => if n.csi ≠ 0 then complete x.tag 0 0x0B true 0 [] s else give (if sees n x.ctrl s then identifyNvm x.nsid n s else zeros)
    | none => if x.nsid = 0 ∨ 2048 < x.nsid then badNs else give zeros
  | 0x01 => give (identifyController x.ctrl c s)
  | 0x02 => if 0xFFFFFFFE ≤ x.nsid then badNs else give (idList 4 (seen (fun _ => true)))
  | 0x03 =>
    match nsAt x.nsid s with
    | some n => if sees n x.ctrl s then give (withFields zeros [(0, 1, 4), (1, 1, 1), (4, 1, n.csi)]) else badNs
    | none => badNs
  | 0x05 | 0x08 =>
    match nsAt x.nsid s with
    | some n => if cns = 0x05 ∧ n.csi ≠ csi then invalidField x.tag s else give (if sees n x.ctrl s then ofNs n else zeros)
    | none => badNs
  | 0x06 => if csi = 0 ∨ csi = 3 ∨ csi = 4 then give (freeBytes 4096 s) else invalidField x.tag s
  | 0x07 => if csi = 0 ∨ csi = 3 ∨ csi = 4 then give (idList 4 (seen (nsIs csi))) else invalidField x.tag s
  | 0x10 => give (idList 4 (((s.nv.ns.filter (fun e => decide (x.nsid < e.1))).map (·.1)).take 1024))
  | 0x11 =>
    match nsAt x.nsid s with
    | some n => give (ofNs n)
    | none => if x.nsid = 0 ∨ 2048 < x.nsid then badNs else give zeros
  | 0x12 =>
    match nsAt x.nsid s with
    | some n => give (ctrlList (n.attached.filter (fun i => decide (cntid ≤ i))))
    | none => badNs
  | 0x13 => give (ctrlList (ctrlsFrom cntid s))
  | 0x14 => if c.pf then give (withFields (freeBytes 4096 s) [(0, 2, x.ctrl), (4, 1, 0)]) else invalidField x.tag s
  | 0x15 => if c.pf then give (secondaryList x.ctrl cntid c s) else invalidField x.tag s
  | 0x1C => give (layout 4096 [(0, 8, 1 + 8 + 16)])
  | _ => invalidField x.tag s

/-- Row IDENTIFY. -/
def execIdentify (tag cns cntid csi : Nat) (s : State) : Out := adminRow tag (identify cns cntid csi) s

end Sys2Proof.Machine
end

