-- ==== Sys2Proof/Machine/FwRows.lean ====
section
/-! DEFINITION. Firmware components: rows FIRMWARE_DOWNLOAD, FIRMWARE_COMMIT, CONTROL_FIRMWARE_HANDOVER, MICROCODE_SWITCH,
RUNTIME_UPDATE_GRACE_EXPIRY, MANAGEMENT_FIRMWARE_SWITCH and NETWORK_FIRMWARE_SWITCH, and what the PLDM update rows share (R108, R174,
R303, R484–R490). -/

namespace Sys2Proof.Machine

/-! ### Images and slots (R485, R486) -/

/-- Highest generation an image may have. -/
def genMax : Nat := 0xFFFFFFFF

/-- An image is written into slot `k` of its component, with the next generation. -/
def writeImage (k : Nat) (i : FwImage) (s : State) : State :=
  setFw i.comp (fun f => { f with slots := SMap.put f.slots k ⟨i.version % 2 ^ 64, fwTop i.comp s + 1, 1⟩ }) s

/-- Slot `k` of component `c` is active at the next Rise. -/
def markNext (k c : Nat) (s : State) : State := setFw c (fun f => { f with next := k }) s

/-- Slot `k` of component `c` holds a valid image. -/
def slotValid (k c : Nat) (s : State) : Bool := (fwSlot c k s).state == 1

/-- The order of live activation (R488). -/
def activationOrder : List Nat := [4, 5, 3, 2, 1]

/-- Live activation of slots of components begins; `tag` waits for it. -/
def startActivation (slots : SMap Nat) (tag : Option Nat) (src : Nat) (s : State) : State :=
  updNext 6 (setUpd 3 0 src (setMgt (fun m => { m with upd := { m.upd with
    todo := activationOrder.filter (fun c => (SMap.find slots c).isSome), slots := slots, tag := tag, switching := false } }) s))

/-- A Firmware Download or Commit meets another update: one over PLDM, or one that is past receiving (R486). -/
def otherUpdate (s : State) : Bool :=
  (fget Fl.MGT_UPD_STATE s == 1 && fget Fl.MGT_UPD_SOURCE s == 1) || decide (2 ≤ fget Fl.MGT_UPD_STATE s)

/-- Modes in which Firmware Commit is prohibited: Commit, Sanitize, Read-Only and Halt (R486). -/
def commitProhibited (s : State) : Bool := [8, 9, 10, 11].contains (mode s)

/-! ### NVMe -/

/-- Row FIRMWARE_DOWNLOAD: a piece of `dwords` at dword offset `off`, within MDTS; pieces that overlap are refused as NVMe defines. -/
def execFirmwareDownload (tag off dwords : Nat) (s : State) : Out :=
  pcieRow tag (fun x _ => unlessSanitize tag (fun t =>
    if dwords = 0 ∨ 0x200000 < 4 * dwords then invalidField x.tag t
    else if otherUpdate t then complete x.tag 1 0x13 true 0 [] t
    else if t.mgt.pieces.any (fun p => decide (off < p.1 + p.2) && decide (p.1 < off + dwords)) then complete x.tag 1 0x14 true 0 [] t
    else completeOk x.tag (setUpd 1 0 0 (setMgt (fun m => { m with pieces := m.pieces ++ [(off, dwords)] }) t)))) s

/-- Firmware Commit with CA 0–3 on the images of the downloaded package (R486). -/
def firmwareCommit (tag fs ca : Nat) (images : List FwImage) (s : State) : State :=
  let k := fs - 1
  let bad (sc : Nat) : State := complete tag 1 sc true 0 [] s
  let done (t : State) : State := completeOk tag (updEnd 0 t)
  let comps := if images.isEmpty then [1, 2, 3, 4, 5].filter (fun c => slotValid k c s) else images.map (·.comp)
  let wrote := setUpd 2 0 0 (forEach (writeImage k) images s)
  if 3 < ca then invalidField tag s
  else if otherUpdate s || commitProhibited s then bad 0x13
  else if fs = 0 ∧ ca = 3 then
    (let cs := activationOrder.filter (fun c => (fwAt c s).next != (fwAt c s).active && slotValid (fwAt c s).next c s)
     startActivation (cs.foldl (fun m c => SMap.put m c (fwAt c s).next) []) (some tag) 0 s)
  else if fs = 0 ∨ 3 < fs then bad 0x06
  else if comps.any (fun c => (fwAt c s).active == k) && !(ca == 2 && images.isEmpty) then bad 0x06
  else if ca = 2 then
    (if comps.isEmpty || comps.any (fun c => !slotValid k c s) then bad 0x06
     else done (forEach (markNext k) comps s))
  else if images.isEmpty || images.any (fun i => !i.good || decide (i.comp = 0) || decide (5 < i.comp)) then
    (setMgt (fun m => { m with upd := { m.upd with last := 1 }, pieces := [] }) (setUpd 0 0 0 (bad 0x07)))
  else if images.any (fun i => decide (genMax ≤ fwTop i.comp s)) then bad 0x13
  else if ca = 0 then done wrote
  else if ca = 1 then done (forEach (markNext k) comps wrote)
  else startActivation (comps.foldl (fun m c => SMap.put m c k) []) (some tag) 0 wrote

/-- Row FIRMWARE_COMMIT: slot FS, action CA, and the component images of the package downloaded before. -/
def execFirmwareCommit (tag fs ca : Nat) (images : List FwImage) (s : State) : Out :=
  pcieRow tag (fun x _ t => firmwareCommit x.tag fs ca images t) s

/-! ### Resets that waited for a component (R108, R488) -/

/-- The rest of a package is abandoned. -/
def abandonUpdate (s : State) : State := if activating s then updEnd 3 s else s

/-- A waiting Firmware Commit whose command is gone waits no more. -/
def dropCommitTag (s : State) : State :=
  match s.mgt.upd.tag with
  | none => s
  | some t => if (cmdAt t s).isSome then s else setMgt (fun m => { m with upd := { m.upd with tag := none } }) s

/-- One reset that waited. -/
def lateReset (r : LateReset) (s : State) : State :=
  match r with
  | .module _ | .subsystem _ | .port _ => resumeReset r (abandonUpdate s)
  | .ctrl _ | .flr _ | .cluster _ _ | .channel _ _ _ | .debug _ => dropCommitTag (resumeReset r s)

/-- Once a component has ended, the resets that waited for it proceed. `before` is the state in which it was in progress. -/
def runLate (before s : State) : State :=
  if s.mgt.late.isEmpty || decide (before.mgt.upd.todo.length ≤ s.mgt.upd.todo.length) then s
  else forEach lateReset s.mgt.late (setMgt (fun m => { m with late := [] }) s)

/-- A unit of component `c` runs its new image, or has gone back to the old one. -/
def unitEnds (c unit : Nat) (ok : Bool) (s : State) : State := runLate s (unitActivated c unit ok s)

/-! ### Switches -/

/-- Component `c` is the one to switch now. -/
def switchDue (c : Nat) (s : State) : Bool := s.mgt.upd.todo.head? == some c

/-- A switch in two steps: `none` begins it, `some ok` ends it. -/
def twoStep (c : Nat) (ended : Option Bool) (start : State → State) (stop : Bool → State → State) (s : State) : Out :=
  let on (b : Bool) (t : State) : State := setMgt (fun m => { m with upd := { m.upd with switching := b } }) t
  match ended with
  | none => if switchDue c s && !s.mgt.upd.switching then .next (start (on true s)) else .next s
  | some ok => if switchDue c s && s.mgt.upd.switching then .next (unitEnds c 0 ok (stop ok (on false s))) else .next s

/-- A spare takes the work of a retired control core at the handover: the letter that its port holds is ready again (R16). -/
def spareTakes (s : State) : State :=
  forN (fun k t =>
    if fget ⟨Reg.CTC_CORE_RETIRED, k, 1⟩ t = 0 then t
    else match heldBy (64 + k) t with
      | none => t
      | some l => showSch (updSch (fun z => { z with holds := SMap.del z.holds (64 + k) }) (setLetter { l with state := .ready, port := none } t)))
    12 s

/-- Row CONTROL_FIRMWARE_HANDOVER (R108): fetching is held on every controller; it resumes under the new image, or under the old one
when the new one fails its start check. Spares then take the work of retired cores (R16). -/
def execControlFirmwareHandover (ended : Option Bool) (s : State) : Out :=
  let hold (v : Nat) (t : State) : State := t |> fset Fl.HIF_FETCH_CTRL_HOLD v |> fset Fl.HIF_FETCH_CTRL_HELD v
  twoStep 2 ended (hold 1) (fun _ t => spareTakes (hold 0 t)) s

/-- Row MANAGEMENT_FIRMWARE_SWITCH (R489): the core resets into the new bank and letterbox requests wait; an image that does not run
within 20 ms gives way to the old one. -/
def execManagementFirmwareSwitch (ended : Option Bool) (s : State) : Out :=
  twoStep 1 ended (fun t => setPaused true (coreReset 76 t)) (fun ok t => setPaused false (if ok then t else coreReset 76 t)) s

/-- Row NETWORK_FIRMWARE_SWITCH (R490): keep-alive timers stand while the engine switches. -/
def execNetworkFirmwareSwitch (ended : Option Bool) (s : State) : Out :=
  let set (b : Bool) (t : State) : State := updNet (fun n => { n with switching := b }) t
  twoStep 5 ended (set true) (fun _ => set false) s

/-- Row MICROCODE_SWITCH (R174): the next step of the next channel of a live activation, in rolling order, with the version it reads and the result of its self-test. -/
def execMicrocodeSwitch (chan version : Nat) (ok : Bool) (s : State) : Out :=
  if switchDue 4 s && s.mgt.upd.units.head? == some chan then .next (runLate s (microcodeSwitch chan version ok s)) else .next s

/-- Row RUNTIME_UPDATE_GRACE_EXPIRY (R303). -/
def execRuntimeUpdateGraceExpiry (n version : Nat) (startOk selfTest : Bool) (s : State) : Out :=
  .next (runLate s (graceExpiry n version startOk selfTest s))

end Sys2Proof.Machine
end

