-- ==== Sys2Proof/Machine/MgtRows.lean ====
section
/-! DEFINITION. Sensors, caps, the I3C target, MCTP, NVMe-MI and PLDM: rows NVME_MI_SEND, NVME_MI_RECEIVE, SENSOR_READ to
ACTIVATE_FIRMWARE, PLATFORM_EVENT_MESSAGE and UPDATE_COMPONENT (R462–R472, R487, R503). -/

namespace Sys2Proof.Machine

/-! ### Sensors and thermal level (R462, R463) -/

/-- Row SENSOR_READ: sensor `i` reads `t16`, 1/16 °C in 16 bits, 0x8000 for absent (R462). -/
def execSensorRead (i t16 : Nat) (s : State) : Out :=
  if !pdOn 1 s || !hasSensor i s then .next s else .next (sensorReads i t16 s)

/-- Baseplate threshold T1–T3 of feature 0xC3, °C; level `l` is 1–3. -/
def baseThreshold (l : Nat) (s : State) : Nat := featureValue 0xC3 s / 256 ^ (l - 1) % 256

/-- Fixed junction thresholds, °C. -/
def junctionThreshold (l : Nat) : Nat := if l = 1 then 105 else if l = 2 then 115 else 120

/-- A sensor exceeds a number of whole degrees, which is how a threshold is reached (R535). -/
def hotAt (i deg : Nat) (s : State) : Bool :=
  match sensorTemp i s with
  | some t => decide ((16 * deg : Int) < t)
  | none => false

/-- A sensor is below a number of whole degrees; one that has no reading holds no level up. -/
def coolAt (i deg : Nat) (s : State) : Bool :=
  match sensorTemp i s with
  | some t => decide (t < (16 * deg : Int))
  | none => true

/-- The conditions of level `l` that hold. -/
def baseHot (l : Nat) (s : State) : Bool := hotAt 0 (baseThreshold l s) s
def junctionHot (l : Nat) (s : State) : Bool := hotAt 1 (junctionThreshold l) s
def levelHolds (l : Nat) (s : State) : Bool := baseHot l s || junctionHot l s

/-- Every condition of level `l` is below its threshold less HYST (R463). -/
def levelCool (l hyst : Nat) (s : State) : Bool := coolAt 0 (baseThreshold l s - hyst) s && coolAt 1 (junctionThreshold l - hyst) s

/-- The highest level whose condition holds. -/
def wantedLevel (s : State) : Nat := if levelHolds 3 s then 3 else if levelHolds 2 s then 2 else if levelHolds 1 s then 1 else 0

/-- The thermal level changes: a postmark, the cap, and on a rise from level 0 the temperature alarm of R66. -/
def setLevel (new sensor : Nat) (s : State) : State :=
  let old := fget Fl.MGT_THERM_LEVEL s
  let s1 := postmark 0x1281 0x12 [old, new, sensor] (fset Fl.MGT_THERM_LEVEL new s)
  let s2 := if old < new then setMgt (fun m => { m with rises := m.rises + 1 }) s1 else s1
  applyPowerState (if old = 0 then wakeBy 9 s2 else s2)

/-- Row THERMAL_EVALUATION, every 100 ms (R463). `cool`: the level has held 10 s and every condition of it has been below its
threshold less HYST for the last 10 s. Which sensor let the level fall is not stated: a free value. -/
def execThermalEvaluation (cool : Bool) (s : State) : Out :=
  if !pdOn 1 s then .next s
  else
    let cur := fget Fl.MGT_THERM_LEVEL s
    let want := wantedLevel s
    let hyst := featureValue 0xC3 s / 2 ^ 24 % 16
    let s1 := setMgt (fun m => { m with tenths := SMap.put m.tenths cur (SMap.getD m.tenths cur 0 + 1) }) s
    let b (p : Bool) : Nat := if p then 1 else 0
    let s2 := s1 |> fset Fl.MGT_THERM_BY_BASE (b (baseHot 1 s)) |> fset Fl.MGT_THERM_BY_JUNCTION (b (junctionHot 1 s))
    if cur < want then .next (judgeTemp (setLevel want (if baseHot want s then 0 else 1) s2))
    else if cool ∧ want < cur ∧ levelCool cur hyst s = true then .next (judgeTemp (setLevel (cur - 1) (freeNat 1 s2) (useFree s2)))
    else .next (judgeTemp s2)

/-! ### Caps (R464) -/

/-- Budgets of the working channels. -/
def budgetOf (n : Nat) (s : State) : Nat := fget (Fl.CHE_GOV_CFG_BUDGET n) s

/-- Channels whose budget can be lowered further. -/
def lowerable (s : State) : List Nat := (List.range 32).filter (fun n => chanUp n s && decide (320 < budgetOf n s))

/-- One step down: compute dispatch, then channel budgets, then command fetch. -/
def lowerLimit (s : State) : State :=
  if 1 < s.mgt.capCores then setMgt (fun m => { m with capCores := m.capCores - 1 }) s
  else if (lowerable s).isEmpty then setMgt (fun m => { m with fetchSteps := m.fetchSteps + 1 }) s
  else forEach (fun n t =>
      let v := budgetOf n t
      let t1 := if (SMap.find t.mgt.budgets n).isSome then t else setMgt (fun m => { m with budgets := SMap.put m.budgets n v }) t
      fset (Fl.CHE_GOV_CFG_BUDGET n) (max 320 (v - 40)) t1) (lowerable s) s

/-- One step up, in the reverse order. -/
def raiseLimit (s : State) : State :=
  if 0 < s.mgt.fetchSteps then setMgt (fun m => { m with fetchSteps := m.fetchSteps - 1 }) s
  else if !s.mgt.budgets.isEmpty then forEach (fun e t =>
      let v := min e.2 (budgetOf e.1 t + 40)
      let t1 := fset (Fl.CHE_GOV_CFG_BUDGET e.1) v t
      if v = e.2 then setMgt (fun m => { m with budgets := SMap.del m.budgets e.1 }) t1 else t1) s.mgt.budgets s
  else if s.mgt.capCores < 8 then setMgt (fun m => { m with capCores := m.capCores + 1 }) s
  else s

/-- Row CAP_CONTROL, every 10 ms: input power in 10 mW, an open reading (log entry 11), against the cap in watts. -/
def execCapControl (s : State) : Out :=
  let cap := capNow s
  let input := freeNat 16 s
  let s1 := useFree s
  if !pdOn 1 s then .next s
  else if cap ≠ 0 ∧ cap * 100 < input then .next (lowerLimit s1)
  else if cap = 0 ∨ input * 100 ≤ cap * 100 * 95 then .next (raiseLimit s1)
  else .next s1

/-! ### I3C common commands (R467–R470) -/

/-- The I3C target is powered; a command reaches it as a broadcast (`none`) or at its dynamic address. -/
def i3cHears (addr : Option Nat) (s : State) : Bool :=
  pdOn 1 s && (match addr with
    | none => true
    | some a => fget Fl.MGT_I3C_DA_VALID s == 1 && fget Fl.MGT_I3C_DA s == a)

/-- A common command that the target acts on. -/
def cccRow (addr : Option Nat) (run : State → State) (s : State) : Out := if i3cHears addr s then .next (run s) else .next s

/-- What a GET command returns. -/
def cccAnswer (bs : List Byte) (s : State) : State := setMgt (fun m => { m with answer := bs }) s

/-- A dynamic address is assigned. -/
def setDa (a : Nat) (s : State) : State :=
  setMgt (fun m => { m with hotJoin := false }) (s |> fset Fl.MGT_I3C_DA a |> fset Fl.MGT_I3C_DA_VALID 1)

/-- The target has no dynamic address. -/
def noDa (s : State) : Bool := fget Fl.MGT_I3C_DA_VALID s == 0

/-- Event bits of ENEC and DISEC: bit 0 in-band interrupts, bit 3 Hot-Join. -/
def setEvents (events v : Nat) (s : State) : State :=
  let s1 := if events % 2 = 1 then fset Fl.MGT_I3C_IBI_EN v s else s
  if events / 8 % 2 = 1 then fset Fl.MGT_I3C_HJ_EN v s1 else s1

/-- Row ENEC: with messages waiting, interrupts newly enabled are raised. -/
def execEnec (addr : Option Nat) (events : Nat) (s : State) : Out :=
  cccRow addr (fun t =>
    let u := setEvents events 1 t
    if fget Fl.MGT_I3C_IBI_EN t = 0 ∧ fget Fl.MGT_I3C_IBI_EN u = 1 ∧ u.mgt.outbox.isEmpty = false then raiseIbi u else u) s
/-- Row DISEC. -/
def execDisec (addr : Option Nat) (events : Nat) (s : State) : Out := cccRow addr (setEvents events 0) s
/-- Row RSTDAA: dynamic address and endpoint ID are lost (R468). -/
def execRstdaa (s : State) : Out :=
  cccRow none (fun t => t |> fset Fl.MGT_I3C_DA 0 |> fset Fl.MGT_I3C_DA_VALID 0 |> fset Fl.MGT_I3C_EID 0) s

/-- The provisional ID (R467). -/
def pid : Nat := 0x0A5C * 2 ^ 33 + 0x7440 * 2 ^ 16 + Config.serialNumber % 2 ^ 12

/-- Row ENTDAA: without a dynamic address the target sends its PID, BCR and DCR and takes the address. -/
def execEntdaa (a : Nat) (s : State) : Out :=
  cccRow none (fun t => if noDa t then setDa a (cccAnswer (beBytes 6 pid ++ [0x06, 0x00]) t) else t) s
/-- Row SETDASA: at static address 0x1D. -/
def execSetdasa (static a : Nat) (s : State) : Out := cccRow none (fun t => if noDa t ∧ static = 0x1D then setDa a t else t) s
/-- Row SETNEWDA. -/
def execSetnewda (old a : Nat) (s : State) : Out := cccRow (some old) (setDa a) s

/-- Lengths that give a transmission unit the module carries (R470). -/
def lengthOk (n : Nat) : Bool := decide (64 ≤ n) && decide (n ≤ 256)

/-- Row SETMWL. -/
def execSetmwl (addr : Option Nat) (n : Nat) (s : State) : Out :=
  cccRow addr (fun t => if lengthOk n then setMgt (fun m => { m with mwl := n }) t else t) s
/-- Row SETMRL. -/
def execSetmrl (addr : Option Nat) (n : Nat) (s : State) : Out :=
  cccRow addr (fun t => if lengthOk n then setMgt (fun m => { m with mrl := n }) t else t) s
/-- Row GETMWL. -/
def execGetmwl (addr : Nat) (s : State) : Out := cccRow (some addr) (fun t => cccAnswer (beBytes 2 t.mgt.mwl) t) s
/-- Row GETMRL: the length of the interrupt payload, which the target also returns, is free. -/
def execGetmrl (addr : Nat) (s : State) : Out :=
  cccRow (some addr) (fun t => useFree (cccAnswer (beBytes 2 t.mgt.mrl ++ beBytes 1 (freeNat 8 t)) t)) s
/-- Row GETPID. -/
def execGetpid (addr : Nat) (s : State) : Out := cccRow (some addr) (cccAnswer (beBytes 6 pid)) s
/-- Row GETBCR. -/
def execGetbcr (addr : Nat) (s : State) : Out := cccRow (some addr) (cccAnswer [0x06]) s
/-- Row GETDCR. -/
def execGetdcr (addr : Nat) (s : State) : Out := cccRow (some addr) (cccAnswer [0x00]) s
/-- Row GETSTATUS: a pending interrupt is reported while messages wait (R469). -/
def execGetstatus (addr : Nat) (s : State) : Out :=
  cccRow (some addr) (fun t => cccAnswer (beBytes 2 (if t.mgt.outbox.isEmpty then 0 else 1)) t) s
/-- Row RSTACT. -/
def execRstact (addr : Option Nat) (action : Nat) (s : State) : Out :=
  cccRow addr (setMgt (fun m => { m with rstact := action % 256 })) s

/-- Row HOT_JOIN: the target without a dynamic address asks to join, unless disabled (R468). -/
def execHotJoin (s : State) : Out :=
  if pdOn 1 s ∧ noDa s ∧ fget Fl.MGT_I3C_HJ_EN s = 1 then .next (setMgt (fun m => { m with hotJoin := true }) s) else .next s

/-- Row IBI_DEFER_EXPIRY: the next permitted moment of a deferred in-band interrupt (R469). -/
def execIbiDeferExpiry (s : State) : Out :=
  if pdOn 1 s ∧ 0 < s.mgt.ibiWait ∧ (recentIbis s).length < 100 ∧ fget Fl.MGT_I3C_IBI_EN s = 1 then
    .next (sendIbi (setMgt (fun m => { m with ibiWait := m.ibiWait - 1 }) s))
  else .next s

/-! ### MCTP (R470) -/

/-- MCTP requests are served: the target has an address, the module is in Watch or above, and management firmware is neither between its
images (R489) nor stopped with its core (R508). -/
def mctpServed (s : State) : Bool :=
  pdOn 1 s && !noDa s && decide (2 ≤ mode s) && !coreHalted 76 s && !(switchDue 1 s && s.mgt.upd.switching)

/-- An MCTP request: it wakes the module, `serve` answers with the message and the state; after a reset of management nothing answers. -/
def mctpRow (serve : State → List Byte × State) (s : State) : Out :=
  if mctpServed s then
    let r := serve (wakeBy 7 s)
    .next (if pdOn 1 r.2 then replyMctp r.1 r.2 else r.2)
  else .next s

/-- Row SET_ENDPOINT_ID: MCTP control. -/
def execSetEndpointId (eid : Nat) (s : State) : Out :=
  mctpRow (fun t => if 8 ≤ eid ∧ eid < 255 then ([0, 0, 0, BitVec.ofNat 8 eid, 0], fset Fl.MGT_I3C_EID eid t) else ([0, 2], t)) s

/-! ### NVMe-MI (R471) -/

/-- NVMe-MI status Invalid Parameter. -/
def miInvalid : Nat := 0x04

/-- Controllers of physical functions. -/
def pfControllers (s : State) : List (Nat × Ctrl) := s.nv.ctrls.filter (fun e => e.2.pf && !e.2.fabric)

/-- Composite Temperature as the health polls give it: whole degrees, 0x80 for none. -/
def pollTemp (s : State) : Nat := match sensorTemp 0 s with | some t => degreeByte t | none => 0x80

/-- Serves an NVMe-MI request: status, response data and state. Bytes that neither the manual nor the state gives are free. -/
def miServe (r : MiReq) (s : State) : Nat × List Byte × State :=
  let free (n : Nat) (given : List (Nat × Nat × Nat)) : Nat × List Byte × State :=
    (0, withFields (freeBytes n s) given, { s with free := s.free + n })
  let ids := s.nv.ctrls.map (·.1)
  match r with
  | .structure_ dtyp =>
    if dtyp = 0 then free 32 [(1, 1, 1), (2, 1, 2)]
    else if dtyp = 2 then (0, leBytes 2 ids.length ++ ids.flatMap (leBytes 2), s)
    else if dtyp < 5 then free 32 []
    else (miInvalid, [], s)
  | .subsystem => free 8 [(1, 1, 255 - (ids.foldl (fun m c => m ||| criticalWarning c s) 0) % 256), (2, 1, pollTemp s), (3, 1, pctUsed s)]
  | .controllers first =>
    let cs := s.nv.ctrls.filter (fun e => decide (first ≤ e.1))
    (0, leBytes 1 (min 255 cs.length) ++ (cs.take 255).flatMap (fun e =>
      leBytes 2 e.1 ++ leBytes 2 ((if e.2.rdy then 1 else 0) + e.2.shst * 4) ++ leBytes 2 (sensorKelvin 0 s) ++ leBytes 1 (pctUsed s) ++
        leBytes 1 (availSpare s) ++ leBytes 1 (criticalWarning e.1 s)), s)
  | .configSet id v =>
    if id = 1 ∨ id = 2 ∨ (id = 3 ∧ 64 ≤ v ∧ v ≤ 256) then (0, [], setMgt (fun m => { m with cfg := SMap.put m.cfg id v }) s)
    else (miInvalid, [], s)
  | .configGet id => if 1 ≤ id ∧ id ≤ 3 then (0, leBytes 4 (SMap.getD s.mgt.cfg id (if id = 3 then 64 else 0)), s) else (miInvalid, [], s)
  | .vpdRead off len =>
    if off + len ≤ 256 then (0, (List.range len).map (fun i => SMap.getD s.mgt.vpd (off + i) (Config.vpdByte (off + i))), s)
    else (miInvalid, [], s)
  | .vpdWrite off data =>
    if off + data.length ≤ 256 then
      (0, [], setMgt (fun m => { m with vpd := (data.zip (List.range 256)).foldl (fun v p => SMap.put v (off + p.2) p.1) m.vpd }) s)
    else (miInvalid, [], s)
  | .reset => (0, [], nvmSubsystemReset false s)
  | .moduleReset key => if key = 0x5A then (0, [], requestModuleReset .mgmt s) else (miInvalid, [], s)
  | .watchToRise key => if key = 0x5A ∧ mode s = 2 then (0, [], requestStart s) else (miInvalid, [], s)
  | .watchToKeep key => if key = 0x5A ∧ mode s = 2 then (0, [], requestKeep s) else (miInvalid, [], s)

/-- An NVMe-MI request over MCTP. -/
def miRow (r : MiReq) (s : State) : Out :=
  mctpRow (fun t => let a := miServe r t; ([4, BitVec.ofNat 8 a.1] ++ a.2.1, a.2.2)) s

/-- Row READ_NVME_MI_DATA_STRUCTURE. -/
def execReadNvmeMiDataStructure (dtyp : Nat) (s : State) : Out := miRow (.structure_ dtyp) s
/-- Row SUBSYSTEM_HEALTH_STATUS_POLL. -/
def execSubsystemHealthStatusPoll (s : State) : Out := miRow .subsystem s
/-- Row CONTROLLER_HEALTH_STATUS_POLL. -/
def execControllerHealthStatusPoll (first : Nat) (s : State) : Out := miRow (.controllers first) s
/-- Row CONFIGURATION_SET. -/
def execConfigurationSet (id v : Nat) (s : State) : Out := miRow (.configSet id v) s
/-- Row CONFIGURATION_GET. -/
def execConfigurationGet (id : Nat) (s : State) : Out := miRow (.configGet id) s
/-- Row VPD_READ. -/
def execVpdRead (off len : Nat) (s : State) : Out := miRow (.vpdRead off len) s
/-- Row VPD_WRITE. -/
def execVpdWrite (off : Nat) (data : List Byte) (s : State) : Out := miRow (.vpdWrite off data) s
/-- Row NVME_MI_RESET. -/
def execNvmeMiReset (s : State) : Out := miRow .reset s
/-- Row MI_MODULE_RESET. -/
def execMiModuleReset (key : Nat) (s : State) : Out := miRow (.moduleReset key) s
/-- Row MI_WATCH_TO_RISE. -/
def execMiWatchToRise (key : Nat) (s : State) : Out := miRow (.watchToRise key) s
/-- Row MI_WATCH_TO_KEEP. -/
def execMiWatchToKeep (key : Nat) (s : State) : Out := miRow (.watchToKeep key) s

/-- Row TUNNELLED_ADMIN_COMMAND: a controller of a physical function takes the command as an admin command once a tag is free (R93); its
result answers. In Watch and Rise, or for another controller, Invalid Parameter. -/
def execTunnelledAdminCommand (ctrl cid nsid : Nat) (s : State) : Out :=
  if mctpServed s then
    let t := wakeBy 7 s
    if mode t = 2 ∨ mode t = 3 ∨ (pfControllers t).all (fun e => e.1 != ctrl) then .next (replyMctp [4, BitVec.ofNat 8 miInvalid] t)
    else match tagFor ctrl t with
      | none => .next (tagPause ctrl t)
      | some sh => .next (enterCmd ctrl 65535 cid .admin nsid 0 0 sh (setMgt (fun m => { m with outbox := [] }) t))
  else .next s

/-- Requests that NVMe-MI Send carries: those without response data. -/
def miSends (r : MiReq) : Bool :=
  match r with
  | .structure_ _ | .subsystem | .controllers _ | .configGet _ | .vpdRead _ _ => false
  | _ => true

/-- Row NVME_MI_SEND: the NVMe-MI status stands in completion dword 0 (R89). -/
def execNvmeMiSend (tag : Nat) (r : MiReq) (s : State) : Out :=
  adminRow tag (fun x _ t =>
    if miSends r then let a := miServe r t; completeDw x.tag a.1 a.2.2 else invalidField x.tag t) s

/-- Row NVME_MI_RECEIVE: the response data and, in dword 0, the status (R89). -/
def execNvmeMiReceive (tag : Nat) (r : MiReq) (s : State) : Out :=
  adminRow tag (fun x _ t =>
    if miSends r then invalidField x.tag t else let a := miServe r t; complete x.tag 0 0 false a.1 a.2.1 a.2.2) s

/-! ### PLDM (R472, R487, R503) -/

/-- Row SET_NUMERIC_EFFECTER_VALUE: MGT.MGMT_CAP; other values than 0 and 25–125 are refused. -/
def execSetNumericEffecterValue (w : Nat) (s : State) : Out :=
  mctpRow (fun t => if mgmtCapOk w then ([1, 0], setMgmtCap w t) else ([1, 2], t)) s

/-- Row GET_SENSOR_READING: numeric sensors 0–11, and the thermal level as state sensor 12. -/
def execGetSensorReading (i : Nat) (s : State) : Out :=
  mctpRow (fun t =>
    if i < 12 then ([1, 0] ++ leBytes 2 (fget (Fl.MGT_SENSOR_TEMP i) t), t)
    else if i = 12 then ([1, 0] ++ leBytes 1 (fget Fl.MGT_THERM_LEVEL t), t)
    else ([1, 0x80], t)) s

/-- Row REQUEST_UPDATE: ALREADY_IN_UPDATE_MODE while an update is in progress. -/
def execRequestUpdate (s : State) : Out :=
  mctpRow (fun t => if updBusy t then ([1, 0x81], t)
    else ([1, 0], setUpd 1 0 1 (setMgt (fun m => { m with upd := { Upd.idle with last := m.upd.last } }) t))) s

/-- The slot management firmware chooses for a component: neither active nor of the highest generation. -/
def pldmSlot (c : Nat) (s : State) : Nat :=
  ((List.range 3).find? (fun k => k != (fwAt c s).active && (fwSlot c k s).gen != fwTop c s)).getD 0

/-- An update over PLDM is receiving. -/
def pldmReceiving (s : State) : Bool := fget Fl.MGT_UPD_STATE s == 1 && fget Fl.MGT_UPD_SOURCE s == 1

/-- Row UPDATE_COMPONENT: an image received is verified and written, or refused with nothing written. -/
def execUpdateComponent (i : FwImage) (s : State) : Out :=
  mctpRow (fun t =>
    if !pldmReceiving t then ([1, 0x80], t)
    else if i.comp = 0 ∨ 5 < i.comp ∨ genMax ≤ fwTop i.comp t ∨ i.good = false then
      ([1, 1], setMgt (fun m => { m with upd := { m.upd with last := 1 } }) t)
    else
      let k := pldmSlot i.comp t
      ([1, 0], setMgt (fun m => { m with upd := { m.upd with slots := SMap.put m.upd.slots i.comp k } }) (writeImage k i t))) s

/-- Row ACTIVATE_FIRMWARE: self-contained activation is live while the module serves; otherwise the images are active at the next
Rise. -/
def execActivateFirmware (selfContained : Bool) (s : State) : Out :=
  mctpRow (fun t =>
    if !pldmReceiving t then ([1, 0x80], t)
    else if t.mgt.upd.slots.isEmpty then ([1, 1], updEnd 1 t)
    else if selfContained && serving t then ([1, 0], startActivation t.mgt.upd.slots none 1 t)
    else ([1, 0], updEnd 0 (forEach (fun e u => markNext e.2 e.1 u) t.mgt.upd.slots t))) s

/-- Row PLATFORM_EVENT_MESSAGE: the SEQ values of up to 16 postmarks that wait (R503). -/
def execPlatformEventMessage (s : State) : Out :=
  if mctpServed s = false ∨ s.pbk.mctpWait.isEmpty then .next s
  else
    let l := s.pbk.mctpWait.take 16
    .next (postMctp ([1] ++ leBytes 1 l.length ++ l.flatMap (leBytes 8)) { s with pbk := { s.pbk with mctpWait := s.pbk.mctpWait.drop 16 } })

end Sys2Proof.Machine
end

