-- ==== Sys2Proof/Machine/CflRows.lean ====
section
/-! DEFINITION. Config flash and the settings store: rows CFL_PROGRAM to SETTINGS_COMPACTION (R473–R483, R492). -/

namespace Sys2Proof.Machine

/-! ### Config flash (R473–R478, R492) -/

/-- Sectors of config flash, and words of a sector. -/
def cflSectors : Nat := 65536
def sectorWords : Nat := 512

/-- Bank of a sector. -/
def bankOfSector (sec : Nat) : Nat := sec / 8192

/-- An operation starts: BUSY and its bank. -/
def cflBegin (op : CflOp) (sec : Nat) (s : State) : State :=
  setMgt (fun m => { m with op := some op })
    (s |> fset Fl.CFL_STATUS_BUSY 1 |> fset Fl.CFL_STATUS_BANK (bankOfSector sec) |> fset Fl.CFL_STATUS_SUSP_COUNT 0)

/-- The result of the last command. -/
def cflResult (r : Nat) (s : State) : State := fset Fl.CFL_CMD_RESULT r s

/-- A write to CFL.CMD of the value `v`: a word's program, the erase of a sector or of an aligned group (R475, R478, R492). A sector whose
erase was cut off counts as not erased until it has been erased again in full (R476). -/
def cflCommand (v : Nat) (s : State) : State :=
  let op := v % 8
  let key := v / 256 % 256
  let word := fget Fl.CFL_ADDR_WORD s
  let sec := word / sectorWords
  if fget Fl.CFL_STATUS_BUSY s = 1 then otherPostmark 0x12 0 Reg.CFL_CMD v 492 s
  else if (op = 2 ∨ op = 3) ∧ key ≠ 0x69 then otherPostmark 0x12 0 Reg.CFL_CMD v 492 s
  else if op = 0 ∨ 3 < op then s
  else if fget Fl.CFL_STATUS_SEAL s = 1 then cflResult 3 s
  else if op = 1 then
    (if (SMap.find s.mgt.flash word).isSome || s.mgt.eraseAgain.contains sec then cflResult 1 s else cflBegin (.program word (rd Reg.CFL_DATA s)) sec s)
  else if op = 2 then cflBegin (.erase sec 1) sec s
  else if sec % 64 ≠ 0 then cflResult 4 s
  else cflBegin (.erase sec 64) sec s

/-- Agents that reach the CFL block: the management core and the debug link. -/
def cflAgent (req : Nat) : Bool := req == 0x10 || req == 0x11

/-- A command row: the agent writes ADDR and, for a program, DATA, then CMD. -/
def cflRow (addr : Nat) (data : Option Word) (v req : Nat) (s : State) : Out :=
  if !pdOn 2 s || !cflAgent req then .next (busError Reg.CFL_CMD req 4 s)
  else
    let s1 := fset Fl.CFL_ADDR_WORD (addr / 8) s
    .next (cflCommand v (match data with | some d => wr Reg.CFL_DATA d s1 | none => s1))

/-- Row CFL_PROGRAM. -/
def execCflProgram (addr : Nat) (data : Word) (req : Nat) (s : State) : Out := cflRow addr (some data) 1 req s
/-- Row CFL_ERASE_SECTOR. -/
def execCflEraseSector (addr key req : Nat) (s : State) : Out := cflRow addr none (2 + 256 * (key % 256)) req s
/-- Row CFL_ERASE_GROUP. -/
def execCflEraseGroup (addr key req : Nat) (s : State) : Out := cflRow addr none (3 + 256 * (key % 256)) req s

/-- The firmware slot (component and slot) whose region holds a sector (R474). -/
def slotOfSector (sec : Nat) : Option (Nat × Nat) :=
  let a := sec * 4096
  let hit (base size : Nat) : Option Nat := if base ≤ a ∧ a < base + 3 * size then some ((a - base) / size) else none
  match hit 0x200000 0x80000, hit 0x400000 0x400000, hit 0x1000000 0x1000000, hit 0x4000000 0x800000, hit 0x5800000 0x800000 with
  | some k, _, _, _, _ => some (4, k)
  | _, some k, _, _, _ => some (1, k)
  | _, _, some k, _, _ => some (2, k)
  | _, _, _, some k, _ => some (3, k)
  | _, _, _, _, some k => some (5, k)
  | _, _, _, _, _ => none

/-- No spare is left for a failing sector: its firmware slot, or its copy of the settings, is invalid (R477). -/
def sectorInvalid (sec : Nat) (s : State) : State :=
  match slotOfSector sec with
  | some (c, k) => setFw c (fun f => { f with slots := SMap.upd f.slots k (fun x => { x with state := 2 }) }) s
  | none =>
    let a := sec * 4096
    if 0x7000000 ≤ a ∧ a < 0x7800000 then setMgt (fun m => { m with storeA := { m.storeA with valid := false } }) s
    else if 0x7800000 ≤ a ∧ a < 0x8000000 then setMgt (fun m => { m with storeB := { m.storeB with valid := false } }) s
    else s

/-- A sector is retired: a spare takes its place and its valid words, while spares last (R477). -/
def retireSector (sec : Nat) (s : State) : State :=
  let n := fget Fl.CFL_SPARES_FREE s
  let s1 := if n = 0 then sectorInvalid sec s
    else raiseEvent 0x12 0 Fl.CFL_EVENT_RETIRED (fset Fl.CFL_SPARES_FREE (n - 1) (setMgt (fun m => { m with retired := m.retired ++ [sec] }) s))
  if n - 1 < 64 then raiseEvent 0x12 0 Fl.CFL_EVENT_SPARES_LOW s1 else s1

/-- The words of `count` sectors from `sec` are erased. -/
def eraseWords (sec count : Nat) (s : State) : State :=
  setMgt (fun m => { m with
    flash := m.flash.filter (fun e => !(decide (sec * sectorWords ≤ e.1) && decide (e.1 < (sec + count) * sectorWords)))
    eraseAgain := m.eraseAgain.filter (fun x => !(decide (sec ≤ x) && decide (x < sec + count))) }) s

/-- Row CFL_OPERATION_DONE: the operation under way ends; `bad` are the sectors that failed read-back or their blank check. -/
def execCflOperationDone (bad : List Nat) (s : State) : Out :=
  let free (t : State) : State := setMgt (fun m => { m with op := none }) (t |> fset Fl.CFL_STATUS_BUSY 0 |> fset Fl.CFL_STATUS_SUSPENDED 0)
  match s.mgt.op with
  | none => .next s
  | some (.program w d) =>
    let sec := w / sectorWords
    let s1 := free s
    if bad.contains sec then .next (cflResult 2 (retireSector sec (raiseEvent 0x12 0 Fl.CFL_EVENT_PROG_FAIL s1)))
    else .next (cflResult 0 (setMgt (fun m => { m with flash := SMap.put m.flash w d }) s1))
  | some (.erase sec count) =>
    let s1 := cntAdd Reg.CFL_CNT_ERASE 32 count (eraseWords sec count (free s))
    let failed := ((List.range count).map (fun i => sec + i)).filter (fun x => bad.contains x)
    if failed.isEmpty then .next (cflResult 0 s1)
    else .next (cflResult 2 (forEach (fun x t => retireSector x (raiseEvent 0x12 0 Fl.CFL_EVENT_ERASE_FAIL t)) failed s1))

/-- The word at a byte offset of config flash; what the model does not hold there, and what stands in a sector whose erase was cut off, is
free. -/
def flashWord (addr : Nat) (s : State) : Word :=
  if s.mgt.eraseAgain.contains (addr / 4096) then Config.freeValue s.free
  else SMap.getD s.mgt.flash (addr / 8) (Config.freeValue s.free)

/-- The data of a read, with what the check bits find (R473, R477). -/
def cflReadData (addr : Nat) (res : MemRes) (req : Nat) (s : State) : State :=
  let got (t : State) : State := useFree (setMgt (fun m => { m with readWord := flashWord addr t }) t)
  match res with
  | .good => got s
  | .corrected _ _ => got (raiseEvent 0x12 0 Fl.CFL_EVENT_CE (cntAdd Reg.CFL_CNT_CE 32 1 s))
  | .uncorr _ => busError (0x10000000 + addr) req 8 (raiseEvent 0x12 0 Fl.CFL_EVENT_UE (cntAdd Reg.CFL_CNT_UE 32 1 s))

/-- Row CFL_READ: a read through the window. One of the bank that is erasing suspends the erase, or waits once the erase has reached
its suspend limit and while it is `early`: the erase has not run SUSP_CFG.MIN_RUN since its start or its last resume; one of the bank that is programming waits for the word (R476). A read that waits has no effect yet. -/
def execCflRead (addr : Nat) (res : MemRes) (early : Bool) (req : Nat) (s : State) : Out :=
  if !pdOn 2 s || decide (cflSectors * 4096 ≤ addr) then .next (busError (0x10000000 + addr) req 8 s)
  else
    let bank := bankOfSector (addr / 4096)
    let n := fget Fl.CFL_STATUS_SUSP_COUNT s
    let lim := fget Fl.CFL_SUSP_CFG_MAX s
    match s.mgt.op with
    | some (.erase sec _) =>
      if bankOfSector sec ≠ bank then .next (cflReadData addr res req s)
      else if early ∨ lim ≤ n then .next s
      else
        let s1 := fset Fl.CFL_STATUS_SUSP_COUNT (n + 1) s
        .next (cflReadData addr res req (if n + 1 = lim then raiseEvent 0x12 0 Fl.CFL_EVENT_SUSP_LIMIT s1 else s1))
    | some (.program w _) => if bankOfSector (w / sectorWords) = bank then .next s else .next (cflReadData addr res req s)
    | none => .next (cflReadData addr res req s)

/-! ### Settings store (R479–R483) -/

/-- Bytes of deltas at which a half is compacted. -/
def compactAt : Nat := 0x100000

/-- A delta of `n` bytes joins a copy. -/
def addDelta (n seq : Nat) (c : StoreCopy) : StoreCopy := { c with seq := seq, deltas := c.deltas + n }

/-- Row SETTINGS_COMMIT: the gathered changes become persistent as one delta of at most 4 KiB in copy A, then in copy B (R480). -/
def execSettingsCommit (bytes : Nat) (s : State) : Out :=
  if !pdOn 2 s || fget Fl.CFL_STATUS_SEAL s == 1 then .next s
  else
    let seq := max s.mgt.storeA.seq s.mgt.storeB.seq + 1
    let n := max 1 (min bytes 4096)
    .next (setMgt (fun m => { m with unsaved := [], storeA := addDelta n seq m.storeA, storeB := addDelta n seq m.storeB }) s)

/-- A copy's other half takes a base image of the present settings and later deltas go there. -/
def compacted (c : StoreCopy) : StoreCopy := { c with half := 1 - c.half, deltas := 0 }

/-- Row SETTINGS_COMPACTION: of copy A before copy B (R482). -/
def execSettingsCompaction (s : State) : Out :=
  if !pdOn 2 s || fget Fl.CFL_STATUS_SEAL s == 1 then .next s
  else if compactAt < s.mgt.storeA.deltas then .next (setMgt (fun m => { m with storeA := compacted m.storeA }) s)
  else if compactAt < s.mgt.storeB.deltas then .next (setMgt (fun m => { m with storeB := compacted m.storeB }) s)
  else .next s

end Sys2Proof.Machine
end

