-- ==== Sys2Proof/Machine/DramRows.lean ====
section
/-! DEFINITION. Rows DRAM_READ to SRAM_REPAIR and STARVATION_EPISODE (R401–R419). -/

namespace Sys2Proof.Machine

/-! ### Devices and channels (R416, R417) -/

/-- Channel `n` is in service. -/
def dmcUp (n : Nat) (s : State) : Bool := decide (n < 4) && (dramChannels s).contains n && pdOn (31 + n) s

/-- A channel is recorded as failed and management firmware asks for a module reset; `byKey`: firmware asked for it, which sets no
EVENT bit (R417). -/
def channelFailed (n : Nat) (byKey : Bool) (s : State) : State :=
  let f : Fld := if n = 0 then ⟨Reg.AON_PD_RETIRED_LO, 31, 1⟩ else ⟨Reg.AON_PD_RETIRED_HI, n - 1, 1⟩
  let s1 := if byKey then s else raiseEvent 0x0E n (Fl.DMC_EVENT_CH_FAIL n) s
  requestModuleReset .mgmt (smartEvent 2 (fset f 1 s1))

/-- Failed devices of a lane's subchannel. -/
def failedBeside (n lane : Nat) (s : State) : Bool :=
  (List.range 10).any (fun d => fget ⟨Reg.DMC_DEV_FAILED n, lane / 10 * 10 + d, 1⟩ s == 1)

/-- The device of a lane fails: recorded for good, and the channel fails with a second device of the subchannel (R416, R417). -/
def deviceFailed (n lane : Nat) (s : State) : State :=
  if 20 ≤ lane ∨ fget ⟨Reg.DMC_DEV_FAILED n, lane, 1⟩ s = 1 then s
  else
    let second := failedBeside n lane s
    let s1 := smartEvent 2 (raiseEvent 0x0E n (Fl.DMC_EVENT_DEV_FAIL n) (fset ⟨Reg.DMC_DEV_FAILED n, lane, 1⟩ 1 s))
    if second then channelFailed n false s1 else s1

/-! ### Reads (R407, R409, R410) -/

/-- Corrections of a read: logged, counted and written back, or only counted where the device has failed. `typ` is 0, or 4 for the
scrubber. -/
def correctLine (n addr port typ : Nat) (lanes : List Nat) (failing : Bool) (s : State) : State :=
  let s1 := forEach (fun l t =>
      if fget ⟨Reg.DMC_DEV_FAILED n, l, 1⟩ t = 1 then cntAdd (Reg.DMC_CNT_CE_FAILDEV n) 32 1 t
      else dmcError n (Fl.DMC_EVENT_CE n) addr typ port l (cntAdd (Reg.DMC_CNT_CE n) 32 1 t))
    (lanes.filter (· < 20)) s
  if failing then (match lanes.find? (fun l => fget ⟨Reg.DMC_DEV_FAILED n, l, 1⟩ s == 0) with
    | some l => deviceFailed n l s1
    | none => s1) else s1

/-- An uncorrectable line: counted and logged with type `typ`, and the channel fails where R417 says so. -/
def uncorrLine (n addr port typ : Nat) (sixteenth : Bool) (s : State) : State :=
  let s1 := dmcError n (Fl.DMC_EVENT_UE n) addr typ port 0 (cntAdd (Reg.DMC_CNT_UE n) 32 1 s)
  if sixteenth ∨ failedBeside n (addr / 64 % 2 * 10) s then channelFailed n false s1 else s1

/-- Adds to a list without repeats. -/
def addOnce (x : Nat) (l : List Nat) : List Nat := if l.contains x then l else x :: l

/-- A line is poisoned (R409). -/
def poisonLine (l : Nat) (s : State) : State :=
  { s with dram := { s.dram with poison := addOnce l s.dram.poison, bad := s.dram.bad.filter (· != l) } }

/-- What the owner of uncorrectable data does (R410). -/
def ownerActs (o : MemOwner) (s : State) : State :=
  match o with
  | .hostWrite tag =>
    (match cmdAt tag s with
      | some x => if writesKind x.kind && x.result.isNone then complete tag 0 0x04 false 0 [] (dropLanding tag s) else s
      | none => s)
  | .hostRead tag again =>
    (match cmdAt tag s with
      | some x => if again && x.kind == .read && x.result.isNone then complete tag 0 0x04 false 0 [] s else s
      | none => s)
  | .mapPage key => { s with ftl := { s.ftl with cached := s.ftl.cached.filter (· != key) } }
  | .firmware recovered =>
    if recovered then s else requestModuleReset .mgmt (otherPostmark 0x0E 0 0 0 410 s)
  | .other => s

/-- The outcome of a read of a line through a port; a poisoned or still uncorrectable line reads so again. -/
def readLine (addr port : Nat) (res : MemRes) (s : State) : State × Bool :=
  let n := (dramPlace addr s).1
  let l := addr / 64
  if s.dram.poison.contains l then
    (dmcError n (Fl.DMC_EVENT_POISON_RD n) addr 2 port 0 (cntAdd (Reg.DMC_CNT_POISON_RD n) 32 1 s), false)
  else if s.dram.bad.contains l then (uncorrLine n addr port 1 false s, false)
  else match res with
    | .good => (s, true)
    | .corrected lanes failing => (correctLine n addr port 0 lanes failing s, true)
    | .uncorr many =>
      (uncorrLine n addr port 1 many { s with dram := { s.dram with bad := addOnce l s.dram.bad } }, false)

/-- An address of the DRAM in service. -/
def inDram (a : Nat) (s : State) : Bool := decide (0x4000000000 ≤ a) && decide (a < dramEnd s)

/-- Channel `n` serves requests: in service, not held, and not in Idle-Shallow, where it only refreshes (R406, R421). -/
def dmcServes (n : Nat) (s : State) : Bool := dmcUp n s && fget (Fl.DMC_CTRL_HOLD n) s == 0 && mode s != 6

/-- Row DRAM_READ: a line is read through a port, with what the decoder finds and whose data it is. While the channel serves no requests
this one waits: nothing happens yet. -/
def execDramRead (addr port : Nat) (res : MemRes) (o : MemOwner) (s : State) : Out :=
  if inDram addr s = false ∨ 8 ≤ port ∨ dmcServes (dramPlace addr s).1 s = false then .next s
  else
    let r := readLine (addr / 64 * 64) port res s
    .next (if r.2 then r.1 else ownerActs o r.1)

/-- The channel of a DRAM address is held: accesses wait (R421). -/
def dramHeld (a : Nat) (s : State) : Bool := inDram a s && fget (Fl.DMC_CTRL_HOLD (dramPlace a s).1) s == 1

/-- Bytes within one line are merged into it (R408). Where the line cannot be read they are lost and the line is poisoned; a core is told
by its ERROR interrupt. A whole line needs no read. -/
def narrowWrite (addr port : Nat) (data : List Byte) (core : Option Nat) (res : MemRes) (s : State) : State :=
  let n := (dramPlace addr s).1
  let l := addr / 64
  if addr % 64 = 0 ∧ data.length = 64 then clearPoison ((List.range 64).map (addr + ·)) (wrBytes addr data s)
  else
    let s0 := cntAdd (Reg.DMC_CNT_RMW n) 64 1 s
    let lost (t : State) : State :=
      let t1 := poisonLine l t
      match core with
      | some k => if k < 77 then setSysField k 0x8A 3 1 1 t1 else t1
      | none => t1
    if s.dram.poison.contains l then
      lost (dmcError n (Fl.DMC_EVENT_POISON_RD n) addr 3 port 0 (cntAdd (Reg.DMC_CNT_POISON_RD n) 32 1 s0))
    else if s.dram.bad.contains l then lost (uncorrLine n addr port 3 false s0)
    else match res with
      | .good => wrBytes addr data s0
      | .corrected lanes failing => wrBytes addr data (correctLine n addr port 0 lanes failing s0)
      | .uncorr many => lost (uncorrLine n addr port 3 many s0)

/-- Row NARROW_WRITE (R408): bytes within one line, through a port. While the channel serves no requests this one waits. -/
def execNarrowWrite (addr port : Nat) (data : List Byte) (core : Option Nat) (res : MemRes) (s : State) : Out :=
  if inDram addr s = false ∨ 8 ≤ port ∨ dmcServes (dramPlace addr s).1 s = false ∨ data = [] ∨ 64 < addr % 64 + data.length then .next s
  else .next (narrowWrite addr port data core res s)

/-! ### Ports and refresh (R401–R403) -/

/-- Row PORT_URGENT: port `p` becomes urgent, or its oldest request has been served. A target of 0 is never reached; port 7 is urgent
only while the scrub is late (R413). -/
def execPortUrgent (n p : Nat) (on : Bool) (s : State) : Out :=
  if dmcUp n s = false ∨ 8 ≤ p then .next s
  else
    let may := if p = 7 then fget Fl.MEM_STATUS_SCRUB_LATE s == 1 else fget (Fl.DMC_LAT_TARGET n p) s != 0
    if on && !may then .next s else .next (fset ⟨Reg.DMC_STATUS n, 3 + p, 1⟩ (if on then 1 else 0) s)

/-- Row STARVATION_EPISODE: the port has been urgent for four times its target. -/
def execStarvationEpisode (n p : Nat) (s : State) : Out :=
  if dmcUp n s = false ∨ 8 ≤ p ∨ fget ⟨Reg.DMC_STATUS n, 3 + p, 1⟩ s = 0 then .next s
  else .next (cntAdd (Reg.DMC_CNT_URGENT n p) 32 1 (raiseEvent 0x0E n (Fl.DMC_EVENT_STARVE n) s))

/-- One refresh is postponed; debt that reaches POSTPONE_MAX forces an all-bank refresh (R403). -/
def postpone (n : Nat) (s : State) : State :=
  let d := fget (Fl.DMC_REF_STATUS_DEBT n) s + 1
  if fget (Fl.DMC_REF_CFG_POSTPONE_MAX n) s ≤ d then
    s |> fset (Fl.DMC_REF_STATUS_DEBT n) 0 |> cntAdd (Reg.DMC_CNT_REF_FORCED n) 32 1 |> raiseEvent 0x0E n (Fl.DMC_EVENT_REF_FORCED n)
  else fset (Fl.DMC_REF_STATUS_DEBT n) d s

/-- Row REFRESH_INTERVAL: `repaid` postponed refreshes are issued and `postponed` of the interval's four are not. -/
def execRefreshInterval (n repaid postponed : Nat) (hot : Bool) (s : State) : Out :=
  if dmcUp n s = false ∨ 4 < postponed then .next s
  else
    let s1 := s |> fset (Fl.DMC_STATUS_HOT n) (if hot then 1 else 0)
      |> fset (Fl.DMC_REF_STATUS_DEBT n) (fget (Fl.DMC_REF_STATUS_DEBT n) s - repaid)
    .next (forN (fun _ => postpone n) postponed s1)

/-! ### Delay settings (R404, R405) -/

/-- STAGE is loaded into DELAY and checked; a failing check restores the old values. -/
def applyDelays (n : Nat) (good : Bool) (s : State) : State :=
  if good then
    { s with dram := { s.dram with recalFails := SMap.del s.dram.recalFails n, recalDue := s.dram.recalDue.filter (· != n) } }
      |> forN (fun l t => wr (Reg.DMC_DELAY n l) (rd (Reg.DMC_STAGE n l) t) t) 20
      |> forN (fun l => wr (Reg.DMC_DRIFT n l) 0) 20 |> cntAdd (Reg.DMC_CNT_RECAL n) 32 1
  else
    let k := SMap.getD s.dram.recalFails n 0 + 1
    let s1 := { s with dram := { s.dram with recalFails := SMap.put s.dram.recalFails n k } }
      |> cntAdd (Reg.DMC_CNT_RECAL_FAIL n) 32 1 |> raiseEvent 0x0E n (Fl.DMC_EVENT_RECAL_FAIL n)
    if 2 ≤ k then channelFailed n false s1 else s1

/-- Row DELAY_APPLY: CTRL.APPLY is written. -/
def execDelayApply (n : Nat) (good : Bool) (s : State) : Out :=
  if n < 4 ∧ pdOn (31 + n) s = true then .next (applyDelays n good s) else .next s

/-- Magnitude of a signed 8-bit drift. -/
def driftAbs (d : Nat) : Nat := if d % 256 < 128 then d % 256 else 256 - d % 256

/-- The new delay of a lane does not fit the fields of DELAY: bits of it stand above the register's 29 (R416). -/
def delayOutside (v : Half) : Bool := v.extractLsb' 29 3 != 0

/-- Row RECALIBRATION_DUE: the measured drifts (read and write, signed), the new values that firmware computes and stages, whether 30
minutes have passed, and how the check ends. In Idle-Shallow it waits for the exit. The device of a lane whose new value does not fit
DELAY has failed (R416). -/
def execRecalibrationDue (n : Nat) (drift : List (Nat × Nat)) (stage : List Half) (aged good : Bool) (s : State) : Out :=
  if dmcUp n s = false ∨ drift.length ≠ 20 ∨ stage.length ≠ 20 then .next s
  else
    let s1 := forN (fun l t =>
      let d := drift.getD l (0, 0)
      t |> fset (Fl.DMC_DRIFT_RD n l) d.1 |> fset (Fl.DMC_DRIFT_WR n l) d.2) 20 s
    let due := aged || s.dram.recalDue.contains n || drift.any (fun d => decide (12 ≤ driftAbs d.1) || decide (12 ≤ driftAbs d.2))
    if ¬ due then .next s1
    else if mode s = 6 then .next { s1 with dram := { s1.dram with recalDue := addOnce n s1.dram.recalDue } }
    else if serving s then
      .next (forEach (fun l t => if delayOutside (stage.getD l 0) then deviceFailed n l t else t) (List.range 20)
        (applyDelays n good (forN (fun l t =>
          t |> wr (Reg.DMC_STAGE n l) (((stage.getD l 0).extractLsb' 0 29).setWidth 64)) 20 s1)))
    else .next s1

/-- CTRL.HOLD is written: no new request is issued, and HELD shows it. -/
def dramHold (n v : Nat) (s : State) : State := s |> fset (Fl.DMC_CTRL_HOLD n) v |> fset (Fl.DMC_CTRL_HELD n) v

/-- Row DRAM_HOLD. -/
def execDramHold (n : Nat) (on : Bool) (s : State) : Out :=
  if dmcUp n s then .next (dramHold n (if on then 1 else 0) s) else .next s

/-- CTRL.RETIRE is written with a key (R417). -/
def dramRetire (n key req : Nat) (s : State) : State :=
  if key % 256 = 0x96 then channelFailed n true s else writeIgnored (Reg.DMC_CTRL n) req (8 + key % 256 * 256) s

/-- Row DRAM_CHANNEL_RETIRE. -/
def execDramChannelRetire (n key req : Nat) (s : State) : Out :=
  if dmcUp n s then .next (dramRetire n key req s) else .next s

/-! ### Page retirement (R415) -/

/-- REMAP_CMD.GO: the page goes to the next free spare, with uncorrectable lines copied as poisoned. -/
def retirePage (n page : Nat) (s : State) : State :=
  let s0 := fset (Fl.DMC_REMAP_CMD_PAGE n) page s
  let entry := (List.range 512).find? (fun i => fget (Fl.DMC_REMAP_VALID n i) s == 0)
  if (List.range 512).any (fun i => fget (Fl.DMC_REMAP_VALID n i) s == 1 && fget (Fl.DMC_REMAP_PAGE n i) s == page) then
    fset (Fl.DMC_REMAP_CMD_RESULT n) 2 s0
  else if inSpareArea n page s then fset (Fl.DMC_REMAP_CMD_RESULT n) 3 s0
  else match entry with
    | none => raiseEvent 0x0E n (Fl.DMC_EVENT_REMAP_FULL n) (fset (Fl.DMC_REMAP_CMD_RESULT n) 1 s0)
    | some i =>
      let lost := s.dram.bad.filter (fun l => dramPlace (64 * l) s == (n, page))
      let s1 := forEach poisonLine lost s0
      let s2 := s1 |> fset (Fl.DMC_REMAP_VALID n i) 1 |> fset (Fl.DMC_REMAP_PAGE n i) page |> fset (Fl.DMC_REMAP_CMD_RESULT n) 0
        |> raiseEvent 0x0E n (Fl.DMC_EVENT_PAGE_RETIRED n)
      fset (Fl.DMC_REMAP_STATUS_USED n) (remapUsed n s2) s2

/-- Row PAGE_RETIRE: firmware writes REMAP_CMD with GO. -/
def execPageRetire (n page : Nat) (s : State) : Out :=
  if dmcUp n s = true ∧ page < 2 ^ 23 then .next (retirePage n page s) else .next s

/-! ### SRAM and scrubbing (R411, R413) -/

/-- A read of an SRAM word: fabric (source 1) at an address, or retained (source 2) at an offset in it. An uncorrectable word is
poisoned; in the RAM tier of the recorder it damages the postmark of its slot (R498). -/
def sramWord (retained : Bool) (addr : Nat) (res : MemRes) (s : State) : State :=
  let src := if retained then 2 else 1
  let cnt (k : Nat) (t : State) : State := { t with dram := { t.dram with sramCnt := SMap.put t.dram.sramCnt k (SMap.getD t.dram.sramCnt k 0 + 1) } }
  let ue (t : State) : State :=
    cnt (2 * src + 1) t |> cntAdd Reg.MEM_CNT_SRAM_UE 32 1 |> memLog addr src 1 0 0 0 0x0F01 0x0F
      |> raiseEvent 0x0F 0 Fl.MEM_EVENT_SRAM_UE
  match res with
  | .good => s
  | .corrected bits _ =>
    let b := bits.headD 0
    cnt (2 * src) s |> cntAdd Reg.MEM_CNT_SRAM_CE 32 1 |> memLog addr src 0 0 (b % 32) b 0x0F00 0x0F |> raiseEvent 0x0F 0 Fl.MEM_EVENT_SRAM_CE
  | .uncorr _ =>
    if retained then
      ue { s with pbk := { s.pbk with ram := s.pbk.ram.map (fun p =>
        if p.seq % 32768 = addr / 64 then { p with frank := ~~~frankOf p } else p) } }
    else ue { s with dram := { s.dram with sram := addOnce (addr / 8) s.dram.sram } }

/-- Row SRAM_READ: a word is read, with what the decoder finds. A word already poisoned reads as uncorrectable again. -/
def execSramRead (retained : Bool) (addr : Nat) (res : MemRes) (s : State) : Out :=
  if mode s = 0 ∨ (if retained then 0x200000 else 0x4000000) ≤ addr ∨ (!retained && !pdOn 3 s) then .next s
  else
    let r := if !retained && s.dram.sram.contains (addr / 8) then MemRes.uncorr false else res
    .next (sramWord retained addr r s)

/-- Whether the scrub pass is late is shown; falling behind sets an event (R413). -/
def scrubLate (late : Bool) (s : State) : State :=
  let was := fget Fl.MEM_STATUS_SCRUB_LATE s
  let s1 := fset Fl.MEM_STATUS_SCRUB_LATE (if late then 1 else 0) s
  if late ∧ was = 0 then raiseEvent 0x0F 0 Fl.MEM_EVENT_SCRUB_LATE s1 else s1

/-- The scrubber goes to the next line; the last one ends the pass. -/
def scrubAdvance (s : State) : State :=
  let p := fget Fl.MEM_SCRUB_POS_ADDR s + 64
  if p < dramEnd s then fset Fl.MEM_SCRUB_POS_ADDR p s
  else cntAdd Reg.MEM_CNT_SCRUB_PASS 32 1 (fset Fl.MEM_SCRUB_POS_ADDR 0x4000000000 s)

/-- The scrubber reads the line at SCRUB_POS through port 7: corrections are logged as such, and an uncorrectable line is
poisoned. -/
def scrubLine (res : MemRes) (s : State) : State :=
  let a := fget Fl.MEM_SCRUB_POS_ADDR s
  let n := (dramPlace a s).1
  let l := a / 64
  if s.dram.poison.contains l then (readLine a 7 res s).1
  else
    let r := if s.dram.bad.contains l then MemRes.uncorr false else res
    match r with
    | .good => s
    | .corrected lanes failing => correctLine n a 7 4 lanes failing s
    | .uncorr many => uncorrLine n a 7 5 many (poisonLine l s)

/-- Row SCRUB_STEP: of DRAM, or of a word of SRAM given by whether it is retained and its address. -/
def execScrubStep (word : Option (Bool × Nat)) (res : MemRes) (late : Bool) (s : State) : Out :=
  match word with
  | some (ret, a) => execSramRead ret a res s
  | none =>
    let a := fget Fl.MEM_SCRUB_POS_ADDR s
    if inDram a s = false ∨ dmcServes (dramPlace a s).1 s = false then .next s
    else .next (scrubLate late (scrubAdvance (scrubLine res s)))

/-! ### Repair (R419) -/

/-- Row SRAM_REPAIR: a row or column of macro `m` is spared; a macro with none left keeps it in service. -/
def execSramRepair (m : Nat) (column : Bool) (index : Nat) (s : State) : Out :=
  let f := if column then Fl.MEM_SRAM_REPAIR_COLS_FREE m else Fl.MEM_SRAM_REPAIR_ROWS_FREE m
  if 66 ≤ m ∨ pdOn 3 s = false then .next s
  else if fget f s = 0 then .next (raiseEvent 0x0F 0 Fl.MEM_EVENT_NO_SPARE s)
  else .next (raiseEvent 0x0F 0 (if column then Fl.MEM_EVENT_COL_REPAIR else Fl.MEM_EVENT_ROW_REPAIR)
    (fset f (fget f s - 1) { s with dram := { s.dram with fuses := s.dram.fuses ++ [(m, column, index)] } }))

end Sys2Proof.Machine
end

