-- ==== Sys2Proof/Machine/PortRows.lean ====
section
/-! DEFINITION. The port actions of the sorting office: rows SUBMIT, TAKE, DONE, QUERY, CANCEL and CTR_ALLOCATE to CTR_FREE (R349,
R355, R359, R364, R367). On a compute core whose runtime has a service request before it, the action is the runtime call of R383:
its arguments and results are the letter's registers. -/

namespace Sys2Proof.Machine

/-- Row SUBMIT. -/
def execSubmit (p req : Nat) (s : State) : Out :=
  if schUp s && portAllows p req then
    match svCall p 1 s with
    | some e => .next (svSubmit p e s)
    | none => .next (portSubmit p s).2
  else .next (portError p 0x20 req 8 s)

/-- Row TAKE: `fn` is the function whose turn it is, `ns` how long the letter taken was ready. -/
def execTake (p fn ns req : Nat) (s : State) : Out :=
  if schUp s && portAllows p req then .next (takeAndStart p fn ns s) else .next (portError p 0x28 req 8 s)

/-- DONE of port `p` by its core: the core waits for its next letter. -/
def doneAndLeave (p st req : Nat) (s : State) : State :=
  if p < 64 ∧ (heldBy p s).isSome = true then leaveLetter p (portDone p st req s)
  else if p < 76 then showCore p (portDone p st req s) else portDone p st req s

/-- Row DONE. -/
def execDone (p st req : Nat) (s : State) : Out :=
  if schUp s && portAllows p req then
    match svCall p 5 s with
    | some _ => .next (finishLetter p (gr p 1 s).toNat s)
    | none => .next (doneAndLeave p st req s)
  else .next (portError p 0x50 req 4 s)

/-- Row QUERY; the runtime call TICK is answered here too. -/
def execQuery (p req : Nat) (s : State) : Out :=
  if schUp s && portAllows p req then
    match svCall p 2 s, svCall p 12 s with
    | some _, _ => .next (svAnswer p (some (BitVec.ofNat 64 (queryValue ((gr p 1 s).toNat % 2 ^ 32) s))) none s)
    | none, some _ => .next (svAnswer p (some (rd Reg.SCH_TICK s)) none s)
    | none, none => .next (portQuery p s).2
  else .next (portError p 0x60 req 8 s)

/-- Row CANCEL. -/
def execCancel (p req : Nat) (s : State) : Out :=
  if schUp s && portAllows p req then
    match svCall p 3 s with
    | some _ =>
      let r := cancelLetter (portActor p s) ((gr p 1 s).toNat % 2 ^ 32) s
      .next (svAnswer p (some (BitVec.ofNat 64 r.1)) none r.2)
    | none => .next (portCancel p s).2
  else .next (portError p 0x68 req 8 s)

/-- A read of CTR with operation `op` in ARG. -/
def ctrRow (op p req : Nat) (s : State) : Out :=
  if schUp s && portAllows p req then
    match svCall p 4 s with
    | some _ =>
      let s1 := wr (Reg.SCH_ARG p) (insertField (gr p 1 s &&& 0x7FFFFFFFF) 32 3 op) s
      let r := portCtr p op s1
      .next (svAnswer p (some r.1) none r.2)
    | none => .next (portCtr p op (fset (Fl.SCH_ARG_OP p) op s)).2
  else .next (portError p 0x70 req 8 s)

/-- Row CTR_ALLOCATE (R355). -/
def execCtrAllocate (p req : Nat) (s : State) : Out := ctrRow 1 p req s
/-- Row CTR_ADD. -/
def execCtrAdd (p req : Nat) (s : State) : Out := ctrRow 2 p req s
/-- Row CTR_SET. -/
def execCtrSet (p req : Nat) (s : State) : Out := ctrRow 3 p req s
/-- Row CTR_READ. -/
def execCtrRead (p req : Nat) (s : State) : Out := ctrRow 4 p req s
/-- Row CTR_FREE. -/
def execCtrFree (p req : Nat) (s : State) : Out := ctrRow 5 p req s

end Sys2Proof.Machine
end

