-- ==== Sys2Proof/Machine/BusBase.lean ====
section
/-! DEFINITION. Register access: which register an address falls in, who reaches it, and what an access type does with a write
(R9–R11, R34–R37). -/

namespace Sys2Proof.Machine

/-- The register an access falls in: its address, block, instance, offset in the block and map row. -/
structure Hit where
  addr : Nat
  blk : Block
  inst : Nat
  off : Nat
  row : RegRow
  deriving DecidableEq, Repr

/-- The register that starts at `a`. -/
def hitAt (a : Nat) : Option Hit :=
  match blockRowAt a regBlocks, regInfo a with
  | some b, some (blk, i, r) => if blk = .mat ∧ 0x8000 ≤ r.off ∧ i ≠ 0 then none else some ⟨a, blk, i, (a - b.base) % b.stride, r⟩
  | _, _ => none

/-- The register an address falls in: one that starts there, or a 64-bit one whose high word does. -/
def regHit (a : Nat) : Option Hit :=
  match hitAt a with
  | some h => some h
  | none =>
    match if 4 ≤ a then hitAt (a - 4) else none with
    | some h => if h.row.bytes = 8 then some h else none
    | none => none

/-- Structures that a map gives in bytes (R9). -/
def byteStruct (h : Hit) : Bool :=
  (h.blk == .pbk && decide (0x100 ≤ h.off)) || (h.blk == .lbx && decide (0x400 ≤ h.off)) || (h.blk == .che && decide (0xC000 ≤ h.off))

/-- The domain of a core is powered. -/
def coreDomain (k : Nat) (s : State) : Bool := pdOn (if k < 64 then 12 + k / 8 else if k < 70 then 4 else if k < 76 then 5 else 1) s

/-- The unit that holds a register is powered and not retired (R34). -/
def unitOn (b : Block) (i : Nat) (s : State) : Bool :=
  match b with
  | .aon | .pbk => pdOn 0 s
  | .pwr | .clk | .lbx | .mgt => pdOn 1 s
  | .cfl => pdOn 2 s
  | .mem => pdOn 3 s
  | .ctc => pdOn 4 s || pdOn 5 s
  | .sch => schUp s
  | .hif => pdOn 7 s
  | .net => netUp i s
  | .che => chanUp i s
  | .mat => bankUp i s
  | .cmp => compUp i s
  | .dig => digUp s
  | .key => keyUp s
  | .axc => clusUp i s
  | .dmc => dmcUp i s
  | .dbg => pdOn 35 s

/-- The blocks that only named agents reach: a function its own letterbox page, the sorting office (R367), and management's half of
config flash (R478). -/
def agentOk (h : Hit) (req : Nat) : Bool :=
  if 0x100 ≤ req then h.blk == .lbx && h.inst == req - 0x100
  else match h.blk with
  | .cfl | .mgt => cflAgent req
  | .sch => if 0x10000 ≤ h.off then portAllows ((h.off - 0x10000) / 256) req else decide (req ≤ 0x0B) || req == 0x10 || req == 0x11
  | _ => true

/-- Core of a DBG page, and the offset in the page. -/
def dbgCore (h : Hit) : Nat := (h.off - 0x1000) / 256

/-- Offset in a DBG page. -/
def dbgOff (h : Hit) : Nat := (h.off - 0x1000) % 256

/-- PC, REG_SEL and REG_DATA answer on a halted core only (R513). -/
def needsHalt (h : Hit) : Bool :=
  h.blk == .dbg && decide (0x1000 ≤ h.off) && (dbgOff h == 8 || dbgOff h == 0x10 || dbgOff h == 0x18)

/-- A live activation is switching component `c` (R488). -/
def switchingNow (c : Nat) (s : State) : Bool := s.mgt.upd.switching && s.mgt.upd.todo.head? == some c

/-- Registers of a unit under live update wait for its end (R37): a port's while the network engine switches (R490), a cluster's in
its runtime update (R303), those of the management core and of the control cores while theirs switches (R108, R489). -/
def regStalls (h : Hit) (s : State) : Bool :=
  match h.blk with
  | .net => s.net.switching
  | .axc => (clusAt h.inst s).update == .grace
  | .mgt => switchingNow 1 s
  | .ctc => switchingNow 2 s
  | .aon | .pwr | .clk | .sch | .hif | .che | .mat | .cmp | .dig | .key | .dmc | .mem | .lbx | .cfl | .pbk | .dbg => false

/-- The register is there for this requester. -/
def regThere (h : Hit) (req : Nat) (s : State) : Bool :=
  unitOn h.blk h.inst s && agentOk h req && (!needsHalt h || coreHalted (dbgCore h) s)

/-! ### Access types (R10, R11) -/

/-- The bits of a field. -/
def fieldMask (f : FieldRow) : Word := (BitVec.allOnes f.w).setWidth 64 <<< f.lo

/-- The bits that may be read: those of no write-only field. -/
def readMask (r : RegRow) : Word :=
  r.fields.foldl (fun m f => if f.acc = .wo then m else m ||| fieldMask f) 0

/-- A field after a write of `new` under `mask` by `req`. -/
def writeField (req : Nat) (mask new old : Word) (f : FieldRow) : Word :=
  let m := fieldMask f &&& mask
  let put := (old &&& ~~~m) ||| (new &&& m)
  match f.acc with
  | .ro => old
  | .rw | .rwp => put
  | .wo => old &&& ~~~m
  | .w1c => old &&& ~~~(new &&& m)
  | .w1s => old ||| (new &&& m)
  | .hostRW => if 0x100 ≤ req then put else old
  | .mgtRW => if 0x100 ≤ req then old else put

/-- A register after a write, field by field: reserved bits keep reading zero. -/
def writeFields (req : Nat) (mask new old : Word) (r : RegRow) : Word :=
  r.fields.foldl (fun v f => writeField req mask new v f) old

/-- Every written field holds an encoding that is not reserved (R10). -/
def legalWrite (mask new : Word) (r : RegRow) : Bool :=
  r.fields.all (fun f =>
    f.legal.isEmpty || (fieldMask f &&& mask) == 0 || f.acc == .ro ||
      f.legal.any (fun p => decide (p.1 ≤ extractField new f.lo f.w) && decide (extractField new f.lo f.w ≤ p.2)))

/-- A write by the access types of the register's fields. -/
def plainWrite (h : Hit) (mask new : Word) (req : Nat) (s : State) : State :=
  if legalWrite mask new h.row then
    let v := writeFields req mask new (rd h.addr s) h.row
    if h.row.fields.any (fun f => f.acc == .rwp) then wrP h.addr v s else wr h.addr v s
  else writeIgnored h.addr req new.toNat s

/-! ### Registers of a halted core (R508, R513) -/

/-- The value REG_DATA shows. A number that names no register of the core shows an open value. -/
def dbgReg (k : Nat) (s : State) : Word :=
  let n := fget (Fl.DBG_REG_SEL_NUM k) s
  let q := fget (Fl.DBG_REG_SEL_QUARTER k) s
  let y := fget (Fl.DBG_REG_SEL_SYSNUM k) s
  match fget (Fl.DBG_REG_SEL_GROUP k) s with
  | 0 => gr k n s
  | 1 => if k < 76 then (vr k n s).extractLsb' (64 * q) 64 else Config.freeValue s.free
  | _ => if sysExists k y then sysRead k y s else Config.freeValue s.free

/-- A quarter of a vector register is replaced. -/
def setQuarter (k n q : Nat) (v : Word) (s : State) : State :=
  let m : BitVec 256 := (BitVec.allOnes 64).setWidth 256 <<< (64 * q)
  let x := (vr k n s &&& ~~~m) ||| (v.setWidth 256 <<< (64 * q))
  { s with cores := SMap.put s.cores k { coreAt k s with v := SMap.put (coreAt k s).v n x } }

/-- REG_DATA is written. -/
def setDbgReg (k : Nat) (v : Word) (s : State) : State :=
  let n := fget (Fl.DBG_REG_SEL_NUM k) s
  let y := fget (Fl.DBG_REG_SEL_SYSNUM k) s
  match fget (Fl.DBG_REG_SEL_GROUP k) s with
  | 0 => setG k n v s
  | 1 => if k < 76 then setQuarter k n (fget (Fl.DBG_REG_SEL_QUARTER k) s) v s else s
  | _ => if sysExists k y && !sysReadOnly y then sysWrite k y v s else s

/-- PC of a halted core is written: where RESUME continues. -/
def setDbgPc (k : Nat) (v : Word) (s : State) : State :=
  let a := v &&& 0xFFFFFFFFFFFFFFFC
  setPc k a (fset (Fl.DBG_PC_ADDR k) a.toNat s)

/-- STEP on a halted core: it runs until its next instruction, trap or interrupt is over (R509). -/
def stepCore (k : Nat) (s : State) : State :=
  if coreHalted k s then
    showCore k (fset (Fl.DBG_CORE_DSTATUS_HALTED k) 0
      { s with cores := SMap.put s.cores k { coreAt k s with stepping := true, passBp := true } })
  else s

/-- CORE_CTRL is written. -/
def coreCtrl (k v : Nat) (mask new : Word) (h : Hit) (req : Nat) (s : State) : State :=
  let s1 := plainWrite h mask new req s
  let s2 := if v % 2 = 1 then haltCore k 0 0 s1 else s1
  let s3 := if v / 2 % 2 = 1 then resumeCore k s2 else s2
  if v / 4 % 2 = 1 then stepCore k s3 else s3

end Sys2Proof.Machine
end

