-- ==== Sys2Proof/Machine/BusRows.lean ====
section
/-! DEFINITION. Register reads and writes with their effects, and rows REGISTER_WRITE, MALFORMED_REGISTER_ACCESS,
RESERVED_ADDRESS_ACCESS and STALLED_ACCESS_COMPLETE (R9, R10, R34, R37). -/

namespace Sys2Proof.Machine

/-! ### What a write does beyond its fields -/

/-- Writes of always-on, power and clock registers (R44, R57, R79, R80). Of several requests in one RESET_REQ write the first of
MODULE, NVMSSR, START and KEEP acts (R79). -/
def writePower (h : Hit) (mask new : Word) (req : Nat) (s : State) : State :=
  let v := new.toNat
  let plain := plainWrite h mask new req
  match h.blk, h.off with
  | .pwr, 0x04 => if v / 2 % 4 = 0 then writeIgnored h.addr req v s else plain s
  | .pwr, 0x1C =>
    if v / 256 % 256 = 0 then writeIgnored h.addr req v s
    else
      let s1 := fset Fl.PWR_CAP_CTRL_INTERVAL (v / 256 % 256) s
      if v % 2 = 1 then startBankTest s1 else s1
  | .aon, 0x2C =>
    if v / 256 % 256 ≠ 0x5A then writeIgnored h.addr req v s
    else if v % 2 = 1 then requestModuleReset .mgmt s
    else if v / 2 % 2 = 1 then nvmSubsystemReset false s
    else if v / 8 % 2 = 1 then requestStart s
    else if v / 4 % 2 = 1 then requestKeep s
    else s
  | .clk, _ =>
    if 0x10 ≤ h.off ∧ h.off < 0x24 then
      (let n := (h.off - 0x10) / 4
        if v % 2 = 0 ∧ pllWanted n s = true then writeIgnored h.addr req v s
        else if mask.getLsbD 0 then setPll n (v % 2 == 1) (plain s) else plain s)
    else plain s
  | _, _ => plain s

/-- Writes of channel and stream filter registers (R159, R166, R170, R177, R201–R204). -/
def writeChan (h : Hit) (mask new : Word) (req : Nat) (s : State) : State :=
  let v := new.toNat
  let n := h.inst
  let plain := plainWrite h mask new req
  let memory (per off : Nat) : State :=
    if fget (Fl.CHE_SF_CTX_STATE_STATE n ((h.off - off) / per)) s = 0 then plain s else writeIgnored h.addr req v s
  if h.off = 0x04 then
    let s1 := if v / 16 % 2 = 1 then requestRetire n (v / 256 % 256) req s else s
    let s2 := if chanUp n s1 && v % 2 == 1 then channelReset n s1 else s1
    let s3 := if chanUp n s2 && v / 2 % 2 == 1 then calibrate n (freeCal s2).good (freeCal s2).us (freeCal s2).again (useCal s2) else s2
    setHold n (v / 4 % 2) s3
  else if h.off = 0x08 then
    let b := v % 4096
    if 1500 < b ∨ v / 4096 % 8 = 0 then writeIgnored h.addr req v s
    else
      setMgt (fun m => { m with budgets := SMap.del m.budgets n })
        (s |> fset (Fl.CHE_GOV_CFG_BUDGET n) (Nat.max b 320) |> fset (Fl.CHE_GOV_CFG_ERASE_MAX n) (v / 4096 % 8))
  else if h.off = 0x8004 then scanAbortCtx n (v % 16) s
  else if 0xC000 ≤ h.off then memory 0x900 0xC000
  else if 0xB000 ≤ h.off then memory 0x40 0xB000
  else if 0x9000 ≤ h.off then memory 0x800 0x9000
  else plain s

/-- Writes of match bank registers (R208, R222, R223). -/
def writeMat (h : Hit) (mask new : Word) (req : Nat) (s : State) : State :=
  let v := new.toNat
  let n := h.inst
  if h.off = 0x04 then
    (if v % 4 ≠ fget (Fl.MAT_CFG_WIDTH n) s ∧ bankInUse n s = true then writeIgnored h.addr req v s
     else if v / 8 % 8 ≠ fget (Fl.MAT_CFG_PF_BYTE n) s then refreshTags n (plainWrite h mask new req s) else plainWrite h mask new req s)
  else if h.off = 0x08 then entryOp n (v % 8192) (v / 65536 % 4) req s
  else if 0x8000 ≤ h.off then
    writeTblMap ((h.off - 0x8000) / 8) req ((rd h.addr s &&& ~~~mask) ||| (new &&& mask)) s
  else plainWrite h mask new req s

/-- The operation under way on a compression engine ends with status 14 (R254). -/
def abortEngine (n : Nat) (s : State) : State :=
  if fget (Fl.CMP_STATUS_BUSY n) s = 1 then fset (Fl.CMP_STATUS_BUSY n) 0 s else s

/-- Writes of engine registers: compression, digest, keys (R251, R254, R257–R266, R275). -/
def writeEngine (h : Hit) (mask new : Word) (req : Nat) (s : State) : State :=
  let v := new.toNat
  let n := h.inst
  let plain := plainWrite h mask new req
  match h.blk with
  | .cmp =>
    if h.off = 0x04 then
      let s1 := if v % 2 = 1 then abortEngine n s else s
      if v / 2 % 2 = 0 then s1
      else if v / 256 % 256 = 0xA5 then retireComp n s1 else writeIgnored h.addr req v s1
    else if h.off = 0x08 ∧ 12 < v % 16 + v / 16 % 16 then writeIgnored h.addr req v s
    else plain s
  | .dig =>
    if h.off < 0x1000 then plain s
    else
      let c := (h.off - 0x1000) / 256
      let o := h.off % 256
      if o = 0 then digCtrl c v req s
      else if o = 0x18 then digData c new 8 0 req s
      else if 0x20 ≤ o ∧ o < 0xA0 then digKey c ((o - 0x20) / 8) mask new req s
      else if ownsCtx c req s then plain s
      else foreignWrite h.addr req h.row.bytes s
  | .key => if h.off = 0x04 then writeSlotOp v req (freeNat 1 s == 1) (useFree s) else plain s
  | _ => plain s

/-- Writes of cluster, scheduler and memory registers (R291–R293, R367, R405, R415, R417, R419). -/
def writeCore (h : Hit) (mask new : Word) (req : Nat) (s : State) : State :=
  let v := new.toNat
  let n := h.inst
  let plain := plainWrite h mask new req
  match h.blk with
  | .axc =>
    (match h.off with
    | 0x04 => axcCtrl n v req (freeNat 1 s == 1) (useFree s)
    | 0x08 => cacheCtrl n (v % 8) req s
    | 0x0C => wayLock n v req s
    | 0x14 => cmoStart n (v % 16) req (plain s)
    | _ => plain s)
  | .sch =>
    if h.off = 0x04 then setOrdered v s
    else if h.off = 0x40 then (if v % 8 = 4 then endOwnerCmd req s else routeCmd (v % 8) req s)
    else if 0x10000 ≤ h.off ∧ h.off % 256 = 0x50 then doneAndLeave ((h.off - 0x10000) / 256) (v % 256) req s
    else plain s
  | .dmc =>
    if h.off = 0x04 then
      let s1 := if v / 8 % 2 = 1 then dramRetire n (v / 256 % 256) req s else s
      let s2 := if v / 4 % 2 = 1 ∧ dmcUp n s1 = true then applyDelays n (freeNat 1 s1 == 1) (useFree s1) else s1
      if dmcUp n s2 then dramHold n (v % 2) s2 else s2
    else if h.off = 0x20 then
      if fget (Fl.DMC_REMAP_CMD_BUSY n) s = 1 then writeIgnored h.addr req v s
      else if v / 2 ^ 23 % 2 = 1 then retirePage n (v % 2 ^ 23) s else plain s
    else if h.off = 0x5C then writeIgnored h.addr req v s
    else plain s
  | .mem => if h.off = 0x14 then logTail (v % 256) s else plain s
  | _ => plain s

/-- Port bytes 0–3 of feature 0xC7 as LINK_CFG gives them (R442). -/
def portOfLink (n : Nat) (d : List Byte) (s : State) : List Byte :=
  let b (f : Fld) (i : Nat) : Nat := fget f s * 2 ^ i
  let w (x : Nat) : Byte := BitVec.ofNat 8 x
  [w (b (Fl.NET_LINK_CFG_ENABLE n) 0 + b (Fl.NET_LINK_CFG_FAILOVER n) 1 + b (Fl.NET_LINK_CFG_PFC_EN n) 2 +
      b (Fl.NET_LINK_CFG_TCP_EN n) 3 + b (Fl.NET_LINK_CFG_ROCE_EN n) 4),
    w (fget (Fl.NET_LINK_CFG_SPEED n) s), w (fget (Fl.NET_LINK_CFG_ROCE_PRIO n) s), w (fget (Fl.NET_LINK_CFG_PFC_MASK n) s)] ++ d.drop 4

/-- The host may not write a register of its letterbox page: H2M_HEAD, M2H_TAIL, STATUS and the M2H slots (R447). -/
def lbxHostRO (off : Nat) : Bool := off == 0x04 || off == 0x08 || off == 0x10 || decide (0x800 ≤ off)

/-- Management firmware writes M2H_TAIL itself: an advance interrupts as any other (R450). -/
def m2hTailWritten (n old : Nat) (s : State) : State :=
  if fget (Fl.LBX_VECTOR_EN n) s = 0 ∨ fget (Fl.LBX_M2H_TAIL_INDEX n) s = old then s
  else if irqOpen n (fget (Fl.LBX_VECTOR_NUM n) s) s then
    { s with ten := { s.ten with m2hIrqs := s.ten.m2hIrqs ++ [(n, fget (Fl.LBX_VECTOR_NUM n) s)] } }
  else irqPend n (fget (Fl.LBX_VECTOR_NUM n) s) s

/-- Writes of the host interface, ports, letterboxes, config flash, recorder and debug registers (R437, R442, R447, R462, R475,
R500, R502, R508, R513). -/
def writeRest (h : Hit) (mask new : Word) (req : Nat) (s : State) : State :=
  let v := new.toNat
  let n := h.inst
  let plain := plainWrite h mask new req
  match h.blk with
  | .hif => if h.off = 0x40 then fset Fl.HIF_FETCH_CTRL_HELD (v % 2) (plain s) else plain s
  | .net =>
    if h.off = 0x04 then
      let s1 := if v / 2 % 2 = 1 then portFault n (.ctrl (v / 256 % 256) req) s else s
      if v % 2 = 1 then retrain n s1 else s1
    else if h.off = 0x08 then
      let s1 := plain s
      setPort n (portOfLink n (portCfg n s1) s1) [] s1
    else plain s
  | .lbx =>
    if req < 0x100 then
      (if h.off = 0x08 then m2hTailWritten n (fget (Fl.LBX_M2H_TAIL_INDEX n) s) (plain s) else plain s)
    else if lbxHostRO h.off then barReserved n 4 (0x8000 + h.off) true s
    else if h.off = 0x00 then h2mDoorbell n (v % 256) s
    else if h.off = 0x0C then m2hHead n (v % 256) s
    else if h.off = 0x14 ∧ (resOf n s).vecs ≤ v / 2 % 128 then writeIgnored h.addr req v s
    else plain s
  | .cfl => if h.off = 0x04 then cflCommand v s else plain s
  | .mgt => if h.off = 0x48 then (if mgmtCapOk (v % 256) then setMgmtCap (v % 256) s else writeIgnored h.addr req v s) else plain s
  | .pbk =>
    if h.off = 0x04 then plainWrite h mask (new ||| 0x30000) req s
    else if h.off = 0x40 ∨ h.off = 0x50 then takeWindow ((h.off - 0x40) / 16) (((rd h.addr s &&& ~~~mask) ||| (new &&& mask)).toNat % 2 ^ 56) s
    else if 0x100 ≤ h.off ∧ h.off < 0x480 ∧ h.off % 64 = 4 ∧ v / 2 ^ 31 % 2 = 1 then submitPostmark ((h.off - 0x100) / 64) req (plain s)
    else plain s
  | .dbg =>
    if h.off = 0x04 then
      (if v % 2 = 0 then s else if v / 256 % 256 = 0xD7 then requestDebugReset 1 s else writeIgnored h.addr req v s)
    else if 0x1000 ≤ h.off then
      let k := dbgCore h
      (match dbgOff h with
      | 0x00 => coreCtrl k v mask new h req s
      | 0x08 => setDbgPc k ((((coreAt k s).pc) &&& ~~~mask) ||| (new &&& mask)) s
      | 0x18 => setDbgReg k ((dbgReg k s &&& ~~~mask) ||| (new &&& mask)) s
      | _ => plain s)
    else plain s
  | _ => plain s

/-- A write takes effect. -/
def writeHit (h : Hit) (mask new : Word) (req : Nat) (s : State) : State :=
  match h.blk with
  | .pwr | .aon | .clk => writePower h mask new req s
  | .che => writeChan h mask new req s
  | .mat => writeMat h mask new req s
  | .cmp | .dig | .key => writeEngine h mask new req s
  | .axc | .sch | .dmc | .mem => writeCore h mask new req s
  | .ctc | .hif | .net | .lbx | .cfl | .mgt | .pbk | .dbg => writeRest h mask new req s

/-- A write that only this requester may not make: SUBMIT of another agent (R512), a context of another owner (R260), a key slot
(R275), a core control of a core that is off or a RESUME of one that runs (R513). -/
def writeDenied (h : Hit) (v req : Nat) (s : State) : Bool :=
  match h.blk with
  | .pbk => decide (0x100 ≤ h.off) && decide (h.off < 0x480) && req != submitAgent ((h.off - 0x100) / 64)
  | .key => h.off == 4 && !(decide (req ≤ 0x0B) || req == 0x10 || req == 0x11)
  | .dbg => decide (0x1000 ≤ h.off) && dbgOff h == 0 && decide (v % 8 ≠ 0) &&
      (!coreDomain (dbgCore h) s || (v / 2 % 2 == 1 && !coreHalted (dbgCore h) s))
  | _ => false

/-- The context write is a foreign one. -/
def writeForeign (h : Hit) (v req : Nat) (s : State) : Bool :=
  h.blk == .dig && decide (0x1000 ≤ h.off) && !ownsCtx ((h.off - 0x1000) / 256) req s && !(h.off % 256 == 0 && v / 16 % 8 == 6)

/-! ### Reads -/

/-- The value a register has now: its fields, but the tick, a recorder window (R500) and the registers of a halted core (R508) as they
stand. -/
def readNow (h : Hit) (s : State) : Word :=
  let plain : Word := rd h.addr s &&& readMask h.row
  match h.blk with
  | .sch => if 0x10000 ≤ h.off ∧ (h.off - 0x10000) % 256 = 0x78 then rd Reg.SCH_TICK s else plain
  | .pbk =>
    if h.off < 0x1000 then plain
    else
      let i := (h.off - 0x1000) % 0x400
      let w := SMap.getD s.pbk.win ((h.off - 0x1000) / 0x400) []
      let bs := match w[i / 64]? with
        | some p => postmarkBytes p
        | none => []
      BitVec.ofNat 64 (leVal ((bs.drop (i % 64)).take 4))
  | .dbg =>
    if h.off < 0x1000 then plain
    else if dbgOff h = 0x08 then (coreAt (dbgCore h) s).pc
    else if dbgOff h = 0x18 then dbgReg (dbgCore h) s
    else plain
  | _ => plain

/-- The value of a register, and what reading it does: the actions of a port page (R367). What the power monitors measure is open (log
entry 11). -/
def readHit (h : Hit) (s : State) : Word × State :=
  match h.blk with
  | .sch =>
    if h.off < 0x10000 then (readNow h s, s)
    else
      let p := (h.off - 0x10000) / 256
      (match h.off % 256 with
      | 0x20 => portSubmit p s
      | 0x28 =>
        let t := takeAndStart p (freeNat 7 s) (freeNat 30 s) (useFree s)
        (rd (Reg.SCH_TAKE p) t, t)
      | 0x60 => portQuery p s
      | 0x68 => portCancel p s
      | 0x70 => portCtr p (fget (Fl.SCH_ARG_OP p) s) s
      | _ => (readNow h s, s))
  | .pwr => if 0x0C ≤ h.off ∧ h.off ≤ 0x14 then (BitVec.ofNat 64 (freeNat 32 s), useFree s) else (readNow h s, s)
  | .dbg => (readNow h s, useFree s)
  | _ => (readNow h s, s)

/-- The low or high word of a register value. -/
def loWord (v : Word) : Word := v &&& 0xFFFFFFFF
/-- The high word, as a low word. -/
def hiWord (v : Word) : Word := v >>> 32

/-- Changes the words kept between half accesses. -/
def setLatch (k : Nat) (v : Option Word) (s : State) : State :=
  { s with bus := { s.bus with latch := match v with
      | some x => SMap.put s.bus.latch k x
      | none => SMap.del s.bus.latch k } }

/-- A read of `n` bytes of control space by `req`: the value, none for a bus error (R9, R34). -/
def regRead (a n req : Nat) (s : State) : Option Word × State :=
  let bad : Option Word × State := (none, busError a req n s)
  if (n ≠ 4 ∧ n ≠ 8) ∨ a % n ≠ 0 then bad
  else match regHit a with
    | none => bad
    | some h =>
      if !regThere h req s then bad
      else if n = h.row.bytes ∧ a = h.addr then
        let r := readHit h s
        (some r.1, r.2)
      else if n = 8 then
        (match byteStruct h, hitAt (a + 4) with
        | true, some g =>
          let r := readHit h s
          let q := readHit g r.2
          (some (loWord r.1 ||| (q.1 <<< 32)), q.2)
        | _, _ => bad)
      else if a = h.addr then
        let r := readHit h s
        (some (loWord r.1), setLatch (2 * h.addr) (some (hiWord r.1)) r.2)
      else match SMap.find s.bus.latch (2 * h.addr) with
        | some v => (some v, setLatch (2 * h.addr) none s)
        | none => (some (hiWord (readNow h s)), s)

/-! ### Writes -/

/-- The write reaches the register, or is refused with a bus error. -/
def writeThere (h : Hit) (a n : Nat) (mask new : Word) (req : Nat) (s : State) : Bool × State :=
  if writeDenied h new.toNat req s then (false, busError a req n s)
  else if writeForeign h new.toNat req s then (false, foreignWrite a req n s)
  else (true, writeHit h mask new req s)

/-- A write of `n` bytes of control space by `req`: whether it completed without a bus error (R9, R34). A word-fed context takes
accesses of every size (R263). DESIGN CHOICE (log entry 56): a low word held for a register stays held when one 64-bit access writes that
register, and a later write of the high word applies it. -/
def regWrite (a n : Nat) (v : Word) (req : Nat) (s : State) : Bool × State :=
  let bad : Bool × State := (false, busError a req n s)
  let feed : Option Nat := match regHit (a / 8 * 8) with
    | some h => if h.blk = .dig ∧ 0x1000 ≤ h.off ∧ h.off % 256 = 0x18 then some ((h.off - 0x1000) / 256) else none
    | none => none
  match feed with
  | some c =>
    if n = 8 ∧ a % 8 = 0 then (digUp s && ownsCtx c req s, digData c v 8 0 req s)
    else if digUp s && ownsCtx c req s && (n == 1 || n == 2 || a % n != 0) then (false, busError a req n (digData c v n (a % 8) req s))
    else (false, digData c v n (a % 8) req s)
  | none =>
    if (n ≠ 4 ∧ n ≠ 8) ∨ a % n ≠ 0 then bad
    else match regHit a with
      | none => bad
      | some h =>
        let all : Word := BitVec.allOnes 64
        if !regThere h req s then bad
        else if n = h.row.bytes ∧ a = h.addr then writeThere h a n (if n = 4 then 0xFFFFFFFF else all) (if n = 4 then loWord v else v) req s
        else if n = 8 then
          (match byteStruct h, hitAt (a + 4) with
          | true, some g =>
            let r := writeThere h a n 0xFFFFFFFF (loWord v) req s
            if r.1 then writeThere g a n 0xFFFFFFFF (hiWord v) req r.2 else r
          | _, _ => bad)
        else if a = h.addr then (true, setLatch (2 * h.addr + 1) (some (loWord v)) s)
        else match SMap.find s.bus.latch (2 * h.addr + 1) with
          | some lo => writeThere h a n all (lo ||| (v <<< 32)) req (setLatch (2 * h.addr + 1) none s)
          | none => writeThere h a n 0xFFFFFFFF00000000 (v <<< 32) req s

/-- An access to this address waits for its unit (R37). -/
def accessStalls (a req : Nat) (s : State) : Bool :=
  match regHit a with
  | some h => regThere h req s && regStalls h s
  | none => false

/-- An address of control register space (R33). -/
def inControl (a : Nat) : Bool := decide (0x40000000 ≤ a) && decide (a < 0x80000000)

/-- An access that R9 calls malformed: its size, its alignment, or wider than the register it addresses. -/
def malformed (a n : Nat) : Bool :=
  (n != 4 && n != 8) || decide (a % n ≠ 0) ||
    (match regHit a with
      | some h => n == 8 && h.row.bytes == 4 && !(byteStruct h && (hitAt (a + 4)).isSome)
      | none => false)

/-- Row REGISTER_WRITE: a write of `size` bytes at `addr` by requester `req`; it waits while its unit is busy (R37). -/
def execRegisterWrite (addr size : Nat) (value : Word) (req : Nat) (s : State) : Out :=
  if inControl addr = false then .next s
  else if accessStalls addr req s && !malformed addr size then
    .next { s with bus := { s.bus with stalled := s.bus.stalled ++ [⟨addr, size, some value, req⟩] } }
  else .next (regWrite addr size value req s).2

/-- Row MALFORMED_REGISTER_ACCESS: a read or, with a value, a write (R9). -/
def execMalformedRegisterAccess (addr size : Nat) (value : Option Word) (req : Nat) (s : State) : Out :=
  if inControl addr && malformed addr size then
    match value with
    | some v => .next (regWrite addr size v req s).2
    | none => .next (busError addr req size s)
  else .next s

/-- The regions of R33. -/
def inMap (a : Nat) : Bool :=
  decide (a < 0x4000000) || (decide (0x8000000 ≤ a) && decide (a < 0x8040000)) || (decide (0x10000000 ≤ a) && decide (a < 0x20000000)) ||
    (decide (0x40000000 ≤ a) && decide (a < 0x81000000)) || (decide (0x4000000000 ≤ a) && decide (a < 0x6000000000)) ||
    (decide (0x8000000000 ≤ a) && decide (a < 0x10000000000)) || (decide (0x100000000000 ≤ a) && decide (a < 0x200000000000))

/-- Row RESERVED_ADDRESS_ACCESS (R34). -/
def execReservedAddressAccess (addr size req : Nat) (s : State) : Out :=
  if !inMap addr then .next (busError addr req size s)
  else if inControl addr then
    match regHit addr with
    | none => .next (busError addr req size s)
    | some h => .next (if unitOn h.blk h.inst s then s else busError addr req size s)
  else .next s

/-- Row STALLED_ACCESS_COMPLETE: the longest-waiting access whose unit is free again completes normally, or under R34 where the unit
is gone (R37). -/
def execStalledAccessComplete (s : State) : Out :=
  match s.bus.stalled.find? (fun x => !accessStalls x.addr x.req s) with
  | none => .next s
  | some x =>
    let s1 := { s with bus := { s.bus with stalled := s.bus.stalled.erase x } }
    match x.val with
    | some v => .next (regWrite x.addr x.size v x.req s1).2
    | none => .next (regRead x.addr x.size x.req s1).2

end Sys2Proof.Machine
end

