-- ==== Sys2Proof/Machine/PhysOps.lean ====
section
/-! DEFINITION. Accesses to the controller physical address map by cores and the debug link (R33–R35, R233, R286, R409–R411). -/

namespace Sys2Proof.Machine

/-- DMC port of a requester (R401). -/
def dmcPort (req : Nat) : Nat := if req ≤ 0x0B then 0 else if 0x40 ≤ req ∧ req < 0x80 then 5 else 6

/-- Requesters of the match-array data window (R233). -/
def windowAgent (req : Nat) : Bool := decide (req ≤ 0x0B) || req == 0x10 || req == 0x11

/-- One byte of a bank's data window (R233); none outside its table. -/
def matByte (bank o : Nat) (s : State) : Option Byte :=
  let b (x : Nat) : Byte := BitVec.ofNat 8 x
  if o < 0x80000 then
    let row := o / 64
    let r := camRow bank row s
    let i := o % 64
    some (if i < 16 then r.value.extractLsb' (8 * i) 8
      else if i < 32 then r.care.extractLsb' (8 * (i - 16)) 8
      else if i = 32 then b ((if r.valid then 1 else 0) + (if s.mat.spared.contains (8192 * bank + row) then 2 else 0))
      else 0)
  else if o < 0x80400 then
    let g := (o - 0x80000) / 8
    let t := SMap.getD s.mat.tags (128 * bank + g) (0, 0)
    some (match o % 8 with
      | 0 => b t.1
      | 1 => b t.2
      | 2 => b (if (groupHeads bank g s).isEmpty then 0 else 1)
      | _ => 0)
  else if 0x81000 ≤ o ∧ o < 0x81200 then
    let rows := (s.mat.spared.filter (fun r => r / 8192 == bank)).map (· % 8192)
    some (match rows[(o - 0x81000) / 8]? with
      | none => 0
      | some r => match o % 8 with
        | 0 => b r
        | 1 => b (r / 256)
        | 2 => 1
        | _ => 0)
  else none

/-- Every address of an access lies in `[lo, hi)`. -/
def within (a n lo hi : Nat) : Bool := decide (lo ≤ a) && decide (a + n ≤ hi)

/-- All answers, or none. -/
def allSome {α : Type} : List (Option α) → Option (List α)
  | [] => some []
  | none :: _ => none
  | some x :: t => (allSome t).map (fun l => x :: l)

/-- The memory at an address is powered: the fabric and, of DRAM, its channel (R67). -/
def memOn (a : Nat) (s : State) : Bool := pdOn 3 s && (decide (a < 0x4000000) || dmcUp (dramPlace a s).1 s)

/-- Each of the `n` bytes is memory that is powered. -/
def memAt (a n : Nat) (s : State) : Bool := (List.range n).all (fun i => isMem (a + i) s && memOn (a + i) s)

/-- An access at a physical address waits: for a unit under live update (R37), or for a DRAM channel that is held. -/
def accessWaits (req a : Nat) (s : State) : Bool := (inControl a && accessStalls a req s) || dramHeld a s

/-- `n` bytes read at a physical address by `req`, none for a bus error (R33–R35, R410, R411). A read of the PCIe outbound window
answers open bytes. -/
def physRead (req a n : Nat) (s : State) : Option (List Byte) × State :=
  let bad (t : State) : Option (List Byte) × State := (none, busError a req n t)
  if inControl a then
    let r := regRead a n req s
    (r.1.map (fun v => leBytes n v.toNat), r.2)
  else if memAt a n s then
    match (List.range n).find? (fun i => poisoned (a + i) s) with
    | none => (some (rdBytes a n s), s)
    | some i => if inDram (a + i) s then bad (readLine (a + i) (dmcPort req) .good s).1 else bad s
  else if within a n 0x8000000 0x8040000 then (some ((List.range n).map (fun i => Config.bootRom (a + i - 0x8000000))), s)
  else if within a n 0x10000000 0x20000000 && pdOn 2 s then
    (some ((List.range n).map (fun i => (flashWord (a + i - 0x10000000) s).extractLsb' (8 * ((a + i) % 8)) 8)), useFree s)
  else if within a n 0x80000000 0x81000000 && windowAgent req && bankUp ((a - 0x80000000) / 0x100000) s then
    match allSome ((List.range n).map (fun i => matByte ((a - 0x80000000) / 0x100000) (a % 0x100000 + i) s)) with
    | some bs => (some bs, s)
    | none => bad s
  else if within a n 0x8000000000 0x10000000000 && pdOn 7 s then (some (freeBytes n s), { s with free := s.free + n })
  else bad s

/-- Bytes written to DRAM or fabric SRAM. A write that covers no whole line of a line that cannot be read is lost (R409); an uncached
one is a narrow write (R408). -/
def memWrite (req : Nat) (cached : Bool) (core : Option Nat) (a : Nat) (bs : List Byte) (s : State) : State :=
  if inDram a s && (!cached || poisoned a s) then narrowWrite a (dmcPort req) bs core .good s
  else writeSpace .phys a bs s

/-- A write of bytes at a physical address by `req`: whether it completed without a bus error. Writes of the PCIe outbound window leave
the module. -/
def physWrite (req : Nat) (cached : Bool) (core : Option Nat) (a : Nat) (bs : List Byte) (s : State) : Bool × State :=
  let n := bs.length
  if inControl a then regWrite a n (BitVec.ofNat 64 (leVal bs)) req s
  else if memAt a n s then
    let k := 64 - a % 64
    (true, if n ≤ k then memWrite req cached core a bs s
      else memWrite req cached core (a + k) (bs.drop k) (memWrite req cached core a (bs.take k) s))
  else if within a n 0x80000000 0x81000000 && windowAgent req then
    let bank := (a - 0x80000000) / 0x100000
    let off := a % 0x100000
    let w := widthUnits (fget (Fl.MAT_CFG_WIDTH bank) s)
    (bankUp bank s && decide (off < 0x80000) && !(camRow bank (off / 64 / w * w) s).valid,
      match execMatchWindowWrite bank off req bs s with
      | .next t => t
      | _ => s)
  else if within a n 0x8000000000 0x10000000000 && pdOn 7 s then (true, s)
  else (false, busError a req n s)

/-- A store of a compute core leaves its lines dirty in the caches of its cluster where they are on, whose locked entries it hits (R286, R291). -/
def markDirty (cluster : Nat) (before : State) (a n : Nat) (s : State) : State :=
  let s := { s with clus := SMap.upd s.clus cluster (fun c => { c with locked := ((SMap.find before.clus cluster).map (·.locked)).getD [] }) }
  let mark (l : Nat) (t : State) : State :=
    let old := match SMap.find before.dirty l with
      | some d => d.old
      | none => rdBytes (64 * l) 64 before
    { t with dirty := SMap.put t.dirty l ⟨cluster, old⟩ }
  let first := a / 64
  let last := (a + n - 1) / 64
  if first = last then mark first s else mark last (mark first s)

end Sys2Proof.Machine
end

