-- ==== Sys2Proof/Machine/CoreExec.lean ====
section
/-! DEFINITION. How a core executes one instruction word: fields, fetch, translation, memory access, effects and traps (R307–R310,
R317–R319, R334–R341). -/

namespace Sys2Proof.Machine

/-! ### The instruction word (R309) -/

/-- Bits of an instruction word. -/
def wbits (w : Half) (lo n : Nat) : Nat := w.toNat / 2 ^ lo % 2 ^ n
/-- Major opcode. -/
def majOf (w : Half) : Nat := wbits w 26 6
/-- RD, RT, VD, GD or VT. -/
def rdOf (w : Half) : Nat := wbits w 21 5
/-- RA, VA or GA. -/
def raOf (w : Half) : Nat := wbits w 16 5
/-- RB, VB, GB or IDX. -/
def rbOf (w : Half) : Nat := wbits w 11 5
/-- RC. -/
def rcOf (w : Half) : Nat := wbits w 6 5
/-- FN of ALU3 and VR. -/
def fnOf (w : Half) : Nat := wbits w 0 6
/-- IMM16 or OFF16. -/
def immOf (w : Half) : Nat := wbits w 0 16
/-- FN of SYS. -/
def sysFnOf (w : Half) : Nat := wbits w 10 6
/-- SIMM10. -/
def simmOf (w : Half) : Nat := wbits w 0 10

/-- The low `n` bits of a number, sign-extended to 64. -/
def sext (x n : Nat) : Word := (BitVec.ofNat n x).signExtend 64

/-! ### Effects -/

/-- What the body of an instruction comes to: it ends and the PC passes on; it ends with a jump; it ends having set the PC itself; it
traps with a cause and FADDR; or the core stays where it is (a halt, a wait, a suspended letter). -/
inductive Eff where
  | done (s : State)
  | jump (target : Word) (s : State)
  | went (s : State)
  | trap (cause : Nat) (faddr : Word) (s : State)
  | stay (s : State)

/-- The effect is carried out (R307, R330, R335). -/
def finish (k : Nat) (w : Half) (e : Eff) : State :=
  match e with
  | .done s => afterStep k (retire k (setPc k ((coreAt k s).pc + 4) s))
  | .jump t s => afterStep k (retire k (setPc k t s))
  | .went s => afterStep k (retire k s)
  | .trap c f s => takeTrap k c w f s
  | .stay s => s

/-- The reserved-instruction trap. -/
def reserved (s : State) : Eff := .trap 0x03 0 s

/-- STKLIM of the level a core runs at (R333). -/
def stklim (k : Nat) (s : State) : Word :=
  sysAt k (if (coreAt k s).lvl = 0 then 0x004 else if (coreAt k s).lvl = 1 then 0x047 else 0x087) s

/-- stack_check fails for `v` (R317). -/
def stackLow (k : Nat) (v : Word) (s : State) : Bool :=
  (stklim k s).getLsbD 0 && decide (v.toNat < (stklim k s).toNat / 8 * 8)

/-- A result is written to a general register; g31 is subject to the stack-limit check. -/
def putG (k r : Nat) (v : Word) (s : State) : Eff :=
  if r = 31 ∧ stackLow k v s = true then .trap 0x0B v s else .done (setG k r v s)

/-! ### Translation (R340, R341) -/

/-- Kinds of access. -/
inductive Access where
  | load | store | fetch
  deriving DecidableEq, Repr

/-- What an address comes to: a physical address and whether it is cacheable, media-window space, a translation fault or a bus
error. -/
inductive Tr where
  | pa (a : Nat) (cached : Bool) | window | fault | bus
  deriving DecidableEq, Repr

/-- A physical address of media-window space. -/
def inWindow (a : Nat) : Bool := decide (0x100000000000 ≤ a) && decide (a < 0x200000000000)

/-- An enabled PMR grants an access of `n` bytes (R340). -/
def pmrAllows (k a n : Nat) (acc : Access) (s : State) : Bool :=
  (List.range 8).any (fun i =>
    let p := sysAt k (0xC0 + i) s
    let size := 2 ^ extractField p 3 6
    let base := extractField p 12 36 * 4096
    p.getLsbD 0 && decide (base % size = 0) && decide (base ≤ a) && decide (a + n ≤ base + size) &&
      (match acc with
        | .load => true
        | .store => p.getLsbD 1
        | .fetch => p.getLsbD 2))

/-- Permission of a leaf entry for an access at a level. -/
def leafAllows (e : Word) (lvl : Nat) (acc : Access) : Bool :=
  (match acc with
    | .load => e.getLsbD 1
    | .store => e.getLsbD 2
    | .fetch => e.getLsbD 3) &&
  (if lvl = 0 then e.getLsbD 4 else !(e.getLsbD 4 && acc == .fetch))

/-- A table walk: the leaf with the place of its entry and the bits it maps, or what goes wrong (R341). -/
def walk (k va : Nat) (s : State) : List Nat → Nat → Except Tr TlbEnt
  | [], _ => .error .fault
  | bits :: rest, table =>
    let at' := table + 8 * (va / 2 ^ bits % 512)
    if !pmrAllows k at' 8 .load s || !memAt at' 8 s || !(List.range 8).all (fun i => !poisoned (at' + i) s) then .error .bus
    else
      let e : Word := BitVec.ofNat 64 (leVal (rdBytes at' 8 s))
      let pa := extractField e 12 36 * 4096
      if !e.getLsbD 0 || extractField e 8 4 ≠ 0 || extractField e 48 16 ≠ 0 then .error .fault
      else if extractField e 1 3 = 0 then walk k va s rest pa
      else if pa % 2 ^ bits ≠ 0 then .error .fault
      else .ok ⟨va / 2 ^ bits * 2 ^ bits, bits, e, at'⟩

/-- The core's TLB entry that covers an address. -/
def tlbHit (k va : Nat) (s : State) : Option TlbEnt := (coreAt k s).tlb.find? (fun t => t.va == va / 2 ^ t.bits * 2 ^ t.bits)

/-- A translation enters the TLB; the oldest of 64 leaves. -/
def tlbPut (k : Nat) (t : TlbEnt) (s : State) : State :=
  if (coreAt k s).tlb.contains t then s else
  let l := (coreAt k s).tlb.filter (fun x => !(x.va == t.va && x.bits == t.bits))
  setCore k { coreAt k s with tlb := (if 64 ≤ l.length then l.drop 1 else l) ++ [t] } s

/-- A leaf is used: permission, then A and D are set in the entry and its cached copy. -/
def useLeaf (k va : Nat) (acc : Access) (t : TlbEnt) (s : State) : Tr × State :=
  if !leafAllows t.entry (coreAt k s).lvl acc then (.fault, s)
  else
    let pa := extractField t.entry 12 36 * 4096 + va % 2 ^ t.bits
    let ad : Nat := if acc = .store then 0xC0 else 0x40
    let e := t.entry ||| BitVec.ofNat 64 ad
    let out (x : State) : Tr × State := (if inWindow pa then .window else .pa pa (t.entry.getLsbD 5), x)
    if e = t.entry then out (tlbPut k t s)
    else if !pmrAllows k t.at_ 8 .store s then (.bus, s)
    else
      let now : Nat := leVal (rdBytes t.at_ 8 s)
      out (tlbPut k { t with entry := e } (wrBytes t.at_ (leBytes 8 (now ||| ad)) s))

/-- Translation through the tables at TBASE. -/
def tableXlate (k va : Nat) (acc : Access) (s : State) : Tr × State :=
  let tb := sysAt k 0x48 s
  if !tb.getLsbD 0 then (.fault, s)
  else match tlbHit k va s with
    | some t => useLeaf k va acc t s
    | none => match walk k va s [39, 30, 21, 12] (extractField tb 12 36 * 4096) with
      | .error e => (e, s)
      | .ok t => useLeaf k va acc t s

/-- Translation of a User address by the tables the runtime has built for an execution (R381). -/
def execXlate (e va : Nat) (acc : Access) (s : State) : Tr :=
  match SMap.find s.prog.execs e with
  | none => .fault
  | some x =>
    match regionAt x va with
    | some r =>
      if acc = .fetch ∧ r.exec = false then .fault
      else match xlate (.exec e) (acc == .store) va s with
        | some a => .pa a true
        | none => .fault
    | none => if acc ≠ .fetch ∧ (winUnit e va s).isSome = true then .window else .fault

/-- A physical address for an access of `n` bytes that stays in one page. An access that gets none has no effect, the marking of entries
included (R330, R340). -/
def translate (k : Nat) (ea : Word) (n : Nat) (acc : Access) (s : State) : Tr × State :=
  let a := ea.toNat
  let c := coreAt k s
  if !isCompute k || c.lvl == 2 then
    (if 2 ^ 48 ≤ a then .bus else if inWindow a then (if acc = .fetch then .bus else .window) else .pa a (!isCompute k), s)
  else if 2 ^ 48 ≤ a then (.fault, s)
  else match c.lvl, c.tables with
    | 0, some e => (execXlate e a acc s, s)
    | _, _ =>
      let r := tableXlate k a acc s
      match r.1 with
      | .pa p _ => if pmrAllows k p n acc r.2 then r else (.bus, s)
      | z => (z, s)

/-- The part of an access in its first page, and the rest. -/
def firstPart (ea : Word) (n : Nat) : Nat := Nat.min n (4096 - ea.toNat % 4096)

/-! ### Memory access -/

/-- An access has its value, traps, meets a watchpoint, or waits for a register (R37, R510). -/
inductive Mem (α : Type) where
  | ok (v : α) (s : State)
  | trap (cause : Nat) (s : State)
  | watch (i : Nat)
  | waits

/-- The trap cause of a translation that gives no physical address. -/
def trCause (t : Tr) : Nat :=
  match t with
  | .window => 0x0A
  | .fault => 0x0C
  | _ => 0x0D

/-- Both pages of an access are checked before any byte moves (R319); of two faults the one of lower priority number is taken (R337). -/
def translate2 (k : Nat) (ea : Word) (n : Nat) (acc : Access) (s : State) : Except Nat (Nat × Nat × Bool) × State :=
  let p := firstPart ea n
  let x := translate k ea p acc s
  if p = n then
    match x.1 with
    | .pa a c => (.ok (a, a + n, c), x.2)
    | t => (.error (trCause t), s)
  else
    let y := translate k (ea + BitVec.ofNat 64 p) (n - p) acc x.2
    match x.1, y.1 with
    | .pa a c, .pa b _ => (.ok (a, b, c), y.2)
    | .pa _ _, t => (.error (trCause t), s)
    | t, .pa _ _ => (.error (trCause t), s)
    | t, u => (.error (Nat.min (trCause t) (trCause u)), s)

/-- Byte `i` of an access of `n` bytes at `ea`: the bytes of its first page lie from `a` up, the others from `b` up. -/
def byteOf (ea : Word) (n a b i : Nat) : Nat := if i < firstPart ea n then a + i else b + (i - firstPart ea n)

/-- An access of core `k` waits. One to a held DRAM channel does not where the cluster's caches, which the model does not hold, may answer
it. -/
def coreWaits (k : Nat) (ea : Word) (n a b : Nat) (cached : Bool) (s : State) : Bool :=
  ((List.range n).map (byteOf ea n a b)).any (fun p =>
    accessWaits (coreReq k) p s && !(cached && isCompute k && fget (Fl.AXC_CACHE_CTRL_L2_EN (k / 8)) s == 1 && inDram p s))

/-- Loads `n` bytes. -/
def loadBytes (k : Nat) (ea : Word) (n : Nat) (s : State) : Mem (List Byte) :=
  match wpHit k ea.toNat n true false s with
  | some i => .watch i
  | none =>
    let p := firstPart ea n
    let x := translate2 k ea n .load s
    match x.1 with
    | .error c => .trap c x.2
    | .ok (a, b, c) =>
      if coreWaits k ea n a b c s then .waits
      else
        let r := physRead (coreReq k) a p x.2
        match r.1 with
        | none => .trap 0x0D r.2
        | some bs =>
          if p = n then .ok bs r.2
          else
            let q := physRead (coreReq k) b (n - p) r.2
            match q.1 with
            | none => .trap 0x0D q.2
            | some cs => .ok (bs ++ cs) q.2

/-- A store's bytes reach memory; where its cluster's caches are on, a cacheable line stays dirty there. -/
def storePart (k a : Nat) (cached : Bool) (bs : List Byte) (s : State) : Bool × State :=
  let r := physWrite (coreReq k) cached (some k) a bs s
  if r.1 && cached && isCompute k && inDram a s && fget (Fl.AXC_CACHE_CTRL_L2_EN (k / 8)) s == 1 then
    (true, markDirty (k / 8) s a bs.length r.2)
  else r

/-- Stores bytes. -/
def storeBytes (k : Nat) (ea : Word) (bs : List Byte) (s : State) : Mem Unit :=
  let n := bs.length
  match wpHit k ea.toNat n false true s with
  | some i => .watch i
  | none =>
    let p := firstPart ea n
    let x := translate2 k ea n .store s
    match x.1 with
    | .error c => .trap c x.2
    | .ok (a, b, c) =>
      if coreWaits k ea n a b c s then .waits
      else
        let r := storePart k a c (bs.take p) x.2
        if !r.1 then .trap 0x0D r.2
        else if p = n then .ok () r.2
        else
          let q := storePart k b c (bs.drop p) r.2
          if q.1 then .ok () q.2 else .trap 0x0D q.2

/-- The effect of an access of `k` at `ea`, from what it gives. -/
def withMem {α : Type} (k : Nat) (ea : Word) (s : State) (m : Mem α) (f : α → State → Eff) : Eff :=
  match m with
  | .ok v t => f v t
  | .trap c t => .trap c ea t
  | .watch i => .stay (haltCore k 2 i s)
  | .waits => .stay s

/-! ### Executing a word -/

/-- The instruction at the PC can be fetched: none, or the trap cause. Memory, the boot ROM and config flash can be executed; the
management core also runs from local SRAM, whose addresses are its own (R461). -/
def fetchCheck (k : Nat) (s : State) : Option Nat × State :=
  let x := translate k (coreAt k s).pc 4 .fetch s
  match x.1 with
  | .pa a _ =>
    (if (memAt a 4 s && !poisoned a s) || within a 4 0x8000000 0x8040000 || within a 4 0x10000000 0x20000000 ||
        (k == 76 && !inControl a) then none else some 0x02, x.2)
  | .fault => (some 0x01, x.2)
  | _ => (some 0x02, x.2)

/-- A core in IDLE goes on once an enabled interrupt is pending (R339). -/
def awake (k : Nat) (s : State) : State :=
  if (coreAt k s).idle && wakes k s then setCore k { coreAt k s with idle := false } s else s

/-- Core `k` executes the word `w` it has fetched, where `mine` says that the word is of this row. A core that cannot run does
nothing. -/
def runInstr (k : Nat) (w : Half) (mine : Bool) (body : State → Eff) (s : State) : State :=
  let s0 := awake k s
  if k < 77 ∧ mine = true ∧ coreRuns k s0 = true then
    match if (coreAt k s0).passBp then none else bpHit k (coreAt k s0).pc s0 with
    | some i => haltCore k 1 i s0
    | none =>
      let f := fetchCheck k s0
      match f.1 with
      | some c => takeTrap k c w (coreAt k s0).pc f.2
      | none => finish k w (body f.2)
  else s

end Sys2Proof.Machine
end

