-- ==== Sys2Proof/Machine/AluRows.lean ====
section
/-! DEFINITION. Rows ADD to ADDPC: the integer instructions (R311–R313). -/

namespace Sys2Proof.Machine

/-! ### Arithmetic -/

/-- The low word. -/
def loHalf (a : Word) : Half := a.setWidth 32
/-- A word sign-extended. -/
def sextW (x : Half) : Word := x.signExtend 64
/-- The high doubleword of a product. -/
def hiWide (x : BitVec 128) : Word := (x >>> 64).setWidth 64
/-- 1 for true, 0 for false. -/
def truth (b : Bool) : Word := if b then 1 else 0
/-- DIV (R312). -/
def divS (a b : Word) : Word := if b = 0 then BitVec.allOnes 64 else a.sdiv b
/-- DIVU (R312). -/
def divU (a b : Word) : Word := if b = 0 then BitVec.allOnes 64 else a.udiv b
/-- REM (R312). -/
def remS (a b : Word) : Word := if b = 0 then a else a.srem b
/-- REMU (R312). -/
def remU (a b : Word) : Word := if b = 0 then a else a.umod b
/-- CLZ. -/
def leadingZeros (a : Word) : Word := BitVec.ofNat 64 (if a = 0 then 64 else 63 - Nat.log2 a.toNat)
/-- CTZ. -/
def trailingZeros (a : Word) : Word := BitVec.ofNat 64 (((List.range 64).find? (fun i => a.getLsbD i)).getD 64)
/-- POPC. -/
def oneBits (a : Word) : Word := BitVec.ofNat 64 ((List.range 64).countP (fun i => a.getLsbD i))
/-- BSWAP. -/
def swapBytes (a : Word) : Word := BitVec.ofNat 64 (leVal (leBytes 8 a.toNat).reverse)

/-! ### Shapes -/

/-- An ALU3 instruction of two sources: RC must be zero, and RB where it names no rb. -/
def alu3 (k : Nat) (w : Half) (maj fn : Nat) (usesB : Bool) (f : Word → Word → Word) (s : State) : State :=
  runInstr k w (majOf w == maj && fnOf w == fn) (fun t =>
    if rcOf w ≠ 0 ∨ (usesB = false ∧ rbOf w ≠ 0) then reserved t
    else putG k (rdOf w) (f (gr k (raOf w) t) (gr k (rbOf w) t)) t) s

/-- An IMM instruction; `bad` says that a field which must be zero is not. -/
def immOp (k : Nat) (w : Half) (maj : Nat) (bad : Bool) (f : Word → Word) (s : State) : State :=
  runInstr k w (majOf w == maj) (fun t => if bad then reserved t else putG k (rdOf w) (f (gr k (raOf w) t)) t) s

/-- The immediate, sign-extended. -/
def immS (w : Half) : Word := sext (immOf w) 16
/-- The immediate, zero-extended. -/
def immZ (w : Half) : Word := BitVec.ofNat 64 (immOf w)
/-- The immediate in the high half of a word, sign-extended. -/
def immHi (w : Half) : Word := sext (immOf w * 65536) 32

/-- Axgal-Lite has no division (R348). -/
def divRow (k : Nat) (w : Half) (fn : Nat) (f : Word → Word → Word) (s : State) : State :=
  if k = 76 then runInstr k w (majOf w == 0x02 && fnOf w == fn) reserved s else alu3 k w 0x02 fn true f s

/-! ### Rows -/

/-- Row ADD. -/
def execAdd (k : Nat) (w : Half) (s : State) : Out := .next (alu3 k w 0x01 0x00 true (fun a b => a + b) s)
/-- Row SUB. -/
def execSub (k : Nat) (w : Half) (s : State) : Out := .next (alu3 k w 0x01 0x01 true (fun a b => a - b) s)
/-- Row AND. -/
def execAnd (k : Nat) (w : Half) (s : State) : Out := .next (alu3 k w 0x01 0x02 true (fun a b => a &&& b) s)
/-- Row OR. -/
def execOr (k : Nat) (w : Half) (s : State) : Out := .next (alu3 k w 0x01 0x03 true (fun a b => a ||| b) s)
/-- Row XOR. -/
def execXor (k : Nat) (w : Half) (s : State) : Out := .next (alu3 k w 0x01 0x04 true (fun a b => a ^^^ b) s)
/-- Row ANDN. -/
def execAndn (k : Nat) (w : Half) (s : State) : Out := .next (alu3 k w 0x01 0x05 true (fun a b => a &&& ~~~b) s)
/-- Row ORN. -/
def execOrn (k : Nat) (w : Half) (s : State) : Out := .next (alu3 k w 0x01 0x06 true (fun a b => a ||| ~~~b) s)
/-- Row SLL. -/
def execSll (k : Nat) (w : Half) (s : State) : Out := .next (alu3 k w 0x01 0x08 true (fun a b => a <<< (b.toNat % 64)) s)
/-- Row SRL. -/
def execSrl (k : Nat) (w : Half) (s : State) : Out := .next (alu3 k w 0x01 0x09 true (fun a b => a >>> (b.toNat % 64)) s)
/-- Row SRA. -/
def execSra (k : Nat) (w : Half) (s : State) : Out := .next (alu3 k w 0x01 0x0A true (fun a b => a.sshiftRight (b.toNat % 64)) s)
/-- Row ROR. -/
def execRor (k : Nat) (w : Half) (s : State) : Out := .next (alu3 k w 0x01 0x0B true (fun a b => a.rotateRight (b.toNat % 64)) s)
/-- Row ADDW. -/
def execAddw (k : Nat) (w : Half) (s : State) : Out := .next (alu3 k w 0x01 0x10 true (fun a b => sextW (loHalf a + loHalf b)) s)
/-- Row SUBW. -/
def execSubw (k : Nat) (w : Half) (s : State) : Out := .next (alu3 k w 0x01 0x11 true (fun a b => sextW (loHalf a - loHalf b)) s)
/-- Row SLLW. -/
def execSllw (k : Nat) (w : Half) (s : State) : Out := .next (alu3 k w 0x01 0x18 true (fun a b => sextW (loHalf a <<< (b.toNat % 32))) s)
/-- Row SRLW. -/
def execSrlw (k : Nat) (w : Half) (s : State) : Out := .next (alu3 k w 0x01 0x19 true (fun a b => sextW (loHalf a >>> (b.toNat % 32))) s)
/-- Row SRAW. -/
def execSraw (k : Nat) (w : Half) (s : State) : Out := .next (alu3 k w 0x01 0x1A true (fun a b => sextW ((loHalf a).sshiftRight (b.toNat % 32))) s)
/-- Row MUL. -/
def execMul (k : Nat) (w : Half) (s : State) : Out := .next (alu3 k w 0x02 0x00 true (fun a b => a * b) s)
/-- Row MULH. -/
def execMulh (k : Nat) (w : Half) (s : State) : Out := .next (alu3 k w 0x02 0x01 true (fun a b => hiWide (a.signExtend 128 * b.signExtend 128)) s)
/-- Row MULHU. -/
def execMulhu (k : Nat) (w : Half) (s : State) : Out := .next (alu3 k w 0x02 0x02 true (fun a b => hiWide (a.setWidth 128 * b.setWidth 128)) s)
/-- Row MULW. -/
def execMulw (k : Nat) (w : Half) (s : State) : Out := .next (alu3 k w 0x02 0x03 true (fun a b => sextW (loHalf a * loHalf b)) s)
/-- Row DIV. -/
def execDiv (k : Nat) (w : Half) (s : State) : Out := .next (divRow k w 0x08 divS s)
/-- Row DIVU. -/
def execDivu (k : Nat) (w : Half) (s : State) : Out := .next (divRow k w 0x09 divU s)
/-- Row REM. -/
def execRem (k : Nat) (w : Half) (s : State) : Out := .next (divRow k w 0x0A remS s)
/-- Row REMU. -/
def execRemu (k : Nat) (w : Half) (s : State) : Out := .next (divRow k w 0x0B remU s)
/-- Row CLZ. -/
def execClz (k : Nat) (w : Half) (s : State) : Out := .next (alu3 k w 0x02 0x10 false (fun a _ => leadingZeros a) s)
/-- Row CTZ. -/
def execCtz (k : Nat) (w : Half) (s : State) : Out := .next (alu3 k w 0x02 0x11 false (fun a _ => trailingZeros a) s)
/-- Row POPC. -/
def execPopc (k : Nat) (w : Half) (s : State) : Out := .next (alu3 k w 0x02 0x12 false (fun a _ => oneBits a) s)
/-- Row BSWAP. -/
def execBswap (k : Nat) (w : Half) (s : State) : Out := .next (alu3 k w 0x02 0x13 false (fun a _ => swapBytes a) s)
/-- Row SEXTB. -/
def execSextb (k : Nat) (w : Half) (s : State) : Out := .next (alu3 k w 0x02 0x14 false (fun a _ => sext a.toNat 8) s)
/-- Row SEXTH. -/
def execSexth (k : Nat) (w : Half) (s : State) : Out := .next (alu3 k w 0x02 0x15 false (fun a _ => sext a.toNat 16) s)
/-- Row SEXTW. -/
def execSextw (k : Nat) (w : Half) (s : State) : Out := .next (alu3 k w 0x02 0x16 false (fun a _ => sext a.toNat 32) s)
/-- Row ZEXTW. -/
def execZextw (k : Nat) (w : Half) (s : State) : Out := .next (alu3 k w 0x02 0x17 false (fun a _ => a &&& 0xFFFFFFFF) s)
/-- Row MIN. -/
def execMin (k : Nat) (w : Half) (s : State) : Out := .next (alu3 k w 0x02 0x18 true (fun a b => if b.slt a then b else a) s)
/-- Row MAX. -/
def execMax (k : Nat) (w : Half) (s : State) : Out := .next (alu3 k w 0x02 0x19 true (fun a b => if a.slt b then b else a) s)
/-- Row MINU. -/
def execMinu (k : Nat) (w : Half) (s : State) : Out := .next (alu3 k w 0x02 0x1A true (fun a b => if b.ult a then b else a) s)
/-- Row MAXU. -/
def execMaxu (k : Nat) (w : Half) (s : State) : Out := .next (alu3 k w 0x02 0x1B true (fun a b => if a.ult b then b else a) s)
/-- Row CMPEQ. -/
def execCmpeq (k : Nat) (w : Half) (s : State) : Out := .next (alu3 k w 0x03 0x00 true (fun a b => truth (a == b)) s)
/-- Row CMPNE. -/
def execCmpne (k : Nat) (w : Half) (s : State) : Out := .next (alu3 k w 0x03 0x01 true (fun a b => truth (a != b)) s)
/-- Row CMPLT. -/
def execCmplt (k : Nat) (w : Half) (s : State) : Out := .next (alu3 k w 0x03 0x02 true (fun a b => truth (a.slt b)) s)
/-- Row CMPLTU. -/
def execCmpltu (k : Nat) (w : Half) (s : State) : Out := .next (alu3 k w 0x03 0x03 true (fun a b => truth (a.ult b)) s)
/-- Row CMPLE. -/
def execCmple (k : Nat) (w : Half) (s : State) : Out := .next (alu3 k w 0x03 0x04 true (fun a b => truth (!b.slt a)) s)
/-- Row CMPLEU. -/
def execCmpleu (k : Nat) (w : Half) (s : State) : Out := .next (alu3 k w 0x03 0x05 true (fun a b => truth (!b.ult a)) s)

/-- Row SEL: the one ALU3 row that names rc. -/
def execSel (k : Nat) (w : Half) (s : State) : Out :=
  .next (runInstr k w (majOf w == 0x03 && fnOf w == 0x08) (fun t =>
    putG k (rdOf w) (if gr k (rcOf w) t = 0 then gr k (rbOf w) t else gr k (raOf w) t) t) s)

/-- Row ADDI. -/
def execAddi (k : Nat) (w : Half) (s : State) : Out := .next (immOp k w 0x04 false (fun a => a + immS w) s)
/-- Row ANDI. -/
def execAndi (k : Nat) (w : Half) (s : State) : Out := .next (immOp k w 0x05 false (fun a => a &&& immZ w) s)
/-- Row ORI. -/
def execOri (k : Nat) (w : Half) (s : State) : Out := .next (immOp k w 0x06 false (fun a => a ||| immZ w) s)
/-- Row XORI. -/
def execXori (k : Nat) (w : Half) (s : State) : Out := .next (immOp k w 0x07 false (fun a => a ^^^ immZ w) s)
/-- Row LUI. -/
def execLui (k : Nat) (w : Half) (s : State) : Out := .next (immOp k w 0x08 (raOf w != 0) (fun _ => immHi w) s)
/-- Row CMPEQI. -/
def execCmpeqi (k : Nat) (w : Half) (s : State) : Out := .next (immOp k w 0x0A false (fun a => truth (a == immS w)) s)
/-- Row CMPNEI. -/
def execCmpnei (k : Nat) (w : Half) (s : State) : Out := .next (immOp k w 0x0B false (fun a => truth (a != immS w)) s)
/-- Row CMPLTI. -/
def execCmplti (k : Nat) (w : Half) (s : State) : Out := .next (immOp k w 0x0C false (fun a => truth (a.slt (immS w))) s)
/-- Row CMPLTUI. -/
def execCmpltui (k : Nat) (w : Half) (s : State) : Out := .next (immOp k w 0x0D false (fun a => truth (a.ult (immS w))) s)

/-- SHI: shift or rotation by imm[5:0], kind imm[7:6]. -/
def shiftImm (w : Half) (a : Word) : Word :=
  let n := immOf w % 64
  match immOf w / 64 % 4 with
  | 0 => a <<< n
  | 1 => a >>> n
  | 2 => a.sshiftRight n
  | _ => a.rotateRight n

/-- Row SHI. -/
def execShi (k : Nat) (w : Half) (s : State) : Out := .next (immOp k w 0x09 (decide (256 ≤ immOf w)) (shiftImm w) s)

/-- Row ADDPC. -/
def execAddpc (k : Nat) (w : Half) (s : State) : Out :=
  .next (runInstr k w (majOf w == 0x0E) (fun t =>
    if raOf w ≠ 0 then reserved t else putG k (rdOf w) ((coreAt k t).pc + immHi w) t) s)

end Sys2Proof.Machine
end

