-- ==== Sys2Proof/Machine/DebugRows.lean ====
section
/-! DEFINITION. The Boward Debug Link: rows IDENT to DEBUG_RESET_COMMAND (R505–R513). -/

namespace Sys2Proof.Machine

/-- The requester number of the debug link (R542). -/
def linkReq : Nat := 0x11

/-- One bit of the CRC-8 of R506: polynomial 0x07. -/
def crc8Bit (c : Byte) : Byte := if c.msb then (c <<< 1) ^^^ 7 else c <<< 1

/-- CRC-8 over bytes, from a running value (R506). -/
def crc8 (c : Byte) : List Byte → Byte
  | [] => c
  | b :: t =>
    let x := c ^^^ b
    crc8 (crc8Bit (crc8Bit (crc8Bit (crc8Bit (crc8Bit (crc8Bit (crc8Bit (crc8Bit x)))))))) t

/-- A response packet: status, data most significant byte first, CRC (R506). -/
def linkPacket (code tag : Nat) (data : Option Word) : List Byte :=
  let body := BitVec.ofNat 8 (code * 8 + tag % 8) :: (match data with
    | some v => (leBytes 8 v.toNat).reverse
    | none => [])
  body ++ [crc8 0 body]

/-- Changes the link's state. -/
def updLink (f : DbgLink → DbgLink) (s : State) : State := { s with bus := { s.bus with link := f s.bus.link } }

/-- Sends a response, which stays the last one (R507). -/
def linkSend (code tag : Nat) (data : Option Word) (s : State) : State :=
  let s1 := updLink (fun l => { l with resp := linkPacket code tag data }) s
  if code = 0x12 then fset Fl.DBG_LINK_STATUS_FAULT 1 s1 else if code = 0x14 then fset Fl.DBG_LINK_STATUS_CRC_ERR 1 s1 else s1

/-- Shows PENDING in LINK_STATUS. -/
def showLink (s : State) : State :=
  fset Fl.DBG_LINK_STATUS_PENDING (if s.bus.link.pend.isSome || s.bus.link.done.isSome then 1 else 0) s

/-- A link access done on the physical map: its value (zero for a write), none for a bus error. -/
def linkAccess (x : BusAcc) (s : State) : Option Word × State :=
  match x.val with
  | none =>
    let r := physRead linkReq x.addr x.size s
    (r.1.map (fun bs => BitVec.ofNat 64 (leVal bs)), r.2)
  | some v =>
    let r := physWrite linkReq false none x.addr (leBytes x.size v.toNat) s
    (if r.1 then some 0 else none, r.2)

/-- The response to an access that has ended; the address advances after DONE (R506). -/
def linkAnswer (tag : Nat) (x : BusAcc) (r : Option Word) (s : State) : State :=
  match r with
  | some v =>
    linkSend 0x05 tag (if x.val.isNone then some v else none) (updLink (fun l => { l with addr := (x.addr + x.size) % 2 ^ 48 }) s)
  | none => linkSend 0x12 tag none s

/-- A request that is an access. It is answered PENDING where it is late, where its unit keeps it waiting, and where it first wakes the
module (R507, R511). -/
def linkRequest (tag : Nat) (x : BusAcc) (late : Bool) (s : State) : State :=
  let slow := late || mode s == 6 || mode s == 7 || accessWaits linkReq x.addr s
  let s1 := wakeBy 10 s
  if slow then linkSend 0x0A tag none (showLink (updLink (fun l => { l with pend := some x }) s1))
  else
    let r := linkAccess x s1
    linkAnswer tag x r.1 r.2

/-- A frame reaches the link: nothing where PD35 is off; FRAME_ERROR for a bad frame; BUSY while an access is pending, but for the
requests in `free'` (R505, R507). -/
def linkFrame (tag : Nat) (bad free' : Bool) (f : State → State) (s : State) : Out :=
  if !pdOn 35 s then .next s
  else if bad then .next (linkSend 0x14 tag none s)
  else if !free' && (s.bus.link.pend.isSome || s.bus.link.done.isSome) then .next (linkSend 0x18 tag none s)
  else .next (f s)

/-- Bytes of a SIZE code. -/
def linkSize (code : Nat) : Nat := 2 ^ (code % 4)

/-- The low bytes of the data that a write carries. -/
def linkData (code : Nat) (data : Word) : Word := data &&& BitVec.ofNat 64 (2 ^ (8 * linkSize code) - 1)

/-- Row IDENT (R506): no access. -/
def execIdent (tag : Nat) (badFrame : Bool) (s : State) : Out :=
  linkFrame tag badFrame false (fun t => linkSend 0x05 tag (some 0x4D01B0D7) (wakeBy 10 t)) s

/-- Row DEBUG_READ. -/
def execDebugRead (tag size addr : Nat) (badFrame late : Bool) (s : State) : Out :=
  linkFrame tag badFrame false (linkRequest tag ⟨addr % 2 ^ 48, linkSize size, none, linkReq⟩ late) s

/-- Row DEBUG_WRITE. -/
def execDebugWrite (tag size addr : Nat) (data : Word) (badFrame late : Bool) (s : State) : Out :=
  linkFrame tag badFrame false (linkRequest tag ⟨addr % 2 ^ 48, linkSize size, some (linkData size data), linkReq⟩ late) s

/-- Row READ_INC: at the address the link has advanced to. -/
def execReadInc (tag size : Nat) (badFrame late : Bool) (s : State) : Out :=
  linkFrame tag badFrame false (linkRequest tag ⟨s.bus.link.addr, linkSize size, none, linkReq⟩ late) s

/-- Row WRITE_INC. -/
def execWriteInc (tag size : Nat) (data : Word) (badFrame late : Bool) (s : State) : Out :=
  linkFrame tag badFrame false (linkRequest tag ⟨s.bus.link.addr, linkSize size, some (linkData size data), linkReq⟩ late) s

/-- Row COLLECT: the result of the pending access, or PENDING again; with no access pending the response code is open (R507). -/
def execCollect (tag : Nat) (badFrame : Bool) (s : State) : Out :=
  linkFrame tag badFrame true (fun u =>
    let t := wakeBy 10 u
    match t.bus.link.done with
    | some (r, x) => linkAnswer tag x r (showLink (updLink (fun l => { l with done := none }) t))
    | none => if t.bus.link.pend.isSome then linkSend 0x0A tag none t else linkSend (freeNat 5 t) tag none (useFree t)) s

/-- Row REPEAT: the last response is sent again, unchanged. While an access is pending the request is answered BUSY (R507). -/
def execRepeat (tag : Nat) (badFrame : Bool) (s : State) : Out := linkFrame tag badFrame false (wakeBy 10) s

/-- Row LINE_RESET: a partial packet is abandoned; packets are whole in this model, so no state changes. -/
def execLineReset (s : State) : Out := .next s

/-- Row DEBUG_ACCESS_COMPLETE: the pending access is done once its unit no longer keeps it waiting. -/
def execDebugAccessComplete (s : State) : Out :=
  match s.bus.link.pend with
  | none => .next s
  | some x =>
    if pdOn 35 s && !accessWaits linkReq x.addr s then
      let r := linkAccess x (updLink (fun l => { l with pend := none }) s)
      .next (showLink (updLink (fun l => { l with done := some (r.1, x) }) r.2))
    else .next s

/-! ### Halting through the DBG registers -/

/-- A register access of requester `req`: one by the debug link wakes the module from idle first (R60, R66). -/
def linkWakes (req : Nat) (s : State) : State := if req = linkReq then wakeBy 10 s else s

/-- A write of a core's page, as a register write. -/
def pageWrite (k off size : Nat) (v : Word) (req : Nat) (s : State) : Out :=
  if k < 77 then .next (regWrite (0x4F001000 + 0x100 * k + off) size v req (linkWakes req s)).2 else .next s

/-- CORE_CTRL with its kept bits and one action bit. -/
def ctrlWord (k bit : Nat) (s : State) : Word :=
  BitVec.ofNat 64 (bit + 8 * fget (Fl.DBG_CORE_CTRL_STEP_NOINT k) s + 16 * fget (Fl.DBG_CORE_CTRL_DBGTRAP_HALT k) s)

/-- Row CORE_HALT: HALT is written to CORE_CTRL (R508). -/
def execCoreHalt (k req : Nat) (s : State) : Out := pageWrite k 0 4 (ctrlWord k 1 s) req s

/-- Row CORE_RESUME. -/
def execCoreResume (k req : Nat) (s : State) : Out := pageWrite k 0 4 (ctrlWord k 2 s) req s

/-- Row CORE_STEP: the next instruction, trap or interrupt of the core ends the step (R509). -/
def execCoreStep (k : Nat) (noInt : Bool) (req : Nat) (s : State) : Out :=
  pageWrite k 0 4 (BitVec.ofNat 64 (4 + (if noInt then 8 else 0) + 16 * fget (Fl.DBG_CORE_CTRL_DBGTRAP_HALT k) s)) req s

/-- Row BREAKPOINT_HIT: a core that is to execute the address of an enabled breakpoint halts (R510). -/
def execBreakpointHit (k : Nat) (s : State) : Out :=
  if coreRuns k s && !(coreAt k s).passBp then
    match bpHit k (coreAt k s).pc s with
    | some i => .next (haltCore k 1 i s)
    | none => .next s
  else .next s

/-- Row WATCHPOINT_HIT: a core about to load from or store to `n` bytes at `addr`, which an enabled watchpoint watches, halts with no
effect of the access (R510). -/
def execWatchpointHit (k addr n : Nat) (load store : Bool) (s : State) : Out :=
  if coreRuns k s then
    match wpHit k addr n load store s with
    | some i => .next (haltCore k 2 i s)
    | none => .next s
  else .next s

/-- Row REG_DATA_WRITE. -/
def execRegDataWrite (k : Nat) (v : Word) (req : Nat) (s : State) : Out := pageWrite k 0x18 8 v req s

/-- Row PC_WRITE. -/
def execPcWrite (k : Nat) (v : Word) (req : Nat) (s : State) : Out := pageWrite k 8 8 v req s

/-- Row DEBUG_RESET_PIN: DRST_N low for 1 µs (R505, R511). -/
def execDebugResetPin (s : State) : Out := if pdOn 35 s then .next (requestDebugReset 0 s) else .next s

/-- Row DEBUG_RESET_COMMAND: DBG.CTRL.DRESET with its key (R513). -/
def execDebugResetCommand (key req : Nat) (s : State) : Out :=
  .next (regWrite Reg.DBG_CTRL 4 (BitVec.ofNat 64 (1 + 256 * (key % 256))) req (linkWakes req s)).2

end Sys2Proof.Machine
end

