-- ==== Sys2Proof/Machine/MemRows.lean ====
section
/-! DEFINITION. Rows LDB to AMO_ST: loads, stores, window loads, the pre-read hint and atomic operations (R318–R327). -/

namespace Sys2Proof.Machine

/-- EA of a load or store (R318). -/
def eaOf (k : Nat) (w : Half) (s : State) : Word := gr k (raOf w) s + sext (immOf w) 16

/-- The value of loaded bytes, sign-extended where `signed`. -/
def loadVal (bs : List Byte) (signed : Bool) : Word := if signed then sext (leVal bs) (8 * bs.length) else BitVec.ofNat 64 (leVal bs)

/-- A load of `n` bytes. -/
def loadRow (k : Nat) (w : Half) (maj n : Nat) (signed : Bool) (s : State) : State :=
  runInstr k w (majOf w == maj) (fun t =>
    let ea := eaOf k w t
    withMem k ea t (loadBytes k ea n t) (fun bs u => putG k (rdOf w) (loadVal bs signed) u)) s

/-- A store of `n` bytes. -/
def storeRow (k : Nat) (w : Half) (maj n : Nat) (s : State) : State :=
  runInstr k w (majOf w == maj) (fun t =>
    let ea := eaOf k w t
    withMem k ea t (storeBytes k ea (leBytes n (gr k (rdOf w) t).toNat) t) (fun _ u => .done u)) s

/-- Row LDB. -/
def execLdb (k : Nat) (w : Half) (s : State) : Out := .next (loadRow k w 0x10 1 true s)
/-- Row LDBU. -/
def execLdbu (k : Nat) (w : Half) (s : State) : Out := .next (loadRow k w 0x11 1 false s)
/-- Row LDH. -/
def execLdh (k : Nat) (w : Half) (s : State) : Out := .next (loadRow k w 0x12 2 true s)
/-- Row LDHU. -/
def execLdhu (k : Nat) (w : Half) (s : State) : Out := .next (loadRow k w 0x13 2 false s)
/-- Row LDW. -/
def execLdw (k : Nat) (w : Half) (s : State) : Out := .next (loadRow k w 0x14 4 true s)
/-- Row LDWU. -/
def execLdwu (k : Nat) (w : Half) (s : State) : Out := .next (loadRow k w 0x15 4 false s)
/-- Row LDD. -/
def execLdd (k : Nat) (w : Half) (s : State) : Out := .next (loadRow k w 0x16 8 false s)
/-- Row STB. -/
def execStb (k : Nat) (w : Half) (s : State) : Out := .next (storeRow k w 0x18 1 s)
/-- Row STH. -/
def execSth (k : Nat) (w : Half) (s : State) : Out := .next (storeRow k w 0x19 2 s)
/-- Row STW. -/
def execStw (k : Nat) (w : Half) (s : State) : Out := .next (storeRow k w 0x1A 4 s)
/-- Row STD. -/
def execStd (k : Nat) (w : Half) (s : State) : Out := .next (storeRow k w 0x1B 8 s)

/-! ### Media-window loads (R324–R327) -/

/-- A window load of `n` bytes. A letter that suspends under a step halts the core (R509). -/
def windowLoadRow (k : Nat) (w : Half) (maj n : Nat) (s : State) : State :=
  runInstr k w (majOf w == maj) (fun t =>
    if !isCompute k || rdOf w == 31 then reserved t
    else
      let ea := eaOf k w t
      match wpHit k ea.toNat n true false t with
      | some i => .stay (haltCore k 2 i t)
      | none =>
        let r := windowLoad k ea.toNat n t
        match r.1 with
        | .served bs => .done (setG k (rdOf w) (loadVal bs false) r.2)
        | .trap c => .trap c ea r.2
        | .waits => .stay (if (coreAt k r.2).stepping then haltCore k 3 0 r.2 else r.2)) s

/-- Row WLDBU. -/
def execWldbu (k : Nat) (w : Half) (s : State) : Out := .next (windowLoadRow k w 0x1C 1 s)
/-- Row WLDHU. -/
def execWldhu (k : Nat) (w : Half) (s : State) : Out := .next (windowLoadRow k w 0x1D 2 s)
/-- Row WLDWU. -/
def execWldwu (k : Nat) (w : Half) (s : State) : Out := .next (windowLoadRow k w 0x1E 4 s)
/-- Row WLDD. -/
def execWldd (k : Nat) (w : Half) (s : State) : Out := .next (windowLoadRow k w 0x1F 8 s)

/-- Row PRD: a hint that never traps but under R310. -/
def execPrd (k : Nat) (w : Half) (s : State) : Out :=
  .next (runInstr k w (majOf w == 0x17) (fun t =>
    if !isCompute k || rdOf w != 0 then reserved t else .done (prdHint k (eaOf k w t).toNat t)) s)

/-! ### Atomic memory operations (R320, R321) -/

/-- The word is this atomic operation. -/
def isAmo (w : Half) (code : Nat) : Bool := (majOf w == 0x20 || majOf w == 0x21) && fnOf w % 16 == code

/-- A field or ordering that the operation may not have (R317, R320). -/
def amoBad (w : Half) (code : Nat) : Bool :=
  let ord := fnOf w / 16
  rdOf w == 31 ||
    (if code = 9 then false
    else if code = 10 then rbOf w != 0 || rcOf w != 0 || decide (2 ≤ ord)
    else if code = 11 then rdOf w != 0 || rcOf w != 0 || ord == 1 || ord == 3
    else rcOf w != 0)

/-- An atomic operation: `f` gives what memory receives from the old value, rb and rc at the operand width; none writes nothing. Every one
needs write permission, and one that writes nothing marks its page as a load does (R341). -/
def amoRow (k : Nat) (w : Half) (code : Nat) (f : (n : Nat) → BitVec n → BitVec n → BitVec n → Option (BitVec n)) (s : State) : State :=
  runInstr k w (isAmo w code) (fun t =>
    let n := if majOf w = 0x20 then 8 else 4
    let ea := gr k (raOf w) t
    if amoBad w code then reserved t
    else match wpHit k ea.toNat n true true t with
      | some i => .stay (haltCore k 2 i t)
      | none =>
        if ea.toNat % n ≠ 0 then .trap 0x09 ea t
        else
          let x := translate k ea n .store t
          match x.1 with
          | .pa a c =>
            if coreWaits k ea n a a c t then .stay t
            else if !memAt a n x.2 then .trap 0x0D ea t
            else
              let r := physRead (coreReq k) a n x.2
              (match r.1 with
              | none => .trap 0x0D ea r.2
              | some bs =>
                let old : BitVec (8 * n) := BitVec.ofNat _ (leVal bs)
                let u := match f (8 * n) old ((gr k (rbOf w) t).setWidth _) ((gr k (rcOf w) t).setWidth _) with
                  | some v => (storePart k a c (leBytes n v.toNat) r.2).2
                  | none => (physRead (coreReq k) a n (translate k ea n .load t).2).2
                .done (if code = 11 then u else setG k (rdOf w) (old.signExtend 64) u))
          | z => .trap (trCause z) ea t) s

/-- Row AMO_SWAP. -/
def execAmoSwap (k : Nat) (w : Half) (s : State) : Out := .next (amoRow k w 0 (fun _ _ b _ => some b) s)
/-- Row AMO_ADD. -/
def execAmoAdd (k : Nat) (w : Half) (s : State) : Out := .next (amoRow k w 1 (fun _ o b _ => some (o + b)) s)
/-- Row AMO_AND. -/
def execAmoAnd (k : Nat) (w : Half) (s : State) : Out := .next (amoRow k w 2 (fun _ o b _ => some (o &&& b)) s)
/-- Row AMO_OR. -/
def execAmoOr (k : Nat) (w : Half) (s : State) : Out := .next (amoRow k w 3 (fun _ o b _ => some (o ||| b)) s)
/-- Row AMO_XOR. -/
def execAmoXor (k : Nat) (w : Half) (s : State) : Out := .next (amoRow k w 4 (fun _ o b _ => some (o ^^^ b)) s)
/-- Row AMO_MIN. -/
def execAmoMin (k : Nat) (w : Half) (s : State) : Out := .next (amoRow k w 5 (fun _ o b _ => some (if b.slt o then b else o)) s)
/-- Row AMO_MAX. -/
def execAmoMax (k : Nat) (w : Half) (s : State) : Out := .next (amoRow k w 6 (fun _ o b _ => some (if o.slt b then b else o)) s)
/-- Row AMO_MINU. -/
def execAmoMinu (k : Nat) (w : Half) (s : State) : Out := .next (amoRow k w 7 (fun _ o b _ => some (if b.ult o then b else o)) s)
/-- Row AMO_MAXU. -/
def execAmoMaxu (k : Nat) (w : Half) (s : State) : Out := .next (amoRow k w 8 (fun _ o b _ => some (if o.ult b then b else o)) s)
/-- Row AMO_CAS. -/
def execAmoCas (k : Nat) (w : Half) (s : State) : Out := .next (amoRow k w 9 (fun _ o b c => if o = c then some b else none) s)
/-- Row AMO_LD. -/
def execAmoLd (k : Nat) (w : Half) (s : State) : Out := .next (amoRow k w 10 (fun _ _ _ _ => none) s)
/-- Row AMO_ST. -/
def execAmoSt (k : Nat) (w : Half) (s : State) : Out := .next (amoRow k w 11 (fun _ _ b _ => some b) s)

end Sys2Proof.Machine
end

