-- ==== Sys2Proof/Machine/FlowRows.lean ====
section
/-! DEFINITION. Rows BEQZ to TIMER_COMPARE_MATCH: branches, calls, system instructions and interrupts (R314–R317, R322, R323, R328,
R333, R336, R339, R341). -/

namespace Sys2Proof.Machine

/-! ### Branches and jumps (R314) -/

/-- A conditional branch. -/
def branchRow (k : Nat) (w : Half) (maj : Nat) (onZero : Bool) (s : State) : State :=
  runInstr k w (majOf w == maj) (fun t =>
    if (gr k (rdOf w) t == 0) == onZero then .jump ((coreAt k t).pc + sext (wbits w 0 21) 21 * 4) t else .done t) s

/-- Row BEQZ. -/
def execBeqz (k : Nat) (w : Half) (s : State) : Out := .next (branchRow k w 0x28 true s)
/-- Row BNEZ. -/
def execBnez (k : Nat) (w : Half) (s : State) : Out := .next (branchRow k w 0x29 false s)

/-- Target of J and CALL. -/
def farTarget (k : Nat) (w : Half) (s : State) : Word := (coreAt k s).pc + sext (wbits w 0 26) 26 * 4

/-- Row J. -/
def execJ (k : Nat) (w : Half) (s : State) : Out :=
  .next (runInstr k w (majOf w == 0x2C) (fun t => .jump (farTarget k w t) t) s)

/-- CALL and CALLR, in the order of checks of R315. -/
def callTo (k : Nat) (target : Word) (s : State) : Eff :=
  let sp := gr k 31 s
  let new := sp - 8
  if target.toNat % 4 ≠ 0 then .trap 0x08 target s
  else if sp.toNat % 8 ≠ 0 then .trap 0x09 new s
  else if sp.toNat < 8 then .trap 0x0B new s
  else if stackLow k new s then .trap 0x0B new s
  else withMem k new s (storeBytes k new (leBytes 8 ((coreAt k s).pc + 4).toNat) s) (fun _ t => .jump target (setG k 31 new t))

/-- Row CALL. -/
def execCall (k : Nat) (w : Half) (s : State) : Out :=
  .next (runInstr k w (majOf w == 0x2D) (fun t => callTo k (farTarget k w t) t) s)

/-- A word of major 0x2E with this function code. -/
def isReg (w : Half) (fn : Nat) : Bool := majOf w == 0x2E && fnOf w == fn

/-- Row JR. -/
def execJr (k : Nat) (w : Half) (s : State) : Out :=
  .next (runInstr k w (isReg w 0) (fun t =>
    let target := gr k (raOf w) t
    if rdOf w ≠ 0 ∨ rbOf w ≠ 0 ∨ rcOf w ≠ 0 then reserved t
    else if target.toNat % 4 ≠ 0 then .trap 0x08 target t
    else .jump target t) s)

/-- Row CALLR. -/
def execCallr (k : Nat) (w : Half) (s : State) : Out :=
  .next (runInstr k w (isReg w 1) (fun t =>
    if rdOf w ≠ 0 ∨ rbOf w ≠ 0 ∨ rcOf w ≠ 0 then reserved t else callTo k (gr k (raOf w) t) t) s)

/-- Row RET, in the order of checks of R315. -/
def execRet (k : Nat) (w : Half) (s : State) : Out :=
  .next (runInstr k w (isReg w 2) (fun t =>
    let sp := gr k 31 t
    if rdOf w ≠ 0 ∨ raOf w ≠ 0 ∨ rbOf w ≠ 0 ∨ rcOf w ≠ 0 then reserved t
    else if sp.toNat % 8 ≠ 0 then .trap 0x09 sp t
    else withMem k sp t (loadBytes k sp 8 t) (fun bs u =>
      let target : Word := BitVec.ofNat 64 (leVal bs)
      if target.toNat % 4 ≠ 0 then .trap 0x08 target u
      else if stackLow k (sp + 8) u then .trap 0x0B (sp + 8) u
      else .jump target (setG k 31 (sp + 8) u))) s)

/-! ### System instructions (R322, R323, R328, R333, R336, R339, R341) -/

/-- A word of the system group with this function code. -/
def isSys (w : Half) (fn : Nat) : Bool := majOf w == 0 && sysFnOf w == fn

/-- A compute core at User level. -/
def atUser (k : Nat) (s : State) : Bool := isCompute k && (coreAt k s).lvl == 0

/-- Row SVREQ. -/
def execSvreq (k : Nat) (w : Half) (s : State) : Out :=
  .next (runInstr k w (isSys w 1) (fun t => if rdOf w ≠ 0 ∨ raOf w ≠ 0 then reserved t else .trap 0x06 0 t) s)

/-- Row DBGTRAP: the debug link takes it where DBGTRAP_HALT is set, with the PC at the instruction. -/
def execDbgtrap (k : Nat) (w : Half) (s : State) : Out :=
  .next (runInstr k w (isSys w 2) (fun t =>
    if rdOf w ≠ 0 ∨ raOf w ≠ 0 then reserved t
    else if fget (Fl.DBG_CORE_CTRL_DBGTRAP_HALT k) t = 1 then .stay (haltCore k 4 0 t)
    else .trap 0x07 0 t) s)

/-- Row FENCE: accesses are performed in order in this model, so a valid mask only passes. -/
def execFence (k : Nat) (w : Half) (s : State) : Out :=
  .next (runInstr k w (isSys w 3) (fun t =>
    if rdOf w ≠ 0 ∨ raOf w ≠ 0 ∨ simmOf w = 0 ∨ 16 ≤ simmOf w then reserved t else .done t) s)

/-- Row IFENCE: words come with their commands, so nothing fetched beforehand is kept. -/
def execIfence (k : Nat) (w : Half) (s : State) : Out :=
  .next (runInstr k w (isSys w 4) (fun t => if rdOf w ≠ 0 ∨ raOf w ≠ 0 ∨ simmOf w ≠ 0 then reserved t else .done t) s)

/-- A system register may not be reached at the core's level. -/
def sysDenied (k n : Nat) (s : State) : Bool := isCompute k && decide ((coreAt k s).lvl < sysLevel n)

/-- Row MFSR. CCOUNT has advanced by cycles that the manual does not fix. -/
def execMfsr (k : Nat) (w : Half) (s : State) : Out :=
  .next (runInstr k w (isSys w 5) (fun t =>
    let n := simmOf w
    if raOf w ≠ 0 ∨ sysExists k n = false then reserved t
    else if sysDenied k n t then .trap 0x04 0 t
    else
      let u := if n = 0 then passCycles k (freeNat 16 t) (useFree t) else t
      putG k (rdOf w) (sysRead k n u) u) s)

/-- The register whose VEN and VDIRTY govern a core's level: LSTAT of Supervisor or of Machine (R333). -/
def venReg (k : Nat) (s : State) : Nat := if isCompute k && (coreAt k s).lvl != 2 then 0x40 else 0x80

/-- A vector register or VSTAT has been written. -/
def vecDirty (k : Nat) (s : State) : State := setSysField k (venReg k s) 5 1 1 s

/-- Row MTSR. -/
def execMtsr (k : Nat) (w : Half) (s : State) : Out :=
  .next (runInstr k w (isSys w 6) (fun t =>
    let n := simmOf w
    if rdOf w ≠ 0 ∨ sysExists k n = false then reserved t
    else if sysDenied k n t || sysReadOnly n then .trap 0x04 0 t
    else
      let u := sysWrite k n (gr k (raOf w) t) t
      .done (if n = 5 then vecDirty k u else u)) s)

/-- Row XRET. -/
def execXret (k : Nat) (w : Half) (s : State) : Out :=
  .next (runInstr k w (isSys w 7) (fun t =>
    if rdOf w ≠ 0 ∨ raOf w ≠ 0 ∨ simmOf w ≠ 0 then reserved t
    else if atUser k t then .trap 0x04 0 t
    else .went (returnFrom k t)) s)

/-- Row IDLE. -/
def execIdle (k : Nat) (w : Half) (s : State) : Out :=
  .next (runInstr k w (isSys w 8) (fun t =>
    if rdOf w ≠ 0 ∨ raOf w ≠ 0 ∨ simmOf w ≠ 0 then reserved t
    else if atUser k t then .trap 0x04 0 t
    else .done (if wakes k t then t else setCore k { coreAt k t with idle := true } t)) s)

/-- Row TLBINV. -/
def execTlbinv (k : Nat) (w : Half) (s : State) : Out :=
  .next (runInstr k w (isSys w 9) (fun t =>
    if rdOf w ≠ 0 ∨ simmOf w ≠ 0 then reserved t
    else if atUser k t then .trap 0x04 0 t
    else
      let a := (gr k (raOf w) t).toNat
      let keep (x : TlbEnt) : Bool := if raOf w = 0 then false else x.va != a / 2 ^ x.bits * 2 ^ x.bits
      .done (setCore k { coreAt k t with tlb := (coreAt k t).tlb.filter keep } t)) s)

/-! ### Reserved encodings, interrupts and the timer (R310, R339) -/

/-- Function codes that level 1 assigns, by major opcode (R310). -/
def assigned (w : Half) : Bool :=
  let m := majOf w
  let f := fnOf w
  if m = 0 then decide (1 ≤ sysFnOf w) && decide (sysFnOf w ≤ 9)
  else if m = 1 then decide (f ≤ 6) || (decide (8 ≤ f) && decide (f ≤ 0x0B)) || f == 0x10 || f == 0x11 || (decide (0x18 ≤ f) && decide (f ≤ 0x1A))
  else if m = 2 then decide (f ≤ 3) || (decide (8 ≤ f) && decide (f ≤ 0x0B)) || (decide (0x10 ≤ f) && decide (f ≤ 0x1B))
  else if m = 3 then decide (f ≤ 5) || f == 8
  else if m ≤ 0x0E then true
  else if m = 0x0F then false
  else if m ≤ 0x1F then true
  else if m ≤ 0x21 then decide (f % 16 ≤ 11)
  else if m = 0x28 ∨ m = 0x29 ∨ m = 0x2C ∨ m = 0x2D then true
  else if m = 0x2E then decide (f ≤ 2)
  else if m = 0x30 then decide (f ≤ 0x17)
  else if m = 0x31 then decide (f ≤ 0x0A)
  else if m = 0x32 then decide (f ≤ 8)
  else m == 0x34 || m == 0x35

/-- Row RESERVED_INSTRUCTION: a word whose major or function code is not assigned. Assigned words with a field that must be zero, and
those that the core does not implement, trap the same way in their own rows. -/
def execReservedInstruction (k : Nat) (w : Half) (s : State) : Out := .next (runInstr k w (!assigned w) reserved s)

/-- Row INTERRUPT_TAKEN: between two instructions core `k` takes the interrupt that is pending and enabled, if any. `ext` is the level
of its EXTERNAL line where the source lies outside this model (control and compute cores). -/
def execInterruptTaken (k : Nat) (ext : Bool) (s : State) : Out :=
  if k < 77 ∧ coreUp k s = true ∧ coreHalted k s = false ∧ (coreAt k s).locked = false then
    let s0 := if k = 76 then s else { s with cores := SMap.put s.cores k { coreAt k s with ext := ext } }
    if (coreAt k s0).stepping && fget (Fl.DBG_CORE_CTRL_STEP_NOINT k) s0 == 1 then .next s0
    else match pendingInt k s0 with
      | none => .next (awake k s0)
      | some (l, i) =>
        let s1 := if (coreAt k s0).ahead.isSome then leaveAhead k (freeNat 16 s0) (useFree s0) else s0
        .next (afterStep k (enterTrap k l i true (coreAt k s1).pc 0 0 s1))
  else .next s

/-- Row TIMER_COMPARE_MATCH: `cycles` pass on core `k` and bring CCOUNT to L.TCMP of some level; L.IPEND.TIMER then reads 1, a core in
IDLE goes on where it is enabled, and run-ahead ends (R339, R346). -/
def execTimerCompareMatch (k cycles : Nat) (s : State) : Out :=
  if k < 77 ∧ coreUp k s = true then
    let s1 := passCycles k cycles s
    let now (l : Nat) : Bool := decide ((sysAt k (trapBase l + 0x0B) s1).toNat ≤ (sysAt k 0 s1).toNat)
    if now 2 || (isCompute k && now 1) then
      let s2 := match (coreAt k s1).ahead with
        | some _ => leaveAhead k 0 s1
        | none => s1
      .next (awake k s2)
    else .next s
  else .next s

end Sys2Proof.Machine
end

