-- ==== Sys2Proof/Machine/VecRows.lean ====
section
/-! DEFINITION. Rows VADD to VST: the vector instructions (R342–R344). -/

namespace Sys2Proof.Machine

/-- A vector register's value. -/
abbrev Vec := BitVec 256

/-- Bits of an element. -/
def elemBits (sz : Nat) : Nat := 8 * 2 ^ sz
/-- Elements of a vector. -/
def elemCount (sz : Nat) : Nat := 32 / 2 ^ sz
/-- SZ (R342). -/
def szOf (w : Half) : Nat := wbits w 9 2

/-- Element `i`. -/
def elem (sz : Nat) (v : Vec) (i : Nat) : Nat := (v.extractLsb' (elemBits sz * i) (elemBits sz)).toNat
/-- The elements of a vector, element 0 first. -/
def elems (sz : Nat) (v : Vec) : List Nat := (List.range (elemCount sz)).map (elem sz v)
/-- A vector of elements of `b` bits, each taken modulo its width. -/
def vecOf (b : Nat) : List Nat → Vec
  | [] => 0
  | x :: t => BitVec.ofNat 256 (x % 2 ^ b) ||| (vecOf b t <<< b)
/-- The value of an element as a signed number. -/
def sElem (sz x : Nat) : Int := (BitVec.ofNat (elemBits sz) x).toInt
/-- A signed number as an element. -/
def ofS (sz : Nat) (v : Int) : Nat := (BitVec.ofInt (elemBits sz) v).toNat
/-- Every bit of an element. -/
def onesE (sz : Nat) : Nat := 2 ^ elemBits sz - 1
/-- A comparison's element. -/
def boolE (sz : Nat) (b : Bool) : Nat := if b then onesE sz else 0

/-- Writes a vector register. -/
def setV (k r : Nat) (v : Vec) (s : State) : State :=
  vecDirty k { s with cores := SMap.put s.cores k { coreAt k s with v := SMap.put (coreAt k s).v r v } }

/-- Sets sticky bits of VSTAT, where there are any. -/
def stickV (k bits : Nat) (s : State) : State :=
  if bits = 0 then s else vecDirty k (putSys k 5 (sysAt k 5 s ||| BitVec.ofNat 64 bits) s)

/-- The VSTAT bits of a floating-point result. -/
def flagBits (f : FpFlags) : Nat :=
  (if f.nv then 2 else 0) + (if f.ov then 4 else 0) + (if f.un then 8 else 0) + (if f.nx then 16 else 0)

/-- A vector instruction that the core implements and its level allows (R343). -/
def vecBody (k : Nat) (bad : Bool) (body : State → Eff) (t : State) : Eff :=
  if k = 76 ∨ bad then reserved t
  else if sysField k (venReg k t) 4 1 t = 0 then .trap 0x05 0 t
  else body t

/-- The word is a VR word of this major and function. -/
def isVec (w : Half) (maj fn : Nat) : Bool := majOf w == maj && fnOf w == fn

/-- Bits [8:6] are not zero, or SZ is outside its range (R342, R343). -/
def vecBad (w : Half) (lo hi : Nat) : Bool := wbits w 6 3 != 0 || decide (szOf w < lo) || decide (hi < szOf w)

/-- A VR instruction: `f` gives the effect. -/
def vecRow (k : Nat) (w : Half) (maj fn lo hi : Nat) (more : Bool) (body : State → Eff) (s : State) : State :=
  runInstr k w (isVec w maj fn) (vecBody k (vecBad w lo hi || more) body) s

/-- Element by element from va and vb. -/
def vec2 (k : Nat) (w : Half) (fn lo hi : Nat) (f : Nat → Nat → Nat → Nat) (s : State) : State :=
  vecRow k w 0x30 fn lo hi false (fun t =>
    .done (setV k (rdOf w) (vecOf (elemBits (szOf w))
      (List.zipWith (f (szOf w)) (elems (szOf w) (vr k (raOf w) t)) (elems (szOf w) (vr k (rbOf w) t)))) t)) s

/-- Element by element, saturating: the exact result is clamped to its range and VSTAT.SAT set where it was outside. -/
def vecSat (k : Nat) (w : Half) (fn : Nat) (signed : Bool) (f : Int → Int → Int) (s : State) : State :=
  vecRow k w 0x30 fn 0 2 false (fun t =>
    let sz := szOf w
    let b := elemBits sz
    let lo : Int := if signed then -(2 ^ (b - 1)) else 0
    let hi : Int := if signed then 2 ^ (b - 1) - 1 else 2 ^ b - 1
    let val (x : Nat) : Int := if signed then sElem sz x else x
    let exact := List.zipWith (fun x y => f (val x) (val y)) (elems sz (vr k (raOf w) t)) (elems sz (vr k (rbOf w) t))
    let out := exact.map (fun v => ofS sz (max lo (min hi v)))
    .done (setV k (rdOf w) (vecOf b out) (stickV k (if exact.any (fun v => decide (v < lo) || decide (hi < v)) then 1 else 0) t))) s

/-- Every element of va shifted by gb modulo the element width. -/
def vecShift (k : Nat) (w : Half) (fn : Nat) (f : Nat → Nat → Nat → Nat) (s : State) : State :=
  vecRow k w 0x30 fn 1 3 false (fun t =>
    let n := (gr k (rbOf w) t).toNat % elemBits (szOf w)
    .done (setV k (rdOf w) (vecOf (elemBits (szOf w)) ((elems (szOf w) (vr k (raOf w) t)).map (fun x => f (szOf w) x n))) t)) s

/-- A carry-less product of two 64-bit elements, from `n` bits of the second. -/
def clmul (a b : Nat) : Nat → Nat
  | 0 => 0
  | n + 1 => clmul a b n ^^^ (if b / 2 ^ n % 2 = 1 then a * 2 ^ n else 0)

/-! ### Integer rows, major 0x30 -/

/-- Row VADD. -/
def execVadd (k : Nat) (w : Half) (s : State) : Out := .next (vec2 k w 0x00 0 3 (fun _ x y => x + y) s)
/-- Row VSUB. -/
def execVsub (k : Nat) (w : Half) (s : State) : Out := .next (vec2 k w 0x01 0 3 (fun sz x y => x + (onesE sz + 1 - y)) s)
/-- Row VMUL. -/
def execVmul (k : Nat) (w : Half) (s : State) : Out := .next (vec2 k w 0x02 0 3 (fun _ x y => x * y) s)
/-- Row VMULHU. -/
def execVmulhu (k : Nat) (w : Half) (s : State) : Out := .next (vec2 k w 0x03 0 3 (fun sz x y => x * y / 2 ^ elemBits sz) s)
/-- Row VAND. -/
def execVand (k : Nat) (w : Half) (s : State) : Out := .next (vec2 k w 0x04 0 0 (fun _ x y => x &&& y) s)
/-- Row VOR. -/
def execVor (k : Nat) (w : Half) (s : State) : Out := .next (vec2 k w 0x05 0 0 (fun _ x y => x ||| y) s)
/-- Row VXOR. -/
def execVxor (k : Nat) (w : Half) (s : State) : Out := .next (vec2 k w 0x06 0 0 (fun _ x y => x ^^^ y) s)
/-- Row VANDN. -/
def execVandn (k : Nat) (w : Half) (s : State) : Out := .next (vec2 k w 0x07 0 0 (fun sz x y => x &&& (onesE sz ^^^ y)) s)
/-- Row VMIN. -/
def execVmin (k : Nat) (w : Half) (s : State) : Out := .next (vec2 k w 0x08 0 3 (fun sz x y => if sElem sz y < sElem sz x then y else x) s)
/-- Row VMAX. -/
def execVmax (k : Nat) (w : Half) (s : State) : Out := .next (vec2 k w 0x09 0 3 (fun sz x y => if sElem sz x < sElem sz y then y else x) s)
/-- Row VMINU. -/
def execVminu (k : Nat) (w : Half) (s : State) : Out := .next (vec2 k w 0x0A 0 3 (fun _ x y => if y < x then y else x) s)
/-- Row VMAXU. -/
def execVmaxu (k : Nat) (w : Half) (s : State) : Out := .next (vec2 k w 0x0B 0 3 (fun _ x y => if x < y then y else x) s)
/-- Row VADDSS. -/
def execVaddss (k : Nat) (w : Half) (s : State) : Out := .next (vecSat k w 0x0C true (fun x y => x + y) s)
/-- Row VADDSU. -/
def execVaddsu (k : Nat) (w : Half) (s : State) : Out := .next (vecSat k w 0x0D false (fun x y => x + y) s)
/-- Row VSUBSS. -/
def execVsubss (k : Nat) (w : Half) (s : State) : Out := .next (vecSat k w 0x0E true (fun x y => x - y) s)
/-- Row VSUBSU. -/
def execVsubsu (k : Nat) (w : Half) (s : State) : Out := .next (vecSat k w 0x0F false (fun x y => x - y) s)
/-- Row VSLL. -/
def execVsll (k : Nat) (w : Half) (s : State) : Out := .next (vecShift k w 0x10 (fun _ x n => x * 2 ^ n) s)
/-- Row VSRL. -/
def execVsrl (k : Nat) (w : Half) (s : State) : Out := .next (vecShift k w 0x11 (fun _ x n => x / 2 ^ n) s)
/-- Row VSRA. -/
def execVsra (k : Nat) (w : Half) (s : State) : Out := .next (vecShift k w 0x12 (fun sz x n => ofS sz (sElem sz x / 2 ^ n)) s)
/-- Row VBSL. -/
def execVbsl (k : Nat) (w : Half) (s : State) : Out :=
  .next (vecRow k w 0x30 0x13 0 0 false (fun t =>
    let d := vr k (rdOf w) t
    .done (setV k (rdOf w) ((d &&& vr k (raOf w) t) ||| (~~~d &&& vr k (rbOf w) t)) t)) s)
/-- Row VCMPEQ. -/
def execVcmpeq (k : Nat) (w : Half) (s : State) : Out := .next (vec2 k w 0x14 0 3 (fun sz x y => boolE sz (x == y)) s)
/-- Row VCMPGT. -/
def execVcmpgt (k : Nat) (w : Half) (s : State) : Out := .next (vec2 k w 0x15 0 3 (fun sz x y => boolE sz (decide (sElem sz y < sElem sz x))) s)
/-- Row VCMPGTU. -/
def execVcmpgtu (k : Nat) (w : Half) (s : State) : Out := .next (vec2 k w 0x16 0 3 (fun sz x y => boolE sz (decide (y < x))) s)
/-- Row VCLMUL: each 128-bit half is the product of the even 64-bit elements. -/
def execVclmul (k : Nat) (w : Half) (s : State) : Out :=
  .next (vecRow k w 0x30 0x17 3 3 false (fun t =>
    let a := vr k (raOf w) t
    let b := vr k (rbOf w) t
    .done (setV k (rdOf w) (vecOf 128 [clmul (elem 3 a 0) (elem 3 b 0) 64, clmul (elem 3 a 2) (elem 3 b 2) 64]) t)) s)

/-! ### Floating point, major 0x31 -/

/-- binary32 or binary64 by SZ. -/
def fpOf (sz : Nat) : FpFmt := if sz = 2 then f32 else f64

/-- Element by element from vd, va and vb: the result and what it raises. -/
def vecFp (k : Nat) (w : Half) (fn : Nat) (f : FpFmt → Nat → Nat → Nat → Nat × FpFlags) (s : State) : State :=
  vecRow k w 0x31 fn 2 3 false (fun t =>
    let sz := szOf w
    let rs := List.zipWith (fun d p => f (fpOf sz) d p.1 p.2) (elems sz (vr k (rdOf w) t))
      (List.zip (elems sz (vr k (raOf w) t)) (elems sz (vr k (rbOf w) t)))
    let fl := rs.foldl (fun a r => a.or r.2) FpFlags.none
    .done (setV k (rdOf w) (vecOf (elemBits sz) (rs.map (·.1))) (stickV k (flagBits fl) t))) s

/-- All ones or zero by an order; a signalling NaN is invalid. -/
def fpTest (f : FpFmt) (x y : Nat) (p : Ordering → Bool) : Nat × FpFlags :=
  let nan (z : Nat) : Bool := fpDecode f z == .nan true
  ((match fpCmp f x y with
    | some o => if p o then 2 ^ f.width - 1 else 0
    | none => 0), if nan x || nan y then .invalid else .none)

/-- All ones or zero by an ordering comparison; any NaN is invalid. -/
def fpOrdered (f : FpFmt) (x y : Nat) (p : Ordering → Bool) : Nat × FpFlags :=
  match fpCmp f x y with
  | some o => (if p o then 2 ^ f.width - 1 else 0, .none)
  | none => (0, .invalid)

/-- Row VFADD. -/
def execVfadd (k : Nat) (w : Half) (s : State) : Out := .next (vecFp k w 0x00 (fun f _ x y => fpAdd f x y) s)
/-- Row VFSUB. -/
def execVfsub (k : Nat) (w : Half) (s : State) : Out := .next (vecFp k w 0x01 (fun f _ x y => fpSub f x y) s)
/-- Row VFMUL. -/
def execVfmul (k : Nat) (w : Half) (s : State) : Out := .next (vecFp k w 0x02 (fun f _ x y => fpMul f x y) s)
/-- Row VFMA. -/
def execVfma (k : Nat) (w : Half) (s : State) : Out := .next (vecFp k w 0x03 (fun f d x y => fpFma f x y d) s)
/-- Row VFMIN. -/
def execVfmin (k : Nat) (w : Half) (s : State) : Out := .next (vecFp k w 0x04 (fun f _ x y => fpMinMax f false x y) s)
/-- Row VFMAX. -/
def execVfmax (k : Nat) (w : Half) (s : State) : Out := .next (vecFp k w 0x05 (fun f _ x y => fpMinMax f true x y) s)
/-- Row VFCMPEQ. -/
def execVfcmpeq (k : Nat) (w : Half) (s : State) : Out := .next (vecFp k w 0x06 (fun f _ x y => fpTest f x y (· == .eq)) s)
/-- Row VFCMPLT. -/
def execVfcmplt (k : Nat) (w : Half) (s : State) : Out := .next (vecFp k w 0x07 (fun f _ x y => fpOrdered f x y (· == .lt)) s)
/-- Row VFCMPLE. -/
def execVfcmple (k : Nat) (w : Half) (s : State) : Out := .next (vecFp k w 0x08 (fun f _ x y => fpOrdered f x y (· != .gt)) s)

/-- Element by element from va alone. -/
def vecFp1 (k : Nat) (w : Half) (fn : Nat) (f : FpFmt → Nat → Nat × FpFlags) (s : State) : State :=
  vecFp k w fn (fun g _ x _ => f g x) s

/-- Row VCVTIF. -/
def execVcvtif (k : Nat) (w : Half) (s : State) : Out :=
  .next (vecFp1 k w 0x09 (fun f x => fpOfInt f (BitVec.ofNat f.width x).toInt) s)
/-- Row VCVTFI. -/
def execVcvtfi (k : Nat) (w : Half) (s : State) : Out :=
  .next (vecFp1 k w 0x0A (fun f x =>
    let r := fpToInt f f.width x
    ((BitVec.ofInt f.width r.1).toNat, r.2)) s)

/-! ### Transfer and permute, major 0x32 -/

/-- Row VDUP. -/
def execVdup (k : Nat) (w : Half) (s : State) : Out :=
  .next (vecRow k w 0x32 0x00 0 3 (rbOf w != 0) (fun t =>
    .done (setV k (rdOf w) (vecOf (elemBits (szOf w)) (List.replicate (elemCount (szOf w)) (gr k (raOf w) t).toNat)) t)) s)

/-- Row VEXT. -/
def execVext (k : Nat) (w : Half) (s : State) : Out :=
  .next (vecRow k w 0x32 0x01 0 3 (decide (elemCount (szOf w) ≤ rbOf w)) (fun t =>
    putG k (rdOf w) (BitVec.ofNat 64 (elem (szOf w) (vr k (raOf w) t) (rbOf w))) t) s)

/-- Row VINS. -/
def execVins (k : Nat) (w : Half) (s : State) : Out :=
  .next (vecRow k w 0x32 0x02 0 3 (decide (elemCount (szOf w) ≤ rbOf w)) (fun t =>
    .done (setV k (rdOf w) (vecOf (elemBits (szOf w)) ((elems (szOf w) (vr k (rdOf w) t)).set (rbOf w) (gr k (raOf w) t).toNat)) t)) s)

/-- Row VMOVMSK. -/
def execVmovmsk (k : Nat) (w : Half) (s : State) : Out :=
  .next (vecRow k w 0x32 0x03 0 3 (rbOf w != 0) (fun t =>
    let tops := (elems (szOf w) (vr k (raOf w) t)).map (fun x => x / 2 ^ (elemBits (szOf w) - 1) % 2)
    putG k (rdOf w) (BitVec.ofNat 64 (tops.foldr (fun b n => b + 2 * n) 0)) t) s)

/-- Row VSHUFB. -/
def execVshufb (k : Nat) (w : Half) (s : State) : Out :=
  .next (vecRow k w 0x32 0x04 0 0 false (fun t =>
    let a := elems 0 (vr k (raOf w) t)
    .done (setV k (rdOf w) (vecOf 8 ((elems 0 (vr k (rbOf w) t)).map (fun i => if 128 ≤ i then 0 else a.getD (i % 32) 0))) t)) s)

/-- A reduction of the elements of va into a general register. -/
def vecReduce (k : Nat) (w : Half) (fn : Nat) (f : List Nat → Nat) (s : State) : State :=
  vecRow k w 0x32 fn 0 3 (rbOf w != 0) (fun t => putG k (rdOf w) (BitVec.ofNat 64 (f (elems (szOf w) (vr k (raOf w) t)))) t) s

/-- Row VREDADDU. -/
def execVredaddu (k : Nat) (w : Half) (s : State) : Out := .next (vecReduce k w 0x05 (fun l => l.sum) s)
/-- Row VREDMAXU. -/
def execVredmaxu (k : Nat) (w : Half) (s : State) : Out := .next (vecReduce k w 0x06 (fun l => l.foldl Nat.max 0) s)
/-- Row VREDMINU. -/
def execVredminu (k : Nat) (w : Half) (s : State) : Out := .next (vecReduce k w 0x07 (fun l => l.foldl Nat.min (l.headD 0)) s)

/-- Row VMOV. -/
def execVmov (k : Nat) (w : Half) (s : State) : Out :=
  .next (vecRow k w 0x32 0x08 0 0 (rbOf w != 0) (fun t => .done (setV k (rdOf w) (vr k (raOf w) t) t)) s)

/-! ### Vector load and store (R344) -/

/-- Row VLD. -/
def execVld (k : Nat) (w : Half) (s : State) : Out :=
  .next (runInstr k w (majOf w == 0x34) (vecBody k false (fun t =>
    let ea := eaOf k w t
    withMem k ea t (loadBytes k ea 32 t) (fun bs u => .done (setV k (rdOf w) (BitVec.ofNat 256 (leVal bs)) u)))) s)

/-- Row VST. -/
def execVst (k : Nat) (w : Half) (s : State) : Out :=
  .next (runInstr k w (majOf w == 0x35) (vecBody k false (fun t =>
    let ea := eaOf k w t
    withMem k ea t (storeBytes k ea (leBytes 32 (vr k (rdOf w) t).toNat) t) (fun _ u => .done u))) s)

end Sys2Proof.Machine
end

