-- ==== Sys2Proof/Machine/Dispatch.lean ====
section
/-! DEFINITION. Dispatch: one arm per command, each one call of its meaning. -/

namespace Sys2Proof.Machine

/-- The effect of a command on everything but the queue. -/
def exec (i : Instr) (s : State) : Host.Outcome State Fault Refusal :=
  match i with
  | .registerWrite addr size value req => Sys2Proof.Machine.execRegisterWrite addr size value req s
  | .malformedRegisterAccess addr size value req => Sys2Proof.Machine.execMalformedRegisterAccess addr size value req s
  | .reservedAddressAccess addr size req => Sys2Proof.Machine.execReservedAddressAccess addr size req s
  | .stalledAccessComplete => Sys2Proof.Machine.execStalledAccessComplete s
  | .doorbellWrite ctrl q tail => Sys2Proof.Machine.execDoorbellWrite ctrl q tail s
  | .cqHeadDoorbell ctrl q head => Sys2Proof.Machine.execCqHeadDoorbell ctrl q head s
  | .commandFetch cid k nsid lba nlb => Sys2Proof.Machine.execCommandFetch cid k nsid lba nlb s
  | .tagFreed => Sys2Proof.Machine.execTagFreed s
  | .trackerEntryFreed => Sys2Proof.Machine.execTrackerEntryFreed s
  | .write tag data pr => Sys2Proof.Machine.execWrite tag data pr s
  | .landingProgramDone tag ok badChan => Sys2Proof.Machine.execLandingProgramDone tag ok badChan s
  | .read tag pr => Sys2Proof.Machine.execRead tag pr s
  | .mapPageLoadDone page => Sys2Proof.Machine.execMapPageLoadDone page s
  | .pageReadDone chan die dec => Sys2Proof.Machine.execPageReadDone chan die dec s
  | .rebuildComplete chan key ok => Sys2Proof.Machine.execRebuildComplete chan key ok s
  | .flush tag => Sys2Proof.Machine.execFlush tag s
  | .writeZeroes tag deac pr => Sys2Proof.Machine.execWriteZeroes tag deac pr s
  | .datasetManagement tag ad ranges => Sys2Proof.Machine.execDatasetManagement tag ad ranges s
  | .compare tag data pr => Sys2Proof.Machine.execCompare tag data pr s
  | .fusedCompareAndWrite tagC tagW cmp data pr bad => Sys2Proof.Machine.execFusedCompareAndWrite tagC tagW cmp data pr bad s
  | .verify tag pr => Sys2Proof.Machine.execVerify tag pr s
  | .copy tag fmt ranges pr bad => Sys2Proof.Machine.execCopy tag fmt ranges pr bad s
  | .reservationRegister tag act iekey cptpl crkey nrkey => Sys2Proof.Machine.execReservationRegister tag act iekey cptpl crkey nrkey s
  | .reservationAcquire tag act iekey rtype crkey prkey => Sys2Proof.Machine.execReservationAcquire tag act iekey rtype crkey prkey s
  | .reservationRelease tag act iekey rtype crkey => Sys2Proof.Machine.execReservationRelease tag act iekey rtype crkey s
  | .reservationReport tag dwords eds => Sys2Proof.Machine.execReservationReport tag dwords eds s
  | .abort tag sqid cid => Sys2Proof.Machine.execAbort tag sqid cid s
  | .createIoSubmissionQueue tag qid size0 cq prio addr pc => Sys2Proof.Machine.execCreateIoSubmissionQueue tag qid size0 cq prio addr pc s
  | .createIoCompletionQueue tag qid size0 addr pc vector => Sys2Proof.Machine.execCreateIoCompletionQueue tag qid size0 addr pc vector s
  | .deleteIoSubmissionQueue tag qid => Sys2Proof.Machine.execDeleteIoSubmissionQueue tag qid s
  | .deleteIoCompletionQueue tag qid => Sys2Proof.Machine.execDeleteIoCompletionQueue tag qid s
  | .identify tag cns cntid csi => Sys2Proof.Machine.execIdentify tag cns cntid csi s
  | .getFeatures tag fid sel dw11 => Sys2Proof.Machine.execGetFeatures tag fid sel dw11 s
  | .setFeatures tag fid dw11 sv data => Sys2Proof.Machine.execSetFeatures tag fid dw11 sv data s
  | .setPowerManagement tag dw11 sv => Sys2Proof.Machine.execSetPowerManagement tag dw11 sv s
  | .setOrderedQueue tag dw11 sv => Sys2Proof.Machine.execSetOrderedQueue tag dw11 sv s
  | .setLandingPoolPolicy tag dw11 sv => Sys2Proof.Machine.execSetLandingPoolPolicy tag dw11 sv s
  | .setScanDefaults tag dw11 sv => Sys2Proof.Machine.execSetScanDefaults tag dw11 sv s
  | .setComputeRuntime tag dw11 sv => Sys2Proof.Machine.execSetComputeRuntime tag dw11 sv s
  | .setThermalThresholds tag dw11 sv => Sys2Proof.Machine.execSetThermalThresholds tag dw11 sv s
  | .setEventNotification tag dw11 sv => Sys2Proof.Machine.execSetEventNotification tag dw11 sv s
  | .setTenantArbitrationReadOut tag dw11 sv => Sys2Proof.Machine.execSetTenantArbitrationReadOut tag dw11 sv s
  | .setNetworkPorts tag dw11 sv data lost => Sys2Proof.Machine.execSetNetworkPorts tag dw11 sv data lost s
  | .getLogPage tag lid off dwords lsp rae => Sys2Proof.Machine.execGetLogPage tag lid off dwords lsp rae s
  | .moduleIdentityLog tag off dwords => Sys2Proof.Machine.execModuleIdentityLog tag off dwords s
  | .wearAndSparesLog tag off dwords => Sys2Proof.Machine.execWearAndSparesLog tag off dwords s
  | .powerAndModeLog tag off dwords => Sys2Proof.Machine.execPowerAndModeLog tag off dwords s
  | .tagsAndOrderingLog tag off dwords => Sys2Proof.Machine.execTagsAndOrderingLog tag off dwords s
  | .channelHealthLog tag off dwords => Sys2Proof.Machine.execChannelHealthLog tag off dwords s
  | .matchArraysLog tag off dwords => Sys2Proof.Machine.execMatchArraysLog tag off dwords s
  | .computeClustersLog tag off dwords => Sys2Proof.Machine.execComputeClustersLog tag off dwords s
  | .dramAndSramErrorsLog tag off dwords => Sys2Proof.Machine.execDramAndSramErrorsLog tag off dwords s
  | .networkPortsLog tag off dwords => Sys2Proof.Machine.execNetworkPortsLog tag off dwords s
  | .sensorsAndThrottlingLog tag off dwords => Sys2Proof.Machine.execSensorsAndThrottlingLog tag off dwords s
  | .eventRecorderWindowLog tag off dwords byIndex rae tier => Sys2Proof.Machine.execEventRecorderWindowLog tag off dwords byIndex rae tier s
  | .firmwareComponentsLog tag off dwords => Sys2Proof.Machine.execFirmwareComponentsLog tag off dwords s
  | .tenantResourcesLog tag off dwords => Sys2Proof.Machine.execTenantResourcesLog tag off dwords s
  | .scanStatisticsLog tag off dwords => Sys2Proof.Machine.execScanStatisticsLog tag off dwords s
  | .asynchronousEventRequest tag => Sys2Proof.Machine.execAsynchronousEventRequest tag s
  | .keepAlive tag => Sys2Proof.Machine.execKeepAlive tag s
  | .namespaceCreate tag a => Sys2Proof.Machine.execNamespaceCreate tag a s
  | .namespaceDelete tag => Sys2Proof.Machine.execNamespaceDelete tag s
  | .namespaceAttach tag ctrls => Sys2Proof.Machine.execNamespaceAttach tag ctrls s
  | .namespaceDetach tag ctrls => Sys2Proof.Machine.execNamespaceDetach tag ctrls s
  | .formatNvm tag idx ses pi ext => Sys2Proof.Machine.execFormatNvm tag idx ses pi ext s
  | .sanitize tag act ndas => Sys2Proof.Machine.execSanitize tag act ndas s
  | .sanitizeComplete bad failed => Sys2Proof.Machine.execSanitizeComplete bad failed s
  | .deviceSelfTest tag code => Sys2Proof.Machine.execDeviceSelfTest tag code s
  | .nvmeMiSend tag r => Sys2Proof.Machine.execNvmeMiSend tag r s
  | .nvmeMiReceive tag r => Sys2Proof.Machine.execNvmeMiReceive tag r s
  | .secondaryControllerOffline tag cntlid => Sys2Proof.Machine.execSecondaryControllerOffline tag cntlid s
  | .secondaryControllerOnline tag cntlid => Sys2Proof.Machine.execSecondaryControllerOnline tag cntlid s
  | .firmwareDownload tag off dwords => Sys2Proof.Machine.execFirmwareDownload tag off dwords s
  | .firmwareCommit tag fs ca images => Sys2Proof.Machine.execFirmwareCommit tag fs ca images s
  | .controlFirmwareHandover ended => Sys2Proof.Machine.execControlFirmwareHandover ended s
  | .fetchHold v req => Sys2Proof.Machine.execFetchHold v req s
  | .shutdown ctrl normal => Sys2Proof.Machine.execShutdown ctrl normal s
  | .controllerReset ctrl => Sys2Proof.Machine.execControllerReset ctrl s
  | .functionLevelReset f => Sys2Proof.Machine.execFunctionLevelReset f s
  | .nvmSubsystemReset value => Sys2Proof.Machine.execNvmSubsystemReset value s
  | .perstAssert => Sys2Proof.Machine.execPerstAssert s
  | .perstDeassert => Sys2Proof.Machine.execPerstDeassert s
  | .perstbAssert => Sys2Proof.Machine.execPerstbAssert s
  | .linkTrained portB speed width flit degraded => Sys2Proof.Machine.execLinkTrained portB speed width flit degraded s
  | .linkDown portB => Sys2Proof.Machine.execLinkDown portB s
  | .configurationRequest portB r => Sys2Proof.Machine.execConfigurationRequest portB r s
  | .barReservedAccess f bar off value => Sys2Proof.Machine.execBarReservedAccess f bar off value s
  | .vbusWarn => Sys2Proof.Machine.execVbusWarn s
  | .pfailAssert => Sys2Proof.Machine.execPfailAssert s
  | .pfailDeassert => Sys2Proof.Machine.execPfailDeassert s
  | .pfailHoldExpiry => Sys2Proof.Machine.execPfailHoldExpiry s
  | .braceComplete => Sys2Proof.Machine.execBraceComplete s
  | .braceRecovery => Sys2Proof.Machine.execBraceRecovery s
  | .holdupSwitchIn => Sys2Proof.Machine.execHoldupSwitchIn s
  | .brownoutLimit => Sys2Proof.Machine.execBrownoutLimit s
  | .sealStart => Sys2Proof.Machine.execSealStart s
  | .sealEnd energy duration => Sys2Proof.Machine.execSealEnd energy duration s
  | .sealJudgment vbusAt50 => Sys2Proof.Machine.execSealJudgment vbusAt50 s
  | .restExpiry => Sys2Proof.Machine.execRestExpiry s
  | .keepVbusRecovery => Sys2Proof.Machine.execKeepVbusRecovery s
  | .regulatorCutoff franked => Sys2Proof.Machine.execRegulatorCutoff franked s
  | .inputAtStartThreshold aux => Sys2Proof.Machine.execInputAtStartThreshold aux s
  | .inputStop aux => Sys2Proof.Machine.execInputStop aux s
  | .inputOvervoltage aux => Sys2Proof.Machine.execInputOvervoltage aux s
  | .inputReconnect aux => Sys2Proof.Machine.execInputReconnect aux s
  | .sourceTransfer => Sys2Proof.Machine.execSourceTransfer s
  | .sourceReturn => Sys2Proof.Machine.execSourceReturn s
  | .reserveReached => Sys2Proof.Machine.execReserveReached s
  | .reserveLow => Sys2Proof.Machine.execReserveLow s
  | .heldWriteTimeout tag => Sys2Proof.Machine.execHeldWriteTimeout tag s
  | .bankTest => Sys2Proof.Machine.execBankTest s
  | .bankTestInterval => Sys2Proof.Machine.execBankTestInterval s
  | .bankTestDone energy cap esr => Sys2Proof.Machine.execBankTestDone energy cap esr s
  | .pwrdisAssert => Sys2Proof.Machine.execPwrdisAssert s
  | .pwrdisHoldExpiry => Sys2Proof.Machine.execPwrdisHoldExpiry s
  | .pwrdisDeassert => Sys2Proof.Machine.execPwrdisDeassert s
  | .wakeTimerExpiry => Sys2Proof.Machine.execWakeTimerExpiry s
  | .resetReqModule key req => Sys2Proof.Machine.execResetReqModule key req s
  | .resetReqNvmssr key req => Sys2Proof.Machine.execResetReqNvmssr key req s
  | .resetReqKeep key req => Sys2Proof.Machine.execResetReqKeep key req s
  | .resetReqStart key req => Sys2Proof.Machine.execResetReqStart key req s
  | .moduleReset c => Sys2Proof.Machine.execModuleReset c s
  | .moduleResetOffExpiry => Sys2Proof.Machine.execModuleResetOffExpiry s
  | .managementWatchdogExpiry => Sys2Proof.Machine.execManagementWatchdogExpiry s
  | .orderlyStop g => Sys2Proof.Machine.execOrderlyStop g s
  | .orderlyStopGraceExpiry => Sys2Proof.Machine.execOrderlyStopGraceExpiry s
  | .inputQualified aux => Sys2Proof.Machine.execInputQualified aux s
  | .firmwareVerified fallbacks allFail => Sys2Proof.Machine.execFirmwareVerified fallbacks allFail s
  | .dramDelayCheck failed => Sys2Proof.Machine.execDramDelayCheck failed s
  | .mapDirectoryLoaded primaryOk secondOk cals => Sys2Proof.Machine.execMapDirectoryLoaded primaryOk secondOk cals s
  | .journalReplayDone ms primaryOk secondOk => Sys2Proof.Machine.execJournalReplayDone ms primaryOk secondOk s
  | .openBlockScanDone ms total => Sys2Proof.Machine.execOpenBlockScanDone ms total s
  | .cstsRdySet ctrl => Sys2Proof.Machine.execCstsRdySet ctrl s
  | .riseTimeout => Sys2Proof.Machine.execRiseTimeout s
  | .idleConditionsChange transfers => Sys2Proof.Machine.execIdleConditionsChange transfers s
  | .apstIdleExpiry ctrl ps => Sys2Proof.Machine.execApstIdleExpiry ctrl ps s
  | .idleEntry deep => Sys2Proof.Machine.execIdleEntry deep s
  | .idleWake bit elapsed bad => Sys2Proof.Machine.execIdleWake bit elapsed bad s
  | .delayWakeExpiry elapsed => Sys2Proof.Machine.execDelayWakeExpiry elapsed s
  | .pllLockLoss n lockUs => Sys2Proof.Machine.execPllLockLoss n lockUs s
  | .xtalSwitch => Sys2Proof.Machine.execXtalSwitch s
  | .controlCoreRetire k => Sys2Proof.Machine.execControlCoreRetire k s
  | .fillRecompute => Sys2Proof.Machine.execFillRecompute s
  | .foldStart source quiet => Sys2Proof.Machine.execFoldStart source quiet s
  | .foldProgramDone source ok bad => Sys2Proof.Machine.execFoldProgramDone source ok bad s
  | .garbageCollection => Sys2Proof.Machine.execGarbageCollection s
  | .gcCopyLanded source ok badChan bad => Sys2Proof.Machine.execGcCopyLanded source ok badChan bad s
  | .wearLevelling => Sys2Proof.Machine.execWearLevelling s
  | .secureDiscard => Sys2Proof.Machine.execSecureDiscard s
  | .journalFlush => Sys2Proof.Machine.execJournalFlush s
  | .checkpoint => Sys2Proof.Machine.execCheckpoint s
  | .mapPageWritten page => Sys2Proof.Machine.execMapPageWritten page s
  | .backgroundMapLoad => Sys2Proof.Machine.execBackgroundMapLoad s
  | .eraseDone chan die ok => Sys2Proof.Machine.execEraseDone chan die ok s
  | .dieTimeout chan die fault => Sys2Proof.Machine.execDieTimeout chan die fault s
  | .governorAdmit chan bus foldLate => Sys2Proof.Machine.execGovernorAdmit chan bus foldLate s
  | .eraseSuspend chan die run => Sys2Proof.Machine.execEraseSuspend chan die run s
  | .suspendResume chan die limit bus => Sys2Proof.Machine.execSuspendResume chan die limit bus s
  | .preReadIssue chan bus => Sys2Proof.Machine.execPreReadIssue chan bus s
  | .preReadStaged chan die ok => Sys2Proof.Machine.execPreReadStaged chan die ok s
  | .retryBackoffExpiry chan die ok calGood => Sys2Proof.Machine.execRetryBackoffExpiry chan die ok calGood s
  | .channelReset chan calGood us => Sys2Proof.Machine.execChannelReset chan calGood us s
  | .calibrate chan good again us => Sys2Proof.Machine.execCalibrate chan good again us s
  | .periodicCalibration chan good again us => Sys2Proof.Machine.execPeriodicCalibration chan good again us s
  | .channelHold chan v => Sys2Proof.Machine.execChannelHold chan v s
  | .channelRetire chan byFailure key req => Sys2Proof.Machine.execChannelRetire chan byFailure key req s
  | .patrolRead chan die sb => Sys2Proof.Machine.execPatrolRead chan die sb s
  | .microcodeSwitch chan version ok => Sys2Proof.Machine.execMicrocodeSwitch chan version ok s
  | .scan tag off => Sys2Proof.Machine.execScan tag off s
  | .scanJobAccepted => Sys2Proof.Machine.execScanJobAccepted s
  | .scanIuEvaluate num iu via => Sys2Proof.Machine.execScanIuEvaluate num iu via s
  | .outputRingSpace num chan => Sys2Proof.Machine.execOutputRingSpace num chan s
  | .scanTimeLimit num => Sys2Proof.Machine.execScanTimeLimit num s
  | .scanContextAbort chan mask req => Sys2Proof.Machine.execScanContextAbort chan mask req s
  | .scanJobComplete num => Sys2Proof.Machine.execScanJobComplete num s
  | .matchLookup tag off n => Sys2Proof.Machine.execMatchLookup tag off n s
  | .matchTableCreate tag c11 c12 c13 => Sys2Proof.Machine.execMatchTableCreate tag c11 c12 c13 s
  | .matchTableDelete tag n => Sys2Proof.Machine.execMatchTableDelete tag n s
  | .matchSearch f table key errs => Sys2Proof.Machine.execMatchSearch f table key errs s
  | .matchSearchFrom f table key start errs => Sys2Proof.Machine.execMatchSearchFrom f table key start errs s
  | .matchWriteEntry f table index value care => Sys2Proof.Machine.execMatchWriteEntry f table index value care s
  | .matchDeleteEntry f table index => Sys2Proof.Machine.execMatchDeleteEntry f table index s
  | .matchReadEntry f table index => Sys2Proof.Machine.execMatchReadEntry f table index s
  | .tableMapWrite table req v => Sys2Proof.Machine.execTableMapWrite table req v s
  | .tableClearDone bank => Sys2Proof.Machine.execTableClearDone bank s
  | .entryInvalidate bank row req => Sys2Proof.Machine.execEntryInvalidate bank row req s
  | .entryValidate bank row req => Sys2Proof.Machine.execEntryValidate bank row req s
  | .matchWindowWrite bank off req bs => Sys2Proof.Machine.execMatchWindowWrite bank off req bs s
  | .matchScrub bank fixed dead corrected => Sys2Proof.Machine.execMatchScrub bank fixed dead corrected s
  | .rowRepair bank row readBack => Sys2Proof.Machine.execRowRepair bank row readBack s
  | .columnRepair bank bit => Sys2Proof.Machine.execColumnRepair bank bit s
  | .compress n sp addr more => Sys2Proof.Machine.execCompress n sp addr more s
  | .expand n sp addr => Sys2Proof.Machine.execExpand n sp addr s
  | .check n sp addr => Sys2Proof.Machine.execCheck n sp addr s
  | .engineFault n => Sys2Proof.Machine.execEngineFault n s
  | .engineAbort n sp addr => Sys2Proof.Machine.execEngineAbort n sp addr s
  | .engineRetire n key req => Sys2Proof.Machine.execEngineRetire n key req s
  | .digestClaim c req => Sys2Proof.Machine.execDigestClaim c req s
  | .digestRelease c req => Sys2Proof.Machine.execDigestRelease c req s
  | .digestStart c v req => Sys2Proof.Machine.execDigestStart c v req s
  | .digestDataWrite c w size off req => Sys2Proof.Machine.execDigestDataWrite c w size off req s
  | .digestKeyWrite c j w req => Sys2Proof.Machine.execDigestKeyWrite c j w req s
  | .digestBlockTaken c => Sys2Proof.Machine.execDigestBlockTaken c s
  | .digestFinish c v req => Sys2Proof.Machine.execDigestFinish c v req s
  | .digestAbort c v req => Sys2Proof.Machine.execDigestAbort c v req s
  | .digestExport c v req => Sys2Proof.Machine.execDigestExport c v req s
  | .digestImport c v req => Sys2Proof.Machine.execDigestImport c v req s
  | .digestLetter sp addr => Sys2Proof.Machine.execDigestLetter sp addr s
  | .keyManagerAlarm letters => Sys2Proof.Machine.execKeyManagerAlarm letters s
  | .contextAlarm c => Sys2Proof.Machine.execContextAlarm c s
  | .slotReloadDone ok => Sys2Proof.Machine.execSlotReloadDone ok s
  | .loadKeySlot slot entry req ok => Sys2Proof.Machine.execLoadKeySlot slot entry req ok s
  | .zeroizeKeySlot slot entry req => Sys2Proof.Machine.execZeroizeKeySlot slot entry req s
  | .cryptoEraseEntry entry req => Sys2Proof.Machine.execCryptoEraseEntry entry req s
  | .keyUnwrap nsid ok => Sys2Proof.Machine.execKeyUnwrap nsid ok s
  | .keySlotFreed slot ok => Sys2Proof.Machine.execKeySlotFreed slot ok s
  | .runAheadEntry k a => Sys2Proof.Machine.execRunAheadEntry k a s
  | .runAheadExit k cycles fault => Sys2Proof.Machine.execRunAheadExit k cycles fault s
  | .preReadDispatchTimeout h => Sys2Proof.Machine.execPreReadDispatchTimeout h s
  | .preStagedExpiry f nsid iu => Sys2Proof.Machine.execPreStagedExpiry f nsid iu s
  | .windowLoad k ea => Sys2Proof.Machine.execWindowLoad k ea s
  | .windowPageStaged h => Sys2Proof.Machine.execWindowPageStaged h s
  | .dirtyFault n p left selfTest => Sys2Proof.Machine.execDirtyFault n p left selfTest s
  | .fillError n load => Sys2Proof.Machine.execFillError n load s
  | .cacheEnableWrite n v req => Sys2Proof.Machine.execCacheEnableWrite n v req s
  | .wayLockWrite n v req => Sys2Proof.Machine.execWayLockWrite n v req s
  | .invAll n req => Sys2Proof.Machine.execInvAll n req s
  | .cleanAll n req => Sys2Proof.Machine.execCleanAll n req s
  | .cleanInvAll n req => Sys2Proof.Machine.execCleanInvAll n req s
  | .invRange n req => Sys2Proof.Machine.execInvRange n req s
  | .cleanRange n req => Sys2Proof.Machine.execCleanRange n req s
  | .cleanInvRange n req => Sys2Proof.Machine.execCleanInvRange n req s
  | .iinvRange n req => Sys2Proof.Machine.execIinvRange n req s
  | .lockFillRange n req => Sys2Proof.Machine.execLockFillRange n req s
  | .cmoDone n => Sys2Proof.Machine.execCmoDone n s
  | .clusterReset n selfTest => Sys2Proof.Machine.execClusterReset n selfTest s
  | .clusterRetire n byCtrl key req => Sys2Proof.Machine.execClusterRetire n byCtrl key req s
  | .runtimeUpdate n => Sys2Proof.Machine.execRuntimeUpdate n s
  | .runtimeUpdateGraceExpiry n version startOk selfTest => Sys2Proof.Machine.execRuntimeUpdateGraceExpiry n version startOk selfTest s
  | .add k w => Sys2Proof.Machine.execAdd k w s
  | .sub k w => Sys2Proof.Machine.execSub k w s
  | .and k w => Sys2Proof.Machine.execAnd k w s
  | .or k w => Sys2Proof.Machine.execOr k w s
  | .xor k w => Sys2Proof.Machine.execXor k w s
  | .andn k w => Sys2Proof.Machine.execAndn k w s
  | .orn k w => Sys2Proof.Machine.execOrn k w s
  | .sll k w => Sys2Proof.Machine.execSll k w s
  | .srl k w => Sys2Proof.Machine.execSrl k w s
  | .sra k w => Sys2Proof.Machine.execSra k w s
  | .ror k w => Sys2Proof.Machine.execRor k w s
  | .addw k w => Sys2Proof.Machine.execAddw k w s
  | .subw k w => Sys2Proof.Machine.execSubw k w s
  | .sllw k w => Sys2Proof.Machine.execSllw k w s
  | .srlw k w => Sys2Proof.Machine.execSrlw k w s
  | .sraw k w => Sys2Proof.Machine.execSraw k w s
  | .mul k w => Sys2Proof.Machine.execMul k w s
  | .mulh k w => Sys2Proof.Machine.execMulh k w s
  | .mulhu k w => Sys2Proof.Machine.execMulhu k w s
  | .mulw k w => Sys2Proof.Machine.execMulw k w s
  | .div k w => Sys2Proof.Machine.execDiv k w s
  | .divu k w => Sys2Proof.Machine.execDivu k w s
  | .rem k w => Sys2Proof.Machine.execRem k w s
  | .remu k w => Sys2Proof.Machine.execRemu k w s
  | .clz k w => Sys2Proof.Machine.execClz k w s
  | .ctz k w => Sys2Proof.Machine.execCtz k w s
  | .popc k w => Sys2Proof.Machine.execPopc k w s
  | .bswap k w => Sys2Proof.Machine.execBswap k w s
  | .sextb k w => Sys2Proof.Machine.execSextb k w s
  | .sexth k w => Sys2Proof.Machine.execSexth k w s
  | .sextw k w => Sys2Proof.Machine.execSextw k w s
  | .zextw k w => Sys2Proof.Machine.execZextw k w s
  | .min k w => Sys2Proof.Machine.execMin k w s
  | .max k w => Sys2Proof.Machine.execMax k w s
  | .minu k w => Sys2Proof.Machine.execMinu k w s
  | .maxu k w => Sys2Proof.Machine.execMaxu k w s
  | .cmpeq k w => Sys2Proof.Machine.execCmpeq k w s
  | .cmpne k w => Sys2Proof.Machine.execCmpne k w s
  | .cmplt k w => Sys2Proof.Machine.execCmplt k w s
  | .cmpltu k w => Sys2Proof.Machine.execCmpltu k w s
  | .cmple k w => Sys2Proof.Machine.execCmple k w s
  | .cmpleu k w => Sys2Proof.Machine.execCmpleu k w s
  | .sel k w => Sys2Proof.Machine.execSel k w s
  | .addi k w => Sys2Proof.Machine.execAddi k w s
  | .andi k w => Sys2Proof.Machine.execAndi k w s
  | .ori k w => Sys2Proof.Machine.execOri k w s
  | .xori k w => Sys2Proof.Machine.execXori k w s
  | .lui k w => Sys2Proof.Machine.execLui k w s
  | .shi k w => Sys2Proof.Machine.execShi k w s
  | .cmpeqi k w => Sys2Proof.Machine.execCmpeqi k w s
  | .cmpnei k w => Sys2Proof.Machine.execCmpnei k w s
  | .cmplti k w => Sys2Proof.Machine.execCmplti k w s
  | .cmpltui k w => Sys2Proof.Machine.execCmpltui k w s
  | .addpc k w => Sys2Proof.Machine.execAddpc k w s
  | .ldb k w => Sys2Proof.Machine.execLdb k w s
  | .ldbu k w => Sys2Proof.Machine.execLdbu k w s
  | .ldh k w => Sys2Proof.Machine.execLdh k w s
  | .ldhu k w => Sys2Proof.Machine.execLdhu k w s
  | .ldw k w => Sys2Proof.Machine.execLdw k w s
  | .ldwu k w => Sys2Proof.Machine.execLdwu k w s
  | .ldd k w => Sys2Proof.Machine.execLdd k w s
  | .stb k w => Sys2Proof.Machine.execStb k w s
  | .sth k w => Sys2Proof.Machine.execSth k w s
  | .stw k w => Sys2Proof.Machine.execStw k w s
  | .std k w => Sys2Proof.Machine.execStd k w s
  | .wldbu k w => Sys2Proof.Machine.execWldbu k w s
  | .wldhu k w => Sys2Proof.Machine.execWldhu k w s
  | .wldwu k w => Sys2Proof.Machine.execWldwu k w s
  | .wldd k w => Sys2Proof.Machine.execWldd k w s
  | .prd k w => Sys2Proof.Machine.execPrd k w s
  | .amoSwap k w => Sys2Proof.Machine.execAmoSwap k w s
  | .amoAdd k w => Sys2Proof.Machine.execAmoAdd k w s
  | .amoAnd k w => Sys2Proof.Machine.execAmoAnd k w s
  | .amoOr k w => Sys2Proof.Machine.execAmoOr k w s
  | .amoXor k w => Sys2Proof.Machine.execAmoXor k w s
  | .amoMin k w => Sys2Proof.Machine.execAmoMin k w s
  | .amoMax k w => Sys2Proof.Machine.execAmoMax k w s
  | .amoMinu k w => Sys2Proof.Machine.execAmoMinu k w s
  | .amoMaxu k w => Sys2Proof.Machine.execAmoMaxu k w s
  | .amoCas k w => Sys2Proof.Machine.execAmoCas k w s
  | .amoLd k w => Sys2Proof.Machine.execAmoLd k w s
  | .amoSt k w => Sys2Proof.Machine.execAmoSt k w s
  | .beqz k w => Sys2Proof.Machine.execBeqz k w s
  | .bnez k w => Sys2Proof.Machine.execBnez k w s
  | .j k w => Sys2Proof.Machine.execJ k w s
  | .call k w => Sys2Proof.Machine.execCall k w s
  | .jr k w => Sys2Proof.Machine.execJr k w s
  | .callr k w => Sys2Proof.Machine.execCallr k w s
  | .ret k w => Sys2Proof.Machine.execRet k w s
  | .svreq k w => Sys2Proof.Machine.execSvreq k w s
  | .dbgtrap k w => Sys2Proof.Machine.execDbgtrap k w s
  | .fence k w => Sys2Proof.Machine.execFence k w s
  | .ifence k w => Sys2Proof.Machine.execIfence k w s
  | .mfsr k w => Sys2Proof.Machine.execMfsr k w s
  | .mtsr k w => Sys2Proof.Machine.execMtsr k w s
  | .xret k w => Sys2Proof.Machine.execXret k w s
  | .idle k w => Sys2Proof.Machine.execIdle k w s
  | .tlbinv k w => Sys2Proof.Machine.execTlbinv k w s
  | .reservedInstruction k w => Sys2Proof.Machine.execReservedInstruction k w s
  | .interruptTaken k ext => Sys2Proof.Machine.execInterruptTaken k ext s
  | .timerCompareMatch k cycles => Sys2Proof.Machine.execTimerCompareMatch k cycles s
  | .vadd k w => Sys2Proof.Machine.execVadd k w s
  | .vsub k w => Sys2Proof.Machine.execVsub k w s
  | .vmul k w => Sys2Proof.Machine.execVmul k w s
  | .vmulhu k w => Sys2Proof.Machine.execVmulhu k w s
  | .vand k w => Sys2Proof.Machine.execVand k w s
  | .vor k w => Sys2Proof.Machine.execVor k w s
  | .vxor k w => Sys2Proof.Machine.execVxor k w s
  | .vandn k w => Sys2Proof.Machine.execVandn k w s
  | .vmin k w => Sys2Proof.Machine.execVmin k w s
  | .vmax k w => Sys2Proof.Machine.execVmax k w s
  | .vminu k w => Sys2Proof.Machine.execVminu k w s
  | .vmaxu k w => Sys2Proof.Machine.execVmaxu k w s
  | .vaddss k w => Sys2Proof.Machine.execVaddss k w s
  | .vaddsu k w => Sys2Proof.Machine.execVaddsu k w s
  | .vsubss k w => Sys2Proof.Machine.execVsubss k w s
  | .vsubsu k w => Sys2Proof.Machine.execVsubsu k w s
  | .vsll k w => Sys2Proof.Machine.execVsll k w s
  | .vsrl k w => Sys2Proof.Machine.execVsrl k w s
  | .vsra k w => Sys2Proof.Machine.execVsra k w s
  | .vbsl k w => Sys2Proof.Machine.execVbsl k w s
  | .vcmpeq k w => Sys2Proof.Machine.execVcmpeq k w s
  | .vcmpgt k w => Sys2Proof.Machine.execVcmpgt k w s
  | .vcmpgtu k w => Sys2Proof.Machine.execVcmpgtu k w s
  | .vclmul k w => Sys2Proof.Machine.execVclmul k w s
  | .vfadd k w => Sys2Proof.Machine.execVfadd k w s
  | .vfsub k w => Sys2Proof.Machine.execVfsub k w s
  | .vfmul k w => Sys2Proof.Machine.execVfmul k w s
  | .vfma k w => Sys2Proof.Machine.execVfma k w s
  | .vfmin k w => Sys2Proof.Machine.execVfmin k w s
  | .vfmax k w => Sys2Proof.Machine.execVfmax k w s
  | .vfcmpeq k w => Sys2Proof.Machine.execVfcmpeq k w s
  | .vfcmplt k w => Sys2Proof.Machine.execVfcmplt k w s
  | .vfcmple k w => Sys2Proof.Machine.execVfcmple k w s
  | .vcvtif k w => Sys2Proof.Machine.execVcvtif k w s
  | .vcvtfi k w => Sys2Proof.Machine.execVcvtfi k w s
  | .vdup k w => Sys2Proof.Machine.execVdup k w s
  | .vext k w => Sys2Proof.Machine.execVext k w s
  | .vins k w => Sys2Proof.Machine.execVins k w s
  | .vmovmsk k w => Sys2Proof.Machine.execVmovmsk k w s
  | .vshufb k w => Sys2Proof.Machine.execVshufb k w s
  | .vredaddu k w => Sys2Proof.Machine.execVredaddu k w s
  | .vredmaxu k w => Sys2Proof.Machine.execVredmaxu k w s
  | .vredminu k w => Sys2Proof.Machine.execVredminu k w s
  | .vmov k w => Sys2Proof.Machine.execVmov k w s
  | .vld k w => Sys2Proof.Machine.execVld k w s
  | .vst k w => Sys2Proof.Machine.execVst k w s
  | .submit p req => Sys2Proof.Machine.execSubmit p req s
  | .take p fn ns req => Sys2Proof.Machine.execTake p fn ns req s
  | .done p st req => Sys2Proof.Machine.execDone p st req s
  | .query p req => Sys2Proof.Machine.execQuery p req s
  | .cancel p req => Sys2Proof.Machine.execCancel p req s
  | .ctrAllocate p req => Sys2Proof.Machine.execCtrAllocate p req s
  | .ctrAdd p req => Sys2Proof.Machine.execCtrAdd p req s
  | .ctrSet p req => Sys2Proof.Machine.execCtrSet p req s
  | .ctrRead p req => Sys2Proof.Machine.execCtrRead p req s
  | .ctrFree p req => Sys2Proof.Machine.execCtrFree p req s
  | .routeRead req => Sys2Proof.Machine.execRouteRead req s
  | .routeCreate req => Sys2Proof.Machine.execRouteCreate req s
  | .routeDelete req => Sys2Proof.Machine.execRouteDelete req s
  | .endOwner req => Sys2Proof.Machine.execEndOwner req s
  | .routeSetClusters req => Sys2Proof.Machine.execRouteSetClusters req s
  | .orderedModeWrite b req => Sys2Proof.Machine.execOrderedModeWrite b req s
  | .letterDue => Sys2Proof.Machine.execLetterDue s
  | .letterAging id => Sys2Proof.Machine.execLetterAging id s
  | .letterOffer p => Sys2Proof.Machine.execLetterOffer p s
  | .letterDispatch window id ns => Sys2Proof.Machine.execLetterDispatch window id ns s
  | .engineLetterEnd id unit more => Sys2Proof.Machine.execEngineLetterEnd id unit more s
  | .exit k => Sys2Proof.Machine.execExit k s
  | .wmap k => Sys2Proof.Machine.execWmap k s
  | .wunmap k => Sys2Proof.Machine.execWunmap k s
  | .tcreate k => Sys2Proof.Machine.execTcreate k s
  | .tdelete k => Sys2Proof.Machine.execTdelete k s
  | .route k => Sys2Proof.Machine.execRoute k s
  | .memoryRead tag off len => Sys2Proof.Machine.execMemoryRead tag off len s
  | .memoryWrite tag off data => Sys2Proof.Machine.execMemoryWrite tag off data s
  | .memoryFill tag off len pat => Sys2Proof.Machine.execMemoryFill tag off len pat s
  | .memoryCopyToSlm tag off ranges pr bad => Sys2Proof.Machine.execMemoryCopyToSlm tag off ranges pr bad s
  | .memoryCopyToNvm tag off nsid slba nlb pr => Sys2Proof.Machine.execMemoryCopyToNvm tag off nsid slba nlb pr s
  | .memoryRangeSetCreate tag ranges => Sys2Proof.Machine.execMemoryRangeSetCreate tag ranges s
  | .memoryRangeSetDelete tag id => Sys2Proof.Machine.execMemoryRangeSetDelete tag id s
  | .loadProgram tag slot ptype off data => Sys2Proof.Machine.execLoadProgram tag slot ptype off data s
  | .unloadProgram tag slot => Sys2Proof.Machine.execUnloadProgram tag slot s
  | .activateProgram tag slot => Sys2Proof.Machine.execActivateProgram tag slot s
  | .deactivateProgram tag slot => Sys2Proof.Machine.execDeactivateProgram tag slot s
  | .executeProgram tag slot rset params => Sys2Proof.Machine.execExecuteProgram tag slot rset params s
  | .executionTimeLimit e => Sys2Proof.Machine.execExecutionTimeLimit e s
  | .executionEnd e => Sys2Proof.Machine.execExecutionEnd e s
  | .mediaRead id bad => Sys2Proof.Machine.execMediaRead id bad s
  | .dramRead addr port res o => Sys2Proof.Machine.execDramRead addr port res o s
  | .narrowWrite addr port data core res => Sys2Proof.Machine.execNarrowWrite addr port data core res s
  | .portUrgent n p on => Sys2Proof.Machine.execPortUrgent n p on s
  | .refreshInterval n repaid postponed hot => Sys2Proof.Machine.execRefreshInterval n repaid postponed hot s
  | .delayApply n good => Sys2Proof.Machine.execDelayApply n good s
  | .recalibrationDue n drift stage aged good => Sys2Proof.Machine.execRecalibrationDue n drift stage aged good s
  | .dramHold n on => Sys2Proof.Machine.execDramHold n on s
  | .dramChannelRetire n key req => Sys2Proof.Machine.execDramChannelRetire n key req s
  | .pageRetire n page => Sys2Proof.Machine.execPageRetire n page s
  | .scrubStep word res late => Sys2Proof.Machine.execScrubStep word res late s
  | .sramRead retained addr res => Sys2Proof.Machine.execSramRead retained addr res s
  | .sramRepair m column index => Sys2Proof.Machine.execSramRepair m column index s
  | .portLinkDown n => Sys2Proof.Machine.execPortLinkDown n s
  | .portLinkUp n speed fec => Sys2Proof.Machine.execPortLinkUp n speed fec s
  | .addressFailback n => Sys2Proof.Machine.execAddressFailback n s
  | .announcementRepeat n => Sys2Proof.Machine.execAnnouncementRepeat n s
  | .moduleInsert n power temp => Sys2Proof.Machine.execModuleInsert n power temp s
  | .moduleRemove n => Sys2Proof.Machine.execModuleRemove n s
  | .modulePoll n power temp => Sys2Proof.Machine.execModulePoll n power temp s
  | .portRetrain n => Sys2Proof.Machine.execPortRetrain n s
  | .portRetire n f => Sys2Proof.Machine.execPortRetire n f s
  | .frameReceived n k len corr uncorr full drained => Sys2Proof.Machine.execFrameReceived n k len corr uncorr full drained s
  | .connect c n roce nqn disc k qid size kato => Sys2Proof.Machine.execConnect c n roce nqn disc k qid size kato s
  | .propertySet k off value => Sys2Proof.Machine.execPropertySet k off value s
  | .katoExpiry k => Sys2Proof.Machine.execKatoExpiry k s
  | .connectionClosed c => Sys2Proof.Machine.execConnectionClosed c s
  | .icreq c n hdgst ddgst hpda => Sys2Proof.Machine.execIcreq c n hdgst ddgst hpda s
  | .h2cData c tag headBad dataBad => Sys2Proof.Machine.execH2cData c tag headBad dataBad s
  | .tlsHandshake c n slot ok => Sys2Proof.Machine.execTlsHandshake c n slot ok s
  | .queuePairError c => Sys2Proof.Machine.execQueuePairError c s
  | .cePacketReceived c recent => Sys2Proof.Machine.execCePacketReceived c recent s
  | .cnpReceived c => Sys2Proof.Machine.execCnpReceived c s
  | .rateRecoveryTimer c => Sys2Proof.Machine.execRateRecoveryTimer c s
  | .letterboxDoorbell f msgs tail => Sys2Proof.Machine.execLetterboxDoorbell f msgs tail s
  | .letterboxQuery => Sys2Proof.Machine.execLetterboxQuery s
  | .assign => Sys2Proof.Machine.execAssign s
  | .move => Sys2Proof.Machine.execMove s
  | .claim down => Sys2Proof.Machine.execClaim down s
  | .relay => Sys2Proof.Machine.execRelay s
  | .m2hHeadWrite f head => Sys2Proof.Machine.execM2hHeadWrite f head s
  | .sensorRead i0 t16 => Sys2Proof.Machine.execSensorRead i0 t16 s
  | .thermalEvaluation cool => Sys2Proof.Machine.execThermalEvaluation cool s
  | .capControl => Sys2Proof.Machine.execCapControl s
  | .enec addr events => Sys2Proof.Machine.execEnec addr events s
  | .disec addr events => Sys2Proof.Machine.execDisec addr events s
  | .rstdaa => Sys2Proof.Machine.execRstdaa s
  | .entdaa a => Sys2Proof.Machine.execEntdaa a s
  | .setdasa static a => Sys2Proof.Machine.execSetdasa static a s
  | .setnewda old a => Sys2Proof.Machine.execSetnewda old a s
  | .setmwl addr n => Sys2Proof.Machine.execSetmwl addr n s
  | .setmrl addr n => Sys2Proof.Machine.execSetmrl addr n s
  | .getmwl addr => Sys2Proof.Machine.execGetmwl addr s
  | .getmrl addr => Sys2Proof.Machine.execGetmrl addr s
  | .getpid addr => Sys2Proof.Machine.execGetpid addr s
  | .getbcr addr => Sys2Proof.Machine.execGetbcr addr s
  | .getdcr addr => Sys2Proof.Machine.execGetdcr addr s
  | .getstatus addr => Sys2Proof.Machine.execGetstatus addr s
  | .rstact addr action => Sys2Proof.Machine.execRstact addr action s
  | .hotJoin => Sys2Proof.Machine.execHotJoin s
  | .ibiDeferExpiry => Sys2Proof.Machine.execIbiDeferExpiry s
  | .setEndpointId eid => Sys2Proof.Machine.execSetEndpointId eid s
  | .readNvmeMiDataStructure dtyp => Sys2Proof.Machine.execReadNvmeMiDataStructure dtyp s
  | .subsystemHealthStatusPoll => Sys2Proof.Machine.execSubsystemHealthStatusPoll s
  | .controllerHealthStatusPoll first => Sys2Proof.Machine.execControllerHealthStatusPoll first s
  | .configurationSet id v => Sys2Proof.Machine.execConfigurationSet id v s
  | .configurationGet id => Sys2Proof.Machine.execConfigurationGet id s
  | .vpdRead off len => Sys2Proof.Machine.execVpdRead off len s
  | .vpdWrite off data => Sys2Proof.Machine.execVpdWrite off data s
  | .nvmeMiReset => Sys2Proof.Machine.execNvmeMiReset s
  | .tunnelledAdminCommand ctrl cid nsid => Sys2Proof.Machine.execTunnelledAdminCommand ctrl cid nsid s
  | .miModuleReset key => Sys2Proof.Machine.execMiModuleReset key s
  | .miWatchToRise key => Sys2Proof.Machine.execMiWatchToRise key s
  | .miWatchToKeep key => Sys2Proof.Machine.execMiWatchToKeep key s
  | .setNumericEffecterValue w => Sys2Proof.Machine.execSetNumericEffecterValue w s
  | .getSensorReading i0 => Sys2Proof.Machine.execGetSensorReading i0 s
  | .requestUpdate => Sys2Proof.Machine.execRequestUpdate s
  | .activateFirmware selfContained => Sys2Proof.Machine.execActivateFirmware selfContained s
  | .cflProgram addr data req => Sys2Proof.Machine.execCflProgram addr data req s
  | .cflEraseSector addr key req => Sys2Proof.Machine.execCflEraseSector addr key req s
  | .cflEraseGroup addr key req => Sys2Proof.Machine.execCflEraseGroup addr key req s
  | .cflOperationDone bad => Sys2Proof.Machine.execCflOperationDone bad s
  | .cflRead addr res early req => Sys2Proof.Machine.execCflRead addr res early req s
  | .settingsCommit bytes => Sys2Proof.Machine.execSettingsCommit bytes s
  | .settingsCompaction => Sys2Proof.Machine.execSettingsCompaction s
  | .managementFirmwareSwitch ended => Sys2Proof.Machine.execManagementFirmwareSwitch ended s
  | .networkFirmwareSwitch ended => Sys2Proof.Machine.execNetworkFirmwareSwitch ended s
  | .postmark code src args => Sys2Proof.Machine.execPostmark code src args s
  | .postmarkWrite => Sys2Proof.Machine.execPostmarkWrite s
  | .coalescingWindowEnd lane code src => Sys2Proof.Machine.execCoalescingWindowEnd lane code src s
  | .postmarkSubmit k req => Sys2Proof.Machine.execPostmarkSubmit k req s
  | .cursorWrite w q forMctp => Sys2Proof.Machine.execCursorWrite w q forMctp s
  | .drain => Sys2Proof.Machine.execDrain s
  | .sealSegmentErase => Sys2Proof.Machine.execSealSegmentErase s
  | .ident tag badFrame => Sys2Proof.Machine.execIdent tag badFrame s
  | .debugRead tag size addr badFrame late => Sys2Proof.Machine.execDebugRead tag size addr badFrame late s
  | .debugWrite tag size addr data badFrame late => Sys2Proof.Machine.execDebugWrite tag size addr data badFrame late s
  | .readInc tag size badFrame late => Sys2Proof.Machine.execReadInc tag size badFrame late s
  | .writeInc tag size data badFrame late => Sys2Proof.Machine.execWriteInc tag size data badFrame late s
  | .collect tag badFrame => Sys2Proof.Machine.execCollect tag badFrame s
  | .repeatRequest tag badFrame => Sys2Proof.Machine.execRepeat tag badFrame s
  | .lineReset => Sys2Proof.Machine.execLineReset s
  | .debugAccessComplete => Sys2Proof.Machine.execDebugAccessComplete s
  | .coreHalt k req => Sys2Proof.Machine.execCoreHalt k req s
  | .coreResume k req => Sys2Proof.Machine.execCoreResume k req s
  | .coreStep k noInt req => Sys2Proof.Machine.execCoreStep k noInt req s
  | .breakpointHit k => Sys2Proof.Machine.execBreakpointHit k s
  | .watchpointHit k addr n load store => Sys2Proof.Machine.execWatchpointHit k addr n load store s
  | .regDataWrite k v req => Sys2Proof.Machine.execRegDataWrite k v req s
  | .pcWrite k v req => Sys2Proof.Machine.execPcWrite k v req s
  | .debugResetPin => Sys2Proof.Machine.execDebugResetPin s
  | .debugResetCommand key req => Sys2Proof.Machine.execDebugResetCommand key req s
  | .controllerEnable f asq acq ams mps => Sys2Proof.Machine.execControllerEnable f asq acq ams mps s
  | .perstbDeassert => Sys2Proof.Machine.execPerstbDeassert s
  | .pcieHotReset portB => Sys2Proof.Machine.execPcieHotReset portB s
  | .bar2Access f off n data => Sys2Proof.Machine.execBar2Access f off n data s
  | .journalFlushDone => Sys2Proof.Machine.execJournalFlushDone s
  | .relocation => Sys2Proof.Machine.execRelocation s
  | .retransmissionTimeout c => Sys2Proof.Machine.execRetransmissionTimeout c s
  | .platformEventMessage => Sys2Proof.Machine.execPlatformEventMessage s
  | .updateComponent i0 => Sys2Proof.Machine.execUpdateComponent i0 s
  | .starvationEpisode n p => Sys2Proof.Machine.execStarvationEpisode n p s

end Sys2Proof.Machine
end

