-- ==== Sys2Proof/Safety.lean ====
section
/-! DEFINITION. What claims are stated with: the invariant of the module, and the conditions under which a core executes a word. -/

namespace Sys2Proof.Machine

/-- A lane without coalescing: at most 256 entries (R502). -/
def LaneFull (q : List Ev) : Prop := q.length ≤ 256

/-- A lane with coalescing: at most 255 entries and one drop postmark, which together are its 256 (R502). -/
def LaneCoal (q : List Ev) : Prop := (q.filter (fun e => !e.drop)).length ≤ 255 ∧ (q.filter (fun e => e.drop)).length ≤ 1

/-- The event recorder is within its sizes: 256 entries in each lane (R502), 32,768 postmarks in the RAM tier (R498). -/
def LanesOk (p : Pbk) : Prop :=
  LaneFull p.q0 ∧ LaneFull p.q1 ∧ LaneCoal p.q2 ∧ LaneCoal p.q3 ∧ p.ram.length ≤ 32768

/-- The invariant: memory is in canonical form, no register is listed twice, and the event recorder is within its sizes. -/
def Inv (s : State) : Prop := Memory.wf s.mem = true ∧ SMap.sorted s.regs = true ∧ LanesOk s.pbk

/-! ### Parts -/

/-- The parts of the state: its fields but for the queue of commands and the variant. -/
inductive Part where
  /-- registers of control space -/
  | regs
  /-- bytes of DRAM and SRAM -/
  | mem
  /-- the number of the next free value -/
  | free
  /-- the clock of idle steps -/
  | tick
  /-- vendor features -/
  | feat
  /-- the event recorder -/
  | pbk
  /-- power and modes -/
  | pow
  /-- NVMe controllers, queues and commands -/
  | nv
  /-- the flash translation layer -/
  | ftl
  /-- channels and dies -/
  | media
  /-- tenants and letterboxes -/
  | ten
  /-- programs and executions -/
  | prog
  /-- errors of memory -/
  | dram
  /-- match banks and tables -/
  | mat
  /-- compression contexts -/
  | comp
  /-- scan jobs -/
  | scan
  /-- digest contexts -/
  | dig
  /-- the key manager -/
  | keys
  /-- the sorting office -/
  | sch
  /-- cores -/
  | cores
  /-- clusters -/
  | clus
  /-- network ports and connections -/
  | net
  /-- management -/
  | mgt
  /-- accesses in progress -/
  | bus
  /-- kept counts -/
  | acc
  /-- lines dirty in caches -/
  | dirty
  deriving DecidableEq, Repr

/-- A part is the same in two states. -/
def Part.same (p : Part) (s t : State) : Prop :=
  match p with
  | .regs => t.regs = s.regs
  | .mem => t.mem = s.mem
  | .free => t.free = s.free
  | .tick => t.tick = s.tick
  | .feat => t.feat = s.feat
  | .pbk => t.pbk = s.pbk
  | .pow => t.pow = s.pow
  | .nv => t.nv = s.nv
  | .ftl => t.ftl = s.ftl
  | .media => t.media = s.media
  | .ten => t.ten = s.ten
  | .prog => t.prog = s.prog
  | .dram => t.dram = s.dram
  | .mat => t.mat = s.mat
  | .comp => t.comp = s.comp
  | .scan => t.scan = s.scan
  | .dig => t.dig = s.dig
  | .keys => t.keys = s.keys
  | .sch => t.sch = s.sch
  | .cores => t.cores = s.cores
  | .clus => t.clus = s.clus
  | .net => t.net = s.net
  | .mgt => t.mgt = s.mgt
  | .bus => t.bus = s.bus
  | .acc => t.acc = s.acc
  | .dirty => t.dirty = s.dirty

/-- All parts but these. -/
def allBut (l : List Part) : List Part :=
  [.regs, .mem, .free, .tick, .feat, .pbk, .pow, .nv, .ftl, .media, .ten, .prog, .dram, .mat, .comp, .scan, .dig, .keys,
    .sch, .cores, .clus, .net, .mgt, .bus, .acc, .dirty].filter (fun p => !l.contains p)

/-- The parts a command can change: an upper bound, whatever its operands and the state are. -/
def mayChange (c : Instr) : List Part :=
  match c with
  | .registerWrite _ _ _ _ => allBut [.tick]
  | .malformedRegisterAccess _ _ _ _ => allBut [.tick]
  | .reservedAddressAccess _ _ _ => [.regs, .pbk]
  | .stalledAccessComplete => allBut [.tick]
  | .doorbellWrite _ _ _ => allBut [.tick]
  | .cqHeadDoorbell _ _ _ => allBut [.tick]
  | .commandFetch _ _ _ _ _ => [.regs, .pbk, .nv, .prog, .sch, .mgt]
  | .tagFreed => [.regs, .nv]
  | .trackerEntryFreed => [.nv]
  | .write _ _ _ => [.regs, .free, .pbk, .nv, .ftl, .media, .prog, .sch, .mgt]
  | .landingProgramDone _ _ _ => [.regs, .free, .pbk, .nv, .ftl, .media, .prog, .sch, .mgt]
  | .read _ _ => [.regs, .free, .pbk, .nv, .ftl, .media, .prog, .sch, .mgt]
  | .mapPageLoadDone _ => [.regs, .free, .pbk, .nv, .ftl, .media, .prog, .sch, .mgt]
  | .pageReadDone _ _ _ => [.regs, .free, .pbk, .nv, .ftl, .media, .prog, .scan, .sch, .mgt]
  | .rebuildComplete _ _ _ => [.regs, .free, .pbk, .nv, .ftl, .media, .prog, .scan, .sch, .mgt]
  | .flush _ => [.regs, .pbk, .nv, .mgt]
  | .writeZeroes _ _ _ => [.regs, .free, .pbk, .nv, .ftl, .media, .prog, .sch, .mgt]
  | .datasetManagement _ _ _ => [.regs, .free, .pbk, .nv, .ftl, .media, .prog, .sch, .mgt]
  | .compare _ _ _ => [.regs, .free, .pbk, .nv, .ftl, .media, .prog, .sch, .mgt]
  | .fusedCompareAndWrite _ _ _ _ _ _ => [.regs, .free, .pbk, .nv, .ftl, .media, .prog, .sch, .mgt]
  | .verify _ _ => [.regs, .free, .pbk, .nv, .ftl, .media, .prog, .sch, .mgt]
  | .copy _ _ _ _ _ => [.regs, .free, .pbk, .nv, .ftl, .media, .prog, .sch, .mgt]
  | .reservationRegister _ _ _ _ _ _ => [.regs, .pbk, .nv, .mgt]
  | .reservationAcquire _ _ _ _ _ _ => [.regs, .free, .pbk, .nv, .ftl, .media, .prog, .sch, .mgt]
  | .reservationRelease _ _ _ _ _ => [.regs, .pbk, .nv, .mgt]
  | .reservationReport _ _ _ => [.regs, .pbk, .nv, .mgt]
  | .abort _ _ _ => [.regs, .free, .pbk, .nv, .ftl, .media, .prog, .sch, .mgt]
  | .createIoSubmissionQueue _ _ _ _ _ _ _ => [.regs, .pbk, .nv, .mgt]
  | .createIoCompletionQueue _ _ _ _ _ _ => [.regs, .pbk, .nv, .mgt]
  | .deleteIoSubmissionQueue _ _ => allBut [.tick, .feat, .pow, .ten, .dig, .keys, .net, .bus, .acc]
  | .deleteIoCompletionQueue _ _ => [.regs, .pbk, .nv, .mgt]
  | .identify _ _ _ _ => [.regs, .free, .pbk, .nv, .mgt]
  | .getFeatures _ _ _ _ => [.regs, .pbk, .nv, .mgt]
  | .setFeatures _ _ _ _ _ => allBut [.tick, .pow, .ten, .dig, .keys, .bus, .acc]
  | .setPowerManagement _ _ _ => allBut [.tick, .pow, .ten, .dig, .keys, .bus, .acc]
  | .setOrderedQueue _ _ _ => allBut [.tick, .pow, .ten, .dig, .keys, .bus, .acc]
  | .setLandingPoolPolicy _ _ _ => allBut [.tick, .pow, .ten, .dig, .keys, .bus, .acc]
  | .setScanDefaults _ _ _ => allBut [.tick, .pow, .ten, .dig, .keys, .bus, .acc]
  | .setComputeRuntime _ _ _ => allBut [.tick, .pow, .ten, .dig, .keys, .bus, .acc]
  | .setThermalThresholds _ _ _ => allBut [.tick, .pow, .ten, .dig, .keys, .bus, .acc]
  | .setEventNotification _ _ _ => allBut [.tick, .pow, .ten, .dig, .keys, .bus, .acc]
  | .setTenantArbitrationReadOut _ _ _ => allBut [.tick, .pow, .ten, .dig, .keys, .bus, .acc]
  | .setNetworkPorts _ _ _ _ _ => allBut [.tick, .pow, .ten, .dig, .keys, .bus, .acc]
  | .getLogPage _ _ _ _ _ _ => [.regs, .free, .pbk, .nv, .mgt]
  | .moduleIdentityLog _ _ _ => [.regs, .free, .pbk, .nv, .mgt]
  | .wearAndSparesLog _ _ _ => [.regs, .free, .pbk, .nv, .mgt]
  | .powerAndModeLog _ _ _ => [.regs, .free, .pbk, .nv, .mgt]
  | .tagsAndOrderingLog _ _ _ => [.regs, .free, .pbk, .nv, .mgt]
  | .channelHealthLog _ _ _ => [.regs, .free, .pbk, .nv, .mgt]
  | .matchArraysLog _ _ _ => [.regs, .free, .pbk, .nv, .mgt]
  | .computeClustersLog _ _ _ => [.regs, .free, .pbk, .nv, .mgt]
  | .dramAndSramErrorsLog _ _ _ => [.regs, .free, .pbk, .nv, .mgt]
  | .networkPortsLog _ _ _ => [.regs, .free, .pbk, .nv, .mgt]
  | .sensorsAndThrottlingLog _ _ _ => [.regs, .free, .pbk, .nv, .mgt]
  | .eventRecorderWindowLog _ _ _ _ _ _ => [.regs, .free, .pbk, .nv, .mgt]
  | .firmwareComponentsLog _ _ _ => [.regs, .free, .pbk, .nv, .mgt]
  | .tenantResourcesLog _ _ _ => [.regs, .free, .pbk, .nv, .mgt]
  | .scanStatisticsLog _ _ _ => [.regs, .free, .pbk, .nv, .mgt]
  | .asynchronousEventRequest _ => [.regs, .pbk, .nv, .mgt]
  | .keepAlive _ => [.regs, .pbk, .nv, .mgt]
  | .namespaceCreate _ _ => [.regs, .mem, .pbk, .nv, .ten, .dram, .keys, .mgt, .dirty]
  | .namespaceDelete _ => allBut [.tick, .feat, .pow, .dig, .net, .bus, .acc]
  | .namespaceAttach _ _ => [.regs, .pbk, .nv, .mgt]
  | .namespaceDetach _ _ => [.regs, .pbk, .nv, .mgt]
  | .formatNvm _ _ _ _ _ => allBut [.tick, .feat, .pow, .ten, .mat, .comp, .dig, .cores, .net, .bus, .acc]
  | .sanitize _ _ _ => allBut [.tick, .feat, .ten, .mat, .comp, .dig, .net, .bus, .acc]
  | .sanitizeComplete _ _ => allBut [.mem, .free, .tick, .feat, .ten, .prog, .dram, .comp, .scan, .net, .bus, .dirty]
  | .deviceSelfTest _ _ => [.regs, .pbk, .nv, .mgt]
  | .nvmeMiSend _ _ => allBut [.tick]
  | .nvmeMiReceive _ _ => allBut [.tick]
  | .secondaryControllerOffline _ _ => [.regs, .pbk, .nv, .mgt]
  | .secondaryControllerOnline _ _ => [.regs, .pbk, .nv, .mgt]
  | .firmwareDownload _ _ _ => [.regs, .pbk, .nv, .mgt]
  | .firmwareCommit _ _ _ _ => [.regs, .pbk, .nv, .mgt]
  | .controlFirmwareHandover _ => allBut [.tick]
  | .fetchHold _ _ => [.regs, .pbk]
  | .shutdown _ _ => allBut [.tick]
  | .controllerReset _ => allBut [.tick]
  | .functionLevelReset _ => allBut [.tick]
  | .nvmSubsystemReset _ => allBut [.tick]
  | .perstAssert => allBut [.tick]
  | .perstDeassert => allBut [.tick]
  | .perstbAssert => allBut [.tick]
  | .linkTrained _ _ _ _ _ => [.regs, .pbk, .nv]
  | .linkDown _ => [.regs, .pbk, .nv]
  | .configurationRequest _ _ => allBut [.tick]
  | .barReservedAccess _ _ _ _ => allBut [.tick]
  | .vbusWarn => [.regs, .pbk, .pow, .nv, .ftl, .media, .ten, .sch, .cores, .mgt]
  | .pfailAssert => [.regs, .pbk, .pow, .nv, .ftl, .media, .ten, .sch, .cores, .mgt]
  | .pfailDeassert => allBut [.tick, .feat]
  | .pfailHoldExpiry => [.pow]
  | .braceComplete => [.regs, .free, .pbk, .pow, .nv, .ftl, .media, .prog, .sch, .mgt]
  | .braceRecovery => allBut [.tick]
  | .holdupSwitchIn => [.regs, .pow]
  | .brownoutLimit => [.regs, .pow]
  | .sealStart => [.regs, .pow, .mgt]
  | .sealEnd _ _ => allBut [.tick, .feat]
  | .sealJudgment _ => allBut [.tick]
  | .restExpiry => allBut [.tick]
  | .keepVbusRecovery => allBut [.tick, .feat]
  | .regulatorCutoff _ => allBut [.tick]
  | .inputAtStartThreshold _ => [.regs, .pow]
  | .inputStop _ => [.regs, .pow]
  | .inputOvervoltage _ => [.regs, .pbk, .pow]
  | .inputReconnect _ => [.regs, .pow]
  | .sourceTransfer => [.regs, .pbk, .pow]
  | .sourceReturn => [.regs, .pbk, .pow]
  | .reserveReached => [.regs, .free, .pbk, .nv, .ftl, .media, .prog, .sch, .mgt]
  | .reserveLow => [.regs, .pbk]
  | .heldWriteTimeout _ => [.regs, .free, .pbk, .nv, .ftl, .media, .prog, .sch, .mgt]
  | .bankTest => [.regs, .pbk]
  | .bankTestInterval => [.regs, .pbk]
  | .bankTestDone _ _ _ => [.regs, .pbk, .pow, .nv, .mgt]
  | .pwrdisAssert => [.pow]
  | .pwrdisHoldExpiry => allBut [.tick]
  | .pwrdisDeassert => [.regs, .pbk, .pow, .nv, .cores, .mgt]
  | .wakeTimerExpiry => allBut [.tick, .feat]
  | .resetReqModule _ _ => allBut [.tick]
  | .resetReqNvmssr _ _ => allBut [.tick, .dig, .keys, .bus]
  | .resetReqKeep _ _ => [.regs, .pbk, .cores, .bus]
  | .resetReqStart _ _ => [.regs, .pbk, .pow, .nv, .cores, .mgt]
  | .moduleReset _ => allBut [.tick]
  | .moduleResetOffExpiry => [.regs, .pbk, .pow, .nv, .cores, .mgt]
  | .managementWatchdogExpiry => allBut [.tick]
  | .orderlyStop _ => allBut [.tick]
  | .orderlyStopGraceExpiry => allBut [.tick]
  | .inputQualified _ => allBut [.tick, .feat]
  | .firmwareVerified _ _ => allBut [.tick, .feat]
  | .dramDelayCheck _ => allBut [.tick, .feat]
  | .mapDirectoryLoaded _ _ _ => [.regs, .free, .pbk, .pow, .nv, .ftl, .media, .ten, .keys, .cores, .clus, .mgt]
  | .journalReplayDone _ _ _ => [.regs, .pbk, .pow, .ftl]
  | .openBlockScanDone _ _ => [.regs, .pbk, .pow, .nv, .ftl, .media, .mgt]
  | .cstsRdySet _ => [.nv]
  | .riseTimeout => allBut [.tick]
  | .idleConditionsChange _ => [.regs, .pbk, .pow, .nv]
  | .apstIdleExpiry _ _ => [.regs, .pbk, .nv]
  | .idleEntry _ => allBut [.tick]
  | .idleWake _ _ _ => allBut [.tick]
  | .delayWakeExpiry _ => allBut [.tick]
  | .pllLockLoss _ _ => allBut [.tick]
  | .xtalSwitch => [.regs]
  | .controlCoreRetire _ => [.regs, .pbk, .pow, .nv, .mgt]
  | .fillRecompute => [.regs, .free, .pbk, .nv, .ftl, .media, .prog, .sch, .mgt]
  | .foldStart _ _ => [.regs, .ftl, .media]
  | .foldProgramDone _ _ _ => [.regs, .free, .pbk, .pow, .nv, .ftl, .media, .prog, .sch, .mgt]
  | .garbageCollection => [.regs, .ftl, .media]
  | .gcCopyLanded _ _ _ _ => [.regs, .free, .pbk, .pow, .nv, .ftl, .media, .prog, .sch, .mgt]
  | .wearLevelling => [.regs, .ftl, .media]
  | .secureDiscard => [.regs, .ftl, .media]
  | .journalFlush => [.regs, .ftl, .media]
  | .checkpoint => [.regs, .free, .pbk, .nv, .ftl, .media, .prog, .sch, .mgt]
  | .mapPageWritten _ => [.regs, .free, .pbk, .nv, .ftl, .media, .prog, .sch, .mgt]
  | .backgroundMapLoad => [.regs, .pbk, .nv, .ftl, .media, .mgt]
  | .eraseDone _ _ _ => [.regs, .free, .pbk, .pow, .nv, .ftl, .media, .prog, .sch, .mgt]
  | .dieTimeout _ _ _ => [.regs, .free, .pbk, .pow, .nv, .ftl, .media, .prog, .sch, .mgt]
  | .governorAdmit _ _ _ => [.regs, .media, .sch]
  | .eraseSuspend _ _ _ => [.regs, .pbk, .media]
  | .suspendResume _ _ _ _ => [.regs, .media]
  | .preReadIssue _ _ => [.regs, .media, .sch]
  | .preReadStaged _ _ _ => [.regs, .media, .prog, .sch]
  | .retryBackoffExpiry _ _ _ _ => [.regs, .free, .pbk, .nv, .ftl, .media]
  | .channelReset _ _ _ => [.regs, .free, .pbk, .pow, .nv, .ftl, .media]
  | .calibrate _ _ _ _ => [.regs, .free, .pbk, .nv, .ftl, .media, .mgt]
  | .periodicCalibration _ _ _ _ => [.regs, .free, .pbk, .nv, .ftl, .media, .mgt]
  | .channelHold _ _ => [.regs]
  | .channelRetire _ _ _ _ => [.regs, .free, .pbk, .pow, .nv, .ftl, .media, .sch, .mgt]
  | .patrolRead _ _ _ => [.regs, .media]
  | .microcodeSwitch _ _ _ => allBut [.tick]
  | .scan _ _ => [.regs, .mem, .free, .pbk, .nv, .dram, .scan, .clus, .mgt, .dirty]
  | .scanJobAccepted => [.regs, .mem, .free, .pbk, .nv, .media, .dram, .scan, .clus, .mgt, .dirty]
  | .scanIuEvaluate _ _ _ => [.regs, .mem, .free, .pbk, .media, .dram, .mat, .scan, .clus, .dirty]
  | .outputRingSpace _ _ => [.regs, .mem, .free, .pbk, .media, .dram, .scan, .clus, .dirty]
  | .scanTimeLimit _ => [.regs, .media, .scan]
  | .scanContextAbort _ _ _ => [.regs, .pbk, .media, .scan]
  | .scanJobComplete _ => [.regs, .mem, .free, .pbk, .nv, .media, .dram, .scan, .clus, .mgt, .dirty]
  | .matchLookup _ _ _ => [.regs, .mem, .pbk, .nv, .dram, .mat, .clus, .mgt, .dirty]
  | .matchTableCreate _ _ _ _ => [.regs, .pbk, .nv, .mgt]
  | .matchTableDelete _ _ => [.regs, .pbk, .nv, .mat, .mgt]
  | .matchSearch _ _ _ _ => [.regs, .pbk, .mat]
  | .matchSearchFrom _ _ _ _ _ => [.regs, .pbk, .mat]
  | .matchWriteEntry _ _ _ _ _ => [.regs, .mat]
  | .matchDeleteEntry _ _ _ => [.regs, .mat]
  | .matchReadEntry _ _ _ => [.mat]
  | .tableMapWrite _ _ _ => [.regs, .pbk, .mat]
  | .tableClearDone _ => [.regs, .mat]
  | .entryInvalidate _ _ _ => [.regs, .pbk, .mat]
  | .entryValidate _ _ _ => [.regs, .pbk, .mat]
  | .matchWindowWrite _ _ _ _ => [.regs, .pbk, .mat]
  | .matchScrub _ _ _ _ => [.regs, .free, .pbk, .mat]
  | .rowRepair _ _ _ => [.regs, .pbk, .mat]
  | .columnRepair _ _ => [.regs, .pbk, .mat]
  | .compress _ _ _ _ => [.regs, .mem, .free, .pbk, .dram, .comp, .clus, .dirty]
  | .expand _ _ _ => [.regs, .mem, .free, .pbk, .dram, .comp, .clus, .dirty]
  | .check _ _ _ => [.regs, .mem, .free, .pbk, .dram, .comp, .clus, .dirty]
  | .engineFault _ => [.regs, .pbk, .comp]
  | .engineAbort _ _ _ => [.regs, .mem, .free, .pbk, .dram, .comp, .clus, .dirty]
  | .engineRetire _ _ _ => [.regs, .pbk]
  | .digestClaim _ _ => [.regs, .mem, .free, .pbk, .dram, .dig, .clus, .dirty]
  | .digestRelease _ _ => [.regs, .mem, .free, .pbk, .dram, .dig, .clus, .dirty]
  | .digestStart _ _ _ => [.regs, .mem, .free, .pbk, .dram, .dig, .clus, .dirty]
  | .digestDataWrite _ _ _ _ _ => [.regs, .pbk, .dig]
  | .digestKeyWrite _ _ _ _ => [.regs, .pbk, .dig]
  | .digestBlockTaken _ => [.regs]
  | .digestFinish _ _ _ => [.regs, .mem, .free, .pbk, .dram, .dig, .clus, .dirty]
  | .digestAbort _ _ _ => [.regs, .mem, .free, .pbk, .dram, .dig, .clus, .dirty]
  | .digestExport _ _ _ => [.regs, .mem, .free, .pbk, .dram, .dig, .clus, .dirty]
  | .digestImport _ _ _ => [.regs, .mem, .free, .pbk, .dram, .dig, .clus, .dirty]
  | .digestLetter _ _ => [.regs, .mem, .free, .pbk, .dram, .dig, .clus, .dirty]
  | .keyManagerAlarm _ => [.regs, .mem, .pbk, .dram, .dig, .keys, .clus, .dirty]
  | .contextAlarm _ => [.regs, .pbk, .dig]
  | .slotReloadDone _ => [.regs, .pbk, .pow, .nv, .keys, .mgt]
  | .loadKeySlot _ _ _ _ => [.regs, .free, .pbk, .pow, .nv, .ftl, .keys, .mgt]
  | .zeroizeKeySlot _ _ _ => [.regs, .free, .pbk, .pow, .nv, .ftl, .keys, .mgt]
  | .cryptoEraseEntry _ _ => [.regs, .free, .pbk, .pow, .nv, .ftl, .keys, .mgt]
  | .keyUnwrap _ _ => [.regs, .pbk, .pow, .nv, .keys, .mgt]
  | .keySlotFreed _ _ => [.regs, .pbk, .pow, .nv, .keys, .mgt]
  | .runAheadEntry _ _ => [.regs, .cores]
  | .runAheadExit _ _ _ => [.regs, .media, .prog, .sch, .cores]
  | .preReadDispatchTimeout _ => [.regs, .media, .sch]
  | .preStagedExpiry _ _ _ => [.regs, .prog]
  | .windowLoad _ _ => [.regs, .free, .pbk, .pow, .nv, .media, .prog, .sch, .cores, .mgt]
  | .windowPageStaged _ => [.regs, .pbk, .prog, .sch]
  | .dirtyFault _ _ _ _ => allBut [.tick, .feat, .ftl, .mat, .comp, .scan, .dig, .keys, .net, .mgt, .bus, .acc]
  | .fillError _ _ => [.regs, .free, .pbk, .pow, .nv, .prog, .sch, .cores, .mgt]
  | .cacheEnableWrite _ _ _ => [.regs, .pbk, .clus, .dirty]
  | .wayLockWrite _ _ _ => [.regs, .pbk, .clus]
  | .invAll _ _ => [.regs, .mem, .free, .pbk, .clus, .dirty]
  | .cleanAll _ _ => [.regs, .mem, .free, .pbk, .clus, .dirty]
  | .cleanInvAll _ _ => [.regs, .mem, .free, .pbk, .clus, .dirty]
  | .invRange _ _ => [.regs, .mem, .free, .pbk, .clus, .dirty]
  | .cleanRange _ _ => [.regs, .mem, .free, .pbk, .clus, .dirty]
  | .cleanInvRange _ _ => [.regs, .mem, .free, .pbk, .clus, .dirty]
  | .iinvRange _ _ => [.regs, .mem, .free, .pbk, .clus, .dirty]
  | .lockFillRange _ _ => [.regs, .mem, .free, .pbk, .clus, .dirty]
  | .cmoDone _ => [.regs, .clus]
  | .clusterReset _ _ => [.regs, .free, .pbk, .pow, .nv, .media, .ten, .prog, .sch, .cores, .clus, .dirty]
  | .clusterRetire _ _ _ _ => [.regs, .free, .pbk, .pow, .nv, .media, .ten, .prog, .sch, .cores, .clus, .dirty]
  | .runtimeUpdate _ => [.clus]
  | .runtimeUpdateGraceExpiry _ _ _ _ => allBut [.tick]
  | .add _ _ => [.regs, .mem, .free, .pbk, .pow, .nv, .prog, .sch, .cores, .mgt, .dirty]
  | .sub _ _ => [.regs, .mem, .free, .pbk, .pow, .nv, .prog, .sch, .cores, .mgt, .dirty]
  | .and _ _ => [.regs, .mem, .free, .pbk, .pow, .nv, .prog, .sch, .cores, .mgt, .dirty]
  | .or _ _ => [.regs, .mem, .free, .pbk, .pow, .nv, .prog, .sch, .cores, .mgt, .dirty]
  | .xor _ _ => [.regs, .mem, .free, .pbk, .pow, .nv, .prog, .sch, .cores, .mgt, .dirty]
  | .andn _ _ => [.regs, .mem, .free, .pbk, .pow, .nv, .prog, .sch, .cores, .mgt, .dirty]
  | .orn _ _ => [.regs, .mem, .free, .pbk, .pow, .nv, .prog, .sch, .cores, .mgt, .dirty]
  | .sll _ _ => [.regs, .mem, .free, .pbk, .pow, .nv, .prog, .sch, .cores, .mgt, .dirty]
  | .srl _ _ => [.regs, .mem, .free, .pbk, .pow, .nv, .prog, .sch, .cores, .mgt, .dirty]
  | .sra _ _ => [.regs, .mem, .free, .pbk, .pow, .nv, .prog, .sch, .cores, .mgt, .dirty]
  | .ror _ _ => [.regs, .mem, .free, .pbk, .pow, .nv, .prog, .sch, .cores, .mgt, .dirty]
  | .addw _ _ => [.regs, .mem, .free, .pbk, .pow, .nv, .prog, .sch, .cores, .mgt, .dirty]
  | .subw _ _ => [.regs, .mem, .free, .pbk, .pow, .nv, .prog, .sch, .cores, .mgt, .dirty]
  | .sllw _ _ => [.regs, .mem, .free, .pbk, .pow, .nv, .prog, .sch, .cores, .mgt, .dirty]
  | .srlw _ _ => [.regs, .mem, .free, .pbk, .pow, .nv, .prog, .sch, .cores, .mgt, .dirty]
  | .sraw _ _ => [.regs, .mem, .free, .pbk, .pow, .nv, .prog, .sch, .cores, .mgt, .dirty]
  | .mul _ _ => [.regs, .mem, .free, .pbk, .pow, .nv, .prog, .sch, .cores, .mgt, .dirty]
  | .mulh _ _ => [.regs, .mem, .free, .pbk, .pow, .nv, .prog, .sch, .cores, .mgt, .dirty]
  | .mulhu _ _ => [.regs, .mem, .free, .pbk, .pow, .nv, .prog, .sch, .cores, .mgt, .dirty]
  | .mulw _ _ => [.regs, .mem, .free, .pbk, .pow, .nv, .prog, .sch, .cores, .mgt, .dirty]
  | .div _ _ => [.regs, .mem, .free, .pbk, .pow, .nv, .prog, .sch, .cores, .mgt, .dirty]
  | .divu _ _ => [.regs, .mem, .free, .pbk, .pow, .nv, .prog, .sch, .cores, .mgt, .dirty]
  | .rem _ _ => [.regs, .mem, .free, .pbk, .pow, .nv, .prog, .sch, .cores, .mgt, .dirty]
  | .remu _ _ => [.regs, .mem, .free, .pbk, .pow, .nv, .prog, .sch, .cores, .mgt, .dirty]
  | .clz _ _ => [.regs, .mem, .free, .pbk, .pow, .nv, .prog, .sch, .cores, .mgt, .dirty]
  | .ctz _ _ => [.regs, .mem, .free, .pbk, .pow, .nv, .prog, .sch, .cores, .mgt, .dirty]
  | .popc _ _ => [.regs, .mem, .free, .pbk, .pow, .nv, .prog, .sch, .cores, .mgt, .dirty]
  | .bswap _ _ => [.regs, .mem, .free, .pbk, .pow, .nv, .prog, .sch, .cores, .mgt, .dirty]
  | .sextb _ _ => [.regs, .mem, .free, .pbk, .pow, .nv, .prog, .sch, .cores, .mgt, .dirty]
  | .sexth _ _ => [.regs, .mem, .free, .pbk, .pow, .nv, .prog, .sch, .cores, .mgt, .dirty]
  | .sextw _ _ => [.regs, .mem, .free, .pbk, .pow, .nv, .prog, .sch, .cores, .mgt, .dirty]
  | .zextw _ _ => [.regs, .mem, .free, .pbk, .pow, .nv, .prog, .sch, .cores, .mgt, .dirty]
  | .min _ _ => [.regs, .mem, .free, .pbk, .pow, .nv, .prog, .sch, .cores, .mgt, .dirty]
  | .max _ _ => [.regs, .mem, .free, .pbk, .pow, .nv, .prog, .sch, .cores, .mgt, .dirty]
  | .minu _ _ => [.regs, .mem, .free, .pbk, .pow, .nv, .prog, .sch, .cores, .mgt, .dirty]
  | .maxu _ _ => [.regs, .mem, .free, .pbk, .pow, .nv, .prog, .sch, .cores, .mgt, .dirty]
  | .cmpeq _ _ => [.regs, .mem, .free, .pbk, .pow, .nv, .prog, .sch, .cores, .mgt, .dirty]
  | .cmpne _ _ => [.regs, .mem, .free, .pbk, .pow, .nv, .prog, .sch, .cores, .mgt, .dirty]
  | .cmplt _ _ => [.regs, .mem, .free, .pbk, .pow, .nv, .prog, .sch, .cores, .mgt, .dirty]
  | .cmpltu _ _ => [.regs, .mem, .free, .pbk, .pow, .nv, .prog, .sch, .cores, .mgt, .dirty]
  | .cmple _ _ => [.regs, .mem, .free, .pbk, .pow, .nv, .prog, .sch, .cores, .mgt, .dirty]
  | .cmpleu _ _ => [.regs, .mem, .free, .pbk, .pow, .nv, .prog, .sch, .cores, .mgt, .dirty]
  | .sel _ _ => [.regs, .mem, .free, .pbk, .pow, .nv, .prog, .sch, .cores, .mgt, .dirty]
  | .addi _ _ => [.regs, .mem, .free, .pbk, .pow, .nv, .prog, .sch, .cores, .mgt, .dirty]
  | .andi _ _ => [.regs, .mem, .free, .pbk, .pow, .nv, .prog, .sch, .cores, .mgt, .dirty]
  | .ori _ _ => [.regs, .mem, .free, .pbk, .pow, .nv, .prog, .sch, .cores, .mgt, .dirty]
  | .xori _ _ => [.regs, .mem, .free, .pbk, .pow, .nv, .prog, .sch, .cores, .mgt, .dirty]
  | .lui _ _ => [.regs, .mem, .free, .pbk, .pow, .nv, .prog, .sch, .cores, .mgt, .dirty]
  | .shi _ _ => [.regs, .mem, .free, .pbk, .pow, .nv, .prog, .sch, .cores, .mgt, .dirty]
  | .cmpeqi _ _ => [.regs, .mem, .free, .pbk, .pow, .nv, .prog, .sch, .cores, .mgt, .dirty]
  | .cmpnei _ _ => [.regs, .mem, .free, .pbk, .pow, .nv, .prog, .sch, .cores, .mgt, .dirty]
  | .cmplti _ _ => [.regs, .mem, .free, .pbk, .pow, .nv, .prog, .sch, .cores, .mgt, .dirty]
  | .cmpltui _ _ => [.regs, .mem, .free, .pbk, .pow, .nv, .prog, .sch, .cores, .mgt, .dirty]
  | .addpc _ _ => [.regs, .mem, .free, .pbk, .pow, .nv, .prog, .sch, .cores, .mgt, .dirty]
  | .ldb _ _ => allBut [.tick]
  | .ldbu _ _ => allBut [.tick]
  | .ldh _ _ => allBut [.tick]
  | .ldhu _ _ => allBut [.tick]
  | .ldw _ _ => allBut [.tick]
  | .ldwu _ _ => allBut [.tick]
  | .ldd _ _ => allBut [.tick]
  | .stb _ _ => allBut [.tick]
  | .sth _ _ => allBut [.tick]
  | .stw _ _ => allBut [.tick]
  | .std _ _ => allBut [.tick]
  | .wldbu _ _ => [.regs, .mem, .free, .pbk, .pow, .nv, .media, .prog, .sch, .cores, .mgt, .dirty]
  | .wldhu _ _ => [.regs, .mem, .free, .pbk, .pow, .nv, .media, .prog, .sch, .cores, .mgt, .dirty]
  | .wldwu _ _ => [.regs, .mem, .free, .pbk, .pow, .nv, .media, .prog, .sch, .cores, .mgt, .dirty]
  | .wldd _ _ => [.regs, .mem, .free, .pbk, .pow, .nv, .media, .prog, .sch, .cores, .mgt, .dirty]
  | .prd _ _ => [.regs, .mem, .free, .pbk, .pow, .nv, .prog, .sch, .cores, .mgt, .dirty]
  | .amoSwap _ _ => allBut [.tick]
  | .amoAdd _ _ => allBut [.tick]
  | .amoAnd _ _ => allBut [.tick]
  | .amoOr _ _ => allBut [.tick]
  | .amoXor _ _ => allBut [.tick]
  | .amoMin _ _ => allBut [.tick]
  | .amoMax _ _ => allBut [.tick]
  | .amoMinu _ _ => allBut [.tick]
  | .amoMaxu _ _ => allBut [.tick]
  | .amoCas _ _ => allBut [.tick]
  | .amoLd _ _ => allBut [.tick]
  | .amoSt _ _ => allBut [.tick]
  | .beqz _ _ => [.regs, .mem, .free, .pbk, .pow, .nv, .prog, .sch, .cores, .mgt, .dirty]
  | .bnez _ _ => [.regs, .mem, .free, .pbk, .pow, .nv, .prog, .sch, .cores, .mgt, .dirty]
  | .j _ _ => [.regs, .mem, .free, .pbk, .pow, .nv, .prog, .sch, .cores, .mgt, .dirty]
  | .call _ _ => allBut [.tick]
  | .jr _ _ => [.regs, .mem, .free, .pbk, .pow, .nv, .prog, .sch, .cores, .mgt, .dirty]
  | .callr _ _ => allBut [.tick]
  | .ret _ _ => allBut [.tick]
  | .svreq _ _ => [.regs, .mem, .free, .pbk, .pow, .nv, .prog, .sch, .cores, .mgt, .dirty]
  | .dbgtrap _ _ => [.regs, .mem, .free, .pbk, .pow, .nv, .prog, .sch, .cores, .mgt, .dirty]
  | .fence _ _ => [.regs, .mem, .free, .pbk, .pow, .nv, .prog, .sch, .cores, .mgt, .dirty]
  | .ifence _ _ => [.regs, .mem, .free, .pbk, .pow, .nv, .prog, .sch, .cores, .mgt, .dirty]
  | .mfsr _ _ => [.regs, .mem, .free, .pbk, .pow, .nv, .prog, .sch, .cores, .mgt, .dirty]
  | .mtsr _ _ => [.regs, .mem, .free, .pbk, .pow, .nv, .prog, .sch, .cores, .mgt, .dirty]
  | .xret _ _ => [.regs, .mem, .free, .pbk, .pow, .nv, .prog, .sch, .cores, .mgt, .dirty]
  | .idle _ _ => [.regs, .mem, .free, .pbk, .pow, .nv, .prog, .sch, .cores, .mgt, .dirty]
  | .tlbinv _ _ => [.regs, .mem, .free, .pbk, .pow, .nv, .prog, .sch, .cores, .mgt, .dirty]
  | .reservedInstruction _ _ => [.regs, .mem, .free, .pbk, .pow, .nv, .prog, .sch, .cores, .mgt, .dirty]
  | .interruptTaken _ _ => [.regs, .free, .pbk, .pow, .nv, .sch, .cores, .mgt]
  | .timerCompareMatch _ _ => [.regs, .cores]
  | .vadd _ _ => [.regs, .mem, .free, .pbk, .pow, .nv, .prog, .sch, .cores, .mgt, .dirty]
  | .vsub _ _ => [.regs, .mem, .free, .pbk, .pow, .nv, .prog, .sch, .cores, .mgt, .dirty]
  | .vmul _ _ => [.regs, .mem, .free, .pbk, .pow, .nv, .prog, .sch, .cores, .mgt, .dirty]
  | .vmulhu _ _ => [.regs, .mem, .free, .pbk, .pow, .nv, .prog, .sch, .cores, .mgt, .dirty]
  | .vand _ _ => [.regs, .mem, .free, .pbk, .pow, .nv, .prog, .sch, .cores, .mgt, .dirty]
  | .vor _ _ => [.regs, .mem, .free, .pbk, .pow, .nv, .prog, .sch, .cores, .mgt, .dirty]
  | .vxor _ _ => [.regs, .mem, .free, .pbk, .pow, .nv, .prog, .sch, .cores, .mgt, .dirty]
  | .vandn _ _ => [.regs, .mem, .free, .pbk, .pow, .nv, .prog, .sch, .cores, .mgt, .dirty]
  | .vmin _ _ => [.regs, .mem, .free, .pbk, .pow, .nv, .prog, .sch, .cores, .mgt, .dirty]
  | .vmax _ _ => [.regs, .mem, .free, .pbk, .pow, .nv, .prog, .sch, .cores, .mgt, .dirty]
  | .vminu _ _ => [.regs, .mem, .free, .pbk, .pow, .nv, .prog, .sch, .cores, .mgt, .dirty]
  | .vmaxu _ _ => [.regs, .mem, .free, .pbk, .pow, .nv, .prog, .sch, .cores, .mgt, .dirty]
  | .vaddss _ _ => [.regs, .mem, .free, .pbk, .pow, .nv, .prog, .sch, .cores, .mgt, .dirty]
  | .vaddsu _ _ => [.regs, .mem, .free, .pbk, .pow, .nv, .prog, .sch, .cores, .mgt, .dirty]
  | .vsubss _ _ => [.regs, .mem, .free, .pbk, .pow, .nv, .prog, .sch, .cores, .mgt, .dirty]
  | .vsubsu _ _ => [.regs, .mem, .free, .pbk, .pow, .nv, .prog, .sch, .cores, .mgt, .dirty]
  | .vsll _ _ => [.regs, .mem, .free, .pbk, .pow, .nv, .prog, .sch, .cores, .mgt, .dirty]
  | .vsrl _ _ => [.regs, .mem, .free, .pbk, .pow, .nv, .prog, .sch, .cores, .mgt, .dirty]
  | .vsra _ _ => [.regs, .mem, .free, .pbk, .pow, .nv, .prog, .sch, .cores, .mgt, .dirty]
  | .vbsl _ _ => [.regs, .mem, .free, .pbk, .pow, .nv, .prog, .sch, .cores, .mgt, .dirty]
  | .vcmpeq _ _ => [.regs, .mem, .free, .pbk, .pow, .nv, .prog, .sch, .cores, .mgt, .dirty]
  | .vcmpgt _ _ => [.regs, .mem, .free, .pbk, .pow, .nv, .prog, .sch, .cores, .mgt, .dirty]
  | .vcmpgtu _ _ => [.regs, .mem, .free, .pbk, .pow, .nv, .prog, .sch, .cores, .mgt, .dirty]
  | .vclmul _ _ => [.regs, .mem, .free, .pbk, .pow, .nv, .prog, .sch, .cores, .mgt, .dirty]
  | .vfadd _ _ => [.regs, .mem, .free, .pbk, .pow, .nv, .prog, .sch, .cores, .mgt, .dirty]
  | .vfsub _ _ => [.regs, .mem, .free, .pbk, .pow, .nv, .prog, .sch, .cores, .mgt, .dirty]
  | .vfmul _ _ => [.regs, .mem, .free, .pbk, .pow, .nv, .prog, .sch, .cores, .mgt, .dirty]
  | .vfma _ _ => [.regs, .mem, .free, .pbk, .pow, .nv, .prog, .sch, .cores, .mgt, .dirty]
  | .vfmin _ _ => [.regs, .mem, .free, .pbk, .pow, .nv, .prog, .sch, .cores, .mgt, .dirty]
  | .vfmax _ _ => [.regs, .mem, .free, .pbk, .pow, .nv, .prog, .sch, .cores, .mgt, .dirty]
  | .vfcmpeq _ _ => [.regs, .mem, .free, .pbk, .pow, .nv, .prog, .sch, .cores, .mgt, .dirty]
  | .vfcmplt _ _ => [.regs, .mem, .free, .pbk, .pow, .nv, .prog, .sch, .cores, .mgt, .dirty]
  | .vfcmple _ _ => [.regs, .mem, .free, .pbk, .pow, .nv, .prog, .sch, .cores, .mgt, .dirty]
  | .vcvtif _ _ => [.regs, .mem, .free, .pbk, .pow, .nv, .prog, .sch, .cores, .mgt, .dirty]
  | .vcvtfi _ _ => [.regs, .mem, .free, .pbk, .pow, .nv, .prog, .sch, .cores, .mgt, .dirty]
  | .vdup _ _ => [.regs, .mem, .free, .pbk, .pow, .nv, .prog, .sch, .cores, .mgt, .dirty]
  | .vext _ _ => [.regs, .mem, .free, .pbk, .pow, .nv, .prog, .sch, .cores, .mgt, .dirty]
  | .vins _ _ => [.regs, .mem, .free, .pbk, .pow, .nv, .prog, .sch, .cores, .mgt, .dirty]
  | .vmovmsk _ _ => [.regs, .mem, .free, .pbk, .pow, .nv, .prog, .sch, .cores, .mgt, .dirty]
  | .vshufb _ _ => [.regs, .mem, .free, .pbk, .pow, .nv, .prog, .sch, .cores, .mgt, .dirty]
  | .vredaddu _ _ => [.regs, .mem, .free, .pbk, .pow, .nv, .prog, .sch, .cores, .mgt, .dirty]
  | .vredmaxu _ _ => [.regs, .mem, .free, .pbk, .pow, .nv, .prog, .sch, .cores, .mgt, .dirty]
  | .vredminu _ _ => [.regs, .mem, .free, .pbk, .pow, .nv, .prog, .sch, .cores, .mgt, .dirty]
  | .vmov _ _ => [.regs, .mem, .free, .pbk, .pow, .nv, .prog, .sch, .cores, .mgt, .dirty]
  | .vld _ _ => allBut [.tick]
  | .vst _ _ => allBut [.tick]
  | .submit _ _ => [.regs, .free, .pbk, .prog, .sch, .cores]
  | .take _ _ _ _ => [.regs, .free, .pbk, .prog, .sch, .cores, .clus]
  | .done _ _ _ => [.regs, .free, .pbk, .prog, .sch, .cores]
  | .query _ _ => [.regs, .pbk, .cores]
  | .cancel _ _ => [.regs, .pbk, .prog, .sch, .cores]
  | .ctrAllocate _ _ => [.regs, .pbk, .prog, .sch, .cores]
  | .ctrAdd _ _ => [.regs, .pbk, .prog, .sch, .cores]
  | .ctrSet _ _ => [.regs, .pbk, .prog, .sch, .cores]
  | .ctrRead _ _ => [.regs, .pbk, .prog, .sch, .cores]
  | .ctrFree _ _ => [.regs, .pbk, .prog, .sch, .cores]
  | .routeRead _ => [.regs, .pbk, .prog, .sch]
  | .routeCreate _ => [.regs, .pbk, .prog, .sch]
  | .routeDelete _ => [.regs, .pbk, .prog, .sch]
  | .endOwner _ => [.regs, .pbk, .media, .prog, .sch]
  | .routeSetClusters _ => [.regs, .pbk, .prog, .sch]
  | .orderedModeWrite _ _ => [.regs, .pbk]
  | .letterDue => [.regs, .pbk, .prog, .sch]
  | .letterAging _ => [.regs, .sch]
  | .letterOffer _ => [.sch]
  | .letterDispatch _ _ _ => [.regs, .mem, .free, .pbk, .nv, .media, .dram, .scan, .sch, .clus, .mgt, .dirty]
  | .engineLetterEnd _ _ _ => [.regs, .mem, .free, .pbk, .prog, .dram, .mat, .comp, .scan, .dig, .sch, .clus, .dirty]
  | .exit _ => [.prog]
  | .wmap _ => [.regs, .prog, .cores]
  | .wunmap _ => [.regs, .pbk, .media, .prog, .sch, .cores]
  | .tcreate _ => [.regs, .prog, .cores]
  | .tdelete _ => [.regs, .prog, .mat, .cores]
  | .route _ => [.regs, .pbk, .sch, .cores]
  | .memoryRead _ _ _ => [.regs, .pbk, .nv, .mgt]
  | .memoryWrite _ _ _ => [.regs, .mem, .pbk, .nv, .dram, .clus, .mgt, .dirty]
  | .memoryFill _ _ _ _ => [.regs, .mem, .pbk, .nv, .dram, .clus, .mgt, .dirty]
  | .memoryCopyToSlm _ _ _ _ _ => [.regs, .mem, .free, .pbk, .nv, .ftl, .media, .dram, .clus, .mgt, .dirty]
  | .memoryCopyToNvm _ _ _ _ _ _ => [.regs, .free, .pbk, .nv, .ftl, .media, .prog, .sch, .mgt]
  | .memoryRangeSetCreate _ _ => [.regs, .pbk, .nv, .prog, .mgt]
  | .memoryRangeSetDelete _ _ => [.regs, .pbk, .nv, .prog, .mgt]
  | .loadProgram _ _ _ _ _ => [.regs, .pbk, .nv, .prog, .mgt]
  | .unloadProgram _ _ => [.regs, .pbk, .nv, .prog, .mgt]
  | .activateProgram _ _ => [.regs, .mem, .free, .pbk, .nv, .prog, .mgt, .dirty]
  | .deactivateProgram _ _ => [.regs, .pbk, .nv, .prog, .mgt]
  | .executeProgram _ _ _ _ => [.regs, .mem, .free, .pbk, .nv, .prog, .sch, .mgt, .dirty]
  | .executionTimeLimit _ => [.prog]
  | .executionEnd _ => allBut [.tick, .feat, .pow, .ftl, .ten, .dig, .keys, .net, .bus, .acc]
  | .mediaRead _ _ => [.regs, .mem, .free, .pbk, .ftl, .media, .prog, .dram, .sch, .clus, .dirty]
  | .dramRead _ _ _ _ => allBut [.tick]
  | .narrowWrite _ _ _ _ _ => allBut [.tick]
  | .portUrgent _ _ _ => [.regs]
  | .refreshInterval _ _ _ _ => [.regs, .pbk]
  | .delayApply _ _ => allBut [.tick]
  | .recalibrationDue _ _ _ _ _ => allBut [.tick]
  | .dramHold _ _ => [.regs]
  | .dramChannelRetire _ _ _ => allBut [.tick]
  | .pageRetire _ _ => [.regs, .pbk, .dram]
  | .scrubStep _ _ _ => allBut [.tick]
  | .sramRead _ _ _ => [.regs, .pbk, .dram]
  | .sramRepair _ _ _ => [.regs, .pbk, .dram]
  | .portLinkDown _ => [.regs, .pbk, .nv, .net, .mgt]
  | .portLinkUp _ _ _ => [.regs, .pbk, .nv, .net, .mgt]
  | .addressFailback _ => [.regs, .net]
  | .announcementRepeat _ => [.net]
  | .moduleInsert _ _ _ => [.regs, .pbk, .nv, .net, .mgt]
  | .moduleRemove _ => [.regs, .pbk, .nv, .net, .mgt]
  | .modulePoll _ _ _ => [.regs, .pbk, .nv, .net, .mgt]
  | .portRetrain _ => [.regs]
  | .portRetire _ _ => [.regs, .pbk, .nv, .net, .mgt]
  | .frameReceived _ _ _ _ _ _ _ => allBut [.tick]
  | .connect _ _ _ _ _ _ _ _ _ => [.regs, .pbk, .nv, .net]
  | .propertySet _ _ _ => allBut [.tick, .dig, .keys, .bus]
  | .katoExpiry _ => allBut [.tick, .feat, .pow, .ten, .dig, .keys, .bus, .acc]
  | .connectionClosed _ => allBut [.tick, .feat, .pow, .ten, .dig, .keys, .bus, .acc]
  | .icreq _ _ _ _ _ => [.regs, .net]
  | .h2cData _ _ _ _ => allBut [.tick, .feat, .pow, .ten, .dig, .keys, .bus, .acc]
  | .tlsHandshake _ _ _ _ => [.regs, .pbk, .net]
  | .queuePairError _ => allBut [.tick, .feat, .pow, .ten, .dig, .keys, .bus, .acc]
  | .cePacketReceived _ _ => [.regs, .net]
  | .cnpReceived _ => [.regs, .net]
  | .rateRecoveryTimer _ => [.net]
  | .letterboxDoorbell _ _ _ => allBut [.tick]
  | .letterboxQuery => [.regs, .free, .nv, .ten]
  | .assign => [.regs, .pbk, .nv, .ten, .prog, .sch]
  | .move => [.regs, .mem, .free, .nv, .ten, .dram, .dirty]
  | .claim _ => [.regs, .nv, .ten]
  | .relay => [.regs, .free, .nv, .ten]
  | .m2hHeadWrite _ _ => allBut [.tick]
  | .sensorRead _ _ => [.regs, .pbk, .nv, .mgt]
  | .thermalEvaluation _ => allBut [.tick]
  | .capControl => [.regs, .free, .mgt]
  | .enec _ _ => [.regs, .mgt]
  | .disec _ _ => [.regs]
  | .rstdaa => [.regs]
  | .entdaa _ => [.regs, .mgt]
  | .setdasa _ _ => [.regs, .mgt]
  | .setnewda _ _ => [.regs, .mgt]
  | .setmwl _ _ => [.mgt]
  | .setmrl _ _ => [.mgt]
  | .getmwl _ => [.mgt]
  | .getmrl _ => [.free, .mgt]
  | .getpid _ => [.mgt]
  | .getbcr _ => [.mgt]
  | .getdcr _ => [.mgt]
  | .getstatus _ => [.mgt]
  | .rstact _ _ => [.mgt]
  | .hotJoin => [.mgt]
  | .ibiDeferExpiry => [.regs, .mgt]
  | .setEndpointId _ => allBut [.tick]
  | .readNvmeMiDataStructure _ => allBut [.tick]
  | .subsystemHealthStatusPoll => allBut [.tick]
  | .controllerHealthStatusPoll _ => allBut [.tick]
  | .configurationSet _ _ => allBut [.tick]
  | .configurationGet _ => allBut [.tick]
  | .vpdRead _ _ => allBut [.tick]
  | .vpdWrite _ _ => allBut [.tick]
  | .nvmeMiReset => allBut [.tick]
  | .tunnelledAdminCommand _ _ _ => allBut [.tick]
  | .miModuleReset _ => allBut [.tick]
  | .miWatchToRise _ => allBut [.tick]
  | .miWatchToKeep _ => allBut [.tick]
  | .setNumericEffecterValue _ => allBut [.tick]
  | .getSensorReading _ => allBut [.tick]
  | .requestUpdate => allBut [.tick]
  | .activateFirmware _ => allBut [.tick]
  | .cflProgram _ _ _ => [.regs, .pbk, .mgt]
  | .cflEraseSector _ _ _ => [.regs, .pbk, .mgt]
  | .cflEraseGroup _ _ _ => [.regs, .pbk, .mgt]
  | .cflOperationDone _ => [.regs, .pbk, .mgt]
  | .cflRead _ _ _ _ => [.regs, .free, .pbk, .mgt]
  | .settingsCommit _ => [.mgt]
  | .settingsCompaction => [.mgt]
  | .managementFirmwareSwitch _ => allBut [.tick]
  | .networkFirmwareSwitch _ => allBut [.tick]
  | .postmark _ _ _ => [.regs, .pbk]
  | .postmarkWrite => [.regs, .pbk, .nv, .dram, .mgt]
  | .coalescingWindowEnd _ _ _ => [.regs, .pbk]
  | .postmarkSubmit _ _ => [.regs, .pbk]
  | .cursorWrite _ _ _ => [.regs, .pbk]
  | .drain => [.regs, .pbk]
  | .sealSegmentErase => [.regs, .pbk]
  | .ident _ _ => allBut [.tick]
  | .debugRead _ _ _ _ _ => allBut [.tick]
  | .debugWrite _ _ _ _ _ _ => allBut [.tick]
  | .readInc _ _ _ _ => allBut [.tick]
  | .writeInc _ _ _ _ _ => allBut [.tick]
  | .collect _ _ => allBut [.tick]
  | .repeatRequest _ _ => allBut [.tick]
  | .lineReset => []
  | .debugAccessComplete => allBut [.tick]
  | .coreHalt _ _ => allBut [.tick]
  | .coreResume _ _ => allBut [.tick]
  | .coreStep _ _ _ => allBut [.tick]
  | .breakpointHit _ => [.regs, .free, .pbk, .pow, .nv, .sch, .cores, .mgt]
  | .watchpointHit _ _ _ _ _ => [.regs, .free, .pbk, .pow, .nv, .sch, .cores, .mgt]
  | .regDataWrite _ _ _ => allBut [.tick]
  | .pcWrite _ _ _ => allBut [.tick]
  | .debugResetPin => [.regs, .pbk, .pow, .nv, .cores, .mgt]
  | .debugResetCommand _ _ => allBut [.tick]
  | .controllerEnable _ _ _ _ _ => allBut [.tick]
  | .perstbDeassert => allBut [.tick]
  | .pcieHotReset _ => allBut [.tick, .feat, .ten, .dig, .keys, .bus, .acc]
  | .bar2Access _ _ _ _ => allBut [.tick]
  | .journalFlushDone => [.regs, .free, .pbk, .nv, .ftl, .media, .prog, .sch, .mgt]
  | .relocation => [.regs, .pbk, .pow, .nv, .ftl, .media, .mgt]
  | .retransmissionTimeout _ => allBut [.tick, .feat, .pow, .ten, .dig, .keys, .bus, .acc]
  | .platformEventMessage => [.regs, .pbk, .mgt]
  | .updateComponent _ => allBut [.tick]
  | .starvationEpisode _ _ => [.regs, .pbk]

end Sys2Proof.Machine
end

