-- ==== Sys2Proof/Safety/Commands.lean ====
section
/-! DEFINITION. What claims about host commands are stated with: a command whose row may be given, and the completion that answers it. -/

namespace Sys2Proof.Machine

/-- The command of `tag` is `x`, of one of these kinds, fetched and untouched; it was not fetched under queue order, its completion
queue has room and the module is not in Halt, which withholds completions; every other outstanding command is untouched too, so that nothing else goes on when it ends. -/
def Ready (tag : Nat) (kinds : List CmdKind) (x : Cmd) (s : State) : Prop :=
  cmdAt tag s = some x ∧ x.phase = .fetched ∧ x.result = none ∧ x.kind ∈ kinds ∧
    (∀ y ∈ s.nv.cmds, y.tag = tag → y = x) ∧ (∀ y ∈ s.nv.cmds, y.tag ≠ tag → y.result = none ∧ y.phase = .fetched) ∧
    ∃ q k, sqAt x.ctrl x.sq s = some q ∧ x.ordered = false ∧ mode s ≠ 0xB ∧ cqAt x.ctrl q.cq s = some k ∧ cqFull k = false ∧ k.held = []

/-- Command `x` of `s` has been answered: its completion, with this status, dwords and data, is the last entry of its completion queue, its
tag is freed, and the other outstanding commands stay (R93, R94). -/
def Answered (x : Cmd) (sct sc : Nat) (dnr : Bool) (dw0 dw1 : Nat) (data : List Byte) (s t : State) : Prop :=
  t.nv.cmds = s.nv.cmds.filter (fun y => y.tag != x.tag) ∧ t.nv.freedTags = s.nv.freedTags ++ [(x.ctrl, x.shared)] ∧
    ∃ q k, sqAt x.ctrl x.sq s = some q ∧ cqAt x.ctrl q.cq s = some k ∧
      cqAt x.ctrl q.cq t = some { k with
        tail := (k.tail + 1) % max k.size 1
        posted := k.posted ++ [⟨x.sq, x.cid, sct, sc, dnr, dw0, dw1, data⟩] }

/-- Success without a result. -/
def Succeeded (x : Cmd) (s t : State) : Prop := Answered x 0 0 false 0 0 [] s t

/-- Success with data for the host. -/
def Returned (x : Cmd) (data : List Byte) (s t : State) : Prop := Answered x 0 0 false 0 0 data s t

/-- A failure with a status and its DNR bit. -/
def Failed (x : Cmd) (sct sc : Nat) (dnr : Bool) (s t : State) : Prop := Answered x sct sc dnr 0 0 [] s t

/-- The same of a command whose row has been given and which has come as far as phase `ph`. -/
def InPhase (tag : Nat) (ph : Phase) (kinds : List CmdKind) (x : Cmd) (s : State) : Prop :=
  cmdAt tag s = some x ∧ x.phase = ph ∧ x.result = none ∧ x.kind ∈ kinds ∧
    (∀ y ∈ s.nv.cmds, y.tag = tag → y = x) ∧ (∀ y ∈ s.nv.cmds, y.tag ≠ tag → y.result = none ∧ y.phase = .fetched) ∧
    ∃ q k, sqAt x.ctrl x.sq s = some q ∧ x.ordered = false ∧ mode s ≠ 0xB ∧ cqAt x.ctrl q.cq s = some k ∧ cqFull k = false ∧ k.held = []

/-- Nothing but fetched commands is outstanding, so that nothing goes on when something else ends. -/
def OnlyFetched (s : State) : Prop := ∀ y ∈ s.nv.cmds, y.result = none ∧ y.phase = .fetched

/-- A write that has passed its checks is admitted: writes are not held, its namespace `n` has room, and its map pages are cached
(R43, R118, R124). -/
def Admitted (x : Cmd) (n : Ns) (s : State) : Prop :=
  nsAt x.nsid s = some n ∧ x.admitted = false ∧ mode s ≠ 8 ∧ mode s ≠ 10 ∧ fget Fl.PWR_STATUS_RESERVE_OK s ≠ 0 ∧
    (nsCompressed n = true → chargeOf x n s ≤ shareFree x.nsid n s) ∧ ∀ p ∈ changedPages x s, p ∈ s.ftl.cached

/-- The superblock open for landing in the dynamic part of the pool takes `m` units more on some channel (R129). -/
def PoolRoom (sd : Bool) (m : Nat) (s : State) : Prop :=
  ∃ i c, openOf sd false s = some i ∧ (sbAt i s).use = .landing ∧ c < 32 ∧ takesOn i c s = true ∧
    SMap.getD (sbAt i s).fill c 0 + m ≤ blkUnits (sbAt i s)

/-- Landing of an admitted write starts: nothing of it has to be read first, the pool has a landing page for each of its units, and no
channel is retired. -/
def CanLand (x : Cmd) (n : Ns) (s : State) : Prop :=
  Admitted x n s ∧ landed x s ≠ [] ∧ mergeReads x s = [] ∧ PoolRoom (nsSd n) (landed x s).length s ∧ ∀ c, (chanAt c s).retired = false

/-- The write of `tag` has started: each unit that it lands has a page of its own, and the page's SLC program waits in its channel. -/
def LandingStarted (tag : Nat) (x : Cmd) (s t : State) : Prop :=
  ∃ ps, cmdAt tag t = some { x with phase := .started, admitted := true, media := true, places := ps } ∧
    ∀ iu ∈ landed x s, ∃ p, SMap.find ps iu = some p ∧
      ∃ o ∈ (chanAt p.chan t).queue, o.kind = .progSlc ∧ o.use = .landing ∧ o.die = p.die ∧ o.sb = p.sb ∧ o.tag = tag ∧ o.key = mapKey x.nsid iu

/-- A read command whose lookups can all run: its row has just been given, it passes its checks, its map pages are cached, no earlier write
of its queue is outstanding, and no unit of it is uncorrectable or on a channel whose reads are rebuilt. -/
def CanLook (x : Cmd) (n : Ns) (s : State) : Prop :=
  ioCheck x false s = none ∧ nsAt x.nsid s = some n ∧ s.ftl.cached.length ≤ mapCachePages ∧ x.need = [] ∧ x.looked = [] ∧ x.got = [] ∧
    ∀ iu ∈ iusOf x s, pageKey x.nsid iu ∈ s.ftl.cached ∧ unitBlocked x iu s = false ∧
      ∀ u, iuAt (mapKey x.nsid iu) s = some u → u.uncorr = false ∧ (chanAt u.chan s).retired = false ∧
        fget (Fl.CHE_STATUS_REBUILD_ONLY u.chan) s = 0

/-- The read of `tag` has started: it waits for its mapped units, each of which is queued as a read of class 1 where it is stored. -/
def ReadStarted (tag : Nat) (x : Cmd) (s t : State) : Prop :=
  (∃ y, cmdAt tag t = some y ∧ y.phase = .started ∧ y.result = none ∧
    y.need = (iusOf x s).filter (fun iu => (iuAt (mapKey x.nsid iu) s).isSome)) ∧
    ∀ iu ∈ iusOf x s, ∀ u, iuAt (mapKey x.nsid iu) s = some u →
      ∃ o ∈ (chanAt u.chan t).queue, o.kind = .read ∧ o.cls = 1 ∧ o.die = u.die ∧ o.tag = tag ∧ o.key = mapKey x.nsid iu

/-- The command of a write with the blocks it writes, protected as its fields ask. -/
def withBlocks (x : Cmd) (n : Ns) (data : List LBlk) (pr : PrInfo) : Cmd :=
  { x with wdata := (blocksFrom x.lba data).map (fun e => (e.1, protect n.dps n.flbas e.1 pr e.2)), pr := pr, phase := .held }

/-- The command of a deallocation of its whole range. -/
def withZeros (x : Cmd) (n : Ns) : Cmd :=
  { x with wdata := blocksFrom x.lba (List.replicate x.nlb (zeroBlk n.flbas)), dealloc := true, phase := .held }

/-- Reservation of a namespace. -/
def resvOf (nsid : Nat) (s : State) : Option Resv := (nsAt nsid s).map (·.resv)

/-- A reservation command on a namespace its controller sees, in a mode that takes it. -/
def ResvReady (tag : Nat) (x : Cmd) (n : Ns) (s : State) : Prop :=
  Ready tag [.resv] x s ∧ nsAt x.nsid s = some n ∧ sees n x.ctrl s = true ∧ n.csi = 0 ∧ mode s ≠ 9

/-- An admin command whose row may be given, on controller `c`. -/
def AdminReady (tag : Nat) (x : Cmd) (c : Ctrl) (s : State) : Prop := Ready tag [.admin] x s ∧ ctrlAt x.ctrl s = some c

/-- The same on a PCIe controller, while no sanitize operation is in progress. -/
def PcieReady (tag : Nat) (x : Cmd) (c : Ctrl) (s : State) : Prop := AdminReady tag x c s ∧ c.fabric = false ∧ mode s ≠ 9

end Sys2Proof.Machine
end

