-- ==== Sys2Proof/Safety/Outcomes.lean ====
section
/-! DEFINITION. What claims about single commands are stated with: that a command completes, and which parts and registers it leaves. -/

namespace Sys2Proof.Machine

/-- Command `c` runs in `s` to a next state, and `P` holds of that state. -/
def Completes (c : Instr) (s : State) (P : State → Prop) : Prop := ∃ t, exec c s = .next t ∧ P t

/-- Registers that a postmark can change: STATUS, EVENT and the drop counts of the event recorder (R502). -/
def markRegs : List Nat := [Reg.PBK_STATUS, Reg.PBK_DROP2, Reg.PBK_DROP3, Reg.PBK_EVENT]

/-- Of the module only registers of `l` may differ. -/
def OnlyRegs (l : List Nat) (s t : State) : Prop := t = { s with regs := t.regs } ∧ ∀ a, a ∉ l → rd a t = rd a s

/-- Every register outside `l` reads as before, but for those that a postmark can change. -/
def RegsBut (l : List Nat) (s t : State) : Prop := ∀ a, a ∉ l → a ∉ markRegs → rd a t = rd a s

/-- Of the module only registers of `l` and, for a postmark, the event recorder may differ. -/
def OnlyMarked (l : List Nat) (s t : State) : Prop := t = { s with regs := t.regs, pbk := t.pbk } ∧ RegsBut l s t

/-- A postmark with this CODE, SOURCE and first arguments waits in the recorder: in a lane's queue, held by its block, or counted in its
coalescing window (R502). -/
def MarkWaits (code src : Nat) (args : List Nat) (s : State) : Prop :=
  (∃ e ∈ s.pbk.q0 ++ s.pbk.q1 ++ s.pbk.q2 ++ s.pbk.q3 ++ s.pbk.held0 ++ s.pbk.held1, e.code = code ∧ e.src = src ∧ e.args = args) ∨
    (∃ c ∈ s.pbk.coal, c.code = code ∧ c.src = src ∧ c.args = args)

end Sys2Proof.Machine
end

