-- ==== Sys2Proof/Safety/Cores.lean ====
section
/-! DEFINITION. What claims about cores are stated with: when a core executes a word, and what its having done so leaves. -/

namespace Sys2Proof.Machine

/-- The state in which core `k` has fetched the word at its PC: a translation may have entered its TLB, and A may have been set in
its table entry (R341). -/
def fetched (k : Nat) (s : State) : State := (fetchCheck k s).2

/-- Core `k` executes a word it is given: it is up and runs, no breakpoint stops it, the fetch goes through, and no step of the
debug link is under way. -/
def CoreReady (k : Nat) (s : State) : Prop :=
  k < 77 ∧ coreRuns k s = true ∧ ((coreAt k s).passBp = true ∨ bpHit k (coreAt k s).pc s = none) ∧ (fetchCheck k s).1 = none ∧
    (coreAt k s).stepping = false

/-- Registers that show what core `k` does and count it. -/
def coreShows (k : Nat) : List Nat :=
  (if k < 64 then
    [Reg.AXC_CORE_STATUS (k / 8) (k % 8), Reg.AXC_STATUS (k / 8), Reg.AXC_CNT_INSTR (k / 8) (k % 8)]
  else if k < 76 then [Reg.CTC_CORE_STATUS] else []) ++
  [if k < 32 then Reg.DBG_HALTED_LO else if k < 64 then Reg.DBG_HALTED_MID else Reg.DBG_HALTED_HI, Reg.DBG_CORE_DSTATUS k]

/-- Core `k` has executed a word in state `s`: its PC is `pc`, one more instruction has retired, its level and its other system
registers stay, and every other core stays. -/
def Retired (k : Nat) (pc : Word) (s t : State) : Prop :=
  (coreAt k t).pc = pc ∧ (coreAt k t).lvl = (coreAt k s).lvl ∧
    (∀ n, sysAt k n t = if n = 1 then sysAt k 1 s + 1 else sysAt k n s) ∧ (∀ j, j ≠ k → coreAt j t = coreAt j s)

/-- The same, and nothing else but the registers that show the core differs from `u`. -/
def Ran (k : Nat) (pc : Word) (u t : State) : Prop :=
  Retired k pc u t ∧ (∀ a, a ∉ coreShows k → rd a t = rd a u) ∧ t = { u with regs := t.regs, cores := t.cores }

/-- No general and no vector register changes. -/
def SameRegs (k : Nat) (s t : State) : Prop := (∀ i, gr k i t = gr k i s) ∧ ∀ i, vr k i t = vr k i s

/-- The result `v` goes to general register `r` (g0 discards it), and no other general or vector register changes. -/
def GetsG (k r : Nat) (v : Word) (s t : State) : Prop :=
  (∀ i, gr k i t = if i = r ∧ i ≠ 0 then v else gr k i s) ∧ ∀ i, vr k i t = vr k i s

/-- The result `v` goes to vector register `r`, and no other general or vector register changes. -/
def GetsV (k r : Nat) (v : BitVec 256) (s t : State) : Prop :=
  (∀ i, gr k i t = gr k i s) ∧ ∀ i, vr k i t = if i = r then v else vr k i s

/-- Vector instructions are there and on at the core's level (R333, R343). -/
def VecOn (k : Nat) (s : State) : Prop := k ≠ 76 ∧ sysField k (venReg k s) 4 1 s = 1

/-- A word that has written a vector register has run from `s`, with `u` the state beyond the core: the PC passes on, one more
instruction has retired, VDIRTY of the level's LSTAT is set and the sticky bits `fl` are set in VSTAT (R333). -/
def VecRan (k fl : Nat) (s u t : State) : Prop :=
  (coreAt k t).pc = (coreAt k s).pc + 4 ∧ (coreAt k t).lvl = (coreAt k s).lvl ∧
    (∀ n, sysAt k n t = if n = 1 then sysAt k 1 s + 1 else if n = venReg k s then insertField (sysAt k n s) 5 1 1
      else if n = 5 then sysAt k 5 s ||| BitVec.ofNat 64 fl else sysAt k n s) ∧
    (∀ j, j ≠ k → coreAt j t = coreAt j s) ∧ (∀ a, a ∉ coreShows k → rd a t = rd a u) ∧
    t = { u with regs := t.regs, cores := t.cores }

/-- Element `i` of `b` bits of a vector. -/
def lane (b : Nat) (v : BitVec 256) (i : Nat) : BitVec b := v.extractLsb' (b * i) b

/-! ### Traps (R334–R336, R338) -/

/-- L.LSTAT on entry to level L from level `from_` (R335 step 5): SIEN takes IEN, IEN is clear, SLV is the level left, NEST is set. -/
def lstatEntry (old : Word) (from_ : Nat) (new : Word) : Prop :=
  extractField new 0 1 = 0 ∧ extractField new 1 1 = extractField old 0 1 ∧ extractField new 2 2 = from_ % 4 ∧
    extractField new 6 1 = 1 ∧ extractField new 4 2 = extractField old 4 2 ∧ extractField new 7 57 = extractField old 7 57

/-- L.LSTAT after XRET at level L (R336 steps 2 and 3). -/
def lstatReturn (old new : Word) : Prop :=
  extractField new 0 1 = extractField old 1 1 ∧ extractField new 1 1 = 1 ∧ extractField new 2 2 = 0 ∧
    extractField new 6 1 = 0 ∧ extractField new 4 2 = extractField old 4 2 ∧ extractField new 7 57 = extractField old 7 57

/-- Core `k` of state `s` has entered level `l`: the five trap registers of the level, the level and the PC, and of the core nothing
else but its waiting state and TLB (R335). -/
def Entered (k l : Nat) (vec rpc cause esyn faddr : Word) (s t : State) : Prop :=
  (coreAt k t).lvl = l ∧ (coreAt k t).pc = vec ∧ SameRegs k s t ∧
    lstatEntry (sysAt k (trapBase l) s) (coreAt k s).lvl (sysAt k (trapBase l) t) ∧
    sysAt k (trapBase l + 2) t = rpc ∧ sysAt k (trapBase l + 3) t = cause ∧ sysAt k (trapBase l + 4) t = esyn ∧
    sysAt k (trapBase l + 5) t = faddr ∧
    (∀ n, n ≠ trapBase l → (∀ i, 2 ≤ i → i ≤ 5 → n ≠ trapBase l + i) → sysAt k n t = sysAt k n s) ∧
    ∀ j, j ≠ k → coreAt j t = coreAt j s

/-- NEST of the Supervisor's LSTAT is set on a compute core below Machine level: a trap is nested. -/
def Nested (k : Nat) (s : State) : Bool := isCompute k && decide ((coreAt k s).lvl < 2) && sysField k 0x40 6 1 s == 1

/-- The level a synchronous trap goes to (R334, R338). -/
def trapLevel (k : Nat) (s : State) : Nat := if isCompute k && (coreAt k s).lvl == 0 && !Nested k s then 1 else 2

/-- Core `k` has taken the synchronous trap of cause `c` for word `w` (R335, R338). -/
def Trapped (k c : Nat) (w : Half) (faddr : Word) (s t : State) : Prop :=
  Entered k (trapLevel k s) (sysAt k (trapBase (trapLevel k s) + 1) s) (coreAt k s).pc (BitVec.ofNat 64 (if Nested k s then 0x0F else c))
    (if c ≤ 2 then 0 else w.setWidth 64) faddr s t

/-- The trap can be entered: at Machine level NEST is clear, or the core would lock (R338). -/
def TrapFree (k : Nat) (s : State) : Prop := trapLevel k s = 2 → sysField k 0x80 6 1 s = 0

/-! ### Accesses to memory -/

/-- A load of `n` bytes at `ea` meets no watchpoint and reaches memory that is powered, can be read and is on no held channel, its bytes as `byteOf` says;
`u` is the state once the address is translated. -/
def ReadsMem (k : Nat) (ea : Word) (n : Nat) (s : State) (a b : Nat) (u : State) : Prop :=
  wpHit k ea.toNat n true false s = none ∧ (∃ c, translate2 k ea n .load s = (.ok (a, b, c), u)) ∧
    memAt a (firstPart ea n) u = true ∧ memAt b (n - firstPart ea n) u = true ∧
    ∀ i, i < n → poisoned (byteOf ea n a b i) u = false ∧ dramHeld (byteOf ea n a b i) s = false

/-- A store of `n` bytes at `ea` meets no watchpoint and reaches memory that is powered, not poisoned and on no held channel, no byte of it twice. -/
def WritesMem (k : Nat) (ea : Word) (n : Nat) (s : State) (a b : Nat) (u : State) : Prop :=
  wpHit k ea.toNat n false true s = none ∧ (∃ c, translate2 k ea n .store s = (.ok (a, b, c), u)) ∧
    memAt a (firstPart ea n) u = true ∧ memAt b (n - firstPart ea n) u = true ∧
    (∀ i, i < n → poisoned (byteOf ea n a b i) u = false ∧ dramHeld (byteOf ea n a b i) s = false) ∧
    ∀ i j, i < n → j < n → byteOf ea n a b i = byteOf ea n a b j → i = j

/-- The little-endian number in the bytes of an access (R7). -/
def memVal (ea : Word) (n a b : Nat) (u : State) : Nat := leVal ((List.range n).map (fun i => rdByte (byteOf ea n a b i) u))

/-- The bytes of the number `v` are stored where the access of `n` bytes at `ea` goes, every other byte of memory is that of `u`, and
of the registers only those that show the core and the counts of narrow writes differ. -/
def Stores (k : Nat) (ea : Word) (n a b v : Nat) (u t : State) : Prop :=
  (∀ i, i < n → rdByte (byteOf ea n a b i) t = BitVec.ofNat 8 (v / 256 ^ i)) ∧
    (∀ x, (∀ i, i < n → x ≠ byteOf ea n a b i) → rdByte x t = rdByte x u) ∧
    ∀ r, r ∉ coreShows k → (∀ d, r ≠ Reg.DMC_CNT_RMW d) → rd r t = rd r u

/-! ### What a row comes to -/

/-- Row `i`, the word `w` on core `k`, completes: RD gets `v`, the PC passes on, and nothing else changes but what the core counts and
shows. -/
def Gives (i : Instr) (k : Nat) (w : Half) (v : Word) (s : State) : Prop :=
  (rdOf w = 31 → stackLow k v s = false) →
    Completes i s (fun t => GetsG k (rdOf w) v s t ∧ Ran k ((coreAt k s).pc + 4) (fetched k s) t)

/-- Row `i` completes: no register but the PC changes, and it becomes `pc`. -/
def Goes (i : Instr) (k : Nat) (pc : Word) (s : State) : Prop :=
  Completes i s (fun t => SameRegs k s t ∧ Ran k pc (fetched k s) t)

/-- Row `i` completes: VD gets a vector that meets `p`, VDIRTY is set, and the sticky bits `fl` of VSTAT. -/
def GivesV (i : Instr) (k : Nat) (w : Half) (fl : Nat) (p : BitVec 256 → Prop) (s : State) : Prop :=
  Completes i s (fun t => ∃ v, GetsV k (rdOf w) v s t ∧ VecRan k fl s (fetched k s) t ∧ p v)

/-- Row `i` traps with cause `c` (R334, R335, R337). -/
def Traps (i : Instr) (k c : Nat) (w : Half) (faddr : Word) (s : State) : Prop :=
  TrapFree k s → Completes i s (Trapped k c w faddr s)

/-- Bytes of the operand of an atomic operation (R320). -/
def amoBytes (w : Half) : Nat := if majOf w = 0x20 then 8 else 4

/-- An atomic operation of `k` at `ea` meets no watchpoint and reaches `n` aligned bytes of memory at `a` that are powered, readable
and on no held channel;
`u` is the state once the address is translated. -/
def AmoMem (k : Nat) (ea : Word) (n : Nat) (s : State) (a : Nat) (u : State) : Prop :=
  wpHit k ea.toNat n true true s = none ∧ ea.toNat % n = 0 ∧ (∃ c, translate k ea n .store s = (.pa a c, u)) ∧
    memAt a n u = true ∧ ∀ i, i < n → poisoned (a + i) u = false ∧ dramHeld (a + i) s = false

/-- The little-endian number of `n` bytes of memory at `a`. -/
def numAt (a n : Nat) (s : State) : Nat := leVal ((List.range n).map (fun i => rdByte (a + i) s))

/-- The atomic row `i` completes: RD gets the old number, sign-extended, and memory at `a` the number `v`; every other byte stays. -/
def AmoGives (i : Instr) (k : Nat) (w : Half) (a n : Nat) (u : State) (v : Nat) (s : State) : Prop :=
  Completes i s (fun t => GetsG k (rdOf w) (BitVec.ofInt 64 (Int.bmod (numAt a n u) (2 ^ (8 * n)))) s t ∧
    Retired k ((coreAt k s).pc + 4) s t ∧ numAt a n t = v ∧ ∀ x, x < a ∨ a + n ≤ x → rdByte x t = rdByte x u)

end Sys2Proof.Machine
end

