-- ==== Sys2Proof/Certificates/Slice0/Obligations.lean ====
section
/-! DEFINITION. The statements for the provers, in the order of the spec's chapters. Each conclusion `Completes c s P` says that command `c`
runs from `s` to a next state of which `P` holds. -/

open Sys2Proof Sys2Proof.Machine

/-- R38, R39, R42–R45, R57: inputs and bank. -/
def Obligations.PowerInputsAndBank : Prop :=
  ∀ (s : State) (aux : Bool),
    Completes (.inputStop aux) s (fun t => fget (inputOk aux) t = 0 ∧ fget (inputOk !aux) t = fget (inputOk !aux) s ∧
      qualifies aux t = false ∧ qualifies (!aux) t = qualifies (!aux) s ∧ mode t = mode s ∧ RegsBut [Reg.PWR_STATUS, Reg.AON_MODE] s t ∧
      (if mode s = 0 ∧ fget Fl.AON_MODE_TRANS s = 1 ∧ qualifies (!aux) s = false then fget Fl.AON_MODE_TARGET t = 0 ∧ fget Fl.AON_MODE_TRANS t = 0
        else rd Reg.AON_MODE t = rd Reg.AON_MODE s)) ∧
    Completes (.inputOvervoltage aux) s (fun t => fget (inputOk aux) t = 0 ∧ fget (inputOk !aux) t = fget (inputOk !aux) s ∧
      qualifies aux t = false ∧ (mode s ≠ 0 → fget Fl.PWR_EVENT_INPUT_OV t = 1) ∧ RegsBut [Reg.PWR_STATUS, Reg.PWR_EVENT, Reg.AON_MODE] s t) ∧
    (mode s ≠ 0 → Completes (.inputReconnect aux) s (fun t => fget (inputOk aux) t = 1 ∧
      OnlyRegs [Reg.PWR_STATUS] { s with pow := { s.pow with ovAux := s.pow.ovAux && !aux, ovMains := s.pow.ovMains && aux } } t)) ∧
    (mode s = 0 → Completes (.inputAtStartThreshold aux) s (fun t => qualifies aux t = true ∧ qualifies (!aux) t = qualifies (!aux) s ∧ mode t = 0 ∧
      (inputEnabled aux s = true → fget Fl.AON_MODE_TRANS t = 1 ∧ fget Fl.AON_MODE_TARGET t = (if s.pow.pwrdis then 2 else 3) ∧
        RegsBut [Reg.AON_MODE] s t) ∧
      (inputEnabled aux s = false → t.regs = s.regs))) ∧
    (∀ cur : Bool, (fget Fl.PWR_STATUS_ACTIVE s == 1) = cur → inputUsable cur s = false → inputUsable (!cur) s = true →
      Completes .sourceTransfer s (fun t => fget Fl.PWR_STATUS_ACTIVE t = (if cur then 0 else 1) ∧ fget Fl.PWR_EVENT_SWITCHOVER t = 1 ∧
        t.pow.transfers = Nat.min (s.pow.transfers + 1) 0xFFFFFFFF)) ∧
    (∀ pref : Bool, (fget Fl.PWR_SRC_CFG_PRIO s == 1) = pref → (fget Fl.PWR_STATUS_ACTIVE s == 1) ≠ pref → inputUsable pref s = true →
      fget Fl.PWR_SRC_CFG_RETURN_DLY s ≠ 0 →
      Completes .sourceReturn s (fun t => fget Fl.PWR_STATUS_ACTIVE t = (if pref then 1 else 0) ∧ fget Fl.PWR_EVENT_SWITCHOVER t = 1)) ∧
    (fget Fl.PWR_STATUS_BANK_STATE s ≠ 3 → (∀ x ∈ s.nv.cmds, x.phase ≠ .held) →
      Completes .reserveReached s (fun t => fget Fl.PWR_STATUS_RESERVE_OK t = 1 ∧ OnlyRegs [Reg.PWR_STATUS] s t)) ∧
    (fget Fl.PWR_STATUS_RESERVE_OK s = 1 → Completes .reserveLow s (fun t => fget Fl.PWR_STATUS_RESERVE_OK t = 0 ∧
      fget Fl.PWR_EVENT_RESERVE_LOW t = 1 ∧ OnlyMarked [Reg.PWR_STATUS, Reg.PWR_EVENT] s t)) ∧
    (fget Fl.PWR_CAP_CTRL_TEST_BUSY s = 0 → fget Fl.PWR_COMMIT_STATE_PHASE s = 0 → fget Fl.PWR_STATUS_RESERVE_OK s = 1 →
      Completes .bankTest s (fun t => fget Fl.PWR_CAP_CTRL_TEST t = 1 ∧ fget Fl.PWR_CAP_CTRL_TEST_BUSY t = 1 ∧ OnlyRegs [Reg.PWR_CAP_CTRL] s t) ∧
      (mode s = 4 ∨ mode s = 5 → Completes .bankTestInterval s (fun t => fget Fl.PWR_CAP_CTRL_TEST t = 1 ∧ fget Fl.PWR_CAP_CTRL_TEST_BUSY t = 1 ∧
        OnlyRegs [Reg.PWR_CAP_CTRL] s t))) ∧
    (∀ energy cap esr, energy < 4096 → cap < 4096 → esr < 256 → fget Fl.PWR_CAP_CTRL_TEST_BUSY s = 1 →
      Completes (.bankTestDone energy cap esr) s (fun t => fget Fl.PWR_CAP_CTRL_TEST t = 0 ∧ fget Fl.PWR_CAP_CTRL_TEST_BUSY t = 0 ∧
        fget Fl.PWR_CAP_HEALTH_ENERGY t = energy ∧ fget Fl.PWR_CAP_HEALTH_CAP t = cap ∧ fget Fl.PWR_CAP_HEALTH_ESR t = esr ∧
        fget Fl.PWR_STATUS_BANK_STATE t = (if energy < 320 ∨ esr > 60 then 3 else if energy < 600 then 2 else if energy < 660 then 1 else 0) ∧
        t.pow.testHours = 0))

/-- R27, R46–R48, R51, R54: what starts brace, and what joins one. -/
def Obligations.BraceStarts : Prop :=
  ∀ s : State,
    let resumes : Nat := if mode s = 0xB then s.pow.haltFrom else mode s
    (mode s ≠ 0 → mode s ≠ 8 → s.pow.pfailLow = false →
      Completes .vbusWarn s (fun t => mode t = 8 ∧ fget Fl.PWR_COMMIT_STATE_PHASE t = 1 ∧ fget Fl.PWR_COMMIT_STATE_CAUSE_VWARN t = 1 ∧
        fget Fl.PWR_COMMIT_STATE_CAUSE_PFAIL t = 0 ∧ fget Fl.PWR_COMMIT_STATE_CAUSE_BROWNOUT t = 0 ∧ fget Fl.PWR_EVENT_BRACE t = 1 ∧
        t.pow.braceFrom = resumes ∧ t.pow.fromMode = mode s ∧ t.pow.pfailInBrace = false ∧ t.pow.braceDone = ([1, 2, 3, 7].contains resumes) ∧
        t.nv.brace = true)) ∧
    (mode s ≠ 0 → mode s ≠ 8 → fget Fl.PWR_PFAIL_CFG_EN s = 1 →
      Completes .pfailAssert s (fun t => mode t = 8 ∧ fget Fl.PWR_COMMIT_STATE_PHASE t = 1 ∧ fget Fl.PWR_COMMIT_STATE_CAUSE_VWARN t = 0 ∧
        fget Fl.PWR_COMMIT_STATE_CAUSE_PFAIL t = 1 ∧ fget Fl.PWR_EVENT_BRACE t = 1 ∧ t.pow.braceFrom = resumes ∧ t.pow.pfailInBrace = true ∧
        t.pow.pfailLow = true)) ∧
    (fget Fl.PWR_PFAIL_CFG_EN s = 0 → Completes .pfailAssert s (fun t => t = { s with pow := { s.pow with pfailLow := true } })) ∧
    (mode s = 8 → fget Fl.PWR_COMMIT_STATE_PHASE s = 1 →
      Completes .vbusWarn s (fun t => fget Fl.PWR_COMMIT_STATE_CAUSE_VWARN t = 1 ∧ OnlyRegs [Reg.PWR_COMMIT_STATE] s t)) ∧
    (mode s = 8 → fget Fl.PWR_COMMIT_STATE_PHASE s = 1 → fget Fl.PWR_PFAIL_CFG_EN s = 1 →
      Completes .pfailAssert s (fun t => fget Fl.PWR_COMMIT_STATE_CAUSE_PFAIL t = 1 ∧ t.pow.pfailInBrace = true)) ∧
    (¬ (s.pow.afterSeal = .keepPfail ∧ mode s = 1) →
      Completes .pfailDeassert s (fun t => t = { s with pow := { s.pow with pfailLow := false } })) ∧
    (s.pow.afterSeal = .keepPfail → mode s = 1 →
      (s.pow.pwrdis = false → Completes .pfailDeassert s (fun t => mode t = 3 ∧ t.pow.riseStep = .qualified ∧ t.pow.pfailLow = false ∧
        fget Fl.AON_WAKE_SRC_PFAIL t = 1)) ∧
      (s.pow.pwrdis = true → Completes .pfailDeassert s (fun t => mode t = 2 ∧ t.pow.pfailLow = false)))

/-- R46, R48–R50, R52, R55, R58: from brace to its end. -/
def Obligations.BraceAndSealEnd : Prop :=
  ∀ s : State,
    (fget Fl.PWR_COMMIT_STATE_PHASE s = 1 →
      (s.pow.pfailLow = true → fget Fl.PWR_PFAIL_CFG_EN s = 1 → s.pow.sealDue = false →
        Completes .pfailHoldExpiry s (fun t => t = { s with pow := { s.pow with sealDue := true, byHold := true } })) ∧
      (mode s ≠ 0 → s.pow.afterSeal = .none → Completes .holdupSwitchIn s (fun t => fget Fl.PWR_STATUS_SWITCHED_IN t = 1 ∧ t.pow.sealDue = true)) ∧
      Completes .brownoutLimit s (fun t => fget Fl.PWR_COMMIT_STATE_CAUSE_BROWNOUT t = 1 ∧ t.pow.sealDue = true) ∧
      (programming s = false → Completes .braceComplete s (fun t => t.pow.braceDone = true)) ∧
      (programming s = true → Completes .braceComplete s (fun t => t = s)) ∧
      (¬ (s.pow.pfailInBrace = true ∧ pfailActs s = true) → s.pow.heldTrans = false → s.nv.cmds = [] → s.pow.braceFrom ≠ 0xB → s.pow.braceFrom < 12 →
        s.pow.watchWait = false → s.pow.resetWait = none → s.pow.waitResets = [] → fget Fl.AON_MODE_RO_CAUSE s = 0 →
        (∀ k, k < 12 → coreHalted (64 + k) s = false) →
        Completes .braceRecovery s (fun t => mode t = s.pow.braceFrom ∧ fget Fl.PWR_COMMIT_STATE_PHASE t = 0 ∧ fget Fl.PWR_EVENT_RECOVER t = 1 ∧
          fget Fl.PWR_STATUS_SWITCHED_IN t = 0)) ∧
      (s.pow.braceDone = true → s.pow.sealDue = true →
        (s.pow.braceFrom ≠ 1 → Completes .sealStart s (fun t => fget Fl.PWR_COMMIT_STATE_PHASE t = 2 ∧ t.pow.sealStep = 1 ∧
          ∀ n, n < 40 → pdOn n t = (pdOn n s && !([6, 8, 9, 10, 11].contains n || (decide (12 ≤ n) && decide (n ≤ 25))) && !pdRetired n s))) ∧
        (s.pow.braceFrom = 1 → Completes .sealStart s (fun t => fget Fl.PWR_COMMIT_STATE_PHASE t = 2 ∧ t.pow.sealStep = 1 ∧
          ∀ n, n < 40 → pdOn n t = (decide (n ≤ 2) && !pdRetired n s))))) ∧
    (∀ energy duration, fget Fl.PWR_COMMIT_STATE_PHASE s = 2 →
      Completes (.sealEnd energy duration) s (fun t => fget Fl.PWR_COMMIT_STATE_PHASE t = 0 ∧ fget Fl.PWR_COMMIT_LAST_COMPLETE t = 1 ∧
        fget Fl.PWR_COMMIT_LAST_ENERGY t = Nat.min energy 4095 ∧ fget Fl.PWR_COMMIT_LAST_DURATION t = Nat.min duration 4095 ∧
        t.pow.afterSeal = .judge ∧ t.pow.sealStep = 0 ∧ ∀ n, n < 40 → pdOn n t = (n == 0 && !pdRetired n t))) ∧
    (∀ v : Bool, s.pow.afterSeal = .judge → fget Fl.PWR_STATUS_MAINS_OK s = 0 → fget Fl.PWR_STATUS_AUX_OK s = 0 →
      Completes (.sealJudgment v) s (fun t => mode t = 0 ∧ ∀ n, n < 40 → pdOn n t = false)) ∧
    (∀ v : Bool, s.pow.afterSeal = .judge → fget Fl.PWR_STATUS_MAINS_OK s = 1 → s.pow.watchWait = false →
      (s.pow.byHold = false → s.pow.resetWait = none → s.pow.waitResets = [] →
        Completes (.sealJudgment v) s (fun t => if v then t.pow.afterSeal = .rest ∧ fget Fl.AON_MODE_TARGET t = 3 ∧ fget Fl.AON_MODE_TRANS t = 1
          else t.pow.afterSeal = .keepVbus ∧ mode t = 1)) ∧
      (s.pow.byHold = true → fget Fl.PWR_PFAIL_CFG_EN s = 1 → s.pow.pfailLow = true → s.pow.resetWait = none → s.pow.waitResets = [] →
        Completes (.sealJudgment v) s (fun t => t.pow.afterSeal = .keepPfail ∧ mode t = 1))) ∧
    (s.pow.afterSeal = .rest → s.pow.resetWait = none → s.pow.waitResets = [] →
      Completes .restExpiry s (fun t => mode t = 3 ∧ t.pow.riseStep = .qualified ∧ fget Fl.AON_WAKE_SRC_VBUS t = 1)) ∧
    (s.pow.afterSeal = .keepVbus → mode s = 1 → s.pow.pwrdis = false →
      Completes .keepVbusRecovery s (fun t => mode t = 3 ∧ t.pow.riseStep = .qualified ∧ fget Fl.AON_WAKE_SRC_VBUS t = 1)) ∧
    (fget Fl.PWR_COMMIT_STATE_PHASE s ≠ 1 → Completes .braceRecovery s (fun t => t = s)) ∧
    (fget Fl.PWR_COMMIT_STATE_PHASE s = 2 → mode s = 8 →
      Completes .vbusWarn s (fun t => fget Fl.PWR_COMMIT_STATE_PHASE t = 2 ∧ mode t = 8) ∧
      Completes .holdupSwitchIn s (fun t => fget Fl.PWR_COMMIT_STATE_PHASE t = 2 ∧ mode t = 8) ∧ Completes .brownoutLimit s (fun t => t = s)) ∧
    (∀ n, mode s ≠ 0 → Completes (.regulatorCutoff n) s (fun t => mode t = 0 ∧ rd Reg.PWR_STATUS t = 0 ∧
      (mode s = 8 → s.pow.afterSeal = .none → t.pow.sealsCut = Nat.min (s.pow.sealsCut + 1) 0xFFFFFFFF) ∧ ∀ n, n < 40 → pdOn n t = false))

/-- R60–R62, R71–R73, R79, R529: resets, orderly stops and wake events, and the status indication of Watch. -/
def Obligations.ModeRequests : Prop :=
  ∀ s : State,
    Completes .pwrdisAssert s (fun t => t = { s with pow := { s.pow with pwrdis := true, wakeSince := none } }) ∧
    (mode s ≠ 1 → mode s ≠ 2 → Completes .pwrdisDeassert s (fun t => t = { s with pow := { s.pow with
      pwrdis := false, wakeSince := if s.pow.perst then some (s.pow.wakeSince.getD s.tick) else none } })) ∧
    (mode s = 2 → s.pow.afterSeal = .none → s.pow.pllWatch = false → fget Fl.AON_WAKE_EN_PWRDIS s = 1 →
      Completes .pwrdisDeassert s (fun t => mode t = 3 ∧ fget Fl.AON_WAKE_SRC_PWRDIS t = 1)) ∧
    (mode s = 4 → fget Fl.AON_MODE_TRANS s = 0 → s.pow.stopping = none → s.pow.afterSeal = .none →
      (s.pow.pwrdis = true → Completes .pwrdisHoldExpiry s (fun t => t.pow.stopping = some .watch ∧ t.nv.stopped = true ∧
        fget Fl.AON_MODE_TARGET t = 2 ∧ fget Fl.AON_MODE_TRANS t = 1 ∧ OnlyRegs [Reg.AON_MODE]
          { s with pow := { s.pow with stopping := some .watch }, nv := { s.nv with stopped := true } } t)) ∧
      Completes (.orderlyStop .watch) s (fun t => t.pow.stopping = some .watch ∧ t.nv.stopped = true ∧ fget Fl.AON_MODE_TARGET t = 2) ∧
      (s.mgt.upd.todo = [] → ∀ (c : RstCause) (req : Nat),
        Completes (.moduleReset c) s (fun t => t.pow.stopping = some (.reset c) ∧ t.nv.stopped = true ∧ fget Fl.AON_MODE_TRANS t = 1) ∧
        Completes (.resetReqModule 0x5A req) s (fun t => t.pow.stopping = some (.reset .mgmt) ∧ fget Fl.AON_MODE_TRANS t = 1) ∧
        (coreHalted 76 s = false → Completes .managementWatchdogExpiry s (fun t => t.pow.stopping = some (.reset .wdt) ∧ fget Fl.AON_MODE_TRANS t = 1)))) ∧
    (∀ c : RstCause, mode s = 8 → s.pow.afterSeal ≠ .resetOff → s.mgt.upd.todo = [] → s.pow.resetWait = none →
      Completes (.moduleReset c) s (fun t => t = { s with pow := { s.pow with resetWait := some c } })) ∧
    (∀ c : RstCause, mode s = 2 → s.pow.afterSeal = .none → s.pow.stopping = none → s.mgt.upd.todo = [] →
      Completes (.moduleReset c) s (fun t => mode t = 1 ∧ fget (rstBit c) t = 1 ∧ t.pow.afterSeal = .resetOff)) ∧
    (s.pow.afterSeal = .resetOff → mode s = 1 → Completes .moduleResetOffExpiry s (fun t => mode t = 3 ∧ t.pow.riseStep = .qualified)) ∧
    (s.pow.stopping = some .watch → s.pow.waiting = [] →
      Completes .orderlyStopGraceExpiry s (fun t => mode t = 2 ∧ t.pow.stopping = none ∧ statusLeds t = (.hz1, .off))) ∧
    (mode s = 2 → ∀ req, Completes (.resetReqKeep 0x5A req) s (fun t => mode t = 1) ∧
      (s.pow.afterSeal = .none → s.pow.pllWatch = false → Completes (.resetReqStart 0x5A req) s (fun t => mode t = 3 ∧ t.pow.riseStep = .qualified)) ∧
      (s.pow.pllWatch = true → Completes (.resetReqStart 0x5A req) s (fun t => t = s))) ∧
    (∀ req, mode s ≠ 8 → pdOn 7 s = true → s.mgt.upd.todo = [] →
      Completes (.resetReqNvmssr 0x5A req) s (fun t => fget Fl.HIF_LINK_STATUS_UP_A t = 0 ∧ fget Fl.HIF_LINK_STATUS_UP_B t = 0 ∧
        fget Fl.AON_RST_CAUSE_NVMSSR_REG t = 1 ∧ fget Fl.HIF_EVENT_NSSR t = 1)) ∧
    (∀ req, mode s = 8 → Completes (.resetReqNvmssr 0x5A req) s (fun t =>
      t = { s with pow := { s.pow with waitResets := s.pow.waitResets ++ [.subsystem false] } })) ∧
    (∀ key req, key % 256 ≠ 0x5A →
      Completes (.resetReqModule key req) s (fun t => OnlyMarked [] s t) ∧ Completes (.resetReqNvmssr key req) s (fun t => OnlyMarked [] s t) ∧
      Completes (.resetReqKeep key req) s (fun t => OnlyMarked [] s t) ∧ Completes (.resetReqStart key req) s (fun t => OnlyMarked [] s t)) ∧
    (mode s = 1 ∨ mode s = 2 → (rd Reg.AON_WAKE_TIMER s).toNat ≠ 0 → s.pow.afterSeal = .none → s.pow.pllWatch = false →
      fget Fl.AON_WAKE_EN_TIMER s = 1 → (mode s = 1 → s.pow.pwrdis = false) →
      Completes .wakeTimerExpiry s (fun t => mode t = 3 ∧ rd Reg.AON_WAKE_TIMER t = 0 ∧ fget Fl.AON_WAKE_SRC_TIMER t = 1))

/-- R38, R76, R78, R529: the ready sequence, step by step. -/
def Obligations.ReadySequence : Prop :=
  ∀ s : State,
    (∀ aux : Bool, mode s = 0 → qualifies aux s = true → inputEnabled aux s = true →
      (s.pow.pwrdis = false → Completes (.inputQualified aux) s (fun t => mode t = 3 ∧ t.pow.riseStep = .qualified ∧ qualifies aux t = false ∧
        (rd Reg.AON_PWRCYC t).toNat = Nat.min ((rd Reg.AON_PWRCYC s).toNat + 1) 0xFFFFFFFF ∧ fget (inputOk aux) t = 1)) ∧
      (s.pow.pwrdis = true → Completes (.inputQualified aux) s (fun t => mode t = 2 ∧ qualifies aux t = false))) ∧
    (∀ aux : Bool, qualifies aux s = true → mode s ≠ 0 ∨ inputEnabled aux s = false →
      Completes (.inputQualified aux) s (fun t => fget (inputOk aux) t = 1 ∧ qualifies aux t = false ∧ RegsBut [Reg.PWR_STATUS] s t)) ∧
    (rising .qualified s = true → s.mgt.storeA.valid = true →
      Completes (.firmwareVerified 0 false) s (fun t => t.pow.riseStep = .firmware ∧ mode t = 3 ∧ t.pow.slotFallbacks = 0)) ∧
    (∀ n, rising .qualified s = true → Completes (.firmwareVerified n true) s (fun t => mode t = 2 ∧ statusLeds t = (.off, .hz1))) ∧
    (rising .firmware s = true → (∀ c, c < 4 → dramRetired c s = false) →
      Completes (.dramDelayCheck []) s (fun t => t.pow.riseStep = .dram ∧ mode t = 3) ∧
      Completes (.dramDelayCheck [0, 3]) s (fun t => mode t = 2 ∧ statusLeds t = (.off, .hz1))) ∧
    (∀ cals, rising .dram s = true →
      Completes (.mapDirectoryLoaded true true cals) s (fun t => t.pow.riseStep = .directory ∧ mode t = 3) ∧
      Completes (.mapDirectoryLoaded false false cals) s (fun t => t.pow.riseStep = .directory ∧ fget Fl.AON_MODE_RO_CAUSE t ≠ 0)) ∧
    (∀ ms q, rising .directory s = true →
      Completes (.journalReplayDone ms true q) s (fun t => t.pow.riseStep = .replayed ∧ fget Fl.AON_RISE_LAST_REPLAY t = Nat.min ms 511 ∧
        fget Fl.AON_MODE_RO_CAUSE t = fget Fl.AON_MODE_RO_CAUSE s) ∧
      Completes (.journalReplayDone ms false false) s (fun t => t.pow.riseStep = .replayed ∧ fget Fl.AON_MODE_RO_CAUSE t ≠ 0)) ∧
    (∀ ms total, rising .replayed s = true → s.pow.sanPending = false → fget Fl.AON_MODE_RO_CAUSE s ≠ 0 →
      Completes (.openBlockScanDone ms total) s (fun t => t.pow.riseStep = .done ∧ mode t = 10 ∧ fget Fl.AON_RISE_LAST_TOTAL t = Nat.min total 4095)) ∧
    (mode s = 3 → s.pow.riseTimeouts + 1 ≥ 3 → Completes .riseTimeout s (fun t => mode t = 2 ∧ t.pow.riseTimeouts = 0 ∧ statusLeds t = (.off, .hz1))) ∧
    (mode s = 3 → s.pow.riseTimeouts = 0 → s.pow.afterSeal = .none → s.pow.stopping = none → s.mgt.upd.todo = [] →
      Completes .riseTimeout s (fun t => mode t = 1 ∧ fget Fl.AON_RST_CAUSE_MOD_RISE t = 1 ∧ t.pow.riseTimeouts = 1))

/-- R16, R64–R66, R70, R71, R81, R162: power states, idle and clocks. -/
def Obligations.IdleAndClocks : Prop :=
  ∀ s : State,
    (∀ transfers : Bool, Completes (.idleConditionsChange transfers) s (fun t => t.pow.moving = transfers ∧
      t.pow.idleOk = (idleConditions s && !transfers) ∧ t.pow.deepOk = (idleConditions s && !transfers && deepConditions s))) ∧
    (∀ c ps x, idleNow s = true → ctrlAt c s = some x → apstEnabled c s = true → apstTarget c s = some ps →
      Completes (.apstIdleExpiry c ps) s (fun t => ∃ y, ctrlAt c t = some y ∧ y.reqPs = ps ∧ y.setPs = x.setPs)) ∧
    (fget Fl.AON_MODE_TRANS s = 0 → s.pow.waiting = [] →
      (dieBusy s = false →
        (mode s = 4 ∨ mode s = 5 → psInEffect s = 3 → Completes (.idleEntry false) s (fun t => mode t = 6 ∧ t.pow.idleFrom = mode s ∧
          (rd Reg.AON_DELAY_WAKE t).toNat = schEarliest s * 32768 / 1000000 % 2 ^ 32)) ∧
        (mode s = 4 → psInEffect s = 4 → Completes (.idleEntry true) s (fun t => mode t = 7 ∧ t.pow.idleFrom = 4 ∧
          ∀ n, n < 40 → pdOn n t = ([0, 1, 2, 3, 7, 8, 35].contains n && !pdRetired n t)))) ∧
      (dieBusy s = true → mode s = 4 ∨ mode s = 5 → psInEffect s = 3 → Completes (.idleEntry false) s (fun t => mode t = mode s ∧
        fget Fl.AON_MODE_TRANS t = 1 ∧ fget Fl.AON_MODE_TARGET t = 6 ∧ t.pow.idleWait = some false))) ∧
    (∀ bit elapsed, bit = 1 ∨ bit = 5 ∨ bit = 6 ∨ bit = 7 ∨ bit = 9 ∨ bit = 10 → mode s = 6 → s.pow.idleWait = none → s.pow.idleFrom < 12 →
      fget Fl.AON_MODE_RO_CAUSE s = 0 →
      Completes (.idleWake bit elapsed []) s (fun t => mode t = s.pow.idleFrom ∧ fget ⟨Reg.AON_WAKE_SRC, bit, 1⟩ t = 1 ∧
        rd Reg.SCH_TICK t = BitVec.ofNat 64 ((rd Reg.SCH_TICK s).toNat + elapsed))) ∧
    (∀ elapsed, mode s = 6 → s.pow.idleWait = none → s.pow.idleFrom < 12 → fget Fl.AON_MODE_RO_CAUSE s = 0 → (rd Reg.AON_DELAY_WAKE s).toNat ≠ 0 →
      Completes (.delayWakeExpiry elapsed) s (fun t => mode t = s.pow.idleFrom ∧ fget Fl.AON_WAKE_SRC_DELAY t = 1 ∧ rd Reg.AON_DELAY_WAKE t = 0)) ∧
    (∀ elapsed, rd Reg.AON_DELAY_WAKE s = 0 → Completes (.delayWakeExpiry elapsed) s (fun t => t = s)) ∧
    (∀ n us, n < 5 → fget (Fl.CLK_PLL_CTRL_LOCKED n) s = 1 → 2 ≤ fget (Fl.CLK_LOSS_CYCLE_PLL n) s → mode s ≠ 8 →
      Completes (.pllLockLoss n us) s (fun t => mode t = 2 ∧ fget ⟨Reg.CLK_LOCK_LOSS, n, 1⟩ t = 1 ∧ t.pow.pllWatch = true)) ∧
    (∀ n us, n = 1 ∨ n = 2 ∨ n = 4 → fget (Fl.CLK_PLL_CTRL_LOCKED n) s = 1 → fget (Fl.CLK_LOSS_CYCLE_PLL n) s < 2 → mode s = 4 →
      fget Fl.AON_MODE_TRANS s = 0 → s.pow.stopping = none → s.pow.afterSeal = .none → s.mgt.upd.todo = [] →
      Completes (.pllLockLoss n us) s (fun t => t.pow.stopping = some (.reset .pll) ∧
        fget (Fl.CLK_LOSS_CYCLE_PLL n) t = fget (Fl.CLK_LOSS_CYCLE_PLL n) s + 1)) ∧
    (mode s ≠ 0 → Completes .xtalSwitch s (fun t => fget Fl.CLK_STATUS_XTAL_OK t = 1 ∧ fget Fl.CLK_STATUS_ON_RC t = 0 ∧ OnlyRegs [Reg.CLK_STATUS] s t)) ∧
    (∀ k, k < 12 → fget ⟨Reg.CTC_CORE_RETIRED, k, 1⟩ s = 0 → Completes (.controlCoreRetire k) s (fun t =>
      fget ⟨Reg.CTC_CORE_RETIRED, k, 1⟩ t = 1 ∧ fget (Fl.CTC_CORE_STATUS_CORE k) t = 3))

/-- R18, R26, R93–R96, R99, R515: doorbells, fetching and tags. -/
def Obligations.DoorbellsAndTags : Prop :=
  ∀ s : State,
    (∀ c q tail k, sqAt c q (wakeBy 5 s) = some k → tail < k.size →
      Completes (.doorbellWrite c q tail) s (fun t => sqAt c q t = some { k with tail := tail } ∧ (c, q) ∈ t.nv.pigeon ∧
        t.nv.cmds = (wakeBy 5 s).nv.cmds)) ∧
    (∀ c q tail k, sqAt c q (wakeBy 5 s) = some k → k.size ≤ tail → (∀ x ∈ (wakeBy 5 s).nv.ctrls, x.2.aers = []) →
      Completes (.doorbellWrite c q tail) s (fun t => sqAt c q t = some k ∧ t.nv.aens = (wakeBy 5 s).nv.aens ++ [⟨c, 0, 1, 1⟩] ∧
        t.nv.pigeon = (wakeBy 5 s).nv.pigeon)) ∧
    (∀ c q head k, cqAt c q (wakeBy 5 s) = some k → OnlyFetched (wakeBy 5 s) → k.held = [] → head < k.size →
      (head + max k.size 1 - k.head % max k.size 1) % max k.size 1 ≤ (k.tail + max k.size 1 - k.head % max k.size 1) % max k.size 1 →
      Completes (.cqHeadDoorbell c q head) s (fun t => t.nv.cmds = (wakeBy 5 s).nv.cmds ∧
        cqAt c q t = some { k with head := head, posted := k.posted.drop ((head + max k.size 1 - k.head % max k.size 1) % max k.size 1) })) ∧
    (∀ cid kind nsid lba nlb c q k sh,
      let p := pauseTagless s
      mode s ≠ 8 → arbitrate p = some (c, q) → sqAt c q p = some k → k.halted = false → tagFor c p = some sh → kind ≠ .unsupported →
      (trackedKind kind = true → p.nv.ovlPause = false ∧ (s.nv.cmds.filter (·.tracked)).length < 16384) →
      Completes (.commandFetch cid kind nsid lba nlb) s (fun t => sqAt c q t = some { k with head := (k.head + 1) % max k.size 1 } ∧
        ∃ tag, tag < 65536 ∧ t.nv.cmds = s.nv.cmds ++ [{
          tag := tag, ctrl := c, sq := q, cid := cid, order := s.nv.order, ordered := k.ordered, haltErr := k.haltErr, kind := kind, nsid := nsid
          lba := lba, nlb := nlb, shared := sh, tracked := trackedKind kind, phase := .fetched, admitted := false, media := false, wdata := []
          dealloc := false, places := [], need := [], looked := [], got := [], pr := PrInfo.none, verifyOnly := false, compareOnly := false
          abort := false, result := none }])) ∧
    (∀ c x sh rest, s.nv.freedTags = (c, sh) :: rest → ctrlAt c s = some x →
      Completes .tagFreed s (fun t => t.nv.freedTags = rest ∧
        (if 0 < x.ownUsed then ctrlAt c t = some { x with ownUsed := x.ownUsed - 1, paused := false } ∧ t.nv.sharedFree = s.nv.sharedFree
          else t.nv.sharedFree = s.nv.sharedFree + 1))) ∧
    ((s.nv.cmds.filter (·.tracked)).length < 16384 →
      Completes .trackerEntryFreed s (fun t => t = { s with nv := { s.nv with ovlPause := false } }))

/-- R17, R18, R43, R91, R97, R100, R101, R140: writes start, land and end. -/
def Obligations.WritesLand : Prop :=
  ∀ (s : State) (tag : Nat) (x : Cmd) (n : Ns),
    (∀ data pr, Ready tag [.write] x s → data.length = x.nlb → ioCheck x true s = none →
      (pr.pract = true ∨ checkBlocks n.dps n.flbas pr x.lba data = none) →
      CanLand (withBlocks x n data pr) n (setCmd (withBlocks x n data pr) s) →
      Completes (.write tag data pr) s (LandingStarted tag (withBlocks x n data pr) (setCmd (withBlocks x n data pr) s))) ∧
    (∀ ranges pr bad parts, Ready tag [.copy] x s → nsAt x.nsid s = some n → ranges.length ≤ 128 → x.nlb * lbaBytes n.flbas ≤ 2097152 →
      ranges.foldl (fun m r => m + r.2) 0 = x.nlb → (∀ r ∈ ranges, r.1 + r.2 ≤ n.nsze) → ioCheck { x with kind := .write } false s = none →
      ioCheck x true s = none → (∀ r ∈ ranges, earlierWrite x r.1 r.2 n s = false ∧ missingPage x.nsid r.1 r.2 n s = none) →
      ranges.mapM (fun r => currentBlocks x.nsid r.1 r.2 n bad s) = some parts →
      (∀ p ∈ ranges.zip parts, checkBlocks n.dps n.flbas pr p.1.1 p.2 = none) →
      let y := withBlocks x n parts.flatten { pr with pract := true }
      let u := setCmd y (forEach (fun r t => readRange x.nsid r.1 r.2 n bad t) ranges s)
      CanLand y n u → Completes (.copy tag (copyFormat n) ranges pr bad) s (LandingStarted tag y u)) ∧
    (∀ pr, Ready tag [.write, .dealloc] x s → ioCheck { x with kind := .dealloc } true s = none →
      let y := { withBlocks x n (List.replicate x.nlb (zeroBlk n.flbas)) { pr with pract := true } with pr := x.pr, dealloc := false }
      CanLand y n (setCmd y s) →
      Completes (.writeZeroes tag false pr) s (LandingStarted tag y (setCmd y s))) ∧
    (∀ pr, Ready tag [.write, .dealloc] x s → ioCheck { x with kind := .dealloc } true s = none → 0 < x.nlb →
      Admitted (withZeros x n) n (setCmd (withZeros x n) s) → (∀ iu ∈ iusOf x s, coversUnit (withZeros x n) (lbasPerIu n.flbas) iu = true) →
      mayApply { withZeros x n with phase := .waitJournal } s = true →
      Completes (.writeZeroes tag true pr) s (fun t => Succeeded x s t ∧ ∀ iu ∈ iusOf x s, iuAt (mapKey x.nsid iu) t = none) ∧
      (x.lba + x.nlb ≤ n.nsze →
        Completes (.datasetManagement tag true [(x.lba, x.nlb)]) s (fun t => Succeeded x s t ∧ ∀ iu ∈ iusOf x s, iuAt (mapKey x.nsid iu) t = none))) ∧
    (∀ ranges, Ready tag [.write, .dealloc] x s → Completes (.datasetManagement tag false ranges) s (Succeeded x s)) ∧
    (∀ chan, InPhase tag .started [.write] x s → nsAt x.nsid s = some n → x.dealloc = false → mayApply x s = true →
      mergeBlocked x s = false → (∀ iu ∈ landed x s, (SMap.find x.places iu).isSome = true) →
      Completes (.landingProgramDone tag true chan) s (fun t => Succeeded x s t ∧ ∀ iu ∈ landed x s, ∃ p g, SMap.find x.places iu = some p ∧
        iuAt (mapKey x.nsid iu) t = some ⟨p.sb, p.chan, p.die,
          mergeUnit (lbasPerIu n.flbas) iu x.wdata (iuData (mapKey x.nsid iu) s), p.stored, false, g⟩)) ∧
    (InPhase tag .held [.write, .dealloc] x s → x.admitted = false → fget Fl.PWR_STATUS_RESERVE_OK s = 0 →
      Completes (.heldWriteTimeout tag) s (Failed x 7 0xC0 false s))

/-- R20, R89, R91, R98, R102, R119, R124: reads, Verify, Compare, the fused pair and Flush. -/
def Obligations.ReadsAndCompares : Prop :=
  ∀ (s : State) (tag : Nat) (x : Cmd) (n : Ns),
    (∀ (pr : PrInfo) (data : List LBlk), Ready tag [.read] x s → 0 < x.nlb → x.verifyOnly = false → x.compareOnly = false → CanLook x n s →
      ((∃ iu ∈ iusOf x s, (iuAt (mapKey x.nsid iu) s).isSome = true) →
        Completes (.read tag pr) s (ReadStarted tag x s) ∧ Completes (.verify tag pr) s (ReadStarted tag x s) ∧
          (data.length = x.nlb → Completes (.compare tag data pr) s (ReadStarted tag x s))) ∧
      ((∀ iu ∈ iusOf x s, iuAt (mapKey x.nsid iu) s = none) →
        Completes (.read tag pr) s
          (Returned x (hostBytesOf n.flbas n.ext (pr.pract && n.dps != 0) (List.replicate x.nlb (zeroBlk n.flbas))) s) ∧
        Completes (.verify tag pr) s (Succeeded x s) ∧
        Completes (.compare tag (List.replicate x.nlb (zeroBlk n.flbas)) pr) s (Succeeded x s) ∧
        (data.length = x.nlb → (∃ b ∈ data, b.data ≠ (zeroBlk n.flbas).data) → Completes (.compare tag data pr) s (Failed x 2 0x85 true s)))) ∧
    (∀ page, s.nv.cmds = [] → s.ftl.cached.length < mapCachePages →
      Completes (.mapPageLoadDone page) s (fun t => page ∈ t.ftl.cached ∧ t.ftl.map = s.ftl.map ∧ t.ftl.dirty = s.ftl.dirty)) ∧
    (∀ page, InPhase tag (.waitMap page) [.read] x s → 0 < x.nlb → CanLook x n (cachePage page s) →
      (∃ iu ∈ iusOf x s, (iuAt (mapKey x.nsid iu) s).isSome = true) →
      Completes (.mapPageLoadDone page) s (ReadStarted tag x (cachePage page s))) ∧
    (Ready tag [.flush] x s → flushReady x s = true → Completes (.flush tag) s (Succeeded x s)) ∧
    (∀ tagW a b data pr, Ready tag [.fusedPair] a s → justFetched tagW [.fusedPair] s = some b → tag ≠ tagW →
      (∀ y ∈ s.nv.cmds, y.tag = tagW → y = b) →
      nsAt a.nsid s = some n → a.nsid = b.nsid → a.lba = b.lba → a.nlb = b.nlb → 0 < a.nlb →
      a.lba / lbasPerIu n.flbas = (a.lba + a.nlb - 1) / lbasPerIu n.flbas → data.length = b.nlb →
      ioCheck { a with kind := .dealloc } false s = none → waitsForWrite a s = false → missingPage a.nsid a.lba a.nlb n s = none →
      (∀ iu ∈ iusOf a s, iuAt (mapKey a.nsid iu) s = none) → fget Fl.PWR_STATUS_RESERVE_OK s ≠ 0 → mode s ≠ 8 →
      let u := completeOk tag s
      let b' := withBlocks b n data pr
      ioCheck { b with pr := pr } true u = none → (pr.pract = true ∨ checkBlocks n.dps n.flbas pr b.lba data = none) → CanLand b' n (setCmd b' u) →
      Completes (.fusedCompareAndWrite tag tagW (List.replicate a.nlb (zeroBlk n.flbas)) data pr false) s (fun t =>
        cmdAt tag t = none ∧ LandingStarted tagW b' (setCmd b' u) t))

/-- R89, R109: Abort, event requests and reservations. -/
def Obligations.AbortsAndReservations : Prop :=
  ∀ (s : State) (tag : Nat) (x : Cmd) (n : Ns),
    (∀ sqid cid, Ready tag [.admin] x s → (s.nv.cmds.filter (fun y => y.ctrl == x.ctrl && y.abort && y.tag != tag)).length < 8 →
      ((∀ y ∈ s.nv.cmds, y.tag ≠ tag → ¬ (y.ctrl = x.ctrl ∧ y.sq = sqid ∧ y.cid = cid)) →
        Completes (.abort tag sqid cid) s (Answered x 0 0 false 1 0 [] s)) ∧
      (∀ y, y.tag ≠ tag → Ready y.tag [.read, .write, .flush, .dealloc] y s → y.media = false → y.ctrl = x.ctrl → y.sq = sqid → y.cid = cid →
        (∀ z ∈ s.nv.cmds, z.tag ≠ tag → z.ctrl = x.ctrl → z.sq = sqid → z.cid = cid → z = y) →
        (∀ e ∈ s.prog.execs, e.2.tag ≠ y.tag) → Completes (.abort tag sqid cid) s (fun t => cmdAt y.tag t = none))) ∧
    (∀ c, Ready tag [.admin] x s → ctrlAt x.ctrl s = some c → c.aers.contains tag = false →
      (c.aers.length < 16 → s.nv.aens = [] → Completes (.asynchronousEventRequest tag) s (fun t =>
        ctrlAt x.ctrl t = some { c with aers := c.aers ++ [tag] } ∧ cmdAt tag t = some { x with phase := .held })) ∧
      (16 ≤ c.aers.length → Completes (.asynchronousEventRequest tag) s (Failed x 1 5 true s))) ∧
    (ResvReady tag x n s →
      (∀ iekey crkey nrkey, n.resv.keyOf (hostOf x.ctrl s) = none →
        Completes (.reservationRegister tag 0 iekey 0 crkey nrkey) s (fun t => Succeeded x s t ∧ resvOf x.nsid t = some
          { n.resv with regs := n.resv.regs ++ [(hostOf x.ctrl s, nrkey)], gen := (n.resv.gen + 1) % 2 ^ 32 })) ∧
      (∀ iekey crkey nrkey k, n.resv.keyOf (hostOf x.ctrl s) = some k → k ≠ nrkey →
        Completes (.reservationRegister tag 0 iekey 0 crkey nrkey) s (fun t => Failed x 0 0x83 false s t ∧ resvOf x.nsid t = some n.resv)) ∧
      (∀ key prkey rtype, n.resv.keyOf (hostOf x.ctrl s) = some key → n.resv.holder = none → 1 ≤ rtype → rtype ≤ 6 →
        Completes (.reservationAcquire tag 0 false rtype key prkey) s (fun t => Succeeded x s t ∧
          resvOf x.nsid t = some { n.resv with holder := some (hostOf x.ctrl s), rtype := rtype })) ∧
      (∀ key prkey rtype h, n.resv.keyOf (hostOf x.ctrl s) = some key → n.resv.holder = some h → n.resv.heldBy (hostOf x.ctrl s) = false →
        1 ≤ rtype → rtype ≤ 6 → Completes (.reservationAcquire tag 0 false rtype key prkey) s (fun t => Failed x 0 0x83 false s t ∧
          resvOf x.nsid t = some n.resv)) ∧
      (∀ key, n.resv.keyOf (hostOf x.ctrl s) = some key → n.resv.heldBy (hostOf x.ctrl s) = true → n.resv.rtype = 1 ∨ n.resv.rtype = 2 →
        Completes (.reservationRelease tag 0 false n.resv.rtype key) s (fun t => Succeeded x s t ∧
          resvOf x.nsid t = some { n.resv with holder := none, rtype := 0 })) ∧
      (∀ dwords eds, Completes (.reservationReport tag dwords eds) s
        (Returned x ((resvStatus x.nsid n.resv eds s).take (4 * dwords)) s)))

/-- R72, R76, R82–R88, R93, R106, R107, R113: links, functions and controllers. `w` is the state once the access has woken the module. -/
def Obligations.LinksAndControllers : Prop :=
  ∀ s : State,
    let w := wakeBy 5 s
    (∀ f asq acq ams mps, pdOn 7 w = true → funcEnabled f w = true →
      (∀ x, ctrlAt (cntlidOf f w) w = some x → x.en = false) → 2 ≤ asq → asq ≤ 4096 → 2 ≤ acq → acq ≤ 4096 → ams ≤ 1 →
      [4096, 8192, 16384, 32768, 65536].contains mps = true →
      Completes (.controllerEnable f asq acq ams mps) s (fun t => ∃ y, ctrlAt (cntlidOf f w) t = some y ∧ y.en = true ∧ y.rdy = false ∧
        y.ams = ams ∧ y.mps = mps ∧ y.reserve = Nat.min (fget Fl.HIF_TAG_CFG_RESERVE w) w.nv.sharedFree ∧
        y.sqs = [(0, ⟨asq, 0, 0, 0, 0, false, false, false⟩)] ∧ y.cqs = [(0, ⟨acq, 0, 0, some 0, [], []⟩)] ∧
        t.nv.sharedFree = w.nv.sharedFree - y.reserve)) ∧
    (∀ c x, serving s = true → ctrlAt c s = some x → x.en = true → x.online = true →
      Completes (.cstsRdySet c) s (fun t => ctrlAt c t = some { x with rdy := true })) ∧
    (∀ c x, ctrlAt c w = some x → x.en = true → x.fabric = false → activating w = false → mode w ≠ 8 → (∀ a ∈ w.net.assocs, a.ctrl ≠ c) →
      Completes (.controllerReset c) s (fun t => (∀ y ∈ t.nv.cmds, y.ctrl ≠ c) ∧
        ∃ y, ctrlAt c t = some y ∧ y.en = false ∧ y.rdy = false ∧ y.sqs = [] ∧ y.cqs = [])) ∧
    (∀ f, pdOn 7 w = true → funcEnabled f w = true → activating w = false → mode w ≠ 8 → isPhysical f w = false →
      Completes (.functionLevelReset f) s (fun t => fget Fl.HIF_EVENT_FLR t = 1 ∧ ∀ y, ctrlAt (cntlidOf f w) t = some y → y.en = false)) ∧
    (mode s ≠ 6 → mode s ≠ 7 → mode s ≠ 8 → s.pow.idleWait = none → pdOn 7 s = true → s.mgt.upd.todo = [] →
      Completes (.nvmSubsystemReset 0x4E564D65) s (fun t => fget Fl.HIF_LINK_STATUS_UP_A t = 0 ∧ fget Fl.HIF_LINK_STATUS_UP_B t = 0 ∧
        fget Fl.AON_RST_CAUSE_NVMSSR_REG t = 1 ∧ fget Fl.HIF_EVENT_NSSR t = 1) ∧
      (mode s ≠ 0 → s.pow.pwrdis = false → s.nv.dual = false → Completes .perstAssert s (fun t => t.pow.perst = true ∧
        t.pow.wakeSince = some (s.pow.wakeSince.getD s.tick) ∧
        fget Fl.HIF_LINK_STATUS_UP_A t = 0 ∧ fget Fl.AON_RST_CAUSE_NVMSSR_PERST t = 1 ∧ fget Fl.HIF_EVENT_NSSR t = 1)) ∧
      (s.nv.dual = true → Completes .perstbAssert s (fun t => t.pow.perstB = true ∧ fget Fl.AON_RST_CAUSE_NVMSSR_PERST t = 1 ∧
        fget Fl.HIF_LINK_STATUS_UP_B t = 0))) ∧
    (∀ v, v ≠ 0x4E564D65 → Completes (.nvmSubsystemReset v) s (fun t => t = w)) ∧
    (s.pow.idleWait = none → mode s ≠ 6 → mode s ≠ 7 →
      (mode s ≠ 1 → Completes .perstDeassert s (fun t => t = { s with pow := { s.pow with perst := false, wakeSince := none } })) ∧
      (mode s = 1 → s.pow.afterSeal = .none → s.pow.pllWatch = false → fget Fl.AON_WAKE_EN_PERST s = 1 → s.pow.pwrdis = false →
        Completes .perstDeassert s (fun t => mode t = 3 ∧ fget Fl.AON_WAKE_SRC_PERST t = 1 ∧ t.pow.perst = false)) ∧
      Completes .perstbDeassert s (fun t => t = { s with pow := { s.pow with perstB := false } })) ∧
    (∀ speed width flit more, pdOn 7 s = true → pdOn 8 s = true → s.pow.perst = false → 1 ≤ speed → speed ≤ fget Fl.HIF_LINK_CFG_MAX_SPEED s →
      width = 1 ∨ width = 2 ∨ width = 4 ∨ (width = 8 ∧ s.nv.dual = false) → (speed = 6 → flit = true) → speed ≤ 6 →
      let below : Bool := more && decide (speed < 6 ∨ width < 8)
      Completes (.linkTrained false speed width flit more) s (fun t => fget Fl.HIF_LINK_STATUS_UP_A t = 1 ∧
        fget Fl.HIF_LINK_STATUS_SPEED_A t = speed ∧ fget Fl.HIF_LINK_STATUS_WIDTH_A t = width ∧
        fget Fl.HIF_LINK_STATUS_FLIT_A t = (if flit then 1 else 0) ∧ fget Fl.HIF_LINK_STATUS_DEGRADED t = (if below || s.nv.degrB then 1 else 0) ∧
        t.nv = { s.nv with levelA := 0, degrA := below } ∧ OnlyMarked [Reg.HIF_LINK_STATUS, Reg.HIF_EVENT] { s with nv := t.nv } t)) ∧
    (fget Fl.HIF_LINK_STATUS_UP_A s = 1 → Completes (.linkDown false) s (fun t => fget Fl.HIF_LINK_STATUS_UP_A t = 0 ∧
      fget Fl.HIF_EVENT_LINK_DOWN_A t = 1 ∧ t.nv = { s.nv with levelA := 0 } ∧
      OnlyMarked [Reg.HIF_LINK_STATUS, Reg.HIF_EVENT] { s with nv := t.nv } t)) ∧
    (fget Fl.HIF_LINK_STATUS_UP_B s = 1 → Completes (.linkDown true) s (fun t => fget Fl.HIF_LINK_STATUS_UP_B t = 0 ∧
      fget Fl.HIF_EVENT_LINK_DOWN_B t = 1 ∧ t.nv = { s.nv with levelB := 0 } ∧
      OnlyMarked [Reg.HIF_LINK_STATUS, Reg.HIF_EVENT] { s with nv := t.nv } t)) ∧
    (fget Fl.HIF_LINK_STATUS_UP_A s = 1 → (∀ e ∈ s.nv.ctrls, e.2.en = false) → Completes (.pcieHotReset false) s (fun t =>
      fget Fl.HIF_LINK_STATUS_UP_A t = 0 ∧ fget Fl.HIF_EVENT_LINK_DOWN_A t = fget Fl.HIF_EVENT_LINK_DOWN_A s)) ∧
    (pdOn 7 w = true → fget Fl.HIF_LINK_STATUS_UP_A w = 1 →
      (configAnswered w = true →
        (∀ r, Completes (.configurationRequest false r) s (fun t => t.nv.cfgDone = w.nv.cfgDone + 1 ∧ t.nv.cmds = w.nv.cmds)) ∧
        (∀ n, n ≤ 63 → Completes (.configurationRequest false (.numVf n)) s (fun t => t.nv.numVfA = n ∧ fget Fl.HIF_FUNC_STATUS_NUMVF_A t = n)) ∧
        (∀ f on, funcEnabled f w = true → Completes (.configurationRequest false (.msix f on)) s (fun t => t.ten.msixOn.contains f = on)) ∧
        (∀ f on, isPhysical f w = true → Completes (.configurationRequest false (.msi f on)) s (fun t => t.nv.msiOn.contains f = on)) ∧
        (∀ on, Completes (.configurationRequest false (.aspm on)) s (fun t => t.nv.aspmA = on.filter (fun l => decide (1 ≤ l ∧ l ≤ 3)) ∧ t.nv.levelA = 0)) ∧
        (∀ l, Completes (.configurationRequest false (.enterL1 l)) s (fun t => t.nv.levelA =
          (if fget Fl.HIF_LINK_CFG_L1_ALLOW w = 1 ∧ w.nv.aspmA.contains l = true then l else w.nv.levelA))) ∧
        (∀ f k, funcEnabled f w = true → k ≤ 6 → Completes (.configurationRequest false (.bar2 f k)) s (fun t => bar2Size f t = 2 ^ (30 + k))) ∧
        (∀ i, Completes (.configurationRequest false (.read i)) s (fun t => t.nv.cfgRead = configAnswer false i w))) ∧
      (configAnswered w = false → ∀ r, Completes (.configurationRequest false r) s (fun t =>
        t = { w with nv := { w.nv with crs := w.nv.crs + 1 } }))) ∧
    (∀ f off, pdOn 7 w = true → funcEnabled f w = true →
      (∀ value, 0x1108 ≤ off → Completes (.barReservedAccess f 0 off value) s (fun t => t.nv.barUr = w.nv.barUr + 1 ∧
        (value = none → t.nv.barRead = none) ∧ OnlyMarked [] { w with nv := t.nv } t)) ∧
      (∀ v, ctrlRegister (cntlidOf f w) off w = some v → Completes (.barReservedAccess f 0 off none) s (fun t =>
        t = { w with nv := { w.nv with barRead := some (leBytes 4 v) } })) ∧
      (∀ v, off < 0x800 → msixEntry f off w = true → Completes (.barReservedAccess f 4 off (some v)) s (fun t =>
        SMap.find t.nv.msix (512 * f + off / 4) = some (v % 2 ^ 32))) ∧
      (off < bar2Size f w →
        (∀ n bs, readSpace (.host f) off n w = some bs → off + n ≤ slmSize f w →
          Completes (.bar2Access f off n none) s (fun t => t.nv.barRead = some bs)) ∧
        (∀ d n, off + d.length ≤ slmSize f w →
          (∀ i, i < d.length → ∀ j, j < d.length → (xlate (.host f) true (off + i) w).isSome = true →
            xlate (.host f) true (off + i) w = xlate (.host f) true (off + j) w → i = j) →
          Completes (.bar2Access f off n (some d)) s (fun t => ∀ i, i < d.length → ∀ p, xlate (.host f) true (off + i) w = some p →
            rdByte p t = d.getD i 0)))) ∧
    (∀ v req, v < 2 → pdOn 7 s = true → Completes (.fetchHold v req) s (fun t => fget Fl.HIF_FETCH_CTRL_HOLD t = v ∧
      fget Fl.HIF_FETCH_CTRL_HELD t = v ∧ OnlyRegs [Reg.HIF_FETCH_CTRL] s t)) ∧
    (∀ c x normal, ctrlAt c w = some x → x.en = true → x.shst = 0 → (∀ y ∈ w.nv.cmds, y.ctrl ≠ c) → OnlyFetched w →
      (normal = false ∨ (∃ e ∈ w.nv.ctrls, e.1 ≠ c ∧ e.2.en = true ∧ e.2.shst = 0) →
        Completes (.shutdown c normal) s (fun t => ctrlAt c t = some { x with shst := 2, shnNormal := normal, ckpt := false })) ∧
      ((∀ e ∈ w.nv.ctrls, e.1 = c ∨ e.2.en = false ∨ e.2.shst ≠ 0) →
        Completes (.shutdown c true) s (fun t => ctrlAt c t = some { x with shst := 1, shnNormal := true, ckpt := true })))

/-- R89, R92, R104, R453: queues of a controller. -/
def Obligations.AdminQueues : Prop :=
  ∀ (s : State) (tag : Nat) (x : Cmd) (c : Ctrl), AdminReady tag x c s → c.fabric = false →
    (∀ qid size0 cq prio addr, addr % c.mps = 0 → 1 ≤ qid → qid ≤ 32 → SMap.find c.sqs qid = none → 1 ≤ size0 → size0 ≤ 65535 → 1 ≤ cq → cq ≤ 32 →
      (SMap.find c.cqs cq).isSome = true → queuesUsed c.func false s = false →
      Completes (.createIoSubmissionQueue tag qid size0 cq prio addr true) s (fun t => Succeeded x s t ∧
        sqAt x.ctrl qid t = some ⟨size0 + 1, 0, 0, cq, prio % 4, false, false, false⟩)) ∧
    (∀ qid size0 addr vector, addr % c.mps = 0 → 1 ≤ qid → qid ≤ 32 → SMap.find c.cqs qid = none → 1 ≤ size0 → size0 ≤ 65535 →
      (∀ v, vector = some v → v < (resOf c.func s).vecs) → queuesUsed c.func true s = false →
      Completes (.createIoCompletionQueue tag qid size0 addr true vector) s (fun t => Succeeded x s t ∧
        cqAt x.ctrl qid t = some ⟨size0 + 1, 0, 0, vector, [], []⟩)) ∧
    (∀ qid size0 cq prio addr, 1 ≤ qid → (SMap.find c.sqs qid).isSome = true ∨ 32 < qid → addr % c.mps = 0 →
      Completes (.createIoSubmissionQueue tag qid size0 cq prio addr true) s (Failed x 1 0x01 true s)) ∧
    (∀ qid k, 1 ≤ qid → SMap.find c.sqs qid = some k → x.sq ≠ qid → (∀ y ∈ s.nv.cmds, y.ctrl = x.ctrl → y.sq ≠ qid) →
      Completes (.deleteIoSubmissionQueue tag qid) s (fun t => Succeeded x s t ∧ sqAt x.ctrl qid t = none)) ∧
    (∀ qid k, 1 ≤ qid → SMap.find c.cqs qid = some k →
      ((∀ q ∈ c.sqs, q.2.cq ≠ qid) → Completes (.deleteIoCompletionQueue tag qid) s (fun t => Succeeded x s t ∧ cqAt x.ctrl qid t = none)) ∧
      ((∃ q ∈ c.sqs, q.2.cq = qid) → Completes (.deleteIoCompletionQueue tag qid) s (Failed x 1 0x0C true s)))

/-- R64, R89, R104, R111, R132, R202, R397, R440, R459, R465, R503: features. -/
def Obligations.FeaturesSet : Prop :=
  ∀ (s : State) (tag : Nat) (x : Cmd) (c : Ctrl), AdminReady tag x c s →
    (∀ fid dw11 sv data, fid = 0x01 ∨ fid = 0x08 ∨ fid = 0x0A ∨ fid = 0x0B → (sv = true → c.fabric = false) →
      Completes (.setFeatures tag fid dw11 sv data) s (fun t => Succeeded x s t ∧ (∃ y, ctrlAt x.ctrl t = some y ∧ SMap.find y.feats fid = some dw11) ∧
        (sv = true → SMap.find t.nv.saved (256 * x.ctrl + fid) = some dw11))) ∧
    (∀ fid dw11 sv data, featureIds.contains fid = false → Completes (.setFeatures tag fid dw11 sv data) s (Failed x 0 0x02 true s)) ∧
    (∀ fid sel dw11, featureIds.contains fid = false ∨ 3 < sel → Completes (.getFeatures tag fid sel dw11) s (Failed x 0 0x02 true s)) ∧
    (∀ fid dw11, fid = 0x01 ∨ fid = 0x08 ∨ fid = 0x0A →
      Completes (.getFeatures tag fid 0 dw11) s (Answered x 0 0 false (SMap.getD c.feats fid 0) 0 [] s)) ∧
    (∀ dw11, Completes (.getFeatures tag 0xC0 0 dw11) s (Answered x 0 0 false (featureValue 0xC0 s) 0 [] s) ∧
      Completes (.getFeatures tag 0xC0 1 dw11) s (Answered x 0 0 false 0x164 0 [] s) ∧
      Completes (.getFeatures tag 0x07 0 dw11) s (Answered x 0 0 false 0x1F001F 0 [] s) ∧
      Completes (.getFeatures tag 0xC6 0 dw11) s (Answered x 0 0 false (arbReadOut c.func s) 0 [] s)) ∧
    (∀ dw11, dw11 % 32 ≤ 4 → Completes (.setPowerManagement tag dw11 false) s (fun t => Succeeded x s t ∧
      ∃ y, ctrlAt x.ctrl t = some y ∧ y.reqPs = dw11 % 32 ∧ y.setPs = dw11 % 32)) ∧
    (∀ v k, v < 2 ^ 18 → v % 65536 ≠ 0 → x.sq ≠ v % 65536 → sqAt x.ctrl (v % 65536) s = some k →
      Completes (.setOrderedQueue tag v false) s (fun t => Succeeded x s t ∧ sqAt x.ctrl (v % 65536) t = some { k with
        ordered := v / 2 ^ 16 % 2 == 1, haltErr := v / 2 ^ 17 % 2 == 1, halted := false })) ∧
    (∀ v sv, c.pf = true →
      let takes (i : Instr) (fid : Nat) : Prop := Completes i s (fun t => Succeeded x s t ∧ featureValue fid t = v ∧
        (sv = true → SMap.find t.nv.saved (wideKey fid) = some v))
      (v < 2 ^ 9 → v % 256 ≤ 100 → takes (.setLandingPoolPolicy tag v sv) 0xC0) ∧
      (v < 2 ^ 18 → v / 65536 ≠ 3 → takes (.setScanDefaults tag v sv) 0xC1) ∧
      (v < 2 ^ 28 → v / 2 ^ 24 ≠ 0 → v % 256 < v / 256 % 256 → v / 256 % 256 < v / 65536 % 256 → v / 65536 % 256 ≤ 95 →
        takes (.setThermalThresholds tag v sv) 0xC3) ∧
      (v < 2 ^ 9 → takes (.setEventNotification tag v sv) 0xC5) ∧
      (2 ^ 9 ≤ v ∨ 100 < v % 256 → Completes (.setLandingPoolPolicy tag v sv) s (fun t => Failed x 0 0x02 true s t ∧
        featureValue 0xC0 t = featureValue 0xC0 s))) ∧
    (∀ v, v / 65536 % 256 ≠ 0 → v < 2 ^ 24 →
      privUsed c.func s - SMap.getD s.prog.wcache c.func 4 * 0x1000000 + v / 65536 % 256 * 0x1000000 ≤ privSize c.func s →
      Completes (.setComputeRuntime tag v false) s (fun t => Succeeded x s t ∧ ∃ y, ctrlAt x.ctrl t = some y ∧ SMap.find y.feats 0xC2 = some v)) ∧
    (∀ v sv, Completes (.setTenantArbitrationReadOut tag v sv) s (Failed x 1 0x0E true s)) ∧
    (∀ i data lost, c.pf = true → i < 64 → netStructOk 2 data = true →
      Completes (.setNetworkPorts tag (2 + 4 * i) false data lost) s (fun t => Succeeded x s t ∧
        (fieldAt data 48 1 ≠ 0 → SMap.find t.net.psks i = some data))) ∧
    Completes (.keepAlive tag) s (Succeeded x s)

/-- R89, R111, R112, R147, R150, R151, R176, R203, R231, R305, R420, R441, R460, R466, R491, R501: Identify and log pages. -/
def Obligations.IdentifyAndLogs : Prop :=
  ∀ (s : State) (tag : Nat) (x : Cmd) (c : Ctrl), AdminReady tag x c s →
    (∀ cntid csi, Completes (.identify tag 0x01 cntid csi) s (Returned x (identifyController x.ctrl c s) s) ∧
      Completes (.identify tag 0x1C cntid csi) s (Returned x (layout 4096 [(0, 8, 25)]) s) ∧
      (nsAt x.nsid s = none → Completes (.identify tag 0x03 cntid csi) s (Failed x 0 0x0B true s)) ∧
      ∀ cns, 0x15 < cns → cns ≠ 0x1C → Completes (.identify tag cns cntid csi) s (Failed x 0 0x02 true s)) ∧
    (∀ off dwords,
      let gives (i : Instr) (page : List Byte) (n : Nat) : Prop := page.length = n ∧
        (off % 4 = 0 → off + 4 * dwords ≤ n → Completes i s (Returned x ((page.drop off).take (4 * dwords)) s)) ∧
        (off % 4 ≠ 0 ∨ n < off → Completes i s (Failed x 0 0x02 true s))
      gives (.getLogPage tag 0x00 off dwords 0 false) (layout 1024 (logIds.map (fun i => (4 * i, 4, 1)))) 1024 ∧
      gives (.getLogPage tag 0x03 off dwords 0 false) (slotPage s) 512 ∧
      gives (.moduleIdentityLog tag off dwords) (identityPage s) 512 ∧ gives (.wearAndSparesLog tag off dwords) (wearPage s) 512 ∧
      gives (.powerAndModeLog tag off dwords) (powerPage s) 512 ∧ gives (.tagsAndOrderingLog tag off dwords) (tagsPage s) 512 ∧
      gives (.channelHealthLog tag off dwords) (channelPage s) 2048 ∧ gives (.matchArraysLog tag off dwords) (matchPage s) 512 ∧
      gives (.computeClustersLog tag off dwords) (clusterPage s) 1024 ∧ gives (.dramAndSramErrorsLog tag off dwords) (memoryPage s) 512 ∧
      gives (.networkPortsLog tag off dwords) (networkPage { s with free := s.free + 2 }) 512 ∧
      gives (.sensorsAndThrottlingLog tag off dwords) (sensorPage s) 512 ∧ gives (.firmwareComponentsLog tag off dwords) (firmwarePage s) 1024 ∧
      gives (.tenantResourcesLog tag off dwords) (tenantPage x.ctrl s) 8256 ∧ gives (.scanStatisticsLog tag off dwords) (scanPage s) 512) ∧
    (∀ off dwords lsp rae, Completes (.getLogPage tag 0xBF off dwords lsp rae) s (Failed x 1 0x09 true s)) ∧
    (∀ byIndex tier, (c.pf = true → s.pbk.ram = [] → Completes (.eventRecorderWindowLog tag 0 16 byIndex true (2 * tier)) s
        (Returned x (layout 64 [(0, 8, if byIndex then 0 else regNat Reg.PBK_NEXT_SEQ s), (8, 2, 0), (16, 8, regNat Reg.PBK_NEXT_SEQ s),
          (24, 8, regNat Reg.PBK_NEXT_SEQ s), (32, 8, if byIndex then regNat Reg.PBK_NEXT_SEQ s else 0), (40, 4, sincePower Reg.PBK_DROP2 32 s),
          (44, 4, sincePower Reg.PBK_DROP3 32 s)]) s)) ∧
      (c.pf = false → Completes (.eventRecorderWindowLog tag 0 16 byIndex true tier) s (Failed x 0 0x02 true s)))

/-- R114, R117, R120, R142, R143, R369, R445, R446: namespaces, Format, Sanitize, self-test and secondary controllers. -/
def Obligations.NamespacesAndSanitize : Prop :=
  (∀ (s : State) (tag : Nat) (x : Cmd) (c : Ctrl), PcieReady tag x c s →
    (∀ a id, a.csi = 0 → c.func = s.ten.manager → nvmCreateFault a s = none → freeNsid s = some id →
      Completes (.namespaceCreate tag a) s (fun t => Answered x 0 0 false id 0 [] s t ∧ nsAt id t = some (freshNs a c.func id))) ∧
    (∀ a sct sc, a.csi = 0 → c.func = s.ten.manager → nvmCreateFault a s = some (sct, sc) →
      Completes (.namespaceCreate tag a) s (fun t => Failed x sct sc true s t ∧ t.nv.ns = s.nv.ns)) ∧
    (∀ a id, a = ⟨4, a.nsze, a.ncap, 0, 0, 0, 0, false⟩ → (∀ e ∈ s.nv.ns, e.2.csi = 4 → e.2.owner ≠ c.func) → freeNsid s = some id →
      Completes (.namespaceCreate tag a) s (fun t => Answered x 0 0 false id 0 [] s t ∧ nsAt id t = some (freshNs a c.func 0))) ∧
    (∀ n, nsAt x.nsid s = some n → x.nsid ≠ 0xFFFFFFFF → n.csi = 0 → c.func = s.ten.manager →
      Completes (.namespaceDelete tag) s (fun t => nsAt x.nsid t = none ∧ (∀ e ∈ t.ftl.map, e.1 / 2 ^ 40 ≠ x.nsid) ∧
        SMap.find t.keys.store n.keyEntry = none ∧ fget Fl.KEY_EVENT_ERASED t = 1)) ∧
    (∀ n l, nsAt x.nsid s = some n → n.csi = 0 → c.func = s.ten.manager → (∀ e ∈ s.nv.ctrls, e.2.aers = []) →
      (l ≠ [] → (∀ d ∈ l, attachFault n d l.length s = none) → Completes (.namespaceAttach tag l) s (fun t => Succeeded x s t ∧
        nsAt x.nsid t = some { n with attached := n.attached ++ l } ∧ ∀ d ∈ l, (d, x.nsid) ∈ t.nv.changed)) ∧
      (l ≠ [] → (∀ d ∈ l, (cntlidFunc d s).isSome = true ∧ d ∈ n.attached) → Completes (.namespaceDetach tag l) s (fun t => Succeeded x s t ∧
        nsAt x.nsid t = some { n with attached := n.attached.filter (fun d => !l.contains d) }))) ∧
    (∀ n idx ses pi ext, nsAt x.nsid s = some n → (∀ e ∈ s.nv.ns, e.1 = x.nsid → e.2 = n) → x.nsid ≠ 0xFFFFFFFF → n.csi = 0 → sees n x.ctrl s = true → mode s ≠ 10 → ses ≤ 2 → idx ≤ 5 →
      piAllowed idx pi = true → (nsCompressed n = true → idx % 3 = 0) → resvConflict n.resv (hostOf x.ctrl s) true = false →
      Completes (.formatNvm tag idx ses pi ext) s (fun t => (∀ e ∈ t.ftl.map, e.1 / 2 ^ 40 ≠ x.nsid) ∧
        ∃ m, nsAt x.nsid t = some m ∧ m.flbas = idx ∧ m.dps = pi ∧ m.nsze = n.nsze * lbaBytes n.flbas / lbaBytes idx)) ∧
    (Completes (.sanitize tag 1 false) s (Succeeded x s) ∧
      Completes (.sanitize tag 4 false) s (fun t => mode t = 9 ∧ t.nv.sanState = 2 ∧ t.nv.sanCrypto = true ∧ fget Fl.KEY_EVENT_ERASED t = 1) ∧
      (mode s ≠ 10 → Completes (.sanitize tag 2 false) s (fun t => mode t = 9 ∧ t.nv.sanState = 2 ∧ t.nv.sanCrypto = false)) ∧
      ∀ ndas, Completes (.sanitize tag 3 ndas) s (Failed x 0 0x02 true s)) ∧
    (∀ code, code = 1 ∨ code = 2 ∨ code = 15 → x.nsid = 0 → Completes (.deviceSelfTest tag code) s (fun t => Succeeded x s t ∧
      ∃ y, ctrlAt x.ctrl t = some y ∧ y.selfTest = code)) ∧
    (∀ cntlid f y, c.pf = true → cntlidFunc cntlid s = some f → isPhysical f s = false → (s.nv.dual = true → f / 64 = c.func / 64) →
      cntlid ≠ x.ctrl → ctrlAt cntlid s = some y → y.shst ≠ 1 →
      (y.en = false → Completes (.secondaryControllerOffline tag cntlid) s (fun t => Succeeded x s t ∧
        ctrlAt cntlid t = some { y with online := false, rdy := false })) ∧
      (y.en = true → Completes (.secondaryControllerOffline tag cntlid) s (Failed x 1 0x20 true s)) ∧
      Completes (.secondaryControllerOnline tag cntlid) s (fun t => Succeeded x s t ∧ ctrlAt cntlid t = some { y with online := true }))) ∧
  (∀ (s : State) (bad : Bool) (failed : List (Nat × Nat)), mode s = 9 → fget Fl.AON_MODE_TRANS s = 0 → s.nv.cmds = [] → pdRetired 1 s = false →
    Completes (.sanitizeComplete bad failed) s (fun t => t.ftl.map = [] ∧ t.nv.sanState = 1 ∧
      mode t = (if fget Fl.AON_MODE_RO_CAUSE t ≠ 0 then 10 else if capNow t = 0 then 4 else 5)))

/-- R124, R125, R128, R131, R132, R138, R144, R149, R154, R168: the fill computation and folding; journal, checkpoint and map pages.
`unfolded` lists the landed units of a superblock on a channel that no fold has, `stillThere` those of a move that its source still holds. -/
def Obligations.FoldAndJournal : Prop :=
  (∀ s : State, OnlyFetched s →
    (let cap := userIus s * 16384
     let st := storedBytes s
     let limit := featureValue 0xC0 s % 256
     (∀ e ∈ s.ftl.sbs, e.2.use = .full → mappedTo e.1 s ≠ []) →
     Completes .fillRecompute s (fun t => t = { s with ftl := { s.ftl with
       fill := 10000 * st / cap
       dynTarget := if 100 * st ≤ 10 * cap then dynMax s * limit / 100 else if 90 * cap ≤ 100 * st then 0
         else dynMax s * (90 * cap - 100 * st) * limit / (80 * cap * 100)
       eager := featureValue 0xC0 s / 256 % 2 == 1 } })) ∧
    (∀ source quiet g c, relocationRuns s = true → (sbAt source s).slc = true → (sbAt source s).use = .landing ∨ (sbAt source s).use = .full →
      s.ftl.eager = true ∨ quiet = true → (List.range 32).find? (fun k => foldsOn source k s) = some c → (∀ k, (chanAt k s).retired = false) →
      targetOf .fold (sbAt source s).sd (some c) s = some g →
      let us := (unfolded source c s).take (min 16 (12288 - SMap.getD (sbAt g s).fill c 0))
      (sbAt g s).slc = false →
      Completes (.foldStart source quiet) s (fun t => t.ftl.folds = s.ftl.folds ++ [⟨s.ftl.nextMove, g, source, us.map (fun k => (k, c))⟩] ∧
        t.ftl.map = s.ftl.map ∧
        (∃ o ∈ (chanAt c t).queue, o.kind = .progQlc ∧ o.use = .fold ∧ o.cls = 4 ∧ o.sb = g ∧ o.tag = s.ftl.nextMove) ∧
        ∀ k ∈ us, ∀ u, iuAt k s = some u → ∃ o ∈ (chanAt u.chan t).queue, o.kind = .read ∧ o.use = .fold ∧ o.cls = 4 ∧ o.die = u.die ∧ o.key = k)) ∧
    (∀ source m bad, s.ftl.folds.find? (fun x => x.source == source) = some m →
      (mode s ≠ 10 → (sbAt source s).suspect = [] → (sbAt source s).unstable = [] →
        Completes (.foldProgramDone source true bad) s (fun t => t.ftl.folds = s.ftl.folds.erase m ∧
          (∀ p ∈ stillThere m s, ∀ u, iuAt p.1 s = some u →
            (p.1 ∉ bad → ∃ v, iuAt p.1 t = some v ∧ v.sb = m.target ∧ v.data = u.data ∧ v.uncorr = u.uncorr) ∧
            (p.1 ∈ bad → ∃ v, iuAt p.1 t = some v ∧ v.uncorr = true)) ∧
          ∀ k, k ∉ (stillThere m s).map (·.1) → iuAt k t = iuAt k s)) ∧
      (mode s ≠ 10 → m.target < s.ftl.nextSb → Completes (.foldProgramDone source false bad) s (fun t => t.ftl.map = s.ftl.map ∧
        (m.slots.headD (0, 0)).2 ∈ (sbAt m.target t).suspect)) ∧
      (∀ ok, mode s = 10 → Completes (.foldProgramDone source ok bad) s (fun t => t.ftl.folds = s.ftl.folds.erase m ∧ t.ftl.map = s.ftl.map)))) ∧
  (∀ s : State,
    ((∀ c, (chanAt c s).retired = false) → Completes .journalFlush s (fun t => t.ftl.map = s.ftl.map ∧ t.ftl.unflushed = 0 ∧
      t.ftl.flushing = s.ftl.flushing + s.ftl.unflushed ∧ (∀ c b, (blkAt c b s).st = .erased → (blkAt c b t).st = .recording) ∧
      ∀ i, i < journalPagesOf s.ftl.unflushed → ∃ c, ∃ o ∈ (chanAt c t).queue, o.kind = .progSlc ∧ o.use = .journal ∧ o.cls = 2 ∧
        o.key = s.ftl.journalPages + i)) ∧
    (OnlyFetched s →
      Completes .journalFlushDone s (fun t => t.ftl.map = s.ftl.map ∧ t.ftl.flushing = 0 ∧ t.ftl.unflushed = s.ftl.unflushed ∧
        t.ftl.sinceCkpt = s.ftl.sinceCkpt + (s.ftl.flushing + 16383) / 16384 * 16384 ∧
        ∀ e ∈ s.ftl.sbs, ∀ p ∈ e.2.blocks, (blkAt p.1 p.2 s).st = .recording → (blkAt p.1 p.2 t).st = .free) ∧
      (awaitsCheckpoint s = false → 268435456 ≤ s.ftl.sinceCkpt → Completes .checkpoint s (fun t => t.ftl.map = s.ftl.map ∧ t.ftl.dirty = [] ∧
        t.ftl.sinceCkpt = 0 ∧ t.ftl.checkpoints = s.ftl.checkpoints + 1)) ∧
      (awaitsCheckpoint s = false → s.ftl.sinceCkpt < 268435456 → Completes .checkpoint s (fun t => t = s)) ∧
      (∀ c x, ctrlAt c s = some x → x.shst = 1 → x.ckpt = true → drained c x s = true → Completes .checkpoint s (fun t =>
        t.ftl.dirty = [] ∧ t.ftl.unflushed = 0 ∧ t.ftl.flushing = 0 ∧ ctrlAt c t = some { x with ckpt := false, shst := 2 })) ∧
      (∀ page, page ∈ s.ftl.dirty → Completes (.mapPageWritten page) s (fun t => t.ftl.dirty = s.ftl.dirty.filter (fun p => p != page) ∧
        t.ftl.map = s.ftl.map ∧ t.ftl.cached = s.ftl.cached ∧ t.ftl.metaPages = s.ftl.metaPages + 1)) ∧
      (∀ page, page ∉ s.ftl.dirty → Completes (.mapPageWritten page) s (fun t => t = s)) ∧
      (∀ q, bgPage s = some q → q ∉ s.ftl.cached → Completes .backgroundMapLoad s (fun t => t.ftl.cached = s.ftl.cached ++ [q] ∧
        t.ftl.map = s.ftl.map ∧
        t.ftl.bgLoad = (if s.ftl.cached.length + 1 < mapCachePages then (nextMapPage (q + 1) s).map (fun _ => q + 1) else none))) ∧
      (bgPage s = none → Completes .backgroundMapLoad s (fun t => t = { s with ftl := { s.ftl with bgLoad := none } }))))

/-- R133, R134, R136, R138, R139, R141, R149: garbage collection, wear levelling, secure discard and relocation, each when it is its turn in
the order of R136 (`turnOf`). `takeSlots` gives each unit a channel of the target, the least filled first (log entry 15). -/
def Obligations.CollectAndRelocate : Prop :=
  ∀ s : State, OnlyFetched s → (∀ k, (chanAt k s).retired = false) →
    let copies (source g : Nat) (us : List Nat) (t : State) : Prop :=
      let slots := (takeSlots g us s).1
      t.ftl.copies = s.ftl.copies ++ [⟨s.ftl.nextMove, g, source, slots⟩] ∧ t.ftl.map = s.ftl.map ∧
        (∀ p ∈ slots, ∃ o ∈ (chanAt p.2 t).queue, o.kind = .progQlc ∧ o.use = .copy ∧ o.cls = 4 ∧ o.sb = g ∧ o.tag = s.ftl.nextMove) ∧
        ∀ p ∈ slots, ∀ u, iuAt p.1 s = some u → ∃ o ∈ (chanAt u.chan t).queue, o.kind = .read ∧ o.use = .copy ∧ o.cls = 4 ∧ o.key = p.1
    let goesTo (source g : Nat) : Prop := mappedTo source s ≠ [] ∧ copying source s = false ∧ targetOf .gcTarget (sbAt source s).sd none s = some g
    let valid (i : Nat) : Nat := (mappedTo i s).length
    (∀ v b g, SMap.sorted s.ftl.sbs = true → SMap.find s.ftl.sbs v = some b → b.use = .full → b.slc = false → valid v < usedUnits b →
      (∀ e ∈ s.ftl.sbs, e.1 ≠ v → e.2.use = .full → e.2.slc = false → valid e.1 < usedUnits e.2 → copying e.1 s = false →
        (usedUnits e.2 - valid e.1) * (ageHours e.2 s + 1) * usedUnits b < (usedUnits b - valid v) * (ageHours b s + 1) * usedUnits e.2) →
      turnOf (if freeQlcSbs s < 96 then 1 else 6) s = true → goesTo v g → Completes .garbageCollection s (copies v g (mappedTo v s))) ∧
    (∀ source m bc bad, s.ftl.copies.find? (fun x => x.source == source) = some m →
      (mode s ≠ 10 → (sbAt source s).suspect = [] → (sbAt source s).unstable = [] →
        Completes (.gcCopyLanded source true bc bad) s (fun t => t.ftl.copies = s.ftl.copies.erase m ∧
          (∀ p ∈ stillThere m s, ∀ u, iuAt p.1 s = some u →
            (p.1 ∉ bad → ∃ v, iuAt p.1 t = some v ∧ v.sb = m.target ∧ v.data = u.data ∧ v.uncorr = u.uncorr) ∧
            (p.1 ∈ bad → ∃ v, iuAt p.1 t = some v ∧ v.uncorr = true)) ∧
          ∀ k, k ∉ (stillThere m s).map (·.1) → iuAt k t = iuAt k s)) ∧
      (mode s ≠ 10 → m.slots.any (fun p => p.2 == bc) = true → source ≠ m.target → m.target < s.ftl.nextSb →
        (sbAt source s).suspect = [] → (sbAt source s).unstable = [] →
        Completes (.gcCopyLanded source false bc bad) s (fun t => bc ∈ (sbAt m.target t).suspect ∧
          ∀ p ∈ m.slots, (∀ q ∈ m.slots, q.1 = p.1 → q.2 = bc) → p.1 ∉ bad → iuAt p.1 t = iuAt p.1 s)) ∧
      (∀ ok, mode s = 10 → Completes (.gcCopyLanded source ok bc bad) s (fun t => t.ftl.copies = s.ftl.copies.erase m ∧ t.ftl.map = s.ftl.map))) ∧
    (∀ i b g, SMap.sorted s.ftl.sbs = true → SMap.find s.ftl.sbs i = some b → b.use = .full → wearMin s + 4000 < wearMax s →
      (∀ e ∈ s.ftl.sbs, e.1 ≠ i → e.2.use = .full → copying e.1 s = false → sbWear b s < sbWear e.2 s) → turnOf 5 s = true → goesTo i g →
      Completes .wearLevelling s (copies i g (mappedTo i s))) ∧
    (∀ i n rest b g, s.ftl.discard = (i, n) :: rest → SMap.sorted s.ftl.sbs = true → SMap.find s.ftl.sbs i = some b → b.use = .full →
      turnOf 4 s = true → goesTo i g → Completes .secureDiscard s (copies i g (mappedTo i s))) ∧
    (∀ i n rest b, s.ftl.discard = (i, n) :: rest → SMap.sorted s.ftl.sbs = true → SMap.find s.ftl.sbs i = some b → b.use = .full →
      b.blocks ≠ [] → b.waits = [] → mappedTo i s = [] → awaited i s = false → copying i s = false → turnOf 4 s = true →
      Completes .secureDiscard s (fun t => (sbAt i t).use = .erasing ∧ t.ftl.discard = s.ftl.discard ∧ t.ftl.map = s.ftl.map ∧
        ∀ c k, SMap.find b.blocks c = some k → (blkAt c k s).st = .used → ∃ o ∈ (chanAt c t).queue, o.kind = .erase ∧ o.cls = 5 ∧ o.sb = i)) ∧
    (∀ i b g, SMap.find s.ftl.sbs i = some b → SMap.sorted s.ftl.sbs = true → b.suspect ++ b.unstable ≠ [] →
      (∀ e ∈ s.ftl.sbs, e.1 ≠ i → e.2.suspect = [] ∧ e.2.unstable = []) → turnOf 2 s = true →
      let us := (b.suspect ++ b.unstable).flatMap (fun c => unitsOn i c s)
      us ≠ [] → goesTo i g → Completes .relocation s (copies i g us))

/-- R20, R155, R156, R173, R242: the end of a page read, its escalation, a rebuild, and a unit that fails its check. -/
def Obligations.PageReads : Prop :=
  ∀ (s : State) (chan : Nat), chan < 32 → SMap.sorted s.media.chans = true → (chanAt chan s).retired = false →
    let up1 (r : Nat → Nat) (w : Nat) (t : State) : Prop := (rd (r chan) t).toNat = Nat.min ((rd (r chan) s).toNat + 1) (2 ^ w - 1)
    let same (r : Nat → Nat) (t : State) : Prop := rd (r chan) t = rd (r chan) s
    let moves (o : ChanOp) : Prop := o.use = .patrol ∨ o.use = .fold ∨ o.use = .copy
    let contributes (o : ChanOp) (t : State) : Prop := ∀ e ∈ (sbAt o.sb s).blocks, e.1 ≠ chan → (chanAt e.1 s).retired = false →
      ∃ q ∈ (chanAt e.1 t).queue, q.kind = .read ∧ q.use = .contrib ∧ q.cls = o.cls ∧ q.sb = o.sb ∧ q.key = o.key ∧ q.handle = chan
    (∀ die o, SMap.find (chanAt chan s).dies die = some o → o.kind = .read → o.cls = 4 → moves o →
      (SMap.find (sbAt o.sb s).blocks chan).isSome = true →
      Completes (.pageReadDone chan die .hard) s (fun t => up1 Reg.CHE_CNT_READ 64 t ∧ same Reg.CHE_CNT_RRETRY t ∧ same Reg.CHE_CNT_SOFT t ∧
        same Reg.CHE_CNT_REBUILD t ∧ SMap.find (chanAt chan t).dies die = none ∧ (blkOn o.sb chan t).reads = (blkOn o.sb chan s).reads + 1 ∧
        (blkOn o.sb chan t).remembered = (blkOn o.sb chan s).remembered) ∧
      (∀ set, set < 8 → set ≠ (blkOn o.sb chan s).remembered → Completes (.pageReadDone chan die (.retry set)) s (fun t => up1 Reg.CHE_CNT_READ 64 t ∧
        up1 Reg.CHE_CNT_RRETRY 32 t ∧ same Reg.CHE_CNT_SOFT t ∧ same Reg.CHE_CNT_REBUILD t ∧ (blkOn o.sb chan t).remembered = set ∧
        SMap.find (chanAt chan t).dies die = none)) ∧
      Completes (.pageReadDone chan die .soft) s (fun t => up1 Reg.CHE_CNT_READ 64 t ∧ up1 Reg.CHE_CNT_SOFT 32 t ∧ same Reg.CHE_CNT_RRETRY t ∧
        (blkOn o.sb chan t).refresh = true ∧ SMap.find (chanAt chan t).dies die = none) ∧
      Completes (.pageReadDone chan die .fail) s (fun t => same Reg.CHE_CNT_RRETRY t ∧ same Reg.CHE_CNT_SOFT t ∧
        (blkOn o.sb chan t).refresh = true ∧ (chanAt chan t).rebuilds = (chanAt chan s).rebuilds ++ [⟨o, true, false, false⟩] ∧ contributes o t)) ∧
    (∀ die o, SMap.find (chanAt chan s).dies die = some o → o.kind = .read → o.use = .contrib → o.cls ≠ 6 → o.handle ≠ chan →
      Completes (.pageReadDone chan die .fail) s (fun t => (chanAt o.handle t).rebuilds = (chanAt o.handle s).rebuilds.map (fun r =>
        if r.op.key = o.key ∧ r.op.sb = o.sb then { r with failed := true } else r))) ∧
    (∀ die o x n iu, SMap.find (chanAt chan s).dies die = some o → o.kind = .read → o.use = .unit → o.cls = 1 → o.key % 2 ^ 40 = iu →
      InPhase o.tag .started [.read] x s → x.need = [iu] → (∀ j ∈ iusOf x s, j ∈ x.looked) → nsAt x.nsid s = some n →
      x.compareOnly = false → x.verifyOnly = false →
      let bs := blocksOf (lbasPerIu n.flbas) n.flbas (fun j => SMap.getD x.got j []) x.lba x.nlb
      checkBlocks n.dps n.flbas x.pr x.lba bs = none →
      let gives := Returned x (hostBytesOf n.flbas n.ext (x.pr.pract && n.dps != 0) bs) s
      Completes (.pageReadDone chan die .hard) s gives ∧
      (lightPath o.key s = some true → Completes (.pageReadDone chan die (.check true none)) s (fun t => gives t ∧
        fget (Fl.CMP_EVENT_CHECK_FAIL 0) t = 1 ∧ up1 (Reg.CMP_LD_CNT_FAIL 0) 32 t))) ∧
    (∀ die o light e, SMap.find (chanAt chan s).dies die = some o → o.kind = .read → o.use = .unit → o.cls = 1 →
      lightPath o.key s = some light → e < 4 →
      Completes (.pageReadDone chan die (.check light (some e))) s (fun t => up1 Reg.CHE_CNT_READ 64 t ∧ fget (Fl.CMP_EVENT_CHECK_FAIL e) t = 1 ∧
        (light = true → fget (Fl.CMP_EVENT_LD_FAIL 0) t = 1) ∧ t.nv = s.nv ∧
        (chanAt chan t).rebuilds = (chanAt chan s).rebuilds ++ [⟨o, false, true, false⟩] ∧ contributes o t)) ∧
    (∀ key o, (chanAt chan s).rebuilds.find? (fun r => r.op.key == key) = some ⟨o, true, false, false⟩ → moves o →
      let is (q : ChanOp) : Bool := q.use == .contrib && q.handle == chan && q.key == key && q.sb == o.sb
      let ended (c : Chan) : Nat := ((c.queue ++ c.dies.map (·.2) ++ c.susp.map (·.2)).filter (fun q => is q && q.kind == .read && q.cls != 6)).length
      Completes (.rebuildComplete chan key true) s (fun t => up1 Reg.CHE_CNT_REBUILD 32 t ∧ fget (Fl.CHE_EVENT_REBUILD chan) t = 1 ∧
        (chanAt chan t).rebuilds = (chanAt chan s).rebuilds.erase ⟨o, true, false, false⟩ ∧ ∀ n, n < 32 → n ≠ chan →
          (rd (Reg.CHE_CNT_READ n) t).toNat = Nat.min ((rd (Reg.CHE_CNT_READ n) s).toNat + ended (chanAt n s)) (2 ^ 64 - 1) ∧
          hasOp is (chanAt n t) = false)) ∧
    (∀ key o, (chanAt chan s).rebuilds.find? (fun r => r.op.key == key) = some ⟨o, false, false, false⟩ → moves o →
      Completes (.rebuildComplete chan key true) s (fun t => same Reg.CHE_CNT_REBUILD t ∧ rd (Reg.CHE_EVENT chan) t = rd (Reg.CHE_EVENT chan) s)) ∧
    (∀ key ok o b x iu failed, (chanAt chan s).rebuilds.find? (fun r => r.op.key == key) = some ⟨o, b, false, failed⟩ → ok = false ∨ failed = true →
      o.use = .unit → o.cls = 1 → o.key % 2 ^ 40 = iu → InPhase o.tag .started [.read] x s → iu ∈ x.need →
      Completes (.rebuildComplete chan key ok) s (fun t => Failed x 2 0x81 true s t ∧ fget (Fl.CHE_EVENT_UNCORR chan) t = 1)) ∧
    (∀ key o x iu, (chanAt chan s).rebuilds.find? (fun r => r.op.key == key) = some ⟨o, false, true, false⟩ → o.use = .unit → o.cls = 1 →
      o.key % 2 ^ 40 = iu → InPhase o.tag .started [.read] x s → iu ∈ x.need →
      Completes (.rebuildComplete chan key false) s (fun t => Failed x 2 0x81 true s t ∧ ∃ e, e < 4 ∧ fget (Fl.CMP_EVENT_CHECK_FAIL e) t = 1))

/-- R157–R163, R174, R175: what a channel engine issues, suspends, resumes and holds. `chanIssues`: it is powered, not failed and not held, no
microcode switch and no entry to idle is under way; `keyReady`: a slot holds the key of the operation. -/
def Obligations.ChannelScheduling : Prop :=
  ∀ (s : State) (chan : Nat) (bus : Bool), chan < 32 →
    let c := chanAt chan s
    let draw (k : DieKind) : Nat := match k with
      | .read => 50 | .progSlc => 60 | .progQlc => 60 | .erase => 120
    let load : Nat := (if bus then 250 else 0) + (c.dies.map (fun e => draw e.2.kind)).sum
    let may (o : ChanOp) : Prop := keyReady o s = true ∧ (mode s = 8 → o.use ≠ .scan) ∧ SMap.find c.dies o.die = none
    (chanIssues chan s = true →
      (∀ fold pre o rest, c.queue = pre ++ o :: rest → (∀ q ∈ pre, q.cls ≠ 1) → o.cls = 1 → o.kind = .read → may o →
        (load + 50 ≤ fget (Fl.CHE_GOV_CFG_BUDGET chan) s →
          Completes (.governorAdmit chan bus fold) s (fun t => SMap.find (chanAt chan t).dies o.die = some o ∧
            (chanAt chan t).queue = c.queue.erase o ∧ fget (Fl.CHE_STATUS_GOV_WAIT chan) t = 0)) ∧
        (fget (Fl.CHE_GOV_CFG_BUDGET chan) s < load + 50 →
          Completes (.governorAdmit chan bus fold) s (fun t => t.media = s.media ∧ fget (Fl.CHE_STATUS_GOV_WAIT chan) t = 1))) ∧
      (∀ fold o, c.queue = [o] → o.cls = 5 → o.kind = .erase → o.use = .erase → SMap.find c.dies o.die = none → c.susp = [] → mode s ≠ 8 →
        (∀ q ∈ c.backoff ++ c.rebuilds.map (·.op), q.kind = .read → q.sb ≠ o.sb) →
        (erasing c < fget (Fl.CHE_GOV_CFG_ERASE_MAX chan) s → load + 120 ≤ fget (Fl.CHE_GOV_CFG_BUDGET chan) s →
          Completes (.governorAdmit chan bus fold) s (fun t => (chanAt chan t).queue = [] ∧ SMap.find (chanAt chan t).dies o.die = some { o with
            suspends := 0, minRun := fget (Fl.CHE_SUSP_CFG_ERS_MIN_RUN chan) s, maxSusp := fget (Fl.CHE_SUSP_CFG_ERS_MAX chan) s })) ∧
        (fget (Fl.CHE_GOV_CFG_ERASE_MAX chan) s ≤ erasing c →
          Completes (.governorAdmit chan bus fold) s (fun t => t.media = s.media ∧ fget (Fl.CHE_STATUS_GOV_WAIT chan) t = 1))) ∧
      (∀ o, c.queue = [o] → o.cls = 6 → o.kind = .read → may o →
        (load + 50 ≤ fget (Fl.CHE_GOV_CFG_BUDGET chan) s → Completes (.preReadIssue chan bus) s (fun t =>
          (chanAt chan t).queue = [] ∧ SMap.find (chanAt chan t).dies o.die = some o)) ∧
        (fget (Fl.CHE_GOV_CFG_BUDGET chan) s < load + 50 → Completes (.preReadIssue chan bus) s (fun t =>
          t.media = s.media ∧ fget (Fl.CHE_STATUS_GOV_WAIT chan) t = 1))) ∧
      (∀ o q, c.queue = [o, q] → o.cls = 6 → q.cls = 1 → q.kind = .read → may q →
        Completes (.preReadIssue chan bus) s (fun t => t = s))) ∧
    (chanIssues chan s = false → ∀ fold, Completes (.governorAdmit chan bus fold) s (fun t => t = s) ∧
      Completes (.preReadIssue chan bus) s (fun t => t = s)) ∧
    (∀ die run o q, chanUp chan s = true → SMap.find c.dies die = some o → q ∈ c.queue → q.die = o.die → q.kind = .read →
      (o.kind = .erase ∧ q.cls ≤ 3) ∨ (o.kind = .progQlc ∧ q.cls = 1) →
      (o.minRun ≤ run → o.suspends < o.maxSusp → Completes (.eraseSuspend chan die run) s (fun t =>
        SMap.find (chanAt chan t).dies die = none ∧ SMap.find (chanAt chan t).susp die = some { o with suspends := o.suspends + 1 } ∧
        (rd (Reg.CHE_CNT_SUSPEND chan) t).toNat = Nat.min ((rd (Reg.CHE_CNT_SUSPEND chan) s).toNat + 1) (2 ^ 32 - 1) ∧
        (o.suspends + 1 = o.maxSusp → fget (Fl.CHE_EVENT_SUSP_LIMIT chan) t = 1))) ∧
      (run < o.minRun ∨ o.maxSusp ≤ o.suspends → Completes (.eraseSuspend chan die run) s (fun t => t = s))) ∧
    (∀ die limit o, SMap.find c.susp die = some o → SMap.find c.dies die = none → (mode s = 8 → o.kind ≠ .erase) →
      (limit = true ∨ ∀ q ∈ c.queue, q.die = die → q.kind = .read → 3 < q.cls) →
      (load + draw o.kind ≤ fget (Fl.CHE_GOV_CFG_BUDGET chan) s → (o.kind = .erase → erasing c < fget (Fl.CHE_GOV_CFG_ERASE_MAX chan) s) →
        Completes (.suspendResume chan die limit bus) s (fun t =>
          SMap.find (chanAt chan t).dies die = some o ∧ SMap.find (chanAt chan t).susp die = none)) ∧
      (fget (Fl.CHE_GOV_CFG_BUDGET chan) s < load + draw o.kind → Completes (.suspendResume chan die limit bus) s (fun t =>
        t.media = s.media ∧ fget (Fl.CHE_STATUS_GOV_WAIT chan) t = 1))) ∧
    (∀ v, chanUp chan s = true → Completes (.channelHold chan v) s (fun t => fget (Fl.CHE_CTRL_HOLD chan) t = v % 2 ∧
      fget (Fl.CHE_STATUS_STATE chan) t = (if v % 2 = 1 then 3 else 1) ∧
      fget (Fl.CHE_CTRL_HELD chan) t = (if v % 2 = 1 ∧ c.dies = [] then 1 else 0) ∧ t.media = s.media)) ∧
    (∀ sb b, chanUp chan s = true → SMap.find (sbAt sb s).blocks chan = some b → Completes (.patrolRead chan (blkDie b) sb) s (fun t =>
      (chanAt chan t).queue = c.queue ++ [mkOp .read .patrol 4 (blkDie b) sb 0 0]))

/-- R137, R138, R153, R164–R172: retries, resets, calibration, erases, timeouts, permanent failure and retirement. `recentFail`: another retry
sequence has failed within 10 s. -/
def Obligations.ChannelFaults : Prop :=
  ∀ (s : State) (chan : Nat), chan < 32 → SMap.sorted s.media.chans = true →
    let c := chanAt chan s
    let readsOnly : Prop := (∀ e ∈ c.dies, e.2.kind = .read) ∧ c.susp = []
    (∀ die o cal, c.backoff.find? (fun x => x.die == die) = some o →
      Completes (.retryBackoffExpiry chan die true cal) s (fun t => (chanAt chan t).queue = { o with retries := 0 } :: c.queue ∧
        (chanAt chan t).backoff = c.backoff.erase o ∧ fget (Fl.CHE_EVENT_BUS_RETRY chan) t = 1 ∧
        (rd (Reg.CHE_CNT_BUSRETRY chan) t).toNat = Nat.min ((rd (Reg.CHE_CNT_BUSRETRY chan) s).toNat + 1) (2 ^ 32 - 1)) ∧
      (o.retries < 2 → Completes (.retryBackoffExpiry chan die false cal) s (fun t =>
        (chanAt chan t).backoff = c.backoff.erase o ++ [{ o with retries := o.retries + 1 }] ∧ fget (Fl.CHE_EVENT_BUS_RETRY chan) t = 1)) ∧
      (2 ≤ o.retries → o.kind = .read → o.use ≠ .contrib → chanUp chan s = true → readsOnly →
        Completes (.retryBackoffExpiry chan die false true) s (fun t =>
          fget (Fl.CHE_EVENT_RETRY_FAIL chan) t = 1 ∧ fget (Fl.CHE_FAIL_HIST_SEQ_FAIL chan) t = Nat.min (fget (Fl.CHE_FAIL_HIST_SEQ_FAIL chan) s + 1) 255 ∧
          (chanAt chan t).rebuilds = c.rebuilds ++ [⟨{ o with retries := 0 }, false, false, false⟩] ∧ fget (Fl.CHE_CAL_OK chan) t = 1 ∧
          (chanAt chan t).failed = (c.failed || recentFail c s)))) ∧
    (∀ us, chanUp chan s = true → readsOnly →
      (mode s ≠ 8 → Completes (.channelReset chan true us) s (fun t =>
        (chanAt chan t).dies = [] ∧ (chanAt chan t).queue = c.dies.map (·.2) ++ c.queue ∧
        fget (Fl.CHE_CAL_OK chan) t = 1 ∧ fget (Fl.CHE_CAL_FAIL_RUN chan) t = 0 ∧ fget Fl.AON_RST_CAUSE_CHANNEL t = 1)) ∧
      (mode s = 8 → Completes (.channelReset chan true us) s (fun t =>
        t = { s with pow := { s.pow with waitResets := s.pow.waitResets ++ [.channel chan true us] } }))) ∧
    (∀ us again, chanUp chan s = true → Completes (.calibrate chan true again us) s (fun t => OnlyRegs [Reg.CHE_CAL chan] s t ∧
      fget (Fl.CHE_CAL_OK chan) t = 1 ∧ fget (Fl.CHE_CAL_BUSY chan) t = 0 ∧ fget (Fl.CHE_CAL_FAIL_RUN chan) t = 0 ∧
      fget (Fl.CHE_CAL_LAST_US chan) t = Nat.min us 255) ∧
      (serving s = true → Completes (.periodicCalibration chan true again us) s (fun t => OnlyRegs [Reg.CHE_CAL chan] s t ∧
        fget (Fl.CHE_CAL_OK chan) t = 1 ∧ fget (Fl.CHE_CAL_LAST_US chan) t = Nat.min us 255))) ∧
    (∀ us again, chanUp chan s = true → fget (Fl.CHE_CAL_FAIL_RUN chan) s = 1 →
      Completes (.calibrate chan false again us) s (fun t => (chanAt chan t).failed = true ∧ fget (Fl.CHE_CAL_OK chan) t = 0 ∧
        fget (Fl.CHE_CAL_FAIL_RUN chan) t = 2 ∧ fget (Fl.CHE_EVENT_CAL_FAIL chan) t = 1)) ∧
    (∀ fail key req, chanUp chan s = true → (fail = true ∧ c.failed = true) ∨ (fail = false ∧ key % 256 = 0xC3) → s.media.retireOrder = [] →
      Completes (.channelRetire chan fail key req) s (fun t => (chanAt chan t).retired = true ∧ (chanAt chan t).secondFail = false ∧
        t.media.retireOrder = [chan] ∧ (chanAt chan t).queue = [] ∧ (chanAt chan t).dies = [] ∧ fget (Fl.CHE_EVENT_RETIRED chan) t = 1)) ∧
    (∀ fail key req first, chanUp chan s = true → (fail = true ∧ c.failed = true) ∨ (fail = false ∧ key % 256 = 0xC3) →
      s.media.retireOrder = [first] → mode s = 4 → fget Fl.AON_MODE_TRANS s = 0 → fget Fl.AON_MODE_RO_CAUSE s = 0 →
      Completes (.channelRetire chan fail key req) s (fun t => (chanAt chan t).retired = true ∧ (chanAt chan t).secondFail = true ∧
        mode t = 10 ∧ fget Fl.AON_MODE_RO_CAUSE t = 3)) ∧
    (∀ key req, chanUp chan s = true → key % 256 ≠ 0xC3 → Completes (.channelRetire chan false key req) s (OnlyMarked [] s)) ∧
    (∀ key req, c.failed = false → Completes (.channelRetire chan true key req) s (fun t => t = s)) ∧
    (∀ die o, SMap.find c.dies die = some o → o.cls ≠ 6 →
      let blocks := (sbAt o.sb s).blocks
      (Completes (.dieTimeout chan die .bus) s (fun t => SMap.find (chanAt chan t).dies die = none ∧
        (chanAt chan t).backoff = c.backoff ++ [{ o with retries := 0 }])) ∧
      (o.kind = .read → Completes (.dieTimeout chan die .timeout) s (fun t => SMap.find (chanAt chan t).dies die = none ∧
        (chanAt chan t).backoff = c.backoff ++ [{ o with retries := 0 }])) ∧
      (Completes (.dieTimeout chan die .dead) s (fun t => fget (Fl.CHE_EVENT_RETRY_FAIL chan) t = 1 ∧ die ∈ (chanAt chan t).dead)) ∧
      (o.kind = .progSlc ∨ o.kind = .progQlc → o.sb < s.ftl.nextSb → Completes (.dieTimeout chan die .timeout) s (fun t => chan ∈ (sbAt o.sb t).suspect ∧
        fget (Fl.CHE_EVENT_UNSTABLE chan) t = 1 ∧ fget (Fl.CHE_EVENT_PROG_FAIL chan) t = 1 ∧ SMap.find (chanAt chan t).dies die = none)) ∧
      (∀ b, o.kind = .erase → SMap.find blocks chan = some b →
        let key := 8 * chan + blkDie b
        let lost (t : State) : Prop := t.ftl.eraseRetired = s.ftl.eraseRetired + 1 ∧ retiredOn key t = retiredOn key s + 1 ∧
          fget (Fl.CHE_EVENT_ERASE_FAIL chan) t = 1
        Completes (.dieTimeout chan die .timeout) s lost ∧ Completes (.eraseDone chan die false) s lost ∧
        Completes (.eraseDone chan die true) s (fun t =>
          (rd (Reg.CHE_CNT_ERASE chan) t).toNat = Nat.min ((rd (Reg.CHE_CNT_ERASE chan) s).toNat + 1) (2 ^ 32 - 1) ∧
          SMap.find (chanAt chan t).dies die = none ∧ t.ftl.eraseRetired = s.ftl.eraseRetired ∧
          ((sbAt o.sb s).use ≠ .preparing → t.ftl.unflushed = s.ftl.unflushed + 16 ∧ (blkAt chan b t).st = .erased ∧
            (blkAt chan b t).wear = Nat.min ((blkAt chan b s).wear + (if (sbAt o.sb s).slc then 1 else 20)) 16777215 ∧
            (blkAt chan b t).remembered = 0 ∧ (blkAt chan b t).reads = 0))))

/-- R177–R180, R188, R192–R197, R201, R204, R393, R453: scan jobs: submission and acceptance, the map walk, evaluation of a unit that has been
read, output, limits, aborts and the end of a job. -/
def Obligations.ScanJobs : Prop :=
  (∀ s : State,
    (∀ tag x off, Ready tag [.program] x s → computeNs x s = true → mode s ≠ 9 → off % 64 = 0 → off + 256 ≤ slmSize (funcOf x.ctrl s) s →
      let f := funcOf x.ctrl s
      let waiting := s.scan.jobs.filter (fun j => j.run.isNone)
      (waiting.length < 4096 → (waiting.filter (fun j => j.func == f)).length < (resOf f s).scanQ →
        Completes (.scan tag off) s (fun t => t.scan.jobs = s.scan.jobs ++ [⟨s.scan.nextNum, f, x.ctrl, none, some tag, none, .host f, off, none⟩] ∧
          cmdAt tag t = some { x with phase := .started })) ∧
      (4096 ≤ waiting.length → s.scan.jobs.all (fun j => j.num != s.scan.nextNum) = true → Completes (.scan tag off) s (fun t =>
        t.scan.jobs = s.scan.jobs ∧ Answered { x with phase := .started } 7 0xD5 false 9 s.scan.nextNum [] s t))) ∧
    (∀ tag x off, Ready tag [.program] x s → computeNs x s = true → mode s ≠ 9 → off % 64 ≠ 0 ∨ slmSize (funcOf x.ctrl s) s < off + 256 →
      Completes (.scan tag off) s (Failed x 0 0x02 true s)) ∧
    (∀ j c bs, nextScan s = some j → c < 4 → (∀ i, i < c → ∃ k ∈ s.scan.jobs, ∃ r, k.run = some r ∧ r.ctx = i) →
      (∀ k ∈ s.scan.jobs, ∀ r, k.run = some r → r.ctx ≠ c) → mode s = 4 ∨ mode s = 5 ∨ mode s = 10 → fget Fl.MGT_THERM_LEVEL s ≠ 3 →
      readSpace j.sp j.addr 256 s = some bs →
      let feat := featureValue 0xC1 s
      (∀ d cb, j.addr % 64 = 0 → scanDescOf bs (feat / 65536 % 4) (feat % 65536) = some d → scanDescFits j.sp j.func d s = true → d.patCount = 0 →
        d.ring = false → readSpace j.sp d.codeAddr (8 * d.instrCount) s = some cb →
        let code := codeWords cb d.instrCount
        let first := d.slba / nsK d.nsid s
        firstBad (d.framing == 2) (fun t => tableWords t s) 0 0 [] 0 (code.map finsOf) = none →
        Completes .scanJobAccepted s (fun t =>
          (∃ q, scanAt j.num t = some { j with run := some q } ∧ q.ctx = c ∧ q.desc = d ∧ q.code = code ∧ q.mark = s.ftl.landings ∧
            q.work = (List.range 32).filter (fun n => chanUp n s) ∧ q.limit = d.timeLimit ∧ q.done = [] ∧ q.cnt = ScanCnt.zero ∧ q.stop = none) ∧
          (∀ n, n < 32 → chanUp n s = true → fget (Fl.CHE_SF_CTX_STATE_STATE n c) t = 1 ∧ fget (Fl.CHE_SF_CTX_JOB_JOB n c) t = j.num % 4096) ∧
          ∀ u n, iuAt (mapKey d.nsid first) s = some u → nsAt d.nsid s = some n → u.uncorr = false → n.keyLost = false →
            (chanAt u.chan s).retired = false → fget (Fl.CHE_STATUS_REBUILD_ONLY u.chan) s = 0 → u.chan < 32 →
            ∃ o ∈ (chanAt u.chan t).queue, o.kind = .read ∧ o.use = .scan ∧ o.cls = 3 ∧ o.tag = j.num ∧ o.key = mapKey d.nsid first)) ∧
      (∀ tag x, j.addr % 64 ≠ 0 ∨ scanDescOf bs (feat / 65536 % 4) (feat % 65536) = none → j.tag = some tag → j.letter = none →
        InPhase tag .started [.program] x s →
        Completes .scanJobAccepted s (fun t => Answered x 7 0xD5 true 7 j.num [] s t ∧ scanAt j.num t = none)) ∧
      (∀ tag x d cb i, j.addr % 64 = 0 → scanDescOf bs (feat / 65536 % 4) (feat % 65536) = some d → scanDescFits j.sp j.func d s = true →
        d.patCount = 0 → readSpace j.sp d.codeAddr (8 * d.instrCount) s = some cb →
        firstBad (d.framing == 2) (fun t => tableWords t s) 0 0 [] 0 ((codeWords cb d.instrCount).map finsOf) = some i →
        j.tag = some tag → j.letter = none → InPhase tag .started [.program] x s →
        Completes .scanJobAccepted s (fun t => Answered x 7 0xD5 true (8 + i * 65536) j.num [] s t ∧ scanAt j.num t = none)))) ∧
  (∀ (s : State) (num : Nat) (j : ScanJob) (r : ScanRun), scanAt num s = some j → j.run = some r → (∀ k ∈ s.scan.jobs, k.num = num → k = j) →
    let d := r.desc
    let run (t : State) : Option ScanRun := (scanAt num t).bind (·.run)
    let k := nsK d.nsid s
    let first := d.slba / k
    let last := (d.slba + d.nlb - 1) / k
    let whole : Prop := d.framing = 0 ∧ d.reclen = 16384 ∧ d.base = 0 ∧ d.slba % k = 0 ∧ d.nlb % k = 0 ∧ r.frags = [] ∧ k ≠ 0 ∧ 16384 % k = 0
    (∀ iu via x n, r.reads.find? (fun y => y.iu == iu) = some x → scanModes s = true → r.stop = none → r.held = [] → nsAt d.nsid s = some n →
      (x.chan = none ∨ ∃ c, x.chan = some c ∧ (chanUp c s = true → c = via)) → chanUp via s = true →
      (∀ y ∈ r.reads, y.iu < iu → y.chan.isSome = true → y.chan ≠ x.chan) →
      let goes (extra : ScanCnt) : Prop := Completes (.scanIuEvaluate num iu via) s (fun t =>
        ∃ q, run t = some q ∧ q.done = r.done ++ [iu] ∧ q.outBytes = r.outBytes ∧ q.stop = none ∧ q.cnt = ScanCnt.add r.cnt extra)
      let plain : Prop := whole ∧ seamBytes s = 0 ∧ r.code = [0] ∧ first ≤ iu ∧ iu ≤ last
      (x.src = .skipped → plain → goes { ScanCnt.zero with dealloc := 1, framed := 1, truncated := 1 }) ∧
      (x.src = .zeros → plain → goes { ScanCnt.zero with framed := 1 }) ∧
      (x.src = .read → plain → (iuBytes n.flbas x.data).length = 16384 →
        goes { ScanCnt.zero with read := 1, framed := 1, late := if x.late then 1 else 0 }) ∧
      (x.src = .unread → d.unread = true → Completes (.scanIuEvaluate num iu via) s (fun t => fget (Fl.CHE_SF_EVENT_UNREAD via) t = 1 ∧
        ∃ q, run t = some q ∧ q.stop = some 3 ∧ q.reads = [] ∧ q.cnt.unread = r.cnt.unread + 1 ∧ q.done = r.done ∧ q.firstBad = some (match r.firstBad with
          | some b => min b (max d.slba (iu * k)) | none => max d.slba (iu * k)))) ∧
      (x.src = .unread → d.unread = false → plain → goes { ScanCnt.zero with unread := 1, framed := 1, truncated := 1 }) ∧
      (x.src = .queued → Completes (.scanIuEvaluate num iu via) s (fun t => t = s))) ∧
    (∀ chan h e, SMap.find r.held chan = some h → h.entries = [e] → d.ring = true → r.code = [0] → h.aggs = [] →
      let seg := d.outSize / 32 / 4096 * 4096
      let p := SMap.getD r.used chan 0
      let c := fieldAt ((readSpace j.sp (d.outAddr + chan * seg + 8) 8 s).getD []) 0 8
      (p + e.length < seg → c ≤ p → p - c + e.length < seg - 64 → Completes (.outputRingSpace num chan) s (fun t =>
        fget (Fl.CHE_SF_STATUS_OUT_WAIT chan) t = 0 ∧ ∃ q, run t = some q ∧ SMap.find q.held chan = none ∧ q.done = r.done ++ [h.iu] ∧
          SMap.getD q.used chan 0 = p + e.length ∧ q.outBytes = r.outBytes + e.length ∧ q.cnt = ScanCnt.add r.cnt h.cnt)) ∧
      (p + e.length ≤ seg → c ≤ p → seg - 64 ≤ p - c + e.length →
        Completes (.outputRingSpace num chan) s (fun t => ∃ q, run t = some q ∧ SMap.find q.held chan = some h ∧ q.done = r.done))) ∧
    (r.limit ≠ 0 → r.stop = none → Completes (.scanTimeLimit num) s (fun t => run t = some { r with stop := some 6, reads := [] } ∧
      ∀ n ∈ r.work, fget (Fl.CHE_SF_CTX_STATE_STATE n r.ctx) t = 3)) ∧
    (r.limit = 0 → Completes (.scanTimeLimit num) s (fun t => t = s)) ∧
    (∀ chan mask req, chanUp chan s = true → mask % 16 / 2 ^ r.ctx % 2 = 1 → chan ∈ r.work → r.stop = none → s.scan.jobs = [j] →
      Completes (.scanContextAbort chan mask req) s (fun t => run t = some { r with stop := some 10, reads := [] } ∧
        fget (Fl.CHE_SF_EVENT_CTX_ABORT chan) t = 1)) ∧
    (∀ chan mask req, chanUp chan s = false → Completes (.scanContextAbort chan mask req) s (OnlyMarked [] s)) ∧
    (∀ tag x st, j.tag = some tag → j.letter = none → InPhase tag .started [.program] x s →
      (r.stop = some st ∨ (r.stop = none ∧ st = 0 ∧ ∀ iu, first ≤ iu → iu ≤ last → iu ∈ r.done)) → st ∉ [7, 8, 9] →
      Completes (.scanJobComplete num) s (fun t => scanAt num t = none ∧ (∀ n ∈ r.work, n < 32 → fget (Fl.CHE_SF_CTX_STATE_STATE n r.ctx) t = 0) ∧
        (st = 0 → Answered x 0 0 false 0 num [] s t) ∧ (st ≠ 0 → Answered x 7 0xD4 (st == 4) st num [] s t))))

/-- R205, R206, R208–R215, R220, R222, R224, R226: searches and updates of logical tables; a soft error of the array (`.every` makes an entry
match every key) is verified away against the shadow. -/
def Obligations.MatchTables : Prop :=
  ∀ (s : State) (f n : Nat), tblVisible f n s = true → (tblAt n s).glo ≤ (tblAt n s).ghi →
    let t := tblAt n s
    let rows (r i : Nat) : Nat × Nat := (t.first + r * t.len + i / t.perBank, t.glo * 64 + i % t.perBank * t.w)
    let found (key : List Word) (r i : Nat) : Prop := (camRow (rows r i).1 (rows r i).2 s).valid = true ∧ bankRetired (rows r i).1 s = false ∧
      ∀ j, j < key.length → ((entryWord (rows r i).1 (rows r i).2 j s).1 ^^^ key.getD j 0) &&& (entryWord (rows r i).1 (rows r i).2 j s).2 = 0
    (∀ key r start, SMap.sorted s.mat.rows = true → s.mat.faulty = [] → 1 ≤ key.length → key.length ≤ 8 → key.length ≤ 2 * t.w → SMap.getD s.mat.turn n 0 = r → r < t.reps →
      t.disable / 2 ^ r % 2 = 0 →
      (∀ i, i < t.entries → found key r i → (∀ j, j < i → ¬ found key r j) →
        Completes (.matchSearch f n key []) s (fun u => u.mat.last.status = 0 ∧ u.mat.last.hit = true ∧ u.mat.last.index = i ∧
          u.mat.last.falseHit = false ∧ u.mat.last.lost = tblLost n s ∧ u.mat.rows = s.mat.rows ∧ SMap.getD u.mat.turn n 0 = (r + 1) % t.reps)) ∧
      (∀ i, i < t.entries → start ≤ i → found key r i → (∀ j, j < i → start ≤ j → ¬ found key r j) →
        Completes (.matchSearchFrom f n key start []) s (fun u => u.mat.last.status = 0 ∧ u.mat.last.hit = true ∧ u.mat.last.index = i)) ∧
      ((∀ j, j < t.entries → ¬ found key r j) →
        Completes (.matchSearch f n key []) s (fun u => u.mat.last.status = 0 ∧ u.mat.last.hit = false ∧ u.mat.last.index = 0xFFFFFFFF ∧
          u.mat.last.count = 0) ∧
        ∀ i, i < t.entries → (rows r i).1 < 16 → (camRow (rows r i).1 (rows r i).2 s).valid = true → bankRetired (rows r i).1 s = false →
          Completes (.matchSearch f n key [(i, .every)]) s (fun u => u.mat.last.status = 0 ∧ u.mat.last.hit = false ∧ u.mat.last.falseHit = true ∧
            u.mat.last.count = 1 ∧ u.mat.rows = s.mat.rows ∧ fget (Fl.MAT_EVENT_FALSE_HIT (rows r i).1) u = 1))) ∧
    (∀ key flips, 2 * t.w < key.length → key.length ≤ 8 → Completes (.matchSearch f n key flips) s (fun u => u.mat.last.status = 3)) ∧
    (∀ i value care, i < t.entries → value.length = 2 * t.w → care.length = 2 * t.w → (∃ r, r < t.reps ∧ bankRetired (rows r i).1 s = false) →
      Completes (.matchWriteEntry f n i value care) s (fun u => u.mat.last.status = 0 ∧ u.mat.last.index = i ∧ (n, i) ∉ u.mat.lost ∧
        ∀ r, r < t.reps → bankRetired (rows r i).1 s = false → (camRow (rows r i).1 (rows r i).2 u).valid = true ∧
          ∀ j, j < 2 * t.w → entryWord (rows r i).1 (rows r i).2 j u = (value.getD j 0 &&& care.getD j 0, care.getD j 0))) ∧
    (∀ i, i < t.entries → (∃ r, r < t.reps ∧ bankRetired (rows r i).1 s = false) →
      Completes (.matchDeleteEntry f n i) s (fun u => u.mat.last.status = 0 ∧
        ∀ r, r < t.reps → bankRetired (rows r i).1 s = false → (camRow (rows r i).1 (rows r i).2 u).valid = false)) ∧
    (∀ i, i < t.entries → 0 < t.reps → bankRetired (rows 0 i).1 s = false →
      Completes (.matchReadEntry f n i) s (fun u => u = { s with mat := u.mat } ∧ u.mat.last.status = 0 ∧
        u.mat.last.value = (List.range (2 * t.w)).map (fun j => (entryWord (rows 0 i).1 (rows 0 i).2 j s).1) ∧
        u.mat.last.care = (List.range (2 * t.w)).map (fun j => (entryWord (rows 0 i).1 (rows 0 i).2 j s).2))) ∧
    (∀ i value care, t.entries ≤ i → Completes (.matchWriteEntry f n i value care) s (fun u => u.mat.last.status = 2 ∧ u.mat.rows = s.mat.rows) ∧
      Completes (.matchDeleteEntry f n i) s (fun u => u.mat.last.status = 2 ∧ u.mat.rows = s.mat.rows)) ∧
    (∀ i, i < t.entries → (∀ r, r < t.reps → bankRetired (rows r i).1 s = true) →
      Completes (.matchReadEntry f n i) s (fun u => u.mat.last.status = 5 ∧ u.mat.rows = s.mat.rows))

/-- R208, R211, R212, R223–R229, R233: the table map, control firmware's steps, scrubbing and repair. -/
def Obligations.MatchBanks : Prop :=
  ∀ s : State,
    (∀ table key flips f, tblVisible f table s = false → 1 ≤ key.length → key.length ≤ 8 →
      Completes (.matchSearch f table key flips) s (fun u => u = { s with mat := u.mat } ∧ u.mat.last = { MatRes.none with status := 1 })) ∧
    (∀ table req v, table < 256 → tblMapOk table v s = true → (tblOf v).valid = true →
      Completes (.tableMapWrite table req v) s (OnlyRegs [Reg.MAT_TBL_MAP 0 table] s) ∧
      Completes (.tableMapWrite table req v) s (fun t => tblOf (rd (Reg.MAT_TBL_MAP 0 table) t) = tblOf v)) ∧
    (∀ table req v, table < 256 → (tblAt table s).valid = true → (tblOf v).valid = false → Completes (.tableMapWrite table req v) s (fun t =>
      (tblAt table t).valid = false ∧ (∀ b ∈ (tblAt table s).allBanks, ∀ g, g < 128 → (tblAt table s).glo ≤ g → g ≤ (tblAt table s).ghi →
        128 * b + g ∈ t.mat.clearing) ∧ ∀ l ∈ t.mat.lost, l.1 ≠ table)) ∧
    (∀ table req v, table < 256 → (tblOf v).valid = true → 16 < (tblOf v).first + (tblOf v).reps * (tblOf v).len ∨ (tblOf v).ghi < (tblOf v).glo ∨
        (∃ b ∈ (tblOf v).allBanks, bankRetired b s = true ∨ widthUnits (fget (Fl.MAT_CFG_WIDTH b) s) ≠ (tblOf v).w) →
      Completes (.tableMapWrite table req v) s (OnlyMarked [] s)) ∧
    (∀ bank, bank < 16 → SMap.sorted s.mat.rows = true → Completes (.tableClearDone bank) s (fun t => fget (Fl.MAT_STATUS_CLEARING bank) t = 0 ∧
      (∀ g ∈ t.mat.clearing, g / 128 ≠ bank) ∧
      (∀ row, row < 8192 → 128 * bank + row / 64 ∈ s.mat.clearing → (camRow bank row t).valid = false) ∧
      ∀ b, b < 16 → ∀ row, row < 8192 → b ≠ bank ∨ 128 * bank + row / 64 ∉ s.mat.clearing → camRow b row t = camRow b row s)) ∧
    (∀ bank row req, bankUp bank s = true → row < 8192 →
      let w := widthUnits (fget (Fl.MAT_CFG_WIDTH bank) s)
      (row % w = 0 → Completes (.entryInvalidate bank row req) s (fun t => (camRow bank row t).valid = false ∧
        (camRow bank row t).value = (camRow bank row s).value ∧ (camRow bank row t).care = (camRow bank row s).care ∧
        ∀ r, r < 8192 → r ≠ row → camRow bank r t = camRow bank r s)) ∧
      (row % w = 0 → (∀ i, i < w → 8192 * bank + row + i ∈ s.mat.written) → Completes (.entryValidate bank row req) s (fun t =>
        (camRow bank row t).valid = true ∧ (camRow bank row t).value = (camRow bank row s).value)) ∧
      (row % w = 0 → (∃ i, i < w ∧ 8192 * bank + row + i ∉ s.mat.written) → Completes (.entryValidate bank row req) s (fun t =>
        t.mat = s.mat)) ∧
      (row % w ≠ 0 → Completes (.entryInvalidate bank row req) s (OnlyMarked [] s) ∧ Completes (.entryValidate bank row req) s (OnlyMarked [] s)) ∧
      (∀ bs : List Byte, bs.length = 32 → (camRow bank (row / w * w) s).valid = false → Completes (.matchWindowWrite bank (64 * row) req bs) s (fun t =>
        (camRow bank row t).care = BitVec.ofNat 128 (leVal (bs.drop 16)) ∧
        (camRow bank row t).value = BitVec.ofNat 128 (leVal (bs.take 16)) &&& BitVec.ofNat 128 (leVal (bs.drop 16)) ∧
        8192 * bank + row ∈ t.mat.written)) ∧
      (∀ bs, (camRow bank (row / w * w) s).valid = true → Completes (.matchWindowWrite bank (64 * row) req bs) s (OnlyMarked [] s))) ∧
    (∀ bank fixed corrected, bankUp bank s = true → s.mat.faulty = [] → Completes (.matchScrub bank fixed [] corrected) s (fun t => t.mat.rows = s.mat.rows ∧
      (rd (Reg.MAT_CNT_SCRUB_FIX bank) t).toNat = (if fixed = [] then (rd (Reg.MAT_CNT_SCRUB_FIX bank) s).toNat
        else Nat.min ((rd (Reg.MAT_CNT_SCRUB_FIX bank) s).toNat + fixed.length) (2 ^ 32 - 1)) ∧
      ∀ g, g < 128 → SMap.find t.mat.tags (128 * bank + g) = (if groupHeads bank g s = [] then none else some (freshTagOf bank g s)))) ∧
    (∀ bank n row, bankUp bank s = true → s.mat.faulty = [] → validTables s = [n] → (tblAt n s).w = 1 → (tblAt n s).len = 1 → (tblAt n s).reps = 1 →
      (tblAt n s).first = bank → (tblAt n s).glo ≤ row / 64 → row / 64 ≤ (tblAt n s).ghi → Completes (.matchScrub bank [] [row] 0) s (fun t =>
        (n, row - (tblAt n s).glo * 64) ∈ t.mat.lost ∧ (camRow bank row t).valid = false ∧ fget (Fl.MAT_EVENT_LOST bank) t = 1 ∧
        fget (Fl.MAT_TBL_MAP_LOST 0 n) t = 1)) ∧
    (∀ bank row readBack, bankUp bank s = true → readBack = true ∨ rowDue bank (row % 8192) s = true →
      (0 < fget (Fl.MAT_REPAIR_ROWS_FREE bank) s → Completes (.rowRepair bank row readBack) s (fun t =>
        fget (Fl.MAT_REPAIR_ROWS_FREE bank) t = fget (Fl.MAT_REPAIR_ROWS_FREE bank) s - 1 ∧ fget (Fl.MAT_EVENT_ROW_REPAIR bank) t = 1 ∧
        t.mat.rows = s.mat.rows ∧ 8192 * bank + row % 8192 ∈ t.mat.spared ∧ rowDue bank (row % 8192) t = false)) ∧
      (fget (Fl.MAT_REPAIR_ROWS_FREE bank) s = 0 → Completes (.rowRepair bank row readBack) s (fun t =>
        bankRetired bank t = true ∧ fget (Fl.MAT_EVENT_RETIRED bank) t = 1))) ∧
    (∀ bank row, rowDue bank (row % 8192) s = false → Completes (.rowRepair bank row false) s (fun t => t = s)) ∧
    (∀ bank bit, bankUp bank s = true → colDue bank bit s = true →
      (0 < fget (Fl.MAT_REPAIR_COLS_FREE bank) s → Completes (.columnRepair bank bit) s (fun t =>
        fget (Fl.MAT_REPAIR_COLS_FREE bank) t = fget (Fl.MAT_REPAIR_COLS_FREE bank) s - 1 ∧ fget (Fl.MAT_EVENT_COL_REPAIR bank) t = 1 ∧
        t.mat.rows = s.mat.rows ∧ colDue bank bit t = false)) ∧
      (fget (Fl.MAT_REPAIR_COLS_FREE bank) s = 0 → Completes (.columnRepair bank bit) s (fun t =>
        bankRetired bank t = true ∧ fget (Fl.MAT_EVENT_RETIRED bank) t = 1))) ∧
    (∀ bank bit, colDue bank bit s = false → Completes (.columnRepair bank bit) s (fun t => t = s))

/-- R235, R245–R256: what the compression engines leave in memory and in their registers. -/
def Obligations.Compression : Prop :=
  ∀ (s : State) (n addr : Nat), addr + 128 ≤ 0x4000000 →
    let rep (o k : Nat) (t : State) : Nat := leVal (rdBytes (addr + 64 + o) k t)
    let elsewhere (a k : Nat) (t : State) : Prop := ∀ x, x < a ∨ a + k ≤ x → x < addr + 64 ∨ addr + 86 ≤ x → rdByte x t = rdByte x s
    (∀ bs d m src, readSpace .phys addr 128 s = some bs → cdescOf addr bs = some d → compServer n s = some m → d.ctx = 0 → d.srcList = false →
      d.dstList = false → readSpace .phys d.src d.srcLen s = some src → d.dst + d.dstLen ≤ 0x4000000 → d.dst + d.dstLen ≤ addr ∨ addr + 128 ≤ d.dst →
      (∀ more, d.op = 0 → compOutputOk d src [] more = true → d.decl = none ∨ d.decl = some src.length →
        (more.length ≤ d.dstLen → Completes (.compress n .phys addr more) s (fun t => rdBytes d.dst more.length t = more ∧
          rep 20 1 t = (if d.final then 0 else 1) ∧ rep 0 8 t = d.srcLen ∧ rep 8 8 t = more.length ∧ rep 16 4 t = checkOf d.format src % 2 ^ 32 ∧
          elsewhere d.dst more.length t ∧ (rd (Reg.CMP_CNT_DESC m) t).toNat = Nat.min ((rd (Reg.CMP_CNT_DESC m) s).toNat + 1) (2 ^ 64 - 1) ∧
          (rd (Reg.CMP_CNT_IN m) t).toNat = Nat.min ((rd (Reg.CMP_CNT_IN m) s).toNat + d.srcLen) (2 ^ 64 - 1) ∧
          (rd (Reg.CMP_CNT_OUT m) t).toNat = Nat.min ((rd (Reg.CMP_CNT_OUT m) s).toNat + more.length) (2 ^ 64 - 1) ∧
          ∀ a, a ∉ [Reg.CMP_CNT_IN m, Reg.CMP_CNT_OUT m, Reg.CMP_CNT_DESC m] → rd a t = rd a s)) ∧
        (d.dstLen < more.length → Completes (.compress n .phys addr more) s (fun t => rep 20 1 t = 2 ∧ rep 8 8 t = d.dstLen ∧
          rdBytes d.dst d.dstLen t = more.take d.dstLen ∧ elsewhere d.dst d.dstLen t))) ∧
      (∀ e, expandFormat d.format src = .ended e → e.used ≤ src.length → e.checkOk = true → e.lenOk = true → d.decl = none ∨ d.decl = some e.out.length →
        (d.op = 1 → e.out.length ≤ d.dstLen → Completes (.expand n .phys addr) s (fun t => rdBytes d.dst e.out.length t = e.out ∧
          rep 20 1 t = (if e.used < src.length then 10 else 0) ∧ rep 0 8 t = e.used ∧ rep 8 8 t = e.out.length ∧ rep 16 4 t = e.chk % 2 ^ 32 ∧
          elsewhere d.dst e.out.length t)) ∧
        (d.op = 1 → d.dstLen < e.out.length → Completes (.expand n .phys addr) s (fun t => rep 20 1 t = 2 ∧ rep 8 8 t = d.dstLen ∧
          rdBytes d.dst d.dstLen t = e.out.take d.dstLen)) ∧
        (d.op = 2 → Completes (.check n .phys addr) s (fun t => elsewhere 0 0 t ∧ rep 20 1 t = (if e.used < src.length then 10 else 0) ∧
          rep 0 8 t = e.used ∧ rep 8 8 t = e.out.length ∧ rep 16 4 t = e.chk % 2 ^ 32))) ∧
      (∀ e, expandFormat d.format src = .ended e → e.checkOk = false → d.decl = none → d.op = 2 → Completes (.check n .phys addr) s (fun t =>
        elsewhere 0 0 t ∧ rep 20 1 t = 6 ∧ fget (Fl.CMP_EVENT_CHECK_FAIL m) t = 1 ∧
        (rd (Reg.CMP_CNT_CHECK_FAIL m) t).toNat = Nat.min ((rd (Reg.CMP_CNT_CHECK_FAIL m) s).toNat + 1) (2 ^ 32 - 1))) ∧
      (∀ z, compUp z s = true → Completes (.engineAbort z .phys addr) s (fun t => rep 20 1 t = 14 ∧ elsewhere d.dst d.dstLen t))) ∧
    (∀ bs, readSpace .phys addr 128 s = some bs → cdescOf addr bs = none →
      let refused (t : State) : Prop := rep 20 1 t = 11 ∧ rep 0 8 t = 0 ∧ rep 8 8 t = 0 ∧ elsewhere 0 0 t ∧ t.regs = s.regs
      let op := fieldAt bs 0 1
      (op = 0 ∨ 3 ≤ op → ∀ more, Completes (.compress n .phys addr more) s refused) ∧
      (op = 1 ∨ 3 ≤ op → Completes (.expand n .phys addr) s refused) ∧ (op = 2 ∨ 3 ≤ op → Completes (.check n .phys addr) s refused)) ∧
    (∀ bs d, readSpace .phys addr 128 s = some bs → cdescOf addr bs = some d → (∀ i, i < 4 → compUp i s = false) → d.op = 1 →
      Completes (.expand n .phys addr) s (fun t => rep 20 1 t = 13 ∧ elsewhere 0 0 t)) ∧
    (compUp n s = true →
      ((∀ k, SMap.find s.comp.faults n = some k → k + 10000000 < s.tick) → Completes (.engineFault n) s (fun t =>
        OnlyMarked [Reg.CMP_EVENT n, Reg.CMP_CNT_FAULT n] { s with comp := { s.comp with faults := SMap.put s.comp.faults n s.tick } } t ∧
        fget (Fl.CMP_EVENT_FAULT n) t = 1 ∧
        (rd (Reg.CMP_CNT_FAULT n) t).toNat = Nat.min ((rd (Reg.CMP_CNT_FAULT n) s).toNat + 1) (2 ^ 32 - 1))) ∧
      (∀ req, (∀ i, i < 4 → i ≠ n → compUp i s = true) →
        let retired (t : State) : Prop := fget (Fl.CMP_STATUS_STATE n) t = 3 ∧ fget (Fl.CMP_EVENT_RETIRED n) t = 1 ∧ compServer n t = some (if n = 0 then 1 else 0)
        (∀ k, SMap.find s.comp.faults n = some k → s.tick ≤ k + 10000000 → Completes (.engineFault n) s retired) ∧
        Completes (.engineRetire n 0xA5 req) s (fun t => retired t ∧ OnlyMarked [Reg.CMP_EVENT n, Reg.CMP_STATUS n] s t)) ∧
      (∀ req, (∀ i, i < 4 → i ≠ n → fget (Fl.CMP_STATUS_STATE i) s = 3) → Completes (.engineRetire n 0xA5 req) s (fun t =>
        fget (Fl.CMP_EVENT_SW_FALLBACK 0) t = 1 ∧ pdOn (24 + n / 2) t = false ∧ compServer n t = none)) ∧
      (∀ key req, key ≠ 0xA5 → Completes (.engineRetire n key req) s (OnlyMarked [] s))) ∧
    (compUp n s = false → Completes (.engineFault n) s (fun t => t = s) ∧ ∀ key req, Completes (.engineRetire n key req) s (OnlyMarked [] s))

/-- R258, R260, R262–R267: contexts of the digest engine fed word by word, their blobs, and digest letters. -/
def Obligations.DigestEngine : Prop :=
  ∀ (s : State) (c req : Nat), c < 16 → pdOn 26 s = true → req < 256 →
    let st (t : State) : Nat := digState c t
    let err (t : State) : Nat := fget (Fl.DIG_CTX_STATUS_ERR c) t
    let x := digCtx c s
    let alg := fget (Fl.DIG_CTX_CTRL_ALG c) s
    let hm : Bool := fget (Fl.DIG_CTX_CTRL_HMAC c) s == 1
    let result (bs : List Byte) (t : State) : Prop := st t = 3 ∧ ∀ j, j < 8 → (rd (Reg.DIG_CTX_RESULT c j) t).toNat = fieldAt bs (8 * j) 8
    let cleared (e : Nat) (t : State) : Prop := st t = 4 ∧ err t = e ∧ digCtx c t = DigCtx.fresh ∧ rd (Reg.DIG_CTX_COUNT c) t = 0 ∧
      (∀ j, j < 8 → rd (Reg.DIG_CTX_RESULT c j) t = 0) ∧ fget Fl.DIG_EVENT_CLEARED t = 1
    (6 ≤ c → st s = 0 → claimed s < fget Fl.DIG_CFG_CLAIM_MAX s → Completes (.digestClaim c req) s (fun t =>
      OnlyRegs [Reg.DIG_CTX_STATUS c, Reg.DIG_STATUS] s t ∧ st t = 1 ∧ fget (Fl.DIG_CTX_STATUS_OWNER c) t = req)) ∧
    (6 ≤ c → st s ≠ 0 ∨ fget Fl.DIG_CFG_CLAIM_MAX s ≤ claimed s → Completes (.digestClaim c req) s (fun t => t = s)) ∧
    (c < 6 → Completes (.digestClaim c req) s (OnlyMarked [] s)) ∧
    (ownsCtx c req s = false → (∀ v, Completes (.digestStart c v req) s (fun t => OnlyMarked [Reg.DIG_EVENT] s t ∧ fget Fl.DIG_EVENT_FOREIGN t = 1)) ∧
      ∀ w size off, Completes (.digestDataWrite c w size off req) s (fun t => OnlyMarked [Reg.DIG_EVENT] s t ∧ fget Fl.DIG_EVENT_FOREIGN t = 1)) ∧
    (ownsCtx c req s = true →
      (6 ≤ c → st s ≠ 2 → Completes (.digestRelease c req) s (fun t => st t = 0 ∧ fget (Fl.DIG_CTX_STATUS_OWNER c) t = 0xFF ∧ digCtx c t = DigCtx.fresh ∧
        rd (Reg.DIG_CTX_COUNT c) t = 0)) ∧
      (∀ v, v % 8 < 5 → st s ≠ 2 → digDecl c s ≠ some 0 → Completes (.digestStart c v req) s (fun t => st t = 2 ∧ err t = 0 ∧ rd (Reg.DIG_CTX_COUNT c) t = 0 ∧
        fget (Fl.DIG_CTX_CTRL_ALG c) t = v % 8 ∧ fget (Fl.DIG_CTX_CTRL_HMAC c) t = v / 8 % 2 ∧
        digCtx c t = { DigCtx.fresh with key := if v / 8 % 2 = 1 then x.keyRegs.flatMap (fun w => leBytes 8 w.toNat) else [] })) ∧
      (∀ v, v % 8 < 5 → st s = 2 → Completes (.digestStart c v req) s (fun t => OnlyMarked [Reg.DIG_CTX_CTRL c, Reg.DIG_CTX_STATUS c] s t ∧ st t = 2 ∧ err t = 4)) ∧
      (∀ w, st s = 2 → fget (Fl.DIG_CTX_STATUS_BUSY c) s = 0 →
        (∀ n, digDecl c s = some n → x.msg.length ≤ n → n ≤ x.msg.length + 8 → Completes (.digestDataWrite c w 8 0 req) s (fun t =>
          result (digResult alg hm x.key (x.msg ++ leBytes (n - x.msg.length) w.toNat)) t ∧
          rd (Reg.DIG_CTX_COUNT c) t = rd (Reg.DIG_CTX_COUNT c) s + BitVec.ofNat 64 (n - x.msg.length))) ∧
        (∀ n, digDecl c s = some n → x.msg.length + 8 < n → Completes (.digestDataWrite c w 8 0 req) s (fun t => st t = 2 ∧
          digCtx c t = { x with msg := x.msg ++ leBytes 8 w.toNat } ∧
          fget (Fl.DIG_CTX_STATUS_BUSY c) t = (if (x.msg.length + 8) % digBlock alg = 0 then 1 else 0))) ∧
        (digDecl c s = none → x.held = none → Completes (.digestDataWrite c w 8 0 req) s (fun t => t = { s with dig := t.dig } ∧
          digCtx c t = { x with held := some w })) ∧
        (∀ h, digDecl c s = none → x.held = some h → Completes (.digestDataWrite c w 8 0 req) s (fun t =>
          digCtx c t = { x with msg := x.msg ++ leBytes 8 h.toNat, held := some w } ∧ ∀ d, d < 16 → d ≠ c → digCtx d t = digCtx d s))) ∧
      (∀ w, st s = 2 → fget (Fl.DIG_CTX_STATUS_BUSY c) s = 1 → Completes (.digestDataWrite c w 8 0 req) s (cleared 3)) ∧
      (∀ w, Completes (.digestDataWrite c w 2 0 req) s (cleared 5)) ∧
      (∀ j w, j < 16 → j < x.keyRegs.length → st s ≠ 2 → Completes (.digestKeyWrite c j w req) s (fun t => t = { s with dig := t.dig } ∧
        (digCtx c t).keyRegs[j]? = some w ∧ ∀ i, i < 16 → i ≠ j → (digCtx c t).keyRegs[i]? = x.keyRegs[i]?)) ∧
      (∀ v, v % 8 = alg → v % 8 < 5 → st s = 2 →
        let rest : List Byte := match x.held with
          | some w => leBytes (if v / 256 % 8 = 0 then 8 else v / 256 % 8) w.toNat
          | none => []
        (digDecl c s = none → Completes (.digestFinish c v req) s (result (digResult alg hm x.key (x.msg ++ rest)))) ∧
        (digDecl c s ≠ none → Completes (.digestFinish c v req) s (cleared 1))) ∧
      (∀ v, v % 8 < 5 → Completes (.digestAbort c v req) s (fun t => st t = (if c < 6 then 0 else 1) ∧ err t = err s ∧ digCtx c t = DigCtx.fresh)) ∧
      (∀ v, v % 8 = alg → v % 8 < 5 → st s = 2 → fget (Fl.DIG_CTX_STATUS_BUSY c) s = 0 →
        let a := fget (Fl.DIG_CTX_BLOB_ADDR c) s / 64 * 64
        a + 512 ≤ 0x4000000 → Completes (.digestExport c v req) s (fun t => st t = 1 ∧ digCtx c t = DigCtx.fresh ∧
          ∃ b, t.dig.blobs.head? = some b ∧ rdBytes a 512 t = b.image ∧ b.msg = x.msg ∧ b.key = x.key ∧ b.held = x.held ∧ b.alg = alg ∧ b.hmac = hm)) ∧
      (∀ v bs, v % 8 < 5 → st s ≠ 2 → fget (Fl.DIG_CTX_STATUS_BUSY c) s = 0 →
          readSpace .phys (fget (Fl.DIG_CTX_BLOB_ADDR c) s / 64 * 64) 512 s = some bs →
        (∀ b, blobOf bs s = some b → b.alg = v % 8 → b.hmac = (v / 8 % 2 == 1) → Completes (.digestImport c v req) s (fun t => st t = 2 ∧ err t = 0 ∧
          digCtx c t = { DigCtx.fresh with key := b.key, msg := b.msg, held := b.held } ∧ rd (Reg.DIG_CTX_COUNT c) t = BitVec.ofNat 64 b.msg.length)) ∧
        (blobOf bs s = none → Completes (.digestImport c v req) s (fun t => cleared 7 t ∧ fget Fl.DIG_EVENT_BLOB_REFUSED t = 1)))) ∧
    (st s = 2 → Completes (.digestBlockTaken c) s (fun t => OnlyRegs [Reg.DIG_CTX_STATUS c] s t ∧ fget (Fl.DIG_CTX_STATUS_BUSY c) t = 0 ∧ st t = 2)) ∧
    Completes (.contextAlarm c) s (fun t => cleared 6 t ∧ fget Fl.DIG_EVENT_CTX_ALARM t = 1 ∧ ∀ d, d < 16 → d ≠ c → digState d t = digState d s) ∧
    (∀ addr bs src, letterCtx s = true → readSpace .phys addr 64 s = some bs → digDescBad bs = false → fieldAt bs 1 1 = 3 → fieldAt bs 32 8 = 2 ^ 64 - 1 →
      readSpace .phys (fieldAt bs 16 8) (fieldAt bs 24 8) s = some src →
      let dst := fieldAt bs 48 8
      dst + 64 ≤ addr ∨ addr + 64 ≤ dst → dst + 64 ≤ 0x4000000 → addr + 64 ≤ 0x4000000 → Completes (.digestLetter .phys addr) s (fun t =>
        let r := digest (fieldAt bs 0 1) src
        rdBytes dst r.length t = r ∧ rdByte (addr + 7) t = 0 ∧ leVal (rdBytes (addr + 56) 8 t) = src.length ∧
        ∀ a, a < dst ∨ dst + r.length ≤ a → a < addr ∨ addr + 64 ≤ a → rdByte a t = rdByte a s)) ∧
    (∀ addr bs, letterCtx s = true → readSpace .phys addr 64 s = some bs → digDescBad bs = true → addr + 64 ≤ 0x4000000 →
      Completes (.digestLetter .phys addr) s (fun t => rdByte (addr + 7) t = 4 ∧ leVal (rdBytes (addr + 56) 8 t) = 0 ∧ t.regs = s.regs)) ∧
    (∀ sp addr, letterCtx s = false → Completes (.digestLetter sp addr) s (fun t => t.dig = { s.dig with waiting := s.dig.waiting ++ [(sp, addr)] } ∧
      t.mem = s.mem))

/-- R267, R270–R273, R276, R515: slots of the key manager, its store, its alarm. -/
def Obligations.KeyManager : Prop :=
  ∀ s : State, pdOn 26 s = true →
    let holds (slot : Nat) (t : State) : Option Nat := SMap.find t.keys.slots slot
    let calm : Prop := fget Fl.KEY_STATUS_ALARM s = 0
    let unwraps (t : State) : Prop := (rd Reg.KEY_CNT_UNWRAP t).toNat = Nat.min ((rd Reg.KEY_CNT_UNWRAP s).toNat + 1) (2 ^ 64 - 1)
    (∀ nsid n, nsAt nsid s = some n → calm → n.keyEntry ∉ s.keys.waiting →
      ((∃ p ∈ s.keys.slots, p.2 = n.keyEntry) → ∀ ok, Completes (.keyUnwrap nsid ok) s (fun t => t = s)) ∧
      ((∀ p ∈ s.keys.slots, p.2 ≠ n.keyEntry) →
        (∀ x, slotFor n.keyEntry s = some x → Completes (.keyUnwrap nsid true) s (fun t => holds x t = some n.keyEntry ∧ t.keys.lru.getLast? = some x ∧
          unwraps t ∧ t.keys.store = s.keys.store ∧ (holds x s = none ∨ (x ∈ s.keys.lru ∧ x ≠ 0 ∧ slotBusy x s = false)) ∧
          (holds x s = none → ∀ y, y < 1024 → y ≠ x → holds y t = holds y s))) ∧
        (∀ x, slotFor n.keyEntry s = some x → n.keyEntry ≠ 0 → entryNs n.keyEntry s = some (nsid, n) → Completes (.keyUnwrap nsid false) s (fun t =>
          nsAt nsid t = some { n with keyLost := true } ∧ fget Fl.KEY_EVENT_UNWRAP_FAIL t = 1 ∧ t.keys = s.keys)) ∧
        (slotFor n.keyEntry s = none → ∀ ok, Completes (.keyUnwrap nsid ok) s (fun t => t.keys = { s.keys with waiting := s.keys.waiting ++ [n.keyEntry] } ∧
          fget Fl.KEY_EVENT_SLOT_WAIT t = 1 ∧ (rd Reg.KEY_CNT_SLOT_WAIT t).toNat = Nat.min ((rd Reg.KEY_CNT_SLOT_WAIT s).toNat + 1) (2 ^ 64 - 1))))) ∧
    (∀ slot e rest, s.keys.waiting = e :: rest → 0 < slot → slot < 1024 → slotBusy slot s = false → calm → Completes (.keySlotFreed slot true) s (fun t =>
      holds slot t = some e ∧ t.keys.waiting = rest ∧ unwraps t)) ∧
    (∀ slot entry req, slot < 1024 → entry ≤ 2048 → slot ≠ 0 ∨ entry = 0 → req ≤ 0x0B ∨ req = 0x10 ∨ req = 0x11 →
      let result (n : Nat) (t : State) : Prop := fget Fl.KEY_SLOT_RESULT_RESULT t = n
      (calm → slotBusy slot s = false →
        (SMap.find s.keys.store entry ≠ none → Completes (.loadKeySlot slot entry req true) s (fun t => result 0 t ∧ holds slot t = some entry ∧ unwraps t)) ∧
        (SMap.find s.keys.store entry ≠ none → entry ≠ 0 → Completes (.loadKeySlot slot entry req false) s (fun t => result 1 t ∧ t.keys = s.keys ∧
          fget Fl.KEY_EVENT_UNWRAP_FAIL t = 1)) ∧
        (SMap.find s.keys.store entry = none → ∀ ok, Completes (.loadKeySlot slot entry req ok) s (fun t => result 2 t ∧ t.keys = s.keys)) ∧
        Completes (.zeroizeKeySlot slot entry req) s (fun t => result 0 t ∧ holds slot t = none ∧ slot ∉ t.keys.lru ∧ t.keys.store = s.keys.store)) ∧
      (calm → slotBusy slot s = true → Completes (.zeroizeKeySlot slot entry req) s (fun t => result 3 t ∧ t.keys = s.keys) ∧
        ∀ ok, Completes (.loadKeySlot slot entry req ok) s (fun t => result 3 t ∧ t.keys = s.keys)) ∧
      (¬ calm → fget Fl.KEY_STATUS_ALARM s = 1 → Completes (.zeroizeKeySlot slot entry req) s (fun t => result 4 t ∧ t.keys = s.keys) ∧
        ∀ ok, Completes (.loadKeySlot slot entry req ok) s (fun t => result 4 t ∧ t.keys = s.keys)) ∧
      (calm → entry ≠ 0 → SMap.find s.keys.store entry ≠ none → Completes (.cryptoEraseEntry entry req) s (fun t => result 0 t ∧
        SMap.find t.keys.store entry = some s.keys.nextKey ∧ t.keys.gen = s.keys.gen + 1 ∧ (∀ p ∈ t.keys.slots, p.2 ≠ entry) ∧
        fget Fl.KEY_EVENT_ERASED t = 1 ∧ ∀ e, e < 2049 → e ≠ entry → SMap.find t.keys.store e = SMap.find s.keys.store e))) ∧
    (∀ slot entry req, slot < 1024 → slot = 0 → entry ≠ 0 → entry ≤ 2048 → req = 0x10 → Completes (.zeroizeKeySlot slot entry req) s (OnlyMarked [] s)) ∧
    (∀ a, a + 64 ≤ 0x4000000 → Completes (.keyManagerAlarm [(.phys, a)]) s (fun t => t.keys.slots = [] ∧ fget Fl.KEY_STATUS_ALARM t = 1 ∧
      fget Fl.KEY_STATUS_READY t = 0 ∧ fget Fl.KEY_STATUS_LOADED t = 0 ∧ fget Fl.KEY_EVENT_ALARM t = 1 ∧ rdByte (a + 7) t = 6 ∧
      ∀ c, c < 16 → (digState c s ≠ 0 → digState c t = 4 ∧ fget (Fl.DIG_CTX_STATUS_ERR c) t = 6 ∧ digCtx c t = DigCtx.fresh) ∧
        (digState c s = 0 → digState c t = 0))) ∧
    Completes (.slotReloadDone true) s (fun t => holds 0 t = some 0 ∧ fget Fl.KEY_STATUS_ALARM t = 0 ∧ fget Fl.KEY_STATUS_READY t = 1 ∧ unwraps t ∧
      (fget Fl.KEY_STATUS_ALARM s = 1 → fget Fl.KEY_EVENT_RELOADED t = 1)) ∧
    (mode s = 3 → fget Fl.AON_MODE_RO_CAUSE s = 0 → Completes (.slotReloadDone false) s (fun t => fget Fl.AON_MODE_RO_CAUSE t = 3 ∧ t.keys = s.keys ∧
      fget Fl.KEY_EVENT_UNWRAP_FAIL t = 1))

/-- R280, R282–R284, R163, R363: run-ahead episodes and pre-reads. -/
def Obligations.RunAhead : Prop :=
  ∀ s : State,
    let count (a : Nat) (t : State) : Prop := (rd a t).toNat = Nat.min ((rd a s).toNat + 1) (2 ^ 32 - 1)
    let same (k : Nat) (t : State) : Prop := (coreAt k t).g = (coreAt k s).g ∧ (coreAt k t).v = (coreAt k s).v ∧ (coreAt k t).pc = (coreAt k s).pc ∧
      (coreAt k t).lvl = (coreAt k s).lvl ∧ t.mem = s.mem
    (∀ k a, k < 64 → coreRuns k s = true → (coreAt k s).stepping = false → fget (Fl.AXC_RA_CFG_EN (k / 8)) s = 1 →
      fget (Fl.AXC_CACHE_CTRL_L2_EN (k / 8)) s = 1 → 0x4000000000 ≤ a → a < 0x6000000000 → Completes (.runAheadEntry k a) s (fun t => same k t ∧
        (coreAt k t).ahead = some ((coreAt k s).episodes + 1,
          if fget (Fl.AXC_RA_CFG_PRD_EN (k / 8)) s = 1 then fget (Fl.AXC_RA_CFG_PRD_MAX (k / 8)) s else 0) ∧ t = { s with regs := t.regs, cores := t.cores } ∧ ∀ r, r ∉ coreShows k → rd r t = rd r s)) ∧
    (∀ k a, k < 64 → fget (Fl.AXC_RA_CFG_EN (k / 8)) s = 0 ∨ fget (Fl.AXC_CACHE_CTRL_L2_EN (k / 8)) s = 0 →
      Completes (.runAheadEntry k a) s (fun t => t = s)) ∧
    (∀ k cycles ep n, k < 64 → (coreAt k s).ahead = some (ep, n) →
      let left (t : State) : Prop := same k t ∧ (coreAt k t).ahead = none ∧ (coreAt k t).episodes = ep ∧ count (Reg.AXC_CNT_RA_EPISODES (k / 8) (k % 8)) t ∧
        (rd (Reg.AXC_CNT_RA_CYCLES (k / 8) (k % 8)) t).toNat = Nat.min ((rd (Reg.AXC_CNT_RA_CYCLES (k / 8) (k % 8)) s).toNat + cycles) (2 ^ 64 - 1)
      Completes (.runAheadExit k cycles false) s (fun t => left t ∧ t = { s with regs := t.regs, cores := t.cores }) ∧
      Completes (.runAheadExit k cycles true) s (fun t => left t ∧
        ∀ r ∈ s.sch.reads, (r.pre = true ∧ r.core = k ∧ r.episode = some ep → readAt r.handle t = none) ∧
          ((∀ q ∈ s.sch.reads, q.handle = r.handle → q = r) → ¬ (r.pre = true ∧ r.core = k ∧ r.episode = some ep) → r ∈ t.sch.reads))) ∧
    (∀ k ea ep left e nsid iu, k < 64 → coreUp k s = true → coreHalted k s = false → (coreAt k s).ahead = some (ep, left) → execOfCore k s = some e →
      winUnit e ea s = some (nsid, iu) →
      let f := execFunc e s
      let known : Prop := (∃ g ∈ s.prog.pages, g.func = f ∧ g.nsid = nsid ∧ g.iu = iu ∧
          (g.state = .staged ∨ g.state = .preStaged ∧ (rd Reg.SCH_TICK s).toNat ≤ g.born + 2000)) ∨
        ∃ r ∈ s.sch.reads, r.func = f ∧ r.nsid = nsid ∧ r.iu = iu ∧ r.stale = false
      (¬ known → iuAt (mapKey nsid iu) s ≠ none → left ≠ 0 →
        s.sch.reads.length < 16384 → Completes (.windowLoad k ea) s (fun t => same k t ∧ (coreAt k t).ahead = some (ep, left - 1) ∧
          t.sch.reads = s.sch.reads ++ [⟨s.sch.nextRead, f, nsid, iu, true, [], k, some ep, e, (rd Reg.SCH_TICK s).toNat, false, false, 0, [], none, false⟩])) ∧
      (known ∨ iuAt (mapKey nsid iu) s = none ∨ left = 0 → Completes (.windowLoad k ea) s (fun t => t = s))) ∧
    (∀ r, readAt r.handle s = some r → r.pre = true → (∀ q ∈ s.sch.reads, q.handle = r.handle → q = r) → s.media.chans = [] → r.core < 64 →
      (r.sent = false → r.born + 2000 ≤ (rd Reg.SCH_TICK s).toNat → Completes (.preReadDispatchTimeout r.handle) s (fun t =>
        t.sch.reads = s.sch.reads.filter (fun q => q.handle ≠ r.handle) ∧ count (Reg.AXC_CNT_PRD_ISSUED (r.core / 8) (r.core % 8)) t ∧
        count (Reg.AXC_CNT_PRD_EXPIRED (r.core / 8) (r.core % 8)) t ∧ t.prog = s.prog)) ∧
      (r.sent = true ∨ (rd Reg.SCH_TICK s).toNat < r.born + 2000 → Completes (.preReadDispatchTimeout r.handle) s (fun t => t = s))) ∧
    (∀ g, g ∈ s.prog.pages → g.state = .preStaged →
      (g.born + 2000 ≤ (rd Reg.SCH_TICK s).toNat → Completes (.preStagedExpiry g.func g.nsid g.iu) s (fun t => g ∉ t.prog.pages ∧
        (∀ p ∈ s.prog.pages, p.nsid ≠ g.nsid ∨ p.iu ≠ g.iu ∨ p.func ≠ g.func ∨ p.state ≠ .preStaged → p ∈ t.prog.pages) ∧ t.sch = s.sch)) ∧
      ((rd Reg.SCH_TICK s).toNat < g.born + 2000 → Completes (.preStagedExpiry g.func g.nsid g.iu) s (fun t => g ∈ t.prog.pages))) ∧
    (∀ chan die o r, SMap.find (chanAt chan s).dies die = some o → o.cls = 6 → readAt o.handle s = some r → o.cancelled = false → r.pre = true →
      (r.stale = false → (s.prog.pages.filter (fun g => g.state = .preStaged)).length < 16384 → Completes (.preReadStaged chan die true) s (fun t =>
        t.prog.pages = s.prog.pages ++ [⟨r.func, r.nsid, r.iu, .preStaged, r.data, [], chan, r.core, (rd Reg.SCH_TICK s).toNat, r.episode⟩] ∧
        t.sch.reads = s.sch.reads.filter (fun q => q.handle ≠ o.handle) ∧ SMap.find (chanAt chan t).dies die = none)) ∧
      (r.core < 64 → Completes (.preReadStaged chan die false) s (fun t => t.prog.pages = s.prog.pages ∧ readAt o.handle t = none ∧
        count (Reg.AXC_CNT_PRD_EXPIRED (r.core / 8) (r.core % 8)) t)))

/-- R296, R297, R324–R326, R360–R362: window loads by page state, staging, suspension, and the window-load instructions. -/
def Obligations.WindowLoads : Prop :=
  ∀ (s : State) (k e ea nsid iu : Nat), k < 64 → execOfCore k s = some e → winUnit e ea s = some (nsid, iu) →
    let f := execFunc e s
    let held : Prop := ∃ g ∈ s.prog.pages, g.func = f ∧ g.nsid = nsid ∧ g.iu = iu
    (coreRuns k s = true →
      (∀ g l, pageFor f nsid iu s = some g → g.state = .staged → letterHeld k s = some l → Completes (.windowLoad k ea) s (fun t =>
        t.prog.pages.head? = some { g with waiters := g.waiters.filter (fun i => i ≠ l.id) } ∧ t.cores = s.cores ∧ t.sch = s.sch ∧ t.regs = s.regs)) ∧
      (∀ g, pageFor f nsid iu s = some g → g.state = .preStaged → g.core < 64 → g.chan < 32 → (s.prog.pages.filter (fun p => p.func = f)).length < cachePages f s →
        Completes (.windowLoad k ea) s (fun t => (∃ p ∈ t.prog.pages, p.func = f ∧ p.nsid = nsid ∧ p.iu = iu ∧ p.state = .staged ∧ p.data = g.data) ∧
          (rd (Reg.CHE_CNT_READ g.chan) t).toNat = Nat.min ((rd (Reg.CHE_CNT_READ g.chan) s).toNat + 1) (2 ^ 64 - 1) ∧
          (rd (Reg.AXC_CNT_PRD_CLAIMED (g.core / 8) (g.core % 8)) t).toNat =
            Nat.min ((rd (Reg.AXC_CNT_PRD_CLAIMED (g.core / 8) (g.core % 8)) s).toNat + 1) (2 ^ 32 - 1) ∧ t.cores = s.cores ∧ t.sch = s.sch)) ∧
      (∀ n, ¬ held → iuAt (mapKey nsid iu) s = none → nsAt nsid s = some n → (s.prog.pages.filter (fun p => p.func = f)).length < cachePages f s →
        Completes (.windowLoad k ea) s (fun t => t.cores = s.cores ∧ t.sch = s.sch ∧
          t.prog.pages = ⟨f, nsid, iu, .staged, iuBytes n.flbas [], [], 0, 0, (rd Reg.SCH_TICK s).toNat, none⟩ :: s.prog.pages)) ∧
      (∀ l u, ¬ held → iuAt (mapKey nsid iu) s = some u → (coreAt k s).lvl = 0 → letterHeld k s = some l → SMap.sorted s.sch.holds = true →
          (∀ r ∈ s.sch.reads, ¬ (r.func = f ∧ r.nsid = nsid ∧ r.iu = iu)) → s.sch.reads.length < 16384 →
        Completes (.windowLoad k ea) s (fun t => letterAt l.id t = some { l with state := .suspended, port := none } ∧ heldBy k t = none ∧
          (coreAt k t).lvl = 1 ∧ (coreAt k t).tables = none ∧ SMap.find t.prog.saved l.id = some ⟨k / 8, (coreAt k s).g, (coreAt k s).pc, sysAt k 4 s, sysAt k 5 s, (coreAt k s).v⟩ ∧
          t.sch.reads = s.sch.reads ++ [⟨s.sch.nextRead, f, nsid, iu, false, [l.id], 0, none, 0, (rd Reg.SCH_TICK s).toNat, false, false, 0, [], none, false⟩])) ∧
      (∀ r l, ¬ held → iuAt (mapKey nsid iu) s ≠ none → (coreAt k s).lvl = 0 → letterHeld k s = some l → s.sch.reads = [r] → r.pre = true → r.func = f → r.nsid = nsid →
          r.iu = iu → r.stale = false → s.media.chans = [] → Completes (.windowLoad k ea) s (fun t => t.sch.reads = [{ r with pre := false, letters := r.letters ++ [l.id] }]))) ∧
    (∀ r ok, readAt r.handle s = some r → r.arrived = some ok → r.pre = false → r.letters = [] → r.stale = false →
      (s.prog.pages.filter (fun p => p.func = r.func)).length < cachePages r.func s →
      (ok = true → Completes (.windowPageStaged r.handle) s (fun t => readAt r.handle t = none ∧
        t.prog.pages = ⟨r.func, r.nsid, r.iu, .staged, r.data, [], r.chan, r.core, (rd Reg.SCH_TICK s).toNat, none⟩ :: s.prog.pages)) ∧
      (ok = false → Completes (.windowPageStaged r.handle) s (fun t => readAt r.handle t = none ∧ t.prog.pages = s.prog.pages))) ∧
    (∀ r l, readAt r.handle s = some r → r.arrived = some true → r.pre = false → r.letters = [l.id] → letterAt l.id s = some l → l.state = .suspended → l.target = 0 →
      l.clusters = 0xFF → clusterServes 0 s = true → (∀ x ∈ s.sch.letters, x.id = l.id → x = l) → Completes (.windowPageStaged r.handle) s (fun t =>
        letterAt l.id t = some { l with state := .ready, readySeq := 0, readyTick := (rd Reg.SCH_TICK s).toNat })) ∧
    (∀ w, CoreReady k s → (eaOf k w s).toNat = ea → rdOf w ≠ 31 →
      let row (i : Instr) (maj n : Nat) : Prop := majOf w = maj → ea % 16384 + n ≤ 16384 → wpHit k ea n true false (fetched k s) = none →
        ∀ g, pageFor f nsid iu s = some g → g.state = .staged → Completes i s (fun t => Retired k ((coreAt k s).pc + 4) s t ∧
          GetsG k (rdOf w) (BitVec.ofNat 64 (leVal ((g.data.drop (ea % 16384)).take n))) s t)
      row (.wldbu k w) 0x1C 1 ∧ row (.wldhu k w) 0x1D 2 ∧ row (.wldwu k w) 0x1E 4 ∧ row (.wldd k w) 0x1F 8 ∧
      (majOf w = 0x1F → 16384 < ea % 16384 + 8 → wpHit k ea 8 true false (fetched k s) = none → Traps (.wldd k w) k 0x09 w (eaOf k w s) s) ∧
      (majOf w = 0x17 → rdOf w = 0 → Completes (.prd k w) s (fun t => Retired k ((coreAt k s).pc + 4) s t ∧ SameRegs k s t ∧
        (¬ held → (∀ r ∈ s.sch.reads, ¬ (r.func = f ∧ r.nsid = nsid ∧ r.iu = iu)) → s.sch.reads.length < 16 → fget (Fl.AXC_RA_CFG_PRD_EN (k / 8)) s = 1 →
          t.sch.reads = s.sch.reads ++ [⟨s.sch.nextRead, f, nsid, iu, true, [], k, none, e, (rd Reg.SCH_TICK s).toNat, false, false, 0, [], none, false⟩]))))

/-- R288, R291–R295: cache enables (L1 needs L2 on before the write: DEDUCED, log 67), way locks and maintenance of a cluster. -/
def Obligations.ClusterCaches : Prop :=
  ∀ (s : State) (n req : Nat), clusUp n s = true →
    let ctrl := Reg.AXC_CACHE_CTRL n
    let done := fget (Fl.AXC_CACHE_CTRL_INV_DONE n) s
    let l2 := fget (Fl.AXC_CACHE_CTRL_L2_EN n) s
    let locked (t : State) : List (Nat × Nat) := (clusAt n t).locked
    let base := fget (Fl.AXC_CMO_BASE_ADDR n) s
    let lines := (fget (Fl.AXC_CMO_LEN_BYTES n) s + 63) / 64
    let inR (l : Nat) : Prop := base ≤ l ∧ l < base + lines
    let started (t : State) : Prop := fget (Fl.AXC_CMO_CTRL_BUSY n) t = 1 ∧ fget (Fl.AXC_CMO_CTRL_ERR n) t = 0 ∧ fget (Fl.AXC_STATUS_CMO_BUSY n) t = 1
    let refused (t : State) : Prop := OnlyRegs [Reg.AXC_CMO_CTRL n] s t ∧ fget (Fl.AXC_CMO_CTRL_ERR n) t = 1
    let ops : List Instr := [.invAll n req, .cleanAll n req, .cleanInvAll n req, .invRange n req, .cleanRange n req, .cleanInvRange n req, .iinvRange n req, .lockFillRange n req]
    (∀ v, v % 8 ≠ 0 → done = 0 → Completes (.cacheEnableWrite n v req) s (OnlyMarked [] s)) ∧
    (∀ v, v % 4 ≠ 0 → v % 8 < 4 ∨ l2 = 0 → Completes (.cacheEnableWrite n v req) s (OnlyMarked [] s)) ∧
    (∀ v, 4 ≤ v % 8 → done = 1 → v % 8 = 4 ∨ l2 = 1 → Completes (.cacheEnableWrite n v req) s (fun t => OnlyRegs [ctrl] s t ∧ fget ⟨ctrl, 0, 3⟩ t = v % 8 ∧
      fget (Fl.AXC_CACHE_CTRL_INV_DONE n) t = 1)) ∧
    (l2 = 1 → fget ⟨ctrl, 0, 2⟩ s = 0 → Completes (.cacheEnableWrite n 0 req) s (fun t => fget ⟨ctrl, 0, 3⟩ t = 0 ∧ t.mem = s.mem ∧ locked t = [] ∧
      t.dirty = s.dirty.filter (fun e => e.2.cluster ≠ n))) ∧
    (l2 = 1 → fget ⟨ctrl, 0, 2⟩ s ≠ 0 → ∀ v, v % 8 < 4 → Completes (.cacheEnableWrite n v req) s (OnlyMarked [] s)) ∧
    (∀ v, bits16 (v % 65536) ≤ 12 → Completes (.wayLockWrite n v req) s (fun t => fget (Fl.AXC_LOCK_CTRL_WAYS n) t = v % 65536 ∧ t.mem = s.mem ∧
      t.dirty = s.dirty ∧ fget (Fl.AXC_STATUS_LOCKED_WAYS n) t = bits16 (v % 65536) ∧ locked t = (locked s).filter (fun e => v / 2 ^ e.1 % 2 = 1))) ∧
    (∀ v, 12 < bits16 (v % 65536) → Completes (.wayLockWrite n v req) s (OnlyMarked [] s)) ∧
    (fget (Fl.AXC_CMO_CTRL_BUSY n) s = 1 → ∀ c ∈ ops, Completes c s (OnlyMarked [] s)) ∧
    (fget (Fl.AXC_CMO_CTRL_BUSY n) s = 0 →
      (fget ⟨ctrl, 0, 3⟩ s = 0 → Completes (.invAll n req) s (fun t => started t ∧ ((∀ e ∈ s.dirty, e.2.old.length = 64) → SMap.sorted s.dirty = true → ∀ e ∈ t.dirty, e.2.cluster ≠ n) ∧ (clusAt n t).cmo = 1)) ∧
      (fget ⟨ctrl, 0, 3⟩ s ≠ 0 → Completes (.invAll n req) s refused) ∧
      Completes (.cleanAll n req) s (fun t => started t ∧ t.mem = s.mem ∧ t.dirty = s.dirty.filter (fun e => e.2.cluster ≠ n) ∧ locked t = locked s) ∧
      Completes (.cleanInvAll n req) s (fun t => started t ∧ t.mem = s.mem ∧ t.dirty = s.dirty.filter (fun e => e.2.cluster ≠ n) ∧ locked t = []) ∧
      (lines = 0 ∨ rangeCacheable base lines = false → Completes (.invRange n req) s refused ∧ Completes (.cleanRange n req) s refused ∧
        Completes (.cleanInvRange n req) s refused ∧ Completes (.iinvRange n req) s refused ∧ Completes (.lockFillRange n req) s refused) ∧
      (fget (Fl.AXC_LOCK_CTRL_WAYS n) s = 0 ∨ 0x300000 < fget (Fl.AXC_CMO_LEN_BYTES n) s → Completes (.lockFillRange n req) s refused) ∧
      (lines ≠ 0 → rangeCacheable base lines = true →
        (∀ l old, s.dirty = [(l, ⟨n, old⟩)] → inR l → l ∈ (locked s).map (·.2) → old.length = 64 → Completes (.invRange n req) s (fun t => started t ∧
          t.dirty = [] ∧ rdBytes (64 * l) 64 t = old ∧ locked t = (locked s).filter (fun e => ¬ inR e.2) ∧ fget (Fl.AXC_CMO_CTRL_LOCKED_HIT n) t = 1)) ∧
        ((∀ e ∈ s.dirty, e.2.cluster = n → ¬ inR e.1) → Completes (.invRange n req) s (fun t => started t ∧ t.dirty = s.dirty ∧ t.mem = s.mem ∧
          locked t = (locked s).filter (fun e => ¬ inR e.2))) ∧
        Completes (.cleanRange n req) s (fun t => started t ∧ t.mem = s.mem ∧ locked t = locked s ∧
          t.dirty = s.dirty.filter (fun e => ¬ (e.2.cluster = n ∧ inR e.1))) ∧
        Completes (.cleanInvRange n req) s (fun t => started t ∧ t.mem = s.mem ∧ t.dirty = s.dirty.filter (fun e => ¬ (e.2.cluster = n ∧ inR e.1)) ∧
          locked t = (locked s).filter (fun e => ¬ inR e.2) ∧ ((∃ e ∈ locked s, inR e.2) → fget (Fl.AXC_EVENT_LOCKED_HIT n) t = 1)) ∧
        Completes (.iinvRange n req) s (fun t => started t ∧ t.mem = s.mem ∧ t.dirty = s.dirty ∧ locked t = locked s) ∧
        (lines = 1 → fget (Fl.AXC_LOCK_CTRL_WAYS n) s ≠ 0 → (∀ e ∈ locked s, e.2 % 4096 ≠ base % 4096) → Completes (.lockFillRange n req) s (fun t => started t ∧
          ∃ w, w < 16 ∧ fget (Fl.AXC_LOCK_CTRL_WAYS n) s / 2 ^ w % 2 = 1 ∧ locked t = locked s ++ [(w, base)])))) ∧
    (fget (Fl.AXC_CMO_CTRL_BUSY n) s = 1 → Completes (.cmoDone n) s (fun t => fget (Fl.AXC_CMO_CTRL_BUSY n) t = 0 ∧ fget (Fl.AXC_STATUS_CMO_BUSY n) t = 0 ∧
      ((clusAt n s).cmo = 1 → fget (Fl.AXC_CACHE_CTRL_INV_DONE n) t = 1) ∧ ((clusAt n s).cmo ≠ 1 → fget (Fl.AXC_CACHE_CTRL_INV_DONE n) t = done) ∧
      t.mem = s.mem ∧ t.dirty = s.dirty))

/-- R73, R287, R289, R290, R301–R303: parity, fill errors, cluster resets, retirement and runtime update. -/
def Obligations.ClusterFaults : Prop :=
  ∀ (s : State) (n : Nat), clusUp n s = true →
    let event (f : Nat → Fld) (t : State) : Prop := fget (f n) t = 1
    let errors (t : State) : Prop := ∀ i, i < 8 → sysField (8 * n + i) 0x8A 3 1 t = 1
    let fresh (t : State) : Prop := (∀ i, i < 8 → coreAt (8 * n + i) t = Core.fresh) ∧ (∀ e ∈ t.dirty, e.2.cluster ≠ n) ∧ (clusAt n t).locked = [] ∧
      fget ⟨Reg.AXC_CACHE_CTRL n, 0, 4⟩ t = 0 ∧ fget (Fl.AXC_LOCK_CTRL_WAYS n) t = 0
    let restarted (t : State) : Prop := fresh t ∧ fget (Fl.AXC_STATUS_STATE n) t = 1 ∧ event Fl.AXC_EVENT_CLUSTER_RESET t ∧ (clusAt n t).update = .none ∧
      (clusAt n t).resets = Nat.min ((clusAt n s).resets + 1) 0xFFFFFFFF
    let retired (t : State) : Prop := fresh t ∧ fget (Fl.AXC_STATUS_STATE n) t = 3 ∧ pdOn (12 + n) t = false ∧ pdRetired (12 + n) t = true ∧ event Fl.AXC_EVENT_RETIRED t
    let ended (reason : Nat) (t : State) : Prop := s.sch.letters.length = 1 → ∀ l ∈ lettersOn n s, letterAt l.id t = none ∧
      SMap.find t.sch.past l.id = some (l.gen, 0x84) ∧ ∀ x ∈ (SMap.find s.prog.execs l.exec).toList, l.owner ≠ 0x80 → x.endWith = none →
        ∃ y, SMap.find t.prog.execs l.exec = some y ∧ y.endWith = some (reason, 0)
    (mode s ≠ 8 → Completes (.clusterReset n true) s (fun t => restarted t ∧ ended 5 t ∧ fget Fl.AON_RST_CAUSE_CLUSTER t = 1 ∧ t.mem = s.mem ∧
      ∀ k, k < 77 → k / 8 ≠ n → coreAt k t = coreAt k s)) ∧
    (mode s ≠ 8 → Completes (.clusterReset n false) s (fun t => retired t ∧ ended 5 t)) ∧
    (mode s = 8 → ∀ st, Completes (.clusterReset n st) s (fun t => t = { s with pow := { s.pow with waitResets := s.pow.waitResets ++ [.cluster n st] } })) ∧
    (∀ key req, Completes (.clusterRetire n false key req) s (fun t => retired t ∧ ended 5 t)) ∧
    (∀ req, req < 0x40 → Completes (.clusterRetire n true 0x3C req) s retired) ∧
    (∀ key req, key < 256 → key ≠ 0x3C ∨ (0x40 ≤ req ∧ req < 0x80) → Completes (.clusterRetire n true key req) s (OnlyMarked [] s)) ∧
    (∀ left st, Completes (.dirtyFault n .clean left st) s (fun t => event Fl.AXC_EVENT_PAR_CLEAN t ∧ errors t ∧ t.mem = s.mem ∧ t.dirty = s.dirty ∧
      (rd (Reg.AXC_CNT_PAR_CLEAN n) t).toNat = Nat.min ((rd (Reg.AXC_CNT_PAR_CLEAN n) s).toNat + 1) (2 ^ 32 - 1))) ∧
    (∀ l old left, mode s ≠ 8 → SMap.find s.dirty l = some ⟨n, old⟩ → old.length = 64 → l < 2 ^ 42 → (clusAt n s).faults24 - left < 2 →
      Completes (.dirtyFault n (.data l) left true) s (fun t => restarted t ∧ ended 5 t ∧ event Fl.AXC_EVENT_PAR_DIRTY t ∧ l ∈ t.dram.poison ∧
        rdBytes (64 * l) 64 t = old ∧ (∀ a, a < 64 * l ∨ 64 * l + 64 ≤ a → rdByte a t = rdByte a s) ∧ fget (Fl.AXC_FAULT_ADDR_VALID n) t = 1 ∧
        fget (Fl.AXC_FAULT_ADDR_TAG n) t = 0 ∧ fget (Fl.AXC_FAULT_ADDR_ADDR n) t = l ∧ (clusAt n t).faults24 = (clusAt n s).faults24 - left + 1)) ∧
    (∀ left, mode s ≠ 8 → (clusAt n s).faults24 - left < 2 → Completes (.dirtyFault n .tag left true) s (fun t => restarted t ∧ event Fl.AXC_EVENT_PAR_DIRTY t ∧
      fget (Fl.AXC_FAULT_ADDR_TAG n) t = 1 ∧ t.dram.poison = s.dram.poison ∧ t.mem = s.mem ∧
      ∀ e ∈ s.prog.execs, e.2.func ∈ (clusAt n s).funcs → e.2.endWith = none → SMap.sorted s.prog.execs = true →
        ∃ y, SMap.find t.prog.execs e.1 = some y ∧ y.endWith = some (5, 0))) ∧
    (∀ left, 2 ≤ (clusAt n s).faults24 - left → Completes (.dirtyFault n .tag left true) s retired) ∧
    Completes (.fillError n none) s (fun t => event Fl.AXC_EVENT_FILL_ERR t ∧ errors t ∧ t.mem = s.mem) ∧
    (∀ k w a, k / 8 = n → coreRuns k s = true → TrapFree k s → Completes (.fillError n (some (k, w, a))) s (fun t => event Fl.AXC_EVENT_FILL_ERR t ∧
      (coreAt k t).lvl = trapLevel k s ∧ (coreAt k t).pc = sysAt k (trapBase (trapLevel k s) + 1) s ∧
      sysAt k (trapBase (trapLevel k s) + 3) t = (if Nested k s then 0x0F else 0x0D) ∧ sysAt k (trapBase (trapLevel k s) + 5) t = a)) ∧
    Completes (.runtimeUpdate n) s (fun t => t = { s with clus := t.clus } ∧ (clusAt n t).update = .grace ∧ ∀ m, m < 8 → m ≠ n → clusAt m t = clusAt m s) ∧
    ((clusAt n s).update = .grace → s.mgt.upd.todo.head? ≠ some 3 → ∀ version, version < 2 ^ 32 →
      Completes (.runtimeUpdateGraceExpiry n version true true) s (fun t => restarted t ∧ ended 6 t ∧ (clusAt n t).version = version) ∧
      Completes (.runtimeUpdateGraceExpiry n version false true) s (fun t => restarted t ∧ ended 6 t ∧ (clusAt n t).version = (clusAt n s).version)) ∧
    ((clusAt n s).update = .none → s.mgt.upd.todo.head? ≠ some 3 → ∀ version ok st, Completes (.runtimeUpdateGraceExpiry n version ok st) s (fun t => t = s))

/-- R349–R351, R355, R359, R364, R367: the actions of a port of the scheduler. -/
def Obligations.SortingPorts : Prop :=
  ∀ (s : State) (p req : Nat), pdOn 6 s = true → portAllows p req = true →
    -- nothing else is due to become ready, and every compute letter has a cluster in service
    (∀ l ∈ s.sch.letters, (l.state = .held → l.due = none → ctrClear l s = false) ∧
      (l.target = 0 → ∃ c, c < 8 ∧ l.clusters / 2 ^ c % 2 = 1 ∧ clusterServes c s = true)) →
    (∀ l ∈ s.sch.letters, ∀ k ∈ s.sch.letters, l.id = k.id → l = k) → s.sch.signals = [] → orderedMode s = false →
    let d (j : Nat) : Word := rd (Reg.SCH_SUBMIT_D p j) s
    let r := subRecOf (d 0) (d 1)
    let h := fget (Fl.SCH_ARG_VALUE p) s
    let i := h % 65536
    let v := h / 65536
    let ctr (t : State) : Option DepCtr := SMap.find t.sch.ctrs i
    let past (l : Letter) (st : Nat) (t : State) : Prop := letterAt l.id t = none ∧ SMap.find t.sch.past l.id = some (l.gen, st)
    let tick := (rd Reg.SCH_TICK s).toNat
    (svCall p 1 s = none →
      (∀ a x, portActor p s = some a → refusals (some a) r s = [] → SMap.find s.sch.routes r.route = some x → s.sch.nextId < 1048576 →
        (r.target = 0 → ∃ c, c < 8 ∧ x.clusters / 2 ^ c % 2 = 1 ∧ clusterServes c s = true) → (∀ l ∈ s.sch.letters, l.id ≠ s.sch.nextId) →
        Completes (.submit p req) s (fun t => t.sch.letters.dropLast = s.sch.letters ∧ t.sch.nextId = s.sch.nextId + 1 ∧ t.sch.ctrs = s.sch.ctrs ∧
          ∃ l, t.sch.letters.getLast? = some l ∧ l.id = s.sch.nextId ∧ (l.gen = match SMap.find s.sch.past s.sch.nextId with
            | some g => if g.1 = 4095 then 1 else g.1 + 1 | none => 1) ∧ l.route = r.route ∧ l.owner = x.owner ∧ l.exec = x.exec ∧ l.prio = r.prio ∧ l.target = r.target ∧
            l.arg0 = d 2 ∧ l.arg1 = d 3 ∧ l.due = (if r.delay = 0 then none else some (tick + r.delay)) ∧
            l.waitCtr = (if r.waitEn then (SMap.find s.sch.ctrs r.waitCtr).map (fun c => (r.waitCtr, c.alloc)) else none) ∧
            l.sigCtr = (if r.sigEn then (SMap.find s.sch.ctrs r.sigCtr).map (fun c => (r.sigCtr, c.alloc)) else none) ∧
            (l.state = if r.delay = 0 ∧ ctrClear l s = true then .ready else .held) ∧ rd (Reg.SCH_SUBMIT p) t = BitVec.ofNat 64 (l.id + l.gen * 2 ^ 20))) ∧
      (∀ c, refusals (portActor p s) r s = [c] → c ≠ 1 → c < 8 → Completes (.submit p req) s (fun t => OnlyRegs [Reg.SCH_SUBMIT p] s t ∧
        rd (Reg.SCH_SUBMIT p) t = BitVec.ofNat 64 (c * 2 ^ 32)))) ∧
    (svCall p 2 s = none → svCall p 12 s = none →
      (∀ l, letterOf h s = some l → Completes (.query p req) s (fun t => OnlyRegs [Reg.SCH_QUERY p] s t ∧
        rd (Reg.SCH_QUERY p) t = BitVec.ofNat 64 (stateCode l s))) ∧
      (∀ g st, SMap.find s.sch.past (h % 2 ^ 20) = some (g, st) → g = h / 2 ^ 20 → (∀ l ∈ s.sch.letters, l.id ≠ h % 2 ^ 20) →
        letterOf h s = none → Completes (.query p req) s (fun t => OnlyRegs [Reg.SCH_QUERY p] s t ∧ rd (Reg.SCH_QUERY p) t = BitVec.ofNat 64 (6 + 256 * st)))) ∧
    (∀ e, svCall p 2 s = none → svCall p 12 s = some e → Completes (.query p req) s (fun t => gr p 1 t = rd Reg.SCH_TICK s ∧ (coreAt p t).lvl = 0)) ∧
    (svCall p 3 s = none →
      (∀ l a, letterOf h s = some l → portActor p s = some a → actorOwns a l.owner l.exec = true → l.state = .held ∨ l.state = .ready → l.kind ≠ 3 →
        Completes (.cancel p req) s (fun t => past l 0x80 t ∧ rd (Reg.SCH_CANCEL p) t = 0 ∧ (∀ k ∈ s.sch.letters, k.id ≠ l.id → letterAt k.id t ≠ none) ∧
          ∀ e ∈ s.sch.ctrs, l.sigCtr = some (e.1, e.2.alloc) → SMap.find s.sch.ctrs e.1 = some e.2 → e.2.value ≠ 0 →
            SMap.find t.sch.ctrs e.1 = some { e.2 with value := e.2.value - 1 })) ∧
      (∀ l a, letterOf h s = some l → portActor p s = some a → actorOwns a l.owner l.exec = true → l.state = .running ∨ l.state = .suspended →
        Completes (.cancel p req) s (fun t => OnlyRegs [Reg.SCH_CANCEL p] s t ∧ rd (Reg.SCH_CANCEL p) t = 1)) ∧
      (letterOf h s = none → Completes (.cancel p req) s (fun t => OnlyRegs [Reg.SCH_CANCEL p] s t ∧ rd (Reg.SCH_CANCEL p) t = 2)) ∧
      (∀ l a, letterOf h s = some l → portActor p s = some a → actorOwns a l.owner l.exec = false →
        Completes (.cancel p req) s (fun t => OnlyRegs [Reg.SCH_CANCEL p] s t ∧ rd (Reg.SCH_CANCEL p) t = 3))) ∧
    (∀ a, svCall p 4 s = none → portActor p s = some a → h < 2 ^ 32 →
      let reads (n st : Nat) (t : State) : Prop := extractField (rd (Reg.SCH_CTR p) t) 0 24 = n + 65536 * st
      ((∃ n, n < 65536 ∧ SMap.find s.sch.ctrs n = none) → Completes (.ctrAllocate p req) s (fun t => ∃ n, n < 65536 ∧ SMap.find s.sch.ctrs n = none ∧ reads n 0 t ∧
        SMap.find t.sch.ctrs n = some ⟨v, false, false, s.sch.nextAlloc, a.1, a.2.1⟩ ∧ t.sch.letters = s.sch.letters)) ∧
      (∀ c, ctr s = some c → actorOwns a c.owner c.exec = true → c.value ≤ 65535 →
        (c.value + v ≤ 65535 → c.sat = false → Completes (.ctrAdd p req) s (fun t => reads (c.value + v) 0 t ∧
          ctr t = some { c with value := c.value + v } ∧ t.sch.letters = s.sch.letters)) ∧
        (65535 < c.value + v → (∀ l ∈ s.sch.letters, l.sigCtr = none) → Completes (.ctrAdd p req) s (fun t => reads 65535 3 t ∧ (∃ q, ctr t = some q ∧ q.sat = true ∧ q.value = 65535) ∧
          fget Fl.SCH_EVENT_CTR_SAT t = 1 ∧ ∀ l ∈ s.sch.letters, l.state = .held → l.waitCtr = some (i, c.alloc) → past l 0x83 t)) ∧
        (∀ l ∈ s.sch.letters, v = 0 → l.state = .held → l.due = none → l.waitCtr = some (i, c.alloc) → Completes (.ctrSet p req) s (fun t => reads 0 0 t ∧
          ctr t = some { c with value := 0, sat := false, under := false } ∧ ∃ k, letterAt l.id t = some k ∧ k.state = .ready)) ∧
        (v ≠ 0 → Completes (.ctrSet p req) s (fun t => reads v 0 t ∧ ctr t = some { c with value := v, sat := false, under := false })) ∧
        Completes (.ctrRead p req) s (fun t => reads c.value 0 t ∧ (rd (Reg.SCH_CTR p) t).getLsbD 24 = c.sat ∧ (rd (Reg.SCH_CTR p) t).getLsbD 25 = c.under ∧
          t.sch = s.sch) ∧
        ((∀ l ∈ s.sch.letters, l.waitCtr ≠ some (i, c.alloc)) → Completes (.ctrFree p req) s (fun t => reads 0 0 t ∧ ctr t = none ∧ t.sch.letters = s.sch.letters))) ∧
      (∀ c, ctr s = some c → actorOwns a c.owner c.exec = false → 
        let none_ (t : State) : Prop := reads 0 2 t ∧ t.sch = s.sch
        Completes (.ctrAdd p req) s none_ ∧ Completes (.ctrSet p req) s none_ ∧ Completes (.ctrRead p req) s none_ ∧ Completes (.ctrFree p req) s none_)) ∧
    (∀ l fn ns, heldBy p s = some l → Completes (.take p fn ns req) s (fun t => t.sch = s.sch)) ∧
    (∀ l fn ns, heldBy p s = none → p ∈ s.sch.offered → s.sch.letters = [l] → l.prio < 4 → suits p l s = true → 64 ≤ p ∨ l.owner = 0x80 → Completes (.take p fn ns req) s (fun t =>
      heldBy p t = some { l with state := .running, ordered := false, port := some p } ∧ rd (Reg.SCH_TAKE p) t = BitVec.ofNat 64 (l.id + l.gen * 2 ^ 20) ∧
      rd (Reg.SCH_TAKE_D p 2) t = l.arg0 ∧ rd (Reg.SCH_TAKE_D p 3) t = l.arg1 ∧ p ∉ t.sch.offered ∧
      (rd (Reg.SCH_PORT_TAKEN p) t).toNat = Nat.min ((rd (Reg.SCH_PORT_TAKEN p) s).toNat + 1) (2 ^ 64 - 1))) ∧
    (∀ fn ns, heldBy p s = none → (∀ l ∈ s.sch.letters, suits p l s = false) → Completes (.take p fn ns req) s (fun t => rd (Reg.SCH_TAKE p) t = 0 ∧
      t.sch.letters = s.sch.letters)) ∧
    (svCall p 5 s = none → (∀ l st, heldBy p s = some l → Completes (.done p st req) s (past l (if 0x80 ≤ st % 256 then 0x7F else st % 256))) ∧
      (∀ st, heldBy p s = none → 64 ≤ p → Completes (.done p st req) s (fun t => t.sch = s.sch)))

/-- R352–R354, R356, R358, R361, R364, R367: routes, delays, aging, and dispatch to engines. -/
def Obligations.SortingRoutes : Prop :=
  ∀ (s : State) (req : Nat), pdOn 6 s = true → req ≤ 0x0B ∨ req = 0x10 ∨ req = 0x11 →
    let i := fget Fl.SCH_ROUTE_SEL_ROUTE s
    let x : Route := ⟨fget Fl.SCH_ROUTE_DATA_KIND s, fget Fl.SCH_ROUTE_DATA_OWNER s, fget Fl.SCH_ROUTE_DATA_EXEC s, fget Fl.SCH_ROUTE_DATA_CLUSTERS s, false⟩
    let route (t : State) : Option Route := SMap.find t.sch.routes i
    let result (n : Nat) (t : State) : Prop := fget Fl.SCH_ROUTE_CMD_RESULT t = n
    let served (m : Nat) : Prop := ∃ c, c < 8 ∧ m / 2 ^ c % 2 = 1 ∧ clusterServes c s = true
    let tick := (rd Reg.SCH_TICK s).toNat
    (∀ y, route s = some y → y.owner < 256 → y.exec < 65536 → y.clusters < 256 → y.kind < 4 → Completes (.routeRead req) s (fun t => result 0 t ∧
      OnlyRegs [Reg.SCH_ROUTE_DATA, Reg.SCH_ROUTE_CMD] s t ∧ fget Fl.SCH_ROUTE_DATA_KIND t = y.kind ∧ fget Fl.SCH_ROUTE_DATA_OWNER t = y.owner ∧
      fget Fl.SCH_ROUTE_DATA_EXEC t = y.exec ∧ fget Fl.SCH_ROUTE_DATA_CLUSTERS t = y.clusters)) ∧
    (route s = none → Completes (.routeRead req) s (result 2) ∧ Completes (.routeDelete req) s (fun t => result 2 t ∧ t.sch = s.sch) ∧
      Completes (.routeSetClusters req) s (fun t => result 2 t ∧ t.sch = s.sch)) ∧
    (x.kind ≠ 0 → x.owner ≤ 128 →
      (fget Fl.SCH_ROUTE_SEL_ANY s = 0 → route s = none → Completes (.routeCreate req) s (fun t => result 0 t ∧ route t = some x ∧ t.sch.letters = s.sch.letters ∧
        ∀ j, j < 262144 → j ≠ i → SMap.find t.sch.routes j = SMap.find s.sch.routes j)) ∧
      (fget Fl.SCH_ROUTE_SEL_ANY s = 0 → route s ≠ none → Completes (.routeCreate req) s (fun t => result 2 t ∧ t.sch = s.sch)) ∧
      (fget Fl.SCH_ROUTE_SEL_ANY s = 1 → ∀ j, j < 262144 → SMap.find s.sch.routes j = none → Completes (.routeCreate req) s (fun t => result 0 t ∧
        SMap.find s.sch.routes (fget Fl.SCH_ROUTE_SEL_ROUTE t) = none ∧ SMap.find t.sch.routes (fget Fl.SCH_ROUTE_SEL_ROUTE t) = some x))) ∧
    (x.kind = 0 ∨ 128 < x.owner → Completes (.routeCreate req) s (fun t => result 3 t ∧ t.sch = s.sch)) ∧
    (∀ y, route s = some y → (∀ l ∈ s.sch.letters, l.route ≠ i) → SMap.sorted s.sch.routes = true → Completes (.routeDelete req) s (fun t => result 0 t ∧ route t = none ∧
      t.sch.letters = s.sch.letters)) ∧
    (∀ y l, route s = some y → s.sch.letters = [l] → l.route = i → l.sigCtr = none → SMap.sorted s.sch.routes = true → s.sch.signals = [] →
      (l.state = .held ∨ l.state = .ready → Completes (.routeDelete req) s (fun t => result 0 t ∧ route t = none ∧ t.sch.letters = [] ∧
        SMap.find t.sch.past l.id = some (l.gen, 0x81))) ∧
      (l.state = .running → Completes (.routeDelete req) s (fun t => result 0 t ∧ route t = some { y with deleting := true } ∧ t.sch.letters = [l]))) ∧
    (∀ l, s.sch.letters = [l] → l.owner = x.owner → l.exec = x.exec → l.sigCtr = none → s.sch.signals = [] → (∀ e ∈ s.media.chans, e.1 < 32) →
      let gone (t : State) : Prop := result 0 t ∧ (∀ e ∈ t.sch.routes, ¬ (e.2.owner = x.owner ∧ e.2.exec = x.exec)) ∧
        ∀ e ∈ t.sch.ctrs, ¬ (e.2.owner = x.owner ∧ e.2.exec = x.exec)
      (l.state ≠ .running → Completes (.endOwner req) s (fun t => gone t ∧ t.sch.letters = [] ∧ SMap.find t.sch.past l.id = some (l.gen, 0x82))) ∧
      (l.state = .running → Completes (.endOwner req) s (fun t => gone t ∧ t.sch.letters = [l]))) ∧
    (∀ y l, route s = some y → s.sch.letters = [l] → l.route = i → l.state = .ready → (l.target = 0 → served x.clusters) → Completes (.routeSetClusters req) s (fun t => result 0 t ∧
      route t = some { y with clusters := x.clusters } ∧ t.sch.letters = [{ l with clusters := x.clusters }])) ∧
    (∀ b, Completes (.orderedModeWrite b req) s (fun t => t = { s with regs := t.regs } ∧ fget Fl.SCH_CTRL_ORDERED_MODE t = b % 2 ∧ fget Fl.SCH_STATUS_ORDERED t = b % 2)) ∧
    (∀ l due, s.sch.letters = [l] → l.state = .held → l.due = some due → fget Fl.SCH_STATUS_FROZEN s = 0 →
      (due ≤ tick → s.sch.dueNow < 512 → (l.target = 0 → served l.clusters) → ctrClear l s = true → Completes .letterDue s (fun t => t.sch.dueNow = s.sch.dueNow + 1 ∧
        t.sch.letters = [{ l with due := none, state := .ready, readySeq := s.sch.rseq, readyTick := tick }])) ∧
      (due ≤ tick → s.sch.dueNow < 512 → ctrClear l s = false → Completes .letterDue s (fun t => t.sch.letters = [{ l with due := none }])) ∧
      (due ≤ tick → 512 ≤ s.sch.dueNow → s.sch.burst = false → Completes .letterDue s (fun t => t.sch.letters = [l] ∧ fget Fl.SCH_EVENT_DELAY_BURST t = 1)) ∧
      (tick < due → Completes .letterDue s (fun t => t = s))) ∧
    (∀ l, s.sch.letters = [l] → l.state = .ready →
      let age := fget Fl.SCH_CFG_AGE_US s
      (age ≠ 0 → 0 < l.prio → l.readyTick + age < tick → Completes (.letterAging l.id) s (fun t =>
        t.sch.letters = [{ l with prio := l.prio - 1, readyTick := tick }])) ∧
      (age = 0 ∨ l.prio = 0 ∨ tick ≤ l.readyTick + age → Completes (.letterAging l.id) s (fun t => t = s))) ∧
    (∀ p, p < 76 → heldBy p s = none → p ∉ s.sch.offered →
      ((∃ l ∈ s.sch.letters, suits p l s = true) → Completes (.letterOffer p) s (fun t => t = { s with sch := { s.sch with offered := s.sch.offered ++ [p] } } ∧
        letterPending p t = true)) ∧
      ((∀ l ∈ s.sch.letters, suits p l s = false) → Completes (.letterOffer p) s (fun t => t = s))) ∧
    (∀ l ns, letterAt l.id s = some l → l.state = .ready → 2 ≤ l.target → l.target < 7 → l.target ≠ 5 → routeFree l s = true →
      (inTurn l s = false → Completes (.letterDispatch false l.id ns) s (fun t => t = s)) ∧
      (inTurn l s = true → fget Fl.SCH_STATUS_BRACE_HOLD s = 0 ∨ l.target < 5 → Completes (.letterDispatch false l.id ns) s (fun t =>
        letterAt l.id t = some { l with state := .running, ordered := orderedMode s })) ∧
      (fget Fl.SCH_STATUS_BRACE_HOLD s = 1 → l.target = 6 → Completes (.letterDispatch false l.id ns) s (fun t => t = s))) ∧
    (∀ l ns, letterAt l.id s = some l → l.state = .ready → l.target = 5 → routeFree l s = true → inTurn l s = true → fget Fl.SCH_STATUS_BRACE_HOLD s = 0 → l.owner = 0x80 →
      (scansWaiting s).length < 4096 → ((scansWaiting s).filter (fun j => j.func = 0x80)).length < (resOf 0x80 s).scanQ →
      Completes (.letterDispatch false l.id ns) s (fun t => letterAt l.id t = some { l with state := .running, ordered := orderedMode s } ∧
        t.scan.jobs = s.scan.jobs ++ [⟨s.scan.nextNum, 0x80, 0, none, none, some l.id, .phys, l.arg0.toNat, none⟩])) ∧
    (∀ r u, s.sch.reads = [r] → r.sent = false → iuAt (mapKey r.nsid r.iu) s = some u → u.uncorr = false → (chanAt u.chan s).retired = false →
      r.pre = true ∨ fget (Fl.CHE_STATUS_REBUILD_ONLY u.chan) s = 0 → Completes (.letterDispatch true r.handle 0) s (fun t => (∃ q, t.sch.reads.head? = some q ∧ q.sent = true ∧ q.chan = u.chan ∧ q.letters = r.letters) ∧
        ∃ o, (chanAt u.chan t).queue.getLast? = some o ∧ o.kind = .read ∧ o.cls = (if r.pre then 6 else 3) ∧ o.die = u.die ∧ o.handle = r.handle)) ∧
    (∀ l unit more, s.sch.letters = [l] → l.state = .running →
      let ends (st : Nat) (t : State) : Prop := t.sch.letters = [] ∧ SMap.find t.sch.past l.id = some (l.gen, st) ∧ l.id ∈ t.sch.freed
      (l.target = 2 → ∀ q, serveComp unit (letterSpace l) l.arg0.toNat more s = some q → Completes (.engineLetterEnd l.id unit more) s (ends q.1)) ∧
      (l.target = 3 → letterCtx s = true → Completes (.engineLetterEnd l.id unit more) s (ends (digestLetter (letterSpace l) l.arg0.toNat s).1)) ∧
      (l.target = 4 → readSpace (letterSpace l) l.arg0.toNat 160 s = none → Completes (.engineLetterEnd l.id unit more) s (ends 4)) ∧
      (l.target = 5 → ∀ q, s.scan.ends = [q] → q.1 = l.id → Completes (.engineLetterEnd l.id unit more) s (fun t => ends q.2 t ∧ t.scan.ends = [])))

/-- R371, R372: the commands of Subsystem Local Memory. -/
def Obligations.MemoryCommands : Prop :=
  ∀ (s : State) (tag : Nat) (x : Cmd) (n : Ns), Ready tag [.memory] x s → nsAt x.nsid s = some n → sees n x.ctrl s = true → n.csi = 3 → mode s ≠ 9 →
    let f := funcOf x.ctrl s
    let at_ (i : Nat) : Nat := (slmByte f i s).getD 0
    let places (off len : Nat) : Prop := off + len ≤ slmSize f s ∧ (∀ i, i < len → slmByte f (off + i) s ≠ none) ∧
      ((List.range len).map (fun i => at_ (off + i))).Nodup
    let stored (off : Nat) (bs : List Byte) (t : State) : Prop := Succeeded x s t ∧ (∀ i, i < bs.length → rdByte (at_ (off + i)) t = bs.getD i 0) ∧
      ∀ a, a ∉ (List.range bs.length).map (fun i => at_ (off + i)) → rdByte a t = rdByte a s
    let kept (t : State) : Prop := t.mem = s.mem
    (∀ off len, off + len ≤ slmSize f s → len ≤ 2097152 →
      (∀ bs, readSpace (.host f) off len s = some bs → Completes (.memoryRead tag off len) s (fun t => Returned x bs s t ∧ kept t)) ∧
      (readSpace (.host f) off len s = none → Completes (.memoryRead tag off len) s (fun t => Failed x 0 0x04 false s t ∧ kept t))) ∧
    (∀ off len, slmSize f s < off + len ∨ 2097152 < len → Completes (.memoryRead tag off len) s (fun t => Failed x 0 0x02 true s t ∧ kept t)) ∧
    (∀ off (data : List Byte), data.length ≤ 2097152 → places off data.length → Completes (.memoryWrite tag off data) s (stored off data)) ∧
    (∀ off (data : List Byte), slmSize f s < off + data.length → Completes (.memoryWrite tag off data) s (fun t => Failed x 0 0x02 true s t ∧ kept t)) ∧
    (∀ off k (pat : Word), off % 8 = 0 → places off (8 * k) → Completes (.memoryFill tag off (8 * k) pat) s
      (stored off ((List.range (8 * k)).map (fun i => BitVec.ofNat 8 (pat.toNat / 256 ^ (i % 8)))))) ∧
    (∀ off len pat, off % 8 ≠ 0 ∨ len % 8 ≠ 0 → Completes (.memoryFill tag off len pat) s (fun t => Failed x 0 0x02 true s t ∧ kept t)) ∧
    (∀ off nsid slba nlb m pr bs, nsAt nsid s = some m → ioCheck { x with nsid := nsid, lba := slba, nlb := nlb, kind := .dealloc } false s = none →
      let strip := pr.pract && m.dps != 0
      off % 8 = 0 → off + nlb * blockSize m strip ≤ slmSize f s → nlb * blockSize m strip ≤ 67108864 → checkBlocks m.dps m.flbas pr slba bs = none →
      (∀ iu u, iuAt (mapKey nsid iu) s = some u → u.chan < 32) →
      (untilNone (unitsOfRange nsid slba nlb m [] s) = (bs, false) → places off (hostBytesOf m.flbas m.ext strip bs).length →
        Completes (.memoryCopyToSlm tag off [(nsid, slba, nlb)] pr []) s (stored off (hostBytesOf m.flbas m.ext strip bs))) ∧
      (untilNone (unitsOfRange nsid slba nlb m [] s) = (bs, true) →
        Completes (.memoryCopyToSlm tag off [(nsid, slba, nlb)] pr []) s (Failed x 2 0x81 true s))) ∧
    (∀ off ranges pr bad, ranges = [] ∨ 128 < ranges.length → Completes (.memoryCopyToSlm tag off ranges pr bad) s (Failed x 1 0x83 true s)) ∧
    (∀ off nsid slba nlb m pr bs, nsAt nsid s = some m →
      let y := { x with nsid := nsid, lba := slba, nlb := nlb, kind := CmdKind.write, tracked := false }
      let strip := pr.pract && m.dps != 0
      let z := withBlocks y m (blksOf m strip bs nlb) pr
      ioCheck { y with kind := .dealloc } true s = none → nlb ≠ 0 → nlb * blockSize m strip ≤ 67108864 → off % 8 = 0 →
      off + nlb * blockSize m strip ≤ slmSize f s → readSpace (.host f) off (nlb * blockSize m strip) s = some bs →
      (pr.pract = true ∨ checkBlocks m.dps m.flbas pr slba (blksOf m strip bs nlb) = none → CanLand z m (setCmd z s) →
        Completes (.memoryCopyToNvm tag off nsid slba nlb pr) s (LandingStarted tag z (setCmd z s))))

/-- R375, R376, R378–R380, R386, R387, R389, R394–R396: range sets, program slots, executions and match commands. -/
def Obligations.ProgramCommands : Prop :=
  ∀ (s : State) (tag : Nat) (x : Cmd), Ready tag [.program] x s → computeNs x s = true → mode s ≠ 9 →
    let f := funcOf x.ctrl s
    let rset (i : Nat) (t : State) : Option (List (Nat × Nat)) := SMap.find t.prog.rsets (slotKey f i)
    let invalid (t : State) : Prop := Failed x 0 0x02 true s t ∧ t.prog = s.prog
    let used (t : State) : Prop := Failed x 7 0xD7 false s t ∧ t.prog = s.prog
    let quota (t : State) : Prop := Failed x 7 0xC3 true s t ∧ t.prog = s.prog
    let order (t : State) : Prop := Failed x 0 0x0C true s t ∧ t.prog = s.prog
    let goodRange (r : Nat × Nat) : Prop := r.1 % 4096 = 0 ∧ r.2 % 4096 = 0 ∧ 0 < r.2 ∧ r.2 ≤ 0x1000000000 ∧ r.1 + r.2 ≤ slmSize f s
    (∀ ranges, ranges ≠ [] → ranges.length ≤ 32 → (∀ r ∈ ranges, goodRange r) → (∃ i, i < 16 ∧ rset i s = none) →
      Completes (.memoryRangeSetCreate tag ranges) s (fun t => ∃ i, i < 16 ∧ rset i s = none ∧ rset i t = some ranges ∧ Answered x 0 0 false (i + 1) 0 [] s t)) ∧
    (∀ ranges, ranges = [] ∨ 32 < ranges.length ∨ (∃ r ∈ ranges, ¬ goodRange r) ∨ (∀ i, i < 16 → rset i s ≠ none) →
      Completes (.memoryRangeSetCreate tag ranges) s invalid) ∧
    (∀ id, 0 < id → id ≤ 16 → rset (id - 1) s ≠ none →
      ((∀ e ∈ s.prog.execs, ¬ (e.2.func = f ∧ e.2.rset = id)) → Completes (.memoryRangeSetDelete tag id) s (fun t => Succeeded x s t ∧ rset (id - 1) t = none)) ∧
      ((∃ e ∈ s.prog.execs, e.2.func = f ∧ e.2.rset = id) → Completes (.memoryRangeSetDelete tag id) s used)) ∧
    (∀ slot, slot < 16 →
      let q := slotAt f slot s
      (∀ off (data : List Byte), off % 4096 = 0 → off + data.length ≤ 0x4000000 → data ≠ [] → data.length ≤ 2097152 →
        (q.active = none → privRoom f (0x200000 * ((stagingBlocks off data.length).filter (fun b => b ∉ q.blocks)).length) s = true →
          Completes (.loadProgram tag slot 0xC1 off data) s (fun t => Succeeded x s t ∧ (slotAt f slot t).active = none ∧
            ∀ i, i < data.length → stagedByte (slotAt f slot t) (off + i) = data[i]?)) ∧
        (q.active = none → privRoom f (0x200000 * ((stagingBlocks off data.length).filter (fun b => b ∉ q.blocks)).length) s = false →
          Completes (.loadProgram tag slot 0xC1 off data) s quota) ∧
        (q.active ≠ none → Completes (.loadProgram tag slot 0xC1 off data) s used) ∧
        (∀ ptype, ptype ≠ 0xC1 → Completes (.loadProgram tag slot ptype off data) s invalid)) ∧
      (q.active = none → Completes (.unloadProgram tag slot) s (fun t => Succeeded x s t ∧ slotAt f slot t = ⟨[], [], none⟩)) ∧
      (q.active ≠ none → Completes (.unloadProgram tag slot) s used ∧ Completes (.activateProgram tag slot) s used) ∧
      (q.active = none → q.pieces ≠ [] →
        (parcelFaults q = [] → privRoom f (parcelImage q).length s = true → Completes (.activateProgram tag slot) s (fun t => Succeeded x s t ∧
          (slotAt f slot t).pieces = [] ∧ (slotAt f slot t).blocks = [] ∧ ∃ p, (slotAt f slot t).active = some p ∧ p = { parcelOf q [] with image := p.image })) ∧
        (parcelFaults q = [] → privRoom f (parcelImage q).length s = false → Completes (.activateProgram tag slot) s quota) ∧
        (∀ r, parcelFaults q = [r] → Completes (.activateProgram tag slot) s (fun t => Answered x 7 0xD6 true r 0 [] s t ∧ t.prog = s.prog))) ∧
      (q.active = none → q.pieces = [] → Completes (.activateProgram tag slot) s order) ∧
      (q.active = none → Completes (.deactivateProgram tag slot) s order ∧ ∀ r ps, ps.length ≤ 4096 → Completes (.executeProgram tag slot r ps) s order) ∧
      (∀ p, q.active = some p →
        ((∀ e ∈ s.prog.execs, ¬ (e.2.func = f ∧ e.2.slot = slot)) → Completes (.deactivateProgram tag slot) s (fun t => Succeeded x s t ∧ slotAt f slot t = ⟨[], [], none⟩)) ∧
        ((∃ e ∈ s.prog.execs, e.2.func = f ∧ e.2.slot = slot) → Completes (.deactivateProgram tag slot) s used) ∧
        (∀ r ps, ps.length ≤ 4096 → r = 0 ∨ (r ≤ 16 ∧ rset (r - 1) s ≠ none) →
          ((∀ c, c < 8 → clusterServes c s = false) → Completes (.executeProgram tag slot r ps) s (fun t => Answered x 7 0xD3 true 0x800 0 [] s t ∧ t.prog = s.prog)) ∧
          ((∃ c, c < 8 ∧ (resOf f s).mask / 2 ^ c % 2 = 1 ∧ clusterServes c s = true) → (resOf f s).compW ≠ 0 → s.prog.execs = [] → s.prog.waiting = [] →
            (resOf f s).execs ≠ 0 → (resOf f s).letters ≠ 0 → privRoom f (execCharge p) s = true → s.sch.letters = [] → s.sch.nextId < 1048576 →
            SMap.find s.sch.routes 0 = none → f < 128 → Completes (.executeProgram tag slot r ps) s (fun t => cmdAt tag t = some { x with phase := .started } ∧
              SMap.find t.sch.routes 0 = some ⟨1, f, s.prog.nextExec, (resOf f s).mask, false⟩ ∧
              (∃ e, SMap.find t.prog.execs s.prog.nextExec = some e ∧ e.func = f ∧ e.tag = tag ∧ e.slot = slot ∧ e.rset = r ∧ e.plen = ps.length ∧ e.endWith = none ∧
                e.start = (rd Reg.SCH_TICK s).toNat ∧ e.limit = featC2 x.ctrl s % 65536) ∧
              ∃ l, t.sch.letters.head? = some l ∧ l.state = .ready ∧ l.target = 0 ∧ l.owner = f ∧ l.exec = s.prog.nextExec ∧
                l.arg0 = BitVec.ofNat 64 (0x10000 + p.entry) ∧ l.arg1 = 0x100000000000)) ∧
          ((∃ c, c < 8 ∧ clusterServes c s = true) → (resOf f s).compW = 0 ∨ (resOf f s).execs ≤ (s.prog.execs.filter (fun e => e.2.func = f)).length →
            Completes (.executeProgram tag slot r ps) s quota)) ∧
        (∀ r ps, 16 < r → ps.length ≤ 4096 → Completes (.executeProgram tag slot r ps) s invalid))) ∧
    (∀ off bs, off % 8 = 0 → off + 160 ≤ slmSize f s → readSpace (.host f) off 160 s = some bs →
      let r := matchBlock f bs s
      Completes (.matchLookup tag off 1) s (fun t => Answered x 0 0 false (if r.1.status = 0 then 0 else 1) (if r.1.hit then 1 else 0) [] s t ∧ t.mat = r.2.2.mat)) ∧
    (∀ off n, off % 8 ≠ 0 ∨ n = 0 ∨ slmSize f s < off + 160 * n → Completes (.matchLookup tag off n) s invalid) ∧
    (∀ c11 c12, 1 ≤ c11 % 16 → c11 % 16 ≤ 8 → 1 ≤ c11 / 32 % 32 → c11 / 32 % 32 ≤ 16 → c11 < 1024 → c12 ≠ 0 → c11 / 16 % 2 = 0 ∨ isPhysical f s = true → f < 128 →
      let made := (createTable f (c11 % 16) (c11 / 32 % 32) c12 (c11 / 16 % 2 == 1) s).1
      (∀ n cap, made = .made n cap → Completes (.matchTableCreate tag c11 c12 0) s (fun t => Answered x 0 0 false n cap [] s t ∧ c12 ≤ cap ∧
        (tblAt n s).valid = false ∧ (tblAt n t).valid = true ∧ (tblAt n t).owner = f ∧ (tblAt n t).reps = c11 / 32 % 32 ∧ c11 % 16 ≤ 2 * (tblAt n t).w)) ∧
      (made = .noSpace → Completes (.matchTableCreate tag c11 c12 0) s (Failed x 7 0xD8 false s)) ∧
      (made = .quota → Completes (.matchTableCreate tag c11 c12 0) s quota)) ∧
    (∀ c11 c12 c13, c11 % 16 = 0 ∨ c12 = 0 ∨ c13 ≠ 0 → Completes (.matchTableCreate tag c11 c12 c13) s invalid) ∧
    (∀ n, n < 256 → (tblAt n s).valid = true → (tblAt n s).owner = f → Completes (.matchTableDelete tag n) s (fun t => Succeeded x s t ∧ (tblAt n t).valid = false)) ∧
    (∀ n, 256 ≤ n ∨ (tblAt n s).valid = false ∨ (tblAt n s).owner ≠ f → Completes (.matchTableDelete tag n) s invalid)

/-- R298, R364, R382–R387, R389: runtime calls, letters started on cores, media reads, and how executions end. -/
def Obligations.Executions : Prop :=
  ∀ (s : State) (e : Nat) (x : Exec), SMap.find s.prog.execs e = some x →
    let exec (t : State) : Option Exec := SMap.find t.prog.execs e
    (∀ k, k < 64 →
      let a (i : Nat) : Nat := (gr k i s).toNat
      let back (g1 g2 : Option Word) (t : State) : Prop := (coreAt k t).lvl = 0 ∧ (coreAt k t).pc = sysAt k 0x42 s + 4 ∧
        gr k 1 t = g1.getD (gr k 1 s) ∧ gr k 2 t = g2.getD (gr k 2 s) ∧ ∀ i, i < 32 → 3 ≤ i → gr k i t = gr k i s
      (svCall k 6 s = some e → x.endWith = none → Completes (.exit k) s (fun t => exec t = some { x with endWith := some (0, a 1 % 2 ^ 32), pcEnd := (coreAt k s).pc, faddr := 0 })) ∧
      (svCall k 6 s = some e → x.endWith ≠ none → Completes (.exit k) s (fun t => exec t = some x)) ∧
      (svCall k 7 s = some e →
        (∀ iu n, wholeUnits x.ctrl (a 1) (a 2) (a 3) s = some (iu, n) →
          (∀ w, w < 16 → SMap.find x.windows w = none → (∀ v, v < w → SMap.find x.windows v ≠ none) → windowSpace s + n * 16384 ≤ 0x100000000000 →
            Completes (.wmap k) s (fun t => back (some (BitVec.ofNat 64 (0x400000000000 + w * 0x10000000000))) (some 0) t ∧
              exec t = some { x with windows := SMap.put x.windows w ⟨a 1, iu, n, false⟩ })) ∧
          ((∀ w, w < 16 → SMap.find x.windows w ≠ none) → Completes (.wmap k) s (fun t => back (some 0) (some 1) t ∧ t.prog = s.prog)) ∧
          ((∃ w, w < 16 ∧ SMap.find x.windows w = none) → 0x100000000000 < windowSpace s + n * 16384 →
            Completes (.wmap k) s (fun t => back (some 0) (some 3) t ∧ t.prog = s.prog))) ∧
        (wholeUnits x.ctrl (a 1) (a 2) (a 3) s = none → Completes (.wmap k) s (fun t => back (some 0) (some 2) t ∧ t.prog = s.prog))) ∧
      (svCall k 8 s = some e →
        (∀ w m, a 1 = 0x400000000000 + w * 0x10000000000 → SMap.find x.windows w = some m →
          (suspendedOn x.func m.nsid m.iu m.count s = false → Completes (.wunmap k) s (fun t => back none (some 0) t ∧
            (∃ y, exec t = some y ∧ SMap.find y.windows w = none) ∧ ∀ g ∈ t.prog.pages, ¬ (g.func = x.func ∧ g.nsid = m.nsid ∧ m.iu ≤ g.iu ∧ g.iu < m.iu + m.count))) ∧
          (suspendedOn x.func m.nsid m.iu m.count s = true → Completes (.wunmap k) s (fun t => t.cores = s.cores ∧
            exec t = some { x with windows := SMap.put x.windows w { m with closing := true } }))) ∧
        (a 1 % 0x10000000000 ≠ 0 → Completes (.wunmap k) s (fun t => back none (some 2) t ∧ t.prog = s.prog))) ∧
      (svCall k 9 s = some e → ∀ bs, readSpace (.exec e) (a 1) 12 s = some bs →
        let c11 := fieldAt bs 0 4
        let made := (createTable x.func (c11 % 16) (c11 / 32 % 32) (fieldAt bs 4 4) (c11 / 16 % 2 == 1) s).1
        (1 ≤ c11 % 16 → c11 % 16 ≤ 8 → 1 ≤ c11 / 32 % 32 → c11 / 32 % 32 ≤ 16 → c11 < 1024 → fieldAt bs 4 4 ≠ 0 → fieldAt bs 8 4 = 0 → c11 / 16 % 2 = 0 → x.func < 128 →
          (∀ n cap, made = .made n cap → Completes (.tcreate k) s (fun t => back (some (BitVec.ofNat 64 n)) (some 0) t ∧ exec t = some { x with tables := x.tables ++ [n] } ∧
            (tblAt n t).valid = true ∧ (tblAt n t).owner = x.func)) ∧
          (made = .quota → Completes (.tcreate k) s (back (some 0) (some 1))) ∧ (made = .noSpace → Completes (.tcreate k) s (back (some 0) (some 3)))) ∧
        (c11 % 16 = 0 ∨ fieldAt bs 4 4 = 0 ∨ fieldAt bs 8 4 ≠ 0 → Completes (.tcreate k) s (back (some 0) (some 2)))) ∧
      (svCall k 10 s = some e →
        (a 1 ∈ x.tables → a 1 < 256 → Completes (.tdelete k) s (fun t => back none (some 0) t ∧ (tblAt (a 1) t).valid = false ∧
          exec t = some { x with tables := x.tables.filter (fun n => n ≠ a 1) })) ∧
        (a 1 ∉ x.tables → Completes (.tdelete k) s (fun t => back none (some 2) t ∧ t.prog = s.prog))) ∧
      (svCall k 11 s = some e →
        let mine := (s.sch.routes.filter (fun r => r.2.owner = x.func ∧ r.2.exec = e)).length
        (1 ≤ a 1 → a 1 ≤ 3 → x.func < 128 → mine < x.maxRoutes →
          (∀ i, i < 262144 → SMap.find s.sch.routes i = none → Completes (.route k) s (fun t => ∃ r, r < 262144 ∧ SMap.find s.sch.routes r = none ∧
            SMap.find t.sch.routes r = some ⟨a 1, x.func, e, (resOf x.func s).mask, false⟩ ∧ back (some (BitVec.ofNat 64 r)) (some 0) t))) ∧
        (1 ≤ a 1 → a 1 ≤ 3 → x.maxRoutes ≤ mine → Completes (.route k) s (fun t => back (some 0) (some 1) t ∧ t.sch = s.sch)) ∧
        (a 1 = 0 ∨ 3 < a 1 → Completes (.route k) s (fun t => back (some 0) (some 2) t ∧ t.sch = s.sch))) ∧
      (∀ l fn ns req, pdOn 6 s = true → portAllows k req = true → heldBy k s = none → k ∈ s.sch.offered → s.sch.letters = [l] → l.prio < 4 → orderedMode s = false →
          suits k l s = true → l.owner ≠ 0x80 → l.exec = e → SMap.find s.prog.saved l.id = none →
        let fr := ((List.range x.frames).find? (fun i => ∀ u ∈ x.inUse, u.2 ≠ i)).getD 0
        let bottom := x.frame0 + fr * (x.stack + 2048) + 2048
        Completes (.take k fn ns req) s (fun t => (coreAt k t).lvl = 0 ∧ (coreAt k t).pc = l.arg0 ∧ (coreAt k t).tables = some e ∧ gr k 1 t = l.arg1 ∧
          gr k 2 t = BitVec.ofNat 64 (l.id + l.gen * 2 ^ 20) ∧ gr k 3 t = BitVec.ofNat 64 e ∧ gr k 31 t = BitVec.ofNat 64 (bottom + x.stack) ∧
          gr k 4 t = (if l.id + l.gen * 2 ^ 20 = x.firstLetter then BitVec.ofNat 64 x.plen else 0) ∧
          exec t = some { x with inUse := x.inUse ++ [(l.id, fr)] }))) ∧
    (x.endWith = none → x.limit ≠ 0 → x.start + x.limit * 1000000 < (rd Reg.SCH_TICK s).toNat →
      Completes (.executionTimeLimit e) s (fun t => exec t = some { x with endWith := some (3, 0), faddr := 0, pcEnd := 0 })) ∧
    (x.limit = 0 ∨ (rd Reg.SCH_TICK s).toNat ≤ x.start + x.limit * 1000000 → Completes (.executionTimeLimit e) s (fun t => t = s)) ∧
    (∀ c, InPhase x.tag .started [.program] c s → s.sch.letters = [] → s.scan.jobs = [] → s.sch.reads = [] → s.prog.waiting = [] → x.windows = [] → x.tables = [] →
        SMap.sorted s.prog.execs = true →
      let ended (sct sc : Nat) (dnr : Bool) (dw0 : Nat) (t : State) : Prop := Answered c sct sc dnr dw0 (Nat.min x.ended 0xFFFFFFFF) [] s t ∧ exec t = none ∧
        ∀ r ∈ t.sch.routes, ¬ (r.2.owner = x.func ∧ r.2.exec = e)
      (x.endWith = none → Completes (.executionEnd e) s (ended 0 0 false 0)) ∧
      (∀ v, x.endWith = some (0, v) → Completes (.executionEnd e) s (ended 0 0 false v)) ∧
      (∀ cause, x.endWith = some (2, cause) → Completes (.executionEnd e) s (fun t => ended 7 0xD0 true (0x200 + cause) t ∧
        ∃ g, t.nv.errs.head? = some g ∧ g.lba = x.faddr.toNat ∧ g.cmdInfo = x.pcEnd.toNat ∧ g.vendorInfo = 2)) ∧
      (x.endWith = some (3, 0) → Completes (.executionEnd e) s (ended 7 0xD1 true 0x300)) ∧
      (x.endWith = some (4, 0) → Completes (.executionEnd e) s (ended 0 0x07 false 0)) ∧
      (x.endWith = some (5, 0) → Completes (.executionEnd e) s (ended 7 0xD2 false 0x500))) ∧
    ((∃ l ∈ s.sch.letters, l.owner = x.func ∧ l.exec = e) → x.endWith = none → Completes (.executionEnd e) s (fun t => t = s)) ∧
    (∀ l h n, s.sch.letters = [l] → l.state = .running → l.target = 6 → l.owner = 0x80 → readSpace .phys l.arg0.toNat 64 s = some h →
        SMap.find s.prog.execs l.exec = none → nsAt (fieldAt h 0 4) s = some n → n.csi = 0 → n.keyLost = false → fieldAt h 4 1 < 2 → fieldAt h 6 2 = 0 →
        fieldAt h 8 8 + fieldAt h 16 8 ≤ n.nsze → fieldAt h 16 8 ≠ 0 → fieldAt h 16 8 * lbaBytes n.flbas ≤ 16777216 → l.arg0.toNat + 64 ≤ 0x4000000 →
      let blocks := unitsOfRange (fieldAt h 0 4) (fieldAt h 8 8) (fieldAt h 16 8) n [] s
      let bytes := (untilNone blocks).1.flatMap (·.data)
      let dst := fieldAt h 24 8
      (untilNone blocks).2 = false → dst + bytes.length ≤ 0x4000000 → dst + bytes.length ≤ l.arg0.toNat ∨ l.arg0.toNat + 64 ≤ dst →
        Completes (.mediaRead l.id []) s (fun t => t.sch.letters = [] ∧ SMap.find t.sch.past l.id = some (l.gen, 0) ∧ rdBytes dst bytes.length t = bytes ∧
          rdByte (l.arg0.toNat + 5) t = 0 ∧ leVal (rdBytes (l.arg0.toNat + 32) 8 t) = 2 ^ 64 - 1 ∧
          ∀ b, b < dst ∨ dst + bytes.length ≤ b → b < l.arg0.toNat ∨ l.arg0.toNat + 64 ≤ b → rdByte b t = rdByte b s))

/-- R403, R405–R413, R415–R417, R419, R421: reads, narrow writes, channels, the error log, scrubbing and repair of the memories. -/
def Obligations.MemoryErrors : Prop :=
  ∀ s : State,
    let up1 (a : Nat) (t : State) : Prop := rd a t = BitVec.ofNat 64 (Nat.min ((rd a s).toNat + 1) (2 ^ 32 - 1))
    let same (a : Nat) (t : State) : Prop := rd a t = rd a s
    let logged (addr src typ port lane bit : Nat) (t : State) : Prop :=
      let i := fget Fl.MEM_LOG_HEAD_INDEX s
      (fget Fl.MEM_LOG_HEAD_FULL s = 0 → fget (Fl.MEM_LOG0_ADDR i) t = addr ∧ fget (Fl.MEM_LOG0_SOURCE i) t = src ∧ fget (Fl.MEM_LOG0_TYPE i) t = typ ∧
        fget (Fl.MEM_LOG0_PORT i) t = port ∧ fget (Fl.MEM_LOG0_LANE i) t = lane ∧ fget (Fl.MEM_LOG1_BIT i) t = bit ∧
        fget Fl.MEM_LOG_HEAD_INDEX t = (i + 1) % 256 ∧ fget Fl.MEM_LOG_HEAD_FULL t = (if (i + 1) % 256 = fget Fl.MEM_LOG_TAIL_INDEX s then 1 else 0)) ∧
      (fget Fl.MEM_LOG_HEAD_FULL s = 1 → up1 Reg.MEM_CNT_LOG_LOST t ∧ fget Fl.MEM_EVENT_LOG_FULL t = 1 ∧ ∀ j, j < 256 → same (Reg.MEM_LOG0 j) t ∧ same (Reg.MEM_LOG1 j) t)
    let failedDev (n l : Nat) (t : State) : Nat := fget ⟨Reg.DMC_DEV_FAILED n, l, 1⟩ t
    let retired (n : Nat) (t : State) : Prop := fget (if n = 0 then ⟨Reg.AON_PD_RETIRED_LO, 31, 1⟩ else ⟨Reg.AON_PD_RETIRED_HI, n - 1, 1⟩) t = 1
    (∀ addr port, dmcServes (dramPlace addr s).1 s = false → (∀ res o, Completes (.dramRead addr port res o) s (fun t => t = s)) ∧
      ∀ data core res, Completes (.narrowWrite addr port data core res) s (fun t => t = s)) ∧
    (∀ addr port, inDram addr s = true → port < 8 → dmcServes (dramPlace addr s).1 s = true →
      let n := (dramPlace addr s).1
      let l := addr / 64
      let base := addr / 64 * 64
      let alone := !failedBeside n (addr / 64 % 2 * 10) s
      let clean : Prop := l ∉ s.dram.poison ∧ l ∉ s.dram.bad
      (∀ o, clean → Completes (.dramRead addr port .good o) s (fun t => t = s)) ∧
      (∀ o lane, clean → lane < 20 → failedDev n lane s = 0 → Completes (.dramRead addr port (.corrected [lane] false) o) s (fun t =>
        up1 (Reg.DMC_CNT_CE n) t ∧ fget (Fl.DMC_EVENT_CE n) t = 1 ∧ logged base 0 0 port lane 0 t ∧ t.mem = s.mem ∧ t.dram.bad = s.dram.bad ∧ same (Reg.DMC_CNT_CE_FAILDEV n) t)) ∧
      (∀ o lane, clean → lane < 20 → failedDev n lane s = 1 → Completes (.dramRead addr port (.corrected [lane] false) o) s (fun t =>
        up1 (Reg.DMC_CNT_CE_FAILDEV n) t ∧ OnlyRegs [Reg.DMC_CNT_CE_FAILDEV n] s t)) ∧
      (∀ o lane, clean → lane < 20 → failedDev n lane s = 0 → Completes (.dramRead addr port (.corrected [lane] true) o) s (fun t =>
        failedDev n lane t = 1 ∧ fget (Fl.DMC_EVENT_DEV_FAIL n) t = 1 ∧ (failedBeside n lane s = true → fget (Fl.DMC_EVENT_CH_FAIL n) t = 1 ∧ retired n t))) ∧
      (∀ o res, l ∈ s.dram.poison → o = .other ∨ o = .firmware true → Completes (.dramRead addr port res o) s (fun t => up1 (Reg.DMC_CNT_POISON_RD n) t ∧
        fget (Fl.DMC_EVENT_POISON_RD n) t = 1 ∧ logged base 0 2 port 0 0 t ∧ t.mem = s.mem ∧ t.dram.poison = s.dram.poison ∧ same (Reg.DMC_CNT_UE n) t ∧ same (Reg.DMC_CNT_CE n) t)) ∧
      (∀ o, clean → o = .other ∨ o = .firmware true → alone = true → Completes (.dramRead addr port (.uncorr false) o) s (fun t => l ∈ t.dram.bad ∧ t.dram.poison = s.dram.poison ∧
        t.mem = s.mem ∧ up1 (Reg.DMC_CNT_UE n) t ∧ fget (Fl.DMC_EVENT_UE n) t = 1 ∧ logged base 0 1 port 0 0 t)) ∧
      (∀ o many, clean → o = .other ∨ o = .firmware true → many = true ∨ alone = false → Completes (.dramRead addr port (.uncorr many) o) s (fun t =>
        fget (Fl.DMC_EVENT_UE n) t = 1 ∧ fget (Fl.DMC_EVENT_CH_FAIL n) t = 1 ∧ retired n t)) ∧
      (∀ res, l ∉ s.dram.poison → l ∈ s.dram.bad → alone = true → Completes (.dramRead addr port res .other) s (fun t => l ∈ t.dram.bad ∧ up1 (Reg.DMC_CNT_UE n) t ∧ logged base 0 1 port 0 0 t)) ∧
      (∀ tag x ph, l ∈ s.dram.poison → InPhase tag ph [.write] x s → Completes (.dramRead addr port .good (.hostWrite tag)) s (fun t => Failed x 0 0x04 false s t ∧ t.ftl.map = s.ftl.map)) ∧
      (∀ tag x ph, l ∈ s.dram.poison → InPhase tag ph [.read] x s → Completes (.dramRead addr port .good (.hostRead tag true)) s (Failed x 0 0x04 false s) ∧
        Completes (.dramRead addr port .good (.hostRead tag false)) s (fun t => t.nv.cmds = s.nv.cmds)) ∧
      (∀ key, l ∈ s.dram.poison → Completes (.dramRead addr port .good (.mapPage key)) s (fun t => t.ftl.cached = s.ftl.cached.filter (fun k => k ≠ key))) ∧
      (l ∈ s.dram.poison → mode s = 4 → fget Fl.AON_MODE_TRANS s = 0 → s.pow.stopping = none → s.pow.afterSeal ≠ .resetOff → activating s = false →
        Completes (.dramRead addr port .good (.firmware false)) s (fun t => t.pow.stopping = some (.reset .mgmt))) ∧
      (∀ data core, data ≠ [] → addr % 64 + data.length ≤ 64 →
        let stored (t : State) : Prop := (∀ i, i < data.length → rdByte (addr + i) t = data.getD i 0) ∧ ∀ b, b < addr ∨ addr + data.length ≤ b → rdByte b t = rdByte b s
        let rmw (t : State) : Prop := rd (Reg.DMC_CNT_RMW n) t = BitVec.ofNat 64 (Nat.min ((rd (Reg.DMC_CNT_RMW n) s).toNat + 1) (2 ^ 64 - 1))
        let lost (t : State) : Prop := t.mem = s.mem ∧ l ∈ t.dram.poison ∧ rmw t ∧ ∀ k, core = some k → k < 77 → sysField k 0x8A 3 1 t = 1
        (data.length = 64 → ∀ res, Completes (.narrowWrite addr port data core res) s (fun t => stored t ∧ l ∉ t.dram.poison ∧ l ∉ t.dram.bad ∧ t.regs = s.regs)) ∧
        (data.length < 64 → clean → Completes (.narrowWrite addr port data core .good) s (fun t => stored t ∧ rmw t ∧ t.dram = s.dram)) ∧
        (data.length < 64 → clean → ∀ lane, lane < 20 → failedDev n lane s = 0 → Completes (.narrowWrite addr port data core (.corrected [lane] false)) s (fun t =>
          stored t ∧ rmw t ∧ up1 (Reg.DMC_CNT_CE n) t ∧ logged base 0 0 port lane 0 t)) ∧
        (data.length < 64 → clean → alone = true → Completes (.narrowWrite addr port data core (.uncorr false)) s (fun t => lost t ∧ up1 (Reg.DMC_CNT_UE n) t ∧ logged addr 0 3 port 0 0 t)) ∧
        (data.length < 64 → l ∈ s.dram.poison → ∀ res, Completes (.narrowWrite addr port data core res) s (fun t => lost t ∧ up1 (Reg.DMC_CNT_POISON_RD n) t ∧ logged addr 0 3 port 0 0 t)))) ∧
    (∀ n, dmcUp n s = true →
      (∀ p, p < 7 → fget (Fl.DMC_LAT_TARGET n p) s ≠ 0 → Completes (.portUrgent n p true) s (fun t => fget ⟨Reg.DMC_STATUS n, 3 + p, 1⟩ t = 1 ∧ OnlyRegs [Reg.DMC_STATUS n] s t)) ∧
      (∀ p, p < 7 → fget (Fl.DMC_LAT_TARGET n p) s = 0 → Completes (.portUrgent n p true) s (fun t => t = s)) ∧
      (∀ p, p < 8 → Completes (.portUrgent n p false) s (fun t => fget ⟨Reg.DMC_STATUS n, 3 + p, 1⟩ t = 0 ∧ OnlyRegs [Reg.DMC_STATUS n] s t)) ∧
      (∀ p, p < 8 → fget ⟨Reg.DMC_STATUS n, 3 + p, 1⟩ s = 1 → Completes (.starvationEpisode n p) s (fun t => up1 (Reg.DMC_CNT_URGENT n p) t ∧ fget (Fl.DMC_EVENT_STARVE n) t = 1)) ∧
      (∀ r p hot, p ≤ 4 → fget (Fl.DMC_REF_STATUS_DEBT n) s - r + p < fget (Fl.DMC_REF_CFG_POSTPONE_MAX n) s →
        Completes (.refreshInterval n r p hot) s (fun t => fget (Fl.DMC_REF_STATUS_DEBT n) t = fget (Fl.DMC_REF_STATUS_DEBT n) s - r + p ∧
          fget (Fl.DMC_STATUS_HOT n) t = (if hot then 1 else 0) ∧ same (Reg.DMC_CNT_REF_FORCED n) t)) ∧
      (∀ r hot, fget (Fl.DMC_REF_CFG_POSTPONE_MAX n) s = fget (Fl.DMC_REF_STATUS_DEBT n) s - r + 1 →
        Completes (.refreshInterval n r 1 hot) s (fun t => fget (Fl.DMC_REF_STATUS_DEBT n) t = 0 ∧ up1 (Reg.DMC_CNT_REF_FORCED n) t ∧ fget (Fl.DMC_EVENT_REF_FORCED n) t = 1)) ∧
      (Completes (.delayApply n true) s (fun t => (∀ l, l < 20 → rd (Reg.DMC_DELAY n l) t = rd (Reg.DMC_STAGE n l) s) ∧ up1 (Reg.DMC_CNT_RECAL n) t ∧ SMap.find t.dram.recalFails n = none)) ∧
      (SMap.find s.dram.recalFails n = none → Completes (.delayApply n false) s (fun t => (∀ l, l < 20 → same (Reg.DMC_DELAY n l) t) ∧ up1 (Reg.DMC_CNT_RECAL_FAIL n) t ∧
        fget (Fl.DMC_EVENT_RECAL_FAIL n) t = 1 ∧ SMap.find t.dram.recalFails n = some 1)) ∧
      (SMap.find s.dram.recalFails n = some 1 → Completes (.delayApply n false) s (fun t => fget (Fl.DMC_EVENT_CH_FAIL n) t = 1 ∧ retired n t)) ∧
      (∀ drift stage good, drift.length = 20 → stage.length = 20 → (∀ d ∈ drift, d.1 < 12 ∧ d.2 < 12) → n ∉ s.dram.recalDue →
        Completes (.recalibrationDue n drift stage false good) s (fun t => (∀ l, l < 20 → fget (Fl.DMC_DRIFT_RD n l) t = (drift.getD l (0, 0)).1 ∧ fget (Fl.DMC_DRIFT_WR n l) t = (drift.getD l (0, 0)).2 ∧
          same (Reg.DMC_DELAY n l) t))) ∧
      (∀ drift stage, drift.length = 20 → stage.length = 20 → mode s = 4 →
        let fits (l : Nat) : Prop := (stage.getD l 0).toNat < 2 ^ 29
        ((∀ l, l < 20 → fits l) → Completes (.recalibrationDue n drift stage true true) s (fun t => up1 (Reg.DMC_CNT_RECAL n) t ∧
          ∀ l, l < 20 → rd (Reg.DMC_DELAY n l) t = BitVec.ofNat 64 (stage.getD l 0).toNat ∧ fget (Fl.DMC_DRIFT_RD n l) t = 0)) ∧
        (∀ l, l < 20 → ¬ fits l → (∀ j, j < 20 → j ≠ l → fits j) → Completes (.recalibrationDue n drift stage true true) s (fun t => failedDev n l t = 1))) ∧
      (∀ drift stage good, drift.length = 20 → stage.length = 20 → mode s = 6 → Completes (.recalibrationDue n drift stage true good) s (fun t => n ∈ t.dram.recalDue ∧
        ∀ l, l < 20 → same (Reg.DMC_DELAY n l) t)) ∧
      (∀ on, Completes (.dramHold n on) s (fun t => fget (Fl.DMC_CTRL_HOLD n) t = (if on then 1 else 0) ∧ fget (Fl.DMC_CTRL_HELD n) t = (if on then 1 else 0) ∧ OnlyRegs [Reg.DMC_CTRL n] s t)) ∧
      (∀ req, Completes (.dramChannelRetire n 0x96 req) s (fun t => retired n t ∧ same (Reg.DMC_EVENT n) t)) ∧
      (∀ key req, key < 256 → key ≠ 0x96 → Completes (.dramChannelRetire n key req) s (fun t => OnlyMarked [] s t)) ∧
      (∀ page, page < 2 ^ 23 →
        let mapped : Prop := ∃ i, i < 512 ∧ fget (Fl.DMC_REMAP_VALID n i) s = 1 ∧ fget (Fl.DMC_REMAP_PAGE n i) s = page
        (mapped → Completes (.pageRetire n page) s (fun t => fget (Fl.DMC_REMAP_CMD_RESULT n) t = 2 ∧ OnlyRegs [Reg.DMC_REMAP_CMD n] s t)) ∧
        (¬ mapped → inSpareArea n page s = true → Completes (.pageRetire n page) s (fun t => fget (Fl.DMC_REMAP_CMD_RESULT n) t = 3 ∧ OnlyRegs [Reg.DMC_REMAP_CMD n] s t)) ∧
        (¬ mapped → inSpareArea n page s = false → (∀ i, i < 512 → fget (Fl.DMC_REMAP_VALID n i) s = 1) →
          Completes (.pageRetire n page) s (fun t => fget (Fl.DMC_REMAP_CMD_RESULT n) t = 1 ∧ fget (Fl.DMC_EVENT_REMAP_FULL n) t = 1 ∧ t.dram = s.dram)) ∧
        (¬ mapped → inSpareArea n page s = false → ∀ i, i < 512 → fget (Fl.DMC_REMAP_VALID n i) s = 0 → (∀ j, j < i → fget (Fl.DMC_REMAP_VALID n j) s = 1) →
          Completes (.pageRetire n page) s (fun t => fget (Fl.DMC_REMAP_VALID n i) t = 1 ∧ fget (Fl.DMC_REMAP_PAGE n i) t = page ∧ fget (Fl.DMC_REMAP_CMD_RESULT n) t = 0 ∧
            fget (Fl.DMC_EVENT_PAGE_RETIRED n) t = 1 ∧ t.mem = s.mem ∧ ∀ l ∈ s.dram.bad, dramPlace (64 * l) s = (n, page) → l ∈ t.dram.poison)))) ∧
    (let a := fget Fl.MEM_SCRUB_POS_ADDR s
      let n := (dramPlace a s).1
      (dmcServes n s = false → ∀ res late, Completes (.scrubStep none res late) s (fun t => t = s)) ∧
      (inDram a s = true → dmcServes n s = true → a % 64 = 0 →
      (a + 64 < dramEnd s → a / 64 ∉ s.dram.poison → a / 64 ∉ s.dram.bad → Completes (.scrubStep none .good false) s (fun t => fget Fl.MEM_SCRUB_POS_ADDR t = a + 64 ∧
        fget Fl.MEM_STATUS_SCRUB_LATE t = 0 ∧ OnlyRegs [Reg.MEM_SCRUB_POS, Reg.MEM_STATUS] s t)) ∧
      (a / 64 ∉ s.dram.poison → a / 64 ∉ s.dram.bad → ∀ lane, lane < 20 → failedDev n lane s = 0 → Completes (.scrubStep none (.corrected [lane] false) false) s (fun t =>
        up1 (Reg.DMC_CNT_CE n) t ∧ logged a 0 4 7 lane 0 t ∧ t.mem = s.mem)) ∧
      (a / 64 ∉ s.dram.poison → failedBeside n (a / 64 % 2 * 10) s = false → Completes (.scrubStep none (.uncorr false) false) s (fun t => a / 64 ∈ t.dram.poison ∧ a / 64 ∉ t.dram.bad ∧
        up1 (Reg.DMC_CNT_UE n) t ∧ logged a 0 5 7 0 0 t ∧ t.mem = s.mem)) ∧
      (dramEnd s ≤ a + 64 → Completes (.scrubStep none .good false) s (fun t => fget Fl.MEM_SCRUB_POS_ADDR t = 0x4000000000 ∧ up1 Reg.MEM_CNT_SCRUB_PASS t)) ∧
      (fget Fl.MEM_STATUS_SCRUB_LATE s = 0 → Completes (.scrubStep none .good true) s (fun t => fget Fl.MEM_STATUS_SCRUB_LATE t = 1 ∧ fget Fl.MEM_EVENT_SCRUB_LATE t = 1)))) ∧
    (∀ ret addr, mode s ≠ 0 → pdOn 3 s = true → (if ret then addr < 0x200000 else addr < 0x4000000 ∧ addr / 8 ∉ s.dram.sram) →
      let src := if ret then 2 else 1
      (∀ late, Completes (.sramRead ret addr .good) s (fun t => t = s) ∧ Completes (.scrubStep (some (ret, addr)) .good late) s (fun t => t = s)) ∧
      (∀ bit, bit < 72 → Completes (.sramRead ret addr (.corrected [bit] false)) s (fun t => up1 Reg.MEM_CNT_SRAM_CE t ∧ fget Fl.MEM_EVENT_SRAM_CE t = 1 ∧
        logged addr src 0 0 (bit % 32) bit t ∧ t.mem = s.mem)) ∧
      (∀ many, Completes (.sramRead ret addr (.uncorr many)) s (fun t => up1 Reg.MEM_CNT_SRAM_UE t ∧ fget Fl.MEM_EVENT_SRAM_UE t = 1 ∧ logged addr src 1 0 0 0 t ∧ t.mem = s.mem ∧
        (ret = false → addr / 8 ∈ t.dram.sram)))) ∧
    (∀ m col index, m < 66 → pdOn 3 s = true →
      let f := if col then Fl.MEM_SRAM_REPAIR_COLS_FREE m else Fl.MEM_SRAM_REPAIR_ROWS_FREE m
      (fget f s = 0 → Completes (.sramRepair m col index) s (fun t => fget Fl.MEM_EVENT_NO_SPARE t = 1 ∧ OnlyMarked [Reg.MEM_EVENT] s t)) ∧
      (fget f s ≠ 0 → Completes (.sramRepair m col index) s (fun t => fget f t + 1 = fget f s ∧ t.dram.fuses = s.dram.fuses ++ [(m, col, index)] ∧
        fget (if col then Fl.MEM_EVENT_COL_REPAIR else Fl.MEM_EVENT_ROW_REPAIR) t = 1)))

/-- R423–R425, R431, R433, R434, R436–R438: links, modules in the cages, frames and rate control of the network ports. -/
def Obligations.NetworkPorts : Prop :=
  ∀ s : State,
    let up1 (a w : Nat) (t : State) : Prop := rd a t = BitVec.ofNat 64 (Nat.min ((rd a s).toNat + 1) (2 ^ w - 1))
    let plus (a w k : Nat) (t : State) : Prop := rd a t = BitVec.ofNat 64 (Nat.min ((rd a s).toNat + k) (2 ^ w - 1))
    let stateOf (n : Nat) (t : State) : Nat := fget (Fl.NET_STATUS_STATE n) t
    let down (n : Nat) (t : State) : Prop := stateOf n t = 0 ∧ fget (Fl.NET_STATUS_SPEED n) t = 0 ∧ fget (Fl.NET_STATUS_FEC_ON n) t = 0 ∧
      fget (Fl.NET_EVENT_LINK_DOWN n) t = 1 ∧ t.net.conns = s.net.conns
    let mayMove (n : Nat) : Prop := fget (Fl.NET_LINK_CFG_FAILOVER n) s = 1 ∧ portUp (1 - n) s = true ∧ n ∉ s.net.moved
    let moved (n : Nat) (t : State) : Prop := n ∈ t.net.moved ∧ fget (Fl.NET_STATUS_HOLDS_OTHER (1 - n)) t = 1 ∧ fget (Fl.NET_EVENT_FAILOVER n) t = 1 ∧
      SMap.find t.net.repeats n = some 2 ∧ ∀ a ∈ addrsOf n s, NetOut.announce (1 - n) n a ∈ t.net.out
    let retired (n : Nat) (t : State) : Prop := stateOf n t = 3 ∧ fget (Fl.NET_EVENT_RETIRED n) t = 1 ∧ pdRetired (10 + n) t = true ∧ mode t = mode s ∧ (mayMove n → moved n t)
    (∀ n, netUp n s = true →
      (stateOf n s = 1 ∨ stateOf n s = 2 → Completes (.portLinkDown n) s (fun t => down n t ∧ (mayMove n → moved n t) ∧ (¬ mayMove n → t.net.moved = s.net.moved) ∧
        SMap.find t.net.downs n = some (SMap.getD s.net.downs n 0 + 1))) ∧
      (stateOf n s = 0 ∨ stateOf n s = 3 → Completes (.portLinkDown n) s (fun t => t = s)) ∧
      (∀ sp fec, 1 ≤ sp → sp ≤ 4 → fget (Fl.NET_LINK_CFG_ENABLE n) s = 1 → moduleReady n s = true → stateOf n s = 0 ∨ stateOf n s = 2 →
        let forced := fget (Fl.NET_LINK_CFG_SPEED n) s
        (forced = 0 ∨ forced = sp → Completes (.portLinkUp n sp fec) s (fun t => stateOf n t = 1 ∧ fget (Fl.NET_STATUS_SPEED n) t = sp ∧
          fget (Fl.NET_STATUS_FEC_ON n) t = (if fec || sp == 4 then 1 else 0) ∧ fget (Fl.NET_EVENT_LINK_UP n) t = 1)) ∧
        (forced ≠ 0 → forced ≠ sp → Completes (.portLinkUp n sp fec) s (fun t => stateOf n t = 0 ∧ fget (Fl.NET_EVENT_LINK_DOWN n) t = 1 ∧ t.net = s.net))) ∧
      (stateOf n s = 1 → n ∈ s.net.moved → Completes (.addressFailback n) s (fun t => n ∉ t.net.moved ∧ fget (Fl.NET_STATUS_HOLDS_OTHER (1 - n)) t = 0 ∧
        SMap.find t.net.repeats n = some 2 ∧ ∀ a ∈ addrsOf n s, NetOut.announce n n a ∈ t.net.out)) ∧
      (∀ k, SMap.find s.net.repeats n = some (k + 1) → netUp (holder n s) s = true → Completes (.announcementRepeat n) s (fun t => SMap.getD t.net.repeats n 0 = k ∧
        t.net.out = s.net.out ++ (addrsOf n s).map (fun a => NetOut.announce (holder n s) n a) ∧ t.regs = s.regs)) ∧
      (stateOf n s ≠ 3 → Completes (.portRetrain n) s (fun t => stateOf n t = 2 ∧ fget (Fl.NET_STATUS_SPEED n) t = 0 ∧ OnlyRegs [Reg.NET_STATUS n] s t)) ∧
      (SMap.find s.net.calFails n = none → Completes (.portRetire n .cal) s (fun t => fget (Fl.NET_EVENT_CAL_FAIL n) t = 1 ∧ SMap.find t.net.calFails n = some 1 ∧ stateOf n t = stateOf n s)) ∧
      (SMap.find s.net.calFails n = some 1 → Completes (.portRetire n .cal) s (fun t => fget (Fl.NET_EVENT_CAL_FAIL n) t = 1 ∧ retired n t)) ∧
      (Completes (.portRetire n (.mem true)) s (fun t => fget (Fl.NET_EVENT_MEM_UE n) t = 1 ∧ retired n t)) ∧
      (Completes (.portRetire n (.mem false)) s (fun t => fget (Fl.NET_EVENT_MEM_UE n) t = 1 ∧ OnlyMarked [Reg.NET_EVENT n] s t)) ∧
      (∀ req, Completes (.portRetire n (.ctrl 0x5C req)) s (retired n)) ∧
      (∀ key req, key < 256 → key ≠ 0x5C → Completes (.portRetire n (.ctrl key req)) s (OnlyMarked [] s)) ∧
      (∀ w tp, w < 256 → tp < 256 →
        let has (t : State) : Prop := fget (Fl.NET_MOD_STATUS_PRESENT n) t = 1 ∧ fget (Fl.NET_MOD_STATUS_POWER n) t = w ∧ fget (Fl.NET_MOD_STATUS_TEMP n) t = tp
        let heldLow (t : State) : Prop := fget (Fl.NET_MOD_STATUS_LOWPOWER_HELD n) t = 1 ∧ (fget (Fl.NET_MOD_STATUS_LOWPOWER_HELD n) s = 0 → fget (Fl.NET_EVENT_MOD_POWER n) t = 1 ∧ stateOf n t ≠ 1)
        (fget (Fl.NET_MOD_STATUS_PRESENT n) s = 0 → Completes (.moduleInsert n w tp) s (fun t => has t ∧ fget (Fl.NET_EVENT_MOD_INSERT n) t = 1 ∧ (60 < w → heldLow t))) ∧
        (fget (Fl.NET_MOD_STATUS_PRESENT n) s = 1 → Completes (.modulePoll n w tp) s (fun t => has t ∧ (60 < w → heldLow t) ∧ (w ≤ 60 → t.net = s.net)))) ∧
      (fget (Fl.NET_MOD_STATUS_PRESENT n) s = 1 → Completes (.moduleRemove n) s (fun t => fget (Fl.NET_MOD_STATUS_PRESENT n) t = 0 ∧ fget (Fl.NET_EVENT_MOD_REMOVE n) t = 1 ∧
        stateOf n t ≠ 1 ∧ (stateOf n s = 1 → down n t)))) ∧
    (∀ n len cor unc, portUp n s = true → mode s ≠ 6 →
      let counted (t : State) : Prop := plus (Reg.NET_CNT_RX_BYTES n) 64 len t ∧ plus (Reg.NET_CNT_FEC_CORR n) 64 cor t ∧ plus (Reg.NET_CNT_FEC_UNCORR n) 32 unc t
      (∀ p a, len ≤ 9216 → p < 2 → holder p s = n → addrValid p a s = true →
        Completes (.frameReceived n (.resolve p a) len cor unc none none) s (fun t => counted t ∧ t.net.out = s.net.out ++ [.answer n (.resolve p a)]) ∧
        Completes (.frameReceived n (.echo p a) len cor unc none none) s (fun t => counted t ∧ plus (Reg.NET_CNT_TX_BYTES n) 64 len t ∧ t.net.out = s.net.out ++ [.answer n (.echo p a)])) ∧
      (∀ p a, len ≤ 9216 → 2 ≤ p ∨ holder p s ≠ n ∨ addrValid p a s = false → Completes (.frameReceived n (.resolve p a) len cor unc none none) s (fun t => counted t ∧ t.net.out = s.net.out)) ∧
      (∀ c x, len ≤ 9216 → SMap.find s.net.conns c = some x → Completes (.frameReceived n (.transport c) len cor unc none none) s (fun t => counted t ∧
        SMap.find t.net.conns c = some { x with retries := 0 })) ∧
      (∀ k, 9216 < len → Completes (.frameReceived n k len cor unc none none) s (fun t => t.net = s.net ∧ rd (Reg.NET_CNT_RX_BYTES n) t = rd (Reg.NET_CNT_RX_BYTES n) s)) ∧
      (∀ p, p < 8 → len ≤ 9216 → fget (Fl.NET_LINK_CFG_PFC_EN n) s = 0 ∨ fget (Fl.NET_LINK_CFG_PFC_MASK n) s / 2 ^ p % 2 = 1 →
        ((n, p) ∉ s.net.paused → Completes (.frameReceived n .other len cor unc (some p) none) s (fun t => t.net.out = s.net.out ++ [.pause n p true] ∧
          (n, p) ∈ t.net.paused ∧ up1 (Reg.NET_CNT_PFC_TX n) 32 t)) ∧
        ((n, p) ∈ s.net.paused → Completes (.frameReceived n .other len cor unc none (some p)) s (fun t => t.net.out = s.net.out ++ [.pause n p false] ∧ (n, p) ∉ t.net.paused)))) ∧
    (∀ n p a len cor unc, portUp n s = true → mode s = 6 → p < 2 → holder p s = n → addrValid p a s = true →
      Completes (.frameReceived n (.resolve p a) len cor unc none none) s (fun t => mode t = mode (wakeBy 6 s) ∧ t.pow = (wakeBy 6 s).pow)) ∧
    (∀ c x, SMap.find s.net.conns c = some x → x.roce = true →
      let link := speedBps (fget (Fl.NET_STATUS_SPEED (holder x.port s)) s)
      let low (r : Rat) : Rat := if r < 100000000 then 100000000 else if link < r then link else r
      let got (t : State) : Prop := ∃ y, SMap.find t.net.conns c = some y ∧ y = { x with rate := y.rate }
      let rated (p : Dcqcn → Prop) (t : State) : Prop := ∃ y, SMap.find t.net.conns c = some y ∧ p y.rate
      (Completes (.cePacketReceived c false) s (fun t => t.net.out = s.net.out ++ [.cnp c] ∧ up1 (Reg.NET_CNT_CNP_TX (holder x.port s)) 32 t)) ∧
      (Completes (.cePacketReceived c true) s (fun t => t = s)) ∧
      (Completes (.cnpReceived c) s (fun t => got t ∧ up1 (Reg.NET_CNT_CNP_RX (holder x.port s)) 32 t ∧ rated (fun r => r.target = x.rate.cur ∧ r.steps = 0 ∧
        r.cur = low (x.rate.cur * (1 - x.rate.alpha / 2)) ∧ r.alpha = 255 / 256 * x.rate.alpha + 1 / 256) t)) ∧
      (x.rate.steps < 5 → Completes (.rateRecoveryTimer c) s (fun t => got t ∧ rated (fun r => r.target = low x.rate.target ∧ r.steps = x.rate.steps + 1 ∧
        r.cur = low ((x.rate.cur + low x.rate.target) / 2) ∧ r.alpha = 255 / 256 * x.rate.alpha) t)) ∧
      (5 ≤ x.rate.steps → Completes (.rateRecoveryTimer c) s (fun t => got t ∧ rated (fun r =>
        r.target = low (x.rate.target + (if x.rate.steps < 10 then 40000000 else 400000000)) ∧ r.steps = x.rate.steps + 1) t)))

/-- R73, R108, R426, R427, R429–R432: connections, Connects, associations and how they end. The identifier a Connect gets is the model's choice:
the lowest free one. -/
def Obligations.NetworkConnections : Prop :=
  ∀ (s : State) (c n : Nat), n < 2 → portUp (holder n s) s = true →
    let conn (t : State) : Option NetConn := SMap.find t.net.conns c
    let sent (o : NetOut) (t : State) : Prop := o ∈ t.net.out
    let listening (roce : Bool) : Prop := fget (if roce then Fl.NET_LINK_CFG_ROCE_EN n else Fl.NET_LINK_CFG_TCP_EN n) s = 1
    let up1 (a : Nat) (t : State) : Prop := rd a t = BitVec.ofNat 64 (Nat.min ((rd a s).toNat + 1) (2 ^ 32 - 1))
    let gone (k : Nat) (t : State) : Prop := ctrlAt k t = none ∧ (∀ a ∈ t.net.assocs, a.ctrl ≠ k) ∧ (∀ e ∈ t.net.conns, e.2.ctrl ≠ some k) ∧
      ∀ a ∈ s.net.assocs, a.ctrl ≠ k → a ∈ t.net.assocs
    let refused (sc : Nat) (dnr : Bool) (t : State) : Prop := sent (.refused c 1 sc dnr) t ∧ up1 (Reg.NET_CNT_CONNECT_REF (holder n s)) t ∧
      fget (Fl.NET_EVENT_CONNECT_REFUSED (holder n s)) t = 1 ∧ t.nv = s.nv ∧ t.net.assocs = s.net.assocs ∧ t.net.conns = s.net.conns
    (∀ slot, conn s = none → listening false →
      (pskFilled slot s = true → Completes (.tlsHandshake c n slot true) s (fun t => ∃ x, conn t = some x ∧ x = { freshConn n false s with tls := some slot })) ∧
      (∀ ok, ok = false ∨ pskFilled slot s = false → Completes (.tlsHandshake c n slot ok) s (fun t => conn t = none ∧ sent (.close c true) t ∧
        up1 (Reg.NET_CNT_TLS_FAIL (holder n s)) t ∧ fget (Fl.NET_EVENT_TLS_FAIL (holder n s)) t = 1))) ∧
    (∀ h d a, listening false → conn s = none → Completes (.icreq c n h d a) s (fun t => sent (.icResp c h d) t ∧
      ∃ x, conn t = some x ∧ x = { freshConn n false s with ready := true, hdgst := h, ddgst := d, hpda := Nat.min a 31 })) ∧
    (∀ h d a x, listening false → conn s = some x → x.ready = false → x.roce = false → x.port = n → Completes (.icreq c n h d a) s (fun t => sent (.icResp c h d) t ∧
      conn t = some { x with ready := true, hdgst := h, ddgst := d, hpda := Nat.min a 31 })) ∧
    (∀ x nqn k size kato, conn s = some x → x.ready = true → x.port = n → x.ctrl = none → listening x.roce →
      let opened (disc : Bool) (f : Nat) (entry : Option Nat) (t : State) : Prop := ∃ k', k' < (if disc then 0x220 else 0x200) ∧ (if disc then 0x200 else 0x100) ≤ k' ∧
        ctrlAt k' s = none ∧ sent (.connected c k') t ∧ conn t = some { x with ctrl := some k', queue := 0 } ∧
        (⟨k', entry, Nat.min kato 3600000, disc⟩ : Assoc) ∈ t.net.assocs ∧ ∃ y, ctrlAt k' t = some y ∧ y.fabric = true ∧ y.func = f ∧ y.en = false
      (∀ i, findHost nqn s = some i → hostFlag i (if x.roce then 2 else 1) s = true → hostFlag i 3 s = false ∨ x.tls ≠ none →
        (s.nv.stopped = false → size ≤ 32 → (fabricCtrls s).length < 256 → (s.net.assocs.filter (fun a => a.entry == some i)).length < hostMax i s → freeCntlid 0x100 256 s ≠ none →
          Completes (.connect c n x.roce nqn false k 0 size kato) s (opened false (hostFunc i s) (some i))) ∧
        (s.nv.stopped = false → 32 < size → Completes (.connect c n x.roce nqn false k 0 size kato) s (refused 0x82 true)) ∧
        (s.nv.stopped = false → size ≤ 32 → 256 ≤ (fabricCtrls s).length ∨ hostMax i s ≤ (s.net.assocs.filter (fun a => a.entry == some i)).length →
          Completes (.connect c n x.roce nqn false k 0 size kato) s (refused 0x81 false))) ∧
      (s.nv.stopped = false → findHost nqn s = none ∨ (∃ i, findHost nqn s = some i ∧ (hostFlag i (if x.roce then 2 else 1) s = false ∨ (hostFlag i 3 s = true ∧ x.tls = none))) →
        Completes (.connect c n x.roce nqn false k 0 size kato) s (refused 0x84 true)) ∧
      (s.nv.stopped = false → size ≤ 32 → (s.net.assocs.filter (·.disc)).length < 32 → freeCntlid 0x200 32 s ≠ none →
        Completes (.connect c n x.roce nqn true k 0 size kato) s (opened true 0 none)) ∧
      (s.nv.stopped = false → 32 ≤ (s.net.assocs.filter (·.disc)).length → Completes (.connect c n x.roce nqn true k 0 size kato) s (refused 0x81 false)) ∧
      (∀ qid y, qid ≠ 0 → ctrlAt k s = some y → y.fabric = true → y.en = true → (∃ a ∈ s.net.assocs, a.ctrl = k ∧ a.disc = false) →
        (qid ≤ 32 → size ≤ 1024 → SMap.find y.sqs qid = none →
          (fabricQueues s < 2048 → s.nv.stopped = false → Completes (.connect c n x.roce nqn false k qid size kato) s (fun t => sent (.connected c k) t ∧
            conn t = some { x with ctrl := some k, queue := qid } ∧ ∃ z, ctrlAt k t = some z ∧ (SMap.find z.sqs qid).map (fun q => (q.size, q.cq)) = some (size, qid))) ∧
          (2048 ≤ fabricQueues s → Completes (.connect c n x.roce nqn false k qid size kato) s (refused 0x81 false))) ∧
        (32 < qid ∨ 1024 < size → Completes (.connect c n x.roce nqn false k qid size kato) s (refused 0x82 true)))) ∧
    (∀ k y v, ctrlAt k s = some y → y.fabric = true →
      (v % 2 = 1 → v / 2 ^ 14 % 4 = 0 → Completes (.propertySet k 0x14 v) s (fun t => ∃ z, ctrlAt k t = some z ∧ z = { y with en := true, ams := z.ams, mps := z.mps })) ∧
      (v % 2 = 0 → y.en = true →
        (mode s ≠ 8 → activating s = false → (∃ a ∈ s.net.assocs, a.ctrl = k) → Completes (.propertySet k 0x14 v) s (gone k)) ∧
        (mode s = 8 → Completes (.propertySet k 0x14 v) s (fun t => t = { s with pow := { s.pow with waitResets := s.pow.waitResets ++ [.ctrl k] } })) ∧
        (mode s ≠ 8 → activating s = true → Completes (.propertySet k 0x14 v) s (fun t => t = { s with mgt := { s.mgt with late := s.mgt.late ++ [.ctrl k] } }))) ∧
      (Completes (.propertySet k 0x20 0x4E564D65) s (fun t => t = nvmSubsystemReset false s))) ∧
    (∀ a ∈ s.net.assocs, a.kato ≠ 0 →
      (s.net.switching = false → fget Fl.HIF_FETCH_CTRL_HOLD s = 0 → Completes (.katoExpiry a.ctrl) s (gone a.ctrl)) ∧
      (s.net.switching = true ∨ fget Fl.HIF_FETCH_CTRL_HOLD s = 1 → Completes (.katoExpiry a.ctrl) s (fun t => t = s))) ∧
    (∀ x, conn s = some x →
      let lost (t : State) : Prop := conn t = none ∧ ∀ k, x.ctrl = some k → (∃ a ∈ s.net.assocs, a.ctrl = k) → gone k t
      (Completes (.connectionClosed c) s lost) ∧
      (x.roce = true → Completes (.queuePairError c) s lost) ∧
      (∀ tag db, x.roce = false → x.hdgst = true → Completes (.h2cData c tag true db) s lost) ∧
      (∀ tag y, x.roce = false → x.ddgst = true → InPhase tag .fetched [.write] y s → x.ctrl = some y.ctrl →
        Completes (.h2cData c tag false true) s (fun t => Failed y 0 0x22 false s t ∧ t.mem = s.mem ∧ t.ftl.map = s.ftl.map)) ∧
      (x.roce = true → 7 ≤ x.retries → Completes (.retransmissionTimeout c) s lost) ∧
      (x.roce = false ∨ x.retries < 7 → Completes (.retransmissionTimeout c) s (fun t => sent (.resend c) t ∧ conn t = some { x with retries := x.retries + 1 } ∧ t.regs = s.regs)))

/-- R444, R447–R457, R508: letterbox rings, requests, notices and what the manager assigns. -/
def Obligations.Letterboxes : Prop :=
  ∀ (s : State) (f : Nat), f < 128 → lbxUp s = true →
    let holds (g slot : Nat) (bs : List Byte) (t : State) : Prop := ∀ j, j < 64 → (rd (Reg.LBX_M2H_SLOT g slot j) t).toNat = fieldAt bs (4 * j) 4
    let last (g : Nat) (m : Msg) (t : State) : Prop := holds g ((fget (Fl.LBX_M2H_TAIL_INDEX g) t + 255) % 8) (msgBytes m) t
    let open_ (g : Nat) : Prop := SMap.getD s.ten.hold g [] = [] ∧ SMap.find s.ten.lost g = none ∧ 0 < m2hFree g s
    let noticed (g : Nat) (m : Msg) (t : State) : Prop := open_ g → last g m t ∧ fget (Fl.LBX_M2H_TAIL_INDEX g) t = (fget (Fl.LBX_M2H_TAIL_INDEX g) s + 1) % 256
    let t0 := fget (Fl.LBX_H2M_TAIL_INDEX f) s
    let h0 := fget (Fl.LBX_H2M_HEAD_INDEX f) s
    (∀ msgs : List (List Byte), mode s ≠ 6 → mode s ≠ 7 → s.pow.idleWait = none → funcEnabled f s = true → msgs.length ≤ 4 → (t0 + msgs.length + 256 - h0) % 256 ≤ 4 →
      Completes (.letterboxDoorbell f msgs ((t0 + msgs.length) % 256)) s (fun t => fget (Fl.LBX_H2M_TAIL_INDEX f) t = (t0 + msgs.length) % 256 ∧
        t.ten = { s.ten with doorbells := s.ten.doorbells ++ List.replicate msgs.length f } ∧
        ∀ i, i < msgs.length → ∀ j, j < 64 → (rd (Reg.LBX_H2M_SLOT f ((t0 + i) % 4) j) t).toNat = fieldAt (msgs.getD i [] ++ List.replicate 256 0) (4 * j) 4)) ∧
    (∀ tail, mode s ≠ 6 → mode s ≠ 7 → s.pow.idleWait = none → funcEnabled f s = true → tail < 256 → 4 < (tail + 256 - h0) % 256 ∨ 4 < (tail + 256 - t0) % 256 →
      Completes (.letterboxDoorbell f [] tail) s (fun t => fget (Fl.LBX_H2M_TAIL_INDEX f) t = t0 ∧ t.ten.doorbells = s.ten.doorbells ∧
        noticed f (notice 0x13 f [1]) t)) ∧
    (∀ head, mode s ≠ 6 → mode s ≠ 7 → s.pow.idleWait = none → funcEnabled f s = true → head < 256 →
      (Completes (.m2hHeadWrite f head) s (fun t => fget (Fl.LBX_M2H_HEAD_INDEX f) t = head ∧ t.ten.doorbells = s.ten.doorbells ∧
        (SMap.getD s.ten.hold f [] = [] → t.ten = s.ten ∧ fget (Fl.LBX_M2H_TAIL_INDEX f) t = fget (Fl.LBX_M2H_TAIL_INDEX f) s))) ∧
      (∀ m, SMap.find s.ten.hold f = some [m] → SMap.find s.ten.lost f = none → (fget (Fl.LBX_M2H_TAIL_INDEX f) s + 256 - head) % 256 < 8 →
        Completes (.m2hHeadWrite f head) s (fun t => SMap.getD t.ten.hold f [] = [] ∧ fget (Fl.LBX_STATUS_HELD f) t = 0 ∧ last f m t))) ∧
    (s.ten.paused = true ∨ coreHalted 76 s = true → Completes .letterboxQuery s (fun t => t = s) ∧ Completes .assign s (fun t => t = s) ∧ Completes .move s (fun t => t = s) ∧
      (∀ down, Completes (.claim down) s (fun t => t = s)) ∧ Completes .relay s (fun t => t = s)) ∧
    (∀ bs, nextRequest s = some f → requestBytes f s = bs → 0 < m2hFree f s →
      let g := fieldAt bs 4 2
      let r := fieldAt bs 16 4
      let v := fieldAt bs 20 4
      let boss : Prop := f = s.ten.manager
      let bad : Prop := 128 ≤ g ∨ funcEnabled g s = false
      let answer (st : Nat) (payload : List Byte) (t : State) : Prop := fget (Fl.LBX_H2M_HEAD_INDEX f) t = (h0 + 1) % 256 ∧ t.ten.doorbells = s.ten.doorbells.erase f ∧
        last f ⟨2, fieldAt bs 1 1, fieldAt bs 2 2, g, st, 0, payload⟩ t ∧
        (fget (Fl.LBX_VECTOR_EN f) s = 1 → irqOpen f (fget (Fl.LBX_VECTOR_NUM f) s) s = true → t.ten.m2hIrqs.getLast? = some (f, fget (Fl.LBX_VECTOR_NUM f) s))
      let refused (st : Nat) (t : State) : Prop := answer st [] t ∧ t.ten = { s.ten with doorbells := s.ten.doorbells.erase f, m2hIrqs := t.ten.m2hIrqs }
      let asks (op : Nat) : Prop := fieldAt bs 0 1 = 1 ∧ fieldAt bs 1 1 = op ∧ fieldAt bs 6 1 = 0 ∧ fieldAt bs 8 8 = 0
      let sole (t : State) : Prop := ∀ h, h < 128 → h ≠ g → ∀ q, q < 15 → resValue h q t = resValue h q s
      (fieldAt bs 0 1 = 0 ∨ 4 < fieldAt bs 0 1 → 1 < m2hFree f s → SMap.getD s.ten.hold f [] = [] → Completes .letterboxQuery s (answer 2 [])) ∧
      (fieldAt bs 0 1 = 1 → fieldAt bs 1 1 = 0 ∨ 5 < fieldAt bs 1 1 → Completes .letterboxQuery s (refused 2)) ∧
      (fieldAt bs 0 1 = 1 → fieldAt bs 6 1 ≠ 0 ∨ fieldAt bs 8 8 ≠ 0 → (fieldAt bs 1 1 = 1 → Completes .letterboxQuery s (refused 2)) ∧
        (fieldAt bs 1 1 = 2 → Completes .assign s (refused 2)) ∧ (fieldAt bs 1 1 = 3 → Completes .move s (refused 2)) ∧
        (fieldAt bs 1 1 = 5 → Completes .relay s (refused 2))) ∧
      (asks 1 → boss ∨ g = f → ¬ bad → Completes .letterboxQuery s (fun t => answer 0 (queryPayload g s) t ∧
        ∀ i, i < 14 → fieldAt (queryPayload g s) (4 * i) 4 = resValue g (i + 1) s % 2 ^ 32)) ∧
      (asks 1 → ¬ boss → g ≠ f → Completes .letterboxQuery s (refused 1)) ∧ (asks 1 → boss → bad → Completes .letterboxQuery s (refused 2)) ∧
      (asks 2 →
        (boss → ¬ bad → assignRefusal g r v s = none → Completes .assign s (fun t => resValue g r t = v ∧ (∀ q, q < 15 → q ≠ r → resValue g q t = resValue g q s) ∧ sole t ∧
          answer 0 [] t ∧ (g ≠ f → resValue g r s ≠ v → noticed g (changedMsg g r (resValue g r s) v 0) t))) ∧
        (∀ st, boss → ¬ bad → assignRefusal g r v s = some st → Completes .assign s (refused st)) ∧
        (¬ boss → Completes .assign s (refused 1)) ∧ (boss → bad → Completes .assign s (refused 2))) ∧
      (r = 3 ∨ r = 4 ∨ 14 < r ∨ r = 0 → assignRefusal g r v s = some 2) ∧
      (r = 1 → v ≤ 32 → (assignRefusal g r v s = some 3 ↔ 4096 < partitionSum g 1 v s) ∧ (assignRefusal g r v s = none ↔ partitionSum g 1 v s ≤ 4096)) ∧
      (r = 2 → 1 ≤ v → v ≤ 128 → partitionSum g 2 v s ≤ 2048 → assignRefusal g r v s = (if g ∈ s.ten.msixOn then some 5 else none)) ∧
      (r = 9 → v < 512 → (∃ n, n < 8 ∧ v / 2 ^ n % 2 = 1 ∧ clusterServes n s = true) →
        (∃ h, h < 128 ∧ h ≠ g ∧ h ∈ knownFuncs s ∧ ((resOf h s).mask &&& v % 256) ≠ 0 ∧ ((resOf h s).excl = true ∨ 256 ≤ v)) → assignRefusal g r v s = some 7) ∧
      (asks 3 →
        let a := fieldAt bs 16 2
        let b := fieldAt bs 18 2
        (boss → ¬ bad → a ≤ 215 → b ≤ 192 → moveRefusals g a b s = [] → Completes .move s (fun t => (slmOf g t).length = a ∧ (privOf g t).length = b ∧
          (∀ h, h < 128 → h ≠ g → slmOf h t = slmOf h s ∧ privOf h t = privOf h s) ∧
          (∀ c ∈ t.mem, ∀ x ∈ (slmOf g s).drop a, ¬ (granBase s + x * 0x10000000 ≤ c.1 ∧ c.1 < granBase s + (x + 1) * 0x10000000)) ∧ answer 0 [] t)) ∧
        (∀ st, boss → ¬ bad → a ≤ 215 → b ≤ 192 → moveRefusals g a b s = [st] → Completes .move s (refused st)) ∧
        (poolSize s < slmTotal s - (slmOf g s).length + a + (privTotal s - (privOf g s).length + b) → 3 ∈ moveRefusals g a b s) ∧
        (a < SMap.getD s.ten.memNs g 0 → 4 ∈ moveRefusals g a b s) ∧
        (¬ boss → Completes .move s (refused 1)) ∧ (boss → bad ∨ 215 < a ∨ 192 < b → Completes .move s (refused 2))) ∧
      (asks 4 → ∀ down,
        (boss → Completes (.claim down) s (refused 0)) ∧
        (¬ boss → (f = 64 ∧ s.nv.dual = true ∧ down = true ∧ fget Fl.HIF_LINK_STATUS_UP_A s = 0) ∨ (f = 0 ∧ fget Fl.HIF_LINK_STATUS_UP_A s = 1) →
          Completes (.claim down) s (fun t => t.ten.manager = f ∧ fget (Fl.LBX_STATUS_MANAGER f) t = 1 ∧ answer 0 [] t ∧
            (f = 64 → noticed 0 (notice 0x11 f (leBytes 2 f)) t) ∧ (f = 0 → s.nv.dual = true → noticed 64 (notice 0x11 f (leBytes 2 f)) t))) ∧
        (¬ boss → f ≠ 0 → f ≠ 64 ∨ s.nv.dual = false ∨ down = false ∨ fget Fl.HIF_LINK_STATUS_UP_A s = 1 → Completes (.claim down) s (refused 1))) ∧
      (asks 5 →
        (boss ∨ g = s.ten.manager → ¬ bad → g ≠ f → open_ g → Completes .relay s (fun t => answer 0 [] t ∧ ∃ tag, tag < 65536 ∧ last g ⟨4, 5, tag, f, 0, 0, bs.drop 16⟩ t)) ∧
        (boss ∨ g = s.ten.manager → ¬ bad → 32 ≤ (SMap.getD s.ten.hold g []).length → Completes .relay s (refused 5)) ∧
        (boss ∨ g = s.ten.manager → bad → Completes .relay s (refused 2)) ∧ (¬ boss → g ≠ s.ten.manager → Completes .relay s (refused 1))))

/-- R462–R464, R467–R469: sensors, the thermal level, caps and the I3C target. -/
def Obligations.SensorsAndI3c : Prop :=
  ∀ s : State, pdOn 1 s = true →
    let up1 (a : Nat) (t : State) : Prop := rd a t = BitVec.ofNat 64 (Nat.min ((rd a s).toNat + 1) (2 ^ 32 - 1))
    (∀ i v, hasSensor i s = true → v < 65536 → v ≠ 0x8000 →
      let d := (BitVec.ofInt 8 ((BitVec.ofNat 16 v).toInt / 16)).toNat
      let hi := fget (Fl.MGT_SENSOR_MAX i) s
      let lo := SMap.getD s.mgt.mins i 0x80
      Completes (.sensorRead i v) s (fun t => fget (Fl.MGT_SENSOR_TEMP i) t = v ∧
        fget (Fl.MGT_SENSOR_MAX i) t = (if hi = 0x80 ∨ (BitVec.ofNat 8 hi).toInt < (BitVec.ofNat 8 d).toInt then d else hi) ∧
        SMap.getD t.mgt.mins i 0x80 = (if lo = 0x80 ∨ (BitVec.ofNat 8 d).toInt < (BitVec.ofNat 8 lo).toInt then d else lo) ∧ RegsBut [Reg.MGT_SENSOR i] s t)) ∧
    (∀ i, hasSensor i s = true → Completes (.sensorRead i 0x8000) s (fun t => fget (Fl.MGT_SENSOR_TEMP i) t = 0x8000 ∧
      fget (Fl.MGT_SENSOR_MAX i) t = fget (Fl.MGT_SENSOR_MAX i) s ∧ t.mgt.mins = s.mgt.mins)) ∧
    (∀ v, s.variant < 2 → Completes (.sensorRead 11 v) s (fun t => t = s)) ∧
    (let cur := fget Fl.MGT_THERM_LEVEL s
      let hyst := featureValue 0xC3 s / 2 ^ 24 % 16
      mode s ≠ 6 → mode s ≠ 7 → s.pow.idleWait = none →
      (∀ cool l, cur < l → l ≤ 3 → levelHolds l s = true → (∀ k, k ≤ 3 → l < k → levelHolds k s = false) →
        Completes (.thermalEvaluation cool) s (fun t => fget Fl.MGT_THERM_LEVEL t = l ∧ t.mgt.rises = s.mgt.rises + 1 ∧
          fget Fl.MGT_CAP_WATTS t ≤ (if l = 1 then 70 else if l = 2 then 45 else 25) ∧ fget Fl.MGT_CAP_WATTS t ≠ 0 ∧
          (mode s = 4 → fget Fl.AON_MODE_TRANS s = 0 → mode t = 5))) ∧
      (cur ≠ 0 → (∀ k, k ≤ 3 → cur ≤ k → 0 < k → levelHolds k s = false) → levelCool cur hyst s = true →
        Completes (.thermalEvaluation true) s (fun t => fget Fl.MGT_THERM_LEVEL t = cur - 1 ∧ t.mgt.rises = s.mgt.rises)) ∧
      (∀ cool, (∀ k, k ≤ 3 → cur < k → levelHolds k s = false) → cool = false ∨ cur = 0 ∨ levelCool cur hyst s = false →
        Completes (.thermalEvaluation cool) s (fun t => fget Fl.MGT_THERM_LEVEL t = cur ∧ mode t = mode s ∧ t.mgt.rises = s.mgt.rises ∧ RegsBut [Reg.MGT_THERM] s t))) ∧
    (let cap := capNow s
      -- the measured input power is open: a free value (log entry 11)
      let input := freeNat 16 s
      let u := useFree s
      let budget (n : Nat) (t : State) : Nat := fget (Fl.CHE_GOV_CFG_BUDGET n) t
      let lowered (t : State) : Prop :=
        (1 < s.mgt.capCores → t = { u with mgt := { s.mgt with capCores := s.mgt.capCores - 1 } }) ∧
        (s.mgt.capCores ≤ 1 → lowerable s ≠ [] → ∀ n, n < 32 →
          (n ∈ lowerable s → budget n t = max 320 (budget n s - 40)) ∧ (n ∉ lowerable s → budget n t = budget n s)) ∧
        (s.mgt.capCores ≤ 1 → lowerable s = [] → t = { u with mgt := { s.mgt with fetchSteps := s.mgt.fetchSteps + 1 } })
      let raised (t : State) : Prop :=
        (0 < s.mgt.fetchSteps → t = { u with mgt := { s.mgt with fetchSteps := s.mgt.fetchSteps - 1 } }) ∧
        (∀ n v, s.mgt.fetchSteps = 0 → n < 32 → s.mgt.budgets = [(n, v)] → budget n t = min v (budget n s + 40)) ∧
        (s.mgt.fetchSteps = 0 → s.mgt.budgets = [] → s.mgt.capCores < 8 → t = { u with mgt := { s.mgt with capCores := s.mgt.capCores + 1 } })
      Completes .capControl s (fun t => (cap ≠ 0 ∧ cap * 100 < input → lowered t) ∧ (cap = 0 ∨ input ≤ cap * 95 → raised t) ∧
        (cap ≠ 0 → cap * 95 < input → input ≤ cap * 100 → t = u))) ∧
    (let da := fget Fl.MGT_I3C_DA s
      let valid := fget Fl.MGT_I3C_DA_VALID s
      let i3c (t : State) : Prop := OnlyRegs [Reg.MGT_I3C] s t
      let got (bs : List Byte) (c : Instr) : Prop := Completes c s (fun t => t.mgt.answer = bs ∧ t = { s with mgt := { s.mgt with answer := t.mgt.answer } })
      let heard (addr : Option Nat) : Prop := addr = none ∨ (addr = some da ∧ valid = 1)
      let pid : List Byte := beBytes 6 (0x0A5C * 2 ^ 33 + 0x7440 * 2 ^ 16 + Config.serialNumber % 2 ^ 12)
      (∀ addr e, heard addr →
        (e % 2 = 1 → e / 8 % 2 = 1 → s.mgt.outbox = [] → Completes (.enec addr e) s (fun t => fget Fl.MGT_I3C_IBI_EN t = 1 ∧ fget Fl.MGT_I3C_HJ_EN t = 1 ∧ i3c t)) ∧
        (e % 2 = 1 → s.mgt.outbox ≠ [] → fget Fl.MGT_I3C_IBI_EN s = 0 → valid = 1 → (recentIbis s).length < 100 → Completes (.enec addr e) s (fun t =>
          fget Fl.MGT_I3C_IBI_EN t = 1 ∧ up1 Reg.MGT_CNT_IBI t)) ∧
        (Completes (.disec addr e) s (fun t => i3c t ∧ fget Fl.MGT_I3C_IBI_EN t = (if e % 2 = 1 then 0 else fget Fl.MGT_I3C_IBI_EN s) ∧
          fget Fl.MGT_I3C_HJ_EN t = (if e / 8 % 2 = 1 then 0 else fget Fl.MGT_I3C_HJ_EN s)))) ∧
      (Completes .rstdaa s (fun t => fget Fl.MGT_I3C_DA t = 0 ∧ fget Fl.MGT_I3C_DA_VALID t = 0 ∧ fget Fl.MGT_I3C_EID t = 0 ∧ i3c t)) ∧
      (∀ a, valid = 0 → a < 128 →
        let taken (t : State) : Prop := fget Fl.MGT_I3C_DA t = a ∧ fget Fl.MGT_I3C_DA_VALID t = 1 ∧ t.mgt.hotJoin = false
        Completes (.entdaa a) s (fun t => taken t ∧ t.mgt.answer = pid ++ [0x06, 0x00]) ∧ Completes (.setdasa 0x1D a) s taken ∧
          ∀ st, st ≠ 0x1D → Completes (.setdasa st a) s (fun t => t = s)) ∧
      (∀ a, valid = 1 → a < 128 → Completes (.entdaa a) s (fun t => t = s) ∧ Completes (.setdasa 0x1D a) s (fun t => t = s) ∧
        Completes (.setnewda da a) s (fun t => fget Fl.MGT_I3C_DA t = a ∧ fget Fl.MGT_I3C_DA_VALID t = 1)) ∧
      (∀ addr n, heard addr →
        (64 ≤ n → n ≤ 256 → Completes (.setmwl addr n) s (fun t => t = { s with mgt := { s.mgt with mwl := n } }) ∧
          Completes (.setmrl addr n) s (fun t => t = { s with mgt := { s.mgt with mrl := n } })) ∧
        (n < 64 ∨ 256 < n → Completes (.setmwl addr n) s (fun t => t = s) ∧ Completes (.setmrl addr n) s (fun t => t = s)) ∧
        Completes (.rstact addr n) s (fun t => t = { s with mgt := { s.mgt with rstact := n % 256 } })) ∧
      (valid = 1 → got (beBytes 2 s.mgt.mwl) (.getmwl da) ∧ Completes (.getmrl da) s (fun t => t.mgt.answer.take 2 = beBytes 2 s.mgt.mrl ∧ t.regs = s.regs) ∧
        got pid (.getpid da) ∧ got [0x06] (.getbcr da) ∧ got [0x00] (.getdcr da) ∧ got (if s.mgt.outbox = [] then [0, 0] else [0, 1]) (.getstatus da)) ∧
      (∀ a, a ≠ da → Completes (.getpid a) s (fun t => t = s) ∧ Completes (.disec (some a) 9) s (fun t => t = s)) ∧
      (valid = 0 → fget Fl.MGT_I3C_HJ_EN s = 1 → Completes .hotJoin s (fun t => t = { s with mgt := { s.mgt with hotJoin := true } })) ∧
      (valid = 1 ∨ fget Fl.MGT_I3C_HJ_EN s = 0 → Completes .hotJoin s (fun t => t = s)) ∧
      (0 < s.mgt.ibiWait → (recentIbis s).length < 100 → fget Fl.MGT_I3C_IBI_EN s = 1 → Completes .ibiDeferExpiry s (fun t => up1 Reg.MGT_CNT_IBI t ∧
        t.mgt.ibiWait + 1 = s.mgt.ibiWait ∧ t.mgt.ibis.getLast? = some s.tick)) ∧
      (s.mgt.ibiWait = 0 ∨ 100 ≤ (recentIbis s).length → Completes .ibiDeferExpiry s (fun t => t = s)))

/-- R470–R472, R487, R503: MCTP control, NVMe-MI over MCTP and over NVMe, and PLDM. Layouts that the manual takes from the MCTP, NVMe-MI and
PLDM standards are the model's. -/
def Obligations.ManagementMessages : Prop :=
  ∀ s : State, mctpServed s = true → mode s ≠ 6 → mode s ≠ 7 → s.pow.idleWait = none →
    let reply (m : List Byte) (t : State) : Prop := t.mgt.outbox = [m]
    let plain (m : List Byte) (t : State) : Prop := reply m t ∧ t.nv = s.nv ∧ t.pow = s.pow ∧ t.mem = s.mem ∧ RegsBut [Reg.MGT_CNT_IBI, Reg.MGT_CNT_IBI_DEFER] s t
    let ids := s.nv.ctrls.map (fun c => c.1)
    (∀ e, 8 ≤ e → e < 255 → Completes (.setEndpointId e) s (fun t => fget Fl.MGT_I3C_EID t = e ∧ reply [0, 0, 0, BitVec.ofNat 8 e, 0] t)) ∧
    (∀ e, e < 8 ∨ 255 ≤ e → Completes (.setEndpointId e) s (plain [0, 2])) ∧
    (Completes (.readNvmeMiDataStructure 2) s (plain ([4, 0] ++ leBytes 2 ids.length ++ ids.flatMap (leBytes 2)))) ∧
    (∀ d, d < 5 → d ≠ 2 → Completes (.readNvmeMiDataStructure d) s (fun t => ∃ m, t.mgt.outbox.head? = some m ∧ m.length = 34 ∧ m.take 2 = [4, 0])) ∧
    (∀ d, 5 ≤ d → Completes (.readNvmeMiDataStructure d) s (plain [4, 4])) ∧
    (Completes .subsystemHealthStatusPoll s (fun t => t.nv = s.nv ∧ ∃ m, t.mgt.outbox.head? = some m ∧ m.length = 10 ∧ m.take 2 = [4, 0] ∧
      m[4]? = some (BitVec.ofNat 8 (pollTemp s)) ∧ m[5]? = some (BitVec.ofNat 8 (pctUsed s)))) ∧
    (∀ k c, s.nv.ctrls = [(k, c)] → Completes (.controllerHealthStatusPoll k) s (plain ([4, 0, 1] ++ leBytes 2 k ++
      leBytes 2 ((if c.rdy then 1 else 0) + c.shst * 4) ++ leBytes 2 (sensorKelvin 0 s) ++ leBytes 1 (pctUsed s) ++ leBytes 1 (availSpare s) ++ leBytes 1 (criticalWarning k s))) ∧
      Completes (.controllerHealthStatusPoll (k + 1)) s (plain [4, 0, 0])) ∧
    (∀ id v, id = 1 ∨ id = 2 ∨ (id = 3 ∧ 64 ≤ v ∧ v ≤ 256) → Completes (.configurationSet id v) s (fun t => plain [4, 0] t ∧ SMap.find t.mgt.cfg id = some v)) ∧
    (∀ id v, id = 0 ∨ 3 < id ∨ (id = 3 ∧ (v < 64 ∨ 256 < v)) → Completes (.configurationSet id v) s (fun t => plain [4, 4] t ∧ t.mgt.cfg = s.mgt.cfg)) ∧
    (∀ id v, 1 ≤ id → id ≤ 3 → SMap.find s.mgt.cfg id = some v → Completes (.configurationGet id) s (plain ([4, 0] ++ leBytes 4 v))) ∧
    (∀ id, id = 0 ∨ 3 < id → Completes (.configurationGet id) s (plain [4, 4])) ∧
    (∀ off len, off + len ≤ 256 → Completes (.vpdRead off len) s (fun t => ∃ m, t.mgt.outbox.head? = some m ∧ m.length = 2 + len ∧ m.take 2 = [4, 0] ∧
      ∀ i, i < len → ∀ b, SMap.find s.mgt.vpd (off + i) = some b → m[2 + i]? = some b)) ∧
    (∀ off len, 256 < off + len → Completes (.vpdRead off len) s (plain [4, 4])) ∧
    (∀ off (data : List Byte), off + data.length ≤ 256 → Completes (.vpdWrite off data) s (fun t => plain [4, 0] t ∧
      ∀ i, i < data.length → SMap.find t.mgt.vpd (off + i) = data[i]?)) ∧
    (∀ off (data : List Byte), 256 < off + data.length → Completes (.vpdWrite off data) s (fun t => plain [4, 4] t ∧ t.mgt.vpd = s.mgt.vpd)) ∧
    (mode s ≠ 8 → pdOn 7 s = true → activating s = false → Completes .nvmeMiReset s (fun t => reply [4, 0] t ∧ fget Fl.AON_RST_CAUSE_NVMSSR_REG t = 1 ∧
      ∀ e ∈ s.nv.ctrls, ∀ y ∈ (ctrlAt e.1 t).toList, y.en = false)) ∧
    (mode s = 4 → fget Fl.AON_MODE_TRANS s = 0 → s.pow.stopping = none → s.pow.afterSeal ≠ .resetOff → activating s = false →
      Completes (.miModuleReset 0x5A) s (fun t => reply [4, 0] t ∧ t.pow.stopping = some (.reset .mgmt))) ∧
    (mode s = 2 → (mayWake s = true → Completes (.miWatchToRise 0x5A) s (fun t => mode t = 3 ∧ reply [4, 0] t)) ∧
      (mayWake s = false → Completes (.miWatchToRise 0x5A) s (plain [4, 0])) ∧ Completes (.miWatchToKeep 0x5A) s (fun t => mode t = 1 ∧ pdOn 1 t = false)) ∧
    (∀ k, k ≠ 0x5A → Completes (.miModuleReset k) s (plain [4, 4]) ∧ Completes (.miWatchToRise k) s (plain [4, 4]) ∧ Completes (.miWatchToKeep k) s (plain [4, 4])) ∧
    (mode s ≠ 2 → Completes (.miWatchToRise 0x5A) s (plain [4, 4]) ∧ Completes (.miWatchToKeep 0x5A) s (plain [4, 4])) ∧
    (∀ c cid nsid, mode s = 2 ∨ mode s = 3 ∨ (∀ e ∈ pfControllers s, e.1 ≠ c) → Completes (.tunnelledAdminCommand c cid nsid) s (plain [4, 4])) ∧
    (∀ e ∈ pfControllers s, ∀ cid nsid, mode s ≠ 2 → mode s ≠ 3 → sqAt e.1 65535 s = none →
      (tagFor e.1 s = none → Completes (.tunnelledAdminCommand e.1 cid nsid) s (fun t => t.nv.cmds = s.nv.cmds ∧ (ctrlAt e.1 t).map (·.paused) = some true)) ∧
      (tagFor e.1 s ≠ none → Completes (.tunnelledAdminCommand e.1 cid nsid) s (fun t => ∃ x, t.nv.cmds.getLast? = some x ∧ x.ctrl = e.1 ∧ x.cid = cid ∧ x.nsid = nsid ∧ x.kind = .admin ∧ x.phase = .fetched ∧
        t.nv.cmds = s.nv.cmds ++ [x]))) ∧
    (∀ tag x c, AdminReady tag x c s →
      (∀ id v, id = 1 ∨ id = 2 → Completes (.nvmeMiSend tag (.configSet id v)) s (fun t => Succeeded x s t ∧ SMap.find t.mgt.cfg id = some v)) ∧
      (∀ id v, id = 0 ∨ 3 < id → Completes (.nvmeMiSend tag (.configSet id v)) s (Answered x 0 0 false 4 0 [] s)) ∧
      (∀ id, Completes (.nvmeMiSend tag (.configGet id)) s (Failed x 0 0x02 true s)) ∧
      (∀ id v, 1 ≤ id → id ≤ 3 → SMap.find s.mgt.cfg id = some v → Completes (.nvmeMiReceive tag (.configGet id)) s (Returned x (leBytes 4 v) s)) ∧
      (∀ off len, 256 < off + len → Completes (.nvmeMiReceive tag (.vpdRead off len)) s (Answered x 0 0 false 4 0 [] s)) ∧
      (∀ id v, Completes (.nvmeMiReceive tag (.configSet id v)) s (Failed x 0 0x02 true s))) ∧
    (∀ w, w = 0 ∨ (25 ≤ w ∧ w ≤ 125) → Completes (.setNumericEffecterValue w) s (fun t => fget Fl.MGT_MGMT_CAP_WATTS t = w ∧ reply [1, 0] t ∧
      (w ≠ 0 → fget Fl.MGT_CAP_WATTS t ≤ w ∧ (mode s = 4 → fget Fl.AON_MODE_TRANS s = 0 → mode t = 5)))) ∧
    (∀ w, 0 < w → w < 25 ∨ 125 < w → Completes (.setNumericEffecterValue w) s (plain [1, 2])) ∧
    (∀ i, i < 12 → Completes (.getSensorReading i) s (plain ([1, 0] ++ leBytes 2 (fget (Fl.MGT_SENSOR_TEMP i) s)))) ∧
    (Completes (.getSensorReading 12) s (plain ([1, 0] ++ leBytes 1 (fget Fl.MGT_THERM_LEVEL s)))) ∧ (∀ i, 12 < i → Completes (.getSensorReading i) s (plain [1, 0x80])) ∧
    (fget Fl.MGT_UPD_STATE s ≠ 0 → Completes .requestUpdate s (plain [1, 0x81])) ∧
    (fget Fl.MGT_UPD_STATE s = 0 → Completes .requestUpdate s (fun t => reply [1, 0] t ∧ fget Fl.MGT_UPD_STATE t = 1 ∧ fget Fl.MGT_UPD_SOURCE t = 1)) ∧
    (∀ i, pldmReceiving s = false → Completes (.updateComponent i) s (plain [1, 0x80])) ∧
    (∀ i, pldmReceiving s = true → 1 ≤ i.comp → i.comp ≤ 5 →
      (i.good = true → fwTop i.comp s < 0xFFFFFFFF → (∃ k, k < 3 ∧ k ≠ (fwAt i.comp s).active ∧ (fwSlot i.comp k s).gen ≠ fwTop i.comp s) →
        Completes (.updateComponent i) s (fun t => reply [1, 0] t ∧ ∃ k, k < 3 ∧ k ≠ (fwAt i.comp s).active ∧ (fwSlot i.comp k s).gen ≠ fwTop i.comp s ∧
          SMap.find t.mgt.upd.slots i.comp = some k ∧ fwSlot i.comp k t = ⟨i.version % 2 ^ 64, fwTop i.comp s + 1, 1⟩)) ∧
      (i.good = false ∨ 0xFFFFFFFF ≤ fwTop i.comp s → Completes (.updateComponent i) s (fun t => reply [1, 1] t ∧ t.mgt.fw = s.mgt.fw))) ∧
    (∀ sc, pldmReceiving s = false → Completes (.activateFirmware sc) s (plain [1, 0x80])) ∧
    (∀ c k sc, pldmReceiving s = true → s.mgt.upd.tag = none → s.mgt.upd.slots = [(c, k)] → 1 ≤ c → c ≤ 5 →
      (sc = false ∨ serving s = false → Completes (.activateFirmware sc) s (fun t => reply [1, 0] t ∧ (fwAt c t).next = k ∧ (fwAt c t).active = (fwAt c s).active ∧
        fget Fl.MGT_UPD_STATE t = 0 ∧ t.mgt.upd.last = 0)) ∧
      (serving s = true → updUnits c s ≠ [] → Completes (.activateFirmware true) s (fun t => t.mgt.upd.todo = [c] ∧ t.mgt.upd.units = updUnits c s ∧
        fget Fl.MGT_UPD_STATE t = 3 ∧ fget Fl.MGT_UPD_COMPONENT t = c))) ∧
    (s.pbk.mctpWait = [] → Completes .platformEventMessage s (fun t => t = s)) ∧
    (s.pbk.mctpWait ≠ [] → Completes .platformEventMessage s (fun t => t.pbk.mctpWait = s.pbk.mctpWait.drop 16 ∧
      t.mgt.outbox = s.mgt.outbox ++ [[1] ++ leBytes 1 (Nat.min 16 s.pbk.mctpWait.length) ++ (s.pbk.mctpWait.take 16).flatMap (leBytes 8)]))

/-- R108, R174, R473, R475–R480, R482, R484–R490, R492: firmware components and their updates, config flash and the settings store. -/
def Obligations.FirmwareAndFlash : Prop :=
  ∀ s : State,
    let idle (t : State) : Prop := fget Fl.MGT_UPD_STATE t = 0 ∧ t.mgt.upd.todo = []
    (∀ tag x c, PcieReady tag x c s → s.mgt.upd.tag = none →
      (∀ off n, 0 < n → 4 * n ≤ 0x200000 → otherUpdate s = false →
        ((∀ p ∈ s.mgt.pieces, off + n ≤ p.1 ∨ p.1 + p.2 ≤ off) → Completes (.firmwareDownload tag off n) s (fun t => Succeeded x s t ∧
          t.mgt.pieces = s.mgt.pieces ++ [(off, n)] ∧ fget Fl.MGT_UPD_STATE t = 1 ∧ fget Fl.MGT_UPD_SOURCE t = 0)) ∧
        ((∃ p ∈ s.mgt.pieces, off < p.1 + p.2 ∧ p.1 < off + n) → Completes (.firmwareDownload tag off n) s (fun t => Failed x 1 0x14 true s t ∧ t.mgt.pieces = s.mgt.pieces))) ∧
      (∀ off n, n = 0 ∨ 0x200000 < 4 * n → Completes (.firmwareDownload tag off n) s (Failed x 0 0x02 true s)) ∧
      (∀ off n, 0 < n → 4 * n ≤ 0x200000 → otherUpdate s = true → Completes (.firmwareDownload tag off n) s (Failed x 1 0x13 true s)) ∧
      (∀ fs ca (i : FwImage),
        let k := fs - 1
        let kept (t : State) : Prop := t.mgt.fw = s.mgt.fw
        let wrote (t : State) : Prop := fwSlot i.comp k t = ⟨i.version % 2 ^ 64, fwTop i.comp s + 1, 1⟩ ∧ (fwAt i.comp t).active = (fwAt i.comp s).active ∧
          ∀ c', c' < 6 → c' ≠ i.comp → fwAt c' t = fwAt c' s
        (3 < ca → Completes (.firmwareCommit tag fs ca [i]) s (fun t => Failed x 0 0x02 true s t ∧ kept t)) ∧
        (ca ≤ 3 → otherUpdate s = true ∨ commitProhibited s = true → Completes (.firmwareCommit tag fs ca [i]) s (fun t => Failed x 1 0x13 true s t ∧ kept t)) ∧
        (ca ≤ 3 → otherUpdate s = false → commitProhibited s = false →
          (3 < fs ∨ (fs = 0 ∧ ca ≠ 3) → Completes (.firmwareCommit tag fs ca [i]) s (fun t => Failed x 1 0x06 true s t ∧ kept t)) ∧
          (1 ≤ fs → fs ≤ 3 → (fwAt i.comp s).active = k → Completes (.firmwareCommit tag fs ca [i]) s (fun t => Failed x 1 0x06 true s t ∧ kept t)) ∧
          (1 ≤ fs → fs ≤ 3 → (fwAt i.comp s).active ≠ k → 1 ≤ i.comp → i.comp ≤ 5 →
            (ca ≠ 2 → i.good = false → Completes (.firmwareCommit tag fs ca [i]) s (fun t => Failed x 1 0x07 true s t ∧ kept t)) ∧
            (ca ≠ 2 → i.good = true → 0xFFFFFFFF ≤ fwTop i.comp s → Completes (.firmwareCommit tag fs ca [i]) s (fun t => Failed x 1 0x13 true s t ∧ kept t)) ∧
            (i.good = true → fwTop i.comp s < 0xFFFFFFFF →
              (ca = 0 → Completes (.firmwareCommit tag fs ca [i]) s (fun t => Succeeded x s t ∧ wrote t ∧ (fwAt i.comp t).next = (fwAt i.comp s).next ∧ idle t)) ∧
              (ca = 1 → Completes (.firmwareCommit tag fs ca [i]) s (fun t => Succeeded x s t ∧ wrote t ∧ (fwAt i.comp t).next = k ∧ idle t)) ∧
              (ca = 3 → updUnits i.comp s ≠ [] → Completes (.firmwareCommit tag fs ca [i]) s (fun t => wrote t ∧ cmdAt tag t = some x ∧ t.mgt.upd.tag = some tag ∧
                t.mgt.upd.todo = [i.comp] ∧ t.mgt.upd.units = updUnits i.comp s ∧ fget Fl.MGT_UPD_STATE t = 3 ∧ fget Fl.MGT_UPD_COMPONENT t = i.comp))) ∧
            (ca = 2 → slotValid k i.comp s = true → Completes (.firmwareCommit tag fs ca [i]) s (fun t => Succeeded x s t ∧ (fwAt i.comp t).next = k ∧
              (fwAt i.comp t).slots = (fwAt i.comp s).slots ∧ (fwAt i.comp t).active = (fwAt i.comp s).active)))))) ∧
    (let begun (t : State) : Prop := t.mgt.upd.switching = true ∧ t.mgt.upd.todo = s.mgt.upd.todo ∧ t.mgt.fw = s.mgt.fw
      let good (c : Nat) (t : State) : Prop := (fwAt c t).active = SMap.getD s.mgt.upd.slots c (fwAt c s).active ∧ (fwAt c t).result = 0 ∧ idle t ∧ t.mgt.upd.last = 0 ∧
        ∀ tag ∈ s.mgt.upd.tag.toList, ∀ x ∈ (cmdAt tag s).toList, InPhase tag .fetched [.admin] x s → Succeeded x s t
      let back (c : Nat) (t : State) : Prop := (fwAt c t).active = (fwAt c s).active ∧ (fwAt c t).result = 2 ∧ idle t ∧ t.mgt.upd.last = 2 ∧
        ∀ tag ∈ s.mgt.upd.tag.toList, ∀ x ∈ (cmdAt tag s).toList, InPhase tag .fetched [.admin] x s → Failed x 1 0x07 true s t
      let due (c : Nat) (sw : Bool) : Prop := s.mgt.upd.todo = [c] ∧ s.mgt.upd.units = [0] ∧ s.mgt.upd.switching = sw ∧ s.mgt.late = []
      (due 2 false → Completes (.controlFirmwareHandover none) s (fun t => begun t ∧ fget Fl.HIF_FETCH_CTRL_HOLD t = 1)) ∧
      (due 2 true → Completes (.controlFirmwareHandover (some true)) s (fun t => good 2 t ∧ fget Fl.HIF_FETCH_CTRL_HOLD t = 0) ∧
        Completes (.controlFirmwareHandover (some false)) s (fun t => back 2 t ∧ fget Fl.HIF_FETCH_CTRL_HOLD t = 0)) ∧
      (due 1 false → Completes (.managementFirmwareSwitch none) s (fun t => begun t ∧ t.ten.paused = true ∧ coreAt 76 t = Core.fresh)) ∧
      (due 1 true → Completes (.managementFirmwareSwitch (some true)) s (fun t => good 1 t ∧ t.ten.paused = false) ∧
        Completes (.managementFirmwareSwitch (some false)) s (fun t => back 1 t ∧ t.ten.paused = false)) ∧
      (due 5 false → Completes (.networkFirmwareSwitch none) s (fun t => begun t ∧ t.net = { s.net with switching := true })) ∧
      (due 5 true → Completes (.networkFirmwareSwitch (some true)) s (fun t => good 5 t ∧ t.net = { s.net with switching := false }) ∧
        Completes (.networkFirmwareSwitch (some false)) s (fun t => back 5 t ∧ t.net = { s.net with switching := false })) ∧
      (∀ e, s.mgt.upd.todo = [] → Completes (.controlFirmwareHandover e) s (fun t => t = s) ∧ Completes (.managementFirmwareSwitch e) s (fun t => t = s) ∧
        Completes (.networkFirmwareSwitch e) s (fun t => t = s)) ∧
      (∀ chan v ok, s.mgt.upd.todo = [4] → s.mgt.late = [] → s.mgt.upd.units.head? = some chan → chanUp chan s = true →
        (fget (Fl.CHE_UCODE_STATE chan) s = 0 ∨ fget (Fl.CHE_UCODE_STATE chan) s = 3 → Completes (.microcodeSwitch chan v ok) s (fun t =>
          fget (Fl.CHE_UCODE_STATE chan) t = 1 ∧ t = { s with regs := t.regs })) ∧
        (fget (Fl.CHE_UCODE_STATE chan) s = 1 → (chanAt chan s).queue = [] → (chanAt chan s).susp = [] → Completes (.microcodeSwitch chan v ok) s (fun t =>
          fget (Fl.CHE_UCODE_STATE chan) t = 2 ∧ fget (Fl.CHE_CTRL_HOLD chan) t = 1 ∧ fget (Fl.CHE_STATUS_REBUILD_ONLY chan) t = 1 ∧ t.mgt = s.mgt)) ∧
        (fget (Fl.CHE_UCODE_STATE chan) s = 2 → (chanAt chan s).dies ≠ [] → (chanAt chan s).susp = [] → Completes (.microcodeSwitch chan v ok) s (fun t => t = s))) ∧
      (∀ chan v, s.mgt.upd.todo = [4] → s.mgt.late = [] → chanUp chan s = true → fget (Fl.CHE_UCODE_STATE chan) s = 2 → (chanAt chan s).dies = [] →
          (chanAt chan s).susp = [] → v < 65536 →
        (s.mgt.upd.units = [chan] → Completes (.microcodeSwitch chan v true) s (fun t => good 4 t ∧ fget (Fl.CHE_UCODE_VERSION chan) t = v ∧ fget (Fl.CHE_CTRL_HOLD chan) t = 0) ∧
          Completes (.microcodeSwitch chan v false) s (fun t => back 4 t ∧ fget (Fl.CHE_UCODE_VERSION chan) t = fget (Fl.CHE_UCODE_VERSION chan) s ∧ fget (Fl.CHE_UCODE_STATE chan) t = 3)) ∧
        (∀ u, s.mgt.upd.units = [chan, u] → u ≠ chan → Completes (.microcodeSwitch chan v true) s (fun t => t.mgt.upd.units = [u] ∧ t.mgt.upd.todo = [4] ∧ t.mgt.fw = s.mgt.fw ∧
          fget (Fl.CHE_UCODE_VERSION chan) t = v)))) ∧
    (pdOn 2 s = true →
      let up1 (a : Nat) (t : State) : Prop := rd a t = BitVec.ofNat 64 (Nat.min ((rd a s).toNat + 1) (2 ^ 32 - 1))
      let busy (op : CflOp) (bank : Nat) (t : State) : Prop := t.mgt.op = some op ∧ fget Fl.CFL_STATUS_BUSY t = 1 ∧ fget Fl.CFL_STATUS_BANK t = bank ∧ t.mgt.flash = s.mgt.flash
      let refused (r : Nat) (t : State) : Prop := fget Fl.CFL_CMD_RESULT t = r ∧ t.mgt = s.mgt
      let word (w : Nat) (t : State) : Option Word := SMap.find t.mgt.flash w
      (∀ addr data key req, addr < 2 ^ 28 → req = 0x10 ∨ req = 0x11 → fget Fl.CFL_STATUS_BUSY s = 0 → key < 256 →
        let sec := addr / 4096
        (fget Fl.CFL_STATUS_SEAL s = 0 →
          (word (addr / 8) s = none → sec ∉ s.mgt.eraseAgain → Completes (.cflProgram addr data req) s (busy (.program (addr / 8) data) (addr / 0x2000000))) ∧
          (word (addr / 8) s ≠ none ∨ sec ∈ s.mgt.eraseAgain → Completes (.cflProgram addr data req) s (refused 1)) ∧
          (Completes (.cflEraseSector addr 0x69 req) s (busy (.erase sec 1) (addr / 0x2000000))) ∧
          (sec % 64 = 0 → Completes (.cflEraseGroup addr 0x69 req) s (busy (.erase sec 64) (addr / 0x2000000))) ∧
          (sec % 64 ≠ 0 → Completes (.cflEraseGroup addr 0x69 req) s (refused 4))) ∧
        (key ≠ 0x69 → Completes (.cflEraseSector addr key req) s (OnlyMarked [Reg.CFL_ADDR] s) ∧ Completes (.cflEraseGroup addr key req) s (OnlyMarked [Reg.CFL_ADDR] s)) ∧
        (fget Fl.CFL_STATUS_SEAL s = 1 → Completes (.cflProgram addr data req) s (refused 3) ∧ Completes (.cflEraseSector addr 0x69 req) s (refused 3) ∧
          Completes (.cflEraseGroup addr 0x69 req) s (refused 3))) ∧
      (∀ addr data key req, req ≠ 0x10 → req ≠ 0x11 → Completes (.cflProgram addr data req) s (OnlyMarked [] s) ∧ Completes (.cflEraseSector addr key req) s (OnlyMarked [] s) ∧
        Completes (.cflEraseGroup addr key req) s (OnlyMarked [] s)) ∧
      (s.mgt.op = none → Completes (.cflOperationDone []) s (fun t => t = s)) ∧
      (∀ w d, s.mgt.op = some (.program w d) →
        let freed (t : State) : Prop := t.mgt.op = none ∧ fget Fl.CFL_STATUS_BUSY t = 0
        let n := fget Fl.CFL_SPARES_FREE s
        (Completes (.cflOperationDone []) s (fun t => freed t ∧ fget Fl.CFL_CMD_RESULT t = 0 ∧ word w t = some d ∧ ∀ e ∈ s.mgt.flash, e.1 ≠ w → word e.1 t = word e.1 s)) ∧
        (0 < n → Completes (.cflOperationDone [w / 512]) s (fun t => freed t ∧ fget Fl.CFL_CMD_RESULT t = 2 ∧ fget Fl.CFL_EVENT_PROG_FAIL t = 1 ∧ t.mgt.retired = s.mgt.retired ++ [w / 512] ∧
          fget Fl.CFL_SPARES_FREE t = n - 1 ∧ fget Fl.CFL_EVENT_RETIRED t = 1 ∧ (n - 1 < 64 → fget Fl.CFL_EVENT_SPARES_LOW t = 1))) ∧
        (∀ c k v, n = 0 → slotOfSector (w / 512) = some (c, k) → SMap.find (fwAt c s).slots k = some v →
          Completes (.cflOperationDone [w / 512]) s (fun t => freed t ∧ (fwSlot c k t).state = 2 ∧ t.mgt.retired = s.mgt.retired))) ∧
      (∀ sec count, s.mgt.op = some (.erase sec count) → 0 < count →
        let erased (t : State) : Prop := t.mgt.op = none ∧ fget Fl.CFL_STATUS_BUSY t = 0 ∧ (∀ e ∈ t.mgt.flash, e ∈ s.mgt.flash ∧ (e.1 < sec * 512 ∨ (sec + count) * 512 ≤ e.1)) ∧
          (∀ x ∈ t.mgt.eraseAgain, x ∈ s.mgt.eraseAgain ∧ (x < sec ∨ sec + count ≤ x)) ∧
          rd Reg.CFL_CNT_ERASE t = BitVec.ofNat 64 (Nat.min ((rd Reg.CFL_CNT_ERASE s).toNat + count) (2 ^ 32 - 1))
        (Completes (.cflOperationDone []) s (fun t => erased t ∧ fget Fl.CFL_CMD_RESULT t = 0)) ∧
        (0 < fget Fl.CFL_SPARES_FREE s → Completes (.cflOperationDone [sec]) s (fun t => erased t ∧ fget Fl.CFL_CMD_RESULT t = 2 ∧ fget Fl.CFL_EVENT_ERASE_FAIL t = 1 ∧
          t.mgt.retired = s.mgt.retired ++ [sec]))) ∧
      (∀ addr early req, addr < 2 ^ 28 →
        let read (t : State) : Prop := addr / 4096 ∉ s.mgt.eraseAgain → ∀ v ∈ (word (addr / 8) s).toList, t.mgt.readWord = v
        (s.mgt.op = none → Completes (.cflRead addr .good early req) s (fun t => read t ∧ t.regs = s.regs) ∧
          Completes (.cflRead addr (.corrected [] false) early req) s (fun t => read t ∧ up1 Reg.CFL_CNT_CE t ∧ fget Fl.CFL_EVENT_CE t = 1) ∧
          Completes (.cflRead addr (.uncorr false) early req) s (fun t => t.mgt = s.mgt ∧ up1 Reg.CFL_CNT_UE t ∧ fget Fl.CFL_EVENT_UE t = 1)) ∧
        (∀ sec count, s.mgt.op = some (.erase sec count) → sec / 8192 = addr / 0x2000000 →
          (early = true ∨ fget Fl.CFL_SUSP_CFG_MAX s ≤ fget Fl.CFL_STATUS_SUSP_COUNT s → Completes (.cflRead addr .good early req) s (fun t => t = s)) ∧
          (early = false → fget Fl.CFL_STATUS_SUSP_COUNT s < fget Fl.CFL_SUSP_CFG_MAX s → Completes (.cflRead addr .good early req) s (fun t => read t ∧
            fget Fl.CFL_STATUS_SUSP_COUNT t = fget Fl.CFL_STATUS_SUSP_COUNT s + 1 ∧ t.mgt.op = s.mgt.op ∧
            (fget Fl.CFL_STATUS_SUSP_COUNT s + 1 = fget Fl.CFL_SUSP_CFG_MAX s → fget Fl.CFL_EVENT_SUSP_LIMIT t = 1)))) ∧
        (∀ sec count, s.mgt.op = some (.erase sec count) → sec / 8192 ≠ addr / 0x2000000 → Completes (.cflRead addr .good early req) s (fun t => read t ∧ t.regs = s.regs)) ∧
        (∀ w d, s.mgt.op = some (.program w d) → w / 0x400000 = addr / 0x2000000 → Completes (.cflRead addr .good early req) s (fun t => t = s))) ∧
      (∀ bytes, fget Fl.CFL_STATUS_SEAL s = 0 → 0 < bytes → bytes ≤ 4096 → Completes (.settingsCommit bytes) s (fun t => t.regs = s.regs ∧ t.mgt.unsaved = [] ∧
        t.mgt.storeA.seq = max s.mgt.storeA.seq s.mgt.storeB.seq + 1 ∧ t.mgt.storeB.seq = t.mgt.storeA.seq ∧ t.mgt.storeA.deltas = s.mgt.storeA.deltas + bytes ∧
        t.mgt.storeB.deltas = s.mgt.storeB.deltas + bytes ∧ t.mgt.storeA.half = s.mgt.storeA.half)) ∧
      (∀ bytes, fget Fl.CFL_STATUS_SEAL s = 1 → Completes (.settingsCommit bytes) s (fun t => t = s) ∧ Completes .settingsCompaction s (fun t => t = s)) ∧
      (fget Fl.CFL_STATUS_SEAL s = 0 →
        (0x100000 < s.mgt.storeA.deltas → Completes .settingsCompaction s (fun t =>
          t = { s with mgt := { s.mgt with storeA := { s.mgt.storeA with half := 1 - s.mgt.storeA.half, deltas := 0 } } })) ∧
        (s.mgt.storeA.deltas ≤ 0x100000 → 0x100000 < s.mgt.storeB.deltas → Completes .settingsCompaction s (fun t =>
          t = { s with mgt := { s.mgt with storeB := { s.mgt.storeB with half := 1 - s.mgt.storeB.half, deltas := 0 } } })) ∧
        (s.mgt.storeA.deltas ≤ 0x100000 → s.mgt.storeB.deltas ≤ 0x100000 → Completes .settingsCompaction s (fun t => t = s))))

/-- R494–R500, R502–R504, R512: the event recorder. -/
def Obligations.EventRecorder : Prop :=
  ∀ s : State,
    let p := s.pbk
    let only (t : State) : Prop := t = { s with regs := t.regs, pbk := t.pbk }
    (∀ code src args,
      let l := codeLane code args
      let e : Ev := ⟨l, code, src, 1, args, false, false⟩
      let known : Prop := ∃ c ∈ p.coal, c.lane = l ∧ c.code = code ∧ c.src = src
      let entries := (p.coal.filter (fun c => c.lane = l)).length
      let plainQ := (laneQ l p).filter (fun x => x.drop = false)
      (l < 2 → (laneQ l p).length < 256 → Completes (.postmark code src args) s (fun t => laneQ l t.pbk = laneQ l p ++ [e] ∧ only t ∧
        fget Fl.PBK_STATUS_PENDING t / 2 ^ l % 2 = 1 ∧ t.pbk.ram = p.ram)) ∧
      (l = 0 → 256 ≤ p.q0.length → Completes (.postmark code src args) s (fun t => t.pbk.q0 = p.q0 ∧ t.pbk.held0 = p.held0 ++ [e] ∧ only t)) ∧
      (l = 1 → 256 ≤ p.q1.length → Completes (.postmark code src args) s (fun t => t.pbk.q1 = p.q1 ∧ t.pbk.held1 = p.held1 ++ [e] ∧ only t)) ∧
      (2 ≤ l → known → Completes (.postmark code src args) s (fun t => laneQ l t.pbk = laneQ l p ∧ t.pbk.coal.length = p.coal.length ∧ only t ∧
        ∀ c ∈ p.coal, c.lane = l → c.code = code → c.src = src → { c with count := c.count + 1, args := args } ∈ t.pbk.coal)) ∧
      (2 ≤ l → ¬ known → entries < 64 → plainQ.length < 255 → Completes (.postmark code src args) s (fun t => laneQ l t.pbk = laneQ l p ++ [e] ∧
        t.pbk.coal = p.coal ++ [⟨l, code, src, 0, args, false⟩] ∧ only t)) ∧
      (2 ≤ l → ¬ known → entries < 64 → 255 ≤ plainQ.length → Completes (.postmark code src args) s (fun t => laneQ l t.pbk = laneQ l p ∧
        t.pbk.coal = p.coal ++ [⟨l, code, src, 1, args, false⟩] ∧ only t)) ∧
      (2 ≤ l → ¬ known → 64 ≤ entries → plainQ.length < 255 → Completes (.postmark code src args) s (fun t => laneQ l t.pbk = laneQ l p ++ [e] ∧ t.pbk.coal = p.coal ∧ only t)) ∧
      (2 ≤ l → ¬ known → 64 ≤ entries → 255 ≤ plainQ.length → (∀ x ∈ laneQ l p, x.drop = false) → Completes (.postmark code src args) s (fun t =>
        laneQ l t.pbk = laneQ l p ++ [⟨l, 0x0001, 0, 1, [code + 65536 * src], false, true⟩] ∧ t.pbk.coal = p.coal ∧ fget Fl.PBK_EVENT_DROP t = 1 ∧ only t ∧
        rd (if l = 2 then Reg.PBK_DROP2 else Reg.PBK_DROP3) t = BitVec.ofNat 64 (Nat.min ((rd (if l = 2 then Reg.PBK_DROP2 else Reg.PBK_DROP3) s).toNat + 1) (2 ^ 32 - 1))))) ∧
    (∀ g args, g < 0x16 → codeLane (g * 256 + 0xFF) args = 2) ∧
    (∀ args, (∀ c ∈ [0x0002, 0x0282, 0x0283, 0x1380, 0x1383, 0x1580, 0x0100, 0x0105, 0x0608, 0x0806, 0x0903, 0x0904, 0x0C05, 0x0B00, 0x0B01, 0x0E09, 0x1007], codeLane c args = 0) ∧
      (∀ c ∈ [0x0003, 0x0284, 0x0380, 0x0580, 0x1280, 0x1382, 0x0E01, 0x0E05, 0x0E08, 0x0E07, 0x0F01, 0x0F05, 0x1201, 0x1204, 0x1205], codeLane c args = 1) ∧
      (∀ c ∈ [0x0280, 0x0285, 0x1381, 0x0102, 0x0101, 0x0406, 0x0407, 0x0C04, 0x0B03, 0x0B04, 0x1000, 0x1002, 0x1003], codeLane c args = 3) ∧
      (∀ c ∈ [0x0480, 0x1281, 0x1480, 0x1481, 0x0E00, 0x1001], codeLane c args = 2)) ∧
    (∀ l e q, l < 4 → (∀ k, k < l → laneQ k p = []) → laneQ l p = e :: q → e.lane = l → p.held0 = [] → p.held1 = [] → (∀ c ∈ p.coal, c.due = false) → p.ram.length ≤ 32768 →
      let n := (rd Reg.PBK_NEXT_SEQ s).toNat
      Completes .postmarkWrite s (fun t => laneQ l t.pbk = q ∧ rd Reg.PBK_NEXT_SEQ t = BitVec.ofNat 64 (n + 1) ∧ t.pbk.ram.length ≤ 32768 ∧
        (p.ram.length < 32768 → t.pbk.ram.dropLast = p.ram) ∧ (p.ram.length = 32768 → t.pbk.ram.dropLast = p.ram.drop 1) ∧
        (∃ m, t.pbk.ram.getLast? = some m ∧ m.seq = n ∧ m.lane = l ∧ m.rep = e.rep ∧ m.drop = e.drop ∧ m.code = e.code ∧ m.src = e.src ∧ m.count = e.count ∧
          m.pwrcyc = (rd Reg.AON_PWRCYC s).toNat ∧ m.args = (e.args.take 9).map (fun a => a % 2 ^ 32) ∧ postmarkValid m = true) ∧
        (l = 0 → fget Fl.PBK_EVENT_LANE0 t = 1 ∧ t.pbk.unread = p.unread ++ [n] ∧ t.pbk.telemetry = t.pbk.ram) ∧ (l ≠ 0 → t.pbk.unread = p.unread) ∧
        (l < 2 → t.pbk.toDrain = p.toDrain ++ [n]))) ∧
    ((∀ k, k < 4 → laneQ k p = []) → Completes .postmarkWrite s (fun t => t = s)) ∧
    (∀ e c, p.q2 = [e] → p.q0 = [] → p.q1 = [] → p.q3 = [] → e.lane = 2 → p.coal = [c] → c.lane = 2 → c.due = true → Completes .postmarkWrite s (fun t =>
      t.pbk.q2 = [⟨2, c.code, c.src, c.count, c.args, true, false⟩] ∧ t.pbk.coal = [{ c with count := 0, due := false }])) ∧
    (∀ c, p.coal = [c] → c.lane = 2 ∨ c.lane = 3 →
      (c.count = 0 → Completes (.coalescingWindowEnd c.lane c.code c.src) s (fun t => t.pbk.coal = [] ∧ t.regs = s.regs ∧ laneQ c.lane t.pbk = laneQ c.lane p)) ∧
      (c.count ≠ 0 → (laneQ c.lane p).length < 255 → Completes (.coalescingWindowEnd c.lane c.code c.src) s (fun t => t.pbk.coal = [{ c with count := 0, due := false }] ∧
        laneQ c.lane t.pbk = laneQ c.lane p ++ [⟨c.lane, c.code, c.src, c.count, c.args, true, false⟩])) ∧
      (c.count ≠ 0 → 255 ≤ ((laneQ c.lane p).filter (fun x => x.drop = false)).length → Completes (.coalescingWindowEnd c.lane c.code c.src) s (fun t =>
        t.pbk.coal = [{ c with due := true }] ∧ laneQ c.lane t.pbk = laneQ c.lane p))) ∧
    (∀ k req, k < 14 →
      let code := fget (Fl.PBK_SUBMIT_HEAD_CODE k) s
      let args := (List.range 9).map (fun a => (rd (Reg.PBK_SUBMIT_ARG k a) s).toNat)
      (req = submitAgent k → codeNamed code = true → Completes (.postmarkSubmit k req) s (fun t => exec (.postmark code (fget (Fl.PBK_SUBMIT_HEAD_SOURCE k) s) args) s = .next t)) ∧
      (req ≠ submitAgent k ∨ codeNamed code = false → Completes (.postmarkSubmit k req) s (OnlyMarked [] s))) ∧
    (∀ w q mctp, w < 2 → q < 2 ^ 56 →
      let old := oldestSeq s
      let got := (p.ram.filter (fun m => max q old ≤ m.seq)).take 16
      let window (t : State) : List Postmark := SMap.getD t.pbk.win w []
      let framed (t : State) : Prop := fget (Fl.PBK_CURSOR_SEQ w) t = q ∧ only t ∧ t.pbk.ram = p.ram ∧ fget (Fl.PBK_WIN_STATUS_LOST w) t = (if q < old then 1 else 0) ∧
        RegsBut [Reg.PBK_CURSOR w, Reg.PBK_WIN_STATUS w] s t
      (q < (rd Reg.PBK_NEXT_SEQ s).toNat → (∀ m ∈ p.ram, postmarkValid m = true) → Completes (.cursorWrite w q mctp) s (fun t => window t = got ∧ framed t ∧
        fget (Fl.PBK_WIN_STATUS_COUNT w) t = got.length ∧ (∀ m, got.head? = some m → m.seq < 2 ^ 56 → fget (Fl.PBK_WIN_STATUS_FIRST w) t = m.seq) ∧
        t.pbk.unread = (if mctp = true ∧ w = 0 then p.unread.filter (fun u => u ∉ got.map (·.seq)) else p.unread))) ∧
      ((rd Reg.PBK_NEXT_SEQ s).toNat ≤ q → Completes (.cursorWrite w q mctp) s (fun t => window t = [] ∧ framed t ∧ fget (Fl.PBK_WIN_STATUS_COUNT w) t = 0)) ∧
      (∀ m, q < (rd Reg.PBK_NEXT_SEQ s).toNat → p.ram = [m] → max q old ≤ m.seq → postmarkValid m = false → Completes (.cursorWrite w q mctp) s (fun t =>
        window t = [{ m with damaged := true, count := 0, pwrcyc := 0, args := [] }] ∧ fget Fl.PBK_EVENT_DAMAGED t = 1))) ∧
    (∀ i g, 2 ≤ mode s → segIn .drain p.segs = some i → SMap.find p.segs i = some g →
      let todo := p.ram.filter (fun m => m.seq ∈ p.toDrain)
      g.marks.length + todo.length ≤ 32768 → Completes .drain s (fun t => (todo ≠ [] → SMap.find t.pbk.segs i = some { g with marks := g.marks ++ todo }) ∧ t.pbk.toDrain = [] ∧
        t.pbk.ram = p.ram ∧ rd Reg.PBK_PERSIST_SEQ t = BitVec.ofNat 64 (todo.foldl (fun m x => max m x.seq) (rd Reg.PBK_PERSIST_SEQ s).toNat))) ∧
    (mode s < 2 → Completes .drain s (fun t => t = s)) ∧
    (∀ i, erasedSegs p.segs < 2 → oldestHistory p.segs = some i → Completes .sealSegmentErase s (fun t => (∃ g, SMap.find t.pbk.segs i = some g ∧ g.role = .erased ∧ g.marks = []) ∧
      fget Fl.PBK_STATUS_SEAL_SEGS t = erasedSegs t.pbk.segs % 4)) ∧
    (2 ≤ erasedSegs p.segs → Completes .sealSegmentErase s (fun t => t = s))

/-- R9, R10, R34, R37: register access. -/
def Obligations.RegisterAccess : Prop :=
  ∀ s : State,
    let waits (t : State) (x : BusAcc) : Prop := t = { s with bus := { s.bus with stalled := s.bus.stalled ++ [x] } }
    (∀ addr size v req, inControl addr = false → Completes (.registerWrite addr size v req) s (fun t => t = s)) ∧
    (∀ addr v req h, inControl addr = true → regHit addr = some h → h.addr = addr → regThere h req s = true → (h.row.bytes = 4 ∨ h.row.bytes = 8) → addr % h.row.bytes = 0 →
      (∀ g, regHit (addr / 8 * 8) = some g → g.blk ≠ .dig) →
      (h.blk = .ctc ∧ switchingNow 2 s = false) ∨ (h.blk = .pwr ∧ h.off ≠ 4 ∧ h.off ≠ 0x1C) ∨ (h.blk = .hif ∧ h.off ≠ 0x40) ∨ (h.blk = .mem ∧ h.off ≠ 0x14) →
      let mask : Word := if h.row.bytes = 4 then 0xFFFFFFFF else 0xFFFFFFFFFFFFFFFF
      let new : Word := if h.row.bytes = 4 then v &&& 0xFFFFFFFF else v
      let c : Instr := .registerWrite addr h.row.bytes v req
      (legalWrite mask new h.row = true → Completes c s (fun t => rd addr t = writeFields req mask new (rd addr s) h.row ∧ RegsBut [addr] s t ∧
        t = { s with regs := t.regs, mgt := t.mgt })) ∧
      (legalWrite mask new h.row = false → Completes c s (OnlyMarked [] s))) ∧
    (∀ v, pdOn 1 s = true →
      Completes (.registerWrite Reg.PWR_EVENT 4 v 0x10) s (fun t => rd Reg.PWR_EVENT t = rd Reg.PWR_EVENT s &&& ~~~(v &&& 0x1FF) ∧ OnlyRegs [Reg.PWR_EVENT] s t)) ∧
    (∀ i v size req, i < 2 → size = 4 → netUp i s = true → s.net.switching = true → req < 0x100 →
      Completes (.registerWrite (Reg.NET_LINK_CFG i) size v req) s (fun t => waits t ⟨Reg.NET_LINK_CFG i, size, some v, req⟩)) ∧
    (∀ addr size val req, inControl addr = true → size = 1 ∨ size = 2 ∨ size = 3 ∨ ((size = 4 ∨ size = 8) ∧ addr % size ≠ 0) →
      (∀ h, regHit (addr / 8 * 8) = some h → h.blk ≠ .dig) →
      Completes (.malformedRegisterAccess addr size val req) s (OnlyMarked [] s) ∧ Completes (.registerWrite addr size (val.getD 0) req) s (OnlyMarked [] s)) ∧
    (∀ addr size val req, inControl addr = false ∨ malformed addr size = false → Completes (.malformedRegisterAccess addr size val req) s (fun t => t = s)) ∧
    (∀ addr size req,
      (inMap addr = false → Completes (.reservedAddressAccess addr size req) s (OnlyMarked [] s)) ∧
      (inMap addr = true → inControl addr = false → Completes (.reservedAddressAccess addr size req) s (fun t => t = s)) ∧
      (inControl addr = true → regHit addr = none → Completes (.reservedAddressAccess addr size req) s (OnlyMarked [] s)) ∧
      (∀ h, inControl addr = true → regHit addr = some h →
        (unitOn h.blk h.inst s = false → Completes (.reservedAddressAccess addr size req) s (OnlyMarked [] s)) ∧
        (unitOn h.blk h.inst s = true → Completes (.reservedAddressAccess addr size req) s (fun t => t = s)))) ∧
    (∀ addr size v req, inControl addr = true → size = 4 ∨ size = 8 → addr % size = 0 →
      (∀ g, regHit (addr / 8 * 8) = some g → g.blk ≠ .dig) →
      regHit addr = none ∨ (∃ h, regHit addr = some h ∧ unitOn h.blk h.inst s = false) →
      Completes (.registerWrite addr size v req) s (fun t => exec (.postmark 0x1480 0x14 [addr % 2 ^ 32, addr / 2 ^ 32, req, size]) s = .next t)) ∧
    (∀ x v, s.bus.stalled = [x] → x.val = some v → accessStalls x.addr x.req s = false → inControl x.addr = true →
      let s1 := { s with bus := { s.bus with stalled := [] } }
      Completes .stalledAccessComplete s (fun t => exec (.registerWrite x.addr x.size v x.req) s1 = .next t)) ∧
    ((∀ x ∈ s.bus.stalled, accessStalls x.addr x.req s = true) → Completes .stalledAccessComplete s (fun t => t = s))

/-- R505–R507: the Boward Debug Link. -/
def Obligations.DebugLink : Prop :=
  ∀ s : State,
    let l := s.bus.link
    let answered (t : State) (code tag : Nat) (d : Option Word) : Prop := t.bus.link.resp = linkPacket code tag d
    let onlyLink (regs : List Nat) (t : State) : Prop :=
      t = { s with regs := t.regs, bus := { s.bus with link := t.bus.link } } ∧ OnlyRegs regs s { s with regs := t.regs }
    let quiet : Prop := l.pend = none ∧ l.done = none
    let awake : Prop := mode s ≠ 6 ∧ mode s ≠ 7 ∧ s.pow.idleWait = none
    (pdOn 35 s = false → ∀ tag size addr v bad late,
      Completes (.ident tag bad) s (fun t => t = s) ∧ Completes (.debugRead tag size addr bad late) s (fun t => t = s) ∧
      Completes (.debugWrite tag size addr v bad late) s (fun t => t = s) ∧ Completes (.readInc tag size bad late) s (fun t => t = s) ∧
      Completes (.writeInc tag size v bad late) s (fun t => t = s) ∧ Completes (.collect tag bad) s (fun t => t = s) ∧
      Completes (.repeatRequest tag bad) s (fun t => t = s) ∧ Completes .debugResetPin s (fun t => t = s)) ∧
    (pdOn 35 s = true → ∀ tag size addr v late, tag < 8 →
      let frame (t : State) : Prop := answered t 0x14 tag none ∧ fget Fl.DBG_LINK_STATUS_CRC_ERR t = 1 ∧ onlyLink [Reg.DBG_LINK_STATUS] t ∧
        t.bus.link.pend = l.pend ∧ t.bus.link.done = l.done ∧ t.bus.link.addr = l.addr
      Completes (.ident tag true) s frame ∧ Completes (.debugRead tag size addr true late) s frame ∧ Completes (.debugWrite tag size addr v true late) s frame ∧
      Completes (.readInc tag size true late) s frame ∧ Completes (.writeInc tag size v true late) s frame ∧ Completes (.collect tag true) s frame ∧
      Completes (.repeatRequest tag true) s frame) ∧
    (pdOn 35 s = true → l.pend.isSome = true → ∀ tag size addr v late, tag < 8 →
      let busy (t : State) : Prop := answered t 0x18 tag none ∧ t = { s with bus := { s.bus with link := { l with resp := t.bus.link.resp } } }
      Completes (.ident tag false) s busy ∧ Completes (.debugRead tag size addr false late) s busy ∧ Completes (.debugWrite tag size addr v false late) s busy ∧
      Completes (.readInc tag size false late) s busy ∧ Completes (.writeInc tag size v false late) s busy ∧ Completes (.repeatRequest tag false) s busy ∧
      (l.done = none → awake → Completes (.collect tag false) s (fun t => answered t 0x0A tag none ∧ t = { s with bus := { s.bus with link := { l with resp := t.bus.link.resp } } }))) ∧
    (pdOn 35 s = true → quiet → ∀ tag, tag < 8 →
      Completes (.ident tag false) s (fun t => answered t 0x05 tag (some 0x4D01B0D7) ∧ (awake → t = { s with bus := { s.bus with link := { l with resp := t.bus.link.resp } } })) ∧
      (awake → Completes (.repeatRequest tag false) s (fun t => t = s))) ∧
    (∀ tag size addr, pdOn 35 s = true → quiet → tag < 8 → size < 4 → awake → dramHeld addr s = false → addr + 2 ^ size < 2 ^ 48 → memAt addr (2 ^ size) s = true →
      inControl addr = false → (∀ i, i < 2 ^ size → poisoned (addr + i) s = false) →
      let got (t : State) : Prop := answered t 0x05 tag (some (BitVec.ofNat 64 (leVal (rdBytes addr (2 ^ size) s)))) ∧ onlyLink [] t ∧
        t.bus.link.addr = addr + 2 ^ size ∧ t.bus.link.pend = none ∧ t.bus.link.done = none
      Completes (.debugRead tag size addr false false) s got ∧ (l.addr = addr → Completes (.readInc tag size false false) s got)) ∧
    (∀ tag size addr v, pdOn 35 s = true → quiet → tag < 8 → size < 4 → awake → addr % 2 ^ size = 0 → addr + 2 ^ size < 0x4000000 →
      memAt addr (2 ^ size) s = true →
      let done (t : State) : Prop := answered t 0x05 tag none ∧ rdBytes addr (2 ^ size) t = leBytes (2 ^ size) v.toNat ∧
        t.bus.link.addr = addr + 2 ^ size ∧ t.regs = s.regs
      let apart (t : State) : Prop := ∀ a, a < addr ∨ addr + 2 ^ size ≤ a → rdBytes a 1 t = rdBytes a 1 s
      Completes (.debugWrite tag size addr v false false) s done ∧ Completes (.debugWrite tag size addr v false false) s apart ∧
      (l.addr = addr → Completes (.writeInc tag size v false false) s done ∧ Completes (.writeInc tag size v false false) s apart)) ∧
    (∀ tag size addr v, pdOn 35 s = true → quiet → tag < 8 → size < 4 → awake → addr < 2 ^ 48 →
      let late (x : BusAcc) (t : State) : Prop := answered t 0x0A tag none ∧ t.bus.link.pend = some x ∧ t.bus.link.addr = l.addr ∧
        fget Fl.DBG_LINK_STATUS_PENDING t = 1 ∧ onlyLink [Reg.DBG_LINK_STATUS] t
      let fault (t : State) : Prop := answered t 0x12 tag none ∧ fget Fl.DBG_LINK_STATUS_FAULT t = 1 ∧ RegsBut [Reg.DBG_LINK_STATUS] s t ∧ t.bus.link.addr = l.addr ∧
        t = { s with regs := t.regs, pbk := t.pbk, bus := { s.bus with link := t.bus.link } }
      let low := v &&& BitVec.ofNat 64 (2 ^ (8 * 2 ^ size) - 1)
      Completes (.debugRead tag size addr false true) s (late ⟨addr, 2 ^ size, none, 0x11⟩) ∧
      Completes (.debugWrite tag size addr v false true) s (late ⟨addr, 2 ^ size, some low, 0x11⟩) ∧
      (l.addr = addr → Completes (.readInc tag size false true) s (late ⟨addr, 2 ^ size, none, 0x11⟩) ∧
        Completes (.writeInc tag size v false true) s (late ⟨addr, 2 ^ size, some low, 0x11⟩)) ∧
      (inMap addr = false → memAt addr (2 ^ size) s = false → Completes (.debugRead tag size addr false false) s fault ∧
        Completes (.debugWrite tag size addr v false false) s fault)) ∧
    (∀ tag x, pdOn 35 s = true → l.pend = none → tag < 8 → awake →
      (∀ v, l.done = some (some v, x) → Completes (.collect tag false) s (fun t => answered t 0x05 tag (if x.val.isNone then some v else none) ∧ t.bus.link.done = none ∧
        t.bus.link.addr = (x.addr + x.size) % 2 ^ 48 ∧ fget Fl.DBG_LINK_STATUS_PENDING t = 0 ∧ onlyLink [Reg.DBG_LINK_STATUS] t)) ∧
      (l.done = some (none, x) → Completes (.collect tag false) s (fun t => answered t 0x12 tag none ∧ t.bus.link.done = none ∧
        t.bus.link.addr = l.addr ∧ fget Fl.DBG_LINK_STATUS_PENDING t = 0 ∧ fget Fl.DBG_LINK_STATUS_FAULT t = 1 ∧ onlyLink [Reg.DBG_LINK_STATUS] t))) ∧
    (l.pend = none → Completes .debugAccessComplete s (fun t => t = s)) ∧
    (∀ x, l.pend = some x → pdOn 35 s = true → x.val = none → inControl x.addr = false → dramHeld x.addr s = false → memAt x.addr x.size s = true →
      (∀ i, i < x.size → poisoned (x.addr + i) s = false) → Completes .debugAccessComplete s (fun t => t.bus.link.pend = none ∧
        t.bus.link.done = some (some (BitVec.ofNat 64 (leVal (rdBytes x.addr x.size s))), x) ∧ fget Fl.DBG_LINK_STATUS_PENDING t = 1 ∧
        t.bus.link.resp = l.resp ∧ onlyLink [Reg.DBG_LINK_STATUS] t)) ∧
    Completes .lineReset s (fun t => t = s)

/-- R508–R511, R513: halting, stepping and debug reset. -/
def Obligations.HaltingAndStepping : Prop :=
  ∀ s : State,
    let awake : Prop := mode s ≠ 6 ∧ mode s ≠ 7 ∧ s.pow.idleWait = none
    let still : Prop := s.nv.cmds = [] ∧ ∀ c ∈ s.nv.ctrls, ∀ q ∈ c.2.cqs, q.2.held = []
    (∀ k req, k < 77 → pdOn 35 s = true → req < 0x100 → req ≠ 0x11 ∨ awake →
      let halted := coreHalted k s = true
      let frozen (cause index : Nat) (t : State) : Prop := coreHalted k t = true ∧ fget (Fl.DBG_CORE_DSTATUS_CAUSE k) t = cause ∧
        fget (Fl.DBG_CORE_DSTATUS_INDEX k) t = index ∧ fget (Fl.DBG_PC_ADDR k) t = (coreAt k s).pc.toNat ∧
        t = { s with regs := t.regs, pbk := t.pbk, pow := t.pow, cores := t.cores, sch := t.sch } ∧ k ∉ t.sch.offered ∧
        (∀ j, j < 77 → j ≠ k → coreAt j t = coreAt j s) ∧ (coreAt k t).pc = (coreAt k s).pc ∧ (coreAt k t).g = (coreAt k s).g ∧ (64 ≤ k → k < 76 → mode s ≠ 7 → mode s ≠ 8 →
          fget Fl.AON_MODE_TRANS s = 0 → mode t = 0xB) ∧ (mode s = 7 ∨ mode s = 8 → mode t = mode s)
      let leaves := still ∧ mode s = 0xB ∧ ∀ j, j < 12 → 64 + j ≠ k → coreHalted (64 + j) s = false
      let kept := mode s = 0xB → (64 ≤ k ∧ k < 76) ∨ ∃ j, j < 12 ∧ coreHalted (64 + j) s = true
      let runs := kept ∧ coreUp k s = true ∧ coreHalted k s = false ∧ (coreAt k s).ahead = none ∧ (coreAt k s).pc.toNat < 2 ^ 64
      (runs → coreDomain k s = true → Completes (.coreHalt k req) s (frozen 0 0)) ∧
      (coreDomain k s = false → Completes (.coreHalt k req) s (OnlyMarked [] s)) ∧
      (halted ∨ coreUp k s = false → coreDomain k s = true → Completes (.coreHalt k req) s (fun t => coreHalted k t = coreHalted k s ∧ OnlyRegs [Reg.DBG_CORE_CTRL k] s t)) ∧
      (halted → coreDomain k s = true → mode s ≠ 0xB ∨ still → Completes (.coreResume k req) s (fun t => coreHalted k t = false ∧ (coreAt k t).pc = (coreAt k s).pc ∧
        (coreAt k t).passBp = true ∧ (coreAt k t).stepping = (coreAt k s).stepping) ∧ (¬ leaves → Completes (.coreResume k req) s (fun t => t = { s with regs := t.regs, pbk := t.pbk, pow := t.pow, cores := t.cores })) ∧
        (leaves → s.pow.haltFrom < 16 → fget Fl.AON_MODE_RO_CAUSE s = 0 → Completes (.coreResume k req) s (fun t =>
          t = { s with regs := t.regs, pbk := t.pbk, pow := t.pow, cores := t.cores, nv := t.nv } ∧ mode t = s.pow.haltFrom)) ∧
        (leaves → s.pow.haltFrom = 4 ∨ s.pow.haltFrom = 5 → fget Fl.AON_MODE_RO_CAUSE s ≠ 0 → Completes (.coreResume k req) s (fun t => mode t = 0xA))) ∧
      (¬ halted → Completes (.coreResume k req) s (OnlyMarked [] s)) ∧
      (∀ noInt, halted → coreDomain k s = true → Completes (.coreStep k noInt req) s (fun t => coreHalted k t = false ∧ (coreAt k t).stepping = true ∧
        fget (Fl.DBG_CORE_CTRL_STEP_NOINT k) t = (if noInt = true then 1 else 0) ∧ (coreAt k t).pc = (coreAt k s).pc ∧ t = { s with regs := t.regs, cores := t.cores })) ∧
      (∀ noInt, ¬ halted → coreDomain k s = true → Completes (.coreStep k noInt req) s (fun t => fget (Fl.DBG_CORE_CTRL_STEP_NOINT k) t = (if noInt = true then 1 else 0) ∧
        OnlyRegs [Reg.DBG_CORE_CTRL k] s t)) ∧
      (∀ i, kept → coreRuns k s = true → (coreAt k s).passBp = false → bpHit k (coreAt k s).pc s = some i → i < 8 → Completes (.breakpointHit k) s (frozen 1 i)) ∧
      (coreRuns k s = false ∨ (coreAt k s).passBp = true ∨ bpHit k (coreAt k s).pc s = none → Completes (.breakpointHit k) s (fun t => t = s)) ∧
      (∀ i a n load store, kept → coreRuns k s = true → wpHit k a n load store s = some i → i < 4 → Completes (.watchpointHit k a n load store) s (frozen 2 i)) ∧
      (∀ a n load store, coreRuns k s = false ∨ wpHit k a n load store s = none → Completes (.watchpointHit k a n load store) s (fun t => t = s)) ∧
      (∀ v, halted → fget (Fl.DBG_REG_SEL_GROUP k) s = 0 → Completes (.regDataWrite k v req) s (fun t =>
        let n := fget (Fl.DBG_REG_SEL_NUM k) s
        gr k n t = (if n = 0 then 0 else v) ∧ (∀ m, m < 32 → m ≠ n → gr k m t = gr k m s) ∧ (coreAt k t).pc = (coreAt k s).pc ∧ t = { s with cores := t.cores })) ∧
      (∀ v, halted → Completes (.pcWrite k v req) s (fun t => (coreAt k t).pc = v &&& 0xFFFFFFFFFFFFFFFC ∧
        t = { s with regs := t.regs, cores := t.cores } ∧ (coreAt k t).g = (coreAt k s).g)) ∧
      (∀ v, ¬ halted → Completes (.regDataWrite k v req) s (OnlyMarked [] s) ∧ Completes (.pcWrite k v req) s (OnlyMarked [] s))) ∧
    (let wiped (t : State) : Prop := (∀ k, k < 77 → coreHalted k t = false) ∧
        (∀ k, k < 77 → ∀ i, i < 8 → fget (Fl.DBG_BP_EN k i) t = 0) ∧ (∀ k, k < 77 → ∀ i, i < 4 → fget (Fl.DBG_WP_CFG_EN k i) t = 0) ∧
        fget Fl.DBG_LINK_STATUS_FAULT t = 0 ∧ fget Fl.DBG_LINK_STATUS_CRC_ERR t = 0 ∧ fget Fl.AON_RST_CAUSE_DEBUG t = 1 ∧
        t = { s with regs := t.regs, pbk := t.pbk, pow := t.pow, cores := t.cores, nv := t.nv } ∧
        (mode s ≠ 0xB → (∀ j, j < 12 → coreHalted (64 + j) s = false) → t.nv = s.nv)
     let ready : Prop := pdOn 35 s = true ∧ mode s ≠ 8 ∧ still ∧ fget Fl.AON_MODE_RO_CAUSE s = 0
     let waiting (cause : Nat) (t : State) : Prop := t = { s with pow := { s.pow with waitResets := s.pow.waitResets ++ [.debug cause] } }
     (ready → Completes .debugResetPin s wiped) ∧
     (pdOn 35 s = true → mode s = 8 → Completes .debugResetPin s (waiting 0)) ∧
     (∀ req, req ≠ 0x11 ∨ awake →
       (∀ key, key < 256 → pdOn 35 s = true → req < 0x100 → key ≠ 0xD7 → Completes (.debugResetCommand key req) s (OnlyMarked [] s)) ∧
       (ready → req < 0x100 → Completes (.debugResetCommand 0xD7 req) s wiped) ∧
       (pdOn 35 s = true → mode s = 8 → req < 0x100 → Completes (.debugResetCommand 0xD7 req) s (waiting 1)) ∧
       (∀ key, pdOn 35 s = false → Completes (.debugResetCommand key req) s (OnlyMarked [] s))))

/-- R308, R311: the ALU3 rows of major 0x01. -/
def Obligations.AluLogicAndShifts : Prop :=
  ∀ (k : Nat) (w : Half) (s : State), CoreReady k s → majOf w = 0x01 → rcOf w = 0 →
    let a := gr k (raOf w) s
    let b := gr k (rbOf w) s
    let n := b.toNat % 64
    let m := b.toNat % 32
    let w32 (x : Int) : Word := BitVec.ofInt 64 (Int.bmod x (2 ^ 32))
    (fnOf w = 0x00 → Gives (.add k w) k w (BitVec.ofInt 64 (a.toInt + b.toInt)) s) ∧
    (fnOf w = 0x01 → Gives (.sub k w) k w (BitVec.ofInt 64 (a.toInt - b.toInt)) s) ∧
    (fnOf w = 0x02 → Gives (.and k w) k w (a &&& b) s) ∧
    (fnOf w = 0x03 → Gives (.or k w) k w (a ||| b) s) ∧
    (fnOf w = 0x04 → Gives (.xor k w) k w (a ^^^ b) s) ∧
    (fnOf w = 0x05 → Gives (.andn k w) k w (a &&& ~~~b) s) ∧
    (fnOf w = 0x06 → Gives (.orn k w) k w (a ||| ~~~b) s) ∧
    (fnOf w = 0x08 → Gives (.sll k w) k w (BitVec.ofNat 64 (a.toNat * 2 ^ n)) s) ∧
    (fnOf w = 0x09 → Gives (.srl k w) k w (BitVec.ofNat 64 (a.toNat / 2 ^ n)) s) ∧
    (fnOf w = 0x0A → Gives (.sra k w) k w (BitVec.ofInt 64 (a.toInt / 2 ^ n)) s) ∧
    (fnOf w = 0x0B → Gives (.ror k w) k w (BitVec.ofNat 64 (a.toNat / 2 ^ n + a.toNat * 2 ^ (64 - n))) s) ∧
    (fnOf w = 0x10 → Gives (.addw k w) k w (w32 (a.toInt + b.toInt)) s) ∧
    (fnOf w = 0x11 → Gives (.subw k w) k w (w32 (a.toInt - b.toInt)) s) ∧
    (fnOf w = 0x18 → Gives (.sllw k w) k w (w32 (a.toNat * 2 ^ m)) s) ∧
    (fnOf w = 0x19 → Gives (.srlw k w) k w (w32 (a.toNat % 2 ^ 32 / 2 ^ m)) s) ∧
    (fnOf w = 0x1A → Gives (.sraw k w) k w (w32 (Int.bmod a.toNat (2 ^ 32) / 2 ^ m)) s)

/-- R308, R311, R312: the ALU3 rows of major 0x02; Axgal-Lite has no division (R348). -/
def Obligations.AluMultiplyAndBits : Prop :=
  ∀ (k : Nat) (w : Half) (s : State), CoreReady k s → majOf w = 0x02 → rcOf w = 0 →
    let a := gr k (raOf w) s
    let b := gr k (rbOf w) s
    (fnOf w = 0x00 → Gives (.mul k w) k w (BitVec.ofInt 64 (a.toInt * b.toInt)) s) ∧
    (fnOf w = 0x01 → Gives (.mulh k w) k w (BitVec.ofInt 64 (a.toInt * b.toInt / 2 ^ 64)) s) ∧
    (fnOf w = 0x02 → Gives (.mulhu k w) k w (BitVec.ofNat 64 (a.toNat * b.toNat / 2 ^ 64)) s) ∧
    (fnOf w = 0x03 → Gives (.mulw k w) k w (BitVec.ofInt 64 (Int.bmod (a.toInt * b.toInt) (2 ^ 32))) s) ∧
    (k ≠ 76 →
      (fnOf w = 0x08 → Gives (.div k w) k w (if b = 0 then BitVec.allOnes 64 else BitVec.ofInt 64 (a.toInt.tdiv b.toInt)) s) ∧
      (fnOf w = 0x09 → Gives (.divu k w) k w (if b = 0 then BitVec.allOnes 64 else BitVec.ofNat 64 (a.toNat / b.toNat)) s) ∧
      (fnOf w = 0x0A → Gives (.rem k w) k w (if b = 0 then a else BitVec.ofInt 64 (a.toInt.tmod b.toInt)) s) ∧
      (fnOf w = 0x0B → Gives (.remu k w) k w (if b = 0 then a else BitVec.ofNat 64 (a.toNat % b.toNat)) s)) ∧
    (k = 76 → fnOf w = 0x08 → Traps (.div k w) k 0x03 w 0 s) ∧
    (rbOf w = 0 →
      (∀ n, n ≤ 64 → (∀ i, 64 - n ≤ i → i < 64 → a.getLsbD i = false) → (n < 64 → a.getLsbD (63 - n) = true) →
        fnOf w = 0x10 → Gives (.clz k w) k w (BitVec.ofNat 64 n) s) ∧
      (∀ n, n ≤ 64 → (∀ i, i < n → a.getLsbD i = false) → (n < 64 → a.getLsbD n = true) →
        fnOf w = 0x11 → Gives (.ctz k w) k w (BitVec.ofNat 64 n) s) ∧
      (fnOf w = 0x12 → Gives (.popc k w) k w (BitVec.ofNat 64 ((List.range 64).filter (fun i => a.getLsbD i)).length) s) ∧
      (∀ v : Word, (∀ i, i < 8 → v.extractLsb' (8 * i) 8 = a.extractLsb' (8 * (7 - i)) 8) → fnOf w = 0x13 → Gives (.bswap k w) k w v s) ∧
      (fnOf w = 0x14 → Gives (.sextb k w) k w (BitVec.ofInt 64 (Int.bmod a.toNat (2 ^ 8))) s) ∧
      (fnOf w = 0x15 → Gives (.sexth k w) k w (BitVec.ofInt 64 (Int.bmod a.toNat (2 ^ 16))) s) ∧
      (fnOf w = 0x16 → Gives (.sextw k w) k w (BitVec.ofInt 64 (Int.bmod a.toNat (2 ^ 32))) s) ∧
      (fnOf w = 0x17 → Gives (.zextw k w) k w (BitVec.ofNat 64 (a.toNat % 2 ^ 32)) s)) ∧
    (fnOf w = 0x18 → Gives (.min k w) k w (if a.toInt ≤ b.toInt then a else b) s) ∧
    (fnOf w = 0x19 → Gives (.max k w) k w (if a.toInt ≤ b.toInt then b else a) s) ∧
    (fnOf w = 0x1A → Gives (.minu k w) k w (if a.toNat ≤ b.toNat then a else b) s) ∧
    (fnOf w = 0x1B → Gives (.maxu k w) k w (if a.toNat ≤ b.toNat then b else a) s)

/-- R308, R311, R313, R317: comparisons, SEL and the immediate rows, and the stack-limit check of a result in g31. -/
def Obligations.CompareAndImmediate : Prop :=
  ∀ (k : Nat) (w : Half) (s : State), CoreReady k s →
    let a := gr k (raOf w) s
    let b := gr k (rbOf w) s
    let one (p : Bool) : Word := if p then 1 else 0
    let simm : Word := BitVec.ofInt 64 (Int.bmod (immOf w) 65536)
    let hi : Word := BitVec.ofInt 64 (Int.bmod (immOf w * 65536) (2 ^ 32))
    (majOf w = 0x03 → rcOf w = 0 →
      (fnOf w = 0x00 → Gives (.cmpeq k w) k w (one (a == b)) s) ∧
      (fnOf w = 0x01 → Gives (.cmpne k w) k w (one (a != b)) s) ∧
      (fnOf w = 0x02 → Gives (.cmplt k w) k w (one (decide (a.toInt < b.toInt))) s) ∧
      (fnOf w = 0x03 → Gives (.cmpltu k w) k w (one (decide (a.toNat < b.toNat))) s) ∧
      (fnOf w = 0x04 → Gives (.cmple k w) k w (one (decide (a.toInt ≤ b.toInt))) s) ∧
      (fnOf w = 0x05 → Gives (.cmpleu k w) k w (one (decide (a.toNat ≤ b.toNat))) s)) ∧
    (majOf w = 0x03 → fnOf w = 0x08 → Gives (.sel k w) k w (if gr k (rcOf w) s = 0 then b else a) s) ∧
    (majOf w = 0x04 → Gives (.addi k w) k w (a + simm) s) ∧
    (majOf w = 0x05 → Gives (.andi k w) k w (a &&& BitVec.ofNat 64 (immOf w)) s) ∧
    (majOf w = 0x06 → Gives (.ori k w) k w (a ||| BitVec.ofNat 64 (immOf w)) s) ∧
    (majOf w = 0x07 → Gives (.xori k w) k w (a ^^^ BitVec.ofNat 64 (immOf w)) s) ∧
    (majOf w = 0x08 → raOf w = 0 → Gives (.lui k w) k w hi s) ∧
    (majOf w = 0x09 → immOf w < 64 → Gives (.shi k w) k w (BitVec.ofNat 64 (a.toNat * 2 ^ immOf w)) s) ∧
    (majOf w = 0x09 → 64 ≤ immOf w → immOf w < 128 → Gives (.shi k w) k w (BitVec.ofNat 64 (a.toNat / 2 ^ (immOf w - 64))) s) ∧
    (majOf w = 0x09 → 128 ≤ immOf w → immOf w < 192 → Gives (.shi k w) k w (BitVec.ofInt 64 (a.toInt / 2 ^ (immOf w - 128))) s) ∧
    (majOf w = 0x09 → 192 ≤ immOf w → immOf w < 256 →
      Gives (.shi k w) k w (BitVec.ofNat 64 (a.toNat / 2 ^ (immOf w - 192) + a.toNat * 2 ^ (256 - immOf w))) s) ∧
    (majOf w = 0x0A → Gives (.cmpeqi k w) k w (one (a == simm)) s) ∧
    (majOf w = 0x0B → Gives (.cmpnei k w) k w (one (a != simm)) s) ∧
    (majOf w = 0x0C → Gives (.cmplti k w) k w (one (decide (a.toInt < simm.toInt))) s) ∧
    (majOf w = 0x0D → Gives (.cmpltui k w) k w (one (decide (a.toNat < simm.toNat))) s) ∧
    (majOf w = 0x0E → raOf w = 0 → Gives (.addpc k w) k w ((coreAt k s).pc + hi) s) ∧
    (majOf w = 0x04 → rdOf w = 31 → stackLow k (a + simm) s = true → Traps (.addi k w) k 0x0B w (a + simm) s) ∧
    (majOf w = 0x08 → raOf w ≠ 0 → Traps (.lui k w) k 0x03 w 0 s) ∧
    (majOf w = 0x09 → 256 ≤ immOf w → Traps (.shi k w) k 0x03 w 0 s)

/-- R7, R318, R319: loads, stores and the pre-read hint's encoding. -/
def Obligations.LoadsAndStores : Prop :=
  ∀ (k : Nat) (w : Half) (s : State), CoreReady k s →
    let ea := eaOf k w s
    let load (i : Instr) (maj n : Nat) (signed : Bool) : Prop := majOf w = maj → ∀ a b u, ReadsMem k ea n (fetched k s) a b u →
      let v : Word := if signed then BitVec.ofInt 64 (Int.bmod (memVal ea n a b u) (2 ^ (8 * n))) else BitVec.ofNat 64 (memVal ea n a b u)
      (rdOf w = 31 → stackLow k v s = false) → Completes i s (fun t => GetsG k (rdOf w) v s t ∧ Ran k ((coreAt k s).pc + 4) u t)
    let store (i : Instr) (maj n : Nat) : Prop := majOf w = maj → ∀ a b u, WritesMem k ea n (fetched k s) a b u →
      Completes i s (fun t => SameRegs k s t ∧ Retired k ((coreAt k s).pc + 4) s t ∧ Stores k ea n a b (gr k (rdOf w) s).toNat u t)
    load (.ldb k w) 0x10 1 true ∧ load (.ldbu k w) 0x11 1 false ∧ load (.ldh k w) 0x12 2 true ∧ load (.ldhu k w) 0x13 2 false ∧
    load (.ldw k w) 0x14 4 true ∧ load (.ldwu k w) 0x15 4 false ∧ load (.ldd k w) 0x16 8 false ∧
    store (.stb k w) 0x18 1 ∧ store (.sth k w) 0x19 2 ∧ store (.stw k w) 0x1A 4 ∧ store (.std k w) 0x1B 8 ∧
    (majOf w = 0x16 → wpHit k ea.toNat 8 true false (fetched k s) = none → ∀ c u, translate2 k ea 8 .load (fetched k s) = (.error c, u) →
      Traps (.ldd k w) k c w ea s) ∧
    (majOf w = 0x1B → wpHit k ea.toNat 8 false true (fetched k s) = none → ∀ c u, translate2 k ea 8 .store (fetched k s) = (.error c, u) →
      Traps (.std k w) k c w ea s)

/-- R320, R321: atomic memory operations of 8 and 4 bytes. -/
def Obligations.Atomics : Prop :=
  ∀ (k : Nat) (w : Half) (s : State) (a : Nat) (u : State), CoreReady k s → majOf w = 0x20 ∨ majOf w = 0x21 → rdOf w ≠ 31 →
    AmoMem k (gr k (raOf w) s) (amoBytes w) (fetched k s) a u →
    let n := amoBytes w
    let old := numAt a n u
    let rb := (gr k (rbOf w) s).toNat % 2 ^ (8 * n)
    let rc := (gr k (rcOf w) s).toNat % 2 ^ (8 * n)
    let si (x : Nat) : Int := Int.bmod x (2 ^ (8 * n))
    let row (i : Instr) (code v : Nat) : Prop := fnOf w % 16 = code → rcOf w = 0 → AmoGives i k w a n u v s
    row (.amoSwap k w) 0 rb ∧ row (.amoAdd k w) 1 ((old + rb) % 2 ^ (8 * n)) ∧ row (.amoAnd k w) 2 (old &&& rb) ∧
    row (.amoOr k w) 3 (old ||| rb) ∧ row (.amoXor k w) 4 (old ^^^ rb) ∧
    row (.amoMin k w) 5 (if si old ≤ si rb then old else rb) ∧ row (.amoMax k w) 6 (if si old ≤ si rb then rb else old) ∧
    row (.amoMinu k w) 7 (if old ≤ rb then old else rb) ∧ row (.amoMaxu k w) 8 (if old ≤ rb then rb else old) ∧
    (fnOf w % 16 = 9 → AmoGives (.amoCas k w) k w a n u (if old = rc then rb else old) s) ∧
    (fnOf w = 10 ∨ fnOf w = 26 → rbOf w = 0 → rcOf w = 0 → AmoGives (.amoLd k w) k w a n u old s) ∧
    (fnOf w = 11 ∨ fnOf w = 43 → rdOf w = 0 → rcOf w = 0 → Completes (.amoSt k w) s (fun t => SameRegs k s t ∧
      Retired k ((coreAt k s).pc + 4) s t ∧ numAt a n t = rb ∧ ∀ x, x < a ∨ a + n ≤ x → rdByte x t = rdByte x u))

/-- R314–R316: branches, jumps, calls and returns. -/
def Obligations.BranchesAndCalls : Prop :=
  ∀ (k : Nat) (w : Half) (s : State), CoreReady k s →
    let pc := (coreAt k s).pc
    let sp := gr k 31 s
    let near : Word := pc + BitVec.ofInt 64 (4 * Int.bmod (wbits w 0 21) (2 ^ 21))
    let far : Word := pc + BitVec.ofInt 64 (4 * Int.bmod (wbits w 0 26) (2 ^ 26))
    let calls (i : Instr) (target : Word) : Prop := target.toNat % 4 = 0 → sp.toNat % 8 = 0 → 8 ≤ sp.toNat → stackLow k (sp - 8) s = false →
      ∀ a b u, WritesMem k (sp - 8) 8 (fetched k s) a b u → Completes i s (fun t => GetsG k 31 (sp - 8) s t ∧ Retired k target s t ∧
        Stores k (sp - 8) 8 a b (pc + 4).toNat u t)
    (majOf w = 0x28 → Goes (.beqz k w) k (if gr k (rdOf w) s = 0 then near else pc + 4) s) ∧
    (majOf w = 0x29 → Goes (.bnez k w) k (if gr k (rdOf w) s ≠ 0 then near else pc + 4) s) ∧
    (majOf w = 0x2C → Goes (.j k w) k far s) ∧
    (majOf w = 0x2D → calls (.call k w) far) ∧
    (majOf w = 0x2E → rdOf w = 0 → rbOf w = 0 → rcOf w = 0 →
      (fnOf w = 0 → (gr k (raOf w) s).toNat % 4 = 0 → Goes (.jr k w) k (gr k (raOf w) s) s) ∧
      (fnOf w = 0 → (gr k (raOf w) s).toNat % 4 ≠ 0 → Traps (.jr k w) k 0x08 w (gr k (raOf w) s) s) ∧
      (fnOf w = 1 → calls (.callr k w) (gr k (raOf w) s)) ∧
      (fnOf w = 1 → (gr k (raOf w) s).toNat % 4 = 0 → sp.toNat % 8 ≠ 0 → Traps (.callr k w) k 0x09 w (sp - 8) s) ∧
      (fnOf w = 2 → raOf w = 0 → sp.toNat % 8 = 0 → stackLow k (sp + 8) s = false → ∀ a b u, ReadsMem k sp 8 (fetched k s) a b u →
        memVal sp 8 a b u % 4 = 0 →
        Completes (.ret k w) s (fun t => GetsG k 31 (sp + 8) s t ∧ Ran k (BitVec.ofNat 64 (memVal sp 8 a b u)) u t)))

/-- R310, R322, R323, R328, R333–R339, R341, R346: system instructions, reserved words, interrupts and the timer. -/
def Obligations.SystemInstructions : Prop :=
  (∀ (k : Nat) (w : Half) (s : State), CoreReady k s →
    let pc := (coreAt k s).pc
    let n := simmOf w
    (majOf w = 0 →
      (sysFnOf w = 1 → rdOf w = 0 → raOf w = 0 → execOfCore k s = none → Traps (.svreq k w) k 0x06 w 0 s) ∧
      (sysFnOf w = 2 → rdOf w = 0 → raOf w = 0 →
        (fget (Fl.DBG_CORE_CTRL_DBGTRAP_HALT k) s = 0 → Traps (.dbgtrap k w) k 0x07 w 0 s) ∧
        (fget (Fl.DBG_CORE_CTRL_DBGTRAP_HALT k) s = 1 → (mode s = 0xB → (64 ≤ k ∧ k < 76) ∨ ∃ j, j < 12 ∧ coreHalted (64 + j) s = true) → Completes (.dbgtrap k w) s (fun t => coreHalted k t = true ∧
          fget (Fl.DBG_CORE_DSTATUS_CAUSE k) t = 4 ∧ (coreAt k t).pc = pc ∧ SameRegs k s t))) ∧
      (sysFnOf w = 3 → rdOf w = 0 → raOf w = 0 → 1 ≤ n → n < 16 → Goes (.fence k w) k (pc + 4) s) ∧
      (sysFnOf w = 3 → n = 0 ∨ 16 ≤ n → Traps (.fence k w) k 0x03 w 0 s) ∧
      (sysFnOf w = 4 → rdOf w = 0 → raOf w = 0 → n = 0 → Goes (.ifence k w) k (pc + 4) s) ∧
      (sysFnOf w = 5 → raOf w = 0 → sysExists k n = true → sysDenied k n s = false → n ≠ 0 →
        Gives (.mfsr k w) k w (sysRead k n (fetched k s)) s) ∧
      (sysFnOf w = 5 → raOf w = 0 → sysExists k n = true → sysDenied k n s = true → Traps (.mfsr k w) k 0x04 w 0 s) ∧
      (sysFnOf w = 6 → rdOf w = 0 → sysExists k n = true → sysDenied k n s = false → sysReadOnly n = false → n ≠ 5 → n ≠ 0x4A → n ≠ 0x8A →
        sysWriteBad k n (gr k (raOf w) s) = false →
        Completes (.mtsr k w) s (fun t => SameRegs k s t ∧ (coreAt k t).pc = pc + 4 ∧ (coreAt k t).lvl = (coreAt k s).lvl ∧
          ∀ m, sysAt k m t = if m = 1 then sysAt k 1 s + 1 else if m = n then gr k (raOf w) s &&& BitVec.ofNat 64 (sysMask n) else sysAt k m s)) ∧
      (sysFnOf w = 5 → raOf w = 0 → n = 0 → rdOf w ≠ 31 →
        Completes (.mfsr k w) s (fun t => GetsG k (rdOf w) (sysAt k 0 t) s t ∧ (coreAt k t).pc = pc + 4)) ∧
      (sysFnOf w = 6 → rdOf w = 0 → n = 5 → Completes (.mtsr k w) s (fun t => SameRegs k s t ∧ (coreAt k t).pc = pc + 4 ∧
        sysAt k 5 t = gr k (raOf w) s &&& 31 ∧ sysField k (venReg k s) 5 1 t = 1)) ∧
      (sysFnOf w = 6 → rdOf w = 0 → n = 0x8A → sysDenied k n s = false → Completes (.mtsr k w) s (fun t => SameRegs k s t ∧
        (coreAt k t).pc = pc + 4 ∧ sysAt k 0x8A t = sysAt k 0x8A s &&& ~~~(gr k (raOf w) s &&& 8))) ∧
      (sysFnOf w = 6 → rdOf w = 0 → sysExists k n = true → sysReadOnly n = true → Traps (.mtsr k w) k 0x04 w 0 s) ∧
      (sysFnOf w = 7 → rdOf w = 0 → raOf w = 0 → n = 0 → atUser k s = false →
        Completes (.xret k w) s (fun t => SameRegs k s t ∧ (coreAt k t).pc = sysAt k (trapBase (coreAt k s).lvl + 2) s ∧
          (coreAt k t).lvl = extractField (sysAt k (trapBase (coreAt k s).lvl) s) 2 2 ∧
          lstatReturn (sysAt k (trapBase (coreAt k s).lvl) s) (sysAt k (trapBase (coreAt k s).lvl) t))) ∧
      (sysFnOf w = 8 → rdOf w = 0 → raOf w = 0 → n = 0 → atUser k s = false →
        Completes (.idle k w) s (fun t => SameRegs k s t ∧ (coreAt k t).pc = pc + 4 ∧ (coreAt k t).idle = !wakes k (fetched k s))) ∧
      (sysFnOf w = 9 → rdOf w = 0 → n = 0 → atUser k s = false →
        Completes (.tlbinv k w) s (fun t => SameRegs k s t ∧ (coreAt k t).pc = pc + 4 ∧ (raOf w = 0 → (coreAt k t).tlb = []) ∧
          ∀ e ∈ (coreAt k t).tlb, e.va ≠ (gr k (raOf w) s).toNat / 2 ^ e.bits * 2 ^ e.bits)) ∧
      (sysFnOf w = 7 → rdOf w = 0 → raOf w = 0 → n = 0 → atUser k s = true → Traps (.xret k w) k 0x04 w 0 s)) ∧
    (assigned w = false → Traps (.reservedInstruction k w) k 0x03 w 0 s)) ∧
  (∀ (k : Nat) (s : State) (ext : Bool) (l i : Nat), k < 77 → coreUp k s = true → coreHalted k s = false → (coreAt k s).locked = false →
    (coreAt k s).stepping = false → (coreAt k s).ahead = none →
    let u := if k = 76 then s else { s with cores := SMap.put s.cores k { coreAt k s with ext := ext } }
    pendingInt k u = some (l, i) →
    Completes (.interruptTaken k ext) s (Entered k l (sysAt k (trapBase l + 1) s + BitVec.ofNat 64 (0x100 * (i + 1))) (coreAt k s).pc
      (BitVec.ofNat 64 (i + 2 ^ 63)) 0 0 u)) ∧
  (∀ (k cycles : Nat) (s : State), k < 77 → coreUp k s = true → (coreAt k s).ahead = none →
    (sysAt k 0x8B s).toNat ≤ (sysAt k 0 s + BitVec.ofNat 64 cycles).toNat →
    Completes (.timerCompareMatch k cycles) s (fun t => sysAt k 0 t = sysAt k 0 s + BitVec.ofNat 64 cycles ∧ (ipend k 2 t).getLsbD 0 = true ∧
      SameRegs k s t ∧ (coreAt k t).pc = (coreAt k s).pc))

/-- R342, R343: the integer rows of major 0x30, and the two traps of a vector word. -/
def Obligations.VectorIntegers : Prop :=
  ∀ (k : Nat) (w : Half) (s : State), CoreReady k s → k ≠ 76 → majOf w = 0x30 → wbits w 6 3 = 0 →
    let z := szOf w
    let b := elemBits z
    let n := elemCount z
    let x := vr k (raOf w) s
    let y := vr k (rbOf w) s
    let d := vr k (rdOf w) s
    let shift := (gr k (rbOf w) s).toNat % b
    let row (i : Instr) (fn : Nat) (f : BitVec b → BitVec b → BitVec b) : Prop := fnOf w = fn →
      GivesV i k w 0 (fun v => ∀ j, j < n → lane b v j = f (lane b x j) (lane b y j)) s
    let test (i : Instr) (fn : Nat) (f : BitVec b → BitVec b → Bool) : Prop :=
      row i fn (fun p q => if f p q then BitVec.allOnes b else 0)
    let whole (i : Instr) (fn : Nat) (v : BitVec 256) : Prop := fnOf w = fn → z = 0 → GivesV i k w 0 (fun u => u = v) s
    let sat (i : Instr) (fn : Nat) (signed : Bool) (f : Int → Int → Int) : Prop := fnOf w = fn → z ≤ 2 →
      let val (p : BitVec b) : Int := if signed then p.toInt else p.toNat
      let lo : Int := if signed then -(2 ^ (b - 1)) else 0
      let hi : Int := if signed then 2 ^ (b - 1) - 1 else 2 ^ b - 1
      let e (j : Nat) : Int := f (val (lane b x j)) (val (lane b y j))
      GivesV i k w (if (List.range n).all (fun j => decide (lo ≤ e j) && decide (e j ≤ hi)) then 0 else 1)
        (fun v => ∀ j, j < n → val (lane b v j) = max lo (min hi (e j))) s
    (VecOn k s →
      row (.vadd k w) 0x00 (fun p q => p + q) ∧ row (.vsub k w) 0x01 (fun p q => p - q) ∧ row (.vmul k w) 0x02 (fun p q => p * q) ∧
      row (.vmulhu k w) 0x03 (fun p q => BitVec.ofNat b (p.toNat * q.toNat / 2 ^ b)) ∧
      whole (.vand k w) 0x04 (x &&& y) ∧ whole (.vor k w) 0x05 (x ||| y) ∧ whole (.vxor k w) 0x06 (x ^^^ y) ∧
      whole (.vandn k w) 0x07 (x &&& ~~~y) ∧
      row (.vmin k w) 0x08 (fun p q => if p.toInt ≤ q.toInt then p else q) ∧
      row (.vmax k w) 0x09 (fun p q => if p.toInt ≤ q.toInt then q else p) ∧
      row (.vminu k w) 0x0A (fun p q => if p.toNat ≤ q.toNat then p else q) ∧
      row (.vmaxu k w) 0x0B (fun p q => if p.toNat ≤ q.toNat then q else p) ∧
      sat (.vaddss k w) 0x0C true (fun p q => p + q) ∧ sat (.vaddsu k w) 0x0D false (fun p q => p + q) ∧
      sat (.vsubss k w) 0x0E true (fun p q => p - q) ∧ sat (.vsubsu k w) 0x0F false (fun p q => p - q) ∧
      (1 ≤ z →
        (fnOf w = 0x10 → GivesV (.vsll k w) k w 0 (fun v => ∀ j, j < n → lane b v j = lane b x j <<< shift) s) ∧
        (fnOf w = 0x11 → GivesV (.vsrl k w) k w 0 (fun v => ∀ j, j < n → lane b v j = lane b x j >>> shift) s) ∧
        (fnOf w = 0x12 → GivesV (.vsra k w) k w 0 (fun v => ∀ j, j < n → lane b v j = (lane b x j).sshiftRight shift) s)) ∧
      whole (.vbsl k w) 0x13 ((d &&& x) ||| (~~~d &&& y)) ∧
      test (.vcmpeq k w) 0x14 (fun p q => p == q) ∧ test (.vcmpgt k w) 0x15 (fun p q => decide (q.toInt < p.toInt)) ∧
      test (.vcmpgtu k w) 0x16 (fun p q => decide (q.toNat < p.toNat)) ∧
      (fnOf w = 0x17 → z = 3 → GivesV (.vclmul k w) k w 0 (fun v => ∀ h, h < 2 → ∀ m, m < 128 → (lane 128 v h).getLsbD m =
        (((List.range 64).filter (fun i => decide (i ≤ m) && (lane 64 x (2 * h)).getLsbD i && (lane 64 y (2 * h)).getLsbD (m - i))).length
          % 2 == 1)) s)) ∧
    (fnOf w = 0x00 → sysField k (venReg k s) 4 1 s = 0 → Traps (.vadd k w) k 0x05 w 0 s) ∧
    (fnOf w = 0x04 → z ≠ 0 → Traps (.vand k w) k 0x03 w 0 s) ∧
    (fnOf w = 0x10 → z = 0 → Traps (.vsll k w) k 0x03 w 0 s) ∧
    (fnOf w = 0x0C → z = 3 → Traps (.vaddss k w) k 0x03 w 0 s)

/-- R333, R343: the floating-point rows of major 0x31. The operations on one element are the model's, of IEEE binary32 and binary64. -/
def Obligations.VectorFloats : Prop :=
  ∀ (k : Nat) (w : Half) (s : State), CoreReady k s → VecOn k s → majOf w = 0x31 → wbits w 6 3 = 0 → 2 ≤ szOf w →
    let z := szOf w
    let b := elemBits z
    let f := fpOf z
    let at_ (r j : Nat) : Nat := (lane b (vr k r s) j).toNat
    let nan (p : Nat) : Bool := decide (2 ^ f.mb * (2 ^ f.eb - 1) < p % 2 ^ (b - 1))
    let row (i : Instr) (fn : Nat) (g : Nat → Nat → Nat → Nat × FpFlags) : Prop := fnOf w = fn →
      let r (j : Nat) := g (at_ (rdOf w) j) (at_ (raOf w) j) (at_ (rbOf w) j)
      let any (p : FpFlags → Bool) : Bool := (List.range (elemCount z)).any (fun j => p (r j).2)
      GivesV i k w ((if any (·.nv) then 2 else 0) + (if any (·.ov) then 4 else 0) + (if any (·.un) then 8 else 0) + (if any (·.nx) then 16 else 0))
        (fun v => ∀ j, j < elemCount z → lane b v j = BitVec.ofNat b (r j).1) s
    let each (i : Instr) (p : Nat → Nat → Nat → Prop) : Prop := Completes i s (fun t => ∀ j, j < elemCount z →
      p (at_ (raOf w) j) (at_ (rbOf w) j) (lane b (vr k (rdOf w) t) j).toNat)
    row (.vfadd k w) 0x00 (fun _ p q => fpAdd f p q) ∧ row (.vfsub k w) 0x01 (fun _ p q => fpSub f p q) ∧
    row (.vfmul k w) 0x02 (fun _ p q => fpMul f p q) ∧ row (.vfma k w) 0x03 (fun d p q => fpFma f p q d) ∧
    row (.vfmin k w) 0x04 (fun _ p q => fpMinMax f false p q) ∧ row (.vfmax k w) 0x05 (fun _ p q => fpMinMax f true p q) ∧
    row (.vcvtif k w) 0x09 (fun _ p _ => fpOfInt f (BitVec.ofNat b p).toInt) ∧
    row (.vcvtfi k w) 0x0A (fun _ p _ => ((BitVec.ofInt b (fpToInt f b p).1).toNat, (fpToInt f b p).2)) ∧
    (fnOf w = 0x00 → each (.vfadd k w) (fun p q v => nan p = true ∨ nan q = true → v = fpNaN f)) ∧
    (fnOf w = 0x04 → each (.vfmin k w) (fun p q v => (nan p = true → nan q = false → v = q) ∧ (nan q = true → nan p = false → v = p))) ∧
    (fnOf w = 0x05 → each (.vfmax k w) (fun p q v => (nan p = true → nan q = false → v = q) ∧ (nan q = true → nan p = false → v = p))) ∧
    (fnOf w = 0x06 → each (.vfcmpeq k w) (fun p q v => v = if nan p || nan q then 0 else
      if p = q ∨ (p % 2 ^ (b - 1) = 0 ∧ q % 2 ^ (b - 1) = 0) then 2 ^ b - 1 else 0)) ∧
    (fnOf w = 0x07 → each (.vfcmplt k w) (fun p q v => v = if nan p || nan q then 0 else
      if fpOrder (fpDecode f p) (fpDecode f q) = .lt then 2 ^ b - 1 else 0)) ∧
    (fnOf w = 0x08 → each (.vfcmple k w) (fun p q v => v = if nan p || nan q then 0 else
      if fpOrder (fpDecode f p) (fpDecode f q) = .gt then 0 else 2 ^ b - 1)) ∧
    (fnOf w = 0x0A → each (.vcvtfi k w) (fun p _ v => nan p = true → v = 0))

/-- R318, R319, R342–R344: the transfer and permute rows of major 0x32, and the vector load and store. -/
def Obligations.VectorTransfers : Prop :=
  ∀ (k : Nat) (w : Half) (s : State), CoreReady k s → VecOn k s →
    let z := szOf w
    let b := elemBits z
    let n := elemCount z
    let x := vr k (raOf w) s
    let y := vr k (rbOf w) s
    let g := gr k (raOf w) s
    let ea := eaOf k w s
    (majOf w = 0x32 → wbits w 6 3 = 0 →
      (fnOf w = 0x00 → rbOf w = 0 → GivesV (.vdup k w) k w 0 (fun v => ∀ j, j < n → lane b v j = g.setWidth b) s) ∧
      (fnOf w = 0x01 → rbOf w < n → Gives (.vext k w) k w ((lane b x (rbOf w)).setWidth 64) s) ∧
      (fnOf w = 0x02 → rbOf w < n → GivesV (.vins k w) k w 0 (fun v => ∀ j, j < n →
        lane b v j = if j = rbOf w then g.setWidth b else lane b (vr k (rdOf w) s) j) s) ∧
      (fnOf w = 0x03 → rbOf w = 0 → ∀ v : Word, (∀ i, i < 64 → v.getLsbD i = (decide (i < n) && (lane b x i).msb)) →
        Gives (.vmovmsk k w) k w v s) ∧
      (fnOf w = 0x04 → z = 0 → GivesV (.vshufb k w) k w 0 (fun v => ∀ j, j < 32 →
        lane 8 v j = if (lane 8 y j).getLsbD 7 then 0 else lane 8 x ((lane 8 y j).toNat % 32)) s) ∧
      (fnOf w = 0x05 → rbOf w = 0 → Gives (.vredaddu k w) k w (BitVec.ofNat 64 ((List.range n).map (fun j => (lane b x j).toNat)).sum) s) ∧
      (∀ m, (∀ j, j < n → (lane b x j).toNat ≤ m) → (∃ j, j < n ∧ (lane b x j).toNat = m) → rbOf w = 0 → fnOf w = 0x06 →
        Gives (.vredmaxu k w) k w (BitVec.ofNat 64 m) s) ∧
      (∀ m, (∀ j, j < n → m ≤ (lane b x j).toNat) → (∃ j, j < n ∧ (lane b x j).toNat = m) → rbOf w = 0 → fnOf w = 0x07 →
        Gives (.vredminu k w) k w (BitVec.ofNat 64 m) s) ∧
      (fnOf w = 0x08 → z = 0 → rbOf w = 0 → GivesV (.vmov k w) k w 0 (fun v => v = x) s) ∧
      (fnOf w = 0x01 → n ≤ rbOf w → Traps (.vext k w) k 0x03 w 0 s)) ∧
    (majOf w = 0x34 → ∀ a c u, ReadsMem k ea 32 (fetched k s) a c u →
      Completes (.vld k w) s (fun t => GetsV k (rdOf w) (BitVec.ofNat 256 (memVal ea 32 a c u)) s t ∧ VecRan k 0 s u t)) ∧
    (majOf w = 0x35 → ∀ a c u, WritesMem k ea 32 (fetched k s) a c u →
      Completes (.vst k w) s (fun t => SameRegs k s t ∧ Retired k ((coreAt k s).pc + 4) s t ∧
        Stores k ea 32 a c (vr k (rdOf w) s).toNat u t)) ∧
    (majOf w = 0x34 → wpHit k ea.toNat 32 true false (fetched k s) = none → ∀ c u, translate2 k ea 32 .load (fetched k s) = (.error c, u) →
      Traps (.vld k w) k c w ea s)

/-- The block's rule of one step: with command `c` at the front of the queue, a step is the command's effect on the module with the rest of
the queue. On an empty queue a microsecond passes, in which the scheduler's tick, the clock of idle steps and the times of log page 0xC2 move
(DESIGN CHOICE, log entry 2); a seal and a waiting entry to idle go on then too. -/
def Obligations.StepRunsTheFrontCommand : Prop :=
  ∀ s : State,
    (∀ c rest, s.pending = c :: rest → step s = exec c { s with pending := rest }) ∧
    (s.pending = [] → ∃ t, step s = .next t) ∧
    (s.pending = [] → fget Fl.PWR_COMMIT_STATE_PHASE s ≠ 2 → s.pow.idleWait = none → ∃ t, step s = .next t ∧
      t = { s with regs := t.regs, sch := t.sch, pow := t.pow, tick := s.tick + 1 } ∧
      t.pow = { s.pow with modeSecs := t.pow.modeSecs, testHours := t.pow.testHours } ∧
      (let secs (u : State) : Nat := SMap.getD u.pow.modeSecs (mode s) 0
       secs t = (if (s.tick + 1) % 1000000 = 0 then Nat.min (secs s + 1) 0xFFFFFFFF else secs s)) ∧
      t.pow.testHours = (if (s.tick + 1) % 3600000000 = 0 then Nat.min (s.pow.testHours + 1) 0xFFFFFFFF else s.pow.testHours) ∧
      (schUp s = true → fget Fl.SCH_STATUS_FROZEN s = 0 → mode s ≠ 6 → s.sch.holds = [] → rd Reg.SCH_TICK t = rd Reg.SCH_TICK s + 1 ∧ OnlyRegs [Reg.SCH_TICK] s { s with regs := t.regs }) ∧
      (schUp s = false ∨ fget Fl.SCH_STATUS_FROZEN s ≠ 0 ∨ mode s = 6 → t.regs = s.regs))

/-- The module as it leaves manufacture, not powered: the invariant holds; nothing waits; every register of the maps holds the reset value of
its fields; cores are at Machine level and the boot ROM with interrupts disabled (R331, R333); no namespace, execution, letter or job is
there. That it is in Dark and that general registers are zero is the model's choice (log entries 3 and 4). -/
def Obligations.ResetState : Prop :=
  Machine.Inv State.reset ∧ State.reset.pending = [] ∧ mode State.reset = 0 ∧
    (∀ a blk i r, regInfo a = some (blk, i, r) → ¬ (blk = .dmc ∧ r.off = 0x40) → rd a State.reset = fieldsReset r.fields) ∧
    (∀ k, (coreAt k State.reset).lvl = 2 ∧ (coreAt k State.reset).pc = 0x08000000 ∧ (∀ i, gr k i State.reset = 0 ∧ vr k i State.reset = 0) ∧
      (∀ n, n ≤ 5 ∨ (0x40 ≤ n ∧ n < 0x4B) ∨ (0x80 ≤ n ∧ n < 0x8B) → sysAt k n State.reset = 0) ∧ sysAt k 0x4B State.reset = BitVec.allOnes 64 ∧
      sysAt k 0x8B State.reset = BitVec.allOnes 64) ∧
    State.reset.nv.cmds = [] ∧ State.reset.nv.ns = [] ∧ State.reset.prog.execs = [] ∧ State.reset.sch.letters = [] ∧ State.reset.scan.jobs = [] ∧
    State.reset.pbk.ram = [] ∧ (∀ a, rdByte a State.reset = 0)

/-- The invariant holds after every step from every state of which it holds: memory stays in canonical form, no register is listed twice, and
the event recorder stays within its sizes (R498, R502). -/
def Obligations.StepKeepsTheInvariant : Prop :=
  ∀ s t : State, Machine.Inv s → step s = .next t → Machine.Inv t

/-- The frame of every command: where it answers a next state, it leaves the queue, the variant and every part of the module outside
`mayChange c` as they were; free values are only used up. Memory is such a part: a command of whose row `mayChange` does not name memory
leaves every byte as it was. -/
def Obligations.CommandsLeaveTheRest : Prop :=
  ∀ (c : Instr) (s t : State), exec c s = .next t → t.pending = s.pending ∧ t.variant = s.variant ∧ s.free ≤ t.free ∧
    (∀ p : Part, p ∉ mayChange c → p.same s t) ∧ (Part.mem ∉ mayChange c → ∀ a, rdByte a t = rdByte a s)
end

