-- ==== Sys2Proof/Laws/Parts.lean ====
section
/-! SUPPORT. The parts of the state after each of the setters most used: all but the one it sets stay. -/

set_option Elab.async false

namespace Sys2Proof.Machine

@[simp] theorem wr_mem (a : Nat) (v : Word) (s : State) : (wr a v s).mem = s.mem := rfl
@[simp] theorem wr_free (a : Nat) (v : Word) (s : State) : (wr a v s).free = s.free := rfl
@[simp] theorem wr_tick (a : Nat) (v : Word) (s : State) : (wr a v s).tick = s.tick := rfl
@[simp] theorem wr_feat (a : Nat) (v : Word) (s : State) : (wr a v s).feat = s.feat := rfl
@[simp] theorem wr_pbk (a : Nat) (v : Word) (s : State) : (wr a v s).pbk = s.pbk := rfl
@[simp] theorem wr_pow (a : Nat) (v : Word) (s : State) : (wr a v s).pow = s.pow := rfl
@[simp] theorem wr_nv (a : Nat) (v : Word) (s : State) : (wr a v s).nv = s.nv := rfl
@[simp] theorem wr_ftl (a : Nat) (v : Word) (s : State) : (wr a v s).ftl = s.ftl := rfl
@[simp] theorem wr_media (a : Nat) (v : Word) (s : State) : (wr a v s).media = s.media := rfl
@[simp] theorem wr_ten (a : Nat) (v : Word) (s : State) : (wr a v s).ten = s.ten := rfl
@[simp] theorem wr_prog (a : Nat) (v : Word) (s : State) : (wr a v s).prog = s.prog := rfl
@[simp] theorem wr_dram (a : Nat) (v : Word) (s : State) : (wr a v s).dram = s.dram := rfl
@[simp] theorem wr_mat (a : Nat) (v : Word) (s : State) : (wr a v s).mat = s.mat := rfl
@[simp] theorem wr_comp (a : Nat) (v : Word) (s : State) : (wr a v s).comp = s.comp := rfl
@[simp] theorem wr_scan (a : Nat) (v : Word) (s : State) : (wr a v s).scan = s.scan := rfl
@[simp] theorem wr_dig (a : Nat) (v : Word) (s : State) : (wr a v s).dig = s.dig := rfl
@[simp] theorem wr_keys (a : Nat) (v : Word) (s : State) : (wr a v s).keys = s.keys := rfl
@[simp] theorem wr_sch (a : Nat) (v : Word) (s : State) : (wr a v s).sch = s.sch := rfl
@[simp] theorem wr_cores (a : Nat) (v : Word) (s : State) : (wr a v s).cores = s.cores := rfl
@[simp] theorem wr_clus (a : Nat) (v : Word) (s : State) : (wr a v s).clus = s.clus := rfl
@[simp] theorem wr_net (a : Nat) (v : Word) (s : State) : (wr a v s).net = s.net := rfl
@[simp] theorem wr_mgt (a : Nat) (v : Word) (s : State) : (wr a v s).mgt = s.mgt := rfl
@[simp] theorem wr_bus (a : Nat) (v : Word) (s : State) : (wr a v s).bus = s.bus := rfl
@[simp] theorem wr_acc (a : Nat) (v : Word) (s : State) : (wr a v s).acc = s.acc := rfl
@[simp] theorem wr_dirty (a : Nat) (v : Word) (s : State) : (wr a v s).dirty = s.dirty := rfl
@[simp] theorem wr_pending (a : Nat) (v : Word) (s : State) : (wr a v s).pending = s.pending := rfl
@[simp] theorem wr_variant (a : Nat) (v : Word) (s : State) : (wr a v s).variant = s.variant := rfl

@[simp] theorem fset_mem (f : Fld) (v : Nat) (s : State) : (fset f v s).mem = s.mem := rfl
@[simp] theorem fset_free (f : Fld) (v : Nat) (s : State) : (fset f v s).free = s.free := rfl
@[simp] theorem fset_tick (f : Fld) (v : Nat) (s : State) : (fset f v s).tick = s.tick := rfl
@[simp] theorem fset_feat (f : Fld) (v : Nat) (s : State) : (fset f v s).feat = s.feat := rfl
@[simp] theorem fset_pbk (f : Fld) (v : Nat) (s : State) : (fset f v s).pbk = s.pbk := rfl
@[simp] theorem fset_pow (f : Fld) (v : Nat) (s : State) : (fset f v s).pow = s.pow := rfl
@[simp] theorem fset_nv (f : Fld) (v : Nat) (s : State) : (fset f v s).nv = s.nv := rfl
@[simp] theorem fset_ftl (f : Fld) (v : Nat) (s : State) : (fset f v s).ftl = s.ftl := rfl
@[simp] theorem fset_media (f : Fld) (v : Nat) (s : State) : (fset f v s).media = s.media := rfl
@[simp] theorem fset_ten (f : Fld) (v : Nat) (s : State) : (fset f v s).ten = s.ten := rfl
@[simp] theorem fset_prog (f : Fld) (v : Nat) (s : State) : (fset f v s).prog = s.prog := rfl
@[simp] theorem fset_dram (f : Fld) (v : Nat) (s : State) : (fset f v s).dram = s.dram := rfl
@[simp] theorem fset_mat (f : Fld) (v : Nat) (s : State) : (fset f v s).mat = s.mat := rfl
@[simp] theorem fset_comp (f : Fld) (v : Nat) (s : State) : (fset f v s).comp = s.comp := rfl
@[simp] theorem fset_scan (f : Fld) (v : Nat) (s : State) : (fset f v s).scan = s.scan := rfl
@[simp] theorem fset_dig (f : Fld) (v : Nat) (s : State) : (fset f v s).dig = s.dig := rfl
@[simp] theorem fset_keys (f : Fld) (v : Nat) (s : State) : (fset f v s).keys = s.keys := rfl
@[simp] theorem fset_sch (f : Fld) (v : Nat) (s : State) : (fset f v s).sch = s.sch := rfl
@[simp] theorem fset_cores (f : Fld) (v : Nat) (s : State) : (fset f v s).cores = s.cores := rfl
@[simp] theorem fset_clus (f : Fld) (v : Nat) (s : State) : (fset f v s).clus = s.clus := rfl
@[simp] theorem fset_net (f : Fld) (v : Nat) (s : State) : (fset f v s).net = s.net := rfl
@[simp] theorem fset_mgt (f : Fld) (v : Nat) (s : State) : (fset f v s).mgt = s.mgt := rfl
@[simp] theorem fset_bus (f : Fld) (v : Nat) (s : State) : (fset f v s).bus = s.bus := rfl
@[simp] theorem fset_acc (f : Fld) (v : Nat) (s : State) : (fset f v s).acc = s.acc := rfl
@[simp] theorem fset_dirty (f : Fld) (v : Nat) (s : State) : (fset f v s).dirty = s.dirty := rfl
@[simp] theorem fset_pending (f : Fld) (v : Nat) (s : State) : (fset f v s).pending = s.pending := rfl
@[simp] theorem fset_variant (f : Fld) (v : Nat) (s : State) : (fset f v s).variant = s.variant := rfl

@[simp] theorem useFree_regs (s : State) : (useFree s).regs = s.regs := rfl
@[simp] theorem useFree_mem (s : State) : (useFree s).mem = s.mem := rfl
@[simp] theorem useFree_tick (s : State) : (useFree s).tick = s.tick := rfl
@[simp] theorem useFree_feat (s : State) : (useFree s).feat = s.feat := rfl
@[simp] theorem useFree_pbk (s : State) : (useFree s).pbk = s.pbk := rfl
@[simp] theorem useFree_pow (s : State) : (useFree s).pow = s.pow := rfl
@[simp] theorem useFree_nv (s : State) : (useFree s).nv = s.nv := rfl
@[simp] theorem useFree_ftl (s : State) : (useFree s).ftl = s.ftl := rfl
@[simp] theorem useFree_media (s : State) : (useFree s).media = s.media := rfl
@[simp] theorem useFree_ten (s : State) : (useFree s).ten = s.ten := rfl
@[simp] theorem useFree_prog (s : State) : (useFree s).prog = s.prog := rfl
@[simp] theorem useFree_dram (s : State) : (useFree s).dram = s.dram := rfl
@[simp] theorem useFree_mat (s : State) : (useFree s).mat = s.mat := rfl
@[simp] theorem useFree_comp (s : State) : (useFree s).comp = s.comp := rfl
@[simp] theorem useFree_scan (s : State) : (useFree s).scan = s.scan := rfl
@[simp] theorem useFree_dig (s : State) : (useFree s).dig = s.dig := rfl
@[simp] theorem useFree_keys (s : State) : (useFree s).keys = s.keys := rfl
@[simp] theorem useFree_sch (s : State) : (useFree s).sch = s.sch := rfl
@[simp] theorem useFree_cores (s : State) : (useFree s).cores = s.cores := rfl
@[simp] theorem useFree_clus (s : State) : (useFree s).clus = s.clus := rfl
@[simp] theorem useFree_net (s : State) : (useFree s).net = s.net := rfl
@[simp] theorem useFree_mgt (s : State) : (useFree s).mgt = s.mgt := rfl
@[simp] theorem useFree_bus (s : State) : (useFree s).bus = s.bus := rfl
@[simp] theorem useFree_acc (s : State) : (useFree s).acc = s.acc := rfl
@[simp] theorem useFree_dirty (s : State) : (useFree s).dirty = s.dirty := rfl
@[simp] theorem useFree_pending (s : State) : (useFree s).pending = s.pending := rfl
@[simp] theorem useFree_variant (s : State) : (useFree s).variant = s.variant := rfl

@[simp] theorem wrByte_regs (a : Nat) (b : Byte) (s : State) : (wrByte a b s).regs = s.regs := rfl
@[simp] theorem wrByte_free (a : Nat) (b : Byte) (s : State) : (wrByte a b s).free = s.free := rfl
@[simp] theorem wrByte_tick (a : Nat) (b : Byte) (s : State) : (wrByte a b s).tick = s.tick := rfl
@[simp] theorem wrByte_feat (a : Nat) (b : Byte) (s : State) : (wrByte a b s).feat = s.feat := rfl
@[simp] theorem wrByte_pbk (a : Nat) (b : Byte) (s : State) : (wrByte a b s).pbk = s.pbk := rfl
@[simp] theorem wrByte_pow (a : Nat) (b : Byte) (s : State) : (wrByte a b s).pow = s.pow := rfl
@[simp] theorem wrByte_nv (a : Nat) (b : Byte) (s : State) : (wrByte a b s).nv = s.nv := rfl
@[simp] theorem wrByte_ftl (a : Nat) (b : Byte) (s : State) : (wrByte a b s).ftl = s.ftl := rfl
@[simp] theorem wrByte_media (a : Nat) (b : Byte) (s : State) : (wrByte a b s).media = s.media := rfl
@[simp] theorem wrByte_ten (a : Nat) (b : Byte) (s : State) : (wrByte a b s).ten = s.ten := rfl
@[simp] theorem wrByte_prog (a : Nat) (b : Byte) (s : State) : (wrByte a b s).prog = s.prog := rfl
@[simp] theorem wrByte_dram (a : Nat) (b : Byte) (s : State) : (wrByte a b s).dram = s.dram := rfl
@[simp] theorem wrByte_mat (a : Nat) (b : Byte) (s : State) : (wrByte a b s).mat = s.mat := rfl
@[simp] theorem wrByte_comp (a : Nat) (b : Byte) (s : State) : (wrByte a b s).comp = s.comp := rfl
@[simp] theorem wrByte_scan (a : Nat) (b : Byte) (s : State) : (wrByte a b s).scan = s.scan := rfl
@[simp] theorem wrByte_dig (a : Nat) (b : Byte) (s : State) : (wrByte a b s).dig = s.dig := rfl
@[simp] theorem wrByte_keys (a : Nat) (b : Byte) (s : State) : (wrByte a b s).keys = s.keys := rfl
@[simp] theorem wrByte_sch (a : Nat) (b : Byte) (s : State) : (wrByte a b s).sch = s.sch := rfl
@[simp] theorem wrByte_cores (a : Nat) (b : Byte) (s : State) : (wrByte a b s).cores = s.cores := rfl
@[simp] theorem wrByte_clus (a : Nat) (b : Byte) (s : State) : (wrByte a b s).clus = s.clus := rfl
@[simp] theorem wrByte_net (a : Nat) (b : Byte) (s : State) : (wrByte a b s).net = s.net := rfl
@[simp] theorem wrByte_mgt (a : Nat) (b : Byte) (s : State) : (wrByte a b s).mgt = s.mgt := rfl
@[simp] theorem wrByte_bus (a : Nat) (b : Byte) (s : State) : (wrByte a b s).bus = s.bus := rfl
@[simp] theorem wrByte_acc (a : Nat) (b : Byte) (s : State) : (wrByte a b s).acc = s.acc := rfl
@[simp] theorem wrByte_pending (a : Nat) (b : Byte) (s : State) : (wrByte a b s).pending = s.pending := rfl
@[simp] theorem wrByte_variant (a : Nat) (b : Byte) (s : State) : (wrByte a b s).variant = s.variant := rfl

@[simp] theorem updCtrl_regs (c : Nat) (f : Ctrl → Ctrl) (s : State) : (updCtrl c f s).regs = s.regs := rfl
@[simp] theorem updCtrl_mem (c : Nat) (f : Ctrl → Ctrl) (s : State) : (updCtrl c f s).mem = s.mem := rfl
@[simp] theorem updCtrl_free (c : Nat) (f : Ctrl → Ctrl) (s : State) : (updCtrl c f s).free = s.free := rfl
@[simp] theorem updCtrl_tick (c : Nat) (f : Ctrl → Ctrl) (s : State) : (updCtrl c f s).tick = s.tick := rfl
@[simp] theorem updCtrl_feat (c : Nat) (f : Ctrl → Ctrl) (s : State) : (updCtrl c f s).feat = s.feat := rfl
@[simp] theorem updCtrl_pbk (c : Nat) (f : Ctrl → Ctrl) (s : State) : (updCtrl c f s).pbk = s.pbk := rfl
@[simp] theorem updCtrl_pow (c : Nat) (f : Ctrl → Ctrl) (s : State) : (updCtrl c f s).pow = s.pow := rfl
@[simp] theorem updCtrl_ftl (c : Nat) (f : Ctrl → Ctrl) (s : State) : (updCtrl c f s).ftl = s.ftl := rfl
@[simp] theorem updCtrl_media (c : Nat) (f : Ctrl → Ctrl) (s : State) : (updCtrl c f s).media = s.media := rfl
@[simp] theorem updCtrl_ten (c : Nat) (f : Ctrl → Ctrl) (s : State) : (updCtrl c f s).ten = s.ten := rfl
@[simp] theorem updCtrl_prog (c : Nat) (f : Ctrl → Ctrl) (s : State) : (updCtrl c f s).prog = s.prog := rfl
@[simp] theorem updCtrl_dram (c : Nat) (f : Ctrl → Ctrl) (s : State) : (updCtrl c f s).dram = s.dram := rfl
@[simp] theorem updCtrl_mat (c : Nat) (f : Ctrl → Ctrl) (s : State) : (updCtrl c f s).mat = s.mat := rfl
@[simp] theorem updCtrl_comp (c : Nat) (f : Ctrl → Ctrl) (s : State) : (updCtrl c f s).comp = s.comp := rfl
@[simp] theorem updCtrl_scan (c : Nat) (f : Ctrl → Ctrl) (s : State) : (updCtrl c f s).scan = s.scan := rfl
@[simp] theorem updCtrl_dig (c : Nat) (f : Ctrl → Ctrl) (s : State) : (updCtrl c f s).dig = s.dig := rfl
@[simp] theorem updCtrl_keys (c : Nat) (f : Ctrl → Ctrl) (s : State) : (updCtrl c f s).keys = s.keys := rfl
@[simp] theorem updCtrl_sch (c : Nat) (f : Ctrl → Ctrl) (s : State) : (updCtrl c f s).sch = s.sch := rfl
@[simp] theorem updCtrl_cores (c : Nat) (f : Ctrl → Ctrl) (s : State) : (updCtrl c f s).cores = s.cores := rfl
@[simp] theorem updCtrl_clus (c : Nat) (f : Ctrl → Ctrl) (s : State) : (updCtrl c f s).clus = s.clus := rfl
@[simp] theorem updCtrl_net (c : Nat) (f : Ctrl → Ctrl) (s : State) : (updCtrl c f s).net = s.net := rfl
@[simp] theorem updCtrl_mgt (c : Nat) (f : Ctrl → Ctrl) (s : State) : (updCtrl c f s).mgt = s.mgt := rfl
@[simp] theorem updCtrl_bus (c : Nat) (f : Ctrl → Ctrl) (s : State) : (updCtrl c f s).bus = s.bus := rfl
@[simp] theorem updCtrl_acc (c : Nat) (f : Ctrl → Ctrl) (s : State) : (updCtrl c f s).acc = s.acc := rfl
@[simp] theorem updCtrl_dirty (c : Nat) (f : Ctrl → Ctrl) (s : State) : (updCtrl c f s).dirty = s.dirty := rfl
@[simp] theorem updCtrl_pending (c : Nat) (f : Ctrl → Ctrl) (s : State) : (updCtrl c f s).pending = s.pending := rfl
@[simp] theorem updCtrl_variant (c : Nat) (f : Ctrl → Ctrl) (s : State) : (updCtrl c f s).variant = s.variant := rfl

@[simp] theorem setCmd_regs (c : Cmd) (s : State) : (setCmd c s).regs = s.regs := rfl
@[simp] theorem setCmd_mem (c : Cmd) (s : State) : (setCmd c s).mem = s.mem := rfl
@[simp] theorem setCmd_free (c : Cmd) (s : State) : (setCmd c s).free = s.free := rfl
@[simp] theorem setCmd_tick (c : Cmd) (s : State) : (setCmd c s).tick = s.tick := rfl
@[simp] theorem setCmd_feat (c : Cmd) (s : State) : (setCmd c s).feat = s.feat := rfl
@[simp] theorem setCmd_pbk (c : Cmd) (s : State) : (setCmd c s).pbk = s.pbk := rfl
@[simp] theorem setCmd_pow (c : Cmd) (s : State) : (setCmd c s).pow = s.pow := rfl
@[simp] theorem setCmd_ftl (c : Cmd) (s : State) : (setCmd c s).ftl = s.ftl := rfl
@[simp] theorem setCmd_media (c : Cmd) (s : State) : (setCmd c s).media = s.media := rfl
@[simp] theorem setCmd_ten (c : Cmd) (s : State) : (setCmd c s).ten = s.ten := rfl
@[simp] theorem setCmd_prog (c : Cmd) (s : State) : (setCmd c s).prog = s.prog := rfl
@[simp] theorem setCmd_dram (c : Cmd) (s : State) : (setCmd c s).dram = s.dram := rfl
@[simp] theorem setCmd_mat (c : Cmd) (s : State) : (setCmd c s).mat = s.mat := rfl
@[simp] theorem setCmd_comp (c : Cmd) (s : State) : (setCmd c s).comp = s.comp := rfl
@[simp] theorem setCmd_scan (c : Cmd) (s : State) : (setCmd c s).scan = s.scan := rfl
@[simp] theorem setCmd_dig (c : Cmd) (s : State) : (setCmd c s).dig = s.dig := rfl
@[simp] theorem setCmd_keys (c : Cmd) (s : State) : (setCmd c s).keys = s.keys := rfl
@[simp] theorem setCmd_sch (c : Cmd) (s : State) : (setCmd c s).sch = s.sch := rfl
@[simp] theorem setCmd_cores (c : Cmd) (s : State) : (setCmd c s).cores = s.cores := rfl
@[simp] theorem setCmd_clus (c : Cmd) (s : State) : (setCmd c s).clus = s.clus := rfl
@[simp] theorem setCmd_net (c : Cmd) (s : State) : (setCmd c s).net = s.net := rfl
@[simp] theorem setCmd_mgt (c : Cmd) (s : State) : (setCmd c s).mgt = s.mgt := rfl
@[simp] theorem setCmd_bus (c : Cmd) (s : State) : (setCmd c s).bus = s.bus := rfl
@[simp] theorem setCmd_acc (c : Cmd) (s : State) : (setCmd c s).acc = s.acc := rfl
@[simp] theorem setCmd_dirty (c : Cmd) (s : State) : (setCmd c s).dirty = s.dirty := rfl
@[simp] theorem setCmd_pending (c : Cmd) (s : State) : (setCmd c s).pending = s.pending := rfl
@[simp] theorem setCmd_variant (c : Cmd) (s : State) : (setCmd c s).variant = s.variant := rfl

@[simp] theorem updSch_regs (f : Sch → Sch) (s : State) : (updSch f s).regs = s.regs := rfl
@[simp] theorem updSch_mem (f : Sch → Sch) (s : State) : (updSch f s).mem = s.mem := rfl
@[simp] theorem updSch_free (f : Sch → Sch) (s : State) : (updSch f s).free = s.free := rfl
@[simp] theorem updSch_tick (f : Sch → Sch) (s : State) : (updSch f s).tick = s.tick := rfl
@[simp] theorem updSch_feat (f : Sch → Sch) (s : State) : (updSch f s).feat = s.feat := rfl
@[simp] theorem updSch_pbk (f : Sch → Sch) (s : State) : (updSch f s).pbk = s.pbk := rfl
@[simp] theorem updSch_pow (f : Sch → Sch) (s : State) : (updSch f s).pow = s.pow := rfl
@[simp] theorem updSch_nv (f : Sch → Sch) (s : State) : (updSch f s).nv = s.nv := rfl
@[simp] theorem updSch_ftl (f : Sch → Sch) (s : State) : (updSch f s).ftl = s.ftl := rfl
@[simp] theorem updSch_media (f : Sch → Sch) (s : State) : (updSch f s).media = s.media := rfl
@[simp] theorem updSch_ten (f : Sch → Sch) (s : State) : (updSch f s).ten = s.ten := rfl
@[simp] theorem updSch_prog (f : Sch → Sch) (s : State) : (updSch f s).prog = s.prog := rfl
@[simp] theorem updSch_dram (f : Sch → Sch) (s : State) : (updSch f s).dram = s.dram := rfl
@[simp] theorem updSch_mat (f : Sch → Sch) (s : State) : (updSch f s).mat = s.mat := rfl
@[simp] theorem updSch_comp (f : Sch → Sch) (s : State) : (updSch f s).comp = s.comp := rfl
@[simp] theorem updSch_scan (f : Sch → Sch) (s : State) : (updSch f s).scan = s.scan := rfl
@[simp] theorem updSch_dig (f : Sch → Sch) (s : State) : (updSch f s).dig = s.dig := rfl
@[simp] theorem updSch_keys (f : Sch → Sch) (s : State) : (updSch f s).keys = s.keys := rfl
@[simp] theorem updSch_cores (f : Sch → Sch) (s : State) : (updSch f s).cores = s.cores := rfl
@[simp] theorem updSch_clus (f : Sch → Sch) (s : State) : (updSch f s).clus = s.clus := rfl
@[simp] theorem updSch_net (f : Sch → Sch) (s : State) : (updSch f s).net = s.net := rfl
@[simp] theorem updSch_mgt (f : Sch → Sch) (s : State) : (updSch f s).mgt = s.mgt := rfl
@[simp] theorem updSch_bus (f : Sch → Sch) (s : State) : (updSch f s).bus = s.bus := rfl
@[simp] theorem updSch_acc (f : Sch → Sch) (s : State) : (updSch f s).acc = s.acc := rfl
@[simp] theorem updSch_dirty (f : Sch → Sch) (s : State) : (updSch f s).dirty = s.dirty := rfl
@[simp] theorem updSch_pending (f : Sch → Sch) (s : State) : (updSch f s).pending = s.pending := rfl
@[simp] theorem updSch_variant (f : Sch → Sch) (s : State) : (updSch f s).variant = s.variant := rfl

@[simp] theorem setMgt_regs (f : Mgt → Mgt) (s : State) : (setMgt f s).regs = s.regs := rfl
@[simp] theorem setMgt_mem (f : Mgt → Mgt) (s : State) : (setMgt f s).mem = s.mem := rfl
@[simp] theorem setMgt_free (f : Mgt → Mgt) (s : State) : (setMgt f s).free = s.free := rfl
@[simp] theorem setMgt_tick (f : Mgt → Mgt) (s : State) : (setMgt f s).tick = s.tick := rfl
@[simp] theorem setMgt_feat (f : Mgt → Mgt) (s : State) : (setMgt f s).feat = s.feat := rfl
@[simp] theorem setMgt_pbk (f : Mgt → Mgt) (s : State) : (setMgt f s).pbk = s.pbk := rfl
@[simp] theorem setMgt_pow (f : Mgt → Mgt) (s : State) : (setMgt f s).pow = s.pow := rfl
@[simp] theorem setMgt_nv (f : Mgt → Mgt) (s : State) : (setMgt f s).nv = s.nv := rfl
@[simp] theorem setMgt_ftl (f : Mgt → Mgt) (s : State) : (setMgt f s).ftl = s.ftl := rfl
@[simp] theorem setMgt_media (f : Mgt → Mgt) (s : State) : (setMgt f s).media = s.media := rfl
@[simp] theorem setMgt_ten (f : Mgt → Mgt) (s : State) : (setMgt f s).ten = s.ten := rfl
@[simp] theorem setMgt_prog (f : Mgt → Mgt) (s : State) : (setMgt f s).prog = s.prog := rfl
@[simp] theorem setMgt_dram (f : Mgt → Mgt) (s : State) : (setMgt f s).dram = s.dram := rfl
@[simp] theorem setMgt_mat (f : Mgt → Mgt) (s : State) : (setMgt f s).mat = s.mat := rfl
@[simp] theorem setMgt_comp (f : Mgt → Mgt) (s : State) : (setMgt f s).comp = s.comp := rfl
@[simp] theorem setMgt_scan (f : Mgt → Mgt) (s : State) : (setMgt f s).scan = s.scan := rfl
@[simp] theorem setMgt_dig (f : Mgt → Mgt) (s : State) : (setMgt f s).dig = s.dig := rfl
@[simp] theorem setMgt_keys (f : Mgt → Mgt) (s : State) : (setMgt f s).keys = s.keys := rfl
@[simp] theorem setMgt_sch (f : Mgt → Mgt) (s : State) : (setMgt f s).sch = s.sch := rfl
@[simp] theorem setMgt_cores (f : Mgt → Mgt) (s : State) : (setMgt f s).cores = s.cores := rfl
@[simp] theorem setMgt_clus (f : Mgt → Mgt) (s : State) : (setMgt f s).clus = s.clus := rfl
@[simp] theorem setMgt_net (f : Mgt → Mgt) (s : State) : (setMgt f s).net = s.net := rfl
@[simp] theorem setMgt_bus (f : Mgt → Mgt) (s : State) : (setMgt f s).bus = s.bus := rfl
@[simp] theorem setMgt_acc (f : Mgt → Mgt) (s : State) : (setMgt f s).acc = s.acc := rfl
@[simp] theorem setMgt_dirty (f : Mgt → Mgt) (s : State) : (setMgt f s).dirty = s.dirty := rfl
@[simp] theorem setMgt_pending (f : Mgt → Mgt) (s : State) : (setMgt f s).pending = s.pending := rfl
@[simp] theorem setMgt_variant (f : Mgt → Mgt) (s : State) : (setMgt f s).variant = s.variant := rfl

@[simp] theorem setPc_regs (k : Nat) (v : Word) (s : State) : (setPc k v s).regs = s.regs := rfl
@[simp] theorem setPc_mem (k : Nat) (v : Word) (s : State) : (setPc k v s).mem = s.mem := rfl
@[simp] theorem setPc_free (k : Nat) (v : Word) (s : State) : (setPc k v s).free = s.free := rfl
@[simp] theorem setPc_tick (k : Nat) (v : Word) (s : State) : (setPc k v s).tick = s.tick := rfl
@[simp] theorem setPc_feat (k : Nat) (v : Word) (s : State) : (setPc k v s).feat = s.feat := rfl
@[simp] theorem setPc_pbk (k : Nat) (v : Word) (s : State) : (setPc k v s).pbk = s.pbk := rfl
@[simp] theorem setPc_pow (k : Nat) (v : Word) (s : State) : (setPc k v s).pow = s.pow := rfl
@[simp] theorem setPc_nv (k : Nat) (v : Word) (s : State) : (setPc k v s).nv = s.nv := rfl
@[simp] theorem setPc_ftl (k : Nat) (v : Word) (s : State) : (setPc k v s).ftl = s.ftl := rfl
@[simp] theorem setPc_media (k : Nat) (v : Word) (s : State) : (setPc k v s).media = s.media := rfl
@[simp] theorem setPc_ten (k : Nat) (v : Word) (s : State) : (setPc k v s).ten = s.ten := rfl
@[simp] theorem setPc_prog (k : Nat) (v : Word) (s : State) : (setPc k v s).prog = s.prog := rfl
@[simp] theorem setPc_dram (k : Nat) (v : Word) (s : State) : (setPc k v s).dram = s.dram := rfl
@[simp] theorem setPc_mat (k : Nat) (v : Word) (s : State) : (setPc k v s).mat = s.mat := rfl
@[simp] theorem setPc_comp (k : Nat) (v : Word) (s : State) : (setPc k v s).comp = s.comp := rfl
@[simp] theorem setPc_scan (k : Nat) (v : Word) (s : State) : (setPc k v s).scan = s.scan := rfl
@[simp] theorem setPc_dig (k : Nat) (v : Word) (s : State) : (setPc k v s).dig = s.dig := rfl
@[simp] theorem setPc_keys (k : Nat) (v : Word) (s : State) : (setPc k v s).keys = s.keys := rfl
@[simp] theorem setPc_sch (k : Nat) (v : Word) (s : State) : (setPc k v s).sch = s.sch := rfl
@[simp] theorem setPc_clus (k : Nat) (v : Word) (s : State) : (setPc k v s).clus = s.clus := rfl
@[simp] theorem setPc_net (k : Nat) (v : Word) (s : State) : (setPc k v s).net = s.net := rfl
@[simp] theorem setPc_mgt (k : Nat) (v : Word) (s : State) : (setPc k v s).mgt = s.mgt := rfl
@[simp] theorem setPc_bus (k : Nat) (v : Word) (s : State) : (setPc k v s).bus = s.bus := rfl
@[simp] theorem setPc_acc (k : Nat) (v : Word) (s : State) : (setPc k v s).acc = s.acc := rfl
@[simp] theorem setPc_dirty (k : Nat) (v : Word) (s : State) : (setPc k v s).dirty = s.dirty := rfl
@[simp] theorem setPc_pending (k : Nat) (v : Word) (s : State) : (setPc k v s).pending = s.pending := rfl
@[simp] theorem setPc_variant (k : Nat) (v : Word) (s : State) : (setPc k v s).variant = s.variant := rfl

@[simp] theorem putSys_regs (k n : Nat) (v : Word) (s : State) : (putSys k n v s).regs = s.regs := rfl
@[simp] theorem putSys_mem (k n : Nat) (v : Word) (s : State) : (putSys k n v s).mem = s.mem := rfl
@[simp] theorem putSys_free (k n : Nat) (v : Word) (s : State) : (putSys k n v s).free = s.free := rfl
@[simp] theorem putSys_tick (k n : Nat) (v : Word) (s : State) : (putSys k n v s).tick = s.tick := rfl
@[simp] theorem putSys_feat (k n : Nat) (v : Word) (s : State) : (putSys k n v s).feat = s.feat := rfl
@[simp] theorem putSys_pbk (k n : Nat) (v : Word) (s : State) : (putSys k n v s).pbk = s.pbk := rfl
@[simp] theorem putSys_pow (k n : Nat) (v : Word) (s : State) : (putSys k n v s).pow = s.pow := rfl
@[simp] theorem putSys_nv (k n : Nat) (v : Word) (s : State) : (putSys k n v s).nv = s.nv := rfl
@[simp] theorem putSys_ftl (k n : Nat) (v : Word) (s : State) : (putSys k n v s).ftl = s.ftl := rfl
@[simp] theorem putSys_media (k n : Nat) (v : Word) (s : State) : (putSys k n v s).media = s.media := rfl
@[simp] theorem putSys_ten (k n : Nat) (v : Word) (s : State) : (putSys k n v s).ten = s.ten := rfl
@[simp] theorem putSys_prog (k n : Nat) (v : Word) (s : State) : (putSys k n v s).prog = s.prog := rfl
@[simp] theorem putSys_dram (k n : Nat) (v : Word) (s : State) : (putSys k n v s).dram = s.dram := rfl
@[simp] theorem putSys_mat (k n : Nat) (v : Word) (s : State) : (putSys k n v s).mat = s.mat := rfl
@[simp] theorem putSys_comp (k n : Nat) (v : Word) (s : State) : (putSys k n v s).comp = s.comp := rfl
@[simp] theorem putSys_scan (k n : Nat) (v : Word) (s : State) : (putSys k n v s).scan = s.scan := rfl
@[simp] theorem putSys_dig (k n : Nat) (v : Word) (s : State) : (putSys k n v s).dig = s.dig := rfl
@[simp] theorem putSys_keys (k n : Nat) (v : Word) (s : State) : (putSys k n v s).keys = s.keys := rfl
@[simp] theorem putSys_sch (k n : Nat) (v : Word) (s : State) : (putSys k n v s).sch = s.sch := rfl
@[simp] theorem putSys_clus (k n : Nat) (v : Word) (s : State) : (putSys k n v s).clus = s.clus := rfl
@[simp] theorem putSys_net (k n : Nat) (v : Word) (s : State) : (putSys k n v s).net = s.net := rfl
@[simp] theorem putSys_mgt (k n : Nat) (v : Word) (s : State) : (putSys k n v s).mgt = s.mgt := rfl
@[simp] theorem putSys_bus (k n : Nat) (v : Word) (s : State) : (putSys k n v s).bus = s.bus := rfl
@[simp] theorem putSys_acc (k n : Nat) (v : Word) (s : State) : (putSys k n v s).acc = s.acc := rfl
@[simp] theorem putSys_dirty (k n : Nat) (v : Word) (s : State) : (putSys k n v s).dirty = s.dirty := rfl
@[simp] theorem putSys_pending (k n : Nat) (v : Word) (s : State) : (putSys k n v s).pending = s.pending := rfl
@[simp] theorem putSys_variant (k n : Nat) (v : Word) (s : State) : (putSys k n v s).variant = s.variant := rfl

end Sys2Proof.Machine
end

