-- ==== Sys2Proof/Laws/Maps.lean ====
section
/-! SUPPORT. Laws of the sorted maps: what is found after a put or a removal, and that the keys stay in rising order. -/

set_option Elab.async false

namespace Sys2Proof

variable {α : Type}

/-- Every key of the map is above `a`. -/
def SMap.above (a : Nat) (m : SMap α) : Prop := ∀ e ∈ m, a < e.1

theorem SMap.sorted_cons (k : Nat) (v : α) (m : SMap α) :
    SMap.sorted ((k, v) :: m) = true ↔ SMap.above k m ∧ SMap.sorted m = true := by
  induction m generalizing k v with
  | nil => simp [SMap.sorted, SMap.above]
  | cons e t ih =>
    obtain ⟨k', v'⟩ := e
    have ih' := ih k' v'
    constructor
    · intro h
      simp only [SMap.sorted, Bool.and_eq_true, decide_eq_true_eq] at h
      refine ⟨?_, h.2⟩
      intro e he
      rcases List.mem_cons.mp he with rfl | he
      · exact h.1
      · exact lt_trans h.1 ((ih'.mp h.2).1 e he)
    · rintro ⟨h1, h2⟩
      simp only [SMap.sorted, Bool.and_eq_true, decide_eq_true_eq]
      exact ⟨h1 (k', v') (List.mem_cons_self ..), h2⟩

theorem SMap.mem_put {m : SMap α} {a : Nat} {v : α} {e : Nat × α} (h : e ∈ SMap.put m a v) : e = (a, v) ∨ e ∈ m := by
  induction m with
  | nil => simpa [SMap.put] using h
  | cons x t ih =>
    obtain ⟨k, w⟩ := x
    simp only [SMap.put] at h
    split at h
    · rcases List.mem_cons.mp h with h | h
      · exact .inl h
      · exact .inr (List.mem_cons_of_mem _ h)
    · split at h
      · rcases List.mem_cons.mp h with h | h
        · exact .inl h
        · exact .inr h
      · rcases List.mem_cons.mp h with h | h
        · exact .inr (h ▸ List.mem_cons_self ..)
        · rcases ih h with h | h
          · exact .inl h
          · exact .inr (List.mem_cons_of_mem _ h)

/-- A put keeps the keys in rising order. -/
theorem SMap.sorted_put {m : SMap α} (a : Nat) (v : α) (h : SMap.sorted m = true) : SMap.sorted (SMap.put m a v) = true := by
  induction m with
  | nil => simp [SMap.put, SMap.sorted]
  | cons x t ih =>
    obtain ⟨k, w⟩ := x
    have hk := (SMap.sorted_cons k w t).mp h
    simp only [SMap.put]
    split
    · rename_i hak
      exact (SMap.sorted_cons a v t).mpr (hak ▸ hk)
    · split
      · rename_i hlt
        refine (SMap.sorted_cons a v _).mpr ⟨?_, h⟩
        intro e he
        rcases List.mem_cons.mp he with rfl | he
        · exact hlt
        · exact lt_trans hlt (hk.1 e he)
      · rename_i hne hlt
        refine (SMap.sorted_cons k w _).mpr ⟨?_, ih hk.2⟩
        intro e he
        rcases SMap.mem_put he with rfl | he
        · exact lt_of_le_of_ne (Nat.le_of_not_lt hlt) (fun h => hne h.symm)
        · exact hk.1 e he

/-- Leaving entries out keeps the keys in rising order. -/
theorem SMap.sorted_filter {m : SMap α} (p : Nat × α → Bool) (h : SMap.sorted m = true) : SMap.sorted (m.filter p) = true := by
  induction m with
  | nil => simpa using h
  | cons x t ih =>
    obtain ⟨k, w⟩ := x
    have hk := (SMap.sorted_cons k w t).mp h
    rw [List.filter_cons]
    split
    · exact (SMap.sorted_cons k w _).mpr ⟨fun e he => hk.1 e (List.mem_filter.mp he).1, ih hk.2⟩
    · exact ih hk.2

/-- A put where absent keys read as a default keeps the keys in rising order. -/
theorem SMap.sorted_putD [DecidableEq α] {m : SMap α} (d : α) (a : Nat) (v : α) (h : SMap.sorted m = true) :
    SMap.sorted (SMap.putD d m a v) = true := by
  unfold SMap.putD
  split
  · exact SMap.sorted_filter _ h
  · exact SMap.sorted_put a v h

/-- The entry that was put is found, and every other entry is as before. -/
theorem SMap.find_put (m : SMap α) (a b : Nat) (v : α) (h : SMap.sorted m = true) :
    SMap.find (SMap.put m a v) b = if b = a then some v else SMap.find m b := by
  induction m with
  | nil => simp [SMap.put, SMap.find]
  | cons x t ih =>
    obtain ⟨k, w⟩ := x
    have hk := (SMap.sorted_cons k w t).mp h
    simp only [SMap.put]
    split
    · rename_i hak
      subst hak
      simp only [SMap.find]
      split <;> simp_all
    · split
      · simp only [SMap.find]
      · simp only [SMap.find]
        by_cases hb : b = k
        · subst hb
          rename_i hne hlt
          have : ¬ b = a := fun h => hne h.symm
          simp [this]
        · simp [hb, ih hk.2]

theorem SMap.find_put_self (m : SMap α) (a : Nat) (v : α) : SMap.find (SMap.put m a v) a = some v := by
  induction m with
  | nil => simp [SMap.put, SMap.find]
  | cons x t ih =>
    obtain ⟨k, w⟩ := x
    simp only [SMap.put]
    split
    · simp [SMap.find]
    · split
      · simp [SMap.find]
      · rename_i hne _
        simp [SMap.find, hne, ih]

theorem SMap.find_put_ne (m : SMap α) {a b : Nat} (v : α) (hb : b ≠ a) : SMap.find (SMap.put m a v) b = SMap.find m b := by
  induction m with
  | nil => simp [SMap.put, SMap.find, hb]
  | cons x t ih =>
    obtain ⟨k, w⟩ := x
    simp only [SMap.put]
    split
    · rename_i hak
      subst hak
      simp [SMap.find, hb]
    · split
      · simp [SMap.find, hb]
      · simp only [SMap.find, ih]

@[simp] theorem SMap.getD_put_self (m : SMap α) (a : Nat) (v d : α) : SMap.getD (SMap.put m a v) a d = v := by
  simp [SMap.getD, SMap.find_put_self]

theorem SMap.getD_put_ne (m : SMap α) {a b : Nat} (v d : α) (hb : b ≠ a) :
    SMap.getD (SMap.put m a v) b d = SMap.getD m b d := by
  simp [SMap.getD, SMap.find_put_ne m v hb]

theorem SMap.getD_put (m : SMap α) (a b : Nat) (v d : α) :
    SMap.getD (SMap.put m a v) b d = if b = a then v else SMap.getD m b d := by
  by_cases h : b = a
  · subst h; simp
  · simp [h, SMap.getD_put_ne]

theorem SMap.find_del_self (m : SMap α) (a : Nat) : SMap.find (SMap.del m a) a = none := by
  induction m with
  | nil => rfl
  | cons x t ih =>
    obtain ⟨k, w⟩ := x
    simp only [SMap.del, List.filter_cons] at ih ⊢
    split
    · rename_i h
      have hk : a ≠ k := fun e => by simp [e] at h
      simp only [SMap.find, if_neg hk, ih]
    · exact ih

theorem SMap.find_del_ne (m : SMap α) {a b : Nat} (hb : b ≠ a) : SMap.find (SMap.del m a) b = SMap.find m b := by
  induction m with
  | nil => rfl
  | cons x t ih =>
    obtain ⟨k, w⟩ := x
    simp only [SMap.del, List.filter_cons] at ih ⊢
    split
    · simp only [SMap.find, ih]
    · rename_i h
      have hk : k = a := by simpa using h
      subst hk
      simp only [SMap.find, if_neg hb, ih]

/-- A put with a default reads back. -/
theorem SMap.getD_putD_self [DecidableEq α] (m : SMap α) (d : α) (a : Nat) (v : α) : SMap.getD (SMap.putD d m a v) a d = v := by
  unfold SMap.putD
  split
  · rename_i h
    simp [SMap.getD, SMap.find_del_self, h]
  · simp

/-- A put with a default leaves the other keys. -/
theorem SMap.getD_putD_ne [DecidableEq α] (m : SMap α) (d : α) {a b : Nat} (v : α) (hb : b ≠ a) :
    SMap.getD (SMap.putD d m a v) b d = SMap.getD m b d := by
  unfold SMap.putD
  split
  · simp [SMap.getD, SMap.find_del_ne m hb]
  · exact SMap.getD_put_ne m v d hb

end Sys2Proof
end

