-- ==== Sys2Proof/Laws/Memory.lean ====
section
/-! SUPPORT. Memory: what is read after a write, and that every memory operation keeps the canonical form. -/

set_option Elab.async false

namespace Sys2Proof.Machine

theorem Memory.wf_iff (m : List Host.Cell) :
    Memory.wf m = true ↔ SMap.sorted m = true ∧ ∀ c ∈ m, c.2 ≠ memDefault := by
  simp [Memory.wf, List.all_eq_true]

/-- Leaving bytes out keeps the canonical form. -/
theorem Memory.wf_filter {m : List Host.Cell} (p : Host.Cell → Bool) (h : Memory.wf m = true) : Memory.wf (m.filter p) = true := by
  rw [Memory.wf_iff] at h ⊢
  exact ⟨SMap.sorted_filter p h.1, fun c hc => h.2 c (List.mem_filter.mp hc).1⟩

/-- Writing a byte keeps the canonical form. -/
theorem Memory.wf_putD {m : List Host.Cell} (a : Nat) (b : Byte) (h : Memory.wf m = true) :
    Memory.wf (SMap.putD memDefault m a b) = true := by
  rw [Memory.wf_iff] at h ⊢
  refine ⟨SMap.sorted_putD _ a b h.1, ?_⟩
  intro c hc
  unfold SMap.putD at hc
  split at hc
  · exact h.2 c (List.mem_filter.mp hc).1
  · rename_i hb
    rcases SMap.mem_put hc with rfl | hc
    · exact hb
    · exact h.2 c hc

/-- A byte written reads back. -/
@[simp] theorem rdByte_wrByte_self (a : Nat) (b : Byte) (s : State) : rdByte a (wrByte a b s) = b := by
  simp [rdByte, wrByte, SMap.getD_putD_self]

/-- Writing one byte leaves every other byte. -/
theorem rdByte_wrByte_ne {a c : Nat} (b : Byte) (s : State) (h : c ≠ a) : rdByte c (wrByte a b s) = rdByte c s := by
  simp [rdByte, wrByte, SMap.getD_putD_ne _ _ _ h]

/-- Writing bytes from `a` up leaves every byte outside them. -/
theorem rdByte_wrBytes_out (a c : Nat) (bs : List Byte) (s : State) (h : c < a ∨ a + bs.length ≤ c) :
    rdByte c (wrBytes a bs s) = rdByte c s := by
  induction bs generalizing a s with
  | nil => rfl
  | cons b t ih =>
    simp only [List.length_cons] at h
    rw [wrBytes, ih (a + 1) _ (by omega), rdByte_wrByte_ne _ _ (by omega)]

/-- Bytes written read back. -/
theorem rdBytes_wrBytes (a : Nat) (bs : List Byte) (s : State) : rdBytes a bs.length (wrBytes a bs s) = bs := by
  induction bs generalizing a s with
  | nil => rfl
  | cons b t ih =>
    simp only [List.length_cons, rdBytes, wrBytes]
    rw [rdByte_wrBytes_out (a + 1) a t _ (by omega), rdByte_wrByte_self, ih]

end Sys2Proof.Machine
end

