-- ==== Sys2Proof/Laws/Keeps.lean ====
section
/-! SUPPORT. `Keeps M s t`: what every operation of the module leaves of a state. The queue of commands and the variant stay, free values are
not used again, the invariant holds of `t` where it holds of `s`, and only the parts of the set `m` differ. A set of parts is a number: bit i
stands for the i-th part of `Part`. One lemma per way of putting operations together. -/

set_option Elab.async false

namespace Sys2Proof.Machine

/-- The parts of `a` are among those of `m`. -/
def Sub (a m : Nat) : Prop := a ||| m = m

theorem Sub.refl (a : Nat) : Sub a a := Nat.or_self a

theorem Sub.of {a b m : Nat} (h : Sub b m) (e : Nat.beq (a ||| b) b = true) : Sub a m := by
  have e' : a ||| b = b := Nat.eq_of_beq_eq_true e
  unfold Sub at h ⊢
  rw [← h, ← Nat.or_assoc, e']

theorem Sub.absurd {a m i : Nat} {p : Prop} (h : Sub a m) (ha : a.testBit i = true) (hm : m.testBit i = false) : p := by
  unfold Sub at h
  rw [← h, Nat.testBit_or, ha] at hm
  cases hm

/-- Only the parts of `m` differ. -/
structure Only (M : Nat) (s t : State) : Prop where
  regs : M.testBit 0 = false → t.regs = s.regs
  mem : M.testBit 1 = false → t.mem = s.mem
  free : M.testBit 2 = false → t.free = s.free
  tick : M.testBit 3 = false → t.tick = s.tick
  feat : M.testBit 4 = false → t.feat = s.feat
  pbk : M.testBit 5 = false → t.pbk = s.pbk
  pow : M.testBit 6 = false → t.pow = s.pow
  nv : M.testBit 7 = false → t.nv = s.nv
  ftl : M.testBit 8 = false → t.ftl = s.ftl
  media : M.testBit 9 = false → t.media = s.media
  ten : M.testBit 10 = false → t.ten = s.ten
  prog : M.testBit 11 = false → t.prog = s.prog
  dram : M.testBit 12 = false → t.dram = s.dram
  mat : M.testBit 13 = false → t.mat = s.mat
  comp : M.testBit 14 = false → t.comp = s.comp
  scan : M.testBit 15 = false → t.scan = s.scan
  dig : M.testBit 16 = false → t.dig = s.dig
  keys : M.testBit 17 = false → t.keys = s.keys
  sch : M.testBit 18 = false → t.sch = s.sch
  cores : M.testBit 19 = false → t.cores = s.cores
  clus : M.testBit 20 = false → t.clus = s.clus
  net : M.testBit 21 = false → t.net = s.net
  mgt : M.testBit 22 = false → t.mgt = s.mgt
  bus : M.testBit 23 = false → t.bus = s.bus
  acc : M.testBit 24 = false → t.acc = s.acc
  dirty : M.testBit 25 = false → t.dirty = s.dirty

theorem Only.refl (M : Nat) (s : State) : Only M s s :=
  ⟨fun _ => rfl, fun _ => rfl, fun _ => rfl, fun _ => rfl, fun _ => rfl, fun _ => rfl, fun _ => rfl, fun _ => rfl, fun _ => rfl, fun _ => rfl, fun _ => rfl, fun _ => rfl, fun _ => rfl, fun _ => rfl, fun _ => rfl, fun _ => rfl, fun _ => rfl, fun _ => rfl, fun _ => rfl, fun _ => rfl, fun _ => rfl, fun _ => rfl, fun _ => rfl, fun _ => rfl, fun _ => rfl, fun _ => rfl⟩

theorem Only.trans {M : Nat} {s t u : State} (h : Only M s t) (g : Only M t u) : Only M s u :=
  ⟨fun b => (g.regs b).trans (h.regs b),
    fun b => (g.mem b).trans (h.mem b),
    fun b => (g.free b).trans (h.free b),
    fun b => (g.tick b).trans (h.tick b),
    fun b => (g.feat b).trans (h.feat b),
    fun b => (g.pbk b).trans (h.pbk b),
    fun b => (g.pow b).trans (h.pow b),
    fun b => (g.nv b).trans (h.nv b),
    fun b => (g.ftl b).trans (h.ftl b),
    fun b => (g.media b).trans (h.media b),
    fun b => (g.ten b).trans (h.ten b),
    fun b => (g.prog b).trans (h.prog b),
    fun b => (g.dram b).trans (h.dram b),
    fun b => (g.mat b).trans (h.mat b),
    fun b => (g.comp b).trans (h.comp b),
    fun b => (g.scan b).trans (h.scan b),
    fun b => (g.dig b).trans (h.dig b),
    fun b => (g.keys b).trans (h.keys b),
    fun b => (g.sch b).trans (h.sch b),
    fun b => (g.cores b).trans (h.cores b),
    fun b => (g.clus b).trans (h.clus b),
    fun b => (g.net b).trans (h.net b),
    fun b => (g.mgt b).trans (h.mgt b),
    fun b => (g.bus b).trans (h.bus b),
    fun b => (g.acc b).trans (h.acc b),
    fun b => (g.dirty b).trans (h.dirty b)⟩

/-- What every operation leaves. -/
structure Keeps (M : Nat) (s t : State) : Prop where
  pending : t.pending = s.pending
  variant : t.variant = s.variant
  free : s.free ≤ t.free
  mem : Memory.wf s.mem = true → Memory.wf t.mem = true
  regs : SMap.sorted s.regs = true → SMap.sorted t.regs = true
  lanes : LanesOk s.pbk → LanesOk t.pbk
  only : Only M s t

theorem Keeps.refl {M : Nat} (s : State) : Keeps M s s := ⟨rfl, rfl, le_rfl, id, id, id, Only.refl M s⟩

theorem Keeps.trans {M : Nat} {s t u : State} (h : Keeps M s t) (g : Keeps M t u) : Keeps M s u :=
  ⟨g.pending.trans h.pending, g.variant.trans h.variant, h.free.trans g.free, g.mem ∘ h.mem, g.regs ∘ h.regs, g.lanes ∘ h.lanes,
    h.only.trans g.only⟩

/-- An outcome that is a next state keeps. -/
def OutKeeps (M : Nat) (s : State) (o : Out) : Prop := ∀ t, o = .next t → Keeps M s t

theorem OutKeeps.next {M : Nat} {s t : State} (h : Keeps M s t) : OutKeeps M s (.next t) := by
  intro u hu
  cases hu
  exact h

theorem OutKeeps.trans {M : Nat} {s t : State} {o : Out} (h : Keeps M s t) (g : OutKeeps M t o) : OutKeeps M s o := fun u hu => h.trans (g u hu)

theorem OutKeeps.get {M : Nat} {s t : State} {o : Out} (g : OutKeeps M s o) (e : o = .next t) : Keeps M s t := g t e

/-- The invariant goes over a step that keeps. -/
theorem Keeps.inv {M : Nat} {s t : State} (h : Keeps M s t) (i : Inv s) : Inv t := ⟨h.mem i.1, h.regs i.2.1, h.lanes i.2.2⟩

theorem keeps_ite {M : Nat} {r a b : State} {c : Prop} [Decidable c] (ha : Keeps M r a) (hb : Keeps M r b) : Keeps M r (if c then a else b) := by
  split <;> assumption

theorem outKeeps_ite {M : Nat} {r : State} {a b : Out} {c : Prop} [Decidable c] (ha : OutKeeps M r a) (hb : OutKeeps M r b) :
    OutKeeps M r (if c then a else b) := by
  split <;> assumption

theorem forN_keeps {M : Nat} {r : State} {f : Nat → State → State} {n : Nat} {s : State} (hs : Keeps M r s) (h : ∀ i t, Keeps M t (f i t)) :
    Keeps M r (forN f n s) := by
  refine hs.trans ?_
  clear hs
  induction n generalizing s with
  | zero => exact Keeps.refl s
  | succ n ih => exact ih.trans (h n _)

theorem forEach_keeps {M : Nat} {r : State} {α : Type} {f : α → State → State} {l : List α} {s : State} (hs : Keeps M r s)
    (h : ∀ a t, Keeps M t (f a t)) : Keeps M r (forEach f l s) := by
  refine hs.trans ?_
  clear hs
  induction l generalizing s with
  | nil => exact Keeps.refl s
  | cons a t ih => exact (h a s).trans ih

/-! ### Changes of parts -/

/-- A change of the registers that leaves them in order. -/
theorem Keeps.updRegs {M : Nat} {r x : State} {a : SMap Word} (g : SMap.sorted x.regs = true → SMap.sorted a = true) (h : Keeps M r x)
    (hM : Sub 1 M := by exact ‹Sub _ M›.of rfl) : Keeps M r { x with regs := a } :=
  h.trans ⟨rfl, rfl, le_rfl, id, g, id,
    ⟨fun h => hM.absurd (i := 0) rfl h, fun _ => rfl, fun _ => rfl, fun _ => rfl, fun _ => rfl, fun _ => rfl, fun _ => rfl, fun _ => rfl, fun _ => rfl, fun _ => rfl, fun _ => rfl, fun _ => rfl, fun _ => rfl, fun _ => rfl, fun _ => rfl, fun _ => rfl, fun _ => rfl, fun _ => rfl, fun _ => rfl, fun _ => rfl, fun _ => rfl, fun _ => rfl, fun _ => rfl, fun _ => rfl, fun _ => rfl, fun _ => rfl⟩⟩

/-- A change of memory that leaves it in canonical form. -/
theorem Keeps.updMem {M : Nat} {r x : State} {a : List Host.Cell} (g : Memory.wf x.mem = true → Memory.wf a = true) (h : Keeps M r x)
    (hM : Sub 2 M := by exact ‹Sub _ M›.of rfl) : Keeps M r { x with mem := a } :=
  h.trans ⟨rfl, rfl, le_rfl, g, id, id,
    ⟨fun _ => rfl, fun h => hM.absurd (i := 1) rfl h, fun _ => rfl, fun _ => rfl, fun _ => rfl, fun _ => rfl, fun _ => rfl, fun _ => rfl, fun _ => rfl, fun _ => rfl, fun _ => rfl, fun _ => rfl, fun _ => rfl, fun _ => rfl, fun _ => rfl, fun _ => rfl, fun _ => rfl, fun _ => rfl, fun _ => rfl, fun _ => rfl, fun _ => rfl, fun _ => rfl, fun _ => rfl, fun _ => rfl, fun _ => rfl, fun _ => rfl⟩⟩

/-- Free values are used. -/
theorem Keeps.updFree {M : Nat} {r x : State} {n : Nat} (h : Keeps M r x) (hM : Sub 4 M := by exact ‹Sub _ M›.of rfl) :
    Keeps M r { x with free := x.free + n } :=
  h.trans ⟨rfl, rfl, Nat.le_add_right _ _, id, id, id,
    ⟨fun _ => rfl, fun _ => rfl, fun h => hM.absurd (i := 2) rfl h, fun _ => rfl, fun _ => rfl, fun _ => rfl, fun _ => rfl, fun _ => rfl, fun _ => rfl, fun _ => rfl, fun _ => rfl, fun _ => rfl, fun _ => rfl, fun _ => rfl, fun _ => rfl, fun _ => rfl, fun _ => rfl, fun _ => rfl, fun _ => rfl, fun _ => rfl, fun _ => rfl, fun _ => rfl, fun _ => rfl, fun _ => rfl, fun _ => rfl, fun _ => rfl⟩⟩

/-- A change of the event recorder that leaves it within its sizes. -/
theorem Keeps.updPbk {M : Nat} {r x : State} {p : Pbk} (g : LanesOk x.pbk → LanesOk p) (h : Keeps M r x)
    (hM : Sub 32 M := by exact ‹Sub _ M›.of rfl) : Keeps M r { x with pbk := p } :=
  h.trans ⟨rfl, rfl, le_rfl, id, id, g,
    ⟨fun _ => rfl, fun _ => rfl, fun _ => rfl, fun _ => rfl, fun _ => rfl, fun h => hM.absurd (i := 5) rfl h, fun _ => rfl, fun _ => rfl, fun _ => rfl, fun _ => rfl, fun _ => rfl, fun _ => rfl, fun _ => rfl, fun _ => rfl, fun _ => rfl, fun _ => rfl, fun _ => rfl, fun _ => rfl, fun _ => rfl, fun _ => rfl, fun _ => rfl, fun _ => rfl, fun _ => rfl, fun _ => rfl, fun _ => rfl, fun _ => rfl⟩⟩

theorem Keeps.updR {M : Nat} {r x : State}  {h0 h1 : List Ev} {co : List Coal} {sg : SMap Seg} {sa : Nat} {wi : SMap (List Postmark)}
    {td un mw : List Nat} {as : Bool} {te hr hf : List Postmark} {cs sm : Bool} (h : Keeps M r x) (hM : Sub 32 M := by exact ‹Sub _ M›.of rfl) :
    Keeps M r ⟨x.pending, x.regs, x.mem, x.free, x.tick, x.variant, x.feat, ⟨x.pbk.q0, x.pbk.q1, x.pbk.q2, x.pbk.q3, h0, h1, co, x.pbk.ram, sg, sa, wi, td, un, as, mw, te, hr, hf, cs, sm⟩, x.pow, x.nv, x.ftl, x.media, x.ten, x.prog, x.dram, x.mat, x.comp, x.scan, x.dig, x.keys, x.sch, x.cores, x.clus, x.net, x.mgt, x.bus, x.acc, x.dirty⟩ :=
  h.trans ⟨rfl, rfl, le_rfl, id, id, id,
    ⟨fun _ => rfl, fun _ => rfl, fun _ => rfl, fun _ => rfl, fun _ => rfl, fun h => hM.absurd (i := 5) rfl h, fun _ => rfl, fun _ => rfl, fun _ => rfl, fun _ => rfl, fun _ => rfl, fun _ => rfl, fun _ => rfl, fun _ => rfl, fun _ => rfl, fun _ => rfl, fun _ => rfl, fun _ => rfl, fun _ => rfl, fun _ => rfl, fun _ => rfl, fun _ => rfl, fun _ => rfl, fun _ => rfl, fun _ => rfl, fun _ => rfl⟩⟩

theorem Keeps.upd_acc {M : Nat} {r x : State} {acc' : SMap Nat} (h : Keeps M r x) (hM : Sub 16777216 M := by exact ‹Sub _ M›.of rfl) :
    Keeps M r ⟨x.pending, x.regs, x.mem, x.free, x.tick, x.variant, x.feat, x.pbk, x.pow, x.nv, x.ftl, x.media, x.ten, x.prog, x.dram, x.mat, x.comp, x.scan, x.dig, x.keys, x.sch, x.cores, x.clus, x.net, x.mgt, x.bus, acc', x.dirty⟩ :=
  h.trans ⟨rfl, rfl, le_rfl, id, id, id,
    ⟨fun _ => rfl, fun _ => rfl, fun _ => rfl, fun _ => rfl, fun _ => rfl, fun _ => rfl, fun _ => rfl, fun _ => rfl, fun _ => rfl, fun _ => rfl, fun _ => rfl, fun _ => rfl, fun _ => rfl, fun _ => rfl, fun _ => rfl, fun _ => rfl, fun _ => rfl, fun _ => rfl, fun _ => rfl, fun _ => rfl, fun _ => rfl, fun _ => rfl, fun _ => rfl, fun _ => rfl, fun h => hM.absurd (i := 24) rfl h, fun _ => rfl⟩⟩

theorem Keeps.upd_bus {M : Nat} {r x : State} {bus' : BusSt} (h : Keeps M r x) (hM : Sub 8388608 M := by exact ‹Sub _ M›.of rfl) :
    Keeps M r ⟨x.pending, x.regs, x.mem, x.free, x.tick, x.variant, x.feat, x.pbk, x.pow, x.nv, x.ftl, x.media, x.ten, x.prog, x.dram, x.mat, x.comp, x.scan, x.dig, x.keys, x.sch, x.cores, x.clus, x.net, x.mgt, bus', x.acc, x.dirty⟩ :=
  h.trans ⟨rfl, rfl, le_rfl, id, id, id,
    ⟨fun _ => rfl, fun _ => rfl, fun _ => rfl, fun _ => rfl, fun _ => rfl, fun _ => rfl, fun _ => rfl, fun _ => rfl, fun _ => rfl, fun _ => rfl, fun _ => rfl, fun _ => rfl, fun _ => rfl, fun _ => rfl, fun _ => rfl, fun _ => rfl, fun _ => rfl, fun _ => rfl, fun _ => rfl, fun _ => rfl, fun _ => rfl, fun _ => rfl, fun _ => rfl, fun h => hM.absurd (i := 23) rfl h, fun _ => rfl, fun _ => rfl⟩⟩

theorem Keeps.upd_clus {M : Nat} {r x : State} {clus' : SMap Clus} (h : Keeps M r x) (hM : Sub 1048576 M := by exact ‹Sub _ M›.of rfl) :
    Keeps M r ⟨x.pending, x.regs, x.mem, x.free, x.tick, x.variant, x.feat, x.pbk, x.pow, x.nv, x.ftl, x.media, x.ten, x.prog, x.dram, x.mat, x.comp, x.scan, x.dig, x.keys, x.sch, x.cores, clus', x.net, x.mgt, x.bus, x.acc, x.dirty⟩ :=
  h.trans ⟨rfl, rfl, le_rfl, id, id, id,
    ⟨fun _ => rfl, fun _ => rfl, fun _ => rfl, fun _ => rfl, fun _ => rfl, fun _ => rfl, fun _ => rfl, fun _ => rfl, fun _ => rfl, fun _ => rfl, fun _ => rfl, fun _ => rfl, fun _ => rfl, fun _ => rfl, fun _ => rfl, fun _ => rfl, fun _ => rfl, fun _ => rfl, fun _ => rfl, fun _ => rfl, fun h => hM.absurd (i := 20) rfl h, fun _ => rfl, fun _ => rfl, fun _ => rfl, fun _ => rfl, fun _ => rfl⟩⟩

theorem Keeps.upd_comp {M : Nat} {r x : State} {comp' : Comp} (h : Keeps M r x) (hM : Sub 16384 M := by exact ‹Sub _ M›.of rfl) :
    Keeps M r ⟨x.pending, x.regs, x.mem, x.free, x.tick, x.variant, x.feat, x.pbk, x.pow, x.nv, x.ftl, x.media, x.ten, x.prog, x.dram, x.mat, comp', x.scan, x.dig, x.keys, x.sch, x.cores, x.clus, x.net, x.mgt, x.bus, x.acc, x.dirty⟩ :=
  h.trans ⟨rfl, rfl, le_rfl, id, id, id,
    ⟨fun _ => rfl, fun _ => rfl, fun _ => rfl, fun _ => rfl, fun _ => rfl, fun _ => rfl, fun _ => rfl, fun _ => rfl, fun _ => rfl, fun _ => rfl, fun _ => rfl, fun _ => rfl, fun _ => rfl, fun _ => rfl, fun h => hM.absurd (i := 14) rfl h, fun _ => rfl, fun _ => rfl, fun _ => rfl, fun _ => rfl, fun _ => rfl, fun _ => rfl, fun _ => rfl, fun _ => rfl, fun _ => rfl, fun _ => rfl, fun _ => rfl⟩⟩

theorem Keeps.updF_comp {M : Nat} {r x : State} {comp' : Comp} {n : Nat} (h : Keeps M r x) (hM : Sub 16388 M := by exact ‹Sub _ M›.of rfl) :
    Keeps M r ⟨x.pending, x.regs, x.mem, x.free + n, x.tick, x.variant, x.feat, x.pbk, x.pow, x.nv, x.ftl, x.media, x.ten, x.prog, x.dram, x.mat, comp', x.scan, x.dig, x.keys, x.sch, x.cores, x.clus, x.net, x.mgt, x.bus, x.acc, x.dirty⟩ :=
  h.trans ⟨rfl, rfl, Nat.le_add_right _ _, id, id, id,
    ⟨fun _ => rfl, fun _ => rfl, fun h => hM.absurd (i := 2) rfl h, fun _ => rfl, fun _ => rfl, fun _ => rfl, fun _ => rfl, fun _ => rfl, fun _ => rfl, fun _ => rfl, fun _ => rfl, fun _ => rfl, fun _ => rfl, fun _ => rfl, fun h => hM.absurd (i := 14) rfl h, fun _ => rfl, fun _ => rfl, fun _ => rfl, fun _ => rfl, fun _ => rfl, fun _ => rfl, fun _ => rfl, fun _ => rfl, fun _ => rfl, fun _ => rfl, fun _ => rfl⟩⟩

theorem Keeps.upd_cores {M : Nat} {r x : State} {cores' : SMap Core} (h : Keeps M r x) (hM : Sub 524288 M := by exact ‹Sub _ M›.of rfl) :
    Keeps M r ⟨x.pending, x.regs, x.mem, x.free, x.tick, x.variant, x.feat, x.pbk, x.pow, x.nv, x.ftl, x.media, x.ten, x.prog, x.dram, x.mat, x.comp, x.scan, x.dig, x.keys, x.sch, cores', x.clus, x.net, x.mgt, x.bus, x.acc, x.dirty⟩ :=
  h.trans ⟨rfl, rfl, le_rfl, id, id, id,
    ⟨fun _ => rfl, fun _ => rfl, fun _ => rfl, fun _ => rfl, fun _ => rfl, fun _ => rfl, fun _ => rfl, fun _ => rfl, fun _ => rfl, fun _ => rfl, fun _ => rfl, fun _ => rfl, fun _ => rfl, fun _ => rfl, fun _ => rfl, fun _ => rfl, fun _ => rfl, fun _ => rfl, fun _ => rfl, fun h => hM.absurd (i := 19) rfl h, fun _ => rfl, fun _ => rfl, fun _ => rfl, fun _ => rfl, fun _ => rfl, fun _ => rfl⟩⟩

theorem Keeps.upd_cores_net {M : Nat} {r x : State} {cores' : SMap Core} {net' : Net} (h : Keeps M r x) (hM : Sub 2621440 M := by exact ‹Sub _ M›.of rfl) :
    Keeps M r ⟨x.pending, x.regs, x.mem, x.free, x.tick, x.variant, x.feat, x.pbk, x.pow, x.nv, x.ftl, x.media, x.ten, x.prog, x.dram, x.mat, x.comp, x.scan, x.dig, x.keys, x.sch, cores', x.clus, net', x.mgt, x.bus, x.acc, x.dirty⟩ :=
  h.trans ⟨rfl, rfl, le_rfl, id, id, id,
    ⟨fun _ => rfl, fun _ => rfl, fun _ => rfl, fun _ => rfl, fun _ => rfl, fun _ => rfl, fun _ => rfl, fun _ => rfl, fun _ => rfl, fun _ => rfl, fun _ => rfl, fun _ => rfl, fun _ => rfl, fun _ => rfl, fun _ => rfl, fun _ => rfl, fun _ => rfl, fun _ => rfl, fun _ => rfl, fun h => hM.absurd (i := 19) rfl h, fun _ => rfl, fun h => hM.absurd (i := 21) rfl h, fun _ => rfl, fun _ => rfl, fun _ => rfl, fun _ => rfl⟩⟩

theorem Keeps.upd_dig {M : Nat} {r x : State} {dig' : Dig} (h : Keeps M r x) (hM : Sub 65536 M := by exact ‹Sub _ M›.of rfl) :
    Keeps M r ⟨x.pending, x.regs, x.mem, x.free, x.tick, x.variant, x.feat, x.pbk, x.pow, x.nv, x.ftl, x.media, x.ten, x.prog, x.dram, x.mat, x.comp, x.scan, dig', x.keys, x.sch, x.cores, x.clus, x.net, x.mgt, x.bus, x.acc, x.dirty⟩ :=
  h.trans ⟨rfl, rfl, le_rfl, id, id, id,
    ⟨fun _ => rfl, fun _ => rfl, fun _ => rfl, fun _ => rfl, fun _ => rfl, fun _ => rfl, fun _ => rfl, fun _ => rfl, fun _ => rfl, fun _ => rfl, fun _ => rfl, fun _ => rfl, fun _ => rfl, fun _ => rfl, fun _ => rfl, fun _ => rfl, fun h => hM.absurd (i := 16) rfl h, fun _ => rfl, fun _ => rfl, fun _ => rfl, fun _ => rfl, fun _ => rfl, fun _ => rfl, fun _ => rfl, fun _ => rfl, fun _ => rfl⟩⟩

theorem Keeps.upd_dirty {M : Nat} {r x : State} {dirty' : SMap DirtyLine} (h : Keeps M r x) (hM : Sub 33554432 M := by exact ‹Sub _ M›.of rfl) :
    Keeps M r ⟨x.pending, x.regs, x.mem, x.free, x.tick, x.variant, x.feat, x.pbk, x.pow, x.nv, x.ftl, x.media, x.ten, x.prog, x.dram, x.mat, x.comp, x.scan, x.dig, x.keys, x.sch, x.cores, x.clus, x.net, x.mgt, x.bus, x.acc, dirty'⟩ :=
  h.trans ⟨rfl, rfl, le_rfl, id, id, id,
    ⟨fun _ => rfl, fun _ => rfl, fun _ => rfl, fun _ => rfl, fun _ => rfl, fun _ => rfl, fun _ => rfl, fun _ => rfl, fun _ => rfl, fun _ => rfl, fun _ => rfl, fun _ => rfl, fun _ => rfl, fun _ => rfl, fun _ => rfl, fun _ => rfl, fun _ => rfl, fun _ => rfl, fun _ => rfl, fun _ => rfl, fun _ => rfl, fun _ => rfl, fun _ => rfl, fun _ => rfl, fun _ => rfl, fun h => hM.absurd (i := 25) rfl h⟩⟩

theorem Keeps.upd_dram {M : Nat} {r x : State} {dram' : Dram} (h : Keeps M r x) (hM : Sub 4096 M := by exact ‹Sub _ M›.of rfl) :
    Keeps M r ⟨x.pending, x.regs, x.mem, x.free, x.tick, x.variant, x.feat, x.pbk, x.pow, x.nv, x.ftl, x.media, x.ten, x.prog, dram', x.mat, x.comp, x.scan, x.dig, x.keys, x.sch, x.cores, x.clus, x.net, x.mgt, x.bus, x.acc, x.dirty⟩ :=
  h.trans ⟨rfl, rfl, le_rfl, id, id, id,
    ⟨fun _ => rfl, fun _ => rfl, fun _ => rfl, fun _ => rfl, fun _ => rfl, fun _ => rfl, fun _ => rfl, fun _ => rfl, fun _ => rfl, fun _ => rfl, fun _ => rfl, fun _ => rfl, fun h => hM.absurd (i := 12) rfl h, fun _ => rfl, fun _ => rfl, fun _ => rfl, fun _ => rfl, fun _ => rfl, fun _ => rfl, fun _ => rfl, fun _ => rfl, fun _ => rfl, fun _ => rfl, fun _ => rfl, fun _ => rfl, fun _ => rfl⟩⟩

theorem Keeps.updP_dram {M : Nat} {r x : State} {dram' : Dram} {p : Pbk} (g : LanesOk x.pbk → LanesOk p) (h : Keeps M r x) (hM : Sub 4128 M := by exact ‹Sub _ M›.of rfl) :
    Keeps M r ⟨x.pending, x.regs, x.mem, x.free, x.tick, x.variant, x.feat, p, x.pow, x.nv, x.ftl, x.media, x.ten, x.prog, dram', x.mat, x.comp, x.scan, x.dig, x.keys, x.sch, x.cores, x.clus, x.net, x.mgt, x.bus, x.acc, x.dirty⟩ :=
  h.trans ⟨rfl, rfl, le_rfl, id, id, g,
    ⟨fun _ => rfl, fun _ => rfl, fun _ => rfl, fun _ => rfl, fun _ => rfl, fun h => hM.absurd (i := 5) rfl h, fun _ => rfl, fun _ => rfl, fun _ => rfl, fun _ => rfl, fun _ => rfl, fun _ => rfl, fun h => hM.absurd (i := 12) rfl h, fun _ => rfl, fun _ => rfl, fun _ => rfl, fun _ => rfl, fun _ => rfl, fun _ => rfl, fun _ => rfl, fun _ => rfl, fun _ => rfl, fun _ => rfl, fun _ => rfl, fun _ => rfl, fun _ => rfl⟩⟩

theorem Keeps.updR_dram {M : Nat} {r x : State} {dram' : Dram} {h0 h1 : List Ev} {co : List Coal} {sg : SMap Seg} {sa : Nat} {wi : SMap (List Postmark)}
    {td un mw : List Nat} {as : Bool} {te hr hf : List Postmark} {cs sm : Bool} (h : Keeps M r x) (hM : Sub 4128 M := by exact ‹Sub _ M›.of rfl) :
    Keeps M r ⟨x.pending, x.regs, x.mem, x.free, x.tick, x.variant, x.feat, ⟨x.pbk.q0, x.pbk.q1, x.pbk.q2, x.pbk.q3, h0, h1, co, x.pbk.ram, sg, sa, wi, td, un, as, mw, te, hr, hf, cs, sm⟩, x.pow, x.nv, x.ftl, x.media, x.ten, x.prog, dram', x.mat, x.comp, x.scan, x.dig, x.keys, x.sch, x.cores, x.clus, x.net, x.mgt, x.bus, x.acc, x.dirty⟩ :=
  h.trans ⟨rfl, rfl, le_rfl, id, id, id,
    ⟨fun _ => rfl, fun _ => rfl, fun _ => rfl, fun _ => rfl, fun _ => rfl, fun h => hM.absurd (i := 5) rfl h, fun _ => rfl, fun _ => rfl, fun _ => rfl, fun _ => rfl, fun _ => rfl, fun _ => rfl, fun h => hM.absurd (i := 12) rfl h, fun _ => rfl, fun _ => rfl, fun _ => rfl, fun _ => rfl, fun _ => rfl, fun _ => rfl, fun _ => rfl, fun _ => rfl, fun _ => rfl, fun _ => rfl, fun _ => rfl, fun _ => rfl, fun _ => rfl⟩⟩

theorem Keeps.upd_dram_dirty {M : Nat} {r x : State} {dram' : Dram} {dirty' : SMap DirtyLine} (h : Keeps M r x) (hM : Sub 33558528 M := by exact ‹Sub _ M›.of rfl) :
    Keeps M r ⟨x.pending, x.regs, x.mem, x.free, x.tick, x.variant, x.feat, x.pbk, x.pow, x.nv, x.ftl, x.media, x.ten, x.prog, dram', x.mat, x.comp, x.scan, x.dig, x.keys, x.sch, x.cores, x.clus, x.net, x.mgt, x.bus, x.acc, dirty'⟩ :=
  h.trans ⟨rfl, rfl, le_rfl, id, id, id,
    ⟨fun _ => rfl, fun _ => rfl, fun _ => rfl, fun _ => rfl, fun _ => rfl, fun _ => rfl, fun _ => rfl, fun _ => rfl, fun _ => rfl, fun _ => rfl, fun _ => rfl, fun _ => rfl, fun h => hM.absurd (i := 12) rfl h, fun _ => rfl, fun _ => rfl, fun _ => rfl, fun _ => rfl, fun _ => rfl, fun _ => rfl, fun _ => rfl, fun _ => rfl, fun _ => rfl, fun _ => rfl, fun _ => rfl, fun _ => rfl, fun h => hM.absurd (i := 25) rfl h⟩⟩

theorem Keeps.upd_feat_net {M : Nat} {r x : State} {feat' : SMap Nat} {net' : Net} (h : Keeps M r x) (hM : Sub 2097168 M := by exact ‹Sub _ M›.of rfl) :
    Keeps M r ⟨x.pending, x.regs, x.mem, x.free, x.tick, x.variant, feat', x.pbk, x.pow, x.nv, x.ftl, x.media, x.ten, x.prog, x.dram, x.mat, x.comp, x.scan, x.dig, x.keys, x.sch, x.cores, x.clus, net', x.mgt, x.bus, x.acc, x.dirty⟩ :=
  h.trans ⟨rfl, rfl, le_rfl, id, id, id,
    ⟨fun _ => rfl, fun _ => rfl, fun _ => rfl, fun _ => rfl, fun h => hM.absurd (i := 4) rfl h, fun _ => rfl, fun _ => rfl, fun _ => rfl, fun _ => rfl, fun _ => rfl, fun _ => rfl, fun _ => rfl, fun _ => rfl, fun _ => rfl, fun _ => rfl, fun _ => rfl, fun _ => rfl, fun _ => rfl, fun _ => rfl, fun _ => rfl, fun _ => rfl, fun h => hM.absurd (i := 21) rfl h, fun _ => rfl, fun _ => rfl, fun _ => rfl, fun _ => rfl⟩⟩

theorem Keeps.upd_feat_nv {M : Nat} {r x : State} {feat' : SMap Nat} {nv' : Nvme} (h : Keeps M r x) (hM : Sub 144 M := by exact ‹Sub _ M›.of rfl) :
    Keeps M r ⟨x.pending, x.regs, x.mem, x.free, x.tick, x.variant, feat', x.pbk, x.pow, nv', x.ftl, x.media, x.ten, x.prog, x.dram, x.mat, x.comp, x.scan, x.dig, x.keys, x.sch, x.cores, x.clus, x.net, x.mgt, x.bus, x.acc, x.dirty⟩ :=
  h.trans ⟨rfl, rfl, le_rfl, id, id, id,
    ⟨fun _ => rfl, fun _ => rfl, fun _ => rfl, fun _ => rfl, fun h => hM.absurd (i := 4) rfl h, fun _ => rfl, fun _ => rfl, fun h => hM.absurd (i := 7) rfl h, fun _ => rfl, fun _ => rfl, fun _ => rfl, fun _ => rfl, fun _ => rfl, fun _ => rfl, fun _ => rfl, fun _ => rfl, fun _ => rfl, fun _ => rfl, fun _ => rfl, fun _ => rfl, fun _ => rfl, fun _ => rfl, fun _ => rfl, fun _ => rfl, fun _ => rfl, fun _ => rfl⟩⟩

theorem Keeps.upd_ftl {M : Nat} {r x : State} {ftl' : Ftl} (h : Keeps M r x) (hM : Sub 256 M := by exact ‹Sub _ M›.of rfl) :
    Keeps M r ⟨x.pending, x.regs, x.mem, x.free, x.tick, x.variant, x.feat, x.pbk, x.pow, x.nv, ftl', x.media, x.ten, x.prog, x.dram, x.mat, x.comp, x.scan, x.dig, x.keys, x.sch, x.cores, x.clus, x.net, x.mgt, x.bus, x.acc, x.dirty⟩ :=
  h.trans ⟨rfl, rfl, le_rfl, id, id, id,
    ⟨fun _ => rfl, fun _ => rfl, fun _ => rfl, fun _ => rfl, fun _ => rfl, fun _ => rfl, fun _ => rfl, fun _ => rfl, fun h => hM.absurd (i := 8) rfl h, fun _ => rfl, fun _ => rfl, fun _ => rfl, fun _ => rfl, fun _ => rfl, fun _ => rfl, fun _ => rfl, fun _ => rfl, fun _ => rfl, fun _ => rfl, fun _ => rfl, fun _ => rfl, fun _ => rfl, fun _ => rfl, fun _ => rfl, fun _ => rfl, fun _ => rfl⟩⟩

theorem Keeps.updF_ftl {M : Nat} {r x : State} {ftl' : Ftl} {n : Nat} (h : Keeps M r x) (hM : Sub 260 M := by exact ‹Sub _ M›.of rfl) :
    Keeps M r ⟨x.pending, x.regs, x.mem, x.free + n, x.tick, x.variant, x.feat, x.pbk, x.pow, x.nv, ftl', x.media, x.ten, x.prog, x.dram, x.mat, x.comp, x.scan, x.dig, x.keys, x.sch, x.cores, x.clus, x.net, x.mgt, x.bus, x.acc, x.dirty⟩ :=
  h.trans ⟨rfl, rfl, Nat.le_add_right _ _, id, id, id,
    ⟨fun _ => rfl, fun _ => rfl, fun h => hM.absurd (i := 2) rfl h, fun _ => rfl, fun _ => rfl, fun _ => rfl, fun _ => rfl, fun _ => rfl, fun h => hM.absurd (i := 8) rfl h, fun _ => rfl, fun _ => rfl, fun _ => rfl, fun _ => rfl, fun _ => rfl, fun _ => rfl, fun _ => rfl, fun _ => rfl, fun _ => rfl, fun _ => rfl, fun _ => rfl, fun _ => rfl, fun _ => rfl, fun _ => rfl, fun _ => rfl, fun _ => rfl, fun _ => rfl⟩⟩

theorem Keeps.upd_keys {M : Nat} {r x : State} {keys' : Keys} (h : Keeps M r x) (hM : Sub 131072 M := by exact ‹Sub _ M›.of rfl) :
    Keeps M r ⟨x.pending, x.regs, x.mem, x.free, x.tick, x.variant, x.feat, x.pbk, x.pow, x.nv, x.ftl, x.media, x.ten, x.prog, x.dram, x.mat, x.comp, x.scan, x.dig, keys', x.sch, x.cores, x.clus, x.net, x.mgt, x.bus, x.acc, x.dirty⟩ :=
  h.trans ⟨rfl, rfl, le_rfl, id, id, id,
    ⟨fun _ => rfl, fun _ => rfl, fun _ => rfl, fun _ => rfl, fun _ => rfl, fun _ => rfl, fun _ => rfl, fun _ => rfl, fun _ => rfl, fun _ => rfl, fun _ => rfl, fun _ => rfl, fun _ => rfl, fun _ => rfl, fun _ => rfl, fun _ => rfl, fun _ => rfl, fun h => hM.absurd (i := 17) rfl h, fun _ => rfl, fun _ => rfl, fun _ => rfl, fun _ => rfl, fun _ => rfl, fun _ => rfl, fun _ => rfl, fun _ => rfl⟩⟩

theorem Keeps.upd_mat {M : Nat} {r x : State} {mat' : Mat} (h : Keeps M r x) (hM : Sub 8192 M := by exact ‹Sub _ M›.of rfl) :
    Keeps M r ⟨x.pending, x.regs, x.mem, x.free, x.tick, x.variant, x.feat, x.pbk, x.pow, x.nv, x.ftl, x.media, x.ten, x.prog, x.dram, mat', x.comp, x.scan, x.dig, x.keys, x.sch, x.cores, x.clus, x.net, x.mgt, x.bus, x.acc, x.dirty⟩ :=
  h.trans ⟨rfl, rfl, le_rfl, id, id, id,
    ⟨fun _ => rfl, fun _ => rfl, fun _ => rfl, fun _ => rfl, fun _ => rfl, fun _ => rfl, fun _ => rfl, fun _ => rfl, fun _ => rfl, fun _ => rfl, fun _ => rfl, fun _ => rfl, fun _ => rfl, fun h => hM.absurd (i := 13) rfl h, fun _ => rfl, fun _ => rfl, fun _ => rfl, fun _ => rfl, fun _ => rfl, fun _ => rfl, fun _ => rfl, fun _ => rfl, fun _ => rfl, fun _ => rfl, fun _ => rfl, fun _ => rfl⟩⟩

theorem Keeps.upd_mat_dig_keys {M : Nat} {r x : State} {mat' : Mat} {dig' : Dig} {keys' : Keys} (h : Keeps M r x) (hM : Sub 204800 M := by exact ‹Sub _ M›.of rfl) :
    Keeps M r ⟨x.pending, x.regs, x.mem, x.free, x.tick, x.variant, x.feat, x.pbk, x.pow, x.nv, x.ftl, x.media, x.ten, x.prog, x.dram, mat', x.comp, x.scan, dig', keys', x.sch, x.cores, x.clus, x.net, x.mgt, x.bus, x.acc, x.dirty⟩ :=
  h.trans ⟨rfl, rfl, le_rfl, id, id, id,
    ⟨fun _ => rfl, fun _ => rfl, fun _ => rfl, fun _ => rfl, fun _ => rfl, fun _ => rfl, fun _ => rfl, fun _ => rfl, fun _ => rfl, fun _ => rfl, fun _ => rfl, fun _ => rfl, fun _ => rfl, fun h => hM.absurd (i := 13) rfl h, fun _ => rfl, fun _ => rfl, fun h => hM.absurd (i := 16) rfl h, fun h => hM.absurd (i := 17) rfl h, fun _ => rfl, fun _ => rfl, fun _ => rfl, fun _ => rfl, fun _ => rfl, fun _ => rfl, fun _ => rfl, fun _ => rfl⟩⟩

theorem Keeps.upd_media {M : Nat} {r x : State} {media' : Media} (h : Keeps M r x) (hM : Sub 512 M := by exact ‹Sub _ M›.of rfl) :
    Keeps M r ⟨x.pending, x.regs, x.mem, x.free, x.tick, x.variant, x.feat, x.pbk, x.pow, x.nv, x.ftl, media', x.ten, x.prog, x.dram, x.mat, x.comp, x.scan, x.dig, x.keys, x.sch, x.cores, x.clus, x.net, x.mgt, x.bus, x.acc, x.dirty⟩ :=
  h.trans ⟨rfl, rfl, le_rfl, id, id, id,
    ⟨fun _ => rfl, fun _ => rfl, fun _ => rfl, fun _ => rfl, fun _ => rfl, fun _ => rfl, fun _ => rfl, fun _ => rfl, fun _ => rfl, fun h => hM.absurd (i := 9) rfl h, fun _ => rfl, fun _ => rfl, fun _ => rfl, fun _ => rfl, fun _ => rfl, fun _ => rfl, fun _ => rfl, fun _ => rfl, fun _ => rfl, fun _ => rfl, fun _ => rfl, fun _ => rfl, fun _ => rfl, fun _ => rfl, fun _ => rfl, fun _ => rfl⟩⟩

theorem Keeps.upd_mgt {M : Nat} {r x : State} {mgt' : Mgt} (h : Keeps M r x) (hM : Sub 4194304 M := by exact ‹Sub _ M›.of rfl) :
    Keeps M r ⟨x.pending, x.regs, x.mem, x.free, x.tick, x.variant, x.feat, x.pbk, x.pow, x.nv, x.ftl, x.media, x.ten, x.prog, x.dram, x.mat, x.comp, x.scan, x.dig, x.keys, x.sch, x.cores, x.clus, x.net, mgt', x.bus, x.acc, x.dirty⟩ :=
  h.trans ⟨rfl, rfl, le_rfl, id, id, id,
    ⟨fun _ => rfl, fun _ => rfl, fun _ => rfl, fun _ => rfl, fun _ => rfl, fun _ => rfl, fun _ => rfl, fun _ => rfl, fun _ => rfl, fun _ => rfl, fun _ => rfl, fun _ => rfl, fun _ => rfl, fun _ => rfl, fun _ => rfl, fun _ => rfl, fun _ => rfl, fun _ => rfl, fun _ => rfl, fun _ => rfl, fun _ => rfl, fun _ => rfl, fun h => hM.absurd (i := 22) rfl h, fun _ => rfl, fun _ => rfl, fun _ => rfl⟩⟩

theorem Keeps.upd_net {M : Nat} {r x : State} {net' : Net} (h : Keeps M r x) (hM : Sub 2097152 M := by exact ‹Sub _ M›.of rfl) :
    Keeps M r ⟨x.pending, x.regs, x.mem, x.free, x.tick, x.variant, x.feat, x.pbk, x.pow, x.nv, x.ftl, x.media, x.ten, x.prog, x.dram, x.mat, x.comp, x.scan, x.dig, x.keys, x.sch, x.cores, x.clus, net', x.mgt, x.bus, x.acc, x.dirty⟩ :=
  h.trans ⟨rfl, rfl, le_rfl, id, id, id,
    ⟨fun _ => rfl, fun _ => rfl, fun _ => rfl, fun _ => rfl, fun _ => rfl, fun _ => rfl, fun _ => rfl, fun _ => rfl, fun _ => rfl, fun _ => rfl, fun _ => rfl, fun _ => rfl, fun _ => rfl, fun _ => rfl, fun _ => rfl, fun _ => rfl, fun _ => rfl, fun _ => rfl, fun _ => rfl, fun _ => rfl, fun _ => rfl, fun h => hM.absurd (i := 21) rfl h, fun _ => rfl, fun _ => rfl, fun _ => rfl, fun _ => rfl⟩⟩

theorem Keeps.upd_nv {M : Nat} {r x : State} {nv' : Nvme} (h : Keeps M r x) (hM : Sub 128 M := by exact ‹Sub _ M›.of rfl) :
    Keeps M r ⟨x.pending, x.regs, x.mem, x.free, x.tick, x.variant, x.feat, x.pbk, x.pow, nv', x.ftl, x.media, x.ten, x.prog, x.dram, x.mat, x.comp, x.scan, x.dig, x.keys, x.sch, x.cores, x.clus, x.net, x.mgt, x.bus, x.acc, x.dirty⟩ :=
  h.trans ⟨rfl, rfl, le_rfl, id, id, id,
    ⟨fun _ => rfl, fun _ => rfl, fun _ => rfl, fun _ => rfl, fun _ => rfl, fun _ => rfl, fun _ => rfl, fun h => hM.absurd (i := 7) rfl h, fun _ => rfl, fun _ => rfl, fun _ => rfl, fun _ => rfl, fun _ => rfl, fun _ => rfl, fun _ => rfl, fun _ => rfl, fun _ => rfl, fun _ => rfl, fun _ => rfl, fun _ => rfl, fun _ => rfl, fun _ => rfl, fun _ => rfl, fun _ => rfl, fun _ => rfl, fun _ => rfl⟩⟩

theorem Keeps.updF_nv {M : Nat} {r x : State} {nv' : Nvme} {n : Nat} (h : Keeps M r x) (hM : Sub 132 M := by exact ‹Sub _ M›.of rfl) :
    Keeps M r ⟨x.pending, x.regs, x.mem, x.free + n, x.tick, x.variant, x.feat, x.pbk, x.pow, nv', x.ftl, x.media, x.ten, x.prog, x.dram, x.mat, x.comp, x.scan, x.dig, x.keys, x.sch, x.cores, x.clus, x.net, x.mgt, x.bus, x.acc, x.dirty⟩ :=
  h.trans ⟨rfl, rfl, Nat.le_add_right _ _, id, id, id,
    ⟨fun _ => rfl, fun _ => rfl, fun h => hM.absurd (i := 2) rfl h, fun _ => rfl, fun _ => rfl, fun _ => rfl, fun _ => rfl, fun h => hM.absurd (i := 7) rfl h, fun _ => rfl, fun _ => rfl, fun _ => rfl, fun _ => rfl, fun _ => rfl, fun _ => rfl, fun _ => rfl, fun _ => rfl, fun _ => rfl, fun _ => rfl, fun _ => rfl, fun _ => rfl, fun _ => rfl, fun _ => rfl, fun _ => rfl, fun _ => rfl, fun _ => rfl, fun _ => rfl⟩⟩

theorem Keeps.updR_nv {M : Nat} {r x : State} {nv' : Nvme} {h0 h1 : List Ev} {co : List Coal} {sg : SMap Seg} {sa : Nat} {wi : SMap (List Postmark)}
    {td un mw : List Nat} {as : Bool} {te hr hf : List Postmark} {cs sm : Bool} (h : Keeps M r x) (hM : Sub 160 M := by exact ‹Sub _ M›.of rfl) :
    Keeps M r ⟨x.pending, x.regs, x.mem, x.free, x.tick, x.variant, x.feat, ⟨x.pbk.q0, x.pbk.q1, x.pbk.q2, x.pbk.q3, h0, h1, co, x.pbk.ram, sg, sa, wi, td, un, as, mw, te, hr, hf, cs, sm⟩, x.pow, nv', x.ftl, x.media, x.ten, x.prog, x.dram, x.mat, x.comp, x.scan, x.dig, x.keys, x.sch, x.cores, x.clus, x.net, x.mgt, x.bus, x.acc, x.dirty⟩ :=
  h.trans ⟨rfl, rfl, le_rfl, id, id, id,
    ⟨fun _ => rfl, fun _ => rfl, fun _ => rfl, fun _ => rfl, fun _ => rfl, fun h => hM.absurd (i := 5) rfl h, fun _ => rfl, fun h => hM.absurd (i := 7) rfl h, fun _ => rfl, fun _ => rfl, fun _ => rfl, fun _ => rfl, fun _ => rfl, fun _ => rfl, fun _ => rfl, fun _ => rfl, fun _ => rfl, fun _ => rfl, fun _ => rfl, fun _ => rfl, fun _ => rfl, fun _ => rfl, fun _ => rfl, fun _ => rfl, fun _ => rfl, fun _ => rfl⟩⟩

theorem Keeps.upd_nv_keys {M : Nat} {r x : State} {nv' : Nvme} {keys' : Keys} (h : Keeps M r x) (hM : Sub 131200 M := by exact ‹Sub _ M›.of rfl) :
    Keeps M r ⟨x.pending, x.regs, x.mem, x.free, x.tick, x.variant, x.feat, x.pbk, x.pow, nv', x.ftl, x.media, x.ten, x.prog, x.dram, x.mat, x.comp, x.scan, x.dig, keys', x.sch, x.cores, x.clus, x.net, x.mgt, x.bus, x.acc, x.dirty⟩ :=
  h.trans ⟨rfl, rfl, le_rfl, id, id, id,
    ⟨fun _ => rfl, fun _ => rfl, fun _ => rfl, fun _ => rfl, fun _ => rfl, fun _ => rfl, fun _ => rfl, fun h => hM.absurd (i := 7) rfl h, fun _ => rfl, fun _ => rfl, fun _ => rfl, fun _ => rfl, fun _ => rfl, fun _ => rfl, fun _ => rfl, fun _ => rfl, fun _ => rfl, fun h => hM.absurd (i := 17) rfl h, fun _ => rfl, fun _ => rfl, fun _ => rfl, fun _ => rfl, fun _ => rfl, fun _ => rfl, fun _ => rfl, fun _ => rfl⟩⟩

theorem Keeps.upd_nv_media_dram_mat_scan_clus_net_acc {M : Nat} {r x : State} {nv' : Nvme} {media' : Media} {dram' : Dram} {mat' : Mat} {scan' : Scans} {clus' : SMap Clus} {net' : Net} {acc' : SMap Nat} (h : Keeps M r x) (hM : Sub 19968640 M := by exact ‹Sub _ M›.of rfl) :
    Keeps M r ⟨x.pending, x.regs, x.mem, x.free, x.tick, x.variant, x.feat, x.pbk, x.pow, nv', x.ftl, media', x.ten, x.prog, dram', mat', x.comp, scan', x.dig, x.keys, x.sch, x.cores, clus', net', x.mgt, x.bus, acc', x.dirty⟩ :=
  h.trans ⟨rfl, rfl, le_rfl, id, id, id,
    ⟨fun _ => rfl, fun _ => rfl, fun _ => rfl, fun _ => rfl, fun _ => rfl, fun _ => rfl, fun _ => rfl, fun h => hM.absurd (i := 7) rfl h, fun _ => rfl, fun h => hM.absurd (i := 9) rfl h, fun _ => rfl, fun _ => rfl, fun h => hM.absurd (i := 12) rfl h, fun h => hM.absurd (i := 13) rfl h, fun _ => rfl, fun h => hM.absurd (i := 15) rfl h, fun _ => rfl, fun _ => rfl, fun _ => rfl, fun _ => rfl, fun h => hM.absurd (i := 20) rfl h, fun h => hM.absurd (i := 21) rfl h, fun _ => rfl, fun _ => rfl, fun h => hM.absurd (i := 24) rfl h, fun _ => rfl⟩⟩

theorem Keeps.upd_nv_net {M : Nat} {r x : State} {nv' : Nvme} {net' : Net} (h : Keeps M r x) (hM : Sub 2097280 M := by exact ‹Sub _ M›.of rfl) :
    Keeps M r ⟨x.pending, x.regs, x.mem, x.free, x.tick, x.variant, x.feat, x.pbk, x.pow, nv', x.ftl, x.media, x.ten, x.prog, x.dram, x.mat, x.comp, x.scan, x.dig, x.keys, x.sch, x.cores, x.clus, net', x.mgt, x.bus, x.acc, x.dirty⟩ :=
  h.trans ⟨rfl, rfl, le_rfl, id, id, id,
    ⟨fun _ => rfl, fun _ => rfl, fun _ => rfl, fun _ => rfl, fun _ => rfl, fun _ => rfl, fun _ => rfl, fun h => hM.absurd (i := 7) rfl h, fun _ => rfl, fun _ => rfl, fun _ => rfl, fun _ => rfl, fun _ => rfl, fun _ => rfl, fun _ => rfl, fun _ => rfl, fun _ => rfl, fun _ => rfl, fun _ => rfl, fun _ => rfl, fun _ => rfl, fun h => hM.absurd (i := 21) rfl h, fun _ => rfl, fun _ => rfl, fun _ => rfl, fun _ => rfl⟩⟩

theorem Keeps.upd_nv_prog {M : Nat} {r x : State} {nv' : Nvme} {prog' : Progs} (h : Keeps M r x) (hM : Sub 2176 M := by exact ‹Sub _ M›.of rfl) :
    Keeps M r ⟨x.pending, x.regs, x.mem, x.free, x.tick, x.variant, x.feat, x.pbk, x.pow, nv', x.ftl, x.media, x.ten, prog', x.dram, x.mat, x.comp, x.scan, x.dig, x.keys, x.sch, x.cores, x.clus, x.net, x.mgt, x.bus, x.acc, x.dirty⟩ :=
  h.trans ⟨rfl, rfl, le_rfl, id, id, id,
    ⟨fun _ => rfl, fun _ => rfl, fun _ => rfl, fun _ => rfl, fun _ => rfl, fun _ => rfl, fun _ => rfl, fun h => hM.absurd (i := 7) rfl h, fun _ => rfl, fun _ => rfl, fun _ => rfl, fun h => hM.absurd (i := 11) rfl h, fun _ => rfl, fun _ => rfl, fun _ => rfl, fun _ => rfl, fun _ => rfl, fun _ => rfl, fun _ => rfl, fun _ => rfl, fun _ => rfl, fun _ => rfl, fun _ => rfl, fun _ => rfl, fun _ => rfl, fun _ => rfl⟩⟩

theorem Keeps.upd_nv_ten {M : Nat} {r x : State} {nv' : Nvme} {ten' : Ten} (h : Keeps M r x) (hM : Sub 1152 M := by exact ‹Sub _ M›.of rfl) :
    Keeps M r ⟨x.pending, x.regs, x.mem, x.free, x.tick, x.variant, x.feat, x.pbk, x.pow, nv', x.ftl, x.media, ten', x.prog, x.dram, x.mat, x.comp, x.scan, x.dig, x.keys, x.sch, x.cores, x.clus, x.net, x.mgt, x.bus, x.acc, x.dirty⟩ :=
  h.trans ⟨rfl, rfl, le_rfl, id, id, id,
    ⟨fun _ => rfl, fun _ => rfl, fun _ => rfl, fun _ => rfl, fun _ => rfl, fun _ => rfl, fun _ => rfl, fun h => hM.absurd (i := 7) rfl h, fun _ => rfl, fun _ => rfl, fun h => hM.absurd (i := 10) rfl h, fun _ => rfl, fun _ => rfl, fun _ => rfl, fun _ => rfl, fun _ => rfl, fun _ => rfl, fun _ => rfl, fun _ => rfl, fun _ => rfl, fun _ => rfl, fun _ => rfl, fun _ => rfl, fun _ => rfl, fun _ => rfl, fun _ => rfl⟩⟩

theorem Keeps.upd_nv_ten_net {M : Nat} {r x : State} {nv' : Nvme} {ten' : Ten} {net' : Net} (h : Keeps M r x) (hM : Sub 2098304 M := by exact ‹Sub _ M›.of rfl) :
    Keeps M r ⟨x.pending, x.regs, x.mem, x.free, x.tick, x.variant, x.feat, x.pbk, x.pow, nv', x.ftl, x.media, ten', x.prog, x.dram, x.mat, x.comp, x.scan, x.dig, x.keys, x.sch, x.cores, x.clus, net', x.mgt, x.bus, x.acc, x.dirty⟩ :=
  h.trans ⟨rfl, rfl, le_rfl, id, id, id,
    ⟨fun _ => rfl, fun _ => rfl, fun _ => rfl, fun _ => rfl, fun _ => rfl, fun _ => rfl, fun _ => rfl, fun h => hM.absurd (i := 7) rfl h, fun _ => rfl, fun _ => rfl, fun h => hM.absurd (i := 10) rfl h, fun _ => rfl, fun _ => rfl, fun _ => rfl, fun _ => rfl, fun _ => rfl, fun _ => rfl, fun _ => rfl, fun _ => rfl, fun _ => rfl, fun _ => rfl, fun h => hM.absurd (i := 21) rfl h, fun _ => rfl, fun _ => rfl, fun _ => rfl, fun _ => rfl⟩⟩

theorem Keeps.upd_nv_ten_prog {M : Nat} {r x : State} {nv' : Nvme} {ten' : Ten} {prog' : Progs} (h : Keeps M r x) (hM : Sub 3200 M := by exact ‹Sub _ M›.of rfl) :
    Keeps M r ⟨x.pending, x.regs, x.mem, x.free, x.tick, x.variant, x.feat, x.pbk, x.pow, nv', x.ftl, x.media, ten', prog', x.dram, x.mat, x.comp, x.scan, x.dig, x.keys, x.sch, x.cores, x.clus, x.net, x.mgt, x.bus, x.acc, x.dirty⟩ :=
  h.trans ⟨rfl, rfl, le_rfl, id, id, id,
    ⟨fun _ => rfl, fun _ => rfl, fun _ => rfl, fun _ => rfl, fun _ => rfl, fun _ => rfl, fun _ => rfl, fun h => hM.absurd (i := 7) rfl h, fun _ => rfl, fun _ => rfl, fun h => hM.absurd (i := 10) rfl h, fun h => hM.absurd (i := 11) rfl h, fun _ => rfl, fun _ => rfl, fun _ => rfl, fun _ => rfl, fun _ => rfl, fun _ => rfl, fun _ => rfl, fun _ => rfl, fun _ => rfl, fun _ => rfl, fun _ => rfl, fun _ => rfl, fun _ => rfl, fun _ => rfl⟩⟩

theorem Keeps.upd_nv_ten_prog_dram_mat_comp_dig_keys_sch_clus_mgt_bus_dirty {M : Nat} {r x : State} {nv' : Nvme} {ten' : Ten} {prog' : Progs} {dram' : Dram} {mat' : Mat} {comp' : Comp} {dig' : Dig} {keys' : Keys} {sch' : Sch} {clus' : SMap Clus} {mgt' : Mgt} {bus' : BusSt} {dirty' : SMap DirtyLine} (h : Keeps M r x) (hM : Sub 47676544 M := by exact ‹Sub _ M›.of rfl) :
    Keeps M r ⟨x.pending, x.regs, x.mem, x.free, x.tick, x.variant, x.feat, x.pbk, x.pow, nv', x.ftl, x.media, ten', prog', dram', mat', comp', x.scan, dig', keys', sch', x.cores, clus', x.net, mgt', bus', x.acc, dirty'⟩ :=
  h.trans ⟨rfl, rfl, le_rfl, id, id, id,
    ⟨fun _ => rfl, fun _ => rfl, fun _ => rfl, fun _ => rfl, fun _ => rfl, fun _ => rfl, fun _ => rfl, fun h => hM.absurd (i := 7) rfl h, fun _ => rfl, fun _ => rfl, fun h => hM.absurd (i := 10) rfl h, fun h => hM.absurd (i := 11) rfl h, fun h => hM.absurd (i := 12) rfl h, fun h => hM.absurd (i := 13) rfl h, fun h => hM.absurd (i := 14) rfl h, fun _ => rfl, fun h => hM.absurd (i := 16) rfl h, fun h => hM.absurd (i := 17) rfl h, fun h => hM.absurd (i := 18) rfl h, fun _ => rfl, fun h => hM.absurd (i := 20) rfl h, fun _ => rfl, fun h => hM.absurd (i := 22) rfl h, fun h => hM.absurd (i := 23) rfl h, fun _ => rfl, fun h => hM.absurd (i := 25) rfl h⟩⟩

theorem Keeps.upd_pow {M : Nat} {r x : State} {pow' : Pow} (h : Keeps M r x) (hM : Sub 64 M := by exact ‹Sub _ M›.of rfl) :
    Keeps M r ⟨x.pending, x.regs, x.mem, x.free, x.tick, x.variant, x.feat, x.pbk, pow', x.nv, x.ftl, x.media, x.ten, x.prog, x.dram, x.mat, x.comp, x.scan, x.dig, x.keys, x.sch, x.cores, x.clus, x.net, x.mgt, x.bus, x.acc, x.dirty⟩ :=
  h.trans ⟨rfl, rfl, le_rfl, id, id, id,
    ⟨fun _ => rfl, fun _ => rfl, fun _ => rfl, fun _ => rfl, fun _ => rfl, fun _ => rfl, fun h => hM.absurd (i := 6) rfl h, fun _ => rfl, fun _ => rfl, fun _ => rfl, fun _ => rfl, fun _ => rfl, fun _ => rfl, fun _ => rfl, fun _ => rfl, fun _ => rfl, fun _ => rfl, fun _ => rfl, fun _ => rfl, fun _ => rfl, fun _ => rfl, fun _ => rfl, fun _ => rfl, fun _ => rfl, fun _ => rfl, fun _ => rfl⟩⟩

theorem Keeps.updP_pow {M : Nat} {r x : State} {pow' : Pow} {p : Pbk} (g : LanesOk x.pbk → LanesOk p) (h : Keeps M r x) (hM : Sub 96 M := by exact ‹Sub _ M›.of rfl) :
    Keeps M r ⟨x.pending, x.regs, x.mem, x.free, x.tick, x.variant, x.feat, p, pow', x.nv, x.ftl, x.media, x.ten, x.prog, x.dram, x.mat, x.comp, x.scan, x.dig, x.keys, x.sch, x.cores, x.clus, x.net, x.mgt, x.bus, x.acc, x.dirty⟩ :=
  h.trans ⟨rfl, rfl, le_rfl, id, id, g,
    ⟨fun _ => rfl, fun _ => rfl, fun _ => rfl, fun _ => rfl, fun _ => rfl, fun h => hM.absurd (i := 5) rfl h, fun h => hM.absurd (i := 6) rfl h, fun _ => rfl, fun _ => rfl, fun _ => rfl, fun _ => rfl, fun _ => rfl, fun _ => rfl, fun _ => rfl, fun _ => rfl, fun _ => rfl, fun _ => rfl, fun _ => rfl, fun _ => rfl, fun _ => rfl, fun _ => rfl, fun _ => rfl, fun _ => rfl, fun _ => rfl, fun _ => rfl, fun _ => rfl⟩⟩

theorem Keeps.updR_pow {M : Nat} {r x : State} {pow' : Pow} {h0 h1 : List Ev} {co : List Coal} {sg : SMap Seg} {sa : Nat} {wi : SMap (List Postmark)}
    {td un mw : List Nat} {as : Bool} {te hr hf : List Postmark} {cs sm : Bool} (h : Keeps M r x) (hM : Sub 96 M := by exact ‹Sub _ M›.of rfl) :
    Keeps M r ⟨x.pending, x.regs, x.mem, x.free, x.tick, x.variant, x.feat, ⟨x.pbk.q0, x.pbk.q1, x.pbk.q2, x.pbk.q3, h0, h1, co, x.pbk.ram, sg, sa, wi, td, un, as, mw, te, hr, hf, cs, sm⟩, pow', x.nv, x.ftl, x.media, x.ten, x.prog, x.dram, x.mat, x.comp, x.scan, x.dig, x.keys, x.sch, x.cores, x.clus, x.net, x.mgt, x.bus, x.acc, x.dirty⟩ :=
  h.trans ⟨rfl, rfl, le_rfl, id, id, id,
    ⟨fun _ => rfl, fun _ => rfl, fun _ => rfl, fun _ => rfl, fun _ => rfl, fun h => hM.absurd (i := 5) rfl h, fun h => hM.absurd (i := 6) rfl h, fun _ => rfl, fun _ => rfl, fun _ => rfl, fun _ => rfl, fun _ => rfl, fun _ => rfl, fun _ => rfl, fun _ => rfl, fun _ => rfl, fun _ => rfl, fun _ => rfl, fun _ => rfl, fun _ => rfl, fun _ => rfl, fun _ => rfl, fun _ => rfl, fun _ => rfl, fun _ => rfl, fun _ => rfl⟩⟩

theorem Keeps.upd_pow_nv {M : Nat} {r x : State} {pow' : Pow} {nv' : Nvme} (h : Keeps M r x) (hM : Sub 192 M := by exact ‹Sub _ M›.of rfl) :
    Keeps M r ⟨x.pending, x.regs, x.mem, x.free, x.tick, x.variant, x.feat, x.pbk, pow', nv', x.ftl, x.media, x.ten, x.prog, x.dram, x.mat, x.comp, x.scan, x.dig, x.keys, x.sch, x.cores, x.clus, x.net, x.mgt, x.bus, x.acc, x.dirty⟩ :=
  h.trans ⟨rfl, rfl, le_rfl, id, id, id,
    ⟨fun _ => rfl, fun _ => rfl, fun _ => rfl, fun _ => rfl, fun _ => rfl, fun _ => rfl, fun h => hM.absurd (i := 6) rfl h, fun h => hM.absurd (i := 7) rfl h, fun _ => rfl, fun _ => rfl, fun _ => rfl, fun _ => rfl, fun _ => rfl, fun _ => rfl, fun _ => rfl, fun _ => rfl, fun _ => rfl, fun _ => rfl, fun _ => rfl, fun _ => rfl, fun _ => rfl, fun _ => rfl, fun _ => rfl, fun _ => rfl, fun _ => rfl, fun _ => rfl⟩⟩

theorem Keeps.upd_pow_nv_prog {M : Nat} {r x : State} {pow' : Pow} {nv' : Nvme} {prog' : Progs} (h : Keeps M r x) (hM : Sub 2240 M := by exact ‹Sub _ M›.of rfl) :
    Keeps M r ⟨x.pending, x.regs, x.mem, x.free, x.tick, x.variant, x.feat, x.pbk, pow', nv', x.ftl, x.media, x.ten, prog', x.dram, x.mat, x.comp, x.scan, x.dig, x.keys, x.sch, x.cores, x.clus, x.net, x.mgt, x.bus, x.acc, x.dirty⟩ :=
  h.trans ⟨rfl, rfl, le_rfl, id, id, id,
    ⟨fun _ => rfl, fun _ => rfl, fun _ => rfl, fun _ => rfl, fun _ => rfl, fun _ => rfl, fun h => hM.absurd (i := 6) rfl h, fun h => hM.absurd (i := 7) rfl h, fun _ => rfl, fun _ => rfl, fun _ => rfl, fun h => hM.absurd (i := 11) rfl h, fun _ => rfl, fun _ => rfl, fun _ => rfl, fun _ => rfl, fun _ => rfl, fun _ => rfl, fun _ => rfl, fun _ => rfl, fun _ => rfl, fun _ => rfl, fun _ => rfl, fun _ => rfl, fun _ => rfl, fun _ => rfl⟩⟩

theorem Keeps.upd_prog {M : Nat} {r x : State} {prog' : Progs} (h : Keeps M r x) (hM : Sub 2048 M := by exact ‹Sub _ M›.of rfl) :
    Keeps M r ⟨x.pending, x.regs, x.mem, x.free, x.tick, x.variant, x.feat, x.pbk, x.pow, x.nv, x.ftl, x.media, x.ten, prog', x.dram, x.mat, x.comp, x.scan, x.dig, x.keys, x.sch, x.cores, x.clus, x.net, x.mgt, x.bus, x.acc, x.dirty⟩ :=
  h.trans ⟨rfl, rfl, le_rfl, id, id, id,
    ⟨fun _ => rfl, fun _ => rfl, fun _ => rfl, fun _ => rfl, fun _ => rfl, fun _ => rfl, fun _ => rfl, fun _ => rfl, fun _ => rfl, fun _ => rfl, fun _ => rfl, fun h => hM.absurd (i := 11) rfl h, fun _ => rfl, fun _ => rfl, fun _ => rfl, fun _ => rfl, fun _ => rfl, fun _ => rfl, fun _ => rfl, fun _ => rfl, fun _ => rfl, fun _ => rfl, fun _ => rfl, fun _ => rfl, fun _ => rfl, fun _ => rfl⟩⟩

theorem Keeps.upd_prog_cores {M : Nat} {r x : State} {prog' : Progs} {cores' : SMap Core} (h : Keeps M r x) (hM : Sub 526336 M := by exact ‹Sub _ M›.of rfl) :
    Keeps M r ⟨x.pending, x.regs, x.mem, x.free, x.tick, x.variant, x.feat, x.pbk, x.pow, x.nv, x.ftl, x.media, x.ten, prog', x.dram, x.mat, x.comp, x.scan, x.dig, x.keys, x.sch, cores', x.clus, x.net, x.mgt, x.bus, x.acc, x.dirty⟩ :=
  h.trans ⟨rfl, rfl, le_rfl, id, id, id,
    ⟨fun _ => rfl, fun _ => rfl, fun _ => rfl, fun _ => rfl, fun _ => rfl, fun _ => rfl, fun _ => rfl, fun _ => rfl, fun _ => rfl, fun _ => rfl, fun _ => rfl, fun h => hM.absurd (i := 11) rfl h, fun _ => rfl, fun _ => rfl, fun _ => rfl, fun _ => rfl, fun _ => rfl, fun _ => rfl, fun _ => rfl, fun h => hM.absurd (i := 19) rfl h, fun _ => rfl, fun _ => rfl, fun _ => rfl, fun _ => rfl, fun _ => rfl, fun _ => rfl⟩⟩

theorem Keeps.updF_prog_cores {M : Nat} {r x : State} {prog' : Progs} {cores' : SMap Core} {n : Nat} (h : Keeps M r x) (hM : Sub 526340 M := by exact ‹Sub _ M›.of rfl) :
    Keeps M r ⟨x.pending, x.regs, x.mem, x.free + n, x.tick, x.variant, x.feat, x.pbk, x.pow, x.nv, x.ftl, x.media, x.ten, prog', x.dram, x.mat, x.comp, x.scan, x.dig, x.keys, x.sch, cores', x.clus, x.net, x.mgt, x.bus, x.acc, x.dirty⟩ :=
  h.trans ⟨rfl, rfl, Nat.le_add_right _ _, id, id, id,
    ⟨fun _ => rfl, fun _ => rfl, fun h => hM.absurd (i := 2) rfl h, fun _ => rfl, fun _ => rfl, fun _ => rfl, fun _ => rfl, fun _ => rfl, fun _ => rfl, fun _ => rfl, fun _ => rfl, fun h => hM.absurd (i := 11) rfl h, fun _ => rfl, fun _ => rfl, fun _ => rfl, fun _ => rfl, fun _ => rfl, fun _ => rfl, fun _ => rfl, fun h => hM.absurd (i := 19) rfl h, fun _ => rfl, fun _ => rfl, fun _ => rfl, fun _ => rfl, fun _ => rfl, fun _ => rfl⟩⟩

theorem Keeps.upd_prog_scan {M : Nat} {r x : State} {prog' : Progs} {scan' : Scans} (h : Keeps M r x) (hM : Sub 34816 M := by exact ‹Sub _ M›.of rfl) :
    Keeps M r ⟨x.pending, x.regs, x.mem, x.free, x.tick, x.variant, x.feat, x.pbk, x.pow, x.nv, x.ftl, x.media, x.ten, prog', x.dram, x.mat, x.comp, scan', x.dig, x.keys, x.sch, x.cores, x.clus, x.net, x.mgt, x.bus, x.acc, x.dirty⟩ :=
  h.trans ⟨rfl, rfl, le_rfl, id, id, id,
    ⟨fun _ => rfl, fun _ => rfl, fun _ => rfl, fun _ => rfl, fun _ => rfl, fun _ => rfl, fun _ => rfl, fun _ => rfl, fun _ => rfl, fun _ => rfl, fun _ => rfl, fun h => hM.absurd (i := 11) rfl h, fun _ => rfl, fun _ => rfl, fun _ => rfl, fun h => hM.absurd (i := 15) rfl h, fun _ => rfl, fun _ => rfl, fun _ => rfl, fun _ => rfl, fun _ => rfl, fun _ => rfl, fun _ => rfl, fun _ => rfl, fun _ => rfl, fun _ => rfl⟩⟩

theorem Keeps.upd_scan {M : Nat} {r x : State} {scan' : Scans} (h : Keeps M r x) (hM : Sub 32768 M := by exact ‹Sub _ M›.of rfl) :
    Keeps M r ⟨x.pending, x.regs, x.mem, x.free, x.tick, x.variant, x.feat, x.pbk, x.pow, x.nv, x.ftl, x.media, x.ten, x.prog, x.dram, x.mat, x.comp, scan', x.dig, x.keys, x.sch, x.cores, x.clus, x.net, x.mgt, x.bus, x.acc, x.dirty⟩ :=
  h.trans ⟨rfl, rfl, le_rfl, id, id, id,
    ⟨fun _ => rfl, fun _ => rfl, fun _ => rfl, fun _ => rfl, fun _ => rfl, fun _ => rfl, fun _ => rfl, fun _ => rfl, fun _ => rfl, fun _ => rfl, fun _ => rfl, fun _ => rfl, fun _ => rfl, fun _ => rfl, fun _ => rfl, fun h => hM.absurd (i := 15) rfl h, fun _ => rfl, fun _ => rfl, fun _ => rfl, fun _ => rfl, fun _ => rfl, fun _ => rfl, fun _ => rfl, fun _ => rfl, fun _ => rfl, fun _ => rfl⟩⟩

theorem Keeps.upd_sch {M : Nat} {r x : State} {sch' : Sch} (h : Keeps M r x) (hM : Sub 262144 M := by exact ‹Sub _ M›.of rfl) :
    Keeps M r ⟨x.pending, x.regs, x.mem, x.free, x.tick, x.variant, x.feat, x.pbk, x.pow, x.nv, x.ftl, x.media, x.ten, x.prog, x.dram, x.mat, x.comp, x.scan, x.dig, x.keys, sch', x.cores, x.clus, x.net, x.mgt, x.bus, x.acc, x.dirty⟩ :=
  h.trans ⟨rfl, rfl, le_rfl, id, id, id,
    ⟨fun _ => rfl, fun _ => rfl, fun _ => rfl, fun _ => rfl, fun _ => rfl, fun _ => rfl, fun _ => rfl, fun _ => rfl, fun _ => rfl, fun _ => rfl, fun _ => rfl, fun _ => rfl, fun _ => rfl, fun _ => rfl, fun _ => rfl, fun _ => rfl, fun _ => rfl, fun _ => rfl, fun h => hM.absurd (i := 18) rfl h, fun _ => rfl, fun _ => rfl, fun _ => rfl, fun _ => rfl, fun _ => rfl, fun _ => rfl, fun _ => rfl⟩⟩

theorem Keeps.upd_ten {M : Nat} {r x : State} {ten' : Ten} (h : Keeps M r x) (hM : Sub 1024 M := by exact ‹Sub _ M›.of rfl) :
    Keeps M r ⟨x.pending, x.regs, x.mem, x.free, x.tick, x.variant, x.feat, x.pbk, x.pow, x.nv, x.ftl, x.media, ten', x.prog, x.dram, x.mat, x.comp, x.scan, x.dig, x.keys, x.sch, x.cores, x.clus, x.net, x.mgt, x.bus, x.acc, x.dirty⟩ :=
  h.trans ⟨rfl, rfl, le_rfl, id, id, id,
    ⟨fun _ => rfl, fun _ => rfl, fun _ => rfl, fun _ => rfl, fun _ => rfl, fun _ => rfl, fun _ => rfl, fun _ => rfl, fun _ => rfl, fun _ => rfl, fun h => hM.absurd (i := 10) rfl h, fun _ => rfl, fun _ => rfl, fun _ => rfl, fun _ => rfl, fun _ => rfl, fun _ => rfl, fun _ => rfl, fun _ => rfl, fun _ => rfl, fun _ => rfl, fun _ => rfl, fun _ => rfl, fun _ => rfl, fun _ => rfl, fun _ => rfl⟩⟩

theorem Keeps.upd_clus_dirty {M : Nat} {r x : State} {clus' : SMap Clus} {dirty' : SMap DirtyLine} (h : Keeps M r x) (hM : Sub 34603008 M := by exact ‹Sub _ M›.of rfl) :
    Keeps M r ⟨x.pending, x.regs, x.mem, x.free, x.tick, x.variant, x.feat, x.pbk, x.pow, x.nv, x.ftl, x.media, x.ten, x.prog, x.dram, x.mat, x.comp, x.scan, x.dig, x.keys, x.sch, x.cores, clus', x.net, x.mgt, x.bus, x.acc, dirty'⟩ :=
  h.trans ⟨rfl, rfl, le_rfl, id, id, id,
    ⟨fun _ => rfl, fun _ => rfl, fun _ => rfl, fun _ => rfl, fun _ => rfl, fun _ => rfl, fun _ => rfl, fun _ => rfl, fun _ => rfl, fun _ => rfl, fun _ => rfl, fun _ => rfl, fun _ => rfl, fun _ => rfl, fun _ => rfl, fun _ => rfl, fun _ => rfl, fun _ => rfl, fun _ => rfl, fun _ => rfl, fun h => hM.absurd (i := 20) rfl h, fun _ => rfl, fun _ => rfl, fun _ => rfl, fun _ => rfl, fun h => hM.absurd (i := 25) rfl h⟩⟩

end Sys2Proof.Machine
end

