-- ==== Sys2Proof/Laws/State.lean ====
section
/-! SUPPORT. Registers and their fields after each way of setting one, and the parts of the state after each. -/

set_option Elab.async false

namespace Sys2Proof.Machine

/-! ### Registers -/

@[simp] theorem rd_wr_self (a : Nat) (v : Word) (s : State) : rd a (wr a v s) = v := SMap.getD_put_self _ _ _ _

theorem rd_wr_ne {a b : Nat} (v : Word) (s : State) (h : b ≠ a) : rd b (wr a v s) = rd b s := SMap.getD_put_ne _ _ _ h

theorem rd_wr (a b : Nat) (v : Word) (s : State) : rd b (wr a v s) = if b = a then v else rd b s := by
  split
  · subst_vars
    exact rd_wr_self _ _ _
  · exact rd_wr_ne _ _ ‹_›

/-- Registers are read from the register part alone. -/
theorem rd_congr {s t : State} (h : t.regs = s.regs) (a : Nat) : rd a t = rd a s := by
  unfold rd
  rw [h]

theorem fget_congr {s t : State} (h : t.regs = s.regs) (f : Fld) : fget f t = fget f s := by
  unfold fget
  rw [rd_congr h]

/-! ### Fields -/

theorem insertField_getLsbD (v : Word) (lo w x i : Nat) :
    (insertField v lo w x).getLsbD i =
      if lo ≤ i ∧ i < lo + w then (decide (i < 64) && x.testBit (i - lo)) else v.getLsbD i := by
  unfold insertField
  simp only [BitVec.getLsbD_or, BitVec.getLsbD_and, BitVec.getLsbD_not, BitVec.getLsbD_shiftLeft, BitVec.getLsbD_setWidth,
    BitVec.getLsbD_allOnes, BitVec.getLsbD_ofNat]
  by_cases h64 : i < 64
  · by_cases h1 : lo ≤ i
    · by_cases h2 : i < lo + w
      · have h3 : i - lo < w := by omega
        have h4 : i - lo < 64 := by omega
        have h5 : ¬ i < lo := by omega
        simp [h64, h1, h2, h3, h4, h5]
      · have h3 : ¬ i - lo < w := by omega
        have h4 : i - lo < 64 := by omega
        simp [h64, h1, h2, h3]
    · have h5 : i < lo := by omega
      simp [h64, h1, h5]
  · have h : v.getLsbD i = false := BitVec.getLsbD_of_ge v i (by omega)
    simp [h64, h]

/-- A field reads back what was put into it, cut to its width. -/
theorem extractField_insertField_self (v : Word) (lo w x : Nat) (h : lo + w ≤ 64) :
    extractField (insertField v lo w x) lo w = x % 2 ^ w := by
  unfold extractField
  apply Nat.eq_of_testBit_eq
  intro i
  rw [← BitVec.getLsbD, BitVec.getLsbD_extractLsb', insertField_getLsbD, Nat.testBit_mod_two_pow]
  by_cases hi : i < w
  · simp [hi, show lo + i < 64 by omega]
  · simp [hi]

/-- A field that does not overlap another keeps its value. -/
theorem extractField_insertField_ne (v : Word) (lo w x lo' w' : Nat) (h : lo + w ≤ lo' ∨ lo' + w' ≤ lo) :
    extractField (insertField v lo w x) lo' w' = extractField v lo' w' := by
  unfold extractField
  congr 1
  apply BitVec.eq_of_getLsbD_eq
  intro i hi
  rw [BitVec.getLsbD_extractLsb', BitVec.getLsbD_extractLsb', insertField_getLsbD]
  have : ¬ (lo ≤ lo' + i ∧ lo' + i < lo + w) := by omega
  simp [this]

theorem fget_fset_self (f : Fld) (v : Nat) (s : State) (h : f.lo + f.w ≤ 64) : fget f (fset f v s) = v % 2 ^ f.w := by
  unfold fget fset
  rw [rd_wr_self, extractField_insertField_self _ _ _ _ h]

/-- A field of another register, or of other bits of the same one, stays. -/
theorem fget_fset_ne (f g : Fld) (v : Nat) (s : State) (h : g.addr ≠ f.addr ∨ f.lo + f.w ≤ g.lo ∨ g.lo + g.w ≤ f.lo) :
    fget g (fset f v s) = fget g s := by
  unfold fget fset
  by_cases e : g.addr = f.addr
  · rw [e, rd_wr_self, extractField_insertField_ne _ _ _ _ _ _ (h.resolve_left (fun n => n e))]
  · rw [rd_wr_ne _ _ e]

theorem rd_fset_ne (f : Fld) (v a : Nat) (s : State) (h : a ≠ f.addr) : rd a (fset f v s) = rd a s := rd_wr_ne _ _ h

theorem fget_wr_ne (f : Fld) (a : Nat) (v : Word) (s : State) (h : f.addr ≠ a) : fget f (wr a v s) = fget f s := by
  unfold fget
  rw [rd_wr_ne _ _ h]

theorem fget_lt (f : Fld) (s : State) : fget f s < 2 ^ f.w := BitVec.isLt _

/-- A field set to what it holds changes nothing. -/
theorem fset_getLsbD (f : Fld) (v i : Nat) (s : State) (h : ¬ (f.lo ≤ i ∧ i < f.lo + f.w)) :
    (rd f.addr (fset f v s)).getLsbD i = (rd f.addr s).getLsbD i := by
  unfold fset
  rw [rd_wr_self, insertField_getLsbD]
  simp only [h, if_false]

/-! ### Postmarks -/

/-- The registers a postmark can touch: STATUS, DROP2, DROP3 and EVENT of the event recorder. -/
def pbkRegs : List Nat := [Reg.PBK_STATUS, Reg.PBK_DROP2, Reg.PBK_DROP3, Reg.PBK_EVENT]

theorem rd_cntAdd_ne (a b w n : Nat) (s : State) (h : b ≠ a) : rd b (cntAdd a w n s) = rd b s := rd_wr_ne _ _ h

theorem rd_enterLane (e : Ev) (a : Nat) (s : State) (h : a ∉ pbkRegs) : rd a (enterLane e s) = rd a s := by
  simp only [pbkRegs, List.mem_cons, List.not_mem_nil, or_false, not_or] at h
  unfold enterLane
  dsimp only
  repeat' split
  all_goals first
    | rfl
    | (rw [rd_fset_ne _ _ _ _ h.2.2.2, rd_cntAdd_ne _ _ _ _ _ (by first | exact h.2.1 | exact h.2.2.1 | (split <;> simp [h]))]
       rfl)

theorem rd_postmark (code src : Nat) (args : List Nat) (a : Nat) (s : State) (h : a ∉ pbkRegs) :
    rd a (postmark code src args s) = rd a s := by
  unfold postmark pbkPending
  dsimp only
  rw [rd_fset_ne _ _ _ _ (by simp only [pbkRegs, List.mem_cons, not_or] at h; exact h.1), rd_enterLane _ _ _ h]

theorem fget_postmark (code src : Nat) (args : List Nat) (f : Fld) (s : State) (h : f.addr ∉ pbkRegs) :
    fget f (postmark code src args s) = fget f s := by
  unfold fget
  rw [rd_postmark _ _ _ _ _ h]

/-- An EVENT bit is set after it is raised. -/
theorem fget_raiseEvent_self (g i : Nat) (f : Fld) (s : State) (h : f.addr ∉ pbkRegs) (hw : f.w = 1) (hl : f.lo < 64) :
    fget f (raiseEvent g i f s) = 1 := by
  unfold raiseEvent
  dsimp only
  rw [fget_postmark _ _ _ _ _ h, fget_fset_self _ _ _ (by omega), hw]
  rfl

theorem rd_raiseEvent_ne (g i : Nat) (f : Fld) (a : Nat) (s : State) (h : a ∉ pbkRegs) (ha : a ≠ f.addr) :
    rd a (raiseEvent g i f s) = rd a s := by
  unfold raiseEvent
  dsimp only
  rw [rd_postmark _ _ _ _ _ h, rd_fset_ne _ _ _ _ ha]

end Sys2Proof.Machine
end

