-- ==== Sys2Proof/Laws/Commands.lean ====
section
/-! SUPPORT. Host commands: what ending a command leaves, where nothing else waits for it. -/

set_option Elab.async false

namespace Sys2Proof.Machine

theorem find_unique {α : Type} {p : α → Bool} {l : List α} {x : α} (hx : x ∈ l) (hp : p x = true) (hu : ∀ y ∈ l, p y = true → y = x) :
    l.find? p = some x := by
  cases h : l.find? p with
  | none =>
    have := List.find?_eq_none.mp h x hx
    simp [hp] at this
  | some y => rw [hu y (List.mem_of_find?_eq_some h) (List.find?_some h)]

theorem SMap_find_upd_self {α : Type} (m : SMap α) (a : Nat) (f : α → α) : SMap.find (SMap.upd m a f) a = (SMap.find m a).map f := by
  unfold SMap.upd
  cases h : SMap.find m a with
  | none => simp [h]
  | some v => simp [SMap.find_put_self]

theorem SMap_find_upd_ne {α : Type} (m : SMap α) {a b : Nat} (f : α → α) (hb : b ≠ a) : SMap.find (SMap.upd m a f) b = SMap.find m b := by
  unfold SMap.upd
  cases h : SMap.find m a with
  | none => rfl
  | some v => exact SMap.find_put_ne _ _ hb

/-- A map over the entries of a map that keeps their keys. -/
theorem SMap_find_map {α : Type} (m : SMap α) (f : Nat × α → Nat × α) (hk : ∀ e, (f e).1 = e.1) (a : Nat) :
    SMap.find (m.map f) a = (SMap.find m a).map (fun v => (f (a, v)).2) := by
  induction m with
  | nil => rfl
  | cons e t ih =>
    obtain ⟨k, v⟩ := e
    have h := hk (k, v)
    simp only [List.map_cons]
    rw [show f (k, v) = (k, (f (k, v)).2) from Prod.ext h rfl]
    simp only [SMap.find]
    split
    · subst_vars
      rfl
    · exact ih

theorem cmdAt_mem {tag : Nat} {x : Cmd} {s : State} (h : cmdAt tag s = some x) : x ∈ s.nv.cmds ∧ x.tag = tag := by
  unfold cmdAt at h
  exact ⟨List.mem_of_find?_eq_some h, by simpa using List.find?_some h⟩

theorem ctrlAt_congr {s t : State} (h : t.nv.ctrls = s.nv.ctrls) (c : Nat) : ctrlAt c t = ctrlAt c s := by
  unfold ctrlAt
  rw [h]

theorem sqAt_congr {s t : State} (h : t.nv.ctrls = s.nv.ctrls) (c q : Nat) : sqAt c q t = sqAt c q s := by
  unfold sqAt
  rw [ctrlAt_congr h]

theorem cqAt_congr {s t : State} (h : t.nv.ctrls = s.nv.ctrls) (c q : Nat) : cqAt c q t = cqAt c q s := by
  unfold cqAt
  rw [ctrlAt_congr h]

theorem ctrlAt_updCtrl_self (c : Nat) (f : Ctrl → Ctrl) (s : State) : ctrlAt c (updCtrl c f s) = (ctrlAt c s).map f := by
  unfold ctrlAt updCtrl
  dsimp only
  rw [SMap_find_upd_self]

theorem ctrlAt_updCtrl_ne {c d : Nat} (f : Ctrl → Ctrl) (s : State) (h : d ≠ c) : ctrlAt d (updCtrl c f s) = ctrlAt d s := by
  unfold ctrlAt updCtrl
  dsimp only
  rw [SMap_find_upd_ne _ _ h]

theorem cqAt_updCq_self (c q : Nat) (f : Cq → Cq) (s : State) : cqAt c q (updCq c q f s) = (cqAt c q s).map f := by
  unfold cqAt updCq
  rw [ctrlAt_updCtrl_self]
  cases ctrlAt c s with
  | none => rfl
  | some x => simp [SMap_find_upd_self]

theorem sqAt_updCq (c q d r : Nat) (f : Cq → Cq) (s : State) : sqAt d r (updCq c q f s) = sqAt d r s := by
  unfold sqAt updCq
  by_cases h : d = c
  · subst h
    rw [ctrlAt_updCtrl_self]
    cases ctrlAt d s <;> rfl
  · rw [ctrlAt_updCtrl_ne _ _ h]

/-! ### Settling -/

theorem showTags_nv (s : State) : (showTags s).nv = s.nv := by
  unfold showTags
  simp

theorem showTags_eq (s : State) : showTags s = { s with regs := (showTags s).regs } := by
  unfold showTags
  rfl

theorem ctrlAt_shutdownProgress (c : Nat) (s : State) : ∃ n : Ctrl → Nat, ctrlAt c (shutdownProgress s) = (ctrlAt c s).map (fun x => { x with shst := n x }) := by
  refine ⟨fun x => if x.shst = 1 ∧ x.ckpt = false ∧ drained c x s = true then 2 else x.shst, ?_⟩
  unfold ctrlAt shutdownProgress
  dsimp only
  rw [SMap_find_map _ _ (by intro e; split <;> rfl)]
  congr 1
  funext x
  dsimp only
  split <;> rfl

theorem cqAt_shutdownProgress (c q : Nat) (s : State) : cqAt c q (shutdownProgress s) = cqAt c q s := by
  obtain ⟨n, h⟩ := ctrlAt_shutdownProgress c s
  unfold cqAt
  rw [h]
  cases ctrlAt c s <;> rfl

theorem sqAt_shutdownProgress (c q : Nat) (s : State) : sqAt c q (shutdownProgress s) = sqAt c q s := by
  obtain ⟨n, h⟩ := ctrlAt_shutdownProgress c s
  unfold sqAt
  rw [h]
  cases ctrlAt c s <;> rfl

/-- Nothing settles where no command has a result and no Flush waits. -/
theorem settle_quiet (n : Nat) {s : State} (h : ∀ y ∈ s.nv.cmds, y.result = none ∧ (y.kind = .flush → y.phase ≠ .started)) : settle n s = s := by
  induction n with
  | zero => rfl
  | succ n ih =>
    have : settleOne s = s := by
      unfold settleOne
      rw [List.find?_eq_none.mpr (by intro y hy; simp [(h y hy).1]), ]
      dsimp only
      rw [List.find?_eq_none.mpr]
      intro y hy
      have := (h y hy).2
      simp only [Bool.and_eq_true, beq_iff_eq]
      rintro ⟨⟨⟨a, b⟩, -⟩, -⟩
      exact this a b
    unfold settle
    rw [this, ih, ite_self]

/-- What a completion's entry leaves of the host's state: its queue alone changes, but for interrupts. -/
theorem postEntry_nv (c cq : Nat) (e : Cqe) (s : State) :
    (postEntry c cq e s).nv.cmds = s.nv.cmds ∧ (postEntry c cq e s).nv.freedTags = s.nv.freedTags ∧
      (postEntry c cq e s).nv.ctrls =
        (updCq c cq (fun q => { q with tail := (q.tail + 1) % max q.size 1, posted := q.posted ++ [e] }) s).nv.ctrls := by
  unfold postEntry
  dsimp only
  split
  · exact ⟨rfl, rfl, rfl⟩
  · split
    · exact ⟨rfl, rfl, rfl⟩
    · unfold irqPend
      split <;> exact ⟨rfl, rfl, rfl⟩

/-- The state in which command `x` has its result. -/
theorem setCmd_result {tag : Nat} {x : Cmd} {s : State} (e : Cqe) (h : cmdAt tag s = some x)
    (ho : ∀ y ∈ s.nv.cmds, y.tag ≠ tag → y.result = none ∧ y.phase = .fetched) :
    let x' : Cmd := { x with result := some e, phase := .done, places := [] }
    x' ∈ (setCmd x' s).nv.cmds ∧ ∀ y ∈ (setCmd x' s).nv.cmds, y = x' ∨ (y ∈ s.nv.cmds ∧ y.tag ≠ tag ∧ y.result = none ∧ y.phase = .fetched) := by
  obtain ⟨hm, ht⟩ := cmdAt_mem h
  dsimp only [setCmd]
  refine ⟨List.mem_map.mpr ⟨x, hm, by simp⟩, ?_⟩
  intro y hy
  obtain ⟨z, hz, rfl⟩ := List.mem_map.mp hy
  by_cases hzt : z.tag = x.tag
  · left
    rw [if_pos hzt]
  · right
    rw [if_neg hzt]
    have := ho z hz (by rw [← ht]; exact hzt)
    exact ⟨hz, by rw [← ht]; exact hzt, this.1, this.2⟩

theorem filter_setCmd (x : Cmd) (s : State) :
    (setCmd x s).nv.cmds.filter (fun y => y.tag != x.tag) = s.nv.cmds.filter (fun y => y.tag != x.tag) := by
  dsimp only [setCmd]
  induction s.nv.cmds with
  | nil => rfl
  | cons z l ih =>
    simp only [List.map_cons, List.filter_cons]
    rw [ih]
    by_cases hz : z.tag = x.tag
    · simp [hz]
    · simp [hz]

/-- A result that stands is posted, where nothing else waits. -/
theorem settleAll_answered {tag : Nat} {x : Cmd} {e : Cqe} {s : State} (h : cmdAt tag s = some x)
    (ho : ∀ y ∈ s.nv.cmds, y.tag ≠ tag → y.result = none ∧ y.phase = .fetched) {q : Sq} {k : Cq} (hq : sqAt x.ctrl x.sq s = some q)
    (hn : x.ordered = false) (hH : mode s ≠ 0xB) (hk : cqAt x.ctrl q.cq s = some k) (hf : cqFull k = false) (hh : k.held = []) :
    let t := settleAll (setCmd { x with result := some e, phase := .done, places := [] } s)
    t.nv.cmds = s.nv.cmds.filter (fun y => y.tag != x.tag) ∧ t.nv.freedTags = s.nv.freedTags ++ [(x.ctrl, x.shared)] ∧
      cqAt x.ctrl q.cq t = some { k with tail := (k.tail + 1) % max k.size 1, posted := k.posted ++ [e] } := by
  obtain ⟨hm, ht⟩ := cmdAt_mem h
  obtain ⟨hin, hall⟩ := setCmd_result e h ho
  generalize hx' : ({ x with result := some e, phase := .done, places := [] } : Cmd) = x' at hin hall
  have hxc : x'.ctrl = x.ctrl ∧ x'.sq = x.sq ∧ x'.tag = x.tag ∧ x'.shared = x.shared ∧ x'.result = some e ∧ x'.ordered = x.ordered := by
    subst hx'
    exact ⟨rfl, rfl, rfl, rfl, rfl, rfl⟩
  obtain ⟨e1, e2, e3, e4, e5, e6⟩ := hxc
  generalize hs1 : setCmd x' s = s1 at hin hall
  have hc1 : s1.nv.ctrls = s.nv.ctrls := by subst hs1; rfl
  have hf1 : s1.nv.freedTags = s.nv.freedTags := by subst hs1; rfl
  have hfil : s1.nv.cmds.filter (fun y => y.tag != x.tag) = s.nv.cmds.filter (fun y => y.tag != x.tag) := by
    rw [← hs1, ← e3]
    exact filter_setCmd _ _
  have hq1 : sqAt x'.ctrl x'.sq s1 = some q := by rw [e1, e2, sqAt_congr hc1]; exact hq
  have hk1 : cqAt x'.ctrl q.cq s1 = some k := by rw [e1, cqAt_congr hc1]; exact hk
  have hco : cqOf x'.ctrl x'.sq s1 = some k := by
    unfold cqOf
    rw [hq1]
    exact hk1
  have hheld : isHeld x' s1 = false := by
    unfold isHeld
    rw [hco]
    simp [hh]
  have hpost : mayPost x' s1 = true := by
    unfold mayPost
    simp [e6, hn]
  have hfind : s1.nv.cmds.find? (fun x => x.result.isSome && !isHeld x s1 && mayPost x s1) = some x' := by
    refine find_unique hin (by simp [e5, hheld, hpost]) ?_
    intro y hy hp
    rcases hall y hy with rfl | ⟨-, -, hr, -⟩
    · rfl
    · simp [hr] at hp
  have hone : settleOne s1 = retireCmd x' (postEntry x'.ctrl q.cq e s1) := by
    unfold settleOne
    rw [hfind]
    dsimp only
    rw [e5]
    dsimp only
    unfold postResult
    rw [hq1, hco]
    dsimp only
    rw [if_neg (by simp [hf, hh])]
  obtain ⟨hpe1, hpe2, hpe3⟩ := postEntry_nv x'.ctrl q.cq e s1
  have hpc : cqAt x'.ctrl q.cq (postEntry x'.ctrl q.cq e s1) =
      some { k with tail := (k.tail + 1) % max k.size 1, posted := k.posted ++ [e] } := by
    have hu : cqAt x'.ctrl q.cq (updCq x'.ctrl q.cq (fun q => { q with tail := (q.tail + 1) % max q.size 1, posted := q.posted ++ [e] }) s1) =
        some { k with tail := (k.tail + 1) % max k.size 1, posted := k.posted ++ [e] } := by
      rw [cqAt_updCq_self, hk1]
      rfl
    rw [← hu]
    exact cqAt_congr hpe3 _ _
  generalize hs2 : retireCmd x' (postEntry x'.ctrl q.cq e s1) = s2 at hone
  have h2c : s2.nv.cmds = s.nv.cmds.filter (fun y => y.tag != x.tag) := by
    rw [← hs2, ← hfil, ← hpe1, ← e3]
    rfl
  have h2f : s2.nv.freedTags = s.nv.freedTags ++ [(x.ctrl, x.shared)] := by
    subst hs2
    dsimp only [retireCmd]
    rw [hpe2, hf1, e1, e4]
  have h2q : cqAt x.ctrl q.cq s2 = some { k with tail := (k.tail + 1) % max k.size 1, posted := k.posted ++ [e] } := by
    subst hs2
    rw [← e1, ← hpc]
    exact cqAt_congr rfl _ _
  have hquiet : ∀ y ∈ s2.nv.cmds, y.result = none ∧ (y.kind = .flush → y.phase ≠ .started) := by
    intro y hy
    rw [h2c] at hy
    obtain ⟨hy1, hy2⟩ := List.mem_filter.mp hy
    obtain ⟨a, b⟩ := ho y hy1 (by rw [← ht]; simpa using hy2)
    exact ⟨a, fun _ => by rw [b]; decide⟩
  dsimp only
  unfold settleAll
  have hset : settle (2 * s1.nv.cmds.length + 2) s1 = s2 := by
    unfold settle
    rw [if_neg (show mode s1 ≠ 0xB by subst hs1; exact hH), hone]
    exact settle_quiet _ hquiet
  rw [hset, showTags_nv]
  refine ⟨h2c, h2f, ?_⟩
  rw [cqAt_congr (s := shutdownProgress s2) (by rw [showTags_nv]), cqAt_shutdownProgress, h2q]

/-- A command that is ready is answered. -/
theorem completeBoth_answered {tag sct sc dw0 dw1 : Nat} {dnr : Bool} {data : List Byte} {kinds : List CmdKind} {x : Cmd} {s : State}
    (h : Ready tag kinds x s) : Answered x sct sc dnr dw0 dw1 data s (completeBoth tag sct sc dnr dw0 dw1 data s) := by
  obtain ⟨h1, h2, h3, h4, h5, h6, q, k, h7, h8, hH, h9, h10, h11⟩ := h
  unfold completeBoth
  rw [h1]
  dsimp only
  rw [if_neg (by simp [h3])]
  by_cases hz : sct = 0 ∧ sc = 0
  · rw [if_pos hz]
    obtain ⟨a, b, c⟩ := settleAll_answered (e := ⟨x.sq, x.cid, sct, sc, dnr, dw0, dw1, data⟩) h1 h6 h7 h8 hH h9 h10 h11
    exact ⟨a, b, q, k, h7, h9, c⟩
  · rw [if_neg hz]
    generalize hsE : ({ s with nv := { s.nv with
      ctrls := SMap.upd s.nv.ctrls x.ctrl (fun c => { c with errors := c.errors + 1 })
      errs := (⟨x.ctrl, x.sq, x.cid, sct, sc, x.lba, x.nsid, 0, 0⟩ :: s.nv.errs).take 64 } } : State) = sE
    have hcx : ctrlAt x.ctrl sE = (ctrlAt x.ctrl s).map (fun c => { c with errors := c.errors + 1 }) := by
      subst hsE
      exact SMap_find_upd_self _ _ _
    have hqE : sqAt x.ctrl x.sq sE = some q := by
      rw [← h7]
      unfold sqAt
      rw [hcx]
      cases ctrlAt x.ctrl s <;> rfl
    have hkE : cqAt x.ctrl q.cq sE = some k := by
      rw [← h9]
      unfold cqAt
      rw [hcx]
      cases ctrlAt x.ctrl s <;> rfl
    have hstate : haltQueue x { setCmd { x with result := some ⟨x.sq, x.cid, sct, sc, dnr, dw0, dw1, data⟩, phase := .done, places := [] } s with
        nv := { (setCmd { x with result := some ⟨x.sq, x.cid, sct, sc, dnr, dw0, dw1, data⟩, phase := .done, places := [] } s).nv with
          ctrls := SMap.upd (setCmd { x with result := some ⟨x.sq, x.cid, sct, sc, dnr, dw0, dw1, data⟩, phase := .done, places := [] } s).nv.ctrls x.ctrl
            (fun c => { c with errors := c.errors + 1 })
          errs := (⟨x.ctrl, x.sq, x.cid, sct, sc, x.lba, x.nsid, 0, 0⟩ ::
            (setCmd { x with result := some ⟨x.sq, x.cid, sct, sc, dnr, dw0, dw1, data⟩, phase := .done, places := [] } s).nv.errs).take 64 } } =
        setCmd { x with result := some ⟨x.sq, x.cid, sct, sc, dnr, dw0, dw1, data⟩, phase := .done, places := [] } sE := by
      have hsq : sqAt x.ctrl x.sq { setCmd { x with result := some ⟨x.sq, x.cid, sct, sc, dnr, dw0, dw1, data⟩, phase := .done, places := [] } s with
          nv := { (setCmd { x with result := some ⟨x.sq, x.cid, sct, sc, dnr, dw0, dw1, data⟩, phase := .done, places := [] } s).nv with
            ctrls := SMap.upd (setCmd { x with result := some ⟨x.sq, x.cid, sct, sc, dnr, dw0, dw1, data⟩, phase := .done, places := [] } s).nv.ctrls x.ctrl
              (fun c => { c with errors := c.errors + 1 })
            errs := (⟨x.ctrl, x.sq, x.cid, sct, sc, x.lba, x.nsid, 0, 0⟩ ::
              (setCmd { x with result := some ⟨x.sq, x.cid, sct, sc, dnr, dw0, dw1, data⟩, phase := .done, places := [] } s).nv.errs).take 64 } } = some q := by
        rw [← hqE, ← hsE]
        exact sqAt_congr rfl _ _
      unfold haltQueue
      rw [hsq]
      dsimp only
      rw [if_neg (by simp [h8]), ← hsE]
      rfl
    rw [hstate]
    have hcm : sE.nv.cmds = s.nv.cmds := by subst hsE; rfl
    have hfr : sE.nv.freedTags = s.nv.freedTags := by subst hsE; rfl
    obtain ⟨a, b, c⟩ := settleAll_answered (s := sE) (e := ⟨x.sq, x.cid, sct, sc, dnr, dw0, dw1, data⟩) (tag := tag)
      (by unfold cmdAt at h1 ⊢; rw [hcm]; exact h1) (by rw [hcm]; exact h6) hqE h8 (by subst hsE; exact hH) hkE h10 h11
    rw [hcm] at a
    rw [hfr] at b
    exact ⟨a, b, q, k, h7, h9, c⟩

/-- The same told from a state with the same commands, queues and freed tags. -/
theorem Answered.of_same {x : Cmd} {sct sc dw0 dw1 : Nat} {dnr : Bool} {data : List Byte} {s u t : State}
    (h : Answered x sct sc dnr dw0 dw1 data u t) (hc : u.nv.cmds = s.nv.cmds) (hf : u.nv.freedTags = s.nv.freedTags)
    (hq : ∀ c q, sqAt c q u = sqAt c q s) (hk : ∀ c q, cqAt c q u = cqAt c q s) : Answered x sct sc dnr dw0 dw1 data s t := by
  obtain ⟨a, b, q, k, h1, h2, h3⟩ := h
  exact ⟨by rw [a, hc], by rw [b, hf], q, k, by rw [← hq, h1], by rw [← hk, h2], h3⟩

end Sys2Proof.Machine
end

