-- ==== Sys2Proof/Laws/Cores.lean ====
section
/-! SUPPORT. Cores: what showing a core, passing on its PC, retiring and fetching leave of a state, and a word executed whole. -/

set_option Elab.async false

namespace Sys2Proof.Machine

/-! ### A core replaced -/

theorem coreAt_put_self (k : Nat) (c : Core) (s : State) : coreAt k { s with cores := SMap.put s.cores k c } = c :=
  SMap.getD_put_self _ _ _ _

theorem coreAt_put_ne {j k : Nat} (c : Core) (s : State) (h : j ≠ k) : coreAt j { s with cores := SMap.put s.cores k c } = coreAt j s :=
  SMap.getD_put_ne _ _ _ h

theorem coreAt_congr {s t : State} (h : t.cores = s.cores) (k : Nat) : coreAt k t = coreAt k s := by
  unfold coreAt
  rw [h]

/-- Showing a core writes registers that show it, and nothing else. -/
theorem showCore_eq (k : Nat) (s : State) : showCore k s = { s with regs := (showCore k s).regs } := by
  unfold showCore
  dsimp only [fset, wr]
  repeat' split
  all_goals rfl

theorem rd_showCore (k a : Nat) (s : State) (h : a ∉ coreShows k) : rd a (showCore k s) = rd a s := by
  unfold coreShows at h
  unfold showCore
  dsimp only
  simp only [List.mem_append, not_or, List.mem_cons, List.not_mem_nil, or_false] at h
  obtain ⟨h1, h2, h3⟩ := h
  rw [rd_fset_ne _ _ _ _ h3, rd_fset_ne _ _ _ _ h2]
  by_cases hk : k < 64
  · rw [if_pos hk] at h1 ⊢
    simp only [List.mem_cons, List.not_mem_nil, or_false, not_or] at h1
    rw [rd_fset_ne _ _ _ _ h1.2.1, rd_fset_ne _ _ _ _ h1.2.1, rd_fset_ne _ _ _ _ h1.1, rd_fset_ne _ _ _ _ h1.1, rd_fset_ne _ _ _ _ h1.1]
  · rw [if_neg hk] at h1 ⊢
    by_cases hk' : k < 76
    · rw [if_pos hk'] at h1 ⊢
      simp only [List.mem_cons, List.not_mem_nil, or_false] at h1
      rw [rd_fset_ne _ _ _ _ h1]
    · rw [if_neg hk']

@[simp] theorem showCore_cores (k : Nat) (s : State) : (showCore k s).cores = s.cores := by rw [showCore_eq]

@[simp] theorem coreAt_showCore (j k : Nat) (s : State) : coreAt j (showCore k s) = coreAt j s := coreAt_congr (showCore_cores k s) j

/-- What differs in registers and cores from a state that differs in cores. -/
theorem rest_trans {t a u : State} {r : SMap Word} {c c' : SMap Core} (h : t = { a with regs := r, cores := c }) (g : a = { u with cores := c' }) :
    t = { u with regs := r, cores := c } := by
  subst g
  exact h

/-! ### An instruction ends -/

theorem gr_of {k : Nat} {s t : State} (h : (coreAt k t).g = (coreAt k s).g) (i : Nat) : gr k i t = gr k i s := by
  unfold gr
  rw [h]

theorem vr_of {k : Nat} {s t : State} (h : (coreAt k t).v = (coreAt k s).v) (i : Nat) : vr k i t = vr k i s := by
  unfold vr
  rw [h]

theorem coreAt_setPc (k : Nat) (v : Word) (s : State) : coreAt k (setPc k v s) = { coreAt k s with pc := v } := coreAt_put_self _ _ _

theorem coreAt_setPc_ne {j k : Nat} (v : Word) (s : State) (h : j ≠ k) : coreAt j (setPc k v s) = coreAt j s := coreAt_put_ne _ _ h

theorem coreAt_putSys (k n : Nat) (v : Word) (s : State) :
    coreAt k (putSys k n v s) = { coreAt k s with sys := SMap.put (coreAt k s).sys n v } := coreAt_put_self _ _ _

theorem coreAt_putSys_ne {j k : Nat} (n : Nat) (v : Word) (s : State) (h : j ≠ k) : coreAt j (putSys k n v s) = coreAt j s :=
  coreAt_put_ne _ _ h

theorem retire_cores (k : Nat) (s : State) : (retire k s).cores = (putSys k 1 (sysAt k 1 s + 1) s).cores := by
  unfold retire
  dsimp only
  split <;> rfl

theorem coreAt_retire (k : Nat) (s : State) :
    coreAt k (retire k s) = { coreAt k s with sys := SMap.put (coreAt k s).sys 1 (sysAt k 1 s + 1) } := by
  rw [coreAt_congr (retire_cores k s), coreAt_putSys]

theorem coreAt_retire_ne {j k : Nat} (s : State) (h : j ≠ k) : coreAt j (retire k s) = coreAt j s := by
  rw [coreAt_congr (retire_cores k s), coreAt_putSys_ne _ _ _ h]

theorem afterStep_eq {k : Nat} {s : State} (h : (coreAt k s).stepping = false) :
    afterStep k s = showCore k { s with cores := SMap.put s.cores k { coreAt k s with passBp := false } } := by
  unfold afterStep
  rw [if_neg (by simp [h])]

theorem ends_stepping {k : Nat} {pc : Word} {s : State} (h : (coreAt k s).stepping = false) :
    (coreAt k (retire k (setPc k pc s))).stepping = false := by
  rw [coreAt_retire, coreAt_setPc]
  exact h

/-- The state after a core's PC is set, the instruction has retired and no step of the debug link is under way. -/
theorem ends_core (k : Nat) (pc : Word) (s : State) (h : (coreAt k s).stepping = false) :
    coreAt k (afterStep k (retire k (setPc k pc s))) =
      { coreAt k s with pc := pc, sys := SMap.put (coreAt k s).sys 1 (sysAt k 1 s + 1), passBp := false } := by
  rw [afterStep_eq (ends_stepping h), coreAt_showCore, coreAt_put_self, coreAt_retire]
  unfold sysAt
  rw [coreAt_setPc]

theorem ends_other {j k : Nat} (pc : Word) (s : State) (h : (coreAt k s).stepping = false) (hj : j ≠ k) :
    coreAt j (afterStep k (retire k (setPc k pc s))) = coreAt j s := by
  rw [afterStep_eq (ends_stepping h), coreAt_showCore, coreAt_put_ne _ _ hj, coreAt_retire_ne _ hj, coreAt_setPc_ne _ _ hj]

theorem rd_retire {a k : Nat} (s : State) (h : a ∉ coreShows k) : rd a (retire k s) = rd a s := by
  unfold retire
  dsimp only
  split
  · have hc : a ≠ Reg.AXC_CNT_INSTR (k / 8) (k % 8) := by
      intro e
      subst e
      simp_all [coreShows]
    rw [rd_cntAdd_ne _ _ _ _ _ hc]
    rfl
  · rfl

theorem retire_eq (k : Nat) (s : State) : retire k s = { s with regs := (retire k s).regs, cores := (retire k s).cores } := by
  unfold retire
  dsimp only
  split <;> rfl

theorem ends_rd {a k : Nat} (pc : Word) (s : State) (h : (coreAt k s).stepping = false) (ha : a ∉ coreShows k) :
    rd a (afterStep k (retire k (setPc k pc s))) = rd a s := by
  rw [afterStep_eq (ends_stepping h), rd_showCore _ _ _ ha]
  exact (rd_congr rfl a).trans (rd_retire _ ha)

theorem ends_rest (k : Nat) (pc : Word) (s : State) (h : (coreAt k s).stepping = false) :
    afterStep k (retire k (setPc k pc s)) =
      { s with regs := (afterStep k (retire k (setPc k pc s))).regs, cores := (afterStep k (retire k (setPc k pc s))).cores } := by
  rw [afterStep_eq (ends_stepping h), showCore_eq, retire_eq]
  rfl

/-- An instruction that ends at `pc` has run. -/
theorem ends_ran (k : Nat) (pc : Word) (s : State) (h : (coreAt k s).stepping = false) :
    Ran k pc s (afterStep k (retire k (setPc k pc s))) := by
  have e := ends_core k pc s h
  refine ⟨⟨by rw [e], by rw [e], fun n => ?_, fun j hj => ends_other pc s h hj⟩, fun a ha => ends_rd pc s h ha, ends_rest k pc s h⟩
  unfold sysAt
  rw [e]
  dsimp only
  split
  · subst_vars
    rw [SMap.getD_put_self]
    rfl
  · exact SMap.getD_put_ne _ _ _ ‹_›

/-! ### Translation -/

/-- What a translation for core `k` leaves: only the TLB of the core, registers that show it, and bytes of table entries differ. -/
def Walked (k : Nat) (s t : State) : Prop :=
  coreAt k t = { coreAt k s with tlb := (coreAt k t).tlb } ∧ (∀ j, j ≠ k → coreAt j t = coreAt j s) ∧
    (∀ a, a ∉ coreShows k → rd a t = rd a s) ∧
    t = { s with regs := t.regs, cores := t.cores, mem := t.mem, dirty := t.dirty }

theorem Walked.refl (k : Nat) (s : State) : Walked k s s := ⟨rfl, fun _ _ => rfl, fun _ _ => rfl, rfl⟩

theorem Walked.trans {k : Nat} {s t u : State} (h : Walked k s t) (g : Walked k t u) : Walked k s u := by
  refine ⟨?_, fun j hj => (g.2.1 j hj).trans (h.2.1 j hj), fun a ha => (g.2.2.1 a ha).trans (h.2.2.1 a ha), ?_⟩
  · have e := g.1
    rw [h.1] at e
    exact e
  · have e := g.2.2.2
    rw [h.2.2.2] at e
    exact e

theorem wrBytes_eq (a : Nat) (bs : List Byte) (s : State) :
    wrBytes a bs s = { s with mem := (wrBytes a bs s).mem, dirty := (wrBytes a bs s).dirty } := by
  induction bs generalizing a s with
  | nil => rfl
  | cons b t ih =>
    unfold wrBytes
    rw [ih]
    rfl

theorem walked_wrBytes (k a : Nat) (bs : List Byte) (s : State) : Walked k s (wrBytes a bs s) := by
  have e := wrBytes_eq a bs s
  have hc : (wrBytes a bs s).cores = s.cores := by rw [e]
  have hr : (wrBytes a bs s).regs = s.regs := by rw [e]
  refine ⟨by rw [coreAt_congr hc], fun j _ => coreAt_congr hc j, fun x _ => rd_congr hr x, ?_⟩
  rw [hc, hr]
  exact e

theorem walked_tlbPut (k : Nat) (x : TlbEnt) (s : State) : Walked k s (tlbPut k x s) := by
  unfold tlbPut
  split
  · exact Walked.refl k s
  · dsimp only
    unfold setCore
    refine ⟨by rw [coreAt_showCore, coreAt_put_self], fun j hj => by rw [coreAt_showCore, coreAt_put_ne _ _ hj], fun a ha => ?_, ?_⟩
    · exact (rd_showCore _ _ _ ha).trans (rd_congr rfl a)
    · rw [showCore_eq]

theorem walked_useLeaf (k va : Nat) (acc : Access) (x : TlbEnt) (s : State) : Walked k s (useLeaf k va acc x s).2 := by
  unfold useLeaf
  split
  · exact Walked.refl k s
  · dsimp only
    generalize (if acc = Access.store then 192 else 64 : Nat) = ad
    split
    · exact walked_tlbPut k x s
    · split
      · exact Walked.refl k s
      · exact (walked_wrBytes k _ _ s).trans (walked_tlbPut k _ _)

theorem walked_tableXlate (k va : Nat) (acc : Access) (s : State) : Walked k s (tableXlate k va acc s).2 := by
  unfold tableXlate
  dsimp only
  split
  · exact Walked.refl k s
  · split
    · exact walked_useLeaf _ _ _ _ _
    · split
      · exact Walked.refl k s
      · exact walked_useLeaf _ _ _ _ _

theorem walked_translate (k : Nat) (ea : Word) (n : Nat) (acc : Access) (s : State) : Walked k s (translate k ea n acc s).2 := by
  unfold translate
  dsimp only
  split
  · exact Walked.refl k s
  · split
    · exact Walked.refl k s
    · split
      · exact Walked.refl k s
      · repeat' split
        all_goals first
          | exact Walked.refl k s
          | exact walked_tableXlate _ _ _ _

theorem walked_translate2 (k : Nat) (ea : Word) (n : Nat) (acc : Access) (s : State) : Walked k s (translate2 k ea n acc s).2 := by
  unfold translate2
  dsimp only
  repeat' split
  all_goals first
    | exact Walked.refl k s
    | exact walked_translate _ _ _ _ _
    | exact (walked_translate _ _ _ _ _).trans (walked_translate _ _ _ _ _)

theorem walked_fetch (k : Nat) (s : State) : Walked k s (fetched k s) := by
  unfold fetched fetchCheck
  dsimp only
  split <;> exact walked_translate _ _ _ _ _

/-- At Machine level, and on a core without translation, a fetch changes nothing. -/
theorem fetched_machine {k : Nat} {s : State} (h : isCompute k = false ∨ (coreAt k s).lvl = 2) : fetched k s = s := by
  unfold fetched fetchCheck translate
  have hb : (!isCompute k || (coreAt k s).lvl == 2) = true := by
    rcases h with h | h <;> simp [h]
  simp only [hb, if_true]
  split <;> rfl

/-! ### A word executed -/

theorem awake_of_runs {k : Nat} {s : State} (h : coreRuns k s = true) : awake k s = s := by
  have : (coreAt k s).idle = false := by
    unfold coreRuns at h
    simp only [Bool.and_eq_true, Bool.not_eq_true'] at h
    exact h.1.2
  unfold awake
  simp [this]

/-- A core that is ready executes the word's effect in the state it has fetched. -/
theorem runInstr_ready {k : Nat} {w : Half} {mine : Bool} {body : State → Eff} {s : State} (h : CoreReady k s) (hm : mine = true) :
    runInstr k w mine body s = finish k w (body (fetched k s)) := by
  obtain ⟨hk, hr, hb, hf, hs⟩ := h
  unfold runInstr
  rw [awake_of_runs hr]
  simp only [hk, hm, hr, and_self, if_true]
  have : (if (coreAt k s).passBp = true then none else bpHit k (coreAt k s).pc s) = none := by
    rcases hb with hb | hb <;> simp [hb]
  rw [this]
  dsimp only
  rw [hf]
  rfl

theorem fetched_stepping {k : Nat} {s : State} (h : CoreReady k s) : (coreAt k (fetched k s)).stepping = false := by
  rw [(walked_fetch k s).1]
  exact h.2.2.2.2

theorem fetched_gr (k i : Nat) (s : State) : gr k i (fetched k s) = gr k i s := by
  refine gr_of ?_ i
  rw [(walked_fetch k s).1]

theorem fetched_vr (k i : Nat) (s : State) : vr k i (fetched k s) = vr k i s := by
  refine vr_of ?_ i
  rw [(walked_fetch k s).1]

theorem fetched_sysAt (k n : Nat) (s : State) : sysAt k n (fetched k s) = sysAt k n s := by
  unfold sysAt
  rw [(walked_fetch k s).1]

theorem fetched_pc (k : Nat) (s : State) : (coreAt k (fetched k s)).pc = (coreAt k s).pc := by rw [(walked_fetch k s).1]

theorem fetched_lvl (k : Nat) (s : State) : (coreAt k (fetched k s)).lvl = (coreAt k s).lvl := by rw [(walked_fetch k s).1]

theorem fetched_stackLow (k : Nat) (v : Word) (s : State) : stackLow k v (fetched k s) = stackLow k v s := by
  unfold stackLow stklim
  rw [fetched_lvl, fetched_sysAt]

/-! ### Results -/

/-- Sign extension as a number. -/
theorem sext_eq (x n : Nat) : sext x n = BitVec.ofInt 64 ((x : Int).bmod (2 ^ n)) := by
  unfold sext
  rw [BitVec.signExtend, BitVec.toInt_ofNat']

theorem coreAt_setG (k r : Nat) (v : Word) (s : State) :
    coreAt k (setG k r v s) = if r = 0 then coreAt k s else { coreAt k s with g := SMap.put (coreAt k s).g r v } := by
  unfold setG
  split
  · rfl
  · exact coreAt_put_self _ _ _

theorem coreAt_setG_ne {j k : Nat} (r : Nat) (v : Word) (s : State) (h : j ≠ k) : coreAt j (setG k r v s) = coreAt j s := by
  unfold setG
  split
  · rfl
  · exact coreAt_put_ne _ _ h

theorem gr_setG (k r i : Nat) (v : Word) (s : State) : gr k i (setG k r v s) = if i = r ∧ i ≠ 0 then v else gr k i s := by
  unfold gr
  rw [coreAt_setG]
  by_cases hi : i = 0
  · simp [hi]
  · by_cases hr : r = 0
    · simp [hi, hr]
    · rw [if_neg hi, if_neg hr, if_neg hi]
      by_cases e : i = r
      · subst e
        simp [hi]
      · simp only [e, false_and, if_false]
        exact SMap.getD_put_ne _ _ _ e

theorem setG_eq (k r : Nat) (v : Word) (s : State) : setG k r v s = { s with cores := (setG k r v s).cores } := by
  unfold setG
  split <;> rfl

theorem Ran.pending {k : Nat} {pc : Word} {u t : State} (h : Ran k pc u t) : t.pending = u.pending := by rw [h.2.2]
theorem Ran.mem {k : Nat} {pc : Word} {u t : State} (h : Ran k pc u t) : t.mem = u.mem := by rw [h.2.2]
theorem Ran.free {k : Nat} {pc : Word} {u t : State} (h : Ran k pc u t) : t.free = u.free := by rw [h.2.2]
theorem Ran.tick {k : Nat} {pc : Word} {u t : State} (h : Ran k pc u t) : t.tick = u.tick := by rw [h.2.2]
theorem Ran.variant {k : Nat} {pc : Word} {u t : State} (h : Ran k pc u t) : t.variant = u.variant := by rw [h.2.2]
theorem Ran.feat {k : Nat} {pc : Word} {u t : State} (h : Ran k pc u t) : t.feat = u.feat := by rw [h.2.2]
theorem Ran.pbk {k : Nat} {pc : Word} {u t : State} (h : Ran k pc u t) : t.pbk = u.pbk := by rw [h.2.2]
theorem Ran.pow {k : Nat} {pc : Word} {u t : State} (h : Ran k pc u t) : t.pow = u.pow := by rw [h.2.2]
theorem Ran.nv {k : Nat} {pc : Word} {u t : State} (h : Ran k pc u t) : t.nv = u.nv := by rw [h.2.2]
theorem Ran.ftl {k : Nat} {pc : Word} {u t : State} (h : Ran k pc u t) : t.ftl = u.ftl := by rw [h.2.2]
theorem Ran.media {k : Nat} {pc : Word} {u t : State} (h : Ran k pc u t) : t.media = u.media := by rw [h.2.2]
theorem Ran.ten {k : Nat} {pc : Word} {u t : State} (h : Ran k pc u t) : t.ten = u.ten := by rw [h.2.2]
theorem Ran.prog {k : Nat} {pc : Word} {u t : State} (h : Ran k pc u t) : t.prog = u.prog := by rw [h.2.2]
theorem Ran.dram {k : Nat} {pc : Word} {u t : State} (h : Ran k pc u t) : t.dram = u.dram := by rw [h.2.2]
theorem Ran.mat {k : Nat} {pc : Word} {u t : State} (h : Ran k pc u t) : t.mat = u.mat := by rw [h.2.2]
theorem Ran.comp {k : Nat} {pc : Word} {u t : State} (h : Ran k pc u t) : t.comp = u.comp := by rw [h.2.2]
theorem Ran.scan {k : Nat} {pc : Word} {u t : State} (h : Ran k pc u t) : t.scan = u.scan := by rw [h.2.2]
theorem Ran.dig {k : Nat} {pc : Word} {u t : State} (h : Ran k pc u t) : t.dig = u.dig := by rw [h.2.2]
theorem Ran.keys {k : Nat} {pc : Word} {u t : State} (h : Ran k pc u t) : t.keys = u.keys := by rw [h.2.2]
theorem Ran.sch {k : Nat} {pc : Word} {u t : State} (h : Ran k pc u t) : t.sch = u.sch := by rw [h.2.2]
theorem Ran.clus {k : Nat} {pc : Word} {u t : State} (h : Ran k pc u t) : t.clus = u.clus := by rw [h.2.2]
theorem Ran.net {k : Nat} {pc : Word} {u t : State} (h : Ran k pc u t) : t.net = u.net := by rw [h.2.2]
theorem Ran.mgt {k : Nat} {pc : Word} {u t : State} (h : Ran k pc u t) : t.mgt = u.mgt := by rw [h.2.2]
theorem Ran.bus {k : Nat} {pc : Word} {u t : State} (h : Ran k pc u t) : t.bus = u.bus := by rw [h.2.2]
theorem Ran.acc {k : Nat} {pc : Word} {u t : State} (h : Ran k pc u t) : t.acc = u.acc := by rw [h.2.2]
theorem Ran.dirty {k : Nat} {pc : Word} {u t : State} (h : Ran k pc u t) : t.dirty = u.dirty := by rw [h.2.2]

/-- Bytes of memory as a word that has run leaves them. -/
theorem Ran.rdByte {k : Nat} {pc : Word} {u t : State} (h : Ran k pc u t) (x : Nat) : rdByte x t = rdByte x u := by
  unfold Machine.rdByte
  rw [h.mem]

/-- A body that changes cores alone, and of core `k` only general and vector registers, has run from the state before it. -/
theorem Ran.of_body {k : Nat} {pc : Word} {s u t : State} (h : Ran k pc u t) (hl : (coreAt k u).lvl = (coreAt k s).lvl)
    (hs : ∀ n, sysAt k n u = sysAt k n s) (ho : ∀ j, j ≠ k → coreAt j u = coreAt j s) (he : u = { s with cores := u.cores }) :
    Ran k pc s t := by
  obtain ⟨⟨h1, h2, h3, h4⟩, h5, h6⟩ := h
  refine ⟨⟨h1, h2.trans hl, fun n => by rw [h3 n, hs, hs], fun j hj => (h4 j hj).trans (ho j hj)⟩, fun a ha => ?_, ?_⟩
  · rw [h5 a ha]
    exact rd_congr (by rw [he]) a
  · rw [h6, he]

/-- Core `k` of `x` is as in `s` but for its TLB. -/
def SameCore (k : Nat) (s x : State) : Prop :=
  coreAt k x = { coreAt k s with tlb := (coreAt k x).tlb } ∧ ∀ j, j ≠ k → coreAt j x = coreAt j s

theorem Walked.core {k : Nat} {s x : State} (h : Walked k s x) : SameCore k s x := ⟨h.1, h.2.1⟩

theorem SameCore.refl (k : Nat) (s : State) : SameCore k s s := ⟨rfl, fun _ _ => rfl⟩

theorem SameCore.trans {k : Nat} {s t u : State} (h : SameCore k s t) (g : SameCore k t u) : SameCore k s u := by
  refine ⟨?_, fun j hj => (g.2 j hj).trans (h.2 j hj)⟩
  have e := g.1
  rw [h.1] at e
  exact e

theorem SameCore.of_cores {k : Nat} {s t : State} (h : t.cores = s.cores) : SameCore k s t :=
  ⟨by rw [coreAt_congr h], fun j _ => coreAt_congr h j⟩

theorem SameCore.stepping {k : Nat} {s x : State} (h : SameCore k s x) : (coreAt k x).stepping = (coreAt k s).stepping := by rw [h.1]

theorem SameCore.pc {k : Nat} {s x : State} (h : SameCore k s x) : (coreAt k x).pc = (coreAt k s).pc := by rw [h.1]

theorem SameCore.gr {k : Nat} {s x : State} (h : SameCore k s x) (i : Nat) : gr k i x = gr k i s := gr_of (by rw [h.1]) i

theorem SameCore.vr {k : Nat} {s x : State} (h : SameCore k s x) (i : Nat) : vr k i x = vr k i s := vr_of (by rw [h.1]) i

theorem SameCore.sysAt {k : Nat} {s x : State} (h : SameCore k s x) (n : Nat) : sysAt k n x = sysAt k n s := by
  unfold Machine.sysAt
  rw [h.1]

theorem SameCore.stackLow {k : Nat} {s x : State} (h : SameCore k s x) (v : Word) : stackLow k v x = stackLow k v s := by
  unfold Machine.stackLow stklim
  rw [show (coreAt k x).lvl = (coreAt k s).lvl by rw [h.1], h.sysAt]

/-- Retirement told from a state with the same cores. -/
theorem Retired.of_same {k : Nat} {pc : Word} {s x t : State} (h : Retired k pc x t) (g : SameCore k s x) : Retired k pc s t :=
  ⟨h.1, h.2.1.trans (by rw [g.1]), fun n => by rw [h.2.2.1 n, g.sysAt, g.sysAt], fun j hj => (h.2.2.2 j hj).trans (g.2 j hj)⟩

theorem GetsG.of_same {k r : Nat} {v : Word} {s x t : State} (h : GetsG k r v x t) (g : SameCore k s x) : GetsG k r v s t :=
  ⟨fun i => by rw [h.1 i, g.gr], fun i => by rw [h.2 i, g.vr]⟩

theorem GetsV.of_same {k r : Nat} {v : BitVec 256} {s x t : State} (h : GetsV k r v x t) (g : SameCore k s x) : GetsV k r v s t :=
  ⟨fun i => by rw [h.1 i, g.gr], fun i => by rw [h.2 i, g.vr]⟩

theorem SameRegs.of_same {k : Nat} {s x t : State} (h : SameRegs k x t) (g : SameCore k s x) : SameRegs k s t :=
  ⟨fun i => by rw [h.1 i, g.gr], fun i => by rw [h.2 i, g.vr]⟩

/-- An instruction that ends at `pc` without a result of its own. -/
theorem ends_same {k : Nat} (pc : Word) {s : State} (h : (coreAt k s).stepping = false) :
    SameRegs k s (afterStep k (retire k (setPc k pc s))) := by
  have e := ends_core k pc s h
  exact ⟨gr_of (by rw [e]), vr_of (by rw [e])⟩

/-- A word that ends, or jumps, in state `x`. -/
theorem finish_done {k : Nat} {w : Half} {x : State} (h : (coreAt k x).stepping = false) :
    SameRegs k x (finish k w (.done x)) ∧ Ran k ((coreAt k x).pc + 4) x (finish k w (.done x)) :=
  ⟨ends_same _ h, ends_ran k _ x h⟩

theorem finish_jump {k : Nat} {w : Half} {target : Word} {x : State} (h : (coreAt k x).stepping = false) :
    SameRegs k x (finish k w (.jump target x)) ∧ Ran k target x (finish k w (.jump target x)) :=
  ⟨ends_same _ h, ends_ran k _ x h⟩

/-- A general register written in `x`, and then the word ends at `pc`. -/
theorem ends_setG {k r : Nat} {v pc : Word} {x : State} (h : (coreAt k x).stepping = false) :
    GetsG k r v x (afterStep k (retire k (setPc k pc (setG k r v x)))) ∧ Ran k pc x (afterStep k (retire k (setPc k pc (setG k r v x)))) := by
  have hst : (coreAt k (setG k r v x)).stepping = false := by
    rw [coreAt_setG]
    split <;> exact h
  have e := ends_core k pc _ hst
  refine ⟨⟨fun i => ?_, fun i => ?_⟩, (ends_ran k _ _ hst).of_body ?_ ?_ ?_ ?_⟩
  · rw [gr_of (s := setG k r v x) (by rw [e]), gr_setG]
  · exact vr_of (by rw [e, coreAt_setG]; split <;> rfl) i
  · rw [coreAt_setG]
    split <;> rfl
  · intro n
    unfold sysAt
    rw [coreAt_setG]
    split <;> rfl
  · exact fun j hj => coreAt_setG_ne _ _ _ hj
  · exact setG_eq _ _ _ _

/-- A word that writes a general register and ends, or jumps. -/
theorem finish_setG {k r : Nat} {w : Half} {v : Word} {x : State} (h : (coreAt k x).stepping = false) :
    GetsG k r v x (finish k w (.done (setG k r v x))) ∧ Ran k ((coreAt k x).pc + 4) x (finish k w (.done (setG k r v x))) := by
  have hpc : (coreAt k (setG k r v x)).pc = (coreAt k x).pc := by
    rw [coreAt_setG]
    split <;> rfl
  have hf : finish k w (.done (setG k r v x)) = afterStep k (retire k (setPc k ((coreAt k x).pc + 4) (setG k r v x))) := by
    rw [← hpc]
    rfl
  rw [hf]
  exact ends_setG h

theorem finish_jump_setG {k r : Nat} {w : Half} {v target : Word} {x : State} (h : (coreAt k x).stepping = false) :
    GetsG k r v x (finish k w (.jump target (setG k r v x))) ∧ Ran k target x (finish k w (.jump target (setG k r v x))) :=
  ends_setG h

/-- A word that ends with a result for a general register. -/
theorem finish_putG {k r : Nat} {w : Half} {v : Word} {x : State} (h : (coreAt k x).stepping = false)
    (h31 : r = 31 → stackLow k v x = false) :
    GetsG k r v x (finish k w (putG k r v x)) ∧ Ran k ((coreAt k x).pc + 4) x (finish k w (putG k r v x)) := by
  unfold putG
  rw [if_neg (by rintro ⟨e, b⟩; rw [h31 e] at b; cases b)]
  exact finish_setG h

theorem resultG {k r : Nat} {w : Half} {v : Word} {s : State} (h : CoreReady k s) (h31 : r = 31 → stackLow k v s = false) :
    GetsG k r v s (finish k w (putG k r v (fetched k s))) ∧ Ran k ((coreAt k s).pc + 4) (fetched k s) (finish k w (putG k r v (fetched k s))) := by
  obtain ⟨a, b⟩ := finish_putG (w := w) (r := r) (v := v) (fetched_stepping h) (fun e => by rw [fetched_stackLow]; exact h31 e)
  rw [fetched_pc] at b
  exact ⟨a.of_same (walked_fetch k s).core, b⟩

/-- An ALU3 word of two sources on a core that is ready. -/
theorem alu3_result {k maj fn : Nat} {w : Half} {usesB : Bool} {f : Word → Word → Word} {s : State} (h : CoreReady k s) (hm : majOf w = maj)
    (hf : fnOf w = fn) (hc : rcOf w = 0) (hb : usesB = false → rbOf w = 0)
    (h31 : rdOf w = 31 → stackLow k (f (gr k (raOf w) s) (gr k (rbOf w) s)) s = false) :
    GetsG k (rdOf w) (f (gr k (raOf w) s) (gr k (rbOf w) s)) s (alu3 k w maj fn usesB f s) ∧
      Ran k ((coreAt k s).pc + 4) (fetched k s) (alu3 k w maj fn usesB f s) := by
  unfold alu3
  rw [runInstr_ready h (by simp [hm, hf])]
  have : ¬ (rcOf w ≠ 0 ∨ (usesB = false ∧ rbOf w ≠ 0)) := by
    rintro (e | ⟨e1, e2⟩)
    · exact e hc
    · exact e2 (hb e1)
  rw [if_neg this, fetched_gr, fetched_gr]
  exact resultG h h31

/-- An IMM word on a core that is ready. -/
theorem immOp_result {k maj : Nat} {w : Half} {bad : Bool} {f : Word → Word} {s : State} (h : CoreReady k s) (hm : majOf w = maj)
    (hb : bad = false) (h31 : rdOf w = 31 → stackLow k (f (gr k (raOf w) s)) s = false) :
    GetsG k (rdOf w) (f (gr k (raOf w) s)) s (immOp k w maj bad f s) ∧
      Ran k ((coreAt k s).pc + 4) (fetched k s) (immOp k w maj bad f s) := by
  unfold immOp
  rw [runInstr_ready h (by simp [hm]), if_neg (by simp [hb]), fetched_gr]
  exact resultG h h31

end Sys2Proof.Machine
end

