-- ==== Sys2Proof/Laws/CoreMem.lean ====
section
/-! SUPPORT. Loads and stores of cores that reach memory. -/

set_option Elab.async false

namespace Sys2Proof.Machine

/-! ### Bytes -/

theorem rdBytes_eq (a n : Nat) (s : State) : rdBytes a n s = (List.range n).map (fun i => rdByte (a + i) s) := by
  induction n generalizing a with
  | zero => rfl
  | succ n ih =>
    rw [rdBytes, ih (a + 1), List.range_succ_eq_map, List.map_cons, List.map_map]
    simp [Function.comp_def, Nat.add_assoc, Nat.add_comm 1]

theorem leBytes_length (n v : Nat) : (leBytes n v).length = n := by
  induction n generalizing v with
  | zero => rfl
  | succ n ih => rw [leBytes, List.length_cons, ih]

theorem leBytes_getElem? (n v i : Nat) (h : i < n) : (leBytes n v)[i]? = some (BitVec.ofNat 8 (v / 256 ^ i)) := by
  induction n generalizing v i with
  | zero => omega
  | succ n ih =>
    rw [leBytes]
    cases i with
    | zero => simp
    | succ i =>
      rw [List.getElem?_cons_succ, ih _ _ (by omega), Nat.div_div_eq_div_mul, Nat.pow_succ, Nat.mul_comm 256]

theorem leVal_leBytes (n v : Nat) : leVal (leBytes n v) = v % 256 ^ n := by
  induction n generalizing v with
  | zero => simp [leBytes, leVal, Nat.mod_one]
  | succ n ih =>
    rw [leBytes, leVal, ih, Nat.pow_succ]
    simp only [BitVec.toNat_ofNat]
    rw [Nat.mul_comm (256 ^ n) 256, Nat.mod_mul]

theorem leVal_lt (bs : List Byte) : leVal bs < 256 ^ bs.length := by
  induction bs with
  | nil => simp [leVal]
  | cons b t ih =>
    rw [leVal, List.length_cons, Nat.pow_succ]
    have := b.isLt
    omega

/-- Byte `i` of the number in a list of bytes. -/
theorem leVal_byte (bs : List Byte) (i : Nat) : BitVec.ofNat 8 (leVal bs / 256 ^ i) = bs.getD i 0 := by
  induction bs generalizing i with
  | nil => simp [leVal]
  | cons b t ih =>
    rw [leVal]
    have hb := b.isLt
    cases i with
    | zero =>
      apply BitVec.eq_of_toNat_eq
      simp
      omega
    | succ i =>
      rw [Nat.pow_succ, Nat.mul_comm (256 ^ i), ← Nat.div_div_eq_div_mul, show (b.toNat + 256 * leVal t) / 256 = leVal t by omega, ih]
      rfl

/-! ### A write of memory -/

/-- The bytes `bs` have been written at `a`: the cores stay, of the registers only counts of narrow writes differ, and no byte has
become unreadable. -/
structure Put (a : Nat) (bs : List Byte) (s t : State) : Prop where
  cores : t.cores = s.cores
  regs : ∀ r, (∀ d, r ≠ Reg.DMC_CNT_RMW d) → rd r t = rd r s
  bytes : ∀ x, rdByte x t = if a ≤ x ∧ x < a + bs.length then bs.getD (x - a) 0 else rdByte x s
  clean : ∀ x, poisoned x s = false → poisoned x t = false

theorem rdByte_wrBytes (a x : Nat) (bs : List Byte) (s : State) :
    rdByte x (wrBytes a bs s) = if a ≤ x ∧ x < a + bs.length then bs.getD (x - a) 0 else rdByte x s := by
  split
  · rename_i h
    obtain ⟨i, hi, rfl⟩ : ∃ i, i < bs.length ∧ x = a + i := ⟨x - a, by omega, by omega⟩
    have e := rdBytes_wrBytes a bs s
    rw [rdBytes_eq] at e
    have e2 := congrArg (fun l => l[i]?) e
    simp only [List.getElem?_map, List.getElem?_range hi, Option.map_some] at e2
    rw [Nat.add_sub_cancel_left, List.getD_eq_getElem?_getD, ← e2]
    rfl
  · exact rdByte_wrBytes_out _ _ _ _ (by omega)

theorem wrBytes_put (a : Nat) (bs : List Byte) (s : State) : Put a bs s (wrBytes a bs s) := by
  have e := wrBytes_eq a bs s
  refine ⟨by rw [e], fun r _ => rd_congr (by rw [e]) r, fun x => rdByte_wrBytes a x bs s, fun x h => ?_⟩
  unfold poisoned at h ⊢
  rw [e]
  exact h

theorem clearPoison_put {a : Nat} {bs : List Byte} {s t : State} (ps : List Nat) (h : Put a bs s t) : Put a bs s (clearPoison ps t) := by
  refine ⟨h.cores, fun r hr => h.regs r hr, fun x => h.bytes x, fun x hx => ?_⟩
  have := h.clean x hx
  unfold poisoned clearPoison at *
  dsimp only
  split
  · rename_i hlt
    rw [if_pos hlt] at this
    simp only [List.contains_eq_mem, decide_eq_false_iff_not] at this ⊢
    exact fun hm => this (List.mem_filter.mp hm).1
  · rename_i hlt
    rw [if_neg hlt] at this
    simp only [Bool.or_eq_false_iff, List.contains_eq_mem, decide_eq_false_iff_not] at this ⊢
    exact ⟨fun hm => this.1 (List.mem_filter.mp hm).1, fun hm => this.2 (List.mem_filter.mp hm).1⟩

theorem putSpace_phys (a : Nat) (bs : List Byte) (s : State) (h : ∀ i, i < bs.length → isMem (a + i) s = true) :
    putSpace .phys a bs s = wrBytes a bs s := by
  induction bs generalizing a s with
  | nil => rfl
  | cons b t ih =>
    have h0 := h 0 (by simp)
    rw [putSpace, wrBytes]
    have : xlate .phys true a s = some a := by
      simp only [xlate]
      rw [if_pos (by simpa using h0)]
    rw [this]
    dsimp only
    rw [ih]
    intro i hi
    have := h (i + 1) (by simp; omega)
    rw [show a + 1 + i = a + (i + 1) by omega]
    exact this

theorem rd_cntAdd_put {a : Nat} {bs : List Byte} {s t : State} (n : Nat) (h : Put a bs (cntAdd (Reg.DMC_CNT_RMW n) 64 1 s) t) : Put a bs s t :=
  ⟨h.cores, fun r hr => (h.regs r hr).trans (rd_cntAdd_ne _ _ _ _ _ (hr n)), h.bytes, fun x hx => h.clean x hx⟩

theorem isMem_dram {a : Nat} {s : State} (h : isMem a s = true) : inDram a s = true ∨ (inDram a s = false ∧ a < 0x4000000) := by
  unfold isMem at h
  unfold inDram
  simp only [Bool.or_eq_true, Bool.and_eq_true, decide_eq_true_eq] at h
  rcases h with h | h
  · right
    exact ⟨by simp; omega, h⟩
  · left
    simp [h]

theorem snoopLocked_put {a : Nat} {bs : List Byte} {s t : State} (ps : List Nat) (h : Put a bs s t) : Put a bs s (snoopLocked ps t) :=
  ⟨h.cores, h.regs, h.bytes, h.clean⟩

/-- A write within one line of memory that is powered and not poisoned. -/
theorem memWrite_put {req a : Nat} {cached : Bool} {core : Option Nat} {bs : List Byte} {s : State} (hm : memAt a bs.length s = true)
    (hp : ∀ i, i < bs.length → poisoned (a + i) s = false) (hn : bs ≠ []) (hl : a % 64 + bs.length ≤ 64) :
    Put a bs s (memWrite req cached core a bs s) := by
  have hlen : 0 < bs.length := List.length_pos_iff.mpr hn
  simp only [memAt, List.all_eq_true, List.mem_range, Bool.and_eq_true] at hm
  unfold memWrite
  split
  · rename_i hc
    simp only [Bool.and_eq_true] at hc
    have h0 := hp 0 hlen
    have hd := hc.1
    unfold inDram at hd
    simp only [Bool.and_eq_true, decide_eq_true_eq] at hd
    unfold poisoned at h0
    rw [if_neg (by omega)] at h0
    simp only [Bool.or_eq_false_iff, Nat.add_zero] at h0
    unfold narrowWrite
    dsimp only
    by_cases hf : a % 64 = 0 ∧ bs.length = 64
    · rw [if_pos hf]
      exact clearPoison_put _ (wrBytes_put a bs s)
    · rw [if_neg hf, h0.1, h0.2]
      exact rd_cntAdd_put _ (wrBytes_put a bs _)
  · unfold writeSpace
    rw [putSpace_phys a bs s (fun i hi => (hm i hi).1)]
    exact snoopLocked_put _ (clearPoison_put _ (wrBytes_put a bs s))

theorem Put.refl (a : Nat) (s : State) : Put a [] s s :=
  ⟨rfl, fun _ _ => rfl, fun x => by rw [if_neg (by simp)], fun _ h => h⟩

/-- Two writes, the second after the first. -/
theorem Put.bytes_trans {a b : Nat} {bs cs : List Byte} {s t u : State} (h : Put a bs s t) (g : Put b cs t u) (x : Nat) :
    rdByte x u = if b ≤ x ∧ x < b + cs.length then cs.getD (x - b) 0
      else if a ≤ x ∧ x < a + bs.length then bs.getD (x - a) 0 else rdByte x s := by
  rw [g.bytes x, h.bytes x]

theorem Put.append {a : Nat} {bs cs : List Byte} {s t u : State} (h : Put a bs s t) (g : Put (a + bs.length) cs t u) :
    Put a (bs ++ cs) s u := by
  refine ⟨g.cores.trans h.cores, fun r hr => (g.regs r hr).trans (h.regs r hr), fun x => ?_, fun x hx => g.clean x (h.clean x hx)⟩
  rw [h.bytes_trans g, List.length_append]
  by_cases h1 : a ≤ x
  · by_cases h2 : x < a + bs.length
    · have e1 : ¬ (a + bs.length ≤ x ∧ x < a + bs.length + cs.length) := by omega
      have e2 : a ≤ x ∧ x < a + (bs.length + cs.length) := by omega
      rw [if_neg e1, if_pos ⟨h1, h2⟩, if_pos e2, List.getD_append _ _ _ _ (by omega)]
    · by_cases h3 : x < a + (bs.length + cs.length)
      · have e1 : a + bs.length ≤ x ∧ x < a + bs.length + cs.length := by omega
        rw [if_pos e1, if_pos ⟨h1, h3⟩, List.getD_append_right _ _ _ _ (by omega)]
        congr 1
        omega
      · rw [if_neg (by omega), if_neg (by omega), if_neg (by omega)]
  · rw [if_neg (by omega), if_neg (by omega), if_neg (by omega)]

/-- Whether memory is there and powered does not depend on the counts of narrow writes. -/
theorem Put.fget {a : Nat} {bs : List Byte} {s t : State} (h : Put a bs s t) {f : Fld} (hf : ∀ d, f.addr ≠ Reg.DMC_CNT_RMW d) :
    fget f t = fget f s := by
  unfold Machine.fget
  rw [h.regs _ hf]

theorem Put.dramChannels {a : Nat} {bs : List Byte} {s t : State} (h : Put a bs s t) : dramChannels t = dramChannels s := by
  unfold Machine.dramChannels
  rw [h.fget (f := Fl.MEM_STATUS_CHANNELS) (by intro d; simp only [Fl.MEM_STATUS_CHANNELS, Reg.MEM_STATUS, Reg.DMC_CNT_RMW]; omega)]

theorem Put.threeCh {a : Nat} {bs : List Byte} {s t : State} (h : Put a bs s t) : threeCh t = threeCh s := by
  unfold Machine.threeCh
  rw [h.fget (f := Fl.MEM_STATUS_THREE_CH) (by intro d; simp only [Fl.MEM_STATUS_THREE_CH, Reg.MEM_STATUS, Reg.DMC_CNT_RMW]; omega)]

theorem Put.pdOn {a : Nat} {bs : List Byte} {s t : State} (h : Put a bs s t) (n : Nat) : pdOn n t = pdOn n s := by
  unfold Machine.pdOn
  rw [h.regs Reg.AON_PD_ON_LO (by intro d; simp only [Reg.AON_PD_ON_LO, Reg.DMC_CNT_RMW]; omega),
    h.regs Reg.AON_PD_ON_HI (by intro d; simp only [Reg.AON_PD_ON_HI, Reg.DMC_CNT_RMW]; omega)]

theorem Put.memAt {a : Nat} {bs : List Byte} {s t : State} (h : Put a bs s t) (b n : Nat) : memAt b n t = memAt b n s := by
  unfold Machine.memAt isMem memOn dramEnd dramPlace dmcUp
  rw [h.threeCh, h.dramChannels]
  simp only [h.pdOn]

theorem inControl_of_memAt {a n : Nat} {s : State} (h : memAt a n s = true) (hn : 0 < n) : inControl a = false := by
  simp only [memAt, List.all_eq_true, List.mem_range, Bool.and_eq_true] at h
  have := (h 0 hn).1
  unfold isMem at this
  unfold inControl
  simp only [Bool.or_eq_true, Bool.and_eq_true, decide_eq_true_eq, Nat.add_zero] at this
  simp
  omega

theorem memAt_sub {a n : Nat} {s : State} (h : memAt a n s = true) {i m : Nat} (hi : i + m ≤ n) : memAt (a + i) m s = true := by
  simp only [memAt, List.all_eq_true, List.mem_range, Bool.and_eq_true] at h ⊢
  intro j hj
  have := h (i + j) (by omega)
  rw [show a + (i + j) = a + i + j by omega] at this
  exact this

/-- A write of at most 64 bytes to memory that is powered and not poisoned. -/
theorem physWrite_put {req a : Nat} {cached : Bool} {core : Option Nat} {bs : List Byte} {s : State} (hm : memAt a bs.length s = true)
    (hp : ∀ i, i < bs.length → poisoned (a + i) s = false) (hn : bs ≠ []) (hl : bs.length ≤ 64) :
    (physWrite req cached core a bs s).1 = true ∧ Put a bs s (physWrite req cached core a bs s).2 := by
  have hlen : 0 < bs.length := List.length_pos_iff.mpr hn
  unfold physWrite
  dsimp only
  rw [inControl_of_memAt hm hlen, if_neg (by simp), if_pos hm]
  refine ⟨rfl, ?_⟩
  dsimp only
  split
  · exact memWrite_put hm hp hn (by omega)
  · rename_i hk
    have e : bs = bs.take (64 - a % 64) ++ bs.drop (64 - a % 64) := (List.take_append_drop _ _).symm
    have ht : (bs.take (64 - a % 64)).length = 64 - a % 64 := by simp; omega
    have hd : (bs.drop (64 - a % 64)).length = bs.length - (64 - a % 64) := by simp
    have h1 : Put a (bs.take (64 - a % 64)) s (memWrite req cached core a (bs.take (64 - a % 64)) s) := by
      refine memWrite_put ?_ ?_ ?_ ?_
      · rw [ht]
        exact memAt_sub (i := 0) hm (by omega)
      · intro i hi
        exact hp i (by omega)
      · exact List.length_pos_iff.mp (by omega)
      · omega
    have h2 := memWrite_put (req := req) (cached := cached) (core := core) (a := a + (64 - a % 64)) (bs := bs.drop (64 - a % 64))
      (s := memWrite req cached core a (bs.take (64 - a % 64)) s) (by
        rw [h1.memAt, hd]
        exact memAt_sub hm (by omega)) (by
        intro i hi
        refine h1.clean _ ?_
        rw [Nat.add_assoc]
        exact hp _ (by omega)) (List.length_pos_iff.mp (by omega)) (by omega)
    rw [e]
    have : List.take (64 - a % 64) (List.take (64 - a % 64) bs ++ List.drop (64 - a % 64) bs) = List.take (64 - a % 64) bs := by rw [← e]
    rw [this, show List.drop (64 - a % 64) (List.take (64 - a % 64) bs ++ List.drop (64 - a % 64) bs) = List.drop (64 - a % 64) bs by rw [← e]]
    refine h1.append ?_
    rw [ht]
    exact h2

/-- Marking lines dirty leaves everything a write has done. -/
theorem markDirty_eq (c a n : Nat) (s t : State) :
    markDirty c s a n t = { t with dirty := (markDirty c s a n t).dirty, clus := (markDirty c s a n t).clus } := by
  unfold markDirty
  dsimp only
  split <;> rfl

theorem Put.dirty {a : Nat} {bs : List Byte} {s t : State} (h : Put a bs s t) (d : SMap DirtyLine) (c : SMap Clus) :
    Put a bs s { t with dirty := d, clus := c } :=
  ⟨h.cores, h.regs, h.bytes, h.clean⟩

/-- A store's bytes, in one page, reach memory. -/
theorem storePart_put {k a : Nat} {cached : Bool} {bs : List Byte} {s : State} (hm : memAt a bs.length s = true)
    (hp : ∀ i, i < bs.length → poisoned (a + i) s = false) (hn : bs ≠ []) (hl : bs.length ≤ 64) :
    (storePart k a cached bs s).1 = true ∧ Put a bs s (storePart k a cached bs s).2 := by
  obtain ⟨h1, h2⟩ := physWrite_put (req := coreReq k) (cached := cached) (core := some k) hm hp hn hl
  unfold storePart
  dsimp only
  split
  · refine ⟨rfl, ?_⟩
    dsimp only
    rw [markDirty_eq]
    exact h2.dirty _ _
  · exact ⟨h1, h2⟩

theorem physRead_mem {req a n : Nat} {s : State} (hm : memAt a n s = true) (hp : ∀ i, i < n → poisoned (a + i) s = false) (hn : 0 < n) :
    physRead req a n s = (some (rdBytes a n s), s) := by
  unfold physRead
  dsimp only
  rw [inControl_of_memAt hm hn, if_neg (by simp), if_pos hm]
  have : (List.range n).find? (fun i => poisoned (a + i) s) = none := by
    rw [List.find?_eq_none]
    intro i hi
    simp [hp i (List.mem_range.mp hi)]
  rw [this]

theorem firstPart_le (ea : Word) (n : Nat) : firstPart ea n ≤ n := Nat.min_le_left _ _

theorem firstPart_pos {ea : Word} {n : Nat} (h : 0 < n) : 0 < firstPart ea n := by
  unfold firstPart
  have : 0 < 4096 - ea.toNat % 4096 := by omega
  exact Nat.lt_min.mpr ⟨h, this⟩

theorem rdBytes_append (a m n : Nat) (s : State) : rdBytes a (m + n) s = rdBytes a m s ++ rdBytes (a + m) n s := by
  induction m generalizing a with
  | zero => simp [rdBytes]
  | succ m ih =>
    rw [Nat.succ_add, rdBytes, rdBytes, ih, List.cons_append]
    congr 3
    omega

theorem coreWaits_mem {k n a b : Nat} {ea : Word} {c : Bool} {s u : State} (hm1 : memAt a (firstPart ea n) u = true)
    (hm2 : memAt b (n - firstPart ea n) u = true) (hh : ∀ i, i < n → dramHeld (byteOf ea n a b i) s = false) :
    coreWaits k ea n a b c s = false := by
  unfold coreWaits
  rw [List.any_eq_false]
  intro p hp
  obtain ⟨i, hi, rfl⟩ := List.mem_map.mp hp
  have hi' := List.mem_range.mp hi
  have hc : inControl (byteOf ea n a b i) = false := by
    unfold byteOf
    split
    · exact inControl_of_memAt (n := 1) (memAt_sub hm1 (by omega)) Nat.one_pos
    · exact inControl_of_memAt (n := 1) (memAt_sub hm2 (by omega)) Nat.one_pos
  unfold accessWaits
  rw [hc, hh i hi']
  simp

/-- A load that reaches memory. -/
theorem loadBytes_mem {k n a b : Nat} {ea : Word} {s u : State} (h : ReadsMem k ea n s a b u) (hn : 0 < n) :
    loadBytes k ea n s = .ok ((List.range n).map (fun i => rdByte (byteOf ea n a b i) u)) u := by
  obtain ⟨hw, ⟨c, ht⟩, hm1, hm2, hp⟩ := h
  have hle := firstPart_le ea n
  have hpos := firstPart_pos (ea := ea) hn
  have r1 : physRead (coreReq k) a (firstPart ea n) u = (some (rdBytes a (firstPart ea n) u), u) := by
    refine physRead_mem hm1 (fun i hi => ?_) hpos
    have := (hp i (by omega)).1
    unfold byteOf at this
    rwa [if_pos hi] at this
  unfold loadBytes
  rw [hw]
  dsimp only
  rw [ht]
  dsimp only
  rw [coreWaits_mem hm1 hm2 (fun i hi => (hp i hi).2), if_neg (by simp), r1]
  dsimp only
  split
  · rename_i e
    congr 1
    rw [rdBytes_eq, e]
    refine List.map_congr_left (fun i hi => ?_)
    unfold byteOf
    rw [e, if_pos (List.mem_range.mp hi)]
  · rename_i e
    have r2 : physRead (coreReq k) b (n - firstPart ea n) u = (some (rdBytes b (n - firstPart ea n) u), u) := by
      refine physRead_mem hm2 (fun i hi => ?_) (by omega)
      have := (hp (firstPart ea n + i) (by omega)).1
      unfold byteOf at this
      rw [if_neg (by omega), Nat.add_sub_cancel_left] at this
      exact this
    rw [r2]
    dsimp only
    congr 1
    conv_rhs => rw [show n = firstPart ea n + (n - firstPart ea n) by omega, List.range_add, List.map_append, List.map_map]
    rw [rdBytes_eq, rdBytes_eq]
    congr 1
    · refine List.map_congr_left (fun i hi => ?_)
      unfold byteOf
      rw [show firstPart ea n + (n - firstPart ea n) = n by omega, if_pos (List.mem_range.mp hi)]
    · refine List.map_congr_left (fun i hi => ?_)
      simp only [Function.comp_apply]
      unfold byteOf
      rw [show firstPart ea n + (n - firstPart ea n) = n by omega, if_neg (by omega), Nat.add_sub_cancel_left]

/-- What a store of the bytes `bs` leaves of state `u`. -/
structure Put2 (ea : Word) (a b : Nat) (bs : List Byte) (u t : State) : Prop where
  cores : t.cores = u.cores
  regs : ∀ r, (∀ d, r ≠ Reg.DMC_CNT_RMW d) → rd r t = rd r u
  bytes : ∀ i, i < bs.length → rdByte (byteOf ea bs.length a b i) t = bs.getD i 0
  others : ∀ x, (∀ i, i < bs.length → x ≠ byteOf ea bs.length a b i) → rdByte x t = rdByte x u

/-- A store that reaches memory. -/
theorem storeBytes_mem {k a b : Nat} {ea : Word} {bs : List Byte} {s u : State} (h : WritesMem k ea bs.length s a b u) (hn : bs ≠ [])
    (hl : bs.length ≤ 64) : ∃ t, storeBytes k ea bs s = .ok () t ∧ Put2 ea a b bs u t := by
  obtain ⟨hw, ⟨c, ht⟩, hm1, hm2, hp, hinj⟩ := h
  have hlen : 0 < bs.length := List.length_pos_iff.mpr hn
  have hle := firstPart_le ea bs.length
  have hpos := firstPart_pos (ea := ea) hlen
  have htk : (bs.take (firstPart ea bs.length)).length = firstPart ea bs.length := by simp; omega
  have hdk : (bs.drop (firstPart ea bs.length)).length = bs.length - firstPart ea bs.length := by simp
  obtain ⟨p1, p2⟩ := storePart_put (k := k) (a := a) (cached := c) (bs := bs.take (firstPart ea bs.length)) (s := u) (by rwa [htk])
    (by
      intro i hi
      have := (hp i (by omega)).1
      unfold byteOf at this
      rwa [if_pos (by omega)] at this) (List.length_pos_iff.mp (by omega)) (by omega)
  unfold storeBytes
  dsimp only
  rw [hw]
  dsimp only
  rw [ht]
  dsimp only
  rw [coreWaits_mem hm1 hm2 (fun i hi => (hp i hi).2), if_neg (by simp), p1]
  rw [if_neg (by simp)]
  by_cases e : firstPart ea bs.length = bs.length
  · rw [if_pos e]
    refine ⟨_, rfl, p2.cores, p2.regs, fun i hi => ?_, fun x hx => ?_⟩
    · have ha : byteOf ea bs.length a b i = a + i := by unfold byteOf; rw [if_pos (by omega)]
      rw [p2.bytes, htk, ha, if_pos (by omega), Nat.add_sub_cancel_left, e, List.take_length]
    · rw [p2.bytes, htk, if_neg]
      rintro ⟨h1, h2⟩
      refine hx (x - a) (by omega) ?_
      unfold byteOf
      rw [if_pos (by omega)]
      omega
  · rw [if_neg e]
    obtain ⟨q1, q2⟩ := storePart_put (k := k) (a := b) (cached := c) (bs := bs.drop (firstPart ea bs.length))
      (s := (storePart k a c (bs.take (firstPart ea bs.length)) u).2) (by rw [p2.memAt, hdk]; exact hm2)
      (by
        intro i hi
        refine p2.clean _ ?_
        have := (hp (firstPart ea bs.length + i) (by omega)).1
        unfold byteOf at this
        rw [if_neg (by omega), Nat.add_sub_cancel_left] at this
        exact this) (List.length_pos_iff.mp (by omega)) (by omega)
    rw [q1, if_pos rfl]
    refine ⟨_, rfl, q2.cores.trans p2.cores, fun r hr => (q2.regs r hr).trans (p2.regs r hr), fun i hi => ?_, fun x hx => ?_⟩
    · rw [p2.bytes_trans q2, htk, hdk]
      by_cases hi2 : i < firstPart ea bs.length
      · have ha : byteOf ea bs.length a b i = a + i := by unfold byteOf; rw [if_pos hi2]
        have hnb : ¬ (b ≤ byteOf ea bs.length a b i ∧ byteOf ea bs.length a b i < b + (bs.length - firstPart ea bs.length)) := by
          rintro ⟨h1, h2⟩
          have hj : firstPart ea bs.length + (byteOf ea bs.length a b i - b) < bs.length := by omega
          have hv : byteOf ea bs.length a b (firstPart ea bs.length + (byteOf ea bs.length a b i - b)) = byteOf ea bs.length a b i := by
            generalize hz : byteOf ea bs.length a b i = z at *
            unfold byteOf
            rw [if_neg (by omega)]
            omega
          have := hinj i _ hi hj hv.symm
          omega
        rw [if_neg hnb, ha, if_pos (by omega), Nat.add_sub_cancel_left, List.getD_eq_getElem?_getD, List.getD_eq_getElem?_getD,
          List.getElem?_take_of_lt hi2]
      · have hb : byteOf ea bs.length a b i = b + (i - firstPart ea bs.length) := by unfold byteOf; rw [if_neg hi2]
        rw [hb, if_pos (by omega), Nat.add_sub_cancel_left, List.getD_eq_getElem?_getD, List.getD_eq_getElem?_getD, List.getElem?_drop]
        congr 2
        omega
    · rw [p2.bytes_trans q2, htk, hdk, if_neg, if_neg]
      · rintro ⟨h1, h2⟩
        refine hx (x - a) (by omega) ?_
        unfold byteOf
        rw [if_pos (by omega)]
        omega
      · rintro ⟨h1, h2⟩
        refine hx (firstPart ea bs.length + (x - b)) (by omega) ?_
        unfold byteOf
        rw [if_neg (by omega)]
        omega

end Sys2Proof.Machine
end

