-- ==== Sys2Proof/Laws/Lanes.lean ====
section
/-! SUPPORT. The event recorder stays within its sizes (R498, R502): what each change of its queues keeps. -/

set_option Elab.async false

namespace Sys2Proof.Machine

theorem laneCoal_append {q : List Ev} {e : Ev} (h : LaneCoal q) (r : (q.filter (fun e => !e.drop)).length < 255)
    (d : e.drop = false) : LaneCoal (q ++ [e]) := by
  simp only [LaneCoal, List.filter_append, List.length_append] at h ⊢
  simp [d]
  omega

theorem laneCoal_tail {e : Ev} {t : List Ev} (h : LaneCoal (e :: t)) : LaneCoal t := by
  simp only [LaneCoal, List.filter_cons] at h ⊢
  constructor
  · have := h.1
    split at this
    · simp only [List.length_cons] at this
      omega
    · exact this
  · have := h.2
    split at this
    · simp only [List.length_cons] at this
      omega
    · exact this

/-- An ordinary entry goes into a lane that has room. -/
theorem LanesOk.push {p : Pbk} {l : Nat} {e : Ev} (h : LanesOk p) (r : laneHasRoom l p = true) (d : e.drop = false) :
    LanesOk (setLaneQ l (laneQ l p ++ [e]) p) := by
  obtain ⟨h0, h1, h2, h3, h4⟩ := h
  unfold laneHasRoom at r
  rcases l with _ | _ | _ | l
  · simp only [laneQ, Nat.zero_lt_two, if_true, decide_eq_true_eq] at r
    exact ⟨by simp only [setLaneQ, laneQ, LaneFull, List.length_append, List.length_singleton]; omega, h1, h2, h3, h4⟩
  · simp only [laneQ, Nat.reduceAdd, Nat.one_lt_ofNat, if_true, decide_eq_true_eq] at r
    exact ⟨h0, by simp only [setLaneQ, laneQ, LaneFull, List.length_append, List.length_singleton]; omega, h2, h3, h4⟩
  · have r' : (p.q2.filter (fun e => !e.drop)).length < 255 := by simpa [laneQ] using r
    exact ⟨h0, h1, laneCoal_append h2 r' d, h3, h4⟩
  · have r' : (p.q3.filter (fun e => !e.drop)).length < 255 := by
      simpa [laneQ, show ¬ (l + 1 + 1 + 1 < 2) by omega] using r
    exact ⟨h0, h1, h2, laneCoal_append h3 r' d, h4⟩

theorem laneCoal_drop {q : List Ev} {x : Ev} (h : LaneCoal q) (d : x.drop = true) :
    LaneCoal (if q.any (·.drop) then q.map (fun x => if x.drop then { x with count := x.count + 1 } else x) else q ++ [x]) := by
  split
  · rename_i hd
    clear hd d
    have key : ∀ l : List Ev, ((l.map (fun x => if x.drop then { x with count := x.count + 1 } else x)).filter (fun e => !e.drop)).length =
        (l.filter (fun e => !e.drop)).length ∧
        ((l.map (fun x => if x.drop then { x with count := x.count + 1 } else x)).filter (fun e => e.drop)).length =
        (l.filter (fun e => e.drop)).length := by
      intro l
      induction l with
      | nil => simp
      | cons a t ih =>
        by_cases ha : a.drop = true <;> simp [ha] at ih ⊢ <;> omega
    exact ⟨(key q).1 ▸ h.1, (key q).2 ▸ h.2⟩
  · rename_i hd
    have : q.filter (fun e => e.drop) = [] := by
      rw [List.filter_eq_nil_iff]
      intro a ha hb
      exact hd (List.any_eq_true.mpr ⟨a, ha, hb⟩)
    simp only [LaneCoal, List.filter_append, List.length_append] at h ⊢
    simp [d, this]
    simpa using h.1

/-- A drop of lane 2 or 3 is counted in its one drop postmark. -/
theorem LanesOk.drop {p : Pbk} {e : Ev} (h : LanesOk p) (l : 2 ≤ e.lane) : LanesOk (dropOccurrence e p) := by
  obtain ⟨h0, h1, h2, h3, h4⟩ := h
  have key : dropOccurrence e p = setLaneQ e.lane (if (laneQ e.lane p).any (·.drop) then
      (laneQ e.lane p).map (fun x => if x.drop then { x with count := x.count + 1 } else x)
      else laneQ e.lane p ++ [⟨e.lane, 0x0001, 0, 1, [e.code + 65536 * e.src], false, true⟩]) p := by
    unfold dropOccurrence
    dsimp only
    split <;> rfl
  rw [key]
  generalize e.lane = n at l ⊢
  rcases n with _ | _ | _ | n
  · omega
  · omega
  · exact ⟨h0, h1, laneCoal_drop h2 rfl, h3, h4⟩
  · exact ⟨h0, h1, h2, laneCoal_drop h3 rfl, h4⟩

/-- A repeat postmark goes into a lane that has room. -/
theorem LanesOk.queueRepeat {p : Pbk} {c : Coal} (h : LanesOk p) (r : laneHasRoom c.lane p = true) : LanesOk (queueRepeat c p) :=
  LanesOk.push (e := ⟨c.lane, c.code, c.src, c.count, c.args, true, false⟩) h r rfl

/-- The writer takes the first entry of a lane, and what waited for its place takes it. -/
theorem LanesOk.take {p : Pbk} {l : Nat} {e : Ev} {t : List Ev} (h : LanesOk p) (q : laneQ l p = e :: t) :
    LanesOk (refillLane l (setLaneQ l t p)) := by
  obtain ⟨h0, h1, h2, h3, h4⟩ := h
  rcases l with _ | _ | _ | l
  · simp only [laneQ] at q
    have h0' : t.length + 1 ≤ 256 := by simpa [LaneFull, q] using h0
    simp only [refillLane, setLaneQ]
    split
    · exact ⟨by simp only [LaneFull]; omega, h1, h2, h3, h4⟩
    · exact ⟨by simp only [LaneFull, List.length_append, List.length_singleton]; omega, h1, h2, h3, h4⟩
  · simp only [laneQ] at q
    have h1' : t.length + 1 ≤ 256 := by simpa [LaneFull, q] using h1
    simp only [refillLane, setLaneQ]
    split
    · exact ⟨h0, by simp only [LaneFull]; omega, h2, h3, h4⟩
    · exact ⟨h0, by simp only [LaneFull, List.length_append, List.length_singleton]; omega, h2, h3, h4⟩
  · simp only [laneQ] at q
    have h2' : LaneCoal t := laneCoal_tail (e := e) (by rw [← q]; exact h2)
    have h' : LanesOk (setLaneQ (0 + 1 + 1) t p) := ⟨h0, h1, h2', h3, h4⟩
    unfold refillLane
    split
    · exact absurd ‹_› (by omega)
    · exact absurd ‹_› (by omega)
    · split
      · exact h'
      · rename_i hf
        split
        · rename_i r
          refine LanesOk.queueRepeat h' ?_
          have := List.find?_some hf
          simp only [Bool.and_eq_true, beq_iff_eq] at this
          rw [this.1]
          exact r
        · exact h'
  · simp only [laneQ] at q
    have h3' : LaneCoal t := laneCoal_tail (e := e) (by rw [← q]; exact h3)
    have h' : LanesOk (setLaneQ (l + 1 + 1 + 1) t p) := ⟨h0, h1, h2, h3', h4⟩
    unfold refillLane
    split
    · exact absurd ‹_› (by omega)
    · exact absurd ‹_› (by omega)
    · split
      · exact h'
      · rename_i hf
        split
        · rename_i r
          refine LanesOk.queueRepeat h' ?_
          have := List.find?_some hf
          simp only [Bool.and_eq_true, beq_iff_eq] at this
          rw [this.1]
          exact r
        · exact h'

end Sys2Proof.Machine
end

