-- ==== Sys2Proof/Laws/KeepOps.lean ====
section
/-! SUPPORT. Every operation of Machine/Ops.lean leaves what `Keeps` says. -/

set_option Elab.async false

namespace Sys2Proof.Machine

theorem wr_keeps {M : Nat} {s0 : State} (a : Nat) (v : Word) {s : State} (hk : Keeps M s0 s) (hM : Sub 1 M := by exact ‹Sub _ M›.of rfl) :
    Keeps M s0 (wr a v s) := by
  exact hk.updRegs (fun g => SMap.sorted_put a v g)

theorem fset_keeps {M : Nat} {s0 : State} (f : Fld) (v : Nat) {s : State} (hk : Keeps M s0 s) (hM : Sub 1 M := by exact ‹Sub _ M›.of rfl) :
    Keeps M s0 (fset f v s) := by
  unfold fset
  try dsimp only
  repeat' (with_reducible first | assumption | exact hM.of rfl | apply Keeps.refl | apply keeps_ite | apply wr_keeps)

theorem cntAdd_keeps {M : Nat} {s0 : State} (a w n : Nat) {s : State} (hk : Keeps M s0 s) (hM : Sub 1 M := by exact ‹Sub _ M›.of rfl) :
    Keeps M s0 (cntAdd a w n s) := by
  unfold cntAdd
  try dsimp only
  repeat' (with_reducible first | assumption | exact hM.of rfl | apply Keeps.refl | apply keeps_ite | apply wr_keeps)

theorem keepCounts_keeps {M : Nat} {s0 : State} (as : List Nat) {s : State} (hk : Keeps M s0 s) (hM : Sub 16777216 M := by exact ‹Sub _ M›.of rfl) :
    Keeps M s0 (keepCounts as s) := by
  unfold keepCounts
  try dsimp only
  repeat' (with_reducible first | assumption | exact hM.of rfl | apply Keeps.refl | apply keeps_ite | split | apply Keeps.upd_acc)

theorem clearRegs_keeps {M : Nat} {s0 : State} (p : Block → Nat → RegRow → Bool) {s : State} (hk : Keeps M s0 s) (hM : Sub 1 M := by exact ‹Sub _ M›.of rfl) :
    Keeps M s0 (clearRegs p s) := by
  exact hk.updRegs (fun g => SMap.sorted_filter _ g)

theorem useFree_keeps {M : Nat} {s0 : State} {s : State} (hk : Keeps M s0 s) (hM : Sub 4 M := by exact ‹Sub _ M›.of rfl) :
    Keeps M s0 (useFree s) := by
  exact hk.updFree

theorem wrByte_keeps {M : Nat} {s0 : State} (a : Nat) (b : Byte) {s : State} (hk : Keeps M s0 s) (hM : Sub 33554434 M := by exact ‹Sub _ M›.of rfl) :
    Keeps M s0 (wrByte a b s) := by
  unfold wrByte
  exact (hk.updMem (fun g => Memory.wf_putD a b g)).upd_dirty

theorem wrBytes_keeps {M : Nat} {s0 : State} (a : Nat) (a0 : List Byte) {s : State} (hk : Keeps M s0 s) (hM : Sub 33554434 M := by exact ‹Sub _ M›.of rfl) :
    Keeps M s0 (wrBytes a a0 s) := by
  induction a0 generalizing a s with
  | nil => exact hk
  | cons b t ih => exact ih _ (wrByte_keeps a b hk)

theorem retireDomain_keeps {M : Nat} {s0 : State} (n : Nat) {s : State} (hk : Keeps M s0 s) (hM : Sub 1 M := by exact ‹Sub _ M›.of rfl) :
    Keeps M s0 (retireDomain n s) := by
  unfold retireDomain
  try dsimp only
  repeat' (with_reducible first | assumption | exact hM.of rfl | apply Keeps.refl | apply keeps_ite | apply fset_keeps)

/-- An ordinary event reaches its lane. -/
theorem enterLane_keeps {M : Nat} {s0 s : State} (e : Ev) (d : e.drop = false) (h : Keeps M s0 s) (hM : Sub 33 M := by exact ‹Sub _ M›.of rfl) : Keeps M s0 (enterLane e s) := by
  unfold enterLane
  dsimp only
  split
  · rename_i l
    split
    · rename_i r
      refine Keeps.updPbk (fun g => ?_) h
      exact LanesOk.push (l := 0) g r d
    · exact Keeps.updPbk id h
  · split
    · rename_i l
      split
      · rename_i r
        refine Keeps.updPbk (fun g => ?_) h
        exact LanesOk.push (l := 1) g r d
      · exact Keeps.updPbk id h
    · split
      · exact Keeps.updPbk id h
      · split
        · split
          · rename_i r
            refine Keeps.updPbk (fun g => ?_) h
            exact LanesOk.push g r d
          · exact Keeps.updPbk id h
        · split
          · rename_i r
            refine Keeps.updPbk (fun g => ?_) h
            exact LanesOk.push g r d
          · refine fset_keeps _ _ (cntAdd_keeps _ _ _ (Keeps.updPbk (fun g => ?_) h))
            exact LanesOk.drop g (by omega)

theorem pbkPending_keeps {M : Nat} {s0 : State} {s : State} (hk : Keeps M s0 s) (hM : Sub 1 M := by exact ‹Sub _ M›.of rfl) :
    Keeps M s0 (pbkPending s) := by
  unfold pbkPending
  try dsimp only
  repeat' (with_reducible first | assumption | exact hM.of rfl | apply Keeps.refl | apply keeps_ite | apply fset_keeps)

theorem postmark_keeps {M : Nat} {s0 : State} (code src : Nat) (args : List Nat) {s : State} (hk : Keeps M s0 s) (hM : Sub 33 M := by exact ‹Sub _ M›.of rfl) :
    Keeps M s0 (postmark code src args s) := by
  exact pbkPending_keeps (enterLane_keeps _ rfl hk)

theorem otherPostmark_keeps {M : Nat} {s0 : State} (g inst addr val rule : Nat) {s : State} (hk : Keeps M s0 s) (hM : Sub 33 M := by exact ‹Sub _ M›.of rfl) :
    Keeps M s0 (otherPostmark g inst addr val rule s) := by
  unfold otherPostmark
  try dsimp only
  repeat' (with_reducible first | assumption | exact hM.of rfl | apply Keeps.refl | apply keeps_ite | apply postmark_keeps)

theorem raiseEvent_keeps {M : Nat} {s0 : State} (g inst : Nat) (f : Fld) {s : State} (hk : Keeps M s0 s) (hM : Sub 33 M := by exact ‹Sub _ M›.of rfl) :
    Keeps M s0 (raiseEvent g inst f s) := by
  unfold raiseEvent
  try dsimp only
  repeat' (with_reducible first | assumption | exact hM.of rfl | apply Keeps.refl | apply keeps_ite | apply fset_keeps | apply postmark_keeps)

theorem busError_keeps {M : Nat} {s0 : State} (addr req size : Nat) {s : State} (hk : Keeps M s0 s) (hM : Sub 33 M := by exact ‹Sub _ M›.of rfl) :
    Keeps M s0 (busError addr req size s) := by
  unfold busError
  try dsimp only
  repeat' (with_reducible first | assumption | exact hM.of rfl | apply Keeps.refl | apply keeps_ite | apply postmark_keeps)

theorem writeIgnored_keeps {M : Nat} {s0 : State} (addr req val : Nat) {s : State} (hk : Keeps M s0 s) (hM : Sub 33 M := by exact ‹Sub _ M›.of rfl) :
    Keeps M s0 (writeIgnored addr req val s) := by
  unfold writeIgnored
  try dsimp only
  repeat' (with_reducible first | assumption | exact hM.of rfl | apply Keeps.refl | apply keeps_ite | apply postmark_keeps)

theorem fsetTo_keeps {M : Nat} {s0 : State} (f : Fld) (v : Nat) {s : State} (hk : Keeps M s0 s) (hM : Sub 1 M := by exact ‹Sub _ M›.of rfl) :
    Keeps M s0 (fsetTo f v s) := by
  unfold fsetTo
  try dsimp only
  repeat' (with_reducible first | assumption | exact hM.of rfl | apply Keeps.refl | apply keeps_ite | apply fset_keeps)

theorem showUnit_keeps {M : Nat} {s0 : State} (f : Fld) (pd : Nat) (gone : Bool) {s : State} (hk : Keeps M s0 s) (hM : Sub 1 M := by exact ‹Sub _ M›.of rfl) :
    Keeps M s0 (showUnit f pd gone s) := by
  unfold showUnit
  try dsimp only
  repeat' (with_reducible first | assumption | exact hM.of rfl | apply Keeps.refl | apply keeps_ite | apply fset_keeps | apply fsetTo_keeps)

theorem showUnits_keeps {M : Nat} {s0 : State} {s : State} (hk : Keeps M s0 s) (hM : Sub 1 M := by exact ‹Sub _ M›.of rfl) :
    Keeps M s0 (showUnits s) := by
  unfold showUnits
  try dsimp only
  repeat' (with_reducible first | assumption | exact hM.of rfl | apply Keeps.refl | apply keeps_ite | apply forN_keeps | apply showUnit_keeps | apply forN_keeps | split | intro _)

theorem setDomains_keeps {M : Nat} {s0 : State} (mask : Nat) {s : State} (hk : Keeps M s0 s) (hM : Sub 1 M := by exact ‹Sub _ M›.of rfl) :
    Keeps M s0 (setDomains mask s) := by
  unfold setDomains
  try dsimp only
  repeat' (with_reducible first | assumption | exact hM.of rfl | apply Keeps.refl | apply keeps_ite | apply showUnits_keeps | apply wr_keeps)

theorem beginTransition_keeps {M : Nat} {s0 : State} (m : Nat) {s : State} (hk : Keeps M s0 s) (hM : Sub 1 M := by exact ‹Sub _ M›.of rfl) :
    Keeps M s0 (beginTransition m s) := by
  unfold beginTransition
  try dsimp only
  repeat' (with_reducible first | assumption | exact hM.of rfl | apply Keeps.refl | apply keeps_ite | apply fset_keeps)

theorem enterMode_keeps {M : Nat} {s0 : State} (m : Nat) {s : State} (hk : Keeps M s0 s) (hM : Sub 33 M := by exact ‹Sub _ M›.of rfl) :
    Keeps M s0 (enterMode m s) := by
  unfold enterMode
  try dsimp only
  repeat' (with_reducible first | assumption | exact hM.of rfl | apply Keeps.refl | apply keeps_ite | apply fset_keeps | apply postmark_keeps)

theorem resetPostmark_keeps {M : Nat} {s0 : State} (kind cause : Nat) {s : State} (hk : Keeps M s0 s) (hM : Sub 33 M := by exact ‹Sub _ M›.of rfl) :
    Keeps M s0 (resetPostmark kind cause s) := by
  unfold resetPostmark
  try dsimp only
  repeat' (with_reducible first | assumption | exact hM.of rfl | apply Keeps.refl | apply keeps_ite | apply postmark_keeps)

theorem updCtrl_keeps {M : Nat} {s0 : State} (c : Nat) (f : Ctrl → Ctrl) {s : State} (hk : Keeps M s0 s) (hM : Sub 128 M := by exact ‹Sub _ M›.of rfl) :
    Keeps M s0 (updCtrl c f s) := by
  unfold updCtrl
  try dsimp only
  repeat' (with_reducible first | assumption | exact hM.of rfl | apply Keeps.refl | apply keeps_ite | split | apply Keeps.upd_nv)

end Sys2Proof.Machine
end

