-- ==== Sys2Proof/Laws/KeepI3cOps.lean ====
section
/-! SUPPORT. Every operation of Machine/I3cOps.lean leaves what `Keeps` says. -/

set_option Elab.async false

namespace Sys2Proof.Machine

theorem sendIbi_keeps {M : Nat} {s0 : State} {s : State} (hk : Keeps M s0 s) (hM : Sub 4194305 M := by exact ‹Sub _ M›.of rfl) :
    Keeps M s0 (sendIbi s) := by
  unfold sendIbi
  try dsimp only
  repeat' (with_reducible first | assumption | exact hM.of rfl | apply Keeps.refl | apply keeps_ite | apply cntAdd_keeps | split | apply Keeps.upd_mgt)

theorem raiseIbi_keeps {M : Nat} {s0 : State} {s : State} (hk : Keeps M s0 s) (hM : Sub 4194305 M := by exact ‹Sub _ M›.of rfl) :
    Keeps M s0 (raiseIbi s) := by
  unfold raiseIbi
  try dsimp only
  repeat' (with_reducible first | assumption | exact hM.of rfl | apply Keeps.refl | apply keeps_ite | apply cntAdd_keeps | apply sendIbi_keeps | split | apply Keeps.upd_mgt)

theorem postMctp_keeps {M : Nat} {s0 : State} (m : List Byte) {s : State} (hk : Keeps M s0 s) (hM : Sub 4194305 M := by exact ‹Sub _ M›.of rfl) :
    Keeps M s0 (postMctp m s) := by
  unfold postMctp
  try dsimp only
  repeat' (with_reducible first | assumption | exact hM.of rfl | apply Keeps.refl | apply keeps_ite | apply raiseIbi_keeps | split | apply Keeps.upd_mgt)

theorem replyMctp_keeps {M : Nat} {s0 : State} (m : List Byte) {s : State} (hk : Keeps M s0 s) (hM : Sub 4194305 M := by exact ‹Sub _ M›.of rfl) :
    Keeps M s0 (replyMctp m s) := by
  unfold replyMctp
  try dsimp only
  repeat' (with_reducible first | assumption | exact hM.of rfl | apply Keeps.refl | apply keeps_ite | apply raiseIbi_keeps | split | apply Keeps.upd_mgt)

theorem tunnelResult_keeps {M : Nat} {s0 : State} (sct sc dw0 : Nat) (data : List Byte) {s : State} (hk : Keeps M s0 s) (hM : Sub 4194305 M := by exact ‹Sub _ M›.of rfl) :
    Keeps M s0 (tunnelResult sct sc dw0 data s) := by
  unfold tunnelResult
  try dsimp only
  repeat' (with_reducible first | assumption | exact hM.of rfl | apply Keeps.refl | apply keeps_ite | apply postMctp_keeps | split | apply Keeps.upd_mgt)

end Sys2Proof.Machine
end

