-- ==== Sys2Proof/Laws/KeepSpace.lean ====
section
/-! SUPPORT. Every operation of Machine/Space.lean leaves what `Keeps` says. -/

set_option Elab.async false

namespace Sys2Proof.Machine

theorem irqPend_keeps {M : Nat} {s0 : State} (f v : Nat) {s : State} (hk : Keeps M s0 s) (hM : Sub 128 M := by exact ‹Sub _ M›.of rfl) :
    Keeps M s0 (irqPend f v s) := by
  unfold irqPend
  try dsimp only
  repeat' (with_reducible first | assumption | exact hM.of rfl | apply Keeps.refl | apply keeps_ite | split | apply Keeps.upd_nv | intro _)

theorem putSpace_keeps {M : Nat} {s0 : State} (sp : Space) (a : Nat) (a0 : List Byte) {s : State} (hk : Keeps M s0 s) (hM : Sub 33554434 M := by exact ‹Sub _ M›.of rfl) :
    Keeps M s0 (putSpace sp a a0 s) := by
  induction a0 generalizing sp a s with
  | nil =>
    unfold putSpace
    exact hk
  | cons x l ih =>
    unfold putSpace
    try dsimp only
    repeat' (with_reducible first | assumption | apply ih | exact hM.of rfl | apply Keeps.refl | apply keeps_ite | apply wrByte_keeps | split)

theorem clearPoison_keeps {M : Nat} {s0 : State} (ps : List Nat) {s : State} (hk : Keeps M s0 s) (hM : Sub 4096 M := by exact ‹Sub _ M›.of rfl) :
    Keeps M s0 (clearPoison ps s) := by
  unfold clearPoison
  try dsimp only
  repeat' (with_reducible first | assumption | exact hM.of rfl | apply Keeps.refl | apply keeps_ite | split | apply Keeps.upd_dram)

theorem snoopLocked_keeps {M : Nat} {s0 : State} (ps : List Nat) {s : State} (hk : Keeps M s0 s) (hM : Sub 1048576 M := by exact ‹Sub _ M›.of rfl) :
    Keeps M s0 (snoopLocked ps s) := by
  unfold snoopLocked
  try dsimp only
  repeat' (with_reducible first | assumption | exact hM.of rfl | apply Keeps.refl | apply keeps_ite | split | apply Keeps.upd_clus | intro _)

theorem writeSpace_keeps {M : Nat} {s0 : State} (sp : Space) (a : Nat) (bs : List Byte) {s : State} (hk : Keeps M s0 s) (hM : Sub 34607106 M := by exact ‹Sub _ M›.of rfl) :
    Keeps M s0 (writeSpace sp a bs s) := by
  unfold writeSpace
  try dsimp only
  repeat' (with_reducible first | assumption | exact hM.of rfl | apply Keeps.refl | apply keeps_ite | apply clearPoison_keeps | apply putSpace_keeps | apply snoopLocked_keeps | split | intro _)

theorem zeroRange_keeps {M : Nat} {s0 : State} (a b : Nat) {s : State} (hk : Keeps M s0 s) (hM : Sub 33558530 M := by exact ‹Sub _ M›.of rfl) :
    Keeps M s0 (zeroRange a b s) := by
  unfold zeroRange
  exact (hk.updMem (fun g => Memory.wf_filter _ g)).upd_dram_dirty

theorem zeroGranule_keeps {M : Nat} {s0 : State} (g : Nat) {s : State} (hk : Keeps M s0 s) (hM : Sub 33558530 M := by exact ‹Sub _ M›.of rfl) :
    Keeps M s0 (zeroGranule g s) := by
  unfold zeroGranule
  try dsimp only
  repeat' (with_reducible first | assumption | exact hM.of rfl | apply Keeps.refl | apply keeps_ite | apply zeroRange_keeps)

end Sys2Proof.Machine
end

