-- ==== Sys2Proof/Laws/KeepQueues.lean ====
section
/-! SUPPORT. Every operation of Machine/Queues.lean leaves what `Keeps` says. -/

set_option Elab.async false

namespace Sys2Proof.Machine

theorem setCmd_keeps {M : Nat} {s0 : State} (c : Cmd) {s : State} (hk : Keeps M s0 s) (hM : Sub 128 M := by exact ‹Sub _ M›.of rfl) :
    Keeps M s0 (setCmd c s) := by
  unfold setCmd
  try dsimp only
  repeat' (with_reducible first | assumption | exact hM.of rfl | apply Keeps.refl | apply keeps_ite | split | apply Keeps.upd_nv)

theorem updSq_keeps {M : Nat} {s0 : State} (c q : Nat) (f : Sq → Sq) {s : State} (hk : Keeps M s0 s) (hM : Sub 128 M := by exact ‹Sub _ M›.of rfl) :
    Keeps M s0 (updSq c q f s) := by
  unfold updSq
  try dsimp only
  repeat' (with_reducible first | assumption | exact hM.of rfl | apply Keeps.refl | apply keeps_ite | apply updCtrl_keeps)

theorem updCq_keeps {M : Nat} {s0 : State} (c q : Nat) (f : Cq → Cq) {s : State} (hk : Keeps M s0 s) (hM : Sub 128 M := by exact ‹Sub _ M›.of rfl) :
    Keeps M s0 (updCq c q f s) := by
  unfold updCq
  try dsimp only
  repeat' (with_reducible first | assumption | exact hM.of rfl | apply Keeps.refl | apply keeps_ite | apply updCtrl_keeps)

theorem showTags_keeps {M : Nat} {s0 : State} {s : State} (hk : Keeps M s0 s) (hM : Sub 1 M := by exact ‹Sub _ M›.of rfl) :
    Keeps M s0 (showTags s) := by
  unfold showTags
  try dsimp only
  repeat' (with_reducible first | assumption | exact hM.of rfl | apply Keeps.refl | apply keeps_ite | apply fset_keeps | apply wr_keeps)

theorem postEntry_keeps {M : Nat} {s0 : State} (c cq : Nat) (e : Cqe) {s : State} (hk : Keeps M s0 s) (hM : Sub 128 M := by exact ‹Sub _ M›.of rfl) :
    Keeps M s0 (postEntry c cq e s) := by
  unfold postEntry
  extract_lets s1
  have h1 : Keeps M s0 s1 := updCq_keeps _ _ _ hk
  clear_value s1
  split
  · exact h1
  · split
    · exact Keeps.upd_nv h1
    · exact irqPend_keeps _ _ h1

theorem retireCmd_keeps {M : Nat} {s0 : State} (x : Cmd) {s : State} (hk : Keeps M s0 s) (hM : Sub 128 M := by exact ‹Sub _ M›.of rfl) :
    Keeps M s0 (retireCmd x s) := by
  unfold retireCmd
  try dsimp only
  repeat' (with_reducible first | assumption | exact hM.of rfl | apply Keeps.refl | apply keeps_ite | split | apply Keeps.upd_nv)

theorem postResult_keeps {M : Nat} {s0 : State} (x : Cmd) (e : Cqe) {s : State} (hk : Keeps M s0 s) (hM : Sub 4194465 M := by exact ‹Sub _ M›.of rfl) :
    Keeps M s0 (postResult x e s) := by
  unfold postResult
  try dsimp only
  repeat' (with_reducible first | assumption | exact hM.of rfl | apply Keeps.refl | apply keeps_ite | apply postEntry_keeps | apply raiseEvent_keeps | apply retireCmd_keeps | apply tunnelResult_keeps | apply updCq_keeps | split | apply Keeps.upd_nv)

theorem settleOne_keeps {M : Nat} {s0 : State} {s : State} (hk : Keeps M s0 s) (hM : Sub 4194465 M := by exact ‹Sub _ M›.of rfl) :
    Keeps M s0 (settleOne s) := by
  unfold settleOne
  try dsimp only
  repeat' (with_reducible first | assumption | exact hM.of rfl | apply Keeps.refl | apply keeps_ite | apply postResult_keeps | apply setCmd_keeps | split)

theorem settle_keeps {M : Nat} {s0 : State} (a0 : Nat) {s : State} (hk : Keeps M s0 s) (hM : Sub 4194465 M := by exact ‹Sub _ M›.of rfl) :
    Keeps M s0 (settle a0 s) := by
  induction a0 generalizing s with
  | zero =>
    unfold settle
    exact hk
  | succ n ih =>
    unfold settle
    try dsimp only
    repeat' (with_reducible first | assumption | exact hM.of rfl | apply Keeps.refl | apply keeps_ite | apply settleOne_keeps | apply ih | split | intro _)

theorem shutdownProgress_keeps {M : Nat} {s0 : State} {s : State} (hk : Keeps M s0 s) (hM : Sub 128 M := by exact ‹Sub _ M›.of rfl) :
    Keeps M s0 (shutdownProgress s) := by
  unfold shutdownProgress
  try dsimp only
  repeat' (with_reducible first | assumption | exact hM.of rfl | apply Keeps.refl | apply keeps_ite | split | apply Keeps.upd_nv | intro _)

theorem beginShutdown_keeps {M : Nat} {s0 : State} (c : Nat) (normal : Bool) {s : State} (hk : Keeps M s0 s) (hM : Sub 128 M := by exact ‹Sub _ M›.of rfl) :
    Keeps M s0 (beginShutdown c normal s) := by
  unfold beginShutdown
  try dsimp only
  repeat' (with_reducible first | assumption | exact hM.of rfl | apply Keeps.refl | apply keeps_ite | apply updCtrl_keeps | split | intro _)

theorem shutdownWritten_keeps {M : Nat} {s0 : State} {s : State} (hk : Keeps M s0 s) (hM : Sub 128 M := by exact ‹Sub _ M›.of rfl) :
    Keeps M s0 (shutdownWritten s) := by
  unfold shutdownWritten
  try dsimp only
  repeat' (with_reducible first | assumption | exact hM.of rfl | apply Keeps.refl | apply keeps_ite | apply shutdownProgress_keeps | split | apply Keeps.upd_nv | intro _)

theorem settleAll_keeps {M : Nat} {s0 : State} {s : State} (hk : Keeps M s0 s) (hM : Sub 4194465 M := by exact ‹Sub _ M›.of rfl) :
    Keeps M s0 (settleAll s) := by
  unfold settleAll
  try dsimp only
  repeat' (with_reducible first | assumption | exact hM.of rfl | apply Keeps.refl | apply keeps_ite | apply settle_keeps | apply showTags_keeps | apply shutdownProgress_keeps)

theorem postHeld_keeps {M : Nat} {s0 : State} (c cq : Nat) (a0 : Nat) {s : State} (hk : Keeps M s0 s) (hM : Sub 128 M := by exact ‹Sub _ M›.of rfl) :
    Keeps M s0 (postHeld c cq a0 s) := by
  induction a0 generalizing c cq s with
  | zero =>
    unfold postHeld
    exact hk
  | succ n ih =>
    unfold postHeld
    try dsimp only
    repeat' (with_reducible first | assumption | exact hM.of rfl | apply Keeps.refl | apply keeps_ite | apply postEntry_keeps | apply retireCmd_keeps | apply updCq_keeps | apply ih | split | intro _)

theorem postWithheld_keeps {M : Nat} {s0 : State} {s : State} (hk : Keeps M s0 s) (hM : Sub 4194465 M := by exact ‹Sub _ M›.of rfl) :
    Keeps M s0 (postWithheld s) := by
  unfold postWithheld
  try dsimp only
  repeat' (with_reducible first | assumption | exact hM.of rfl | apply Keeps.refl | apply keeps_ite | apply postHeld_keeps | apply settleAll_keeps | apply forEach_keeps | split | intro _)

theorem haltQueue_keeps {M : Nat} {s0 : State} (x : Cmd) {s : State} (hk : Keeps M s0 s) (hM : Sub 128 M := by exact ‹Sub _ M›.of rfl) :
    Keeps M s0 (haltQueue x s) := by
  unfold haltQueue
  try dsimp only
  repeat' (with_reducible first | assumption | exact hM.of rfl | apply Keeps.refl | apply keeps_ite | apply updSq_keeps | split | apply Keeps.upd_nv | intro _)

theorem completeBoth_keeps {M : Nat} {s0 : State} (tag sct sc : Nat) (dnr : Bool) (dw0 dw1 : Nat) (data : List Byte) {s : State} (hk : Keeps M s0 s) (hM : Sub 4194465 M := by exact ‹Sub _ M›.of rfl) :
    Keeps M s0 (completeBoth tag sct sc dnr dw0 dw1 data s) := by
  unfold completeBoth
  try dsimp only
  repeat' (with_reducible first | assumption | exact hM.of rfl | apply Keeps.refl | apply keeps_ite | apply haltQueue_keeps | apply setCmd_keeps | apply settleAll_keeps | split | apply Keeps.upd_nv | intro _)

theorem complete_keeps {M : Nat} {s0 : State} (tag sct sc : Nat) (dnr : Bool) (dw0 : Nat) (data : List Byte) {s : State} (hk : Keeps M s0 s) (hM : Sub 4194465 M := by exact ‹Sub _ M›.of rfl) :
    Keeps M s0 (complete tag sct sc dnr dw0 data s) := by
  unfold complete
  try dsimp only
  repeat' (with_reducible first | assumption | exact hM.of rfl | apply Keeps.refl | apply keeps_ite | apply completeBoth_keeps)

theorem completeOk_keeps {M : Nat} {s0 : State} (tag : Nat) {s : State} (hk : Keeps M s0 s) (hM : Sub 4194465 M := by exact ‹Sub _ M›.of rfl) :
    Keeps M s0 (completeOk tag s) := by
  unfold completeOk
  try dsimp only
  repeat' (with_reducible first | assumption | exact hM.of rfl | apply Keeps.refl | apply keeps_ite | apply complete_keeps)

theorem completeDw_keeps {M : Nat} {s0 : State} (tag dw0 : Nat) {s : State} (hk : Keeps M s0 s) (hM : Sub 4194465 M := by exact ‹Sub _ M›.of rfl) :
    Keeps M s0 (completeDw tag dw0 s) := by
  unfold completeDw
  try dsimp only
  repeat' (with_reducible first | assumption | exact hM.of rfl | apply Keeps.refl | apply keeps_ite | apply complete_keeps)

theorem completeData_keeps {M : Nat} {s0 : State} (tag : Nat) (d : List Byte) {s : State} (hk : Keeps M s0 s) (hM : Sub 4194465 M := by exact ‹Sub _ M›.of rfl) :
    Keeps M s0 (completeData tag d s) := by
  unfold completeData
  try dsimp only
  repeat' (with_reducible first | assumption | exact hM.of rfl | apply Keeps.refl | apply keeps_ite | apply complete_keeps)

theorem completeErr_keeps {M : Nat} {s0 : State} (tag sc : Nat) {s : State} (hk : Keeps M s0 s) (hM : Sub 4194465 M := by exact ‹Sub _ M›.of rfl) :
    Keeps M s0 (completeErr tag sc s) := by
  unfold completeErr
  try dsimp only
  repeat' (with_reducible first | assumption | exact hM.of rfl | apply Keeps.refl | apply keeps_ite | apply complete_keeps)

theorem invalidField_keeps {M : Nat} {s0 : State} (tag : Nat) {s : State} (hk : Keeps M s0 s) (hM : Sub 4194465 M := by exact ‹Sub _ M›.of rfl) :
    Keeps M s0 (invalidField tag s) := by
  unfold invalidField
  try dsimp only
  repeat' (with_reducible first | assumption | exact hM.of rfl | apply Keeps.refl | apply keeps_ite | apply complete_keeps)

theorem deliverAens_keeps {M : Nat} {s0 : State} (a0 : Nat) {s : State} (hk : Keeps M s0 s) (hM : Sub 4194465 M := by exact ‹Sub _ M›.of rfl) :
    Keeps M s0 (deliverAens a0 s) := by
  induction a0 generalizing s with
  | zero =>
    unfold deliverAens
    exact hk
  | succ n ih =>
    unfold deliverAens
    try dsimp only
    repeat' (with_reducible first | assumption | apply ih | exact hM.of rfl | apply Keeps.refl | apply keeps_ite | apply completeDw_keeps | apply updCtrl_keeps | split | apply Keeps.upd_nv)

theorem raiseAen_keeps {M : Nat} {s0 : State} (ctrls : List Nat) (typ info log : Nat) {s : State} (hk : Keeps M s0 s) (hM : Sub 4194465 M := by exact ‹Sub _ M›.of rfl) :
    Keeps M s0 (raiseAen ctrls typ info log s) := by
  unfold raiseAen
  try dsimp only
  repeat' (with_reducible first | assumption | exact hM.of rfl | apply Keeps.refl | apply keeps_ite | apply deliverAens_keeps | split | apply Keeps.upd_nv)

theorem clearAen_keeps {M : Nat} {s0 : State} (ctrl typ : Nat) {s : State} (hk : Keeps M s0 s) (hM : Sub 4194465 M := by exact ‹Sub _ M›.of rfl) :
    Keeps M s0 (clearAen ctrl typ s) := by
  unfold clearAen
  try dsimp only
  repeat' (with_reducible first | assumption | exact hM.of rfl | apply Keeps.refl | apply keeps_ite | apply deliverAens_keeps | split | apply Keeps.upd_nv)

theorem smartEvent_keeps {M : Nat} {s0 : State} (bit : Nat) {s : State} (hk : Keeps M s0 s) (hM : Sub 4194465 M := by exact ‹Sub _ M›.of rfl) :
    Keeps M s0 (smartEvent bit s) := by
  unfold smartEvent
  try dsimp only
  repeat' (with_reducible first | assumption | exact hM.of rfl | apply Keeps.refl | apply keeps_ite | apply raiseAen_keeps)

theorem nsChanged_keeps {M : Nat} {s0 : State} (nsid : Nat) (ctrls : List Nat) {s : State} (hk : Keeps M s0 s) (hM : Sub 4194465 M := by exact ‹Sub _ M›.of rfl) :
    Keeps M s0 (nsChanged nsid ctrls s) := by
  unfold nsChanged
  try dsimp only
  repeat' (with_reducible first | assumption | exact hM.of rfl | apply Keeps.refl | apply keeps_ite | apply raiseAen_keeps | split | apply Keeps.upd_nv)

theorem tagPause_keeps {M : Nat} {s0 : State} (c : Nat) {s : State} (hk : Keeps M s0 s) (hM : Sub 161 M := by exact ‹Sub _ M›.of rfl) :
    Keeps M s0 (tagPause c s) := by
  unfold tagPause
  try dsimp only
  repeat' (with_reducible first | assumption | exact hM.of rfl | apply Keeps.refl | apply keeps_ite | apply cntAdd_keeps | apply raiseEvent_keeps | apply updCtrl_keeps | split | apply Keeps.upd_nv)

theorem trackerPause_keeps {M : Nat} {s0 : State} {s : State} (hk : Keeps M s0 s) (hM : Sub 161 M := by exact ‹Sub _ M›.of rfl) :
    Keeps M s0 (trackerPause s) := by
  unfold trackerPause
  try dsimp only
  repeat' (with_reducible first | assumption | exact hM.of rfl | apply Keeps.refl | apply keeps_ite | apply cntAdd_keeps | apply raiseEvent_keeps | split | apply Keeps.upd_nv)

theorem returnTag_keeps {M : Nat} {s0 : State} (c : Nat) {s : State} (hk : Keeps M s0 s) (hM : Sub 129 M := by exact ‹Sub _ M›.of rfl) :
    Keeps M s0 (returnTag c s) := by
  unfold returnTag returnTag.shareTag
  try dsimp only
  repeat' (with_reducible first | assumption | exact hM.of rfl | apply Keeps.refl | apply keeps_ite | apply showTags_keeps | apply updCtrl_keeps | split | apply Keeps.upd_nv)

theorem arbitrated_keeps {M : Nat} {s0 : State} (c q : Nat) {s : State} (hk : Keeps M s0 s) (hM : Sub 128 M := by exact ‹Sub _ M›.of rfl) :
    Keeps M s0 (arbitrated c q s) := by
  unfold arbitrated
  try dsimp only
  repeat' (with_reducible first | assumption | exact hM.of rfl | apply Keeps.refl | apply keeps_ite | apply updCtrl_keeps | split | apply Keeps.upd_nv | intro _)

theorem enterCmd_keeps {M : Nat} {s0 : State} (c q cid : Nat) (k : CmdKind) (nsid lba nlb : Nat) (sharedTag : Bool) {s : State} (hk : Keeps M s0 s) (hM : Sub 4194465 M := by exact ‹Sub _ M›.of rfl) :
    Keeps M s0 (enterCmd c q cid k nsid lba nlb sharedTag s) := by
  unfold enterCmd
  try dsimp only
  repeat' (with_reducible first | assumption | exact hM.of rfl | apply Keeps.refl | apply keeps_ite | apply complete_keeps | apply completeErr_keeps | apply showTags_keeps | apply trackerPause_keeps | apply updCtrl_keeps | apply updSq_keeps | split | apply Keeps.upd_nv | intro _)

theorem pauseTagless_keeps {M : Nat} {s0 : State} {s : State} (hk : Keeps M s0 s) (hM : Sub 161 M := by exact ‹Sub _ M›.of rfl) :
    Keeps M s0 (pauseTagless s) := by
  unfold pauseTagless
  try dsimp only
  repeat' (with_reducible first | assumption | exact hM.of rfl | apply Keeps.refl | apply keeps_ite | apply tagPause_keeps | apply forEach_keeps | split | intro _)

theorem fetchCommand_keeps {M : Nat} {s0 : State} (cid : Nat) (k : CmdKind) (nsid lba nlb : Nat) {s : State} (hk : Keeps M s0 s) (hM : Sub 4194465 M := by exact ‹Sub _ M›.of rfl) :
    Keeps M s0 (fetchCommand cid k nsid lba nlb s) := by
  unfold fetchCommand
  try dsimp only
  repeat' (with_reducible first | assumption | exact hM.of rfl | apply Keeps.refl | apply keeps_ite | apply arbitrated_keeps | apply enterCmd_keeps | apply pauseTagless_keeps | apply tagPause_keeps | apply trackerPause_keeps | split | intro _)

end Sys2Proof.Machine
end

