-- ==== Sys2Proof/Laws/KeepModeOps.lean ====
section
/-! SUPPORT. Every operation of Machine/ModeOps.lean leaves what `Keeps` says. -/

set_option Elab.async false

namespace Sys2Proof.Machine

theorem setPll_keeps {M : Nat} {s0 : State} (n : Nat) (on : Bool) {s : State} (hk : Keeps M s0 s) (hM : Sub 1 M := by exact ‹Sub _ M›.of rfl) :
    Keeps M s0 (setPll n on s) := by
  unfold setPll
  try dsimp only
  repeat' (with_reducible first | assumption | exact hM.of rfl | apply Keeps.refl | apply keeps_ite | apply fset_keeps | split | intro _)

theorem showClocks_keeps {M : Nat} {s0 : State} {s : State} (hk : Keeps M s0 s) (hM : Sub 1 M := by exact ‹Sub _ M›.of rfl) :
    Keeps M s0 (showClocks s) := by
  unfold showClocks
  try dsimp only
  repeat' (with_reducible first | assumption | exact hM.of rfl | apply Keeps.refl | apply keeps_ite | apply fset_keeps | apply setPll_keeps | apply forN_keeps | split | intro _)

theorem setPower_keeps {M : Nat} {s0 : State} (mask : Nat) {s : State} (hk : Keeps M s0 s) (hM : Sub 1 M := by exact ‹Sub _ M›.of rfl) :
    Keeps M s0 (setPower mask s) := by
  unfold setPower
  try dsimp only
  repeat' (with_reducible first | assumption | exact hM.of rfl | apply Keeps.refl | apply keeps_ite | apply setDomains_keeps | apply showClocks_keeps | split | intro _)

theorem goMode_keeps {M : Nat} {s0 : State} (m : Nat) {s : State} (hk : Keeps M s0 s) (hM : Sub 33 M := by exact ‹Sub _ M›.of rfl) :
    Keeps M s0 (goMode m s) := by
  unfold goMode
  try dsimp only
  repeat' (with_reducible first | assumption | exact hM.of rfl | apply Keeps.refl | apply keeps_ite | apply enterMode_keeps | apply setPower_keeps | split | intro _)

theorem waitCommit_keeps {M : Nat} {s0 : State} (r : LateReset) {s : State} (hk : Keeps M s0 s) (hM : Sub 64 M := by exact ‹Sub _ M›.of rfl) :
    Keeps M s0 (waitCommit r s) := by
  unfold waitCommit
  try dsimp only
  repeat' (with_reducible first | assumption | exact hM.of rfl | apply Keeps.refl | apply keeps_ite | split | apply Keeps.upd_pow | intro _)

theorem wakeTimer_keeps {M : Nat} {s0 : State} {s : State} (hk : Keeps M s0 s) (hM : Sub 64 M := by exact ‹Sub _ M›.of rfl) :
    Keeps M s0 (wakeTimer s) := by
  unfold wakeTimer
  try dsimp only
  repeat' (with_reducible first | assumption | exact hM.of rfl | apply Keeps.refl | apply keeps_ite | split | apply Keeps.upd_pow | intro _)

theorem recordReadOnlyCause_keeps {M : Nat} {s0 : State} (cause : Nat) {s : State} (hk : Keeps M s0 s) (hM : Sub 33 M := by exact ‹Sub _ M›.of rfl) :
    Keeps M s0 (recordReadOnlyCause cause s) := by
  unfold recordReadOnlyCause
  try dsimp only
  repeat' (with_reducible first | assumption | exact hM.of rfl | apply Keeps.refl | apply keeps_ite | apply fset_keeps | apply postmark_keeps)

theorem refuseUnstarted_keeps {M : Nat} {s0 : State} {s : State} (hk : Keeps M s0 s) (hM : Sub 4194465 M := by exact ‹Sub _ M›.of rfl) :
    Keeps M s0 (refuseUnstarted s) := by
  unfold refuseUnstarted
  try dsimp only
  repeat' (with_reducible first | assumption | exact hM.of rfl | apply Keeps.refl | apply keeps_ite | apply completeErr_keeps | apply forEach_keeps | apply forEach_keeps | split | intro _)

theorem goReadOnly_keeps {M : Nat} {s0 : State} {s : State} (hk : Keeps M s0 s) (hM : Sub 4194465 M := by exact ‹Sub _ M›.of rfl) :
    Keeps M s0 (goReadOnly s) := by
  unfold goReadOnly
  try dsimp only
  repeat' (with_reducible first | assumption | exact hM.of rfl | apply Keeps.refl | apply keeps_ite | apply goMode_keeps | apply refuseUnstarted_keeps | apply smartEvent_keeps | split | intro _)

theorem failSanitize_keeps {M : Nat} {s0 : State} {s : State} (hk : Keeps M s0 s) (hM : Sub 192 M := by exact ‹Sub _ M›.of rfl) :
    Keeps M s0 (failSanitize s) := by
  unfold failSanitize
  try dsimp only
  repeat' (with_reducible first | assumption | exact hM.of rfl | apply Keeps.refl | apply keeps_ite | split | apply Keeps.upd_pow_nv | intro _)

theorem settleReadOnly_keeps {M : Nat} {s0 : State} {s : State} (hk : Keeps M s0 s) (hM : Sub 4194529 M := by exact ‹Sub _ M›.of rfl) :
    Keeps M s0 (settleReadOnly s) := by
  unfold settleReadOnly
  try dsimp only
  repeat' (with_reducible first | assumption | exact hM.of rfl | apply Keeps.refl | apply keeps_ite | apply failSanitize_keeps | apply goReadOnly_keeps | split | intro _)

theorem enterReadOnly_keeps {M : Nat} {s0 : State} (cause : Nat) {s : State} (hk : Keeps M s0 s) (hM : Sub 4194529 M := by exact ‹Sub _ M›.of rfl) :
    Keeps M s0 (enterReadOnly cause s) := by
  unfold enterReadOnly
  try dsimp only
  repeat' (with_reducible first | assumption | exact hM.of rfl | apply Keeps.refl | apply keeps_ite | apply recordReadOnlyCause_keeps | apply settleReadOnly_keeps | split | intro _)

end Sys2Proof.Machine
end

