-- ==== Sys2Proof/Laws/KeepSchOps.lean ====
section
/-! SUPPORT. Every operation of Machine/SchOps.lean leaves what `Keeps` says. -/

set_option Elab.async false

namespace Sys2Proof.Machine

theorem updSch_keeps {M : Nat} {s0 : State} (f : Sch → Sch) {s : State} (hk : Keeps M s0 s) (hM : Sub 262144 M := by exact ‹Sub _ M›.of rfl) :
    Keeps M s0 (updSch f s) := by
  unfold updSch
  try dsimp only
  repeat' (with_reducible first | assumption | exact hM.of rfl | apply Keeps.refl | apply keeps_ite | split | apply Keeps.upd_sch)

theorem updClus_keeps {M : Nat} {s0 : State} (n : Nat) (f : Clus → Clus) {s : State} (hk : Keeps M s0 s) (hM : Sub 1048576 M := by exact ‹Sub _ M›.of rfl) :
    Keeps M s0 (updClus n f s) := by
  unfold updClus
  try dsimp only
  repeat' (with_reducible first | assumption | exact hM.of rfl | apply Keeps.refl | apply keeps_ite | split | apply Keeps.upd_clus)

theorem setLetter_keeps {M : Nat} {s0 : State} (l : Letter) {s : State} (hk : Keeps M s0 s) (hM : Sub 262144 M := by exact ‹Sub _ M›.of rfl) :
    Keeps M s0 (setLetter l s) := by
  unfold setLetter
  try dsimp only
  repeat' (with_reducible first | assumption | exact hM.of rfl | apply Keeps.refl | apply keeps_ite | apply updSch_keeps)

theorem showSch_keeps {M : Nat} {s0 : State} {s : State} (hk : Keeps M s0 s) (hM : Sub 1 M := by exact ‹Sub _ M›.of rfl) :
    Keeps M s0 (showSch s) := by
  unfold showSch
  try dsimp only
  repeat' (with_reducible first | assumption | exact hM.of rfl | apply Keeps.refl | apply keeps_ite | apply fset_keeps | apply wr_keeps | apply forN_keeps | split | intro _)

theorem recordEnd_keeps {M : Nat} {s0 : State} (e reason low : Nat) (faddr pc : Word) {s : State} (hk : Keeps M s0 s) (hM : Sub 2048 M := by exact ‹Sub _ M›.of rfl) :
    Keeps M s0 (recordEnd e reason low faddr pc s) := by
  unfold recordEnd
  try dsimp only
  repeat' (with_reducible first | assumption | exact hM.of rfl | apply Keeps.refl | apply keeps_ite | split | apply Keeps.upd_prog)

theorem execLetterEnded_keeps {M : Nat} {s0 : State} (l : Letter) {s : State} (hk : Keeps M s0 s) (hM : Sub 2048 M := by exact ‹Sub _ M›.of rfl) :
    Keeps M s0 (execLetterEnded l s) := by
  unfold execLetterEnded
  try dsimp only
  repeat' (with_reducible first | assumption | exact hM.of rfl | apply Keeps.refl | apply keeps_ite | split | apply Keeps.upd_prog)

theorem makeReady_keeps {M : Nat} {s0 : State} (id : Nat) {s : State} (hk : Keeps M s0 s) (hM : Sub 262144 M := by exact ‹Sub _ M›.of rfl) :
    Keeps M s0 (makeReady id s) := by
  unfold makeReady
  try dsimp only
  repeat' (with_reducible first | assumption | exact hM.of rfl | apply Keeps.refl | apply keeps_ite | apply setLetter_keeps | apply updSch_keeps | split)

theorem releaseReady_keeps {M : Nat} {s0 : State} {s : State} (hk : Keeps M s0 s) (hM : Sub 262144 M := by exact ‹Sub _ M›.of rfl) :
    Keeps M s0 (releaseReady s) := by
  unfold releaseReady
  try dsimp only
  repeat' (with_reducible first | assumption | exact hM.of rfl | apply Keeps.refl | apply keeps_ite | apply forEach_keeps | apply makeReady_keeps | apply forEach_keeps | split | intro _)

theorem decrement_keeps {M : Nat} {s0 : State} (i a : Nat) {s : State} (hk : Keeps M s0 s) (hM : Sub 262177 M := by exact ‹Sub _ M›.of rfl) :
    Keeps M s0 (decrement i a s) := by
  unfold decrement
  try dsimp only
  repeat' (with_reducible first | assumption | exact hM.of rfl | apply Keeps.refl | apply keeps_ite | apply raiseEvent_keeps | apply updSch_keeps | split)

theorem releaseSignals_keeps {M : Nat} {s0 : State} (a0 : Nat) {s : State} (hk : Keeps M s0 s) (hM : Sub 262177 M := by exact ‹Sub _ M›.of rfl) :
    Keeps M s0 (releaseSignals a0 s) := by
  induction a0 generalizing s with
  | zero =>
    unfold releaseSignals
    exact hk
  | succ n ih =>
    unfold releaseSignals
    try dsimp only
    repeat' (with_reducible first | assumption | apply ih | exact hM.of rfl | apply Keeps.refl | apply keeps_ite | apply decrement_keeps | apply updSch_keeps | split)

theorem freeRoutes_keeps {M : Nat} {s0 : State} {s : State} (hk : Keeps M s0 s) (hM : Sub 262144 M := by exact ‹Sub _ M›.of rfl) :
    Keeps M s0 (freeRoutes s) := by
  unfold freeRoutes
  try dsimp only
  repeat' (with_reducible first | assumption | exact hM.of rfl | apply Keeps.refl | apply keeps_ite | apply updSch_keeps)

theorem endLetter_keeps {M : Nat} {s0 : State} (id status : Nat) {s : State} (hk : Keeps M s0 s) (hM : Sub 264225 M := by exact ‹Sub _ M›.of rfl) :
    Keeps M s0 (endLetter id status s) := by
  unfold endLetter
  try dsimp only
  repeat' (with_reducible first | assumption | exact hM.of rfl | apply Keeps.refl | apply keeps_ite | apply decrement_keeps | apply execLetterEnded_keeps | apply freeRoutes_keeps | apply releaseReady_keeps | apply releaseSignals_keeps | apply showSch_keeps | apply updSch_keeps | split)

theorem endLetters_keeps {M : Nat} {s0 : State} (ids : List Nat) (status : Nat) {s : State} (hk : Keeps M s0 s) (hM : Sub 264225 M := by exact ‹Sub _ M›.of rfl) :
    Keeps M s0 (endLetters ids status s) := by
  unfold endLetters
  try dsimp only
  repeat' (with_reducible first | assumption | exact hM.of rfl | apply Keeps.refl | apply keeps_ite | apply endLetter_keeps | apply forEach_keeps | apply forEach_keeps | split | intro _)

theorem endStranded_keeps {M : Nat} {s0 : State} {s : State} (hk : Keeps M s0 s) (hM : Sub 264225 M := by exact ‹Sub _ M›.of rfl) :
    Keeps M s0 (endStranded s) := by
  unfold endStranded
  try dsimp only
  repeat' (with_reducible first | assumption | exact hM.of rfl | apply Keeps.refl | apply keeps_ite | apply endLetter_keeps | apply forEach_keeps | apply raiseEvent_keeps | apply recordEnd_keeps | apply forEach_keeps | split | intro _)

theorem settleSch_keeps {M : Nat} {s0 : State} {s : State} (hk : Keeps M s0 s) (hM : Sub 264225 M := by exact ‹Sub _ M›.of rfl) :
    Keeps M s0 (settleSch s) := by
  unfold settleSch
  try dsimp only
  repeat' (with_reducible first | assumption | exact hM.of rfl | apply Keeps.refl | apply keeps_ite | apply endStranded_keeps | apply releaseReady_keeps | apply showSch_keeps)

theorem enterLetter_keeps {M : Nat} {s0 : State} (r : SubRec) (x : Route) (d0 d1 arg0 arg1 : Word) {s : State} (hk : Keeps M s0 s) (hM : Sub 264225 M := by exact ‹Sub _ M›.of rfl) :
    Keeps M s0 (enterLetter r x d0 d1 arg0 arg1 s).2 := by
  unfold enterLetter
  try dsimp only
  repeat' (with_reducible first | assumption | exact hM.of rfl | apply Keeps.refl | apply keeps_ite | apply settleSch_keeps | apply updSch_keeps)

theorem enterLetter_keeps_eq {M : Nat} {s0 : State} {r : SubRec} {x : Route} {d0 d1 arg0 arg1 : Word} {s : State} {v0} {t' : State} (he : enterLetter r x d0 d1 arg0 arg1 s = (v0, t')) (hk : Keeps M s0 s) (hM : Sub 264225 M := by exact ‹Sub _ M›.of rfl) :
    Keeps M s0 t' := by
  have g : Keeps M s0 (enterLetter r x d0 d1 arg0 arg1 s).2 := by
    with_reducible apply enterLetter_keeps <;> assumption
  rw [he] at g
  exact g

theorem raisePigeon_keeps {M : Nat} {s0 : State} (c q : Nat) {s : State} (hk : Keeps M s0 s) (hM : Sub 264353 M := by exact ‹Sub _ M›.of rfl) :
    Keeps M s0 (raisePigeon c q s) := by
  unfold raisePigeon
  try dsimp only
  repeat' (with_reducible first | assumption | exact hM.of rfl | apply Keeps.refl | apply keeps_ite | refine enterLetter_keeps_eq (by assumption) ?_ | apply enterLetter_keeps | split | apply Keeps.upd_nv | intro _)

theorem servePigeon_keeps {M : Nat} {s0 : State} (p : Nat × Nat → Bool) {s : State} (hk : Keeps M s0 s) (hM : Sub 264353 M := by exact ‹Sub _ M›.of rfl) :
    Keeps M s0 (servePigeon p s) := by
  unfold servePigeon
  try dsimp only
  repeat' (with_reducible first | assumption | exact hM.of rfl | apply Keeps.refl | apply keeps_ite | apply endLetters_keeps | split | apply Keeps.upd_nv | intro _)

theorem submitLetter_keeps {M : Nat} {s0 : State} (a : Option (Nat × Nat × Bool)) (d0 d1 arg0 arg1 : Word) {s : State} (hk : Keeps M s0 s) (hM : Sub 264229 M := by exact ‹Sub _ M›.of rfl) :
    Keeps M s0 (submitLetter a d0 d1 arg0 arg1 s).2 := by
  unfold submitLetter
  try dsimp only
  repeat' (with_reducible first | assumption | exact hM.of rfl | apply Keeps.refl | apply keeps_ite | refine enterLetter_keeps_eq (by assumption) ?_ | apply enterLetter_keeps | apply raiseEvent_keeps | apply updSch_keeps | apply useFree_keeps | split)

theorem submitLetter_keeps_eq {M : Nat} {s0 : State} {a : Option (Nat × Nat × Bool)} {d0 d1 arg0 arg1 : Word} {s : State} {v0} {t' : State} (he : submitLetter a d0 d1 arg0 arg1 s = (v0, t')) (hk : Keeps M s0 s) (hM : Sub 264229 M := by exact ‹Sub _ M›.of rfl) :
    Keeps M s0 t' := by
  have g : Keeps M s0 (submitLetter a d0 d1 arg0 arg1 s).2 := by
    with_reducible apply submitLetter_keeps <;> assumption
  rw [he] at g
  exact g

theorem portError_keeps {M : Nat} {s0 : State} (p off req size : Nat) {s : State} (hk : Keeps M s0 s) (hM : Sub 33 M := by exact ‹Sub _ M›.of rfl) :
    Keeps M s0 (portError p off req size s) := by
  unfold portError
  try dsimp only
  repeat' (with_reducible first | assumption | exact hM.of rfl | apply Keeps.refl | apply keeps_ite | apply busError_keeps)

theorem portSubmit_keeps {M : Nat} {s0 : State} (p : Nat) {s : State} (hk : Keeps M s0 s) (hM : Sub 264229 M := by exact ‹Sub _ M›.of rfl) :
    Keeps M s0 (portSubmit p s).2 := by
  unfold portSubmit
  try dsimp only
  repeat' (with_reducible first | assumption | exact hM.of rfl | apply Keeps.refl | apply keeps_ite | refine submitLetter_keeps_eq (by assumption) ?_ | apply submitLetter_keeps | apply wr_keeps)

theorem portSubmit_keeps_eq {M : Nat} {s0 : State} {p : Nat} {s : State} {v0} {t' : State} (he : portSubmit p s = (v0, t')) (hk : Keeps M s0 s) (hM : Sub 264229 M := by exact ‹Sub _ M›.of rfl) :
    Keeps M s0 t' := by
  have g : Keeps M s0 (portSubmit p s).2 := by
    with_reducible apply portSubmit_keeps <;> assumption
  rw [he] at g
  exact g

theorem dispatched_keeps {M : Nat} {s0 : State} (l : Letter) (ns : Nat) {s : State} (hk : Keeps M s0 s) (hM : Sub 262145 M := by exact ‹Sub _ M›.of rfl) :
    Keeps M s0 (dispatched l ns s) := by
  unfold dispatched
  try dsimp only
  repeat' (with_reducible first | assumption | exact hM.of rfl | apply Keeps.refl | apply keeps_ite | apply cntAdd_keeps | apply setLetter_keeps | apply updSch_keeps)

theorem portTake_keeps {M : Nat} {s0 : State} (p fn ns : Nat) {s : State} (hk : Keeps M s0 s) (hM : Sub 262145 M := by exact ‹Sub _ M›.of rfl) :
    Keeps M s0 (portTake p fn ns s).2 := by
  unfold portTake
  try dsimp only
  repeat' (with_reducible first | assumption | exact hM.of rfl | apply Keeps.refl | apply keeps_ite | apply cntAdd_keeps | apply dispatched_keeps | apply setLetter_keeps | apply showSch_keeps | apply updSch_keeps | apply wr_keeps | split)

theorem portTake_keeps_eq {M : Nat} {s0 : State} {p fn ns : Nat} {s : State} {v0} {t' : State} (he : portTake p fn ns s = (v0, t')) (hk : Keeps M s0 s) (hM : Sub 262145 M := by exact ‹Sub _ M›.of rfl) :
    Keeps M s0 t' := by
  have g : Keeps M s0 (portTake p fn ns s).2 := by
    with_reducible apply portTake_keeps <;> assumption
  rw [he] at g
  exact g

theorem execLetterOffer_keeps {M : Nat} {s0 : State} (p : Nat) {s : State} (hk : Keeps M s0 s) (hM : Sub 262144 M := by exact ‹Sub _ M›.of rfl) :
    OutKeeps M s0 (execLetterOffer p s) := by
  unfold execLetterOffer
  try dsimp only
  repeat' (with_reducible first | assumption | exact hM.of rfl | apply Keeps.refl | apply outKeeps_ite | apply keeps_ite | apply OutKeeps.next | apply updSch_keeps)

theorem portDone_keeps {M : Nat} {s0 : State} (p st req : Nat) {s : State} (hk : Keeps M s0 s) (hM : Sub 264225 M := by exact ‹Sub _ M›.of rfl) :
    Keeps M s0 (portDone p st req s) := by
  unfold portDone
  try dsimp only
  repeat' (with_reducible first | assumption | exact hM.of rfl | apply Keeps.refl | apply keeps_ite | apply endLetter_keeps | apply writeIgnored_keeps | split)

theorem portQuery_keeps {M : Nat} {s0 : State} (p : Nat) {s : State} (hk : Keeps M s0 s) (hM : Sub 1 M := by exact ‹Sub _ M›.of rfl) :
    Keeps M s0 (portQuery p s).2 := by
  unfold portQuery
  try dsimp only
  repeat' (with_reducible first | assumption | exact hM.of rfl | apply Keeps.refl | apply keeps_ite | apply wr_keeps)

theorem portQuery_keeps_eq {M : Nat} {s0 : State} {p : Nat} {s : State} {v0} {t' : State} (he : portQuery p s = (v0, t')) (hk : Keeps M s0 s) (hM : Sub 1 M := by exact ‹Sub _ M›.of rfl) :
    Keeps M s0 t' := by
  have g : Keeps M s0 (portQuery p s).2 := by
    with_reducible apply portQuery_keeps <;> assumption
  rw [he] at g
  exact g

theorem cancelLetter_keeps {M : Nat} {s0 : State} (a : Option (Nat × Nat × Bool)) (h : Nat) {s : State} (hk : Keeps M s0 s) (hM : Sub 264225 M := by exact ‹Sub _ M›.of rfl) :
    Keeps M s0 (cancelLetter a h s).2 := by
  unfold cancelLetter
  try dsimp only
  repeat' (with_reducible first | assumption | exact hM.of rfl | apply Keeps.refl | apply keeps_ite | apply endLetter_keeps | split)

theorem cancelLetter_keeps_eq {M : Nat} {s0 : State} {a : Option (Nat × Nat × Bool)} {h : Nat} {s : State} {v0} {t' : State} (he : cancelLetter a h s = (v0, t')) (hk : Keeps M s0 s) (hM : Sub 264225 M := by exact ‹Sub _ M›.of rfl) :
    Keeps M s0 t' := by
  have g : Keeps M s0 (cancelLetter a h s).2 := by
    with_reducible apply cancelLetter_keeps <;> assumption
  rw [he] at g
  exact g

theorem portCancel_keeps {M : Nat} {s0 : State} (p : Nat) {s : State} (hk : Keeps M s0 s) (hM : Sub 264225 M := by exact ‹Sub _ M›.of rfl) :
    Keeps M s0 (portCancel p s).2 := by
  unfold portCancel
  try dsimp only
  repeat' (with_reducible first | assumption | exact hM.of rfl | apply Keeps.refl | apply keeps_ite | refine cancelLetter_keeps_eq (by assumption) ?_ | apply cancelLetter_keeps | apply wr_keeps)

theorem portCancel_keeps_eq {M : Nat} {s0 : State} {p : Nat} {s : State} {v0} {t' : State} (he : portCancel p s = (v0, t')) (hk : Keeps M s0 s) (hM : Sub 264225 M := by exact ‹Sub _ M›.of rfl) :
    Keeps M s0 t' := by
  have g : Keeps M s0 (portCancel p s).2 := by
    with_reducible apply portCancel_keeps <;> assumption
  rw [he] at g
  exact g

theorem putCtr_keeps {M : Nat} {s0 : State} (i : Nat) (c : DepCtr) {s : State} (hk : Keeps M s0 s) (hM : Sub 262144 M := by exact ‹Sub _ M›.of rfl) :
    Keeps M s0 (putCtr i c s) := by
  unfold putCtr
  try dsimp only
  repeat' (with_reducible first | assumption | exact hM.of rfl | apply Keeps.refl | apply keeps_ite | apply updSch_keeps)

theorem ctrAllocate_keeps {M : Nat} {s0 : State} (a : Nat × Nat × Bool) (v : Nat) {s : State} (hk : Keeps M s0 s) (hM : Sub 262177 M := by exact ‹Sub _ M›.of rfl) :
    Keeps M s0 (ctrAllocate a v s).2 := by
  unfold ctrAllocate
  try dsimp only
  repeat' (with_reducible first | assumption | exact hM.of rfl | apply Keeps.refl | apply keeps_ite | apply putCtr_keeps | apply raiseEvent_keeps | apply updSch_keeps | split)

theorem ctrAllocate_keeps_eq {M : Nat} {s0 : State} {a : Nat × Nat × Bool} {v : Nat} {s : State} {v0} {t' : State} (he : ctrAllocate a v s = (v0, t')) (hk : Keeps M s0 s) (hM : Sub 262177 M := by exact ‹Sub _ M›.of rfl) :
    Keeps M s0 t' := by
  have g : Keeps M s0 (ctrAllocate a v s).2 := by
    with_reducible apply ctrAllocate_keeps <;> assumption
  rw [he] at g
  exact g

theorem ctrChange_keeps {M : Nat} {s0 : State} (op i v : Nat) (c : DepCtr) {s : State} (hk : Keeps M s0 s) (hM : Sub 264225 M := by exact ‹Sub _ M›.of rfl) :
    Keeps M s0 (ctrChange op i v c s).2 := by
  unfold ctrChange
  try dsimp only
  repeat' (with_reducible first | assumption | exact hM.of rfl | apply Keeps.refl | apply keeps_ite | apply endLetters_keeps | apply putCtr_keeps | apply raiseEvent_keeps | apply updSch_keeps | split)

theorem ctrChange_keeps_eq {M : Nat} {s0 : State} {op i v : Nat} {c : DepCtr} {s : State} {v0} {t' : State} (he : ctrChange op i v c s = (v0, t')) (hk : Keeps M s0 s) (hM : Sub 264225 M := by exact ‹Sub _ M›.of rfl) :
    Keeps M s0 t' := by
  have g : Keeps M s0 (ctrChange op i v c s).2 := by
    with_reducible apply ctrChange_keeps <;> assumption
  rw [he] at g
  exact g

theorem portCtr_keeps {M : Nat} {s0 : State} (p op : Nat) {s : State} (hk : Keeps M s0 s) (hM : Sub 264225 M := by exact ‹Sub _ M›.of rfl) :
    Keeps M s0 (portCtr p op s).2 := by
  unfold portCtr
  try dsimp only
  repeat' (with_reducible first | assumption | exact hM.of rfl | apply Keeps.refl | apply keeps_ite | refine ctrAllocate_keeps_eq (by assumption) ?_ | apply ctrAllocate_keeps | refine ctrChange_keeps_eq (by assumption) ?_ | apply ctrChange_keeps | apply settleSch_keeps | apply wr_keeps | split)

theorem portCtr_keeps_eq {M : Nat} {s0 : State} {p op : Nat} {s : State} {v0} {t' : State} (he : portCtr p op s = (v0, t')) (hk : Keeps M s0 s) (hM : Sub 264225 M := by exact ‹Sub _ M›.of rfl) :
    Keeps M s0 t' := by
  have g : Keeps M s0 (portCtr p op s).2 := by
    with_reducible apply portCtr_keeps <;> assumption
  rw [he] at g
  exact g

theorem routeResult_keeps {M : Nat} {s0 : State} (r : Nat) {s : State} (hk : Keeps M s0 s) (hM : Sub 1 M := by exact ‹Sub _ M›.of rfl) :
    Keeps M s0 (routeResult r s) := by
  unfold routeResult
  try dsimp only
  repeat' (with_reducible first | assumption | exact hM.of rfl | apply Keeps.refl | apply keeps_ite | apply fset_keeps)

theorem showRoute_keeps {M : Nat} {s0 : State} (i : Nat) (x : Route) {s : State} (hk : Keeps M s0 s) (hM : Sub 1 M := by exact ‹Sub _ M›.of rfl) :
    Keeps M s0 (showRoute i x s) := by
  unfold showRoute
  try dsimp only
  repeat' (with_reducible first | assumption | exact hM.of rfl | apply Keeps.refl | apply keeps_ite | apply fset_keeps)

theorem createRoute_keeps {M : Nat} {s0 : State} (any : Bool) (i : Nat) (x : Route) {s : State} (hk : Keeps M s0 s) (hM : Sub 262177 M := by exact ‹Sub _ M›.of rfl) :
    Keeps M s0 (createRoute any i x s).2.2 := by
  unfold createRoute
  try dsimp only
  repeat' (with_reducible first | assumption | exact hM.of rfl | apply Keeps.refl | apply keeps_ite | apply raiseEvent_keeps | apply updSch_keeps | split)

theorem createRoute_keeps_eq {M : Nat} {s0 : State} {any : Bool} {i : Nat} {x : Route} {s : State} {v0} {v1} {t' : State} (he : createRoute any i x s = (v0, v1, t')) (hk : Keeps M s0 s) (hM : Sub 262177 M := by exact ‹Sub _ M›.of rfl) :
    Keeps M s0 t' := by
  have g : Keeps M s0 (createRoute any i x s).2.2 := by
    with_reducible apply createRoute_keeps <;> assumption
  rw [he] at g
  exact g

theorem deleteRoute_keeps {M : Nat} {s0 : State} (i : Nat) {s : State} (hk : Keeps M s0 s) (hM : Sub 264225 M := by exact ‹Sub _ M›.of rfl) :
    Keeps M s0 (deleteRoute i s) := by
  unfold deleteRoute
  try dsimp only
  repeat' (with_reducible first | assumption | exact hM.of rfl | apply Keeps.refl | apply keeps_ite | apply endLetters_keeps | apply freeRoutes_keeps | apply updSch_keeps | split)

theorem endOwner_keeps {M : Nat} {s0 : State} (owner exec : Nat) {s : State} (hk : Keeps M s0 s) (hM : Sub 264225 M := by exact ‹Sub _ M›.of rfl) :
    Keeps M s0 (endOwner owner exec s) := by
  unfold endOwner
  try dsimp only
  repeat' (with_reducible first | assumption | exact hM.of rfl | apply Keeps.refl | apply keeps_ite | apply endLetters_keeps | apply settleSch_keeps | apply updSch_keeps | split | intro _)

theorem routeCmd_keeps {M : Nat} {s0 : State} (op req : Nat) {s : State} (hk : Keeps M s0 s) (hM : Sub 264225 M := by exact ‹Sub _ M›.of rfl) :
    Keeps M s0 (routeCmd op req s) := by
  unfold routeCmd
  try dsimp only
  repeat' (with_reducible first | assumption | exact hM.of rfl | apply Keeps.refl | apply keeps_ite | apply busError_keeps | refine createRoute_keeps_eq (by assumption) ?_ | apply createRoute_keeps | apply deleteRoute_keeps | apply endOwner_keeps | apply fset_keeps | apply routeResult_keeps | apply settleSch_keeps | apply showRoute_keeps | apply showSch_keeps | apply updSch_keeps | split)

theorem execRouteRead_keeps {M : Nat} {s0 : State} (req : Nat) {s : State} (hk : Keeps M s0 s) (hM : Sub 264225 M := by exact ‹Sub _ M›.of rfl) :
    OutKeeps M s0 (execRouteRead req s) := by
  unfold execRouteRead
  try dsimp only
  repeat' (with_reducible first | assumption | exact hM.of rfl | apply Keeps.refl | apply outKeeps_ite | apply keeps_ite | apply OutKeeps.next | apply routeCmd_keeps)

theorem execRouteCreate_keeps {M : Nat} {s0 : State} (req : Nat) {s : State} (hk : Keeps M s0 s) (hM : Sub 264225 M := by exact ‹Sub _ M›.of rfl) :
    OutKeeps M s0 (execRouteCreate req s) := by
  unfold execRouteCreate
  try dsimp only
  repeat' (with_reducible first | assumption | exact hM.of rfl | apply Keeps.refl | apply outKeeps_ite | apply keeps_ite | apply OutKeeps.next | apply routeCmd_keeps)

theorem execRouteDelete_keeps {M : Nat} {s0 : State} (req : Nat) {s : State} (hk : Keeps M s0 s) (hM : Sub 264225 M := by exact ‹Sub _ M›.of rfl) :
    OutKeeps M s0 (execRouteDelete req s) := by
  unfold execRouteDelete
  try dsimp only
  repeat' (with_reducible first | assumption | exact hM.of rfl | apply Keeps.refl | apply outKeeps_ite | apply keeps_ite | apply OutKeeps.next | apply routeCmd_keeps)

theorem execRouteSetClusters_keeps {M : Nat} {s0 : State} (req : Nat) {s : State} (hk : Keeps M s0 s) (hM : Sub 264225 M := by exact ‹Sub _ M›.of rfl) :
    OutKeeps M s0 (execRouteSetClusters req s) := by
  unfold execRouteSetClusters
  try dsimp only
  repeat' (with_reducible first | assumption | exact hM.of rfl | apply Keeps.refl | apply outKeeps_ite | apply keeps_ite | apply OutKeeps.next | apply routeCmd_keeps)

theorem setOrdered_keeps {M : Nat} {s0 : State} (b : Nat) {s : State} (hk : Keeps M s0 s) (hM : Sub 1 M := by exact ‹Sub _ M›.of rfl) :
    Keeps M s0 (setOrdered b s) := by
  unfold setOrdered
  try dsimp only
  repeat' (with_reducible first | assumption | exact hM.of rfl | apply Keeps.refl | apply keeps_ite | apply fset_keeps | apply showSch_keeps)

theorem execOrderedModeWrite_keeps {M : Nat} {s0 : State} (b req : Nat) {s : State} (hk : Keeps M s0 s) (hM : Sub 33 M := by exact ‹Sub _ M›.of rfl) :
    OutKeeps M s0 (execOrderedModeWrite b req s) := by
  unfold execOrderedModeWrite
  try dsimp only
  repeat' (with_reducible first | assumption | exact hM.of rfl | apply Keeps.refl | apply outKeeps_ite | apply keeps_ite | apply OutKeeps.next | apply busError_keeps | apply setOrdered_keeps)

theorem execLetterDue_keeps {M : Nat} {s0 : State} {s : State} (hk : Keeps M s0 s) (hM : Sub 264225 M := by exact ‹Sub _ M›.of rfl) :
    OutKeeps M s0 (execLetterDue s) := by
  unfold execLetterDue
  try dsimp only
  repeat' (with_reducible first | assumption | exact hM.of rfl | apply Keeps.refl | apply outKeeps_ite | apply keeps_ite | apply OutKeeps.next | apply raiseEvent_keeps | apply setLetter_keeps | apply settleSch_keeps | apply updSch_keeps | split)

theorem execLetterAging_keeps {M : Nat} {s0 : State} (id : Nat) {s : State} (hk : Keeps M s0 s) (hM : Sub 262145 M := by exact ‹Sub _ M›.of rfl) :
    OutKeeps M s0 (execLetterAging id s) := by
  unfold execLetterAging
  try dsimp only
  repeat' (with_reducible first | assumption | exact hM.of rfl | apply Keeps.refl | apply outKeeps_ite | apply keeps_ite | apply OutKeeps.next | apply setLetter_keeps | apply showSch_keeps | split)

theorem schTick_keeps {M : Nat} {s0 : State} {s : State} (hk : Keeps M s0 s) (hM : Sub 262145 M := by exact ‹Sub _ M›.of rfl) :
    Keeps M s0 (schTick s) := by
  unfold schTick
  try dsimp only
  repeat' (with_reducible first | assumption | exact hM.of rfl | apply Keeps.refl | apply keeps_ite | apply cntAdd_keeps | apply forEach_keeps | apply updSch_keeps | apply wr_keeps | apply forEach_keeps | split | intro _)

theorem schReset_keeps {M : Nat} {s0 : State} {s : State} (hk : Keeps M s0 s) (hM : Sub 262145 M := by exact ‹Sub _ M›.of rfl) :
    Keeps M s0 (schReset s) := by
  unfold schReset
  try dsimp only
  repeat' (with_reducible first | assumption | exact hM.of rfl | apply Keeps.refl | apply keeps_ite | apply showSch_keeps | split | apply Keeps.upd_sch)

theorem schBrace_keeps {M : Nat} {s0 : State} {s : State} (hk : Keeps M s0 s) (hM : Sub 1 M := by exact ‹Sub _ M›.of rfl) :
    Keeps M s0 (schBrace s) := by
  unfold schBrace
  try dsimp only
  repeat' (with_reducible first | assumption | exact hM.of rfl | apply Keeps.refl | apply keeps_ite | apply fset_keeps | apply showSch_keeps | split | intro _)

theorem schRecover_keeps {M : Nat} {s0 : State} {s : State} (hk : Keeps M s0 s) (hM : Sub 1 M := by exact ‹Sub _ M›.of rfl) :
    Keeps M s0 (schRecover s) := by
  unfold schRecover
  try dsimp only
  repeat' (with_reducible first | assumption | exact hM.of rfl | apply Keeps.refl | apply keeps_ite | apply fset_keeps)

end Sys2Proof.Machine
end

