-- ==== Sys2Proof/Laws/KeepCoreBase.lean ====
section
/-! SUPPORT. Every operation of Machine/CoreBase.lean leaves what `Keeps` says. -/

set_option Elab.async false

namespace Sys2Proof.Machine

theorem showCore_keeps {M : Nat} {s0 : State} (k : Nat) {s : State} (hk : Keeps M s0 s) (hM : Sub 1 M := by exact ‹Sub _ M›.of rfl) :
    Keeps M s0 (showCore k s) := by
  unfold showCore
  try dsimp only
  repeat' (with_reducible first | assumption | exact hM.of rfl | apply Keeps.refl | apply keeps_ite | apply fset_keeps)

theorem setCore_keeps {M : Nat} {s0 : State} (k : Nat) (c : Core) {s : State} (hk : Keeps M s0 s) (hM : Sub 524289 M := by exact ‹Sub _ M›.of rfl) :
    Keeps M s0 (setCore k c s) := by
  unfold setCore
  try dsimp only
  repeat' (with_reducible first | assumption | exact hM.of rfl | apply Keeps.refl | apply keeps_ite | apply showCore_keeps | split | apply Keeps.upd_cores)

theorem coreReset_keeps {M : Nat} {s0 : State} (k : Nat) {s : State} (hk : Keeps M s0 s) (hM : Sub 524289 M := by exact ‹Sub _ M›.of rfl) :
    Keeps M s0 (coreReset k s) := by
  unfold coreReset
  try dsimp only
  repeat' (with_reducible first | assumption | exact hM.of rfl | apply Keeps.refl | apply keeps_ite | apply showCore_keeps | split | apply Keeps.upd_cores)

theorem setG_keeps {M : Nat} {s0 : State} (k r : Nat) (v : Word) {s : State} (hk : Keeps M s0 s) (hM : Sub 524288 M := by exact ‹Sub _ M›.of rfl) :
    Keeps M s0 (setG k r v s) := by
  unfold setG
  try dsimp only
  repeat' (with_reducible first | assumption | exact hM.of rfl | apply Keeps.refl | apply keeps_ite | split | apply Keeps.upd_cores)

theorem setPc_keeps {M : Nat} {s0 : State} (k : Nat) (v : Word) {s : State} (hk : Keeps M s0 s) (hM : Sub 524288 M := by exact ‹Sub _ M›.of rfl) :
    Keeps M s0 (setPc k v s) := by
  unfold setPc
  try dsimp only
  repeat' (with_reducible first | assumption | exact hM.of rfl | apply Keeps.refl | apply keeps_ite | split | apply Keeps.upd_cores)

theorem putSys_keeps {M : Nat} {s0 : State} (k n : Nat) (v : Word) {s : State} (hk : Keeps M s0 s) (hM : Sub 524288 M := by exact ‹Sub _ M›.of rfl) :
    Keeps M s0 (putSys k n v s) := by
  unfold putSys
  try dsimp only
  repeat' (with_reducible first | assumption | exact hM.of rfl | apply Keeps.refl | apply keeps_ite | split | apply Keeps.upd_cores)

theorem setSysField_keeps {M : Nat} {s0 : State} (k n lo w v : Nat) {s : State} (hk : Keeps M s0 s) (hM : Sub 524288 M := by exact ‹Sub _ M›.of rfl) :
    Keeps M s0 (setSysField k n lo w v s) := by
  unfold setSysField
  try dsimp only
  repeat' (with_reducible first | assumption | exact hM.of rfl | apply Keeps.refl | apply keeps_ite | apply putSys_keeps)

theorem sysWrite_keeps {M : Nat} {s0 : State} (k n : Nat) (v : Word) {s : State} (hk : Keeps M s0 s) (hM : Sub 524321 M := by exact ‹Sub _ M›.of rfl) :
    Keeps M s0 (sysWrite k n v s) := by
  unfold sysWrite
  try dsimp only
  repeat' (with_reducible first | assumption | exact hM.of rfl | apply Keeps.refl | apply keeps_ite | apply otherPostmark_keeps | apply putSys_keeps | split | apply Keeps.upd_cores)

theorem passCycles_keeps {M : Nat} {s0 : State} (k n : Nat) {s : State} (hk : Keeps M s0 s) (hM : Sub 524289 M := by exact ‹Sub _ M›.of rfl) :
    Keeps M s0 (passCycles k n s) := by
  unfold passCycles
  try dsimp only
  repeat' (with_reducible first | assumption | exact hM.of rfl | apply Keeps.refl | apply keeps_ite | apply cntAdd_keeps | apply putSys_keeps)

theorem retire_keeps {M : Nat} {s0 : State} (k : Nat) {s : State} (hk : Keeps M s0 s) (hM : Sub 524289 M := by exact ‹Sub _ M›.of rfl) :
    Keeps M s0 (retire k s) := by
  unfold retire
  try dsimp only
  repeat' (with_reducible first | assumption | exact hM.of rfl | apply Keeps.refl | apply keeps_ite | apply cntAdd_keeps | apply putSys_keeps)

theorem leaveAhead_keeps {M : Nat} {s0 : State} (k cycles : Nat) {s : State} (hk : Keeps M s0 s) (hM : Sub 524289 M := by exact ‹Sub _ M›.of rfl) :
    Keeps M s0 (leaveAhead k cycles s) := by
  unfold leaveAhead
  try dsimp only
  repeat' (with_reducible first | assumption | exact hM.of rfl | apply Keeps.refl | apply keeps_ite | apply cntAdd_keeps | apply passCycles_keeps | apply showCore_keeps | split | apply Keeps.upd_cores)

theorem haltMode_keeps {M : Nat} {s0 : State} {s : State} (hk : Keeps M s0 s) (hM : Sub 4194529 M := by exact ‹Sub _ M›.of rfl) :
    Keeps M s0 (haltMode s) := by
  unfold haltMode
  extract_lets any m
  clear_value any m
  have h1 : Keeps M s0 (enterMode 0xB { s with pow := { s.pow with haltFrom := m } }) := enterMode_keeps _ (Keeps.upd_pow hk)
  have h2 : Keeps M s0 (settleReadOnly (postWithheld (enterMode s.pow.haltFrom s))) := settleReadOnly_keeps (postWithheld_keeps (enterMode_keeps _ hk))
  split
  · exact h1
  · split
    · exact h2
    · exact hk

theorem haltCore_keeps {M : Nat} {s0 : State} (k cause index : Nat) {s : State} (hk : Keeps M s0 s) (hM : Sub 4980965 M := by exact ‹Sub _ M›.of rfl) :
    Keeps M s0 (haltCore k cause index s) := by
  unfold haltCore
  refine keeps_ite hk ?_
  extract_lets s1
  have h1 : Keeps M s0 s1 := by
    refine keeps_ite ?_ hk
    exact leaveAhead_keeps _ _ (useFree_keeps hk)
  clear_value s1
  exact haltMode_keeps (postmark_keeps _ _ _ (updSch_keeps _ (setCore_keeps _ _
    (fset_keeps _ _ (fset_keeps _ _ (fset_keeps _ _ (fset_keeps _ _ h1)))))))

theorem resumeCore_keeps {M : Nat} {s0 : State} (k : Nat) {s : State} (hk : Keeps M s0 s) (hM : Sub 4718817 M := by exact ‹Sub _ M›.of rfl) :
    Keeps M s0 (resumeCore k s) := by
  unfold resumeCore
  try dsimp only
  repeat' (with_reducible first | assumption | exact hM.of rfl | apply Keeps.refl | apply keeps_ite | apply fset_keeps | apply haltMode_keeps | apply postmark_keeps | apply setCore_keeps)

theorem afterStep_keeps {M : Nat} {s0 : State} (k : Nat) {s : State} (hk : Keeps M s0 s) (hM : Sub 4980965 M := by exact ‹Sub _ M›.of rfl) :
    Keeps M s0 (afterStep k s) := by
  unfold afterStep
  try dsimp only
  repeat' (with_reducible first | assumption | exact hM.of rfl | apply Keeps.refl | apply keeps_ite | apply haltCore_keeps | apply showCore_keeps | split | apply Keeps.upd_cores)

theorem clearPoints_keeps {M : Nat} {s0 : State} (k : Nat) {s : State} (hk : Keeps M s0 s) (hM : Sub 1 M := by exact ‹Sub _ M›.of rfl) :
    Keeps M s0 (clearPoints k s) := by
  unfold clearPoints
  try dsimp only
  repeat' (with_reducible first | assumption | exact hM.of rfl | apply Keeps.refl | apply keeps_ite | apply forN_keeps | apply fset_keeps | apply forN_keeps | split | intro _)

theorem releaseHalts_keeps {M : Nat} {s0 : State} {s : State} (hk : Keeps M s0 s) (hM : Sub 4718817 M := by exact ‹Sub _ M›.of rfl) :
    Keeps M s0 (releaseHalts s) := by
  unfold releaseHalts
  try dsimp only
  repeat' (with_reducible first | assumption | exact hM.of rfl | apply Keeps.refl | apply keeps_ite | apply clearPoints_keeps | apply forN_keeps | apply postmark_keeps | apply resumeCore_keeps | apply forN_keeps | split | intro _)

theorem enterTrap_keeps {M : Nat} {s0 : State} (k l : Nat) (cause : Nat) (int : Bool) (rpc esyn faddr : Word) {s : State} (hk : Keeps M s0 s) (hM : Sub 524289 M := by exact ‹Sub _ M›.of rfl) :
    Keeps M s0 (enterTrap k l cause int rpc esyn faddr s) := by
  unfold enterTrap
  try dsimp only
  repeat' (with_reducible first | assumption | exact hM.of rfl | apply Keeps.refl | apply keeps_ite | apply setCore_keeps)

theorem lockCore_keeps {M : Nat} {s0 : State} (k cause : Nat) {s : State} (hk : Keeps M s0 s) (hM : Sub 524321 M := by exact ‹Sub _ M›.of rfl) :
    Keeps M s0 (lockCore k cause s) := by
  unfold lockCore
  try dsimp only
  repeat' (with_reducible first | assumption | exact hM.of rfl | apply Keeps.refl | apply keeps_ite | apply otherPostmark_keeps | apply setCore_keeps)

theorem takeTrap_keeps {M : Nat} {s0 : State} (k cause : Nat) (word : Half) (faddr : Word) {s : State} (hk : Keeps M s0 s) (hM : Sub 4983013 M := by exact ‹Sub _ M›.of rfl) :
    Keeps M s0 (takeTrap k cause word faddr s) := by
  unfold takeTrap
  try dsimp only
  repeat' (with_reducible first | assumption | exact hM.of rfl | apply Keeps.refl | apply keeps_ite | apply afterStep_keeps | apply enterTrap_keeps | apply lockCore_keeps | apply recordEnd_keeps | split)

theorem returnFrom_keeps {M : Nat} {s0 : State} (k : Nat) {s : State} (hk : Keeps M s0 s) (hM : Sub 524289 M := by exact ‹Sub _ M›.of rfl) :
    Keeps M s0 (returnFrom k s) := by
  unfold returnFrom
  try dsimp only
  repeat' (with_reducible first | assumption | exact hM.of rfl | apply Keeps.refl | apply keeps_ite | apply setCore_keeps)

theorem svAnswer_keeps {M : Nat} {s0 : State} (k : Nat) (g1 g2 : Option Word) {s : State} (hk : Keeps M s0 s) (hM : Sub 524289 M := by exact ‹Sub _ M›.of rfl) :
    Keeps M s0 (svAnswer k g1 g2 s) := by
  unfold svAnswer
  try dsimp only
  repeat' (with_reducible first | assumption | exact hM.of rfl | apply Keeps.refl | apply keeps_ite | apply putSys_keeps | apply returnFrom_keeps | apply setG_keeps | split)

theorem leaveLetter_keeps {M : Nat} {s0 : State} (k : Nat) {s : State} (hk : Keeps M s0 s) (hM : Sub 524293 M := by exact ‹Sub _ M›.of rfl) :
    Keeps M s0 (leaveLetter k s) := by
  unfold leaveLetter
  try dsimp only
  repeat' (with_reducible first | assumption | exact hM.of rfl | apply Keeps.refl | apply keeps_ite | apply leaveAhead_keeps | apply setCore_keeps | apply useFree_keeps | split | intro _)

theorem keepClusCounts_keeps {M : Nat} {s0 : State} (n : Nat) {s : State} (hk : Keeps M s0 s) (hM : Sub 1048576 M := by exact ‹Sub _ M›.of rfl) :
    Keeps M s0 (keepClusCounts n s) := by
  unfold keepClusCounts
  try dsimp only
  repeat' (with_reducible first | assumption | exact hM.of rfl | apply Keeps.refl | apply keeps_ite | apply updClus_keeps)

end Sys2Proof.Machine
end

