-- ==== Sys2Proof/Laws/KeepDramBase.lean ====
section
/-! SUPPORT. Every operation of Machine/DramBase.lean leaves what `Keeps` says. -/

set_option Elab.async false

namespace Sys2Proof.Machine

theorem memLog_keeps {M : Nat} {s0 : State} (addr source typ port lane bit code src : Nat) {s : State} (hk : Keeps M s0 s) (hM : Sub 4129 M := by exact ‹Sub _ M›.of rfl) :
    Keeps M s0 (memLog addr source typ port lane bit code src s) := by
  unfold memLog
  try dsimp only
  repeat' (with_reducible first | assumption | exact hM.of rfl | apply Keeps.refl | apply keeps_ite | apply cntAdd_keeps | apply fset_keeps | apply raiseEvent_keeps | apply wr_keeps | split | apply Keeps.upd_dram)

theorem logTail_keeps {M : Nat} {s0 : State} (v : Nat) {s : State} (hk : Keeps M s0 s) (hM : Sub 1 M := by exact ‹Sub _ M›.of rfl) :
    Keeps M s0 (logTail v s) := by
  unfold logTail
  try dsimp only
  repeat' (with_reducible first | assumption | exact hM.of rfl | apply Keeps.refl | apply keeps_ite | apply fset_keeps)

theorem dmcError_keeps {M : Nat} {s0 : State} (n : Nat) (f : Fld) (addr typ port lane : Nat) {s : State} (hk : Keeps M s0 s) (hM : Sub 4129 M := by exact ‹Sub _ M›.of rfl) :
    Keeps M s0 (dmcError n f addr typ port lane s) := by
  unfold dmcError
  try dsimp only
  repeat' (with_reducible first | assumption | exact hM.of rfl | apply Keeps.refl | apply keeps_ite | apply memLog_keeps | apply raiseEvent_keeps)

theorem dramLost_keeps {M : Nat} {s0 : State} {s : State} (hk : Keeps M s0 s) (hM : Sub 33558531 M := by exact ‹Sub _ M›.of rfl) :
    Keeps M s0 (dramLost s) := by
  unfold dramLost
  try dsimp only
  repeat' (with_reducible first | assumption | exact hM.of rfl | apply Keeps.refl | apply keeps_ite | apply forN_keeps | apply fset_keeps | apply zeroRange_keeps | apply forN_keeps | split | intro _)

theorem sramLost_keeps {M : Nat} {s0 : State} {s : State} (hk : Keeps M s0 s) (hM : Sub 33558530 M := by exact ‹Sub _ M›.of rfl) :
    Keeps M s0 (sramLost s) := by
  unfold sramLost
  try dsimp only
  repeat' (with_reducible first | assumption | exact hM.of rfl | apply Keeps.refl | apply keeps_ite | apply zeroRange_keeps)

theorem dramRise_keeps {M : Nat} {s0 : State} (bad : List Nat) {s : State} (hk : Keeps M s0 s) (hM : Sub 1 M := by exact ‹Sub _ M›.of rfl) :
    Keeps M s0 (dramRise bad s) := by
  unfold dramRise
  try dsimp only
  repeat' (with_reducible first | assumption | exact hM.of rfl | apply Keeps.refl | apply keeps_ite | apply forN_keeps | apply fset_keeps | apply forN_keeps | split | intro _)

end Sys2Proof.Machine
end

