-- ==== Sys2Proof/Laws/KeepPostbook.lean ====
section
/-! SUPPORT. Every operation of Machine/Postbook.lean leaves what `Keeps` says. -/

set_option Elab.async false

namespace Sys2Proof.Machine

theorem notifyPostmark_keeps {M : Nat} {s0 : State} (lane seq : Nat) {s : State} (hk : Keeps M s0 s) (hM : Sub 4194465 M := by exact ‹Sub _ M›.of rfl) :
    Keeps M s0 (notifyPostmark lane seq s) := by
  unfold notifyPostmark
  try dsimp only
  repeat' (with_reducible first | assumption | exact hM.of rfl | apply Keeps.refl | apply keeps_ite | apply raiseAen_keeps | split | apply Keeps.updR)

theorem fillLogSeq_keeps {M : Nat} {s0 : State} (e : Ev) (n : Nat) {s : State} (hk : Keeps M s0 s) (hM : Sub 4097 M := by exact ‹Sub _ M›.of rfl) :
    Keeps M s0 (fillLogSeq e n s) := by
  unfold fillLogSeq
  try dsimp only
  repeat' (with_reducible first | assumption | exact hM.of rfl | apply Keeps.refl | apply keeps_ite | apply forEach_keeps | apply fset_keeps | apply forEach_keeps | split | apply Keeps.upd_dram | intro _)

theorem writeEvent_keeps {M : Nat} {s0 : State} (e : Ev) {s : State} (hk : Keeps M s0 s) (hM : Sub 4198561 M := by exact ‹Sub _ M›.of rfl) :
    Keeps M s0 (writeEvent e s) := by
  unfold writeEvent
  dsimp only
  refine notifyPostmark_keeps _ _ (fillLogSeq_keeps _ _ ?_)
  split
  · refine fset_keeps _ _ ?_
    refine Keeps.updR ?_
    refine wr_keeps _ _ ?_
    refine wr_keeps _ _ ?_
    refine Keeps.updPbk (fun g => ⟨g.1, g.2.1, g.2.2.1, g.2.2.2.1, ?_⟩) hk
    have := g.2.2.2.2
    dsimp only
    split <;> simp only [List.length_drop, List.length_append, List.length_singleton] at * <;> omega
  · refine wr_keeps _ _ ?_
    refine wr_keeps _ _ ?_
    refine Keeps.updPbk (fun g => ⟨g.1, g.2.1, g.2.2.1, g.2.2.2.1, ?_⟩) hk
    have := g.2.2.2.2
    dsimp only
    split <;> simp only [List.length_drop, List.length_append, List.length_singleton] at * <;> omega

theorem writeNext_keeps {M : Nat} {s0 : State} {s : State} (hk : Keeps M s0 s) (hM : Sub 4198561 M := by exact ‹Sub _ M›.of rfl) :
    Keeps M s0 (writeNext s) := by
  unfold writeNext
  split
  · exact hk
  · rename_i l _
    split
    · exact hk
    · rename_i e t hq
      exact pbkPending_keeps (writeEvent_keeps e (Keeps.updPbk (fun g => LanesOk.take g hq) hk))

theorem writeAll_keeps {M : Nat} {s0 : State} (a0 : Nat) {s : State} (hk : Keeps M s0 s) (hM : Sub 4198561 M := by exact ‹Sub _ M›.of rfl) :
    Keeps M s0 (writeAll a0 s) := by
  induction a0 generalizing s with
  | zero =>
    unfold writeAll
    exact hk
  | succ n ih =>
    unfold writeAll
    try dsimp only
    repeat' (with_reducible first | assumption | apply ih | exact hM.of rfl | apply Keeps.refl | apply keeps_ite | apply writeNext_keeps | split)

theorem windowEnd_keeps {M : Nat} {s0 : State} (lane code src : Nat) {s : State} (hk : Keeps M s0 s) (hM : Sub 33 M := by exact ‹Sub _ M›.of rfl) :
    Keeps M s0 (windowEnd lane code src s) := by
  unfold windowEnd
  dsimp only
  split
  · exact hk
  · rename_i c hf
    split
    · exact hk.updR
    · split
      · rename_i hr
        refine pbkPending_keeps (Keeps.updPbk (fun g => LanesOk.queueRepeat g ?_) hk)
        have := List.find?_some hf
        simp only [Bool.and_eq_true, beq_iff_eq] at this
        rw [this.1.1]
        exact hr
      · exact hk.updR

theorem showSealSegs_keeps {M : Nat} {s0 : State} {s : State} (hk : Keeps M s0 s) (hM : Sub 1 M := by exact ‹Sub _ M›.of rfl) :
    Keeps M s0 (showSealSegs s) := by
  unfold showSealSegs
  try dsimp only
  repeat' (with_reducible first | assumption | exact hM.of rfl | apply Keeps.refl | apply keeps_ite | apply fset_keeps)

theorem drainOne_keeps {M : Nat} {s0 : State} (p : Postmark) {s : State} (hk : Keeps M s0 s) (hM : Sub 32 M := by exact ‹Sub _ M›.of rfl) :
    Keeps M s0 (drainOne p s) := by
  unfold drainOne
  try dsimp only
  repeat' (with_reducible first | assumption | exact hM.of rfl | apply Keeps.refl | apply keeps_ite | split | apply Keeps.updR)

theorem drainAll_keeps {M : Nat} {s0 : State} {s : State} (hk : Keeps M s0 s) (hM : Sub 33 M := by exact ‹Sub _ M›.of rfl) :
    Keeps M s0 (drainAll s) := by
  unfold drainAll
  try dsimp only
  repeat' (with_reducible first | assumption | exact hM.of rfl | apply Keeps.refl | apply keeps_ite | apply drainOne_keeps | apply forEach_keeps | apply wr_keeps | apply forEach_keeps | split | apply Keeps.updR | intro _)

theorem pbkSealCopy_keeps {M : Nat} {s0 : State} {s : State} (hk : Keeps M s0 s) (hM : Sub 4198561 M := by exact ‹Sub _ M›.of rfl) :
    Keeps M s0 (pbkSealCopy s) := by
  unfold pbkSealCopy
  dsimp only
  have key : Keeps M s0 (writeAll 1600 { (forEach (fun c t => if c.count > 0 ∧ laneHasRoom c.lane t.pbk then
      { t with pbk := queueRepeat c t.pbk } else t) (writeAll 1600 s).pbk.coal (writeAll 1600 s)) with pbk :=
      { (forEach (fun c t => if c.count > 0 ∧ laneHasRoom c.lane t.pbk then
      { t with pbk := queueRepeat c t.pbk } else t) (writeAll 1600 s).pbk.coal (writeAll 1600 s)).pbk with coal := [] } }) := by
    refine writeAll_keeps _ (Keeps.updR (forEach_keeps (writeAll_keeps _ hk) ?_))
    intro c t
    split
    · rename_i hc
      exact Keeps.updPbk (fun g => LanesOk.queueRepeat g hc.2) (Keeps.refl t)
    · exact Keeps.refl t
  split
  · exact Keeps.updR key
  · exact showSealSegs_keeps (fset_keeps _ _ (Keeps.updR key))

theorem pbkRise_keeps {M : Nat} {s0 : State} {s : State} (hk : Keeps M s0 s) (hM : Sub 33 M := by exact ‹Sub _ M›.of rfl) :
    Keeps M s0 (pbkRise s) := by
  have ok : LanesOk s.pbk → LanesOk { s.pbk with
      q0 := [], q1 := [], q2 := [], q3 := [], held0 := [], held1 := [], coal := [], ram := [], win := [], toDrain := []
      segs := s.pbk.segs.map (fun e => if e.2.role = .sealed then (e.1, { e.2 with role := .history }) else e)
      cleanStop := false, sealMissed := false } := by
    intro g
    simp [LanesOk, LaneFull, LaneCoal]
  unfold pbkRise
  dsimp only
  split <;> (try refine postmark_keeps _ _ _ ?_) <;> split <;> (try refine postmark_keeps _ _ _ ?_) <;>
    exact showSealSegs_keeps (fset_keeps _ _ (wr_keeps _ _ (wr_keeps _ _ (wr_keeps _ _ (Keeps.updPbk ok hk)))))

theorem eraseForSeal_keeps {M : Nat} {s0 : State} {s : State} (hk : Keeps M s0 s) (hM : Sub 33 M := by exact ‹Sub _ M›.of rfl) :
    Keeps M s0 (eraseForSeal s) := by
  unfold eraseForSeal
  try dsimp only
  repeat' (with_reducible first | assumption | exact hM.of rfl | apply Keeps.refl | apply keeps_ite | apply showSealSegs_keeps | split | apply Keeps.updR)

theorem takeWindow_keeps {M : Nat} {s0 : State} (w q : Nat) {s : State} (hk : Keeps M s0 s) (hM : Sub 33 M := by exact ‹Sub _ M›.of rfl) :
    Keeps M s0 (takeWindow w q s) := by
  unfold takeWindow
  try dsimp only
  repeat' (with_reducible first | assumption | exact hM.of rfl | apply Keeps.refl | apply keeps_ite | apply fset_keeps | apply wr_keeps | split | apply Keeps.updR)

theorem execPostmark_keeps {M : Nat} {s0 : State} (code src : Nat) (args : List Nat) {s : State} (hk : Keeps M s0 s) (hM : Sub 33 M := by exact ‹Sub _ M›.of rfl) :
    OutKeeps M s0 (execPostmark code src args s) := by
  unfold execPostmark
  try dsimp only
  repeat' (with_reducible first | assumption | exact hM.of rfl | apply Keeps.refl | apply outKeeps_ite | apply keeps_ite | apply OutKeeps.next | apply postmark_keeps)

theorem execPostmarkWrite_keeps {M : Nat} {s0 : State} {s : State} (hk : Keeps M s0 s) (hM : Sub 4198561 M := by exact ‹Sub _ M›.of rfl) :
    OutKeeps M s0 (execPostmarkWrite s) := by
  unfold execPostmarkWrite
  try dsimp only
  repeat' (with_reducible first | assumption | exact hM.of rfl | apply Keeps.refl | apply outKeeps_ite | apply keeps_ite | apply OutKeeps.next | apply writeNext_keeps)

theorem execCoalescingWindowEnd_keeps {M : Nat} {s0 : State} (lane code src : Nat) {s : State} (hk : Keeps M s0 s) (hM : Sub 33 M := by exact ‹Sub _ M›.of rfl) :
    OutKeeps M s0 (execCoalescingWindowEnd lane code src s) := by
  unfold execCoalescingWindowEnd
  try dsimp only
  repeat' (with_reducible first | assumption | exact hM.of rfl | apply Keeps.refl | apply outKeeps_ite | apply keeps_ite | apply OutKeeps.next | apply windowEnd_keeps)

theorem submitPostmark_keeps {M : Nat} {s0 : State} (k req : Nat) {s : State} (hk : Keeps M s0 s) (hM : Sub 33 M := by exact ‹Sub _ M›.of rfl) :
    Keeps M s0 (submitPostmark k req s) := by
  unfold submitPostmark
  try dsimp only
  repeat' (with_reducible first | assumption | exact hM.of rfl | apply Keeps.refl | apply keeps_ite | apply busError_keeps | apply postmark_keeps | apply writeIgnored_keeps)

theorem execPostmarkSubmit_keeps {M : Nat} {s0 : State} (k req : Nat) {s : State} (hk : Keeps M s0 s) (hM : Sub 33 M := by exact ‹Sub _ M›.of rfl) :
    OutKeeps M s0 (execPostmarkSubmit k req s) := by
  unfold execPostmarkSubmit
  try dsimp only
  repeat' (with_reducible first | assumption | exact hM.of rfl | apply Keeps.refl | apply outKeeps_ite | apply keeps_ite | apply OutKeeps.next | apply submitPostmark_keeps)

theorem markRead_keeps {M : Nat} {s0 : State} (seqs : List Nat) {s : State} (hk : Keeps M s0 s) (hM : Sub 32 M := by exact ‹Sub _ M›.of rfl) :
    Keeps M s0 (markRead seqs s) := by
  unfold markRead
  try dsimp only
  repeat' (with_reducible first | assumption | exact hM.of rfl | apply Keeps.refl | apply keeps_ite | split | apply Keeps.updR)

theorem execCursorWrite_keeps {M : Nat} {s0 : State} (w q : Nat) (forMctp : Bool) {s : State} (hk : Keeps M s0 s) (hM : Sub 33 M := by exact ‹Sub _ M›.of rfl) :
    OutKeeps M s0 (execCursorWrite w q forMctp s) := by
  unfold execCursorWrite
  try dsimp only
  repeat' (with_reducible first | assumption | exact hM.of rfl | apply Keeps.refl | apply outKeeps_ite | apply keeps_ite | apply OutKeeps.next | apply markRead_keeps | apply takeWindow_keeps)

theorem execDrain_keeps {M : Nat} {s0 : State} {s : State} (hk : Keeps M s0 s) (hM : Sub 33 M := by exact ‹Sub _ M›.of rfl) :
    OutKeeps M s0 (execDrain s) := by
  unfold execDrain
  try dsimp only
  repeat' (with_reducible first | assumption | exact hM.of rfl | apply Keeps.refl | apply outKeeps_ite | apply keeps_ite | apply OutKeeps.next | apply drainAll_keeps)

theorem execSealSegmentErase_keeps {M : Nat} {s0 : State} {s : State} (hk : Keeps M s0 s) (hM : Sub 33 M := by exact ‹Sub _ M›.of rfl) :
    OutKeeps M s0 (execSealSegmentErase s) := by
  unfold execSealSegmentErase
  try dsimp only
  repeat' (with_reducible first | assumption | exact hM.of rfl | apply Keeps.refl | apply outKeeps_ite | apply keeps_ite | apply OutKeeps.next | apply eraseForSeal_keeps)

end Sys2Proof.Machine
end

