-- ==== Sys2Proof/Laws/KeepCompOps.lean ====
section
/-! SUPPORT. Every operation of Machine/CompOps.lean leaves what `Keeps` says. -/

set_option Elab.async false

namespace Sys2Proof.Machine

theorem writePieces_keeps {M : Nat} {s0 : State} (sp : Space) (a0 : List (Nat × Nat)) (a1 : List Byte) {s : State} (hk : Keeps M s0 s) (hM : Sub 34607106 M := by exact ‹Sub _ M›.of rfl) :
    Keeps M s0 (writePieces sp a0 a1 s) := by
  induction a0 generalizing sp a1 s with
  | nil =>
    unfold writePieces
    exact hk
  | cons x l ih =>
    unfold writePieces
    try dsimp only
    repeat' (with_reducible first | assumption | apply ih | exact hM.of rfl | apply Keeps.refl | apply keeps_ite | apply writeSpace_keeps)

theorem putCtx_keeps {M : Nat} {s0 : State} (sp : Space) (d : CDesc) (phys : Nat) (c : CompCtx) {s : State} (hk : Keeps M s0 s) (hM : Sub 34623494 M := by exact ‹Sub _ M›.of rfl) :
    Keeps M s0 (putCtx sp d phys c s) := by
  unfold putCtx
  try dsimp only
  repeat' (with_reducible first | assumption | exact hM.of rfl | apply Keeps.refl | apply keeps_ite | apply writeSpace_keeps | split | apply Keeps.upd_comp | apply Keeps.updF_comp)

theorem reportEnd_keeps {M : Nat} {s0 : State} (sp : Space) (addr : Nat) (d : CDesc) (dst : List (Nat × Nat)) (n : Nat) (hdrFail : Bool) (phys : Option Nat) (e : CompEnd) {s : State} (hk : Keeps M s0 s) (hM : Sub 34623527 M := by exact ‹Sub _ M›.of rfl) :
    Keeps M s0 (reportEnd sp addr d dst n hdrFail phys e s) := by
  unfold reportEnd
  try dsimp only
  repeat' (with_reducible first | assumption | exact hM.of rfl | apply Keeps.refl | apply keeps_ite | apply cntAdd_keeps | apply putCtx_keeps | apply raiseEvent_keeps | apply useFree_keeps | apply writePieces_keeps | apply writeSpace_keeps | split | apply Keeps.updFree)

theorem reportOnly_keeps {M : Nat} {s0 : State} (sp : Space) (addr st : Nat) {s : State} (hk : Keeps M s0 s) (hM : Sub 34607110 M := by exact ‹Sub _ M›.of rfl) :
    Keeps M s0 (reportOnly sp addr st s) := by
  unfold reportOnly
  try dsimp only
  repeat' (with_reducible first | assumption | exact hM.of rfl | apply Keeps.refl | apply keeps_ite | apply useFree_keeps | apply writeSpace_keeps)

theorem reportOpen_keeps {M : Nat} {s0 : State} (sp : Space) (addr st : Nat) (d : CDesc) (dst : List (Nat × Nat)) (n : Nat) {s : State} (hk : Keeps M s0 s) (hM : Sub 34623527 M := by exact ‹Sub _ M›.of rfl) :
    Keeps M s0 (reportOpen sp addr st d dst n s) := by
  unfold reportOpen
  try dsimp only
  repeat' (with_reducible first | assumption | exact hM.of rfl | apply Keeps.refl | apply keeps_ite | apply reportEnd_keeps)

theorem serveComp_finish_keeps {M : Nat} {s0 : State} {sp : Space} {addr : Nat} {more : List Byte} {s : State} {n : Nat} {d : CDesc}
    {dps : List (Nat × Nat)} {src : List Byte} {c : CompCtx} {p : Option Nat} {v0 : Nat} {t' : State}
    (e : serveComp.finish sp addr more s n d dps src c p = some (v0, t')) (hk : Keeps M s0 s) (hM : Sub 34623527 M := by exact ‹Sub _ M›.of rfl) : Keeps M s0 t' := by
  unfold serveComp.finish at e
  dsimp only at e
  repeat' split at e
  all_goals cases e
  all_goals first
    | exact reportOpen_keeps _ _ _ _ _ _ hk
    | exact reportEnd_keeps _ _ _ _ _ _ _ _ hk

theorem serveComp_keeps {M : Nat} {s0 : State} {n : Nat} {sp : Space} {addr : Nat} {more : List Byte} {s : State} {v0} {t' : State} (he : serveComp n sp addr more s = some (v0, t')) (hk : Keeps M s0 s) (hM : Sub 34623527 M := by exact ‹Sub _ M›.of rfl) :
    Keeps M s0 t' := by
  unfold serveComp at he
  repeat' (first | split at he | cases he)
  all_goals repeat' (with_reducible first | assumption | exact hM.of rfl | refine serveComp_finish_keeps (by assumption) ?_ | apply reportOnly_keeps | apply reportOpen_keeps | apply useFree_keeps)

theorem compRow_keeps {M : Nat} {s0 : State} (want n : Nat) (sp : Space) (addr : Nat) (more : List Byte) {s : State} (hk : Keeps M s0 s) (hM : Sub 34623527 M := by exact ‹Sub _ M›.of rfl) :
    Keeps M s0 (compRow want n sp addr more s) := by
  unfold compRow
  try dsimp only
  repeat' (with_reducible first | assumption | exact hM.of rfl | apply Keeps.refl | apply keeps_ite | refine serveComp_keeps (by assumption) ?_ | split)

theorem execCompress_keeps {M : Nat} {s0 : State} (n : Nat) (sp : Space) (addr : Nat) (more : List Byte) {s : State} (hk : Keeps M s0 s) (hM : Sub 34623527 M := by exact ‹Sub _ M›.of rfl) :
    OutKeeps M s0 (execCompress n sp addr more s) := by
  unfold execCompress
  try dsimp only
  repeat' (with_reducible first | assumption | exact hM.of rfl | apply Keeps.refl | apply outKeeps_ite | apply keeps_ite | apply OutKeeps.next | apply compRow_keeps)

theorem execExpand_keeps {M : Nat} {s0 : State} (n : Nat) (sp : Space) (addr : Nat) {s : State} (hk : Keeps M s0 s) (hM : Sub 34623527 M := by exact ‹Sub _ M›.of rfl) :
    OutKeeps M s0 (execExpand n sp addr s) := by
  unfold execExpand
  try dsimp only
  repeat' (with_reducible first | assumption | exact hM.of rfl | apply Keeps.refl | apply outKeeps_ite | apply keeps_ite | apply OutKeeps.next | apply compRow_keeps)

theorem execCheck_keeps {M : Nat} {s0 : State} (n : Nat) (sp : Space) (addr : Nat) {s : State} (hk : Keeps M s0 s) (hM : Sub 34623527 M := by exact ‹Sub _ M›.of rfl) :
    OutKeeps M s0 (execCheck n sp addr s) := by
  unfold execCheck
  try dsimp only
  repeat' (with_reducible first | assumption | exact hM.of rfl | apply Keeps.refl | apply outKeeps_ite | apply keeps_ite | apply OutKeeps.next | apply compRow_keeps)

theorem retireComp_keeps {M : Nat} {s0 : State} (n : Nat) {s : State} (hk : Keeps M s0 s) (hM : Sub 33 M := by exact ‹Sub _ M›.of rfl) :
    Keeps M s0 (retireComp n s) := by
  unfold retireComp
  try dsimp only
  repeat' (with_reducible first | assumption | exact hM.of rfl | apply Keeps.refl | apply keeps_ite | apply fset_keeps | apply raiseEvent_keeps | apply retireDomain_keeps)

theorem execEngineFault_keeps {M : Nat} {s0 : State} (n : Nat) {s : State} (hk : Keeps M s0 s) (hM : Sub 16417 M := by exact ‹Sub _ M›.of rfl) :
    OutKeeps M s0 (execEngineFault n s) := by
  unfold execEngineFault
  try dsimp only
  repeat' (with_reducible first | assumption | exact hM.of rfl | apply Keeps.refl | apply outKeeps_ite | apply keeps_ite | apply OutKeeps.next | apply cntAdd_keeps | apply raiseEvent_keeps | apply retireComp_keeps | split | apply Keeps.upd_comp | intro _ | nofun)

theorem abortComp_keeps {M : Nat} {s0 : State} (n : Nat) (sp : Space) (addr : Nat) {s : State} (hk : Keeps M s0 s) (hM : Sub 34623527 M := by exact ‹Sub _ M›.of rfl) :
    Keeps M s0 (abortComp n sp addr s) := by
  unfold abortComp
  try dsimp only
  repeat' (with_reducible first | assumption | exact hM.of rfl | apply Keeps.refl | apply keeps_ite | apply reportOpen_keeps | split)

theorem execEngineAbort_keeps {M : Nat} {s0 : State} (n : Nat) (sp : Space) (addr : Nat) {s : State} (hk : Keeps M s0 s) (hM : Sub 34623527 M := by exact ‹Sub _ M›.of rfl) :
    OutKeeps M s0 (execEngineAbort n sp addr s) := by
  unfold execEngineAbort
  try dsimp only
  repeat' (with_reducible first | assumption | exact hM.of rfl | apply Keeps.refl | apply outKeeps_ite | apply keeps_ite | apply OutKeeps.next | apply abortComp_keeps)

theorem execEngineRetire_keeps {M : Nat} {s0 : State} (n key req : Nat) {s : State} (hk : Keeps M s0 s) (hM : Sub 33 M := by exact ‹Sub _ M›.of rfl) :
    OutKeeps M s0 (execEngineRetire n key req s) := by
  unfold execEngineRetire
  try dsimp only
  repeat' (with_reducible first | assumption | exact hM.of rfl | apply Keeps.refl | apply outKeeps_ite | apply keeps_ite | apply OutKeeps.next | apply busError_keeps | apply retireComp_keeps | apply writeIgnored_keeps)

end Sys2Proof.Machine
end

