-- ==== Sys2Proof/Laws/KeepDigestOps.lean ====
section
/-! SUPPORT. Every operation of Machine/DigestOps.lean leaves what `Keeps` says. -/

set_option Elab.async false

namespace Sys2Proof.Machine

theorem setDigCtx_keeps {M : Nat} {s0 : State} (c : Nat) (x : DigCtx) {s : State} (hk : Keeps M s0 s) (hM : Sub 65536 M := by exact ‹Sub _ M›.of rfl) :
    Keeps M s0 (setDigCtx c x s) := by
  unfold setDigCtx
  try dsimp only
  repeat' (with_reducible first | assumption | exact hM.of rfl | apply Keeps.refl | apply keeps_ite | split | apply Keeps.upd_dig)

theorem showFree_keeps {M : Nat} {s0 : State} {s : State} (hk : Keeps M s0 s) (hM : Sub 1 M := by exact ‹Sub _ M›.of rfl) :
    Keeps M s0 (showFree s) := by
  unfold showFree
  try dsimp only
  repeat' (with_reducible first | assumption | exact hM.of rfl | apply Keeps.refl | apply keeps_ite | apply fset_keeps | split | intro _)

theorem setDigState_keeps {M : Nat} {s0 : State} (c st : Nat) {s : State} (hk : Keeps M s0 s) (hM : Sub 1 M := by exact ‹Sub _ M›.of rfl) :
    Keeps M s0 (setDigState c st s) := by
  unfold setDigState
  try dsimp only
  repeat' (with_reducible first | assumption | exact hM.of rfl | apply Keeps.refl | apply keeps_ite | apply fset_keeps | apply showFree_keeps)

theorem setResult_keeps {M : Nat} {s0 : State} (c : Nat) (bs : List Byte) {s : State} (hk : Keeps M s0 s) (hM : Sub 1 M := by exact ‹Sub _ M›.of rfl) :
    Keeps M s0 (setResult c bs s) := by
  unfold setResult
  try dsimp only
  repeat' (with_reducible first | assumption | exact hM.of rfl | apply Keeps.refl | apply keeps_ite | apply forN_keeps | apply wr_keeps | apply forN_keeps | split | intro _)

theorem wipeCtx_keeps {M : Nat} {s0 : State} (c : Nat) {s : State} (hk : Keeps M s0 s) (hM : Sub 65537 M := by exact ‹Sub _ M›.of rfl) :
    Keeps M s0 (wipeCtx c s) := by
  unfold wipeCtx
  try dsimp only
  repeat' (with_reducible first | assumption | exact hM.of rfl | apply Keeps.refl | apply keeps_ite | apply fset_keeps | apply setDigCtx_keeps | apply setResult_keeps | apply wr_keeps)

theorem clearCtx_keeps {M : Nat} {s0 : State} (c err : Nat) {s : State} (hk : Keeps M s0 s) (hM : Sub 65569 M := by exact ‹Sub _ M›.of rfl) :
    Keeps M s0 (clearCtx c err s) := by
  unfold clearCtx
  try dsimp only
  repeat' (with_reducible first | assumption | exact hM.of rfl | apply Keeps.refl | apply keeps_ite | apply fset_keeps | apply raiseEvent_keeps | apply setDigState_keeps | apply wipeCtx_keeps)

theorem foreignWrite_keeps {M : Nat} {s0 : State} (addr req size : Nat) {s : State} (hk : Keeps M s0 s) (hM : Sub 33 M := by exact ‹Sub _ M›.of rfl) :
    Keeps M s0 (foreignWrite addr req size s) := by
  unfold foreignWrite
  try dsimp only
  repeat' (with_reducible first | assumption | exact hM.of rfl | apply Keeps.refl | apply keeps_ite | apply busError_keeps | apply raiseEvent_keeps)

theorem finishCtx_keeps {M : Nat} {s0 : State} (c : Nat) (msg : List Byte) {s : State} (hk : Keeps M s0 s) (hM : Sub 65537 M := by exact ‹Sub _ M›.of rfl) :
    Keeps M s0 (finishCtx c msg s) := by
  unfold finishCtx
  try dsimp only
  repeat' (with_reducible first | assumption | exact hM.of rfl | apply Keeps.refl | apply keeps_ite | apply fset_keeps | apply setDigCtx_keeps | apply setDigState_keeps | apply setResult_keeps)

theorem countBytes_keeps {M : Nat} {s0 : State} (c n : Nat) {s : State} (hk : Keeps M s0 s) (hM : Sub 1 M := by exact ‹Sub _ M›.of rfl) :
    Keeps M s0 (countBytes c n s) := by
  unfold countBytes
  try dsimp only
  repeat' (with_reducible first | assumption | exact hM.of rfl | apply Keeps.refl | apply keeps_ite | apply cntAdd_keeps | apply wr_keeps)

theorem absorb_keeps {M : Nat} {s0 : State} (c : Nat) (bs : List Byte) {s : State} (hk : Keeps M s0 s) (hM : Sub 65537 M := by exact ‹Sub _ M›.of rfl) :
    Keeps M s0 (absorb c bs s) := by
  unfold absorb
  try dsimp only
  repeat' (with_reducible first | assumption | exact hM.of rfl | apply Keeps.refl | apply keeps_ite | apply countBytes_keeps | apply fset_keeps | apply setDigCtx_keeps)

theorem newBlob_keeps {M : Nat} {s0 : State} (alg : Nat) (hm : Bool) (x : DigCtx) (decl : Nat) {s : State} (hk : Keeps M s0 s) (hM : Sub 4 M := by exact ‹Sub _ M›.of rfl) :
    Keeps M s0 (newBlob alg hm x decl s).2 := by
  unfold newBlob
  try dsimp only
  repeat' (with_reducible first | assumption | exact hM.of rfl | apply Keeps.refl | apply keeps_ite | split | apply Keeps.updFree)

theorem newBlob_keeps_eq {M : Nat} {s0 : State} {alg : Nat} {hm : Bool} {x : DigCtx} {decl : Nat} {s : State} {v0} {t' : State} (he : newBlob alg hm x decl s = (v0, t')) (hk : Keeps M s0 s) (hM : Sub 4 M := by exact ‹Sub _ M›.of rfl) :
    Keeps M s0 t' := by
  have g : Keeps M s0 (newBlob alg hm x decl s).2 := by
    with_reducible apply newBlob_keeps <;> assumption
  rw [he] at g
  exact g

theorem keepBlob_keeps {M : Nat} {s0 : State} (b : DigBlob) {s : State} (hk : Keeps M s0 s) (hM : Sub 65536 M := by exact ‹Sub _ M›.of rfl) :
    Keeps M s0 (keepBlob b s) := by
  unfold keepBlob
  try dsimp only
  repeat' (with_reducible first | assumption | exact hM.of rfl | apply Keeps.refl | apply keeps_ite | split | apply Keeps.upd_dig)

theorem letterEnds_keeps {M : Nat} {s0 : State} (sp : Space) (addr st count : Nat) {s : State} (hk : Keeps M s0 s) (hM : Sub 34607106 M := by exact ‹Sub _ M›.of rfl) :
    Keeps M s0 (letterEnds sp addr st count s) := by
  unfold letterEnds
  try dsimp only
  repeat' (with_reducible first | assumption | exact hM.of rfl | apply Keeps.refl | apply keeps_ite | apply writeSpace_keeps)

theorem digestLetter_keeps {M : Nat} {s0 : State} (sp : Space) (addr : Nat) {s : State} (hk : Keeps M s0 s) (hM : Sub 34672679 M := by exact ‹Sub _ M›.of rfl) :
    Keeps M s0 (digestLetter sp addr s).2 := by
  unfold digestLetter
  try dsimp only
  repeat' (with_reducible first | assumption | exact hM.of rfl | apply Keeps.refl | apply keeps_ite | apply cntAdd_keeps | apply keepBlob_keeps | apply letterEnds_keeps | refine newBlob_keeps_eq (by assumption) ?_ | apply newBlob_keeps | apply raiseEvent_keeps | apply writeSpace_keeps | split)

theorem digestLetter_keeps_eq {M : Nat} {s0 : State} {sp : Space} {addr : Nat} {s : State} {v0} {t' : State} (he : digestLetter sp addr s = (v0, t')) (hk : Keeps M s0 s) (hM : Sub 34672679 M := by exact ‹Sub _ M›.of rfl) :
    Keeps M s0 t' := by
  have g : Keeps M s0 (digestLetter sp addr s).2 := by
    with_reducible apply digestLetter_keeps <;> assumption
  rw [he] at g
  exact g

theorem serveLetters_keeps {M : Nat} {s0 : State} {s : State} (hk : Keeps M s0 s) (hM : Sub 34672679 M := by exact ‹Sub _ M›.of rfl) :
    Keeps M s0 (serveLetters s) := by
  unfold serveLetters
  try dsimp only
  repeat' (with_reducible first | assumption | exact hM.of rfl | apply Keeps.refl | apply keeps_ite | refine digestLetter_keeps_eq (by assumption) ?_ | apply digestLetter_keeps | apply showFree_keeps | apply forEach_keeps | split | apply Keeps.upd_dig | intro _)

theorem digClaim_keeps {M : Nat} {s0 : State} (c req : Nat) {s : State} (hk : Keeps M s0 s) (hM : Sub 33 M := by exact ‹Sub _ M›.of rfl) :
    Keeps M s0 (digClaim c req s) := by
  unfold digClaim
  try dsimp only
  repeat' (with_reducible first | assumption | exact hM.of rfl | apply Keeps.refl | apply keeps_ite | apply fset_keeps | apply setDigState_keeps | apply writeIgnored_keeps)

theorem digRelease_keeps {M : Nat} {s0 : State} (c req : Nat) {s : State} (hk : Keeps M s0 s) (hM : Sub 34672679 M := by exact ‹Sub _ M›.of rfl) :
    Keeps M s0 (digRelease c req s) := by
  unfold digRelease
  try dsimp only
  repeat' (with_reducible first | assumption | exact hM.of rfl | apply Keeps.refl | apply keeps_ite | apply fset_keeps | apply serveLetters_keeps | apply setDigState_keeps | apply wipeCtx_keeps | apply wr_keeps | apply writeIgnored_keeps | split | intro _)

theorem fixedOwner_keeps {M : Nat} {s0 : State} (c : Nat) {s : State} (hk : Keeps M s0 s) (hM : Sub 1 M := by exact ‹Sub _ M›.of rfl) :
    Keeps M s0 (fixedOwner c s) := by
  unfold fixedOwner
  try dsimp only
  repeat' (with_reducible first | assumption | exact hM.of rfl | apply Keeps.refl | apply keeps_ite | apply fset_keeps)

theorem digStart_keeps {M : Nat} {s0 : State} (c : Nat) {s : State} (hk : Keeps M s0 s) (hM : Sub 65569 M := by exact ‹Sub _ M›.of rfl) :
    Keeps M s0 (digStart c s) := by
  unfold digStart
  try dsimp only
  repeat' (with_reducible first | assumption | exact hM.of rfl | apply Keeps.refl | apply keeps_ite | apply finishCtx_keeps | apply fixedOwner_keeps | apply fset_keeps | apply otherPostmark_keeps | apply setDigCtx_keeps | apply setDigState_keeps | apply setResult_keeps | apply wr_keeps)

theorem digFinish_keeps {M : Nat} {s0 : State} (c : Nat) {s : State} (hk : Keeps M s0 s) (hM : Sub 65569 M := by exact ‹Sub _ M›.of rfl) :
    Keeps M s0 (digFinish c s) := by
  unfold digFinish
  try dsimp only
  repeat' (with_reducible first | assumption | exact hM.of rfl | apply Keeps.refl | apply keeps_ite | apply clearCtx_keeps | apply countBytes_keeps | apply finishCtx_keeps | split)

theorem digAbort_keeps {M : Nat} {s0 : State} (c : Nat) {s : State} (hk : Keeps M s0 s) (hM : Sub 65537 M := by exact ‹Sub _ M›.of rfl) :
    Keeps M s0 (digAbort c s) := by
  unfold digAbort
  try dsimp only
  repeat' (with_reducible first | assumption | exact hM.of rfl | apply Keeps.refl | apply keeps_ite | apply setDigState_keeps | apply wipeCtx_keeps)

theorem digExport_keeps {M : Nat} {s0 : State} (c req : Nat) {s : State} (hk : Keeps M s0 s) (hM : Sub 34672679 M := by exact ‹Sub _ M›.of rfl) :
    Keeps M s0 (digExport c req s) := by
  unfold digExport
  try dsimp only
  repeat' (with_reducible first | assumption | exact hM.of rfl | apply Keeps.refl | apply keeps_ite | apply clearCtx_keeps | apply keepBlob_keeps | refine newBlob_keeps_eq (by assumption) ?_ | apply newBlob_keeps | apply setDigState_keeps | apply wipeCtx_keeps | apply writeIgnored_keeps | apply writeSpace_keeps)

theorem digImport_keeps {M : Nat} {s0 : State} (c req : Nat) {s : State} (hk : Keeps M s0 s) (hM : Sub 65569 M := by exact ‹Sub _ M›.of rfl) :
    Keeps M s0 (digImport c req s) := by
  unfold digImport
  try dsimp only
  repeat' (with_reducible first | assumption | exact hM.of rfl | apply Keeps.refl | apply keeps_ite | apply clearCtx_keeps | apply fixedOwner_keeps | apply fset_keeps | apply otherPostmark_keeps | apply raiseEvent_keeps | apply setDigCtx_keeps | apply setDigState_keeps | apply setResult_keeps | apply wr_keeps | apply writeIgnored_keeps | split)

theorem digCtrl_keeps {M : Nat} {s0 : State} (c v req : Nat) {s : State} (hk : Keeps M s0 s) (hM : Sub 34672679 M := by exact ‹Sub _ M›.of rfl) :
    Keeps M s0 (digCtrl c v req s) := by
  unfold digCtrl
  try dsimp only
  repeat' (with_reducible first | assumption | exact hM.of rfl | apply Keeps.refl | apply keeps_ite | apply busError_keeps | apply clearCtx_keeps | apply digAbort_keeps | apply digClaim_keeps | apply digExport_keeps | apply digFinish_keeps | apply digImport_keeps | apply digRelease_keeps | apply digStart_keeps | apply foreignWrite_keeps | apply fset_keeps | apply writeIgnored_keeps | split | intro _)

theorem digData_keeps {M : Nat} {s0 : State} (c : Nat) (w : Word) (size off req : Nat) {s : State} (hk : Keeps M s0 s) (hM : Sub 65569 M := by exact ‹Sub _ M›.of rfl) :
    Keeps M s0 (digData c w size off req s) := by
  unfold digData
  try dsimp only
  repeat' (with_reducible first | assumption | exact hM.of rfl | apply Keeps.refl | apply keeps_ite | apply absorb_keeps | apply busError_keeps | apply clearCtx_keeps | apply countBytes_keeps | apply finishCtx_keeps | apply foreignWrite_keeps | apply setDigCtx_keeps | split)

theorem digKey_keeps {M : Nat} {s0 : State} (c j : Nat) (mask w : Word) (req : Nat) {s : State} (hk : Keeps M s0 s) (hM : Sub 65569 M := by exact ‹Sub _ M›.of rfl) :
    Keeps M s0 (digKey c j mask w req s) := by
  unfold digKey
  try dsimp only
  repeat' (with_reducible first | assumption | exact hM.of rfl | apply Keeps.refl | apply keeps_ite | apply busError_keeps | apply clearCtx_keeps | apply foreignWrite_keeps | apply setDigCtx_keeps | split | intro _)

theorem execDigestClaim_keeps {M : Nat} {s0 : State} (c req : Nat) {s : State} (hk : Keeps M s0 s) (hM : Sub 34672679 M := by exact ‹Sub _ M›.of rfl) :
    OutKeeps M s0 (execDigestClaim c req s) := by
  unfold execDigestClaim
  try dsimp only
  repeat' (with_reducible first | assumption | exact hM.of rfl | apply Keeps.refl | apply outKeeps_ite | apply keeps_ite | apply OutKeeps.next | apply digCtrl_keeps)

theorem execDigestRelease_keeps {M : Nat} {s0 : State} (c req : Nat) {s : State} (hk : Keeps M s0 s) (hM : Sub 34672679 M := by exact ‹Sub _ M›.of rfl) :
    OutKeeps M s0 (execDigestRelease c req s) := by
  unfold execDigestRelease
  try dsimp only
  repeat' (with_reducible first | assumption | exact hM.of rfl | apply Keeps.refl | apply outKeeps_ite | apply keeps_ite | apply OutKeeps.next | apply digCtrl_keeps)

theorem execDigestStart_keeps {M : Nat} {s0 : State} (c v req : Nat) {s : State} (hk : Keeps M s0 s) (hM : Sub 34672679 M := by exact ‹Sub _ M›.of rfl) :
    OutKeeps M s0 (execDigestStart c v req s) := by
  unfold execDigestStart
  try dsimp only
  repeat' (with_reducible first | assumption | exact hM.of rfl | apply Keeps.refl | apply outKeeps_ite | apply keeps_ite | apply OutKeeps.next | apply digCtrl_keeps)

theorem execDigestDataWrite_keeps {M : Nat} {s0 : State} (c : Nat) (w : Word) (size off req : Nat) {s : State} (hk : Keeps M s0 s) (hM : Sub 65569 M := by exact ‹Sub _ M›.of rfl) :
    OutKeeps M s0 (execDigestDataWrite c w size off req s) := by
  unfold execDigestDataWrite
  try dsimp only
  repeat' (with_reducible first | assumption | exact hM.of rfl | apply Keeps.refl | apply outKeeps_ite | apply keeps_ite | apply OutKeeps.next | apply digData_keeps)

theorem execDigestKeyWrite_keeps {M : Nat} {s0 : State} (c j : Nat) (w : Word) (req : Nat) {s : State} (hk : Keeps M s0 s) (hM : Sub 65569 M := by exact ‹Sub _ M›.of rfl) :
    OutKeeps M s0 (execDigestKeyWrite c j w req s) := by
  unfold execDigestKeyWrite
  try dsimp only
  repeat' (with_reducible first | assumption | exact hM.of rfl | apply Keeps.refl | apply outKeeps_ite | apply keeps_ite | apply OutKeeps.next | apply digKey_keeps | split | intro _)

theorem execDigestBlockTaken_keeps {M : Nat} {s0 : State} (c : Nat) {s : State} (hk : Keeps M s0 s) (hM : Sub 1 M := by exact ‹Sub _ M›.of rfl) :
    OutKeeps M s0 (execDigestBlockTaken c s) := by
  unfold execDigestBlockTaken
  try dsimp only
  repeat' (with_reducible first | assumption | exact hM.of rfl | apply Keeps.refl | apply outKeeps_ite | apply keeps_ite | apply OutKeeps.next | apply fset_keeps)

theorem execDigestFinish_keeps {M : Nat} {s0 : State} (c v req : Nat) {s : State} (hk : Keeps M s0 s) (hM : Sub 34672679 M := by exact ‹Sub _ M›.of rfl) :
    OutKeeps M s0 (execDigestFinish c v req s) := by
  unfold execDigestFinish
  try dsimp only
  repeat' (with_reducible first | assumption | exact hM.of rfl | apply Keeps.refl | apply outKeeps_ite | apply keeps_ite | apply OutKeeps.next | apply digCtrl_keeps)

theorem execDigestAbort_keeps {M : Nat} {s0 : State} (c v req : Nat) {s : State} (hk : Keeps M s0 s) (hM : Sub 34672679 M := by exact ‹Sub _ M›.of rfl) :
    OutKeeps M s0 (execDigestAbort c v req s) := by
  unfold execDigestAbort
  try dsimp only
  repeat' (with_reducible first | assumption | exact hM.of rfl | apply Keeps.refl | apply outKeeps_ite | apply keeps_ite | apply OutKeeps.next | apply digCtrl_keeps)

theorem execDigestExport_keeps {M : Nat} {s0 : State} (c v req : Nat) {s : State} (hk : Keeps M s0 s) (hM : Sub 34672679 M := by exact ‹Sub _ M›.of rfl) :
    OutKeeps M s0 (execDigestExport c v req s) := by
  unfold execDigestExport
  try dsimp only
  repeat' (with_reducible first | assumption | exact hM.of rfl | apply Keeps.refl | apply outKeeps_ite | apply keeps_ite | apply OutKeeps.next | apply digCtrl_keeps)

theorem execDigestImport_keeps {M : Nat} {s0 : State} (c v req : Nat) {s : State} (hk : Keeps M s0 s) (hM : Sub 34672679 M := by exact ‹Sub _ M›.of rfl) :
    OutKeeps M s0 (execDigestImport c v req s) := by
  unfold execDigestImport
  try dsimp only
  repeat' (with_reducible first | assumption | exact hM.of rfl | apply Keeps.refl | apply outKeeps_ite | apply keeps_ite | apply OutKeeps.next | apply digCtrl_keeps)

theorem execDigestLetter_keeps {M : Nat} {s0 : State} (sp : Space) (addr : Nat) {s : State} (hk : Keeps M s0 s) (hM : Sub 34672679 M := by exact ‹Sub _ M›.of rfl) :
    OutKeeps M s0 (execDigestLetter sp addr s) := by
  unfold execDigestLetter
  try dsimp only
  repeat' (with_reducible first | assumption | exact hM.of rfl | apply Keeps.refl | apply outKeeps_ite | apply keeps_ite | apply OutKeeps.next | refine digestLetter_keeps_eq (by assumption) ?_ | apply digestLetter_keeps | apply showFree_keeps | split | apply Keeps.upd_dig | intro _)

theorem execContextAlarm_keeps {M : Nat} {s0 : State} (c : Nat) {s : State} (hk : Keeps M s0 s) (hM : Sub 65569 M := by exact ‹Sub _ M›.of rfl) :
    OutKeeps M s0 (execContextAlarm c s) := by
  unfold execContextAlarm
  try dsimp only
  repeat' (with_reducible first | assumption | exact hM.of rfl | apply Keeps.refl | apply outKeeps_ite | apply keeps_ite | apply OutKeeps.next | apply clearCtx_keeps | apply raiseEvent_keeps)

end Sys2Proof.Machine
end

