-- ==== Sys2Proof/Laws/KeepWindows.lean ====
section
/-! SUPPORT. Every operation of Machine/Windows.lean leaves what `Keeps` says. -/

set_option Elab.async false

namespace Sys2Proof.Machine

theorem prdEnded_keeps {M : Nat} {s0 : State} (claimed : Bool) (k : Nat) {s : State} (hk : Keeps M s0 s) (hM : Sub 1 M := by exact ‹Sub _ M›.of rfl) :
    Keeps M s0 (prdEnded claimed k s) := by
  unfold prdEnded
  try dsimp only
  repeat' (with_reducible first | assumption | exact hM.of rfl | apply Keeps.refl | apply keeps_ite | apply cntAdd_keeps)

theorem dropPages_keeps {M : Nat} {s0 : State} (p : StagePage → Bool) {s : State} (hk : Keeps M s0 s) (hM : Sub 2049 M := by exact ‹Sub _ M›.of rfl) :
    Keeps M s0 (dropPages p s) := by
  unfold dropPages
  try dsimp only
  repeat' (with_reducible first | assumption | exact hM.of rfl | apply Keeps.refl | apply keeps_ite | apply forEach_keeps | apply prdEnded_keeps | apply forEach_keeps | split | apply Keeps.upd_prog | intro _)

theorem invalidateWindows_keeps {M : Nat} {s0 : State} (nsid iu : Nat) {s : State} (hk : Keeps M s0 s) (hM : Sub 264193 M := by exact ‹Sub _ M›.of rfl) :
    Keeps M s0 (invalidateWindows nsid iu s) := by
  unfold invalidateWindows
  try dsimp only
  repeat' (with_reducible first | assumption | exact hM.of rfl | apply Keeps.refl | apply keeps_ite | apply dropPages_keeps | split | apply Keeps.upd_sch)

theorem updRead_keeps {M : Nat} {s0 : State} (h : Nat) (f : ReadEntry → ReadEntry) {s : State} (hk : Keeps M s0 s) (hM : Sub 262144 M := by exact ‹Sub _ M›.of rfl) :
    Keeps M s0 (updRead h f s) := by
  unfold updRead
  try dsimp only
  repeat' (with_reducible first | assumption | exact hM.of rfl | apply Keeps.refl | apply keeps_ite | split | apply Keeps.upd_sch)

theorem windowArrived_keeps {M : Nat} {s0 : State} (h : Nat) (ok : Bool) {s : State} (hk : Keeps M s0 s) (hM : Sub 262144 M := by exact ‹Sub _ M›.of rfl) :
    Keeps M s0 (windowArrived h ok s) := by
  unfold windowArrived
  try dsimp only
  repeat' (with_reducible first | assumption | exact hM.of rfl | apply Keeps.refl | apply keeps_ite | apply updRead_keeps)

theorem scanArrived_keeps {M : Nat} {s0 : State} (num iu : Nat) (ok : Bool) {s : State} (hk : Keeps M s0 s) (hM : Sub 32768 M := by exact ‹Sub _ M›.of rfl) :
    Keeps M s0 (scanArrived num iu ok s) := by
  unfold scanArrived
  try dsimp only
  repeat' (with_reducible first | assumption | exact hM.of rfl | apply Keeps.refl | apply keeps_ite | split | apply Keeps.upd_scan | intro _)

theorem windowAtDie_keeps {M : Nat} {s0 : State} (h : Nat) {s : State} (hk : Keeps M s0 s) (hM : Sub 262144 M := by exact ‹Sub _ M›.of rfl) :
    Keeps M s0 (windowAtDie h s) := by
  unfold windowAtDie
  try dsimp only
  repeat' (with_reducible first | assumption | exact hM.of rfl | apply Keeps.refl | apply keeps_ite | apply updRead_keeps)

end Sys2Proof.Machine
end

