-- ==== Sys2Proof/Laws/KeepFtlBase.lean ====
section
/-! SUPPORT. Every operation of Machine/FtlBase.lean leaves what `Keeps` says. -/

set_option Elab.async false

namespace Sys2Proof.Machine

theorem cachePage_keeps {M : Nat} {s0 : State} (p : Nat) {s : State} (hk : Keeps M s0 s) (hM : Sub 256 M := by exact ‹Sub _ M›.of rfl) :
    Keeps M s0 (cachePage p s) := by
  unfold cachePage
  try dsimp only
  repeat' (with_reducible first | assumption | exact hM.of rfl | apply Keeps.refl | apply keeps_ite | split | apply Keeps.upd_ftl | intro _)

theorem dirtyPage_keeps {M : Nat} {s0 : State} (p : Nat) {s : State} (hk : Keeps M s0 s) (hM : Sub 256 M := by exact ‹Sub _ M›.of rfl) :
    Keeps M s0 (dirtyPage p s) := by
  unfold dirtyPage
  try dsimp only
  repeat' (with_reducible first | assumption | exact hM.of rfl | apply Keeps.refl | apply keeps_ite | split | apply Keeps.upd_ftl)

theorem showChan_keeps {M : Nat} {s0 : State} (n : Nat) {s : State} (hk : Keeps M s0 s) (hM : Sub 1 M := by exact ‹Sub _ M›.of rfl) :
    Keeps M s0 (showChan n s) := by
  unfold showChan
  try dsimp only
  repeat' (with_reducible first | assumption | exact hM.of rfl | apply Keeps.refl | apply keeps_ite | apply fset_keeps | apply forN_keeps | split | intro _)

theorem setChan_keeps {M : Nat} {s0 : State} (n : Nat) (c : Chan) {s : State} (hk : Keeps M s0 s) (hM : Sub 513 M := by exact ‹Sub _ M›.of rfl) :
    Keeps M s0 (setChan n c s) := by
  unfold setChan
  try dsimp only
  repeat' (with_reducible first | assumption | exact hM.of rfl | apply Keeps.refl | apply keeps_ite | apply showChan_keeps | split | apply Keeps.upd_media)

theorem setSb_keeps {M : Nat} {s0 : State} (i : Nat) (b : Sb) {s : State} (hk : Keeps M s0 s) (hM : Sub 256 M := by exact ‹Sub _ M›.of rfl) :
    Keeps M s0 (setSb i b s) := by
  unfold setSb
  try dsimp only
  repeat' (with_reducible first | assumption | exact hM.of rfl | apply Keeps.refl | apply keeps_ite | split | apply Keeps.upd_ftl)

theorem enqueue_keeps {M : Nat} {s0 : State} (n : Nat) (o : ChanOp) {s : State} (hk : Keeps M s0 s) (hM : Sub 513 M := by exact ‹Sub _ M›.of rfl) :
    Keeps M s0 (enqueue n o s) := by
  unfold enqueue
  try dsimp only
  repeat' (with_reducible first | assumption | exact hM.of rfl | apply Keeps.refl | apply keeps_ite | apply setChan_keeps | split | intro _)

theorem pushContrib_keeps {M : Nat} {s0 : State} (n : Nat) (o : ChanOp) {s : State} (hk : Keeps M s0 s) (hM : Sub 513 M := by exact ‹Sub _ M›.of rfl) :
    Keeps M s0 (pushContrib n o s) := by
  unfold pushContrib
  try dsimp only
  repeat' (with_reducible first | assumption | exact hM.of rfl | apply Keeps.refl | apply keeps_ite | apply enqueue_keeps | apply forEach_keeps | split | intro _)

theorem startRebuild_keeps {M : Nat} {s0 : State} (n : Nat) (o : ChanOp) (counts check : Bool) {s : State} (hk : Keeps M s0 s) (hM : Sub 513 M := by exact ‹Sub _ M›.of rfl) :
    Keeps M s0 (startRebuild n o counts check s) := by
  unfold startRebuild
  try dsimp only
  repeat' (with_reducible first | assumption | exact hM.of rfl | apply Keeps.refl | apply keeps_ite | apply pushContrib_keeps | apply setChan_keeps | split | intro _)

theorem pushOp_keeps {M : Nat} {s0 : State} (n : Nat) (o : ChanOp) {s : State} (hk : Keeps M s0 s) (hM : Sub 513 M := by exact ‹Sub _ M›.of rfl) :
    Keeps M s0 (pushOp n o s) := by
  unfold pushOp
  try dsimp only
  repeat' (with_reducible first | assumption | exact hM.of rfl | apply Keeps.refl | apply keeps_ite | apply enqueue_keeps | apply startRebuild_keeps | split | intro _)

theorem dropOps_keeps {M : Nat} {s0 : State} (is : ChanOp → Bool) {s : State} (hk : Keeps M s0 s) (hM : Sub 513 M := by exact ‹Sub _ M›.of rfl) :
    Keeps M s0 (dropOps is s) := by
  unfold dropOps
  try dsimp only
  repeat' (with_reducible first | assumption | exact hM.of rfl | apply Keeps.refl | apply keeps_ite | apply setChan_keeps | apply forEach_keeps | split | intro _)

theorem endOps_keeps {M : Nat} {s0 : State} (is : ChanOp → Bool) {s : State} (hk : Keeps M s0 s) (hM : Sub 513 M := by exact ‹Sub _ M›.of rfl) :
    Keeps M s0 (endOps is s) := by
  unfold endOps
  try dsimp only
  repeat' (with_reducible first | assumption | exact hM.of rfl | apply Keeps.refl | apply keeps_ite | apply cntAdd_keeps | apply dropOps_keeps | apply forEach_keeps | split | intro _)

theorem loadPage_keeps {M : Nat} {s0 : State} (p : Nat) {s : State} (hk : Keeps M s0 s) (hM : Sub 513 M := by exact ‹Sub _ M›.of rfl) :
    Keeps M s0 (loadPage p s) := by
  unfold loadPage
  try dsimp only
  repeat' (with_reducible first | assumption | exact hM.of rfl | apply Keeps.refl | apply keeps_ite | apply pushOp_keeps | split | intro _)

theorem finishRead_keeps {M : Nat} {s0 : State} (tag : Nat) {s : State} (hk : Keeps M s0 s) (hM : Sub 4194465 M := by exact ‹Sub _ M›.of rfl) :
    Keeps M s0 (finishRead tag s) := by
  unfold finishRead
  try dsimp only
  repeat' (with_reducible first | assumption | exact hM.of rfl | apply Keeps.refl | apply keeps_ite | apply complete_keeps | apply completeData_keeps | apply completeOk_keeps | apply setCmd_keeps | split | intro _)

theorem readUnitDone_keeps {M : Nat} {s0 : State} (tag key : Nat) (ok : Bool) {s : State} (hk : Keeps M s0 s) (hM : Sub 4194465 M := by exact ‹Sub _ M›.of rfl) :
    Keeps M s0 (readUnitDone tag key ok s) := by
  unfold readUnitDone
  try dsimp only
  repeat' (with_reducible first | assumption | exact hM.of rfl | apply Keeps.refl | apply keeps_ite | apply complete_keeps | apply finishRead_keeps | apply setCmd_keeps | split)

theorem lookUnit_keeps {M : Nat} {s0 : State} (tag iu : Nat) {s : State} (hk : Keeps M s0 s) (hM : Sub 4195233 M := by exact ‹Sub _ M›.of rfl) :
    Keeps M s0 (lookUnit tag iu s) := by
  unfold lookUnit
  try dsimp only
  repeat' (with_reducible first | assumption | exact hM.of rfl | apply Keeps.refl | apply keeps_ite | apply cachePage_keeps | apply complete_keeps | apply loadPage_keeps | apply pushOp_keeps | apply setCmd_keeps | split | intro _)

theorem startRead_keeps {M : Nat} {s0 : State} (tag : Nat) {s : State} (hk : Keeps M s0 s) (hM : Sub 4195233 M := by exact ‹Sub _ M›.of rfl) :
    Keeps M s0 (startRead tag s) := by
  unfold startRead
  try dsimp only
  repeat' (with_reducible first | assumption | exact hM.of rfl | apply Keeps.refl | apply keeps_ite | apply finishRead_keeps | apply forEach_keeps | apply lookUnit_keeps | apply forEach_keeps | split | intro _)

theorem wakeReads_keeps {M : Nat} {s0 : State} {s : State} (hk : Keeps M s0 s) (hM : Sub 4195233 M := by exact ‹Sub _ M›.of rfl) :
    Keeps M s0 (wakeReads s) := by
  unfold wakeReads
  try dsimp only
  repeat' (with_reducible first | assumption | exact hM.of rfl | apply Keeps.refl | apply keeps_ite | apply forEach_keeps | apply startRead_keeps | apply forEach_keeps | split | intro _)

end Sys2Proof.Machine
end

