-- ==== Sys2Proof/Laws/KeepKeyOps.lean ====
section
/-! SUPPORT. Every operation of Machine/KeyOps.lean leaves what `Keeps` says. -/

set_option Elab.async false

namespace Sys2Proof.Machine

theorem showKeys_keeps {M : Nat} {s0 : State} {s : State} (hk : Keeps M s0 s) (hM : Sub 1 M := by exact ‹Sub _ M›.of rfl) :
    Keeps M s0 (showKeys s) := by
  unfold showKeys
  try dsimp only
  repeat' (with_reducible first | assumption | exact hM.of rfl | apply Keeps.refl | apply keeps_ite | apply fset_keeps | split | intro _)

theorem updKeys_keeps {M : Nat} {s0 : State} (f : Keys → Keys) {s : State} (hk : Keeps M s0 s) (hM : Sub 131073 M := by exact ‹Sub _ M›.of rfl) :
    Keeps M s0 (updKeys f s) := by
  unfold updKeys
  try dsimp only
  repeat' (with_reducible first | assumption | exact hM.of rfl | apply Keeps.refl | apply keeps_ite | apply showKeys_keeps | split | apply Keeps.upd_keys)

theorem zeroizeSlot_keeps {M : Nat} {s0 : State} (slot : Nat) {s : State} (hk : Keeps M s0 s) (hM : Sub 131073 M := by exact ‹Sub _ M›.of rfl) :
    Keeps M s0 (zeroizeSlot slot s) := by
  unfold zeroizeSlot
  try dsimp only
  repeat' (with_reducible first | assumption | exact hM.of rfl | apply Keeps.refl | apply keeps_ite | apply updKeys_keeps)

theorem fillSlot_keeps {M : Nat} {s0 : State} (slot entry : Nat) {s : State} (hk : Keeps M s0 s) (hM : Sub 131073 M := by exact ‹Sub _ M›.of rfl) :
    Keeps M s0 (fillSlot slot entry s) := by
  unfold fillSlot
  try dsimp only
  repeat' (with_reducible first | assumption | exact hM.of rfl | apply Keeps.refl | apply keeps_ite | apply cntAdd_keeps | apply updKeys_keeps)

theorem unwrapFailed_keeps {M : Nat} {s0 : State} (entry : Nat) {s : State} (hk : Keeps M s0 s) (hM : Sub 4194529 M := by exact ‹Sub _ M›.of rfl) :
    Keeps M s0 (unwrapFailed entry s) := by
  unfold unwrapFailed
  try dsimp only
  repeat' (with_reducible first | assumption | exact hM.of rfl | apply Keeps.refl | apply keeps_ite | apply enterReadOnly_keeps | apply raiseEvent_keeps | split | apply Keeps.upd_nv)

theorem unwrapInto_keeps {M : Nat} {s0 : State} (slot entry : Nat) (ok : Bool) {s : State} (hk : Keeps M s0 s) (hM : Sub 4325601 M := by exact ‹Sub _ M›.of rfl) :
    Keeps M s0 (unwrapInto slot entry ok s) := by
  unfold unwrapInto
  try dsimp only
  repeat' (with_reducible first | assumption | exact hM.of rfl | apply Keeps.refl | apply keeps_ite | apply fillSlot_keeps | apply unwrapFailed_keeps)

theorem needKey_keeps {M : Nat} {s0 : State} (entry : Nat) (ok : Bool) {s : State} (hk : Keeps M s0 s) (hM : Sub 4325601 M := by exact ‹Sub _ M›.of rfl) :
    Keeps M s0 (needKey entry ok s) := by
  unfold needKey
  try dsimp only
  repeat' (with_reducible first | assumption | exact hM.of rfl | apply Keeps.refl | apply keeps_ite | apply cntAdd_keeps | apply raiseEvent_keeps | apply unwrapInto_keeps | apply updKeys_keeps | split)

theorem execKeyUnwrap_keeps {M : Nat} {s0 : State} (nsid : Nat) (ok : Bool) {s : State} (hk : Keeps M s0 s) (hM : Sub 4325601 M := by exact ‹Sub _ M›.of rfl) :
    OutKeeps M s0 (execKeyUnwrap nsid ok s) := by
  unfold execKeyUnwrap
  try dsimp only
  repeat' (with_reducible first | assumption | exact hM.of rfl | apply Keeps.refl | apply outKeeps_ite | apply keeps_ite | apply OutKeeps.next | apply needKey_keeps | split)

theorem execKeySlotFreed_keeps {M : Nat} {s0 : State} (slot : Nat) (ok : Bool) {s : State} (hk : Keeps M s0 s) (hM : Sub 4325601 M := by exact ‹Sub _ M›.of rfl) :
    OutKeeps M s0 (execKeySlotFreed slot ok s) := by
  unfold execKeySlotFreed
  try dsimp only
  repeat' (with_reducible first | assumption | exact hM.of rfl | apply Keeps.refl | apply outKeeps_ite | apply keeps_ite | apply OutKeeps.next | apply unwrapInto_keeps | apply updKeys_keeps | split)

theorem scrambleNs_keeps {M : Nat} {s0 : State} (nsid : Nat) {s : State} (hk : Keeps M s0 s) (hM : Sub 260 M := by exact ‹Sub _ M›.of rfl) :
    Keeps M s0 (scrambleNs nsid s) := by
  unfold scrambleNs
  try dsimp only
  repeat' (with_reducible first | assumption | exact hM.of rfl | apply Keeps.refl | apply keeps_ite | split | apply Keeps.upd_ftl | apply Keeps.updF_ftl)

theorem cryptoErase_keeps {M : Nat} {s0 : State} (entries : List Nat) {s : State} (hk : Keeps M s0 s) (hM : Sub 131233 M := by exact ‹Sub _ M›.of rfl) :
    Keeps M s0 (cryptoErase entries s) := by
  unfold cryptoErase
  try dsimp only
  repeat' (with_reducible first | assumption | exact hM.of rfl | apply Keeps.refl | apply keeps_ite | apply fillSlot_keeps | apply forEach_keeps | apply raiseEvent_keeps | apply zeroizeSlot_keeps | apply forEach_keeps | split | apply Keeps.upd_nv_keys | intro _)

theorem slotResult_keeps {M : Nat} {s0 : State} (r : Nat) {s : State} (hk : Keeps M s0 s) (hM : Sub 1 M := by exact ‹Sub _ M›.of rfl) :
    Keeps M s0 (slotResult r s) := by
  unfold slotResult
  try dsimp only
  repeat' (with_reducible first | assumption | exact hM.of rfl | apply Keeps.refl | apply keeps_ite | apply fset_keeps)

theorem slotOp_keeps {M : Nat} {s0 : State} (slot entry op : Nat) (ok : Bool) {s : State} (hk : Keeps M s0 s) (hM : Sub 4325861 M := by exact ‹Sub _ M›.of rfl) :
    Keeps M s0 (slotOp slot entry op ok s) := by
  unfold slotOp
  try dsimp only
  repeat' (with_reducible first | assumption | exact hM.of rfl | apply Keeps.refl | apply keeps_ite | apply cryptoErase_keeps | apply fillSlot_keeps | apply scrambleNs_keeps | apply slotResult_keeps | apply unwrapFailed_keeps | apply zeroizeSlot_keeps | split)

theorem writeSlotOp_keeps {M : Nat} {s0 : State} (v req : Nat) (ok : Bool) {s : State} (hk : Keeps M s0 s) (hM : Sub 4325861 M := by exact ‹Sub _ M›.of rfl) :
    Keeps M s0 (writeSlotOp v req ok s) := by
  unfold writeSlotOp
  try dsimp only
  repeat' (with_reducible first | assumption | exact hM.of rfl | apply Keeps.refl | apply keeps_ite | apply busError_keeps | apply fset_keeps | apply slotOp_keeps | apply writeIgnored_keeps)

theorem execLoadKeySlot_keeps {M : Nat} {s0 : State} (slot entry req : Nat) (ok : Bool) {s : State} (hk : Keeps M s0 s) (hM : Sub 4325861 M := by exact ‹Sub _ M›.of rfl) :
    OutKeeps M s0 (execLoadKeySlot slot entry req ok s) := by
  unfold execLoadKeySlot
  try dsimp only
  repeat' (with_reducible first | assumption | exact hM.of rfl | apply Keeps.refl | apply outKeeps_ite | apply keeps_ite | apply OutKeeps.next | apply writeSlotOp_keeps)

theorem execZeroizeKeySlot_keeps {M : Nat} {s0 : State} (slot entry req : Nat) {s : State} (hk : Keeps M s0 s) (hM : Sub 4325861 M := by exact ‹Sub _ M›.of rfl) :
    OutKeeps M s0 (execZeroizeKeySlot slot entry req s) := by
  unfold execZeroizeKeySlot
  try dsimp only
  repeat' (with_reducible first | assumption | exact hM.of rfl | apply Keeps.refl | apply outKeeps_ite | apply keeps_ite | apply OutKeeps.next | apply writeSlotOp_keeps)

theorem execCryptoEraseEntry_keeps {M : Nat} {s0 : State} (entry req : Nat) {s : State} (hk : Keeps M s0 s) (hM : Sub 4325861 M := by exact ‹Sub _ M›.of rfl) :
    OutKeeps M s0 (execCryptoEraseEntry entry req s) := by
  unfold execCryptoEraseEntry
  try dsimp only
  repeat' (with_reducible first | assumption | exact hM.of rfl | apply Keeps.refl | apply outKeeps_ite | apply keeps_ite | apply OutKeeps.next | apply writeSlotOp_keeps)

theorem execKeyManagerAlarm_keeps {M : Nat} {s0 : State} (letters : List (Space × Nat)) {s : State} (hk : Keeps M s0 s) (hM : Sub 34803747 M := by exact ‹Sub _ M›.of rfl) :
    OutKeeps M s0 (execKeyManagerAlarm letters s) := by
  unfold execKeyManagerAlarm
  try dsimp only
  repeat' (with_reducible first | assumption | exact hM.of rfl | apply Keeps.refl | apply outKeeps_ite | apply keeps_ite | apply OutKeeps.next | apply clearCtx_keeps | apply fset_keeps | apply letterEnds_keeps | apply raiseEvent_keeps | apply updKeys_keeps | apply forEach_keeps | split | intro _)

theorem reloadSlots_keeps {M : Nat} {s0 : State} (ok : Bool) {s : State} (hk : Keeps M s0 s) (hM : Sub 4325601 M := by exact ‹Sub _ M›.of rfl) :
    Keeps M s0 (reloadSlots ok s) := by
  unfold reloadSlots
  try dsimp only
  repeat' (with_reducible first | assumption | exact hM.of rfl | apply Keeps.refl | apply keeps_ite | apply fillSlot_keeps | apply fset_keeps | apply raiseEvent_keeps | apply unwrapFailed_keeps | split | intro _)

theorem execSlotReloadDone_keeps {M : Nat} {s0 : State} (ok : Bool) {s : State} (hk : Keeps M s0 s) (hM : Sub 4325601 M := by exact ‹Sub _ M›.of rfl) :
    OutKeeps M s0 (execSlotReloadDone ok s) := by
  unfold execSlotReloadDone
  try dsimp only
  repeat' (with_reducible first | assumption | exact hM.of rfl | apply Keeps.refl | apply outKeeps_ite | apply keeps_ite | apply OutKeeps.next | apply reloadSlots_keeps)

end Sys2Proof.Machine
end

