-- ==== Sys2Proof/Laws/KeepTenBase.lean ====
section
/-! SUPPORT. Every operation of Machine/TenBase.lean leaves what `Keeps` says. -/

set_option Elab.async false

namespace Sys2Proof.Machine

theorem showLbx_keeps {M : Nat} {s0 : State} (f : Nat) {s : State} (hk : Keeps M s0 s) (hM : Sub 1 M := by exact ‹Sub _ M›.of rfl) :
    Keeps M s0 (showLbx f s) := by
  unfold showLbx
  try dsimp only
  repeat' (with_reducible first | assumption | exact hM.of rfl | apply Keeps.refl | apply keeps_ite | apply fset_keeps)

theorem putSlot_keeps {M : Nat} {s0 : State} (a : Nat) (bs : List Byte) {s : State} (hk : Keeps M s0 s) (hM : Sub 1 M := by exact ‹Sub _ M›.of rfl) :
    Keeps M s0 (putSlot a bs s) := by
  unfold putSlot
  try dsimp only
  repeat' (with_reducible first | assumption | exact hM.of rfl | apply Keeps.refl | apply keeps_ite | apply forN_keeps | apply wr_keeps | apply forN_keeps | split | intro _)

theorem postMsg_keeps {M : Nat} {s0 : State} (f : Nat) (m : Msg) {s : State} (hk : Keeps M s0 s) (hM : Sub 1153 M := by exact ‹Sub _ M›.of rfl) :
    Keeps M s0 (postMsg f m s) := by
  unfold postMsg
  try dsimp only
  repeat' (with_reducible first | assumption | exact hM.of rfl | apply Keeps.refl | apply keeps_ite | apply fset_keeps | apply irqPend_keeps | apply putSlot_keeps | split | apply Keeps.upd_ten | intro _)

theorem postNow_keeps {M : Nat} {s0 : State} (f : Nat) (m : Msg) {s : State} (hk : Keeps M s0 s) (hM : Sub 1153 M := by exact ‹Sub _ M›.of rfl) :
    Keeps M s0 (postNow f m s) := by
  unfold postNow
  try dsimp only
  repeat' (with_reducible first | assumption | exact hM.of rfl | apply Keeps.refl | apply keeps_ite | apply postMsg_keeps | split | apply Keeps.upd_ten)

theorem postHeldMsgs_keeps {M : Nat} {s0 : State} (f keep : Nat) (a0 : Nat) {s : State} (hk : Keeps M s0 s) (hM : Sub 1153 M := by exact ‹Sub _ M›.of rfl) :
    Keeps M s0 (postHeldMsgs f keep a0 s) := by
  induction a0 generalizing f keep s with
  | zero =>
    unfold postHeldMsgs
    exact hk
  | succ n ih =>
    unfold postHeldMsgs
    try dsimp only
    repeat' (with_reducible first | assumption | apply ih | exact hM.of rfl | apply Keeps.refl | apply keeps_ite | apply postNow_keeps | split | apply Keeps.upd_ten)

theorem sendMsg_keeps {M : Nat} {s0 : State} (f keep : Nat) (m : Msg) {s : State} (hk : Keeps M s0 s) (hM : Sub 1153 M := by exact ‹Sub _ M›.of rfl) :
    Keeps M s0 (sendMsg f keep m s) := by
  unfold sendMsg
  try dsimp only
  repeat' (with_reducible first | assumption | exact hM.of rfl | apply Keeps.refl | apply keeps_ite | apply postNow_keeps | apply showLbx_keeps | split | apply Keeps.upd_ten)

theorem sendChanged_keeps {M : Nat} {s0 : State} (f keep res old new cause : Nat) {s : State} (hk : Keeps M s0 s) (hM : Sub 1153 M := by exact ‹Sub _ M›.of rfl) :
    Keeps M s0 (sendChanged f keep res old new cause s) := by
  unfold sendChanged
  try dsimp only
  repeat' (with_reducible first | assumption | exact hM.of rfl | apply Keeps.refl | apply keeps_ite | apply sendMsg_keeps)

theorem lbxReset_keeps {M : Nat} {s0 : State} (f : Nat) {s : State} (hk : Keeps M s0 s) (hM : Sub 1025 M := by exact ‹Sub _ M›.of rfl) :
    Keeps M s0 (lbxReset f s) := by
  unfold lbxReset
  exact showLbx_keeps _ (hk.updRegs (fun g => SMap.sorted_filter _ g)).upd_ten

theorem setMask_keeps {M : Nat} {s0 : State} (f m : Nat) (excl : Bool) {s : State} (hk : Keeps M s0 s) (hM : Sub 265249 M := by exact ‹Sub _ M›.of rfl) :
    Keeps M s0 (setMask f m excl s) := by
  unfold setMask
  try dsimp only
  repeat' (with_reducible first | assumption | exact hM.of rfl | apply Keeps.refl | apply keeps_ite | apply settleSch_keeps | apply updSch_keeps | split | apply Keeps.upd_ten)

theorem maskRetire_keeps {M : Nat} {s0 : State} (n : Nat) {s : State} (hk : Keeps M s0 s) (hM : Sub 265377 M := by exact ‹Sub _ M›.of rfl) :
    Keeps M s0 (maskRetire n s) := by
  unfold maskRetire
  try dsimp only
  repeat' (with_reducible first | assumption | exact hM.of rfl | apply Keeps.refl | apply keeps_ite | apply forEach_keeps | apply sendChanged_keeps | apply setMask_keeps | apply forEach_keeps | split | intro _)

theorem lowerPart_keeps {M : Nat} {s0 : State} (priv : Bool) (f : Nat) (a0 : Nat) {s : State} (hk : Keeps M s0 s) (hM : Sub 1024 M := by exact ‹Sub _ M›.of rfl) :
    Keeps M s0 (lowerPart priv f a0 s) := by
  induction a0 generalizing priv f s with
  | zero =>
    unfold lowerPart
    exact hk
  | succ n ih =>
    unfold lowerPart
    try dsimp only
    repeat' (with_reducible first | assumption | apply ih | exact hM.of rfl | apply Keeps.refl | apply keeps_ite | split | apply Keeps.upd_ten)

theorem fitGranules_keeps {M : Nat} {s0 : State} {s : State} (hk : Keeps M s0 s) (hM : Sub 1153 M := by exact ‹Sub _ M›.of rfl) :
    Keeps M s0 (fitGranules s) := by
  unfold fitGranules
  try dsimp only
  repeat' (with_reducible first | assumption | exact hM.of rfl | apply Keeps.refl | apply keeps_ite | apply forEach_keeps | apply lowerPart_keeps | apply sendChanged_keeps | apply forEach_keeps | split | apply Keeps.upd_ten | intro _)

end Sys2Proof.Machine
end

