-- ==== Sys2Proof/Laws/KeepMatchOps.lean ====
section
/-! SUPPORT. Every operation of Machine/MatchOps.lean leaves what `Keeps` says. -/

set_option Elab.async false

namespace Sys2Proof.Machine

theorem setCamRow_keeps {M : Nat} {s0 : State} (b r : Nat) (v : CamRow) {s : State} (hk : Keeps M s0 s) (hM : Sub 8192 M := by exact ‹Sub _ M›.of rfl) :
    Keeps M s0 (setCamRow b r v s) := by
  unfold setCamRow
  try dsimp only
  repeat' (with_reducible first | assumption | exact hM.of rfl | apply Keeps.refl | apply keeps_ite | split | apply Keeps.upd_mat)

theorem showBank_keeps {M : Nat} {s0 : State} (b : Nat) {s : State} (hk : Keeps M s0 s) (hM : Sub 1 M := by exact ‹Sub _ M›.of rfl) :
    Keeps M s0 (showBank b s) := by
  unfold showBank
  try dsimp only
  repeat' (with_reducible first | assumption | exact hM.of rfl | apply Keeps.refl | apply keeps_ite | apply fset_keeps)

theorem tagOnValidate_keeps {M : Nat} {s0 : State} (b h : Nat) {s : State} (hk : Keeps M s0 s) (hM : Sub 8192 M := by exact ‹Sub _ M›.of rfl) :
    Keeps M s0 (tagOnValidate b h s) := by
  unfold tagOnValidate
  try dsimp only
  repeat' (with_reducible first | assumption | exact hM.of rfl | apply Keeps.refl | apply keeps_ite | split | apply Keeps.upd_mat | intro _)

theorem refreshTags_keeps {M : Nat} {s0 : State} (bank : Nat) {s : State} (hk : Keeps M s0 s) (hM : Sub 8192 M := by exact ‹Sub _ M›.of rfl) :
    Keeps M s0 (refreshTags bank s) := by
  unfold refreshTags
  try dsimp only
  repeat' (with_reducible first | assumption | exact hM.of rfl | apply Keeps.refl | apply keeps_ite | apply forN_keeps | split | apply Keeps.upd_mat | intro _)

theorem invalidateEntry_keeps {M : Nat} {s0 : State} (b h : Nat) {s : State} (hk : Keeps M s0 s) (hM : Sub 8193 M := by exact ‹Sub _ M›.of rfl) :
    Keeps M s0 (invalidateEntry b h s) := by
  unfold invalidateEntry
  try dsimp only
  repeat' (with_reducible first | assumption | exact hM.of rfl | apply Keeps.refl | apply keeps_ite | apply setCamRow_keeps | apply showBank_keeps | split | apply Keeps.upd_mat)

theorem showLost_keeps {M : Nat} {s0 : State} (n : Nat) {s : State} (hk : Keeps M s0 s) (hM : Sub 1 M := by exact ‹Sub _ M›.of rfl) :
    Keeps M s0 (showLost n s) := by
  unfold showLost
  try dsimp only
  repeat' (with_reducible first | assumption | exact hM.of rfl | apply Keeps.refl | apply keeps_ite | apply fset_keeps)

theorem retireBank_keeps {M : Nat} {s0 : State} (bank : Nat) {s : State} (hk : Keeps M s0 s) (hM : Sub 8225 M := by exact ‹Sub _ M›.of rfl) :
    Keeps M s0 (retireBank bank s) := by
  unfold retireBank
  try dsimp only
  repeat' (with_reducible first | assumption | exact hM.of rfl | apply Keeps.refl | apply keeps_ite | apply fset_keeps | apply raiseEvent_keeps | apply retireDomain_keeps | apply forEach_keeps | split | apply Keeps.upd_mat | intro _)

theorem clearFault_keeps {M : Nat} {s0 : State} (bank row : Nat) {s : State} (hk : Keeps M s0 s) (hM : Sub 8192 M := by exact ‹Sub _ M›.of rfl) :
    Keeps M s0 (clearFault bank row s) := by
  unfold clearFault
  try dsimp only
  repeat' (with_reducible first | assumption | exact hM.of rfl | apply Keeps.refl | apply keeps_ite | split | apply Keeps.upd_mat | intro _)

theorem loseEntry_keeps {M : Nat} {s0 : State} (bank row : Nat) {s : State} (hk : Keeps M s0 s) (hM : Sub 8225 M := by exact ‹Sub _ M›.of rfl) :
    Keeps M s0 (loseEntry bank row s) := by
  unfold loseEntry
  try dsimp only
  repeat' (with_reducible first | assumption | exact hM.of rfl | apply Keeps.refl | apply keeps_ite | apply clearFault_keeps | apply invalidateEntry_keeps | apply otherPostmark_keeps | apply raiseEvent_keeps | apply retireBank_keeps | apply showLost_keeps | split | apply Keeps.upd_mat | intro _)

theorem correctShadow_keeps {M : Nat} {s0 : State} (bank : Nat) {s : State} (hk : Keeps M s0 s) (hM : Sub 33 M := by exact ‹Sub _ M›.of rfl) :
    Keeps M s0 (correctShadow bank s) := by
  unfold correctShadow
  try dsimp only
  repeat' (with_reducible first | assumption | exact hM.of rfl | apply Keeps.refl | apply keeps_ite | apply cntAdd_keeps | apply raiseEvent_keeps | split | intro _)

theorem noteFix_keeps {M : Nat} {s0 : State} (bank row : Nat) (bit : Option Nat) {s : State} (hk : Keeps M s0 s) (hM : Sub 8192 M := by exact ‹Sub _ M›.of rfl) :
    Keeps M s0 (noteFix bank row bit s) := by
  unfold noteFix
  try dsimp only
  repeat' (with_reducible first | assumption | exact hM.of rfl | apply Keeps.refl | apply keeps_ite | split | apply Keeps.upd_mat | intro _)

theorem falseHit_keeps {M : Nat} {s0 : State} (b row : Nat) {s : State} (hk : Keeps M s0 s) (hM : Sub 8225 M := by exact ‹Sub _ M›.of rfl) :
    Keeps M s0 (falseHit b row s) := by
  unfold falseHit
  try dsimp only
  repeat' (with_reducible first | assumption | exact hM.of rfl | apply Keeps.refl | apply keeps_ite | apply clearFault_keeps | apply cntAdd_keeps | apply noteFix_keeps | apply otherPostmark_keeps | apply raiseEvent_keeps | split | apply Keeps.upd_mat | intro _)

theorem verifyHits_keeps {M : Nat} {s0 : State} (key : List Word) (l : List (Nat × Nat × Nat)) :
    ∀ (fh : Bool) {s : State}, Keeps M s0 s → (hM : Sub 8225 M := by exact ‹Sub _ M›.of rfl) → Keeps M s0 (verifyHits key l fh s).2.2 := by
  induction l with
  | nil => exact fun _ _ h _ => h
  | cons e t ih =>
    intro fh s h hM
    unfold verifyHits
    dsimp only
    split
    · exact ih _ (loseEntry_keeps _ _ h)
    · have h1 := correctShadow_keeps e.2.1 (clearFault_keeps e.2.1 e.2.2 h)
      split
      · exact h1
      · exact ih _ (falseHit_keeps _ _ h1)
    · split
      · exact h
      · exact ih _ (falseHit_keeps _ _ h)

theorem matchSearch_keeps {M : Nat} {s0 : State} (f n : Nat) (key : List Word) (start : Nat) {s : State} (hk : Keeps M s0 s) (hM : Sub 8225 M := by exact ‹Sub _ M›.of rfl) :
    Keeps M s0 (matchSearch f n key start s).2 := by
  unfold matchSearch
  dsimp only
  split
  · exact hk
  · split
    · exact hk
    · have h1 : ∀ l u, Keeps M s0 u → Keeps M s0 (verifyHits key l false u).2.2 := fun l u hu => verifyHits_keeps _ _ _ hu
      have h2 : ∀ l m, Keeps M s0 (forEach (fun b u => cntAdd (Reg.MAT_CNT_GROUPS b) 64 (enabledGroups (tblAt n s) b key s) (cntAdd (Reg.MAT_CNT_SEARCH b) 64 1 u)) l
          { s with mat := m }) :=
        fun _ _ => forEach_keeps (Keeps.upd_mat hk) (fun _ u => cntAdd_keeps _ _ _ (cntAdd_keeps _ _ _ (Keeps.refl u)))
      dsimp only
      split
      · exact cntAdd_keeps _ _ _ (h1 _ _ (h2 _ _))
      · exact h1 _ _ (h2 _ _)

theorem matchSearch_keeps_eq {M : Nat} {s0 : State} {f n : Nat} {key : List Word} {start : Nat} {s : State} {v0} {t' : State} (he : matchSearch f n key start s = (v0, t')) (hk : Keeps M s0 s) (hM : Sub 8225 M := by exact ‹Sub _ M›.of rfl) :
    Keeps M s0 t' := by
  have g : Keeps M s0 (matchSearch f n key start s).2 := by
    with_reducible apply matchSearch_keeps <;> assumption
  rw [he] at g
  exact g

theorem strike_keeps {M : Nat} {s0 : State} (n : Nat) (errs : List (Nat × RowFault)) {s : State} (hk : Keeps M s0 s) (hM : Sub 8192 M := by exact ‹Sub _ M›.of rfl) :
    Keeps M s0 (strike n errs s) := by
  unfold strike
  try dsimp only
  repeat' (with_reducible first | assumption | exact hM.of rfl | apply Keeps.refl | apply keeps_ite | apply forEach_keeps | split | apply Keeps.upd_mat | intro _)

theorem writeRows_keeps {M : Nat} {s0 : State} (b h : Nat) (value care : List Word) (w : Nat) {s : State} (hk : Keeps M s0 s) (hM : Sub 8192 M := by exact ‹Sub _ M›.of rfl) :
    Keeps M s0 (writeRows b h value care w s) := by
  unfold writeRows
  try dsimp only
  repeat' (with_reducible first | assumption | exact hM.of rfl | apply Keeps.refl | apply keeps_ite | apply setCamRow_keeps | apply forEach_keeps | split | apply Keeps.upd_mat | intro _)

theorem validateEntry_keeps {M : Nat} {s0 : State} (b h : Nat) {s : State} (hk : Keeps M s0 s) (hM : Sub 8193 M := by exact ‹Sub _ M›.of rfl) :
    Keeps M s0 (validateEntry b h s) := by
  unfold validateEntry
  try dsimp only
  repeat' (with_reducible first | assumption | exact hM.of rfl | apply Keeps.refl | apply keeps_ite | apply setCamRow_keeps | apply showBank_keeps | apply tagOnValidate_keeps)

theorem matchWrite_keeps {M : Nat} {s0 : State} (f n i : Nat) (value care : List Word) {s : State} (hk : Keeps M s0 s) (hM : Sub 8193 M := by exact ‹Sub _ M›.of rfl) :
    Keeps M s0 (matchWrite f n i value care s).2 := by
  unfold matchWrite
  try dsimp only
  repeat' (with_reducible first | assumption | exact hM.of rfl | apply Keeps.refl | apply keeps_ite | apply invalidateEntry_keeps | apply showLost_keeps | apply validateEntry_keeps | apply writeRows_keeps | apply forEach_keeps | split | apply Keeps.upd_mat | intro _)

theorem matchWrite_keeps_eq {M : Nat} {s0 : State} {f n i : Nat} {value care : List Word} {s : State} {v0} {t' : State} (he : matchWrite f n i value care s = (v0, t')) (hk : Keeps M s0 s) (hM : Sub 8193 M := by exact ‹Sub _ M›.of rfl) :
    Keeps M s0 t' := by
  have g : Keeps M s0 (matchWrite f n i value care s).2 := by
    with_reducible apply matchWrite_keeps <;> assumption
  rw [he] at g
  exact g

theorem matchDelete_keeps {M : Nat} {s0 : State} (f n i : Nat) {s : State} (hk : Keeps M s0 s) (hM : Sub 8193 M := by exact ‹Sub _ M›.of rfl) :
    Keeps M s0 (matchDelete f n i s).2 := by
  unfold matchDelete
  try dsimp only
  repeat' (with_reducible first | assumption | exact hM.of rfl | apply Keeps.refl | apply keeps_ite | apply invalidateEntry_keeps | apply forEach_keeps | split | apply Keeps.upd_mat | intro _)

theorem matchDelete_keeps_eq {M : Nat} {s0 : State} {f n i : Nat} {s : State} {v0} {t' : State} (he : matchDelete f n i s = (v0, t')) (hk : Keeps M s0 s) (hM : Sub 8193 M := by exact ‹Sub _ M›.of rfl) :
    Keeps M s0 t' := by
  have g : Keeps M s0 (matchDelete f n i s).2 := by
    with_reducible apply matchDelete_keeps <;> assumption
  rw [he] at g
  exact g

theorem matchRead_keeps {M : Nat} {s0 : State} (f n i : Nat) {s : State} (hk : Keeps M s0 s) (hM : Sub 0 M := by exact ‹Sub _ M›.of rfl) :
    Keeps M s0 (matchRead f n i s).2 := by
  unfold matchRead
  try dsimp only
  repeat' (with_reducible first | assumption | exact hM.of rfl | apply Keeps.refl | apply keeps_ite | split)

theorem matchRead_keeps_eq {M : Nat} {s0 : State} {f n i : Nat} {s : State} {v0} {t' : State} (he : matchRead f n i s = (v0, t')) (hk : Keeps M s0 s) (hM : Sub 0 M := by exact ‹Sub _ M›.of rfl) :
    Keeps M s0 t' := by
  have g : Keeps M s0 (matchRead f n i s).2 := by
    with_reducible apply matchRead_keeps <;> assumption
  rw [he] at g
  exact g

theorem keepRes_keeps {M : Nat} {s0 : State} {p : MatRes × State} (hk : Keeps M s0 p.2) (hM : Sub 8192 M := by exact ‹Sub _ M›.of rfl) :
    Keeps M s0 (keepRes p) := hk.upd_mat

theorem execMatchSearch_keeps {M : Nat} {s0 : State} (f table : Nat) (key : List Word) (errs : List (Nat × RowFault)) {s : State} (hk : Keeps M s0 s) (hM : Sub 8225 M := by exact ‹Sub _ M›.of rfl) :
    OutKeeps M s0 (execMatchSearch f table key errs s) := by
  unfold execMatchSearch
  try dsimp only
  repeat' (with_reducible first | assumption | exact hM.of rfl | apply Keeps.refl | apply outKeeps_ite | apply keeps_ite | apply OutKeeps.next | apply keepRes_keeps | refine matchSearch_keeps_eq (by assumption) ?_ | apply matchSearch_keeps | apply strike_keeps | split | intro _)

theorem execMatchSearchFrom_keeps {M : Nat} {s0 : State} (f table : Nat) (key : List Word) (start : Nat) (errs : List (Nat × RowFault)) {s : State} (hk : Keeps M s0 s) (hM : Sub 8225 M := by exact ‹Sub _ M›.of rfl) :
    OutKeeps M s0 (execMatchSearchFrom f table key start errs s) := by
  unfold execMatchSearchFrom
  try dsimp only
  repeat' (with_reducible first | assumption | exact hM.of rfl | apply Keeps.refl | apply outKeeps_ite | apply keeps_ite | apply OutKeeps.next | apply keepRes_keeps | refine matchSearch_keeps_eq (by assumption) ?_ | apply matchSearch_keeps | apply strike_keeps | split | intro _)

theorem execMatchWriteEntry_keeps {M : Nat} {s0 : State} (f table index : Nat) (value care : List Word) {s : State} (hk : Keeps M s0 s) (hM : Sub 8193 M := by exact ‹Sub _ M›.of rfl) :
    OutKeeps M s0 (execMatchWriteEntry f table index value care s) := by
  unfold execMatchWriteEntry
  try dsimp only
  repeat' (with_reducible first | assumption | exact hM.of rfl | apply Keeps.refl | apply outKeeps_ite | apply keeps_ite | apply OutKeeps.next | refine matchWrite_keeps_eq (by assumption) ?_ | apply matchWrite_keeps | apply keepRes_keeps)

theorem execMatchDeleteEntry_keeps {M : Nat} {s0 : State} (f table index : Nat) {s : State} (hk : Keeps M s0 s) (hM : Sub 8193 M := by exact ‹Sub _ M›.of rfl) :
    OutKeeps M s0 (execMatchDeleteEntry f table index s) := by
  unfold execMatchDeleteEntry
  try dsimp only
  repeat' (with_reducible first | assumption | exact hM.of rfl | apply Keeps.refl | apply outKeeps_ite | apply keeps_ite | apply OutKeeps.next | refine matchDelete_keeps_eq (by assumption) ?_ | apply matchDelete_keeps | apply keepRes_keeps)

theorem execMatchReadEntry_keeps {M : Nat} {s0 : State} (f table index : Nat) {s : State} (hk : Keeps M s0 s) (hM : Sub 8192 M := by exact ‹Sub _ M›.of rfl) :
    OutKeeps M s0 (execMatchReadEntry f table index s) := by
  unfold execMatchReadEntry
  try dsimp only
  repeat' (with_reducible first | assumption | exact hM.of rfl | apply Keeps.refl | apply outKeeps_ite | apply keeps_ite | apply OutKeeps.next | refine matchRead_keeps_eq (by assumption) ?_ | apply matchRead_keeps | apply keepRes_keeps)

theorem matchBlock_keeps {M : Nat} {s0 : State} (f : Nat) (bs : List Byte) {s : State} (hk : Keeps M s0 s) (hM : Sub 8225 M := by exact ‹Sub _ M›.of rfl) :
    Keeps M s0 (matchBlock f bs s).2.2 := by
  unfold matchBlock
  try dsimp only
  repeat' (with_reducible first | assumption | exact hM.of rfl | apply Keeps.refl | apply keeps_ite | refine matchDelete_keeps_eq (by assumption) ?_ | apply matchDelete_keeps | refine matchRead_keeps_eq (by assumption) ?_ | apply matchRead_keeps | refine matchSearch_keeps_eq (by assumption) ?_ | apply matchSearch_keeps | refine matchWrite_keeps_eq (by assumption) ?_ | apply matchWrite_keeps | split | intro _)

theorem matchBlock_keeps_eq {M : Nat} {s0 : State} {f : Nat} {bs : List Byte} {s : State} {v0} {v1} {t' : State} (he : matchBlock f bs s = (v0, v1, t')) (hk : Keeps M s0 s) (hM : Sub 8225 M := by exact ‹Sub _ M›.of rfl) :
    Keeps M s0 t' := by
  have g : Keeps M s0 (matchBlock f bs s).2.2 := by
    with_reducible apply matchBlock_keeps <;> assumption
  rw [he] at g
  exact g

theorem deleteTable_keeps {M : Nat} {s0 : State} (n : Nat) {s : State} (hk : Keeps M s0 s) (hM : Sub 8193 M := by exact ‹Sub _ M›.of rfl) :
    Keeps M s0 (deleteTable n s) := by
  unfold deleteTable
  try dsimp only
  repeat' (with_reducible first | assumption | exact hM.of rfl | apply Keeps.refl | apply keeps_ite | apply forEach_keeps | apply fset_keeps | apply showBank_keeps | apply showLost_keeps | apply forEach_keeps | split | apply Keeps.upd_mat | intro _)

theorem writeTblMap_keeps {M : Nat} {s0 : State} (n req : Nat) (v : Word) {s : State} (hk : Keeps M s0 s) (hM : Sub 8225 M := by exact ‹Sub _ M›.of rfl) :
    Keeps M s0 (writeTblMap n req v s) := by
  unfold writeTblMap
  try dsimp only
  repeat' (with_reducible first | assumption | exact hM.of rfl | apply Keeps.refl | apply keeps_ite | apply deleteTable_keeps | apply wr_keeps | apply writeIgnored_keeps)

theorem execTableMapWrite_keeps {M : Nat} {s0 : State} (table req : Nat) (v : Word) {s : State} (hk : Keeps M s0 s) (hM : Sub 8225 M := by exact ‹Sub _ M›.of rfl) :
    OutKeeps M s0 (execTableMapWrite table req v s) := by
  unfold execTableMapWrite
  try dsimp only
  repeat' (with_reducible first | assumption | exact hM.of rfl | apply Keeps.refl | apply outKeeps_ite | apply keeps_ite | apply OutKeeps.next | apply writeTblMap_keeps)

theorem execTableClearDone_keeps {M : Nat} {s0 : State} (bank : Nat) {s : State} (hk : Keeps M s0 s) (hM : Sub 8193 M := by exact ‹Sub _ M›.of rfl) :
    OutKeeps M s0 (execTableClearDone bank s) := by
  unfold execTableClearDone
  try dsimp only
  repeat' (with_reducible first | assumption | exact hM.of rfl | apply Keeps.refl | apply outKeeps_ite | apply keeps_ite | apply OutKeeps.next | apply showBank_keeps | split | apply Keeps.upd_mat)

theorem createTable_keeps {M : Nat} {s0 : State} (f kw reps entries : Nat) (shared : Bool) {s : State} (hk : Keeps M s0 s) (hM : Sub 1 M := by exact ‹Sub _ M›.of rfl) :
    Keeps M s0 (createTable f kw reps entries shared s).2 := by
  unfold createTable
  try dsimp only
  repeat' (with_reducible first | assumption | exact hM.of rfl | apply Keeps.refl | apply keeps_ite | apply forEach_keeps | apply fset_keeps | apply wr_keeps | apply forEach_keeps | split | intro _)

theorem createTable_keeps_eq {M : Nat} {s0 : State} {f kw reps entries : Nat} {shared : Bool} {s : State} {v0} {t' : State} (he : createTable f kw reps entries shared s = (v0, t')) (hk : Keeps M s0 s) (hM : Sub 1 M := by exact ‹Sub _ M›.of rfl) :
    Keeps M s0 t' := by
  have g : Keeps M s0 (createTable f kw reps entries shared s).2 := by
    with_reducible apply createTable_keeps <;> assumption
  rw [he] at g
  exact g

theorem deleteTablesOf_keeps {M : Nat} {s0 : State} (f : Nat) {s : State} (hk : Keeps M s0 s) (hM : Sub 8193 M := by exact ‹Sub _ M›.of rfl) :
    Keeps M s0 (deleteTablesOf f s) := by
  unfold deleteTablesOf
  try dsimp only
  repeat' (with_reducible first | assumption | exact hM.of rfl | apply Keeps.refl | apply keeps_ite | apply deleteTable_keeps | apply forEach_keeps | apply forEach_keeps | split | intro _)

theorem entryOp_keeps {M : Nat} {s0 : State} (bank row op req : Nat) {s : State} (hk : Keeps M s0 s) (hM : Sub 8225 M := by exact ‹Sub _ M›.of rfl) :
    Keeps M s0 (entryOp bank row op req s) := by
  unfold entryOp
  try dsimp only
  repeat' (with_reducible first | assumption | exact hM.of rfl | apply Keeps.refl | apply keeps_ite | apply fset_keeps | apply invalidateEntry_keeps | apply validateEntry_keeps | apply writeIgnored_keeps)

theorem execEntryInvalidate_keeps {M : Nat} {s0 : State} (bank row req : Nat) {s : State} (hk : Keeps M s0 s) (hM : Sub 8225 M := by exact ‹Sub _ M›.of rfl) :
    OutKeeps M s0 (execEntryInvalidate bank row req s) := by
  unfold execEntryInvalidate
  try dsimp only
  repeat' (with_reducible first | assumption | exact hM.of rfl | apply Keeps.refl | apply outKeeps_ite | apply keeps_ite | apply OutKeeps.next | apply busError_keeps | apply entryOp_keeps)

theorem execEntryValidate_keeps {M : Nat} {s0 : State} (bank row req : Nat) {s : State} (hk : Keeps M s0 s) (hM : Sub 8225 M := by exact ‹Sub _ M›.of rfl) :
    OutKeeps M s0 (execEntryValidate bank row req s) := by
  unfold execEntryValidate
  try dsimp only
  repeat' (with_reducible first | assumption | exact hM.of rfl | apply Keeps.refl | apply outKeeps_ite | apply keeps_ite | apply OutKeeps.next | apply busError_keeps | apply entryOp_keeps)

theorem execMatchWindowWrite_keeps {M : Nat} {s0 : State} (bank off req : Nat) (bs : List Byte) {s : State} (hk : Keeps M s0 s) (hM : Sub 8225 M := by exact ‹Sub _ M›.of rfl) :
    OutKeeps M s0 (execMatchWindowWrite bank off req bs s) := by
  unfold execMatchWindowWrite
  try dsimp only
  repeat' (with_reducible first | assumption | exact hM.of rfl | apply Keeps.refl | apply outKeeps_ite | apply keeps_ite | apply OutKeeps.next | apply busError_keeps | apply setCamRow_keeps | split | apply Keeps.upd_mat)

theorem scrubFix_keeps {M : Nat} {s0 : State} (bank row bit : Nat) {s : State} (hk : Keeps M s0 s) (hM : Sub 8225 M := by exact ‹Sub _ M›.of rfl) :
    Keeps M s0 (scrubFix bank row bit s) := by
  unfold scrubFix
  try dsimp only
  repeat' (with_reducible first | assumption | exact hM.of rfl | apply Keeps.refl | apply keeps_ite | apply clearFault_keeps | apply cntAdd_keeps | apply noteFix_keeps | apply raiseEvent_keeps | split | apply Keeps.upd_mat | intro _)

theorem execMatchScrub_keeps {M : Nat} {s0 : State} (bank : Nat) (fixed : List (Nat × Nat)) (dead : List Nat) (corrected : Nat) {s : State} (hk : Keeps M s0 s) (hM : Sub 8229 M := by exact ‹Sub _ M›.of rfl) :
    OutKeeps M s0 (execMatchScrub bank fixed dead corrected s) := by
  unfold execMatchScrub
  try dsimp only
  repeat' (with_reducible first | assumption | exact hM.of rfl | apply Keeps.refl | apply outKeeps_ite | apply keeps_ite | apply OutKeeps.next | apply clearFault_keeps | apply correctShadow_keeps | apply loseEntry_keeps | apply refreshTags_keeps | apply scrubFix_keeps | apply useFree_keeps | apply forN_keeps | apply forEach_keeps | split | intro _ | nofun)

theorem execRowRepair_keeps {M : Nat} {s0 : State} (bank row : Nat) (readBack : Bool) {s : State} (hk : Keeps M s0 s) (hM : Sub 8225 M := by exact ‹Sub _ M›.of rfl) :
    OutKeeps M s0 (execRowRepair bank row readBack s) := by
  unfold execRowRepair
  try dsimp only
  repeat' (with_reducible first | assumption | exact hM.of rfl | apply Keeps.refl | apply outKeeps_ite | apply keeps_ite | apply OutKeeps.next | apply fset_keeps | apply raiseEvent_keeps | apply retireBank_keeps | split | apply Keeps.upd_mat | intro _)

theorem execColumnRepair_keeps {M : Nat} {s0 : State} (bank bit : Nat) {s : State} (hk : Keeps M s0 s) (hM : Sub 8225 M := by exact ‹Sub _ M›.of rfl) :
    OutKeeps M s0 (execColumnRepair bank bit s) := by
  unfold execColumnRepair
  try dsimp only
  repeat' (with_reducible first | assumption | exact hM.of rfl | apply Keeps.refl | apply outKeeps_ite | apply keeps_ite | apply OutKeeps.next | apply fset_keeps | apply raiseEvent_keeps | apply retireBank_keeps | split | apply Keeps.upd_mat | intro _)

end Sys2Proof.Machine
end

