-- ==== Sys2Proof/Laws/KeepFilter.lean ====
section
/-! SUPPORT. Every operation of Machine/Filter.lean leaves what `Keeps` says. -/

set_option Elab.async false

namespace Sys2Proof.Machine

theorem filterStep_keeps {M : Nat} {s0 : State} (v : FView) (x : FIns) (f : FState) {s : State} (hk : Keeps M s0 s) (hM : Sub 8225 M := by exact ‹Sub _ M›.of rfl) :
    Keeps M s0 (filterStep v x f s).2 := by
  unfold filterStep
  try dsimp only
  repeat' (with_reducible first | assumption | exact hM.of rfl | apply Keeps.refl | apply keeps_ite | refine matchSearch_keeps_eq (by assumption) ?_ | apply matchSearch_keeps | split | intro _)

theorem filterStep_keeps_eq {M : Nat} {s0 : State} {v : FView} {x : FIns} {f : FState} {s : State} {v0} {t' : State} (he : filterStep v x f s = (v0, t')) (hk : Keeps M s0 s) (hM : Sub 8225 M := by exact ‹Sub _ M›.of rfl) :
    Keeps M s0 t' := by
  have g : Keeps M s0 (filterStep v x f s).2 := by
    with_reducible apply filterStep_keeps <;> assumption
  rw [he] at g
  exact g

theorem runFilter_keeps {M : Nat} {s0 : State} (v : FView) (a0 : List FIns) (a1 : FState) {s : State} (hk : Keeps M s0 s) (hM : Sub 8225 M := by exact ‹Sub _ M›.of rfl) :
    Keeps M s0 (runFilter v a0 a1 s).2 := by
  induction a0 generalizing v a1 s with
  | nil =>
    unfold runFilter
    exact hk
  | cons x l ih =>
    unfold runFilter
    try dsimp only
    repeat' (with_reducible first | assumption | apply ih | exact hM.of rfl | apply Keeps.refl | apply keeps_ite | refine filterStep_keeps_eq (by assumption) ?_ | apply filterStep_keeps)

theorem runFilter_keeps_eq {M : Nat} {s0 : State} {v : FView} {a0 : List FIns} {a1 : FState} {s : State} {v0} {t' : State} (he : runFilter v a0 a1 s = (v0, t')) (hk : Keeps M s0 s) (hM : Sub 8225 M := by exact ‹Sub _ M›.of rfl) :
    Keeps M s0 t' := by
  have g : Keeps M s0 (runFilter v a0 a1 s).2 := by
    with_reducible apply runFilter_keeps <;> assumption
  rw [he] at g
  exact g

end Sys2Proof.Machine
end

