-- ==== Sys2Proof/Laws/KeepFtlOps.lean ====
section
/-! SUPPORT. Every operation of Machine/FtlOps.lean leaves what `Keeps` says. -/

set_option Elab.async false

namespace Sys2Proof.Machine

theorem updBlk_keeps {M : Nat} {s0 : State} (c b : Nat) (f : Blk → Blk) {s : State} (hk : Keeps M s0 s) (hM : Sub 256 M := by exact ‹Sub _ M›.of rfl) :
    Keeps M s0 (updBlk c b f s) := by
  unfold updBlk
  try dsimp only
  repeat' (with_reducible first | assumption | exact hM.of rfl | apply Keeps.refl | apply keeps_ite | split | apply Keeps.upd_ftl | intro _)

theorem updBlkOf_keeps {M : Nat} {s0 : State} (i c : Nat) (f : Blk → Blk) {s : State} (hk : Keeps M s0 s) (hM : Sub 256 M := by exact ‹Sub _ M›.of rfl) :
    Keeps M s0 (updBlkOf i c f s) := by
  unfold updBlkOf
  try dsimp only
  repeat' (with_reducible first | assumption | exact hM.of rfl | apply Keeps.refl | apply keeps_ite | apply updBlk_keeps | split | intro _)

theorem takeBlk_keeps {M : Nat} {s0 : State} (static : Bool) (c b : Nat) {s : State} (hk : Keeps M s0 s) (hM : Sub 256 M := by exact ‹Sub _ M›.of rfl) :
    Keeps M s0 (takeBlk static c b s) := by
  unfold takeBlk
  try dsimp only
  repeat' (with_reducible first | assumption | exact hM.of rfl | apply Keeps.refl | apply keeps_ite | apply updBlk_keeps | split | apply Keeps.upd_ftl | intro _)

theorem takeUnits_keeps {M : Nat} {s0 : State} (n i c : Nat) {s : State} (hk : Keeps M s0 s) (hM : Sub 256 M := by exact ‹Sub _ M›.of rfl) :
    Keeps M s0 (takeUnits n i c s) := by
  unfold takeUnits
  try dsimp only
  repeat' (with_reducible first | assumption | exact hM.of rfl | apply Keeps.refl | apply keeps_ite | apply setSb_keeps | apply updBlkOf_keeps | split | intro _)

theorem pushErase_keeps {M : Nat} {s0 : State} (i c : Nat) {s : State} (hk : Keeps M s0 s) (hM : Sub 769 M := by exact ‹Sub _ M›.of rfl) :
    Keeps M s0 (pushErase i c s) := by
  unfold pushErase
  try dsimp only
  repeat' (with_reducible first | assumption | exact hM.of rfl | apply Keeps.refl | apply keeps_ite | apply pushOp_keeps | apply updBlk_keeps | split | intro _)

theorem openSb_keeps {M : Nat} {s0 : State} (use : SbUse) (slc static sd : Bool) {s : State} (hk : Keeps M s0 s) (hM : Sub 769 M := by exact ‹Sub _ M›.of rfl) :
    Keeps M s0 (openSb use slc static sd s) := by
  unfold openSb
  try dsimp only
  repeat' (with_reducible first | assumption | exact hM.of rfl | apply Keeps.refl | apply keeps_ite | apply pushErase_keeps | apply setSb_keeps | apply takeBlk_keeps | apply forEach_keeps | split | apply Keeps.upd_ftl | intro _)

theorem openPart_keeps {M : Nat} {s0 : State} (sd static : Bool) (want : Option Nat) {s : State} (hk : Keeps M s0 s) (hM : Sub 769 M := by exact ‹Sub _ M›.of rfl) :
    Keeps M s0 (openPart sd static want s) := by
  unfold openPart
  try dsimp only
  repeat' (with_reducible first | assumption | exact hM.of rfl | apply Keeps.refl | apply keeps_ite | apply openSb_keeps | apply setSb_keeps | refine openSb_keeps (by assumption) ?_ | split | apply Keeps.upd_ftl | intro _)

theorem openLanding_keeps {M : Nat} {s0 : State} (sd : Bool) (want : Option Nat) {s : State} (hk : Keeps M s0 s) (hM : Sub 769 M := by exact ‹Sub _ M›.of rfl) :
    Keeps M s0 (openLanding sd want s) := by
  unfold openLanding
  try dsimp only
  repeat' (with_reducible first | assumption | exact hM.of rfl | apply Keeps.refl | apply keeps_ite | apply openPart_keeps | split | intro _)

theorem noteSd_keeps {M : Nat} {s0 : State} (nsid i : Nat) {s : State} (hk : Keeps M s0 s) (hM : Sub 256 M := by exact ‹Sub _ M›.of rfl) :
    Keeps M s0 (noteSd nsid i s) := by
  unfold noteSd
  try dsimp only
  repeat' (with_reducible first | assumption | exact hM.of rfl | apply Keeps.refl | apply keeps_ite | split | apply Keeps.upd_ftl)

theorem queueDiscard_keeps {M : Nat} {s0 : State} (nsid : Nat) {s : State} (hk : Keeps M s0 s) (hM : Sub 256 M := by exact ‹Sub _ M›.of rfl) :
    Keeps M s0 (queueDiscard nsid s) := by
  unfold queueDiscard
  try dsimp only
  repeat' (with_reducible first | assumption | exact hM.of rfl | apply Keeps.refl | apply keeps_ite | apply forEach_keeps | split | apply Keeps.upd_ftl | intro _)

theorem journal_keeps {M : Nat} {s0 : State} (n : Nat) {s : State} (hk : Keeps M s0 s) (hM : Sub 256 M := by exact ‹Sub _ M›.of rfl) :
    Keeps M s0 (journal n s) := by
  unfold journal
  try dsimp only
  repeat' (with_reducible first | assumption | exact hM.of rfl | apply Keeps.refl | apply keeps_ite | split | apply Keeps.upd_ftl)

theorem mapWriter_keeps {M : Nat} {s0 : State} {s : State} (hk : Keeps M s0 s) (hM : Sub 513 M := by exact ‹Sub _ M›.of rfl) :
    Keeps M s0 (mapWriter s) := by
  unfold mapWriter
  try dsimp only
  repeat' (with_reducible first | assumption | exact hM.of rfl | apply Keeps.refl | apply keeps_ite | apply pushOp_keeps | split | intro _)

theorem mapChanged_keeps {M : Nat} {s0 : State} (p : Nat) {s : State} (hk : Keeps M s0 s) (hM : Sub 769 M := by exact ‹Sub _ M›.of rfl) :
    Keeps M s0 (mapChanged p s) := by
  unfold mapChanged
  try dsimp only
  repeat' (with_reducible first | assumption | exact hM.of rfl | apply Keeps.refl | apply keeps_ite | apply cachePage_keeps | apply dirtyPage_keeps | apply mapWriter_keeps | split | intro _)

theorem engineWork_keeps {M : Nat} {s0 : State} (e i o : Nat) {s : State} (hk : Keeps M s0 s) (hM : Sub 1 M := by exact ‹Sub _ M›.of rfl) :
    Keeps M s0 (engineWork e i o s) := by
  unfold engineWork
  try dsimp only
  repeat' (with_reducible first | assumption | exact hM.of rfl | apply Keeps.refl | apply keeps_ite | apply cntAdd_keeps | split | intro _)

theorem tryEngine_keeps {M : Nat} {s0 : State} (e : Nat) {s : State} (hk : Keeps M s0 s) (hM : Sub 37 M := by exact ‹Sub _ M›.of rfl) :
    Keeps M s0 (tryEngine e s).2 := by
  unfold tryEngine
  try dsimp only
  repeat' (with_reducible first | assumption | exact hM.of rfl | apply Keeps.refl | apply keeps_ite | apply cntAdd_keeps | apply engineWork_keeps | apply raiseEvent_keeps | apply useFree_keeps | split | intro _)

theorem storeUnit_keeps {M : Nat} {s0 : State} (n : Ns) {s : State} (hk : Keeps M s0 s) (hM : Sub 37 M := by exact ‹Sub _ M›.of rfl) :
    Keeps M s0 (storeUnit n s).2 := by
  unfold storeUnit
  try dsimp only
  repeat' (with_reducible first | assumption | exact hM.of rfl | apply Keeps.refl | apply tryEngine_keeps | apply useFree_keeps | split)

theorem expandUnit_keeps {M : Nat} {s0 : State} (key : Nat) {s : State} (hk : Keeps M s0 s) (hM : Sub 5 M := by exact ‹Sub _ M›.of rfl) :
    Keeps M s0 (expandUnit key s) := by
  unfold expandUnit
  try dsimp only
  repeat' (with_reducible first | assumption | exact hM.of rfl | apply Keeps.refl | apply keeps_ite | apply cntAdd_keeps | apply engineWork_keeps | apply useFree_keeps | split | intro _)

theorem noteRead_keeps {M : Nat} {s0 : State} (sb chan : Nat) (needRefresh : Bool) {s : State} (hk : Keeps M s0 s) (hM : Sub 256 M := by exact ‹Sub _ M›.of rfl) :
    Keeps M s0 (noteRead sb chan needRefresh s) := by
  unfold noteRead
  try dsimp only
  repeat' (with_reducible first | assumption | exact hM.of rfl | apply Keeps.refl | apply keeps_ite | apply updBlkOf_keeps | split | intro _)

theorem readLost_keeps {M : Nat} {s0 : State} (chan : Nat) {s : State} (hk : Keeps M s0 s) (hM : Sub 545 M := by exact ‹Sub _ M›.of rfl) :
    Keeps M s0 (readLost chan s) := by
  unfold readLost
  try dsimp only
  repeat' (with_reducible first | assumption | exact hM.of rfl | apply Keeps.refl | apply keeps_ite | apply raiseEvent_keeps | apply setChan_keeps | split | intro _)

theorem readHere_keeps {M : Nat} {s0 : State} (key : Nat) (ok : Bool) {s : State} (hk : Keeps M s0 s) (hM : Sub 805 M := by exact ‹Sub _ M›.of rfl) :
    Keeps M s0 (readHere key ok s) := by
  unfold readHere
  try dsimp only
  repeat' (with_reducible first | assumption | exact hM.of rfl | apply Keeps.refl | apply keeps_ite | apply cntAdd_keeps | apply expandUnit_keeps | apply noteRead_keeps | apply readLost_keeps | split | intro _)

theorem landUnit_keeps {M : Nat} {s0 : State} (p : Place) (nsid iu : Nat) (n : Ns) (d : IuData) {s : State} (hk : Keeps M s0 s) (hM : Sub 264961 M := by exact ‹Sub _ M›.of rfl) :
    Keeps M s0 (landUnit p nsid iu n d s) := by
  unfold landUnit
  try dsimp only
  repeat' (with_reducible first | assumption | exact hM.of rfl | apply Keeps.refl | apply keeps_ite | apply invalidateWindows_keeps | apply journal_keeps | apply mapChanged_keeps | apply noteSd_keeps | split | apply Keeps.upd_ftl | intro _)

theorem deallocUnit_keeps {M : Nat} {s0 : State} (nsid iu : Nat) {s : State} (hk : Keeps M s0 s) (hM : Sub 264961 M := by exact ‹Sub _ M›.of rfl) :
    Keeps M s0 (deallocUnit nsid iu s) := by
  unfold deallocUnit
  try dsimp only
  repeat' (with_reducible first | assumption | exact hM.of rfl | apply Keeps.refl | apply keeps_ite | apply invalidateWindows_keeps | apply mapChanged_keeps | split | apply Keeps.upd_ftl | intro _)

theorem placeUnit_keeps {M : Nat} {s0 : State} (tag : Nat) (n : Ns) (want : Option Nat) (iu : Nat) {s : State} (hk : Keeps M s0 s) (hM : Sub 933 M := by exact ‹Sub _ M›.of rfl) :
    Keeps M s0 (placeUnit tag n want iu s) := by
  unfold placeUnit
  try dsimp only
  repeat' (with_reducible first | assumption | exact hM.of rfl | apply Keeps.refl | apply keeps_ite | apply openLanding_keeps | apply setCmd_keeps | apply storeUnit_keeps | apply takeUnits_keeps | split | intro _)

theorem pushLanding_keeps {M : Nat} {s0 : State} (tag : Nat) (nsid : Nat) (iu : Nat) (p : Place) {s : State} (hk : Keeps M s0 s) (hM : Sub 513 M := by exact ‹Sub _ M›.of rfl) :
    Keeps M s0 (pushLanding tag nsid iu p s) := by
  unfold pushLanding
  try dsimp only
  repeat' (with_reducible first | assumption | exact hM.of rfl | apply Keeps.refl | apply keeps_ite | apply pushOp_keeps | split | intro _)

theorem startLanding_keeps {M : Nat} {s0 : State} (x : Cmd) (n : Ns) {s : State} (hk : Keeps M s0 s) (hM : Sub 933 M := by exact ‹Sub _ M›.of rfl) :
    Keeps M s0 (startLanding x n s) := by
  unfold startLanding
  try dsimp only
  repeat' (with_reducible first | assumption | exact hM.of rfl | apply Keeps.refl | apply keeps_ite | apply openLanding_keeps | apply placeUnit_keeps | apply pushLanding_keeps | apply setCmd_keeps | apply forEach_keeps | split | intro _)

theorem beginLanding_keeps {M : Nat} {s0 : State} (x : Cmd) (n : Ns) {s : State} (hk : Keeps M s0 s) (hM : Sub 933 M := by exact ‹Sub _ M›.of rfl) :
    Keeps M s0 (beginLanding x n s) := by
  unfold beginLanding
  try dsimp only
  repeat' (with_reducible first | assumption | exact hM.of rfl | apply Keeps.refl | apply keeps_ite | apply pushOp_keeps | apply setCmd_keeps | apply startLanding_keeps | apply forEach_keeps | split | intro _)

theorem landAgain_keeps {M : Nat} {s0 : State} (tag : Nat) (ius : List Nat) {s : State} (hk : Keeps M s0 s) (hM : Sub 933 M := by exact ‹Sub _ M›.of rfl) :
    Keeps M s0 (landAgain tag ius s) := by
  unfold landAgain
  try dsimp only
  repeat' (with_reducible first | assumption | exact hM.of rfl | apply Keeps.refl | apply keeps_ite | apply endOps_keeps | apply placeUnit_keeps | apply pushLanding_keeps | apply setCmd_keeps | apply forEach_keeps | split | intro _)

theorem recomputeFill_keeps {M : Nat} {s0 : State} {s : State} (hk : Keeps M s0 s) (hM : Sub 256 M := by exact ‹Sub _ M›.of rfl) :
    Keeps M s0 (recomputeFill s) := by
  unfold recomputeFill
  try dsimp only
  repeat' (with_reducible first | assumption | exact hM.of rfl | apply Keeps.refl | apply keeps_ite | split | apply Keeps.upd_ftl | intro _)

theorem applyWrite_keeps {M : Nat} {s0 : State} (x : Cmd) {s : State} (hk : Keeps M s0 s) (hM : Sub 264961 M := by exact ‹Sub _ M›.of rfl) :
    Keeps M s0 (applyWrite x s) := by
  unfold applyWrite
  try dsimp only
  repeat' (with_reducible first | assumption | exact hM.of rfl | apply Keeps.refl | apply keeps_ite | apply deallocUnit_keeps | apply journal_keeps | apply landUnit_keeps | apply queueDiscard_keeps | apply recomputeFill_keeps | apply forEach_keeps | split | apply Keeps.upd_ftl | intro _)

theorem applyOne_keeps {M : Nat} {s0 : State} {s : State} (hk : Keeps M s0 s) (hM : Sub 4459429 M := by exact ‹Sub _ M›.of rfl) :
    Keeps M s0 (applyOne s) := by
  unfold applyOne
  try dsimp only
  repeat' (with_reducible first | assumption | exact hM.of rfl | apply Keeps.refl | apply keeps_ite | apply applyWrite_keeps | apply complete_keeps | apply completeOk_keeps | split)

theorem applyLanded_keeps {M : Nat} {s0 : State} (a0 : Nat) {s : State} (hk : Keeps M s0 s) (hM : Sub 4459429 M := by exact ‹Sub _ M›.of rfl) :
    Keeps M s0 (applyLanded a0 s) := by
  induction a0 generalizing s with
  | zero =>
    unfold applyLanded
    exact hk
  | succ n ih =>
    unfold applyLanded
    try dsimp only
    repeat' (with_reducible first | assumption | apply ih | exact hM.of rfl | apply Keeps.refl | apply keeps_ite | apply applyOne_keeps | apply wakeReads_keeps)

theorem applyAll_keeps {M : Nat} {s0 : State} {s : State} (hk : Keeps M s0 s) (hM : Sub 4459429 M := by exact ‹Sub _ M›.of rfl) :
    Keeps M s0 (applyAll s) := by
  unfold applyAll
  try dsimp only
  repeat' (with_reducible first | assumption | exact hM.of rfl | apply Keeps.refl | apply keeps_ite | apply applyLanded_keeps)

theorem endWrite_keeps {M : Nat} {s0 : State} (tag sct sc : Nat) (dnr : Bool) {s : State} (hk : Keeps M s0 s) (hM : Sub 4459429 M := by exact ‹Sub _ M›.of rfl) :
    Keeps M s0 (endWrite tag sct sc dnr s) := by
  unfold endWrite
  try dsimp only
  repeat' (with_reducible first | assumption | exact hM.of rfl | apply Keeps.refl | apply keeps_ite | apply applyAll_keeps | apply complete_keeps)

theorem mergeRead_keeps {M : Nat} {s0 : State} (tag iu : Nat) (ok : Bool) {s : State} (hk : Keeps M s0 s) (hM : Sub 4459429 M := by exact ‹Sub _ M›.of rfl) :
    Keeps M s0 (mergeRead tag iu ok s) := by
  unfold mergeRead
  try dsimp only
  repeat' (with_reducible first | assumption | exact hM.of rfl | apply Keeps.refl | apply keeps_ite | apply endWrite_keeps | apply setCmd_keeps | apply startLanding_keeps | split)

theorem releaseLanding_keeps {M : Nat} {s0 : State} {s : State} (hk : Keeps M s0 s) (hM : Sub 933 M := by exact ‹Sub _ M›.of rfl) :
    Keeps M s0 (releaseLanding s) := by
  unfold releaseLanding
  try dsimp only
  repeat' (with_reducible first | assumption | exact hM.of rfl | apply Keeps.refl | apply keeps_ite | apply startLanding_keeps | apply forEach_keeps | split | intro _)

theorem wearFlag_keeps {M : Nat} {s0 : State} (b : Nat) {s : State} (hk : Keeps M s0 s) (hM : Sub 4194785 M := by exact ‹Sub _ M›.of rfl) :
    Keeps M s0 (wearFlag b s) := by
  unfold wearFlag
  try dsimp only
  repeat' (with_reducible first | assumption | exact hM.of rfl | apply Keeps.refl | apply keeps_ite | apply enterReadOnly_keeps | apply postmark_keeps | apply smartEvent_keeps | split | apply Keeps.upd_ftl | intro _)

theorem checkWear_keeps {M : Nat} {s0 : State} {s : State} (hk : Keeps M s0 s) (hM : Sub 4194785 M := by exact ‹Sub _ M›.of rfl) :
    Keeps M s0 (checkWear s) := by
  unfold checkWear
  try dsimp only
  repeat' (with_reducible first | assumption | exact hM.of rfl | apply Keeps.refl | apply keeps_ite | apply forEach_keeps | apply wearFlag_keeps | apply forEach_keeps | split | intro _)

theorem retireBlock_keeps {M : Nat} {s0 : State} (chan die : Nat) (byErase : Bool) {s : State} (hk : Keeps M s0 s) (hM : Sub 4194785 M := by exact ‹Sub _ M›.of rfl) :
    Keeps M s0 (retireBlock chan die byErase s) := by
  unfold retireBlock
  try dsimp only
  repeat' (with_reducible first | assumption | exact hM.of rfl | apply Keeps.refl | apply keeps_ite | apply checkWear_keeps | apply smartEvent_keeps | split | apply Keeps.upd_ftl | intro _)

theorem retireBlkOf_keeps {M : Nat} {s0 : State} (i c : Nat) (byErase : Bool) {s : State} (hk : Keeps M s0 s) (hM : Sub 4194785 M := by exact ‹Sub _ M›.of rfl) :
    Keeps M s0 (retireBlkOf i c byErase s) := by
  unfold retireBlkOf
  try dsimp only
  repeat' (with_reducible first | assumption | exact hM.of rfl | apply Keeps.refl | apply keeps_ite | apply retireBlock_keeps | apply setSb_keeps | apply updBlk_keeps | split | intro _)

theorem markUncorrectable_keeps {M : Nat} {s0 : State} (key : Nat) {s : State} (hk : Keeps M s0 s) (hM : Sub 801 M := by exact ‹Sub _ M›.of rfl) :
    Keeps M s0 (markUncorrectable key s) := by
  unfold markUncorrectable
  try dsimp only
  repeat' (with_reducible first | assumption | exact hM.of rfl | apply Keeps.refl | apply keeps_ite | apply journal_keeps | apply mapChanged_keeps | apply otherPostmark_keeps | split | apply Keeps.upd_ftl | intro _)

theorem remapUnit_keeps {M : Nat} {s0 : State} (target chan key : Nat) {s : State} (hk : Keeps M s0 s) (hM : Sub 769 M := by exact ‹Sub _ M›.of rfl) :
    Keeps M s0 (remapUnit target chan key s) := by
  unfold remapUnit
  try dsimp only
  repeat' (with_reducible first | assumption | exact hM.of rfl | apply Keeps.refl | apply keeps_ite | apply journal_keeps | apply mapChanged_keeps | apply noteSd_keeps | split | apply Keeps.upd_ftl | intro _)

theorem dropSb_keeps {M : Nat} {s0 : State} (i : Nat) {s : State} (hk : Keeps M s0 s) (hM : Sub 256 M := by exact ‹Sub _ M›.of rfl) :
    Keeps M s0 (dropSb i s) := by
  unfold dropSb
  try dsimp only
  repeat' (with_reducible first | assumption | exact hM.of rfl | apply Keeps.refl | apply keeps_ite | split | apply Keeps.upd_ftl | intro _)

theorem queueErase_keeps {M : Nat} {s0 : State} (i : Nat) {s : State} (hk : Keeps M s0 s) (hM : Sub 769 M := by exact ‹Sub _ M›.of rfl) :
    Keeps M s0 (queueErase i s) := by
  unfold queueErase
  try dsimp only
  repeat' (with_reducible first | assumption | exact hM.of rfl | apply Keeps.refl | apply keeps_ite | apply dropSb_keeps | apply pushErase_keeps | apply setSb_keeps | apply forEach_keeps | split | intro _)

theorem reclaim_keeps {M : Nat} {s0 : State} {s : State} (hk : Keeps M s0 s) (hM : Sub 769 M := by exact ‹Sub _ M›.of rfl) :
    Keeps M s0 (reclaim s) := by
  unfold reclaim
  try dsimp only
  repeat' (with_reducible first | assumption | exact hM.of rfl | apply Keeps.refl | apply keeps_ite | apply queueErase_keeps | apply forEach_keeps | split | intro _)

theorem openTarget_keeps {M : Nat} {s0 : State} (use : SbUse) (sd : Bool) (want : Option Nat) {s : State} (hk : Keeps M s0 s) (hM : Sub 769 M := by exact ‹Sub _ M›.of rfl) :
    Keeps M s0 (openTarget use sd want s) := by
  unfold openTarget
  try dsimp only
  repeat' (with_reducible first | assumption | exact hM.of rfl | apply Keeps.refl | apply keeps_ite | apply openSb_keeps | apply setSb_keeps | refine openSb_keeps (by assumption) ?_ | split | intro _)

theorem takeSlots_keeps {M : Nat} {s0 : State} (t : Nat) (l : List Nat) :
    ∀ {s : State}, Keeps M s0 s → (hM : Sub 256 M := by exact ‹Sub _ M›.of rfl) → Keeps M s0 (takeSlots t l s).2 := by
  induction l with
  | nil => exact fun h _ => h
  | cons k ks ih =>
    intro s h hM
    unfold takeSlots
    split
    · exact h
    · exact ih (takeUnits_keeps _ _ _ h)

theorem beginCopy_keeps {M : Nat} {s0 : State} (t source : Nat) (slots : List (Nat × Nat)) {s : State} (hk : Keeps M s0 s) (hM : Sub 769 M := by exact ‹Sub _ M›.of rfl) :
    Keeps M s0 (beginCopy t source slots s) := by
  unfold beginCopy
  try dsimp only
  repeat' (with_reducible first | assumption | exact hM.of rfl | apply Keeps.refl | apply keeps_ite | apply pushOp_keeps | apply forEach_keeps | split | apply Keeps.upd_ftl | intro _)

theorem copyUnits_keeps {M : Nat} {s0 : State} (source : Nat) (ius : List Nat) {s : State} (hk : Keeps M s0 s) (hM : Sub 769 M := by exact ‹Sub _ M›.of rfl) :
    Keeps M s0 (copyUnits source ius s) := by
  unfold copyUnits
  try dsimp only
  repeat' (with_reducible first | assumption | exact hM.of rfl | apply Keeps.refl | apply keeps_ite | apply beginCopy_keeps | apply openTarget_keeps | apply takeSlots_keeps | split | intro _)

theorem startCopyOf_keeps {M : Nat} {s0 : State} (source : Nat) (ius : List Nat) {s : State} (hk : Keeps M s0 s) (hM : Sub 769 M := by exact ‹Sub _ M›.of rfl) :
    Keeps M s0 (startCopyOf source ius s) := by
  unfold startCopyOf
  try dsimp only
  repeat' (with_reducible first | assumption | exact hM.of rfl | apply Keeps.refl | apply keeps_ite | apply copyUnits_keeps | split | apply Keeps.upd_ftl | intro _)

theorem vacate_keeps {M : Nat} {s0 : State} (i : Nat) {s : State} (hk : Keeps M s0 s) (hM : Sub 769 M := by exact ‹Sub _ M›.of rfl) :
    Keeps M s0 (vacate i s) := by
  unfold vacate
  try dsimp only
  repeat' (with_reducible first | assumption | exact hM.of rfl | apply Keeps.refl | apply keeps_ite | apply queueErase_keeps | apply startCopyOf_keeps | split | intro _)

theorem beginFold_keeps {M : Nat} {s0 : State} (c t source : Nat) (slots : List (Nat × Nat)) (read : Bool) {s : State} (hk : Keeps M s0 s) (hM : Sub 769 M := by exact ‹Sub _ M›.of rfl) :
    Keeps M s0 (beginFold c t source slots read s) := by
  unfold beginFold
  try dsimp only
  repeat' (with_reducible first | assumption | exact hM.of rfl | apply Keeps.refl | apply keeps_ite | apply pushOp_keeps | apply takeUnits_keeps | apply forEach_keeps | split | apply Keeps.upd_ftl | intro _)

theorem foldUnits_keeps {M : Nat} {s0 : State} (c source : Nat) (ius : List Nat) (read : Bool) {s : State} (hk : Keeps M s0 s) (hM : Sub 769 M := by exact ‹Sub _ M›.of rfl) :
    Keeps M s0 (foldUnits c source ius read s) := by
  unfold foldUnits
  try dsimp only
  repeat' (with_reducible first | assumption | exact hM.of rfl | apply Keeps.refl | apply keeps_ite | apply beginFold_keeps | apply openTarget_keeps | split | intro _)

theorem releaseBlocks_keeps {M : Nat} {s0 : State} (i : Nat) {s : State} (hk : Keeps M s0 s) (hM : Sub 4195297 M := by exact ‹Sub _ M›.of rfl) :
    Keeps M s0 (releaseBlocks i s) := by
  unfold releaseBlocks
  try dsimp only
  repeat' (with_reducible first | assumption | exact hM.of rfl | apply Keeps.refl | apply keeps_ite | apply pushErase_keeps | apply retireBlkOf_keeps | apply setSb_keeps | apply forEach_keeps | split | intro _)

theorem countQlc_keeps {M : Nat} {s0 : State} (slots : List (Nat × Nat)) {s : State} (hk : Keeps M s0 s) (hM : Sub 257 M := by exact ‹Sub _ M›.of rfl) :
    Keeps M s0 (countQlc slots s) := by
  unfold countQlc
  try dsimp only
  repeat' (with_reducible first | assumption | exact hM.of rfl | apply Keeps.refl | apply keeps_ite | apply cntAdd_keeps | apply forEach_keeps | split | apply Keeps.upd_ftl | intro _)

theorem finishMove_keeps {M : Nat} {s0 : State} (m : Move) (bad : List Nat) {s : State} (hk : Keeps M s0 s) (hM : Sub 4195297 M := by exact ‹Sub _ M›.of rfl) :
    Keeps M s0 (finishMove m bad s) := by
  unfold finishMove
  try dsimp only
  repeat' (with_reducible first | assumption | exact hM.of rfl | apply Keeps.refl | apply keeps_ite | apply countQlc_keeps | apply markUncorrectable_keeps | apply queueErase_keeps | apply releaseBlocks_keeps | apply remapUnit_keeps | apply forEach_keeps | split | intro _)

theorem programFailed_keeps {M : Nat} {s0 : State} (sb chan : Nat) {s : State} (hk : Keeps M s0 s) (hM : Sub 289 M := by exact ‹Sub _ M›.of rfl) :
    Keeps M s0 (programFailed sb chan s) := by
  unfold programFailed
  try dsimp only
  repeat' (with_reducible first | assumption | exact hM.of rfl | apply Keeps.refl | apply keeps_ite | apply raiseEvent_keeps | apply setSb_keeps | split | intro _)

theorem copyAgain_keeps {M : Nat} {s0 : State} (m : Move) (c : Nat) {s : State} (hk : Keeps M s0 s) (hM : Sub 769 M := by exact ‹Sub _ M›.of rfl) :
    Keeps M s0 (copyAgain m c s) := by
  unfold copyAgain
  try dsimp only
  repeat' (with_reducible first | assumption | exact hM.of rfl | apply Keeps.refl | apply keeps_ite | apply copyUnits_keeps | split | apply Keeps.upd_ftl | intro _)

theorem dropFold_keeps {M : Nat} {s0 : State} (m : Move) {s : State} (hk : Keeps M s0 s) (hM : Sub 769 M := by exact ‹Sub _ M›.of rfl) :
    Keeps M s0 (dropFold m s) := by
  unfold dropFold
  try dsimp only
  repeat' (with_reducible first | assumption | exact hM.of rfl | apply Keeps.refl | apply keeps_ite | apply endOps_keeps | split | apply Keeps.upd_ftl | intro _)

theorem dropCopy_keeps {M : Nat} {s0 : State} (m : Move) {s : State} (hk : Keeps M s0 s) (hM : Sub 769 M := by exact ‹Sub _ M›.of rfl) :
    Keeps M s0 (dropCopy m s) := by
  unfold dropCopy
  try dsimp only
  repeat' (with_reducible first | assumption | exact hM.of rfl | apply Keeps.refl | apply keeps_ite | apply endOps_keeps | split | apply Keeps.upd_ftl | intro _)

theorem programAgain_keeps {M : Nat} {s0 : State} (n : Nat) (o : ChanOp) {s : State} (hk : Keeps M s0 s) (hM : Sub 933 M := by exact ‹Sub _ M›.of rfl) :
    Keeps M s0 (programAgain n o s) := by
  unfold programAgain
  try dsimp only
  repeat' (with_reducible first | assumption | exact hM.of rfl | apply Keeps.refl | apply keeps_ite | apply copyAgain_keeps | apply dropFold_keeps | apply foldUnits_keeps | apply landAgain_keeps | apply pushOp_keeps | split | intro _)

theorem interruptedProgram_keeps {M : Nat} {s0 : State} (n : Nat) (o : ChanOp) {s : State} (hk : Keeps M s0 s) (hM : Sub 256 M := by exact ‹Sub _ M›.of rfl) :
    Keeps M s0 (interruptedProgram n o s) := by
  unfold interruptedProgram
  try dsimp only
  repeat' (with_reducible first | assumption | exact hM.of rfl | apply Keeps.refl | apply keeps_ite | apply setSb_keeps | split | intro _)

theorem prepared_keeps {M : Nat} {s0 : State} (i : Nat) {s : State} (hk : Keeps M s0 s) (hM : Sub 256 M := by exact ‹Sub _ M›.of rfl) :
    Keeps M s0 (prepared i s) := by
  unfold prepared
  try dsimp only
  repeat' (with_reducible first | assumption | exact hM.of rfl | apply Keeps.refl | apply keeps_ite | apply setSb_keeps | split | intro _)

theorem eraseSucceeded_keeps {M : Nat} {s0 : State} (i c : Nat) {s : State} (hk : Keeps M s0 s) (hM : Sub 4459493 M := by exact ‹Sub _ M›.of rfl) :
    Keeps M s0 (eraseSucceeded i c s) := by
  unfold eraseSucceeded
  try dsimp only
  repeat' (with_reducible first | assumption | exact hM.of rfl | apply Keeps.refl | apply keeps_ite | apply applyAll_keeps | apply checkWear_keeps | apply journal_keeps | apply prepared_keeps | apply releaseLanding_keeps | apply updBlkOf_keeps | split | apply Keeps.upd_ftl | intro _)

theorem eraseFailed_keeps {M : Nat} {s0 : State} (i c : Nat) {s : State} (hk : Keeps M s0 s) (hM : Sub 4459493 M := by exact ‹Sub _ M›.of rfl) :
    Keeps M s0 (eraseFailed i c s) := by
  unfold eraseFailed
  try dsimp only
  repeat' (with_reducible first | assumption | exact hM.of rfl | apply Keeps.refl | apply keeps_ite | apply applyAll_keeps | apply dropSb_keeps | apply prepared_keeps | apply pushErase_keeps | apply raiseEvent_keeps | apply releaseLanding_keeps | apply retireBlkOf_keeps | apply setSb_keeps | apply takeBlk_keeps | split | intro _)

theorem resetMap_keeps {M : Nat} {s0 : State} {s : State} (hk : Keeps M s0 s) (hM : Sub 256 M := by exact ‹Sub _ M›.of rfl) :
    Keeps M s0 (resetMap s) := by
  unfold resetMap
  try dsimp only
  repeat' (with_reducible first | assumption | exact hM.of rfl | apply Keeps.refl | apply keeps_ite | split | apply Keeps.upd_ftl)

theorem deallocNs_keeps {M : Nat} {s0 : State} (nsid : Nat) {s : State} (hk : Keeps M s0 s) (hM : Sub 769 M := by exact ‹Sub _ M›.of rfl) :
    Keeps M s0 (deallocNs nsid s) := by
  unfold deallocNs
  try dsimp only
  repeat' (with_reducible first | assumption | exact hM.of rfl | apply Keeps.refl | apply keeps_ite | apply journal_keeps | apply mapChanged_keeps | apply recomputeFill_keeps | apply forEach_keeps | split | apply Keeps.upd_ftl | intro _)

theorem slcPages_keeps {M : Nat} {s0 : State} (pages : List Nat) {s : State} (hk : Keeps M s0 s) (hM : Sub 257 M := by exact ‹Sub _ M›.of rfl) :
    Keeps M s0 (slcPages pages s) := by
  unfold slcPages
  try dsimp only
  repeat' (with_reducible first | assumption | exact hM.of rfl | apply Keeps.refl | apply keeps_ite | apply cntAdd_keeps | apply forEach_keeps | split | apply Keeps.upd_ftl | intro _)

theorem journalFlush_keeps {M : Nat} {s0 : State} {s : State} (hk : Keeps M s0 s) (hM : Sub 769 M := by exact ‹Sub _ M›.of rfl) :
    Keeps M s0 (journalFlush s) := by
  unfold journalFlush
  try dsimp only
  repeat' (with_reducible first | assumption | exact hM.of rfl | apply Keeps.refl | apply keeps_ite | apply pushOp_keeps | apply forEach_keeps | split | apply Keeps.upd_ftl | intro _)

theorem freeRecorded_keeps {M : Nat} {s0 : State} {s : State} (hk : Keeps M s0 s) (hM : Sub 256 M := by exact ‹Sub _ M›.of rfl) :
    Keeps M s0 (freeRecorded s) := by
  unfold freeRecorded
  try dsimp only
  repeat' (with_reducible first | assumption | exact hM.of rfl | apply Keeps.refl | apply keeps_ite | apply dropSb_keeps | apply setSb_keeps | apply updBlk_keeps | apply forEach_keeps | split | intro _)

theorem ftlJournalOnFlash_keeps {M : Nat} {s0 : State} {s : State} (hk : Keeps M s0 s) (hM : Sub 4459429 M := by exact ‹Sub _ M›.of rfl) :
    Keeps M s0 (ftlJournalOnFlash s) := by
  unfold ftlJournalOnFlash
  try dsimp only
  repeat' (with_reducible first | assumption | exact hM.of rfl | apply Keeps.refl | apply keeps_ite | apply applyAll_keeps | apply endOps_keeps | apply freeRecorded_keeps | apply releaseLanding_keeps | split | apply Keeps.upd_ftl | intro _)

theorem checkpoint_keeps {M : Nat} {s0 : State} {s : State} (hk : Keeps M s0 s) (hM : Sub 769 M := by exact ‹Sub _ M›.of rfl) :
    Keeps M s0 (checkpoint s) := by
  unfold checkpoint
  try dsimp only
  repeat' (with_reducible first | assumption | exact hM.of rfl | apply Keeps.refl | apply keeps_ite | apply dropOps_keeps | apply slcPages_keeps | split | apply Keeps.upd_ftl | intro _)

theorem ftlFlushAndCheckpoint_keeps {M : Nat} {s0 : State} {s : State} (hk : Keeps M s0 s) (hM : Sub 4459429 M := by exact ‹Sub _ M›.of rfl) :
    Keeps M s0 (ftlFlushAndCheckpoint s) := by
  unfold ftlFlushAndCheckpoint
  try dsimp only
  repeat' (with_reducible first | assumption | exact hM.of rfl | apply Keeps.refl | apply keeps_ite | apply checkpoint_keeps | apply ftlJournalOnFlash_keeps | apply journalFlush_keeps)

theorem ftlSealMeta_keeps {M : Nat} {s0 : State} {s : State} (hk : Keeps M s0 s) (hM : Sub 4459429 M := by exact ‹Sub _ M›.of rfl) :
    Keeps M s0 (ftlSealMeta s) := by
  unfold ftlSealMeta
  try dsimp only
  repeat' (with_reducible first | assumption | exact hM.of rfl | apply Keeps.refl | apply keeps_ite | apply ftlJournalOnFlash_keeps | apply journalFlush_keeps)

theorem ftlDirectoryLoaded_keeps {M : Nat} {s0 : State} {s : State} (hk : Keeps M s0 s) (hM : Sub 256 M := by exact ‹Sub _ M›.of rfl) :
    Keeps M s0 (ftlDirectoryLoaded s) := by
  unfold ftlDirectoryLoaded
  try dsimp only
  repeat' (with_reducible first | assumption | exact hM.of rfl | apply Keeps.refl | apply keeps_ite | split | apply Keeps.upd_ftl)

theorem ftlReplayed_keeps {M : Nat} {s0 : State} {s : State} (hk : Keeps M s0 s) (hM : Sub 256 M := by exact ‹Sub _ M›.of rfl) :
    Keeps M s0 (ftlReplayed s) := by
  unfold ftlReplayed
  try dsimp only
  repeat' (with_reducible first | assumption | exact hM.of rfl | apply Keeps.refl | apply keeps_ite | split | apply Keeps.upd_ftl)

theorem ftlScanned_keeps {M : Nat} {s0 : State} {s : State} (hk : Keeps M s0 s) (hM : Sub 801 M := by exact ‹Sub _ M›.of rfl) :
    Keeps M s0 (ftlScanned s) := by
  unfold ftlScanned
  try dsimp only
  repeat' (with_reducible first | assumption | exact hM.of rfl | apply Keeps.refl | apply keeps_ite | apply raiseEvent_keeps | apply setChan_keeps | apply forEach_keeps | split | apply Keeps.upd_ftl | intro _)

theorem bgQueue_keeps {M : Nat} {s0 : State} {s : State} (hk : Keeps M s0 s) (hM : Sub 769 M := by exact ‹Sub _ M›.of rfl) :
    Keeps M s0 (bgQueue s) := by
  unfold bgQueue
  try dsimp only
  repeat' (with_reducible first | assumption | exact hM.of rfl | apply Keeps.refl | apply keeps_ite | apply pushOp_keeps | split | apply Keeps.upd_ftl | intro _)

theorem ftlResume_keeps {M : Nat} {s0 : State} {s : State} (hk : Keeps M s0 s) (hM : Sub 769 M := by exact ‹Sub _ M›.of rfl) :
    Keeps M s0 (ftlResume s) := by
  unfold ftlResume
  try dsimp only
  repeat' (with_reducible first | assumption | exact hM.of rfl | apply Keeps.refl | apply keeps_ite | apply bgQueue_keeps | apply pushErase_keeps | apply reclaim_keeps | apply forEach_keeps | split | intro _)

end Sys2Proof.Machine
end

