-- ==== Sys2Proof/Laws/KeepMgtBase.lean ====
section
/-! SUPPORT. Every operation of Machine/MgtBase.lean leaves what `Keeps` says. -/

set_option Elab.async false

namespace Sys2Proof.Machine

theorem setMgt_keeps {M : Nat} {s0 : State} (f : Mgt → Mgt) {s : State} (hk : Keeps M s0 s) (hM : Sub 4194304 M := by exact ‹Sub _ M›.of rfl) :
    Keeps M s0 (setMgt f s) := by
  unfold setMgt
  try dsimp only
  repeat' (with_reducible first | assumption | exact hM.of rfl | apply Keeps.refl | apply keeps_ite | split | apply Keeps.upd_mgt)

theorem showCap_keeps {M : Nat} {s0 : State} {s : State} (hk : Keeps M s0 s) (hM : Sub 1 M := by exact ‹Sub _ M›.of rfl) :
    Keeps M s0 (showCap s) := by
  unfold showCap
  try dsimp only
  repeat' (with_reducible first | assumption | exact hM.of rfl | apply Keeps.refl | apply keeps_ite | apply fset_keeps)

theorem applyPowerState_keeps {M : Nat} {s0 : State} {s : State} (hk : Keeps M s0 s) (hM : Sub 33 M := by exact ‹Sub _ M›.of rfl) :
    Keeps M s0 (applyPowerState s) := by
  unfold applyPowerState
  try dsimp only
  repeat' (with_reducible first | assumption | exact hM.of rfl | apply Keeps.refl | apply keeps_ite | apply enterMode_keeps | apply showCap_keeps)

theorem dropAutonomous_keeps {M : Nat} {s0 : State} {s : State} (hk : Keeps M s0 s) (hM : Sub 128 M := by exact ‹Sub _ M›.of rfl) :
    Keeps M s0 (dropAutonomous s) := by
  unfold dropAutonomous
  try dsimp only
  repeat' (with_reducible first | assumption | exact hM.of rfl | apply Keeps.refl | apply keeps_ite | split | apply Keeps.upd_nv)

theorem judgeIdle_keeps {M : Nat} {s0 : State} {s : State} (hk : Keeps M s0 s) (hM : Sub 225 M := by exact ‹Sub _ M›.of rfl) :
    Keeps M s0 (judgeIdle s) := by
  unfold judgeIdle
  try dsimp only
  repeat' (with_reducible first | assumption | exact hM.of rfl | apply Keeps.refl | apply keeps_ite | apply applyPowerState_keeps | apply dropAutonomous_keeps | split | apply Keeps.upd_pow | intro _)

theorem judgeTemp_keeps {M : Nat} {s0 : State} {s : State} (hk : Keeps M s0 s) (hM : Sub 4194465 M := by exact ‹Sub _ M›.of rfl) :
    Keeps M s0 (judgeTemp s) := by
  unfold judgeTemp
  try dsimp only
  repeat' (with_reducible first | assumption | exact hM.of rfl | apply Keeps.refl | apply keeps_ite | apply raiseAen_keeps | apply setMgt_keeps)

theorem sensorReads_keeps {M : Nat} {s0 : State} (i t16 : Nat) {s : State} (hk : Keeps M s0 s) (hM : Sub 4194465 M := by exact ‹Sub _ M›.of rfl) :
    Keeps M s0 (sensorReads i t16 s) := by
  unfold sensorReads
  try dsimp only
  repeat' (with_reducible first | assumption | exact hM.of rfl | apply Keeps.refl | apply keeps_ite | apply fset_keeps | apply judgeTemp_keeps | apply setMgt_keeps | split | intro _)

theorem setFw_keeps {M : Nat} {s0 : State} (c : Nat) (f : Fw → Fw) {s : State} (hk : Keeps M s0 s) (hM : Sub 4194304 M := by exact ‹Sub _ M›.of rfl) :
    Keeps M s0 (setFw c f s) := by
  unfold setFw
  try dsimp only
  repeat' (with_reducible first | assumption | exact hM.of rfl | apply Keeps.refl | apply keeps_ite | apply setMgt_keeps)

theorem setUpd_keeps {M : Nat} {s0 : State} (st comp src : Nat) {s : State} (hk : Keeps M s0 s) (hM : Sub 1 M := by exact ‹Sub _ M›.of rfl) :
    Keeps M s0 (setUpd st comp src s) := by
  unfold setUpd
  try dsimp only
  repeat' (with_reducible first | assumption | exact hM.of rfl | apply Keeps.refl | apply keeps_ite | apply fset_keeps)

theorem updEnd_keeps {M : Nat} {s0 : State} (result : Nat) {s : State} (hk : Keeps M s0 s) (hM : Sub 4194465 M := by exact ‹Sub _ M›.of rfl) :
    Keeps M s0 (updEnd result s) := by
  unfold updEnd
  try dsimp only
  repeat' (with_reducible first | assumption | exact hM.of rfl | apply Keeps.refl | apply keeps_ite | apply complete_keeps | apply completeOk_keeps | apply setMgt_keeps | apply setUpd_keeps | split)

theorem updNext_made_keeps {M : Nat} {s0 : State} (c : Nat) (t : List Nat) {s : State} (hk : Keeps M s0 s) (hM : Sub 4194337 M := by exact ‹Sub _ M›.of rfl) : Keeps M s0 (updNext.made c t s) := by
  unfold updNext.made
  exact setMgt_keeps _ (setFw_keeps _ _ (postmark_keeps _ _ _ hk))

theorem updNext_keeps {M : Nat} {s0 : State} (a0 : Nat) {s : State} (hk : Keeps M s0 s) (hM : Sub 4194465 M := by exact ‹Sub _ M›.of rfl) :
    Keeps M s0 (updNext a0 s) := by
  induction a0 generalizing s with
  | zero =>
    unfold updNext
    exact hk
  | succ n ih =>
    unfold updNext
    try dsimp only
    repeat' (with_reducible first | assumption | apply ih | exact hM.of rfl | apply Keeps.refl | apply keeps_ite | apply setMgt_keeps | apply setUpd_keeps | apply updEnd_keeps | apply updNext_made_keeps | split)

theorem unitActivated_keeps {M : Nat} {s0 : State} (c unit : Nat) (ok : Bool) {s : State} (hk : Keeps M s0 s) (hM : Sub 4194465 M := by exact ‹Sub _ M›.of rfl) :
    Keeps M s0 (unitActivated c unit ok s) := by
  unfold unitActivated
  try dsimp only
  repeat' (with_reducible first | assumption | exact hM.of rfl | apply Keeps.refl | apply keeps_ite | apply postmark_keeps | apply setFw_keeps | apply setMgt_keeps | apply updEnd_keeps | apply updNext_keeps | apply updNext_made_keeps)

theorem updPreempt_keeps {M : Nat} {s0 : State} {s : State} (hk : Keeps M s0 s) (hM : Sub 4194465 M := by exact ‹Sub _ M›.of rfl) :
    Keeps M s0 (updPreempt s) := by
  unfold updPreempt
  try dsimp only
  repeat' (with_reducible first | assumption | exact hM.of rfl | apply Keeps.refl | apply keeps_ite | apply postmark_keeps | apply setFw_keeps | apply updEnd_keeps | split)

theorem wrP_keeps {M : Nat} {s0 : State} (a : Nat) (v : Word) {s : State} (hk : Keeps M s0 s) (hM : Sub 4194305 M := by exact ‹Sub _ M›.of rfl) :
    Keeps M s0 (wrP a v s) := by
  unfold wrP
  try dsimp only
  repeat' (with_reducible first | assumption | exact hM.of rfl | apply Keeps.refl | apply keeps_ite | apply setMgt_keeps | apply wr_keeps)

theorem dropUnsaved_keeps {M : Nat} {s0 : State} {s : State} (hk : Keeps M s0 s) (hM : Sub 4194305 M := by exact ‹Sub _ M›.of rfl) :
    Keeps M s0 (dropUnsaved s) := by
  unfold dropUnsaved
  try dsimp only
  repeat' (with_reducible first | assumption | exact hM.of rfl | apply Keeps.refl | apply keeps_ite | apply forEach_keeps | apply setMgt_keeps | apply wr_keeps | apply forEach_keeps | split | intro _)

theorem setMgmtCap_keeps {M : Nat} {s0 : State} (w : Nat) {s : State} (hk : Keeps M s0 s) (hM : Sub 4194337 M := by exact ‹Sub _ M›.of rfl) :
    Keeps M s0 (setMgmtCap w s) := by
  unfold setMgmtCap
  try dsimp only
  repeat' (with_reducible first | assumption | exact hM.of rfl | apply Keeps.refl | apply keeps_ite | apply applyPowerState_keeps | apply wrP_keeps)

end Sys2Proof.Machine
end

