-- ==== Sys2Proof/Laws/KeepMediaOps.lean ====
section
/-! SUPPORT. Every operation of Machine/MediaOps.lean leaves what `Keeps` says. -/

set_option Elab.async false

namespace Sys2Proof.Machine

theorem readEnd_keeps {M : Nat} {s0 : State} (o : ChanOp) (ok : Bool) {s : State} (hk : Keeps M s0 s) (hM : Sub 4492197 M := by exact ‹Sub _ M›.of rfl) :
    Keeps M s0 (readEnd o ok s) := by
  unfold readEnd
  try dsimp only
  repeat' (with_reducible first | assumption | exact hM.of rfl | apply Keeps.refl | apply keeps_ite | apply markUncorrectable_keeps | apply mergeRead_keeps | apply readUnitDone_keeps | apply scanArrived_keeps | apply windowArrived_keeps | split | intro _)

theorem readFor_keeps {M : Nat} {s0 : State} (o : ChanOp) (ok : Bool) {s : State} (hk : Keeps M s0 s) (hM : Sub 4492197 M := by exact ‹Sub _ M›.of rfl) :
    Keeps M s0 (readFor o ok s) := by
  unfold readFor
  try dsimp only
  repeat' (with_reducible first | assumption | exact hM.of rfl | apply Keeps.refl | apply keeps_ite | apply expandUnit_keeps | apply readEnd_keeps | split | intro _)

theorem lightFail_keeps {M : Nat} {s0 : State} (chan : Nat) {s : State} (hk : Keeps M s0 s) (hM : Sub 33 M := by exact ‹Sub _ M›.of rfl) :
    Keeps M s0 (lightFail chan s) := by
  unfold lightFail
  try dsimp only
  repeat' (with_reducible first | assumption | exact hM.of rfl | apply Keeps.refl | apply cntAdd_keeps | apply raiseEvent_keeps)

theorem engineFail_keeps {M : Nat} {s0 : State} (e : Nat) {s : State} (hk : Keeps M s0 s) (hM : Sub 33 M := by exact ‹Sub _ M›.of rfl) :
    Keeps M s0 (engineFail e s) := by
  unfold engineFail
  try dsimp only
  repeat' (with_reducible first | assumption | exact hM.of rfl | apply Keeps.refl | apply cntAdd_keeps | apply raiseEvent_keeps)

theorem countStep_keeps {M : Nat} {s0 : State} (n step : Nat) {s : State} (hk : Keeps M s0 s) (hM : Sub 513 M := by exact ‹Sub _ M›.of rfl) :
    Keeps M s0 (countStep n step s) := by
  unfold countStep
  try dsimp only
  repeat' (with_reducible first | assumption | exact hM.of rfl | apply Keeps.refl | apply keeps_ite | apply cntAdd_keeps | apply setChan_keeps | split | intro _)

theorem contribFails_keeps {M : Nat} {s0 : State} (o : ChanOp) {s : State} (hk : Keeps M s0 s) (hM : Sub 513 M := by exact ‹Sub _ M›.of rfl) :
    Keeps M s0 (contribFails o s) := by
  unfold contribFails
  try dsimp only
  repeat' (with_reducible first | assumption | exact hM.of rfl | apply Keeps.refl | apply keeps_ite | apply setChan_keeps | split | intro _)

theorem preReadLost_keeps {M : Nat} {s0 : State} (chan : Nat) (o : ChanOp) {s : State} (hk : Keeps M s0 s) (hM : Sub 262657 M := by exact ‹Sub _ M›.of rfl) :
    Keeps M s0 (preReadLost chan o s) := by
  unfold preReadLost
  try dsimp only
  repeat' (with_reducible first | assumption | exact hM.of rfl | apply Keeps.refl | apply keeps_ite | apply prdEnded_keeps | apply pushOp_keeps | apply showSch_keeps | apply updSch_keeps | split | intro _)

theorem execPageReadDone_keeps {M : Nat} {s0 : State} (chan die : Nat) (dec : Decode) {s : State} (hk : Keeps M s0 s) (hM : Sub 4492197 M := by exact ‹Sub _ M›.of rfl) :
    OutKeeps M s0 (execPageReadDone chan die dec s) := by
  unfold execPageReadDone
  try dsimp only
  repeat' (with_reducible first | assumption | exact hM.of rfl | apply Keeps.refl | apply outKeeps_ite | apply keeps_ite | apply OutKeeps.next | apply cntAdd_keeps | apply contribFails_keeps | apply countStep_keeps | apply engineFail_keeps | apply lightFail_keeps | apply noteRead_keeps | apply readEnd_keeps | apply readFor_keeps | apply setChan_keeps | apply startRebuild_keeps | apply updBlkOf_keeps | split | intro _)

theorem execRebuildComplete_keeps {M : Nat} {s0 : State} (chan key : Nat) (ok : Bool) {s : State} (hk : Keeps M s0 s) (hM : Sub 4492197 M := by exact ‹Sub _ M›.of rfl) :
    OutKeeps M s0 (execRebuildComplete chan key ok s) := by
  unfold execRebuildComplete
  try dsimp only
  repeat' (with_reducible first | assumption | exact hM.of rfl | apply Keeps.refl | apply outKeeps_ite | apply keeps_ite | apply OutKeeps.next | apply countStep_keeps | apply endOps_keeps | apply engineFail_keeps | apply raiseEvent_keeps | apply readFor_keeps | apply readLost_keeps | apply setChan_keeps | apply useFree_keeps | split | intro _)

theorem issueOp_keeps {M : Nat} {s0 : State} (n : Nat) (o : ChanOp) {s : State} (hk : Keeps M s0 s) (hM : Sub 262657 M := by exact ‹Sub _ M›.of rfl) :
    Keeps M s0 (issueOp n o s) := by
  unfold issueOp
  try dsimp only
  repeat' (with_reducible first | assumption | exact hM.of rfl | apply Keeps.refl | apply keeps_ite | apply setChan_keeps | apply windowAtDie_keeps | split | intro _)

theorem execGovernorAdmit_keeps {M : Nat} {s0 : State} (chan : Nat) (bus foldLate : Bool) {s : State} (hk : Keeps M s0 s) (hM : Sub 262657 M := by exact ‹Sub _ M›.of rfl) :
    OutKeeps M s0 (execGovernorAdmit chan bus foldLate s) := by
  unfold execGovernorAdmit
  try dsimp only
  repeat' (with_reducible first | assumption | exact hM.of rfl | apply Keeps.refl | apply outKeeps_ite | apply keeps_ite | apply OutKeeps.next | apply fset_keeps | apply issueOp_keeps | split | intro _)

theorem execPreReadIssue_keeps {M : Nat} {s0 : State} (chan : Nat) (bus : Bool) {s : State} (hk : Keeps M s0 s) (hM : Sub 262657 M := by exact ‹Sub _ M›.of rfl) :
    OutKeeps M s0 (execPreReadIssue chan bus s) := by
  unfold execPreReadIssue
  try dsimp only
  repeat' (with_reducible first | assumption | exact hM.of rfl | apply Keeps.refl | apply outKeeps_ite | apply keeps_ite | apply OutKeeps.next | apply fset_keeps | apply issueOp_keeps | split | intro _)

theorem execEraseSuspend_keeps {M : Nat} {s0 : State} (chan die run : Nat) {s : State} (hk : Keeps M s0 s) (hM : Sub 545 M := by exact ‹Sub _ M›.of rfl) :
    OutKeeps M s0 (execEraseSuspend chan die run s) := by
  unfold execEraseSuspend
  try dsimp only
  repeat' (with_reducible first | assumption | exact hM.of rfl | apply Keeps.refl | apply outKeeps_ite | apply keeps_ite | apply OutKeeps.next | apply cntAdd_keeps | apply raiseEvent_keeps | apply setChan_keeps | split)

theorem resumeDie_keeps {M : Nat} {s0 : State} (chan die : Nat) (bus : Bool) {s : State} (hk : Keeps M s0 s) (hM : Sub 513 M := by exact ‹Sub _ M›.of rfl) :
    Keeps M s0 (resumeDie chan die bus s) := by
  unfold resumeDie
  try dsimp only
  repeat' (with_reducible first | assumption | exact hM.of rfl | apply Keeps.refl | apply keeps_ite | apply fset_keeps | apply setChan_keeps | split | intro _)

theorem execSuspendResume_keeps {M : Nat} {s0 : State} (chan die : Nat) (limit bus : Bool) {s : State} (hk : Keeps M s0 s) (hM : Sub 513 M := by exact ‹Sub _ M›.of rfl) :
    OutKeeps M s0 (execSuspendResume chan die limit bus s) := by
  unfold execSuspendResume
  try dsimp only
  repeat' (with_reducible first | assumption | exact hM.of rfl | apply Keeps.refl | apply outKeeps_ite | apply keeps_ite | apply OutKeeps.next | apply resumeDie_keeps | split | intro _)

theorem calOk_keeps {M : Nat} {s0 : State} (n us : Nat) {s : State} (hk : Keeps M s0 s) (hM : Sub 1 M := by exact ‹Sub _ M›.of rfl) :
    Keeps M s0 (calOk n us s) := by
  unfold calOk
  try dsimp only
  repeat' (with_reducible first | assumption | exact hM.of rfl | apply Keeps.refl | apply keeps_ite | apply fset_keeps)

theorem calFail_keeps {M : Nat} {s0 : State} (n us : Nat) {s : State} (hk : Keeps M s0 s) (hM : Sub 545 M := by exact ‹Sub _ M›.of rfl) :
    Keeps M s0 (calFail n us s) := by
  unfold calFail
  try dsimp only
  repeat' (with_reducible first | assumption | exact hM.of rfl | apply Keeps.refl | apply keeps_ite | apply fset_keeps | apply raiseEvent_keeps | apply setChan_keeps)

theorem closeOpenSbs_keeps {M : Nat} {s0 : State} {s : State} (hk : Keeps M s0 s) (hM : Sub 769 M := by exact ‹Sub _ M›.of rfl) :
    Keeps M s0 (closeOpenSbs s) := by
  unfold closeOpenSbs
  try dsimp only
  repeat' (with_reducible first | assumption | exact hM.of rfl | apply Keeps.refl | apply keeps_ite | apply reclaim_keeps | split | apply Keeps.upd_ftl | intro _)

theorem moveAway_keeps {M : Nat} {s0 : State} (n : Nat) (o : ChanOp) {s : State} (hk : Keeps M s0 s) (hM : Sub 263077 M := by exact ‹Sub _ M›.of rfl) :
    Keeps M s0 (moveAway n o s) := by
  unfold moveAway
  try dsimp only
  repeat' (with_reducible first | assumption | exact hM.of rfl | apply Keeps.refl | apply keeps_ite | apply contribFails_keeps | apply dropSb_keeps | apply preReadLost_keeps | apply programAgain_keeps | apply setSb_keeps | apply startRebuild_keeps | split | intro _)

theorem emptyRetired_keeps {M : Nat} {s0 : State} (n : Nat) {s : State} (hk : Keeps M s0 s) (hM : Sub 263077 M := by exact ‹Sub _ M›.of rfl) :
    Keeps M s0 (emptyRetired n s) := by
  unfold emptyRetired
  try dsimp only
  repeat' (with_reducible first | assumption | exact hM.of rfl | apply Keeps.refl | apply keeps_ite | apply moveAway_keeps | apply setChan_keeps | apply forEach_keeps | split | intro _)

theorem loseSecond_keeps {M : Nat} {s0 : State} (first second : Nat) {s : State} (hk : Keeps M s0 s) (hM : Sub 801 M := by exact ‹Sub _ M›.of rfl) :
    Keeps M s0 (loseSecond first second s) := by
  unfold loseSecond
  try dsimp only
  repeat' (with_reducible first | assumption | exact hM.of rfl | apply Keeps.refl | apply keeps_ite | apply markUncorrectable_keeps | apply forEach_keeps | split | intro _)

theorem noteUnerased_keeps {M : Nat} {s0 : State} (n : Nat) {s : State} (hk : Keeps M s0 s) (hM : Sub 33 M := by exact ‹Sub _ M›.of rfl) :
    Keeps M s0 (noteUnerased n s) := by
  unfold noteUnerased
  try dsimp only
  repeat' (with_reducible first | assumption | exact hM.of rfl | apply Keeps.refl | apply keeps_ite | apply otherPostmark_keeps | apply forEach_keeps | split | intro _)

theorem retireChannel_keeps {M : Nat} {s0 : State} (n : Nat) {s : State} (hk : Keeps M s0 s) (hM : Sub 4457445 M := by exact ‹Sub _ M›.of rfl) :
    Keeps M s0 (retireChannel n s) := by
  unfold retireChannel
  try dsimp only
  repeat' (with_reducible first | assumption | exact hM.of rfl | apply Keeps.refl | apply keeps_ite | apply checkWear_keeps | apply closeOpenSbs_keeps | apply emptyRetired_keeps | apply enterReadOnly_keeps | apply loseSecond_keeps | apply noteUnerased_keeps | apply raiseEvent_keeps | apply setChan_keeps | split | apply Keeps.upd_media | intro _)

theorem failChannel_keeps {M : Nat} {s0 : State} (n : Nat) {s : State} (hk : Keeps M s0 s) (hM : Sub 513 M := by exact ‹Sub _ M›.of rfl) :
    Keeps M s0 (failChannel n s) := by
  unfold failChannel
  try dsimp only
  repeat' (with_reducible first | assumption | exact hM.of rfl | apply Keeps.refl | apply keeps_ite | apply setChan_keeps | split | intro _)

theorem channelResetCal_keeps {M : Nat} {s0 : State} (n : Nat) (calGood : Bool) (us : Nat) {s : State} (hk : Keeps M s0 s) (hM : Sub 933 M := by exact ‹Sub _ M›.of rfl) :
    Keeps M s0 (channelResetCal n calGood us s) := by
  unfold channelResetCal
  try dsimp only
  repeat' (with_reducible first | assumption | exact hM.of rfl | apply Keeps.refl | apply keeps_ite | apply calFail_keeps | apply calOk_keeps | apply failChannel_keeps | apply fset_keeps | apply interruptedProgram_keeps | apply programAgain_keeps | apply raiseEvent_keeps | apply resetPostmark_keeps | apply setChan_keeps | apply updBlkOf_keeps | apply forEach_keeps | split | intro _)

theorem requestChannelReset_keeps {M : Nat} {s0 : State} (chan : Nat) (calGood : Bool) (us : Nat) {s : State} (hk : Keeps M s0 s) (hM : Sub 997 M := by exact ‹Sub _ M›.of rfl) :
    Keeps M s0 (requestChannelReset chan calGood us s) := by
  unfold requestChannelReset
  try dsimp only
  repeat' (with_reducible first | assumption | exact hM.of rfl | apply Keeps.refl | apply keeps_ite | apply channelResetCal_keeps | apply waitCommit_keeps | split | intro _)

theorem execChannelReset_keeps {M : Nat} {s0 : State} (chan : Nat) (calGood : Bool) (us : Nat) {s : State} (hk : Keeps M s0 s) (hM : Sub 997 M := by exact ‹Sub _ M›.of rfl) :
    OutKeeps M s0 (execChannelReset chan calGood us s) := by
  unfold execChannelReset
  try dsimp only
  repeat' (with_reducible first | assumption | exact hM.of rfl | apply Keeps.refl | apply outKeeps_ite | apply keeps_ite | apply OutKeeps.next | apply requestChannelReset_keeps | split | intro _)

theorem useCal_keeps {M : Nat} {s0 : State} {s : State} (hk : Keeps M s0 s) (hM : Sub 4 M := by exact ‹Sub _ M›.of rfl) :
    Keeps M s0 (useCal s) := by
  unfold useCal
  try dsimp only
  repeat' (with_reducible first | assumption | exact hM.of rfl | apply Keeps.refl | apply keeps_ite | apply useFree_keeps | split | intro _)

theorem channelReset_keeps {M : Nat} {s0 : State} (n : Nat) {s : State} (hk : Keeps M s0 s) (hM : Sub 997 M := by exact ‹Sub _ M›.of rfl) :
    Keeps M s0 (channelReset n s) := by
  unfold channelReset
  try dsimp only
  repeat' (with_reducible first | assumption | exact hM.of rfl | apply Keeps.refl | apply keeps_ite | apply requestChannelReset_keeps | apply useCal_keeps | split | intro _)

theorem calibrate_keeps {M : Nat} {s0 : State} (n : Nat) (good : Bool) (us : Nat) (again : Bool) {s : State} (hk : Keeps M s0 s) (hM : Sub 933 M := by exact ‹Sub _ M›.of rfl) :
    Keeps M s0 (calibrate n good us again s) := by
  unfold calibrate
  try dsimp only
  repeat' (with_reducible first | assumption | exact hM.of rfl | apply Keeps.refl | apply keeps_ite | apply calFail_keeps | apply calOk_keeps | apply channelResetCal_keeps | apply failChannel_keeps | split | intro _)

theorem calibrateAll_keeps {M : Nat} {s0 : State} (runs : List CalRun) {s : State} (hk : Keeps M s0 s) (hM : Sub 933 M := by exact ‹Sub _ M›.of rfl) :
    Keeps M s0 (calibrateAll runs s) := by
  unfold calibrateAll
  try dsimp only
  repeat' (with_reducible first | assumption | exact hM.of rfl | apply Keeps.refl | apply keeps_ite | apply calibrate_keeps | apply forN_keeps | split | intro _)

theorem execCalibrate_keeps {M : Nat} {s0 : State} (chan : Nat) (good again : Bool) (us : Nat) {s : State} (hk : Keeps M s0 s) (hM : Sub 4195237 M := by exact ‹Sub _ M›.of rfl) :
    OutKeeps M s0 (execCalibrate chan good again us s) := by
  unfold execCalibrate
  try dsimp only
  repeat' (with_reducible first | assumption | exact hM.of rfl | apply Keeps.refl | apply outKeeps_ite | apply keeps_ite | apply OutKeeps.next | apply calibrate_keeps)

theorem execPeriodicCalibration_keeps {M : Nat} {s0 : State} (chan : Nat) (good again : Bool) (us : Nat) {s : State} (hk : Keeps M s0 s) (hM : Sub 4195237 M := by exact ‹Sub _ M›.of rfl) :
    OutKeeps M s0 (execPeriodicCalibration chan good again us s) := by
  unfold execPeriodicCalibration
  try dsimp only
  repeat' (with_reducible first | assumption | exact hM.of rfl | apply Keeps.refl | apply outKeeps_ite | apply keeps_ite | apply OutKeeps.next | apply calibrate_keeps)

theorem setHold_keeps {M : Nat} {s0 : State} (n v : Nat) {s : State} (hk : Keeps M s0 s) (hM : Sub 1 M := by exact ‹Sub _ M›.of rfl) :
    Keeps M s0 (setHold n v s) := by
  unfold setHold
  try dsimp only
  repeat' (with_reducible first | assumption | exact hM.of rfl | apply Keeps.refl | apply keeps_ite | apply fset_keeps | apply showChan_keeps)

theorem execChannelHold_keeps {M : Nat} {s0 : State} (chan v : Nat) {s : State} (hk : Keeps M s0 s) (hM : Sub 1 M := by exact ‹Sub _ M›.of rfl) :
    OutKeeps M s0 (execChannelHold chan v s) := by
  unfold execChannelHold
  try dsimp only
  repeat' (with_reducible first | assumption | exact hM.of rfl | apply Keeps.refl | apply outKeeps_ite | apply keeps_ite | apply OutKeeps.next | apply setHold_keeps)

theorem requestRetire_keeps {M : Nat} {s0 : State} (n key req : Nat) {s : State} (hk : Keeps M s0 s) (hM : Sub 4457445 M := by exact ‹Sub _ M›.of rfl) :
    Keeps M s0 (requestRetire n key req s) := by
  unfold requestRetire
  try dsimp only
  repeat' (with_reducible first | assumption | exact hM.of rfl | apply Keeps.refl | apply keeps_ite | apply busError_keeps | apply retireChannel_keeps | apply writeIgnored_keeps)

theorem execChannelRetire_keeps {M : Nat} {s0 : State} (chan : Nat) (byFailure : Bool) (key req : Nat) {s : State} (hk : Keeps M s0 s) (hM : Sub 4457445 M := by exact ‹Sub _ M›.of rfl) :
    OutKeeps M s0 (execChannelRetire chan byFailure key req s) := by
  unfold execChannelRetire
  try dsimp only
  repeat' (with_reducible first | assumption | exact hM.of rfl | apply Keeps.refl | apply outKeeps_ite | apply keeps_ite | apply OutKeeps.next | apply requestRetire_keeps | apply retireChannel_keeps | split | intro _)

theorem retrySequenceFails_keeps {M : Nat} {s0 : State} (n : Nat) (o : ChanOp) (calGood : Bool) {s : State} (hk : Keeps M s0 s) (hM : Sub 933 M := by exact ‹Sub _ M›.of rfl) :
    Keeps M s0 (retrySequenceFails n o calGood s) := by
  unfold retrySequenceFails
  try dsimp only
  repeat' (with_reducible first | assumption | exact hM.of rfl | apply Keeps.refl | apply keeps_ite | apply channelResetCal_keeps | apply contribFails_keeps | apply enqueue_keeps | apply failChannel_keeps | apply fset_keeps | apply interruptedProgram_keeps | apply programAgain_keeps | apply raiseEvent_keeps | apply setChan_keeps | apply startRebuild_keeps | apply updBlkOf_keeps | apply useFree_keeps | split | intro _)

theorem execRetryBackoffExpiry_keeps {M : Nat} {s0 : State} (chan die : Nat) (ok calGood : Bool) {s : State} (hk : Keeps M s0 s) (hM : Sub 933 M := by exact ‹Sub _ M›.of rfl) :
    OutKeeps M s0 (execRetryBackoffExpiry chan die ok calGood s) := by
  unfold execRetryBackoffExpiry
  try dsimp only
  repeat' (with_reducible first | assumption | exact hM.of rfl | apply Keeps.refl | apply outKeeps_ite | apply keeps_ite | apply OutKeeps.next | apply cntAdd_keeps | apply raiseEvent_keeps | apply retrySequenceFails_keeps | apply setChan_keeps | split | intro _)

theorem backOff_keeps {M : Nat} {s0 : State} (chan : Nat) (o : ChanOp) {s : State} (hk : Keeps M s0 s) (hM : Sub 513 M := by exact ‹Sub _ M›.of rfl) :
    Keeps M s0 (backOff chan o s) := by
  unfold backOff
  try dsimp only
  repeat' (with_reducible first | assumption | exact hM.of rfl | apply Keeps.refl | apply keeps_ite | apply setChan_keeps | split | intro _)

theorem execDieTimeout_keeps {M : Nat} {s0 : State} (chan die : Nat) (fault : DieFault) {s : State} (hk : Keeps M s0 s) (hM : Sub 4459493 M := by exact ‹Sub _ M›.of rfl) :
    OutKeeps M s0 (execDieTimeout chan die fault s) := by
  unfold execDieTimeout
  try dsimp only
  repeat' (with_reducible first | assumption | exact hM.of rfl | apply Keeps.refl | apply outKeeps_ite | apply keeps_ite | apply OutKeeps.next | apply backOff_keeps | apply eraseFailed_keeps | apply preReadLost_keeps | apply programAgain_keeps | apply programFailed_keeps | apply raiseEvent_keeps | apply retrySequenceFails_keeps | apply setChan_keeps | apply useFree_keeps | split | intro _)

theorem execEraseDone_keeps {M : Nat} {s0 : State} (chan die : Nat) (ok : Bool) {s : State} (hk : Keeps M s0 s) (hM : Sub 4459493 M := by exact ‹Sub _ M›.of rfl) :
    OutKeeps M s0 (execEraseDone chan die ok s) := by
  unfold execEraseDone
  try dsimp only
  repeat' (with_reducible first | assumption | exact hM.of rfl | apply Keeps.refl | apply outKeeps_ite | apply keeps_ite | apply OutKeeps.next | apply cntAdd_keeps | apply eraseFailed_keeps | apply eraseSucceeded_keeps | apply setChan_keeps | split | intro _)

theorem execPatrolRead_keeps {M : Nat} {s0 : State} (chan die sb : Nat) {s : State} (hk : Keeps M s0 s) (hM : Sub 513 M := by exact ‹Sub _ M›.of rfl) :
    OutKeeps M s0 (execPatrolRead chan die sb s) := by
  unfold execPatrolRead
  try dsimp only
  repeat' (with_reducible first | assumption | exact hM.of rfl | apply Keeps.refl | apply outKeeps_ite | apply keeps_ite | apply OutKeeps.next | apply pushOp_keeps | split | intro _)

theorem switchUcode_keeps {M : Nat} {s0 : State} (n version : Nat) (ok : Bool) {s : State} (hk : Keeps M s0 s) (hM : Sub 545 M := by exact ‹Sub _ M›.of rfl) :
    Keeps M s0 (switchUcode n version ok s) := by
  unfold switchUcode
  try dsimp only
  repeat' (with_reducible first | assumption | exact hM.of rfl | apply Keeps.refl | apply keeps_ite | apply fset_keeps | apply otherPostmark_keeps | apply setChan_keeps)

theorem beginSwitch_keeps {M : Nat} {s0 : State} (n : Nat) {s : State} (hk : Keeps M s0 s) (hM : Sub 513 M := by exact ‹Sub _ M›.of rfl) :
    Keeps M s0 (beginSwitch n s) := by
  unfold beginSwitch
  try dsimp only
  repeat' (with_reducible first | assumption | exact hM.of rfl | apply Keeps.refl | apply keeps_ite | apply fset_keeps | apply resumeDie_keeps | apply setChan_keeps | apply setHold_keeps | apply startRebuild_keeps | apply forEach_keeps | split | intro _)

theorem leaveSwitch_keeps {M : Nat} {s0 : State} (n : Nat) {s : State} (hk : Keeps M s0 s) (hM : Sub 1 M := by exact ‹Sub _ M›.of rfl) :
    Keeps M s0 (leaveSwitch n s) := by
  unfold leaveSwitch
  try dsimp only
  repeat' (with_reducible first | assumption | exact hM.of rfl | apply Keeps.refl | apply keeps_ite | apply fset_keeps | apply setHold_keeps | split | intro _)

theorem microcodeSwitch_keeps {M : Nat} {s0 : State} (chan version : Nat) (ok : Bool) {s : State} (hk : Keeps M s0 s) (hM : Sub 4194977 M := by exact ‹Sub _ M›.of rfl) :
    Keeps M s0 (microcodeSwitch chan version ok s) := by
  unfold microcodeSwitch
  try dsimp only
  repeat' (with_reducible first | assumption | exact hM.of rfl | apply Keeps.refl | apply keeps_ite | apply beginSwitch_keeps | apply fset_keeps | apply leaveSwitch_keeps | apply resumeDie_keeps | apply switchUcode_keeps | apply unitActivated_keeps | apply forEach_keeps | split | intro _)

theorem dropSwitch_keeps {M : Nat} {s0 : State} {s : State} (hk : Keeps M s0 s) (hM : Sub 1 M := by exact ‹Sub _ M›.of rfl) :
    Keeps M s0 (dropSwitch s) := by
  unfold dropSwitch
  try dsimp only
  repeat' (with_reducible first | assumption | exact hM.of rfl | apply Keeps.refl | apply keeps_ite | apply fset_keeps | apply leaveSwitch_keeps | apply forN_keeps | split | intro _)

end Sys2Proof.Machine
end

