-- ==== Sys2Proof/Laws/KeepFtlRows.lean ====
section
/-! SUPPORT. Every operation of Machine/FtlRows.lean leaves what `Keeps` says. -/

set_option Elab.async false

namespace Sys2Proof.Machine

theorem execFillRecompute_keeps {M : Nat} {s0 : State} {s : State} (hk : Keeps M s0 s) (hM : Sub 4459429 M := by exact ‹Sub _ M›.of rfl) :
    OutKeeps M s0 (execFillRecompute s) := by
  unfold execFillRecompute
  try dsimp only
  repeat' (with_reducible first | assumption | exact hM.of rfl | apply Keeps.refl | apply outKeeps_ite | apply keeps_ite | apply OutKeeps.next | apply applyAll_keeps | apply reclaim_keeps | apply recomputeFill_keeps | apply releaseLanding_keeps | split | intro _)

theorem execFoldStart_keeps {M : Nat} {s0 : State} (source : Nat) (quiet : Bool) {s : State} (hk : Keeps M s0 s) (hM : Sub 769 M := by exact ‹Sub _ M›.of rfl) :
    OutKeeps M s0 (execFoldStart source quiet s) := by
  unfold execFoldStart
  try dsimp only
  repeat' (with_reducible first | assumption | exact hM.of rfl | apply Keeps.refl | apply outKeeps_ite | apply keeps_ite | apply OutKeeps.next | apply foldUnits_keeps | split | apply Keeps.upd_ftl | intro _)

theorem execFoldProgramDone_keeps {M : Nat} {s0 : State} (source : Nat) (ok : Bool) (bad : List Nat) {s : State} (hk : Keeps M s0 s) (hM : Sub 4459493 M := by exact ‹Sub _ M›.of rfl) :
    OutKeeps M s0 (execFoldProgramDone source ok bad s) := by
  unfold execFoldProgramDone
  try dsimp only
  repeat' (with_reducible first | assumption | exact hM.of rfl | apply Keeps.refl | apply outKeeps_ite | apply keeps_ite | apply OutKeeps.next | apply applyAll_keeps | apply countQlc_keeps | apply dropFold_keeps | apply finishMove_keeps | apply foldUnits_keeps | apply programFailed_keeps | apply releaseLanding_keeps | split | apply Keeps.upd_ftl | intro _)

theorem execGarbageCollection_keeps {M : Nat} {s0 : State} {s : State} (hk : Keeps M s0 s) (hM : Sub 769 M := by exact ‹Sub _ M›.of rfl) :
    OutKeeps M s0 (execGarbageCollection s) := by
  unfold execGarbageCollection
  try dsimp only
  repeat' (with_reducible first | assumption | exact hM.of rfl | apply Keeps.refl | apply outKeeps_ite | apply keeps_ite | apply OutKeeps.next | apply vacate_keeps | split | intro _)

theorem execGcCopyLanded_keeps {M : Nat} {s0 : State} (source : Nat) (ok : Bool) (badChan : Nat) (bad : List Nat) {s : State} (hk : Keeps M s0 s) (hM : Sub 4459493 M := by exact ‹Sub _ M›.of rfl) :
    OutKeeps M s0 (execGcCopyLanded source ok badChan bad s) := by
  unfold execGcCopyLanded
  try dsimp only
  repeat' (with_reducible first | assumption | exact hM.of rfl | apply Keeps.refl | apply outKeeps_ite | apply keeps_ite | apply OutKeeps.next | apply applyAll_keeps | apply copyUnits_keeps | apply countQlc_keeps | apply dropCopy_keeps | apply finishMove_keeps | apply markUncorrectable_keeps | apply programFailed_keeps | apply releaseLanding_keeps | apply setSb_keeps | apply forEach_keeps | split | apply Keeps.upd_ftl | intro _)

theorem execWearLevelling_keeps {M : Nat} {s0 : State} {s : State} (hk : Keeps M s0 s) (hM : Sub 769 M := by exact ‹Sub _ M›.of rfl) :
    OutKeeps M s0 (execWearLevelling s) := by
  unfold execWearLevelling
  try dsimp only
  repeat' (with_reducible first | assumption | exact hM.of rfl | apply Keeps.refl | apply outKeeps_ite | apply keeps_ite | apply OutKeeps.next | apply vacate_keeps | split | intro _)

theorem execSecureDiscard_keeps {M : Nat} {s0 : State} {s : State} (hk : Keeps M s0 s) (hM : Sub 769 M := by exact ‹Sub _ M›.of rfl) :
    OutKeeps M s0 (execSecureDiscard s) := by
  unfold execSecureDiscard
  try dsimp only
  repeat' (with_reducible first | assumption | exact hM.of rfl | apply Keeps.refl | apply outKeeps_ite | apply keeps_ite | apply OutKeeps.next | apply setSb_keeps | apply vacate_keeps | split | apply Keeps.upd_ftl | intro _)

theorem execRelocation_keeps {M : Nat} {s0 : State} {s : State} (hk : Keeps M s0 s) (hM : Sub 4195297 M := by exact ‹Sub _ M›.of rfl) :
    OutKeeps M s0 (execRelocation s) := by
  unfold execRelocation
  try dsimp only
  repeat' (with_reducible first | assumption | exact hM.of rfl | apply Keeps.refl | apply outKeeps_ite | apply keeps_ite | apply OutKeeps.next | apply queueErase_keeps | apply releaseBlocks_keeps | apply startCopyOf_keeps | apply updBlkOf_keeps | apply vacate_keeps | apply forEach_keeps | split | intro _)

theorem execJournalFlush_keeps {M : Nat} {s0 : State} {s : State} (hk : Keeps M s0 s) (hM : Sub 769 M := by exact ‹Sub _ M›.of rfl) :
    OutKeeps M s0 (execJournalFlush s) := by
  unfold execJournalFlush
  try dsimp only
  repeat' (with_reducible first | assumption | exact hM.of rfl | apply Keeps.refl | apply outKeeps_ite | apply keeps_ite | apply OutKeeps.next | apply journalFlush_keeps)

theorem execJournalFlushDone_keeps {M : Nat} {s0 : State} {s : State} (hk : Keeps M s0 s) (hM : Sub 4459429 M := by exact ‹Sub _ M›.of rfl) :
    OutKeeps M s0 (execJournalFlushDone s) := by
  unfold execJournalFlushDone
  try dsimp only
  repeat' (with_reducible first | assumption | exact hM.of rfl | apply Keeps.refl | apply outKeeps_ite | apply keeps_ite | apply OutKeeps.next | apply ftlJournalOnFlash_keeps)

theorem execCheckpoint_keeps {M : Nat} {s0 : State} {s : State} (hk : Keeps M s0 s) (hM : Sub 4459429 M := by exact ‹Sub _ M›.of rfl) :
    OutKeeps M s0 (execCheckpoint s) := by
  unfold execCheckpoint
  try dsimp only
  repeat' (with_reducible first | assumption | exact hM.of rfl | apply Keeps.refl | apply outKeeps_ite | apply keeps_ite | apply OutKeeps.next | apply applyAll_keeps | apply checkpoint_keeps | apply ftlFlushAndCheckpoint_keeps | apply shutdownWritten_keeps | split | intro _)

theorem execMapPageWritten_keeps {M : Nat} {s0 : State} (page : Nat) {s : State} (hk : Keeps M s0 s) (hM : Sub 4459429 M := by exact ‹Sub _ M›.of rfl) :
    OutKeeps M s0 (execMapPageWritten page s) := by
  unfold execMapPageWritten
  try dsimp only
  repeat' (with_reducible first | assumption | exact hM.of rfl | apply Keeps.refl | apply outKeeps_ite | apply keeps_ite | apply OutKeeps.next | apply applyAll_keeps | apply dropOps_keeps | apply mapWriter_keeps | apply slcPages_keeps | split | apply Keeps.upd_ftl | intro _)

theorem execBackgroundMapLoad_keeps {M : Nat} {s0 : State} {s : State} (hk : Keeps M s0 s) (hM : Sub 4195233 M := by exact ‹Sub _ M›.of rfl) :
    OutKeeps M s0 (execBackgroundMapLoad s) := by
  unfold execBackgroundMapLoad
  try dsimp only
  repeat' (with_reducible first | assumption | exact hM.of rfl | apply Keeps.refl | apply outKeeps_ite | apply keeps_ite | apply OutKeeps.next | apply bgQueue_keeps | apply cachePage_keeps | apply endOps_keeps | apply wakeReads_keeps | split | apply Keeps.upd_ftl | intro _)

end Sys2Proof.Machine
end

