-- ==== Sys2Proof/Laws/KeepHostIo.lean ====
section
/-! SUPPORT. Every operation of Machine/HostIo.lean leaves what `Keeps` says. -/

set_option Elab.async false

namespace Sys2Proof.Machine

theorem badDoorbell_keeps {M : Nat} {s0 : State} (c : Nat) {s : State} (hk : Keeps M s0 s) (hM : Sub 4194465 M := by exact ‹Sub _ M›.of rfl) :
    Keeps M s0 (badDoorbell c s) := by
  unfold badDoorbell
  try dsimp only
  repeat' (with_reducible first | assumption | exact hM.of rfl | apply Keeps.refl | apply keeps_ite | apply raiseAen_keeps)

theorem tailDoorbell_keeps {M : Nat} {s0 : State} (ctrl q tail : Nat) {s : State} (hk : Keeps M s0 s) (hM : Sub 4458657 M := by exact ‹Sub _ M›.of rfl) :
    Keeps M s0 (tailDoorbell ctrl q tail s) := by
  unfold tailDoorbell
  try dsimp only
  repeat' (with_reducible first | assumption | exact hM.of rfl | apply Keeps.refl | apply keeps_ite | apply badDoorbell_keeps | apply raisePigeon_keeps | apply updSq_keeps | split | apply Keeps.upd_nv | intro _)

theorem headDoorbell_keeps {M : Nat} {s0 : State} (ctrl q head : Nat) {s : State} (hk : Keeps M s0 s) (hM : Sub 4194465 M := by exact ‹Sub _ M›.of rfl) :
    Keeps M s0 (headDoorbell ctrl q head s) := by
  unfold headDoorbell
  try dsimp only
  repeat' (with_reducible first | assumption | exact hM.of rfl | apply Keeps.refl | apply keeps_ite | apply badDoorbell_keeps | apply postHeld_keeps | apply settleAll_keeps | apply updCq_keeps | split | apply Keeps.upd_nv | intro _)

theorem servePigeons_keeps {M : Nat} {s0 : State} {s : State} (hk : Keeps M s0 s) (hM : Sub 264353 M := by exact ‹Sub _ M›.of rfl) :
    Keeps M s0 (servePigeons s) := by
  unfold servePigeons
  try dsimp only
  repeat' (with_reducible first | assumption | exact hM.of rfl | apply Keeps.refl | apply keeps_ite | apply servePigeon_keeps | split | intro _)

theorem execCommandFetch_keeps {M : Nat} {s0 : State} (cid : Nat) (k : CmdKind) (nsid lba nlb : Nat) {s : State} (hk : Keeps M s0 s) (hM : Sub 4458657 M := by exact ‹Sub _ M›.of rfl) :
    OutKeeps M s0 (execCommandFetch cid k nsid lba nlb s) := by
  unfold execCommandFetch
  try dsimp only
  repeat' (with_reducible first | assumption | exact hM.of rfl | apply Keeps.refl | apply outKeeps_ite | apply keeps_ite | apply OutKeeps.next | apply fetchCommand_keeps | apply servePigeons_keeps | split | intro _)

theorem execTagFreed_keeps {M : Nat} {s0 : State} {s : State} (hk : Keeps M s0 s) (hM : Sub 129 M := by exact ‹Sub _ M›.of rfl) :
    OutKeeps M s0 (execTagFreed s) := by
  unfold execTagFreed
  try dsimp only
  repeat' (with_reducible first | assumption | exact hM.of rfl | apply Keeps.refl | apply outKeeps_ite | apply keeps_ite | apply OutKeeps.next | apply returnTag_keeps | split | apply Keeps.upd_nv)

theorem execTrackerEntryFreed_keeps {M : Nat} {s0 : State} {s : State} (hk : Keeps M s0 s) (hM : Sub 128 M := by exact ‹Sub _ M›.of rfl) :
    OutKeeps M s0 (execTrackerEntryFreed s) := by
  unfold execTrackerEntryFreed
  try dsimp only
  repeat' (with_reducible first | assumption | exact hM.of rfl | apply Keeps.refl | apply outKeeps_ite | apply keeps_ite | apply OutKeeps.next | split | apply Keeps.upd_nv)

theorem admitWrite_keeps {M : Nat} {s0 : State} (tag : Nat) {s : State} (hk : Keeps M s0 s) (hM : Sub 4459429 M := by exact ‹Sub _ M›.of rfl) :
    Keeps M s0 (admitWrite tag s) := by
  unfold admitWrite
  try dsimp only
  repeat' (with_reducible first | assumption | exact hM.of rfl | apply Keeps.refl | apply keeps_ite | apply applyAll_keeps | apply beginLanding_keeps | apply endWrite_keeps | apply loadPage_keeps | apply setCmd_keeps | split | intro _)

theorem startWrite_keeps {M : Nat} {s0 : State} (x : Cmd) (data : List LBlk) (pr : PrInfo) {s : State} (hk : Keeps M s0 s) (hM : Sub 4459429 M := by exact ‹Sub _ M›.of rfl) :
    Keeps M s0 (startWrite x data pr s) := by
  unfold startWrite
  try dsimp only
  repeat' (with_reducible first | assumption | exact hM.of rfl | apply Keeps.refl | apply keeps_ite | apply admitWrite_keeps | apply endWrite_keeps | apply setCmd_keeps | split)

theorem execWrite_keeps {M : Nat} {s0 : State} (tag : Nat) (data : List LBlk) (pr : PrInfo) {s : State} (hk : Keeps M s0 s) (hM : Sub 4459429 M := by exact ‹Sub _ M›.of rfl) :
    OutKeeps M s0 (execWrite tag data pr s) := by
  unfold execWrite
  try dsimp only
  repeat' (with_reducible first | assumption | exact hM.of rfl | apply Keeps.refl | apply outKeeps_ite | apply keeps_ite | apply OutKeeps.next | apply applyAll_keeps | apply invalidField_keeps | apply startWrite_keeps | split)

theorem dropLanding_keeps {M : Nat} {s0 : State} (tag : Nat) {s : State} (hk : Keeps M s0 s) (hM : Sub 513 M := by exact ‹Sub _ M›.of rfl) :
    Keeps M s0 (dropLanding tag s) := by
  unfold dropLanding
  try dsimp only
  repeat' (with_reducible first | assumption | exact hM.of rfl | apply Keeps.refl | apply keeps_ite | apply dropOps_keeps | split | intro _)

theorem execLandingProgramDone_keeps {M : Nat} {s0 : State} (tag : Nat) (ok : Bool) (badChan : Nat) {s : State} (hk : Keeps M s0 s) (hM : Sub 4459429 M := by exact ‹Sub _ M›.of rfl) :
    OutKeeps M s0 (execLandingProgramDone tag ok badChan s) := by
  unfold execLandingProgramDone
  try dsimp only
  repeat' (with_reducible first | assumption | exact hM.of rfl | apply Keeps.refl | apply outKeeps_ite | apply keeps_ite | apply OutKeeps.next | apply applyAll_keeps | apply endOps_keeps | apply landAgain_keeps | apply programFailed_keeps | apply setCmd_keeps | apply forEach_keeps | split | intro _)

theorem execWriteZeroes_keeps {M : Nat} {s0 : State} (tag : Nat) (deac : Bool) (pr : PrInfo) {s : State} (hk : Keeps M s0 s) (hM : Sub 4459429 M := by exact ‹Sub _ M›.of rfl) :
    OutKeeps M s0 (execWriteZeroes tag deac pr s) := by
  unfold execWriteZeroes
  try dsimp only
  repeat' (with_reducible first | assumption | exact hM.of rfl | apply Keeps.refl | apply outKeeps_ite | apply keeps_ite | apply OutKeeps.next | apply admitWrite_keeps | apply endWrite_keeps | apply setCmd_keeps | split)

theorem execDatasetManagement_keeps {M : Nat} {s0 : State} (tag : Nat) (ad : Bool) (ranges : List (Nat × Nat)) {s : State} (hk : Keeps M s0 s) (hM : Sub 4459429 M := by exact ‹Sub _ M›.of rfl) :
    OutKeeps M s0 (execDatasetManagement tag ad ranges s) := by
  unfold execDatasetManagement
  try dsimp only
  repeat' (with_reducible first | assumption | exact hM.of rfl | apply Keeps.refl | apply outKeeps_ite | apply keeps_ite | apply OutKeeps.next | apply admitWrite_keeps | apply applyAll_keeps | apply completeOk_keeps | apply endWrite_keeps | apply invalidField_keeps | apply setCmd_keeps | split | intro _)

theorem beginRead_keeps {M : Nat} {s0 : State} (x : Cmd) {s : State} (hk : Keeps M s0 s) (hM : Sub 4459429 M := by exact ‹Sub _ M›.of rfl) :
    Keeps M s0 (beginRead x s) := by
  unfold beginRead
  try dsimp only
  repeat' (with_reducible first | assumption | exact hM.of rfl | apply Keeps.refl | apply keeps_ite | apply applyAll_keeps | apply complete_keeps | apply setCmd_keeps | apply startRead_keeps | split)

theorem execRead_keeps {M : Nat} {s0 : State} (tag : Nat) (pr : PrInfo) {s : State} (hk : Keeps M s0 s) (hM : Sub 4459429 M := by exact ‹Sub _ M›.of rfl) :
    OutKeeps M s0 (execRead tag pr s) := by
  unfold execRead
  try dsimp only
  repeat' (with_reducible first | assumption | exact hM.of rfl | apply Keeps.refl | apply outKeeps_ite | apply keeps_ite | apply OutKeeps.next | apply beginRead_keeps | split)

theorem execVerify_keeps {M : Nat} {s0 : State} (tag : Nat) (pr : PrInfo) {s : State} (hk : Keeps M s0 s) (hM : Sub 4459429 M := by exact ‹Sub _ M›.of rfl) :
    OutKeeps M s0 (execVerify tag pr s) := by
  unfold execVerify
  try dsimp only
  repeat' (with_reducible first | assumption | exact hM.of rfl | apply Keeps.refl | apply outKeeps_ite | apply keeps_ite | apply OutKeeps.next | apply beginRead_keeps | split)

theorem execCompare_keeps {M : Nat} {s0 : State} (tag : Nat) (data : List LBlk) (pr : PrInfo) {s : State} (hk : Keeps M s0 s) (hM : Sub 4459429 M := by exact ‹Sub _ M›.of rfl) :
    OutKeeps M s0 (execCompare tag data pr s) := by
  unfold execCompare
  try dsimp only
  repeat' (with_reducible first | assumption | exact hM.of rfl | apply Keeps.refl | apply outKeeps_ite | apply keeps_ite | apply OutKeeps.next | apply beginRead_keeps | apply invalidField_keeps | split)

theorem execMapPageLoadDone_keeps {M : Nat} {s0 : State} (page : Nat) {s : State} (hk : Keeps M s0 s) (hM : Sub 4459429 M := by exact ‹Sub _ M›.of rfl) :
    OutKeeps M s0 (execMapPageLoadDone page s) := by
  unfold execMapPageLoadDone
  try dsimp only
  repeat' (with_reducible first | assumption | exact hM.of rfl | apply Keeps.refl | apply outKeeps_ite | apply keeps_ite | apply OutKeeps.next | apply admitWrite_keeps | apply applyAll_keeps | apply cachePage_keeps | apply endOps_keeps | apply wakeReads_keeps | apply forEach_keeps | split | intro _)

theorem readRange_keeps {M : Nat} {s0 : State} (nsid lba nlb : Nat) (n : Ns) (bad : List Nat) {s : State} (hk : Keeps M s0 s) (hM : Sub 805 M := by exact ‹Sub _ M›.of rfl) :
    Keeps M s0 (readRange nsid lba nlb n bad s) := by
  unfold readRange
  try dsimp only
  repeat' (with_reducible first | assumption | exact hM.of rfl | apply Keeps.refl | apply keeps_ite | apply readHere_keeps | apply forEach_keeps | split | intro _)

theorem fusedFails_keeps {M : Nat} {s0 : State} (a b : Cmd) (sct sc : Nat) (dnr : Bool) {s : State} (hk : Keeps M s0 s) (hM : Sub 4459429 M := by exact ‹Sub _ M›.of rfl) :
    Keeps M s0 (fusedFails a b sct sc dnr s) := by
  unfold fusedFails
  try dsimp only
  repeat' (with_reducible first | assumption | exact hM.of rfl | apply Keeps.refl | apply keeps_ite | apply complete_keeps | apply endWrite_keeps | split | intro _)

theorem fusedWrite_keeps {M : Nat} {s0 : State} (b : Cmd) (data : List LBlk) (n : Ns) {s : State} (hk : Keeps M s0 s) (hM : Sub 4459429 M := by exact ‹Sub _ M›.of rfl) :
    Keeps M s0 (fusedWrite b data n s) := by
  unfold fusedWrite
  try dsimp only
  repeat' (with_reducible first | assumption | exact hM.of rfl | apply Keeps.refl | apply keeps_ite | apply admitWrite_keeps | apply endWrite_keeps | apply setCmd_keeps | split | intro _)

theorem runFused_keeps {M : Nat} {s0 : State} (a b : Cmd) (cmp data : List LBlk) (n : Ns) (bad : Bool) {s : State} (hk : Keeps M s0 s) (hM : Sub 4459429 M := by exact ‹Sub _ M›.of rfl) :
    Keeps M s0 (runFused a b cmp data n bad s) := by
  unfold runFused
  try dsimp only
  repeat' (with_reducible first | assumption | exact hM.of rfl | apply Keeps.refl | apply keeps_ite | apply completeOk_keeps | apply fusedFails_keeps | apply fusedWrite_keeps | apply readRange_keeps | apply setCmd_keeps | split | intro _)

theorem execFusedCompareAndWrite_keeps {M : Nat} {s0 : State} (tagC tagW : Nat) (cmp data : List LBlk) (pr : PrInfo) (bad : Bool) {s : State} (hk : Keeps M s0 s) (hM : Sub 4459429 M := by exact ‹Sub _ M›.of rfl) :
    OutKeeps M s0 (execFusedCompareAndWrite tagC tagW cmp data pr bad s) := by
  unfold execFusedCompareAndWrite
  try dsimp only
  repeat' (with_reducible first | assumption | exact hM.of rfl | apply Keeps.refl | apply outKeeps_ite | apply keeps_ite | apply OutKeeps.next | apply complete_keeps | apply endWrite_keeps | apply fusedFails_keeps | apply loadPage_keeps | apply runFused_keeps | split | intro _)

theorem execCopy_keeps {M : Nat} {s0 : State} (tag fmt : Nat) (ranges : List (Nat × Nat)) (pr : PrInfo) (bad : List Nat) {s : State} (hk : Keeps M s0 s) (hM : Sub 4459429 M := by exact ‹Sub _ M›.of rfl) :
    OutKeeps M s0 (execCopy tag fmt ranges pr bad s) := by
  unfold execCopy
  try dsimp only
  repeat' (with_reducible first | assumption | exact hM.of rfl | apply Keeps.refl | apply outKeeps_ite | apply keeps_ite | apply OutKeeps.next | apply applyAll_keeps | apply endWrite_keeps | apply invalidField_keeps | apply loadPage_keeps | apply readRange_keeps | apply setCmd_keeps | apply startWrite_keeps | apply forEach_keeps | split | intro _)

theorem execFlush_keeps {M : Nat} {s0 : State} (tag : Nat) {s : State} (hk : Keeps M s0 s) (hM : Sub 4194465 M := by exact ‹Sub _ M›.of rfl) :
    OutKeeps M s0 (execFlush tag s) := by
  unfold execFlush
  try dsimp only
  repeat' (with_reducible first | assumption | exact hM.of rfl | apply Keeps.refl | apply outKeeps_ite | apply keeps_ite | apply OutKeeps.next | apply setCmd_keeps | apply settleAll_keeps | split)

theorem hostAdmitHeld_keeps {M : Nat} {s0 : State} {s : State} (hk : Keeps M s0 s) (hM : Sub 4459429 M := by exact ‹Sub _ M›.of rfl) :
    Keeps M s0 (hostAdmitHeld s) := by
  unfold hostAdmitHeld
  try dsimp only
  repeat' (with_reducible first | assumption | exact hM.of rfl | apply Keeps.refl | apply keeps_ite | apply admitWrite_keeps | apply forEach_keeps | split | intro _)

theorem execHeldWriteTimeout_keeps {M : Nat} {s0 : State} (tag : Nat) {s : State} (hk : Keeps M s0 s) (hM : Sub 4459429 M := by exact ‹Sub _ M›.of rfl) :
    OutKeeps M s0 (execHeldWriteTimeout tag s) := by
  unfold execHeldWriteTimeout
  try dsimp only
  repeat' (with_reducible first | assumption | exact hM.of rfl | apply Keeps.refl | apply outKeeps_ite | apply keeps_ite | apply OutKeeps.next | apply endWrite_keeps | apply setCmd_keeps | split | intro _)

theorem execAbort_keeps {M : Nat} {s0 : State} (tag sqid cid : Nat) {s : State} (hk : Keeps M s0 s) (hM : Sub 4459429 M := by exact ‹Sub _ M›.of rfl) :
    OutKeeps M s0 (execAbort tag sqid cid s) := by
  unfold execAbort
  try dsimp only
  repeat' (with_reducible first | assumption | exact hM.of rfl | apply Keeps.refl | apply outKeeps_ite | apply keeps_ite | apply OutKeeps.next | apply complete_keeps | apply completeDw_keeps | apply endWrite_keeps | apply recordEnd_keeps | apply setCmd_keeps | apply updCtrl_keeps | split | apply Keeps.upd_prog | intro _)

theorem execAsynchronousEventRequest_keeps {M : Nat} {s0 : State} (tag : Nat) {s : State} (hk : Keeps M s0 s) (hM : Sub 4194465 M := by exact ‹Sub _ M›.of rfl) :
    OutKeeps M s0 (execAsynchronousEventRequest tag s) := by
  unfold execAsynchronousEventRequest
  try dsimp only
  repeat' (with_reducible first | assumption | exact hM.of rfl | apply Keeps.refl | apply outKeeps_ite | apply keeps_ite | apply OutKeeps.next | apply complete_keeps | apply deliverAens_keeps | apply setCmd_keeps | apply updCtrl_keeps | split)

end Sys2Proof.Machine
end

