-- ==== Sys2Proof/Laws/KeepScanOps.lean ====
section
/-! SUPPORT. Every operation of Machine/ScanOps.lean leaves what `Keeps` says. -/

set_option Elab.async false

namespace Sys2Proof.Machine

theorem setScan_keeps {M : Nat} {s0 : State} (j : ScanJob) {s : State} (hk : Keeps M s0 s) (hM : Sub 32768 M := by exact ‹Sub _ M›.of rfl) :
    Keeps M s0 (setScan j s) := by
  unfold setScan
  try dsimp only
  repeat' (with_reducible first | assumption | exact hM.of rfl | apply Keeps.refl | apply keeps_ite | split | apply Keeps.upd_scan)

theorem dropScan_keeps {M : Nat} {s0 : State} (n : Nat) {s : State} (hk : Keeps M s0 s) (hM : Sub 32768 M := by exact ‹Sub _ M›.of rfl) :
    Keeps M s0 (dropScan n s) := by
  unfold dropScan
  try dsimp only
  repeat' (with_reducible first | assumption | exact hM.of rfl | apply Keeps.refl | apply keeps_ite | split | apply Keeps.upd_scan)

theorem scanAnswer_keeps {M : Nat} {s0 : State} (j : ScanJob) (status index : Nat) {s : State} (hk : Keeps M s0 s) (hM : Sub 4227233 M := by exact ‹Sub _ M›.of rfl) :
    Keeps M s0 (scanAnswer j status index s) := by
  unfold scanAnswer
  try dsimp only
  repeat' (with_reducible first | assumption | exact hM.of rfl | apply Keeps.refl | apply keeps_ite | apply completeBoth_keeps | split | apply Keeps.upd_scan)

theorem scanNotRun_keeps {M : Nat} {s0 : State} (j : ScanJob) (resultAddr status index : Nat) {s : State} (hk : Keeps M s0 s) (hM : Sub 38834343 M := by exact ‹Sub _ M›.of rfl) :
    Keeps M s0 (scanNotRun j resultAddr status index s) := by
  unfold scanNotRun
  try dsimp only
  repeat' (with_reducible first | assumption | exact hM.of rfl | apply Keeps.refl | apply keeps_ite | apply dropScan_keeps | apply scanAnswer_keeps | apply useFree_keeps | apply writeSpace_keeps | split | apply Keeps.upd_scan)

theorem showCtx_keeps {M : Nat} {s0 : State} (c : Nat) (j : ScanJob) (d : ScanDesc) (state : Nat) (n : Nat) {s : State} (hk : Keeps M s0 s) (hM : Sub 1 M := by exact ‹Sub _ M›.of rfl) :
    Keeps M s0 (showCtx c j d state n s) := by
  unfold showCtx
  try dsimp only
  repeat' (with_reducible first | assumption | exact hM.of rfl | apply Keeps.refl | apply keeps_ite | apply fset_keeps | split | intro _)

theorem dropScanReads_keeps {M : Nat} {s0 : State} (num : Nat) {s : State} (hk : Keeps M s0 s) (hM : Sub 513 M := by exact ‹Sub _ M›.of rfl) :
    Keeps M s0 (dropScanReads num s) := by
  unfold dropScanReads
  try dsimp only
  repeat' (with_reducible first | assumption | exact hM.of rfl | apply Keeps.refl | apply keeps_ite | apply setChan_keeps | apply forEach_keeps | split | intro _)

theorem scanEnd_keeps {M : Nat} {s0 : State} (j : ScanJob) (status : Nat) (write : Bool) {s : State} (hk : Keeps M s0 s) (hM : Sub 38834855 M := by exact ‹Sub _ M›.of rfl) :
    Keeps M s0 (scanEnd j status write s) := by
  unfold scanEnd
  try dsimp only
  repeat' (with_reducible first | assumption | exact hM.of rfl | apply Keeps.refl | apply keeps_ite | apply dropScanReads_keeps | apply raiseEvent_keeps | apply scanAnswer_keeps | apply showCtx_keeps | apply useFree_keeps | apply writeSpace_keeps | apply forEach_keeps | split | apply Keeps.upd_scan | intro _)

theorem scanAbortNs_keeps {M : Nat} {s0 : State} (nsid : Nat) {s : State} (hk : Keeps M s0 s) (hM : Sub 38834855 M := by exact ‹Sub _ M›.of rfl) :
    Keeps M s0 (scanAbortNs nsid s) := by
  unfold scanAbortNs
  try dsimp only
  repeat' (with_reducible first | assumption | exact hM.of rfl | apply Keeps.refl | apply keeps_ite | apply forEach_keeps | apply scanEnd_keeps | apply forEach_keeps | split | intro _)

theorem scanAbort5_keeps {M : Nat} {s0 : State} (p : ScanJob → Bool) (write : Bool) {s : State} (hk : Keeps M s0 s) (hM : Sub 38834855 M := by exact ‹Sub _ M›.of rfl) :
    Keeps M s0 (scanAbort5 p write s) := by
  unfold scanAbort5
  try dsimp only
  repeat' (with_reducible first | assumption | exact hM.of rfl | apply Keeps.refl | apply keeps_ite | apply dropScan_keeps | apply forEach_keeps | apply scanAnswer_keeps | apply scanEnd_keeps | apply useFree_keeps | apply writeSpace_keeps | apply forEach_keeps | split | intro _)

theorem scanAbandon_keeps {M : Nat} {s0 : State} {s : State} (hk : Keeps M s0 s) (hM : Sub 33281 M := by exact ‹Sub _ M›.of rfl) :
    Keeps M s0 (scanAbandon s) := by
  unfold scanAbandon
  try dsimp only
  repeat' (with_reducible first | assumption | exact hM.of rfl | apply Keeps.refl | apply keeps_ite | apply dropScanReads_keeps | apply showCtx_keeps | apply forEach_keeps | split | apply Keeps.upd_scan | intro _)

theorem scanSubmit_keeps {M : Nat} {s0 : State} (func ctrl : Nat) (exec tag letter : Option Nat) (sp : Space) (addr : Nat) {s : State} (hk : Keeps M s0 s) (hM : Sub 38834343 M := by exact ‹Sub _ M›.of rfl) :
    Keeps M s0 (scanSubmit func ctrl exec tag letter sp addr s) := by
  unfold scanSubmit
  try dsimp only
  repeat' (with_reducible first | assumption | exact hM.of rfl | apply Keeps.refl | apply keeps_ite | apply scanNotRun_keeps | split | apply Keeps.upd_scan)

theorem execScan_keeps {M : Nat} {s0 : State} (tag off : Nat) {s : State} (hk : Keeps M s0 s) (hM : Sub 38834343 M := by exact ‹Sub _ M›.of rfl) :
    OutKeeps M s0 (execScan tag off s) := by
  unfold execScan
  try dsimp only
  repeat' (with_reducible first | assumption | exact hM.of rfl | apply Keeps.refl | apply outKeeps_ite | apply keeps_ite | apply OutKeeps.next | apply complete_keeps | apply invalidField_keeps | apply scanSubmit_keeps | apply setCmd_keeps | split)

theorem loadCtx_keeps {M : Nat} {s0 : State} (c : Nat) (code : List Word) (consts : List Word) (pats : List Byte) (n : Nat) {s : State} (hk : Keeps M s0 s) (hM : Sub 1 M := by exact ‹Sub _ M›.of rfl) :
    Keeps M s0 (loadCtx c code consts pats n s) := by
  unfold loadCtx
  try dsimp only
  repeat' (with_reducible first | assumption | exact hM.of rfl | apply Keeps.refl | apply keeps_ite | apply forEach_keeps | apply forN_keeps | apply wr_keeps | apply forN_keeps | apply forEach_keeps | split | intro _)

theorem lookupUnit_keeps {M : Nat} {s0 : State} (j : ScanJob) (r : ScanRun) {s : State} (hk : Keeps M s0 s) (hM : Sub 33281 M := by exact ‹Sub _ M›.of rfl) :
    Keeps M s0 (lookupUnit j r s) := by
  unfold lookupUnit
  try dsimp only
  repeat' (with_reducible first | assumption | exact hM.of rfl | apply Keeps.refl | apply keeps_ite | apply pushOp_keeps | apply setScan_keeps | split | intro _)

theorem walkSteps_keeps {M : Nat} {s0 : State} (num n : Nat) {s : State} (hk : Keeps M s0 s) (hM : Sub 33281 M := by exact ‹Sub _ M›.of rfl) :
    Keeps M s0 (walkSteps num n s) := by
  induction n generalizing s with
  | zero => exact hk
  | succ n ih =>
    unfold walkSteps
    split
    · exact hk
    · split
      · exact hk
      · dsimp only
        split
        · exact hk
        · exact ih (lookupUnit_keeps _ _ hk)

theorem scanWalk_keeps {M : Nat} {s0 : State} (num : Nat) {s : State} (hk : Keeps M s0 s) (hM : Sub 33281 M := by exact ‹Sub _ M›.of rfl) :
    Keeps M s0 (scanWalk num s) := by
  unfold scanWalk
  try dsimp only
  repeat' (with_reducible first | assumption | exact hM.of rfl | apply Keeps.refl | apply keeps_ite | apply setScan_keeps | apply walkSteps_keeps | split | intro _)

theorem acceptScan_keeps {M : Nat} {s0 : State} (j : ScanJob) (c : Nat) {s : State} (hk : Keeps M s0 s) (hM : Sub 38834855 M := by exact ‹Sub _ M›.of rfl) :
    Keeps M s0 (acceptScan j c s) := by
  unfold acceptScan
  try dsimp only
  repeat' (with_reducible first | assumption | exact hM.of rfl | apply Keeps.refl | apply keeps_ite | apply loadCtx_keeps | apply scanNotRun_keeps | apply scanWalk_keeps | apply setScan_keeps | apply showCtx_keeps | apply useFree_keeps | apply wr_keeps | apply writeSpace_keeps | apply forN_keeps | apply forEach_keeps | split | apply Keeps.upd_scan | intro _)

theorem execScanJobAccepted_keeps {M : Nat} {s0 : State} {s : State} (hk : Keeps M s0 s) (hM : Sub 38834855 M := by exact ‹Sub _ M›.of rfl) :
    OutKeeps M s0 (execScanJobAccepted s) := by
  unfold execScanJobAccepted
  try dsimp only
  repeat' (with_reducible first | assumption | exact hM.of rfl | apply Keeps.refl | apply outKeeps_ite | apply keeps_ite | apply OutKeeps.next | apply acceptScan_keeps | split)

theorem evalRecord_keeps {M : Nat} {s0 : State} (j : ScanJob) (r : ScanRun) (chan : Nat) (x : FRec) (o : IuOut) {s : State} (hk : Keeps M s0 s) (hM : Sub 8225 M := by exact ‹Sub _ M›.of rfl) :
    Keeps M s0 (evalRecord j r chan x o s).2 := by
  unfold evalRecord
  try dsimp only
  repeat' (with_reducible first | assumption | exact hM.of rfl | apply Keeps.refl | apply keeps_ite | apply raiseEvent_keeps | refine runFilter_keeps_eq (by assumption) ?_ | apply runFilter_keeps | split)

theorem evalRecord_keeps_eq {M : Nat} {s0 : State} {j : ScanJob} {r : ScanRun} {chan : Nat} {x : FRec} {o : IuOut} {s : State} {v0} {t' : State} (he : evalRecord j r chan x o s = (v0, t')) (hk : Keeps M s0 s) (hM : Sub 8225 M := by exact ‹Sub _ M›.of rfl) :
    Keeps M s0 t' := by
  have g : Keeps M s0 (evalRecord j r chan x o s).2 := by
    with_reducible apply evalRecord_keeps <;> assumption
  rw [he] at g
  exact g

theorem evalRecords_keeps {M : Nat} {s0 : State} (j : ScanJob) (r : ScanRun) (chan : Nat) (a0 : List FRec) (a1 : IuOut) {s : State} (hk : Keeps M s0 s) (hM : Sub 8225 M := by exact ‹Sub _ M›.of rfl) :
    Keeps M s0 (evalRecords j r chan a0 a1 s).2 := by
  induction a0 generalizing j r chan a1 s with
  | nil =>
    unfold evalRecords
    exact hk
  | cons x l ih =>
    unfold evalRecords
    try dsimp only
    repeat' (with_reducible first | assumption | apply ih | exact hM.of rfl | apply Keeps.refl | apply keeps_ite | refine evalRecord_keeps_eq (by assumption) ?_ | apply evalRecord_keeps)

theorem evalRecords_keeps_eq {M : Nat} {s0 : State} {j : ScanJob} {r : ScanRun} {chan : Nat} {a0 : List FRec} {a1 : IuOut} {s : State} {v0} {t' : State} (he : evalRecords j r chan a0 a1 s = (v0, t')) (hk : Keeps M s0 s) (hM : Sub 8225 M := by exact ‹Sub _ M›.of rfl) :
    Keeps M s0 t' := by
  have g : Keeps M s0 (evalRecords j r chan a0 a1 s).2 := by
    with_reducible apply evalRecords_keeps <;> assumption
  rw [he] at g
  exact g

theorem putEntry_keeps {M : Nat} {s0 : State} {j : ScanJob} {r : ScanRun} {chan : Nat} {e : List Byte} {s : State} {v0} {t' : State} (he : putEntry j r chan e s = some (v0, t')) (hk : Keeps M s0 s) (hM : Sub 34607111 M := by exact ‹Sub _ M›.of rfl) :
    Keeps M s0 t' := by
  unfold putEntry at he
  try dsimp only at he
  repeat' (first | split at he | cases he)
  all_goals repeat' (with_reducible first | assumption | exact hM.of rfl | apply Keeps.refl | apply keeps_ite | apply useFree_keeps | apply wr_keeps | apply writeSpace_keeps)

theorem putEntries_keeps {M : Nat} {s0 : State} (j : ScanJob) (chan : Nat) (a0 : List (List Byte)) (a1 : ScanRun) {s : State} (hk : Keeps M s0 s) (hM : Sub 34607111 M := by exact ‹Sub _ M›.of rfl) :
    Keeps M s0 (putEntries j chan a0 a1 s).2.2 := by
  induction a0 generalizing j chan a1 s with
  | nil =>
    unfold putEntries
    exact hk
  | cons x l ih =>
    unfold putEntries
    try dsimp only
    repeat' (with_reducible first | assumption | apply ih | exact hM.of rfl | apply Keeps.refl | apply keeps_ite | refine putEntry_keeps (by assumption) ?_ | split)

theorem putEntries_keeps_eq {M : Nat} {s0 : State} {j : ScanJob} {chan : Nat} {a0 : List (List Byte)} {a1 : ScanRun} {s : State} {v0} {v1} {t' : State} (he : putEntries j chan a0 a1 s = (v0, v1, t')) (hk : Keeps M s0 s) (hM : Sub 34607111 M := by exact ‹Sub _ M›.of rfl) :
    Keeps M s0 t' := by
  have g : Keeps M s0 (putEntries j chan a0 a1 s).2.2 := by
    with_reducible apply putEntries_keeps <;> assumption
  rw [he] at g
  exact g

theorem releaseIu_keeps {M : Nat} {s0 : State} (chan iu : Nat) (aggs : List (Nat × Word)) (cnt : ScanCnt) (r : ScanRun) {s : State} (hk : Keeps M s0 s) (hM : Sub 33 M := by exact ‹Sub _ M›.of rfl) :
    Keeps M s0 (releaseIu chan iu aggs cnt r s).2 := by
  unfold releaseIu
  try dsimp only
  repeat' (with_reducible first | assumption | exact hM.of rfl | apply Keeps.refl | apply keeps_ite | apply cntAdd_keeps | apply raiseEvent_keeps)

theorem releaseIu_keeps_eq {M : Nat} {s0 : State} {chan iu : Nat} {aggs : List (Nat × Word)} {cnt : ScanCnt} {r : ScanRun} {s : State} {v0} {t' : State} (he : releaseIu chan iu aggs cnt r s = (v0, t')) (hk : Keeps M s0 s) (hM : Sub 33 M := by exact ‹Sub _ M›.of rfl) :
    Keeps M s0 t' := by
  have g : Keeps M s0 (releaseIu chan iu aggs cnt r s).2 := by
    with_reducible apply releaseIu_keeps <;> assumption
  rw [he] at g
  exact g

theorem stopScan_keeps {M : Nat} {s0 : State} (j : ScanJob) (status : Nat) {s : State} (hk : Keeps M s0 s) (hM : Sub 33281 M := by exact ‹Sub _ M›.of rfl) :
    Keeps M s0 (stopScan j status s) := by
  unfold stopScan
  try dsimp only
  repeat' (with_reducible first | assumption | exact hM.of rfl | apply Keeps.refl | apply keeps_ite | apply dropScanReads_keeps | apply fset_keeps | apply setScan_keeps | apply forEach_keeps | split | intro _)

theorem onPath_keeps {M : Nat} {s0 : State} (r : ScanRun) (chan : Nat) (on : Bool) {s : State} (hk : Keeps M s0 s) (hM : Sub 1 M := by exact ‹Sub _ M›.of rfl) :
    Keeps M s0 (onPath r chan on s) := by
  unfold onPath
  try dsimp only
  repeat' (with_reducible first | assumption | exact hM.of rfl | apply Keeps.refl | apply keeps_ite | apply fset_keeps | split | intro _)

theorem evalUnit_keeps {M : Nat} {s0 : State} (j : ScanJob) (r : ScanRun) (iu chan : Nat) (src : Option (List Byte)) (late : Bool) (c0 : ScanCnt) {s : State} (hk : Keeps M s0 s) (hM : Sub 34648615 M := by exact ‹Sub _ M›.of rfl) :
    Keeps M s0 (evalUnit j r iu chan src late c0 s) := by
  unfold evalUnit
  try dsimp only
  repeat' (with_reducible first | assumption | exact hM.of rfl | apply Keeps.refl | apply keeps_ite | apply cntAdd_keeps | refine evalRecords_keeps_eq (by assumption) ?_ | apply evalRecords_keeps | apply fset_keeps | apply onPath_keeps | refine putEntries_keeps_eq (by assumption) ?_ | apply putEntries_keeps | apply raiseEvent_keeps | refine releaseIu_keeps_eq (by assumption) ?_ | apply releaseIu_keeps | apply setScan_keeps | apply stopScan_keeps | apply useFree_keeps | split | intro _)

theorem execScanIuEvaluate_keeps {M : Nat} {s0 : State} (num iu via : Nat) {s : State} (hk : Keeps M s0 s) (hM : Sub 34648615 M := by exact ‹Sub _ M›.of rfl) :
    OutKeeps M s0 (execScanIuEvaluate num iu via s) := by
  unfold execScanIuEvaluate
  try dsimp only
  repeat' (with_reducible first | assumption | exact hM.of rfl | apply Keeps.refl | apply outKeeps_ite | apply keeps_ite | apply OutKeeps.next | apply evalUnit_keeps | apply raiseEvent_keeps | apply scanWalk_keeps | apply setScan_keeps | apply stopScan_keeps | split | intro _)

theorem execOutputRingSpace_keeps {M : Nat} {s0 : State} (num chan : Nat) {s : State} (hk : Keeps M s0 s) (hM : Sub 34640423 M := by exact ‹Sub _ M›.of rfl) :
    OutKeeps M s0 (execOutputRingSpace num chan s) := by
  unfold execOutputRingSpace
  try dsimp only
  repeat' (with_reducible first | assumption | exact hM.of rfl | apply Keeps.refl | apply outKeeps_ite | apply keeps_ite | apply OutKeeps.next | apply fset_keeps | apply onPath_keeps | refine putEntries_keeps_eq (by assumption) ?_ | apply putEntries_keeps | refine releaseIu_keeps_eq (by assumption) ?_ | apply releaseIu_keeps | apply scanWalk_keeps | apply setScan_keeps | split | intro _)

theorem execScanTimeLimit_keeps {M : Nat} {s0 : State} (num : Nat) {s : State} (hk : Keeps M s0 s) (hM : Sub 33281 M := by exact ‹Sub _ M›.of rfl) :
    OutKeeps M s0 (execScanTimeLimit num s) := by
  unfold execScanTimeLimit
  try dsimp only
  repeat' (with_reducible first | assumption | exact hM.of rfl | apply Keeps.refl | apply outKeeps_ite | apply keeps_ite | apply OutKeeps.next | apply stopScan_keeps | split)

theorem scanAbortCtx_keeps {M : Nat} {s0 : State} (chan mask : Nat) {s : State} (hk : Keeps M s0 s) (hM : Sub 33313 M := by exact ‹Sub _ M›.of rfl) :
    Keeps M s0 (scanAbortCtx chan mask s) := by
  unfold scanAbortCtx
  try dsimp only
  repeat' (with_reducible first | assumption | exact hM.of rfl | apply Keeps.refl | apply keeps_ite | apply forEach_keeps | apply raiseEvent_keeps | apply stopScan_keeps | apply forEach_keeps | split | intro _)

theorem execScanContextAbort_keeps {M : Nat} {s0 : State} (chan mask req : Nat) {s : State} (hk : Keeps M s0 s) (hM : Sub 33313 M := by exact ‹Sub _ M›.of rfl) :
    OutKeeps M s0 (execScanContextAbort chan mask req s) := by
  unfold execScanContextAbort
  try dsimp only
  repeat' (with_reducible first | assumption | exact hM.of rfl | apply Keeps.refl | apply outKeeps_ite | apply keeps_ite | apply OutKeeps.next | apply busError_keeps | apply scanAbortCtx_keeps)

theorem execScanJobComplete_keeps {M : Nat} {s0 : State} (num : Nat) {s : State} (hk : Keeps M s0 s) (hM : Sub 38834855 M := by exact ‹Sub _ M›.of rfl) :
    OutKeeps M s0 (execScanJobComplete num s) := by
  unfold execScanJobComplete
  try dsimp only
  repeat' (with_reducible first | assumption | exact hM.of rfl | apply Keeps.refl | apply outKeeps_ite | apply keeps_ite | apply OutKeeps.next | apply scanEnd_keeps | split)

end Sys2Proof.Machine
end

