-- ==== Sys2Proof/Laws/KeepWindowOps.lean ====
section
/-! SUPPORT. Every operation of Machine/WindowOps.lean leaves what `Keeps` says. -/

set_option Elab.async false

namespace Sys2Proof.Machine

theorem evictPage_keeps {M : Nat} {s0 : State} (f : Nat) {s : State} (hk : Keeps M s0 s) (hM : Sub 2048 M := by exact ‹Sub _ M›.of rfl) :
    Keeps M s0 (evictPage f s) := by
  unfold evictPage
  try dsimp only
  repeat' (with_reducible first | assumption | exact hM.of rfl | apply Keeps.refl | apply keeps_ite | split | apply Keeps.upd_prog)

theorem touchPage_keeps {M : Nat} {s0 : State} (g g' : StagePage) {s : State} (hk : Keeps M s0 s) (hM : Sub 2048 M := by exact ‹Sub _ M›.of rfl) :
    Keeps M s0 (touchPage g g' s) := by
  unfold touchPage
  try dsimp only
  repeat' (with_reducible first | assumption | exact hM.of rfl | apply Keeps.refl | apply keeps_ite | split | apply Keeps.upd_prog)

theorem stagePage_keeps {M : Nat} {s0 : State} (g : StagePage) {s : State} (hk : Keeps M s0 s) (hM : Sub 2048 M := by exact ‹Sub _ M›.of rfl) :
    Keeps M s0 (stagePage g s) := by
  unfold stagePage
  try dsimp only
  repeat' (with_reducible first | assumption | exact hM.of rfl | apply Keeps.refl | apply keeps_ite | apply evictPage_keeps | split | apply Keeps.upd_prog)

theorem cancelChanRead_keeps {M : Nat} {s0 : State} (h : Nat) {s : State} (hk : Keeps M s0 s) (hM : Sub 513 M := by exact ‹Sub _ M›.of rfl) :
    Keeps M s0 (cancelChanRead h s) := by
  unfold cancelChanRead
  try dsimp only
  repeat' (with_reducible first | assumption | exact hM.of rfl | apply Keeps.refl | apply keeps_ite | apply setChan_keeps | apply forEach_keeps | split | intro _)

theorem dropRead_keeps {M : Nat} {s0 : State} (r : ReadEntry) {s : State} (hk : Keeps M s0 s) (hM : Sub 262657 M := by exact ‹Sub _ M›.of rfl) :
    Keeps M s0 (dropRead r s) := by
  unfold dropRead
  try dsimp only
  repeat' (with_reducible first | assumption | exact hM.of rfl | apply Keeps.refl | apply keeps_ite | apply cancelChanRead_keeps | apply prdEnded_keeps | apply showSch_keeps | apply updSch_keeps)

theorem cancelPreReads_keeps {M : Nat} {s0 : State} (p : ReadEntry → Bool) {s : State} (hk : Keeps M s0 s) (hM : Sub 262657 M := by exact ‹Sub _ M›.of rfl) :
    Keeps M s0 (cancelPreReads p s) := by
  unfold cancelPreReads
  try dsimp only
  repeat' (with_reducible first | assumption | exact hM.of rfl | apply Keeps.refl | apply keeps_ite | apply dropRead_keeps | apply forEach_keeps | apply forEach_keeps | split | intro _)

theorem endOwnerCmd_keeps {M : Nat} {s0 : State} (req : Nat) {s : State} (hk : Keeps M s0 s) (hM : Sub 264737 M := by exact ‹Sub _ M›.of rfl) :
    Keeps M s0 (endOwnerCmd req s) := by
  unfold endOwnerCmd
  try dsimp only
  repeat' (with_reducible first | assumption | exact hM.of rfl | apply Keeps.refl | apply keeps_ite | apply cancelPreReads_keeps | apply dropPages_keeps | apply routeCmd_keeps | split | intro _)

theorem execEndOwner_keeps {M : Nat} {s0 : State} (req : Nat) {s : State} (hk : Keeps M s0 s) (hM : Sub 264737 M := by exact ‹Sub _ M›.of rfl) :
    OutKeeps M s0 (execEndOwner req s) := by
  unfold execEndOwner
  try dsimp only
  repeat' (with_reducible first | assumption | exact hM.of rfl | apply Keeps.refl | apply outKeeps_ite | apply keeps_ite | apply OutKeeps.next | apply endOwnerCmd_keeps | split | intro _)

theorem newRead_keeps {M : Nat} {s0 : State} (f nsid iu : Nat) (pre : Bool) (letters : List Nat) (core : Nat) (episode : Option Nat) (exec : Nat) {s : State} (hk : Keeps M s0 s) (hM : Sub 262145 M := by exact ‹Sub _ M›.of rfl) :
    Keeps M s0 (newRead f nsid iu pre letters core episode exec s) := by
  unfold newRead
  try dsimp only
  repeat' (with_reducible first | assumption | exact hM.of rfl | apply Keeps.refl | apply keeps_ite | apply showSch_keeps | apply updSch_keeps)

theorem demandRead_keeps {M : Nat} {s0 : State} (f nsid iu : Nat) (letters : List Nat) {s : State} (hk : Keeps M s0 s) (hM : Sub 262657 M := by exact ‹Sub _ M›.of rfl) :
    Keeps M s0 (demandRead f nsid iu letters s) := by
  unfold demandRead
  try dsimp only
  repeat' (with_reducible first | assumption | exact hM.of rfl | apply Keeps.refl | apply keeps_ite | apply dropRead_keeps | apply forEach_keeps | apply newRead_keeps | apply prdEnded_keeps | apply setChan_keeps | apply showSch_keeps | apply updRead_keeps | apply forEach_keeps | split | intro _)

theorem preRead_keeps {M : Nat} {s0 : State} (f nsid iu core : Nat) (episode : Option Nat) (exec : Nat) {s : State} (hk : Keeps M s0 s) (hM : Sub 262145 M := by exact ‹Sub _ M›.of rfl) :
    Keeps M s0 (preRead f nsid iu core episode exec s) := by
  unfold preRead
  try dsimp only
  repeat' (with_reducible first | assumption | exact hM.of rfl | apply Keeps.refl | apply keeps_ite | apply newRead_keeps | apply prdEnded_keeps)

theorem sendRead_keeps {M : Nat} {s0 : State} (h : Nat) {s : State} (hk : Keeps M s0 s) (hM : Sub 262657 M := by exact ‹Sub _ M›.of rfl) :
    Keeps M s0 (sendRead h s) := by
  unfold sendRead
  try dsimp only
  repeat' (with_reducible first | assumption | exact hM.of rfl | apply Keeps.refl | apply keeps_ite | apply pushOp_keeps | apply updRead_keeps | split | intro _)

theorem suspendLetter_keeps {M : Nat} {s0 : State} (k : Nat) {s : State} (hk : Keeps M s0 s) (hM : Sub 788485 M := by exact ‹Sub _ M›.of rfl) :
    Keeps M s0 (suspendLetter k s) := by
  unfold suspendLetter
  try dsimp only
  repeat' (with_reducible first | assumption | exact hM.of rfl | apply Keeps.refl | apply keeps_ite | apply leaveLetter_keeps | apply setLetter_keeps | apply showSch_keeps | apply updSch_keeps | split | apply Keeps.upd_prog)

theorem readyAgain_keeps {M : Nat} {s0 : State} (ids : List Nat) {s : State} (hk : Keeps M s0 s) (hM : Sub 264225 M := by exact ‹Sub _ M›.of rfl) :
    Keeps M s0 (readyAgain ids s) := by
  unfold readyAgain
  try dsimp only
  repeat' (with_reducible first | assumption | exact hM.of rfl | apply Keeps.refl | apply keeps_ite | apply setLetter_keeps | apply settleSch_keeps | apply forEach_keeps | split | intro _)

theorem winWait_keeps {M : Nat} {s0 : State} (k f nsid iu : Nat) {s : State} (hk : Keeps M s0 s) (hM : Sub 788997 M := by exact ‹Sub _ M›.of rfl) :
    Keeps M s0 (winWait k f nsid iu s).2 := by
  unfold winWait
  try dsimp only
  repeat' (with_reducible first | assumption | exact hM.of rfl | apply Keeps.refl | apply keeps_ite | apply demandRead_keeps | apply suspendLetter_keeps | split)

theorem winWait_keeps_eq {M : Nat} {s0 : State} {k f nsid iu : Nat} {s : State} {v0} {t' : State} (he : winWait k f nsid iu s = (v0, t')) (hk : Keeps M s0 s) (hM : Sub 788997 M := by exact ‹Sub _ M›.of rfl) :
    Keeps M s0 t' := by
  have g : Keeps M s0 (winWait k f nsid iu s).2 := by
    with_reducible apply winWait_keeps <;> assumption
  rw [he] at g
  exact g

theorem windowLoad_keeps {M : Nat} {s0 : State} (k ea n : Nat) {s : State} (hk : Keeps M s0 s) (hM : Sub 788997 M := by exact ‹Sub _ M›.of rfl) :
    Keeps M s0 (windowLoad k ea n s).2 := by
  unfold windowLoad
  try dsimp only
  repeat' (with_reducible first | assumption | exact hM.of rfl | apply Keeps.refl | apply keeps_ite | apply cntAdd_keeps | apply evictPage_keeps | apply prdEnded_keeps | apply stagePage_keeps | apply touchPage_keeps | refine winWait_keeps_eq (by assumption) ?_ | apply winWait_keeps | split | apply Keeps.upd_prog | intro _)

theorem windowLoad_keeps_eq {M : Nat} {s0 : State} {k ea n : Nat} {s : State} {v0} {t' : State} (he : windowLoad k ea n s = (v0, t')) (hk : Keeps M s0 s) (hM : Sub 788997 M := by exact ‹Sub _ M›.of rfl) :
    Keeps M s0 t' := by
  have g : Keeps M s0 (windowLoad k ea n s).2 := by
    with_reducible apply windowLoad_keeps <;> assumption
  rw [he] at g
  exact g

theorem aheadLoad_keeps {M : Nat} {s0 : State} (k ea : Nat) {s : State} (hk : Keeps M s0 s) (hM : Sub 786433 M := by exact ‹Sub _ M›.of rfl) :
    Keeps M s0 (aheadLoad k ea s) := by
  unfold aheadLoad
  try dsimp only
  repeat' (with_reducible first | assumption | exact hM.of rfl | apply Keeps.refl | apply keeps_ite | apply preRead_keeps | split | apply Keeps.upd_cores | intro _)

theorem prdHint_keeps {M : Nat} {s0 : State} (k ea : Nat) {s : State} (hk : Keeps M s0 s) (hM : Sub 262145 M := by exact ‹Sub _ M›.of rfl) :
    Keeps M s0 (prdHint k ea s) := by
  unfold prdHint
  try dsimp only
  repeat' (with_reducible first | assumption | exact hM.of rfl | apply Keeps.refl | apply keeps_ite | apply preRead_keeps | split)

theorem execWindowLoad_keeps {M : Nat} {s0 : State} (k ea : Nat) {s : State} (hk : Keeps M s0 s) (hM : Sub 4983525 M := by exact ‹Sub _ M›.of rfl) :
    OutKeeps M s0 (execWindowLoad k ea s) := by
  unfold execWindowLoad
  try dsimp only
  repeat' (with_reducible first | assumption | exact hM.of rfl | apply Keeps.refl | apply outKeeps_ite | apply keeps_ite | apply OutKeeps.next | apply aheadLoad_keeps | apply takeTrap_keeps | apply useFree_keeps | refine windowLoad_keeps_eq (by assumption) ?_ | apply windowLoad_keeps | split)

theorem execWindowPageStaged_keeps {M : Nat} {s0 : State} (h : Nat) {s : State} (hk : Keeps M s0 s) (hM : Sub 264225 M := by exact ‹Sub _ M›.of rfl) :
    OutKeeps M s0 (execWindowPageStaged h s) := by
  unfold execWindowPageStaged
  try dsimp only
  repeat' (with_reducible first | assumption | exact hM.of rfl | apply Keeps.refl | apply outKeeps_ite | apply keeps_ite | apply OutKeeps.next | apply readyAgain_keeps | apply stagePage_keeps | apply updSch_keeps | split | intro _)

theorem execPreReadStaged_keeps {M : Nat} {s0 : State} (chan die : Nat) (ok : Bool) {s : State} (hk : Keeps M s0 s) (hM : Sub 264705 M := by exact ‹Sub _ M›.of rfl) :
    OutKeeps M s0 (execPreReadStaged chan die ok s) := by
  unfold execPreReadStaged
  try dsimp only
  repeat' (with_reducible first | assumption | exact hM.of rfl | apply Keeps.refl | apply outKeeps_ite | apply keeps_ite | apply OutKeeps.next | apply preReadLost_keeps | apply setChan_keeps | apply showSch_keeps | apply updSch_keeps | apply windowArrived_keeps | split | apply Keeps.upd_prog | intro _)

theorem execPreReadDispatchTimeout_keeps {M : Nat} {s0 : State} (h : Nat) {s : State} (hk : Keeps M s0 s) (hM : Sub 262657 M := by exact ‹Sub _ M›.of rfl) :
    OutKeeps M s0 (execPreReadDispatchTimeout h s) := by
  unfold execPreReadDispatchTimeout
  try dsimp only
  repeat' (with_reducible first | assumption | exact hM.of rfl | apply Keeps.refl | apply outKeeps_ite | apply keeps_ite | apply OutKeeps.next | apply dropRead_keeps | split)

theorem execPreStagedExpiry_keeps {M : Nat} {s0 : State} (f nsid iu : Nat) {s : State} (hk : Keeps M s0 s) (hM : Sub 2049 M := by exact ‹Sub _ M›.of rfl) :
    OutKeeps M s0 (execPreStagedExpiry f nsid iu s) := by
  unfold execPreStagedExpiry
  try dsimp only
  repeat' (with_reducible first | assumption | exact hM.of rfl | apply Keeps.refl | apply outKeeps_ite | apply keeps_ite | apply OutKeeps.next | apply dropPages_keeps)

theorem execRunAheadEntry_keeps {M : Nat} {s0 : State} (k a : Nat) {s : State} (hk : Keeps M s0 s) (hM : Sub 524289 M := by exact ‹Sub _ M›.of rfl) :
    OutKeeps M s0 (execRunAheadEntry k a s) := by
  unfold execRunAheadEntry
  try dsimp only
  repeat' (with_reducible first | assumption | exact hM.of rfl | apply Keeps.refl | apply outKeeps_ite | apply keeps_ite | apply OutKeeps.next | apply setCore_keeps | split | intro _)

theorem execRunAheadExit_keeps {M : Nat} {s0 : State} (k cycles : Nat) (fault : Bool) {s : State} (hk : Keeps M s0 s) (hM : Sub 788993 M := by exact ‹Sub _ M›.of rfl) :
    OutKeeps M s0 (execRunAheadExit k cycles fault s) := by
  unfold execRunAheadExit
  try dsimp only
  repeat' (with_reducible first | assumption | exact hM.of rfl | apply Keeps.refl | apply outKeeps_ite | apply keeps_ite | apply OutKeeps.next | apply cancelPreReads_keeps | apply dropPages_keeps | apply leaveAhead_keeps | split | intro _)

theorem unmapWindow_keeps {M : Nat} {s0 : State} (e w : Nat) {s : State} (hk : Keeps M s0 s) (hM : Sub 264737 M := by exact ‹Sub _ M›.of rfl) :
    Keeps M s0 (unmapWindow e w s) := by
  unfold unmapWindow
  try dsimp only
  repeat' (with_reducible first | assumption | exact hM.of rfl | apply Keeps.refl | apply keeps_ite | apply dropPages_keeps | apply dropRead_keeps | apply forEach_keeps | apply readyAgain_keeps | apply forEach_keeps | split | apply Keeps.upd_prog | intro _)

theorem unmapNs_keeps {M : Nat} {s0 : State} (nsid : Nat) {s : State} (hk : Keeps M s0 s) (hM : Sub 264737 M := by exact ‹Sub _ M›.of rfl) :
    Keeps M s0 (unmapNs nsid s) := by
  unfold unmapNs
  try dsimp only
  repeat' (with_reducible first | assumption | exact hM.of rfl | apply Keeps.refl | apply keeps_ite | apply forEach_keeps | apply unmapWindow_keeps | apply forEach_keeps | split | intro _)

theorem mapWindow_keeps {M : Nat} {s0 : State} (e nsid slba nlb : Nat) {s : State} (hk : Keeps M s0 s) (hM : Sub 2048 M := by exact ‹Sub _ M›.of rfl) :
    Keeps M s0 (mapWindow e nsid slba nlb s).2.2 := by
  unfold mapWindow
  try dsimp only
  repeat' (with_reducible first | assumption | exact hM.of rfl | apply Keeps.refl | apply keeps_ite | split | apply Keeps.upd_prog)

theorem mapWindow_keeps_eq {M : Nat} {s0 : State} {e nsid slba nlb : Nat} {s : State} {v0} {v1} {t' : State} (he : mapWindow e nsid slba nlb s = (v0, v1, t')) (hk : Keeps M s0 s) (hM : Sub 2048 M := by exact ‹Sub _ M›.of rfl) :
    Keeps M s0 t' := by
  have g : Keeps M s0 (mapWindow e nsid slba nlb s).2.2 := by
    with_reducible apply mapWindow_keeps <;> assumption
  rw [he] at g
  exact g

theorem execWmap_keeps {M : Nat} {s0 : State} (k : Nat) {s : State} (hk : Keeps M s0 s) (hM : Sub 526337 M := by exact ‹Sub _ M›.of rfl) :
    OutKeeps M s0 (execWmap k s) := by
  unfold execWmap
  try dsimp only
  repeat' (with_reducible first | assumption | exact hM.of rfl | apply Keeps.refl | apply outKeeps_ite | apply keeps_ite | apply OutKeeps.next | refine mapWindow_keeps_eq (by assumption) ?_ | apply mapWindow_keeps | apply svAnswer_keeps | split)

theorem execWunmap_keeps {M : Nat} {s0 : State} (k : Nat) {s : State} (hk : Keeps M s0 s) (hM : Sub 789025 M := by exact ‹Sub _ M›.of rfl) :
    OutKeeps M s0 (execWunmap k s) := by
  unfold execWunmap
  try dsimp only
  repeat' (with_reducible first | assumption | exact hM.of rfl | apply Keeps.refl | apply outKeeps_ite | apply keeps_ite | apply OutKeeps.next | apply svAnswer_keeps | apply unmapWindow_keeps | split | apply Keeps.upd_prog)

end Sys2Proof.Machine
end

