-- ==== Sys2Proof/Laws/KeepClusterOps.lean ====
section
/-! SUPPORT. Every operation of Machine/ClusterOps.lean leaves what `Keeps` says. -/

set_option Elab.async false

namespace Sys2Proof.Machine

theorem cleanLines_keeps {M : Nat} {s0 : State} (n : Nat) (p : Nat → Bool) {s : State} (hk : Keeps M s0 s) (hM : Sub 33554432 M := by exact ‹Sub _ M›.of rfl) :
    Keeps M s0 (cleanLines n p s) := by
  unfold cleanLines
  try dsimp only
  repeat' (with_reducible first | assumption | exact hM.of rfl | apply Keeps.refl | apply keeps_ite | split | apply Keeps.upd_dirty)

theorem loseLine_keeps {M : Nat} {s0 : State} (l : Nat) {s : State} (hk : Keeps M s0 s) (hM : Sub 33554434 M := by exact ‹Sub _ M›.of rfl) :
    Keeps M s0 (loseLine l s) := by
  unfold loseLine
  try dsimp only
  repeat' (with_reducible first | assumption | exact hM.of rfl | apply Keeps.refl | apply keeps_ite | apply wrBytes_keeps | split)

theorem discardLine_keeps {M : Nat} {s0 : State} (n l : Nat) {s : State} (hk : Keeps M s0 s) (hM : Sub 33554438 M := by exact ‹Sub _ M›.of rfl) :
    Keeps M s0 (discardLine n l s) := by
  unfold discardLine
  try dsimp only
  repeat' (with_reducible first | assumption | exact hM.of rfl | apply Keeps.refl | apply keeps_ite | apply loseLine_keeps | apply useFree_keeps | split | apply Keeps.upd_dirty)

theorem discardLines_keeps {M : Nat} {s0 : State} (n : Nat) (p : Nat → Bool) {s : State} (hk : Keeps M s0 s) (hM : Sub 33554438 M := by exact ‹Sub _ M›.of rfl) :
    Keeps M s0 (discardLines n p s) := by
  unfold discardLines
  try dsimp only
  repeat' (with_reducible first | assumption | exact hM.of rfl | apply Keeps.refl | apply keeps_ite | apply discardLine_keeps | apply forEach_keeps | apply forEach_keeps | split | intro _)

theorem cacheCtrl_keeps {M : Nat} {s0 : State} (n v req : Nat) {s : State} (hk : Keeps M s0 s) (hM : Sub 34603041 M := by exact ‹Sub _ M›.of rfl) :
    Keeps M s0 (cacheCtrl n v req s) := by
  unfold cacheCtrl
  try dsimp only
  repeat' (with_reducible first | assumption | exact hM.of rfl | apply Keeps.refl | apply keeps_ite | apply cleanLines_keeps | apply fset_keeps | apply updClus_keeps | apply writeIgnored_keeps | split | intro _)

theorem execCacheEnableWrite_keeps {M : Nat} {s0 : State} (n v req : Nat) {s : State} (hk : Keeps M s0 s) (hM : Sub 34603041 M := by exact ‹Sub _ M›.of rfl) :
    OutKeeps M s0 (execCacheEnableWrite n v req s) := by
  unfold execCacheEnableWrite
  try dsimp only
  repeat' (with_reducible first | assumption | exact hM.of rfl | apply Keeps.refl | apply outKeeps_ite | apply keeps_ite | apply OutKeeps.next | apply busError_keeps | apply cacheCtrl_keeps)

theorem wayLock_keeps {M : Nat} {s0 : State} (n v req : Nat) {s : State} (hk : Keeps M s0 s) (hM : Sub 1048609 M := by exact ‹Sub _ M›.of rfl) :
    Keeps M s0 (wayLock n v req s) := by
  unfold wayLock
  try dsimp only
  repeat' (with_reducible first | assumption | exact hM.of rfl | apply Keeps.refl | apply keeps_ite | apply fset_keeps | apply updClus_keeps | apply writeIgnored_keeps)

theorem execWayLockWrite_keeps {M : Nat} {s0 : State} (n v req : Nat) {s : State} (hk : Keeps M s0 s) (hM : Sub 1048609 M := by exact ‹Sub _ M›.of rfl) :
    OutKeeps M s0 (execWayLockWrite n v req s) := by
  unfold execWayLockWrite
  try dsimp only
  repeat' (with_reducible first | assumption | exact hM.of rfl | apply Keeps.refl | apply outKeeps_ite | apply keeps_ite | apply OutKeeps.next | apply busError_keeps | apply wayLock_keeps)

theorem dropLocked_keeps {M : Nat} {s0 : State} (n a k : Nat) {s : State} (hk : Keeps M s0 s) (hM : Sub 1048609 M := by exact ‹Sub _ M›.of rfl) :
    Keeps M s0 (dropLocked n a k s) := by
  unfold dropLocked
  try dsimp only
  repeat' (with_reducible first | assumption | exact hM.of rfl | apply Keeps.refl | apply keeps_ite | apply cntAdd_keeps | apply fset_keeps | apply raiseEvent_keeps | apply updClus_keeps)

theorem lockFill_keeps {M : Nat} {s0 : State} (n l : Nat) {s : State} (hk : Keeps M s0 s) (hM : Sub 1048577 M := by exact ‹Sub _ M›.of rfl) :
    Keeps M s0 (lockFill n l s) := by
  unfold lockFill
  try dsimp only
  repeat' (with_reducible first | assumption | exact hM.of rfl | apply Keeps.refl | apply keeps_ite | apply fset_keeps | apply updClus_keeps | split)

theorem cmoEffect_keeps {M : Nat} {s0 : State} (n op : Nat) {s : State} (hk : Keeps M s0 s) (hM : Sub 34603047 M := by exact ‹Sub _ M›.of rfl) :
    Keeps M s0 (cmoEffect n op s) := by
  unfold cmoEffect
  try dsimp only
  repeat' (with_reducible first | assumption | exact hM.of rfl | apply Keeps.refl | apply keeps_ite | apply cleanLines_keeps | apply discardLines_keeps | apply dropLocked_keeps | apply forEach_keeps | apply lockFill_keeps | apply updClus_keeps | apply forEach_keeps | split | intro _)

theorem cmoStart_keeps {M : Nat} {s0 : State} (n op req : Nat) {s : State} (hk : Keeps M s0 s) (hM : Sub 34603047 M := by exact ‹Sub _ M›.of rfl) :
    Keeps M s0 (cmoStart n op req s) := by
  unfold cmoStart
  try dsimp only
  repeat' (with_reducible first | assumption | exact hM.of rfl | apply Keeps.refl | apply keeps_ite | apply cmoEffect_keeps | apply fset_keeps | apply updClus_keeps | apply writeIgnored_keeps)

theorem cmoRow_keeps {M : Nat} {s0 : State} (op n req : Nat) {s : State} (hk : Keeps M s0 s) (hM : Sub 34603047 M := by exact ‹Sub _ M›.of rfl) :
    OutKeeps M s0 (cmoRow op n req s) := by
  unfold cmoRow
  try dsimp only
  repeat' (with_reducible first | assumption | exact hM.of rfl | apply Keeps.refl | apply outKeeps_ite | apply keeps_ite | apply OutKeeps.next | apply busError_keeps | apply cmoStart_keeps)

theorem execInvAll_keeps {M : Nat} {s0 : State} (n req : Nat) {s : State} (hk : Keeps M s0 s) (hM : Sub 34603047 M := by exact ‹Sub _ M›.of rfl) :
    OutKeeps M s0 (execInvAll n req s) := by
  unfold execInvAll
  try dsimp only
  repeat' (with_reducible first | assumption | exact hM.of rfl | apply Keeps.refl | apply outKeeps_ite | apply keeps_ite | apply OutKeeps.next | apply cmoRow_keeps)

theorem execCleanAll_keeps {M : Nat} {s0 : State} (n req : Nat) {s : State} (hk : Keeps M s0 s) (hM : Sub 34603047 M := by exact ‹Sub _ M›.of rfl) :
    OutKeeps M s0 (execCleanAll n req s) := by
  unfold execCleanAll
  try dsimp only
  repeat' (with_reducible first | assumption | exact hM.of rfl | apply Keeps.refl | apply outKeeps_ite | apply keeps_ite | apply OutKeeps.next | apply cmoRow_keeps)

theorem execCleanInvAll_keeps {M : Nat} {s0 : State} (n req : Nat) {s : State} (hk : Keeps M s0 s) (hM : Sub 34603047 M := by exact ‹Sub _ M›.of rfl) :
    OutKeeps M s0 (execCleanInvAll n req s) := by
  unfold execCleanInvAll
  try dsimp only
  repeat' (with_reducible first | assumption | exact hM.of rfl | apply Keeps.refl | apply outKeeps_ite | apply keeps_ite | apply OutKeeps.next | apply cmoRow_keeps)

theorem execInvRange_keeps {M : Nat} {s0 : State} (n req : Nat) {s : State} (hk : Keeps M s0 s) (hM : Sub 34603047 M := by exact ‹Sub _ M›.of rfl) :
    OutKeeps M s0 (execInvRange n req s) := by
  unfold execInvRange
  try dsimp only
  repeat' (with_reducible first | assumption | exact hM.of rfl | apply Keeps.refl | apply outKeeps_ite | apply keeps_ite | apply OutKeeps.next | apply cmoRow_keeps)

theorem execCleanRange_keeps {M : Nat} {s0 : State} (n req : Nat) {s : State} (hk : Keeps M s0 s) (hM : Sub 34603047 M := by exact ‹Sub _ M›.of rfl) :
    OutKeeps M s0 (execCleanRange n req s) := by
  unfold execCleanRange
  try dsimp only
  repeat' (with_reducible first | assumption | exact hM.of rfl | apply Keeps.refl | apply outKeeps_ite | apply keeps_ite | apply OutKeeps.next | apply cmoRow_keeps)

theorem execCleanInvRange_keeps {M : Nat} {s0 : State} (n req : Nat) {s : State} (hk : Keeps M s0 s) (hM : Sub 34603047 M := by exact ‹Sub _ M›.of rfl) :
    OutKeeps M s0 (execCleanInvRange n req s) := by
  unfold execCleanInvRange
  try dsimp only
  repeat' (with_reducible first | assumption | exact hM.of rfl | apply Keeps.refl | apply outKeeps_ite | apply keeps_ite | apply OutKeeps.next | apply cmoRow_keeps)

theorem execIinvRange_keeps {M : Nat} {s0 : State} (n req : Nat) {s : State} (hk : Keeps M s0 s) (hM : Sub 34603047 M := by exact ‹Sub _ M›.of rfl) :
    OutKeeps M s0 (execIinvRange n req s) := by
  unfold execIinvRange
  try dsimp only
  repeat' (with_reducible first | assumption | exact hM.of rfl | apply Keeps.refl | apply outKeeps_ite | apply keeps_ite | apply OutKeeps.next | apply cmoRow_keeps)

theorem execLockFillRange_keeps {M : Nat} {s0 : State} (n req : Nat) {s : State} (hk : Keeps M s0 s) (hM : Sub 34603047 M := by exact ‹Sub _ M›.of rfl) :
    OutKeeps M s0 (execLockFillRange n req s) := by
  unfold execLockFillRange
  try dsimp only
  repeat' (with_reducible first | assumption | exact hM.of rfl | apply Keeps.refl | apply outKeeps_ite | apply keeps_ite | apply OutKeeps.next | apply cmoRow_keeps)

theorem execCmoDone_keeps {M : Nat} {s0 : State} (n : Nat) {s : State} (hk : Keeps M s0 s) (hM : Sub 1048577 M := by exact ‹Sub _ M›.of rfl) :
    OutKeeps M s0 (execCmoDone n s) := by
  unfold execCmoDone
  try dsimp only
  repeat' (with_reducible first | assumption | exact hM.of rfl | apply Keeps.refl | apply outKeeps_ite | apply keeps_ite | apply OutKeeps.next | apply fset_keeps | apply updClus_keeps)

theorem endLettersOn_keeps {M : Nat} {s0 : State} (n reason : Nat) {s : State} (hk : Keeps M s0 s) (hM : Sub 264225 M := by exact ‹Sub _ M›.of rfl) :
    Keeps M s0 (endLettersOn n reason s) := by
  unfold endLettersOn
  try dsimp only
  repeat' (with_reducible first | assumption | exact hM.of rfl | apply Keeps.refl | apply keeps_ite | apply endLetters_keeps | apply forEach_keeps | apply recordEnd_keeps | apply forEach_keeps | split | apply Keeps.upd_prog | intro _)

theorem clusClear_keeps {M : Nat} {s0 : State} (n : Nat) {s : State} (hk : Keeps M s0 s) (hM : Sub 1572865 M := by exact ‹Sub _ M›.of rfl) :
    Keeps M s0 (clusClear n s) := by
  unfold clusClear
  try dsimp only
  repeat' (with_reducible first | assumption | exact hM.of rfl | apply Keeps.refl | apply keeps_ite | apply clearPoints_keeps | apply clearRegs_keeps | apply coreReset_keeps | apply forN_keeps | apply fset_keeps | apply keepClusCounts_keeps | apply updClus_keeps | apply forN_keeps | split | intro _)

theorem clusRetire_keeps {M : Nat} {s0 : State} (n : Nat) {s : State} (hk : Keeps M s0 s) (hM : Sub 35392673 M := by exact ‹Sub _ M›.of rfl) :
    Keeps M s0 (clusRetire n s) := by
  unfold clusRetire
  try dsimp only
  repeat' (with_reducible first | assumption | exact hM.of rfl | apply Keeps.refl | apply keeps_ite | apply cleanLines_keeps | apply clusClear_keeps | apply endLettersOn_keeps | apply fset_keeps | apply maskRetire_keeps | apply raiseEvent_keeps | apply retireDomain_keeps | apply settleSch_keeps)

theorem clusterResetWith_keeps {M : Nat} {s0 : State} (n reason : Nat) (selfTest : Bool) {s : State} (hk : Keeps M s0 s) (hM : Sub 35393189 M := by exact ‹Sub _ M›.of rfl) :
    Keeps M s0 (clusterResetWith n reason selfTest s) := by
  unfold clusterResetWith
  try dsimp only
  repeat' (with_reducible first | assumption | exact hM.of rfl | apply Keeps.refl | apply keeps_ite | apply cancelPreReads_keeps | apply cleanLines_keeps | apply clusClear_keeps | apply clusRetire_keeps | apply dropPages_keeps | apply endLettersOn_keeps | apply fset_keeps | apply leaveAhead_keeps | apply raiseEvent_keeps | apply resetPostmark_keeps | apply settleSch_keeps | apply updClus_keeps | apply useFree_keeps | apply forN_keeps | split | intro _)

theorem clusterReset_keeps {M : Nat} {s0 : State} (n : Nat) {s : State} (hk : Keeps M s0 s) (hM : Sub 35393189 M := by exact ‹Sub _ M›.of rfl) :
    Keeps M s0 (clusterReset n s) := by
  unfold clusterReset
  try dsimp only
  repeat' (with_reducible first | assumption | exact hM.of rfl | apply Keeps.refl | apply keeps_ite | apply clusterResetWith_keeps)

theorem requestClusterReset_keeps {M : Nat} {s0 : State} (n : Nat) (selfTest : Bool) {s : State} (hk : Keeps M s0 s) (hM : Sub 35393253 M := by exact ‹Sub _ M›.of rfl) :
    Keeps M s0 (requestClusterReset n selfTest s) := by
  unfold requestClusterReset
  try dsimp only
  repeat' (with_reducible first | assumption | exact hM.of rfl | apply Keeps.refl | apply keeps_ite | apply clusterResetWith_keeps | apply waitCommit_keeps | split | intro _)

theorem execClusterReset_keeps {M : Nat} {s0 : State} (n : Nat) (selfTest : Bool) {s : State} (hk : Keeps M s0 s) (hM : Sub 35393253 M := by exact ‹Sub _ M›.of rfl) :
    OutKeeps M s0 (execClusterReset n selfTest s) := by
  unfold execClusterReset
  try dsimp only
  repeat' (with_reducible first | assumption | exact hM.of rfl | apply Keeps.refl | apply outKeeps_ite | apply keeps_ite | apply OutKeeps.next | apply requestClusterReset_keeps | split | intro _)

theorem axcCtrl_keeps {M : Nat} {s0 : State} (n v req : Nat) (selfTest : Bool) {s : State} (hk : Keeps M s0 s) (hM : Sub 35393253 M := by exact ‹Sub _ M›.of rfl) :
    Keeps M s0 (axcCtrl n v req selfTest s) := by
  unfold axcCtrl
  try dsimp only
  repeat' (with_reducible first | assumption | exact hM.of rfl | apply Keeps.refl | apply keeps_ite | apply clusRetire_keeps | apply requestClusterReset_keeps | apply writeIgnored_keeps | split | intro _)

theorem execClusterRetire_keeps {M : Nat} {s0 : State} (n : Nat) (byCtrl : Bool) (key req : Nat) {s : State} (hk : Keeps M s0 s) (hM : Sub 35393253 M := by exact ‹Sub _ M›.of rfl) :
    OutKeeps M s0 (execClusterRetire n byCtrl key req s) := by
  unfold execClusterRetire
  try dsimp only
  repeat' (with_reducible first | assumption | exact hM.of rfl | apply Keeps.refl | apply outKeeps_ite | apply keeps_ite | apply OutKeeps.next | apply axcCtrl_keeps | apply clusRetire_keeps)

theorem errorLine_keeps {M : Nat} {s0 : State} (n : Nat) {s : State} (hk : Keeps M s0 s) (hM : Sub 524288 M := by exact ‹Sub _ M›.of rfl) :
    Keeps M s0 (errorLine n s) := by
  unfold errorLine
  try dsimp only
  repeat' (with_reducible first | assumption | exact hM.of rfl | apply Keeps.refl | apply keeps_ite | apply forN_keeps | apply setSysField_keeps | apply forN_keeps | split | intro _)

theorem execDirtyFault_keeps {M : Nat} {s0 : State} (n : Nat) (p : Parity) (left : Nat) (selfTest : Bool) {s : State} (hk : Keeps M s0 s) (hM : Sub 35397351 M := by exact ‹Sub _ M›.of rfl) :
    OutKeeps M s0 (execDirtyFault n p left selfTest s) := by
  unfold execDirtyFault
  try dsimp only
  repeat' (with_reducible first | assumption | exact hM.of rfl | apply Keeps.refl | apply outKeeps_ite | apply keeps_ite | apply OutKeeps.next | apply clusRetire_keeps | apply cntAdd_keeps | apply errorLine_keeps | apply fset_keeps | apply loseLine_keeps | apply raiseEvent_keeps | apply recordEnd_keeps | apply requestClusterReset_keeps | apply updClus_keeps | apply forEach_keeps | split | apply Keeps.upd_dram | intro _ | nofun)

theorem execFillError_keeps {M : Nat} {s0 : State} (n : Nat) (load : Option (Nat × Half × Word)) {s : State} (hk : Keeps M s0 s) (hM : Sub 4983013 M := by exact ‹Sub _ M›.of rfl) :
    OutKeeps M s0 (execFillError n load s) := by
  unfold execFillError
  try dsimp only
  repeat' (with_reducible first | assumption | exact hM.of rfl | apply Keeps.refl | apply outKeeps_ite | apply keeps_ite | apply OutKeeps.next | apply errorLine_keeps | apply raiseEvent_keeps | apply takeTrap_keeps | split)

theorem execRuntimeUpdate_keeps {M : Nat} {s0 : State} (n : Nat) {s : State} (hk : Keeps M s0 s) (hM : Sub 1048576 M := by exact ‹Sub _ M›.of rfl) :
    OutKeeps M s0 (execRuntimeUpdate n s) := by
  unfold execRuntimeUpdate
  try dsimp only
  repeat' (with_reducible first | assumption | exact hM.of rfl | apply Keeps.refl | apply outKeeps_ite | apply keeps_ite | apply OutKeeps.next | apply updClus_keeps)

theorem graceExpiry_keeps {M : Nat} {s0 : State} (n version : Nat) (startOk selfTest : Bool) {s : State} (hk : Keeps M s0 s) (hM : Sub 39587493 M := by exact ‹Sub _ M›.of rfl) :
    Keeps M s0 (graceExpiry n version startOk selfTest s) := by
  unfold graceExpiry
  try dsimp only
  repeat' (with_reducible first | assumption | exact hM.of rfl | apply Keeps.refl | apply keeps_ite | apply clusterResetWith_keeps | apply otherPostmark_keeps | apply unitActivated_keeps | apply updClus_keeps)

theorem clusStart_keeps {M : Nat} {s0 : State} (n : Nat) {s : State} (hk : Keeps M s0 s) (hM : Sub 1572865 M := by exact ‹Sub _ M›.of rfl) :
    Keeps M s0 (clusStart n s) := by
  unfold clusStart
  try dsimp only
  repeat' (with_reducible first | assumption | exact hM.of rfl | apply Keeps.refl | apply keeps_ite | apply clusClear_keeps | apply fset_keeps)

theorem clusStop_keeps {M : Nat} {s0 : State} (n : Nat) {s : State} (hk : Keeps M s0 s) (hM : Sub 35127297 M := by exact ‹Sub _ M›.of rfl) :
    Keeps M s0 (clusStop n s) := by
  unfold clusStop
  try dsimp only
  repeat' (with_reducible first | assumption | exact hM.of rfl | apply Keeps.refl | apply keeps_ite | apply cleanLines_keeps | apply clusClear_keeps | apply fset_keeps)

end Sys2Proof.Machine
end

