-- ==== Sys2Proof/Laws/KeepProgBase.lean ====
section
/-! SUPPORT. Every operation of Machine/ProgBase.lean leaves what `Keeps` says. -/

set_option Elab.async false

namespace Sys2Proof.Machine

theorem privAlloc_keeps {M : Nat} {s0 : State} (f n : Nat) {s : State} (hk : Keeps M s0 s) (hM : Sub 2048 M := by exact ‹Sub _ M›.of rfl) :
    Keeps M s0 (privAlloc f n s).2 := by
  unfold privAlloc
  try dsimp only
  repeat' (with_reducible first | assumption | exact hM.of rfl | apply Keeps.refl | apply keeps_ite | split | apply Keeps.upd_prog)

theorem privAlloc_keeps_eq {M : Nat} {s0 : State} {f n : Nat} {s : State} {v0} {t' : State} (he : privAlloc f n s = (v0, t')) (hk : Keeps M s0 s) (hM : Sub 2048 M := by exact ‹Sub _ M›.of rfl) :
    Keeps M s0 t' := by
  have g : Keeps M s0 (privAlloc f n s).2 := by
    with_reducible apply privAlloc_keeps <;> assumption
  rw [he] at g
  exact g

theorem privFree_keeps {M : Nat} {s0 : State} (f : Nat) (ps : List (Nat × Nat)) {s : State} (hk : Keeps M s0 s) (hM : Sub 2048 M := by exact ‹Sub _ M›.of rfl) :
    Keeps M s0 (privFree f ps s) := by
  unfold privFree
  try dsimp only
  repeat' (with_reducible first | assumption | exact hM.of rfl | apply Keeps.refl | apply keeps_ite | split | apply Keeps.upd_prog)

theorem writePriv_keeps {M : Nat} {s0 : State} (f : Nat) (ps : List (Nat × Nat)) (off : Nat) (a0 : List Byte) {s : State} (hk : Keeps M s0 s) (hM : Sub 33554434 M := by exact ‹Sub _ M›.of rfl) :
    Keeps M s0 (writePriv f ps off a0 s) := by
  induction a0 generalizing f ps off s with
  | nil =>
    unfold writePriv
    exact hk
  | cons x l ih =>
    unfold writePriv
    try dsimp only
    repeat' (with_reducible first | assumption | apply ih | exact hM.of rfl | apply Keeps.refl | apply keeps_ite | apply wrByte_keeps | split)

theorem applyWcache_keeps {M : Nat} {s0 : State} (f : Nat) {s : State} (hk : Keeps M s0 s) (hM : Sub 2048 M := by exact ‹Sub _ M›.of rfl) :
    Keeps M s0 (applyWcache f s) := by
  unfold applyWcache
  try dsimp only
  repeat' (with_reducible first | assumption | exact hM.of rfl | apply Keeps.refl | apply keeps_ite | split | apply Keeps.upd_prog)

theorem setSlot_keeps {M : Nat} {s0 : State} (f i : Nat) (x : Slot) {s : State} (hk : Keeps M s0 s) (hM : Sub 2048 M := by exact ‹Sub _ M›.of rfl) :
    Keeps M s0 (setSlot f i x s) := by
  unfold setSlot
  try dsimp only
  repeat' (with_reducible first | assumption | exact hM.of rfl | apply Keeps.refl | apply keeps_ite | split | apply Keeps.upd_prog)

theorem startExec_keeps {M : Nat} {s0 : State} {x : Cmd} {f slot rset : Nat} {params : List Byte} {s : State}  {t' : State} (he : startExec x f slot rset params s = some t') (hk : Keeps M s0 s) (hM : Sub 33818663 M := by exact ‹Sub _ M›.of rfl) :
    Keeps M s0 t' := by
  unfold startExec at he
  try dsimp only at he
  repeat' (first | split at he | cases he)
  all_goals repeat' (with_reducible first | assumption | exact hM.of rfl | apply Keeps.refl | apply keeps_ite | refine createRoute_keeps_eq (by assumption) ?_ | apply createRoute_keeps | refine privAlloc_keeps_eq (by assumption) ?_ | apply privAlloc_keeps | refine submitLetter_keeps_eq (by assumption) ?_ | apply submitLetter_keeps | apply writePriv_keeps | split | apply Keeps.upd_prog)

theorem startLetter_keeps {M : Nat} {s0 : State} (k : Nat) (l : Letter) {s : State} (hk : Keeps M s0 s) (hM : Sub 1574917 M := by exact ‹Sub _ M›.of rfl) :
    Keeps M s0 (startLetter k l s) := by
  unfold startLetter
  try dsimp only
  repeat' (with_reducible first | assumption | exact hM.of rfl | apply Keeps.refl | apply keeps_ite | apply forN_keeps | apply setCore_keeps | apply setG_keeps | apply updClus_keeps | apply useFree_keeps | apply forN_keeps | split | apply Keeps.upd_prog_cores | apply Keeps.updF_prog_cores | apply Keeps.updFree | intro _)

theorem finishLetter_keeps {M : Nat} {s0 : State} (k st : Nat) {s : State} (hk : Keeps M s0 s) (hM : Sub 788517 M := by exact ‹Sub _ M›.of rfl) :
    Keeps M s0 (finishLetter k st s) := by
  unfold finishLetter
  try dsimp only
  repeat' (with_reducible first | assumption | exact hM.of rfl | apply Keeps.refl | apply keeps_ite | apply endLetter_keeps | apply leaveLetter_keeps | split)

theorem endLog_keeps {M : Nat} {s0 : State} (reason : Nat) (x : Exec) {s : State} (hk : Keeps M s0 s) (hM : Sub 128 M := by exact ‹Sub _ M›.of rfl) :
    Keeps M s0 (endLog reason x s) := by
  unfold endLog
  try dsimp only
  repeat' (with_reducible first | assumption | exact hM.of rfl | apply Keeps.refl | apply keeps_ite | split | apply Keeps.upd_nv)

theorem stopExec_keeps {M : Nat} {s0 : State} (e f : Nat) {s : State} (hk : Keeps M s0 s) (hM : Sub 788517 M := by exact ‹Sub _ M›.of rfl) :
    Keeps M s0 (stopExec e f s) := by
  unfold stopExec
  try dsimp only
  repeat' (with_reducible first | assumption | exact hM.of rfl | apply Keeps.refl | apply keeps_ite | apply endLetter_keeps | apply endOwner_keeps | apply forEach_keeps | apply leaveLetter_keeps | apply forEach_keeps | split | intro _)

theorem abortLetterOnEngine_keeps {M : Nat} {s0 : State} (l : Letter) {s : State} (hk : Keeps M s0 s) (hM : Sub 34623527 M := by exact ‹Sub _ M›.of rfl) :
    Keeps M s0 (abortLetterOnEngine l s) := by
  unfold abortLetterOnEngine
  try dsimp only
  repeat' (with_reducible first | assumption | exact hM.of rfl | apply Keeps.refl | apply keeps_ite | apply abortComp_keeps | apply letterEnds_keeps | apply useFree_keeps | apply writeSpace_keeps | split | intro _)

theorem releaseExec_keeps {M : Nat} {s0 : State} (e : Nat) (x : Exec) {s : State} (hk : Keeps M s0 s) (hM : Sub 39123623 M := by exact ‹Sub _ M›.of rfl) :
    Keeps M s0 (releaseExec e x s) := by
  unfold releaseExec
  try dsimp only
  repeat' (with_reducible first | assumption | exact hM.of rfl | apply Keeps.refl | apply keeps_ite | apply abortLetterOnEngine_keeps | apply applyWcache_keeps | apply cancelPreReads_keeps | apply deleteTable_keeps | apply endLetters_keeps | apply endOwner_keeps | apply privFree_keeps | apply scanAbort5_keeps | apply unmapWindow_keeps | apply forEach_keeps | split | apply Keeps.upd_scan | apply Keeps.upd_prog | apply Keeps.upd_prog_scan | intro _)

theorem abandonExecs_keeps {M : Nat} {s0 : State} (p : Exec → Bool) {s : State} (hk : Keeps M s0 s) (hM : Sub 39647911 M := by exact ‹Sub _ M›.of rfl) :
    Keeps M s0 (abandonExecs p s) := by
  unfold abandonExecs
  try dsimp only
  repeat' (with_reducible first | assumption | exact hM.of rfl | apply Keeps.refl | apply keeps_ite | apply forEach_keeps | apply releaseExec_keeps | apply stopExec_keeps | apply forEach_keeps | split | intro _)

theorem endExecs_keeps {M : Nat} {s0 : State} (p : Exec → Bool) (reason : Nat) {s : State} (hk : Keeps M s0 s) (hM : Sub 2048 M := by exact ‹Sub _ M›.of rfl) :
    Keeps M s0 (endExecs p reason s) := by
  unfold endExecs
  try dsimp only
  repeat' (with_reducible first | assumption | exact hM.of rfl | apply Keeps.refl | apply keeps_ite | apply forEach_keeps | apply recordEnd_keeps | apply forEach_keeps | split | intro _)

end Sys2Proof.Machine
end

