-- ==== Sys2Proof/Laws/KeepProgOps.lean ====
section
/-! SUPPORT. Every operation of Machine/ProgOps.lean leaves what `Keeps` says. -/

set_option Elab.async false

namespace Sys2Proof.Machine

theorem execMemoryRead_keeps {M : Nat} {s0 : State} (tag off len : Nat) {s : State} (hk : Keeps M s0 s) (hM : Sub 4194465 M := by exact ‹Sub _ M›.of rfl) :
    OutKeeps M s0 (execMemoryRead tag off len s) := by
  unfold execMemoryRead
  try dsimp only
  repeat' (with_reducible first | assumption | exact hM.of rfl | apply Keeps.refl | apply outKeeps_ite | apply keeps_ite | apply OutKeeps.next | apply complete_keeps | apply completeData_keeps | apply invalidField_keeps | split)

theorem execMemoryWrite_keeps {M : Nat} {s0 : State} (tag off : Nat) (data : List Byte) {s : State} (hk : Keeps M s0 s) (hM : Sub 38801571 M := by exact ‹Sub _ M›.of rfl) :
    OutKeeps M s0 (execMemoryWrite tag off data s) := by
  unfold execMemoryWrite
  try dsimp only
  repeat' (with_reducible first | assumption | exact hM.of rfl | apply Keeps.refl | apply outKeeps_ite | apply keeps_ite | apply OutKeeps.next | apply complete_keeps | apply completeOk_keeps | apply invalidField_keeps | apply writeSpace_keeps | split)

theorem execMemoryFill_keeps {M : Nat} {s0 : State} (tag off len : Nat) (pat : Word) {s : State} (hk : Keeps M s0 s) (hM : Sub 38801571 M := by exact ‹Sub _ M›.of rfl) :
    OutKeeps M s0 (execMemoryFill tag off len pat s) := by
  unfold execMemoryFill
  try dsimp only
  repeat' (with_reducible first | assumption | exact hM.of rfl | apply Keeps.refl | apply outKeeps_ite | apply keeps_ite | apply OutKeeps.next | apply complete_keeps | apply completeOk_keeps | apply invalidField_keeps | apply writeSpace_keeps | split)

theorem execMemoryCopyToSlm_keeps {M : Nat} {s0 : State} (tag off : Nat) (ranges : List (Nat × Nat × Nat)) (pr : PrInfo) (bad : List Nat) {s : State} (hk : Keeps M s0 s) (hM : Sub 38802343 M := by exact ‹Sub _ M›.of rfl) :
    OutKeeps M s0 (execMemoryCopyToSlm tag off ranges pr bad s) := by
  unfold execMemoryCopyToSlm
  try dsimp only
  repeat' (with_reducible first | assumption | exact hM.of rfl | apply Keeps.refl | apply outKeeps_ite | apply keeps_ite | apply OutKeeps.next | apply complete_keeps | apply completeOk_keeps | apply invalidField_keeps | apply readRange_keeps | apply setCmd_keeps | apply useFree_keeps | apply writeSpace_keeps | apply forEach_keeps | split | intro _)

theorem execMemoryCopyToNvm_keeps {M : Nat} {s0 : State} (tag off nsid slba nlb : Nat) (pr : PrInfo) {s : State} (hk : Keeps M s0 s) (hM : Sub 4459429 M := by exact ‹Sub _ M›.of rfl) :
    OutKeeps M s0 (execMemoryCopyToNvm tag off nsid slba nlb pr s) := by
  unfold execMemoryCopyToNvm
  try dsimp only
  repeat' (with_reducible first | assumption | exact hM.of rfl | apply Keeps.refl | apply outKeeps_ite | apply keeps_ite | apply OutKeeps.next | apply admitWrite_keeps | apply complete_keeps | apply invalidField_keeps | apply setCmd_keeps | split)

theorem progCmd_keeps {M : Nat} {s0 : State} (tag : Nat) (run : Cmd → Nat → State → State) {s : State} (hk : Keeps M s0 s) (hrun : ∀ x0 x1 t, Keeps M t (run x0 x1 t)) (hM : Sub 4194465 M := by exact ‹Sub _ M›.of rfl) :
    OutKeeps M s0 (progCmd tag run s) := by
  unfold progCmd
  try dsimp only
  repeat' (with_reducible first | assumption | exact hM.of rfl | apply Keeps.refl | apply outKeeps_ite | apply keeps_ite | apply OutKeeps.next | apply complete_keeps | refine Keeps.trans ?_ (hrun _ _ _) | split)

theorem inUse_keeps {M : Nat} {s0 : State} (tag : Nat) {s : State} (hk : Keeps M s0 s) (hM : Sub 4194465 M := by exact ‹Sub _ M›.of rfl) :
    Keeps M s0 (inUse tag s) := by
  unfold inUse
  try dsimp only
  repeat' (with_reducible first | assumption | exact hM.of rfl | apply Keeps.refl | apply keeps_ite | apply complete_keeps)

theorem quotaExceeded_keeps {M : Nat} {s0 : State} (tag : Nat) {s : State} (hk : Keeps M s0 s) (hM : Sub 4194465 M := by exact ‹Sub _ M›.of rfl) :
    Keeps M s0 (quotaExceeded tag s) := by
  unfold quotaExceeded
  try dsimp only
  repeat' (with_reducible first | assumption | exact hM.of rfl | apply Keeps.refl | apply keeps_ite | apply complete_keeps)

theorem sequenceError_keeps {M : Nat} {s0 : State} (tag : Nat) {s : State} (hk : Keeps M s0 s) (hM : Sub 4194465 M := by exact ‹Sub _ M›.of rfl) :
    Keeps M s0 (sequenceError tag s) := by
  unfold sequenceError
  try dsimp only
  repeat' (with_reducible first | assumption | exact hM.of rfl | apply Keeps.refl | apply keeps_ite | apply complete_keeps)

theorem execMemoryRangeSetCreate_keeps {M : Nat} {s0 : State} (tag : Nat) (ranges : List (Nat × Nat)) {s : State} (hk : Keeps M s0 s) (hM : Sub 4196513 M := by exact ‹Sub _ M›.of rfl) :
    OutKeeps M s0 (execMemoryRangeSetCreate tag ranges s) := by
  unfold execMemoryRangeSetCreate
  try dsimp only
  repeat' (with_reducible first | assumption | exact hM.of rfl | apply Keeps.refl | apply outKeeps_ite | apply keeps_ite | apply OutKeeps.next | apply completeDw_keeps | apply invalidField_keeps | apply progCmd_keeps | split | apply Keeps.upd_prog | intro _)

theorem execMemoryRangeSetDelete_keeps {M : Nat} {s0 : State} (tag id : Nat) {s : State} (hk : Keeps M s0 s) (hM : Sub 4196513 M := by exact ‹Sub _ M›.of rfl) :
    OutKeeps M s0 (execMemoryRangeSetDelete tag id s) := by
  unfold execMemoryRangeSetDelete
  try dsimp only
  repeat' (with_reducible first | assumption | exact hM.of rfl | apply Keeps.refl | apply outKeeps_ite | apply keeps_ite | apply OutKeeps.next | apply completeOk_keeps | apply inUse_keeps | apply invalidField_keeps | apply progCmd_keeps | split | apply Keeps.upd_prog | intro _)

theorem execLoadProgram_keeps {M : Nat} {s0 : State} (tag slot ptype off : Nat) (data : List Byte) {s : State} (hk : Keeps M s0 s) (hM : Sub 4196513 M := by exact ‹Sub _ M›.of rfl) :
    OutKeeps M s0 (execLoadProgram tag slot ptype off data s) := by
  unfold execLoadProgram
  try dsimp only
  repeat' (with_reducible first | assumption | exact hM.of rfl | apply Keeps.refl | apply outKeeps_ite | apply keeps_ite | apply OutKeeps.next | apply completeOk_keeps | apply inUse_keeps | apply invalidField_keeps | apply progCmd_keeps | apply quotaExceeded_keeps | apply setSlot_keeps | split | intro _)

theorem execUnloadProgram_keeps {M : Nat} {s0 : State} (tag slot : Nat) {s : State} (hk : Keeps M s0 s) (hM : Sub 4196513 M := by exact ‹Sub _ M›.of rfl) :
    OutKeeps M s0 (execUnloadProgram tag slot s) := by
  unfold execUnloadProgram
  try dsimp only
  repeat' (with_reducible first | assumption | exact hM.of rfl | apply Keeps.refl | apply outKeeps_ite | apply keeps_ite | apply OutKeeps.next | apply completeOk_keeps | apply inUse_keeps | apply invalidField_keeps | apply progCmd_keeps | split | apply Keeps.upd_prog | intro _)

theorem execActivateProgram_keeps {M : Nat} {s0 : State} (tag slot : Nat) {s : State} (hk : Keeps M s0 s) (hM : Sub 37750951 M := by exact ‹Sub _ M›.of rfl) :
    OutKeeps M s0 (execActivateProgram tag slot s) := by
  unfold execActivateProgram
  try dsimp only
  repeat' (with_reducible first | assumption | exact hM.of rfl | apply Keeps.refl | apply outKeeps_ite | apply keeps_ite | apply OutKeeps.next | apply complete_keeps | apply completeOk_keeps | apply inUse_keeps | apply invalidField_keeps | refine privAlloc_keeps_eq (by assumption) ?_ | apply privAlloc_keeps | apply progCmd_keeps | apply quotaExceeded_keeps | apply sequenceError_keeps | apply setSlot_keeps | apply useFree_keeps | apply writePriv_keeps | split | intro _)

theorem execDeactivateProgram_keeps {M : Nat} {s0 : State} (tag slot : Nat) {s : State} (hk : Keeps M s0 s) (hM : Sub 4196513 M := by exact ‹Sub _ M›.of rfl) :
    OutKeeps M s0 (execDeactivateProgram tag slot s) := by
  unfold execDeactivateProgram
  try dsimp only
  repeat' (with_reducible first | assumption | exact hM.of rfl | apply Keeps.refl | apply outKeeps_ite | apply keeps_ite | apply OutKeeps.next | apply completeOk_keeps | apply inUse_keeps | apply invalidField_keeps | apply privFree_keeps | apply progCmd_keeps | apply sequenceError_keeps | split | apply Keeps.upd_prog | intro _)

theorem beginExec_keeps {M : Nat} {s0 : State} (x : Cmd) (f slot rset : Nat) (params : List Byte) {s : State} (hk : Keeps M s0 s) (hM : Sub 38013095 M := by exact ‹Sub _ M›.of rfl) :
    Keeps M s0 (beginExec x f slot rset params s) := by
  unfold beginExec
  try dsimp only
  repeat' (with_reducible first | assumption | exact hM.of rfl | apply Keeps.refl | apply keeps_ite | apply quotaExceeded_keeps | apply setCmd_keeps | refine startExec_keeps (by assumption) ?_ | split)

theorem execExecuteProgram_keeps {M : Nat} {s0 : State} (tag slot rset : Nat) (params : List Byte) {s : State} (hk : Keeps M s0 s) (hM : Sub 38013095 M := by exact ‹Sub _ M›.of rfl) :
    OutKeeps M s0 (execExecuteProgram tag slot rset params s) := by
  unfold execExecuteProgram
  try dsimp only
  repeat' (with_reducible first | assumption | exact hM.of rfl | apply Keeps.refl | apply outKeeps_ite | apply keeps_ite | apply OutKeeps.next | apply beginExec_keeps | apply complete_keeps | apply invalidField_keeps | apply progCmd_keeps | apply quotaExceeded_keeps | apply sequenceError_keeps | apply setCmd_keeps | split | apply Keeps.upd_prog | intro _)

theorem nextWaiting_keeps {M : Nat} {s0 : State} {s : State} (hk : Keeps M s0 s) (hM : Sub 38013095 M := by exact ‹Sub _ M›.of rfl) :
    Keeps M s0 (nextWaiting s) := by
  unfold nextWaiting
  try dsimp only
  repeat' (with_reducible first | assumption | exact hM.of rfl | apply Keeps.refl | apply keeps_ite | apply beginExec_keeps | split | apply Keeps.upd_prog)

theorem execExecutionTimeLimit_keeps {M : Nat} {s0 : State} (e : Nat) {s : State} (hk : Keeps M s0 s) (hM : Sub 2048 M := by exact ‹Sub _ M›.of rfl) :
    OutKeeps M s0 (execExecutionTimeLimit e s) := by
  unfold execExecutionTimeLimit
  try dsimp only
  repeat' (with_reducible first | assumption | exact hM.of rfl | apply Keeps.refl | apply outKeeps_ite | apply keeps_ite | apply OutKeeps.next | apply recordEnd_keeps | split)

theorem execExecutionEnd_keeps {M : Nat} {s0 : State} (e : Nat) {s : State} (hk : Keeps M s0 s) (hM : Sub 39647911 M := by exact ‹Sub _ M›.of rfl) :
    OutKeeps M s0 (execExecutionEnd e s) := by
  unfold execExecutionEnd
  try dsimp only
  repeat' (with_reducible first | assumption | exact hM.of rfl | apply Keeps.refl | apply outKeeps_ite | apply keeps_ite | apply OutKeeps.next | apply completeBoth_keeps | apply endLog_keeps | apply nextWaiting_keeps | apply releaseExec_keeps | apply stopExec_keeps | split)

theorem execExit_keeps {M : Nat} {s0 : State} (k : Nat) {s : State} (hk : Keeps M s0 s) (hM : Sub 2048 M := by exact ‹Sub _ M›.of rfl) :
    OutKeeps M s0 (execExit k s) := by
  unfold execExit
  try dsimp only
  repeat' (with_reducible first | assumption | exact hM.of rfl | apply Keeps.refl | apply outKeeps_ite | apply keeps_ite | apply OutKeeps.next | apply recordEnd_keeps | split)

theorem newTable_keeps {M : Nat} {s0 : State} (f c11 c12 c13 : Nat) {s : State} (hk : Keeps M s0 s) (hM : Sub 1 M := by exact ‹Sub _ M›.of rfl) :
    Keeps M s0 (newTable f c11 c12 c13 s).2 := by
  unfold newTable
  try dsimp only
  repeat' (with_reducible first | assumption | exact hM.of rfl | apply Keeps.refl | apply keeps_ite | refine createTable_keeps_eq (by assumption) ?_ | apply createTable_keeps | split)

theorem newTable_keeps_eq {M : Nat} {s0 : State} {f c11 c12 c13 : Nat} {s : State} {v0} {t' : State} (he : newTable f c11 c12 c13 s = (v0, t')) (hk : Keeps M s0 s) (hM : Sub 1 M := by exact ‹Sub _ M›.of rfl) :
    Keeps M s0 t' := by
  have g : Keeps M s0 (newTable f c11 c12 c13 s).2 := by
    with_reducible apply newTable_keeps <;> assumption
  rw [he] at g
  exact g

theorem execTcreate_keeps {M : Nat} {s0 : State} (k : Nat) {s : State} (hk : Keeps M s0 s) (hM : Sub 526337 M := by exact ‹Sub _ M›.of rfl) :
    OutKeeps M s0 (execTcreate k s) := by
  unfold execTcreate
  try dsimp only
  repeat' (with_reducible first | assumption | exact hM.of rfl | apply Keeps.refl | apply outKeeps_ite | apply keeps_ite | apply OutKeeps.next | refine newTable_keeps_eq (by assumption) ?_ | apply newTable_keeps | apply svAnswer_keeps | split | apply Keeps.upd_prog)

theorem execTdelete_keeps {M : Nat} {s0 : State} (k : Nat) {s : State} (hk : Keeps M s0 s) (hM : Sub 534529 M := by exact ‹Sub _ M›.of rfl) :
    OutKeeps M s0 (execTdelete k s) := by
  unfold execTdelete
  try dsimp only
  repeat' (with_reducible first | assumption | exact hM.of rfl | apply Keeps.refl | apply outKeeps_ite | apply keeps_ite | apply OutKeeps.next | apply deleteTable_keeps | apply svAnswer_keeps | split | apply Keeps.upd_prog)

theorem execRoute_keeps {M : Nat} {s0 : State} (k : Nat) {s : State} (hk : Keeps M s0 s) (hM : Sub 786465 M := by exact ‹Sub _ M›.of rfl) :
    OutKeeps M s0 (execRoute k s) := by
  unfold execRoute
  try dsimp only
  repeat' (with_reducible first | assumption | exact hM.of rfl | apply Keeps.refl | apply outKeeps_ite | apply keeps_ite | apply OutKeeps.next | refine createRoute_keeps_eq (by assumption) ?_ | apply createRoute_keeps | apply showSch_keeps | apply svAnswer_keeps | split)

theorem lookupWith_keeps {M : Nat} {s0 : State} {f off bad hit : Nat} {b : Option (List Byte)} {s : State} {v0} {v1} {t' : State} (he : lookupWith f off bad hit b s = some (v0, v1, t')) (hk : Keeps M s0 s) (hM : Sub 34615331 M := by exact ‹Sub _ M›.of rfl) :
    Keeps M s0 t' := by
  unfold lookupWith at he
  split at he
  · cases he
  · cases he
    exact writeSpace_keeps _ _ _ (matchBlock_keeps _ _ hk)

theorem lookupBlocks_keeps {M : Nat} {s0 : State} {f off n : Nat} {s : State} {v0} {v1} {t' : State} (he : lookupBlocks f off n s = some (v0, v1, t')) (hk : Keeps M s0 s) (hM : Sub 34615331 M := by exact ‹Sub _ M›.of rfl) :
    Keeps M s0 t' := by
  unfold lookupBlocks at he
  have key : ∀ (l : List Nat) (acc : Option (Nat × Nat × State)), (∀ a b u, acc = some (a, b, u) → Keeps M s0 u) →
      ∀ a b u, l.foldl (fun acc i => lookupBlock f (off + 160 * i) acc) acc = some (a, b, u) → Keeps M s0 u := by
    intro l
    induction l with
    | nil => exact fun _ h => h
    | cons x l ih =>
      intro acc h
      refine ih _ ?_
      intro a b u hu
      cases acc with
      | none => cases hu
      | some p => exact lookupWith_keeps hu (h p.1 p.2.1 p.2.2 rfl)
  exact key _ _ (by
    intro a b u hu
    cases hu
    exact hk) _ _ _ he

theorem execMatchLookup_keeps {M : Nat} {s0 : State} (tag off n : Nat) {s : State} (hk : Keeps M s0 s) (hM : Sub 38809763 M := by exact ‹Sub _ M›.of rfl) :
    OutKeeps M s0 (execMatchLookup tag off n s) := by
  unfold execMatchLookup
  try dsimp only
  repeat' (with_reducible first | assumption | exact hM.of rfl | apply Keeps.refl | apply outKeeps_ite | apply keeps_ite | apply OutKeeps.next | apply complete_keeps | apply completeBoth_keeps | apply invalidField_keeps | refine lookupBlocks_keeps (by assumption) ?_ | apply progCmd_keeps | split | intro _)

theorem execMatchTableCreate_keeps {M : Nat} {s0 : State} (tag c11 c12 c13 : Nat) {s : State} (hk : Keeps M s0 s) (hM : Sub 4194465 M := by exact ‹Sub _ M›.of rfl) :
    OutKeeps M s0 (execMatchTableCreate tag c11 c12 c13 s) := by
  unfold execMatchTableCreate
  try dsimp only
  repeat' (with_reducible first | assumption | exact hM.of rfl | apply Keeps.refl | apply outKeeps_ite | apply keeps_ite | apply OutKeeps.next | apply complete_keeps | apply completeBoth_keeps | apply invalidField_keeps | refine newTable_keeps_eq (by assumption) ?_ | apply newTable_keeps | apply progCmd_keeps | apply quotaExceeded_keeps | split | intro _)

theorem execMatchTableDelete_keeps {M : Nat} {s0 : State} (tag n : Nat) {s : State} (hk : Keeps M s0 s) (hM : Sub 4202657 M := by exact ‹Sub _ M›.of rfl) :
    OutKeeps M s0 (execMatchTableDelete tag n s) := by
  unfold execMatchTableDelete
  try dsimp only
  repeat' (with_reducible first | assumption | exact hM.of rfl | apply Keeps.refl | apply outKeeps_ite | apply keeps_ite | apply OutKeeps.next | apply completeOk_keeps | apply deleteTable_keeps | apply invalidField_keeps | apply progCmd_keeps | split | intro _)

theorem execLetterDispatch_keeps {M : Nat} {s0 : State} (window : Bool) (id ns : Nat) {s : State} (hk : Keeps M s0 s) (hM : Sub 39096999 M := by exact ‹Sub _ M›.of rfl) :
    OutKeeps M s0 (execLetterDispatch window id ns s) := by
  unfold execLetterDispatch
  try dsimp only
  repeat' (with_reducible first | assumption | exact hM.of rfl | apply Keeps.refl | apply outKeeps_ite | apply keeps_ite | apply OutKeeps.next | apply dispatched_keeps | apply scanSubmit_keeps | apply sendRead_keeps | apply showFree_keeps | apply showSch_keeps | split | intro _)

theorem execEngineLetterEnd_keeps {M : Nat} {s0 : State} (id unit : Nat) (more : List Byte) {s : State} (hk : Keeps M s0 s) (hM : Sub 34994215 M := by exact ‹Sub _ M›.of rfl) :
    OutKeeps M s0 (execEngineLetterEnd id unit more s) := by
  unfold execEngineLetterEnd
  try dsimp only
  repeat' (with_reducible first | assumption | exact hM.of rfl | apply Keeps.refl | apply outKeeps_ite | apply keeps_ite | apply OutKeeps.next | refine digestLetter_keeps_eq (by assumption) ?_ | apply digestLetter_keeps | apply endLetter_keeps | refine matchBlock_keeps_eq (by assumption) ?_ | apply matchBlock_keeps | refine serveComp_keeps (by assumption) ?_ | apply showFree_keeps | apply writeSpace_keeps | split | apply Keeps.upd_scan | intro _)

theorem mediaEnd_keeps {M : Nat} {s0 : State} (l : Letter) (st : Nat) (first : Option Nat) {s : State} (hk : Keeps M s0 s) (hM : Sub 34871331 M := by exact ‹Sub _ M›.of rfl) :
    Keeps M s0 (mediaEnd l st first s) := by
  unfold mediaEnd
  try dsimp only
  repeat' (with_reducible first | assumption | exact hM.of rfl | apply Keeps.refl | apply keeps_ite | apply endLetter_keeps | apply writeSpace_keeps)

theorem execMediaRead_keeps {M : Nat} {s0 : State} (id : Nat) (bad : List Nat) {s : State} (hk : Keeps M s0 s) (hM : Sub 34872103 M := by exact ‹Sub _ M›.of rfl) :
    OutKeeps M s0 (execMediaRead id bad s) := by
  unfold execMediaRead
  try dsimp only
  repeat' (with_reducible first | assumption | exact hM.of rfl | apply Keeps.refl | apply outKeeps_ite | apply keeps_ite | apply OutKeeps.next | apply endLetter_keeps | apply mediaEnd_keeps | apply readRange_keeps | apply writeSpace_keeps | split | intro _)

theorem svSubmit_keeps {M : Nat} {s0 : State} (k e : Nat) {s : State} (hk : Keeps M s0 s) (hM : Sub 788517 M := by exact ‹Sub _ M›.of rfl) :
    Keeps M s0 (svSubmit k e s) := by
  unfold svSubmit
  try dsimp only
  repeat' (with_reducible first | assumption | exact hM.of rfl | apply Keeps.refl | apply keeps_ite | refine submitLetter_keeps_eq (by assumption) ?_ | apply submitLetter_keeps | apply svAnswer_keeps | split)

theorem takeAndStart_keeps {M : Nat} {s0 : State} (p fn ns : Nat) {s : State} (hk : Keeps M s0 s) (hM : Sub 1837061 M := by exact ‹Sub _ M›.of rfl) :
    Keeps M s0 (takeAndStart p fn ns s) := by
  unfold takeAndStart
  try dsimp only
  repeat' (with_reducible first | assumption | exact hM.of rfl | apply Keeps.refl | apply keeps_ite | refine portTake_keeps_eq (by assumption) ?_ | apply portTake_keeps | apply showCore_keeps | apply startLetter_keeps | split)

end Sys2Proof.Machine
end

