-- ==== Sys2Proof/Laws/KeepTenantOps.lean ====
section
/-! SUPPORT. Every operation of Machine/TenantOps.lean leaves what `Keeps` says. -/

set_option Elab.async false

namespace Sys2Proof.Machine

theorem errorNotice_keeps {M : Nat} {s0 : State} (f keep what : Nat) {s : State} (hk : Keeps M s0 s) (hM : Sub 1153 M := by exact ‹Sub _ M›.of rfl) :
    Keeps M s0 (errorNotice f keep what s) := by
  unfold errorNotice
  try dsimp only
  repeat' (with_reducible first | assumption | exact hM.of rfl | apply Keeps.refl | apply keeps_ite | apply sendMsg_keeps)

theorem h2mDoorbell_keeps {M : Nat} {s0 : State} (f tail : Nat) {s : State} (hk : Keeps M s0 s) (hM : Sub 1185 M := by exact ‹Sub _ M›.of rfl) :
    Keeps M s0 (h2mDoorbell f tail s) := by
  unfold h2mDoorbell
  try dsimp only
  repeat' (with_reducible first | assumption | exact hM.of rfl | apply Keeps.refl | apply keeps_ite | apply errorNotice_keeps | apply fset_keeps | apply otherPostmark_keeps | split | apply Keeps.upd_ten)

theorem letterboxDoorbell_keeps {M : Nat} {s0 : State} (f : Nat) (msgs : List (List Byte)) (tail : Nat) {s : State} (hk : Keeps M s0 s) (hM : Sub 1185 M := by exact ‹Sub _ M›.of rfl) :
    Keeps M s0 (letterboxDoorbell f msgs tail s) := by
  unfold letterboxDoorbell
  try dsimp only
  repeat' (with_reducible first | assumption | exact hM.of rfl | apply Keeps.refl | apply keeps_ite | apply forEach_keeps | apply h2mDoorbell_keeps | apply putSlot_keeps | apply forEach_keeps | split | intro _)

theorem m2hHead_keeps {M : Nat} {s0 : State} (f head : Nat) {s : State} (hk : Keeps M s0 s) (hM : Sub 1153 M := by exact ‹Sub _ M›.of rfl) :
    Keeps M s0 (m2hHead f head s) := by
  unfold m2hHead
  try dsimp only
  repeat' (with_reducible first | assumption | exact hM.of rfl | apply Keeps.refl | apply keeps_ite | apply fset_keeps | apply postHeldMsgs_keeps | apply showLbx_keeps)

theorem respond_keeps {M : Nat} {s0 : State} (f : Nat) (bs : List Byte) (status : Nat) (payload : List Byte) {s : State} (hk : Keeps M s0 s) (hM : Sub 1153 M := by exact ‹Sub _ M›.of rfl) :
    Keeps M s0 (respond f bs status payload s) := by
  unfold respond
  try dsimp only
  repeat' (with_reducible first | assumption | exact hM.of rfl | apply Keeps.refl | apply keeps_ite | apply postMsg_keeps | apply showLbx_keeps)

theorem serveRequest_keeps {M : Nat} {s0 : State} (op : Nat) (serve : Nat → List Byte → State → Nat × List Byte × State) {s : State} (hk : Keeps M s0 s) (hserve : ∀ x0 x1 t, Keeps M t (serve x0 x1 t).2.2) (hM : Sub 1153 M := by exact ‹Sub _ M›.of rfl) :
    Keeps M s0 (serveRequest op serve s) := by
  unfold serveRequest
  try dsimp only
  repeat' (with_reducible first | assumption | exact hM.of rfl | apply Keeps.refl | apply keeps_ite | apply errorNotice_keeps | apply fset_keeps | apply respond_keeps | refine Keeps.trans ?_ (hserve _ _ _) | split | apply Keeps.upd_ten | intro _)

theorem serveQuery_keeps {M : Nat} {s0 : State} (f : Nat) (bs : List Byte) {s : State} (hk : Keeps M s0 s) (hM : Sub 4 M := by exact ‹Sub _ M›.of rfl) :
    Keeps M s0 (serveQuery f bs s).2.2 := by
  unfold serveQuery
  try dsimp only
  repeat' (with_reducible first | assumption | exact hM.of rfl | apply Keeps.refl | apply keeps_ite | split | apply Keeps.updFree)

theorem serveQuery_keeps_eq {M : Nat} {s0 : State} {f : Nat} {bs : List Byte} {s : State} {v0} {v1} {t' : State} (he : serveQuery f bs s = (v0, v1, t')) (hk : Keeps M s0 s) (hM : Sub 4 M := by exact ‹Sub _ M›.of rfl) :
    Keeps M s0 t' := by
  have g : Keeps M s0 (serveQuery f bs s).2.2 := by
    with_reducible apply serveQuery_keeps <;> assumption
  rw [he] at g
  exact g

theorem execLetterboxQuery_keeps {M : Nat} {s0 : State} {s : State} (hk : Keeps M s0 s) (hM : Sub 1157 M := by exact ‹Sub _ M›.of rfl) :
    OutKeeps M s0 (execLetterboxQuery s) := by
  unfold execLetterboxQuery
  try dsimp only
  repeat' (with_reducible first | assumption | exact hM.of rfl | apply Keeps.refl | apply outKeeps_ite | apply keeps_ite | apply OutKeeps.next | refine serveQuery_keeps_eq (by assumption) ?_ | apply serveQuery_keeps | apply serveRequest_keeps | split | intro _)

theorem applyAssign_keeps {M : Nat} {s0 : State} (f r v : Nat) {s : State} (hk : Keeps M s0 s) (hM : Sub 265377 M := by exact ‹Sub _ M›.of rfl) :
    Keeps M s0 (applyAssign f r v s) := by
  unfold applyAssign
  try dsimp only
  repeat' (with_reducible first | assumption | exact hM.of rfl | apply Keeps.refl | apply keeps_ite | apply setMask_keeps | split | apply Keeps.upd_nv_ten)

theorem serveAssign_keeps {M : Nat} {s0 : State} (f : Nat) (bs : List Byte) {s : State} (hk : Keeps M s0 s) (hM : Sub 265377 M := by exact ‹Sub _ M›.of rfl) :
    Keeps M s0 (serveAssign f bs s).2.2 := by
  unfold serveAssign
  try dsimp only
  repeat' (with_reducible first | assumption | exact hM.of rfl | apply Keeps.refl | apply keeps_ite | apply applyAssign_keeps | apply sendChanged_keeps | split)

theorem serveAssign_keeps_eq {M : Nat} {s0 : State} {f : Nat} {bs : List Byte} {s : State} {v0} {v1} {t' : State} (he : serveAssign f bs s = (v0, v1, t')) (hk : Keeps M s0 s) (hM : Sub 265377 M := by exact ‹Sub _ M›.of rfl) :
    Keeps M s0 t' := by
  have g : Keeps M s0 (serveAssign f bs s).2.2 := by
    with_reducible apply serveAssign_keeps <;> assumption
  rw [he] at g
  exact g

theorem execAssign_keeps {M : Nat} {s0 : State} {s : State} (hk : Keeps M s0 s) (hM : Sub 265377 M := by exact ‹Sub _ M›.of rfl) :
    OutKeeps M s0 (execAssign s) := by
  unfold execAssign
  try dsimp only
  repeat' (with_reducible first | assumption | exact hM.of rfl | apply Keeps.refl | apply outKeeps_ite | apply keeps_ite | apply OutKeeps.next | refine serveAssign_keeps_eq (by assumption) ?_ | apply serveAssign_keeps | apply serveRequest_keeps | split | intro _)

theorem resizePart_keeps {M : Nat} {s0 : State} (l : List Nat) (n : Nat) {s : State} (hk : Keeps M s0 s) (hM : Sub 33558530 M := by exact ‹Sub _ M›.of rfl) :
    Keeps M s0 (resizePart l n s).2 := by
  unfold resizePart
  try dsimp only
  repeat' (with_reducible first | assumption | exact hM.of rfl | apply Keeps.refl | apply keeps_ite | apply forEach_keeps | apply zeroGranule_keeps | apply forEach_keeps | split | intro _)

theorem resizePart_keeps_eq {M : Nat} {s0 : State} {l : List Nat} {n : Nat} {s : State} {v0} {t' : State} (he : resizePart l n s = (v0, t')) (hk : Keeps M s0 s) (hM : Sub 33558530 M := by exact ‹Sub _ M›.of rfl) :
    Keeps M s0 t' := by
  have g : Keeps M s0 (resizePart l n s).2 := by
    with_reducible apply resizePart_keeps <;> assumption
  rw [he] at g
  exact g

theorem moveGranules_keeps {M : Nat} {s0 : State} (g a b : Nat) {s : State} (hk : Keeps M s0 s) (hM : Sub 33559554 M := by exact ‹Sub _ M›.of rfl) :
    Keeps M s0 (moveGranules g a b s) := by
  unfold moveGranules
  try dsimp only
  repeat' (with_reducible first | assumption | exact hM.of rfl | apply Keeps.refl | apply keeps_ite | refine resizePart_keeps_eq (by assumption) ?_ | apply resizePart_keeps | split | apply Keeps.upd_ten)

theorem serveMove_keeps {M : Nat} {s0 : State} (f : Nat) (bs : List Byte) {s : State} (hk : Keeps M s0 s) (hM : Sub 33559687 M := by exact ‹Sub _ M›.of rfl) :
    Keeps M s0 (serveMove f bs s).2.2 := by
  unfold serveMove
  try dsimp only
  repeat' (with_reducible first | assumption | exact hM.of rfl | apply Keeps.refl | apply keeps_ite | apply moveGranules_keeps | apply sendChanged_keeps | apply useFree_keeps | split)

theorem serveMove_keeps_eq {M : Nat} {s0 : State} {f : Nat} {bs : List Byte} {s : State} {v0} {v1} {t' : State} (he : serveMove f bs s = (v0, v1, t')) (hk : Keeps M s0 s) (hM : Sub 33559687 M := by exact ‹Sub _ M›.of rfl) :
    Keeps M s0 t' := by
  have g : Keeps M s0 (serveMove f bs s).2.2 := by
    with_reducible apply serveMove_keeps <;> assumption
  rw [he] at g
  exact g

theorem execMove_keeps {M : Nat} {s0 : State} {s : State} (hk : Keeps M s0 s) (hM : Sub 33559687 M := by exact ‹Sub _ M›.of rfl) :
    OutKeeps M s0 (execMove s) := by
  unfold execMove
  try dsimp only
  repeat' (with_reducible first | assumption | exact hM.of rfl | apply Keeps.refl | apply outKeeps_ite | apply keeps_ite | apply OutKeeps.next | refine serveMove_keeps_eq (by assumption) ?_ | apply serveMove_keeps | apply serveRequest_keeps | split | intro _)

theorem becomeManager_keeps {M : Nat} {s0 : State} (f : Nat) {s : State} (hk : Keeps M s0 s) (hM : Sub 1153 M := by exact ‹Sub _ M›.of rfl) :
    Keeps M s0 (becomeManager f s) := by
  unfold becomeManager
  try dsimp only
  repeat' (with_reducible first | assumption | exact hM.of rfl | apply Keeps.refl | apply keeps_ite | apply sendMsg_keeps | apply showLbx_keeps | split | apply Keeps.upd_ten)

theorem serveClaim_keeps {M : Nat} {s0 : State} (down : Bool) (f : Nat) (_bs : List Byte) {s : State} (hk : Keeps M s0 s) (hM : Sub 1153 M := by exact ‹Sub _ M›.of rfl) :
    Keeps M s0 (serveClaim down f _bs s).2.2 := by
  unfold serveClaim
  try dsimp only
  repeat' (with_reducible first | assumption | exact hM.of rfl | apply Keeps.refl | apply keeps_ite | apply becomeManager_keeps | split)

theorem serveClaim_keeps_eq {M : Nat} {s0 : State} {down : Bool} {f : Nat} {_bs : List Byte} {s : State} {v0} {v1} {t' : State} (he : serveClaim down f _bs s = (v0, v1, t')) (hk : Keeps M s0 s) (hM : Sub 1153 M := by exact ‹Sub _ M›.of rfl) :
    Keeps M s0 t' := by
  have g : Keeps M s0 (serveClaim down f _bs s).2.2 := by
    with_reducible apply serveClaim_keeps <;> assumption
  rw [he] at g
  exact g

theorem execClaim_keeps {M : Nat} {s0 : State} (down : Bool) {s : State} (hk : Keeps M s0 s) (hM : Sub 1153 M := by exact ‹Sub _ M›.of rfl) :
    OutKeeps M s0 (execClaim down s) := by
  unfold execClaim
  try dsimp only
  repeat' (with_reducible first | assumption | exact hM.of rfl | apply Keeps.refl | apply outKeeps_ite | apply keeps_ite | apply OutKeeps.next | refine serveClaim_keeps_eq (by assumption) ?_ | apply serveClaim_keeps | apply serveRequest_keeps | split | intro _)

theorem serveRelay_keeps {M : Nat} {s0 : State} (f : Nat) (bs : List Byte) {s : State} (hk : Keeps M s0 s) (hM : Sub 1157 M := by exact ‹Sub _ M›.of rfl) :
    Keeps M s0 (serveRelay f bs s).2.2 := by
  unfold serveRelay
  try dsimp only
  repeat' (with_reducible first | assumption | exact hM.of rfl | apply Keeps.refl | apply keeps_ite | apply sendMsg_keeps | apply useFree_keeps | split)

theorem serveRelay_keeps_eq {M : Nat} {s0 : State} {f : Nat} {bs : List Byte} {s : State} {v0} {v1} {t' : State} (he : serveRelay f bs s = (v0, v1, t')) (hk : Keeps M s0 s) (hM : Sub 1157 M := by exact ‹Sub _ M›.of rfl) :
    Keeps M s0 t' := by
  have g : Keeps M s0 (serveRelay f bs s).2.2 := by
    with_reducible apply serveRelay_keeps <;> assumption
  rw [he] at g
  exact g

theorem execRelay_keeps {M : Nat} {s0 : State} {s : State} (hk : Keeps M s0 s) (hM : Sub 1157 M := by exact ‹Sub _ M›.of rfl) :
    OutKeeps M s0 (execRelay s) := by
  unfold execRelay
  try dsimp only
  repeat' (with_reducible first | assumption | exact hM.of rfl | apply Keeps.refl | apply outKeeps_ite | apply keeps_ite | apply OutKeeps.next | refine serveRelay_keeps_eq (by assumption) ?_ | apply serveRelay_keeps | apply serveRequest_keeps | split | intro _)

theorem setPaused_keeps {M : Nat} {s0 : State} (b : Bool) {s : State} (hk : Keeps M s0 s) (hM : Sub 1025 M := by exact ‹Sub _ M›.of rfl) :
    Keeps M s0 (setPaused b s) := by
  unfold setPaused
  try dsimp only
  repeat' (with_reducible first | assumption | exact hM.of rfl | apply Keeps.refl | apply keeps_ite | apply forEach_keeps | apply showLbx_keeps | apply forEach_keeps | split | apply Keeps.upd_ten | intro _)

end Sys2Proof.Machine
end

