-- ==== Sys2Proof/Laws/KeepHostReset.lean ====
section
/-! SUPPORT. Every operation of Machine/HostReset.lean leaves what `Keeps` says. -/

set_option Elab.async false

namespace Sys2Proof.Machine

theorem refillShared_keeps {M : Nat} {s0 : State} (k : Nat) {s : State} (hk : Keeps M s0 s) (hM : Sub 129 M := by exact ‹Sub _ M›.of rfl) :
    Keeps M s0 (refillShared k s) := by
  unfold refillShared
  try dsimp only
  repeat' (with_reducible first | assumption | exact hM.of rfl | apply Keeps.refl | apply keeps_ite | apply showTags_keeps | apply updCtrl_keeps | apply forEach_keeps | split | apply Keeps.upd_nv | intro _)

theorem enableCtrl_keeps {M : Nat} {s0 : State} (c f : Nat) (fabric portB : Bool) (asq acq ams mps : Nat) {s : State} (hk : Keeps M s0 s) (hM : Sub 129 M := by exact ‹Sub _ M›.of rfl) :
    Keeps M s0 (enableCtrl c f fabric portB asq acq ams mps s) := by
  unfold enableCtrl
  try dsimp only
  repeat' (with_reducible first | assumption | exact hM.of rfl | apply Keeps.refl | apply keeps_ite | apply showTags_keeps | split | apply Keeps.upd_nv | intro _)

theorem abandonUnit_keeps {M : Nat} {s0 : State} (x : Cmd) (n : Ns) (iu : Nat) {s : State} (hk : Keeps M s0 s) (hM : Sub 264965 M := by exact ‹Sub _ M›.of rfl) :
    Keeps M s0 (abandonUnit x n iu s) := by
  unfold abandonUnit
  try dsimp only
  repeat' (with_reducible first | assumption | exact hM.of rfl | apply Keeps.refl | apply keeps_ite | apply deallocUnit_keeps | apply journal_keeps | apply landUnit_keeps | apply useFree_keeps | split | intro _)

theorem abandonCmd_keeps {M : Nat} {s0 : State} (x : Cmd) {s : State} (hk : Keeps M s0 s) (hM : Sub 265093 M := by exact ‹Sub _ M›.of rfl) :
    Keeps M s0 (abandonCmd x s) := by
  unfold abandonCmd
  try dsimp only
  repeat' (with_reducible first | assumption | exact hM.of rfl | apply Keeps.refl | apply keeps_ite | apply abandonUnit_keeps | apply dropLanding_keeps | apply forEach_keeps | split | apply Keeps.upd_nv | intro _)

theorem goOn_keeps {M : Nat} {s0 : State} {s : State} (hk : Keeps M s0 s) (hM : Sub 4459429 M := by exact ‹Sub _ M›.of rfl) :
    Keeps M s0 (goOn s) := by
  unfold goOn
  try dsimp only
  repeat' (with_reducible first | assumption | exact hM.of rfl | apply Keeps.refl | apply keeps_ite | apply applyAll_keeps | apply settleAll_keeps | apply wakeReads_keeps | split | intro _)

theorem ctrlClear_keeps {M : Nat} {s0 : State} (c : Nat) (scanBlock : Bool) {s : State} (hk : Keeps M s0 s) (hM : Sub 39648167 M := by exact ‹Sub _ M›.of rfl) :
    Keeps M s0 (ctrlClear c scanBlock s) := by
  unfold ctrlClear
  try dsimp only
  repeat' (with_reducible first | assumption | exact hM.of rfl | apply Keeps.refl | apply keeps_ite | apply abandonCmd_keeps | apply abandonExecs_keeps | apply goOn_keeps | apply refillShared_keeps | apply scanAbort5_keeps | apply servePigeon_keeps | apply forEach_keeps | split | apply Keeps.upd_nv_prog | apply Keeps.upd_prog | intro _)

theorem ctrlReset_keeps {M : Nat} {s0 : State} (c cause : Nat) {s : State} (hk : Keeps M s0 s) (hM : Sub 39648167 M := by exact ‹Sub _ M›.of rfl) :
    Keeps M s0 (ctrlReset c cause s) := by
  unfold ctrlReset
  try dsimp only
  repeat' (with_reducible first | assumption | exact hM.of rfl | apply Keeps.refl | apply keeps_ite | apply ctrlClear_keeps | apply resetPostmark_keeps | split | intro _)

theorem funcData_keeps {M : Nat} {s0 : State} (f : Nat) {s : State} (hk : Keeps M s0 s) (hM : Sub 39647911 M := by exact ‹Sub _ M›.of rfl) :
    Keeps M s0 (funcData f s) := by
  unfold funcData
  try dsimp only
  repeat' (with_reducible first | assumption | exact hM.of rfl | apply Keeps.refl | apply keeps_ite | apply abandonExecs_keeps | apply cancelPreReads_keeps | apply deleteTablesOf_keeps | apply dropPages_keeps | apply zeroGranule_keeps | apply forEach_keeps | split | apply Keeps.upd_prog | intro _)

theorem clearIrqs_keeps {M : Nat} {s0 : State} (p : Nat → Bool) {s : State} (hk : Keeps M s0 s) (hM : Sub 1152 M := by exact ‹Sub _ M›.of rfl) :
    Keeps M s0 (clearIrqs p s) := by
  unfold clearIrqs
  try dsimp only
  repeat' (with_reducible first | assumption | exact hM.of rfl | apply Keeps.refl | apply keeps_ite | split | apply Keeps.upd_nv_ten | apply Keeps.upd_ten | intro _)

theorem flrOne_keeps {M : Nat} {s0 : State} (f : Nat) {s : State} (hk : Keeps M s0 s) (hM : Sub 39649191 M := by exact ‹Sub _ M›.of rfl) :
    Keeps M s0 (flrOne f s) := by
  unfold flrOne
  try dsimp only
  repeat' (with_reducible first | assumption | exact hM.of rfl | apply Keeps.refl | apply keeps_ite | apply clearIrqs_keeps | apply ctrlClear_keeps | apply funcData_keeps | apply lbxReset_keeps | apply scanAbort5_keeps | split | apply Keeps.upd_ten | intro _)

theorem setNumVf_keeps {M : Nat} {s0 : State} (portB : Bool) (n : Nat) {s : State} (hk : Keeps M s0 s) (hM : Sub 129 M := by exact ‹Sub _ M›.of rfl) :
    Keeps M s0 (setNumVf portB n s) := by
  unfold setNumVf
  try dsimp only
  repeat' (with_reducible first | assumption | exact hM.of rfl | apply Keeps.refl | apply keeps_ite | apply fset_keeps | split | apply Keeps.upd_nv | intro _)

theorem funcReset_keeps {M : Nat} {s0 : State} (f : Nat) {s : State} (hk : Keeps M s0 s) (hM : Sub 39649191 M := by exact ‹Sub _ M›.of rfl) :
    Keeps M s0 (funcReset f s) := by
  unfold funcReset
  try dsimp only
  repeat' (with_reducible first | assumption | exact hM.of rfl | apply Keeps.refl | apply keeps_ite | apply flrOne_keeps | apply raiseEvent_keeps | apply resetPostmark_keeps | apply sendMsg_keeps | apply setNumVf_keeps | apply forEach_keeps | split | intro _)

end Sys2Proof.Machine
end

