-- ==== Sys2Proof/Laws/KeepNetBase.lean ====
section
/-! SUPPORT. Every operation of Machine/NetBase.lean leaves what `Keeps` says. -/

set_option Elab.async false

namespace Sys2Proof.Machine

theorem updNet_keeps {M : Nat} {s0 : State} (f : Net → Net) {s : State} (hk : Keeps M s0 s) (hM : Sub 2097152 M := by exact ‹Sub _ M›.of rfl) :
    Keeps M s0 (updNet f s) := by
  unfold updNet
  try dsimp only
  repeat' (with_reducible first | assumption | exact hM.of rfl | apply Keeps.refl | apply keeps_ite | split | apply Keeps.upd_net)

theorem netSend_keeps {M : Nat} {s0 : State} (o : NetOut) {s : State} (hk : Keeps M s0 s) (hM : Sub 2097152 M := by exact ‹Sub _ M›.of rfl) :
    Keeps M s0 (netSend o s) := by
  unfold netSend
  try dsimp only
  repeat' (with_reducible first | assumption | exact hM.of rfl | apply Keeps.refl | apply keeps_ite | apply updNet_keeps)

theorem showConns_keeps {M : Nat} {s0 : State} {s : State} (hk : Keeps M s0 s) (hM : Sub 1 M := by exact ‹Sub _ M›.of rfl) :
    Keeps M s0 (showConns s) := by
  unfold showConns
  try dsimp only
  repeat' (with_reducible first | assumption | exact hM.of rfl | apply Keeps.refl | apply keeps_ite | apply forN_keeps | apply fset_keeps | apply forN_keeps | split | intro _)

theorem discoveryChange_keeps {M : Nat} {s0 : State} {s : State} (hk : Keeps M s0 s) (hM : Sub 4194465 M := by exact ‹Sub _ M›.of rfl) :
    Keeps M s0 (discoveryChange s) := by
  unfold discoveryChange
  try dsimp only
  repeat' (with_reducible first | assumption | exact hM.of rfl | apply Keeps.refl | apply keeps_ite | apply raiseAen_keeps)

theorem announce_keeps {M : Nat} {s0 : State} (n : Nat) {s : State} (hk : Keeps M s0 s) (hM : Sub 2097152 M := by exact ‹Sub _ M›.of rfl) :
    Keeps M s0 (announce n s) := by
  unfold announce
  try dsimp only
  repeat' (with_reducible first | assumption | exact hM.of rfl | apply Keeps.refl | apply keeps_ite | apply forEach_keeps | apply netSend_keeps | apply forEach_keeps | split | intro _)

theorem moveAddrs_keeps {M : Nat} {s0 : State} (n : Nat) (away : Bool) {s : State} (hk : Keeps M s0 s) (hM : Sub 2097153 M := by exact ‹Sub _ M›.of rfl) :
    Keeps M s0 (moveAddrs n away s) := by
  unfold moveAddrs
  try dsimp only
  repeat' (with_reducible first | assumption | exact hM.of rfl | apply Keeps.refl | apply keeps_ite | apply announce_keeps | apply fset_keeps | apply showConns_keeps | apply updNet_keeps)

theorem failover_keeps {M : Nat} {s0 : State} (n : Nat) {s : State} (hk : Keeps M s0 s) (hM : Sub 2097185 M := by exact ‹Sub _ M›.of rfl) :
    Keeps M s0 (failover n s) := by
  unfold failover
  try dsimp only
  repeat' (with_reducible first | assumption | exact hM.of rfl | apply Keeps.refl | apply keeps_ite | apply moveAddrs_keeps | apply raiseEvent_keeps)

theorem linkDown_keeps {M : Nat} {s0 : State} (n : Nat) {s : State} (hk : Keeps M s0 s) (hM : Sub 6291617 M := by exact ‹Sub _ M›.of rfl) :
    Keeps M s0 (linkDown n s) := by
  unfold linkDown
  try dsimp only
  repeat' (with_reducible first | assumption | exact hM.of rfl | apply Keeps.refl | apply keeps_ite | apply discoveryChange_keeps | apply failover_keeps | apply fset_keeps | apply raiseEvent_keeps | split | apply Keeps.upd_net)

theorem portRetire_keeps {M : Nat} {s0 : State} (n : Nat) {s : State} (hk : Keeps M s0 s) (hM : Sub 6291617 M := by exact ‹Sub _ M›.of rfl) :
    Keeps M s0 (portRetire n s) := by
  unfold portRetire
  try dsimp only
  repeat' (with_reducible first | assumption | exact hM.of rfl | apply Keeps.refl | apply keeps_ite | apply discoveryChange_keeps | apply failover_keeps | apply fset_keeps | apply raiseEvent_keeps | apply retireDomain_keeps)

theorem dropConn_keeps {M : Nat} {s0 : State} (c : Nat) (orderly : Bool) {s : State} (hk : Keeps M s0 s) (hM : Sub 2097153 M := by exact ‹Sub _ M›.of rfl) :
    Keeps M s0 (dropConn c orderly s) := by
  unfold dropConn
  try dsimp only
  repeat' (with_reducible first | assumption | exact hM.of rfl | apply Keeps.refl | apply keeps_ite | apply netSend_keeps | apply showConns_keeps | apply updNet_keeps | split)

theorem endAssoc_keeps {M : Nat} {s0 : State} (c : Nat) (orderly : Bool) {s : State} (hk : Keeps M s0 s) (hM : Sub 41745319 M := by exact ‹Sub _ M›.of rfl) :
    Keeps M s0 (endAssoc c orderly s) := by
  unfold endAssoc
  try dsimp only
  repeat' (with_reducible first | assumption | exact hM.of rfl | apply Keeps.refl | apply keeps_ite | apply ctrlReset_keeps | apply dropConn_keeps | apply forEach_keeps | apply forEach_keeps | split | apply Keeps.upd_nv_net | intro _)

theorem connLost_keeps {M : Nat} {s0 : State} (c : Nat) {s : State} (hk : Keeps M s0 s) (hM : Sub 41745319 M := by exact ‹Sub _ M›.of rfl) :
    Keeps M s0 (connLost c s) := by
  unfold connLost
  try dsimp only
  repeat' (with_reducible first | assumption | exact hM.of rfl | apply Keeps.refl | apply keeps_ite | apply dropConn_keeps | apply endAssoc_keeps | split)

theorem endAllAssocs_keeps {M : Nat} {s0 : State} (orderly : Bool) {s : State} (hk : Keeps M s0 s) (hM : Sub 41745319 M := by exact ‹Sub _ M›.of rfl) :
    Keeps M s0 (endAllAssocs orderly s) := by
  unfold endAllAssocs
  try dsimp only
  repeat' (with_reducible first | assumption | exact hM.of rfl | apply Keeps.refl | apply keeps_ite | apply dropConn_keeps | apply endAssoc_keeps | apply forEach_keeps | apply forEach_keeps | split | intro _)

theorem netDrop_keeps {M : Nat} {s0 : State} {s : State} (hk : Keeps M s0 s) (hM : Sub 41745319 M := by exact ‹Sub _ M›.of rfl) :
    Keeps M s0 (netDrop s) := by
  unfold netDrop
  try dsimp only
  repeat' (with_reducible first | assumption | exact hM.of rfl | apply Keeps.refl | apply keeps_ite | apply endAllAssocs_keeps | apply forN_keeps | apply fset_keeps | apply showConns_keeps | apply updNet_keeps | apply forN_keeps | split | intro _)

theorem mirrorPort_keeps {M : Nat} {s0 : State} (n : Nat) (d : List Byte) {s : State} (hk : Keeps M s0 s) (hM : Sub 1 M := by exact ‹Sub _ M›.of rfl) :
    Keeps M s0 (mirrorPort n d s) := by
  unfold mirrorPort
  try dsimp only
  repeat' (with_reducible first | assumption | exact hM.of rfl | apply Keeps.refl | apply keeps_ite | apply fset_keeps)

theorem retrain_keeps {M : Nat} {s0 : State} (n : Nat) {s : State} (hk : Keeps M s0 s) (hM : Sub 1 M := by exact ‹Sub _ M›.of rfl) :
    Keeps M s0 (retrain n s) := by
  unfold retrain
  try dsimp only
  repeat' (with_reducible first | assumption | exact hM.of rfl | apply Keeps.refl | apply keeps_ite | apply fset_keeps)

theorem setPort_keeps {M : Nat} {s0 : State} (n : Nat) (d : List Byte) (lost : List Nat) {s : State} (hk : Keeps M s0 s) (hM : Sub 41745319 M := by exact ‹Sub _ M›.of rfl) :
    Keeps M s0 (setPort n d lost s) := by
  unfold setPort
  try dsimp only
  repeat' (with_reducible first | assumption | exact hM.of rfl | apply Keeps.refl | apply keeps_ite | apply connLost_keeps | apply discoveryChange_keeps | apply forEach_keeps | apply linkDown_keeps | apply mirrorPort_keeps | apply retrain_keeps | apply updNet_keeps | apply forEach_keeps | split | intro _)

theorem setHost_keeps {M : Nat} {s0 : State} (i : Nat) (d : List Byte) {s : State} (hk : Keeps M s0 s) (hM : Sub 41745319 M := by exact ‹Sub _ M›.of rfl) :
    Keeps M s0 (setHost i d s) := by
  unfold setHost
  try dsimp only
  repeat' (with_reducible first | assumption | exact hM.of rfl | apply Keeps.refl | apply keeps_ite | apply discoveryChange_keeps | apply endAssoc_keeps | apply forEach_keeps | apply updNet_keeps | apply forEach_keeps | split | intro _)

theorem setPsk_keeps {M : Nat} {s0 : State} (i : Nat) (d : List Byte) {s : State} (hk : Keeps M s0 s) (hM : Sub 2097152 M := by exact ‹Sub _ M›.of rfl) :
    Keeps M s0 (setPsk i d s) := by
  unfold setPsk
  try dsimp only
  repeat' (with_reducible first | assumption | exact hM.of rfl | apply Keeps.refl | apply keeps_ite | apply updNet_keeps)

end Sys2Proof.Machine
end

