-- ==== Sys2Proof/Laws/KeepResets.lean ====
section
/-! SUPPORT. Every operation of Machine/Resets.lean leaves what `Keeps` says. -/

set_option Elab.async false

namespace Sys2Proof.Machine

theorem chanLost_keeps {M : Nat} {s0 : State} (n : Nat) {s : State} (hk : Keeps M s0 s) (hM : Sub 769 M := by exact ‹Sub _ M›.of rfl) :
    Keeps M s0 (chanLost n s) := by
  unfold chanLost
  try dsimp only
  repeat' (with_reducible first | assumption | exact hM.of rfl | apply Keeps.refl | apply keeps_ite | apply interruptedProgram_keeps | apply setChan_keeps | apply updBlkOf_keeps | apply forEach_keeps | split | intro _)

theorem coresLost_keeps {M : Nat} {s0 : State} (keep : Nat → Bool) {s : State} (hk : Keeps M s0 s) (hM : Sub 524288 M := by exact ‹Sub _ M›.of rfl) :
    Keeps M s0 (coresLost keep s) := by
  unfold coresLost
  try dsimp only
  repeat' (with_reducible first | assumption | exact hM.of rfl | apply Keeps.refl | apply keeps_ite | split | apply Keeps.upd_cores)

theorem loseServing_keeps {M : Nat} {s0 : State} {s : State} (hk : Keeps M s0 s) (hM : Sub 67108775 M := by exact ‹Sub _ M›.of rfl) :
    Keeps M s0 (loseServing s) := by
  unfold loseServing
  try dsimp only
  repeat' (with_reducible first | assumption | exact hM.of rfl | apply Keeps.refl | apply keeps_ite | apply abandonCmd_keeps | apply abandonExecs_keeps | apply chanLost_keeps | apply coresLost_keeps | apply dramLost_keeps | apply keepClusCounts_keeps | apply keepCounts_keeps | apply netDrop_keeps | apply scanAbandon_keeps | apply sramLost_keeps | apply forN_keeps | apply forEach_keeps | split | apply Keeps.upd_nv | apply Keeps.upd_nv_ten_prog_dram_mat_comp_dig_keys_sch_clus_mgt_bus_dirty | intro _)

theorem restoreFeats_keeps {M : Nat} {s0 : State} {s : State} (hk : Keeps M s0 s) (hM : Sub 2097168 M := by exact ‹Sub _ M›.of rfl) :
    Keeps M s0 (restoreFeats s) := by
  unfold restoreFeats
  try dsimp only
  repeat' (with_reducible first | assumption | exact hM.of rfl | apply Keeps.refl | apply keeps_ite | split | apply Keeps.upd_feat_net)

theorem clearBlocks_keeps {M : Nat} {s0 : State} (p : Block → Bool) {s : State} (hk : Keeps M s0 s) (hM : Sub 1 M := by exact ‹Sub _ M›.of rfl) :
    Keeps M s0 (clearBlocks p s) := by
  have ite : ∀ {c : Prop} [Decidable c] {n : Nat} {f : Nat → State → State} {t : State}, Keeps M s0 t → (∀ n u, Keeps M u (f n u)) →
      Keeps M s0 (if c then forN f n t else t) := fun h g => keeps_ite (forN_keeps h g) h
  have fs : ∀ (f : Fld) (v : Nat) (t : State), Keeps M t (fset f v t) := fun f v t => fset_keeps f v (Keeps.refl t)
  have fi : ∀ (c : Prop) [Decidable c] (f : Fld) (v : Nat) (t : State), Keeps M t (if c then fset f v t else t) :=
    fun _ _ f v t => keeps_ite (fs f v t) (Keeps.refl t)
  have h1 := clearRegs_keeps (fun b _ r => p b && (r.cls == .m || r.cls == .c || r.cls == .f || (r.cls == .live && !selfDriven b))) hk
  have h2 := forEach_keeps (f := fun n t => fset (Fl.CMP_STATUS_STATE n) 3 t)
    (l := (List.range 4).filter (fun n => fget (Fl.CMP_STATUS_STATE n) s == 3)) h1 (fun n t => fs _ _ t)
  unfold clearBlocks
  refine ite ?_ (fun n t => fi _ _ _ t)
  have tail : ∀ {t : State}, Keeps M s0 t → ∀ {c : Prop} [Decidable c] {f : Fld} {v : Nat}, Keeps M s0 (if c then fsetTo f v t else t) :=
    fun h _ _ f v => keeps_ite (fsetTo_keeps f v h) h
  have h5 := tail (tail (ite (ite (ite h2 (fun n t => fi (pdRetired (12 + n) t) (Fl.AXC_STATUS_STATE n) 3 t)
    (c := p .axc) (n := 8)) (fun n t => fi (dramRetired n t) (Fl.DMC_STATUS_STATE n) 3 t) (c := p .dmc) (n := 4))
    (fun n t => fi (pdRetired (10 + n) t) (Fl.NET_STATUS_STATE n) 3 t) (c := p .net) (n := 2))
    (c := p .hif) (f := Fl.HIF_OVL_STATUS_HWM) (v := fget Fl.HIF_OVL_STATUS_HWM s))
    (c := p .sch) (f := Fl.SCH_LETTERS_HWM) (v := fget Fl.SCH_LETTERS_HWM s)
  exact keeps_ite (forEach_keeps h5 (fun n t => fs _ _ t)) h5

theorem debugLost_keeps {M : Nat} {s0 : State} {s : State} (hk : Keeps M s0 s) (hM : Sub 8388609 M := by exact ‹Sub _ M›.of rfl) :
    Keeps M s0 (debugLost s) := by
  unfold debugLost
  try dsimp only
  repeat' (with_reducible first | assumption | exact hM.of rfl | apply Keeps.refl | apply keeps_ite | apply clearPoints_keeps | apply clearRegs_keeps | apply forN_keeps | apply forN_keeps | split | apply Keeps.upd_bus | intro _)

theorem forgetSets_keeps {M : Nat} {s0 : State} {s : State} (hk : Keeps M s0 s) (hM : Sub 256 M := by exact ‹Sub _ M›.of rfl) :
    Keeps M s0 (forgetSets s) := by
  unfold forgetSets
  try dsimp only
  repeat' (with_reducible first | assumption | exact hM.of rfl | apply Keeps.refl | apply keeps_ite | split | apply Keeps.upd_ftl | intro _)

theorem moduleClear_keeps {M : Nat} {s0 : State} {s : State} (hk : Keeps M s0 s) (hM : Sub 67108791 M := by exact ‹Sub _ M›.of rfl) :
    Keeps M s0 (moduleClear s) := by
  unfold moduleClear
  try dsimp only
  repeat' (with_reducible first | assumption | exact hM.of rfl | apply Keeps.refl | apply keeps_ite | apply clearBlocks_keeps | apply coresLost_keeps | apply debugLost_keeps | apply forgetSets_keeps | apply keepCounts_keeps | apply loseServing_keeps | apply restoreFeats_keeps | split | intro _)

theorem watchClear_keeps {M : Nat} {s0 : State} {s : State} (hk : Keeps M s0 s) (hM : Sub 67108775 M := by exact ‹Sub _ M›.of rfl) :
    Keeps M s0 (watchClear s) := by
  unfold watchClear
  try dsimp only
  repeat' (with_reducible first | assumption | exact hM.of rfl | apply Keeps.refl | apply keeps_ite | apply clearBlocks_keeps | apply clearPoints_keeps | apply forN_keeps | apply loseServing_keeps | apply forN_keeps | split | intro _)

theorem keepClear_keeps {M : Nat} {s0 : State} {s : State} (hk : Keeps M s0 s) (hM : Sub 8912897 M := by exact ‹Sub _ M›.of rfl) :
    Keeps M s0 (keepClear s) := by
  unfold keepClear
  try dsimp only
  repeat' (with_reducible first | assumption | exact hM.of rfl | apply Keeps.refl | apply keeps_ite | apply clearBlocks_keeps | apply coresLost_keeps | apply debugLost_keeps)

theorem enterDark_keeps {M : Nat} {s0 : State} {s : State} (hk : Keeps M s0 s) (hM : Sub 67108855 M := by exact ‹Sub _ M›.of rfl) :
    Keeps M s0 (enterDark s) := by
  unfold enterDark
  dsimp only
  refine pbkPending_keeps (wr_keeps _ _ (wr_keeps _ _ (Keeps.updP_pow (fun g => ?_) (setDomains_keeps _ (enterMode_keeps _ (dropUnsaved_keeps (moduleClear_keeps hk)))))))
  simp [LanesOk, LaneFull, LaneCoal]

theorem powerOnClear_keeps {M : Nat} {s0 : State} {s : State} (hk : Keeps M s0 s) (hM : Sub 19968641 M := by exact ‹Sub _ M›.of rfl) :
    Keeps M s0 (powerOnClear s) := by
  unfold powerOnClear
  try dsimp only
  repeat' (with_reducible first | assumption | exact hM.of rfl | apply Keeps.refl | apply keeps_ite | apply clearRegs_keeps | apply fsetTo_keeps | split | apply Keeps.upd_acc | apply Keeps.upd_nv_media_dram_mat_scan_clus_net_acc | intro _)

theorem mgtUp_keeps {M : Nat} {s0 : State} {s : State} (hk : Keeps M s0 s) (hM : Sub 4718593 M := by exact ‹Sub _ M›.of rfl) :
    Keeps M s0 (mgtUp s) := by
  unfold mgtUp
  try dsimp only
  repeat' (with_reducible first | assumption | exact hM.of rfl | apply Keeps.refl | apply keeps_ite | apply coreReset_keeps | apply fset_keeps | apply setMgt_keeps | apply wr_keeps | apply forN_keeps | split | intro _)

theorem mgtStart_keeps {M : Nat} {s0 : State} (wasOn : Bool) {s : State} (hk : Keeps M s0 s) (hM : Sub 4718593 M := by exact ‹Sub _ M›.of rfl) :
    Keeps M s0 (mgtStart wasOn s) := by
  unfold mgtStart
  try dsimp only
  repeat' (with_reducible first | assumption | exact hM.of rfl | apply Keeps.refl | apply keeps_ite | apply mgtUp_keeps)

theorem storeRise_keeps {M : Nat} {s0 : State} {s : State} (hk : Keeps M s0 s) (hM : Sub 4194304 M := by exact ‹Sub _ M›.of rfl) :
    Keeps M s0 (storeRise s).2 := by
  unfold storeRise
  try dsimp only
  repeat' (with_reducible first | assumption | exact hM.of rfl | apply Keeps.refl | apply keeps_ite | apply setMgt_keeps | split)

theorem storeRise_keeps_eq {M : Nat} {s0 : State} {s : State} {v0} {t' : State} (he : storeRise s = (v0, t')) (hk : Keeps M s0 s) (hM : Sub 4194304 M := by exact ‹Sub _ M›.of rfl) :
    Keeps M s0 t' := by
  have g : Keeps M s0 (storeRise s).2 := by
    with_reducible apply storeRise_keeps <;> assumption
  rw [he] at g
  exact g

theorem bootFirmware_keeps {M : Nat} {s0 : State} {s : State} (hk : Keeps M s0 s) (hM : Sub 4194304 M := by exact ‹Sub _ M›.of rfl) :
    Keeps M s0 (bootFirmware s) := by
  unfold bootFirmware
  try dsimp only
  repeat' (with_reducible first | assumption | exact hM.of rfl | apply Keeps.refl | apply keeps_ite | apply forEach_keeps | apply setFw_keeps | apply forEach_keeps | split | intro _)

theorem bootFallback_keeps {M : Nat} {s0 : State} (n : Nat) {s : State} (hk : Keeps M s0 s) (hM : Sub 4194304 M := by exact ‹Sub _ M›.of rfl) :
    Keeps M s0 (bootFallback n s) := by
  unfold bootFallback
  try dsimp only
  repeat' (with_reducible first | assumption | exact hM.of rfl | apply Keeps.refl | apply keeps_ite | apply setFw_keeps | split)

theorem hostRise_keeps {M : Nat} {s0 : State} {s : State} (hk : Keeps M s0 s) (hM : Sub 129 M := by exact ‹Sub _ M›.of rfl) :
    Keeps M s0 (hostRise s) := by
  unfold hostRise
  try dsimp only
  repeat' (with_reducible first | assumption | exact hM.of rfl | apply Keeps.refl | apply keeps_ite | apply fset_keeps | apply showTags_keeps | split | apply Keeps.upd_nv | intro _)

theorem sampleStrap_keeps {M : Nat} {s0 : State} {s : State} (hk : Keeps M s0 s) (hM : Sub 132 M := by exact ‹Sub _ M›.of rfl) :
    Keeps M s0 (sampleStrap s) := by
  unfold sampleStrap
  try dsimp only
  repeat' (with_reducible first | assumption | exact hM.of rfl | apply Keeps.refl | apply keeps_ite | apply useFree_keeps | split | apply Keeps.upd_nv | intro _)

theorem controlCoresStart_keeps {M : Nat} {s0 : State} {s : State} (hk : Keeps M s0 s) (hM : Sub 524289 M := by exact ‹Sub _ M›.of rfl) :
    Keeps M s0 (controlCoresStart s) := by
  unfold controlCoresStart
  try dsimp only
  repeat' (with_reducible first | assumption | exact hM.of rfl | apply Keeps.refl | apply keeps_ite | apply coreReset_keeps | apply forN_keeps | apply fset_keeps | apply forN_keeps | split | intro _)

theorem keyRise_keeps {M : Nat} {s0 : State} {s : State} (hk : Keeps M s0 s) (hM : Sub 5899489 M := by exact ‹Sub _ M›.of rfl) :
    Keeps M s0 (keyRise s) := by
  unfold keyRise
  try dsimp only
  repeat' (with_reducible first | assumption | exact hM.of rfl | apply Keeps.refl | apply keeps_ite | apply clusStart_keeps | apply fitGranules_keeps | apply forN_keeps | apply reloadSlots_keeps | apply showFree_keeps | apply forN_keeps | split | intro _)

theorem ucodeRise_keeps {M : Nat} {s0 : State} {s : State} (hk : Keeps M s0 s) (hM : Sub 1 M := by exact ‹Sub _ M›.of rfl) :
    Keeps M s0 (ucodeRise s) := by
  unfold ucodeRise
  try dsimp only
  repeat' (with_reducible first | assumption | exact hM.of rfl | apply Keeps.refl | apply keeps_ite | apply fset_keeps | apply forN_keeps | split | intro _)

theorem serveReached_keeps {M : Nat} {s0 : State} {s : State} (hk : Keeps M s0 s) (hM : Sub 4195297 M := by exact ‹Sub _ M›.of rfl) :
    Keeps M s0 (serveReached s) := by
  unfold serveReached
  try dsimp only
  repeat' (with_reducible first | assumption | exact hM.of rfl | apply Keeps.refl | apply keeps_ite | apply applyPowerState_keeps | apply checkWear_keeps | apply ftlResume_keeps | apply recomputeFill_keeps | apply setOrdered_keeps | split | apply Keeps.upd_nv | intro _)

theorem resetLater_keeps {M : Nat} {s0 : State} (r : LateReset) {s : State} (hk : Keeps M s0 s) (hM : Sub 4194304 M := by exact ‹Sub _ M›.of rfl) :
    Keeps M s0 (resetLater r s) := by
  unfold resetLater
  try dsimp only
  repeat' (with_reducible first | assumption | exact hM.of rfl | apply Keeps.refl | apply keeps_ite | apply setMgt_keeps)

theorem setLink_keeps {M : Nat} {s0 : State} (portB : Bool) (up speed width flit : Nat) {s : State} (hk : Keeps M s0 s) (hM : Sub 1 M := by exact ‹Sub _ M›.of rfl) :
    Keeps M s0 (setLink portB up speed width flit s) := by
  unfold setLink
  try dsimp only
  repeat' (with_reducible first | assumption | exact hM.of rfl | apply Keeps.refl | apply keeps_ite | apply fset_keeps)

theorem setLevels_keeps {M : Nat} {s0 : State} (portB : Bool) (on : List Nat) (level : Nat) (degr : Bool) {s : State} (hk : Keeps M s0 s) (hM : Sub 129 M := by exact ‹Sub _ M›.of rfl) :
    Keeps M s0 (setLevels portB on level degr s) := by
  unfold setLevels
  try dsimp only
  repeat' (with_reducible first | assumption | exact hM.of rfl | apply Keeps.refl | apply keeps_ite | apply fset_keeps | split | apply Keeps.upd_nv | intro _)

theorem linkOff_keeps {M : Nat} {s0 : State} (portB : Bool) {s : State} (hk : Keeps M s0 s) (hM : Sub 129 M := by exact ‹Sub _ M›.of rfl) :
    Keeps M s0 (linkOff portB s) := by
  unfold linkOff
  try dsimp only
  repeat' (with_reducible first | assumption | exact hM.of rfl | apply Keeps.refl | apply keeps_ite | apply setLevels_keeps | apply setLink_keeps | split | intro _)

theorem subsystemResetNow_keeps {M : Nat} {s0 : State} (perst : Bool) {s : State} (hk : Keeps M s0 s) (hM : Sub 58523575 M := by exact ‹Sub _ M›.of rfl) :
    Keeps M s0 (subsystemResetNow perst s) := by
  unfold subsystemResetNow
  try dsimp only
  repeat' (with_reducible first | assumption | exact hM.of rfl | apply Keeps.refl | apply keeps_ite | apply clearIrqs_keeps | apply clearRegs_keeps | apply ctrlClear_keeps | apply endAllAssocs_keeps | apply fset_keeps | apply funcData_keeps | apply goOn_keeps | apply keepCounts_keeps | apply lbxReset_keeps | apply linkOff_keeps | apply raiseEvent_keeps | apply resetPostmark_keeps | apply restoreFeats_keeps | apply scanAbort5_keeps | apply setNumVf_keeps | apply showConns_keeps | apply forEach_keeps | split | apply Keeps.upd_nv | apply Keeps.upd_nv_ten_net | intro _)

theorem nvmSubsystemReset_keeps {M : Nat} {s0 : State} (perst : Bool) {s : State} (hk : Keeps M s0 s) (hM : Sub 58523639 M := by exact ‹Sub _ M›.of rfl) :
    Keeps M s0 (nvmSubsystemReset perst s) := by
  unfold nvmSubsystemReset
  try dsimp only
  repeat' (with_reducible first | assumption | exact hM.of rfl | apply Keeps.refl | apply keeps_ite | apply resetLater_keeps | apply subsystemResetNow_keeps | apply waitCommit_keeps | split | intro _)

theorem portReset_keeps {M : Nat} {s0 : State} (portB : Bool) {s : State} (hk : Keeps M s0 s) (hM : Sub 39649191 M := by exact ‹Sub _ M›.of rfl) :
    Keeps M s0 (portReset portB s) := by
  unfold portReset
  try dsimp only
  repeat' (with_reducible first | assumption | exact hM.of rfl | apply Keeps.refl | apply keeps_ite | apply clearIrqs_keeps | apply ctrlClear_keeps | apply fset_keeps | apply funcData_keeps | apply goOn_keeps | apply lbxReset_keeps | apply linkOff_keeps | apply raiseEvent_keeps | apply resetPostmark_keeps | apply scanAbort5_keeps | apply setNumVf_keeps | apply updCtrl_keeps | apply forEach_keeps | split | apply Keeps.upd_ten | intro _)

theorem debugReset_keeps {M : Nat} {s0 : State} (cause : Nat) {s : State} (hk : Keeps M s0 s) (hM : Sub 4718817 M := by exact ‹Sub _ M›.of rfl) :
    Keeps M s0 (debugReset cause s) := by
  unfold debugReset
  try dsimp only
  repeat' (with_reducible first | assumption | exact hM.of rfl | apply Keeps.refl | apply keeps_ite | apply clearPoints_keeps | apply clearRegs_keeps | apply forN_keeps | apply fset_keeps | apply postmark_keeps | apply resetPostmark_keeps | apply resumeCore_keeps | apply showCore_keeps | apply forN_keeps | split | intro _)

theorem requestPortReset_keeps {M : Nat} {s0 : State} (portB : Bool) {s : State} (hk : Keeps M s0 s) (hM : Sub 39649255 M := by exact ‹Sub _ M›.of rfl) :
    Keeps M s0 (requestPortReset portB s) := by
  unfold requestPortReset
  try dsimp only
  repeat' (with_reducible first | assumption | exact hM.of rfl | apply Keeps.refl | apply keeps_ite | apply portReset_keeps | apply resetLater_keeps | apply waitCommit_keeps | split | intro _)

theorem requestCtrlReset_keeps {M : Nat} {s0 : State} (c : Nat) {s : State} (hk : Keeps M s0 s) (hM : Sub 41745383 M := by exact ‹Sub _ M›.of rfl) :
    Keeps M s0 (requestCtrlReset c s) := by
  unfold requestCtrlReset
  try dsimp only
  repeat' (with_reducible first | assumption | exact hM.of rfl | apply Keeps.refl | apply keeps_ite | apply ctrlReset_keeps | apply endAssoc_keeps | apply resetLater_keeps | apply waitCommit_keeps | split | intro _)

theorem requestDebugReset_keeps {M : Nat} {s0 : State} (cause : Nat) {s : State} (hk : Keeps M s0 s) (hM : Sub 4718817 M := by exact ‹Sub _ M›.of rfl) :
    Keeps M s0 (requestDebugReset cause s) := by
  unfold requestDebugReset
  try dsimp only
  repeat' (with_reducible first | assumption | exact hM.of rfl | apply Keeps.refl | apply keeps_ite | apply debugReset_keeps | apply waitCommit_keeps | split | intro _)

theorem braceChan_keeps {M : Nat} {s0 : State} (n : Nat) {s : State} (hk : Keeps M s0 s) (hM : Sub 513 M := by exact ‹Sub _ M›.of rfl) :
    Keeps M s0 (braceChan n s) := by
  unfold braceChan
  try dsimp only
  repeat' (with_reducible first | assumption | exact hM.of rfl | apply Keeps.refl | apply keeps_ite | apply setChan_keeps)

theorem braceBlocks_keeps {M : Nat} {s0 : State} {s : State} (hk : Keeps M s0 s) (hM : Sub 4458145 M := by exact ‹Sub _ M›.of rfl) :
    Keeps M s0 (braceBlocks s) := by
  unfold braceBlocks
  try dsimp only
  repeat' (with_reducible first | assumption | exact hM.of rfl | apply Keeps.refl | apply keeps_ite | apply braceChan_keeps | apply cancelPreReads_keeps | apply dropSwitch_keeps | apply fset_keeps | apply schBrace_keeps | apply setPaused_keeps | apply updPreempt_keeps | apply forN_keeps | split | apply Keeps.upd_nv | intro _)

theorem recoverBlocks_keeps {M : Nat} {s0 : State} {s : State} (hk : Keeps M s0 s) (hM : Sub 4459429 M := by exact ‹Sub _ M›.of rfl) :
    Keeps M s0 (recoverBlocks s) := by
  unfold recoverBlocks
  try dsimp only
  repeat' (with_reducible first | assumption | exact hM.of rfl | apply Keeps.refl | apply keeps_ite | apply goOn_keeps | apply hostAdmitHeld_keeps | apply schRecover_keeps | split | apply Keeps.upd_nv)

theorem sealFlash_keeps {M : Nat} {s0 : State} {s : State} (hk : Keeps M s0 s) (hM : Sub 4194305 M := by exact ‹Sub _ M›.of rfl) :
    Keeps M s0 (sealFlash s) := by
  unfold sealFlash
  try dsimp only
  repeat' (with_reducible first | assumption | exact hM.of rfl | apply Keeps.refl | apply keeps_ite | apply fset_keeps | apply setMgt_keeps | split | intro _)

theorem switchOff_keeps {M : Nat} {s0 : State} (off : Nat) {s : State} (hk : Keeps M s0 s) (hM : Sub 1 M := by exact ‹Sub _ M›.of rfl) :
    Keeps M s0 (switchOff off s) := by
  unfold switchOff
  try dsimp only
  repeat' (with_reducible first | assumption | exact hM.of rfl | apply Keeps.refl | apply keeps_ite | apply setPower_keeps | split | intro _)

theorem hostStopAdmission_keeps {M : Nat} {s0 : State} {s : State} (hk : Keeps M s0 s) (hM : Sub 128 M := by exact ‹Sub _ M›.of rfl) :
    Keeps M s0 (hostStopAdmission s) := by
  unfold hostStopAdmission
  try dsimp only
  repeat' (with_reducible first | assumption | exact hM.of rfl | apply Keeps.refl | apply keeps_ite | split | apply Keeps.upd_nv)

theorem abortWith_keeps {M : Nat} {s0 : State} (sct sc : Nat) (dnr : Bool) (x : Cmd) {s : State} (hk : Keeps M s0 s) (hM : Sub 4459429 M := by exact ‹Sub _ M›.of rfl) :
    Keeps M s0 (abortWith sct sc dnr x s) := by
  unfold abortWith
  try dsimp only
  repeat' (with_reducible first | assumption | exact hM.of rfl | apply Keeps.refl | apply keeps_ite | apply abandonUnit_keeps | apply complete_keeps | apply dropLanding_keeps | apply forEach_keeps | apply forEach_keeps | split | intro _)

theorem hostAbortOutstanding_keeps {M : Nat} {s0 : State} {s : State} (hk : Keeps M s0 s) (hM : Sub 39648167 M := by exact ‹Sub _ M›.of rfl) :
    Keeps M s0 (hostAbortOutstanding s) := by
  unfold hostAbortOutstanding
  try dsimp only
  repeat' (with_reducible first | assumption | exact hM.of rfl | apply Keeps.refl | apply keeps_ite | apply abandonExecs_keeps | apply abortWith_keeps | apply forEach_keeps | apply scanAbandon_keeps | apply forEach_keeps | split | intro _)

theorem setRequested_keeps {M : Nat} {s0 : State} (c ps : Nat) (auto : Bool) {s : State} (hk : Keeps M s0 s) (hM : Sub 161 M := by exact ‹Sub _ M›.of rfl) :
    Keeps M s0 (setRequested c ps auto s) := by
  unfold setRequested
  try dsimp only
  repeat' (with_reducible first | assumption | exact hM.of rfl | apply Keeps.refl | apply keeps_ite | apply applyPowerState_keeps | apply updCtrl_keeps)

theorem idleShallowRestore_keeps {M : Nat} {s0 : State} (elapsed : Nat) {s : State} (hk : Keeps M s0 s) (hM : Sub 264225 M := by exact ‹Sub _ M›.of rfl) :
    Keeps M s0 (idleShallowRestore elapsed s) := by
  unfold idleShallowRestore
  try dsimp only
  repeat' (with_reducible first | assumption | exact hM.of rfl | apply Keeps.refl | apply keeps_ite | apply settleSch_keeps | apply updSch_keeps | apply wr_keeps)

theorem idleDeepSave_keeps {M : Nat} {s0 : State} {s : State} (hk : Keeps M s0 s) (hM : Sub 37228547 M := by exact ‹Sub _ M›.of rfl) :
    Keeps M s0 (idleDeepSave s) := by
  unfold idleDeepSave
  try dsimp only
  repeat' (with_reducible first | assumption | exact hM.of rfl | apply Keeps.refl | apply keeps_ite | apply clearPoints_keeps | apply clusStop_keeps | apply dramLost_keeps | apply forN_keeps | apply fset_keeps | apply showConns_keeps | apply forN_keeps | split | apply Keeps.upd_cores_net | intro _)

theorem discardImage_keeps {M : Nat} {s0 : State} (u : SavedUnit) {s : State} (hk : Keeps M s0 s) (hM : Sub 21438689 M := by exact ‹Sub _ M›.of rfl) :
    Keeps M s0 (discardImage u s) := by
  unfold discardImage
  try dsimp only
  repeat' (with_reducible first | assumption | exact hM.of rfl | apply Keeps.refl | apply keeps_ite | apply clearRegs_keeps | apply forEach_keeps | apply fset_keeps | apply keepCounts_keeps | apply otherPostmark_keeps | apply raiseEvent_keeps | apply reloadSlots_keeps | apply schReset_keeps | apply setOrdered_keeps | apply showFree_keeps | apply showUnits_keeps | apply forEach_keeps | split | apply Keeps.upd_mat_dig_keys | intro _)

theorem idleDeepRestore_keeps {M : Nat} {s0 : State} (bad : List SavedUnit) {s : State} (hk : Keeps M s0 s) (hM : Sub 23011553 M := by exact ‹Sub _ M›.of rfl) :
    Keeps M s0 (idleDeepRestore bad s) := by
  unfold idleDeepRestore
  try dsimp only
  repeat' (with_reducible first | assumption | exact hM.of rfl | apply Keeps.refl | apply keeps_ite | apply clusStart_keeps | apply controlCoresStart_keeps | apply discardImage_keeps | apply dramRise_keeps | apply forEach_keeps | apply forN_keeps | apply fset_keeps | apply retrain_keeps | apply forN_keeps | apply forEach_keeps | split | intro _)

end Sys2Proof.Machine
end

