-- ==== Sys2Proof/Laws/KeepPowerModes.lean ====
section
/-! SUPPORT. Every operation of Machine/PowerModes.lean leaves what `Keeps` says. -/

set_option Elab.async false

namespace Sys2Proof.Machine

theorem reportCommit_keeps {M : Nat} {s0 : State} {s : State} (hk : Keeps M s0 s) (hM : Sub 97 M := by exact ‹Sub _ M›.of rfl) :
    Keeps M s0 (reportCommit s) := by
  unfold reportCommit
  try dsimp only
  repeat' (with_reducible first | assumption | exact hM.of rfl | apply Keeps.refl | apply keeps_ite | apply postmark_keeps | split | apply Keeps.upd_pow)

theorem commitCut_keeps {M : Nat} {s0 : State} {s : State} (hk : Keeps M s0 s) (hM : Sub 69 M := by exact ‹Sub _ M›.of rfl) :
    Keeps M s0 (commitCut s) := by
  unfold commitCut
  try dsimp only
  repeat' (with_reducible first | assumption | exact hM.of rfl | apply Keeps.refl | apply keeps_ite | apply fset_keeps | apply useFree_keeps | split | apply Keeps.upd_pow | intro _)

theorem startRise_keeps {M : Nat} {s0 : State} {s : State} (hk : Keeps M s0 s) (hM : Sub 4718817 M := by exact ‹Sub _ M›.of rfl) :
    Keeps M s0 (startRise s) := by
  unfold startRise
  try dsimp only
  repeat' (with_reducible first | assumption | exact hM.of rfl | apply Keeps.refl | apply keeps_ite | apply bootFirmware_keeps | apply enterMode_keeps | apply fset_keeps | apply hostRise_keeps | apply mgtStart_keeps | apply reportCommit_keeps | apply setPower_keeps | apply forN_keeps | split | apply Keeps.upd_pow | intro _)

theorem goWatch_keeps {M : Nat} {s0 : State} {s : State} (hk : Keeps M s0 s) (hM : Sub 67108839 M := by exact ‹Sub _ M›.of rfl) :
    Keeps M s0 (goWatch s) := by
  unfold goWatch
  try dsimp only
  repeat' (with_reducible first | assumption | exact hM.of rfl | apply Keeps.refl | apply keeps_ite | apply goMode_keeps | apply mgtStart_keeps | apply watchClear_keeps | split | apply Keeps.upd_pow | intro _)

theorem faultToWatch_keeps {M : Nat} {s0 : State} {s : State} (hk : Keeps M s0 s) (hM : Sub 67108839 M := by exact ‹Sub _ M›.of rfl) :
    Keeps M s0 (faultToWatch s) := by
  unfold faultToWatch
  try dsimp only
  repeat' (with_reducible first | assumption | exact hM.of rfl | apply Keeps.refl | apply keeps_ite | apply goWatch_keeps | split | apply Keeps.upd_pow | intro _)

theorem pllToWatch_keeps {M : Nat} {s0 : State} {s : State} (hk : Keeps M s0 s) (hM : Sub 67108839 M := by exact ‹Sub _ M›.of rfl) :
    Keeps M s0 (pllToWatch s) := by
  unfold pllToWatch
  try dsimp only
  repeat' (with_reducible first | assumption | exact hM.of rfl | apply Keeps.refl | apply keeps_ite | apply faultToWatch_keeps | split | apply Keeps.upd_pow | intro _)

theorem wakeToRise_keeps {M : Nat} {s0 : State} {s : State} (hk : Keeps M s0 s) (hM : Sub 67108839 M := by exact ‹Sub _ M›.of rfl) :
    Keeps M s0 (wakeToRise s) := by
  unfold wakeToRise
  try dsimp only
  repeat' (with_reducible first | assumption | exact hM.of rfl | apply Keeps.refl | apply keeps_ite | apply goWatch_keeps | apply startRise_keeps)

theorem riseFault_keeps {M : Nat} {s0 : State} (n : Nat) {s : State} (hk : Keeps M s0 s) (hM : Sub 33 M := by exact ‹Sub _ M›.of rfl) :
    Keeps M s0 (riseFault n s) := by
  unfold riseFault
  try dsimp only
  repeat' (with_reducible first | assumption | exact hM.of rfl | apply Keeps.refl | apply keeps_ite | apply postmark_keeps)

theorem startOrderlyStop_keeps {M : Nat} {s0 : State} (g : StopGoal) {s : State} (hk : Keeps M s0 s) (hM : Sub 4718817 M := by exact ‹Sub _ M›.of rfl) :
    Keeps M s0 (startOrderlyStop g s) := by
  unfold startOrderlyStop
  try dsimp only
  repeat' (with_reducible first | assumption | exact hM.of rfl | apply Keeps.refl | apply keeps_ite | apply beginTransition_keeps | apply enterMode_keeps | apply hostStopAdmission_keeps | apply releaseHalts_keeps | split | apply Keeps.upd_pow)

theorem resetOff_keeps {M : Nat} {s0 : State} (c : RstCause) {s : State} (hk : Keeps M s0 s) (hM : Sub 67108855 M := by exact ‹Sub _ M›.of rfl) :
    Keeps M s0 (resetOff c s) := by
  unfold resetOff
  try dsimp only
  repeat' (with_reducible first | assumption | exact hM.of rfl | apply Keeps.refl | apply keeps_ite | apply fset_keeps | apply goMode_keeps | apply moduleClear_keeps | apply resetPostmark_keeps | apply sampleStrap_keeps | split | apply Keeps.upd_pow | intro _)

theorem requestModuleReset_keeps {M : Nat} {s0 : State} (c : RstCause) {s : State} (hk : Keeps M s0 s) (hM : Sub 67108855 M := by exact ‹Sub _ M›.of rfl) :
    Keeps M s0 (requestModuleReset c s) := by
  unfold requestModuleReset
  try dsimp only
  repeat' (with_reducible first | assumption | exact hM.of rfl | apply Keeps.refl | apply keeps_ite | apply resetLater_keeps | apply resetOff_keeps | apply startOrderlyStop_keeps | split | apply Keeps.upd_pow)

theorem serveWaiting_keeps {M : Nat} {s0 : State} {s : State} (hk : Keeps M s0 s) (hM : Sub 67108855 M := by exact ‹Sub _ M›.of rfl) :
    Keeps M s0 (serveWaiting s) := by
  unfold serveWaiting
  try dsimp only
  repeat' (with_reducible first | assumption | exact hM.of rfl | apply Keeps.refl | apply keeps_ite | apply requestModuleReset_keeps | apply startOrderlyStop_keeps | split | apply Keeps.upd_pow | intro _)

theorem abandonBankTest_keeps {M : Nat} {s0 : State} {s : State} (hk : Keeps M s0 s) (hM : Sub 97 M := by exact ‹Sub _ M›.of rfl) :
    Keeps M s0 (abandonBankTest s) := by
  unfold abandonBankTest
  try dsimp only
  repeat' (with_reducible first | assumption | exact hM.of rfl | apply Keeps.refl | apply keeps_ite | apply fset_keeps | apply otherPostmark_keeps | split | apply Keeps.upd_pow)

theorem enterBrace_keeps {M : Nat} {s0 : State} (byPfail : Bool) {s : State} (hk : Keeps M s0 s) (hM : Sub 4982753 M := by exact ‹Sub _ M›.of rfl) :
    Keeps M s0 (enterBrace byPfail s) := by
  unfold enterBrace
  try dsimp only
  repeat' (with_reducible first | assumption | exact hM.of rfl | apply Keeps.refl | apply keeps_ite | apply abandonBankTest_keeps | apply braceBlocks_keeps | apply enterMode_keeps | apply fset_keeps | apply journalFlush_keeps | apply raiseEvent_keeps | apply releaseHalts_keeps | apply riseFault_keeps | apply showClocks_keeps | split | apply Keeps.upd_pow | intro _)

theorem execVbusWarn_keeps {M : Nat} {s0 : State} {s : State} (hk : Keeps M s0 s) (hM : Sub 4982753 M := by exact ‹Sub _ M›.of rfl) :
    OutKeeps M s0 (execVbusWarn s) := by
  unfold execVbusWarn
  try dsimp only
  repeat' (with_reducible first | assumption | exact hM.of rfl | apply Keeps.refl | apply outKeeps_ite | apply keeps_ite | apply OutKeeps.next | apply enterBrace_keeps | apply fset_keeps)

theorem execPfailAssert_keeps {M : Nat} {s0 : State} {s : State} (hk : Keeps M s0 s) (hM : Sub 4982753 M := by exact ‹Sub _ M›.of rfl) :
    OutKeeps M s0 (execPfailAssert s) := by
  unfold execPfailAssert
  try dsimp only
  repeat' (with_reducible first | assumption | exact hM.of rfl | apply Keeps.refl | apply outKeeps_ite | apply keeps_ite | apply OutKeeps.next | apply enterBrace_keeps | apply fset_keeps | split | apply Keeps.upd_pow)

theorem execPfailDeassert_keeps {M : Nat} {s0 : State} {s : State} (hk : Keeps M s0 s) (hM : Sub 67108839 M := by exact ‹Sub _ M›.of rfl) :
    OutKeeps M s0 (execPfailDeassert s) := by
  unfold execPfailDeassert
  try dsimp only
  repeat' (with_reducible first | assumption | exact hM.of rfl | apply Keeps.refl | apply outKeeps_ite | apply keeps_ite | apply OutKeeps.next | apply fset_keeps | apply wakeToRise_keeps | split | apply Keeps.upd_pow | intro _)

theorem execPfailHoldExpiry_keeps {M : Nat} {s0 : State} {s : State} (hk : Keeps M s0 s) (hM : Sub 64 M := by exact ‹Sub _ M›.of rfl) :
    OutKeeps M s0 (execPfailHoldExpiry s) := by
  unfold execPfailHoldExpiry
  try dsimp only
  repeat' (with_reducible first | assumption | exact hM.of rfl | apply Keeps.refl | apply outKeeps_ite | apply keeps_ite | apply OutKeeps.next | split | apply Keeps.upd_pow)

theorem execBraceComplete_keeps {M : Nat} {s0 : State} {s : State} (hk : Keeps M s0 s) (hM : Sub 4459493 M := by exact ‹Sub _ M›.of rfl) :
    OutKeeps M s0 (execBraceComplete s) := by
  unfold execBraceComplete
  try dsimp only
  repeat' (with_reducible first | assumption | exact hM.of rfl | apply Keeps.refl | apply outKeeps_ite | apply keeps_ite | apply OutKeeps.next | apply ftlJournalOnFlash_keeps | apply journalFlush_keeps | split | apply Keeps.upd_pow | intro _)

theorem resumeReset_keeps {M : Nat} {s0 : State} (r : LateReset) {s : State} (hk : Keeps M s0 s) (hM : Sub 67108855 M := by exact ‹Sub _ M›.of rfl) :
    Keeps M s0 (resumeReset r s) := by
  unfold resumeReset
  try dsimp only
  repeat' (with_reducible first | assumption | exact hM.of rfl | apply Keeps.refl | apply keeps_ite | apply channelResetCal_keeps | apply clusterResetWith_keeps | apply ctrlReset_keeps | apply debugReset_keeps | apply endAssoc_keeps | apply funcReset_keeps | apply nvmSubsystemReset_keeps | apply portReset_keeps | apply requestModuleReset_keeps | split | intro _)

theorem resumeResets_keeps {M : Nat} {s0 : State} {s : State} (hk : Keeps M s0 s) (hM : Sub 67108855 M := by exact ‹Sub _ M›.of rfl) :
    Keeps M s0 (resumeResets s) := by
  unfold resumeResets
  try dsimp only
  repeat' (with_reducible first | assumption | exact hM.of rfl | apply Keeps.refl | apply keeps_ite | apply requestModuleReset_keeps | apply resumeReset_keeps | apply forEach_keeps | split | apply Keeps.upd_pow | intro _)

theorem execBraceRecovery_keeps {M : Nat} {s0 : State} {s : State} (hk : Keeps M s0 s) (hM : Sub 67108855 M := by exact ‹Sub _ M›.of rfl) :
    OutKeeps M s0 (execBraceRecovery s) := by
  unfold execBraceRecovery
  try dsimp only
  repeat' (with_reducible first | assumption | exact hM.of rfl | apply Keeps.refl | apply outKeeps_ite | apply keeps_ite | apply OutKeeps.next | apply beginTransition_keeps | apply enterMode_keeps | apply fset_keeps | apply haltMode_keeps | apply pllToWatch_keeps | apply raiseEvent_keeps | apply recoverBlocks_keeps | apply resumeResets_keeps | apply settleReadOnly_keeps | apply showClocks_keeps | split | apply Keeps.upd_pow | intro _)

theorem execHoldupSwitchIn_keeps {M : Nat} {s0 : State} {s : State} (hk : Keeps M s0 s) (hM : Sub 65 M := by exact ‹Sub _ M›.of rfl) :
    OutKeeps M s0 (execHoldupSwitchIn s) := by
  unfold execHoldupSwitchIn
  try dsimp only
  repeat' (with_reducible first | assumption | exact hM.of rfl | apply Keeps.refl | apply outKeeps_ite | apply keeps_ite | apply OutKeeps.next | apply fset_keeps | split | apply Keeps.upd_pow | intro _)

theorem execBrownoutLimit_keeps {M : Nat} {s0 : State} {s : State} (hk : Keeps M s0 s) (hM : Sub 65 M := by exact ‹Sub _ M›.of rfl) :
    OutKeeps M s0 (execBrownoutLimit s) := by
  unfold execBrownoutLimit
  try dsimp only
  repeat' (with_reducible first | assumption | exact hM.of rfl | apply Keeps.refl | apply outKeeps_ite | apply keeps_ite | apply OutKeeps.next | apply fset_keeps | split | apply Keeps.upd_pow)

theorem sealMeta_keeps {M : Nat} {s0 : State} {s : State} (hk : Keeps M s0 s) (hM : Sub 67108839 M := by exact ‹Sub _ M›.of rfl) :
    Keeps M s0 (sealMeta s) := by
  unfold sealMeta
  try dsimp only
  repeat' (with_reducible first | assumption | exact hM.of rfl | apply Keeps.refl | apply keeps_ite | apply ftlSealMeta_keeps | apply switchOff_keeps | apply watchClear_keeps | split | apply Keeps.upd_pow | intro _)

theorem sealCopy_keeps {M : Nat} {s0 : State} {s : State} (hk : Keeps M s0 s) (hM : Sub 4198625 M := by exact ‹Sub _ M›.of rfl) :
    Keeps M s0 (sealCopy s) := by
  unfold sealCopy
  try dsimp only
  repeat' (with_reducible first | assumption | exact hM.of rfl | apply Keeps.refl | apply keeps_ite | apply pbkSealCopy_keeps | split | apply Keeps.upd_pow | intro _)

theorem sealAdvance_keeps {M : Nat} {s0 : State} {s : State} (hk : Keeps M s0 s) (hM : Sub 67108839 M := by exact ‹Sub _ M›.of rfl) :
    Keeps M s0 (sealAdvance s) := by
  unfold sealAdvance
  try dsimp only
  repeat' (with_reducible first | assumption | exact hM.of rfl | apply Keeps.refl | apply keeps_ite | apply sealCopy_keeps | apply sealMeta_keeps | split | intro _)

theorem execSealStart_keeps {M : Nat} {s0 : State} {s : State} (hk : Keeps M s0 s) (hM : Sub 4194369 M := by exact ‹Sub _ M›.of rfl) :
    OutKeeps M s0 (execSealStart s) := by
  unfold execSealStart
  try dsimp only
  repeat' (with_reducible first | assumption | exact hM.of rfl | apply Keeps.refl | apply outKeeps_ite | apply keeps_ite | apply OutKeeps.next | apply clearBlocks_keeps | apply fset_keeps | apply sealFlash_keeps | apply setPower_keeps | apply switchOff_keeps | split | apply Keeps.upd_pow | intro _)

theorem execSealEnd_keeps {M : Nat} {s0 : State} (energy duration : Nat) {s : State} (hk : Keeps M s0 s) (hM : Sub 67108839 M := by exact ‹Sub _ M›.of rfl) :
    OutKeeps M s0 (execSealEnd energy duration s) := by
  unfold execSealEnd
  try dsimp only
  repeat' (with_reducible first | assumption | exact hM.of rfl | apply Keeps.refl | apply outKeeps_ite | apply keeps_ite | apply OutKeeps.next | apply fset_keeps | apply sealAdvance_keeps | apply setPower_keeps | split | apply Keeps.upd_pow | apply Keeps.updR_pow | intro _)

theorem recordReset_keeps {M : Nat} {s0 : State} (r : LateReset) {s : State} (hk : Keeps M s0 s) (hM : Sub 33 M := by exact ‹Sub _ M›.of rfl) :
    Keeps M s0 (recordReset r s) := by
  unfold recordReset
  try dsimp only
  repeat' (with_reducible first | assumption | exact hM.of rfl | apply Keeps.refl | apply keeps_ite | apply fset_keeps | apply resetPostmark_keeps | split | intro _)

theorem recordWaitingReset_keeps {M : Nat} {s0 : State} {s : State} (hk : Keeps M s0 s) (hM : Sub 67108855 M := by exact ‹Sub _ M›.of rfl) :
    Keeps M s0 (recordWaitingReset s) := by
  unfold recordWaitingReset
  try dsimp only
  repeat' (with_reducible first | assumption | exact hM.of rfl | apply Keeps.refl | apply keeps_ite | apply keepClear_keeps | apply moduleClear_keeps | apply recordReset_keeps | apply sampleStrap_keeps | apply forEach_keeps | split | apply Keeps.upd_pow | intro _)

theorem execSealJudgment_keeps {M : Nat} {s0 : State} (vbusAt50 : Bool) {s : State} (hk : Keeps M s0 s) (hM : Sub 67108855 M := by exact ‹Sub _ M›.of rfl) :
    OutKeeps M s0 (execSealJudgment vbusAt50 s) := by
  unfold execSealJudgment
  try dsimp only
  repeat' (with_reducible first | assumption | exact hM.of rfl | apply Keeps.refl | apply outKeeps_ite | apply keeps_ite | apply OutKeeps.next | apply beginTransition_keeps | apply enterDark_keeps | apply fset_keeps | apply goMode_keeps | apply pllToWatch_keeps | apply recordWaitingReset_keeps | apply wakeToRise_keeps | split | apply Keeps.upd_pow | intro _)

theorem execRestExpiry_keeps {M : Nat} {s0 : State} {s : State} (hk : Keeps M s0 s) (hM : Sub 67108855 M := by exact ‹Sub _ M›.of rfl) :
    OutKeeps M s0 (execRestExpiry s) := by
  unfold execRestExpiry
  try dsimp only
  repeat' (with_reducible first | assumption | exact hM.of rfl | apply Keeps.refl | apply outKeeps_ite | apply keeps_ite | apply OutKeeps.next | apply fset_keeps | apply resumeResets_keeps | apply startRise_keeps | split | intro _)

theorem execKeepVbusRecovery_keeps {M : Nat} {s0 : State} {s : State} (hk : Keeps M s0 s) (hM : Sub 67108839 M := by exact ‹Sub _ M›.of rfl) :
    OutKeeps M s0 (execKeepVbusRecovery s) := by
  unfold execKeepVbusRecovery
  try dsimp only
  repeat' (with_reducible first | assumption | exact hM.of rfl | apply Keeps.refl | apply outKeeps_ite | apply keeps_ite | apply OutKeeps.next | apply fset_keeps | apply wakeToRise_keeps | split | intro _)

theorem execRegulatorCutoff_keeps {M : Nat} {s0 : State} (franked : Nat) {s : State} (hk : Keeps M s0 s) (hM : Sub 67108855 M := by exact ‹Sub _ M›.of rfl) :
    OutKeeps M s0 (execRegulatorCutoff franked s) := by
  unfold execRegulatorCutoff
  try dsimp only
  repeat' (with_reducible first | assumption | exact hM.of rfl | apply Keeps.refl | apply outKeeps_ite | apply keeps_ite | apply OutKeeps.next | apply commitCut_keeps | apply enterDark_keeps | split | apply Keeps.upd_pow | apply Keeps.updR_pow | intro _)

theorem setQual_keeps {M : Nat} {s0 : State} (aux on : Bool) {s : State} (hk : Keeps M s0 s) (hM : Sub 64 M := by exact ‹Sub _ M›.of rfl) :
    Keeps M s0 (setQual aux on s) := by
  unfold setQual
  try dsimp only
  repeat' (with_reducible first | assumption | exact hM.of rfl | apply Keeps.refl | apply keeps_ite | split | apply Keeps.upd_pow | intro _)

theorem execInputAtStartThreshold_keeps {M : Nat} {s0 : State} (aux : Bool) {s : State} (hk : Keeps M s0 s) (hM : Sub 65 M := by exact ‹Sub _ M›.of rfl) :
    OutKeeps M s0 (execInputAtStartThreshold aux s) := by
  unfold execInputAtStartThreshold
  try dsimp only
  repeat' (with_reducible first | assumption | exact hM.of rfl | apply Keeps.refl | apply outKeeps_ite | apply keeps_ite | apply OutKeeps.next | apply beginTransition_keeps | apply setQual_keeps | split | apply Keeps.upd_pow | intro _)

theorem execInputQualified_keeps {M : Nat} {s0 : State} (aux : Bool) {s : State} (hk : Keeps M s0 s) (hM : Sub 67108839 M := by exact ‹Sub _ M›.of rfl) :
    OutKeeps M s0 (execInputQualified aux s) := by
  unfold execInputQualified
  try dsimp only
  repeat' (with_reducible first | assumption | exact hM.of rfl | apply Keeps.refl | apply outKeeps_ite | apply keeps_ite | apply OutKeeps.next | apply fset_keeps | apply pbkRise_keeps | apply postmark_keeps | apply powerOnClear_keeps | apply resetPostmark_keeps | apply sampleStrap_keeps | apply setQual_keeps | apply wakeToRise_keeps | apply wr_keeps | split | apply Keeps.upd_pow | intro _)

theorem execInputStop_keeps {M : Nat} {s0 : State} (aux : Bool) {s : State} (hk : Keeps M s0 s) (hM : Sub 65 M := by exact ‹Sub _ M›.of rfl) :
    OutKeeps M s0 (execInputStop aux s) := by
  unfold execInputStop
  try dsimp only
  repeat' (with_reducible first | assumption | exact hM.of rfl | apply Keeps.refl | apply outKeeps_ite | apply keeps_ite | apply OutKeeps.next | apply fset_keeps | apply setQual_keeps | split | apply Keeps.upd_pow | intro _)

theorem execInputOvervoltage_keeps {M : Nat} {s0 : State} (aux : Bool) {s : State} (hk : Keeps M s0 s) (hM : Sub 97 M := by exact ‹Sub _ M›.of rfl) :
    OutKeeps M s0 (execInputOvervoltage aux s) := by
  have h : OutKeeps M s0 (execInputStop aux { s with pow := { s.pow with ovAux := s.pow.ovAux || aux, ovMains := s.pow.ovMains || !aux } }) :=
    execInputStop_keeps _ (Keeps.upd_pow hk)
  unfold execInputOvervoltage
  split
  next t e =>
    have g := h.get e
    exact OutKeeps.next (keeps_ite g (raiseEvent_keeps _ _ _ g))
  · exact h

theorem execInputReconnect_keeps {M : Nat} {s0 : State} (aux : Bool) {s : State} (hk : Keeps M s0 s) (hM : Sub 65 M := by exact ‹Sub _ M›.of rfl) :
    OutKeeps M s0 (execInputReconnect aux s) := by
  unfold execInputReconnect
  try dsimp only
  repeat' (with_reducible first | assumption | exact hM.of rfl | apply Keeps.refl | apply outKeeps_ite | apply keeps_ite | apply OutKeeps.next | apply fset_keeps | split | apply Keeps.upd_pow)

theorem takeSource_keeps {M : Nat} {s0 : State} (aux : Bool) {s : State} (hk : Keeps M s0 s) (hM : Sub 97 M := by exact ‹Sub _ M›.of rfl) :
    Keeps M s0 (takeSource aux s) := by
  unfold takeSource
  try dsimp only
  repeat' (with_reducible first | assumption | exact hM.of rfl | apply Keeps.refl | apply keeps_ite | apply fset_keeps | apply raiseEvent_keeps | split | apply Keeps.upd_pow)

theorem execSourceTransfer_keeps {M : Nat} {s0 : State} {s : State} (hk : Keeps M s0 s) (hM : Sub 97 M := by exact ‹Sub _ M›.of rfl) :
    OutKeeps M s0 (execSourceTransfer s) := by
  unfold execSourceTransfer
  try dsimp only
  repeat' (with_reducible first | assumption | exact hM.of rfl | apply Keeps.refl | apply outKeeps_ite | apply keeps_ite | apply OutKeeps.next | apply takeSource_keeps)

theorem execSourceReturn_keeps {M : Nat} {s0 : State} {s : State} (hk : Keeps M s0 s) (hM : Sub 97 M := by exact ‹Sub _ M›.of rfl) :
    OutKeeps M s0 (execSourceReturn s) := by
  unfold execSourceReturn
  try dsimp only
  repeat' (with_reducible first | assumption | exact hM.of rfl | apply Keeps.refl | apply outKeeps_ite | apply keeps_ite | apply OutKeeps.next | apply takeSource_keeps)

theorem execReserveReached_keeps {M : Nat} {s0 : State} {s : State} (hk : Keeps M s0 s) (hM : Sub 4459429 M := by exact ‹Sub _ M›.of rfl) :
    OutKeeps M s0 (execReserveReached s) := by
  unfold execReserveReached
  try dsimp only
  repeat' (with_reducible first | assumption | exact hM.of rfl | apply Keeps.refl | apply outKeeps_ite | apply keeps_ite | apply OutKeeps.next | apply fset_keeps | apply hostAdmitHeld_keeps)

theorem execReserveLow_keeps {M : Nat} {s0 : State} {s : State} (hk : Keeps M s0 s) (hM : Sub 33 M := by exact ‹Sub _ M›.of rfl) :
    OutKeeps M s0 (execReserveLow s) := by
  unfold execReserveLow
  try dsimp only
  repeat' (with_reducible first | assumption | exact hM.of rfl | apply Keeps.refl | apply outKeeps_ite | apply keeps_ite | apply OutKeeps.next | apply fset_keeps | apply raiseEvent_keeps)

theorem startBankTest_keeps {M : Nat} {s0 : State} {s : State} (hk : Keeps M s0 s) (hM : Sub 33 M := by exact ‹Sub _ M›.of rfl) :
    Keeps M s0 (startBankTest s) := by
  unfold startBankTest
  try dsimp only
  repeat' (with_reducible first | assumption | exact hM.of rfl | apply Keeps.refl | apply keeps_ite | apply fset_keeps | apply raiseEvent_keeps)

theorem execBankTest_keeps {M : Nat} {s0 : State} {s : State} (hk : Keeps M s0 s) (hM : Sub 33 M := by exact ‹Sub _ M›.of rfl) :
    OutKeeps M s0 (execBankTest s) := by
  unfold execBankTest
  try dsimp only
  repeat' (with_reducible first | assumption | exact hM.of rfl | apply Keeps.refl | apply outKeeps_ite | apply keeps_ite | apply OutKeeps.next | apply startBankTest_keeps)

theorem execBankTestInterval_keeps {M : Nat} {s0 : State} {s : State} (hk : Keeps M s0 s) (hM : Sub 33 M := by exact ‹Sub _ M›.of rfl) :
    OutKeeps M s0 (execBankTestInterval s) := by
  unfold execBankTestInterval
  try dsimp only
  repeat' (with_reducible first | assumption | exact hM.of rfl | apply Keeps.refl | apply outKeeps_ite | apply keeps_ite | apply OutKeeps.next | apply startBankTest_keeps)

theorem setBankState_keeps {M : Nat} {s0 : State} (n : Nat) {s : State} (hk : Keeps M s0 s) (hM : Sub 4194465 M := by exact ‹Sub _ M›.of rfl) :
    Keeps M s0 (setBankState n s) := by
  unfold setBankState
  try dsimp only
  repeat' (with_reducible first | assumption | exact hM.of rfl | apply Keeps.refl | apply keeps_ite | apply fset_keeps | apply raiseEvent_keeps | apply smartEvent_keeps)

theorem execBankTestDone_keeps {M : Nat} {s0 : State} (energy cap esr : Nat) {s : State} (hk : Keeps M s0 s) (hM : Sub 4194529 M := by exact ‹Sub _ M›.of rfl) :
    OutKeeps M s0 (execBankTestDone energy cap esr s) := by
  unfold execBankTestDone
  try dsimp only
  repeat' (with_reducible first | assumption | exact hM.of rfl | apply Keeps.refl | apply outKeeps_ite | apply keeps_ite | apply OutKeeps.next | apply fset_keeps | apply setBankState_keeps | split | apply Keeps.upd_pow)

theorem execModuleReset_keeps {M : Nat} {s0 : State} (c : RstCause) {s : State} (hk : Keeps M s0 s) (hM : Sub 67108855 M := by exact ‹Sub _ M›.of rfl) :
    OutKeeps M s0 (execModuleReset c s) := by
  unfold execModuleReset
  try dsimp only
  repeat' (with_reducible first | assumption | exact hM.of rfl | apply Keeps.refl | apply outKeeps_ite | apply keeps_ite | apply OutKeeps.next | apply requestModuleReset_keeps)

theorem execModuleResetOffExpiry_keeps {M : Nat} {s0 : State} {s : State} (hk : Keeps M s0 s) (hM : Sub 4718817 M := by exact ‹Sub _ M›.of rfl) :
    OutKeeps M s0 (execModuleResetOffExpiry s) := by
  unfold execModuleResetOffExpiry
  try dsimp only
  repeat' (with_reducible first | assumption | exact hM.of rfl | apply Keeps.refl | apply outKeeps_ite | apply keeps_ite | apply OutKeeps.next | apply startRise_keeps | split | intro _)

theorem execManagementWatchdogExpiry_keeps {M : Nat} {s0 : State} {s : State} (hk : Keeps M s0 s) (hM : Sub 67108855 M := by exact ‹Sub _ M›.of rfl) :
    OutKeeps M s0 (execManagementWatchdogExpiry s) := by
  unfold execManagementWatchdogExpiry
  try dsimp only
  repeat' (with_reducible first | assumption | exact hM.of rfl | apply Keeps.refl | apply outKeeps_ite | apply keeps_ite | apply OutKeeps.next | apply requestModuleReset_keeps)

theorem execOrderlyStop_keeps {M : Nat} {s0 : State} (g : StopGoal) {s : State} (hk : Keeps M s0 s) (hM : Sub 67108855 M := by exact ‹Sub _ M›.of rfl) :
    OutKeeps M s0 (execOrderlyStop g s) := by
  unfold execOrderlyStop
  try dsimp only
  repeat' (with_reducible first | assumption | exact hM.of rfl | apply Keeps.refl | apply outKeeps_ite | apply keeps_ite | apply OutKeeps.next | apply requestModuleReset_keeps | apply startOrderlyStop_keeps | split)

theorem execOrderlyStopGraceExpiry_keeps {M : Nat} {s0 : State} {s : State} (hk : Keeps M s0 s) (hM : Sub 67108855 M := by exact ‹Sub _ M›.of rfl) :
    OutKeeps M s0 (execOrderlyStopGraceExpiry s) := by
  unfold execOrderlyStopGraceExpiry
  try dsimp only
  repeat' (with_reducible first | assumption | exact hM.of rfl | apply Keeps.refl | apply outKeeps_ite | apply keeps_ite | apply OutKeeps.next | apply ftlFlushAndCheckpoint_keeps | apply goWatch_keeps | apply hostAbortOutstanding_keeps | apply resetOff_keeps | apply serveWaiting_keeps | split | apply Keeps.upd_pow | apply Keeps.updR_pow | intro _)

theorem execPwrdisAssert_keeps {M : Nat} {s0 : State} {s : State} (hk : Keeps M s0 s) (hM : Sub 64 M := by exact ‹Sub _ M›.of rfl) :
    OutKeeps M s0 (execPwrdisAssert s) := by
  unfold execPwrdisAssert
  try dsimp only
  repeat' (with_reducible first | assumption | exact hM.of rfl | apply Keeps.refl | apply outKeeps_ite | apply keeps_ite | apply OutKeeps.next | apply wakeTimer_keeps | split | apply Keeps.upd_pow | intro _)

theorem execPwrdisHoldExpiry_keeps {M : Nat} {s0 : State} {s : State} (hk : Keeps M s0 s) (hM : Sub 67108855 M := by exact ‹Sub _ M›.of rfl) :
    OutKeeps M s0 (execPwrdisHoldExpiry s) := by
  unfold execPwrdisHoldExpiry
  try dsimp only
  repeat' (with_reducible first | assumption | exact hM.of rfl | apply Keeps.refl | apply outKeeps_ite | apply keeps_ite | apply OutKeeps.next | apply execOrderlyStop_keeps)

theorem execPwrdisDeassert_keeps {M : Nat} {s0 : State} {s : State} (hk : Keeps M s0 s) (hM : Sub 4718817 M := by exact ‹Sub _ M›.of rfl) :
    OutKeeps M s0 (execPwrdisDeassert s) := by
  unfold execPwrdisDeassert
  try dsimp only
  repeat' (with_reducible first | assumption | exact hM.of rfl | apply Keeps.refl | apply outKeeps_ite | apply keeps_ite | apply OutKeeps.next | apply fset_keeps | apply startRise_keeps | apply wakeTimer_keeps | split | apply Keeps.upd_pow | intro _)

theorem execWakeTimerExpiry_keeps {M : Nat} {s0 : State} {s : State} (hk : Keeps M s0 s) (hM : Sub 67108839 M := by exact ‹Sub _ M›.of rfl) :
    OutKeeps M s0 (execWakeTimerExpiry s) := by
  unfold execWakeTimerExpiry
  try dsimp only
  repeat' (with_reducible first | assumption | exact hM.of rfl | apply Keeps.refl | apply outKeeps_ite | apply keeps_ite | apply OutKeeps.next | apply fset_keeps | apply startRise_keeps | apply wakeToRise_keeps | apply wr_keeps | split | intro _)

theorem withResetKey_keeps {M : Nat} {s0 : State} (key req bit : Nat) (f : State → State) {s : State} (hk : Keeps M s0 s) (hf : ∀ t, Keeps M t (f t)) (hM : Sub 33 M := by exact ‹Sub _ M›.of rfl) :
    Keeps M s0 (withResetKey key req bit f s) := by
  unfold withResetKey
  try dsimp only
  repeat' (with_reducible first | assumption | exact hM.of rfl | apply Keeps.refl | apply keeps_ite | apply writeIgnored_keeps | refine Keeps.trans ?_ (hf _))

theorem requestKeep_keeps {M : Nat} {s0 : State} {s : State} (hk : Keeps M s0 s) (hM : Sub 8912929 M := by exact ‹Sub _ M›.of rfl) :
    Keeps M s0 (requestKeep s) := by
  unfold requestKeep
  try dsimp only
  repeat' (with_reducible first | assumption | exact hM.of rfl | apply Keeps.refl | apply keeps_ite | apply goMode_keeps | apply keepClear_keeps)

theorem requestStart_keeps {M : Nat} {s0 : State} {s : State} (hk : Keeps M s0 s) (hM : Sub 4718817 M := by exact ‹Sub _ M›.of rfl) :
    Keeps M s0 (requestStart s) := by
  unfold requestStart
  try dsimp only
  repeat' (with_reducible first | assumption | exact hM.of rfl | apply Keeps.refl | apply keeps_ite | apply startRise_keeps | split | intro _)

theorem execResetReqModule_keeps {M : Nat} {s0 : State} (key req : Nat) {s : State} (hk : Keeps M s0 s) (hM : Sub 67108855 M := by exact ‹Sub _ M›.of rfl) :
    OutKeeps M s0 (execResetReqModule key req s) := by
  unfold execResetReqModule
  try dsimp only
  repeat' (with_reducible first | assumption | exact hM.of rfl | apply Keeps.refl | apply outKeeps_ite | apply keeps_ite | apply OutKeeps.next | apply requestModuleReset_keeps | apply withResetKey_keeps | split | intro _)

theorem execResetReqNvmssr_keeps {M : Nat} {s0 : State} (key req : Nat) {s : State} (hk : Keeps M s0 s) (hM : Sub 58523639 M := by exact ‹Sub _ M›.of rfl) :
    OutKeeps M s0 (execResetReqNvmssr key req s) := by
  unfold execResetReqNvmssr
  try dsimp only
  repeat' (with_reducible first | assumption | exact hM.of rfl | apply Keeps.refl | apply outKeeps_ite | apply keeps_ite | apply OutKeeps.next | apply nvmSubsystemReset_keeps | apply withResetKey_keeps | split | intro _)

theorem execResetReqKeep_keeps {M : Nat} {s0 : State} (key req : Nat) {s : State} (hk : Keeps M s0 s) (hM : Sub 8912929 M := by exact ‹Sub _ M›.of rfl) :
    OutKeeps M s0 (execResetReqKeep key req s) := by
  unfold execResetReqKeep
  try dsimp only
  repeat' (with_reducible first | assumption | exact hM.of rfl | apply Keeps.refl | apply outKeeps_ite | apply keeps_ite | apply OutKeeps.next | apply requestKeep_keeps | apply withResetKey_keeps | split | intro _)

theorem execResetReqStart_keeps {M : Nat} {s0 : State} (key req : Nat) {s : State} (hk : Keeps M s0 s) (hM : Sub 4718817 M := by exact ‹Sub _ M›.of rfl) :
    OutKeeps M s0 (execResetReqStart key req s) := by
  unfold execResetReqStart
  try dsimp only
  repeat' (with_reducible first | assumption | exact hM.of rfl | apply Keeps.refl | apply outKeeps_ite | apply keeps_ite | apply OutKeeps.next | apply requestStart_keeps | apply withResetKey_keeps | split | intro _)

theorem execFirmwareVerified_keeps {M : Nat} {s0 : State} (fallbacks : Nat) (allFail : Bool) {s : State} (hk : Keeps M s0 s) (hM : Sub 67108839 M := by exact ‹Sub _ M›.of rfl) :
    OutKeeps M s0 (execFirmwareVerified fallbacks allFail s) := by
  unfold execFirmwareVerified
  try dsimp only
  repeat' (with_reducible first | assumption | exact hM.of rfl | apply Keeps.refl | apply outKeeps_ite | apply keeps_ite | apply OutKeeps.next | apply bootFallback_keeps | apply controlCoresStart_keeps | apply faultToWatch_keeps | apply fset_keeps | apply riseFault_keeps | apply setPower_keeps | refine storeRise_keeps_eq (by assumption) ?_ | apply storeRise_keeps | apply forN_keeps | split | apply Keeps.upd_pow | intro _)

theorem execDramDelayCheck_keeps {M : Nat} {s0 : State} (failed : List Nat) {s : State} (hk : Keeps M s0 s) (hM : Sub 67108839 M := by exact ‹Sub _ M›.of rfl) :
    OutKeeps M s0 (execDramDelayCheck failed s) := by
  unfold execDramDelayCheck
  try dsimp only
  repeat' (with_reducible first | assumption | exact hM.of rfl | apply Keeps.refl | apply outKeeps_ite | apply keeps_ite | apply OutKeeps.next | apply dramRise_keeps | apply faultToWatch_keeps | apply riseFault_keeps | apply setPower_keeps | split | apply Keeps.upd_pow | intro _)

theorem execMapDirectoryLoaded_keeps {M : Nat} {s0 : State} (primaryOk secondOk : Bool) (cals : List CalRun) {s : State} (hk : Keeps M s0 s) (hM : Sub 5900261 M := by exact ‹Sub _ M›.of rfl) :
    OutKeeps M s0 (execMapDirectoryLoaded primaryOk secondOk cals s) := by
  unfold execMapDirectoryLoaded
  try dsimp only
  repeat' (with_reducible first | assumption | exact hM.of rfl | apply Keeps.refl | apply outKeeps_ite | apply keeps_ite | apply OutKeeps.next | apply calibrateAll_keeps | apply ftlDirectoryLoaded_keeps | apply keyRise_keeps | apply recordReadOnlyCause_keeps | apply riseFault_keeps | apply setPower_keeps | apply ucodeRise_keeps | split | apply Keeps.upd_pow | intro _)

theorem execJournalReplayDone_keeps {M : Nat} {s0 : State} (ms : Nat) (primaryOk secondOk : Bool) {s : State} (hk : Keeps M s0 s) (hM : Sub 353 M := by exact ‹Sub _ M›.of rfl) :
    OutKeeps M s0 (execJournalReplayDone ms primaryOk secondOk s) := by
  unfold execJournalReplayDone
  try dsimp only
  repeat' (with_reducible first | assumption | exact hM.of rfl | apply Keeps.refl | apply outKeeps_ite | apply keeps_ite | apply OutKeeps.next | apply fset_keeps | apply ftlReplayed_keeps | apply recordReadOnlyCause_keeps | apply riseFault_keeps | split | apply Keeps.upd_pow | intro _)

theorem riseEnds_keeps {M : Nat} {s0 : State} {s : State} (hk : Keeps M s0 s) (hM : Sub 4194529 M := by exact ‹Sub _ M›.of rfl) :
    Keeps M s0 (riseEnds s) := by
  unfold riseEnds
  try dsimp only
  repeat' (with_reducible first | assumption | exact hM.of rfl | apply Keeps.refl | apply keeps_ite | apply failSanitize_keeps | apply goMode_keeps | apply goReadOnly_keeps | split | apply Keeps.upd_pow | intro _)

theorem execOpenBlockScanDone_keeps {M : Nat} {s0 : State} (ms total : Nat) {s : State} (hk : Keeps M s0 s) (hM : Sub 4195297 M := by exact ‹Sub _ M›.of rfl) :
    OutKeeps M s0 (execOpenBlockScanDone ms total s) := by
  unfold execOpenBlockScanDone
  try dsimp only
  repeat' (with_reducible first | assumption | exact hM.of rfl | apply Keeps.refl | apply outKeeps_ite | apply keeps_ite | apply OutKeeps.next | apply fset_keeps | apply ftlScanned_keeps | apply riseEnds_keeps | apply serveReached_keeps | split | apply Keeps.upd_pow | intro _)

theorem execRiseTimeout_keeps {M : Nat} {s0 : State} {s : State} (hk : Keeps M s0 s) (hM : Sub 67108855 M := by exact ‹Sub _ M›.of rfl) :
    OutKeeps M s0 (execRiseTimeout s) := by
  unfold execRiseTimeout
  try dsimp only
  repeat' (with_reducible first | assumption | exact hM.of rfl | apply Keeps.refl | apply outKeeps_ite | apply keeps_ite | apply OutKeeps.next | apply faultToWatch_keeps | apply requestModuleReset_keeps | apply riseFault_keeps | split | apply Keeps.upd_pow | intro _)

theorem execIdleConditionsChange_keeps {M : Nat} {s0 : State} (transfers : Bool) {s : State} (hk : Keeps M s0 s) (hM : Sub 225 M := by exact ‹Sub _ M›.of rfl) :
    OutKeeps M s0 (execIdleConditionsChange transfers s) := by
  unfold execIdleConditionsChange
  try dsimp only
  repeat' (with_reducible first | assumption | exact hM.of rfl | apply Keeps.refl | apply outKeeps_ite | apply keeps_ite | apply OutKeeps.next | apply judgeIdle_keeps | split | apply Keeps.upd_pow | intro _)

theorem execApstIdleExpiry_keeps {M : Nat} {s0 : State} (ctrl ps : Nat) {s : State} (hk : Keeps M s0 s) (hM : Sub 161 M := by exact ‹Sub _ M›.of rfl) :
    OutKeeps M s0 (execApstIdleExpiry ctrl ps s) := by
  unfold execApstIdleExpiry
  try dsimp only
  repeat' (with_reducible first | assumption | exact hM.of rfl | apply Keeps.refl | apply outKeeps_ite | apply keeps_ite | apply OutKeeps.next | apply setRequested_keeps | split | intro _)

theorem resumeAll_keeps {M : Nat} {s0 : State} {s : State} (hk : Keeps M s0 s) (hM : Sub 513 M := by exact ‹Sub _ M›.of rfl) :
    Keeps M s0 (resumeAll s) := by
  unfold resumeAll
  try dsimp only
  repeat' (with_reducible first | assumption | exact hM.of rfl | apply Keeps.refl | apply keeps_ite | apply resumeDie_keeps | apply forEach_keeps | split | intro _)

theorem idleEnter_keeps {M : Nat} {s0 : State} (deep : Bool) {s : State} (hk : Keeps M s0 s) (hM : Sub 41688039 M := by exact ‹Sub _ M›.of rfl) :
    Keeps M s0 (idleEnter deep s) := by
  unfold idleEnter
  try dsimp only
  repeat' (with_reducible first | assumption | exact hM.of rfl | apply Keeps.refl | apply keeps_ite | apply ftlFlushAndCheckpoint_keeps | apply goMode_keeps | apply idleDeepSave_keeps | apply wr_keeps | split | apply Keeps.upd_pow | intro _)

theorem idleAbort_keeps {M : Nat} {s0 : State} {s : State} (hk : Keeps M s0 s) (hM : Sub 67108855 M := by exact ‹Sub _ M›.of rfl) :
    Keeps M s0 (idleAbort s) := by
  unfold idleAbort
  try dsimp only
  repeat' (with_reducible first | assumption | exact hM.of rfl | apply Keeps.refl | apply keeps_ite | apply fset_keeps | apply haltMode_keeps | apply serveWaiting_keeps | apply settleReadOnly_keeps | split | apply Keeps.upd_pow | intro _)

theorem idleAdvance_keeps {M : Nat} {s0 : State} {s : State} (hk : Keeps M s0 s) (hM : Sub 67108855 M := by exact ‹Sub _ M›.of rfl) :
    Keeps M s0 (idleAdvance s) := by
  unfold idleAdvance
  try dsimp only
  repeat' (with_reducible first | assumption | exact hM.of rfl | apply Keeps.refl | apply keeps_ite | apply haltMode_keeps | apply idleAbort_keeps | apply idleEnter_keeps | apply resumeAll_keeps | apply serveWaiting_keeps | apply settleReadOnly_keeps | split | intro _)

theorem execIdleEntry_keeps {M : Nat} {s0 : State} (deep : Bool) {s : State} (hk : Keeps M s0 s) (hM : Sub 67108855 M := by exact ‹Sub _ M›.of rfl) :
    OutKeeps M s0 (execIdleEntry deep s) := by
  unfold execIdleEntry
  try dsimp only
  repeat' (with_reducible first | assumption | exact hM.of rfl | apply Keeps.refl | apply outKeeps_ite | apply keeps_ite | apply OutKeeps.next | apply beginTransition_keeps | apply idleAdvance_keeps | split | apply Keeps.upd_pow | intro _)

theorem leaveIdle_keeps {M : Nat} {s0 : State} (bit elapsed : Nat) (bad : List SavedUnit) {s : State} (hk : Keeps M s0 s) (hM : Sub 67108855 M := by exact ‹Sub _ M›.of rfl) :
    Keeps M s0 (leaveIdle bit elapsed bad s) := by
  unfold leaveIdle
  try dsimp only
  repeat' (with_reducible first | assumption | exact hM.of rfl | apply Keeps.refl | apply keeps_ite | apply fset_keeps | apply goMode_keeps | apply idleAbort_keeps | apply idleDeepRestore_keeps | apply idleShallowRestore_keeps | apply settleReadOnly_keeps | split | intro _)

theorem wakeBy_keeps {M : Nat} {s0 : State} (bit : Nat) {s : State} (hk : Keeps M s0 s) (hM : Sub 67108855 M := by exact ‹Sub _ M›.of rfl) :
    Keeps M s0 (wakeBy bit s) := by
  unfold wakeBy
  try dsimp only
  repeat' (with_reducible first | assumption | exact hM.of rfl | apply Keeps.refl | apply keeps_ite | apply idleAbort_keeps | apply leaveIdle_keeps | split | intro _)

theorem execIdleWake_keeps {M : Nat} {s0 : State} (bit elapsed : Nat) (bad : List SavedUnit) {s : State} (hk : Keeps M s0 s) (hM : Sub 67108855 M := by exact ‹Sub _ M›.of rfl) :
    OutKeeps M s0 (execIdleWake bit elapsed bad s) := by
  unfold execIdleWake
  try dsimp only
  repeat' (with_reducible first | assumption | exact hM.of rfl | apply Keeps.refl | apply outKeeps_ite | apply keeps_ite | apply OutKeeps.next | apply leaveIdle_keeps | apply wakeBy_keeps | split | intro _)

theorem execDelayWakeExpiry_keeps {M : Nat} {s0 : State} (elapsed : Nat) {s : State} (hk : Keeps M s0 s) (hM : Sub 67108855 M := by exact ‹Sub _ M›.of rfl) :
    OutKeeps M s0 (execDelayWakeExpiry elapsed s) := by
  unfold execDelayWakeExpiry
  try dsimp only
  repeat' (with_reducible first | assumption | exact hM.of rfl | apply Keeps.refl | apply outKeeps_ite | apply keeps_ite | apply OutKeeps.next | apply leaveIdle_keeps | apply wr_keeps | split | intro _)

theorem clockTick_keeps {M : Nat} {s0 : State} {s : State} (hk : Keeps M s0 s) (hM : Sub 67108855 M := by exact ‹Sub _ M›.of rfl) :
    Keeps M s0 (clockTick s) := by
  unfold clockTick
  try dsimp only
  repeat' (with_reducible first | assumption | exact hM.of rfl | apply Keeps.refl | apply keeps_ite | apply idleAdvance_keeps | apply sealAdvance_keeps | split | apply Keeps.upd_pow | intro _)

theorem execPllLockLoss_keeps {M : Nat} {s0 : State} (n lockUs : Nat) {s : State} (hk : Keeps M s0 s) (hM : Sub 67108855 M := by exact ‹Sub _ M›.of rfl) :
    OutKeeps M s0 (execPllLockLoss n lockUs s) := by
  unfold execPllLockLoss
  try dsimp only
  repeat' (with_reducible first | assumption | exact hM.of rfl | apply Keeps.refl | apply outKeeps_ite | apply keeps_ite | apply OutKeeps.next | apply channelReset_keeps | apply fset_keeps | apply pllToWatch_keeps | apply postmark_keeps | apply requestClusterReset_keeps | apply requestModuleReset_keeps | apply forN_keeps | split | apply Keeps.upd_pow | intro _)

theorem execXtalSwitch_keeps {M : Nat} {s0 : State} {s : State} (hk : Keeps M s0 s) (hM : Sub 1 M := by exact ‹Sub _ M›.of rfl) :
    OutKeeps M s0 (execXtalSwitch s) := by
  unfold execXtalSwitch
  try dsimp only
  repeat' (with_reducible first | assumption | exact hM.of rfl | apply Keeps.refl | apply outKeeps_ite | apply keeps_ite | apply OutKeeps.next | apply fset_keeps | split | intro _)

theorem execControlCoreRetire_keeps {M : Nat} {s0 : State} (k : Nat) {s : State} (hk : Keeps M s0 s) (hM : Sub 4194529 M := by exact ‹Sub _ M›.of rfl) :
    OutKeeps M s0 (execControlCoreRetire k s) := by
  unfold execControlCoreRetire
  try dsimp only
  repeat' (with_reducible first | assumption | exact hM.of rfl | apply Keeps.refl | apply outKeeps_ite | apply keeps_ite | apply OutKeeps.next | apply enterReadOnly_keeps | apply fset_keeps | apply haltMode_keeps | apply postmark_keeps | apply retireDomain_keeps | split | intro _)

theorem barReserved_keeps {M : Nat} {s0 : State} (f bar off : Nat) (write : Bool) {s : State} (hk : Keeps M s0 s) (hM : Sub 161 M := by exact ‹Sub _ M›.of rfl) :
    Keeps M s0 (barReserved f bar off write s) := by
  unfold barReserved
  try dsimp only
  repeat' (with_reducible first | assumption | exact hM.of rfl | apply Keeps.refl | apply keeps_ite | apply postmark_keeps | split | apply Keeps.upd_nv)

end Sys2Proof.Machine
end

