-- ==== Sys2Proof/Laws/KeepHostLink.lean ====
section
/-! SUPPORT. Every operation of Machine/HostLink.lean leaves what `Keeps` says. -/

set_option Elab.async false

namespace Sys2Proof.Machine

theorem hostWake_keeps {M : Nat} {s0 : State} {s : State} (hk : Keeps M s0 s) (hM : Sub 67108855 M := by exact ‹Sub _ M›.of rfl) :
    Keeps M s0 (hostWake s) := by
  unfold hostWake
  try dsimp only
  repeat' (with_reducible first | assumption | exact hM.of rfl | apply Keeps.refl | apply keeps_ite | apply wakeBy_keeps)

theorem execDoorbellWrite_keeps {M : Nat} {s0 : State} (ctrl q tail : Nat) {s : State} (hk : Keeps M s0 s) (hM : Sub 67108855 M := by exact ‹Sub _ M›.of rfl) :
    OutKeeps M s0 (execDoorbellWrite ctrl q tail s) := by
  unfold execDoorbellWrite
  try dsimp only
  repeat' (with_reducible first | assumption | exact hM.of rfl | apply Keeps.refl | apply outKeeps_ite | apply keeps_ite | apply OutKeeps.next | apply hostWake_keeps | apply judgeIdle_keeps | apply tailDoorbell_keeps | split | intro _)

theorem execCqHeadDoorbell_keeps {M : Nat} {s0 : State} (ctrl q head : Nat) {s : State} (hk : Keeps M s0 s) (hM : Sub 67108855 M := by exact ‹Sub _ M›.of rfl) :
    OutKeeps M s0 (execCqHeadDoorbell ctrl q head s) := by
  unfold execCqHeadDoorbell
  try dsimp only
  repeat' (with_reducible first | assumption | exact hM.of rfl | apply Keeps.refl | apply outKeeps_ite | apply keeps_ite | apply OutKeeps.next | apply headDoorbell_keeps | apply hostWake_keeps)

theorem execLetterboxDoorbell_keeps {M : Nat} {s0 : State} (f : Nat) (msgs : List (List Byte)) (tail : Nat) {s : State} (hk : Keeps M s0 s) (hM : Sub 67108855 M := by exact ‹Sub _ M›.of rfl) :
    OutKeeps M s0 (execLetterboxDoorbell f msgs tail s) := by
  unfold execLetterboxDoorbell
  try dsimp only
  repeat' (with_reducible first | assumption | exact hM.of rfl | apply Keeps.refl | apply outKeeps_ite | apply keeps_ite | apply OutKeeps.next | apply hostWake_keeps | apply letterboxDoorbell_keeps)

theorem execM2hHeadWrite_keeps {M : Nat} {s0 : State} (f head : Nat) {s : State} (hk : Keeps M s0 s) (hM : Sub 67108855 M := by exact ‹Sub _ M›.of rfl) :
    OutKeeps M s0 (execM2hHeadWrite f head s) := by
  unfold execM2hHeadWrite
  try dsimp only
  repeat' (with_reducible first | assumption | exact hM.of rfl | apply Keeps.refl | apply outKeeps_ite | apply keeps_ite | apply OutKeeps.next | apply hostWake_keeps | apply m2hHead_keeps)

theorem msixWrite_keeps {M : Nat} {s0 : State} (f off v : Nat) {s : State} (hk : Keeps M s0 s) (hM : Sub 128 M := by exact ‹Sub _ M›.of rfl) :
    Keeps M s0 (msixWrite f off v s) := by
  unfold msixWrite
  try dsimp only
  repeat' (with_reducible first | assumption | exact hM.of rfl | apply Keeps.refl | apply keeps_ite | split | apply Keeps.upd_nv | intro _)

theorem execBarReservedAccess_keeps {M : Nat} {s0 : State} (f bar off : Nat) (value : Option Nat) {s : State} (hk : Keeps M s0 s) (hM : Sub 67108855 M := by exact ‹Sub _ M›.of rfl) :
    OutKeeps M s0 (execBarReservedAccess f bar off value s) := by
  unfold execBarReservedAccess
  try dsimp only
  repeat' (with_reducible first | assumption | exact hM.of rfl | apply Keeps.refl | apply outKeeps_ite | apply keeps_ite | apply OutKeeps.next | apply barReserved_keeps | apply hostWake_keeps | apply msixWrite_keeps | split | apply Keeps.upd_nv | intro _)

theorem execBar2Access_keeps {M : Nat} {s0 : State} (f off n : Nat) (data : Option (List Byte)) {s : State} (hk : Keeps M s0 s) (hM : Sub 67108855 M := by exact ‹Sub _ M›.of rfl) :
    OutKeeps M s0 (execBar2Access f off n data s) := by
  unfold execBar2Access
  try dsimp only
  repeat' (with_reducible first | assumption | exact hM.of rfl | apply Keeps.refl | apply outKeeps_ite | apply keeps_ite | apply OutKeeps.next | apply barReserved_keeps | apply hostWake_keeps | apply writeSpace_keeps | split | apply Keeps.upd_nv | intro _)

theorem execLinkTrained_keeps {M : Nat} {s0 : State} (portB : Bool) (speed width : Nat) (flit more : Bool) {s : State} (hk : Keeps M s0 s) (hM : Sub 161 M := by exact ‹Sub _ M›.of rfl) :
    OutKeeps M s0 (execLinkTrained portB speed width flit more s) := by
  unfold execLinkTrained
  try dsimp only
  repeat' (with_reducible first | assumption | exact hM.of rfl | apply Keeps.refl | apply outKeeps_ite | apply keeps_ite | apply OutKeeps.next | apply postmark_keeps | apply raiseEvent_keeps | apply setLevels_keeps | apply setLink_keeps | split | intro _)

theorem execLinkDown_keeps {M : Nat} {s0 : State} (portB : Bool) {s : State} (hk : Keeps M s0 s) (hM : Sub 161 M := by exact ‹Sub _ M›.of rfl) :
    OutKeeps M s0 (execLinkDown portB s) := by
  unfold execLinkDown
  try dsimp only
  repeat' (with_reducible first | assumption | exact hM.of rfl | apply Keeps.refl | apply outKeeps_ite | apply keeps_ite | apply OutKeeps.next | apply raiseEvent_keeps | apply setLevels_keeps | apply setLink_keeps | split | intro _)

theorem configEffect_keeps {M : Nat} {s0 : State} (portB : Bool) (r : CfgReq) {s : State} (hk : Keeps M s0 s) (hM : Sub 1153 M := by exact ‹Sub _ M›.of rfl) :
    Keeps M s0 (configEffect portB r s) := by
  unfold configEffect
  try dsimp only
  repeat' (with_reducible first | assumption | exact hM.of rfl | apply Keeps.refl | apply keeps_ite | apply setLevels_keeps | apply setNumVf_keeps | split | apply Keeps.upd_ten | apply Keeps.upd_nv | intro _)

theorem execConfigurationRequest_keeps {M : Nat} {s0 : State} (portB : Bool) (r : CfgReq) {s : State} (hk : Keeps M s0 s) (hM : Sub 67108855 M := by exact ‹Sub _ M›.of rfl) :
    OutKeeps M s0 (execConfigurationRequest portB r s) := by
  unfold execConfigurationRequest
  try dsimp only
  repeat' (with_reducible first | assumption | exact hM.of rfl | apply Keeps.refl | apply outKeeps_ite | apply keeps_ite | apply OutKeeps.next | apply configEffect_keeps | apply hostWake_keeps | split | apply Keeps.upd_nv)

theorem execPerstAssert_keeps {M : Nat} {s0 : State} {s : State} (hk : Keeps M s0 s) (hM : Sub 67108855 M := by exact ‹Sub _ M›.of rfl) :
    OutKeeps M s0 (execPerstAssert s) := by
  unfold execPerstAssert
  try dsimp only
  repeat' (with_reducible first | assumption | exact hM.of rfl | apply Keeps.refl | apply outKeeps_ite | apply keeps_ite | apply OutKeeps.next | apply linkOff_keeps | apply nvmSubsystemReset_keeps | apply requestModuleReset_keeps | apply requestPortReset_keeps | apply wakeBy_keeps | apply wakeTimer_keeps | split | apply Keeps.upd_pow | intro _)

theorem execPerstDeassert_keeps {M : Nat} {s0 : State} {s : State} (hk : Keeps M s0 s) (hM : Sub 67108855 M := by exact ‹Sub _ M›.of rfl) :
    OutKeeps M s0 (execPerstDeassert s) := by
  unfold execPerstDeassert
  try dsimp only
  repeat' (with_reducible first | assumption | exact hM.of rfl | apply Keeps.refl | apply outKeeps_ite | apply keeps_ite | apply OutKeeps.next | apply fset_keeps | apply wakeBy_keeps | apply wakeTimer_keeps | apply wakeToRise_keeps | split | apply Keeps.upd_pow | intro _)

theorem execPerstbAssert_keeps {M : Nat} {s0 : State} {s : State} (hk : Keeps M s0 s) (hM : Sub 67108855 M := by exact ‹Sub _ M›.of rfl) :
    OutKeeps M s0 (execPerstbAssert s) := by
  unfold execPerstbAssert
  try dsimp only
  repeat' (with_reducible first | assumption | exact hM.of rfl | apply Keeps.refl | apply outKeeps_ite | apply keeps_ite | apply OutKeeps.next | apply requestPortReset_keeps | apply wakeBy_keeps | split | apply Keeps.upd_pow | intro _)

theorem execPerstbDeassert_keeps {M : Nat} {s0 : State} {s : State} (hk : Keeps M s0 s) (hM : Sub 67108855 M := by exact ‹Sub _ M›.of rfl) :
    OutKeeps M s0 (execPerstbDeassert s) := by
  unfold execPerstbDeassert
  try dsimp only
  repeat' (with_reducible first | assumption | exact hM.of rfl | apply Keeps.refl | apply outKeeps_ite | apply keeps_ite | apply OutKeeps.next | apply wakeBy_keeps | split | apply Keeps.upd_pow)

theorem execPcieHotReset_keeps {M : Nat} {s0 : State} (portB : Bool) {s : State} (hk : Keeps M s0 s) (hM : Sub 41745383 M := by exact ‹Sub _ M›.of rfl) :
    OutKeeps M s0 (execPcieHotReset portB s) := by
  unfold execPcieHotReset
  try dsimp only
  repeat' (with_reducible first | assumption | exact hM.of rfl | apply Keeps.refl | apply outKeeps_ite | apply keeps_ite | apply OutKeeps.next | apply linkOff_keeps | apply requestCtrlReset_keeps | apply forEach_keeps | split | intro _)

theorem execControllerEnable_keeps {M : Nat} {s0 : State} (f asq acq ams mps : Nat) {s : State} (hk : Keeps M s0 s) (hM : Sub 67108855 M := by exact ‹Sub _ M›.of rfl) :
    OutKeeps M s0 (execControllerEnable f asq acq ams mps s) := by
  unfold execControllerEnable
  try dsimp only
  repeat' (with_reducible first | assumption | exact hM.of rfl | apply Keeps.refl | apply outKeeps_ite | apply keeps_ite | apply OutKeeps.next | apply enableCtrl_keeps | apply hostWake_keeps | split | intro _)

theorem execCstsRdySet_keeps {M : Nat} {s0 : State} (ctrl : Nat) {s : State} (hk : Keeps M s0 s) (hM : Sub 128 M := by exact ‹Sub _ M›.of rfl) :
    OutKeeps M s0 (execCstsRdySet ctrl s) := by
  unfold execCstsRdySet
  try dsimp only
  repeat' (with_reducible first | assumption | exact hM.of rfl | apply Keeps.refl | apply outKeeps_ite | apply keeps_ite | apply OutKeeps.next | apply updCtrl_keeps)

theorem execControllerReset_keeps {M : Nat} {s0 : State} (ctrl : Nat) {s : State} (hk : Keeps M s0 s) (hM : Sub 67108855 M := by exact ‹Sub _ M›.of rfl) :
    OutKeeps M s0 (execControllerReset ctrl s) := by
  unfold execControllerReset
  try dsimp only
  repeat' (with_reducible first | assumption | exact hM.of rfl | apply Keeps.refl | apply outKeeps_ite | apply keeps_ite | apply OutKeeps.next | apply hostWake_keeps | apply requestCtrlReset_keeps | split | intro _)

theorem execFunctionLevelReset_keeps {M : Nat} {s0 : State} (f : Nat) {s : State} (hk : Keeps M s0 s) (hM : Sub 67108855 M := by exact ‹Sub _ M›.of rfl) :
    OutKeeps M s0 (execFunctionLevelReset f s) := by
  unfold execFunctionLevelReset
  try dsimp only
  repeat' (with_reducible first | assumption | exact hM.of rfl | apply Keeps.refl | apply outKeeps_ite | apply keeps_ite | apply OutKeeps.next | apply funcReset_keeps | apply hostWake_keeps | apply resetLater_keeps | apply waitCommit_keeps | split | intro _)

theorem execNvmSubsystemReset_keeps {M : Nat} {s0 : State} (value : Nat) {s : State} (hk : Keeps M s0 s) (hM : Sub 67108855 M := by exact ‹Sub _ M›.of rfl) :
    OutKeeps M s0 (execNvmSubsystemReset value s) := by
  unfold execNvmSubsystemReset
  try dsimp only
  repeat' (with_reducible first | assumption | exact hM.of rfl | apply Keeps.refl | apply outKeeps_ite | apply keeps_ite | apply OutKeeps.next | apply hostWake_keeps | apply nvmSubsystemReset_keeps)

theorem execShutdown_keeps {M : Nat} {s0 : State} (ctrl : Nat) (normal : Bool) {s : State} (hk : Keeps M s0 s) (hM : Sub 67108855 M := by exact ‹Sub _ M›.of rfl) :
    OutKeeps M s0 (execShutdown ctrl normal s) := by
  unfold execShutdown
  try dsimp only
  repeat' (with_reducible first | assumption | exact hM.of rfl | apply Keeps.refl | apply outKeeps_ite | apply keeps_ite | apply OutKeeps.next | apply beginShutdown_keeps | apply hostWake_keeps | apply settleAll_keeps | split | intro _)

theorem execFetchHold_keeps {M : Nat} {s0 : State} (v req : Nat) {s : State} (hk : Keeps M s0 s) (hM : Sub 33 M := by exact ‹Sub _ M›.of rfl) :
    OutKeeps M s0 (execFetchHold v req s) := by
  unfold execFetchHold
  try dsimp only
  repeat' (with_reducible first | assumption | exact hM.of rfl | apply Keeps.refl | apply outKeeps_ite | apply keeps_ite | apply OutKeeps.next | apply busError_keeps | apply fset_keeps)

end Sys2Proof.Machine
end

