-- ==== Sys2Proof/Laws/KeepNetRows.lean ====
section
/-! SUPPORT. Every operation of Machine/NetRows.lean leaves what `Keeps` says. -/

set_option Elab.async false

namespace Sys2Proof.Machine

theorem execPortLinkDown_keeps {M : Nat} {s0 : State} (n : Nat) {s : State} (hk : Keeps M s0 s) (hM : Sub 6291617 M := by exact ‹Sub _ M›.of rfl) :
    OutKeeps M s0 (execPortLinkDown n s) := by
  unfold execPortLinkDown
  try dsimp only
  repeat' (with_reducible first | assumption | exact hM.of rfl | apply Keeps.refl | apply outKeeps_ite | apply keeps_ite | apply OutKeeps.next | apply linkDown_keeps)

theorem execPortLinkUp_keeps {M : Nat} {s0 : State} (n speed : Nat) (fec : Bool) {s : State} (hk : Keeps M s0 s) (hM : Sub 6291617 M := by exact ‹Sub _ M›.of rfl) :
    OutKeeps M s0 (execPortLinkUp n speed fec s) := by
  unfold execPortLinkUp
  try dsimp only
  repeat' (with_reducible first | assumption | exact hM.of rfl | apply Keeps.refl | apply outKeeps_ite | apply keeps_ite | apply OutKeeps.next | apply discoveryChange_keeps | apply fset_keeps | apply raiseEvent_keeps | apply updNet_keeps)

theorem execAddressFailback_keeps {M : Nat} {s0 : State} (n : Nat) {s : State} (hk : Keeps M s0 s) (hM : Sub 2097153 M := by exact ‹Sub _ M›.of rfl) :
    OutKeeps M s0 (execAddressFailback n s) := by
  unfold execAddressFailback
  try dsimp only
  repeat' (with_reducible first | assumption | exact hM.of rfl | apply Keeps.refl | apply outKeeps_ite | apply keeps_ite | apply OutKeeps.next | apply moveAddrs_keeps)

theorem execAnnouncementRepeat_keeps {M : Nat} {s0 : State} (n : Nat) {s : State} (hk : Keeps M s0 s) (hM : Sub 2097152 M := by exact ‹Sub _ M›.of rfl) :
    OutKeeps M s0 (execAnnouncementRepeat n s) := by
  unfold execAnnouncementRepeat
  try dsimp only
  repeat' (with_reducible first | assumption | exact hM.of rfl | apply Keeps.refl | apply outKeeps_ite | apply keeps_ite | apply OutKeeps.next | apply announce_keeps | apply updNet_keeps)

theorem execPortRetrain_keeps {M : Nat} {s0 : State} (n : Nat) {s : State} (hk : Keeps M s0 s) (hM : Sub 1 M := by exact ‹Sub _ M›.of rfl) :
    OutKeeps M s0 (execPortRetrain n s) := by
  unfold execPortRetrain
  try dsimp only
  repeat' (with_reducible first | assumption | exact hM.of rfl | apply Keeps.refl | apply outKeeps_ite | apply keeps_ite | apply OutKeeps.next | apply retrain_keeps)

theorem portFault_keeps {M : Nat} {s0 : State} (n : Nat) (f : PortFault) {s : State} (hk : Keeps M s0 s) (hM : Sub 6291617 M := by exact ‹Sub _ M›.of rfl) :
    Keeps M s0 (portFault n f s) := by
  unfold portFault
  try dsimp only
  repeat' (with_reducible first | assumption | exact hM.of rfl | apply Keeps.refl | apply keeps_ite | apply portRetire_keeps | apply raiseEvent_keeps | apply updNet_keeps | apply writeIgnored_keeps | split)

theorem execPortRetire_keeps {M : Nat} {s0 : State} (n : Nat) (f : PortFault) {s : State} (hk : Keeps M s0 s) (hM : Sub 6291617 M := by exact ‹Sub _ M›.of rfl) :
    OutKeeps M s0 (execPortRetire n f s) := by
  unfold execPortRetire
  try dsimp only
  repeat' (with_reducible first | assumption | exact hM.of rfl | apply Keeps.refl | apply outKeeps_ite | apply keeps_ite | apply OutKeeps.next | apply portFault_keeps)

theorem readModule_keeps {M : Nat} {s0 : State} (n power temp : Nat) {s : State} (hk : Keeps M s0 s) (hM : Sub 6291617 M := by exact ‹Sub _ M›.of rfl) :
    Keeps M s0 (readModule n power temp s) := by
  unfold readModule
  try dsimp only
  repeat' (with_reducible first | assumption | exact hM.of rfl | apply Keeps.refl | apply keeps_ite | apply fset_keeps | apply linkDown_keeps | apply raiseEvent_keeps | apply sensorReads_keeps | split | intro _)

theorem execModuleInsert_keeps {M : Nat} {s0 : State} (n power temp : Nat) {s : State} (hk : Keeps M s0 s) (hM : Sub 6291617 M := by exact ‹Sub _ M›.of rfl) :
    OutKeeps M s0 (execModuleInsert n power temp s) := by
  unfold execModuleInsert
  try dsimp only
  repeat' (with_reducible first | assumption | exact hM.of rfl | apply Keeps.refl | apply outKeeps_ite | apply keeps_ite | apply OutKeeps.next | apply fset_keeps | apply raiseEvent_keeps | apply readModule_keeps)

theorem execModuleRemove_keeps {M : Nat} {s0 : State} (n : Nat) {s : State} (hk : Keeps M s0 s) (hM : Sub 6291617 M := by exact ‹Sub _ M›.of rfl) :
    OutKeeps M s0 (execModuleRemove n s) := by
  unfold execModuleRemove
  try dsimp only
  repeat' (with_reducible first | assumption | exact hM.of rfl | apply Keeps.refl | apply outKeeps_ite | apply keeps_ite | apply OutKeeps.next | apply linkDown_keeps | apply raiseEvent_keeps | apply sensorReads_keeps | apply wr_keeps | split | intro _)

theorem execModulePoll_keeps {M : Nat} {s0 : State} (n power temp : Nat) {s : State} (hk : Keeps M s0 s) (hM : Sub 6291617 M := by exact ‹Sub _ M›.of rfl) :
    OutKeeps M s0 (execModulePoll n power temp s) := by
  unfold execModulePoll
  try dsimp only
  repeat' (with_reducible first | assumption | exact hM.of rfl | apply Keeps.refl | apply outKeeps_ite | apply keeps_ite | apply OutKeeps.next | apply readModule_keeps)

theorem flowControl_keeps {M : Nat} {s0 : State} (n : Nat) (full drained : Option Nat) {s : State} (hk : Keeps M s0 s) (hM : Sub 2097153 M := by exact ‹Sub _ M›.of rfl) :
    Keeps M s0 (flowControl n full drained s) := by
  unfold flowControl
  try dsimp only
  repeat' (with_reducible first | assumption | exact hM.of rfl | apply Keeps.refl | apply keeps_ite | apply cntAdd_keeps | apply netSend_keeps | apply updNet_keeps | split)

theorem frameWake_keeps {M : Nat} {s0 : State} (n : Nat) (k : NetFrame) {s : State} (hk : Keeps M s0 s) (hM : Sub 67108855 M := by exact ‹Sub _ M›.of rfl) :
    Keeps M s0 (frameWake n k s) := by
  unfold frameWake
  try dsimp only
  repeat' (with_reducible first | assumption | exact hM.of rfl | apply Keeps.refl | apply keeps_ite | apply wakeBy_keeps)

theorem execFrameReceived_keeps {M : Nat} {s0 : State} (n : Nat) (k : NetFrame) (len corr uncorr : Nat) (full drained : Option Nat) {s : State} (hk : Keeps M s0 s) (hM : Sub 67108855 M := by exact ‹Sub _ M›.of rfl) :
    OutKeeps M s0 (execFrameReceived n k len corr uncorr full drained s) := by
  unfold execFrameReceived
  try dsimp only
  repeat' (with_reducible first | assumption | exact hM.of rfl | apply Keeps.refl | apply outKeeps_ite | apply keeps_ite | apply OutKeeps.next | apply cntAdd_keeps | apply flowControl_keeps | apply frameWake_keeps | apply netSend_keeps | apply updNet_keeps | split)

theorem execTlsHandshake_keeps {M : Nat} {s0 : State} (c n slot : Nat) (ok : Bool) {s : State} (hk : Keeps M s0 s) (hM : Sub 2097185 M := by exact ‹Sub _ M›.of rfl) :
    OutKeeps M s0 (execTlsHandshake c n slot ok s) := by
  unfold execTlsHandshake
  try dsimp only
  repeat' (with_reducible first | assumption | exact hM.of rfl | apply Keeps.refl | apply outKeeps_ite | apply keeps_ite | apply OutKeeps.next | apply cntAdd_keeps | apply netSend_keeps | apply raiseEvent_keeps | apply showConns_keeps | apply updNet_keeps)

theorem execIcreq_keeps {M : Nat} {s0 : State} (c n : Nat) (hdgst ddgst : Bool) (hpda : Nat) {s : State} (hk : Keeps M s0 s) (hM : Sub 2097153 M := by exact ‹Sub _ M›.of rfl) :
    OutKeeps M s0 (execIcreq c n hdgst ddgst hpda s) := by
  unfold execIcreq
  try dsimp only
  repeat' (with_reducible first | assumption | exact hM.of rfl | apply Keeps.refl | apply outKeeps_ite | apply keeps_ite | apply OutKeeps.next | apply netSend_keeps | apply showConns_keeps | apply updNet_keeps)

theorem refuseConnect_keeps {M : Nat} {s0 : State} (c n sc : Nat) (dnr : Bool) {s : State} (hk : Keeps M s0 s) (hM : Sub 2097185 M := by exact ‹Sub _ M›.of rfl) :
    Keeps M s0 (refuseConnect c n sc dnr s) := by
  unfold refuseConnect
  try dsimp only
  repeat' (with_reducible first | assumption | exact hM.of rfl | apply Keeps.refl | apply keeps_ite | apply cntAdd_keeps | apply netSend_keeps | apply raiseEvent_keeps)

theorem connectAdmin_keeps {M : Nat} {s0 : State} (c : Nat) (x : NetConn) (nqn : List Byte) (disc : Bool) (size kato : Nat) {s : State} (hk : Keeps M s0 s) (hM : Sub 2097313 M := by exact ‹Sub _ M›.of rfl) :
    Keeps M s0 (connectAdmin c x nqn disc size kato s) := by
  unfold connectAdmin
  try dsimp only
  repeat' (with_reducible first | assumption | exact hM.of rfl | apply Keeps.refl | apply keeps_ite | apply netSend_keeps | apply refuseConnect_keeps | apply showConns_keeps | split | apply Keeps.upd_nv | apply Keeps.upd_nv_net | intro _)

theorem connectIo_keeps {M : Nat} {s0 : State} (c : Nat) (x : NetConn) (k qid size : Nat) {s : State} (hk : Keeps M s0 s) (hM : Sub 2097313 M := by exact ‹Sub _ M›.of rfl) :
    Keeps M s0 (connectIo c x k qid size s) := by
  unfold connectIo
  try dsimp only
  repeat' (with_reducible first | assumption | exact hM.of rfl | apply Keeps.refl | apply keeps_ite | apply netSend_keeps | apply refuseConnect_keeps | apply showConns_keeps | apply updCtrl_keeps | apply updNet_keeps | split | intro _)

theorem execConnect_keeps {M : Nat} {s0 : State} (c n : Nat) (roce : Bool) (nqn : List Byte) (disc : Bool) (k qid size kato : Nat) {s : State} (hk : Keeps M s0 s) (hM : Sub 2097313 M := by exact ‹Sub _ M›.of rfl) :
    OutKeeps M s0 (execConnect c n roce nqn disc k qid size kato s) := by
  unfold execConnect
  try dsimp only
  repeat' (with_reducible first | assumption | exact hM.of rfl | apply Keeps.refl | apply outKeeps_ite | apply keeps_ite | apply OutKeeps.next | apply connectAdmin_keeps | apply connectIo_keeps)

theorem execPropertySet_keeps {M : Nat} {s0 : State} (k off value : Nat) {s : State} (hk : Keeps M s0 s) (hM : Sub 58523639 M := by exact ‹Sub _ M›.of rfl) :
    OutKeeps M s0 (execPropertySet k off value s) := by
  unfold execPropertySet
  try dsimp only
  repeat' (with_reducible first | assumption | exact hM.of rfl | apply Keeps.refl | apply outKeeps_ite | apply keeps_ite | apply OutKeeps.next | apply beginShutdown_keeps | apply nvmSubsystemReset_keeps | apply requestCtrlReset_keeps | apply settleAll_keeps | apply updCtrl_keeps | split | intro _)

theorem execKatoExpiry_keeps {M : Nat} {s0 : State} (k : Nat) {s : State} (hk : Keeps M s0 s) (hM : Sub 41745319 M := by exact ‹Sub _ M›.of rfl) :
    OutKeeps M s0 (execKatoExpiry k s) := by
  unfold execKatoExpiry
  try dsimp only
  repeat' (with_reducible first | assumption | exact hM.of rfl | apply Keeps.refl | apply outKeeps_ite | apply keeps_ite | apply OutKeeps.next | apply endAssoc_keeps)

theorem execConnectionClosed_keeps {M : Nat} {s0 : State} (c : Nat) {s : State} (hk : Keeps M s0 s) (hM : Sub 41745319 M := by exact ‹Sub _ M›.of rfl) :
    OutKeeps M s0 (execConnectionClosed c s) := by
  unfold execConnectionClosed
  try dsimp only
  repeat' (with_reducible first | assumption | exact hM.of rfl | apply Keeps.refl | apply outKeeps_ite | apply keeps_ite | apply OutKeeps.next | apply connLost_keeps)

theorem execH2cData_keeps {M : Nat} {s0 : State} (c tag : Nat) (headBad dataBad : Bool) {s : State} (hk : Keeps M s0 s) (hM : Sub 41745319 M := by exact ‹Sub _ M›.of rfl) :
    OutKeeps M s0 (execH2cData c tag headBad dataBad s) := by
  unfold execH2cData
  try dsimp only
  repeat' (with_reducible first | assumption | exact hM.of rfl | apply Keeps.refl | apply outKeeps_ite | apply keeps_ite | apply OutKeeps.next | apply complete_keeps | apply connLost_keeps | split)

theorem execQueuePairError_keeps {M : Nat} {s0 : State} (c : Nat) {s : State} (hk : Keeps M s0 s) (hM : Sub 41745319 M := by exact ‹Sub _ M›.of rfl) :
    OutKeeps M s0 (execQueuePairError c s) := by
  unfold execQueuePairError
  try dsimp only
  repeat' (with_reducible first | assumption | exact hM.of rfl | apply Keeps.refl | apply outKeeps_ite | apply keeps_ite | apply OutKeeps.next | apply connLost_keeps)

theorem execRetransmissionTimeout_keeps {M : Nat} {s0 : State} (c : Nat) {s : State} (hk : Keeps M s0 s) (hM : Sub 41745319 M := by exact ‹Sub _ M›.of rfl) :
    OutKeeps M s0 (execRetransmissionTimeout c s) := by
  unfold execRetransmissionTimeout
  try dsimp only
  repeat' (with_reducible first | assumption | exact hM.of rfl | apply Keeps.refl | apply outKeeps_ite | apply keeps_ite | apply OutKeeps.next | apply connLost_keeps | apply netSend_keeps | apply updNet_keeps | split)

theorem execCePacketReceived_keeps {M : Nat} {s0 : State} (c : Nat) (recent : Bool) {s : State} (hk : Keeps M s0 s) (hM : Sub 2097153 M := by exact ‹Sub _ M›.of rfl) :
    OutKeeps M s0 (execCePacketReceived c recent s) := by
  unfold execCePacketReceived
  try dsimp only
  repeat' (with_reducible first | assumption | exact hM.of rfl | apply Keeps.refl | apply outKeeps_ite | apply keeps_ite | apply OutKeeps.next | apply cntAdd_keeps | apply netSend_keeps | split)

theorem stepRate_keeps {M : Nat} {s0 : State} (c : Nat) (f : Rat → Dcqcn → Dcqcn) {s : State} (hk : Keeps M s0 s) (hM : Sub 2097152 M := by exact ‹Sub _ M›.of rfl) :
    Keeps M s0 (stepRate c f s) := by
  unfold stepRate
  try dsimp only
  repeat' (with_reducible first | assumption | exact hM.of rfl | apply Keeps.refl | apply keeps_ite | apply updNet_keeps)

theorem execCnpReceived_keeps {M : Nat} {s0 : State} (c : Nat) {s : State} (hk : Keeps M s0 s) (hM : Sub 2097153 M := by exact ‹Sub _ M›.of rfl) :
    OutKeeps M s0 (execCnpReceived c s) := by
  unfold execCnpReceived
  try dsimp only
  repeat' (with_reducible first | assumption | exact hM.of rfl | apply Keeps.refl | apply outKeeps_ite | apply keeps_ite | apply OutKeeps.next | apply cntAdd_keeps | apply stepRate_keeps | split)

theorem execRateRecoveryTimer_keeps {M : Nat} {s0 : State} (c : Nat) {s : State} (hk : Keeps M s0 s) (hM : Sub 2097152 M := by exact ‹Sub _ M›.of rfl) :
    OutKeeps M s0 (execRateRecoveryTimer c s) := by
  unfold execRateRecoveryTimer
  try dsimp only
  repeat' (with_reducible first | assumption | exact hM.of rfl | apply Keeps.refl | apply outKeeps_ite | apply keeps_ite | apply OutKeeps.next | apply stepRate_keeps | split)

end Sys2Proof.Machine
end

