-- ==== Sys2Proof/Laws/KeepHostLogs.lean ====
section
/-! SUPPORT. Every operation of Machine/HostLogs.lean leaves what `Keeps` says. -/

set_option Elab.async false

namespace Sys2Proof.Machine

theorem answerLog_keeps {M : Nat} {s0 : State} (x : Cmd) (r : LogReq) (typ : Option Nat) (page : List Byte) {s : State} (hk : Keeps M s0 s) (hM : Sub 4194469 M := by exact ‹Sub _ M›.of rfl) :
    Keeps M s0 (answerLog x r typ page s) := by
  unfold answerLog
  try dsimp only
  repeat' (with_reducible first | assumption | exact hM.of rfl | apply Keeps.refl | apply keeps_ite | apply clearAen_keeps | apply completeData_keeps | apply invalidField_keeps | split | apply Keeps.updFree)

theorem logRow_keeps {M : Nat} {s0 : State} (tag : Nat) (answer : Cmd → State → State) {s : State} (hk : Keeps M s0 s) (hanswer : ∀ x0 t, Keeps M t (answer x0 t)) (hM : Sub 0 M := by exact ‹Sub _ M›.of rfl) :
    OutKeeps M s0 (logRow tag answer s) := by
  unfold logRow
  try dsimp only
  repeat' (with_reducible first | assumption | exact hM.of rfl | apply Keeps.refl | apply outKeeps_ite | apply keeps_ite | apply OutKeeps.next | refine Keeps.trans ?_ (hanswer _ _) | split)

theorem recorderLog_keeps {M : Nat} {s0 : State} (start : Option Nat) (x : Cmd) (r : LogReq) {s : State} (hk : Keeps M s0 s) (hM : Sub 4194469 M := by exact ‹Sub _ M›.of rfl) :
    Keeps M s0 (recorderLog start x r s) := by
  unfold recorderLog
  try dsimp only
  repeat' (with_reducible first | assumption | exact hM.of rfl | apply Keeps.refl | apply keeps_ite | apply answerLog_keeps | apply invalidField_keeps | apply markRead_keeps | split | apply Keeps.updR)

theorem standardLog_keeps {M : Nat} {s0 : State} (lid : Nat) (x : Cmd) (r : LogReq) {s : State} (hk : Keeps M s0 s) (hM : Sub 4194469 M := by exact ‹Sub _ M›.of rfl) :
    Keeps M s0 (standardLog lid x r s) := by
  unfold standardLog
  try dsimp only
  repeat' (with_reducible first | assumption | exact hM.of rfl | apply Keeps.refl | apply keeps_ite | apply answerLog_keeps | apply complete_keeps | apply invalidField_keeps | split | apply Keeps.upd_nv | apply Keeps.updF_nv | apply Keeps.updFree | apply Keeps.updR_nv)

theorem execGetLogPage_keeps {M : Nat} {s0 : State} (tag lid off dwords lsp : Nat) (rae : Bool) {s : State} (hk : Keeps M s0 s) (hM : Sub 4194469 M := by exact ‹Sub _ M›.of rfl) :
    OutKeeps M s0 (execGetLogPage tag lid off dwords lsp rae s) := by
  unfold execGetLogPage
  try dsimp only
  repeat' (with_reducible first | assumption | exact hM.of rfl | apply Keeps.refl | apply outKeeps_ite | apply keeps_ite | apply OutKeeps.next | apply logRow_keeps | apply standardLog_keeps | split | intro _)

theorem vendorRow_keeps {M : Nat} {s0 : State} (tag off dwords : Nat) (page : Cmd → State → List Byte) {s : State} (hk : Keeps M s0 s) (hM : Sub 4194469 M := by exact ‹Sub _ M›.of rfl) :
    OutKeeps M s0 (vendorRow tag off dwords page s) := by
  unfold vendorRow
  try dsimp only
  repeat' (with_reducible first | assumption | exact hM.of rfl | apply Keeps.refl | apply outKeeps_ite | apply keeps_ite | apply OutKeeps.next | apply answerLog_keeps | apply logRow_keeps | split | intro _)

theorem execModuleIdentityLog_keeps {M : Nat} {s0 : State} (tag off dwords : Nat) {s : State} (hk : Keeps M s0 s) (hM : Sub 4194469 M := by exact ‹Sub _ M›.of rfl) :
    OutKeeps M s0 (execModuleIdentityLog tag off dwords s) := by
  unfold execModuleIdentityLog
  try dsimp only
  repeat' (with_reducible first | assumption | exact hM.of rfl | apply Keeps.refl | apply outKeeps_ite | apply keeps_ite | apply OutKeeps.next | apply vendorRow_keeps)

theorem execWearAndSparesLog_keeps {M : Nat} {s0 : State} (tag off dwords : Nat) {s : State} (hk : Keeps M s0 s) (hM : Sub 4194469 M := by exact ‹Sub _ M›.of rfl) :
    OutKeeps M s0 (execWearAndSparesLog tag off dwords s) := by
  unfold execWearAndSparesLog
  try dsimp only
  repeat' (with_reducible first | assumption | exact hM.of rfl | apply Keeps.refl | apply outKeeps_ite | apply keeps_ite | apply OutKeeps.next | apply vendorRow_keeps)

theorem execPowerAndModeLog_keeps {M : Nat} {s0 : State} (tag off dwords : Nat) {s : State} (hk : Keeps M s0 s) (hM : Sub 4194469 M := by exact ‹Sub _ M›.of rfl) :
    OutKeeps M s0 (execPowerAndModeLog tag off dwords s) := by
  unfold execPowerAndModeLog
  try dsimp only
  repeat' (with_reducible first | assumption | exact hM.of rfl | apply Keeps.refl | apply outKeeps_ite | apply keeps_ite | apply OutKeeps.next | apply answerLog_keeps | apply logRow_keeps | split | apply Keeps.updFree | intro _)

theorem execTagsAndOrderingLog_keeps {M : Nat} {s0 : State} (tag off dwords : Nat) {s : State} (hk : Keeps M s0 s) (hM : Sub 4194469 M := by exact ‹Sub _ M›.of rfl) :
    OutKeeps M s0 (execTagsAndOrderingLog tag off dwords s) := by
  unfold execTagsAndOrderingLog
  try dsimp only
  repeat' (with_reducible first | assumption | exact hM.of rfl | apply Keeps.refl | apply outKeeps_ite | apply keeps_ite | apply OutKeeps.next | apply vendorRow_keeps)

theorem execChannelHealthLog_keeps {M : Nat} {s0 : State} (tag off dwords : Nat) {s : State} (hk : Keeps M s0 s) (hM : Sub 4194469 M := by exact ‹Sub _ M›.of rfl) :
    OutKeeps M s0 (execChannelHealthLog tag off dwords s) := by
  unfold execChannelHealthLog
  try dsimp only
  repeat' (with_reducible first | assumption | exact hM.of rfl | apply Keeps.refl | apply outKeeps_ite | apply keeps_ite | apply OutKeeps.next | apply vendorRow_keeps)

theorem execMatchArraysLog_keeps {M : Nat} {s0 : State} (tag off dwords : Nat) {s : State} (hk : Keeps M s0 s) (hM : Sub 4194469 M := by exact ‹Sub _ M›.of rfl) :
    OutKeeps M s0 (execMatchArraysLog tag off dwords s) := by
  unfold execMatchArraysLog
  try dsimp only
  repeat' (with_reducible first | assumption | exact hM.of rfl | apply Keeps.refl | apply outKeeps_ite | apply keeps_ite | apply OutKeeps.next | apply vendorRow_keeps)

theorem execComputeClustersLog_keeps {M : Nat} {s0 : State} (tag off dwords : Nat) {s : State} (hk : Keeps M s0 s) (hM : Sub 4194469 M := by exact ‹Sub _ M›.of rfl) :
    OutKeeps M s0 (execComputeClustersLog tag off dwords s) := by
  unfold execComputeClustersLog
  try dsimp only
  repeat' (with_reducible first | assumption | exact hM.of rfl | apply Keeps.refl | apply outKeeps_ite | apply keeps_ite | apply OutKeeps.next | apply vendorRow_keeps)

theorem execDramAndSramErrorsLog_keeps {M : Nat} {s0 : State} (tag off dwords : Nat) {s : State} (hk : Keeps M s0 s) (hM : Sub 4194469 M := by exact ‹Sub _ M›.of rfl) :
    OutKeeps M s0 (execDramAndSramErrorsLog tag off dwords s) := by
  unfold execDramAndSramErrorsLog
  try dsimp only
  repeat' (with_reducible first | assumption | exact hM.of rfl | apply Keeps.refl | apply outKeeps_ite | apply keeps_ite | apply OutKeeps.next | apply vendorRow_keeps)

theorem execNetworkPortsLog_keeps {M : Nat} {s0 : State} (tag off dwords : Nat) {s : State} (hk : Keeps M s0 s) (hM : Sub 4194469 M := by exact ‹Sub _ M›.of rfl) :
    OutKeeps M s0 (execNetworkPortsLog tag off dwords s) := by
  unfold execNetworkPortsLog
  try dsimp only
  repeat' (with_reducible first | assumption | exact hM.of rfl | apply Keeps.refl | apply outKeeps_ite | apply keeps_ite | apply OutKeeps.next | apply answerLog_keeps | apply logRow_keeps | split | apply Keeps.updFree | intro _)

theorem execSensorsAndThrottlingLog_keeps {M : Nat} {s0 : State} (tag off dwords : Nat) {s : State} (hk : Keeps M s0 s) (hM : Sub 4194469 M := by exact ‹Sub _ M›.of rfl) :
    OutKeeps M s0 (execSensorsAndThrottlingLog tag off dwords s) := by
  unfold execSensorsAndThrottlingLog
  try dsimp only
  repeat' (with_reducible first | assumption | exact hM.of rfl | apply Keeps.refl | apply outKeeps_ite | apply keeps_ite | apply OutKeeps.next | apply vendorRow_keeps)

theorem execEventRecorderWindowLog_keeps {M : Nat} {s0 : State} (tag off dwords : Nat) (byIndex rae : Bool) (tier : Nat) {s : State} (hk : Keeps M s0 s) (hM : Sub 4194469 M := by exact ‹Sub _ M›.of rfl) :
    OutKeeps M s0 (execEventRecorderWindowLog tag off dwords byIndex rae tier s) := by
  unfold execEventRecorderWindowLog
  try dsimp only
  repeat' (with_reducible first | assumption | exact hM.of rfl | apply Keeps.refl | apply outKeeps_ite | apply keeps_ite | apply OutKeeps.next | apply logRow_keeps | apply recorderLog_keeps | split | intro _)

theorem execFirmwareComponentsLog_keeps {M : Nat} {s0 : State} (tag off dwords : Nat) {s : State} (hk : Keeps M s0 s) (hM : Sub 4194469 M := by exact ‹Sub _ M›.of rfl) :
    OutKeeps M s0 (execFirmwareComponentsLog tag off dwords s) := by
  unfold execFirmwareComponentsLog
  try dsimp only
  repeat' (with_reducible first | assumption | exact hM.of rfl | apply Keeps.refl | apply outKeeps_ite | apply keeps_ite | apply OutKeeps.next | apply vendorRow_keeps)

theorem execTenantResourcesLog_keeps {M : Nat} {s0 : State} (tag off dwords : Nat) {s : State} (hk : Keeps M s0 s) (hM : Sub 4194469 M := by exact ‹Sub _ M›.of rfl) :
    OutKeeps M s0 (execTenantResourcesLog tag off dwords s) := by
  unfold execTenantResourcesLog
  try dsimp only
  repeat' (with_reducible first | assumption | exact hM.of rfl | apply Keeps.refl | apply outKeeps_ite | apply keeps_ite | apply OutKeeps.next | apply vendorRow_keeps)

theorem execScanStatisticsLog_keeps {M : Nat} {s0 : State} (tag off dwords : Nat) {s : State} (hk : Keeps M s0 s) (hM : Sub 4194469 M := by exact ‹Sub _ M›.of rfl) :
    OutKeeps M s0 (execScanStatisticsLog tag off dwords s) := by
  unfold execScanStatisticsLog
  try dsimp only
  repeat' (with_reducible first | assumption | exact hM.of rfl | apply Keeps.refl | apply outKeeps_ite | apply keeps_ite | apply OutKeeps.next | apply vendorRow_keeps)

end Sys2Proof.Machine
end

