-- ==== Sys2Proof/Laws/KeepHostResv.lean ====
section
/-! SUPPORT. Every operation of Machine/HostResv.lean leaves what `Keeps` says. -/

set_option Elab.async false

namespace Sys2Proof.Machine

theorem resvNotify_keeps {M : Nat} {s0 : State} (t nsid : Nat) (hosts : List Nat) {s : State} (hk : Keeps M s0 s) (hM : Sub 4194465 M := by exact ‹Sub _ M›.of rfl) :
    Keeps M s0 (resvNotify t nsid hosts s) := by
  unfold resvNotify
  try dsimp only
  repeat' (with_reducible first | assumption | exact hM.of rfl | apply Keeps.refl | apply keeps_ite | apply raiseAen_keeps | split | apply Keeps.upd_nv)

theorem updResv_keeps {M : Nat} {s0 : State} (nsid : Nat) (f : Resv → Resv) {s : State} (hk : Keeps M s0 s) (hM : Sub 128 M := by exact ‹Sub _ M›.of rfl) :
    Keeps M s0 (updResv nsid f s) := by
  unfold updResv
  try dsimp only
  repeat' (with_reducible first | assumption | exact hM.of rfl | apply Keeps.refl | apply keeps_ite | split | apply Keeps.upd_nv)

theorem resvRow_keeps {M : Nat} {s0 : State} (tag : Nat) (run : Cmd → Resv → Nat → State → State) {s : State} (hk : Keeps M s0 s) (hrun : ∀ x0 x1 x2 t, Keeps M t (run x0 x1 x2 t)) (hM : Sub 4194465 M := by exact ‹Sub _ M›.of rfl) :
    OutKeeps M s0 (resvRow tag run s) := by
  unfold resvRow
  try dsimp only
  repeat' (with_reducible first | assumption | exact hM.of rfl | apply Keeps.refl | apply outKeeps_ite | apply keeps_ite | apply OutKeeps.next | apply complete_keeps | refine Keeps.trans ?_ (hrun _ _ _ _) | split)

theorem conflict_keeps {M : Nat} {s0 : State} (tag : Nat) {s : State} (hk : Keeps M s0 s) (hM : Sub 4194465 M := by exact ‹Sub _ M›.of rfl) :
    Keeps M s0 (conflict tag s) := by
  unfold conflict
  try dsimp only
  repeat' (with_reducible first | assumption | exact hM.of rfl | apply Keeps.refl | apply keeps_ite | apply complete_keeps)

theorem releaseResv_keeps {M : Nat} {s0 : State} (nsid h : Nat) (r : Resv) {s : State} (hk : Keeps M s0 s) (hM : Sub 4194465 M := by exact ‹Sub _ M›.of rfl) :
    Keeps M s0 (releaseResv nsid h r s) := by
  unfold releaseResv
  try dsimp only
  repeat' (with_reducible first | assumption | exact hM.of rfl | apply Keeps.refl | apply keeps_ite | apply resvNotify_keeps | apply updResv_keeps)

theorem dropRegs_keeps {M : Nat} {s0 : State} (nsid : Nat) (hosts : List Nat) {s : State} (hk : Keeps M s0 s) (hM : Sub 128 M := by exact ‹Sub _ M›.of rfl) :
    Keeps M s0 (dropRegs nsid hosts s) := by
  unfold dropRegs
  try dsimp only
  repeat' (with_reducible first | assumption | exact hM.of rfl | apply Keeps.refl | apply keeps_ite | apply updResv_keeps)

theorem execReservationRegister_keeps {M : Nat} {s0 : State} (tag act : Nat) (iekey : Bool) (cptpl crkey nrkey : Nat) {s : State} (hk : Keeps M s0 s) (hM : Sub 4194465 M := by exact ‹Sub _ M›.of rfl) :
    OutKeeps M s0 (execReservationRegister tag act iekey cptpl crkey nrkey s) := by
  unfold execReservationRegister
  try dsimp only
  repeat' (with_reducible first | assumption | exact hM.of rfl | apply Keeps.refl | apply outKeeps_ite | apply keeps_ite | apply OutKeeps.next | apply completeOk_keeps | apply conflict_keeps | apply dropRegs_keeps | apply invalidField_keeps | apply releaseResv_keeps | apply resvRow_keeps | apply updResv_keeps | split | intro _)

theorem execReservationAcquire_keeps {M : Nat} {s0 : State} (tag act : Nat) (iekey : Bool) (rtype crkey prkey : Nat) {s : State} (hk : Keeps M s0 s) (hM : Sub 4459429 M := by exact ‹Sub _ M›.of rfl) :
    OutKeeps M s0 (execReservationAcquire tag act iekey rtype crkey prkey s) := by
  unfold execReservationAcquire
  try dsimp only
  repeat' (with_reducible first | assumption | exact hM.of rfl | apply Keeps.refl | apply outKeeps_ite | apply keeps_ite | apply OutKeeps.next | apply abortWith_keeps | apply completeOk_keeps | apply conflict_keeps | apply dropRegs_keeps | apply forEach_keeps | apply invalidField_keeps | apply resvNotify_keeps | apply resvRow_keeps | apply updResv_keeps | apply forEach_keeps | split | intro _)

theorem execReservationRelease_keeps {M : Nat} {s0 : State} (tag act : Nat) (iekey : Bool) (rtype crkey : Nat) {s : State} (hk : Keeps M s0 s) (hM : Sub 4194465 M := by exact ‹Sub _ M›.of rfl) :
    OutKeeps M s0 (execReservationRelease tag act iekey rtype crkey s) := by
  unfold execReservationRelease
  try dsimp only
  repeat' (with_reducible first | assumption | exact hM.of rfl | apply Keeps.refl | apply outKeeps_ite | apply keeps_ite | apply OutKeeps.next | apply completeOk_keeps | apply conflict_keeps | apply invalidField_keeps | apply releaseResv_keeps | apply resvNotify_keeps | apply resvRow_keeps | apply updResv_keeps | split | intro _)

theorem execReservationReport_keeps {M : Nat} {s0 : State} (tag dwords : Nat) (eds : Bool) {s : State} (hk : Keeps M s0 s) (hM : Sub 4194465 M := by exact ‹Sub _ M›.of rfl) :
    OutKeeps M s0 (execReservationReport tag dwords eds s) := by
  unfold execReservationReport
  try dsimp only
  repeat' (with_reducible first | assumption | exact hM.of rfl | apply Keeps.refl | apply outKeeps_ite | apply keeps_ite | apply OutKeeps.next | apply completeData_keeps | apply resvRow_keeps | split | intro _)

end Sys2Proof.Machine
end

