-- ==== Sys2Proof/Laws/KeepHostAdmin.lean ====
section
/-! SUPPORT. Every operation of Machine/HostAdmin.lean leaves what `Keeps` says. -/

set_option Elab.async false

namespace Sys2Proof.Machine

theorem adminRow_keeps {M : Nat} {s0 : State} (tag : Nat) (run : Cmd → Ctrl → State → State) {s : State} (hk : Keeps M s0 s) (hrun : ∀ x0 x1 t, Keeps M t (run x0 x1 t)) (hM : Sub 0 M := by exact ‹Sub _ M›.of rfl) :
    OutKeeps M s0 (adminRow tag run s) := by
  unfold adminRow
  try dsimp only
  repeat' (with_reducible first | assumption | exact hM.of rfl | apply Keeps.refl | apply outKeeps_ite | apply keeps_ite | apply OutKeeps.next | refine Keeps.trans ?_ (hrun _ _ _) | split)

theorem invalidOpcode_keeps {M : Nat} {s0 : State} (tag : Nat) {s : State} (hk : Keeps M s0 s) (hM : Sub 4194465 M := by exact ‹Sub _ M›.of rfl) :
    Keeps M s0 (invalidOpcode tag s) := by
  unfold invalidOpcode
  try dsimp only
  repeat' (with_reducible first | assumption | exact hM.of rfl | apply Keeps.refl | apply keeps_ite | apply complete_keeps)

theorem pcieRow_keeps {M : Nat} {s0 : State} (tag : Nat) (run : Cmd → Ctrl → State → State) {s : State} (hk : Keeps M s0 s) (hrun : ∀ x0 x1 t, Keeps M t (run x0 x1 t)) (hM : Sub 4194465 M := by exact ‹Sub _ M›.of rfl) :
    OutKeeps M s0 (pcieRow tag run s) := by
  unfold pcieRow
  try dsimp only
  repeat' (with_reducible first | assumption | exact hM.of rfl | apply Keeps.refl | apply outKeeps_ite | apply keeps_ite | apply OutKeeps.next | apply adminRow_keeps | apply invalidOpcode_keeps | refine Keeps.trans ?_ (hrun _ _ _) | split | intro _)

theorem unlessSanitize_keeps {M : Nat} {s0 : State} (tag : Nat) (run : State → State) {s : State} (hk : Keeps M s0 s) (hrun : ∀ t, Keeps M t (run t)) (hM : Sub 4194465 M := by exact ‹Sub _ M›.of rfl) :
    Keeps M s0 (unlessSanitize tag run s) := by
  unfold unlessSanitize
  try dsimp only
  repeat' (with_reducible first | assumption | exact hM.of rfl | apply Keeps.refl | apply keeps_ite | apply complete_keeps | refine Keeps.trans ?_ (hrun _))

theorem execCreateIoSubmissionQueue_keeps {M : Nat} {s0 : State} (tag qid size0 cq prio addr : Nat) (pc : Bool) {s : State} (hk : Keeps M s0 s) (hM : Sub 4194465 M := by exact ‹Sub _ M›.of rfl) :
    OutKeeps M s0 (execCreateIoSubmissionQueue tag qid size0 cq prio addr pc s) := by
  unfold execCreateIoSubmissionQueue
  try dsimp only
  repeat' (with_reducible first | assumption | exact hM.of rfl | apply Keeps.refl | apply outKeeps_ite | apply keeps_ite | apply OutKeeps.next | apply complete_keeps | apply completeOk_keeps | apply invalidField_keeps | apply pcieRow_keeps | apply quotaExceeded_keeps | apply updCtrl_keeps | split | intro _)

theorem execCreateIoCompletionQueue_keeps {M : Nat} {s0 : State} (tag qid size0 addr : Nat) (pc : Bool) (vector : Option Nat) {s : State} (hk : Keeps M s0 s) (hM : Sub 4194465 M := by exact ‹Sub _ M›.of rfl) :
    OutKeeps M s0 (execCreateIoCompletionQueue tag qid size0 addr pc vector s) := by
  unfold execCreateIoCompletionQueue
  try dsimp only
  repeat' (with_reducible first | assumption | exact hM.of rfl | apply Keeps.refl | apply outKeeps_ite | apply keeps_ite | apply OutKeeps.next | apply complete_keeps | apply completeOk_keeps | apply invalidField_keeps | apply pcieRow_keeps | apply quotaExceeded_keeps | apply updCtrl_keeps | split | intro _)

theorem execDeleteIoSubmissionQueue_keeps {M : Nat} {s0 : State} (tag qid : Nat) {s : State} (hk : Keeps M s0 s) (hM : Sub 39648167 M := by exact ‹Sub _ M›.of rfl) :
    OutKeeps M s0 (execDeleteIoSubmissionQueue tag qid s) := by
  unfold execDeleteIoSubmissionQueue
  try dsimp only
  repeat' (with_reducible first | assumption | exact hM.of rfl | apply Keeps.refl | apply outKeeps_ite | apply keeps_ite | apply OutKeeps.next | apply abandonExecs_keeps | apply abortWith_keeps | apply complete_keeps | apply completeOk_keeps | apply forEach_keeps | apply pcieRow_keeps | apply updCtrl_keeps | apply forEach_keeps | split | apply Keeps.upd_prog | intro _)

theorem execDeleteIoCompletionQueue_keeps {M : Nat} {s0 : State} (tag qid : Nat) {s : State} (hk : Keeps M s0 s) (hM : Sub 4194465 M := by exact ‹Sub _ M›.of rfl) :
    OutKeeps M s0 (execDeleteIoCompletionQueue tag qid s) := by
  unfold execDeleteIoCompletionQueue
  try dsimp only
  repeat' (with_reducible first | assumption | exact hM.of rfl | apply Keeps.refl | apply outKeeps_ite | apply keeps_ite | apply OutKeeps.next | apply complete_keeps | apply completeOk_keeps | apply pcieRow_keeps | apply updCtrl_keeps | split | intro _)

theorem putFeature_keeps {M : Nat} {s0 : State} (c key v : Nat) (sv : Bool) {s : State} (hk : Keeps M s0 s) (hM : Sub 128 M := by exact ‹Sub _ M›.of rfl) :
    Keeps M s0 (putFeature c key v sv s) := by
  unfold putFeature
  try dsimp only
  repeat' (with_reducible first | assumption | exact hM.of rfl | apply Keeps.refl | apply keeps_ite | apply updCtrl_keeps | split | apply Keeps.upd_nv)

theorem setThreshold_keeps {M : Nat} {s0 : State} (c dw11 : Nat) (sv : Bool) {s : State} (hk : Keeps M s0 s) (hM : Sub 4194465 M := by exact ‹Sub _ M›.of rfl) :
    Keeps M s0 (setThreshold c dw11 sv s) := by
  unfold setThreshold
  try dsimp only
  repeat' (with_reducible first | assumption | exact hM.of rfl | apply Keeps.refl | apply keeps_ite | apply forEach_keeps | apply judgeTemp_keeps | apply putFeature_keeps | apply forEach_keeps | split | intro _)

theorem setApst_keeps {M : Nat} {s0 : State} (x : Cmd) (dw11 : Nat) (data : List Byte) {s : State} (hk : Keeps M s0 s) (hM : Sub 4194465 M := by exact ‹Sub _ M›.of rfl) :
    Keeps M s0 (setApst x dw11 data s) := by
  unfold setApst
  try dsimp only
  repeat' (with_reducible first | assumption | exact hM.of rfl | apply Keeps.refl | apply keeps_ite | apply completeOk_keeps | apply forEach_keeps | apply invalidField_keeps | apply putFeature_keeps | apply updCtrl_keeps | apply forEach_keeps | split | intro _)

theorem setWide_keeps {M : Nat} {s0 : State} (x : Cmd) (c : Ctrl) (fid v : Nat) (sv : Bool) {s : State} (hk : Keeps M s0 s) (hM : Sub 4194481 M := by exact ‹Sub _ M›.of rfl) :
    Keeps M s0 (setWide x c fid v sv s) := by
  unfold setWide
  try dsimp only
  repeat' (with_reducible first | assumption | exact hM.of rfl | apply Keeps.refl | apply keeps_ite | apply completeOk_keeps | apply invalidField_keeps | split | apply Keeps.upd_feat_nv)

theorem setRuntime_keeps {M : Nat} {s0 : State} (x : Cmd) (c : Ctrl) (v : Nat) (sv : Bool) {s : State} (hk : Keeps M s0 s) (hM : Sub 4196513 M := by exact ‹Sub _ M›.of rfl) :
    Keeps M s0 (setRuntime x c v sv s) := by
  unfold setRuntime
  try dsimp only
  repeat' (with_reducible first | assumption | exact hM.of rfl | apply Keeps.refl | apply keeps_ite | apply applyWcache_keeps | apply complete_keeps | apply completeOk_keeps | apply invalidField_keeps | apply putFeature_keeps | apply quotaExceeded_keeps)

theorem setOrderedQueue_keeps {M : Nat} {s0 : State} (x : Cmd) (v : Nat) (sv : Bool) {s : State} (hk : Keeps M s0 s) (hM : Sub 4194465 M := by exact ‹Sub _ M›.of rfl) :
    Keeps M s0 (setOrderedQueue x v sv s) := by
  unfold setOrderedQueue
  try dsimp only
  repeat' (with_reducible first | assumption | exact hM.of rfl | apply Keeps.refl | apply keeps_ite | apply complete_keeps | apply completeOk_keeps | apply invalidField_keeps | apply updSq_keeps | split | intro _)

theorem setNetwork_keeps {M : Nat} {s0 : State} (x : Cmd) (c : Ctrl) (v : Nat) (sv : Bool) (data : List Byte) (lost : List Nat) {s : State} (hk : Keeps M s0 s) (hM : Sub 41745319 M := by exact ‹Sub _ M›.of rfl) :
    Keeps M s0 (setNetwork x c v sv data lost s) := by
  unfold setNetwork
  try dsimp only
  repeat' (with_reducible first | assumption | exact hM.of rfl | apply Keeps.refl | apply keeps_ite | apply completeOk_keeps | apply invalidField_keeps | apply setHost_keeps | apply setPort_keeps | apply setPsk_keeps | apply updNet_keeps | split)

theorem setFeature_keeps {M : Nat} {s0 : State} (fid dw11 : Nat) (sv : Bool) (data : List Byte) (lost : List Nat) (x : Cmd) (c : Ctrl) {s : State} (hk : Keeps M s0 s) (hM : Sub 41745335 M := by exact ‹Sub _ M›.of rfl) :
    Keeps M s0 (setFeature fid dw11 sv data lost x c s) := by
  unfold setFeature
  try dsimp only
  repeat' (with_reducible first | assumption | exact hM.of rfl | apply Keeps.refl | apply keeps_ite | apply complete_keeps | apply completeDw_keeps | apply completeOk_keeps | apply forEach_keeps | apply invalidField_keeps | apply putFeature_keeps | apply setApst_keeps | apply setNetwork_keeps | apply setOrderedQueue_keeps | apply setRequested_keeps | apply setRuntime_keeps | apply setThreshold_keeps | apply setWide_keeps | apply updNet_keeps | apply updResv_keeps | apply forEach_keeps | split | intro _)

theorem execSetFeatures_keeps {M : Nat} {s0 : State} (tag fid dw11 : Nat) (sv : Bool) (data : List Byte) {s : State} (hk : Keeps M s0 s) (hM : Sub 41745335 M := by exact ‹Sub _ M›.of rfl) :
    OutKeeps M s0 (execSetFeatures tag fid dw11 sv data s) := by
  unfold execSetFeatures
  try dsimp only
  repeat' (with_reducible first | assumption | exact hM.of rfl | apply Keeps.refl | apply outKeeps_ite | apply keeps_ite | apply OutKeeps.next | apply adminRow_keeps | apply setFeature_keeps | split | intro _)

theorem execSetPowerManagement_keeps {M : Nat} {s0 : State} (tag dw11 : Nat) (sv : Bool) {s : State} (hk : Keeps M s0 s) (hM : Sub 41745335 M := by exact ‹Sub _ M›.of rfl) :
    OutKeeps M s0 (execSetPowerManagement tag dw11 sv s) := by
  unfold execSetPowerManagement
  try dsimp only
  repeat' (with_reducible first | assumption | exact hM.of rfl | apply Keeps.refl | apply outKeeps_ite | apply keeps_ite | apply OutKeeps.next | apply adminRow_keeps | apply setFeature_keeps | split | intro _)

theorem execSetOrderedQueue_keeps {M : Nat} {s0 : State} (tag dw11 : Nat) (sv : Bool) {s : State} (hk : Keeps M s0 s) (hM : Sub 41745335 M := by exact ‹Sub _ M›.of rfl) :
    OutKeeps M s0 (execSetOrderedQueue tag dw11 sv s) := by
  unfold execSetOrderedQueue
  try dsimp only
  repeat' (with_reducible first | assumption | exact hM.of rfl | apply Keeps.refl | apply outKeeps_ite | apply keeps_ite | apply OutKeeps.next | apply adminRow_keeps | apply setFeature_keeps | split | intro _)

theorem execSetLandingPoolPolicy_keeps {M : Nat} {s0 : State} (tag dw11 : Nat) (sv : Bool) {s : State} (hk : Keeps M s0 s) (hM : Sub 41745335 M := by exact ‹Sub _ M›.of rfl) :
    OutKeeps M s0 (execSetLandingPoolPolicy tag dw11 sv s) := by
  unfold execSetLandingPoolPolicy
  try dsimp only
  repeat' (with_reducible first | assumption | exact hM.of rfl | apply Keeps.refl | apply outKeeps_ite | apply keeps_ite | apply OutKeeps.next | apply adminRow_keeps | apply setFeature_keeps | split | intro _)

theorem execSetScanDefaults_keeps {M : Nat} {s0 : State} (tag dw11 : Nat) (sv : Bool) {s : State} (hk : Keeps M s0 s) (hM : Sub 41745335 M := by exact ‹Sub _ M›.of rfl) :
    OutKeeps M s0 (execSetScanDefaults tag dw11 sv s) := by
  unfold execSetScanDefaults
  try dsimp only
  repeat' (with_reducible first | assumption | exact hM.of rfl | apply Keeps.refl | apply outKeeps_ite | apply keeps_ite | apply OutKeeps.next | apply adminRow_keeps | apply setFeature_keeps | split | intro _)

theorem execSetComputeRuntime_keeps {M : Nat} {s0 : State} (tag dw11 : Nat) (sv : Bool) {s : State} (hk : Keeps M s0 s) (hM : Sub 41745335 M := by exact ‹Sub _ M›.of rfl) :
    OutKeeps M s0 (execSetComputeRuntime tag dw11 sv s) := by
  unfold execSetComputeRuntime
  try dsimp only
  repeat' (with_reducible first | assumption | exact hM.of rfl | apply Keeps.refl | apply outKeeps_ite | apply keeps_ite | apply OutKeeps.next | apply adminRow_keeps | apply setFeature_keeps | split | intro _)

theorem execSetThermalThresholds_keeps {M : Nat} {s0 : State} (tag dw11 : Nat) (sv : Bool) {s : State} (hk : Keeps M s0 s) (hM : Sub 41745335 M := by exact ‹Sub _ M›.of rfl) :
    OutKeeps M s0 (execSetThermalThresholds tag dw11 sv s) := by
  unfold execSetThermalThresholds
  try dsimp only
  repeat' (with_reducible first | assumption | exact hM.of rfl | apply Keeps.refl | apply outKeeps_ite | apply keeps_ite | apply OutKeeps.next | apply adminRow_keeps | apply setFeature_keeps | split | intro _)

theorem execSetEventNotification_keeps {M : Nat} {s0 : State} (tag dw11 : Nat) (sv : Bool) {s : State} (hk : Keeps M s0 s) (hM : Sub 41745335 M := by exact ‹Sub _ M›.of rfl) :
    OutKeeps M s0 (execSetEventNotification tag dw11 sv s) := by
  unfold execSetEventNotification
  try dsimp only
  repeat' (with_reducible first | assumption | exact hM.of rfl | apply Keeps.refl | apply outKeeps_ite | apply keeps_ite | apply OutKeeps.next | apply adminRow_keeps | apply setFeature_keeps | split | intro _)

theorem execSetTenantArbitrationReadOut_keeps {M : Nat} {s0 : State} (tag dw11 : Nat) (sv : Bool) {s : State} (hk : Keeps M s0 s) (hM : Sub 41745335 M := by exact ‹Sub _ M›.of rfl) :
    OutKeeps M s0 (execSetTenantArbitrationReadOut tag dw11 sv s) := by
  unfold execSetTenantArbitrationReadOut
  try dsimp only
  repeat' (with_reducible first | assumption | exact hM.of rfl | apply Keeps.refl | apply outKeeps_ite | apply keeps_ite | apply OutKeeps.next | apply adminRow_keeps | apply setFeature_keeps | split | intro _)

theorem execSetNetworkPorts_keeps {M : Nat} {s0 : State} (tag dw11 : Nat) (sv : Bool) (data : List Byte) (lost : List Nat) {s : State} (hk : Keeps M s0 s) (hM : Sub 41745335 M := by exact ‹Sub _ M›.of rfl) :
    OutKeeps M s0 (execSetNetworkPorts tag dw11 sv data lost s) := by
  unfold execSetNetworkPorts
  try dsimp only
  repeat' (with_reducible first | assumption | exact hM.of rfl | apply Keeps.refl | apply outKeeps_ite | apply keeps_ite | apply OutKeeps.next | apply adminRow_keeps | apply setFeature_keeps | split | intro _)

theorem getFeature_keeps {M : Nat} {s0 : State} (fid sel dw11 : Nat) (x : Cmd) (c : Ctrl) {s : State} (hk : Keeps M s0 s) (hM : Sub 4194465 M := by exact ‹Sub _ M›.of rfl) :
    Keeps M s0 (getFeature fid sel dw11 x c s) := by
  unfold getFeature
  try dsimp only
  repeat' (with_reducible first | assumption | exact hM.of rfl | apply Keeps.refl | apply keeps_ite | apply complete_keeps | apply completeData_keeps | apply completeDw_keeps | apply invalidField_keeps | split)

theorem execGetFeatures_keeps {M : Nat} {s0 : State} (tag fid sel dw11 : Nat) {s : State} (hk : Keeps M s0 s) (hM : Sub 4194465 M := by exact ‹Sub _ M›.of rfl) :
    OutKeeps M s0 (execGetFeatures tag fid sel dw11 s) := by
  unfold execGetFeatures
  try dsimp only
  repeat' (with_reducible first | assumption | exact hM.of rfl | apply Keeps.refl | apply outKeeps_ite | apply keeps_ite | apply OutKeeps.next | apply adminRow_keeps | apply getFeature_keeps | split | intro _)

theorem execKeepAlive_keeps {M : Nat} {s0 : State} (tag : Nat) {s : State} (hk : Keeps M s0 s) (hM : Sub 4194465 M := by exact ‹Sub _ M›.of rfl) :
    OutKeeps M s0 (execKeepAlive tag s) := by
  unfold execKeepAlive
  try dsimp only
  repeat' (with_reducible first | assumption | exact hM.of rfl | apply Keeps.refl | apply outKeeps_ite | apply keeps_ite | apply OutKeeps.next | apply adminRow_keeps | apply completeOk_keeps | split | intro _)

theorem addNs_keeps {M : Nat} {s0 : State} (tag nsid : Nat) (n : Ns) {s : State} (hk : Keeps M s0 s) (hM : Sub 4325537 M := by exact ‹Sub _ M›.of rfl) :
    Keeps M s0 (addNs tag nsid n s) := by
  unfold addNs
  try dsimp only
  repeat' (with_reducible first | assumption | exact hM.of rfl | apply Keeps.refl | apply keeps_ite | apply completeDw_keeps | split | apply Keeps.upd_nv_keys)

theorem createOwn_keeps {M : Nat} {s0 : State} (x : Cmd) (c : Ctrl) (a : NsCreate) {s : State} (hk : Keeps M s0 s) (hM : Sub 37885091 M := by exact ‹Sub _ M›.of rfl) :
    Keeps M s0 (createOwn x c a s) := by
  unfold createOwn
  try dsimp only
  repeat' (with_reducible first | assumption | exact hM.of rfl | apply Keeps.refl | apply keeps_ite | apply addNs_keeps | apply complete_keeps | apply forEach_keeps | apply invalidField_keeps | apply quotaExceeded_keeps | apply zeroGranule_keeps | apply forEach_keeps | split | apply Keeps.upd_ten | intro _)

theorem execNamespaceCreate_keeps {M : Nat} {s0 : State} (tag : Nat) (a : NsCreate) {s : State} (hk : Keeps M s0 s) (hM : Sub 37885091 M := by exact ‹Sub _ M›.of rfl) :
    OutKeeps M s0 (execNamespaceCreate tag a s) := by
  unfold execNamespaceCreate
  try dsimp only
  repeat' (with_reducible first | assumption | exact hM.of rfl | apply Keeps.refl | apply outKeeps_ite | apply keeps_ite | apply OutKeeps.next | apply addNs_keeps | apply complete_keeps | apply createOwn_keeps | apply invalidField_keeps | apply pcieRow_keeps | apply unlessSanitize_keeps | split | intro _)

theorem quitNs_keeps {M : Nat} {s0 : State} (tag nsid sc : Nat) {s : State} (hk : Keeps M s0 s) (hM : Sub 39099303 M := by exact ‹Sub _ M›.of rfl) :
    Keeps M s0 (quitNs tag nsid sc s) := by
  unfold quitNs
  try dsimp only
  repeat' (with_reducible first | assumption | exact hM.of rfl | apply Keeps.refl | apply keeps_ite | apply abortWith_keeps | apply dropPages_keeps | apply forEach_keeps | apply scanAbortNs_keeps | apply unmapNs_keeps | apply forEach_keeps | split | intro _)

theorem deleteNvm_keeps {M : Nat} {s0 : State} (tag nsid : Nat) (n : Ns) {s : State} (hk : Keeps M s0 s) (hM : Sub 39230375 M := by exact ‹Sub _ M›.of rfl) :
    Keeps M s0 (deleteNvm tag nsid n s) := by
  unfold deleteNvm
  try dsimp only
  repeat' (with_reducible first | assumption | exact hM.of rfl | apply Keeps.refl | apply keeps_ite | apply cryptoErase_keeps | apply deallocNs_keeps | apply nsChanged_keeps | apply queueDiscard_keeps | apply quitNs_keeps | split | apply Keeps.upd_nv_keys)

theorem deleteOwn_keeps {M : Nat} {s0 : State} (nsid : Nat) (n : Ns) {s : State} (hk : Keeps M s0 s) (hM : Sub 39648935 M := by exact ‹Sub _ M›.of rfl) :
    Keeps M s0 (deleteOwn nsid n s) := by
  unfold deleteOwn
  try dsimp only
  repeat' (with_reducible first | assumption | exact hM.of rfl | apply Keeps.refl | apply keeps_ite | apply abandonExecs_keeps | apply forEach_keeps | apply nsChanged_keeps | apply zeroGranule_keeps | apply forEach_keeps | split | apply Keeps.upd_nv_ten_prog | intro _)

theorem execNamespaceDelete_keeps {M : Nat} {s0 : State} (tag : Nat) {s : State} (hk : Keeps M s0 s) (hM : Sub 39780263 M := by exact ‹Sub _ M›.of rfl) :
    OutKeeps M s0 (execNamespaceDelete tag s) := by
  unfold execNamespaceDelete
  try dsimp only
  repeat' (with_reducible first | assumption | exact hM.of rfl | apply Keeps.refl | apply outKeeps_ite | apply keeps_ite | apply OutKeeps.next | apply complete_keeps | apply completeOk_keeps | apply deleteNvm_keeps | apply deleteOwn_keeps | apply forEach_keeps | apply inUse_keeps | apply invalidField_keeps | apply pcieRow_keeps | apply unlessSanitize_keeps | apply forEach_keeps | split | intro _)

theorem attachRow_keeps {M : Nat} {s0 : State} (tag : Nat) (run : Nat → Ns → State → State) {s : State} (hk : Keeps M s0 s) (hrun : ∀ x0 x1 t, Keeps M t (run x0 x1 t)) (hM : Sub 4194465 M := by exact ‹Sub _ M›.of rfl) :
    OutKeeps M s0 (attachRow tag run s) := by
  unfold attachRow
  try dsimp only
  repeat' (with_reducible first | assumption | exact hM.of rfl | apply Keeps.refl | apply outKeeps_ite | apply keeps_ite | apply OutKeeps.next | apply complete_keeps | apply invalidField_keeps | apply pcieRow_keeps | apply unlessSanitize_keeps | refine Keeps.trans ?_ (hrun _ _ _) | split | intro _)

theorem execNamespaceAttach_keeps {M : Nat} {s0 : State} (tag : Nat) (ctrls : List Nat) {s : State} (hk : Keeps M s0 s) (hM : Sub 4194465 M := by exact ‹Sub _ M›.of rfl) :
    OutKeeps M s0 (execNamespaceAttach tag ctrls s) := by
  unfold execNamespaceAttach
  try dsimp only
  repeat' (with_reducible first | assumption | exact hM.of rfl | apply Keeps.refl | apply outKeeps_ite | apply keeps_ite | apply OutKeeps.next | apply attachRow_keeps | apply complete_keeps | apply completeOk_keeps | apply nsChanged_keeps | split | apply Keeps.upd_nv | intro _)

theorem execNamespaceDetach_keeps {M : Nat} {s0 : State} (tag : Nat) (ctrls : List Nat) {s : State} (hk : Keeps M s0 s) (hM : Sub 4194465 M := by exact ‹Sub _ M›.of rfl) :
    OutKeeps M s0 (execNamespaceDetach tag ctrls s) := by
  unfold execNamespaceDetach
  try dsimp only
  repeat' (with_reducible first | assumption | exact hM.of rfl | apply Keeps.refl | apply outKeeps_ite | apply keeps_ite | apply OutKeeps.next | apply attachRow_keeps | apply complete_keeps | apply completeOk_keeps | apply nsChanged_keeps | split | apply Keeps.upd_nv | intro _)

theorem formatNs_keeps {M : Nat} {s0 : State} (tag idx dps ses : Nat) (ext : Bool) (nsid : Nat) (n : Ns) {s : State} (hk : Keeps M s0 s) (hM : Sub 39230375 M := by exact ‹Sub _ M›.of rfl) :
    Keeps M s0 (formatNs tag idx dps ses ext nsid n s) := by
  unfold formatNs
  try dsimp only
  repeat' (with_reducible first | assumption | exact hM.of rfl | apply Keeps.refl | apply keeps_ite | apply cryptoErase_keeps | apply deallocNs_keeps | apply nsChanged_keeps | apply queueDiscard_keeps | apply quitNs_keeps | split | apply Keeps.upd_nv)

theorem execFormatNvm_keeps {M : Nat} {s0 : State} (tag idx ses pi : Nat) (ext : Bool) {s : State} (hk : Keeps M s0 s) (hM : Sub 39230375 M := by exact ‹Sub _ M›.of rfl) :
    OutKeeps M s0 (execFormatNvm tag idx ses pi ext s) := by
  unfold execFormatNvm
  try dsimp only
  repeat' (with_reducible first | assumption | exact hM.of rfl | apply Keeps.refl | apply outKeeps_ite | apply keeps_ite | apply OutKeeps.next | apply complete_keeps | apply completeOk_keeps | apply forEach_keeps | apply formatNs_keeps | apply invalidField_keeps | apply pcieRow_keeps | apply unlessSanitize_keeps | apply forEach_keeps | split | intro _)

theorem sanitizeStart_keeps {M : Nat} {s0 : State} (tag : Nat) (crypto : Bool) {s : State} (hk : Keeps M s0 s) (hM : Sub 39754727 M := by exact ‹Sub _ M›.of rfl) :
    Keeps M s0 (sanitizeStart tag crypto s) := by
  unfold sanitizeStart
  try dsimp only
  repeat' (with_reducible first | assumption | exact hM.of rfl | apply Keeps.refl | apply keeps_ite | apply abortWith_keeps | apply clusStop_keeps | apply cryptoErase_keeps | apply endExecs_keeps | apply goMode_keeps | apply scanAbortNs_keeps | apply stopExec_keeps | apply unmapNs_keeps | apply forN_keeps | apply forEach_keeps | split | apply Keeps.upd_nv | apply Keeps.upd_pow_nv_prog | intro _)

theorem execSanitize_keeps {M : Nat} {s0 : State} (tag act : Nat) (ndas : Bool) {s : State} (hk : Keeps M s0 s) (hM : Sub 39754727 M := by exact ‹Sub _ M›.of rfl) :
    OutKeeps M s0 (execSanitize tag act ndas s) := by
  unfold execSanitize
  try dsimp only
  repeat' (with_reducible first | assumption | exact hM.of rfl | apply Keeps.refl | apply outKeeps_ite | apply keeps_ite | apply OutKeeps.next | apply complete_keeps | apply completeOk_keeps | apply invalidField_keeps | apply pcieRow_keeps | apply sanitizeStart_keeps | apply unlessSanitize_keeps | split | intro _)

theorem quietChan_keeps {M : Nat} {s0 : State} (n : Nat) {s : State} (hk : Keeps M s0 s) (hM : Sub 513 M := by exact ‹Sub _ M›.of rfl) :
    Keeps M s0 (quietChan n s) := by
  unfold quietChan
  try dsimp only
  repeat' (with_reducible first | assumption | exact hM.of rfl | apply Keeps.refl | apply keeps_ite | apply setChan_keeps | split | intro _)

theorem eraseEverything_keeps {M : Nat} {s0 : State} {s : State} (hk : Keeps M s0 s) (hM : Sub 4195297 M := by exact ‹Sub _ M›.of rfl) :
    Keeps M s0 (eraseEverything s) := by
  unfold eraseEverything
  try dsimp only
  repeat' (with_reducible first | assumption | exact hM.of rfl | apply Keeps.refl | apply keeps_ite | apply checkWear_keeps | apply cntAdd_keeps | apply quietChan_keeps | apply forEach_keeps | split | apply Keeps.upd_ftl | intro _)

theorem eraseLost_keeps {M : Nat} {s0 : State} (c b : Nat) {s : State} (hk : Keeps M s0 s) (hM : Sub 4194785 M := by exact ‹Sub _ M›.of rfl) :
    Keeps M s0 (eraseLost c b s) := by
  unfold eraseLost
  try dsimp only
  repeat' (with_reducible first | assumption | exact hM.of rfl | apply Keeps.refl | apply keeps_ite | apply raiseEvent_keeps | apply retireBlock_keeps | apply updBlk_keeps | split | apply Keeps.upd_ftl | intro _)

theorem execSanitizeComplete_keeps {M : Nat} {s0 : State} (bad : Bool) (failed : List (Nat × Nat)) {s : State} (hk : Keeps M s0 s) (hM : Sub 23012321 M := by exact ‹Sub _ M›.of rfl) :
    OutKeeps M s0 (execSanitizeComplete bad failed s) := by
  unfold execSanitizeComplete
  try dsimp only
  repeat' (with_reducible first | assumption | exact hM.of rfl | apply Keeps.refl | apply outKeeps_ite | apply keeps_ite | apply OutKeeps.next | apply applyPowerState_keeps | apply clusStart_keeps | apply discardImage_keeps | apply eraseEverything_keeps | apply eraseLost_keeps | apply goMode_keeps | apply goReadOnly_keeps | apply raiseAen_keeps | apply recomputeFill_keeps | apply resetMap_keeps | apply forN_keeps | apply forEach_keeps | split | apply Keeps.upd_pow_nv | intro _)

theorem execDeviceSelfTest_keeps {M : Nat} {s0 : State} (tag code : Nat) {s : State} (hk : Keeps M s0 s) (hM : Sub 4194465 M := by exact ‹Sub _ M›.of rfl) :
    OutKeeps M s0 (execDeviceSelfTest tag code s) := by
  unfold execDeviceSelfTest
  try dsimp only
  repeat' (with_reducible first | assumption | exact hM.of rfl | apply Keeps.refl | apply outKeeps_ite | apply keeps_ite | apply OutKeeps.next | apply complete_keeps | apply completeOk_keeps | apply invalidField_keeps | apply pcieRow_keeps | apply unlessSanitize_keeps | apply updCtrl_keeps | split | intro _)

theorem secondaryRow_keeps {M : Nat} {s0 : State} (tag cntlid : Nat) (run : Nat → Ctrl → State → State) {s : State} (hk : Keeps M s0 s) (hrun : ∀ x0 x1 t, Keeps M t (run x0 x1 t)) (hM : Sub 4194465 M := by exact ‹Sub _ M›.of rfl) :
    OutKeeps M s0 (secondaryRow tag cntlid run s) := by
  unfold secondaryRow
  try dsimp only
  repeat' (with_reducible first | assumption | exact hM.of rfl | apply Keeps.refl | apply outKeeps_ite | apply keeps_ite | apply OutKeeps.next | apply complete_keeps | apply invalidField_keeps | apply pcieRow_keeps | refine Keeps.trans ?_ (hrun _ _ _) | split | intro _)

theorem execSecondaryControllerOffline_keeps {M : Nat} {s0 : State} (tag cntlid : Nat) {s : State} (hk : Keeps M s0 s) (hM : Sub 4194465 M := by exact ‹Sub _ M›.of rfl) :
    OutKeeps M s0 (execSecondaryControllerOffline tag cntlid s) := by
  unfold execSecondaryControllerOffline
  try dsimp only
  repeat' (with_reducible first | assumption | exact hM.of rfl | apply Keeps.refl | apply outKeeps_ite | apply keeps_ite | apply OutKeeps.next | apply complete_keeps | apply completeOk_keeps | apply secondaryRow_keeps | split | apply Keeps.upd_nv | intro _)

theorem execSecondaryControllerOnline_keeps {M : Nat} {s0 : State} (tag cntlid : Nat) {s : State} (hk : Keeps M s0 s) (hM : Sub 4194465 M := by exact ‹Sub _ M›.of rfl) :
    OutKeeps M s0 (execSecondaryControllerOnline tag cntlid s) := by
  unfold execSecondaryControllerOnline
  try dsimp only
  repeat' (with_reducible first | assumption | exact hM.of rfl | apply Keeps.refl | apply outKeeps_ite | apply keeps_ite | apply OutKeeps.next | apply completeOk_keeps | apply secondaryRow_keeps | split | apply Keeps.upd_nv | intro _)

end Sys2Proof.Machine
end

