-- ==== Sys2Proof/Laws/KeepHostIdent.lean ====
section
/-! SUPPORT. Every operation of Machine/HostIdent.lean leaves what `Keeps` says. -/

set_option Elab.async false

namespace Sys2Proof.Machine

theorem identify_keeps {M : Nat} {s0 : State} (cns cntid csi : Nat) (x : Cmd) (c : Ctrl) {s : State} (hk : Keeps M s0 s) (hM : Sub 4194469 M := by exact ‹Sub _ M›.of rfl) :
    Keeps M s0 (identify cns cntid csi x c s) := by
  unfold identify
  try dsimp only
  repeat' (with_reducible first | assumption | exact hM.of rfl | apply Keeps.refl | apply keeps_ite | apply complete_keeps | apply completeData_keeps | apply invalidField_keeps | split | apply Keeps.updFree)

theorem execIdentify_keeps {M : Nat} {s0 : State} (tag cns cntid csi : Nat) {s : State} (hk : Keeps M s0 s) (hM : Sub 4194469 M := by exact ‹Sub _ M›.of rfl) :
    OutKeeps M s0 (execIdentify tag cns cntid csi s) := by
  unfold execIdentify
  try dsimp only
  repeat' (with_reducible first | assumption | exact hM.of rfl | apply Keeps.refl | apply outKeeps_ite | apply keeps_ite | apply OutKeeps.next | apply adminRow_keeps | apply identify_keeps | split | intro _)

end Sys2Proof.Machine
end

