-- ==== Sys2Proof/Laws/KeepFwRows.lean ====
section
/-! SUPPORT. Every operation of Machine/FwRows.lean leaves what `Keeps` says. -/

set_option Elab.async false

namespace Sys2Proof.Machine

theorem writeImage_keeps {M : Nat} {s0 : State} (k : Nat) (i : FwImage) {s : State} (hk : Keeps M s0 s) (hM : Sub 4194304 M := by exact ‹Sub _ M›.of rfl) :
    Keeps M s0 (writeImage k i s) := by
  unfold writeImage
  try dsimp only
  repeat' (with_reducible first | assumption | exact hM.of rfl | apply Keeps.refl | apply keeps_ite | apply setFw_keeps)

theorem markNext_keeps {M : Nat} {s0 : State} (k c : Nat) {s : State} (hk : Keeps M s0 s) (hM : Sub 4194304 M := by exact ‹Sub _ M›.of rfl) :
    Keeps M s0 (markNext k c s) := by
  unfold markNext
  try dsimp only
  repeat' (with_reducible first | assumption | exact hM.of rfl | apply Keeps.refl | apply keeps_ite | apply setFw_keeps)

theorem startActivation_keeps {M : Nat} {s0 : State} (slots : SMap Nat) (tag : Option Nat) (src : Nat) {s : State} (hk : Keeps M s0 s) (hM : Sub 4194465 M := by exact ‹Sub _ M›.of rfl) :
    Keeps M s0 (startActivation slots tag src s) := by
  unfold startActivation
  try dsimp only
  repeat' (with_reducible first | assumption | exact hM.of rfl | apply Keeps.refl | apply keeps_ite | apply setMgt_keeps | apply setUpd_keeps | apply updNext_keeps)

theorem execFirmwareDownload_keeps {M : Nat} {s0 : State} (tag off dwords : Nat) {s : State} (hk : Keeps M s0 s) (hM : Sub 4194465 M := by exact ‹Sub _ M›.of rfl) :
    OutKeeps M s0 (execFirmwareDownload tag off dwords s) := by
  unfold execFirmwareDownload
  try dsimp only
  repeat' (with_reducible first | assumption | exact hM.of rfl | apply Keeps.refl | apply outKeeps_ite | apply keeps_ite | apply OutKeeps.next | apply complete_keeps | apply completeOk_keeps | apply invalidField_keeps | apply pcieRow_keeps | apply setMgt_keeps | apply setUpd_keeps | apply unlessSanitize_keeps | split | intro _)

theorem firmwareCommit_keeps {M : Nat} {s0 : State} (tag fs ca : Nat) (images : List FwImage) {s : State} (hk : Keeps M s0 s) (hM : Sub 4194465 M := by exact ‹Sub _ M›.of rfl) :
    Keeps M s0 (firmwareCommit tag fs ca images s) := by
  unfold firmwareCommit
  try dsimp only
  repeat' (with_reducible first | assumption | exact hM.of rfl | apply Keeps.refl | apply keeps_ite | apply complete_keeps | apply completeOk_keeps | apply forEach_keeps | apply invalidField_keeps | apply markNext_keeps | apply setMgt_keeps | apply setUpd_keeps | apply startActivation_keeps | apply updEnd_keeps | apply writeImage_keeps | apply forEach_keeps | split | intro _)

theorem execFirmwareCommit_keeps {M : Nat} {s0 : State} (tag fs ca : Nat) (images : List FwImage) {s : State} (hk : Keeps M s0 s) (hM : Sub 4194465 M := by exact ‹Sub _ M›.of rfl) :
    OutKeeps M s0 (execFirmwareCommit tag fs ca images s) := by
  unfold execFirmwareCommit
  try dsimp only
  repeat' (with_reducible first | assumption | exact hM.of rfl | apply Keeps.refl | apply outKeeps_ite | apply keeps_ite | apply OutKeeps.next | apply firmwareCommit_keeps | apply pcieRow_keeps | split | intro _)

theorem abandonUpdate_keeps {M : Nat} {s0 : State} {s : State} (hk : Keeps M s0 s) (hM : Sub 4194465 M := by exact ‹Sub _ M›.of rfl) :
    Keeps M s0 (abandonUpdate s) := by
  unfold abandonUpdate
  try dsimp only
  repeat' (with_reducible first | assumption | exact hM.of rfl | apply Keeps.refl | apply keeps_ite | apply updEnd_keeps)

theorem dropCommitTag_keeps {M : Nat} {s0 : State} {s : State} (hk : Keeps M s0 s) (hM : Sub 4194304 M := by exact ‹Sub _ M›.of rfl) :
    Keeps M s0 (dropCommitTag s) := by
  unfold dropCommitTag
  try dsimp only
  repeat' (with_reducible first | assumption | exact hM.of rfl | apply Keeps.refl | apply keeps_ite | apply setMgt_keeps | split)

theorem lateReset_keeps {M : Nat} {s0 : State} (r : LateReset) {s : State} (hk : Keeps M s0 s) (hM : Sub 67108855 M := by exact ‹Sub _ M›.of rfl) :
    Keeps M s0 (lateReset r s) := by
  unfold lateReset
  try dsimp only
  repeat' (with_reducible first | assumption | exact hM.of rfl | apply Keeps.refl | apply keeps_ite | apply abandonUpdate_keeps | apply dropCommitTag_keeps | apply resumeReset_keeps | split | intro _)

theorem runLate_keeps {M : Nat} {s0 : State} (before s : State) (hk : Keeps M s0 s) (hM : Sub 67108855 M := by exact ‹Sub _ M›.of rfl) :
    Keeps M s0 (runLate before s) := by
  unfold runLate
  try dsimp only
  repeat' (with_reducible first | assumption | exact hM.of rfl | apply Keeps.refl | apply keeps_ite | apply forEach_keeps | apply lateReset_keeps | apply setMgt_keeps | apply forEach_keeps | split | intro _)

theorem unitEnds_keeps {M : Nat} {s0 : State} (c unit : Nat) (ok : Bool) {s : State} (hk : Keeps M s0 s) (hM : Sub 67108855 M := by exact ‹Sub _ M›.of rfl) :
    Keeps M s0 (unitEnds c unit ok s) := by
  unfold unitEnds
  try dsimp only
  repeat' (with_reducible first | assumption | exact hM.of rfl | apply Keeps.refl | apply keeps_ite | apply runLate_keeps | apply unitActivated_keeps)

theorem twoStep_keeps {M : Nat} {s0 : State} (c : Nat) (ended : Option Bool) (start : State → State) (stop : Bool → State → State) {s : State} (hk : Keeps M s0 s) (hstart : ∀ t, Keeps M t (start t)) (hstop : ∀ x0 t, Keeps M t (stop x0 t)) (hM : Sub 67108855 M := by exact ‹Sub _ M›.of rfl) :
    OutKeeps M s0 (twoStep c ended start stop s) := by
  unfold twoStep
  try dsimp only
  repeat' (with_reducible first | assumption | exact hM.of rfl | apply Keeps.refl | apply outKeeps_ite | apply keeps_ite | apply OutKeeps.next | apply setMgt_keeps | apply unitEnds_keeps | refine Keeps.trans ?_ (hstart _) | refine Keeps.trans ?_ (hstop _ _) | split)

theorem spareTakes_keeps {M : Nat} {s0 : State} {s : State} (hk : Keeps M s0 s) (hM : Sub 262145 M := by exact ‹Sub _ M›.of rfl) :
    Keeps M s0 (spareTakes s) := by
  unfold spareTakes
  try dsimp only
  repeat' (with_reducible first | assumption | exact hM.of rfl | apply Keeps.refl | apply keeps_ite | apply setLetter_keeps | apply showSch_keeps | apply updSch_keeps | apply forN_keeps | split | intro _)

theorem execControlFirmwareHandover_keeps {M : Nat} {s0 : State} (ended : Option Bool) {s : State} (hk : Keeps M s0 s) (hM : Sub 67108855 M := by exact ‹Sub _ M›.of rfl) :
    OutKeeps M s0 (execControlFirmwareHandover ended s) := by
  unfold execControlFirmwareHandover
  try dsimp only
  repeat' (with_reducible first | assumption | exact hM.of rfl | apply Keeps.refl | apply outKeeps_ite | apply keeps_ite | apply OutKeeps.next | apply fset_keeps | apply spareTakes_keeps | apply twoStep_keeps | split | intro _)

theorem execManagementFirmwareSwitch_keeps {M : Nat} {s0 : State} (ended : Option Bool) {s : State} (hk : Keeps M s0 s) (hM : Sub 67108855 M := by exact ‹Sub _ M›.of rfl) :
    OutKeeps M s0 (execManagementFirmwareSwitch ended s) := by
  unfold execManagementFirmwareSwitch
  try dsimp only
  repeat' (with_reducible first | assumption | exact hM.of rfl | apply Keeps.refl | apply outKeeps_ite | apply keeps_ite | apply OutKeeps.next | apply coreReset_keeps | apply setPaused_keeps | apply twoStep_keeps | split | intro _)

theorem execNetworkFirmwareSwitch_keeps {M : Nat} {s0 : State} (ended : Option Bool) {s : State} (hk : Keeps M s0 s) (hM : Sub 67108855 M := by exact ‹Sub _ M›.of rfl) :
    OutKeeps M s0 (execNetworkFirmwareSwitch ended s) := by
  unfold execNetworkFirmwareSwitch
  try dsimp only
  repeat' (with_reducible first | assumption | exact hM.of rfl | apply Keeps.refl | apply outKeeps_ite | apply keeps_ite | apply OutKeeps.next | apply twoStep_keeps | apply updNet_keeps | split | intro _)

theorem execMicrocodeSwitch_keeps {M : Nat} {s0 : State} (chan version : Nat) (ok : Bool) {s : State} (hk : Keeps M s0 s) (hM : Sub 67108855 M := by exact ‹Sub _ M›.of rfl) :
    OutKeeps M s0 (execMicrocodeSwitch chan version ok s) := by
  unfold execMicrocodeSwitch
  try dsimp only
  repeat' (with_reducible first | assumption | exact hM.of rfl | apply Keeps.refl | apply outKeeps_ite | apply keeps_ite | apply OutKeeps.next | apply microcodeSwitch_keeps | apply runLate_keeps | split | intro _)

theorem execRuntimeUpdateGraceExpiry_keeps {M : Nat} {s0 : State} (n version : Nat) (startOk selfTest : Bool) {s : State} (hk : Keeps M s0 s) (hM : Sub 67108855 M := by exact ‹Sub _ M›.of rfl) :
    OutKeeps M s0 (execRuntimeUpdateGraceExpiry n version startOk selfTest s) := by
  unfold execRuntimeUpdateGraceExpiry
  try dsimp only
  repeat' (with_reducible first | assumption | exact hM.of rfl | apply Keeps.refl | apply outKeeps_ite | apply keeps_ite | apply OutKeeps.next | apply graceExpiry_keeps | apply runLate_keeps)

end Sys2Proof.Machine
end

