-- ==== Sys2Proof/Laws/KeepMgtRows.lean ====
section
/-! SUPPORT. Every operation of Machine/MgtRows.lean leaves what `Keeps` says. -/

set_option Elab.async false

namespace Sys2Proof.Machine

theorem execSensorRead_keeps {M : Nat} {s0 : State} (i t16 : Nat) {s : State} (hk : Keeps M s0 s) (hM : Sub 4194465 M := by exact ‹Sub _ M›.of rfl) :
    OutKeeps M s0 (execSensorRead i t16 s) := by
  unfold execSensorRead
  try dsimp only
  repeat' (with_reducible first | assumption | exact hM.of rfl | apply Keeps.refl | apply outKeeps_ite | apply keeps_ite | apply OutKeeps.next | apply sensorReads_keeps | split | intro _)

theorem setLevel_keeps {M : Nat} {s0 : State} (new sensor : Nat) {s : State} (hk : Keeps M s0 s) (hM : Sub 67108855 M := by exact ‹Sub _ M›.of rfl) :
    Keeps M s0 (setLevel new sensor s) := by
  unfold setLevel
  try dsimp only
  repeat' (with_reducible first | assumption | exact hM.of rfl | apply Keeps.refl | apply keeps_ite | apply applyPowerState_keeps | apply fset_keeps | apply postmark_keeps | apply setMgt_keeps | apply wakeBy_keeps)

theorem execThermalEvaluation_keeps {M : Nat} {s0 : State} (cool : Bool) {s : State} (hk : Keeps M s0 s) (hM : Sub 67108855 M := by exact ‹Sub _ M›.of rfl) :
    OutKeeps M s0 (execThermalEvaluation cool s) := by
  unfold execThermalEvaluation
  try dsimp only
  repeat' (with_reducible first | assumption | exact hM.of rfl | apply Keeps.refl | apply outKeeps_ite | apply keeps_ite | apply OutKeeps.next | apply fset_keeps | apply judgeTemp_keeps | apply setLevel_keeps | apply setMgt_keeps | apply useFree_keeps | split | intro _)

theorem lowerLimit_keeps {M : Nat} {s0 : State} {s : State} (hk : Keeps M s0 s) (hM : Sub 4194305 M := by exact ‹Sub _ M›.of rfl) :
    Keeps M s0 (lowerLimit s) := by
  unfold lowerLimit
  try dsimp only
  repeat' (with_reducible first | assumption | exact hM.of rfl | apply Keeps.refl | apply keeps_ite | apply forEach_keeps | apply fset_keeps | apply setMgt_keeps | apply forEach_keeps | split | intro _)

theorem raiseLimit_keeps {M : Nat} {s0 : State} {s : State} (hk : Keeps M s0 s) (hM : Sub 4194305 M := by exact ‹Sub _ M›.of rfl) :
    Keeps M s0 (raiseLimit s) := by
  unfold raiseLimit
  try dsimp only
  repeat' (with_reducible first | assumption | exact hM.of rfl | apply Keeps.refl | apply keeps_ite | apply forEach_keeps | apply fset_keeps | apply setMgt_keeps | apply forEach_keeps | split | intro _)

theorem execCapControl_keeps {M : Nat} {s0 : State} {s : State} (hk : Keeps M s0 s) (hM : Sub 4194309 M := by exact ‹Sub _ M›.of rfl) :
    OutKeeps M s0 (execCapControl s) := by
  unfold execCapControl
  try dsimp only
  repeat' (with_reducible first | assumption | exact hM.of rfl | apply Keeps.refl | apply outKeeps_ite | apply keeps_ite | apply OutKeeps.next | apply lowerLimit_keeps | apply raiseLimit_keeps | apply useFree_keeps | split | intro _)

theorem cccRow_keeps {M : Nat} {s0 : State} (addr : Option Nat) (run : State → State) {s : State} (hk : Keeps M s0 s) (hrun : ∀ t, Keeps M t (run t)) (hM : Sub 0 M := by exact ‹Sub _ M›.of rfl) :
    OutKeeps M s0 (cccRow addr run s) := by
  unfold cccRow
  try dsimp only
  repeat' (with_reducible first | assumption | exact hM.of rfl | apply Keeps.refl | apply outKeeps_ite | apply keeps_ite | apply OutKeeps.next | refine Keeps.trans ?_ (hrun _))

theorem cccAnswer_keeps {M : Nat} {s0 : State} (bs : List Byte) {s : State} (hk : Keeps M s0 s) (hM : Sub 4194304 M := by exact ‹Sub _ M›.of rfl) :
    Keeps M s0 (cccAnswer bs s) := by
  unfold cccAnswer
  try dsimp only
  repeat' (with_reducible first | assumption | exact hM.of rfl | apply Keeps.refl | apply keeps_ite | apply setMgt_keeps)

theorem setDa_keeps {M : Nat} {s0 : State} (a : Nat) {s : State} (hk : Keeps M s0 s) (hM : Sub 4194305 M := by exact ‹Sub _ M›.of rfl) :
    Keeps M s0 (setDa a s) := by
  unfold setDa
  try dsimp only
  repeat' (with_reducible first | assumption | exact hM.of rfl | apply Keeps.refl | apply keeps_ite | apply fset_keeps | apply setMgt_keeps)

theorem setEvents_keeps {M : Nat} {s0 : State} (events v : Nat) {s : State} (hk : Keeps M s0 s) (hM : Sub 1 M := by exact ‹Sub _ M›.of rfl) :
    Keeps M s0 (setEvents events v s) := by
  unfold setEvents
  try dsimp only
  repeat' (with_reducible first | assumption | exact hM.of rfl | apply Keeps.refl | apply keeps_ite | apply fset_keeps)

theorem execEnec_keeps {M : Nat} {s0 : State} (addr : Option Nat) (events : Nat) {s : State} (hk : Keeps M s0 s) (hM : Sub 4194305 M := by exact ‹Sub _ M›.of rfl) :
    OutKeeps M s0 (execEnec addr events s) := by
  unfold execEnec
  try dsimp only
  repeat' (with_reducible first | assumption | exact hM.of rfl | apply Keeps.refl | apply outKeeps_ite | apply keeps_ite | apply OutKeeps.next | apply cccRow_keeps | apply raiseIbi_keeps | apply setEvents_keeps | split | intro _)

theorem execDisec_keeps {M : Nat} {s0 : State} (addr : Option Nat) (events : Nat) {s : State} (hk : Keeps M s0 s) (hM : Sub 1 M := by exact ‹Sub _ M›.of rfl) :
    OutKeeps M s0 (execDisec addr events s) := by
  unfold execDisec
  try dsimp only
  repeat' (with_reducible first | assumption | exact hM.of rfl | apply Keeps.refl | apply outKeeps_ite | apply keeps_ite | apply OutKeeps.next | apply cccRow_keeps | apply setEvents_keeps | split | intro _)

theorem execRstdaa_keeps {M : Nat} {s0 : State} {s : State} (hk : Keeps M s0 s) (hM : Sub 1 M := by exact ‹Sub _ M›.of rfl) :
    OutKeeps M s0 (execRstdaa s) := by
  unfold execRstdaa
  try dsimp only
  repeat' (with_reducible first | assumption | exact hM.of rfl | apply Keeps.refl | apply outKeeps_ite | apply keeps_ite | apply OutKeeps.next | apply cccRow_keeps | apply fset_keeps | split | intro _)

theorem execEntdaa_keeps {M : Nat} {s0 : State} (a : Nat) {s : State} (hk : Keeps M s0 s) (hM : Sub 4194305 M := by exact ‹Sub _ M›.of rfl) :
    OutKeeps M s0 (execEntdaa a s) := by
  unfold execEntdaa
  try dsimp only
  repeat' (with_reducible first | assumption | exact hM.of rfl | apply Keeps.refl | apply outKeeps_ite | apply keeps_ite | apply OutKeeps.next | apply cccAnswer_keeps | apply cccRow_keeps | apply setDa_keeps | split | intro _)

theorem execSetdasa_keeps {M : Nat} {s0 : State} (static a : Nat) {s : State} (hk : Keeps M s0 s) (hM : Sub 4194305 M := by exact ‹Sub _ M›.of rfl) :
    OutKeeps M s0 (execSetdasa static a s) := by
  unfold execSetdasa
  try dsimp only
  repeat' (with_reducible first | assumption | exact hM.of rfl | apply Keeps.refl | apply outKeeps_ite | apply keeps_ite | apply OutKeeps.next | apply cccRow_keeps | apply setDa_keeps | split | intro _)

theorem execSetnewda_keeps {M : Nat} {s0 : State} (old a : Nat) {s : State} (hk : Keeps M s0 s) (hM : Sub 4194305 M := by exact ‹Sub _ M›.of rfl) :
    OutKeeps M s0 (execSetnewda old a s) := by
  unfold execSetnewda
  try dsimp only
  repeat' (with_reducible first | assumption | exact hM.of rfl | apply Keeps.refl | apply outKeeps_ite | apply keeps_ite | apply OutKeeps.next | apply cccRow_keeps | apply setDa_keeps | split | intro _)

theorem execSetmwl_keeps {M : Nat} {s0 : State} (addr : Option Nat) (n : Nat) {s : State} (hk : Keeps M s0 s) (hM : Sub 4194304 M := by exact ‹Sub _ M›.of rfl) :
    OutKeeps M s0 (execSetmwl addr n s) := by
  unfold execSetmwl
  try dsimp only
  repeat' (with_reducible first | assumption | exact hM.of rfl | apply Keeps.refl | apply outKeeps_ite | apply keeps_ite | apply OutKeeps.next | apply cccRow_keeps | apply setMgt_keeps | split | intro _)

theorem execSetmrl_keeps {M : Nat} {s0 : State} (addr : Option Nat) (n : Nat) {s : State} (hk : Keeps M s0 s) (hM : Sub 4194304 M := by exact ‹Sub _ M›.of rfl) :
    OutKeeps M s0 (execSetmrl addr n s) := by
  unfold execSetmrl
  try dsimp only
  repeat' (with_reducible first | assumption | exact hM.of rfl | apply Keeps.refl | apply outKeeps_ite | apply keeps_ite | apply OutKeeps.next | apply cccRow_keeps | apply setMgt_keeps | split | intro _)

theorem execGetmwl_keeps {M : Nat} {s0 : State} (addr : Nat) {s : State} (hk : Keeps M s0 s) (hM : Sub 4194304 M := by exact ‹Sub _ M›.of rfl) :
    OutKeeps M s0 (execGetmwl addr s) := by
  unfold execGetmwl
  try dsimp only
  repeat' (with_reducible first | assumption | exact hM.of rfl | apply Keeps.refl | apply outKeeps_ite | apply keeps_ite | apply OutKeeps.next | apply cccAnswer_keeps | apply cccRow_keeps | split | intro _)

theorem execGetmrl_keeps {M : Nat} {s0 : State} (addr : Nat) {s : State} (hk : Keeps M s0 s) (hM : Sub 4194308 M := by exact ‹Sub _ M›.of rfl) :
    OutKeeps M s0 (execGetmrl addr s) := by
  unfold execGetmrl
  try dsimp only
  repeat' (with_reducible first | assumption | exact hM.of rfl | apply Keeps.refl | apply outKeeps_ite | apply keeps_ite | apply OutKeeps.next | apply cccAnswer_keeps | apply cccRow_keeps | apply useFree_keeps | split | intro _)

theorem execGetpid_keeps {M : Nat} {s0 : State} (addr : Nat) {s : State} (hk : Keeps M s0 s) (hM : Sub 4194304 M := by exact ‹Sub _ M›.of rfl) :
    OutKeeps M s0 (execGetpid addr s) := by
  unfold execGetpid
  try dsimp only
  repeat' (with_reducible first | assumption | exact hM.of rfl | apply Keeps.refl | apply outKeeps_ite | apply keeps_ite | apply OutKeeps.next | apply cccAnswer_keeps | apply cccRow_keeps | split | intro _)

theorem execGetbcr_keeps {M : Nat} {s0 : State} (addr : Nat) {s : State} (hk : Keeps M s0 s) (hM : Sub 4194304 M := by exact ‹Sub _ M›.of rfl) :
    OutKeeps M s0 (execGetbcr addr s) := by
  unfold execGetbcr
  try dsimp only
  repeat' (with_reducible first | assumption | exact hM.of rfl | apply Keeps.refl | apply outKeeps_ite | apply keeps_ite | apply OutKeeps.next | apply cccAnswer_keeps | apply cccRow_keeps | split | intro _)

theorem execGetdcr_keeps {M : Nat} {s0 : State} (addr : Nat) {s : State} (hk : Keeps M s0 s) (hM : Sub 4194304 M := by exact ‹Sub _ M›.of rfl) :
    OutKeeps M s0 (execGetdcr addr s) := by
  unfold execGetdcr
  try dsimp only
  repeat' (with_reducible first | assumption | exact hM.of rfl | apply Keeps.refl | apply outKeeps_ite | apply keeps_ite | apply OutKeeps.next | apply cccAnswer_keeps | apply cccRow_keeps | split | intro _)

theorem execGetstatus_keeps {M : Nat} {s0 : State} (addr : Nat) {s : State} (hk : Keeps M s0 s) (hM : Sub 4194304 M := by exact ‹Sub _ M›.of rfl) :
    OutKeeps M s0 (execGetstatus addr s) := by
  unfold execGetstatus
  try dsimp only
  repeat' (with_reducible first | assumption | exact hM.of rfl | apply Keeps.refl | apply outKeeps_ite | apply keeps_ite | apply OutKeeps.next | apply cccAnswer_keeps | apply cccRow_keeps | split | intro _)

theorem execRstact_keeps {M : Nat} {s0 : State} (addr : Option Nat) (action : Nat) {s : State} (hk : Keeps M s0 s) (hM : Sub 4194304 M := by exact ‹Sub _ M›.of rfl) :
    OutKeeps M s0 (execRstact addr action s) := by
  unfold execRstact
  try dsimp only
  repeat' (with_reducible first | assumption | exact hM.of rfl | apply Keeps.refl | apply outKeeps_ite | apply keeps_ite | apply OutKeeps.next | apply cccRow_keeps | apply setMgt_keeps | split | intro _)

theorem execHotJoin_keeps {M : Nat} {s0 : State} {s : State} (hk : Keeps M s0 s) (hM : Sub 4194304 M := by exact ‹Sub _ M›.of rfl) :
    OutKeeps M s0 (execHotJoin s) := by
  unfold execHotJoin
  try dsimp only
  repeat' (with_reducible first | assumption | exact hM.of rfl | apply Keeps.refl | apply outKeeps_ite | apply keeps_ite | apply OutKeeps.next | apply setMgt_keeps)

theorem execIbiDeferExpiry_keeps {M : Nat} {s0 : State} {s : State} (hk : Keeps M s0 s) (hM : Sub 4194305 M := by exact ‹Sub _ M›.of rfl) :
    OutKeeps M s0 (execIbiDeferExpiry s) := by
  unfold execIbiDeferExpiry
  try dsimp only
  repeat' (with_reducible first | assumption | exact hM.of rfl | apply Keeps.refl | apply outKeeps_ite | apply keeps_ite | apply OutKeeps.next | apply sendIbi_keeps | apply setMgt_keeps)

theorem mctpRow_keeps {M : Nat} {s0 : State} (serve : State → List Byte × State) {s : State} (hk : Keeps M s0 s) (hserve : ∀ t, Keeps M t (serve t).2) (hM : Sub 67108855 M := by exact ‹Sub _ M›.of rfl) :
    OutKeeps M s0 (mctpRow serve s) := by
  unfold mctpRow
  try dsimp only
  repeat' (with_reducible first | assumption | exact hM.of rfl | apply Keeps.refl | apply outKeeps_ite | apply keeps_ite | apply OutKeeps.next | apply replyMctp_keeps | apply wakeBy_keeps | refine Keeps.trans ?_ (hserve _))

theorem execSetEndpointId_keeps {M : Nat} {s0 : State} (eid : Nat) {s : State} (hk : Keeps M s0 s) (hM : Sub 67108855 M := by exact ‹Sub _ M›.of rfl) :
    OutKeeps M s0 (execSetEndpointId eid s) := by
  unfold execSetEndpointId
  try dsimp only
  repeat' (with_reducible first | assumption | exact hM.of rfl | apply Keeps.refl | apply outKeeps_ite | apply keeps_ite | apply OutKeeps.next | apply fset_keeps | apply mctpRow_keeps | split | intro _)

theorem miServe_keeps {M : Nat} {s0 : State} (r : MiReq) {s : State} (hk : Keeps M s0 s) (hM : Sub 67108855 M := by exact ‹Sub _ M›.of rfl) :
    Keeps M s0 (miServe r s).2.2 := by
  unfold miServe
  try dsimp only
  repeat' (with_reducible first | assumption | exact hM.of rfl | apply Keeps.refl | apply keeps_ite | apply nvmSubsystemReset_keeps | apply requestKeep_keeps | apply requestModuleReset_keeps | apply requestStart_keeps | apply setMgt_keeps | split | apply Keeps.updFree)

theorem miServe_keeps_eq {M : Nat} {s0 : State} {r : MiReq} {s : State} {v0} {v1} {t' : State} (he : miServe r s = (v0, v1, t')) (hk : Keeps M s0 s) (hM : Sub 67108855 M := by exact ‹Sub _ M›.of rfl) :
    Keeps M s0 t' := by
  have g : Keeps M s0 (miServe r s).2.2 := by
    with_reducible apply miServe_keeps <;> assumption
  rw [he] at g
  exact g

theorem miRow_keeps {M : Nat} {s0 : State} (r : MiReq) {s : State} (hk : Keeps M s0 s) (hM : Sub 67108855 M := by exact ‹Sub _ M›.of rfl) :
    OutKeeps M s0 (miRow r s) := by
  unfold miRow
  try dsimp only
  repeat' (with_reducible first | assumption | exact hM.of rfl | apply Keeps.refl | apply outKeeps_ite | apply keeps_ite | apply OutKeeps.next | apply mctpRow_keeps | refine miServe_keeps_eq (by assumption) ?_ | apply miServe_keeps | split | intro _)

theorem execReadNvmeMiDataStructure_keeps {M : Nat} {s0 : State} (dtyp : Nat) {s : State} (hk : Keeps M s0 s) (hM : Sub 67108855 M := by exact ‹Sub _ M›.of rfl) :
    OutKeeps M s0 (execReadNvmeMiDataStructure dtyp s) := by
  unfold execReadNvmeMiDataStructure
  try dsimp only
  repeat' (with_reducible first | assumption | exact hM.of rfl | apply Keeps.refl | apply outKeeps_ite | apply keeps_ite | apply OutKeeps.next | apply miRow_keeps)

theorem execSubsystemHealthStatusPoll_keeps {M : Nat} {s0 : State} {s : State} (hk : Keeps M s0 s) (hM : Sub 67108855 M := by exact ‹Sub _ M›.of rfl) :
    OutKeeps M s0 (execSubsystemHealthStatusPoll s) := by
  unfold execSubsystemHealthStatusPoll
  try dsimp only
  repeat' (with_reducible first | assumption | exact hM.of rfl | apply Keeps.refl | apply outKeeps_ite | apply keeps_ite | apply OutKeeps.next | apply miRow_keeps)

theorem execControllerHealthStatusPoll_keeps {M : Nat} {s0 : State} (first : Nat) {s : State} (hk : Keeps M s0 s) (hM : Sub 67108855 M := by exact ‹Sub _ M›.of rfl) :
    OutKeeps M s0 (execControllerHealthStatusPoll first s) := by
  unfold execControllerHealthStatusPoll
  try dsimp only
  repeat' (with_reducible first | assumption | exact hM.of rfl | apply Keeps.refl | apply outKeeps_ite | apply keeps_ite | apply OutKeeps.next | apply miRow_keeps)

theorem execConfigurationSet_keeps {M : Nat} {s0 : State} (id v : Nat) {s : State} (hk : Keeps M s0 s) (hM : Sub 67108855 M := by exact ‹Sub _ M›.of rfl) :
    OutKeeps M s0 (execConfigurationSet id v s) := by
  unfold execConfigurationSet
  try dsimp only
  repeat' (with_reducible first | assumption | exact hM.of rfl | apply Keeps.refl | apply outKeeps_ite | apply keeps_ite | apply OutKeeps.next | apply miRow_keeps)

theorem execConfigurationGet_keeps {M : Nat} {s0 : State} (id : Nat) {s : State} (hk : Keeps M s0 s) (hM : Sub 67108855 M := by exact ‹Sub _ M›.of rfl) :
    OutKeeps M s0 (execConfigurationGet id s) := by
  unfold execConfigurationGet
  try dsimp only
  repeat' (with_reducible first | assumption | exact hM.of rfl | apply Keeps.refl | apply outKeeps_ite | apply keeps_ite | apply OutKeeps.next | apply miRow_keeps)

theorem execVpdRead_keeps {M : Nat} {s0 : State} (off len : Nat) {s : State} (hk : Keeps M s0 s) (hM : Sub 67108855 M := by exact ‹Sub _ M›.of rfl) :
    OutKeeps M s0 (execVpdRead off len s) := by
  unfold execVpdRead
  try dsimp only
  repeat' (with_reducible first | assumption | exact hM.of rfl | apply Keeps.refl | apply outKeeps_ite | apply keeps_ite | apply OutKeeps.next | apply miRow_keeps)

theorem execVpdWrite_keeps {M : Nat} {s0 : State} (off : Nat) (data : List Byte) {s : State} (hk : Keeps M s0 s) (hM : Sub 67108855 M := by exact ‹Sub _ M›.of rfl) :
    OutKeeps M s0 (execVpdWrite off data s) := by
  unfold execVpdWrite
  try dsimp only
  repeat' (with_reducible first | assumption | exact hM.of rfl | apply Keeps.refl | apply outKeeps_ite | apply keeps_ite | apply OutKeeps.next | apply miRow_keeps)

theorem execNvmeMiReset_keeps {M : Nat} {s0 : State} {s : State} (hk : Keeps M s0 s) (hM : Sub 67108855 M := by exact ‹Sub _ M›.of rfl) :
    OutKeeps M s0 (execNvmeMiReset s) := by
  unfold execNvmeMiReset
  try dsimp only
  repeat' (with_reducible first | assumption | exact hM.of rfl | apply Keeps.refl | apply outKeeps_ite | apply keeps_ite | apply OutKeeps.next | apply miRow_keeps)

theorem execMiModuleReset_keeps {M : Nat} {s0 : State} (key : Nat) {s : State} (hk : Keeps M s0 s) (hM : Sub 67108855 M := by exact ‹Sub _ M›.of rfl) :
    OutKeeps M s0 (execMiModuleReset key s) := by
  unfold execMiModuleReset
  try dsimp only
  repeat' (with_reducible first | assumption | exact hM.of rfl | apply Keeps.refl | apply outKeeps_ite | apply keeps_ite | apply OutKeeps.next | apply miRow_keeps)

theorem execMiWatchToRise_keeps {M : Nat} {s0 : State} (key : Nat) {s : State} (hk : Keeps M s0 s) (hM : Sub 67108855 M := by exact ‹Sub _ M›.of rfl) :
    OutKeeps M s0 (execMiWatchToRise key s) := by
  unfold execMiWatchToRise
  try dsimp only
  repeat' (with_reducible first | assumption | exact hM.of rfl | apply Keeps.refl | apply outKeeps_ite | apply keeps_ite | apply OutKeeps.next | apply miRow_keeps)

theorem execMiWatchToKeep_keeps {M : Nat} {s0 : State} (key : Nat) {s : State} (hk : Keeps M s0 s) (hM : Sub 67108855 M := by exact ‹Sub _ M›.of rfl) :
    OutKeeps M s0 (execMiWatchToKeep key s) := by
  unfold execMiWatchToKeep
  try dsimp only
  repeat' (with_reducible first | assumption | exact hM.of rfl | apply Keeps.refl | apply outKeeps_ite | apply keeps_ite | apply OutKeeps.next | apply miRow_keeps)

theorem execTunnelledAdminCommand_keeps {M : Nat} {s0 : State} (ctrl cid nsid : Nat) {s : State} (hk : Keeps M s0 s) (hM : Sub 67108855 M := by exact ‹Sub _ M›.of rfl) :
    OutKeeps M s0 (execTunnelledAdminCommand ctrl cid nsid s) := by
  unfold execTunnelledAdminCommand
  try dsimp only
  repeat' (with_reducible first | assumption | exact hM.of rfl | apply Keeps.refl | apply outKeeps_ite | apply keeps_ite | apply OutKeeps.next | apply enterCmd_keeps | apply replyMctp_keeps | apply setMgt_keeps | apply tagPause_keeps | apply wakeBy_keeps | split | intro _)

theorem execNvmeMiSend_keeps {M : Nat} {s0 : State} (tag : Nat) (r : MiReq) {s : State} (hk : Keeps M s0 s) (hM : Sub 67108855 M := by exact ‹Sub _ M›.of rfl) :
    OutKeeps M s0 (execNvmeMiSend tag r s) := by
  unfold execNvmeMiSend
  try dsimp only
  repeat' (with_reducible first | assumption | exact hM.of rfl | apply Keeps.refl | apply outKeeps_ite | apply keeps_ite | apply OutKeeps.next | apply adminRow_keeps | apply completeDw_keeps | apply invalidField_keeps | refine miServe_keeps_eq (by assumption) ?_ | apply miServe_keeps | split | intro _)

theorem execNvmeMiReceive_keeps {M : Nat} {s0 : State} (tag : Nat) (r : MiReq) {s : State} (hk : Keeps M s0 s) (hM : Sub 67108855 M := by exact ‹Sub _ M›.of rfl) :
    OutKeeps M s0 (execNvmeMiReceive tag r s) := by
  unfold execNvmeMiReceive
  try dsimp only
  repeat' (with_reducible first | assumption | exact hM.of rfl | apply Keeps.refl | apply outKeeps_ite | apply keeps_ite | apply OutKeeps.next | apply adminRow_keeps | apply complete_keeps | apply invalidField_keeps | refine miServe_keeps_eq (by assumption) ?_ | apply miServe_keeps | split | intro _)

theorem execSetNumericEffecterValue_keeps {M : Nat} {s0 : State} (w : Nat) {s : State} (hk : Keeps M s0 s) (hM : Sub 67108855 M := by exact ‹Sub _ M›.of rfl) :
    OutKeeps M s0 (execSetNumericEffecterValue w s) := by
  unfold execSetNumericEffecterValue
  try dsimp only
  repeat' (with_reducible first | assumption | exact hM.of rfl | apply Keeps.refl | apply outKeeps_ite | apply keeps_ite | apply OutKeeps.next | apply mctpRow_keeps | apply setMgmtCap_keeps | split | intro _)

theorem execGetSensorReading_keeps {M : Nat} {s0 : State} (i : Nat) {s : State} (hk : Keeps M s0 s) (hM : Sub 67108855 M := by exact ‹Sub _ M›.of rfl) :
    OutKeeps M s0 (execGetSensorReading i s) := by
  unfold execGetSensorReading
  try dsimp only
  repeat' (with_reducible first | assumption | exact hM.of rfl | apply Keeps.refl | apply outKeeps_ite | apply keeps_ite | apply OutKeeps.next | apply mctpRow_keeps | split)

theorem execRequestUpdate_keeps {M : Nat} {s0 : State} {s : State} (hk : Keeps M s0 s) (hM : Sub 67108855 M := by exact ‹Sub _ M›.of rfl) :
    OutKeeps M s0 (execRequestUpdate s) := by
  unfold execRequestUpdate
  try dsimp only
  repeat' (with_reducible first | assumption | exact hM.of rfl | apply Keeps.refl | apply outKeeps_ite | apply keeps_ite | apply OutKeeps.next | apply mctpRow_keeps | apply setMgt_keeps | apply setUpd_keeps | split | intro _)

theorem execUpdateComponent_keeps {M : Nat} {s0 : State} (i : FwImage) {s : State} (hk : Keeps M s0 s) (hM : Sub 67108855 M := by exact ‹Sub _ M›.of rfl) :
    OutKeeps M s0 (execUpdateComponent i s) := by
  unfold execUpdateComponent
  try dsimp only
  repeat' (with_reducible first | assumption | exact hM.of rfl | apply Keeps.refl | apply outKeeps_ite | apply keeps_ite | apply OutKeeps.next | apply mctpRow_keeps | apply setMgt_keeps | apply writeImage_keeps | split | intro _)

theorem execActivateFirmware_keeps {M : Nat} {s0 : State} (selfContained : Bool) {s : State} (hk : Keeps M s0 s) (hM : Sub 67108855 M := by exact ‹Sub _ M›.of rfl) :
    OutKeeps M s0 (execActivateFirmware selfContained s) := by
  unfold execActivateFirmware
  try dsimp only
  repeat' (with_reducible first | assumption | exact hM.of rfl | apply Keeps.refl | apply outKeeps_ite | apply keeps_ite | apply OutKeeps.next | apply forEach_keeps | apply markNext_keeps | apply mctpRow_keeps | apply startActivation_keeps | apply updEnd_keeps | apply forEach_keeps | split | intro _)

theorem execPlatformEventMessage_keeps {M : Nat} {s0 : State} {s : State} (hk : Keeps M s0 s) (hM : Sub 4194337 M := by exact ‹Sub _ M›.of rfl) :
    OutKeeps M s0 (execPlatformEventMessage s) := by
  unfold execPlatformEventMessage
  try dsimp only
  repeat' (with_reducible first | assumption | exact hM.of rfl | apply Keeps.refl | apply outKeeps_ite | apply keeps_ite | apply OutKeeps.next | apply postMctp_keeps | split | apply Keeps.updR)

end Sys2Proof.Machine
end

