-- ==== Sys2Proof/Laws/KeepCflRows.lean ====
section
/-! SUPPORT. Every operation of Machine/CflRows.lean leaves what `Keeps` says. -/

set_option Elab.async false

namespace Sys2Proof.Machine

theorem cflBegin_keeps {M : Nat} {s0 : State} (op : CflOp) (sec : Nat) {s : State} (hk : Keeps M s0 s) (hM : Sub 4194305 M := by exact ‹Sub _ M›.of rfl) :
    Keeps M s0 (cflBegin op sec s) := by
  unfold cflBegin
  try dsimp only
  repeat' (with_reducible first | assumption | exact hM.of rfl | apply Keeps.refl | apply keeps_ite | apply fset_keeps | apply setMgt_keeps)

theorem cflResult_keeps {M : Nat} {s0 : State} (r : Nat) {s : State} (hk : Keeps M s0 s) (hM : Sub 1 M := by exact ‹Sub _ M›.of rfl) :
    Keeps M s0 (cflResult r s) := by
  unfold cflResult
  try dsimp only
  repeat' (with_reducible first | assumption | exact hM.of rfl | apply Keeps.refl | apply keeps_ite | apply fset_keeps)

theorem cflCommand_keeps {M : Nat} {s0 : State} (v : Nat) {s : State} (hk : Keeps M s0 s) (hM : Sub 4194337 M := by exact ‹Sub _ M›.of rfl) :
    Keeps M s0 (cflCommand v s) := by
  unfold cflCommand
  try dsimp only
  repeat' (with_reducible first | assumption | exact hM.of rfl | apply Keeps.refl | apply keeps_ite | apply cflBegin_keeps | apply cflResult_keeps | apply otherPostmark_keeps | split | intro _)

theorem cflRow_keeps {M : Nat} {s0 : State} (addr : Nat) (data : Option Word) (v req : Nat) {s : State} (hk : Keeps M s0 s) (hM : Sub 4194337 M := by exact ‹Sub _ M›.of rfl) :
    OutKeeps M s0 (cflRow addr data v req s) := by
  unfold cflRow
  try dsimp only
  repeat' (with_reducible first | assumption | exact hM.of rfl | apply Keeps.refl | apply outKeeps_ite | apply keeps_ite | apply OutKeeps.next | apply busError_keeps | apply cflCommand_keeps | apply fset_keeps | apply wr_keeps | split)

theorem execCflProgram_keeps {M : Nat} {s0 : State} (addr : Nat) (data : Word) (req : Nat) {s : State} (hk : Keeps M s0 s) (hM : Sub 4194337 M := by exact ‹Sub _ M›.of rfl) :
    OutKeeps M s0 (execCflProgram addr data req s) := by
  unfold execCflProgram
  try dsimp only
  repeat' (with_reducible first | assumption | exact hM.of rfl | apply Keeps.refl | apply outKeeps_ite | apply keeps_ite | apply OutKeeps.next | apply cflRow_keeps)

theorem execCflEraseSector_keeps {M : Nat} {s0 : State} (addr key req : Nat) {s : State} (hk : Keeps M s0 s) (hM : Sub 4194337 M := by exact ‹Sub _ M›.of rfl) :
    OutKeeps M s0 (execCflEraseSector addr key req s) := by
  unfold execCflEraseSector
  try dsimp only
  repeat' (with_reducible first | assumption | exact hM.of rfl | apply Keeps.refl | apply outKeeps_ite | apply keeps_ite | apply OutKeeps.next | apply cflRow_keeps)

theorem execCflEraseGroup_keeps {M : Nat} {s0 : State} (addr key req : Nat) {s : State} (hk : Keeps M s0 s) (hM : Sub 4194337 M := by exact ‹Sub _ M›.of rfl) :
    OutKeeps M s0 (execCflEraseGroup addr key req s) := by
  unfold execCflEraseGroup
  try dsimp only
  repeat' (with_reducible first | assumption | exact hM.of rfl | apply Keeps.refl | apply outKeeps_ite | apply keeps_ite | apply OutKeeps.next | apply cflRow_keeps)

theorem sectorInvalid_keeps {M : Nat} {s0 : State} (sec : Nat) {s : State} (hk : Keeps M s0 s) (hM : Sub 4194304 M := by exact ‹Sub _ M›.of rfl) :
    Keeps M s0 (sectorInvalid sec s) := by
  unfold sectorInvalid
  try dsimp only
  repeat' (with_reducible first | assumption | exact hM.of rfl | apply Keeps.refl | apply keeps_ite | apply setFw_keeps | apply setMgt_keeps | split)

theorem retireSector_keeps {M : Nat} {s0 : State} (sec : Nat) {s : State} (hk : Keeps M s0 s) (hM : Sub 4194337 M := by exact ‹Sub _ M›.of rfl) :
    Keeps M s0 (retireSector sec s) := by
  unfold retireSector
  try dsimp only
  repeat' (with_reducible first | assumption | exact hM.of rfl | apply Keeps.refl | apply keeps_ite | apply fset_keeps | apply raiseEvent_keeps | apply sectorInvalid_keeps | apply setMgt_keeps)

theorem eraseWords_keeps {M : Nat} {s0 : State} (sec count : Nat) {s : State} (hk : Keeps M s0 s) (hM : Sub 4194304 M := by exact ‹Sub _ M›.of rfl) :
    Keeps M s0 (eraseWords sec count s) := by
  unfold eraseWords
  try dsimp only
  repeat' (with_reducible first | assumption | exact hM.of rfl | apply Keeps.refl | apply keeps_ite | apply setMgt_keeps | split | intro _)

theorem execCflOperationDone_keeps {M : Nat} {s0 : State} (bad : List Nat) {s : State} (hk : Keeps M s0 s) (hM : Sub 4194337 M := by exact ‹Sub _ M›.of rfl) :
    OutKeeps M s0 (execCflOperationDone bad s) := by
  unfold execCflOperationDone
  try dsimp only
  repeat' (with_reducible first | assumption | exact hM.of rfl | apply Keeps.refl | apply outKeeps_ite | apply keeps_ite | apply OutKeeps.next | apply cflResult_keeps | apply cntAdd_keeps | apply eraseWords_keeps | apply forEach_keeps | apply fset_keeps | apply raiseEvent_keeps | apply retireSector_keeps | apply setMgt_keeps | apply forEach_keeps | split | intro _)

theorem cflReadData_keeps {M : Nat} {s0 : State} (addr : Nat) (res : MemRes) (req : Nat) {s : State} (hk : Keeps M s0 s) (hM : Sub 4194341 M := by exact ‹Sub _ M›.of rfl) :
    Keeps M s0 (cflReadData addr res req s) := by
  unfold cflReadData
  try dsimp only
  repeat' (with_reducible first | assumption | exact hM.of rfl | apply Keeps.refl | apply keeps_ite | apply busError_keeps | apply cntAdd_keeps | apply raiseEvent_keeps | apply setMgt_keeps | apply useFree_keeps | split)

theorem execCflRead_keeps {M : Nat} {s0 : State} (addr : Nat) (res : MemRes) (early : Bool) (req : Nat) {s : State} (hk : Keeps M s0 s) (hM : Sub 4194341 M := by exact ‹Sub _ M›.of rfl) :
    OutKeeps M s0 (execCflRead addr res early req s) := by
  unfold execCflRead
  try dsimp only
  repeat' (with_reducible first | assumption | exact hM.of rfl | apply Keeps.refl | apply outKeeps_ite | apply keeps_ite | apply OutKeeps.next | apply busError_keeps | apply cflReadData_keeps | apply fset_keeps | apply raiseEvent_keeps | split | intro _)

theorem execSettingsCommit_keeps {M : Nat} {s0 : State} (bytes : Nat) {s : State} (hk : Keeps M s0 s) (hM : Sub 4194304 M := by exact ‹Sub _ M›.of rfl) :
    OutKeeps M s0 (execSettingsCommit bytes s) := by
  unfold execSettingsCommit
  try dsimp only
  repeat' (with_reducible first | assumption | exact hM.of rfl | apply Keeps.refl | apply outKeeps_ite | apply keeps_ite | apply OutKeeps.next | apply setMgt_keeps)

theorem execSettingsCompaction_keeps {M : Nat} {s0 : State} {s : State} (hk : Keeps M s0 s) (hM : Sub 4194304 M := by exact ‹Sub _ M›.of rfl) :
    OutKeeps M s0 (execSettingsCompaction s) := by
  unfold execSettingsCompaction
  try dsimp only
  repeat' (with_reducible first | assumption | exact hM.of rfl | apply Keeps.refl | apply outKeeps_ite | apply keeps_ite | apply OutKeeps.next | apply setMgt_keeps)

end Sys2Proof.Machine
end

