-- ==== Sys2Proof/Laws/KeepDramRows.lean ====
section
/-! SUPPORT. Every operation of Machine/DramRows.lean leaves what `Keeps` says. -/

set_option Elab.async false

namespace Sys2Proof.Machine

theorem channelFailed_keeps {M : Nat} {s0 : State} (n : Nat) (byKey : Bool) {s : State} (hk : Keeps M s0 s) (hM : Sub 67108855 M := by exact ‹Sub _ M›.of rfl) :
    Keeps M s0 (channelFailed n byKey s) := by
  unfold channelFailed
  try dsimp only
  repeat' (with_reducible first | assumption | exact hM.of rfl | apply Keeps.refl | apply keeps_ite | apply fset_keeps | apply raiseEvent_keeps | apply requestModuleReset_keeps | apply smartEvent_keeps)

theorem deviceFailed_keeps {M : Nat} {s0 : State} (n lane : Nat) {s : State} (hk : Keeps M s0 s) (hM : Sub 67108855 M := by exact ‹Sub _ M›.of rfl) :
    Keeps M s0 (deviceFailed n lane s) := by
  unfold deviceFailed
  try dsimp only
  repeat' (with_reducible first | assumption | exact hM.of rfl | apply Keeps.refl | apply keeps_ite | apply channelFailed_keeps | apply fset_keeps | apply raiseEvent_keeps | apply smartEvent_keeps)

theorem correctLine_keeps {M : Nat} {s0 : State} (n addr port typ : Nat) (lanes : List Nat) (failing : Bool) {s : State} (hk : Keeps M s0 s) (hM : Sub 67108855 M := by exact ‹Sub _ M›.of rfl) :
    Keeps M s0 (correctLine n addr port typ lanes failing s) := by
  unfold correctLine
  try dsimp only
  repeat' (with_reducible first | assumption | exact hM.of rfl | apply Keeps.refl | apply keeps_ite | apply cntAdd_keeps | apply deviceFailed_keeps | apply dmcError_keeps | apply forEach_keeps | apply forEach_keeps | split | intro _)

theorem uncorrLine_keeps {M : Nat} {s0 : State} (n addr port typ : Nat) (sixteenth : Bool) {s : State} (hk : Keeps M s0 s) (hM : Sub 67108855 M := by exact ‹Sub _ M›.of rfl) :
    Keeps M s0 (uncorrLine n addr port typ sixteenth s) := by
  unfold uncorrLine
  try dsimp only
  repeat' (with_reducible first | assumption | exact hM.of rfl | apply Keeps.refl | apply keeps_ite | apply channelFailed_keeps | apply cntAdd_keeps | apply dmcError_keeps)

theorem poisonLine_keeps {M : Nat} {s0 : State} (l : Nat) {s : State} (hk : Keeps M s0 s) (hM : Sub 4096 M := by exact ‹Sub _ M›.of rfl) :
    Keeps M s0 (poisonLine l s) := by
  unfold poisonLine
  try dsimp only
  repeat' (with_reducible first | assumption | exact hM.of rfl | apply Keeps.refl | apply keeps_ite | split | apply Keeps.upd_dram)

theorem ownerActs_keeps {M : Nat} {s0 : State} (o : MemOwner) {s : State} (hk : Keeps M s0 s) (hM : Sub 67108855 M := by exact ‹Sub _ M›.of rfl) :
    Keeps M s0 (ownerActs o s) := by
  unfold ownerActs
  try dsimp only
  repeat' (with_reducible first | assumption | exact hM.of rfl | apply Keeps.refl | apply keeps_ite | apply complete_keeps | apply dropLanding_keeps | apply otherPostmark_keeps | apply requestModuleReset_keeps | split | apply Keeps.upd_ftl)

theorem readLine_keeps {M : Nat} {s0 : State} (addr port : Nat) (res : MemRes) {s : State} (hk : Keeps M s0 s) (hM : Sub 67108855 M := by exact ‹Sub _ M›.of rfl) :
    Keeps M s0 (readLine addr port res s).1 := by
  unfold readLine
  try dsimp only
  repeat' (with_reducible first | assumption | exact hM.of rfl | apply Keeps.refl | apply keeps_ite | apply cntAdd_keeps | apply correctLine_keeps | apply dmcError_keeps | apply uncorrLine_keeps | split | apply Keeps.upd_dram)

theorem execDramRead_keeps {M : Nat} {s0 : State} (addr port : Nat) (res : MemRes) (o : MemOwner) {s : State} (hk : Keeps M s0 s) (hM : Sub 67108855 M := by exact ‹Sub _ M›.of rfl) :
    OutKeeps M s0 (execDramRead addr port res o s) := by
  unfold execDramRead
  try dsimp only
  repeat' (with_reducible first | assumption | exact hM.of rfl | apply Keeps.refl | apply outKeeps_ite | apply keeps_ite | apply OutKeeps.next | apply ownerActs_keeps | apply readLine_keeps | split | intro _)

theorem narrowWrite_keeps {M : Nat} {s0 : State} (addr port : Nat) (data : List Byte) (core : Option Nat) (res : MemRes) {s : State} (hk : Keeps M s0 s) (hM : Sub 67108855 M := by exact ‹Sub _ M›.of rfl) :
    Keeps M s0 (narrowWrite addr port data core res s) := by
  unfold narrowWrite
  try dsimp only
  repeat' (with_reducible first | assumption | exact hM.of rfl | apply Keeps.refl | apply keeps_ite | apply clearPoison_keeps | apply cntAdd_keeps | apply correctLine_keeps | apply dmcError_keeps | apply poisonLine_keeps | apply setSysField_keeps | apply uncorrLine_keeps | apply wrBytes_keeps | split | intro _)

theorem execNarrowWrite_keeps {M : Nat} {s0 : State} (addr port : Nat) (data : List Byte) (core : Option Nat) (res : MemRes) {s : State} (hk : Keeps M s0 s) (hM : Sub 67108855 M := by exact ‹Sub _ M›.of rfl) :
    OutKeeps M s0 (execNarrowWrite addr port data core res s) := by
  unfold execNarrowWrite
  try dsimp only
  repeat' (with_reducible first | assumption | exact hM.of rfl | apply Keeps.refl | apply outKeeps_ite | apply keeps_ite | apply OutKeeps.next | apply narrowWrite_keeps | split | intro _)

theorem execPortUrgent_keeps {M : Nat} {s0 : State} (n p : Nat) (on : Bool) {s : State} (hk : Keeps M s0 s) (hM : Sub 1 M := by exact ‹Sub _ M›.of rfl) :
    OutKeeps M s0 (execPortUrgent n p on s) := by
  unfold execPortUrgent
  try dsimp only
  repeat' (with_reducible first | assumption | exact hM.of rfl | apply Keeps.refl | apply outKeeps_ite | apply keeps_ite | apply OutKeeps.next | apply fset_keeps)

theorem execStarvationEpisode_keeps {M : Nat} {s0 : State} (n p : Nat) {s : State} (hk : Keeps M s0 s) (hM : Sub 33 M := by exact ‹Sub _ M›.of rfl) :
    OutKeeps M s0 (execStarvationEpisode n p s) := by
  unfold execStarvationEpisode
  try dsimp only
  repeat' (with_reducible first | assumption | exact hM.of rfl | apply Keeps.refl | apply outKeeps_ite | apply keeps_ite | apply OutKeeps.next | apply cntAdd_keeps | apply raiseEvent_keeps)

theorem postpone_keeps {M : Nat} {s0 : State} (n : Nat) {s : State} (hk : Keeps M s0 s) (hM : Sub 33 M := by exact ‹Sub _ M›.of rfl) :
    Keeps M s0 (postpone n s) := by
  unfold postpone
  try dsimp only
  repeat' (with_reducible first | assumption | exact hM.of rfl | apply Keeps.refl | apply keeps_ite | apply cntAdd_keeps | apply fset_keeps | apply raiseEvent_keeps)

theorem execRefreshInterval_keeps {M : Nat} {s0 : State} (n repaid postponed : Nat) (hot : Bool) {s : State} (hk : Keeps M s0 s) (hM : Sub 33 M := by exact ‹Sub _ M›.of rfl) :
    OutKeeps M s0 (execRefreshInterval n repaid postponed hot s) := by
  unfold execRefreshInterval
  try dsimp only
  repeat' (with_reducible first | assumption | exact hM.of rfl | apply Keeps.refl | apply outKeeps_ite | apply keeps_ite | apply OutKeeps.next | apply forN_keeps | apply fset_keeps | apply postpone_keeps | apply forN_keeps | split | intro _)

theorem applyDelays_keeps {M : Nat} {s0 : State} (n : Nat) (good : Bool) {s : State} (hk : Keeps M s0 s) (hM : Sub 67108855 M := by exact ‹Sub _ M›.of rfl) :
    Keeps M s0 (applyDelays n good s) := by
  unfold applyDelays
  try dsimp only
  repeat' (with_reducible first | assumption | exact hM.of rfl | apply Keeps.refl | apply keeps_ite | apply channelFailed_keeps | apply cntAdd_keeps | apply forN_keeps | apply raiseEvent_keeps | apply wr_keeps | apply forN_keeps | split | apply Keeps.upd_dram | intro _)

theorem execDelayApply_keeps {M : Nat} {s0 : State} (n : Nat) (good : Bool) {s : State} (hk : Keeps M s0 s) (hM : Sub 67108855 M := by exact ‹Sub _ M›.of rfl) :
    OutKeeps M s0 (execDelayApply n good s) := by
  unfold execDelayApply
  try dsimp only
  repeat' (with_reducible first | assumption | exact hM.of rfl | apply Keeps.refl | apply outKeeps_ite | apply keeps_ite | apply OutKeeps.next | apply applyDelays_keeps)

theorem execRecalibrationDue_keeps {M : Nat} {s0 : State} (n : Nat) (drift : List (Nat × Nat)) (stage : List Half) (aged good : Bool) {s : State} (hk : Keeps M s0 s) (hM : Sub 67108855 M := by exact ‹Sub _ M›.of rfl) :
    OutKeeps M s0 (execRecalibrationDue n drift stage aged good s) := by
  unfold execRecalibrationDue
  try dsimp only
  repeat' (with_reducible first | assumption | exact hM.of rfl | apply Keeps.refl | apply outKeeps_ite | apply keeps_ite | apply OutKeeps.next | apply applyDelays_keeps | apply deviceFailed_keeps | apply fset_keeps | apply wr_keeps | apply forN_keeps | apply forEach_keeps | split | apply Keeps.upd_dram | intro _)

theorem dramHold_keeps {M : Nat} {s0 : State} (n v : Nat) {s : State} (hk : Keeps M s0 s) (hM : Sub 1 M := by exact ‹Sub _ M›.of rfl) :
    Keeps M s0 (dramHold n v s) := by
  unfold dramHold
  try dsimp only
  repeat' (with_reducible first | assumption | exact hM.of rfl | apply Keeps.refl | apply keeps_ite | apply fset_keeps)

theorem execDramHold_keeps {M : Nat} {s0 : State} (n : Nat) (on : Bool) {s : State} (hk : Keeps M s0 s) (hM : Sub 1 M := by exact ‹Sub _ M›.of rfl) :
    OutKeeps M s0 (execDramHold n on s) := by
  unfold execDramHold
  try dsimp only
  repeat' (with_reducible first | assumption | exact hM.of rfl | apply Keeps.refl | apply outKeeps_ite | apply keeps_ite | apply OutKeeps.next | apply dramHold_keeps)

theorem dramRetire_keeps {M : Nat} {s0 : State} (n key req : Nat) {s : State} (hk : Keeps M s0 s) (hM : Sub 67108855 M := by exact ‹Sub _ M›.of rfl) :
    Keeps M s0 (dramRetire n key req s) := by
  unfold dramRetire
  try dsimp only
  repeat' (with_reducible first | assumption | exact hM.of rfl | apply Keeps.refl | apply keeps_ite | apply channelFailed_keeps | apply writeIgnored_keeps)

theorem execDramChannelRetire_keeps {M : Nat} {s0 : State} (n key req : Nat) {s : State} (hk : Keeps M s0 s) (hM : Sub 67108855 M := by exact ‹Sub _ M›.of rfl) :
    OutKeeps M s0 (execDramChannelRetire n key req s) := by
  unfold execDramChannelRetire
  try dsimp only
  repeat' (with_reducible first | assumption | exact hM.of rfl | apply Keeps.refl | apply outKeeps_ite | apply keeps_ite | apply OutKeeps.next | apply dramRetire_keeps)

theorem retirePage_keeps {M : Nat} {s0 : State} (n page : Nat) {s : State} (hk : Keeps M s0 s) (hM : Sub 4129 M := by exact ‹Sub _ M›.of rfl) :
    Keeps M s0 (retirePage n page s) := by
  unfold retirePage
  try dsimp only
  repeat' (with_reducible first | assumption | exact hM.of rfl | apply Keeps.refl | apply keeps_ite | apply forEach_keeps | apply fset_keeps | apply poisonLine_keeps | apply raiseEvent_keeps | apply forEach_keeps | split | intro _)

theorem execPageRetire_keeps {M : Nat} {s0 : State} (n page : Nat) {s : State} (hk : Keeps M s0 s) (hM : Sub 4129 M := by exact ‹Sub _ M›.of rfl) :
    OutKeeps M s0 (execPageRetire n page s) := by
  unfold execPageRetire
  try dsimp only
  repeat' (with_reducible first | assumption | exact hM.of rfl | apply Keeps.refl | apply outKeeps_ite | apply keeps_ite | apply OutKeeps.next | apply retirePage_keeps)

theorem sramWord_keeps {M : Nat} {s0 : State} (retained : Bool) (addr : Nat) (res : MemRes) {s : State} (hk : Keeps M s0 s) (hM : Sub 4129 M := by exact ‹Sub _ M›.of rfl) :
    Keeps M s0 (sramWord retained addr res s) := by
  unfold sramWord
  dsimp only
  split
  · exact hk
  · exact raiseEvent_keeps _ _ _ (memLog_keeps _ _ _ _ _ _ _ _ (cntAdd_keeps _ _ _ hk.upd_dram))
  · split
    · refine raiseEvent_keeps _ _ _ (memLog_keeps _ _ _ _ _ _ _ _ (cntAdd_keeps _ _ _ (Keeps.updP_dram (fun g => ?_) hk)))
      exact ⟨g.1, g.2.1, g.2.2.1, g.2.2.2.1, by simpa using g.2.2.2.2⟩
    · exact raiseEvent_keeps _ _ _ (memLog_keeps _ _ _ _ _ _ _ _ (cntAdd_keeps _ _ _ hk.upd_dram))

theorem execSramRead_keeps {M : Nat} {s0 : State} (retained : Bool) (addr : Nat) (res : MemRes) {s : State} (hk : Keeps M s0 s) (hM : Sub 4129 M := by exact ‹Sub _ M›.of rfl) :
    OutKeeps M s0 (execSramRead retained addr res s) := by
  unfold execSramRead
  try dsimp only
  repeat' (with_reducible first | assumption | exact hM.of rfl | apply Keeps.refl | apply outKeeps_ite | apply keeps_ite | apply OutKeeps.next | apply sramWord_keeps)

theorem scrubLate_keeps {M : Nat} {s0 : State} (late : Bool) {s : State} (hk : Keeps M s0 s) (hM : Sub 33 M := by exact ‹Sub _ M›.of rfl) :
    Keeps M s0 (scrubLate late s) := by
  unfold scrubLate
  try dsimp only
  repeat' (with_reducible first | assumption | exact hM.of rfl | apply Keeps.refl | apply keeps_ite | apply fset_keeps | apply raiseEvent_keeps)

theorem scrubAdvance_keeps {M : Nat} {s0 : State} {s : State} (hk : Keeps M s0 s) (hM : Sub 1 M := by exact ‹Sub _ M›.of rfl) :
    Keeps M s0 (scrubAdvance s) := by
  unfold scrubAdvance
  try dsimp only
  repeat' (with_reducible first | assumption | exact hM.of rfl | apply Keeps.refl | apply keeps_ite | apply cntAdd_keeps | apply fset_keeps)

theorem scrubLine_keeps {M : Nat} {s0 : State} (res : MemRes) {s : State} (hk : Keeps M s0 s) (hM : Sub 67108855 M := by exact ‹Sub _ M›.of rfl) :
    Keeps M s0 (scrubLine res s) := by
  unfold scrubLine
  try dsimp only
  repeat' (with_reducible first | assumption | exact hM.of rfl | apply Keeps.refl | apply keeps_ite | apply correctLine_keeps | apply poisonLine_keeps | apply readLine_keeps | apply uncorrLine_keeps | split)

theorem execScrubStep_keeps {M : Nat} {s0 : State} (word : Option (Bool × Nat)) (res : MemRes) (late : Bool) {s : State} (hk : Keeps M s0 s) (hM : Sub 67108855 M := by exact ‹Sub _ M›.of rfl) :
    OutKeeps M s0 (execScrubStep word res late s) := by
  unfold execScrubStep
  try dsimp only
  repeat' (with_reducible first | assumption | exact hM.of rfl | apply Keeps.refl | apply outKeeps_ite | apply keeps_ite | apply OutKeeps.next | apply execSramRead_keeps | apply scrubAdvance_keeps | apply scrubLate_keeps | apply scrubLine_keeps | split | intro _)

theorem execSramRepair_keeps {M : Nat} {s0 : State} (m : Nat) (column : Bool) (index : Nat) {s : State} (hk : Keeps M s0 s) (hM : Sub 4129 M := by exact ‹Sub _ M›.of rfl) :
    OutKeeps M s0 (execSramRepair m column index s) := by
  unfold execSramRepair
  try dsimp only
  repeat' (with_reducible first | assumption | exact hM.of rfl | apply Keeps.refl | apply outKeeps_ite | apply keeps_ite | apply OutKeeps.next | apply fset_keeps | apply raiseEvent_keeps | split | apply Keeps.upd_dram)

end Sys2Proof.Machine
end

