-- ==== Sys2Proof/Laws/KeepPortRows.lean ====
section
/-! SUPPORT. Every operation of Machine/PortRows.lean leaves what `Keeps` says. -/

set_option Elab.async false

namespace Sys2Proof.Machine

theorem execSubmit_keeps {M : Nat} {s0 : State} (p req : Nat) {s : State} (hk : Keeps M s0 s) (hM : Sub 788517 M := by exact ‹Sub _ M›.of rfl) :
    OutKeeps M s0 (execSubmit p req s) := by
  unfold execSubmit
  try dsimp only
  repeat' (with_reducible first | assumption | exact hM.of rfl | apply Keeps.refl | apply outKeeps_ite | apply keeps_ite | apply OutKeeps.next | apply portError_keeps | refine portSubmit_keeps_eq (by assumption) ?_ | apply portSubmit_keeps | apply svSubmit_keeps | split)

theorem execTake_keeps {M : Nat} {s0 : State} (p fn ns req : Nat) {s : State} (hk : Keeps M s0 s) (hM : Sub 1837093 M := by exact ‹Sub _ M›.of rfl) :
    OutKeeps M s0 (execTake p fn ns req s) := by
  unfold execTake
  try dsimp only
  repeat' (with_reducible first | assumption | exact hM.of rfl | apply Keeps.refl | apply outKeeps_ite | apply keeps_ite | apply OutKeeps.next | apply portError_keeps | apply takeAndStart_keeps)

theorem doneAndLeave_keeps {M : Nat} {s0 : State} (p st req : Nat) {s : State} (hk : Keeps M s0 s) (hM : Sub 788517 M := by exact ‹Sub _ M›.of rfl) :
    Keeps M s0 (doneAndLeave p st req s) := by
  unfold doneAndLeave
  try dsimp only
  repeat' (with_reducible first | assumption | exact hM.of rfl | apply Keeps.refl | apply keeps_ite | apply leaveLetter_keeps | apply portDone_keeps | apply showCore_keeps)

theorem execDone_keeps {M : Nat} {s0 : State} (p st req : Nat) {s : State} (hk : Keeps M s0 s) (hM : Sub 788517 M := by exact ‹Sub _ M›.of rfl) :
    OutKeeps M s0 (execDone p st req s) := by
  unfold execDone
  try dsimp only
  repeat' (with_reducible first | assumption | exact hM.of rfl | apply Keeps.refl | apply outKeeps_ite | apply keeps_ite | apply OutKeeps.next | apply doneAndLeave_keeps | apply finishLetter_keeps | apply portError_keeps | split)

theorem execQuery_keeps {M : Nat} {s0 : State} (p req : Nat) {s : State} (hk : Keeps M s0 s) (hM : Sub 524321 M := by exact ‹Sub _ M›.of rfl) :
    OutKeeps M s0 (execQuery p req s) := by
  unfold execQuery
  try dsimp only
  repeat' (with_reducible first | assumption | exact hM.of rfl | apply Keeps.refl | apply outKeeps_ite | apply keeps_ite | apply OutKeeps.next | apply portError_keeps | refine portQuery_keeps_eq (by assumption) ?_ | apply portQuery_keeps | apply svAnswer_keeps | split)

theorem execCancel_keeps {M : Nat} {s0 : State} (p req : Nat) {s : State} (hk : Keeps M s0 s) (hM : Sub 788513 M := by exact ‹Sub _ M›.of rfl) :
    OutKeeps M s0 (execCancel p req s) := by
  unfold execCancel
  try dsimp only
  repeat' (with_reducible first | assumption | exact hM.of rfl | apply Keeps.refl | apply outKeeps_ite | apply keeps_ite | apply OutKeeps.next | refine cancelLetter_keeps_eq (by assumption) ?_ | apply cancelLetter_keeps | refine portCancel_keeps_eq (by assumption) ?_ | apply portCancel_keeps | apply portError_keeps | apply svAnswer_keeps | split)

theorem ctrRow_keeps {M : Nat} {s0 : State} (op p req : Nat) {s : State} (hk : Keeps M s0 s) (hM : Sub 788513 M := by exact ‹Sub _ M›.of rfl) :
    OutKeeps M s0 (ctrRow op p req s) := by
  unfold ctrRow
  try dsimp only
  repeat' (with_reducible first | assumption | exact hM.of rfl | apply Keeps.refl | apply outKeeps_ite | apply keeps_ite | apply OutKeeps.next | apply fset_keeps | refine portCtr_keeps_eq (by assumption) ?_ | apply portCtr_keeps | apply portError_keeps | apply svAnswer_keeps | apply wr_keeps | split)

theorem execCtrAllocate_keeps {M : Nat} {s0 : State} (p req : Nat) {s : State} (hk : Keeps M s0 s) (hM : Sub 788513 M := by exact ‹Sub _ M›.of rfl) :
    OutKeeps M s0 (execCtrAllocate p req s) := by
  unfold execCtrAllocate
  try dsimp only
  repeat' (with_reducible first | assumption | exact hM.of rfl | apply Keeps.refl | apply outKeeps_ite | apply keeps_ite | apply OutKeeps.next | apply ctrRow_keeps)

theorem execCtrAdd_keeps {M : Nat} {s0 : State} (p req : Nat) {s : State} (hk : Keeps M s0 s) (hM : Sub 788513 M := by exact ‹Sub _ M›.of rfl) :
    OutKeeps M s0 (execCtrAdd p req s) := by
  unfold execCtrAdd
  try dsimp only
  repeat' (with_reducible first | assumption | exact hM.of rfl | apply Keeps.refl | apply outKeeps_ite | apply keeps_ite | apply OutKeeps.next | apply ctrRow_keeps)

theorem execCtrSet_keeps {M : Nat} {s0 : State} (p req : Nat) {s : State} (hk : Keeps M s0 s) (hM : Sub 788513 M := by exact ‹Sub _ M›.of rfl) :
    OutKeeps M s0 (execCtrSet p req s) := by
  unfold execCtrSet
  try dsimp only
  repeat' (with_reducible first | assumption | exact hM.of rfl | apply Keeps.refl | apply outKeeps_ite | apply keeps_ite | apply OutKeeps.next | apply ctrRow_keeps)

theorem execCtrRead_keeps {M : Nat} {s0 : State} (p req : Nat) {s : State} (hk : Keeps M s0 s) (hM : Sub 788513 M := by exact ‹Sub _ M›.of rfl) :
    OutKeeps M s0 (execCtrRead p req s) := by
  unfold execCtrRead
  try dsimp only
  repeat' (with_reducible first | assumption | exact hM.of rfl | apply Keeps.refl | apply outKeeps_ite | apply keeps_ite | apply OutKeeps.next | apply ctrRow_keeps)

theorem execCtrFree_keeps {M : Nat} {s0 : State} (p req : Nat) {s : State} (hk : Keeps M s0 s) (hM : Sub 788513 M := by exact ‹Sub _ M›.of rfl) :
    OutKeeps M s0 (execCtrFree p req s) := by
  unfold execCtrFree
  try dsimp only
  repeat' (with_reducible first | assumption | exact hM.of rfl | apply Keeps.refl | apply outKeeps_ite | apply keeps_ite | apply OutKeeps.next | apply ctrRow_keeps)

end Sys2Proof.Machine
end

