-- ==== Sys2Proof/Laws/KeepBusBase.lean ====
section
/-! SUPPORT. Every operation of Machine/BusBase.lean leaves what `Keeps` says. -/

set_option Elab.async false

namespace Sys2Proof.Machine

theorem plainWrite_keeps {M : Nat} {s0 : State} (h : Hit) (mask new : Word) (req : Nat) {s : State} (hk : Keeps M s0 s) (hM : Sub 4194337 M := by exact ‹Sub _ M›.of rfl) :
    Keeps M s0 (plainWrite h mask new req s) := by
  unfold plainWrite
  try dsimp only
  repeat' (with_reducible first | assumption | exact hM.of rfl | apply Keeps.refl | apply keeps_ite | apply wr_keeps | apply wrP_keeps | apply writeIgnored_keeps)

theorem setQuarter_keeps {M : Nat} {s0 : State} (k n q : Nat) (v : Word) {s : State} (hk : Keeps M s0 s) (hM : Sub 524288 M := by exact ‹Sub _ M›.of rfl) :
    Keeps M s0 (setQuarter k n q v s) := by
  unfold setQuarter
  try dsimp only
  repeat' (with_reducible first | assumption | exact hM.of rfl | apply Keeps.refl | apply keeps_ite | split | apply Keeps.upd_cores)

theorem setDbgReg_keeps {M : Nat} {s0 : State} (k : Nat) (v : Word) {s : State} (hk : Keeps M s0 s) (hM : Sub 524321 M := by exact ‹Sub _ M›.of rfl) :
    Keeps M s0 (setDbgReg k v s) := by
  unfold setDbgReg
  try dsimp only
  repeat' (with_reducible first | assumption | exact hM.of rfl | apply Keeps.refl | apply keeps_ite | apply setG_keeps | apply setQuarter_keeps | apply sysWrite_keeps | split)

theorem setDbgPc_keeps {M : Nat} {s0 : State} (k : Nat) (v : Word) {s : State} (hk : Keeps M s0 s) (hM : Sub 524289 M := by exact ‹Sub _ M›.of rfl) :
    Keeps M s0 (setDbgPc k v s) := by
  unfold setDbgPc
  try dsimp only
  repeat' (with_reducible first | assumption | exact hM.of rfl | apply Keeps.refl | apply keeps_ite | apply fset_keeps | apply setPc_keeps)

theorem stepCore_keeps {M : Nat} {s0 : State} (k : Nat) {s : State} (hk : Keeps M s0 s) (hM : Sub 524289 M := by exact ‹Sub _ M›.of rfl) :
    Keeps M s0 (stepCore k s) := by
  unfold stepCore
  try dsimp only
  repeat' (with_reducible first | assumption | exact hM.of rfl | apply Keeps.refl | apply keeps_ite | apply fset_keeps | apply showCore_keeps | split | apply Keeps.upd_cores)

theorem coreCtrl_keeps {M : Nat} {s0 : State} (k v : Nat) (mask new : Word) (h : Hit) (req : Nat) {s : State} (hk : Keeps M s0 s) (hM : Sub 4980965 M := by exact ‹Sub _ M›.of rfl) :
    Keeps M s0 (coreCtrl k v mask new h req s) := by
  unfold coreCtrl
  try dsimp only
  repeat' (with_reducible first | assumption | exact hM.of rfl | apply Keeps.refl | apply keeps_ite | apply haltCore_keeps | apply plainWrite_keeps | apply resumeCore_keeps | apply stepCore_keeps)

end Sys2Proof.Machine
end

