-- ==== Sys2Proof/Laws/KeepBusRows.lean ====
section
/-! SUPPORT. Every operation of Machine/BusRows.lean leaves what `Keeps` says. -/

set_option Elab.async false

namespace Sys2Proof.Machine

theorem writePower_keeps {M : Nat} {s0 : State} (h : Hit) (mask new : Word) (req : Nat) {s : State} (hk : Keeps M s0 s) (hM : Sub 67108855 M := by exact ‹Sub _ M›.of rfl) :
    Keeps M s0 (writePower h mask new req s) := by
  unfold writePower
  try dsimp only
  repeat' (with_reducible first | assumption | exact hM.of rfl | apply Keeps.refl | apply keeps_ite | apply fset_keeps | apply nvmSubsystemReset_keeps | apply plainWrite_keeps | apply requestKeep_keeps | apply requestModuleReset_keeps | apply requestStart_keeps | apply setPll_keeps | apply startBankTest_keeps | apply writeIgnored_keeps | split | intro _)

theorem writeChan_keeps {M : Nat} {s0 : State} (h : Hit) (mask new : Word) (req : Nat) {s : State} (hk : Keeps M s0 s) (hM : Sub 4490213 M := by exact ‹Sub _ M›.of rfl) :
    Keeps M s0 (writeChan h mask new req s) := by
  unfold writeChan
  try dsimp only
  repeat' (with_reducible first | assumption | exact hM.of rfl | apply Keeps.refl | apply keeps_ite | apply calibrate_keeps | apply channelReset_keeps | apply fset_keeps | apply plainWrite_keeps | apply requestRetire_keeps | apply scanAbortCtx_keeps | apply setHold_keeps | apply setMgt_keeps | apply useCal_keeps | apply writeIgnored_keeps | split | intro _)

theorem writeMat_keeps {M : Nat} {s0 : State} (h : Hit) (mask new : Word) (req : Nat) {s : State} (hk : Keeps M s0 s) (hM : Sub 4202529 M := by exact ‹Sub _ M›.of rfl) :
    Keeps M s0 (writeMat h mask new req s) := by
  unfold writeMat
  try dsimp only
  repeat' (with_reducible first | assumption | exact hM.of rfl | apply Keeps.refl | apply keeps_ite | apply entryOp_keeps | apply plainWrite_keeps | apply refreshTags_keeps | apply writeIgnored_keeps | apply writeTblMap_keeps | split | intro _)

theorem abortEngine_keeps {M : Nat} {s0 : State} (n : Nat) {s : State} (hk : Keeps M s0 s) (hM : Sub 1 M := by exact ‹Sub _ M›.of rfl) :
    Keeps M s0 (abortEngine n s) := by
  unfold abortEngine
  try dsimp only
  repeat' (with_reducible first | assumption | exact hM.of rfl | apply Keeps.refl | apply keeps_ite | apply fset_keeps)

theorem writeEngine_keeps {M : Nat} {s0 : State} (h : Hit) (mask new : Word) (req : Nat) {s : State} (hk : Keeps M s0 s) (hM : Sub 38998503 M := by exact ‹Sub _ M›.of rfl) :
    Keeps M s0 (writeEngine h mask new req s) := by
  unfold writeEngine
  try dsimp only
  repeat' (with_reducible first | assumption | exact hM.of rfl | apply Keeps.refl | apply keeps_ite | apply abortEngine_keeps | apply digCtrl_keeps | apply digData_keeps | apply digKey_keeps | apply foreignWrite_keeps | apply plainWrite_keeps | apply retireComp_keeps | apply useFree_keeps | apply writeIgnored_keeps | apply writeSlotOp_keeps | split | intro _)

theorem writeCore_keeps {M : Nat} {s0 : State} (h : Hit) (mask new : Word) (req : Nat) {s : State} (hk : Keeps M s0 s) (hM : Sub 67108855 M := by exact ‹Sub _ M›.of rfl) :
    Keeps M s0 (writeCore h mask new req s) := by
  unfold writeCore
  try dsimp only
  repeat' (with_reducible first | assumption | exact hM.of rfl | apply Keeps.refl | apply keeps_ite | apply applyDelays_keeps | apply axcCtrl_keeps | apply cacheCtrl_keeps | apply cmoStart_keeps | apply doneAndLeave_keeps | apply dramHold_keeps | apply dramRetire_keeps | apply endOwnerCmd_keeps | apply logTail_keeps | apply plainWrite_keeps | apply retirePage_keeps | apply routeCmd_keeps | apply setOrdered_keeps | apply useFree_keeps | apply wayLock_keeps | apply writeIgnored_keeps | split | intro _)

theorem m2hTailWritten_keeps {M : Nat} {s0 : State} (n old : Nat) {s : State} (hk : Keeps M s0 s) (hM : Sub 1152 M := by exact ‹Sub _ M›.of rfl) :
    Keeps M s0 (m2hTailWritten n old s) := by
  unfold m2hTailWritten
  try dsimp only
  repeat' (with_reducible first | assumption | exact hM.of rfl | apply Keeps.refl | apply keeps_ite | apply irqPend_keeps | split | apply Keeps.upd_ten | intro _)

theorem writeRest_keeps {M : Nat} {s0 : State} (h : Hit) (mask new : Word) (req : Nat) {s : State} (hk : Keeps M s0 s) (hM : Sub 41746407 M := by exact ‹Sub _ M›.of rfl) :
    Keeps M s0 (writeRest h mask new req s) := by
  unfold writeRest
  try dsimp only
  repeat' (with_reducible first | assumption | exact hM.of rfl | apply Keeps.refl | apply keeps_ite | apply barReserved_keeps | apply cflCommand_keeps | apply coreCtrl_keeps | apply fset_keeps | apply h2mDoorbell_keeps | apply m2hHead_keeps | apply m2hTailWritten_keeps | apply plainWrite_keeps | apply portFault_keeps | apply requestDebugReset_keeps | apply retrain_keeps | apply setDbgPc_keeps | apply setDbgReg_keeps | apply setMgmtCap_keeps | apply setPort_keeps | apply submitPostmark_keeps | apply takeWindow_keeps | apply writeIgnored_keeps | split | intro _)

theorem writeHit_keeps {M : Nat} {s0 : State} (h : Hit) (mask new : Word) (req : Nat) {s : State} (hk : Keeps M s0 s) (hM : Sub 67108855 M := by exact ‹Sub _ M›.of rfl) :
    Keeps M s0 (writeHit h mask new req s) := by
  unfold writeHit
  try dsimp only
  repeat' (with_reducible first | assumption | exact hM.of rfl | apply Keeps.refl | apply keeps_ite | apply writeChan_keeps | apply writeCore_keeps | apply writeEngine_keeps | apply writeMat_keeps | apply writePower_keeps | apply writeRest_keeps | split)

theorem readHit_keeps {M : Nat} {s0 : State} (h : Hit) {s : State} (hk : Keeps M s0 s) (hM : Sub 1837093 M := by exact ‹Sub _ M›.of rfl) :
    Keeps M s0 (readHit h s).2 := by
  unfold readHit
  try dsimp only
  repeat' (with_reducible first | assumption | exact hM.of rfl | apply Keeps.refl | apply keeps_ite | refine portCancel_keeps_eq (by assumption) ?_ | apply portCancel_keeps | refine portCtr_keeps_eq (by assumption) ?_ | apply portCtr_keeps | refine portQuery_keeps_eq (by assumption) ?_ | apply portQuery_keeps | refine portSubmit_keeps_eq (by assumption) ?_ | apply portSubmit_keeps | apply takeAndStart_keeps | apply useFree_keeps | split | intro _)

theorem readHit_keeps_eq {M : Nat} {s0 : State} {h : Hit} {s : State} {v0} {t' : State} (he : readHit h s = (v0, t')) (hk : Keeps M s0 s) (hM : Sub 1837093 M := by exact ‹Sub _ M›.of rfl) :
    Keeps M s0 t' := by
  have g : Keeps M s0 (readHit h s).2 := by
    with_reducible apply readHit_keeps <;> assumption
  rw [he] at g
  exact g

theorem setLatch_keeps {M : Nat} {s0 : State} (k : Nat) (v : Option Word) {s : State} (hk : Keeps M s0 s) (hM : Sub 8388608 M := by exact ‹Sub _ M›.of rfl) :
    Keeps M s0 (setLatch k v s) := by
  unfold setLatch
  try dsimp only
  repeat' (with_reducible first | assumption | exact hM.of rfl | apply Keeps.refl | apply keeps_ite | split | apply Keeps.upd_bus)

theorem regRead_keeps {M : Nat} {s0 : State} (a n req : Nat) {s : State} (hk : Keeps M s0 s) (hM : Sub 10225701 M := by exact ‹Sub _ M›.of rfl) :
    Keeps M s0 (regRead a n req s).2 := by
  unfold regRead
  try dsimp only
  repeat' (with_reducible first | assumption | exact hM.of rfl | apply Keeps.refl | apply keeps_ite | apply busError_keeps | refine readHit_keeps_eq (by assumption) ?_ | apply readHit_keeps | apply setLatch_keeps | split | intro _)

theorem regRead_keeps_eq {M : Nat} {s0 : State} {a n req : Nat} {s : State} {v0} {t' : State} (he : regRead a n req s = (v0, t')) (hk : Keeps M s0 s) (hM : Sub 10225701 M := by exact ‹Sub _ M›.of rfl) :
    Keeps M s0 t' := by
  have g : Keeps M s0 (regRead a n req s).2 := by
    with_reducible apply regRead_keeps <;> assumption
  rw [he] at g
  exact g

theorem writeThere_keeps {M : Nat} {s0 : State} (h : Hit) (a n : Nat) (mask new : Word) (req : Nat) {s : State} (hk : Keeps M s0 s) (hM : Sub 67108855 M := by exact ‹Sub _ M›.of rfl) :
    Keeps M s0 (writeThere h a n mask new req s).2 := by
  unfold writeThere
  try dsimp only
  repeat' (with_reducible first | assumption | exact hM.of rfl | apply Keeps.refl | apply keeps_ite | apply busError_keeps | apply foreignWrite_keeps | apply writeHit_keeps | split)

theorem writeThere_keeps_eq {M : Nat} {s0 : State} {h : Hit} {a n : Nat} {mask new : Word} {req : Nat} {s : State} {v0} {t' : State} (he : writeThere h a n mask new req s = (v0, t')) (hk : Keeps M s0 s) (hM : Sub 67108855 M := by exact ‹Sub _ M›.of rfl) :
    Keeps M s0 t' := by
  have g : Keeps M s0 (writeThere h a n mask new req s).2 := by
    with_reducible apply writeThere_keeps <;> assumption
  rw [he] at g
  exact g

theorem regWrite_keeps {M : Nat} {s0 : State} (a n : Nat) (v : Word) (req : Nat) {s : State} (hk : Keeps M s0 s) (hM : Sub 67108855 M := by exact ‹Sub _ M›.of rfl) :
    Keeps M s0 (regWrite a n v req s).2 := by
  unfold regWrite
  try dsimp only
  repeat' (with_reducible first | assumption | exact hM.of rfl | apply Keeps.refl | apply keeps_ite | apply busError_keeps | apply digData_keeps | apply setLatch_keeps | refine writeThere_keeps_eq (by assumption) ?_ | apply writeThere_keeps | split)

theorem regWrite_keeps_eq {M : Nat} {s0 : State} {a n : Nat} {v : Word} {req : Nat} {s : State} {v0} {t' : State} (he : regWrite a n v req s = (v0, t')) (hk : Keeps M s0 s) (hM : Sub 67108855 M := by exact ‹Sub _ M›.of rfl) :
    Keeps M s0 t' := by
  have g : Keeps M s0 (regWrite a n v req s).2 := by
    with_reducible apply regWrite_keeps <;> assumption
  rw [he] at g
  exact g

theorem execRegisterWrite_keeps {M : Nat} {s0 : State} (addr size : Nat) (value : Word) (req : Nat) {s : State} (hk : Keeps M s0 s) (hM : Sub 67108855 M := by exact ‹Sub _ M›.of rfl) :
    OutKeeps M s0 (execRegisterWrite addr size value req s) := by
  unfold execRegisterWrite
  try dsimp only
  repeat' (with_reducible first | assumption | exact hM.of rfl | apply Keeps.refl | apply outKeeps_ite | apply keeps_ite | apply OutKeeps.next | refine regWrite_keeps_eq (by assumption) ?_ | apply regWrite_keeps | split | apply Keeps.upd_bus)

theorem execMalformedRegisterAccess_keeps {M : Nat} {s0 : State} (addr size : Nat) (value : Option Word) (req : Nat) {s : State} (hk : Keeps M s0 s) (hM : Sub 67108855 M := by exact ‹Sub _ M›.of rfl) :
    OutKeeps M s0 (execMalformedRegisterAccess addr size value req s) := by
  unfold execMalformedRegisterAccess
  try dsimp only
  repeat' (with_reducible first | assumption | exact hM.of rfl | apply Keeps.refl | apply outKeeps_ite | apply keeps_ite | apply OutKeeps.next | apply busError_keeps | refine regWrite_keeps_eq (by assumption) ?_ | apply regWrite_keeps | split)

theorem execReservedAddressAccess_keeps {M : Nat} {s0 : State} (addr size req : Nat) {s : State} (hk : Keeps M s0 s) (hM : Sub 33 M := by exact ‹Sub _ M›.of rfl) :
    OutKeeps M s0 (execReservedAddressAccess addr size req s) := by
  unfold execReservedAddressAccess
  try dsimp only
  repeat' (with_reducible first | assumption | exact hM.of rfl | apply Keeps.refl | apply outKeeps_ite | apply keeps_ite | apply OutKeeps.next | apply busError_keeps | split)

theorem execStalledAccessComplete_keeps {M : Nat} {s0 : State} {s : State} (hk : Keeps M s0 s) (hM : Sub 67108855 M := by exact ‹Sub _ M›.of rfl) :
    OutKeeps M s0 (execStalledAccessComplete s) := by
  unfold execStalledAccessComplete
  split
  · exact OutKeeps.next hk
  · dsimp only
    split
    · exact OutKeeps.next (regWrite_keeps _ _ _ _ hk.upd_bus)
    · exact OutKeeps.next (regRead_keeps _ _ _ hk.upd_bus)

end Sys2Proof.Machine
end

