-- ==== Sys2Proof/Laws/KeepPhysOps.lean ====
section
/-! SUPPORT. Every operation of Machine/PhysOps.lean leaves what `Keeps` says. -/

set_option Elab.async false

namespace Sys2Proof.Machine

theorem physRead_keeps {M : Nat} {s0 : State} (req a n : Nat) {s : State} (hk : Keeps M s0 s) (hM : Sub 67108855 M := by exact ‹Sub _ M›.of rfl) :
    Keeps M s0 (physRead req a n s).2 := by
  unfold physRead
  try dsimp only
  repeat' (with_reducible first | assumption | exact hM.of rfl | apply Keeps.refl | apply keeps_ite | apply busError_keeps | apply readLine_keeps | refine regRead_keeps_eq (by assumption) ?_ | apply regRead_keeps | apply useFree_keeps | split | apply Keeps.updFree)

theorem physRead_keeps_eq {M : Nat} {s0 : State} {req a n : Nat} {s : State} {v0} {t' : State} (he : physRead req a n s = (v0, t')) (hk : Keeps M s0 s) (hM : Sub 67108855 M := by exact ‹Sub _ M›.of rfl) :
    Keeps M s0 t' := by
  have g : Keeps M s0 (physRead req a n s).2 := by
    with_reducible apply physRead_keeps <;> assumption
  rw [he] at g
  exact g

theorem memWrite_keeps {M : Nat} {s0 : State} (req : Nat) (cached : Bool) (core : Option Nat) (a : Nat) (bs : List Byte) {s : State} (hk : Keeps M s0 s) (hM : Sub 67108855 M := by exact ‹Sub _ M›.of rfl) :
    Keeps M s0 (memWrite req cached core a bs s) := by
  unfold memWrite
  try dsimp only
  repeat' (with_reducible first | assumption | exact hM.of rfl | apply Keeps.refl | apply keeps_ite | apply narrowWrite_keeps | apply writeSpace_keeps | refine OutKeeps.get (execNarrowWrite_keeps _ _ _ _ _ ?_) (by assumption) | split | intro _)

theorem physWrite_keeps {M : Nat} {s0 : State} (req : Nat) (cached : Bool) (core : Option Nat) (a : Nat) (bs : List Byte) {s : State} (hk : Keeps M s0 s) (hM : Sub 67108855 M := by exact ‹Sub _ M›.of rfl) :
    Keeps M s0 (physWrite req cached core a bs s).2 := by
  unfold physWrite
  try dsimp only
  repeat' (with_reducible first | assumption | exact hM.of rfl | apply Keeps.refl | apply keeps_ite | apply busError_keeps | refine OutKeeps.get (execMatchWindowWrite_keeps _ _ _ _ ?_) (by assumption) | apply memWrite_keeps | refine regWrite_keeps_eq (by assumption) ?_ | apply regWrite_keeps | split)

theorem physWrite_keeps_eq {M : Nat} {s0 : State} {req : Nat} {cached : Bool} {core : Option Nat} {a : Nat} {bs : List Byte} {s : State} {v0} {t' : State} (he : physWrite req cached core a bs s = (v0, t')) (hk : Keeps M s0 s) (hM : Sub 67108855 M := by exact ‹Sub _ M›.of rfl) :
    Keeps M s0 t' := by
  have g : Keeps M s0 (physWrite req cached core a bs s).2 := by
    with_reducible apply physWrite_keeps <;> assumption
  rw [he] at g
  exact g

theorem markDirty_keeps {M : Nat} {s0 : State} (cluster : Nat) (before : State) (a n : Nat) {s : State} (hk : Keeps M s0 s) (hM : Sub 34603008 M := by exact ‹Sub _ M›.of rfl) :
    Keeps M s0 (markDirty cluster before a n s) := by
  unfold markDirty
  dsimp only
  split
  all_goals exact Keeps.upd_clus_dirty hk

end Sys2Proof.Machine
end

