-- ==== Sys2Proof/Laws/KeepCoreExec.lean ====
section
/-! SUPPORT. Every operation of Machine/CoreExec.lean leaves what `Keeps` says. -/

set_option Elab.async false

namespace Sys2Proof.Machine

/-- The state an effect leaves keeps. -/
def EffKeeps (M : Nat) (s : State) (e : Eff) : Prop :=
  match e with
  | .done t => Keeps M s t
  | .jump _ t => Keeps M s t
  | .went t => Keeps M s t
  | .trap _ _ t => Keeps M s t
  | .stay t => Keeps M s t

theorem EffKeeps.done {M : Nat} {s t : State} (h : Keeps M s t) : EffKeeps M s (.done t) := h

theorem EffKeeps.jump {M : Nat} {s t : State} {a : Word} (h : Keeps M s t) : EffKeeps M s (.jump a t) := h

theorem EffKeeps.went {M : Nat} {s t : State} (h : Keeps M s t) : EffKeeps M s (.went t) := h

theorem EffKeeps.trap {M : Nat} {s t : State} {c : Nat} {a : Word} (h : Keeps M s t) : EffKeeps M s (.trap c a t) := h

theorem EffKeeps.stay {M : Nat} {s t : State} (h : Keeps M s t) : EffKeeps M s (.stay t) := h

theorem EffKeeps.trans {M : Nat} {s t : State} {e : Eff} (h : Keeps M s t) (g : EffKeeps M t e) : EffKeeps M s e := by
  cases e <;> exact Keeps.trans h g

/-- The state an access leaves keeps. -/
def MemKeeps {α : Type} (M : Nat) (s : State) (m : Mem α) : Prop :=
  match m with
  | .ok _ t => Keeps M s t
  | .trap _ t => Keeps M s t
  | .watch _ => True
  | .waits => True

theorem MemKeeps.ok {α : Type} {M : Nat} {s t : State} {a : α} (h : Keeps M s t) : MemKeeps M s (.ok a t) := h

theorem MemKeeps.trap {α : Type} {M : Nat} {s t : State} {c : Nat} (h : Keeps M s t) : MemKeeps M s (.trap c t : Mem α) := h

theorem MemKeeps.watch {α : Type} {M : Nat} {s : State} {i : Nat} : MemKeeps M s (.watch i : Mem α) := trivial

theorem MemKeeps.waits {α : Type} {M : Nat} {s : State} : MemKeeps M s (.waits : Mem α) := trivial

theorem finish_keeps {M : Nat} {s0 : State} (k : Nat) (w : Half) {e : Eff} (he : EffKeeps M s0 e) (hM : Sub 4983013 M := by exact ‹Sub _ M›.of rfl) : Keeps M s0 (finish k w e) := by
  cases e
  · exact afterStep_keeps _ (retire_keeps _ (setPc_keeps _ _ he))
  · exact afterStep_keeps _ (retire_keeps _ (setPc_keeps _ _ he))
  · exact afterStep_keeps _ (retire_keeps _ he)
  · exact takeTrap_keeps _ _ _ _ he
  · exact he

theorem reserved_keeps {M : Nat} {s0 : State} {s : State} (hk : Keeps M s0 s) (hM : Sub 0 M := by exact ‹Sub _ M›.of rfl) :
    EffKeeps M s0 (reserved s) := by
  unfold reserved
  try dsimp only
  repeat' (with_reducible first | assumption | exact hM.of rfl | apply Keeps.refl | apply keeps_ite | apply EffKeeps.done | apply EffKeeps.jump | apply EffKeeps.went | apply EffKeeps.trap)

theorem putG_keeps {M : Nat} {s0 : State} (k r : Nat) (v : Word) {s : State} (hk : Keeps M s0 s) (hM : Sub 524288 M := by exact ‹Sub _ M›.of rfl) :
    EffKeeps M s0 (putG k r v s) := by
  unfold putG
  try dsimp only
  repeat' (with_reducible first | assumption | exact hM.of rfl | apply Keeps.refl | apply keeps_ite | apply setG_keeps | apply EffKeeps.done | apply EffKeeps.jump | apply EffKeeps.went | apply EffKeeps.trap | apply EffKeeps.stay | apply MemKeeps.ok | apply MemKeeps.trap | apply MemKeeps.watch | apply MemKeeps.waits | split)

theorem tlbPut_keeps {M : Nat} {s0 : State} (k : Nat) (t : TlbEnt) {s : State} (hk : Keeps M s0 s) (hM : Sub 524289 M := by exact ‹Sub _ M›.of rfl) :
    Keeps M s0 (tlbPut k t s) := by
  unfold tlbPut
  try dsimp only
  repeat' (with_reducible first | assumption | exact hM.of rfl | apply Keeps.refl | apply keeps_ite | apply setCore_keeps)

theorem useLeaf_keeps {M : Nat} {s0 : State} (k va : Nat) (acc : Access) (t : TlbEnt) {s : State} (hk : Keeps M s0 s) (hM : Sub 34078723 M := by exact ‹Sub _ M›.of rfl) :
    Keeps M s0 (useLeaf k va acc t s).2 := by
  unfold useLeaf
  try dsimp only
  repeat' (with_reducible first | assumption | exact hM.of rfl | apply Keeps.refl | apply keeps_ite | apply tlbPut_keeps | apply wrBytes_keeps | apply EffKeeps.done | apply EffKeeps.jump | apply EffKeeps.went | apply EffKeeps.trap | apply EffKeeps.stay | apply MemKeeps.ok | apply MemKeeps.trap | apply MemKeeps.watch | apply MemKeeps.waits | split)

theorem useLeaf_keeps_eq {M : Nat} {s0 : State} {k va : Nat} {acc : Access} {t : TlbEnt} {s : State} {v0} {t' : State} (he : useLeaf k va acc t s = (v0, t')) (hk : Keeps M s0 s) (hM : Sub 34078723 M := by exact ‹Sub _ M›.of rfl) :
    Keeps M s0 t' := by
  have g : Keeps M s0 (useLeaf k va acc t s).2 := by
    with_reducible apply useLeaf_keeps <;> assumption
  rw [he] at g
  exact g

theorem tableXlate_keeps {M : Nat} {s0 : State} (k va : Nat) (acc : Access) {s : State} (hk : Keeps M s0 s) (hM : Sub 34078723 M := by exact ‹Sub _ M›.of rfl) :
    Keeps M s0 (tableXlate k va acc s).2 := by
  unfold tableXlate
  try dsimp only
  repeat' (with_reducible first | assumption | exact hM.of rfl | apply Keeps.refl | apply keeps_ite | refine useLeaf_keeps_eq (by assumption) ?_ | apply useLeaf_keeps | apply EffKeeps.done | apply EffKeeps.jump | apply EffKeeps.went | apply EffKeeps.trap | apply EffKeeps.stay | apply MemKeeps.ok | apply MemKeeps.trap | apply MemKeeps.watch | apply MemKeeps.waits | split)

theorem tableXlate_keeps_eq {M : Nat} {s0 : State} {k va : Nat} {acc : Access} {s : State} {v0} {t' : State} (he : tableXlate k va acc s = (v0, t')) (hk : Keeps M s0 s) (hM : Sub 34078723 M := by exact ‹Sub _ M›.of rfl) :
    Keeps M s0 t' := by
  have g : Keeps M s0 (tableXlate k va acc s).2 := by
    with_reducible apply tableXlate_keeps <;> assumption
  rw [he] at g
  exact g

theorem translate_keeps {M : Nat} {s0 : State} (k : Nat) (ea : Word) (n : Nat) (acc : Access) {s : State} (hk : Keeps M s0 s) (hM : Sub 34078723 M := by exact ‹Sub _ M›.of rfl) :
    Keeps M s0 (translate k ea n acc s).2 := by
  unfold translate
  try dsimp only
  repeat' (with_reducible first | assumption | exact hM.of rfl | apply Keeps.refl | apply keeps_ite | refine tableXlate_keeps_eq (by assumption) ?_ | apply tableXlate_keeps | apply EffKeeps.done | apply EffKeeps.jump | apply EffKeeps.went | apply EffKeeps.trap | apply EffKeeps.stay | apply MemKeeps.ok | apply MemKeeps.trap | apply MemKeeps.watch | apply MemKeeps.waits | split | intro _)

theorem translate_keeps_eq {M : Nat} {s0 : State} {k : Nat} {ea : Word} {n : Nat} {acc : Access} {s : State} {v0} {t' : State} (he : translate k ea n acc s = (v0, t')) (hk : Keeps M s0 s) (hM : Sub 34078723 M := by exact ‹Sub _ M›.of rfl) :
    Keeps M s0 t' := by
  have g : Keeps M s0 (translate k ea n acc s).2 := by
    with_reducible apply translate_keeps <;> assumption
  rw [he] at g
  exact g

theorem translate2_keeps {M : Nat} {s0 : State} (k : Nat) (ea : Word) (n : Nat) (acc : Access) {s : State} (hk : Keeps M s0 s) (hM : Sub 34078723 M := by exact ‹Sub _ M›.of rfl) :
    Keeps M s0 (translate2 k ea n acc s).2 := by
  unfold translate2
  try dsimp only
  repeat' (with_reducible first | assumption | exact hM.of rfl | apply Keeps.refl | apply keeps_ite | refine translate_keeps_eq (by assumption) ?_ | apply translate_keeps | apply EffKeeps.done | apply EffKeeps.jump | apply EffKeeps.went | apply EffKeeps.trap | apply EffKeeps.stay | apply MemKeeps.ok | apply MemKeeps.trap | apply MemKeeps.watch | apply MemKeeps.waits | split | intro _)

theorem translate2_keeps_eq {M : Nat} {s0 : State} {k : Nat} {ea : Word} {n : Nat} {acc : Access} {s : State} {v0} {t' : State} (he : translate2 k ea n acc s = (v0, t')) (hk : Keeps M s0 s) (hM : Sub 34078723 M := by exact ‹Sub _ M›.of rfl) :
    Keeps M s0 t' := by
  have g : Keeps M s0 (translate2 k ea n acc s).2 := by
    with_reducible apply translate2_keeps <;> assumption
  rw [he] at g
  exact g

theorem loadBytes_keeps {M : Nat} {s0 : State} (k : Nat) (ea : Word) (n : Nat) {s : State} (hk : Keeps M s0 s) (hM : Sub 67108855 M := by exact ‹Sub _ M›.of rfl) :
    MemKeeps M s0 (loadBytes k ea n s) := by
  unfold loadBytes
  try dsimp only
  repeat' (with_reducible first | assumption | exact hM.of rfl | apply Keeps.refl | apply keeps_ite | refine physRead_keeps_eq (by assumption) ?_ | apply physRead_keeps | refine translate2_keeps_eq (by assumption) ?_ | apply translate2_keeps | apply EffKeeps.done | apply EffKeeps.jump | apply EffKeeps.went | apply EffKeeps.trap | apply EffKeeps.stay | apply MemKeeps.ok | apply MemKeeps.trap | apply MemKeeps.watch | apply MemKeeps.waits | split | intro _)

theorem storePart_keeps {M : Nat} {s0 : State} (k a : Nat) (cached : Bool) (bs : List Byte) {s : State} (hk : Keeps M s0 s) (hM : Sub 67108855 M := by exact ‹Sub _ M›.of rfl) :
    Keeps M s0 (storePart k a cached bs s).2 := by
  unfold storePart
  try dsimp only
  repeat' (with_reducible first | assumption | exact hM.of rfl | apply Keeps.refl | apply keeps_ite | apply markDirty_keeps | refine physWrite_keeps_eq (by assumption) ?_ | apply physWrite_keeps | apply EffKeeps.done | apply EffKeeps.jump | apply EffKeeps.went | apply EffKeeps.trap | apply EffKeeps.stay | apply MemKeeps.ok | apply MemKeeps.trap | apply MemKeeps.watch | apply MemKeeps.waits | split)

theorem storePart_keeps_eq {M : Nat} {s0 : State} {k a : Nat} {cached : Bool} {bs : List Byte} {s : State} {v0} {t' : State} (he : storePart k a cached bs s = (v0, t')) (hk : Keeps M s0 s) (hM : Sub 67108855 M := by exact ‹Sub _ M›.of rfl) :
    Keeps M s0 t' := by
  have g : Keeps M s0 (storePart k a cached bs s).2 := by
    with_reducible apply storePart_keeps <;> assumption
  rw [he] at g
  exact g

theorem storeBytes_keeps {M : Nat} {s0 : State} (k : Nat) (ea : Word) (bs : List Byte) {s : State} (hk : Keeps M s0 s) (hM : Sub 67108855 M := by exact ‹Sub _ M›.of rfl) :
    MemKeeps M s0 (storeBytes k ea bs s) := by
  unfold storeBytes
  try dsimp only
  repeat' (with_reducible first | assumption | exact hM.of rfl | apply Keeps.refl | apply keeps_ite | refine storePart_keeps_eq (by assumption) ?_ | apply storePart_keeps | refine translate2_keeps_eq (by assumption) ?_ | apply translate2_keeps | apply EffKeeps.done | apply EffKeeps.jump | apply EffKeeps.went | apply EffKeeps.trap | apply EffKeeps.stay | apply MemKeeps.ok | apply MemKeeps.trap | apply MemKeeps.watch | apply MemKeeps.waits | split | intro _)

theorem withMem_keeps {M : Nat} {s0 : State} {α : Type} (k : Nat) (ea : Word) {s : State} (m : Mem α) (f : α → State → Eff) (hk : Keeps M s0 s) (hm : MemKeeps M s0 m) (hf : ∀ x0 t, EffKeeps M t (f x0 t)) (hM : Sub 4980965 M := by exact ‹Sub _ M›.of rfl) :
    EffKeeps M s0 (withMem k ea s m f) := by
  cases m
  · exact EffKeeps.trans hm (hf _ _)
  · exact hm
  · exact haltCore_keeps _ _ _ hk
  · exact hk

theorem fetchCheck_keeps {M : Nat} {s0 : State} (k : Nat) {s : State} (hk : Keeps M s0 s) (hM : Sub 34078723 M := by exact ‹Sub _ M›.of rfl) :
    Keeps M s0 (fetchCheck k s).2 := by
  unfold fetchCheck
  try dsimp only
  repeat' (with_reducible first | assumption | exact hM.of rfl | apply Keeps.refl | apply keeps_ite | refine translate_keeps_eq (by assumption) ?_ | apply translate_keeps | apply EffKeeps.done | apply EffKeeps.jump | apply EffKeeps.went | apply EffKeeps.trap | apply EffKeeps.stay | apply MemKeeps.ok | apply MemKeeps.trap | apply MemKeeps.watch | apply MemKeeps.waits | split)

theorem fetchCheck_keeps_eq {M : Nat} {s0 : State} {k : Nat} {s : State} {v0} {t' : State} (he : fetchCheck k s = (v0, t')) (hk : Keeps M s0 s) (hM : Sub 34078723 M := by exact ‹Sub _ M›.of rfl) :
    Keeps M s0 t' := by
  have g : Keeps M s0 (fetchCheck k s).2 := by
    with_reducible apply fetchCheck_keeps <;> assumption
  rw [he] at g
  exact g

theorem awake_keeps {M : Nat} {s0 : State} (k : Nat) {s : State} (hk : Keeps M s0 s) (hM : Sub 524289 M := by exact ‹Sub _ M›.of rfl) :
    Keeps M s0 (awake k s) := by
  unfold awake
  try dsimp only
  repeat' (with_reducible first | assumption | exact hM.of rfl | apply Keeps.refl | apply keeps_ite | apply setCore_keeps)

theorem runInstr_keeps {M : Nat} {s0 : State} (k : Nat) (w : Half) (mine : Bool) (body : State → Eff) {s : State} (hk : Keeps M s0 s) (hbody : ∀ t, EffKeeps M t (body t)) (hM : Sub 38537447 M := by exact ‹Sub _ M›.of rfl) :
    Keeps M s0 (runInstr k w mine body s) := by
  unfold runInstr
  try dsimp only
  repeat' (with_reducible first | assumption | exact hM.of rfl | apply Keeps.refl | apply keeps_ite | apply awake_keeps | refine fetchCheck_keeps_eq (by assumption) ?_ | apply fetchCheck_keeps | apply haltCore_keeps | apply takeTrap_keeps | refine EffKeeps.trans ?_ (hbody _) | apply finish_keeps | apply EffKeeps.done | apply EffKeeps.jump | apply EffKeeps.went | apply EffKeeps.trap | apply EffKeeps.stay | apply MemKeeps.ok | apply MemKeeps.trap | apply MemKeeps.watch | apply MemKeeps.waits | split)

end Sys2Proof.Machine
end

