-- ==== Sys2Proof/Laws/KeepAluRows.lean ====
section
/-! SUPPORT. Every operation of Machine/AluRows.lean leaves what `Keeps` says. -/

set_option Elab.async false

namespace Sys2Proof.Machine

theorem alu3_keeps {M : Nat} {s0 : State} (k : Nat) (w : Half) (maj fn : Nat) (usesB : Bool) (f : Word → Word → Word) {s : State} (hk : Keeps M s0 s) (hM : Sub 38537447 M := by exact ‹Sub _ M›.of rfl) :
    Keeps M s0 (alu3 k w maj fn usesB f s) := by
  unfold alu3
  try dsimp only
  repeat' (with_reducible first | assumption | exact hM.of rfl | apply Keeps.refl | apply keeps_ite | apply putG_keeps | apply reserved_keeps | apply runInstr_keeps | apply EffKeeps.done | apply EffKeeps.jump | apply EffKeeps.went | apply EffKeeps.trap | apply EffKeeps.stay | apply MemKeeps.ok | apply MemKeeps.trap | apply MemKeeps.watch | apply MemKeeps.waits | split | intro _)

theorem immOp_keeps {M : Nat} {s0 : State} (k : Nat) (w : Half) (maj : Nat) (bad : Bool) (f : Word → Word) {s : State} (hk : Keeps M s0 s) (hM : Sub 38537447 M := by exact ‹Sub _ M›.of rfl) :
    Keeps M s0 (immOp k w maj bad f s) := by
  unfold immOp
  try dsimp only
  repeat' (with_reducible first | assumption | exact hM.of rfl | apply Keeps.refl | apply keeps_ite | apply putG_keeps | apply reserved_keeps | apply runInstr_keeps | apply EffKeeps.done | apply EffKeeps.jump | apply EffKeeps.went | apply EffKeeps.trap | apply EffKeeps.stay | apply MemKeeps.ok | apply MemKeeps.trap | apply MemKeeps.watch | apply MemKeeps.waits | split | intro _)

theorem divRow_keeps {M : Nat} {s0 : State} (k : Nat) (w : Half) (fn : Nat) (f : Word → Word → Word) {s : State} (hk : Keeps M s0 s) (hM : Sub 38537447 M := by exact ‹Sub _ M›.of rfl) :
    Keeps M s0 (divRow k w fn f s) := by
  unfold divRow
  try dsimp only
  repeat' (with_reducible first | assumption | exact hM.of rfl | apply Keeps.refl | apply keeps_ite | apply alu3_keeps | apply reserved_keeps | apply runInstr_keeps | apply EffKeeps.done | apply EffKeeps.jump | apply EffKeeps.went | apply EffKeeps.trap | apply EffKeeps.stay | apply MemKeeps.ok | apply MemKeeps.trap | apply MemKeeps.watch | apply MemKeeps.waits | split | intro _)

theorem execAdd_keeps {M : Nat} {s0 : State} (k : Nat) (w : Half) {s : State} (hk : Keeps M s0 s) (hM : Sub 38537447 M := by exact ‹Sub _ M›.of rfl) :
    OutKeeps M s0 (execAdd k w s) := by
  unfold execAdd
  try dsimp only
  repeat' (with_reducible first | assumption | exact hM.of rfl | apply Keeps.refl | apply outKeeps_ite | apply keeps_ite | apply OutKeeps.next | apply alu3_keeps)

theorem execSub_keeps {M : Nat} {s0 : State} (k : Nat) (w : Half) {s : State} (hk : Keeps M s0 s) (hM : Sub 38537447 M := by exact ‹Sub _ M›.of rfl) :
    OutKeeps M s0 (execSub k w s) := by
  unfold execSub
  try dsimp only
  repeat' (with_reducible first | assumption | exact hM.of rfl | apply Keeps.refl | apply outKeeps_ite | apply keeps_ite | apply OutKeeps.next | apply alu3_keeps)

theorem execAnd_keeps {M : Nat} {s0 : State} (k : Nat) (w : Half) {s : State} (hk : Keeps M s0 s) (hM : Sub 38537447 M := by exact ‹Sub _ M›.of rfl) :
    OutKeeps M s0 (execAnd k w s) := by
  unfold execAnd
  try dsimp only
  repeat' (with_reducible first | assumption | exact hM.of rfl | apply Keeps.refl | apply outKeeps_ite | apply keeps_ite | apply OutKeeps.next | apply alu3_keeps)

theorem execOr_keeps {M : Nat} {s0 : State} (k : Nat) (w : Half) {s : State} (hk : Keeps M s0 s) (hM : Sub 38537447 M := by exact ‹Sub _ M›.of rfl) :
    OutKeeps M s0 (execOr k w s) := by
  unfold execOr
  try dsimp only
  repeat' (with_reducible first | assumption | exact hM.of rfl | apply Keeps.refl | apply outKeeps_ite | apply keeps_ite | apply OutKeeps.next | apply alu3_keeps)

theorem execXor_keeps {M : Nat} {s0 : State} (k : Nat) (w : Half) {s : State} (hk : Keeps M s0 s) (hM : Sub 38537447 M := by exact ‹Sub _ M›.of rfl) :
    OutKeeps M s0 (execXor k w s) := by
  unfold execXor
  try dsimp only
  repeat' (with_reducible first | assumption | exact hM.of rfl | apply Keeps.refl | apply outKeeps_ite | apply keeps_ite | apply OutKeeps.next | apply alu3_keeps)

theorem execAndn_keeps {M : Nat} {s0 : State} (k : Nat) (w : Half) {s : State} (hk : Keeps M s0 s) (hM : Sub 38537447 M := by exact ‹Sub _ M›.of rfl) :
    OutKeeps M s0 (execAndn k w s) := by
  unfold execAndn
  try dsimp only
  repeat' (with_reducible first | assumption | exact hM.of rfl | apply Keeps.refl | apply outKeeps_ite | apply keeps_ite | apply OutKeeps.next | apply alu3_keeps)

theorem execOrn_keeps {M : Nat} {s0 : State} (k : Nat) (w : Half) {s : State} (hk : Keeps M s0 s) (hM : Sub 38537447 M := by exact ‹Sub _ M›.of rfl) :
    OutKeeps M s0 (execOrn k w s) := by
  unfold execOrn
  try dsimp only
  repeat' (with_reducible first | assumption | exact hM.of rfl | apply Keeps.refl | apply outKeeps_ite | apply keeps_ite | apply OutKeeps.next | apply alu3_keeps)

theorem execSll_keeps {M : Nat} {s0 : State} (k : Nat) (w : Half) {s : State} (hk : Keeps M s0 s) (hM : Sub 38537447 M := by exact ‹Sub _ M›.of rfl) :
    OutKeeps M s0 (execSll k w s) := by
  unfold execSll
  try dsimp only
  repeat' (with_reducible first | assumption | exact hM.of rfl | apply Keeps.refl | apply outKeeps_ite | apply keeps_ite | apply OutKeeps.next | apply alu3_keeps)

theorem execSrl_keeps {M : Nat} {s0 : State} (k : Nat) (w : Half) {s : State} (hk : Keeps M s0 s) (hM : Sub 38537447 M := by exact ‹Sub _ M›.of rfl) :
    OutKeeps M s0 (execSrl k w s) := by
  unfold execSrl
  try dsimp only
  repeat' (with_reducible first | assumption | exact hM.of rfl | apply Keeps.refl | apply outKeeps_ite | apply keeps_ite | apply OutKeeps.next | apply alu3_keeps)

theorem execSra_keeps {M : Nat} {s0 : State} (k : Nat) (w : Half) {s : State} (hk : Keeps M s0 s) (hM : Sub 38537447 M := by exact ‹Sub _ M›.of rfl) :
    OutKeeps M s0 (execSra k w s) := by
  unfold execSra
  try dsimp only
  repeat' (with_reducible first | assumption | exact hM.of rfl | apply Keeps.refl | apply outKeeps_ite | apply keeps_ite | apply OutKeeps.next | apply alu3_keeps)

theorem execRor_keeps {M : Nat} {s0 : State} (k : Nat) (w : Half) {s : State} (hk : Keeps M s0 s) (hM : Sub 38537447 M := by exact ‹Sub _ M›.of rfl) :
    OutKeeps M s0 (execRor k w s) := by
  unfold execRor
  try dsimp only
  repeat' (with_reducible first | assumption | exact hM.of rfl | apply Keeps.refl | apply outKeeps_ite | apply keeps_ite | apply OutKeeps.next | apply alu3_keeps)

theorem execAddw_keeps {M : Nat} {s0 : State} (k : Nat) (w : Half) {s : State} (hk : Keeps M s0 s) (hM : Sub 38537447 M := by exact ‹Sub _ M›.of rfl) :
    OutKeeps M s0 (execAddw k w s) := by
  unfold execAddw
  try dsimp only
  repeat' (with_reducible first | assumption | exact hM.of rfl | apply Keeps.refl | apply outKeeps_ite | apply keeps_ite | apply OutKeeps.next | apply alu3_keeps)

theorem execSubw_keeps {M : Nat} {s0 : State} (k : Nat) (w : Half) {s : State} (hk : Keeps M s0 s) (hM : Sub 38537447 M := by exact ‹Sub _ M›.of rfl) :
    OutKeeps M s0 (execSubw k w s) := by
  unfold execSubw
  try dsimp only
  repeat' (with_reducible first | assumption | exact hM.of rfl | apply Keeps.refl | apply outKeeps_ite | apply keeps_ite | apply OutKeeps.next | apply alu3_keeps)

theorem execSllw_keeps {M : Nat} {s0 : State} (k : Nat) (w : Half) {s : State} (hk : Keeps M s0 s) (hM : Sub 38537447 M := by exact ‹Sub _ M›.of rfl) :
    OutKeeps M s0 (execSllw k w s) := by
  unfold execSllw
  try dsimp only
  repeat' (with_reducible first | assumption | exact hM.of rfl | apply Keeps.refl | apply outKeeps_ite | apply keeps_ite | apply OutKeeps.next | apply alu3_keeps)

theorem execSrlw_keeps {M : Nat} {s0 : State} (k : Nat) (w : Half) {s : State} (hk : Keeps M s0 s) (hM : Sub 38537447 M := by exact ‹Sub _ M›.of rfl) :
    OutKeeps M s0 (execSrlw k w s) := by
  unfold execSrlw
  try dsimp only
  repeat' (with_reducible first | assumption | exact hM.of rfl | apply Keeps.refl | apply outKeeps_ite | apply keeps_ite | apply OutKeeps.next | apply alu3_keeps)

theorem execSraw_keeps {M : Nat} {s0 : State} (k : Nat) (w : Half) {s : State} (hk : Keeps M s0 s) (hM : Sub 38537447 M := by exact ‹Sub _ M›.of rfl) :
    OutKeeps M s0 (execSraw k w s) := by
  unfold execSraw
  try dsimp only
  repeat' (with_reducible first | assumption | exact hM.of rfl | apply Keeps.refl | apply outKeeps_ite | apply keeps_ite | apply OutKeeps.next | apply alu3_keeps)

theorem execMul_keeps {M : Nat} {s0 : State} (k : Nat) (w : Half) {s : State} (hk : Keeps M s0 s) (hM : Sub 38537447 M := by exact ‹Sub _ M›.of rfl) :
    OutKeeps M s0 (execMul k w s) := by
  unfold execMul
  try dsimp only
  repeat' (with_reducible first | assumption | exact hM.of rfl | apply Keeps.refl | apply outKeeps_ite | apply keeps_ite | apply OutKeeps.next | apply alu3_keeps)

theorem execMulh_keeps {M : Nat} {s0 : State} (k : Nat) (w : Half) {s : State} (hk : Keeps M s0 s) (hM : Sub 38537447 M := by exact ‹Sub _ M›.of rfl) :
    OutKeeps M s0 (execMulh k w s) := by
  unfold execMulh
  try dsimp only
  repeat' (with_reducible first | assumption | exact hM.of rfl | apply Keeps.refl | apply outKeeps_ite | apply keeps_ite | apply OutKeeps.next | apply alu3_keeps)

theorem execMulhu_keeps {M : Nat} {s0 : State} (k : Nat) (w : Half) {s : State} (hk : Keeps M s0 s) (hM : Sub 38537447 M := by exact ‹Sub _ M›.of rfl) :
    OutKeeps M s0 (execMulhu k w s) := by
  unfold execMulhu
  try dsimp only
  repeat' (with_reducible first | assumption | exact hM.of rfl | apply Keeps.refl | apply outKeeps_ite | apply keeps_ite | apply OutKeeps.next | apply alu3_keeps)

theorem execMulw_keeps {M : Nat} {s0 : State} (k : Nat) (w : Half) {s : State} (hk : Keeps M s0 s) (hM : Sub 38537447 M := by exact ‹Sub _ M›.of rfl) :
    OutKeeps M s0 (execMulw k w s) := by
  unfold execMulw
  try dsimp only
  repeat' (with_reducible first | assumption | exact hM.of rfl | apply Keeps.refl | apply outKeeps_ite | apply keeps_ite | apply OutKeeps.next | apply alu3_keeps)

theorem execDiv_keeps {M : Nat} {s0 : State} (k : Nat) (w : Half) {s : State} (hk : Keeps M s0 s) (hM : Sub 38537447 M := by exact ‹Sub _ M›.of rfl) :
    OutKeeps M s0 (execDiv k w s) := by
  unfold execDiv
  try dsimp only
  repeat' (with_reducible first | assumption | exact hM.of rfl | apply Keeps.refl | apply outKeeps_ite | apply keeps_ite | apply OutKeeps.next | apply divRow_keeps)

theorem execDivu_keeps {M : Nat} {s0 : State} (k : Nat) (w : Half) {s : State} (hk : Keeps M s0 s) (hM : Sub 38537447 M := by exact ‹Sub _ M›.of rfl) :
    OutKeeps M s0 (execDivu k w s) := by
  unfold execDivu
  try dsimp only
  repeat' (with_reducible first | assumption | exact hM.of rfl | apply Keeps.refl | apply outKeeps_ite | apply keeps_ite | apply OutKeeps.next | apply divRow_keeps)

theorem execRem_keeps {M : Nat} {s0 : State} (k : Nat) (w : Half) {s : State} (hk : Keeps M s0 s) (hM : Sub 38537447 M := by exact ‹Sub _ M›.of rfl) :
    OutKeeps M s0 (execRem k w s) := by
  unfold execRem
  try dsimp only
  repeat' (with_reducible first | assumption | exact hM.of rfl | apply Keeps.refl | apply outKeeps_ite | apply keeps_ite | apply OutKeeps.next | apply divRow_keeps)

theorem execRemu_keeps {M : Nat} {s0 : State} (k : Nat) (w : Half) {s : State} (hk : Keeps M s0 s) (hM : Sub 38537447 M := by exact ‹Sub _ M›.of rfl) :
    OutKeeps M s0 (execRemu k w s) := by
  unfold execRemu
  try dsimp only
  repeat' (with_reducible first | assumption | exact hM.of rfl | apply Keeps.refl | apply outKeeps_ite | apply keeps_ite | apply OutKeeps.next | apply divRow_keeps)

theorem execClz_keeps {M : Nat} {s0 : State} (k : Nat) (w : Half) {s : State} (hk : Keeps M s0 s) (hM : Sub 38537447 M := by exact ‹Sub _ M›.of rfl) :
    OutKeeps M s0 (execClz k w s) := by
  unfold execClz
  try dsimp only
  repeat' (with_reducible first | assumption | exact hM.of rfl | apply Keeps.refl | apply outKeeps_ite | apply keeps_ite | apply OutKeeps.next | apply alu3_keeps)

theorem execCtz_keeps {M : Nat} {s0 : State} (k : Nat) (w : Half) {s : State} (hk : Keeps M s0 s) (hM : Sub 38537447 M := by exact ‹Sub _ M›.of rfl) :
    OutKeeps M s0 (execCtz k w s) := by
  unfold execCtz
  try dsimp only
  repeat' (with_reducible first | assumption | exact hM.of rfl | apply Keeps.refl | apply outKeeps_ite | apply keeps_ite | apply OutKeeps.next | apply alu3_keeps)

theorem execPopc_keeps {M : Nat} {s0 : State} (k : Nat) (w : Half) {s : State} (hk : Keeps M s0 s) (hM : Sub 38537447 M := by exact ‹Sub _ M›.of rfl) :
    OutKeeps M s0 (execPopc k w s) := by
  unfold execPopc
  try dsimp only
  repeat' (with_reducible first | assumption | exact hM.of rfl | apply Keeps.refl | apply outKeeps_ite | apply keeps_ite | apply OutKeeps.next | apply alu3_keeps)

theorem execBswap_keeps {M : Nat} {s0 : State} (k : Nat) (w : Half) {s : State} (hk : Keeps M s0 s) (hM : Sub 38537447 M := by exact ‹Sub _ M›.of rfl) :
    OutKeeps M s0 (execBswap k w s) := by
  unfold execBswap
  try dsimp only
  repeat' (with_reducible first | assumption | exact hM.of rfl | apply Keeps.refl | apply outKeeps_ite | apply keeps_ite | apply OutKeeps.next | apply alu3_keeps)

theorem execSextb_keeps {M : Nat} {s0 : State} (k : Nat) (w : Half) {s : State} (hk : Keeps M s0 s) (hM : Sub 38537447 M := by exact ‹Sub _ M›.of rfl) :
    OutKeeps M s0 (execSextb k w s) := by
  unfold execSextb
  try dsimp only
  repeat' (with_reducible first | assumption | exact hM.of rfl | apply Keeps.refl | apply outKeeps_ite | apply keeps_ite | apply OutKeeps.next | apply alu3_keeps)

theorem execSexth_keeps {M : Nat} {s0 : State} (k : Nat) (w : Half) {s : State} (hk : Keeps M s0 s) (hM : Sub 38537447 M := by exact ‹Sub _ M›.of rfl) :
    OutKeeps M s0 (execSexth k w s) := by
  unfold execSexth
  try dsimp only
  repeat' (with_reducible first | assumption | exact hM.of rfl | apply Keeps.refl | apply outKeeps_ite | apply keeps_ite | apply OutKeeps.next | apply alu3_keeps)

theorem execSextw_keeps {M : Nat} {s0 : State} (k : Nat) (w : Half) {s : State} (hk : Keeps M s0 s) (hM : Sub 38537447 M := by exact ‹Sub _ M›.of rfl) :
    OutKeeps M s0 (execSextw k w s) := by
  unfold execSextw
  try dsimp only
  repeat' (with_reducible first | assumption | exact hM.of rfl | apply Keeps.refl | apply outKeeps_ite | apply keeps_ite | apply OutKeeps.next | apply alu3_keeps)

theorem execZextw_keeps {M : Nat} {s0 : State} (k : Nat) (w : Half) {s : State} (hk : Keeps M s0 s) (hM : Sub 38537447 M := by exact ‹Sub _ M›.of rfl) :
    OutKeeps M s0 (execZextw k w s) := by
  unfold execZextw
  try dsimp only
  repeat' (with_reducible first | assumption | exact hM.of rfl | apply Keeps.refl | apply outKeeps_ite | apply keeps_ite | apply OutKeeps.next | apply alu3_keeps)

theorem execMin_keeps {M : Nat} {s0 : State} (k : Nat) (w : Half) {s : State} (hk : Keeps M s0 s) (hM : Sub 38537447 M := by exact ‹Sub _ M›.of rfl) :
    OutKeeps M s0 (execMin k w s) := by
  unfold execMin
  try dsimp only
  repeat' (with_reducible first | assumption | exact hM.of rfl | apply Keeps.refl | apply outKeeps_ite | apply keeps_ite | apply OutKeeps.next | apply alu3_keeps)

theorem execMax_keeps {M : Nat} {s0 : State} (k : Nat) (w : Half) {s : State} (hk : Keeps M s0 s) (hM : Sub 38537447 M := by exact ‹Sub _ M›.of rfl) :
    OutKeeps M s0 (execMax k w s) := by
  unfold execMax
  try dsimp only
  repeat' (with_reducible first | assumption | exact hM.of rfl | apply Keeps.refl | apply outKeeps_ite | apply keeps_ite | apply OutKeeps.next | apply alu3_keeps)

theorem execMinu_keeps {M : Nat} {s0 : State} (k : Nat) (w : Half) {s : State} (hk : Keeps M s0 s) (hM : Sub 38537447 M := by exact ‹Sub _ M›.of rfl) :
    OutKeeps M s0 (execMinu k w s) := by
  unfold execMinu
  try dsimp only
  repeat' (with_reducible first | assumption | exact hM.of rfl | apply Keeps.refl | apply outKeeps_ite | apply keeps_ite | apply OutKeeps.next | apply alu3_keeps)

theorem execMaxu_keeps {M : Nat} {s0 : State} (k : Nat) (w : Half) {s : State} (hk : Keeps M s0 s) (hM : Sub 38537447 M := by exact ‹Sub _ M›.of rfl) :
    OutKeeps M s0 (execMaxu k w s) := by
  unfold execMaxu
  try dsimp only
  repeat' (with_reducible first | assumption | exact hM.of rfl | apply Keeps.refl | apply outKeeps_ite | apply keeps_ite | apply OutKeeps.next | apply alu3_keeps)

theorem execCmpeq_keeps {M : Nat} {s0 : State} (k : Nat) (w : Half) {s : State} (hk : Keeps M s0 s) (hM : Sub 38537447 M := by exact ‹Sub _ M›.of rfl) :
    OutKeeps M s0 (execCmpeq k w s) := by
  unfold execCmpeq
  try dsimp only
  repeat' (with_reducible first | assumption | exact hM.of rfl | apply Keeps.refl | apply outKeeps_ite | apply keeps_ite | apply OutKeeps.next | apply alu3_keeps)

theorem execCmpne_keeps {M : Nat} {s0 : State} (k : Nat) (w : Half) {s : State} (hk : Keeps M s0 s) (hM : Sub 38537447 M := by exact ‹Sub _ M›.of rfl) :
    OutKeeps M s0 (execCmpne k w s) := by
  unfold execCmpne
  try dsimp only
  repeat' (with_reducible first | assumption | exact hM.of rfl | apply Keeps.refl | apply outKeeps_ite | apply keeps_ite | apply OutKeeps.next | apply alu3_keeps)

theorem execCmplt_keeps {M : Nat} {s0 : State} (k : Nat) (w : Half) {s : State} (hk : Keeps M s0 s) (hM : Sub 38537447 M := by exact ‹Sub _ M›.of rfl) :
    OutKeeps M s0 (execCmplt k w s) := by
  unfold execCmplt
  try dsimp only
  repeat' (with_reducible first | assumption | exact hM.of rfl | apply Keeps.refl | apply outKeeps_ite | apply keeps_ite | apply OutKeeps.next | apply alu3_keeps)

theorem execCmpltu_keeps {M : Nat} {s0 : State} (k : Nat) (w : Half) {s : State} (hk : Keeps M s0 s) (hM : Sub 38537447 M := by exact ‹Sub _ M›.of rfl) :
    OutKeeps M s0 (execCmpltu k w s) := by
  unfold execCmpltu
  try dsimp only
  repeat' (with_reducible first | assumption | exact hM.of rfl | apply Keeps.refl | apply outKeeps_ite | apply keeps_ite | apply OutKeeps.next | apply alu3_keeps)

theorem execCmple_keeps {M : Nat} {s0 : State} (k : Nat) (w : Half) {s : State} (hk : Keeps M s0 s) (hM : Sub 38537447 M := by exact ‹Sub _ M›.of rfl) :
    OutKeeps M s0 (execCmple k w s) := by
  unfold execCmple
  try dsimp only
  repeat' (with_reducible first | assumption | exact hM.of rfl | apply Keeps.refl | apply outKeeps_ite | apply keeps_ite | apply OutKeeps.next | apply alu3_keeps)

theorem execCmpleu_keeps {M : Nat} {s0 : State} (k : Nat) (w : Half) {s : State} (hk : Keeps M s0 s) (hM : Sub 38537447 M := by exact ‹Sub _ M›.of rfl) :
    OutKeeps M s0 (execCmpleu k w s) := by
  unfold execCmpleu
  try dsimp only
  repeat' (with_reducible first | assumption | exact hM.of rfl | apply Keeps.refl | apply outKeeps_ite | apply keeps_ite | apply OutKeeps.next | apply alu3_keeps)

theorem execSel_keeps {M : Nat} {s0 : State} (k : Nat) (w : Half) {s : State} (hk : Keeps M s0 s) (hM : Sub 38537447 M := by exact ‹Sub _ M›.of rfl) :
    OutKeeps M s0 (execSel k w s) := by
  unfold execSel
  try dsimp only
  repeat' (with_reducible first | assumption | exact hM.of rfl | apply Keeps.refl | apply outKeeps_ite | apply keeps_ite | apply OutKeeps.next | apply putG_keeps | apply runInstr_keeps | apply EffKeeps.done | apply EffKeeps.jump | apply EffKeeps.went | apply EffKeeps.trap | apply EffKeeps.stay | apply MemKeeps.ok | apply MemKeeps.trap | apply MemKeeps.watch | apply MemKeeps.waits | split | intro _)

theorem execAddi_keeps {M : Nat} {s0 : State} (k : Nat) (w : Half) {s : State} (hk : Keeps M s0 s) (hM : Sub 38537447 M := by exact ‹Sub _ M›.of rfl) :
    OutKeeps M s0 (execAddi k w s) := by
  unfold execAddi
  try dsimp only
  repeat' (with_reducible first | assumption | exact hM.of rfl | apply Keeps.refl | apply outKeeps_ite | apply keeps_ite | apply OutKeeps.next | apply immOp_keeps)

theorem execAndi_keeps {M : Nat} {s0 : State} (k : Nat) (w : Half) {s : State} (hk : Keeps M s0 s) (hM : Sub 38537447 M := by exact ‹Sub _ M›.of rfl) :
    OutKeeps M s0 (execAndi k w s) := by
  unfold execAndi
  try dsimp only
  repeat' (with_reducible first | assumption | exact hM.of rfl | apply Keeps.refl | apply outKeeps_ite | apply keeps_ite | apply OutKeeps.next | apply immOp_keeps)

theorem execOri_keeps {M : Nat} {s0 : State} (k : Nat) (w : Half) {s : State} (hk : Keeps M s0 s) (hM : Sub 38537447 M := by exact ‹Sub _ M›.of rfl) :
    OutKeeps M s0 (execOri k w s) := by
  unfold execOri
  try dsimp only
  repeat' (with_reducible first | assumption | exact hM.of rfl | apply Keeps.refl | apply outKeeps_ite | apply keeps_ite | apply OutKeeps.next | apply immOp_keeps)

theorem execXori_keeps {M : Nat} {s0 : State} (k : Nat) (w : Half) {s : State} (hk : Keeps M s0 s) (hM : Sub 38537447 M := by exact ‹Sub _ M›.of rfl) :
    OutKeeps M s0 (execXori k w s) := by
  unfold execXori
  try dsimp only
  repeat' (with_reducible first | assumption | exact hM.of rfl | apply Keeps.refl | apply outKeeps_ite | apply keeps_ite | apply OutKeeps.next | apply immOp_keeps)

theorem execLui_keeps {M : Nat} {s0 : State} (k : Nat) (w : Half) {s : State} (hk : Keeps M s0 s) (hM : Sub 38537447 M := by exact ‹Sub _ M›.of rfl) :
    OutKeeps M s0 (execLui k w s) := by
  unfold execLui
  try dsimp only
  repeat' (with_reducible first | assumption | exact hM.of rfl | apply Keeps.refl | apply outKeeps_ite | apply keeps_ite | apply OutKeeps.next | apply immOp_keeps)

theorem execCmpeqi_keeps {M : Nat} {s0 : State} (k : Nat) (w : Half) {s : State} (hk : Keeps M s0 s) (hM : Sub 38537447 M := by exact ‹Sub _ M›.of rfl) :
    OutKeeps M s0 (execCmpeqi k w s) := by
  unfold execCmpeqi
  try dsimp only
  repeat' (with_reducible first | assumption | exact hM.of rfl | apply Keeps.refl | apply outKeeps_ite | apply keeps_ite | apply OutKeeps.next | apply immOp_keeps)

theorem execCmpnei_keeps {M : Nat} {s0 : State} (k : Nat) (w : Half) {s : State} (hk : Keeps M s0 s) (hM : Sub 38537447 M := by exact ‹Sub _ M›.of rfl) :
    OutKeeps M s0 (execCmpnei k w s) := by
  unfold execCmpnei
  try dsimp only
  repeat' (with_reducible first | assumption | exact hM.of rfl | apply Keeps.refl | apply outKeeps_ite | apply keeps_ite | apply OutKeeps.next | apply immOp_keeps)

theorem execCmplti_keeps {M : Nat} {s0 : State} (k : Nat) (w : Half) {s : State} (hk : Keeps M s0 s) (hM : Sub 38537447 M := by exact ‹Sub _ M›.of rfl) :
    OutKeeps M s0 (execCmplti k w s) := by
  unfold execCmplti
  try dsimp only
  repeat' (with_reducible first | assumption | exact hM.of rfl | apply Keeps.refl | apply outKeeps_ite | apply keeps_ite | apply OutKeeps.next | apply immOp_keeps)

theorem execCmpltui_keeps {M : Nat} {s0 : State} (k : Nat) (w : Half) {s : State} (hk : Keeps M s0 s) (hM : Sub 38537447 M := by exact ‹Sub _ M›.of rfl) :
    OutKeeps M s0 (execCmpltui k w s) := by
  unfold execCmpltui
  try dsimp only
  repeat' (with_reducible first | assumption | exact hM.of rfl | apply Keeps.refl | apply outKeeps_ite | apply keeps_ite | apply OutKeeps.next | apply immOp_keeps)

theorem execShi_keeps {M : Nat} {s0 : State} (k : Nat) (w : Half) {s : State} (hk : Keeps M s0 s) (hM : Sub 38537447 M := by exact ‹Sub _ M›.of rfl) :
    OutKeeps M s0 (execShi k w s) := by
  unfold execShi
  try dsimp only
  repeat' (with_reducible first | assumption | exact hM.of rfl | apply Keeps.refl | apply outKeeps_ite | apply keeps_ite | apply OutKeeps.next | apply immOp_keeps)

theorem execAddpc_keeps {M : Nat} {s0 : State} (k : Nat) (w : Half) {s : State} (hk : Keeps M s0 s) (hM : Sub 38537447 M := by exact ‹Sub _ M›.of rfl) :
    OutKeeps M s0 (execAddpc k w s) := by
  unfold execAddpc
  try dsimp only
  repeat' (with_reducible first | assumption | exact hM.of rfl | apply Keeps.refl | apply outKeeps_ite | apply keeps_ite | apply OutKeeps.next | apply putG_keeps | apply reserved_keeps | apply runInstr_keeps | apply EffKeeps.done | apply EffKeeps.jump | apply EffKeeps.went | apply EffKeeps.trap | apply EffKeeps.stay | apply MemKeeps.ok | apply MemKeeps.trap | apply MemKeeps.watch | apply MemKeeps.waits | split | intro _)

end Sys2Proof.Machine
end

