-- ==== Sys2Proof/Laws/KeepDebugRows.lean ====
section
/-! SUPPORT. Every operation of Machine/DebugRows.lean leaves what `Keeps` says. -/

set_option Elab.async false

namespace Sys2Proof.Machine

theorem updLink_keeps {M : Nat} {s0 : State} (f : DbgLink → DbgLink) {s : State} (hk : Keeps M s0 s) (hM : Sub 8388608 M := by exact ‹Sub _ M›.of rfl) :
    Keeps M s0 (updLink f s) := by
  unfold updLink
  try dsimp only
  repeat' (with_reducible first | assumption | exact hM.of rfl | apply Keeps.refl | apply keeps_ite | split | apply Keeps.upd_bus)

theorem linkSend_keeps {M : Nat} {s0 : State} (code tag : Nat) (data : Option Word) {s : State} (hk : Keeps M s0 s) (hM : Sub 8388609 M := by exact ‹Sub _ M›.of rfl) :
    Keeps M s0 (linkSend code tag data s) := by
  unfold linkSend
  try dsimp only
  repeat' (with_reducible first | assumption | exact hM.of rfl | apply Keeps.refl | apply keeps_ite | apply fset_keeps | apply updLink_keeps)

theorem showLink_keeps {M : Nat} {s0 : State} {s : State} (hk : Keeps M s0 s) (hM : Sub 1 M := by exact ‹Sub _ M›.of rfl) :
    Keeps M s0 (showLink s) := by
  unfold showLink
  try dsimp only
  repeat' (with_reducible first | assumption | exact hM.of rfl | apply Keeps.refl | apply keeps_ite | apply fset_keeps)

theorem linkAccess_keeps {M : Nat} {s0 : State} (x : BusAcc) {s : State} (hk : Keeps M s0 s) (hM : Sub 67108855 M := by exact ‹Sub _ M›.of rfl) :
    Keeps M s0 (linkAccess x s).2 := by
  unfold linkAccess
  try dsimp only
  repeat' (with_reducible first | assumption | exact hM.of rfl | apply Keeps.refl | apply keeps_ite | refine physRead_keeps_eq (by assumption) ?_ | apply physRead_keeps | refine physWrite_keeps_eq (by assumption) ?_ | apply physWrite_keeps | split)

theorem linkAccess_keeps_eq {M : Nat} {s0 : State} {x : BusAcc} {s : State} {v0} {t' : State} (he : linkAccess x s = (v0, t')) (hk : Keeps M s0 s) (hM : Sub 67108855 M := by exact ‹Sub _ M›.of rfl) :
    Keeps M s0 t' := by
  have g : Keeps M s0 (linkAccess x s).2 := by
    with_reducible apply linkAccess_keeps <;> assumption
  rw [he] at g
  exact g

theorem linkAnswer_keeps {M : Nat} {s0 : State} (tag : Nat) (x : BusAcc) (r : Option Word) {s : State} (hk : Keeps M s0 s) (hM : Sub 8388609 M := by exact ‹Sub _ M›.of rfl) :
    Keeps M s0 (linkAnswer tag x r s) := by
  unfold linkAnswer
  try dsimp only
  repeat' (with_reducible first | assumption | exact hM.of rfl | apply Keeps.refl | apply keeps_ite | apply linkSend_keeps | apply updLink_keeps | split)

theorem linkRequest_keeps {M : Nat} {s0 : State} (tag : Nat) (x : BusAcc) (late : Bool) {s : State} (hk : Keeps M s0 s) (hM : Sub 67108855 M := by exact ‹Sub _ M›.of rfl) :
    Keeps M s0 (linkRequest tag x late s) := by
  unfold linkRequest
  try dsimp only
  repeat' (with_reducible first | assumption | exact hM.of rfl | apply Keeps.refl | apply keeps_ite | refine linkAccess_keeps_eq (by assumption) ?_ | apply linkAccess_keeps | apply linkAnswer_keeps | apply linkSend_keeps | apply showLink_keeps | apply updLink_keeps | apply wakeBy_keeps | split | intro _)

theorem linkFrame_keeps {M : Nat} {s0 : State} (tag : Nat) (bad free' : Bool) (f : State → State) {s : State} (hk : Keeps M s0 s) (hf : ∀ t, Keeps M t (f t)) (hM : Sub 8388609 M := by exact ‹Sub _ M›.of rfl) :
    OutKeeps M s0 (linkFrame tag bad free' f s) := by
  unfold linkFrame
  try dsimp only
  repeat' (with_reducible first | assumption | exact hM.of rfl | apply Keeps.refl | apply outKeeps_ite | apply keeps_ite | apply OutKeeps.next | apply linkSend_keeps | refine Keeps.trans ?_ (hf _))

theorem execIdent_keeps {M : Nat} {s0 : State} (tag : Nat) (badFrame : Bool) {s : State} (hk : Keeps M s0 s) (hM : Sub 67108855 M := by exact ‹Sub _ M›.of rfl) :
    OutKeeps M s0 (execIdent tag badFrame s) := by
  unfold execIdent
  try dsimp only
  repeat' (with_reducible first | assumption | exact hM.of rfl | apply Keeps.refl | apply outKeeps_ite | apply keeps_ite | apply OutKeeps.next | apply linkFrame_keeps | apply linkSend_keeps | apply wakeBy_keeps | split | intro _)

theorem execDebugRead_keeps {M : Nat} {s0 : State} (tag size addr : Nat) (badFrame late : Bool) {s : State} (hk : Keeps M s0 s) (hM : Sub 67108855 M := by exact ‹Sub _ M›.of rfl) :
    OutKeeps M s0 (execDebugRead tag size addr badFrame late s) := by
  unfold execDebugRead
  try dsimp only
  repeat' (with_reducible first | assumption | exact hM.of rfl | apply Keeps.refl | apply outKeeps_ite | apply keeps_ite | apply OutKeeps.next | apply linkFrame_keeps | apply linkRequest_keeps | split | intro _)

theorem execDebugWrite_keeps {M : Nat} {s0 : State} (tag size addr : Nat) (data : Word) (badFrame late : Bool) {s : State} (hk : Keeps M s0 s) (hM : Sub 67108855 M := by exact ‹Sub _ M›.of rfl) :
    OutKeeps M s0 (execDebugWrite tag size addr data badFrame late s) := by
  unfold execDebugWrite
  try dsimp only
  repeat' (with_reducible first | assumption | exact hM.of rfl | apply Keeps.refl | apply outKeeps_ite | apply keeps_ite | apply OutKeeps.next | apply linkFrame_keeps | apply linkRequest_keeps | split | intro _)

theorem execReadInc_keeps {M : Nat} {s0 : State} (tag size : Nat) (badFrame late : Bool) {s : State} (hk : Keeps M s0 s) (hM : Sub 67108855 M := by exact ‹Sub _ M›.of rfl) :
    OutKeeps M s0 (execReadInc tag size badFrame late s) := by
  unfold execReadInc
  try dsimp only
  repeat' (with_reducible first | assumption | exact hM.of rfl | apply Keeps.refl | apply outKeeps_ite | apply keeps_ite | apply OutKeeps.next | apply linkFrame_keeps | apply linkRequest_keeps | split | intro _)

theorem execWriteInc_keeps {M : Nat} {s0 : State} (tag size : Nat) (data : Word) (badFrame late : Bool) {s : State} (hk : Keeps M s0 s) (hM : Sub 67108855 M := by exact ‹Sub _ M›.of rfl) :
    OutKeeps M s0 (execWriteInc tag size data badFrame late s) := by
  unfold execWriteInc
  try dsimp only
  repeat' (with_reducible first | assumption | exact hM.of rfl | apply Keeps.refl | apply outKeeps_ite | apply keeps_ite | apply OutKeeps.next | apply linkFrame_keeps | apply linkRequest_keeps | split | intro _)

theorem execCollect_keeps {M : Nat} {s0 : State} (tag : Nat) (badFrame : Bool) {s : State} (hk : Keeps M s0 s) (hM : Sub 67108855 M := by exact ‹Sub _ M›.of rfl) :
    OutKeeps M s0 (execCollect tag badFrame s) := by
  unfold execCollect
  try dsimp only
  repeat' (with_reducible first | assumption | exact hM.of rfl | apply Keeps.refl | apply outKeeps_ite | apply keeps_ite | apply OutKeeps.next | apply linkAnswer_keeps | apply linkFrame_keeps | apply linkSend_keeps | apply showLink_keeps | apply updLink_keeps | apply useFree_keeps | apply wakeBy_keeps | split | intro _)

theorem execRepeat_keeps {M : Nat} {s0 : State} (tag : Nat) (badFrame : Bool) {s : State} (hk : Keeps M s0 s) (hM : Sub 67108855 M := by exact ‹Sub _ M›.of rfl) :
    OutKeeps M s0 (execRepeat tag badFrame s) := by
  unfold execRepeat
  try dsimp only
  repeat' (with_reducible first | assumption | exact hM.of rfl | apply Keeps.refl | apply outKeeps_ite | apply keeps_ite | apply OutKeeps.next | apply linkFrame_keeps | apply wakeBy_keeps | split | intro _)

theorem execLineReset_keeps {M : Nat} {s0 : State} {s : State} (hk : Keeps M s0 s) (hM : Sub 0 M := by exact ‹Sub _ M›.of rfl) :
    OutKeeps M s0 (execLineReset s) := by
  unfold execLineReset
  try dsimp only
  repeat' (with_reducible first | assumption | exact hM.of rfl | apply Keeps.refl | apply outKeeps_ite | apply keeps_ite | apply OutKeeps.next)

theorem execDebugAccessComplete_keeps {M : Nat} {s0 : State} {s : State} (hk : Keeps M s0 s) (hM : Sub 67108855 M := by exact ‹Sub _ M›.of rfl) :
    OutKeeps M s0 (execDebugAccessComplete s) := by
  unfold execDebugAccessComplete
  try dsimp only
  repeat' (with_reducible first | assumption | exact hM.of rfl | apply Keeps.refl | apply outKeeps_ite | apply keeps_ite | apply OutKeeps.next | refine linkAccess_keeps_eq (by assumption) ?_ | apply linkAccess_keeps | apply showLink_keeps | apply updLink_keeps | split | intro _)

theorem linkWakes_keeps {M : Nat} {s0 : State} (req : Nat) {s : State} (hk : Keeps M s0 s) (hM : Sub 67108855 M := by exact ‹Sub _ M›.of rfl) :
    Keeps M s0 (linkWakes req s) := by
  unfold linkWakes
  try dsimp only
  repeat' (with_reducible first | assumption | exact hM.of rfl | apply Keeps.refl | apply keeps_ite | apply wakeBy_keeps | split | intro _)

theorem pageWrite_keeps {M : Nat} {s0 : State} (k off size : Nat) (v : Word) (req : Nat) {s : State} (hk : Keeps M s0 s) (hM : Sub 67108855 M := by exact ‹Sub _ M›.of rfl) :
    OutKeeps M s0 (pageWrite k off size v req s) := by
  unfold pageWrite
  try dsimp only
  repeat' (with_reducible first | assumption | exact hM.of rfl | apply Keeps.refl | apply outKeeps_ite | apply keeps_ite | apply OutKeeps.next | apply linkWakes_keeps | refine regWrite_keeps_eq (by assumption) ?_ | apply regWrite_keeps | split | intro _)

theorem execCoreHalt_keeps {M : Nat} {s0 : State} (k req : Nat) {s : State} (hk : Keeps M s0 s) (hM : Sub 67108855 M := by exact ‹Sub _ M›.of rfl) :
    OutKeeps M s0 (execCoreHalt k req s) := by
  unfold execCoreHalt
  try dsimp only
  repeat' (with_reducible first | assumption | exact hM.of rfl | apply Keeps.refl | apply outKeeps_ite | apply keeps_ite | apply OutKeeps.next | apply pageWrite_keeps)

theorem execCoreResume_keeps {M : Nat} {s0 : State} (k req : Nat) {s : State} (hk : Keeps M s0 s) (hM : Sub 67108855 M := by exact ‹Sub _ M›.of rfl) :
    OutKeeps M s0 (execCoreResume k req s) := by
  unfold execCoreResume
  try dsimp only
  repeat' (with_reducible first | assumption | exact hM.of rfl | apply Keeps.refl | apply outKeeps_ite | apply keeps_ite | apply OutKeeps.next | apply pageWrite_keeps)

theorem execCoreStep_keeps {M : Nat} {s0 : State} (k : Nat) (noInt : Bool) (req : Nat) {s : State} (hk : Keeps M s0 s) (hM : Sub 67108855 M := by exact ‹Sub _ M›.of rfl) :
    OutKeeps M s0 (execCoreStep k noInt req s) := by
  unfold execCoreStep
  try dsimp only
  repeat' (with_reducible first | assumption | exact hM.of rfl | apply Keeps.refl | apply outKeeps_ite | apply keeps_ite | apply OutKeeps.next | apply pageWrite_keeps)

theorem execBreakpointHit_keeps {M : Nat} {s0 : State} (k : Nat) {s : State} (hk : Keeps M s0 s) (hM : Sub 4980965 M := by exact ‹Sub _ M›.of rfl) :
    OutKeeps M s0 (execBreakpointHit k s) := by
  unfold execBreakpointHit
  try dsimp only
  repeat' (with_reducible first | assumption | exact hM.of rfl | apply Keeps.refl | apply outKeeps_ite | apply keeps_ite | apply OutKeeps.next | apply haltCore_keeps | split)

theorem execWatchpointHit_keeps {M : Nat} {s0 : State} (k addr n : Nat) (load store : Bool) {s : State} (hk : Keeps M s0 s) (hM : Sub 4980965 M := by exact ‹Sub _ M›.of rfl) :
    OutKeeps M s0 (execWatchpointHit k addr n load store s) := by
  unfold execWatchpointHit
  try dsimp only
  repeat' (with_reducible first | assumption | exact hM.of rfl | apply Keeps.refl | apply outKeeps_ite | apply keeps_ite | apply OutKeeps.next | apply haltCore_keeps | split)

theorem execRegDataWrite_keeps {M : Nat} {s0 : State} (k : Nat) (v : Word) (req : Nat) {s : State} (hk : Keeps M s0 s) (hM : Sub 67108855 M := by exact ‹Sub _ M›.of rfl) :
    OutKeeps M s0 (execRegDataWrite k v req s) := by
  unfold execRegDataWrite
  try dsimp only
  repeat' (with_reducible first | assumption | exact hM.of rfl | apply Keeps.refl | apply outKeeps_ite | apply keeps_ite | apply OutKeeps.next | apply pageWrite_keeps)

theorem execPcWrite_keeps {M : Nat} {s0 : State} (k : Nat) (v : Word) (req : Nat) {s : State} (hk : Keeps M s0 s) (hM : Sub 67108855 M := by exact ‹Sub _ M›.of rfl) :
    OutKeeps M s0 (execPcWrite k v req s) := by
  unfold execPcWrite
  try dsimp only
  repeat' (with_reducible first | assumption | exact hM.of rfl | apply Keeps.refl | apply outKeeps_ite | apply keeps_ite | apply OutKeeps.next | apply pageWrite_keeps)

theorem execDebugResetPin_keeps {M : Nat} {s0 : State} {s : State} (hk : Keeps M s0 s) (hM : Sub 4718817 M := by exact ‹Sub _ M›.of rfl) :
    OutKeeps M s0 (execDebugResetPin s) := by
  unfold execDebugResetPin
  try dsimp only
  repeat' (with_reducible first | assumption | exact hM.of rfl | apply Keeps.refl | apply outKeeps_ite | apply keeps_ite | apply OutKeeps.next | apply requestDebugReset_keeps | split | intro _)

theorem execDebugResetCommand_keeps {M : Nat} {s0 : State} (key req : Nat) {s : State} (hk : Keeps M s0 s) (hM : Sub 67108855 M := by exact ‹Sub _ M›.of rfl) :
    OutKeeps M s0 (execDebugResetCommand key req s) := by
  unfold execDebugResetCommand
  try dsimp only
  repeat' (with_reducible first | assumption | exact hM.of rfl | apply Keeps.refl | apply outKeeps_ite | apply keeps_ite | apply OutKeeps.next | apply linkWakes_keeps | refine regWrite_keeps_eq (by assumption) ?_ | apply regWrite_keeps | split | intro _)

end Sys2Proof.Machine
end

