-- ==== Sys2Proof/Laws/KeepMemRows.lean ====
section
/-! SUPPORT. Every operation of Machine/MemRows.lean leaves what `Keeps` says. -/

set_option Elab.async false

namespace Sys2Proof.Machine

theorem loadRow_keeps {M : Nat} {s0 : State} (k : Nat) (w : Half) (maj n : Nat) (signed : Bool) {s : State} (hk : Keeps M s0 s) (hM : Sub 67108855 M := by exact ‹Sub _ M›.of rfl) :
    Keeps M s0 (loadRow k w maj n signed s) := by
  unfold loadRow
  try dsimp only
  repeat' (with_reducible first | assumption | exact hM.of rfl | apply Keeps.refl | apply keeps_ite | apply loadBytes_keeps | apply putG_keeps | apply runInstr_keeps | apply withMem_keeps | apply EffKeeps.done | apply EffKeeps.jump | apply EffKeeps.went | apply EffKeeps.trap | apply EffKeeps.stay | apply MemKeeps.ok | apply MemKeeps.trap | apply MemKeeps.watch | apply MemKeeps.waits | split | intro _)

theorem storeRow_keeps {M : Nat} {s0 : State} (k : Nat) (w : Half) (maj n : Nat) {s : State} (hk : Keeps M s0 s) (hM : Sub 67108855 M := by exact ‹Sub _ M›.of rfl) :
    Keeps M s0 (storeRow k w maj n s) := by
  unfold storeRow
  try dsimp only
  repeat' (with_reducible first | assumption | exact hM.of rfl | apply Keeps.refl | apply keeps_ite | apply runInstr_keeps | apply storeBytes_keeps | apply withMem_keeps | apply EffKeeps.done | apply EffKeeps.jump | apply EffKeeps.went | apply EffKeeps.trap | apply EffKeeps.stay | apply MemKeeps.ok | apply MemKeeps.trap | apply MemKeeps.watch | apply MemKeeps.waits | split | intro _)

theorem execLdb_keeps {M : Nat} {s0 : State} (k : Nat) (w : Half) {s : State} (hk : Keeps M s0 s) (hM : Sub 67108855 M := by exact ‹Sub _ M›.of rfl) :
    OutKeeps M s0 (execLdb k w s) := by
  unfold execLdb
  try dsimp only
  repeat' (with_reducible first | assumption | exact hM.of rfl | apply Keeps.refl | apply outKeeps_ite | apply keeps_ite | apply OutKeeps.next | apply loadRow_keeps)

theorem execLdbu_keeps {M : Nat} {s0 : State} (k : Nat) (w : Half) {s : State} (hk : Keeps M s0 s) (hM : Sub 67108855 M := by exact ‹Sub _ M›.of rfl) :
    OutKeeps M s0 (execLdbu k w s) := by
  unfold execLdbu
  try dsimp only
  repeat' (with_reducible first | assumption | exact hM.of rfl | apply Keeps.refl | apply outKeeps_ite | apply keeps_ite | apply OutKeeps.next | apply loadRow_keeps)

theorem execLdh_keeps {M : Nat} {s0 : State} (k : Nat) (w : Half) {s : State} (hk : Keeps M s0 s) (hM : Sub 67108855 M := by exact ‹Sub _ M›.of rfl) :
    OutKeeps M s0 (execLdh k w s) := by
  unfold execLdh
  try dsimp only
  repeat' (with_reducible first | assumption | exact hM.of rfl | apply Keeps.refl | apply outKeeps_ite | apply keeps_ite | apply OutKeeps.next | apply loadRow_keeps)

theorem execLdhu_keeps {M : Nat} {s0 : State} (k : Nat) (w : Half) {s : State} (hk : Keeps M s0 s) (hM : Sub 67108855 M := by exact ‹Sub _ M›.of rfl) :
    OutKeeps M s0 (execLdhu k w s) := by
  unfold execLdhu
  try dsimp only
  repeat' (with_reducible first | assumption | exact hM.of rfl | apply Keeps.refl | apply outKeeps_ite | apply keeps_ite | apply OutKeeps.next | apply loadRow_keeps)

theorem execLdw_keeps {M : Nat} {s0 : State} (k : Nat) (w : Half) {s : State} (hk : Keeps M s0 s) (hM : Sub 67108855 M := by exact ‹Sub _ M›.of rfl) :
    OutKeeps M s0 (execLdw k w s) := by
  unfold execLdw
  try dsimp only
  repeat' (with_reducible first | assumption | exact hM.of rfl | apply Keeps.refl | apply outKeeps_ite | apply keeps_ite | apply OutKeeps.next | apply loadRow_keeps)

theorem execLdwu_keeps {M : Nat} {s0 : State} (k : Nat) (w : Half) {s : State} (hk : Keeps M s0 s) (hM : Sub 67108855 M := by exact ‹Sub _ M›.of rfl) :
    OutKeeps M s0 (execLdwu k w s) := by
  unfold execLdwu
  try dsimp only
  repeat' (with_reducible first | assumption | exact hM.of rfl | apply Keeps.refl | apply outKeeps_ite | apply keeps_ite | apply OutKeeps.next | apply loadRow_keeps)

theorem execLdd_keeps {M : Nat} {s0 : State} (k : Nat) (w : Half) {s : State} (hk : Keeps M s0 s) (hM : Sub 67108855 M := by exact ‹Sub _ M›.of rfl) :
    OutKeeps M s0 (execLdd k w s) := by
  unfold execLdd
  try dsimp only
  repeat' (with_reducible first | assumption | exact hM.of rfl | apply Keeps.refl | apply outKeeps_ite | apply keeps_ite | apply OutKeeps.next | apply loadRow_keeps)

theorem execStb_keeps {M : Nat} {s0 : State} (k : Nat) (w : Half) {s : State} (hk : Keeps M s0 s) (hM : Sub 67108855 M := by exact ‹Sub _ M›.of rfl) :
    OutKeeps M s0 (execStb k w s) := by
  unfold execStb
  try dsimp only
  repeat' (with_reducible first | assumption | exact hM.of rfl | apply Keeps.refl | apply outKeeps_ite | apply keeps_ite | apply OutKeeps.next | apply storeRow_keeps)

theorem execSth_keeps {M : Nat} {s0 : State} (k : Nat) (w : Half) {s : State} (hk : Keeps M s0 s) (hM : Sub 67108855 M := by exact ‹Sub _ M›.of rfl) :
    OutKeeps M s0 (execSth k w s) := by
  unfold execSth
  try dsimp only
  repeat' (with_reducible first | assumption | exact hM.of rfl | apply Keeps.refl | apply outKeeps_ite | apply keeps_ite | apply OutKeeps.next | apply storeRow_keeps)

theorem execStw_keeps {M : Nat} {s0 : State} (k : Nat) (w : Half) {s : State} (hk : Keeps M s0 s) (hM : Sub 67108855 M := by exact ‹Sub _ M›.of rfl) :
    OutKeeps M s0 (execStw k w s) := by
  unfold execStw
  try dsimp only
  repeat' (with_reducible first | assumption | exact hM.of rfl | apply Keeps.refl | apply outKeeps_ite | apply keeps_ite | apply OutKeeps.next | apply storeRow_keeps)

theorem execStd_keeps {M : Nat} {s0 : State} (k : Nat) (w : Half) {s : State} (hk : Keeps M s0 s) (hM : Sub 67108855 M := by exact ‹Sub _ M›.of rfl) :
    OutKeeps M s0 (execStd k w s) := by
  unfold execStd
  try dsimp only
  repeat' (with_reducible first | assumption | exact hM.of rfl | apply Keeps.refl | apply outKeeps_ite | apply keeps_ite | apply OutKeeps.next | apply storeRow_keeps)

theorem windowLoadRow_keeps {M : Nat} {s0 : State} (k : Nat) (w : Half) (maj n : Nat) {s : State} (hk : Keeps M s0 s) (hM : Sub 38537959 M := by exact ‹Sub _ M›.of rfl) :
    Keeps M s0 (windowLoadRow k w maj n s) := by
  unfold windowLoadRow
  try dsimp only
  repeat' (with_reducible first | assumption | exact hM.of rfl | apply Keeps.refl | apply keeps_ite | apply haltCore_keeps | apply reserved_keeps | apply runInstr_keeps | apply setG_keeps | refine windowLoad_keeps_eq (by assumption) ?_ | apply windowLoad_keeps | apply EffKeeps.done | apply EffKeeps.jump | apply EffKeeps.went | apply EffKeeps.trap | apply EffKeeps.stay | apply MemKeeps.ok | apply MemKeeps.trap | apply MemKeeps.watch | apply MemKeeps.waits | split | intro _)

theorem execWldbu_keeps {M : Nat} {s0 : State} (k : Nat) (w : Half) {s : State} (hk : Keeps M s0 s) (hM : Sub 38537959 M := by exact ‹Sub _ M›.of rfl) :
    OutKeeps M s0 (execWldbu k w s) := by
  unfold execWldbu
  try dsimp only
  repeat' (with_reducible first | assumption | exact hM.of rfl | apply Keeps.refl | apply outKeeps_ite | apply keeps_ite | apply OutKeeps.next | apply windowLoadRow_keeps)

theorem execWldhu_keeps {M : Nat} {s0 : State} (k : Nat) (w : Half) {s : State} (hk : Keeps M s0 s) (hM : Sub 38537959 M := by exact ‹Sub _ M›.of rfl) :
    OutKeeps M s0 (execWldhu k w s) := by
  unfold execWldhu
  try dsimp only
  repeat' (with_reducible first | assumption | exact hM.of rfl | apply Keeps.refl | apply outKeeps_ite | apply keeps_ite | apply OutKeeps.next | apply windowLoadRow_keeps)

theorem execWldwu_keeps {M : Nat} {s0 : State} (k : Nat) (w : Half) {s : State} (hk : Keeps M s0 s) (hM : Sub 38537959 M := by exact ‹Sub _ M›.of rfl) :
    OutKeeps M s0 (execWldwu k w s) := by
  unfold execWldwu
  try dsimp only
  repeat' (with_reducible first | assumption | exact hM.of rfl | apply Keeps.refl | apply outKeeps_ite | apply keeps_ite | apply OutKeeps.next | apply windowLoadRow_keeps)

theorem execWldd_keeps {M : Nat} {s0 : State} (k : Nat) (w : Half) {s : State} (hk : Keeps M s0 s) (hM : Sub 38537959 M := by exact ‹Sub _ M›.of rfl) :
    OutKeeps M s0 (execWldd k w s) := by
  unfold execWldd
  try dsimp only
  repeat' (with_reducible first | assumption | exact hM.of rfl | apply Keeps.refl | apply outKeeps_ite | apply keeps_ite | apply OutKeeps.next | apply windowLoadRow_keeps)

theorem execPrd_keeps {M : Nat} {s0 : State} (k : Nat) (w : Half) {s : State} (hk : Keeps M s0 s) (hM : Sub 38537447 M := by exact ‹Sub _ M›.of rfl) :
    OutKeeps M s0 (execPrd k w s) := by
  unfold execPrd
  try dsimp only
  repeat' (with_reducible first | assumption | exact hM.of rfl | apply Keeps.refl | apply outKeeps_ite | apply keeps_ite | apply OutKeeps.next | apply prdHint_keeps | apply reserved_keeps | apply runInstr_keeps | apply EffKeeps.done | apply EffKeeps.jump | apply EffKeeps.went | apply EffKeeps.trap | apply EffKeeps.stay | apply MemKeeps.ok | apply MemKeeps.trap | apply MemKeeps.watch | apply MemKeeps.waits | split | intro _)

theorem amoRow_keeps {M : Nat} {s0 : State} (k : Nat) (w : Half) (code : Nat) (f : (n : Nat) → BitVec n → BitVec n → BitVec n → Option (BitVec n)) {s : State} (hk : Keeps M s0 s) (hM : Sub 67108855 M := by exact ‹Sub _ M›.of rfl) :
    Keeps M s0 (amoRow k w code f s) := by
  unfold amoRow
  try dsimp only
  repeat' (with_reducible first | assumption | exact hM.of rfl | apply Keeps.refl | apply keeps_ite | apply haltCore_keeps | refine physRead_keeps_eq (by assumption) ?_ | apply physRead_keeps | apply reserved_keeps | apply runInstr_keeps | apply setG_keeps | refine storePart_keeps_eq (by assumption) ?_ | apply storePart_keeps | refine translate_keeps_eq (by assumption) ?_ | apply translate_keeps | apply EffKeeps.done | apply EffKeeps.jump | apply EffKeeps.went | apply EffKeeps.trap | apply EffKeeps.stay | apply MemKeeps.ok | apply MemKeeps.trap | apply MemKeeps.watch | apply MemKeeps.waits | split | intro _)

theorem execAmoSwap_keeps {M : Nat} {s0 : State} (k : Nat) (w : Half) {s : State} (hk : Keeps M s0 s) (hM : Sub 67108855 M := by exact ‹Sub _ M›.of rfl) :
    OutKeeps M s0 (execAmoSwap k w s) := by
  unfold execAmoSwap
  try dsimp only
  repeat' (with_reducible first | assumption | exact hM.of rfl | apply Keeps.refl | apply outKeeps_ite | apply keeps_ite | apply OutKeeps.next | apply amoRow_keeps)

theorem execAmoAdd_keeps {M : Nat} {s0 : State} (k : Nat) (w : Half) {s : State} (hk : Keeps M s0 s) (hM : Sub 67108855 M := by exact ‹Sub _ M›.of rfl) :
    OutKeeps M s0 (execAmoAdd k w s) := by
  unfold execAmoAdd
  try dsimp only
  repeat' (with_reducible first | assumption | exact hM.of rfl | apply Keeps.refl | apply outKeeps_ite | apply keeps_ite | apply OutKeeps.next | apply amoRow_keeps)

theorem execAmoAnd_keeps {M : Nat} {s0 : State} (k : Nat) (w : Half) {s : State} (hk : Keeps M s0 s) (hM : Sub 67108855 M := by exact ‹Sub _ M›.of rfl) :
    OutKeeps M s0 (execAmoAnd k w s) := by
  unfold execAmoAnd
  try dsimp only
  repeat' (with_reducible first | assumption | exact hM.of rfl | apply Keeps.refl | apply outKeeps_ite | apply keeps_ite | apply OutKeeps.next | apply amoRow_keeps)

theorem execAmoOr_keeps {M : Nat} {s0 : State} (k : Nat) (w : Half) {s : State} (hk : Keeps M s0 s) (hM : Sub 67108855 M := by exact ‹Sub _ M›.of rfl) :
    OutKeeps M s0 (execAmoOr k w s) := by
  unfold execAmoOr
  try dsimp only
  repeat' (with_reducible first | assumption | exact hM.of rfl | apply Keeps.refl | apply outKeeps_ite | apply keeps_ite | apply OutKeeps.next | apply amoRow_keeps)

theorem execAmoXor_keeps {M : Nat} {s0 : State} (k : Nat) (w : Half) {s : State} (hk : Keeps M s0 s) (hM : Sub 67108855 M := by exact ‹Sub _ M›.of rfl) :
    OutKeeps M s0 (execAmoXor k w s) := by
  unfold execAmoXor
  try dsimp only
  repeat' (with_reducible first | assumption | exact hM.of rfl | apply Keeps.refl | apply outKeeps_ite | apply keeps_ite | apply OutKeeps.next | apply amoRow_keeps)

theorem execAmoMin_keeps {M : Nat} {s0 : State} (k : Nat) (w : Half) {s : State} (hk : Keeps M s0 s) (hM : Sub 67108855 M := by exact ‹Sub _ M›.of rfl) :
    OutKeeps M s0 (execAmoMin k w s) := by
  unfold execAmoMin
  try dsimp only
  repeat' (with_reducible first | assumption | exact hM.of rfl | apply Keeps.refl | apply outKeeps_ite | apply keeps_ite | apply OutKeeps.next | apply amoRow_keeps)

theorem execAmoMax_keeps {M : Nat} {s0 : State} (k : Nat) (w : Half) {s : State} (hk : Keeps M s0 s) (hM : Sub 67108855 M := by exact ‹Sub _ M›.of rfl) :
    OutKeeps M s0 (execAmoMax k w s) := by
  unfold execAmoMax
  try dsimp only
  repeat' (with_reducible first | assumption | exact hM.of rfl | apply Keeps.refl | apply outKeeps_ite | apply keeps_ite | apply OutKeeps.next | apply amoRow_keeps)

theorem execAmoMinu_keeps {M : Nat} {s0 : State} (k : Nat) (w : Half) {s : State} (hk : Keeps M s0 s) (hM : Sub 67108855 M := by exact ‹Sub _ M›.of rfl) :
    OutKeeps M s0 (execAmoMinu k w s) := by
  unfold execAmoMinu
  try dsimp only
  repeat' (with_reducible first | assumption | exact hM.of rfl | apply Keeps.refl | apply outKeeps_ite | apply keeps_ite | apply OutKeeps.next | apply amoRow_keeps)

theorem execAmoMaxu_keeps {M : Nat} {s0 : State} (k : Nat) (w : Half) {s : State} (hk : Keeps M s0 s) (hM : Sub 67108855 M := by exact ‹Sub _ M›.of rfl) :
    OutKeeps M s0 (execAmoMaxu k w s) := by
  unfold execAmoMaxu
  try dsimp only
  repeat' (with_reducible first | assumption | exact hM.of rfl | apply Keeps.refl | apply outKeeps_ite | apply keeps_ite | apply OutKeeps.next | apply amoRow_keeps)

theorem execAmoCas_keeps {M : Nat} {s0 : State} (k : Nat) (w : Half) {s : State} (hk : Keeps M s0 s) (hM : Sub 67108855 M := by exact ‹Sub _ M›.of rfl) :
    OutKeeps M s0 (execAmoCas k w s) := by
  unfold execAmoCas
  try dsimp only
  repeat' (with_reducible first | assumption | exact hM.of rfl | apply Keeps.refl | apply outKeeps_ite | apply keeps_ite | apply OutKeeps.next | apply amoRow_keeps)

theorem execAmoLd_keeps {M : Nat} {s0 : State} (k : Nat) (w : Half) {s : State} (hk : Keeps M s0 s) (hM : Sub 67108855 M := by exact ‹Sub _ M›.of rfl) :
    OutKeeps M s0 (execAmoLd k w s) := by
  unfold execAmoLd
  try dsimp only
  repeat' (with_reducible first | assumption | exact hM.of rfl | apply Keeps.refl | apply outKeeps_ite | apply keeps_ite | apply OutKeeps.next | apply amoRow_keeps)

theorem execAmoSt_keeps {M : Nat} {s0 : State} (k : Nat) (w : Half) {s : State} (hk : Keeps M s0 s) (hM : Sub 67108855 M := by exact ‹Sub _ M›.of rfl) :
    OutKeeps M s0 (execAmoSt k w s) := by
  unfold execAmoSt
  try dsimp only
  repeat' (with_reducible first | assumption | exact hM.of rfl | apply Keeps.refl | apply outKeeps_ite | apply keeps_ite | apply OutKeeps.next | apply amoRow_keeps)

end Sys2Proof.Machine
end

