-- ==== Sys2Proof/Laws/KeepFlowRows.lean ====
section
/-! SUPPORT. Every operation of Machine/FlowRows.lean leaves what `Keeps` says. -/

set_option Elab.async false

namespace Sys2Proof.Machine

theorem branchRow_keeps {M : Nat} {s0 : State} (k : Nat) (w : Half) (maj : Nat) (onZero : Bool) {s : State} (hk : Keeps M s0 s) (hM : Sub 38537447 M := by exact ‹Sub _ M›.of rfl) :
    Keeps M s0 (branchRow k w maj onZero s) := by
  unfold branchRow
  try dsimp only
  repeat' (with_reducible first | assumption | exact hM.of rfl | apply Keeps.refl | apply keeps_ite | apply runInstr_keeps | apply EffKeeps.done | apply EffKeeps.jump | apply EffKeeps.went | apply EffKeeps.trap | apply EffKeeps.stay | apply MemKeeps.ok | apply MemKeeps.trap | apply MemKeeps.watch | apply MemKeeps.waits | split | intro _)

theorem execBeqz_keeps {M : Nat} {s0 : State} (k : Nat) (w : Half) {s : State} (hk : Keeps M s0 s) (hM : Sub 38537447 M := by exact ‹Sub _ M›.of rfl) :
    OutKeeps M s0 (execBeqz k w s) := by
  unfold execBeqz
  try dsimp only
  repeat' (with_reducible first | assumption | exact hM.of rfl | apply Keeps.refl | apply outKeeps_ite | apply keeps_ite | apply OutKeeps.next | apply branchRow_keeps)

theorem execBnez_keeps {M : Nat} {s0 : State} (k : Nat) (w : Half) {s : State} (hk : Keeps M s0 s) (hM : Sub 38537447 M := by exact ‹Sub _ M›.of rfl) :
    OutKeeps M s0 (execBnez k w s) := by
  unfold execBnez
  try dsimp only
  repeat' (with_reducible first | assumption | exact hM.of rfl | apply Keeps.refl | apply outKeeps_ite | apply keeps_ite | apply OutKeeps.next | apply branchRow_keeps)

theorem execJ_keeps {M : Nat} {s0 : State} (k : Nat) (w : Half) {s : State} (hk : Keeps M s0 s) (hM : Sub 38537447 M := by exact ‹Sub _ M›.of rfl) :
    OutKeeps M s0 (execJ k w s) := by
  unfold execJ
  try dsimp only
  repeat' (with_reducible first | assumption | exact hM.of rfl | apply Keeps.refl | apply outKeeps_ite | apply keeps_ite | apply OutKeeps.next | apply runInstr_keeps | apply EffKeeps.done | apply EffKeeps.jump | apply EffKeeps.went | apply EffKeeps.trap | apply EffKeeps.stay | apply MemKeeps.ok | apply MemKeeps.trap | apply MemKeeps.watch | apply MemKeeps.waits | split | intro _)

theorem callTo_keeps {M : Nat} {s0 : State} (k : Nat) (target : Word) {s : State} (hk : Keeps M s0 s) (hM : Sub 67108855 M := by exact ‹Sub _ M›.of rfl) :
    EffKeeps M s0 (callTo k target s) := by
  unfold callTo
  try dsimp only
  repeat' (with_reducible first | assumption | exact hM.of rfl | apply Keeps.refl | apply keeps_ite | apply setG_keeps | apply storeBytes_keeps | apply withMem_keeps | apply EffKeeps.done | apply EffKeeps.jump | apply EffKeeps.went | apply EffKeeps.trap | apply EffKeeps.stay | apply MemKeeps.ok | apply MemKeeps.trap | apply MemKeeps.watch | apply MemKeeps.waits | split | intro _)

theorem execCall_keeps {M : Nat} {s0 : State} (k : Nat) (w : Half) {s : State} (hk : Keeps M s0 s) (hM : Sub 67108855 M := by exact ‹Sub _ M›.of rfl) :
    OutKeeps M s0 (execCall k w s) := by
  unfold execCall
  try dsimp only
  repeat' (with_reducible first | assumption | exact hM.of rfl | apply Keeps.refl | apply outKeeps_ite | apply keeps_ite | apply OutKeeps.next | apply callTo_keeps | apply runInstr_keeps | apply EffKeeps.done | apply EffKeeps.jump | apply EffKeeps.went | apply EffKeeps.trap | apply EffKeeps.stay | apply MemKeeps.ok | apply MemKeeps.trap | apply MemKeeps.watch | apply MemKeeps.waits | split | intro _)

theorem execJr_keeps {M : Nat} {s0 : State} (k : Nat) (w : Half) {s : State} (hk : Keeps M s0 s) (hM : Sub 38537447 M := by exact ‹Sub _ M›.of rfl) :
    OutKeeps M s0 (execJr k w s) := by
  unfold execJr
  try dsimp only
  repeat' (with_reducible first | assumption | exact hM.of rfl | apply Keeps.refl | apply outKeeps_ite | apply keeps_ite | apply OutKeeps.next | apply reserved_keeps | apply runInstr_keeps | apply EffKeeps.done | apply EffKeeps.jump | apply EffKeeps.went | apply EffKeeps.trap | apply EffKeeps.stay | apply MemKeeps.ok | apply MemKeeps.trap | apply MemKeeps.watch | apply MemKeeps.waits | split | intro _)

theorem execCallr_keeps {M : Nat} {s0 : State} (k : Nat) (w : Half) {s : State} (hk : Keeps M s0 s) (hM : Sub 67108855 M := by exact ‹Sub _ M›.of rfl) :
    OutKeeps M s0 (execCallr k w s) := by
  unfold execCallr
  try dsimp only
  repeat' (with_reducible first | assumption | exact hM.of rfl | apply Keeps.refl | apply outKeeps_ite | apply keeps_ite | apply OutKeeps.next | apply callTo_keeps | apply reserved_keeps | apply runInstr_keeps | apply EffKeeps.done | apply EffKeeps.jump | apply EffKeeps.went | apply EffKeeps.trap | apply EffKeeps.stay | apply MemKeeps.ok | apply MemKeeps.trap | apply MemKeeps.watch | apply MemKeeps.waits | split | intro _)

theorem execRet_keeps {M : Nat} {s0 : State} (k : Nat) (w : Half) {s : State} (hk : Keeps M s0 s) (hM : Sub 67108855 M := by exact ‹Sub _ M›.of rfl) :
    OutKeeps M s0 (execRet k w s) := by
  unfold execRet
  try dsimp only
  repeat' (with_reducible first | assumption | exact hM.of rfl | apply Keeps.refl | apply outKeeps_ite | apply keeps_ite | apply OutKeeps.next | apply loadBytes_keeps | apply reserved_keeps | apply runInstr_keeps | apply setG_keeps | apply withMem_keeps | apply EffKeeps.done | apply EffKeeps.jump | apply EffKeeps.went | apply EffKeeps.trap | apply EffKeeps.stay | apply MemKeeps.ok | apply MemKeeps.trap | apply MemKeeps.watch | apply MemKeeps.waits | split | intro _)

theorem execSvreq_keeps {M : Nat} {s0 : State} (k : Nat) (w : Half) {s : State} (hk : Keeps M s0 s) (hM : Sub 38537447 M := by exact ‹Sub _ M›.of rfl) :
    OutKeeps M s0 (execSvreq k w s) := by
  unfold execSvreq
  try dsimp only
  repeat' (with_reducible first | assumption | exact hM.of rfl | apply Keeps.refl | apply outKeeps_ite | apply keeps_ite | apply OutKeeps.next | apply reserved_keeps | apply runInstr_keeps | apply EffKeeps.done | apply EffKeeps.jump | apply EffKeeps.went | apply EffKeeps.trap | apply EffKeeps.stay | apply MemKeeps.ok | apply MemKeeps.trap | apply MemKeeps.watch | apply MemKeeps.waits | split | intro _)

theorem execDbgtrap_keeps {M : Nat} {s0 : State} (k : Nat) (w : Half) {s : State} (hk : Keeps M s0 s) (hM : Sub 38537447 M := by exact ‹Sub _ M›.of rfl) :
    OutKeeps M s0 (execDbgtrap k w s) := by
  unfold execDbgtrap
  try dsimp only
  repeat' (with_reducible first | assumption | exact hM.of rfl | apply Keeps.refl | apply outKeeps_ite | apply keeps_ite | apply OutKeeps.next | apply haltCore_keeps | apply reserved_keeps | apply runInstr_keeps | apply EffKeeps.done | apply EffKeeps.jump | apply EffKeeps.went | apply EffKeeps.trap | apply EffKeeps.stay | apply MemKeeps.ok | apply MemKeeps.trap | apply MemKeeps.watch | apply MemKeeps.waits | split | intro _)

theorem execFence_keeps {M : Nat} {s0 : State} (k : Nat) (w : Half) {s : State} (hk : Keeps M s0 s) (hM : Sub 38537447 M := by exact ‹Sub _ M›.of rfl) :
    OutKeeps M s0 (execFence k w s) := by
  unfold execFence
  try dsimp only
  repeat' (with_reducible first | assumption | exact hM.of rfl | apply Keeps.refl | apply outKeeps_ite | apply keeps_ite | apply OutKeeps.next | apply reserved_keeps | apply runInstr_keeps | apply EffKeeps.done | apply EffKeeps.jump | apply EffKeeps.went | apply EffKeeps.trap | apply EffKeeps.stay | apply MemKeeps.ok | apply MemKeeps.trap | apply MemKeeps.watch | apply MemKeeps.waits | split | intro _)

theorem execIfence_keeps {M : Nat} {s0 : State} (k : Nat) (w : Half) {s : State} (hk : Keeps M s0 s) (hM : Sub 38537447 M := by exact ‹Sub _ M›.of rfl) :
    OutKeeps M s0 (execIfence k w s) := by
  unfold execIfence
  try dsimp only
  repeat' (with_reducible first | assumption | exact hM.of rfl | apply Keeps.refl | apply outKeeps_ite | apply keeps_ite | apply OutKeeps.next | apply reserved_keeps | apply runInstr_keeps | apply EffKeeps.done | apply EffKeeps.jump | apply EffKeeps.went | apply EffKeeps.trap | apply EffKeeps.stay | apply MemKeeps.ok | apply MemKeeps.trap | apply MemKeeps.watch | apply MemKeeps.waits | split | intro _)

theorem execMfsr_keeps {M : Nat} {s0 : State} (k : Nat) (w : Half) {s : State} (hk : Keeps M s0 s) (hM : Sub 38537447 M := by exact ‹Sub _ M›.of rfl) :
    OutKeeps M s0 (execMfsr k w s) := by
  unfold execMfsr
  try dsimp only
  repeat' (with_reducible first | assumption | exact hM.of rfl | apply Keeps.refl | apply outKeeps_ite | apply keeps_ite | apply OutKeeps.next | apply passCycles_keeps | apply putG_keeps | apply reserved_keeps | apply runInstr_keeps | apply useFree_keeps | apply EffKeeps.done | apply EffKeeps.jump | apply EffKeeps.went | apply EffKeeps.trap | apply EffKeeps.stay | apply MemKeeps.ok | apply MemKeeps.trap | apply MemKeeps.watch | apply MemKeeps.waits | split | intro _)

theorem vecDirty_keeps {M : Nat} {s0 : State} (k : Nat) {s : State} (hk : Keeps M s0 s) (hM : Sub 524288 M := by exact ‹Sub _ M›.of rfl) :
    Keeps M s0 (vecDirty k s) := by
  unfold vecDirty
  try dsimp only
  repeat' (with_reducible first | assumption | exact hM.of rfl | apply Keeps.refl | apply keeps_ite | apply setSysField_keeps)

theorem execMtsr_keeps {M : Nat} {s0 : State} (k : Nat) (w : Half) {s : State} (hk : Keeps M s0 s) (hM : Sub 38537447 M := by exact ‹Sub _ M›.of rfl) :
    OutKeeps M s0 (execMtsr k w s) := by
  unfold execMtsr
  try dsimp only
  repeat' (with_reducible first | assumption | exact hM.of rfl | apply Keeps.refl | apply outKeeps_ite | apply keeps_ite | apply OutKeeps.next | apply reserved_keeps | apply runInstr_keeps | apply sysWrite_keeps | apply vecDirty_keeps | apply EffKeeps.done | apply EffKeeps.jump | apply EffKeeps.went | apply EffKeeps.trap | apply EffKeeps.stay | apply MemKeeps.ok | apply MemKeeps.trap | apply MemKeeps.watch | apply MemKeeps.waits | split | intro _)

theorem execXret_keeps {M : Nat} {s0 : State} (k : Nat) (w : Half) {s : State} (hk : Keeps M s0 s) (hM : Sub 38537447 M := by exact ‹Sub _ M›.of rfl) :
    OutKeeps M s0 (execXret k w s) := by
  unfold execXret
  try dsimp only
  repeat' (with_reducible first | assumption | exact hM.of rfl | apply Keeps.refl | apply outKeeps_ite | apply keeps_ite | apply OutKeeps.next | apply reserved_keeps | apply returnFrom_keeps | apply runInstr_keeps | apply EffKeeps.done | apply EffKeeps.jump | apply EffKeeps.went | apply EffKeeps.trap | apply EffKeeps.stay | apply MemKeeps.ok | apply MemKeeps.trap | apply MemKeeps.watch | apply MemKeeps.waits | split | intro _)

theorem execIdle_keeps {M : Nat} {s0 : State} (k : Nat) (w : Half) {s : State} (hk : Keeps M s0 s) (hM : Sub 38537447 M := by exact ‹Sub _ M›.of rfl) :
    OutKeeps M s0 (execIdle k w s) := by
  unfold execIdle
  try dsimp only
  repeat' (with_reducible first | assumption | exact hM.of rfl | apply Keeps.refl | apply outKeeps_ite | apply keeps_ite | apply OutKeeps.next | apply reserved_keeps | apply runInstr_keeps | apply setCore_keeps | apply EffKeeps.done | apply EffKeeps.jump | apply EffKeeps.went | apply EffKeeps.trap | apply EffKeeps.stay | apply MemKeeps.ok | apply MemKeeps.trap | apply MemKeeps.watch | apply MemKeeps.waits | split | intro _)

theorem execTlbinv_keeps {M : Nat} {s0 : State} (k : Nat) (w : Half) {s : State} (hk : Keeps M s0 s) (hM : Sub 38537447 M := by exact ‹Sub _ M›.of rfl) :
    OutKeeps M s0 (execTlbinv k w s) := by
  unfold execTlbinv
  try dsimp only
  repeat' (with_reducible first | assumption | exact hM.of rfl | apply Keeps.refl | apply outKeeps_ite | apply keeps_ite | apply OutKeeps.next | apply reserved_keeps | apply runInstr_keeps | apply setCore_keeps | apply EffKeeps.done | apply EffKeeps.jump | apply EffKeeps.went | apply EffKeeps.trap | apply EffKeeps.stay | apply MemKeeps.ok | apply MemKeeps.trap | apply MemKeeps.watch | apply MemKeeps.waits | split | intro _)

theorem execReservedInstruction_keeps {M : Nat} {s0 : State} (k : Nat) (w : Half) {s : State} (hk : Keeps M s0 s) (hM : Sub 38537447 M := by exact ‹Sub _ M›.of rfl) :
    OutKeeps M s0 (execReservedInstruction k w s) := by
  unfold execReservedInstruction
  try dsimp only
  repeat' (with_reducible first | assumption | exact hM.of rfl | apply Keeps.refl | apply outKeeps_ite | apply keeps_ite | apply OutKeeps.next | apply reserved_keeps | apply runInstr_keeps | apply EffKeeps.done | apply EffKeeps.jump | apply EffKeeps.went | apply EffKeeps.trap | apply EffKeeps.stay | apply MemKeeps.ok | apply MemKeeps.trap | apply MemKeeps.watch | apply MemKeeps.waits | split | intro _)

theorem execInterruptTaken_keeps {M : Nat} {s0 : State} (k : Nat) (ext : Bool) {s : State} (hk : Keeps M s0 s) (hM : Sub 4980965 M := by exact ‹Sub _ M›.of rfl) :
    OutKeeps M s0 (execInterruptTaken k ext s) := by
  unfold execInterruptTaken
  try dsimp only
  repeat' (with_reducible first | assumption | exact hM.of rfl | apply Keeps.refl | apply outKeeps_ite | apply keeps_ite | apply OutKeeps.next | apply afterStep_keeps | apply awake_keeps | apply enterTrap_keeps | apply leaveAhead_keeps | apply useFree_keeps | apply EffKeeps.done | apply EffKeeps.jump | apply EffKeeps.went | apply EffKeeps.trap | apply EffKeeps.stay | apply MemKeeps.ok | apply MemKeeps.trap | apply MemKeeps.watch | apply MemKeeps.waits | split | apply Keeps.upd_cores)

theorem execTimerCompareMatch_keeps {M : Nat} {s0 : State} (k cycles : Nat) {s : State} (hk : Keeps M s0 s) (hM : Sub 524289 M := by exact ‹Sub _ M›.of rfl) :
    OutKeeps M s0 (execTimerCompareMatch k cycles s) := by
  unfold execTimerCompareMatch
  try dsimp only
  repeat' (with_reducible first | assumption | exact hM.of rfl | apply Keeps.refl | apply outKeeps_ite | apply keeps_ite | apply OutKeeps.next | apply awake_keeps | apply leaveAhead_keeps | apply passCycles_keeps | apply EffKeeps.done | apply EffKeeps.jump | apply EffKeeps.went | apply EffKeeps.trap | apply EffKeeps.stay | apply MemKeeps.ok | apply MemKeeps.trap | apply MemKeeps.watch | apply MemKeeps.waits | split)

end Sys2Proof.Machine
end

