-- ==== Sys2Proof/Laws/KeepVecRows.lean ====
section
/-! SUPPORT. Every operation of Machine/VecRows.lean leaves what `Keeps` says. -/

set_option Elab.async false

namespace Sys2Proof.Machine

theorem setV_keeps {M : Nat} {s0 : State} (k r : Nat) (v : Vec) {s : State} (hk : Keeps M s0 s) (hM : Sub 524288 M := by exact ‹Sub _ M›.of rfl) :
    Keeps M s0 (setV k r v s) := by
  unfold setV
  try dsimp only
  repeat' (with_reducible first | assumption | exact hM.of rfl | apply Keeps.refl | apply keeps_ite | apply vecDirty_keeps | apply EffKeeps.done | apply EffKeeps.jump | apply EffKeeps.went | apply EffKeeps.trap | apply EffKeeps.stay | apply MemKeeps.ok | apply MemKeeps.trap | apply MemKeeps.watch | apply MemKeeps.waits | split | apply Keeps.upd_cores)

theorem stickV_keeps {M : Nat} {s0 : State} (k bits : Nat) {s : State} (hk : Keeps M s0 s) (hM : Sub 524288 M := by exact ‹Sub _ M›.of rfl) :
    Keeps M s0 (stickV k bits s) := by
  unfold stickV
  try dsimp only
  repeat' (with_reducible first | assumption | exact hM.of rfl | apply Keeps.refl | apply keeps_ite | apply putSys_keeps | apply vecDirty_keeps)

theorem vecBody_keeps {M : Nat} {s0 : State} (k : Nat) (bad : Bool) (body : State → Eff) {t : State} (hk : Keeps M s0 t) (hbody : ∀ t, EffKeeps M t (body t)) (hM : Sub 0 M := by exact ‹Sub _ M›.of rfl) :
    EffKeeps M s0 (vecBody k bad body t) := by
  unfold vecBody
  try dsimp only
  repeat' (with_reducible first | assumption | exact hM.of rfl | apply Keeps.refl | apply keeps_ite | apply reserved_keeps | refine EffKeeps.trans ?_ (hbody _) | apply EffKeeps.done | apply EffKeeps.jump | apply EffKeeps.went | apply EffKeeps.trap | apply EffKeeps.stay | apply MemKeeps.ok | apply MemKeeps.trap | apply MemKeeps.watch | apply MemKeeps.waits | split)

theorem vecRow_keeps {M : Nat} {s0 : State} (k : Nat) (w : Half) (maj fn lo hi : Nat) (more : Bool) (body : State → Eff) {s : State} (hk : Keeps M s0 s) (hbody : ∀ t, EffKeeps M t (body t)) (hM : Sub 38537447 M := by exact ‹Sub _ M›.of rfl) :
    Keeps M s0 (vecRow k w maj fn lo hi more body s) := by
  unfold vecRow
  try dsimp only
  repeat' (with_reducible first | assumption | exact hM.of rfl | apply Keeps.refl | apply keeps_ite | apply runInstr_keeps | apply vecBody_keeps | refine EffKeeps.trans ?_ (hbody _) | apply EffKeeps.done | apply EffKeeps.jump | apply EffKeeps.went | apply EffKeeps.trap | apply EffKeeps.stay | apply MemKeeps.ok | apply MemKeeps.trap | apply MemKeeps.watch | apply MemKeeps.waits | split | intro _)

theorem vec2_keeps {M : Nat} {s0 : State} (k : Nat) (w : Half) (fn lo hi : Nat) (f : Nat → Nat → Nat → Nat) {s : State} (hk : Keeps M s0 s) (hM : Sub 38537447 M := by exact ‹Sub _ M›.of rfl) :
    Keeps M s0 (vec2 k w fn lo hi f s) := by
  unfold vec2
  try dsimp only
  repeat' (with_reducible first | assumption | exact hM.of rfl | apply Keeps.refl | apply keeps_ite | apply setV_keeps | apply vecRow_keeps | apply EffKeeps.done | apply EffKeeps.jump | apply EffKeeps.went | apply EffKeeps.trap | apply EffKeeps.stay | apply MemKeeps.ok | apply MemKeeps.trap | apply MemKeeps.watch | apply MemKeeps.waits | split | intro _)

theorem vecSat_keeps {M : Nat} {s0 : State} (k : Nat) (w : Half) (fn : Nat) (signed : Bool) (f : Int → Int → Int) {s : State} (hk : Keeps M s0 s) (hM : Sub 38537447 M := by exact ‹Sub _ M›.of rfl) :
    Keeps M s0 (vecSat k w fn signed f s) := by
  unfold vecSat
  try dsimp only
  repeat' (with_reducible first | assumption | exact hM.of rfl | apply Keeps.refl | apply keeps_ite | apply setV_keeps | apply stickV_keeps | apply vecRow_keeps | apply EffKeeps.done | apply EffKeeps.jump | apply EffKeeps.went | apply EffKeeps.trap | apply EffKeeps.stay | apply MemKeeps.ok | apply MemKeeps.trap | apply MemKeeps.watch | apply MemKeeps.waits | split | intro _)

theorem vecShift_keeps {M : Nat} {s0 : State} (k : Nat) (w : Half) (fn : Nat) (f : Nat → Nat → Nat → Nat) {s : State} (hk : Keeps M s0 s) (hM : Sub 38537447 M := by exact ‹Sub _ M›.of rfl) :
    Keeps M s0 (vecShift k w fn f s) := by
  unfold vecShift
  try dsimp only
  repeat' (with_reducible first | assumption | exact hM.of rfl | apply Keeps.refl | apply keeps_ite | apply setV_keeps | apply vecRow_keeps | apply EffKeeps.done | apply EffKeeps.jump | apply EffKeeps.went | apply EffKeeps.trap | apply EffKeeps.stay | apply MemKeeps.ok | apply MemKeeps.trap | apply MemKeeps.watch | apply MemKeeps.waits | split | intro _)

theorem execVadd_keeps {M : Nat} {s0 : State} (k : Nat) (w : Half) {s : State} (hk : Keeps M s0 s) (hM : Sub 38537447 M := by exact ‹Sub _ M›.of rfl) :
    OutKeeps M s0 (execVadd k w s) := by
  unfold execVadd
  try dsimp only
  repeat' (with_reducible first | assumption | exact hM.of rfl | apply Keeps.refl | apply outKeeps_ite | apply keeps_ite | apply OutKeeps.next | apply vec2_keeps)

theorem execVsub_keeps {M : Nat} {s0 : State} (k : Nat) (w : Half) {s : State} (hk : Keeps M s0 s) (hM : Sub 38537447 M := by exact ‹Sub _ M›.of rfl) :
    OutKeeps M s0 (execVsub k w s) := by
  unfold execVsub
  try dsimp only
  repeat' (with_reducible first | assumption | exact hM.of rfl | apply Keeps.refl | apply outKeeps_ite | apply keeps_ite | apply OutKeeps.next | apply vec2_keeps)

theorem execVmul_keeps {M : Nat} {s0 : State} (k : Nat) (w : Half) {s : State} (hk : Keeps M s0 s) (hM : Sub 38537447 M := by exact ‹Sub _ M›.of rfl) :
    OutKeeps M s0 (execVmul k w s) := by
  unfold execVmul
  try dsimp only
  repeat' (with_reducible first | assumption | exact hM.of rfl | apply Keeps.refl | apply outKeeps_ite | apply keeps_ite | apply OutKeeps.next | apply vec2_keeps)

theorem execVmulhu_keeps {M : Nat} {s0 : State} (k : Nat) (w : Half) {s : State} (hk : Keeps M s0 s) (hM : Sub 38537447 M := by exact ‹Sub _ M›.of rfl) :
    OutKeeps M s0 (execVmulhu k w s) := by
  unfold execVmulhu
  try dsimp only
  repeat' (with_reducible first | assumption | exact hM.of rfl | apply Keeps.refl | apply outKeeps_ite | apply keeps_ite | apply OutKeeps.next | apply vec2_keeps)

theorem execVand_keeps {M : Nat} {s0 : State} (k : Nat) (w : Half) {s : State} (hk : Keeps M s0 s) (hM : Sub 38537447 M := by exact ‹Sub _ M›.of rfl) :
    OutKeeps M s0 (execVand k w s) := by
  unfold execVand
  try dsimp only
  repeat' (with_reducible first | assumption | exact hM.of rfl | apply Keeps.refl | apply outKeeps_ite | apply keeps_ite | apply OutKeeps.next | apply vec2_keeps)

theorem execVor_keeps {M : Nat} {s0 : State} (k : Nat) (w : Half) {s : State} (hk : Keeps M s0 s) (hM : Sub 38537447 M := by exact ‹Sub _ M›.of rfl) :
    OutKeeps M s0 (execVor k w s) := by
  unfold execVor
  try dsimp only
  repeat' (with_reducible first | assumption | exact hM.of rfl | apply Keeps.refl | apply outKeeps_ite | apply keeps_ite | apply OutKeeps.next | apply vec2_keeps)

theorem execVxor_keeps {M : Nat} {s0 : State} (k : Nat) (w : Half) {s : State} (hk : Keeps M s0 s) (hM : Sub 38537447 M := by exact ‹Sub _ M›.of rfl) :
    OutKeeps M s0 (execVxor k w s) := by
  unfold execVxor
  try dsimp only
  repeat' (with_reducible first | assumption | exact hM.of rfl | apply Keeps.refl | apply outKeeps_ite | apply keeps_ite | apply OutKeeps.next | apply vec2_keeps)

theorem execVandn_keeps {M : Nat} {s0 : State} (k : Nat) (w : Half) {s : State} (hk : Keeps M s0 s) (hM : Sub 38537447 M := by exact ‹Sub _ M›.of rfl) :
    OutKeeps M s0 (execVandn k w s) := by
  unfold execVandn
  try dsimp only
  repeat' (with_reducible first | assumption | exact hM.of rfl | apply Keeps.refl | apply outKeeps_ite | apply keeps_ite | apply OutKeeps.next | apply vec2_keeps)

theorem execVmin_keeps {M : Nat} {s0 : State} (k : Nat) (w : Half) {s : State} (hk : Keeps M s0 s) (hM : Sub 38537447 M := by exact ‹Sub _ M›.of rfl) :
    OutKeeps M s0 (execVmin k w s) := by
  unfold execVmin
  try dsimp only
  repeat' (with_reducible first | assumption | exact hM.of rfl | apply Keeps.refl | apply outKeeps_ite | apply keeps_ite | apply OutKeeps.next | apply vec2_keeps)

theorem execVmax_keeps {M : Nat} {s0 : State} (k : Nat) (w : Half) {s : State} (hk : Keeps M s0 s) (hM : Sub 38537447 M := by exact ‹Sub _ M›.of rfl) :
    OutKeeps M s0 (execVmax k w s) := by
  unfold execVmax
  try dsimp only
  repeat' (with_reducible first | assumption | exact hM.of rfl | apply Keeps.refl | apply outKeeps_ite | apply keeps_ite | apply OutKeeps.next | apply vec2_keeps)

theorem execVminu_keeps {M : Nat} {s0 : State} (k : Nat) (w : Half) {s : State} (hk : Keeps M s0 s) (hM : Sub 38537447 M := by exact ‹Sub _ M›.of rfl) :
    OutKeeps M s0 (execVminu k w s) := by
  unfold execVminu
  try dsimp only
  repeat' (with_reducible first | assumption | exact hM.of rfl | apply Keeps.refl | apply outKeeps_ite | apply keeps_ite | apply OutKeeps.next | apply vec2_keeps)

theorem execVmaxu_keeps {M : Nat} {s0 : State} (k : Nat) (w : Half) {s : State} (hk : Keeps M s0 s) (hM : Sub 38537447 M := by exact ‹Sub _ M›.of rfl) :
    OutKeeps M s0 (execVmaxu k w s) := by
  unfold execVmaxu
  try dsimp only
  repeat' (with_reducible first | assumption | exact hM.of rfl | apply Keeps.refl | apply outKeeps_ite | apply keeps_ite | apply OutKeeps.next | apply vec2_keeps)

theorem execVaddss_keeps {M : Nat} {s0 : State} (k : Nat) (w : Half) {s : State} (hk : Keeps M s0 s) (hM : Sub 38537447 M := by exact ‹Sub _ M›.of rfl) :
    OutKeeps M s0 (execVaddss k w s) := by
  unfold execVaddss
  try dsimp only
  repeat' (with_reducible first | assumption | exact hM.of rfl | apply Keeps.refl | apply outKeeps_ite | apply keeps_ite | apply OutKeeps.next | apply vecSat_keeps)

theorem execVaddsu_keeps {M : Nat} {s0 : State} (k : Nat) (w : Half) {s : State} (hk : Keeps M s0 s) (hM : Sub 38537447 M := by exact ‹Sub _ M›.of rfl) :
    OutKeeps M s0 (execVaddsu k w s) := by
  unfold execVaddsu
  try dsimp only
  repeat' (with_reducible first | assumption | exact hM.of rfl | apply Keeps.refl | apply outKeeps_ite | apply keeps_ite | apply OutKeeps.next | apply vecSat_keeps)

theorem execVsubss_keeps {M : Nat} {s0 : State} (k : Nat) (w : Half) {s : State} (hk : Keeps M s0 s) (hM : Sub 38537447 M := by exact ‹Sub _ M›.of rfl) :
    OutKeeps M s0 (execVsubss k w s) := by
  unfold execVsubss
  try dsimp only
  repeat' (with_reducible first | assumption | exact hM.of rfl | apply Keeps.refl | apply outKeeps_ite | apply keeps_ite | apply OutKeeps.next | apply vecSat_keeps)

theorem execVsubsu_keeps {M : Nat} {s0 : State} (k : Nat) (w : Half) {s : State} (hk : Keeps M s0 s) (hM : Sub 38537447 M := by exact ‹Sub _ M›.of rfl) :
    OutKeeps M s0 (execVsubsu k w s) := by
  unfold execVsubsu
  try dsimp only
  repeat' (with_reducible first | assumption | exact hM.of rfl | apply Keeps.refl | apply outKeeps_ite | apply keeps_ite | apply OutKeeps.next | apply vecSat_keeps)

theorem execVsll_keeps {M : Nat} {s0 : State} (k : Nat) (w : Half) {s : State} (hk : Keeps M s0 s) (hM : Sub 38537447 M := by exact ‹Sub _ M›.of rfl) :
    OutKeeps M s0 (execVsll k w s) := by
  unfold execVsll
  try dsimp only
  repeat' (with_reducible first | assumption | exact hM.of rfl | apply Keeps.refl | apply outKeeps_ite | apply keeps_ite | apply OutKeeps.next | apply vecShift_keeps)

theorem execVsrl_keeps {M : Nat} {s0 : State} (k : Nat) (w : Half) {s : State} (hk : Keeps M s0 s) (hM : Sub 38537447 M := by exact ‹Sub _ M›.of rfl) :
    OutKeeps M s0 (execVsrl k w s) := by
  unfold execVsrl
  try dsimp only
  repeat' (with_reducible first | assumption | exact hM.of rfl | apply Keeps.refl | apply outKeeps_ite | apply keeps_ite | apply OutKeeps.next | apply vecShift_keeps)

theorem execVsra_keeps {M : Nat} {s0 : State} (k : Nat) (w : Half) {s : State} (hk : Keeps M s0 s) (hM : Sub 38537447 M := by exact ‹Sub _ M›.of rfl) :
    OutKeeps M s0 (execVsra k w s) := by
  unfold execVsra
  try dsimp only
  repeat' (with_reducible first | assumption | exact hM.of rfl | apply Keeps.refl | apply outKeeps_ite | apply keeps_ite | apply OutKeeps.next | apply vecShift_keeps)

theorem execVbsl_keeps {M : Nat} {s0 : State} (k : Nat) (w : Half) {s : State} (hk : Keeps M s0 s) (hM : Sub 38537447 M := by exact ‹Sub _ M›.of rfl) :
    OutKeeps M s0 (execVbsl k w s) := by
  unfold execVbsl
  try dsimp only
  repeat' (with_reducible first | assumption | exact hM.of rfl | apply Keeps.refl | apply outKeeps_ite | apply keeps_ite | apply OutKeeps.next | apply setV_keeps | apply vecRow_keeps | apply EffKeeps.done | apply EffKeeps.jump | apply EffKeeps.went | apply EffKeeps.trap | apply EffKeeps.stay | apply MemKeeps.ok | apply MemKeeps.trap | apply MemKeeps.watch | apply MemKeeps.waits | split | intro _)

theorem execVcmpeq_keeps {M : Nat} {s0 : State} (k : Nat) (w : Half) {s : State} (hk : Keeps M s0 s) (hM : Sub 38537447 M := by exact ‹Sub _ M›.of rfl) :
    OutKeeps M s0 (execVcmpeq k w s) := by
  unfold execVcmpeq
  try dsimp only
  repeat' (with_reducible first | assumption | exact hM.of rfl | apply Keeps.refl | apply outKeeps_ite | apply keeps_ite | apply OutKeeps.next | apply vec2_keeps)

theorem execVcmpgt_keeps {M : Nat} {s0 : State} (k : Nat) (w : Half) {s : State} (hk : Keeps M s0 s) (hM : Sub 38537447 M := by exact ‹Sub _ M›.of rfl) :
    OutKeeps M s0 (execVcmpgt k w s) := by
  unfold execVcmpgt
  try dsimp only
  repeat' (with_reducible first | assumption | exact hM.of rfl | apply Keeps.refl | apply outKeeps_ite | apply keeps_ite | apply OutKeeps.next | apply vec2_keeps)

theorem execVcmpgtu_keeps {M : Nat} {s0 : State} (k : Nat) (w : Half) {s : State} (hk : Keeps M s0 s) (hM : Sub 38537447 M := by exact ‹Sub _ M›.of rfl) :
    OutKeeps M s0 (execVcmpgtu k w s) := by
  unfold execVcmpgtu
  try dsimp only
  repeat' (with_reducible first | assumption | exact hM.of rfl | apply Keeps.refl | apply outKeeps_ite | apply keeps_ite | apply OutKeeps.next | apply vec2_keeps)

theorem execVclmul_keeps {M : Nat} {s0 : State} (k : Nat) (w : Half) {s : State} (hk : Keeps M s0 s) (hM : Sub 38537447 M := by exact ‹Sub _ M›.of rfl) :
    OutKeeps M s0 (execVclmul k w s) := by
  unfold execVclmul
  try dsimp only
  repeat' (with_reducible first | assumption | exact hM.of rfl | apply Keeps.refl | apply outKeeps_ite | apply keeps_ite | apply OutKeeps.next | apply setV_keeps | apply vecRow_keeps | apply EffKeeps.done | apply EffKeeps.jump | apply EffKeeps.went | apply EffKeeps.trap | apply EffKeeps.stay | apply MemKeeps.ok | apply MemKeeps.trap | apply MemKeeps.watch | apply MemKeeps.waits | split | intro _)

theorem vecFp_keeps {M : Nat} {s0 : State} (k : Nat) (w : Half) (fn : Nat) (f : FpFmt → Nat → Nat → Nat → Nat × FpFlags) {s : State} (hk : Keeps M s0 s) (hM : Sub 38537447 M := by exact ‹Sub _ M›.of rfl) :
    Keeps M s0 (vecFp k w fn f s) := by
  unfold vecFp
  try dsimp only
  repeat' (with_reducible first | assumption | exact hM.of rfl | apply Keeps.refl | apply keeps_ite | apply setV_keeps | apply stickV_keeps | apply vecRow_keeps | apply EffKeeps.done | apply EffKeeps.jump | apply EffKeeps.went | apply EffKeeps.trap | apply EffKeeps.stay | apply MemKeeps.ok | apply MemKeeps.trap | apply MemKeeps.watch | apply MemKeeps.waits | split | intro _)

theorem execVfadd_keeps {M : Nat} {s0 : State} (k : Nat) (w : Half) {s : State} (hk : Keeps M s0 s) (hM : Sub 38537447 M := by exact ‹Sub _ M›.of rfl) :
    OutKeeps M s0 (execVfadd k w s) := by
  unfold execVfadd
  try dsimp only
  repeat' (with_reducible first | assumption | exact hM.of rfl | apply Keeps.refl | apply outKeeps_ite | apply keeps_ite | apply OutKeeps.next | apply vecFp_keeps)

theorem execVfsub_keeps {M : Nat} {s0 : State} (k : Nat) (w : Half) {s : State} (hk : Keeps M s0 s) (hM : Sub 38537447 M := by exact ‹Sub _ M›.of rfl) :
    OutKeeps M s0 (execVfsub k w s) := by
  unfold execVfsub
  try dsimp only
  repeat' (with_reducible first | assumption | exact hM.of rfl | apply Keeps.refl | apply outKeeps_ite | apply keeps_ite | apply OutKeeps.next | apply vecFp_keeps)

theorem execVfmul_keeps {M : Nat} {s0 : State} (k : Nat) (w : Half) {s : State} (hk : Keeps M s0 s) (hM : Sub 38537447 M := by exact ‹Sub _ M›.of rfl) :
    OutKeeps M s0 (execVfmul k w s) := by
  unfold execVfmul
  try dsimp only
  repeat' (with_reducible first | assumption | exact hM.of rfl | apply Keeps.refl | apply outKeeps_ite | apply keeps_ite | apply OutKeeps.next | apply vecFp_keeps)

theorem execVfma_keeps {M : Nat} {s0 : State} (k : Nat) (w : Half) {s : State} (hk : Keeps M s0 s) (hM : Sub 38537447 M := by exact ‹Sub _ M›.of rfl) :
    OutKeeps M s0 (execVfma k w s) := by
  unfold execVfma
  try dsimp only
  repeat' (with_reducible first | assumption | exact hM.of rfl | apply Keeps.refl | apply outKeeps_ite | apply keeps_ite | apply OutKeeps.next | apply vecFp_keeps)

theorem execVfmin_keeps {M : Nat} {s0 : State} (k : Nat) (w : Half) {s : State} (hk : Keeps M s0 s) (hM : Sub 38537447 M := by exact ‹Sub _ M›.of rfl) :
    OutKeeps M s0 (execVfmin k w s) := by
  unfold execVfmin
  try dsimp only
  repeat' (with_reducible first | assumption | exact hM.of rfl | apply Keeps.refl | apply outKeeps_ite | apply keeps_ite | apply OutKeeps.next | apply vecFp_keeps)

theorem execVfmax_keeps {M : Nat} {s0 : State} (k : Nat) (w : Half) {s : State} (hk : Keeps M s0 s) (hM : Sub 38537447 M := by exact ‹Sub _ M›.of rfl) :
    OutKeeps M s0 (execVfmax k w s) := by
  unfold execVfmax
  try dsimp only
  repeat' (with_reducible first | assumption | exact hM.of rfl | apply Keeps.refl | apply outKeeps_ite | apply keeps_ite | apply OutKeeps.next | apply vecFp_keeps)

theorem execVfcmpeq_keeps {M : Nat} {s0 : State} (k : Nat) (w : Half) {s : State} (hk : Keeps M s0 s) (hM : Sub 38537447 M := by exact ‹Sub _ M›.of rfl) :
    OutKeeps M s0 (execVfcmpeq k w s) := by
  unfold execVfcmpeq
  try dsimp only
  repeat' (with_reducible first | assumption | exact hM.of rfl | apply Keeps.refl | apply outKeeps_ite | apply keeps_ite | apply OutKeeps.next | apply vecFp_keeps)

theorem execVfcmplt_keeps {M : Nat} {s0 : State} (k : Nat) (w : Half) {s : State} (hk : Keeps M s0 s) (hM : Sub 38537447 M := by exact ‹Sub _ M›.of rfl) :
    OutKeeps M s0 (execVfcmplt k w s) := by
  unfold execVfcmplt
  try dsimp only
  repeat' (with_reducible first | assumption | exact hM.of rfl | apply Keeps.refl | apply outKeeps_ite | apply keeps_ite | apply OutKeeps.next | apply vecFp_keeps)

theorem execVfcmple_keeps {M : Nat} {s0 : State} (k : Nat) (w : Half) {s : State} (hk : Keeps M s0 s) (hM : Sub 38537447 M := by exact ‹Sub _ M›.of rfl) :
    OutKeeps M s0 (execVfcmple k w s) := by
  unfold execVfcmple
  try dsimp only
  repeat' (with_reducible first | assumption | exact hM.of rfl | apply Keeps.refl | apply outKeeps_ite | apply keeps_ite | apply OutKeeps.next | apply vecFp_keeps)

theorem vecFp1_keeps {M : Nat} {s0 : State} (k : Nat) (w : Half) (fn : Nat) (f : FpFmt → Nat → Nat × FpFlags) {s : State} (hk : Keeps M s0 s) (hM : Sub 38537447 M := by exact ‹Sub _ M›.of rfl) :
    Keeps M s0 (vecFp1 k w fn f s) := by
  unfold vecFp1
  try dsimp only
  repeat' (with_reducible first | assumption | exact hM.of rfl | apply Keeps.refl | apply keeps_ite | apply vecFp_keeps)

theorem execVcvtif_keeps {M : Nat} {s0 : State} (k : Nat) (w : Half) {s : State} (hk : Keeps M s0 s) (hM : Sub 38537447 M := by exact ‹Sub _ M›.of rfl) :
    OutKeeps M s0 (execVcvtif k w s) := by
  unfold execVcvtif
  try dsimp only
  repeat' (with_reducible first | assumption | exact hM.of rfl | apply Keeps.refl | apply outKeeps_ite | apply keeps_ite | apply OutKeeps.next | apply vecFp1_keeps)

theorem execVcvtfi_keeps {M : Nat} {s0 : State} (k : Nat) (w : Half) {s : State} (hk : Keeps M s0 s) (hM : Sub 38537447 M := by exact ‹Sub _ M›.of rfl) :
    OutKeeps M s0 (execVcvtfi k w s) := by
  unfold execVcvtfi
  try dsimp only
  repeat' (with_reducible first | assumption | exact hM.of rfl | apply Keeps.refl | apply outKeeps_ite | apply keeps_ite | apply OutKeeps.next | apply vecFp1_keeps)

theorem execVdup_keeps {M : Nat} {s0 : State} (k : Nat) (w : Half) {s : State} (hk : Keeps M s0 s) (hM : Sub 38537447 M := by exact ‹Sub _ M›.of rfl) :
    OutKeeps M s0 (execVdup k w s) := by
  unfold execVdup
  try dsimp only
  repeat' (with_reducible first | assumption | exact hM.of rfl | apply Keeps.refl | apply outKeeps_ite | apply keeps_ite | apply OutKeeps.next | apply setV_keeps | apply vecRow_keeps | apply EffKeeps.done | apply EffKeeps.jump | apply EffKeeps.went | apply EffKeeps.trap | apply EffKeeps.stay | apply MemKeeps.ok | apply MemKeeps.trap | apply MemKeeps.watch | apply MemKeeps.waits | split | intro _)

theorem execVext_keeps {M : Nat} {s0 : State} (k : Nat) (w : Half) {s : State} (hk : Keeps M s0 s) (hM : Sub 38537447 M := by exact ‹Sub _ M›.of rfl) :
    OutKeeps M s0 (execVext k w s) := by
  unfold execVext
  try dsimp only
  repeat' (with_reducible first | assumption | exact hM.of rfl | apply Keeps.refl | apply outKeeps_ite | apply keeps_ite | apply OutKeeps.next | apply putG_keeps | apply vecRow_keeps | apply EffKeeps.done | apply EffKeeps.jump | apply EffKeeps.went | apply EffKeeps.trap | apply EffKeeps.stay | apply MemKeeps.ok | apply MemKeeps.trap | apply MemKeeps.watch | apply MemKeeps.waits | split | intro _)

theorem execVins_keeps {M : Nat} {s0 : State} (k : Nat) (w : Half) {s : State} (hk : Keeps M s0 s) (hM : Sub 38537447 M := by exact ‹Sub _ M›.of rfl) :
    OutKeeps M s0 (execVins k w s) := by
  unfold execVins
  try dsimp only
  repeat' (with_reducible first | assumption | exact hM.of rfl | apply Keeps.refl | apply outKeeps_ite | apply keeps_ite | apply OutKeeps.next | apply setV_keeps | apply vecRow_keeps | apply EffKeeps.done | apply EffKeeps.jump | apply EffKeeps.went | apply EffKeeps.trap | apply EffKeeps.stay | apply MemKeeps.ok | apply MemKeeps.trap | apply MemKeeps.watch | apply MemKeeps.waits | split | intro _)

theorem execVmovmsk_keeps {M : Nat} {s0 : State} (k : Nat) (w : Half) {s : State} (hk : Keeps M s0 s) (hM : Sub 38537447 M := by exact ‹Sub _ M›.of rfl) :
    OutKeeps M s0 (execVmovmsk k w s) := by
  unfold execVmovmsk
  try dsimp only
  repeat' (with_reducible first | assumption | exact hM.of rfl | apply Keeps.refl | apply outKeeps_ite | apply keeps_ite | apply OutKeeps.next | apply putG_keeps | apply vecRow_keeps | apply EffKeeps.done | apply EffKeeps.jump | apply EffKeeps.went | apply EffKeeps.trap | apply EffKeeps.stay | apply MemKeeps.ok | apply MemKeeps.trap | apply MemKeeps.watch | apply MemKeeps.waits | split | intro _)

theorem execVshufb_keeps {M : Nat} {s0 : State} (k : Nat) (w : Half) {s : State} (hk : Keeps M s0 s) (hM : Sub 38537447 M := by exact ‹Sub _ M›.of rfl) :
    OutKeeps M s0 (execVshufb k w s) := by
  unfold execVshufb
  try dsimp only
  repeat' (with_reducible first | assumption | exact hM.of rfl | apply Keeps.refl | apply outKeeps_ite | apply keeps_ite | apply OutKeeps.next | apply setV_keeps | apply vecRow_keeps | apply EffKeeps.done | apply EffKeeps.jump | apply EffKeeps.went | apply EffKeeps.trap | apply EffKeeps.stay | apply MemKeeps.ok | apply MemKeeps.trap | apply MemKeeps.watch | apply MemKeeps.waits | split | intro _)

theorem vecReduce_keeps {M : Nat} {s0 : State} (k : Nat) (w : Half) (fn : Nat) (f : List Nat → Nat) {s : State} (hk : Keeps M s0 s) (hM : Sub 38537447 M := by exact ‹Sub _ M›.of rfl) :
    Keeps M s0 (vecReduce k w fn f s) := by
  unfold vecReduce
  try dsimp only
  repeat' (with_reducible first | assumption | exact hM.of rfl | apply Keeps.refl | apply keeps_ite | apply putG_keeps | apply vecRow_keeps | apply EffKeeps.done | apply EffKeeps.jump | apply EffKeeps.went | apply EffKeeps.trap | apply EffKeeps.stay | apply MemKeeps.ok | apply MemKeeps.trap | apply MemKeeps.watch | apply MemKeeps.waits | split | intro _)

theorem execVredaddu_keeps {M : Nat} {s0 : State} (k : Nat) (w : Half) {s : State} (hk : Keeps M s0 s) (hM : Sub 38537447 M := by exact ‹Sub _ M›.of rfl) :
    OutKeeps M s0 (execVredaddu k w s) := by
  unfold execVredaddu
  try dsimp only
  repeat' (with_reducible first | assumption | exact hM.of rfl | apply Keeps.refl | apply outKeeps_ite | apply keeps_ite | apply OutKeeps.next | apply vecReduce_keeps)

theorem execVredmaxu_keeps {M : Nat} {s0 : State} (k : Nat) (w : Half) {s : State} (hk : Keeps M s0 s) (hM : Sub 38537447 M := by exact ‹Sub _ M›.of rfl) :
    OutKeeps M s0 (execVredmaxu k w s) := by
  unfold execVredmaxu
  try dsimp only
  repeat' (with_reducible first | assumption | exact hM.of rfl | apply Keeps.refl | apply outKeeps_ite | apply keeps_ite | apply OutKeeps.next | apply vecReduce_keeps)

theorem execVredminu_keeps {M : Nat} {s0 : State} (k : Nat) (w : Half) {s : State} (hk : Keeps M s0 s) (hM : Sub 38537447 M := by exact ‹Sub _ M›.of rfl) :
    OutKeeps M s0 (execVredminu k w s) := by
  unfold execVredminu
  try dsimp only
  repeat' (with_reducible first | assumption | exact hM.of rfl | apply Keeps.refl | apply outKeeps_ite | apply keeps_ite | apply OutKeeps.next | apply vecReduce_keeps)

theorem execVmov_keeps {M : Nat} {s0 : State} (k : Nat) (w : Half) {s : State} (hk : Keeps M s0 s) (hM : Sub 38537447 M := by exact ‹Sub _ M›.of rfl) :
    OutKeeps M s0 (execVmov k w s) := by
  unfold execVmov
  try dsimp only
  repeat' (with_reducible first | assumption | exact hM.of rfl | apply Keeps.refl | apply outKeeps_ite | apply keeps_ite | apply OutKeeps.next | apply setV_keeps | apply vecRow_keeps | apply EffKeeps.done | apply EffKeeps.jump | apply EffKeeps.went | apply EffKeeps.trap | apply EffKeeps.stay | apply MemKeeps.ok | apply MemKeeps.trap | apply MemKeeps.watch | apply MemKeeps.waits | split | intro _)

theorem execVld_keeps {M : Nat} {s0 : State} (k : Nat) (w : Half) {s : State} (hk : Keeps M s0 s) (hM : Sub 67108855 M := by exact ‹Sub _ M›.of rfl) :
    OutKeeps M s0 (execVld k w s) := by
  unfold execVld
  try dsimp only
  repeat' (with_reducible first | assumption | exact hM.of rfl | apply Keeps.refl | apply outKeeps_ite | apply keeps_ite | apply OutKeeps.next | apply loadBytes_keeps | apply runInstr_keeps | apply setV_keeps | apply vecBody_keeps | apply withMem_keeps | apply EffKeeps.done | apply EffKeeps.jump | apply EffKeeps.went | apply EffKeeps.trap | apply EffKeeps.stay | apply MemKeeps.ok | apply MemKeeps.trap | apply MemKeeps.watch | apply MemKeeps.waits | split | intro _)

theorem execVst_keeps {M : Nat} {s0 : State} (k : Nat) (w : Half) {s : State} (hk : Keeps M s0 s) (hM : Sub 67108855 M := by exact ‹Sub _ M›.of rfl) :
    OutKeeps M s0 (execVst k w s) := by
  unfold execVst
  try dsimp only
  repeat' (with_reducible first | assumption | exact hM.of rfl | apply Keeps.refl | apply outKeeps_ite | apply keeps_ite | apply OutKeeps.next | apply runInstr_keeps | apply storeBytes_keeps | apply vecBody_keeps | apply withMem_keeps | apply EffKeeps.done | apply EffKeeps.jump | apply EffKeeps.went | apply EffKeeps.trap | apply EffKeeps.stay | apply MemKeeps.ok | apply MemKeeps.trap | apply MemKeeps.watch | apply MemKeeps.waits | split | intro _)

end Sys2Proof.Machine
end

