-- ==== Sys2Proof/Laws/Exec.lean ====
section
/-! SUPPORT. Every command leaves what `Keeps` says: the queue, the variant, the order of memory and registers, the sizes of the event
recorder, and every part that `mayChange` does not name. -/

set_option Elab.async false

namespace Sys2Proof.Machine

/-- The bit of a part in a set of parts. -/
def Part.bit (p : Part) : Nat :=
  match p with
  | .regs => 0
  | .mem => 1
  | .free => 2
  | .tick => 3
  | .feat => 4
  | .pbk => 5
  | .pow => 6
  | .nv => 7
  | .ftl => 8
  | .media => 9
  | .ten => 10
  | .prog => 11
  | .dram => 12
  | .mat => 13
  | .comp => 14
  | .scan => 15
  | .dig => 16
  | .keys => 17
  | .sch => 18
  | .cores => 19
  | .clus => 20
  | .net => 21
  | .mgt => 22
  | .bus => 23
  | .acc => 24
  | .dirty => 25

/-- A list of parts as a set. -/
def partMask (l : List Part) : Nat := l.foldr (fun p m => 2 ^ p.bit ||| m) 0

theorem Part.bit_inj (p q : Part) (h : p.bit = q.bit) : p = q := by
  cases p <;> cases q <;> first | rfl | cases h

theorem partMask_testBit (l : List Part) (p : Part) : (partMask l).testBit p.bit = decide (p ∈ l) := by
  induction l with
  | nil => simp [partMask]
  | cons q l ih =>
    have : partMask (q :: l) = 2 ^ q.bit ||| partMask l := rfl
    rw [this, Nat.testBit_or, ih, Nat.testBit_two_pow]
    by_cases h : p = q
    · simp [h]
    · have : q.bit ≠ p.bit := fun e => h (Part.bit_inj _ _ e.symm)
      simp [h, this]

/-- What `Keeps` says of a set of parts, part by part. -/
theorem Only.same {l : List Part} {s t : State} (h : Only (partMask l) s t) (p : Part) (hp : p ∉ l) : p.same s t := by
  have b : (partMask l).testBit p.bit = false := by rw [partMask_testBit]; simpa using hp
  cases p
  · exact h.regs b
  · exact h.mem b
  · exact h.free b
  · exact h.tick b
  · exact h.feat b
  · exact h.pbk b
  · exact h.pow b
  · exact h.nv b
  · exact h.ftl b
  · exact h.media b
  · exact h.ten b
  · exact h.prog b
  · exact h.dram b
  · exact h.mat b
  · exact h.comp b
  · exact h.scan b
  · exact h.dig b
  · exact h.keys b
  · exact h.sch b
  · exact h.cores b
  · exact h.clus b
  · exact h.net b
  · exact h.mgt b
  · exact h.bus b
  · exact h.acc b
  · exact h.dirty b

theorem sub_all_39648167 : Sub 39648167 (partMask (allBut [.tick, .feat, .pow, .ten, .dig, .keys, .net, .bus, .acc])) := by
  unfold Sub
  decide

theorem sub_all_41745335 : Sub 41745335 (partMask (allBut [.tick, .pow, .ten, .dig, .keys, .bus, .acc])) := by
  unfold Sub
  decide

theorem sub_all_39780263 : Sub 39780263 (partMask (allBut [.tick, .feat, .pow, .dig, .net, .bus, .acc])) := by
  unfold Sub
  decide

theorem sub_all_39230375 : Sub 39230375 (partMask (allBut [.tick, .feat, .pow, .ten, .mat, .comp, .dig, .cores, .net, .bus, .acc])) := by
  unfold Sub
  decide

theorem sub_all_23012321 : Sub 23012321 (partMask (allBut [.mem, .free, .tick, .feat, .ten, .prog, .dram, .comp, .scan, .net, .bus, .dirty])) := by
  unfold Sub
  decide

theorem sub_parts_4982753 : Sub 4982753 (partMask ([.regs, .pbk, .pow, .nv, .ftl, .media, .ten, .sch, .cores, .mgt])) := by
  unfold Sub
  decide

theorem sub_all_58523639 : Sub 58523639 (partMask (allBut [.tick, .dig, .keys, .bus])) := by
  unfold Sub
  decide

theorem sub_parts_5900261 : Sub 5900261 (partMask ([.regs, .free, .pbk, .pow, .nv, .ftl, .media, .ten, .keys, .cores, .clus, .mgt])) := by
  unfold Sub
  decide

theorem sub_parts_353 : Sub 353 (partMask ([.regs, .pbk, .pow, .ftl])) := by
  unfold Sub
  decide

theorem sub_parts_933 : Sub 933 (partMask ([.regs, .free, .pbk, .nv, .ftl, .media])) := by
  unfold Sub
  decide

theorem sub_parts_4195237 : Sub 4195237 (partMask ([.regs, .free, .pbk, .nv, .ftl, .media, .mgt])) := by
  unfold Sub
  decide

theorem sub_parts_4457445 : Sub 4457445 (partMask ([.regs, .free, .pbk, .pow, .nv, .ftl, .media, .sch, .mgt])) := by
  unfold Sub
  decide

theorem sub_parts_38834343 : Sub 38834343 (partMask ([.regs, .mem, .free, .pbk, .nv, .dram, .scan, .clus, .mgt, .dirty])) := by
  unfold Sub
  decide

theorem sub_parts_34648615 : Sub 34648615 (partMask ([.regs, .mem, .free, .pbk, .media, .dram, .mat, .scan, .clus, .dirty])) := by
  unfold Sub
  decide

theorem sub_parts_33281 : Sub 33281 (partMask ([.regs, .media, .scan])) := by
  unfold Sub
  decide

theorem sub_parts_33313 : Sub 33313 (partMask ([.regs, .pbk, .media, .scan])) := by
  unfold Sub
  decide

theorem sub_parts_38834855 : Sub 38834855 (partMask ([.regs, .mem, .free, .pbk, .nv, .media, .dram, .scan, .clus, .mgt, .dirty])) := by
  unfold Sub
  decide

theorem sub_parts_38809763 : Sub 38809763 (partMask ([.regs, .mem, .pbk, .nv, .dram, .mat, .clus, .mgt, .dirty])) := by
  unfold Sub
  decide

theorem sub_parts_8229 : Sub 8229 (partMask ([.regs, .free, .pbk, .mat])) := by
  unfold Sub
  decide

theorem sub_parts_34623527 : Sub 34623527 (partMask ([.regs, .mem, .free, .pbk, .dram, .comp, .clus, .dirty])) := by
  unfold Sub
  decide

theorem sub_parts_16417 : Sub 16417 (partMask ([.regs, .pbk, .comp])) := by
  unfold Sub
  decide

theorem sub_parts_34672679 : Sub 34672679 (partMask ([.regs, .mem, .free, .pbk, .dram, .dig, .clus, .dirty])) := by
  unfold Sub
  decide

theorem sub_parts_34803747 : Sub 34803747 (partMask ([.regs, .mem, .pbk, .dram, .dig, .keys, .clus, .dirty])) := by
  unfold Sub
  decide

theorem sub_parts_4325601 : Sub 4325601 (partMask ([.regs, .pbk, .pow, .nv, .keys, .mgt])) := by
  unfold Sub
  decide

theorem sub_parts_4325861 : Sub 4325861 (partMask ([.regs, .free, .pbk, .pow, .nv, .ftl, .keys, .mgt])) := by
  unfold Sub
  decide

theorem sub_parts_788993 : Sub 788993 (partMask ([.regs, .media, .prog, .sch, .cores])) := by
  unfold Sub
  decide

theorem sub_parts_264737 : Sub 264737 (partMask ([.regs, .pbk, .media, .prog, .sch])) := by
  unfold Sub
  decide

theorem sub_parts_39096999 : Sub 39096999 (partMask ([.regs, .mem, .free, .pbk, .nv, .media, .dram, .scan, .sch, .clus, .mgt, .dirty])) := by
  unfold Sub
  decide

theorem sub_parts_34994215 : Sub 34994215 (partMask ([.regs, .mem, .free, .pbk, .prog, .dram, .mat, .comp, .scan, .dig, .sch, .clus, .dirty])) := by
  unfold Sub
  decide

theorem sub_parts_38801571 : Sub 38801571 (partMask ([.regs, .mem, .pbk, .nv, .dram, .clus, .mgt, .dirty])) := by
  unfold Sub
  decide

theorem sub_parts_38802343 : Sub 38802343 (partMask ([.regs, .mem, .free, .pbk, .nv, .ftl, .media, .dram, .clus, .mgt, .dirty])) := by
  unfold Sub
  decide

theorem sub_all_39647911 : Sub 39647911 (partMask (allBut [.tick, .feat, .pow, .ftl, .ten, .dig, .keys, .net, .bus, .acc])) := by
  unfold Sub
  decide

theorem sub_parts_34872103 : Sub 34872103 (partMask ([.regs, .mem, .free, .pbk, .ftl, .media, .prog, .dram, .sch, .clus, .dirty])) := by
  unfold Sub
  decide

theorem sub_all_41745319 : Sub 41745319 (partMask (allBut [.tick, .feat, .pow, .ten, .dig, .keys, .bus, .acc])) := by
  unfold Sub
  decide

theorem sub_parts_1157 : Sub 1157 (partMask ([.regs, .free, .nv, .ten])) := by
  unfold Sub
  decide

theorem sub_parts_33559687 : Sub 33559687 (partMask ([.regs, .mem, .free, .nv, .ten, .dram, .dirty])) := by
  unfold Sub
  decide

theorem sub_parts_1153 : Sub 1153 (partMask ([.regs, .nv, .ten])) := by
  unfold Sub
  decide

theorem sub_parts_4194309 : Sub 4194309 (partMask ([.regs, .free, .mgt])) := by
  unfold Sub
  decide

theorem sub_parts_4458657 : Sub 4458657 (partMask ([.regs, .pbk, .nv, .prog, .sch, .mgt])) := by
  unfold Sub
  decide

theorem sub_parts_4492197 : Sub 4492197 (partMask ([.regs, .free, .pbk, .nv, .ftl, .media, .prog, .scan, .sch, .mgt])) := by
  unfold Sub
  decide

theorem sub_parts_4194369 : Sub 4194369 (partMask ([.regs, .pow, .mgt])) := by
  unfold Sub
  decide

theorem sub_parts_997 : Sub 997 (partMask ([.regs, .free, .pbk, .pow, .nv, .ftl, .media])) := by
  unfold Sub
  decide

theorem sub_parts_4983525 : Sub 4983525 (partMask ([.regs, .free, .pbk, .pow, .nv, .media, .prog, .sch, .cores, .mgt])) := by
  unfold Sub
  decide

theorem sub_all_35397351 : Sub 35397351 (partMask (allBut [.tick, .feat, .ftl, .mat, .comp, .scan, .dig, .keys, .net, .mgt, .bus, .acc])) := by
  unfold Sub
  decide

theorem sub_parts_4983013 : Sub 4983013 (partMask ([.regs, .free, .pbk, .pow, .nv, .prog, .sch, .cores, .mgt])) := by
  unfold Sub
  decide

theorem sub_parts_35393253 : Sub 35393253 (partMask ([.regs, .free, .pbk, .pow, .nv, .media, .ten, .prog, .sch, .cores, .clus, .dirty])) := by
  unfold Sub
  decide

theorem sub_parts_38537447 : Sub 38537447 (partMask ([.regs, .mem, .free, .pbk, .pow, .nv, .prog, .sch, .cores, .mgt, .dirty])) := by
  unfold Sub
  decide

theorem sub_parts_38537959 : Sub 38537959 (partMask ([.regs, .mem, .free, .pbk, .pow, .nv, .media, .prog, .sch, .cores, .mgt, .dirty])) := by
  unfold Sub
  decide

theorem sub_parts_4980965 : Sub 4980965 (partMask ([.regs, .free, .pbk, .pow, .nv, .sch, .cores, .mgt])) := by
  unfold Sub
  decide

theorem sub_all_41745383 : Sub 41745383 (partMask (allBut [.tick, .feat, .ten, .dig, .keys, .bus, .acc])) := by
  unfold Sub
  decide

theorem sub_parts_34640423 : Sub 34640423 (partMask ([.regs, .mem, .free, .pbk, .media, .dram, .scan, .clus, .dirty])) := by
  unfold Sub
  decide

theorem sub_parts_0 : Sub 0 (partMask ([])) := by
  unfold Sub
  decide

theorem sub_parts_1 : Sub 1 (partMask ([.regs])) := by
  unfold Sub
  decide

theorem sub_parts_33 : Sub 33 (partMask ([.regs, .pbk])) := by
  unfold Sub
  decide

theorem sub_parts_64 : Sub 64 (partMask ([.pow])) := by
  unfold Sub
  decide

theorem sub_parts_65 : Sub 65 (partMask ([.regs, .pow])) := by
  unfold Sub
  decide

theorem sub_parts_97 : Sub 97 (partMask ([.regs, .pbk, .pow])) := by
  unfold Sub
  decide

theorem sub_parts_128 : Sub 128 (partMask ([.nv])) := by
  unfold Sub
  decide

theorem sub_parts_129 : Sub 129 (partMask ([.regs, .nv])) := by
  unfold Sub
  decide

theorem sub_parts_161 : Sub 161 (partMask ([.regs, .pbk, .nv])) := by
  unfold Sub
  decide

theorem sub_parts_225 : Sub 225 (partMask ([.regs, .pbk, .pow, .nv])) := by
  unfold Sub
  decide

theorem sub_parts_513 : Sub 513 (partMask ([.regs, .media])) := by
  unfold Sub
  decide

theorem sub_parts_545 : Sub 545 (partMask ([.regs, .pbk, .media])) := by
  unfold Sub
  decide

theorem sub_parts_769 : Sub 769 (partMask ([.regs, .ftl, .media])) := by
  unfold Sub
  decide

theorem sub_parts_2048 : Sub 2048 (partMask ([.prog])) := by
  unfold Sub
  decide

theorem sub_parts_2049 : Sub 2049 (partMask ([.regs, .prog])) := by
  unfold Sub
  decide

theorem sub_parts_4129 : Sub 4129 (partMask ([.regs, .pbk, .dram])) := by
  unfold Sub
  decide

theorem sub_parts_8192 : Sub 8192 (partMask ([.mat])) := by
  unfold Sub
  decide

theorem sub_parts_8193 : Sub 8193 (partMask ([.regs, .mat])) := by
  unfold Sub
  decide

theorem sub_parts_8225 : Sub 8225 (partMask ([.regs, .pbk, .mat])) := by
  unfold Sub
  decide

theorem sub_parts_65569 : Sub 65569 (partMask ([.regs, .pbk, .dig])) := by
  unfold Sub
  decide

theorem sub_parts_262144 : Sub 262144 (partMask ([.sch])) := by
  unfold Sub
  decide

theorem sub_parts_262145 : Sub 262145 (partMask ([.regs, .sch])) := by
  unfold Sub
  decide

theorem sub_parts_262657 : Sub 262657 (partMask ([.regs, .media, .sch])) := by
  unfold Sub
  decide

theorem sub_parts_264225 : Sub 264225 (partMask ([.regs, .pbk, .prog, .sch])) := by
  unfold Sub
  decide

theorem sub_parts_264705 : Sub 264705 (partMask ([.regs, .media, .prog, .sch])) := by
  unfold Sub
  decide

theorem sub_parts_265377 : Sub 265377 (partMask ([.regs, .pbk, .nv, .ten, .prog, .sch])) := by
  unfold Sub
  decide

theorem sub_parts_524289 : Sub 524289 (partMask ([.regs, .cores])) := by
  unfold Sub
  decide

theorem sub_parts_524321 : Sub 524321 (partMask ([.regs, .pbk, .cores])) := by
  unfold Sub
  decide

theorem sub_parts_526337 : Sub 526337 (partMask ([.regs, .prog, .cores])) := by
  unfold Sub
  decide

theorem sub_parts_534529 : Sub 534529 (partMask ([.regs, .prog, .mat, .cores])) := by
  unfold Sub
  decide

theorem sub_parts_786465 : Sub 786465 (partMask ([.regs, .pbk, .sch, .cores])) := by
  unfold Sub
  decide

theorem sub_parts_788513 : Sub 788513 (partMask ([.regs, .pbk, .prog, .sch, .cores])) := by
  unfold Sub
  decide

theorem sub_parts_788517 : Sub 788517 (partMask ([.regs, .free, .pbk, .prog, .sch, .cores])) := by
  unfold Sub
  decide

theorem sub_parts_789025 : Sub 789025 (partMask ([.regs, .pbk, .media, .prog, .sch, .cores])) := by
  unfold Sub
  decide

theorem sub_parts_1048576 : Sub 1048576 (partMask ([.clus])) := by
  unfold Sub
  decide

theorem sub_parts_1048577 : Sub 1048577 (partMask ([.regs, .clus])) := by
  unfold Sub
  decide

theorem sub_parts_1048609 : Sub 1048609 (partMask ([.regs, .pbk, .clus])) := by
  unfold Sub
  decide

theorem sub_parts_1837093 : Sub 1837093 (partMask ([.regs, .free, .pbk, .prog, .sch, .cores, .clus])) := by
  unfold Sub
  decide

theorem sub_parts_2097152 : Sub 2097152 (partMask ([.net])) := by
  unfold Sub
  decide

theorem sub_parts_2097153 : Sub 2097153 (partMask ([.regs, .net])) := by
  unfold Sub
  decide

theorem sub_parts_2097185 : Sub 2097185 (partMask ([.regs, .pbk, .net])) := by
  unfold Sub
  decide

theorem sub_parts_2097313 : Sub 2097313 (partMask ([.regs, .pbk, .nv, .net])) := by
  unfold Sub
  decide

theorem sub_parts_4194304 : Sub 4194304 (partMask ([.mgt])) := by
  unfold Sub
  decide

theorem sub_parts_4194305 : Sub 4194305 (partMask ([.regs, .mgt])) := by
  unfold Sub
  decide

theorem sub_parts_4194308 : Sub 4194308 (partMask ([.free, .mgt])) := by
  unfold Sub
  decide

theorem sub_parts_4194337 : Sub 4194337 (partMask ([.regs, .pbk, .mgt])) := by
  unfold Sub
  decide

theorem sub_parts_4194341 : Sub 4194341 (partMask ([.regs, .free, .pbk, .mgt])) := by
  unfold Sub
  decide

theorem sub_parts_4194465 : Sub 4194465 (partMask ([.regs, .pbk, .nv, .mgt])) := by
  unfold Sub
  decide

theorem sub_parts_4194469 : Sub 4194469 (partMask ([.regs, .free, .pbk, .nv, .mgt])) := by
  unfold Sub
  decide

theorem sub_parts_4194529 : Sub 4194529 (partMask ([.regs, .pbk, .pow, .nv, .mgt])) := by
  unfold Sub
  decide

theorem sub_parts_4195233 : Sub 4195233 (partMask ([.regs, .pbk, .nv, .ftl, .media, .mgt])) := by
  unfold Sub
  decide

theorem sub_parts_4195297 : Sub 4195297 (partMask ([.regs, .pbk, .pow, .nv, .ftl, .media, .mgt])) := by
  unfold Sub
  decide

theorem sub_parts_4196513 : Sub 4196513 (partMask ([.regs, .pbk, .nv, .prog, .mgt])) := by
  unfold Sub
  decide

theorem sub_parts_4198561 : Sub 4198561 (partMask ([.regs, .pbk, .nv, .dram, .mgt])) := by
  unfold Sub
  decide

theorem sub_parts_4202657 : Sub 4202657 (partMask ([.regs, .pbk, .nv, .mat, .mgt])) := by
  unfold Sub
  decide

theorem sub_parts_4459429 : Sub 4459429 (partMask ([.regs, .free, .pbk, .nv, .ftl, .media, .prog, .sch, .mgt])) := by
  unfold Sub
  decide

theorem sub_parts_4459493 : Sub 4459493 (partMask ([.regs, .free, .pbk, .pow, .nv, .ftl, .media, .prog, .sch, .mgt])) := by
  unfold Sub
  decide

theorem sub_parts_4718817 : Sub 4718817 (partMask ([.regs, .pbk, .pow, .nv, .cores, .mgt])) := by
  unfold Sub
  decide

theorem sub_parts_6291617 : Sub 6291617 (partMask ([.regs, .pbk, .nv, .net, .mgt])) := by
  unfold Sub
  decide

theorem sub_parts_8912929 : Sub 8912929 (partMask ([.regs, .pbk, .cores, .bus])) := by
  unfold Sub
  decide

theorem sub_parts_34603041 : Sub 34603041 (partMask ([.regs, .pbk, .clus, .dirty])) := by
  unfold Sub
  decide

theorem sub_parts_34603047 : Sub 34603047 (partMask ([.regs, .mem, .free, .pbk, .clus, .dirty])) := by
  unfold Sub
  decide

theorem sub_parts_37750951 : Sub 37750951 (partMask ([.regs, .mem, .free, .pbk, .nv, .prog, .mgt, .dirty])) := by
  unfold Sub
  decide

theorem sub_parts_37885091 : Sub 37885091 (partMask ([.regs, .mem, .pbk, .nv, .ten, .dram, .keys, .mgt, .dirty])) := by
  unfold Sub
  decide

theorem sub_parts_38013095 : Sub 38013095 (partMask ([.regs, .mem, .free, .pbk, .nv, .prog, .sch, .mgt, .dirty])) := by
  unfold Sub
  decide

theorem sub_all_39754727 : Sub 39754727 (partMask (allBut [.tick, .feat, .ten, .mat, .comp, .dig, .net, .bus, .acc])) := by
  unfold Sub
  decide

theorem sub_all_67108839 : Sub 67108839 (partMask (allBut [.tick, .feat])) := by
  unfold Sub
  decide

theorem sub_all_67108855 : Sub 67108855 (partMask (allBut [.tick])) := by
  unfold Sub
  decide

/-- What every command leaves. -/
theorem exec_keeps (c : Instr) (s : State) : OutKeeps (partMask (mayChange c)) s (exec c s) := by
  cases c with
  | registerWrite addr size value req => exact execRegisterWrite_keeps addr size value req (Keeps.refl s) (sub_all_67108855)
  | malformedRegisterAccess addr size value req => exact execMalformedRegisterAccess_keeps addr size value req (Keeps.refl s) (sub_all_67108855)
  | reservedAddressAccess addr size req => exact execReservedAddressAccess_keeps addr size req (Keeps.refl s) (sub_parts_33)
  | stalledAccessComplete => exact execStalledAccessComplete_keeps (Keeps.refl s) (sub_all_67108855)
  | doorbellWrite ctrl q tail => exact execDoorbellWrite_keeps ctrl q tail (Keeps.refl s) (sub_all_67108855)
  | cqHeadDoorbell ctrl q head => exact execCqHeadDoorbell_keeps ctrl q head (Keeps.refl s) (sub_all_67108855)
  | commandFetch cid k nsid lba nlb => exact execCommandFetch_keeps cid k nsid lba nlb (Keeps.refl s) (sub_parts_4458657)
  | tagFreed => exact execTagFreed_keeps (Keeps.refl s) (sub_parts_129)
  | trackerEntryFreed => exact execTrackerEntryFreed_keeps (Keeps.refl s) (sub_parts_128)
  | write tag data pr => exact execWrite_keeps tag data pr (Keeps.refl s) (sub_parts_4459429)
  | landingProgramDone tag ok badChan => exact execLandingProgramDone_keeps tag ok badChan (Keeps.refl s) (sub_parts_4459429)
  | read tag pr => exact execRead_keeps tag pr (Keeps.refl s) (sub_parts_4459429)
  | mapPageLoadDone page => exact execMapPageLoadDone_keeps page (Keeps.refl s) (sub_parts_4459429)
  | pageReadDone chan die dec => exact execPageReadDone_keeps chan die dec (Keeps.refl s) (sub_parts_4492197)
  | rebuildComplete chan key ok => exact execRebuildComplete_keeps chan key ok (Keeps.refl s) (sub_parts_4492197)
  | flush tag => exact execFlush_keeps tag (Keeps.refl s) (sub_parts_4194465)
  | writeZeroes tag deac pr => exact execWriteZeroes_keeps tag deac pr (Keeps.refl s) (sub_parts_4459429)
  | datasetManagement tag ad ranges => exact execDatasetManagement_keeps tag ad ranges (Keeps.refl s) (sub_parts_4459429)
  | compare tag data pr => exact execCompare_keeps tag data pr (Keeps.refl s) (sub_parts_4459429)
  | fusedCompareAndWrite tagC tagW cmp data pr bad => exact execFusedCompareAndWrite_keeps tagC tagW cmp data pr bad (Keeps.refl s) (sub_parts_4459429)
  | verify tag pr => exact execVerify_keeps tag pr (Keeps.refl s) (sub_parts_4459429)
  | copy tag fmt ranges pr bad => exact execCopy_keeps tag fmt ranges pr bad (Keeps.refl s) (sub_parts_4459429)
  | reservationRegister tag act iekey cptpl crkey nrkey => exact execReservationRegister_keeps tag act iekey cptpl crkey nrkey (Keeps.refl s) (sub_parts_4194465)
  | reservationAcquire tag act iekey rtype crkey prkey => exact execReservationAcquire_keeps tag act iekey rtype crkey prkey (Keeps.refl s) (sub_parts_4459429)
  | reservationRelease tag act iekey rtype crkey => exact execReservationRelease_keeps tag act iekey rtype crkey (Keeps.refl s) (sub_parts_4194465)
  | reservationReport tag dwords eds => exact execReservationReport_keeps tag dwords eds (Keeps.refl s) (sub_parts_4194465)
  | abort tag sqid cid => exact execAbort_keeps tag sqid cid (Keeps.refl s) (sub_parts_4459429)
  | createIoSubmissionQueue tag qid size0 cq prio addr pc => exact execCreateIoSubmissionQueue_keeps tag qid size0 cq prio addr pc (Keeps.refl s) (sub_parts_4194465)
  | createIoCompletionQueue tag qid size0 addr pc vector => exact execCreateIoCompletionQueue_keeps tag qid size0 addr pc vector (Keeps.refl s) (sub_parts_4194465)
  | deleteIoSubmissionQueue tag qid => exact execDeleteIoSubmissionQueue_keeps tag qid (Keeps.refl s) (sub_all_39648167)
  | deleteIoCompletionQueue tag qid => exact execDeleteIoCompletionQueue_keeps tag qid (Keeps.refl s) (sub_parts_4194465)
  | identify tag cns cntid csi => exact execIdentify_keeps tag cns cntid csi (Keeps.refl s) (sub_parts_4194469)
  | getFeatures tag fid sel dw11 => exact execGetFeatures_keeps tag fid sel dw11 (Keeps.refl s) (sub_parts_4194465)
  | setFeatures tag fid dw11 sv data => exact execSetFeatures_keeps tag fid dw11 sv data (Keeps.refl s) (sub_all_41745335)
  | setPowerManagement tag dw11 sv => exact execSetPowerManagement_keeps tag dw11 sv (Keeps.refl s) (sub_all_41745335)
  | setOrderedQueue tag dw11 sv => exact execSetOrderedQueue_keeps tag dw11 sv (Keeps.refl s) (sub_all_41745335)
  | setLandingPoolPolicy tag dw11 sv => exact execSetLandingPoolPolicy_keeps tag dw11 sv (Keeps.refl s) (sub_all_41745335)
  | setScanDefaults tag dw11 sv => exact execSetScanDefaults_keeps tag dw11 sv (Keeps.refl s) (sub_all_41745335)
  | setComputeRuntime tag dw11 sv => exact execSetComputeRuntime_keeps tag dw11 sv (Keeps.refl s) (sub_all_41745335)
  | setThermalThresholds tag dw11 sv => exact execSetThermalThresholds_keeps tag dw11 sv (Keeps.refl s) (sub_all_41745335)
  | setEventNotification tag dw11 sv => exact execSetEventNotification_keeps tag dw11 sv (Keeps.refl s) (sub_all_41745335)
  | setTenantArbitrationReadOut tag dw11 sv => exact execSetTenantArbitrationReadOut_keeps tag dw11 sv (Keeps.refl s) (sub_all_41745335)
  | setNetworkPorts tag dw11 sv data lost => exact execSetNetworkPorts_keeps tag dw11 sv data lost (Keeps.refl s) (sub_all_41745335)
  | getLogPage tag lid off dwords lsp rae => exact execGetLogPage_keeps tag lid off dwords lsp rae (Keeps.refl s) (sub_parts_4194469)
  | moduleIdentityLog tag off dwords => exact execModuleIdentityLog_keeps tag off dwords (Keeps.refl s) (sub_parts_4194469)
  | wearAndSparesLog tag off dwords => exact execWearAndSparesLog_keeps tag off dwords (Keeps.refl s) (sub_parts_4194469)
  | powerAndModeLog tag off dwords => exact execPowerAndModeLog_keeps tag off dwords (Keeps.refl s) (sub_parts_4194469)
  | tagsAndOrderingLog tag off dwords => exact execTagsAndOrderingLog_keeps tag off dwords (Keeps.refl s) (sub_parts_4194469)
  | channelHealthLog tag off dwords => exact execChannelHealthLog_keeps tag off dwords (Keeps.refl s) (sub_parts_4194469)
  | matchArraysLog tag off dwords => exact execMatchArraysLog_keeps tag off dwords (Keeps.refl s) (sub_parts_4194469)
  | computeClustersLog tag off dwords => exact execComputeClustersLog_keeps tag off dwords (Keeps.refl s) (sub_parts_4194469)
  | dramAndSramErrorsLog tag off dwords => exact execDramAndSramErrorsLog_keeps tag off dwords (Keeps.refl s) (sub_parts_4194469)
  | networkPortsLog tag off dwords => exact execNetworkPortsLog_keeps tag off dwords (Keeps.refl s) (sub_parts_4194469)
  | sensorsAndThrottlingLog tag off dwords => exact execSensorsAndThrottlingLog_keeps tag off dwords (Keeps.refl s) (sub_parts_4194469)
  | eventRecorderWindowLog tag off dwords byIndex rae tier => exact execEventRecorderWindowLog_keeps tag off dwords byIndex rae tier (Keeps.refl s) (sub_parts_4194469)
  | firmwareComponentsLog tag off dwords => exact execFirmwareComponentsLog_keeps tag off dwords (Keeps.refl s) (sub_parts_4194469)
  | tenantResourcesLog tag off dwords => exact execTenantResourcesLog_keeps tag off dwords (Keeps.refl s) (sub_parts_4194469)
  | scanStatisticsLog tag off dwords => exact execScanStatisticsLog_keeps tag off dwords (Keeps.refl s) (sub_parts_4194469)
  | asynchronousEventRequest tag => exact execAsynchronousEventRequest_keeps tag (Keeps.refl s) (sub_parts_4194465)
  | keepAlive tag => exact execKeepAlive_keeps tag (Keeps.refl s) (sub_parts_4194465)
  | namespaceCreate tag a => exact execNamespaceCreate_keeps tag a (Keeps.refl s) (sub_parts_37885091)
  | namespaceDelete tag => exact execNamespaceDelete_keeps tag (Keeps.refl s) (sub_all_39780263)
  | namespaceAttach tag ctrls => exact execNamespaceAttach_keeps tag ctrls (Keeps.refl s) (sub_parts_4194465)
  | namespaceDetach tag ctrls => exact execNamespaceDetach_keeps tag ctrls (Keeps.refl s) (sub_parts_4194465)
  | formatNvm tag idx ses pi ext => exact execFormatNvm_keeps tag idx ses pi ext (Keeps.refl s) (sub_all_39230375)
  | sanitize tag act ndas => exact execSanitize_keeps tag act ndas (Keeps.refl s) (sub_all_39754727)
  | sanitizeComplete bad failed => exact execSanitizeComplete_keeps bad failed (Keeps.refl s) (sub_all_23012321)
  | deviceSelfTest tag code => exact execDeviceSelfTest_keeps tag code (Keeps.refl s) (sub_parts_4194465)
  | nvmeMiSend tag r => exact execNvmeMiSend_keeps tag r (Keeps.refl s) (sub_all_67108855)
  | nvmeMiReceive tag r => exact execNvmeMiReceive_keeps tag r (Keeps.refl s) (sub_all_67108855)
  | secondaryControllerOffline tag cntlid => exact execSecondaryControllerOffline_keeps tag cntlid (Keeps.refl s) (sub_parts_4194465)
  | secondaryControllerOnline tag cntlid => exact execSecondaryControllerOnline_keeps tag cntlid (Keeps.refl s) (sub_parts_4194465)
  | firmwareDownload tag off dwords => exact execFirmwareDownload_keeps tag off dwords (Keeps.refl s) (sub_parts_4194465)
  | firmwareCommit tag fs ca images => exact execFirmwareCommit_keeps tag fs ca images (Keeps.refl s) (sub_parts_4194465)
  | controlFirmwareHandover ended => exact execControlFirmwareHandover_keeps ended (Keeps.refl s) (sub_all_67108855)
  | fetchHold v req => exact execFetchHold_keeps v req (Keeps.refl s) (sub_parts_33)
  | shutdown ctrl normal => exact execShutdown_keeps ctrl normal (Keeps.refl s) (sub_all_67108855)
  | controllerReset ctrl => exact execControllerReset_keeps ctrl (Keeps.refl s) (sub_all_67108855)
  | functionLevelReset f => exact execFunctionLevelReset_keeps f (Keeps.refl s) (sub_all_67108855)
  | nvmSubsystemReset value => exact execNvmSubsystemReset_keeps value (Keeps.refl s) (sub_all_67108855)
  | perstAssert => exact execPerstAssert_keeps (Keeps.refl s) (sub_all_67108855)
  | perstDeassert => exact execPerstDeassert_keeps (Keeps.refl s) (sub_all_67108855)
  | perstbAssert => exact execPerstbAssert_keeps (Keeps.refl s) (sub_all_67108855)
  | linkTrained portB speed width flit degraded => exact execLinkTrained_keeps portB speed width flit degraded (Keeps.refl s) (sub_parts_161)
  | linkDown portB => exact execLinkDown_keeps portB (Keeps.refl s) (sub_parts_161)
  | configurationRequest portB r => exact execConfigurationRequest_keeps portB r (Keeps.refl s) (sub_all_67108855)
  | barReservedAccess f bar off value => exact execBarReservedAccess_keeps f bar off value (Keeps.refl s) (sub_all_67108855)
  | vbusWarn => exact execVbusWarn_keeps (Keeps.refl s) (sub_parts_4982753)
  | pfailAssert => exact execPfailAssert_keeps (Keeps.refl s) (sub_parts_4982753)
  | pfailDeassert => exact execPfailDeassert_keeps (Keeps.refl s) (sub_all_67108839)
  | pfailHoldExpiry => exact execPfailHoldExpiry_keeps (Keeps.refl s) (sub_parts_64)
  | braceComplete => exact execBraceComplete_keeps (Keeps.refl s) (sub_parts_4459493)
  | braceRecovery => exact execBraceRecovery_keeps (Keeps.refl s) (sub_all_67108855)
  | holdupSwitchIn => exact execHoldupSwitchIn_keeps (Keeps.refl s) (sub_parts_65)
  | brownoutLimit => exact execBrownoutLimit_keeps (Keeps.refl s) (sub_parts_65)
  | sealStart => exact execSealStart_keeps (Keeps.refl s) (sub_parts_4194369)
  | sealEnd energy duration => exact execSealEnd_keeps energy duration (Keeps.refl s) (sub_all_67108839)
  | sealJudgment vbusAt50 => exact execSealJudgment_keeps vbusAt50 (Keeps.refl s) (sub_all_67108855)
  | restExpiry => exact execRestExpiry_keeps (Keeps.refl s) (sub_all_67108855)
  | keepVbusRecovery => exact execKeepVbusRecovery_keeps (Keeps.refl s) (sub_all_67108839)
  | regulatorCutoff franked => exact execRegulatorCutoff_keeps franked (Keeps.refl s) (sub_all_67108855)
  | inputAtStartThreshold aux => exact execInputAtStartThreshold_keeps aux (Keeps.refl s) (sub_parts_65)
  | inputStop aux => exact execInputStop_keeps aux (Keeps.refl s) (sub_parts_65)
  | inputOvervoltage aux => exact execInputOvervoltage_keeps aux (Keeps.refl s) (sub_parts_97)
  | inputReconnect aux => exact execInputReconnect_keeps aux (Keeps.refl s) (sub_parts_65)
  | sourceTransfer => exact execSourceTransfer_keeps (Keeps.refl s) (sub_parts_97)
  | sourceReturn => exact execSourceReturn_keeps (Keeps.refl s) (sub_parts_97)
  | reserveReached => exact execReserveReached_keeps (Keeps.refl s) (sub_parts_4459429)
  | reserveLow => exact execReserveLow_keeps (Keeps.refl s) (sub_parts_33)
  | heldWriteTimeout tag => exact execHeldWriteTimeout_keeps tag (Keeps.refl s) (sub_parts_4459429)
  | bankTest => exact execBankTest_keeps (Keeps.refl s) (sub_parts_33)
  | bankTestInterval => exact execBankTestInterval_keeps (Keeps.refl s) (sub_parts_33)
  | bankTestDone energy cap esr => exact execBankTestDone_keeps energy cap esr (Keeps.refl s) (sub_parts_4194529)
  | pwrdisAssert => exact execPwrdisAssert_keeps (Keeps.refl s) (sub_parts_64)
  | pwrdisHoldExpiry => exact execPwrdisHoldExpiry_keeps (Keeps.refl s) (sub_all_67108855)
  | pwrdisDeassert => exact execPwrdisDeassert_keeps (Keeps.refl s) (sub_parts_4718817)
  | wakeTimerExpiry => exact execWakeTimerExpiry_keeps (Keeps.refl s) (sub_all_67108839)
  | resetReqModule key req => exact execResetReqModule_keeps key req (Keeps.refl s) (sub_all_67108855)
  | resetReqNvmssr key req => exact execResetReqNvmssr_keeps key req (Keeps.refl s) (sub_all_58523639)
  | resetReqKeep key req => exact execResetReqKeep_keeps key req (Keeps.refl s) (sub_parts_8912929)
  | resetReqStart key req => exact execResetReqStart_keeps key req (Keeps.refl s) (sub_parts_4718817)
  | moduleReset c => exact execModuleReset_keeps c (Keeps.refl s) (sub_all_67108855)
  | moduleResetOffExpiry => exact execModuleResetOffExpiry_keeps (Keeps.refl s) (sub_parts_4718817)
  | managementWatchdogExpiry => exact execManagementWatchdogExpiry_keeps (Keeps.refl s) (sub_all_67108855)
  | orderlyStop g => exact execOrderlyStop_keeps g (Keeps.refl s) (sub_all_67108855)
  | orderlyStopGraceExpiry => exact execOrderlyStopGraceExpiry_keeps (Keeps.refl s) (sub_all_67108855)
  | inputQualified aux => exact execInputQualified_keeps aux (Keeps.refl s) (sub_all_67108839)
  | firmwareVerified fallbacks allFail => exact execFirmwareVerified_keeps fallbacks allFail (Keeps.refl s) (sub_all_67108839)
  | dramDelayCheck failed => exact execDramDelayCheck_keeps failed (Keeps.refl s) (sub_all_67108839)
  | mapDirectoryLoaded primaryOk secondOk cals => exact execMapDirectoryLoaded_keeps primaryOk secondOk cals (Keeps.refl s) (sub_parts_5900261)
  | journalReplayDone ms primaryOk secondOk => exact execJournalReplayDone_keeps ms primaryOk secondOk (Keeps.refl s) (sub_parts_353)
  | openBlockScanDone ms total => exact execOpenBlockScanDone_keeps ms total (Keeps.refl s) (sub_parts_4195297)
  | cstsRdySet ctrl => exact execCstsRdySet_keeps ctrl (Keeps.refl s) (sub_parts_128)
  | riseTimeout => exact execRiseTimeout_keeps (Keeps.refl s) (sub_all_67108855)
  | idleConditionsChange transfers => exact execIdleConditionsChange_keeps transfers (Keeps.refl s) (sub_parts_225)
  | apstIdleExpiry ctrl ps => exact execApstIdleExpiry_keeps ctrl ps (Keeps.refl s) (sub_parts_161)
  | idleEntry deep => exact execIdleEntry_keeps deep (Keeps.refl s) (sub_all_67108855)
  | idleWake bit elapsed bad => exact execIdleWake_keeps bit elapsed bad (Keeps.refl s) (sub_all_67108855)
  | delayWakeExpiry elapsed => exact execDelayWakeExpiry_keeps elapsed (Keeps.refl s) (sub_all_67108855)
  | pllLockLoss n lockUs => exact execPllLockLoss_keeps n lockUs (Keeps.refl s) (sub_all_67108855)
  | xtalSwitch => exact execXtalSwitch_keeps (Keeps.refl s) (sub_parts_1)
  | controlCoreRetire k => exact execControlCoreRetire_keeps k (Keeps.refl s) (sub_parts_4194529)
  | fillRecompute => exact execFillRecompute_keeps (Keeps.refl s) (sub_parts_4459429)
  | foldStart source quiet => exact execFoldStart_keeps source quiet (Keeps.refl s) (sub_parts_769)
  | foldProgramDone source ok bad => exact execFoldProgramDone_keeps source ok bad (Keeps.refl s) (sub_parts_4459493)
  | garbageCollection => exact execGarbageCollection_keeps (Keeps.refl s) (sub_parts_769)
  | gcCopyLanded source ok badChan bad => exact execGcCopyLanded_keeps source ok badChan bad (Keeps.refl s) (sub_parts_4459493)
  | wearLevelling => exact execWearLevelling_keeps (Keeps.refl s) (sub_parts_769)
  | secureDiscard => exact execSecureDiscard_keeps (Keeps.refl s) (sub_parts_769)
  | journalFlush => exact execJournalFlush_keeps (Keeps.refl s) (sub_parts_769)
  | checkpoint => exact execCheckpoint_keeps (Keeps.refl s) (sub_parts_4459429)
  | mapPageWritten page => exact execMapPageWritten_keeps page (Keeps.refl s) (sub_parts_4459429)
  | backgroundMapLoad => exact execBackgroundMapLoad_keeps (Keeps.refl s) (sub_parts_4195233)
  | eraseDone chan die ok => exact execEraseDone_keeps chan die ok (Keeps.refl s) (sub_parts_4459493)
  | dieTimeout chan die fault => exact execDieTimeout_keeps chan die fault (Keeps.refl s) (sub_parts_4459493)
  | governorAdmit chan bus foldLate => exact execGovernorAdmit_keeps chan bus foldLate (Keeps.refl s) (sub_parts_262657)
  | eraseSuspend chan die run => exact execEraseSuspend_keeps chan die run (Keeps.refl s) (sub_parts_545)
  | suspendResume chan die limit bus => exact execSuspendResume_keeps chan die limit bus (Keeps.refl s) (sub_parts_513)
  | preReadIssue chan bus => exact execPreReadIssue_keeps chan bus (Keeps.refl s) (sub_parts_262657)
  | preReadStaged chan die ok => exact execPreReadStaged_keeps chan die ok (Keeps.refl s) (sub_parts_264705)
  | retryBackoffExpiry chan die ok calGood => exact execRetryBackoffExpiry_keeps chan die ok calGood (Keeps.refl s) (sub_parts_933)
  | channelReset chan calGood us => exact execChannelReset_keeps chan calGood us (Keeps.refl s) (sub_parts_997)
  | calibrate chan good again us => exact execCalibrate_keeps chan good again us (Keeps.refl s) (sub_parts_4195237)
  | periodicCalibration chan good again us => exact execPeriodicCalibration_keeps chan good again us (Keeps.refl s) (sub_parts_4195237)
  | channelHold chan v => exact execChannelHold_keeps chan v (Keeps.refl s) (sub_parts_1)
  | channelRetire chan byFailure key req => exact execChannelRetire_keeps chan byFailure key req (Keeps.refl s) (sub_parts_4457445)
  | patrolRead chan die sb => exact execPatrolRead_keeps chan die sb (Keeps.refl s) (sub_parts_513)
  | microcodeSwitch chan version ok => exact execMicrocodeSwitch_keeps chan version ok (Keeps.refl s) (sub_all_67108855)
  | scan tag off => exact execScan_keeps tag off (Keeps.refl s) (sub_parts_38834343)
  | scanJobAccepted => exact execScanJobAccepted_keeps (Keeps.refl s) (sub_parts_38834855)
  | scanIuEvaluate num iu via => exact execScanIuEvaluate_keeps num iu via (Keeps.refl s) (sub_parts_34648615)
  | outputRingSpace num chan => exact execOutputRingSpace_keeps num chan (Keeps.refl s) (sub_parts_34640423)
  | scanTimeLimit num => exact execScanTimeLimit_keeps num (Keeps.refl s) (sub_parts_33281)
  | scanContextAbort chan mask req => exact execScanContextAbort_keeps chan mask req (Keeps.refl s) (sub_parts_33313)
  | scanJobComplete num => exact execScanJobComplete_keeps num (Keeps.refl s) (sub_parts_38834855)
  | matchLookup tag off n => exact execMatchLookup_keeps tag off n (Keeps.refl s) (sub_parts_38809763)
  | matchTableCreate tag c11 c12 c13 => exact execMatchTableCreate_keeps tag c11 c12 c13 (Keeps.refl s) (sub_parts_4194465)
  | matchTableDelete tag n => exact execMatchTableDelete_keeps tag n (Keeps.refl s) (sub_parts_4202657)
  | matchSearch f table key errs => exact execMatchSearch_keeps f table key errs (Keeps.refl s) (sub_parts_8225)
  | matchSearchFrom f table key start errs => exact execMatchSearchFrom_keeps f table key start errs (Keeps.refl s) (sub_parts_8225)
  | matchWriteEntry f table index value care => exact execMatchWriteEntry_keeps f table index value care (Keeps.refl s) (sub_parts_8193)
  | matchDeleteEntry f table index => exact execMatchDeleteEntry_keeps f table index (Keeps.refl s) (sub_parts_8193)
  | matchReadEntry f table index => exact execMatchReadEntry_keeps f table index (Keeps.refl s) (sub_parts_8192)
  | tableMapWrite table req v => exact execTableMapWrite_keeps table req v (Keeps.refl s) (sub_parts_8225)
  | tableClearDone bank => exact execTableClearDone_keeps bank (Keeps.refl s) (sub_parts_8193)
  | entryInvalidate bank row req => exact execEntryInvalidate_keeps bank row req (Keeps.refl s) (sub_parts_8225)
  | entryValidate bank row req => exact execEntryValidate_keeps bank row req (Keeps.refl s) (sub_parts_8225)
  | matchWindowWrite bank off req bs => exact execMatchWindowWrite_keeps bank off req bs (Keeps.refl s) (sub_parts_8225)
  | matchScrub bank fixed dead corrected => exact execMatchScrub_keeps bank fixed dead corrected (Keeps.refl s) (sub_parts_8229)
  | rowRepair bank row readBack => exact execRowRepair_keeps bank row readBack (Keeps.refl s) (sub_parts_8225)
  | columnRepair bank bit => exact execColumnRepair_keeps bank bit (Keeps.refl s) (sub_parts_8225)
  | compress n sp addr more => exact execCompress_keeps n sp addr more (Keeps.refl s) (sub_parts_34623527)
  | expand n sp addr => exact execExpand_keeps n sp addr (Keeps.refl s) (sub_parts_34623527)
  | check n sp addr => exact execCheck_keeps n sp addr (Keeps.refl s) (sub_parts_34623527)
  | engineFault n => exact execEngineFault_keeps n (Keeps.refl s) (sub_parts_16417)
  | engineAbort n sp addr => exact execEngineAbort_keeps n sp addr (Keeps.refl s) (sub_parts_34623527)
  | engineRetire n key req => exact execEngineRetire_keeps n key req (Keeps.refl s) (sub_parts_33)
  | digestClaim c req => exact execDigestClaim_keeps c req (Keeps.refl s) (sub_parts_34672679)
  | digestRelease c req => exact execDigestRelease_keeps c req (Keeps.refl s) (sub_parts_34672679)
  | digestStart c v req => exact execDigestStart_keeps c v req (Keeps.refl s) (sub_parts_34672679)
  | digestDataWrite c w size off req => exact execDigestDataWrite_keeps c w size off req (Keeps.refl s) (sub_parts_65569)
  | digestKeyWrite c j w req => exact execDigestKeyWrite_keeps c j w req (Keeps.refl s) (sub_parts_65569)
  | digestBlockTaken c => exact execDigestBlockTaken_keeps c (Keeps.refl s) (sub_parts_1)
  | digestFinish c v req => exact execDigestFinish_keeps c v req (Keeps.refl s) (sub_parts_34672679)
  | digestAbort c v req => exact execDigestAbort_keeps c v req (Keeps.refl s) (sub_parts_34672679)
  | digestExport c v req => exact execDigestExport_keeps c v req (Keeps.refl s) (sub_parts_34672679)
  | digestImport c v req => exact execDigestImport_keeps c v req (Keeps.refl s) (sub_parts_34672679)
  | digestLetter sp addr => exact execDigestLetter_keeps sp addr (Keeps.refl s) (sub_parts_34672679)
  | keyManagerAlarm letters => exact execKeyManagerAlarm_keeps letters (Keeps.refl s) (sub_parts_34803747)
  | contextAlarm c => exact execContextAlarm_keeps c (Keeps.refl s) (sub_parts_65569)
  | slotReloadDone ok => exact execSlotReloadDone_keeps ok (Keeps.refl s) (sub_parts_4325601)
  | loadKeySlot slot entry req ok => exact execLoadKeySlot_keeps slot entry req ok (Keeps.refl s) (sub_parts_4325861)
  | zeroizeKeySlot slot entry req => exact execZeroizeKeySlot_keeps slot entry req (Keeps.refl s) (sub_parts_4325861)
  | cryptoEraseEntry entry req => exact execCryptoEraseEntry_keeps entry req (Keeps.refl s) (sub_parts_4325861)
  | keyUnwrap nsid ok => exact execKeyUnwrap_keeps nsid ok (Keeps.refl s) (sub_parts_4325601)
  | keySlotFreed slot ok => exact execKeySlotFreed_keeps slot ok (Keeps.refl s) (sub_parts_4325601)
  | runAheadEntry k a => exact execRunAheadEntry_keeps k a (Keeps.refl s) (sub_parts_524289)
  | runAheadExit k cycles fault => exact execRunAheadExit_keeps k cycles fault (Keeps.refl s) (sub_parts_788993)
  | preReadDispatchTimeout h => exact execPreReadDispatchTimeout_keeps h (Keeps.refl s) (sub_parts_262657)
  | preStagedExpiry f nsid iu => exact execPreStagedExpiry_keeps f nsid iu (Keeps.refl s) (sub_parts_2049)
  | windowLoad k ea => exact execWindowLoad_keeps k ea (Keeps.refl s) (sub_parts_4983525)
  | windowPageStaged h => exact execWindowPageStaged_keeps h (Keeps.refl s) (sub_parts_264225)
  | dirtyFault n p left selfTest => exact execDirtyFault_keeps n p left selfTest (Keeps.refl s) (sub_all_35397351)
  | fillError n load => exact execFillError_keeps n load (Keeps.refl s) (sub_parts_4983013)
  | cacheEnableWrite n v req => exact execCacheEnableWrite_keeps n v req (Keeps.refl s) (sub_parts_34603041)
  | wayLockWrite n v req => exact execWayLockWrite_keeps n v req (Keeps.refl s) (sub_parts_1048609)
  | invAll n req => exact execInvAll_keeps n req (Keeps.refl s) (sub_parts_34603047)
  | cleanAll n req => exact execCleanAll_keeps n req (Keeps.refl s) (sub_parts_34603047)
  | cleanInvAll n req => exact execCleanInvAll_keeps n req (Keeps.refl s) (sub_parts_34603047)
  | invRange n req => exact execInvRange_keeps n req (Keeps.refl s) (sub_parts_34603047)
  | cleanRange n req => exact execCleanRange_keeps n req (Keeps.refl s) (sub_parts_34603047)
  | cleanInvRange n req => exact execCleanInvRange_keeps n req (Keeps.refl s) (sub_parts_34603047)
  | iinvRange n req => exact execIinvRange_keeps n req (Keeps.refl s) (sub_parts_34603047)
  | lockFillRange n req => exact execLockFillRange_keeps n req (Keeps.refl s) (sub_parts_34603047)
  | cmoDone n => exact execCmoDone_keeps n (Keeps.refl s) (sub_parts_1048577)
  | clusterReset n selfTest => exact execClusterReset_keeps n selfTest (Keeps.refl s) (sub_parts_35393253)
  | clusterRetire n byCtrl key req => exact execClusterRetire_keeps n byCtrl key req (Keeps.refl s) (sub_parts_35393253)
  | runtimeUpdate n => exact execRuntimeUpdate_keeps n (Keeps.refl s) (sub_parts_1048576)
  | runtimeUpdateGraceExpiry n version startOk selfTest => exact execRuntimeUpdateGraceExpiry_keeps n version startOk selfTest (Keeps.refl s) (sub_all_67108855)
  | add k w => exact execAdd_keeps k w (Keeps.refl s) (sub_parts_38537447)
  | sub k w => exact execSub_keeps k w (Keeps.refl s) (sub_parts_38537447)
  | and k w => exact execAnd_keeps k w (Keeps.refl s) (sub_parts_38537447)
  | or k w => exact execOr_keeps k w (Keeps.refl s) (sub_parts_38537447)
  | xor k w => exact execXor_keeps k w (Keeps.refl s) (sub_parts_38537447)
  | andn k w => exact execAndn_keeps k w (Keeps.refl s) (sub_parts_38537447)
  | orn k w => exact execOrn_keeps k w (Keeps.refl s) (sub_parts_38537447)
  | sll k w => exact execSll_keeps k w (Keeps.refl s) (sub_parts_38537447)
  | srl k w => exact execSrl_keeps k w (Keeps.refl s) (sub_parts_38537447)
  | sra k w => exact execSra_keeps k w (Keeps.refl s) (sub_parts_38537447)
  | ror k w => exact execRor_keeps k w (Keeps.refl s) (sub_parts_38537447)
  | addw k w => exact execAddw_keeps k w (Keeps.refl s) (sub_parts_38537447)
  | subw k w => exact execSubw_keeps k w (Keeps.refl s) (sub_parts_38537447)
  | sllw k w => exact execSllw_keeps k w (Keeps.refl s) (sub_parts_38537447)
  | srlw k w => exact execSrlw_keeps k w (Keeps.refl s) (sub_parts_38537447)
  | sraw k w => exact execSraw_keeps k w (Keeps.refl s) (sub_parts_38537447)
  | mul k w => exact execMul_keeps k w (Keeps.refl s) (sub_parts_38537447)
  | mulh k w => exact execMulh_keeps k w (Keeps.refl s) (sub_parts_38537447)
  | mulhu k w => exact execMulhu_keeps k w (Keeps.refl s) (sub_parts_38537447)
  | mulw k w => exact execMulw_keeps k w (Keeps.refl s) (sub_parts_38537447)
  | div k w => exact execDiv_keeps k w (Keeps.refl s) (sub_parts_38537447)
  | divu k w => exact execDivu_keeps k w (Keeps.refl s) (sub_parts_38537447)
  | rem k w => exact execRem_keeps k w (Keeps.refl s) (sub_parts_38537447)
  | remu k w => exact execRemu_keeps k w (Keeps.refl s) (sub_parts_38537447)
  | clz k w => exact execClz_keeps k w (Keeps.refl s) (sub_parts_38537447)
  | ctz k w => exact execCtz_keeps k w (Keeps.refl s) (sub_parts_38537447)
  | popc k w => exact execPopc_keeps k w (Keeps.refl s) (sub_parts_38537447)
  | bswap k w => exact execBswap_keeps k w (Keeps.refl s) (sub_parts_38537447)
  | sextb k w => exact execSextb_keeps k w (Keeps.refl s) (sub_parts_38537447)
  | sexth k w => exact execSexth_keeps k w (Keeps.refl s) (sub_parts_38537447)
  | sextw k w => exact execSextw_keeps k w (Keeps.refl s) (sub_parts_38537447)
  | zextw k w => exact execZextw_keeps k w (Keeps.refl s) (sub_parts_38537447)
  | min k w => exact execMin_keeps k w (Keeps.refl s) (sub_parts_38537447)
  | max k w => exact execMax_keeps k w (Keeps.refl s) (sub_parts_38537447)
  | minu k w => exact execMinu_keeps k w (Keeps.refl s) (sub_parts_38537447)
  | maxu k w => exact execMaxu_keeps k w (Keeps.refl s) (sub_parts_38537447)
  | cmpeq k w => exact execCmpeq_keeps k w (Keeps.refl s) (sub_parts_38537447)
  | cmpne k w => exact execCmpne_keeps k w (Keeps.refl s) (sub_parts_38537447)
  | cmplt k w => exact execCmplt_keeps k w (Keeps.refl s) (sub_parts_38537447)
  | cmpltu k w => exact execCmpltu_keeps k w (Keeps.refl s) (sub_parts_38537447)
  | cmple k w => exact execCmple_keeps k w (Keeps.refl s) (sub_parts_38537447)
  | cmpleu k w => exact execCmpleu_keeps k w (Keeps.refl s) (sub_parts_38537447)
  | sel k w => exact execSel_keeps k w (Keeps.refl s) (sub_parts_38537447)
  | addi k w => exact execAddi_keeps k w (Keeps.refl s) (sub_parts_38537447)
  | andi k w => exact execAndi_keeps k w (Keeps.refl s) (sub_parts_38537447)
  | ori k w => exact execOri_keeps k w (Keeps.refl s) (sub_parts_38537447)
  | xori k w => exact execXori_keeps k w (Keeps.refl s) (sub_parts_38537447)
  | lui k w => exact execLui_keeps k w (Keeps.refl s) (sub_parts_38537447)
  | shi k w => exact execShi_keeps k w (Keeps.refl s) (sub_parts_38537447)
  | cmpeqi k w => exact execCmpeqi_keeps k w (Keeps.refl s) (sub_parts_38537447)
  | cmpnei k w => exact execCmpnei_keeps k w (Keeps.refl s) (sub_parts_38537447)
  | cmplti k w => exact execCmplti_keeps k w (Keeps.refl s) (sub_parts_38537447)
  | cmpltui k w => exact execCmpltui_keeps k w (Keeps.refl s) (sub_parts_38537447)
  | addpc k w => exact execAddpc_keeps k w (Keeps.refl s) (sub_parts_38537447)
  | ldb k w => exact execLdb_keeps k w (Keeps.refl s) (sub_all_67108855)
  | ldbu k w => exact execLdbu_keeps k w (Keeps.refl s) (sub_all_67108855)
  | ldh k w => exact execLdh_keeps k w (Keeps.refl s) (sub_all_67108855)
  | ldhu k w => exact execLdhu_keeps k w (Keeps.refl s) (sub_all_67108855)
  | ldw k w => exact execLdw_keeps k w (Keeps.refl s) (sub_all_67108855)
  | ldwu k w => exact execLdwu_keeps k w (Keeps.refl s) (sub_all_67108855)
  | ldd k w => exact execLdd_keeps k w (Keeps.refl s) (sub_all_67108855)
  | stb k w => exact execStb_keeps k w (Keeps.refl s) (sub_all_67108855)
  | sth k w => exact execSth_keeps k w (Keeps.refl s) (sub_all_67108855)
  | stw k w => exact execStw_keeps k w (Keeps.refl s) (sub_all_67108855)
  | std k w => exact execStd_keeps k w (Keeps.refl s) (sub_all_67108855)
  | wldbu k w => exact execWldbu_keeps k w (Keeps.refl s) (sub_parts_38537959)
  | wldhu k w => exact execWldhu_keeps k w (Keeps.refl s) (sub_parts_38537959)
  | wldwu k w => exact execWldwu_keeps k w (Keeps.refl s) (sub_parts_38537959)
  | wldd k w => exact execWldd_keeps k w (Keeps.refl s) (sub_parts_38537959)
  | prd k w => exact execPrd_keeps k w (Keeps.refl s) (sub_parts_38537447)
  | amoSwap k w => exact execAmoSwap_keeps k w (Keeps.refl s) (sub_all_67108855)
  | amoAdd k w => exact execAmoAdd_keeps k w (Keeps.refl s) (sub_all_67108855)
  | amoAnd k w => exact execAmoAnd_keeps k w (Keeps.refl s) (sub_all_67108855)
  | amoOr k w => exact execAmoOr_keeps k w (Keeps.refl s) (sub_all_67108855)
  | amoXor k w => exact execAmoXor_keeps k w (Keeps.refl s) (sub_all_67108855)
  | amoMin k w => exact execAmoMin_keeps k w (Keeps.refl s) (sub_all_67108855)
  | amoMax k w => exact execAmoMax_keeps k w (Keeps.refl s) (sub_all_67108855)
  | amoMinu k w => exact execAmoMinu_keeps k w (Keeps.refl s) (sub_all_67108855)
  | amoMaxu k w => exact execAmoMaxu_keeps k w (Keeps.refl s) (sub_all_67108855)
  | amoCas k w => exact execAmoCas_keeps k w (Keeps.refl s) (sub_all_67108855)
  | amoLd k w => exact execAmoLd_keeps k w (Keeps.refl s) (sub_all_67108855)
  | amoSt k w => exact execAmoSt_keeps k w (Keeps.refl s) (sub_all_67108855)
  | beqz k w => exact execBeqz_keeps k w (Keeps.refl s) (sub_parts_38537447)
  | bnez k w => exact execBnez_keeps k w (Keeps.refl s) (sub_parts_38537447)
  | j k w => exact execJ_keeps k w (Keeps.refl s) (sub_parts_38537447)
  | call k w => exact execCall_keeps k w (Keeps.refl s) (sub_all_67108855)
  | jr k w => exact execJr_keeps k w (Keeps.refl s) (sub_parts_38537447)
  | callr k w => exact execCallr_keeps k w (Keeps.refl s) (sub_all_67108855)
  | ret k w => exact execRet_keeps k w (Keeps.refl s) (sub_all_67108855)
  | svreq k w => exact execSvreq_keeps k w (Keeps.refl s) (sub_parts_38537447)
  | dbgtrap k w => exact execDbgtrap_keeps k w (Keeps.refl s) (sub_parts_38537447)
  | fence k w => exact execFence_keeps k w (Keeps.refl s) (sub_parts_38537447)
  | ifence k w => exact execIfence_keeps k w (Keeps.refl s) (sub_parts_38537447)
  | mfsr k w => exact execMfsr_keeps k w (Keeps.refl s) (sub_parts_38537447)
  | mtsr k w => exact execMtsr_keeps k w (Keeps.refl s) (sub_parts_38537447)
  | xret k w => exact execXret_keeps k w (Keeps.refl s) (sub_parts_38537447)
  | idle k w => exact execIdle_keeps k w (Keeps.refl s) (sub_parts_38537447)
  | tlbinv k w => exact execTlbinv_keeps k w (Keeps.refl s) (sub_parts_38537447)
  | reservedInstruction k w => exact execReservedInstruction_keeps k w (Keeps.refl s) (sub_parts_38537447)
  | interruptTaken k ext => exact execInterruptTaken_keeps k ext (Keeps.refl s) (sub_parts_4980965)
  | timerCompareMatch k cycles => exact execTimerCompareMatch_keeps k cycles (Keeps.refl s) (sub_parts_524289)
  | vadd k w => exact execVadd_keeps k w (Keeps.refl s) (sub_parts_38537447)
  | vsub k w => exact execVsub_keeps k w (Keeps.refl s) (sub_parts_38537447)
  | vmul k w => exact execVmul_keeps k w (Keeps.refl s) (sub_parts_38537447)
  | vmulhu k w => exact execVmulhu_keeps k w (Keeps.refl s) (sub_parts_38537447)
  | vand k w => exact execVand_keeps k w (Keeps.refl s) (sub_parts_38537447)
  | vor k w => exact execVor_keeps k w (Keeps.refl s) (sub_parts_38537447)
  | vxor k w => exact execVxor_keeps k w (Keeps.refl s) (sub_parts_38537447)
  | vandn k w => exact execVandn_keeps k w (Keeps.refl s) (sub_parts_38537447)
  | vmin k w => exact execVmin_keeps k w (Keeps.refl s) (sub_parts_38537447)
  | vmax k w => exact execVmax_keeps k w (Keeps.refl s) (sub_parts_38537447)
  | vminu k w => exact execVminu_keeps k w (Keeps.refl s) (sub_parts_38537447)
  | vmaxu k w => exact execVmaxu_keeps k w (Keeps.refl s) (sub_parts_38537447)
  | vaddss k w => exact execVaddss_keeps k w (Keeps.refl s) (sub_parts_38537447)
  | vaddsu k w => exact execVaddsu_keeps k w (Keeps.refl s) (sub_parts_38537447)
  | vsubss k w => exact execVsubss_keeps k w (Keeps.refl s) (sub_parts_38537447)
  | vsubsu k w => exact execVsubsu_keeps k w (Keeps.refl s) (sub_parts_38537447)
  | vsll k w => exact execVsll_keeps k w (Keeps.refl s) (sub_parts_38537447)
  | vsrl k w => exact execVsrl_keeps k w (Keeps.refl s) (sub_parts_38537447)
  | vsra k w => exact execVsra_keeps k w (Keeps.refl s) (sub_parts_38537447)
  | vbsl k w => exact execVbsl_keeps k w (Keeps.refl s) (sub_parts_38537447)
  | vcmpeq k w => exact execVcmpeq_keeps k w (Keeps.refl s) (sub_parts_38537447)
  | vcmpgt k w => exact execVcmpgt_keeps k w (Keeps.refl s) (sub_parts_38537447)
  | vcmpgtu k w => exact execVcmpgtu_keeps k w (Keeps.refl s) (sub_parts_38537447)
  | vclmul k w => exact execVclmul_keeps k w (Keeps.refl s) (sub_parts_38537447)
  | vfadd k w => exact execVfadd_keeps k w (Keeps.refl s) (sub_parts_38537447)
  | vfsub k w => exact execVfsub_keeps k w (Keeps.refl s) (sub_parts_38537447)
  | vfmul k w => exact execVfmul_keeps k w (Keeps.refl s) (sub_parts_38537447)
  | vfma k w => exact execVfma_keeps k w (Keeps.refl s) (sub_parts_38537447)
  | vfmin k w => exact execVfmin_keeps k w (Keeps.refl s) (sub_parts_38537447)
  | vfmax k w => exact execVfmax_keeps k w (Keeps.refl s) (sub_parts_38537447)
  | vfcmpeq k w => exact execVfcmpeq_keeps k w (Keeps.refl s) (sub_parts_38537447)
  | vfcmplt k w => exact execVfcmplt_keeps k w (Keeps.refl s) (sub_parts_38537447)
  | vfcmple k w => exact execVfcmple_keeps k w (Keeps.refl s) (sub_parts_38537447)
  | vcvtif k w => exact execVcvtif_keeps k w (Keeps.refl s) (sub_parts_38537447)
  | vcvtfi k w => exact execVcvtfi_keeps k w (Keeps.refl s) (sub_parts_38537447)
  | vdup k w => exact execVdup_keeps k w (Keeps.refl s) (sub_parts_38537447)
  | vext k w => exact execVext_keeps k w (Keeps.refl s) (sub_parts_38537447)
  | vins k w => exact execVins_keeps k w (Keeps.refl s) (sub_parts_38537447)
  | vmovmsk k w => exact execVmovmsk_keeps k w (Keeps.refl s) (sub_parts_38537447)
  | vshufb k w => exact execVshufb_keeps k w (Keeps.refl s) (sub_parts_38537447)
  | vredaddu k w => exact execVredaddu_keeps k w (Keeps.refl s) (sub_parts_38537447)
  | vredmaxu k w => exact execVredmaxu_keeps k w (Keeps.refl s) (sub_parts_38537447)
  | vredminu k w => exact execVredminu_keeps k w (Keeps.refl s) (sub_parts_38537447)
  | vmov k w => exact execVmov_keeps k w (Keeps.refl s) (sub_parts_38537447)
  | vld k w => exact execVld_keeps k w (Keeps.refl s) (sub_all_67108855)
  | vst k w => exact execVst_keeps k w (Keeps.refl s) (sub_all_67108855)
  | submit p req => exact execSubmit_keeps p req (Keeps.refl s) (sub_parts_788517)
  | take p fn ns req => exact execTake_keeps p fn ns req (Keeps.refl s) (sub_parts_1837093)
  | done p st req => exact execDone_keeps p st req (Keeps.refl s) (sub_parts_788517)
  | query p req => exact execQuery_keeps p req (Keeps.refl s) (sub_parts_524321)
  | cancel p req => exact execCancel_keeps p req (Keeps.refl s) (sub_parts_788513)
  | ctrAllocate p req => exact execCtrAllocate_keeps p req (Keeps.refl s) (sub_parts_788513)
  | ctrAdd p req => exact execCtrAdd_keeps p req (Keeps.refl s) (sub_parts_788513)
  | ctrSet p req => exact execCtrSet_keeps p req (Keeps.refl s) (sub_parts_788513)
  | ctrRead p req => exact execCtrRead_keeps p req (Keeps.refl s) (sub_parts_788513)
  | ctrFree p req => exact execCtrFree_keeps p req (Keeps.refl s) (sub_parts_788513)
  | routeRead req => exact execRouteRead_keeps req (Keeps.refl s) (sub_parts_264225)
  | routeCreate req => exact execRouteCreate_keeps req (Keeps.refl s) (sub_parts_264225)
  | routeDelete req => exact execRouteDelete_keeps req (Keeps.refl s) (sub_parts_264225)
  | endOwner req => exact execEndOwner_keeps req (Keeps.refl s) (sub_parts_264737)
  | routeSetClusters req => exact execRouteSetClusters_keeps req (Keeps.refl s) (sub_parts_264225)
  | orderedModeWrite b req => exact execOrderedModeWrite_keeps b req (Keeps.refl s) (sub_parts_33)
  | letterDue => exact execLetterDue_keeps (Keeps.refl s) (sub_parts_264225)
  | letterAging id => exact execLetterAging_keeps id (Keeps.refl s) (sub_parts_262145)
  | letterOffer p => exact execLetterOffer_keeps p (Keeps.refl s) (sub_parts_262144)
  | letterDispatch window id ns => exact execLetterDispatch_keeps window id ns (Keeps.refl s) (sub_parts_39096999)
  | engineLetterEnd id unit more => exact execEngineLetterEnd_keeps id unit more (Keeps.refl s) (sub_parts_34994215)
  | exit k => exact execExit_keeps k (Keeps.refl s) (sub_parts_2048)
  | wmap k => exact execWmap_keeps k (Keeps.refl s) (sub_parts_526337)
  | wunmap k => exact execWunmap_keeps k (Keeps.refl s) (sub_parts_789025)
  | tcreate k => exact execTcreate_keeps k (Keeps.refl s) (sub_parts_526337)
  | tdelete k => exact execTdelete_keeps k (Keeps.refl s) (sub_parts_534529)
  | route k => exact execRoute_keeps k (Keeps.refl s) (sub_parts_786465)
  | memoryRead tag off len => exact execMemoryRead_keeps tag off len (Keeps.refl s) (sub_parts_4194465)
  | memoryWrite tag off data => exact execMemoryWrite_keeps tag off data (Keeps.refl s) (sub_parts_38801571)
  | memoryFill tag off len pat => exact execMemoryFill_keeps tag off len pat (Keeps.refl s) (sub_parts_38801571)
  | memoryCopyToSlm tag off ranges pr bad => exact execMemoryCopyToSlm_keeps tag off ranges pr bad (Keeps.refl s) (sub_parts_38802343)
  | memoryCopyToNvm tag off nsid slba nlb pr => exact execMemoryCopyToNvm_keeps tag off nsid slba nlb pr (Keeps.refl s) (sub_parts_4459429)
  | memoryRangeSetCreate tag ranges => exact execMemoryRangeSetCreate_keeps tag ranges (Keeps.refl s) (sub_parts_4196513)
  | memoryRangeSetDelete tag id => exact execMemoryRangeSetDelete_keeps tag id (Keeps.refl s) (sub_parts_4196513)
  | loadProgram tag slot ptype off data => exact execLoadProgram_keeps tag slot ptype off data (Keeps.refl s) (sub_parts_4196513)
  | unloadProgram tag slot => exact execUnloadProgram_keeps tag slot (Keeps.refl s) (sub_parts_4196513)
  | activateProgram tag slot => exact execActivateProgram_keeps tag slot (Keeps.refl s) (sub_parts_37750951)
  | deactivateProgram tag slot => exact execDeactivateProgram_keeps tag slot (Keeps.refl s) (sub_parts_4196513)
  | executeProgram tag slot rset params => exact execExecuteProgram_keeps tag slot rset params (Keeps.refl s) (sub_parts_38013095)
  | executionTimeLimit e => exact execExecutionTimeLimit_keeps e (Keeps.refl s) (sub_parts_2048)
  | executionEnd e => exact execExecutionEnd_keeps e (Keeps.refl s) (sub_all_39647911)
  | mediaRead id bad => exact execMediaRead_keeps id bad (Keeps.refl s) (sub_parts_34872103)
  | dramRead addr port res o => exact execDramRead_keeps addr port res o (Keeps.refl s) (sub_all_67108855)
  | narrowWrite addr port data core res => exact execNarrowWrite_keeps addr port data core res (Keeps.refl s) (sub_all_67108855)
  | portUrgent n p on => exact execPortUrgent_keeps n p on (Keeps.refl s) (sub_parts_1)
  | refreshInterval n repaid postponed hot => exact execRefreshInterval_keeps n repaid postponed hot (Keeps.refl s) (sub_parts_33)
  | delayApply n good => exact execDelayApply_keeps n good (Keeps.refl s) (sub_all_67108855)
  | recalibrationDue n drift stage aged good => exact execRecalibrationDue_keeps n drift stage aged good (Keeps.refl s) (sub_all_67108855)
  | dramHold n on => exact execDramHold_keeps n on (Keeps.refl s) (sub_parts_1)
  | dramChannelRetire n key req => exact execDramChannelRetire_keeps n key req (Keeps.refl s) (sub_all_67108855)
  | pageRetire n page => exact execPageRetire_keeps n page (Keeps.refl s) (sub_parts_4129)
  | scrubStep word res late => exact execScrubStep_keeps word res late (Keeps.refl s) (sub_all_67108855)
  | sramRead retained addr res => exact execSramRead_keeps retained addr res (Keeps.refl s) (sub_parts_4129)
  | sramRepair m column index => exact execSramRepair_keeps m column index (Keeps.refl s) (sub_parts_4129)
  | portLinkDown n => exact execPortLinkDown_keeps n (Keeps.refl s) (sub_parts_6291617)
  | portLinkUp n speed fec => exact execPortLinkUp_keeps n speed fec (Keeps.refl s) (sub_parts_6291617)
  | addressFailback n => exact execAddressFailback_keeps n (Keeps.refl s) (sub_parts_2097153)
  | announcementRepeat n => exact execAnnouncementRepeat_keeps n (Keeps.refl s) (sub_parts_2097152)
  | moduleInsert n power temp => exact execModuleInsert_keeps n power temp (Keeps.refl s) (sub_parts_6291617)
  | moduleRemove n => exact execModuleRemove_keeps n (Keeps.refl s) (sub_parts_6291617)
  | modulePoll n power temp => exact execModulePoll_keeps n power temp (Keeps.refl s) (sub_parts_6291617)
  | portRetrain n => exact execPortRetrain_keeps n (Keeps.refl s) (sub_parts_1)
  | portRetire n f => exact execPortRetire_keeps n f (Keeps.refl s) (sub_parts_6291617)
  | frameReceived n k len corr uncorr full drained => exact execFrameReceived_keeps n k len corr uncorr full drained (Keeps.refl s) (sub_all_67108855)
  | connect c n roce nqn disc k qid size kato => exact execConnect_keeps c n roce nqn disc k qid size kato (Keeps.refl s) (sub_parts_2097313)
  | propertySet k off value => exact execPropertySet_keeps k off value (Keeps.refl s) (sub_all_58523639)
  | katoExpiry k => exact execKatoExpiry_keeps k (Keeps.refl s) (sub_all_41745319)
  | connectionClosed c => exact execConnectionClosed_keeps c (Keeps.refl s) (sub_all_41745319)
  | icreq c n hdgst ddgst hpda => exact execIcreq_keeps c n hdgst ddgst hpda (Keeps.refl s) (sub_parts_2097153)
  | h2cData c tag headBad dataBad => exact execH2cData_keeps c tag headBad dataBad (Keeps.refl s) (sub_all_41745319)
  | tlsHandshake c n slot ok => exact execTlsHandshake_keeps c n slot ok (Keeps.refl s) (sub_parts_2097185)
  | queuePairError c => exact execQueuePairError_keeps c (Keeps.refl s) (sub_all_41745319)
  | cePacketReceived c recent => exact execCePacketReceived_keeps c recent (Keeps.refl s) (sub_parts_2097153)
  | cnpReceived c => exact execCnpReceived_keeps c (Keeps.refl s) (sub_parts_2097153)
  | rateRecoveryTimer c => exact execRateRecoveryTimer_keeps c (Keeps.refl s) (sub_parts_2097152)
  | letterboxDoorbell f msgs tail => exact execLetterboxDoorbell_keeps f msgs tail (Keeps.refl s) (sub_all_67108855)
  | letterboxQuery => exact execLetterboxQuery_keeps (Keeps.refl s) (sub_parts_1157)
  | assign => exact execAssign_keeps (Keeps.refl s) (sub_parts_265377)
  | move => exact execMove_keeps (Keeps.refl s) (sub_parts_33559687)
  | claim down => exact execClaim_keeps down (Keeps.refl s) (sub_parts_1153)
  | relay => exact execRelay_keeps (Keeps.refl s) (sub_parts_1157)
  | m2hHeadWrite f head => exact execM2hHeadWrite_keeps f head (Keeps.refl s) (sub_all_67108855)
  | sensorRead i0 t16 => exact execSensorRead_keeps i0 t16 (Keeps.refl s) (sub_parts_4194465)
  | thermalEvaluation cool => exact execThermalEvaluation_keeps cool (Keeps.refl s) (sub_all_67108855)
  | capControl => exact execCapControl_keeps (Keeps.refl s) (sub_parts_4194309)
  | enec addr events => exact execEnec_keeps addr events (Keeps.refl s) (sub_parts_4194305)
  | disec addr events => exact execDisec_keeps addr events (Keeps.refl s) (sub_parts_1)
  | rstdaa => exact execRstdaa_keeps (Keeps.refl s) (sub_parts_1)
  | entdaa a => exact execEntdaa_keeps a (Keeps.refl s) (sub_parts_4194305)
  | setdasa static a => exact execSetdasa_keeps static a (Keeps.refl s) (sub_parts_4194305)
  | setnewda old a => exact execSetnewda_keeps old a (Keeps.refl s) (sub_parts_4194305)
  | setmwl addr n => exact execSetmwl_keeps addr n (Keeps.refl s) (sub_parts_4194304)
  | setmrl addr n => exact execSetmrl_keeps addr n (Keeps.refl s) (sub_parts_4194304)
  | getmwl addr => exact execGetmwl_keeps addr (Keeps.refl s) (sub_parts_4194304)
  | getmrl addr => exact execGetmrl_keeps addr (Keeps.refl s) (sub_parts_4194308)
  | getpid addr => exact execGetpid_keeps addr (Keeps.refl s) (sub_parts_4194304)
  | getbcr addr => exact execGetbcr_keeps addr (Keeps.refl s) (sub_parts_4194304)
  | getdcr addr => exact execGetdcr_keeps addr (Keeps.refl s) (sub_parts_4194304)
  | getstatus addr => exact execGetstatus_keeps addr (Keeps.refl s) (sub_parts_4194304)
  | rstact addr action => exact execRstact_keeps addr action (Keeps.refl s) (sub_parts_4194304)
  | hotJoin => exact execHotJoin_keeps (Keeps.refl s) (sub_parts_4194304)
  | ibiDeferExpiry => exact execIbiDeferExpiry_keeps (Keeps.refl s) (sub_parts_4194305)
  | setEndpointId eid => exact execSetEndpointId_keeps eid (Keeps.refl s) (sub_all_67108855)
  | readNvmeMiDataStructure dtyp => exact execReadNvmeMiDataStructure_keeps dtyp (Keeps.refl s) (sub_all_67108855)
  | subsystemHealthStatusPoll => exact execSubsystemHealthStatusPoll_keeps (Keeps.refl s) (sub_all_67108855)
  | controllerHealthStatusPoll first => exact execControllerHealthStatusPoll_keeps first (Keeps.refl s) (sub_all_67108855)
  | configurationSet id v => exact execConfigurationSet_keeps id v (Keeps.refl s) (sub_all_67108855)
  | configurationGet id => exact execConfigurationGet_keeps id (Keeps.refl s) (sub_all_67108855)
  | vpdRead off len => exact execVpdRead_keeps off len (Keeps.refl s) (sub_all_67108855)
  | vpdWrite off data => exact execVpdWrite_keeps off data (Keeps.refl s) (sub_all_67108855)
  | nvmeMiReset => exact execNvmeMiReset_keeps (Keeps.refl s) (sub_all_67108855)
  | tunnelledAdminCommand ctrl cid nsid => exact execTunnelledAdminCommand_keeps ctrl cid nsid (Keeps.refl s) (sub_all_67108855)
  | miModuleReset key => exact execMiModuleReset_keeps key (Keeps.refl s) (sub_all_67108855)
  | miWatchToRise key => exact execMiWatchToRise_keeps key (Keeps.refl s) (sub_all_67108855)
  | miWatchToKeep key => exact execMiWatchToKeep_keeps key (Keeps.refl s) (sub_all_67108855)
  | setNumericEffecterValue w => exact execSetNumericEffecterValue_keeps w (Keeps.refl s) (sub_all_67108855)
  | getSensorReading i0 => exact execGetSensorReading_keeps i0 (Keeps.refl s) (sub_all_67108855)
  | requestUpdate => exact execRequestUpdate_keeps (Keeps.refl s) (sub_all_67108855)
  | activateFirmware selfContained => exact execActivateFirmware_keeps selfContained (Keeps.refl s) (sub_all_67108855)
  | cflProgram addr data req => exact execCflProgram_keeps addr data req (Keeps.refl s) (sub_parts_4194337)
  | cflEraseSector addr key req => exact execCflEraseSector_keeps addr key req (Keeps.refl s) (sub_parts_4194337)
  | cflEraseGroup addr key req => exact execCflEraseGroup_keeps addr key req (Keeps.refl s) (sub_parts_4194337)
  | cflOperationDone bad => exact execCflOperationDone_keeps bad (Keeps.refl s) (sub_parts_4194337)
  | cflRead addr res early req => exact execCflRead_keeps addr res early req (Keeps.refl s) (sub_parts_4194341)
  | settingsCommit bytes => exact execSettingsCommit_keeps bytes (Keeps.refl s) (sub_parts_4194304)
  | settingsCompaction => exact execSettingsCompaction_keeps (Keeps.refl s) (sub_parts_4194304)
  | managementFirmwareSwitch ended => exact execManagementFirmwareSwitch_keeps ended (Keeps.refl s) (sub_all_67108855)
  | networkFirmwareSwitch ended => exact execNetworkFirmwareSwitch_keeps ended (Keeps.refl s) (sub_all_67108855)
  | postmark code src args => exact execPostmark_keeps code src args (Keeps.refl s) (sub_parts_33)
  | postmarkWrite => exact execPostmarkWrite_keeps (Keeps.refl s) (sub_parts_4198561)
  | coalescingWindowEnd lane code src => exact execCoalescingWindowEnd_keeps lane code src (Keeps.refl s) (sub_parts_33)
  | postmarkSubmit k req => exact execPostmarkSubmit_keeps k req (Keeps.refl s) (sub_parts_33)
  | cursorWrite w q forMctp => exact execCursorWrite_keeps w q forMctp (Keeps.refl s) (sub_parts_33)
  | drain => exact execDrain_keeps (Keeps.refl s) (sub_parts_33)
  | sealSegmentErase => exact execSealSegmentErase_keeps (Keeps.refl s) (sub_parts_33)
  | ident tag badFrame => exact execIdent_keeps tag badFrame (Keeps.refl s) (sub_all_67108855)
  | debugRead tag size addr badFrame late => exact execDebugRead_keeps tag size addr badFrame late (Keeps.refl s) (sub_all_67108855)
  | debugWrite tag size addr data badFrame late => exact execDebugWrite_keeps tag size addr data badFrame late (Keeps.refl s) (sub_all_67108855)
  | readInc tag size badFrame late => exact execReadInc_keeps tag size badFrame late (Keeps.refl s) (sub_all_67108855)
  | writeInc tag size data badFrame late => exact execWriteInc_keeps tag size data badFrame late (Keeps.refl s) (sub_all_67108855)
  | collect tag badFrame => exact execCollect_keeps tag badFrame (Keeps.refl s) (sub_all_67108855)
  | repeatRequest tag badFrame => exact execRepeat_keeps tag badFrame (Keeps.refl s) (sub_all_67108855)
  | lineReset => exact execLineReset_keeps (Keeps.refl s) (sub_parts_0)
  | debugAccessComplete => exact execDebugAccessComplete_keeps (Keeps.refl s) (sub_all_67108855)
  | coreHalt k req => exact execCoreHalt_keeps k req (Keeps.refl s) (sub_all_67108855)
  | coreResume k req => exact execCoreResume_keeps k req (Keeps.refl s) (sub_all_67108855)
  | coreStep k noInt req => exact execCoreStep_keeps k noInt req (Keeps.refl s) (sub_all_67108855)
  | breakpointHit k => exact execBreakpointHit_keeps k (Keeps.refl s) (sub_parts_4980965)
  | watchpointHit k addr n load store => exact execWatchpointHit_keeps k addr n load store (Keeps.refl s) (sub_parts_4980965)
  | regDataWrite k v req => exact execRegDataWrite_keeps k v req (Keeps.refl s) (sub_all_67108855)
  | pcWrite k v req => exact execPcWrite_keeps k v req (Keeps.refl s) (sub_all_67108855)
  | debugResetPin => exact execDebugResetPin_keeps (Keeps.refl s) (sub_parts_4718817)
  | debugResetCommand key req => exact execDebugResetCommand_keeps key req (Keeps.refl s) (sub_all_67108855)
  | controllerEnable f asq acq ams mps => exact execControllerEnable_keeps f asq acq ams mps (Keeps.refl s) (sub_all_67108855)
  | perstbDeassert => exact execPerstbDeassert_keeps (Keeps.refl s) (sub_all_67108855)
  | pcieHotReset portB => exact execPcieHotReset_keeps portB (Keeps.refl s) (sub_all_41745383)
  | bar2Access f off n data => exact execBar2Access_keeps f off n data (Keeps.refl s) (sub_all_67108855)
  | journalFlushDone => exact execJournalFlushDone_keeps (Keeps.refl s) (sub_parts_4459429)
  | relocation => exact execRelocation_keeps (Keeps.refl s) (sub_parts_4195297)
  | retransmissionTimeout c => exact execRetransmissionTimeout_keeps c (Keeps.refl s) (sub_all_41745319)
  | platformEventMessage => exact execPlatformEventMessage_keeps (Keeps.refl s) (sub_parts_4194337)
  | updateComponent i0 => exact execUpdateComponent_keeps i0 (Keeps.refl s) (sub_all_67108855)
  | starvationEpisode n p => exact execStarvationEpisode_keeps n p (Keeps.refl s) (sub_parts_33)

end Sys2Proof.Machine
end

