-- ==== Sys2Proof/Laws/Traps.lean ====
section
/-! SUPPORT. Traps: what entering a level, taking a trap, an interrupt and returning leave of a core (R334–R339). -/

set_option Elab.async false

namespace Sys2Proof.Machine

theorem coreAt_setCore (k : Nat) (c : Core) (s : State) : coreAt k (setCore k c s) = c := by
  unfold setCore
  rw [coreAt_showCore, coreAt_put_self]

theorem coreAt_setCore_ne {j k : Nat} (c : Core) (s : State) (h : j ≠ k) : coreAt j (setCore k c s) = coreAt j s := by
  unfold setCore
  rw [coreAt_showCore, coreAt_put_ne _ _ h]

/-- L.LSTAT as entry writes it. -/
def entryStat (st : Word) (lvl : Nat) : Word :=
  insertField (insertField (insertField (insertField st 1 1 (extractField st 0 1)) 0 1 0) 2 2 lvl) 6 1 1

theorem entryStat_spec (st : Word) (lvl : Nat) : lstatEntry st lvl (entryStat st lvl) := by
  unfold lstatEntry entryStat
  refine ⟨?_, ?_, ?_, ?_, ?_, ?_⟩
  · rw [extractField_insertField_ne _ _ _ _ _ _ (by omega), extractField_insertField_ne _ _ _ _ _ _ (by omega), extractField_insertField_self _ _ _ _ (by omega)]
    rfl
  · rw [extractField_insertField_ne _ _ _ _ _ _ (by omega), extractField_insertField_ne _ _ _ _ _ _ (by omega), extractField_insertField_ne _ _ _ _ _ _ (by omega), extractField_insertField_self _ _ _ _ (by omega)]
    unfold extractField
    exact Nat.mod_eq_of_lt (BitVec.isLt _)
  · rw [extractField_insertField_ne _ _ _ _ _ _ (by omega), extractField_insertField_self _ _ _ _ (by omega)]
    rfl
  · rw [extractField_insertField_self _ _ _ _ (by omega)]
    rfl
  · rw [extractField_insertField_ne _ _ _ _ _ _ (by omega), extractField_insertField_ne _ _ _ _ _ _ (by omega), extractField_insertField_ne _ _ _ _ _ _ (by omega), extractField_insertField_ne _ _ _ _ _ _ (by omega)]
  · rw [extractField_insertField_ne _ _ _ _ _ _ (by omega), extractField_insertField_ne _ _ _ _ _ _ (by omega), extractField_insertField_ne _ _ _ _ _ _ (by omega), extractField_insertField_ne _ _ _ _ _ _ (by omega)]

/-- Entry to a level changes of the core the five trap registers of the level, the level, the PC and its waiting state. -/
theorem enterTrap_core (k l cause : Nat) (int : Bool) (rpc esyn faddr : Word) (s : State) :
    coreAt k (enterTrap k l cause int rpc esyn faddr s) = { coreAt k s with
      lvl := l, idle := false
      pc := sysAt k (trapBase l + 1) s + (if int then BitVec.ofNat 64 (0x100 * (cause + 1)) else 0)
      sys := SMap.put (SMap.put (SMap.put (SMap.put (SMap.put (coreAt k s).sys (trapBase l) (entryStat (sysAt k (trapBase l) s) (coreAt k s).lvl))
        (trapBase l + 2) rpc) (trapBase l + 3) (BitVec.ofNat 64 (cause + (if int then 2 ^ 63 else 0)))) (trapBase l + 4) esyn)
        (trapBase l + 5) faddr } := by
  unfold enterTrap
  rw [coreAt_setCore]
  rfl

theorem enterTrap_other {j k : Nat} (l cause : Nat) (int : Bool) (rpc esyn faddr : Word) (s : State) (h : j ≠ k) :
    coreAt j (enterTrap k l cause int rpc esyn faddr s) = coreAt j s := coreAt_setCore_ne _ _ h

theorem coreAt_afterStep {k : Nat} {s : State} (h : (coreAt k s).stepping = false) :
    coreAt k (afterStep k s) = { coreAt k s with passBp := false } := by
  rw [afterStep_eq h, coreAt_showCore, coreAt_put_self]

theorem coreAt_afterStep_ne {j k : Nat} {s : State} (h : (coreAt k s).stepping = false) (hj : j ≠ k) :
    coreAt j (afterStep k s) = coreAt j s := by
  rw [afterStep_eq h, coreAt_showCore, coreAt_put_ne _ _ hj]

/-- A level entered, and the step after it. -/
theorem enterTrap_entered {k l cause : Nat} {int : Bool} {rpc esyn faddr : Word} {s : State} (h : (coreAt k s).stepping = false) :
    Entered k l (sysAt k (trapBase l + 1) s + (if int then BitVec.ofNat 64 (0x100 * (cause + 1)) else 0)) rpc
      (BitVec.ofNat 64 (cause + (if int then 2 ^ 63 else 0))) esyn faddr s (afterStep k (enterTrap k l cause int rpc esyn faddr s)) := by
  have e := enterTrap_core k l cause int rpc esyn faddr s
  have hst : (coreAt k (enterTrap k l cause int rpc esyn faddr s)).stepping = false := by rw [e]; exact h
  have c := coreAt_afterStep hst
  rw [e] at c
  have hs (n : Nat) : sysAt k n (afterStep k (enterTrap k l cause int rpc esyn faddr s)) = SMap.getD (SMap.put (SMap.put (SMap.put (SMap.put
      (SMap.put (coreAt k s).sys (trapBase l) (entryStat (sysAt k (trapBase l) s) (coreAt k s).lvl))
        (trapBase l + 2) rpc) (trapBase l + 3) (BitVec.ofNat 64 (cause + (if int then 2 ^ 63 else 0)))) (trapBase l + 4) esyn)
        (trapBase l + 5) faddr) n (sysReset n) := by
    unfold sysAt
    rw [c]
    rfl
  refine ⟨by rw [c], by rw [c], ⟨gr_of (by rw [c]), vr_of (by rw [c])⟩, ?_, ?_, ?_, ?_, ?_, ?_, ?_⟩
  · rw [hs, SMap.getD_put_ne _ _ _ (by omega), SMap.getD_put_ne _ _ _ (by omega), SMap.getD_put_ne _ _ _ (by omega),
      SMap.getD_put_ne _ _ _ (by omega), SMap.getD_put_self]
    exact entryStat_spec _ _
  · rw [hs, SMap.getD_put_ne _ _ _ (by omega), SMap.getD_put_ne _ _ _ (by omega), SMap.getD_put_ne _ _ _ (by omega), SMap.getD_put_self]
  · rw [hs, SMap.getD_put_ne _ _ _ (by omega), SMap.getD_put_ne _ _ _ (by omega), SMap.getD_put_self]
  · rw [hs, SMap.getD_put_ne _ _ _ (by omega), SMap.getD_put_self]
  · rw [hs, SMap.getD_put_self]
  · intro n h0 hi
    rw [hs, SMap.getD_put_ne _ _ _ (hi 5 (by omega) (by omega)), SMap.getD_put_ne _ _ _ (hi 4 (by omega) (by omega)),
      SMap.getD_put_ne _ _ _ (hi 3 (by omega) (by omega)), SMap.getD_put_ne _ _ _ (hi 2 (by omega) (by omega)), SMap.getD_put_ne _ _ _ h0]
    rfl
  · intro j hj
    rw [coreAt_afterStep_ne hst hj, enterTrap_other _ _ _ _ _ _ _ hj]

theorem Entered.of_same {k l : Nat} {vec rpc cause esyn faddr : Word} {s x t : State} (h : Entered k l vec rpc cause esyn faddr x t)
    (g : SameCore k s x) : Entered k l vec rpc cause esyn faddr s t := by
  obtain ⟨h1, h2, h3, h4, h5, h6, h7, h8, h9, h10⟩ := h
  refine ⟨h1, h2, h3.of_same g, ?_, h5, h6, h7, h8, fun n a b => (h9 n a b).trans (g.sysAt n), fun j hj => (h10 j hj).trans (g.2 j hj)⟩
  rw [g.sysAt, show (coreAt k x).lvl = (coreAt k s).lvl by rw [g.1]] at h4
  exact h4

theorem Trapped.of_same {k c : Nat} {w : Half} {faddr : Word} {s x t : State} (h : Trapped k c w faddr x t) (g : SameCore k s x) :
    Trapped k c w faddr s t := by
  have hl : (coreAt k x).lvl = (coreAt k s).lvl := by rw [g.1]
  have hn : Nested k x = Nested k s := by
    unfold Nested sysField
    rw [hl, g.sysAt]
  have ht : trapLevel k x = trapLevel k s := by
    unfold trapLevel
    rw [hl, hn]
  unfold Trapped at h ⊢
  rw [ht, hn, g.sysAt, g.pc] at h
  exact h.of_same g

/-- A synchronous trap that does not lock the core. -/
theorem takeTrap_trapped {k c : Nat} {w : Half} {faddr : Word} {s : State} (h : (coreAt k s).stepping = false) (hf : TrapFree k s) :
    Trapped k c w faddr s (takeTrap k c w faddr s) := by
  unfold takeTrap
  dsimp only
  generalize hs0 : (if (decide ((coreAt k s).lvl = 0) && !(c == 6 && decide (1 ≤ w.toNat % 1024) && decide (w.toNat % 1024 ≤ 12))) = true then
      (match execOfCore k s with
        | some e => recordEnd e 2 c faddr (coreAt k s).pc s
        | none => s)
    else s) = s0
  have hc : s0.cores = s.cores := by
    rw [← hs0]
    repeat' split
    all_goals rfl
  have hsame : SameCore k s s0 := SameCore.of_cores hc
  have hx : (coreAt k s0).stepping = false := by rw [coreAt_congr hc]; exact h
  have hn : (isCompute k && decide ((coreAt k s).lvl < 2) && sysField k 0x40 6 1 s == 1) = Nested k s := rfl
  rw [hn]
  have hm : (!isCompute k || decide (1 ≤ (coreAt k s).lvl) || Nested k s) = (trapLevel k s == 2) := by
    unfold trapLevel
    rcases Bool.eq_false_or_eq_true (isCompute k) with a | a <;> rcases Bool.eq_false_or_eq_true (Nested k s) with b | b <;>
      by_cases d : (coreAt k s).lvl = 0 <;> simp [a, b, d] <;> omega
  rw [hm]
  have hno : (trapLevel k s == 2 && sysField k 0x80 6 1 s == 1) = false := by
    by_cases b : trapLevel k s = 2
    · simp [hf b]
    · simp [b]
  rw [hno]
  have e := enterTrap_entered (k := k) (l := trapLevel k s) (cause := if Nested k s then 0x0F else c) (int := false) (rpc := (coreAt k s).pc)
    (esyn := if c ≤ 2 then 0 else w.setWidth 64) (faddr := faddr) hx
  have e2 := e.of_same hsame
  have hl : (if (trapLevel k s == 2) = true then 2 else 1) = trapLevel k s := by
    unfold trapLevel
    split <;> rename_i a <;> simp_all <;> split at a <;> simp_all
  rw [hl]
  unfold Trapped
  simp only [Bool.false_eq_true, if_false, BitVec.add_zero, Nat.add_zero] at e2 ⊢
  rw [hsame.sysAt] at e2
  simpa using e2

/-- A word that traps on a core that is ready. -/
theorem finish_trapped {k c : Nat} {w : Half} {faddr : Word} {s : State} (h : CoreReady k s) (hf : TrapFree k s) :
    Trapped k c w faddr s (finish k w (.trap c faddr (fetched k s))) := by
  have g := (walked_fetch k s).core
  refine (takeTrap_trapped (fetched_stepping h) ?_).of_same g
  intro e
  have hl : (coreAt k (fetched k s)).lvl = (coreAt k s).lvl := by rw [g.1]
  unfold sysField
  rw [g.sysAt]
  refine hf ?_
  unfold trapLevel Nested sysField at e ⊢
  rw [hl, g.sysAt] at e
  exact e

end Sys2Proof.Machine
end

