-- ==== Sys2Proof/Laws/Vec.lean ====
section
/-! SUPPORT. Vector registers: elements of a vector put together from a list, and a vector instruction executed whole. -/

set_option Elab.async false

namespace Sys2Proof.Machine

theorem vecOf_getLsbD (b : Nat) (l : List Nat) (j : Nat) (hb : 0 < b) (hj : j < 256) :
    (vecOf b l).getLsbD j = (l.getD (j / b) 0).testBit (j % b) := by
  induction l generalizing j with
  | nil => simp [vecOf]
  | cons x t ih =>
    rw [vecOf, BitVec.getLsbD_or, BitVec.getLsbD_shiftLeft, BitVec.getLsbD_ofNat, Nat.testBit_mod_two_pow]
    by_cases h : j < b
    · rw [Nat.div_eq_of_lt h, Nat.mod_eq_of_lt h]
      simp [h, hj]
    · have e1 : j / b = (j - b) / b + 1 := by
        rw [Nat.div_eq_sub_div hb (by omega)]
      have e2 : j % b = (j - b) % b := by rw [Nat.mod_eq_sub_mod (by omega)]
      rw [e1, e2, List.getD_cons_succ, ih (j - b) (by omega)]
      simp [h, hj]

/-- Element `i` of a vector put together from a list. -/
theorem lane_vecOf (b : Nat) (l : List Nat) (i : Nat) (hb : 0 < b) (h : b * i + b ≤ 256) :
    lane b (vecOf b l) i = BitVec.ofNat b (l.getD i 0) := by
  apply BitVec.eq_of_getLsbD_eq
  intro j hj
  unfold lane
  rw [BitVec.getLsbD_extractLsb', BitVec.getLsbD_ofNat, vecOf_getLsbD _ _ _ hb (by omega)]
  rw [Nat.mul_add_div hb, Nat.div_eq_of_lt hj, Nat.add_zero, Nat.mul_add_mod, Nat.mod_eq_of_lt hj]

theorem elem_eq (sz : Nat) (v : Vec) (i : Nat) : elem sz v i = (lane (elemBits sz) v i).toNat := rfl

theorem elems_getD (sz : Nat) (v : Vec) (i : Nat) (h : i < elemCount sz) : (elems sz v).getD i 0 = (lane (elemBits sz) v i).toNat := by
  unfold elems
  rw [List.getD_eq_getElem?_getD, List.getElem?_map, List.getElem?_range h]
  rfl

theorem elems_length (sz : Nat) (v : Vec) : (elems sz v).length = elemCount sz := by simp [elems]

/-- An element lies in the vector. -/
theorem lane_fits {sz i : Nat} (hs : sz ≤ 3) (h : i < elemCount sz) : elemBits sz * i + elemBits sz ≤ 256 := by
  have : sz = 0 ∨ sz = 1 ∨ sz = 2 ∨ sz = 3 := by omega
  rcases this with rfl | rfl | rfl | rfl <;> simp [elemCount, elemBits] at * <;> omega

theorem elemBits_pos (sz : Nat) : 0 < elemBits sz := by
  unfold elemBits
  have := Nat.two_pow_pos sz
  omega

/-! ### A vector register written -/

theorem coreAt_vecDirty (k : Nat) (s : State) :
    coreAt k (vecDirty k s) =
      { coreAt k s with sys := SMap.put (coreAt k s).sys (venReg k s) (insertField (sysAt k (venReg k s) s) 5 1 1) } := by
  unfold vecDirty setSysField
  exact coreAt_putSys _ _ _ _

theorem venReg_put {k : Nat} {c : Core} {s : State} (h : c.lvl = (coreAt k s).lvl) :
    venReg k { s with cores := SMap.put s.cores k c } = venReg k s := by
  unfold venReg
  rw [coreAt_put_self, h]

theorem coreAt_setV (k r : Nat) (v : Vec) (s : State) :
    coreAt k (setV k r v s) = { coreAt k s with
      v := SMap.put (coreAt k s).v r v
      sys := SMap.put (coreAt k s).sys (venReg k s) (insertField (sysAt k (venReg k s) s) 5 1 1) } := by
  unfold setV
  rw [coreAt_vecDirty, coreAt_put_self, venReg_put (c := { coreAt k s with v := SMap.put (coreAt k s).v r v }) rfl]
  unfold sysAt
  rw [coreAt_put_self]

theorem coreAt_setV_ne {j k : Nat} (r : Nat) (v : Vec) (s : State) (h : j ≠ k) : coreAt j (setV k r v s) = coreAt j s := by
  unfold setV vecDirty setSysField
  rw [coreAt_putSys_ne _ _ _ h, coreAt_put_ne _ _ h]

theorem setV_eq (k r : Nat) (v : Vec) (s : State) : setV k r v s = { s with cores := (setV k r v s).cores } := rfl

theorem vr_setV (k r i : Nat) (v : Vec) (s : State) : vr k i (setV k r v s) = if i = r then v else vr k i s := by
  unfold vr
  rw [coreAt_setV]
  exact SMap.getD_put _ _ _ _ _

/-- A word that writes a vector register and ends, where `x` is the state it writes it in, once VSTAT has its sticky bits. -/
theorem finish_setV {k r fl : Nat} {w : Half} {v : Vec} {s x u : State} (h : (coreAt k s).stepping = false)
    (hx : coreAt k x = { coreAt k s with tlb := (coreAt k x).tlb, sys := (coreAt k x).sys })
    (hsys : ∀ n, sysAt k n x = if n = 5 then sysAt k 5 s ||| BitVec.ofNat 64 fl
      else if fl ≠ 0 ∧ n = venReg k s then insertField (sysAt k n s) 5 1 1 else sysAt k n s)
    (ho : ∀ j, j ≠ k → coreAt j x = coreAt j s) (he : x = { u with cores := x.cores }) :
    GetsV k r v s (finish k w (.done (setV k r v x))) ∧ VecRan k fl s u (finish k w (.done (setV k r v x))) := by
  have hst : (coreAt k (setV k r v x)).stepping = false := by rw [coreAt_setV, hx]; exact h
  obtain ⟨p, q⟩ := finish_done (w := w) hst
  have hven : venReg k x = venReg k s := by
    unfold venReg
    rw [hx]
  have hven5 : venReg k s ≠ 5 ∧ venReg k s ≠ 1 := by
    unfold venReg
    split <;> decide
  obtain ⟨⟨q1, q2, q3, q4⟩, q5, q6⟩ := q
  refine ⟨⟨fun i => ?_, fun i => ?_⟩, ?_, ?_, fun n => ?_, fun j hj => ?_, fun a ha => ?_, ?_⟩
  · rw [p.1]
    refine gr_of ?_ i
    rw [coreAt_setV, hx]
  · rw [p.2, vr_setV]
    split
    · rfl
    · refine vr_of ?_ i
      rw [hx]
  · rw [q1, coreAt_setV, hx]
  · rw [q2, coreAt_setV, hx]
  · rw [q3 n]
    have e : ∀ m, sysAt k m (setV k r v x) = if m = venReg k s then insertField (sysAt k m x) 5 1 1 else sysAt k m x := by
      intro m
      unfold sysAt
      rw [coreAt_setV]
      dsimp only
      rw [hven, SMap.getD_put]
      split
      · subst_vars
        rfl
      · rfl
    rw [e, e]
    have hins : ∀ y : Word, insertField (insertField y 5 1 1) 5 1 1 = insertField y 5 1 1 := by
      intro y
      apply BitVec.eq_of_getLsbD_eq
      intro i _
      simp only [insertField_getLsbD]
      split <;> rfl
    by_cases h1 : n = 1
    · subst h1
      rw [if_pos rfl, if_pos rfl, if_neg (Ne.symm hven5.2), hsys]
      rw [if_neg (by decide), if_neg (by rintro ⟨_, e⟩; exact hven5.2 e.symm)]
    · rw [if_neg h1, if_neg h1]
      by_cases h2 : n = venReg k s
      · rw [if_pos h2, if_pos h2, hsys, if_neg (by rw [h2]; exact hven5.1)]
        split
        · exact hins _
        · rfl
      · rw [if_neg h2, if_neg h2, hsys]
        by_cases h5 : n = 5
        · rw [if_pos h5, if_pos h5]
        · rw [if_neg h5, if_neg h5, if_neg (by rintro ⟨_, e⟩; exact h2 e)]
  · rw [q4 j hj, coreAt_setV_ne _ _ _ hj, ho j hj]
  · rw [q5 a ha]
    exact rd_congr (by rw [setV_eq, he]) a
  · exact rest_trans (rest_trans q6 (setV_eq k r v x)) he

/-- A VR word, on a core that is ready, with its vector part on: the effect of its body in the state it has fetched. -/
theorem vecRow_ready {k maj fn lo hi : Nat} {w : Half} {more : Bool} {body : State → Eff} {s : State} (h : CoreReady k s) (hv : VecOn k s)
    (hm : majOf w = maj) (hf : fnOf w = fn) (h0 : wbits w 6 3 = 0) (hlo : lo ≤ szOf w) (hhi : szOf w ≤ hi) (hmore : more = false) :
    vecRow k w maj fn lo hi more body s = finish k w (body (fetched k s)) := by
  unfold vecRow
  rw [runInstr_ready h (by simp [isVec, hm, hf])]
  unfold vecBody
  have hb : vecBad w lo hi = false := by
    unfold vecBad
    simp [h0]
    omega
  have hven : venReg k (fetched k s) = venReg k s := by
    unfold venReg
    rw [fetched_lvl]
  rw [hb, hmore, if_neg (by simp [hv.1]), if_neg]
  unfold sysField
  rw [hven, fetched_sysAt]
  have := hv.2
  unfold sysField at this
  rw [this]
  decide

/-- A vector result written to `r` in the state that was fetched. -/
theorem vec_result {k r : Nat} {w : Half} {v : Vec} {s : State} (h : CoreReady k s) :
    GetsV k r v s (finish k w (.done (setV k r v (fetched k s)))) ∧ VecRan k 0 s (fetched k s) (finish k w (.done (setV k r v (fetched k s)))) := by
  refine finish_setV (h.2.2.2.2) ?_ (fun n => ?_) (walked_fetch k s).2.1 rfl
  · have e := (walked_fetch k s).1
    rw [e]
  · rw [fetched_sysAt]
    split
    · subst_vars
      simp
    · rw [if_neg (by simp)]

end Sys2Proof.Machine
end

