-- ==== Sys2Proof/WellFormed.lean ====
section
/-! DEFINITION. Which operands a command can carry: the ranges of the numbers the spec gives its fields. An operand with no check is any value
of its type. -/

namespace Sys2Proof

/-- Agents of accesses (R542). -/
def isReq (n : Nat) : Bool := decide (n ≤ 0x00B) || n == 0x010 || n == 0x011 || (decide (0x020 ≤ n) && decide (n ≤ 0x024)) || (decide (0x028 ≤ n) && decide (n ≤ 0x02C)) ||
    (decide (0x040 ≤ n) && decide (n ≤ 0x09F)) || (decide (0x100 ≤ n) && decide (n ≤ 0x17F))

/-- Access sizes in bytes (R8, R34). -/
def isSize (n : Nat) : Bool := n == 1 || n == 2 || n == 4 || n == 8

/-- SIZE of a debug request (R506). -/
def isSizeCode (n : Nat) : Bool := decide (n < 4)

/-- A field of a byte. -/
def isNum8 (n : Nat) : Bool := decide (n < 0x100)

/-- A field of 16 bits. -/
def isNum16 (n : Nat) : Bool := decide (n < 0x10000)

/-- A field of 32 bits. -/
def isNum32 (n : Nat) : Bool := decide (n < 0x100000000)

/-- A field of 64 bits. -/
def isNum64 (n : Nat) : Bool := decide (n < 0x10000000000000000)

/-- Controller physical addresses have 48 bits (R33). -/
def isAddr (n : Nat) : Bool := decide (n < 0x1000000000000)

/-- Core indexes (R508). -/
def isCore (n : Nat) : Bool := decide (n < 77)

/-- Compute cores (R508). -/
def isCompute (n : Nat) : Bool := decide (n < 64)

/-- Control cores (R542). -/
def isControl (n : Nat) : Bool := decide (n < 12)

/-- Compute clusters. -/
def isCluster (n : Nat) : Bool := decide (n < 8)

/-- Flash channels. -/
def isChan (n : Nat) : Bool := decide (n < 32)

/-- Dies of a channel. -/
def isDie (n : Nat) : Bool := decide (n < 8)

/-- PLLs. -/
def isPll (n : Nat) : Bool := decide (n < 5)

/-- Match banks. -/
def isBank (n : Nat) : Bool := decide (n < 16)

/-- Central compression engines (R542). -/
def isEngine (n : Nat) : Bool := decide (n < 4)

/-- DRAM controllers. -/
def isDmc (n : Nat) : Bool := decide (n < 4)

/-- Ports of a DRAM controller. -/
def isDmcPort (n : Nat) : Bool := decide (n < 8)

/-- Network ports. -/
def isNetPort (n : Nat) : Bool := decide (n < 2)

/-- Digest contexts (R258). -/
def isCtx (n : Nat) : Bool := decide (n < 16)

/-- Words of CTX_KEY. -/
def isKeyWord (n : Nat) : Bool := decide (n < 16)

/-- Ports of the sorting office. -/
def isSchPort (n : Nat) : Bool := decide (n < 76)

/-- PCIe functions (R443). -/
def isFunc (n : Nat) : Bool := decide (n < 128)

/-- Match tables. -/
def isTable (n : Nat) : Bool := decide (n < 256)

/-- Command tags. -/
def isTag (n : Nat) : Bool := decide (n < 0x10000)

/-- TAG of a debug request (R506). -/
def isDbgTag (n : Nat) : Bool := decide (n < 8)

/-- Lanes of the event recorder (R502). -/
def isLane (n : Nat) : Bool := decide (n < 4)

/-- SUBMIT groups (R512). -/
def isSubmitter (n : Nat) : Bool := decide (n < 14)

/-- Windows of the event recorder (R500). -/
def isWindow (n : Nat) : Bool := decide (n < 2)

/-- I3C addresses. -/
def isI3c (n : Nat) : Bool := decide (n < 128)

/-- Base address registers. -/
def isBar (n : Nat) : Bool := decide (n < 6)

/-- The protection fields of an I/O command (R91). -/
def isPr (p : PrInfo) : Bool := isNum64 p.ref0 && isNum16 p.app && isNum16 p.appMask

/-- Whose addresses a descriptor holds. -/
def isSpace (p : Space) : Bool :=
  match p with
  | .phys => true
  | .host f => isFunc f
  | .exec _ => true

/-- The fields of a Namespace Management create (R114). -/
def isCreate (a : NsCreate) : Bool :=
  isNum8 a.csi && isNum64 a.nsze && isNum64 a.ncap && isNum8 a.flbas && isNum8 a.dps && isNum8 a.nmic && isNum64 a.vendor

/-- A command whose operands are in their ranges. -/
def Instr.wf (c : Instr) : Bool :=
  match c with
  | .registerWrite addr size _ req => isAddr addr && isSize size && isReq req
  | .malformedRegisterAccess addr size _ req => isAddr addr && isNum8 size && isReq req
  | .reservedAddressAccess addr size req => isAddr addr && isSize size && isReq req
  | .stalledAccessComplete => true
  | .doorbellWrite ctrl q tail => isNum16 ctrl && isNum16 q && isNum16 tail
  | .cqHeadDoorbell ctrl q head => isNum16 ctrl && isNum16 q && isNum16 head
  | .commandFetch cid _ nsid lba nlb => isNum16 cid && isNum32 nsid && isNum64 lba && isNum32 nlb
  | .tagFreed => true
  | .trackerEntryFreed => true
  | .write tag _ pr => isTag tag && isPr pr
  | .landingProgramDone tag _ badChan => isTag tag && isChan badChan
  | .read tag pr => isTag tag && isPr pr
  | .mapPageLoadDone _ => true
  | .pageReadDone chan die dec => isChan chan && isDie die &&
      (match dec with
        | .check light eng => (light || eng.isSome) && eng.all (fun e => decide (e < 4))
        | _ => true)
  | .rebuildComplete chan _ _ => isChan chan
  | .flush tag => isTag tag
  | .writeZeroes tag _ pr => isTag tag && isPr pr
  | .datasetManagement tag _ _ => isTag tag
  | .compare tag _ pr => isTag tag && isPr pr
  | .fusedCompareAndWrite tagC tagW _ _ pr _ => isTag tagC && isTag tagW && isPr pr
  | .verify tag pr => isTag tag && isPr pr
  | .copy tag _ _ pr _ => isTag tag && isPr pr
  | .reservationRegister tag act _ cptpl crkey nrkey => isTag tag && isNum8 act && isNum8 cptpl && isNum64 crkey && isNum64 nrkey
  | .reservationAcquire tag act _ rtype crkey prkey => isTag tag && isNum8 act && isNum8 rtype && isNum64 crkey && isNum64 prkey
  | .reservationRelease tag act _ rtype crkey => isTag tag && isNum8 act && isNum8 rtype && isNum64 crkey
  | .reservationReport tag dwords _ => isTag tag && isNum32 dwords
  | .abort tag sqid cid => isTag tag && isNum16 sqid && isNum16 cid
  | .createIoSubmissionQueue tag qid size0 cq prio addr _ => isTag tag && isNum16 qid && isNum16 size0 && isNum16 cq && isNum8 prio && isNum64 addr
  | .createIoCompletionQueue tag qid size0 addr _ _ => isTag tag && isNum16 qid && isNum16 size0 && isNum64 addr
  | .deleteIoSubmissionQueue tag qid => isTag tag && isNum16 qid
  | .deleteIoCompletionQueue tag qid => isTag tag && isNum16 qid
  | .identify tag cns cntid csi => isTag tag && isNum8 cns && isNum16 cntid && isNum8 csi
  | .getFeatures tag fid sel' dw11 => isTag tag && isNum8 fid && isNum8 sel' && isNum32 dw11
  | .setFeatures tag fid dw11 _ _ => isTag tag && isNum8 fid && isNum32 dw11
  | .setPowerManagement tag dw11 _ => isTag tag && isNum32 dw11
  | .setOrderedQueue tag dw11 _ => isTag tag && isNum32 dw11
  | .setLandingPoolPolicy tag dw11 _ => isTag tag && isNum32 dw11
  | .setScanDefaults tag dw11 _ => isTag tag && isNum32 dw11
  | .setComputeRuntime tag dw11 _ => isTag tag && isNum32 dw11
  | .setThermalThresholds tag dw11 _ => isTag tag && isNum32 dw11
  | .setEventNotification tag dw11 _ => isTag tag && isNum32 dw11
  | .setTenantArbitrationReadOut tag dw11 _ => isTag tag && isNum32 dw11
  | .setNetworkPorts tag dw11 _ _ _ => isTag tag && isNum32 dw11
  | .getLogPage tag lid off dwords lsp _ => isTag tag && isNum8 lid && isNum64 off && isNum32 dwords && isNum8 lsp
  | .moduleIdentityLog tag off dwords => isTag tag && isNum64 off && isNum32 dwords
  | .wearAndSparesLog tag off dwords => isTag tag && isNum64 off && isNum32 dwords
  | .powerAndModeLog tag off dwords => isTag tag && isNum64 off && isNum32 dwords
  | .tagsAndOrderingLog tag off dwords => isTag tag && isNum64 off && isNum32 dwords
  | .channelHealthLog tag off dwords => isTag tag && isNum64 off && isNum32 dwords
  | .matchArraysLog tag off dwords => isTag tag && isNum64 off && isNum32 dwords
  | .computeClustersLog tag off dwords => isTag tag && isNum64 off && isNum32 dwords
  | .dramAndSramErrorsLog tag off dwords => isTag tag && isNum64 off && isNum32 dwords
  | .networkPortsLog tag off dwords => isTag tag && isNum64 off && isNum32 dwords
  | .sensorsAndThrottlingLog tag off dwords => isTag tag && isNum64 off && isNum32 dwords
  | .eventRecorderWindowLog tag off dwords _ _ _ => isTag tag && isNum64 off && isNum32 dwords
  | .firmwareComponentsLog tag off dwords => isTag tag && isNum64 off && isNum32 dwords
  | .tenantResourcesLog tag off dwords => isTag tag && isNum64 off && isNum32 dwords
  | .scanStatisticsLog tag off dwords => isTag tag && isNum64 off && isNum32 dwords
  | .asynchronousEventRequest tag => isTag tag
  | .keepAlive tag => isTag tag
  | .namespaceCreate tag a => isTag tag && isCreate a
  | .namespaceDelete tag => isTag tag
  | .namespaceAttach tag _ => isTag tag
  | .namespaceDetach tag _ => isTag tag
  | .formatNvm tag idx ses pi _ => isTag tag && isNum8 idx && isNum8 ses && isNum8 pi
  | .sanitize tag act _ => isTag tag && isNum8 act
  | .sanitizeComplete _ _ => true
  | .deviceSelfTest tag code => isTag tag && isNum8 code
  | .nvmeMiSend tag _ => isTag tag
  | .nvmeMiReceive tag _ => isTag tag
  | .secondaryControllerOffline tag cntlid => isTag tag && isNum16 cntlid
  | .secondaryControllerOnline tag cntlid => isTag tag && isNum16 cntlid
  | .firmwareDownload tag off dwords => isTag tag && isNum64 off && isNum32 dwords
  | .firmwareCommit tag fs ca _ => isTag tag && isNum8 fs && isNum8 ca
  | .controlFirmwareHandover _ => true
  | .fetchHold v req => isNum32 v && isReq req
  | .shutdown ctrl _ => isNum16 ctrl
  | .controllerReset ctrl => isNum16 ctrl
  | .functionLevelReset f => isFunc f
  | .nvmSubsystemReset value => isNum32 value
  | .perstAssert => true
  | .perstDeassert => true
  | .perstbAssert => true
  | .linkTrained _ speed width _ _ => isNum8 speed && isNum8 width
  | .linkDown _ => true
  | .configurationRequest _ _ => true
  | .barReservedAccess f bar off value => isFunc f && isBar bar && isNum64 off && value.all isNum32
  | .vbusWarn => true
  | .pfailAssert => true
  | .pfailDeassert => true
  | .pfailHoldExpiry => true
  | .braceComplete => true
  | .braceRecovery => true
  | .holdupSwitchIn => true
  | .brownoutLimit => true
  | .sealStart => true
  | .sealEnd _ _ => true
  | .sealJudgment _ => true
  | .restExpiry => true
  | .keepVbusRecovery => true
  | .regulatorCutoff _ => true
  | .inputAtStartThreshold _ => true
  | .inputStop _ => true
  | .inputOvervoltage _ => true
  | .inputReconnect _ => true
  | .sourceTransfer => true
  | .sourceReturn => true
  | .reserveReached => true
  | .reserveLow => true
  | .heldWriteTimeout tag => isTag tag
  | .bankTest => true
  | .bankTestInterval => true
  | .bankTestDone _ _ esr => isNum16 esr
  | .pwrdisAssert => true
  | .pwrdisHoldExpiry => true
  | .pwrdisDeassert => true
  | .wakeTimerExpiry => true
  | .resetReqModule key req => isNum32 key && isReq req
  | .resetReqNvmssr key req => isNum32 key && isReq req
  | .resetReqKeep key req => isNum32 key && isReq req
  | .resetReqStart key req => isNum32 key && isReq req
  | .moduleReset _ => true
  | .moduleResetOffExpiry => true
  | .managementWatchdogExpiry => true
  | .orderlyStop _ => true
  | .orderlyStopGraceExpiry => true
  | .inputQualified _ => true
  | .firmwareVerified _ _ => true
  | .dramDelayCheck _ => true
  | .mapDirectoryLoaded _ _ cals => cals.length == 32
  | .journalReplayDone _ _ _ => true
  | .openBlockScanDone _ _ => true
  | .cstsRdySet ctrl => isNum16 ctrl
  | .riseTimeout => true
  | .idleConditionsChange _ => true
  | .apstIdleExpiry ctrl ps => isNum16 ctrl && isNum8 ps
  | .idleEntry _ => true
  | .idleWake _ _ _ => true
  | .delayWakeExpiry _ => true
  | .pllLockLoss n _ => isPll n
  | .xtalSwitch => true
  | .controlCoreRetire k => isControl k
  | .fillRecompute => true
  | .foldStart _ _ => true
  | .foldProgramDone _ _ _ => true
  | .garbageCollection => true
  | .gcCopyLanded _ _ badChan _ => isChan badChan
  | .wearLevelling => true
  | .secureDiscard => true
  | .journalFlush => true
  | .checkpoint => true
  | .mapPageWritten _ => true
  | .backgroundMapLoad => true
  | .eraseDone chan die _ => isChan chan && isDie die
  | .dieTimeout chan die _ => isChan chan && isDie die
  | .governorAdmit chan _ _ => isChan chan
  | .eraseSuspend chan die _ => isChan chan && isDie die
  | .suspendResume chan die _ _ => isChan chan && isDie die
  | .preReadIssue chan _ => isChan chan
  | .preReadStaged chan die _ => isChan chan && isDie die
  | .retryBackoffExpiry chan die _ _ => isChan chan && isDie die
  | .channelReset chan _ _ => isChan chan
  | .calibrate chan _ _ _ => isChan chan
  | .periodicCalibration chan _ _ _ => isChan chan
  | .channelHold chan v => isChan chan && isNum32 v
  | .channelRetire chan _ key req => isChan chan && isNum32 key && isReq req
  | .patrolRead chan die _ => isChan chan && isDie die
  | .microcodeSwitch chan _ _ => isChan chan
  | .scan tag off => isTag tag && isNum64 off
  | .scanJobAccepted => true
  | .scanIuEvaluate _ _ via => isChan via
  | .outputRingSpace _ chan => isChan chan
  | .scanTimeLimit _ => true
  | .scanContextAbort chan mask req => isChan chan && isNum32 mask && isReq req
  | .scanJobComplete _ => true
  | .matchLookup tag off n => isTag tag && isNum64 off && isNum32 n
  | .matchTableCreate tag c11 c12 c13 => isTag tag && isNum32 c11 && isNum32 c12 && isNum32 c13
  | .matchTableDelete tag n => isTag tag && isTable n
  | .matchSearch f table _ _ => (isFunc f || f == 0x80) && isTable table
  | .matchSearchFrom f table _ _ _ => (isFunc f || f == 0x80) && isTable table
  | .matchWriteEntry f table _ _ _ => isFunc f && isTable table
  | .matchDeleteEntry f table _ => isFunc f && isTable table
  | .matchReadEntry f table _ => isFunc f && isTable table
  | .tableMapWrite table req _ => isTable table && isReq req
  | .tableClearDone bank => isBank bank
  | .entryInvalidate bank _ req => isBank bank && isReq req
  | .entryValidate bank _ req => isBank bank && isReq req
  | .matchWindowWrite bank off req _ => isBank bank && isNum64 off && isReq req
  | .matchScrub bank fixed _ _ => isBank bank && fixed.all (fun p => decide (p.2 < 128))
  | .rowRepair bank _ _ => isBank bank
  | .columnRepair bank bit => isBank bank && decide (bit < 128)
  | .compress n sp addr _ => isEngine n && isSpace sp && isNum64 addr
  | .expand n sp addr => isEngine n && isSpace sp && isNum64 addr
  | .check n sp addr => isEngine n && isSpace sp && isNum64 addr
  | .engineFault n => isEngine n
  | .engineAbort n sp addr => isEngine n && isSpace sp && isNum64 addr
  | .engineRetire n key req => isEngine n && isNum32 key && isReq req
  | .digestClaim c req => isCtx c && isReq req
  | .digestRelease c req => isCtx c && isReq req
  | .digestStart c v req => isCtx c && isNum64 v && isReq req
  | .digestDataWrite c _ size off req => isCtx c && isSize size && isNum64 off && isReq req
  | .digestKeyWrite c j' _ req => isCtx c && isKeyWord j' && isReq req
  | .digestBlockTaken c => isCtx c
  | .digestFinish c v req => isCtx c && isNum64 v && isReq req
  | .digestAbort c v req => isCtx c && isNum64 v && isReq req
  | .digestExport c v req => isCtx c && isNum64 v && isReq req
  | .digestImport c v req => isCtx c && isNum64 v && isReq req
  | .digestLetter sp addr => isSpace sp && isNum64 addr
  | .keyManagerAlarm _ => true
  | .contextAlarm c => isCtx c
  | .slotReloadDone _ => true
  | .loadKeySlot slot entry req _ => isNum16 slot && isNum16 entry && isReq req
  | .zeroizeKeySlot slot entry req => isNum16 slot && isNum16 entry && isReq req
  | .cryptoEraseEntry entry req => isNum16 entry && isReq req
  | .keyUnwrap nsid _ => isNum32 nsid
  | .keySlotFreed _ _ => true
  | .runAheadEntry k a => isCompute k && isNum64 a
  | .runAheadExit k _ _ => isCompute k
  | .preReadDispatchTimeout _ => true
  | .preStagedExpiry f nsid _ => isFunc f && isNum32 nsid
  | .windowLoad k ea => isCompute k && isNum64 ea
  | .windowPageStaged _ => true
  | .dirtyFault n _ _ _ => isCluster n
  | .fillError n _ => isCluster n
  | .cacheEnableWrite n v req => isCluster n && isNum32 v && isReq req
  | .wayLockWrite n v req => isCluster n && isNum32 v && isReq req
  | .invAll n req => isCluster n && isReq req
  | .cleanAll n req => isCluster n && isReq req
  | .cleanInvAll n req => isCluster n && isReq req
  | .invRange n req => isCluster n && isReq req
  | .cleanRange n req => isCluster n && isReq req
  | .cleanInvRange n req => isCluster n && isReq req
  | .iinvRange n req => isCluster n && isReq req
  | .lockFillRange n req => isCluster n && isReq req
  | .cmoDone n => isCluster n
  | .clusterReset n _ => isCluster n
  | .clusterRetire n _ key req => isCluster n && isNum32 key && isReq req
  | .runtimeUpdate n => isCluster n
  | .runtimeUpdateGraceExpiry n _ _ _ => isCluster n
  | .add k _ => isCore k
  | .sub k _ => isCore k
  | .and k _ => isCore k
  | .or k _ => isCore k
  | .xor k _ => isCore k
  | .andn k _ => isCore k
  | .orn k _ => isCore k
  | .sll k _ => isCore k
  | .srl k _ => isCore k
  | .sra k _ => isCore k
  | .ror k _ => isCore k
  | .addw k _ => isCore k
  | .subw k _ => isCore k
  | .sllw k _ => isCore k
  | .srlw k _ => isCore k
  | .sraw k _ => isCore k
  | .mul k _ => isCore k
  | .mulh k _ => isCore k
  | .mulhu k _ => isCore k
  | .mulw k _ => isCore k
  | .div k _ => isCore k
  | .divu k _ => isCore k
  | .rem k _ => isCore k
  | .remu k _ => isCore k
  | .clz k _ => isCore k
  | .ctz k _ => isCore k
  | .popc k _ => isCore k
  | .bswap k _ => isCore k
  | .sextb k _ => isCore k
  | .sexth k _ => isCore k
  | .sextw k _ => isCore k
  | .zextw k _ => isCore k
  | .min k _ => isCore k
  | .max k _ => isCore k
  | .minu k _ => isCore k
  | .maxu k _ => isCore k
  | .cmpeq k _ => isCore k
  | .cmpne k _ => isCore k
  | .cmplt k _ => isCore k
  | .cmpltu k _ => isCore k
  | .cmple k _ => isCore k
  | .cmpleu k _ => isCore k
  | .sel k _ => isCore k
  | .addi k _ => isCore k
  | .andi k _ => isCore k
  | .ori k _ => isCore k
  | .xori k _ => isCore k
  | .lui k _ => isCore k
  | .shi k _ => isCore k
  | .cmpeqi k _ => isCore k
  | .cmpnei k _ => isCore k
  | .cmplti k _ => isCore k
  | .cmpltui k _ => isCore k
  | .addpc k _ => isCore k
  | .ldb k _ => isCore k
  | .ldbu k _ => isCore k
  | .ldh k _ => isCore k
  | .ldhu k _ => isCore k
  | .ldw k _ => isCore k
  | .ldwu k _ => isCore k
  | .ldd k _ => isCore k
  | .stb k _ => isCore k
  | .sth k _ => isCore k
  | .stw k _ => isCore k
  | .std k _ => isCore k
  | .wldbu k _ => isCore k
  | .wldhu k _ => isCore k
  | .wldwu k _ => isCore k
  | .wldd k _ => isCore k
  | .prd k _ => isCore k
  | .amoSwap k _ => isCore k
  | .amoAdd k _ => isCore k
  | .amoAnd k _ => isCore k
  | .amoOr k _ => isCore k
  | .amoXor k _ => isCore k
  | .amoMin k _ => isCore k
  | .amoMax k _ => isCore k
  | .amoMinu k _ => isCore k
  | .amoMaxu k _ => isCore k
  | .amoCas k _ => isCore k
  | .amoLd k _ => isCore k
  | .amoSt k _ => isCore k
  | .beqz k _ => isCore k
  | .bnez k _ => isCore k
  | .j k _ => isCore k
  | .call k _ => isCore k
  | .jr k _ => isCore k
  | .callr k _ => isCore k
  | .ret k _ => isCore k
  | .svreq k _ => isCore k
  | .dbgtrap k _ => isCore k
  | .fence k _ => isCore k
  | .ifence k _ => isCore k
  | .mfsr k _ => isCore k
  | .mtsr k _ => isCore k
  | .xret k _ => isCore k
  | .idle k _ => isCore k
  | .tlbinv k _ => isCore k
  | .reservedInstruction k _ => isCore k
  | .interruptTaken k _ => isCore k
  | .timerCompareMatch k _ => isCore k
  | .vadd k _ => isCore k
  | .vsub k _ => isCore k
  | .vmul k _ => isCore k
  | .vmulhu k _ => isCore k
  | .vand k _ => isCore k
  | .vor k _ => isCore k
  | .vxor k _ => isCore k
  | .vandn k _ => isCore k
  | .vmin k _ => isCore k
  | .vmax k _ => isCore k
  | .vminu k _ => isCore k
  | .vmaxu k _ => isCore k
  | .vaddss k _ => isCore k
  | .vaddsu k _ => isCore k
  | .vsubss k _ => isCore k
  | .vsubsu k _ => isCore k
  | .vsll k _ => isCore k
  | .vsrl k _ => isCore k
  | .vsra k _ => isCore k
  | .vbsl k _ => isCore k
  | .vcmpeq k _ => isCore k
  | .vcmpgt k _ => isCore k
  | .vcmpgtu k _ => isCore k
  | .vclmul k _ => isCore k
  | .vfadd k _ => isCore k
  | .vfsub k _ => isCore k
  | .vfmul k _ => isCore k
  | .vfma k _ => isCore k
  | .vfmin k _ => isCore k
  | .vfmax k _ => isCore k
  | .vfcmpeq k _ => isCore k
  | .vfcmplt k _ => isCore k
  | .vfcmple k _ => isCore k
  | .vcvtif k _ => isCore k
  | .vcvtfi k _ => isCore k
  | .vdup k _ => isCore k
  | .vext k _ => isCore k
  | .vins k _ => isCore k
  | .vmovmsk k _ => isCore k
  | .vshufb k _ => isCore k
  | .vredaddu k _ => isCore k
  | .vredmaxu k _ => isCore k
  | .vredminu k _ => isCore k
  | .vmov k _ => isCore k
  | .vld k _ => isCore k
  | .vst k _ => isCore k
  | .submit p req => isSchPort p && isReq req
  | .take p _ _ req => isSchPort p && isReq req
  | .done p st req => isSchPort p && isNum8 st && isReq req
  | .query p req => isSchPort p && isReq req
  | .cancel p req => isSchPort p && isReq req
  | .ctrAllocate p req => isSchPort p && isReq req
  | .ctrAdd p req => isSchPort p && isReq req
  | .ctrSet p req => isSchPort p && isReq req
  | .ctrRead p req => isSchPort p && isReq req
  | .ctrFree p req => isSchPort p && isReq req
  | .routeRead req => isReq req
  | .routeCreate req => isReq req
  | .routeDelete req => isReq req
  | .endOwner req => isReq req
  | .routeSetClusters req => isReq req
  | .orderedModeWrite b req => isNum64 b && isReq req
  | .letterDue => true
  | .letterAging _ => true
  | .letterOffer p => isSchPort p
  | .letterDispatch _ _ _ => true
  | .engineLetterEnd _ _ _ => true
  | .exit k => isCompute k
  | .wmap k => isCompute k
  | .wunmap k => isCompute k
  | .tcreate k => isCompute k
  | .tdelete k => isCompute k
  | .route k => isCompute k
  | .memoryRead tag off len => isTag tag && isNum64 off && isNum32 len
  | .memoryWrite tag off _ => isTag tag && isNum64 off
  | .memoryFill tag off len _ => isTag tag && isNum64 off && isNum32 len
  | .memoryCopyToSlm tag off _ pr _ => isTag tag && isNum64 off && isPr pr
  | .memoryCopyToNvm tag off nsid slba nlb pr => isTag tag && isNum64 off && isNum32 nsid && isNum64 slba && isNum32 nlb && isPr pr
  | .memoryRangeSetCreate tag _ => isTag tag
  | .memoryRangeSetDelete tag _ => isTag tag
  | .loadProgram tag slot ptype off _ => isTag tag && isNum16 slot && isNum8 ptype && isNum64 off
  | .unloadProgram tag slot => isTag tag && isNum16 slot
  | .activateProgram tag slot => isTag tag && isNum16 slot
  | .deactivateProgram tag slot => isTag tag && isNum16 slot
  | .executeProgram tag slot rset _ => isTag tag && isNum16 slot && isNum16 rset
  | .executionTimeLimit _ => true
  | .executionEnd _ => true
  | .mediaRead _ _ => true
  | .dramRead addr port _ _ => isAddr addr && isDmcPort port
  | .narrowWrite addr port _ _ _ => isAddr addr && isDmcPort port
  | .portUrgent n p _ => isDmc n && isDmcPort p
  | .refreshInterval n _ _ _ => isDmc n
  | .delayApply n _ => isDmc n
  | .recalibrationDue n _ _ _ _ => isDmc n
  | .dramHold n _ => isDmc n
  | .dramChannelRetire n key req => isDmc n && isNum32 key && isReq req
  | .pageRetire n _ => isDmc n
  | .scrubStep _ _ _ => true
  | .sramRead _ addr _ => isAddr addr
  | .sramRepair _ _ _ => true
  | .portLinkDown n => isNetPort n
  | .portLinkUp n _ _ => isNetPort n
  | .addressFailback n => isNetPort n
  | .announcementRepeat n => isNetPort n
  | .moduleInsert n _ _ => isNetPort n
  | .moduleRemove n => isNetPort n
  | .modulePoll n _ _ => isNetPort n
  | .portRetrain n => isNetPort n
  | .portRetire n _ => isNetPort n
  | .frameReceived n _ _ _ _ _ _ => isNetPort n
  | .connect _ n _ _ _ _ qid size kato => isNetPort n && isNum16 qid && isNum16 size && isNum32 kato
  | .propertySet _ off value => isNum64 off && isNum64 value
  | .katoExpiry _ => true
  | .connectionClosed _ => true
  | .icreq _ n _ _ _ => isNetPort n
  | .h2cData _ tag _ _ => isNum16 tag
  | .tlsHandshake _ n _ _ => isNetPort n
  | .queuePairError _ => true
  | .cePacketReceived _ _ => true
  | .cnpReceived _ => true
  | .rateRecoveryTimer _ => true
  | .letterboxDoorbell f _ tail => isFunc f && isNum16 tail
  | .letterboxQuery => true
  | .assign => true
  | .move => true
  | .claim _ => true
  | .relay => true
  | .m2hHeadWrite f head => isFunc f && isNum16 head
  | .sensorRead _ _ => true
  | .thermalEvaluation _ => true
  | .capControl => true
  | .enec _ events => isNum8 events
  | .disec _ events => isNum8 events
  | .rstdaa => true
  | .entdaa a => isI3c a
  | .setdasa static a => isI3c static && isI3c a
  | .setnewda old a => isI3c old && isI3c a
  | .setmwl _ n => isNum32 n
  | .setmrl _ n => isNum32 n
  | .getmwl addr => isI3c addr
  | .getmrl addr => isI3c addr
  | .getpid addr => isI3c addr
  | .getbcr addr => isI3c addr
  | .getdcr addr => isI3c addr
  | .getstatus addr => isI3c addr
  | .rstact _ action => isNum8 action
  | .hotJoin => true
  | .ibiDeferExpiry => true
  | .setEndpointId eid => isNum8 eid
  | .readNvmeMiDataStructure dtyp => isNum8 dtyp
  | .subsystemHealthStatusPoll => true
  | .controllerHealthStatusPoll first => isNum16 first
  | .configurationSet _ v => isNum32 v
  | .configurationGet _ => true
  | .vpdRead off _ => isNum64 off
  | .vpdWrite off _ => isNum64 off
  | .nvmeMiReset => true
  | .tunnelledAdminCommand ctrl cid nsid => isNum16 ctrl && isNum16 cid && isNum32 nsid
  | .miModuleReset key => isNum32 key
  | .miWatchToRise key => isNum32 key
  | .miWatchToKeep key => isNum32 key
  | .setNumericEffecterValue _ => true
  | .getSensorReading _ => true
  | .requestUpdate => true
  | .activateFirmware _ => true
  | .cflProgram addr _ req => isAddr addr && isReq req
  | .cflEraseSector addr key req => isAddr addr && isNum32 key && isReq req
  | .cflEraseGroup addr key req => isAddr addr && isNum32 key && isReq req
  | .cflOperationDone _ => true
  | .cflRead addr _ _ req => isAddr addr && isReq req
  | .settingsCommit _ => true
  | .settingsCompaction => true
  | .managementFirmwareSwitch _ => true
  | .networkFirmwareSwitch _ => true
  | .postmark code src _ => isNum16 code && isNum16 src
  | .postmarkWrite => true
  | .coalescingWindowEnd lane code src => isLane lane && isNum16 code && isNum16 src
  | .postmarkSubmit k req => isSubmitter k && isReq req
  | .cursorWrite w q _ => isWindow w && isNum64 q
  | .drain => true
  | .sealSegmentErase => true
  | .ident tag _ => isDbgTag tag
  | .debugRead tag size addr _ _ => isDbgTag tag && isSizeCode size && isAddr addr
  | .debugWrite tag size addr _ _ _ => isDbgTag tag && isSizeCode size && isAddr addr
  | .readInc tag size _ _ => isDbgTag tag && isSizeCode size
  | .writeInc tag size _ _ _ => isDbgTag tag && isSizeCode size
  | .collect tag _ => isDbgTag tag
  | .repeatRequest tag _ => isTag tag
  | .lineReset => true
  | .debugAccessComplete => true
  | .coreHalt k req => isCore k && isReq req
  | .coreResume k req => isCore k && isReq req
  | .coreStep k _ req => isCore k && isReq req
  | .breakpointHit k => isCore k
  | .watchpointHit k addr _ _ _ => isCore k && isNum64 addr
  | .regDataWrite k _ req => isCore k && isReq req
  | .pcWrite k _ req => isCore k && isReq req
  | .debugResetPin => true
  | .debugResetCommand key req => isNum32 key && isReq req
  | .controllerEnable f asq acq ams mps => isFunc f && isNum64 asq && isNum64 acq && isNum8 ams && isNum8 mps
  | .perstbDeassert => true
  | .pcieHotReset _ => true
  | .bar2Access f off n _ => isFunc f && isNum64 off && isNum32 n
  | .journalFlushDone => true
  | .relocation => true
  | .retransmissionTimeout _ => true
  | .platformEventMessage => true
  | .updateComponent _ => true
  | .starvationEpisode n p => isDmc n && isDmcPort p

end Sys2Proof
end

