-- ==== Sys2Proof/Tests/Slice0.lean ====
section
/-! SUPPORT. Tests: ill-formed terms that the checks refuse, words and values of the spec, and for each statement states and operands that
meet the hypotheses of each of its clauses (its name is `test_` and the statement's; the clauses stand in the statement's order). -/

set_option Elab.async false

namespace Sys2Proof.Tests

open Sys2Proof Sys2Proof.Machine

/-! ### Hypotheses that are not decidable as they stand -/

def hasRoom (x : Cmd) (s : State) : Bool :=
  match sqAt x.ctrl x.sq s with
  | none => false
  | some q => decide (x.ordered = false ∧ mode s ≠ 0xB) && (match cqAt x.ctrl q.cq s with
    | none => false
    | some k => !cqFull k && k.held.isEmpty)

def inPhaseB (tag : Nat) (ph : Phase) (kinds : List CmdKind) (x : Cmd) (s : State) : Bool :=
  decide (cmdAt tag s = some x) && decide (x.phase = ph) && decide (x.result = none) && decide (x.kind ∈ kinds) &&
    decide (∀ y ∈ s.nv.cmds, y.tag = tag → y = x) && decide (∀ y ∈ s.nv.cmds, y.tag ≠ tag → y.result = none ∧ y.phase = .fetched) && hasRoom x s

theorem inPhase_of {tag : Nat} {ph : Phase} {kinds : List CmdKind} {x : Cmd} {s : State} (h : inPhaseB tag ph kinds x s = true) :
    InPhase tag ph kinds x s := by
  simp only [inPhaseB, Bool.and_eq_true, decide_eq_true_eq] at h
  obtain ⟨⟨⟨⟨⟨⟨h1, h2⟩, h3⟩, h4⟩, h5⟩, h6⟩, h7⟩ := h
  refine ⟨h1, h2, h3, h4, h5, h6, ?_⟩
  unfold hasRoom at h7
  split at h7
  · cases h7
  · rename_i q hq
    simp only [Bool.and_eq_true, decide_eq_true_eq] at h7
    obtain ⟨⟨ho, hm⟩, h8⟩ := h7
    split at h8
    · cases h8
    · rename_i k hk
      simp only [Bool.and_eq_true, Bool.not_eq_true', List.isEmpty_iff] at h8
      exact ⟨q, k, hq, ho, hm, hk, h8.1, h8.2⟩

theorem ready_of {tag : Nat} {kinds : List CmdKind} {x : Cmd} {s : State} (h : inPhaseB tag .fetched kinds x s = true) :
    Ready tag kinds x s := inPhase_of h

theorem onlyFetched_of {s : State} (h : s.nv.cmds.all (fun y => decide (y.result = none ∧ y.phase = .fetched)) = true) : OnlyFetched s := by
  intro y hy
  simpa using List.all_eq_true.mp h y hy

theorem adminReady_of {tag : Nat} {x : Cmd} {c : Ctrl} {s : State} (h : inPhaseB tag .fetched [.admin] x s = true) (g : ctrlAt x.ctrl s = some c) :
    AdminReady tag x c s := ⟨ready_of h, g⟩

theorem find_mem {α : Type} {m : SMap α} {k : Nat} {v : α} (h : SMap.find m k = some v) : (k, v) ∈ m := by
  induction m with
  | nil => cases h
  | cons e r ih =>
    unfold SMap.find at h
    split at h
    · rename_i he
      cases h
      subst he
      exact List.mem_cons_self
    · exact List.mem_cons_of_mem _ (ih h)

theorem noneRetired_of {s : State} (h : s.media.chans.all (fun e => !e.2.retired) = true) (c : Nat) : (chanAt c s).retired = false := by
  unfold chanAt SMap.getD
  cases e : SMap.find s.media.chans c with
  | none => rfl
  | some x => simpa using List.all_eq_true.mp h _ (find_mem e)

theorem mapChans_of {n : Nat} {s : State} (h : s.ftl.map.all (fun e => decide (e.2.chan < 32)) = true) (iu : Nat) (u : Iu)
    (e : iuAt (mapKey n iu) s = some u) : u.chan < 32 := by
  simpa using List.all_eq_true.mp h _ (find_mem e)

def poolRoomB (sd : Bool) (m : Nat) (s : State) : Bool :=
  (openOf sd false s).any (fun i => decide ((sbAt i s).use = .landing) &&
    (List.range 32).any (fun c => takesOn i c s && decide (SMap.getD (sbAt i s).fill c 0 + m ≤ blkUnits (sbAt i s))))

theorem poolRoom_of {sd : Bool} {m : Nat} {s : State} (h : poolRoomB sd m s = true) : PoolRoom sd m s := by
  unfold poolRoomB at h
  cases e : openOf sd false s with
  | none => rw [e] at h; cases h
  | some i =>
    rw [e] at h
    simp only [Option.any_some, Bool.and_eq_true, decide_eq_true_eq, List.any_eq_true, List.mem_range] at h
    obtain ⟨hu, c, hc, ht, hf⟩ := h
    exact ⟨i, c, e, hu, hc, ht, hf⟩

theorem canLand_of {x : Cmd} {n : Ns} {s : State} (h : Admitted x n s) (a : landed x s ≠ []) (b : mergeReads x s = [])
    (c : poolRoomB (nsSd n) (landed x s).length s = true) (d : s.media.chans.all (fun e => !e.2.retired) = true) : CanLand x n s :=
  ⟨h, a, b, poolRoom_of c, noneRetired_of d⟩

theorem canLook_of {x : Cmd} {n : Ns} {s : State} (h : ioCheck x false s = none ∧ nsAt x.nsid s = some n ∧
      s.ftl.cached.length ≤ mapCachePages ∧ x.need = [] ∧ x.looked = [] ∧ x.got = [])
    (g : (iusOf x s).all (fun iu => decide (pageKey x.nsid iu ∈ s.ftl.cached) && decide (unitBlocked x iu s = false) &&
      (iuAt (mapKey x.nsid iu) s).all (fun u => decide (u.uncorr = false ∧ (chanAt u.chan s).retired = false ∧ fget (Fl.CHE_STATUS_REBUILD_ONLY u.chan) s = 0))) = true) :
    CanLook x n s := by
  obtain ⟨h1, h2, h3, h4, h5, h6⟩ := h
  refine ⟨h1, h2, h3, h4, h5, h6, fun iu hiu => ?_⟩
  have q := List.all_eq_true.mp g iu hiu
  simp only [Bool.and_eq_true, decide_eq_true_eq] at q
  refine ⟨q.1.1, q.1.2, fun u hu => ?_⟩
  have r := q.2
  rw [hu] at r
  simpa using r

theorem eachSome_of {α : Type} {o : Option α} {p : α → Prop} [DecidablePred p] (h : o.all (fun x => decide (p x)) = true) : ∀ x, o = some x → p x := by
  intro x e
  subst e
  simpa using h

theorem thereIs_of {α : Type} {o : Option α} {p : α → Prop} [DecidablePred p] (h : o.any (fun x => decide (p x)) = true) :
    ∃ x, o = some x ∧ p x := by
  cases o with
  | none => cases h
  | some x => exact ⟨x, rfl, by simpa using h⟩

theorem isSome_getD {α : Type} {o : Option α} {d : α} (h : o.isSome = true) : o = some (o.getD d) := by
  cases o with
  | none => cases h
  | some x => rfl

theorem writesMem_of {k : Nat} {ea : Word} {n : Nat} {s : State} {a b : Nat} {u : State} (h1 : wpHit k ea.toNat n false true s = none)
    (h2 : ∃ c, translate2 k ea n .store s = (.ok (a, b, c), u)) (h3 : memAt a (firstPart ea n) u = true ∧ memAt b (n - firstPart ea n) u = true)
    (h4 : ∀ i, i < n → poisoned (byteOf ea n a b i) u = false ∧ dramHeld (byteOf ea n a b i) s = false)
    (h5 : ∀ i, i < n → ∀ j, j < n → byteOf ea n a b i = byteOf ea n a b j → i = j) : WritesMem k ea n s a b u :=
  ⟨h1, h2, h3.1, h3.2, h4, fun i j hi hj => h5 i hi j hj⟩

theorem turnOf_of {k : Nat} {s : State} (hk : k < 6) (hr : relocationRuns s = true) (hv : gcVictim s = none)
    (h : (List.range k).all (fun j => j == 0 || j == 1 || !workAt j s) = true) : turnOf k s = true := by
  simp only [turnOf, hr, Bool.true_and, List.all_eq_true, List.mem_range] at h ⊢
  intro j hj
  have q := h j hj
  by_cases e : j = 1
  · subst e
    simp [workAt, hv]
  · simpa [e] using q

theorem gcTurn_of {s : State} (hr : relocationRuns s = true) (hb : servedBlks s = []) (hf : refreshSource s = none)
    (h : workAt 2 s = false ∧ workAt 3 s = false ∧ workAt 4 s = false) : turnOf (if freeQlcSbs s < 96 then 1 else 6) s = true := by
  have hw : wearSource s = none := by
    by_cases e : freshBlks s = 0 <;> simp [wearSource, wearMin, wearMax, hb, e]
  have h5 : workAt 5 s = false := by simp [workAt, hw, hf]
  by_cases e : freeQlcSbs s < 96
  · simp [e, turnOf, hr]
  · have h1 : workAt 1 s = false := by simp [workAt, reserveLow, e]
    simp only [e, if_false, turnOf, hr, Bool.true_and, List.all_eq_true, List.mem_range]
    intro j hj
    have : j = 0 ∨ j = 1 ∨ j = 2 ∨ j = 3 ∨ j = 4 ∨ j = 5 := by omega
    rcases this with rfl | rfl | rfl | rfl | rfl | rfl <;> simp [h1, h, h5]

theorem wearApart_of {s : State} (h0 : (servedBlks s).foldl (fun n b => min n b.wear) ((servedBlks s).foldl (fun n b => max n b.wear) 0) + 4000 <
      (servedBlks s).foldl (fun n b => max n b.wear) 0)
    (h1 : (servedBlks s).foldl (fun n b => min n b.wear) s.ftl.freshWear + 4000 < (servedBlks s).foldl (fun n b => max n b.wear) s.ftl.freshWear) :
    wearMin s + 4000 < wearMax s := by
  unfold wearMin wearMax
  by_cases e : freshBlks s = 0
  · simpa only [e, if_true] using h0
  · simpa only [e, if_false] using h1

/-! ### States -/

/-- Fields set in registers. -/
def sets (l : List (Fld × Nat)) (s : State) : State := l.foldl (fun s p => fset p.1 p.2 s) s

/-- The module in Serve with every power domain on and the Commit reserve charged. -/
def up : State :=
  sets [(Fl.AON_MODE_CUR, 4), (Fl.PWR_STATUS_RESERVE_OK, 1)]
    (wr Reg.AON_PD_ON_LO 0xFFFFFFFF (wr Reg.AON_PD_ON_HI 0xFF State.reset))

/-- A namespace of 1,024 blocks of 4,096 bytes, attached to controller 1. -/
def ns1 : Ns := ⟨0, 1024, 1024, 3, false, 0, false, 0, 0, [1], false, 0, ⟨[], none, 0, 0, false⟩⟩

/-- An enabled controller with an admin and an I/O queue pair. -/
def ctl : Ctrl := { Ctrl.fresh 0 false false true with
  en := true, rdy := true, reserve := 4, ownUsed := 1
  sqs := [(0, ⟨16, 0, 0, 0, 0, false, false, false⟩), (1, ⟨16, 1, 2, 1, 0, false, false, false⟩)]
  cqs := [(0, ⟨16, 0, 0, some 0, [], []⟩), (1, ⟨16, 0, 0, none, [], []⟩)] }

/-- A command of controller 1 on its I/O queue. -/
def cmd (tag : Nat) (k : CmdKind) (lba nlb : Nat) (ph : Phase) : Cmd :=
  ⟨tag, 1, 1, 100 + tag, tag, false, false, k, 1, lba, nlb, false, true, ph, false, false, [], false, [], [], [], [], PrInfo.none, false, false, false, none⟩

/-- A superblock of the landing pool with one block, on channel 3, open for landing. -/
def openSlc : Sb := { Sb.none with use := .landing, slc := true, blocks := [(3, 0)], parity := 0, fill := [(3, 0)] }

/-- The module in Serve with a controller, a namespace and these commands outstanding. -/
def io (cs : List Cmd) : State :=
  { up with nv := { up.nv with ctrls := [(1, ctl)], cmds := cs, ns := [(1, ns1)], order := 9 },
            ftl := { up.ftl with cached := [pageKey 1 0], dynTarget := 1, openDyn := some 9, sbs := [(9, openSlc)] } }

/-! ### Each check refuses a term -/

theorem test_wf_addresses_and_requesters :
    Instr.wf (.registerWrite 0x1000000000000 4 0 0x10) = false ∧ Instr.wf (.registerWrite 0x40010000 3 0 0x10) = false ∧
      Instr.wf (.registerWrite 0x40010000 4 0 0x0FF) = false ∧ Instr.wf (.registerWrite 0x40010000 4 0 0x10) = true ∧
      Instr.wf (.malformedRegisterAccess 0 256 none 0) = false ∧ Instr.wf (.debugRead 1 4 0 false false) = false ∧
      Instr.wf (.debugRead 8 2 0 false false) = false ∧ Instr.wf (.debugRead 7 3 0xFFFFFFFFFFFF false false) = true := by decide

theorem test_wf_numbers :
    Instr.wf (.doorbellWrite 0x10000 1 2) = false ∧ Instr.wf (.commandFetch 1 .read 0x100000000 0 1) = false ∧
      Instr.wf (.commandFetch 1 .read 1 0x10000000000000000 1) = false ∧ Instr.wf (.flush 0x10000) = false ∧
      Instr.wf (.write 1 [] { PrInfo.none with app := 0x10000 }) = false ∧ Instr.wf (.cursorWrite 2 1 false) = false ∧
      Instr.wf (.coalescingWindowEnd 4 1 1) = false ∧ Instr.wf (.postmarkSubmit 14 0x10) = false ∧ Instr.wf (.entdaa 128) = false ∧
      Instr.wf (.barReservedAccess 128 0 0 (some 0)) = false ∧ Instr.wf (.barReservedAccess 0 6 0 (some 0)) = false ∧
      Instr.wf (.namespaceCreate 1 ⟨256, 1, 1, 0, 0, 0, 0, false⟩) = false ∧ Instr.wf (.flush 0xFFFF) = true := by decide

theorem test_wf_units :
    Instr.wf (.add 77 0) = false ∧ Instr.wf (.runAheadEntry 64 0) = false ∧ Instr.wf (.controlCoreRetire 12) = false ∧
      Instr.wf (.clusterReset 8 true) = false ∧ Instr.wf (.landingProgramDone 1 true 32) = false ∧ Instr.wf (.tableClearDone 16) = false ∧
      Instr.wf (.pageReadDone 0 8 .hard) = false ∧
      Instr.wf (.pageReadDone 0 1 (.check false none)) = false ∧ Instr.wf (.pageReadDone 0 1 (.check true (some 4))) = false ∧
      Instr.wf (.pllLockLoss 5 1) = false ∧ Instr.wf (.compress 4 .phys 0 []) = false ∧ Instr.wf (.compress 0 (.host 128) 0 []) = false ∧
      Instr.wf (.portUrgent 4 0 true) = false ∧ Instr.wf (.portUrgent 3 8 true) = false ∧ Instr.wf (.portLinkDown 2) = false ∧
      Instr.wf (.digestClaim 16 0) = false ∧ Instr.wf (.digestKeyWrite 0 16 0 0) = false ∧ Instr.wf (.submit 76 0) = false ∧
      Instr.wf (.matchTableDelete 1 256) = false ∧ Instr.wf (.add 76 0xFFFFFFFF) = true := by decide

/-! ### Words and values that the spec writes out -/

/-- R313: the canonical no-operation; R336: XRET. -/
theorem test_words_of_the_spec :
    majOf 0x10000000 = 0x04 ∧ rdOf 0x10000000 = 0 ∧ raOf 0x10000000 = 0 ∧ immOf 0x10000000 = 0 ∧ majOf 0x00001C00 = 0 ∧ sysFnOf 0x00001C00 = 7 ∧
      rdOf 0x00001C00 = 0 ∧ raOf 0x00001C00 = 0 ∧ simmOf 0x00001C00 = 0 := by decide

/-- R506: IDENT answers link version 1, 77 cores and 0xB0D7, most significant byte first, after the status byte of DONE. -/
theorem test_ident_bytes : (linkPacket 0x05 0 (some 0x4D01B0D7)).take 9 = [0x28, 0, 0, 0, 0, 0x4D, 0x01, 0xB0, 0xD7] := by decide +kernel

/-- R312: division by zero and of the most negative number. -/
theorem test_division_corners :
    BitVec.ofInt 64 ((BitVec.intMin 64).toInt.tdiv (BitVec.allOnes 64).toInt) = BitVec.intMin 64 ∧
      BitVec.ofInt 64 ((BitVec.intMin 64).toInt.tmod (BitVec.allOnes 64).toInt) = 0 := by decide +kernel

/-! ### The statements about every command -/

theorem test_StepRunsTheFrontCommand :
    ({ up with pending := [.lineReset, .pfailAssert] } : State).pending = [.lineReset, .pfailAssert] ∧ up.pending = [] ∧
      schUp up = true ∧ fget Fl.SCH_STATUS_FROZEN up = 0 ∧ mode up ≠ 6 ∧ up.sch.holds = [] ∧ fget Fl.PWR_COMMIT_STATE_PHASE up ≠ 2 ∧
      up.pow.idleWait = none ∧ schUp State.reset = false := by decide +kernel

theorem test_ResetState : (regInfo Reg.PWR_EVENT).isSome = true ∧ (regInfo Reg.PWR_EVENT).any (fun x => x.1 == .pwr) = true := by decide +kernel

theorem test_StepKeepsTheInvariant :
    Machine.Inv up ∧ ∃ t, step { up with pending := [.lineReset] } = .next t :=
  ⟨by unfold Machine.Inv LanesOk LaneFull LaneCoal; decide +kernel, _, rfl⟩

theorem test_CommandsLeaveTheRest : Part.mem ∉ mayChange .lineReset ∧ ∃ t, exec .lineReset up = .next t := ⟨by decide, _, rfl⟩

namespace Power

def s1 : State := sets [(Fl.PWR_STATUS_AUX_OK, 1)] up
def s2 : State := sets [(Fl.PWR_STATUS_AUX_OK, 1),(Fl.PWR_STATUS_ACTIVE, 1),(Fl.PWR_STATUS_MAINS_OK, 1),(Fl.PWR_SRC_CFG_RETURN_DLY, 1)] up
def s3 : State := sets [(Fl.PWR_STATUS_RESERVE_OK, 0)] up
def s4 : State := sets [(Fl.PWR_CAP_CTRL_TEST_BUSY, 1)] up
def brace (l : List (Fld × Nat)) : State := sets l (sets [(Fl.AON_MODE_CUR, 8), (Fl.PWR_COMMIT_STATE_PHASE, 1)] up)
def sealing (f : Pow → Pow) (l : List (Fld × Nat)) : State := { sets l (sets [(Fl.AON_MODE_CUR, 8), (Fl.PWR_COMMIT_STATE_PHASE, 2)] up) with pow := f Pow.reset }
def pw (f : Pow → Pow) (l : List (Fld × Nat)) : State := { sets l up with pow := f up.pow }
def s5 : State := sets [(Fl.AON_MODE_CUR, 3)] up
def s6 : State := sets [(Fl.PWR_PFAIL_CFG_EN, 1)] up
def s7 : State := sets [(Fl.PWR_PFAIL_CFG_EN, 0)] up
def s8 : State := brace []
def s9 : State := brace [(Fl.PWR_PFAIL_CFG_EN, 1)]
def s10 : State := pw (fun p => { p with afterSeal := .keepPfail }) [(Fl.AON_MODE_CUR, 1)]
def s11 : State := pw (fun p => { p with afterSeal := .keepPfail, pwrdis := true }) [(Fl.AON_MODE_CUR, 1)]
def s12 : State := pw (fun p => { p with pfailLow := true }) [(Fl.AON_MODE_CUR, 8), (Fl.PWR_COMMIT_STATE_PHASE, 1),(Fl.PWR_PFAIL_CFG_EN, 1)]
def s13 : State := { brace [] with media := { brace [] |>.media with chans := [(5, { Chan.fresh with dies := [(2, mkOp .progSlc .landing 2 2 9 5 0)] })] } }
def s14 : State := pw (fun p => { p with braceFrom := 4, braceDone := true, sealDue := true }) [(Fl.AON_MODE_CUR, 8), (Fl.PWR_COMMIT_STATE_PHASE, 1)]
def s15 : State := pw (fun p => { p with braceFrom := 1, braceDone := true, sealDue := true }) [(Fl.AON_MODE_CUR, 8), (Fl.PWR_COMMIT_STATE_PHASE, 1)]
def s16 : State := sealing id []
def s17 : State := pw (fun p => { p with afterSeal := .judge }) [(Fl.AON_MODE_CUR, 8)]
def s18 : State := pw (fun p => { p with afterSeal := .judge }) [(Fl.AON_MODE_CUR, 8),(Fl.PWR_STATUS_MAINS_OK, 1)]
def s19 : State := pw (fun p => { p with afterSeal := .judge, byHold := true, pfailLow := true }) [(Fl.AON_MODE_CUR, 8),(Fl.PWR_STATUS_MAINS_OK, 1),(Fl.PWR_PFAIL_CFG_EN, 1)]
def s20 : State := pw (fun p => { p with afterSeal := .rest }) [(Fl.AON_MODE_CUR, 1)]
def s21 : State := pw (fun p => { p with afterSeal := .keepVbus }) [(Fl.AON_MODE_CUR, 1)]
def s22 : State := sets [(Fl.AON_MODE_CUR, 2), (Fl.AON_WAKE_EN_PWRDIS, 1)] up
def s23 : State := pw (fun p => { p with pwrdis := true }) []
def s24 : State := sets [(Fl.AON_MODE_CUR, 8)] up
def s25 : State := sets [(Fl.AON_MODE_CUR, 2)] up
def s26 : State := pw (fun p => { p with afterSeal := .resetOff }) [(Fl.AON_MODE_CUR, 1)]
def s27 : State := pw (fun p => { p with stopping := some .watch }) []
def s28 : State := pw (fun p => { p with pllWatch := true }) [(Fl.AON_MODE_CUR, 2)]
def s29 : State := wr Reg.AON_WAKE_TIMER 7 (sets [(Fl.AON_MODE_CUR, 1), (Fl.AON_WAKE_EN_TIMER, 1)] up)
def s30 : State := wr Reg.AON_WAKE_TIMER 7 (pw (fun p => { p with pwrdis := true }) [(Fl.AON_MODE_CUR, 2), (Fl.AON_WAKE_EN_TIMER, 1)])
def s31 : State := wr Reg.AON_PWRCYC 0xFFFFFFFF (pw (fun p => { p with qualMains := true }) [(Fl.AON_MODE_CUR, 0)])
def s32 : State := pw (fun p => { p with qualAux := true, pwrdis := true }) [(Fl.AON_MODE_CUR, 0)]
def s33 : State := pw (fun p => { p with qualAux := true }) [(Fl.AON_MODE_CUR, 0), (Fl.PWR_SRC_CFG_AUX_EN, 0)]
def s34 : State := pw (fun p => { p with riseStep := .qualified }) [(Fl.AON_MODE_CUR, 3)]
def s35 : State := pw (fun p => { p with riseStep := .firmware }) [(Fl.AON_MODE_CUR, 3)]
def s36 : State := pw (fun p => { p with riseStep := .dram }) [(Fl.AON_MODE_CUR, 3)]
def s37 : State := pw (fun p => { p with riseStep := .directory }) [(Fl.AON_MODE_CUR, 3)]
def s38 : State := pw (fun p => { p with riseStep := .replayed }) [(Fl.AON_MODE_CUR, 3),(Fl.AON_MODE_RO_CAUSE, 1)]
def s39 : State := pw (fun p => { p with riseTimeouts := 2 }) [(Fl.AON_MODE_CUR, 3)]
def s40 : State := pw id [(Fl.AON_MODE_CUR, 3)]
def idle (c : Ctrl) (m : Nat) : State := { sets [(Fl.AON_MODE_CUR, m)] up with nv := { up.nv with ctrls := [(1, c)] } }
def c1 : Ctrl := { Ctrl.fresh 0 false false true with en := true, rdy := true, apst := true, feats := [(apstKey 0, 0x6403)] }
def s41 : State := idle c1 4
def s42 : State := idle { c1 with reqPs := 3 } 5
def s43 : State := idle { c1 with reqPs := 4 } 4
def s44 : State := { idle { c1 with reqPs := 3 } 4 with media := { up.media with chans := [(5, { Chan.fresh with dies := [(2, mkOp .read .unit 1 2 9 5 0)] })] } }
def s45 : State := pw (fun p => { p with idleFrom := 4 }) [(Fl.AON_MODE_CUR, 6)]
def s46 : State := wr Reg.AON_DELAY_WAKE 9 (pw (fun p => { p with idleFrom := 5 }) [(Fl.AON_MODE_CUR, 6)])
def s47 : State := sets [(Fl.CLK_LOSS_CYCLE_PLL 4, 2), (Fl.CLK_PLL_CTRL_LOCKED 4, 1)] up
def s48 : State := sets [(Fl.CLK_PLL_CTRL_LOCKED 2, 1)] up

theorem test_PowerInputsAndBank :
    (mode up ≠ 0) ∧
    (mode State.reset = 0) ∧
    ((fget Fl.PWR_STATUS_ACTIVE s1 == 1) = false ∧ inputUsable false s1 = false ∧ inputUsable (!false) s1 = true) ∧
    ((fget Fl.PWR_SRC_CFG_PRIO s2 == 1) = false ∧ (fget Fl.PWR_STATUS_ACTIVE s2 == 1) ≠ false ∧ inputUsable false s2 = true ∧ fget
      Fl.PWR_SRC_CFG_RETURN_DLY s2 ≠ 0) ∧
    (fget Fl.PWR_STATUS_BANK_STATE s3 ≠ 3 ∧ (∀ x ∈ s3.nv.cmds, x.phase ≠ Phase.held)) := by
  refine ⟨?_, ?_, ?_, ?_, ?_⟩ <;> decide +kernel

theorem test_PowerInputsAndBank_2 :
    (fget Fl.PWR_STATUS_RESERVE_OK up = 1) ∧
    (fget Fl.PWR_CAP_CTRL_TEST_BUSY up = 0 ∧ fget Fl.PWR_COMMIT_STATE_PHASE up = 0 ∧ fget Fl.PWR_STATUS_RESERVE_OK up = 1) ∧
    (fget Fl.PWR_CAP_CTRL_TEST_BUSY up = 0 ∧ fget Fl.PWR_COMMIT_STATE_PHASE up = 0 ∧ fget Fl.PWR_STATUS_RESERVE_OK up = 1 ∧ (mode up = 4 ∨ mode up
      = 5)) ∧
    (319 < 4096 ∧ 4095 < 4096 ∧ 60 < 256 ∧ fget Fl.PWR_CAP_CTRL_TEST_BUSY s4 = 1) ∧
    (600 < 4096 ∧ 4095 < 4096 ∧ 61 < 256 ∧ fget Fl.PWR_CAP_CTRL_TEST_BUSY s4 = 1) := by
  refine ⟨?_, ?_, ?_, ?_, ?_⟩ <;> decide +kernel

theorem test_BraceStarts :
    (mode up ≠ 0 ∧ mode up ≠ 8 ∧ up.pow.pfailLow = false) ∧
    (mode s5 ≠ 0 ∧ mode s5 ≠ 8 ∧ s5.pow.pfailLow = false) ∧
    (mode s6 ≠ 0 ∧ mode s6 ≠ 8 ∧ fget Fl.PWR_PFAIL_CFG_EN s6 = 1) ∧
    (fget Fl.PWR_PFAIL_CFG_EN s7 = 0) ∧
    (mode s8 = 8 ∧ fget Fl.PWR_COMMIT_STATE_PHASE s8 = 1) := by
  refine ⟨?_, ?_, ?_, ?_, ?_⟩ <;> decide +kernel

theorem test_BraceStarts_2 :
    (mode s9 = 8 ∧ fget Fl.PWR_COMMIT_STATE_PHASE s9 = 1 ∧ fget Fl.PWR_PFAIL_CFG_EN s9 = 1) ∧
    (¬(up.pow.afterSeal = AfterSeal.keepPfail ∧ mode up = 1)) ∧
    (s10.pow.afterSeal = AfterSeal.keepPfail ∧ mode s10 = 1 ∧ s10.pow.pwrdis = false) ∧
    (s11.pow.afterSeal = AfterSeal.keepPfail ∧ mode s11 = 1 ∧ s11.pow.pwrdis = true) := by
  refine ⟨?_, ?_, ?_, ?_⟩ <;> decide +kernel

theorem test_BraceAndSealEnd :
    (fget Fl.PWR_COMMIT_STATE_PHASE s12 = 1 ∧ s12.pow.pfailLow = true ∧ fget Fl.PWR_PFAIL_CFG_EN s12 = 1 ∧ s12.pow.sealDue = false) ∧
    (fget Fl.PWR_COMMIT_STATE_PHASE s8 = 1 ∧ mode s8 ≠ 0 ∧ s8.pow.afterSeal = AfterSeal.none) ∧
    (fget Fl.PWR_COMMIT_STATE_PHASE s8 = 1) ∧
    (fget Fl.PWR_COMMIT_STATE_PHASE s8 = 1 ∧ programming s8 = false) ∧
    (fget Fl.PWR_COMMIT_STATE_PHASE s13 = 1 ∧ programming s13 = true) ∧
    (fget Fl.PWR_COMMIT_STATE_PHASE s14 = 1 ∧ ¬(s14.pow.pfailInBrace = true ∧ pfailActs s14 = true) ∧ s14.pow.heldTrans = false ∧
      s14.nv.cmds = [] ∧ s14.pow.braceFrom ≠ 11 ∧ s14.pow.braceFrom < 12 ∧ s14.pow.watchWait = false ∧ s14.pow.resetWait = none ∧
      s14.pow.waitResets = [] ∧ fget Fl.AON_MODE_RO_CAUSE s14 = 0 ∧ (∀ k < 12, coreHalted (64 + k) s14 = false)) := by
  refine ⟨?_, ?_, ?_, ?_, ?_, ?_⟩ <;> decide +kernel

theorem test_BraceAndSealEnd_2 :
    (fget Fl.PWR_COMMIT_STATE_PHASE s14 = 1 ∧ s14.pow.braceDone = true ∧ s14.pow.sealDue = true ∧ s14.pow.braceFrom ≠ 1) ∧
    (fget Fl.PWR_COMMIT_STATE_PHASE s15 = 1 ∧ s15.pow.braceDone = true ∧ s15.pow.sealDue = true ∧ s15.pow.braceFrom = 1) ∧
    (fget Fl.PWR_COMMIT_STATE_PHASE s16 = 2) ∧
    (s17.pow.afterSeal = AfterSeal.judge ∧ fget Fl.PWR_STATUS_MAINS_OK s17 = 0 ∧ fget Fl.PWR_STATUS_AUX_OK s17 = 0) ∧
    (s18.pow.afterSeal = AfterSeal.judge ∧ fget Fl.PWR_STATUS_MAINS_OK s18 = 1 ∧ s18.pow.watchWait = false ∧ s18.pow.byHold = false ∧
      s18.pow.resetWait = none ∧ s18.pow.waitResets = []) ∧
    (s19.pow.afterSeal = AfterSeal.judge ∧ fget Fl.PWR_STATUS_MAINS_OK s19 = 1 ∧ s19.pow.watchWait = false ∧ s19.pow.byHold = true ∧
      fget Fl.PWR_PFAIL_CFG_EN s19 = 1 ∧ s19.pow.pfailLow = true ∧ s19.pow.resetWait = none ∧ s19.pow.waitResets = []) := by
  refine ⟨?_, ?_, ?_, ?_, ?_, ?_⟩ <;> decide +kernel

theorem test_BraceAndSealEnd_3 :
    (s20.pow.afterSeal = AfterSeal.rest ∧ s20.pow.resetWait = none ∧ s20.pow.waitResets = []) ∧
    (s21.pow.afterSeal = AfterSeal.keepVbus ∧ mode s21 = 1 ∧ s21.pow.pwrdis = false) ∧
    (fget Fl.PWR_COMMIT_STATE_PHASE s16 ≠ 1) ∧
    (fget Fl.PWR_COMMIT_STATE_PHASE up ≠ 1) ∧
    (fget Fl.PWR_COMMIT_STATE_PHASE s16 = 2 ∧ mode s16 = 8) ∧
    (mode up ≠ 0) := by
  refine ⟨?_, ?_, ?_, ?_, ?_, ?_⟩ <;> decide +kernel

theorem test_ModeRequests :
    (mode up ≠ 1 ∧ mode up ≠ 2) ∧
    (mode s22 = 2 ∧ s22.pow.afterSeal = AfterSeal.none ∧ s22.pow.pllWatch = false ∧ fget Fl.AON_WAKE_EN_PWRDIS s22 = 1) ∧
    (mode s23 = 4 ∧ fget Fl.AON_MODE_TRANS s23 = 0 ∧ s23.pow.stopping = none ∧ s23.pow.afterSeal = AfterSeal.none ∧ s23.pow.pwrdis =
      true) ∧
    (mode up = 4 ∧ fget Fl.AON_MODE_TRANS up = 0 ∧ up.pow.stopping = none ∧ up.pow.afterSeal = AfterSeal.none) ∧
    (mode up = 4 ∧ fget Fl.AON_MODE_TRANS up = 0 ∧ up.pow.stopping = none ∧ up.pow.afterSeal = AfterSeal.none ∧ up.mgt.upd.todo = []) ∧
    (mode up = 4 ∧ fget Fl.AON_MODE_TRANS up = 0 ∧ up.pow.stopping = none ∧ up.pow.afterSeal = AfterSeal.none ∧ up.mgt.upd.todo = [] ∧ coreHalted
      76 up = false) := by
  refine ⟨?_, ?_, ?_, ?_, ?_, ?_⟩ <;> decide +kernel

theorem test_ModeRequests_2 :
    (mode s24 = 8 ∧ s24.pow.afterSeal ≠ AfterSeal.resetOff ∧ s24.mgt.upd.todo = [] ∧ s24.pow.resetWait = none) ∧
    (mode s25 = 2 ∧ s25.pow.afterSeal = AfterSeal.none ∧ s25.pow.stopping = none ∧ s25.mgt.upd.todo = []) ∧
    (s26.pow.afterSeal = AfterSeal.resetOff ∧ mode s26 = 1) ∧
    (s27.pow.stopping = some StopGoal.watch ∧ s27.pow.waiting = []) ∧
    (mode s25 = 2) ∧
    (mode s25 = 2 ∧ s25.pow.afterSeal = AfterSeal.none ∧ s25.pow.pllWatch = false) := by
  refine ⟨?_, ?_, ?_, ?_, ?_, ?_⟩ <;> decide +kernel

theorem test_ModeRequests_3 :
    (mode s28 = 2 ∧ s28.pow.pllWatch = true) ∧
    (mode up ≠ 8 ∧ pdOn 7 up = true ∧ up.mgt.upd.todo = []) ∧
    (mode s24 = 8) ∧
    (347 % 256 ≠ 90) ∧
    ((mode s29 = 1 ∨ mode s29 = 2) ∧ BitVec.toNat (rd Reg.AON_WAKE_TIMER s29) ≠ 0 ∧ s29.pow.afterSeal = AfterSeal.none ∧
      s29.pow.pllWatch = false ∧ fget Fl.AON_WAKE_EN_TIMER s29 = 1 ∧ (mode s29 = 1 → s29.pow.pwrdis = false)) ∧
    ((mode s30 = 1 ∨ mode s30 = 2) ∧ BitVec.toNat (rd Reg.AON_WAKE_TIMER s30) ≠ 0 ∧ s30.pow.afterSeal = AfterSeal.none ∧
      s30.pow.pllWatch = false ∧ fget Fl.AON_WAKE_EN_TIMER s30 = 1 ∧ (mode s30 = 1 → s30.pow.pwrdis = false)) := by
  refine ⟨?_, ?_, ?_, ?_, ?_, ?_⟩ <;> decide +kernel

theorem test_ReadySequence :
    (mode s31 = 0 ∧ qualifies false s31 = true ∧ inputEnabled false s31 = true ∧ s31.pow.pwrdis = false) ∧
    (mode s32 = 0 ∧ qualifies true s32 = true ∧ inputEnabled true s32 = true ∧ s32.pow.pwrdis = true) ∧
    (qualifies true s33 = true ∧ (mode s33 ≠ 0 ∨ inputEnabled true s33 = false)) ∧
    (rising RiseStep.qualified s34 = true ∧ s34.mgt.storeA.valid = true) ∧
    (rising RiseStep.qualified s34 = true) ∧
    (rising RiseStep.firmware s35 = true ∧ (∀ c < 4, dramRetired c s35 = false)) := by
  refine ⟨?_, ?_, ?_, ?_, ?_, ?_⟩ <;> decide +kernel

theorem test_ReadySequence_2 :
    (rising RiseStep.dram s36 = true) ∧
    (rising RiseStep.directory s37 = true) ∧
    (rising RiseStep.replayed s38 = true ∧ s38.pow.sanPending = false ∧ fget Fl.AON_MODE_RO_CAUSE s38 ≠ 0) ∧
    (mode s39 = 3 ∧ s39.pow.riseTimeouts + 1 ≥ 3) ∧
    (mode s40 = 3 ∧ s40.pow.riseTimeouts = 0 ∧ s40.pow.afterSeal = AfterSeal.none ∧ s40.pow.stopping = none ∧ s40.mgt.upd.todo = []) := by
  refine ⟨?_, ?_, ?_, ?_, ?_⟩ <;> decide +kernel

theorem test_IdleAndClocks :
    (idleNow s41 = true ∧ ctrlAt 1 s41 = some c1 ∧ apstEnabled 1 s41 = true ∧ apstTarget 1 s41 = some 3) ∧
    (fget Fl.AON_MODE_TRANS s42 = 0 ∧ s42.pow.waiting = [] ∧ dieBusy s42 = false ∧ (mode s42 = 4 ∨ mode s42 = 5) ∧ psInEffect s42
      = 3) ∧
    (fget Fl.AON_MODE_TRANS s43 = 0 ∧ s43.pow.waiting = [] ∧ dieBusy s43 = false ∧ mode s43 = 4 ∧ psInEffect s43 = 4) ∧
    (fget Fl.AON_MODE_TRANS s44 = 0 ∧ s44.pow.waiting = [] ∧ dieBusy s44 = true ∧ (mode s44 = 4 ∨ mode s44 = 5) ∧ psInEffect s44
      = 3) ∧
    ((10 = 1 ∨ 10 = 5 ∨ 10 = 6 ∨ 10 = 7 ∨ 10 = 9 ∨ 10 = 10) ∧ mode s45 = 6 ∧ s45.pow.idleWait = none ∧ s45.pow.idleFrom < 12 ∧ fget
      Fl.AON_MODE_RO_CAUSE s45 = 0) ∧
    (mode s46 = 6 ∧ s46.pow.idleWait = none ∧ s46.pow.idleFrom < 12 ∧ fget Fl.AON_MODE_RO_CAUSE s46 = 0 ∧ BitVec.toNat (rd
      Reg.AON_DELAY_WAKE s46) ≠ 0) := by
  refine ⟨?_, ?_, ?_, ?_, ?_, ?_⟩ <;> decide +kernel

theorem test_IdleAndClocks_2 :
    (rd Reg.AON_DELAY_WAKE up = 0) ∧
    (4 < 5 ∧ fget (Fl.CLK_PLL_CTRL_LOCKED 4) s47 = 1 ∧ 2 ≤ fget (Fl.CLK_LOSS_CYCLE_PLL 4) s47 ∧ mode s47 ≠ 8) ∧
    ((2 = 1 ∨ 2 = 2 ∨ 2 = 4) ∧ fget (Fl.CLK_PLL_CTRL_LOCKED 2) s48 = 1 ∧ fget (Fl.CLK_LOSS_CYCLE_PLL 2) s48 < 2 ∧ mode s48 = 4 ∧ fget
      Fl.AON_MODE_TRANS s48 = 0 ∧ s48.pow.stopping = none ∧ s48.pow.afterSeal = AfterSeal.none ∧ s48.mgt.upd.todo = []) ∧
    (mode up ≠ 0) ∧
    (11 < 12 ∧ fget { addr := Reg.CTC_CORE_RETIRED, lo := 11, w := 1 : Fld } up = 0) := by
  refine ⟨?_, ?_, ?_, ?_, ?_⟩ <;> decide +kernel

end Power

namespace HostSide

def blk (b : Byte) : LBlk := ⟨[b], 0, 0, 0⟩
def s1 : State := io []
def s2 : State := { io [] with nv := { (io []).nv with ctrls := [(1, { ctl with cqs := [(1, ⟨16, 15, 1, none, [⟨1,2,0,0,false,0,0,[]⟩,⟨1,3,0,0,false,0,0,[]⟩], []⟩)] })] } }
def s3 : State := { io [] with nv := { (io []).nv with freedTags := [(1, false)] } }
def s4 : State := { io [] with nv := { (io []).nv with freedTags := [(1, true)], ctrls := [(1, { ctl with ownUsed := 0 })] } }
def wCmd : Cmd := cmd 5 .write 8 4 .fetched
def s5 : State := io [wCmd]
def cCmd : Cmd := cmd 5 .copy 8 4 .fetched
def mapped : State := { io [cCmd] with ftl := { (io []).ftl with map := [(mapKey 1 1, ⟨0, 3, 2, [(0, blk 9)], 16384, false, 0⟩)] } }
def landing : Cmd := { cmd 5 .write 7 2 .started with wdata := [(7, blk 1), (8, blk 2)], places := [(1, ⟨9, 3, 0, 16384⟩), (2, ⟨9, 3, 0, 16384⟩)] }
def landState : State := { io [landing] with ftl := { (io []).ftl with map := [(mapKey 1 1, ⟨0, 3, 2, [(0, blk 9)], 16384, false, 0⟩)] } }
def heldCmd : Cmd := cmd 5 .write 7 2 .held
def s6 : State := sets [(Fl.PWR_STATUS_RESERVE_OK, 0)] (io [heldCmd])
def rCmd : Cmd := cmd 5 .read 3 3 .fetched
def rMapped : State := { io [rCmd] with ftl := { (io []).ftl with map := [(mapKey 1 1, ⟨0, 3, 2, [(0, blk 9)], 16384, false, 0⟩)] } }
def s7 : State := io [rCmd]
def waiting : Cmd := cmd 5 .read 3 3 (.waitMap (pageKey 1 0))
def s8 : State := { rMapped with nv := { rMapped.nv with cmds := [waiting] }, ftl := { rMapped.ftl with cached := [] } }
def fl : Cmd := cmd 5 .flush 0 0 .fetched
def s9 : State := io [fl]
def fa : Cmd := cmd 5 .fusedPair 4 2 .fetched
def fb : Cmd := cmd 6 .fusedPair 4 2 .fetched
def s10 : State := io [fa, fb]
def wCmd6 : Cmd := cmd 6 .write 8 4 .fetched
def ad : Cmd := cmd 5 .admin 0 0 .fetched
def s11 : State := io [ad]
def s12 : State := io [wCmd6, ad]
def full : Ctrl := { ctl with aers := [1,2,3,4,6,7,8,9,10,11,12,13,14,15,16,17] }
def s13 : State := { io [ad] with nv := { (io [ad]).nv with ctrls := [(1, full)] } }
def rv : Cmd := cmd 5 .resv 0 0 .fetched
def resvIo (r : Resv) : State := { io [rv] with nv := { (io [rv]).nv with ns := [(1, { ns1 with resv := r })] } }
def nsR (r : Resv) : Ns := { ns1 with resv := r }
def s14 : State := resvIo ⟨[], none, 0, 0xFFFFFFFF, false⟩
def s15 : State := resvIo ⟨[(2^128+1, 6)], none, 0, 1, false⟩
def s16 : State := resvIo ⟨[(2^128+1, 6)], some 3, 1, 1, false⟩
def s17 : State := resvIo ⟨[(2^128+1, 6)], some (2^128+1), 2, 1, false⟩
def s18 : State := { up with nv := { up.nv with numVfA := 3, ctrls := [(3, { ctl with func := 2 })] } }
def s19 : State := { up with nv := { up.nv with dual := true } }
def perst : State := { up with pow := { up.pow with perst := true } }
def s20 : State := sets [(Fl.AON_MODE_CUR, 1), (Fl.AON_WAKE_EN_PERST, 1)] perst
def s21 : State := sets [(Fl.HIF_LINK_STATUS_UP_A, 1)] up
def s22 : State := sets [(Fl.HIF_LINK_STATUS_UP_B, 1)] up
def upA : State := sets [(Fl.HIF_LINK_STATUS_UP_A, 1)] up
def s23 : State := sets [(Fl.HIF_LINK_CFG_L1_ALLOW, 1)] { upA with nv := { upA.nv with aspmA := [1, 3] } }
def s24 : State := sets [(Fl.HIF_LINK_STATUS_UP_A, 1), (Fl.AON_MODE_CUR, 3)] up
def s25 : State := { up with ten := { up.ten with msixOn := [0] } }
def slm : State := { up with ten := { up.ten with memNs := [(0, 1)], slm := [(0, [4])] } }

theorem test_DoorbellsAndTags :
    (sqAt 1 1 (wakeBy 5 s1) = some
      { size := 16, head := 1, tail := 2, cq := 1, prio := 0, ordered := false, haltErr := false, halted := false : Sq } ∧ 15 <
      { size := 16, head := 1, tail := 2, cq := 1, prio := 0, ordered := false, haltErr := false, halted := false : Sq }.size) ∧
    (sqAt 1 1 (wakeBy 5 s1) = some
      { size := 16, head := 1, tail := 2, cq := 1, prio := 0, ordered := false, haltErr := false, halted := false : Sq } ∧
      { size := 16, head := 1, tail := 2, cq := 1, prio := 0, ordered := false, haltErr := false, halted := false : Sq }.size ≤ 16 ∧ (∀ x ∈ (wakeBy
      5 s1).nv.ctrls, x.2.aers = [])) ∧
    (OnlyFetched (wakeBy 5 s2) ∧ cqAt 1 1 (wakeBy 5 s2) = some
      { size := 16, head := 15, tail := 1, vector := none, posted := [{ sq := 1, cid := 2, sct := 0, sc := 0, dnr := false, dw0 := 0, dw1 := 0, data := [] : Cqe }, { sq := 1, cid := 3, sct := 0, sc := 0, dnr := false, dw0 := 0, dw1 := 0, data := [] : Cqe }], held := [] : Cq }
      ∧
      { size := 16, head := 15, tail := 1, vector := none, posted := [{ sq := 1, cid := 2, sct := 0, sc := 0, dnr := false, dw0 := 0, dw1 := 0, data := [] : Cqe }, { sq := 1, cid := 3, sct := 0, sc := 0, dnr := false, dw0 := 0, dw1 := 0, data := [] : Cqe }], held := [] : Cq }.held
      = [] ∧ 0 <
      { size := 16, head := 15, tail := 1, vector := none, posted := [{ sq := 1, cid := 2, sct := 0, sc := 0, dnr := false, dw0 := 0, dw1 := 0, data := [] : Cqe }, { sq := 1, cid := 3, sct := 0, sc := 0, dnr := false, dw0 := 0, dw1 := 0, data := [] : Cqe }], held := [] : Cq }.size
      ∧ (0 + max
      { size := 16, head := 15, tail := 1, vector := none, posted := [{ sq := 1, cid := 2, sct := 0, sc := 0, dnr := false, dw0 := 0, dw1 := 0, data := [] : Cqe }, { sq := 1, cid := 3, sct := 0, sc := 0, dnr := false, dw0 := 0, dw1 := 0, data := [] : Cqe }], held := [] : Cq }.size
      1 -
      { size := 16, head := 15, tail := 1, vector := none, posted := [{ sq := 1, cid := 2, sct := 0, sc := 0, dnr := false, dw0 := 0, dw1 := 0, data := [] : Cqe }, { sq := 1, cid := 3, sct := 0, sc := 0, dnr := false, dw0 := 0, dw1 := 0, data := [] : Cqe }], held := [] : Cq }.head
      % max
      { size := 16, head := 15, tail := 1, vector := none, posted := [{ sq := 1, cid := 2, sct := 0, sc := 0, dnr := false, dw0 := 0, dw1 := 0, data := [] : Cqe }, { sq := 1, cid := 3, sct := 0, sc := 0, dnr := false, dw0 := 0, dw1 := 0, data := [] : Cqe }], held := [] : Cq }.size
      1) % max
      { size := 16, head := 15, tail := 1, vector := none, posted := [{ sq := 1, cid := 2, sct := 0, sc := 0, dnr := false, dw0 := 0, dw1 := 0, data := [] : Cqe }, { sq := 1, cid := 3, sct := 0, sc := 0, dnr := false, dw0 := 0, dw1 := 0, data := [] : Cqe }], held := [] : Cq }.size
      1 ≤
      ({ size := 16, head := 15, tail := 1, vector := none, posted := [{ sq := 1, cid := 2, sct := 0, sc := 0, dnr := false, dw0 := 0, dw1 := 0, data := [] : Cqe }, { sq := 1, cid := 3, sct := 0, sc := 0, dnr := false, dw0 := 0, dw1 := 0, data := [] : Cqe }], held := [] : Cq }.tail
      + max
      { size := 16, head := 15, tail := 1, vector := none, posted := [{ sq := 1, cid := 2, sct := 0, sc := 0, dnr := false, dw0 := 0, dw1 := 0, data := [] : Cqe }, { sq := 1, cid := 3, sct := 0, sc := 0, dnr := false, dw0 := 0, dw1 := 0, data := [] : Cqe }], held := [] : Cq }.size
      1 -
      { size := 16, head := 15, tail := 1, vector := none, posted := [{ sq := 1, cid := 2, sct := 0, sc := 0, dnr := false, dw0 := 0, dw1 := 0, data := [] : Cqe }, { sq := 1, cid := 3, sct := 0, sc := 0, dnr := false, dw0 := 0, dw1 := 0, data := [] : Cqe }], held := [] : Cq }.head
      % max
      { size := 16, head := 15, tail := 1, vector := none, posted := [{ sq := 1, cid := 2, sct := 0, sc := 0, dnr := false, dw0 := 0, dw1 := 0, data := [] : Cqe }, { sq := 1, cid := 3, sct := 0, sc := 0, dnr := false, dw0 := 0, dw1 := 0, data := [] : Cqe }], held := [] : Cq }.size
      1) % max
      { size := 16, head := 15, tail := 1, vector := none, posted := [{ sq := 1, cid := 2, sct := 0, sc := 0, dnr := false, dw0 := 0, dw1 := 0, data := [] : Cqe }, { sq := 1, cid := 3, sct := 0, sc := 0, dnr := false, dw0 := 0, dw1 := 0, data := [] : Cqe }], held := [] : Cq }.size
      1) ∧
    (mode s1 ≠ 8 ∧ arbitrate (pauseTagless s1) = some (1, 1) ∧ sqAt 1 1 (pauseTagless s1) = some
      { size := 16, head := 1, tail := 2, cq := 1, prio := 0, ordered := false, haltErr := false, halted := false : Sq } ∧
      { size := 16, head := 1, tail := 2, cq := 1, prio := 0, ordered := false, haltErr := false, halted := false : Sq }.halted = false ∧ tagFor 1
      (pauseTagless s1) = some false ∧ CmdKind.write ≠ CmdKind.unsupported ∧ (trackedKind CmdKind.write = true → (pauseTagless
      s1).nv.ovlPause = false ∧ List.length (List.filter (fun x => x.tracked) s1.nv.cmds) < 16384)) ∧
    (s3.nv.freedTags = [(1, false)] ∧ ctrlAt 1 s3 = some ctl) ∧
    (s4.nv.freedTags = [(1, true)] ∧ ctrlAt 1 s4 = some
      { func := ctl.func, fabric := ctl.fabric, portB := ctl.portB, pf := ctl.pf, online := ctl.online, en := ctl.en, rdy := ctl.rdy, shst := ctl.shst, shnNormal := ctl.shnNormal, ckpt := ctl.ckpt, ams := ctl.ams, mps := ctl.mps, reserve := ctl.reserve, ownUsed := 0, paused := ctl.paused, setPs := ctl.setPs, reqPs := ctl.reqPs, apst := ctl.apst, aers := ctl.aers, feats := ctl.feats, sqs := ctl.sqs, cqs := ctl.cqs, weight := ctl.weight, deficit := ctl.deficit, sqLast := ctl.sqLast, wrr := ctl.wrr, selfTest := ctl.selfTest, errors := ctl.errors : Ctrl }) ∧
    ((List.length (List.filter (fun x => x.tracked) s1.nv.cmds) < 16384)) := ⟨by decide +kernel, by decide +kernel, ⟨onlyFetched_of (by decide +kernel), by decide +kernel⟩, by decide +kernel, by decide +kernel,
    by decide +kernel, by decide +kernel⟩

theorem test_WritesLand :
    (Ready 5 [CmdKind.write] wCmd s5 ∧ CanLand (withBlocks wCmd ns1 [blk 1, blk 2, blk 3, blk 4] PrInfo.none) ns1 (setCmd (withBlocks wCmd ns1
      [blk 1, blk 2, blk 3, blk 4] PrInfo.none) s5) ∧ List.length [blk 1, blk 2, blk 3, blk 4] = wCmd.nlb ∧ ioCheck wCmd true s5 = none ∧
      (PrInfo.none.pract = true ∨ checkBlocks ns1.dps ns1.flbas PrInfo.none wCmd.lba [blk 1, blk 2, blk 3, blk 4] = none)) ∧
    (Ready 5 [CmdKind.copy] cCmd mapped ∧ (CanLand (withBlocks cCmd ns1 (List.flatten [[blk 9, zeroBlk 3, zeroBlk 3], [zeroBlk 3]])
      { pract := true, guardChk := PrInfo.none.guardChk, appChk := PrInfo.none.appChk, refChk := PrInfo.none.refChk, ref0 := PrInfo.none.ref0, app := PrInfo.none.app, appMask := PrInfo.none.appMask : PrInfo })
      ns1 (setCmd (withBlocks cCmd ns1 (List.flatten [[blk 9, zeroBlk 3, zeroBlk 3], [zeroBlk 3]])
      { pract := true, guardChk := PrInfo.none.guardChk, appChk := PrInfo.none.appChk, refChk := PrInfo.none.refChk, ref0 := PrInfo.none.ref0, app := PrInfo.none.app, appMask := PrInfo.none.appMask : PrInfo })
      (forEach (fun r t => readRange cCmd.nsid r.1 r.2 ns1 [] t) [(4, 3), (0, 1)] mapped))) ∧ (List.mapM (fun r => currentBlocks cCmd.nsid r.1 r.2
      ns1 [] mapped) [(4, 3), (0, 1)] = some [[blk 9, zeroBlk 3, zeroBlk 3], [zeroBlk 3]]) ∧ nsAt cCmd.nsid mapped = some ns1 ∧ List.length [(4,
      3), (0, 1)] ≤ 128 ∧ cCmd.nlb * lbaBytes ns1.flbas ≤ 2097152 ∧ (List.foldl (fun m r => m + r.2) 0 [(4, 3), (0, 1)] = cCmd.nlb) ∧ (∀ r ∈ [(4,
      3), (0, 1)], r.1 + r.2 ≤ ns1.nsze) ∧ ioCheck
      { tag := cCmd.tag, ctrl := cCmd.ctrl, sq := cCmd.sq, cid := cCmd.cid, order := cCmd.order, ordered := cCmd.ordered, haltErr := cCmd.haltErr, kind := CmdKind.write, nsid := cCmd.nsid, lba := cCmd.lba, nlb := cCmd.nlb, shared := cCmd.shared, tracked := cCmd.tracked, phase := cCmd.phase, admitted := cCmd.admitted, media := cCmd.media, wdata := cCmd.wdata, dealloc := cCmd.dealloc, places := cCmd.places, need := cCmd.need, looked := cCmd.looked, got := cCmd.got, pr := cCmd.pr, verifyOnly := cCmd.verifyOnly, compareOnly := cCmd.compareOnly, abort := cCmd.abort, result := cCmd.result : Cmd }
      false mapped = none ∧ ioCheck cCmd true mapped = none ∧ (∀ r ∈ [(4, 3), (0, 1)], earlierWrite cCmd r.1 r.2 ns1 mapped = false ∧ missingPage
      cCmd.nsid r.1 r.2 ns1 mapped = none) ∧ (∀ p ∈ List.zip [(4, 3), (0, 1)] [[blk 9, zeroBlk 3, zeroBlk 3], [zeroBlk 3]], checkBlocks ns1.dps
      ns1.flbas PrInfo.none p.1.1 p.2 = none)) ∧
    (Ready 5 [CmdKind.write, CmdKind.dealloc] wCmd s5 ∧ CanLand
      { tag := (withBlocks wCmd ns1 (List.replicate wCmd.nlb (zeroBlk ns1.flbas)) { pract := true, guardChk := PrInfo.none.guardChk, appChk := PrInfo.none.appChk, refChk := PrInfo.none.refChk, ref0 := PrInfo.none.ref0, app := PrInfo.none.app, appMask := PrInfo.none.appMask : PrInfo }).tag, ctrl := (withBlocks wCmd ns1 (List.replicate wCmd.nlb (zeroBlk ns1.flbas)) { pract := true, guardChk := PrInfo.none.guardChk, appChk := PrInfo.none.appChk, refChk := PrInfo.none.refChk, ref0 := PrInfo.none.ref0, app := PrInfo.none.app, appMask := PrInfo.none.appMask : PrInfo }).ctrl, sq := (withBlocks wCmd ns1 (List.replicate wCmd.nlb (zeroBlk ns1.flbas)) { pract := true, guardChk := PrInfo.none.guardChk, appChk := PrInfo.none.appChk, refChk := PrInfo.none.refChk, ref0 := PrInfo.none.ref0, app := PrInfo.none.app, appMask := PrInfo.none.appMask : PrInfo }).sq, cid := (withBlocks wCmd ns1 (List.replicate wCmd.nlb (zeroBlk ns1.flbas)) { pract := true, guardChk := PrInfo.none.guardChk, appChk := PrInfo.none.appChk, refChk := PrInfo.none.refChk, ref0 := PrInfo.none.ref0, app := PrInfo.none.app, appMask := PrInfo.none.appMask : PrInfo }).cid, order := (withBlocks wCmd ns1 (List.replicate wCmd.nlb (zeroBlk ns1.flbas)) { pract := true, guardChk := PrInfo.none.guardChk, appChk := PrInfo.none.appChk, refChk := PrInfo.none.refChk, ref0 := PrInfo.none.ref0, app := PrInfo.none.app, appMask := PrInfo.none.appMask : PrInfo }).order, ordered := (withBlocks wCmd ns1 (List.replicate wCmd.nlb (zeroBlk ns1.flbas)) { pract := true, guardChk := PrInfo.none.guardChk, appChk := PrInfo.none.appChk, refChk := PrInfo.none.refChk, ref0 := PrInfo.none.ref0, app := PrInfo.none.app, appMask := PrInfo.none.appMask : PrInfo }).ordered, haltErr := (withBlocks wCmd ns1 (List.replicate wCmd.nlb (zeroBlk ns1.flbas)) { pract := true, guardChk := PrInfo.none.guardChk, appChk := PrInfo.none.appChk, refChk := PrInfo.none.refChk, ref0 := PrInfo.none.ref0, app := PrInfo.none.app, appMask := PrInfo.none.appMask : PrInfo }).haltErr, kind := (withBlocks wCmd ns1 (List.replicate wCmd.nlb (zeroBlk ns1.flbas)) { pract := true, guardChk := PrInfo.none.guardChk, appChk := PrInfo.none.appChk, refChk := PrInfo.none.refChk, ref0 := PrInfo.none.ref0, app := PrInfo.none.app, appMask := PrInfo.none.appMask : PrInfo }).kind, nsid := (withBlocks wCmd ns1 (List.replicate wCmd.nlb (zeroBlk ns1.flbas)) { pract := true, guardChk := PrInfo.none.guardChk, appChk := PrInfo.none.appChk, refChk := PrInfo.none.refChk, ref0 := PrInfo.none.ref0, app := PrInfo.none.app, appMask := PrInfo.none.appMask : PrInfo }).nsid, lba := (withBlocks wCmd ns1 (List.replicate wCmd.nlb (zeroBlk ns1.flbas)) { pract := true, guardChk := PrInfo.none.guardChk, appChk := PrInfo.none.appChk, refChk := PrInfo.none.refChk, ref0 := PrInfo.none.ref0, app := PrInfo.none.app, appMask := PrInfo.none.appMask : PrInfo }).lba, nlb := (withBlocks wCmd ns1 (List.replicate wCmd.nlb (zeroBlk ns1.flbas)) { pract := true, guardChk := PrInfo.none.guardChk, appChk := PrInfo.none.appChk, refChk := PrInfo.none.refChk, ref0 := PrInfo.none.ref0, app := PrInfo.none.app, appMask := PrInfo.none.appMask : PrInfo }).nlb, shared := (withBlocks wCmd ns1 (List.replicate wCmd.nlb (zeroBlk ns1.flbas)) { pract := true, guardChk := PrInfo.none.guardChk, appChk := PrInfo.none.appChk, refChk := PrInfo.none.refChk, ref0 := PrInfo.none.ref0, app := PrInfo.none.app, appMask := PrInfo.none.appMask : PrInfo }).shared, tracked := (withBlocks wCmd ns1 (List.replicate wCmd.nlb (zeroBlk ns1.flbas)) { pract := true, guardChk := PrInfo.none.guardChk, appChk := PrInfo.none.appChk, refChk := PrInfo.none.refChk, ref0 := PrInfo.none.ref0, app := PrInfo.none.app, appMask := PrInfo.none.appMask : PrInfo }).tracked, phase := (withBlocks wCmd ns1 (List.replicate wCmd.nlb (zeroBlk ns1.flbas)) { pract := true, guardChk := PrInfo.none.guardChk, appChk := PrInfo.none.appChk, refChk := PrInfo.none.refChk, ref0 := PrInfo.none.ref0, app := PrInfo.none.app, appMask := PrInfo.none.appMask : PrInfo }).phase, admitted := (withBlocks wCmd ns1 (List.replicate wCmd.nlb (zeroBlk ns1.flbas)) { pract := true, guardChk := PrInfo.none.guardChk, appChk := PrInfo.none.appChk, refChk := PrInfo.none.refChk, ref0 := PrInfo.none.ref0, app := PrInfo.none.app, appMask := PrInfo.none.appMask : PrInfo }).admitted, media := (withBlocks wCmd ns1 (List.replicate wCmd.nlb (zeroBlk ns1.flbas)) { pract := true, guardChk := PrInfo.none.guardChk, appChk := PrInfo.none.appChk, refChk := PrInfo.none.refChk, ref0 := PrInfo.none.ref0, app := PrInfo.none.app, appMask := PrInfo.none.appMask : PrInfo }).media, wdata := (withBlocks wCmd ns1 (List.replicate wCmd.nlb (zeroBlk ns1.flbas)) { pract := true, guardChk := PrInfo.none.guardChk, appChk := PrInfo.none.appChk, refChk := PrInfo.none.refChk, ref0 := PrInfo.none.ref0, app := PrInfo.none.app, appMask := PrInfo.none.appMask : PrInfo }).wdata, dealloc := false, places := (withBlocks wCmd ns1 (List.replicate wCmd.nlb (zeroBlk ns1.flbas)) { pract := true, guardChk := PrInfo.none.guardChk, appChk := PrInfo.none.appChk, refChk := PrInfo.none.refChk, ref0 := PrInfo.none.ref0, app := PrInfo.none.app, appMask := PrInfo.none.appMask : PrInfo }).places, need := (withBlocks wCmd ns1 (List.replicate wCmd.nlb (zeroBlk ns1.flbas)) { pract := true, guardChk := PrInfo.none.guardChk, appChk := PrInfo.none.appChk, refChk := PrInfo.none.refChk, ref0 := PrInfo.none.ref0, app := PrInfo.none.app, appMask := PrInfo.none.appMask : PrInfo }).need, looked := (withBlocks wCmd ns1 (List.replicate wCmd.nlb (zeroBlk ns1.flbas)) { pract := true, guardChk := PrInfo.none.guardChk, appChk := PrInfo.none.appChk, refChk := PrInfo.none.refChk, ref0 := PrInfo.none.ref0, app := PrInfo.none.app, appMask := PrInfo.none.appMask : PrInfo }).looked, got := (withBlocks wCmd ns1 (List.replicate wCmd.nlb (zeroBlk ns1.flbas)) { pract := true, guardChk := PrInfo.none.guardChk, appChk := PrInfo.none.appChk, refChk := PrInfo.none.refChk, ref0 := PrInfo.none.ref0, app := PrInfo.none.app, appMask := PrInfo.none.appMask : PrInfo }).got, pr := wCmd.pr, verifyOnly := (withBlocks wCmd ns1 (List.replicate wCmd.nlb (zeroBlk ns1.flbas)) { pract := true, guardChk := PrInfo.none.guardChk, appChk := PrInfo.none.appChk, refChk := PrInfo.none.refChk, ref0 := PrInfo.none.ref0, app := PrInfo.none.app, appMask := PrInfo.none.appMask : PrInfo }).verifyOnly, compareOnly := (withBlocks wCmd ns1 (List.replicate wCmd.nlb (zeroBlk ns1.flbas)) { pract := true, guardChk := PrInfo.none.guardChk, appChk := PrInfo.none.appChk, refChk := PrInfo.none.refChk, ref0 := PrInfo.none.ref0, app := PrInfo.none.app, appMask := PrInfo.none.appMask : PrInfo }).compareOnly, abort := (withBlocks wCmd ns1 (List.replicate wCmd.nlb (zeroBlk ns1.flbas)) { pract := true, guardChk := PrInfo.none.guardChk, appChk := PrInfo.none.appChk, refChk := PrInfo.none.refChk, ref0 := PrInfo.none.ref0, app := PrInfo.none.app, appMask := PrInfo.none.appMask : PrInfo }).abort, result := (withBlocks wCmd ns1 (List.replicate wCmd.nlb (zeroBlk ns1.flbas)) { pract := true, guardChk := PrInfo.none.guardChk, appChk := PrInfo.none.appChk, refChk := PrInfo.none.refChk, ref0 := PrInfo.none.ref0, app := PrInfo.none.app, appMask := PrInfo.none.appMask : PrInfo }).result : Cmd }
      ns1 (setCmd
      { tag := (withBlocks wCmd ns1 (List.replicate wCmd.nlb (zeroBlk ns1.flbas)) { pract := true, guardChk := PrInfo.none.guardChk, appChk := PrInfo.none.appChk, refChk := PrInfo.none.refChk, ref0 := PrInfo.none.ref0, app := PrInfo.none.app, appMask := PrInfo.none.appMask : PrInfo }).tag, ctrl := (withBlocks wCmd ns1 (List.replicate wCmd.nlb (zeroBlk ns1.flbas)) { pract := true, guardChk := PrInfo.none.guardChk, appChk := PrInfo.none.appChk, refChk := PrInfo.none.refChk, ref0 := PrInfo.none.ref0, app := PrInfo.none.app, appMask := PrInfo.none.appMask : PrInfo }).ctrl, sq := (withBlocks wCmd ns1 (List.replicate wCmd.nlb (zeroBlk ns1.flbas)) { pract := true, guardChk := PrInfo.none.guardChk, appChk := PrInfo.none.appChk, refChk := PrInfo.none.refChk, ref0 := PrInfo.none.ref0, app := PrInfo.none.app, appMask := PrInfo.none.appMask : PrInfo }).sq, cid := (withBlocks wCmd ns1 (List.replicate wCmd.nlb (zeroBlk ns1.flbas)) { pract := true, guardChk := PrInfo.none.guardChk, appChk := PrInfo.none.appChk, refChk := PrInfo.none.refChk, ref0 := PrInfo.none.ref0, app := PrInfo.none.app, appMask := PrInfo.none.appMask : PrInfo }).cid, order := (withBlocks wCmd ns1 (List.replicate wCmd.nlb (zeroBlk ns1.flbas)) { pract := true, guardChk := PrInfo.none.guardChk, appChk := PrInfo.none.appChk, refChk := PrInfo.none.refChk, ref0 := PrInfo.none.ref0, app := PrInfo.none.app, appMask := PrInfo.none.appMask : PrInfo }).order, ordered := (withBlocks wCmd ns1 (List.replicate wCmd.nlb (zeroBlk ns1.flbas)) { pract := true, guardChk := PrInfo.none.guardChk, appChk := PrInfo.none.appChk, refChk := PrInfo.none.refChk, ref0 := PrInfo.none.ref0, app := PrInfo.none.app, appMask := PrInfo.none.appMask : PrInfo }).ordered, haltErr := (withBlocks wCmd ns1 (List.replicate wCmd.nlb (zeroBlk ns1.flbas)) { pract := true, guardChk := PrInfo.none.guardChk, appChk := PrInfo.none.appChk, refChk := PrInfo.none.refChk, ref0 := PrInfo.none.ref0, app := PrInfo.none.app, appMask := PrInfo.none.appMask : PrInfo }).haltErr, kind := (withBlocks wCmd ns1 (List.replicate wCmd.nlb (zeroBlk ns1.flbas)) { pract := true, guardChk := PrInfo.none.guardChk, appChk := PrInfo.none.appChk, refChk := PrInfo.none.refChk, ref0 := PrInfo.none.ref0, app := PrInfo.none.app, appMask := PrInfo.none.appMask : PrInfo }).kind, nsid := (withBlocks wCmd ns1 (List.replicate wCmd.nlb (zeroBlk ns1.flbas)) { pract := true, guardChk := PrInfo.none.guardChk, appChk := PrInfo.none.appChk, refChk := PrInfo.none.refChk, ref0 := PrInfo.none.ref0, app := PrInfo.none.app, appMask := PrInfo.none.appMask : PrInfo }).nsid, lba := (withBlocks wCmd ns1 (List.replicate wCmd.nlb (zeroBlk ns1.flbas)) { pract := true, guardChk := PrInfo.none.guardChk, appChk := PrInfo.none.appChk, refChk := PrInfo.none.refChk, ref0 := PrInfo.none.ref0, app := PrInfo.none.app, appMask := PrInfo.none.appMask : PrInfo }).lba, nlb := (withBlocks wCmd ns1 (List.replicate wCmd.nlb (zeroBlk ns1.flbas)) { pract := true, guardChk := PrInfo.none.guardChk, appChk := PrInfo.none.appChk, refChk := PrInfo.none.refChk, ref0 := PrInfo.none.ref0, app := PrInfo.none.app, appMask := PrInfo.none.appMask : PrInfo }).nlb, shared := (withBlocks wCmd ns1 (List.replicate wCmd.nlb (zeroBlk ns1.flbas)) { pract := true, guardChk := PrInfo.none.guardChk, appChk := PrInfo.none.appChk, refChk := PrInfo.none.refChk, ref0 := PrInfo.none.ref0, app := PrInfo.none.app, appMask := PrInfo.none.appMask : PrInfo }).shared, tracked := (withBlocks wCmd ns1 (List.replicate wCmd.nlb (zeroBlk ns1.flbas)) { pract := true, guardChk := PrInfo.none.guardChk, appChk := PrInfo.none.appChk, refChk := PrInfo.none.refChk, ref0 := PrInfo.none.ref0, app := PrInfo.none.app, appMask := PrInfo.none.appMask : PrInfo }).tracked, phase := (withBlocks wCmd ns1 (List.replicate wCmd.nlb (zeroBlk ns1.flbas)) { pract := true, guardChk := PrInfo.none.guardChk, appChk := PrInfo.none.appChk, refChk := PrInfo.none.refChk, ref0 := PrInfo.none.ref0, app := PrInfo.none.app, appMask := PrInfo.none.appMask : PrInfo }).phase, admitted := (withBlocks wCmd ns1 (List.replicate wCmd.nlb (zeroBlk ns1.flbas)) { pract := true, guardChk := PrInfo.none.guardChk, appChk := PrInfo.none.appChk, refChk := PrInfo.none.refChk, ref0 := PrInfo.none.ref0, app := PrInfo.none.app, appMask := PrInfo.none.appMask : PrInfo }).admitted, media := (withBlocks wCmd ns1 (List.replicate wCmd.nlb (zeroBlk ns1.flbas)) { pract := true, guardChk := PrInfo.none.guardChk, appChk := PrInfo.none.appChk, refChk := PrInfo.none.refChk, ref0 := PrInfo.none.ref0, app := PrInfo.none.app, appMask := PrInfo.none.appMask : PrInfo }).media, wdata := (withBlocks wCmd ns1 (List.replicate wCmd.nlb (zeroBlk ns1.flbas)) { pract := true, guardChk := PrInfo.none.guardChk, appChk := PrInfo.none.appChk, refChk := PrInfo.none.refChk, ref0 := PrInfo.none.ref0, app := PrInfo.none.app, appMask := PrInfo.none.appMask : PrInfo }).wdata, dealloc := false, places := (withBlocks wCmd ns1 (List.replicate wCmd.nlb (zeroBlk ns1.flbas)) { pract := true, guardChk := PrInfo.none.guardChk, appChk := PrInfo.none.appChk, refChk := PrInfo.none.refChk, ref0 := PrInfo.none.ref0, app := PrInfo.none.app, appMask := PrInfo.none.appMask : PrInfo }).places, need := (withBlocks wCmd ns1 (List.replicate wCmd.nlb (zeroBlk ns1.flbas)) { pract := true, guardChk := PrInfo.none.guardChk, appChk := PrInfo.none.appChk, refChk := PrInfo.none.refChk, ref0 := PrInfo.none.ref0, app := PrInfo.none.app, appMask := PrInfo.none.appMask : PrInfo }).need, looked := (withBlocks wCmd ns1 (List.replicate wCmd.nlb (zeroBlk ns1.flbas)) { pract := true, guardChk := PrInfo.none.guardChk, appChk := PrInfo.none.appChk, refChk := PrInfo.none.refChk, ref0 := PrInfo.none.ref0, app := PrInfo.none.app, appMask := PrInfo.none.appMask : PrInfo }).looked, got := (withBlocks wCmd ns1 (List.replicate wCmd.nlb (zeroBlk ns1.flbas)) { pract := true, guardChk := PrInfo.none.guardChk, appChk := PrInfo.none.appChk, refChk := PrInfo.none.refChk, ref0 := PrInfo.none.ref0, app := PrInfo.none.app, appMask := PrInfo.none.appMask : PrInfo }).got, pr := wCmd.pr, verifyOnly := (withBlocks wCmd ns1 (List.replicate wCmd.nlb (zeroBlk ns1.flbas)) { pract := true, guardChk := PrInfo.none.guardChk, appChk := PrInfo.none.appChk, refChk := PrInfo.none.refChk, ref0 := PrInfo.none.ref0, app := PrInfo.none.app, appMask := PrInfo.none.appMask : PrInfo }).verifyOnly, compareOnly := (withBlocks wCmd ns1 (List.replicate wCmd.nlb (zeroBlk ns1.flbas)) { pract := true, guardChk := PrInfo.none.guardChk, appChk := PrInfo.none.appChk, refChk := PrInfo.none.refChk, ref0 := PrInfo.none.ref0, app := PrInfo.none.app, appMask := PrInfo.none.appMask : PrInfo }).compareOnly, abort := (withBlocks wCmd ns1 (List.replicate wCmd.nlb (zeroBlk ns1.flbas)) { pract := true, guardChk := PrInfo.none.guardChk, appChk := PrInfo.none.appChk, refChk := PrInfo.none.refChk, ref0 := PrInfo.none.ref0, app := PrInfo.none.app, appMask := PrInfo.none.appMask : PrInfo }).abort, result := (withBlocks wCmd ns1 (List.replicate wCmd.nlb (zeroBlk ns1.flbas)) { pract := true, guardChk := PrInfo.none.guardChk, appChk := PrInfo.none.appChk, refChk := PrInfo.none.refChk, ref0 := PrInfo.none.ref0, app := PrInfo.none.app, appMask := PrInfo.none.appMask : PrInfo }).result : Cmd }
      s5) ∧ ioCheck
      { tag := wCmd.tag, ctrl := wCmd.ctrl, sq := wCmd.sq, cid := wCmd.cid, order := wCmd.order, ordered := wCmd.ordered, haltErr := wCmd.haltErr, kind := CmdKind.dealloc, nsid := wCmd.nsid, lba := wCmd.lba, nlb := wCmd.nlb, shared := wCmd.shared, tracked := wCmd.tracked, phase := wCmd.phase, admitted := wCmd.admitted, media := wCmd.media, wdata := wCmd.wdata, dealloc := wCmd.dealloc, places := wCmd.places, need := wCmd.need, looked := wCmd.looked, got := wCmd.got, pr := wCmd.pr, verifyOnly := wCmd.verifyOnly, compareOnly := wCmd.compareOnly, abort := wCmd.abort, result := wCmd.result : Cmd }
      true s5 = none) ∧
    (Ready 5 [CmdKind.write, CmdKind.dealloc] wCmd s5 ∧ Admitted (withZeros wCmd ns1) ns1 (setCmd (withZeros wCmd ns1) s5) ∧ ioCheck
      { tag := wCmd.tag, ctrl := wCmd.ctrl, sq := wCmd.sq, cid := wCmd.cid, order := wCmd.order, ordered := wCmd.ordered, haltErr := wCmd.haltErr, kind := CmdKind.dealloc, nsid := wCmd.nsid, lba := wCmd.lba, nlb := wCmd.nlb, shared := wCmd.shared, tracked := wCmd.tracked, phase := wCmd.phase, admitted := wCmd.admitted, media := wCmd.media, wdata := wCmd.wdata, dealloc := wCmd.dealloc, places := wCmd.places, need := wCmd.need, looked := wCmd.looked, got := wCmd.got, pr := wCmd.pr, verifyOnly := wCmd.verifyOnly, compareOnly := wCmd.compareOnly, abort := wCmd.abort, result := wCmd.result : Cmd }
      true s5 = none ∧ 0 < wCmd.nlb ∧ (∀ iu ∈ iusOf wCmd s5, coversUnit (withZeros wCmd ns1) (lbasPerIu ns1.flbas) iu = true) ∧ mayApply
      { tag := (withZeros wCmd ns1).tag, ctrl := (withZeros wCmd ns1).ctrl, sq := (withZeros wCmd ns1).sq, cid := (withZeros wCmd ns1).cid, order := (withZeros wCmd ns1).order, ordered := (withZeros wCmd ns1).ordered, haltErr := (withZeros wCmd ns1).haltErr, kind := (withZeros wCmd ns1).kind, nsid := (withZeros wCmd ns1).nsid, lba := (withZeros wCmd ns1).lba, nlb := (withZeros wCmd ns1).nlb, shared := (withZeros wCmd ns1).shared, tracked := (withZeros wCmd ns1).tracked, phase := Phase.waitJournal, admitted := (withZeros wCmd ns1).admitted, media := (withZeros wCmd ns1).media, wdata := (withZeros wCmd ns1).wdata, dealloc := (withZeros wCmd ns1).dealloc, places := (withZeros wCmd ns1).places, need := (withZeros wCmd ns1).need, looked := (withZeros wCmd ns1).looked, got := (withZeros wCmd ns1).got, pr := (withZeros wCmd ns1).pr, verifyOnly := (withZeros wCmd ns1).verifyOnly, compareOnly := (withZeros wCmd ns1).compareOnly, abort := (withZeros wCmd ns1).abort, result := (withZeros wCmd ns1).result : Cmd }
      s5 = true) ∧
    (Ready 5 [CmdKind.write, CmdKind.dealloc] wCmd s5 ∧ Admitted (withZeros wCmd ns1) ns1 (setCmd (withZeros wCmd ns1) s5) ∧ ioCheck
      { tag := wCmd.tag, ctrl := wCmd.ctrl, sq := wCmd.sq, cid := wCmd.cid, order := wCmd.order, ordered := wCmd.ordered, haltErr := wCmd.haltErr, kind := CmdKind.dealloc, nsid := wCmd.nsid, lba := wCmd.lba, nlb := wCmd.nlb, shared := wCmd.shared, tracked := wCmd.tracked, phase := wCmd.phase, admitted := wCmd.admitted, media := wCmd.media, wdata := wCmd.wdata, dealloc := wCmd.dealloc, places := wCmd.places, need := wCmd.need, looked := wCmd.looked, got := wCmd.got, pr := wCmd.pr, verifyOnly := wCmd.verifyOnly, compareOnly := wCmd.compareOnly, abort := wCmd.abort, result := wCmd.result : Cmd }
      true s5 = none ∧ 0 < wCmd.nlb ∧ (∀ iu ∈ iusOf wCmd s5, coversUnit (withZeros wCmd ns1) (lbasPerIu ns1.flbas) iu = true) ∧ mayApply
      { tag := (withZeros wCmd ns1).tag, ctrl := (withZeros wCmd ns1).ctrl, sq := (withZeros wCmd ns1).sq, cid := (withZeros wCmd ns1).cid, order := (withZeros wCmd ns1).order, ordered := (withZeros wCmd ns1).ordered, haltErr := (withZeros wCmd ns1).haltErr, kind := (withZeros wCmd ns1).kind, nsid := (withZeros wCmd ns1).nsid, lba := (withZeros wCmd ns1).lba, nlb := (withZeros wCmd ns1).nlb, shared := (withZeros wCmd ns1).shared, tracked := (withZeros wCmd ns1).tracked, phase := Phase.waitJournal, admitted := (withZeros wCmd ns1).admitted, media := (withZeros wCmd ns1).media, wdata := (withZeros wCmd ns1).wdata, dealloc := (withZeros wCmd ns1).dealloc, places := (withZeros wCmd ns1).places, need := (withZeros wCmd ns1).need, looked := (withZeros wCmd ns1).looked, got := (withZeros wCmd ns1).got, pr := (withZeros wCmd ns1).pr, verifyOnly := (withZeros wCmd ns1).verifyOnly, compareOnly := (withZeros wCmd ns1).compareOnly, abort := (withZeros wCmd ns1).abort, result := (withZeros wCmd ns1).result : Cmd }
      s5 = true ∧ wCmd.lba + wCmd.nlb ≤ ns1.nsze) ∧
    (Ready 5 [CmdKind.write, CmdKind.dealloc] wCmd s5) ∧
    (InPhase 5 Phase.started [CmdKind.write] landing landState ∧ nsAt landing.nsid landState = some ns1 ∧ landing.dealloc = false ∧ mayApply
      landing landState = true ∧ mergeBlocked landing landState = false ∧ (∀ iu ∈ landed landing landState, Option.isSome (SMap.find landing.places
      iu) = true)) ∧
    (InPhase 5 Phase.held [CmdKind.write, CmdKind.dealloc] heldCmd s6 ∧ heldCmd.admitted = false ∧ fget Fl.PWR_STATUS_RESERVE_OK s6 = 0) := ⟨⟨ready_of (by decide +kernel), canLand_of (by unfold Admitted; decide +kernel) (by decide +kernel) (by decide +kernel) (by decide +kernel)
    (by decide +kernel), by decide +kernel⟩, ⟨ready_of (by decide +kernel), canLand_of (by unfold Admitted; decide +kernel) (by decide +kernel)
    (by decide +kernel) (by decide +kernel) (by decide +kernel), rfl, by decide +kernel⟩, ⟨ready_of (by decide +kernel), canLand_of
    (by unfold Admitted; decide +kernel) (by decide +kernel) (by decide +kernel) (by decide +kernel) (by decide +kernel), by decide +kernel⟩,
    ⟨ready_of (by decide +kernel), (by unfold Admitted; decide +kernel), by decide +kernel⟩, ⟨ready_of (by decide +kernel),
    (by unfold Admitted; decide +kernel), by decide +kernel⟩, ready_of (by decide +kernel), ⟨inPhase_of (by decide +kernel), by decide +kernel⟩,
    ⟨inPhase_of (by decide +kernel), by decide +kernel⟩⟩

theorem test_ReadsAndCompares :
    (Ready 5 [CmdKind.read] rCmd rMapped ∧ CanLook rCmd ns1 rMapped ∧ 0 < rCmd.nlb ∧ rCmd.verifyOnly = false ∧ rCmd.compareOnly = false ∧ (∃ iu ∈
      iusOf rCmd rMapped, Option.isSome (iuAt (mapKey rCmd.nsid iu) rMapped) = true)) ∧
    (Ready 5 [CmdKind.read] rCmd rMapped ∧ CanLook rCmd ns1 rMapped ∧ 0 < rCmd.nlb ∧ rCmd.verifyOnly = false ∧ rCmd.compareOnly = false ∧ (∃ iu ∈
      iusOf rCmd rMapped, Option.isSome (iuAt (mapKey rCmd.nsid iu) rMapped) = true) ∧ List.length [blk 1, blk 2, blk 3] = rCmd.nlb) ∧
    (Ready 5 [CmdKind.read] rCmd s7 ∧ CanLook rCmd ns1 s7 ∧ 0 < rCmd.nlb ∧ rCmd.verifyOnly = false ∧ rCmd.compareOnly = false ∧ (∀ iu ∈ iusOf
      rCmd s7, iuAt (mapKey rCmd.nsid iu) s7 = none)) ∧
    (Ready 5 [CmdKind.read] rCmd s7 ∧ CanLook rCmd ns1 s7 ∧ 0 < rCmd.nlb ∧ rCmd.verifyOnly = false ∧ rCmd.compareOnly = false ∧ (∀ iu ∈ iusOf
      rCmd s7, iuAt (mapKey rCmd.nsid iu) s7 = none) ∧ List.length [blk 0, blk 0, blk 0] = rCmd.nlb ∧ (∃ b ∈ [blk 0, blk 0, blk 0], b.data ≠
      (zeroBlk ns1.flbas).data)) ∧
    (s1.nv.cmds = [] ∧ List.length s1.ftl.cached < mapCachePages) ∧
    (InPhase 5 (Phase.waitMap (pageKey 1 0)) [CmdKind.read] waiting s8 ∧ CanLook waiting ns1 (cachePage (pageKey 1 0) s8) ∧ 0 < waiting.nlb ∧
      (∃ iu ∈ iusOf waiting s8, Option.isSome (iuAt (mapKey waiting.nsid iu) s8) = true)) ∧
    (Ready 5 [CmdKind.flush] fl s9 ∧ flushReady fl s9 = true) ∧
    (Ready 5 [CmdKind.fusedPair] fa s10 ∧ CanLand (withBlocks fb ns1 [blk 3, blk 4] PrInfo.none) ns1 (setCmd (withBlocks fb ns1 [blk 3, blk 4]
      PrInfo.none) (completeOk 5 s10)) ∧ justFetched 6 [CmdKind.fusedPair] s10 = some fb ∧ 5 ≠ 6 ∧ (∀ y ∈ s10.nv.cmds, y.tag = 6 → y = fb)
      ∧ nsAt fa.nsid s10 = some ns1 ∧ fa.nsid = fb.nsid ∧ fa.lba = fb.lba ∧ fa.nlb = fb.nlb ∧ 0 < fa.nlb ∧ fa.lba / lbasPerIu ns1.flbas =
      (fa.lba + fa.nlb - 1) / lbasPerIu ns1.flbas ∧ List.length [blk 3, blk 4] = fb.nlb ∧ ioCheck
      { tag := fa.tag, ctrl := fa.ctrl, sq := fa.sq, cid := fa.cid, order := fa.order, ordered := fa.ordered, haltErr := fa.haltErr, kind := CmdKind.dealloc, nsid := fa.nsid, lba := fa.lba, nlb := fa.nlb, shared := fa.shared, tracked := fa.tracked, phase := fa.phase, admitted := fa.admitted, media := fa.media, wdata := fa.wdata, dealloc := fa.dealloc, places := fa.places, need := fa.need, looked := fa.looked, got := fa.got, pr := fa.pr, verifyOnly := fa.verifyOnly, compareOnly := fa.compareOnly, abort := fa.abort, result := fa.result : Cmd }
      false s10 = none ∧ waitsForWrite fa s10 = false ∧ missingPage fa.nsid fa.lba fa.nlb ns1 s10 = none ∧ (∀ iu ∈ iusOf fa s10, iuAt
      (mapKey fa.nsid iu) s10 = none) ∧ fget Fl.PWR_STATUS_RESERVE_OK s10 ≠ 0 ∧ mode s10 ≠ 8 ∧ ioCheck
      { tag := fb.tag, ctrl := fb.ctrl, sq := fb.sq, cid := fb.cid, order := fb.order, ordered := fb.ordered, haltErr := fb.haltErr, kind := fb.kind, nsid := fb.nsid, lba := fb.lba, nlb := fb.nlb, shared := fb.shared, tracked := fb.tracked, phase := fb.phase, admitted := fb.admitted, media := fb.media, wdata := fb.wdata, dealloc := fb.dealloc, places := fb.places, need := fb.need, looked := fb.looked, got := fb.got, pr := PrInfo.none, verifyOnly := fb.verifyOnly, compareOnly := fb.compareOnly, abort := fb.abort, result := fb.result : Cmd }
      true (completeOk 5 s10) = none ∧ (PrInfo.none.pract = true ∨ checkBlocks ns1.dps ns1.flbas PrInfo.none fb.lba [blk 3, blk 4] = none)) := ⟨⟨ready_of (by decide +kernel), canLook_of (by decide +kernel) (by decide +kernel), by decide +kernel⟩, ⟨ready_of (by decide +kernel), canLook_of
    (by decide +kernel) (by decide +kernel), by decide +kernel⟩, ⟨ready_of (by decide +kernel), canLook_of (by decide +kernel) (by decide +kernel),
    by decide +kernel⟩, ⟨ready_of (by decide +kernel), canLook_of (by decide +kernel) (by decide +kernel), by decide +kernel⟩, by decide +kernel,
    ⟨inPhase_of (by decide +kernel), canLook_of (by decide +kernel) (by decide +kernel), by decide +kernel⟩, ⟨ready_of (by decide +kernel),
    by decide +kernel⟩, ⟨ready_of (by decide +kernel), canLand_of (by unfold Admitted; decide +kernel) (by decide +kernel) (by decide +kernel)
    (by decide +kernel) (by decide +kernel), by decide +kernel⟩⟩

theorem test_AbortsAndReservations :
    (Ready 5 [CmdKind.admin] ad s11 ∧ (List.length (List.filter (fun y => y.ctrl == ad.ctrl && y.abort && y.tag != 5) s11.nv.cmds) < 8) ∧ (∀
      y ∈ s11.nv.cmds, y.tag ≠ 5 → ¬(y.ctrl = ad.ctrl ∧ y.sq = 1 ∧ y.cid = 9))) ∧
    (Ready 5 [CmdKind.admin] ad s12 ∧ Ready wCmd6.tag [CmdKind.read, CmdKind.write, CmdKind.flush, CmdKind.dealloc] wCmd6 s12 ∧ (List.length
      (List.filter (fun y => y.ctrl == ad.ctrl && y.abort && y.tag != 5) s12.nv.cmds) < 8) ∧ wCmd6.tag ≠ 5 ∧ wCmd6.media = false ∧ wCmd6.ctrl =
      ad.ctrl ∧ wCmd6.sq = 1 ∧ wCmd6.cid = 106 ∧ (∀ z ∈ s12.nv.cmds, z.tag ≠ 5 → z.ctrl = ad.ctrl → z.sq = 1 → z.cid = 106 → z = wCmd6) ∧ (∀ e ∈
      s12.prog.execs, e.2.tag ≠ wCmd6.tag)) ∧
    (Ready 5 [CmdKind.admin] ad s11 ∧ ctrlAt ad.ctrl s11 = some ctl ∧ List.contains ctl.aers 5 = false ∧ List.length ctl.aers < 16 ∧
      s11.nv.aens = []) ∧
    (Ready 5 [CmdKind.admin] ad s13 ∧ ctrlAt ad.ctrl s13 = some full ∧ List.contains full.aers 5 = false ∧ 16 ≤ List.length full.aers) ∧
    (ResvReady 5 rv (nsR { regs := [], holder := none, rtype := 0, gen := 4294967295, ptpl := false : Resv }) s14 ∧ Resv.keyOf (nsR
      { regs := [], holder := none, rtype := 0, gen := 4294967295, ptpl := false : Resv }).resv (hostOf rv.ctrl s14) = none) := ⟨⟨ready_of (by decide +kernel), by decide +kernel⟩, ⟨ready_of (by decide +kernel), ready_of (by decide +kernel), by decide +kernel⟩, ⟨ready_of
    (by decide +kernel), by decide +kernel⟩, ⟨ready_of (by decide +kernel), by decide +kernel⟩, ⟨⟨ready_of (by decide +kernel), by decide +kernel⟩,
    by decide +kernel⟩⟩

theorem test_AbortsAndReservations_2 :
    (ResvReady 5 rv (nsR { regs := [(2 ^ 128 + 1, 6)], holder := none, rtype := 0, gen := 1, ptpl := false : Resv }) s15 ∧ Resv.keyOf (nsR
      { regs := [(2 ^ 128 + 1, 6)], holder := none, rtype := 0, gen := 1, ptpl := false : Resv }).resv (hostOf rv.ctrl s15) = some 6 ∧ 6 ≠ 7) ∧
    (ResvReady 5 rv (nsR { regs := [(2 ^ 128 + 1, 6)], holder := none, rtype := 0, gen := 1, ptpl := false : Resv }) s15 ∧ Resv.keyOf (nsR
      { regs := [(2 ^ 128 + 1, 6)], holder := none, rtype := 0, gen := 1, ptpl := false : Resv }).resv (hostOf rv.ctrl s15) = some 6 ∧ (nsR
      { regs := [(2 ^ 128 + 1, 6)], holder := none, rtype := 0, gen := 1, ptpl := false : Resv }).resv.holder = none ∧ 1 ≤ 6 ∧ 6 ≤ 6) ∧
    (ResvReady 5 rv (nsR { regs := [(2 ^ 128 + 1, 6)], holder := some 3, rtype := 1, gen := 1, ptpl := false : Resv }) s16 ∧ Resv.keyOf (nsR
      { regs := [(2 ^ 128 + 1, 6)], holder := some 3, rtype := 1, gen := 1, ptpl := false : Resv }).resv (hostOf rv.ctrl s16) = some 6 ∧ (nsR
      { regs := [(2 ^ 128 + 1, 6)], holder := some 3, rtype := 1, gen := 1, ptpl := false : Resv }).resv.holder = some 3 ∧ Resv.heldBy (nsR
      { regs := [(2 ^ 128 + 1, 6)], holder := some 3, rtype := 1, gen := 1, ptpl := false : Resv }).resv (hostOf rv.ctrl s16) = false ∧ 1 ≤ 6 ∧
      6 ≤ 6) ∧
    (ResvReady 5 rv (nsR { regs := [(2 ^ 128 + 1, 6)], holder := some (2 ^ 128 + 1), rtype := 2, gen := 1, ptpl := false : Resv }) s17 ∧
      Resv.keyOf (nsR { regs := [(2 ^ 128 + 1, 6)], holder := some (2 ^ 128 + 1), rtype := 2, gen := 1, ptpl := false : Resv }).resv (hostOf
      rv.ctrl s17) = some 6 ∧ Resv.heldBy (nsR
      { regs := [(2 ^ 128 + 1, 6)], holder := some (2 ^ 128 + 1), rtype := 2, gen := 1, ptpl := false : Resv }).resv (hostOf rv.ctrl s17) = true
      ∧ ((nsR { regs := [(2 ^ 128 + 1, 6)], holder := some (2 ^ 128 + 1), rtype := 2, gen := 1, ptpl := false : Resv }).resv.rtype = 1 ∨ (nsR
      { regs := [(2 ^ 128 + 1, 6)], holder := some (2 ^ 128 + 1), rtype := 2, gen := 1, ptpl := false : Resv }).resv.rtype = 2)) ∧
    (ResvReady 5 rv (nsR { regs := [(2 ^ 128 + 1, 6)], holder := some (2 ^ 128 + 1), rtype := 2, gen := 1, ptpl := false : Resv }) s17) := ⟨⟨⟨ready_of (by decide +kernel), by decide +kernel⟩, by decide +kernel⟩, ⟨⟨ready_of (by decide +kernel), by decide +kernel⟩, by decide +kernel⟩,
    ⟨⟨ready_of (by decide +kernel), by decide +kernel⟩, by decide +kernel⟩, ⟨⟨ready_of (by decide +kernel), by decide +kernel⟩, by decide +kernel⟩,
    ⟨ready_of (by decide +kernel), by decide +kernel⟩⟩

theorem test_LinksAndControllers :
    ((∀ (x : Ctrl), ctrlAt (cntlidOf 0 (wakeBy 5 up)) (wakeBy 5 up) = some x → x.en = false) ∧ pdOn 7 (wakeBy 5 up) = true ∧ funcEnabled 0 (wakeBy
      5 up) = true ∧ 2 ≤ 2 ∧ 2 ≤ 4096 ∧ 2 ≤ 4096 ∧ 4096 ≤ 4096 ∧ 1 ≤ 1 ∧ List.contains [4096, 8192, 16384, 32768, 65536] 65536 = true) ∧
    (serving s1 = true ∧ ctrlAt 1 s1 = some ctl ∧ ctl.en = true ∧ ctl.online = true) ∧
    (ctrlAt 1 (wakeBy 5 s5) = some ctl ∧ ctl.en = true ∧ ctl.fabric = false ∧ activating (wakeBy 5 s5) = false ∧ mode (wakeBy 5 s5) ≠ 8 ∧
      (∀ a ∈ (wakeBy 5 s5).net.assocs, a.ctrl ≠ 1)) ∧
    (pdOn 7 (wakeBy 5 s18) = true ∧ funcEnabled 2 (wakeBy 5 s18) = true ∧ activating (wakeBy 5 s18) = false ∧ mode (wakeBy 5 s18) ≠ 8 ∧
      isPhysical 2 (wakeBy 5 s18) = false) ∧
    (mode s5 ≠ 6 ∧ mode s5 ≠ 7 ∧ mode s5 ≠ 8 ∧ s5.pow.idleWait = none ∧ pdOn 7 s5 = true ∧ s5.mgt.upd.todo = []) ∧
    (mode s5 ≠ 6 ∧ mode s5 ≠ 7 ∧ mode s5 ≠ 8 ∧ s5.pow.idleWait = none ∧ pdOn 7 s5 = true ∧ s5.mgt.upd.todo = [] ∧ mode s5 ≠ 0
      ∧ s5.pow.pwrdis = false ∧ s5.nv.dual = false) ∧
    (mode s19 ≠ 6 ∧ mode s19 ≠ 7 ∧ mode s19 ≠ 8 ∧ s19.pow.idleWait = none ∧ pdOn 7 s19 = true ∧ s19.mgt.upd.todo = [] ∧
      s19.nv.dual = true) ∧
    (0 ≠ 1314278757) := ⟨⟨eachSome_of (by decide +kernel), by decide +kernel⟩, by decide +kernel, by decide +kernel, by decide +kernel, by decide +kernel,
    by decide +kernel, by decide +kernel, by decide +kernel⟩

theorem test_LinksAndControllers_2 :
    (perst.pow.idleWait = none ∧ mode perst ≠ 6 ∧ mode perst ≠ 7 ∧ mode perst ≠ 1) ∧
    (s20.pow.idleWait = none ∧ mode s20 ≠ 6 ∧ mode s20 ≠ 7 ∧ mode s20 = 1 ∧ s20.pow.afterSeal = AfterSeal.none ∧ s20.pow.pllWatch
      = false ∧ fget Fl.AON_WAKE_EN_PERST s20 = 1 ∧ s20.pow.pwrdis = false) ∧
    (perst.pow.idleWait = none ∧ mode perst ≠ 6 ∧ mode perst ≠ 7) ∧
    (pdOn 7 up = true ∧ pdOn 8 up = true ∧ up.pow.perst = false ∧ 1 ≤ 6 ∧ 6 ≤ fget Fl.HIF_LINK_CFG_MAX_SPEED up ∧ (8 = 1 ∨ 8 = 2 ∨ 8 = 4 ∨ 8 = 8 ∧
      up.nv.dual = false) ∧ (6 = 6 → true = true) ∧ 6 ≤ 6) ∧
    (pdOn 7 up = true ∧ pdOn 8 up = true ∧ up.pow.perst = false ∧ 1 ≤ 5 ∧ 5 ≤ fget Fl.HIF_LINK_CFG_MAX_SPEED up ∧ (8 = 1 ∨ 8 = 2 ∨ 8 = 4 ∨ 8 = 8 ∧
      up.nv.dual = false) ∧ (5 = 6 → false = true) ∧ 5 ≤ 6) ∧
    (fget Fl.HIF_LINK_STATUS_UP_A s21 = 1) ∧
    (fget Fl.HIF_LINK_STATUS_UP_B s22 = 1) ∧
    (fget Fl.HIF_LINK_STATUS_UP_A s21 = 1 ∧ (∀ e ∈ s21.nv.ctrls, e.2.en = false)) := by
  refine ⟨?_, ?_, ?_, ?_, ?_, ?_, ?_, ?_⟩ <;> decide +kernel

theorem test_LinksAndControllers_3 :
    (pdOn 7 (wakeBy 5 upA) = true ∧ fget Fl.HIF_LINK_STATUS_UP_A (wakeBy 5 upA) = 1 ∧ configAnswered (wakeBy 5 upA) = true) ∧
    (pdOn 7 (wakeBy 5 upA) = true ∧ fget Fl.HIF_LINK_STATUS_UP_A (wakeBy 5 upA) = 1 ∧ configAnswered (wakeBy 5 upA) = true ∧ 63 ≤ 63) ∧
    (pdOn 7 (wakeBy 5 upA) = true ∧ fget Fl.HIF_LINK_STATUS_UP_A (wakeBy 5 upA) = 1 ∧ configAnswered (wakeBy 5 upA) = true ∧ funcEnabled 0 (wakeBy
      5 upA) = true) ∧
    (pdOn 7 (wakeBy 5 upA) = true ∧ fget Fl.HIF_LINK_STATUS_UP_A (wakeBy 5 upA) = 1 ∧ configAnswered (wakeBy 5 upA) = true ∧ isPhysical 0 (wakeBy 5
      upA) = true) ∧
    (pdOn 7 (wakeBy 5 s23) = true ∧ fget Fl.HIF_LINK_STATUS_UP_A (wakeBy 5 s23) = 1 ∧ configAnswered (wakeBy 5 s23) = true) ∧
    (pdOn 7 (wakeBy 5 upA) = true ∧ fget Fl.HIF_LINK_STATUS_UP_A (wakeBy 5 upA) = 1 ∧ configAnswered (wakeBy 5 upA) = true ∧ funcEnabled 0 (wakeBy
      5 upA) = true ∧ 6 ≤ 6) ∧
    (pdOn 7 (wakeBy 5 s24) = true ∧ fget Fl.HIF_LINK_STATUS_UP_A (wakeBy 5 s24) = 1 ∧ configAnswered (wakeBy 5 s24) = false) ∧
    (pdOn 7 (wakeBy 5 up) = true ∧ funcEnabled 0 (wakeBy 5 up) = true ∧ 4360 ≤ 4360) := by
  refine ⟨?_, ?_, ?_, ?_, ?_, ?_, ?_, ?_⟩ <;> decide +kernel

theorem test_LinksAndControllers_4 :
    (pdOn 7 (wakeBy 5 s1) = true ∧ funcEnabled 0 (wakeBy 5 s1) = true ∧ ctrlRegister (cntlidOf 0 (wakeBy 5 s1)) 28 (wakeBy 5 s1) = some
      1) ∧
    (pdOn 7 (wakeBy 5 s25) = true ∧ funcEnabled 0 (wakeBy 5 s25) = true ∧ 12 < 2048 ∧ msixEntry 0 12 (wakeBy 5 s25) = true) ∧
    (pdOn 7 (wakeBy 5 slm) = true ∧ funcEnabled 0 (wakeBy 5 slm) = true ∧ 268435454 < bar2Size 0 (wakeBy 5 slm) ∧ readSpace (Space.host 0)
      268435454 2 (wakeBy 5 slm) = some [0, 0] ∧ 268435454 + 2 ≤ slmSize 0 (wakeBy 5 slm)) ∧
    (pdOn 7 (wakeBy 5 slm) = true ∧ funcEnabled 0 (wakeBy 5 slm) = true ∧ 5 < bar2Size 0 (wakeBy 5 slm) ∧ 5 + List.length [7, 8] ≤ slmSize 0
      (wakeBy 5 slm) ∧ (∀ i < List.length [7, 8], ∀ j < List.length [7, 8], Option.isSome (xlate (Space.host 0) true (5 + i) (wakeBy 5 slm)) = true
      → xlate (Space.host 0) true (5 + i) (wakeBy 5 slm) = xlate (Space.host 0) true (5 + j) (wakeBy 5 slm) → i = j)) ∧
    (1 < 2 ∧ pdOn 7 up = true) ∧
    (OnlyFetched (wakeBy 5 s1) ∧ ctrlAt 1 (wakeBy 5 s1) = some ctl ∧ ctl.en = true ∧ ctl.shst = 0 ∧ (∀ y ∈ (wakeBy 5 s1).nv.cmds, y.ctrl ≠
      1) ∧ (false = false ∨ ∃ e ∈ (wakeBy 5 s1).nv.ctrls, e.1 ≠ 1 ∧ e.2.en = true ∧ e.2.shst = 0)) ∧
    (OnlyFetched (wakeBy 5 s1) ∧ ctrlAt 1 (wakeBy 5 s1) = some ctl ∧ ctl.en = true ∧ ctl.shst = 0 ∧ (∀ y ∈ (wakeBy 5 s1).nv.cmds, y.ctrl ≠
      1) ∧ (∀ e ∈ (wakeBy 5 s1).nv.ctrls, e.1 = 1 ∨ e.2.en = false ∨ e.2.shst ≠ 0)) := ⟨by decide +kernel, by decide +kernel, by decide +kernel, by decide +kernel, by decide +kernel, ⟨onlyFetched_of (by decide +kernel),
    by decide +kernel⟩, ⟨onlyFetched_of (by decide +kernel), by decide +kernel⟩⟩

end HostSide

namespace Admin

def admCmd (nsid : Nat) : Cmd := ⟨5, 1, 0, 105, 5, false, false, .admin, nsid, 0, 0, false, false, .fetched, false, false, [], false, [], [], [], [], PrInfo.none, false, false, false, none⟩
def adm (nsid : Nat) : State := { io [] with nv := { (io []).nv with cmds := [admCmd nsid] } }
def a0 : Cmd := admCmd 0
def a1 : Cmd := admCmd 1
def s1 : State := adm 0
def ctlCq : Ctrl := { ctl with cqs := ctl.cqs ++ [(2, ⟨4, 0, 0, none, [], []⟩)] }
def s2 : State := { adm 0 with nv := { (adm 0).nv with ctrls := [(1, ctlCq)] } }
def privs : State := { adm 0 with ten := { (adm 0).ten with priv := [(0, [1, 2])] } }
def psk : List Byte := List.replicate 48 7 ++ [32, 1] ++ List.replicate 462 0
def vf : Ctrl := { ctl with pf := false, func := 3 }
def s3 : State := { adm 0 with nv := { (adm 0).nv with ctrls := [(1, vf)] } }
def crt : NsCreate := ⟨0, 8, 8, 3, 0, 1, 0, false⟩
def withMap : State := { adm 1 with ftl := { (adm 1).ftl with map := [(mapKey 1 1, ⟨0, 3, 2, [], 16384, false, 0⟩)] } }
def nsX : Ns := { ns1 with attached := [], shared := true }
def detachedNs : State := { adm 1 with nv := { (adm 1).nv with ns := [(1, nsX)] } }
def s4 : State := adm 1
def sec (en : Bool) : Ctrl := { Ctrl.fresh 3 false false false with en := en }
def withSec (en : Bool) : State := { adm 0 with nv := { (adm 0).nv with ctrls := [(1, ctl), (4, sec en)] } }
def s5 : State := withSec false
def s6 : State := withSec true
def s7 : State := sets [(Fl.AON_MODE_CUR, 9)] up

theorem test_AdminQueues :
    (AdminReady 5 a0 ctl s1 ∧ ctl.fabric = false ∧ 8192 % ctl.mps = 0 ∧ 1 ≤ 32 ∧ 32 ≤ 32 ∧ SMap.find ctl.sqs 32 = none ∧ 1 ≤ 65535 ∧ 65535 ≤
      65535 ∧ 1 ≤ 1 ∧ 1 ≤ 32 ∧ Option.isSome (SMap.find ctl.cqs 1) = true ∧ queuesUsed ctl.func false s1 = false) ∧
    (AdminReady 5 a0 ctl s1 ∧ (∀ (v : ℕ), some 32 = some v → v < (resOf ctl.func s1).vecs) ∧ ctl.fabric = false ∧ 4096 % ctl.mps = 0 ∧ 1 ≤ 2
      ∧ 2 ≤ 32 ∧ SMap.find ctl.cqs 2 = none ∧ 1 ≤ 1 ∧ 1 ≤ 65535 ∧ queuesUsed ctl.func true s1 = false) ∧
    (AdminReady 5 a0 ctl s1 ∧ ctl.fabric = false ∧ 1 ≤ 33 ∧ (Option.isSome (SMap.find ctl.sqs 33) = true ∨ 32 < 33) ∧ 0 % ctl.mps = 0) ∧
    (AdminReady 5 a0 ctl s1 ∧ ctl.fabric = false ∧ 1 ≤ 1 ∧ (Option.isSome (SMap.find ctl.sqs 1) = true ∨ 32 < 1) ∧ 0 % ctl.mps = 0) ∧
    (AdminReady 5 a0 ctl s1 ∧ ctl.fabric = false ∧ 1 ≤ 1 ∧ SMap.find ctl.sqs 1 = some
      { size := 16, head := 1, tail := 2, cq := 1, prio := 0, ordered := false, haltErr := false, halted := false : Sq } ∧ a0.sq ≠ 1 ∧ (∀ y ∈
      s1.nv.cmds, y.ctrl = a0.ctrl → y.sq ≠ 1)) ∧
    (AdminReady 5 a0 ctlCq s2 ∧ ctlCq.fabric = false ∧ 1 ≤ 2 ∧ SMap.find ctlCq.cqs 2 = some
      { size := 4, head := 0, tail := 0, vector := none, posted := [], held := [] : Cq } ∧ (∀ q ∈ ctlCq.sqs, q.2.cq ≠ 2)) ∧
    (AdminReady 5 a0 ctl s1 ∧ ctl.fabric = false ∧ 1 ≤ 1 ∧ SMap.find ctl.cqs 1 = some
      { size := 16, head := 0, tail := 0, vector := none, posted := [], held := [] : Cq } ∧ (∃ q ∈ ctl.sqs, q.2.cq = 1)) := ⟨⟨adminReady_of (by decide +kernel) (by decide +kernel), by decide +kernel⟩, ⟨adminReady_of (by decide +kernel) (by decide +kernel), eachSome_of
    (by decide +kernel), by decide +kernel⟩, ⟨adminReady_of (by decide +kernel) (by decide +kernel), by decide +kernel⟩, ⟨adminReady_of
    (by decide +kernel) (by decide +kernel), by decide +kernel⟩, ⟨adminReady_of (by decide +kernel) (by decide +kernel), by decide +kernel⟩,
    ⟨adminReady_of (by decide +kernel) (by decide +kernel), by decide +kernel⟩, ⟨adminReady_of (by decide +kernel) (by decide +kernel),
    by decide +kernel⟩⟩

theorem test_FeaturesSet :
    (AdminReady 5 a0 ctl s1 ∧ (11 = 1 ∨ 11 = 8 ∨ 11 = 10 ∨ 11 = 11) ∧ (true = true → ctl.fabric = false)) ∧
    (AdminReady 5 a0 ctl s1 ∧ List.contains featureIds 3 = false) ∧
    (AdminReady 5 a0 ctl s1 ∧ (List.contains featureIds 200 = false ∨ 3 < 0)) ∧
    (AdminReady 5 a0 ctl s1 ∧ (1 = 1 ∨ 1 = 8 ∨ 1 = 10)) ∧
    (AdminReady 5 a0 ctl s1) ∧
    (AdminReady 5 a0 ctl s1 ∧ 36 % 32 ≤ 4) ∧
    (AdminReady 5 a0 ctl s1 ∧ 196609 < 2 ^ 18 ∧ 196609 % 65536 ≠ 0 ∧ a0.sq ≠ 196609 % 65536 ∧ sqAt a0.ctrl (196609 % 65536) s1 = some
      { size := 16, head := 1, tail := 2, cq := 1, prio := 0, ordered := false, haltErr := false, halted := false : Sq }) := ⟨⟨adminReady_of (by decide +kernel) (by decide +kernel), by decide +kernel⟩, ⟨adminReady_of (by decide +kernel) (by decide +kernel),
    by decide +kernel⟩, ⟨adminReady_of (by decide +kernel) (by decide +kernel), by decide +kernel⟩, ⟨adminReady_of (by decide +kernel)
    (by decide +kernel), by decide +kernel⟩, adminReady_of (by decide +kernel) (by decide +kernel), ⟨adminReady_of (by decide +kernel)
    (by decide +kernel), by decide +kernel⟩, ⟨adminReady_of (by decide +kernel) (by decide +kernel), by decide +kernel⟩⟩

theorem test_FeaturesSet_2 :
    (AdminReady 5 a0 ctl s1 ∧ ctl.pf = true ∧ 356 < 2 ^ 9 ∧ 356 % 256 ≤ 100) ∧
    (AdminReady 5 a0 ctl s1 ∧ ctl.pf = true ∧ 196607 < 2 ^ 18 ∧ 196607 / 65536 ≠ 3) ∧
    (AdminReady 5 a0 ctl s1 ∧ ctl.pf = true ∧ 56581725 < 2 ^ 28 ∧ 56581725 / 2 ^ 24 ≠ 0 ∧ 56581725 % 256 < 56581725 / 256 % 256 ∧ 56581725 / 256
      % 256 < 56581725 / 65536 % 256 ∧ 56581725 / 65536 % 256 ≤ 95) ∧
    (AdminReady 5 a0 ctl s1 ∧ ctl.pf = true ∧ 511 < 2 ^ 9) ∧
    (AdminReady 5 a0 ctl s1 ∧ ctl.pf = true ∧ (2 ^ 9 ≤ 101 ∨ 100 < 101 % 256)) ∧
    (AdminReady 5 a0 ctl privs ∧ 131073 / 65536 % 256 ≠ 0 ∧ 131073 < 2 ^ 24 ∧ privUsed ctl.func privs - SMap.getD privs.prog.wcache ctl.func 4 *
      16777216 + 131073 / 65536 % 256 * 16777216 ≤ privSize ctl.func privs) ∧
    (AdminReady 5 a0 ctl s1 ∧ ctl.pf = true ∧ 63 < 64 ∧ netStructOk 2 psk = true) := ⟨⟨adminReady_of (by decide +kernel) (by decide +kernel), by decide +kernel⟩, ⟨adminReady_of (by decide +kernel) (by decide +kernel),
    by decide +kernel⟩, ⟨adminReady_of (by decide +kernel) (by decide +kernel), by decide +kernel⟩, ⟨adminReady_of (by decide +kernel)
    (by decide +kernel), by decide +kernel⟩, ⟨adminReady_of (by decide +kernel) (by decide +kernel), by decide +kernel⟩, ⟨adminReady_of
    (by decide +kernel) (by decide +kernel), by decide +kernel⟩, ⟨adminReady_of (by decide +kernel) (by decide +kernel), by decide +kernel⟩⟩

theorem test_IdentifyAndLogs :
    (AdminReady 5 a0 ctl s1) ∧
    (AdminReady 5 a0 ctl s1 ∧ nsAt a0.nsid s1 = none) ∧
    (AdminReady 5 a0 ctl s1 ∧ 21 < 22 ∧ 22 ≠ 28) ∧
    (AdminReady 5 a0 ctl s1 ∧ 508 % 4 = 0 ∧ 508 + 4 * 1 ≤ 1024) ∧
    (AdminReady 5 a0 ctl s1 ∧ 508 % 4 = 0 ∧ 508 + 4 * 1 ≤ 512) ∧
    (AdminReady 5 a0 ctl s1 ∧ (2 % 4 ≠ 0 ∨ 512 < 2)) := ⟨adminReady_of (by decide +kernel) (by decide +kernel), ⟨adminReady_of (by decide +kernel) (by decide +kernel), by decide +kernel⟩, ⟨adminReady_of
    (by decide +kernel) (by decide +kernel), by decide +kernel⟩, ⟨adminReady_of (by decide +kernel) (by decide +kernel), by decide +kernel⟩,
    ⟨adminReady_of (by decide +kernel) (by decide +kernel), by decide +kernel⟩, ⟨adminReady_of (by decide +kernel) (by decide +kernel),
    by decide +kernel⟩⟩

theorem test_IdentifyAndLogs_2 :
    (AdminReady 5 a0 ctl s1 ∧ 508 % 4 = 0 ∧ 508 + 4 * 1 ≤ 2048) ∧
    (AdminReady 5 a0 ctl s1 ∧ 0 % 4 = 0 ∧ 0 + 4 * 128 ≤ 512) ∧
    (AdminReady 5 a0 ctl s1 ∧ 8252 % 4 = 0 ∧ 8252 + 4 * 1 ≤ 8256) ∧
    (AdminReady 5 a0 ctl s1 ∧ ctl.pf = true ∧ s1.pbk.ram = []) ∧
    (AdminReady 5 a0 vf s3 ∧ vf.pf = false) := ⟨⟨adminReady_of (by decide +kernel) (by decide +kernel), by decide +kernel⟩, ⟨adminReady_of (by decide +kernel) (by decide +kernel),
    by decide +kernel⟩, ⟨adminReady_of (by decide +kernel) (by decide +kernel), by decide +kernel⟩, ⟨adminReady_of (by decide +kernel)
    (by decide +kernel), by decide +kernel⟩, ⟨adminReady_of (by decide +kernel) (by decide +kernel), by decide +kernel⟩⟩

theorem test_NamespacesAndSanitize :
    (PcieReady 5 a0 ctl s1 ∧ crt.csi = 0 ∧ ctl.func = s1.ten.manager ∧ nvmCreateFault crt s1 = none ∧ freeNsid s1 = some 2) ∧
    (PcieReady 5 a0 ctl s1 ∧
      { csi := crt.csi, nsze := crt.nsze, ncap := crt.ncap, flbas := 6, dps := crt.dps, nmic := crt.nmic, vendor := crt.vendor, other := crt.other : NsCreate }.csi
      = 0 ∧ ctl.func = s1.ten.manager ∧ nvmCreateFault
      { csi := crt.csi, nsze := crt.nsze, ncap := crt.ncap, flbas := 6, dps := crt.dps, nmic := crt.nmic, vendor := crt.vendor, other := crt.other : NsCreate }
      s1 = some (1, 10)) ∧
    (PcieReady 5 a0 ctl s1 ∧ { csi := 4, nsze := 0, ncap := 0, flbas := 0, dps := 0, nmic := 0, vendor := 0, other := false : NsCreate } =
      { csi := 4, nsze := { csi := 4, nsze := 0, ncap := 0, flbas := 0, dps := 0, nmic := 0, vendor := 0, other := false : NsCreate }.nsze, ncap := { csi := 4, nsze := 0, ncap := 0, flbas := 0, dps := 0, nmic := 0, vendor := 0, other := false : NsCreate }.ncap, flbas := 0, dps := 0, nmic := 0, vendor := 0, other := false : NsCreate }
      ∧ (∀ e ∈ s1.nv.ns, e.2.csi = 4 → e.2.owner ≠ ctl.func) ∧ freeNsid s1 = some 2) ∧
    (PcieReady 5 a1 ctl withMap ∧ nsAt a1.nsid withMap = some ns1 ∧ a1.nsid ≠ 4294967295 ∧ ns1.csi = 0 ∧ ctl.func = withMap.ten.manager) ∧
    (PcieReady 5 a1 ctl detachedNs ∧ nsAt a1.nsid detachedNs = some nsX ∧ nsX.csi = 0 ∧ ctl.func = detachedNs.ten.manager ∧ (∀ e ∈
      detachedNs.nv.ctrls, e.2.aers = []) ∧ [1, 128] ≠ [] ∧ (∀ d ∈ [1, 128], attachFault nsX d (List.length [1, 128]) detachedNs = none)) ∧
    (PcieReady 5 a1 ctl s4 ∧ nsAt a1.nsid s4 = some ns1 ∧ ns1.csi = 0 ∧ ctl.func = s4.ten.manager ∧ (∀ e ∈ s4.nv.ctrls, e.2.aers = [])
      ∧ [1] ≠ [] ∧ (∀ d ∈ [1], Option.isSome (cntlidFunc d s4) = true ∧ d ∈ ns1.attached)) ∧
    (PcieReady 5 a1 ctl withMap ∧ nsAt a1.nsid withMap = some ns1 ∧ (∀ e ∈ withMap.nv.ns, e.1 = a1.nsid → e.2 = ns1) ∧ a1.nsid ≠ 4294967295 ∧
      ns1.csi = 0 ∧ sees ns1 a1.ctrl withMap = true ∧ mode withMap ≠ 10 ∧ 1 ≤ 2 ∧ 1 ≤ 5 ∧ piAllowed 1 3 = true ∧ (nsCompressed ns1 = true → 1 % 3 =
      0) ∧ resvConflict ns1.resv (hostOf a1.ctrl withMap) true = false) := ⟨⟨⟨adminReady_of (by decide +kernel) (by decide +kernel), by decide +kernel⟩, by decide +kernel⟩, ⟨⟨adminReady_of (by decide +kernel)
    (by decide +kernel), by decide +kernel⟩, by decide +kernel⟩, ⟨⟨adminReady_of (by decide +kernel) (by decide +kernel), by decide +kernel⟩,
    by decide +kernel⟩, ⟨⟨adminReady_of (by decide +kernel) (by decide +kernel), by decide +kernel⟩, by decide +kernel⟩, ⟨⟨adminReady_of
    (by decide +kernel) (by decide +kernel), by decide +kernel⟩, by decide +kernel⟩, ⟨⟨adminReady_of (by decide +kernel) (by decide +kernel),
    by decide +kernel⟩, by decide +kernel⟩, ⟨⟨adminReady_of (by decide +kernel) (by decide +kernel), by decide +kernel⟩, by decide +kernel⟩⟩

theorem test_NamespacesAndSanitize_2 :
    (PcieReady 5 a0 ctl s1) ∧
    (PcieReady 5 a0 ctl s1 ∧ mode s1 ≠ 10) ∧
    (PcieReady 5 a0 ctl s1 ∧ (15 = 1 ∨ 15 = 2 ∨ 15 = 15) ∧ a0.nsid = 0) ∧
    (PcieReady 5 a0 ctl s5 ∧ ctl.pf = true ∧ cntlidFunc 4 s5 = some 3 ∧ isPhysical 3 s5 = false ∧ (s5.nv.dual = true → 3 / 64 =
      ctl.func / 64) ∧ 4 ≠ a0.ctrl ∧ ctrlAt 4 s5 = some (sec false) ∧ (sec false).shst ≠ 1 ∧ (sec false).en = false) ∧
    (PcieReady 5 a0 ctl s6 ∧ ctl.pf = true ∧ cntlidFunc 4 s6 = some 3 ∧ isPhysical 3 s6 = false ∧ (s6.nv.dual = true → 3 / 64 =
      ctl.func / 64) ∧ 4 ≠ a0.ctrl ∧ ctrlAt 4 s6 = some (sec true) ∧ (sec true).shst ≠ 1 ∧ (sec true).en = true) ∧
    (PcieReady 5 a0 ctl s6 ∧ ctl.pf = true ∧ cntlidFunc 4 s6 = some 3 ∧ isPhysical 3 s6 = false ∧ (s6.nv.dual = true → 3 / 64 =
      ctl.func / 64) ∧ 4 ≠ a0.ctrl ∧ ctrlAt 4 s6 = some (sec true) ∧ (sec true).shst ≠ 1) ∧
    (mode s7 = 9 ∧ fget Fl.AON_MODE_TRANS s7 = 0 ∧ s7.nv.cmds = [] ∧ pdRetired 1 s7 = false) := ⟨⟨adminReady_of (by decide +kernel) (by decide +kernel), by decide +kernel⟩, ⟨⟨adminReady_of (by decide +kernel) (by decide +kernel),
    by decide +kernel⟩, by decide +kernel⟩, ⟨⟨adminReady_of (by decide +kernel) (by decide +kernel), by decide +kernel⟩, by decide +kernel⟩,
    ⟨⟨adminReady_of (by decide +kernel) (by decide +kernel), by decide +kernel⟩, by decide +kernel⟩, ⟨⟨adminReady_of (by decide +kernel)
    (by decide +kernel), by decide +kernel⟩, by decide +kernel⟩, ⟨⟨adminReady_of (by decide +kernel) (by decide +kernel), by decide +kernel⟩,
    by decide +kernel⟩, by decide +kernel⟩

end Admin

namespace Ftl

/-- A unit of superblock `sb` on channel 3, die 1. -/
def unit (sb : Nat) : Iu := ⟨sb, 3, 1, [], 16384, false, sb⟩
/-- The module with these superblocks and map entries. -/
def ft (sbs : List (Nat × Sb)) (m : List (Nat × Iu)) (f : Ftl → Ftl) : State :=
  { up with ftl := f { up.ftl with sbs := sbs, map := m, nextSb := 9, dynTarget := 20 } }
def slcF : Sb := { Sb.none with use := .full, slc := true, blocks := [(3, 0), (4, 0)], parity := 4, fill := [(3, 40)] }
def qF (used : Nat) : Sb := { Sb.none with use := .full, blocks := [(3, 1), (4, 1)], parity := 4, fill := [(3, used)] }
def q3 : Sb := { qF 40 with blocks := [(3, 3), (4, 3)] }
def q31 : Sb := { qF 1 with blocks := [(3, 3), (4, 3)] }
def tgt (u : SbUse) : Sb := { Sb.none with use := u, blocks := [(3, 2), (5, 2)], parity := 5, fill := [(3, 3)] }
def u3 : List (Nat × Iu) := [(mapKey 1 0, unit 2), (mapKey 1 7, unit 2), (mapKey 2 5, unit 4)]
def s1 : State := ft [] u3 id
def s2 : State := ft [(2, slcF), (5, tgt .fold)] u3 id
def s3 : State := ft [(2, { slcF with use := .landing }), (5, tgt .fold)] u3 (fun f => { f with eager := false })
def move2 : Move := ⟨7, 5, 2, [(mapKey 1 0, 3), (mapKey 1 7, 3)]⟩
def folding : State := ft [(2, slcF), (5, tgt .fold)] u3 (fun f => { f with folds := [move2], nextMove := 8 })
def s4 : State := fset Fl.AON_MODE_CUR 10 folding
def blkRec (b : BlkSt) : Ftl → Ftl := fun f => { f with blks := [(blkKey 3 2, { Blk.fresh 0 with st := b })] }
def s5 : State := ft [(5, tgt .fold)] [] (fun f => blkRec .erased { f with unflushed := 48, flushing := 16 })
def s6 : State := ft [(5, tgt .fold)] [] (fun f => blkRec .recording { f with unflushed := 48, flushing := 16 })
def s7 : State := ft [] [] (fun f => { f with dirty := [4], sinceCkpt := 268435456 })
def s8 : State := ft [] [] (fun f => { f with dirty := [4], sinceCkpt := 268435455 })
def shutting : Ctrl := { ctl with shst := 1, ckpt := true }
def s9 : State := { io [] with nv := { (io []).nv with ctrls := [(1, shutting)] }, ftl := { (io []).ftl with dirty := [4], flushing := 16 } }
def s10 : State := ft [] [] (fun f => { f with dirty := [4, 5] })
def bg (p : Nat) : State := { io [] with ftl := { (io []).ftl with cached := [], bgLoad := some p } }
def s11 : State := bg 0
def s12 : State := bg (2 ^ 33)
def gcS : State := ft [(2, qF 40), (4, q3), (6, tgt .gcTarget)] u3 id
def s13 : State := ft [(2, qF 40), (6, tgt .gcTarget)] u3 id
def copying2 : State := ft [(2, qF 40), (6, tgt .gcTarget)] u3 (fun f => { f with copies := [{ move2 with target := 6 }], nextMove := 8 })
def s14 : State := fset Fl.AON_MODE_CUR 10 copying2
def worn : State := ft [(2, qF 2), (4, q31), (6, tgt .gcTarget)] u3 (fun f => { f with
  blks := [(blkKey 3 1, { Blk.fresh 5000 with st := .used }), (blkKey 3 3, { Blk.fresh 0 with st := .used }),
    (blkKey 4 1, { Blk.fresh 5000 with st := .used }), (blkKey 4 3, { Blk.fresh 0 with st := .used })] })
def discarding (m : List (Nat × Iu)) : State := ft [(2, qF 2), (6, tgt .gcTarget)] m (fun f => { f with discard := [(2, 16384)] })
def s15 : State := discarding u3
def s16 : State := ft [(2, qF 0)] [] (fun f => { f with discard := [(2, 16384)], blks := [(blkKey 3 1, { Blk.fresh 0 with st := .used })] })
def s17 : State := ft [(2, { qF 2 with suspect := [3] }), (6, tgt .gcTarget)] u3 id

theorem test_FoldAndJournal :
    (OnlyFetched s1 ∧ (∀ e ∈ s1.ftl.sbs, e.2.use = SbUse.full → mappedTo e.1 s1 ≠ [])) ∧
    (OnlyFetched State.reset ∧ (∀ e ∈ State.reset.ftl.sbs, e.2.use = SbUse.full → mappedTo e.1 State.reset ≠ [])) ∧
    (OnlyFetched s2 ∧ (∀ (k : ℕ), (chanAt k s2).retired = false) ∧ relocationRuns s2 = true ∧ (sbAt 2 s2).slc = true ∧ ((sbAt 2
      s2).use = SbUse.landing ∨ (sbAt 2 s2).use = SbUse.full) ∧ (s2.ftl.eager = true ∨ false = true) ∧ (List.find? (fun k => foldsOn 2 k
      s2) (List.range 32) = some 3) ∧ targetOf SbUse.fold (sbAt 2 s2).sd (some 3) s2 = some 5 ∧ (sbAt 5 s2).slc = false) ∧
    (OnlyFetched s3 ∧ (∀ (k : ℕ), (chanAt k s3).retired = false) ∧ relocationRuns s3 = true ∧ (sbAt 2 s3).slc = true ∧ ((sbAt 2
      s3).use = SbUse.landing ∨ (sbAt 2 s3).use = SbUse.full) ∧ (s3.ftl.eager = true ∨ true = true) ∧ (List.find? (fun k => foldsOn 2 k
      s3) (List.range 32) = some 3) ∧ targetOf SbUse.fold (sbAt 2 s3).sd (some 3) s3 = some 5 ∧ (sbAt 5 s3).slc = false) ∧
    (OnlyFetched folding ∧ (List.find? (fun x => x.source == 2) folding.ftl.folds = some move2) ∧ mode folding ≠ 10 ∧ (sbAt 2 folding).suspect = []
      ∧ (sbAt 2 folding).unstable = []) ∧
    (OnlyFetched folding ∧ (List.find? (fun x => x.source == 2) folding.ftl.folds = some move2) ∧ mode folding ≠ 10 ∧ move2.target <
      folding.ftl.nextSb) ∧
    (OnlyFetched s4 ∧ (List.find? (fun x => x.source == 2) s4.ftl.folds = some move2) ∧ mode s4 = 10) ∧
    ((∀ (c : ℕ), (chanAt c s5).retired = false)) := ⟨⟨onlyFetched_of (by decide +kernel), by decide +kernel⟩, ⟨onlyFetched_of (by decide +kernel), by decide +kernel⟩, ⟨onlyFetched_of
    (by decide +kernel), noneRetired_of (by decide +kernel), by decide +kernel⟩, ⟨onlyFetched_of (by decide +kernel), noneRetired_of
    (by decide +kernel), by decide +kernel⟩, ⟨onlyFetched_of (by decide +kernel), by decide +kernel⟩, ⟨onlyFetched_of (by decide +kernel),
    by decide +kernel⟩, ⟨onlyFetched_of (by decide +kernel), by decide +kernel⟩, noneRetired_of (by decide +kernel)⟩

theorem test_FoldAndJournal_2 :
    (OnlyFetched s6) ∧
    (OnlyFetched s7 ∧ awaitsCheckpoint s7 = false ∧ 268435456 ≤ s7.ftl.sinceCkpt) ∧
    (OnlyFetched s8 ∧ awaitsCheckpoint s8 = false ∧ s8.ftl.sinceCkpt < 268435456) ∧
    (OnlyFetched s9 ∧ ctrlAt 1 s9 = some shutting ∧ shutting.shst = 1 ∧ shutting.ckpt = true ∧ drained 1 shutting s9 = true) ∧
    (OnlyFetched s10 ∧ 4 ∈ s10.ftl.dirty) ∧
    (OnlyFetched s10 ∧ 6 ∉ s10.ftl.dirty) ∧
    (OnlyFetched s11 ∧ bgPage s11 = some (2 ^ 32) ∧ 2 ^ 32 ∉ s11.ftl.cached) ∧
    (OnlyFetched s12 ∧ bgPage s12 = none) := ⟨onlyFetched_of (by decide +kernel), ⟨onlyFetched_of (by decide +kernel), by decide +kernel⟩, ⟨onlyFetched_of (by decide +kernel),
    by decide +kernel⟩, ⟨onlyFetched_of (by decide +kernel), by decide +kernel⟩, ⟨onlyFetched_of (by decide +kernel), by decide +kernel⟩,
    ⟨onlyFetched_of (by decide +kernel), by decide +kernel⟩, ⟨onlyFetched_of (by decide +kernel), by decide +kernel⟩, ⟨onlyFetched_of
    (by decide +kernel), by decide +kernel⟩⟩

theorem test_CollectAndRelocate :
    (OnlyFetched gcS ∧ (∀ (k : ℕ), (chanAt k gcS).retired = false) ∧ turnOf (if freeQlcSbs gcS < 96 then 1 else 6) gcS = true ∧ SMap.sorted
      gcS.ftl.sbs = true ∧ SMap.find gcS.ftl.sbs 4 = some q3 ∧ q3.use = SbUse.full ∧ q3.slc = false ∧ List.length (mappedTo 4 gcS) < usedUnits q3 ∧
      (∀ e ∈ gcS.ftl.sbs, e.1 ≠ 4 → e.2.use = SbUse.full → e.2.slc = false → List.length (mappedTo e.1 gcS) < usedUnits e.2 → copying e.1 gcS =
      false → (usedUnits e.2 - List.length (mappedTo e.1 gcS)) * (ageHours e.2 gcS + 1) * usedUnits q3 < (usedUnits q3 - List.length (mappedTo 4
      gcS)) * (ageHours q3 gcS + 1) * usedUnits e.2) ∧ (mappedTo 4 gcS ≠ [] ∧ copying 4 gcS = false ∧ targetOf SbUse.gcTarget (sbAt 4 gcS).sd none
      gcS = some 6)) ∧
    (OnlyFetched s13 ∧ (∀ (k : ℕ), (chanAt k s13).retired = false) ∧ turnOf (if freeQlcSbs s13 < 96 then 1 else 6) s13 = true ∧
      SMap.sorted s13.ftl.sbs = true ∧ SMap.find s13.ftl.sbs 2 = some (qF 40) ∧ (qF 40).use = SbUse.full ∧ (qF 40).slc = false ∧ List.length
      (mappedTo 2 s13) < usedUnits (qF 40) ∧ (∀ e ∈ s13.ftl.sbs, e.1 ≠ 2 → e.2.use = SbUse.full → e.2.slc = false → List.length (mappedTo e.1
      s13) < usedUnits e.2 → copying e.1 s13 = false → (usedUnits e.2 - List.length (mappedTo e.1 s13)) * (ageHours e.2 s13 + 1) *
      usedUnits (qF 40) < (usedUnits (qF 40) - List.length (mappedTo 2 s13)) * (ageHours (qF 40) s13 + 1) * usedUnits e.2) ∧ (mappedTo 2
      s13 ≠ [] ∧ copying 2 s13 = false ∧ targetOf SbUse.gcTarget (sbAt 2 s13).sd none s13 = some 6)) ∧
    (OnlyFetched copying2 ∧ (∀ (k : ℕ), (chanAt k copying2).retired = false) ∧ (List.find? (fun x => x.source == 2) copying2.ftl.copies = some
      { id := move2.id, target := 6, source := move2.source, slots := move2.slots : Move }) ∧ mode copying2 ≠ 10 ∧ (sbAt 2 copying2).suspect = [] ∧
      (sbAt 2 copying2).unstable = []) ∧
    (OnlyFetched copying2 ∧ (∀ (k : ℕ), (chanAt k copying2).retired = false) ∧ (List.find? (fun x => x.source == 2) copying2.ftl.copies = some
      { id := move2.id, target := 6, source := move2.source, slots := move2.slots : Move }) ∧ mode copying2 ≠ 10 ∧ ((List.any
      { id := move2.id, target := 6, source := move2.source, slots := move2.slots : Move }.slots fun p => p.2 == 3) = true) ∧ 2 ≠
      { id := move2.id, target := 6, source := move2.source, slots := move2.slots : Move }.target ∧
      { id := move2.id, target := 6, source := move2.source, slots := move2.slots : Move }.target < copying2.ftl.nextSb ∧ (sbAt 2 copying2).suspect
      = [] ∧ (sbAt 2 copying2).unstable = []) ∧
    (OnlyFetched s14 ∧ (∀ (k : ℕ), (chanAt k s14).retired = false) ∧ (List.find? (fun x => x.source == 2) s14.ftl.copies = some
      { id := move2.id, target := 6, source := move2.source, slots := move2.slots : Move }) ∧ mode s14 = 10) := ⟨⟨onlyFetched_of (by decide +kernel), noneRetired_of (by decide +kernel), gcTurn_of (by decide +kernel) (by decide +kernel) (by decide +kernel)
    (by decide +kernel), by decide +kernel⟩, ⟨onlyFetched_of (by decide +kernel), noneRetired_of (by decide +kernel), gcTurn_of (by decide +kernel)
    (by decide +kernel) (by decide +kernel) (by decide +kernel), by decide +kernel⟩, ⟨onlyFetched_of (by decide +kernel), noneRetired_of
    (by decide +kernel), by decide +kernel⟩, ⟨onlyFetched_of (by decide +kernel), noneRetired_of (by decide +kernel), by decide +kernel⟩,
    ⟨onlyFetched_of (by decide +kernel), noneRetired_of (by decide +kernel), by decide +kernel⟩⟩

theorem test_CollectAndRelocate_2 :
    (OnlyFetched worn ∧ (∀ (k : ℕ), (chanAt k worn).retired = false) ∧ turnOf 5 worn = true ∧ wearMin worn + 4000 < wearMax worn ∧ SMap.sorted
      worn.ftl.sbs = true ∧ SMap.find worn.ftl.sbs 4 = some q31 ∧ q31.use = SbUse.full ∧ (∀ e ∈ worn.ftl.sbs, e.1 ≠ 4 → e.2.use = SbUse.full →
      copying e.1 worn = false → sbWear q31 worn < sbWear e.2 worn) ∧ (mappedTo 4 worn ≠ [] ∧ copying 4 worn = false ∧ targetOf SbUse.gcTarget
      (sbAt 4 worn).sd none worn = some 6)) ∧
    (OnlyFetched s15 ∧ (∀ (k : ℕ), (chanAt k s15).retired = false) ∧ turnOf 4 s15 = true ∧ s15.ftl.discard = [(2, 16384)] ∧ SMap.sorted
      s15.ftl.sbs = true ∧ SMap.find s15.ftl.sbs 2 = some (qF 2) ∧ (qF 2).use = SbUse.full ∧ (mappedTo 2 s15 ≠ [] ∧ copying 2 s15 =
      false ∧ targetOf SbUse.gcTarget (sbAt 2 s15).sd none s15 = some 6)) ∧
    (OnlyFetched s16 ∧ (∀ (k : ℕ), (chanAt k s16).retired = false) ∧ turnOf 4 s16 = true ∧ s16.ftl.discard = [(2, 16384)] ∧ SMap.sorted
      s16.ftl.sbs = true ∧ SMap.find s16.ftl.sbs 2 = some (qF 0) ∧ (qF 0).use = SbUse.full ∧ (qF 0).blocks ≠ [] ∧ (qF 0).waits = [] ∧
      mappedTo 2 s16 = [] ∧ awaited 2 s16 = false ∧ copying 2 s16 = false) ∧
    (OnlyFetched s17 ∧ (∀ (k : ℕ), (chanAt k s17).retired = false) ∧ turnOf 2 s17 = true ∧ SMap.find s17.ftl.sbs 2 = some
      { use := (qF 2).use, slc := (qF 2).slc, static := (qF 2).static, sd := (qF 2).sd, blocks := (qF 2).blocks, parity := (qF 2).parity, fill := (qF 2).fill, lastProg := (qF 2).lastProg, closed := (qF 2).closed, suspect := [3], unstable := (qF 2).unstable, waits := (qF 2).waits : Sb }
      ∧ SMap.sorted s17.ftl.sbs = true ∧
      { use := (qF 2).use, slc := (qF 2).slc, static := (qF 2).static, sd := (qF 2).sd, blocks := (qF 2).blocks, parity := (qF 2).parity, fill := (qF 2).fill, lastProg := (qF 2).lastProg, closed := (qF 2).closed, suspect := [3], unstable := (qF 2).unstable, waits := (qF 2).waits : Sb }.suspect
      ++
      { use := (qF 2).use, slc := (qF 2).slc, static := (qF 2).static, sd := (qF 2).sd, blocks := (qF 2).blocks, parity := (qF 2).parity, fill := (qF 2).fill, lastProg := (qF 2).lastProg, closed := (qF 2).closed, suspect := [3], unstable := (qF 2).unstable, waits := (qF 2).waits : Sb }.unstable
      ≠ [] ∧ (∀ e ∈ s17.ftl.sbs, e.1 ≠ 2 → e.2.suspect = [] ∧ e.2.unstable = []) ∧ (List.flatMap (fun c => unitsOn 2 c s17)
      ({ use := (qF 2).use, slc := (qF 2).slc, static := (qF 2).static, sd := (qF 2).sd, blocks := (qF 2).blocks, parity := (qF 2).parity, fill := (qF 2).fill, lastProg := (qF 2).lastProg, closed := (qF 2).closed, suspect := [3], unstable := (qF 2).unstable, waits := (qF 2).waits : Sb }.suspect
      ++
      { use := (qF 2).use, slc := (qF 2).slc, static := (qF 2).static, sd := (qF 2).sd, blocks := (qF 2).blocks, parity := (qF 2).parity, fill := (qF 2).fill, lastProg := (qF 2).lastProg, closed := (qF 2).closed, suspect := [3], unstable := (qF 2).unstable, waits := (qF 2).waits : Sb }.unstable)
      ≠ []) ∧ (mappedTo 2 s17 ≠ [] ∧ copying 2 s17 = false ∧ targetOf SbUse.gcTarget (sbAt 2 s17).sd none s17 = some 6)) := ⟨⟨onlyFetched_of (by decide +kernel), noneRetired_of (by decide +kernel), turnOf_of (by decide) (by decide +kernel) (by decide +kernel)
    (by decide +kernel), wearApart_of (by decide +kernel) (by decide +kernel), by decide +kernel⟩, ⟨onlyFetched_of (by decide +kernel),
    noneRetired_of (by decide +kernel), turnOf_of (by decide) (by decide +kernel) (by decide +kernel) (by decide +kernel), by decide +kernel⟩,
    ⟨onlyFetched_of (by decide +kernel), noneRetired_of (by decide +kernel), turnOf_of (by decide) (by decide +kernel) (by decide +kernel)
    (by decide +kernel), by decide +kernel⟩, ⟨onlyFetched_of (by decide +kernel), noneRetired_of (by decide +kernel), turnOf_of (by decide)
    (by decide +kernel) (by decide +kernel) (by decide +kernel), by decide +kernel⟩⟩

end Ftl

namespace Media

/-- An operation of a channel. -/
def op (k : DieKind) (u : OpUse) (cls die sb tag key : Nat) : ChanOp := ⟨k, u, cls, die, sb, tag, key, 0, false, 0, 0, 15, 2⟩
/-- Channel 3 in this state, beside superblock 2 on channels 3 and 4. -/
def ch (c : Chan) : State :=
  { up with media := ⟨[(3, c)], []⟩, ftl := { up.ftl with nextSb := 9, sbs := [(2, { Sb.none with blocks := [(3, 1), (4, 1)], parity := 4 })] } }
def patrol : ChanOp := op .read .patrol 4 1 2 0 0
def runs (o : ChanOp) : Chan := { Chan.fresh with dies := [(o.die, o)] }
def waits (l : List ChanOp) : Chan := { Chan.fresh with queue := l }
def contrib : ChanOp := { op .read .contrib 4 1 2 0 0 with handle := 5 }
def s1 : State := ch (runs patrol)
def s2 : State := { ch (runs contrib) with media := ⟨[(3, runs contrib), (5, { Chan.fresh with rebuilds := [⟨patrol, true, false, false⟩] })], []⟩ }
def hostR : ChanOp := op .read .unit 1 1 2 7 (mapKey 1 0)
def rdCmd : Cmd := { cmd 7 .read 1 2 .started with need := [0], looked := [0], got := [(0, [(1, ⟨[0x55], 0, 0, 0⟩)])] }
def rdS (c : Chan) : State := { io [rdCmd] with media := ⟨[(3, c)], []⟩ }
def s3 : State := rdS (runs hostR)
def packed (stored : Nat) (s : State) : State := { s with
  nv := { s.nv with ns := [(1, { ns1 with options := 1 })] }, ftl := { s.ftl with map := [(mapKey 1 0, ⟨2, 3, 1, [], stored, false, 1⟩)] } }
def s4 : State := packed 16384 (rdS (runs hostR))
def s5 : State := packed 8192 (rdS (runs hostR))
def reb (o : ChanOp) (counts check failed : Bool) : Chan := { Chan.fresh with rebuilds := [⟨o, counts, check, failed⟩] }
def s6 : State := ch (reb patrol true false false)
def s7 : State := ch (reb patrol false false false)
def s8 : State := rdS (reb hostR true false false)
def s9 : State := rdS (reb hostR false false true)
def s10 : State := rdS (reb hostR false true false)
def er : ChanOp := op .erase .erase 5 2 9 0 0
/-- The same with the key of namespace 1 in a slot. -/
def kc (c : Chan) : State := { rdS c with keys := { up.keys with slots := [(0, 0)] } }
def s11 : State := kc (waits [er, hostR])
def s12 : State := sets [(Fl.CHE_GOV_CFG_BUDGET 3, 299)] (kc (waits [er, hostR]))
def s13 : State := ch (waits [er])
def s14 : State := sets [(Fl.CHE_GOV_CFG_ERASE_MAX 3, 1)] (ch { waits [er] with dies := [(4, op .erase .erase 5 4 9 0 0)] })
def pre : ChanOp := op .read .unit 6 2 9 0 (mapKey 1 0)
def s15 : State := kc (waits [pre])
def s16 : State := sets [(Fl.CHE_GOV_CFG_BUDGET 3, 49)] (kc (waits [pre]))
def s17 : State := kc (waits [pre, hostR])
def s18 : State := sets [(Fl.CHE_CTRL_HOLD 3, 1)] (kc (waits [pre, hostR]))
def sEr : ChanOp := { op .erase .erase 5 1 9 0 0 with suspends := 1 }
def s19 : State := ch { waits [hostR] with dies := [(1, sEr)] }
def s20 : State := ch { waits [hostR] with susp := [(1, sEr)] }
def s21 : State := ch { waits [patrol] with susp := [(1, sEr)] }
def s22 : State := sets [(Fl.CHE_GOV_CFG_BUDGET 3, 299)] (ch { waits [hostR] with susp := [(1, sEr)] })
def s23 : State := ch (waits [])
def s24 : State := ch (runs er)
def bo (n : Nat) : ChanOp := { op .read .unit 1 1 2 7 (mapKey 1 0) with retries := n }
def back (o : ChanOp) : State := ch { Chan.fresh with backoff := [o] }
def s25 : State := back (bo 1)
def s26 : State := back (bo 2)
def s27 : State := fset Fl.AON_MODE_CUR 8 (ch (runs patrol))
def s28 : State := sets [(Fl.CHE_CAL_FAIL_RUN 3, 1)] (ch (runs patrol))
def s29 : State := ch { runs patrol with failed := true }
def s30 : State := { ch { runs patrol with failed := true } with media := ⟨[(3, { runs patrol with failed := true }), (4, { Chan.fresh with retired := true })], [4]⟩ }
def pq : ChanOp := op .progQlc .fold 4 1 2 0 0
def s31 : State := ch (runs pq)
def er2 : ChanOp := op .erase .erase 5 2 2 0 0
def qlcB : Sb := { Sb.none with use := .erasing, blocks := [(3, 10)], fill := [(3, 8)] }
def s32 : State := { ch (runs er2) with ftl := { up.ftl with sbs := [(2, qlcB)], blks := [(blkKey 3 10, { Blk.fresh 16777200 with st := .erasing, remembered := 5 })] } }

theorem test_PageReads :
    (3 < 32 ∧ SMap.sorted s1.media.chans = true ∧ (chanAt 3 s1).retired = false ∧ SMap.find (chanAt 3 s1).dies 1 = some patrol ∧
      patrol.kind = DieKind.read ∧ patrol.cls = 4 ∧ (patrol.use = OpUse.patrol ∨ patrol.use = OpUse.fold ∨ patrol.use = OpUse.copy) ∧ Option.isSome
      (SMap.find (sbAt patrol.sb s1).blocks 3) = true) ∧
    (3 < 32 ∧ SMap.sorted s1.media.chans = true ∧ (chanAt 3 s1).retired = false ∧ SMap.find (chanAt 3 s1).dies 1 = some patrol ∧
      patrol.kind = DieKind.read ∧ patrol.cls = 4 ∧ (patrol.use = OpUse.patrol ∨ patrol.use = OpUse.fold ∨ patrol.use = OpUse.copy) ∧ Option.isSome
      (SMap.find (sbAt patrol.sb s1).blocks 3) = true ∧ 7 < 8 ∧ 7 ≠ (blkOn patrol.sb 3 s1).remembered) ∧
    (3 < 32 ∧ SMap.sorted s2.media.chans = true ∧ (chanAt 3 s2).retired = false ∧ SMap.find (chanAt 3 s2).dies 1 = some contrib ∧
      contrib.kind = DieKind.read ∧ contrib.use = OpUse.contrib ∧ contrib.cls ≠ 6 ∧ contrib.handle ≠ 3) ∧
    (InPhase hostR.tag Phase.started [CmdKind.read] rdCmd s3 ∧ 3 < 32 ∧ SMap.sorted s3.media.chans = true ∧ (chanAt 3 s3).retired = false
      ∧ SMap.find (chanAt 3 s3).dies 1 = some hostR ∧ hostR.kind = DieKind.read ∧ hostR.use = OpUse.unit ∧ hostR.cls = 1 ∧ hostR.key % 2 ^ 40 =
      0 ∧ rdCmd.need = [0] ∧ (∀ j ∈ iusOf rdCmd s3, j ∈ rdCmd.looked) ∧ nsAt rdCmd.nsid s3 = some ns1 ∧ rdCmd.compareOnly = false ∧
      rdCmd.verifyOnly = false ∧ (checkBlocks ns1.dps ns1.flbas rdCmd.pr rdCmd.lba (blocksOf (lbasPerIu ns1.flbas) ns1.flbas (fun j => SMap.getD
      rdCmd.got j []) rdCmd.lba rdCmd.nlb) = none)) ∧
    (InPhase hostR.tag Phase.started [CmdKind.read] rdCmd s4 ∧ 3 < 32 ∧ SMap.sorted s4.media.chans = true ∧ (chanAt 3 s4).retired = false
      ∧ SMap.find (chanAt 3 s4).dies 1 = some hostR ∧ hostR.kind = DieKind.read ∧ hostR.use = OpUse.unit ∧ hostR.cls = 1 ∧ hostR.key % 2 ^ 40 =
      0 ∧ rdCmd.need = [0] ∧ (∀ j ∈ iusOf rdCmd s4, j ∈ rdCmd.looked) ∧ nsAt rdCmd.nsid s4 = some
      { csi := ns1.csi, nsze := ns1.nsze, ncap := ns1.ncap, flbas := ns1.flbas, ext := ns1.ext, dps := ns1.dps, shared := ns1.shared, options := 1, owner := ns1.owner, attached := ns1.attached, keyLost := ns1.keyLost, keyEntry := ns1.keyEntry, resv := ns1.resv : Ns }
      ∧ rdCmd.compareOnly = false ∧ rdCmd.verifyOnly = false ∧ (checkBlocks
      { csi := ns1.csi, nsze := ns1.nsze, ncap := ns1.ncap, flbas := ns1.flbas, ext := ns1.ext, dps := ns1.dps, shared := ns1.shared, options := 1, owner := ns1.owner, attached := ns1.attached, keyLost := ns1.keyLost, keyEntry := ns1.keyEntry, resv := ns1.resv : Ns }.dps
      { csi := ns1.csi, nsze := ns1.nsze, ncap := ns1.ncap, flbas := ns1.flbas, ext := ns1.ext, dps := ns1.dps, shared := ns1.shared, options := 1, owner := ns1.owner, attached := ns1.attached, keyLost := ns1.keyLost, keyEntry := ns1.keyEntry, resv := ns1.resv : Ns }.flbas
      rdCmd.pr rdCmd.lba (blocksOf (lbasPerIu
      { csi := ns1.csi, nsze := ns1.nsze, ncap := ns1.ncap, flbas := ns1.flbas, ext := ns1.ext, dps := ns1.dps, shared := ns1.shared, options := 1, owner := ns1.owner, attached := ns1.attached, keyLost := ns1.keyLost, keyEntry := ns1.keyEntry, resv := ns1.resv : Ns }.flbas)
      { csi := ns1.csi, nsze := ns1.nsze, ncap := ns1.ncap, flbas := ns1.flbas, ext := ns1.ext, dps := ns1.dps, shared := ns1.shared, options := 1, owner := ns1.owner, attached := ns1.attached, keyLost := ns1.keyLost, keyEntry := ns1.keyEntry, resv := ns1.resv : Ns }.flbas
      (fun j => SMap.getD rdCmd.got j []) rdCmd.lba rdCmd.nlb) = none) ∧ lightPath hostR.key s4 = some true) ∧
    (3 < 32 ∧ SMap.sorted s5.media.chans = true ∧ (chanAt 3 s5).retired = false ∧ SMap.find (chanAt 3 s5).dies 1 = some hostR ∧ hostR.kind
      = DieKind.read ∧ hostR.use = OpUse.unit ∧ hostR.cls = 1 ∧ lightPath hostR.key s5 = some true ∧ 2 < 4) := ⟨by decide +kernel, by decide +kernel, by decide +kernel, ⟨inPhase_of (by decide +kernel), by decide +kernel⟩, ⟨inPhase_of (by decide +kernel),
    by decide +kernel⟩, by decide +kernel⟩

theorem test_PageReads_2 :
    (3 < 32 ∧ SMap.sorted s6.media.chans = true ∧ (chanAt 3 s6).retired = false ∧ (List.find? (fun r => r.op.key == 0) (chanAt 3
      s6).rebuilds = some { op := patrol, counts := true, check := false, failed := false : Rebuild }) ∧ (patrol.use = OpUse.patrol ∨ patrol.use
      = OpUse.fold ∨ patrol.use = OpUse.copy)) ∧
    (3 < 32 ∧ SMap.sorted s7.media.chans = true ∧ (chanAt 3 s7).retired = false ∧ (List.find? (fun r => r.op.key == 0) (chanAt 3
      s7).rebuilds = some { op := patrol, counts := false, check := false, failed := false : Rebuild }) ∧ (patrol.use = OpUse.patrol ∨
      patrol.use = OpUse.fold ∨ patrol.use = OpUse.copy)) ∧
    (InPhase hostR.tag Phase.started [CmdKind.read] rdCmd s8 ∧ 3 < 32 ∧ SMap.sorted s8.media.chans = true ∧ (chanAt 3 s8).retired = false
      ∧ (List.find? (fun r => r.op.key == mapKey 1 0) (chanAt 3 s8).rebuilds = some
      { op := hostR, counts := true, check := false, failed := false : Rebuild }) ∧ (false = false ∨ false = true) ∧ hostR.use = OpUse.unit ∧
      hostR.cls = 1 ∧ hostR.key % 2 ^ 40 = 0 ∧ 0 ∈ rdCmd.need) ∧
    (InPhase hostR.tag Phase.started [CmdKind.read] rdCmd s9 ∧ 3 < 32 ∧ SMap.sorted s9.media.chans = true ∧ (chanAt 3 s9).retired = false
      ∧ (List.find? (fun r => r.op.key == mapKey 1 0) (chanAt 3 s9).rebuilds = some
      { op := hostR, counts := false, check := false, failed := true : Rebuild }) ∧ (true = false ∨ true = true) ∧ hostR.use = OpUse.unit ∧
      hostR.cls = 1 ∧ hostR.key % 2 ^ 40 = 0 ∧ 0 ∈ rdCmd.need) ∧
    (InPhase hostR.tag Phase.started [CmdKind.read] rdCmd s10 ∧ 3 < 32 ∧ SMap.sorted s10.media.chans = true ∧ (chanAt 3 s10).retired =
      false ∧ (List.find? (fun r => r.op.key == mapKey 1 0) (chanAt 3 s10).rebuilds = some
      { op := hostR, counts := false, check := true, failed := false : Rebuild }) ∧ hostR.use = OpUse.unit ∧ hostR.cls = 1 ∧ hostR.key % 2 ^ 40 = 0
      ∧ 0 ∈ rdCmd.need) := ⟨by decide +kernel, by decide +kernel, ⟨inPhase_of (by decide +kernel), by decide +kernel⟩, ⟨inPhase_of (by decide +kernel), by decide +kernel⟩,
    ⟨inPhase_of (by decide +kernel), by decide +kernel⟩⟩

theorem test_ChannelScheduling :
    (3 < 32 ∧ chanIssues 3 s11 = true ∧ (chanAt 3 s11).queue = [er] ++ [hostR] ∧ (∀ q ∈ [er], q.cls ≠ 1) ∧ hostR.cls = 1 ∧ hostR.kind =
      DieKind.read ∧ (keyReady hostR s11 = true ∧ (mode s11 = 8 → hostR.use ≠ OpUse.scan) ∧ SMap.find (chanAt 3 s11).dies hostR.die =
      none) ∧
      ((if true = true then 250 else 0) + List.sum (List.map (fun e => match e.2.kind with | DieKind.read => 50 | DieKind.progSlc => 60 | DieKind.progQlc => 60 | DieKind.erase => 120) (chanAt 3 s11).dies) + 50 ≤ fget (Fl.CHE_GOV_CFG_BUDGET 3) s11)) ∧
    (3 < 32 ∧ chanIssues 3 s12 = true ∧ (chanAt 3 s12).queue = [er] ++ [hostR] ∧ (∀ q ∈ [er], q.cls ≠ 1) ∧ hostR.cls = 1 ∧ hostR.kind =
      DieKind.read ∧ (keyReady hostR s12 = true ∧ (mode s12 = 8 → hostR.use ≠ OpUse.scan) ∧ SMap.find (chanAt 3 s12).dies hostR.die =
      none) ∧
      (fget (Fl.CHE_GOV_CFG_BUDGET 3) s12 < (if true = true then 250 else 0) + List.sum (List.map (fun e => match e.2.kind with | DieKind.read => 50 | DieKind.progSlc => 60 | DieKind.progQlc => 60 | DieKind.erase => 120) (chanAt 3 s12).dies) + 50)) ∧
    (3 < 32 ∧ chanIssues 3 s13 = true ∧ (chanAt 3 s13).queue = [er] ∧ er.cls = 5 ∧ er.kind = DieKind.erase ∧ er.use = OpUse.erase ∧ SMap.find
      (chanAt 3 s13).dies er.die = none ∧ (chanAt 3 s13).susp = [] ∧ mode s13 ≠ 8 ∧ (∀ q ∈ (chanAt 3 s13).backoff ++ List.map (fun x =>
      x.op) (chanAt 3 s13).rebuilds, q.kind = DieKind.read → q.sb ≠ er.sb) ∧ erasing (chanAt 3 s13) < fget (Fl.CHE_GOV_CFG_ERASE_MAX 3)
      s13 ∧
      ((if false = true then 250 else 0) + List.sum (List.map (fun e => match e.2.kind with | DieKind.read => 50 | DieKind.progSlc => 60 | DieKind.progQlc => 60 | DieKind.erase => 120) (chanAt 3 s13).dies) + 120 ≤ fget (Fl.CHE_GOV_CFG_BUDGET 3) s13)) ∧
    (3 < 32 ∧ chanIssues 3 s14 = true ∧ (chanAt 3 s14).queue = [er] ∧ er.cls = 5 ∧ er.kind = DieKind.erase ∧ er.use = OpUse.erase ∧ SMap.find
      (chanAt 3 s14).dies er.die = none ∧ (chanAt 3 s14).susp = [] ∧ mode s14 ≠ 8 ∧ (∀ q ∈ (chanAt 3 s14).backoff ++ List.map (fun x =>
      x.op) (chanAt 3 s14).rebuilds, q.kind = DieKind.read → q.sb ≠ er.sb) ∧ fget (Fl.CHE_GOV_CFG_ERASE_MAX 3) s14 ≤ erasing (chanAt 3
      s14)) ∧
    (3 < 32 ∧ chanIssues 3 s15 = true ∧ (chanAt 3 s15).queue = [pre] ∧ pre.cls = 6 ∧ pre.kind = DieKind.read ∧ (keyReady pre s15 = true ∧
      (mode s15 = 8 → pre.use ≠ OpUse.scan) ∧ SMap.find (chanAt 3 s15).dies pre.die = none) ∧
      ((if false = true then 250 else 0) + List.sum (List.map (fun e => match e.2.kind with | DieKind.read => 50 | DieKind.progSlc => 60 | DieKind.progQlc => 60 | DieKind.erase => 120) (chanAt 3 s15).dies) + 50 ≤ fget (Fl.CHE_GOV_CFG_BUDGET 3) s15)) ∧
    (3 < 32 ∧ chanIssues 3 s16 = true ∧ (chanAt 3 s16).queue = [pre] ∧ pre.cls = 6 ∧ pre.kind = DieKind.read ∧ (keyReady pre s16 = true ∧
      (mode s16 = 8 → pre.use ≠ OpUse.scan) ∧ SMap.find (chanAt 3 s16).dies pre.die = none) ∧
      (fget (Fl.CHE_GOV_CFG_BUDGET 3) s16 < (if false = true then 250 else 0) + List.sum (List.map (fun e => match e.2.kind with | DieKind.read => 50 | DieKind.progSlc => 60 | DieKind.progQlc => 60 | DieKind.erase => 120) (chanAt 3 s16).dies) + 50)) ∧
    (3 < 32 ∧ chanIssues 3 s17 = true ∧ (chanAt 3 s17).queue = [pre, hostR] ∧ pre.cls = 6 ∧ hostR.cls = 1 ∧ hostR.kind = DieKind.read ∧
      (keyReady hostR s17 = true ∧ (mode s17 = 8 → hostR.use ≠ OpUse.scan) ∧ SMap.find (chanAt 3 s17).dies hostR.die = none)) ∧
    (3 < 32 ∧ chanIssues 3 s18 = false) := by
  refine ⟨?_, ?_, ?_, ?_, ?_, ?_, ?_, ?_⟩ <;> decide +kernel

theorem test_ChannelScheduling_2 :
    (3 < 32 ∧ chanUp 3 s19 = true ∧ SMap.find (chanAt 3 s19).dies 1 = some sEr ∧ hostR ∈ (chanAt 3 s19).queue ∧ hostR.die = sEr.die ∧
      hostR.kind = DieKind.read ∧ (sEr.kind = DieKind.erase ∧ hostR.cls ≤ 3 ∨ sEr.kind = DieKind.progQlc ∧ hostR.cls = 1) ∧ sEr.minRun ≤ 15 ∧
      sEr.suspends < sEr.maxSusp) ∧
    (3 < 32 ∧ chanUp 3 s19 = true ∧ SMap.find (chanAt 3 s19).dies 1 = some sEr ∧ hostR ∈ (chanAt 3 s19).queue ∧ hostR.die = sEr.die ∧
      hostR.kind = DieKind.read ∧ (sEr.kind = DieKind.erase ∧ hostR.cls ≤ 3 ∨ sEr.kind = DieKind.progQlc ∧ hostR.cls = 1) ∧ (14 < sEr.minRun ∨
      sEr.maxSusp ≤ sEr.suspends)) ∧
    (3 < 32 ∧ SMap.find (chanAt 3 s20).susp 1 = some sEr ∧ SMap.find (chanAt 3 s20).dies 1 = none ∧ (mode s20 = 8 → sEr.kind ≠
      DieKind.erase) ∧ (true = true ∨ ∀ q ∈ (chanAt 3 s20).queue, q.die = 1 → q.kind = DieKind.read → 3 < q.cls) ∧
      (((if false = true then 250 else 0) + List.sum (List.map (fun e => match e.2.kind with | DieKind.read => 50 | DieKind.progSlc => 60 | DieKind.progQlc => 60 | DieKind.erase => 120) (chanAt 3 s20).dies) + match sEr.kind with | DieKind.read => 50 | DieKind.progSlc => 60 | DieKind.progQlc => 60 | DieKind.erase => 120) ≤ fget (Fl.CHE_GOV_CFG_BUDGET 3) s20)
      ∧ (sEr.kind = DieKind.erase → erasing (chanAt 3 s20) < fget (Fl.CHE_GOV_CFG_ERASE_MAX 3) s20)) ∧
    (3 < 32 ∧ SMap.find (chanAt 3 s21).susp 1 = some sEr ∧ SMap.find (chanAt 3 s21).dies 1 = none ∧ (mode s21 = 8 → sEr.kind ≠
      DieKind.erase) ∧ (false = true ∨ ∀ q ∈ (chanAt 3 s21).queue, q.die = 1 → q.kind = DieKind.read → 3 < q.cls) ∧
      (((if false = true then 250 else 0) + List.sum (List.map (fun e => match e.2.kind with | DieKind.read => 50 | DieKind.progSlc => 60 | DieKind.progQlc => 60 | DieKind.erase => 120) (chanAt 3 s21).dies) + match sEr.kind with | DieKind.read => 50 | DieKind.progSlc => 60 | DieKind.progQlc => 60 | DieKind.erase => 120) ≤ fget (Fl.CHE_GOV_CFG_BUDGET 3) s21)
      ∧ (sEr.kind = DieKind.erase → erasing (chanAt 3 s21) < fget (Fl.CHE_GOV_CFG_ERASE_MAX 3) s21)) ∧
    (3 < 32 ∧ SMap.find (chanAt 3 s22).susp 1 = some sEr ∧ SMap.find (chanAt 3 s22).dies 1 = none ∧ (mode s22 = 8 → sEr.kind ≠
      DieKind.erase) ∧ (true = true ∨ ∀ q ∈ (chanAt 3 s22).queue, q.die = 1 → q.kind = DieKind.read → 3 < q.cls) ∧
      (fget (Fl.CHE_GOV_CFG_BUDGET 3) s22 < (if true = true then 250 else 0) + List.sum (List.map (fun e => match e.2.kind with | DieKind.read => 50 | DieKind.progSlc => 60 | DieKind.progQlc => 60 | DieKind.erase => 120) (chanAt 3 s22).dies) + match sEr.kind with | DieKind.read => 50 | DieKind.progSlc => 60 | DieKind.progQlc => 60 | DieKind.erase => 120)) ∧
    (3 < 32 ∧ chanUp 3 s23 = true) ∧
    (3 < 32 ∧ chanUp 3 s24 = true) ∧
    (3 < 32 ∧ chanUp 3 s13 = true ∧ SMap.find (sbAt 2 s13).blocks 3 = some 1) := by
  refine ⟨?_, ?_, ?_, ?_, ?_, ?_, ?_, ?_⟩ <;> decide +kernel

theorem test_ChannelFaults :
    (3 < 32 ∧ SMap.sorted s25.media.chans = true ∧ (List.find? (fun x => x.die == 1) (chanAt 3 s25).backoff = some (bo 1))) ∧
    (3 < 32 ∧ SMap.sorted s25.media.chans = true ∧ (List.find? (fun x => x.die == 1) (chanAt 3 s25).backoff = some (bo 1)) ∧ (bo 1).retries <
      2) ∧
    (3 < 32 ∧ SMap.sorted s26.media.chans = true ∧ (List.find? (fun x => x.die == 1) (chanAt 3 s26).backoff = some (bo 2)) ∧ 2 ≤ (bo
      2).retries ∧ (bo 2).kind = DieKind.read ∧ (bo 2).use ≠ OpUse.contrib ∧ chanUp 3 s26 = true ∧ ((∀ e ∈ (chanAt 3 s26).dies, e.2.kind =
      DieKind.read) ∧ (chanAt 3 s26).susp = [])) ∧
    (3 < 32 ∧ SMap.sorted s1.media.chans = true ∧ chanUp 3 s1 = true ∧ ((∀ e ∈ (chanAt 3 s1).dies, e.2.kind = DieKind.read) ∧ (chanAt 3
      s1).susp = []) ∧ mode s1 ≠ 8) ∧
    (3 < 32 ∧ SMap.sorted s27.media.chans = true ∧ chanUp 3 s27 = true ∧ ((∀ e ∈ (chanAt 3 s27).dies, e.2.kind = DieKind.read) ∧ (chanAt 3
      s27).susp = []) ∧ mode s27 = 8) ∧
    (3 < 32 ∧ SMap.sorted s1.media.chans = true ∧ chanUp 3 s1 = true) := by
  refine ⟨?_, ?_, ?_, ?_, ?_, ?_⟩ <;> decide +kernel

theorem test_ChannelFaults_2 :
    (3 < 32 ∧ SMap.sorted s1.media.chans = true ∧ chanUp 3 s1 = true ∧ serving s1 = true) ∧
    (3 < 32 ∧ SMap.sorted s28.media.chans = true ∧ chanUp 3 s28 = true ∧ fget (Fl.CHE_CAL_FAIL_RUN 3) s28 = 1) ∧
    (3 < 32 ∧ SMap.sorted s1.media.chans = true ∧ chanUp 3 s1 = true ∧ (false = true ∧ (chanAt 3 s1).failed = true ∨ false = false ∧ 195 %
      256 = 195) ∧ s1.media.retireOrder = []) ∧
    (3 < 32 ∧ SMap.sorted s29.media.chans = true ∧ chanUp 3 s29 = true ∧ (true = true ∧ (chanAt 3 s29).failed = true ∨ true = false ∧ 0 %
      256 = 195) ∧ s29.media.retireOrder = []) ∧
    (3 < 32 ∧ SMap.sorted s30.media.chans = true ∧ chanUp 3 s30 = true ∧ (true = true ∧ (chanAt 3 s30).failed = true ∨ true = false ∧ 0 %
      256 = 195) ∧ s30.media.retireOrder = [4] ∧ mode s30 = 4 ∧ fget Fl.AON_MODE_TRANS s30 = 0 ∧ fget Fl.AON_MODE_RO_CAUSE s30 = 0) ∧
    (3 < 32 ∧ SMap.sorted s1.media.chans = true ∧ chanUp 3 s1 = true ∧ 194 % 256 ≠ 195) := by
  refine ⟨?_, ?_, ?_, ?_, ?_, ?_⟩ <;> decide +kernel

theorem test_ChannelFaults_3 :
    (3 < 32 ∧ SMap.sorted s1.media.chans = true ∧ (chanAt 3 s1).failed = false) ∧
    (3 < 32 ∧ SMap.sorted s1.media.chans = true ∧ SMap.find (chanAt 3 s1).dies 1 = some patrol ∧ patrol.cls ≠ 6) ∧
    (3 < 32 ∧ SMap.sorted s1.media.chans = true ∧ SMap.find (chanAt 3 s1).dies 1 = some patrol ∧ patrol.cls ≠ 6 ∧ patrol.kind = DieKind.read) ∧
    (3 < 32 ∧ SMap.sorted s31.media.chans = true ∧ SMap.find (chanAt 3 s31).dies 1 = some pq ∧ pq.cls ≠ 6 ∧ (pq.kind = DieKind.progSlc ∨
      pq.kind = DieKind.progQlc) ∧ pq.sb < s31.ftl.nextSb) ∧
    (3 < 32 ∧ SMap.sorted s32.media.chans = true ∧ SMap.find (chanAt 3 s32).dies 2 = some er2 ∧ er2.cls ≠ 6 ∧ er2.kind = DieKind.erase ∧
      SMap.find (sbAt er2.sb s32).blocks 3 = some 10) := by
  refine ⟨?_, ?_, ?_, ?_, ?_⟩ <;> decide +kernel

end Media

namespace Scan

def prog7 : Cmd := { cmd 7 .program 0 0 .fetched with nsid := 2, tracked := false }
def prog7s : Cmd := { prog7 with phase := .started }
def cns : Ns := { ns1 with csi := 4 }
def job0 : ScanJob := ⟨3, 0, 1, none, some 7, none, .phys, 0x1000, none⟩
/-- A module with a compute namespace, a program command and these scan jobs. -/
def sj (c : Cmd) (jobs : List ScanJob) : State :=
  { io [c] with
    nv := { (io [c]).nv with ns := [(1, ns1), (2, cns)] }
    ten := { up.ten with memNs := [(0, 1)] }
    scan := { up.scan with jobs := jobs, nextNum := 4 }
    mem := [(0x1000, 1), (0x1005, 3), (0x1010, 4), (0x1021, 0x40), (0x1026, 1), (0x1031, 0x20), (0x1082, 1), (0x1091, 0x30)] }
def s1 : State := sj prog7 [job0]
def s2 : State := sj prog7 (List.replicate 4096 job0)
def s3 : State := sj prog7 []
def dsc : ScanDesc := ⟨1, 0, 0, 0, false, false, false, false, false, 0, 0, 4, 0, 16384, 0, 0, 0, 0, 1, 0, 0, 3600, 0x2000, 0, List.replicate 8 0, 0x10000, 0x20000, 0x3000⟩
/-- The bytes of the scan descriptor at 0x1000. -/
def dBytes : List Byte := [1] ++ List.replicate 4 0 ++ [3] ++ List.replicate 10 0 ++ [4] ++ List.replicate 16 0 ++ [64] ++ List.replicate 4 0 ++ [1] ++ List.replicate 10 0 ++ [32] ++ List.replicate 80 0 ++ [1] ++ List.replicate 14 0 ++ [48] ++ List.replicate 110 0
/-- What they say. -/
def dsc3 : ScanDesc := { dsc with outmode := 3, outSize := 0 }
def s4 : State := sj prog7s [job0]
def sjBad : State := { sj prog7s [job0] with mem := [] }
def sjCode : State := { sj prog7s [job0] with mem := (sj prog7s [job0]).mem ++ [(0x2007, 0xFC)] }
def run0 : ScanRun := ⟨2, dsc, [0], [], 5, [3, 4], 3600, [], [], [], ScanCnt.zero, [], 0, [], none, none, 1, []⟩
/-- The job has looked up unit 0. -/
def look (c : Option Nat) (k : ScanSrc) (late : Bool) : ScanRead := ⟨0, c, k, [], late⟩
def runL (r : ScanRun) (x : ScanRead) : ScanRun := { r with reads := [x] }
def jr (r : ScanRun) : ScanJob := { job0 with run := some r }
def sr (r : ScanRun) : State := sj prog7s [jr r]
def lk1 : ScanRead := look none .skipped false
def s5 : State := sr (runL run0 lk1)
def lk2 : ScanRead := look none .zeros false
def s6 : State := sr (runL run0 lk2)
def lk3 : ScanRead := look (some 3) .read true
def s7 : State := sr (runL run0 lk3)
def runU : ScanRun := { run0 with desc := { dsc with unread := true } }
def lk4 : ScanRead := look (some 3) .unread false
def s8 : State := sr (runL runU lk4)
def s9 : State := sr (runL run0 lk4)
def lk5 : ScanRead := look (some 3) .queued false
def s10 : State := sr (runL run0 lk5)
def hold0 : HeldOut := ⟨0, [List.replicate 24 1], [], ScanCnt.zero⟩
def runR : ScanRun := { run0 with desc := { dsc with ring := true }, held := [(3, hold0)], used := [(3, 128)] }
def s11 : State := sr runR
def runF : ScanRun := { runR with used := [(3, 4040)] }
def s12 : State := sr runF
def s13 : State := sr run0
def runN : ScanRun := { run0 with limit := 0 }
def s14 : State := sr runN
def s15 : State := wr Reg.AON_PD_ON_LO 0 (sr run0)
def runD (st : Option Nat) : ScanRun := { run0 with done := [0], stop := st }
def s16 : State := sr (runD none)
def s17 : State := sr (runD (some 10))

theorem test_ScanJobs :
    (Ready 7 [CmdKind.program] prog7 s1 ∧ computeNs prog7 s1 = true ∧ mode s1 ≠ 9 ∧ 64 % 64 = 0 ∧ 64 + 256 ≤ slmSize (funcOf prog7.ctrl
      s1) s1 ∧ (List.length (List.filter (fun j => Option.isNone j.run) s1.scan.jobs) < 4096) ∧ (List.length (List.filter (fun j => j.func
      == funcOf prog7.ctrl s1) (List.filter (fun j => Option.isNone j.run) s1.scan.jobs)) < (resOf (funcOf prog7.ctrl s1) s1).scanQ)) ∧
    (Ready 7 [CmdKind.program] prog7 s2 ∧ computeNs prog7 s2 = true ∧ mode s2 ≠ 9 ∧ 64 % 64 = 0 ∧ 64 + 256 ≤ slmSize (funcOf prog7.ctrl
      s2) s2 ∧ (4096 ≤ List.length (List.filter (fun j => Option.isNone j.run) s2.scan.jobs)) ∧ ((List.all s2.scan.jobs fun j => j.num
      != s2.scan.nextNum) = true)) ∧
    (Ready 7 [CmdKind.program] prog7 s3 ∧ computeNs prog7 s3 = true ∧ mode s3 ≠ 9 ∧ (63 % 64 ≠ 0 ∨ slmSize (funcOf prog7.ctrl s3) s3
      < 63 + 256)) ∧
    (Ready 7 [CmdKind.program] prog7 s3 ∧ computeNs prog7 s3 = true ∧ mode s3 ≠ 9 ∧ (268435392 % 64 ≠ 0 ∨ slmSize (funcOf prog7.ctrl
      s3) s3 < 268435392 + 256)) ∧
    (nextScan s4 = some job0 ∧ 0 < 4 ∧ (∀ i < 0, ∃ k ∈ s4.scan.jobs, ∃ r, k.run = some r ∧ r.ctx = i) ∧ (∀ k ∈ s4.scan.jobs, ∀ (r :
      ScanRun), k.run = some r → r.ctx ≠ 0) ∧ (mode s4 = 4 ∨ mode s4 = 5 ∨ mode s4 = 10) ∧ fget Fl.MGT_THERM_LEVEL s4 ≠ 3 ∧ readSpace
      job0.sp job0.addr 256 s4 = some dBytes ∧ job0.addr % 64 = 0 ∧ scanDescOf dBytes (featureValue 193 s4 / 65536 % 4) (featureValue 193
      s4 % 65536) = some dsc3 ∧ scanDescFits job0.sp job0.func dsc3 s4 = true ∧ dsc3.patCount = 0 ∧ dsc3.ring = false ∧ readSpace job0.sp
      dsc3.codeAddr (8 * dsc3.instrCount) s4 = some [0, 0, 0, 0, 0, 0, 0, 0] ∧ (firstBad (dsc3.framing == 2) (fun t => tableWords t s4) 0 0
      [] 0 (List.map finsOf (codeWords [0, 0, 0, 0, 0, 0, 0, 0] dsc3.instrCount)) = none)) ∧
    (InPhase 7 Phase.started [CmdKind.program] prog7s sjBad ∧ nextScan sjBad = some job0 ∧ 0 < 4 ∧ (∀ i < 0, ∃ k ∈ sjBad.scan.jobs, ∃ r, k.run =
      some r ∧ r.ctx = i) ∧ (∀ k ∈ sjBad.scan.jobs, ∀ (r : ScanRun), k.run = some r → r.ctx ≠ 0) ∧ (mode sjBad = 4 ∨ mode sjBad = 5 ∨ mode sjBad =
      10) ∧ fget Fl.MGT_THERM_LEVEL sjBad ≠ 3 ∧ readSpace job0.sp job0.addr 256 sjBad = some (List.replicate 256 0) ∧ (job0.addr % 64 ≠ 0 ∨
      scanDescOf (List.replicate 256 0) (featureValue 193 sjBad / 65536 % 4) (featureValue 193 sjBad % 65536) = none) ∧ job0.tag = some 7 ∧
      job0.letter = none) ∧
    (InPhase 7 Phase.started [CmdKind.program] prog7s sjCode ∧ nextScan sjCode = some job0 ∧ 0 < 4 ∧ (∀ i < 0, ∃ k ∈ sjCode.scan.jobs, ∃ r, k.run =
      some r ∧ r.ctx = i) ∧ (∀ k ∈ sjCode.scan.jobs, ∀ (r : ScanRun), k.run = some r → r.ctx ≠ 0) ∧ (mode sjCode = 4 ∨ mode sjCode = 5 ∨ mode
      sjCode = 10) ∧ fget Fl.MGT_THERM_LEVEL sjCode ≠ 3 ∧ readSpace job0.sp job0.addr 256 sjCode = some dBytes ∧ job0.addr % 64 = 0 ∧ scanDescOf
      dBytes (featureValue 193 sjCode / 65536 % 4) (featureValue 193 sjCode % 65536) = some dsc3 ∧ scanDescFits job0.sp job0.func dsc3 sjCode =
      true ∧ dsc3.patCount = 0 ∧ readSpace job0.sp dsc3.codeAddr (8 * dsc3.instrCount) sjCode = some [0, 0, 0, 0, 0, 0, 0, 252] ∧ (firstBad
      (dsc3.framing == 2) (fun t => tableWords t sjCode) 0 0 [] 0 (List.map finsOf (codeWords [0, 0, 0, 0, 0, 0, 0, 252] dsc3.instrCount)) = some
      0) ∧ job0.tag = some 7 ∧ job0.letter = none) := ⟨⟨ready_of (by decide +kernel), by decide +kernel⟩, ⟨ready_of (by decide +kernel), by decide +kernel⟩, ⟨ready_of (by decide +kernel),
    by decide +kernel⟩, ⟨ready_of (by decide +kernel), by decide +kernel⟩, by decide +kernel, ⟨inPhase_of (by decide +kernel), by decide +kernel⟩,
    ⟨inPhase_of (by decide +kernel), by decide +kernel⟩⟩

theorem test_ScanJobs_2 :
    (scanAt 3 s5 = some (jr (runL run0 lk1)) ∧ (jr (runL run0 lk1)).run = some (runL run0 lk1) ∧ (∀ k ∈ s5.scan.jobs, k.num = 3 → k = jr
      (runL run0 lk1)) ∧ (List.find? (fun y => y.iu == 0) (runL run0 lk1).reads = some lk1) ∧ scanModes s5 = true ∧ (runL run0 lk1).stop = none
      ∧ (runL run0 lk1).held = [] ∧ nsAt (runL run0 lk1).desc.nsid s5 = some ns1 ∧ (lk1.chan = none ∨ ∃ c, lk1.chan = some c ∧ (chanUp c s5 =
      true → c = 3)) ∧ chanUp 3 s5 = true ∧ (∀ y ∈ (runL run0 lk1).reads, y.iu < 0 → Option.isSome y.chan = true → y.chan ≠ lk1.chan) ∧ lk1.src
      = ScanSrc.skipped ∧ (((runL run0 lk1).desc.framing = 0 ∧ (runL run0 lk1).desc.reclen = 16384 ∧ (runL run0 lk1).desc.base = 0 ∧ (runL run0
      lk1).desc.slba % nsK (runL run0 lk1).desc.nsid s5 = 0 ∧ (runL run0 lk1).desc.nlb % nsK (runL run0 lk1).desc.nsid s5 = 0 ∧ (runL run0
      lk1).frags = [] ∧ nsK (runL run0 lk1).desc.nsid s5 ≠ 0 ∧ 16384 % nsK (runL run0 lk1).desc.nsid s5 = 0) ∧ seamBytes s5 = 0 ∧ (runL
      run0 lk1).code = [0] ∧ (runL run0 lk1).desc.slba / nsK (runL run0 lk1).desc.nsid s5 ≤ 0 ∧ 0 ≤ ((runL run0 lk1).desc.slba + (runL run0
      lk1).desc.nlb - 1) / nsK (runL run0 lk1).desc.nsid s5)) ∧
    (scanAt 3 s6 = some (jr (runL run0 lk2)) ∧ (jr (runL run0 lk2)).run = some (runL run0 lk2) ∧ (∀ k ∈ s6.scan.jobs, k.num = 3 → k = jr
      (runL run0 lk2)) ∧ (List.find? (fun y => y.iu == 0) (runL run0 lk2).reads = some lk2) ∧ scanModes s6 = true ∧ (runL run0 lk2).stop = none
      ∧ (runL run0 lk2).held = [] ∧ nsAt (runL run0 lk2).desc.nsid s6 = some ns1 ∧ (lk2.chan = none ∨ ∃ c, lk2.chan = some c ∧ (chanUp c s6 =
      true → c = 3)) ∧ chanUp 3 s6 = true ∧ (∀ y ∈ (runL run0 lk2).reads, y.iu < 0 → Option.isSome y.chan = true → y.chan ≠ lk2.chan) ∧ lk2.src
      = ScanSrc.zeros ∧ (((runL run0 lk2).desc.framing = 0 ∧ (runL run0 lk2).desc.reclen = 16384 ∧ (runL run0 lk2).desc.base = 0 ∧ (runL run0
      lk2).desc.slba % nsK (runL run0 lk2).desc.nsid s6 = 0 ∧ (runL run0 lk2).desc.nlb % nsK (runL run0 lk2).desc.nsid s6 = 0 ∧ (runL run0
      lk2).frags = [] ∧ nsK (runL run0 lk2).desc.nsid s6 ≠ 0 ∧ 16384 % nsK (runL run0 lk2).desc.nsid s6 = 0) ∧ seamBytes s6 = 0 ∧ (runL
      run0 lk2).code = [0] ∧ (runL run0 lk2).desc.slba / nsK (runL run0 lk2).desc.nsid s6 ≤ 0 ∧ 0 ≤ ((runL run0 lk2).desc.slba + (runL run0
      lk2).desc.nlb - 1) / nsK (runL run0 lk2).desc.nsid s6)) ∧
    (scanAt 3 s7 = some (jr (runL run0 lk3)) ∧ (jr (runL run0 lk3)).run = some (runL run0 lk3) ∧ (∀ k ∈ s7.scan.jobs, k.num = 3 → k = jr
      (runL run0 lk3)) ∧ (List.find? (fun y => y.iu == 0) (runL run0 lk3).reads = some lk3) ∧ scanModes s7 = true ∧ (runL run0 lk3).stop = none
      ∧ (runL run0 lk3).held = [] ∧ nsAt (runL run0 lk3).desc.nsid s7 = some ns1 ∧ (lk3.chan = none ∨ ∃ c, lk3.chan = some c ∧ (chanUp c s7 =
      true → c = 3)) ∧ chanUp 3 s7 = true ∧ (∀ y ∈ (runL run0 lk3).reads, y.iu < 0 → Option.isSome y.chan = true → y.chan ≠ lk3.chan) ∧ lk3.src
      = ScanSrc.read ∧ (((runL run0 lk3).desc.framing = 0 ∧ (runL run0 lk3).desc.reclen = 16384 ∧ (runL run0 lk3).desc.base = 0 ∧ (runL run0
      lk3).desc.slba % nsK (runL run0 lk3).desc.nsid s7 = 0 ∧ (runL run0 lk3).desc.nlb % nsK (runL run0 lk3).desc.nsid s7 = 0 ∧ (runL run0
      lk3).frags = [] ∧ nsK (runL run0 lk3).desc.nsid s7 ≠ 0 ∧ 16384 % nsK (runL run0 lk3).desc.nsid s7 = 0) ∧ seamBytes s7 = 0 ∧ (runL
      run0 lk3).code = [0] ∧ (runL run0 lk3).desc.slba / nsK (runL run0 lk3).desc.nsid s7 ≤ 0 ∧ 0 ≤ ((runL run0 lk3).desc.slba + (runL run0
      lk3).desc.nlb - 1) / nsK (runL run0 lk3).desc.nsid s7) ∧ List.length (iuBytes ns1.flbas lk3.data) = 16384) ∧
    (scanAt 3 s8 = some (jr (runL runU lk4)) ∧ (jr (runL runU lk4)).run = some (runL runU lk4) ∧ (∀ k ∈ s8.scan.jobs, k.num = 3 → k = jr
      (runL runU lk4)) ∧ (List.find? (fun y => y.iu == 0) (runL runU lk4).reads = some lk4) ∧ scanModes s8 = true ∧ (runL runU lk4).stop = none
      ∧ (runL runU lk4).held = [] ∧ nsAt (runL runU lk4).desc.nsid s8 = some ns1 ∧ (lk4.chan = none ∨ ∃ c, lk4.chan = some c ∧ (chanUp c s8 =
      true → c = 3)) ∧ chanUp 3 s8 = true ∧ (∀ y ∈ (runL runU lk4).reads, y.iu < 0 → Option.isSome y.chan = true → y.chan ≠ lk4.chan) ∧ lk4.src
      = ScanSrc.unread ∧ (runL runU lk4).desc.unread = true) ∧
    (scanAt 3 s9 = some (jr (runL run0 lk4)) ∧ (jr (runL run0 lk4)).run = some (runL run0 lk4) ∧ (∀ k ∈ s9.scan.jobs, k.num = 3 → k = jr
      (runL run0 lk4)) ∧ (List.find? (fun y => y.iu == 0) (runL run0 lk4).reads = some lk4) ∧ scanModes s9 = true ∧ (runL run0 lk4).stop = none
      ∧ (runL run0 lk4).held = [] ∧ nsAt (runL run0 lk4).desc.nsid s9 = some ns1 ∧ (lk4.chan = none ∨ ∃ c, lk4.chan = some c ∧ (chanUp c s9 =
      true → c = 3)) ∧ chanUp 3 s9 = true ∧ (∀ y ∈ (runL run0 lk4).reads, y.iu < 0 → Option.isSome y.chan = true → y.chan ≠ lk4.chan) ∧ lk4.src
      = ScanSrc.unread ∧ (runL run0 lk4).desc.unread = false ∧ (((runL run0 lk4).desc.framing = 0 ∧ (runL run0 lk4).desc.reclen = 16384 ∧ (runL
      run0 lk4).desc.base = 0 ∧ (runL run0 lk4).desc.slba % nsK (runL run0 lk4).desc.nsid s9 = 0 ∧ (runL run0 lk4).desc.nlb % nsK (runL run0
      lk4).desc.nsid s9 = 0 ∧ (runL run0 lk4).frags = [] ∧ nsK (runL run0 lk4).desc.nsid s9 ≠ 0 ∧ 16384 % nsK (runL run0 lk4).desc.nsid s9
      = 0) ∧ seamBytes s9 = 0 ∧ (runL run0 lk4).code = [0] ∧ (runL run0 lk4).desc.slba / nsK (runL run0 lk4).desc.nsid s9 ≤ 0 ∧ 0 ≤ ((runL
      run0 lk4).desc.slba + (runL run0 lk4).desc.nlb - 1) / nsK (runL run0 lk4).desc.nsid s9)) ∧
    (scanAt 3 s10 = some (jr (runL run0 lk5)) ∧ (jr (runL run0 lk5)).run = some (runL run0 lk5) ∧ (∀ k ∈ s10.scan.jobs, k.num = 3 → k = jr
      (runL run0 lk5)) ∧ (List.find? (fun y => y.iu == 0) (runL run0 lk5).reads = some lk5) ∧ scanModes s10 = true ∧ (runL run0 lk5).stop = none
      ∧ (runL run0 lk5).held = [] ∧ nsAt (runL run0 lk5).desc.nsid s10 = some ns1 ∧ (lk5.chan = none ∨ ∃ c, lk5.chan = some c ∧ (chanUp c s10
      = true → c = 3)) ∧ chanUp 3 s10 = true ∧ (∀ y ∈ (runL run0 lk5).reads, y.iu < 0 → Option.isSome y.chan = true → y.chan ≠ lk5.chan) ∧
      lk5.src = ScanSrc.queued) ∧
    (scanAt 3 s11 = some (jr runR) ∧ (jr runR).run = some runR ∧ (∀ k ∈ s11.scan.jobs, k.num = 3 → k = jr runR) ∧ SMap.find runR.held 3 =
      some hold0 ∧ hold0.entries = [List.replicate 24 1] ∧ runR.desc.ring = true ∧ runR.code = [0] ∧ hold0.aggs = [] ∧ SMap.getD runR.used 3 0 +
      List.length (List.replicate 24 1) < runR.desc.outSize / 32 / 4096 * 4096 ∧ fieldAt (Option.getD (readSpace (jr runR).sp (runR.desc.outAddr +
      3 * (runR.desc.outSize / 32 / 4096 * 4096) + 8) 8 s11) []) 0 8 ≤ SMap.getD runR.used 3 0 ∧ SMap.getD runR.used 3 0 - fieldAt (Option.getD
      (readSpace (jr runR).sp (runR.desc.outAddr + 3 * (runR.desc.outSize / 32 / 4096 * 4096) + 8) 8 s11) []) 0 8 + List.length (List.replicate
      24 1) < runR.desc.outSize / 32 / 4096 * 4096 - 64) := by
  refine ⟨?_, ?_, ?_, ?_, ?_, ?_, ?_⟩ <;> decide +kernel

theorem test_ScanJobs_3 :
    (scanAt 3 s12 = some (jr runF) ∧ (jr runF).run = some runF ∧ (∀ k ∈ s12.scan.jobs, k.num = 3 → k = jr runF) ∧ SMap.find runF.held 3 =
      some hold0 ∧ hold0.entries = [List.replicate 24 1] ∧ runF.desc.ring = true ∧ runF.code = [0] ∧ hold0.aggs = [] ∧ SMap.getD runF.used 3 0 +
      List.length (List.replicate 24 1) ≤ runF.desc.outSize / 32 / 4096 * 4096 ∧ fieldAt (Option.getD (readSpace (jr runF).sp (runF.desc.outAddr +
      3 * (runF.desc.outSize / 32 / 4096 * 4096) + 8) 8 s12) []) 0 8 ≤ SMap.getD runF.used 3 0 ∧ runF.desc.outSize / 32 / 4096 * 4096 - 64 ≤
      SMap.getD runF.used 3 0 - fieldAt (Option.getD (readSpace (jr runF).sp (runF.desc.outAddr + 3 * (runF.desc.outSize / 32 / 4096 * 4096) + 8) 8
      s12) []) 0 8 + List.length (List.replicate 24 1)) ∧
    (scanAt 3 s13 = some (jr run0) ∧ (jr run0).run = some run0 ∧ (∀ k ∈ s13.scan.jobs, k.num = 3 → k = jr run0) ∧ run0.limit ≠ 0 ∧ run0.stop
      = none) ∧
    (scanAt 3 s14 = some (jr runN) ∧ (jr runN).run = some runN ∧ (∀ k ∈ s14.scan.jobs, k.num = 3 → k = jr runN) ∧ runN.limit = 0) ∧
    (scanAt 3 s13 = some (jr run0) ∧ (jr run0).run = some run0 ∧ (∀ k ∈ s13.scan.jobs, k.num = 3 → k = jr run0) ∧ chanUp 3 s13 = true ∧ 20
      % 16 / 2 ^ run0.ctx % 2 = 1 ∧ 3 ∈ run0.work ∧ run0.stop = none ∧ s13.scan.jobs = [jr run0]) ∧
    (scanAt 3 s15 = some (jr run0) ∧ (jr run0).run = some run0 ∧ (∀ k ∈ s15.scan.jobs, k.num = 3 → k = jr run0) ∧ chanUp 3 s15 = false) ∧
    (InPhase 7 Phase.started [CmdKind.program] prog7s s16 ∧ scanAt 3 s16 = some (jr (runD none)) ∧ (jr (runD none)).run = some (runD none) ∧
      (∀ k ∈ s16.scan.jobs, k.num = 3 → k = jr (runD none)) ∧ (jr (runD none)).tag = some 7 ∧ (jr (runD none)).letter = none ∧ ((runD none).stop
      = some 0 ∨ (runD none).stop = none ∧ 0 = 0 ∧ ∀ (iu : ℕ), (runD none).desc.slba / nsK (runD none).desc.nsid s16 ≤ iu → iu ≤ ((runD
      none).desc.slba + (runD none).desc.nlb - 1) / nsK (runD none).desc.nsid s16 → iu ∈ (runD none).done) ∧ 0 ∉ [7, 8, 9]) ∧
    (InPhase 7 Phase.started [CmdKind.program] prog7s s17 ∧ scanAt 3 s17 = some (jr (runD (some 10))) ∧ (jr (runD (some 10))).run = some
      (runD (some 10)) ∧ (∀ k ∈ s17.scan.jobs, k.num = 3 → k = jr (runD (some 10))) ∧ (jr (runD (some 10))).tag = some 7 ∧ (jr (runD (some
      10))).letter = none ∧ ((runD (some 10)).stop = some 10 ∨ (runD (some 10)).stop = none ∧ 10 = 0 ∧ ∀ (iu : ℕ), (runD (some 10)).desc.slba / nsK
      (runD (some 10)).desc.nsid s17 ≤ iu → iu ≤ ((runD (some 10)).desc.slba + (runD (some 10)).desc.nlb - 1) / nsK (runD (some 10)).desc.nsid
      s17 → iu ∈ (runD (some 10)).done) ∧ 10 ∉ [7, 8, 9]) := ⟨by decide +kernel, by decide +kernel, by decide +kernel, by decide +kernel, by decide +kernel, ⟨inPhase_of (by decide +kernel),
    by decide +kernel⟩, ⟨inPhase_of (by decide +kernel), by decide +kernel⟩⟩

end Scan

namespace Match

/-- A table-map value: width code, first bank, banks, replicas, groups. -/
def tm (code first len reps owner glo ghi dis : Nat) : Word :=
  BitVec.ofNat 64 (1 + code * 4 + first * 16 + len * 256 + reps * 8192 + owner * 2 ^ 18 + glo * 2 ^ 32 + ghi * 2 ^ 40 + dis * 2 ^ 48)
def cr (v c : Nat) : CamRow := ⟨BitVec.ofNat 128 v, BitVec.ofNat 128 c, true⟩
/-- Table 9 of two replicas of two banks, from bank 3 on, groups 0 and 1, rows of width 1. -/
def mt (rows : List (Nat × CamRow)) : State := { wr (Reg.MAT_TBL_MAP 0 9) (tm 0 3 2 2 5 0 1 0) up with mat := { up.mat with rows := rows, lost := [(9, 130)], turn := [(9, 1)] } }
def rw0 : List (Nat × CamRow) := [(8192 * 5 + 7, cr 0x41A0000000003 0xFFFFFE000000FFFF), (8192 * 6 + 2, cr 0x41C0000000003 0xFFFFFE000000FFFF)]
def s1 : State := mt rw0
def s2 : State := mt (rw0 ++ [(8192 * 6 + 9, cr 0 0)])
def s3 : State := { mt rw0 with mat := { (mt rw0).mat with rows := [(8192 * 3 + 7, cr 0x41A0000000003 0xFFFFFE000000FFFF)] } }
def s4 : State := { mt rw0 with mat := { (mt rw0).mat with retired := [4, 6] } }
def clr : State := { mt rw0 with mat := { (mt rw0).mat with clearing := [128 * 5, 128 * 6] } }
def wrt : State := { mt rw0 with mat := { (mt rw0).mat with rows := [(8192 * 5 + 7, { cr 5 7 with valid := false })], written := [8192 * 5 + 7] } }
def s5 : State := sets [(Fl.MAT_CFG_WIDTH 5, 1)] wrt
def t1 : State := { wr (Reg.MAT_TBL_MAP 0 9) (tm 0 5 1 1 5 0 1 0) up with mat := { up.mat with rows := rw0 } }
def spare (n : Nat) : State := sets [(Fl.MAT_REPAIR_ROWS_FREE 5, n), (Fl.MAT_REPAIR_COLS_FREE 5, n % 8)] (mt rw0)
def s6 : State := spare 64
/-- Row 7 and bit 3 of bank 5, each met often enough in the last 24 hours. -/
def due (n : Nat) : State := { spare n with mat := { (spare n).mat with fixes :=
  [(8192 * 5 + 7, some 3, 0), (8192 * 5 + 7, none, 0), (8192 * 5 + 8, some 3, 0), (8192 * 5 + 9, some 3, 0), (8192 * 5 + 10, some 3, 0)] } }
def s7 : State := due 1
def s8 : State := due 0
def s9 : State := spare 0
def s10 : State := due 4
def s11 : State := spare 4

theorem test_MatchTables :
    (tblVisible 5 9 s1 = true ∧ (tblAt 9 s1).glo ≤ (tblAt 9 s1).ghi ∧ SMap.sorted s1.mat.rows = true ∧ s1.mat.faulty = [] ∧ 1 ≤
      List.length [1156686232420355] ∧ List.length [1156686232420355] ≤ 8 ∧ List.length [1156686232420355] ≤ 2 * (tblAt 9 s1).w ∧ SMap.getD
      s1.mat.turn 9 0 = 1 ∧ 1 < (tblAt 9 s1).reps ∧ (tblAt 9 s1).disable / 2 ^ 1 % 2 = 0 ∧ 130 < Tbl.entries (tblAt 9 s1) ∧ ((camRow
      ((tblAt 9 s1).first + 1 * (tblAt 9 s1).len + 130 / Tbl.perBank (tblAt 9 s1), (tblAt 9 s1).glo * 64 + 130 % Tbl.perBank (tblAt 9
      s1) * (tblAt 9 s1).w).1 ((tblAt 9 s1).first + 1 * (tblAt 9 s1).len + 130 / Tbl.perBank (tblAt 9 s1), (tblAt 9 s1).glo * 64
      + 130 % Tbl.perBank (tblAt 9 s1) * (tblAt 9 s1).w).2 s1).valid = true ∧ bankRetired ((tblAt 9 s1).first + 1 * (tblAt 9 s1).len
      + 130 / Tbl.perBank (tblAt 9 s1), (tblAt 9 s1).glo * 64 + 130 % Tbl.perBank (tblAt 9 s1) * (tblAt 9 s1).w).1 s1 = false ∧ ∀ j
      < List.length [1156686232420355], ((entryWord ((tblAt 9 s1).first + 1 * (tblAt 9 s1).len + 130 / Tbl.perBank (tblAt 9 s1), (tblAt 9
      s1).glo * 64 + 130 % Tbl.perBank (tblAt 9 s1) * (tblAt 9 s1).w).1 ((tblAt 9 s1).first + 1 * (tblAt 9 s1).len + 130 /
      Tbl.perBank (tblAt 9 s1), (tblAt 9 s1).glo * 64 + 130 % Tbl.perBank (tblAt 9 s1) * (tblAt 9 s1).w).2 j s1).1 ^^^ List.getD
      [1156686232420355] j 0) &&& (entryWord ((tblAt 9 s1).first + 1 * (tblAt 9 s1).len + 130 / Tbl.perBank (tblAt 9 s1), (tblAt 9
      s1).glo * 64 + 130 % Tbl.perBank (tblAt 9 s1) * (tblAt 9 s1).w).1 ((tblAt 9 s1).first + 1 * (tblAt 9 s1).len + 130 /
      Tbl.perBank (tblAt 9 s1), (tblAt 9 s1).glo * 64 + 130 % Tbl.perBank (tblAt 9 s1) * (tblAt 9 s1).w).2 j s1).2 = 0) ∧ (∀ j <
      130, ¬((camRow ((tblAt 9 s1).first + 1 * (tblAt 9 s1).len + j / Tbl.perBank (tblAt 9 s1), (tblAt 9 s1).glo * 64 + j % Tbl.perBank
      (tblAt 9 s1) * (tblAt 9 s1).w).1 ((tblAt 9 s1).first + 1 * (tblAt 9 s1).len + j / Tbl.perBank (tblAt 9 s1), (tblAt 9
      s1).glo * 64 + j % Tbl.perBank (tblAt 9 s1) * (tblAt 9 s1).w).2 s1).valid = true ∧ bankRetired ((tblAt 9 s1).first + 1 *
      (tblAt 9 s1).len + j / Tbl.perBank (tblAt 9 s1), (tblAt 9 s1).glo * 64 + j % Tbl.perBank (tblAt 9 s1) * (tblAt 9 s1).w).1
      s1 = false ∧ ∀ j_1 < List.length [1156686232420355], ((entryWord ((tblAt 9 s1).first + 1 * (tblAt 9 s1).len + j / Tbl.perBank (tblAt
      9 s1), (tblAt 9 s1).glo * 64 + j % Tbl.perBank (tblAt 9 s1) * (tblAt 9 s1).w).1 ((tblAt 9 s1).first + 1 * (tblAt 9 s1).len
      + j / Tbl.perBank (tblAt 9 s1), (tblAt 9 s1).glo * 64 + j % Tbl.perBank (tblAt 9 s1) * (tblAt 9 s1).w).2 j_1 s1).1 ^^^
      List.getD [1156686232420355] j_1 0) &&& (entryWord ((tblAt 9 s1).first + 1 * (tblAt 9 s1).len + j / Tbl.perBank (tblAt 9 s1), (tblAt
      9 s1).glo * 64 + j % Tbl.perBank (tblAt 9 s1) * (tblAt 9 s1).w).1 ((tblAt 9 s1).first + 1 * (tblAt 9 s1).len + j / Tbl.perBank
      (tblAt 9 s1), (tblAt 9 s1).glo * 64 + j % Tbl.perBank (tblAt 9 s1) * (tblAt 9 s1).w).2 j_1 s1).2 = 0))) ∧
    (tblVisible 128 9 s1 = true ∧ (tblAt 9 s1).glo ≤ (tblAt 9 s1).ghi ∧ SMap.sorted s1.mat.rows = true ∧ s1.mat.faulty = [] ∧ 1 ≤
      List.length [1154487216963587, 5] ∧ List.length [1154487216963587, 5] ≤ 8 ∧ List.length [1154487216963587, 5] ≤ 2 * (tblAt 9 s1).w ∧
      SMap.getD s1.mat.turn 9 0 = 1 ∧ 1 < (tblAt 9 s1).reps ∧ (tblAt 9 s1).disable / 2 ^ 1 % 2 = 0 ∧ 7 < Tbl.entries (tblAt 9 s1) ∧
      ((camRow ((tblAt 9 s1).first + 1 * (tblAt 9 s1).len + 7 / Tbl.perBank (tblAt 9 s1), (tblAt 9 s1).glo * 64 + 7 % Tbl.perBank
      (tblAt 9 s1) * (tblAt 9 s1).w).1 ((tblAt 9 s1).first + 1 * (tblAt 9 s1).len + 7 / Tbl.perBank (tblAt 9 s1), (tblAt 9
      s1).glo * 64 + 7 % Tbl.perBank (tblAt 9 s1) * (tblAt 9 s1).w).2 s1).valid = true ∧ bankRetired ((tblAt 9 s1).first + 1 *
      (tblAt 9 s1).len + 7 / Tbl.perBank (tblAt 9 s1), (tblAt 9 s1).glo * 64 + 7 % Tbl.perBank (tblAt 9 s1) * (tblAt 9 s1).w).1
      s1 = false ∧ ∀ j < List.length [1154487216963587, 5], ((entryWord ((tblAt 9 s1).first + 1 * (tblAt 9 s1).len + 7 / Tbl.perBank
      (tblAt 9 s1), (tblAt 9 s1).glo * 64 + 7 % Tbl.perBank (tblAt 9 s1) * (tblAt 9 s1).w).1 ((tblAt 9 s1).first + 1 * (tblAt 9
      s1).len + 7 / Tbl.perBank (tblAt 9 s1), (tblAt 9 s1).glo * 64 + 7 % Tbl.perBank (tblAt 9 s1) * (tblAt 9 s1).w).2 j s1).1
      ^^^ List.getD [1154487216963587, 5] j 0) &&& (entryWord ((tblAt 9 s1).first + 1 * (tblAt 9 s1).len + 7 / Tbl.perBank (tblAt 9 s1),
      (tblAt 9 s1).glo * 64 + 7 % Tbl.perBank (tblAt 9 s1) * (tblAt 9 s1).w).1 ((tblAt 9 s1).first + 1 * (tblAt 9 s1).len + 7 /
      Tbl.perBank (tblAt 9 s1), (tblAt 9 s1).glo * 64 + 7 % Tbl.perBank (tblAt 9 s1) * (tblAt 9 s1).w).2 j s1).2 = 0) ∧ (∀ j < 7,
      ¬((camRow ((tblAt 9 s1).first + 1 * (tblAt 9 s1).len + j / Tbl.perBank (tblAt 9 s1), (tblAt 9 s1).glo * 64 + j % Tbl.perBank
      (tblAt 9 s1) * (tblAt 9 s1).w).1 ((tblAt 9 s1).first + 1 * (tblAt 9 s1).len + j / Tbl.perBank (tblAt 9 s1), (tblAt 9
      s1).glo * 64 + j % Tbl.perBank (tblAt 9 s1) * (tblAt 9 s1).w).2 s1).valid = true ∧ bankRetired ((tblAt 9 s1).first + 1 *
      (tblAt 9 s1).len + j / Tbl.perBank (tblAt 9 s1), (tblAt 9 s1).glo * 64 + j % Tbl.perBank (tblAt 9 s1) * (tblAt 9 s1).w).1
      s1 = false ∧ ∀ j_1 < List.length [1154487216963587, 5], ((entryWord ((tblAt 9 s1).first + 1 * (tblAt 9 s1).len + j / Tbl.perBank
      (tblAt 9 s1), (tblAt 9 s1).glo * 64 + j % Tbl.perBank (tblAt 9 s1) * (tblAt 9 s1).w).1 ((tblAt 9 s1).first + 1 * (tblAt 9
      s1).len + j / Tbl.perBank (tblAt 9 s1), (tblAt 9 s1).glo * 64 + j % Tbl.perBank (tblAt 9 s1) * (tblAt 9 s1).w).2 j_1 s1).1
      ^^^ List.getD [1154487216963587, 5] j_1 0) &&& (entryWord ((tblAt 9 s1).first + 1 * (tblAt 9 s1).len + j / Tbl.perBank (tblAt 9 s1),
      (tblAt 9 s1).glo * 64 + j % Tbl.perBank (tblAt 9 s1) * (tblAt 9 s1).w).1 ((tblAt 9 s1).first + 1 * (tblAt 9 s1).len + j /
      Tbl.perBank (tblAt 9 s1), (tblAt 9 s1).glo * 64 + j % Tbl.perBank (tblAt 9 s1) * (tblAt 9 s1).w).2 j_1 s1).2 = 0))) ∧
    (tblVisible 5 9 s2 = true ∧ (tblAt 9 s2).glo ≤ (tblAt 9 s2).ghi ∧ SMap.sorted s2.mat.rows = true ∧ s2.mat.faulty = [] ∧ 1 ≤
      List.length [1154487209164803] ∧ List.length [1154487209164803] ≤ 8 ∧ List.length [1154487209164803] ≤ 2 * (tblAt 9 s2).w ∧ SMap.getD
      s2.mat.turn 9 0 = 1 ∧ 1 < (tblAt 9 s2).reps ∧ (tblAt 9 s2).disable / 2 ^ 1 % 2 = 0 ∧ 137 < Tbl.entries (tblAt 9 s2) ∧ 8 ≤ 137 ∧
      ((camRow ((tblAt 9 s2).first + 1 * (tblAt 9 s2).len + 137 / Tbl.perBank (tblAt 9 s2), (tblAt 9 s2).glo * 64 + 137 % Tbl.perBank
      (tblAt 9 s2) * (tblAt 9 s2).w).1 ((tblAt 9 s2).first + 1 * (tblAt 9 s2).len + 137 / Tbl.perBank (tblAt 9 s2), (tblAt 9
      s2).glo * 64 + 137 % Tbl.perBank (tblAt 9 s2) * (tblAt 9 s2).w).2 s2).valid = true ∧ bankRetired ((tblAt 9 s2).first + 1 *
      (tblAt 9 s2).len + 137 / Tbl.perBank (tblAt 9 s2), (tblAt 9 s2).glo * 64 + 137 % Tbl.perBank (tblAt 9 s2) * (tblAt 9 s2).w).1
      s2 = false ∧ ∀ j < List.length [1154487209164803], ((entryWord ((tblAt 9 s2).first + 1 * (tblAt 9 s2).len + 137 / Tbl.perBank (tblAt
      9 s2), (tblAt 9 s2).glo * 64 + 137 % Tbl.perBank (tblAt 9 s2) * (tblAt 9 s2).w).1 ((tblAt 9 s2).first + 1 * (tblAt 9
      s2).len + 137 / Tbl.perBank (tblAt 9 s2), (tblAt 9 s2).glo * 64 + 137 % Tbl.perBank (tblAt 9 s2) * (tblAt 9 s2).w).2 j
      s2).1 ^^^ List.getD [1154487209164803] j 0) &&& (entryWord ((tblAt 9 s2).first + 1 * (tblAt 9 s2).len + 137 / Tbl.perBank (tblAt 9
      s2), (tblAt 9 s2).glo * 64 + 137 % Tbl.perBank (tblAt 9 s2) * (tblAt 9 s2).w).1 ((tblAt 9 s2).first + 1 * (tblAt 9 s2).len
      + 137 / Tbl.perBank (tblAt 9 s2), (tblAt 9 s2).glo * 64 + 137 % Tbl.perBank (tblAt 9 s2) * (tblAt 9 s2).w).2 j s2).2 = 0) ∧ (∀
      j < 137, 8 ≤ j → ¬((camRow ((tblAt 9 s2).first + 1 * (tblAt 9 s2).len + j / Tbl.perBank (tblAt 9 s2), (tblAt 9 s2).glo * 64 + j %
      Tbl.perBank (tblAt 9 s2) * (tblAt 9 s2).w).1 ((tblAt 9 s2).first + 1 * (tblAt 9 s2).len + j / Tbl.perBank (tblAt 9 s2), (tblAt
      9 s2).glo * 64 + j % Tbl.perBank (tblAt 9 s2) * (tblAt 9 s2).w).2 s2).valid = true ∧ bankRetired ((tblAt 9 s2).first + 1 *
      (tblAt 9 s2).len + j / Tbl.perBank (tblAt 9 s2), (tblAt 9 s2).glo * 64 + j % Tbl.perBank (tblAt 9 s2) * (tblAt 9 s2).w).1
      s2 = false ∧ ∀ j_1 < List.length [1154487209164803], ((entryWord ((tblAt 9 s2).first + 1 * (tblAt 9 s2).len + j / Tbl.perBank (tblAt
      9 s2), (tblAt 9 s2).glo * 64 + j % Tbl.perBank (tblAt 9 s2) * (tblAt 9 s2).w).1 ((tblAt 9 s2).first + 1 * (tblAt 9 s2).len
      + j / Tbl.perBank (tblAt 9 s2), (tblAt 9 s2).glo * 64 + j % Tbl.perBank (tblAt 9 s2) * (tblAt 9 s2).w).2 j_1 s2).1 ^^^
      List.getD [1154487209164803] j_1 0) &&& (entryWord ((tblAt 9 s2).first + 1 * (tblAt 9 s2).len + j / Tbl.perBank (tblAt 9 s2), (tblAt
      9 s2).glo * 64 + j % Tbl.perBank (tblAt 9 s2) * (tblAt 9 s2).w).1 ((tblAt 9 s2).first + 1 * (tblAt 9 s2).len + j / Tbl.perBank
      (tblAt 9 s2), (tblAt 9 s2).glo * 64 + j % Tbl.perBank (tblAt 9 s2) * (tblAt 9 s2).w).2 j_1 s2).2 = 0))) ∧
    (tblVisible 5 9 s1 = true ∧ (tblAt 9 s1).glo ≤ (tblAt 9 s1).ghi ∧ SMap.sorted s1.mat.rows = true ∧ s1.mat.faulty = [] ∧ 1 ≤
      List.length [4] ∧ List.length [4] ≤ 8 ∧ List.length [4] ≤ 2 * (tblAt 9 s1).w ∧ SMap.getD s1.mat.turn 9 0 = 1 ∧ 1 < (tblAt 9 s1).reps
      ∧ (tblAt 9 s1).disable / 2 ^ 1 % 2 = 0 ∧ (∀ j < Tbl.entries (tblAt 9 s1), ¬((camRow ((tblAt 9 s1).first + 1 * (tblAt 9 s1).len +
      j / Tbl.perBank (tblAt 9 s1), (tblAt 9 s1).glo * 64 + j % Tbl.perBank (tblAt 9 s1) * (tblAt 9 s1).w).1 ((tblAt 9 s1).first + 1
      * (tblAt 9 s1).len + j / Tbl.perBank (tblAt 9 s1), (tblAt 9 s1).glo * 64 + j % Tbl.perBank (tblAt 9 s1) * (tblAt 9 s1).w).2
      s1).valid = true ∧ bankRetired ((tblAt 9 s1).first + 1 * (tblAt 9 s1).len + j / Tbl.perBank (tblAt 9 s1), (tblAt 9 s1).glo *
      64 + j % Tbl.perBank (tblAt 9 s1) * (tblAt 9 s1).w).1 s1 = false ∧ ∀ j_1 < List.length [4], ((entryWord ((tblAt 9 s1).first + 1 *
      (tblAt 9 s1).len + j / Tbl.perBank (tblAt 9 s1), (tblAt 9 s1).glo * 64 + j % Tbl.perBank (tblAt 9 s1) * (tblAt 9 s1).w).1
      ((tblAt 9 s1).first + 1 * (tblAt 9 s1).len + j / Tbl.perBank (tblAt 9 s1), (tblAt 9 s1).glo * 64 + j % Tbl.perBank (tblAt 9
      s1) * (tblAt 9 s1).w).2 j_1 s1).1 ^^^ List.getD [4] j_1 0) &&& (entryWord ((tblAt 9 s1).first + 1 * (tblAt 9 s1).len + j /
      Tbl.perBank (tblAt 9 s1), (tblAt 9 s1).glo * 64 + j % Tbl.perBank (tblAt 9 s1) * (tblAt 9 s1).w).1 ((tblAt 9 s1).first + 1 *
      (tblAt 9 s1).len + j / Tbl.perBank (tblAt 9 s1), (tblAt 9 s1).glo * 64 + j % Tbl.perBank (tblAt 9 s1) * (tblAt 9 s1).w).2 j_1
      s1).2 = 0))) ∧
    (tblVisible 5 9 s1 = true ∧ (tblAt 9 s1).glo ≤ (tblAt 9 s1).ghi ∧ SMap.sorted s1.mat.rows = true ∧ s1.mat.faulty = [] ∧ 1 ≤
      List.length [4] ∧ List.length [4] ≤ 8 ∧ List.length [4] ≤ 2 * (tblAt 9 s1).w ∧ SMap.getD s1.mat.turn 9 0 = 1 ∧ 1 < (tblAt 9 s1).reps
      ∧ (tblAt 9 s1).disable / 2 ^ 1 % 2 = 0 ∧ (∀ j < Tbl.entries (tblAt 9 s1), ¬((camRow ((tblAt 9 s1).first + 1 * (tblAt 9 s1).len +
      j / Tbl.perBank (tblAt 9 s1), (tblAt 9 s1).glo * 64 + j % Tbl.perBank (tblAt 9 s1) * (tblAt 9 s1).w).1 ((tblAt 9 s1).first + 1
      * (tblAt 9 s1).len + j / Tbl.perBank (tblAt 9 s1), (tblAt 9 s1).glo * 64 + j % Tbl.perBank (tblAt 9 s1) * (tblAt 9 s1).w).2
      s1).valid = true ∧ bankRetired ((tblAt 9 s1).first + 1 * (tblAt 9 s1).len + j / Tbl.perBank (tblAt 9 s1), (tblAt 9 s1).glo *
      64 + j % Tbl.perBank (tblAt 9 s1) * (tblAt 9 s1).w).1 s1 = false ∧ ∀ j_1 < List.length [4], ((entryWord ((tblAt 9 s1).first + 1 *
      (tblAt 9 s1).len + j / Tbl.perBank (tblAt 9 s1), (tblAt 9 s1).glo * 64 + j % Tbl.perBank (tblAt 9 s1) * (tblAt 9 s1).w).1
      ((tblAt 9 s1).first + 1 * (tblAt 9 s1).len + j / Tbl.perBank (tblAt 9 s1), (tblAt 9 s1).glo * 64 + j % Tbl.perBank (tblAt 9
      s1) * (tblAt 9 s1).w).2 j_1 s1).1 ^^^ List.getD [4] j_1 0) &&& (entryWord ((tblAt 9 s1).first + 1 * (tblAt 9 s1).len + j /
      Tbl.perBank (tblAt 9 s1), (tblAt 9 s1).glo * 64 + j % Tbl.perBank (tblAt 9 s1) * (tblAt 9 s1).w).1 ((tblAt 9 s1).first + 1 *
      (tblAt 9 s1).len + j / Tbl.perBank (tblAt 9 s1), (tblAt 9 s1).glo * 64 + j % Tbl.perBank (tblAt 9 s1) * (tblAt 9 s1).w).2 j_1
      s1).2 = 0)) ∧ 7 < Tbl.entries (tblAt 9 s1) ∧ ((tblAt 9 s1).first + 1 * (tblAt 9 s1).len + 7 / Tbl.perBank (tblAt 9 s1), (tblAt
      9 s1).glo * 64 + 7 % Tbl.perBank (tblAt 9 s1) * (tblAt 9 s1).w).1 < 16 ∧ (camRow ((tblAt 9 s1).first + 1 * (tblAt 9 s1).len +
      7 / Tbl.perBank (tblAt 9 s1), (tblAt 9 s1).glo * 64 + 7 % Tbl.perBank (tblAt 9 s1) * (tblAt 9 s1).w).1 ((tblAt 9 s1).first + 1
      * (tblAt 9 s1).len + 7 / Tbl.perBank (tblAt 9 s1), (tblAt 9 s1).glo * 64 + 7 % Tbl.perBank (tblAt 9 s1) * (tblAt 9 s1).w).2
      s1).valid = true ∧ bankRetired ((tblAt 9 s1).first + 1 * (tblAt 9 s1).len + 7 / Tbl.perBank (tblAt 9 s1), (tblAt 9 s1).glo *
      64 + 7 % Tbl.perBank (tblAt 9 s1) * (tblAt 9 s1).w).1 s1 = false) ∧
    (tblVisible 5 9 s1 = true ∧ (tblAt 9 s1).glo ≤ (tblAt 9 s1).ghi ∧ 2 * (tblAt 9 s1).w < List.length [1, 2, 3] ∧ List.length [1, 2,
      3] ≤ 8) := by
  refine ⟨?_, ?_, ?_, ?_, ?_, ?_⟩ <;> decide +kernel

theorem test_MatchTables_2 :
    (tblVisible 5 9 s1 = true ∧ (tblAt 9 s1).glo ≤ (tblAt 9 s1).ghi ∧ 255 < Tbl.entries (tblAt 9 s1) ∧ List.length [7, 9] = 2 * (tblAt
      9 s1).w ∧ List.length [243, 1] = 2 * (tblAt 9 s1).w ∧ (∃ r < (tblAt 9 s1).reps, bankRetired ((tblAt 9 s1).first + r * (tblAt 9
      s1).len + 255 / Tbl.perBank (tblAt 9 s1), (tblAt 9 s1).glo * 64 + 255 % Tbl.perBank (tblAt 9 s1) * (tblAt 9 s1).w).1 s1 =
      false)) ∧
    (tblVisible 5 9 s1 = true ∧ (tblAt 9 s1).glo ≤ (tblAt 9 s1).ghi ∧ 130 < Tbl.entries (tblAt 9 s1) ∧ (∃ r < (tblAt 9 s1).reps,
      bankRetired ((tblAt 9 s1).first + r * (tblAt 9 s1).len + 130 / Tbl.perBank (tblAt 9 s1), (tblAt 9 s1).glo * 64 + 130 %
      Tbl.perBank (tblAt 9 s1) * (tblAt 9 s1).w).1 s1 = false)) ∧
    (tblVisible 5 9 s3 = true ∧ (tblAt 9 s3).glo ≤ (tblAt 9 s3).ghi ∧ 7 < Tbl.entries (tblAt 9 s3) ∧ 0 < (tblAt 9 s3).reps ∧
      bankRetired ((tblAt 9 s3).first + 0 * (tblAt 9 s3).len + 7 / Tbl.perBank (tblAt 9 s3), (tblAt 9 s3).glo * 64 + 7 % Tbl.perBank
      (tblAt 9 s3) * (tblAt 9 s3).w).1 s3 = false) ∧
    (tblVisible 5 9 s1 = true ∧ (tblAt 9 s1).glo ≤ (tblAt 9 s1).ghi ∧ Tbl.entries (tblAt 9 s1) ≤ 256) ∧
    (tblVisible 5 9 s4 = true ∧ (tblAt 9 s4).glo ≤ (tblAt 9 s4).ghi ∧ 130 < Tbl.entries (tblAt 9 s4) ∧ (∀ r < (tblAt 9 s4).reps,
      bankRetired ((tblAt 9 s4).first + r * (tblAt 9 s4).len + 130 / Tbl.perBank (tblAt 9 s4), (tblAt 9 s4).glo * 64 + 130 %
      Tbl.perBank (tblAt 9 s4) * (tblAt 9 s4).w).1 s4 = true)) := by
  refine ⟨?_, ?_, ?_, ?_, ?_⟩ <;> decide +kernel

theorem test_MatchBanks :
    (tblVisible 6 9 s1 = false ∧ 1 ≤ List.length [1] ∧ List.length [1] ≤ 8) ∧
    (7 < 256 ∧ tblMapOk 7 (tm 0 15 1 1 3 2 127 0) s1 = true ∧ (tblOf (tm 0 15 1 1 3 2 127 0)).valid = true) ∧
    (7 < 256 ∧ tblMapOk 7 (tm 0 3 4 1 3 2 127 0) s1 = true ∧ (tblOf (tm 0 3 4 1 3 2 127 0)).valid = true) ∧
    (9 < 256 ∧ (tblAt 9 s1).valid = true ∧ (tblOf 0).valid = false) ∧
    (7 < 256 ∧ (tblOf (tm 0 15 2 1 3 2 127 0)).valid = true ∧ (16 < (tblOf (tm 0 15 2 1 3 2 127 0)).first + (tblOf (tm 0 15 2 1 3 2 127 0)).reps *
      (tblOf (tm 0 15 2 1 3 2 127 0)).len ∨ (tblOf (tm 0 15 2 1 3 2 127 0)).ghi < (tblOf (tm 0 15 2 1 3 2 127 0)).glo ∨ ∃ b ∈ Tbl.allBanks (tblOf
      (tm 0 15 2 1 3 2 127 0)), bankRetired b s1 = true ∨ widthUnits (fget (Fl.MAT_CFG_WIDTH b) s1) ≠ (tblOf (tm 0 15 2 1 3 2 127 0)).w)) ∧
    (7 < 256 ∧ (tblOf (tm 0 12 1 1 3 2 1 0)).valid = true ∧ (16 < (tblOf (tm 0 12 1 1 3 2 1 0)).first + (tblOf (tm 0 12 1 1 3 2 1 0)).reps * (tblOf
      (tm 0 12 1 1 3 2 1 0)).len ∨ (tblOf (tm 0 12 1 1 3 2 1 0)).ghi < (tblOf (tm 0 12 1 1 3 2 1 0)).glo ∨ ∃ b ∈ Tbl.allBanks (tblOf (tm 0 12 1 1 3
      2 1 0)), bankRetired b s1 = true ∨ widthUnits (fget (Fl.MAT_CFG_WIDTH b) s1) ≠ (tblOf (tm 0 12 1 1 3 2 1 0)).w)) ∧
    (5 < 16 ∧ SMap.sorted clr.mat.rows = true) ∧
    (bankUp 5 s1 = true ∧ 7 < 8192 ∧ 7 % widthUnits (fget (Fl.MAT_CFG_WIDTH 5) s1) = 0) := by
  refine ⟨?_, ?_, ?_, ?_, ?_, ?_, ?_, ?_⟩ <;> decide +kernel

theorem test_MatchBanks_2 :
    (bankUp 5 wrt = true ∧ 7 < 8192 ∧ 7 % widthUnits (fget (Fl.MAT_CFG_WIDTH 5) wrt) = 0 ∧ (∀ i < widthUnits (fget (Fl.MAT_CFG_WIDTH 5) wrt), 8192
      * 5 + 7 + i ∈ wrt.mat.written)) ∧
    (bankUp 5 wrt = true ∧ 8 < 8192 ∧ 8 % widthUnits (fget (Fl.MAT_CFG_WIDTH 5) wrt) = 0 ∧ (∃ i < widthUnits (fget (Fl.MAT_CFG_WIDTH 5) wrt), 8192
      * 5 + 8 + i ∉ wrt.mat.written)) ∧
    (bankUp 5 s5 = true ∧ 7 < 8192 ∧ 7 % widthUnits (fget (Fl.MAT_CFG_WIDTH 5) s5) ≠ 0) ∧
    (bankUp 5 wrt = true ∧ 8191 < 8192 ∧ List.length (List.replicate 16 171 ++ List.replicate 16 240) = 32 ∧ (camRow 5 (8191 / widthUnits (fget
      (Fl.MAT_CFG_WIDTH 5) wrt) * widthUnits (fget (Fl.MAT_CFG_WIDTH 5) wrt)) wrt).valid = false) ∧
    (bankUp 5 s1 = true ∧ 7 < 8192 ∧ (camRow 5 (7 / widthUnits (fget (Fl.MAT_CFG_WIDTH 5) s1) * widthUnits (fget (Fl.MAT_CFG_WIDTH 5) s1))
      s1).valid = true) ∧
    (bankUp 5 s1 = true ∧ s1.mat.faulty = []) ∧
    (bankUp 5 t1 = true ∧ t1.mat.faulty = [] ∧ validTables t1 = [9] ∧ (tblAt 9 t1).w = 1 ∧ (tblAt 9 t1).len = 1 ∧ (tblAt 9 t1).reps = 1 ∧ (tblAt 9
      t1).first = 5 ∧ (tblAt 9 t1).glo ≤ 7 / 64 ∧ 7 / 64 ≤ (tblAt 9 t1).ghi) ∧
    (bankUp 5 s6 = true ∧ (true = true ∨ rowDue 5 (7 % 8192) s6 = true) ∧ 0 < fget (Fl.MAT_REPAIR_ROWS_FREE 5) s6) := by
  refine ⟨?_, ?_, ?_, ?_, ?_, ?_, ?_, ?_⟩ <;> decide +kernel

theorem test_MatchBanks_3 :
    (bankUp 5 s7 = true ∧ (false = true ∨ rowDue 5 (7 % 8192) s7 = true) ∧ 0 < fget (Fl.MAT_REPAIR_ROWS_FREE 5) s7) ∧
    (bankUp 5 s8 = true ∧ (false = true ∨ rowDue 5 (7 % 8192) s8 = true) ∧ fget (Fl.MAT_REPAIR_ROWS_FREE 5) s8 = 0) ∧
    (rowDue 5 (7 % 8192) s9 = false) ∧
    (bankUp 5 s10 = true ∧ colDue 5 3 s10 = true ∧ 0 < fget (Fl.MAT_REPAIR_COLS_FREE 5) s10) ∧
    (bankUp 5 s8 = true ∧ colDue 5 3 s8 = true ∧ fget (Fl.MAT_REPAIR_COLS_FREE 5) s8 = 0) ∧
    (colDue 5 3 s11 = false) := by
  refine ⟨?_, ?_, ?_, ?_, ?_, ?_⟩ <;> decide +kernel

end Match

namespace Comp

def nhdr (meth lvl n pay : Nat) (o : List Byte) : List Byte :=
  let h := leBytes 1 meth ++ leBytes 1 lvl ++ leBytes 2 (n - 1) ++ leBytes 2 (pay - 1) ++ leBytes 4 0 ++ leBytes 4 (crc32c o).toNat
  h ++ leBytes 2 ((crc32c h).toNat % 65536)
def msg : List Byte := [1, 2, 3, 4, 5]
def nat5 : List Byte := nhdr 1 1 5 5 msg ++ msg ++ [0, 0, 0]
/-- A descriptor at 4096 of this operation, whose source of `n` bytes is at 8192 and whose destination of `m` bytes at 12288. -/
def cd (op flags n m : Nat) (decl : Nat) : List Byte :=
  leBytes 1 op ++ leBytes 1 0 ++ leBytes 1 1 ++ leBytes 1 flags ++ leBytes 1 0 ++ leBytes 3 0 ++ leBytes 8 0 ++ leBytes 8 8192 ++ leBytes 8 n ++
    leBytes 8 12288 ++ leBytes 8 m ++ leBytes 8 decl ++ leBytes 8 0
def cs (op flags n m decl : Nat) (src : List Byte) : State := wrBytes 8192 src (wrBytes 4096 (cd op flags n m decl) up)
def bsOf (s : State) : List Byte := rdBytes 4096 128 s
def dOf (s : State) : CDesc := (cdescOf 4096 (bsOf s)).getD ⟨0, 0, 0, false, false, false, false, false, false, 0, 0, 0, 0, 0, 0, none, 0, 0⟩
def none64 : Nat := 2 ^ 64 - 1
def c1 : State := cs 0 2 5 64 none64 msg
def s1 : State := cs 0 2 5 64 5 msg
def c2 : State := cs 0 2 5 10 none64 msg
def c3 (op : Nat) (extra : Nat) (m : Nat) : State := cs op 2 (24 + extra) m none64 (nat5 ++ List.replicate extra 0)
def ee : Ended := ⟨msg, 24, (crc32c msg).toNat, true, true⟩
def s3 : State := c3 1 0 64
def s4 : State := c3 1 20 64
def s5 : State := c3 1 0 3
def s6 : State := c3 2 0 0
def bad5 : List Byte := nhdr 1 1 5 5 msg ++ [1, 2, 3, 4, 9] ++ [0, 0, 0]
def c4 : State := cs 2 2 24 0 none64 bad5
def c5 (op : Nat) : State := wrBytes 4101 [1] (cs op 2 5 64 none64 msg)
def s7 : State := c5 0
def s8 : State := c5 1
def s9 : State := c5 2
def s10 : State := c5 7
def dead (l : List Nat) (s : State) : State := sets (l.map (fun i => (Fl.CMP_STATUS_STATE i, 3))) s
def s11 : State := dead [0, 1, 2, 3] (c3 1 0 64)
def hurt (t : Nat) : State := { up with tick := 20000001, comp := { up.comp with faults := [(0, t)] } }
def s12 : State := hurt 10000001
def s13 : State := hurt 10000000
def s14 : State := dead [0, 1, 3] up
def s15 : State := dead [2] up

theorem test_Compression :
    (4096 + 128 ≤ 67108864 ∧ readSpace Space.phys 4096 128 c1 = some (bsOf c1) ∧ cdescOf 4096 (bsOf c1) = some (dOf c1) ∧ compServer 1 c1 = some 1
      ∧ (dOf c1).ctx = 0 ∧ (dOf c1).srcList = false ∧ (dOf c1).dstList = false ∧ readSpace Space.phys (dOf c1).src (dOf c1).srcLen c1 = some msg ∧
      (dOf c1).dst + (dOf c1).dstLen ≤ 67108864 ∧ ((dOf c1).dst + (dOf c1).dstLen ≤ 4096 ∨ 4096 + 128 ≤ (dOf c1).dst) ∧ (dOf c1).op = 0 ∧
      compOutputOk (dOf c1) msg [] nat5 = true ∧ ((dOf c1).decl = none ∨ (dOf c1).decl = some (List.length msg)) ∧ List.length nat5 ≤ (dOf
      c1).dstLen) ∧
    (4096 + 128 ≤ 67108864 ∧ readSpace Space.phys 4096 128 s1 = some (bsOf (cs 0 2 5 64 5 msg)) ∧ cdescOf 4096 (bsOf (cs 0 2 5 64 5 msg)) = some
      (dOf (cs 0 2 5 64 5 msg)) ∧ compServer 1 s1 = some 1 ∧ (dOf (cs 0 2 5 64 5 msg)).ctx = 0 ∧ (dOf (cs 0 2 5 64 5 msg)).srcList = false ∧
      (dOf (cs 0 2 5 64 5 msg)).dstList = false ∧ readSpace Space.phys (dOf (cs 0 2 5 64 5 msg)).src (dOf (cs 0 2 5 64 5 msg)).srcLen s1 = some
      msg ∧ (dOf (cs 0 2 5 64 5 msg)).dst + (dOf (cs 0 2 5 64 5 msg)).dstLen ≤ 67108864 ∧ ((dOf (cs 0 2 5 64 5 msg)).dst + (dOf (cs 0 2 5 64 5
      msg)).dstLen ≤ 4096 ∨ 4096 + 128 ≤ (dOf (cs 0 2 5 64 5 msg)).dst) ∧ (dOf (cs 0 2 5 64 5 msg)).op = 0 ∧ compOutputOk (dOf (cs 0 2 5 64 5 msg))
      msg [] nat5 = true ∧ ((dOf (cs 0 2 5 64 5 msg)).decl = none ∨ (dOf (cs 0 2 5 64 5 msg)).decl = some (List.length msg)) ∧ List.length nat5 ≤
      (dOf (cs 0 2 5 64 5 msg)).dstLen) ∧
    (4096 + 128 ≤ 67108864 ∧ readSpace Space.phys 4096 128 c2 = some (bsOf c2) ∧ cdescOf 4096 (bsOf c2) = some (dOf c2) ∧ compServer 1 c2 = some 1
      ∧ (dOf c2).ctx = 0 ∧ (dOf c2).srcList = false ∧ (dOf c2).dstList = false ∧ readSpace Space.phys (dOf c2).src (dOf c2).srcLen c2 = some msg ∧
      (dOf c2).dst + (dOf c2).dstLen ≤ 67108864 ∧ ((dOf c2).dst + (dOf c2).dstLen ≤ 4096 ∨ 4096 + 128 ≤ (dOf c2).dst) ∧ (dOf c2).op = 0 ∧
      compOutputOk (dOf c2) msg [] nat5 = true ∧ ((dOf c2).decl = none ∨ (dOf c2).decl = some (List.length msg)) ∧ (dOf c2).dstLen < List.length
      nat5) ∧
    (4096 + 128 ≤ 67108864 ∧ readSpace Space.phys 4096 128 s3 = some (bsOf (c3 1 0 64)) ∧ cdescOf 4096 (bsOf (c3 1 0 64)) = some (dOf (c3 1 0
      64)) ∧ compServer 1 s3 = some 1 ∧ (dOf (c3 1 0 64)).ctx = 0 ∧ (dOf (c3 1 0 64)).srcList = false ∧ (dOf (c3 1 0 64)).dstList = false ∧
      readSpace Space.phys (dOf (c3 1 0 64)).src (dOf (c3 1 0 64)).srcLen s3 = some nat5 ∧ (dOf (c3 1 0 64)).dst + (dOf (c3 1 0 64)).dstLen ≤
      67108864 ∧ ((dOf (c3 1 0 64)).dst + (dOf (c3 1 0 64)).dstLen ≤ 4096 ∨ 4096 + 128 ≤ (dOf (c3 1 0 64)).dst) ∧ expandFormat (dOf (c3 1 0
      64)).format nat5 = Expanded.ended ee ∧ ee.used ≤ List.length nat5 ∧ ee.checkOk = true ∧ ee.lenOk = true ∧ ((dOf (c3 1 0 64)).decl = none ∨
      (dOf (c3 1 0 64)).decl = some (List.length ee.out)) ∧ (dOf (c3 1 0 64)).op = 1 ∧ List.length ee.out ≤ (dOf (c3 1 0 64)).dstLen) ∧
    (4096 + 128 ≤ 67108864 ∧ readSpace Space.phys 4096 128 s4 = some (bsOf (c3 1 20 64)) ∧ cdescOf 4096 (bsOf (c3 1 20 64)) = some (dOf (c3 1 20
      64)) ∧ compServer 1 s4 = some 1 ∧ (dOf (c3 1 20 64)).ctx = 0 ∧ (dOf (c3 1 20 64)).srcList = false ∧ (dOf (c3 1 20 64)).dstList = false ∧
      readSpace Space.phys (dOf (c3 1 20 64)).src (dOf (c3 1 20 64)).srcLen s4 = some (nat5 ++ List.replicate 20 0) ∧ (dOf (c3 1 20 64)).dst +
      (dOf (c3 1 20 64)).dstLen ≤ 67108864 ∧ ((dOf (c3 1 20 64)).dst + (dOf (c3 1 20 64)).dstLen ≤ 4096 ∨ 4096 + 128 ≤ (dOf (c3 1 20 64)).dst) ∧
      expandFormat (dOf (c3 1 20 64)).format (nat5 ++ List.replicate 20 0) = Expanded.ended ee ∧ ee.used ≤ List.length (nat5 ++ List.replicate 20
      0) ∧ ee.checkOk = true ∧ ee.lenOk = true ∧ ((dOf (c3 1 20 64)).decl = none ∨ (dOf (c3 1 20 64)).decl = some (List.length ee.out)) ∧ (dOf (c3
      1 20 64)).op = 1 ∧ List.length ee.out ≤ (dOf (c3 1 20 64)).dstLen) ∧
    (4096 + 128 ≤ 67108864 ∧ readSpace Space.phys 4096 128 s5 = some (bsOf (c3 1 0 3)) ∧ cdescOf 4096 (bsOf (c3 1 0 3)) = some (dOf (c3 1 0 3))
      ∧ compServer 1 s5 = some 1 ∧ (dOf (c3 1 0 3)).ctx = 0 ∧ (dOf (c3 1 0 3)).srcList = false ∧ (dOf (c3 1 0 3)).dstList = false ∧ readSpace
      Space.phys (dOf (c3 1 0 3)).src (dOf (c3 1 0 3)).srcLen s5 = some nat5 ∧ (dOf (c3 1 0 3)).dst + (dOf (c3 1 0 3)).dstLen ≤ 67108864 ∧ ((dOf
      (c3 1 0 3)).dst + (dOf (c3 1 0 3)).dstLen ≤ 4096 ∨ 4096 + 128 ≤ (dOf (c3 1 0 3)).dst) ∧ expandFormat (dOf (c3 1 0 3)).format nat5 =
      Expanded.ended ee ∧ ee.used ≤ List.length nat5 ∧ ee.checkOk = true ∧ ee.lenOk = true ∧ ((dOf (c3 1 0 3)).decl = none ∨ (dOf (c3 1 0 3)).decl
      = some (List.length ee.out)) ∧ (dOf (c3 1 0 3)).op = 1 ∧ (dOf (c3 1 0 3)).dstLen < List.length ee.out) ∧
    (4096 + 128 ≤ 67108864 ∧ readSpace Space.phys 4096 128 s6 = some (bsOf (c3 2 0 0)) ∧ cdescOf 4096 (bsOf (c3 2 0 0)) = some (dOf (c3 2 0 0))
      ∧ compServer 1 s6 = some 1 ∧ (dOf (c3 2 0 0)).ctx = 0 ∧ (dOf (c3 2 0 0)).srcList = false ∧ (dOf (c3 2 0 0)).dstList = false ∧ readSpace
      Space.phys (dOf (c3 2 0 0)).src (dOf (c3 2 0 0)).srcLen s6 = some nat5 ∧ (dOf (c3 2 0 0)).dst + (dOf (c3 2 0 0)).dstLen ≤ 67108864 ∧ ((dOf
      (c3 2 0 0)).dst + (dOf (c3 2 0 0)).dstLen ≤ 4096 ∨ 4096 + 128 ≤ (dOf (c3 2 0 0)).dst) ∧ expandFormat (dOf (c3 2 0 0)).format nat5 =
      Expanded.ended ee ∧ ee.used ≤ List.length nat5 ∧ ee.checkOk = true ∧ ee.lenOk = true ∧ ((dOf (c3 2 0 0)).decl = none ∨ (dOf (c3 2 0 0)).decl
      = some (List.length ee.out)) ∧ (dOf (c3 2 0 0)).op = 2) := by
  refine ⟨?_, ?_, ?_, ?_, ?_, ?_, ?_⟩ <;> decide +kernel

theorem test_Compression_2 :
    (4096 + 128 ≤ 67108864 ∧ readSpace Space.phys 4096 128 c4 = some (bsOf c4) ∧ cdescOf 4096 (bsOf c4) = some (dOf c4) ∧ compServer 1 c4 = some 1
      ∧ (dOf c4).ctx = 0 ∧ (dOf c4).srcList = false ∧ (dOf c4).dstList = false ∧ readSpace Space.phys (dOf c4).src (dOf c4).srcLen c4 = some bad5 ∧
      (dOf c4).dst + (dOf c4).dstLen ≤ 67108864 ∧ ((dOf c4).dst + (dOf c4).dstLen ≤ 4096 ∨ 4096 + 128 ≤ (dOf c4).dst) ∧ expandFormat (dOf
      c4).format bad5 = Expanded.ended
      { out := [1, 2, 3, 4, 9], used := ee.used, chk := BitVec.toNat (crc32c [1, 2, 3, 4, 9]), checkOk := false, lenOk := ee.lenOk : Ended } ∧
      { out := [1, 2, 3, 4, 9], used := ee.used, chk := BitVec.toNat (crc32c [1, 2, 3, 4, 9]), checkOk := false, lenOk := ee.lenOk : Ended }.checkOk
      = false ∧ (dOf c4).decl = none ∧ (dOf c4).op = 2) ∧
    (4096 + 128 ≤ 67108864 ∧ readSpace Space.phys 4096 128 c1 = some (bsOf c1) ∧ cdescOf 4096 (bsOf c1) = some (dOf c1) ∧ compServer 1 c1 = some 1
      ∧ (dOf c1).ctx = 0 ∧ (dOf c1).srcList = false ∧ (dOf c1).dstList = false ∧ readSpace Space.phys (dOf c1).src (dOf c1).srcLen c1 = some msg ∧
      (dOf c1).dst + (dOf c1).dstLen ≤ 67108864 ∧ ((dOf c1).dst + (dOf c1).dstLen ≤ 4096 ∨ 4096 + 128 ≤ (dOf c1).dst) ∧ compUp 2 c1 = true) ∧
    (4096 + 128 ≤ 67108864 ∧ readSpace Space.phys 4096 128 s7 = some (bsOf (c5 0)) ∧ cdescOf 4096 (bsOf (c5 0)) = none ∧ (fieldAt (bsOf (c5 0))
      0 1 = 0 ∨ 3 ≤ fieldAt (bsOf (c5 0)) 0 1)) ∧
    (4096 + 128 ≤ 67108864 ∧ readSpace Space.phys 4096 128 s8 = some (bsOf (c5 1)) ∧ cdescOf 4096 (bsOf (c5 1)) = none ∧ (fieldAt (bsOf (c5 1))
      0 1 = 1 ∨ 3 ≤ fieldAt (bsOf (c5 1)) 0 1)) ∧
    (4096 + 128 ≤ 67108864 ∧ readSpace Space.phys 4096 128 s9 = some (bsOf (c5 2)) ∧ cdescOf 4096 (bsOf (c5 2)) = none ∧ (fieldAt (bsOf (c5 2))
      0 1 = 2 ∨ 3 ≤ fieldAt (bsOf (c5 2)) 0 1)) ∧
    (4096 + 128 ≤ 67108864 ∧ readSpace Space.phys 4096 128 s10 = some (bsOf (c5 7)) ∧ cdescOf 4096 (bsOf (c5 7)) = none ∧ (fieldAt (bsOf (c5 7))
      0 1 = 2 ∨ 3 ≤ fieldAt (bsOf (c5 7)) 0 1)) ∧
    (4096 + 128 ≤ 67108864 ∧ readSpace Space.phys 4096 128 s11 = some (bsOf (c3 1 0 64)) ∧ cdescOf 4096 (bsOf (c3 1 0 64)) = some (dOf (c3 1 0
      64)) ∧ (∀ i < 4, compUp i s11 = false) ∧ (dOf (c3 1 0 64)).op = 1) := by
  refine ⟨?_, ?_, ?_, ?_, ?_, ?_, ?_⟩ <;> decide +kernel

theorem test_Compression_3 :
    ((∀ (k : ℕ), SMap.find up.comp.faults 3 = some k → k + 10000000 < up.tick) ∧ 4096 + 128 ≤ 67108864 ∧ compUp 3 up = true) ∧
    ((∀ (k : ℕ), SMap.find s13.comp.faults 0 = some k → k + 10000000 < s13.tick) ∧ 4096 + 128 ≤ 67108864 ∧ compUp 0 s13 = true) ∧
    (4096 + 128 ≤ 67108864 ∧ compUp 0 s12 = true ∧ (∀ i < 4, i ≠ 0 → compUp i s12 = true) ∧ SMap.find s12.comp.faults 0 = some 10000001 ∧
      s12.tick ≤ 10000001 + 10000000) ∧
    (4096 + 128 ≤ 67108864 ∧ compUp 3 up = true ∧ (∀ i < 4, i ≠ 3 → compUp i up = true)) ∧
    (4096 + 128 ≤ 67108864 ∧ compUp 2 s14 = true ∧ (∀ i < 4, i ≠ 2 → fget (Fl.CMP_STATUS_STATE i) s14 = 3)) ∧
    (4096 + 128 ≤ 67108864 ∧ compUp 2 up = true ∧ 164 ≠ 165) ∧
    (4096 + 128 ≤ 67108864 ∧ compUp 2 s15 = false) := ⟨⟨eachSome_of (by decide +kernel), by decide +kernel⟩, ⟨eachSome_of (by decide +kernel), by decide +kernel⟩, by decide +kernel, by decide +kernel,
    by decide +kernel, by decide +kernel, by decide +kernel⟩

end Comp

namespace Digest

/-- Context 7, owned by agent 3, in this state, with this declared length, plain SHA-256 or HMAC. -/
def dg (stt alg hm : Nat) (decl : Word) (x : DigCtx) : State :=
  sets [(Fl.DIG_CTX_STATUS_STATE 7, stt), (Fl.DIG_CTX_STATUS_OWNER 7, 3), (Fl.DIG_CTX_CTRL_ALG 7, alg), (Fl.DIG_CTX_CTRL_HMAC 7, hm), (Fl.DIG_CTX_BLOB_ADDR 7, 8192)]
    (wr (Reg.DIG_CTX_DECL 7) decl { up with dig := { up.dig with ctxs := [(7, x)] } })
def nod : Word := BitVec.allOnes 64
def xm (m : List Byte) (h : Option Word) : DigCtx := { DigCtx.fresh with msg := m, held := h, key := [9] }
def s1 : State := dg 1 0 0 nod DigCtx.fresh
def s2 : State := sets [(Fl.DIG_CFG_CLAIM_MAX, 0)] up
def s3 : State := dg 2 0 0 nod DigCtx.fresh
def s4 : State := dg 3 0 0 nod (xm [1] none)
def s5 : State := dg 1 0 0 nod { DigCtx.fresh with keyRegs := [5] }
def s6 : State := dg 2 0 0 nod (xm [1, 2] none)
def s7 : State := dg 2 0 0 3 (xm [] none)
def s8 : State := dg 2 2 1 8 (xm [] none)
def s9 : State := dg 2 0 0 100 (xm (List.replicate 56 1) none)
def s10 : State := dg 2 4 0 100 (xm (List.replicate 56 1) none)
def s11 : State := dg 2 0 0 nod (xm [] none)
def s12 : State := dg 2 0 0 nod (xm [] (some 7))
def s13 : State := sets [(Fl.DIG_CTX_STATUS_BUSY 7, 1)] (dg 2 0 0 nod (xm [] (some 7)))
def s14 : State := dg 2 3 0 nod (xm [1] (some 7))
def s15 : State := dg 2 1 1 nod (xm [1] none)
def s16 : State := dg 2 1 1 9 (xm [1] none)
def s17 : State := dg 2 1 1 nod (xm [1] (some 3))
def blb : DigBlob := ⟨5 :: List.replicate 511 0, 1, true, [8], [1, 2], some 3, 0⟩
def bst : State := wrBytes 8192 [5] { dg 1 1 1 nod DigCtx.fresh with dig := { (dg 1 1 1 nod DigCtx.fresh).dig with blobs := [blb] } }
def s18 : State := dg 1 1 1 nod DigCtx.fresh
def lb (alg fl : Nat) : List Byte := leBytes 1 alg ++ leBytes 1 fl ++ leBytes 6 0 ++ leBytes 8 0 ++ leBytes 8 8192 ++ leBytes 8 3 ++ leBytes 8 (2 ^ 64 - 1) ++ leBytes 8 0 ++ leBytes 8 12288 ++ leBytes 8 0
def ls (alg fl : Nat) : State := wrBytes 8192 [0x61, 0x62, 0x63] (wrBytes 4096 (lb alg fl) up)
def s19 : State := ls 0 3
def s20 : State := ls 1 3
def s21 : State := sets ((List.range 10).map (fun i => (Fl.DIG_CTX_STATUS_STATE (6 + i), 1))) (ls 0 3)
def s22 : State := ls 5 3
def ky (k : Keys) : State := { io [] with keys := k, nv := { (io []).nv with ns := [(1, { ns1 with keyEntry := 3 })] } }
def k0 : Keys := { Keys.reset with store := [(0, 0), (3, 5)], slots := [(0, 0)], lru := [0], nextKey := 6 }
def s23 : State := ky { k0 with slots := [(0, 0), (9, 3)] }
def s24 : State := ky k0
/-- The owner of the namespace may hold one slot, and slot 9 is it. -/
def oneSlot : State :=
  let u := ky { k0 with slots := [(0, 0), (9, 4)] }
  { u with
    nv := { u.nv with ns := [(1, { ns1 with keyEntry := 3 }), (2, { ns1 with keyEntry := 4 })] }
    ten := { u.ten with res := [(0, ⟨32, 33, 1024, 1, 16, 16, 0xFF, false, 64, 64, 16, 4, 256⟩)] } }
def s25 : State := ky { k0 with waiting := [3, 4] }
def s26 : State := ky { k0 with slots := [(0, 0), (9, 3)], lru := [9, 0] }
def bz : State := { ky { k0 with slots := [(0, 0), (9, 3)], lru := [9, 0] } with media := { up.media with chans := [(2, { Chan.fresh with dies := [(4, mkOp .read .unit 1 4 0 1 (mapKey 1 3))] })] } }
def alm : State := sets [(Fl.KEY_STATUS_ALARM, 1)] (ky k0)
def s27 : State := { dg 2 0 0 nod (xm [] (some 7)) with keys := k0 }
def s28 : State := sets [(Fl.AON_MODE_CUR, 3)] up

theorem test_DigestEngine :
    (7 < 16 ∧ pdOn 26 up = true ∧ 3 < 256 ∧ 6 ≤ 7 ∧ digState 7 up = 0 ∧ claimed up < fget Fl.DIG_CFG_CLAIM_MAX up) ∧
    (7 < 16 ∧ pdOn 26 s1 = true ∧ 3 < 256 ∧ 6 ≤ 7 ∧ (digState 7 s1 ≠ 0 ∨ fget Fl.DIG_CFG_CLAIM_MAX s1 ≤ claimed s1)) ∧
    (7 < 16 ∧ pdOn 26 s2 = true ∧ 3 < 256 ∧ 6 ≤ 7 ∧ (digState 7 s2 ≠ 0 ∨ fget Fl.DIG_CFG_CLAIM_MAX s2 ≤ claimed s2)) ∧
    (5 < 16 ∧ pdOn 26 up = true ∧ 16 < 256 ∧ 5 < 6) ∧
    (7 < 16 ∧ pdOn 26 s3 = true ∧ 4 < 256 ∧ ownsCtx 7 4 s3 = false) ∧
    (7 < 16 ∧ pdOn 26 s4 = true ∧ 3 < 256 ∧ ownsCtx 7 3 s4 = true ∧ 6 ≤ 7 ∧ digState 7 s4 ≠ 2) ∧
    (7 < 16 ∧ pdOn 26 s5 = true ∧ 3 < 256 ∧ ownsCtx 7 3 s5 = true ∧ 9 % 8 < 5 ∧ digState 7 s5 ≠ 2 ∧ digDecl 7 s5 ≠ some 0) ∧
    (0 < 16 ∧ pdOn 26 up = true ∧ 2 < 256 ∧ ownsCtx 0 2 up = true ∧ 4 % 8 < 5 ∧ digState 0 up ≠ 2 ∧ digDecl 0 up ≠ some 0) := by
  refine ⟨?_, ?_, ?_, ?_, ?_, ?_, ?_, ?_⟩ <;> decide +kernel

theorem test_DigestEngine_2 :
    (7 < 16 ∧ pdOn 26 s6 = true ∧ 3 < 256 ∧ ownsCtx 7 3 s6 = true ∧ 768 % 8 < 5 ∧ digState 7 s6 = 2) ∧
    (7 < 16 ∧ pdOn 26 s7 = true ∧ 3 < 256 ∧ ownsCtx 7 3 s7 = true ∧ digState 7 s7 = 2 ∧ fget (Fl.DIG_CTX_STATUS_BUSY 7) s7 = 0 ∧
      digDecl 7 s7 = some 3 ∧ List.length (digCtx 7 s7).msg ≤ 3 ∧ 3 ≤ List.length (digCtx 7 s7).msg + 8) ∧
    (7 < 16 ∧ pdOn 26 s8 = true ∧ 3 < 256 ∧ ownsCtx 7 3 s8 = true ∧ digState 7 s8 = 2 ∧ fget (Fl.DIG_CTX_STATUS_BUSY 7) s8 = 0 ∧
      digDecl 7 s8 = some 8 ∧ List.length (digCtx 7 s8).msg ≤ 8 ∧ 8 ≤ List.length (digCtx 7 s8).msg + 8) ∧
    (7 < 16 ∧ pdOn 26 s9 = true ∧ 3 < 256 ∧ ownsCtx 7 3 s9 = true ∧ digState 7 s9 = 2 ∧ fget (Fl.DIG_CTX_STATUS_BUSY 7) s9 = 0 ∧
      digDecl 7 s9 = some 100 ∧ List.length (digCtx 7 s9).msg + 8 < 100) ∧
    (7 < 16 ∧ pdOn 26 s10 = true ∧ 3 < 256 ∧ ownsCtx 7 3 s10 = true ∧ digState 7 s10 = 2 ∧ fget (Fl.DIG_CTX_STATUS_BUSY 7) s10 = 0 ∧
      digDecl 7 s10 = some 100 ∧ List.length (digCtx 7 s10).msg + 8 < 100) ∧
    (7 < 16 ∧ pdOn 26 s11 = true ∧ 3 < 256 ∧ ownsCtx 7 3 s11 = true ∧ digState 7 s11 = 2 ∧ fget (Fl.DIG_CTX_STATUS_BUSY 7) s11 = 0 ∧
      digDecl 7 s11 = none ∧ (digCtx 7 s11).held = none) ∧
    (7 < 16 ∧ pdOn 26 s12 = true ∧ 3 < 256 ∧ ownsCtx 7 3 s12 = true ∧ digState 7 s12 = 2 ∧ fget (Fl.DIG_CTX_STATUS_BUSY 7) s12 = 0 ∧
      digDecl 7 s12 = none ∧ (digCtx 7 s12).held = some 7) ∧
    (7 < 16 ∧ pdOn 26 s13 = true ∧ 3 < 256 ∧ ownsCtx 7 3 s13 = true ∧ digState 7 s13 = 2 ∧ fget (Fl.DIG_CTX_STATUS_BUSY 7) s13 = 1) := by
  refine ⟨?_, ?_, ?_, ?_, ?_, ?_, ?_, ?_⟩ <;> decide +kernel

theorem test_DigestEngine_3 :
    (7 < 16 ∧ pdOn 26 s12 = true ∧ 3 < 256 ∧ ownsCtx 7 3 s12 = true) ∧
    (7 < 16 ∧ pdOn 26 s1 = true ∧ 3 < 256 ∧ ownsCtx 7 3 s1 = true ∧ 15 < 16 ∧ 15 < List.length (digCtx 7 s1).keyRegs ∧ digState 7 s1 ≠
      2) ∧
    (7 < 16 ∧ pdOn 26 s14 = true ∧ 3 < 256 ∧ ownsCtx 7 3 s14 = true ∧ (3 + 256 * 5) % 8 = fget (Fl.DIG_CTX_CTRL_ALG 7) s14 ∧ (3 + 256 * 5)
      % 8 < 5 ∧ digState 7 s14 = 2 ∧ digDecl 7 s14 = none) ∧
    (7 < 16 ∧ pdOn 26 s15 = true ∧ 3 < 256 ∧ ownsCtx 7 3 s15 = true ∧ 1 % 8 = fget (Fl.DIG_CTX_CTRL_ALG 7) s15 ∧ 1 % 8 < 5 ∧ digState 7
      s15 = 2 ∧ digDecl 7 s15 = none) ∧
    (7 < 16 ∧ pdOn 26 s16 = true ∧ 3 < 256 ∧ ownsCtx 7 3 s16 = true ∧ 1 % 8 = fget (Fl.DIG_CTX_CTRL_ALG 7) s16 ∧ 1 % 8 < 5 ∧ digState 7
      s16 = 2 ∧ digDecl 7 s16 ≠ none) ∧
    (7 < 16 ∧ pdOn 26 s16 = true ∧ 3 < 256 ∧ ownsCtx 7 3 s16 = true ∧ 4 % 8 < 5) ∧
    (4 < 16 ∧ pdOn 26 up = true ∧ 16 < 256 ∧ ownsCtx 4 16 up = true ∧ 4 % 8 < 5) ∧
    (7 < 16 ∧ pdOn 26 s17 = true ∧ 3 < 256 ∧ ownsCtx 7 3 s17 = true ∧ 1 % 8 = fget (Fl.DIG_CTX_CTRL_ALG 7) s17 ∧ 1 % 8 < 5 ∧ digState 7
      s17 = 2 ∧ fget (Fl.DIG_CTX_STATUS_BUSY 7) s17 = 0 ∧ fget (Fl.DIG_CTX_BLOB_ADDR 7) s17 / 64 * 64 + 512 ≤ 67108864) := by
  refine ⟨?_, ?_, ?_, ?_, ?_, ?_, ?_, ?_⟩ <;> decide +kernel

theorem test_DigestEngine_4 :
    (7 < 16 ∧ pdOn 26 bst = true ∧ 3 < 256 ∧ ownsCtx 7 3 bst = true ∧ 9 % 8 < 5 ∧ digState 7 bst ≠ 2 ∧ fget (Fl.DIG_CTX_STATUS_BUSY 7) bst = 0 ∧
      readSpace Space.phys (fget (Fl.DIG_CTX_BLOB_ADDR 7) bst / 64 * 64) 512 bst = some blb.image ∧ blobOf blb.image bst = some blb ∧ blb.alg = 9 %
      8 ∧ blb.hmac = (9 / 8 % 2 == 1)) ∧
    (7 < 16 ∧ pdOn 26 s18 = true ∧ 3 < 256 ∧ ownsCtx 7 3 s18 = true ∧ 9 % 8 < 5 ∧ digState 7 s18 ≠ 2 ∧ fget (Fl.DIG_CTX_STATUS_BUSY 7)
      s18 = 0 ∧ readSpace Space.phys (fget (Fl.DIG_CTX_BLOB_ADDR 7) s18 / 64 * 64) 512 s18 = some (List.replicate 512 0) ∧ blobOf
      (List.replicate 512 0) s18 = none) ∧
    (7 < 16 ∧ pdOn 26 s13 = true ∧ 3 < 256 ∧ digState 7 s13 = 2) ∧
    (7 < 16 ∧ pdOn 26 s12 = true ∧ 3 < 256) ∧
    (7 < 16 ∧ pdOn 26 s19 = true ∧ 3 < 256 ∧ letterCtx s19 = true ∧ readSpace Space.phys 4096 64 s19 = some (lb 0 3) ∧ digDescBad (lb 0 3)
      = false ∧ fieldAt (lb 0 3) 1 1 = 3 ∧ fieldAt (lb 0 3) 32 8 = 2 ^ 64 - 1 ∧ readSpace Space.phys (fieldAt (lb 0 3) 16 8) (fieldAt (lb 0 3) 24
      8) s19 = some [97, 98, 99] ∧ (fieldAt (lb 0 3) 48 8 + 64 ≤ 4096 ∨ 4096 + 64 ≤ fieldAt (lb 0 3) 48 8) ∧ fieldAt (lb 0 3) 48 8 + 64 ≤
      67108864 ∧ 4096 + 64 ≤ 67108864) ∧
    (7 < 16 ∧ pdOn 26 s20 = true ∧ 3 < 256 ∧ letterCtx s20 = true ∧ readSpace Space.phys 4096 64 s20 = some (lb 1 3) ∧ digDescBad (lb 1 3)
      = false ∧ fieldAt (lb 1 3) 1 1 = 3 ∧ fieldAt (lb 1 3) 32 8 = 2 ^ 64 - 1 ∧ readSpace Space.phys (fieldAt (lb 1 3) 16 8) (fieldAt (lb 1 3) 24
      8) s20 = some [97, 98, 99] ∧ (fieldAt (lb 1 3) 48 8 + 64 ≤ 4096 ∨ 4096 + 64 ≤ fieldAt (lb 1 3) 48 8) ∧ fieldAt (lb 1 3) 48 8 + 64 ≤
      67108864 ∧ 4096 + 64 ≤ 67108864) ∧
    (7 < 16 ∧ pdOn 26 s22 = true ∧ 3 < 256 ∧ letterCtx s22 = true ∧ readSpace Space.phys 4096 64 s22 = some (lb 5 3) ∧ digDescBad (lb 5 3)
      = true ∧ 4096 + 64 ≤ 67108864) ∧
    (7 < 16 ∧ pdOn 26 s21 = true ∧ 3 < 256 ∧ letterCtx s21 = false) := by
  refine ⟨?_, ?_, ?_, ?_, ?_, ?_, ?_, ?_⟩ <;> decide +kernel

theorem test_KeyManager :
    (pdOn 26 s23 = true ∧ nsAt 1 s23 = some
      { csi := ns1.csi, nsze := ns1.nsze, ncap := ns1.ncap, flbas := ns1.flbas, ext := ns1.ext, dps := ns1.dps, shared := ns1.shared, options := ns1.options, owner := ns1.owner, attached := ns1.attached, keyLost := ns1.keyLost, keyEntry := 3, resv := ns1.resv : Ns }
      ∧ fget Fl.KEY_STATUS_ALARM s23 = 0 ∧
      { csi := ns1.csi, nsze := ns1.nsze, ncap := ns1.ncap, flbas := ns1.flbas, ext := ns1.ext, dps := ns1.dps, shared := ns1.shared, options := ns1.options, owner := ns1.owner, attached := ns1.attached, keyLost := ns1.keyLost, keyEntry := 3, resv := ns1.resv : Ns }.keyEntry
      ∉ s23.keys.waiting ∧ (∃ p ∈ s23.keys.slots, p.2 =
      { csi := ns1.csi, nsze := ns1.nsze, ncap := ns1.ncap, flbas := ns1.flbas, ext := ns1.ext, dps := ns1.dps, shared := ns1.shared, options := ns1.options, owner := ns1.owner, attached := ns1.attached, keyLost := ns1.keyLost, keyEntry := 3, resv := ns1.resv : Ns }.keyEntry)) ∧
    (pdOn 26 s24 = true ∧ nsAt 1 s24 = some
      { csi := ns1.csi, nsze := ns1.nsze, ncap := ns1.ncap, flbas := ns1.flbas, ext := ns1.ext, dps := ns1.dps, shared := ns1.shared, options := ns1.options, owner := ns1.owner, attached := ns1.attached, keyLost := ns1.keyLost, keyEntry := 3, resv := ns1.resv : Ns }
      ∧ fget Fl.KEY_STATUS_ALARM s24 = 0 ∧
      { csi := ns1.csi, nsze := ns1.nsze, ncap := ns1.ncap, flbas := ns1.flbas, ext := ns1.ext, dps := ns1.dps, shared := ns1.shared, options := ns1.options, owner := ns1.owner, attached := ns1.attached, keyLost := ns1.keyLost, keyEntry := 3, resv := ns1.resv : Ns }.keyEntry
      ∉ s24.keys.waiting ∧ (∀ p ∈ s24.keys.slots, p.2 ≠
      { csi := ns1.csi, nsze := ns1.nsze, ncap := ns1.ncap, flbas := ns1.flbas, ext := ns1.ext, dps := ns1.dps, shared := ns1.shared, options := ns1.options, owner := ns1.owner, attached := ns1.attached, keyLost := ns1.keyLost, keyEntry := 3, resv := ns1.resv : Ns }.keyEntry)
      ∧ slotFor
      { csi := ns1.csi, nsze := ns1.nsze, ncap := ns1.ncap, flbas := ns1.flbas, ext := ns1.ext, dps := ns1.dps, shared := ns1.shared, options := ns1.options, owner := ns1.owner, attached := ns1.attached, keyLost := ns1.keyLost, keyEntry := 3, resv := ns1.resv : Ns }.keyEntry
      s24 = some 1) ∧
    (pdOn 26 s24 = true ∧ nsAt 1 s24 = some
      { csi := ns1.csi, nsze := ns1.nsze, ncap := ns1.ncap, flbas := ns1.flbas, ext := ns1.ext, dps := ns1.dps, shared := ns1.shared, options := ns1.options, owner := ns1.owner, attached := ns1.attached, keyLost := ns1.keyLost, keyEntry := 3, resv := ns1.resv : Ns }
      ∧ fget Fl.KEY_STATUS_ALARM s24 = 0 ∧
      { csi := ns1.csi, nsze := ns1.nsze, ncap := ns1.ncap, flbas := ns1.flbas, ext := ns1.ext, dps := ns1.dps, shared := ns1.shared, options := ns1.options, owner := ns1.owner, attached := ns1.attached, keyLost := ns1.keyLost, keyEntry := 3, resv := ns1.resv : Ns }.keyEntry
      ∉ s24.keys.waiting ∧ (∀ p ∈ s24.keys.slots, p.2 ≠
      { csi := ns1.csi, nsze := ns1.nsze, ncap := ns1.ncap, flbas := ns1.flbas, ext := ns1.ext, dps := ns1.dps, shared := ns1.shared, options := ns1.options, owner := ns1.owner, attached := ns1.attached, keyLost := ns1.keyLost, keyEntry := 3, resv := ns1.resv : Ns }.keyEntry)
      ∧ slotFor
      { csi := ns1.csi, nsze := ns1.nsze, ncap := ns1.ncap, flbas := ns1.flbas, ext := ns1.ext, dps := ns1.dps, shared := ns1.shared, options := ns1.options, owner := ns1.owner, attached := ns1.attached, keyLost := ns1.keyLost, keyEntry := 3, resv := ns1.resv : Ns }.keyEntry
      s24 = some 1 ∧
      { csi := ns1.csi, nsze := ns1.nsze, ncap := ns1.ncap, flbas := ns1.flbas, ext := ns1.ext, dps := ns1.dps, shared := ns1.shared, options := ns1.options, owner := ns1.owner, attached := ns1.attached, keyLost := ns1.keyLost, keyEntry := 3, resv := ns1.resv : Ns }.keyEntry
      ≠ 0 ∧ entryNs
      { csi := ns1.csi, nsze := ns1.nsze, ncap := ns1.ncap, flbas := ns1.flbas, ext := ns1.ext, dps := ns1.dps, shared := ns1.shared, options := ns1.options, owner := ns1.owner, attached := ns1.attached, keyLost := ns1.keyLost, keyEntry := 3, resv := ns1.resv : Ns }.keyEntry
      s24 = some (1,
      { csi := ns1.csi, nsze := ns1.nsze, ncap := ns1.ncap, flbas := ns1.flbas, ext := ns1.ext, dps := ns1.dps, shared := ns1.shared, options := ns1.options, owner := ns1.owner, attached := ns1.attached, keyLost := ns1.keyLost, keyEntry := 3, resv := ns1.resv : Ns })) ∧
    (pdOn 26 oneSlot = true ∧ nsAt 1 oneSlot = some
      { csi := ns1.csi, nsze := ns1.nsze, ncap := ns1.ncap, flbas := ns1.flbas, ext := ns1.ext, dps := ns1.dps, shared := ns1.shared, options := ns1.options, owner := ns1.owner, attached := ns1.attached, keyLost := ns1.keyLost, keyEntry := 3, resv := ns1.resv : Ns }
      ∧ fget Fl.KEY_STATUS_ALARM oneSlot = 0 ∧
      { csi := ns1.csi, nsze := ns1.nsze, ncap := ns1.ncap, flbas := ns1.flbas, ext := ns1.ext, dps := ns1.dps, shared := ns1.shared, options := ns1.options, owner := ns1.owner, attached := ns1.attached, keyLost := ns1.keyLost, keyEntry := 3, resv := ns1.resv : Ns }.keyEntry
      ∉ oneSlot.keys.waiting ∧ (∀ p ∈ oneSlot.keys.slots, p.2 ≠
      { csi := ns1.csi, nsze := ns1.nsze, ncap := ns1.ncap, flbas := ns1.flbas, ext := ns1.ext, dps := ns1.dps, shared := ns1.shared, options := ns1.options, owner := ns1.owner, attached := ns1.attached, keyLost := ns1.keyLost, keyEntry := 3, resv := ns1.resv : Ns }.keyEntry)
      ∧ slotFor
      { csi := ns1.csi, nsze := ns1.nsze, ncap := ns1.ncap, flbas := ns1.flbas, ext := ns1.ext, dps := ns1.dps, shared := ns1.shared, options := ns1.options, owner := ns1.owner, attached := ns1.attached, keyLost := ns1.keyLost, keyEntry := 3, resv := ns1.resv : Ns }.keyEntry
      oneSlot = none) ∧
    (pdOn 26 s25 = true ∧ s25.keys.waiting = [3, 4] ∧ 0 < 1023 ∧ 1023 < 1024 ∧ slotBusy 1023 s25 = false ∧ fget Fl.KEY_STATUS_ALARM s25
      = 0) ∧
    (pdOn 26 s24 = true ∧ 1023 < 1024 ∧ 3 ≤ 2048 ∧ (1023 ≠ 0 ∨ 3 = 0) ∧ (11 ≤ 11 ∨ 11 = 16 ∨ 11 = 17) ∧ fget Fl.KEY_STATUS_ALARM s24 = 0 ∧
      slotBusy 1023 s24 = false ∧ SMap.find s24.keys.store 3 ≠ none) := by
  refine ⟨?_, ?_, ?_, ?_, ?_, ?_⟩ <;> decide +kernel

theorem test_KeyManager_2 :
    (pdOn 26 s24 = true ∧ 0 < 1024 ∧ 0 ≤ 2048 ∧ (0 ≠ 0 ∨ 0 = 0) ∧ (17 ≤ 11 ∨ 17 = 16 ∨ 17 = 17) ∧ fget Fl.KEY_STATUS_ALARM s24 = 0 ∧ slotBusy
      0 s24 = false ∧ SMap.find s24.keys.store 0 ≠ none) ∧
    (pdOn 26 s24 = true ∧ 1 < 1024 ∧ 3 ≤ 2048 ∧ (1 ≠ 0 ∨ 3 = 0) ∧ (16 ≤ 11 ∨ 16 = 16 ∨ 16 = 17) ∧ fget Fl.KEY_STATUS_ALARM s24 = 0 ∧ slotBusy
      1 s24 = false ∧ SMap.find s24.keys.store 3 ≠ none ∧ 3 ≠ 0) ∧
    (pdOn 26 s24 = true ∧ 1 < 1024 ∧ 2048 ≤ 2048 ∧ (1 ≠ 0 ∨ 2048 = 0) ∧ (16 ≤ 11 ∨ 16 = 16 ∨ 16 = 17) ∧ fget Fl.KEY_STATUS_ALARM s24 = 0 ∧
      slotBusy 1 s24 = false ∧ SMap.find s24.keys.store 2048 = none) ∧
    (pdOn 26 s26 = true ∧ 9 < 1024 ∧ 3 ≤ 2048 ∧ (9 ≠ 0 ∨ 3 = 0) ∧ (16 ≤ 11 ∨ 16 = 16 ∨ 16 = 17) ∧ fget Fl.KEY_STATUS_ALARM s26 = 0 ∧ slotBusy
      9 s26 = false) ∧
    (pdOn 26 bz = true ∧ 9 < 1024 ∧ 3 ≤ 2048 ∧ (9 ≠ 0 ∨ 3 = 0) ∧ (16 ≤ 11 ∨ 16 = 16 ∨ 16 = 17) ∧ fget Fl.KEY_STATUS_ALARM bz = 0 ∧ slotBusy 9 bz =
      true) ∧
    (pdOn 26 alm = true ∧ 9 < 1024 ∧ 3 ≤ 2048 ∧ (9 ≠ 0 ∨ 3 = 0) ∧ (16 ≤ 11 ∨ 16 = 16 ∨ 16 = 17) ∧ ¬fget Fl.KEY_STATUS_ALARM alm = 0 ∧ fget
      Fl.KEY_STATUS_ALARM alm = 1) := by
  refine ⟨?_, ?_, ?_, ?_, ?_, ?_⟩ <;> decide +kernel

theorem test_KeyManager_3 :
    (pdOn 26 s26 = true ∧ 9 < 1024 ∧ 3 ≤ 2048 ∧ (9 ≠ 0 ∨ 3 = 0) ∧ (16 ≤ 11 ∨ 16 = 16 ∨ 16 = 17) ∧ fget Fl.KEY_STATUS_ALARM s26 = 0 ∧ 3 ≠ 0 ∧
      SMap.find s26.keys.store 3 ≠ none) ∧
    (pdOn 26 s24 = true ∧ 0 < 1024 ∧ 0 = 0 ∧ 3 ≠ 0 ∧ 3 ≤ 2048 ∧ 16 = 16) ∧
    (pdOn 26 s27 = true ∧ 4096 + 64 ≤ 67108864) ∧
    (pdOn 26 alm = true) ∧
    (pdOn 26 s28 = true ∧ mode s28 = 3 ∧ fget Fl.AON_MODE_RO_CAUSE s28 = 0) := by
  refine ⟨?_, ?_, ?_, ?_, ?_⟩ <;> decide +kernel

end Digest

namespace Clusters

/-- An execution of function 1 with units 0 to 3 of namespace 1 in its first window. -/
def ex : Exec := ⟨1, 1, 0, 0, 0, 0, 0, [], [], [], 0, 0, 0, 0, 0, 0, 0, [(0, ⟨1, 0, 4, false⟩)], 0, [], none, 0⟩
/-- A letter of that execution that runs on core 0. -/
def lt : Letter := ⟨5, 1, 0, 0, 1, 7, 0xFF, 0, 0, none, none, none, 0, 0, 0, 0, .running, 0, 0, 0, false, some 0⟩
def pg (iu : Nat) (st : PageState) (born : Nat) : StagePage := ⟨1, 1, iu, st, (List.range 16384).map (fun i => BitVec.ofNat 8 (i + iu)), [5, 6], 3, 9, born, none⟩
def rq (h iu : Nat) (pre : Bool) (ep : Option Nat) (letters : List Nat) (born : Nat) (sent : Bool) (arr : Option Bool) : ReadEntry :=
  ⟨h, 1, 1, iu, pre, letters, 0, ep, 7, born, sent, false, 3, [7, 8], arr, false⟩
/-- Core 0 holds the letter at a level, in run-ahead or not, with pages and reads under way. -/
def wn (lvl : Nat) (ah : Option (Nat × Nat)) (pages : List StagePage) (reads : List ReadEntry) : State :=
  let u := sets [(Fl.AXC_STATUS_STATE 0, 1), (Fl.AXC_CACHE_CTRL_L2_EN 0, 1)] (wr Reg.SCH_TICK 5000 (io []))
  { u with
    cores := [(0, { Core.fresh with lvl := lvl, ahead := ah, episodes := 3, g := [(1, 0x400000000000), (2, 7)] })],
    sch := { u.sch with letters := [lt], holds := [(0, 5)], reads := reads, nextRead := 50 },
    prog := { u.prog with execs := [(7, ex)], pages := pages },
    ftl := { u.ftl with map := [(mapKey 1 2, ⟨0, 3, 4, [], 16, false, 0⟩), (mapKey 1 3, ⟨0, 3, 4, [], 16, false, 1⟩)] } }
def w0 (ah : Option (Nat × Nat)) : State := wn 2 ah [] []
def s1 : State := w0 none
def s2 : State := wn 0 (some (4, 2)) [] []
def s3 : State := wn 0 (some (4, 2)) [] [rq 1 2 true (some 4) [] 0 false none, rq 2 3 true (some 3) [] 0 false none, rq 3 3 true none [] 0 false none]
def s4 : State := wn 0 (some (4, 2)) [] [rq 1 3 true (some 4) [] 0 false none]
def s5 : State := wn 0 (some (4, 2)) [] [rq 1 2 true (some 4) [] 0 false none]
def s6 : State := wn 0 (some (4, 2)) [pg 2 .staged 0] []
def s7 : State := wn 0 (some (4, 16)) [] []
def s9 : State := wn 0 none [] [rq 1 3 true (some 4) [] 3000 false none, rq 2 2 true (some 4) [] 0 false none]
def s10 : State := wn 0 none [] [rq 1 3 true (some 4) [] 3001 false none]
def s11 : State := wn 0 none [] [rq 1 3 true (some 4) [] 0 true none]
def s12 : State := wn 0 none [pg 1 .preStaged 3000, pg 2 .preStaged 0, pg 1 .staged 0] []
def s13 : State := wn 0 none [pg 1 .preStaged 3001, pg 2 .preStaged 0] []
def op6 (h : Nat) : ChanOp := { mkOp .read .unit 6 4 0 0 (mapKey 1 2) with handle := h }
def wd6 (r : ReadEntry) : State := { wn 0 none [pg 1 .preStaged 3001] [r, rq 9 1 true none [] 0 true none] with media := { up.media with chans := [(3, { Chan.fresh with dies := [(4, op6 1)] })] } }
def s14 : State := wd6 (rq 1 2 true (some 4) [] 3000 true none)
def s15 : State := wn 0 none [pg 1 .staged 0, pg 2 .staged 0] []
def s16 : State := wn 0 none [pg 1 .staged 0, pg 2 .preStaged 3000] []
def s17 : State := wn 0 none [pg 1 .staged 0, pg 2 .preStaged 0] []
def s18 : State := wn 0 none [pg 1 .staged 0] [rq 1 3 true none [] 0 true none]
def s19 : State := wn 0 none [pg 1 .staged 0] [rq 1 2 true none [] 0 true none]
def s20 : State := wn 0 none [pg 1 .staged 0] [rq 1 2 false none [] 0 true (some true)]
def s21 : State := wn 0 none [pg 1 .staged 0] [rq 1 2 false none [] 0 true (some false)]
def lz : Letter := { lt with id := 6, state := .suspended, port := none }
def wz : State := { wn 0 none [pg 1 .staged 0] [rq 1 2 false none [6] 0 true (some true)] with sch := { (wn 0 none [] []).sch with letters := [lt, lz], reads := [rq 1 2 false none [6] 0 true (some true)], rseq := 9 } }
def wl (maj rd ra imm : Nat) : Half := BitVec.ofNat 32 (maj * 2 ^ 26 + rd * 2 ^ 21 + ra * 2 ^ 16 + imm)
def s22 : State := wn 2 none [pg 0 .staged 0] []
def s23 : State := wn 2 none [pg 1 .staged 0] [rq 1 2 true none [] 0 true none]
def s24 : State := wn 2 none [pg 0 .staged 0] [rq 1 2 true none [] 0 true none]
def o64 : List Byte := List.replicate 64 9
/-- Cluster 2 up, with these enables, maintenance registers, locked entries and dirty lines. -/
def cc (en inv busy base len ways cmo : Nat) (lk : List (Nat × Nat)) (dl : List (Nat × DirtyLine)) : State :=
  let u := sets [(Fl.AXC_STATUS_STATE 2, 1), (⟨Reg.AXC_CACHE_CTRL 2, 0, 3⟩, en), (Fl.AXC_CACHE_CTRL_INV_DONE 2, inv), (Fl.AXC_CMO_CTRL_BUSY 2, busy),
    (Fl.AXC_CMO_BASE_ADDR 2, base), (Fl.AXC_CMO_LEN_BYTES 2, len), (Fl.AXC_LOCK_CTRL_WAYS 2, ways)] (io [])
  { u with clus := [(2, { Clus.fresh with locked := lk, cmo := cmo })], dirty := dl, mem := [(0x4000000000, 5), (0x4000000040, 6), (0x4000000081, 7)] }
def L0 : Nat := 0x100000000
def dl3 : List (Nat × DirtyLine) := [(L0, ⟨2, o64⟩), (L0 + 1, ⟨3, o64⟩), (L0 + 2, ⟨2, o64⟩)]
def cbase (en inv : Nat) : State := cc en inv 0 L0 130 3 0 [(0, L0), (1, L0 + 4096), (1, L0 + 2)] dl3
def s25 : State := cbase 0 0
def s26 : State := cbase 0 1
def s27 : State := cbase 4 1
def s29 : State := cbase 5 1
def s30 : State := cc 0 0 1 L0 130 3 0 [] dl3
def s31 : State := cbase 1 0
def s32 : State := cc 0 0 0 L0 0 3 0 [] dl3
def s33 : State := cc 0 0 0 (L0 - 1) 64 3 0 [] dl3
def s34 : State := cc 0 0 0 0x7FFFFFFFFF 65 3 0 [] dl3
def s35 : State := cc 0 0 0 L0 65 0 0 [] dl3
def s36 : State := cc 0 0 0 L0 0x300001 1 0 [] dl3
def s37 : State := cc 0 0 0 L0 64 3 0 [(0, L0), (1, L0 + 4096)] [(L0, ⟨2, o64⟩)]
def s38 : State := cc 0 0 0 (L0 + 1) 64 3 0 [(0, L0), (1, L0 + 1)] dl3
def s39 : State := cc 0 0 0 (L0 + 1) 128 3 0 [(0, L0), (1, L0 + 1)] dl3
def s40 : State := cc 0 0 0 (L0 + 1) 1 0x8000 0 [(15, L0)] dl3
def s41 : State := cc 0 0 1 (L0 + 1) 1 0x8000 1 [(15, L0)] dl3
def s42 : State := cc 0 0 1 (L0 + 1) 1 0x8000 2 [(15, L0)] dl3
/-- Cluster 2 with a letter running on its core 1, and an update state. -/
def cf (upd : RtUpd) (fl : Nat) : State :=
  let u := cbase 7 1
  { u with
    cores := [(0, { Core.fresh with pc := 4 }), (17, { Core.fresh with lvl := 0, pc := 8, g := [(1, 5)] })],
    clus := [(2, { Clus.fresh with locked := [(0, L0)], update := upd, faults24 := fl, funcs := [1], version := 3 })],
    sch := { u.sch with letters := [{ lt with port := some 17 }], holds := [(17, 5)] },
    prog := { u.prog with execs := [(7, ex)] } }
def s43 : State := cf .none 0
def s44 : State := fset Fl.AON_MODE_CUR 8 (cf .none 0)
def s45 : State := cf .none 3
def s46 : State := cf .none 1
def s47 : State := cf .none 2
def s48 : State := cf .grace 0

theorem test_RunAhead :
    (0 < 64 ∧ coreRuns 0 s1 = true ∧ (coreAt 0 s1).stepping = false ∧ fget (Fl.AXC_RA_CFG_EN (0 / 8)) s1 = 1 ∧ fget
      (Fl.AXC_CACHE_CTRL_L2_EN (0 / 8)) s1 = 1 ∧ 274877906944 ≤ 274877906944 ∧ 274877906944 < 412316860416) ∧
    (0 < 64 ∧ coreRuns 0 s1 = true ∧ (coreAt 0 s1).stepping = false ∧ fget (Fl.AXC_RA_CFG_EN (0 / 8)) s1 = 1 ∧ fget
      (Fl.AXC_CACHE_CTRL_L2_EN (0 / 8)) s1 = 1 ∧ 274877906944 ≤ 412316860415 ∧ 412316860415 < 412316860416) ∧
    (63 < 64 ∧ (fget (Fl.AXC_RA_CFG_EN (63 / 8)) up = 0 ∨ fget (Fl.AXC_CACHE_CTRL_L2_EN (63 / 8)) up = 0)) ∧
    (0 < 64 ∧ (coreAt 0 s2).ahead = some (4, 2)) ∧
    (0 < 64 ∧ (coreAt 0 s3).ahead = some (4, 2)) ∧
    (0 < 64 ∧ coreUp 0 s4 = true ∧ coreHalted 0 s4 = false ∧ (coreAt 0 s4).ahead = some (4, 2) ∧ execOfCore 0 s4 = some 7 ∧ winUnit 7
      70368744210432 s4 = some (1, 2) ∧ (¬((∃ g ∈ s4.prog.pages, g.func = execFunc 7 s4 ∧ g.nsid = 1 ∧ g.iu = 2 ∧ (g.state =
      PageState.staged ∨ g.state = PageState.preStaged ∧ BitVec.toNat (rd Reg.SCH_TICK s4) ≤ g.born + 2000)) ∨ ∃ r ∈ s4.sch.reads, r.func =
      execFunc 7 s4 ∧ r.nsid = 1 ∧ r.iu = 2 ∧ r.stale = false)) ∧ iuAt (mapKey 1 2) s4 ≠ none ∧ 2 ≠ 0 ∧ List.length s4.sch.reads < 16384) ∧
    (0 < 64 ∧ coreUp 0 s7 = true ∧ coreHalted 0 s7 = false ∧ (coreAt 0 s7).ahead = some (4, 16) ∧ execOfCore 0 s7 = some 7 ∧ winUnit 7
      70368744210432 s7 = some (1, 2) ∧ (¬((∃ g ∈ s7.prog.pages, g.func = execFunc 7 s7 ∧ g.nsid = 1 ∧ g.iu = 2 ∧ (g.state =
      PageState.staged ∨ g.state = PageState.preStaged ∧ BitVec.toNat (rd Reg.SCH_TICK s7) ≤ g.born + 2000)) ∨ ∃ r ∈ s7.sch.reads, r.func =
      execFunc 7 s7 ∧ r.nsid = 1 ∧ r.iu = 2 ∧ r.stale = false)) ∧ iuAt (mapKey 1 2) s7 ≠ none ∧ 16 ≠ 0 ∧ List.length s7.sch.reads < 16384) ∧
    (0 < 64 ∧ coreUp 0 s5 = true ∧ coreHalted 0 s5 = false ∧ (coreAt 0 s5).ahead = some (4, 2) ∧ execOfCore 0 s5 = some 7 ∧ winUnit 7
      70368744210432 s5 = some (1, 2) ∧ (((∃ g ∈ s5.prog.pages, g.func = execFunc 7 s5 ∧ g.nsid = 1 ∧ g.iu = 2 ∧ (g.state =
      PageState.staged ∨ g.state = PageState.preStaged ∧ BitVec.toNat (rd Reg.SCH_TICK s5) ≤ g.born + 2000)) ∨ ∃ r ∈ s5.sch.reads, r.func =
      execFunc 7 s5 ∧ r.nsid = 1 ∧ r.iu = 2 ∧ r.stale = false) ∨ iuAt (mapKey 1 2) s5 = none ∨ 2 = 0)) := by
  refine ⟨?_, ?_, ?_, ?_, ?_, ?_, ?_, ?_⟩ <;> decide +kernel

theorem test_RunAhead_2 :
    (0 < 64 ∧ coreUp 0 s6 = true ∧ coreHalted 0 s6 = false ∧ (coreAt 0 s6).ahead = some (4, 2) ∧ execOfCore 0 s6 = some 7 ∧ winUnit 7
      70368744210432 s6 = some (1, 2) ∧ (((∃ g ∈ s6.prog.pages, g.func = execFunc 7 s6 ∧ g.nsid = 1 ∧ g.iu = 2 ∧ (g.state =
      PageState.staged ∨ g.state = PageState.preStaged ∧ BitVec.toNat (rd Reg.SCH_TICK s6) ≤ g.born + 2000)) ∨ ∃ r ∈ s6.sch.reads, r.func =
      execFunc 7 s6 ∧ r.nsid = 1 ∧ r.iu = 2 ∧ r.stale = false) ∨ iuAt (mapKey 1 2) s6 = none ∨ 2 = 0)) ∧
    (readAt (rq 1 3 true (some 4) [] 3000 false none).handle s9 = some (rq 1 3 true (some 4) [] 3000 false none) ∧ (rq 1 3 true (some 4) [] 3000
      false none).pre = true ∧ (∀ q ∈ s9.sch.reads, q.handle = (rq 1 3 true (some 4) [] 3000 false none).handle → q = rq 1 3 true (some 4) []
      3000 false none) ∧ s9.media.chans = [] ∧ (rq 1 3 true (some 4) [] 3000 false none).core < 64 ∧ (rq 1 3 true (some 4) [] 3000 false
      none).sent = false ∧ (rq 1 3 true (some 4) [] 3000 false none).born + 2000 ≤ BitVec.toNat (rd Reg.SCH_TICK s9)) ∧
    (readAt (rq 1 3 true (some 4) [] 3001 false none).handle s10 = some (rq 1 3 true (some 4) [] 3001 false none) ∧ (rq 1 3 true (some 4) []
      3001 false none).pre = true ∧ (∀ q ∈ s10.sch.reads, q.handle = (rq 1 3 true (some 4) [] 3001 false none).handle → q = rq 1 3 true (some 4)
      [] 3001 false none) ∧ s10.media.chans = [] ∧ (rq 1 3 true (some 4) [] 3001 false none).core < 64 ∧ ((rq 1 3 true (some 4) [] 3001 false
      none).sent = true ∨ BitVec.toNat (rd Reg.SCH_TICK s10) < (rq 1 3 true (some 4) [] 3001 false none).born + 2000)) ∧
    (readAt (rq 1 3 true (some 4) [] 0 true none).handle s11 = some (rq 1 3 true (some 4) [] 0 true none) ∧ (rq 1 3 true (some 4) [] 0 true
      none).pre = true ∧ (∀ q ∈ s11.sch.reads, q.handle = (rq 1 3 true (some 4) [] 0 true none).handle → q = rq 1 3 true (some 4) [] 0 true
      none) ∧ s11.media.chans = [] ∧ (rq 1 3 true (some 4) [] 0 true none).core < 64 ∧ ((rq 1 3 true (some 4) [] 0 true none).sent = true ∨
      BitVec.toNat (rd Reg.SCH_TICK s11) < (rq 1 3 true (some 4) [] 0 true none).born + 2000)) ∧
    (pg 1 PageState.preStaged 3000 ∈ s12.prog.pages ∧ (pg 1 PageState.preStaged 3000).state = PageState.preStaged ∧ (pg 1 PageState.preStaged
      3000).born + 2000 ≤ BitVec.toNat (rd Reg.SCH_TICK s12)) ∧
    (pg 1 PageState.preStaged 3001 ∈ s13.prog.pages ∧ (pg 1 PageState.preStaged 3001).state = PageState.preStaged ∧ BitVec.toNat (rd
      Reg.SCH_TICK s13) < (pg 1 PageState.preStaged 3001).born + 2000) ∧
    (SMap.find (chanAt 3 s14).dies 4 = some (op6 1) ∧ (op6 1).cls = 6 ∧ readAt (op6 1).handle s14 = some (rq 1 2 true (some 4) [] 3000 true
      none) ∧ (op6 1).cancelled = false ∧ (rq 1 2 true (some 4) [] 3000 true none).pre = true ∧ (rq 1 2 true (some 4) [] 3000 true none).stale =
      false ∧ (List.length (List.filter (fun g => decide (g.state = PageState.preStaged)) s14.prog.pages) < 16384)) ∧
    (SMap.find (chanAt 3 s14).dies 4 = some (op6 1) ∧ (op6 1).cls = 6 ∧ readAt (op6 1).handle s14 = some (rq 1 2 true (some 4) [] 3000 true
      none) ∧ (op6 1).cancelled = false ∧ (rq 1 2 true (some 4) [] 3000 true none).pre = true ∧ (rq 1 2 true (some 4) [] 3000 true none).core < 64) := ⟨by decide +kernel, by decide +kernel, by decide +kernel, by decide +kernel, ⟨.head _, by decide +kernel⟩, ⟨.head _, by decide +kernel⟩,
    by decide +kernel, by decide +kernel⟩

theorem test_WindowLoads :
    (pageFor (execFunc 7 s15) 1 2 s15 = some (pg 2 PageState.staged 0) ∧ 0 < 64 ∧ execOfCore 0 s15 = some 7 ∧ winUnit 7 70368744226815
      s15 = some (1, 2) ∧ coreRuns 0 s15 = true ∧ (pg 2 PageState.staged 0).state = PageState.staged ∧ letterHeld 0 s15 = some lt) ∧
    (pageFor (execFunc 7 s16) 1 2 s16 = some (pg 2 PageState.preStaged 3000) ∧ 0 < 64 ∧ execOfCore 0 s16 = some 7 ∧ winUnit 7
      70368744226815 s16 = some (1, 2) ∧ coreRuns 0 s16 = true ∧ (pg 2 PageState.preStaged 3000).state = PageState.preStaged ∧ (pg 2
      PageState.preStaged 3000).core < 64 ∧ (pg 2 PageState.preStaged 3000).chan < 32 ∧ (List.length (List.filter (fun p => decide (p.func =
      execFunc 7 s16)) s16.prog.pages) < cachePages (execFunc 7 s16) s16)) ∧
    (0 < 64 ∧ execOfCore 0 s17 = some 7 ∧ winUnit 7 70368744177664 s17 = some (1, 0) ∧ coreRuns 0 s17 = true ∧ (¬∃ g ∈ s17.prog.pages,
      g.func = execFunc 7 s17 ∧ g.nsid = 1 ∧ g.iu = 0) ∧ iuAt (mapKey 1 0) s17 = none ∧ nsAt 1 s17 = some ns1 ∧ (List.length (List.filter
      (fun p => decide (p.func = execFunc 7 s17)) s17.prog.pages) < cachePages (execFunc 7 s17) s17)) ∧
    (0 < 64 ∧ execOfCore 0 s18 = some 7 ∧ winUnit 7 70368744210432 s18 = some (1, 2) ∧ coreRuns 0 s18 = true ∧ (¬∃ g ∈ s18.prog.pages,
      g.func = execFunc 7 s18 ∧ g.nsid = 1 ∧ g.iu = 2) ∧ iuAt (mapKey 1 2) s18 = some
      { sb := 0, chan := 3, die := 4, data := [], stored := 16, uncorr := false, landed := 0 : Iu } ∧ (coreAt 0 s18).lvl = 0 ∧ letterHeld 0
      s18 = some lt ∧ SMap.sorted s18.sch.holds = true ∧ (∀ r ∈ s18.sch.reads, ¬(r.func = execFunc 7 s18 ∧ r.nsid = 1 ∧ r.iu = 2)) ∧
      List.length s18.sch.reads < 16384) ∧
    (0 < 64 ∧ execOfCore 0 s19 = some 7 ∧ winUnit 7 70368744210432 s19 = some (1, 2) ∧ coreRuns 0 s19 = true ∧ (¬∃ g ∈ s19.prog.pages,
      g.func = execFunc 7 s19 ∧ g.nsid = 1 ∧ g.iu = 2) ∧ iuAt (mapKey 1 2) s19 ≠ none ∧ (coreAt 0 s19).lvl = 0 ∧ letterHeld 0 s19 =
      some lt ∧ s19.sch.reads = [rq 1 2 true none [] 0 true none] ∧ (rq 1 2 true none [] 0 true none).pre = true ∧ (rq 1 2 true none [] 0 true
      none).func = execFunc 7 s19 ∧ (rq 1 2 true none [] 0 true none).nsid = 1 ∧ (rq 1 2 true none [] 0 true none).iu = 2 ∧ (rq 1 2 true none []
      0 true none).stale = false ∧ s19.media.chans = []) ∧
    (0 < 64 ∧ execOfCore 0 s20 = some 7 ∧ winUnit 7 70368744210432 s20 = some (1, 2) ∧ readAt (rq 1 2 false none [] 0 true (some
      true)).handle s20 = some (rq 1 2 false none [] 0 true (some true)) ∧ (rq 1 2 false none [] 0 true (some true)).arrived = some true ∧ (rq 1
      2 false none [] 0 true (some true)).pre = false ∧ (rq 1 2 false none [] 0 true (some true)).letters = [] ∧ (rq 1 2 false none [] 0 true (some
      true)).stale = false ∧ (List.length (List.filter (fun p => decide (p.func = (rq 1 2 false none [] 0 true (some true)).func))
      s20.prog.pages) < cachePages (rq 1 2 false none [] 0 true (some true)).func s20) ∧ true = true) ∧
    (0 < 64 ∧ execOfCore 0 s21 = some 7 ∧ winUnit 7 70368744210432 s21 = some (1, 2) ∧ readAt (rq 1 2 false none [] 0 true (some
      false)).handle s21 = some (rq 1 2 false none [] 0 true (some false)) ∧ (rq 1 2 false none [] 0 true (some false)).arrived = some false ∧
      (rq 1 2 false none [] 0 true (some false)).pre = false ∧ (rq 1 2 false none [] 0 true (some false)).letters = [] ∧ (rq 1 2 false none [] 0
      true (some false)).stale = false ∧ (List.length (List.filter (fun p => decide (p.func = (rq 1 2 false none [] 0 true (some false)).func))
      s21.prog.pages) < cachePages (rq 1 2 false none [] 0 true (some false)).func s21) ∧ false = false) ∧
    (0 < 64 ∧ execOfCore 0 wz = some 7 ∧ winUnit 7 70368744210432 wz = some (1, 2) ∧ readAt (rq 1 2 false none [6] 0 true (some true)).handle wz =
      some (rq 1 2 false none [6] 0 true (some true)) ∧ (rq 1 2 false none [6] 0 true (some true)).arrived = some true ∧ (rq 1 2 false none [6] 0
      true (some true)).pre = false ∧ (rq 1 2 false none [6] 0 true (some true)).letters = [lz.id] ∧ letterAt lz.id wz = some lz ∧ lz.state =
      LState.suspended ∧ lz.target = 0 ∧ lz.clusters = 255 ∧ clusterServes 0 wz = true ∧ (∀ x ∈ wz.sch.letters, x.id = lz.id → x = lz)) := ⟨⟨rfl, by decide +kernel⟩, ⟨rfl, by decide +kernel⟩, by decide +kernel, by decide +kernel, by decide +kernel, by decide +kernel,
    by decide +kernel, by decide +kernel⟩

theorem test_WindowLoads_2 :
    (CoreReady 0 s22 ∧ pageFor (execFunc 7 s22) 1 0 s22 = some (pg 0 PageState.staged 0) ∧ 0 < 64 ∧ execOfCore 0 s22 = some 7 ∧ winUnit
      7 70368744194047 s22 = some (1, 0) ∧ BitVec.toNat (eaOf 0 (wl 28 4 1 16383) s22) = 70368744194047 ∧ rdOf (wl 28 4 1 16383) ≠ 31 ∧ majOf
      (wl 28 4 1 16383) = 28 ∧ 70368744194047 % 16384 + 1 ≤ 16384 ∧ wpHit 0 70368744194047 1 true false (fetched 0 s22) = none ∧ (pg 0
      PageState.staged 0).state = PageState.staged) ∧
    (CoreReady 0 s22 ∧ pageFor (execFunc 7 s22) 1 0 s22 = some (pg 0 PageState.staged 0) ∧ 0 < 64 ∧ execOfCore 0 s22 = some 7 ∧ winUnit
      7 70368744194046 s22 = some (1, 0) ∧ BitVec.toNat (eaOf 0 (wl 29 0 1 16382) s22) = 70368744194046 ∧ rdOf (wl 29 0 1 16382) ≠ 31 ∧ majOf
      (wl 29 0 1 16382) = 29 ∧ 70368744194046 % 16384 + 2 ≤ 16384 ∧ wpHit 0 70368744194046 2 true false (fetched 0 s22) = none ∧ (pg 0
      PageState.staged 0).state = PageState.staged) ∧
    (CoreReady 0 s22 ∧ pageFor (execFunc 7 s22) 1 0 s22 = some (pg 0 PageState.staged 0) ∧ 0 < 64 ∧ execOfCore 0 s22 = some 7 ∧ winUnit
      7 70368744194044 s22 = some (1, 0) ∧ BitVec.toNat (eaOf 0 (wl 30 4 1 16380) s22) = 70368744194044 ∧ rdOf (wl 30 4 1 16380) ≠ 31 ∧ majOf
      (wl 30 4 1 16380) = 30 ∧ 70368744194044 % 16384 + 4 ≤ 16384 ∧ wpHit 0 70368744194044 4 true false (fetched 0 s22) = none ∧ (pg 0
      PageState.staged 0).state = PageState.staged) ∧
    (CoreReady 0 s22 ∧ pageFor (execFunc 7 s22) 1 0 s22 = some (pg 0 PageState.staged 0) ∧ 0 < 64 ∧ execOfCore 0 s22 = some 7 ∧ winUnit
      7 70368744194040 s22 = some (1, 0) ∧ BitVec.toNat (eaOf 0 (wl 31 30 1 16376) s22) = 70368744194040 ∧ rdOf (wl 31 30 1 16376) ≠ 31 ∧
      majOf (wl 31 30 1 16376) = 31 ∧ 70368744194040 % 16384 + 8 ≤ 16384 ∧ wpHit 0 70368744194040 8 true false (fetched 0 s22) = none ∧ (pg 0
      PageState.staged 0).state = PageState.staged) ∧
    (CoreReady 0 s22 ∧ TrapFree 0 s22 ∧ 0 < 64 ∧ execOfCore 0 s22 = some 7 ∧ winUnit 7 70368744194044 s22 = some (1, 0) ∧ BitVec.toNat
      (eaOf 0 (wl 31 4 1 16380) s22) = 70368744194044 ∧ rdOf (wl 31 4 1 16380) ≠ 31 ∧ majOf (wl 31 4 1 16380) = 31 ∧ 16384 < 70368744194044 %
      16384 + 8 ∧ wpHit 0 70368744194044 8 true false (fetched 0 s22) = none) ∧
    (CoreReady 0 s23 ∧ 0 < 64 ∧ execOfCore 0 s23 = some 7 ∧ winUnit 7 70368744194044 s23 = some (1, 0) ∧ BitVec.toNat (eaOf 0 (wl 23 0 1
      16380) s23) = 70368744194044 ∧ rdOf (wl 23 0 1 16380) ≠ 31 ∧ majOf (wl 23 0 1 16380) = 23 ∧ rdOf (wl 23 0 1 16380) = 0) ∧
    (CoreReady 0 s24 ∧ 0 < 64 ∧ execOfCore 0 s24 = some 7 ∧ winUnit 7 70368744194044 s24 = some (1, 0) ∧ BitVec.toNat (eaOf 0 (wl 23 0 1
      16380) s24) = 70368744194044 ∧ rdOf (wl 23 0 1 16380) ≠ 31 ∧ majOf (wl 23 0 1 16380) = 23 ∧ rdOf (wl 23 0 1 16380) = 0) := ⟨⟨(by unfold CoreReady; decide +kernel), rfl, by decide +kernel⟩, ⟨(by unfold CoreReady; decide +kernel), rfl, by decide +kernel⟩,
    ⟨(by unfold CoreReady; decide +kernel), rfl, by decide +kernel⟩, ⟨(by unfold CoreReady; decide +kernel), rfl, by decide +kernel⟩,
    ⟨(by unfold CoreReady; decide +kernel), (by unfold TrapFree; decide +kernel), by decide +kernel⟩, ⟨(by unfold CoreReady; decide +kernel),
    by decide +kernel⟩, ⟨(by unfold CoreReady; decide +kernel), by decide +kernel⟩⟩

theorem test_ClusterCaches :
    (clusUp 2 s25 = true ∧ 4 % 8 ≠ 0 ∧ fget (Fl.AXC_CACHE_CTRL_INV_DONE 2) s25 = 0) ∧
    (clusUp 2 s26 = true ∧ 251 % 4 ≠ 0 ∧ (251 % 8 < 4 ∨ fget (Fl.AXC_CACHE_CTRL_L2_EN 2) s26 = 0)) ∧
    (clusUp 2 s27 = true ∧ 4 ≤ 7 % 8 ∧ fget (Fl.AXC_CACHE_CTRL_INV_DONE 2) s27 = 1 ∧ (7 % 8 = 4 ∨ fget (Fl.AXC_CACHE_CTRL_L2_EN 2) s27 =
      1)) ∧
    (clusUp 2 s26 = true ∧ 4 ≤ 4 % 8 ∧ fget (Fl.AXC_CACHE_CTRL_INV_DONE 2) s26 = 1 ∧ (4 % 8 = 4 ∨ fget (Fl.AXC_CACHE_CTRL_L2_EN 2) s26 =
      1)) ∧
    (clusUp 2 s27 = true ∧ fget (Fl.AXC_CACHE_CTRL_L2_EN 2) s27 = 1 ∧ fget { addr := Reg.AXC_CACHE_CTRL 2, lo := 0, w := 2 : Fld } s27 =
      0) ∧
    (clusUp 2 s29 = true ∧ fget (Fl.AXC_CACHE_CTRL_L2_EN 2) s29 = 1 ∧ fget { addr := Reg.AXC_CACHE_CTRL 2, lo := 0, w := 2 : Fld } s29 ≠ 0
      ∧ 0 % 8 < 4) ∧
    (clusUp 2 s29 = true ∧ bits16 (69630 % 65536) ≤ 12) := by
  refine ⟨?_, ?_, ?_, ?_, ?_, ?_, ?_⟩ <;> decide +kernel

theorem test_ClusterCaches_2 :
    (clusUp 2 s29 = true ∧ bits16 (65520 % 65536) ≤ 12) ∧
    (clusUp 2 s29 = true ∧ 12 < bits16 (65528 % 65536)) ∧
    (clusUp 2 s30 = true ∧ fget (Fl.AXC_CMO_CTRL_BUSY 2) s30 = 1 ∧ Instr.lockFillRange 2 66 ∈ [Instr.invAll 2 66, Instr.cleanAll 2 66,
      Instr.cleanInvAll 2 66, Instr.invRange 2 66, Instr.cleanRange 2 66, Instr.cleanInvRange 2 66, Instr.iinvRange 2 66, Instr.lockFillRange 2
      66]) ∧
    (clusUp 2 s30 = true ∧ fget (Fl.AXC_CMO_CTRL_BUSY 2) s30 = 1 ∧ Instr.invAll 2 66 ∈ [Instr.invAll 2 66, Instr.cleanAll 2 66,
      Instr.cleanInvAll 2 66, Instr.invRange 2 66, Instr.cleanRange 2 66, Instr.cleanInvRange 2 66, Instr.iinvRange 2 66, Instr.lockFillRange 2
      66]) ∧
    (clusUp 2 s25 = true ∧ fget (Fl.AXC_CMO_CTRL_BUSY 2) s25 = 0 ∧ fget { addr := Reg.AXC_CACHE_CTRL 2, lo := 0, w := 3 : Fld } s25 = 0) ∧
    (clusUp 2 s31 = true ∧ fget (Fl.AXC_CMO_CTRL_BUSY 2) s31 = 0 ∧ fget { addr := Reg.AXC_CACHE_CTRL 2, lo := 0, w := 3 : Fld } s31 ≠ 0) ∧
    (clusUp 2 s31 = true ∧ fget (Fl.AXC_CMO_CTRL_BUSY 2) s31 = 0) := by
  refine ⟨?_, ?_, ?_, ?_, ?_, ?_, ?_⟩ <;> decide +kernel

theorem test_ClusterCaches_3 :
    (clusUp 2 s32 = true ∧ fget (Fl.AXC_CMO_CTRL_BUSY 2) s32 = 0 ∧ ((fget (Fl.AXC_CMO_LEN_BYTES 2) s32 + 63) / 64 = 0 ∨ rangeCacheable
      (fget (Fl.AXC_CMO_BASE_ADDR 2) s32) ((fget (Fl.AXC_CMO_LEN_BYTES 2) s32 + 63) / 64) = false)) ∧
    (clusUp 2 s33 = true ∧ fget (Fl.AXC_CMO_CTRL_BUSY 2) s33 = 0 ∧ ((fget (Fl.AXC_CMO_LEN_BYTES 2) s33 + 63) / 64 = 0 ∨ rangeCacheable
      (fget (Fl.AXC_CMO_BASE_ADDR 2) s33) ((fget (Fl.AXC_CMO_LEN_BYTES 2) s33 + 63) / 64) = false)) ∧
    (clusUp 2 s34 = true ∧ fget (Fl.AXC_CMO_CTRL_BUSY 2) s34 = 0 ∧ ((fget (Fl.AXC_CMO_LEN_BYTES 2) s34 + 63) / 64 = 0 ∨ rangeCacheable
      (fget (Fl.AXC_CMO_BASE_ADDR 2) s34) ((fget (Fl.AXC_CMO_LEN_BYTES 2) s34 + 63) / 64) = false)) ∧
    (clusUp 2 s35 = true ∧ fget (Fl.AXC_CMO_CTRL_BUSY 2) s35 = 0 ∧ (fget (Fl.AXC_LOCK_CTRL_WAYS 2) s35 = 0 ∨ 3145728 < fget
      (Fl.AXC_CMO_LEN_BYTES 2) s35)) ∧
    (clusUp 2 s36 = true ∧ fget (Fl.AXC_CMO_CTRL_BUSY 2) s36 = 0 ∧ (fget (Fl.AXC_LOCK_CTRL_WAYS 2) s36 = 0 ∨ 3145728 < fget
      (Fl.AXC_CMO_LEN_BYTES 2) s36)) ∧
    (clusUp 2 s37 = true ∧ fget (Fl.AXC_CMO_CTRL_BUSY 2) s37 = 0 ∧ (fget (Fl.AXC_CMO_LEN_BYTES 2) s37 + 63) / 64 ≠ 0 ∧ rangeCacheable
      (fget (Fl.AXC_CMO_BASE_ADDR 2) s37) ((fget (Fl.AXC_CMO_LEN_BYTES 2) s37 + 63) / 64) = true ∧ s37.dirty = [(L0,
      { cluster := 2, old := o64 : DirtyLine })] ∧ (fget (Fl.AXC_CMO_BASE_ADDR 2) s37 ≤ L0 ∧ L0 < fget (Fl.AXC_CMO_BASE_ADDR 2) s37 + (fget
      (Fl.AXC_CMO_LEN_BYTES 2) s37 + 63) / 64) ∧ (L0 ∈ List.map (fun x => x.2) (clusAt 2 s37).locked) ∧ List.length o64 = 64) ∧
    (clusUp 2 s38 = true ∧ fget (Fl.AXC_CMO_CTRL_BUSY 2) s38 = 0 ∧ (fget (Fl.AXC_CMO_LEN_BYTES 2) s38 + 63) / 64 ≠ 0 ∧ rangeCacheable
      (fget (Fl.AXC_CMO_BASE_ADDR 2) s38) ((fget (Fl.AXC_CMO_LEN_BYTES 2) s38 + 63) / 64) = true ∧ (∀ e ∈ s38.dirty, e.2.cluster = 2 →
      ¬(fget (Fl.AXC_CMO_BASE_ADDR 2) s38 ≤ e.1 ∧ e.1 < fget (Fl.AXC_CMO_BASE_ADDR 2) s38 + (fget (Fl.AXC_CMO_LEN_BYTES 2) s38 + 63) /
      64))) := by
  refine ⟨?_, ?_, ?_, ?_, ?_, ?_, ?_⟩ <;> decide +kernel

theorem test_ClusterCaches_4 :
    (clusUp 2 s39 = true ∧ fget (Fl.AXC_CMO_CTRL_BUSY 2) s39 = 0 ∧ (fget (Fl.AXC_CMO_LEN_BYTES 2) s39 + 63) / 64 ≠ 0 ∧ rangeCacheable
      (fget (Fl.AXC_CMO_BASE_ADDR 2) s39) ((fget (Fl.AXC_CMO_LEN_BYTES 2) s39 + 63) / 64) = true) ∧
    (clusUp 2 s40 = true ∧ fget (Fl.AXC_CMO_CTRL_BUSY 2) s40 = 0 ∧ (fget (Fl.AXC_CMO_LEN_BYTES 2) s40 + 63) / 64 ≠ 0 ∧ rangeCacheable
      (fget (Fl.AXC_CMO_BASE_ADDR 2) s40) ((fget (Fl.AXC_CMO_LEN_BYTES 2) s40 + 63) / 64) = true ∧ (fget (Fl.AXC_CMO_LEN_BYTES 2) s40 +
      63) / 64 = 1 ∧ fget (Fl.AXC_LOCK_CTRL_WAYS 2) s40 ≠ 0 ∧ (∀ e ∈ (clusAt 2 s40).locked, e.2 % 4096 ≠ fget (Fl.AXC_CMO_BASE_ADDR 2) s40
      % 4096)) ∧
    (clusUp 2 s41 = true ∧ fget (Fl.AXC_CMO_CTRL_BUSY 2) s41 = 1) ∧
    (clusUp 2 s42 = true ∧ fget (Fl.AXC_CMO_CTRL_BUSY 2) s42 = 1) := by
  refine ⟨?_, ?_, ?_, ?_⟩ <;> decide +kernel

theorem test_ClusterFaults :
    (clusUp 2 s43 = true ∧ mode s43 ≠ 8) ∧
    (clusUp 2 s44 = true ∧ mode s44 = 8) ∧
    (clusUp 2 s43 = true) ∧
    (clusUp 2 s43 = true ∧ 11 < 64) ∧
    (clusUp 2 s43 = true ∧ 61 < 256 ∧ (61 ≠ 60 ∨ 64 ≤ 11 ∧ 11 < 128)) ∧
    (clusUp 2 s43 = true ∧ 60 < 256 ∧ (60 ≠ 60 ∨ 64 ≤ 127 ∧ 127 < 128)) := by
  refine ⟨?_, ?_, ?_, ?_, ?_, ?_⟩ <;> decide +kernel

theorem test_ClusterFaults_2 :
    (clusUp 2 s45 = true ∧ mode s45 ≠ 8 ∧ SMap.find s45.dirty (L0 + 2) = some { cluster := 2, old := o64 : DirtyLine } ∧ List.length o64 =
      64 ∧ L0 + 2 < 2 ^ 42 ∧ (clusAt 2 s45).faults24 - 2 < 2) ∧
    (clusUp 2 s46 = true ∧ mode s46 ≠ 8 ∧ (clusAt 2 s46).faults24 - 0 < 2) ∧
    (clusUp 2 s47 = true ∧ 2 ≤ (clusAt 2 s47).faults24 - 0) ∧
    (TrapFree 17 s43 ∧ clusUp 2 s43 = true ∧ 17 / 8 = 2 ∧ coreRuns 17 s43 = true) ∧
    (clusUp 2 s48 = true ∧ (clusAt 2 s48).update = RtUpd.grace ∧ List.head? s48.mgt.upd.todo ≠ some 3 ∧ 9 < 2 ^ 32) ∧
    (clusUp 2 s43 = true ∧ (clusAt 2 s43).update = RtUpd.none ∧ List.head? s43.mgt.upd.todo ≠ some 3) := ⟨by decide +kernel, by decide +kernel, by decide +kernel, ⟨(by unfold TrapFree; decide +kernel), by decide +kernel⟩, by decide +kernel,
    by decide +kernel⟩

end Clusters

namespace Sorting

/-- An execution of function 1. -/
def ex : Exec := ⟨1, 1, 0, 0, 0, 0, 0, [], [], [], 0, 0, 0, 0, 0, 0, 0, [(0, ⟨1, 0, 4, false⟩)], 0, [], none, 0⟩
/-- A letter of firmware on route 3 to a target, in a state. -/
def lt (id tg : Nat) (st : LState) (port : Option Nat) : Letter := ⟨id, 1, 3, 1, 0x80, 0, 0xFF, 1, tg, none, none, none, 5, 6, 7, 8, st, 0, 0, 100, false, port⟩
def d0 (route prio tg wt sg wc sc : Nat) : Word := BitVec.ofNat 64 (route + prio * 2 ^ 18 + tg * 2 ^ 20 + wt * 2 ^ 24 + sg * 2 ^ 25 + wc * 2 ^ 32 + sc * 2 ^ 48)
/-- The scheduler in normal service with letters, counters, and a record and argument in port 64. -/
def sc (ls : List Letter) (ctrs : List (Nat × DepCtr)) (rec0 rec1 arg : Word) : State :=
  let u := sets [(Fl.AXC_STATUS_STATE 0, 1), (Fl.SCH_CTRL_ORDERED_MODE, 0)]
    (wr Reg.SCH_TICK 5000 (wr (Reg.SCH_SUBMIT_D 64 0) rec0 (wr (Reg.SCH_SUBMIT_D 64 1) rec1 (wr (Reg.SCH_SUBMIT_D 64 2) 77 (wr (Reg.SCH_ARG 64) arg (io []))))))
  { u with
    sch := { u.sch with
      letters := ls, ctrs := ctrs, nextId := 20, nextAlloc := 9, rseq := 4, seq := 4
      past := [(20, (4095, 1)), (30, (2, 0x42))]
      routes := [(3, ⟨1, 0x80, 0, 0xFF, false⟩), (4, ⟨2, 1, 7, 1, false⟩)] }
    prog := { u.prog with execs := [(7, ex)] } }
def c0 (v : Nat) (sat : Bool) : DepCtr := ⟨v, sat, false, 5, 0x80, 0⟩
def fw : Nat × Nat × Bool := (0x80, 0, true)
def s1 : State := sc [lt 5 1 .ready none] [(2, c0 3 false)] (d0 3 1 1 0 1 0 2) 0 0
def s2 : State := sc [lt 5 1 .ready none] [(2, c0 3 false)] (d0 3 1 0 1 1 2 2) 5 0
def s3 : State := sc [lt 5 1 .ready none] [(2, c0 3 false)] (d0 9 1 0 1 1 2 2) 5 0
def s4 : State := sc [lt 5 1 .suspended none] [(2, c0 3 false)] 0 0 (5 + 2 ^ 20)
def s5 : State := sc [lt 5 1 .suspended none] [(2, c0 3 false)] 0 0 (30 + 2 * 2 ^ 20)
def svc (n : Nat) (g : List (Nat × Word)) : State :=
  let u := sc [{ lt 5 0 .running (some 0) with owner := 1, exec := 7 }] [(2, c0 3 false)] 0 0 0
  { u with cores := [(0, { Core.fresh with lvl := 1, g := g, sys := [(0x43, 6), (0x44, BitVec.ofNat 64 n)] })], sch := { u.sch with holds := [(0, 5)] } }
def s6 : State := svc 12 []
def s7 : State := sc [{ lt 5 1 .ready none with sigCtr := some (2, 5) }, lt 6 1 .ready none] [(2, c0 3 false)] 0 0 (5 + 2 ^ 20)
def s8 : State := sc [lt 5 1 .running (some 65), lt 6 1 .ready none] [(2, c0 3 false)] 0 0 (5 + 2 ^ 20)
def s9 : State := sc [lt 5 1 .running (some 65), lt 6 1 .ready none] [(2, c0 3 false)] 0 0 (5 + 2 ^ 21)
def s10 : State := wr (Reg.SCH_ARG 0) (6 + 2 ^ 20) { svc 1 [] with sch := { (svc 1 []).sch with letters := (svc 1 []).sch.letters ++ [lt 6 1 .ready none] } }
def s11 : State := sc [lt 5 1 .ready none] [(0, c0 3 false), (1, c0 3 false)] 0 0 0x12340007
def s12 : State := sc [lt 5 1 .ready none] [(2, c0 3 false)] 0 0 0x12340002
def s13 : State := sc [{ lt 5 1 .held none with waitCtr := some (2, 5) }] [(2, c0 0xF000 false)] 0 0 0x12340002
def s14 : State := sc [{ lt 5 1 .held none with waitCtr := some (2, 5) }] [(2, c0 0xF000 true)] 0 0 0x0002
def s15 : State := sc [{ lt 5 1 .held none with waitCtr := some (2, 5) }] [(2, c0 0xF000 true)] 0 0 0x20002
def s16 : State := sc [lt 5 1 .ready none] [(2, c0 0xF000 true)] 0 0 0x20002
def s17 : State := wr (Reg.SCH_ARG 0) 2 (svc 1 [])
def hd : State := { sc [lt 5 1 .running (some 64)] [] 0 0 0 with sch := { (sc [lt 5 1 .running (some 64)] [] 0 0 0).sch with holds := [(64, 5)] } }
def of1 (ls : List Letter) (p : Nat) : State := { sc ls [] 0 0 0 with sch := { (sc ls [] 0 0 0).sch with offered := [p] }, mgt := { (sc ls [] 0 0 0).mgt with capCores := 8 } }
def s18 : State := of1 [lt 5 1 .ready none] 64
def s19 : State := of1 [lt 5 0 .ready none] 7
def s20 : State := of1 [lt 5 0 .ready none] 64
/-- A route record and index in the registers. -/
def rt (i any kind owner ex cl : Nat) (ls : List Letter) : State :=
  sets [(Fl.SCH_ROUTE_SEL_ROUTE, i), (Fl.SCH_ROUTE_SEL_ANY, any), (Fl.SCH_ROUTE_DATA_KIND, kind), (Fl.SCH_ROUTE_DATA_OWNER, owner), (Fl.SCH_ROUTE_DATA_EXEC, ex),
    (Fl.SCH_ROUTE_DATA_CLUSTERS, cl)] (sc ls [(2, c0 3 false), (3, ⟨1, false, false, 6, 1, 7⟩)] 0 0 0)
def s21 : State := rt 4 0 3 3 3 3 []
def s22 : State := rt 5 0 3 3 3 3 []
def s23 : State := rt 5 0 3 127 3 3 []
def s24 : State := rt 4 0 3 128 3 3 []
def s25 : State := rt 4 1 3 128 3 3 []
def s26 : State := rt 7 0 3 129 3 3 []
def s27 : State := rt 7 0 0 12 3 3 []
def s28 : State := rt 4 0 0 12 3 3 [lt 5 1 .ready none]
def s29 : State := rt 3 0 0 12 3 3 [lt 5 1 .ready none]
def s30 : State := rt 3 0 0 12 3 3 [lt 5 1 .running (some 64)]
def lm (st : LState) : Letter := { lt 5 1 st none with owner := 1, exec := 7 }
def s31 : State := rt 3 0 0 1 7 3 [lm .suspended]
def s32 : State := rt 3 0 0 1 7 3 [lm .running]
def s33 : State := rt 3 0 0 1 7 3 [lt 5 0 .ready none]
def ldd (due : Nat) (w : Bool) : Letter := { lt 5 0 .held none with due := some due, waitCtr := if w then some (2, 5) else none }
def s34 : State := rt 3 0 0 1 7 3 [ldd 5000 false]
def s35 : State := rt 3 0 0 1 7 3 [ldd 5000 true]
def s36 : State := { rt 3 0 0 1 7 3 [] with sch := { (rt 3 0 0 1 7 3 [ldd 5000 true]).sch with dueNow := 512 } }
def s37 : State := rt 3 0 0 1 7 3 [ldd 5001 true]
def s38 : State := rt 3 0 0 1 7 3 [{ lt 5 0 .ready none with prio := 0 }]
def s39 : State := rt 3 0 0 1 7 3 [{ lt 5 0 .ready none with readyTick := 4000 }]
def s40 : State := rt 3 0 0 1 7 3 [lt 5 1 .ready none]
def old4 : Letter := { lt 5 2 .ready none with id := 4, readySeq := 0 }
def s41 : State := sets [(Fl.SCH_CTRL_ORDERED_MODE, 1)] (rt 3 0 0 1 7 3 [{ lt 5 2 .ready none with readySeq := 2 }, old4])
def s42 : State := rt 3 0 0 1 7 3 [lt 5 2 .ready none]
def s43 : State := rt 3 0 0 1 7 3 [lt 5 6 .ready none]
def s44 : State := sets [(Fl.SCH_STATUS_BRACE_HOLD, 1)] (rt 3 0 0 1 7 3 [lt 5 6 .ready none])
def s45 : State := rt 3 0 0 1 7 3 [lt 5 5 .ready none]
def rq (pre : Bool) : ReadEntry := ⟨9, 1, 1, 2, pre, [4], 0, none, 7, 0, false, false, 0, [], none, false⟩
def rs (pre : Bool) : State := { rt 3 0 0 1 7 3 [] with sch := { (rt 3 0 0 1 7 3 []).sch with reads := [rq pre] }, ftl := { (io []).ftl with map := [(mapKey 1 2, ⟨0, 3, 4, [], 16, false, 0⟩)] } }
def s46 : State := rs true
def s47 : State := rs false
def le (tg : Nat) (a : Word) : Letter := { lt 5 tg .running none with arg0 := a }
def s48 : State := rt 3 0 0 1 7 3 [le 2 4096]
def s49 : State := rt 3 0 0 1 7 3 [le 3 4096]
def s50 : State := rt 3 0 0 1 7 3 [le 4 0x4000000]
def s51 : State := { rt 3 0 0 1 7 3 [le 5 4096] with scan := { (io []).scan with ends := [(5, 3)] } }

theorem test_SortingPorts :
    (pdOn 6 s1 = true ∧ portAllows 64 3 = true ∧ (∀ l ∈ s1.sch.letters, (l.state = LState.held → l.due = none → ctrClear l s1 = false) ∧
      (l.target = 0 → ∃ c < 8, l.clusters / 2 ^ c % 2 = 1 ∧ clusterServes c s1 = true)) ∧ (∀ l ∈ s1.sch.letters, ∀ k ∈ s1.sch.letters,
      l.id = k.id → l = k) ∧ s1.sch.signals = [] ∧ orderedMode s1 = false ∧ svCall 64 1 s1 = none ∧ portActor 64 s1 = some fw ∧
      refusals (some fw) (subRecOf (rd (Reg.SCH_SUBMIT_D 64 0) s1) (rd (Reg.SCH_SUBMIT_D 64 1) s1)) s1 = [] ∧ SMap.find s1.sch.routes
      (subRecOf (rd (Reg.SCH_SUBMIT_D 64 0) s1) (rd (Reg.SCH_SUBMIT_D 64 1) s1)).route = some
      { kind := 1, owner := 128, exec := 0, clusters := 255, deleting := false : Route } ∧ s1.sch.nextId < 1048576 ∧ ((subRecOf (rd
      (Reg.SCH_SUBMIT_D 64 0) s1) (rd (Reg.SCH_SUBMIT_D 64 1) s1)).target = 0 → ∃ c < 8,
      { kind := 1, owner := 128, exec := 0, clusters := 255, deleting := false : Route }.clusters / 2 ^ c % 2 = 1 ∧ clusterServes c s1 = true) ∧
      (∀ l ∈ s1.sch.letters, l.id ≠ s1.sch.nextId)) ∧
    (pdOn 6 s2 = true ∧ portAllows 64 3 = true ∧ (∀ l ∈ s2.sch.letters, (l.state = LState.held → l.due = none → ctrClear l s2 = false) ∧
      (l.target = 0 → ∃ c < 8, l.clusters / 2 ^ c % 2 = 1 ∧ clusterServes c s2 = true)) ∧ (∀ l ∈ s2.sch.letters, ∀ k ∈ s2.sch.letters,
      l.id = k.id → l = k) ∧ s2.sch.signals = [] ∧ orderedMode s2 = false ∧ svCall 64 1 s2 = none ∧ portActor 64 s2 = some fw ∧
      refusals (some fw) (subRecOf (rd (Reg.SCH_SUBMIT_D 64 0) s2) (rd (Reg.SCH_SUBMIT_D 64 1) s2)) s2 = [] ∧ SMap.find s2.sch.routes
      (subRecOf (rd (Reg.SCH_SUBMIT_D 64 0) s2) (rd (Reg.SCH_SUBMIT_D 64 1) s2)).route = some
      { kind := 1, owner := 128, exec := 0, clusters := 255, deleting := false : Route } ∧ s2.sch.nextId < 1048576 ∧ ((subRecOf (rd
      (Reg.SCH_SUBMIT_D 64 0) s2) (rd (Reg.SCH_SUBMIT_D 64 1) s2)).target = 0 → ∃ c < 8,
      { kind := 1, owner := 128, exec := 0, clusters := 255, deleting := false : Route }.clusters / 2 ^ c % 2 = 1 ∧ clusterServes c s2 = true) ∧
      (∀ l ∈ s2.sch.letters, l.id ≠ s2.sch.nextId)) ∧
    (pdOn 6 s3 = true ∧ portAllows 64 3 = true ∧ (∀ l ∈ s3.sch.letters, (l.state = LState.held → l.due = none → ctrClear l s3 = false) ∧
      (l.target = 0 → ∃ c < 8, l.clusters / 2 ^ c % 2 = 1 ∧ clusterServes c s3 = true)) ∧ (∀ l ∈ s3.sch.letters, ∀ k ∈ s3.sch.letters,
      l.id = k.id → l = k) ∧ s3.sch.signals = [] ∧ orderedMode s3 = false ∧ svCall 64 1 s3 = none ∧ refusals (portActor 64 s3)
      (subRecOf (rd (Reg.SCH_SUBMIT_D 64 0) s3) (rd (Reg.SCH_SUBMIT_D 64 1) s3)) s3 = [3] ∧ 3 ≠ 1 ∧ 3 < 8) ∧
    (pdOn 6 s4 = true ∧ portAllows 64 16 = true ∧ (∀ l ∈ s4.sch.letters, (l.state = LState.held → l.due = none → ctrClear l s4 = false) ∧
      (l.target = 0 → ∃ c < 8, l.clusters / 2 ^ c % 2 = 1 ∧ clusterServes c s4 = true)) ∧ (∀ l ∈ s4.sch.letters, ∀ k ∈ s4.sch.letters,
      l.id = k.id → l = k) ∧ s4.sch.signals = [] ∧ orderedMode s4 = false ∧ svCall 64 2 s4 = none ∧ svCall 64 12 s4 = none ∧ letterOf
      (fget (Fl.SCH_ARG_VALUE 64) s4) s4 = some (lt 5 1 LState.suspended none)) ∧
    (pdOn 6 s5 = true ∧ portAllows 64 16 = true ∧ (∀ l ∈ s5.sch.letters, (l.state = LState.held → l.due = none → ctrClear l s5 = false) ∧
      (l.target = 0 → ∃ c < 8, l.clusters / 2 ^ c % 2 = 1 ∧ clusterServes c s5 = true)) ∧ (∀ l ∈ s5.sch.letters, ∀ k ∈ s5.sch.letters,
      l.id = k.id → l = k) ∧ s5.sch.signals = [] ∧ orderedMode s5 = false ∧ svCall 64 2 s5 = none ∧ svCall 64 12 s5 = none ∧ SMap.find
      s5.sch.past (fget (Fl.SCH_ARG_VALUE 64) s5 % 2 ^ 20) = some (2, 66) ∧ 2 = fget (Fl.SCH_ARG_VALUE 64) s5 / 2 ^ 20 ∧ (∀ l ∈
      s5.sch.letters, l.id ≠ fget (Fl.SCH_ARG_VALUE 64) s5 % 2 ^ 20) ∧ letterOf (fget (Fl.SCH_ARG_VALUE 64) s5) s5 = none) ∧
    (pdOn 6 s6 = true ∧ portAllows 0 64 = true ∧ (∀ l ∈ s6.sch.letters, (l.state = LState.held → l.due = none → ctrClear l s6 = false) ∧
      (l.target = 0 → ∃ c < 8, l.clusters / 2 ^ c % 2 = 1 ∧ clusterServes c s6 = true)) ∧ (∀ l ∈ s6.sch.letters, ∀ k ∈ s6.sch.letters,
      l.id = k.id → l = k) ∧ s6.sch.signals = [] ∧ orderedMode s6 = false ∧ svCall 0 2 s6 = none ∧ svCall 0 12 s6 = some 7) ∧
    (pdOn 6 s7 = true ∧ portAllows 64 16 = true ∧ (∀ l ∈ s7.sch.letters, (l.state = LState.held → l.due = none → ctrClear l s7 = false) ∧
      (l.target = 0 → ∃ c < 8, l.clusters / 2 ^ c % 2 = 1 ∧ clusterServes c s7 = true)) ∧ (∀ l ∈ s7.sch.letters, ∀ k ∈ s7.sch.letters,
      l.id = k.id → l = k) ∧ s7.sch.signals = [] ∧ orderedMode s7 = false ∧ svCall 64 3 s7 = none ∧ letterOf (fget (Fl.SCH_ARG_VALUE 64)
      s7) s7 = some
      { id := (lt 5 1 LState.ready none).id, gen := (lt 5 1 LState.ready none).gen, route := (lt 5 1 LState.ready none).route, kind := (lt 5 1 LState.ready none).kind, owner := (lt 5 1 LState.ready none).owner, exec := (lt 5 1 LState.ready none).exec, clusters := (lt 5 1 LState.ready none).clusters, prio := (lt 5 1 LState.ready none).prio, target := (lt 5 1 LState.ready none).target, waitCtr := (lt 5 1 LState.ready none).waitCtr, sigCtr := some (2, 5), due := (lt 5 1 LState.ready none).due, arg0 := (lt 5 1 LState.ready none).arg0, arg1 := (lt 5 1 LState.ready none).arg1, d0 := (lt 5 1 LState.ready none).d0, d1 := (lt 5 1 LState.ready none).d1, state := (lt 5 1 LState.ready none).state, seq := (lt 5 1 LState.ready none).seq, readySeq := (lt 5 1 LState.ready none).readySeq, readyTick := (lt 5 1 LState.ready none).readyTick, ordered := (lt 5 1 LState.ready none).ordered, port := (lt 5 1 LState.ready none).port : Letter }
      ∧ portActor 64 s7 = some fw ∧ actorOwns fw
      { id := (lt 5 1 LState.ready none).id, gen := (lt 5 1 LState.ready none).gen, route := (lt 5 1 LState.ready none).route, kind := (lt 5 1 LState.ready none).kind, owner := (lt 5 1 LState.ready none).owner, exec := (lt 5 1 LState.ready none).exec, clusters := (lt 5 1 LState.ready none).clusters, prio := (lt 5 1 LState.ready none).prio, target := (lt 5 1 LState.ready none).target, waitCtr := (lt 5 1 LState.ready none).waitCtr, sigCtr := some (2, 5), due := (lt 5 1 LState.ready none).due, arg0 := (lt 5 1 LState.ready none).arg0, arg1 := (lt 5 1 LState.ready none).arg1, d0 := (lt 5 1 LState.ready none).d0, d1 := (lt 5 1 LState.ready none).d1, state := (lt 5 1 LState.ready none).state, seq := (lt 5 1 LState.ready none).seq, readySeq := (lt 5 1 LState.ready none).readySeq, readyTick := (lt 5 1 LState.ready none).readyTick, ordered := (lt 5 1 LState.ready none).ordered, port := (lt 5 1 LState.ready none).port : Letter }.owner
      { id := (lt 5 1 LState.ready none).id, gen := (lt 5 1 LState.ready none).gen, route := (lt 5 1 LState.ready none).route, kind := (lt 5 1 LState.ready none).kind, owner := (lt 5 1 LState.ready none).owner, exec := (lt 5 1 LState.ready none).exec, clusters := (lt 5 1 LState.ready none).clusters, prio := (lt 5 1 LState.ready none).prio, target := (lt 5 1 LState.ready none).target, waitCtr := (lt 5 1 LState.ready none).waitCtr, sigCtr := some (2, 5), due := (lt 5 1 LState.ready none).due, arg0 := (lt 5 1 LState.ready none).arg0, arg1 := (lt 5 1 LState.ready none).arg1, d0 := (lt 5 1 LState.ready none).d0, d1 := (lt 5 1 LState.ready none).d1, state := (lt 5 1 LState.ready none).state, seq := (lt 5 1 LState.ready none).seq, readySeq := (lt 5 1 LState.ready none).readySeq, readyTick := (lt 5 1 LState.ready none).readyTick, ordered := (lt 5 1 LState.ready none).ordered, port := (lt 5 1 LState.ready none).port : Letter }.exec
      = true ∧
      ({ id := (lt 5 1 LState.ready none).id, gen := (lt 5 1 LState.ready none).gen, route := (lt 5 1 LState.ready none).route, kind := (lt 5 1 LState.ready none).kind, owner := (lt 5 1 LState.ready none).owner, exec := (lt 5 1 LState.ready none).exec, clusters := (lt 5 1 LState.ready none).clusters, prio := (lt 5 1 LState.ready none).prio, target := (lt 5 1 LState.ready none).target, waitCtr := (lt 5 1 LState.ready none).waitCtr, sigCtr := some (2, 5), due := (lt 5 1 LState.ready none).due, arg0 := (lt 5 1 LState.ready none).arg0, arg1 := (lt 5 1 LState.ready none).arg1, d0 := (lt 5 1 LState.ready none).d0, d1 := (lt 5 1 LState.ready none).d1, state := (lt 5 1 LState.ready none).state, seq := (lt 5 1 LState.ready none).seq, readySeq := (lt 5 1 LState.ready none).readySeq, readyTick := (lt 5 1 LState.ready none).readyTick, ordered := (lt 5 1 LState.ready none).ordered, port := (lt 5 1 LState.ready none).port : Letter }.state
      = LState.held ∨
      { id := (lt 5 1 LState.ready none).id, gen := (lt 5 1 LState.ready none).gen, route := (lt 5 1 LState.ready none).route, kind := (lt 5 1 LState.ready none).kind, owner := (lt 5 1 LState.ready none).owner, exec := (lt 5 1 LState.ready none).exec, clusters := (lt 5 1 LState.ready none).clusters, prio := (lt 5 1 LState.ready none).prio, target := (lt 5 1 LState.ready none).target, waitCtr := (lt 5 1 LState.ready none).waitCtr, sigCtr := some (2, 5), due := (lt 5 1 LState.ready none).due, arg0 := (lt 5 1 LState.ready none).arg0, arg1 := (lt 5 1 LState.ready none).arg1, d0 := (lt 5 1 LState.ready none).d0, d1 := (lt 5 1 LState.ready none).d1, state := (lt 5 1 LState.ready none).state, seq := (lt 5 1 LState.ready none).seq, readySeq := (lt 5 1 LState.ready none).readySeq, readyTick := (lt 5 1 LState.ready none).readyTick, ordered := (lt 5 1 LState.ready none).ordered, port := (lt 5 1 LState.ready none).port : Letter }.state
      = LState.ready) ∧
      { id := (lt 5 1 LState.ready none).id, gen := (lt 5 1 LState.ready none).gen, route := (lt 5 1 LState.ready none).route, kind := (lt 5 1 LState.ready none).kind, owner := (lt 5 1 LState.ready none).owner, exec := (lt 5 1 LState.ready none).exec, clusters := (lt 5 1 LState.ready none).clusters, prio := (lt 5 1 LState.ready none).prio, target := (lt 5 1 LState.ready none).target, waitCtr := (lt 5 1 LState.ready none).waitCtr, sigCtr := some (2, 5), due := (lt 5 1 LState.ready none).due, arg0 := (lt 5 1 LState.ready none).arg0, arg1 := (lt 5 1 LState.ready none).arg1, d0 := (lt 5 1 LState.ready none).d0, d1 := (lt 5 1 LState.ready none).d1, state := (lt 5 1 LState.ready none).state, seq := (lt 5 1 LState.ready none).seq, readySeq := (lt 5 1 LState.ready none).readySeq, readyTick := (lt 5 1 LState.ready none).readyTick, ordered := (lt 5 1 LState.ready none).ordered, port := (lt 5 1 LState.ready none).port : Letter }.kind
      ≠ 3) ∧
    (pdOn 6 s8 = true ∧ portAllows 64 16 = true ∧ (∀ l ∈ s8.sch.letters, (l.state = LState.held → l.due = none → ctrClear l s8 = false) ∧
      (l.target = 0 → ∃ c < 8, l.clusters / 2 ^ c % 2 = 1 ∧ clusterServes c s8 = true)) ∧ (∀ l ∈ s8.sch.letters, ∀ k ∈ s8.sch.letters,
      l.id = k.id → l = k) ∧ s8.sch.signals = [] ∧ orderedMode s8 = false ∧ svCall 64 3 s8 = none ∧ letterOf (fget (Fl.SCH_ARG_VALUE 64)
      s8) s8 = some (lt 5 1 LState.running (some 65)) ∧ portActor 64 s8 = some fw ∧ actorOwns fw (lt 5 1 LState.running (some 65)).owner
      (lt 5 1 LState.running (some 65)).exec = true ∧ ((lt 5 1 LState.running (some 65)).state = LState.running ∨ (lt 5 1 LState.running (some
      65)).state = LState.suspended)) := by
  refine ⟨?_, ?_, ?_, ?_, ?_, ?_, ?_, ?_⟩ <;> decide +kernel

theorem test_SortingPorts_2 :
    (pdOn 6 s9 = true ∧ portAllows 64 16 = true ∧ (∀ l ∈ s9.sch.letters, (l.state = LState.held → l.due = none → ctrClear l s9 = false) ∧
      (l.target = 0 → ∃ c < 8, l.clusters / 2 ^ c % 2 = 1 ∧ clusterServes c s9 = true)) ∧ (∀ l ∈ s9.sch.letters, ∀ k ∈ s9.sch.letters,
      l.id = k.id → l = k) ∧ s9.sch.signals = [] ∧ orderedMode s9 = false ∧ svCall 64 3 s9 = none ∧ letterOf (fget (Fl.SCH_ARG_VALUE 64)
      s9) s9 = none) ∧
    (pdOn 6 s10 = true ∧ portAllows 0 64 = true ∧ (∀ l ∈ s10.sch.letters, (l.state = LState.held → l.due = none → ctrClear l s10 = false)
      ∧ (l.target = 0 → ∃ c < 8, l.clusters / 2 ^ c % 2 = 1 ∧ clusterServes c s10 = true)) ∧ (∀ l ∈ s10.sch.letters, ∀ k ∈
      s10.sch.letters, l.id = k.id → l = k) ∧ s10.sch.signals = [] ∧ orderedMode s10 = false ∧ svCall 0 3 s10 = none ∧ letterOf (fget
      (Fl.SCH_ARG_VALUE 0) s10) s10 = some (lt 6 1 LState.ready none) ∧ portActor 0 s10 = some (1, 7, false) ∧ actorOwns (1, 7, false) (lt
      6 1 LState.ready none).owner (lt 6 1 LState.ready none).exec = false) ∧
    ((∃ n < 65536, SMap.find s11.sch.ctrs n = none) ∧ pdOn 6 s11 = true ∧ portAllows 64 17 = true ∧ (∀ l ∈ s11.sch.letters, (l.state =
      LState.held → l.due = none → ctrClear l s11 = false) ∧ (l.target = 0 → ∃ c < 8, l.clusters / 2 ^ c % 2 = 1 ∧ clusterServes c s11 =
      true)) ∧ (∀ l ∈ s11.sch.letters, ∀ k ∈ s11.sch.letters, l.id = k.id → l = k) ∧ s11.sch.signals = [] ∧ orderedMode s11 = false ∧
      svCall 64 4 s11 = none ∧ portActor 64 s11 = some fw ∧ fget (Fl.SCH_ARG_VALUE 64) s11 < 2 ^ 32) ∧
    (pdOn 6 s12 = true ∧ portAllows 64 17 = true ∧ (∀ l ∈ s12.sch.letters, (l.state = LState.held → l.due = none → ctrClear l s12 = false)
      ∧ (l.target = 0 → ∃ c < 8, l.clusters / 2 ^ c % 2 = 1 ∧ clusterServes c s12 = true)) ∧ (∀ l ∈ s12.sch.letters, ∀ k ∈
      s12.sch.letters, l.id = k.id → l = k) ∧ s12.sch.signals = [] ∧ orderedMode s12 = false ∧ svCall 64 4 s12 = none ∧ portActor 64
      s12 = some fw ∧ fget (Fl.SCH_ARG_VALUE 64) s12 < 2 ^ 32 ∧ SMap.find s12.sch.ctrs (fget (Fl.SCH_ARG_VALUE 64) s12 % 65536) = some
      (c0 3 false) ∧ actorOwns fw (c0 3 false).owner (c0 3 false).exec = true ∧ (c0 3 false).value ≤ 65535 ∧ (c0 3 false).value + fget
      (Fl.SCH_ARG_VALUE 64) s12 / 65536 ≤ 65535 ∧ (c0 3 false).sat = false) ∧
    (pdOn 6 s13 = true ∧ portAllows 64 17 = true ∧ (∀ l ∈ s13.sch.letters, (l.state = LState.held → l.due = none → ctrClear l s13 = false)
      ∧ (l.target = 0 → ∃ c < 8, l.clusters / 2 ^ c % 2 = 1 ∧ clusterServes c s13 = true)) ∧ (∀ l ∈ s13.sch.letters, ∀ k ∈
      s13.sch.letters, l.id = k.id → l = k) ∧ s13.sch.signals = [] ∧ orderedMode s13 = false ∧ svCall 64 4 s13 = none ∧ portActor 64
      s13 = some fw ∧ fget (Fl.SCH_ARG_VALUE 64) s13 < 2 ^ 32 ∧ SMap.find s13.sch.ctrs (fget (Fl.SCH_ARG_VALUE 64) s13 % 65536) = some
      (c0 61440 false) ∧ actorOwns fw (c0 61440 false).owner (c0 61440 false).exec = true ∧ (c0 61440 false).value ≤ 65535 ∧ 65535 < (c0 61440
      false).value + fget (Fl.SCH_ARG_VALUE 64) s13 / 65536 ∧ (∀ l ∈ s13.sch.letters, l.sigCtr = none)) ∧
    (pdOn 6 s14 = true ∧ portAllows 64 17 = true ∧ (∀ l ∈ s14.sch.letters, (l.state = LState.held → l.due = none → ctrClear l s14 = false)
      ∧ (l.target = 0 → ∃ c < 8, l.clusters / 2 ^ c % 2 = 1 ∧ clusterServes c s14 = true)) ∧ (∀ l ∈ s14.sch.letters, ∀ k ∈
      s14.sch.letters, l.id = k.id → l = k) ∧ s14.sch.signals = [] ∧ orderedMode s14 = false ∧ svCall 64 4 s14 = none ∧ portActor 64
      s14 = some fw ∧ fget (Fl.SCH_ARG_VALUE 64) s14 < 2 ^ 32 ∧ SMap.find s14.sch.ctrs (fget (Fl.SCH_ARG_VALUE 64) s14 % 65536) = some
      (c0 61440 true) ∧ actorOwns fw (c0 61440 true).owner (c0 61440 true).exec = true ∧ (c0 61440 true).value ≤ 65535 ∧
      { id := (lt 5 1 LState.held none).id, gen := (lt 5 1 LState.held none).gen, route := (lt 5 1 LState.held none).route, kind := (lt 5 1 LState.held none).kind, owner := (lt 5 1 LState.held none).owner, exec := (lt 5 1 LState.held none).exec, clusters := (lt 5 1 LState.held none).clusters, prio := (lt 5 1 LState.held none).prio, target := (lt 5 1 LState.held none).target, waitCtr := some (2, 5), sigCtr := (lt 5 1 LState.held none).sigCtr, due := (lt 5 1 LState.held none).due, arg0 := (lt 5 1 LState.held none).arg0, arg1 := (lt 5 1 LState.held none).arg1, d0 := (lt 5 1 LState.held none).d0, d1 := (lt 5 1 LState.held none).d1, state := (lt 5 1 LState.held none).state, seq := (lt 5 1 LState.held none).seq, readySeq := (lt 5 1 LState.held none).readySeq, readyTick := (lt 5 1 LState.held none).readyTick, ordered := (lt 5 1 LState.held none).ordered, port := (lt 5 1 LState.held none).port : Letter }
      ∈ s14.sch.letters ∧ fget (Fl.SCH_ARG_VALUE 64) s14 / 65536 = 0 ∧
      { id := (lt 5 1 LState.held none).id, gen := (lt 5 1 LState.held none).gen, route := (lt 5 1 LState.held none).route, kind := (lt 5 1 LState.held none).kind, owner := (lt 5 1 LState.held none).owner, exec := (lt 5 1 LState.held none).exec, clusters := (lt 5 1 LState.held none).clusters, prio := (lt 5 1 LState.held none).prio, target := (lt 5 1 LState.held none).target, waitCtr := some (2, 5), sigCtr := (lt 5 1 LState.held none).sigCtr, due := (lt 5 1 LState.held none).due, arg0 := (lt 5 1 LState.held none).arg0, arg1 := (lt 5 1 LState.held none).arg1, d0 := (lt 5 1 LState.held none).d0, d1 := (lt 5 1 LState.held none).d1, state := (lt 5 1 LState.held none).state, seq := (lt 5 1 LState.held none).seq, readySeq := (lt 5 1 LState.held none).readySeq, readyTick := (lt 5 1 LState.held none).readyTick, ordered := (lt 5 1 LState.held none).ordered, port := (lt 5 1 LState.held none).port : Letter }.state
      = LState.held ∧
      { id := (lt 5 1 LState.held none).id, gen := (lt 5 1 LState.held none).gen, route := (lt 5 1 LState.held none).route, kind := (lt 5 1 LState.held none).kind, owner := (lt 5 1 LState.held none).owner, exec := (lt 5 1 LState.held none).exec, clusters := (lt 5 1 LState.held none).clusters, prio := (lt 5 1 LState.held none).prio, target := (lt 5 1 LState.held none).target, waitCtr := some (2, 5), sigCtr := (lt 5 1 LState.held none).sigCtr, due := (lt 5 1 LState.held none).due, arg0 := (lt 5 1 LState.held none).arg0, arg1 := (lt 5 1 LState.held none).arg1, d0 := (lt 5 1 LState.held none).d0, d1 := (lt 5 1 LState.held none).d1, state := (lt 5 1 LState.held none).state, seq := (lt 5 1 LState.held none).seq, readySeq := (lt 5 1 LState.held none).readySeq, readyTick := (lt 5 1 LState.held none).readyTick, ordered := (lt 5 1 LState.held none).ordered, port := (lt 5 1 LState.held none).port : Letter }.due
      = none ∧
      { id := (lt 5 1 LState.held none).id, gen := (lt 5 1 LState.held none).gen, route := (lt 5 1 LState.held none).route, kind := (lt 5 1 LState.held none).kind, owner := (lt 5 1 LState.held none).owner, exec := (lt 5 1 LState.held none).exec, clusters := (lt 5 1 LState.held none).clusters, prio := (lt 5 1 LState.held none).prio, target := (lt 5 1 LState.held none).target, waitCtr := some (2, 5), sigCtr := (lt 5 1 LState.held none).sigCtr, due := (lt 5 1 LState.held none).due, arg0 := (lt 5 1 LState.held none).arg0, arg1 := (lt 5 1 LState.held none).arg1, d0 := (lt 5 1 LState.held none).d0, d1 := (lt 5 1 LState.held none).d1, state := (lt 5 1 LState.held none).state, seq := (lt 5 1 LState.held none).seq, readySeq := (lt 5 1 LState.held none).readySeq, readyTick := (lt 5 1 LState.held none).readyTick, ordered := (lt 5 1 LState.held none).ordered, port := (lt 5 1 LState.held none).port : Letter }.waitCtr
      = some (fget (Fl.SCH_ARG_VALUE 64) s14 % 65536, (c0 61440 true).alloc)) ∧
    (pdOn 6 s15 = true ∧ portAllows 64 17 = true ∧ (∀ l ∈ s15.sch.letters, (l.state = LState.held → l.due = none → ctrClear l s15 = false)
      ∧ (l.target = 0 → ∃ c < 8, l.clusters / 2 ^ c % 2 = 1 ∧ clusterServes c s15 = true)) ∧ (∀ l ∈ s15.sch.letters, ∀ k ∈
      s15.sch.letters, l.id = k.id → l = k) ∧ s15.sch.signals = [] ∧ orderedMode s15 = false ∧ svCall 64 4 s15 = none ∧ portActor 64
      s15 = some fw ∧ fget (Fl.SCH_ARG_VALUE 64) s15 < 2 ^ 32 ∧ SMap.find s15.sch.ctrs (fget (Fl.SCH_ARG_VALUE 64) s15 % 65536) = some
      (c0 61440 true) ∧ actorOwns fw (c0 61440 true).owner (c0 61440 true).exec = true ∧ (c0 61440 true).value ≤ 65535 ∧ fget (Fl.SCH_ARG_VALUE 64)
      s15 / 65536 ≠ 0) ∧
    (pdOn 6 s15 = true ∧ portAllows 64 17 = true ∧ (∀ l ∈ s15.sch.letters, (l.state = LState.held → l.due = none → ctrClear l s15 = false)
      ∧ (l.target = 0 → ∃ c < 8, l.clusters / 2 ^ c % 2 = 1 ∧ clusterServes c s15 = true)) ∧ (∀ l ∈ s15.sch.letters, ∀ k ∈
      s15.sch.letters, l.id = k.id → l = k) ∧ s15.sch.signals = [] ∧ orderedMode s15 = false ∧ svCall 64 4 s15 = none ∧ portActor 64
      s15 = some fw ∧ fget (Fl.SCH_ARG_VALUE 64) s15 < 2 ^ 32 ∧ SMap.find s15.sch.ctrs (fget (Fl.SCH_ARG_VALUE 64) s15 % 65536) = some
      (c0 61440 true) ∧ actorOwns fw (c0 61440 true).owner (c0 61440 true).exec = true ∧ (c0 61440 true).value ≤ 65535) := ⟨by decide +kernel, by decide +kernel, ⟨⟨60000, by decide +kernel, by decide +kernel⟩, by decide +kernel⟩, by decide +kernel, by decide +kernel,
    by decide +kernel, by decide +kernel, by decide +kernel⟩

theorem test_SortingPorts_3 :
    (pdOn 6 s16 = true ∧ portAllows 64 17 = true ∧ (∀ l ∈ s16.sch.letters, (l.state = LState.held → l.due = none → ctrClear l s16 = false)
      ∧ (l.target = 0 → ∃ c < 8, l.clusters / 2 ^ c % 2 = 1 ∧ clusterServes c s16 = true)) ∧ (∀ l ∈ s16.sch.letters, ∀ k ∈
      s16.sch.letters, l.id = k.id → l = k) ∧ s16.sch.signals = [] ∧ orderedMode s16 = false ∧ svCall 64 4 s16 = none ∧ portActor 64
      s16 = some fw ∧ fget (Fl.SCH_ARG_VALUE 64) s16 < 2 ^ 32 ∧ SMap.find s16.sch.ctrs (fget (Fl.SCH_ARG_VALUE 64) s16 % 65536) = some
      (c0 61440 true) ∧ actorOwns fw (c0 61440 true).owner (c0 61440 true).exec = true ∧ (c0 61440 true).value ≤ 65535 ∧ (∀ l ∈ s16.sch.letters,
      l.waitCtr ≠ some (fget (Fl.SCH_ARG_VALUE 64) s16 % 65536, (c0 61440 true).alloc))) ∧
    (pdOn 6 s17 = true ∧ portAllows 0 64 = true ∧ (∀ l ∈ s17.sch.letters, (l.state = LState.held → l.due = none → ctrClear l s17 = false)
      ∧ (l.target = 0 → ∃ c < 8, l.clusters / 2 ^ c % 2 = 1 ∧ clusterServes c s17 = true)) ∧ (∀ l ∈ s17.sch.letters, ∀ k ∈
      s17.sch.letters, l.id = k.id → l = k) ∧ s17.sch.signals = [] ∧ orderedMode s17 = false ∧ svCall 0 4 s17 = none ∧ portActor 0
      s17 = some (1, 7, false) ∧ fget (Fl.SCH_ARG_VALUE 0) s17 < 2 ^ 32 ∧ SMap.find s17.sch.ctrs (fget (Fl.SCH_ARG_VALUE 0) s17 %
      65536) = some (c0 3 false) ∧ actorOwns (1, 7, false) (c0 3 false).owner (c0 3 false).exec = false) ∧
    (pdOn 6 hd = true ∧ portAllows 64 0 = true ∧ (∀ l ∈ hd.sch.letters, (l.state = LState.held → l.due = none → ctrClear l hd = false) ∧ (l.target
      = 0 → ∃ c < 8, l.clusters / 2 ^ c % 2 = 1 ∧ clusterServes c hd = true)) ∧ (∀ l ∈ hd.sch.letters, ∀ k ∈ hd.sch.letters, l.id = k.id → l = k) ∧
      hd.sch.signals = [] ∧ orderedMode hd = false ∧ heldBy 64 hd = some (lt 5 1 LState.running (some 64))) ∧
    (pdOn 6 s18 = true ∧ portAllows 64 0 = true ∧ (∀ l ∈ s18.sch.letters, (l.state = LState.held → l.due = none → ctrClear l s18 = false)
      ∧ (l.target = 0 → ∃ c < 8, l.clusters / 2 ^ c % 2 = 1 ∧ clusterServes c s18 = true)) ∧ (∀ l ∈ s18.sch.letters, ∀ k ∈
      s18.sch.letters, l.id = k.id → l = k) ∧ s18.sch.signals = [] ∧ orderedMode s18 = false ∧ heldBy 64 s18 = none ∧ 64 ∈
      s18.sch.offered ∧ s18.sch.letters = [lt 5 1 LState.ready none] ∧ (lt 5 1 LState.ready none).prio < 4 ∧ suits 64 (lt 5 1 LState.ready
      none) s18 = true ∧ (64 ≤ 64 ∨ (lt 5 1 LState.ready none).owner = 128)) ∧
    (pdOn 6 s19 = true ∧ portAllows 7 71 = true ∧ (∀ l ∈ s19.sch.letters, (l.state = LState.held → l.due = none → ctrClear l s19 = false)
      ∧ (l.target = 0 → ∃ c < 8, l.clusters / 2 ^ c % 2 = 1 ∧ clusterServes c s19 = true)) ∧ (∀ l ∈ s19.sch.letters, ∀ k ∈
      s19.sch.letters, l.id = k.id → l = k) ∧ s19.sch.signals = [] ∧ orderedMode s19 = false ∧ heldBy 7 s19 = none ∧ 7 ∈
      s19.sch.offered ∧ s19.sch.letters = [lt 5 0 LState.ready none] ∧ (lt 5 0 LState.ready none).prio < 4 ∧ suits 7 (lt 5 0 LState.ready
      none) s19 = true ∧ (64 ≤ 7 ∨ (lt 5 0 LState.ready none).owner = 128)) ∧
    (pdOn 6 s20 = true ∧ portAllows 64 0 = true ∧ (∀ l ∈ s20.sch.letters, (l.state = LState.held → l.due = none → ctrClear l s20 = false)
      ∧ (l.target = 0 → ∃ c < 8, l.clusters / 2 ^ c % 2 = 1 ∧ clusterServes c s20 = true)) ∧ (∀ l ∈ s20.sch.letters, ∀ k ∈
      s20.sch.letters, l.id = k.id → l = k) ∧ s20.sch.signals = [] ∧ orderedMode s20 = false ∧ heldBy 64 s20 = none ∧ (∀ l ∈
      s20.sch.letters, suits 64 l s20 = false)) ∧
    (pdOn 6 hd = true ∧ portAllows 64 0 = true ∧ (∀ l ∈ hd.sch.letters, (l.state = LState.held → l.due = none → ctrClear l hd = false) ∧ (l.target
      = 0 → ∃ c < 8, l.clusters / 2 ^ c % 2 = 1 ∧ clusterServes c hd = true)) ∧ (∀ l ∈ hd.sch.letters, ∀ k ∈ hd.sch.letters, l.id = k.id → l = k) ∧
      hd.sch.signals = [] ∧ orderedMode hd = false ∧ svCall 64 5 hd = none ∧ heldBy 64 hd = some (lt 5 1 LState.running (some 64))) ∧
    (pdOn 6 s20 = true ∧ portAllows 64 0 = true ∧ (∀ l ∈ s20.sch.letters, (l.state = LState.held → l.due = none → ctrClear l s20 = false)
      ∧ (l.target = 0 → ∃ c < 8, l.clusters / 2 ^ c % 2 = 1 ∧ clusterServes c s20 = true)) ∧ (∀ l ∈ s20.sch.letters, ∀ k ∈
      s20.sch.letters, l.id = k.id → l = k) ∧ s20.sch.signals = [] ∧ orderedMode s20 = false ∧ svCall 64 5 s20 = none ∧ heldBy 64
      s20 = none ∧ 64 ≤ 64) := by
  refine ⟨?_, ?_, ?_, ?_, ?_, ?_, ?_, ?_⟩ <;> decide +kernel

theorem test_SortingRoutes :
    (pdOn 6 s21 = true ∧ (11 ≤ 11 ∨ 11 = 16 ∨ 11 = 17) ∧ SMap.find s21.sch.routes (fget Fl.SCH_ROUTE_SEL_ROUTE s21) = some
      { kind := 2, owner := 1, exec := 7, clusters := 1, deleting := false : Route } ∧
      { kind := 2, owner := 1, exec := 7, clusters := 1, deleting := false : Route }.owner < 256 ∧
      { kind := 2, owner := 1, exec := 7, clusters := 1, deleting := false : Route }.exec < 65536 ∧
      { kind := 2, owner := 1, exec := 7, clusters := 1, deleting := false : Route }.clusters < 256 ∧
      { kind := 2, owner := 1, exec := 7, clusters := 1, deleting := false : Route }.kind < 4) ∧
    (pdOn 6 s22 = true ∧ (11 ≤ 11 ∨ 11 = 16 ∨ 11 = 17) ∧ SMap.find s22.sch.routes (fget Fl.SCH_ROUTE_SEL_ROUTE s22) = none) ∧
    (pdOn 6 s23 = true ∧ (11 ≤ 11 ∨ 11 = 16 ∨ 11 = 17) ∧
      { kind := fget Fl.SCH_ROUTE_DATA_KIND s23, owner := fget Fl.SCH_ROUTE_DATA_OWNER s23, exec := fget Fl.SCH_ROUTE_DATA_EXEC s23, clusters := fget Fl.SCH_ROUTE_DATA_CLUSTERS s23, deleting := false : Route }.kind
      ≠ 0 ∧
      { kind := fget Fl.SCH_ROUTE_DATA_KIND s23, owner := fget Fl.SCH_ROUTE_DATA_OWNER s23, exec := fget Fl.SCH_ROUTE_DATA_EXEC s23, clusters := fget Fl.SCH_ROUTE_DATA_CLUSTERS s23, deleting := false : Route }.owner
      ≤ 128 ∧ fget Fl.SCH_ROUTE_SEL_ANY s23 = 0 ∧ SMap.find s23.sch.routes (fget Fl.SCH_ROUTE_SEL_ROUTE s23) = none) ∧
    (pdOn 6 s24 = true ∧ (11 ≤ 11 ∨ 11 = 16 ∨ 11 = 17) ∧
      { kind := fget Fl.SCH_ROUTE_DATA_KIND s24, owner := fget Fl.SCH_ROUTE_DATA_OWNER s24, exec := fget Fl.SCH_ROUTE_DATA_EXEC s24, clusters := fget Fl.SCH_ROUTE_DATA_CLUSTERS s24, deleting := false : Route }.kind
      ≠ 0 ∧
      { kind := fget Fl.SCH_ROUTE_DATA_KIND s24, owner := fget Fl.SCH_ROUTE_DATA_OWNER s24, exec := fget Fl.SCH_ROUTE_DATA_EXEC s24, clusters := fget Fl.SCH_ROUTE_DATA_CLUSTERS s24, deleting := false : Route }.owner
      ≤ 128 ∧ fget Fl.SCH_ROUTE_SEL_ANY s24 = 0 ∧ SMap.find s24.sch.routes (fget Fl.SCH_ROUTE_SEL_ROUTE s24) ≠ none) ∧
    (pdOn 6 s25 = true ∧ (11 ≤ 11 ∨ 11 = 16 ∨ 11 = 17) ∧
      { kind := fget Fl.SCH_ROUTE_DATA_KIND s25, owner := fget Fl.SCH_ROUTE_DATA_OWNER s25, exec := fget Fl.SCH_ROUTE_DATA_EXEC s25, clusters := fget Fl.SCH_ROUTE_DATA_CLUSTERS s25, deleting := false : Route }.kind
      ≠ 0 ∧
      { kind := fget Fl.SCH_ROUTE_DATA_KIND s25, owner := fget Fl.SCH_ROUTE_DATA_OWNER s25, exec := fget Fl.SCH_ROUTE_DATA_EXEC s25, clusters := fget Fl.SCH_ROUTE_DATA_CLUSTERS s25, deleting := false : Route }.owner
      ≤ 128 ∧ fget Fl.SCH_ROUTE_SEL_ANY s25 = 1 ∧ 0 < 262144 ∧ SMap.find s25.sch.routes 0 = none) ∧
    (pdOn 6 s26 = true ∧ (11 ≤ 11 ∨ 11 = 16 ∨ 11 = 17) ∧
      ({ kind := fget Fl.SCH_ROUTE_DATA_KIND s26, owner := fget Fl.SCH_ROUTE_DATA_OWNER s26, exec := fget Fl.SCH_ROUTE_DATA_EXEC s26, clusters := fget Fl.SCH_ROUTE_DATA_CLUSTERS s26, deleting := false : Route }.kind
      = 0 ∨ 128 <
      { kind := fget Fl.SCH_ROUTE_DATA_KIND s26, owner := fget Fl.SCH_ROUTE_DATA_OWNER s26, exec := fget Fl.SCH_ROUTE_DATA_EXEC s26, clusters := fget Fl.SCH_ROUTE_DATA_CLUSTERS s26, deleting := false : Route }.owner)) ∧
    (pdOn 6 s27 = true ∧ (11 ≤ 11 ∨ 11 = 16 ∨ 11 = 17) ∧
      ({ kind := fget Fl.SCH_ROUTE_DATA_KIND s27, owner := fget Fl.SCH_ROUTE_DATA_OWNER s27, exec := fget Fl.SCH_ROUTE_DATA_EXEC s27, clusters := fget Fl.SCH_ROUTE_DATA_CLUSTERS s27, deleting := false : Route }.kind
      = 0 ∨ 128 <
      { kind := fget Fl.SCH_ROUTE_DATA_KIND s27, owner := fget Fl.SCH_ROUTE_DATA_OWNER s27, exec := fget Fl.SCH_ROUTE_DATA_EXEC s27, clusters := fget Fl.SCH_ROUTE_DATA_CLUSTERS s27, deleting := false : Route }.owner)) := by
  refine ⟨?_, ?_, ?_, ?_, ?_, ?_, ?_⟩ <;> decide +kernel

theorem test_SortingRoutes_2 :
    (pdOn 6 s28 = true ∧ (11 ≤ 11 ∨ 11 = 16 ∨ 11 = 17) ∧ SMap.find s28.sch.routes (fget Fl.SCH_ROUTE_SEL_ROUTE s28) = some
      { kind := 2, owner := 1, exec := 7, clusters := 1, deleting := false : Route } ∧ (∀ l ∈ s28.sch.letters, l.route ≠ fget
      Fl.SCH_ROUTE_SEL_ROUTE s28) ∧ SMap.sorted s28.sch.routes = true) ∧
    (pdOn 6 s29 = true ∧ (11 ≤ 11 ∨ 11 = 16 ∨ 11 = 17) ∧ SMap.find s29.sch.routes (fget Fl.SCH_ROUTE_SEL_ROUTE s29) = some
      { kind := 1, owner := 128, exec := 0, clusters := 255, deleting := false : Route } ∧ s29.sch.letters = [lt 5 1 LState.ready none] ∧ (lt 5
      1 LState.ready none).route = fget Fl.SCH_ROUTE_SEL_ROUTE s29 ∧ (lt 5 1 LState.ready none).sigCtr = none ∧ SMap.sorted s29.sch.routes =
      true ∧ s29.sch.signals = [] ∧ ((lt 5 1 LState.ready none).state = LState.held ∨ (lt 5 1 LState.ready none).state = LState.ready)) ∧
    (pdOn 6 s30 = true ∧ (11 ≤ 11 ∨ 11 = 16 ∨ 11 = 17) ∧ SMap.find s30.sch.routes (fget Fl.SCH_ROUTE_SEL_ROUTE s30) = some
      { kind := 1, owner := 128, exec := 0, clusters := 255, deleting := false : Route } ∧ s30.sch.letters = [lt 5 1 LState.running (some 64)] ∧
      (lt 5 1 LState.running (some 64)).route = fget Fl.SCH_ROUTE_SEL_ROUTE s30 ∧ (lt 5 1 LState.running (some 64)).sigCtr = none ∧ SMap.sorted
      s30.sch.routes = true ∧ s30.sch.signals = [] ∧ (lt 5 1 LState.running (some 64)).state = LState.running) ∧
    (pdOn 6 s31 = true ∧ (11 ≤ 11 ∨ 11 = 16 ∨ 11 = 17) ∧ s31.sch.letters = [lm LState.suspended] ∧ (lm LState.suspended).owner =
      { kind := fget Fl.SCH_ROUTE_DATA_KIND s31, owner := fget Fl.SCH_ROUTE_DATA_OWNER s31, exec := fget Fl.SCH_ROUTE_DATA_EXEC s31, clusters := fget Fl.SCH_ROUTE_DATA_CLUSTERS s31, deleting := false : Route }.owner
      ∧ (lm LState.suspended).exec =
      { kind := fget Fl.SCH_ROUTE_DATA_KIND s31, owner := fget Fl.SCH_ROUTE_DATA_OWNER s31, exec := fget Fl.SCH_ROUTE_DATA_EXEC s31, clusters := fget Fl.SCH_ROUTE_DATA_CLUSTERS s31, deleting := false : Route }.exec
      ∧ (lm LState.suspended).sigCtr = none ∧ s31.sch.signals = [] ∧ (∀ e ∈ s31.media.chans, e.1 < 32) ∧ (lm LState.suspended).state ≠
      LState.running) ∧
    (pdOn 6 s32 = true ∧ (11 ≤ 11 ∨ 11 = 16 ∨ 11 = 17) ∧ s32.sch.letters = [lm LState.running] ∧ (lm LState.running).owner =
      { kind := fget Fl.SCH_ROUTE_DATA_KIND s32, owner := fget Fl.SCH_ROUTE_DATA_OWNER s32, exec := fget Fl.SCH_ROUTE_DATA_EXEC s32, clusters := fget Fl.SCH_ROUTE_DATA_CLUSTERS s32, deleting := false : Route }.owner
      ∧ (lm LState.running).exec =
      { kind := fget Fl.SCH_ROUTE_DATA_KIND s32, owner := fget Fl.SCH_ROUTE_DATA_OWNER s32, exec := fget Fl.SCH_ROUTE_DATA_EXEC s32, clusters := fget Fl.SCH_ROUTE_DATA_CLUSTERS s32, deleting := false : Route }.exec
      ∧ (lm LState.running).sigCtr = none ∧ s32.sch.signals = [] ∧ (∀ e ∈ s32.media.chans, e.1 < 32) ∧ (lm LState.running).state =
      LState.running) ∧
    (pdOn 6 s33 = true ∧ (11 ≤ 11 ∨ 11 = 16 ∨ 11 = 17) ∧ SMap.find s33.sch.routes (fget Fl.SCH_ROUTE_SEL_ROUTE s33) = some
      { kind := 1, owner := 128, exec := 0, clusters := 255, deleting := false : Route } ∧ s33.sch.letters = [lt 5 0 LState.ready none] ∧ (lt 5
      0 LState.ready none).route = fget Fl.SCH_ROUTE_SEL_ROUTE s33 ∧ (lt 5 0 LState.ready none).state = LState.ready ∧ ((lt 5 0 LState.ready
      none).target = 0 → ∃ c < 8,
      { kind := fget Fl.SCH_ROUTE_DATA_KIND s33, owner := fget Fl.SCH_ROUTE_DATA_OWNER s33, exec := fget Fl.SCH_ROUTE_DATA_EXEC s33, clusters := fget Fl.SCH_ROUTE_DATA_CLUSTERS s33, deleting := false : Route }.clusters
      / 2 ^ c % 2 = 1 ∧ clusterServes c s33 = true)) ∧
    (pdOn 6 s33 = true ∧ (16 ≤ 11 ∨ 16 = 16 ∨ 16 = 17)) := by
  refine ⟨?_, ?_, ?_, ?_, ?_, ?_, ?_⟩ <;> decide +kernel

theorem test_SortingRoutes_3 :
    (pdOn 6 s34 = true ∧ (16 ≤ 11 ∨ 16 = 16 ∨ 16 = 17) ∧ s34.sch.letters = [ldd 5000 false] ∧ (ldd 5000 false).state = LState.held ∧ (ldd
      5000 false).due = some 5000 ∧ fget Fl.SCH_STATUS_FROZEN s34 = 0 ∧ 5000 ≤ BitVec.toNat (rd Reg.SCH_TICK s34) ∧ s34.sch.dueNow < 512 ∧
      ((ldd 5000 false).target = 0 → ∃ c < 8, (ldd 5000 false).clusters / 2 ^ c % 2 = 1 ∧ clusterServes c s34 = true) ∧ ctrClear (ldd 5000
      false) s34 = true) ∧
    (pdOn 6 s35 = true ∧ (16 ≤ 11 ∨ 16 = 16 ∨ 16 = 17) ∧ s35.sch.letters = [ldd 5000 true] ∧ (ldd 5000 true).state = LState.held ∧ (ldd 5000
      true).due = some 5000 ∧ fget Fl.SCH_STATUS_FROZEN s35 = 0 ∧ 5000 ≤ BitVec.toNat (rd Reg.SCH_TICK s35) ∧ s35.sch.dueNow < 512 ∧
      ctrClear (ldd 5000 true) s35 = false) ∧
    (pdOn 6 s36 = true ∧ (16 ≤ 11 ∨ 16 = 16 ∨ 16 = 17) ∧ s36.sch.letters = [ldd 5000 true] ∧ (ldd 5000 true).state = LState.held ∧ (ldd 5000
      true).due = some 5000 ∧ fget Fl.SCH_STATUS_FROZEN s36 = 0 ∧ 5000 ≤ BitVec.toNat (rd Reg.SCH_TICK s36) ∧ 512 ≤ s36.sch.dueNow ∧
      s36.sch.burst = false) ∧
    (pdOn 6 s37 = true ∧ (16 ≤ 11 ∨ 16 = 16 ∨ 16 = 17) ∧ s37.sch.letters = [ldd 5001 true] ∧ (ldd 5001 true).state = LState.held ∧ (ldd 5001
      true).due = some 5001 ∧ fget Fl.SCH_STATUS_FROZEN s37 = 0 ∧ BitVec.toNat (rd Reg.SCH_TICK s37) < 5001) ∧
    (pdOn 6 s33 = true ∧ (16 ≤ 11 ∨ 16 = 16 ∨ 16 = 17) ∧ s33.sch.letters = [lt 5 0 LState.ready none] ∧ (lt 5 0 LState.ready none).state =
      LState.ready ∧ fget Fl.SCH_CFG_AGE_US s33 ≠ 0 ∧ 0 < (lt 5 0 LState.ready none).prio ∧ (lt 5 0 LState.ready none).readyTick + fget
      Fl.SCH_CFG_AGE_US s33 < BitVec.toNat (rd Reg.SCH_TICK s33)) ∧
    (pdOn 6 s38 = true ∧ (16 ≤ 11 ∨ 16 = 16 ∨ 16 = 17) ∧ s38.sch.letters =
      [{ id := (lt 5 0 LState.ready none).id, gen := (lt 5 0 LState.ready none).gen, route := (lt 5 0 LState.ready none).route, kind := (lt 5 0 LState.ready none).kind, owner := (lt 5 0 LState.ready none).owner, exec := (lt 5 0 LState.ready none).exec, clusters := (lt 5 0 LState.ready none).clusters, prio := 0, target := (lt 5 0 LState.ready none).target, waitCtr := (lt 5 0 LState.ready none).waitCtr, sigCtr := (lt 5 0 LState.ready none).sigCtr, due := (lt 5 0 LState.ready none).due, arg0 := (lt 5 0 LState.ready none).arg0, arg1 := (lt 5 0 LState.ready none).arg1, d0 := (lt 5 0 LState.ready none).d0, d1 := (lt 5 0 LState.ready none).d1, state := (lt 5 0 LState.ready none).state, seq := (lt 5 0 LState.ready none).seq, readySeq := (lt 5 0 LState.ready none).readySeq, readyTick := (lt 5 0 LState.ready none).readyTick, ordered := (lt 5 0 LState.ready none).ordered, port := (lt 5 0 LState.ready none).port : Letter }]
      ∧
      { id := (lt 5 0 LState.ready none).id, gen := (lt 5 0 LState.ready none).gen, route := (lt 5 0 LState.ready none).route, kind := (lt 5 0 LState.ready none).kind, owner := (lt 5 0 LState.ready none).owner, exec := (lt 5 0 LState.ready none).exec, clusters := (lt 5 0 LState.ready none).clusters, prio := 0, target := (lt 5 0 LState.ready none).target, waitCtr := (lt 5 0 LState.ready none).waitCtr, sigCtr := (lt 5 0 LState.ready none).sigCtr, due := (lt 5 0 LState.ready none).due, arg0 := (lt 5 0 LState.ready none).arg0, arg1 := (lt 5 0 LState.ready none).arg1, d0 := (lt 5 0 LState.ready none).d0, d1 := (lt 5 0 LState.ready none).d1, state := (lt 5 0 LState.ready none).state, seq := (lt 5 0 LState.ready none).seq, readySeq := (lt 5 0 LState.ready none).readySeq, readyTick := (lt 5 0 LState.ready none).readyTick, ordered := (lt 5 0 LState.ready none).ordered, port := (lt 5 0 LState.ready none).port : Letter }.state
      = LState.ready ∧ (fget Fl.SCH_CFG_AGE_US s38 = 0 ∨
      { id := (lt 5 0 LState.ready none).id, gen := (lt 5 0 LState.ready none).gen, route := (lt 5 0 LState.ready none).route, kind := (lt 5 0 LState.ready none).kind, owner := (lt 5 0 LState.ready none).owner, exec := (lt 5 0 LState.ready none).exec, clusters := (lt 5 0 LState.ready none).clusters, prio := 0, target := (lt 5 0 LState.ready none).target, waitCtr := (lt 5 0 LState.ready none).waitCtr, sigCtr := (lt 5 0 LState.ready none).sigCtr, due := (lt 5 0 LState.ready none).due, arg0 := (lt 5 0 LState.ready none).arg0, arg1 := (lt 5 0 LState.ready none).arg1, d0 := (lt 5 0 LState.ready none).d0, d1 := (lt 5 0 LState.ready none).d1, state := (lt 5 0 LState.ready none).state, seq := (lt 5 0 LState.ready none).seq, readySeq := (lt 5 0 LState.ready none).readySeq, readyTick := (lt 5 0 LState.ready none).readyTick, ordered := (lt 5 0 LState.ready none).ordered, port := (lt 5 0 LState.ready none).port : Letter }.prio
      = 0 ∨ BitVec.toNat (rd Reg.SCH_TICK s38) ≤
      { id := (lt 5 0 LState.ready none).id, gen := (lt 5 0 LState.ready none).gen, route := (lt 5 0 LState.ready none).route, kind := (lt 5 0 LState.ready none).kind, owner := (lt 5 0 LState.ready none).owner, exec := (lt 5 0 LState.ready none).exec, clusters := (lt 5 0 LState.ready none).clusters, prio := 0, target := (lt 5 0 LState.ready none).target, waitCtr := (lt 5 0 LState.ready none).waitCtr, sigCtr := (lt 5 0 LState.ready none).sigCtr, due := (lt 5 0 LState.ready none).due, arg0 := (lt 5 0 LState.ready none).arg0, arg1 := (lt 5 0 LState.ready none).arg1, d0 := (lt 5 0 LState.ready none).d0, d1 := (lt 5 0 LState.ready none).d1, state := (lt 5 0 LState.ready none).state, seq := (lt 5 0 LState.ready none).seq, readySeq := (lt 5 0 LState.ready none).readySeq, readyTick := (lt 5 0 LState.ready none).readyTick, ordered := (lt 5 0 LState.ready none).ordered, port := (lt 5 0 LState.ready none).port : Letter }.readyTick
      + fget Fl.SCH_CFG_AGE_US s38)) ∧
    (pdOn 6 s39 = true ∧ (16 ≤ 11 ∨ 16 = 16 ∨ 16 = 17) ∧ s39.sch.letters =
      [{ id := (lt 5 0 LState.ready none).id, gen := (lt 5 0 LState.ready none).gen, route := (lt 5 0 LState.ready none).route, kind := (lt 5 0 LState.ready none).kind, owner := (lt 5 0 LState.ready none).owner, exec := (lt 5 0 LState.ready none).exec, clusters := (lt 5 0 LState.ready none).clusters, prio := (lt 5 0 LState.ready none).prio, target := (lt 5 0 LState.ready none).target, waitCtr := (lt 5 0 LState.ready none).waitCtr, sigCtr := (lt 5 0 LState.ready none).sigCtr, due := (lt 5 0 LState.ready none).due, arg0 := (lt 5 0 LState.ready none).arg0, arg1 := (lt 5 0 LState.ready none).arg1, d0 := (lt 5 0 LState.ready none).d0, d1 := (lt 5 0 LState.ready none).d1, state := (lt 5 0 LState.ready none).state, seq := (lt 5 0 LState.ready none).seq, readySeq := (lt 5 0 LState.ready none).readySeq, readyTick := 4000, ordered := (lt 5 0 LState.ready none).ordered, port := (lt 5 0 LState.ready none).port : Letter }]
      ∧
      { id := (lt 5 0 LState.ready none).id, gen := (lt 5 0 LState.ready none).gen, route := (lt 5 0 LState.ready none).route, kind := (lt 5 0 LState.ready none).kind, owner := (lt 5 0 LState.ready none).owner, exec := (lt 5 0 LState.ready none).exec, clusters := (lt 5 0 LState.ready none).clusters, prio := (lt 5 0 LState.ready none).prio, target := (lt 5 0 LState.ready none).target, waitCtr := (lt 5 0 LState.ready none).waitCtr, sigCtr := (lt 5 0 LState.ready none).sigCtr, due := (lt 5 0 LState.ready none).due, arg0 := (lt 5 0 LState.ready none).arg0, arg1 := (lt 5 0 LState.ready none).arg1, d0 := (lt 5 0 LState.ready none).d0, d1 := (lt 5 0 LState.ready none).d1, state := (lt 5 0 LState.ready none).state, seq := (lt 5 0 LState.ready none).seq, readySeq := (lt 5 0 LState.ready none).readySeq, readyTick := 4000, ordered := (lt 5 0 LState.ready none).ordered, port := (lt 5 0 LState.ready none).port : Letter }.state
      = LState.ready ∧ (fget Fl.SCH_CFG_AGE_US s39 = 0 ∨
      { id := (lt 5 0 LState.ready none).id, gen := (lt 5 0 LState.ready none).gen, route := (lt 5 0 LState.ready none).route, kind := (lt 5 0 LState.ready none).kind, owner := (lt 5 0 LState.ready none).owner, exec := (lt 5 0 LState.ready none).exec, clusters := (lt 5 0 LState.ready none).clusters, prio := (lt 5 0 LState.ready none).prio, target := (lt 5 0 LState.ready none).target, waitCtr := (lt 5 0 LState.ready none).waitCtr, sigCtr := (lt 5 0 LState.ready none).sigCtr, due := (lt 5 0 LState.ready none).due, arg0 := (lt 5 0 LState.ready none).arg0, arg1 := (lt 5 0 LState.ready none).arg1, d0 := (lt 5 0 LState.ready none).d0, d1 := (lt 5 0 LState.ready none).d1, state := (lt 5 0 LState.ready none).state, seq := (lt 5 0 LState.ready none).seq, readySeq := (lt 5 0 LState.ready none).readySeq, readyTick := 4000, ordered := (lt 5 0 LState.ready none).ordered, port := (lt 5 0 LState.ready none).port : Letter }.prio
      = 0 ∨ BitVec.toNat (rd Reg.SCH_TICK s39) ≤
      { id := (lt 5 0 LState.ready none).id, gen := (lt 5 0 LState.ready none).gen, route := (lt 5 0 LState.ready none).route, kind := (lt 5 0 LState.ready none).kind, owner := (lt 5 0 LState.ready none).owner, exec := (lt 5 0 LState.ready none).exec, clusters := (lt 5 0 LState.ready none).clusters, prio := (lt 5 0 LState.ready none).prio, target := (lt 5 0 LState.ready none).target, waitCtr := (lt 5 0 LState.ready none).waitCtr, sigCtr := (lt 5 0 LState.ready none).sigCtr, due := (lt 5 0 LState.ready none).due, arg0 := (lt 5 0 LState.ready none).arg0, arg1 := (lt 5 0 LState.ready none).arg1, d0 := (lt 5 0 LState.ready none).d0, d1 := (lt 5 0 LState.ready none).d1, state := (lt 5 0 LState.ready none).state, seq := (lt 5 0 LState.ready none).seq, readySeq := (lt 5 0 LState.ready none).readySeq, readyTick := 4000, ordered := (lt 5 0 LState.ready none).ordered, port := (lt 5 0 LState.ready none).port : Letter }.readyTick
      + fget Fl.SCH_CFG_AGE_US s39)) := by
  refine ⟨?_, ?_, ?_, ?_, ?_, ?_, ?_⟩ <;> decide +kernel

theorem test_SortingRoutes_4 :
    (pdOn 6 s40 = true ∧ (16 ≤ 11 ∨ 16 = 16 ∨ 16 = 17) ∧ 75 < 76 ∧ heldBy 75 s40 = none ∧ 75 ∉ s40.sch.offered ∧ (∃ l ∈
      s40.sch.letters, suits 75 l s40 = true)) ∧
    (pdOn 6 s40 = true ∧ (16 ≤ 11 ∨ 16 = 16 ∨ 16 = 17) ∧ 1 < 76 ∧ heldBy 1 s40 = none ∧ 1 ∉ s40.sch.offered ∧ (∀ l ∈ s40.sch.letters,
      suits 1 l s40 = false)) ∧
    (pdOn 6 s41 = true ∧ (16 ≤ 11 ∨ 16 = 16 ∨ 16 = 17) ∧ letterAt
      { id := (lt 5 2 LState.ready none).id, gen := (lt 5 2 LState.ready none).gen, route := (lt 5 2 LState.ready none).route, kind := (lt 5 2 LState.ready none).kind, owner := (lt 5 2 LState.ready none).owner, exec := (lt 5 2 LState.ready none).exec, clusters := (lt 5 2 LState.ready none).clusters, prio := (lt 5 2 LState.ready none).prio, target := (lt 5 2 LState.ready none).target, waitCtr := (lt 5 2 LState.ready none).waitCtr, sigCtr := (lt 5 2 LState.ready none).sigCtr, due := (lt 5 2 LState.ready none).due, arg0 := (lt 5 2 LState.ready none).arg0, arg1 := (lt 5 2 LState.ready none).arg1, d0 := (lt 5 2 LState.ready none).d0, d1 := (lt 5 2 LState.ready none).d1, state := (lt 5 2 LState.ready none).state, seq := (lt 5 2 LState.ready none).seq, readySeq := 2, readyTick := (lt 5 2 LState.ready none).readyTick, ordered := (lt 5 2 LState.ready none).ordered, port := (lt 5 2 LState.ready none).port : Letter }.id
      s41 = some
      { id := (lt 5 2 LState.ready none).id, gen := (lt 5 2 LState.ready none).gen, route := (lt 5 2 LState.ready none).route, kind := (lt 5 2 LState.ready none).kind, owner := (lt 5 2 LState.ready none).owner, exec := (lt 5 2 LState.ready none).exec, clusters := (lt 5 2 LState.ready none).clusters, prio := (lt 5 2 LState.ready none).prio, target := (lt 5 2 LState.ready none).target, waitCtr := (lt 5 2 LState.ready none).waitCtr, sigCtr := (lt 5 2 LState.ready none).sigCtr, due := (lt 5 2 LState.ready none).due, arg0 := (lt 5 2 LState.ready none).arg0, arg1 := (lt 5 2 LState.ready none).arg1, d0 := (lt 5 2 LState.ready none).d0, d1 := (lt 5 2 LState.ready none).d1, state := (lt 5 2 LState.ready none).state, seq := (lt 5 2 LState.ready none).seq, readySeq := 2, readyTick := (lt 5 2 LState.ready none).readyTick, ordered := (lt 5 2 LState.ready none).ordered, port := (lt 5 2 LState.ready none).port : Letter }
      ∧
      { id := (lt 5 2 LState.ready none).id, gen := (lt 5 2 LState.ready none).gen, route := (lt 5 2 LState.ready none).route, kind := (lt 5 2 LState.ready none).kind, owner := (lt 5 2 LState.ready none).owner, exec := (lt 5 2 LState.ready none).exec, clusters := (lt 5 2 LState.ready none).clusters, prio := (lt 5 2 LState.ready none).prio, target := (lt 5 2 LState.ready none).target, waitCtr := (lt 5 2 LState.ready none).waitCtr, sigCtr := (lt 5 2 LState.ready none).sigCtr, due := (lt 5 2 LState.ready none).due, arg0 := (lt 5 2 LState.ready none).arg0, arg1 := (lt 5 2 LState.ready none).arg1, d0 := (lt 5 2 LState.ready none).d0, d1 := (lt 5 2 LState.ready none).d1, state := (lt 5 2 LState.ready none).state, seq := (lt 5 2 LState.ready none).seq, readySeq := 2, readyTick := (lt 5 2 LState.ready none).readyTick, ordered := (lt 5 2 LState.ready none).ordered, port := (lt 5 2 LState.ready none).port : Letter }.state
      = LState.ready ∧ 2 ≤
      { id := (lt 5 2 LState.ready none).id, gen := (lt 5 2 LState.ready none).gen, route := (lt 5 2 LState.ready none).route, kind := (lt 5 2 LState.ready none).kind, owner := (lt 5 2 LState.ready none).owner, exec := (lt 5 2 LState.ready none).exec, clusters := (lt 5 2 LState.ready none).clusters, prio := (lt 5 2 LState.ready none).prio, target := (lt 5 2 LState.ready none).target, waitCtr := (lt 5 2 LState.ready none).waitCtr, sigCtr := (lt 5 2 LState.ready none).sigCtr, due := (lt 5 2 LState.ready none).due, arg0 := (lt 5 2 LState.ready none).arg0, arg1 := (lt 5 2 LState.ready none).arg1, d0 := (lt 5 2 LState.ready none).d0, d1 := (lt 5 2 LState.ready none).d1, state := (lt 5 2 LState.ready none).state, seq := (lt 5 2 LState.ready none).seq, readySeq := 2, readyTick := (lt 5 2 LState.ready none).readyTick, ordered := (lt 5 2 LState.ready none).ordered, port := (lt 5 2 LState.ready none).port : Letter }.target
      ∧
      { id := (lt 5 2 LState.ready none).id, gen := (lt 5 2 LState.ready none).gen, route := (lt 5 2 LState.ready none).route, kind := (lt 5 2 LState.ready none).kind, owner := (lt 5 2 LState.ready none).owner, exec := (lt 5 2 LState.ready none).exec, clusters := (lt 5 2 LState.ready none).clusters, prio := (lt 5 2 LState.ready none).prio, target := (lt 5 2 LState.ready none).target, waitCtr := (lt 5 2 LState.ready none).waitCtr, sigCtr := (lt 5 2 LState.ready none).sigCtr, due := (lt 5 2 LState.ready none).due, arg0 := (lt 5 2 LState.ready none).arg0, arg1 := (lt 5 2 LState.ready none).arg1, d0 := (lt 5 2 LState.ready none).d0, d1 := (lt 5 2 LState.ready none).d1, state := (lt 5 2 LState.ready none).state, seq := (lt 5 2 LState.ready none).seq, readySeq := 2, readyTick := (lt 5 2 LState.ready none).readyTick, ordered := (lt 5 2 LState.ready none).ordered, port := (lt 5 2 LState.ready none).port : Letter }.target
      < 7 ∧
      { id := (lt 5 2 LState.ready none).id, gen := (lt 5 2 LState.ready none).gen, route := (lt 5 2 LState.ready none).route, kind := (lt 5 2 LState.ready none).kind, owner := (lt 5 2 LState.ready none).owner, exec := (lt 5 2 LState.ready none).exec, clusters := (lt 5 2 LState.ready none).clusters, prio := (lt 5 2 LState.ready none).prio, target := (lt 5 2 LState.ready none).target, waitCtr := (lt 5 2 LState.ready none).waitCtr, sigCtr := (lt 5 2 LState.ready none).sigCtr, due := (lt 5 2 LState.ready none).due, arg0 := (lt 5 2 LState.ready none).arg0, arg1 := (lt 5 2 LState.ready none).arg1, d0 := (lt 5 2 LState.ready none).d0, d1 := (lt 5 2 LState.ready none).d1, state := (lt 5 2 LState.ready none).state, seq := (lt 5 2 LState.ready none).seq, readySeq := 2, readyTick := (lt 5 2 LState.ready none).readyTick, ordered := (lt 5 2 LState.ready none).ordered, port := (lt 5 2 LState.ready none).port : Letter }.target
      ≠ 5 ∧ routeFree
      { id := (lt 5 2 LState.ready none).id, gen := (lt 5 2 LState.ready none).gen, route := (lt 5 2 LState.ready none).route, kind := (lt 5 2 LState.ready none).kind, owner := (lt 5 2 LState.ready none).owner, exec := (lt 5 2 LState.ready none).exec, clusters := (lt 5 2 LState.ready none).clusters, prio := (lt 5 2 LState.ready none).prio, target := (lt 5 2 LState.ready none).target, waitCtr := (lt 5 2 LState.ready none).waitCtr, sigCtr := (lt 5 2 LState.ready none).sigCtr, due := (lt 5 2 LState.ready none).due, arg0 := (lt 5 2 LState.ready none).arg0, arg1 := (lt 5 2 LState.ready none).arg1, d0 := (lt 5 2 LState.ready none).d0, d1 := (lt 5 2 LState.ready none).d1, state := (lt 5 2 LState.ready none).state, seq := (lt 5 2 LState.ready none).seq, readySeq := 2, readyTick := (lt 5 2 LState.ready none).readyTick, ordered := (lt 5 2 LState.ready none).ordered, port := (lt 5 2 LState.ready none).port : Letter }
      s41 = true ∧ inTurn
      { id := (lt 5 2 LState.ready none).id, gen := (lt 5 2 LState.ready none).gen, route := (lt 5 2 LState.ready none).route, kind := (lt 5 2 LState.ready none).kind, owner := (lt 5 2 LState.ready none).owner, exec := (lt 5 2 LState.ready none).exec, clusters := (lt 5 2 LState.ready none).clusters, prio := (lt 5 2 LState.ready none).prio, target := (lt 5 2 LState.ready none).target, waitCtr := (lt 5 2 LState.ready none).waitCtr, sigCtr := (lt 5 2 LState.ready none).sigCtr, due := (lt 5 2 LState.ready none).due, arg0 := (lt 5 2 LState.ready none).arg0, arg1 := (lt 5 2 LState.ready none).arg1, d0 := (lt 5 2 LState.ready none).d0, d1 := (lt 5 2 LState.ready none).d1, state := (lt 5 2 LState.ready none).state, seq := (lt 5 2 LState.ready none).seq, readySeq := 2, readyTick := (lt 5 2 LState.ready none).readyTick, ordered := (lt 5 2 LState.ready none).ordered, port := (lt 5 2 LState.ready none).port : Letter }
      s41 = false) ∧
    (pdOn 6 s42 = true ∧ (16 ≤ 11 ∨ 16 = 16 ∨ 16 = 17) ∧ letterAt (lt 5 2 LState.ready none).id s42 = some (lt 5 2 LState.ready none) ∧ (lt 5
      2 LState.ready none).state = LState.ready ∧ 2 ≤ (lt 5 2 LState.ready none).target ∧ (lt 5 2 LState.ready none).target < 7 ∧ (lt 5 2
      LState.ready none).target ≠ 5 ∧ routeFree (lt 5 2 LState.ready none) s42 = true ∧ inTurn (lt 5 2 LState.ready none) s42 = true ∧ (fget
      Fl.SCH_STATUS_BRACE_HOLD s42 = 0 ∨ (lt 5 2 LState.ready none).target < 5)) ∧
    (pdOn 6 s43 = true ∧ (16 ≤ 11 ∨ 16 = 16 ∨ 16 = 17) ∧ letterAt (lt 5 6 LState.ready none).id s43 = some (lt 5 6 LState.ready none) ∧ (lt 5
      6 LState.ready none).state = LState.ready ∧ 2 ≤ (lt 5 6 LState.ready none).target ∧ (lt 5 6 LState.ready none).target < 7 ∧ (lt 5 6
      LState.ready none).target ≠ 5 ∧ routeFree (lt 5 6 LState.ready none) s43 = true ∧ inTurn (lt 5 6 LState.ready none) s43 = true ∧ (fget
      Fl.SCH_STATUS_BRACE_HOLD s43 = 0 ∨ (lt 5 6 LState.ready none).target < 5)) ∧
    (pdOn 6 s44 = true ∧ (16 ≤ 11 ∨ 16 = 16 ∨ 16 = 17) ∧ letterAt (lt 5 6 LState.ready none).id s44 = some (lt 5 6 LState.ready none) ∧ (lt 5
      6 LState.ready none).state = LState.ready ∧ 2 ≤ (lt 5 6 LState.ready none).target ∧ (lt 5 6 LState.ready none).target < 7 ∧ (lt 5 6
      LState.ready none).target ≠ 5 ∧ routeFree (lt 5 6 LState.ready none) s44 = true ∧ fget Fl.SCH_STATUS_BRACE_HOLD s44 = 1 ∧ (lt 5 6
      LState.ready none).target = 6) ∧
    (pdOn 6 s45 = true ∧ (16 ≤ 11 ∨ 16 = 16 ∨ 16 = 17) ∧ letterAt (lt 5 5 LState.ready none).id s45 = some (lt 5 5 LState.ready none) ∧ (lt 5
      5 LState.ready none).state = LState.ready ∧ (lt 5 5 LState.ready none).target = 5 ∧ routeFree (lt 5 5 LState.ready none) s45 = true ∧
      inTurn (lt 5 5 LState.ready none) s45 = true ∧ fget Fl.SCH_STATUS_BRACE_HOLD s45 = 0 ∧ (lt 5 5 LState.ready none).owner = 128 ∧
      List.length (scansWaiting s45) < 4096 ∧ (List.length (List.filter (fun j => decide (j.func = 128)) (scansWaiting s45)) < (resOf 128
      s45).scanQ)) := by
  refine ⟨?_, ?_, ?_, ?_, ?_, ?_, ?_⟩ <;> decide +kernel

theorem test_SortingRoutes_5 :
    (pdOn 6 s46 = true ∧ (16 ≤ 11 ∨ 16 = 16 ∨ 16 = 17) ∧ s46.sch.reads = [rq true] ∧ (rq true).sent = false ∧ iuAt (mapKey (rq true).nsid (rq
      true).iu) s46 = some { sb := 0, chan := 3, die := 4, data := [], stored := 16, uncorr := false, landed := 0 : Iu } ∧
      { sb := 0, chan := 3, die := 4, data := [], stored := 16, uncorr := false, landed := 0 : Iu }.uncorr = false ∧ (chanAt
      { sb := 0, chan := 3, die := 4, data := [], stored := 16, uncorr := false, landed := 0 : Iu }.chan s46).retired = false ∧ ((rq true).pre =
      true ∨ fget (Fl.CHE_STATUS_REBUILD_ONLY { sb := 0, chan := 3, die := 4, data := [], stored := 16, uncorr := false, landed := 0 : Iu }.chan)
      s46 = 0)) ∧
    (pdOn 6 s47 = true ∧ (16 ≤ 11 ∨ 16 = 16 ∨ 16 = 17) ∧ s47.sch.reads = [rq false] ∧ (rq false).sent = false ∧ iuAt (mapKey (rq false).nsid
      (rq false).iu) s47 = some { sb := 0, chan := 3, die := 4, data := [], stored := 16, uncorr := false, landed := 0 : Iu } ∧
      { sb := 0, chan := 3, die := 4, data := [], stored := 16, uncorr := false, landed := 0 : Iu }.uncorr = false ∧ (chanAt
      { sb := 0, chan := 3, die := 4, data := [], stored := 16, uncorr := false, landed := 0 : Iu }.chan s47).retired = false ∧ ((rq false).pre
      = true ∨ fget (Fl.CHE_STATUS_REBUILD_ONLY { sb := 0, chan := 3, die := 4, data := [], stored := 16, uncorr := false, landed := 0 : Iu }.chan)
      s47 = 0)) ∧
    (serveComp 1 (letterSpace (le 2 4096)) (BitVec.toNat (le 2 4096).arg0) [] s48 = some (Option.getD (serveComp 1 Space.phys 4096 [] (rt 3 0 0
      1 7 3 [le 2 4096])) (0, up)) ∧ pdOn 6 s48 = true ∧ (16 ≤ 11 ∨ 16 = 16 ∨ 16 = 17) ∧ s48.sch.letters = [le 2 4096] ∧ (le 2 4096).state =
      LState.running ∧ (le 2 4096).target = 2) ∧
    (pdOn 6 s49 = true ∧ (16 ≤ 11 ∨ 16 = 16 ∨ 16 = 17) ∧ s49.sch.letters = [le 3 4096] ∧ (le 3 4096).state = LState.running ∧ (le 3
      4096).target = 3 ∧ letterCtx s49 = true) ∧
    (pdOn 6 s50 = true ∧ (16 ≤ 11 ∨ 16 = 16 ∨ 16 = 17) ∧ s50.sch.letters = [le 4 67108864] ∧ (le 4 67108864).state = LState.running ∧ (le 4
      67108864).target = 4 ∧ readSpace (letterSpace (le 4 67108864)) (BitVec.toNat (le 4 67108864).arg0) 160 s50 = none) ∧
    (pdOn 6 s51 = true ∧ (16 ≤ 11 ∨ 16 = 16 ∨ 16 = 17) ∧ s51.sch.letters = [le 5 4096] ∧ (le 5 4096).state = LState.running ∧ (le 5
      4096).target = 5 ∧ s51.scan.ends = [(5, 3)] ∧ (5, 3).1 = (le 5 4096).id) := ⟨by decide +kernel, by decide +kernel, ⟨isSome_getD (by decide +kernel), by decide +kernel⟩, by decide +kernel, by decide +kernel,
    by decide +kernel⟩

end Sorting

namespace Programs

def mem7 : Cmd := { cmd 7 .memory 0 0 .fetched with nsid := 2, tracked := false }
def mns : Ns := { ns1 with csi := 3 }
def base0 : Nat := granBase up
/-- A module with a memory namespace of one granule, where a few bytes are written, and a memory command. -/
def mm : State :=
  { io [mem7] with
    nv := { (io [mem7]).nv with ns := [(1, ns1), (2, mns)] }
    ten := { up.ten with memNs := [(0, 1)] }
    mem := [(base0 + 8, 0x11), (base0 + 9, 0x22)] }
def poi : State := { mm with dram := { mm.dram with poison := [(base0 + 8) / 64] } }
def nsb : Ns := { ns1 with flbas := 0 }
def mmb : State := { mm with nv := { mm.nv with ns := [(1, nsb), (2, mns)] } }
def unc : State := { mm with ftl := { mm.ftl with map := [(mapKey 1 5, ⟨2, 3, 1, [], 16384, true, 5⟩), (mapKey 1 1, ⟨2, 3, 1, [], 16384, true, 5⟩)] } }
def prg : Cmd := { cmd 7 .program 0 0 .fetched with nsid := 3, tracked := false }
def cns : Ns := { ns1 with csi := 4 }
/-- A module with a compute and a memory namespace, a program command, these slots, range sets and executions. -/
def pm (slots : List (Nat × Slot)) (rsets : List (Nat × List (Nat × Nat))) (execs : List (Nat × Exec)) : State :=
  { io [prg] with
    nv := { (io [prg]).nv with ns := [(1, ns1), (2, mns), (3, cns)] }
    ten := { up.ten with memNs := [(0, 1)] }
    prog := { up.prog with slots := slots, rsets := rsets, execs := execs } }
def hdr (dig : List Byte) : List Byte :=
  parcelMagic ++ [1, 0, 0, 0, 0, 0, 0, 0] ++ leBytes 8 128 ++ leBytes 8 4 ++ leBytes 4 0 ++ leBytes 4 128 ++ leBytes 4 0 ++ leBytes 4 0 ++ leBytes 4 0 ++
    leBytes 4 0 ++ leBytes 4 64 ++ leBytes 4 4096 ++ [2, 0, 3, 0, 0, 0, 0, 0] ++ dig ++ List.replicate 24 0
def img : List Byte := hdr (digest 0 (hdr (List.replicate 32 0)))
def stg (bs : List Byte) : Slot := ⟨[(0, bs)], [0], none⟩
def prc : Parcel := ⟨4, 0, 128, 0, 0, 0, 0, 64, 4096, 2, 3, [(0, 4096)]⟩
def act : Slot := ⟨[], [], some prc⟩
def ex0 : Exec := ⟨0, 1, 7, 2, 1, 0, 0, [], [], [], 0, 0, 0, 0, 3, 0, 0, [], 0, [], none, 0⟩
def priv (n : Nat) (s : State) : State := { s with ten := { s.ten with priv := [(0, List.range n)] } }
def s1 : State := pm [] [(0, [(0, 4096)])] []
def s2 : State := pm [] [] []
def s4 : State := pm [] [(0, [(0, 4096)]), (1, [(0, 4096)])] [(5, ex0)]
def s5 : State := pm [(2, stg [9, 9])] [] []
def s6 : State := priv 0 (pm [] [] [])
def s7 : State := pm [(2, act)] [] []
def s8 : State := pm [(2, stg img)] [] []
def s9 : State := priv 0 (pm [(2, stg img)] [] [])
def s10 : State := pm [(2, stg (hdr (List.replicate 32 0)))] [] []
def s11 : State := pm [(3, act)] [] [(5, ex0)]
def s12 : State := pm [(2, act)] [] [(5, ex0)]
def go (u : State) : State := sets [(Fl.AXC_STATUS_STATE 0, 1)] (wr Reg.SCH_TICK 5000 u)
def s13 : State := sets [(Fl.AXC_STATUS_STATE 0, 3), (Fl.AXC_STATUS_STATE 1, 3), (Fl.AXC_STATUS_STATE 2, 3), (Fl.AXC_STATUS_STATE 3, 3), (Fl.AXC_STATUS_STATE 4, 3), (Fl.AXC_STATUS_STATE 5, 3), (Fl.AXC_STATUS_STATE 6, 3), (Fl.AXC_STATUS_STATE 7, 3)] (pm [(2, act)] [] [])
def s14 : State := go (pm [(2, act)] [(0, [(0, 4096)])] [])
def s15 : State := go { pm [(2, act)] [] [] with ten := { (pm [] [] []).ten with res := [(0, { resOf 0 up with compW := 0 })] } }
def s16 : State := go { pm [(2, act)] [] [(5, ex0)] with ten := { (pm [] [] []).ten with res := [(0, { resOf 0 up with execs := 1 })] } }
def tm (code first len reps owner glo ghi dis : Nat) : Word :=
  BitVec.ofNat 64 (1 + code * 4 + first * 16 + len * 256 + reps * 8192 + owner * 2 ^ 18 + glo * 2 ^ 32 + ghi * 2 ^ 40 + dis * 2 ^ 48)
def cr (v c : Nat) : CamRow := ⟨BitVec.ofNat 128 v, BitVec.ofNat 128 c, true⟩
/-- Table 9 belongs to function 0, and a match block stands in SLM. -/
def mb (op : Nat) (u : State) : State :=
  wr (Reg.MAT_TBL_MAP 0 9) (tm 0 3 2 2 0 0 1 0) { u with mat := { u.mat with rows := [(8192 * 5 + 7, cr 0x41A0000000003 0xFFFFFE000000FFFF)] }
                                                         mem := [(base0, BitVec.ofNat 8 op), (base0 + 1, 9), (base0 + 2, 2), (base0 + 16, 3), (base0 + 20, 0xA0), (base0 + 21, 0x41)] }
def s17 : State := mb 0 (pm [] [] [])
def s18 : State := mb 3 (pm [] [] [])
def noBanks : State := { pm [] [] [] with ten := { (pm [] [] []).ten with res := [(0, { resOf 0 up with banks := 1 })] } }
/-- The module with execution 7 of function 0, whose letter runs on core 0 in a service call. -/
def exs : Exec := { ex0 with tag := 7, windows := [(0, ⟨1, 0, 4, false⟩)], maxRoutes := 2, frame0 := 0x1000, stack := 4096, frames := 3, firstLetter := 5 + 2 ^ 20, plen := 9, tables := [9], inUse := [(6, 0)] }
def lt : Letter := ⟨5, 1, 0, 0, 0, 7, 0xFF, 0, 0, none, none, none, 5, 6, 7, 8, .running, 0, 0, 100, false, some 0⟩
def xs (n : Nat) (g : List (Nat × Word)) (e : Exec) : State :=
  let u := go (mb 0 (pm [(2, act)] [] [(7, e)]))
  { u with
    cores := [(0, { Core.fresh with lvl := 1, g := g, sys := [(0x42, 0x10100), (0x43, 6), (0x44, BitVec.ofNat 64 n)], pc := 0x800 })]
    sch := { u.sch with letters := [lt], holds := [(0, 5)], nextId := 9, routes := [(0, ⟨1, 0, 7, 255, false⟩)] }
    media := { u.media with chans := [] } }
def s20 : State := xs 6 [(1, 0x100000003)] exs
def exE : Exec := { exs with endWith := some (2, 5) }
def s21 : State := xs 6 [(1, 3)] exE
def s22 : State := xs 7 [(1, 1), (2, 4), (3, 8)] exs
def exW : Exec := { exs with windows := (List.range 16).map (fun i => (i, ⟨1, 0, 4, false⟩)) }
def s23 : State := xs 7 [(1, 1), (2, 4), (3, 8)] exW
def exB : Exec := { exs with windows := [(0, ⟨1, 0, 0x40000000, false⟩)] }
def s24 : State := xs 7 [(1, 1), (2, 4), (3, 8)] exB
def s25 : State := xs 7 [(1, 1), (2, 3), (3, 8)] exs
def s26 : State := xs 8 [(1, 0x400000000000)] exs
def susp : State := { xs 8 [(1, 0x400000000000)] exs with prog := { (xs 8 [] exs).prog with pages := [⟨0, 1, 2, .staged, [], [5], 3, 9, 0, none⟩] } }
def s27 : State := xs 8 [(1, 0x400000000001)] exs
def exM : Exec := { exs with regions := [⟨0x3000, 0x1000, true, false, true, [], 0⟩] }
def xm (n : Nat) (w kw ents : Nat) (e : Exec) : State := { xs n [(1, 0x3800)] e with mem := (leBytes 4 (kw + 32 * w) ++ leBytes 4 ents).zipIdx.map (fun p => (base0 + 0x800 + p.2, p.1)) |>.filter (fun p => p.2 ≠ 0) }
def tc (w kw ents : Nat) : List Byte := leBytes 4 (kw + 32 * w) ++ leBytes 4 ents ++ [0, 0, 0, 0]
def s28 : State := xm 9 2 3 100 exM
def xmq : State := { xm 9 8 3 100 exM with ten := { (xm 9 2 3 100 exM).ten with res := [(0, { resOf 0 up with banks := 1 })] } }
def s29 : State := xm 9 16 3 0x7FFFFFFF exM
def s30 : State := xm 9 16 3 0 exM
def s31 : State := xs 10 [(1, 9)] exs
def s32 : State := xs 10 [(1, 8)] exs
def s33 : State := xs 11 [(1, 2)] exs
def exR : Exec := { exs with maxRoutes := 1 }
def s34 : State := xs 11 [(1, 2)] exR
def s35 : State := xs 11 [(1, 4)] exs
def rdy : Letter := { lt with state := .ready, port := none, arg0 := 0x10104, arg1 := 0x100000000000 }
def tk : State := sets [(Fl.SCH_CTRL_ORDERED_MODE, 0)] { xs 11 [] exs with cores := [(0, { Core.fresh with lvl := 2 })], sch := { (xs 11 [] exs).sch with letters := [rdy], holds := [], offered := [0] }, mgt := { (xs 11 [] exs).mgt with capCores := 8 } }
def exL : Exec := { exs with start := 5, limit := 2 }
def s36 : State := wr Reg.SCH_TICK 2000006 (xs 11 [] exL)
def s37 : State := wr Reg.SCH_TICK 2000005 (xs 11 [] exL)
def s38 : State := wr Reg.SCH_TICK 2000005 (xs 11 [] exs)
def exN (w : Option (Nat × Nat)) : Exec := { exs with windows := [], tables := [], endWith := w, ended := 77, pcEnd := 0x10108, faddr := 0x3004 }
def en (w : Option (Nat × Nat)) : State :=
  let u := xs 0 [] (exN w)
  { u with nv := { u.nv with cmds := [{ prg with phase := .started }] }, sch := { u.sch with letters := [], holds := [], routes := [(0, ⟨1, 0, 7, 255, false⟩), (4, ⟨1, 0, 6, 255, false⟩)] } }
def prs : Cmd := { prg with phase := .started }
def s39 : State := en none
def s40 : State := en (some (0, 5))
def s41 : State := en (some (2, 4))
def s42 : State := en (some (3, 0))
def s43 : State := en (some (4, 0))
def s44 : State := en (some (5, 0))
def s45 : State := xs 11 [] exs
def lm : Letter := { lt with owner := 0x80, target := 6, port := none, arg0 := 0x2000, exec := 0 }
def md (iuErr : Bool) : State :=
  let u := xs 11 [] exs
  { u with mem := [(0x2000, 1), (0x2008, 5), (0x2010, 1), (0x2019, 0x30), (0x3001, 7)], sch := { u.sch with letters := [lm], holds := [] } }
def s46 : State := md false

theorem test_MemoryCommands :
    (Ready 7 [CmdKind.memory] mem7 mm ∧ nsAt mem7.nsid mm = some mns ∧ sees mns mem7.ctrl mm = true ∧ mns.csi = 3 ∧ mode mm ≠ 9 ∧ 8 + 3 ≤ slmSize
      (funcOf mem7.ctrl mm) mm ∧ 3 ≤ 2097152 ∧ readSpace (Space.host (funcOf mem7.ctrl mm)) 8 3 mm = some [17, 34, 0]) ∧
    (Ready 7 [CmdKind.memory] mem7 poi ∧ nsAt mem7.nsid poi = some mns ∧ sees mns mem7.ctrl poi = true ∧ mns.csi = 3 ∧ mode poi ≠ 9 ∧ 8 + 3 ≤
      slmSize (funcOf mem7.ctrl poi) poi ∧ 3 ≤ 2097152 ∧ readSpace (Space.host (funcOf mem7.ctrl poi)) 8 3 poi = none) ∧
    (Ready 7 [CmdKind.memory] mem7 mm ∧ nsAt mem7.nsid mm = some mns ∧ sees mns mem7.ctrl mm = true ∧ mns.csi = 3 ∧ mode mm ≠ 9 ∧ (slmSize (funcOf
      mem7.ctrl mm) mm < 268435456 + 1 ∨ 2097152 < 1)) ∧
    (Ready 7 [CmdKind.memory] mem7 mm ∧ nsAt mem7.nsid mm = some mns ∧ sees mns mem7.ctrl mm = true ∧ mns.csi = 3 ∧ mode mm ≠ 9 ∧ (slmSize (funcOf
      mem7.ctrl mm) mm < 0 + 2097153 ∨ 2097152 < 2097153)) ∧
    (Ready 7 [CmdKind.memory] mem7 mm ∧ nsAt mem7.nsid mm = some mns ∧ sees mns mem7.ctrl mm = true ∧ mns.csi = 3 ∧ mode mm ≠ 9 ∧ List.length [5,
      0, 7] ≤ 2097152 ∧ (7 + List.length [5, 0, 7] ≤ slmSize (funcOf mem7.ctrl mm) mm ∧ (∀ i < List.length [5, 0, 7], slmByte (funcOf mem7.ctrl mm)
      (7 + i) mm ≠ none) ∧ List.Nodup (List.map (fun i => Option.getD (slmByte (funcOf mem7.ctrl mm) (7 + i) mm) 0) (List.range (List.length [5, 0,
      7]))))) ∧
    (Ready 7 [CmdKind.memory] mem7 mm ∧ nsAt mem7.nsid mm = some mns ∧ sees mns mem7.ctrl mm = true ∧ mns.csi = 3 ∧ mode mm ≠ 9 ∧ List.length [5,
      6] ≤ 2097152 ∧ (268435454 + List.length [5, 6] ≤ slmSize (funcOf mem7.ctrl mm) mm ∧ (∀ i < List.length [5, 6], slmByte (funcOf mem7.ctrl mm)
      (268435454 + i) mm ≠ none) ∧ List.Nodup (List.map (fun i => Option.getD (slmByte (funcOf mem7.ctrl mm) (268435454 + i) mm) 0) (List.range
      (List.length [5, 6]))))) ∧
    (Ready 7 [CmdKind.memory] mem7 mm ∧ nsAt mem7.nsid mm = some mns ∧ sees mns mem7.ctrl mm = true ∧ mns.csi = 3 ∧ mode mm ≠ 9 ∧ slmSize (funcOf
      mem7.ctrl mm) mm < 268435455 + List.length [5, 6]) := ⟨⟨ready_of (by decide +kernel), by decide +kernel⟩, ⟨ready_of (by decide +kernel), by decide +kernel⟩, ⟨ready_of (by decide +kernel),
    by decide +kernel⟩, ⟨ready_of (by decide +kernel), by decide +kernel⟩, ⟨ready_of (by decide +kernel), by decide +kernel⟩, ⟨ready_of
    (by decide +kernel), by decide +kernel⟩, ⟨ready_of (by decide +kernel), by decide +kernel⟩⟩

theorem test_MemoryCommands_2 :
    (Ready 7 [CmdKind.memory] mem7 mm ∧ nsAt mem7.nsid mm = some mns ∧ sees mns mem7.ctrl mm = true ∧ mns.csi = 3 ∧ mode mm ≠ 9 ∧ 8 % 8 = 0 ∧ (8 +
      8 * 2 ≤ slmSize (funcOf mem7.ctrl mm) mm ∧ (∀ i < 8 * 2, slmByte (funcOf mem7.ctrl mm) (8 + i) mm ≠ none) ∧ List.Nodup (List.map (fun i =>
      Option.getD (slmByte (funcOf mem7.ctrl mm) (8 + i) mm) 0) (List.range (8 * 2))))) ∧
    (Ready 7 [CmdKind.memory] mem7 mm ∧ nsAt mem7.nsid mm = some mns ∧ sees mns mem7.ctrl mm = true ∧ mns.csi = 3 ∧ mode mm ≠ 9 ∧ (8 % 8 ≠ 0 ∨ 12 %
      8 ≠ 0)) ∧
    (Ready 7 [CmdKind.memory] mem7 mm ∧ (∀ (iu : ℕ) (u : Iu), iuAt (mapKey 1 iu) mm = some u → u.chan < 32) ∧ nsAt mem7.nsid mm = some mns ∧ sees
      mns mem7.ctrl mm = true ∧ mns.csi = 3 ∧ mode mm ≠ 9 ∧ nsAt 1 mm = some ns1 ∧ ioCheck
      { tag := mem7.tag, ctrl := mem7.ctrl, sq := mem7.sq, cid := mem7.cid, order := mem7.order, ordered := mem7.ordered, haltErr := mem7.haltErr, kind := CmdKind.dealloc, nsid := 1, lba := 5, nlb := 0, shared := mem7.shared, tracked := mem7.tracked, phase := mem7.phase, admitted := mem7.admitted, media := mem7.media, wdata := mem7.wdata, dealloc := mem7.dealloc, places := mem7.places, need := mem7.need, looked := mem7.looked, got := mem7.got, pr := mem7.pr, verifyOnly := mem7.verifyOnly, compareOnly := mem7.compareOnly, abort := mem7.abort, result := mem7.result : Cmd }
      false mm = none ∧ 8 % 8 = 0 ∧ 8 + 0 * blockSize ns1 (PrInfo.none.pract && ns1.dps != 0) ≤ slmSize (funcOf mem7.ctrl mm) mm ∧ 0 * blockSize
      ns1 (PrInfo.none.pract && ns1.dps != 0) ≤ 67108864 ∧ checkBlocks ns1.dps ns1.flbas PrInfo.none 5 [] = none ∧ untilNone (unitsOfRange 1 5 0
      ns1 [] mm) = ([], false) ∧ (8 + List.length (hostBytesOf ns1.flbas ns1.ext (PrInfo.none.pract && ns1.dps != 0) []) ≤ slmSize (funcOf
      mem7.ctrl mm) mm ∧ (∀ i < List.length (hostBytesOf ns1.flbas ns1.ext (PrInfo.none.pract && ns1.dps != 0) []), slmByte (funcOf mem7.ctrl mm)
      (8 + i) mm ≠ none) ∧ List.Nodup (List.map (fun i => Option.getD (slmByte (funcOf mem7.ctrl mm) (8 + i) mm) 0) (List.range (List.length
      (hostBytesOf ns1.flbas ns1.ext (PrInfo.none.pract && ns1.dps != 0) [])))))) ∧
    (Ready 7 [CmdKind.memory] mem7 unc ∧ (∀ (iu : ℕ) (u : Iu), iuAt (mapKey 1 iu) unc = some u → u.chan < 32) ∧ nsAt mem7.nsid unc = some mns ∧
      sees mns mem7.ctrl unc = true ∧ mns.csi = 3 ∧ mode unc ≠ 9 ∧ nsAt 1 unc = some ns1 ∧ ioCheck
      { tag := mem7.tag, ctrl := mem7.ctrl, sq := mem7.sq, cid := mem7.cid, order := mem7.order, ordered := mem7.ordered, haltErr := mem7.haltErr, kind := CmdKind.dealloc, nsid := 1, lba := 5, nlb := 1, shared := mem7.shared, tracked := mem7.tracked, phase := mem7.phase, admitted := mem7.admitted, media := mem7.media, wdata := mem7.wdata, dealloc := mem7.dealloc, places := mem7.places, need := mem7.need, looked := mem7.looked, got := mem7.got, pr := mem7.pr, verifyOnly := mem7.verifyOnly, compareOnly := mem7.compareOnly, abort := mem7.abort, result := mem7.result : Cmd }
      false unc = none ∧ 8 % 8 = 0 ∧ 8 + 1 * blockSize ns1 (PrInfo.none.pract && ns1.dps != 0) ≤ slmSize (funcOf mem7.ctrl unc) unc ∧ 1 * blockSize
      ns1 (PrInfo.none.pract && ns1.dps != 0) ≤ 67108864 ∧ checkBlocks ns1.dps ns1.flbas PrInfo.none 5 [] = none ∧ untilNone (unitsOfRange 1 5 1
      ns1 [] unc) = ([], true)) ∧
    (Ready 7 [CmdKind.memory] mem7 mm ∧ nsAt mem7.nsid mm = some mns ∧ sees mns mem7.ctrl mm = true ∧ mns.csi = 3 ∧ mode mm ≠ 9 ∧ (([] : List Nat)
      = [] ∨ 128 < List.length ([] : List Nat))) ∧
    (Ready 7 [CmdKind.memory] mem7 mm ∧ nsAt mem7.nsid mm = some mns ∧ sees mns mem7.ctrl mm = true ∧ mns.csi = 3 ∧ mode mm ≠ 9 ∧ (List.replicate
      129 (1, 0, 1) = [] ∨ 128 < List.length (List.replicate 129 (1, 0, 1)))) ∧
    (Ready 7 [CmdKind.memory] mem7 mmb ∧ CanLand (withBlocks
      { tag := mem7.tag, ctrl := mem7.ctrl, sq := mem7.sq, cid := mem7.cid, order := mem7.order, ordered := mem7.ordered, haltErr := mem7.haltErr, kind := CmdKind.write, nsid := 1, lba := 0, nlb := 1, shared := mem7.shared, tracked := false, phase := mem7.phase, admitted := mem7.admitted, media := mem7.media, wdata := mem7.wdata, dealloc := mem7.dealloc, places := mem7.places, need := mem7.need, looked := mem7.looked, got := mem7.got, pr := mem7.pr, verifyOnly := mem7.verifyOnly, compareOnly := mem7.compareOnly, abort := mem7.abort, result := mem7.result : Cmd }
      nsb (blksOf nsb (PrInfo.none.pract && nsb.dps != 0) (Option.getD (readSpace (Space.host 0) 8 512 mmb) []) 1) PrInfo.none) nsb (setCmd
      (withBlocks
      { tag := mem7.tag, ctrl := mem7.ctrl, sq := mem7.sq, cid := mem7.cid, order := mem7.order, ordered := mem7.ordered, haltErr := mem7.haltErr, kind := CmdKind.write, nsid := 1, lba := 0, nlb := 1, shared := mem7.shared, tracked := false, phase := mem7.phase, admitted := mem7.admitted, media := mem7.media, wdata := mem7.wdata, dealloc := mem7.dealloc, places := mem7.places, need := mem7.need, looked := mem7.looked, got := mem7.got, pr := mem7.pr, verifyOnly := mem7.verifyOnly, compareOnly := mem7.compareOnly, abort := mem7.abort, result := mem7.result : Cmd }
      nsb (blksOf nsb (PrInfo.none.pract && nsb.dps != 0) (Option.getD (readSpace (Space.host 0) 8 512 mmb) []) 1) PrInfo.none) mmb) ∧ readSpace
      (Space.host (funcOf mem7.ctrl mmb)) 8 (1 * blockSize nsb (PrInfo.none.pract && nsb.dps != 0)) mmb = some (Option.getD (readSpace (Space.host
      0) 8 512 mmb) []) ∧ nsAt mem7.nsid mmb = some mns ∧ sees mns mem7.ctrl mmb = true ∧ mns.csi = 3 ∧ mode mmb ≠ 9 ∧ nsAt 1 mmb = some nsb ∧
      ioCheck
      { tag := { tag := mem7.tag, ctrl := mem7.ctrl, sq := mem7.sq, cid := mem7.cid, order := mem7.order, ordered := mem7.ordered, haltErr := mem7.haltErr, kind := CmdKind.write, nsid := 1, lba := 0, nlb := 1, shared := mem7.shared, tracked := false, phase := mem7.phase, admitted := mem7.admitted, media := mem7.media, wdata := mem7.wdata, dealloc := mem7.dealloc, places := mem7.places, need := mem7.need, looked := mem7.looked, got := mem7.got, pr := mem7.pr, verifyOnly := mem7.verifyOnly, compareOnly := mem7.compareOnly, abort := mem7.abort, result := mem7.result : Cmd }.tag, ctrl := { tag := mem7.tag, ctrl := mem7.ctrl, sq := mem7.sq, cid := mem7.cid, order := mem7.order, ordered := mem7.ordered, haltErr := mem7.haltErr, kind := CmdKind.write, nsid := 1, lba := 0, nlb := 1, shared := mem7.shared, tracked := false, phase := mem7.phase, admitted := mem7.admitted, media := mem7.media, wdata := mem7.wdata, dealloc := mem7.dealloc, places := mem7.places, need := mem7.need, looked := mem7.looked, got := mem7.got, pr := mem7.pr, verifyOnly := mem7.verifyOnly, compareOnly := mem7.compareOnly, abort := mem7.abort, result := mem7.result : Cmd }.ctrl, sq := { tag := mem7.tag, ctrl := mem7.ctrl, sq := mem7.sq, cid := mem7.cid, order := mem7.order, ordered := mem7.ordered, haltErr := mem7.haltErr, kind := CmdKind.write, nsid := 1, lba := 0, nlb := 1, shared := mem7.shared, tracked := false, phase := mem7.phase, admitted := mem7.admitted, media := mem7.media, wdata := mem7.wdata, dealloc := mem7.dealloc, places := mem7.places, need := mem7.need, looked := mem7.looked, got := mem7.got, pr := mem7.pr, verifyOnly := mem7.verifyOnly, compareOnly := mem7.compareOnly, abort := mem7.abort, result := mem7.result : Cmd }.sq, cid := { tag := mem7.tag, ctrl := mem7.ctrl, sq := mem7.sq, cid := mem7.cid, order := mem7.order, ordered := mem7.ordered, haltErr := mem7.haltErr, kind := CmdKind.write, nsid := 1, lba := 0, nlb := 1, shared := mem7.shared, tracked := false, phase := mem7.phase, admitted := mem7.admitted, media := mem7.media, wdata := mem7.wdata, dealloc := mem7.dealloc, places := mem7.places, need := mem7.need, looked := mem7.looked, got := mem7.got, pr := mem7.pr, verifyOnly := mem7.verifyOnly, compareOnly := mem7.compareOnly, abort := mem7.abort, result := mem7.result : Cmd }.cid, order := { tag := mem7.tag, ctrl := mem7.ctrl, sq := mem7.sq, cid := mem7.cid, order := mem7.order, ordered := mem7.ordered, haltErr := mem7.haltErr, kind := CmdKind.write, nsid := 1, lba := 0, nlb := 1, shared := mem7.shared, tracked := false, phase := mem7.phase, admitted := mem7.admitted, media := mem7.media, wdata := mem7.wdata, dealloc := mem7.dealloc, places := mem7.places, need := mem7.need, looked := mem7.looked, got := mem7.got, pr := mem7.pr, verifyOnly := mem7.verifyOnly, compareOnly := mem7.compareOnly, abort := mem7.abort, result := mem7.result : Cmd }.order, ordered := { tag := mem7.tag, ctrl := mem7.ctrl, sq := mem7.sq, cid := mem7.cid, order := mem7.order, ordered := mem7.ordered, haltErr := mem7.haltErr, kind := CmdKind.write, nsid := 1, lba := 0, nlb := 1, shared := mem7.shared, tracked := false, phase := mem7.phase, admitted := mem7.admitted, media := mem7.media, wdata := mem7.wdata, dealloc := mem7.dealloc, places := mem7.places, need := mem7.need, looked := mem7.looked, got := mem7.got, pr := mem7.pr, verifyOnly := mem7.verifyOnly, compareOnly := mem7.compareOnly, abort := mem7.abort, result := mem7.result : Cmd }.ordered, haltErr := { tag := mem7.tag, ctrl := mem7.ctrl, sq := mem7.sq, cid := mem7.cid, order := mem7.order, ordered := mem7.ordered, haltErr := mem7.haltErr, kind := CmdKind.write, nsid := 1, lba := 0, nlb := 1, shared := mem7.shared, tracked := false, phase := mem7.phase, admitted := mem7.admitted, media := mem7.media, wdata := mem7.wdata, dealloc := mem7.dealloc, places := mem7.places, need := mem7.need, looked := mem7.looked, got := mem7.got, pr := mem7.pr, verifyOnly := mem7.verifyOnly, compareOnly := mem7.compareOnly, abort := mem7.abort, result := mem7.result : Cmd }.haltErr, kind := CmdKind.dealloc, nsid := { tag := mem7.tag, ctrl := mem7.ctrl, sq := mem7.sq, cid := mem7.cid, order := mem7.order, ordered := mem7.ordered, haltErr := mem7.haltErr, kind := CmdKind.write, nsid := 1, lba := 0, nlb := 1, shared := mem7.shared, tracked := false, phase := mem7.phase, admitted := mem7.admitted, media := mem7.media, wdata := mem7.wdata, dealloc := mem7.dealloc, places := mem7.places, need := mem7.need, looked := mem7.looked, got := mem7.got, pr := mem7.pr, verifyOnly := mem7.verifyOnly, compareOnly := mem7.compareOnly, abort := mem7.abort, result := mem7.result : Cmd }.nsid, lba := { tag := mem7.tag, ctrl := mem7.ctrl, sq := mem7.sq, cid := mem7.cid, order := mem7.order, ordered := mem7.ordered, haltErr := mem7.haltErr, kind := CmdKind.write, nsid := 1, lba := 0, nlb := 1, shared := mem7.shared, tracked := false, phase := mem7.phase, admitted := mem7.admitted, media := mem7.media, wdata := mem7.wdata, dealloc := mem7.dealloc, places := mem7.places, need := mem7.need, looked := mem7.looked, got := mem7.got, pr := mem7.pr, verifyOnly := mem7.verifyOnly, compareOnly := mem7.compareOnly, abort := mem7.abort, result := mem7.result : Cmd }.lba, nlb := { tag := mem7.tag, ctrl := mem7.ctrl, sq := mem7.sq, cid := mem7.cid, order := mem7.order, ordered := mem7.ordered, haltErr := mem7.haltErr, kind := CmdKind.write, nsid := 1, lba := 0, nlb := 1, shared := mem7.shared, tracked := false, phase := mem7.phase, admitted := mem7.admitted, media := mem7.media, wdata := mem7.wdata, dealloc := mem7.dealloc, places := mem7.places, need := mem7.need, looked := mem7.looked, got := mem7.got, pr := mem7.pr, verifyOnly := mem7.verifyOnly, compareOnly := mem7.compareOnly, abort := mem7.abort, result := mem7.result : Cmd }.nlb, shared := { tag := mem7.tag, ctrl := mem7.ctrl, sq := mem7.sq, cid := mem7.cid, order := mem7.order, ordered := mem7.ordered, haltErr := mem7.haltErr, kind := CmdKind.write, nsid := 1, lba := 0, nlb := 1, shared := mem7.shared, tracked := false, phase := mem7.phase, admitted := mem7.admitted, media := mem7.media, wdata := mem7.wdata, dealloc := mem7.dealloc, places := mem7.places, need := mem7.need, looked := mem7.looked, got := mem7.got, pr := mem7.pr, verifyOnly := mem7.verifyOnly, compareOnly := mem7.compareOnly, abort := mem7.abort, result := mem7.result : Cmd }.shared, tracked := { tag := mem7.tag, ctrl := mem7.ctrl, sq := mem7.sq, cid := mem7.cid, order := mem7.order, ordered := mem7.ordered, haltErr := mem7.haltErr, kind := CmdKind.write, nsid := 1, lba := 0, nlb := 1, shared := mem7.shared, tracked := false, phase := mem7.phase, admitted := mem7.admitted, media := mem7.media, wdata := mem7.wdata, dealloc := mem7.dealloc, places := mem7.places, need := mem7.need, looked := mem7.looked, got := mem7.got, pr := mem7.pr, verifyOnly := mem7.verifyOnly, compareOnly := mem7.compareOnly, abort := mem7.abort, result := mem7.result : Cmd }.tracked, phase := { tag := mem7.tag, ctrl := mem7.ctrl, sq := mem7.sq, cid := mem7.cid, order := mem7.order, ordered := mem7.ordered, haltErr := mem7.haltErr, kind := CmdKind.write, nsid := 1, lba := 0, nlb := 1, shared := mem7.shared, tracked := false, phase := mem7.phase, admitted := mem7.admitted, media := mem7.media, wdata := mem7.wdata, dealloc := mem7.dealloc, places := mem7.places, need := mem7.need, looked := mem7.looked, got := mem7.got, pr := mem7.pr, verifyOnly := mem7.verifyOnly, compareOnly := mem7.compareOnly, abort := mem7.abort, result := mem7.result : Cmd }.phase, admitted := { tag := mem7.tag, ctrl := mem7.ctrl, sq := mem7.sq, cid := mem7.cid, order := mem7.order, ordered := mem7.ordered, haltErr := mem7.haltErr, kind := CmdKind.write, nsid := 1, lba := 0, nlb := 1, shared := mem7.shared, tracked := false, phase := mem7.phase, admitted := mem7.admitted, media := mem7.media, wdata := mem7.wdata, dealloc := mem7.dealloc, places := mem7.places, need := mem7.need, looked := mem7.looked, got := mem7.got, pr := mem7.pr, verifyOnly := mem7.verifyOnly, compareOnly := mem7.compareOnly, abort := mem7.abort, result := mem7.result : Cmd }.admitted, media := { tag := mem7.tag, ctrl := mem7.ctrl, sq := mem7.sq, cid := mem7.cid, order := mem7.order, ordered := mem7.ordered, haltErr := mem7.haltErr, kind := CmdKind.write, nsid := 1, lba := 0, nlb := 1, shared := mem7.shared, tracked := false, phase := mem7.phase, admitted := mem7.admitted, media := mem7.media, wdata := mem7.wdata, dealloc := mem7.dealloc, places := mem7.places, need := mem7.need, looked := mem7.looked, got := mem7.got, pr := mem7.pr, verifyOnly := mem7.verifyOnly, compareOnly := mem7.compareOnly, abort := mem7.abort, result := mem7.result : Cmd }.media, wdata := { tag := mem7.tag, ctrl := mem7.ctrl, sq := mem7.sq, cid := mem7.cid, order := mem7.order, ordered := mem7.ordered, haltErr := mem7.haltErr, kind := CmdKind.write, nsid := 1, lba := 0, nlb := 1, shared := mem7.shared, tracked := false, phase := mem7.phase, admitted := mem7.admitted, media := mem7.media, wdata := mem7.wdata, dealloc := mem7.dealloc, places := mem7.places, need := mem7.need, looked := mem7.looked, got := mem7.got, pr := mem7.pr, verifyOnly := mem7.verifyOnly, compareOnly := mem7.compareOnly, abort := mem7.abort, result := mem7.result : Cmd }.wdata, dealloc := { tag := mem7.tag, ctrl := mem7.ctrl, sq := mem7.sq, cid := mem7.cid, order := mem7.order, ordered := mem7.ordered, haltErr := mem7.haltErr, kind := CmdKind.write, nsid := 1, lba := 0, nlb := 1, shared := mem7.shared, tracked := false, phase := mem7.phase, admitted := mem7.admitted, media := mem7.media, wdata := mem7.wdata, dealloc := mem7.dealloc, places := mem7.places, need := mem7.need, looked := mem7.looked, got := mem7.got, pr := mem7.pr, verifyOnly := mem7.verifyOnly, compareOnly := mem7.compareOnly, abort := mem7.abort, result := mem7.result : Cmd }.dealloc, places := { tag := mem7.tag, ctrl := mem7.ctrl, sq := mem7.sq, cid := mem7.cid, order := mem7.order, ordered := mem7.ordered, haltErr := mem7.haltErr, kind := CmdKind.write, nsid := 1, lba := 0, nlb := 1, shared := mem7.shared, tracked := false, phase := mem7.phase, admitted := mem7.admitted, media := mem7.media, wdata := mem7.wdata, dealloc := mem7.dealloc, places := mem7.places, need := mem7.need, looked := mem7.looked, got := mem7.got, pr := mem7.pr, verifyOnly := mem7.verifyOnly, compareOnly := mem7.compareOnly, abort := mem7.abort, result := mem7.result : Cmd }.places, need := { tag := mem7.tag, ctrl := mem7.ctrl, sq := mem7.sq, cid := mem7.cid, order := mem7.order, ordered := mem7.ordered, haltErr := mem7.haltErr, kind := CmdKind.write, nsid := 1, lba := 0, nlb := 1, shared := mem7.shared, tracked := false, phase := mem7.phase, admitted := mem7.admitted, media := mem7.media, wdata := mem7.wdata, dealloc := mem7.dealloc, places := mem7.places, need := mem7.need, looked := mem7.looked, got := mem7.got, pr := mem7.pr, verifyOnly := mem7.verifyOnly, compareOnly := mem7.compareOnly, abort := mem7.abort, result := mem7.result : Cmd }.need, looked := { tag := mem7.tag, ctrl := mem7.ctrl, sq := mem7.sq, cid := mem7.cid, order := mem7.order, ordered := mem7.ordered, haltErr := mem7.haltErr, kind := CmdKind.write, nsid := 1, lba := 0, nlb := 1, shared := mem7.shared, tracked := false, phase := mem7.phase, admitted := mem7.admitted, media := mem7.media, wdata := mem7.wdata, dealloc := mem7.dealloc, places := mem7.places, need := mem7.need, looked := mem7.looked, got := mem7.got, pr := mem7.pr, verifyOnly := mem7.verifyOnly, compareOnly := mem7.compareOnly, abort := mem7.abort, result := mem7.result : Cmd }.looked, got := { tag := mem7.tag, ctrl := mem7.ctrl, sq := mem7.sq, cid := mem7.cid, order := mem7.order, ordered := mem7.ordered, haltErr := mem7.haltErr, kind := CmdKind.write, nsid := 1, lba := 0, nlb := 1, shared := mem7.shared, tracked := false, phase := mem7.phase, admitted := mem7.admitted, media := mem7.media, wdata := mem7.wdata, dealloc := mem7.dealloc, places := mem7.places, need := mem7.need, looked := mem7.looked, got := mem7.got, pr := mem7.pr, verifyOnly := mem7.verifyOnly, compareOnly := mem7.compareOnly, abort := mem7.abort, result := mem7.result : Cmd }.got, pr := { tag := mem7.tag, ctrl := mem7.ctrl, sq := mem7.sq, cid := mem7.cid, order := mem7.order, ordered := mem7.ordered, haltErr := mem7.haltErr, kind := CmdKind.write, nsid := 1, lba := 0, nlb := 1, shared := mem7.shared, tracked := false, phase := mem7.phase, admitted := mem7.admitted, media := mem7.media, wdata := mem7.wdata, dealloc := mem7.dealloc, places := mem7.places, need := mem7.need, looked := mem7.looked, got := mem7.got, pr := mem7.pr, verifyOnly := mem7.verifyOnly, compareOnly := mem7.compareOnly, abort := mem7.abort, result := mem7.result : Cmd }.pr, verifyOnly := { tag := mem7.tag, ctrl := mem7.ctrl, sq := mem7.sq, cid := mem7.cid, order := mem7.order, ordered := mem7.ordered, haltErr := mem7.haltErr, kind := CmdKind.write, nsid := 1, lba := 0, nlb := 1, shared := mem7.shared, tracked := false, phase := mem7.phase, admitted := mem7.admitted, media := mem7.media, wdata := mem7.wdata, dealloc := mem7.dealloc, places := mem7.places, need := mem7.need, looked := mem7.looked, got := mem7.got, pr := mem7.pr, verifyOnly := mem7.verifyOnly, compareOnly := mem7.compareOnly, abort := mem7.abort, result := mem7.result : Cmd }.verifyOnly, compareOnly := { tag := mem7.tag, ctrl := mem7.ctrl, sq := mem7.sq, cid := mem7.cid, order := mem7.order, ordered := mem7.ordered, haltErr := mem7.haltErr, kind := CmdKind.write, nsid := 1, lba := 0, nlb := 1, shared := mem7.shared, tracked := false, phase := mem7.phase, admitted := mem7.admitted, media := mem7.media, wdata := mem7.wdata, dealloc := mem7.dealloc, places := mem7.places, need := mem7.need, looked := mem7.looked, got := mem7.got, pr := mem7.pr, verifyOnly := mem7.verifyOnly, compareOnly := mem7.compareOnly, abort := mem7.abort, result := mem7.result : Cmd }.compareOnly, abort := { tag := mem7.tag, ctrl := mem7.ctrl, sq := mem7.sq, cid := mem7.cid, order := mem7.order, ordered := mem7.ordered, haltErr := mem7.haltErr, kind := CmdKind.write, nsid := 1, lba := 0, nlb := 1, shared := mem7.shared, tracked := false, phase := mem7.phase, admitted := mem7.admitted, media := mem7.media, wdata := mem7.wdata, dealloc := mem7.dealloc, places := mem7.places, need := mem7.need, looked := mem7.looked, got := mem7.got, pr := mem7.pr, verifyOnly := mem7.verifyOnly, compareOnly := mem7.compareOnly, abort := mem7.abort, result := mem7.result : Cmd }.abort, result := { tag := mem7.tag, ctrl := mem7.ctrl, sq := mem7.sq, cid := mem7.cid, order := mem7.order, ordered := mem7.ordered, haltErr := mem7.haltErr, kind := CmdKind.write, nsid := 1, lba := 0, nlb := 1, shared := mem7.shared, tracked := false, phase := mem7.phase, admitted := mem7.admitted, media := mem7.media, wdata := mem7.wdata, dealloc := mem7.dealloc, places := mem7.places, need := mem7.need, looked := mem7.looked, got := mem7.got, pr := mem7.pr, verifyOnly := mem7.verifyOnly, compareOnly := mem7.compareOnly, abort := mem7.abort, result := mem7.result : Cmd }.result : Cmd }
      true mmb = none ∧ 1 ≠ 0 ∧ 1 * blockSize nsb (PrInfo.none.pract && nsb.dps != 0) ≤ 67108864 ∧ 8 % 8 = 0 ∧ 8 + 1 * blockSize nsb
      (PrInfo.none.pract && nsb.dps != 0) ≤ slmSize (funcOf mem7.ctrl mmb) mmb ∧ (PrInfo.none.pract = true ∨ checkBlocks nsb.dps nsb.flbas
      PrInfo.none 0 (blksOf nsb (PrInfo.none.pract && nsb.dps != 0) (Option.getD (readSpace (Space.host 0) 8 512 mmb) []) 1) = none)) := ⟨⟨ready_of (by decide +kernel), by decide +kernel⟩, ⟨ready_of (by decide +kernel), by decide +kernel⟩, ⟨ready_of (by decide +kernel), mapChans_of
    (by decide +kernel), by decide +kernel⟩, ⟨ready_of (by decide +kernel), mapChans_of (by decide +kernel), by decide +kernel⟩, ⟨ready_of
    (by decide +kernel), by decide +kernel⟩, ⟨ready_of (by decide +kernel), by decide +kernel⟩, ⟨ready_of (by decide +kernel), canLand_of
    (by unfold Admitted; decide +kernel) (by decide +kernel) (by decide +kernel) (by decide +kernel) (by decide +kernel), isSome_getD
    (by decide +kernel), by decide +kernel⟩⟩

theorem test_ProgramCommands :
    (Ready 7 [CmdKind.program] prg s1 ∧ computeNs prg s1 = true ∧ mode s1 ≠ 9 ∧ [(0, 268435456), (4096, 4096)] ≠ [] ∧ List.length [(0,
      268435456), (4096, 4096)] ≤ 32 ∧ (∀ r ∈ [(0, 268435456), (4096, 4096)], r.1 % 4096 = 0 ∧ r.2 % 4096 = 0 ∧ 0 < r.2 ∧ r.2 ≤ 68719476736 ∧ r.1 +
      r.2 ≤ slmSize (funcOf prg.ctrl s1) s1) ∧ (∃ i < 16, SMap.find s1.prog.rsets (slotKey (funcOf prg.ctrl s1) i) = none)) ∧
    (Ready 7 [CmdKind.program] prg s2 ∧ computeNs prg s2 = true ∧ mode s2 ≠ 9 ∧ ([(0, 268439552)] = [] ∨ 32 < List.length [(0, 268439552)]
      ∨ (∃ r ∈ [(0, 268439552)], ¬(r.1 % 4096 = 0 ∧ r.2 % 4096 = 0 ∧ 0 < r.2 ∧ r.2 ≤ 68719476736 ∧ r.1 + r.2 ≤ slmSize (funcOf prg.ctrl s2)
      s2)) ∨ ∀ i < 16, SMap.find s2.prog.rsets (slotKey (funcOf prg.ctrl s2) i) ≠ none)) ∧
    (Ready 7 [CmdKind.program] prg s2 ∧ computeNs prg s2 = true ∧ mode s2 ≠ 9 ∧ (([] : List Nat) = [] ∨ 32 < List.length ([] : List Nat) ∨
      (∃ r ∈ ([] : List (Nat × Nat)), ¬(r.1 % 4096 = 0 ∧ r.2 % 4096 = 0 ∧ 0 < r.2 ∧ r.2 ≤ 68719476736 ∧ r.1 + r.2 ≤ slmSize (funcOf prg.ctrl s2)
      s2)) ∨ ∀ i < 16, SMap.find s2.prog.rsets (slotKey (funcOf prg.ctrl s2) i) ≠ none)) ∧
    (Ready 7 [CmdKind.program] prg s4 ∧ computeNs prg s4 = true ∧ mode s4 ≠ 9 ∧ 0 < 2 ∧ 2 ≤ 16 ∧ SMap.find s4.prog.rsets (slotKey
      (funcOf prg.ctrl s4) (2 - 1)) ≠ none ∧ (∀ e ∈ s4.prog.execs, ¬(e.2.func = funcOf prg.ctrl s4 ∧ e.2.rset = 2))) ∧
    (Ready 7 [CmdKind.program] prg s4 ∧ computeNs prg s4 = true ∧ mode s4 ≠ 9 ∧ 0 < 1 ∧ 1 ≤ 16 ∧ SMap.find s4.prog.rsets (slotKey
      (funcOf prg.ctrl s4) (1 - 1)) ≠ none ∧ (∃ e ∈ s4.prog.execs, e.2.func = funcOf prg.ctrl s4 ∧ e.2.rset = 1)) ∧
    (Ready 7 [CmdKind.program] prg s5 ∧ computeNs prg s5 = true ∧ mode s5 ≠ 9 ∧ 2 < 16 ∧ 2097152 % 4096 = 0 ∧ 2097152 + List.length [1, 2,
      3] ≤ 67108864 ∧ [1, 2, 3] ≠ [] ∧ List.length [1, 2, 3] ≤ 2097152 ∧ (slotAt (funcOf prg.ctrl s5) 2 s5).active = none ∧ (privRoom (funcOf
      prg.ctrl s5) (2097152 * List.length (List.filter (fun b => decide (b ∉ (slotAt (funcOf prg.ctrl s5) 2 s5).blocks)) (stagingBlocks
      2097152 (List.length [1, 2, 3])))) s5 = true)) ∧
    (Ready 7 [CmdKind.program] prg s5 ∧ computeNs prg s5 = true ∧ mode s5 ≠ 9 ∧ 2 < 16 ∧ 2093056 % 4096 = 0 ∧ 2093056 + List.length
      (List.replicate 4097 3) ≤ 67108864 ∧ List.replicate 4097 3 ≠ [] ∧ List.length (List.replicate 4097 3) ≤ 2097152 ∧ (slotAt (funcOf prg.ctrl
      s5) 2 s5).active = none ∧ (privRoom (funcOf prg.ctrl s5) (2097152 * List.length (List.filter (fun b => decide (b ∉ (slotAt (funcOf
      prg.ctrl s5) 2 s5).blocks)) (stagingBlocks 2093056 (List.length (List.replicate 4097 3))))) s5 = true)) ∧
    (Ready 7 [CmdKind.program] prg s6 ∧ computeNs prg s6 = true ∧ mode s6 ≠ 9 ∧ 2 < 16 ∧ 0 % 4096 = 0 ∧ 0 + List.length [1] ≤ 67108864 ∧
      [1] ≠ [] ∧ List.length [1] ≤ 2097152 ∧ (slotAt (funcOf prg.ctrl s6) 2 s6).active = none ∧ (privRoom (funcOf prg.ctrl s6) (2097152 *
      List.length (List.filter (fun b => decide (b ∉ (slotAt (funcOf prg.ctrl s6) 2 s6).blocks)) (stagingBlocks 0 (List.length [1])))) s6
      = false)) := ⟨⟨ready_of (by decide +kernel), by decide +kernel⟩, ⟨ready_of (by decide +kernel), by decide +kernel⟩, ⟨ready_of (by decide +kernel),
    by decide +kernel⟩, ⟨ready_of (by decide +kernel), by decide +kernel⟩, ⟨ready_of (by decide +kernel), by decide +kernel⟩, ⟨ready_of
    (by decide +kernel), by decide +kernel⟩, ⟨ready_of (by decide +kernel), by decide +kernel⟩, ⟨ready_of (by decide +kernel), by decide +kernel⟩⟩

theorem test_ProgramCommands_2 :
    (Ready 7 [CmdKind.program] prg s7 ∧ computeNs prg s7 = true ∧ mode s7 ≠ 9 ∧ 2 < 16 ∧ 0 % 4096 = 0 ∧ 0 + List.length [1] ≤ 67108864 ∧
      [1] ≠ [] ∧ List.length [1] ≤ 2097152 ∧ (slotAt (funcOf prg.ctrl s7) 2 s7).active ≠ none) ∧
    (Ready 7 [CmdKind.program] prg s2 ∧ computeNs prg s2 = true ∧ mode s2 ≠ 9 ∧ 15 < 16 ∧ 0 % 4096 = 0 ∧ 0 + List.length [1] ≤ 67108864 ∧
      [1] ≠ [] ∧ List.length [1] ≤ 2097152 ∧ 194 ≠ 193) ∧
    (Ready 7 [CmdKind.program] prg s5 ∧ computeNs prg s5 = true ∧ mode s5 ≠ 9 ∧ 2 < 16 ∧ (slotAt (funcOf prg.ctrl s5) 2 s5).active =
      none) ∧
    (Ready 7 [CmdKind.program] prg s7 ∧ computeNs prg s7 = true ∧ mode s7 ≠ 9 ∧ 2 < 16 ∧ (slotAt (funcOf prg.ctrl s7) 2 s7).active ≠
      none) ∧
    (Ready 7 [CmdKind.program] prg s8 ∧ computeNs prg s8 = true ∧ mode s8 ≠ 9 ∧ 2 < 16 ∧ (slotAt (funcOf prg.ctrl s8) 2 s8).active =
      none ∧ (slotAt (funcOf prg.ctrl s8) 2 s8).pieces ≠ [] ∧ parcelFaults (slotAt (funcOf prg.ctrl s8) 2 s8) = [] ∧ privRoom (funcOf
      prg.ctrl s8) (List.length (parcelImage (slotAt (funcOf prg.ctrl s8) 2 s8))) s8 = true) ∧
    (Ready 7 [CmdKind.program] prg s9 ∧ computeNs prg s9 = true ∧ mode s9 ≠ 9 ∧ 2 < 16 ∧ (slotAt (funcOf prg.ctrl s9) 2 s9).active =
      none ∧ (slotAt (funcOf prg.ctrl s9) 2 s9).pieces ≠ [] ∧ parcelFaults (slotAt (funcOf prg.ctrl s9) 2 s9) = [] ∧ privRoom (funcOf
      prg.ctrl s9) (List.length (parcelImage (slotAt (funcOf prg.ctrl s9) 2 s9))) s9 = false) ∧
    (Ready 7 [CmdKind.program] prg s10 ∧ computeNs prg s10 = true ∧ mode s10 ≠ 9 ∧ 2 < 16 ∧ (slotAt (funcOf prg.ctrl s10) 2
      s10).active = none ∧ (slotAt (funcOf prg.ctrl s10) 2 s10).pieces ≠ [] ∧ parcelFaults (slotAt (funcOf prg.ctrl s10) 2 s10) =
      [2]) ∧
    (Ready 7 [CmdKind.program] prg s2 ∧ computeNs prg s2 = true ∧ mode s2 ≠ 9 ∧ 2 < 16 ∧ (slotAt (funcOf prg.ctrl s2) 2 s2).active =
      none ∧ (slotAt (funcOf prg.ctrl s2) 2 s2).pieces = []) := ⟨⟨ready_of (by decide +kernel), by decide +kernel⟩, ⟨ready_of (by decide +kernel), by decide +kernel⟩, ⟨ready_of (by decide +kernel),
    by decide +kernel⟩, ⟨ready_of (by decide +kernel), by decide +kernel⟩, ⟨ready_of (by decide +kernel), by decide +kernel⟩, ⟨ready_of
    (by decide +kernel), by decide +kernel⟩, ⟨ready_of (by decide +kernel), by decide +kernel⟩, ⟨ready_of (by decide +kernel), by decide +kernel⟩⟩

theorem test_ProgramCommands_3 :
    (Ready 7 [CmdKind.program] prg s2 ∧ computeNs prg s2 = true ∧ mode s2 ≠ 9 ∧ 2 < 16 ∧ (slotAt (funcOf prg.ctrl s2) 2 s2).active =
      none) ∧
    (Ready 7 [CmdKind.program] prg s2 ∧ computeNs prg s2 = true ∧ mode s2 ≠ 9 ∧ 2 < 16 ∧ (slotAt (funcOf prg.ctrl s2) 2 s2).active =
      none ∧ List.length [1] ≤ 4096) ∧
    (Ready 7 [CmdKind.program] prg s11 ∧ computeNs prg s11 = true ∧ mode s11 ≠ 9 ∧ 3 < 16 ∧ (slotAt (funcOf prg.ctrl s11) 3
      s11).active = some prc ∧ (∀ e ∈ s11.prog.execs, ¬(e.2.func = funcOf prg.ctrl s11 ∧ e.2.slot = 3))) ∧
    (Ready 7 [CmdKind.program] prg s12 ∧ computeNs prg s12 = true ∧ mode s12 ≠ 9 ∧ 2 < 16 ∧ (slotAt (funcOf prg.ctrl s12) 2
      s12).active = some prc ∧ (∃ e ∈ s12.prog.execs, e.2.func = funcOf prg.ctrl s12 ∧ e.2.slot = 2)) ∧
    (Ready 7 [CmdKind.program] prg s13 ∧ computeNs prg s13 = true ∧ mode s13 ≠ 9 ∧ 2 < 16 ∧ (slotAt (funcOf prg.ctrl s13) 2
      s13).active = some prc ∧ List.length [1] ≤ 4096 ∧ (0 = 0 ∨ 0 ≤ 16 ∧ SMap.find s13.prog.rsets (slotKey (funcOf prg.ctrl s13) (0 - 1))
      ≠ none) ∧ (∀ c < 8, clusterServes c s13 = false)) ∧
    (Ready 7 [CmdKind.program] prg s14 ∧ computeNs prg s14 = true ∧ mode s14 ≠ 9 ∧ 2 < 16 ∧ (slotAt (funcOf prg.ctrl s14) 2
      s14).active = some prc ∧ List.length [5, 6] ≤ 4096 ∧ (1 = 0 ∨ 1 ≤ 16 ∧ SMap.find s14.prog.rsets (slotKey (funcOf prg.ctrl s14) (1 -
      1)) ≠ none) ∧ (∃ c < 8, (resOf (funcOf prg.ctrl s14) s14).mask / 2 ^ c % 2 = 1 ∧ clusterServes c s14 = true) ∧ (resOf (funcOf
      prg.ctrl s14) s14).compW ≠ 0 ∧ s14.prog.execs = [] ∧ s14.prog.waiting = [] ∧ (resOf (funcOf prg.ctrl s14) s14).execs ≠ 0 ∧
      (resOf (funcOf prg.ctrl s14) s14).letters ≠ 0 ∧ privRoom (funcOf prg.ctrl s14) (execCharge prc) s14 = true ∧ s14.sch.letters =
      [] ∧ s14.sch.nextId < 1048576 ∧ SMap.find s14.sch.routes 0 = none ∧ funcOf prg.ctrl s14 < 128) ∧
    (Ready 7 [CmdKind.program] prg s15 ∧ computeNs prg s15 = true ∧ mode s15 ≠ 9 ∧ 2 < 16 ∧ (slotAt (funcOf prg.ctrl s15) 2
      s15).active = some prc ∧ List.length [5, 6] ≤ 4096 ∧ (0 = 0 ∨ 0 ≤ 16 ∧ SMap.find s15.prog.rsets (slotKey (funcOf prg.ctrl s15) (0 -
      1)) ≠ none) ∧ (∃ c < 8, clusterServes c s15 = true) ∧ ((resOf (funcOf prg.ctrl s15) s15).compW = 0 ∨ (resOf (funcOf prg.ctrl s15)
      s15).execs ≤ List.length (List.filter (fun e => decide (e.2.func = funcOf prg.ctrl s15)) s15.prog.execs))) ∧
    (Ready 7 [CmdKind.program] prg s16 ∧ computeNs prg s16 = true ∧ mode s16 ≠ 9 ∧ 2 < 16 ∧ (slotAt (funcOf prg.ctrl s16) 2
      s16).active = some prc ∧ List.length [5, 6] ≤ 4096 ∧ (0 = 0 ∨ 0 ≤ 16 ∧ SMap.find s16.prog.rsets (slotKey (funcOf prg.ctrl s16) (0 -
      1)) ≠ none) ∧ (∃ c < 8, clusterServes c s16 = true) ∧ ((resOf (funcOf prg.ctrl s16) s16).compW = 0 ∨ (resOf (funcOf prg.ctrl s16)
      s16).execs ≤ List.length (List.filter (fun e => decide (e.2.func = funcOf prg.ctrl s16)) s16.prog.execs))) := ⟨⟨ready_of (by decide +kernel), by decide +kernel⟩, ⟨ready_of (by decide +kernel), by decide +kernel⟩, ⟨ready_of (by decide +kernel),
    by decide +kernel⟩, ⟨ready_of (by decide +kernel), by decide +kernel⟩, ⟨ready_of (by decide +kernel), by decide +kernel⟩, ⟨ready_of
    (by decide +kernel), by decide +kernel⟩, ⟨ready_of (by decide +kernel), by decide +kernel⟩, ⟨ready_of (by decide +kernel), by decide +kernel⟩⟩

theorem test_ProgramCommands_4 :
    (Ready 7 [CmdKind.program] prg s7 ∧ computeNs prg s7 = true ∧ mode s7 ≠ 9 ∧ 2 < 16 ∧ (slotAt (funcOf prg.ctrl s7) 2 s7).active =
      some prc ∧ 16 < 17 ∧ List.length [1] ≤ 4096) ∧
    (Ready 7 [CmdKind.program] prg s17 ∧ readSpace (Space.host (funcOf prg.ctrl s17)) 0 160 s17 = some (Option.getD (readSpace (Space.host
      0) 0 160 (mb 0 (pm [] [] []))) []) ∧ computeNs prg s17 = true ∧ mode s17 ≠ 9 ∧ 0 % 8 = 0 ∧ 0 + 160 ≤ slmSize (funcOf prg.ctrl s17)
      s17) ∧
    (Ready 7 [CmdKind.program] prg s18 ∧ readSpace (Space.host (funcOf prg.ctrl s18)) 0 160 s18 = some (Option.getD (readSpace (Space.host
      0) 0 160 (mb 3 (pm [] [] []))) []) ∧ computeNs prg s18 = true ∧ mode s18 ≠ 9 ∧ 0 % 8 = 0 ∧ 0 + 160 ≤ slmSize (funcOf prg.ctrl s18)
      s18) ∧
    (Ready 7 [CmdKind.program] prg s2 ∧ computeNs prg s2 = true ∧ mode s2 ≠ 9 ∧ (0 % 8 ≠ 0 ∨ 0 = 0 ∨ slmSize (funcOf prg.ctrl s2) s2
      < 0 + 160 * 0)) ∧
    (Ready 7 [CmdKind.program] prg s2 ∧ computeNs prg s2 = true ∧ mode s2 ≠ 9 ∧ (4 % 8 ≠ 0 ∨ 1 = 0 ∨ slmSize (funcOf prg.ctrl s2) s2
      < 4 + 160 * 1)) ∧
    (Ready 7 [CmdKind.program] prg s2 ∧ computeNs prg s2 = true ∧ mode s2 ≠ 9 ∧ 1 ≤ (3 + 32 * 2) % 16 ∧ (3 + 32 * 2) % 16 ≤ 8 ∧ 1 ≤ (3 +
      32 * 2) / 32 % 32 ∧ (3 + 32 * 2) / 32 % 32 ≤ 16 ∧ 3 + 32 * 2 < 1024 ∧ 100 ≠ 0 ∧ ((3 + 32 * 2) / 16 % 2 = 0 ∨ isPhysical (funcOf prg.ctrl
      s2) s2 = true) ∧ funcOf prg.ctrl s2 < 128 ∧ (createTable (funcOf prg.ctrl s2) ((3 + 32 * 2) % 16) ((3 + 32 * 2) / 32 % 32) 100
      ((3 + 32 * 2) / 16 % 2 == 1) s2).1 = TblNew.made 0 128) ∧
    (Ready 7 [CmdKind.program] prg s2 ∧ computeNs prg s2 = true ∧ mode s2 ≠ 9 ∧ 1 ≤ (3 + 32 * 16) % 16 ∧ (3 + 32 * 16) % 16 ≤ 8 ∧ 1 ≤ (3 +
      32 * 16) / 32 % 32 ∧ (3 + 32 * 16) / 32 % 32 ≤ 16 ∧ 3 + 32 * 16 < 1024 ∧ 2147483647 ≠ 0 ∧ ((3 + 32 * 16) / 16 % 2 = 0 ∨ isPhysical (funcOf
      prg.ctrl s2) s2 = true) ∧ funcOf prg.ctrl s2 < 128 ∧ (createTable (funcOf prg.ctrl s2) ((3 + 32 * 16) % 16) ((3 + 32 * 16) / 32 %
      32) 2147483647 ((3 + 32 * 16) / 16 % 2 == 1) s2).1 = TblNew.noSpace) ∧
    (Ready 7 [CmdKind.program] prg noBanks ∧ computeNs prg noBanks = true ∧ mode noBanks ≠ 9 ∧ 1 ≤ (3 + 32 * 16) % 16 ∧ (3 + 32 * 16) % 16 ≤ 8 ∧ 1
      ≤ (3 + 32 * 16) / 32 % 32 ∧ (3 + 32 * 16) / 32 % 32 ≤ 16 ∧ 3 + 32 * 16 < 1024 ∧ 100 ≠ 0 ∧ ((3 + 32 * 16) / 16 % 2 = 0 ∨ isPhysical (funcOf
      prg.ctrl noBanks) noBanks = true) ∧ funcOf prg.ctrl noBanks < 128 ∧ (createTable (funcOf prg.ctrl noBanks) ((3 + 32 * 16) % 16) ((3 + 32 *
      16) / 32 % 32) 100 ((3 + 32 * 16) / 16 % 2 == 1) noBanks).1 = TblNew.quota) := ⟨⟨ready_of (by decide +kernel), by decide +kernel⟩, ⟨ready_of (by decide +kernel), isSome_getD (by decide +kernel), by decide +kernel⟩, ⟨ready_of
    (by decide +kernel), isSome_getD (by decide +kernel), by decide +kernel⟩, ⟨ready_of (by decide +kernel), by decide +kernel⟩, ⟨ready_of
    (by decide +kernel), by decide +kernel⟩, ⟨ready_of (by decide +kernel), by decide +kernel⟩, ⟨ready_of (by decide +kernel), by decide +kernel⟩,
    ⟨ready_of (by decide +kernel), by decide +kernel⟩⟩

theorem test_ProgramCommands_5 :
    (Ready 7 [CmdKind.program] prg s2 ∧ computeNs prg s2 = true ∧ mode s2 ≠ 9 ∧ (32 % 16 = 0 ∨ 100 = 0 ∨ 0 ≠ 0)) ∧
    (Ready 7 [CmdKind.program] prg s2 ∧ computeNs prg s2 = true ∧ mode s2 ≠ 9 ∧ (33 % 16 = 0 ∨ 100 = 0 ∨ 1 ≠ 0)) ∧
    (Ready 7 [CmdKind.program] prg s17 ∧ computeNs prg s17 = true ∧ mode s17 ≠ 9 ∧ 9 < 256 ∧ (tblAt 9 s17).valid = true ∧ (tblAt 9
      s17).owner = funcOf prg.ctrl s17) ∧
    (Ready 7 [CmdKind.program] prg s17 ∧ computeNs prg s17 = true ∧ mode s17 ≠ 9 ∧ (256 ≤ 8 ∨ (tblAt 8 s17).valid = false ∨ (tblAt 8
      s17).owner ≠ funcOf prg.ctrl s17)) ∧
    (Ready 7 [CmdKind.program] prg s17 ∧ computeNs prg s17 = true ∧ mode s17 ≠ 9 ∧ (256 ≤ 256 ∨ (tblAt 256 s17).valid = false ∨ (tblAt
      256 s17).owner ≠ funcOf prg.ctrl s17)) := ⟨⟨ready_of (by decide +kernel), by decide +kernel⟩, ⟨ready_of (by decide +kernel), by decide +kernel⟩, ⟨ready_of (by decide +kernel),
    by decide +kernel⟩, ⟨ready_of (by decide +kernel), by decide +kernel⟩, ⟨ready_of (by decide +kernel), by decide +kernel⟩⟩

theorem test_Executions :
    (SMap.find s20.prog.execs 7 = some exs ∧ 0 < 64 ∧ svCall 0 6 s20 = some 7 ∧ exs.endWith = none) ∧
    (SMap.find s21.prog.execs 7 = some exE ∧ 0 < 64 ∧ svCall 0 6 s21 = some 7 ∧ exE.endWith ≠ none) ∧
    (SMap.find s22.prog.execs 7 = some exs ∧ 0 < 64 ∧ svCall 0 7 s22 = some 7 ∧ wholeUnits exs.ctrl (BitVec.toNat (gr 0 1 s22))
      (BitVec.toNat (gr 0 2 s22)) (BitVec.toNat (gr 0 3 s22)) s22 = some (1, 2) ∧ 1 < 16 ∧ SMap.find exs.windows 1 = none ∧ (∀ v < 1,
      SMap.find exs.windows v ≠ none) ∧ windowSpace s22 + 2 * 16384 ≤ 17592186044416) ∧
    (SMap.find s23.prog.execs 7 = some exW ∧ 0 < 64 ∧ svCall 0 7 s23 = some 7 ∧ wholeUnits exW.ctrl (BitVec.toNat (gr 0 1 s23))
      (BitVec.toNat (gr 0 2 s23)) (BitVec.toNat (gr 0 3 s23)) s23 = some (1, 2) ∧ (∀ w < 16, SMap.find exW.windows w ≠ none)) ∧
    (SMap.find s24.prog.execs 7 = some exB ∧ 0 < 64 ∧ svCall 0 7 s24 = some 7 ∧ wholeUnits exB.ctrl (BitVec.toNat (gr 0 1 s24))
      (BitVec.toNat (gr 0 2 s24)) (BitVec.toNat (gr 0 3 s24)) s24 = some (1, 2) ∧ (∃ w < 16, SMap.find exB.windows w = none) ∧
      17592186044416 < windowSpace s24 + 2 * 16384) ∧
    (SMap.find s25.prog.execs 7 = some exs ∧ 0 < 64 ∧ svCall 0 7 s25 = some 7 ∧ wholeUnits exs.ctrl (BitVec.toNat (gr 0 1 s25))
      (BitVec.toNat (gr 0 2 s25)) (BitVec.toNat (gr 0 3 s25)) s25 = none) ∧
    (SMap.find s26.prog.execs 7 = some exs ∧ 0 < 64 ∧ svCall 0 8 s26 = some 7 ∧ BitVec.toNat (gr 0 1 s26) = 70368744177664 + 0 *
      1099511627776 ∧ SMap.find exs.windows 0 = some { nsid := 1, iu := 0, count := 4, closing := false : Window } ∧ suspendedOn exs.func
      { nsid := 1, iu := 0, count := 4, closing := false : Window }.nsid { nsid := 1, iu := 0, count := 4, closing := false : Window }.iu
      { nsid := 1, iu := 0, count := 4, closing := false : Window }.count s26 = false) ∧
    (SMap.find susp.prog.execs 7 = some exs ∧ 0 < 64 ∧ svCall 0 8 susp = some 7 ∧ BitVec.toNat (gr 0 1 susp) = 70368744177664 + 0 * 1099511627776 ∧
      SMap.find exs.windows 0 = some { nsid := 1, iu := 0, count := 4, closing := false : Window } ∧ suspendedOn exs.func
      { nsid := 1, iu := 0, count := 4, closing := false : Window }.nsid { nsid := 1, iu := 0, count := 4, closing := false : Window }.iu
      { nsid := 1, iu := 0, count := 4, closing := false : Window }.count susp = true) := by
  refine ⟨?_, ?_, ?_, ?_, ?_, ?_, ?_, ?_⟩ <;> decide +kernel

theorem test_Executions_2 :
    (SMap.find s27.prog.execs 7 = some exs ∧ 0 < 64 ∧ svCall 0 8 s27 = some 7 ∧ BitVec.toNat (gr 0 1 s27) % 1099511627776 ≠ 0) ∧
    (SMap.find s28.prog.execs 7 = some exM ∧ 0 < 64 ∧ svCall 0 9 s28 = some 7 ∧ readSpace (Space.exec 7) (BitVec.toNat (gr 0 1 s28)) 12
      s28 = some (tc 2 3 100) ∧ 1 ≤ fieldAt (tc 2 3 100) 0 4 % 16 ∧ fieldAt (tc 2 3 100) 0 4 % 16 ≤ 8 ∧ 1 ≤ fieldAt (tc 2 3 100) 0 4 / 32 % 32 ∧
      fieldAt (tc 2 3 100) 0 4 / 32 % 32 ≤ 16 ∧ fieldAt (tc 2 3 100) 0 4 < 1024 ∧ fieldAt (tc 2 3 100) 4 4 ≠ 0 ∧ fieldAt (tc 2 3 100) 8 4 = 0 ∧
      fieldAt (tc 2 3 100) 0 4 / 16 % 2 = 0 ∧ exM.func < 128 ∧ (createTable exM.func (fieldAt (tc 2 3 100) 0 4 % 16) (fieldAt (tc 2 3 100) 0 4 / 32
      % 32) (fieldAt (tc 2 3 100) 4 4) (fieldAt (tc 2 3 100) 0 4 / 16 % 2 == 1) s28).1 = TblNew.made 0 128) ∧
    (SMap.find xmq.prog.execs 7 = some exM ∧ 0 < 64 ∧ svCall 0 9 xmq = some 7 ∧ readSpace (Space.exec 7) (BitVec.toNat (gr 0 1 xmq)) 12 xmq = some
      (tc 8 3 100) ∧ 1 ≤ fieldAt (tc 8 3 100) 0 4 % 16 ∧ fieldAt (tc 8 3 100) 0 4 % 16 ≤ 8 ∧ 1 ≤ fieldAt (tc 8 3 100) 0 4 / 32 % 32 ∧ fieldAt (tc 8
      3 100) 0 4 / 32 % 32 ≤ 16 ∧ fieldAt (tc 8 3 100) 0 4 < 1024 ∧ fieldAt (tc 8 3 100) 4 4 ≠ 0 ∧ fieldAt (tc 8 3 100) 8 4 = 0 ∧ fieldAt (tc 8 3
      100) 0 4 / 16 % 2 = 0 ∧ exM.func < 128 ∧ (createTable exM.func (fieldAt (tc 8 3 100) 0 4 % 16) (fieldAt (tc 8 3 100) 0 4 / 32 % 32) (fieldAt
      (tc 8 3 100) 4 4) (fieldAt (tc 8 3 100) 0 4 / 16 % 2 == 1) xmq).1 = TblNew.quota) ∧
    (SMap.find s29.prog.execs 7 = some exM ∧ 0 < 64 ∧ svCall 0 9 s29 = some 7 ∧ readSpace (Space.exec 7) (BitVec.toNat (gr 0 1 s29)) 12
      s29 = some (tc 16 3 2147483647) ∧ 1 ≤ fieldAt (tc 16 3 2147483647) 0 4 % 16 ∧ fieldAt (tc 16 3 2147483647) 0 4 % 16 ≤ 8 ∧ 1 ≤ fieldAt (tc
      16 3 2147483647) 0 4 / 32 % 32 ∧ fieldAt (tc 16 3 2147483647) 0 4 / 32 % 32 ≤ 16 ∧ fieldAt (tc 16 3 2147483647) 0 4 < 1024 ∧ fieldAt (tc 16 3
      2147483647) 4 4 ≠ 0 ∧ fieldAt (tc 16 3 2147483647) 8 4 = 0 ∧ fieldAt (tc 16 3 2147483647) 0 4 / 16 % 2 = 0 ∧ exM.func < 128 ∧ (createTable
      exM.func (fieldAt (tc 16 3 2147483647) 0 4 % 16) (fieldAt (tc 16 3 2147483647) 0 4 / 32 % 32) (fieldAt (tc 16 3 2147483647) 4 4) (fieldAt (tc
      16 3 2147483647) 0 4 / 16 % 2 == 1) s29).1 = TblNew.noSpace) ∧
    (SMap.find s30.prog.execs 7 = some exM ∧ 0 < 64 ∧ svCall 0 9 s30 = some 7 ∧ readSpace (Space.exec 7) (BitVec.toNat (gr 0 1 s30)) 12
      s30 = some (tc 16 3 0) ∧ (fieldAt (tc 16 3 0) 0 4 % 16 = 0 ∨ fieldAt (tc 16 3 0) 4 4 = 0 ∨ fieldAt (tc 16 3 0) 8 4 ≠ 0)) ∧
    (SMap.find s31.prog.execs 7 = some exs ∧ 0 < 64 ∧ svCall 0 10 s31 = some 7 ∧ BitVec.toNat (gr 0 1 s31) ∈ exs.tables ∧ BitVec.toNat (gr
      0 1 s31) < 256) ∧
    (SMap.find s32.prog.execs 7 = some exs ∧ 0 < 64 ∧ svCall 0 10 s32 = some 7 ∧ BitVec.toNat (gr 0 1 s32) ∉ exs.tables) ∧
    (SMap.find s33.prog.execs 7 = some exs ∧ 0 < 64 ∧ svCall 0 11 s33 = some 7 ∧ 1 ≤ BitVec.toNat (gr 0 1 s33) ∧ BitVec.toNat (gr 0 1
      s33) ≤ 3 ∧ exs.func < 128 ∧ (List.length (List.filter (fun r => decide (r.2.owner = exs.func ∧ r.2.exec = 7)) s33.sch.routes) <
      exs.maxRoutes) ∧ 5 < 262144 ∧ SMap.find s33.sch.routes 5 = none) := by
  refine ⟨?_, ?_, ?_, ?_, ?_, ?_, ?_, ?_⟩ <;> decide +kernel

theorem test_Executions_3 :
    (SMap.find s34.prog.execs 7 = some exR ∧ 0 < 64 ∧ svCall 0 11 s34 = some 7 ∧ 1 ≤ BitVec.toNat (gr 0 1 s34) ∧ BitVec.toNat (gr 0 1
      s34) ≤ 3 ∧ (exR.maxRoutes ≤ List.length (List.filter (fun r => decide (r.2.owner = exR.func ∧ r.2.exec = 7)) s34.sch.routes))) ∧
    (SMap.find s35.prog.execs 7 = some exs ∧ 0 < 64 ∧ svCall 0 11 s35 = some 7 ∧ (BitVec.toNat (gr 0 1 s35) = 0 ∨ 3 < BitVec.toNat (gr 0 1
      s35))) ∧
    (SMap.find tk.prog.execs 7 = some exs ∧ 0 < 64 ∧ pdOn 6 tk = true ∧ portAllows 0 64 = true ∧ heldBy 0 tk = none ∧ 0 ∈ tk.sch.offered ∧
      tk.sch.letters = [rdy] ∧ rdy.prio < 4 ∧ orderedMode tk = false ∧ suits 0 rdy tk = true ∧ rdy.owner ≠ 128 ∧ rdy.exec = 7 ∧ SMap.find
      tk.prog.saved rdy.id = none) ∧
    (SMap.find s36.prog.execs 7 = some exL ∧ exL.endWith = none ∧ exL.limit ≠ 0 ∧ exL.start + exL.limit * 1000000 < BitVec.toNat (rd
      Reg.SCH_TICK s36)) ∧
    (SMap.find s37.prog.execs 7 = some exL ∧ (exL.limit = 0 ∨ BitVec.toNat (rd Reg.SCH_TICK s37) ≤ exL.start + exL.limit * 1000000)) ∧
    (SMap.find s38.prog.execs 7 = some exs ∧ (exs.limit = 0 ∨ BitVec.toNat (rd Reg.SCH_TICK s38) ≤ exs.start + exs.limit * 1000000)) ∧
    (InPhase (exN none).tag Phase.started [CmdKind.program] prs s39 ∧ SMap.find s39.prog.execs 7 = some (exN none) ∧ s39.sch.letters = []
      ∧ s39.scan.jobs = [] ∧ s39.sch.reads = [] ∧ s39.prog.waiting = [] ∧ (exN none).windows = [] ∧ (exN none).tables = [] ∧ SMap.sorted
      s39.prog.execs = true ∧ (exN none).endWith = none) ∧
    (InPhase (exN (some (0, 5))).tag Phase.started [CmdKind.program] prs s40 ∧ SMap.find s40.prog.execs 7 = some (exN (some (0, 5))) ∧
      s40.sch.letters = [] ∧ s40.scan.jobs = [] ∧ s40.sch.reads = [] ∧ s40.prog.waiting = [] ∧ (exN (some (0, 5))).windows = [] ∧ (exN
      (some (0, 5))).tables = [] ∧ SMap.sorted s40.prog.execs = true ∧ (exN (some (0, 5))).endWith = some (0, 5)) := ⟨by decide +kernel, by decide +kernel, by decide +kernel, by decide +kernel, by decide +kernel, by decide +kernel, ⟨inPhase_of
    (by decide +kernel), by decide +kernel⟩, ⟨inPhase_of (by decide +kernel), by decide +kernel⟩⟩

theorem test_Executions_4 :
    (InPhase (exN (some (2, 4))).tag Phase.started [CmdKind.program] prs s41 ∧ SMap.find s41.prog.execs 7 = some (exN (some (2, 4))) ∧
      s41.sch.letters = [] ∧ s41.scan.jobs = [] ∧ s41.sch.reads = [] ∧ s41.prog.waiting = [] ∧ (exN (some (2, 4))).windows = [] ∧ (exN
      (some (2, 4))).tables = [] ∧ SMap.sorted s41.prog.execs = true ∧ (exN (some (2, 4))).endWith = some (2, 4)) ∧
    (InPhase (exN (some (3, 0))).tag Phase.started [CmdKind.program] prs s42 ∧ SMap.find s42.prog.execs 7 = some (exN (some (3, 0))) ∧
      s42.sch.letters = [] ∧ s42.scan.jobs = [] ∧ s42.sch.reads = [] ∧ s42.prog.waiting = [] ∧ (exN (some (3, 0))).windows = [] ∧ (exN
      (some (3, 0))).tables = [] ∧ SMap.sorted s42.prog.execs = true ∧ (exN (some (3, 0))).endWith = some (3, 0)) ∧
    (InPhase (exN (some (4, 0))).tag Phase.started [CmdKind.program] prs s43 ∧ SMap.find s43.prog.execs 7 = some (exN (some (4, 0))) ∧
      s43.sch.letters = [] ∧ s43.scan.jobs = [] ∧ s43.sch.reads = [] ∧ s43.prog.waiting = [] ∧ (exN (some (4, 0))).windows = [] ∧ (exN
      (some (4, 0))).tables = [] ∧ SMap.sorted s43.prog.execs = true ∧ (exN (some (4, 0))).endWith = some (4, 0)) ∧
    (InPhase (exN (some (5, 0))).tag Phase.started [CmdKind.program] prs s44 ∧ SMap.find s44.prog.execs 7 = some (exN (some (5, 0))) ∧
      s44.sch.letters = [] ∧ s44.scan.jobs = [] ∧ s44.sch.reads = [] ∧ s44.prog.waiting = [] ∧ (exN (some (5, 0))).windows = [] ∧ (exN
      (some (5, 0))).tables = [] ∧ SMap.sorted s44.prog.execs = true ∧ (exN (some (5, 0))).endWith = some (5, 0)) ∧
    (SMap.find s45.prog.execs 7 = some exs ∧ (∃ l ∈ s45.sch.letters, l.owner = exs.func ∧ l.exec = 7) ∧ exs.endWith = none) ∧
    (readSpace Space.phys (BitVec.toNat lm.arg0) 64 s46 = some (Option.getD (readSpace Space.phys 8192 64 (md false)) []) ∧ SMap.find
      s46.prog.execs 7 = some exs ∧ s46.sch.letters = [lm] ∧ lm.state = LState.running ∧ lm.target = 6 ∧ lm.owner = 128 ∧ SMap.find
      s46.prog.execs lm.exec = none ∧ nsAt (fieldAt (Option.getD (readSpace Space.phys 8192 64 (md false)) []) 0 4) s46 = some ns1 ∧ ns1.csi
      = 0 ∧ ns1.keyLost = false ∧ fieldAt (Option.getD (readSpace Space.phys 8192 64 (md false)) []) 4 1 < 2 ∧ fieldAt (Option.getD (readSpace
      Space.phys 8192 64 (md false)) []) 6 2 = 0 ∧ fieldAt (Option.getD (readSpace Space.phys 8192 64 (md false)) []) 8 8 + fieldAt (Option.getD
      (readSpace Space.phys 8192 64 (md false)) []) 16 8 ≤ ns1.nsze ∧ fieldAt (Option.getD (readSpace Space.phys 8192 64 (md false)) []) 16 8 ≠ 0 ∧
      fieldAt (Option.getD (readSpace Space.phys 8192 64 (md false)) []) 16 8 * lbaBytes ns1.flbas ≤ 16777216 ∧ BitVec.toNat lm.arg0 + 64 ≤
      67108864 ∧ (untilNone (unitsOfRange (fieldAt (Option.getD (readSpace Space.phys 8192 64 (md false)) []) 0 4) (fieldAt (Option.getD (readSpace
      Space.phys 8192 64 (md false)) []) 8 8) (fieldAt (Option.getD (readSpace Space.phys 8192 64 (md false)) []) 16 8) ns1 [] s46)).2 = false ∧
      (fieldAt (Option.getD (readSpace Space.phys 8192 64 (md false)) []) 24 8 + List.length (List.flatMap (fun x => x.data) (untilNone
      (unitsOfRange (fieldAt (Option.getD (readSpace Space.phys 8192 64 (md false)) []) 0 4) (fieldAt (Option.getD (readSpace Space.phys 8192 64
      (md false)) []) 8 8) (fieldAt (Option.getD (readSpace Space.phys 8192 64 (md false)) []) 16 8) ns1 [] s46)).1) ≤ 67108864) ∧ (fieldAt
      (Option.getD (readSpace Space.phys 8192 64 (md false)) []) 24 8 + List.length (List.flatMap (fun x => x.data) (untilNone (unitsOfRange
      (fieldAt (Option.getD (readSpace Space.phys 8192 64 (md false)) []) 0 4) (fieldAt (Option.getD (readSpace Space.phys 8192 64 (md false)) [])
      8 8) (fieldAt (Option.getD (readSpace Space.phys 8192 64 (md false)) []) 16 8) ns1 [] s46)).1) ≤ BitVec.toNat lm.arg0 ∨ BitVec.toNat
      lm.arg0 + 64 ≤ fieldAt (Option.getD (readSpace Space.phys 8192 64 (md false)) []) 24 8)) := ⟨⟨inPhase_of (by decide +kernel), by decide +kernel⟩, ⟨inPhase_of (by decide +kernel), by decide +kernel⟩, ⟨inPhase_of (by decide +kernel),
    by decide +kernel⟩, ⟨inPhase_of (by decide +kernel), by decide +kernel⟩, by decide +kernel, ⟨isSome_getD (by decide +kernel),
    by decide +kernel⟩⟩

end Programs

namespace Dram

/-- The module in Serve with four DRAM channels, in a mode, with poisoned and bad lines. -/
def dm (l : List (Fld × Nat)) (poi bad : List Nat) : State :=
  let u := sets ([(Fl.MEM_STATUS_CHANNELS, 15), (Fl.MEM_SCRUB_POS_ADDR, 0x4000003000)] ++ l) (io [])
  { u with dram := { u.dram with poison := poi, bad := bad } }
def A : Nat := 0x4000003040
def L : Nat := A / 64
def drv : List (Nat × Nat) := (List.range 20).map (fun i => (i % 12, 11))
def stg : List Half := (List.range 20).map (fun i => BitVec.ofNat 32 (0xE0000000 + 77 * i))
/-- The same with every DRAM channel held. -/
def heldAll : State := dm ((List.range 4).map (fun n => (Fl.DMC_CTRL_HOLD n, 1))) [1] [2]
def s1 : State := dm [] [1] [2]
def s2 : State := dm [] [] []
def s3 : State := dm [(Fl.MEM_LOG_HEAD_FULL, 1)] [] []
def s5 : State := dm [(⟨Reg.DMC_DEV_FAILED 3, 12, 1⟩, 1)] [] []
def s6 : State := dm [(⟨Reg.DMC_DEV_FAILED 3, 19, 1⟩, 1)] [] []
def s8 : State := dm [] [L] []
def s9 : State := dm [] [3] []
def s10 : State := dm [(⟨Reg.DMC_DEV_FAILED 3, 19, 1⟩, 1)] [3] []
def s11 : State := dm [(Fl.AON_MODE_CUR, 3)] [3] []
def s12 : State := dm [] [3] [L]
def wc : Cmd := { cmd 7 .write 0 4 .started with looked := [] }
def rc : Cmd := cmd 7 .read 0 4 .started
def dc (c : Cmd) : State := { dm [] [L] [] with nv := { (dm [] [] []).nv with cmds := [c] } }
def s13 : State := dc wc
def s14 : State := dc rc
def s15 : State := dm [(Fl.DMC_LAT_TARGET 3 0, 0)] [L] []
def s16 : State := dm [(⟨Reg.DMC_STATUS 3, 8, 1⟩, 1)] [L] []
def s17 : State := dm [(Fl.DMC_REF_STATUS_DEBT 0, 5)] [L] []
def s18 : State := dm [(Fl.DMC_REF_STATUS_DEBT 0, 7)] [L] []
def s19 : State := wr (Reg.DMC_STAGE 2 19) 77 (dm [] [L] [])
def s20 : State := { dm [] [] [] with dram := { Dram.reset with recalFails := [(2, 1)] } }
def stgOk : List Half := (List.range 20).map (fun i => BitVec.ofNat 32 (77 * i))
def s21 : State := dm [(Fl.AON_MODE_CUR, 6)] [] []
def s22 : State := dm [(Fl.AON_MODE_CUR, 1)] [] []
/-- All entries of the remap table of channel 1 valid, with pages 70 to 581. -/
def full : State :=
  let u := dm [] [] [0x4000001000 / 64]
  { u with regs := u.regs.filter (fun e => e.1 < Reg.DMC_REMAP 1 0) ++
      (List.range 512).map (fun i => (Reg.DMC_REMAP 1 i, BitVec.ofNat 64 (1 + (70 + i) * 2 ^ 23))) ++
      u.regs.filter (fun e => Reg.DMC_REMAP 1 0 < e.1) }
def s23 : State := dm [(Fl.DMC_REMAP_VALID 1 511, 1), (Fl.DMC_REMAP_PAGE 1 511, 581)] [] []
def s24 : State := dm [(Fl.DMC_REMAP_VALID 1 0, 1), (Fl.DMC_REMAP_PAGE 1 0, 581)] [] []
def s25 : State := fset Fl.MEM_SCRUB_POS_ADDR 0x5FFFFFFFC0 (dm [] [] [])
def s26 : State := sets [(Fl.MEM_SRAM_REPAIR_COLS_FREE 65, 0)] (dm [] [] [])

theorem test_MemoryErrors :
    (dmcServes (dramPlace (A + 3) heldAll).1 heldAll = false) ∧
    (inDram (A + 3) s1 = true ∧ 7 < 8 ∧ dmcServes (dramPlace (A + 3) s1).1 s1 = true ∧ ((A + 3) / 64 ∉ s1.dram.poison ∧ (A + 3) / 64 ∉
      s1.dram.bad)) ∧
    (inDram (A + 3) s2 = true ∧ 7 < 8 ∧ dmcServes (dramPlace (A + 3) s2).1 s2 = true ∧ ((A + 3) / 64 ∉ s2.dram.poison ∧ (A + 3) / 64 ∉
      s2.dram.bad) ∧ 12 < 20 ∧ fget { addr := Reg.DMC_DEV_FAILED (dramPlace (A + 3) s2).1, lo := 12, w := 1 : Fld } s2 = 0) ∧
    (inDram (A + 3) s3 = true ∧ 7 < 8 ∧ dmcServes (dramPlace (A + 3) s3).1 s3 = true ∧ ((A + 3) / 64 ∉ s3.dram.poison ∧ (A + 3) / 64 ∉
      s3.dram.bad) ∧ 12 < 20 ∧ fget { addr := Reg.DMC_DEV_FAILED (dramPlace (A + 3) s3).1, lo := 12, w := 1 : Fld } s3 = 0) ∧
    (inDram A s5 = true ∧ 7 < 8 ∧ dmcServes (dramPlace A s5).1 s5 = true ∧ (A / 64 ∉ s5.dram.poison ∧ A / 64 ∉ s5.dram.bad) ∧ 12 <
      20 ∧ fget { addr := Reg.DMC_DEV_FAILED (dramPlace A s5).1, lo := 12, w := 1 : Fld } s5 = 1) ∧
    (inDram A s2 = true ∧ 7 < 8 ∧ dmcServes (dramPlace A s2).1 s2 = true ∧ (A / 64 ∉ s2.dram.poison ∧ A / 64 ∉ s2.dram.bad) ∧ 12 <
      20 ∧ fget { addr := Reg.DMC_DEV_FAILED (dramPlace A s2).1, lo := 12, w := 1 : Fld } s2 = 0) ∧
    (inDram A s6 = true ∧ 7 < 8 ∧ dmcServes (dramPlace A s6).1 s6 = true ∧ (A / 64 ∉ s6.dram.poison ∧ A / 64 ∉ s6.dram.bad) ∧ 12 <
      20 ∧ fget { addr := Reg.DMC_DEV_FAILED (dramPlace A s6).1, lo := 12, w := 1 : Fld } s6 = 0) ∧
    (inDram A s8 = true ∧ 7 < 8 ∧ dmcServes (dramPlace A s8).1 s8 = true ∧ A / 64 ∈ s8.dram.poison ∧ (MemOwner.other = MemOwner.other ∨
      MemOwner.other = MemOwner.firmware true)) := by
  refine ⟨?_, ?_, ?_, ?_, ?_, ?_, ?_, ?_⟩ <;> decide +kernel

theorem test_MemoryErrors_2 :
    (inDram A s9 = true ∧ 7 < 8 ∧ dmcServes (dramPlace A s9).1 s9 = true ∧ (A / 64 ∉ s9.dram.poison ∧ A / 64 ∉ s9.dram.bad) ∧
      (MemOwner.firmware true = MemOwner.other ∨ MemOwner.firmware true = MemOwner.firmware true) ∧ (!failedBeside (dramPlace A s9).1 (A / 64 %
      2 * 10) s9) = true) ∧
    (inDram A s10 = true ∧ 7 < 8 ∧ dmcServes (dramPlace A s10).1 s10 = true ∧ (A / 64 ∉ s10.dram.poison ∧ A / 64 ∉ s10.dram.bad) ∧
      (MemOwner.firmware true = MemOwner.other ∨ MemOwner.firmware true = MemOwner.firmware true) ∧ (false = true ∨ (!failedBeside (dramPlace A
      s10).1 (A / 64 % 2 * 10) s10) = false)) ∧
    (inDram A s11 = true ∧ 7 < 8 ∧ dmcServes (dramPlace A s11).1 s11 = true ∧ (A / 64 ∉ s11.dram.poison ∧ A / 64 ∉ s11.dram.bad) ∧
      (MemOwner.firmware true = MemOwner.other ∨ MemOwner.firmware true = MemOwner.firmware true) ∧ (true = true ∨ (!failedBeside (dramPlace A
      s11).1 (A / 64 % 2 * 10) s11) = false)) ∧
    (inDram A s12 = true ∧ 7 < 8 ∧ dmcServes (dramPlace A s12).1 s12 = true ∧ A / 64 ∉ s12.dram.poison ∧ A / 64 ∈ s12.dram.bad ∧
      (!failedBeside (dramPlace A s12).1 (A / 64 % 2 * 10) s12) = true) ∧
    (InPhase 7 Phase.started [CmdKind.write] wc s13 ∧ inDram A s13 = true ∧ 2 < 8 ∧ dmcServes (dramPlace A s13).1 s13 = true ∧ A / 64 ∈
      s13.dram.poison) ∧
    (InPhase 7 Phase.started [CmdKind.read] rc s14 ∧ inDram A s14 = true ∧ 2 < 8 ∧ dmcServes (dramPlace A s14).1 s14 = true ∧ A / 64 ∈
      s14.dram.poison) ∧
    (inDram A s14 = true ∧ 2 < 8 ∧ dmcServes (dramPlace A s14).1 s14 = true ∧ A / 64 ∈ s14.dram.poison) ∧
    (inDram A s14 = true ∧ 0 < 8 ∧ dmcServes (dramPlace A s14).1 s14 = true ∧ A / 64 ∈ s14.dram.poison ∧ mode s14 = 4 ∧ fget
      Fl.AON_MODE_TRANS s14 = 0 ∧ s14.pow.stopping = none ∧ s14.pow.afterSeal ≠ AfterSeal.resetOff ∧ activating s14 = false) := ⟨by decide +kernel, by decide +kernel, by decide +kernel, by decide +kernel, ⟨inPhase_of (by decide +kernel), by decide +kernel⟩, ⟨inPhase_of
    (by decide +kernel), by decide +kernel⟩, by decide +kernel, by decide +kernel⟩

theorem test_MemoryErrors_3 :
    (inDram A s8 = true ∧ 0 < 8 ∧ dmcServes (dramPlace A s8).1 s8 = true ∧ List.replicate 64 5 ≠ [] ∧ A % 64 + List.length (List.replicate
      64 5) ≤ 64 ∧ List.length (List.replicate 64 5) = 64) ∧
    (inDram (A + 60) s2 = true ∧ 0 < 8 ∧ dmcServes (dramPlace (A + 60) s2).1 s2 = true ∧ [1, 2, 3, 4] ≠ [] ∧ (A + 60) % 64 + List.length
      [1, 2, 3, 4] ≤ 64 ∧ List.length [1, 2, 3, 4] < 64 ∧ ((A + 60) / 64 ∉ s2.dram.poison ∧ (A + 60) / 64 ∉ s2.dram.bad)) ∧
    (inDram A s2 = true ∧ 0 < 8 ∧ dmcServes (dramPlace A s2).1 s2 = true ∧ [1, 2, 3, 4] ≠ [] ∧ A % 64 + List.length [1, 2, 3, 4] ≤ 64 ∧
      List.length [1, 2, 3, 4] < 64 ∧ (A / 64 ∉ s2.dram.poison ∧ A / 64 ∉ s2.dram.bad) ∧ 3 < 20 ∧ fget
      { addr := Reg.DMC_DEV_FAILED (dramPlace A s2).1, lo := 3, w := 1 : Fld } s2 = 0) ∧
    (inDram (A + 1) s2 = true ∧ 0 < 8 ∧ dmcServes (dramPlace (A + 1) s2).1 s2 = true ∧ [1, 2, 3, 4] ≠ [] ∧ (A + 1) % 64 + List.length [1,
      2, 3, 4] ≤ 64 ∧ List.length [1, 2, 3, 4] < 64 ∧ ((A + 1) / 64 ∉ s2.dram.poison ∧ (A + 1) / 64 ∉ s2.dram.bad) ∧ (!failedBeside
      (dramPlace (A + 1) s2).1 ((A + 1) / 64 % 2 * 10) s2) = true) ∧
    (inDram (A + 1) s8 = true ∧ 0 < 8 ∧ dmcServes (dramPlace (A + 1) s8).1 s8 = true ∧ [1, 2, 3, 4] ≠ [] ∧ (A + 1) % 64 + List.length [1,
      2, 3, 4] ≤ 64 ∧ List.length [1, 2, 3, 4] < 64 ∧ (A + 1) / 64 ∈ s8.dram.poison) ∧
    (dmcUp 3 s8 = true ∧ 6 < 7 ∧ fget (Fl.DMC_LAT_TARGET 3 6) s8 ≠ 0) ∧
    (dmcUp 3 s15 = true ∧ 0 < 7 ∧ fget (Fl.DMC_LAT_TARGET 3 0) s15 = 0) ∧
    (dmcUp 3 s16 = true ∧ 5 < 8) := by
  refine ⟨?_, ?_, ?_, ?_, ?_, ?_, ?_, ?_⟩ <;> decide +kernel

theorem test_MemoryErrors_4 :
    (dmcUp 3 s16 = true ∧ 5 < 8 ∧ fget { addr := Reg.DMC_STATUS 3, lo := 3 + 5, w := 1 : Fld } s16 = 1) ∧
    (dmcUp 0 s17 = true ∧ 4 ≤ 4 ∧ fget (Fl.DMC_REF_STATUS_DEBT 0) s17 - 2 + 4 < fget (Fl.DMC_REF_CFG_POSTPONE_MAX 0) s17) ∧
    (dmcUp 0 s18 = true ∧ fget (Fl.DMC_REF_CFG_POSTPONE_MAX 0) s18 = fget (Fl.DMC_REF_STATUS_DEBT 0) s18 - 0 + 1) ∧
    (dmcUp 2 s19 = true) ∧
    (dmcUp 2 s19 = true ∧ SMap.find s19.dram.recalFails 2 = none) ∧
    (dmcUp 2 s20 = true ∧ SMap.find s20.dram.recalFails 2 = some 1) ∧
    (dmcUp 2 s2 = true ∧ (List.length (List.map (fun p => (p.1 % 12, p.2)) drv) = 20) ∧ List.length stg = 20 ∧ (∀ d ∈ List.map (fun p => (p.1 %
      12, p.2)) drv, d.1 < 12 ∧ d.2 < 12) ∧ 2 ∉ s2.dram.recalDue) ∧
    (dmcUp 2 s2 = true ∧ List.length drv = 20 ∧ List.length stgOk = 20 ∧ mode s2 = 4 ∧ (∀ l < 20, BitVec.toNat (List.getD stgOk l 0) < 2 ^
      29)) := by
  refine ⟨?_, ?_, ?_, ?_, ?_, ?_, ?_, ?_⟩ <;> decide +kernel

theorem test_MemoryErrors_5 :
    (dmcUp 2 s2 = true ∧ List.length drv = 20 ∧ List.length (List.set stgOk 19 536870912) = 20 ∧ mode s2 = 4 ∧ 19 < 20 ∧ ¬BitVec.toNat
      (List.getD (List.set stgOk 19 536870912) 19 0) < 2 ^ 29 ∧ (∀ j < 20, j ≠ 19 → BitVec.toNat (List.getD (List.set stgOk 19 536870912) j 0) < 2
      ^ 29)) ∧
    (dmcUp 2 s21 = true ∧ List.length drv = 20 ∧ List.length stg = 20 ∧ mode s21 = 6) ∧
    (dmcUp 2 s2 = true) ∧
    (dmcUp 0 s22 = true) ∧
    (dmcUp 2 s2 = true ∧ 149 < 256 ∧ 149 ≠ 150) ∧
    (dmcUp 1 s23 = true ∧ 581 < 2 ^ 23 ∧ (∃ i < 512, fget (Fl.DMC_REMAP_VALID 1 i) s23 = 1 ∧ fget (Fl.DMC_REMAP_PAGE 1 i) s23 = 581)) ∧
    (dmcUp 1 s2 = true ∧ 1048575 < 2 ^ 23 ∧ (¬∃ i < 512, fget (Fl.DMC_REMAP_VALID 1 i) s2 = 1 ∧ fget (Fl.DMC_REMAP_PAGE 1 i) s2 = 1048575)
      ∧ inSpareArea 1 1048575 s2 = true) ∧
    (dmcUp 1 full = true ∧ 0 < 2 ^ 23 ∧ (¬∃ i < 512, fget (Fl.DMC_REMAP_VALID 1 i) full = 1 ∧ fget (Fl.DMC_REMAP_PAGE 1 i) full = 0) ∧ inSpareArea
      1 0 full = false ∧ (∀ i < 512, fget (Fl.DMC_REMAP_VALID 1 i) full = 1)) := by
  refine ⟨?_, ?_, ?_, ?_, ?_, ?_, ?_, ?_⟩ <;> decide +kernel

theorem test_MemoryErrors_6 :
    (dmcUp 1 s24 = true ∧ 0 < 2 ^ 23 ∧ (¬∃ i < 512, fget (Fl.DMC_REMAP_VALID 1 i) s24 = 1 ∧ fget (Fl.DMC_REMAP_PAGE 1 i) s24 = 0) ∧
      inSpareArea 1 0 s24 = false ∧ 1 < 512 ∧ fget (Fl.DMC_REMAP_VALID 1 1) s24 = 0 ∧ (∀ j < 1, fget (Fl.DMC_REMAP_VALID 1 j) s24 = 1)) ∧
    (dmcServes (dramPlace (fget Fl.MEM_SCRUB_POS_ADDR heldAll) heldAll).1 heldAll = false) ∧
    (inDram (fget Fl.MEM_SCRUB_POS_ADDR s2) s2 = true ∧ dmcServes (dramPlace (fget Fl.MEM_SCRUB_POS_ADDR s2) s2).1 s2 = true ∧ fget
      Fl.MEM_SCRUB_POS_ADDR s2 % 64 = 0 ∧ fget Fl.MEM_SCRUB_POS_ADDR s2 + 64 < dramEnd s2 ∧ fget Fl.MEM_SCRUB_POS_ADDR s2 / 64 ∉
      s2.dram.poison ∧ fget Fl.MEM_SCRUB_POS_ADDR s2 / 64 ∉ s2.dram.bad) ∧
    (inDram (fget Fl.MEM_SCRUB_POS_ADDR s2) s2 = true ∧ dmcServes (dramPlace (fget Fl.MEM_SCRUB_POS_ADDR s2) s2).1 s2 = true ∧ fget
      Fl.MEM_SCRUB_POS_ADDR s2 % 64 = 0 ∧ fget Fl.MEM_SCRUB_POS_ADDR s2 / 64 ∉ s2.dram.poison ∧ fget Fl.MEM_SCRUB_POS_ADDR s2 / 64 ∉
      s2.dram.bad ∧ 7 < 20 ∧ fget { addr := Reg.DMC_DEV_FAILED (dramPlace (fget Fl.MEM_SCRUB_POS_ADDR s2) s2).1, lo := 7, w := 1 : Fld }
      s2 = 0) ∧
    (inDram (fget Fl.MEM_SCRUB_POS_ADDR s2) s2 = true ∧ dmcServes (dramPlace (fget Fl.MEM_SCRUB_POS_ADDR s2) s2).1 s2 = true ∧ fget
      Fl.MEM_SCRUB_POS_ADDR s2 % 64 = 0 ∧ fget Fl.MEM_SCRUB_POS_ADDR s2 / 64 ∉ s2.dram.poison ∧ failedBeside (dramPlace (fget
      Fl.MEM_SCRUB_POS_ADDR s2) s2).1 (fget Fl.MEM_SCRUB_POS_ADDR s2 / 64 % 2 * 10) s2 = false) ∧
    (inDram (fget Fl.MEM_SCRUB_POS_ADDR s25) s25 = true ∧ dmcServes (dramPlace (fget Fl.MEM_SCRUB_POS_ADDR s25) s25).1 s25 = true ∧
      fget Fl.MEM_SCRUB_POS_ADDR s25 % 64 = 0 ∧ dramEnd s25 ≤ fget Fl.MEM_SCRUB_POS_ADDR s25 + 64) ∧
    (inDram (fget Fl.MEM_SCRUB_POS_ADDR s2) s2 = true ∧ dmcServes (dramPlace (fget Fl.MEM_SCRUB_POS_ADDR s2) s2).1 s2 = true ∧ fget
      Fl.MEM_SCRUB_POS_ADDR s2 % 64 = 0 ∧ fget Fl.MEM_STATUS_SCRUB_LATE s2 = 0) ∧
    (mode s2 ≠ 0 ∧ pdOn 3 s2 = true ∧ (if true = true then 2097144 < 2097152 else 2097144 < 67108864 ∧ 2097144 / 8 ∉ s2.dram.sram)) := by
  refine ⟨?_, ?_, ?_, ?_, ?_, ?_, ?_, ?_⟩ <;> decide +kernel

theorem test_MemoryErrors_7 :
    (mode s2 ≠ 0 ∧ pdOn 3 s2 = true ∧ (if false = true then 67108856 < 2097152 else 67108856 < 67108864 ∧ 67108856 / 8 ∉ s2.dram.sram) ∧
      71 < 72) ∧
    (mode s2 ≠ 0 ∧ pdOn 3 s2 = true ∧ (if false = true then 67108856 < 2097152 else 67108856 < 67108864 ∧ 67108856 / 8 ∉ s2.dram.sram)) ∧
    (65 < 66 ∧ pdOn 3 s26 = true ∧ fget (if true = true then Fl.MEM_SRAM_REPAIR_COLS_FREE 65 else Fl.MEM_SRAM_REPAIR_ROWS_FREE 65) s26 = 0) ∧
    (65 < 66 ∧ pdOn 3 s2 = true ∧ fget (if false = true then Fl.MEM_SRAM_REPAIR_COLS_FREE 65 else Fl.MEM_SRAM_REPAIR_ROWS_FREE 65) s2 ≠ 0) := by
  refine ⟨?_, ?_, ?_, ?_⟩ <;> decide +kernel

end Dram

namespace Net

def pcfg : List Byte := portDefault.take 16 ++ List.replicate 16 7 ++ [24, 1, 0, 0] ++ portDefault.drop 36
/-- A module with both ports up at 200G, an address on each. -/
def nt (l : List (Fld × Nat)) (f : Net → Net) : State :=
  let u := sets ([(Fl.NET_STATUS_STATE 0, 1), (Fl.NET_STATUS_STATE 1, 1), (Fl.NET_STATUS_SPEED 0, 4), (Fl.NET_STATUS_SPEED 1, 4), (Fl.NET_MOD_STATUS_PRESENT 0, 1), (Fl.NET_MOD_STATUS_PRESENT 1, 1)] ++ l) (io [])
  { u with net := f { u.net with ports := [(0, pcfg), (1, pcfg)] } }
def nt0 (l : List (Fld × Nat)) : State := nt l id
def s1 : State := nt0 [(Fl.NET_LINK_CFG_FAILOVER 0, 1)]
def s2 : State := nt [] (fun n => { n with moved := [1], downs := [(1, 4)], conns := [(5, freshConn 1 false up)] })
def s3 : State := nt0 [(Fl.NET_STATUS_STATE 0, 3)]
def s4 : State := nt0 [(Fl.NET_STATUS_STATE 0, 2), (Fl.NET_LINK_CFG_SPEED 0, 3)]
def s5 : State := nt0 [(Fl.NET_STATUS_STATE 1, 0)]
def s6 : State := nt [] (fun n => { n with moved := [1, 0] })
def s7 : State := nt [] (fun n => { n with moved := [1], repeats := [(1, 2)] })
def s8 : State := nt [] (fun n => { n with moved := [], repeats := [(1, 1)] })
def s9 : State := nt0 []
def s10 : State := nt [(Fl.NET_LINK_CFG_FAILOVER 1, 1)] (fun n => { n with calFails := [(1, 1)] })
def s11 : State := nt [(Fl.NET_LINK_CFG_FAILOVER 0, 1)] id
def s12 : State := nt0 [(Fl.NET_MOD_STATUS_PRESENT 0, 0), (Fl.NET_STATUS_STATE 0, 0)]
def s13 : State := nt [(Fl.NET_STATUS_STATE 1, 0)] (fun n => { n with moved := [1] })
def q5 (roce : Bool) : NetConn := { freshConn 0 roce (nt0 []) with retries := 3, ready := true }
def wc (x : NetConn) : State := nt [] (fun n => { n with conns := [(5, x), (6, x)] })
def s14 : State := wc (q5 false)
def s15 : State := nt0 [(Fl.NET_LINK_CFG_PFC_EN 0, 1), (Fl.NET_LINK_CFG_PFC_MASK 0, 8)]
def s16 : State := nt [] (fun n => { n with paused := [(0, 3), (1, 3)] })
def s17 : State := nt0 [(Fl.AON_MODE_CUR, 6)]
def s18 : State := wc (q5 true)
def r5 (k : Nat) (a : Rat) : NetConn := { q5 true with rate := ⟨a, 100000000000, 199999999999, k⟩ }
def s19 : State := wc (r5 7 (1 / 2))
def s20 : State := wc (r5 4 (1 / 2))
def s21 : State := wc (r5 5 (1 / 2))
def s22 : State := wc (r5 10 (1 / 2))
def nqn : List Byte := [0x6E, 0x71, 0x6E]
def hent (fl mx : Nat) : List Byte := nqn ++ List.replicate 253 0 ++ [3, BitVec.ofNat 8 fl, 2, BitVec.ofNat 8 mx] ++ List.replicate 252 0
def psk : List Byte := List.replicate 48 9 ++ [32, 1] ++ List.replicate 462 0
def fab (fl mx : Nat) (x : Option NetConn) (as : List Assoc) : State :=
  nt [] (fun n => { n with hosts := [(7, hent fl mx)], psks := [(2, psk)], conns := (x.toList.map (fun y => (5, y))) ++ [(6, { q5 false with ctrl := some 0x100, queue := 0 })], assocs := as })
def s23 : State := fab 3 2 none []
def nr : NetConn := { freshConn 0 false (nt0 []) with tls := some 2 }
def s24 : State := fab 3 2 (some nr) []
def rdy : NetConn := q5 false
def rdt : NetConn := { q5 false with tls := some 2 }
def as1 : Assoc := ⟨0x100, some 7, 5000, false⟩
def as2 : Assoc := ⟨0x200, none, 0, true⟩
def s25 : State := fab 3 2 (some rdy) [as1]
def s26 : State := fab 11 2 (some rdt) [as1]
def s28 : State := fab 3 1 (some rdy) [as1]
def s29 : State := fab 5 1 (some rdy) [as1]
def s30 : State := fab 11 1 (some rdy) [as1]
def s31 : State := fab 2 1 (some rdy) [as1]
def s32 : State := fab 2 1 (some rdy) (List.replicate 32 as2)
def fc : Ctrl := { Ctrl.fresh 3 true false false with en := true }
def fio (l : List Assoc) (x : NetConn) : State := { fab 3 2 (some x) l with nv := { (fab 3 2 none []).nv with ctrls := [(1, ctl), (0x100, fc)] } }
def s33 : State := fio [as1] rdy
def s34 : State := fio [as2, as1] rdy
def s35 : State := fset Fl.AON_MODE_CUR 8 (fio [as2, as1] rdy)
def fup : State := { fio [as2, as1] rdy with mgt := { up.mgt with upd := { up.mgt.upd with todo := [1] } } }
/-- 2,048 I/O queues over the network. -/
def many : State := { fio [as1] rdy with net := { (fio [as1] rdy).net with conns := (fio [as1] rdy).net.conns ++ (List.range 2048).map (fun i => (10 + i, { rdy with ctrl := some 0x101, queue := 1 })) } }
def s36 : State := sets [(Fl.HIF_FETCH_CTRL_HOLD, 1)] (fio [as2, as1] rdy)
def bnd (roce : Bool) (k : Nat) (r : Nat) : NetConn := { q5 roce with ctrl := some k, queue := 1, retries := r, hdgst := true, ddgst := true }
def s37 : State := fio [as2, as1] (bnd false 0x100 3)
def s38 : State := fio [as2, as1] (bnd true 0x100 3)
def wcm : Cmd := cmd 7 .write 0 4 .fetched
def fiw : State := { fio [as1] (bnd false 1 3) with nv := { (fio [as1] rdy).nv with cmds := [wcm] } }
def s39 : State := fio [as1] (bnd true 0x100 7)
def s40 : State := fio [as1] (bnd true 0x100 6)
def s41 : State := fio [as1] (bnd false 0x100 9)

theorem test_NetworkPorts :
    (netUp 0 s1 = true ∧ (fget (Fl.NET_STATUS_STATE 0) s1 = 1 ∨ fget (Fl.NET_STATUS_STATE 0) s1 = 2)) ∧
    (netUp 1 s2 = true ∧ (fget (Fl.NET_STATUS_STATE 1) s2 = 1 ∨ fget (Fl.NET_STATUS_STATE 1) s2 = 2)) ∧
    (netUp 0 s3 = true ∧ (fget (Fl.NET_STATUS_STATE 0) s3 = 0 ∨ fget (Fl.NET_STATUS_STATE 0) s3 = 3)) ∧
    (netUp 0 s4 = true ∧ 1 ≤ 3 ∧ 3 ≤ 4 ∧ fget (Fl.NET_LINK_CFG_ENABLE 0) s4 = 1 ∧ moduleReady 0 s4 = true ∧ (fget (Fl.NET_STATUS_STATE 0)
      s4 = 0 ∨ fget (Fl.NET_STATUS_STATE 0) s4 = 2) ∧ (fget (Fl.NET_LINK_CFG_SPEED 0) s4 = 0 ∨ fget (Fl.NET_LINK_CFG_SPEED 0) s4 = 3)) ∧
    (netUp 1 s5 = true ∧ 1 ≤ 4 ∧ 4 ≤ 4 ∧ fget (Fl.NET_LINK_CFG_ENABLE 1) s5 = 1 ∧ moduleReady 1 s5 = true ∧ (fget (Fl.NET_STATUS_STATE 1)
      s5 = 0 ∨ fget (Fl.NET_STATUS_STATE 1) s5 = 2) ∧ (fget (Fl.NET_LINK_CFG_SPEED 1) s5 = 0 ∨ fget (Fl.NET_LINK_CFG_SPEED 1) s5 = 4)) ∧
    (netUp 0 s4 = true ∧ 1 ≤ 4 ∧ 4 ≤ 4 ∧ fget (Fl.NET_LINK_CFG_ENABLE 0) s4 = 1 ∧ moduleReady 0 s4 = true ∧ (fget (Fl.NET_STATUS_STATE 0)
      s4 = 0 ∨ fget (Fl.NET_STATUS_STATE 0) s4 = 2) ∧ fget (Fl.NET_LINK_CFG_SPEED 0) s4 ≠ 0 ∧ fget (Fl.NET_LINK_CFG_SPEED 0) s4 ≠ 4) ∧
    (netUp 1 s6 = true ∧ fget (Fl.NET_STATUS_STATE 1) s6 = 1 ∧ 1 ∈ s6.net.moved) := by
  refine ⟨?_, ?_, ?_, ?_, ?_, ?_, ?_⟩ <;> decide +kernel

theorem test_NetworkPorts_2 :
    (netUp 1 s7 = true ∧ SMap.find s7.net.repeats 1 = some (1 + 1) ∧ netUp (holder 1 s7) s7 = true) ∧
    (netUp 1 s8 = true ∧ SMap.find s8.net.repeats 1 = some (0 + 1) ∧ netUp (holder 1 s8) s8 = true) ∧
    (netUp 1 s9 = true ∧ fget (Fl.NET_STATUS_STATE 1) s9 ≠ 3) ∧
    (netUp 1 s9 = true ∧ SMap.find s9.net.calFails 1 = none) ∧
    (netUp 1 s10 = true ∧ SMap.find s10.net.calFails 1 = some 1) ∧
    (netUp 0 s11 = true) ∧
    (netUp 1 s9 = true) := by
  refine ⟨?_, ?_, ?_, ?_, ?_, ?_, ?_⟩ <;> decide +kernel

theorem test_NetworkPorts_3 :
    (netUp 1 s9 = true ∧ 93 < 256 ∧ 93 ≠ 92) ∧
    (netUp 0 s12 = true ∧ 61 < 256 ∧ 200 < 256 ∧ fget (Fl.NET_MOD_STATUS_PRESENT 0) s12 = 0) ∧
    (netUp 0 s12 = true ∧ 60 < 256 ∧ 40 < 256 ∧ fget (Fl.NET_MOD_STATUS_PRESENT 0) s12 = 0) ∧
    (netUp 0 s9 = true ∧ 61 < 256 ∧ 200 < 256 ∧ fget (Fl.NET_MOD_STATUS_PRESENT 0) s9 = 1) ∧
    (netUp 0 s9 = true ∧ 60 < 256 ∧ 200 < 256 ∧ fget (Fl.NET_MOD_STATUS_PRESENT 0) s9 = 1) ∧
    (netUp 0 s9 = true ∧ fget (Fl.NET_MOD_STATUS_PRESENT 0) s9 = 1) ∧
    (portUp 0 s9 = true ∧ mode s9 ≠ 6 ∧ 9216 ≤ 9216 ∧ 0 < 2 ∧ holder 0 s9 = 0 ∧ addrValid 0 0 s9 = true) := by
  refine ⟨?_, ?_, ?_, ?_, ?_, ?_, ?_⟩ <;> decide +kernel

theorem test_NetworkPorts_4 :
    (portUp 0 s13 = true ∧ mode s13 ≠ 6 ∧ 64 ≤ 9216 ∧ 1 < 2 ∧ holder 1 s13 = 0 ∧ addrValid 1 0 s13 = true) ∧
    (portUp 0 s9 = true ∧ mode s9 ≠ 6 ∧ 9216 ≤ 9216 ∧ (2 ≤ 0 ∨ holder 0 s9 ≠ 0 ∨ addrValid 0 1 s9 = false)) ∧
    (portUp 0 s9 = true ∧ mode s9 ≠ 6 ∧ 9216 ≤ 9216 ∧ (2 ≤ 1 ∨ holder 1 s9 ≠ 0 ∨ addrValid 1 0 s9 = false)) ∧
    (portUp 0 s14 = true ∧ mode s14 ≠ 6 ∧ 64 ≤ 9216 ∧ SMap.find s14.net.conns 5 = some (q5 false)) ∧
    (portUp 0 s9 = true ∧ mode s9 ≠ 6 ∧ 9216 < 9217) ∧
    (portUp 0 s9 = true ∧ mode s9 ≠ 6 ∧ 7 < 8 ∧ 64 ≤ 9216 ∧ (fget (Fl.NET_LINK_CFG_PFC_EN 0) s9 = 0 ∨ fget (Fl.NET_LINK_CFG_PFC_MASK 0)
      s9 / 2 ^ 7 % 2 = 1) ∧ (0, 7) ∉ s9.net.paused) ∧
    (portUp 0 s15 = true ∧ mode s15 ≠ 6 ∧ 3 < 8 ∧ 64 ≤ 9216 ∧ (fget (Fl.NET_LINK_CFG_PFC_EN 0) s15 = 0 ∨ fget (Fl.NET_LINK_CFG_PFC_MASK 0)
      s15 / 2 ^ 3 % 2 = 1) ∧ (0, 3) ∉ s15.net.paused) := by
  refine ⟨?_, ?_, ?_, ?_, ?_, ?_, ?_⟩ <;> decide +kernel

theorem test_NetworkPorts_5 :
    (portUp 0 s16 = true ∧ mode s16 ≠ 6 ∧ 3 < 8 ∧ 64 ≤ 9216 ∧ (fget (Fl.NET_LINK_CFG_PFC_EN 0) s16 = 0 ∨ fget (Fl.NET_LINK_CFG_PFC_MASK 0)
      s16 / 2 ^ 3 % 2 = 1) ∧ (0, 3) ∈ s16.net.paused) ∧
    (portUp 0 s17 = true ∧ mode s17 = 6 ∧ 0 < 2 ∧ holder 0 s17 = 0 ∧ addrValid 0 0 s17 = true) ∧
    (SMap.find s18.net.conns 5 = some (q5 true) ∧ (q5 true).roce = true) ∧
    (SMap.find s19.net.conns 5 = some (r5 7 (1 / 2)) ∧ (r5 7 (1 / 2)).roce = true) ∧
    (SMap.find s20.net.conns 5 = some (r5 4 (1 / 2)) ∧ (r5 4 (1 / 2)).roce = true ∧ (r5 4 (1 / 2)).rate.steps < 5) ∧
    (SMap.find s21.net.conns 5 = some (r5 5 (1 / 2)) ∧ (r5 5 (1 / 2)).roce = true ∧ 5 ≤ (r5 5 (1 / 2)).rate.steps) ∧
    (SMap.find s22.net.conns 5 = some (r5 10 (1 / 2)) ∧ (r5 10 (1 / 2)).roce = true ∧ 5 ≤ (r5 10 (1 / 2)).rate.steps) := by
  refine ⟨?_, ?_, ?_, ?_, ?_, ?_, ?_⟩ <;> decide +kernel

theorem test_NetworkConnections :
    (0 < 2 ∧ portUp (holder 0 s23) s23 = true ∧ SMap.find s23.net.conns 5 = none ∧ fget (if false = true then Fl.NET_LINK_CFG_ROCE_EN 0
      else Fl.NET_LINK_CFG_TCP_EN 0) s23 = 1 ∧ pskFilled 2 s23 = true) ∧
    (0 < 2 ∧ portUp (holder 0 s23) s23 = true ∧ SMap.find s23.net.conns 5 = none ∧ fget (if false = true then Fl.NET_LINK_CFG_ROCE_EN 0
      else Fl.NET_LINK_CFG_TCP_EN 0) s23 = 1 ∧ (false = false ∨ pskFilled 2 s23 = false)) ∧
    (0 < 2 ∧ portUp (holder 0 s23) s23 = true ∧ SMap.find s23.net.conns 5 = none ∧ fget (if false = true then Fl.NET_LINK_CFG_ROCE_EN 0
      else Fl.NET_LINK_CFG_TCP_EN 0) s23 = 1 ∧ (true = false ∨ pskFilled 3 s23 = false)) ∧
    (0 < 2 ∧ portUp (holder 0 s23) s23 = true ∧ fget (if false = true then Fl.NET_LINK_CFG_ROCE_EN 0 else Fl.NET_LINK_CFG_TCP_EN 0) s23 =
      1 ∧ SMap.find s23.net.conns 5 = none) ∧
    (0 < 2 ∧ portUp (holder 0 s24) s24 = true ∧ fget (if false = true then Fl.NET_LINK_CFG_ROCE_EN 0 else Fl.NET_LINK_CFG_TCP_EN 0) s24 =
      1 ∧ SMap.find s24.net.conns 5 = some nr ∧ nr.ready = false ∧ nr.roce = false ∧ nr.port = 0) ∧
    (0 < 2 ∧ portUp (holder 0 s25) s25 = true ∧ SMap.find s25.net.conns 5 = some rdy ∧ rdy.ready = true ∧ rdy.port = 0 ∧ rdy.ctrl = none ∧
      fget (if rdy.roce = true then Fl.NET_LINK_CFG_ROCE_EN 0 else Fl.NET_LINK_CFG_TCP_EN 0) s25 = 1 ∧ findHost nqn s25 = some 7 ∧ hostFlag 7
      (if rdy.roce = true then 2 else 1) s25 = true ∧ (hostFlag 7 3 s25 = false ∨ rdy.tls ≠ none) ∧ s25.nv.stopped = false ∧ 32 ≤ 32 ∧
      List.length (fabricCtrls s25) < 256 ∧ (List.length (List.filter (fun a => a.entry == some 7) s25.net.assocs) < hostMax 7 s25) ∧
      freeCntlid 256 256 s25 ≠ none) ∧
    (0 < 2 ∧ portUp (holder 0 s26) s26 = true ∧ SMap.find s26.net.conns 5 = some rdt ∧ rdt.ready = true ∧ rdt.port = 0 ∧ rdt.ctrl = none ∧
      fget (if rdt.roce = true then Fl.NET_LINK_CFG_ROCE_EN 0 else Fl.NET_LINK_CFG_TCP_EN 0) s26 = 1 ∧ findHost nqn s26 = some 7 ∧ hostFlag 7
      (if rdt.roce = true then 2 else 1) s26 = true ∧ (hostFlag 7 3 s26 = false ∨ rdt.tls ≠ none) ∧ s26.nv.stopped = false ∧ 32 ≤ 32 ∧
      List.length (fabricCtrls s26) < 256 ∧ (List.length (List.filter (fun a => a.entry == some 7) s26.net.assocs) < hostMax 7 s26) ∧
      freeCntlid 256 256 s26 ≠ none) ∧
    (0 < 2 ∧ portUp (holder 0 s25) s25 = true ∧ SMap.find s25.net.conns 5 = some rdy ∧ rdy.ready = true ∧ rdy.port = 0 ∧ rdy.ctrl = none ∧
      fget (if rdy.roce = true then Fl.NET_LINK_CFG_ROCE_EN 0 else Fl.NET_LINK_CFG_TCP_EN 0) s25 = 1 ∧ findHost nqn s25 = some 7 ∧ hostFlag 7
      (if rdy.roce = true then 2 else 1) s25 = true ∧ (hostFlag 7 3 s25 = false ∨ rdy.tls ≠ none) ∧ s25.nv.stopped = false ∧ 32 < 33) := by
  refine ⟨?_, ?_, ?_, ?_, ?_, ?_, ?_, ?_⟩ <;> decide +kernel

theorem test_NetworkConnections_2 :
    (0 < 2 ∧ portUp (holder 0 s28) s28 = true ∧ SMap.find s28.net.conns 5 = some rdy ∧ rdy.ready = true ∧ rdy.port = 0 ∧ rdy.ctrl = none ∧
      fget (if rdy.roce = true then Fl.NET_LINK_CFG_ROCE_EN 0 else Fl.NET_LINK_CFG_TCP_EN 0) s28 = 1 ∧ findHost nqn s28 = some 7 ∧ hostFlag 7
      (if rdy.roce = true then 2 else 1) s28 = true ∧ (hostFlag 7 3 s28 = false ∨ rdy.tls ≠ none) ∧ s28.nv.stopped = false ∧ 32 ≤ 32 ∧
      (256 ≤ List.length (fabricCtrls s28) ∨ hostMax 7 s28 ≤ List.length (List.filter (fun a => a.entry == some 7) s28.net.assocs))) ∧
    (0 < 2 ∧ portUp (holder 0 s29) s29 = true ∧ SMap.find s29.net.conns 5 = some rdy ∧ rdy.ready = true ∧ rdy.port = 0 ∧ rdy.ctrl = none ∧
      fget (if rdy.roce = true then Fl.NET_LINK_CFG_ROCE_EN 0 else Fl.NET_LINK_CFG_TCP_EN 0) s29 = 1 ∧ s29.nv.stopped = false ∧ (findHost nqn
      s29 = none ∨ ∃ i, findHost nqn s29 = some i ∧ (hostFlag i (if rdy.roce = true then 2 else 1) s29 = false ∨ hostFlag i 3 s29 =
      true ∧ rdy.tls = none))) ∧
    (0 < 2 ∧ portUp (holder 0 s30) s30 = true ∧ SMap.find s30.net.conns 5 = some rdy ∧ rdy.ready = true ∧ rdy.port = 0 ∧ rdy.ctrl = none ∧
      fget (if rdy.roce = true then Fl.NET_LINK_CFG_ROCE_EN 0 else Fl.NET_LINK_CFG_TCP_EN 0) s30 = 1 ∧ s30.nv.stopped = false ∧ (findHost nqn
      s30 = none ∨ ∃ i, findHost nqn s30 = some i ∧ (hostFlag i (if rdy.roce = true then 2 else 1) s30 = false ∨ hostFlag i 3 s30 =
      true ∧ rdy.tls = none))) ∧
    (0 < 2 ∧ portUp (holder 0 s31) s31 = true ∧ SMap.find s31.net.conns 5 = some rdy ∧ rdy.ready = true ∧ rdy.port = 0 ∧ rdy.ctrl = none ∧
      fget (if rdy.roce = true then Fl.NET_LINK_CFG_ROCE_EN 0 else Fl.NET_LINK_CFG_TCP_EN 0) s31 = 1 ∧ s31.nv.stopped = false ∧ 32 ≤ 32 ∧
      (List.length (List.filter (fun x => x.disc) s31.net.assocs) < 32) ∧ freeCntlid 512 32 s31 ≠ none) ∧
    (0 < 2 ∧ portUp (holder 0 s32) s32 = true ∧ SMap.find s32.net.conns 5 = some rdy ∧ rdy.ready = true ∧ rdy.port = 0 ∧ rdy.ctrl = none ∧
      fget (if rdy.roce = true then Fl.NET_LINK_CFG_ROCE_EN 0 else Fl.NET_LINK_CFG_TCP_EN 0) s32 = 1 ∧ s32.nv.stopped = false ∧ (32 ≤
      List.length (List.filter (fun x => x.disc) s32.net.assocs))) ∧
    (0 < 2 ∧ portUp (holder 0 s33) s33 = true ∧ SMap.find s33.net.conns 5 = some rdy ∧ rdy.ready = true ∧ rdy.port = 0 ∧ rdy.ctrl = none ∧
      fget (if rdy.roce = true then Fl.NET_LINK_CFG_ROCE_EN 0 else Fl.NET_LINK_CFG_TCP_EN 0) s33 = 1 ∧ 32 ≠ 0 ∧ ctrlAt 256 s33 = some fc ∧
      fc.fabric = true ∧ fc.en = true ∧ (∃ a ∈ s33.net.assocs, a.ctrl = 256 ∧ a.disc = false) ∧ 32 ≤ 32 ∧ 1024 ≤ 1024 ∧ SMap.find fc.sqs 32 =
      none ∧ fabricQueues s33 < 2048 ∧ s33.nv.stopped = false) ∧
    (0 < 2 ∧ portUp (holder 0 many) many = true ∧ SMap.find many.net.conns 5 = some rdy ∧ rdy.ready = true ∧ rdy.port = 0 ∧ rdy.ctrl = none ∧ fget
      (if rdy.roce = true then Fl.NET_LINK_CFG_ROCE_EN 0 else Fl.NET_LINK_CFG_TCP_EN 0) many = 1 ∧ 32 ≠ 0 ∧ ctrlAt 256 many = some fc ∧ fc.fabric =
      true ∧ fc.en = true ∧ (∃ a ∈ many.net.assocs, a.ctrl = 256 ∧ a.disc = false) ∧ 32 ≤ 32 ∧ 1024 ≤ 1024 ∧ SMap.find fc.sqs 32 = none ∧ 2048 ≤
      fabricQueues many) ∧
    (0 < 2 ∧ portUp (holder 0 s33) s33 = true ∧ SMap.find s33.net.conns 5 = some rdy ∧ rdy.ready = true ∧ rdy.port = 0 ∧ rdy.ctrl = none ∧
      fget (if rdy.roce = true then Fl.NET_LINK_CFG_ROCE_EN 0 else Fl.NET_LINK_CFG_TCP_EN 0) s33 = 1 ∧ 33 ≠ 0 ∧ ctrlAt 256 s33 = some fc ∧
      fc.fabric = true ∧ fc.en = true ∧ (∃ a ∈ s33.net.assocs, a.ctrl = 256 ∧ a.disc = false) ∧ (32 < 33 ∨ 1024 < 1024)) := by
  refine ⟨?_, ?_, ?_, ?_, ?_, ?_, ?_, ?_⟩ <;> decide +kernel

theorem test_NetworkConnections_3 :
    (0 < 2 ∧ portUp (holder 0 s33) s33 = true ∧ SMap.find s33.net.conns 5 = some rdy ∧ rdy.ready = true ∧ rdy.port = 0 ∧ rdy.ctrl = none ∧
      fget (if rdy.roce = true then Fl.NET_LINK_CFG_ROCE_EN 0 else Fl.NET_LINK_CFG_TCP_EN 0) s33 = 1 ∧ 32 ≠ 0 ∧ ctrlAt 256 s33 = some fc ∧
      fc.fabric = true ∧ fc.en = true ∧ (∃ a ∈ s33.net.assocs, a.ctrl = 256 ∧ a.disc = false) ∧ (32 < 32 ∨ 1024 < 1025)) ∧
    (0 < 2 ∧ portUp (holder 0 s33) s33 = true ∧ ctrlAt 256 s33 = some fc ∧ fc.fabric = true ∧ 1 % 2 = 1 ∧ 1 / 2 ^ 14 % 4 = 0) ∧
    (0 < 2 ∧ portUp (holder 0 s34) s34 = true ∧ ctrlAt 256 s34 = some fc ∧ fc.fabric = true ∧ 0 % 2 = 0 ∧ fc.en = true ∧ mode s34 ≠ 8 ∧
      activating s34 = false ∧ (∃ a ∈ s34.net.assocs, a.ctrl = 256)) ∧
    (0 < 2 ∧ portUp (holder 0 s35) s35 = true ∧ ctrlAt 256 s35 = some fc ∧ fc.fabric = true ∧ 0 % 2 = 0 ∧ fc.en = true ∧ mode s35 = 8) ∧
    (0 < 2 ∧ portUp (holder 0 fup) fup = true ∧ ctrlAt 256 fup = some fc ∧ fc.fabric = true ∧ 0 % 2 = 0 ∧ fc.en = true ∧ mode fup ≠ 8 ∧ activating
      fup = true) ∧
    (0 < 2 ∧ portUp (holder 0 s34) s34 = true ∧ ctrlAt 256 s34 = some fc ∧ fc.fabric = true) ∧
    (0 < 2 ∧ portUp (holder 0 s34) s34 = true ∧ as1 ∈ s34.net.assocs ∧ as1.kato ≠ 0 ∧ s34.net.switching = false ∧ fget
      Fl.HIF_FETCH_CTRL_HOLD s34 = 0) ∧
    (0 < 2 ∧ portUp (holder 0 s36) s36 = true ∧ as1 ∈ s36.net.assocs ∧ as1.kato ≠ 0 ∧ (s36.net.switching = true ∨ fget
      Fl.HIF_FETCH_CTRL_HOLD s36 = 1)) := by
  refine ⟨?_, ?_, ?_, ?_, ?_, ?_, ?_, ?_⟩ <;> decide +kernel

theorem test_NetworkConnections_4 :
    (0 < 2 ∧ portUp (holder 0 s37) s37 = true ∧ SMap.find s37.net.conns 5 = some (bnd false 256 3)) ∧
    (0 < 2 ∧ portUp (holder 0 s38) s38 = true ∧ SMap.find s38.net.conns 5 = some (bnd true 256 3) ∧ (bnd true 256 3).roce = true) ∧
    (0 < 2 ∧ portUp (holder 0 s37) s37 = true ∧ SMap.find s37.net.conns 5 = some (bnd false 256 3) ∧ (bnd false 256 3).roce = false ∧ (bnd
      false 256 3).hdgst = true) ∧
    (InPhase 7 Phase.fetched [CmdKind.write] wcm fiw ∧ 0 < 2 ∧ portUp (holder 0 fiw) fiw = true ∧ SMap.find fiw.net.conns 5 = some (bnd false 1 3)
      ∧ (bnd false 1 3).roce = false ∧ (bnd false 1 3).ddgst = true ∧ (bnd false 1 3).ctrl = some wcm.ctrl) ∧
    (0 < 2 ∧ portUp (holder 0 s39) s39 = true ∧ SMap.find s39.net.conns 5 = some (bnd true 256 7) ∧ (bnd true 256 7).roce = true ∧ 7 ≤
      (bnd true 256 7).retries) ∧
    (0 < 2 ∧ portUp (holder 0 s40) s40 = true ∧ SMap.find s40.net.conns 5 = some (bnd true 256 6) ∧ ((bnd true 256 6).roce = false ∨ (bnd
      true 256 6).retries < 7)) ∧
    (0 < 2 ∧ portUp (holder 0 s41) s41 = true ∧ SMap.find s41.net.conns 5 = some (bnd false 256 9) ∧ ((bnd false 256 9).roce = false ∨
      (bnd false 256 9).retries < 7)) := ⟨by decide +kernel, by decide +kernel, by decide +kernel, ⟨inPhase_of (by decide +kernel), by decide +kernel⟩, by decide +kernel,
    by decide +kernel, by decide +kernel⟩

end Net

namespace Tenants

/-- Management firmware is up, 127 virtual functions are enabled, and function f's ring holds these requests. -/
def lb (f : Nat) (reqs : List (List Byte)) (l : List (Fld × Nat)) (g : Ten → Ten) : State :=
  let u := sets l (io [])
  let v := { u with nv := { u.nv with numVfA := 127 }, ten := g u.ten }
  letterboxDoorbell f reqs ((fget (Fl.LBX_H2M_TAIL_INDEX f) v + reqs.length) % 256) v
def rq (typ op g : Nat) (pay : List Byte) : List Byte := [BitVec.ofNat 8 typ, BitVec.ofNat 8 op, 0x27, 0, BitVec.ofNat 8 g, 0, 0, 0] ++ List.replicate 8 0 ++ pay
def bs (f : Nat) (s : State) : List Byte := requestBytes f s
def t9 (f : Nat) : List (Fld × Nat) := [(Fl.LBX_H2M_TAIL_INDEX f, 9), (Fl.LBX_H2M_HEAD_INDEX f, 9)]
def s1 : State := lb 5 [] (t9 5) id
def s2 : State := lb 5 [] [(Fl.LBX_H2M_TAIL_INDEX 5, 255), (Fl.LBX_H2M_HEAD_INDEX 5, 255)] id
def mm : Msg := notice 0x13 5 [1]
def s3 : State := lb 5 [] [(Fl.LBX_M2H_TAIL_INDEX 5, 12), (Fl.LBX_M2H_HEAD_INDEX 5, 4)] (fun t => { t with hold := [(5, [mm])] })
def hush : State := { lb 5 [rq 1 1 5 []] [] id with ten := { (lb 5 [rq 1 1 5 []] [] id).ten with paused := true } }
def q0 (f : Nat) (r : List Byte) : State := lb f [r] ([(Fl.LBX_VECTOR_EN f, 1), (Fl.LBX_VECTOR_NUM f, 6)] ++ t9 f) id
def q1 : State := q0 5 (rq 0 1 5 [])
def q2 : State := q0 5 (rq 1 6 5 [])
def odd (op : Nat) : State := q0 5 ((rq 1 op 5 []).set 6 1)
def s4 : State := odd 1
def s5 : State := odd 2
def s6 : State := odd 3
def s7 : State := odd 5
def q3 : State := q0 5 (rq 1 1 5 [])
def q4 : State := q0 0 (rq 1 1 5 [])
def q5 : State := q0 5 (rq 1 1 6 [])
def q6 : State := q0 0 (rq 1 1 128 [])
def asn (f g r v : Nat) : State := q0 f (rq 1 2 g (leBytes 4 r ++ leBytes 4 v))
def s8 : State := asn 0 5 8 77
def s9 : State := asn 0 0 9 3
def s10 : State := asn 0 5 1 33
def s11 : State := asn 5 5 1 3
def s12 : State := asn 0 200 1 3
def s13 : State := asn 0 5 3 33
def s14 : State := asn 0 5 1 32
def s15 : State := asn 0 5 2 100
def vec : State := let u := asn 0 5 2 20; { u with ten := { u.ten with msixOn := [5] } }
def ex7 : State := let u := asn 0 5 9 0x1F; { u with ten := { u.ten with res := [(7, { resOf 7 u with mask := 0xF0, excl := true })] } }
def mv (f g a b : Nat) (h : Ten → Ten) : State := let u := q0 f (rq 1 3 g (leBytes 2 a ++ leBytes 2 b)); { u with ten := h u.ten, mem := [(granBase u + 0xBF0000000 - 1, 7), (granBase u + 0xBF0000000, 7)] }
def some10 (t : Ten) : Ten := { t with slm := [(0, List.range 190)], priv := [(0, (List.range 30).map (· + 192))] }
def s16 : State := mv 0 5 1 2 some10
def s17 : State := mv 0 0 189 30 some10
def s18 : State := mv 0 5 3 1 some10
def ns4 (t : Ten) : Ten := { some10 t with memNs := [(0, 4)] }
def s19 : State := mv 0 0 3 30 ns4
def s20 : State := mv 5 5 3 1 some10
def s21 : State := mv 0 5 216 1 some10
def cl (f : Nat) (dual : Bool) (mgr : Nat) (up : Nat) : State := let u := q0 f (rq 1 4 0 []); sets [(Fl.HIF_LINK_STATUS_UP_A, up)] { u with nv := { u.nv with dual := dual }, ten := { u.ten with manager := mgr } }
def s22 : State := cl 0 true 0 1
def s23 : State := cl 0 true 64 1
def s24 : State := cl 64 true 0 0
def rl (f g : Nat) (h : Ten → Ten) : State := let u := q0 f (rq 1 5 g [1, 2, 3, 4]); { u with ten := h u.ten }
def s25 : State := rl 0 5 id
def s26 : State := rl 5 0 id
def fullh (t : Ten) : Ten := { t with hold := [(5, List.replicate 32 mm)] }
def s27 : State := rl 0 5 fullh
def s28 : State := rl 0 128 id
def s29 : State := rl 5 6 id

theorem test_Letterboxes :
    (5 < 128 ∧ lbxUp s1 = true ∧ mode s1 ≠ 6 ∧ mode s1 ≠ 7 ∧ s1.pow.idleWait = none ∧ funcEnabled 5 s1 = true ∧ List.length [rq 1 1
      5 [], rq 1 3 7 [4, 0, 1, 0]] ≤ 4 ∧ (fget (Fl.LBX_H2M_TAIL_INDEX 5) s1 + List.length [rq 1 1 5 [], rq 1 3 7 [4, 0, 1, 0]] + 256 - fget
      (Fl.LBX_H2M_HEAD_INDEX 5) s1) % 256 ≤ 4) ∧
    (5 < 128 ∧ lbxUp s2 = true ∧ mode s2 ≠ 6 ∧ mode s2 ≠ 7 ∧ s2.pow.idleWait = none ∧ funcEnabled 5 s2 = true ∧ List.length [rq 1 1
      5 []] ≤ 4 ∧ (fget (Fl.LBX_H2M_TAIL_INDEX 5) s2 + List.length [rq 1 1 5 []] + 256 - fget (Fl.LBX_H2M_HEAD_INDEX 5) s2) % 256 ≤ 4) ∧
    (5 < 128 ∧ lbxUp s1 = true ∧ mode s1 ≠ 6 ∧ mode s1 ≠ 7 ∧ s1.pow.idleWait = none ∧ funcEnabled 5 s1 = true ∧ 14 < 256 ∧ (4 < (14
      + 256 - fget (Fl.LBX_H2M_HEAD_INDEX 5) s1) % 256 ∨ 4 < (14 + 256 - fget (Fl.LBX_H2M_TAIL_INDEX 5) s1) % 256)) ∧
    (5 < 128 ∧ lbxUp s1 = true ∧ mode s1 ≠ 6 ∧ mode s1 ≠ 7 ∧ s1.pow.idleWait = none ∧ funcEnabled 5 s1 = true ∧ 8 < 256 ∧ (4 < (8 +
      256 - fget (Fl.LBX_H2M_HEAD_INDEX 5) s1) % 256 ∨ 4 < (8 + 256 - fget (Fl.LBX_H2M_TAIL_INDEX 5) s1) % 256)) ∧
    (5 < 128 ∧ lbxUp s1 = true ∧ mode s1 ≠ 6 ∧ mode s1 ≠ 7 ∧ s1.pow.idleWait = none ∧ funcEnabled 5 s1 = true ∧ 0 < 256) ∧
    (5 < 128 ∧ lbxUp s3 = true ∧ mode s3 ≠ 6 ∧ mode s3 ≠ 7 ∧ s3.pow.idleWait = none ∧ funcEnabled 5 s3 = true ∧ 5 < 256 ∧ SMap.find
      s3.ten.hold 5 = some [mm] ∧ SMap.find s3.ten.lost 5 = none ∧ (fget (Fl.LBX_M2H_TAIL_INDEX 5) s3 + 256 - 5) % 256 < 8) ∧
    (5 < 128 ∧ lbxUp hush = true ∧ (hush.ten.paused = true ∨ coreHalted 76 hush = true)) ∧
    (5 < 128 ∧ lbxUp q1 = true ∧ nextRequest q1 = some 5 ∧ requestBytes 5 q1 = bs 5 q1 ∧ 0 < m2hFree 5 q1 ∧ (fieldAt (bs 5 q1) 0 1 = 0 ∨ 4 <
      fieldAt (bs 5 q1) 0 1) ∧ 1 < m2hFree 5 q1 ∧ SMap.getD q1.ten.hold 5 [] = []) := by
  refine ⟨?_, ?_, ?_, ?_, ?_, ?_, ?_, ?_⟩ <;> decide +kernel

theorem test_Letterboxes_2 :
    (5 < 128 ∧ lbxUp q2 = true ∧ nextRequest q2 = some 5 ∧ requestBytes 5 q2 = bs 5 q2 ∧ 0 < m2hFree 5 q2 ∧ fieldAt (bs 5 q2) 0 1 = 1 ∧ (fieldAt
      (bs 5 q2) 1 1 = 0 ∨ 5 < fieldAt (bs 5 q2) 1 1)) ∧
    (5 < 128 ∧ lbxUp s4 = true ∧ nextRequest s4 = some 5 ∧ requestBytes 5 s4 = bs 5 (odd 1) ∧ 0 < m2hFree 5 s4 ∧ fieldAt (bs 5 (odd 1))
      0 1 = 1 ∧ (fieldAt (bs 5 (odd 1)) 6 1 ≠ 0 ∨ fieldAt (bs 5 (odd 1)) 8 8 ≠ 0) ∧ fieldAt (bs 5 (odd 1)) 1 1 = 1) ∧
    (5 < 128 ∧ lbxUp s5 = true ∧ nextRequest s5 = some 5 ∧ requestBytes 5 s5 = bs 5 (odd 2) ∧ 0 < m2hFree 5 s5 ∧ fieldAt (bs 5 (odd 2))
      0 1 = 1 ∧ (fieldAt (bs 5 (odd 2)) 6 1 ≠ 0 ∨ fieldAt (bs 5 (odd 2)) 8 8 ≠ 0) ∧ fieldAt (bs 5 (odd 2)) 1 1 = 2) ∧
    (5 < 128 ∧ lbxUp s6 = true ∧ nextRequest s6 = some 5 ∧ requestBytes 5 s6 = bs 5 (odd 3) ∧ 0 < m2hFree 5 s6 ∧ fieldAt (bs 5 (odd 3))
      0 1 = 1 ∧ (fieldAt (bs 5 (odd 3)) 6 1 ≠ 0 ∨ fieldAt (bs 5 (odd 3)) 8 8 ≠ 0) ∧ fieldAt (bs 5 (odd 3)) 1 1 = 3) ∧
    (5 < 128 ∧ lbxUp s7 = true ∧ nextRequest s7 = some 5 ∧ requestBytes 5 s7 = bs 5 (odd 5) ∧ 0 < m2hFree 5 s7 ∧ fieldAt (bs 5 (odd 5))
      0 1 = 1 ∧ (fieldAt (bs 5 (odd 5)) 6 1 ≠ 0 ∨ fieldAt (bs 5 (odd 5)) 8 8 ≠ 0) ∧ fieldAt (bs 5 (odd 5)) 1 1 = 5) ∧
    (5 < 128 ∧ lbxUp q3 = true ∧ nextRequest q3 = some 5 ∧ requestBytes 5 q3 = bs 5 q3 ∧ 0 < m2hFree 5 q3 ∧ (fieldAt (bs 5 q3) 0 1 = 1 ∧ fieldAt
      (bs 5 q3) 1 1 = 1 ∧ fieldAt (bs 5 q3) 6 1 = 0 ∧ fieldAt (bs 5 q3) 8 8 = 0) ∧ (5 = q3.ten.manager ∨ fieldAt (bs 5 q3) 4 2 = 5) ∧ (¬(128 ≤
      fieldAt (bs 5 q3) 4 2 ∨ funcEnabled (fieldAt (bs 5 q3) 4 2) q3 = false))) ∧
    (0 < 128 ∧ lbxUp q4 = true ∧ nextRequest q4 = some 0 ∧ requestBytes 0 q4 = bs 0 q4 ∧ 0 < m2hFree 0 q4 ∧ (fieldAt (bs 0 q4) 0 1 = 1 ∧ fieldAt
      (bs 0 q4) 1 1 = 1 ∧ fieldAt (bs 0 q4) 6 1 = 0 ∧ fieldAt (bs 0 q4) 8 8 = 0) ∧ (0 = q4.ten.manager ∨ fieldAt (bs 0 q4) 4 2 = 0) ∧ (¬(128 ≤
      fieldAt (bs 0 q4) 4 2 ∨ funcEnabled (fieldAt (bs 0 q4) 4 2) q4 = false))) ∧
    (5 < 128 ∧ lbxUp q5 = true ∧ nextRequest q5 = some 5 ∧ requestBytes 5 q5 = bs 5 q5 ∧ 0 < m2hFree 5 q5 ∧ (fieldAt (bs 5 q5) 0 1 = 1 ∧ fieldAt
      (bs 5 q5) 1 1 = 1 ∧ fieldAt (bs 5 q5) 6 1 = 0 ∧ fieldAt (bs 5 q5) 8 8 = 0) ∧ ¬5 = q5.ten.manager ∧ fieldAt (bs 5 q5) 4 2 ≠ 5) := by
  refine ⟨?_, ?_, ?_, ?_, ?_, ?_, ?_, ?_⟩ <;> decide +kernel

theorem test_Letterboxes_3 :
    (0 < 128 ∧ lbxUp q6 = true ∧ nextRequest q6 = some 0 ∧ requestBytes 0 q6 = bs 0 q6 ∧ 0 < m2hFree 0 q6 ∧ (fieldAt (bs 0 q6) 0 1 = 1 ∧ fieldAt
      (bs 0 q6) 1 1 = 1 ∧ fieldAt (bs 0 q6) 6 1 = 0 ∧ fieldAt (bs 0 q6) 8 8 = 0) ∧ 0 = q6.ten.manager ∧ (128 ≤ fieldAt (bs 0 q6) 4 2 ∨ funcEnabled
      (fieldAt (bs 0 q6) 4 2) q6 = false)) ∧
    (0 < 128 ∧ lbxUp s8 = true ∧ nextRequest s8 = some 0 ∧ requestBytes 0 s8 = bs 0 (asn 0 5 8 77) ∧ 0 < m2hFree 0 s8 ∧ (fieldAt (bs 0
      (asn 0 5 8 77)) 0 1 = 1 ∧ fieldAt (bs 0 (asn 0 5 8 77)) 1 1 = 2 ∧ fieldAt (bs 0 (asn 0 5 8 77)) 6 1 = 0 ∧ fieldAt (bs 0 (asn 0 5 8 77)) 8 8 =
      0) ∧ 0 = s8.ten.manager ∧ (¬(128 ≤ fieldAt (bs 0 (asn 0 5 8 77)) 4 2 ∨ funcEnabled (fieldAt (bs 0 (asn 0 5 8 77)) 4 2) s8 = false)) ∧
      assignRefusal (fieldAt (bs 0 (asn 0 5 8 77)) 4 2) (fieldAt (bs 0 (asn 0 5 8 77)) 16 4) (fieldAt (bs 0 (asn 0 5 8 77)) 20 4) s8 = none) ∧
    (0 < 128 ∧ lbxUp s9 = true ∧ nextRequest s9 = some 0 ∧ requestBytes 0 s9 = bs 0 (asn 0 0 9 3) ∧ 0 < m2hFree 0 s9 ∧ (fieldAt (bs 0
      (asn 0 0 9 3)) 0 1 = 1 ∧ fieldAt (bs 0 (asn 0 0 9 3)) 1 1 = 2 ∧ fieldAt (bs 0 (asn 0 0 9 3)) 6 1 = 0 ∧ fieldAt (bs 0 (asn 0 0 9 3)) 8 8 = 0)
      ∧ 0 = s9.ten.manager ∧ (¬(128 ≤ fieldAt (bs 0 (asn 0 0 9 3)) 4 2 ∨ funcEnabled (fieldAt (bs 0 (asn 0 0 9 3)) 4 2) s9 = false)) ∧
      assignRefusal (fieldAt (bs 0 (asn 0 0 9 3)) 4 2) (fieldAt (bs 0 (asn 0 0 9 3)) 16 4) (fieldAt (bs 0 (asn 0 0 9 3)) 20 4) s9 = none) ∧
    (0 < 128 ∧ lbxUp s10 = true ∧ nextRequest s10 = some 0 ∧ requestBytes 0 s10 = bs 0 (asn 0 5 1 33) ∧ 0 < m2hFree 0 s10 ∧ (fieldAt
      (bs 0 (asn 0 5 1 33)) 0 1 = 1 ∧ fieldAt (bs 0 (asn 0 5 1 33)) 1 1 = 2 ∧ fieldAt (bs 0 (asn 0 5 1 33)) 6 1 = 0 ∧ fieldAt (bs 0 (asn 0 5 1 33))
      8 8 = 0) ∧ 0 = s10.ten.manager ∧ (¬(128 ≤ fieldAt (bs 0 (asn 0 5 1 33)) 4 2 ∨ funcEnabled (fieldAt (bs 0 (asn 0 5 1 33)) 4 2) s10 =
      false)) ∧ assignRefusal (fieldAt (bs 0 (asn 0 5 1 33)) 4 2) (fieldAt (bs 0 (asn 0 5 1 33)) 16 4) (fieldAt (bs 0 (asn 0 5 1 33)) 20 4) s10
      = some 2) ∧
    (5 < 128 ∧ lbxUp s11 = true ∧ nextRequest s11 = some 5 ∧ requestBytes 5 s11 = bs 5 (asn 5 5 1 3) ∧ 0 < m2hFree 5 s11 ∧ (fieldAt (bs
      5 (asn 5 5 1 3)) 0 1 = 1 ∧ fieldAt (bs 5 (asn 5 5 1 3)) 1 1 = 2 ∧ fieldAt (bs 5 (asn 5 5 1 3)) 6 1 = 0 ∧ fieldAt (bs 5 (asn 5 5 1 3)) 8 8 =
      0) ∧ ¬5 = s11.ten.manager) ∧
    (0 < 128 ∧ lbxUp s12 = true ∧ nextRequest s12 = some 0 ∧ requestBytes 0 s12 = bs 0 (asn 0 200 1 3) ∧ 0 < m2hFree 0 s12 ∧ (fieldAt
      (bs 0 (asn 0 200 1 3)) 0 1 = 1 ∧ fieldAt (bs 0 (asn 0 200 1 3)) 1 1 = 2 ∧ fieldAt (bs 0 (asn 0 200 1 3)) 6 1 = 0 ∧ fieldAt (bs 0 (asn 0 200 1
      3)) 8 8 = 0) ∧ 0 = s12.ten.manager ∧ (128 ≤ fieldAt (bs 0 (asn 0 200 1 3)) 4 2 ∨ funcEnabled (fieldAt (bs 0 (asn 0 200 1 3)) 4 2) s12 =
      false)) ∧
    (0 < 128 ∧ lbxUp s13 = true ∧ nextRequest s13 = some 0 ∧ requestBytes 0 s13 = bs 0 (asn 0 5 3 33) ∧ 0 < m2hFree 0 s13 ∧ (fieldAt
      (bs 0 (asn 0 5 3 33)) 16 4 = 3 ∨ fieldAt (bs 0 (asn 0 5 3 33)) 16 4 = 4 ∨ 14 < fieldAt (bs 0 (asn 0 5 3 33)) 16 4 ∨ fieldAt (bs 0 (asn 0 5 3
      33)) 16 4 = 0)) ∧
    (0 < 128 ∧ lbxUp s14 = true ∧ nextRequest s14 = some 0 ∧ requestBytes 0 s14 = bs 0 (asn 0 5 1 32) ∧ 0 < m2hFree 0 s14 ∧ fieldAt (bs
      0 (asn 0 5 1 32)) 16 4 = 1 ∧ fieldAt (bs 0 (asn 0 5 1 32)) 20 4 ≤ 32) := by
  refine ⟨?_, ?_, ?_, ?_, ?_, ?_, ?_, ?_⟩ <;> decide +kernel

theorem test_Letterboxes_4 :
    (0 < 128 ∧ lbxUp s15 = true ∧ nextRequest s15 = some 0 ∧ requestBytes 0 s15 = bs 0 (asn 0 5 2 100) ∧ 0 < m2hFree 0 s15 ∧ fieldAt
      (bs 0 (asn 0 5 2 100)) 16 4 = 2 ∧ 1 ≤ fieldAt (bs 0 (asn 0 5 2 100)) 20 4 ∧ fieldAt (bs 0 (asn 0 5 2 100)) 20 4 ≤ 128 ∧ partitionSum (fieldAt
      (bs 0 (asn 0 5 2 100)) 4 2) 2 (fieldAt (bs 0 (asn 0 5 2 100)) 20 4) s15 ≤ 2048) ∧
    (0 < 128 ∧ lbxUp vec = true ∧ nextRequest vec = some 0 ∧ requestBytes 0 vec = bs 0 vec ∧ 0 < m2hFree 0 vec ∧ fieldAt (bs 0 vec) 16 4 = 2 ∧ 1 ≤
      fieldAt (bs 0 vec) 20 4 ∧ fieldAt (bs 0 vec) 20 4 ≤ 128 ∧ partitionSum (fieldAt (bs 0 vec) 4 2) 2 (fieldAt (bs 0 vec) 20 4) vec ≤ 2048) ∧
    (0 < 128 ∧ lbxUp ex7 = true ∧ nextRequest ex7 = some 0 ∧ requestBytes 0 ex7 = bs 0 ex7 ∧ 0 < m2hFree 0 ex7 ∧ fieldAt (bs 0 ex7) 16 4 = 9 ∧
      fieldAt (bs 0 ex7) 20 4 < 512 ∧ (∃ n < 8, fieldAt (bs 0 ex7) 20 4 / 2 ^ n % 2 = 1 ∧ clusterServes n ex7 = true) ∧ (∃ h < 128, h ≠ fieldAt (bs
      0 ex7) 4 2 ∧ h ∈ knownFuncs ex7 ∧ (resOf h ex7).mask &&& fieldAt (bs 0 ex7) 20 4 % 256 ≠ 0 ∧ ((resOf h ex7).excl = true ∨ 256 ≤ fieldAt (bs 0
      ex7) 20 4))) ∧
    (0 < 128 ∧ lbxUp s16 = true ∧ nextRequest s16 = some 0 ∧ requestBytes 0 s16 = bs 0 (mv 0 5 1 2 some10) ∧ 0 < m2hFree 0 s16 ∧
      (fieldAt (bs 0 (mv 0 5 1 2 some10)) 0 1 = 1 ∧ fieldAt (bs 0 (mv 0 5 1 2 some10)) 1 1 = 3 ∧ fieldAt (bs 0 (mv 0 5 1 2 some10)) 6 1 = 0 ∧
      fieldAt (bs 0 (mv 0 5 1 2 some10)) 8 8 = 0) ∧ 0 = s16.ten.manager ∧ (¬(128 ≤ fieldAt (bs 0 (mv 0 5 1 2 some10)) 4 2 ∨ funcEnabled (fieldAt
      (bs 0 (mv 0 5 1 2 some10)) 4 2) s16 = false)) ∧ fieldAt (bs 0 (mv 0 5 1 2 some10)) 16 2 ≤ 215 ∧ fieldAt (bs 0 (mv 0 5 1 2 some10)) 18 2 ≤
      192 ∧ moveRefusals (fieldAt (bs 0 (mv 0 5 1 2 some10)) 4 2) (fieldAt (bs 0 (mv 0 5 1 2 some10)) 16 2) (fieldAt (bs 0 (mv 0 5 1 2 some10)) 18
      2) s16 = []) ∧
    (0 < 128 ∧ lbxUp s17 = true ∧ nextRequest s17 = some 0 ∧ requestBytes 0 s17 = bs 0 (mv 0 0 189 30 some10) ∧ 0 < m2hFree 0 s17 ∧
      (fieldAt (bs 0 (mv 0 0 189 30 some10)) 0 1 = 1 ∧ fieldAt (bs 0 (mv 0 0 189 30 some10)) 1 1 = 3 ∧ fieldAt (bs 0 (mv 0 0 189 30 some10)) 6 1 =
      0 ∧ fieldAt (bs 0 (mv 0 0 189 30 some10)) 8 8 = 0) ∧ 0 = s17.ten.manager ∧ (¬(128 ≤ fieldAt (bs 0 (mv 0 0 189 30 some10)) 4 2 ∨
      funcEnabled (fieldAt (bs 0 (mv 0 0 189 30 some10)) 4 2) s17 = false)) ∧ fieldAt (bs 0 (mv 0 0 189 30 some10)) 16 2 ≤ 215 ∧ fieldAt (bs 0
      (mv 0 0 189 30 some10)) 18 2 ≤ 192 ∧ moveRefusals (fieldAt (bs 0 (mv 0 0 189 30 some10)) 4 2) (fieldAt (bs 0 (mv 0 0 189 30 some10)) 16 2)
      (fieldAt (bs 0 (mv 0 0 189 30 some10)) 18 2) s17 = []) ∧
    (0 < 128 ∧ lbxUp s18 = true ∧ nextRequest s18 = some 0 ∧ requestBytes 0 s18 = bs 0 (mv 0 5 3 1 some10) ∧ 0 < m2hFree 0 s18 ∧
      (fieldAt (bs 0 (mv 0 5 3 1 some10)) 0 1 = 1 ∧ fieldAt (bs 0 (mv 0 5 3 1 some10)) 1 1 = 3 ∧ fieldAt (bs 0 (mv 0 5 3 1 some10)) 6 1 = 0 ∧
      fieldAt (bs 0 (mv 0 5 3 1 some10)) 8 8 = 0) ∧ 0 = s18.ten.manager ∧ (¬(128 ≤ fieldAt (bs 0 (mv 0 5 3 1 some10)) 4 2 ∨ funcEnabled (fieldAt
      (bs 0 (mv 0 5 3 1 some10)) 4 2) s18 = false)) ∧ fieldAt (bs 0 (mv 0 5 3 1 some10)) 16 2 ≤ 215 ∧ fieldAt (bs 0 (mv 0 5 3 1 some10)) 18 2 ≤
      192 ∧ moveRefusals (fieldAt (bs 0 (mv 0 5 3 1 some10)) 4 2) (fieldAt (bs 0 (mv 0 5 3 1 some10)) 16 2) (fieldAt (bs 0 (mv 0 5 3 1 some10)) 18
      2) s18 = [3]) ∧
    (0 < 128 ∧ lbxUp s19 = true ∧ nextRequest s19 = some 0 ∧ requestBytes 0 s19 = bs 0 (mv 0 0 3 30 ns4) ∧ 0 < m2hFree 0 s19 ∧ (fieldAt
      (bs 0 (mv 0 0 3 30 ns4)) 0 1 = 1 ∧ fieldAt (bs 0 (mv 0 0 3 30 ns4)) 1 1 = 3 ∧ fieldAt (bs 0 (mv 0 0 3 30 ns4)) 6 1 = 0 ∧ fieldAt (bs 0 (mv 0
      0 3 30 ns4)) 8 8 = 0) ∧ 0 = s19.ten.manager ∧ (¬(128 ≤ fieldAt (bs 0 (mv 0 0 3 30 ns4)) 4 2 ∨ funcEnabled (fieldAt (bs 0 (mv 0 0 3 30
      ns4)) 4 2) s19 = false)) ∧ fieldAt (bs 0 (mv 0 0 3 30 ns4)) 16 2 ≤ 215 ∧ fieldAt (bs 0 (mv 0 0 3 30 ns4)) 18 2 ≤ 192 ∧ moveRefusals
      (fieldAt (bs 0 (mv 0 0 3 30 ns4)) 4 2) (fieldAt (bs 0 (mv 0 0 3 30 ns4)) 16 2) (fieldAt (bs 0 (mv 0 0 3 30 ns4)) 18 2) s19 = [4]) ∧
    (0 < 128 ∧ lbxUp s18 = true ∧ nextRequest s18 = some 0 ∧ requestBytes 0 s18 = bs 0 (mv 0 5 3 1 some10) ∧ 0 < m2hFree 0 s18 ∧
      (fieldAt (bs 0 (mv 0 5 3 1 some10)) 0 1 = 1 ∧ fieldAt (bs 0 (mv 0 5 3 1 some10)) 1 1 = 3 ∧ fieldAt (bs 0 (mv 0 5 3 1 some10)) 6 1 = 0 ∧
      fieldAt (bs 0 (mv 0 5 3 1 some10)) 8 8 = 0) ∧ poolSize s18 < slmTotal s18 - List.length (slmOf (fieldAt (bs 0 (mv 0 5 3 1 some10)) 4 2)
      s18) + fieldAt (bs 0 (mv 0 5 3 1 some10)) 16 2 + (privTotal s18 - List.length (privOf (fieldAt (bs 0 (mv 0 5 3 1 some10)) 4 2) s18)
      + fieldAt (bs 0 (mv 0 5 3 1 some10)) 18 2)) := by
  refine ⟨?_, ?_, ?_, ?_, ?_, ?_, ?_, ?_⟩ <;> decide +kernel

theorem test_Letterboxes_5 :
    (0 < 128 ∧ lbxUp s19 = true ∧ nextRequest s19 = some 0 ∧ requestBytes 0 s19 = bs 0 (mv 0 0 3 30 ns4) ∧ 0 < m2hFree 0 s19 ∧ (fieldAt
      (bs 0 (mv 0 0 3 30 ns4)) 0 1 = 1 ∧ fieldAt (bs 0 (mv 0 0 3 30 ns4)) 1 1 = 3 ∧ fieldAt (bs 0 (mv 0 0 3 30 ns4)) 6 1 = 0 ∧ fieldAt (bs 0 (mv 0
      0 3 30 ns4)) 8 8 = 0) ∧ fieldAt (bs 0 (mv 0 0 3 30 ns4)) 16 2 < SMap.getD s19.ten.memNs (fieldAt (bs 0 (mv 0 0 3 30 ns4)) 4 2) 0) ∧
    (5 < 128 ∧ lbxUp s20 = true ∧ nextRequest s20 = some 5 ∧ requestBytes 5 s20 = bs 5 (mv 5 5 3 1 some10) ∧ 0 < m2hFree 5 s20 ∧
      (fieldAt (bs 5 (mv 5 5 3 1 some10)) 0 1 = 1 ∧ fieldAt (bs 5 (mv 5 5 3 1 some10)) 1 1 = 3 ∧ fieldAt (bs 5 (mv 5 5 3 1 some10)) 6 1 = 0 ∧
      fieldAt (bs 5 (mv 5 5 3 1 some10)) 8 8 = 0) ∧ ¬5 = s20.ten.manager) ∧
    (0 < 128 ∧ lbxUp s21 = true ∧ nextRequest s21 = some 0 ∧ requestBytes 0 s21 = bs 0 (mv 0 5 216 1 some10) ∧ 0 < m2hFree 0 s21 ∧
      (fieldAt (bs 0 (mv 0 5 216 1 some10)) 0 1 = 1 ∧ fieldAt (bs 0 (mv 0 5 216 1 some10)) 1 1 = 3 ∧ fieldAt (bs 0 (mv 0 5 216 1 some10)) 6 1 = 0 ∧
      fieldAt (bs 0 (mv 0 5 216 1 some10)) 8 8 = 0) ∧ 0 = s21.ten.manager ∧ ((128 ≤ fieldAt (bs 0 (mv 0 5 216 1 some10)) 4 2 ∨ funcEnabled
      (fieldAt (bs 0 (mv 0 5 216 1 some10)) 4 2) s21 = false) ∨ 215 < fieldAt (bs 0 (mv 0 5 216 1 some10)) 16 2 ∨ 192 < fieldAt (bs 0 (mv 0 5
      216 1 some10)) 18 2)) ∧
    (0 < 128 ∧ lbxUp s22 = true ∧ nextRequest s22 = some 0 ∧ requestBytes 0 s22 = bs 0 (cl 0 true 0 1) ∧ 0 < m2hFree 0 s22 ∧ (fieldAt
      (bs 0 (cl 0 true 0 1)) 0 1 = 1 ∧ fieldAt (bs 0 (cl 0 true 0 1)) 1 1 = 4 ∧ fieldAt (bs 0 (cl 0 true 0 1)) 6 1 = 0 ∧ fieldAt (bs 0 (cl 0 true 0
      1)) 8 8 = 0) ∧ 0 = s22.ten.manager) ∧
    (0 < 128 ∧ lbxUp s23 = true ∧ nextRequest s23 = some 0 ∧ requestBytes 0 s23 = bs 0 (cl 0 true 64 1) ∧ 0 < m2hFree 0 s23 ∧ (fieldAt
      (bs 0 (cl 0 true 64 1)) 0 1 = 1 ∧ fieldAt (bs 0 (cl 0 true 64 1)) 1 1 = 4 ∧ fieldAt (bs 0 (cl 0 true 64 1)) 6 1 = 0 ∧ fieldAt (bs 0 (cl 0
      true 64 1)) 8 8 = 0) ∧ ¬0 = s23.ten.manager ∧ (0 = 64 ∧ s23.nv.dual = true ∧ false = true ∧ fget Fl.HIF_LINK_STATUS_UP_A s23 = 0 ∨ 0
      = 0 ∧ fget Fl.HIF_LINK_STATUS_UP_A s23 = 1)) ∧
    (64 < 128 ∧ lbxUp s24 = true ∧ nextRequest s24 = some 64 ∧ requestBytes 64 s24 = bs 64 (cl 64 true 0 0) ∧ 0 < m2hFree 64 s24 ∧
      (fieldAt (bs 64 (cl 64 true 0 0)) 0 1 = 1 ∧ fieldAt (bs 64 (cl 64 true 0 0)) 1 1 = 4 ∧ fieldAt (bs 64 (cl 64 true 0 0)) 6 1 = 0 ∧ fieldAt (bs
      64 (cl 64 true 0 0)) 8 8 = 0) ∧ ¬64 = s24.ten.manager ∧ (64 = 64 ∧ s24.nv.dual = true ∧ true = true ∧ fget Fl.HIF_LINK_STATUS_UP_A
      s24 = 0 ∨ 64 = 0 ∧ fget Fl.HIF_LINK_STATUS_UP_A s24 = 1)) ∧
    (64 < 128 ∧ lbxUp s24 = true ∧ nextRequest s24 = some 64 ∧ requestBytes 64 s24 = bs 64 (cl 64 true 0 0) ∧ 0 < m2hFree 64 s24 ∧
      (fieldAt (bs 64 (cl 64 true 0 0)) 0 1 = 1 ∧ fieldAt (bs 64 (cl 64 true 0 0)) 1 1 = 4 ∧ fieldAt (bs 64 (cl 64 true 0 0)) 6 1 = 0 ∧ fieldAt (bs
      64 (cl 64 true 0 0)) 8 8 = 0) ∧ ¬64 = s24.ten.manager ∧ 64 ≠ 0 ∧ (64 ≠ 64 ∨ s24.nv.dual = false ∨ false = false ∨ fget
      Fl.HIF_LINK_STATUS_UP_A s24 = 1)) ∧
    (0 < 128 ∧ lbxUp s25 = true ∧ nextRequest s25 = some 0 ∧ requestBytes 0 s25 = bs 0 (rl 0 5 id) ∧ 0 < m2hFree 0 s25 ∧ (fieldAt (bs 0
      (rl 0 5 id)) 0 1 = 1 ∧ fieldAt (bs 0 (rl 0 5 id)) 1 1 = 5 ∧ fieldAt (bs 0 (rl 0 5 id)) 6 1 = 0 ∧ fieldAt (bs 0 (rl 0 5 id)) 8 8 = 0) ∧ (0 =
      s25.ten.manager ∨ fieldAt (bs 0 (rl 0 5 id)) 4 2 = s25.ten.manager) ∧ (¬(128 ≤ fieldAt (bs 0 (rl 0 5 id)) 4 2 ∨ funcEnabled (fieldAt
      (bs 0 (rl 0 5 id)) 4 2) s25 = false)) ∧ fieldAt (bs 0 (rl 0 5 id)) 4 2 ≠ 0 ∧ (SMap.getD s25.ten.hold (fieldAt (bs 0 (rl 0 5 id)) 4 2)
      [] = [] ∧ SMap.find s25.ten.lost (fieldAt (bs 0 (rl 0 5 id)) 4 2) = none ∧ 0 < m2hFree (fieldAt (bs 0 (rl 0 5 id)) 4 2) s25)) := by
  refine ⟨?_, ?_, ?_, ?_, ?_, ?_, ?_, ?_⟩ <;> decide +kernel

theorem test_Letterboxes_6 :
    (5 < 128 ∧ lbxUp s26 = true ∧ nextRequest s26 = some 5 ∧ requestBytes 5 s26 = bs 5 (rl 5 0 id) ∧ 0 < m2hFree 5 s26 ∧ (fieldAt (bs 5
      (rl 5 0 id)) 0 1 = 1 ∧ fieldAt (bs 5 (rl 5 0 id)) 1 1 = 5 ∧ fieldAt (bs 5 (rl 5 0 id)) 6 1 = 0 ∧ fieldAt (bs 5 (rl 5 0 id)) 8 8 = 0) ∧ (5 =
      s26.ten.manager ∨ fieldAt (bs 5 (rl 5 0 id)) 4 2 = s26.ten.manager) ∧ (¬(128 ≤ fieldAt (bs 5 (rl 5 0 id)) 4 2 ∨ funcEnabled (fieldAt
      (bs 5 (rl 5 0 id)) 4 2) s26 = false)) ∧ fieldAt (bs 5 (rl 5 0 id)) 4 2 ≠ 5 ∧ (SMap.getD s26.ten.hold (fieldAt (bs 5 (rl 5 0 id)) 4 2)
      [] = [] ∧ SMap.find s26.ten.lost (fieldAt (bs 5 (rl 5 0 id)) 4 2) = none ∧ 0 < m2hFree (fieldAt (bs 5 (rl 5 0 id)) 4 2) s26)) ∧
    (0 < 128 ∧ lbxUp s27 = true ∧ nextRequest s27 = some 0 ∧ requestBytes 0 s27 = bs 0 (rl 0 5 fullh) ∧ 0 < m2hFree 0 s27 ∧ (fieldAt
      (bs 0 (rl 0 5 fullh)) 0 1 = 1 ∧ fieldAt (bs 0 (rl 0 5 fullh)) 1 1 = 5 ∧ fieldAt (bs 0 (rl 0 5 fullh)) 6 1 = 0 ∧ fieldAt (bs 0 (rl 0 5 fullh))
      8 8 = 0) ∧ (0 = s27.ten.manager ∨ fieldAt (bs 0 (rl 0 5 fullh)) 4 2 = s27.ten.manager) ∧ (¬(128 ≤ fieldAt (bs 0 (rl 0 5 fullh)) 4 2 ∨
      funcEnabled (fieldAt (bs 0 (rl 0 5 fullh)) 4 2) s27 = false)) ∧ 32 ≤ List.length (SMap.getD s27.ten.hold (fieldAt (bs 0 (rl 0 5 fullh))
      4 2) [])) ∧
    (0 < 128 ∧ lbxUp s28 = true ∧ nextRequest s28 = some 0 ∧ requestBytes 0 s28 = bs 0 (rl 0 128 id) ∧ 0 < m2hFree 0 s28 ∧ (fieldAt (bs
      0 (rl 0 128 id)) 0 1 = 1 ∧ fieldAt (bs 0 (rl 0 128 id)) 1 1 = 5 ∧ fieldAt (bs 0 (rl 0 128 id)) 6 1 = 0 ∧ fieldAt (bs 0 (rl 0 128 id)) 8 8 =
      0) ∧ (0 = s28.ten.manager ∨ fieldAt (bs 0 (rl 0 128 id)) 4 2 = s28.ten.manager) ∧ (128 ≤ fieldAt (bs 0 (rl 0 128 id)) 4 2 ∨ funcEnabled
      (fieldAt (bs 0 (rl 0 128 id)) 4 2) s28 = false)) ∧
    (5 < 128 ∧ lbxUp s29 = true ∧ nextRequest s29 = some 5 ∧ requestBytes 5 s29 = bs 5 (rl 5 6 id) ∧ 0 < m2hFree 5 s29 ∧ (fieldAt (bs 5
      (rl 5 6 id)) 0 1 = 1 ∧ fieldAt (bs 5 (rl 5 6 id)) 1 1 = 5 ∧ fieldAt (bs 5 (rl 5 6 id)) 6 1 = 0 ∧ fieldAt (bs 5 (rl 5 6 id)) 8 8 = 0) ∧ ¬5 =
      s29.ten.manager ∧ fieldAt (bs 5 (rl 5 6 id)) 4 2 ≠ s29.ten.manager) := by
  refine ⟨?_, ?_, ?_, ?_⟩ <;> decide +kernel

end Tenants

namespace Sensors

/-- The module in Serve; I3C target state and sensors as given. -/
def mg (l : List (Fld × Nat)) (f : Mgt → Mgt) : State := let u := sets l (io []); { u with mgt := f u.mgt }
def mg0 (l : List (Fld × Nat)) : State := mg l id
def s1 : State := mg0 [(Fl.MGT_SENSOR_MAX 3, 0x80)]
def s2 : State := mg [(Fl.MGT_SENSOR_MAX 3, 0x20)] (fun m => { m with mins := [(3, 0x10)] })
def s4 : State := mg0 []
def absent : List (Fld × Nat) := [(Fl.MGT_SENSOR_TEMP 0, 0x8000), (Fl.MGT_SENSOR_TEMP 1, 0x8000)]
def s5 : State := mg0 (absent ++ [(Fl.MGT_SENSOR_TEMP 0, 16 * 80 + 1)])
def s6 : State := mg0 (absent ++ [(Fl.MGT_SENSOR_TEMP 1, 16 * 115 + 1)])
def s8 : State := mg0 (absent ++ [(Fl.MGT_SENSOR_TEMP 0, 16 * 80), (Fl.MGT_THERM_LEVEL, 2)])
def s9 : State := mg0 (absent ++ [(Fl.MGT_SENSOR_TEMP 0, 16 * 76), (Fl.MGT_THERM_LEVEL, 1), (Fl.AON_MODE_CUR, 5)])
def s10 : State := mg0 (absent ++ [(Fl.MGT_SENSOR_TEMP 0, 16 * 78), (Fl.MGT_THERM_LEVEL, 1)])
def s11 : State := mg0 (absent ++ [(Fl.MGT_SENSOR_TEMP 0, 16 * 79)])
def cap (inp cores : Nat) (l : List (Fld × Nat)) (f : Mgt → Mgt) : State := mg ([(Fl.MGT_MGMT_CAP_WATTS, 60), (Fl.PWR_IN_POWER_INPUT, inp)] ++ l) (fun m => f { m with capCores := cores })
def allLow : List (Fld × Nat) := (List.range 32).map (fun n => (Fl.CHE_GOV_CFG_BUDGET n, 320))
def s13 : State := cap 6001 1 [(Fl.CHE_GOV_CFG_BUDGET 3, 350), (Fl.CHE_GOV_CFG_BUDGET 31, 1000)] id
def s14 : State := cap 5700 1 allLow (fun m => { m with budgets := [(7, 330)] })
def i3 (valid : Nat) (l : List (Fld × Nat)) (f : Mgt → Mgt) : State := mg ([(Fl.MGT_I3C_DA, 9), (Fl.MGT_I3C_DA_VALID, valid)] ++ l) f
def s15 : State := i3 1 [] id
def s16 : State := i3 1 [(Fl.MGT_I3C_IBI_EN, 0)] (fun m => { m with outbox := [[1]] })
def s17 : State := i3 1 [(Fl.MGT_I3C_IBI_EN, 1), (Fl.MGT_I3C_HJ_EN, 1)] id
def s18 : State := i3 1 [(Fl.MGT_I3C_EID, 77)] id
def s19 : State := i3 0 [] id
def s20 : State := i3 1 [] (fun m => { m with outbox := [[1]] })
def s21 : State := i3 0 [(Fl.MGT_I3C_HJ_EN, 1)] id
def s22 : State := i3 0 [(Fl.MGT_I3C_HJ_EN, 0)] id
def s23 : State := i3 1 [(Fl.MGT_I3C_IBI_EN, 1)] (fun m => { m with ibiWait := 2, ibis := List.replicate 99 5 })
def s24 : State := i3 1 [(Fl.MGT_I3C_IBI_EN, 1)] (fun m => { m with ibiWait := 2, ibis := List.replicate 100 5 })

theorem test_SensorsAndI3c :
    (pdOn 1 s1 = true ∧ hasSensor 3 s1 = true ∧ 65512 < 65536 ∧ 65512 ≠ 32768) ∧
    (pdOn 1 s2 = true ∧ hasSensor 3 s2 = true ∧ 2575 < 65536 ∧ 2575 ≠ 32768) ∧
    (pdOn 1 s4 = true ∧ hasSensor 0 s4 = true) ∧
    (pdOn 1 s4 = true ∧ s4.variant < 2) ∧
    (pdOn 1 s5 = true ∧ mode s5 ≠ 6 ∧ mode s5 ≠ 7 ∧ s5.pow.idleWait = none ∧ fget Fl.MGT_THERM_LEVEL s5 < 1 ∧ 1 ≤ 3 ∧ levelHolds 1
      s5 = true ∧ (∀ k ≤ 3, 1 < k → levelHolds k s5 = false)) ∧
    (pdOn 1 s6 = true ∧ mode s6 ≠ 6 ∧ mode s6 ≠ 7 ∧ s6.pow.idleWait = none ∧ fget Fl.MGT_THERM_LEVEL s6 < 2 ∧ 2 ≤ 3 ∧ levelHolds 2
      s6 = true ∧ (∀ k ≤ 3, 2 < k → levelHolds k s6 = false)) ∧
    (pdOn 1 s8 = true ∧ mode s8 ≠ 6 ∧ mode s8 ≠ 7 ∧ s8.pow.idleWait = none ∧ fget Fl.MGT_THERM_LEVEL s8 ≠ 0 ∧ (∀ k ≤ 3, fget
      Fl.MGT_THERM_LEVEL s8 ≤ k → 0 < k → levelHolds k s8 = false) ∧ levelCool (fget Fl.MGT_THERM_LEVEL s8) (featureValue 195 s8 / 2 ^
      24 % 16) s8 = true) ∧
    (pdOn 1 s9 = true ∧ mode s9 ≠ 6 ∧ mode s9 ≠ 7 ∧ s9.pow.idleWait = none ∧ fget Fl.MGT_THERM_LEVEL s9 ≠ 0 ∧ (∀ k ≤ 3, fget
      Fl.MGT_THERM_LEVEL s9 ≤ k → 0 < k → levelHolds k s9 = false) ∧ levelCool (fget Fl.MGT_THERM_LEVEL s9) (featureValue 195 s9 / 2 ^
      24 % 16) s9 = true) := by
  refine ⟨?_, ?_, ?_, ?_, ?_, ?_, ?_, ?_⟩ <;> decide +kernel

theorem test_SensorsAndI3c_2 :
    (pdOn 1 s10 = true ∧ mode s10 ≠ 6 ∧ mode s10 ≠ 7 ∧ s10.pow.idleWait = none ∧ (∀ k ≤ 3, fget Fl.MGT_THERM_LEVEL s10 < k →
      levelHolds k s10 = false) ∧ (true = false ∨ fget Fl.MGT_THERM_LEVEL s10 = 0 ∨ levelCool (fget Fl.MGT_THERM_LEVEL s10) (featureValue
      195 s10 / 2 ^ 24 % 16) s10 = false)) ∧
    (pdOn 1 s11 = true ∧ mode s11 ≠ 6 ∧ mode s11 ≠ 7 ∧ s11.pow.idleWait = none ∧ (∀ k ≤ 3, fget Fl.MGT_THERM_LEVEL s11 < k →
      levelHolds k s11 = false) ∧ (true = false ∨ fget Fl.MGT_THERM_LEVEL s11 = 0 ∨ levelCool (fget Fl.MGT_THERM_LEVEL s11) (featureValue
      195 s11 / 2 ^ 24 % 16) s11 = false)) ∧
    (pdOn 1 s13 = true) ∧
    (pdOn 1 s14 = true) ∧
    (pdOn 1 s15 = true ∧ (some 9 = none ∨ some 9 = some (fget Fl.MGT_I3C_DA s15) ∧ fget Fl.MGT_I3C_DA_VALID s15 = 1) ∧ 9 % 2 = 1 ∧ 9 / 8 %
      2 = 1 ∧ s15.mgt.outbox = []) ∧
    (pdOn 1 s16 = true ∧ ((none : Option Nat) = none ∨ (none : Option Nat) = some (fget Fl.MGT_I3C_DA s16) ∧ fget Fl.MGT_I3C_DA_VALID s16
      = 1) ∧ 1 % 2 = 1 ∧ s16.mgt.outbox ≠ [] ∧ fget Fl.MGT_I3C_IBI_EN s16 = 0 ∧ fget Fl.MGT_I3C_DA_VALID s16 = 1 ∧ List.length (recentIbis
      s16) < 100) ∧
    (pdOn 1 s17 = true ∧ (some 9 = none ∨ some 9 = some (fget Fl.MGT_I3C_DA s17) ∧ fget Fl.MGT_I3C_DA_VALID s17 = 1)) ∧
    (pdOn 1 s18 = true) := by
  refine ⟨?_, ?_, ?_, ?_, ?_, ?_, ?_, ?_⟩ <;> decide +kernel

theorem test_SensorsAndI3c_3 :
    (pdOn 1 s19 = true ∧ fget Fl.MGT_I3C_DA_VALID s19 = 0 ∧ 127 < 128) ∧
    (pdOn 1 s19 = true ∧ fget Fl.MGT_I3C_DA_VALID s19 = 0 ∧ 127 < 128 ∧ 28 ≠ 29) ∧
    (pdOn 1 s15 = true ∧ fget Fl.MGT_I3C_DA_VALID s15 = 1 ∧ 127 < 128) ∧
    (pdOn 1 s15 = true ∧ ((none : Option Nat) = none ∨ (none : Option Nat) = some (fget Fl.MGT_I3C_DA s15) ∧ fget Fl.MGT_I3C_DA_VALID s15
      = 1) ∧ 64 ≤ 256 ∧ 256 ≤ 256) ∧
    (pdOn 1 s15 = true ∧ ((none : Option Nat) = none ∨ (none : Option Nat) = some (fget Fl.MGT_I3C_DA s15) ∧ fget Fl.MGT_I3C_DA_VALID s15
      = 1) ∧ 64 ≤ 64 ∧ 64 ≤ 256) ∧
    (pdOn 1 s15 = true ∧ ((none : Option Nat) = none ∨ (none : Option Nat) = some (fget Fl.MGT_I3C_DA s15) ∧ fget Fl.MGT_I3C_DA_VALID s15
      = 1) ∧ (63 < 64 ∨ 256 < 63)) ∧
    (pdOn 1 s15 = true ∧ ((none : Option Nat) = none ∨ (none : Option Nat) = some (fget Fl.MGT_I3C_DA s15) ∧ fget Fl.MGT_I3C_DA_VALID s15
      = 1) ∧ (257 < 64 ∨ 256 < 257)) ∧
    (pdOn 1 s15 = true ∧ (some 9 = none ∨ some 9 = some (fget Fl.MGT_I3C_DA s15) ∧ fget Fl.MGT_I3C_DA_VALID s15 = 1)) := by
  refine ⟨?_, ?_, ?_, ?_, ?_, ?_, ?_, ?_⟩ <;> decide +kernel

theorem test_SensorsAndI3c_4 :
    (pdOn 1 s15 = true ∧ fget Fl.MGT_I3C_DA_VALID s15 = 1) ∧
    (pdOn 1 s20 = true ∧ fget Fl.MGT_I3C_DA_VALID s20 = 1) ∧
    (pdOn 1 s15 = true ∧ 10 ≠ fget Fl.MGT_I3C_DA s15) ∧
    (pdOn 1 s21 = true ∧ fget Fl.MGT_I3C_DA_VALID s21 = 0 ∧ fget Fl.MGT_I3C_HJ_EN s21 = 1) ∧
    (pdOn 1 s22 = true ∧ (fget Fl.MGT_I3C_DA_VALID s22 = 1 ∨ fget Fl.MGT_I3C_HJ_EN s22 = 0)) ∧
    (pdOn 1 s23 = true ∧ 0 < s23.mgt.ibiWait ∧ List.length (recentIbis s23) < 100 ∧ fget Fl.MGT_I3C_IBI_EN s23 = 1) ∧
    (pdOn 1 s24 = true ∧ (s24.mgt.ibiWait = 0 ∨ 100 ≤ List.length (recentIbis s24))) := by
  refine ⟨?_, ?_, ?_, ?_, ?_, ?_, ?_⟩ <;> decide +kernel

end Sensors

namespace Mi

/-- The module in Serve, reachable over MCTP. -/
def mc (l : List (Fld × Nat)) (f : Mgt → Mgt) : State :=
  let u := sets ([(Fl.MGT_I3C_DA, 9), (Fl.MGT_I3C_DA_VALID, 1), (Fl.MGT_I3C_EID, 33), (Fl.MGT_I3C_IBI_EN, 1)] ++ l) (io [])
  { u with mgt := f { u.mgt with outbox := [[9]] }, nv := { u.nv with ctrls := [(1, { ctl with pf := true })] } }
def mc0 (l : List (Fld × Nat)) : State := mc l id
def s1 : State := mc0 []
def s2 : State := mc0 [(Fl.MGT_SENSOR_TEMP 0, 0x0200)]
def s3 : State := mc [] (fun m => { m with cfg := [(2, 70000)] })
def s4 : State := mc [] (fun m => { m with vpd := [(254, 5)] })
def s5 : State := mc0 [(Fl.AON_MODE_CUR, 2)]
def stay : State := { mc0 [(Fl.AON_MODE_CUR, 2)] with pow := { up.pow with pllWatch := true } }
def s6 : State := mc0 [(Fl.AON_MODE_CUR, 3)]
def full : State := { mc0 [] with nv := { (mc0 []).nv with sharedFree := 0, ctrls := [(1, { ctl with pf := true, ownUsed := 4 })] } }
def adm : Cmd := { cmd 7 .admin 0 0 .fetched with sq := 0 }
def ma : State := let u := mc [] (fun m => { m with cfg := [(2, 70000)] }); { u with nv := { u.nv with cmds := [adm] } }
def s7 : State := mc0 [(Fl.MGT_MGMT_CAP_WATTS, 60)]
def s8 : State := mc0 [(Fl.MGT_SENSOR_TEMP 11, 0x8000)]
def s9 : State := mc0 [(Fl.MGT_THERM_LEVEL, 2)]
def s10 : State := mc0 [(Fl.MGT_UPD_STATE, 1)]
def rx (slots : List (Nat × Nat)) (f : Fw) : State := mc [(Fl.MGT_UPD_STATE, 1), (Fl.MGT_UPD_SOURCE, 1)] (fun m => { m with upd := { m.upd with slots := slots }, fw := [(4, f)] })
def f4 : Fw := ⟨0, 0, 0, [(0, ⟨1, 1, 1⟩), (1, ⟨2, 2, 1⟩), (2, ⟨0, 0, 0⟩)]⟩
def s11 : State := rx [] f4
def s12 : State := rx [(4, 2)] f4
def s13 : State := { mc0 [] with pbk := { (mc0 []).pbk with mctpWait := List.range 17 } }

theorem test_ManagementMessages :
    (mctpServed s1 = true ∧ mode s1 ≠ 6 ∧ mode s1 ≠ 7 ∧ s1.pow.idleWait = none ∧ 8 ≤ 254 ∧ 254 < 255) ∧
    (mctpServed s1 = true ∧ mode s1 ≠ 6 ∧ mode s1 ≠ 7 ∧ s1.pow.idleWait = none ∧ (255 < 8 ∨ 255 ≤ 255)) ∧
    (mctpServed s1 = true ∧ mode s1 ≠ 6 ∧ mode s1 ≠ 7 ∧ s1.pow.idleWait = none ∧ (7 < 8 ∨ 255 ≤ 7)) ∧
    (mctpServed s1 = true ∧ mode s1 ≠ 6 ∧ mode s1 ≠ 7 ∧ s1.pow.idleWait = none) ∧
    (mctpServed s1 = true ∧ mode s1 ≠ 6 ∧ mode s1 ≠ 7 ∧ s1.pow.idleWait = none ∧ 0 < 5 ∧ 0 ≠ 2) ∧
    (mctpServed s1 = true ∧ mode s1 ≠ 6 ∧ mode s1 ≠ 7 ∧ s1.pow.idleWait = none ∧ 4 < 5 ∧ 4 ≠ 2) ∧
    (mctpServed s1 = true ∧ mode s1 ≠ 6 ∧ mode s1 ≠ 7 ∧ s1.pow.idleWait = none ∧ 5 ≤ 5) ∧
    (mctpServed s2 = true ∧ mode s2 ≠ 6 ∧ mode s2 ≠ 7 ∧ s2.pow.idleWait = none) := by
  refine ⟨?_, ?_, ?_, ?_, ?_, ?_, ?_, ?_⟩ <;> decide +kernel

theorem test_ManagementMessages_2 :
    (mctpServed s1 = true ∧ mode s1 ≠ 6 ∧ mode s1 ≠ 7 ∧ s1.pow.idleWait = none ∧ s1.nv.ctrls = [(1,
      { func := ctl.func, fabric := ctl.fabric, portB := ctl.portB, pf := true, online := ctl.online, en := ctl.en, rdy := ctl.rdy, shst := ctl.shst, shnNormal := ctl.shnNormal, ckpt := ctl.ckpt, ams := ctl.ams, mps := ctl.mps, reserve := ctl.reserve, ownUsed := ctl.ownUsed, paused := ctl.paused, setPs := ctl.setPs, reqPs := ctl.reqPs, apst := ctl.apst, aers := ctl.aers, feats := ctl.feats, sqs := ctl.sqs, cqs := ctl.cqs, weight := ctl.weight, deficit := ctl.deficit, sqLast := ctl.sqLast, wrr := ctl.wrr, selfTest := ctl.selfTest, errors := ctl.errors : Ctrl })]) ∧
    (mctpServed s1 = true ∧ mode s1 ≠ 6 ∧ mode s1 ≠ 7 ∧ s1.pow.idleWait = none ∧ (3 = 1 ∨ 3 = 2 ∨ 3 = 3 ∧ 64 ≤ 64 ∧ 64 ≤ 256)) ∧
    (mctpServed s1 = true ∧ mode s1 ≠ 6 ∧ mode s1 ≠ 7 ∧ s1.pow.idleWait = none ∧ (3 = 0 ∨ 3 < 3 ∨ 3 = 3 ∧ (257 < 64 ∨ 256 < 257))) ∧
    (mctpServed s1 = true ∧ mode s1 ≠ 6 ∧ mode s1 ≠ 7 ∧ s1.pow.idleWait = none ∧ (4 = 0 ∨ 3 < 4 ∨ 4 = 3 ∧ (1 < 64 ∨ 256 < 1))) ∧
    (mctpServed s3 = true ∧ mode s3 ≠ 6 ∧ mode s3 ≠ 7 ∧ s3.pow.idleWait = none ∧ 1 ≤ 2 ∧ 2 ≤ 3 ∧ SMap.find s3.mgt.cfg 2 = some
      70000) ∧
    (mctpServed s1 = true ∧ mode s1 ≠ 6 ∧ mode s1 ≠ 7 ∧ s1.pow.idleWait = none ∧ (4 = 0 ∨ 3 < 4)) ∧
    (mctpServed s4 = true ∧ mode s4 ≠ 6 ∧ mode s4 ≠ 7 ∧ s4.pow.idleWait = none ∧ 200 + 56 ≤ 256) ∧
    (mctpServed s1 = true ∧ mode s1 ≠ 6 ∧ mode s1 ≠ 7 ∧ s1.pow.idleWait = none ∧ 256 < 200 + 57) := by
  refine ⟨?_, ?_, ?_, ?_, ?_, ?_, ?_, ?_⟩ <;> decide +kernel

theorem test_ManagementMessages_3 :
    (mctpServed s4 = true ∧ mode s4 ≠ 6 ∧ mode s4 ≠ 7 ∧ s4.pow.idleWait = none ∧ 254 + List.length [1, 2] ≤ 256) ∧
    (mctpServed s1 = true ∧ mode s1 ≠ 6 ∧ mode s1 ≠ 7 ∧ s1.pow.idleWait = none ∧ 256 < 255 + List.length [1, 2]) ∧
    (mctpServed s1 = true ∧ mode s1 ≠ 6 ∧ mode s1 ≠ 7 ∧ s1.pow.idleWait = none ∧ mode s1 ≠ 8 ∧ pdOn 7 s1 = true ∧ activating
      s1 = false) ∧
    (mctpServed s1 = true ∧ mode s1 ≠ 6 ∧ mode s1 ≠ 7 ∧ s1.pow.idleWait = none ∧ mode s1 = 4 ∧ fget Fl.AON_MODE_TRANS s1 = 0 ∧
      s1.pow.stopping = none ∧ s1.pow.afterSeal ≠ AfterSeal.resetOff ∧ activating s1 = false) ∧
    (mctpServed s5 = true ∧ mode s5 ≠ 6 ∧ mode s5 ≠ 7 ∧ s5.pow.idleWait = none ∧ mode s5 = 2) ∧
    (mctpServed s5 = true ∧ mode s5 ≠ 6 ∧ mode s5 ≠ 7 ∧ s5.pow.idleWait = none ∧ mode s5 = 2 ∧ mayWake s5 = true) ∧
    (mctpServed stay = true ∧ mode stay ≠ 6 ∧ mode stay ≠ 7 ∧ stay.pow.idleWait = none ∧ mode stay = 2 ∧ mayWake stay = false) ∧
    (mctpServed s1 = true ∧ mode s1 ≠ 6 ∧ mode s1 ≠ 7 ∧ s1.pow.idleWait = none ∧ 91 ≠ 90) := by
  refine ⟨?_, ?_, ?_, ?_, ?_, ?_, ?_, ?_⟩ <;> decide +kernel

theorem test_ManagementMessages_4 :
    (mctpServed s5 = true ∧ mode s5 ≠ 6 ∧ mode s5 ≠ 7 ∧ s5.pow.idleWait = none ∧ 91 ≠ 90) ∧
    (mctpServed s5 = true ∧ mode s5 ≠ 6 ∧ mode s5 ≠ 7 ∧ s5.pow.idleWait = none ∧ 0 ≠ 90) ∧
    (mctpServed s1 = true ∧ mode s1 ≠ 6 ∧ mode s1 ≠ 7 ∧ s1.pow.idleWait = none ∧ mode s1 ≠ 2) ∧
    (mctpServed s6 = true ∧ mode s6 ≠ 6 ∧ mode s6 ≠ 7 ∧ s6.pow.idleWait = none ∧ (mode s6 = 2 ∨ mode s6 = 3 ∨ ∀ e ∈ pfControllers
      s6, e.1 ≠ 1)) ∧
    (mctpServed s1 = true ∧ mode s1 ≠ 6 ∧ mode s1 ≠ 7 ∧ s1.pow.idleWait = none ∧ (mode s1 = 2 ∨ mode s1 = 3 ∨ ∀ e ∈ pfControllers
      s1, e.1 ≠ 2)) ∧
    (mctpServed full = true ∧ mode full ≠ 6 ∧ mode full ≠ 7 ∧ full.pow.idleWait = none ∧ (1,
      { func := ctl.func, fabric := ctl.fabric, portB := ctl.portB, pf := true, online := ctl.online, en := ctl.en, rdy := ctl.rdy, shst := ctl.shst, shnNormal := ctl.shnNormal, ckpt := ctl.ckpt, ams := ctl.ams, mps := ctl.mps, reserve := ctl.reserve, ownUsed := 4, paused := ctl.paused, setPs := ctl.setPs, reqPs := ctl.reqPs, apst := ctl.apst, aers := ctl.aers, feats := ctl.feats, sqs := ctl.sqs, cqs := ctl.cqs, weight := ctl.weight, deficit := ctl.deficit, sqLast := ctl.sqLast, wrr := ctl.wrr, selfTest := ctl.selfTest, errors := ctl.errors : Ctrl })
      ∈ pfControllers full ∧ mode full ≠ 2 ∧ mode full ≠ 3 ∧ sqAt (1,
      { func := ctl.func, fabric := ctl.fabric, portB := ctl.portB, pf := true, online := ctl.online, en := ctl.en, rdy := ctl.rdy, shst := ctl.shst, shnNormal := ctl.shnNormal, ckpt := ctl.ckpt, ams := ctl.ams, mps := ctl.mps, reserve := ctl.reserve, ownUsed := 4, paused := ctl.paused, setPs := ctl.setPs, reqPs := ctl.reqPs, apst := ctl.apst, aers := ctl.aers, feats := ctl.feats, sqs := ctl.sqs, cqs := ctl.cqs, weight := ctl.weight, deficit := ctl.deficit, sqLast := ctl.sqLast, wrr := ctl.wrr, selfTest := ctl.selfTest, errors := ctl.errors : Ctrl }).1
      65535 full = none ∧ tagFor (1,
      { func := ctl.func, fabric := ctl.fabric, portB := ctl.portB, pf := true, online := ctl.online, en := ctl.en, rdy := ctl.rdy, shst := ctl.shst, shnNormal := ctl.shnNormal, ckpt := ctl.ckpt, ams := ctl.ams, mps := ctl.mps, reserve := ctl.reserve, ownUsed := 4, paused := ctl.paused, setPs := ctl.setPs, reqPs := ctl.reqPs, apst := ctl.apst, aers := ctl.aers, feats := ctl.feats, sqs := ctl.sqs, cqs := ctl.cqs, weight := ctl.weight, deficit := ctl.deficit, sqLast := ctl.sqLast, wrr := ctl.wrr, selfTest := ctl.selfTest, errors := ctl.errors : Ctrl }).1
      full = none) ∧
    (mctpServed s1 = true ∧ mode s1 ≠ 6 ∧ mode s1 ≠ 7 ∧ s1.pow.idleWait = none ∧ (1,
      { func := ctl.func, fabric := ctl.fabric, portB := ctl.portB, pf := true, online := ctl.online, en := ctl.en, rdy := ctl.rdy, shst := ctl.shst, shnNormal := ctl.shnNormal, ckpt := ctl.ckpt, ams := ctl.ams, mps := ctl.mps, reserve := ctl.reserve, ownUsed := ctl.ownUsed, paused := ctl.paused, setPs := ctl.setPs, reqPs := ctl.reqPs, apst := ctl.apst, aers := ctl.aers, feats := ctl.feats, sqs := ctl.sqs, cqs := ctl.cqs, weight := ctl.weight, deficit := ctl.deficit, sqLast := ctl.sqLast, wrr := ctl.wrr, selfTest := ctl.selfTest, errors := ctl.errors : Ctrl })
      ∈ pfControllers s1 ∧ mode s1 ≠ 2 ∧ mode s1 ≠ 3 ∧ sqAt (1,
      { func := ctl.func, fabric := ctl.fabric, portB := ctl.portB, pf := true, online := ctl.online, en := ctl.en, rdy := ctl.rdy, shst := ctl.shst, shnNormal := ctl.shnNormal, ckpt := ctl.ckpt, ams := ctl.ams, mps := ctl.mps, reserve := ctl.reserve, ownUsed := ctl.ownUsed, paused := ctl.paused, setPs := ctl.setPs, reqPs := ctl.reqPs, apst := ctl.apst, aers := ctl.aers, feats := ctl.feats, sqs := ctl.sqs, cqs := ctl.cqs, weight := ctl.weight, deficit := ctl.deficit, sqLast := ctl.sqLast, wrr := ctl.wrr, selfTest := ctl.selfTest, errors := ctl.errors : Ctrl }).1
      65535 s1 = none ∧ tagFor (1,
      { func := ctl.func, fabric := ctl.fabric, portB := ctl.portB, pf := true, online := ctl.online, en := ctl.en, rdy := ctl.rdy, shst := ctl.shst, shnNormal := ctl.shnNormal, ckpt := ctl.ckpt, ams := ctl.ams, mps := ctl.mps, reserve := ctl.reserve, ownUsed := ctl.ownUsed, paused := ctl.paused, setPs := ctl.setPs, reqPs := ctl.reqPs, apst := ctl.apst, aers := ctl.aers, feats := ctl.feats, sqs := ctl.sqs, cqs := ctl.cqs, weight := ctl.weight, deficit := ctl.deficit, sqLast := ctl.sqLast, wrr := ctl.wrr, selfTest := ctl.selfTest, errors := ctl.errors : Ctrl }).1
      s1 ≠ none) ∧
    (AdminReady 7 adm
      { func := ctl.func, fabric := ctl.fabric, portB := ctl.portB, pf := true, online := ctl.online, en := ctl.en, rdy := ctl.rdy, shst := ctl.shst, shnNormal := ctl.shnNormal, ckpt := ctl.ckpt, ams := ctl.ams, mps := ctl.mps, reserve := ctl.reserve, ownUsed := ctl.ownUsed, paused := ctl.paused, setPs := ctl.setPs, reqPs := ctl.reqPs, apst := ctl.apst, aers := ctl.aers, feats := ctl.feats, sqs := ctl.sqs, cqs := ctl.cqs, weight := ctl.weight, deficit := ctl.deficit, sqLast := ctl.sqLast, wrr := ctl.wrr, selfTest := ctl.selfTest, errors := ctl.errors : Ctrl }
      ma ∧ mctpServed ma = true ∧ mode ma ≠ 6 ∧ mode ma ≠ 7 ∧ ma.pow.idleWait = none ∧ (2 = 1 ∨ 2 = 2)) := ⟨by decide +kernel, by decide +kernel, by decide +kernel, by decide +kernel, by decide +kernel, by decide +kernel, by decide +kernel,
    ⟨adminReady_of (by decide +kernel) (by decide +kernel), by decide +kernel⟩⟩

theorem test_ManagementMessages_5 :
    (AdminReady 7 adm
      { func := ctl.func, fabric := ctl.fabric, portB := ctl.portB, pf := true, online := ctl.online, en := ctl.en, rdy := ctl.rdy, shst := ctl.shst, shnNormal := ctl.shnNormal, ckpt := ctl.ckpt, ams := ctl.ams, mps := ctl.mps, reserve := ctl.reserve, ownUsed := ctl.ownUsed, paused := ctl.paused, setPs := ctl.setPs, reqPs := ctl.reqPs, apst := ctl.apst, aers := ctl.aers, feats := ctl.feats, sqs := ctl.sqs, cqs := ctl.cqs, weight := ctl.weight, deficit := ctl.deficit, sqLast := ctl.sqLast, wrr := ctl.wrr, selfTest := ctl.selfTest, errors := ctl.errors : Ctrl }
      ma ∧ mctpServed ma = true ∧ mode ma ≠ 6 ∧ mode ma ≠ 7 ∧ ma.pow.idleWait = none ∧ (4 = 0 ∨ 3 < 4)) ∧
    (AdminReady 7 adm
      { func := ctl.func, fabric := ctl.fabric, portB := ctl.portB, pf := true, online := ctl.online, en := ctl.en, rdy := ctl.rdy, shst := ctl.shst, shnNormal := ctl.shnNormal, ckpt := ctl.ckpt, ams := ctl.ams, mps := ctl.mps, reserve := ctl.reserve, ownUsed := ctl.ownUsed, paused := ctl.paused, setPs := ctl.setPs, reqPs := ctl.reqPs, apst := ctl.apst, aers := ctl.aers, feats := ctl.feats, sqs := ctl.sqs, cqs := ctl.cqs, weight := ctl.weight, deficit := ctl.deficit, sqLast := ctl.sqLast, wrr := ctl.wrr, selfTest := ctl.selfTest, errors := ctl.errors : Ctrl }
      ma ∧ mctpServed ma = true ∧ mode ma ≠ 6 ∧ mode ma ≠ 7 ∧ ma.pow.idleWait = none) ∧
    (AdminReady 7 adm
      { func := ctl.func, fabric := ctl.fabric, portB := ctl.portB, pf := true, online := ctl.online, en := ctl.en, rdy := ctl.rdy, shst := ctl.shst, shnNormal := ctl.shnNormal, ckpt := ctl.ckpt, ams := ctl.ams, mps := ctl.mps, reserve := ctl.reserve, ownUsed := ctl.ownUsed, paused := ctl.paused, setPs := ctl.setPs, reqPs := ctl.reqPs, apst := ctl.apst, aers := ctl.aers, feats := ctl.feats, sqs := ctl.sqs, cqs := ctl.cqs, weight := ctl.weight, deficit := ctl.deficit, sqLast := ctl.sqLast, wrr := ctl.wrr, selfTest := ctl.selfTest, errors := ctl.errors : Ctrl }
      ma ∧ mctpServed ma = true ∧ mode ma ≠ 6 ∧ mode ma ≠ 7 ∧ ma.pow.idleWait = none ∧ 1 ≤ 2 ∧ 2 ≤ 3 ∧ SMap.find ma.mgt.cfg 2 = some 70000) ∧
    (AdminReady 7 adm
      { func := ctl.func, fabric := ctl.fabric, portB := ctl.portB, pf := true, online := ctl.online, en := ctl.en, rdy := ctl.rdy, shst := ctl.shst, shnNormal := ctl.shnNormal, ckpt := ctl.ckpt, ams := ctl.ams, mps := ctl.mps, reserve := ctl.reserve, ownUsed := ctl.ownUsed, paused := ctl.paused, setPs := ctl.setPs, reqPs := ctl.reqPs, apst := ctl.apst, aers := ctl.aers, feats := ctl.feats, sqs := ctl.sqs, cqs := ctl.cqs, weight := ctl.weight, deficit := ctl.deficit, sqLast := ctl.sqLast, wrr := ctl.wrr, selfTest := ctl.selfTest, errors := ctl.errors : Ctrl }
      ma ∧ mctpServed ma = true ∧ mode ma ≠ 6 ∧ mode ma ≠ 7 ∧ ma.pow.idleWait = none ∧ 256 < 200 + 57) ∧
    (mctpServed s1 = true ∧ mode s1 ≠ 6 ∧ mode s1 ≠ 7 ∧ s1.pow.idleWait = none ∧ (25 = 0 ∨ 25 ≤ 25 ∧ 25 ≤ 125)) ∧
    (mctpServed s7 = true ∧ mode s7 ≠ 6 ∧ mode s7 ≠ 7 ∧ s7.pow.idleWait = none ∧ (0 = 0 ∨ 25 ≤ 0 ∧ 0 ≤ 125)) ∧
    (mctpServed s1 = true ∧ mode s1 ≠ 6 ∧ mode s1 ≠ 7 ∧ s1.pow.idleWait = none ∧ 0 < 126 ∧ (126 < 25 ∨ 125 < 126)) ∧
    (mctpServed s1 = true ∧ mode s1 ≠ 6 ∧ mode s1 ≠ 7 ∧ s1.pow.idleWait = none ∧ 0 < 24 ∧ (24 < 25 ∨ 125 < 24)) := ⟨⟨adminReady_of (by decide +kernel) (by decide +kernel), by decide +kernel⟩, ⟨adminReady_of (by decide +kernel) (by decide +kernel),
    by decide +kernel⟩, ⟨adminReady_of (by decide +kernel) (by decide +kernel), by decide +kernel⟩, ⟨adminReady_of (by decide +kernel)
    (by decide +kernel), by decide +kernel⟩, by decide +kernel, by decide +kernel, by decide +kernel, by decide +kernel⟩

theorem test_ManagementMessages_6 :
    (mctpServed s8 = true ∧ mode s8 ≠ 6 ∧ mode s8 ≠ 7 ∧ s8.pow.idleWait = none ∧ 11 < 12) ∧
    (mctpServed s9 = true ∧ mode s9 ≠ 6 ∧ mode s9 ≠ 7 ∧ s9.pow.idleWait = none) ∧
    (mctpServed s1 = true ∧ mode s1 ≠ 6 ∧ mode s1 ≠ 7 ∧ s1.pow.idleWait = none ∧ 12 < 13) ∧
    (mctpServed s10 = true ∧ mode s10 ≠ 6 ∧ mode s10 ≠ 7 ∧ s10.pow.idleWait = none ∧ fget Fl.MGT_UPD_STATE s10 ≠ 0) ∧
    (mctpServed s1 = true ∧ mode s1 ≠ 6 ∧ mode s1 ≠ 7 ∧ s1.pow.idleWait = none ∧ fget Fl.MGT_UPD_STATE s1 = 0) ∧
    (mctpServed s1 = true ∧ mode s1 ≠ 6 ∧ mode s1 ≠ 7 ∧ s1.pow.idleWait = none ∧ pldmReceiving s1 = false) ∧
    (mctpServed s11 = true ∧ mode s11 ≠ 6 ∧ mode s11 ≠ 7 ∧ s11.pow.idleWait = none ∧ pldmReceiving s11 = true ∧ 1 ≤
      { comp := 4, version := 5, good := true : FwImage }.comp ∧ { comp := 4, version := 5, good := true : FwImage }.comp ≤ 5 ∧
      { comp := 4, version := 5, good := true : FwImage }.good = true ∧ fwTop { comp := 4, version := 5, good := true : FwImage }.comp s11 <
      4294967295 ∧ (∃ k < 3, k ≠ (fwAt { comp := 4, version := 5, good := true : FwImage }.comp s11).active ∧ (fwSlot
      { comp := 4, version := 5, good := true : FwImage }.comp k s11).gen ≠ fwTop { comp := 4, version := 5, good := true : FwImage }.comp
      s11)) ∧
    (mctpServed s11 = true ∧ mode s11 ≠ 6 ∧ mode s11 ≠ 7 ∧ s11.pow.idleWait = none ∧ pldmReceiving s11 = true ∧ 1 ≤
      { comp := 4, version := 5, good := false : FwImage }.comp ∧ { comp := 4, version := 5, good := false : FwImage }.comp ≤ 5 ∧
      ({ comp := 4, version := 5, good := false : FwImage }.good = false ∨ 4294967295 ≤ fwTop
      { comp := 4, version := 5, good := false : FwImage }.comp s11)) := by
  refine ⟨?_, ?_, ?_, ?_, ?_, ?_, ?_, ?_⟩ <;> decide +kernel

theorem test_ManagementMessages_7 :
    (mctpServed s12 = true ∧ mode s12 ≠ 6 ∧ mode s12 ≠ 7 ∧ s12.pow.idleWait = none ∧ pldmReceiving s12 = true ∧ s12.mgt.upd.tag =
      none ∧ s12.mgt.upd.slots = [(4, 2)] ∧ 1 ≤ 4 ∧ 4 ≤ 5 ∧ (false = false ∨ serving s12 = false)) ∧
    (mctpServed s12 = true ∧ mode s12 ≠ 6 ∧ mode s12 ≠ 7 ∧ s12.pow.idleWait = none ∧ pldmReceiving s12 = true ∧ s12.mgt.upd.tag =
      none ∧ s12.mgt.upd.slots = [(4, 2)] ∧ 1 ≤ 4 ∧ 4 ≤ 5 ∧ serving s12 = true ∧ updUnits 4 s12 ≠ []) ∧
    (mctpServed s1 = true ∧ mode s1 ≠ 6 ∧ mode s1 ≠ 7 ∧ s1.pow.idleWait = none ∧ s1.pbk.mctpWait = []) ∧
    (mctpServed s13 = true ∧ mode s13 ≠ 6 ∧ mode s13 ≠ 7 ∧ s13.pow.idleWait = none ∧ s13.pbk.mctpWait ≠ []) := by
  refine ⟨?_, ?_, ?_, ?_⟩ <;> decide +kernel

end Mi

namespace Fw

def adm : Cmd := { cmd 7 .admin 0 0 .fetched with sq := 0 }
/-- A module with an admin command fetched and this management state. -/
def fwS (l : List (Fld × Nat)) (f : Mgt → Mgt) : State :=
  let u := sets ((Fl.HIF_FETCH_CTRL_HOLD, 0) :: l) (io [adm])
  { u with mgt := f u.mgt }
def s1 : State := fwS [] (fun m => { m with pieces := [(0, 16), (24, 8)] })
def s2 : State := fwS [] id
def s3 : State := fwS [(Fl.MGT_UPD_STATE, 1), (Fl.MGT_UPD_SOURCE, 1)] id
def s4 : State := fwS [(Fl.MGT_UPD_STATE, 3)] id
def i4 (g : Bool) : FwImage := ⟨4, 77, g⟩
def s5 : State := fwS [(Fl.MGT_UPD_STATE, 2)] id
def s6 : State := fwS [(Fl.AON_MODE_CUR, 10)] id
def s7 : State := fwS [] (fun m => { m with fw := [(4, ⟨0, 0, 0, [(0, ⟨1, 0xFFFFFFFF, 1⟩)]⟩)] })
def s8 : State := fwS [] (fun m => { m with fw := [(4, ⟨0, 0, 0, [(0, ⟨1, 1, 1⟩), (2, ⟨2, 2, 1⟩)]⟩)] })
def act (c : Nat) (us : List Nat) (sw : Bool) : State :=
  fwS [(Fl.MGT_UPD_STATE, 3), (Fl.MGT_UPD_COMPONENT, c), (Fl.HIF_FETCH_CTRL_HOLD, if sw then 1 else 0)]
    (fun m => { m with upd := { m.upd with todo := [c], slots := [(c, 2)], units := us, switching := sw, tag := some 7 }, fw := [(c, ⟨0, 2, 0, [(0, ⟨1, 1, 1⟩), (2, ⟨2, 2, 1⟩)]⟩)] })
def s9 : State := act 2 [0] false
def s10 : State := act 2 [0] true
def s11 : State := { act 1 [0] false with cores := [(76, { Core.fresh with pc := 5 })] }
def s12 : State := act 1 [0] true
def s13 : State := act 5 [0] false
def s14 : State := act 5 [0] true
def uc (st : Nat) (us : List Nat) (c : Chan) : State :=
  let u := sets [(Fl.CHE_UCODE_STATE 31, st)] (act 4 us false)
  { u with media := ⟨[(31, c)], []⟩ }
def s15 : State := uc 0 [31] Chan.fresh
def s16 : State := uc 3 [31, 30] Chan.fresh
def s17 : State := uc 1 [31] Chan.fresh
def s18 : State := uc 2 [31] { Chan.fresh with dies := [(1, mkOp .read .unit 1 1 2 7 0)] }
def s19 : State := uc 2 [31] Chan.fresh
def s20 : State := uc 2 [31, 30] Chan.fresh
def fl (l : List (Fld × Nat)) (op : Option CflOp) : State := fwS ([(Fl.CFL_SPARES_FREE, 64)] ++ l) (fun m => { m with op := op, flash := [(0x201, 5), (0x1FFFFFF, 7)], storeA := ⟨4, 1, 0x100001, true⟩, storeB := ⟨5, 0, 0x100001, true⟩ })
def s21 : State := fl [] none
def s22 : State := fl [(Fl.CFL_STATUS_SEAL, 1)] none
def pg : Option CflOp := some (.program 0x40000 5)
def s23 : State := fl [(Fl.CFL_STATUS_BUSY, 1)] pg
def s24 : State := fl [(Fl.CFL_STATUS_BUSY, 1), (Fl.CFL_SPARES_FREE, 0)] pg
def s25 : State := fl [(Fl.CFL_STATUS_BUSY, 1)] (some (.erase 0 64))
def s26 : State := fl [(Fl.CFL_SUSP_CFG_MAX, 3), (Fl.CFL_STATUS_SUSP_COUNT, 3)] (some (.erase 0xFFC0 64))
def s27 : State := fl [(Fl.CFL_SUSP_CFG_MAX, 3), (Fl.CFL_STATUS_SUSP_COUNT, 2)] (some (.erase 0xFFC0 64))
def s28 : State := fl [] (some (.erase 0 64))
def s29 : State := fl [] pg
def owed : State := let u := fl [] none; { u with mgt := { u.mgt with eraseAgain := [0xFFFF] } }
def s30 : State := fl [(Fl.CFL_STATUS_SEAL, 1)] pg
def s31 : State := { fl [] pg with mgt := { (fl [] pg).mgt with storeA := ⟨5, 0, 0x100000, true⟩ } }

theorem test_FirmwareAndFlash :
    (PcieReady 7 adm ctl s1 ∧ s1.mgt.upd.tag = none ∧ 0 < 8 ∧ 4 * 8 ≤ 2097152 ∧ otherUpdate s1 = false ∧ (∀ p ∈ s1.mgt.pieces, 16 + 8 ≤
      p.1 ∨ p.1 + p.2 ≤ 16)) ∧
    (PcieReady 7 adm ctl s1 ∧ s1.mgt.upd.tag = none ∧ 0 < 9 ∧ 4 * 9 ≤ 2097152 ∧ otherUpdate s1 = false ∧ (∃ p ∈ s1.mgt.pieces, 16 < p.1
      + p.2 ∧ p.1 < 16 + 9)) ∧
    (PcieReady 7 adm ctl s2 ∧ s2.mgt.upd.tag = none ∧ (0 = 0 ∨ 2097152 < 4 * 0)) ∧
    (PcieReady 7 adm ctl s2 ∧ s2.mgt.upd.tag = none ∧ (524289 = 0 ∨ 2097152 < 4 * 524289)) ∧
    (PcieReady 7 adm ctl s3 ∧ s3.mgt.upd.tag = none ∧ 0 < 524288 ∧ 4 * 524288 ≤ 2097152 ∧ otherUpdate s3 = true) ∧
    (PcieReady 7 adm ctl s4 ∧ s4.mgt.upd.tag = none ∧ 0 < 524288 ∧ 4 * 524288 ≤ 2097152 ∧ otherUpdate s4 = true) ∧
    (PcieReady 7 adm ctl s2 ∧ s2.mgt.upd.tag = none ∧ 3 < 4) ∧
    (PcieReady 7 adm ctl s5 ∧ s5.mgt.upd.tag = none ∧ 3 ≤ 3 ∧ (otherUpdate s5 = true ∨ commitProhibited s5 = true)) := ⟨⟨⟨adminReady_of (by decide +kernel) (by decide +kernel), by decide +kernel⟩, by decide +kernel⟩, ⟨⟨adminReady_of (by decide +kernel)
    (by decide +kernel), by decide +kernel⟩, by decide +kernel⟩, ⟨⟨adminReady_of (by decide +kernel) (by decide +kernel), by decide +kernel⟩,
    by decide +kernel⟩, ⟨⟨adminReady_of (by decide +kernel) (by decide +kernel), by decide +kernel⟩, by decide +kernel⟩, ⟨⟨adminReady_of
    (by decide +kernel) (by decide +kernel), by decide +kernel⟩, by decide +kernel⟩, ⟨⟨adminReady_of (by decide +kernel) (by decide +kernel),
    by decide +kernel⟩, by decide +kernel⟩, ⟨⟨adminReady_of (by decide +kernel) (by decide +kernel), by decide +kernel⟩, by decide +kernel⟩,
    ⟨⟨adminReady_of (by decide +kernel) (by decide +kernel), by decide +kernel⟩, by decide +kernel⟩⟩

theorem test_FirmwareAndFlash_2 :
    (PcieReady 7 adm ctl s6 ∧ s6.mgt.upd.tag = none ∧ 3 ≤ 3 ∧ (otherUpdate s6 = true ∨ commitProhibited s6 = true)) ∧
    (PcieReady 7 adm ctl s2 ∧ s2.mgt.upd.tag = none ∧ 3 ≤ 3 ∧ otherUpdate s2 = false ∧ commitProhibited s2 = false ∧ (3 < 4 ∨ 4 = 0 ∧ 3
      ≠ 3)) ∧
    (PcieReady 7 adm ctl s2 ∧ s2.mgt.upd.tag = none ∧ 1 ≤ 3 ∧ otherUpdate s2 = false ∧ commitProhibited s2 = false ∧ (3 < 0 ∨ 0 = 0 ∧ 1
      ≠ 3)) ∧
    (PcieReady 7 adm ctl s2 ∧ s2.mgt.upd.tag = none ∧ 1 ≤ 3 ∧ otherUpdate s2 = false ∧ commitProhibited s2 = false ∧ 1 ≤ 1 ∧ 1 ≤ 3 ∧
      (fwAt (i4 true).comp s2).active = 1 - 1) ∧
    (PcieReady 7 adm ctl s2 ∧ s2.mgt.upd.tag = none ∧ 3 ≤ 3 ∧ otherUpdate s2 = false ∧ commitProhibited s2 = false ∧ 1 ≤ 2 ∧ 2 ≤ 3 ∧
      (fwAt (i4 false).comp s2).active ≠ 2 - 1 ∧ 1 ≤ (i4 false).comp ∧ (i4 false).comp ≤ 5 ∧ 3 ≠ 2 ∧ (i4 false).good = false) ∧
    (PcieReady 7 adm ctl s7 ∧ s7.mgt.upd.tag = none ∧ 0 ≤ 3 ∧ otherUpdate s7 = false ∧ commitProhibited s7 = false ∧ 1 ≤ 2 ∧ 2 ≤ 3 ∧
      (fwAt (i4 true).comp s7).active ≠ 2 - 1 ∧ 1 ≤ (i4 true).comp ∧ (i4 true).comp ≤ 5 ∧ 0 ≠ 2 ∧ (i4 true).good = true ∧ 4294967295 ≤ fwTop (i4
      true).comp s7) ∧
    (PcieReady 7 adm ctl s2 ∧ s2.mgt.upd.tag = none ∧ 0 ≤ 3 ∧ otherUpdate s2 = false ∧ commitProhibited s2 = false ∧ 1 ≤ 2 ∧ 2 ≤ 3 ∧
      (fwAt (i4 true).comp s2).active ≠ 2 - 1 ∧ 1 ≤ (i4 true).comp ∧ (i4 true).comp ≤ 5 ∧ (i4 true).good = true ∧ fwTop (i4 true).comp s2 <
      4294967295 ∧ 0 = 0) ∧
    (PcieReady 7 adm ctl s2 ∧ s2.mgt.upd.tag = none ∧ 1 ≤ 3 ∧ otherUpdate s2 = false ∧ commitProhibited s2 = false ∧ 1 ≤ 3 ∧ 3 ≤ 3 ∧
      (fwAt (i4 true).comp s2).active ≠ 3 - 1 ∧ 1 ≤ (i4 true).comp ∧ (i4 true).comp ≤ 5 ∧ (i4 true).good = true ∧ fwTop (i4 true).comp s2 <
      4294967295 ∧ 1 = 1) := ⟨⟨⟨adminReady_of (by decide +kernel) (by decide +kernel), by decide +kernel⟩, by decide +kernel⟩, ⟨⟨adminReady_of (by decide +kernel)
    (by decide +kernel), by decide +kernel⟩, by decide +kernel⟩, ⟨⟨adminReady_of (by decide +kernel) (by decide +kernel), by decide +kernel⟩,
    by decide +kernel⟩, ⟨⟨adminReady_of (by decide +kernel) (by decide +kernel), by decide +kernel⟩, by decide +kernel⟩, ⟨⟨adminReady_of
    (by decide +kernel) (by decide +kernel), by decide +kernel⟩, by decide +kernel⟩, ⟨⟨adminReady_of (by decide +kernel) (by decide +kernel),
    by decide +kernel⟩, by decide +kernel⟩, ⟨⟨adminReady_of (by decide +kernel) (by decide +kernel), by decide +kernel⟩, by decide +kernel⟩,
    ⟨⟨adminReady_of (by decide +kernel) (by decide +kernel), by decide +kernel⟩, by decide +kernel⟩⟩

theorem test_FirmwareAndFlash_3 :
    (PcieReady 7 adm ctl s2 ∧ s2.mgt.upd.tag = none ∧ 3 ≤ 3 ∧ otherUpdate s2 = false ∧ commitProhibited s2 = false ∧ 1 ≤ 3 ∧ 3 ≤ 3 ∧
      (fwAt (i4 true).comp s2).active ≠ 3 - 1 ∧ 1 ≤ (i4 true).comp ∧ (i4 true).comp ≤ 5 ∧ (i4 true).good = true ∧ fwTop (i4 true).comp s2 <
      4294967295 ∧ 3 = 3 ∧ updUnits (i4 true).comp s2 ≠ []) ∧
    (PcieReady 7 adm ctl s8 ∧ s8.mgt.upd.tag = none ∧ 2 ≤ 3 ∧ otherUpdate s8 = false ∧ commitProhibited s8 = false ∧ 1 ≤ 3 ∧ 3 ≤ 3 ∧
      (fwAt (i4 true).comp s8).active ≠ 3 - 1 ∧ 1 ≤ (i4 true).comp ∧ (i4 true).comp ≤ 5 ∧ 2 = 2 ∧ slotValid (3 - 1) (i4 true).comp s8 = true) ∧
    ((s9.mgt.upd.todo = [2] ∧ s9.mgt.upd.units = [0] ∧ s9.mgt.upd.switching = false ∧ s9.mgt.late = [])) ∧
    ((s10.mgt.upd.todo = [2] ∧ s10.mgt.upd.units = [0] ∧ s10.mgt.upd.switching = true ∧ s10.mgt.late = [])) ∧
    ((s11.mgt.upd.todo = [1] ∧ s11.mgt.upd.units = [0] ∧ s11.mgt.upd.switching = false ∧ s11.mgt.late = [])) ∧
    ((s12.mgt.upd.todo = [1] ∧ s12.mgt.upd.units = [0] ∧ s12.mgt.upd.switching = true ∧ s12.mgt.late = [])) ∧
    ((s13.mgt.upd.todo = [5] ∧ s13.mgt.upd.units = [0] ∧ s13.mgt.upd.switching = false ∧ s13.mgt.late = [])) ∧
    ((s14.mgt.upd.todo = [5] ∧ s14.mgt.upd.units = [0] ∧ s14.mgt.upd.switching = true ∧ s14.mgt.late = [])) := ⟨⟨⟨adminReady_of (by decide +kernel) (by decide +kernel), by decide +kernel⟩, by decide +kernel⟩, ⟨⟨adminReady_of (by decide +kernel)
    (by decide +kernel), by decide +kernel⟩, by decide +kernel⟩, by decide +kernel, by decide +kernel, by decide +kernel, by decide +kernel,
    by decide +kernel, by decide +kernel⟩

theorem test_FirmwareAndFlash_4 :
    (s2.mgt.upd.todo = []) ∧
    (s15.mgt.upd.todo = [4] ∧ s15.mgt.late = [] ∧ List.head? s15.mgt.upd.units = some 31 ∧ chanUp 31 s15 = true ∧ (fget
      (Fl.CHE_UCODE_STATE 31) s15 = 0 ∨ fget (Fl.CHE_UCODE_STATE 31) s15 = 3)) ∧
    (s16.mgt.upd.todo = [4] ∧ s16.mgt.late = [] ∧ List.head? s16.mgt.upd.units = some 31 ∧ chanUp 31 s16 = true ∧ (fget
      (Fl.CHE_UCODE_STATE 31) s16 = 0 ∨ fget (Fl.CHE_UCODE_STATE 31) s16 = 3)) ∧
    (s17.mgt.upd.todo = [4] ∧ s17.mgt.late = [] ∧ List.head? s17.mgt.upd.units = some 31 ∧ chanUp 31 s17 = true ∧ fget
      (Fl.CHE_UCODE_STATE 31) s17 = 1 ∧ (chanAt 31 s17).queue = [] ∧ (chanAt 31 s17).susp = []) ∧
    (s18.mgt.upd.todo = [4] ∧ s18.mgt.late = [] ∧ List.head? s18.mgt.upd.units = some 31 ∧ chanUp 31 s18 = true ∧ fget
      (Fl.CHE_UCODE_STATE 31) s18 = 2 ∧ (chanAt 31 s18).dies ≠ [] ∧ (chanAt 31 s18).susp = []) ∧
    (s19.mgt.upd.todo = [4] ∧ s19.mgt.late = [] ∧ chanUp 31 s19 = true ∧ fget (Fl.CHE_UCODE_STATE 31) s19 = 2 ∧ (chanAt 31 s19).dies
      = [] ∧ (chanAt 31 s19).susp = [] ∧ 65535 < 65536 ∧ s19.mgt.upd.units = [31]) ∧
    (s20.mgt.upd.todo = [4] ∧ s20.mgt.late = [] ∧ chanUp 31 s20 = true ∧ fget (Fl.CHE_UCODE_STATE 31) s20 = 2 ∧ (chanAt 31 s20).dies
      = [] ∧ (chanAt 31 s20).susp = [] ∧ 65535 < 65536 ∧ s20.mgt.upd.units = [31, 30] ∧ 30 ≠ 31) ∧
    (pdOn 2 s21 = true ∧ 4096 < 2 ^ 28 ∧ (16 = 16 ∨ 16 = 17) ∧ fget Fl.CFL_STATUS_BUSY s21 = 0 ∧ 0 < 256 ∧ fget Fl.CFL_STATUS_SEAL s21 = 0
      ∧ SMap.find s21.mgt.flash (4096 / 8) = none ∧ 4096 / 4096 ∉ s21.mgt.eraseAgain) := by
  refine ⟨?_, ?_, ?_, ?_, ?_, ?_, ?_, ?_⟩ <;> decide +kernel

theorem test_FirmwareAndFlash_5 :
    (pdOn 2 s21 = true ∧ 268435455 < 2 ^ 28 ∧ (16 = 16 ∨ 16 = 17) ∧ fget Fl.CFL_STATUS_BUSY s21 = 0 ∧ 0 < 256 ∧ fget Fl.CFL_STATUS_SEAL
      s21 = 0 ∧ (SMap.find s21.mgt.flash (268435455 / 8) ≠ none ∨ 268435455 / 4096 ∈ s21.mgt.eraseAgain)) ∧
    (pdOn 2 owed = true ∧ 268435448 < 2 ^ 28 ∧ (16 = 16 ∨ 16 = 17) ∧ fget Fl.CFL_STATUS_BUSY owed = 0 ∧ 0 < 256 ∧ fget Fl.CFL_STATUS_SEAL owed = 0
      ∧ (SMap.find owed.mgt.flash (268435448 / 8) ≠ none ∨ 268435448 / 4096 ∈ owed.mgt.eraseAgain)) ∧
    (pdOn 2 s21 = true ∧ 33562623 < 2 ^ 28 ∧ (17 = 16 ∨ 17 = 17) ∧ fget Fl.CFL_STATUS_BUSY s21 = 0 ∧ 0 < 256 ∧ fget Fl.CFL_STATUS_SEAL s21
      = 0) ∧
    (pdOn 2 s21 = true ∧ 33816576 < 2 ^ 28 ∧ (17 = 16 ∨ 17 = 17) ∧ fget Fl.CFL_STATUS_BUSY s21 = 0 ∧ 0 < 256 ∧ fget Fl.CFL_STATUS_SEAL s21
      = 0 ∧ 33816576 / 4096 % 64 = 0) ∧
    (pdOn 2 s21 = true ∧ 33820672 < 2 ^ 28 ∧ (17 = 16 ∨ 17 = 17) ∧ fget Fl.CFL_STATUS_BUSY s21 = 0 ∧ 0 < 256 ∧ fget Fl.CFL_STATUS_SEAL s21
      = 0 ∧ 33820672 / 4096 % 64 ≠ 0) ∧
    (pdOn 2 s21 = true ∧ 33820672 < 2 ^ 28 ∧ (17 = 16 ∨ 17 = 17) ∧ fget Fl.CFL_STATUS_BUSY s21 = 0 ∧ 104 < 256 ∧ 104 ≠ 105) ∧
    (pdOn 2 s22 = true ∧ 33820672 < 2 ^ 28 ∧ (17 = 16 ∨ 17 = 17) ∧ fget Fl.CFL_STATUS_BUSY s22 = 0 ∧ 104 < 256 ∧ fget Fl.CFL_STATUS_SEAL
      s22 = 1) ∧
    (pdOn 2 s21 = true ∧ 5 ≠ 16 ∧ 5 ≠ 17) := by
  refine ⟨?_, ?_, ?_, ?_, ?_, ?_, ?_, ?_⟩ <;> decide +kernel

theorem test_FirmwareAndFlash_6 :
    (pdOn 2 s21 = true ∧ s21.mgt.op = none) ∧
    (pdOn 2 s23 = true ∧ s23.mgt.op = some (CflOp.program 262144 5)) ∧
    (pdOn 2 s23 = true ∧ s23.mgt.op = some (CflOp.program 262144 5) ∧ 0 < fget Fl.CFL_SPARES_FREE s23) ∧
    (pdOn 2 s24 = true ∧ s24.mgt.op = some (CflOp.program 262144 5) ∧ fget Fl.CFL_SPARES_FREE s24 = 0 ∧ slotOfSector (262144 / 512) = some
      (4, 0) ∧ SMap.find (fwAt 4 s24).slots 0 = some { version := 0, gen := 1, state := 1 : FwSlot }) ∧
    (pdOn 2 s25 = true ∧ s25.mgt.op = some (CflOp.erase 0 64) ∧ 0 < 64) ∧
    (pdOn 2 s25 = true ∧ s25.mgt.op = some (CflOp.erase 0 64) ∧ 0 < 64 ∧ 0 < fget Fl.CFL_SPARES_FREE s25) ∧
    (pdOn 2 s21 = true ∧ 268435448 < 2 ^ 28 ∧ s21.mgt.op = none) ∧
    (pdOn 2 s26 = true ∧ 268435448 < 2 ^ 28 ∧ s26.mgt.op = some (CflOp.erase 65472 64) ∧ 65472 / 8192 = 268435448 / 33554432 ∧ (false = true
      ∨ fget Fl.CFL_SUSP_CFG_MAX s26 ≤ fget Fl.CFL_STATUS_SUSP_COUNT s26)) := by
  refine ⟨?_, ?_, ?_, ?_, ?_, ?_, ?_, ?_⟩ <;> decide +kernel

theorem test_FirmwareAndFlash_7 :
    (pdOn 2 s27 = true ∧ 268435448 < 2 ^ 28 ∧ s27.mgt.op = some (CflOp.erase 65472 64) ∧ 65472 / 8192 = 268435448 / 33554432 ∧ (true = true ∨
      fget Fl.CFL_SUSP_CFG_MAX s27 ≤ fget Fl.CFL_STATUS_SUSP_COUNT s27)) ∧
    (pdOn 2 s27 = true ∧ 268435448 < 2 ^ 28 ∧ s27.mgt.op = some (CflOp.erase 65472 64) ∧ 65472 / 8192 = 268435448 / 33554432 ∧ false = false
      ∧ fget Fl.CFL_STATUS_SUSP_COUNT s27 < fget Fl.CFL_SUSP_CFG_MAX s27) ∧
    (pdOn 2 s28 = true ∧ 268435448 < 2 ^ 28 ∧ s28.mgt.op = some (CflOp.erase 0 64) ∧ 0 / 8192 ≠ 268435448 / 33554432) ∧
    (pdOn 2 s29 = true ∧ 8 < 2 ^ 28 ∧ s29.mgt.op = some (CflOp.program 262144 5) ∧ 262144 / 4194304 = 8 / 33554432) ∧
    (pdOn 2 s29 = true ∧ fget Fl.CFL_STATUS_SEAL s29 = 0 ∧ 0 < 4096 ∧ 4096 ≤ 4096) ∧
    (pdOn 2 s30 = true ∧ fget Fl.CFL_STATUS_SEAL s30 = 1) ∧
    (pdOn 2 s29 = true ∧ fget Fl.CFL_STATUS_SEAL s29 = 0 ∧ 1048576 < s29.mgt.storeA.deltas) ∧
    (pdOn 2 s31 = true ∧ fget Fl.CFL_STATUS_SEAL s31 = 0 ∧ s31.mgt.storeA.deltas ≤ 1048576 ∧ 1048576 < s31.mgt.storeB.deltas) := by
  refine ⟨?_, ?_, ?_, ?_, ?_, ?_, ?_, ?_⟩ <;> decide +kernel

theorem test_FirmwareAndFlash_8 :
    pdOn 2 s2 = true ∧ fget Fl.CFL_STATUS_SEAL s2 = 0 ∧ s2.mgt.storeA.deltas ≤ 1048576 ∧ s2.mgt.storeB.deltas ≤ 1048576 := by decide +kernel

end Fw

namespace Pbk

def ev (l code src : Nat) : Ev := ⟨l, code, src, 1, [5, 6], false, false⟩
/-- The recorder with these queues, coalescing entries and RAM tier. -/
def pb (q0 q1 q2 : List Ev) (coal : List Coal) (ram : List Postmark) (l : List (Fld × Nat)) : State :=
  let u := sets l (wr Reg.PBK_NEXT_SEQ 500 (io []))
  { u with pbk := { u.pbk with q0 := q0, q1 := q1, q2 := q2, q3 := [], held0 := [], held1 := [], coal := coal, ram := ram, unread := [7, 8], toDrain := [491] } }
def s1 : State := pb [] [] [] [] [] []
def s2 : State := pb (List.replicate 256 (ev 0 1 2)) [] [] [] [] []
def s3 : State := pb [] (List.replicate 256 (ev 1 1 2)) [] [] [] []
def co (code cnt : Nat) (due : Bool) : Coal := ⟨2, code, 0x14, cnt, [1], due⟩
def s4 : State := pb [] [] [] [co 9 0 false, co 0x1480 3 false] [] []
def s5 : State := pb [] [] [] [co 9 0 false] [] []
def s6 : State := pb [] [] (List.replicate 255 (ev 2 1 2)) [co 9 0 false] [] []
def coals : List Coal := (List.range 64).map (fun i => co i 0 false)
def s7 : State := pb [] [] (List.replicate 254 (ev 2 1 2)) coals [] []
def s8 : State := pb [] [] (List.replicate 255 (ev 2 1 2)) coals [] []
def m0 (q : Nat) : Postmark := let p : Postmark := ⟨q, 1, false, false, false, 0x0284, 2, 1, 3, [1, 2], 0⟩; { p with frank := frankOf p }
def s9 : State := pb [ev 0 0x1380 0x13] [ev 1 2 3] [] [] [m0 499] []
def s10 : State := pb [] [ev 1 2 3, ev 1 4 3] [] [] [m0 499] []
def s11 : State := pb [] [] [ev 2 2 3] [co 9 4 true] [] []
def s12 : State := pb [] [] [ev 2 2 3] [co 9 0 false] [] []
def s13 : State := pb [] [] [ev 2 2 3] [co 9 4 false] [] []
def s14 : State := pb [] [] (List.replicate 255 (ev 2 1 2)) [co 9 4 false] [] []
def s15 : State := wr (Reg.PBK_SUBMIT_ARG 11 8) 77 (pb [] [] [] [] [] [(Fl.PBK_SUBMIT_HEAD_CODE 11, 0x15FF), (Fl.PBK_SUBMIT_HEAD_SOURCE 11, 0x0B15)])
def s16 : State := pb [] [] [] [] [] [(Fl.PBK_SUBMIT_HEAD_CODE 11, 0x15FF)]
def s17 : State := pb [] [] [] [] [] [(Fl.PBK_SUBMIT_HEAD_CODE 13, 0x16FF)]
def tier : List Postmark := (List.range 20).map (fun i => m0 (480 + i))
def s18 : State := pb [] [] [] [] tier []
def s19 : State := { pb [] [] [] [] tier [] with pbk := { (pb [] [] [] [] tier []).pbk with unread := [480, 497] } }
def s20 : State := pb [] [] [] [] [{ m0 480 with frank := 0 }] []
def s21 : State := pb [] [] [] [] tier [(Fl.AON_MODE_CUR, 1)]
def one (n : Nat) : State := { pb [] [] [] [] tier [] with pbk := { (pb [] [] [] [] tier []).pbk with segs := [(0, ⟨if n = 2 then .erased else .history, 5, []⟩), (1, ⟨.erased, 0, []⟩), (2, ⟨.drain, 7, []⟩), (3, ⟨.history, 4, tier⟩)] } }
def s22 : State := one 1
def s23 : State := one 2

theorem test_EventRecorder :
    (codeLane 4992 [3, 0] < 2 ∧ List.length (laneQ (codeLane 4992 [3, 0]) s1.pbk) < 256) ∧
    (codeLane 4992 [3, 0] = 0 ∧ 256 ≤ List.length s2.pbk.q0) ∧
    (codeLane 644 [3, 0] = 1 ∧ 256 ≤ List.length s3.pbk.q1) ∧
    (2 ≤ codeLane 5248 [3, 0] ∧ (∃ c ∈ s4.pbk.coal, c.lane = codeLane 5248 [3, 0] ∧ c.code = 5248 ∧ c.src = 20)) ∧
    (2 ≤ codeLane 5248 [3, 0] ∧ (¬∃ c ∈ s5.pbk.coal, c.lane = codeLane 5248 [3, 0] ∧ c.code = 5248 ∧ c.src = 20) ∧ (List.length (List.filter
      (fun c => decide (c.lane = codeLane 5248 [3, 0])) s5.pbk.coal) < 64) ∧ (List.length (List.filter (fun x => decide (x.drop = false)) (laneQ
      (codeLane 5248 [3, 0]) s5.pbk)) < 255)) ∧
    (2 ≤ codeLane 5248 [3, 0] ∧ (¬∃ c ∈ s6.pbk.coal, c.lane = codeLane 5248 [3, 0] ∧ c.code = 5248 ∧ c.src = 20) ∧ (List.length (List.filter
      (fun c => decide (c.lane = codeLane 5248 [3, 0])) s6.pbk.coal) < 64) ∧ (255 ≤ List.length (List.filter (fun x => decide (x.drop = false))
      (laneQ (codeLane 5248 [3, 0]) s6.pbk)))) ∧
    (2 ≤ codeLane 5248 [3, 0] ∧ (¬∃ c ∈ s7.pbk.coal, c.lane = codeLane 5248 [3, 0] ∧ c.code = 5248 ∧ c.src = 20) ∧ (64 ≤ List.length
      (List.filter (fun c => decide (c.lane = codeLane 5248 [3, 0])) s7.pbk.coal)) ∧ (List.length (List.filter (fun x => decide (x.drop =
      false)) (laneQ (codeLane 5248 [3, 0]) s7.pbk)) < 255)) ∧
    (2 ≤ codeLane 5248 [3, 0] ∧ (¬∃ c ∈ s8.pbk.coal, c.lane = codeLane 5248 [3, 0] ∧ c.code = 5248 ∧ c.src = 20) ∧ (64 ≤ List.length
      (List.filter (fun c => decide (c.lane = codeLane 5248 [3, 0])) s8.pbk.coal)) ∧ (255 ≤ List.length (List.filter (fun x => decide (x.drop =
      false)) (laneQ (codeLane 5248 [3, 0]) s8.pbk))) ∧ (∀ x ∈ laneQ (codeLane 5248 [3, 0]) s8.pbk, x.drop = false)) := by
  refine ⟨?_, ?_, ?_, ?_, ?_, ?_, ?_, ?_⟩ <;> decide +kernel

theorem test_EventRecorder_2 :
    (21 < 22) ∧
    (4992 ∈ [2, 642, 643, 4992, 4995, 5504, 256, 261, 1544, 2054, 2307, 2308, 3077, 2816, 2817, 3593, 4103]) ∧
    (4613 ∈ [3, 644, 896, 1408, 4736, 4994, 3585, 3589, 3592, 3591, 3841, 3845, 4609, 4612, 4613]) ∧
    (640 ∈ [640, 645, 4993, 258, 257, 1030, 1031, 3076, 2819, 2820, 4096, 4098, 4099]) ∧
    (5248 ∈ [1152, 4737, 5248, 5249, 3584, 4097]) ∧
    (0 < 4 ∧ (∀ k < 0, laneQ k s9.pbk = []) ∧ laneQ 0 s9.pbk = [ev 0 4992 19] ∧ (ev 0 4992 19).lane = 0 ∧ s9.pbk.held0 = [] ∧
      s9.pbk.held1 = [] ∧ (∀ c ∈ s9.pbk.coal, c.due = false) ∧ List.length s9.pbk.ram ≤ 32768) ∧
    (1 < 4 ∧ (∀ k < 1, laneQ k s10.pbk = []) ∧ laneQ 1 s10.pbk = [ev 1 2 3, ev 1 4 3] ∧ (ev 1 2 3).lane = 1 ∧ s10.pbk.held0 = [] ∧
      s10.pbk.held1 = [] ∧ (∀ c ∈ s10.pbk.coal, c.due = false) ∧ List.length s10.pbk.ram ≤ 32768) ∧
    ((∀ k < 4, laneQ k s1.pbk = [])) := by
  refine ⟨?_, ?_, ?_, ?_, ?_, ?_, ?_, ?_⟩ <;> decide +kernel

theorem test_EventRecorder_3 :
    (s11.pbk.q2 = [ev 2 2 3] ∧ s11.pbk.q0 = [] ∧ s11.pbk.q1 = [] ∧ s11.pbk.q3 = [] ∧ (ev 2 2 3).lane = 2 ∧ s11.pbk.coal = [co 9 4
      true] ∧ (co 9 4 true).lane = 2 ∧ (co 9 4 true).due = true) ∧
    (s12.pbk.coal = [co 9 0 false] ∧ ((co 9 0 false).lane = 2 ∨ (co 9 0 false).lane = 3) ∧ (co 9 0 false).count = 0) ∧
    (s13.pbk.coal = [co 9 4 false] ∧ ((co 9 4 false).lane = 2 ∨ (co 9 4 false).lane = 3) ∧ (co 9 4 false).count ≠ 0 ∧ List.length (laneQ (co 9 4
      false).lane s13.pbk) < 255) ∧
    (s14.pbk.coal = [co 9 4 false] ∧ ((co 9 4 false).lane = 2 ∨ (co 9 4 false).lane = 3) ∧ (co 9 4 false).count ≠ 0 ∧ (255 ≤ List.length
      (List.filter (fun x => decide (x.drop = false)) (laneQ (co 9 4 false).lane s14.pbk)))) ∧
    (11 < 14 ∧ 11 = submitAgent 11 ∧ codeNamed (fget (Fl.PBK_SUBMIT_HEAD_CODE 11) s15) = true) ∧
    (11 < 14 ∧ (10 ≠ submitAgent 11 ∨ codeNamed (fget (Fl.PBK_SUBMIT_HEAD_CODE 11) s16) = false)) ∧
    (13 < 14 ∧ (17 ≠ submitAgent 13 ∨ codeNamed (fget (Fl.PBK_SUBMIT_HEAD_CODE 13) s17) = false)) ∧
    (0 < 2 ∧ 485 < 2 ^ 56 ∧ 485 < BitVec.toNat (rd Reg.PBK_NEXT_SEQ s18) ∧ (∀ m ∈ s18.pbk.ram, postmarkValid m = true)) := by
  refine ⟨?_, ?_, ?_, ?_, ?_, ?_, ?_, ?_⟩ <;> decide +kernel

theorem test_EventRecorder_4 :
    (0 < 2 ∧ 5 < 2 ^ 56 ∧ 5 < BitVec.toNat (rd Reg.PBK_NEXT_SEQ s19) ∧ (∀ m ∈ s19.pbk.ram, postmarkValid m = true)) ∧
    (1 < 2 ∧ 500 < 2 ^ 56 ∧ BitVec.toNat (rd Reg.PBK_NEXT_SEQ s18) ≤ 500) ∧
    (1 < 2 ∧ 480 < 2 ^ 56 ∧ 480 < BitVec.toNat (rd Reg.PBK_NEXT_SEQ s20) ∧ s20.pbk.ram =
      [{ seq := (m0 480).seq, lane := (m0 480).lane, rep := (m0 480).rep, drop := (m0 480).drop, damaged := (m0 480).damaged, code := (m0 480).code, src := (m0 480).src, count := (m0 480).count, pwrcyc := (m0 480).pwrcyc, args := (m0 480).args, frank := 0 : Postmark }]
      ∧ max 480 (oldestSeq s20) ≤
      { seq := (m0 480).seq, lane := (m0 480).lane, rep := (m0 480).rep, drop := (m0 480).drop, damaged := (m0 480).damaged, code := (m0 480).code, src := (m0 480).src, count := (m0 480).count, pwrcyc := (m0 480).pwrcyc, args := (m0 480).args, frank := 0 : Postmark }.seq
      ∧ postmarkValid
      { seq := (m0 480).seq, lane := (m0 480).lane, rep := (m0 480).rep, drop := (m0 480).drop, damaged := (m0 480).damaged, code := (m0 480).code, src := (m0 480).src, count := (m0 480).count, pwrcyc := (m0 480).pwrcyc, args := (m0 480).args, frank := 0 : Postmark }
      = false) ∧
    (2 ≤ mode s18 ∧ segIn SegRole.drain s18.pbk.segs = some 2 ∧ SMap.find s18.pbk.segs 2 = some
      { role := SegRole.drain, age := 1, marks := [] : Seg } ∧ (List.length { role := SegRole.drain, age := 1, marks := [] : Seg }.marks +
      List.length (List.filter (fun m => decide (m.seq ∈ s18.pbk.toDrain)) s18.pbk.ram) ≤ 32768)) ∧
    (mode s21 < 2) ∧
    (erasedSegs s22.pbk.segs < 2 ∧ oldestHistory s22.pbk.segs = some 3) ∧
    (2 ≤ erasedSegs s23.pbk.segs) := by
  refine ⟨?_, ?_, ?_, ?_, ?_, ?_, ?_⟩ <;> decide +kernel

end Pbk

namespace Debug

def hitOf (a : Nat) : Hit := (regHit a).getD ⟨0, .ctc, 0, 0, ⟨0, [], 0, .live, []⟩⟩
def s1 : State := wr Reg.PWR_EVENT 7 up
def s2 : State := { up with net := { up.net with switching := true } }
def xa : BusAcc := ⟨Reg.NET_LINK_CFG 1, 4, some 9, 0x10⟩
def s3 : State := { up with bus := { up.bus with stalled := [xa] } }
def s4 : State := { up with net := { up.net with switching := true }, bus := { up.bus with stalled := [xa] } }
def lk (f : DbgLink → DbgLink) : State := { up with bus := { up.bus with link := f up.bus.link } }
def xr : BusAcc := ⟨64, 4, none, 0x11⟩
def xw : BusAcc := ⟨64, 4, some 5, 0x11⟩
def s5 : State := lk (fun l => { l with pend := some xr })
def memS : State := { lk (fun l => { l with addr := 64 }) with mem := [(64, 1), (67, 2), (71, 3)] }
def s6 : State := { sets [(Fl.MEM_STATUS_CHANNELS, 15)] memS with mem := [(0x4000000003, 9)] }
def s7 : State := lk (fun l => { l with done := some (some 7, xr) })
def s8 : State := lk (fun l => { l with done := some (some 0, xw) })
def s9 : State := lk (fun l => { l with done := some (none, xw) })
def hs (k : Nat) (l : List (Fld × Nat)) (f : Core → Core) : State :=
  let u := sets ([(Fl.AXC_STATUS_STATE 0, 1), (Fl.AXC_STATUS_STATE 7, 1)] ++ l) up
  { u with cores := [(k, f (coreAt k u))] }
def halt (k : Nat) : Fld × Nat := (Fl.DBG_CORE_DSTATUS_HALTED k, 1)
def s10 : State := hs 5 [] id
def s11 : State := hs 63 [] id
def s15 : State := wr Reg.AON_PD_ON_LO 0 up
def s16 : State := hs 5 [halt 5] id
def s17 : State := hs 5 [(Fl.AXC_STATUS_STATE 0, 0)] id
def last66 (l : List (Fld × Nat)) : State :=
  let u := hs 66 ([halt 66, (Fl.AON_MODE_CUR, 0xB)] ++ l) id
  { u with pow := { up.pow with haltFrom := 4 }, nv := { u.nv with cmds := [], ctrls := [] } }
def s18 : State := last66 []
def s19 : State := last66 [(Fl.AON_MODE_RO_CAUSE, 3)]
def s20 : State := hs 5 [(Fl.DBG_BP_EN 5 7, 1), (Fl.DBG_BP_ADDR 5 7, 16)] (fun c => { c with pc := 64, locked := false, idle := false })
def s21 : State := hs 5 [(Fl.DBG_WP_CFG_EN 5 3, 1), (Fl.DBG_WP_CFG_LOAD 5 3, 1), (Fl.DBG_WP_CFG_SIZE 5 3, 3)] (fun c => { c with pc := 64, locked := false, idle := false })
def s22 : State := hs 5 [halt 5, (Fl.DBG_REG_SEL_NUM 5, 31)] id
def s23 : State := hs 76 [halt 76] id
def s24 : State := hs 5 [halt 5, (Fl.DBG_BP_EN 5 7, 1)] id
def s25 : State := hs 5 [halt 5, (Fl.AON_MODE_CUR, 8)] id
def still5 (l : List (Fld × Nat)) : State := let u := hs 5 ([halt 5, (Fl.DBG_BP_EN 5 7, 1), (Fl.DBG_LINK_STATUS_FAULT, 1)] ++ l) id; { u with nv := { u.nv with cmds := [], ctrls := [] } }
def s26 : State := still5 []
def s27 : State := still5 [(Fl.AON_MODE_CUR, 8)]

theorem test_RegisterAccess :
    (inControl 4096 = false) ∧
    ((∀ (g : Hit), regHit (Reg.CTC_CORE_RETIRED / 8 * 8) = some g → g.blk ≠ Block.dig) ∧ inControl Reg.CTC_CORE_RETIRED = true ∧ regHit
      Reg.CTC_CORE_RETIRED = some (hitOf Reg.CTC_CORE_RETIRED) ∧ (hitOf Reg.CTC_CORE_RETIRED).addr = Reg.CTC_CORE_RETIRED ∧ regThere (hitOf
      Reg.CTC_CORE_RETIRED) 3 up = true ∧ ((hitOf Reg.CTC_CORE_RETIRED).row.bytes = 4 ∨ (hitOf Reg.CTC_CORE_RETIRED).row.bytes = 8) ∧
      Reg.CTC_CORE_RETIRED % (hitOf Reg.CTC_CORE_RETIRED).row.bytes = 0 ∧ ((hitOf Reg.CTC_CORE_RETIRED).blk = Block.ctc ∧ switchingNow 2 up = false
      ∨ (hitOf Reg.CTC_CORE_RETIRED).blk = Block.pwr ∧ (hitOf Reg.CTC_CORE_RETIRED).off ≠ 4 ∧ (hitOf Reg.CTC_CORE_RETIRED).off ≠ 28 ∨ (hitOf
      Reg.CTC_CORE_RETIRED).blk = Block.hif ∧ (hitOf Reg.CTC_CORE_RETIRED).off ≠ 64 ∨ (hitOf Reg.CTC_CORE_RETIRED).blk = Block.mem ∧ (hitOf
      Reg.CTC_CORE_RETIRED).off ≠ 20) ∧ legalWrite (if (hitOf Reg.CTC_CORE_RETIRED).row.bytes = 4 then 4294967295 else 18446744073709551615) (if
      (hitOf Reg.CTC_CORE_RETIRED).row.bytes = 4 then 1099511627775 &&& 4294967295 else 1099511627775) (hitOf Reg.CTC_CORE_RETIRED).row = true) ∧
    ((∀ (g : Hit), regHit (Reg.PWR_EVENT_EN / 8 * 8) = some g → g.blk ≠ Block.dig) ∧ inControl Reg.PWR_EVENT_EN = true ∧ regHit Reg.PWR_EVENT_EN =
      some (hitOf Reg.PWR_EVENT_EN) ∧ (hitOf Reg.PWR_EVENT_EN).addr = Reg.PWR_EVENT_EN ∧ regThere (hitOf Reg.PWR_EVENT_EN) 3 up = true ∧ ((hitOf
      Reg.PWR_EVENT_EN).row.bytes = 4 ∨ (hitOf Reg.PWR_EVENT_EN).row.bytes = 8) ∧ Reg.PWR_EVENT_EN % (hitOf Reg.PWR_EVENT_EN).row.bytes = 0 ∧
      ((hitOf Reg.PWR_EVENT_EN).blk = Block.ctc ∧ switchingNow 2 up = false ∨ (hitOf Reg.PWR_EVENT_EN).blk = Block.pwr ∧ (hitOf
      Reg.PWR_EVENT_EN).off ≠ 4 ∧ (hitOf Reg.PWR_EVENT_EN).off ≠ 28 ∨ (hitOf Reg.PWR_EVENT_EN).blk = Block.hif ∧ (hitOf Reg.PWR_EVENT_EN).off ≠ 64
      ∨ (hitOf Reg.PWR_EVENT_EN).blk = Block.mem ∧ (hitOf Reg.PWR_EVENT_EN).off ≠ 20) ∧ legalWrite (if (hitOf Reg.PWR_EVENT_EN).row.bytes = 4 then
      4294967295 else 18446744073709551615) (if (hitOf Reg.PWR_EVENT_EN).row.bytes = 4 then 3 &&& 4294967295 else 3) (hitOf Reg.PWR_EVENT_EN).row =
      true) ∧
    ((∀ (g : Hit), regHit (1073807368 / 8 * 8) = some g → g.blk ≠ Block.dig) ∧ inControl 1073807368 = true ∧ regHit 1073807368 = some (hitOf
      1073807368) ∧ (hitOf 1073807368).addr = 1073807368 ∧ regThere (hitOf 1073807368) 3 up = true ∧ ((hitOf 1073807368).row.bytes = 4 ∨ (hitOf
      1073807368).row.bytes = 8) ∧ 1073807368 % (hitOf 1073807368).row.bytes = 0 ∧ ((hitOf 1073807368).blk = Block.ctc ∧ switchingNow 2 up = false
      ∨ (hitOf 1073807368).blk = Block.pwr ∧ (hitOf 1073807368).off ≠ 4 ∧ (hitOf 1073807368).off ≠ 28 ∨ (hitOf 1073807368).blk = Block.hif ∧ (hitOf
      1073807368).off ≠ 64 ∨ (hitOf 1073807368).blk = Block.mem ∧ (hitOf 1073807368).off ≠ 20) ∧ legalWrite (if (hitOf 1073807368).row.bytes = 4
      then 4294967295 else 18446744073709551615) (if (hitOf 1073807368).row.bytes = 4 then 497 &&& 4294967295 else 497) (hitOf 1073807368).row =
      false) ∧
    (pdOn 1 s1 = true) ∧
    (1 < 2 ∧ 4 = 4 ∧ netUp 1 s2 = true ∧ s2.net.switching = true ∧ 16 < 256) ∧
    ((∀ (h : Hit), regHit (1073807360 / 8 * 8) = some h → h.blk ≠ Block.dig) ∧ inControl 1073807360 = true ∧ (2 = 1 ∨ 2 = 2 ∨ 2 = 3 ∨ (2 = 4 ∨ 2 =
      8) ∧ 1073807360 % 2 ≠ 0)) := ⟨by decide +kernel, ⟨eachSome_of (by decide +kernel), by decide +kernel⟩, ⟨eachSome_of (by decide +kernel), by decide +kernel⟩, ⟨eachSome_of
    (by decide +kernel), by decide +kernel⟩, by decide +kernel, by decide +kernel, ⟨eachSome_of (by decide +kernel), by decide +kernel⟩⟩

theorem test_RegisterAccess_2 :
    ((∀ (h : Hit), regHit (1073807362 / 8 * 8) = some h → h.blk ≠ Block.dig) ∧ inControl 1073807362 = true ∧ (4 = 1 ∨ 4 = 2 ∨ 4 = 3 ∨ (4 = 4 ∨ 4 =
      8) ∧ 1073807362 % 4 ≠ 0)) ∧
    ((inControl 4098 = false ∨ malformed 4098 3 = false)) ∧
    ((inControl 1073807360 = false ∨ malformed 1073807360 4 = false)) ∧
    (inMap 83886080 = false) ∧
    (inMap 4096 = true ∧ inControl 4096 = false) ∧
    (inControl 2147479552 = true ∧ regHit 2147479552 = none) ∧
    (inControl 1073807360 = true ∧ regHit 1073807360 = some (hitOf 1073807360) ∧ unitOn (hitOf 1073807360).blk (hitOf 1073807360).inst State.reset
      = false) := ⟨⟨eachSome_of (by decide +kernel), by decide +kernel⟩, by decide +kernel, by decide +kernel, by decide +kernel, by decide +kernel,
    by decide +kernel, by decide +kernel⟩

theorem test_RegisterAccess_3 :
    (inControl 1073807360 = true ∧ regHit 1073807360 = some (hitOf 1073807360) ∧ unitOn (hitOf 1073807360).blk (hitOf 1073807360).inst up = true) ∧
    ((∀ (g : Hit), regHit (2147479552 / 8 * 8) = some g → g.blk ≠ Block.dig) ∧ inControl 2147479552 = true ∧ (4 = 4 ∨ 4 = 8) ∧ 2147479552 % 4 = 0 ∧
      (regHit 2147479552 = none ∨ ∃ h, regHit 2147479552 = some h ∧ unitOn h.blk h.inst up = false)) ∧
    ((∀ (g : Hit), regHit (1073807360 / 8 * 8) = some g → g.blk ≠ Block.dig) ∧ inControl 1073807360 = true ∧ (4 = 4 ∨ 4 = 8) ∧ 1073807360 % 4 = 0 ∧
      (regHit 1073807360 = none ∨ ∃ h, regHit 1073807360 = some h ∧ unitOn h.blk h.inst State.reset = false)) ∧
    (s3.bus.stalled = [xa] ∧ xa.val = some 9 ∧ accessStalls xa.addr xa.req s3 = false ∧ inControl xa.addr = true) ∧
    ((∀ x ∈ up.bus.stalled, accessStalls x.addr x.req up = true)) ∧
    ((∀ x ∈ s4.bus.stalled, accessStalls x.addr x.req s4 = true)) := ⟨by decide +kernel, ⟨eachSome_of (by decide +kernel), by decide +kernel⟩, ⟨eachSome_of (by decide +kernel), by decide +kernel⟩, by decide +kernel,
    by decide +kernel, by decide +kernel⟩

theorem test_DebugLink :
    (pdOn 35 State.reset = false) ∧
    (pdOn 35 up = true ∧ 7 < 8) ∧
    (pdOn 35 s5 = true ∧ Option.isSome s5.bus.link.pend = true ∧ 7 < 8) ∧
    (pdOn 35 s5 = true ∧ Option.isSome s5.bus.link.pend = true ∧ 7 < 8 ∧ s5.bus.link.done = none ∧ (mode s5 ≠ 6 ∧ mode s5 ≠ 7 ∧
      s5.pow.idleWait = none)) ∧
    (pdOn 35 up = true ∧ (up.bus.link.pend = none ∧ up.bus.link.done = none) ∧ 5 < 8) ∧
    (pdOn 35 up = true ∧ (up.bus.link.pend = none ∧ up.bus.link.done = none) ∧ 5 < 8 ∧ (mode up ≠ 6 ∧ mode up ≠ 7 ∧ up.pow.idleWait = none)) ∧
    (pdOn 35 memS = true ∧ (memS.bus.link.pend = none ∧ memS.bus.link.done = none) ∧ 5 < 8 ∧ 3 < 4 ∧ (mode memS ≠ 6 ∧ mode memS ≠ 7 ∧
      memS.pow.idleWait = none) ∧ dramHeld 64 memS = false ∧ 64 + 2 ^ 3 < 2 ^ 48 ∧ memAt 64 (2 ^ 3) memS = true ∧ inControl 64 = false ∧ (∀ i < 2 ^
      3, poisoned (64 + i) memS = false)) := by
  refine ⟨?_, ?_, ?_, ?_, ?_, ?_, ?_⟩ <;> decide +kernel

theorem test_DebugLink_2 :
    (pdOn 35 s6 = true ∧ (s6.bus.link.pend = none ∧ s6.bus.link.done = none) ∧ 5 < 8 ∧ 0 < 4 ∧ (mode s6 ≠ 6 ∧ mode s6 ≠ 7 ∧
      s6.pow.idleWait = none) ∧ dramHeld 274877906947 s6 = false ∧ 274877906947 + 2 ^ 0 < 2 ^ 48 ∧ memAt 274877906947 (2 ^ 0) s6 = true ∧
      inControl 274877906947 = false ∧ (∀ i < 2 ^ 0, poisoned (274877906947 + i) s6 = false)) ∧
    (pdOn 35 memS = true ∧ (memS.bus.link.pend = none ∧ memS.bus.link.done = none) ∧ 5 < 8 ∧ 2 < 4 ∧ (mode memS ≠ 6 ∧ mode memS ≠ 7 ∧
      memS.pow.idleWait = none) ∧ dramHeld 64 memS = false ∧ 64 + 2 ^ 2 < 2 ^ 48 ∧ memAt 64 (2 ^ 2) memS = true ∧ inControl 64 = false ∧ (∀ i < 2 ^
      2, poisoned (64 + i) memS = false) ∧ memS.bus.link.addr = 64) ∧
    (pdOn 35 memS = true ∧ (memS.bus.link.pend = none ∧ memS.bus.link.done = none) ∧ 5 < 8 ∧ 3 < 4 ∧ (mode memS ≠ 6 ∧ mode memS ≠ 7 ∧
      memS.pow.idleWait = none) ∧ 64 % 2 ^ 3 = 0 ∧ 64 + 2 ^ 3 < 67108864 ∧ memAt 64 (2 ^ 3) memS = true) ∧
    (pdOn 35 memS = true ∧ (memS.bus.link.pend = none ∧ memS.bus.link.done = none) ∧ 5 < 8 ∧ 1 < 4 ∧ (mode memS ≠ 6 ∧ mode memS ≠ 7 ∧
      memS.pow.idleWait = none) ∧ 66 % 2 ^ 1 = 0 ∧ 66 + 2 ^ 1 < 67108864 ∧ memAt 66 (2 ^ 1) memS = true) ∧
    (pdOn 35 memS = true ∧ (memS.bus.link.pend = none ∧ memS.bus.link.done = none) ∧ 5 < 8 ∧ 2 < 4 ∧ (mode memS ≠ 6 ∧ mode memS ≠ 7 ∧
      memS.pow.idleWait = none) ∧ 64 % 2 ^ 2 = 0 ∧ 64 + 2 ^ 2 < 67108864 ∧ memAt 64 (2 ^ 2) memS = true ∧ memS.bus.link.addr = 64) ∧
    (pdOn 35 memS = true ∧ (memS.bus.link.pend = none ∧ memS.bus.link.done = none) ∧ 5 < 8 ∧ 2 < 4 ∧ (mode memS ≠ 6 ∧ mode memS ≠ 7 ∧
      memS.pow.idleWait = none) ∧ 64 < 2 ^ 48) ∧
    (pdOn 35 memS = true ∧ (memS.bus.link.pend = none ∧ memS.bus.link.done = none) ∧ 5 < 8 ∧ 2 < 4 ∧ (mode memS ≠ 6 ∧ mode memS ≠ 7 ∧
      memS.pow.idleWait = none) ∧ 64 < 2 ^ 48 ∧ memS.bus.link.addr = 64) := by
  refine ⟨?_, ?_, ?_, ?_, ?_, ?_, ?_⟩ <;> decide +kernel

theorem test_DebugLink_3 :
    (pdOn 35 memS = true ∧ (memS.bus.link.pend = none ∧ memS.bus.link.done = none) ∧ 5 < 8 ∧ 2 < 4 ∧ (mode memS ≠ 6 ∧ mode memS ≠ 7 ∧
      memS.pow.idleWait = none) ∧ 83886080 < 2 ^ 48 ∧ inMap 83886080 = false ∧ memAt 83886080 (2 ^ 2) memS = false) ∧
    (pdOn 35 s7 = true ∧ s7.bus.link.pend = none ∧ 5 < 8 ∧ (mode s7 ≠ 6 ∧ mode s7 ≠ 7 ∧ s7.pow.idleWait = none) ∧
      s7.bus.link.done = some (some 7, xr)) ∧
    (pdOn 35 s8 = true ∧ s8.bus.link.pend = none ∧ 5 < 8 ∧ (mode s8 ≠ 6 ∧ mode s8 ≠ 7 ∧ s8.pow.idleWait = none) ∧
      s8.bus.link.done = some (some 0, xw)) ∧
    (pdOn 35 s9 = true ∧ s9.bus.link.pend = none ∧ 5 < 8 ∧ (mode s9 ≠ 6 ∧ mode s9 ≠ 7 ∧ s9.pow.idleWait = none) ∧
      s9.bus.link.done = some (none, xw)) ∧
    (up.bus.link.pend = none) ∧
    (s5.bus.link.pend = some xr ∧ pdOn 35 s5 = true ∧ xr.val = none ∧ inControl xr.addr = false ∧ dramHeld xr.addr s5 = false ∧ memAt
      xr.addr xr.size s5 = true ∧ (∀ i < xr.size, poisoned (xr.addr + i) s5 = false)) := by
  refine ⟨?_, ?_, ?_, ?_, ?_, ?_⟩ <;> decide +kernel

theorem test_HaltingAndStepping :
    (5 < 77 ∧ pdOn 35 s10 = true ∧ 17 < 256 ∧ (17 ≠ 17 ∨ mode s10 ≠ 6 ∧ mode s10 ≠ 7 ∧ s10.pow.idleWait = none) ∧ ((mode s10 = 11 →
      64 ≤ 5 ∧ 5 < 76 ∨ ∃ j < 12, coreHalted (64 + j) s10 = true) ∧ coreUp 5 s10 = true ∧ coreHalted 5 s10 = false ∧ (coreAt 5
      s10).ahead = none ∧ BitVec.toNat (coreAt 5 s10).pc < 2 ^ 64) ∧ coreDomain 5 s10 = true) ∧
    (63 < 77 ∧ pdOn 35 s11 = true ∧ 17 < 256 ∧ (17 ≠ 17 ∨ mode s11 ≠ 6 ∧ mode s11 ≠ 7 ∧ s11.pow.idleWait = none) ∧ ((mode s11 = 11 →
      64 ≤ 63 ∧ 63 < 76 ∨ ∃ j < 12, coreHalted (64 + j) s11 = true) ∧ coreUp 63 s11 = true ∧ coreHalted 63 s11 = false ∧ (coreAt 63
      s11).ahead = none ∧ BitVec.toNat (coreAt 63 s11).pc < 2 ^ 64) ∧ coreDomain 63 s11 = true) ∧
    (5 < 77 ∧ pdOn 35 s15 = true ∧ 17 < 256 ∧ (17 ≠ 17 ∨ mode s15 ≠ 6 ∧ mode s15 ≠ 7 ∧ s15.pow.idleWait = none) ∧ coreDomain 5 s15 =
      false) ∧
    (5 < 77 ∧ pdOn 35 s16 = true ∧ 17 < 256 ∧ (17 ≠ 17 ∨ mode s16 ≠ 6 ∧ mode s16 ≠ 7 ∧ s16.pow.idleWait = none) ∧ (coreHalted 5 s16
      = true ∨ coreUp 5 s16 = false) ∧ coreDomain 5 s16 = true) ∧
    (5 < 77 ∧ pdOn 35 s17 = true ∧ 17 < 256 ∧ (17 ≠ 17 ∨ mode s17 ≠ 6 ∧ mode s17 ≠ 7 ∧ s17.pow.idleWait = none) ∧ (coreHalted 5 s17
      = true ∨ coreUp 5 s17 = false) ∧ coreDomain 5 s17 = true) ∧
    (5 < 77 ∧ pdOn 35 s16 = true ∧ 17 < 256 ∧ (17 ≠ 17 ∨ mode s16 ≠ 6 ∧ mode s16 ≠ 7 ∧ s16.pow.idleWait = none) ∧ coreHalted 5 s16 =
      true ∧ coreDomain 5 s16 = true ∧ (mode s16 ≠ 11 ∨ s16.nv.cmds = [] ∧ ∀ c ∈ s16.nv.ctrls, ∀ q ∈ c.2.cqs, q.2.held = [])) ∧
    (5 < 77 ∧ pdOn 35 s16 = true ∧ 17 < 256 ∧ (17 ≠ 17 ∨ mode s16 ≠ 6 ∧ mode s16 ≠ 7 ∧ s16.pow.idleWait = none) ∧ coreHalted 5 s16 =
      true ∧ coreDomain 5 s16 = true ∧ (mode s16 ≠ 11 ∨ s16.nv.cmds = [] ∧ ∀ c ∈ s16.nv.ctrls, ∀ q ∈ c.2.cqs, q.2.held = []) ∧
      (¬((s16.nv.cmds = [] ∧ ∀ c ∈ s16.nv.ctrls, ∀ q ∈ c.2.cqs, q.2.held = []) ∧ mode s16 = 11 ∧ ∀ j < 12, 64 + j ≠ 5 → coreHalted (64 +
      j) s16 = false))) := by
  refine ⟨?_, ?_, ?_, ?_, ?_, ?_, ?_⟩ <;> decide +kernel

theorem test_HaltingAndStepping_2 :
    (66 < 77 ∧ pdOn 35 s18 = true ∧ 17 < 256 ∧ (17 ≠ 17 ∨ mode s18 ≠ 6 ∧ mode s18 ≠ 7 ∧ s18.pow.idleWait = none) ∧ coreHalted 66 s18
      = true ∧ coreDomain 66 s18 = true ∧ (mode s18 ≠ 11 ∨ s18.nv.cmds = [] ∧ ∀ c ∈ s18.nv.ctrls, ∀ q ∈ c.2.cqs, q.2.held = []) ∧
      ((s18.nv.cmds = [] ∧ ∀ c ∈ s18.nv.ctrls, ∀ q ∈ c.2.cqs, q.2.held = []) ∧ mode s18 = 11 ∧ ∀ j < 12, 64 + j ≠ 66 → coreHalted (64 + j)
      s18 = false) ∧ s18.pow.haltFrom < 16 ∧ fget Fl.AON_MODE_RO_CAUSE s18 = 0) ∧
    (66 < 77 ∧ pdOn 35 s19 = true ∧ 17 < 256 ∧ (17 ≠ 17 ∨ mode s19 ≠ 6 ∧ mode s19 ≠ 7 ∧ s19.pow.idleWait = none) ∧ coreHalted 66 s19
      = true ∧ coreDomain 66 s19 = true ∧ (mode s19 ≠ 11 ∨ s19.nv.cmds = [] ∧ ∀ c ∈ s19.nv.ctrls, ∀ q ∈ c.2.cqs, q.2.held = []) ∧
      ((s19.nv.cmds = [] ∧ ∀ c ∈ s19.nv.ctrls, ∀ q ∈ c.2.cqs, q.2.held = []) ∧ mode s19 = 11 ∧ ∀ j < 12, 64 + j ≠ 66 → coreHalted (64 + j)
      s19 = false) ∧ (s19.pow.haltFrom = 4 ∨ s19.pow.haltFrom = 5) ∧ fget Fl.AON_MODE_RO_CAUSE s19 ≠ 0) ∧
    (5 < 77 ∧ pdOn 35 s10 = true ∧ 17 < 256 ∧ (17 ≠ 17 ∨ mode s10 ≠ 6 ∧ mode s10 ≠ 7 ∧ s10.pow.idleWait = none) ∧ ¬coreHalted 5 s10
      = true) ∧
    (5 < 77 ∧ pdOn 35 s16 = true ∧ 17 < 256 ∧ (17 ≠ 17 ∨ mode s16 ≠ 6 ∧ mode s16 ≠ 7 ∧ s16.pow.idleWait = none) ∧ coreHalted 5 s16 =
      true ∧ coreDomain 5 s16 = true) ∧
    (5 < 77 ∧ pdOn 35 s10 = true ∧ 17 < 256 ∧ (17 ≠ 17 ∨ mode s10 ≠ 6 ∧ mode s10 ≠ 7 ∧ s10.pow.idleWait = none) ∧ ¬coreHalted 5 s10
      = true ∧ coreDomain 5 s10 = true) ∧
    (5 < 77 ∧ pdOn 35 s20 = true ∧ 17 < 256 ∧ (17 ≠ 17 ∨ mode s20 ≠ 6 ∧ mode s20 ≠ 7 ∧ s20.pow.idleWait = none) ∧ (mode s20 = 11 →
      64 ≤ 5 ∧ 5 < 76 ∨ ∃ j < 12, coreHalted (64 + j) s20 = true) ∧ coreRuns 5 s20 = true ∧ (coreAt 5 s20).passBp = false ∧ bpHit 5
      (coreAt 5 s20).pc s20 = some 7 ∧ 7 < 8) ∧
    (5 < 77 ∧ pdOn 35 s16 = true ∧ 17 < 256 ∧ (17 ≠ 17 ∨ mode s16 ≠ 6 ∧ mode s16 ≠ 7 ∧ s16.pow.idleWait = none) ∧ (coreRuns 5 s16 =
      false ∨ (coreAt 5 s16).passBp = true ∨ bpHit 5 (coreAt 5 s16).pc s16 = none)) := by
  refine ⟨?_, ?_, ?_, ?_, ?_, ?_, ?_⟩ <;> decide +kernel

theorem test_HaltingAndStepping_3 :
    (5 < 77 ∧ pdOn 35 s21 = true ∧ 17 < 256 ∧ (17 ≠ 17 ∨ mode s21 ≠ 6 ∧ mode s21 ≠ 7 ∧ s21.pow.idleWait = none) ∧ (mode s21 = 11 →
      64 ≤ 5 ∧ 5 < 76 ∨ ∃ j < 12, coreHalted (64 + j) s21 = true) ∧ coreRuns 5 s21 = true ∧ wpHit 5 7 4 true false s21 = some 3 ∧ 3 < 4) ∧
    (5 < 77 ∧ pdOn 35 s21 = true ∧ 17 < 256 ∧ (17 ≠ 17 ∨ mode s21 ≠ 6 ∧ mode s21 ≠ 7 ∧ s21.pow.idleWait = none) ∧ (coreRuns 5 s21 =
      false ∨ wpHit 5 8 4 true false s21 = none)) ∧
    (5 < 77 ∧ pdOn 35 s22 = true ∧ 17 < 256 ∧ (17 ≠ 17 ∨ mode s22 ≠ 6 ∧ mode s22 ≠ 7 ∧ s22.pow.idleWait = none) ∧ coreHalted 5 s22 =
      true ∧ fget (Fl.DBG_REG_SEL_GROUP 5) s22 = 0) ∧
    (76 < 77 ∧ pdOn 35 s23 = true ∧ 17 < 256 ∧ (17 ≠ 17 ∨ mode s23 ≠ 6 ∧ mode s23 ≠ 7 ∧ s23.pow.idleWait = none) ∧ coreHalted 76 s23
      = true ∧ fget (Fl.DBG_REG_SEL_GROUP 76) s23 = 0) ∧
    (5 < 77 ∧ pdOn 35 s16 = true ∧ 17 < 256 ∧ (17 ≠ 17 ∨ mode s16 ≠ 6 ∧ mode s16 ≠ 7 ∧ s16.pow.idleWait = none) ∧ coreHalted 5 s16 =
      true) ∧
    ((pdOn 35 s24 = true ∧ mode s24 ≠ 8 ∧ (s24.nv.cmds = [] ∧ ∀ c ∈ s24.nv.ctrls, ∀ q ∈ c.2.cqs, q.2.held = []) ∧ fget
      Fl.AON_MODE_RO_CAUSE s24 = 0)) ∧
    (pdOn 35 s25 = true ∧ mode s25 = 8) := by
  refine ⟨?_, ?_, ?_, ?_, ?_, ?_, ?_⟩ <;> decide +kernel

theorem test_HaltingAndStepping_4 :
    ((17 ≠ 17 ∨ mode s16 ≠ 6 ∧ mode s16 ≠ 7 ∧ s16.pow.idleWait = none) ∧ 214 < 256 ∧ pdOn 35 s16 = true ∧ 17 < 256 ∧ 214 ≠ 215) ∧
    ((17 ≠ 17 ∨ mode s26 ≠ 6 ∧ mode s26 ≠ 7 ∧ s26.pow.idleWait = none) ∧ (pdOn 35 s26 = true ∧ mode s26 ≠ 8 ∧ (s26.nv.cmds = [] ∧
      ∀ c ∈ s26.nv.ctrls, ∀ q ∈ c.2.cqs, q.2.held = []) ∧ fget Fl.AON_MODE_RO_CAUSE s26 = 0) ∧ 17 < 256) ∧
    ((17 ≠ 17 ∨ mode s27 ≠ 6 ∧ mode s27 ≠ 7 ∧ s27.pow.idleWait = none) ∧ pdOn 35 s27 = true ∧ mode s27 = 8 ∧ 17 < 256) ∧
    ((17 ≠ 17 ∨ mode State.reset ≠ 6 ∧ mode State.reset ≠ 7 ∧ State.reset.pow.idleWait = none) ∧ pdOn 35 State.reset = false) := by
  refine ⟨?_, ?_, ?_, ?_⟩ <;> decide +kernel

end Debug

namespace Cores

/-- Compute core 0 with these general registers, at Machine level at the boot ROM. -/
def co (g : List (Nat × Word)) : State :=
  let u := fset (Fl.AXC_STATUS_STATE 0) 1 up
  { u with cores := [(0, { Core.fresh with g := g })] }
/-- A word of ALU3 or VR form. -/
def wd (maj rd ra rb rc fn : Nat) : Half := BitVec.ofNat 32 (maj * 2 ^ 26 + rd * 2 ^ 21 + ra * 2 ^ 16 + rb * 2 ^ 11 + rc * 2 ^ 6 + fn)
/-- A word with a 16-bit immediate. -/
def wi (maj rd ra imm : Nat) : Half := BitVec.ofNat 32 (maj * 2 ^ 26 + rd * 2 ^ 21 + ra * 2 ^ 16 + imm)
/-- A SYS word. -/
def wy (rd ra fn n : Nat) : Half := BitVec.ofNat 32 (rd * 2 ^ 21 + ra * 2 ^ 16 + fn * 1024 + n)
def neg : Word := 0xFFFFFFFF80000005
def g2 : List (Nat × Word) := [(1, neg), (2, 0x123456789ABCDEF1)]
def sp8 (n : Word) : State := co [(31, n), (1, 0x8000100), (2, 7)]
def mg : State := { up with cores := [(76, { Core.fresh with g := [(1, 7), (2, 2)] })] }
def lim : State := { co g2 with cores := [(0, { Core.fresh with g := [(31, 0x1000)], sys := [(0x87, 0x1001)] })] }
def mm (ea : Word) : State := { co [(1, ea), (2, 0x8182838485868788)] with mem := [(4088, 0x91), (4089, 0x92), (4090, 0x93), (4095, 0x80), (4096, 0x84), (4097, 0x85), (4098, 0x86)] }
def am : State := { co [(1, 4088), (2, 0x8182838485868788), (4, 0x93929100)] with mem := [(4088, 0x91), (4089, 0x92), (4090, 0x93), (4091, 0x80)] }
def us (lvl : Nat) (sys : List (Nat × Word)) : State := 
  { co g2 with cores := [(0, { Core.fresh with g := g2, lvl := lvl, pc := 0x10000, sys := [(0x48, 0x20001)] ++ sys ++ [(0xC0, 0x7 + 0x140)] })],
               mem := [(0x20000, 0x01), (0x20001, 0x10), (0x20002, 0x02), (0x21000, 0x01), (0x21001, 0x20), (0x21002, 0x02), (0x22000, 0xDF)] }
def it (k : Nat) : State := { (if k = 0 then us 1 [(0x89, 5), (0x81, 0x5000)] else mg) with cores := [(k, { Core.fresh with lvl := if k = 0 then 1 else 2, sys := [(0x89, 1), (0x81, 0x5000), (0x80, 1), (0x8B, 0)] })] }

theorem test_AluLogicAndShifts :
    (CoreReady 0 (co g2) ∧ majOf (wd 1 3 1 2 0 0) = 1 ∧ rcOf (wd 1 3 1 2 0 0) = 0 ∧ fnOf (wd 1 3 1 2 0 0) = 0 ∧ rdOf (wd 1 3 1 2 0 0) ≠ 31) ∧
    (CoreReady 0 (co g2) ∧ majOf (wd 1 3 1 2 0 1) = 1 ∧ rcOf (wd 1 3 1 2 0 1) = 0 ∧ fnOf (wd 1 3 1 2 0 1) = 1 ∧ rdOf (wd 1 3 1 2 0 1) ≠ 31) ∧
    (CoreReady 0 (co g2) ∧ majOf (wd 1 3 1 2 0 2) = 1 ∧ rcOf (wd 1 3 1 2 0 2) = 0 ∧ fnOf (wd 1 3 1 2 0 2) = 2 ∧ rdOf (wd 1 3 1 2 0 2) ≠ 31) ∧
    (CoreReady 0 (co g2) ∧ majOf (wd 1 3 1 2 0 3) = 1 ∧ rcOf (wd 1 3 1 2 0 3) = 0 ∧ fnOf (wd 1 3 1 2 0 3) = 3 ∧ rdOf (wd 1 3 1 2 0 3) ≠ 31) ∧
    (CoreReady 0 (co g2) ∧ majOf (wd 1 3 1 2 0 4) = 1 ∧ rcOf (wd 1 3 1 2 0 4) = 0 ∧ fnOf (wd 1 3 1 2 0 4) = 4 ∧ rdOf (wd 1 3 1 2 0 4) ≠ 31) ∧
    (CoreReady 0 (co g2) ∧ majOf (wd 1 3 1 2 0 5) = 1 ∧ rcOf (wd 1 3 1 2 0 5) = 0 ∧ fnOf (wd 1 3 1 2 0 5) = 5 ∧ rdOf (wd 1 3 1 2 0 5) ≠ 31) ∧
    (CoreReady 0 (co g2) ∧ majOf (wd 1 3 1 2 0 6) = 1 ∧ rcOf (wd 1 3 1 2 0 6) = 0 ∧ fnOf (wd 1 3 1 2 0 6) = 6 ∧ rdOf (wd 1 3 1 2 0 6) ≠ 31) ∧
    (CoreReady 0 (co g2) ∧ majOf (wd 1 3 1 2 0 8) = 1 ∧ rcOf (wd 1 3 1 2 0 8) = 0 ∧ fnOf (wd 1 3 1 2 0 8) = 8 ∧ rdOf (wd 1 3 1 2 0 8) ≠ 31) := ⟨⟨(by unfold CoreReady; decide +kernel), by decide +kernel⟩, ⟨(by unfold CoreReady; decide +kernel), by decide +kernel⟩,
    ⟨(by unfold CoreReady; decide +kernel), by decide +kernel⟩, ⟨(by unfold CoreReady; decide +kernel), by decide +kernel⟩,
    ⟨(by unfold CoreReady; decide +kernel), by decide +kernel⟩, ⟨(by unfold CoreReady; decide +kernel), by decide +kernel⟩,
    ⟨(by unfold CoreReady; decide +kernel), by decide +kernel⟩, ⟨(by unfold CoreReady; decide +kernel), by decide +kernel⟩⟩

theorem test_AluLogicAndShifts_2 :
    (CoreReady 0 (co g2) ∧ majOf (wd 1 3 1 2 0 9) = 1 ∧ rcOf (wd 1 3 1 2 0 9) = 0 ∧ fnOf (wd 1 3 1 2 0 9) = 9 ∧ rdOf (wd 1 3 1 2 0 9) ≠ 31) ∧
    (CoreReady 0 (co g2) ∧ majOf (wd 1 3 1 2 0 10) = 1 ∧ rcOf (wd 1 3 1 2 0 10) = 0 ∧ fnOf (wd 1 3 1 2 0 10) = 10 ∧ rdOf (wd 1 3 1 2 0 10) ≠ 31) ∧
    (CoreReady 0 (co g2) ∧ majOf (wd 1 3 1 2 0 11) = 1 ∧ rcOf (wd 1 3 1 2 0 11) = 0 ∧ fnOf (wd 1 3 1 2 0 11) = 11 ∧ rdOf (wd 1 3 1 2 0 11) ≠ 31) ∧
    (CoreReady 0 (co g2) ∧ majOf (wd 1 3 1 2 0 16) = 1 ∧ rcOf (wd 1 3 1 2 0 16) = 0 ∧ fnOf (wd 1 3 1 2 0 16) = 16 ∧ rdOf (wd 1 3 1 2 0 16) ≠ 31) ∧
    (CoreReady 0 (co g2) ∧ majOf (wd 1 3 1 2 0 17) = 1 ∧ rcOf (wd 1 3 1 2 0 17) = 0 ∧ fnOf (wd 1 3 1 2 0 17) = 17 ∧ rdOf (wd 1 3 1 2 0 17) ≠ 31) ∧
    (CoreReady 0 (co g2) ∧ majOf (wd 1 3 1 2 0 24) = 1 ∧ rcOf (wd 1 3 1 2 0 24) = 0 ∧ fnOf (wd 1 3 1 2 0 24) = 24 ∧ rdOf (wd 1 3 1 2 0 24) ≠ 31) ∧
    (CoreReady 0 (co g2) ∧ majOf (wd 1 3 1 2 0 25) = 1 ∧ rcOf (wd 1 3 1 2 0 25) = 0 ∧ fnOf (wd 1 3 1 2 0 25) = 25 ∧ rdOf (wd 1 3 1 2 0 25) ≠ 31) ∧
    (CoreReady 0 (co g2) ∧ majOf (wd 1 3 1 2 0 26) = 1 ∧ rcOf (wd 1 3 1 2 0 26) = 0 ∧ fnOf (wd 1 3 1 2 0 26) = 26 ∧ rdOf (wd 1 3 1 2 0 26) ≠ 31) := ⟨⟨(by unfold CoreReady; decide +kernel), by decide +kernel⟩, ⟨(by unfold CoreReady; decide +kernel), by decide +kernel⟩,
    ⟨(by unfold CoreReady; decide +kernel), by decide +kernel⟩, ⟨(by unfold CoreReady; decide +kernel), by decide +kernel⟩,
    ⟨(by unfold CoreReady; decide +kernel), by decide +kernel⟩, ⟨(by unfold CoreReady; decide +kernel), by decide +kernel⟩,
    ⟨(by unfold CoreReady; decide +kernel), by decide +kernel⟩, ⟨(by unfold CoreReady; decide +kernel), by decide +kernel⟩⟩

theorem test_AluMultiplyAndBits :
    (CoreReady 0 (co g2) ∧ majOf (wd 2 3 1 2 0 0) = 2 ∧ rcOf (wd 2 3 1 2 0 0) = 0 ∧ fnOf (wd 2 3 1 2 0 0) = 0 ∧ rdOf (wd 2 3 1 2 0 0) ≠ 31) ∧
    (CoreReady 0 (co g2) ∧ majOf (wd 2 3 1 2 0 1) = 2 ∧ rcOf (wd 2 3 1 2 0 1) = 0 ∧ fnOf (wd 2 3 1 2 0 1) = 1 ∧ rdOf (wd 2 3 1 2 0 1) ≠ 31) ∧
    (CoreReady 0 (co g2) ∧ majOf (wd 2 3 1 2 0 2) = 2 ∧ rcOf (wd 2 3 1 2 0 2) = 0 ∧ fnOf (wd 2 3 1 2 0 2) = 2 ∧ rdOf (wd 2 3 1 2 0 2) ≠ 31) ∧
    (CoreReady 0 (co g2) ∧ majOf (wd 2 3 1 2 0 3) = 2 ∧ rcOf (wd 2 3 1 2 0 3) = 0 ∧ fnOf (wd 2 3 1 2 0 3) = 3 ∧ rdOf (wd 2 3 1 2 0 3) ≠ 31) ∧
    (CoreReady 0 (co g2) ∧ majOf (wd 2 3 1 2 0 8) = 2 ∧ rcOf (wd 2 3 1 2 0 8) = 0 ∧ 0 ≠ 76 ∧ fnOf (wd 2 3 1 2 0 8) = 8 ∧ rdOf (wd 2 3 1 2 0 8) ≠
      31) ∧
    (CoreReady 0 (co g2) ∧ majOf (wd 2 3 1 2 0 9) = 2 ∧ rcOf (wd 2 3 1 2 0 9) = 0 ∧ 0 ≠ 76 ∧ fnOf (wd 2 3 1 2 0 9) = 9 ∧ rdOf (wd 2 3 1 2 0 9) ≠
      31) ∧
    (CoreReady 0 (co g2) ∧ majOf (wd 2 3 1 2 0 10) = 2 ∧ rcOf (wd 2 3 1 2 0 10) = 0 ∧ 0 ≠ 76 ∧ fnOf (wd 2 3 1 2 0 10) = 10 ∧ rdOf (wd 2 3 1 2 0 10)
      ≠ 31) := ⟨⟨(by unfold CoreReady; decide +kernel), by decide +kernel⟩, ⟨(by unfold CoreReady; decide +kernel), by decide +kernel⟩,
    ⟨(by unfold CoreReady; decide +kernel), by decide +kernel⟩, ⟨(by unfold CoreReady; decide +kernel), by decide +kernel⟩,
    ⟨(by unfold CoreReady; decide +kernel), by decide +kernel⟩, ⟨(by unfold CoreReady; decide +kernel), by decide +kernel⟩,
    ⟨(by unfold CoreReady; decide +kernel), by decide +kernel⟩⟩

theorem test_AluMultiplyAndBits_2 :
    (CoreReady 0 (co g2) ∧ majOf (wd 2 3 1 2 0 11) = 2 ∧ rcOf (wd 2 3 1 2 0 11) = 0 ∧ 0 ≠ 76 ∧ fnOf (wd 2 3 1 2 0 11) = 11 ∧ rdOf (wd 2 3 1 2 0 11)
      ≠ 31) ∧
    (CoreReady 76 mg ∧ TrapFree 76 mg ∧ majOf (wd 2 3 1 2 0 8) = 2 ∧ rcOf (wd 2 3 1 2 0 8) = 0 ∧ 76 = 76 ∧ fnOf (wd 2 3 1 2 0 8) = 8) ∧
    (CoreReady 0 (co g2) ∧ majOf (wd 2 3 2 0 0 16) = 2 ∧ rcOf (wd 2 3 2 0 0 16) = 0 ∧ rbOf (wd 2 3 2 0 0 16) = 0 ∧ 3 ≤ 64 ∧ (∀ (i : ℕ), 64 - 3 ≤ i
      → i < 64 → BitVec.getLsbD (gr 0 (raOf (wd 2 3 2 0 0 16)) (co g2)) i = false) ∧ (3 < 64 → BitVec.getLsbD (gr 0 (raOf (wd 2 3 2 0 0 16)) (co
      g2)) (63 - 3) = true) ∧ fnOf (wd 2 3 2 0 0 16) = 16 ∧ rdOf (wd 2 3 2 0 0 16) ≠ 31) ∧
    (CoreReady 0 (co g2) ∧ majOf (wd 2 3 2 0 0 17) = 2 ∧ rcOf (wd 2 3 2 0 0 17) = 0 ∧ rbOf (wd 2 3 2 0 0 17) = 0 ∧ 0 ≤ 64 ∧ (∀ i < 0,
      BitVec.getLsbD (gr 0 (raOf (wd 2 3 2 0 0 17)) (co g2)) i = false) ∧ (0 < 64 → BitVec.getLsbD (gr 0 (raOf (wd 2 3 2 0 0 17)) (co g2)) 0 =
      true) ∧ fnOf (wd 2 3 2 0 0 17) = 17 ∧ rdOf (wd 2 3 2 0 0 17) ≠ 31) ∧
    (CoreReady 0 (co g2) ∧ majOf (wd 2 3 2 0 0 18) = 2 ∧ rcOf (wd 2 3 2 0 0 18) = 0 ∧ rbOf (wd 2 3 2 0 0 18) = 0 ∧ fnOf (wd 2 3 2 0 0 18) = 18 ∧
      rdOf (wd 2 3 2 0 0 18) ≠ 31) ∧
    (CoreReady 0 (co g2) ∧ majOf (wd 2 3 2 0 0 19) = 2 ∧ rcOf (wd 2 3 2 0 0 19) = 0 ∧ rbOf (wd 2 3 2 0 0 19) = 0 ∧ (∀ i < 8, BitVec.extractLsb' (8
      * i) 8 (17428574979600299026 : Word) = BitVec.extractLsb' (8 * (7 - i)) 8 (gr 0 (raOf (wd 2 3 2 0 0 19)) (co g2))) ∧ fnOf (wd 2 3 2 0 0 19) =
      19 ∧ rdOf (wd 2 3 2 0 0 19) ≠ 31) ∧
    (CoreReady 0 (co g2) ∧ majOf (wd 2 3 1 0 0 20) = 2 ∧ rcOf (wd 2 3 1 0 0 20) = 0 ∧ rbOf (wd 2 3 1 0 0 20) = 0 ∧ fnOf (wd 2 3 1 0 0 20) = 20 ∧
      rdOf (wd 2 3 1 0 0 20) ≠ 31) := ⟨⟨(by unfold CoreReady; decide +kernel), by decide +kernel⟩, ⟨(by unfold CoreReady; decide +kernel), (by unfold TrapFree; decide +kernel),
    by decide +kernel⟩, ⟨(by unfold CoreReady; decide +kernel), by decide +kernel⟩, ⟨(by unfold CoreReady; decide +kernel), by decide +kernel⟩,
    ⟨(by unfold CoreReady; decide +kernel), by decide +kernel⟩, ⟨(by unfold CoreReady; decide +kernel), by decide +kernel⟩,
    ⟨(by unfold CoreReady; decide +kernel), by decide +kernel⟩⟩

theorem test_AluMultiplyAndBits_3 :
    (CoreReady 0 (co g2) ∧ majOf (wd 2 3 1 0 0 21) = 2 ∧ rcOf (wd 2 3 1 0 0 21) = 0 ∧ rbOf (wd 2 3 1 0 0 21) = 0 ∧ fnOf (wd 2 3 1 0 0 21) = 21 ∧
      rdOf (wd 2 3 1 0 0 21) ≠ 31) ∧
    (CoreReady 0 (co g2) ∧ majOf (wd 2 3 1 0 0 22) = 2 ∧ rcOf (wd 2 3 1 0 0 22) = 0 ∧ rbOf (wd 2 3 1 0 0 22) = 0 ∧ fnOf (wd 2 3 1 0 0 22) = 22 ∧
      rdOf (wd 2 3 1 0 0 22) ≠ 31) ∧
    (CoreReady 0 (co g2) ∧ majOf (wd 2 3 1 0 0 23) = 2 ∧ rcOf (wd 2 3 1 0 0 23) = 0 ∧ rbOf (wd 2 3 1 0 0 23) = 0 ∧ fnOf (wd 2 3 1 0 0 23) = 23 ∧
      rdOf (wd 2 3 1 0 0 23) ≠ 31) ∧
    (CoreReady 0 (co g2) ∧ majOf (wd 2 3 1 2 0 24) = 2 ∧ rcOf (wd 2 3 1 2 0 24) = 0 ∧ fnOf (wd 2 3 1 2 0 24) = 24 ∧ rdOf (wd 2 3 1 2 0 24) ≠ 31) ∧
    (CoreReady 0 (co g2) ∧ majOf (wd 2 3 1 2 0 25) = 2 ∧ rcOf (wd 2 3 1 2 0 25) = 0 ∧ fnOf (wd 2 3 1 2 0 25) = 25 ∧ rdOf (wd 2 3 1 2 0 25) ≠ 31) ∧
    (CoreReady 0 (co g2) ∧ majOf (wd 2 3 1 2 0 26) = 2 ∧ rcOf (wd 2 3 1 2 0 26) = 0 ∧ fnOf (wd 2 3 1 2 0 26) = 26 ∧ rdOf (wd 2 3 1 2 0 26) ≠ 31) ∧
    (CoreReady 0 (co g2) ∧ majOf (wd 2 3 1 2 0 27) = 2 ∧ rcOf (wd 2 3 1 2 0 27) = 0 ∧ fnOf (wd 2 3 1 2 0 27) = 27 ∧ rdOf (wd 2 3 1 2 0 27) ≠ 31) := ⟨⟨(by unfold CoreReady; decide +kernel), by decide +kernel⟩, ⟨(by unfold CoreReady; decide +kernel), by decide +kernel⟩,
    ⟨(by unfold CoreReady; decide +kernel), by decide +kernel⟩, ⟨(by unfold CoreReady; decide +kernel), by decide +kernel⟩,
    ⟨(by unfold CoreReady; decide +kernel), by decide +kernel⟩, ⟨(by unfold CoreReady; decide +kernel), by decide +kernel⟩,
    ⟨(by unfold CoreReady; decide +kernel), by decide +kernel⟩⟩

theorem test_CompareAndImmediate :
    (CoreReady 0 (co g2) ∧ majOf (wd 3 3 1 2 0 0) = 3 ∧ rcOf (wd 3 3 1 2 0 0) = 0 ∧ fnOf (wd 3 3 1 2 0 0) = 0 ∧ rdOf (wd 3 3 1 2 0 0) ≠ 31) ∧
    (CoreReady 0 (co g2) ∧ majOf (wd 3 3 1 2 0 1) = 3 ∧ rcOf (wd 3 3 1 2 0 1) = 0 ∧ fnOf (wd 3 3 1 2 0 1) = 1 ∧ rdOf (wd 3 3 1 2 0 1) ≠ 31) ∧
    (CoreReady 0 (co g2) ∧ majOf (wd 3 3 1 2 0 2) = 3 ∧ rcOf (wd 3 3 1 2 0 2) = 0 ∧ fnOf (wd 3 3 1 2 0 2) = 2 ∧ rdOf (wd 3 3 1 2 0 2) ≠ 31) ∧
    (CoreReady 0 (co g2) ∧ majOf (wd 3 3 1 2 0 3) = 3 ∧ rcOf (wd 3 3 1 2 0 3) = 0 ∧ fnOf (wd 3 3 1 2 0 3) = 3 ∧ rdOf (wd 3 3 1 2 0 3) ≠ 31) ∧
    (CoreReady 0 (co g2) ∧ majOf (wd 3 3 1 2 0 4) = 3 ∧ rcOf (wd 3 3 1 2 0 4) = 0 ∧ fnOf (wd 3 3 1 2 0 4) = 4 ∧ rdOf (wd 3 3 1 2 0 4) ≠ 31) ∧
    (CoreReady 0 (co g2) ∧ majOf (wd 3 3 1 2 0 5) = 3 ∧ rcOf (wd 3 3 1 2 0 5) = 0 ∧ fnOf (wd 3 3 1 2 0 5) = 5 ∧ rdOf (wd 3 3 1 2 0 5) ≠ 31) ∧
    (CoreReady 0 (co g2) ∧ majOf (wd 3 3 1 2 0 8) = 3 ∧ fnOf (wd 3 3 1 2 0 8) = 8 ∧ rdOf (wd 3 3 1 2 0 8) ≠ 31) ∧
    (CoreReady 0 (co g2) ∧ majOf (wi 4 3 1 34661) = 4 ∧ rdOf (wi 4 3 1 34661) ≠ 31) := ⟨⟨(by unfold CoreReady; decide +kernel), by decide +kernel⟩, ⟨(by unfold CoreReady; decide +kernel), by decide +kernel⟩,
    ⟨(by unfold CoreReady; decide +kernel), by decide +kernel⟩, ⟨(by unfold CoreReady; decide +kernel), by decide +kernel⟩,
    ⟨(by unfold CoreReady; decide +kernel), by decide +kernel⟩, ⟨(by unfold CoreReady; decide +kernel), by decide +kernel⟩,
    ⟨(by unfold CoreReady; decide +kernel), by decide +kernel⟩, ⟨(by unfold CoreReady; decide +kernel), by decide +kernel⟩⟩

theorem test_CompareAndImmediate_2 :
    (CoreReady 0 (co g2) ∧ majOf (wi 5 3 1 34661) = 5 ∧ rdOf (wi 5 3 1 34661) ≠ 31) ∧
    (CoreReady 0 (co g2) ∧ majOf (wi 6 3 1 34661) = 6 ∧ rdOf (wi 6 3 1 34661) ≠ 31) ∧
    (CoreReady 0 (co g2) ∧ majOf (wi 7 3 1 34661) = 7 ∧ rdOf (wi 7 3 1 34661) ≠ 31) ∧
    (CoreReady 0 (co g2) ∧ majOf (wi 8 3 0 34661) = 8 ∧ raOf (wi 8 3 0 34661) = 0 ∧ rdOf (wi 8 3 0 34661) ≠ 31) ∧
    (CoreReady 0 (co g2) ∧ majOf (wi 9 3 1 0) = 9 ∧ immOf (wi 9 3 1 0) < 64 ∧ rdOf (wi 9 3 1 0) ≠ 31) ∧
    (CoreReady 0 (co g2) ∧ majOf (wi 9 3 1 64) = 9 ∧ 64 ≤ immOf (wi 9 3 1 64) ∧ immOf (wi 9 3 1 64) < 128 ∧ rdOf (wi 9 3 1 64) ≠ 31) ∧
    (CoreReady 0 (co g2) ∧ majOf (wi 9 3 1 128) = 9 ∧ 128 ≤ immOf (wi 9 3 1 128) ∧ immOf (wi 9 3 1 128) < 192 ∧ rdOf (wi 9 3 1 128) ≠ 31) ∧
    (CoreReady 0 (co g2) ∧ majOf (wi 9 3 1 192) = 9 ∧ 192 ≤ immOf (wi 9 3 1 192) ∧ immOf (wi 9 3 1 192) < 256 ∧ rdOf (wi 9 3 1 192) ≠ 31) := ⟨⟨(by unfold CoreReady; decide +kernel), by decide +kernel⟩, ⟨(by unfold CoreReady; decide +kernel), by decide +kernel⟩,
    ⟨(by unfold CoreReady; decide +kernel), by decide +kernel⟩, ⟨(by unfold CoreReady; decide +kernel), by decide +kernel⟩,
    ⟨(by unfold CoreReady; decide +kernel), by decide +kernel⟩, ⟨(by unfold CoreReady; decide +kernel), by decide +kernel⟩,
    ⟨(by unfold CoreReady; decide +kernel), by decide +kernel⟩, ⟨(by unfold CoreReady; decide +kernel), by decide +kernel⟩⟩

theorem test_CompareAndImmediate_3 :
    (CoreReady 0 (co g2) ∧ majOf (wi 10 3 1 34661) = 10 ∧ rdOf (wi 10 3 1 34661) ≠ 31) ∧
    (CoreReady 0 (co g2) ∧ majOf (wi 11 3 1 34661) = 11 ∧ rdOf (wi 11 3 1 34661) ≠ 31) ∧
    (CoreReady 0 (co g2) ∧ majOf (wi 12 3 1 34661) = 12 ∧ rdOf (wi 12 3 1 34661) ≠ 31) ∧
    (CoreReady 0 (co g2) ∧ majOf (wi 13 3 1 34661) = 13 ∧ rdOf (wi 13 3 1 34661) ≠ 31) ∧
    (CoreReady 0 (co g2) ∧ majOf (wi 14 3 0 34661) = 14 ∧ raOf (wi 14 3 0 34661) = 0 ∧ rdOf (wi 14 3 0 34661) ≠ 31) ∧
    (CoreReady 0 lim ∧ TrapFree 0 lim ∧ majOf (wi 4 31 31 65528) = 4 ∧ rdOf (wi 4 31 31 65528) = 31 ∧ stackLow 0 (gr 0 (raOf (wi 4 31 31 65528))
      lim + BitVec.ofInt 64 (Int.bmod (↑(immOf (wi 4 31 31 65528))) 65536)) lim = true) ∧
    (CoreReady 0 (co g2) ∧ TrapFree 0 (co g2) ∧ majOf (wi 8 3 1 5) = 8 ∧ raOf (wi 8 3 1 5) ≠ 0) ∧
    (CoreReady 0 (co g2) ∧ TrapFree 0 (co g2) ∧ majOf (wi 9 3 1 256) = 9 ∧ 256 ≤ immOf (wi 9 3 1 256)) := ⟨⟨(by unfold CoreReady; decide +kernel), by decide +kernel⟩, ⟨(by unfold CoreReady; decide +kernel), by decide +kernel⟩,
    ⟨(by unfold CoreReady; decide +kernel), by decide +kernel⟩, ⟨(by unfold CoreReady; decide +kernel), by decide +kernel⟩,
    ⟨(by unfold CoreReady; decide +kernel), by decide +kernel⟩, ⟨(by unfold CoreReady; decide +kernel), (by unfold TrapFree; decide +kernel),
    by decide +kernel⟩, ⟨(by unfold CoreReady; decide +kernel), (by unfold TrapFree; decide +kernel), by decide +kernel⟩,
    ⟨(by unfold CoreReady; decide +kernel), (by unfold TrapFree; decide +kernel), by decide +kernel⟩⟩

theorem test_LoadsAndStores :
    (CoreReady 0 (mm 4095) ∧ ReadsMem 0 (eaOf 0 (wi 16 3 1 0) (mm 4095)) 1 (fetched 0 (mm 4095)) 4095 4096 (fetched 0 (mm 4095)) ∧ majOf (wi 16 3 1
      0) = 16 ∧ rdOf (wi 16 3 1 0) ≠ 31) ∧
    (CoreReady 0 (mm 4095) ∧ ReadsMem 0 (eaOf 0 (wi 17 3 1 0) (mm 4095)) 1 (fetched 0 (mm 4095)) 4095 4096 (fetched 0 (mm 4095)) ∧ majOf (wi 17 3 1
      0) = 17 ∧ rdOf (wi 17 3 1 0) ≠ 31) ∧
    (CoreReady 0 (mm 4095) ∧ ReadsMem 0 (eaOf 0 (wi 18 3 1 0) (mm 4095)) 2 (fetched 0 (mm 4095)) 4095 4096 (fetched 0 (mm 4095)) ∧ majOf (wi 18 3 1
      0) = 18 ∧ rdOf (wi 18 3 1 0) ≠ 31) ∧
    (CoreReady 0 (mm 4095) ∧ ReadsMem 0 (eaOf 0 (wi 19 3 1 0) (mm 4095)) 2 (fetched 0 (mm 4095)) 4095 4096 (fetched 0 (mm 4095)) ∧ majOf (wi 19 3 1
      0) = 19 ∧ rdOf (wi 19 3 1 0) ≠ 31) ∧
    (CoreReady 0 (mm 4095) ∧ ReadsMem 0 (eaOf 0 (wi 20 3 1 0) (mm 4095)) 4 (fetched 0 (mm 4095)) 4095 4096 (fetched 0 (mm 4095)) ∧ majOf (wi 20 3 1
      0) = 20 ∧ rdOf (wi 20 3 1 0) ≠ 31) ∧
    (CoreReady 0 (mm 4095) ∧ ReadsMem 0 (eaOf 0 (wi 21 3 1 0) (mm 4095)) 4 (fetched 0 (mm 4095)) 4095 4096 (fetched 0 (mm 4095)) ∧ majOf (wi 21 3 1
      0) = 21 ∧ rdOf (wi 21 3 1 0) ≠ 31) ∧
    (CoreReady 0 (mm 4095) ∧ ReadsMem 0 (eaOf 0 (wi 22 3 1 0) (mm 4095)) 8 (fetched 0 (mm 4095)) 4095 4096 (fetched 0 (mm 4095)) ∧ majOf (wi 22 3 1
      0) = 22 ∧ rdOf (wi 22 3 1 0) ≠ 31) := ⟨⟨(by unfold CoreReady; decide +kernel), ⟨by decide +kernel, ⟨_, rfl⟩, by decide +kernel⟩, by decide +kernel⟩,
    ⟨(by unfold CoreReady; decide +kernel), ⟨by decide +kernel, ⟨_, rfl⟩, by decide +kernel⟩, by decide +kernel⟩,
    ⟨(by unfold CoreReady; decide +kernel), ⟨by decide +kernel, ⟨_, rfl⟩, by decide +kernel⟩, by decide +kernel⟩,
    ⟨(by unfold CoreReady; decide +kernel), ⟨by decide +kernel, ⟨_, rfl⟩, by decide +kernel⟩, by decide +kernel⟩,
    ⟨(by unfold CoreReady; decide +kernel), ⟨by decide +kernel, ⟨_, rfl⟩, by decide +kernel⟩, by decide +kernel⟩,
    ⟨(by unfold CoreReady; decide +kernel), ⟨by decide +kernel, ⟨_, rfl⟩, by decide +kernel⟩, by decide +kernel⟩,
    ⟨(by unfold CoreReady; decide +kernel), ⟨by decide +kernel, ⟨_, rfl⟩, by decide +kernel⟩, by decide +kernel⟩⟩

theorem test_LoadsAndStores_2 :
    (CoreReady 0 (mm 4095) ∧ WritesMem 0 (eaOf 0 (wi 24 2 1 0) (mm 4095)) 1 (fetched 0 (mm 4095)) 4095 4096 (fetched 0 (mm 4095)) ∧ majOf (wi 24 2
      1 0) = 24) ∧
    (CoreReady 0 (mm 4095) ∧ WritesMem 0 (eaOf 0 (wi 25 2 1 0) (mm 4095)) 2 (fetched 0 (mm 4095)) 4095 4096 (fetched 0 (mm 4095)) ∧ majOf (wi 25 2
      1 0) = 25) ∧
    (CoreReady 0 (mm 4095) ∧ WritesMem 0 (eaOf 0 (wi 26 2 1 0) (mm 4095)) 4 (fetched 0 (mm 4095)) 4095 4096 (fetched 0 (mm 4095)) ∧ majOf (wi 26 2
      1 0) = 26) ∧
    (CoreReady 0 (mm 4095) ∧ WritesMem 0 (eaOf 0 (wi 27 2 1 0) (mm 4095)) 8 (fetched 0 (mm 4095)) 4095 4096 (fetched 0 (mm 4095)) ∧ majOf (wi 27 2
      1 0) = 27) ∧
    (CoreReady 0 (mm 281474976710656) ∧ TrapFree 0 (mm 281474976710656) ∧ majOf (wi 22 3 1 0) = 22 ∧ wpHit 0 (BitVec.toNat (eaOf 0 (wi 22 3 1 0)
      (mm 281474976710656))) 8 true false (fetched 0 (mm 281474976710656)) = none ∧ translate2 0 (eaOf 0 (wi 22 3 1 0) (mm 281474976710656)) 8
      Access.load (fetched 0 (mm 281474976710656)) = (Except.error 13, fetched 0 (mm 281474976710656))) ∧
    (CoreReady 0 (mm 281474976710656) ∧ TrapFree 0 (mm 281474976710656) ∧ majOf (wi 27 2 1 0) = 27 ∧ wpHit 0 (BitVec.toNat (eaOf 0 (wi 27 2 1 0)
      (mm 281474976710656))) 8 false true (fetched 0 (mm 281474976710656)) = none ∧ translate2 0 (eaOf 0 (wi 27 2 1 0) (mm 281474976710656)) 8
      Access.store (fetched 0 (mm 281474976710656)) = (Except.error 13, fetched 0 (mm 281474976710656))) := ⟨⟨(by unfold CoreReady; decide +kernel), writesMem_of (by decide +kernel) ⟨_, rfl⟩ (by decide +kernel) (by decide +kernel) (by decide +kernel),
    by decide +kernel⟩, ⟨(by unfold CoreReady; decide +kernel), writesMem_of (by decide +kernel) ⟨_, rfl⟩ (by decide +kernel) (by decide +kernel)
    (by decide +kernel), by decide +kernel⟩, ⟨(by unfold CoreReady; decide +kernel), writesMem_of (by decide +kernel) ⟨_, rfl⟩ (by decide +kernel)
    (by decide +kernel) (by decide +kernel), by decide +kernel⟩, ⟨(by unfold CoreReady; decide +kernel), writesMem_of (by decide +kernel) ⟨_, rfl⟩
    (by decide +kernel) (by decide +kernel) (by decide +kernel), by decide +kernel⟩, ⟨(by unfold CoreReady; decide +kernel),
    (by unfold TrapFree; decide +kernel), by decide +kernel⟩, ⟨(by unfold CoreReady; decide +kernel), (by unfold TrapFree; decide +kernel),
    by decide +kernel⟩⟩

theorem test_Atomics :
    (CoreReady 0 am ∧ AmoMem 0 (gr 0 (raOf (wd 32 3 1 2 0 0)) am) (amoBytes (wd 32 3 1 2 0 0)) (fetched 0 am) 4088 (fetched 0 am) ∧ (majOf (wd 32 3
      1 2 0 0) = 32 ∨ majOf (wd 32 3 1 2 0 0) = 33) ∧ rdOf (wd 32 3 1 2 0 0) ≠ 31 ∧ fnOf (wd 32 3 1 2 0 0) % 16 = 0 ∧ rcOf (wd 32 3 1 2 0 0) = 0) ∧
    (CoreReady 0 am ∧ AmoMem 0 (gr 0 (raOf (wd 32 3 1 2 0 1)) am) (amoBytes (wd 32 3 1 2 0 1)) (fetched 0 am) 4088 (fetched 0 am) ∧ (majOf (wd 32 3
      1 2 0 1) = 32 ∨ majOf (wd 32 3 1 2 0 1) = 33) ∧ rdOf (wd 32 3 1 2 0 1) ≠ 31 ∧ fnOf (wd 32 3 1 2 0 1) % 16 = 1 ∧ rcOf (wd 32 3 1 2 0 1) = 0) ∧
    (CoreReady 0 am ∧ AmoMem 0 (gr 0 (raOf (wd 32 3 1 2 0 2)) am) (amoBytes (wd 32 3 1 2 0 2)) (fetched 0 am) 4088 (fetched 0 am) ∧ (majOf (wd 32 3
      1 2 0 2) = 32 ∨ majOf (wd 32 3 1 2 0 2) = 33) ∧ rdOf (wd 32 3 1 2 0 2) ≠ 31 ∧ fnOf (wd 32 3 1 2 0 2) % 16 = 2 ∧ rcOf (wd 32 3 1 2 0 2) = 0) ∧
    (CoreReady 0 am ∧ AmoMem 0 (gr 0 (raOf (wd 32 3 1 2 0 3)) am) (amoBytes (wd 32 3 1 2 0 3)) (fetched 0 am) 4088 (fetched 0 am) ∧ (majOf (wd 32 3
      1 2 0 3) = 32 ∨ majOf (wd 32 3 1 2 0 3) = 33) ∧ rdOf (wd 32 3 1 2 0 3) ≠ 31 ∧ fnOf (wd 32 3 1 2 0 3) % 16 = 3 ∧ rcOf (wd 32 3 1 2 0 3) = 0) ∧
    (CoreReady 0 am ∧ AmoMem 0 (gr 0 (raOf (wd 32 3 1 2 0 4)) am) (amoBytes (wd 32 3 1 2 0 4)) (fetched 0 am) 4088 (fetched 0 am) ∧ (majOf (wd 32 3
      1 2 0 4) = 32 ∨ majOf (wd 32 3 1 2 0 4) = 33) ∧ rdOf (wd 32 3 1 2 0 4) ≠ 31 ∧ fnOf (wd 32 3 1 2 0 4) % 16 = 4 ∧ rcOf (wd 32 3 1 2 0 4) = 0) ∧
    (CoreReady 0 am ∧ AmoMem 0 (gr 0 (raOf (wd 32 3 1 2 0 5)) am) (amoBytes (wd 32 3 1 2 0 5)) (fetched 0 am) 4088 (fetched 0 am) ∧ (majOf (wd 32 3
      1 2 0 5) = 32 ∨ majOf (wd 32 3 1 2 0 5) = 33) ∧ rdOf (wd 32 3 1 2 0 5) ≠ 31 ∧ fnOf (wd 32 3 1 2 0 5) % 16 = 5 ∧ rcOf (wd 32 3 1 2 0 5) = 0) := ⟨⟨(by unfold CoreReady; decide +kernel), ⟨by decide +kernel, by decide +kernel, ⟨_, rfl⟩, by decide +kernel⟩, by decide +kernel⟩,
    ⟨(by unfold CoreReady; decide +kernel), ⟨by decide +kernel, by decide +kernel, ⟨_, rfl⟩, by decide +kernel⟩, by decide +kernel⟩,
    ⟨(by unfold CoreReady; decide +kernel), ⟨by decide +kernel, by decide +kernel, ⟨_, rfl⟩, by decide +kernel⟩, by decide +kernel⟩,
    ⟨(by unfold CoreReady; decide +kernel), ⟨by decide +kernel, by decide +kernel, ⟨_, rfl⟩, by decide +kernel⟩, by decide +kernel⟩,
    ⟨(by unfold CoreReady; decide +kernel), ⟨by decide +kernel, by decide +kernel, ⟨_, rfl⟩, by decide +kernel⟩, by decide +kernel⟩,
    ⟨(by unfold CoreReady; decide +kernel), ⟨by decide +kernel, by decide +kernel, ⟨_, rfl⟩, by decide +kernel⟩, by decide +kernel⟩⟩

theorem test_Atomics_2 :
    (CoreReady 0 am ∧ AmoMem 0 (gr 0 (raOf (wd 32 3 1 2 0 6)) am) (amoBytes (wd 32 3 1 2 0 6)) (fetched 0 am) 4088 (fetched 0 am) ∧ (majOf (wd 32 3
      1 2 0 6) = 32 ∨ majOf (wd 32 3 1 2 0 6) = 33) ∧ rdOf (wd 32 3 1 2 0 6) ≠ 31 ∧ fnOf (wd 32 3 1 2 0 6) % 16 = 6 ∧ rcOf (wd 32 3 1 2 0 6) = 0) ∧
    (CoreReady 0 am ∧ AmoMem 0 (gr 0 (raOf (wd 32 3 1 2 0 7)) am) (amoBytes (wd 32 3 1 2 0 7)) (fetched 0 am) 4088 (fetched 0 am) ∧ (majOf (wd 32 3
      1 2 0 7) = 32 ∨ majOf (wd 32 3 1 2 0 7) = 33) ∧ rdOf (wd 32 3 1 2 0 7) ≠ 31 ∧ fnOf (wd 32 3 1 2 0 7) % 16 = 7 ∧ rcOf (wd 32 3 1 2 0 7) = 0) ∧
    (CoreReady 0 am ∧ AmoMem 0 (gr 0 (raOf (wd 32 3 1 2 0 8)) am) (amoBytes (wd 32 3 1 2 0 8)) (fetched 0 am) 4088 (fetched 0 am) ∧ (majOf (wd 32 3
      1 2 0 8) = 32 ∨ majOf (wd 32 3 1 2 0 8) = 33) ∧ rdOf (wd 32 3 1 2 0 8) ≠ 31 ∧ fnOf (wd 32 3 1 2 0 8) % 16 = 8 ∧ rcOf (wd 32 3 1 2 0 8) = 0) ∧
    (CoreReady 0 am ∧ AmoMem 0 (gr 0 (raOf (wd 32 3 1 2 4 9)) am) (amoBytes (wd 32 3 1 2 4 9)) (fetched 0 am) 4088 (fetched 0 am) ∧ (majOf (wd 32 3
      1 2 4 9) = 32 ∨ majOf (wd 32 3 1 2 4 9) = 33) ∧ rdOf (wd 32 3 1 2 4 9) ≠ 31 ∧ fnOf (wd 32 3 1 2 4 9) % 16 = 9) ∧
    (CoreReady 0 am ∧ AmoMem 0 (gr 0 (raOf (wd 32 3 1 0 0 26)) am) (amoBytes (wd 32 3 1 0 0 26)) (fetched 0 am) 4088 (fetched 0 am) ∧ (majOf (wd 32
      3 1 0 0 26) = 32 ∨ majOf (wd 32 3 1 0 0 26) = 33) ∧ rdOf (wd 32 3 1 0 0 26) ≠ 31 ∧ (fnOf (wd 32 3 1 0 0 26) = 10 ∨ fnOf (wd 32 3 1 0 0 26) =
      26) ∧ rbOf (wd 32 3 1 0 0 26) = 0 ∧ rcOf (wd 32 3 1 0 0 26) = 0) ∧
    (CoreReady 0 am ∧ AmoMem 0 (gr 0 (raOf (wd 32 0 1 2 0 43)) am) (amoBytes (wd 32 0 1 2 0 43)) (fetched 0 am) 4088 (fetched 0 am) ∧ (majOf (wd 32
      0 1 2 0 43) = 32 ∨ majOf (wd 32 0 1 2 0 43) = 33) ∧ rdOf (wd 32 0 1 2 0 43) ≠ 31 ∧ (fnOf (wd 32 0 1 2 0 43) = 11 ∨ fnOf (wd 32 0 1 2 0 43) =
      43) ∧ rdOf (wd 32 0 1 2 0 43) = 0 ∧ rcOf (wd 32 0 1 2 0 43) = 0) := ⟨⟨(by unfold CoreReady; decide +kernel), ⟨by decide +kernel, by decide +kernel, ⟨_, rfl⟩, by decide +kernel⟩, by decide +kernel⟩,
    ⟨(by unfold CoreReady; decide +kernel), ⟨by decide +kernel, by decide +kernel, ⟨_, rfl⟩, by decide +kernel⟩, by decide +kernel⟩,
    ⟨(by unfold CoreReady; decide +kernel), ⟨by decide +kernel, by decide +kernel, ⟨_, rfl⟩, by decide +kernel⟩, by decide +kernel⟩,
    ⟨(by unfold CoreReady; decide +kernel), ⟨by decide +kernel, by decide +kernel, ⟨_, rfl⟩, by decide +kernel⟩, by decide +kernel⟩,
    ⟨(by unfold CoreReady; decide +kernel), ⟨by decide +kernel, by decide +kernel, ⟨_, rfl⟩, by decide +kernel⟩, by decide +kernel⟩,
    ⟨(by unfold CoreReady; decide +kernel), ⟨by decide +kernel, by decide +kernel, ⟨_, rfl⟩, by decide +kernel⟩, by decide +kernel⟩⟩

theorem test_BranchesAndCalls :
    (CoreReady 0 (sp8 4096) ∧ majOf (wi 40 2 31 65520) = 40) ∧
    (CoreReady 0 (sp8 4096) ∧ majOf (wi 41 2 31 65520) = 41) ∧
    (CoreReady 0 (sp8 4096) ∧ majOf (wi 44 31 31 65520) = 44) ∧
    (CoreReady 0 (sp8 4096) ∧ WritesMem 0 (gr 0 31 (sp8 4096) - 8) 8 (fetched 0 (sp8 4096)) 4088 4096 (fetched 0 (sp8 4096)) ∧ majOf (wi 45 31 31
      65520) = 45 ∧ BitVec.toNat ((coreAt 0 (sp8 4096)).pc + BitVec.ofInt 64 (4 * Int.bmod (↑(wbits (wi 45 31 31 65520) 0 26)) (2 ^ 26))) % 4 = 0 ∧
      BitVec.toNat (gr 0 31 (sp8 4096)) % 8 = 0 ∧ 8 ≤ BitVec.toNat (gr 0 31 (sp8 4096)) ∧ stackLow 0 (gr 0 31 (sp8 4096) - 8) (sp8 4096) = false) ∧
    (CoreReady 0 (sp8 4096) ∧ majOf (wd 46 0 1 0 0 0) = 46 ∧ rdOf (wd 46 0 1 0 0 0) = 0 ∧ rbOf (wd 46 0 1 0 0 0) = 0 ∧ rcOf (wd 46 0 1 0 0 0) = 0 ∧
      fnOf (wd 46 0 1 0 0 0) = 0 ∧ BitVec.toNat (gr 0 (raOf (wd 46 0 1 0 0 0)) (sp8 4096)) % 4 = 0) := ⟨⟨(by unfold CoreReady; decide +kernel), by decide +kernel⟩, ⟨(by unfold CoreReady; decide +kernel), by decide +kernel⟩,
    ⟨(by unfold CoreReady; decide +kernel), by decide +kernel⟩, ⟨(by unfold CoreReady; decide +kernel), writesMem_of (by decide +kernel) ⟨_, rfl⟩
    (by decide +kernel) (by decide +kernel) (by decide +kernel), by decide +kernel⟩, ⟨(by unfold CoreReady; decide +kernel), by decide +kernel⟩⟩

theorem test_BranchesAndCalls_2 :
    (CoreReady 0 (sp8 4096) ∧ TrapFree 0 (sp8 4096) ∧ majOf (wd 46 0 2 0 0 0) = 46 ∧ rdOf (wd 46 0 2 0 0 0) = 0 ∧ rbOf (wd 46 0 2 0 0 0) = 0 ∧ rcOf
      (wd 46 0 2 0 0 0) = 0 ∧ fnOf (wd 46 0 2 0 0 0) = 0 ∧ BitVec.toNat (gr 0 (raOf (wd 46 0 2 0 0 0)) (sp8 4096)) % 4 ≠ 0) ∧
    (CoreReady 0 (sp8 4096) ∧ WritesMem 0 (gr 0 31 (sp8 4096) - 8) 8 (fetched 0 (sp8 4096)) 4088 4096 (fetched 0 (sp8 4096)) ∧ majOf (wd 46 0 1 0 0
      1) = 46 ∧ rdOf (wd 46 0 1 0 0 1) = 0 ∧ rbOf (wd 46 0 1 0 0 1) = 0 ∧ rcOf (wd 46 0 1 0 0 1) = 0 ∧ fnOf (wd 46 0 1 0 0 1) = 1 ∧ BitVec.toNat
      (gr 0 (raOf (wd 46 0 1 0 0 1)) (sp8 4096)) % 4 = 0 ∧ BitVec.toNat (gr 0 31 (sp8 4096)) % 8 = 0 ∧ 8 ≤ BitVec.toNat (gr 0 31 (sp8 4096)) ∧
      stackLow 0 (gr 0 31 (sp8 4096) - 8) (sp8 4096) = false) ∧
    (CoreReady 0 (sp8 4100) ∧ TrapFree 0 (sp8 4100) ∧ majOf (wd 46 0 1 0 0 1) = 46 ∧ rdOf (wd 46 0 1 0 0 1) = 0 ∧ rbOf (wd 46 0 1 0 0 1) = 0 ∧ rcOf
      (wd 46 0 1 0 0 1) = 0 ∧ fnOf (wd 46 0 1 0 0 1) = 1 ∧ BitVec.toNat (gr 0 (raOf (wd 46 0 1 0 0 1)) (sp8 4100)) % 4 = 0 ∧ BitVec.toNat (gr 0 31
      (sp8 4100)) % 8 ≠ 0) ∧
    (CoreReady 0 (sp8 4096) ∧ ReadsMem 0 (gr 0 31 (sp8 4096)) 8 (fetched 0 (sp8 4096)) 4096 4104 (fetched 0 (sp8 4096)) ∧ majOf (wd 46 0 0 0 0 2) =
      46 ∧ rdOf (wd 46 0 0 0 0 2) = 0 ∧ rbOf (wd 46 0 0 0 0 2) = 0 ∧ rcOf (wd 46 0 0 0 0 2) = 0 ∧ fnOf (wd 46 0 0 0 0 2) = 2 ∧ raOf (wd 46 0 0 0 0
      2) = 0 ∧ BitVec.toNat (gr 0 31 (sp8 4096)) % 8 = 0 ∧ stackLow 0 (gr 0 31 (sp8 4096) + 8) (sp8 4096) = false ∧ memVal (gr 0 31 (sp8 4096)) 8
      4096 4104 (fetched 0 (sp8 4096)) % 4 = 0) := ⟨⟨(by unfold CoreReady; decide +kernel), (by unfold TrapFree; decide +kernel), by decide +kernel⟩, ⟨(by unfold CoreReady; decide +kernel),
    writesMem_of (by decide +kernel) ⟨_, rfl⟩ (by decide +kernel) (by decide +kernel) (by decide +kernel), by decide +kernel⟩,
    ⟨(by unfold CoreReady; decide +kernel), (by unfold TrapFree; decide +kernel), by decide +kernel⟩, ⟨(by unfold CoreReady; decide +kernel),
    ⟨by decide +kernel, ⟨_, rfl⟩, by decide +kernel⟩, by decide +kernel⟩⟩

theorem test_SystemInstructions :
    (CoreReady 0 (co g2) ∧ TrapFree 0 (co g2) ∧ majOf (wy 0 0 1 13) = 0 ∧ sysFnOf (wy 0 0 1 13) = 1 ∧ rdOf (wy 0 0 1 13) = 0 ∧ raOf (wy 0 0 1 13) =
      0 ∧ execOfCore 0 (co g2) = none) ∧
    (CoreReady 0 (co g2) ∧ TrapFree 0 (co g2) ∧ majOf (wy 0 0 2 0) = 0 ∧ sysFnOf (wy 0 0 2 0) = 2 ∧ rdOf (wy 0 0 2 0) = 0 ∧ raOf (wy 0 0 2 0) = 0 ∧
      fget (Fl.DBG_CORE_CTRL_DBGTRAP_HALT 0) (co g2) = 0) ∧
    (CoreReady 0 (sets [(Fl.DBG_CORE_CTRL_DBGTRAP_HALT 0, 1)] (co g2)) ∧ majOf (wy 0 0 2 0) = 0 ∧ sysFnOf (wy 0 0 2 0) = 2 ∧ rdOf (wy 0 0 2 0) = 0
      ∧ raOf (wy 0 0 2 0) = 0 ∧ fget (Fl.DBG_CORE_CTRL_DBGTRAP_HALT 0) (sets [(Fl.DBG_CORE_CTRL_DBGTRAP_HALT 0, 1)] (co g2)) = 1 ∧ (mode (sets
      [(Fl.DBG_CORE_CTRL_DBGTRAP_HALT 0, 1)] (co g2)) = 11 → 64 ≤ 0 ∧ 0 < 76 ∨ ∃ j < 12, coreHalted (64 + j) (sets [(Fl.DBG_CORE_CTRL_DBGTRAP_HALT
      0, 1)] (co g2)) = true)) ∧
    (CoreReady 0 (co g2) ∧ majOf (wy 0 0 3 15) = 0 ∧ sysFnOf (wy 0 0 3 15) = 3 ∧ rdOf (wy 0 0 3 15) = 0 ∧ raOf (wy 0 0 3 15) = 0 ∧ 1 ≤ simmOf (wy 0
      0 3 15) ∧ simmOf (wy 0 0 3 15) < 16) ∧
    (CoreReady 0 (co g2) ∧ TrapFree 0 (co g2) ∧ majOf (wy 0 0 3 0) = 0 ∧ sysFnOf (wy 0 0 3 0) = 3 ∧ (simmOf (wy 0 0 3 0) = 0 ∨ 16 ≤ simmOf (wy 0 0
      3 0))) ∧
    (CoreReady 0 (co g2) ∧ majOf (wy 0 0 4 0) = 0 ∧ sysFnOf (wy 0 0 4 0) = 4 ∧ rdOf (wy 0 0 4 0) = 0 ∧ raOf (wy 0 0 4 0) = 0 ∧ simmOf (wy 0 0 4 0)
      = 0) ∧
    (CoreReady 0 (co g2) ∧ majOf (wy 3 0 5 2) = 0 ∧ sysFnOf (wy 3 0 5 2) = 5 ∧ raOf (wy 3 0 5 2) = 0 ∧ sysExists 0 (simmOf (wy 3 0 5 2)) = true ∧
      sysDenied 0 (simmOf (wy 3 0 5 2)) (co g2) = false ∧ simmOf (wy 3 0 5 2) ≠ 0 ∧ rdOf (wy 3 0 5 2) ≠ 31) := ⟨⟨(by unfold CoreReady; decide +kernel), (by unfold TrapFree; decide +kernel), by decide +kernel⟩, ⟨(by unfold CoreReady; decide +kernel),
    (by unfold TrapFree; decide +kernel), by decide +kernel⟩, ⟨(by unfold CoreReady; decide +kernel), by decide +kernel⟩,
    ⟨(by unfold CoreReady; decide +kernel), by decide +kernel⟩, ⟨(by unfold CoreReady; decide +kernel), (by unfold TrapFree; decide +kernel),
    by decide +kernel⟩, ⟨(by unfold CoreReady; decide +kernel), by decide +kernel⟩, ⟨(by unfold CoreReady; decide +kernel), by decide +kernel⟩⟩

theorem test_SystemInstructions_2 :
    (CoreReady 0 (us 0 []) ∧ TrapFree 0 (us 0 []) ∧ majOf (wy 3 0 5 129) = 0 ∧ sysFnOf (wy 3 0 5 129) = 5 ∧ raOf (wy 3 0 5 129) = 0 ∧ sysExists 0
      (simmOf (wy 3 0 5 129)) = true ∧ sysDenied 0 (simmOf (wy 3 0 5 129)) (us 0 []) = true) ∧
    (CoreReady 0 (co g2) ∧ majOf (wy 0 2 6 130) = 0 ∧ sysFnOf (wy 0 2 6 130) = 6 ∧ rdOf (wy 0 2 6 130) = 0 ∧ sysExists 0 (simmOf (wy 0 2 6 130)) =
      true ∧ sysDenied 0 (simmOf (wy 0 2 6 130)) (co g2) = false ∧ sysReadOnly (simmOf (wy 0 2 6 130)) = false ∧ simmOf (wy 0 2 6 130) ≠ 5 ∧ simmOf
      (wy 0 2 6 130) ≠ 74 ∧ simmOf (wy 0 2 6 130) ≠ 138 ∧ sysWriteBad 0 (simmOf (wy 0 2 6 130)) (gr 0 (raOf (wy 0 2 6 130)) (co g2)) = false) ∧
    (CoreReady 0 (co g2) ∧ majOf (wy 3 0 5 0) = 0 ∧ sysFnOf (wy 3 0 5 0) = 5 ∧ raOf (wy 3 0 5 0) = 0 ∧ simmOf (wy 3 0 5 0) = 0 ∧ rdOf (wy 3 0 5 0)
      ≠ 31) ∧
    (CoreReady 0 (co g2) ∧ majOf (wy 0 1 6 5) = 0 ∧ sysFnOf (wy 0 1 6 5) = 6 ∧ rdOf (wy 0 1 6 5) = 0 ∧ simmOf (wy 0 1 6 5) = 5) ∧
    (CoreReady 0 (putSys 0 138 8 (co [(1, neg)])) ∧ majOf (wy 0 1 6 138) = 0 ∧ sysFnOf (wy 0 1 6 138) = 6 ∧ rdOf (wy 0 1 6 138) = 0 ∧ simmOf (wy 0
      1 6 138) = 138 ∧ sysDenied 0 (simmOf (wy 0 1 6 138)) (putSys 0 138 8 (co [(1, neg)])) = false) ∧
    (CoreReady 0 (co g2) ∧ TrapFree 0 (co g2) ∧ majOf (wy 0 2 6 2) = 0 ∧ sysFnOf (wy 0 2 6 2) = 6 ∧ rdOf (wy 0 2 6 2) = 0 ∧ sysExists 0 (simmOf (wy
      0 2 6 2)) = true ∧ sysReadOnly (simmOf (wy 0 2 6 2)) = true) ∧
    (CoreReady 0 (co g2) ∧ majOf (wy 0 0 7 0) = 0 ∧ sysFnOf (wy 0 0 7 0) = 7 ∧ rdOf (wy 0 0 7 0) = 0 ∧ raOf (wy 0 0 7 0) = 0 ∧ simmOf (wy 0 0 7 0)
      = 0 ∧ atUser 0 (co g2) = false) := ⟨⟨(by unfold CoreReady; decide +kernel), (by unfold TrapFree; decide +kernel), by decide +kernel⟩, ⟨(by unfold CoreReady; decide +kernel),
    by decide +kernel⟩, ⟨(by unfold CoreReady; decide +kernel), by decide +kernel⟩, ⟨(by unfold CoreReady; decide +kernel), by decide +kernel⟩,
    ⟨(by unfold CoreReady; decide +kernel), by decide +kernel⟩, ⟨(by unfold CoreReady; decide +kernel), (by unfold TrapFree; decide +kernel),
    by decide +kernel⟩, ⟨(by unfold CoreReady; decide +kernel), by decide +kernel⟩⟩

theorem test_SystemInstructions_3 :
    (CoreReady 0 (co g2) ∧ majOf (wy 0 0 8 0) = 0 ∧ sysFnOf (wy 0 0 8 0) = 8 ∧ rdOf (wy 0 0 8 0) = 0 ∧ raOf (wy 0 0 8 0) = 0 ∧ simmOf (wy 0 0 8 0)
      = 0 ∧ atUser 0 (co g2) = false) ∧
    (CoreReady 0 (co g2) ∧ majOf (wy 0 1 9 0) = 0 ∧ sysFnOf (wy 0 1 9 0) = 9 ∧ rdOf (wy 0 1 9 0) = 0 ∧ simmOf (wy 0 1 9 0) = 0 ∧ atUser 0 (co g2) =
      false) ∧
    (CoreReady 0 (us 0 []) ∧ TrapFree 0 (us 0 []) ∧ majOf (wy 0 0 7 0) = 0 ∧ sysFnOf (wy 0 0 7 0) = 7 ∧ rdOf (wy 0 0 7 0) = 0 ∧ raOf (wy 0 0 7 0) =
      0 ∧ simmOf (wy 0 0 7 0) = 0 ∧ atUser 0 (us 0 []) = true) ∧
    (CoreReady 0 (co g2) ∧ TrapFree 0 (co g2) ∧ assigned (wi 63 2 31 65520) = false) ∧
    (0 < 77 ∧ coreUp 0 (it 0) = true ∧ coreHalted 0 (it 0) = false ∧ (coreAt 0 (it 0)).locked = false ∧ (coreAt 0 (it 0)).stepping = false ∧
      (coreAt 0 (it 0)).ahead = none ∧ pendingInt 0 (if 0 = 76 then it 0 else
      { pending := (it 0).pending, regs := (it 0).regs, mem := (it 0).mem, free := (it 0).free, tick := (it 0).tick, variant := (it 0).variant, feat := (it 0).feat, pbk := (it 0).pbk, pow := (it 0).pow, nv := (it 0).nv, ftl := (it 0).ftl, media := (it 0).media, ten := (it 0).ten, prog := (it 0).prog, dram := (it 0).dram, mat := (it 0).mat, comp := (it 0).comp, scan := (it 0).scan, dig := (it 0).dig, keys := (it 0).keys, sch := (it 0).sch, cores := SMap.put (it 0).cores 0 { g := (coreAt 0 (it 0)).g, pc := (coreAt 0 (it 0)).pc, lvl := (coreAt 0 (it 0)).lvl, v := (coreAt 0 (it 0)).v, sys := (coreAt 0 (it 0)).sys, tlb := (coreAt 0 (it 0)).tlb, tables := (coreAt 0 (it 0)).tables, idle := (coreAt 0 (it 0)).idle, locked := (coreAt 0 (it 0)).locked, stepping := (coreAt 0 (it 0)).stepping, passBp := (coreAt 0 (it 0)).passBp, ahead := (coreAt 0 (it 0)).ahead, episodes := (coreAt 0 (it 0)).episodes, ext := true : Core }, clus := (it 0).clus, net := (it 0).net, mgt := (it 0).mgt, bus := (it 0).bus, acc := (it 0).acc, dirty := (it 0).dirty : State })
      = some (2, 0)) ∧
    (0 < 77 ∧ coreUp 0
      { pending := (co [(1, 2)]).pending, regs := (co [(1, 2)]).regs, mem := (co [(1, 2)]).mem, free := (co [(1, 2)]).free, tick := (co [(1, 2)]).tick, variant := (co [(1, 2)]).variant, feat := (co [(1, 2)]).feat, pbk := (co [(1, 2)]).pbk, pow := (co [(1, 2)]).pow, nv := (co [(1, 2)]).nv, ftl := (co [(1, 2)]).ftl, media := (co [(1, 2)]).media, ten := (co [(1, 2)]).ten, prog := (co [(1, 2)]).prog, dram := (co [(1, 2)]).dram, mat := (co [(1, 2)]).mat, comp := (co [(1, 2)]).comp, scan := (co [(1, 2)]).scan, dig := (co [(1, 2)]).dig, keys := (co [(1, 2)]).keys, sch := (co [(1, 2)]).sch, cores := [(0, { g := Core.fresh.g, pc := Core.fresh.pc, lvl := Core.fresh.lvl, v := Core.fresh.v, sys := [(139, 100)], tlb := Core.fresh.tlb, tables := Core.fresh.tables, idle := Core.fresh.idle, locked := Core.fresh.locked, stepping := Core.fresh.stepping, passBp := Core.fresh.passBp, ahead := Core.fresh.ahead, episodes := Core.fresh.episodes, ext := Core.fresh.ext : Core })], clus := (co [(1, 2)]).clus, net := (co [(1, 2)]).net, mgt := (co [(1, 2)]).mgt, bus := (co [(1, 2)]).bus, acc := (co [(1, 2)]).acc, dirty := (co [(1, 2)]).dirty : State }
      = true ∧ (coreAt 0
      { pending := (co [(1, 2)]).pending, regs := (co [(1, 2)]).regs, mem := (co [(1, 2)]).mem, free := (co [(1, 2)]).free, tick := (co [(1, 2)]).tick, variant := (co [(1, 2)]).variant, feat := (co [(1, 2)]).feat, pbk := (co [(1, 2)]).pbk, pow := (co [(1, 2)]).pow, nv := (co [(1, 2)]).nv, ftl := (co [(1, 2)]).ftl, media := (co [(1, 2)]).media, ten := (co [(1, 2)]).ten, prog := (co [(1, 2)]).prog, dram := (co [(1, 2)]).dram, mat := (co [(1, 2)]).mat, comp := (co [(1, 2)]).comp, scan := (co [(1, 2)]).scan, dig := (co [(1, 2)]).dig, keys := (co [(1, 2)]).keys, sch := (co [(1, 2)]).sch, cores := [(0, { g := Core.fresh.g, pc := Core.fresh.pc, lvl := Core.fresh.lvl, v := Core.fresh.v, sys := [(139, 100)], tlb := Core.fresh.tlb, tables := Core.fresh.tables, idle := Core.fresh.idle, locked := Core.fresh.locked, stepping := Core.fresh.stepping, passBp := Core.fresh.passBp, ahead := Core.fresh.ahead, episodes := Core.fresh.episodes, ext := Core.fresh.ext : Core })], clus := (co [(1, 2)]).clus, net := (co [(1, 2)]).net, mgt := (co [(1, 2)]).mgt, bus := (co [(1, 2)]).bus, acc := (co [(1, 2)]).acc, dirty := (co [(1, 2)]).dirty : State }).ahead
      = none ∧ BitVec.toNat (sysAt 0 139
      { pending := (co [(1, 2)]).pending, regs := (co [(1, 2)]).regs, mem := (co [(1, 2)]).mem, free := (co [(1, 2)]).free, tick := (co [(1, 2)]).tick, variant := (co [(1, 2)]).variant, feat := (co [(1, 2)]).feat, pbk := (co [(1, 2)]).pbk, pow := (co [(1, 2)]).pow, nv := (co [(1, 2)]).nv, ftl := (co [(1, 2)]).ftl, media := (co [(1, 2)]).media, ten := (co [(1, 2)]).ten, prog := (co [(1, 2)]).prog, dram := (co [(1, 2)]).dram, mat := (co [(1, 2)]).mat, comp := (co [(1, 2)]).comp, scan := (co [(1, 2)]).scan, dig := (co [(1, 2)]).dig, keys := (co [(1, 2)]).keys, sch := (co [(1, 2)]).sch, cores := [(0, { g := Core.fresh.g, pc := Core.fresh.pc, lvl := Core.fresh.lvl, v := Core.fresh.v, sys := [(139, 100)], tlb := Core.fresh.tlb, tables := Core.fresh.tables, idle := Core.fresh.idle, locked := Core.fresh.locked, stepping := Core.fresh.stepping, passBp := Core.fresh.passBp, ahead := Core.fresh.ahead, episodes := Core.fresh.episodes, ext := Core.fresh.ext : Core })], clus := (co [(1, 2)]).clus, net := (co [(1, 2)]).net, mgt := (co [(1, 2)]).mgt, bus := (co [(1, 2)]).bus, acc := (co [(1, 2)]).acc, dirty := (co [(1, 2)]).dirty : State })
      ≤ BitVec.toNat (sysAt 0 0
      { pending := (co [(1, 2)]).pending, regs := (co [(1, 2)]).regs, mem := (co [(1, 2)]).mem, free := (co [(1, 2)]).free, tick := (co [(1, 2)]).tick, variant := (co [(1, 2)]).variant, feat := (co [(1, 2)]).feat, pbk := (co [(1, 2)]).pbk, pow := (co [(1, 2)]).pow, nv := (co [(1, 2)]).nv, ftl := (co [(1, 2)]).ftl, media := (co [(1, 2)]).media, ten := (co [(1, 2)]).ten, prog := (co [(1, 2)]).prog, dram := (co [(1, 2)]).dram, mat := (co [(1, 2)]).mat, comp := (co [(1, 2)]).comp, scan := (co [(1, 2)]).scan, dig := (co [(1, 2)]).dig, keys := (co [(1, 2)]).keys, sch := (co [(1, 2)]).sch, cores := [(0, { g := Core.fresh.g, pc := Core.fresh.pc, lvl := Core.fresh.lvl, v := Core.fresh.v, sys := [(139, 100)], tlb := Core.fresh.tlb, tables := Core.fresh.tables, idle := Core.fresh.idle, locked := Core.fresh.locked, stepping := Core.fresh.stepping, passBp := Core.fresh.passBp, ahead := Core.fresh.ahead, episodes := Core.fresh.episodes, ext := Core.fresh.ext : Core })], clus := (co [(1, 2)]).clus, net := (co [(1, 2)]).net, mgt := (co [(1, 2)]).mgt, bus := (co [(1, 2)]).bus, acc := (co [(1, 2)]).acc, dirty := (co [(1, 2)]).dirty : State }
      + 100#64)) := ⟨⟨(by unfold CoreReady; decide +kernel), by decide +kernel⟩, ⟨(by unfold CoreReady; decide +kernel), by decide +kernel⟩,
    ⟨(by unfold CoreReady; decide +kernel), (by unfold TrapFree; decide +kernel), by decide +kernel⟩, ⟨(by unfold CoreReady; decide +kernel),
    (by unfold TrapFree; decide +kernel), by decide +kernel⟩, by decide +kernel, by decide +kernel⟩

end Cores

namespace Vectors

/-- Compute core 0 with vector instructions on and these registers. -/
def cv (g : List (Nat × Word)) (v : List (Nat × BitVec 256)) : State :=
  let u := fset (Fl.AXC_STATUS_STATE 0) 1 up
  { u with cores := [(0, { Core.fresh with g := g, v := v, sys := [(0x80, 0x10)] })] }
/-- A word of ALU3 or VR form. -/
def wv (maj rd ra rb sz fn : Nat) : Half := BitVec.ofNat 32 (maj * 2 ^ 26 + rd * 2 ^ 21 + ra * 2 ^ 16 + rb * 2 ^ 11 + sz * 2 ^ 9 + fn)
def v1 : BitVec 256 := 0x7FFF807F0123456789ABCDEF00FF80017FFFFFFF800000000000000100000080
def v2 : BitVec 256 := 0x7F01800F8123456799ABCDEF01FF80018FFFFFFF8000000180000001000000FF
def vs : List (Nat × BitVec 256) := [(1, v1), (2, v2), (3, ~~~v2)]
def cg : State := cv [(1, 0xFFFFFFFF80000005), (2, 0x1234567890000023)] vs
def coff : State := { cg with cores := [(0, { Core.fresh with v := vs })] }
def fa : BitVec 256 := 0x3F8000007F800001FFC000007F80000000800000000000013F8000004B000001
def fb : BitVec 256 := 0x7FC00000BF80000040490FDBFF800000806000008000000033800000CB000001
def cf : State := cv [] [(1, fa), (2, fb), (3, 0x7FF0000000000000400921FB54442D18BFF0000000000000C1E0000000000001)]
def vm : State := { cv [(1, 4090)] vs with mem := [(4090, 0x91), (4095, 0x80), (4096, 0x84), (4097, 0x85), (4121, 0x86)] }
def vw : State := cv [(1, 0x100000000010)] vs

theorem test_VectorIntegers :
    (CoreReady 0 cg ∧ VecOn 0 cg ∧ 0 ≠ 76 ∧ majOf (wv 48 3 1 2 0 0) = 48 ∧ wbits (wv 48 3 1 2 0 0) 6 3 = 0 ∧ fnOf (wv 48 3 1 2 0 0) = 0) ∧
    (CoreReady 0 cg ∧ VecOn 0 cg ∧ 0 ≠ 76 ∧ majOf (wv 48 3 1 2 0 1) = 48 ∧ wbits (wv 48 3 1 2 0 1) 6 3 = 0 ∧ fnOf (wv 48 3 1 2 0 1) = 1) ∧
    (CoreReady 0 cg ∧ VecOn 0 cg ∧ 0 ≠ 76 ∧ majOf (wv 48 3 1 2 0 2) = 48 ∧ wbits (wv 48 3 1 2 0 2) 6 3 = 0 ∧ fnOf (wv 48 3 1 2 0 2) = 2) ∧
    (CoreReady 0 cg ∧ VecOn 0 cg ∧ 0 ≠ 76 ∧ majOf (wv 48 3 1 2 0 3) = 48 ∧ wbits (wv 48 3 1 2 0 3) 6 3 = 0 ∧ fnOf (wv 48 3 1 2 0 3) = 3) ∧
    (CoreReady 0 cg ∧ VecOn 0 cg ∧ 0 ≠ 76 ∧ majOf (wv 48 3 1 2 0 4) = 48 ∧ wbits (wv 48 3 1 2 0 4) 6 3 = 0 ∧ fnOf (wv 48 3 1 2 0 4) = 4 ∧ szOf (wv
      48 3 1 2 0 4) = 0) ∧
    (CoreReady 0 cg ∧ VecOn 0 cg ∧ 0 ≠ 76 ∧ majOf (wv 48 3 1 2 0 5) = 48 ∧ wbits (wv 48 3 1 2 0 5) 6 3 = 0 ∧ fnOf (wv 48 3 1 2 0 5) = 5 ∧ szOf (wv
      48 3 1 2 0 5) = 0) ∧
    (CoreReady 0 cg ∧ VecOn 0 cg ∧ 0 ≠ 76 ∧ majOf (wv 48 3 1 2 0 6) = 48 ∧ wbits (wv 48 3 1 2 0 6) 6 3 = 0 ∧ fnOf (wv 48 3 1 2 0 6) = 6 ∧ szOf (wv
      48 3 1 2 0 6) = 0) := ⟨⟨(by unfold CoreReady; decide +kernel), (by unfold VecOn; decide +kernel), by decide +kernel⟩, ⟨(by unfold CoreReady; decide +kernel),
    (by unfold VecOn; decide +kernel), by decide +kernel⟩, ⟨(by unfold CoreReady; decide +kernel), (by unfold VecOn; decide +kernel),
    by decide +kernel⟩, ⟨(by unfold CoreReady; decide +kernel), (by unfold VecOn; decide +kernel), by decide +kernel⟩,
    ⟨(by unfold CoreReady; decide +kernel), (by unfold VecOn; decide +kernel), by decide +kernel⟩, ⟨(by unfold CoreReady; decide +kernel),
    (by unfold VecOn; decide +kernel), by decide +kernel⟩, ⟨(by unfold CoreReady; decide +kernel), (by unfold VecOn; decide +kernel),
    by decide +kernel⟩⟩

theorem test_VectorIntegers_2 :
    (CoreReady 0 cg ∧ VecOn 0 cg ∧ 0 ≠ 76 ∧ majOf (wv 48 3 1 2 0 7) = 48 ∧ wbits (wv 48 3 1 2 0 7) 6 3 = 0 ∧ fnOf (wv 48 3 1 2 0 7) = 7 ∧ szOf (wv
      48 3 1 2 0 7) = 0) ∧
    (CoreReady 0 cg ∧ VecOn 0 cg ∧ 0 ≠ 76 ∧ majOf (wv 48 3 1 2 0 8) = 48 ∧ wbits (wv 48 3 1 2 0 8) 6 3 = 0 ∧ fnOf (wv 48 3 1 2 0 8) = 8) ∧
    (CoreReady 0 cg ∧ VecOn 0 cg ∧ 0 ≠ 76 ∧ majOf (wv 48 3 1 2 0 9) = 48 ∧ wbits (wv 48 3 1 2 0 9) 6 3 = 0 ∧ fnOf (wv 48 3 1 2 0 9) = 9) ∧
    (CoreReady 0 cg ∧ VecOn 0 cg ∧ 0 ≠ 76 ∧ majOf (wv 48 3 1 2 0 10) = 48 ∧ wbits (wv 48 3 1 2 0 10) 6 3 = 0 ∧ fnOf (wv 48 3 1 2 0 10) = 10) ∧
    (CoreReady 0 cg ∧ VecOn 0 cg ∧ 0 ≠ 76 ∧ majOf (wv 48 3 1 2 0 11) = 48 ∧ wbits (wv 48 3 1 2 0 11) 6 3 = 0 ∧ fnOf (wv 48 3 1 2 0 11) = 11) ∧
    (CoreReady 0 cg ∧ VecOn 0 cg ∧ 0 ≠ 76 ∧ majOf (wv 48 3 1 2 0 12) = 48 ∧ wbits (wv 48 3 1 2 0 12) 6 3 = 0 ∧ fnOf (wv 48 3 1 2 0 12) = 12 ∧ szOf
      (wv 48 3 1 2 0 12) ≤ 2) ∧
    (CoreReady 0 cg ∧ VecOn 0 cg ∧ 0 ≠ 76 ∧ majOf (wv 48 3 1 2 0 13) = 48 ∧ wbits (wv 48 3 1 2 0 13) 6 3 = 0 ∧ fnOf (wv 48 3 1 2 0 13) = 13 ∧ szOf
      (wv 48 3 1 2 0 13) ≤ 2) := ⟨⟨(by unfold CoreReady; decide +kernel), (by unfold VecOn; decide +kernel), by decide +kernel⟩, ⟨(by unfold CoreReady; decide +kernel),
    (by unfold VecOn; decide +kernel), by decide +kernel⟩, ⟨(by unfold CoreReady; decide +kernel), (by unfold VecOn; decide +kernel),
    by decide +kernel⟩, ⟨(by unfold CoreReady; decide +kernel), (by unfold VecOn; decide +kernel), by decide +kernel⟩,
    ⟨(by unfold CoreReady; decide +kernel), (by unfold VecOn; decide +kernel), by decide +kernel⟩, ⟨(by unfold CoreReady; decide +kernel),
    (by unfold VecOn; decide +kernel), by decide +kernel⟩, ⟨(by unfold CoreReady; decide +kernel), (by unfold VecOn; decide +kernel),
    by decide +kernel⟩⟩

theorem test_VectorIntegers_3 :
    (CoreReady 0 cg ∧ VecOn 0 cg ∧ 0 ≠ 76 ∧ majOf (wv 48 3 1 2 0 14) = 48 ∧ wbits (wv 48 3 1 2 0 14) 6 3 = 0 ∧ fnOf (wv 48 3 1 2 0 14) = 14 ∧ szOf
      (wv 48 3 1 2 0 14) ≤ 2) ∧
    (CoreReady 0 cg ∧ VecOn 0 cg ∧ 0 ≠ 76 ∧ majOf (wv 48 3 1 2 0 15) = 48 ∧ wbits (wv 48 3 1 2 0 15) 6 3 = 0 ∧ fnOf (wv 48 3 1 2 0 15) = 15 ∧ szOf
      (wv 48 3 1 2 0 15) ≤ 2) ∧
    (CoreReady 0 cg ∧ VecOn 0 cg ∧ 0 ≠ 76 ∧ majOf (wv 48 3 1 2 1 16) = 48 ∧ wbits (wv 48 3 1 2 1 16) 6 3 = 0 ∧ 1 ≤ szOf (wv 48 3 1 2 1 16) ∧ fnOf
      (wv 48 3 1 2 1 16) = 16) ∧
    (CoreReady 0 cg ∧ VecOn 0 cg ∧ 0 ≠ 76 ∧ majOf (wv 48 3 1 2 1 17) = 48 ∧ wbits (wv 48 3 1 2 1 17) 6 3 = 0 ∧ 1 ≤ szOf (wv 48 3 1 2 1 17) ∧ fnOf
      (wv 48 3 1 2 1 17) = 17) ∧
    (CoreReady 0 cg ∧ VecOn 0 cg ∧ 0 ≠ 76 ∧ majOf (wv 48 3 1 2 1 18) = 48 ∧ wbits (wv 48 3 1 2 1 18) 6 3 = 0 ∧ 1 ≤ szOf (wv 48 3 1 2 1 18) ∧ fnOf
      (wv 48 3 1 2 1 18) = 18) ∧
    (CoreReady 0 cg ∧ VecOn 0 cg ∧ 0 ≠ 76 ∧ majOf (wv 48 3 1 2 0 19) = 48 ∧ wbits (wv 48 3 1 2 0 19) 6 3 = 0 ∧ fnOf (wv 48 3 1 2 0 19) = 19 ∧ szOf
      (wv 48 3 1 2 0 19) = 0) ∧
    (CoreReady 0 cg ∧ VecOn 0 cg ∧ 0 ≠ 76 ∧ majOf (wv 48 3 1 2 0 20) = 48 ∧ wbits (wv 48 3 1 2 0 20) 6 3 = 0 ∧ fnOf (wv 48 3 1 2 0 20) = 20) := ⟨⟨(by unfold CoreReady; decide +kernel), (by unfold VecOn; decide +kernel), by decide +kernel⟩, ⟨(by unfold CoreReady; decide +kernel),
    (by unfold VecOn; decide +kernel), by decide +kernel⟩, ⟨(by unfold CoreReady; decide +kernel), (by unfold VecOn; decide +kernel),
    by decide +kernel⟩, ⟨(by unfold CoreReady; decide +kernel), (by unfold VecOn; decide +kernel), by decide +kernel⟩,
    ⟨(by unfold CoreReady; decide +kernel), (by unfold VecOn; decide +kernel), by decide +kernel⟩, ⟨(by unfold CoreReady; decide +kernel),
    (by unfold VecOn; decide +kernel), by decide +kernel⟩, ⟨(by unfold CoreReady; decide +kernel), (by unfold VecOn; decide +kernel),
    by decide +kernel⟩⟩

theorem test_VectorIntegers_4 :
    (CoreReady 0 cg ∧ VecOn 0 cg ∧ 0 ≠ 76 ∧ majOf (wv 48 3 1 2 0 21) = 48 ∧ wbits (wv 48 3 1 2 0 21) 6 3 = 0 ∧ fnOf (wv 48 3 1 2 0 21) = 21) ∧
    (CoreReady 0 cg ∧ VecOn 0 cg ∧ 0 ≠ 76 ∧ majOf (wv 48 3 1 2 0 22) = 48 ∧ wbits (wv 48 3 1 2 0 22) 6 3 = 0 ∧ fnOf (wv 48 3 1 2 0 22) = 22) ∧
    (CoreReady 0 cg ∧ VecOn 0 cg ∧ 0 ≠ 76 ∧ majOf (wv 48 3 1 2 3 23) = 48 ∧ wbits (wv 48 3 1 2 3 23) 6 3 = 0 ∧ fnOf (wv 48 3 1 2 3 23) = 23 ∧ szOf
      (wv 48 3 1 2 3 23) = 3) ∧
    (CoreReady 0 coff ∧ TrapFree 0 coff ∧ 0 ≠ 76 ∧ majOf (wv 48 3 1 2 0 0) = 48 ∧ wbits (wv 48 3 1 2 0 0) 6 3 = 0 ∧ fnOf (wv 48 3 1 2 0 0) = 0 ∧
      sysField 0 (venReg 0 coff) 4 1 coff = 0) ∧
    (CoreReady 0 cg ∧ TrapFree 0 cg ∧ 0 ≠ 76 ∧ majOf (wv 48 3 1 2 3 4) = 48 ∧ wbits (wv 48 3 1 2 3 4) 6 3 = 0 ∧ fnOf (wv 48 3 1 2 3 4) = 4 ∧ szOf
      (wv 48 3 1 2 3 4) ≠ 0) ∧
    (CoreReady 0 cg ∧ TrapFree 0 cg ∧ 0 ≠ 76 ∧ majOf (wv 48 3 1 2 0 16) = 48 ∧ wbits (wv 48 3 1 2 0 16) 6 3 = 0 ∧ fnOf (wv 48 3 1 2 0 16) = 16 ∧
      szOf (wv 48 3 1 2 0 16) = 0) ∧
    (CoreReady 0 cg ∧ TrapFree 0 cg ∧ 0 ≠ 76 ∧ majOf (wv 48 3 1 2 3 12) = 48 ∧ wbits (wv 48 3 1 2 3 12) 6 3 = 0 ∧ fnOf (wv 48 3 1 2 3 12) = 12 ∧
      szOf (wv 48 3 1 2 3 12) = 3) := ⟨⟨(by unfold CoreReady; decide +kernel), (by unfold VecOn; decide +kernel), by decide +kernel⟩, ⟨(by unfold CoreReady; decide +kernel),
    (by unfold VecOn; decide +kernel), by decide +kernel⟩, ⟨(by unfold CoreReady; decide +kernel), (by unfold VecOn; decide +kernel),
    by decide +kernel⟩, ⟨(by unfold CoreReady; decide +kernel), (by unfold TrapFree; decide +kernel), by decide +kernel⟩,
    ⟨(by unfold CoreReady; decide +kernel), (by unfold TrapFree; decide +kernel), by decide +kernel⟩, ⟨(by unfold CoreReady; decide +kernel),
    (by unfold TrapFree; decide +kernel), by decide +kernel⟩, ⟨(by unfold CoreReady; decide +kernel), (by unfold TrapFree; decide +kernel),
    by decide +kernel⟩⟩

theorem test_VectorFloats :
    (CoreReady 0 cf ∧ VecOn 0 cf ∧ majOf (wv 49 3 1 2 2 0) = 49 ∧ wbits (wv 49 3 1 2 2 0) 6 3 = 0 ∧ 2 ≤ szOf (wv 49 3 1 2 2 0) ∧ fnOf (wv 49 3 1 2
      2 0) = 0) ∧
    (CoreReady 0 cf ∧ VecOn 0 cf ∧ majOf (wv 49 3 1 2 2 1) = 49 ∧ wbits (wv 49 3 1 2 2 1) 6 3 = 0 ∧ 2 ≤ szOf (wv 49 3 1 2 2 1) ∧ fnOf (wv 49 3 1 2
      2 1) = 1) ∧
    (CoreReady 0 cf ∧ VecOn 0 cf ∧ majOf (wv 49 3 1 2 2 2) = 49 ∧ wbits (wv 49 3 1 2 2 2) 6 3 = 0 ∧ 2 ≤ szOf (wv 49 3 1 2 2 2) ∧ fnOf (wv 49 3 1 2
      2 2) = 2) ∧
    (CoreReady 0 cf ∧ VecOn 0 cf ∧ majOf (wv 49 3 1 2 2 3) = 49 ∧ wbits (wv 49 3 1 2 2 3) 6 3 = 0 ∧ 2 ≤ szOf (wv 49 3 1 2 2 3) ∧ fnOf (wv 49 3 1 2
      2 3) = 3) ∧
    (CoreReady 0 cf ∧ VecOn 0 cf ∧ majOf (wv 49 3 1 2 2 4) = 49 ∧ wbits (wv 49 3 1 2 2 4) 6 3 = 0 ∧ 2 ≤ szOf (wv 49 3 1 2 2 4) ∧ fnOf (wv 49 3 1 2
      2 4) = 4) ∧
    (CoreReady 0 cf ∧ VecOn 0 cf ∧ majOf (wv 49 3 1 2 2 5) = 49 ∧ wbits (wv 49 3 1 2 2 5) 6 3 = 0 ∧ 2 ≤ szOf (wv 49 3 1 2 2 5) ∧ fnOf (wv 49 3 1 2
      2 5) = 5) := ⟨⟨(by unfold CoreReady; decide +kernel), (by unfold VecOn; decide +kernel), by decide +kernel⟩, ⟨(by unfold CoreReady; decide +kernel),
    (by unfold VecOn; decide +kernel), by decide +kernel⟩, ⟨(by unfold CoreReady; decide +kernel), (by unfold VecOn; decide +kernel),
    by decide +kernel⟩, ⟨(by unfold CoreReady; decide +kernel), (by unfold VecOn; decide +kernel), by decide +kernel⟩,
    ⟨(by unfold CoreReady; decide +kernel), (by unfold VecOn; decide +kernel), by decide +kernel⟩, ⟨(by unfold CoreReady; decide +kernel),
    (by unfold VecOn; decide +kernel), by decide +kernel⟩⟩

theorem test_VectorFloats_2 :
    (CoreReady 0 cf ∧ VecOn 0 cf ∧ majOf (wv 49 3 1 2 2 9) = 49 ∧ wbits (wv 49 3 1 2 2 9) 6 3 = 0 ∧ 2 ≤ szOf (wv 49 3 1 2 2 9) ∧ fnOf (wv 49 3 1 2
      2 9) = 9) ∧
    (CoreReady 0 cf ∧ VecOn 0 cf ∧ majOf (wv 49 3 1 2 2 10) = 49 ∧ wbits (wv 49 3 1 2 2 10) 6 3 = 0 ∧ 2 ≤ szOf (wv 49 3 1 2 2 10) ∧ fnOf (wv 49 3 1
      2 2 10) = 10) ∧
    (CoreReady 0 cf ∧ VecOn 0 cf ∧ majOf (wv 49 3 1 2 2 6) = 49 ∧ wbits (wv 49 3 1 2 2 6) 6 3 = 0 ∧ 2 ≤ szOf (wv 49 3 1 2 2 6) ∧ fnOf (wv 49 3 1 2
      2 6) = 6) ∧
    (CoreReady 0 cf ∧ VecOn 0 cf ∧ majOf (wv 49 3 1 2 2 7) = 49 ∧ wbits (wv 49 3 1 2 2 7) 6 3 = 0 ∧ 2 ≤ szOf (wv 49 3 1 2 2 7) ∧ fnOf (wv 49 3 1 2
      2 7) = 7) ∧
    (CoreReady 0 cf ∧ VecOn 0 cf ∧ majOf (wv 49 3 1 2 2 8) = 49 ∧ wbits (wv 49 3 1 2 2 8) 6 3 = 0 ∧ 2 ≤ szOf (wv 49 3 1 2 2 8) ∧ fnOf (wv 49 3 1 2
      2 8) = 8) := ⟨⟨(by unfold CoreReady; decide +kernel), (by unfold VecOn; decide +kernel), by decide +kernel⟩, ⟨(by unfold CoreReady; decide +kernel),
    (by unfold VecOn; decide +kernel), by decide +kernel⟩, ⟨(by unfold CoreReady; decide +kernel), (by unfold VecOn; decide +kernel),
    by decide +kernel⟩, ⟨(by unfold CoreReady; decide +kernel), (by unfold VecOn; decide +kernel), by decide +kernel⟩,
    ⟨(by unfold CoreReady; decide +kernel), (by unfold VecOn; decide +kernel), by decide +kernel⟩⟩

theorem test_VectorTransfers :
    (CoreReady 0 cg ∧ VecOn 0 cg ∧ majOf (wv 50 3 1 0 0 0) = 50 ∧ wbits (wv 50 3 1 0 0 0) 6 3 = 0 ∧ fnOf (wv 50 3 1 0 0 0) = 0 ∧ rbOf (wv 50 3 1 0
      0 0) = 0) ∧
    (CoreReady 0 cg ∧ VecOn 0 cg ∧ majOf (wv 50 3 1 0 0 1) = 50 ∧ wbits (wv 50 3 1 0 0 1) 6 3 = 0 ∧ fnOf (wv 50 3 1 0 0 1) = 1 ∧ rbOf (wv 50 3 1 0
      0 1) < elemCount (szOf (wv 50 3 1 0 0 1)) ∧ rdOf (wv 50 3 1 0 0 1) ≠ 31) ∧
    (CoreReady 0 cg ∧ VecOn 0 cg ∧ majOf (wv 50 3 1 0 0 2) = 50 ∧ wbits (wv 50 3 1 0 0 2) 6 3 = 0 ∧ fnOf (wv 50 3 1 0 0 2) = 2 ∧ rbOf (wv 50 3 1 0
      0 2) < elemCount (szOf (wv 50 3 1 0 0 2))) ∧
    (CoreReady 0 cg ∧ VecOn 0 cg ∧ majOf (wv 50 3 1 0 0 3) = 50 ∧ wbits (wv 50 3 1 0 0 3) 6 3 = 0 ∧ fnOf (wv 50 3 1 0 0 3) = 3 ∧ rbOf (wv 50 3 1 0
      0 3) = 0 ∧ (∀ i < 64, BitVec.getLsbD (1626765313 : Word) i = (decide (i < elemCount (szOf (wv 50 3 1 0 0 3))) && BitVec.msb (lane (elemBits
      (szOf (wv 50 3 1 0 0 3))) (vr 0 (raOf (wv 50 3 1 0 0 3)) cg) i))) ∧ rdOf (wv 50 3 1 0 0 3) ≠ 31) ∧
    (CoreReady 0 cg ∧ VecOn 0 cg ∧ majOf (wv 50 3 1 2 0 4) = 50 ∧ wbits (wv 50 3 1 2 0 4) 6 3 = 0 ∧ fnOf (wv 50 3 1 2 0 4) = 4 ∧ szOf (wv 50 3 1 2
      0 4) = 0) ∧
    (CoreReady 0 cg ∧ VecOn 0 cg ∧ majOf (wv 50 3 1 0 0 5) = 50 ∧ wbits (wv 50 3 1 0 0 5) 6 3 = 0 ∧ fnOf (wv 50 3 1 0 0 5) = 5 ∧ rbOf (wv 50 3 1 0
      0 5) = 0 ∧ rdOf (wv 50 3 1 0 0 5) ≠ 31) ∧
    (CoreReady 0 cg ∧ VecOn 0 cg ∧ majOf (wv 50 3 1 0 0 6) = 50 ∧ wbits (wv 50 3 1 0 0 6) 6 3 = 0 ∧ (∀ j < elemCount (szOf (wv 50 3 1 0 0 6)),
      BitVec.toNat (lane (elemBits (szOf (wv 50 3 1 0 0 6))) (vr 0 (raOf (wv 50 3 1 0 0 6)) cg) j) ≤ 255) ∧ (∃ j < elemCount (szOf (wv 50 3 1 0 0
      6)), BitVec.toNat (lane (elemBits (szOf (wv 50 3 1 0 0 6))) (vr 0 (raOf (wv 50 3 1 0 0 6)) cg) j) = 255) ∧ rbOf (wv 50 3 1 0 0 6) = 0 ∧ fnOf
      (wv 50 3 1 0 0 6) = 6 ∧ rdOf (wv 50 3 1 0 0 6) ≠ 31) := ⟨⟨(by unfold CoreReady; decide +kernel), (by unfold VecOn; decide +kernel), by decide +kernel⟩, ⟨(by unfold CoreReady; decide +kernel),
    (by unfold VecOn; decide +kernel), by decide +kernel⟩, ⟨(by unfold CoreReady; decide +kernel), (by unfold VecOn; decide +kernel),
    by decide +kernel⟩, ⟨(by unfold CoreReady; decide +kernel), (by unfold VecOn; decide +kernel), by decide +kernel⟩,
    ⟨(by unfold CoreReady; decide +kernel), (by unfold VecOn; decide +kernel), by decide +kernel⟩, ⟨(by unfold CoreReady; decide +kernel),
    (by unfold VecOn; decide +kernel), by decide +kernel⟩, ⟨(by unfold CoreReady; decide +kernel), (by unfold VecOn; decide +kernel),
    by decide +kernel⟩⟩

theorem test_VectorTransfers_2 :
    (CoreReady 0 cg ∧ VecOn 0 cg ∧ majOf (wv 50 3 1 0 0 7) = 50 ∧ wbits (wv 50 3 1 0 0 7) 6 3 = 0 ∧ (∀ j < elemCount (szOf (wv 50 3 1 0 0 7)), 0 ≤
      BitVec.toNat (lane (elemBits (szOf (wv 50 3 1 0 0 7))) (vr 0 (raOf (wv 50 3 1 0 0 7)) cg) j)) ∧ (∃ j < elemCount (szOf (wv 50 3 1 0 0 7)),
      BitVec.toNat (lane (elemBits (szOf (wv 50 3 1 0 0 7))) (vr 0 (raOf (wv 50 3 1 0 0 7)) cg) j) = 0) ∧ rbOf (wv 50 3 1 0 0 7) = 0 ∧ fnOf (wv 50
      3 1 0 0 7) = 7 ∧ rdOf (wv 50 3 1 0 0 7) ≠ 31) ∧
    (CoreReady 0 cg ∧ VecOn 0 cg ∧ majOf (wv 50 3 1 0 0 8) = 50 ∧ wbits (wv 50 3 1 0 0 8) 6 3 = 0 ∧ fnOf (wv 50 3 1 0 0 8) = 8 ∧ szOf (wv 50 3 1 0
      0 8) = 0 ∧ rbOf (wv 50 3 1 0 0 8) = 0) ∧
    (CoreReady 0 cg ∧ VecOn 0 cg ∧ TrapFree 0 cg ∧ majOf (wv 50 3 1 8 2 1) = 50 ∧ wbits (wv 50 3 1 8 2 1) 6 3 = 0 ∧ fnOf (wv 50 3 1 8 2 1) = 1 ∧
      elemCount (szOf (wv 50 3 1 8 2 1)) ≤ rbOf (wv 50 3 1 8 2 1)) ∧
    (CoreReady 0 vm ∧ VecOn 0 vm ∧ ReadsMem 0 (eaOf 0 (wv 52 3 1 0 0 0) vm) 32 (fetched 0 vm) 4090 4096 (fetched 0 vm) ∧ majOf (wv 52 3 1 0 0 0) =
      52) ∧
    (CoreReady 0 vm ∧ VecOn 0 vm ∧ WritesMem 0 (eaOf 0 (wv 53 2 1 0 0 0) vm) 32 (fetched 0 vm) 4090 4096 (fetched 0 vm) ∧ majOf (wv 53 2 1 0 0 0) =
      53) ∧
    (CoreReady 0 vw ∧ VecOn 0 vw ∧ TrapFree 0 vw ∧ majOf (wv 52 3 1 0 0 0) = 52 ∧ wpHit 0 (BitVec.toNat (eaOf 0 (wv 52 3 1 0 0 0) vw)) 32 true
      false (fetched 0 vw) = none ∧ translate2 0 (eaOf 0 (wv 52 3 1 0 0 0) vw) 32 Access.load (fetched 0 vw) = (Except.error 10, fetched 0 vw)) := ⟨⟨(by unfold CoreReady; decide +kernel), (by unfold VecOn; decide +kernel), by decide +kernel⟩, ⟨(by unfold CoreReady; decide +kernel),
    (by unfold VecOn; decide +kernel), by decide +kernel⟩, ⟨(by unfold CoreReady; decide +kernel), (by unfold VecOn; decide +kernel),
    (by unfold TrapFree; decide +kernel), by decide +kernel⟩, ⟨(by unfold CoreReady; decide +kernel), (by unfold VecOn; decide +kernel),
    ⟨by decide +kernel, ⟨_, rfl⟩, by decide +kernel⟩, by decide +kernel⟩, ⟨(by unfold CoreReady; decide +kernel),
    (by unfold VecOn; decide +kernel), writesMem_of (by decide +kernel) ⟨_, rfl⟩ (by decide +kernel) (by decide +kernel) (by decide +kernel),
    by decide +kernel⟩, ⟨(by unfold CoreReady; decide +kernel), (by unfold VecOn; decide +kernel), (by unfold TrapFree; decide +kernel),
    by decide +kernel⟩⟩

end Vectors

end Sys2Proof.Tests
end

section
/-! Register accesses (R9, R10, R34, R37): what a write of control register space comes to, by where it falls. -/

namespace Sys2Proof.Machine

/-! ### Postmarks change registers of the recorder and its queues only (R502) -/

theorem enterLane_eq (e : Ev) (s : State) :
    enterLane e s = { s with regs := (enterLane e s).regs, pbk := (enterLane e s).pbk } := by
  unfold enterLane
  dsimp only
  repeat' split
  all_goals rfl

theorem postmark_onlyMarked (code src : Nat) (args : List Nat) (s : State) : OnlyMarked [] s (postmark code src args s) := by
  refine ⟨?_, fun a _ ha => rd_postmark code src args a s ha⟩
  unfold postmark pbkPending
  dsimp only
  conv_lhs => rw [enterLane_eq]
  rfl

theorem busError_onlyMarked (addr req size : Nat) (s : State) : OnlyMarked [] s (busError addr req size s) :=
  postmark_onlyMarked _ _ _ s

theorem writeIgnored_onlyMarked (addr req val : Nat) (s : State) : OnlyMarked [] s (writeIgnored addr req val s) :=
  postmark_onlyMarked _ _ _ s

/-! ### Where an access falls -/

/-- No word-fed digest context lies at the doubleword of `a`: only those take accesses of every size (R263). -/
def Unfed (a : Nat) : Prop := ∀ g, regHit (a / 8 * 8) = some g → g.blk ≠ .dig

theorem accessStalls_of_hit {a req : Nat} {h : Hit} (s : State) (hh : regHit a = some h) :
    accessStalls a req s = (regThere h req s && regStalls h s) := by
  unfold accessStalls
  rw [hh]

/-- Nothing waits for a register that this requester does not reach. -/
theorem accessStalls_of_absent {a req : Nat} {s : State} (h : ∀ g, regHit a = some g → regThere g req s = false) :
    accessStalls a req s = false := by
  unfold accessStalls
  split
  · rename_i g hg
    rw [h g hg, Bool.false_and]
  · rfl

/-- Which accesses wait does not depend on the accesses that wait already. -/
theorem accessStalls_bus (a req : Nat) (b : BusSt) (s : State) : accessStalls a req { s with bus := b } = accessStalls a req s := rfl

theorem regThere_of_off {h : Hit} {req : Nat} {s : State} (hu : unitOn h.blk h.inst s = false) : regThere h req s = false := by
  unfold regThere
  rw [hu, Bool.false_and, Bool.false_and]

theorem malformed_of_size {a n : Nat} (h : (n ≠ 4 ∧ n ≠ 8) ∨ a % n ≠ 0) : malformed a n = true := by
  unfold malformed
  rcases h with ⟨h4, h8⟩ | h
  · simp [h4, h8]
  · simp [h]

/-! ### Writes -/

/-- A malformed write, and one of no register there is for this requester, is a bus error (R9, R34). -/
theorem regWrite_refused {a n req : Nat} (v : Word) {s : State} (hd : Unfed a)
    (h : ((n ≠ 4 ∧ n ≠ 8) ∨ a % n ≠ 0) ∨ ∀ g, regHit a = some g → regThere g req s = false) :
    regWrite a n v req s = (false, busError a req n s) := by
  unfold regWrite
  dsimp only
  split
  case h_1 c hc =>
    split at hc
    · rename_i g hg
      simp [hd g hg] at hc
    · cases hc
  case h_2 =>
    split
    · rfl
    · rename_i hsize
      split
      · rfl
      · rename_i g hg
        rw [h.resolve_left hsize g hg]
        rfl

/-- A write of a whole register that is there reaches it. -/
theorem regWrite_whole {a n req : Nat} {h : Hit} (v : Word) {s : State} (hd : Unfed a) (hn : n = 4 ∨ n = 8) (ha : a % n = 0)
    (hh : regHit a = some h) (hthere : regThere h req s = true) (hrow : n = h.row.bytes) (haddr : a = h.addr) :
    regWrite a n v req s =
      writeThere h a n (if n = 4 then 0xFFFFFFFF else BitVec.allOnes 64) (if n = 4 then loWord v else v) req s := by
  unfold regWrite
  dsimp only
  split
  case h_1 c hc =>
    split at hc
    · rename_i g hg
      simp [hd g hg] at hc
    · cases hc
  case h_2 =>
    rw [if_neg (by omega), hh]
    dsimp only
    rw [hthere, if_neg (by simp), if_pos ⟨hrow, haddr⟩]

/-- A write of control space that does not wait is carried out at once. -/
theorem exec_registerWrite {a n req : Nat} (v : Word) {s : State} (hc : inControl a = true)
    (hs : accessStalls a req s = false ∨ malformed a n = true) :
    exec (.registerWrite a n v req) s = .next (regWrite a n v req s).2 := by
  have hgo : (accessStalls a req s && !malformed a n) = false := by
    rcases hs with h | h <;> simp [h]
  change execRegisterWrite a n v req s = _
  unfold execRegisterWrite
  rw [hc, hgo, if_neg (by simp), if_neg (by simp)]

theorem exec_registerWrite_outside {a n req : Nat} (v : Word) {s : State} (hc : inControl a = false) :
    exec (.registerWrite a n v req) s = .next s := by
  change execRegisterWrite a n v req s = _
  unfold execRegisterWrite
  rw [if_pos hc]

/-! ### Registers whose writes have no effect but on their fields -/

/-- The registers of four blocks that a write changes by the access types of their fields alone. -/
def PlainReg (h : Hit) : Prop :=
  h.blk = .ctc ∨ (h.blk = .pwr ∧ h.off ≠ 4 ∧ h.off ≠ 0x1C) ∨ (h.blk = .hif ∧ h.off ≠ 0x40) ∨ (h.blk = .mem ∧ h.off ≠ 0x14)

theorem writePower_plain {h : Hit} (mask new : Word) (req : Nat) (s : State) (hb : h.blk = .pwr) (h4 : h.off ≠ 4) (h1C : h.off ≠ 0x1C) :
    writePower h mask new req s = plainWrite h mask new req s := by
  unfold writePower
  dsimp only
  split <;> simp_all

theorem writeHit_plain {h : Hit} (mask new : Word) (req : Nat) (s : State) (hp : PlainReg h) :
    writeHit h mask new req s = plainWrite h mask new req s := by
  unfold writeHit
  rcases hp with hb | ⟨hb, h4, h1C⟩ | ⟨hb, ho⟩ | ⟨hb, ho⟩
  · simp only [hb, writeRest]
  · simp only [hb]
    exact writePower_plain mask new req s hb h4 h1C
  · simp only [hb, writeRest, if_neg ho]
  · simp only [hb, writeCore, if_neg ho]

theorem writeThere_plain {h : Hit} {a n : Nat} (mask new : Word) (req : Nat) (s : State) (hp : PlainReg h) :
    writeThere h a n mask new req s = (true, plainWrite h mask new req s) := by
  have hopen : writeDenied h new.toNat req s = false ∧ writeForeign h new.toNat req s = false := by
    rcases hp with hb | ⟨hb, _⟩ | ⟨hb, _⟩ | ⟨hb, _⟩ <;> simp [writeDenied, writeForeign, hb]
  obtain ⟨hden, hfor⟩ := hopen
  unfold writeThere
  rw [hden, hfor, if_neg (by simp), if_neg (by simp), writeHit_plain mask new req s hp]

/-- A whole write of such a register, in the words of the statement: its mask and the value cut to its width. -/
theorem exec_registerWrite_plain {a req : Nat} {h : Hit} (v : Word) {s : State} (hc : inControl a = true) (hh : regHit a = some h)
    (haddr : h.addr = a) (hthere : regThere h req s = true) (hb : h.row.bytes = 4 ∨ h.row.bytes = 8) (ha : a % h.row.bytes = 0)
    (hd : Unfed a) (hp : PlainReg h) (hs : regStalls h s = false) :
    exec (.registerWrite a h.row.bytes v req) s =
      .next (plainWrite h (if h.row.bytes = 4 then 0xFFFFFFFF else 0xFFFFFFFFFFFFFFFF) (if h.row.bytes = 4 then v &&& 0xFFFFFFFF else v) req s) := by
  have hgo : accessStalls a req s = false := by rw [accessStalls_of_hit s hh, hs, Bool.and_false]
  rw [exec_registerWrite v hc (.inl hgo), regWrite_whole v hd hb ha hh hthere rfl haddr.symm, writeThere_plain _ _ req s hp]
  rfl

theorem rd_wrP (a b : Nat) (v : Word) (s : State) : rd b (wrP a v s) = rd b (wr a v s) := by
  unfold wrP
  dsimp only
  split <;> rfl

theorem wrP_eq (a : Nat) (v : Word) (s : State) : wrP a v s = { s with regs := (wrP a v s).regs, mgt := (wrP a v s).mgt } := by
  unfold wrP
  dsimp only
  split <;> rfl

/-- A legal write leaves the fields of the register by their access types, and no other register differs (R10, R11). -/
theorem plainWrite_legal {h : Hit} {mask new : Word} (req : Nat) (s : State) (hl : legalWrite mask new h.row = true) :
    (∀ b, rd b (plainWrite h mask new req s) = if b = h.addr then writeFields req mask new (rd h.addr s) h.row else rd b s) ∧
      plainWrite h mask new req s =
        { s with regs := (plainWrite h mask new req s).regs, mgt := (plainWrite h mask new req s).mgt } := by
  unfold plainWrite
  rw [if_pos hl]
  dsimp only
  split
  · exact ⟨fun b => (rd_wrP _ _ _ _).trans (rd_wr _ _ _ _), wrP_eq _ _ _⟩
  · exact ⟨fun b => rd_wr _ _ _ _, rfl⟩

theorem plainWrite_illegal {h : Hit} {mask new : Word} (req : Nat) (s : State) (hl : legalWrite mask new h.row = false) :
    OnlyMarked [] s (plainWrite h mask new req s) := by
  unfold plainWrite
  rw [hl, if_neg (by simp)]
  exact writeIgnored_onlyMarked _ _ _ s

/-! ### PWR.EVENT -/

/-- A write of fields that are all write-one-to-clear clears the bits written as one in any of them (R11). -/
theorem writeFields_w1c (req : Nat) (mask new old : Word) (r : RegRow) (h : ∀ f ∈ r.fields, f.acc = .w1c) :
    writeFields req mask new old r = old &&& ~~~(new &&& mask &&& r.fields.foldr (fun f m => fieldMask f ||| m) 0) := by
  unfold writeFields
  generalize r.fields = fs at h
  induction fs generalizing old with
  | nil => simp only [List.foldl_nil, List.foldr_nil, BitVec.ofNat_eq_ofNat, BitVec.and_zero, BitVec.not_zero, BitVec.and_allOnes]
  | cons f fs ih =>
    obtain ⟨hf, hfs⟩ := List.forall_mem_cons.mp h
    have hstep : writeField req mask new old f = old &&& ~~~(new &&& (fieldMask f &&& mask)) := by
      unfold writeField
      rw [hf]
    rw [List.foldl_cons, ih _ hfs, hstep, List.foldr_cons, BitVec.and_assoc, ← BitVec.not_or, BitVec.and_comm (fieldMask f),
      ← BitVec.and_assoc new, ← BitVec.and_or_distrib_left]

/-- The row of EVENT in the map of PWR. -/
def pwrEventRow : RegRow := ⟨0x28, [], 4, .k, (List.range 9).map (fun i => ⟨i, 1, .w1c, 0, []⟩)⟩

theorem regHit_pwrEvent : regHit Reg.PWR_EVENT = some ⟨Reg.PWR_EVENT, .pwr, 0, 0x28, pwrEventRow⟩ := by decide

theorem writeFields_pwrEvent (req : Nat) (v old : Word) :
    writeFields req 0xFFFFFFFF (v &&& 0xFFFFFFFF) old pwrEventRow = old &&& ~~~(v &&& 0x1FF) := by
  have hmask : (0xFFFFFFFF : Word) &&& 0xFFFFFFFF &&& pwrEventRow.fields.foldr (fun f m => fieldMask f ||| m) 0 = 0x1FF := by decide
  rw [writeFields_w1c req _ _ old pwrEventRow (by decide), BitVec.and_assoc, BitVec.and_assoc, ← BitVec.and_assoc 0xFFFFFFFF, hmask]

/-! ### The clauses of the statement -/

theorem plainRegister_written {a req : Nat} {h : Hit} (v : Word) {s : State} (hc : inControl a = true) (hh : regHit a = some h)
    (haddr : h.addr = a) (hthere : regThere h req s = true) (hb : h.row.bytes = 4 ∨ h.row.bytes = 8) (ha : a % h.row.bytes = 0)
    (hd : Unfed a) (hp : PlainReg h) (hs : regStalls h s = false) :
    let mask : Word := if h.row.bytes = 4 then 0xFFFFFFFF else 0xFFFFFFFFFFFFFFFF
    let new : Word := if h.row.bytes = 4 then v &&& 0xFFFFFFFF else v
    (legalWrite mask new h.row = true → Completes (.registerWrite a h.row.bytes v req) s (fun t =>
      rd a t = writeFields req mask new (rd a s) h.row ∧ RegsBut [a] s t ∧ t = { s with regs := t.regs, mgt := t.mgt })) ∧
    (legalWrite mask new h.row = false → Completes (.registerWrite a h.row.bytes v req) s (OnlyMarked [] s)) := by
  have hx := exec_registerWrite_plain v hc hh haddr hthere hb ha hd hp hs
  subst haddr
  refine ⟨fun hl => ⟨_, hx, ?_⟩, fun hl => ⟨_, hx, plainWrite_illegal req s hl⟩⟩
  obtain ⟨hrd, hrest⟩ := plainWrite_legal req s hl
  refine ⟨by rw [hrd, if_pos rfl], fun b hb _ => ?_, hrest⟩
  rw [hrd, if_neg (by simpa using hb)]

/-- The blocks of these registers wait for no live update, but control core registers for that of control cores (R37). -/
theorem regStalls_plain {h : Hit} {s : State}
    (hb : (h.blk = .ctc ∧ switchingNow 2 s = false) ∨ h.blk = .pwr ∨ h.blk = .hif ∨ h.blk = .mem) : regStalls h s = false := by
  unfold regStalls
  rcases hb with ⟨hb, hs⟩ | hb | hb | hb <;> simp [hb]
  exact hs

theorem pwrEvent_written (v : Word) {s : State} (hpd : pdOn 1 s = true) :
    Completes (.registerWrite Reg.PWR_EVENT 4 v 0x10) s (fun t =>
      rd Reg.PWR_EVENT t = rd Reg.PWR_EVENT s &&& ~~~(v &&& 0x1FF) ∧ OnlyRegs [Reg.PWR_EVENT] s t) := by
  have hthere : regThere ⟨Reg.PWR_EVENT, .pwr, 0, 0x28, pwrEventRow⟩ 0x10 s = true := by
    simp [regThere, unitOn, agentOk, needsHalt, hpd]
  have hd : Unfed Reg.PWR_EVENT := by
    intro g hg
    have := regHit_pwrEvent.symm.trans hg
    cases this
    simp
  have hx := exec_registerWrite_plain v (by decide) regHit_pwrEvent rfl hthere (.inl rfl) (by decide) hd (.inr (.inl (by decide)))
    (regStalls_plain (.inr (.inl rfl)))
  have hplain : plainWrite ⟨Reg.PWR_EVENT, .pwr, 0, 0x28, pwrEventRow⟩ 0xFFFFFFFF (v &&& 0xFFFFFFFF) 0x10 s =
      wr Reg.PWR_EVENT (rd Reg.PWR_EVENT s &&& ~~~(v &&& 0x1FF)) s := by
    unfold plainWrite
    rw [← writeFields_pwrEvent 0x10]
    rfl
  refine ⟨_, hx.trans (congrArg _ hplain), rd_wr_self _ _ _, rfl, fun a ha => rd_wr_ne _ _ (by simpa using ha)⟩

theorem regHit_netLinkCfg {i : Nat} (hi : i < 2) : ∃ row, regHit (Reg.NET_LINK_CFG i) = some ⟨Reg.NET_LINK_CFG i, .net, i, 8, row⟩ := by
  match i, hi with
  | 0, _ => exact ⟨_, rfl⟩
  | 1, _ => exact ⟨_, rfl⟩

/-- A write of a port register waits while the network engine switches (R37, R490). -/
theorem netLinkCfg_waits {i req : Nat} (v : Word) {s : State} (hi : i < 2) (hup : netUp i s = true) (hsw : s.net.switching = true)
    (hreq : req < 0x100) :
    exec (.registerWrite (Reg.NET_LINK_CFG i) 4 v req) s =
      .next { s with bus := { s.bus with stalled := s.bus.stalled ++ [⟨Reg.NET_LINK_CFG i, 4, some v, req⟩] } } := by
  obtain ⟨row, hh⟩ := regHit_netLinkCfg hi
  have hctl : inControl (Reg.NET_LINK_CFG i) = true := by
    unfold inControl Reg.NET_LINK_CFG
    simp only [Bool.and_eq_true, decide_eq_true_eq]
    omega
  have hthere : regThere ⟨Reg.NET_LINK_CFG i, .net, i, 8, row⟩ req s = true := by
    simp [regThere, unitOn, agentOk, needsHalt, hup, show ¬ 0x100 ≤ req by omega]
  have hstall : accessStalls (Reg.NET_LINK_CFG i) req s = true := by
    rw [accessStalls_of_hit s hh, hthere, Bool.true_and]
    exact hsw
  have hform : malformed (Reg.NET_LINK_CFG i) 4 = false := by
    have hal : Reg.NET_LINK_CFG i % 4 = 0 := by
      unfold Reg.NET_LINK_CFG
      omega
    simp [malformed, hal, hh]
  change execRegisterWrite _ _ _ _ _ = _
  unfold execRegisterWrite
  rw [hctl, hstall, hform, if_neg (by simp), if_pos (by simp)]

theorem misshapen_of_size {a n : Nat} (h : n = 1 ∨ n = 2 ∨ n = 3 ∨ ((n = 4 ∨ n = 8) ∧ a % n ≠ 0)) : (n ≠ 4 ∧ n ≠ 8) ∨ a % n ≠ 0 := by
  rcases h with rfl | rfl | rfl | ⟨_, h⟩
  · exact .inl (by decide)
  · exact .inl (by decide)
  · exact .inl (by decide)
  · exact .inr h

/-- A malformed access is a bus error by either row (R9). -/
theorem malformedAccess_onlyMarked {a n req : Nat} (val : Option Word) {s : State} (hc : inControl a = true)
    (hn : (n ≠ 4 ∧ n ≠ 8) ∨ a % n ≠ 0) (hd : Unfed a) :
    Completes (.malformedRegisterAccess a n val req) s (OnlyMarked [] s) ∧
      Completes (.registerWrite a n (val.getD 0) req) s (OnlyMarked [] s) := by
  have hm := malformed_of_size hn
  have hw (v : Word) : (regWrite a n v req s).2 = busError a req n s := by rw [regWrite_refused v hd (.inl hn)]
  have hrow : exec (.malformedRegisterAccess a n val req) s = .next (busError a req n s) := by
    change execMalformedRegisterAccess a n val req s = _
    unfold execMalformedRegisterAccess
    rw [hc, hm, if_pos (by simp)]
    cases val with
    | none => rfl
    | some v => dsimp only; rw [hw]
  refine ⟨⟨_, hrow, busError_onlyMarked _ _ _ s⟩, _, exec_registerWrite _ hc (.inr hm), ?_⟩
  rw [hw]
  exact busError_onlyMarked _ _ _ s

theorem malformedAccess_none {a n req : Nat} (val : Option Word) {s : State} (h : inControl a = false ∨ malformed a n = false) :
    exec (.malformedRegisterAccess a n val req) s = .next s := by
  change execMalformedRegisterAccess a n val req s = _
  unfold execMalformedRegisterAccess
  rw [if_neg]
  rcases h with h | h <;> simp [h]

theorem inMap_of_inControl {a : Nat} (h : inControl a = true) : inMap a = true := by
  unfold inControl at h
  unfold inMap
  simp only [Bool.and_eq_true, Bool.or_eq_true, decide_eq_true_eq] at h ⊢
  omega

/-- Row RESERVED_ADDRESS_ACCESS: a bus error at an address outside the map, at one of no register, and at one of a unit that is off; at
any other address nothing (R34). -/
theorem exec_reservedAddressAccess (a n req : Nat) (s : State) :
    (inMap a = false → exec (.reservedAddressAccess a n req) s = .next (busError a req n s)) ∧
    (inMap a = true → inControl a = false → exec (.reservedAddressAccess a n req) s = .next s) ∧
    (inControl a = true → regHit a = none → exec (.reservedAddressAccess a n req) s = .next (busError a req n s)) ∧
    (∀ h, inControl a = true → regHit a = some h →
      exec (.reservedAddressAccess a n req) s = .next (if unitOn h.blk h.inst s then s else busError a req n s)) := by
  refine ⟨fun hm => ?_, fun hm hc => ?_, fun hc hh => ?_, fun h hc hh => ?_⟩ <;>
    change execReservedAddressAccess a n req s = _ <;> unfold execReservedAddressAccess
  · rw [hm, if_pos (by simp)]
  · rw [hm, hc, if_neg (by simp), if_neg (by simp)]
  · rw [inMap_of_inControl hc, hc, hh, if_neg (by simp), if_pos rfl]
  · rw [inMap_of_inControl hc, hc, hh, if_neg (by simp), if_pos rfl]

/-- A write of no register, or of one whose unit is off, is recorded as a bus error (R34). -/
theorem absentRegister_written {a n req : Nat} (v : Word) {s : State} (hc : inControl a = true) (hd : Unfed a)
    (h : ∀ g, regHit a = some g → unitOn g.blk g.inst s = false) :
    exec (.registerWrite a n v req) s = .next (busError a req n s) := by
  have hoff (g : Hit) (hg : regHit a = some g) : regThere g req s = false := regThere_of_off (h g hg)
  rw [exec_registerWrite v hc (.inl (accessStalls_of_absent hoff)), regWrite_refused v hd (.inr hoff)]

/-- The one access that waits, a write whose unit is free again, is carried out as a write (R37). -/
theorem stalledWrite_completes {x : BusAcc} {v : Word} {s : State} (hx : s.bus.stalled = [x]) (hv : x.val = some v)
    (hs : accessStalls x.addr x.req s = false) (hc : inControl x.addr = true) :
    exec .stalledAccessComplete s =
      exec (.registerWrite x.addr x.size v x.req) { s with bus := { s.bus with stalled := [] } } := by
  rw [exec_registerWrite v hc (.inl ((accessStalls_bus _ _ _ s).trans hs))]
  change execStalledAccessComplete s = _
  unfold execStalledAccessComplete
  rw [hx]
  simp [hs, hv]

theorem stalledAccess_none {s : State} (h : ∀ x ∈ s.bus.stalled, accessStalls x.addr x.req s = true) :
    exec .stalledAccessComplete s = .next s := by
  have hnone : s.bus.stalled.find? (fun x => !accessStalls x.addr x.req s) = none := by
    rw [List.find?_eq_none]
    intro x hx
    simp [h x hx]
  change execStalledAccessComplete s = _
  unfold execStalledAccessComplete
  rw [hnone]

/-- Settles O44, clause by clause: a write of control space is a write of a whole register by its fields (`plainRegister_written`), waits
(`netLinkCfg_waits`), or is a bus error (`regWrite_refused`). -/
theorem registerAccess : Obligations.RegisterAccess := by
  unfold Obligations.RegisterAccess
  intro s
  dsimp only
  refine ⟨?outside, ?plain, ?event, ?waits, ?malformed, ?wellFormed, ?reserved, ?absent, ?completes, ?still⟩
  case outside => exact fun addr size v req hc => ⟨s, exec_registerWrite_outside v hc, rfl⟩
  case plain =>
    intro addr v req h hc hh haddr hthere hb ha hd hblk
    have hp : PlainReg h := hblk.imp_left And.left
    have hs : regStalls h s = false := regStalls_plain (hblk.imp_right (Or.imp And.left (Or.imp And.left And.left)))
    exact plainRegister_written v hc hh haddr hthere hb ha hd hp hs
  case event => exact fun v hpd => pwrEvent_written v hpd
  case waits =>
    rintro i v size req hi rfl hup hsw hreq
    exact ⟨_, netLinkCfg_waits v hi hup hsw hreq, rfl⟩
  case malformed =>
    exact fun addr size val req hc hn hd => malformedAccess_onlyMarked val hc (misshapen_of_size hn) hd
  case wellFormed => exact fun addr size val req h => ⟨s, malformedAccess_none val h, rfl⟩
  case reserved =>
    intro addr size req
    obtain ⟨outside, elsewhere, empty, unit⟩ := exec_reservedAddressAccess addr size req s
    refine ⟨fun hm => ⟨_, outside hm, busError_onlyMarked _ _ _ s⟩, fun hm hc => ⟨s, elsewhere hm hc, rfl⟩,
      fun hc hh => ⟨_, empty hc hh, busError_onlyMarked _ _ _ s⟩, fun h hc hh => ⟨fun hoff => ⟨_, unit h hc hh, ?_⟩, fun hon => ⟨_, unit h hc hh, ?_⟩⟩⟩
    · rw [hoff]
      exact busError_onlyMarked _ _ _ s
    · rw [hon]
      rfl
  case absent =>
    intro addr size v req hc _ _ hd habs
    refine ⟨_, absentRegister_written v hc hd (fun g hg => ?_), rfl⟩
    rcases habs with hnone | ⟨h, hh, hoff⟩
    · rw [hnone] at hg
      cases hg
    · rw [hh] at hg
      cases hg
      exact hoff
  case completes =>
    intro x v hx hv hs hc
    have hrun := exec_registerWrite (n := x.size) v (s := { s with bus := { s.bus with stalled := [] } }) hc (.inl hs)
    exact ⟨_, (stalledWrite_completes hx hv hs hc).trans hrun, hrun⟩
  case still => exact fun h => ⟨s, stalledAccess_none h, rfl⟩

end Sys2Proof.Machine
end

section
/-! Loads and stores of cores (R7, R318, R319): what their rows leave where the access reaches memory, and their traps. -/

namespace Sys2Proof.Machine

theorem eaOf_fetched (k : Nat) (w : Half) (s : State) : eaOf k w (fetched k s) = eaOf k w s := by
  unfold eaOf
  rw [fetched_gr]

theorem CoreReady.stepping {k : Nat} {s : State} (h : CoreReady k s) : (coreAt k s).stepping = false := by
  obtain ⟨_, _, _, _, hstep⟩ := h
  exact hstep

/-- A translation that gives no address leaves the state as it was (R319, R330). -/
theorem translate2_error {k n c : Nat} {ea : Word} {acc : Access} {s u : State} (h : translate2 k ea n acc s = (.error c, u)) : u = s := by
  unfold translate2 at h
  dsimp only at h
  repeat' split at h
  all_goals simp_all

/-- The state a fetch and a translation lead to has the core as before, but for its TLB. -/
theorem sameCore_of_translate2 {k n : Nat} {ea : Word} {acc : Access} {s u : State} {r : Except Nat (Nat × Nat × Bool)}
    (h : translate2 k ea n acc (fetched k s) = (r, u)) : SameCore k s u := by
  have hx := (walked_translate2 k ea n acc (fetched k s)).core
  rw [h] at hx
  exact (walked_fetch k s).core.trans hx

/-! ### Loads -/

/-- The value of a load is the little-endian number in the bytes of the access, extended by its sign or by zeros (R318). -/
theorem loadVal_access (ea : Word) (n a b : Nat) (u : State) (signed : Bool) :
    loadVal ((List.range n).map (fun i => rdByte (byteOf ea n a b i) u)) signed =
      if signed then BitVec.ofInt 64 (Int.bmod (memVal ea n a b u) (2 ^ (8 * n))) else BitVec.ofNat 64 (memVal ea n a b u) := by
  unfold loadVal memVal
  cases signed with
  | true => simp [sext_eq]
  | false => rfl

/-- A load row of a ready core whose access reaches memory. -/
theorem loadRow_result {k maj n a b : Nat} {w : Half} {signed : Bool} {v : Word} {s u : State} (h : CoreReady k s) (hm : majOf w = maj)
    (hn : 0 < n) (hr : ReadsMem k (eaOf k w s) n (fetched k s) a b u)
    (hv : v = loadVal ((List.range n).map (fun i => rdByte (byteOf (eaOf k w s) n a b i) u)) signed)
    (h31 : rdOf w = 31 → stackLow k v s = false) :
    GetsG k (rdOf w) v s (loadRow k w maj n signed s) ∧ Ran k ((coreAt k s).pc + 4) u (loadRow k w maj n signed s) := by
  have hx : SameCore k s u := by
    obtain ⟨_, ⟨_, ht⟩, _⟩ := hr
    exact sameCore_of_translate2 ht
  have hrow : loadRow k w maj n signed s = finish k w (putG k (rdOf w) v u) := by
    unfold loadRow
    rw [runInstr_ready h (by simp [hm])]
    dsimp only
    rw [eaOf_fetched, loadBytes_mem hr hn, hv]
    rfl
  obtain ⟨hg, hran⟩ := finish_putG (w := w) (r := rdOf w) (v := v) (hx.stepping.trans h.stepping)
    (fun e => (hx.stackLow v).trans (h31 e))
  rw [hx.pc] at hran
  rw [hrow]
  exact ⟨hg.of_same hx, hran⟩

/-- A load row of a ready core whose address has no translation traps with the cause of the translation. -/
theorem loadRow_traps {k maj n c : Nat} {w : Half} {signed : Bool} {s u : State} (h : CoreReady k s) (hm : majOf w = maj)
    (hw : wpHit k (eaOf k w s).toNat n true false (fetched k s) = none)
    (ht : translate2 k (eaOf k w s) n .load (fetched k s) = (.error c, u)) (hf : TrapFree k s) :
    Trapped k c w (eaOf k w s) s (loadRow k w maj n signed s) := by
  have hload : loadBytes k (eaOf k w s) n (fetched k s) = .trap c (fetched k s) := by
    unfold loadBytes
    rw [hw]
    dsimp only
    rw [ht, translate2_error ht]
  have hrow : loadRow k w maj n signed s = finish k w (.trap c (eaOf k w s) (fetched k s)) := by
    unfold loadRow
    rw [runInstr_ready h (by simp [hm])]
    dsimp only
    rw [eaOf_fetched, hload]
    rfl
  rw [hrow]
  exact finish_trapped h hf

/-! ### Stores -/

/-- What the bytes of a store leave, and then the word's end, as `Stores` says it. -/
theorem Put2.stores {k n a b v : Nat} {ea pc : Word} {u x t : State} (hp : Put2 ea a b (leBytes n v) u x) (hr : Ran k pc x t) :
    Stores k ea n a b v u t := by
  have hbytes := hp.bytes
  have hothers := hp.others
  rw [leBytes_length] at hbytes hothers
  obtain ⟨_, hregs, _⟩ := id hr
  refine ⟨fun i hi => ?_, fun y hy => (hr.rdByte y).trans (hothers y hy), fun r hs hd => (hregs r hs).trans (hp.regs r hd)⟩
  rw [hr.rdByte, hbytes i hi, List.getD_eq_getElem?_getD, leBytes_getElem? n v i hi, Option.getD_some]

/-- A store row of a ready core whose access reaches memory. -/
theorem storeRow_result {k maj n a b : Nat} {w : Half} {s u : State} (h : CoreReady k s) (hm : majOf w = maj) (hn : 0 < n) (hl : n ≤ 64)
    (hw : WritesMem k (eaOf k w s) n (fetched k s) a b u) :
    SameRegs k s (storeRow k w maj n s) ∧ Retired k ((coreAt k s).pc + 4) s (storeRow k w maj n s) ∧
      Stores k (eaOf k w s) n a b (gr k (rdOf w) s).toNat u (storeRow k w maj n s) := by
  have hlen := leBytes_length n (gr k (rdOf w) s).toNat
  obtain ⟨x, hstore, hp⟩ := storeBytes_mem (k := k) (a := a) (b := b) (ea := eaOf k w s) (bs := leBytes n (gr k (rdOf w) s).toNat)
    (s := fetched k s) (u := u) (by rwa [hlen]) (List.length_pos_iff.mp (by omega)) (by omega)
  have hx : SameCore k s x := by
    obtain ⟨_, ⟨_, ht⟩, _⟩ := hw
    exact (sameCore_of_translate2 ht).trans (SameCore.of_cores hp.cores)
  have hrow : storeRow k w maj n s = finish k w (.done x) := by
    unfold storeRow
    rw [runInstr_ready h (by simp [hm])]
    dsimp only
    rw [eaOf_fetched, fetched_gr, hstore]
    rfl
  obtain ⟨hsame, hran⟩ := finish_done (w := w) (hx.stepping.trans h.stepping)
  obtain ⟨hret, _⟩ := id hran
  rw [hx.pc] at hret
  rw [hrow]
  exact ⟨hsame.of_same hx, hret.of_same hx, hp.stores hran⟩

/-- A store row of a ready core whose address has no translation traps with the cause of the translation. -/
theorem storeRow_traps {k maj n c : Nat} {w : Half} {s u : State} (h : CoreReady k s) (hm : majOf w = maj)
    (hw : wpHit k (eaOf k w s).toNat n false true (fetched k s) = none)
    (ht : translate2 k (eaOf k w s) n .store (fetched k s) = (.error c, u)) (hf : TrapFree k s) :
    Trapped k c w (eaOf k w s) s (storeRow k w maj n s) := by
  have hstore : storeBytes k (eaOf k w s) (leBytes n (gr k (rdOf w) s).toNat) (fetched k s) = .trap c (fetched k s) := by
    unfold storeBytes
    rw [leBytes_length]
    dsimp only
    rw [hw]
    dsimp only
    rw [ht, translate2_error ht]
  have hrow : storeRow k w maj n s = finish k w (.trap c (eaOf k w s) (fetched k s)) := by
    unfold storeRow
    rw [runInstr_ready h (by simp [hm])]
    dsimp only
    rw [eaOf_fetched, fetched_gr, hstore]
    rfl
  rw [hrow]
  exact finish_trapped h hf

/-- Settles O50: each row is a load or store of its width, by `loadRow_result` and `storeRow_result`; the traps of LDD and STD are
those of their translation. -/
theorem loadsAndStores : Obligations.LoadsAndStores := by
  unfold Obligations.LoadsAndStores
  intro k w s h
  dsimp only
  have load (maj n : Nat) (signed : Bool) (hn : 0 < n) (hm : majOf w = maj) (a b : Nat) (u : State)
      (hr : ReadsMem k (eaOf k w s) n (fetched k s) a b u) :=
    loadRow_result h hm hn hr (loadVal_access (eaOf k w s) n a b u signed).symm
  have store (maj n : Nat) (hn : 0 < n) (hl : n ≤ 64) (hm : majOf w = maj) (a b : Nat) (u : State)
      (hw : WritesMem k (eaOf k w s) n (fetched k s) a b u) := storeRow_result h hm hn hl hw
  refine ⟨?ldb, ?ldbu, ?ldh, ?ldhu, ?ldw, ?ldwu, ?ldd, ?stb, ?sth, ?stw, ?std, ?lddTrap, ?stdTrap⟩
  case ldb => exact fun hm a b u hr h31 => ⟨_, rfl, load 0x10 1 true (by decide) hm a b u hr h31⟩
  case ldbu => exact fun hm a b u hr h31 => ⟨_, rfl, load 0x11 1 false (by decide) hm a b u hr h31⟩
  case ldh => exact fun hm a b u hr h31 => ⟨_, rfl, load 0x12 2 true (by decide) hm a b u hr h31⟩
  case ldhu => exact fun hm a b u hr h31 => ⟨_, rfl, load 0x13 2 false (by decide) hm a b u hr h31⟩
  case ldw => exact fun hm a b u hr h31 => ⟨_, rfl, load 0x14 4 true (by decide) hm a b u hr h31⟩
  case ldwu => exact fun hm a b u hr h31 => ⟨_, rfl, load 0x15 4 false (by decide) hm a b u hr h31⟩
  case ldd => exact fun hm a b u hr h31 => ⟨_, rfl, load 0x16 8 false (by decide) hm a b u hr h31⟩
  case stb => exact fun hm a b u hw => ⟨_, rfl, store 0x18 1 (by decide) (by decide) hm a b u hw⟩
  case sth => exact fun hm a b u hw => ⟨_, rfl, store 0x19 2 (by decide) (by decide) hm a b u hw⟩
  case stw => exact fun hm a b u hw => ⟨_, rfl, store 0x1A 4 (by decide) (by decide) hm a b u hw⟩
  case std => exact fun hm a b u hw => ⟨_, rfl, store 0x1B 8 (by decide) (by decide) hm a b u hw⟩
  case lddTrap => exact fun hm hw c u ht hf => ⟨_, rfl, loadRow_traps h hm hw ht hf⟩
  case stdTrap => exact fun hm hw c u ht hf => ⟨_, rfl, storeRow_traps h hm hw ht hf⟩

end Sys2Proof.Machine
end

section
/-! Doorbells, fetching and tags (R18, R26, R93–R96, R99, R515): what each leaves of the host's state. -/

namespace Sys2Proof.Machine

/-! ### Operations that leave the host's state -/

@[simp] theorem applyPowerState_nv (s : State) : (applyPowerState s).nv = s.nv :=
  (applyPowerState_keeps (Keeps.refl s) (Sub.refl 33)).only.nv rfl

@[simp] theorem settleSch_nv (s : State) : (settleSch s).nv = s.nv :=
  (settleSch_keeps (Keeps.refl s) (Sub.refl 264225)).only.nv rfl

@[simp] theorem endLetters_nv (ids : List Nat) (status : Nat) (s : State) : (endLetters ids status s).nv = s.nv :=
  (endLetters_keeps ids status (Keeps.refl s) (Sub.refl 264225)).only.nv rfl

@[simp] theorem raiseEvent_nv (g i : Nat) (f : Fld) (s : State) : (raiseEvent g i f s).nv = s.nv :=
  (raiseEvent_keeps g i f (Keeps.refl s) (Sub.refl 33)).only.nv rfl

@[simp] theorem cntAdd_nv (a w n : Nat) (s : State) : (cntAdd a w n s).nv = s.nv := rfl

/-- A judgment of the idle conditions changes of the host's state at most the power states that controllers request (R64). -/
theorem judgeIdle_nv (s : State) : (judgeIdle s).nv = s.nv ∨ (judgeIdle s).nv = (dropAutonomous s).nv := by
  unfold judgeIdle
  dsimp only
  rw [applyPowerState_nv]
  split
  · exact .inl rfl
  · exact .inr rfl

theorem sqAt_dropAutonomous (c q : Nat) (s : State) : sqAt c q (dropAutonomous s) = sqAt c q s := by
  have hc : ctrlAt c (dropAutonomous s) = (ctrlAt c s).map (fun x => { x with reqPs := x.setPs }) :=
    SMap_find_map s.nv.ctrls (fun e => (e.1, { e.2 with reqPs := e.2.setPs })) (fun _ => rfl) c
  unfold sqAt
  rw [hc]
  cases ctrlAt c s <;> rfl

theorem sqAt_judgeIdle (c q : Nat) (s : State) : sqAt c q (judgeIdle s) = sqAt c q s := by
  rcases judgeIdle_nv s with h | h
  · exact sqAt_congr (by rw [h]) c q
  · rw [sqAt_congr (s := dropAutonomous s) (by rw [h]), sqAt_dropAutonomous]

theorem judgeIdle_rest (s : State) :
    (judgeIdle s).nv.cmds = s.nv.cmds ∧ (judgeIdle s).nv.aens = s.nv.aens ∧ (judgeIdle s).nv.pigeon = s.nv.pigeon := by
  rcases judgeIdle_nv s with h | h <;> rw [h]
  · exact ⟨rfl, rfl, rfl⟩
  · exact ⟨rfl, rfl, rfl⟩

/-! ### Queues -/

theorem sqAt_updSq_self (c q : Nat) (f : Sq → Sq) (s : State) : sqAt c q (updSq c q f s) = (sqAt c q s).map f := by
  unfold sqAt updSq
  rw [ctrlAt_updCtrl_self]
  cases ctrlAt c s with
  | none => rfl
  | some x => simp [SMap_find_upd_self]

/-- A change of a controller that leaves its submission queues. -/
theorem sqAt_updCtrl {c : Nat} {f : Ctrl → Ctrl} (hf : ∀ x, (f x).sqs = x.sqs) (d q : Nat) (s : State) :
    sqAt d q (updCtrl c f s) = sqAt d q s := by
  unfold sqAt
  by_cases h : d = c
  · subst h
    rw [ctrlAt_updCtrl_self]
    cases ctrlAt d s with
    | none => rfl
    | some x => simp [hf x]
  · rw [ctrlAt_updCtrl_ne _ _ h]

/-! ### Tail doorbells (R26, R95) -/

/-- A tail doorbell's pigeonhole is marked, and of the host's state nothing else changes. -/
theorem raisePigeon_nv (c q : Nat) (s : State) :
    (c, q) ∈ (raisePigeon c q s).nv.pigeon ∧ (raisePigeon c q s).nv = { s.nv with pigeon := (raisePigeon c q s).nv.pigeon } := by
  unfold raisePigeon
  split
  · rename_i h
    exact ⟨by simpa using h, rfl⟩
  · dsimp only
    split
    · unfold enterLetter
      dsimp only
      rw [settleSch_nv, updSch_nv]
      exact ⟨by simp, rfl⟩
    · exact ⟨by simp, rfl⟩

theorem tailDoorbell_taken {c q tail : Nat} {k : Sq} {s : State} (hk : sqAt c q s = some k) (ht : tail < k.size) :
    sqAt c q (tailDoorbell c q tail s) = some { k with tail := tail } ∧ (c, q) ∈ (tailDoorbell c q tail s).nv.pigeon ∧
      (tailDoorbell c q tail s).nv.cmds = s.nv.cmds := by
  have hrow : tailDoorbell c q tail s = raisePigeon c q (updSq c q (fun k => { k with tail := tail }) s) := by
    unfold tailDoorbell
    rw [hk]
    dsimp only
    rw [if_neg (by omega)]
  obtain ⟨hin, hnv⟩ := raisePigeon_nv c q (updSq c q (fun k => { k with tail := tail }) s)
  rw [hrow]
  refine ⟨?_, hin, by rw [hnv]; rfl⟩
  rw [sqAt_congr (s := updSq c q (fun k => { k with tail := tail }) s) (by rw [hnv]), sqAt_updSq_self, hk]
  rfl

theorem mem_of_find {α : Type} {m : SMap α} {a : Nat} {v : α} (h : SMap.find m a = some v) : (a, v) ∈ m := by
  induction m with
  | nil => cases h
  | cons e m ih =>
    obtain ⟨k, w⟩ := e
    unfold SMap.find at h
    split at h
    · rename_i hk
      cases h
      exact List.mem_cons.mpr (.inl (by rw [hk]))
    · exact List.mem_cons_of_mem _ (ih h)

/-- No event is delivered while no controller has an event request outstanding. -/
theorem deliverAens_none {s : State} (h : ∀ x ∈ s.nv.ctrls, x.2.aers = []) (n : Nat) : deliverAens n s = s := by
  cases n with
  | zero => rfl
  | succ n =>
    unfold deliverAens
    split
    · rfl
    split
    · rfl
    · rename_i c hc
      rw [h _ (mem_of_find hc)]

theorem tailDoorbell_refused {c q tail : Nat} {k : Sq} {s : State} (hk : sqAt c q s = some k) (ht : k.size ≤ tail)
    (ha : ∀ x ∈ s.nv.ctrls, x.2.aers = []) :
    tailDoorbell c q tail s = { s with nv := { s.nv with aens := s.nv.aens ++ [⟨c, 0, 1, 1⟩] } } := by
  unfold tailDoorbell
  rw [hk]
  dsimp only
  rw [if_pos ht]
  unfold badDoorbell raiseAen
  exact deliverAens_none (s := { s with nv := { s.nv with aens := s.nv.aens ++ [⟨c, 0, 1, 1⟩] } }) ha _

/-! ### Completion head doorbells (R26, R96) -/

theorem postHeld_none {c q : Nat} {k : Cq} {s : State} (hk : cqAt c q s = some k) (hh : k.held = []) (n : Nat) : postHeld c q n s = s := by
  cases n with
  | zero => rfl
  | succ n =>
    unfold postHeld
    rw [hk]
    dsimp only
    rw [hh]

/-- Nothing settles while every command is only fetched: what is left is the shutdowns' progress and the counts of tags. -/
theorem settleAll_onlyFetched {s : State} (h : OnlyFetched s) : settleAll s = showTags (shutdownProgress s) := by
  unfold settleAll
  rw [settle_quiet]
  intro y hy
  obtain ⟨hr, hp⟩ := h y hy
  exact ⟨hr, fun _ => by rw [hp]; decide⟩

theorem headDoorbell_taken {c q head : Nat} {k : Cq} {s : State} (hk : cqAt c q s = some k) (hf : OnlyFetched s) (hh : k.held = [])
    (hsz : head < k.size)
    (hadv : (head + max k.size 1 - k.head % max k.size 1) % max k.size 1 ≤ (k.tail + max k.size 1 - k.head % max k.size 1) % max k.size 1) :
    (headDoorbell c q head s).nv.cmds = s.nv.cmds ∧ cqAt c q (headDoorbell c q head s) = some { k with
      head := head, posted := k.posted.drop ((head + max k.size 1 - k.head % max k.size 1) % max k.size 1) } := by
  obtain ⟨adv, hadvEq⟩ : ∃ adv, adv = (head + max k.size 1 - k.head % max k.size 1) % max k.size 1 := ⟨_, rfl⟩
  rw [← hadvEq] at hadv ⊢
  obtain ⟨moved, hmoved⟩ : ∃ u, u = updCq c q (fun k => { k with head := head, posted := k.posted.drop adv }) s := ⟨_, rfl⟩
  have hq : cqAt c q moved = some { k with head := head, posted := k.posted.drop adv } := by rw [hmoved, cqAt_updCq_self, hk]; rfl
  have hcmds : moved.nv.cmds = s.nv.cmds := by rw [hmoved]; rfl
  have hrow : headDoorbell c q head s = settleAll moved := by
    unfold headDoorbell
    rw [hk]
    dsimp only
    rw [← hadvEq, if_neg (by omega), ← hmoved, postHeld_none hq hh]
  rw [hrow, settleAll_onlyFetched (by unfold OnlyFetched; rw [hcmds]; exact hf)]
  refine ⟨by rw [showTags_nv]; exact hcmds, ?_⟩
  rw [cqAt_congr (s := shutdownProgress moved) (by rw [showTags_nv]), cqAt_shutdownProgress, hq]

/-! ### Fetching (R93, R94, R99) -/

theorem tagPause_cmds (c : Nat) (s : State) :
    (tagPause c s).nv.cmds = s.nv.cmds ∧ (tagPause c s).nv.order = s.nv.order := by
  unfold tagPause
  split
  · exact ⟨rfl, rfl⟩
  · split
    · exact ⟨rfl, rfl⟩
    · dsimp only
      split
      · exact ⟨rfl, rfl⟩
      · rw [raiseEvent_nv]
        exact ⟨rfl, rfl⟩

/-- Controllers that are paused for want of a tag leave the commands. -/
theorem pauseTagless_cmds (s : State) :
    (pauseTagless s).nv.cmds = s.nv.cmds ∧ (pauseTagless s).nv.order = s.nv.order := by
  unfold pauseTagless
  generalize s.nv.ctrls = cs
  induction cs generalizing s with
  | nil => exact ⟨rfl, rfl⟩
  | cons e cs ih =>
    unfold forEach
    obtain ⟨hc, ho⟩ := ih (if (tagFor e.1 s).isNone && e.2.sqs.any (fun q => fetchable e.1 q.1 s) then tagPause e.1 s else s)
    rw [hc, ho]
    split
    · exact tagPause_cmds e.1 s
    · exact ⟨rfl, rfl⟩

theorem freshTag_lt (n t : Nat) (cs : List Cmd) : freshTag n t cs < 65536 := by
  induction n generalizing t with
  | zero => exact Nat.mod_lt _ (by decide)
  | succ n ih =>
    unfold freshTag
    split
    · exact ih _
    · exact Nat.mod_lt _ (by decide)

theorem trackerPause_nv (s : State) :
    (trackerPause s).nv.ctrls = s.nv.ctrls ∧ (trackerPause s).nv.cmds = s.nv.cmds := by
  unfold trackerPause
  split
  · exact ⟨rfl, rfl⟩
  · rw [raiseEvent_nv, cntAdd_nv]
    exact ⟨rfl, rfl⟩

/-- Arbitration's own bookkeeping leaves the submission queues and the commands. -/
theorem arbitrated_rest (c q : Nat) (s : State) :
    (∀ d r, sqAt d r (arbitrated c q s) = sqAt d r s) ∧ (arbitrated c q s).nv.cmds = s.nv.cmds := by
  unfold arbitrated
  split
  · exact ⟨fun _ _ => rfl, rfl⟩
  · refine ⟨fun d r => ?_, rfl⟩
    exact sqAt_updCtrl (c := c) (f := fun x => { x with
      deficit := (if s.nv.ioLast = c ∧ 0 < x.deficit then x.deficit else x.weight) - 1
      sqLast := SMap.put x.sqLast (turnClass x q) q
      wrr := if turnClass x q = 0 then x.wrr else x.wrr + 1 }) (fun _ => rfl) d r s

/-- Letters served for pigeonholes leave the queues and the commands. -/
theorem servePigeons_nv (s : State) :
    (servePigeons s).nv.ctrls = s.nv.ctrls ∧ (servePigeons s).nv.cmds = s.nv.cmds := by
  unfold servePigeons servePigeon
  dsimp only
  split
  · exact ⟨rfl, rfl⟩
  · rw [endLetters_nv]
    exact ⟨rfl, rfl⟩

/-- A command taken from a queue that is not halted: the queue's head moves on and the command is added, fetched and with a tag in range. -/
theorem enterCmd_fetched {c q cid nsid lba nlb : Nat} {kind : CmdKind} {sh : Bool} {k : Sq} {s : State} (hk : sqAt c q s = some k)
    (hh : k.halted = false) (hu : kind ≠ .unsupported) :
    sqAt c q (enterCmd c q cid kind nsid lba nlb sh s) = some { k with head := (k.head + 1) % max k.size 1 } ∧
    ∃ tag, tag < 65536 ∧ (enterCmd c q cid kind nsid lba nlb sh s).nv.cmds = s.nv.cmds ++ [{
      tag := tag, ctrl := c, sq := q, cid := cid, order := s.nv.order, ordered := k.ordered, haltErr := k.haltErr, kind := kind, nsid := nsid
      lba := lba, nlb := nlb, shared := sh, tracked := trackedKind kind, phase := .fetched, admitted := false, media := false, wdata := []
      dealloc := false, places := [], need := [], looked := [], got := [], pr := PrInfo.none, verifyOnly := false, compareOnly := false
      abort := false, result := none }] := by
  have hmoved : sqAt c q (updSq c q (fun k => { k with head := (k.head + 1) % max k.size 1 }) s) =
      some { k with head := (k.head + 1) % max k.size 1 } := by
    rw [sqAt_updSq_self, hk]
    rfl
  generalize ht : enterCmd c q cid kind nsid lba nlb sh s = t
  unfold enterCmd at ht
  extract_lets tag sq x s1 nv1 s2 nv2 s3 s4 at ht
  have hsq : sq = some k := hk
  have htaken : sqAt c q s2 = some { k with head := (k.head + 1) % max k.size 1 } ∧ s2.nv.cmds = s.nv.cmds ∧ s2.nv.order = s.nv.order := by
    dsimp only [s2]
    split
    · exact ⟨hmoved, rfl, rfl⟩
    · exact ⟨(sqAt_updCtrl (f := fun x => { x with ownUsed := x.ownUsed + 1 }) (fun _ => rfl) c q s1).trans hmoved, rfl, rfl⟩
  obtain ⟨hq2, hc2, ho2⟩ := htaken
  have hq3 : sqAt c q s3 = some { k with head := (k.head + 1) % max k.size 1 } := (sqAt_congr (by rw [showTags_nv]) c q).trans hq2
  have hc3 : s3.nv.cmds = s.nv.cmds ++ [x] := by
    dsimp only [s3]
    rw [showTags_nv]
    dsimp only
    rw [hc2]
  have h4 : s4.nv.ctrls = s3.nv.ctrls ∧ s4.nv.cmds = s3.nv.cmds := by
    dsimp only [s4]
    split
    · exact trackerPause_nv s3
    · exact ⟨rfl, rfl⟩
  obtain ⟨hctrls, hcmds⟩ := h4
  rw [hsq, Option.any_some, hh, if_neg (by decide), if_neg hu] at ht
  refine ⟨?_, tag, freshTag_lt _ _ _, ?_⟩
  · rw [← ht, sqAt_congr hctrls, hq3]
  · rw [← ht, hcmds, hc3]
    dsimp only [x]
    rw [hsq, Option.any_some, Option.any_some]

theorem fetchCommand_fetched {c q cid nsid lba nlb : Nat} {kind : CmdKind} {sh : Bool} {s : State}
    (ha : arbitrate (pauseTagless s) = some (c, q)) (ht : tagFor c (pauseTagless s) = some sh)
    (hr : trackedKind kind = true → (pauseTagless s).nv.ovlPause = false ∧ (s.nv.cmds.filter (·.tracked)).length < 16384) :
    fetchCommand cid kind nsid lba nlb s = arbitrated c q (enterCmd c q cid kind nsid lba nlb sh (pauseTagless s)) := by
  have hroom : (trackedKind kind && ((pauseTagless s).nv.ovlPause || decide (16384 ≤ tracked (pauseTagless s)))) = false := by
    cases hkind : trackedKind kind with
    | false => rfl
    | true =>
      obtain ⟨hovl, hlt⟩ := hr hkind
      unfold tracked
      rw [(pauseTagless_cmds s).1, hovl]
      simpa using hlt
  unfold fetchCommand
  dsimp only
  rw [ha]
  dsimp only
  rw [hroom, if_neg (by decide), ht]

/-! ### Tags that are freed (R94) -/

theorem shareTag_rest (s : State) :
    (returnTag.shareTag s).nv.freedTags = s.nv.freedTags ∧ (returnTag.shareTag s).nv.sharedFree = s.nv.sharedFree + 1 := by
  unfold returnTag.shareTag
  dsimp only
  split <;> rw [showTags_nv] <;> exact ⟨rfl, rfl⟩

/-- A freed tag goes back to its controller's reserve while the controller uses tags of it. -/
theorem returnTag_own {c : Nat} {x : Ctrl} {s : State} (hx : ctrlAt c s = some x) (hu : 0 < x.ownUsed) :
    (returnTag c s).nv.freedTags = s.nv.freedTags ∧ (returnTag c s).nv.sharedFree = s.nv.sharedFree ∧
      ctrlAt c (returnTag c s) = some { x with ownUsed := x.ownUsed - 1, paused := false } := by
  unfold returnTag
  rw [hx]
  dsimp only
  rw [if_pos hu]
  refine ⟨by rw [showTags_nv]; rfl, by rw [showTags_nv]; rfl, ?_⟩
  rw [ctrlAt_congr (s := updCtrl c (fun x => { x with ownUsed := x.ownUsed - 1, paused := false }) s) (by rw [showTags_nv]),
    ctrlAt_updCtrl_self, hx]
  rfl

/-- A freed tag goes to the shared pool where its controller uses none of its reserve. -/
theorem returnTag_shared {c : Nat} {x : Ctrl} {s : State} (hx : ctrlAt c s = some x) (hu : ¬ 0 < x.ownUsed) :
    returnTag c s = returnTag.shareTag s := by
  unfold returnTag
  rw [hx]
  dsimp only
  rw [if_neg hu]

/-- Settles O7: each clause by what its operation leaves of the host's queues and commands. -/
theorem doorbellsAndTags : Obligations.DoorbellsAndTags := by
  unfold Obligations.DoorbellsAndTags
  intro s
  refine ⟨?tail, ?badTail, ?head, ?fetch, ?freed, ?entry⟩
  case tail =>
    intro c q tail k hk ht
    obtain ⟨hq, hp, hc⟩ := tailDoorbell_taken hk ht
    obtain ⟨hcmds, -, hpigeon⟩ := judgeIdle_rest (tailDoorbell c q tail (wakeBy 5 s))
    exact ⟨judgeIdle (tailDoorbell c q tail (wakeBy 5 s)), rfl, by rw [sqAt_judgeIdle, hq], by rw [hpigeon]; exact hp, by rw [hcmds, hc]⟩
  case badTail =>
    intro c q tail k hk ht ha
    obtain ⟨-, haens, hpigeon⟩ := judgeIdle_rest (tailDoorbell c q tail (wakeBy 5 s))
    refine ⟨judgeIdle (tailDoorbell c q tail (wakeBy 5 s)), rfl, ?_, ?_, ?_⟩
    · rw [sqAt_judgeIdle, tailDoorbell_refused hk ht ha]
      exact hk
    · rw [haens, tailDoorbell_refused hk ht ha]
    · rw [hpigeon, tailDoorbell_refused hk ht ha]
  case head =>
    intro c q head k hk hf hh hsz hadv
    exact ⟨_, rfl, headDoorbell_taken hk hf hh hsz hadv⟩
  case fetch =>
    intro cid kind nsid lba nlb c q k sh p hm ha hk hh ht hu hr
    have hrow : exec (.commandFetch cid kind nsid lba nlb) s =
        .next (servePigeons (arbitrated c q (enterCmd c q cid kind nsid lba nlb sh p))) := by
      change execCommandFetch cid kind nsid lba nlb s = _
      unfold execCommandFetch
      rw [if_neg hm, fetchCommand_fetched ha ht hr]
    obtain ⟨hctrls, hcmds⟩ := servePigeons_nv (arbitrated c q (enterCmd c q cid kind nsid lba nlb sh p))
    obtain ⟨hsqs, hsame⟩ := arbitrated_rest c q (enterCmd c q cid kind nsid lba nlb sh p)
    obtain ⟨hq, tag, htag, hnew⟩ := enterCmd_fetched (cid := cid) (nsid := nsid) (lba := lba) (nlb := nlb) (sh := sh) hk hh hu
    obtain ⟨hold, horder⟩ := pauseTagless_cmds s
    refine ⟨_, hrow, by rw [sqAt_congr hctrls, hsqs, hq], tag, htag, ?_⟩
    rw [hcmds, hsame, hnew, hold, horder]
  case freed =>
    intro c x sh rest hfree hx
    have hrow : exec .tagFreed s = .next (returnTag c { s with nv := { s.nv with freedTags := rest } }) := by
      change execTagFreed s = _
      unfold execTagFreed
      rw [hfree]
    have hx' : ctrlAt c { s with nv := { s.nv with freedTags := rest } } = some x := hx
    refine ⟨_, hrow, ?_⟩
    by_cases hu : 0 < x.ownUsed
    · obtain ⟨hfr, hsh, hown⟩ := returnTag_own hx' hu
      rw [if_pos hu]
      exact ⟨hfr, hown, hsh⟩
    · obtain ⟨hfr, hsh⟩ := shareTag_rest { s with nv := { s.nv with freedTags := rest } }
      rw [if_neg hu, returnTag_shared hx' hu]
      exact ⟨hfr, hsh⟩
  case entry =>
    intro h
    refine ⟨_, ?_, rfl⟩
    change execTrackerEntryFreed s = _
    unfold execTrackerEntryFreed
    rw [if_pos h]

end Sys2Proof.Machine
end

section
/-! Why the answers of reads do not hold of every state (R20, R98): where the list of channels has two entries of one channel, the end of a map page's
read writes the second entry over the first. -/

namespace Sys2Proof.Machine

/-- A read of blocks 3 to 5 that waits for its map page. -/
def pageWaiter : Cmd :=
  ⟨5, 1, 1, 100, 5, false, false, .read, 1, 3, 3, false, true, .waitMap (pageKey 1 0), false, false, [], false, [], [], [], [], PrInfo.none, false, false,
    false, none⟩

/-- A namespace of 1,024 blocks of 4,096 bytes, attached to controller 1. -/
def pageWaiterNs : Ns := ⟨0, 1024, 1024, 3, false, 0, false, 0, 0, [1], false, 0, ⟨[], none, 0, 0, false⟩⟩

/-- Controller 1, enabled, with one pair of queues. -/
def pageWaiterCtrl : Ctrl :=
  { Ctrl.fresh 0 false false true with
    en := true, rdy := true, sqs := [(1, ⟨16, 1, 2, 1, 0, false, false, false⟩)], cqs := [(1, ⟨16, 0, 0, none, [], []⟩)] }

/-- The module in Serve with this read outstanding, its unit 1 mapped on channel 0. The list of channels has two entries of channel 0: the first is
fresh, the second retired and with the read of the map page. -/
def pageWaiterState : State :=
  fset Fl.AON_MODE_CUR 4 { State.reset with
    nv := { State.reset.nv with ctrls := [(1, pageWaiterCtrl)], cmds := [pageWaiter], ns := [(1, pageWaiterNs)] }
    ftl := { State.reset.ftl with map := [(mapKey 1 1, ⟨0, 0, 2, [], 16384, false, 0⟩)] }
    media := { State.reset.media with chans := [(0, Chan.fresh),
      (0, { Chan.fresh with retired := true, queue := [mkOp .read .mapPage 1 0 0 0 (pageKey 1 0)] })] } }

theorem pageWaiter_inPhase : InPhase 5 (.waitMap (pageKey 1 0)) [.read] pageWaiter pageWaiterState := by
  unfold InPhase
  exact ⟨by decide +kernel, rfl, rfl, by decide, by decide +kernel, by decide +kernel, ⟨16, 1, 2, 1, 0, false, false, false⟩,
    ⟨16, 0, 0, none, [], []⟩, by decide +kernel⟩

theorem pageWaiter_canLook : CanLook pageWaiter pageWaiterNs (cachePage (pageKey 1 0) pageWaiterState) := by
  have hunits : iusOf pageWaiter (cachePage (pageKey 1 0) pageWaiterState) = [0, 1] := by decide +kernel
  refine ⟨by decide +kernel, by decide +kernel, by decide +kernel, rfl, rfl, rfl, ?_⟩
  rw [hunits]
  decide +kernel

theorem pageWaiter_mapped : ∃ iu ∈ iusOf pageWaiter pageWaiterState, (iuAt (mapKey pageWaiter.nsid iu) pageWaiterState).isSome = true :=
  ⟨1, by decide +kernel, by decide +kernel⟩

/-- The read of the mapped unit goes to a channel that has become retired: no read of the unit is queued there. -/
theorem pageWaiter_unread :
    ∀ t, exec (.mapPageLoadDone (pageKey 1 0)) pageWaiterState = .next t → (chanAt 0 t).queue = [] := by
  have hrun : ∃ t, exec (.mapPageLoadDone (pageKey 1 0)) pageWaiterState = .next t ∧ (chanAt 0 t).queue = [] := by
    refine ⟨_, rfl, ?_⟩
    decide +kernel
  obtain ⟨u, hu, hq⟩ := hrun
  intro t ht
  rw [hu] at ht
  cases ht
  exact hq

/-- Refutes O9: a map page's load starts the read that waits for it, but the clause allows a list of channels with two entries of one channel; the end of
the page's own read then makes that channel a retired one, and the read of the mapped unit becomes a rebuild. -/
theorem not_readsAndCompares : ¬ Obligations.ReadsAndCompares := by
  unfold Obligations.ReadsAndCompares
  intro h
  obtain ⟨-, -, hload, -⟩ := h pageWaiterState 5 pageWaiter pageWaiterNs
  obtain ⟨t, ht, -, hreads⟩ := hload (pageKey 1 0) pageWaiter_inPhase (by decide) pageWaiter_canLook pageWaiter_mapped
  obtain ⟨o, ho, -⟩ := hreads 1 (by decide +kernel) ⟨0, 0, 2, [], 16384, false, 0⟩ (by decide +kernel)
  rw [pageWaiter_unread t ht] at ho
  exact absurd ho (List.not_mem_nil)

end Sys2Proof.Machine
end

section
/-! Flash channels (R152–R156): what showing and replacing a channel, queueing, rebuilds and the end of a family of operations leave. -/

namespace Sys2Proof.Machine

theorem rd_forN {f : Nat → State → State} {a : Nat} (h : ∀ i t, rd a (f i t) = rd a t) (n : Nat) (s : State) : rd a (forN f n s) = rd a s := by
  induction n with
  | zero => rfl
  | succ n ih => exact (h n _).trans ih

/-- A register that no step of the loop changes keeps its value. -/
theorem rd_forEach {α : Type} {f : α → State → State} {a : Nat} (l : List α) (h : ∀ e ∈ l, ∀ t, rd a (f e t) = rd a t) (s : State) :
    rd a (forEach f l s) = rd a s := by
  induction l generalizing s with
  | nil => rfl
  | cons e l ih =>
    unfold forEach
    rw [ih (fun x hx => h x (List.mem_cons_of_mem _ hx)), h e (List.mem_cons_self ..)]

/-! ### One channel shown and replaced -/

/-- The registers that show the state of channel `n`. -/
def chanRegs (n : Nat) : List Nat := [Reg.CHE_STATUS n, Reg.CHE_CTRL n, Reg.CHE_DIE_STATE n, Reg.CHE_QDEPTH n]

theorem rd_showChan {n a : Nat} (h : a ∉ chanRegs n) (s : State) : rd a (showChan n s) = rd a s := by
  simp only [chanRegs, List.mem_cons, List.not_mem_nil, or_false, not_or] at h
  obtain ⟨hstatus, hctrl, hdie, hdepth⟩ := h
  unfold showChan
  dsimp only
  rw [rd_fset_ne _ _ _ _ hctrl, rd_fset_ne _ _ _ _ hstatus, rd_forN (fun i t => rd_fset_ne _ _ _ _ hdepth),
    rd_forN (fun i t => rd_fset_ne _ _ _ _ hdie)]

theorem showChan_media (n : Nat) (s : State) : (showChan n s).media = s.media :=
  (showChan_keeps n (Keeps.refl s) (Sub.refl 1)).only.media rfl

@[simp] theorem setChan_nv (n : Nat) (c : Chan) (s : State) : (setChan n c s).nv = s.nv :=
  (setChan_keeps n c (Keeps.refl s) (Sub.refl 513)).only.nv rfl

@[simp] theorem setChan_ftl (n : Nat) (c : Chan) (s : State) : (setChan n c s).ftl = s.ftl :=
  (setChan_keeps n c (Keeps.refl s) (Sub.refl 513)).only.ftl rfl

theorem rd_setChan {n a : Nat} (c : Chan) (h : a ∉ chanRegs n) (s : State) : rd a (setChan n c s) = rd a s := by
  unfold setChan
  rw [rd_showChan h]
  rfl

theorem chanAt_congr {s t : State} (h : t.media = s.media) (m : Nat) : chanAt m t = chanAt m s := by
  unfold chanAt
  rw [h]

theorem setChan_chans (n : Nat) (c : Chan) (s : State) : (setChan n c s).media.chans = SMap.put s.media.chans n c := by
  unfold setChan
  rw [showChan_media]

@[simp] theorem chanAt_setChan_self (n : Nat) (c : Chan) (s : State) : chanAt n (setChan n c s) = c := by
  unfold chanAt
  rw [setChan_chans, SMap.getD_put_self]

theorem chanAt_setChan_ne {m n : Nat} (c : Chan) (h : m ≠ n) (s : State) : chanAt m (setChan n c s) = chanAt m s := by
  unfold chanAt
  rw [setChan_chans, SMap.getD_put_ne _ _ _ h]

/-- Registers that show no channel's state: those of other blocks and the counters and events of channels. -/
def ShowsNoChan (a : Nat) : Prop := ∀ n, a ∉ chanRegs n

theorem showsNoChan_of {a : Nat} (h : a < 0x46000000 ∨ a % 0x10000 ∉ [0, 4, 0x10, 0x50]) : ShowsNoChan a := by
  intro n
  simp only [chanRegs, Reg.CHE_STATUS, Reg.CHE_CTRL, Reg.CHE_DIE_STATE, Reg.CHE_QDEPTH, List.mem_cons, List.not_mem_nil, or_false, not_or] at h ⊢
  omega

theorem showsNoChan_read (n : Nat) : ShowsNoChan (Reg.CHE_CNT_READ n) :=
  showsNoChan_of (.inr (by simp only [Reg.CHE_CNT_READ, List.mem_cons, List.not_mem_nil, or_false, not_or]; omega))

theorem showsNoChan_retry (n : Nat) : ShowsNoChan (Reg.CHE_CNT_RRETRY n) :=
  showsNoChan_of (.inr (by simp only [Reg.CHE_CNT_RRETRY, List.mem_cons, List.not_mem_nil, or_false, not_or]; omega))

theorem showsNoChan_soft (n : Nat) : ShowsNoChan (Reg.CHE_CNT_SOFT n) :=
  showsNoChan_of (.inr (by simp only [Reg.CHE_CNT_SOFT, List.mem_cons, List.not_mem_nil, or_false, not_or]; omega))

theorem showsNoChan_rebuild (n : Nat) : ShowsNoChan (Reg.CHE_CNT_REBUILD n) :=
  showsNoChan_of (.inr (by simp only [Reg.CHE_CNT_REBUILD, List.mem_cons, List.not_mem_nil, or_false, not_or]; omega))

theorem showsNoChan_event (n : Nat) : ShowsNoChan (Reg.CHE_EVENT n) :=
  showsNoChan_of (.inr (by simp only [Reg.CHE_EVENT, List.mem_cons, List.not_mem_nil, or_false, not_or]; omega))

/-! ### Queues that only grow -/

/-- No channel has changed but for operations added to its queue. -/
def QueuesGrow (s t : State) : Prop := ∀ m, ∃ l, chanAt m t = { chanAt m s with queue := (chanAt m s).queue ++ l }

theorem QueuesGrow.refl (s : State) : QueuesGrow s s := fun m => ⟨[], by rw [List.append_nil]⟩

theorem QueuesGrow.trans {s t u : State} (h : QueuesGrow s t) (g : QueuesGrow t u) : QueuesGrow s u := by
  intro m
  obtain ⟨l, hl⟩ := h m
  obtain ⟨r, hr⟩ := g m
  exact ⟨l ++ r, by rw [hr, hl, List.append_assoc]⟩

theorem QueuesGrow.mem {s t : State} (h : QueuesGrow s t) {m : Nat} {q : ChanOp} (hq : q ∈ (chanAt m s).queue) : q ∈ (chanAt m t).queue := by
  obtain ⟨l, hl⟩ := h m
  rw [hl]
  exact List.mem_append_left _ hq

theorem QueuesGrow.retired {s t : State} (h : QueuesGrow s t) (m : Nat) : (chanAt m t).retired = (chanAt m s).retired := by
  obtain ⟨l, hl⟩ := h m
  rw [hl]

theorem enqueue_grows (n : Nat) (o : ChanOp) (s : State) : QueuesGrow s (enqueue n o s) := by
  intro m
  unfold enqueue
  by_cases h : m = n
  · subst h
    exact ⟨[o], chanAt_setChan_self _ _ _⟩
  · exact ⟨[], by rw [chanAt_setChan_ne _ h, List.append_nil]⟩

/-- The read of the page on another channel that a rebuild on channel `n` takes. -/
def contribRead (n : Nat) (o : ChanOp) (b : Nat) : ChanOp := { (mkOp .read .contrib o.cls (blkDie b) o.sb o.tag o.key) with handle := n }

/-- The reads that a rebuild takes of the blocks of a stripe (R156). -/
def queueContribs (n : Nat) (o : ChanOp) (blocks : List (Nat × Nat)) (s : State) : State :=
  forEach (fun e t => if e.1 = n ∨ (chanAt e.1 t).retired then t else enqueue e.1 (contribRead n o e.2) t) blocks s

theorem pushContrib_eq (n : Nat) (o : ChanOp) (s : State) : pushContrib n o s = queueContribs n o (sbAt o.sb s).blocks s := rfl

theorem queueContribs_spec (n : Nat) (o : ChanOp) (blocks : List (Nat × Nat)) (s : State) :
    QueuesGrow s (queueContribs n o blocks s) ∧ chanAt n (queueContribs n o blocks s) = chanAt n s ∧
      ∀ e ∈ blocks, e.1 ≠ n → (chanAt e.1 s).retired = false → contribRead n o e.2 ∈ (chanAt e.1 (queueContribs n o blocks s)).queue := by
  induction blocks generalizing s with
  | nil => exact ⟨QueuesGrow.refl s, rfl, fun e he => absurd he (List.not_mem_nil)⟩
  | cons b blocks ih =>
    obtain ⟨u, hu⟩ : ∃ u, u = if b.1 = n ∨ (chanAt b.1 s).retired then s else enqueue b.1 (contribRead n o b.2) s := ⟨_, rfl⟩
    have hstep : queueContribs n o (b :: blocks) s = queueContribs n o blocks u := by rw [hu]; rfl
    have hfirst : QueuesGrow s u ∧ chanAt n u = chanAt n s ∧
        (b.1 ≠ n → (chanAt b.1 s).retired = false → contribRead n o b.2 ∈ (chanAt b.1 u).queue) := by
      rw [hu]
      split
      · rename_i h
        exact ⟨QueuesGrow.refl s, rfl, fun hn hr => by simp [hn, hr] at h⟩
      · rename_i h
        rw [not_or] at h
        refine ⟨enqueue_grows _ _ _, ?_, fun _ _ => ?_⟩
        · unfold enqueue
          rw [chanAt_setChan_ne _ (fun e => h.1 e.symm)]
        · unfold enqueue
          rw [chanAt_setChan_self]
          exact List.mem_append_right _ (List.mem_singleton_self _)
    obtain ⟨hgrow, hself, hhead⟩ := hfirst
    obtain ⟨hgrow', hself', htail⟩ := ih u
    rw [hstep]
    refine ⟨hgrow.trans hgrow', hself'.trans hself, fun e he hn hr => ?_⟩
    rcases List.mem_cons.mp he with rfl | he
    · exact hgrow'.mem (hhead hn hr)
    · exact htail e he hn ((hgrow.retired e.1).trans hr)

theorem rd_queueContribs {a : Nat} (h : ShowsNoChan a) (n : Nat) (o : ChanOp) (blocks : List (Nat × Nat)) (s : State) :
    rd a (queueContribs n o blocks s) = rd a s := by
  refine rd_forEach blocks (fun e _ t => ?_) s
  split
  · rfl
  · exact rd_setChan _ (h e.1) _

/-! ### A page's rebuild starts (R156) -/

@[simp] theorem startRebuild_nv (n : Nat) (o : ChanOp) (counts check : Bool) (s : State) : (startRebuild n o counts check s).nv = s.nv :=
  (startRebuild_keeps n o counts check (Keeps.refl s) (Sub.refl 513)).only.nv rfl

@[simp] theorem startRebuild_ftl (n : Nat) (o : ChanOp) (counts check : Bool) (s : State) : (startRebuild n o counts check s).ftl = s.ftl :=
  (startRebuild_keeps n o counts check (Keeps.refl s) (Sub.refl 513)).only.ftl rfl

theorem rd_startRebuild {a : Nat} (h : ShowsNoChan a) (n : Nat) (o : ChanOp) (counts check : Bool) (s : State) :
    rd a (startRebuild n o counts check s) = rd a s := by
  unfold startRebuild
  rw [pushContrib_eq, rd_queueContribs h, rd_setChan _ (h n)]

theorem startRebuild_rebuilds (n : Nat) (o : ChanOp) (counts check : Bool) (s : State) :
    (chanAt n (startRebuild n o counts check s)).rebuilds = (chanAt n s).rebuilds ++ [⟨o, counts, check, false⟩] := by
  unfold startRebuild
  rw [pushContrib_eq, (queueContribs_spec _ _ _ _).2.1, chanAt_setChan_self]

/-- Every other channel of the stripe that is not retired gets a read for the rebuild. -/
theorem startRebuild_contributes {n : Nat} {o : ChanOp} {counts check : Bool} {s : State} {e : Nat × Nat} (he : e ∈ (sbAt o.sb s).blocks)
    (hn : e.1 ≠ n) (hr : (chanAt e.1 s).retired = false) :
    contribRead n o e.2 ∈ (chanAt e.1 (startRebuild n o counts check s)).queue := by
  unfold startRebuild
  rw [pushContrib_eq]
  refine (queueContribs_spec _ _ _ _).2.2 e ?_ hn ?_
  · unfold sbAt
    rw [setChan_ftl]
    exact he
  · rw [chanAt_setChan_ne _ hn]
    exact hr

/-! ### A family of operations ends on every channel -/

/-- A channel without the operations of a family. -/
def withoutOps (is : ChanOp → Bool) (c : Chan) : Chan :=
  { c with queue := c.queue.filter (fun o => !is o), dies := c.dies.filter (fun d => !is d.2), susp := c.susp.filter (fun d => !is d.2) }

theorem hasOp_withoutOps (is : ChanOp → Bool) (c : Chan) : hasOp is (withoutOps is c) = false := by
  simp [hasOp, withoutOps]

theorem withoutOps_of_none {is : ChanOp → Bool} {c : Chan} (h : hasOp is c = false) : withoutOps is c = c := by
  simp only [hasOp, Bool.or_eq_false_iff, List.any_eq_false, Bool.not_eq_true] at h
  obtain ⟨⟨hq, hd⟩, hs⟩ := h
  have hqueue : c.queue.filter (fun o => !is o) = c.queue := List.filter_eq_self.mpr (fun o ho => by simp [hq o ho])
  have hdies : c.dies.filter (fun d => !is d.2) = c.dies := List.filter_eq_self.mpr (fun d hd' => by simp [hd d hd'])
  have hsusp : c.susp.filter (fun d => !is d.2) = c.susp := List.filter_eq_self.mpr (fun d hd' => by simp [hs d hd'])
  unfold withoutOps
  rw [hqueue, hdies, hsusp]

/-- The operations of a family and kind that a channel has, but for those of class 6. -/
def opsEnded (is : ChanOp → Bool) (k : DieKind) (c : Chan) : Nat :=
  ((c.queue ++ c.dies.map (·.2) ++ c.susp.map (·.2)).filter (fun o => is o && o.kind == k && o.cls != 6)).length

theorem opsEnded_of_none {is : ChanOp → Bool} {c : Chan} (h : hasOp is c = false) (k : DieKind) : opsEnded is k c = 0 := by
  simp only [hasOp, Bool.or_eq_false_iff, List.any_eq_false, Bool.not_eq_true] at h
  obtain ⟨⟨hq, hd⟩, hs⟩ := h
  have hnone : ∀ o ∈ c.queue ++ c.dies.map (·.2) ++ c.susp.map (·.2), is o = false := by
    intro o ho
    rcases List.mem_append.mp ho with ho | ho
    · rcases List.mem_append.mp ho with ho | ho
      · exact hq o ho
      · obtain ⟨d, hd', rfl⟩ := List.mem_map.mp ho
        exact hd d hd'
    · obtain ⟨d, hd', rfl⟩ := List.mem_map.mp ho
      exact hs d hd'
  unfold opsEnded
  rw [List.length_eq_zero_iff, List.filter_eq_nil_iff]
  intro o ho
  simp [hnone o ho]

/-- The channels of the list end their operations of a family: their reads and programs count. -/
def countEnded (is : ChanOp → Bool) (l : SMap Chan) (s : State) : State :=
  forEach (fun e t => t |> cntAdd (Reg.CHE_CNT_READ e.1) 64 (opsEnded is .read e.2) |> cntAdd (Reg.CHE_CNT_PROG e.1) 64 (opsEnded is .progSlc e.2)) l s

/-- The channels of the list are left without the operations of a family. -/
def dropEnded (is : ChanOp → Bool) (l : SMap Chan) (s : State) : State := forEach (fun e t => setChan e.1 (withoutOps is e.2) t) l s

theorem countEnded_media (is : ChanOp → Bool) (l : SMap Chan) (s : State) : (countEnded is l s).media = s.media := by
  unfold countEnded
  induction l generalizing s with
  | nil => rfl
  | cons e l ih => exact ih _

theorem endOps_eq (is : ChanOp → Bool) (s : State) : endOps is s = dropEnded is (chansWith is s) (countEnded is (chansWith is s) s) := by
  have hchans : chansWith is (countEnded is (chansWith is s) s) = chansWith is s := by
    unfold chansWith
    rw [countEnded_media]
  unfold endOps dropOps dropEnded
  change forEach _ (chansWith is (countEnded is (chansWith is s) s)) (countEnded is (chansWith is s) s) = _
  rw [hchans]
  rfl

theorem chanAt_dropEnded_of_above (is : ChanOp → Bool) {l : SMap Chan} {m : Nat} (h : SMap.above m l) (s : State) :
    chanAt m (dropEnded is l s) = chanAt m s := by
  induction l generalizing s with
  | nil => rfl
  | cons e l ih =>
    have hm : m < e.1 := h e (List.mem_cons_self ..)
    change chanAt m (dropEnded is l (setChan e.1 (withoutOps is e.2) s)) = _
    rw [ih (fun x hx => h x (List.mem_cons_of_mem _ hx)), chanAt_setChan_ne _ (by omega)]

/-- Each channel of a sorted list is replaced once. -/
theorem chanAt_dropEnded (is : ChanOp → Bool) {l : SMap Chan} (hl : SMap.sorted l = true) (m : Nat) (s : State) :
    chanAt m (dropEnded is l s) = ((SMap.find l m).map (withoutOps is)).getD (chanAt m s) := by
  induction l generalizing s with
  | nil => rfl
  | cons e l ih =>
    obtain ⟨k, c⟩ := e
    obtain ⟨habove, hsorted⟩ := (SMap.sorted_cons k c l).mp hl
    change chanAt m (dropEnded is l (setChan k (withoutOps is c) s)) = _
    unfold SMap.find
    split
    · rename_i h
      rw [chanAt_dropEnded_of_above is (h ▸ habove), h, chanAt_setChan_self]
      rfl
    · rename_i h
      rw [ih hsorted, chanAt_setChan_ne _ h]

theorem find_of_above {l : SMap Chan} {m : Nat} (h : SMap.above m l) : SMap.find l m = none := by
  induction l with
  | nil => rfl
  | cons e l ih =>
    unfold SMap.find
    have hm : m < e.1 := h e (List.mem_cons_self ..)
    rw [if_neg (by omega), ih (fun x hx => h x (List.mem_cons_of_mem _ hx))]

/-- In a sorted map, the entries that a test keeps are found as before. -/
theorem find_filter {l : SMap Chan} (hl : SMap.sorted l = true) (p : Chan → Bool) (m : Nat) :
    SMap.find (l.filter (fun e => p e.2)) m = (SMap.find l m).filter p := by
  induction l with
  | nil => rfl
  | cons e l ih =>
    obtain ⟨k, c⟩ := e
    obtain ⟨habove, hsorted⟩ := (SMap.sorted_cons k c l).mp hl
    rw [List.filter_cons]
    by_cases hk : m = k
    · subst hk
      have hnone : SMap.find (l.filter (fun e => p e.2)) m = none := find_of_above (fun x hx => habove x (List.mem_filter.mp hx).1)
      cases hp : p c <;> simp [SMap.find, Option.filter, hp, hnone]
    · cases hp : p c <;> simp [SMap.find, hk, ih hsorted]

theorem chanAt_eq (m : Nat) (s : State) : chanAt m s = (SMap.find s.media.chans m).getD Chan.fresh := rfl

/-- The end of a family leaves every channel without its operations. -/
theorem chanAt_endOps (is : ChanOp → Bool) {s : State} (hs : SMap.sorted s.media.chans = true) (m : Nat) :
    chanAt m (endOps is s) = withoutOps is (chanAt m s) := by
  rw [endOps_eq]
  unfold chansWith
  rw [chanAt_dropEnded is (SMap.sorted_filter _ hs), chanAt_congr (countEnded_media _ _ _), find_filter hs (hasOp is), chanAt_eq]
  cases SMap.find s.media.chans m with
  | none => rfl
  | some c =>
    cases hc : hasOp is c with
    | true => simp [Option.filter, hc]
    | false => simp [Option.filter, hc, withoutOps_of_none hc]

theorem rd_dropEnded {a : Nat} (h : ShowsNoChan a) (is : ChanOp → Bool) (l : SMap Chan) (s : State) : rd a (dropEnded is l s) = rd a s :=
  rd_forEach l (fun e _ t => rd_setChan _ (h e.1) t) s

/-- A register that counts no channel's reads or programs. -/
def CountsNoChan (a : Nat) : Prop := ∀ n, a ≠ Reg.CHE_CNT_READ n ∧ a ≠ Reg.CHE_CNT_PROG n

theorem rd_endOps {a : Nat} (h : ShowsNoChan a) (hc : CountsNoChan a) (is : ChanOp → Bool) (s : State) : rd a (endOps is s) = rd a s := by
  rw [endOps_eq, rd_dropEnded h]
  refine rd_forEach _ (fun e _ t => ?_) s
  obtain ⟨hread, hprog⟩ := hc e.1
  rw [rd_cntAdd_ne _ _ _ _ _ hprog, rd_cntAdd_ne _ _ _ _ _ hread]

theorem cntAdd_toNat (a w n : Nat) (hw : w ≤ 64) (s : State) : (rd a (cntAdd a w n s)).toNat = Nat.min ((rd a s).toNat + n) (2 ^ w - 1) := by
  have hle : Nat.min ((rd a s).toNat + n) (2 ^ w - 1) < 2 ^ 64 := by
    have hpow : (2 : Nat) ^ w ≤ 2 ^ 64 := Nat.pow_le_pow_right (by decide) hw
    have hpos : 0 < (2 : Nat) ^ w := Nat.pow_pos (by decide)
    exact lt_of_le_of_lt (Nat.min_le_right _ _) (by omega)
  unfold cntAdd
  rw [rd_wr_self, BitVec.toNat_ofNat, Nat.mod_eq_of_lt hle]

theorem readCount_step {m : Nat} {e : Nat × Chan} (h : m ≠ e.1) (r p : Nat) (s : State) :
    rd (Reg.CHE_CNT_READ m) (s |> cntAdd (Reg.CHE_CNT_READ e.1) 64 r |> cntAdd (Reg.CHE_CNT_PROG e.1) 64 p) = rd (Reg.CHE_CNT_READ m) s := by
  rw [rd_cntAdd_ne _ _ _ _ _ (by simp only [Reg.CHE_CNT_READ, Reg.CHE_CNT_PROG]; omega),
    rd_cntAdd_ne _ _ _ _ _ (by simp only [Reg.CHE_CNT_READ]; omega)]

theorem readCount_of_above (is : ChanOp → Bool) {l : SMap Chan} {m : Nat} (h : SMap.above m l) (s : State) :
    rd (Reg.CHE_CNT_READ m) (countEnded is l s) = rd (Reg.CHE_CNT_READ m) s :=
  rd_forEach l (fun e he t => readCount_step (by have := h e he; omega) _ _ t) s

/-- Each channel of a sorted list counts the reads that end once. -/
theorem readCount_countEnded (is : ChanOp → Bool) {l : SMap Chan} (hl : SMap.sorted l = true) (m : Nat) (s : State) :
    (rd (Reg.CHE_CNT_READ m) (countEnded is l s)).toNat =
      Nat.min ((rd (Reg.CHE_CNT_READ m) s).toNat + ((SMap.find l m).map (opsEnded is .read)).getD 0) (2 ^ 64 - 1) := by
  induction l generalizing s with
  | nil =>
    have hlt := (rd (Reg.CHE_CNT_READ m) s).isLt
    change (rd (Reg.CHE_CNT_READ m) s).toNat = Nat.min ((rd (Reg.CHE_CNT_READ m) s).toNat + 0) (2 ^ 64 - 1)
    exact (Nat.min_eq_left (by omega)).symm
  | cons e l ih =>
    obtain ⟨k, c⟩ := e
    obtain ⟨habove, hsorted⟩ := (SMap.sorted_cons k c l).mp hl
    change (rd _ (countEnded is l (s |> cntAdd (Reg.CHE_CNT_READ k) 64 (opsEnded is .read c)
      |> cntAdd (Reg.CHE_CNT_PROG k) 64 (opsEnded is .progSlc c)))).toNat = _
    unfold SMap.find
    split
    · rename_i h
      subst h
      rw [readCount_of_above is habove,
        rd_cntAdd_ne _ _ _ _ _ (by simp only [Reg.CHE_CNT_READ, Reg.CHE_CNT_PROG]; omega), cntAdd_toNat _ _ _ (by decide)]
      rfl
    · rename_i h
      rw [ih hsorted, readCount_step (e := (k, c)) h]

/-- The end of a family counts, of every channel, the reads of it. -/
theorem readCount_endOps (is : ChanOp → Bool) {s : State} (hs : SMap.sorted s.media.chans = true) (m : Nat) :
    (rd (Reg.CHE_CNT_READ m) (endOps is s)).toNat =
      Nat.min ((rd (Reg.CHE_CNT_READ m) s).toNat + opsEnded is .read (chanAt m s)) (2 ^ 64 - 1) := by
  rw [endOps_eq, rd_dropEnded (showsNoChan_read m)]
  unfold chansWith
  rw [readCount_countEnded is (SMap.sorted_filter _ hs), find_filter hs (hasOp is), chanAt_eq]
  cases SMap.find s.media.chans m with
  | none => rfl
  | some c =>
    cases hc : hasOp is c with
    | true => simp [Option.filter, hc]
    | false => simp [Option.filter, hc, opsEnded_of_none hc]

end Sys2Proof.Machine
end

section
/-! Completions: the registers they write, and the answer of a command in any phase. -/

namespace Sys2Proof.Machine

/-- The registers that completions write: counts of tags and tracker entries, host events, interrupts in the management unit, and the recorder's own. -/
def completionRegs : List Nat :=
  [Reg.HIF_OVL_STATUS, Reg.HIF_TAG_STATUS, Reg.HIF_TAG_SHARED, Reg.HIF_EVENT, Reg.MGT_CNT_IBI, Reg.MGT_CNT_IBI_DEFER] ++ pbkRegs

theorem rd_showTags {a : Nat} (h : a ∉ completionRegs) (s : State) : rd a (showTags s) = rd a s := by
  simp only [completionRegs, List.mem_append, List.mem_cons, List.not_mem_nil, or_false, not_or] at h
  obtain ⟨⟨hovl, htag, hshared, -⟩, -⟩ := h
  unfold showTags
  dsimp only
  rw [rd_wr_ne _ _ hshared, rd_wr_ne _ _ htag, rd_fset_ne _ _ _ _ hovl, rd_fset_ne _ _ _ _ hovl, rd_fset_ne _ _ _ _ hovl]

theorem rd_raiseIbi {a : Nat} (h : a ∉ completionRegs) (s : State) : rd a (raiseIbi s) = rd a s := by
  simp only [completionRegs, List.mem_append, List.mem_cons, List.not_mem_nil, or_false, not_or] at h
  obtain ⟨⟨-, -, -, -, hibi, hdefer⟩, -⟩ := h
  unfold raiseIbi sendIbi
  split
  · rfl
  · split
    · exact rd_cntAdd_ne _ _ _ _ _ hibi
    · exact rd_cntAdd_ne _ _ _ _ _ hdefer

theorem rd_tunnelResult {a : Nat} (h : a ∉ completionRegs) (sct sc dw0 : Nat) (data : List Byte) (s : State) :
    rd a (tunnelResult sct sc dw0 data s) = rd a s := rd_raiseIbi h _

theorem rd_postEntry (a c q : Nat) (e : Cqe) (s : State) : rd a (postEntry c q e s) = rd a s := by
  unfold postEntry
  dsimp only
  split
  · rfl
  · split
    · rfl
    · unfold irqPend
      split <;> rfl

theorem rd_postResult {a : Nat} (h : a ∉ completionRegs) (x : Cmd) (e : Cqe) (s : State) : rd a (postResult x e s) = rd a s := by
  have hev : a ∉ pbkRegs ∧ a ≠ Reg.HIF_EVENT := by
    simp only [completionRegs, List.mem_append, List.mem_cons, List.not_mem_nil, or_false, not_or] at h
    exact ⟨h.2, h.1.2.2.2.1⟩
  unfold postResult
  split
  · split
    · exact rd_raiseEvent_ne _ _ _ _ _ hev.1 hev.2
    · exact rd_postEntry a _ _ _ _
  · change rd a (if x.sq = 65535 then tunnelResult e.sct e.sc e.dw0 e.data s else s) = rd a s
    split
    · exact rd_tunnelResult h _ _ _ _ _
    · rfl

theorem rd_settleOne {a : Nat} (h : a ∉ completionRegs) (s : State) : rd a (settleOne s) = rd a s := by
  unfold settleOne
  split
  · split
    · exact rd_postResult h _ _ _
    · rfl
  · split
    · rfl
    · rfl

theorem rd_settle {a : Nat} (h : a ∉ completionRegs) (n : Nat) (s : State) : rd a (settle n s) = rd a s := by
  induction n generalizing s with
  | zero => rfl
  | succ n ih =>
    unfold settle
    split
    · rfl
    · exact (ih _).trans (rd_settleOne h s)

theorem rd_settleAll {a : Nat} (h : a ∉ completionRegs) (s : State) : rd a (settleAll s) = rd a s :=
  (rd_showTags h _).trans (rd_settle h _ s)

theorem rd_haltQueue (a : Nat) (x : Cmd) (s : State) : rd a (haltQueue x s) = rd a s := by
  unfold haltQueue
  split
  · rfl
  · split <;> rfl

theorem rd_completeBoth {a : Nat} (h : a ∉ completionRegs) (tag sct sc : Nat) (dnr : Bool) (dw0 dw1 : Nat) (data : List Byte) (s : State) :
    rd a (completeBoth tag sct sc dnr dw0 dw1 data s) = rd a s := by
  unfold completeBoth
  split
  · rfl
  · dsimp only
    split
    · rfl
    · split
      · exact rd_settleAll h _
      · exact (rd_settleAll h _).trans (rd_haltQueue a _ _)

/-! ### A command in any phase -/

theorem InPhase.cmdAt {tag : Nat} {ph : Phase} {kinds : List CmdKind} {x : Cmd} {s : State} (h : InPhase tag ph kinds x s) :
    Machine.cmdAt tag s = some x := h.1

theorem cmdAt_setCmd {tag : Nat} {x y : Cmd} {s : State} (h : cmdAt tag s = some x) (hy : y.tag = tag) : cmdAt tag (setCmd y s) = some y := by
  obtain ⟨hm, ht⟩ := cmdAt_mem h
  refine find_unique (List.mem_map.mpr ⟨x, hm, if_pos (ht.trans hy.symm)⟩) (by simp [hy]) ?_
  intro z hz hzt
  obtain ⟨w, -, rfl⟩ := List.mem_map.mp hz
  have hzt' : (if w.tag = y.tag then y else w).tag = tag := by simpa using hzt
  by_cases hw : w.tag = y.tag
  · rw [if_pos hw]
  · rw [if_neg hw] at hzt'
    exact absurd (hzt'.trans hy.symm) hw

theorem setCmd_setCmd {x y : Cmd} (h : y.tag = x.tag) (s : State) : setCmd y (setCmd x s) = setCmd y s := by
  unfold setCmd
  dsimp only
  rw [List.map_map]
  congr 3
  funext z
  by_cases hz : z.tag = x.tag <;> simp [hz, h]

/-- A change of a command that keeps its name and its open result keeps its phase's conditions. -/
theorem InPhase.setCmd {tag : Nat} {ph ph' : Phase} {kinds : List CmdKind} {x y : Cmd} {s : State} (h : InPhase tag ph kinds x s)
    (hy : y.tag = x.tag ∧ y.phase = ph' ∧ y.result = none ∧ y.kind = x.kind ∧ y.ctrl = x.ctrl ∧ y.sq = x.sq ∧ y.ordered = x.ordered) :
    InPhase tag ph' kinds y (Machine.setCmd y s) := by
  obtain ⟨hcmd, -, -, hkind, huniq, hothers, q, k, hq, hord, hm, hk, hf, hh⟩ := h
  obtain ⟨htag, hph, hres, hk', hc, hs, ho⟩ := hy
  obtain ⟨-, hxt⟩ := cmdAt_mem hcmd
  refine ⟨cmdAt_setCmd hcmd (htag.trans hxt), hph, hres, hk' ▸ hkind, ?_, ?_, q, k, ?_, ho.trans hord, hm, ?_, hf, hh⟩
  · intro z hz hzt
    obtain ⟨w, -, rfl⟩ := List.mem_map.mp hz
    by_cases hw : w.tag = y.tag
    · rw [if_pos hw]
    · rw [if_neg hw] at hzt
      exact absurd (hzt.trans (htag.trans hxt).symm) hw
  · intro z hz hzt
    obtain ⟨w, hw, rfl⟩ := List.mem_map.mp hz
    by_cases hwt : w.tag = y.tag
    · rw [if_pos hwt] at hzt
      exact absurd (htag.trans hxt) hzt
    · rw [if_neg hwt] at hzt ⊢
      exact hothers w hw hzt
  · rw [hc, hs]
    exact hq
  · rw [hc]
    exact hk

/-- Commands, queues and the mode are all that a command's phase rests on. -/
theorem InPhase.congr {tag : Nat} {ph : Phase} {kinds : List CmdKind} {x : Cmd} {s t : State} (h : InPhase tag ph kinds x s) (hnv : t.nv = s.nv)
    (hm : mode t = mode s) : InPhase tag ph kinds x t := by
  unfold InPhase sqAt cqAt ctrlAt Machine.cmdAt at h ⊢
  rw [hnv, hm]
  exact h

/-- The answer of a command does not depend on the phase it was in. -/
theorem completeBoth_phase {tag : Nat} {x : Cmd} {s : State} (h : cmdAt tag s = some x) (hr : x.result = none) (ph : Phase)
    (sct sc : Nat) (dnr : Bool) (dw0 dw1 : Nat)
    (data : List Byte) :
    completeBoth tag sct sc dnr dw0 dw1 data (setCmd { x with phase := ph } s) = completeBoth tag sct sc dnr dw0 dw1 data s := by
  obtain ⟨-, hxt⟩ := cmdAt_mem h
  have hdone : setCmd { x with result := some ⟨x.sq, x.cid, sct, sc, dnr, dw0, dw1, data⟩, phase := .done, places := [] }
      (setCmd { x with phase := ph } s) =
        setCmd { x with result := some ⟨x.sq, x.cid, sct, sc, dnr, dw0, dw1, data⟩, phase := .done, places := [] } s := setCmd_setCmd (by rfl) s
  have hopen : ¬ x.result.isSome = true := by simp [hr]
  unfold completeBoth
  rw [h, cmdAt_setCmd (y := { x with phase := ph }) h hxt]
  dsimp only
  rw [if_neg hopen, if_neg hopen, hdone]
  rfl

theorem completeBoth_inPhase {tag : Nat} {ph : Phase} {kinds : List CmdKind} {x : Cmd} {s : State} (h : InPhase tag ph kinds x s)
    (sct sc : Nat) (dnr : Bool) (dw0 dw1 : Nat) (data : List Byte) :
    Answered x sct sc dnr dw0 dw1 data s (completeBoth tag sct sc dnr dw0 dw1 data s) := by
  have hready : Ready tag kinds { x with phase := .fetched } (setCmd { x with phase := .fetched } s) :=
    h.setCmd (y := { x with phase := .fetched }) ⟨rfl, rfl, h.2.2.1, rfl, rfl, rfl, rfl⟩
  rw [← completeBoth_phase h.cmdAt h.2.2.1 .fetched]
  obtain ⟨hcmds, hfreed, hpost⟩ := completeBoth_answered (sct := sct) (sc := sc) (dnr := dnr) (dw0 := dw0) (dw1 := dw1) (data := data) hready
  exact ⟨hcmds.trans (filter_setCmd { x with phase := .fetched } s), hfreed, hpost⟩

theorem Answered.gone {x : Cmd} {sct sc dw0 dw1 : Nat} {dnr : Bool} {data : List Byte} {s t : State}
    (h : Answered x sct sc dnr dw0 dw1 data s t) {tag : Nat} (ht : x.tag = tag) : cmdAt tag t = none := by
  obtain ⟨hcmds, -⟩ := h
  unfold cmdAt
  rw [hcmds, List.find?_eq_none, ← ht]
  intro y hy
  simpa using (List.mem_filter.mp hy).2

end Sys2Proof.Machine
end

section
/-! The ends of page reads and rebuilds (R155, R156, R173, R242). -/

namespace Sys2Proof.Machine

/-! ### Blocks of a superblock -/

theorem sbAt_congr {s t : State} (h : t.ftl = s.ftl) (i : Nat) : sbAt i t = sbAt i s := by
  unfold sbAt
  rw [h]

theorem blkOn_congr {s t : State} (h : t.ftl = s.ftl) (i c : Nat) : blkOn i c t = blkOn i c s := by
  unfold blkOn blkAt sbAt
  rw [h]

theorem blkOn_updBlkOf {i c : Nat} (f : Blk → Blk) {s : State} (h : (SMap.find (sbAt i s).blocks c).isSome = true) :
    blkOn i c (updBlkOf i c f s) = f (blkOn i c s) := by
  obtain ⟨b, hb⟩ := Option.isSome_iff_exists.mp h
  have hrow : updBlkOf i c f s = updBlk c b f s := by
    unfold updBlkOf
    rw [hb]
  have hb' : SMap.find (sbAt i (updBlk c b f s)).blocks c = some b := hb
  rw [hrow]
  unfold blkOn
  rw [hb, hb']
  unfold blkAt updBlk
  exact SMap.getD_put_self _ _ _ _

@[simp] theorem noteRead_nv (sb chan : Nat) (r : Bool) (s : State) : (noteRead sb chan r s).nv = s.nv :=
  (noteRead_keeps sb chan r (Keeps.refl s) (Sub.refl 256)).only.nv rfl

@[simp] theorem noteRead_media (sb chan : Nat) (r : Bool) (s : State) : (noteRead sb chan r s).media = s.media :=
  (noteRead_keeps sb chan r (Keeps.refl s) (Sub.refl 256)).only.media rfl

theorem rd_noteRead (a sb chan : Nat) (r : Bool) (s : State) : rd a (noteRead sb chan r s) = rd a s :=
  rd_congr ((noteRead_keeps sb chan r (Keeps.refl s) (Sub.refl 256)).only.regs rfl) a

theorem rd_updBlkOf (a i c : Nat) (f : Blk → Blk) (s : State) : rd a (updBlkOf i c f s) = rd a s :=
  rd_congr ((updBlkOf_keeps i c f (Keeps.refl s) (Sub.refl 256)).only.regs rfl) a

@[simp] theorem updBlkOf_media (i c : Nat) (f : Blk → Blk) (s : State) : (updBlkOf i c f s).media = s.media :=
  (updBlkOf_keeps i c f (Keeps.refl s) (Sub.refl 256)).only.media rfl

/-- Superblocks stay as they are while a block is updated. -/
theorem sbAt_updBlkOf (i c j : Nat) (f : Blk → Blk) (s : State) : sbAt j (updBlkOf i c f s) = sbAt j s := by
  unfold updBlkOf
  split <;> rfl

theorem sbAt_noteRead (sb chan j : Nat) (r : Bool) (s : State) : sbAt j (noteRead sb chan r s) = sbAt j s := sbAt_updBlkOf _ _ _ _ _

theorem noteRead_blk {sb chan : Nat} {r : Bool} {s : State} (h : (SMap.find (sbAt sb s).blocks chan).isSome = true) :
    (blkOn sb chan (noteRead sb chan r s)).reads = (blkOn sb chan s).reads + 1 ∧
      (blkOn sb chan (noteRead sb chan r s)).remembered = (blkOn sb chan s).remembered ∧
      (r = true → (blkOn sb chan (noteRead sb chan r s)).refresh = true) := by
  unfold noteRead
  dsimp only
  rw [blkOn_updBlkOf _ h]
  exact ⟨rfl, rfl, fun hr => by simp [hr]⟩

/-! ### The die read has ended -/

@[simp] theorem cntAdd_ftl (a w n : Nat) (s : State) : (cntAdd a w n s).ftl = s.ftl := rfl

@[simp] theorem cntAdd_media (a w n : Nat) (s : State) : (cntAdd a w n s).media = s.media := rfl

/-- The read of a die has ended: the die is free and the read is counted. -/
def readTaken (chan die : Nat) (s : State) : State :=
  cntAdd (Reg.CHE_CNT_READ chan) 64 1 (setChan chan { chanAt chan s with dies := SMap.del (chanAt chan s).dies die } s)

@[simp] theorem readTaken_nv (chan die : Nat) (s : State) : (readTaken chan die s).nv = s.nv := by
  unfold readTaken
  rw [cntAdd_nv, setChan_nv]

@[simp] theorem readTaken_ftl (chan die : Nat) (s : State) : (readTaken chan die s).ftl = s.ftl := by
  unfold readTaken
  rw [cntAdd_ftl, setChan_ftl]

theorem chanAt_readTaken_self (chan die : Nat) (s : State) :
    chanAt chan (readTaken chan die s) = { chanAt chan s with dies := SMap.del (chanAt chan s).dies die } := by
  unfold readTaken
  rw [chanAt_congr (cntAdd_media _ _ _ _), chanAt_setChan_self]

theorem chanAt_readTaken_ne {m chan : Nat} (h : m ≠ chan) (die : Nat) (s : State) : chanAt m (readTaken chan die s) = chanAt m s := by
  unfold readTaken
  rw [chanAt_congr (cntAdd_media _ _ _ _), chanAt_setChan_ne _ h]

theorem rd_readTaken {a chan : Nat} (h : ShowsNoChan a) (hr : a ≠ Reg.CHE_CNT_READ chan) (die : Nat) (s : State) :
    rd a (readTaken chan die s) = rd a s := by
  unfold readTaken
  rw [rd_cntAdd_ne _ _ _ _ _ hr, rd_setChan _ (h chan)]

theorem readTaken_counts (chan die : Nat) (s : State) :
    (rd (Reg.CHE_CNT_READ chan) (readTaken chan die s)).toNat = Nat.min ((rd (Reg.CHE_CNT_READ chan) s).toNat + 1) (2 ^ 64 - 1) := by
  unfold readTaken
  rw [cntAdd_toNat _ _ _ (by decide), rd_setChan _ (showsNoChan_read chan chan)]

/-! ### Steps of the escalation that are counted (R155, R176) -/

/-- The register that counts the success of a read step. -/
def stepReg (n step : Nat) : Nat := if step = 1 then Reg.CHE_CNT_RRETRY n else if step = 2 then Reg.CHE_CNT_SOFT n else Reg.CHE_CNT_REBUILD n

/-- A read step of a channel in use changes of the channel its count, and of registers its counter. -/
theorem countStep_eq {n : Nat} {s : State} (h : (chanAt n s).retired = false) (step : Nat) :
    ∃ c, countStep n step s = cntAdd (stepReg n step) 32 1 (setChan n c s) ∧ c.dies = (chanAt n s).dies ∧ c.rebuilds = (chanAt n s).rebuilds ∧
      c.queue = (chanAt n s).queue ∧ c.susp = (chanAt n s).susp := by
  unfold countStep
  dsimp only
  rw [if_neg (by simp [h])]
  split
  · exact ⟨_, rfl, rfl, rfl, rfl, rfl⟩
  · exact ⟨_, rfl, rfl, rfl, rfl, rfl⟩
  · rename_i h1 h2
    exact ⟨{ chanAt n s with pStep3 := Nat.min ((chanAt n s).pStep3 + 1) 0xFFFFFFFF }, by
      unfold stepReg
      rw [if_neg (fun e => h1 e), if_neg (fun e => h2 e)], rfl, rfl, rfl, rfl⟩

theorem countStep_counts {n step : Nat} {s : State} (h : (chanAt n s).retired = false) (hs : ShowsNoChan (stepReg n step)) :
    (rd (stepReg n step) (countStep n step s)).toNat = Nat.min ((rd (stepReg n step) s).toNat + 1) (2 ^ 32 - 1) := by
  obtain ⟨c, hrow, -⟩ := countStep_eq h step
  rw [hrow, cntAdd_toNat _ _ _ (by decide), rd_setChan _ (hs n)]

theorem rd_countStep {a n step : Nat} {s : State} (h : (chanAt n s).retired = false) (ha : ShowsNoChan a) (hs : a ≠ stepReg n step) :
    rd a (countStep n step s) = rd a s := by
  obtain ⟨c, hrow, -⟩ := countStep_eq h step
  rw [hrow, rd_cntAdd_ne _ _ _ _ _ hs, rd_setChan _ (ha n)]

end Sys2Proof.Machine
end

section
/-! What ends of page reads and of rebuilds come to (R155, R156): the rows of PAGE_READ_DONE and REBUILD_COMPLETE, and what a host's read gives. -/

namespace Sys2Proof.Machine

/-! ### What the step's parts leave (frames) -/

@[simp] theorem raiseEvent_ftl (g i : Nat) (f : Fld) (s : State) : (raiseEvent g i f s).ftl = s.ftl :=
  (raiseEvent_keeps g i f (Keeps.refl s) (Sub.refl 33)).only.ftl rfl

@[simp] theorem raiseEvent_media (g i : Nat) (f : Fld) (s : State) : (raiseEvent g i f s).media = s.media :=
  (raiseEvent_keeps g i f (Keeps.refl s) (Sub.refl 33)).only.media rfl

theorem countStep_ftl {n step : Nat} {s : State} (h : (chanAt n s).retired = false) : (countStep n step s).ftl = s.ftl := by
  obtain ⟨c, hrow, -⟩ := countStep_eq h step
  rw [hrow, cntAdd_ftl, setChan_ftl]

theorem countStep_chan {n step : Nat} {s : State} (h : (chanAt n s).retired = false) :
    (chanAt n (countStep n step s)).dies = (chanAt n s).dies ∧ (chanAt n (countStep n step s)).rebuilds = (chanAt n s).rebuilds ∧
      ∀ m, m ≠ n → chanAt m (countStep n step s) = chanAt m s := by
  obtain ⟨c, hrow, hdies, hreb, -⟩ := countStep_eq h step
  have hself : chanAt n (countStep n step s) = c := by rw [hrow, chanAt_congr (cntAdd_media _ _ _ _), chanAt_setChan_self]
  rw [hself]
  refine ⟨hdies, hreb, fun m hm => ?_⟩
  rw [hrow, chanAt_congr (cntAdd_media _ _ _ _), chanAt_setChan_ne _ hm]

/-- A unit that is expanded changes registers of the compression unit alone. -/
theorem rd_expandUnit {a : Nat} (h : a < 0x45000000) (key : Nat) (s : State) : rd a (expandUnit key s) = rd a s := by
  unfold expandUnit
  dsimp only
  split
  · split
    · exact rd_cntAdd_ne _ _ _ _ _ (by simp only [Reg.CMP_LD_CNT_BLOCKS]; omega)
    · rfl
  · split
    · rename_i e _
      unfold engineWork
      rw [rd_cntAdd_ne _ _ _ _ _ (by simp only [Reg.CMP_CNT_DESC]; omega), rd_cntAdd_ne _ _ _ _ _ (by simp only [Reg.CMP_CNT_OUT]; omega),
        rd_cntAdd_ne _ _ _ _ _ (by simp only [Reg.CMP_CNT_IN]; omega)]
      rfl
    · rfl
  · rfl

@[simp] theorem expandUnit_nv (key : Nat) (s : State) : (expandUnit key s).nv = s.nv :=
  (expandUnit_keeps key (Keeps.refl s) (Sub.refl 5)).only.nv rfl

/-! ### What a read gives to a command of the host (R155) -/

theorem Answered.of_nv {x : Cmd} {sct sc dw0 dw1 : Nat} {dnr : Bool} {data : List Byte} {s u t : State}
    (h : Answered x sct sc dnr dw0 dw1 data u t) (hnv : u.nv = s.nv) : Answered x sct sc dnr dw0 dw1 data s t :=
  h.of_same (by rw [hnv]) (by rw [hnv]) (sqAt_congr (by rw [hnv])) (cqAt_congr (by rw [hnv]))

theorem iusOf_congr {s t : State} (h : t.nv = s.nv) (x : Cmd) : iusOf x t = iusOf x s := by
  unfold iusOf nsK nsAt
  rw [h]

/-- Nothing is merged for a command that is gone. -/
theorem mergeRead_gone {tag : Nat} {s : State} (h : cmdAt tag s = none) (iu : Nat) (ok : Bool) : mergeRead tag iu ok s = s := by
  unfold mergeRead
  rw [h]

/-- The read of the last unit that a host read needs ends the read. -/
theorem readUnitDone_last {tag iu : Nat} {x : Cmd} {s : State} (h : InPhase tag .started [.read] x s) (hn : x.need = [iu])
    (hl : ∀ j ∈ iusOf x s, j ∈ x.looked) : readUnitDone tag iu true s = finishRead tag (setCmd { x with need := [] } s) := by
  obtain ⟨hcmd, -, hres, hkind, -⟩ := h
  have hkind' : x.kind = .read := by simpa using hkind
  have hall : (iusOf x s).all (fun iu => x.looked.contains iu) = true := by
    rw [List.all_eq_true]
    intro j hj
    simpa using hl j hj
  unfold readUnitDone
  rw [hcmd]
  dsimp only
  rw [if_neg (by simp [hres, hkind', hn]), if_neg (by simp), hn]
  have hrest : [iu].filter (· != iu) = [] := by simp
  rw [hrest, hall]
  rfl

/-- A host read whose blocks pass their checks returns them. -/
theorem finishRead_returns {tag : Nat} {ph : Phase} {kinds : List CmdKind} {x : Cmd} {n : Ns} {s : State} (h : InPhase tag ph kinds x s)
    (hn : nsAt x.nsid s = some n) (hc : x.compareOnly = false) (hv : x.verifyOnly = false)
    (hok : checkBlocks n.dps n.flbas x.pr x.lba (blocksOf (lbasPerIu n.flbas) n.flbas (fun j => SMap.getD x.got j []) x.lba x.nlb) = none) :
    finishRead tag s = completeData tag (hostBytesOf n.flbas n.ext (x.pr.pract && n.dps != 0)
      (blocksOf (lbasPerIu n.flbas) n.flbas (fun j => SMap.getD x.got j []) x.lba x.nlb)) s := by
  unfold finishRead
  rw [h.cmdAt]
  dsimp only
  rw [hn]
  dsimp only
  rw [hok]
  dsimp only
  rw [hc, hv, if_neg (by decide), if_neg (by decide)]

/-- A host read that waits for one unit is answered with its blocks, once that unit is read. -/
theorem hostRead_returned {tag iu : Nat} {x : Cmd} {n : Ns} {s : State} (h : InPhase tag .started [.read] x s) (hneed : x.need = [iu])
    (hl : ∀ j ∈ iusOf x s, j ∈ x.looked) (hn : nsAt x.nsid s = some n) (hc : x.compareOnly = false) (hv : x.verifyOnly = false)
    (hok : checkBlocks n.dps n.flbas x.pr x.lba (blocksOf (lbasPerIu n.flbas) n.flbas (fun j => SMap.getD x.got j []) x.lba x.nlb) = none) :
    Returned x (hostBytesOf n.flbas n.ext (x.pr.pract && n.dps != 0)
        (blocksOf (lbasPerIu n.flbas) n.flbas (fun j => SMap.getD x.got j []) x.lba x.nlb)) s
      (mergeRead tag iu true (readUnitDone tag iu true s)) ∧
    ∀ a, a ∉ completionRegs → rd a (mergeRead tag iu true (readUnitDone tag iu true s)) = rd a s := by
  have hstarted : InPhase tag .started [.read] { x with need := [] } (setCmd { x with need := [] } s) :=
    h.setCmd (y := { x with need := [] }) ⟨rfl, h.2.1, h.2.2.1, rfl, rfl, rfl, rfl⟩
  obtain ⟨-, hxt⟩ := cmdAt_mem h.cmdAt
  have hdone := finishRead_returns (x := { x with need := [] }) hstarted hn hc hv hok
  have hans := completeBoth_inPhase hstarted 0 0 false 0 0 (hostBytesOf n.flbas n.ext (x.pr.pract && n.dps != 0)
    (blocksOf (lbasPerIu n.flbas) n.flbas (fun j => SMap.getD x.got j []) x.lba x.nlb))
  rw [readUnitDone_last h hneed hl, hdone]
  have hgone := hans.gone hxt
  obtain ⟨hcmds, hrest⟩ := hans
  unfold completeData complete
  rw [mergeRead_gone hgone]
  exact ⟨⟨hcmds.trans (filter_setCmd { x with need := [] } s), hrest⟩, fun a ha => rd_completeBoth ha _ _ _ _ _ _ _ _⟩

/-- A host read fails with a unit that it needs. -/
theorem hostRead_failed {tag iu : Nat} {x : Cmd} {s : State} (h : InPhase tag .started [.read] x s) (hneed : iu ∈ x.need) :
    Failed x 2 0x81 true s (mergeRead tag iu false (readUnitDone tag iu false s)) ∧
      ∀ a, a ∉ completionRegs → rd a (mergeRead tag iu false (readUnitDone tag iu false s)) = rd a s := by
  have hans := completeBoth_inPhase h 2 0x81 true 0 0 []
  obtain ⟨hcmd, -, hres, hkind, -⟩ := h
  have hkind' : x.kind = .read := by simpa using hkind
  obtain ⟨-, hxt⟩ := cmdAt_mem hcmd
  have hrow : readUnitDone tag iu false s = completeBoth tag 2 0x81 true 0 0 [] s := by
    unfold readUnitDone
    rw [hcmd]
    dsimp only
    rw [if_neg (by simp [hres, hkind', hneed]), if_pos (by decide)]
    rfl
  rw [hrow, mergeRead_gone (hans.gone hxt)]
  exact ⟨hans, fun a ha => rd_completeBoth ha _ _ _ _ _ _ _ _⟩

/-! ### What a read gives to whoever asked for it -/

/-- Reads of patrol, folds and copies that succeed leave the state. -/
theorem readFor_moves {o : ChanOp} (h : o.use = .patrol ∨ o.use = .fold ∨ o.use = .copy) (s : State) : readFor o true s = s := by
  unfold readFor readEnd expands
  rcases h with h | h | h <;> rw [h] <;> rfl

theorem readEnd_host {o : ChanOp} (hu : o.use = .unit) (hc : o.cls = 1) (ok : Bool) (s : State) :
    readEnd o ok s = mergeRead o.tag (o.key % 2 ^ 40) ok (readUnitDone o.tag (o.key % 2 ^ 40) ok s) := by
  unfold readEnd
  rw [hu]
  dsimp only
  rw [if_pos hc]

theorem readFor_host {o : ChanOp} (hu : o.use = .unit) (hc : o.cls = 1) (s : State) :
    readFor o true s = mergeRead o.tag (o.key % 2 ^ 40) true (readUnitDone o.tag (o.key % 2 ^ 40) true (expandUnit o.key s)) := by
  have he : expands o = true := by unfold expands; rw [hu]; rfl
  unfold readFor
  rw [he, readEnd_host hu hc]
  rfl

theorem readFor_host_lost {o : ChanOp} (hu : o.use = .unit) (hc : o.cls = 1) (s : State) :
    readFor o false s = mergeRead o.tag (o.key % 2 ^ 40) false (readUnitDone o.tag (o.key % 2 ^ 40) false s) := by
  unfold readFor
  rw [Bool.false_and, readEnd_host hu hc]
  rfl

/-! ### Rows of PAGE_READ_DONE -/

/-- The read of a die has ended and its block has noted it. -/
def readNoted (chan die sb : Nat) (worn : Bool) (s : State) : State := noteRead sb chan worn (readTaken chan die s)

section
variable {chan die : Nat} {o : ChanOp} {s : State} (hd : SMap.find (chanAt chan s).dies die = some o) (hk : o.kind = .read) (hc : o.cls ≠ 6)
include hd hk hc

theorem pageReadDone_hard :
    exec (.pageReadDone chan die .hard) s = .next (readFor o true (readNoted chan die o.sb false s)) := by
  change execPageReadDone chan die .hard s = _
  unfold execPageReadDone
  dsimp only
  rw [hd]
  dsimp only
  rw [if_neg (by simp [hk, hc])]
  rfl

theorem pageReadDone_retry {set : Nat} (hs : set < 8) (hr : set ≠ (blkOn o.sb chan s).remembered) :
    exec (.pageReadDone chan die (.retry set)) s = .next (readFor o true (updBlkOf o.sb chan (fun b => { b with remembered := set })
      (countStep chan 1 (readNoted chan die o.sb false s)))) := by
  change execPageReadDone chan die (.retry set) s = _
  unfold execPageReadDone
  dsimp only
  rw [hd]
  dsimp only
  rw [if_neg (by simp [hk, hc]), if_pos ⟨hs, hr⟩]
  rfl

theorem pageReadDone_soft :
    exec (.pageReadDone chan die .soft) s = .next (readFor o true (countStep chan 2 (readNoted chan die o.sb true s))) := by
  change execPageReadDone chan die .soft s = _
  unfold execPageReadDone
  dsimp only
  rw [hd]
  dsimp only
  rw [if_neg (by simp [hk, hc])]
  rfl

theorem pageReadDone_fail :
    exec (.pageReadDone chan die .fail) s = .next (if o.use = .contrib then contribFails o (readNoted chan die o.sb true s)
      else startRebuild chan o true false (readNoted chan die o.sb true s)) := by
  change execPageReadDone chan die .fail s = _
  unfold execPageReadDone
  dsimp only
  rw [hd]
  dsimp only
  rw [if_neg (by simp [hk, hc])]
  rfl

theorem pageReadDone_lightAgrees (he : expands o = true) (hl : lightPath o.key s = some true) :
    exec (.pageReadDone chan die (.check true none)) s =
      .next (readEnd o true (lightFail chan (readNoted chan die o.sb false s))) := by
  change execPageReadDone chan die (.check true none) s = _
  unfold execPageReadDone
  dsimp only
  rw [hd]
  dsimp only
  rw [if_neg (by simp [hk, hc]), if_pos ⟨he, hl⟩]
  rfl

theorem pageReadDone_engineWrong (he : expands o = true) {light : Bool} (hl : lightPath o.key s = some light) {e : Nat} (h4 : e < 4) :
    exec (.pageReadDone chan die (.check light (some e))) s =
      .next (startRebuild chan o false true (engineFail e (if light then lightFail chan (readNoted chan die o.sb false s)
        else readNoted chan die o.sb false s))) := by
  change execPageReadDone chan die (.check light (some e)) s = _
  unfold execPageReadDone
  dsimp only
  rw [hd]
  dsimp only
  rw [if_neg (by simp [hk, hc]), if_pos ⟨he, hl⟩, if_neg (by omega)]
  rfl

end

/-! ### Rows of REBUILD_COMPLETE -/

/-- The reads that contribute to the rebuild of a page on channel `chan`. -/
def contribsTo (chan key sb : Nat) (q : ChanOp) : Bool := q.use == .contrib && q.handle == chan && q.key == key && q.sb == sb

/-- A rebuild is over: it leaves its channel, and what still contributes to it ends. -/
def rebuildTaken (chan key : Nat) (r : Rebuild) (s : State) : State :=
  endOps (contribsTo chan key r.op.sb) (setChan chan { chanAt chan s with rebuilds := (chanAt chan s).rebuilds.erase r } s)

section
variable {chan key : Nat} {r : Rebuild} {s : State} (hr : (chanAt chan s).rebuilds.find? (fun r => r.op.key == key) = some r)
include hr

theorem rebuildComplete_ok (hf : r.failed = false) :
    exec (.rebuildComplete chan key true) s = .next (readFor r.op true (if r.counts then raiseEvent 0x06 chan (Fl.CHE_EVENT_REBUILD chan)
      (countStep chan 3 (rebuildTaken chan key r s)) else rebuildTaken chan key r s)) := by
  change execRebuildComplete chan key true s = _
  unfold execRebuildComplete
  dsimp only
  rw [hr]
  dsimp only
  rw [hf]
  rfl

theorem rebuildComplete_lost {ok : Bool} (h : ok = false ∨ r.failed = true) (hc : r.check = false) :
    exec (.rebuildComplete chan key ok) s = .next (readFor r.op false (readLost chan (rebuildTaken chan key r s))) := by
  change execRebuildComplete chan key ok s = _
  unfold execRebuildComplete
  dsimp only
  rw [hr]
  dsimp only
  rw [if_neg (by rcases h with h | h <;> simp [h]), if_neg (by simp [hc])]
  rfl

theorem rebuildComplete_checkFails (hf : r.failed = false) (hc : r.check = true) :
    exec (.rebuildComplete chan key false) s =
      .next (readFor r.op false (engineFail (freeNat 2 (rebuildTaken chan key r s)) (useFree (rebuildTaken chan key r s)))) := by
  change execRebuildComplete chan key false s = _
  unfold execRebuildComplete
  dsimp only
  rw [hr]
  dsimp only
  rw [Bool.false_and, if_neg (by decide), if_pos (by simp [hf, hc])]
  rfl

end

/-! ### What the end of a rebuild leaves -/

section
variable {chan key : Nat} {r : Rebuild} {s : State}

theorem rebuildTaken_sorted (hs : SMap.sorted s.media.chans = true) (c : Chan) : SMap.sorted (setChan chan c s).media.chans = true := by
  rw [setChan_chans]
  exact SMap.sorted_put _ _ hs

@[simp] theorem rebuildTaken_nv : (rebuildTaken chan key r s).nv = s.nv := by
  unfold rebuildTaken
  rw [(endOps_keeps _ (Keeps.refl _) (Sub.refl 513)).only.nv rfl, setChan_nv]

theorem rd_rebuildTaken {a : Nat} (h : ShowsNoChan a) (hc : CountsNoChan a) : rd a (rebuildTaken chan key r s) = rd a s := by
  unfold rebuildTaken
  rw [rd_endOps h hc, rd_setChan _ (h chan)]

theorem chanAt_rebuildTaken_self (hs : SMap.sorted s.media.chans = true) :
    (chanAt chan (rebuildTaken chan key r s)).retired = (chanAt chan s).retired ∧
      (chanAt chan (rebuildTaken chan key r s)).rebuilds = (chanAt chan s).rebuilds.erase r := by
  unfold rebuildTaken
  rw [chanAt_endOps _ (rebuildTaken_sorted hs _), chanAt_setChan_self]
  exact ⟨rfl, rfl⟩

theorem chanAt_rebuildTaken_ne (hs : SMap.sorted s.media.chans = true) {n : Nat} (hn : n ≠ chan) :
    chanAt n (rebuildTaken chan key r s) = withoutOps (contribsTo chan key r.op.sb) (chanAt n s) := by
  unfold rebuildTaken
  rw [chanAt_endOps _ (rebuildTaken_sorted hs _), chanAt_setChan_ne _ hn]

theorem readCount_rebuildTaken (hs : SMap.sorted s.media.chans = true) {n : Nat} (hn : n ≠ chan) :
    (rd (Reg.CHE_CNT_READ n) (rebuildTaken chan key r s)).toNat =
      Nat.min ((rd (Reg.CHE_CNT_READ n) s).toNat + opsEnded (contribsTo chan key r.op.sb) .read (chanAt n s)) (2 ^ 64 - 1) := by
  unfold rebuildTaken
  rw [readCount_endOps _ (rebuildTaken_sorted hs _), rd_setChan _ (showsNoChan_read n chan), chanAt_setChan_ne _ hn]

end

theorem countsNoChan_of {a : Nat} (h : a < 0x46000000 ∨ a % 0x10000 ∉ [0x30, 0x38]) : CountsNoChan a := by
  intro n
  simp only [Reg.CHE_CNT_READ, Reg.CHE_CNT_PROG, List.mem_cons, List.not_mem_nil, or_false, not_or] at h ⊢
  omega

theorem countsNoChan_rebuild (n : Nat) : CountsNoChan (Reg.CHE_CNT_REBUILD n) :=
  countsNoChan_of (.inr (by simp only [Reg.CHE_CNT_REBUILD, List.mem_cons, List.not_mem_nil, or_false, not_or]; omega))

theorem countsNoChan_event (n : Nat) : CountsNoChan (Reg.CHE_EVENT n) :=
  countsNoChan_of (.inr (by simp only [Reg.CHE_EVENT, List.mem_cons, List.not_mem_nil, or_false, not_or]; omega))

/-- Registers of channels and of the compression unit are none of the recorder's and none that completions write. -/
theorem not_mem_completionRegs {a : Nat} (h : 0x45000000 ≤ a) (hm : a ≠ Reg.MGT_CNT_IBI ∧ a ≠ Reg.MGT_CNT_IBI_DEFER) : a ∉ completionRegs := by
  simp only [Reg.MGT_CNT_IBI, Reg.MGT_CNT_IBI_DEFER] at hm
  simp only [completionRegs, pbkRegs, Reg.HIF_OVL_STATUS, Reg.HIF_TAG_STATUS, Reg.HIF_TAG_SHARED, Reg.HIF_EVENT, Reg.MGT_CNT_IBI,
    Reg.MGT_CNT_IBI_DEFER, Reg.PBK_STATUS, Reg.PBK_DROP2, Reg.PBK_DROP3, Reg.PBK_EVENT, List.cons_append, List.nil_append, List.mem_cons,
    List.not_mem_nil, or_false, not_or]
  omega

theorem not_mem_pbkRegs {a : Nat} (h : 0x45000000 ≤ a) : a ∉ pbkRegs := by
  simp only [pbkRegs, Reg.PBK_STATUS, Reg.PBK_DROP2, Reg.PBK_DROP3, Reg.PBK_EVENT, List.mem_cons, List.not_mem_nil, or_false, not_or]
  omega

end Sys2Proof.Machine
end

section
/-! Page reads: the read noted, rebuilds of patrol, folds and copies, failed checks and lost units (R155, R156, R173, R242). -/

namespace Sys2Proof.Machine

/-! ### The page read is counted and noted in its block -/

section
variable (chan die sb : Nat) (worn : Bool) (s : State)

@[simp] theorem readNoted_nv : (readNoted chan die sb worn s).nv = s.nv := by
  unfold readNoted
  rw [noteRead_nv, readTaken_nv]

theorem readNoted_counts :
    (rd (Reg.CHE_CNT_READ chan) (readNoted chan die sb worn s)).toNat = Nat.min ((rd (Reg.CHE_CNT_READ chan) s).toNat + 1) (2 ^ 64 - 1) := by
  unfold readNoted
  rw [rd_noteRead, readTaken_counts]

theorem rd_readNoted {a : Nat} (h : ShowsNoChan a) (hr : a ≠ Reg.CHE_CNT_READ chan) : rd a (readNoted chan die sb worn s) = rd a s := by
  unfold readNoted
  rw [rd_noteRead, rd_readTaken h hr]

theorem chanAt_readNoted_self :
    chanAt chan (readNoted chan die sb worn s) = { chanAt chan s with dies := SMap.del (chanAt chan s).dies die } := by
  unfold readNoted
  rw [chanAt_congr (noteRead_media _ _ _ _), chanAt_readTaken_self]

theorem chanAt_readNoted_ne {m : Nat} (h : m ≠ chan) : chanAt m (readNoted chan die sb worn s) = chanAt m s := by
  unfold readNoted
  rw [chanAt_congr (noteRead_media _ _ _ _), chanAt_readTaken_ne h]

theorem readNoted_free : SMap.find (chanAt chan (readNoted chan die sb worn s)).dies die = none := by
  rw [chanAt_readNoted_self]
  exact SMap.find_del_self _ _

theorem readNoted_retired : (chanAt chan (readNoted chan die sb worn s)).retired = (chanAt chan s).retired := by rw [chanAt_readNoted_self]

theorem sbAt_readNoted (i : Nat) : sbAt i (readNoted chan die sb worn s) = sbAt i s := by
  unfold readNoted
  rw [sbAt_noteRead, sbAt_congr (readTaken_ftl _ _ _)]

theorem readNoted_blk (h : (SMap.find (sbAt sb s).blocks chan).isSome = true) :
    (blkOn sb chan (readNoted chan die sb worn s)).reads = (blkOn sb chan s).reads + 1 ∧
      (blkOn sb chan (readNoted chan die sb worn s)).remembered = (blkOn sb chan s).remembered ∧
      (worn = true → (blkOn sb chan (readNoted chan die sb worn s)).refresh = true) := by
  unfold readNoted
  rw [← blkOn_congr (readTaken_ftl chan die s)]
  exact noteRead_blk (by rw [sbAt_congr (readTaken_ftl _ _ _)]; exact h)

end

/-- Counters of one channel are registers apart. -/
theorem stepRegs_ne (n : Nat) :
    Reg.CHE_CNT_RRETRY n ≠ Reg.CHE_CNT_READ n ∧ Reg.CHE_CNT_SOFT n ≠ Reg.CHE_CNT_READ n ∧ Reg.CHE_CNT_REBUILD n ≠ Reg.CHE_CNT_READ n ∧
      Reg.CHE_CNT_SOFT n ≠ Reg.CHE_CNT_RRETRY n ∧ Reg.CHE_CNT_REBUILD n ≠ Reg.CHE_CNT_RRETRY n ∧ Reg.CHE_CNT_REBUILD n ≠ Reg.CHE_CNT_SOFT n := by
  simp only [Reg.CHE_CNT_RRETRY, Reg.CHE_CNT_READ, Reg.CHE_CNT_SOFT, Reg.CHE_CNT_REBUILD]
  omega

/-! ### Reads of patrol, folds and copies -/

section
variable {chan die : Nat} {o : ChanOp} {s : State} (hd : SMap.find (chanAt chan s).dies die = some o) (hk : o.kind = .read) (hc : o.cls ≠ 6)
  (hm : o.use = .patrol ∨ o.use = .fold ∨ o.use = .copy)
include hd hk hc hm

theorem pageReadDone_hard_moves : exec (.pageReadDone chan die .hard) s = .next (readNoted chan die o.sb false s) :=
  (pageReadDone_hard hd hk hc).trans (congrArg _ (readFor_moves hm _))

theorem pageReadDone_retry_moves {set : Nat} (hs : set < 8) (hr : set ≠ (blkOn o.sb chan s).remembered) :
    exec (.pageReadDone chan die (.retry set)) s =
      .next (updBlkOf o.sb chan (fun b => { b with remembered := set }) (countStep chan 1 (readNoted chan die o.sb false s))) :=
  (pageReadDone_retry hd hk hc hs hr).trans (congrArg _ (readFor_moves hm _))

theorem pageReadDone_soft_moves : exec (.pageReadDone chan die .soft) s = .next (countStep chan 2 (readNoted chan die o.sb true s)) :=
  (pageReadDone_soft hd hk hc).trans (congrArg _ (readFor_moves hm _))

theorem pageReadDone_fail_moves :
    exec (.pageReadDone chan die .fail) s = .next (startRebuild chan o true false (readNoted chan die o.sb true s)) := by
  rw [pageReadDone_fail hd hk hc, if_neg (by rcases hm with h | h | h <;> rw [h] <;> decide)]

end

/-- A rebuild gets a read of every other channel of the stripe, told from an earlier state with the same stripe and channels in use. -/
theorem startRebuild_contributesFrom {n : Nat} {o : ChanOp} {counts check : Bool} {s u : State} (hsb : sbAt o.sb u = sbAt o.sb s)
    (hch : ∀ m, m ≠ n → chanAt m u = chanAt m s) {e : Nat × Nat} (he : e ∈ (sbAt o.sb s).blocks) (hn : e.1 ≠ n)
    (hr : (chanAt e.1 s).retired = false) :
    ∃ q ∈ (chanAt e.1 (startRebuild n o counts check u)).queue, q.kind = .read ∧ q.use = .contrib ∧ q.cls = o.cls ∧ q.sb = o.sb ∧
      q.key = o.key ∧ q.handle = n :=
  ⟨_, startRebuild_contributes (hsb ▸ he) hn (by rw [hch _ hn, hr]), rfl, rfl, rfl, rfl, rfl, rfl⟩

/-! ### Failed checks of compressed units (R242) -/

theorem rd_engineFail {a e : Nat} (h : a ∉ pbkRegs) (hc : a ≠ Reg.CMP_CNT_CHECK_FAIL e) (he : a ≠ Reg.CMP_EVENT e) (s : State) :
    rd a (engineFail e s) = rd a s := by
  unfold engineFail
  rw [rd_raiseEvent_ne _ _ _ _ _ h he, rd_cntAdd_ne _ _ _ _ _ hc]

theorem engineFail_raised (e : Nat) (s : State) : fget (Fl.CMP_EVENT_CHECK_FAIL e) (engineFail e s) = 1 :=
  fget_raiseEvent_self _ _ _ _ (not_mem_pbkRegs (by simp only [Fl.CMP_EVENT_CHECK_FAIL, Reg.CMP_EVENT]; omega)) rfl (by simp [Fl.CMP_EVENT_CHECK_FAIL])

theorem rd_lightFail {a chan : Nat} (h : a ∉ pbkRegs) (hc : a ≠ Reg.CMP_LD_CNT_FAIL 0 chan) (he : a ≠ Reg.CMP_EVENT 0) (s : State) :
    rd a (lightFail chan s) = rd a s := by
  unfold lightFail
  rw [rd_raiseEvent_ne _ _ _ _ _ h he, rd_raiseEvent_ne _ _ _ _ _ h he, rd_cntAdd_ne _ _ _ _ _ hc]

@[simp] theorem engineFail_nv (e : Nat) (s : State) : (engineFail e s).nv = s.nv := by
  unfold engineFail
  rw [raiseEvent_nv, cntAdd_nv]

@[simp] theorem lightFail_nv (chan : Nat) (s : State) : (lightFail chan s).nv = s.nv := by
  unfold lightFail
  rw [raiseEvent_nv, raiseEvent_nv, cntAdd_nv]

theorem engineFail_media (e : Nat) (s : State) : (engineFail e s).media = s.media ∧ (engineFail e s).ftl = s.ftl := by
  unfold engineFail
  rw [raiseEvent_media, raiseEvent_ftl]
  exact ⟨rfl, rfl⟩

theorem lightFail_media (chan : Nat) (s : State) : (lightFail chan s).media = s.media ∧ (lightFail chan s).ftl = s.ftl := by
  unfold lightFail
  rw [raiseEvent_media, raiseEvent_ftl, raiseEvent_media, raiseEvent_ftl]
  exact ⟨rfl, rfl⟩

/-- A failed check in the light decompressor counts on its channel and raises both its events. -/
theorem lightFail_raised (chan : Nat) (s : State) :
    fget (Fl.CMP_EVENT_CHECK_FAIL 0) (lightFail chan s) = 1 ∧ fget (Fl.CMP_EVENT_LD_FAIL 0) (lightFail chan s) = 1 ∧
      (rd (Reg.CMP_LD_CNT_FAIL 0 chan) (lightFail chan s)).toNat =
        Nat.min ((rd (Reg.CMP_LD_CNT_FAIL 0 chan) s).toNat + 1) (2 ^ 32 - 1) := by
  have hev : Reg.CMP_EVENT 0 ∉ pbkRegs := by decide
  have hne : Reg.CMP_LD_CNT_FAIL 0 chan ≠ Reg.CMP_EVENT 0 := by simp only [Reg.CMP_LD_CNT_FAIL, Reg.CMP_EVENT]; omega
  have hpbk : Reg.CMP_LD_CNT_FAIL 0 chan ∉ pbkRegs := not_mem_pbkRegs (by simp only [Reg.CMP_LD_CNT_FAIL]; omega)
  unfold lightFail
  refine ⟨fget_raiseEvent_self _ _ _ _ hev rfl (by decide), ?_, ?_⟩
  · unfold raiseEvent
    dsimp only
    rw [fget_postmark _ _ _ _ _ hev, fget_fset_ne _ _ _ _ (.inr (.inl (by decide)))]
    exact fget_raiseEvent_self _ _ _ _ hev rfl (by decide)
  · rw [rd_raiseEvent_ne _ _ _ _ _ hpbk hne, rd_raiseEvent_ne _ _ _ _ _ hpbk hne, cntAdd_toNat _ _ _ (by decide)]

/-! ### Units that are lost (R173) -/

theorem readLost_raised {chan : Nat} {s : State} (h : (chanAt chan s).retired = false) :
    fget (Fl.CHE_EVENT_UNCORR chan) (readLost chan s) = 1 := by
  unfold readLost
  dsimp only
  rw [if_neg (by simp [h])]
  exact fget_raiseEvent_self _ _ _ _ (not_mem_pbkRegs (by simp only [Fl.CHE_EVENT_UNCORR, Reg.CHE_EVENT]; omega)) rfl
    (by simp [Fl.CHE_EVENT_UNCORR])

@[simp] theorem readLost_nv (chan : Nat) (s : State) : (readLost chan s).nv = s.nv :=
  (readLost_keeps chan (Keeps.refl s) (Sub.refl 545)).only.nv rfl

theorem rd_readLost {a chan : Nat} (h : a ∉ pbkRegs) (hs : ShowsNoChan a) (he : a ≠ Reg.CHE_EVENT chan) (s : State) :
    rd a (readLost chan s) = rd a s := by
  unfold readLost
  dsimp only
  split
  · rfl
  · rw [rd_raiseEvent_ne _ _ _ _ _ h he, rd_setChan _ (hs chan)]

theorem contribFails_rebuilds (o : ChanOp) (s : State) :
    (chanAt o.handle (contribFails o s)).rebuilds = (chanAt o.handle s).rebuilds.map (fun r =>
      if r.op.key = o.key ∧ r.op.sb = o.sb then { r with failed := true } else r) := by
  unfold contribFails
  dsimp only
  rw [chanAt_setChan_self]

theorem fget_of_rd {f : Fld} {s t : State} (h : rd f.addr t = rd f.addr s) : fget f t = fget f s := by
  unfold fget
  rw [h]

/-- The mode is in a register that none of these steps writes. -/
theorem mode_congr {s t : State} (h : rd Reg.AON_MODE t = rd Reg.AON_MODE s) : mode t = mode s := fget_of_rd h

theorem aonMode_apart : Reg.AON_MODE ∉ pbkRegs ∧ ShowsNoChan Reg.AON_MODE ∧ CountsNoChan Reg.AON_MODE :=
  ⟨by decide, showsNoChan_of (.inl (by decide)), countsNoChan_of (.inl (by decide))⟩

theorem mode_readNoted (chan die sb : Nat) (worn : Bool) (s : State) : mode (readNoted chan die sb worn s) = mode s :=
  mode_congr (rd_readNoted chan die sb worn s aonMode_apart.2.1 (by simp only [Reg.AON_MODE, Reg.CHE_CNT_READ]; omega))

theorem mode_rebuildTaken (chan key : Nat) (r : Rebuild) (s : State) : mode (rebuildTaken chan key r s) = mode s :=
  mode_congr (rd_rebuildTaken aonMode_apart.2.1 aonMode_apart.2.2)

end Sys2Proof.Machine
end

section
/-! Statement O18: page reads and rebuilds, row by row. -/

namespace Sys2Proof.Machine

/-! ### A host read, from the state in which the page read began -/

theorem hostRead_gives {tag iu : Nat} {x : Cmd} {n : Ns} {s u : State} (h : InPhase tag .started [.read] x s)
    (hu : u.nv = s.nv) (hmu : mode u = mode s) (hneed : x.need = [iu]) (hl : ∀ j ∈ iusOf x s, j ∈ x.looked) (hn : nsAt x.nsid s = some n)
    (hc : x.compareOnly = false) (hv : x.verifyOnly = false)
    (hok : checkBlocks n.dps n.flbas x.pr x.lba (blocksOf (lbasPerIu n.flbas) n.flbas (fun j => SMap.getD x.got j []) x.lba x.nlb) = none) :
    Returned x (hostBytesOf n.flbas n.ext (x.pr.pract && n.dps != 0)
        (blocksOf (lbasPerIu n.flbas) n.flbas (fun j => SMap.getD x.got j []) x.lba x.nlb)) s
      (mergeRead tag iu true (readUnitDone tag iu true u)) ∧
    ∀ a, a ∉ completionRegs → rd a (mergeRead tag iu true (readUnitDone tag iu true u)) = rd a u := by
  have hl' : ∀ j ∈ iusOf x u, j ∈ x.looked := by rw [iusOf_congr hu]; exact hl
  have hn' : nsAt x.nsid u = some n := by unfold nsAt at hn ⊢; rw [hu]; exact hn
  obtain ⟨hret, hregs⟩ := hostRead_returned (h.congr hu hmu) hneed hl' hn' hc hv hok
  exact ⟨hret.of_nv hu, hregs⟩

theorem hostRead_fails {tag iu : Nat} {x : Cmd} {s u : State} (h : InPhase tag .started [.read] x s) (hu : u.nv = s.nv) (hmu : mode u = mode s)
    (hneed : iu ∈ x.need) :
    Failed x 2 0x81 true s (mergeRead tag iu false (readUnitDone tag iu false u)) ∧
      ∀ a, a ∉ completionRegs → rd a (mergeRead tag iu false (readUnitDone tag iu false u)) = rd a u := by
  obtain ⟨hfail, hregs⟩ := hostRead_failed (h.congr hu hmu) hneed
  exact ⟨hfail.of_nv hu, hregs⟩

/-! ### A read step that is counted, after the read -/

theorem showsNoChan_stepReg (n step : Nat) : ShowsNoChan (stepReg n step) := by
  unfold stepReg
  split
  · exact showsNoChan_retry n
  · split
    · exact showsNoChan_soft n
    · exact showsNoChan_rebuild n

theorem stepReg_ne_read (n step : Nat) : stepReg n step ≠ Reg.CHE_CNT_READ n := by
  obtain ⟨hretry, hsoft, hreb, -⟩ := stepRegs_ne n
  unfold stepReg
  split
  · exact hretry
  · split
    · exact hsoft
    · exact hreb

section
variable {chan : Nat} {s : State} (hret : (chanAt chan s).retired = false) (die sb : Nat) (worn : Bool) (step : Nat)
include hret

/-- The state after the read of a page whose read step is counted. -/
theorem stepCounted :
    (rd (Reg.CHE_CNT_READ chan) (countStep chan step (readNoted chan die sb worn s))).toNat =
        Nat.min ((rd (Reg.CHE_CNT_READ chan) s).toNat + 1) (2 ^ 64 - 1) ∧
      (rd (stepReg chan step) (countStep chan step (readNoted chan die sb worn s))).toNat =
        Nat.min ((rd (stepReg chan step) s).toNat + 1) (2 ^ 32 - 1) ∧
      SMap.find (chanAt chan (countStep chan step (readNoted chan die sb worn s))).dies die = none ∧
      (countStep chan step (readNoted chan die sb worn s)).ftl = (readNoted chan die sb worn s).ftl := by
  have hret' := (readNoted_retired chan die sb worn s).trans hret
  refine ⟨?_, ?_, ?_, countStep_ftl hret'⟩
  · rw [rd_countStep hret' (showsNoChan_read chan) (stepReg_ne_read chan step).symm, readNoted_counts]
  · rw [countStep_counts hret' (showsNoChan_stepReg chan step),
      rd_readNoted _ _ _ _ _ (showsNoChan_stepReg chan step) (stepReg_ne_read chan step)]
  · rw [(countStep_chan hret').1, readNoted_free]

theorem rd_stepCounted {a : Nat} (ha : ShowsNoChan a) (hr : a ≠ Reg.CHE_CNT_READ chan) (hs : a ≠ stepReg chan step) :
    rd a (countStep chan step (readNoted chan die sb worn s)) = rd a s := by
  rw [rd_countStep ((readNoted_retired chan die sb worn s).trans hret) ha hs, rd_readNoted _ _ _ _ _ ha hr]

end

/-! ### Units that fail their checks -/

/-- The state after a failed check that a central engine found, and the light decompressor before it where the unit took that path. -/
def checkFailed (chan e : Nat) (light : Bool) (s : State) : State := engineFail e (if light then lightFail chan s else s)

@[simp] theorem checkFailed_nv (chan e : Nat) (light : Bool) (s : State) : (checkFailed chan e light s).nv = s.nv := by
  unfold checkFailed
  rw [engineFail_nv]
  cases light with
  | true => exact lightFail_nv _ _
  | false => rfl

theorem checkFailed_parts (chan e : Nat) (light : Bool) (s : State) :
    (checkFailed chan e light s).media = s.media ∧ (checkFailed chan e light s).ftl = s.ftl := by
  obtain ⟨hm, hf⟩ := engineFail_media e (if light then lightFail chan s else s)
  unfold checkFailed
  rw [hm, hf]
  cases light with
  | true => exact lightFail_media _ _
  | false => exact ⟨rfl, rfl⟩

/-- Failed checks write registers of the compression unit and of the recorder alone. -/
theorem rd_checkFailed {a chan e : Nat} (h : 0x46000000 ≤ a) (he : e < 4) (hc : chan < 32) (light : Bool) (s : State) :
    rd a (checkFailed chan e light s) = rd a s := by
  have hpbk : a ∉ pbkRegs := not_mem_pbkRegs (by omega)
  unfold checkFailed
  rw [rd_engineFail hpbk (by simp only [Reg.CMP_CNT_CHECK_FAIL]; omega) (by simp only [Reg.CMP_EVENT]; omega)]
  cases light with
  | true => exact rd_lightFail hpbk (by simp only [Reg.CMP_LD_CNT_FAIL]; omega) (by simp only [Reg.CMP_EVENT]; omega) s
  | false => rfl

/-- The failure in the light decompressor stays raised while a central engine's is. -/
theorem checkFailed_light (chan e : Nat) (s : State) : fget (Fl.CMP_EVENT_LD_FAIL 0) (checkFailed chan e true s) = 1 := by
  have hpbk : Reg.CMP_EVENT 0 ∉ pbkRegs := by decide
  unfold checkFailed engineFail raiseEvent
  dsimp only
  rw [if_pos rfl, fget_postmark _ _ _ _ _ hpbk, fget_fset_ne _ _ _ _ (.inr (.inl (show 0 + 1 ≤ 5 by decide)))]
  have hcnt : rd (Reg.CMP_EVENT 0) (cntAdd (Reg.CMP_CNT_CHECK_FAIL e) 32 1 (lightFail chan s)) = rd (Reg.CMP_EVENT 0) (lightFail chan s) :=
    rd_cntAdd_ne _ _ _ _ _ (by simp only [Reg.CMP_EVENT, Reg.CMP_CNT_CHECK_FAIL]; omega)
  unfold fget
  rw [show (Fl.CMP_EVENT_LD_FAIL 0).addr = Reg.CMP_EVENT 0 from rfl, hcnt]
  exact (lightFail_raised chan s).2.1

/-- Settles O18: each row's state from what its parts leave: the read taken and noted, its step counted, the rebuild started or ended, the command
answered. -/
theorem pageReads : Obligations.PageReads := by
  unfold Obligations.PageReads
  intro s chan hchan hsorted hret up1 same moves contributes
  obtain ⟨hretry, hsoft, hreb, hsr, hbr, -⟩ := stepRegs_ne chan
  refine ⟨?moved, ?contrib, ?host, ?wrong, ?rebuilt, ?uncounted, ?lost, ?checkLost⟩
  case moved =>
    intro die o hd hk hcls hm hblk
    have hc : o.cls ≠ 6 := by omega
    obtain ⟨hreads, hremembered, -⟩ := readNoted_blk chan die o.sb false s hblk
    obtain ⟨-, -, hworn⟩ := readNoted_blk chan die o.sb true s hblk
    refine ⟨⟨_, pageReadDone_hard_moves hd hk hc hm, ?_⟩, fun set hset hne => ⟨_, pageReadDone_retry_moves hd hk hc hm hset hne, ?_⟩,
      ⟨_, pageReadDone_soft_moves hd hk hc hm, ?_⟩, ⟨_, pageReadDone_fail_moves hd hk hc hm, ?_⟩⟩
    · exact ⟨readNoted_counts _ _ _ _ _, rd_readNoted _ _ _ _ _ (showsNoChan_retry chan) hretry, rd_readNoted _ _ _ _ _ (showsNoChan_soft chan) hsoft,
        rd_readNoted _ _ _ _ _ (showsNoChan_rebuild chan) hreb, readNoted_free _ _ _ _ _, hreads, hremembered⟩
    · obtain ⟨hread, hstep, hfree, hftl⟩ := stepCounted hret die o.sb false 1
      refine ⟨?_, ?_, ?_, ?_, ?_, ?_⟩
      · exact (congrArg BitVec.toNat (rd_updBlkOf _ _ _ _ _)).trans hread
      · exact (congrArg BitVec.toNat (rd_updBlkOf _ _ _ _ _)).trans hstep
      · exact (rd_updBlkOf _ _ _ _ _).trans (rd_stepCounted hret _ _ _ _ (showsNoChan_soft chan) hsoft hsr)
      · exact (rd_updBlkOf _ _ _ _ _).trans (rd_stepCounted hret _ _ _ _ (showsNoChan_rebuild chan) hreb hbr)
      · rw [blkOn_updBlkOf _ (by rw [sbAt_congr hftl, sbAt_readNoted]; exact hblk)]
      · rw [chanAt_congr (updBlkOf_media _ _ _ _)]
        exact hfree
    · obtain ⟨hread, hstep, hfree, hftl⟩ := stepCounted hret die o.sb true 2
      exact ⟨hread, hstep, rd_stepCounted hret _ _ _ _ (showsNoChan_retry chan) hretry hsr.symm, by rw [blkOn_congr hftl]; exact hworn rfl, hfree⟩
    · refine ⟨?_, ?_, ?_, ?_, ?_⟩
      · exact (rd_startRebuild (showsNoChan_retry chan) _ _ _ _ _).trans (rd_readNoted _ _ _ _ _ (showsNoChan_retry chan) hretry)
      · exact (rd_startRebuild (showsNoChan_soft chan) _ _ _ _ _).trans (rd_readNoted _ _ _ _ _ (showsNoChan_soft chan) hsoft)
      · rw [blkOn_congr (startRebuild_ftl _ _ _ _ _)]
        exact hworn rfl
      · rw [startRebuild_rebuilds, chanAt_readNoted_self]
      · exact fun e he hn hr => startRebuild_contributesFrom (sbAt_readNoted _ _ _ _ _ _) (fun m hm => chanAt_readNoted_ne _ _ _ _ _ hm) he hn hr
  case contrib =>
    intro die o hd hk hu hc hh
    have hrow : exec (.pageReadDone chan die .fail) s = .next (contribFails o (readNoted chan die o.sb true s)) := by
      rw [pageReadDone_fail hd hk hc, if_pos hu]
    refine ⟨_, hrow, ?_⟩
    change (chanAt o.handle (contribFails o _)).rebuilds = _
    rw [contribFails_rebuilds, chanAt_readNoted_ne _ _ _ _ _ hh]
  case host =>
    intro die o x n iu hd hk hu hcls hiu hx hneed hl hn hc hv bs hok gives
    have hc6 : o.cls ≠ 6 := by omega
    have hexp : expands o = true := by unfold expands; rw [hu]; rfl
    refine ⟨?_, fun hlight => ?_⟩
    · have hrow := pageReadDone_hard hd hk hc6
      rw [readFor_host hu hcls, hiu] at hrow
      have hm : mode (expandUnit o.key (readNoted chan die o.sb false s)) = mode s :=
        (mode_congr (rd_expandUnit (by decide) _ _)).trans (mode_readNoted _ _ _ _ _)
      exact ⟨_, hrow, (hostRead_gives hx (by rw [expandUnit_nv, readNoted_nv]) hm hneed hl hn hc hv hok).1⟩
    · have hrow := pageReadDone_lightAgrees hd hk hc6 hexp hlight
      rw [readEnd_host hu hcls, hiu] at hrow
      have hm : mode (lightFail chan (readNoted chan die o.sb false s)) = mode s :=
        (mode_congr (rd_lightFail aonMode_apart.1 (by simp only [Reg.AON_MODE, Reg.CMP_LD_CNT_FAIL]; omega) (by decide) _)).trans
          (mode_readNoted _ _ _ _ _)
      obtain ⟨hgives, hregs⟩ := hostRead_gives hx (by rw [lightFail_nv, readNoted_nv]) hm hneed hl hn hc hv hok
      obtain ⟨hraised, -, hcount⟩ := lightFail_raised chan (readNoted chan die o.sb false s)
      refine ⟨_, hrow, hgives, ?_, ?_⟩
      · exact (fget_of_rd (hregs _ (by decide))).trans hraised
      · change (rd _ _).toNat = _
        rw [hregs _ (not_mem_completionRegs (by simp only [Reg.CMP_LD_CNT_FAIL]; omega)
          (by simp only [Reg.CMP_LD_CNT_FAIL, Reg.MGT_CNT_IBI, Reg.MGT_CNT_IBI_DEFER]; omega))]
        refine hcount.trans ?_
        rw [rd_readNoted _ _ _ _ _ (showsNoChan_of (.inl (by simp only [Reg.CMP_LD_CNT_FAIL]; omega)))
          (by simp only [Reg.CMP_LD_CNT_FAIL, Reg.CHE_CNT_READ]; omega)]
  case wrong =>
    intro die o light e hd hk hu hcls hlight he
    have hrow : exec (.pageReadDone chan die (.check light (some e))) s =
        .next (startRebuild chan o false true (checkFailed chan e light (readNoted chan die o.sb false s))) :=
      pageReadDone_engineWrong hd hk (by omega) (by unfold expands; rw [hu]; rfl) hlight he
    obtain ⟨hmedia, hftl⟩ := checkFailed_parts chan e light (readNoted chan die o.sb false s)
    have hev (i : Nat) (hi : i < 4) : ShowsNoChan (Reg.CMP_EVENT i) := showsNoChan_of (.inl (by simp only [Reg.CMP_EVENT]; omega))
    refine ⟨_, hrow, ?_, ?_, fun hl => ?_, ?_, ?_, fun b hb hn hr => ?_⟩
    · change (rd _ _).toNat = _
      rw [rd_startRebuild (showsNoChan_read chan), rd_checkFailed (by simp only [Reg.CHE_CNT_READ]; omega) he hchan, readNoted_counts]
    · exact (fget_of_rd (rd_startRebuild (hev e he) _ _ _ _ _)).trans (engineFail_raised e _)
    · rw [hl]
      exact (fget_of_rd (rd_startRebuild (hev 0 (by decide)) _ _ _ _ _)).trans (checkFailed_light chan e _)
    · rw [startRebuild_nv, checkFailed_nv, readNoted_nv]
    · rw [startRebuild_rebuilds, chanAt_congr hmedia, chanAt_readNoted_self]
    · exact startRebuild_contributesFrom ((sbAt_congr hftl _).trans (sbAt_readNoted _ _ _ _ _ _))
        (fun m hm => (chanAt_congr hmedia m).trans (chanAt_readNoted_ne _ _ _ _ _ hm)) hb hn hr
  case rebuilt =>
    intro key o hr hm is ended
    obtain ⟨hself, hrebuilds⟩ := chanAt_rebuildTaken_self (key := key) (r := ⟨o, true, false, false⟩) hsorted
    have hrow := rebuildComplete_ok hr rfl
    rw [readFor_moves hm] at hrow
    have hret' := hself.trans hret
    have hpbk (n : Nat) : Reg.CHE_CNT_READ n ∉ pbkRegs := not_mem_pbkRegs (by simp only [Reg.CHE_CNT_READ]; omega)
    refine ⟨_, hrow, ?_, ?_, ?_, fun n _ hne => ⟨?_, ?_⟩⟩
    · change (rd _ _).toNat = _
      rw [if_pos rfl, rd_raiseEvent_ne _ _ _ _ _ (not_mem_pbkRegs (by simp only [Reg.CHE_CNT_REBUILD]; omega))
        (by simp only [Reg.CHE_CNT_REBUILD, Fl.CHE_EVENT_REBUILD, Reg.CHE_EVENT]; omega)]
      refine (countStep_counts (step := 3) hret' (showsNoChan_stepReg chan 3)).trans ?_
      rw [rd_rebuildTaken (showsNoChan_stepReg chan 3) (countsNoChan_rebuild chan)]
      rfl
    · rw [if_pos rfl]
      exact fget_raiseEvent_self _ _ _ _ (not_mem_pbkRegs (by simp only [Fl.CHE_EVENT_REBUILD, Reg.CHE_EVENT]; omega)) rfl
        (by simp [Fl.CHE_EVENT_REBUILD])
    · rw [if_pos rfl, chanAt_congr (raiseEvent_media _ _ _ _), (countStep_chan hret').2.1, hrebuilds]
    · rw [if_pos rfl, rd_raiseEvent_ne _ _ _ _ _ (hpbk n) (by simp only [Reg.CHE_CNT_READ, Fl.CHE_EVENT_REBUILD, Reg.CHE_EVENT]; omega),
        rd_countStep hret' (showsNoChan_read n)
          (by simp only [stepReg, Reg.CHE_CNT_READ, Reg.CHE_CNT_REBUILD]; rw [if_neg (by decide), if_neg (by decide)]; omega)]
      exact readCount_rebuildTaken hsorted hne
    · rw [if_pos rfl, chanAt_congr (raiseEvent_media _ _ _ _), (countStep_chan hret').2.2 n hne, chanAt_rebuildTaken_ne hsorted hne]
      exact hasOp_withoutOps _ _
  case uncounted =>
    intro key o hr hm
    have hrow := rebuildComplete_ok hr rfl
    rw [readFor_moves hm] at hrow
    exact ⟨_, hrow, rd_rebuildTaken (showsNoChan_rebuild chan) (countsNoChan_rebuild chan),
      rd_rebuildTaken (showsNoChan_event chan) (countsNoChan_event chan)⟩
  case lost =>
    intro key ok o b x iu failed hr hok hu hcls hiu hx hneed
    have hrow := rebuildComplete_lost hr hok rfl
    rw [readFor_host_lost hu hcls, hiu] at hrow
    obtain ⟨hself, -⟩ := chanAt_rebuildTaken_self (key := key) (r := ⟨o, b, false, failed⟩) hsorted
    have hm : mode (readLost chan (rebuildTaken chan key ⟨o, b, false, failed⟩ s)) = mode s :=
      (mode_congr (rd_readLost aonMode_apart.1 aonMode_apart.2.1 (by simp only [Reg.AON_MODE, Reg.CHE_EVENT]; omega) _)).trans
        (mode_rebuildTaken _ _ _ _)
    obtain ⟨hfails, hregs⟩ := hostRead_fails hx (by rw [readLost_nv, rebuildTaken_nv]) hm hneed
    refine ⟨_, hrow, hfails, ?_⟩
    have hapart : Reg.CHE_EVENT chan ∉ completionRegs := not_mem_completionRegs (by simp only [Reg.CHE_EVENT]; omega)
      (by simp only [Reg.CHE_EVENT, Reg.MGT_CNT_IBI, Reg.MGT_CNT_IBI_DEFER]; omega)
    exact (fget_of_rd (hregs _ hapart)).trans (readLost_raised (hself.trans hret))
  case checkLost =>
    intro key o x iu hr hu hcls hiu hx hneed
    have hrow := rebuildComplete_checkFails hr rfl rfl
    rw [readFor_host_lost hu hcls, hiu] at hrow
    obtain ⟨e, he⟩ : ∃ e, e = freeNat 2 (rebuildTaken chan key ⟨o, false, true, false⟩ s) := ⟨_, rfl⟩
    have h4 : e < 4 := he ▸ Nat.mod_lt _ (by decide)
    rw [← he] at hrow
    have hm : mode (engineFail e (useFree (rebuildTaken chan key ⟨o, false, true, false⟩ s))) = mode s :=
      (mode_congr (rd_engineFail aonMode_apart.1 (by simp only [Reg.AON_MODE, Reg.CMP_CNT_CHECK_FAIL]; omega)
        (by simp only [Reg.AON_MODE, Reg.CMP_EVENT]; omega) _)).trans (mode_rebuildTaken _ _ _ _)
    have hnv : (engineFail e (useFree (rebuildTaken chan key ⟨o, false, true, false⟩ s))).nv = s.nv := by
      rw [engineFail_nv]
      exact rebuildTaken_nv
    obtain ⟨hfails, hregs⟩ := hostRead_fails hx hnv hm hneed
    refine ⟨_, hrow, hfails, e, h4, ?_⟩
    have hapart : Reg.CMP_EVENT e ∉ completionRegs := not_mem_completionRegs (by simp only [Reg.CMP_EVENT]; omega)
      (by simp only [Reg.CMP_EVENT, Reg.MGT_CNT_IBI, Reg.MGT_CNT_IBI_DEFER]; omega)
    exact (fget_of_rd (hregs _ hapart)).trans (engineFail_raised e _)

end Sys2Proof.Machine
end

section
/-! Registers of the always-on, power and clock blocks: they lie below those of the event recorder, and operations on the serving state write none
of them. -/

namespace Sys2Proof.Machine

/-- The registers of the always-on, power and clock blocks are as before. -/
def LowKept (s t : State) : Prop := ∀ a, a < 0x40040000 → rd a t = rd a s

theorem LowKept.refl (s : State) : LowKept s s := fun _ _ => rfl

theorem LowKept.trans {s t u : State} (h : LowKept s t) (g : LowKept t u) : LowKept s u := fun a ha => (g a ha).trans (h a ha)

theorem LowKept.of_regs {s t u : State} (h : LowKept s t) (hu : u.regs = t.regs) : LowKept s u := fun a ha => (rd_congr hu a).trans (h a ha)

/-- Whatever an operation that leaves the registers does. -/
theorem LowKept.of_keeps {M : Nat} {s t u : State} (h : LowKept s t) (hk : Keeps M t u) (hM : M.testBit 0 = false) : LowKept s u :=
  h.of_regs (hk.only.regs hM)

/-- Whatever changes in the other parts of the state. -/
theorem LowKept.upd {s t : State} {p1 p3 p4 p5 p6 p7 p8 p9 p10 p11 p12 p13 p14 p15 p16 p17 p18 p19 p20 p21 p22 p23 p24 p25 p26 p27 p28}
    (h : LowKept s t) :
    LowKept s ⟨p1, t.regs, p3, p4, p5, p6, p7, p8, p9, p10, p11, p12, p13, p14, p15, p16, p17, p18, p19, p20, p21, p22, p23, p24, p25, p26,
      p27, p28⟩ :=
  h.of_regs rfl

theorem low_ite {s t u : State} {c : Prop} [Decidable c] (ht : LowKept s t) (hu : LowKept s u) : LowKept s (if c then t else u) := by
  split <;> assumption

theorem forN_low {s0 : State} {f : Nat → State → State} {n : Nat} {s : State} (h : LowKept s0 s) (hf : ∀ i t, LowKept t (f i t)) :
    LowKept s0 (forN f n s) := by
  induction n with
  | zero => exact h
  | succ n ih => exact ih.trans (hf n _)

theorem forEach_low {s0 : State} {α : Type} {f : α → State → State} {l : List α} {s : State} (h : LowKept s0 s)
    (hf : ∀ a t, LowKept t (f a t)) : LowKept s0 (forEach f l s) := by
  induction l generalizing s with
  | nil => exact h
  | cons e l ih => exact ih (h.trans (hf e s))

theorem wr_low {s0 : State} (a : Nat) (v : Word) {s : State} (h : LowKept s0 s) (ha : 0x40040000 ≤ a) : LowKept s0 (wr a v s) :=
  h.trans (fun b hb => rd_wr_ne v s (by omega))

theorem fset_low {s0 : State} (f : Fld) (v : Nat) {s : State} (h : LowKept s0 s) (ha : 0x40040000 ≤ f.addr) : LowKept s0 (fset f v s) :=
  wr_low _ _ h ha

theorem fsetTo_low {s0 : State} (f : Fld) (v : Nat) {s : State} (h : LowKept s0 s) (ha : 0x40040000 ≤ f.addr) : LowKept s0 (fsetTo f v s) := by
  unfold fsetTo
  exact low_ite h (fset_low f v h ha)

theorem cntAdd_low {s0 : State} (a w n : Nat) {s : State} (h : LowKept s0 s) (ha : 0x40040000 ≤ a) : LowKept s0 (cntAdd a w n s) := wr_low _ _ h ha

theorem not_mem_pbkRegs_of_low {a : Nat} (h : a < 0x40040000) : a ∉ pbkRegs := by
  simp only [pbkRegs, Reg.PBK_STATUS, Reg.PBK_DROP2, Reg.PBK_DROP3, Reg.PBK_EVENT, List.mem_cons, List.not_mem_nil, or_false, not_or]
  omega

theorem postmark_low {s0 : State} (code src : Nat) (args : List Nat) {s : State} (h : LowKept s0 s) : LowKept s0 (postmark code src args s) :=
  h.trans (fun _ hb => rd_postmark _ _ _ _ _ (not_mem_pbkRegs_of_low hb))

theorem raiseEvent_low {s0 : State} (g i : Nat) (f : Fld) {s : State} (h : LowKept s0 s) (ha : 0x40040000 ≤ f.addr) :
    LowKept s0 (raiseEvent g i f s) := postmark_low _ _ _ (fset_low f 1 h ha)

section
variable {s0 s : State} (hk : LowKept s0 s)
include hk

/-! ### Operations that write no register -/

theorem keepCounts_low (as : List Nat) : LowKept s0 (keepCounts as s) :=
  hk.of_keeps (keepCounts_keeps as (Keeps.refl s) (Sub.refl 16777216)) rfl

theorem useFree_low : LowKept s0 (useFree s) :=
  hk.of_keeps (useFree_keeps (Keeps.refl s) (Sub.refl 4)) rfl

theorem updCtrl_low (c : Nat) (f : Ctrl → Ctrl) : LowKept s0 (updCtrl c f s) :=
  hk.of_keeps (updCtrl_keeps c f (Keeps.refl s) (Sub.refl 128)) rfl

theorem writeSpace_low (sp : Space) (a : Nat) (bs : List Byte) : LowKept s0 (writeSpace sp a bs s) :=
  hk.of_keeps (writeSpace_keeps sp a bs (Keeps.refl s) (Sub.refl 34607106)) rfl

theorem zeroRange_low (a b : Nat) : LowKept s0 (zeroRange a b s) :=
  hk.of_keeps (zeroRange_keeps a b (Keeps.refl s) (Sub.refl 33558530)) rfl

theorem setCmd_low (c : Cmd) : LowKept s0 (setCmd c s) :=
  hk.of_keeps (setCmd_keeps c (Keeps.refl s) (Sub.refl 128)) rfl

theorem updCq_low (c q : Nat) (f : Cq → Cq) : LowKept s0 (updCq c q f s) :=
  hk.of_keeps (updCq_keeps c q f (Keeps.refl s) (Sub.refl 128)) rfl

theorem postEntry_low (c cq : Nat) (e : Cqe) : LowKept s0 (postEntry c cq e s) :=
  hk.of_keeps (postEntry_keeps c cq e (Keeps.refl s) (Sub.refl 128)) rfl

theorem retireCmd_low (x : Cmd) : LowKept s0 (retireCmd x s) :=
  hk.of_keeps (retireCmd_keeps x (Keeps.refl s) (Sub.refl 128)) rfl

theorem shutdownProgress_low : LowKept s0 (shutdownProgress s) :=
  hk.of_keeps (shutdownProgress_keeps (Keeps.refl s) (Sub.refl 128)) rfl

theorem haltQueue_low (x : Cmd) : LowKept s0 (haltQueue x s) :=
  hk.of_keeps (haltQueue_keeps x (Keeps.refl s) (Sub.refl 128)) rfl

theorem updSch_low (f : Sch → Sch) : LowKept s0 (updSch f s) :=
  hk.of_keeps (updSch_keeps f (Keeps.refl s) (Sub.refl 262144)) rfl

theorem setLetter_low (l : Letter) : LowKept s0 (setLetter l s) :=
  hk.of_keeps (setLetter_keeps l (Keeps.refl s) (Sub.refl 262144)) rfl

theorem recordEnd_low (e reason low : Nat) (faddr pc : Word) : LowKept s0 (recordEnd e reason low faddr pc s) :=
  hk.of_keeps (recordEnd_keeps e reason low faddr pc (Keeps.refl s) (Sub.refl 2048)) rfl

theorem execLetterEnded_low (l : Letter) : LowKept s0 (execLetterEnded l s) :=
  hk.of_keeps (execLetterEnded_keeps l (Keeps.refl s) (Sub.refl 2048)) rfl

theorem releaseReady_low : LowKept s0 (releaseReady s) :=
  hk.of_keeps (releaseReady_keeps (Keeps.refl s) (Sub.refl 262144)) rfl

theorem freeRoutes_low : LowKept s0 (freeRoutes s) :=
  hk.of_keeps (freeRoutes_keeps (Keeps.refl s) (Sub.refl 262144)) rfl

theorem putSys_low (k n : Nat) (v : Word) : LowKept s0 (putSys k n v s) :=
  hk.of_keeps (putSys_keeps k n v (Keeps.refl s) (Sub.refl 524288)) rfl

theorem keepClusCounts_low (n : Nat) : LowKept s0 (keepClusCounts n s) :=
  hk.of_keeps (keepClusCounts_keeps n (Keeps.refl s) (Sub.refl 1048576)) rfl

theorem sramLost_low : LowKept s0 (sramLost s) :=
  hk.of_keeps (sramLost_keeps (Keeps.refl s) (Sub.refl 33558530)) rfl

theorem writePieces_low (sp : Space) (a0 : List (Nat × Nat)) (a1 : List Byte) : LowKept s0 (writePieces sp a0 a1 s) :=
  hk.of_keeps (writePieces_keeps sp a0 a1 (Keeps.refl s) (Sub.refl 34607106)) rfl

theorem putCtx_low (sp : Space) (d : CDesc) (phys : Nat) (c : CompCtx) : LowKept s0 (putCtx sp d phys c s) :=
  hk.of_keeps (putCtx_keeps sp d phys c (Keeps.refl s) (Sub.refl 34623494)) rfl

theorem letterEnds_low (sp : Space) (addr st count : Nat) : LowKept s0 (letterEnds sp addr st count s) :=
  hk.of_keeps (letterEnds_keeps sp addr st count (Keeps.refl s) (Sub.refl 34607106)) rfl

theorem cachePage_low (p : Nat) : LowKept s0 (cachePage p s) :=
  hk.of_keeps (cachePage_keeps p (Keeps.refl s) (Sub.refl 256)) rfl

theorem dirtyPage_low (p : Nat) : LowKept s0 (dirtyPage p s) :=
  hk.of_keeps (dirtyPage_keeps p (Keeps.refl s) (Sub.refl 256)) rfl

theorem updBlkOf_low (i c : Nat) (f : Blk → Blk) : LowKept s0 (updBlkOf i c f s) :=
  hk.of_keeps (updBlkOf_keeps i c f (Keeps.refl s) (Sub.refl 256)) rfl

theorem noteSd_low (nsid i : Nat) : LowKept s0 (noteSd nsid i s) :=
  hk.of_keeps (noteSd_keeps nsid i (Keeps.refl s) (Sub.refl 256)) rfl

theorem queueDiscard_low (nsid : Nat) : LowKept s0 (queueDiscard nsid s) :=
  hk.of_keeps (queueDiscard_keeps nsid (Keeps.refl s) (Sub.refl 256)) rfl

theorem journal_low (n : Nat) : LowKept s0 (journal n s) :=
  hk.of_keeps (journal_keeps n (Keeps.refl s) (Sub.refl 256)) rfl

theorem recomputeFill_low : LowKept s0 (recomputeFill s) :=
  hk.of_keeps (recomputeFill_keeps (Keeps.refl s) (Sub.refl 256)) rfl

theorem interruptedProgram_low (n : Nat) (o : ChanOp) : LowKept s0 (interruptedProgram n o s) :=
  hk.of_keeps (interruptedProgram_keeps n o (Keeps.refl s) (Sub.refl 256)) rfl

theorem setMgt_low (f : Mgt → Mgt) : LowKept s0 (setMgt f s) :=
  hk.of_keeps (setMgt_keeps f (Keeps.refl s) (Sub.refl 4194304)) rfl

theorem setFw_low (c : Nat) (f : Fw → Fw) : LowKept s0 (setFw c f s) :=
  hk.of_keeps (setFw_keeps c f (Keeps.refl s) (Sub.refl 4194304)) rfl

theorem dropScan_low (n : Nat) : LowKept s0 (dropScan n s) :=
  hk.of_keeps (dropScan_keeps n (Keeps.refl s) (Sub.refl 32768)) rfl

theorem privFree_low (f : Nat) (ps : List (Nat × Nat)) : LowKept s0 (privFree f ps s) :=
  hk.of_keeps (privFree_keeps f ps (Keeps.refl s) (Sub.refl 2048)) rfl

theorem applyWcache_low (f : Nat) : LowKept s0 (applyWcache f s) :=
  hk.of_keeps (applyWcache_keeps f (Keeps.refl s) (Sub.refl 2048)) rfl

theorem updNet_low (f : Net → Net) : LowKept s0 (updNet f s) :=
  hk.of_keeps (updNet_keeps f (Keeps.refl s) (Sub.refl 2097152)) rfl

theorem netSend_low (o : NetOut) : LowKept s0 (netSend o s) :=
  hk.of_keeps (netSend_keeps o (Keeps.refl s) (Sub.refl 2097152)) rfl

theorem coresLost_low (keep : Nat → Bool) : LowKept s0 (coresLost keep s) :=
  hk.of_keeps (coresLost_keeps keep (Keeps.refl s) (Sub.refl 524288)) rfl

/-! ### Operations that write registers of other blocks -/

theorem resetPostmark_low (kind cause : Nat) : LowKept s0 (resetPostmark kind cause s) := by
  unfold resetPostmark
  repeat' (with_reducible first | assumption | apply postmark_low)

theorem sendIbi_low : LowKept s0 (sendIbi s) := by
  unfold sendIbi
  dsimp only
  repeat' first
    | with_reducible first
      | assumption | apply cntAdd_low | split | apply LowKept.upd
    | (simp only [Reg.MGT_CNT_IBI]; omega)

theorem raiseIbi_low : LowKept s0 (raiseIbi s) := by
  unfold raiseIbi
  dsimp only
  repeat' first
    | with_reducible first
      | assumption | apply low_ite | apply cntAdd_low | apply sendIbi_low | split | apply LowKept.upd
    | (simp only [Reg.MGT_CNT_IBI_DEFER]; omega)

theorem postMctp_low (m : List Byte) : LowKept s0 (postMctp m s) := by
  unfold postMctp
  dsimp only
  repeat' (with_reducible first | assumption | apply raiseIbi_low | split | apply LowKept.upd)

theorem tunnelResult_low (sct sc dw0 : Nat) (data : List Byte) : LowKept s0 (tunnelResult sct sc dw0 data s) := by
  unfold tunnelResult
  dsimp only
  repeat' (with_reducible first | assumption | apply postMctp_low | split | apply LowKept.upd)

theorem showTags_low : LowKept s0 (showTags s) := by
  unfold showTags
  dsimp only
  repeat' first
    | with_reducible first
      | assumption | apply low_ite | apply fset_low | apply wr_low
    | (simp only [Fl.HIF_OVL_STATUS_FULL, Fl.HIF_OVL_STATUS_HWM, Fl.HIF_OVL_STATUS_IN_USE, Reg.HIF_OVL_STATUS, Reg.HIF_TAG_SHARED,
          Reg.HIF_TAG_STATUS]; omega)

theorem postResult_low (x : Cmd) (e : Cqe) : LowKept s0 (postResult x e s) := by
  unfold postResult
  dsimp only
  repeat' first
    | with_reducible first
      | assumption | apply low_ite | apply postEntry_low | apply raiseEvent_low | apply retireCmd_low | apply tunnelResult_low | apply updCq_low
      | split | apply LowKept.upd
    | (simp only [Fl.HIF_EVENT_CQ_HELD, Reg.HIF_EVENT]; omega)

theorem settleOne_low : LowKept s0 (settleOne s) := by
  unfold settleOne
  repeat' (with_reducible first | assumption | apply postResult_low | apply setCmd_low | split)

theorem settle_low (a0 : Nat) : LowKept s0 (settle a0 s) := by
  induction a0 generalizing s with
  | zero => exact hk
  | succ n ih =>
    unfold settle
    repeat' (with_reducible first | assumption | apply low_ite | apply settleOne_low | apply ih)

theorem settleAll_low : LowKept s0 (settleAll s) := by
  unfold settleAll
  repeat' (with_reducible first | assumption | apply settle_low | apply showTags_low | apply shutdownProgress_low)

theorem completeBoth_low (tag sct sc : Nat) (dnr : Bool) (dw0 dw1 : Nat) (data : List Byte) : LowKept s0 (completeBoth tag sct sc dnr dw0 dw1 data
  s) := by
  unfold completeBoth
  dsimp only
  repeat' with_reducible first
    | assumption | apply low_ite | apply haltQueue_low | apply setCmd_low | apply settleAll_low | split | apply LowKept.upd

theorem complete_low (tag sct sc : Nat) (dnr : Bool) (dw0 : Nat) (data : List Byte) : LowKept s0 (complete tag sct sc dnr dw0 data s) := by
  unfold complete
  repeat' (with_reducible first | assumption | apply completeBoth_low)

theorem completeOk_low (tag : Nat) : LowKept s0 (completeOk tag s) := by
  unfold completeOk
  repeat' (with_reducible first | assumption | apply complete_low)

theorem completeData_low (tag : Nat) (d : List Byte) : LowKept s0 (completeData tag d s) := by
  unfold completeData
  repeat' (with_reducible first | assumption | apply complete_low)

theorem showSch_low : LowKept s0 (showSch s) := by
  unfold showSch
  dsimp only
  repeat' first
    | with_reducible first
      | assumption | apply LowKept.refl | apply low_ite | apply fset_low | apply wr_low | apply forN_low | split | intro _
    | (simp only [Fl.SCH_LETTERS_HWM, Fl.SCH_LETTERS_IN_USE, Fl.SCH_PRD_STATUS_ENTRIES, Fl.SCH_PRD_STATUS_PRD, Fl.SCH_QDEPTH_PRIO,
          Fl.SCH_STATUS_ORDERED, Reg.SCH_COUNTERS, Reg.SCH_LETTERS, Reg.SCH_PRD_STATUS, Reg.SCH_QDEPTH, Reg.SCH_ROUTES, Reg.SCH_STATUS,
          Reg.SCH_WAKE_DUE]; omega)

theorem decrement_low (i a : Nat) : LowKept s0 (decrement i a s) := by
  unfold decrement
  repeat' first
    | with_reducible first
      | assumption | apply low_ite | apply raiseEvent_low | apply updSch_low | split
    | (simp only [Fl.SCH_EVENT_CTR_UNDER, Reg.SCH_EVENT]; omega)

theorem releaseSignals_low (a0 : Nat) : LowKept s0 (releaseSignals a0 s) := by
  induction a0 generalizing s with
  | zero => exact hk
  | succ n ih =>
    unfold releaseSignals
    repeat' (with_reducible first | assumption | apply ih | apply decrement_low | apply updSch_low | split)

theorem endLetter_low (id status : Nat) : LowKept s0 (endLetter id status s) := by
  unfold endLetter
  dsimp only
  repeat' with_reducible first
    | assumption | apply low_ite | apply decrement_low | apply execLetterEnded_low | apply freeRoutes_low | apply releaseReady_low
    | apply releaseSignals_low | apply showSch_low | apply updSch_low | split

theorem endLetters_low (ids : List Nat) (status : Nat) : LowKept s0 (endLetters ids status s) := by
  unfold endLetters
  repeat' (with_reducible first | assumption | apply LowKept.refl | apply endLetter_low | apply forEach_low | split | intro _)

theorem endStranded_low : LowKept s0 (endStranded s) := by
  unfold endStranded
  dsimp only
  repeat' first
    | with_reducible first
      | assumption | apply LowKept.refl | apply low_ite | apply endLetter_low | apply forEach_low | apply raiseEvent_low | apply recordEnd_low
      | split | intro _
    | (simp only [Fl.SCH_EVENT_NO_TARGET, Reg.SCH_EVENT]; omega)

theorem settleSch_low : LowKept s0 (settleSch s) := by
  unfold settleSch
  repeat' (with_reducible first | assumption | apply endStranded_low | apply releaseReady_low | apply showSch_low)

theorem servePigeon_low (p : Nat × Nat → Bool) : LowKept s0 (servePigeon p s) := by
  unfold servePigeon
  dsimp only
  repeat' (with_reducible first | assumption | apply low_ite | apply endLetters_low | split | apply LowKept.upd)

theorem endOwner_low (owner exec : Nat) : LowKept s0 (endOwner owner exec s) := by
  unfold endOwner
  dsimp only
  repeat' (with_reducible first | assumption | apply endLetters_low | apply settleSch_low | apply updSch_low)

theorem schBrace_low : LowKept s0 (schBrace s) := by
  unfold schBrace
  repeat' first
    | with_reducible first
      | assumption | apply fset_low | apply showSch_low | split | intro _
    | (simp only [Fl.SCH_STATUS_BRACE_HOLD, Reg.SCH_STATUS]; omega)

theorem showCore_low (k : Nat) : LowKept s0 (showCore k s) := by
  unfold showCore
  dsimp only
  repeat' first
    | with_reducible first
      | assumption | apply low_ite | apply fset_low | split
    | (simp only [Fl.AXC_CORE_STATUS_PRIV, Fl.AXC_CORE_STATUS_RUNAHEAD, Fl.AXC_CORE_STATUS_STATE, Fl.CTC_CORE_STATUS_CORE,
          Fl.DBG_CORE_DSTATUS_LETTER, Reg.AXC_CORE_STATUS, Reg.AXC_STATUS, Reg.CTC_CORE_STATUS, Reg.DBG_CORE_DSTATUS, Reg.DBG_HALTED_HI,
          Reg.DBG_HALTED_LO, Reg.DBG_HALTED_MID]; omega)

theorem setCore_low (k : Nat) (c : Core) : LowKept s0 (setCore k c s) := by
  unfold setCore
  repeat' (with_reducible first | assumption | apply showCore_low | split | apply LowKept.upd)

theorem coreReset_low (k : Nat) : LowKept s0 (coreReset k s) := by
  unfold coreReset
  repeat' (with_reducible first | assumption | apply showCore_low | split | apply LowKept.upd)

theorem passCycles_low (k n : Nat) : LowKept s0 (passCycles k n s) := by
  unfold passCycles
  dsimp only
  repeat' first
    | with_reducible first
      | assumption | apply low_ite | apply cntAdd_low | apply putSys_low
    | (simp only [Reg.AXC_CNT_CYCLES]; omega)

theorem leaveAhead_low (k cycles : Nat) : LowKept s0 (leaveAhead k cycles s) := by
  unfold leaveAhead
  dsimp only
  repeat' first
    | with_reducible first
      | assumption | apply cntAdd_low | apply passCycles_low | apply showCore_low | split | apply LowKept.upd
    | (simp only [Reg.AXC_CNT_RA_CYCLES, Reg.AXC_CNT_RA_EPISODES]; omega)

theorem clearPoints_low (k : Nat) : LowKept s0 (clearPoints k s) := by
  unfold clearPoints
  repeat' first
    | with_reducible first
      | assumption | apply LowKept.refl | apply forN_low | apply fset_low | split | intro _
    | (simp only [Fl.DBG_BP_EN, Fl.DBG_WP_CFG_EN, Reg.DBG_BP, Reg.DBG_WP_CFG]; omega)

theorem leaveLetter_low (k : Nat) : LowKept s0 (leaveLetter k s) := by
  unfold leaveLetter
  dsimp only
  repeat' (with_reducible first | assumption | apply low_ite | apply leaveAhead_low | apply setCore_low | apply useFree_low)

theorem dramLost_low : LowKept s0 (dramLost s) := by
  unfold dramLost
  repeat' first
    | with_reducible first
      | assumption | apply LowKept.refl | apply forN_low | apply fset_low | apply zeroRange_low | split | intro _
    | (simp only [Fl.DMC_STATUS_STATE, Reg.DMC_STATUS]; omega)

theorem reportEnd_low (sp : Space) (addr : Nat) (d : CDesc) (dst : List (Nat × Nat)) (n : Nat) (hdrFail : Bool) (phys : Option Nat) (e : CompEnd) :
  LowKept s0 (reportEnd sp addr d dst n hdrFail phys e s) := by
  unfold reportEnd
  dsimp only
  repeat' first
    | with_reducible first
      | assumption | apply low_ite | apply cntAdd_low | apply putCtx_low | apply raiseEvent_low | apply useFree_low | apply writePieces_low
      | apply writeSpace_low | split | apply LowKept.upd
    | (simp only [Fl.CMP_EVENT_CHECK_FAIL, Reg.CMP_CNT_CHECK_FAIL, Reg.CMP_CNT_DESC, Reg.CMP_CNT_IN, Reg.CMP_CNT_OUT, Reg.CMP_EVENT]; omega)

theorem reportOpen_low (sp : Space) (addr st : Nat) (d : CDesc) (dst : List (Nat × Nat)) (n : Nat) : LowKept s0 (reportOpen sp addr st d dst n s) :=
  by
  unfold reportOpen
  repeat' (with_reducible first | assumption | apply reportEnd_low)

theorem abortComp_low (n : Nat) (sp : Space) (addr : Nat) : LowKept s0 (abortComp n sp addr s) := by
  unfold abortComp
  repeat' (with_reducible first | assumption | apply reportOpen_low | split)

theorem prdEnded_low (claimed : Bool) (k : Nat) : LowKept s0 (prdEnded claimed k s) := by
  unfold prdEnded
  repeat' first
    | with_reducible first
      | assumption | apply low_ite | apply cntAdd_low | split
    | (simp only [Reg.AXC_CNT_PRD_CLAIMED, Reg.AXC_CNT_PRD_EXPIRED, Reg.AXC_CNT_PRD_ISSUED]; omega)

theorem dropPages_low (p : StagePage → Bool) : LowKept s0 (dropPages p s) := by
  unfold dropPages
  dsimp only
  repeat' (with_reducible first | assumption | apply LowKept.refl | apply forEach_low | apply prdEnded_low | split | apply LowKept.upd | intro _)

theorem invalidateWindows_low (nsid iu : Nat) : LowKept s0 (invalidateWindows nsid iu s) := by
  unfold invalidateWindows
  dsimp only
  repeat' (with_reducible first | assumption | apply low_ite | apply dropPages_low | split | apply LowKept.upd)

theorem showChan_low (n : Nat) : LowKept s0 (showChan n s) := by
  unfold showChan
  dsimp only
  repeat' first
    | with_reducible first
      | assumption | apply LowKept.refl | apply low_ite | apply fset_low | apply forN_low | split | intro _
    | (simp only [Fl.CHE_CTRL_HELD, Fl.CHE_DIE_STATE_DIE, Fl.CHE_QDEPTH_CLASS, Fl.CHE_STATUS_BUSY, Reg.CHE_CTRL, Reg.CHE_DIE_STATE,
          Reg.CHE_QDEPTH, Reg.CHE_STATUS]; omega)

theorem setChan_low (n : Nat) (c : Chan) : LowKept s0 (setChan n c s) := by
  unfold setChan
  dsimp only
  repeat' (with_reducible first | assumption | apply showChan_low | split | apply LowKept.upd)

theorem enqueue_low (n : Nat) (o : ChanOp) : LowKept s0 (enqueue n o s) := by
  unfold enqueue
  dsimp only
  repeat' (with_reducible first | assumption | apply setChan_low)

theorem pushContrib_low (n : Nat) (o : ChanOp) : LowKept s0 (pushContrib n o s) := by
  unfold pushContrib
  dsimp only
  repeat' (with_reducible first | assumption | apply LowKept.refl | apply low_ite | apply enqueue_low | apply forEach_low | split | intro _)

theorem startRebuild_low (n : Nat) (o : ChanOp) (counts check : Bool) : LowKept s0 (startRebuild n o counts check s) := by
  unfold startRebuild
  dsimp only
  repeat' (with_reducible first | assumption | apply pushContrib_low | apply setChan_low)

theorem pushOp_low (n : Nat) (o : ChanOp) : LowKept s0 (pushOp n o s) := by
  unfold pushOp
  dsimp only
  repeat' (with_reducible first | assumption | apply low_ite | apply enqueue_low | apply startRebuild_low)

theorem dropOps_low (is : ChanOp → Bool) : LowKept s0 (dropOps is s) := by
  unfold dropOps
  dsimp only
  repeat' (with_reducible first | assumption | apply LowKept.refl | apply setChan_low | apply forEach_low | split | intro _)

theorem loadPage_low (p : Nat) : LowKept s0 (loadPage p s) := by
  unfold loadPage
  dsimp only
  repeat' (with_reducible first | assumption | apply low_ite | apply pushOp_low)

theorem finishRead_low (tag : Nat) : LowKept s0 (finishRead tag s) := by
  unfold finishRead
  dsimp only
  repeat' with_reducible first
    | assumption | apply low_ite | apply complete_low | apply completeData_low | apply completeOk_low | apply setCmd_low | split

theorem lookUnit_low (tag iu : Nat) : LowKept s0 (lookUnit tag iu s) := by
  unfold lookUnit
  dsimp only
  repeat' with_reducible first
    | assumption | apply low_ite | apply cachePage_low | apply complete_low | apply loadPage_low | apply pushOp_low | apply setCmd_low | split

theorem startRead_low (tag : Nat) : LowKept s0 (startRead tag s) := by
  unfold startRead
  dsimp only
  repeat' with_reducible first
    | assumption | apply LowKept.refl | apply low_ite | apply finishRead_low | apply forEach_low | apply lookUnit_low | split | intro _

theorem wakeReads_low : LowKept s0 (wakeReads s) := by
  unfold wakeReads
  repeat' (with_reducible first | assumption | apply LowKept.refl | apply forEach_low | apply startRead_low | split | intro _)

theorem showLbx_low (f : Nat) : LowKept s0 (showLbx f s) := by
  unfold showLbx
  repeat' first
    | with_reducible first
      | assumption | apply low_ite | apply fset_low
    | (simp only [Fl.LBX_STATUS_HELD, Fl.LBX_STATUS_MANAGER, Fl.LBX_STATUS_ONLINE, Fl.LBX_STATUS_PAUSED, Reg.LBX_STATUS]; omega)

theorem showBank_low (b : Nat) : LowKept s0 (showBank b s) := by
  unfold showBank
  dsimp only
  repeat' first
    | with_reducible first
      | assumption | apply low_ite | apply fset_low
    | (simp only [Fl.MAT_STATUS_CLEARING, Fl.MAT_STATUS_VALID_ENTRIES, Reg.MAT_STATUS]; omega)

theorem showLost_low (n : Nat) : LowKept s0 (showLost n s) := by
  unfold showLost
  repeat' first
    | with_reducible first
      | assumption | apply low_ite | apply fset_low
    | (simp only [Fl.MAT_TBL_MAP_LOST, Reg.MAT_TBL_MAP]; omega)

theorem deleteTable_low (n : Nat) : LowKept s0 (deleteTable n s) := by
  unfold deleteTable
  dsimp only
  repeat' first
    | with_reducible first
      | assumption | apply LowKept.refl | apply low_ite | apply forEach_low | apply fset_low | apply showBank_low | apply showLost_low | split
      | apply LowKept.upd | intro _
    | (simp only [Fl.MAT_TBL_MAP_VALID, Reg.MAT_TBL_MAP]; omega)

theorem mapWriter_low : LowKept s0 (mapWriter s) := by
  unfold mapWriter
  repeat' (with_reducible first | assumption | apply low_ite | apply pushOp_low | split)

theorem mapChanged_low (p : Nat) : LowKept s0 (mapChanged p s) := by
  unfold mapChanged
  repeat' (with_reducible first | assumption | apply cachePage_low | apply dirtyPage_low | apply mapWriter_low)

theorem landUnit_low (p : Place) (nsid iu : Nat) (n : Ns) (d : IuData) : LowKept s0 (landUnit p nsid iu n d s) := by
  unfold landUnit
  dsimp only
  repeat' with_reducible first
    | assumption | apply invalidateWindows_low | apply journal_low | apply mapChanged_low | apply noteSd_low | split | apply LowKept.upd

theorem deallocUnit_low (nsid iu : Nat) : LowKept s0 (deallocUnit nsid iu s) := by
  unfold deallocUnit
  dsimp only
  repeat' (with_reducible first | assumption | apply invalidateWindows_low | apply mapChanged_low | split | apply LowKept.upd)

theorem applyWrite_low (x : Cmd) : LowKept s0 (applyWrite x s) := by
  unfold applyWrite
  dsimp only
  repeat' with_reducible first
    | assumption | apply LowKept.refl | apply low_ite | apply deallocUnit_low | apply journal_low | apply landUnit_low | apply queueDiscard_low
    | apply recomputeFill_low | apply forEach_low | split | apply LowKept.upd | intro _

theorem applyOne_low : LowKept s0 (applyOne s) := by
  unfold applyOne
  repeat' (with_reducible first | assumption | apply low_ite | apply applyWrite_low | apply complete_low | apply completeOk_low | split)

theorem applyLanded_low (a0 : Nat) : LowKept s0 (applyLanded a0 s) := by
  induction a0 generalizing s with
  | zero => exact hk
  | succ n ih =>
    unfold applyLanded
    repeat' (with_reducible first | assumption | apply ih | apply applyOne_low | apply wakeReads_low)

theorem applyAll_low : LowKept s0 (applyAll s) := by
  unfold applyAll
  repeat' (with_reducible first | assumption | apply applyLanded_low)

theorem journalFlush_low : LowKept s0 (journalFlush s) := by
  unfold journalFlush
  dsimp only
  repeat' with_reducible first
    | assumption | apply LowKept.refl | apply low_ite | apply pushOp_low | apply forEach_low | split | apply LowKept.upd | intro _

theorem setUpd_low (st comp src : Nat) : LowKept s0 (setUpd st comp src s) := by
  unfold setUpd
  repeat' first
    | with_reducible first
      | assumption | apply fset_low
    | (simp only [Fl.MGT_UPD_COMPONENT, Fl.MGT_UPD_SOURCE, Fl.MGT_UPD_STATE, Reg.MGT_UPD]; omega)

theorem updEnd_low (result : Nat) : LowKept s0 (updEnd result s) := by
  unfold updEnd
  dsimp only
  repeat' with_reducible first
    | assumption | apply low_ite | apply complete_low | apply completeOk_low | apply setMgt_low | apply setUpd_low | split

theorem updPreempt_low : LowKept s0 (updPreempt s) := by
  unfold updPreempt
  repeat' (with_reducible first | assumption | apply postmark_low | apply setFw_low | apply updEnd_low | split)

theorem resumeDie_low (chan die : Nat) (bus : Bool) : LowKept s0 (resumeDie chan die bus s) := by
  unfold resumeDie
  dsimp only
  repeat' first
    | with_reducible first
      | assumption | apply low_ite | apply fset_low | apply setChan_low | split | intro _
    | (simp only [Fl.CHE_STATUS_GOV_WAIT, Reg.CHE_STATUS]; omega)

theorem setHold_low (n v : Nat) : LowKept s0 (setHold n v s) := by
  unfold setHold
  repeat' first
    | with_reducible first
      | assumption | apply low_ite | apply fset_low | apply showChan_low
    | (simp only [Fl.CHE_CTRL_HOLD, Fl.CHE_STATUS_STATE, Reg.CHE_CTRL, Reg.CHE_STATUS]; omega)

theorem leaveSwitch_low (n : Nat) : LowKept s0 (leaveSwitch n s) := by
  unfold leaveSwitch
  repeat' first
    | with_reducible first
      | assumption | apply fset_low | apply setHold_low | split | intro _
    | (simp only [Fl.CHE_STATUS_REBUILD_ONLY, Reg.CHE_STATUS]; omega)

theorem dropSwitch_low : LowKept s0 (dropSwitch s) := by
  unfold dropSwitch
  repeat' first
    | with_reducible first
      | assumption | apply LowKept.refl | apply low_ite | apply fset_low | apply leaveSwitch_low | apply forN_low | split | intro _
    | (simp only [Fl.CHE_UCODE_STATE, Reg.CHE_UCODE]; omega)

theorem dropLanding_low (tag : Nat) : LowKept s0 (dropLanding tag s) := by
  unfold dropLanding
  repeat' (with_reducible first | assumption | apply dropOps_low)

theorem scanAnswer_low (j : ScanJob) (status index : Nat) : LowKept s0 (scanAnswer j status index s) := by
  unfold scanAnswer
  dsimp only
  repeat' (with_reducible first | assumption | apply low_ite | apply completeBoth_low | split | apply LowKept.upd)

theorem showCtx_low (c : Nat) (j : ScanJob) (d : ScanDesc) (state : Nat) (n : Nat) : LowKept s0 (showCtx c j d state n s) := by
  unfold showCtx
  dsimp only
  repeat' first
    | with_reducible first
      | assumption | apply low_ite | apply fset_low | split | intro _
    | (simp only [Fl.CHE_SF_CTX_JOB_FUNC, Fl.CHE_SF_CTX_JOB_JOB, Fl.CHE_SF_CTX_JOB_PROG, Fl.CHE_SF_CTX_STATE_FRAMING, Fl.CHE_SF_CTX_STATE_OUTMODE,
          Fl.CHE_SF_CTX_STATE_RING, Fl.CHE_SF_CTX_STATE_STATE, Reg.CHE_SF_CTX_JOB, Reg.CHE_SF_CTX_STATE, Reg.CHE_SF_STATUS]; omega)

theorem dropScanReads_low (num : Nat) : LowKept s0 (dropScanReads num s) := by
  unfold dropScanReads
  dsimp only
  repeat' (with_reducible first | assumption | apply LowKept.refl | apply setChan_low | apply forEach_low | split | intro _)

theorem scanEnd_low (j : ScanJob) (status : Nat) (write : Bool) : LowKept s0 (scanEnd j status write s) := by
  unfold scanEnd
  dsimp only
  repeat' first
    | with_reducible first
      | assumption | apply LowKept.refl | apply low_ite | apply dropScanReads_low | apply raiseEvent_low | apply scanAnswer_low | apply showCtx_low
      | apply useFree_low | apply writeSpace_low | apply forEach_low | split | apply LowKept.upd | intro _
    | (simp only [Fl.CHE_SF_EVENT_AGG_OVF, Reg.CHE_SF_EVENT]; omega)

theorem scanAbort5_low (p : ScanJob → Bool) (write : Bool) : LowKept s0 (scanAbort5 p write s) := by
  unfold scanAbort5
  dsimp only
  repeat' with_reducible first
    | assumption | apply LowKept.refl | apply low_ite | apply dropScan_low | apply forEach_low | apply scanAnswer_low | apply scanEnd_low
    | apply useFree_low | apply writeSpace_low | split | intro _

theorem scanAbandon_low : LowKept s0 (scanAbandon s) := by
  unfold scanAbandon
  dsimp only
  repeat' with_reducible first
    | assumption | apply LowKept.refl | apply dropScanReads_low | apply showCtx_low | apply forEach_low | split | apply LowKept.upd | intro _

theorem cancelChanRead_low (h : Nat) : LowKept s0 (cancelChanRead h s) := by
  unfold cancelChanRead
  dsimp only
  repeat' (with_reducible first | assumption | apply LowKept.refl | apply low_ite | apply setChan_low | apply forEach_low | split | intro _)

theorem dropRead_low (r : ReadEntry) : LowKept s0 (dropRead r s) := by
  unfold dropRead
  dsimp only
  repeat' with_reducible first
    | assumption | apply low_ite | apply cancelChanRead_low | apply prdEnded_low | apply showSch_low | apply updSch_low

theorem cancelPreReads_low (p : ReadEntry → Bool) : LowKept s0 (cancelPreReads p s) := by
  unfold cancelPreReads
  repeat' (with_reducible first | assumption | apply LowKept.refl | apply dropRead_low | apply forEach_low | split | intro _)

theorem readyAgain_low (ids : List Nat) : LowKept s0 (readyAgain ids s) := by
  unfold readyAgain
  repeat' with_reducible first
    | assumption | apply LowKept.refl | apply low_ite | apply setLetter_low | apply settleSch_low | apply forEach_low | split | intro _

theorem unmapWindow_low (e w : Nat) : LowKept s0 (unmapWindow e w s) := by
  unfold unmapWindow
  dsimp only
  repeat' with_reducible first
    | assumption | apply LowKept.refl | apply dropPages_low | apply dropRead_low | apply forEach_low | apply readyAgain_low | split
    | apply LowKept.upd | intro _

theorem stopExec_low (e f : Nat) : LowKept s0 (stopExec e f s) := by
  unfold stopExec
  repeat' with_reducible first
    | assumption | apply LowKept.refl | apply low_ite | apply endLetter_low | apply endOwner_low | apply forEach_low | apply leaveLetter_low | split
    | intro _

theorem abortLetterOnEngine_low (l : Letter) : LowKept s0 (abortLetterOnEngine l s) := by
  unfold abortLetterOnEngine
  dsimp only
  repeat' with_reducible first
    | assumption | apply low_ite | apply abortComp_low | apply letterEnds_low | apply useFree_low | apply writeSpace_low | split

theorem releaseExec_low (e : Nat) (x : Exec) : LowKept s0 (releaseExec e x s) := by
  unfold releaseExec
  dsimp only
  repeat' with_reducible first
    | assumption | apply LowKept.refl | apply abortLetterOnEngine_low | apply applyWcache_low | apply cancelPreReads_low | apply deleteTable_low
    | apply endLetters_low | apply endOwner_low | apply privFree_low | apply scanAbort5_low | apply unmapWindow_low | apply forEach_low | split
    | apply LowKept.upd | intro _

theorem abandonExecs_low (p : Exec → Bool) : LowKept s0 (abandonExecs p s) := by
  unfold abandonExecs
  repeat' with_reducible first
    | assumption | apply LowKept.refl | apply forEach_low | apply releaseExec_low | apply stopExec_low | split | intro _

theorem setPaused_low (b : Bool) : LowKept s0 (setPaused b s) := by
  unfold setPaused
  dsimp only
  repeat' (with_reducible first | assumption | apply LowKept.refl | apply forEach_low | apply showLbx_low | split | apply LowKept.upd | intro _)

theorem refillShared_low (k : Nat) : LowKept s0 (refillShared k s) := by
  unfold refillShared
  dsimp only
  repeat' with_reducible first
    | assumption | apply LowKept.refl | apply showTags_low | apply updCtrl_low | apply forEach_low | split | apply LowKept.upd | intro _

theorem abandonUnit_low (x : Cmd) (n : Ns) (iu : Nat) : LowKept s0 (abandonUnit x n iu s) := by
  unfold abandonUnit
  dsimp only
  repeat' with_reducible first
    | assumption | apply low_ite | apply deallocUnit_low | apply journal_low | apply landUnit_low | apply useFree_low | split

theorem abandonCmd_low (x : Cmd) : LowKept s0 (abandonCmd x s) := by
  unfold abandonCmd
  dsimp only
  repeat' with_reducible first
    | assumption | apply LowKept.refl | apply low_ite | apply abandonUnit_low | apply dropLanding_low | apply forEach_low | split
    | apply LowKept.upd | intro _

theorem goOn_low : LowKept s0 (goOn s) := by
  unfold goOn
  repeat' (with_reducible first | assumption | apply applyAll_low | apply settleAll_low | apply wakeReads_low)

theorem ctrlClear_low (c : Nat) (scanBlock : Bool) : LowKept s0 (ctrlClear c scanBlock s) := by
  unfold ctrlClear
  dsimp only
  repeat' with_reducible first
    | assumption | apply LowKept.refl | apply abandonCmd_low | apply abandonExecs_low | apply goOn_low | apply refillShared_low
    | apply scanAbort5_low | apply servePigeon_low | apply forEach_low | split | apply LowKept.upd | intro _

theorem ctrlReset_low (c cause : Nat) : LowKept s0 (ctrlReset c cause s) := by
  unfold ctrlReset
  repeat' (with_reducible first | assumption | apply ctrlClear_low | apply resetPostmark_low)

theorem showConns_low : LowKept s0 (showConns s) := by
  unfold showConns
  dsimp only
  repeat' first
    | with_reducible first
      | assumption | apply LowKept.refl | apply forN_low | apply fset_low | split | intro _
    | (simp only [Fl.NET_CONN_QP, Fl.NET_CONN_TCP, Reg.NET_CONN]; omega)

theorem dropConn_low (c : Nat) (orderly : Bool) : LowKept s0 (dropConn c orderly s) := by
  unfold dropConn
  repeat' (with_reducible first | assumption | apply netSend_low | apply showConns_low | apply updNet_low | split)

theorem endAssoc_low (c : Nat) (orderly : Bool) : LowKept s0 (endAssoc c orderly s) := by
  unfold endAssoc
  dsimp only
  repeat' with_reducible first
    | assumption | apply LowKept.refl | apply low_ite | apply ctrlReset_low | apply dropConn_low | apply forEach_low | split | apply LowKept.upd
    | intro _

theorem endAllAssocs_low (orderly : Bool) : LowKept s0 (endAllAssocs orderly s) := by
  unfold endAllAssocs
  dsimp only
  repeat' with_reducible first
    | assumption | apply LowKept.refl | apply dropConn_low | apply endAssoc_low | apply forEach_low | split | intro _

theorem netDrop_low : LowKept s0 (netDrop s) := by
  unfold netDrop
  dsimp only
  repeat' first
    | with_reducible first
      | assumption | apply LowKept.refl | apply low_ite | apply endAllAssocs_low | apply forN_low | apply fset_low | apply showConns_low
      | apply updNet_low | split | intro _
    | (simp only [Fl.NET_STATUS_FEC_ON, Fl.NET_STATUS_HOLDS_OTHER, Fl.NET_STATUS_SPEED, Fl.NET_STATUS_STATE, Reg.NET_STATUS]; omega)

theorem chanLost_low (n : Nat) : LowKept s0 (chanLost n s) := by
  unfold chanLost
  dsimp only
  repeat' with_reducible first
    | assumption | apply LowKept.refl | apply low_ite | apply interruptedProgram_low | apply setChan_low | apply updBlkOf_low | apply forEach_low
    | split | intro _

theorem loseServing_low : LowKept s0 (loseServing s) := by
  unfold loseServing
  dsimp only
  repeat' with_reducible first
    | assumption | apply LowKept.refl | apply abandonCmd_low | apply abandonExecs_low | apply chanLost_low | apply coresLost_low
    | apply dramLost_low | apply keepClusCounts_low | apply keepCounts_low | apply netDrop_low | apply scanAbandon_low | apply sramLost_low
    | apply forN_low | apply forEach_low | split | apply LowKept.upd | intro _

theorem mgtUp_low : LowKept s0 (mgtUp s) := by
  unfold mgtUp
  dsimp only
  repeat' first
    | with_reducible first
      | assumption | apply LowKept.refl | apply coreReset_low | apply fset_low | apply setMgt_low | apply wr_low | apply forN_low | split | intro _
    | (simp only [Fl.MGT_I3C_HJ_EN, Fl.MGT_I3C_IBI_EN, Reg.MGT_I3C, Reg.MGT_SENSOR]; omega)

theorem mgtStart_low (wasOn : Bool) : LowKept s0 (mgtStart wasOn s) := by
  unfold mgtStart
  repeat' (with_reducible first | assumption | apply low_ite | apply mgtUp_low)

theorem hostRise_low : LowKept s0 (hostRise s) := by
  unfold hostRise
  dsimp only
  repeat' first
    | with_reducible first
      | assumption | apply low_ite | apply fset_low | apply showTags_low | split | apply LowKept.upd | intro _
    | (simp only [Fl.HIF_LINK_STATUS_DUAL, Reg.HIF_LINK_STATUS]; omega)

theorem braceChan_low (n : Nat) : LowKept s0 (braceChan n s) := by
  unfold braceChan
  dsimp only
  repeat' (with_reducible first | assumption | apply low_ite | apply setChan_low)

theorem braceBlocks_low : LowKept s0 (braceBlocks s) := by
  unfold braceBlocks
  dsimp only
  repeat' first
    | with_reducible first
      | assumption | apply LowKept.refl | apply braceChan_low | apply cancelPreReads_low | apply dropSwitch_low | apply fset_low
      | apply schBrace_low | apply setPaused_low | apply updPreempt_low | apply forN_low | split | apply LowKept.upd | intro _
    | (simp only [Fl.HIF_FETCH_CTRL_HOLD, Reg.HIF_FETCH_CTRL]; omega)

theorem resumeAll_low : LowKept s0 (resumeAll s) := by
  unfold resumeAll
  repeat' (with_reducible first | assumption | apply LowKept.refl | apply resumeDie_low | apply forEach_low | split | intro _)

end

end Sys2Proof.Machine
end

section
/-! Modes, power domains and clocks (R46, R58, R60–R70): what entering a mode and switching domains leave. -/

namespace Sys2Proof.Machine

theorem rd_forN_lt {f : Nat → State → State} {a n : Nat} (h : ∀ i, i < n → ∀ t, rd a (f i t) = rd a t) (s : State) :
    rd a (forN f n s) = rd a s := by
  induction n with
  | zero => rfl
  | succ n ih => exact (h n (Nat.lt_succ_self n) _).trans (ih (fun i hi => h i (by omega)))

/-! ### Entry into a mode (R58) -/

theorem rd_enterMode {a : Nat} (h : a ∉ pbkRegs) (ha : a ≠ Reg.AON_MODE) (m : Nat) (s : State) : rd a (enterMode m s) = rd a s := by
  unfold enterMode
  dsimp only
  rw [rd_postmark _ _ _ _ _ h, rd_fset_ne _ _ _ _ ha, rd_fset_ne _ _ _ _ ha, rd_fset_ne _ _ _ _ ha, rd_fset_ne _ _ _ _ ha]

theorem fget_enterMode {f : Fld} (hf : f.addr ∉ pbkRegs) (m : Nat) (s : State) :
    fget f (enterMode m s) = fget f (s |> fset Fl.AON_MODE_PREV (mode s) |> fset Fl.AON_MODE_CUR m |> fset Fl.AON_MODE_TARGET m
      |> fset Fl.AON_MODE_TRANS 0) := fget_postmark _ _ _ _ _ hf

theorem mode_enterMode {m : Nat} (hm : m < 16) (s : State) : mode (enterMode m s) = m := by
  refine (fget_enterMode (f := Fl.AON_MODE_CUR) (by decide) m s).trans ?_
  rw [fget_fset_ne _ _ _ _ (.inr (.inr (by decide))), fget_fset_ne _ _ _ _ (.inr (.inr (by decide))), fget_fset_self _ _ _ (by decide)]
  exact Nat.mod_eq_of_lt hm

theorem trans_enterMode (m : Nat) (s : State) : fget Fl.AON_MODE_TRANS (enterMode m s) = 0 := by
  refine (fget_enterMode (by decide) m s).trans ?_
  rw [fget_fset_self _ _ _ (by decide)]
  rfl

theorem roCause_enterMode (m : Nat) (s : State) : fget Fl.AON_MODE_RO_CAUSE (enterMode m s) = fget Fl.AON_MODE_RO_CAUSE s := by
  refine (fget_enterMode (by decide) m s).trans ?_
  rw [fget_fset_ne _ _ _ _ (.inr (.inl (by decide))), fget_fset_ne _ _ _ _ (.inr (.inl (by decide))),
    fget_fset_ne _ _ _ _ (.inr (.inl (by decide))), fget_fset_ne _ _ _ _ (.inr (.inl (by decide)))]

@[simp] theorem enterMode_pow (m : Nat) (s : State) : (enterMode m s).pow = s.pow := (enterMode_keeps m (Keeps.refl s) (Sub.refl 33)).only.pow rfl

@[simp] theorem enterMode_nv (m : Nat) (s : State) : (enterMode m s).nv = s.nv := (enterMode_keeps m (Keeps.refl s) (Sub.refl 33)).only.nv rfl

/-! ### Clocks and domains (R16, R31) -/

/-- The registers that show clocks. -/
def clockRegs : List Nat := [Reg.CLK_STATUS, Reg.CLK_PLL_CTRL 0, Reg.CLK_PLL_CTRL 1, Reg.CLK_PLL_CTRL 2, Reg.CLK_PLL_CTRL 3, Reg.CLK_PLL_CTRL 4]

theorem rd_setPll {a n : Nat} (h : a ≠ Reg.CLK_STATUS) (hp : a ≠ Reg.CLK_PLL_CTRL n) (on : Bool) (s : State) : rd a (setPll n on s) = rd a s := by
  have hset : ∀ b, rd a (s |> fset ⟨Reg.CLK_STATUS, 3 + n, 1⟩ b |> fset (Fl.CLK_PLL_CTRL_EN n) b |> fset (Fl.CLK_PLL_CTRL_LOCKED n) b) = rd a s := by
    intro b
    rw [rd_fset_ne _ _ _ _ hp, rd_fset_ne _ _ _ _ hp, rd_fset_ne _ _ _ _ h]
  unfold setPll
  dsimp only
  split
  · rw [rd_fset_ne _ _ _ _ hp]
    exact hset _
  · exact hset _

theorem rd_showClocks {a : Nat} (h : a ∉ clockRegs) (s : State) : rd a (showClocks s) = rd a s := by
  simp only [clockRegs, List.mem_cons, List.not_mem_nil, or_false, not_or] at h
  obtain ⟨hst, h0, h1, h2, h3, h4⟩ := h
  have hpll : ∀ n, n < 5 → a ≠ Reg.CLK_PLL_CTRL n := by
    intro n hn
    match n, hn with
    | 0, _ => exact h0
    | 1, _ => exact h1
    | 2, _ => exact h2
    | 3, _ => exact h3
    | 4, _ => exact h4
  unfold showClocks
  rw [rd_forN_lt (fun n hn t => rd_setPll hst (hpll n hn) _ t)]
  rw [rd_fset_ne _ _ _ _ hst, rd_fset_ne _ _ _ _ hst, rd_fset_ne _ _ _ _ hst]

/-- Registers that show no unit's state: those of the units' own status apart. -/
def ShowsNoUnit (a : Nat) : Prop := ∀ n, n < 32 → a ≠ Reg.CHE_STATUS n ∧ a ≠ Reg.MAT_STATUS n ∧ a ≠ Reg.CMP_STATUS n

theorem showsNoUnit_of {a : Nat} (h : a < 0x44000000 ∨ 0x47000000 ≤ a) : ShowsNoUnit a := by
  intro n hn
  simp only [Reg.CHE_STATUS, Reg.MAT_STATUS, Reg.CMP_STATUS]
  omega

theorem rd_showUnit {a : Nat} {f : Fld} (h : a ≠ f.addr) (pd : Nat) (gone : Bool) (s : State) : rd a (showUnit f pd gone s) = rd a s := by
  unfold showUnit fsetTo
  split
  · rfl
  · split
    · split
      · rfl
      · exact rd_fset_ne _ _ _ _ h
    · split
      · exact rd_fset_ne _ _ _ _ h
      · rfl

theorem rd_showUnits {a : Nat} (h : ShowsNoUnit a) (s : State) : rd a (showUnits s) = rd a s := by
  unfold showUnits
  rw [rd_forN_lt (fun n hn t => rd_showUnit (h n (by omega)).2.2 _ _ t), rd_forN_lt (fun n hn t => rd_showUnit (h n (by omega)).2.1 _ _ t),
    rd_forN_lt (fun n hn t => rd_showUnit (h n hn).1 _ _ t)]

/-- The registers that a change of power domains writes, but for the units' status. -/
def powerRegs : List Nat := Reg.AON_PD_ON_LO :: Reg.AON_PD_ON_HI :: clockRegs

theorem rd_setDomains {a : Nat} (h : ShowsNoUnit a) (hlo : a ≠ Reg.AON_PD_ON_LO) (hhi : a ≠ Reg.AON_PD_ON_HI) (mask : Nat) (s : State) :
    rd a (setDomains mask s) = rd a s := by
  unfold setDomains
  rw [rd_showUnits h, rd_wr_ne _ _ hhi, rd_wr_ne _ _ hlo]

theorem rd_setPower {a : Nat} (h : ShowsNoUnit a) (ha : a ∉ powerRegs) (mask : Nat) (s : State) : rd a (setPower mask s) = rd a s := by
  simp only [powerRegs, List.mem_cons, not_or] at ha
  obtain ⟨hlo, hhi, hclk⟩ := ha
  unfold setPower
  rw [rd_showClocks hclk, rd_setDomains h hlo hhi]

theorem mode_setPower (mask : Nat) (s : State) : mode (setPower mask s) = mode s :=
  mode_congr (rd_setPower (showsNoUnit_of (.inl (by decide))) (by decide) mask s)

theorem mode_goMode {m : Nat} (hm : m < 16) (s : State) : mode (goMode m s) = m := by
  unfold goMode
  rw [mode_setPower, mode_enterMode hm]

theorem rd_goMode {a : Nat} (h : ShowsNoUnit a) (ha : a ∉ powerRegs) (hp : a ∉ pbkRegs) (hm : a ≠ Reg.AON_MODE) (m : Nat) (s : State) :
    rd a (goMode m s) = rd a s := by
  unfold goMode
  rw [rd_setPower h ha, rd_enterMode hp hm]

theorem roCause_goMode (m : Nat) (s : State) : fget Fl.AON_MODE_RO_CAUSE (goMode m s) = fget Fl.AON_MODE_RO_CAUSE s := by
  unfold goMode
  exact (fget_of_rd (rd_setPower (showsNoUnit_of (.inl (by decide))) (by decide) _ _)).trans (roCause_enterMode m s)

@[simp] theorem goMode_pow (m : Nat) (s : State) : (goMode m s).pow = s.pow := (goMode_keeps m (Keeps.refl s) (Sub.refl 33)).only.pow rfl

theorem mode_of_low {s t : State} (h : LowKept s t) : mode t = mode s := mode_congr (h _ (by decide))

end Sys2Proof.Machine
end

section
/-! Statement O2: the start of brace and what joins it (R46–R51, R54). -/

namespace Sys2Proof.Machine

/-! ### Debug halts that brace releases leave the input's level (R60) -/

theorem settleReadOnly_pfailLow (s : State) : (settleReadOnly s).pow.pfailLow = s.pow.pfailLow := by
  unfold settleReadOnly
  split
  · have hgo : ∀ t, (goReadOnly t).pow = t.pow := fun t => (goReadOnly_keeps (Keeps.refl t) (Sub.refl 4194465)).only.pow rfl
    rw [hgo]
    unfold failSanitize
    split <;> rfl
  · rfl

theorem haltMode_pfailLow (s : State) : (haltMode s).pow.pfailLow = s.pow.pfailLow := by
  unfold haltMode
  dsimp only
  split
  · rw [enterMode_pow]
  · split
    · have hpost : ∀ t, (postWithheld t).pow = t.pow := fun t => (postWithheld_keeps (Keeps.refl t) (Sub.refl 4194465)).only.pow rfl
      rw [settleReadOnly_pfailLow, hpost, enterMode_pow]
    · rfl

theorem resumeCore_pfailLow (k : Nat) (s : State) : (resumeCore k s).pow.pfailLow = s.pow.pfailLow := by
  have hcore : ∀ c t, (setCore k c t).pow = t.pow := fun c t => (setCore_keeps k c (Keeps.refl t) (Sub.refl 524289)).only.pow rfl
  have hmark : ∀ args t, (postmark 0x1381 0x13 args t).pow = t.pow :=
    fun args t => (postmark_keeps _ _ args (Keeps.refl t) (Sub.refl 33)).only.pow rfl
  unfold resumeCore
  split
  · dsimp only
    rw [haltMode_pfailLow, hmark, hcore]
    rfl
  · rfl

theorem releaseHalts_pfailLow (s : State) : (releaseHalts s).pow.pfailLow = s.pow.pfailLow := by
  have hmark : ∀ args t, (postmark 0x1383 0x13 args t).pow = t.pow :=
    fun args t => (postmark_keeps _ _ args (Keeps.refl t) (Sub.refl 33)).only.pow rfl
  have hpoints : ∀ k t, (clearPoints k t).pow = t.pow := fun k t => (clearPoints_keeps k (Keeps.refl t) (Sub.refl 1)).only.pow rfl
  have hall : ∀ n, (forN (fun k t => clearPoints k (resumeCore k t)) n s).pow.pfailLow = s.pow.pfailLow := by
    intro n
    induction n with
    | zero => rfl
    | succ n ih =>
      change (clearPoints n (resumeCore n _)).pow.pfailLow = _
      rw [hpoints, resumeCore_pfailLow, ih]
  unfold releaseHalts
  dsimp only
  split
  · rw [hmark]
    exact hall 77
  · exact hall 77

theorem abandonBankTest_pfailLow (s : State) : (abandonBankTest s).pow.pfailLow = s.pow.pfailLow := by
  have hmark : ∀ t, (otherPostmark 0x01 0 Reg.PWR_CAP_CTRL 0 44 t).pow = t.pow :=
    fun t => (otherPostmark_keeps _ _ _ _ _ (Keeps.refl t) (Sub.refl 33)).only.pow rfl
  unfold abandonBankTest
  split
  · dsimp only
    rw [hmark]
    rfl
  · rfl

/-! ### Brace begins (R46, R48) -/

/-- The mode that brace came from, or the one that Halt was entered from. -/
def braceResume (s : State) : Nat := if mode s = 0xB then s.pow.haltFrom else mode s

/-- What brace notes of the mode it interrupts. -/
def braceNoted (byPfail : Bool) (s : State) : State :=
  let s1 := releaseHalts (abandonBankTest s)
  { s1 with pow := { s1.pow with
      braceFrom := braceResume s
      fromMode := mode s
      heldTarget := fget Fl.AON_MODE_TARGET s
      heldTrans := fget Fl.AON_MODE_TRANS s == 1
      braceDone := braceNoWork (braceResume s)
      pfailInBrace := byPfail || pfailActs s
      sealDue := false
      byHold := false
      sealStep := 0
      commits := Nat.min (s.pow.commits + 1) 0xFFFFFFFF } }

/-- Brace is under way: the mode, the phase, the causes and the event. -/
def braceBegun (byPfail : Bool) (s : State) : State :=
  braceNoted byPfail s |> enterMode 8 |> showClocks
    |> fset Fl.PWR_COMMIT_STATE_PHASE 1
    |> fset Fl.PWR_COMMIT_STATE_CAUSE_VWARN (if byPfail then 0 else 1)
    |> fset Fl.PWR_COMMIT_STATE_CAUSE_PFAIL (if byPfail || pfailActs s then 1 else 0)
    |> fset Fl.PWR_COMMIT_STATE_CAUSE_BROWNOUT 0
    |> raiseEvent 0x01 0 Fl.PWR_EVENT_BRACE

theorem enterBrace_eq (byPfail : Bool) (s : State) :
    enterBrace byPfail s = (if braceNoWork (braceResume s) then fun t => t else journalFlush)
      (braceBlocks ((if mode s = 3 then riseFault 8 else fun t => t) (braceBegun byPfail s))) := rfl

theorem braceNoWork_eq (m : Nat) : braceNoWork m = [1, 2, 3, 7].contains m := by
  unfold braceNoWork
  simp only [List.contains_cons, List.contains_nil, Bool.or_false, Bool.or_assoc]

section
variable (byPfail : Bool) (s : State)

theorem mode_braceBegun : mode (braceBegun byPfail s) = 8 := by
  unfold braceBegun
  refine (mode_congr ?_).trans (mode_enterMode (by decide) (braceNoted byPfail s))
  rw [rd_raiseEvent_ne _ _ _ _ _ (by decide) (by decide), rd_fset_ne _ _ _ _ (by decide), rd_fset_ne _ _ _ _ (by decide),
    rd_fset_ne _ _ _ _ (by decide), rd_fset_ne _ _ _ _ (by decide), rd_showClocks (by decide)]

theorem braceBegun_event : fget Fl.PWR_EVENT_BRACE (braceBegun byPfail s) = 1 := fget_raiseEvent_self _ _ _ _ (by decide) rfl (by decide)

/-- A field of the register that tells the state of Commit, once the event is raised. -/
theorem fget_braceBegun {f : Fld} (hf : f.addr = Reg.PWR_COMMIT_STATE) :
    fget f (braceBegun byPfail s) = fget f (braceNoted byPfail s |> enterMode 8 |> showClocks
      |> fset Fl.PWR_COMMIT_STATE_PHASE 1
      |> fset Fl.PWR_COMMIT_STATE_CAUSE_VWARN (if byPfail then 0 else 1)
      |> fset Fl.PWR_COMMIT_STATE_CAUSE_PFAIL (if byPfail || pfailActs s then 1 else 0)
      |> fset Fl.PWR_COMMIT_STATE_CAUSE_BROWNOUT 0) :=
  fget_of_rd (rd_raiseEvent_ne _ _ _ _ _ (by rw [hf]; decide) (by rw [hf]; decide))

theorem braceBegun_commit :
    fget Fl.PWR_COMMIT_STATE_PHASE (braceBegun byPfail s) = 1 ∧
      fget Fl.PWR_COMMIT_STATE_CAUSE_VWARN (braceBegun byPfail s) = (if byPfail then 0 else 1) ∧
      fget Fl.PWR_COMMIT_STATE_CAUSE_PFAIL (braceBegun byPfail s) = (if byPfail || pfailActs s then 1 else 0) ∧
      fget Fl.PWR_COMMIT_STATE_CAUSE_BROWNOUT (braceBegun byPfail s) = 0 := by
  refine ⟨(fget_braceBegun byPfail s rfl).trans ?_, (fget_braceBegun byPfail s rfl).trans ?_, (fget_braceBegun byPfail s rfl).trans ?_,
    (fget_braceBegun byPfail s rfl).trans ?_⟩
  · rw [fget_fset_ne _ _ _ _ (.inr (.inr (by decide))), fget_fset_ne _ _ _ _ (.inr (.inr (by decide))),
      fget_fset_ne _ _ _ _ (.inr (.inr (by decide))), fget_fset_self _ _ _ (by decide)]
    rfl
  · rw [fget_fset_ne _ _ _ _ (.inr (.inr (by decide))), fget_fset_ne _ _ _ _ (.inr (.inr (by decide))), fget_fset_self _ _ _ (by decide)]
    cases byPfail <;> rfl
  · rw [fget_fset_ne _ _ _ _ (.inr (.inr (by decide))), fget_fset_self _ _ _ (by decide)]
    cases byPfail || pfailActs s <;> rfl
  · rw [fget_fset_self _ _ _ (by decide)]
    rfl

theorem braceBegun_pow : (braceBegun byPfail s).pow = (braceNoted byPfail s).pow := by
  have hclocks : ∀ t, (showClocks t).pow = t.pow := fun t => (showClocks_keeps (Keeps.refl t) (Sub.refl 1)).only.pow rfl
  have hevent : ∀ t, (raiseEvent 0x01 0 Fl.PWR_EVENT_BRACE t).pow = t.pow :=
    fun t => (raiseEvent_keeps _ _ _ (Keeps.refl t) (Sub.refl 33)).only.pow rfl
  unfold braceBegun
  rw [hevent]
  change (showClocks _).pow = _
  rw [hclocks, enterMode_pow]

/-- Channels, letters and the journal take part in brace without writing power's own registers or parts. -/
theorem enterBrace_rest :
    LowKept (braceBegun byPfail s) (enterBrace byPfail s) ∧ (enterBrace byPfail s).pow = (braceNoted byPfail s).pow ∧
      (enterBrace byPfail s).nv.brace = true := by
  have hblocks : ∀ t, (braceBlocks t).nv.brace = true := by
    intro t
    have hchans : ∀ u, (forN braceChan 32 u).nv = u.nv := fun u =>
      (forN_keeps (M := 513) (Keeps.refl u) (fun i v => braceChan_keeps i (Keeps.refl v) (Sub.refl 513))).only.nv rfl
    have hreads : ∀ u, (cancelPreReads (fun r => !r.atDie) u).nv = u.nv := fun u =>
      (cancelPreReads_keeps _ (Keeps.refl u) (Sub.refl 262657)).only.nv rfl
    unfold braceBlocks
    dsimp only
    rw [(schBrace_keeps (Keeps.refl _) (Sub.refl 1)).only.nv rfl]
    change (cancelPreReads _ _).nv.brace = true
    rw [hreads, hchans]
  have hflush : ∀ t, (journalFlush t).pow = t.pow ∧ (journalFlush t).nv = t.nv := fun t =>
    ⟨(journalFlush_keeps (Keeps.refl t) (Sub.refl 769)).only.pow rfl, (journalFlush_keeps (Keeps.refl t) (Sub.refl 769)).only.nv rfl⟩
  have hfault : ∀ t, LowKept t ((if mode s = 3 then riseFault 8 else fun t => t) t) ∧
      ((if mode s = 3 then riseFault 8 else fun t => t) t).pow = t.pow := by
    intro t
    split
    · exact ⟨postmark_low _ _ _ (LowKept.refl t), (riseFault_keeps 8 (Keeps.refl t) (Sub.refl 33)).only.pow rfl⟩
    · exact ⟨LowKept.refl t, rfl⟩
  obtain ⟨hlow, hpow⟩ := hfault (braceBegun byPfail s)
  rw [enterBrace_eq]
  generalize (if mode s = 3 then riseFault 8 else fun t => t) (braceBegun byPfail s) = u at hlow hpow
  have hbpow : (braceBlocks u).pow = (braceNoted byPfail s).pow :=
    ((braceBlocks_keeps (Keeps.refl u) (Sub.refl 4458145)).only.pow rfl).trans (hpow.trans (braceBegun_pow byPfail s))
  split
  · exact ⟨braceBlocks_low hlow, hbpow, hblocks u⟩
  · exact ⟨journalFlush_low (braceBlocks_low hlow), (hflush _).1.trans hbpow, by rw [(hflush _).2]; exact hblocks u⟩

/-- What brace leaves, however it starts. -/
theorem enterBrace_begun :
    mode (enterBrace byPfail s) = 8 ∧ fget Fl.PWR_COMMIT_STATE_PHASE (enterBrace byPfail s) = 1 ∧
      fget Fl.PWR_COMMIT_STATE_CAUSE_VWARN (enterBrace byPfail s) = (if byPfail then 0 else 1) ∧
      fget Fl.PWR_COMMIT_STATE_CAUSE_PFAIL (enterBrace byPfail s) = (if byPfail || pfailActs s then 1 else 0) ∧
      fget Fl.PWR_COMMIT_STATE_CAUSE_BROWNOUT (enterBrace byPfail s) = 0 ∧ fget Fl.PWR_EVENT_BRACE (enterBrace byPfail s) = 1 := by
  obtain ⟨hlow, -, -⟩ := enterBrace_rest byPfail s
  obtain ⟨hphase, hvwarn, hpfail, hbrown⟩ := braceBegun_commit byPfail s
  have hfield : ∀ f : Fld, f.addr < 0x40040000 → fget f (enterBrace byPfail s) = fget f (braceBegun byPfail s) := fun f hf => fget_of_rd (hlow _ hf)
  exact ⟨(mode_of_low hlow).trans (mode_braceBegun byPfail s), (hfield _ (by decide)).trans hphase, (hfield _ (by decide)).trans hvwarn,
    (hfield _ (by decide)).trans hpfail, (hfield _ (by decide)).trans hbrown, (hfield _ (by decide)).trans (braceBegun_event byPfail s)⟩

end

/-! ### Wake from Keep (R54) -/

/-- Rise has begun: the mode, the domains of its first stage and the registers that tell of the last Rise. -/
def riseBegun (s : State) : State :=
  reportCommit { s with pow := { s.pow with afterSeal := .none, riseStep := .qualified, slotFallbacks := 0, pllWatch := false, faultWatch := false } }
    |> enterMode 3 |> setPower 0x800000187
    |> forN (fun n => fset (Fl.CLK_PLL_CTRL_LOSS_COUNT n) 0) 5
    |> fset Fl.PWR_STATUS_CHG_ON 1
    |> fset Fl.AON_RISE_LAST_SLOT_FALLBACK 0 |> fset Fl.AON_RISE_LAST_LATE 0

theorem rd_riseBegun {a : Nat} (h : a < 0x40010000) (hp : a ≠ Reg.AON_PD_ON_LO ∧ a ≠ Reg.AON_PD_ON_HI ∧ a ≠ Reg.AON_RISE_LAST) (s : State) :
    rd a (riseBegun s) = rd a (enterMode 3 (reportCommit { s with pow := { s.pow with
      afterSeal := .none, riseStep := .qualified, slotFallbacks := 0, pllWatch := false, faultWatch := false } })) := by
  obtain ⟨hlo, hhi, hlast⟩ := hp
  have hpow : a ∉ powerRegs := by
    simp only [powerRegs, clockRegs, Reg.CLK_STATUS, Reg.CLK_PLL_CTRL, List.mem_cons, List.not_mem_nil, or_false, not_or]
    exact ⟨hlo, hhi, by omega, by omega, by omega, by omega, by omega, by omega⟩
  unfold riseBegun
  rw [rd_fset_ne _ _ _ _ hlast, rd_fset_ne _ _ _ _ hlast, rd_fset_ne _ _ _ _ (by simp only [Fl.PWR_STATUS_CHG_ON, Reg.PWR_STATUS]; omega),
    rd_forN (fun n t => rd_fset_ne _ _ _ _ (by simp only [Fl.CLK_PLL_CTRL_LOSS_COUNT, Reg.CLK_PLL_CTRL]; omega)),
    rd_setPower (showsNoUnit_of (.inl (by omega))) hpow]

theorem rd_reportCommit {a : Nat} (h : a ∉ pbkRegs) (s : State) : rd a (reportCommit s) = rd a s := by
  unfold reportCommit
  split
  · exact rd_postmark _ _ _ _ _ h
  · rfl

theorem reportCommit_pow (s : State) :
    (reportCommit s).pow.riseStep = s.pow.riseStep ∧ (reportCommit s).pow.pfailLow = s.pow.pfailLow := by
  have hmark : ∀ args t, (postmark 0x0283 0x02 args t).pow = t.pow :=
    fun args t => (postmark_keeps _ _ args (Keeps.refl t) (Sub.refl 33)).only.pow rfl
  unfold reportCommit
  split
  · rw [hmark]
    exact ⟨rfl, rfl⟩
  · exact ⟨rfl, rfl⟩

theorem riseBegun_pow (s : State) : (riseBegun s).pow.riseStep = .qualified ∧ (riseBegun s).pow.pfailLow = s.pow.pfailLow := by
  have hpower : ∀ m t, (setPower m t).pow = t.pow := fun m t => (setPower_keeps m (Keeps.refl t) (Sub.refl 1)).only.pow rfl
  have hloss : ∀ n t, (forN (fun n => fset (Fl.CLK_PLL_CTRL_LOSS_COUNT n) 0) n t).pow = t.pow := fun n t =>
    (forN_keeps (M := 1) (Keeps.refl t) (fun i u => fset_keeps _ _ (Keeps.refl u) (Sub.refl 1))).only.pow rfl
  obtain ⟨hrise, hlow⟩ := reportCommit_pow { s with pow := { s.pow with
    afterSeal := .none, riseStep := .qualified, slotFallbacks := 0, pllWatch := false, faultWatch := false } }
  unfold riseBegun
  rw [fset_pow, fset_pow, fset_pow, hloss, hpower, enterMode_pow]
  exact ⟨hrise, hlow⟩

theorem startRise_eq (s : State) : startRise s =
    mgtStart (pdOn 1 s) (bootFirmware (hostRise (riseBegun s))) := rfl

theorem startRise_woken (s : State) :
    mode (startRise s) = 3 ∧ (startRise s).pow.riseStep = .qualified ∧ (startRise s).pow.pfailLow = s.pow.pfailLow ∧
      rd Reg.AON_WAKE_SRC (startRise s) = rd Reg.AON_WAKE_SRC s := by
  have hlow : LowKept (riseBegun s) (startRise s) :=
    mgtStart_low ((hostRise_low (LowKept.refl _)).of_keeps (bootFirmware_keeps (Keeps.refl _) (Sub.refl 4194304)) rfl) _
  have hpow : (startRise s).pow = (riseBegun s).pow :=
    ((mgtStart_keeps _ (Keeps.refl _) (Sub.refl 4718593)).only.pow rfl).trans
      (((bootFirmware_keeps (Keeps.refl _) (Sub.refl 4194304)).only.pow rfl).trans ((hostRise_keeps (Keeps.refl _) (Sub.refl 129)).only.pow rfl))
  rw [hpow]
  refine ⟨?_, (riseBegun_pow s).1, (riseBegun_pow s).2, ?_⟩
  · rw [mode_of_low hlow, mode_congr (rd_riseBegun (by decide) (by decide) s), mode_enterMode (by decide)]
  · rw [hlow _ (by decide), rd_riseBegun (by decide) (by decide), rd_enterMode (by decide) (by decide), rd_reportCommit (by decide)]
    rfl

theorem goWatch_watches (s : State) : mode (goWatch s) = 2 ∧ (goWatch s).pow.pfailLow = s.pow.pfailLow := by
  have hstart : ∀ b t, (mgtStart b t).pow = t.pow := fun b t => (mgtStart_keeps b (Keeps.refl t) (Sub.refl 4718593)).only.pow rfl
  have hclear : ∀ t, (watchClear t).pow = t.pow := fun t => (watchClear_keeps (Keeps.refl t) (Sub.refl 67108775)).only.pow rfl
  unfold goWatch
  refine ⟨(mode_of_low (mgtStart_low (LowKept.refl _) _)).trans (mode_goMode (by decide) _), ?_⟩
  dsimp only
  rw [hstart, goMode_pow, hclear]

/-- Settles O2: the fields of Commit once brace has begun, and the frames of what follows. -/
theorem braceStarts : Obligations.BraceStarts := by
  unfold Obligations.BraceStarts
  intro s resumes
  refine ⟨?warn, ?pfail, ?disabled, ?warnInBrace, ?pfailInBrace, ?released, ?woken⟩
  case warn =>
    intro h0 h8 hlow
    have hrow : exec .vbusWarn s = .next (enterBrace false s) := by
      change execVbusWarn s = _
      unfold execVbusWarn
      rw [if_neg h0, if_neg h8]
    have hacts : pfailActs s = false := by unfold pfailActs; rw [hlow]; rfl
    obtain ⟨hmode, hphase, hvwarn, hpfail, hbrown, hevent⟩ := enterBrace_begun false s
    obtain ⟨-, hpow, hbrace⟩ := enterBrace_rest false s
    rw [hacts] at hpfail
    refine ⟨_, hrow, hmode, hphase, hvwarn, hpfail, hbrown, hevent, ?_⟩
    rw [hpow]
    refine ⟨rfl, rfl, ?_, ?_, hbrace⟩
    · change (false || pfailActs s) = false
      rw [hacts]
      rfl
    · exact braceNoWork_eq (braceResume s)
  case pfail =>
    intro h0 h8 hen
    have hrow : exec .pfailAssert s = .next (enterBrace true { s with pow := { s.pow with pfailLow := true } }) := by
      change execPfailAssert s = _
      unfold execPfailAssert
      dsimp only
      rw [if_neg (by omega), if_neg h8]
    obtain ⟨hmode, hphase, hvwarn, hpfail, -, hevent⟩ := enterBrace_begun true { s with pow := { s.pow with pfailLow := true } }
    obtain ⟨-, hpow, -⟩ := enterBrace_rest true { s with pow := { s.pow with pfailLow := true } }
    refine ⟨_, hrow, hmode, hphase, hvwarn, hpfail, hevent, ?_⟩
    rw [hpow]
    refine ⟨rfl, rfl, ?_⟩
    exact (releaseHalts_pfailLow _).trans (abandonBankTest_pfailLow _)
  case disabled =>
    intro hen
    refine ⟨_, ?_, rfl⟩
    change execPfailAssert s = _
    unfold execPfailAssert
    exact if_pos (.inl hen)
  case warnInBrace =>
    intro h8 hphase
    refine ⟨fset Fl.PWR_COMMIT_STATE_CAUSE_VWARN 1 s, ?_, ?_, rfl, fun a ha => rd_fset_ne _ _ _ _ (fun e => ha (List.mem_singleton.mpr e))⟩
    · change execVbusWarn s = _
      unfold execVbusWarn
      rw [if_neg (by omega), if_pos h8, if_pos hphase]
    · rw [fget_fset_self _ _ _ (by decide)]
      rfl
  case pfailInBrace =>
    intro h8 hphase hen
    refine ⟨fset Fl.PWR_COMMIT_STATE_CAUSE_PFAIL 1 { s with pow := { s.pow with pfailLow := true, pfailInBrace := true } }, ?_, ?_, rfl⟩
    · change execPfailAssert s = _
      unfold execPfailAssert
      dsimp only
      rw [if_neg (by omega), if_pos h8, if_pos hphase]
    · rw [fget_fset_self _ _ _ (by decide)]
      rfl
  case released =>
    intro h
    refine ⟨_, ?_, rfl⟩
    change execPfailDeassert s = _
    unfold execPfailDeassert
    exact if_neg h
  case woken =>
    intro hseal hmode
    have hrow : exec .pfailDeassert s = .next (wakeToRise (fset Fl.AON_WAKE_SRC_PFAIL 1 { s with pow := { s.pow with pfailLow := false } })) := by
      change execPfailDeassert s = _
      unfold execPfailDeassert
      exact if_pos ⟨hseal, hmode⟩
    refine ⟨fun hdis => ?_, fun hdis => ?_⟩
    · have hwake : wakeToRise (fset Fl.AON_WAKE_SRC_PFAIL 1 { s with pow := { s.pow with pfailLow := false } }) =
          startRise (fset Fl.AON_WAKE_SRC_PFAIL 1 { s with pow := { s.pow with pfailLow := false } }) := if_neg (by simp [hdis])
      rw [hwake] at hrow
      obtain ⟨hm, hstep, hlow, hsrc⟩ := startRise_woken (fset Fl.AON_WAKE_SRC_PFAIL 1 { s with pow := { s.pow with pfailLow := false } })
      refine ⟨_, hrow, hm, hstep, hlow, (fget_of_rd hsrc).trans ?_⟩
      rw [fget_fset_self _ _ _ (by decide)]
      rfl
    · have hwake : wakeToRise (fset Fl.AON_WAKE_SRC_PFAIL 1 { s with pow := { s.pow with pfailLow := false } }) =
          goWatch (fset Fl.AON_WAKE_SRC_PFAIL 1 { s with pow := { s.pow with pfailLow := false } }) := if_pos hdis
      rw [hwake] at hrow
      exact ⟨_, hrow, goWatch_watches _⟩

end Sys2Proof.Machine
end

section
/-! Idle and clocks (R16, R64–R71): power states, entry and wake, and what the loss of a PLL's lock and a retired core leave. -/

namespace Sys2Proof.Machine

/-! ### Operations of the serving modes do nothing in idle -/

theorem haltMode_idle {s : State} (h : mode s = 6 ∨ mode s = 7) : haltMode s = s := by
  unfold haltMode
  dsimp only
  rw [if_neg (by rcases h with h | h <;> simp [h]), if_neg (by rcases h with h | h <;> simp [h])]

theorem settleReadOnly_idle {s : State} (h : mode s = 6 ∨ mode s = 7) : settleReadOnly s = s := by
  unfold settleReadOnly readOnlyDue
  rw [if_neg (by rcases h with h | h <;> simp [h])]

theorem settleReadOnly_noCause {s : State} (h : fget Fl.AON_MODE_RO_CAUSE s = 0) : settleReadOnly s = s := by
  unfold settleReadOnly readOnlyDue
  rw [if_neg (by simp [h])]

theorem serveWaiting_none {s : State} (h : s.pow.waiting = []) : serveWaiting s = s := by
  unfold serveWaiting
  dsimp only
  rw [h]
  rfl

/-! ### Power states (R64, R65) -/

@[simp] theorem applyPowerState_pow (s : State) : (applyPowerState s).pow = s.pow :=
  (applyPowerState_keeps (Keeps.refl s) (Sub.refl 33)).only.pow rfl

theorem judgeIdle_pow (s : State) : (judgeIdle s).pow = { s.pow with idleOk := idleNow s, deepOk := deepNow s } := by
  unfold judgeIdle
  dsimp only
  rw [applyPowerState_pow]
  split <;> rfl

theorem setRequested_auto {c ps : Nat} {x : Ctrl} {s : State} (hx : ctrlAt c s = some x) :
    ctrlAt c (setRequested c ps true s) = some { x with reqPs := ps } := by
  unfold setRequested
  rw [ctrlAt_congr (s := updCtrl c (fun x => { x with reqPs := ps, setPs := if true then x.setPs else ps }) s) (by rw [applyPowerState_nv]),
    ctrlAt_updCtrl_self, hx]
  rfl

/-! ### Entry to idle (R66, R69, R162) -/

/-- The state in which an entry to idle has begun. -/
def entryBegun (deep : Bool) (s : State) : State :=
  beginTransition (if deep then 7 else 6) { s with pow := { s.pow with idleWait := some deep } }

section
variable (deep : Bool) (s : State)

theorem rd_entryBegun {a : Nat} (h : a ≠ Reg.AON_MODE) : rd a (entryBegun deep s) = rd a s := by
  unfold entryBegun beginTransition
  rw [rd_fset_ne _ _ _ _ h, rd_fset_ne _ _ _ _ h]
  rfl

theorem mode_entryBegun : mode (entryBegun deep s) = mode s := by
  unfold mode entryBegun beginTransition
  rw [fget_fset_ne _ _ _ _ (.inr (.inr (by decide))), fget_fset_ne _ _ _ _ (.inr (.inr (by decide)))]
  rfl

theorem trans_entryBegun : fget Fl.AON_MODE_TRANS (entryBegun deep s) = 1 := by
  unfold entryBegun beginTransition
  rw [fget_fset_self _ _ _ (by decide)]
  rfl

theorem target_entryBegun : fget Fl.AON_MODE_TARGET (entryBegun deep s) = if deep then 7 else 6 := by
  unfold entryBegun beginTransition
  rw [fget_fset_ne _ _ _ _ (.inr (.inr (by decide))), fget_fset_self _ _ _ (by decide)]
  cases deep <;> rfl

theorem psInEffect_entryBegun : psInEffect (entryBegun deep s) = psInEffect s := rfl

theorem idleDue_entryBegun : idleDue deep (entryBegun deep s) = idleDue deep s := by
  unfold idleDue
  rw [mode_entryBegun, psInEffect_entryBegun]

end

/-- An entry that is asked for begins. -/
theorem idleEntry_begins {deep : Bool} {s : State} (ht : fget Fl.AON_MODE_TRANS s = 0) (hd : idleDue deep s = true) :
    exec (.idleEntry deep) s = .next (idleAdvance (entryBegun deep s)) := by
  change execIdleEntry deep s = _
  unfold execIdleEntry
  rw [if_neg (by omega), if_pos hd]
  rfl

theorem idleDue_mode {deep : Bool} {s : State} (hd : idleDue deep s = true) : mode s = 4 ∨ mode s = 5 ∨ mode s = 6 := by
  unfold idleDue at hd
  split at hd
  · simp only [Bool.and_eq_true, Bool.or_eq_true, beq_iff_eq] at hd
    omega
  · simp only [Bool.and_eq_true, Bool.or_eq_true, beq_iff_eq] at hd
    omega

/-- An entry that has begun completes while no die operation runs, and waits while one does. -/
theorem idleAdvance_begun {deep : Bool} {s : State} (hd : idleDue deep s = true) :
    idleAdvance (entryBegun deep s) = if dieBusy s then resumeAll (entryBegun deep s)
      else settleReadOnly (haltMode (serveWaiting (idleEnter deep (entryBegun deep s)))) := by
  have hwait : (entryBegun deep s).pow.idleWait = some deep := rfl
  have hmode := idleDue_mode hd
  have htrans := trans_entryBegun deep s
  have hm := mode_entryBegun deep s
  unfold idleAdvance
  rw [hwait]
  dsimp only
  rw [if_neg (by omega), if_neg (by rw [idleDue_entryBegun, hd]; decide)]
  rfl

theorem idleEnter_waiting (deep : Bool) (s : State) : (idleEnter deep s).pow.waiting = s.pow.waiting ∧
    (idleEnter deep s).pow.idleFrom = if mode s = 6 then s.pow.idleFrom else mode s := by
  have hflush : ∀ t, (idleDeepSave (ftlFlushAndCheckpoint t)).pow = t.pow := fun t =>
    ((idleDeepSave_keeps (Keeps.refl _) (Sub.refl 37228547)).only.pow rfl).trans
      ((ftlFlushAndCheckpoint_keeps (Keeps.refl t) (Sub.refl 4459429)).only.pow rfl)
  unfold idleEnter
  dsimp only
  split
  · rw [goMode_pow, hflush]
    exact ⟨rfl, rfl⟩
  · rw [goMode_pow]
    exact ⟨rfl, rfl⟩

theorem mode_idleEnter (deep : Bool) (s : State) : mode (idleEnter deep s) = if deep then 7 else 6 := by
  unfold idleEnter
  cases deep with
  | true => exact mode_goMode (by decide) _
  | false => exact mode_goMode (by decide) _

/-- With no die busy and nothing waiting, an entry to idle is complete at once. -/
theorem idleEntry_completes {deep : Bool} {s : State} (ht : fget Fl.AON_MODE_TRANS s = 0) (hw : s.pow.waiting = []) (hb : dieBusy s = false)
    (hd : idleDue deep s = true) : exec (.idleEntry deep) s = .next (idleEnter deep (entryBegun deep s)) := by
  have hmode : mode (idleEnter deep (entryBegun deep s)) = 6 ∨ mode (idleEnter deep (entryBegun deep s)) = 7 := by
    rw [mode_idleEnter]
    cases deep <;> simp
  have hnone : (idleEnter deep (entryBegun deep s)).pow.waiting = [] := (idleEnter_waiting deep (entryBegun deep s)).1.trans hw
  rw [idleEntry_begins ht hd, idleAdvance_begun hd, hb, if_neg (by decide), serveWaiting_none hnone,
    haltMode_idle hmode, settleReadOnly_idle hmode]

/-- Idle-Shallow notes in the delay wake counter the time to the earliest letter's due tick (R66). -/
theorem idleEnter_delay (s : State) :
    (rd Reg.AON_DELAY_WAKE (idleEnter false s)).toNat = schEarliest s * 32768 / 1000000 % 2 ^ 32 := by
  have hlt : schEarliest s * 32768 / 1000000 % 2 ^ 32 < 2 ^ 64 := lt_of_lt_of_le (Nat.mod_lt _ (by decide)) (by decide)
  unfold idleEnter
  dsimp only
  rw [if_neg (by decide), rd_goMode (showsNoUnit_of (.inl (by decide))) (by decide) (by decide) (by decide), rd_wr_self, BitVec.toNat_ofNat,
    Nat.mod_eq_of_lt]
  · rfl
  · exact hlt

/-! ### The domains of a mode (R16) -/

theorem retiredMask_testBit {n : Nat} (hn : n < 40) (s : State) : (retiredMask s).testBit n = pdRetired n s := by
  unfold retiredMask pdRetired
  rw [Nat.add_comm, Nat.testBit_two_pow_mul_add _ (BitVec.isLt _)]
  split
  case isTrue h => rw [BitVec.testBit_toNat, BitVec.getLsbD_extractLsb', decide_eq_true h, Bool.true_and, Nat.zero_add]
  case isFalse h =>
    rw [BitVec.testBit_toNat, BitVec.getLsbD_extractLsb', decide_eq_true (by omega : n - 32 < 8), Bool.true_and, Nat.zero_add]

/-- After a change of domains, those are on that are asked for and not retired. -/
theorem pdOn_setDomains {n : Nat} (hn : n < 40) (mask : Nat) (s : State) :
    pdOn n (setDomains mask s) = (mask.testBit n && !pdRetired n s) := by
  have hbit : (BitVec.ofNat 40 mask &&& ~~~(BitVec.ofNat 40 (retiredMask s))).getLsbD n = (mask.testBit n && !pdRetired n s) := by
    rw [BitVec.getLsbD_and, BitVec.getLsbD_not, BitVec.getLsbD_ofNat, BitVec.getLsbD_ofNat, retiredMask_testBit hn, decide_eq_true hn,
      Bool.true_and, Bool.true_and, Bool.true_and]
  unfold pdOn setDomains
  dsimp only
  rw [rd_showUnits (showsNoUnit_of (.inl (by decide))), rd_showUnits (showsNoUnit_of (.inl (by decide))), rd_wr_self,
    rd_wr_ne _ _ (by decide), rd_wr_self, ← hbit]
  split
  case isTrue h =>
    rw [BitVec.getLsbD_setWidth, BitVec.getLsbD_extractLsb', decide_eq_true h, decide_eq_true (by omega : n < 64), Bool.true_and, Bool.true_and,
      Nat.zero_add]
  case isFalse h =>
    rw [BitVec.getLsbD_setWidth, BitVec.getLsbD_extractLsb', decide_eq_true (by omega : n - 32 < 8), decide_eq_true (by omega : n - 32 < 64),
      Bool.true_and, Bool.true_and, show 32 + (n - 32) = n by omega]

theorem pdRetired_goMode (n m : Nat) (s : State) : pdRetired n (goMode m s) = pdRetired n s := by
  unfold pdRetired
  rw [rd_goMode (showsNoUnit_of (.inl (by decide))) (by decide) (by decide) (by decide),
    rd_goMode (showsNoUnit_of (.inl (by decide))) (by decide) (by decide) (by decide)]

theorem pdOn_goMode {n : Nat} (hn : n < 40) (m : Nat) (s : State) :
    pdOn n (goMode m s) = ((modeDomains m).testBit n && !pdRetired n (goMode m s)) := by
  have hclocks : ∀ t, pdOn n (showClocks t) = pdOn n t := by
    intro t
    unfold pdOn
    rw [rd_showClocks (by decide), rd_showClocks (by decide)]
  have hretired : pdRetired n (enterMode m s) = pdRetired n s := by
    unfold pdRetired
    rw [rd_enterMode (by decide) (by decide), rd_enterMode (by decide) (by decide)]
  rw [pdRetired_goMode]
  unfold goMode setPower
  rw [hclocks, pdOn_setDomains hn, hretired]

end Sys2Proof.Machine
end

section
/-! Waking from Idle-Shallow (R66, R71): the mode that is returned to, the source, and the scheduler's tick. -/

namespace Sys2Proof.Machine

/-! ### The scheduler's tick apart from its work -/

theorem tick_forEach {α : Type} {f : α → State → State} (l : List α) (h : ∀ e t, rd Reg.SCH_TICK (f e t) = rd Reg.SCH_TICK t) (s : State) :
    rd Reg.SCH_TICK (forEach f l s) = rd Reg.SCH_TICK s := rd_forEach l (fun e _ => h e) s

theorem tick_showSch (s : State) : rd Reg.SCH_TICK (showSch s) = rd Reg.SCH_TICK s := by
  have hdepth : ∀ t, Reg.SCH_TICK ≠ Reg.SCH_QDEPTH t := by
    intro t
    simp only [Reg.SCH_TICK, Reg.SCH_QDEPTH]
    omega
  unfold showSch
  dsimp only
  rw [rd_fset_ne _ _ _ _ (hdepth 7), rd_forN (fun t u => rd_forN (fun p v => rd_fset_ne _ _ _ _ (hdepth t)) _ _),
    rd_fset_ne _ _ _ _ (by decide), rd_wr_ne _ _ (by decide), rd_fset_ne _ _ _ _ (by decide), rd_fset_ne _ _ _ _ (by decide),
    rd_wr_ne _ _ (by decide), rd_wr_ne _ _ (by decide), rd_fset_ne _ _ _ _ (by decide), rd_fset_ne _ _ _ _ (by decide)]

theorem tick_decrement (i a : Nat) (s : State) : rd Reg.SCH_TICK (decrement i a s) = rd Reg.SCH_TICK s := by
  unfold decrement
  split
  · rfl
  · split
    · rfl
    · split
      · exact rd_raiseEvent_ne _ _ _ _ _ (by decide) (by decide)
      · rfl

theorem tick_releaseSignals (n : Nat) (s : State) : rd Reg.SCH_TICK (releaseSignals n s) = rd Reg.SCH_TICK s := by
  induction n generalizing s with
  | zero => rfl
  | succ n ih =>
    unfold releaseSignals
    split
    · rfl
    · exact (ih _).trans (tick_decrement _ _ _)

theorem tick_releaseReady (s : State) : rd Reg.SCH_TICK (releaseReady s) = rd Reg.SCH_TICK s :=
  rd_congr ((releaseReady_keeps (Keeps.refl s) (Sub.refl 262144)).only.regs rfl) _

theorem tick_execLetterEnded (l : Letter) (s : State) : rd Reg.SCH_TICK (execLetterEnded l s) = rd Reg.SCH_TICK s :=
  rd_congr ((execLetterEnded_keeps l (Keeps.refl s) (Sub.refl 2048)).only.regs rfl) _

theorem tick_recordEnd (e reason low : Nat) (faddr pc : Word) (s : State) : rd Reg.SCH_TICK (recordEnd e reason low faddr pc s) = rd Reg.SCH_TICK s :=
  rd_congr ((recordEnd_keeps e reason low faddr pc (Keeps.refl s) (Sub.refl 2048)).only.regs rfl) _

theorem tick_freeRoutes (s : State) : rd Reg.SCH_TICK (freeRoutes s) = rd Reg.SCH_TICK s := rfl

theorem tick_endLetter (id status : Nat) (s : State) : rd Reg.SCH_TICK (endLetter id status s) = rd Reg.SCH_TICK s := by
  unfold endLetter
  rcases letterAt id s with _ | l
  · rfl
  · dsimp only
    rw [tick_showSch, tick_releaseReady, tick_freeRoutes, tick_execLetterEnded, tick_releaseSignals]
    rcases l.sigCtr with _ | ⟨i, a⟩
    · rfl
    · dsimp only
      generalize (l.kind == 3 || _) = ordered
      split
      · rfl
      · exact tick_decrement _ _ _

theorem tick_endStranded (s : State) : rd Reg.SCH_TICK (endStranded s) = rd Reg.SCH_TICK s := by
  have hone : ∀ id t, rd Reg.SCH_TICK (raiseEvent 0x0D 0 Fl.SCH_EVENT_NO_TARGET (endLetter id 0x85 t)) = rd Reg.SCH_TICK t :=
    fun id t => (rd_raiseEvent_ne _ _ _ _ _ (by decide) (by decide)).trans (tick_endLetter id 0x85 t)
  unfold endStranded
  refine tick_forEach _ (fun l t => ?_) s
  dsimp only
  split
  · exact hone l.id t
  · exact (tick_recordEnd _ _ _ _ _ _).trans (hone l.id t)

theorem tick_settleSch (s : State) : rd Reg.SCH_TICK (settleSch s) = rd Reg.SCH_TICK s :=
  (tick_showSch _).trans ((tick_endStranded _).trans (tick_releaseReady s))

/-! ### The wake -/

theorem idleShallowRestore_tick (elapsed : Nat) (s : State) :
    rd Reg.SCH_TICK (idleShallowRestore elapsed s) = BitVec.ofNat 64 ((rd Reg.SCH_TICK s).toNat + elapsed) := by
  unfold idleShallowRestore
  refine (tick_settleSch _).trans ?_
  exact rd_wr_self _ _ s

theorem idleShallowRestore_low (elapsed : Nat) (s : State) : LowKept s (idleShallowRestore elapsed s) := by
  unfold idleShallowRestore
  exact settleSch_low (updSch_low (wr_low _ _ (LowKept.refl s) (by decide)) _)

/-- Idle-Shallow is left for the mode it was entered from. -/
theorem leaveIdle_shallow {bit elapsed : Nat} {s : State} (h6 : mode s = 6) (hw : s.pow.idleWait = none) (hf : s.pow.idleFrom < 12)
    (hro : fget Fl.AON_MODE_RO_CAUSE s = 0) (hb : bit < 64) :
    mode (leaveIdle bit elapsed [] s) = s.pow.idleFrom ∧ fget ⟨Reg.AON_WAKE_SRC, bit, 1⟩ (leaveIdle bit elapsed [] s) = 1 ∧
      rd Reg.SCH_TICK (leaveIdle bit elapsed [] s) = BitVec.ofNat 64 ((rd Reg.SCH_TICK s).toNat + elapsed) := by
  have hapart : Reg.AON_WAKE_SRC < 0x40040000 ∧ Reg.AON_WAKE_SRC ∉ powerRegs ∧ Reg.AON_WAKE_SRC ∉ pbkRegs ∧ Reg.AON_WAKE_SRC ≠ Reg.AON_MODE ∧
      Reg.SCH_TICK ≠ Reg.AON_WAKE_SRC := by decide
  obtain ⟨hsrc, hpower, hrecorder, hmode, htick⟩ := hapart
  have hlow := idleShallowRestore_low elapsed (goMode s.pow.idleFrom (fset ⟨Reg.AON_WAKE_SRC, bit, 1⟩ 1 s))
  have hro' : fget Fl.AON_MODE_RO_CAUSE (idleShallowRestore elapsed (goMode s.pow.idleFrom (fset ⟨Reg.AON_WAKE_SRC, bit, 1⟩ 1 s))) = 0 := by
    rw [fget_of_rd (hlow _ (by decide)), roCause_goMode, fget_fset_ne _ _ _ _ (.inl hmode.symm), hro]
  have hleave : leaveIdle bit elapsed [] s = idleShallowRestore elapsed (goMode s.pow.idleFrom (fset ⟨Reg.AON_WAKE_SRC, bit, 1⟩ 1 s)) := by
    unfold leaveIdle
    dsimp only
    rw [if_pos h6, hw, if_neg (by decide), settleReadOnly_noCause hro']
  rw [hleave]
  refine ⟨(mode_of_low hlow).trans (mode_goMode (by omega) _), ?_, ?_⟩
  · have hfield : bit + 1 ≤ 64 := by omega
    rw [fget_of_rd (hlow _ hsrc), fget_of_rd (rd_goMode (showsNoUnit_of (.inl (hsrc.trans (by decide)))) hpower hrecorder hmode _ _),
      fget_fset_self _ _ _ hfield]
    rfl
  · rw [idleShallowRestore_tick, rd_goMode (showsNoUnit_of (.inl (by decide))) (by decide) (by decide) (by decide), rd_fset_ne _ _ _ _ htick]

theorem idleWake_row {bit elapsed : Nat} {s : State} (hb : bit = 1 ∨ bit = 5 ∨ bit = 6 ∨ bit = 7 ∨ bit = 9 ∨ bit = 10) (h6 : mode s = 6) :
    exec (.idleWake bit elapsed []) s = .next (leaveIdle bit elapsed [] s) := by
  have hcond : ([1, 5, 7, 9, 10].contains bit || (bit == 6 && mode s != 7)) = true := by
    rw [h6]
    rcases hb with rfl | rfl | rfl | rfl | rfl | rfl <;> rfl
  change execIdleWake bit elapsed [] s = _
  unfold execIdleWake
  rw [if_pos hcond, if_pos (.inl h6)]

theorem delayWakeExpiry_row {elapsed : Nat} {s : State} (h6 : mode s = 6) (hd : (rd Reg.AON_DELAY_WAKE s).toNat ≠ 0) :
    exec (.delayWakeExpiry elapsed) s = .next (wr Reg.AON_DELAY_WAKE 0 (leaveIdle 8 elapsed [] s)) := by
  change execDelayWakeExpiry elapsed s = _
  unfold execDelayWakeExpiry
  exact if_pos ⟨h6, hd⟩

theorem delayWakeExpiry_idle {elapsed : Nat} {s : State} (hd : rd Reg.AON_DELAY_WAKE s = 0) : exec (.delayWakeExpiry elapsed) s = .next s := by
  change execDelayWakeExpiry elapsed s = _
  unfold execDelayWakeExpiry
  exact if_neg (fun h => h.2 (by rw [hd]; rfl))

/-! ### Read-only mode and halts apart from the registers of the control cores (R68, R70) -/

theorem rd_completeDw {a : Nat} (h : a ∉ completionRegs) (tag dw0 : Nat) (s : State) : rd a (completeDw tag dw0 s) = rd a s :=
  rd_completeBoth h _ _ _ _ _ _ _ _

theorem rd_deliverAens {a : Nat} (h : a ∉ completionRegs) (n : Nat) (s : State) : rd a (deliverAens n s) = rd a s := by
  induction n generalizing s with
  | zero => rfl
  | succ n ih =>
    unfold deliverAens
    split
    · rfl
    · split
      · rfl
      · split
        · rfl
        · exact (ih _).trans (rd_completeDw h _ _ _)

theorem rd_smartEvent {a : Nat} (h : a ∉ completionRegs) (bit : Nat) (s : State) : rd a (smartEvent bit s) = rd a s :=
  rd_deliverAens h _ _

theorem rd_refuseUnstarted {a : Nat} (h : a ∉ completionRegs) (s : State) : rd a (refuseUnstarted s) = rd a s := by
  unfold refuseUnstarted
  exact rd_forEach _ (fun x _ t => rd_completeBoth h _ _ _ _ _ _ _ _) s

theorem rd_postHeld (a c q n : Nat) (s : State) : rd a (postHeld c q n s) = rd a s := by
  induction n generalizing s with
  | zero => rfl
  | succ n ih =>
    unfold postHeld
    split
    · rfl
    · split
      · rfl
      · split
        · rfl
        · dsimp only
          rw [ih]
          split
          · exact rd_postEntry a _ _ _ _
          · exact rd_postEntry a _ _ _ _

theorem rd_postWithheld {a : Nat} (h : a ∉ completionRegs) (s : State) : rd a (postWithheld s) = rd a s := by
  unfold postWithheld
  rw [rd_settleAll h]
  exact rd_forEach _ (fun e _ t => rd_forEach _ (fun q _ u => rd_postHeld a _ _ _ u) t) s

/-- The registers that a change of mode or a completion may write, the units' status among them, do not include `a`. -/
def ModeApart (a : Nat) : Prop := a ∉ completionRegs ∧ a ∉ powerRegs ∧ a ≠ Reg.AON_MODE ∧ ShowsNoUnit a

section
variable {a : Nat} (h : ModeApart a)
include h

theorem ModeApart.recorder : a ∉ pbkRegs := fun hp => h.1 (List.mem_append_right _ hp)

theorem rd_settleReadOnly (s : State) : rd a (settleReadOnly s) = rd a s := by
  have hfail : rd a (failSanitize s) = rd a s := by
    unfold failSanitize
    split <;> rfl
  obtain ⟨hcompletion, hpower, hmode, hunit⟩ := id h
  unfold settleReadOnly goReadOnly
  split
  · rw [rd_smartEvent hcompletion, rd_refuseUnstarted hcompletion, rd_goMode hunit hpower h.recorder hmode, hfail]
  · rfl

theorem rd_enterReadOnly (cause : Nat) (s : State) : rd a (enterReadOnly cause s) = rd a s := by
  obtain ⟨-, -, hmode, -⟩ := id h
  unfold enterReadOnly
  rw [rd_settleReadOnly h]
  unfold recordReadOnlyCause
  split
  · rfl
  · rw [rd_postmark _ _ _ _ _ h.recorder, rd_fset_ne _ _ _ _ hmode]

theorem rd_haltMode (s : State) : rd a (haltMode s) = rd a s := by
  obtain ⟨hcompletion, -, hmode, -⟩ := id h
  unfold haltMode
  dsimp only
  split
  · exact rd_enterMode h.recorder hmode _ _
  · split
    · rw [rd_settleReadOnly h, rd_postWithheld hcompletion, rd_enterMode h.recorder hmode]
    · rfl

end

/-! ### Retirement of a control core (R70) -/

/-- The state in which a control core is noted as retired. -/
def coreNoted (k : Nat) (s : State) : State :=
  s |> fset ⟨Reg.CTC_CORE_RETIRED, k, 1⟩ 1 |> fset (Fl.CTC_CORE_STATUS_CORE k) 3
    |> fset (Fl.DBG_CORE_DSTATUS_HALTED (64 + k)) 0 |> postmark 0x1580 0x15 [k]

theorem coreNoted_fields {k : Nat} (hk : k < 12) (s : State) :
    fget ⟨Reg.CTC_CORE_RETIRED, k, 1⟩ (coreNoted k s) = 1 ∧ fget (Fl.CTC_CORE_STATUS_CORE k) (coreNoted k s) = 3 := by
  have hdebug : ∀ a, a < 0x4F000000 → a ≠ Reg.DBG_CORE_DSTATUS (64 + k) := by
    intro a ha
    simp only [Reg.DBG_CORE_DSTATUS]
    omega
  unfold coreNoted
  constructor
  · have hbound : k + 1 ≤ 64 := by omega
    rw [fget_postmark _ _ _ _ _ (show Reg.CTC_CORE_RETIRED ∉ pbkRegs by decide),
      fget_fset_ne _ _ _ _ (.inl (hdebug _ (by decide : Reg.CTC_CORE_RETIRED < 0x4F000000))),
      fget_fset_ne _ _ _ _ (.inl (by decide : Reg.CTC_CORE_RETIRED ≠ Reg.CTC_CORE_STATUS)), fget_fset_self _ _ _ hbound]
    rfl
  · have hbound : 0 + 2 * k + 2 ≤ 64 := by omega
    rw [fget_postmark _ _ _ _ _ (show Reg.CTC_CORE_STATUS ∉ pbkRegs by decide),
      fget_fset_ne _ _ _ _ (.inl (hdebug _ (by decide : Reg.CTC_CORE_STATUS < 0x4F000000))), fget_fset_self _ _ _ hbound]
    rfl

theorem rd_retireDomain {a : Nat} (h : 0x40010000 ≤ a) (n : Nat) (s : State) : rd a (retireDomain n s) = rd a s := by
  have hne : ∀ b, b < 0x40010000 → a ≠ b := fun b hb => by omega
  unfold retireDomain
  split
  · rw [rd_fset_ne _ _ _ _ (hne _ (by decide : Reg.AON_PD_ON_LO < 0x40010000)),
      rd_fset_ne _ _ _ _ (hne _ (by decide : Reg.AON_PD_RETIRED_LO < 0x40010000))]
  · rw [rd_fset_ne _ _ _ _ (hne _ (by decide : Reg.AON_PD_ON_HI < 0x40010000)),
      rd_fset_ne _ _ _ _ (hne _ (by decide : Reg.AON_PD_RETIRED_HI < 0x40010000))]

/-- The domain of a half of the control cores retires with its last core. -/
def halfRetired (half : Nat) (s : State) : State :=
  if (List.range 6).all (fun j => fget ⟨Reg.CTC_CORE_RETIRED, 6 * half + j, 1⟩ s == 1) then retireDomain (4 + half) s else s

theorem rd_halfRetired {a : Nat} (h : 0x40010000 ≤ a) (half : Nat) (s : State) : rd a (halfRetired half s) = rd a s := by
  unfold halfRetired
  split
  · exact rd_retireDomain h _ s
  · rfl

theorem controlCoreRetire_row {k : Nat} (hk : k < 12) {s : State} (hr : fget ⟨Reg.CTC_CORE_RETIRED, k, 1⟩ s = 0) :
    exec (.controlCoreRetire k) s = .next (haltMode (if workingControlCores (halfRetired (k / 6) (coreNoted k s)) < 8
      then enterReadOnly 4 (halfRetired (k / 6) (coreNoted k s)) else halfRetired (k / 6) (coreNoted k s))) := by
  change execControlCoreRetire k s = _
  unfold execControlCoreRetire
  rw [if_pos ⟨hk, hr⟩]
  rfl

/-- What follows the retirement leaves the registers of the control cores. -/
theorem controlCoreRetire_kept {k : Nat} (hk : k < 12) {s : State} (hr : fget ⟨Reg.CTC_CORE_RETIRED, k, 1⟩ s = 0) :
    ∃ t, exec (.controlCoreRetire k) s = .next t ∧ ∀ a, ModeApart a → 0x40010000 ≤ a → rd a t = rd a (coreNoted k s) := by
  refine ⟨_, controlCoreRetire_row hk hr, fun a ha hlow => ?_⟩
  rw [rd_haltMode ha]
  split
  · rw [rd_enterReadOnly ha, rd_halfRetired hlow]
  · exact rd_halfRetired hlow _ _

end Sys2Proof.Machine
end

section
/-! Loss of a PLL's lock (R70), and statement O6. -/

namespace Sys2Proof.Machine

/-! ### What clearing the registers of blocks keeps -/

theorem find_filter_of_key {α : Type} (q : Nat → Bool) {a : Nat} (ha : q a = true) (m : SMap α) :
    SMap.find (m.filter (fun e => q e.1)) a = SMap.find m a := by
  induction m with
  | nil => rfl
  | cons e m ih =>
    obtain ⟨k, v⟩ := e
    by_cases hk : q k = true
    · rw [List.filter_cons_of_pos (p := fun e : Nat × α => q e.1) (a := (k, v)) hk]
      unfold SMap.find
      rw [ih]
    · have hne : a ≠ k := fun e => hk (e ▸ ha)
      rw [List.filter_cons_of_neg (p := fun e : Nat × α => q e.1) (a := (k, v)) hk, ih]
      exact (if_neg hne).symm

/-- A register stays that no condition clears. -/
theorem rd_clearRegs {p : Block → Nat → RegRow → Bool} {a : Nat} (h : ∀ b i r, regInfo a = some (b, i, r) → p b i r = false) (s : State) :
    rd a (clearRegs p s) = rd a s := by
  have hq : (match regInfo a with
      | some (b, i, r) => !p b i r
      | none => true) = true := by
    split
    case h_1 b i r hinfo => rw [h b i r hinfo]; rfl
    case h_2 => rfl
  unfold rd clearRegs
  dsimp only
  exact congrArg (Option.getD · (resetVal a)) (find_filter_of_key (fun a => match regInfo a with
      | some (b, i, r) => !p b i r
      | none => true) hq s.regs)

/-- Blocks whose retired units still show write their own registers alone. -/
theorem clearBlocks_low (p : Block → Bool) (s : State) :
    LowKept (clearRegs (fun b _ r => p b && (r.cls == .m || r.cls == .c || r.cls == .f || (r.cls == .live && !selfDriven b))) s)
      (clearBlocks p s) := by
  unfold clearBlocks
  dsimp only
  repeat' first
    | with_reducible first
      | apply LowKept.refl | apply low_ite | apply forEach_low | apply forN_low | apply fset_low | apply fsetTo_low | intro _
    | (simp only [Fl.CMP_STATUS_STATE, Fl.AXC_STATUS_STATE, Fl.DMC_STATUS_STATE, Fl.NET_STATUS_STATE, Fl.HIF_OVL_STATUS_HWM, Fl.SCH_LETTERS_HWM,
          Fl.MAT_STATUS_STATE, Fl.CTC_CORE_STATUS_CORE, Reg.CMP_STATUS, Reg.AXC_STATUS, Reg.DMC_STATUS, Reg.NET_STATUS, Reg.HIF_OVL_STATUS,
          Reg.SCH_LETTERS, Reg.MAT_STATUS, Reg.CTC_CORE_STATUS]; omega)

/-! ### Watch after a third loss -/

theorem lockLoss_block : (regInfo Reg.CLK_LOCK_LOSS).map (·.1) = some .clk := by decide +kernel

/-- The register of lock losses lasts through the fall to Watch. -/
theorem rd_lockLoss_watchClear (s : State) : rd Reg.CLK_LOCK_LOSS (watchClear s) = rd Reg.CLK_LOCK_LOSS s := by
  have hserving : LowKept s (forN clearPoints 77 (loseServing s)) :=
    forN_low (loseServing_low (LowKept.refl s)) (fun i t => clearPoints_low (LowKept.refl t) i)
  unfold watchClear
  rw [clearBlocks_low _ _ _ (by decide), rd_clearRegs, hserving _ (by decide)]
  intro b i r hinfo
  have hblock : b = .clk := by
    have := lockLoss_block
    rw [hinfo] at this
    exact Option.some.inj this
  rw [hblock]
  rfl

theorem pllToWatch_watches (s : State) :
    mode (pllToWatch s) = 2 ∧ rd Reg.CLK_LOCK_LOSS (pllToWatch s) = rd Reg.CLK_LOCK_LOSS s ∧ (pllToWatch s).pow.pllWatch = true := by
  refine ⟨(goWatch_watches s).1, ?_, rfl⟩
  have hwatch : rd Reg.CLK_LOCK_LOSS (pllToWatch s) = rd Reg.CLK_LOCK_LOSS (mgtStart (pdOn 1 s) (goMode 2 (watchClear s))) := by
    unfold pllToWatch faultToWatch goWatch
    generalize mgtStart _ _ = u
    rfl
  rw [hwatch, mgtStart_low (LowKept.refl _) _ _ (by decide),
    rd_goMode (showsNoUnit_of (.inl (by decide))) (by decide) (by decide) (by decide), rd_lockLoss_watchClear]

/-- The state in which the loss of a PLL's lock is noted. -/
def lockLossNoted (n us : Nat) (s : State) : State :=
  s |> fset ⟨Reg.CLK_LOCK_LOSS, n, 1⟩ 1 |> fset (Fl.CLK_LOSS_CYCLE_PLL n) (Nat.min (fget (Fl.CLK_LOSS_CYCLE_PLL n) s + 1) 7)
    |> fset (Fl.CLK_PLL_CTRL_LOSS_COUNT n) (Nat.min (fget (Fl.CLK_PLL_CTRL_LOSS_COUNT n) s + 1) 15)
    |> fset (Fl.CLK_PLL_CTRL_LOCK_TIME n) (Nat.min us 255)
    |> postmark 0x0380 0x03 [n]

theorem pllCtrl_apart {a : Nat} (h : a < 0x40020010 ∨ 0x40020024 ≤ a) {n : Nat} (hn : n < 5) : a ≠ Reg.CLK_PLL_CTRL n := by
  simp only [Reg.CLK_PLL_CTRL]
  omega

theorem lockLossNoted_lost {n : Nat} (hn : n < 5) (us : Nat) (s : State) : fget ⟨Reg.CLK_LOCK_LOSS, n, 1⟩ (lockLossNoted n us s) = 1 := by
  have hctrl : Reg.CLK_LOCK_LOSS ≠ Reg.CLK_PLL_CTRL n := pllCtrl_apart (.inr (by decide)) hn
  have hbound : n + 1 ≤ 64 := by omega
  unfold lockLossNoted
  rw [fget_postmark _ _ _ _ _ (show Reg.CLK_LOCK_LOSS ∉ pbkRegs by decide), fget_fset_ne _ _ _ _ (.inl hctrl), fget_fset_ne _ _ _ _ (.inl hctrl),
    fget_fset_ne _ _ _ _ (.inl (show Reg.CLK_LOCK_LOSS ≠ Reg.CLK_LOSS_CYCLE by decide)), fget_fset_self _ _ _ hbound]
  rfl

theorem lockLossNoted_count {n : Nat} (hn : n < 5) (us : Nat) {s : State} (h : fget (Fl.CLK_LOSS_CYCLE_PLL n) s < 2) :
    fget (Fl.CLK_LOSS_CYCLE_PLL n) (lockLossNoted n us s) = fget (Fl.CLK_LOSS_CYCLE_PLL n) s + 1 := by
  have hctrl : Reg.CLK_LOSS_CYCLE ≠ Reg.CLK_PLL_CTRL n := pllCtrl_apart (.inr (by decide)) hn
  have hbound : 0 + 3 * n + 3 ≤ 64 := by omega
  have hmin : Nat.min (fget (Fl.CLK_LOSS_CYCLE_PLL n) s + 1) 7 = fget (Fl.CLK_LOSS_CYCLE_PLL n) s + 1 := Nat.min_eq_left (by omega)
  unfold lockLossNoted
  rw [fget_postmark _ _ _ _ _ (show Reg.CLK_LOSS_CYCLE ∉ pbkRegs by decide), fget_fset_ne _ _ _ _ (.inl hctrl), fget_fset_ne _ _ _ _ (.inl hctrl),
    fget_fset_self _ _ _ hbound, hmin]
  exact Nat.mod_eq_of_lt (lt_of_lt_of_le (Nat.succ_lt_succ h) (show 3 ≤ 2 ^ 3 by decide))

theorem rd_lockLossNoted {a n : Nat} (h : a < 0x40020000) (hn : n < 5) (us : Nat) (s : State) : rd a (lockLossNoted n us s) = rd a s := by
  have hctrl : a ≠ Reg.CLK_PLL_CTRL n := pllCtrl_apart (.inl (by omega)) hn
  have hrest : a ∉ pbkRegs ∧ a ≠ Reg.CLK_LOCK_LOSS ∧ a ≠ Reg.CLK_LOSS_CYCLE := by
    refine ⟨not_mem_pbkRegs_of_low (by omega), ?_, ?_⟩
    · simp only [Reg.CLK_LOCK_LOSS]
      omega
    · simp only [Reg.CLK_LOSS_CYCLE]
      omega
  obtain ⟨hrecorder, hlost, hcycle⟩ := hrest
  unfold lockLossNoted
  rw [rd_postmark _ _ _ _ _ hrecorder, rd_fset_ne _ _ _ _ hctrl, rd_fset_ne _ _ _ _ hctrl, rd_fset_ne _ _ _ _ hcycle, rd_fset_ne _ _ _ _ hlost]

theorem lockLossNoted_parts (n us : Nat) (s : State) : (lockLossNoted n us s).pow = s.pow ∧ (lockLossNoted n us s).mgt = s.mgt := by
  have hfset : ∀ f v {t}, Keeps 33 s t → Keeps 33 s (fset f v t) := fun f v _ ht => fset_keeps f v ht ((Sub.refl 33).of rfl)
  have hk : Keeps 33 s (lockLossNoted n us s) :=
    postmark_keeps _ _ _ (hfset _ _ (hfset _ _ (hfset _ _ (hfset _ _ (Keeps.refl s))))) (Sub.refl 33)
  exact ⟨hk.only.pow rfl, hk.only.mgt rfl⟩

theorem pllLockLoss_third {n us : Nat} {s : State} (hn : n < 5) (hl : fget (Fl.CLK_PLL_CTRL_LOCKED n) s = 1)
    (hc : 2 ≤ fget (Fl.CLK_LOSS_CYCLE_PLL n) s) (h8 : mode s ≠ 8) : exec (.pllLockLoss n us) s = .next (pllToWatch (lockLossNoted n us s)) := by
  change execPllLockLoss n us s = _
  unfold execPllLockLoss
  dsimp only
  rw [if_pos ⟨hn, hl⟩, if_pos (by omega), if_neg (by simp [h8])]
  rfl

theorem pllLockLoss_reset {n us : Nat} {s : State} (hn : n = 1 ∨ n = 2 ∨ n = 4) (hl : fget (Fl.CLK_PLL_CTRL_LOCKED n) s = 1)
    (hc : fget (Fl.CLK_LOSS_CYCLE_PLL n) s < 2) : exec (.pllLockLoss n us) s = .next (requestModuleReset .pll (lockLossNoted n us s)) := by
  change execPllLockLoss n us s = _
  unfold execPllLockLoss
  dsimp only
  rw [if_pos ⟨by omega, hl⟩, if_neg (by omega), if_neg (by omega), if_neg (by omega)]
  rfl

/-- In Serve a module reset begins as an orderly stop. -/
theorem requestModuleReset_serve {c : RstCause} {s : State} (h4 : mode s = 4) (ht : fget Fl.AON_MODE_TRANS s = 0) (hs : s.pow.stopping = none)
    (ha : s.pow.afterSeal = .none) (hu : s.mgt.upd.todo = []) :
    requestModuleReset c s = beginTransition 1 (hostStopAdmission { s with pow := { s.pow with stopping := some (.reset c) } }) := by
  have hidle : activating s = false := by
    unfold activating
    rw [hu]
    rfl
  unfold requestModuleReset
  dsimp only
  rw [if_neg (by rw [ha, h4]; decide), hidle, if_neg (by decide), if_neg (by omega), hs]
  dsimp only
  rw [if_pos (.inl h4)]
  unfold startOrderlyStop
  rw [if_neg (by omega)]
  dsimp only
  rw [if_neg (by omega)]

theorem requestModuleReset_stops {c : RstCause} {s : State} (h4 : mode s = 4) (ht : fget Fl.AON_MODE_TRANS s = 0) (hs : s.pow.stopping = none)
    (ha : s.pow.afterSeal = .none) (hu : s.mgt.upd.todo = []) :
    (requestModuleReset c s).pow.stopping = some (.reset c) ∧ ∀ a, a ≠ Reg.AON_MODE → rd a (requestModuleReset c s) = rd a s := by
  rw [requestModuleReset_serve h4 ht hs ha hu]
  refine ⟨rfl, fun a hm => ?_⟩
  unfold beginTransition
  rw [rd_fset_ne _ _ _ _ hm, rd_fset_ne _ _ _ _ hm]
  rfl

/-! ### The settlement -/

theorem idleDue_shallow {s : State} (hm : mode s = 4 ∨ mode s = 5) (hp : psInEffect s = 3) : idleDue false s = true := by
  unfold idleDue
  rw [if_neg (by decide), hp]
  rcases hm with h | h <;> rw [h] <;> rfl

theorem idleDue_deep {s : State} (hm : mode s = 4) (hp : psInEffect s = 4) : idleDue true s = true := by
  unfold idleDue
  rw [if_pos rfl, hp, hm]
  rfl

theorem idleFrom_idleEnter {deep : Bool} {s : State} (h6 : mode s ≠ 6) : (idleEnter deep (entryBegun deep s)).pow.idleFrom = mode s := by
  rw [(idleEnter_waiting deep _).2, mode_entryBegun, if_neg h6]

theorem modeDomains_deep {n : Nat} (hn : n < 40) : (modeDomains 7).testBit n = [0, 1, 2, 3, 7, 8, 35].contains n := by
  have hall : ∀ n : Fin 40, (modeDomains 7).testBit n = [0, 1, 2, 3, 7, 8, 35].contains n.val := by decide
  exact hall ⟨n, hn⟩

theorem schEarliest_entryBegun (deep : Bool) (s : State) : schEarliest (entryBegun deep s) = schEarliest s := by
  unfold schEarliest
  rw [rd_entryBegun deep s (by decide)]
  rfl

/-- Settles O6: each row's branch, with the frames of the changes of mode. -/
theorem idleAndClocks : Obligations.IdleAndClocks := by
  unfold Obligations.IdleAndClocks
  intro s
  refine ⟨?conditions, ?apst, ?entry, ?wake, ?delay, ?noDelay, ?third, ?loss, ?xtal, ?core⟩
  case conditions =>
    intro transfers
    refine ⟨judgeIdle { s with pow := { s.pow with moving := transfers } }, rfl, ?_⟩
    dsimp only
    rw [judgeIdle_pow]
    exact ⟨rfl, rfl, rfl⟩
  case apst =>
    intro c ps x hidle hx hen htarget
    refine ⟨setRequested c ps true s, if_pos ⟨hidle, hen, htarget⟩, _, setRequested_auto hx, rfl, rfl⟩
  case entry =>
    intro ht hw
    refine ⟨fun hb => ⟨fun hm hp => ?_, fun hm hp => ?_⟩, fun hb hm hp => ?_⟩
    · refine ⟨_, idleEntry_completes ht hw hb (idleDue_shallow hm hp), mode_idleEnter false _, idleFrom_idleEnter (by omega), ?_⟩
      rw [idleEnter_delay, schEarliest_entryBegun]
    · refine ⟨_, idleEntry_completes ht hw hb (idleDue_deep hm hp), mode_idleEnter true _, (idleFrom_idleEnter (by omega)).trans hm, fun n hn => ?_⟩
      rw [← modeDomains_deep hn]
      unfold idleEnter
      exact pdOn_goMode hn 7 _
    · have hlow := resumeAll_low (LowKept.refl (entryBegun false s))
      refine ⟨resumeAll (entryBegun false s), ?_, ?_, ?_, ?_, ?_⟩
      · rw [idleEntry_begins ht (idleDue_shallow hm hp), idleAdvance_begun (idleDue_shallow hm hp), if_pos hb]
      · rw [mode_of_low hlow, mode_entryBegun]
      · rw [fget_of_rd (hlow _ (by decide)), trans_entryBegun]
      · exact (fget_of_rd (hlow _ (by decide))).trans (target_entryBegun false s)
      · rw [(resumeAll_keeps (Keeps.refl (entryBegun false s)) (Sub.refl 513)).only.pow rfl]
        rfl
  case wake =>
    intro bit elapsed hbit h6 hw hf hro
    exact ⟨_, idleWake_row hbit h6, leaveIdle_shallow h6 hw hf hro (by omega)⟩
  case delay =>
    intro elapsed h6 hw hf hro hd
    obtain ⟨hmode, hsrc, -⟩ := leaveIdle_shallow (bit := 8) (elapsed := elapsed) h6 hw hf hro (by decide)
    refine ⟨_, delayWakeExpiry_row h6 hd, ?_, ?_, rd_wr_self _ _ _⟩
    · rw [mode_congr (rd_wr_ne _ _ (by decide)), hmode]
    · exact (fget_wr_ne _ _ _ _ (by decide)).trans hsrc
  case noDelay =>
    intro elapsed hd
    exact ⟨s, delayWakeExpiry_idle hd, rfl⟩
  case third =>
    intro n us hn hl hc h8
    obtain ⟨hmode, hloss, hwatch⟩ := pllToWatch_watches (lockLossNoted n us s)
    exact ⟨_, pllLockLoss_third hn hl hc h8, hmode, (fget_of_rd hloss).trans (lockLossNoted_lost hn us s), hwatch⟩
  case loss =>
    intro n us hn hl hc h4 ht hs ha hu
    have hlt : n < 5 := by omega
    obtain ⟨hpow, hmgt⟩ := lockLossNoted_parts n us s
    have hmode : rd Reg.AON_MODE (lockLossNoted n us s) = rd Reg.AON_MODE s := rd_lockLossNoted (by decide) hlt us s
    obtain ⟨hstop, hkept⟩ := requestModuleReset_stops (c := .pll) (s := lockLossNoted n us s) ((mode_congr hmode).trans h4)
      ((fget_of_rd hmode).trans ht) (by rw [hpow, hs]) (by rw [hpow, ha]) (by rw [hmgt, hu])
    refine ⟨_, pllLockLoss_reset hn hl hc, hstop, ?_⟩
    rw [fget_of_rd (hkept _ (by decide : Reg.CLK_LOSS_CYCLE ≠ Reg.AON_MODE)), lockLossNoted_count hlt us hc]
  case xtal =>
    intro h0
    refine ⟨s |> fset Fl.CLK_STATUS_XTAL_OK 1 |> fset Fl.CLK_STATUS_ON_RC 0, if_neg h0, ?_, ?_, rfl, fun a ha => ?_⟩
    · rw [fget_fset_ne _ _ _ _ (.inr (.inr (by decide))), fget_fset_self _ _ _ (by decide)]
      rfl
    · rw [fget_fset_self _ _ _ (by decide)]
      rfl
    · have hne : a ≠ Reg.CLK_STATUS := fun e => ha (List.mem_singleton.mpr e)
      rw [rd_fset_ne _ _ _ _ hne, rd_fset_ne _ _ _ _ hne]
  case core =>
    intro k hk hr
    obtain ⟨t, hrow, hkept⟩ := controlCoreRetire_kept hk hr
    obtain ⟨hretired, hstatus⟩ := coreNoted_fields hk s
    have hapart : ∀ a, a = Reg.CTC_CORE_RETIRED ∨ a = Reg.CTC_CORE_STATUS → ModeApart a ∧ 0x40010000 ≤ a := by
      rintro a (rfl | rfl)
      · exact ⟨⟨by decide, by decide, by decide, showsNoUnit_of (.inr (by decide))⟩, by decide⟩
      · exact ⟨⟨by decide, by decide, by decide, showsNoUnit_of (.inr (by decide))⟩, by decide⟩
    have hkeeps : ∀ f : Fld, f.addr = Reg.CTC_CORE_RETIRED ∨ f.addr = Reg.CTC_CORE_STATUS → fget f t = fget f (coreNoted k s) := by
      intro f hf
      obtain ⟨hmode, hlow⟩ := hapart f.addr hf
      exact fget_of_rd (hkept f.addr hmode hlow)
    exact ⟨t, hrow, (hkeeps _ (.inl rfl)).trans hretired, (hkeeps _ (.inr rfl)).trans hstatus⟩

end Sys2Proof.Machine
end

section
/-! Power inputs and the capacitor bank (R38, R39, R42–R45, R57), and statement O1. -/

namespace Sys2Proof.Machine

/-! ### Events leave the parts of the power block -/

@[simp] theorem raiseEvent_pow (g i : Nat) (f : Fld) (s : State) : (raiseEvent g i f s).pow = s.pow :=
  (raiseEvent_keeps g i f (Keeps.refl s) (Sub.refl 33)).only.pow rfl

theorem raiseEvent_onlyMarked (g i : Nat) (f : Fld) (s : State) : OnlyMarked [f.addr] s (raiseEvent g i f s) := by
  obtain ⟨hparts, -⟩ := postmark_onlyMarked (g * 256 + f.lo) (g + 256 * i) [(rd f.addr (fset f 1 s)).toNat] (fset f 1 s)
  exact ⟨hparts, fun a ha hm => rd_raiseEvent_ne g i f a s hm (List.ne_of_not_mem_cons ha)⟩

/-! ### The status bits of the inputs -/

theorem inputOk_addr (aux : Bool) : (inputOk aux).addr = Reg.PWR_STATUS := by cases aux <;> rfl

theorem fget_inputOk_self (aux : Bool) (v : Nat) (s : State) : fget (inputOk aux) (fset (inputOk aux) v s) = v % 2 := by
  cases aux <;> exact fget_fset_self _ _ _ (by decide)

theorem fget_inputOk_other (aux : Bool) (v : Nat) (s : State) : fget (inputOk !aux) (fset (inputOk aux) v s) = fget (inputOk !aux) s := by
  cases aux <;> exact fget_fset_ne _ _ _ _ (.inr (by decide))

theorem rd_inputOk_ne {a : Nat} (h : a ≠ Reg.PWR_STATUS) (aux : Bool) (v : Nat) (s : State) : rd a (fset (inputOk aux) v s) = rd a s :=
  rd_fset_ne _ _ _ _ (by rwa [inputOk_addr])

/-! ### Qualification -/

theorem qualifies_congr {s t : State} (h : t.pow = s.pow) (aux : Bool) : qualifies aux t = qualifies aux s := by
  unfold qualifies
  rw [h]

theorem qualifies_setQual_self (aux on : Bool) (s : State) : qualifies aux (setQual aux on s) = on := by cases aux <;> rfl

theorem qualifies_setQual_other (aux on : Bool) (s : State) : qualifies (!aux) (setQual aux on s) = qualifies (!aux) s := by cases aux <;> rfl

/-! ### An input stops (R38) -/

/-- The input is disconnected and its qualification over. -/
def inputLost (aux : Bool) (s : State) : State := fset (inputOk aux) 0 (setQual aux false s)

/-- The state after an input's stop: with the last input, a start from Dark is given up. -/
def inputStopped (aux : Bool) (s : State) : State :=
  if mode s = 0 ∧ fget Fl.AON_MODE_TRANS s = 1 ∧ qualifies (!aux) s = false then
    inputLost aux s |> fset Fl.AON_MODE_TARGET 0 |> fset Fl.AON_MODE_TRANS 0
  else inputLost aux s

theorem execInputStop_eq (aux : Bool) (s : State) : execInputStop aux s = .next (inputStopped aux s) :=
  (apply_ite Host.Outcome.next _ _ _).symm

section
variable (aux : Bool) (s : State)

theorem inputStopped_pow : (inputStopped aux s).pow = (setQual aux false s).pow := by
  unfold inputStopped
  split <;> rfl

theorem rd_inputLost {a : Nat} (h : a ≠ Reg.PWR_STATUS) : rd a (inputLost aux s) = rd a s := rd_inputOk_ne h _ _ _

theorem rd_inputStopped {a : Nat} (hm : a ≠ Reg.AON_MODE) : rd a (inputStopped aux s) = rd a (inputLost aux s) := by
  unfold inputStopped
  split
  · rw [rd_fset_ne _ _ _ _ hm, rd_fset_ne _ _ _ _ hm]
  · rfl

theorem mode_inputStopped : mode (inputStopped aux s) = mode s := by
  have hlost : mode (inputLost aux s) = mode s := mode_congr (rd_inputLost aux s (by decide))
  unfold inputStopped
  split
  · rw [mode, fget_fset_ne _ _ _ _ (.inr (.inr (by decide))), fget_fset_ne _ _ _ _ (.inr (.inr (by decide)))]
    exact hlost
  · exact hlost

/-- Of the inputs' status bits the stopped one alone falls. -/
theorem inputStopped_ok :
    fget (inputOk aux) (inputStopped aux s) = 0 ∧ fget (inputOk !aux) (inputStopped aux s) = fget (inputOk !aux) s := by
  have hstatus : ∀ b, fget (inputOk b) (inputStopped aux s) = fget (inputOk b) (inputLost aux s) :=
    fun b => fget_of_rd (rd_inputStopped aux s (by rw [inputOk_addr]; decide))
  exact ⟨(hstatus aux).trans (fget_inputOk_self aux 0 _), (hstatus !aux).trans (fget_inputOk_other aux 0 _)⟩

theorem inputStopped_qualifies :
    qualifies aux (inputStopped aux s) = false ∧ qualifies (!aux) (inputStopped aux s) = qualifies (!aux) s :=
  ⟨(qualifies_congr (inputStopped_pow aux s) aux).trans (qualifies_setQual_self aux false s),
    (qualifies_congr (inputStopped_pow aux s) !aux).trans (qualifies_setQual_other aux false s)⟩

theorem inputStopped_regsBut : RegsBut [Reg.PWR_STATUS, Reg.AON_MODE] s (inputStopped aux s) := by
  intro a ha _
  simp only [List.mem_cons, List.not_mem_nil, or_false, not_or] at ha
  exact (rd_inputStopped aux s ha.2).trans (rd_inputLost aux s ha.1)

theorem inputStopped_start :
    if mode s = 0 ∧ fget Fl.AON_MODE_TRANS s = 1 ∧ qualifies (!aux) s = false
      then fget Fl.AON_MODE_TARGET (inputStopped aux s) = 0 ∧ fget Fl.AON_MODE_TRANS (inputStopped aux s) = 0
      else rd Reg.AON_MODE (inputStopped aux s) = rd Reg.AON_MODE s := by
  unfold inputStopped
  split
  · rw [fget_fset_ne _ _ _ _ (.inr (.inr (by decide))), fget_fset_self _ _ _ (by decide), fget_fset_self _ _ _ (by decide)]
    exact ⟨rfl, rfl⟩
  · exact rd_inputLost aux s (by decide)

end

/-! ### Overvoltage and reconnection (R38) -/

/-- The overvoltage of an input is noted. -/
def ovNoted (aux : Bool) (s : State) : State :=
  { s with pow := { s.pow with ovAux := s.pow.ovAux || aux, ovMains := s.pow.ovMains || !aux } }

/-- The overvoltage of an input is over. -/
def ovOver (aux : Bool) (s : State) : State :=
  { s with pow := { s.pow with ovAux := s.pow.ovAux && !aux, ovMains := s.pow.ovMains && aux } }

theorem inputOvervoltage_row (aux : Bool) (s : State) :
    exec (.inputOvervoltage aux) s = .next (if mode s = 0 then inputStopped aux (ovNoted aux s)
      else raiseEvent 0x01 0 Fl.PWR_EVENT_INPUT_OV (inputStopped aux (ovNoted aux s))) := by
  change execInputOvervoltage aux s = _
  unfold execInputOvervoltage
  rw [execInputStop_eq]
  rfl

/-- The event of an overvoltage leaves what the stop of the input left. -/
theorem inputOvervoltage_kept {aux : Bool} {s t : State} (h : t = inputStopped aux (ovNoted aux s) ∨
      t = raiseEvent 0x01 0 Fl.PWR_EVENT_INPUT_OV (inputStopped aux (ovNoted aux s))) :
    fget (inputOk aux) t = 0 ∧ fget (inputOk !aux) t = fget (inputOk !aux) s ∧ qualifies aux t = false ∧
      RegsBut [Reg.PWR_STATUS, Reg.PWR_EVENT, Reg.AON_MODE] s t := by
  have hpow : t.pow = (inputStopped aux (ovNoted aux s)).pow := by
    rcases h with rfl | rfl
    · rfl
    · exact raiseEvent_pow _ _ _ _
  have hregs : RegsBut [Reg.PWR_EVENT] (inputStopped aux (ovNoted aux s)) t := by
    rcases h with rfl | rfl
    · exact fun _ _ _ => rfl
    · exact (raiseEvent_onlyMarked 0x01 0 Fl.PWR_EVENT_INPUT_OV _).2
  obtain ⟨hself, hother⟩ := inputStopped_ok aux (ovNoted aux s)
  have hstatus : ∀ b, fget (inputOk b) t = fget (inputOk b) (inputStopped aux (ovNoted aux s)) :=
    fun b => fget_of_rd (hregs _ (by rw [inputOk_addr]; decide) (by rw [inputOk_addr]; decide))
  refine ⟨(hstatus aux).trans hself, (hstatus !aux).trans hother,
    (qualifies_congr hpow aux).trans (inputStopped_qualifies aux _).1, fun a ha hm => ?_⟩
  simp only [List.mem_cons, List.not_mem_nil, or_false, not_or] at ha
  obtain ⟨hst, hev, hmode⟩ := ha
  rw [hregs a (fun h => hev (List.mem_singleton.mp h)) hm]
  exact inputStopped_regsBut aux (ovNoted aux s) a (by simp [hst, hmode]) hm

/-! ### An input rises in Dark (R38, R76) -/

/-- Qualification begins, the overvoltage being over. -/
def thresholdReached (aux : Bool) (s : State) : State := setQual aux true (ovOver aux s)

theorem inputAtStartThreshold_row {aux : Bool} {s : State} (h : mode s = 0) :
    exec (.inputAtStartThreshold aux) s = .next (if inputEnabled aux s
      then beginTransition (if s.pow.pwrdis then 2 else 3) (thresholdReached aux s) else thresholdReached aux s) := by
  change execInputAtStartThreshold aux s = _
  unfold execInputAtStartThreshold
  rw [if_pos h]
  exact (apply_ite Host.Outcome.next _ _ _).symm

theorem thresholdReached_qualifies (aux : Bool) (s : State) :
    qualifies aux (thresholdReached aux s) = true ∧ qualifies (!aux) (thresholdReached aux s) = qualifies (!aux) s :=
  ⟨qualifies_setQual_self aux true _, qualifies_setQual_other aux true _⟩

/-- What the start of a transition shows. -/
theorem beginTransition_shown {m : Nat} (hm : m < 16) (s : State) :
    mode (beginTransition m s) = mode s ∧ fget Fl.AON_MODE_TRANS (beginTransition m s) = 1 ∧
      fget Fl.AON_MODE_TARGET (beginTransition m s) = m := by
  unfold mode beginTransition
  refine ⟨?_, ?_, ?_⟩
  · rw [fget_fset_ne _ _ _ _ (.inr (.inr (by decide))), fget_fset_ne _ _ _ _ (.inr (.inr (by decide)))]
  · rw [fget_fset_self _ _ _ (by decide)]
    rfl
  · rw [fget_fset_ne _ _ _ _ (.inr (.inr (by decide))), fget_fset_self _ _ _ (by decide)]
    exact Nat.mod_eq_of_lt hm

theorem rd_beginTransition {a : Nat} (h : a ≠ Reg.AON_MODE) (m : Nat) (s : State) : rd a (beginTransition m s) = rd a s := by
  unfold beginTransition
  rw [rd_fset_ne _ _ _ _ h, rd_fset_ne _ _ _ _ h]

/-! ### Sources (R39) -/

theorem takeSource_taken (aux : Bool) (s : State) :
    fget Fl.PWR_STATUS_ACTIVE (takeSource aux s) = (if aux then 1 else 0) ∧ fget Fl.PWR_EVENT_SWITCHOVER (takeSource aux s) = 1 ∧
      (takeSource aux s).pow.transfers = Nat.min (s.pow.transfers + 1) 0xFFFFFFFF := by
  unfold takeSource
  refine ⟨?_, fget_raiseEvent_self _ _ _ _ (by decide) rfl (by decide), by rw [raiseEvent_pow]; rfl⟩
  rw [fget_of_rd (rd_raiseEvent_ne _ _ _ _ _ (by decide) (by decide)), fget_fset_self _ _ _ (by decide)]
  cases aux <;> rfl

theorem sourceTransfer_row {cur : Bool} {s : State} (hcur : (fget Fl.PWR_STATUS_ACTIVE s == 1) = cur) (hlost : inputUsable cur s = false)
    (hother : inputUsable (!cur) s = true) : exec .sourceTransfer s = .next (takeSource (!cur) s) := by
  change execSourceTransfer s = _
  unfold execSourceTransfer
  rw [hcur]
  exact if_pos (by rw [hlost, hother]; rfl)

theorem sourceReturn_row {pref : Bool} {s : State} (hpref : (fget Fl.PWR_SRC_CFG_PRIO s == 1) = pref)
    (hact : (fget Fl.PWR_STATUS_ACTIVE s == 1) ≠ pref) (hus : inputUsable pref s = true) (hdly : fget Fl.PWR_SRC_CFG_RETURN_DLY s ≠ 0) :
    exec .sourceReturn s = .next (takeSource pref s) := by
  change execSourceReturn s = _
  unfold execSourceReturn
  rw [hpref]
  exact if_pos (by simp [hact, hus, hdly])

/-! ### The reserve (R42, R43) -/

theorem heldWrites_none {s : State} (h : ∀ x ∈ s.nv.cmds, x.phase ≠ .held) : heldWrites s = [] := by
  unfold heldWrites
  rw [List.filter_eq_nil_iff.mpr (fun x hx => by simp [h x hx])]
  rfl

/-- With no write held there is none to admit. -/
theorem hostAdmitHeld_none {s : State} (h : ∀ x ∈ s.nv.cmds, x.phase ≠ .held) : hostAdmitHeld s = s := by
  unfold hostAdmitHeld
  rw [heldWrites_none h]
  exact ite_self s

theorem reserveReached_row {s : State} (hb : fget Fl.PWR_STATUS_BANK_STATE s ≠ 3) (hc : ∀ x ∈ s.nv.cmds, x.phase ≠ .held) :
    exec .reserveReached s = .next (fset Fl.PWR_STATUS_RESERVE_OK 1 s) := by
  change execReserveReached s = _
  unfold execReserveReached
  rw [if_neg hb, hostAdmitHeld_none (s := fset Fl.PWR_STATUS_RESERVE_OK 1 s) hc]

/-- The fall of the reserve, with its event. -/
def reserveFallen (s : State) : State := raiseEvent 0x01 0 Fl.PWR_EVENT_RESERVE_LOW (fset Fl.PWR_STATUS_RESERVE_OK 0 s)

theorem reserveFallen_shown (s : State) :
    fget Fl.PWR_STATUS_RESERVE_OK (reserveFallen s) = 0 ∧ fget Fl.PWR_EVENT_RESERVE_LOW (reserveFallen s) = 1 ∧
      OnlyMarked [Reg.PWR_STATUS, Reg.PWR_EVENT] s (reserveFallen s) := by
  unfold reserveFallen
  obtain ⟨hparts, hregs⟩ := raiseEvent_onlyMarked 0x01 0 Fl.PWR_EVENT_RESERVE_LOW (fset Fl.PWR_STATUS_RESERVE_OK 0 s)
  refine ⟨?_, fget_raiseEvent_self _ _ _ _ (by decide) rfl (by decide), hparts, fun a ha hm => ?_⟩
  · rw [fget_of_rd (hregs _ (by decide) (by decide)), fget_fset_self _ _ _ (by decide)]
    rfl
  · simp only [List.mem_cons, List.not_mem_nil, or_false, not_or] at ha
    rw [hregs a (fun h => ha.2 (List.mem_singleton.mp h)) hm, rd_fset_ne _ _ _ _ ha.1]

/-! ### The bank test (R44, R45) -/

/-- A test of the bank is under way. -/
def testStarted (s : State) : State := s |> fset Fl.PWR_CAP_CTRL_TEST 1 |> fset Fl.PWR_CAP_CTRL_TEST_BUSY 1

theorem startBankTest_admitted {s : State} (hb : fget Fl.PWR_CAP_CTRL_TEST_BUSY s = 0) (hp : fget Fl.PWR_COMMIT_STATE_PHASE s = 0)
    (hr : fget Fl.PWR_STATUS_RESERVE_OK s = 1) : startBankTest s = testStarted s := by
  unfold startBankTest
  rw [if_neg (by omega), if_neg (by omega)]
  rfl

theorem testStarted_shown (s : State) :
    fget Fl.PWR_CAP_CTRL_TEST (testStarted s) = 1 ∧ fget Fl.PWR_CAP_CTRL_TEST_BUSY (testStarted s) = 1 ∧
      OnlyRegs [Reg.PWR_CAP_CTRL] s (testStarted s) := by
  unfold testStarted
  refine ⟨?_, ?_, rfl, fun a ha => ?_⟩
  · rw [fget_fset_ne _ _ _ _ (.inr (.inr (by decide))), fget_fset_self _ _ _ (by decide)]
    rfl
  · rw [fget_fset_self _ _ _ (by decide)]
    rfl
  · have hne : a ≠ Reg.PWR_CAP_CTRL := List.ne_of_not_mem_cons ha
    rw [rd_fset_ne _ _ _ _ hne, rd_fset_ne _ _ _ _ hne]

/-- The test's measurements are recorded, before they are judged. -/
def testRecorded (energy cap esr : Nat) (s : State) : State :=
  let s1 := s |> fset Fl.PWR_CAP_CTRL_TEST 0 |> fset Fl.PWR_CAP_CTRL_TEST_BUSY 0
    |> fset Fl.PWR_CAP_HEALTH_ENERGY energy |> fset Fl.PWR_CAP_HEALTH_CAP cap |> fset Fl.PWR_CAP_HEALTH_ESR esr
  { s1 with pow := { s1.pow with testHours := 0, tests := Nat.min (s1.pow.tests + 1) 0xFFFFFFFF } }

theorem bankTestDone_row {energy cap esr : Nat} {s : State} (h : fget Fl.PWR_CAP_CTRL_TEST_BUSY s = 1) (he : energy < 4096) (hr : esr < 256) :
    exec (.bankTestDone energy cap esr) s = .next (setBankState (bankState energy esr) (testRecorded energy cap esr s)) := by
  change execBankTestDone energy cap esr s = _
  unfold execBankTestDone
  rw [if_pos h, Nat.mod_eq_of_lt he, Nat.mod_eq_of_lt hr]
  rfl

theorem testRecorded_shown {energy cap esr : Nat} (s : State) (he : energy < 4096) (hc : cap < 4096) (hr : esr < 256) :
    fget Fl.PWR_CAP_CTRL_TEST (testRecorded energy cap esr s) = 0 ∧ fget Fl.PWR_CAP_CTRL_TEST_BUSY (testRecorded energy cap esr s) = 0 ∧
      fget Fl.PWR_CAP_HEALTH_ENERGY (testRecorded energy cap esr s) = energy ∧
      fget Fl.PWR_CAP_HEALTH_CAP (testRecorded energy cap esr s) = cap ∧ fget Fl.PWR_CAP_HEALTH_ESR (testRecorded energy cap esr s) = esr := by
  have hregs : ∀ f, fget f (testRecorded energy cap esr s) = fget f (s |> fset Fl.PWR_CAP_CTRL_TEST 0 |> fset Fl.PWR_CAP_CTRL_TEST_BUSY 0
      |> fset Fl.PWR_CAP_HEALTH_ENERGY energy |> fset Fl.PWR_CAP_HEALTH_CAP cap |> fset Fl.PWR_CAP_HEALTH_ESR esr) := fun f => fget_congr rfl f
  simp (disch := decide) only [hregs, fget_fset_self, fget_fset_ne]
  exact ⟨rfl, rfl, Nat.mod_eq_of_lt he, Nat.mod_eq_of_lt hc, Nat.mod_eq_of_lt hr⟩

theorem bankState_lt (energy esr : Nat) : bankState energy esr < 4 := by
  unfold bankState
  repeat' split
  all_goals decide

/-- The bank is shown in state `n`, and apart from that only status and events of the power block and what completions write may differ. -/
def BankShows (n : Nat) (s t : State) : Prop :=
  fget Fl.PWR_STATUS_BANK_STATE t = n ∧ ∀ a, a ∉ completionRegs → a ≠ Reg.PWR_STATUS → a ≠ Reg.PWR_EVENT → rd a t = rd a s

section
variable {n : Nat} {s t : State} (h : BankShows n s t)
include h

theorem BankShows.event {f : Fld} (hf : f.addr = Reg.PWR_EVENT) : BankShows n s (raiseEvent 0x01 0 f t) := by
  obtain ⟨hstate, hkept⟩ := h
  refine ⟨(fget_of_rd (rd_raiseEvent_ne _ _ _ _ _ (by decide) (by rw [hf]; decide))).trans hstate, fun a hc hst hev => ?_⟩
  have hrecorder : a ∉ pbkRegs := fun hp => hc (List.mem_append_right _ hp)
  rw [rd_raiseEvent_ne _ _ _ _ _ hrecorder (by rwa [hf]), hkept a hc hst hev]

theorem BankShows.noReserve : BankShows n s (fset Fl.PWR_STATUS_RESERVE_OK 0 t) := by
  obtain ⟨hstate, hkept⟩ := h
  refine ⟨(fget_fset_ne _ _ _ _ (.inr (.inl (by decide)))).trans hstate, fun a hc hst hev => ?_⟩
  rw [rd_fset_ne _ _ _ _ hst, hkept a hc hst hev]

end

theorem setBankState_shows {n : Nat} (hn : n < 4) (s : State) : BankShows n s (setBankState n s) := by
  have hset : BankShows n s (fset Fl.PWR_STATUS_BANK_STATE n s) :=
    ⟨(fget_fset_self _ _ _ (by decide)).trans (Nat.mod_eq_of_lt hn), fun a _ hst _ => rd_fset_ne _ _ _ _ hst⟩
  have hsmart : ∀ u, BankShows n s u → BankShows n s (smartEvent 4 u) := fun u hu =>
    ⟨(fget_of_rd (rd_smartEvent (by decide) _ _)).trans hu.1, fun a hc hst hev => (rd_smartEvent hc _ _).trans (hu.2 a hc hst hev)⟩
  unfold setBankState
  dsimp only
  have hwarned : BankShows n s (if fget Fl.PWR_STATUS_BANK_STATE s < 2 ∧ 2 ≤ n then smartEvent 4 (fset Fl.PWR_STATUS_BANK_STATE n s)
      else fset Fl.PWR_STATUS_BANK_STATE n s) := by
    split
    · exact hsmart _ hset
    · exact hset
  generalize (if fget Fl.PWR_STATUS_BANK_STATE s < 2 ∧ 2 ≤ n then smartEvent 4 (fset Fl.PWR_STATUS_BANK_STATE n s)
      else fset Fl.PWR_STATUS_BANK_STATE n s) = u at hwarned
  split
  · exact hwarned
  · split
    · exact hwarned.event rfl
    · split
      · exact hwarned.event rfl
      · split
        · split
          · exact (hwarned.event rfl).noReserve.event rfl
          · exact hwarned.event rfl
        · exact hwarned

theorem setBankState_pow (n : Nat) (s : State) : (setBankState n s).pow = s.pow :=
  (setBankState_keeps n (Keeps.refl s) (Sub.refl 4194465)).only.pow rfl

/-! ### The settlement -/

/-- Settles O1: each row's branch, and what the fields and frames of its next state are. -/
theorem powerInputsAndBank : Obligations.PowerInputsAndBank := by
  unfold Obligations.PowerInputsAndBank
  intro s aux
  refine ⟨?stop, ?overvoltage, ?reconnect, ?threshold, ?transfer, ?back, ?reached, ?low, ?test, ?done⟩
  case stop =>
    obtain ⟨hself, hother⟩ := inputStopped_ok aux s
    obtain ⟨hq, hqo⟩ := inputStopped_qualifies aux s
    exact ⟨_, execInputStop_eq aux s, hself, hother, hq, hqo, mode_inputStopped aux s, inputStopped_regsBut aux s, inputStopped_start aux s⟩
  case overvoltage =>
    refine ⟨_, inputOvervoltage_row aux s, ?_⟩
    split
    case isTrue h0 =>
      obtain ⟨hself, hother, hq, hregs⟩ := inputOvervoltage_kept (aux := aux) (s := s) (.inl rfl)
      exact ⟨hself, hother, hq, fun hne => absurd h0 hne, hregs⟩
    case isFalse =>
      obtain ⟨hself, hother, hq, hregs⟩ := inputOvervoltage_kept (aux := aux) (s := s) (.inr rfl)
      exact ⟨hself, hother, hq, fun _ => fget_raiseEvent_self _ _ _ _ (by decide) rfl (by decide), hregs⟩
  case reconnect =>
    intro h0
    exact ⟨fset (inputOk aux) 1 (ovOver aux s), if_neg h0, fget_inputOk_self aux 1 _, rfl,
      fun a ha => rd_inputOk_ne (List.ne_of_not_mem_cons ha) aux 1 _⟩
  case threshold =>
    intro h0
    obtain ⟨hq, hqo⟩ := thresholdReached_qualifies aux s
    refine ⟨_, inputAtStartThreshold_row h0, ?_⟩
    split
    case isTrue hen =>
      have hm : (if s.pow.pwrdis then 2 else 3) < 16 := by split <;> decide
      obtain ⟨hmode, htrans, htarget⟩ := beginTransition_shown hm (thresholdReached aux s)
      exact ⟨hq, hqo, hmode.trans h0, fun _ => ⟨htrans, htarget, fun a ha _ => rd_beginTransition (List.ne_of_not_mem_cons ha) _ _⟩,
        fun hdis => by rw [hen] at hdis; cases hdis⟩
    case isFalse hen =>
      exact ⟨hq, hqo, h0, fun hen' => absurd hen' hen, fun _ => rfl⟩
  case transfer =>
    intro cur hcur hlost hother
    obtain ⟨hact, hev, hcount⟩ := takeSource_taken (!cur) s
    refine ⟨_, sourceTransfer_row hcur hlost hother, hact.trans ?_, hev, hcount⟩
    cases cur <;> rfl
  case back =>
    intro pref hpref hact hus hdly
    obtain ⟨hactive, hev, -⟩ := takeSource_taken pref s
    exact ⟨_, sourceReturn_row hpref hact hus hdly, hactive, hev⟩
  case reached =>
    intro hb hc
    exact ⟨_, reserveReached_row hb hc, fget_fset_self _ _ _ (by decide), rfl, fun a ha => rd_fset_ne _ _ _ _ (List.ne_of_not_mem_cons ha)⟩
  case low =>
    intro hr
    exact ⟨reserveFallen s, if_pos hr, reserveFallen_shown s⟩
  case test =>
    intro hb hp hr
    have hstart := startBankTest_admitted hb hp hr
    refine ⟨⟨testStarted s, congrArg Host.Outcome.next hstart, testStarted_shown s⟩, fun hm => ⟨testStarted s, ?_, testStarted_shown s⟩⟩
    exact (if_pos hm).trans (congrArg Host.Outcome.next hstart)
  case done =>
    intro energy cap esr he hc hr hb
    obtain ⟨hstate, hkept⟩ := setBankState_shows (bankState_lt energy esr) (testRecorded energy cap esr s)
    obtain ⟨htest, hbusy, henergy, hcap, hesr⟩ := testRecorded_shown s he hc hr
    have hctrl := hkept Reg.PWR_CAP_CTRL (by decide) (by decide) (by decide)
    have hhealth := hkept Reg.PWR_CAP_HEALTH (by decide) (by decide) (by decide)
    refine ⟨_, bankTestDone_row hb he hr, (fget_of_rd hctrl).trans htest, (fget_of_rd hctrl).trans hbusy, (fget_of_rd hhealth).trans henergy,
      (fget_of_rd hhealth).trans hcap, (fget_of_rd hhealth).trans hesr, hstate, ?_⟩
    rw [setBankState_pow]
    rfl

end Sys2Proof.Machine
end

section
/-! Power domains through the steps of seal and into Dark (R46, R48, R50–R52). -/

namespace Sys2Proof.Machine

/-! ### Domains switched by their mask (R67, R68) -/

theorem pdOn_congr {s t : State} (hlo : rd Reg.AON_PD_ON_LO t = rd Reg.AON_PD_ON_LO s) (hhi : rd Reg.AON_PD_ON_HI t = rd Reg.AON_PD_ON_HI s)
    (n : Nat) : pdOn n t = pdOn n s := by
  unfold pdOn
  rw [hlo, hhi]

theorem pdRetired_congr {s t : State} (hlo : rd Reg.AON_PD_RETIRED_LO t = rd Reg.AON_PD_RETIRED_LO s)
    (hhi : rd Reg.AON_PD_RETIRED_HI t = rd Reg.AON_PD_RETIRED_HI s) (n : Nat) : pdRetired n t = pdRetired n s := by
  unfold pdRetired
  rw [hlo, hhi]

theorem pdRetired_setPower (n mask : Nat) (s : State) : pdRetired n (setPower mask s) = pdRetired n s :=
  pdRetired_congr (rd_setPower (showsNoUnit_of (.inl (by decide))) (by decide) mask s)
    (rd_setPower (showsNoUnit_of (.inl (by decide))) (by decide) mask s) n

/-- After a change of domains and clocks, those are on that are asked for and not retired. -/
theorem pdOn_setPower {n : Nat} (hn : n < 40) (mask : Nat) (s : State) : pdOn n (setPower mask s) = (mask.testBit n && !pdRetired n s) :=
  (pdOn_congr (rd_showClocks (by decide) _) (rd_showClocks (by decide) _) n).trans (pdOn_setDomains hn mask s)

theorem powered_testBit {n : Nat} (hn : n < 40) (s : State) : (powered s).testBit n = pdOn n s := by
  unfold powered pdOn
  rw [Nat.add_comm, Nat.testBit_two_pow_mul_add _ (BitVec.isLt _)]
  split
  case isTrue h => rw [BitVec.testBit_toNat, BitVec.getLsbD_extractLsb', decide_eq_true h, Bool.true_and, Nat.zero_add]
  case isFalse h =>
    rw [BitVec.testBit_toNat, BitVec.getLsbD_extractLsb', decide_eq_true (by omega : n - 32 < 8), Bool.true_and, Nat.zero_add]

/-- Domains that are switched off go off, and the others stay as they are, but for retired ones (R48). -/
theorem pdOn_switchOff {n : Nat} (hn : n < 40) (off : Nat) (s : State) :
    pdOn n (switchOff off s) = (pdOn n s && !off.testBit n && !pdRetired n s) := by
  unfold switchOff
  rw [pdOn_setPower hn, BitVec.testBit_toNat, BitVec.getLsbD_and, BitVec.getLsbD_not, BitVec.getLsbD_ofNat, BitVec.getLsbD_ofNat,
    decide_eq_true hn, powered_testBit hn, Bool.true_and, Bool.true_and, Bool.true_and]

theorem rd_switchOff {a : Nat} (h : ShowsNoUnit a) (ha : a ∉ powerRegs) (off : Nat) (s : State) : rd a (switchOff off s) = rd a s :=
  rd_setPower h ha _ s

/-! ### Registers of blocks that are not cleared (R48, R74) -/

/-- Clearing other blocks leaves a register of the always-on, power and clock blocks. -/
theorem rd_clearBlocks {p : Block → Bool} {b : Block} {a : Nat} (hlow : a < 0x40040000) (hb : (regInfo a).map (·.1) = some b) (hp : p b = false)
    (s : State) : rd a (clearBlocks p s) = rd a s := by
  refine (clearBlocks_low p s a hlow).trans (rd_clearRegs (fun c i r hinfo => ?_) s)
  have hc : c = b := by
    rw [hinfo] at hb
    exact Option.some.inj hb
  rw [hc, hp]
  rfl

theorem commitState_block : (regInfo Reg.PWR_COMMIT_STATE).map (·.1) = some .pwr := by decide +kernel

theorem pdRegs_block : (regInfo Reg.AON_PD_ON_LO).map (·.1) = some .aon ∧ (regInfo Reg.AON_PD_ON_HI).map (·.1) = some .aon ∧
    (regInfo Reg.AON_PD_RETIRED_LO).map (·.1) = some .aon ∧ (regInfo Reg.AON_PD_RETIRED_HI).map (·.1) = some .aon := by decide +kernel

/-! ### Seal starts (R48, R51) -/

/-- Seal has started, and no domain is off yet. -/
def sealBegun (s : State) : State := sealFlash (fset Fl.PWR_COMMIT_STATE_PHASE 2 { s with pow := { s.pow with sealStep := 1 } })

/-- The blocks whose domains the first step of seal switches off. -/
def sealedFirst (b : Block) : Bool := b == .axc || b == .mat || b == .cmp || b == .net || b == .sch

theorem rd_sealFlash {a : Nat} (h : a ≠ Reg.CFL_STATUS) (s : State) : rd a (sealFlash s) = rd a s := by
  unfold sealFlash
  dsimp only
  rw [rd_fset_ne _ _ _ _ h]
  split
  · exact rd_fset_ne _ _ _ _ h
  · exact rd_fset_ne _ _ _ _ h
  · rfl

theorem sealBegun_pow (s : State) : (sealBegun s).pow.sealStep = 1 := by
  unfold sealBegun
  rw [(sealFlash_keeps (Keeps.refl _) (Sub.refl 4194305)).only.pow rfl]
  rfl

theorem sealBegun_phase (s : State) : fget Fl.PWR_COMMIT_STATE_PHASE (sealBegun s) = 2 := by
  unfold sealBegun
  rw [fget_of_rd (rd_sealFlash (by decide) _), fget_fset_self _ _ _ (by decide)]
  rfl

theorem rd_sealBegun {a : Nat} (h : a ≠ Reg.CFL_STATUS) (hp : a ≠ Reg.PWR_COMMIT_STATE) (s : State) : rd a (sealBegun s) = rd a s := by
  unfold sealBegun
  rw [rd_sealFlash h, rd_fset_ne _ _ _ _ hp]
  rfl

theorem pd_sealBegun (n : Nat) (s : State) : pdOn n (sealBegun s) = pdOn n s ∧ pdRetired n (sealBegun s) = pdRetired n s :=
  ⟨pdOn_congr (rd_sealBegun (by decide) (by decide) s) (rd_sealBegun (by decide) (by decide) s) n,
    pdRetired_congr (rd_sealBegun (by decide) (by decide) s) (rd_sealBegun (by decide) (by decide) s) n⟩

theorem sealStart_row {s : State} (hphase : fget Fl.PWR_COMMIT_STATE_PHASE s = 1) (hdone : s.pow.braceDone = true) (hdue : s.pow.sealDue = true) :
    exec .sealStart s = .next (if s.pow.braceFrom = 1 then setPower 0x7 (sealBegun s)
      else switchOff sealFirst (clearBlocks sealedFirst (sealBegun s))) := by
  change execSealStart s = _
  unfold execSealStart
  rw [if_pos ⟨hphase, hdone, hdue⟩]
  exact (apply_ite Host.Outcome.next _ _ _).symm

theorem sealFirst_testBit {n : Nat} (hn : n < 40) :
    sealFirst.testBit n = ([6, 8, 9, 10, 11].contains n || (decide (12 ≤ n) && decide (n ≤ 25))) := by
  have hall : ∀ n : Fin 40, sealFirst.testBit n = ([6, 8, 9, 10, 11].contains n.val || (decide (12 ≤ n.val) && decide (n.val ≤ 25))) := by decide
  exact hall ⟨n, hn⟩

/-- The first step of seal from a mode with work to do. -/
theorem sealStart_switchedOff (s : State) :
    fget Fl.PWR_COMMIT_STATE_PHASE (switchOff sealFirst (clearBlocks sealedFirst (sealBegun s))) = 2 ∧
      (switchOff sealFirst (clearBlocks sealedFirst (sealBegun s))).pow.sealStep = 1 ∧
      ∀ n, n < 40 → pdOn n (switchOff sealFirst (clearBlocks sealedFirst (sealBegun s))) =
        (pdOn n s && !([6, 8, 9, 10, 11].contains n || (decide (12 ≤ n) && decide (n ≤ 25))) && !pdRetired n s) := by
  obtain ⟨hlo, hhi, hrlo, hrhi⟩ := pdRegs_block
  refine ⟨?_, ?_, fun n hn => ?_⟩
  · rw [fget_of_rd (rd_switchOff (showsNoUnit_of (.inl (by decide))) (by decide) _ _),
      fget_of_rd (rd_clearBlocks (by decide) commitState_block rfl _), sealBegun_phase]
  · rw [(switchOff_keeps sealFirst (Keeps.refl _) (Sub.refl 1)).only.pow rfl, (clearBlocks_keeps _ (Keeps.refl _) (Sub.refl 1)).only.pow rfl,
      sealBegun_pow]
  · rw [pdOn_switchOff hn, sealFirst_testBit hn,
      pdOn_congr (rd_clearBlocks (by decide) hlo rfl _) (rd_clearBlocks (by decide) hhi rfl _),
      pdRetired_congr (rd_clearBlocks (by decide) hrlo rfl _) (rd_clearBlocks (by decide) hrhi rfl _), (pd_sealBegun n s).1, (pd_sealBegun n s).2]

/-- From Keep the bank powers the management domains for the recorder's copy (R51). -/
theorem sealStart_fromKeep (s : State) :
    fget Fl.PWR_COMMIT_STATE_PHASE (setPower 0x7 (sealBegun s)) = 2 ∧ (setPower 0x7 (sealBegun s)).pow.sealStep = 1 ∧
      ∀ n, n < 40 → pdOn n (setPower 0x7 (sealBegun s)) = (decide (n ≤ 2) && !pdRetired n s) := by
  have hmask : ∀ n : Fin 40, (0x7).testBit n = decide (n.val ≤ 2) := by decide
  refine ⟨?_, ?_, fun n hn => ?_⟩
  · rw [fget_of_rd (rd_setPower (showsNoUnit_of (.inl (by decide))) (by decide) _ _), sealBegun_phase]
  · rw [(setPower_keeps 0x7 (Keeps.refl _) (Sub.refl 1)).only.pow rfl, sealBegun_pow]
  · rw [pdOn_setPower hn, hmask ⟨n, hn⟩, (pd_sealBegun n s).2]

/-! ### Seal ends (R50) -/

/-- The end of seal is recorded and every rail removed but that of the always-on island; `u` is the state after the last step of seal. -/
def sealRecorded (energy duration from' : Nat) (u : State) : State :=
  u |> fset Fl.PWR_COMMIT_LAST_ENERGY (Nat.min energy 4095) |> fset Fl.PWR_COMMIT_LAST_DURATION (Nat.min duration 4095)
    |> fset Fl.PWR_COMMIT_LAST_COMPLETE 1 |> fset Fl.PWR_COMMIT_LAST_FROM_MODE from'
    |> fset Fl.PWR_COMMIT_STATE_PHASE 0 |> fset Fl.PWR_STATUS_SWITCHED_IN 0 |> fset Fl.PWR_STATUS_CHG_ON 0
    |> fset Fl.PBK_STATUS_SEALED 0 |> setPower 1

/-- The bank is disconnected, and the judgement comes next. -/
def sealEnded (energy duration from' : Nat) (u : State) : State :=
  { sealRecorded energy duration from' u with
    pow := { (sealRecorded energy duration from' u).pow with afterSeal := .judge, commitToReport := true, sealStep := 0 }
    pbk := { (sealRecorded energy duration from' u).pbk with cleanStop := !(sealRecorded energy duration from' u).pbk.sealMissed } }

theorem sealEnd_row {s : State} (h : fget Fl.PWR_COMMIT_STATE_PHASE s = 2) (energy duration : Nat) :
    exec (.sealEnd energy duration) s = .next (sealEnded energy duration s.pow.fromMode (sealAdvance (sealAdvance s))) := by
  change execSealEnd energy duration s = _
  unfold execSealEnd
  exact if_pos h

section
variable (energy duration from' : Nat) (u : State)

theorem sealEnded_fields :
    fget Fl.PWR_COMMIT_STATE_PHASE (sealEnded energy duration from' u) = 0 ∧
      fget Fl.PWR_COMMIT_LAST_COMPLETE (sealEnded energy duration from' u) = 1 ∧
      fget Fl.PWR_COMMIT_LAST_ENERGY (sealEnded energy duration from' u) = Nat.min energy 4095 ∧
      fget Fl.PWR_COMMIT_LAST_DURATION (sealEnded energy duration from' u) = Nat.min duration 4095 := by
  have hregs : ∀ f : Fld, f.addr = Reg.PWR_COMMIT_STATE ∨ f.addr = Reg.PWR_COMMIT_LAST → fget f (sealEnded energy duration from' u) =
      fget f (u |> fset Fl.PWR_COMMIT_LAST_ENERGY (Nat.min energy 4095) |> fset Fl.PWR_COMMIT_LAST_DURATION (Nat.min duration 4095)
        |> fset Fl.PWR_COMMIT_LAST_COMPLETE 1 |> fset Fl.PWR_COMMIT_LAST_FROM_MODE from'
        |> fset Fl.PWR_COMMIT_STATE_PHASE 0 |> fset Fl.PWR_STATUS_SWITCHED_IN 0 |> fset Fl.PWR_STATUS_CHG_ON 0
        |> fset Fl.PBK_STATUS_SEALED 0) := by
    intro f hf
    have hshows : ShowsNoUnit f.addr ∧ f.addr ∉ powerRegs := by
      rcases hf with hf | hf
      · exact hf ▸ ⟨showsNoUnit_of (.inl (by decide)), by decide⟩
      · exact hf ▸ ⟨showsNoUnit_of (.inl (by decide)), by decide⟩
    exact fget_of_rd (rd_setPower hshows.1 hshows.2 1 _)
  have hmin : ∀ n, Nat.min n 4095 < 2 ^ 12 := fun n => Nat.lt_of_le_of_lt (Nat.min_le_right n 4095) (by decide)
  rw [hregs _ (.inl rfl), hregs _ (.inr rfl), hregs _ (.inr rfl), hregs _ (.inr rfl)]
  simp (disch := decide) only [fget_fset_self, fget_fset_ne]
  exact ⟨rfl, rfl, Nat.mod_eq_of_lt (hmin energy), Nat.mod_eq_of_lt (hmin duration)⟩

theorem pdOn_sealEnded {n : Nat} (hn : n < 40) :
    pdOn n (sealEnded energy duration from' u) = (n == 0 && !pdRetired n (sealEnded energy duration from' u)) := by
  have hmask : ∀ n : Fin 40, (1).testBit n = (n.val == 0) := by decide
  change pdOn n (sealRecorded energy duration from' u) = (n == 0 && !pdRetired n (sealRecorded energy duration from' u))
  unfold sealRecorded
  rw [pdOn_setPower hn, pdRetired_setPower, hmask ⟨n, hn⟩]

end

/-! ### Dark (R46, R50, R52) -/

theorem rd_pbkPending {a : Nat} (h : a ≠ Reg.PBK_STATUS) (s : State) : rd a (pbkPending s) = rd a s := rd_fset_ne _ _ _ _ h

theorem rd_enterDark {a : Nat} (h : a ∉ [Reg.PWR_STATUS, Reg.CLK_STATUS, Reg.PBK_STATUS]) (s : State) :
    rd a (enterDark s) = rd a (setDomains 0 (enterMode 0 (dropUnsaved (moduleClear s)))) := by
  simp only [List.mem_cons, List.not_mem_nil, or_false, not_or] at h
  obtain ⟨hst, hclk, hpbk⟩ := h
  unfold enterDark
  generalize setDomains 0 (enterMode 0 (dropUnsaved (moduleClear s))) = u
  dsimp only
  rw [rd_pbkPending hpbk, rd_wr_ne _ _ hclk, rd_wr_ne _ _ hst]
  rfl

/-- In Dark no domain is on and no status of the inputs shows. -/
theorem enterDark_dark (s : State) :
    mode (enterDark s) = 0 ∧ rd Reg.PWR_STATUS (enterDark s) = 0 ∧ ∀ n, n < 40 → pdOn n (enterDark s) = false := by
  refine ⟨?_, ?_, fun n hn => ?_⟩
  · rw [mode_congr (rd_enterDark (by decide) s), mode_congr (rd_setDomains (showsNoUnit_of (.inl (by decide))) (by decide) (by decide) 0 _),
      mode_enterMode (by decide)]
  · unfold enterDark
    dsimp only
    rw [rd_pbkPending (by decide), rd_wr_ne _ _ (by decide), rd_wr_self]
  · rw [pdOn_congr (rd_enterDark (by decide) s) (rd_enterDark (by decide) s), pdOn_setDomains hn, Nat.zero_testBit]
    rfl

theorem enterDark_sealsCut (s : State) : (enterDark s).pow.sealsCut = s.pow.sealsCut := rfl

/-- Regulator cutoff leads to Dark, and a seal that it cuts is counted (R52, R58). -/
theorem regulatorCutoff_row (n : Nat) {s : State} (h : mode s ≠ 0) :
    ∃ u, exec (.regulatorCutoff n) s = .next (enterDark u) ∧
      (mode s = 8 → s.pow.afterSeal = .none → u.pow.sealsCut = Nat.min (s.pow.sealsCut + 1) 0xFFFFFFFF) := by
  by_cases hcut : mode s = 8 ∧ s.pow.afterSeal = .none
  · exact ⟨_, (if_neg h).trans (if_pos hcut), fun _ _ => rfl⟩
  · have hno : ∀ u : State, mode s = 8 → s.pow.afterSeal = .none → u.pow.sealsCut = Nat.min (s.pow.sealsCut + 1) 0xFFFFFFFF :=
      fun _ h8 hseal => absurd ⟨h8, hseal⟩ hcut
    by_cases hseal : s.pow.afterSeal = .none
    · exact ⟨_, (if_neg h).trans ((if_neg hcut).trans (if_pos hseal)), hno _⟩
    · exact ⟨s, (if_neg h).trans ((if_neg hcut).trans (if_neg hseal)), hno s⟩

end Sys2Proof.Machine
end

section
/-! Recovery from brace and the judgement after seal (R46, R49, R50, R55), and statement O3. -/

namespace Sys2Proof.Machine

/-! ### What goes on when brace is left, with no command outstanding -/

theorem wakeReads_none {s : State} (h : s.nv.cmds = []) : wakeReads s = s := by
  unfold wakeReads waitingReads
  rw [h]
  rfl

theorem goOn_none {s : State} (h : s.nv.cmds = []) : goOn s = showTags (shutdownProgress s) := by
  have hquiet : ∀ y ∈ s.nv.cmds, y.result = none ∧ (y.kind = .flush → y.phase ≠ .started) := by
    rw [h]
    exact fun _ hy => absurd hy List.not_mem_nil
  unfold goOn applyAll settleAll
  rw [wakeReads_none h, h]
  change showTags (shutdownProgress (settle (2 * s.nv.cmds.length + 2) s)) = _
  rw [settle_quiet _ hquiet]

theorem rd_recoverBlocks_none {a : Nat} {s : State} (h : s.nv.cmds = []) (ha : a ∉ completionRegs) (hs : a ≠ Reg.SCH_STATUS) :
    rd a (recoverBlocks s) = rd a s := by
  unfold recoverBlocks
  rw [goOn_none (s := { s with nv := { s.nv with brace := false } }) h, hostAdmitHeld_none]
  · unfold schRecover
    rw [rd_fset_ne _ _ _ _ hs, rd_showTags ha]
    rfl
  · intro x hx
    have hnv : ∀ t, (schRecover (showTags t)).nv = t.nv := showTags_nv
    rw [hnv] at hx
    change x ∈ s.nv.cmds at hx
    rw [h] at hx
    exact absurd hx List.not_mem_nil

theorem recoverBlocks_pow (s : State) : (recoverBlocks s).pow = s.pow := (recoverBlocks_keeps (Keeps.refl s) (Sub.refl 4459429)).only.pow rfl

theorem resumeResets_none {s : State} (h : s.pow.resetWait = none) (hs : s.pow.waitResets = []) : resumeResets s = s := by
  unfold resumeResets
  rw [h, hs]
  change { s with pow := { s.pow with waitResets := [] } } = s
  rw [← hs]

/-- No halted control core and no Halt: neither begins nor ends. -/
theorem haltMode_running {s : State} (hm : mode s ≠ 0xB) (hc : ∀ k, k < 12 → coreHalted (64 + k) s = false) : haltMode s = s := by
  have hany : (List.range 12).any (fun j => coreHalted (64 + j) s) = false :=
    List.any_eq_false.mpr (fun k hk => by rw [hc k (List.mem_range.mp hk)]; decide)
  unfold haltMode
  dsimp only
  rw [hany, if_neg (by simp), if_neg (by simp [hm])]

/-! ### Recovery (R46, R49) -/

/-- Brace is left: the mode before it is back. -/
def braceLeft (s : State) : State :=
  s |> enterMode s.pow.braceFrom |> showClocks |> fset Fl.PWR_COMMIT_STATE_PHASE 0
    |> fset Fl.PWR_STATUS_SWITCHED_IN 0 |> raiseEvent 0x01 0 Fl.PWR_EVENT_RECOVER

/-- What brace noted is void, and its recovery is counted; `s` is the state in brace. -/
def braceForgotten (s u : State) : State :=
  { u with pow := { u.pow with
      sealDue := false, byHold := false, braceDone := false, recovered := Nat.min (s.pow.recovered + 1) 0xFFFFFFFF } }

/-- What waited for the end of Commit follows. -/
def commitFollowed (u : State) : State :=
  settleReadOnly (haltMode (resumeResets (if u.pow.watchWait then pllToWatch { u with pow := { u.pow with watchWait := false } } else u)))

theorem braceRecovery_row {s : State} (hphase : fget Fl.PWR_COMMIT_STATE_PHASE s = 1) (hp : ¬ (s.pow.pfailInBrace = true ∧ pfailActs s = true)) :
    exec .braceRecovery s = .next (commitFollowed (recoverBlocks (braceForgotten s
      (if s.pow.heldTrans then beginTransition s.pow.heldTarget (braceLeft s) else braceLeft s)))) := by
  change execBraceRecovery s = _
  unfold execBraceRecovery commitFollowed braceForgotten braceLeft
  rw [if_pos ⟨hphase, hp⟩]

/-- The state that recovery comes to where no transition was held. -/
def braceRecovered (s : State) : State := recoverBlocks (braceForgotten s (braceLeft s))

theorem commitFollowed_none {u : State} (hw : u.pow.watchWait = false) (hr : u.pow.resetWait = none) (hrs : u.pow.waitResets = [])
    (hm : mode u ≠ 0xB) (hh : ∀ k, k < 12 → coreHalted (64 + k) u = false) (hro : fget Fl.AON_MODE_RO_CAUSE u = 0) : commitFollowed u = u := by
  unfold commitFollowed
  rw [hw, if_neg (by decide), resumeResets_none hr hrs, haltMode_running hm hh, settleReadOnly_noCause hro]

theorem braceLeft_parts (s : State) : (braceLeft s).pow = s.pow ∧ (braceLeft s).nv = s.nv := by
  have hclocks : ∀ t, Keeps 33 t (showClocks t) := fun t => showClocks_keeps (Keeps.refl t) ((Sub.refl 33).of rfl)
  have hk : Keeps 33 s (braceLeft s) :=
    raiseEvent_keeps _ _ _ (fset_keeps _ _ (fset_keeps _ _ ((enterMode_keeps _ (Keeps.refl s) (Sub.refl 33)).trans (hclocks _))
      ((Sub.refl 33).of rfl)) ((Sub.refl 33).of rfl)) (Sub.refl 33)
  exact ⟨hk.only.pow rfl, hk.only.nv rfl⟩

/-- The registers that leaving brace writes, but for the mode. -/
def braceLeftRegs : List Nat := [Reg.PWR_COMMIT_STATE, Reg.PWR_STATUS, Reg.PWR_EVENT] ++ clockRegs ++ pbkRegs

theorem rd_braceLeft {a : Nat} (h : a ∉ braceLeftRegs) (s : State) : rd a (braceLeft s) = rd a (enterMode s.pow.braceFrom s) := by
  simp only [braceLeftRegs, List.mem_append, List.mem_cons, List.not_mem_nil, or_false, not_or] at h
  obtain ⟨⟨⟨hcommit, hstatus, hevent⟩, hclocks⟩, hrecorder⟩ := h
  unfold braceLeft
  rw [rd_raiseEvent_ne _ _ _ _ _ hrecorder hevent, rd_fset_ne _ _ _ _ hstatus, rd_fset_ne _ _ _ _ hcommit, rd_showClocks hclocks]

theorem braceLeft_power (s : State) : fget Fl.PWR_COMMIT_STATE_PHASE (braceLeft s) = 0 ∧ fget Fl.PWR_EVENT_RECOVER (braceLeft s) = 1 ∧
    fget Fl.PWR_STATUS_SWITCHED_IN (braceLeft s) = 0 := by
  unfold braceLeft
  refine ⟨?_, fget_raiseEvent_self _ _ _ _ (by decide) rfl (by decide), ?_⟩
  · rw [fget_of_rd (rd_raiseEvent_ne _ _ _ _ _ (by decide) (by decide)), fget_of_rd (rd_fset_ne _ _ _ _ (by decide)),
      fget_fset_self _ _ _ (by decide)]
    rfl
  · rw [fget_of_rd (rd_raiseEvent_ne _ _ _ _ _ (by decide) (by decide)), fget_fset_self _ _ _ (by decide)]
    rfl

/-- A halted core's register is none of those that recovery writes. -/
theorem coreHalted_braceLeft (k : Nat) (s : State) : coreHalted k (braceLeft s) = coreHalted k s := by
  have hne : Reg.DBG_CORE_DSTATUS k ∉ Reg.AON_MODE :: braceLeftRegs := by
    have hlow : ∀ b ∈ Reg.AON_MODE :: braceLeftRegs, b < 0x4F001004 := by decide
    intro hmem
    have := hlow _ hmem
    simp only [Reg.DBG_CORE_DSTATUS] at this
    omega
  rw [List.mem_cons, not_or] at hne
  have hrecorder : Reg.DBG_CORE_DSTATUS k ∉ pbkRegs := fun hp => hne.2 (List.mem_append_right _ hp)
  unfold coreHalted
  rw [fget_of_rd ((rd_braceLeft hne.2 s).trans (rd_enterMode hrecorder hne.1 _ s))]

section
variable {s : State} (hc : s.nv.cmds = [])
include hc

theorem rd_recovered {a : Nat} (ha : a ∉ completionRegs) (hs : a ≠ Reg.SCH_STATUS) : rd a (braceRecovered s) = rd a (braceLeft s) :=
  rd_recoverBlocks_none ((congrArg Nvme.cmds (braceLeft_parts s).2).trans hc) ha hs

theorem mode_recovered (hf : s.pow.braceFrom < 16) : mode (braceRecovered s) = s.pow.braceFrom := by
  rw [mode_congr (rd_recovered hc (by decide) (by decide)), mode_congr (rd_braceLeft (by decide) s), mode_enterMode hf]

theorem roCause_recovered : fget Fl.AON_MODE_RO_CAUSE (braceRecovered s) = fget Fl.AON_MODE_RO_CAUSE s := by
  rw [fget_of_rd (rd_recovered hc (by decide) (by decide)), fget_of_rd (rd_braceLeft (by decide) s), roCause_enterMode]

theorem coreHalted_recovered (k : Nat) : coreHalted k (braceRecovered s) = coreHalted k s := by
  have hne : Reg.DBG_CORE_DSTATUS k ∉ Reg.SCH_STATUS :: completionRegs := by
    have hlow : ∀ b ∈ Reg.SCH_STATUS :: completionRegs, b < 0x4F001004 := by decide
    intro hmem
    have := hlow _ hmem
    simp only [Reg.DBG_CORE_DSTATUS] at this
    omega
  rw [List.mem_cons, not_or] at hne
  rw [← coreHalted_braceLeft k s]
  unfold coreHalted
  rw [fget_of_rd (rd_recovered hc hne.2 hne.1)]

end

/-- The parts of power that say what waits are as in brace. -/
theorem braceRecovered_waits (s : State) :
    (braceRecovered s).pow.watchWait = s.pow.watchWait ∧ (braceRecovered s).pow.resetWait = s.pow.resetWait ∧
      (braceRecovered s).pow.waitResets = s.pow.waitResets := by
  have hpow : (braceRecovered s).pow = (braceForgotten s (braceLeft s)).pow := recoverBlocks_pow _
  have hleft : (braceLeft s).pow = s.pow := (braceLeft_parts s).1
  rw [hpow]
  unfold braceForgotten
  dsimp only
  rw [hleft]
  exact ⟨rfl, rfl, rfl⟩

/-- With no command outstanding, no reset waiting and nothing halted, recovery is over once the blocks have recovered. -/
theorem braceRecovery_ends {s : State} (hphase : fget Fl.PWR_COMMIT_STATE_PHASE s = 1) (hp : ¬ (s.pow.pfailInBrace = true ∧ pfailActs s = true))
    (ht : s.pow.heldTrans = false) (hc : s.nv.cmds = []) (hb : s.pow.braceFrom ≠ 0xB) (hf : s.pow.braceFrom < 12)
    (hw : s.pow.watchWait = false) (hr : s.pow.resetWait = none) (hrs : s.pow.waitResets = []) (hro : fget Fl.AON_MODE_RO_CAUSE s = 0)
    (hh : ∀ k, k < 12 → coreHalted (64 + k) s = false) : exec .braceRecovery s = .next (braceRecovered s) := by
  obtain ⟨hwatch, hreset, hresets⟩ := braceRecovered_waits s
  have hfollowed : commitFollowed (braceRecovered s) = braceRecovered s :=
    commitFollowed_none (hwatch.trans hw) (hreset.trans hr) (hresets.trans hrs) (by rw [mode_recovered hc (by omega)]; exact hb)
      (fun k hk => (coreHalted_recovered hc _).trans (hh k hk)) ((roCause_recovered hc).trans hro)
  rw [braceRecovery_row hphase hp, ht, if_neg (by decide)]
  exact congrArg Host.Outcome.next hfollowed

/-! ### The bank holds VBUS (R46, R48) -/

theorem holdupSwitchIn_row {s : State} (h0 : mode s ≠ 0) (hseal : s.pow.afterSeal = .none) (hphase : fget Fl.PWR_COMMIT_STATE_PHASE s = 1) :
    exec .holdupSwitchIn s = .next { fset Fl.PWR_STATUS_SWITCHED_IN 1 s with pow := { s.pow with sealDue := true } } := by
  change execHoldupSwitchIn s = _
  unfold execHoldupSwitchIn
  rw [if_neg (by simp [h0, hseal])]
  exact if_pos hphase

/-- Outside brace the switch leaves the phase of Commit and the mode. -/
theorem holdupSwitchIn_kept {s : State} (hphase : fget Fl.PWR_COMMIT_STATE_PHASE s ≠ 1) :
    ∃ t, exec .holdupSwitchIn s = .next t ∧ fget Fl.PWR_COMMIT_STATE_PHASE t = fget Fl.PWR_COMMIT_STATE_PHASE s ∧ mode t = mode s := by
  change ∃ t, execHoldupSwitchIn s = .next t ∧ _
  unfold execHoldupSwitchIn
  split
  · exact ⟨s, rfl, rfl, rfl⟩
  · exact ⟨fset Fl.PWR_STATUS_SWITCHED_IN 1 s, rfl, fget_of_rd (rd_fset_ne _ _ _ _ (by decide)), mode_congr (rd_fset_ne _ _ _ _ (by decide))⟩

/-- The journal's way to flash leaves the parts of power: brace is complete. -/
theorem braceComplete_done {s : State} (hphase : fget Fl.PWR_COMMIT_STATE_PHASE s = 1) (hprog : programming s = false) :
    ∃ t, exec .braceComplete s = .next t ∧ t.pow.braceDone = true := by
  refine ⟨_, if_pos ⟨hphase, hprog⟩, ?_⟩
  split
  · rfl
  · rw [(ftlJournalOnFlash_keeps (Keeps.refl _) (Sub.refl 4459429)).only.pow rfl, (journalFlush_keeps (Keeps.refl _) (Sub.refl 769)).only.pow rfl]

/-! ### The judgement after seal (R50, R55) -/

theorem sealJudgment_dark {s : State} (v : Bool) (h : s.pow.afterSeal = .judge) (hm : fget Fl.PWR_STATUS_MAINS_OK s = 0)
    (ha : fget Fl.PWR_STATUS_AUX_OK s = 0) : exec (.sealJudgment v) s = .next (enterDark s) :=
  (if_pos h).trans (if_pos ⟨hm, ha⟩)

section
variable {s : State} (v : Bool) (h : s.pow.afterSeal = .judge) (hm : fget Fl.PWR_STATUS_MAINS_OK s = 1) (hw : s.pow.watchWait = false)
include h hm hw

theorem sealJudgment_vbus (hb : s.pow.byHold = false) :
    exec (.sealJudgment v) s = .next (if v
      then beginTransition 3 { recordWaitingReset s with pow := { (recordWaitingReset s).pow with afterSeal := .rest } }
      else goMode 1 { recordWaitingReset s with pow := { (recordWaitingReset s).pow with afterSeal := .keepVbus } }) := by
  change execSealJudgment v s = _
  unfold execSealJudgment
  rw [if_pos h, if_neg (by omega), hw, if_neg (by decide), hb, if_neg (by simp)]
  exact (apply_ite Host.Outcome.next _ _ _).symm

theorem sealJudgment_hold (hb : s.pow.byHold = true) (hen : fget Fl.PWR_PFAIL_CFG_EN s = 1) (hlow : s.pow.pfailLow = true) :
    exec (.sealJudgment v) s =
      .next (goMode 1 { recordWaitingReset s with pow := { (recordWaitingReset s).pow with afterSeal := .keepPfail } }) := by
  change execSealJudgment v s = _
  unfold execSealJudgment
  rw [if_pos h, if_neg (by omega), hw, if_neg (by decide), if_pos ⟨hb, hen⟩]
  exact if_pos hlow

end

/-! ### The rest after seal (R50) -/

theorem reportCommit_resets (s : State) :
    (reportCommit s).pow.resetWait = s.pow.resetWait ∧ (reportCommit s).pow.waitResets = s.pow.waitResets := by
  have hmark : ∀ args t, (postmark 0x0283 0x02 args t).pow = t.pow :=
    fun args t => (postmark_keeps _ _ args (Keeps.refl t) (Sub.refl 33)).only.pow rfl
  unfold reportCommit
  split
  · rw [hmark]
    exact ⟨rfl, rfl⟩
  · exact ⟨rfl, rfl⟩

/-- Of the parts of power, Rise changes what it sets at its start alone. -/
theorem startRise_pow (s : State) : (startRise s).pow = (reportCommit { s with pow := { s.pow with
    afterSeal := .none, riseStep := .qualified, slotFallbacks := 0, pllWatch := false, faultWatch := false } }).pow := by
  have hpower : ∀ m t, (setPower m t).pow = t.pow := fun m t => (setPower_keeps m (Keeps.refl t) (Sub.refl 1)).only.pow rfl
  have hloss : ∀ n t, (forN (fun n => fset (Fl.CLK_PLL_CTRL_LOSS_COUNT n) 0) n t).pow = t.pow := fun n t =>
    (forN_keeps (M := 1) (Keeps.refl t) (fun i u => fset_keeps _ _ (Keeps.refl u) (Sub.refl 1))).only.pow rfl
  have hbegun : ∀ t, (mgtStart (pdOn 1 s) (bootFirmware (hostRise t))).pow = t.pow := fun t =>
    ((mgtStart_keeps _ (Keeps.refl _) (Sub.refl 4718593)).only.pow rfl).trans
      (((bootFirmware_keeps (Keeps.refl _) (Sub.refl 4194304)).only.pow rfl).trans ((hostRise_keeps (Keeps.refl _) (Sub.refl 129)).only.pow rfl))
  rw [startRise_eq, hbegun]
  unfold riseBegun
  rw [fset_pow, fset_pow, fset_pow, hloss, hpower, enterMode_pow]

/-- With no reset waiting, the end of the rest is the start of Rise. -/
theorem restExpiry_row {s : State} (h : s.pow.afterSeal = .rest) (hr : s.pow.resetWait = none) (hrs : s.pow.waitResets = []) :
    exec .restExpiry s = .next (startRise (fset Fl.AON_WAKE_SRC_VBUS 1 s)) := by
  have hpow := startRise_pow (fset Fl.AON_WAKE_SRC_VBUS 1 s)
  obtain ⟨hreset, hresets⟩ := reportCommit_resets { fset Fl.AON_WAKE_SRC_VBUS 1 s with pow := { s.pow with
    afterSeal := .none, riseStep := .qualified, slotFallbacks := 0, pllWatch := false, faultWatch := false } }
  change execRestExpiry s = _
  unfold execRestExpiry
  rw [if_pos h, resumeResets_none]
  · exact (congrArg Pow.resetWait hpow).trans (hreset.trans hr)
  · exact (congrArg Pow.waitResets hpow).trans (hresets.trans hrs)

theorem keepVbusRecovery_row {s : State} (h : s.pow.afterSeal = .keepVbus) (hm : mode s = 1) (hp : s.pow.pwrdis = false) :
    exec .keepVbusRecovery s = .next (startRise (fset Fl.AON_WAKE_SRC_VBUS 1 s)) := by
  change execKeepVbusRecovery s = _
  unfold execKeepVbusRecovery
  rw [if_pos ⟨h, hm⟩]
  exact congrArg Host.Outcome.next (if_neg (show ¬ s.pow.pwrdis = true by rw [hp]; decide))

/-- Rise that VBUS starts shows it as the source of wake. -/
theorem startRise_vbus (s : State) :
    mode (startRise (fset Fl.AON_WAKE_SRC_VBUS 1 s)) = 3 ∧ (startRise (fset Fl.AON_WAKE_SRC_VBUS 1 s)).pow.riseStep = .qualified ∧
      fget Fl.AON_WAKE_SRC_VBUS (startRise (fset Fl.AON_WAKE_SRC_VBUS 1 s)) = 1 := by
  obtain ⟨hmode, hstep, -, hsrc⟩ := startRise_woken (fset Fl.AON_WAKE_SRC_VBUS 1 s)
  exact ⟨hmode, hstep, (fget_of_rd hsrc).trans (fget_fset_self _ _ _ (by decide))⟩

/-! ### The settlement -/

section
variable {s : State} (hphase : fget Fl.PWR_COMMIT_STATE_PHASE s ≠ 1)
include hphase

theorem braceRecovery_outside : exec .braceRecovery s = .next s := if_neg (fun h => hphase h.1)

theorem brownoutLimit_outside : exec .brownoutLimit s = .next s := if_neg hphase

theorem vbusWarn_inSeal (h8 : mode s = 8) : exec .vbusWarn s = .next s :=
  (if_neg (by omega)).trans ((if_pos h8).trans (if_neg hphase))

end

/-- Settles O3: each row's branch, the domains from the masks of its step, and the frames of what follows. -/
theorem braceAndSealEnd : Obligations.BraceAndSealEnd := by
  unfold Obligations.BraceAndSealEnd
  intro s
  refine ⟨?brace, ?sealEnd, ?dark, ?judged, ?rest, ?keepVbus, ?noRecovery, ?inSeal, ?cutoff⟩
  case brace =>
    intro hphase
    refine ⟨?hold, ?holdup, ?brownout, ?complete, ?programming, ?recovery, ?start⟩
    case hold =>
      intro hlow hen hdue
      exact ⟨_, if_pos ⟨hphase, hlow, hen, by rw [hdue]; decide⟩, rfl⟩
    case holdup =>
      intro h0 hseal
      exact ⟨_, holdupSwitchIn_row h0 hseal hphase, fget_fset_self _ _ _ (by decide), rfl⟩
    case brownout => exact ⟨_, if_pos hphase, fget_fset_self _ _ _ (by decide), rfl⟩
    case complete => exact braceComplete_done hphase
    case programming =>
      intro hprog
      exact ⟨s, if_neg (fun h => by rw [hprog] at h; cases h.2), rfl⟩
    case recovery =>
      intro hp ht hc hb hf hw hr hrs hro hh
      obtain ⟨hcommit, hevent, hswitched⟩ := braceLeft_power s
      exact ⟨_, braceRecovery_ends hphase hp ht hc hb hf hw hr hrs hro hh, mode_recovered hc (by omega),
        (fget_of_rd (rd_recovered hc (by decide) (by decide))).trans hcommit, (fget_of_rd (rd_recovered hc (by decide) (by decide))).trans hevent,
        (fget_of_rd (rd_recovered hc (by decide) (by decide))).trans hswitched⟩
    case start =>
      intro hdone hdue
      have hrow := sealStart_row hphase hdone hdue
      refine ⟨fun hf => ?_, fun hf => ?_⟩
      · rw [if_neg hf] at hrow
        exact ⟨_, hrow, sealStart_switchedOff s⟩
      · rw [if_pos hf] at hrow
        exact ⟨_, hrow, sealStart_fromKeep s⟩
  case sealEnd =>
    intro energy duration hphase
    obtain ⟨hcommit, hcomplete, henergy, hduration⟩ := sealEnded_fields energy duration s.pow.fromMode (sealAdvance (sealAdvance s))
    exact ⟨_, sealEnd_row hphase energy duration, hcommit, hcomplete, henergy, hduration, rfl, rfl, fun n hn => pdOn_sealEnded _ _ _ _ hn⟩
  case dark =>
    intro v h hm ha
    obtain ⟨hmode, -, hoff⟩ := enterDark_dark s
    exact ⟨_, sealJudgment_dark v h hm ha, hmode, hoff⟩
  case judged =>
    intro v h hm hw
    refine ⟨fun hb _ _ => ⟨_, sealJudgment_vbus v h hm hw hb, ?_⟩, fun hb hen hlow _ _ => ⟨_, sealJudgment_hold v h hm hw hb hen hlow, ?_⟩⟩
    · cases v with
      | true =>
        obtain ⟨-, htrans, htarget⟩ := beginTransition_shown (m := 3) (by decide)
          { recordWaitingReset s with pow := { (recordWaitingReset s).pow with afterSeal := .rest } }
        exact ⟨rfl, htarget, htrans⟩
      | false => exact ⟨congrArg Pow.afterSeal (goMode_pow 1 _), mode_goMode (by decide) _⟩
    · exact ⟨congrArg Pow.afterSeal (goMode_pow 1 _), mode_goMode (by decide) _⟩
  case rest =>
    intro h hr hrs
    exact ⟨_, restExpiry_row h hr hrs, startRise_vbus s⟩
  case keepVbus =>
    intro h hm hp
    exact ⟨_, keepVbusRecovery_row h hm hp, startRise_vbus s⟩
  case noRecovery =>
    intro hphase
    exact ⟨s, braceRecovery_outside hphase, rfl⟩
  case inSeal =>
    intro hphase h8
    have hseal : fget Fl.PWR_COMMIT_STATE_PHASE s ≠ 1 := by omega
    obtain ⟨t, hrow, hkept, hmode⟩ := holdupSwitchIn_kept hseal
    exact ⟨⟨s, vbusWarn_inSeal hseal h8, hphase, h8⟩, ⟨t, hrow, hkept.trans hphase, hmode.trans h8⟩, ⟨s, brownoutLimit_outside hseal, rfl⟩⟩
  case cutoff =>
    intro n h0
    obtain ⟨u, hrow, hcut⟩ := regulatorCutoff_row n h0
    obtain ⟨hmode, hstatus, hoff⟩ := enterDark_dark u
    exact ⟨_, hrow, hmode, hstatus, fun h8 hseal => (enterDark_sealsCut u).trans (hcut h8 hseal), hoff⟩

end Sys2Proof.Machine
end

section
/-! Rows of the register table that a cluster's clear meets (R301): the class of each register, and what the cleared ones hold after. -/

namespace Sys2Proof.Machine

section
variable {n : Nat} (hn : n < 8)
include hn

theorem cacheCtrl_cleared : (regInfo (Reg.AXC_CACHE_CTRL n)).any (fun x => x.1 == .axc && x.2.1 == n && x.2.2.cls == .m) = true := by
  revert n
  decide +kernel

theorem lockCtrl_cleared : (regInfo (Reg.AXC_LOCK_CTRL n)).any (fun x => x.1 == .axc && x.2.1 == n && x.2.2.cls == .m) = true := by
  revert n
  decide +kernel

theorem axcEvent_class : (regInfo (Reg.AXC_EVENT n)).any (fun x => x.2.2.cls == .k) = true := by
  revert n
  decide +kernel

theorem cacheCtrl_reset : extractField (resetVal (Reg.AXC_CACHE_CTRL n)) 0 4 = 0 := by
  revert n
  decide +kernel

theorem lockCtrl_reset : extractField (resetVal (Reg.AXC_LOCK_CTRL n)) 0 16 = 0 := by
  revert n
  decide +kernel

end

end Sys2Proof.Machine
end

section
/-! Connections and associations (R426, R427, R429–R432): what their ends leave, and what refusals count. -/

namespace Sys2Proof.Machine

/-! ### Registers of the ports that count and show refusals -/

/-- A count rises and an event of another register is raised: both show. -/
theorem counted_raised {a : Nat} {f : Fld} (g i : Nat) (s : State) (ha : a ∉ pbkRegs) (hne : a ≠ f.addr) (hf : f.addr ∉ pbkRegs)
    (hw : f.w = 1) (hl : f.lo < 64) :
    rd a (raiseEvent g i f (cntAdd a 32 1 s)) = BitVec.ofNat 64 (Nat.min ((rd a s).toNat + 1) (2 ^ 32 - 1)) ∧
      fget f (raiseEvent g i f (cntAdd a 32 1 s)) = 1 :=
  ⟨(rd_raiseEvent_ne g i f a _ ha hne).trans (rd_wr_self _ _ _), fget_raiseEvent_self g i f _ hf hw hl⟩

theorem holder_lt {n : Nat} {s : State} (hn : n < 2) : holder n s < 2 := by
  unfold holder
  split <;> omega

theorem tlsFail_counted {p : Nat} (hp : p < 2) (s : State) :
    let t := raiseEvent 0x10 p (Fl.NET_EVENT_TLS_FAIL p) (cntAdd (Reg.NET_CNT_TLS_FAIL p) 32 1 s)
    rd (Reg.NET_CNT_TLS_FAIL p) t = BitVec.ofNat 64 (Nat.min ((rd (Reg.NET_CNT_TLS_FAIL p) s).toNat + 1) (2 ^ 32 - 1)) ∧
      fget (Fl.NET_EVENT_TLS_FAIL p) t = 1 := by
  obtain rfl | rfl : p = 0 ∨ p = 1 := by omega
  · exact counted_raised _ _ _ (by decide) (by decide) (by decide) rfl (by decide)
  · exact counted_raised _ _ _ (by decide) (by decide) (by decide) rfl (by decide)

theorem connectRefused_counted {p : Nat} (hp : p < 2) (s : State) :
    let t := raiseEvent 0x10 p (Fl.NET_EVENT_CONNECT_REFUSED p) (cntAdd (Reg.NET_CNT_CONNECT_REF p) 32 1 s)
    rd (Reg.NET_CNT_CONNECT_REF p) t = BitVec.ofNat 64 (Nat.min ((rd (Reg.NET_CNT_CONNECT_REF p) s).toNat + 1) (2 ^ 32 - 1)) ∧
      fget (Fl.NET_EVENT_CONNECT_REFUSED p) t = 1 := by
  obtain rfl | rfl : p = 0 ∨ p = 1 := by omega
  · exact counted_raised _ _ _ (by decide) (by decide) (by decide) rfl (by decide)
  · exact counted_raised _ _ _ (by decide) (by decide) (by decide) rfl (by decide)

theorem raiseEvent_net (g i : Nat) (f : Fld) (s : State) : (raiseEvent g i f s).net = s.net :=
  (raiseEvent_keeps (M := 33) g i f (Keeps.refl s) (Sub.refl 33)).only.net rfl

/-- A message sent is among those that leave. -/
theorem mem_netSend_out (o : NetOut) (s : State) : o ∈ (netSend o s).net.out := List.mem_append_right _ (List.mem_singleton_self o)

/-! ### The end of a connection -/

theorem find_ne_none_of_mem {α : Type} {m : SMap α} {e : Nat × α} (h : e ∈ m) : SMap.find m e.1 ≠ none := by
  induction m with
  | nil => exact absurd h List.not_mem_nil
  | cons d m ih =>
    unfold SMap.find
    split
    · simp
    · rename_i hne
      rcases List.mem_cons.mp h with rfl | h
      · exact absurd rfl hne
      · exact ih h

theorem dropConn_net (c : Nat) (orderly : Bool) (s : State) :
    (dropConn c orderly s).net.assocs = s.net.assocs ∧ (dropConn c orderly s).nv = s.nv ∧
      ∀ e, e ∈ (dropConn c orderly s).net.conns ↔ e ∈ s.net.conns ∧ e.1 ≠ c := by
  unfold dropConn
  cases h : SMap.find s.net.conns c with
  | none =>
    refine ⟨rfl, rfl, fun e => ⟨fun he => ⟨he, ?_⟩, fun he => he.1⟩⟩
    rintro rfl
    exact find_ne_none_of_mem he h
  | some x =>
    refine ⟨rfl, rfl, fun e => ?_⟩
    change e ∈ SMap.del s.net.conns c ↔ _
    unfold SMap.del
    simp

theorem find_dropConn (c : Nat) (orderly : Bool) (s : State) : SMap.find (dropConn c orderly s).net.conns c = none := by
  cases h : SMap.find s.net.conns c with
  | none =>
    unfold dropConn
    rw [h]
    exact h
  | some x =>
    unfold dropConn
    rw [h]
    exact SMap.find_del_self _ _

/-- Closing the connections of a list leaves associations and controllers, and just the connections that are not of the list. -/
theorem dropConns_net (orderly : Bool) (l : SMap NetConn) (s : State) :
    let t := forEach (fun e t => dropConn e.1 orderly t) l s
    t.net.assocs = s.net.assocs ∧ t.nv = s.nv ∧ ∀ e ∈ t.net.conns, e ∈ s.net.conns ∧ ∀ d ∈ l, e.1 ≠ d.1 := by
  induction l generalizing s with
  | nil => exact ⟨rfl, rfl, fun e he => ⟨he, fun d hd => absurd hd List.not_mem_nil⟩⟩
  | cons d l ih =>
    obtain ⟨ha, hn, hc⟩ := ih (dropConn d.1 orderly s)
    obtain ⟨ha', hn', hc'⟩ := dropConn_net d.1 orderly s
    refine ⟨ha.trans ha', hn.trans hn', fun e he => ?_⟩
    obtain ⟨hmem, hne⟩ := hc e he
    obtain ⟨hmem, hne'⟩ := (hc' e).mp hmem
    exact ⟨hmem, List.forall_mem_cons.mpr ⟨hne', hne⟩⟩

/-! ### The end of an association (R429) -/

/-- Association `k` of `s` is gone: its controller and its connections are no more, and the other associations stay. -/
def AssocGone (k : Nat) (s t : State) : Prop :=
  ctrlAt k t = none ∧ (∀ a ∈ t.net.assocs, a.ctrl ≠ k) ∧ (∀ e ∈ t.net.conns, e.2.ctrl ≠ some k) ∧
    ∀ a ∈ s.net.assocs, a.ctrl ≠ k → a ∈ t.net.assocs

theorem ctrlReset_net (c cause : Nat) (s : State) : (ctrlReset c cause s).net = s.net :=
  (ctrlReset_keeps c cause (Keeps.refl s) (Sub.refl 39648167)).only.net rfl

theorem endAssoc_gone {k : Nat} (orderly : Bool) {s : State} (h : ∃ a ∈ s.net.assocs, a.ctrl = k) : AssocGone k s (endAssoc k orderly s) := by
  have hany : s.net.assocs.any (fun a => a.ctrl == k) = true := by simpa using h
  unfold endAssoc
  rw [if_pos hany]
  dsimp only
  obtain ⟨hassocs, -, hconns⟩ := dropConns_net orderly ((ctrlReset k 0 s).net.conns.filter (fun e => e.2.ctrl == some k)) (ctrlReset k 0 s)
  generalize forEach (fun (e : Nat × NetConn) t => dropConn e.1 orderly t) _ (ctrlReset k 0 s) = t at hassocs hconns ⊢
  rw [ctrlReset_net] at hassocs
  refine ⟨SMap.find_del_self _ _, fun a ha => by simpa using (List.mem_filter.mp ha).2, fun e he hk => ?_, fun a ha hk => ?_⟩
  · obtain ⟨hmem, hne⟩ := hconns e he
    exact hne e (List.mem_filter.mpr ⟨hmem, by simpa using hk⟩) rfl
  · exact List.mem_filter.mpr ⟨by rwa [hassocs], by simpa using hk⟩

theorem AssocGone.dropConn {k c : Nat} {orderly : Bool} {s t : State} (h : AssocGone k s t) : AssocGone k s (dropConn c orderly t) := by
  obtain ⟨hctrl, hassocs, hconns, hothers⟩ := h
  obtain ⟨ha, hn, hc⟩ := dropConn_net c orderly t
  refine ⟨?_, by rwa [ha], fun e he => hconns e ((hc e).mp he).1, by rwa [ha]⟩
  exact (ctrlAt_congr (by rw [hn]) k).trans hctrl

theorem connLost_lost {c : Nat} {x : NetConn} {s : State} (h : SMap.find s.net.conns c = some x) :
    SMap.find (connLost c s).net.conns c = none ∧
      ∀ k, x.ctrl = some k → (∃ a ∈ s.net.assocs, a.ctrl = k) → AssocGone k s (connLost c s) := by
  unfold connLost
  rw [h]
  dsimp only
  cases hk : x.ctrl with
  | none => exact ⟨find_dropConn _ _ _, fun k hk' => absurd hk' (by simp)⟩
  | some k =>
    refine ⟨find_dropConn _ _ _, fun j hj ha => ?_⟩
    obtain rfl : k = j := Option.some.inj hj
    exact (endAssoc_gone false ha).dropConn

end Sys2Proof.Machine
end

section
/-! Connects and properties (R426, R427, R429, R73): controllers and queues made, refusals, and statement O38. -/

namespace Sys2Proof.Machine

/-! ### Refusals -/

/-- A Connect on connection `c` for port `n` is refused with this command-specific status: counted, shown, and nothing is made. -/
def ConnectRefused (c n sc : Nat) (dnr : Bool) (s t : State) : Prop :=
  NetOut.refused c 1 sc dnr ∈ t.net.out ∧
    rd (Reg.NET_CNT_CONNECT_REF (holder n s)) t =
      BitVec.ofNat 64 (Nat.min ((rd (Reg.NET_CNT_CONNECT_REF (holder n s)) s).toNat + 1) (2 ^ 32 - 1)) ∧
    fget (Fl.NET_EVENT_CONNECT_REFUSED (holder n s)) t = 1 ∧ t.nv = s.nv ∧ t.net.assocs = s.net.assocs ∧ t.net.conns = s.net.conns

theorem refuseConnect_refused (c sc : Nat) (dnr : Bool) {n : Nat} (hn : n < 2) (s : State) :
    ConnectRefused c n sc dnr s (refuseConnect c n sc dnr s) := by
  have hkeep := raiseEvent_keeps (M := 33) 0x10 (holder n s) (Fl.NET_EVENT_CONNECT_REFUSED (holder n s))
    (Keeps.refl (cntAdd (Reg.NET_CNT_CONNECT_REF (holder n s)) 32 1 s)) (Sub.refl 33)
  have hnet := hkeep.only.net rfl
  obtain ⟨hcount, hevent⟩ := connectRefused_counted (holder_lt hn) s
  exact ⟨mem_netSend_out _ _, hcount, hevent, hkeep.only.nv rfl, (congrArg Net.assocs hnet :), (congrArg Net.conns hnet :)⟩

/-! ### Connects for admin queues -/

theorem freeCntlid_spec {a k c : Nat} {s : State} (h : freeCntlid a k s = some c) : a ≤ c ∧ c < a + k ∧ ctrlAt c s = none := by
  have hfree := List.find?_some h
  obtain ⟨i, hi, rfl⟩ := List.mem_map.mp (List.mem_of_find?_eq_some h)
  have hik := List.mem_range.mp hi
  exact ⟨by omega, by omega, by simpa using hfree⟩

/-- A Connect for an admin queue has made controller `k` of function `f`, not enabled, with its association for host entry `entry`. -/
def AdminConnected (c : Nat) (x : NetConn) (disc : Bool) (f : Nat) (entry : Option Nat) (kato k : Nat) (t : State) : Prop :=
  NetOut.connected c k ∈ t.net.out ∧ SMap.find t.net.conns c = some { x with ctrl := some k, queue := 0 } ∧
    (⟨k, entry, Nat.min kato 3600000, disc⟩ : Assoc) ∈ t.net.assocs ∧
    ∃ y, ctrlAt k t = some y ∧ y.fabric = true ∧ y.func = f ∧ y.en = false

theorem connectAdmin_refused {c : Nat} {x : NetConn} {nqn : List Byte} {disc : Bool} {size kato sc : Nat} {dnr : Bool} {s : State}
    (h : connectRefusal x (findHost nqn s) disc size s = some (sc, dnr)) (hx : x.port < 2) :
    ConnectRefused c x.port sc dnr s (connectAdmin c x nqn disc size kato s) := by
  unfold connectAdmin
  dsimp only
  rw [h]
  exact refuseConnect_refused c sc dnr hx s

theorem connectAdmin_connected {c k : Nat} {x : NetConn} {nqn : List Byte} {disc : Bool} {size kato : Nat} {s : State}
    (h : connectRefusal x (findHost nqn s) disc size s = none)
    (hk : (if disc then freeCntlid 0x200 32 s else freeCntlid 0x100 256 s) = some k) :
    AdminConnected c x disc (if disc then 0 else ((findHost nqn s).map (fun i => hostFunc i s)).getD 0)
      (if disc then none else findHost nqn s) kato k (connectAdmin c x nqn disc size kato s) := by
  unfold connectAdmin
  dsimp only
  rw [h]
  dsimp only
  rw [hk]
  exact ⟨mem_netSend_out _ _, SMap.find_put_self _ _ _, List.mem_append_right _ (List.mem_singleton_self _), _, SMap.find_put_self _ _ _,
    rfl, rfl, rfl⟩

/-- A host whose entry allows the transport and, where the entry asks for TLS, came over TLS is refused for the queue size or for want of room only. -/
theorem connectRefusal_allowed {x : NetConn} {i size : Nat} {s : State} (hstop : s.nv.stopped = false)
    (hflag : hostFlag i (if x.roce then 2 else 1) s = true) (htls : hostFlag i 3 s = false ∨ x.tls ≠ none) :
    connectRefusal x (some i) false size s = if 32 < size then some (0x82, true)
      else if 256 ≤ (fabricCtrls s).length ∨ hostMax i s ≤ (s.net.assocs.filter (fun a => a.entry == some i)).length then some (0x81, false)
      else none := by
  have hallowed : (!hostFlag i (if x.roce then 2 else 1) s || (hostFlag i 3 s && x.tls.isNone)) = false := by
    rw [hflag]
    rcases htls with h | h
    · simp [h]
    · simp [Option.isNone_eq_false_iff, Option.isSome_iff_ne_none, h]
  unfold connectRefusal
  simp [hstop, hallowed]

theorem connectRefusal_unknown {x : NetConn} {nqn : List Byte} {size : Nat} {s : State} (hstop : s.nv.stopped = false)
    (h : findHost nqn s = none ∨
      ∃ i, findHost nqn s = some i ∧ (hostFlag i (if x.roce then 2 else 1) s = false ∨ (hostFlag i 3 s = true ∧ x.tls = none))) :
    connectRefusal x (findHost nqn s) false size s = some (0x84, true) := by
  unfold connectRefusal
  rcases h with h | ⟨i, h, hflag | ⟨hflag, htls⟩⟩
  · simp [hstop, h]
  · simp [hstop, h, hflag]
  · simp [hstop, h, hflag, htls]

theorem connectRefusal_disc (x : NetConn) (entry : Option Nat) (size : Nat) {s : State} (hstop : s.nv.stopped = false) :
    connectRefusal x entry true size s = if 32 ≤ (s.net.assocs.filter (·.disc)).length then some (0x81, false)
      else if 32 < size then some (0x82, true) else none := by
  unfold connectRefusal
  cases entry <;> simp [hstop]

/-! ### Connects for I/O queues -/

section
variable {c k qid size : Nat} {x : NetConn} {y : Ctrl} {s : State} (hy : ctrlAt k s = some y)
include hy

theorem connectIo_badParam (hx : x.port < 2) (h : 32 < qid ∨ 1024 < size) :
    ConnectRefused c x.port 0x82 true s (connectIo c x k qid size s) := by
  unfold connectIo
  rw [hy]
  dsimp only
  rw [if_pos (by tauto)]
  exact refuseConnect_refused c 0x82 true hx s

/-- The controller takes queue `qid`: fabric, enabled, of an association with the subsystem, the queue in range and not there yet. -/
def TakesQueue (k qid size : Nat) (y : Ctrl) (s : State) : Prop :=
  y.fabric = true ∧ y.en = true ∧ (∃ a ∈ s.net.assocs, a.ctrl = k ∧ a.disc = false) ∧ qid ≤ 32 ∧ size ≤ 1024 ∧ SMap.find y.sqs qid = none

omit hy in
theorem TakesQueue.not_refused (h : TakesQueue k qid size y s) :
    ¬ (¬ y.fabric ∨ ¬ y.en ∨ s.net.assocs.all (fun a => a.ctrl != k || a.disc) ∨ 32 < qid ∨ 1024 < size ∨ (SMap.find y.sqs qid).isSome) := by
  obtain ⟨hfab, hen, ⟨a, ha, hak, had⟩, hqid, hsize, hfree⟩ := h
  rintro (h | h | h | h | h | h)
  · exact h hfab
  · exact h hen
  · have := List.all_eq_true.mp h a ha
    simp [hak, had] at this
  · omega
  · omega
  · simp [hfree] at h

theorem connectIo_full (hx : x.port < 2) (h : TakesQueue k qid size y s) (hfull : 2048 ≤ fabricQueues s) :
    ConnectRefused c x.port 0x81 false s (connectIo c x k qid size s) := by
  unfold connectIo
  rw [hy]
  dsimp only
  rw [if_neg h.not_refused, if_pos (Or.inl hfull)]
  exact refuseConnect_refused c 0x81 false hx s

theorem connectIo_connected (h : TakesQueue k qid size y s) (hroom : fabricQueues s < 2048) (hstop : s.nv.stopped = false) :
    let t := connectIo c x k qid size s
    NetOut.connected c k ∈ t.net.out ∧ SMap.find t.net.conns c = some { x with ctrl := some k, queue := qid } ∧
      ∃ z, ctrlAt k t = some z ∧ (SMap.find z.sqs qid).map (fun q => (q.size, q.cq)) = some (size, qid) := by
  unfold connectIo
  rw [hy]
  dsimp only
  rw [if_neg h.not_refused, if_neg (by rw [hstop]; simp; omega)]
  refine ⟨mem_netSend_out _ _, SMap.find_put_self _ _ _, { y with
    sqs := SMap.put y.sqs qid ⟨size, 0, 0, qid, 0, false, false, false⟩, cqs := SMap.put y.cqs qid ⟨size, 0, 0, none, [], []⟩ }, ?_, ?_⟩
  · exact (ctrlAt_updCtrl_self k _ s).trans (by rw [hy]; rfl)
  · rw [SMap.find_put_self]
    rfl

end

/-! ### The rows of connects -/

/-- The row of a Connect that its port hears on a connection that is ready and carries no queue. -/
theorem execConnect_heard {c n k qid size kato : Nat} {nqn : List Byte} {disc : Bool} {x : NetConn} {s : State} (hup : portUp (holder n s) s = true)
    (hn : n < 2) (hconn : SMap.find s.net.conns c = some x) (hready : x.ready = true) (hport : x.port = n) (hctrl : x.ctrl = none)
    (hlisten : fget (if x.roce then Fl.NET_LINK_CFG_ROCE_EN n else Fl.NET_LINK_CFG_TCP_EN n) s = 1) :
    execConnect c n x.roce nqn disc k qid size kato s =
      if qid = 0 then .next (connectAdmin c x nqn disc size kato s) else .next (connectIo c x k qid size s) := by
  have hl : listens n x.roce s = true := by
    unfold listens
    rw [hlisten]
    rfl
  unfold execConnect
  rw [hconn, if_neg (by rw [hup, hl]; simp; omega)]
  dsimp only [Option.getD_some]
  rw [if_neg (by simp [hready, hport, hctrl])]

end Sys2Proof.Machine
end

section
/-! Statement O38: connections, Connect commands, associations and how they end. -/

namespace Sys2Proof.Machine

theorem listens_of {n : Nat} {roce : Bool} {s : State} (h : fget (if roce then Fl.NET_LINK_CFG_ROCE_EN n else Fl.NET_LINK_CFG_TCP_EN n) s = 1) :
    listens n roce s = true := by
  unfold listens
  rw [h]
  rfl

section
variable {c n : Nat} {s : State} (hn : n < 2) (hup : portUp (holder n s) s = true) (hl : fget (Fl.NET_LINK_CFG_TCP_EN n) s = 1)
include hn hup hl

theorem execTlsHandshake_taken {slot : Nat} (hconn : SMap.find s.net.conns c = none) (hpsk : pskFilled slot s = true) :
    Completes (.tlsHandshake c n slot true) s
      (fun t => ∃ x, SMap.find t.net.conns c = some x ∧ x = { freshConn n false s with tls := some slot }) := by
  refine ⟨showConns (updNet (fun x => { x with conns := SMap.put x.conns c { freshConn n false s with tls := some slot } }) s), ?_,
    _, SMap.find_put_self s.net.conns c _, rfl⟩
  change execTlsHandshake c n slot true s = _
  unfold execTlsHandshake
  rw [if_neg (by simp [hup, hconn, listens_of (roce := false) hl, hn]), if_pos ⟨rfl, hpsk⟩]

theorem execTlsHandshake_failed {slot : Nat} {ok : Bool} (hconn : SMap.find s.net.conns c = none) (h : ok = false ∨ pskFilled slot s = false) :
    Completes (.tlsHandshake c n slot ok) s (fun t => SMap.find t.net.conns c = none ∧ NetOut.close c true ∈ t.net.out ∧
      rd (Reg.NET_CNT_TLS_FAIL (holder n s)) t =
        BitVec.ofNat 64 (Nat.min ((rd (Reg.NET_CNT_TLS_FAIL (holder n s)) s).toNat + 1) (2 ^ 32 - 1)) ∧
      fget (Fl.NET_EVENT_TLS_FAIL (holder n s)) t = 1) := by
  obtain ⟨hcount, hevent⟩ := tlsFail_counted (holder_lt hn) s
  refine ⟨netSend (.close c true) (raiseEvent 0x10 (holder n s) (Fl.NET_EVENT_TLS_FAIL (holder n s))
    (cntAdd (Reg.NET_CNT_TLS_FAIL (holder n s)) 32 1 s)), ?_, ?_, mem_netSend_out _ _, hcount, hevent⟩
  · change execTlsHandshake c n slot ok s = _
    unfold execTlsHandshake
    rw [if_neg (by simp [hup, hconn, listens_of (roce := false) hl, hn]), if_neg (by rcases h with h | h <;> simp [h])]
  · change SMap.find (raiseEvent _ _ _ _).net.conns c = none
    rw [raiseEvent_net]
    exact hconn

theorem execIcreq_answered {x : NetConn} (hd dd : Bool) (a : Nat) (hx : (SMap.find s.net.conns c).getD (freshConn n false s) = x)
    (hready : x.ready = false) (hroce : x.roce = false) (hport : x.port = n) :
    Completes (.icreq c n hd dd a) s (fun t => NetOut.icResp c hd dd ∈ t.net.out ∧
      SMap.find t.net.conns c = some { x with ready := true, hdgst := hd, ddgst := dd, hpda := Nat.min a 31 }) := by
  refine ⟨netSend (.icResp c hd dd) (showConns (updNet (fun y => { y with
    conns := SMap.put y.conns c { x with ready := true, hdgst := hd, ddgst := dd, hpda := Nat.min a 31 } }) s)), ?_,
    mem_netSend_out _ _, SMap.find_put_self s.net.conns c _⟩
  change execIcreq c n hd dd a s = _
  unfold execIcreq
  rw [if_neg (by simp [hup, listens_of (roce := false) hl, hn])]
  dsimp only
  rw [hx, if_neg (by simp [hready, hroce, hport])]

end

/-! ### Properties (R73, R108) -/

section
variable {k v : Nat} {y : Ctrl} {s : State} (hy : ctrlAt k s = some y) (hfab : y.fabric = true)
include hy hfab

theorem execPropertySet_enabled (hen : v % 2 = 1) (hshn : v / 2 ^ 14 % 4 = 0) :
    Completes (.propertySet k 0x14 v) s (fun t => ∃ z, ctrlAt k t = some z ∧ z = { y with en := true, ams := z.ams, mps := z.mps }) := by
  refine ⟨updCtrl k (fun z => { z with en := v % 2 == 1, ams := v / 2 ^ 11 % 8, mps := 2 ^ (12 + v / 2 ^ 7 % 16) }) s, ?_,
    _, (ctrlAt_updCtrl_self k _ s).trans (congrArg _ hy), by simp [hen]⟩
  change execPropertySet k 0x14 v s = _
  unfold execPropertySet
  rw [hy]
  dsimp only
  rw [if_neg (by simp [hfab]), if_pos rfl, if_neg (by omega), if_neg (by omega)]

theorem execPropertySet_reset (hv : v % 2 = 0) (hen : y.en = true) : exec (.propertySet k 0x14 v) s = .next (requestCtrlReset k s) := by
  change execPropertySet k 0x14 v s = _
  unfold execPropertySet
  rw [hy]
  dsimp only
  rw [if_neg (by simp [hfab]), if_pos rfl, if_pos ⟨hv, hen⟩]

theorem execPropertySet_nssr : exec (.propertySet k 0x20 0x4E564D65) s = .next (nvmSubsystemReset false s) := by
  change execPropertySet k 0x20 0x4E564D65 s = _
  unfold execPropertySet
  rw [hy]
  dsimp only
  rw [if_neg (by simp [hfab]), if_neg (by decide), if_pos ⟨rfl, rfl⟩]

end

theorem requestCtrlReset_gone {k : Nat} {s : State} (hm : mode s ≠ 8) (ha : activating s = false) (h : ∃ a ∈ s.net.assocs, a.ctrl = k) :
    AssocGone k s (requestCtrlReset k s) := by
  unfold requestCtrlReset
  rw [if_neg hm, if_neg (by simp [ha]), if_pos (by simpa using h)]
  exact endAssoc_gone true h

theorem requestCtrlReset_commit {k : Nat} {s : State} (hm : mode s = 8) :
    requestCtrlReset k s = { s with pow := { s.pow with waitResets := s.pow.waitResets ++ [.ctrl k] } } := by
  unfold requestCtrlReset
  rw [if_pos hm]
  rfl

theorem requestCtrlReset_activating {k : Nat} {s : State} (hm : mode s ≠ 8) (ha : activating s = true) :
    requestCtrlReset k s = { s with mgt := { s.mgt with late := s.mgt.late ++ [.ctrl k] } } := by
  unfold requestCtrlReset
  rw [if_neg hm, if_pos ha]
  rfl

/-! ### Keep alive, data and retransmission (R429–R431) -/

theorem katoStands_iff (s : State) : katoStands s = true ↔ s.net.switching = true ∨ fget Fl.HIF_FETCH_CTRL_HOLD s = 1 := by
  unfold katoStands
  simp

theorem fetchHold_cases (s : State) : fget Fl.HIF_FETCH_CTRL_HOLD s = 0 ∨ fget Fl.HIF_FETCH_CTRL_HOLD s = 1 := by
  have := fget_lt Fl.HIF_FETCH_CTRL_HOLD s
  change _ < 2 ^ 1 at this
  omega

theorem execKatoExpiry_gone {s : State} {a : Assoc} (ha : a ∈ s.net.assocs) (hk : a.kato ≠ 0) (h : katoStands s = false) :
    Completes (.katoExpiry a.ctrl) s (AssocGone a.ctrl s) := by
  refine ⟨_, ?_, endAssoc_gone false ⟨a, ha, rfl⟩⟩
  change execKatoExpiry a.ctrl s = _
  unfold execKatoExpiry
  rw [if_pos]
  rw [h, Bool.not_false, Bool.and_true, List.any_eq_true]
  exact ⟨a, ha, by simpa using hk⟩

theorem execKatoExpiry_stands {k : Nat} {s : State} (h : katoStands s = true) : exec (.katoExpiry k) s = .next s := by
  change execKatoExpiry k s = _
  unfold execKatoExpiry
  rw [if_neg (by simp [h])]

section
variable {c : Nat} {x : NetConn} {s : State} (hc : SMap.find s.net.conns c = some x)
include hc

theorem execQueuePairError_lost (hr : x.roce = true) : exec (.queuePairError c) s = .next (connLost c s) := by
  change execQueuePairError c s = _
  unfold execQueuePairError
  rw [hc, if_pos (by simpa using hr)]

theorem execH2cData_header (hr : x.roce = false) (hh : x.hdgst = true) (tag : Nat) (bad : Bool) :
    exec (.h2cData c tag true bad) s = .next (connLost c s) := by
  change execH2cData c tag true bad s = _
  unfold execH2cData
  rw [hc]
  dsimp only
  rw [if_neg (by simp [hr]), if_pos (by simp [hh])]

theorem execH2cData_failed {tag : Nat} {y : Cmd} (hr : x.roce = false) (hd : x.ddgst = true) (hy : InPhase tag .fetched [.write] y s)
    (hx : x.ctrl = some y.ctrl) :
    Completes (.h2cData c tag false true) s (fun t => Failed y 0 0x22 false s t ∧ t.mem = s.mem ∧ t.ftl.map = s.ftl.map) := by
  have hkeep := complete_keeps (M := 4194465) tag 0 0x22 false 0 [] (Keeps.refl s) (Sub.refl _)
  refine ⟨_, ?_, completeBoth_inPhase hy 0 0x22 false 0 0 [], hkeep.only.mem rfl, congrArg Ftl.map (hkeep.only.ftl rfl)⟩
  change execH2cData c tag false true s = _
  unfold execH2cData
  rw [hc]
  dsimp only
  rw [if_neg (by simp [hr]), if_neg (by simp), hy.cmdAt]
  dsimp only
  rw [if_pos (by simp [hd, hx, hy.2.1])]
  rfl

theorem execRetransmissionTimeout_lost (hr : x.roce = true) (h : 7 ≤ x.retries) :
    exec (.retransmissionTimeout c) s = .next (connLost c s) := by
  change execRetransmissionTimeout c s = _
  unfold execRetransmissionTimeout
  rw [hc]
  dsimp only
  rw [if_pos ⟨hr, h⟩]

theorem execRetransmissionTimeout_again (h : x.roce = false ∨ x.retries < 7) :
    Completes (.retransmissionTimeout c) s (fun t => NetOut.resend c ∈ t.net.out ∧
      SMap.find t.net.conns c = some { x with retries := x.retries + 1 } ∧ t.regs = s.regs) := by
  refine ⟨netSend (.resend c) (updNet (fun n => { n with conns := SMap.put n.conns c { x with retries := x.retries + 1 } }) s), ?_,
    mem_netSend_out _ _, SMap.find_put_self s.net.conns c _, rfl⟩
  change execRetransmissionTimeout c s = _
  unfold execRetransmissionTimeout
  rw [hc]
  dsimp only
  rw [if_neg (by rcases h with h | h <;> simp [h])]

end

/-! ### Connects -/

section
variable {c n k size kato : Nat} {nqn : List Byte} {x : NetConn} {s : State} (hup : portUp (holder n s) s = true) (hn : n < 2)
  (hconn : SMap.find s.net.conns c = some x) (hready : x.ready = true) (hport : x.port = n) (hctrl : x.ctrl = none)
  (hlisten : fget (if x.roce then Fl.NET_LINK_CFG_ROCE_EN n else Fl.NET_LINK_CFG_TCP_EN n) s = 1)
include hup hn hconn hready hport hctrl hlisten

theorem connect_admin_refused {disc : Bool} {sc : Nat} {dnr : Bool} (h : connectRefusal x (findHost nqn s) disc size s = some (sc, dnr)) :
    Completes (.connect c n x.roce nqn disc k 0 size kato) s (ConnectRefused c n sc dnr s) := by
  refine ⟨connectAdmin c x nqn disc size kato s, ?_, ?_⟩
  · exact (execConnect_heard hup hn hconn hready hport hctrl hlisten).trans (if_pos rfl)
  · subst hport
    exact connectAdmin_refused h hn

theorem connect_admin_connected {disc : Bool} {j : Nat} (h : connectRefusal x (findHost nqn s) disc size s = none)
    (hj : (if disc then freeCntlid 0x200 32 s else freeCntlid 0x100 256 s) = some j) :
    Completes (.connect c n x.roce nqn disc k 0 size kato) s
      (AdminConnected c x disc (if disc then 0 else ((findHost nqn s).map (fun i => hostFunc i s)).getD 0)
        (if disc then none else findHost nqn s) kato j) :=
  ⟨_, (execConnect_heard hup hn hconn hready hport hctrl hlisten).trans (if_pos rfl), connectAdmin_connected h hj⟩

theorem connect_io {qid : Nat} (hqid : qid ≠ 0) : exec (.connect c n x.roce nqn false k qid size kato) s = .next (connectIo c x k qid size s) :=
  (execConnect_heard hup hn hconn hready hport hctrl hlisten).trans (if_neg hqid)

end

/-- Settles O38: an association's end takes its controller and its connections, and a Connect makes one or is refused and counted. -/
theorem networkConnections : Obligations.NetworkConnections := by
  unfold Obligations.NetworkConnections
  intro s c n hn hup
  refine ⟨?tls, ?icNew, ?icAgain, ?connects, ?properties, ?kato, ?ends⟩
  case tls =>
    exact fun slot hconn hl => ⟨fun hpsk => execTlsHandshake_taken hn hup hl hconn hpsk, fun ok h => execTlsHandshake_failed hn hup hl hconn h⟩
  case icNew =>
    intro h d a hl hconn
    have hx : (SMap.find s.net.conns c).getD (freshConn n false s) = freshConn n false s := congrArg (fun o => o.getD (freshConn n false s)) hconn
    obtain ⟨t, ht, hout, hx⟩ := execIcreq_answered hn hup hl h d a hx rfl rfl rfl
    exact ⟨t, ht, hout, _, hx, rfl⟩
  case icAgain =>
    intro h d a x hl hconn hready hroce hport
    exact execIcreq_answered hn hup hl h d a (congrArg (fun o => o.getD (freshConn n false s)) hconn) hready hroce hport
  case connects =>
    intro x nqn k size kato hconn hready hport hctrl hlisten opened
    refine ⟨fun i hi hflag htls => ⟨?admitted, ?size, ?full⟩, ?unknown, ?disc, ?discFull, ?io⟩
    case admitted =>
      intro hstop hsize hroom hmax hfree
      obtain ⟨j, hj⟩ := Option.ne_none_iff_exists'.mp hfree
      obtain ⟨hlo, hhi, hnone⟩ := freeCntlid_spec hj
      have hadm : connectRefusal x (findHost nqn s) false size s = none := by
        rw [hi, connectRefusal_allowed hstop hflag htls, if_neg (by omega), if_neg (by omega)]
      obtain ⟨t, ht, hout, hc, hassoc, hctrl'⟩ := connect_admin_connected (k := k) (kato := kato) hup hn hconn hready hport hctrl hlisten hadm
        (j := j) (by simpa using hj)
      rw [hi] at hassoc hctrl'
      exact ⟨t, ht, j, hhi, hlo, hnone, hout, hc, hassoc, hctrl'⟩
    case size =>
      intro hstop hsize
      refine connect_admin_refused hup hn hconn hready hport hctrl hlisten ?_
      rw [hi, connectRefusal_allowed hstop hflag htls, if_pos hsize]
    case full =>
      intro hstop hsize hfull
      refine connect_admin_refused hup hn hconn hready hport hctrl hlisten ?_
      rw [hi, connectRefusal_allowed hstop hflag htls, if_neg (by omega), if_pos hfull]
    case unknown =>
      exact fun hstop h => connect_admin_refused hup hn hconn hready hport hctrl hlisten (connectRefusal_unknown hstop h)
    case disc =>
      intro hstop hsize hroom hfree
      obtain ⟨j, hj⟩ := Option.ne_none_iff_exists'.mp hfree
      obtain ⟨hlo, hhi, hnone⟩ := freeCntlid_spec hj
      have hadm : connectRefusal x (findHost nqn s) true size s = none := by
        rw [connectRefusal_disc x _ size hstop, if_neg (by omega), if_neg (by omega)]
      obtain ⟨t, ht, hout, hc, hassoc, hctrl'⟩ := connect_admin_connected (k := k) (kato := kato) hup hn hconn hready hport hctrl hlisten hadm
        (j := j) (by simpa using hj)
      exact ⟨t, ht, j, hhi, hlo, hnone, hout, hc, hassoc, hctrl'⟩
    case discFull =>
      intro hstop hfull
      refine connect_admin_refused hup hn hconn hready hport hctrl hlisten ?_
      rw [connectRefusal_disc x _ size hstop, if_pos hfull]
    case io =>
      intro qid y hqid hy hfab hen hassoc
      have hrow := connect_io (k := k) (size := size) (kato := kato) (nqn := nqn) hup hn hconn hready hport hctrl hlisten hqid
      refine ⟨fun hq hsize hfree => ?_, fun hbad => ⟨_, hrow, ?_⟩⟩
      · have htakes : TakesQueue k qid size y s := ⟨hfab, hen, hassoc, hq, hsize, hfree⟩
        refine ⟨fun hroom hstop => ⟨_, hrow, connectIo_connected hy htakes hroom hstop⟩, fun hfull => ⟨_, hrow, ?_⟩⟩
        subst hport
        exact connectIo_full hy hn htakes hfull
      · subst hport
        exact connectIo_badParam hy hn hbad
  case properties =>
    intro k y v hy hfab
    refine ⟨execPropertySet_enabled hy hfab, fun hv hen => ?_, ⟨_, execPropertySet_nssr hy hfab, rfl⟩⟩
    have hrow := execPropertySet_reset hy hfab hv hen
    exact ⟨fun hm ha h => ⟨_, hrow, requestCtrlReset_gone hm ha h⟩, fun hm => ⟨_, hrow, requestCtrlReset_commit hm⟩,
      fun hm ha => ⟨_, hrow, requestCtrlReset_activating hm ha⟩⟩
  case kato =>
    intro a ha hk
    refine ⟨fun hsw hh => execKatoExpiry_gone ha hk ?_, fun h => ⟨s, execKatoExpiry_stands ((katoStands_iff s).mpr h), rfl⟩⟩
    rw [← Bool.not_eq_true, katoStands_iff]
    simp [hsw, hh]
  case ends =>
    intro x hx lost
    have hlost : lost (connLost c s) := connLost_lost hx
    exact ⟨⟨_, rfl, hlost⟩, fun hr => ⟨_, execQueuePairError_lost hx hr, hlost⟩,
      fun tag db hr hh => ⟨_, execH2cData_header hx hr hh tag db, hlost⟩,
      fun tag y hr hd hy hxy => execH2cData_failed hx hr hd hy hxy,
      fun hr h => ⟨_, execRetransmissionTimeout_lost hx hr h, hlost⟩, fun h => execRetransmissionTimeout_again hx h⟩

end Sys2Proof.Machine
end

section
/-! Admin commands that succeed (R93, R94): their rows, and what posting results leaves of the controllers. -/

namespace Sys2Proof.Machine

/-! ### What posting results leaves of a controller -/

/-- Every outstanding command of `t` has the tag and the controller of one of `s`. -/
def NoNewCmds (s t : State) : Prop := ∀ y ∈ t.nv.cmds, ∃ x ∈ s.nv.cmds, x.tag = y.tag ∧ x.ctrl = y.ctrl

theorem NoNewCmds.of_sub {s t : State} (h : ∀ y ∈ t.nv.cmds, y ∈ s.nv.cmds) : NoNewCmds s t := fun y hy => ⟨y, h y hy, rfl, rfl⟩

theorem NoNewCmds.trans {s t u : State} (h : NoNewCmds s t) (g : NoNewCmds t u) : NoNewCmds s u := by
  intro z hz
  obtain ⟨y, hy, hzt, hzc⟩ := g z hz
  obtain ⟨x, hx, hyt, hyc⟩ := h y hy
  exact ⟨x, hx, hyt.trans hzt, hyc.trans hzc⟩

/-- A command that is replaced by one of the same tag and controller. -/
theorem setCmd_noNewCmds {x y : Cmd} {s : State} (hx : x ∈ s.nv.cmds) (ht : y.tag = x.tag) (hc : y.ctrl = x.ctrl) : NoNewCmds s (setCmd y s) := by
  intro z hz
  obtain ⟨w, hw, rfl⟩ := List.mem_map.mp hz
  split
  · exact ⟨x, hx, ht.symm, hc.symm⟩
  · exact ⟨w, hw, rfl, rfl⟩

theorem SMap_upd_isEmpty {α : Type} (m : SMap α) (a : Nat) (f : α → α) : (SMap.upd m a f).isEmpty = m.isEmpty := by
  unfold SMap.upd
  cases m with
  | nil => rfl
  | cons e m =>
    obtain ⟨k, v⟩ := e
    split
    · unfold SMap.put
      split
      · rfl
      · split <;> rfl
    · rfl

/-- A controller but for the status of its shutdown and what its completion queues hold. -/
def Ctrl.apart (x : Ctrl) : Ctrl × Bool := ({ x with cqs := [], shst := 0 }, x.cqs.isEmpty)

/-- Between `s` and `t` completions have been posted: completion queues and shutdown status of the controllers differ, no saved feature has
changed, and no command is new. -/
structure Posts (s t : State) : Prop where
  saved : t.nv.saved = s.nv.saved
  ctrl : ∀ c, (ctrlAt c t).map Ctrl.apart = (ctrlAt c s).map Ctrl.apart
  cmds : NoNewCmds s t

theorem Posts.of_nv {s t : State} (hs : t.nv.saved = s.nv.saved) (hc : t.nv.ctrls = s.nv.ctrls) (hm : NoNewCmds s t) : Posts s t :=
  ⟨hs, fun c => by rw [ctrlAt_congr hc], hm⟩

theorem Posts.refl (s : State) : Posts s s := Posts.of_nv rfl rfl (NoNewCmds.of_sub (fun _ h => h))

theorem Posts.of_same {s t : State} (h : t.nv = s.nv) : Posts s t :=
  Posts.of_nv (by rw [h]) (by rw [h]) (NoNewCmds.of_sub (fun _ hy => h ▸ hy))

theorem Posts.trans {s t u : State} (h : Posts s t) (g : Posts t u) : Posts s u :=
  ⟨g.saved.trans h.saved, fun c => (g.ctrl c).trans (h.ctrl c), h.cmds.trans g.cmds⟩

theorem Posts.updCq (c q : Nat) (f : Cq → Cq) (s : State) : Posts s (updCq c q f s) := by
  refine ⟨rfl, fun d => ?_, NoNewCmds.of_sub (fun _ h => h)⟩
  by_cases h : d = c
  · subst h
    unfold Machine.updCq
    rw [ctrlAt_updCtrl_self]
    cases ctrlAt d s with
    | none => rfl
    | some x => simp [Ctrl.apart, SMap_upd_isEmpty]
  · unfold Machine.updCq
    rw [ctrlAt_updCtrl_ne _ _ h]

theorem Posts.ctrlAt {c : Nat} {x : Ctrl} {s t : State} (h : Posts s t) (hx : Machine.ctrlAt c s = some x) :
    ∃ y, Machine.ctrlAt c t = some y ∧ y.apart = x.apart := by
  have hc := h.ctrl c
  rw [hx] at hc
  exact Option.map_eq_some_iff.mp hc

theorem Posts.sqAt {s t : State} (h : Posts s t) (c q : Nat) : Machine.sqAt c q t = Machine.sqAt c q s := by
  have hc := congrArg (fun o : Option (Ctrl × Bool) => o.bind (fun x => SMap.find x.1.sqs q)) (h.ctrl c)
  unfold Machine.sqAt
  rw [Option.bind_map, Option.bind_map] at hc
  exact hc

theorem postEntry_posts (c q : Nat) (e : Cqe) (s : State) : Posts s (postEntry c q e s) := by
  obtain ⟨hcmds, -, hctrls⟩ := postEntry_nv c q e s
  refine (Posts.updCq c q _ s).trans (Posts.of_nv ?_ hctrls (NoNewCmds.of_sub (fun y hy => by rwa [hcmds] at hy)))
  unfold postEntry
  dsimp only
  split
  · rfl
  · split
    · rfl
    · unfold irqPend
      split <;> rfl

theorem tunnelResult_nv (sct sc dw0 : Nat) (data : List Byte) (s : State) : (tunnelResult sct sc dw0 data s).nv = s.nv :=
  (tunnelResult_keeps (M := 4194305) sct sc dw0 data (Keeps.refl s) (Sub.refl _)).only.nv rfl

theorem retireCmd_posts (x : Cmd) (s : State) : Posts s (retireCmd x s) :=
  Posts.of_nv rfl rfl (NoNewCmds.of_sub (fun _ h => (List.mem_filter.mp h).1))

theorem postResult_posts (x : Cmd) (e : Cqe) (s : State) : Posts s (postResult x e s) := by
  unfold postResult
  split
  · split
    · rename_i q k _ _ _
      exact (Posts.updCq x.ctrl q.cq (fun k => { k with held := k.held ++ [(x.tag, e)] }) s).trans
        (Posts.of_nv (by rw [raiseEvent_nv]) (by rw [raiseEvent_nv]) (NoNewCmds.of_sub (fun y hy => by rwa [raiseEvent_nv] at hy)))
    · exact (postEntry_posts x.ctrl _ e s).trans (retireCmd_posts x _)
  · refine Posts.trans ?_ (retireCmd_posts x _)
    split
    · exact Posts.of_same (tunnelResult_nv _ _ _ _ s)
    · exact Posts.refl s

theorem settleOne_posts (s : State) : Posts s (settleOne s) := by
  unfold settleOne
  split
  · split
    · exact postResult_posts _ _ s
    · exact Posts.refl s
  · split
    · rename_i x hx
      exact Posts.of_nv rfl rfl (setCmd_noNewCmds (List.mem_of_find?_eq_some hx) rfl rfl)
    · exact Posts.refl s

theorem settle_posts (n : Nat) (s : State) : Posts s (settle n s) := by
  induction n generalizing s with
  | zero => exact Posts.refl s
  | succ n ih =>
    unfold settle
    split
    · exact Posts.refl s
    · exact (settleOne_posts s).trans (ih _)

theorem shutdownProgress_posts (s : State) : Posts s (shutdownProgress s) := by
  refine ⟨rfl, fun c => ?_, NoNewCmds.of_sub (fun _ h => h)⟩
  obtain ⟨n, h⟩ := ctrlAt_shutdownProgress c s
  rw [h]
  cases ctrlAt c s <;> rfl

theorem settleAll_posts (s : State) : Posts s (settleAll s) :=
  ((settle_posts _ s).trans (shutdownProgress_posts _)).trans (Posts.of_same (showTags_nv _))

/-- A success leaves the controllers but for their completion queues. -/
theorem completeBoth_posts (tag dw0 dw1 : Nat) (dnr : Bool) (data : List Byte) (s : State) :
    Posts s (completeBoth tag 0 0 dnr dw0 dw1 data s) := by
  unfold completeBoth
  split
  · exact Posts.refl s
  · rename_i x hx
    dsimp only
    split
    · exact Posts.refl s
    · rw [if_pos ⟨rfl, rfl⟩]
      refine Posts.trans ?_ (settleAll_posts _)
      exact Posts.of_nv rfl rfl (setCmd_noNewCmds (cmdAt_mem hx).1 rfl rfl)

/-! ### Rows of admin commands -/

theorem AdminReady.tag_eq {tag : Nat} {x : Cmd} {c : Ctrl} {s : State} (h : AdminReady tag x c s) : x.tag = tag := (cmdAt_mem h.1.1).2

theorem adminRow_of_ready {tag : Nat} {x : Cmd} {c : Ctrl} {s : State} (h : AdminReady tag x c s) (run : Cmd → Ctrl → State → State) :
    adminRow tag run s = .next (run x c s) := by
  obtain ⟨⟨hcmd, hph, hres, hkind, -, -, q, k, -, hord, -⟩, hctrl⟩ := h
  have hfetched : justFetched tag [.admin] s = some x := by
    unfold justFetched heldByFlush
    rw [hcmd]
    dsimp only
    rw [if_pos ⟨hph, by simp [hres], by simpa using hkind, by simp [hord]⟩]
  unfold adminRow
  rw [hfetched]
  dsimp only
  rw [hctrl]

/-- A command that is ready is answered after a change that leaves the commands, its queues and the mode. -/
theorem completeBoth_answered_after {tag sct sc dw0 dw1 : Nat} {dnr : Bool} {data : List Byte} {kinds : List CmdKind} {x : Cmd} {s u : State}
    (h : Ready tag kinds x s) (hcmds : u.nv.cmds = s.nv.cmds) (hfreed : u.nv.freedTags = s.nv.freedTags)
    (hsq : sqAt x.ctrl x.sq u = sqAt x.ctrl x.sq s) (hcq : ∀ q, cqAt x.ctrl q u = cqAt x.ctrl q s) (hm : mode u = 0xB → mode s = 0xB) :
    Answered x sct sc dnr dw0 dw1 data s (completeBoth tag sct sc dnr dw0 dw1 data u) := by
  have hready : Ready tag kinds x u := by
    obtain ⟨hcmd, hph, hres, hkind, huniq, hothers, q, k, hq, hord, hmode, hk, hroom⟩ := h
    refine ⟨?_, hph, hres, hkind, hcmds ▸ huniq, hcmds ▸ hothers, q, k, hsq.trans hq, hord, fun hu => hmode (hm hu), (hcq _).trans hk, hroom⟩
    unfold cmdAt at hcmd ⊢
    rwa [hcmds]
  obtain ⟨hc, hf, q, k, hq, hk, hpost⟩ := completeBoth_answered (sct := sct) (sc := sc) (dnr := dnr) (dw0 := dw0) (dw1 := dw1) (data := data) hready
  exact ⟨hcmds ▸ hc, hfreed ▸ hf, q, k, hsq.symm.trans hq, (hcq _).symm.trans hk, hpost⟩

end Sys2Proof.Machine
end

section
/-! Features (R89, R104, R440, R465): the states that Set Features makes, and statement O13. -/

namespace Sys2Proof.Machine

/-! ### Values of a controller -/

/-- The change of a controller leaves its queues. -/
theorem sqAt_updCtrl_of {c d q : Nat} {f : Ctrl → Ctrl} (hf : ∀ x, (f x).sqs = x.sqs) (s : State) : sqAt d q (updCtrl c f s) = sqAt d q s := by
  unfold sqAt
  by_cases h : d = c
  · subst h
    rw [ctrlAt_updCtrl_self]
    cases ctrlAt d s <;> simp [hf]
  · rw [ctrlAt_updCtrl_ne _ _ h]

theorem cqAt_updCtrl_of {c d q : Nat} {f : Ctrl → Ctrl} (hf : ∀ x, (f x).cqs = x.cqs) (s : State) : cqAt d q (updCtrl c f s) = cqAt d q s := by
  unfold cqAt
  by_cases h : d = c
  · subst h
    rw [ctrlAt_updCtrl_self]
    cases ctrlAt d s <;> simp [hf]
  · rw [ctrlAt_updCtrl_ne _ _ h]

section
variable {tag : Nat} {x : Cmd} {c : Ctrl} {s : State} (h : AdminReady tag x c s)
include h

/-- A change of the command's controller that leaves its queues, and the command's success. -/
theorem AdminReady.updCtrl_ok {f : Ctrl → Ctrl} {u : State} (hsq : ∀ y, (f y).sqs = y.sqs) (hcq : ∀ y, (f y).cqs = y.cqs)
    (hctrls : u.nv.ctrls = (updCtrl x.ctrl f s).nv.ctrls) (hcmds : u.nv.cmds = s.nv.cmds) (hfreed : u.nv.freedTags = s.nv.freedTags)
    (hm : mode u = 0xB → mode s = 0xB) :
    Succeeded x s (completeOk x.tag u) ∧ ∃ y, ctrlAt x.ctrl (completeOk x.tag u) = some y ∧ y.apart = (f c).apart := by
  refine ⟨?_, (completeBoth_posts x.tag 0 0 false [] u).ctrlAt ?_⟩
  · rw [h.tag_eq]
    refine completeBoth_answered_after h.1 hcmds hfreed ?_ (fun q => ?_) hm
    · rw [sqAt_congr hctrls, sqAt_updCtrl_of hsq]
    · rw [cqAt_congr hctrls, cqAt_updCtrl_of hcq]
  · rw [ctrlAt_congr hctrls, ctrlAt_updCtrl_self, h.2]
    rfl

/-- A feature's value is taken, and saved where that is asked. -/
theorem AdminReady.putFeature_ok (key v : Nat) (sv : Bool) {u : State} (hnv : u.nv = (putFeature x.ctrl key v sv s).nv) (hm : mode u = mode s) :
    Succeeded x s (completeOk x.tag u) ∧ (∃ y, ctrlAt x.ctrl (completeOk x.tag u) = some y ∧ SMap.find y.feats key = some v) ∧
      (sv = true → SMap.find (completeOk x.tag u).nv.saved (256 * x.ctrl + key) = some v) := by
  have hput : (putFeature x.ctrl key v sv s).nv.ctrls = (updCtrl x.ctrl (fun y => { y with feats := SMap.put y.feats key v }) s).nv.ctrls ∧
      (putFeature x.ctrl key v sv s).nv.cmds = s.nv.cmds ∧ (putFeature x.ctrl key v sv s).nv.freedTags = s.nv.freedTags := by
    unfold putFeature
    dsimp only
    split <;> exact ⟨rfl, rfl, rfl⟩
  obtain ⟨hctrls, hcmds, hfreed⟩ := hput
  obtain ⟨hok, y, hy, hap⟩ := h.updCtrl_ok (f := fun y => { y with feats := SMap.put y.feats key v }) (u := u) (fun _ => rfl) (fun _ => rfl)
    (by rw [hnv, hctrls]) (by rw [hnv, hcmds]) (by rw [hnv, hfreed]) (fun hb => hm ▸ hb)
  refine ⟨hok, ⟨y, hy, ?_⟩, fun hsv => ?_⟩
  · have hf : y.feats = SMap.put c.feats key v := congrArg (fun p => p.1.feats) hap
    rw [hf, SMap.find_put_self]
  · have hs : (completeOk x.tag u).nv.saved = u.nv.saved := (completeBoth_posts x.tag 0 0 false [] u).saved
    rw [hs, hnv]
    unfold putFeature
    rw [if_pos hsv]
    exact SMap.find_put_self _ _ _

/-! ### Values of the module -/

theorem AdminReady.setWide_ok {fid v : Nat} {sv : Bool} (hpf : c.pf = true) (hv : wideOk fid v = true) :
    Succeeded x s (setWide x c fid v sv s) ∧ featureValue fid (setWide x c fid v sv s) = v ∧
      (sv = true → SMap.find (setWide x c fid v sv s).nv.saved (wideKey fid) = some v) := by
  unfold setWide
  rw [if_neg (by simp [hpf, hv])]
  dsimp only
  generalize hu : (if sv then { ({ s with feat := SMap.put s.feat fid v } : State) with
    nv := { s.nv with saved := SMap.put s.nv.saved (wideKey fid) v } } else { s with feat := SMap.put s.feat fid v }) = u
  have hparts : u.nv.cmds = s.nv.cmds ∧ u.nv.freedTags = s.nv.freedTags ∧ u.nv.ctrls = s.nv.ctrls ∧ mode u = mode s ∧
      u.feat = SMap.put s.feat fid v := by
    subst hu
    split <;> exact ⟨rfl, rfl, rfl, rfl, rfl⟩
  obtain ⟨hcmds, hfreed, hctrls, hm, hfeat⟩ := hparts
  refine ⟨?_, ?_, fun hsv => ?_⟩
  · rw [h.tag_eq]
    exact completeBoth_answered_after h.1 hcmds hfreed (sqAt_congr hctrls _ _) (fun q => cqAt_congr hctrls _ _) (fun hb => hm ▸ hb)
  · have hf : (completeOk x.tag u).feat = u.feat := (completeOk_keeps (M := 4194465) x.tag (Keeps.refl u) (Sub.refl _)).only.feat rfl
    unfold featureValue
    rw [hf, hfeat, SMap.getD_put_self]
  · have hs : (completeOk x.tag u).nv.saved = u.nv.saved := (completeBoth_posts x.tag 0 0 false [] u).saved
    rw [hs, ← hu, if_pos hsv]
    exact SMap.find_put_self _ _ _

theorem AdminReady.invalidField_failed : Failed x 0 0x02 true s (invalidField x.tag s) := by
  rw [h.tag_eq]
  exact completeBoth_answered h.1

/-! ### Power management, ordered queues and network structures -/

omit h in
theorem mode_applyPowerState (u : State) : mode (applyPowerState u) = mode u ∨ mode (applyPowerState u) = 4 ∨ mode (applyPowerState u) = 5 := by
  have hcap : mode (showCap u) = mode u := by
    unfold showCap
    dsimp only
    exact mode_congr ((rd_fset_ne _ _ _ _ (by decide)).trans (rd_fset_ne _ _ _ _ (by decide)))
  unfold applyPowerState
  dsimp only
  split
  · exact .inl rfl
  · split
    · exact .inl hcap
    · split
      · exact .inr (.inr (mode_enterMode (by decide) _))
      · split
        · exact .inr (.inl (mode_enterMode (by decide) _))
        · exact .inl hcap

theorem AdminReady.setRequested_ok (ps : Nat) :
    Succeeded x s (completeOk x.tag (setRequested x.ctrl ps false s)) ∧
      ∃ y, ctrlAt x.ctrl (completeOk x.tag (setRequested x.ctrl ps false s)) = some y ∧ y.reqPs = ps ∧ y.setPs = ps := by
  obtain ⟨hok, y, hy, hap⟩ := h.updCtrl_ok (f := fun y => { y with reqPs := ps, setPs := ps }) (u := setRequested x.ctrl ps false s)
    (fun _ => rfl) (fun _ => rfl) (by unfold setRequested; rw [applyPowerState_nv]; rfl) (by unfold setRequested; rw [applyPowerState_nv]; rfl)
    (by unfold setRequested; rw [applyPowerState_nv]; rfl) (fun hb => by
      rcases mode_applyPowerState (updCtrl x.ctrl (fun x => { x with reqPs := ps, setPs := if false then x.setPs else ps }) s) with hm | hm | hm
      · exact hm.symm.trans hb
      · exact absurd (hm.symm.trans hb) (by decide)
      · exact absurd (hm.symm.trans hb) (by decide))
  exact ⟨hok, y, hy, congrArg (fun p => p.1.reqPs) hap, congrArg (fun p => p.1.setPs) hap⟩

theorem AdminReady.setOrderedQueue_ok {v : Nat} {k : Sq} (hv : v < 2 ^ 18) (hq : v % 65536 ≠ 0) (hne : x.sq ≠ v % 65536)
    (hk : sqAt x.ctrl (v % 65536) s = some k) :
    Succeeded x s (setOrderedQueue x v false s) ∧ sqAt x.ctrl (v % 65536) (setOrderedQueue x v false s) = some { k with
        ordered := v / 2 ^ 16 % 2 == 1, haltErr := v / 2 ^ 17 % 2 == 1, halted := false } := by
  unfold setOrderedQueue
  dsimp only
  rw [if_neg (by simp), if_neg (by rw [hk]; simp; omega)]
  refine ⟨?_, ?_⟩
  · rw [h.tag_eq]
    refine completeBoth_answered_after h.1 rfl rfl ?_ (fun q => ?_) (fun hb => hb)
    · unfold updSq sqAt
      rw [ctrlAt_updCtrl_self, h.2]
      exact SMap_find_upd_ne _ _ hne
    · exact cqAt_updCtrl_of (f := fun z => { z with sqs := SMap.upd z.sqs (v % 65536) _ }) (fun _ => rfl) s
  · refine ((completeBoth_posts x.tag 0 0 false [] _).sqAt _ _).trans ?_
    rw [sqAt_updSq_self, hk]
    rfl

theorem AdminReady.setPsk_ok {i : Nat} {data : List Byte} :
    Succeeded x s (completeOk x.tag (setPsk i data s)) ∧
      (fieldAt data 48 1 ≠ 0 → SMap.find (completeOk x.tag (setPsk i data s)).net.psks i = some data) := by
  refine ⟨?_, fun hlen => ?_⟩
  · rw [h.tag_eq]
    exact completeBoth_answered_after h.1 rfl rfl rfl (fun _ => rfl) (fun hb => hb)
  · have hn : (completeOk x.tag (setPsk i data s)).net = (setPsk i data s).net :=
      (completeOk_keeps (M := 4194465) x.tag (Keeps.refl (setPsk i data s)) (Sub.refl _)).only.net rfl
    rw [hn]
    unfold setPsk updNet
    dsimp only
    rw [if_neg hlen]
    exact SMap.find_put_self _ _ _

end

/-! ### The rows -/

section
variable {x : Cmd} {c : Ctrl} {s : State}

theorem setFeature_put {fid : Nat} (dw11 : Nat) (sv : Bool) (data : List Byte) (lost : List Nat)
    (hfid : fid = 0x01 ∨ fid = 0x08 ∨ fid = 0x0A ∨ fid = 0x0B) (hsv : sv = true → c.fabric = false) :
    setFeature fid dw11 sv data lost x c s = completeOk x.tag (putFeature x.ctrl fid dw11 sv s) := by
  have hsave : (sv && !saveable fid c.fabric) = false := by
    cases sv with
    | false => rfl
    | true =>
      rw [hsv rfl]
      rcases hfid with rfl | rfl | rfl | rfl <;> rfl
  unfold setFeature
  rw [hsave]
  rcases hfid with rfl | rfl | rfl | rfl <;> rfl

theorem getFeature_held {fid : Nat} (dw11 : Nat) (hfid : fid = 0x01 ∨ fid = 0x08 ∨ fid = 0x0A) :
    getFeature fid 0 dw11 x c s = completeDw x.tag (SMap.getD c.feats fid 0) s := by
  rcases hfid with rfl | rfl | rfl <;> rfl

theorem getFeature_fixed (x : Cmd) (c : Ctrl) (s : State) (dw11 : Nat) :
    getFeature 0xC0 0 dw11 x c s = completeDw x.tag (featureValue 0xC0 s) s ∧ getFeature 0xC0 1 dw11 x c s = completeDw x.tag 0x164 s ∧
      getFeature 0x07 0 dw11 x c s = completeDw x.tag 0x1F001F s ∧ getFeature 0xC6 0 dw11 x c s = completeDw x.tag (arbReadOut c.func s) s :=
  ⟨rfl, rfl, rfl, rfl⟩

theorem setFeature_power {dw11 : Nat} (hps : dw11 % 32 ≤ 4) :
    setFeature 0x02 dw11 false [] [] x c s = completeOk x.tag (setRequested x.ctrl (dw11 % 32) false s) := by
  change (if 4 < dw11 % 32 then invalidField x.tag s else completeOk x.tag (setRequested x.ctrl (dw11 % 32) false s)) = _
  rw [if_neg (by omega)]

theorem setFeature_wide {fid : Nat} (v : Nat) (sv : Bool) (hfid : fid = 0xC0 ∨ fid = 0xC1 ∨ fid = 0xC3 ∨ fid = 0xC5) :
    setFeature fid v sv [] [] x c s = setWide x c fid v sv s := by
  have hsave : (sv && !saveable fid c.fabric) = false := by
    rcases hfid with rfl | rfl | rfl | rfl <;> cases sv <;> rfl
  unfold setFeature
  rw [hsave]
  rcases hfid with rfl | rfl | rfl | rfl <;> rfl

theorem applyWcache_nv (f : Nat) (s : State) : (applyWcache f s).nv = s.nv := by
  unfold applyWcache
  split
  · rfl
  · split <;> rfl

theorem applyWcache_mode (f : Nat) (s : State) : mode (applyWcache f s) = mode s := by
  unfold applyWcache
  split
  · rfl
  · split <;> rfl

theorem setFeature_ordered (v : Nat) (sv : Bool) : setFeature 0xC4 v sv [] [] x c s = setOrderedQueue x v sv s := by
  unfold setFeature
  rw [if_neg (by decide), if_pos rfl]

theorem setFeature_readOut (v : Nat) (sv : Bool) : setFeature 0xC6 v sv [] [] x c s = complete x.tag 1 0x0E true 0 [] s := by
  unfold setFeature
  rw [if_neg (by decide), if_neg (by decide), if_pos rfl]

theorem setFeature_runtime {v : Nat} (hw : v / 65536 % 256 ≠ 0) (hv : v < 2 ^ 24)
    (hfit : privUsed c.func s - SMap.getD s.prog.wcache c.func 4 * 0x1000000 + v / 65536 % 256 * 0x1000000 ≤ privSize c.func s) :
    setFeature 0xC2 v false [] [] x c s = completeOk x.tag (applyWcache c.func (putFeature x.ctrl 0xC2 v false s)) := by
  have hset : setFeature 0xC2 v false [] [] x c s = setRuntime x c v false s := by
    unfold setFeature
    rw [if_neg (by decide), if_neg (by decide), if_neg (by decide), if_neg (by simp), if_neg (by decide)]
    exact if_neg (by simp [featureArgOk])
  rw [hset]
  unfold setRuntime
  dsimp only
  rw [if_neg (by omega), if_neg (Nat.not_lt.mpr hfit), if_neg (by simp)]

theorem setFeature_psk {i : Nat} {data : List Byte} (lost : List Nat) (hpf : c.pf = true) (hi : i < 64) (hd : netStructOk 2 data = true) :
    setFeature 0xC7 (2 + 4 * i) false data lost x c s = completeOk x.tag (setPsk i data s) := by
  have hsel : (2 + 4 * i) % 4 = 2 := by omega
  have hidx : (2 + 4 * i) / 4 % 256 = i := by omega
  have hset : setFeature 0xC7 (2 + 4 * i) false data lost x c s = setNetwork x c (2 + 4 * i) false data lost s := by
    unfold setFeature
    rw [if_neg (by decide), if_neg (by decide), if_neg (by decide), if_neg (by simp), if_neg (by decide)]
    exact if_neg (by simp [featureArgOk])
  have htaken : (!c.pf || decide (2 ^ 10 ≤ 2 + 4 * i) || ((2 : Nat) == 0 && decide (1 < i)) || ((2 : Nat) == 2 && decide (63 < i)) ||
      !netStructOk 2 data) = false := by
    simp [hpf, hd]
    omega
  rw [hset]
  unfold setNetwork
  dsimp only
  rw [hsel, hidx, if_neg (by rw [htaken]; simp)]
  rfl

end

end Sys2Proof.Machine
end

section
/-! Statement O13: features, row by row. -/

namespace Sys2Proof.Machine

/-- A row of Set Features takes value `v` of the module-wide feature `fid`. -/
def TakesWide (x : Cmd) (fid v : Nat) (sv : Bool) (s : State) (i : Instr) : Prop :=
  Completes i s (fun t => Succeeded x s t ∧ featureValue fid t = v ∧ (sv = true → SMap.find t.nv.saved (wideKey fid) = some v))

section
variable {tag : Nat} {x : Cmd} {c : Ctrl} {s : State} (h : AdminReady tag x c s)
include h

theorem takesWide_of {fid v : Nat} {sv : Bool} {i : Instr} (hpf : c.pf = true) (hfid : fid = 0xC0 ∨ fid = 0xC1 ∨ fid = 0xC3 ∨ fid = 0xC5)
    (hi : exec i s = adminRow tag (setFeature fid v sv [] []) s) (hok : wideOk fid v = true) : TakesWide x fid v sv s i := by
  refine ⟨_, hi.trans (adminRow_of_ready h _), ?_⟩
  rw [setFeature_wide v sv hfid]
  exact h.setWide_ok hpf hok

theorem landingPool_refused {v : Nat} (sv : Bool) (hv : 2 ^ 9 ≤ v ∨ 100 < v % 256) :
    Completes (.setLandingPoolPolicy tag v sv) s (fun t => Failed x 0 0x02 true s t ∧ featureValue 0xC0 t = featureValue 0xC0 s) := by
  have hno : wideOk 0xC0 v = false := by
    simp only [wideOk, Bool.and_eq_false_iff, decide_eq_false_iff_not]
    omega
  refine ⟨_, adminRow_of_ready h _, ?_⟩
  rw [setFeature_wide v sv (.inl rfl)]
  unfold setWide
  rw [if_pos (by simp [hno])]
  refine ⟨h.invalidField_failed, ?_⟩
  unfold featureValue
  rw [show (invalidField x.tag s).feat = s.feat from
    (complete_keeps (M := 4194465) x.tag 0 0x02 true 0 [] (Keeps.refl s) (Sub.refl _)).only.feat rfl]

theorem wideFeatures_taken (v : Nat) (sv : Bool) (hpf : c.pf = true) :
    (v < 2 ^ 9 → v % 256 ≤ 100 → TakesWide x 0xC0 v sv s (.setLandingPoolPolicy tag v sv)) ∧
      (v < 2 ^ 18 → v / 65536 ≠ 3 → TakesWide x 0xC1 v sv s (.setScanDefaults tag v sv)) ∧
      (v < 2 ^ 28 → v / 2 ^ 24 ≠ 0 → v % 256 < v / 256 % 256 → v / 256 % 256 < v / 65536 % 256 → v / 65536 % 256 ≤ 95 →
        TakesWide x 0xC3 v sv s (.setThermalThresholds tag v sv)) ∧
      (v < 2 ^ 9 → TakesWide x 0xC5 v sv s (.setEventNotification tag v sv)) ∧
      (2 ^ 9 ≤ v ∨ 100 < v % 256 → Completes (.setLandingPoolPolicy tag v sv) s (fun t => Failed x 0 0x02 true s t ∧
        featureValue 0xC0 t = featureValue 0xC0 s)) :=
  ⟨fun _ _ => takesWide_of h hpf (.inl rfl) rfl (by simp [wideOk]; omega),
    fun _ _ => takesWide_of h hpf (.inr (.inl rfl)) rfl (by simp [wideOk]; omega),
    fun _ _ _ _ _ => takesWide_of h hpf (.inr (.inr (.inl rfl))) rfl (by simp [wideOk]; omega),
    fun _ => takesWide_of h hpf (.inr (.inr (.inr rfl))) rfl (by simp [wideOk]; omega),
    landingPool_refused h sv⟩

end

/-- Settles O13: each row is an admin command that is answered after a change of a controller's value, of a module-wide one or of a key slot. -/
theorem featuresSet : Obligations.FeaturesSet := by
  unfold Obligations.FeaturesSet
  intro s tag x c h
  have hrow (run : Cmd → Ctrl → State → State) : adminRow tag run s = .next (run x c s) := adminRow_of_ready h run
  have hans (sct sc : Nat) (dnr : Bool) (dw0 : Nat) : Answered x sct sc dnr dw0 0 [] s (complete x.tag sct sc dnr dw0 [] s) := by
    rw [h.tag_eq]
    exact completeBoth_answered h.1
  refine ⟨?put, ?unknown, ?getUnknown, ?getHeld, ?getFixed, ?power, ?ordered, ?wide, ?runtime, ?readOnly, ?network, ?alive⟩
  case put =>
    intro fid dw11 sv data hfid hsv
    refine ⟨_, hrow _, ?_⟩
    rw [setFeature_put dw11 sv data [] hfid hsv]
    exact h.putFeature_ok fid dw11 sv rfl (by unfold putFeature; dsimp only; split <;> rfl)
  case unknown =>
    intro fid dw11 sv data hfid
    refine ⟨_, hrow _, ?_⟩
    unfold setFeature
    rw [if_pos (by rw [hfid]; rfl)]
    exact h.invalidField_failed
  case getUnknown =>
    intro fid sel dw11 hbad
    refine ⟨_, hrow _, ?_⟩
    unfold getFeature
    dsimp only
    have hno : (!featureIds.contains fid || decide (3 < sel)) = true := by
      rcases hbad with hb | hb
      · rw [hb]
        rfl
      · rw [decide_eq_true hb, Bool.or_true]
    rw [if_pos hno]
    exact h.invalidField_failed
  case getHeld =>
    intro fid dw11 hfid
    refine ⟨_, hrow _, ?_⟩
    rw [getFeature_held dw11 hfid]
    exact hans 0 0 false _
  case getFixed =>
    intro dw11
    obtain ⟨hcur, hdef, hqueues, hread⟩ := getFeature_fixed x c s dw11
    refine ⟨⟨_, hrow _, ?_⟩, ⟨_, hrow _, ?_⟩, ⟨_, hrow _, ?_⟩, ⟨_, hrow _, ?_⟩⟩
    · rw [hcur]
      exact hans 0 0 false _
    · rw [hdef]
      exact hans 0 0 false _
    · rw [hqueues]
      exact hans 0 0 false _
    · rw [hread]
      exact hans 0 0 false _
  case power =>
    intro dw11 hps
    refine ⟨_, hrow _, ?_⟩
    rw [setFeature_power hps]
    exact h.setRequested_ok _
  case ordered =>
    intro v k hv hq hne hk
    refine ⟨_, hrow _, ?_⟩
    rw [setFeature_ordered]
    exact h.setOrderedQueue_ok hv hq hne hk
  case wide => exact fun v sv hpf => wideFeatures_taken h v sv hpf
  case runtime =>
    intro v hw hv hfit
    refine ⟨_, hrow _, ?_⟩
    rw [setFeature_runtime hw hv hfit]
    obtain ⟨hok, hfeat, -⟩ := h.putFeature_ok 0xC2 v false (applyWcache_nv c.func _) (applyWcache_mode c.func _)
    exact ⟨hok, hfeat⟩
  case readOnly =>
    intro v sv
    refine ⟨_, hrow _, ?_⟩
    rw [setFeature_readOut]
    exact hans 1 0x0E true 0
  case network =>
    intro i data lost hpf hi hd
    refine ⟨_, hrow _, ?_⟩
    rw [setFeature_psk lost hpf hi hd]
    exact h.setPsk_ok
  case alive => exact ⟨_, hrow _, hans 0 0 false 0⟩

end Sys2Proof.Machine
end

section
/-! What goes on when a command ends or a controller stops (R17, R93, R100, R106): reads that waited, landed writes and completions, as one
frame for whatever relation their parts keep. -/

namespace Sys2Proof.Machine

/-- A relation between states that the steps of commands which go on keep. -/
structure GoesOn (R : State → State → Prop) : Prop where
  refl : ∀ s, R s s
  trans : ∀ {s t u}, R s t → R t u → R s u
  cmd : ∀ {x y : Cmd} {s : State}, x ∈ s.nv.cmds → y.tag = x.tag → y.ctrl = x.ctrl → R s (setCmd y s)
  answer : ∀ tag sct sc dnr dw0 dw1 data s, R s (completeBoth tag sct sc dnr dw0 dw1 data s)
  settled : ∀ s, R s (settleAll s)
  cached : ∀ p s, R s (cachePage p s)
  queued : ∀ n o s, R s (pushOp n o s)
  written : ∀ x s, R s (applyWrite x s)

namespace GoesOn

variable {R : State → State → Prop} (h : GoesOn R)
include h

theorem forEach {α : Type} {f : α → State → State} (hf : ∀ a t, R t (f a t)) (l : List α) (s : State) : R s (Machine.forEach f l s) := by
  induction l generalizing s with
  | nil => exact h.refl s
  | cons a l ih => exact h.trans (hf a s) (ih _)

theorem loadPage (p : Nat) (s : State) : R s (Machine.loadPage p s) := by
  unfold Machine.loadPage
  dsimp only
  split
  · exact h.refl s
  · exact h.queued _ _ s

theorem finishRead (tag : Nat) (s : State) : R s (Machine.finishRead tag s) := by
  unfold Machine.finishRead
  split
  · exact h.refl s
  · rename_i x hx
    split
    · exact h.answer _ _ _ _ _ _ _ s
    · dsimp only
      split
      · refine h.trans ?_ (h.answer _ _ _ _ _ _ _ _)
        exact h.cmd (cmdAt_mem hx).1 rfl rfl
      · split
        · split <;> exact h.answer _ _ _ _ _ _ _ s
        · split <;> exact h.answer _ _ _ _ _ _ _ s

theorem lookUnit (tag iu : Nat) (s : State) : R s (Machine.lookUnit tag iu s) := by
  unfold Machine.lookUnit
  split
  · exact h.refl s
  · rename_i x hx
    have hmem : x ∈ (cachePage (pageKey x.nsid iu) s).nv.cmds := by
      rw [(cachePage_keeps (M := 256) _ (Keeps.refl s) (Sub.refl _)).only.nv rfl]
      exact (cmdAt_mem hx).1
    split
    · exact h.refl s
    · split
      · refine h.trans ?_ (h.loadPage _ _)
        exact h.cmd (cmdAt_mem hx).1 rfl rfl
      · dsimp only
        split
        · refine h.trans (h.cached (pageKey x.nsid iu) s) ?_
          exact h.cmd hmem rfl rfl
        · split
          · exact h.trans (h.cached (pageKey x.nsid iu) s) (h.answer _ _ _ _ _ _ _ _)
          · refine h.trans (h.cached (pageKey x.nsid iu) s) (h.trans ?_ (h.queued _ _ _))
            exact h.cmd hmem rfl rfl

theorem startRead (tag : Nat) (s : State) : R s (Machine.startRead tag s) := by
  unfold Machine.startRead
  split
  · exact h.refl s
  · rename_i x _
    have hlook : R s (Machine.forEach (Machine.lookUnit tag) (iusOf x s) s) := h.forEach (h.lookUnit tag) _ s
    dsimp only
    split
    · exact hlook
    · split
      · exact h.trans hlook (h.finishRead tag _)
      · exact hlook

theorem wakeReads (s : State) : R s (Machine.wakeReads s) := h.forEach h.startRead _ s

theorem applyOne (s : State) : R s (Machine.applyOne s) := by
  unfold Machine.applyOne
  split
  · exact h.refl s
  · split
    · exact h.answer _ _ _ _ _ _ _ s
    · exact h.trans (h.written _ s) (h.answer _ _ _ _ _ _ _ _)

theorem applyLanded (n : Nat) (s : State) : R s (Machine.applyLanded n s) := by
  induction n generalizing s with
  | zero => exact h.refl s
  | succ n ih => exact h.trans (h.applyOne s) (h.trans (h.wakeReads _) (ih _))

theorem goOn (s : State) : R s (Machine.goOn s) :=
  h.trans (h.wakeReads s) (h.trans (h.applyLanded _ _) (h.settled _))

end GoesOn

end Sys2Proof.Machine
end

section
/-! What completions and commands that go on leave of the host's controllers (R93, R106), and which fields of registers they leave. -/

namespace Sys2Proof.Machine

/-! ### Controllers -/

/-- What a reset settles of a controller: whether it is enabled, ready, and has queues. -/
def Ctrl.standing (x : Ctrl) : Bool × Bool × Bool × Bool := (x.en, x.rdy, x.sqs.isEmpty, x.cqs.isEmpty)

/-- Every controller stands as before, none is new or gone, and no command is new. -/
def HostKept (s t : State) : Prop := (∀ c, (ctrlAt c t).map Ctrl.standing = (ctrlAt c s).map Ctrl.standing) ∧ NoNewCmds s t

theorem HostKept.refl (s : State) : HostKept s s := ⟨fun _ => rfl, NoNewCmds.of_sub (fun _ h => h)⟩

theorem HostKept.trans {s t u : State} (h : HostKept s t) (g : HostKept t u) : HostKept s u :=
  ⟨fun c => (g.1 c).trans (h.1 c), h.2.trans g.2⟩

theorem HostKept.of_ctrls {s t : State} (hc : t.nv.ctrls = s.nv.ctrls) (hm : NoNewCmds s t) : HostKept s t :=
  ⟨fun c => by rw [ctrlAt_congr hc], hm⟩

theorem HostKept.of_nv {s t : State} (h : t.nv = s.nv) : HostKept s t :=
  HostKept.of_ctrls (by rw [h]) (NoNewCmds.of_sub (fun _ hy => h ▸ hy))

/-- Whatever an operation does that leaves the host's state. -/
theorem HostKept.of_keeps {M : Nat} {s t : State} (hk : Keeps M s t) (hM : M.testBit 7 = false) : HostKept s t := HostKept.of_nv (hk.only.nv hM)

theorem HostKept.of_posts {s t : State} (h : Posts s t) : HostKept s t := by
  refine ⟨fun c => ?_, h.cmds⟩
  have hc := congrArg (Option.map (fun p : Ctrl × Bool => (p.1.en, p.1.rdy, p.1.sqs.isEmpty, p.2))) (h.ctrl c)
  rw [Option.map_map, Option.map_map] at hc
  exact hc

theorem updCtrl_hostKept {c : Nat} {f : Ctrl → Ctrl} (hf : ∀ x, (f x).standing = x.standing) (s : State) : HostKept s (updCtrl c f s) := by
  refine ⟨fun d => ?_, NoNewCmds.of_sub (fun _ h => h)⟩
  by_cases hd : d = c
  · subst hd
    rw [ctrlAt_updCtrl_self, Option.map_map]
    exact congrArg (Option.map · (ctrlAt d s)) (funext hf)
  · rw [ctrlAt_updCtrl_ne _ _ hd]

theorem updSq_hostKept (c q : Nat) (f : Sq → Sq) (s : State) : HostKept s (updSq c q f s) :=
  updCtrl_hostKept (fun z => by simp [Ctrl.standing, SMap_upd_isEmpty]) s

theorem HostKept.forEach {α : Type} {f : α → State → State} (hf : ∀ a t, HostKept t (f a t)) (l : List α) (s : State) :
    HostKept s (Machine.forEach f l s) := by
  induction l generalizing s with
  | nil => exact HostKept.refl s
  | cons a l ih => exact (hf a s).trans (ih _)

theorem haltQueue_hostKept (x : Cmd) (s : State) : HostKept s (haltQueue x s) := by
  unfold haltQueue
  split
  · exact HostKept.refl s
  · split
    · refine HostKept.trans (updSq_hostKept x.ctrl x.sq (fun q => { q with halted := q.ordered && q.haltErr }) s) (HostKept.of_ctrls rfl ?_)
      intro y hy
      obtain ⟨w, hw, rfl⟩ := List.mem_map.mp hy
      refine ⟨w, hw, ?_⟩
      split <;> exact ⟨rfl, rfl⟩
    · exact HostKept.refl s

theorem completeBoth_hostKept (tag sct sc : Nat) (dnr : Bool) (dw0 dw1 : Nat) (data : List Byte) (s : State) :
    HostKept s (completeBoth tag sct sc dnr dw0 dw1 data s) := by
  unfold completeBoth
  split
  · exact HostKept.refl s
  · rename_i x hx
    dsimp only
    split
    · exact HostKept.refl s
    · split
      · refine HostKept.trans ?_ (HostKept.of_posts (settleAll_posts _))
        exact HostKept.of_ctrls rfl (setCmd_noNewCmds (cmdAt_mem hx).1 rfl rfl)
      · refine HostKept.trans ?_ ((haltQueue_hostKept x _).trans (HostKept.of_posts (settleAll_posts _)))
        refine ⟨(updCtrl_hostKept (c := x.ctrl) (f := fun c => { c with errors := c.errors + 1 }) (fun _ => rfl) s).1, ?_⟩
        exact setCmd_noNewCmds (cmdAt_mem hx).1 rfl rfl

theorem hostKept_goesOn : GoesOn HostKept where
  refl := HostKept.refl
  trans := HostKept.trans
  cmd hx ht hc := HostKept.of_ctrls rfl (setCmd_noNewCmds hx ht hc)
  answer := completeBoth_hostKept
  settled s := HostKept.of_posts (settleAll_posts s)
  cached p s := HostKept.of_keeps (cachePage_keeps (M := 256) p (Keeps.refl s) (Sub.refl _)) rfl
  queued n o s := HostKept.of_keeps (pushOp_keeps (M := 513) n o (Keeps.refl s) (Sub.refl _)) rfl
  written x s := HostKept.of_keeps (applyWrite_keeps (M := 264961) x (Keeps.refl s) (Sub.refl _)) rfl

end Sys2Proof.Machine
end

section
/-! Fields of registers that commands which go on leave: those of blocks below the channels' that neither completions nor the recorder write. -/

namespace Sys2Proof.Machine

/-! ### Registers below the channels' -/

theorem rd_pushOp {a : Nat} (h : ShowsNoChan a) (n : Nat) (o : ChanOp) (s : State) : rd a (pushOp n o s) = rd a s := by
  unfold pushOp
  dsimp only
  split
  · split
    · exact rd_startRebuild h n o false false s
    · rfl
  · exact rd_setChan _ (h n) s

theorem rd_mapChanged {a : Nat} (h : ShowsNoChan a) (p : Nat) (s : State) : rd a (mapChanged p s) = rd a s := by
  have hpage : rd a (cachePage p (dirtyPage p s)) = rd a s :=
    rd_congr ((cachePage_keeps (M := 256) p (dirtyPage_keeps p (Keeps.refl s) (Sub.refl _)) (Sub.refl _)).only.regs rfl) a
  refine Eq.trans ?_ hpage
  unfold mapChanged mapWriter
  split
  · rfl
  · split
    · rfl
    · exact rd_pushOp h _ _ _

section
variable {a : Nat} (ha : a < 0x46000000)
include ha

theorem rd_prdEnded (claimed : Bool) (k : Nat) (s : State) : rd a (prdEnded claimed k s) = rd a s := by
  unfold prdEnded
  split
  · rw [rd_cntAdd_ne _ _ _ _ _ (by split <;> simp only [Reg.AXC_CNT_PRD_CLAIMED, Reg.AXC_CNT_PRD_EXPIRED] <;> omega),
      rd_cntAdd_ne _ _ _ _ _ (by simp only [Reg.AXC_CNT_PRD_ISSUED]; omega)]
  · rfl

theorem rd_invalidateWindows (nsid iu : Nat) (s : State) : rd a (invalidateWindows nsid iu s) = rd a s :=
  rd_forEach _ (fun g _ t => rd_prdEnded ha false g.core t) s

omit ha in
theorem rd_noteSd (nsid i : Nat) (s : State) : rd a (noteSd nsid i s) = rd a s :=
  rd_congr ((noteSd_keeps (M := 256) nsid i (Keeps.refl s) (Sub.refl _)).only.regs rfl) a

omit ha in
theorem rd_queueDiscard (nsid : Nat) (s : State) : rd a (queueDiscard nsid s) = rd a s :=
  rd_congr ((queueDiscard_keeps (M := 256) nsid (Keeps.refl s) (Sub.refl _)).only.regs rfl) a

omit ha in
theorem rd_journal (n : Nat) (s : State) : rd a (journal n s) = rd a s := rfl

omit ha in
theorem rd_recomputeFill (s : State) : rd a (recomputeFill s) = rd a s := rfl

theorem rd_landUnit (p : Place) (nsid iu : Nat) (n : Ns) (d : IuData) (s : State) : rd a (landUnit p nsid iu n d s) = rd a s := by
  unfold landUnit
  dsimp only
  rw [rd_invalidateWindows ha, rd_mapChanged (showsNoChan_of (.inl ha)), rd_journal, rd_noteSd]
  rfl

theorem rd_deallocUnit (nsid iu : Nat) (s : State) : rd a (deallocUnit nsid iu s) = rd a s := by
  unfold deallocUnit
  rw [rd_invalidateWindows ha, rd_mapChanged (showsNoChan_of (.inl ha))]
  rfl

theorem rd_applyWrite (x : Cmd) (s : State) : rd a (applyWrite x s) = rd a s := by
  unfold applyWrite
  split
  · rfl
  · rename_i n _
    dsimp only
    generalize hunits : forEach _ (iusOf x s) s = t
    have ht : rd a t = rd a s := by
      rw [← hunits]
      refine rd_forEach _ (fun iu _ u => ?_) s
      split
      · rfl
      · split
        · exact rd_deallocUnit ha _ _ u
        · split
          · exact rd_landUnit ha _ _ _ _ _ u
          · rfl
    rw [← ht]
    split
    · rw [rd_recomputeFill]
      split
      · rw [rd_queueDiscard, rd_journal]
      · rw [rd_journal]
    · split
      · exact rd_queueDiscard _ _
      · rfl

end

/-! ### Fields -/

/-- A field of a block below the channels' that is none of the recorder's and none that completions write; of the events of HIF it may be
any but CQ_HELD. -/
def Unposted (f : Fld) : Prop :=
  f.addr < 0x46000000 ∧ f.addr ∉ [Reg.HIF_OVL_STATUS, Reg.HIF_TAG_STATUS, Reg.HIF_TAG_SHARED] ++ pbkRegs ∧
    (f.addr ≠ Reg.HIF_EVENT ∨ 6 ≤ f.lo ∨ f.lo + f.w ≤ 5)

section
variable {f : Fld} (h : Unposted f)
include h

theorem fget_showTags (s : State) : fget f (showTags s) = fget f s := by
  obtain ⟨-, hregs, -⟩ := h
  simp only [List.cons_append, List.nil_append, List.mem_cons, not_or] at hregs
  obtain ⟨hovl, htag, hshared, -⟩ := hregs
  unfold showTags
  dsimp only
  rw [fget_wr_ne _ _ _ _ hshared, fget_wr_ne _ _ _ _ htag, fget_fset_ne _ _ _ _ (.inl hovl), fget_fset_ne _ _ _ _ (.inl hovl),
    fget_fset_ne _ _ _ _ (.inl hovl)]

theorem fget_raiseEvent_held (s : State) : fget f (raiseEvent 0x04 0 Fl.HIF_EVENT_CQ_HELD s) = fget f s := by
  obtain ⟨-, hregs, hev⟩ := h
  unfold raiseEvent
  rw [fget_postmark _ _ _ _ _ (fun hm => hregs (List.mem_append_right _ hm)), fget_fset_ne _ _ _ _ ?_]
  rcases hev with hev | hev | hev
  · exact .inl hev
  · exact .inr (.inl hev)
  · exact .inr (.inr hev)

theorem fget_tunnelResult (sct sc dw0 : Nat) (data : List Byte) (s : State) : fget f (tunnelResult sct sc dw0 data s) = fget f s := by
  have hibi : f.addr ≠ Reg.MGT_CNT_IBI := fun he => absurd h.1 (by rw [he]; decide)
  have hdefer : f.addr ≠ Reg.MGT_CNT_IBI_DEFER := fun he => absurd h.1 (by rw [he]; decide)
  unfold tunnelResult postMctp raiseIbi sendIbi
  split
  · rfl
  · split
    · exact fget_wr_ne _ _ _ _ hibi
    · exact fget_wr_ne _ _ _ _ hdefer

theorem fget_postResult (x : Cmd) (e : Cqe) (s : State) : fget f (postResult x e s) = fget f s := by
  unfold postResult
  split
  · split
    · exact fget_raiseEvent_held h _
    · exact fget_of_rd (rd_postEntry f.addr _ _ _ _)
  · change fget f (if x.sq = 65535 then tunnelResult e.sct e.sc e.dw0 e.data s else s) = fget f s
    split
    · exact fget_tunnelResult h _ _ _ _ s
    · rfl

theorem fget_settle (n : Nat) (s : State) : fget f (settle n s) = fget f s := by
  induction n generalizing s with
  | zero => rfl
  | succ n ih =>
    unfold settle
    split
    · rfl
    · rw [ih]
      unfold settleOne
      split
      · split
        · exact fget_postResult h _ _ s
        · rfl
      · split <;> rfl

theorem fget_settleAll (s : State) : fget f (settleAll s) = fget f s := (fget_showTags h _).trans (fget_settle h _ s)

theorem fget_completeBoth (tag sct sc : Nat) (dnr : Bool) (dw0 dw1 : Nat) (data : List Byte) (s : State) :
    fget f (completeBoth tag sct sc dnr dw0 dw1 data s) = fget f s := by
  unfold completeBoth
  split
  · rfl
  · dsimp only
    split
    · rfl
    · split
      · exact fget_settleAll h _
      · exact (fget_settleAll h _).trans (fget_of_rd (rd_haltQueue f.addr _ _))

theorem fget_goesOn : GoesOn (fun s t => fget f t = fget f s) where
  refl _ := rfl
  trans hs ht := ht.trans hs
  cmd _ _ _ := rfl
  answer := fget_completeBoth h
  settled := fget_settleAll h
  cached p s := fget_congr ((cachePage_keeps (M := 256) p (Keeps.refl s) (Sub.refl _)).only.regs rfl) f
  queued n o s := fget_of_rd (rd_pushOp (showsNoChan_of (.inl h.1)) n o s)
  written x s := fget_of_rd (rd_applyWrite h.1 x s)

theorem fget_goOn (s : State) : fget f (goOn s) = fget f s := (fget_goesOn h).goOn s

end

end Sys2Proof.Machine
end

section
/-! NVM subsystem resets and resets of ports (R72, R84, R106): the links and the causes that they leave. -/

namespace Sys2Proof.Machine

theorem fget_resetPostmark {f : Fld} (h : f.addr ∉ pbkRegs) (kind cause : Nat) (s : State) :
    fget f (resetPostmark kind cause s) = fget f s := fget_postmark _ _ _ f s h

/-- NET.CONN follows the connections without any other register. -/
theorem fget_showConns {f : Fld} (h0 : f.addr ≠ Reg.NET_CONN 0) (h1 : f.addr ≠ Reg.NET_CONN 1) (s : State) : fget f (showConns s) = fget f s := by
  refine fget_of_rd (rd_forN_lt (n := 2) (fun i hi t => ?_) s)
  have hne : f.addr ≠ Reg.NET_CONN i := by
    obtain rfl | rfl : i = 0 ∨ i = 1 := by omega
    · exact h0
    · exact h1
  rw [rd_fset_ne _ _ _ _ hne, rd_fset_ne _ _ _ _ hne]

theorem fget_setLevels {f : Fld} (h : f.addr ≠ Reg.HIF_LINK_STATUS ∨ 11 ≤ f.lo ∨ f.lo + f.w ≤ 10) (portB : Bool) (on : List Nat) (level : Nat)
    (degr : Bool) (s : State) : fget f (setLevels portB on level degr s) = fget f s := fget_fset_ne _ _ _ _ h

/-- Port A's link is off and shows it; port B's stays up or down. -/
theorem linkOff_portA (s : State) : fget Fl.HIF_LINK_STATUS_UP_A (linkOff false s) = 0 ∧
    fget Fl.HIF_LINK_STATUS_UP_B (linkOff false s) = fget Fl.HIF_LINK_STATUS_UP_B s := by
  unfold linkOff
  rw [fget_setLevels (by decide), fget_setLevels (by decide)]
  simp (disch := decide) only [setLink, Bool.false_eq_true, if_false, fget_fset_self, fget_fset_ne, Nat.zero_mod, and_self]

theorem linkOff_portB (s : State) : fget Fl.HIF_LINK_STATUS_UP_B (linkOff true s) = 0 := by
  unfold linkOff
  rw [fget_setLevels (by decide)]
  simp (disch := decide) only [setLink, if_true, fget_fset_self, fget_fset_ne, Nat.zero_mod]

/-- The end of a reset of the subsystem or of a port: its cause, its event, its postmark and what goes on. -/
def resetEnd (perst : Bool) (s : State) : State :=
  resetPostmark 2 (if perst then 7 else 6) (raiseEvent 0x04 0 Fl.HIF_EVENT_NSSR
    (fset (if perst then Fl.AON_RST_CAUSE_NVMSSR_PERST else Fl.AON_RST_CAUSE_NVMSSR_REG) 1 s))

theorem resetEnd_shows (perst : Bool) (s : State) :
    fget (if perst then Fl.AON_RST_CAUSE_NVMSSR_PERST else Fl.AON_RST_CAUSE_NVMSSR_REG) (resetEnd perst s) = 1 ∧
      fget Fl.HIF_EVENT_NSSR (resetEnd perst s) = 1 ∧ rd Reg.HIF_LINK_STATUS (resetEnd perst s) = rd Reg.HIF_LINK_STATUS s := by
  unfold resetEnd
  refine ⟨?_, ?_, ?_⟩
  · cases perst with
    | false =>
      refine (fget_resetPostmark (by decide) _ _ _).trans ((fget_of_rd (rd_raiseEvent_ne _ _ _ _ _ (by decide) (by decide))).trans ?_)
      exact fget_fset_self Fl.AON_RST_CAUSE_NVMSSR_REG 1 s (by decide)
    | true =>
      refine (fget_resetPostmark (by decide) _ _ _).trans ((fget_of_rd (rd_raiseEvent_ne _ _ _ _ _ (by decide) (by decide))).trans ?_)
      exact fget_fset_self Fl.AON_RST_CAUSE_NVMSSR_PERST 1 s (by decide)
  · exact (fget_resetPostmark (by decide) _ _ _).trans (fget_raiseEvent_self _ _ _ _ (by decide) rfl (by decide))
  · refine (rd_postmark _ _ _ _ _ (by decide)).trans ((rd_raiseEvent_ne _ _ _ _ _ (by decide) (by decide)).trans ?_)
    exact rd_fset_ne _ _ _ _ (by cases perst <;> decide)

/-- What a subsystem reset does before it is recorded: associations, controllers and functions end, HIF and NET return to reset values. -/
def subsystemCleared (s : State) : State :=
  let ends := endAllAssocs false (keepCounts (netCounters ++ [Reg.HIF_STALL_TAG, Reg.HIF_STALL_OVL]) s)
  let s1 := forEach (fun e t => ctrlClear e.1 false t) ends.nv.ctrls (scanAbort5 (fun _ => true) false ends)
  let s2 := forEach (fun f t => lbxReset f (funcData f t)) (knownFuncs s1) s1
  let s3 := clearRegs (fun b _ r => r.cls == .c || r.cls == .f || ((b == .hif || b == .net) && r.cls == .m)) s2
  clearIrqs (fun _ => true) <| setNumVf false 0 (setNumVf true 0 { s3 with
    nv := { s3.nv with crs := 0, ctrls := s3.nv.ctrls.map (fun e => (e.1, { e.2 with online := true })) }
    net := { s3.net with conns := [], paused := [] }
    ten := { s3.ten with doorbells := [] } })

theorem subsystemResetNow_eq (perst : Bool) (s : State) :
    subsystemResetNow perst s =
      goOn (restoreFeats (showConns (resetEnd perst (linkOff false (linkOff true (subsystemCleared s)))))) := rfl

theorem subsystemResetNow_shows (perst : Bool) (s : State) :
    fget Fl.HIF_LINK_STATUS_UP_A (subsystemResetNow perst s) = 0 ∧ fget Fl.HIF_LINK_STATUS_UP_B (subsystemResetNow perst s) = 0 ∧
      fget (if perst then Fl.AON_RST_CAUSE_NVMSSR_PERST else Fl.AON_RST_CAUSE_NVMSSR_REG) (subsystemResetNow perst s) = 1 ∧
      fget Fl.HIF_EVENT_NSSR (subsystemResetNow perst s) = 1 := by
  have hend {f : Fld} (h : Unposted f) (h0 : f.addr ≠ Reg.NET_CONN 0) (h1 : f.addr ≠ Reg.NET_CONN 1) (t : State) :
      fget f (goOn (restoreFeats (showConns t))) = fget f t := (fget_goOn h _).trans (fget_showConns h0 h1 t)
  have hcleared : fget Fl.HIF_LINK_STATUS_UP_A (linkOff false (linkOff true (subsystemCleared s))) = 0 ∧
      fget Fl.HIF_LINK_STATUS_UP_B (linkOff false (linkOff true (subsystemCleared s))) = 0 :=
    ⟨(linkOff_portA _).1, (linkOff_portA _).2.trans (linkOff_portB _)⟩
  rw [subsystemResetNow_eq]
  generalize linkOff false (linkOff true (subsystemCleared s)) = u at hcleared ⊢
  obtain ⟨hoffA, hoffB⟩ := hcleared
  obtain ⟨hcause, hevent, hlink⟩ := resetEnd_shows perst u
  refine ⟨?_, ?_, ?_, ?_⟩
  · rw [hend ⟨by decide, by decide, by decide⟩ (by decide) (by decide), fget_of_rd (f := Fl.HIF_LINK_STATUS_UP_A) hlink, hoffA]
  · rw [hend ⟨by decide, by decide, by decide⟩ (by decide) (by decide), fget_of_rd (f := Fl.HIF_LINK_STATUS_UP_B) hlink, hoffB]
  · rw [hend _ _ _, hcause]
    · cases perst <;> exact ⟨by decide, by decide, by decide⟩
    · cases perst <;> decide
    · cases perst <;> decide
  · rw [hend ⟨by decide, by decide, by decide⟩ (by decide) (by decide), hevent]

theorem activating_of_idle {s : State} (h : s.mgt.upd.todo = []) : activating s = false := by
  unfold activating
  rw [h]
  rfl

theorem nvmSubsystemReset_now {perst : Bool} {s : State} (hm : mode s ≠ 8) (hp : pdOn 7 s = true) (ha : s.mgt.upd.todo = []) :
    nvmSubsystemReset perst s = subsystemResetNow perst s := by
  unfold nvmSubsystemReset
  rw [if_neg hm, if_neg (by simp [hp]), if_neg (by simp [activating_of_idle ha])]

end Sys2Proof.Machine
end

section
/-! Requests to change mode (R60–R62, R71–R73, R79): Watch, the module reset, Rise from Watch, and statement O4. -/

namespace Sys2Proof.Machine

/-! ### Watch, module resets and Rise -/

theorem goWatch_pow (s : State) : (goWatch s).pow = { s.pow with afterSeal := .none, riseStep := .idle, faultWatch := false } := by
  have hstart : ∀ b t, (mgtStart b t).pow = t.pow := fun b t => (mgtStart_keeps b (Keeps.refl t) (Sub.refl 4718593)).only.pow rfl
  have hclear : ∀ t, (watchClear t).pow = t.pow := fun t => (watchClear_keeps (Keeps.refl t) (Sub.refl 67108775)).only.pow rfl
  unfold goWatch
  dsimp only
  rw [hstart, goMode_pow, hclear]

theorem rstBit_addr (c : RstCause) : (rstBit c).addr = Reg.AON_RST_CAUSE ∧ (rstBit c).lo + (rstBit c).w ≤ 64 ∧ (rstBit c).w = 1 := by
  cases c <;> exact ⟨rfl, by decide, rfl⟩

/-- The cause of a reset, once the mode is Keep and the postmark has been recorded. -/
theorem rstBit_goMode (c : RstCause) (u : State) (p : Pow) :
    fget (rstBit c) (goMode 1 { resetPostmark 1 (rstCode c) (fset (rstBit c) 1 u) with pow := p }) = 1 := by
  obtain ⟨haddr, hwide, hone⟩ := rstBit_addr c
  have hmode (t : State) : fget (rstBit c) (goMode 1 t) = fget (rstBit c) t := by
    apply fget_of_rd
    rw [haddr]
    exact rd_goMode (showsNoUnit_of (.inl (by decide))) (by decide) (by decide) (by decide) 1 t
  rw [hmode]
  change fget (rstBit c) (resetPostmark 1 (rstCode c) (fset (rstBit c) 1 u)) = 1
  rw [fget_resetPostmark (by rw [haddr]; decide), fget_fset_self _ _ _ hwide, hone]
  rfl

/-- A module reset that acts at once: the mode is Keep, its cause shows, and the interval with the domains off begins (R72). -/
theorem resetOff_resets (c : RstCause) (s : State) :
    mode (resetOff c s) = 1 ∧ fget (rstBit c) (resetOff c s) = 1 ∧ (resetOff c s).pow.afterSeal = .resetOff := by
  unfold resetOff
  dsimp only
  exact ⟨mode_goMode (by decide) _, rstBit_goMode c _ _, by rw [goMode_pow]⟩

theorem requestModuleReset_watch {c : RstCause} {s : State} (hm : mode s = 2) (ha : s.pow.afterSeal = .none) (hs : s.pow.stopping = none)
    (hu : s.mgt.upd.todo = []) : requestModuleReset c s = resetOff c s := by
  unfold requestModuleReset
  dsimp only
  rw [if_neg (by rw [hm, ha]; decide), if_neg (by simp [activating_of_idle hu]), if_neg (by omega), hs]
  dsimp only
  rw [if_neg (by omega)]

theorem requestModuleReset_commit {c : RstCause} {s : State} (hm : mode s = 8) (ha : s.pow.afterSeal ≠ .resetOff) (hu : s.mgt.upd.todo = [])
    (hw : s.pow.resetWait = none) : requestModuleReset c s = { s with pow := { s.pow with resetWait := some c } } := by
  unfold requestModuleReset
  dsimp only
  rw [if_neg (by rw [hm]; simp [ha]), if_neg (by simp [activating_of_idle hu]), if_pos hm, hw]
  rfl

theorem startRise_wakeTimer (s : State) : rd Reg.AON_WAKE_TIMER (startRise s) = rd Reg.AON_WAKE_TIMER s := by
  have hlow : LowKept (riseBegun s) (startRise s) :=
    mgtStart_low ((hostRise_low (LowKept.refl _)).of_keeps (bootFirmware_keeps (Keeps.refl _) (Sub.refl 4194304)) rfl) _
  rw [hlow _ (by decide), rd_riseBegun (by decide) (by decide), rd_enterMode (by decide) (by decide), rd_reportCommit (by decide)]
  rfl

/-- An event that may wake the module from Keep or Watch. -/
theorem mayWake_of {s : State} (hm : mode s = 1 ∨ mode s = 2) (ha : s.pow.afterSeal = .none) (hp : s.pow.pllWatch = false) : mayWake s = true := by
  unfold mayWake
  rcases hm with hm | hm <;> simp [hm, ha, hp]

/-- Rise that a wake event starts: the event's bit of AON.WAKE_SRC shows. -/
theorem startRise_fset_wakeSrc {f : Fld} (haddr : f.addr = Reg.AON_WAKE_SRC) (hw : f.w = 1) (hl : f.lo + f.w ≤ 64) (s : State) :
    mode (startRise (fset f 1 s)) = 3 ∧ fget f (startRise (fset f 1 s)) = 1 := by
  obtain ⟨hmode, -, -, hsrc⟩ := startRise_woken (fset f 1 s)
  refine ⟨hmode, ?_⟩
  rw [fget_of_rd (s := fset f 1 s) (by rw [haddr]; exact hsrc), fget_fset_self _ _ _ hl, hw]
  rfl

/-! ### Rows -/

theorem startOrderlyStop_serve {s : State} (h4 : mode s = 4) (ht : fget Fl.AON_MODE_TRANS s = 0) :
    startOrderlyStop .watch s = beginTransition 2 (hostStopAdmission { s with pow := { s.pow with stopping := some .watch } }) := by
  unfold startOrderlyStop
  rw [if_neg (by omega)]
  dsimp only
  rw [if_neg (by omega)]

theorem fget_beginTransition {m : Nat} (hm : m < 16) (s : State) :
    fget Fl.AON_MODE_TARGET (beginTransition m s) = m ∧ fget Fl.AON_MODE_TRANS (beginTransition m s) = 1 := by
  unfold beginTransition
  constructor
  · rw [fget_fset_ne _ _ _ _ (.inr (.inr (by decide))), fget_fset_self _ _ _ (by decide)]
    exact Nat.mod_eq_of_lt hm
  · exact fget_fset_self _ _ _ (by decide)

theorem beginTransition_onlyRegs (m : Nat) (s : State) : OnlyRegs [Reg.AON_MODE] s (beginTransition m s) := by
  refine ⟨rfl, fun a ha => ?_⟩
  have hne : a ≠ Reg.AON_MODE := by simpa using ha
  unfold beginTransition
  rw [rd_fset_ne _ _ _ _ hne, rd_fset_ne _ _ _ _ hne]

section
variable {s : State} (h4 : mode s = 4) (ht : fget Fl.AON_MODE_TRANS s = 0) (hs : s.pow.stopping = none)
include h4 ht hs

/-- An orderly stop to Watch that begins in Serve. -/
theorem execOrderlyStop_watch : execOrderlyStop .watch s =
    .next (beginTransition 2 (hostStopAdmission { s with pow := { s.pow with stopping := some .watch } })) := by
  unfold execOrderlyStop
  dsimp only
  rw [if_neg (by simp [hs]), if_pos (by omega), startOrderlyStop_serve h4 ht]

theorem orderlyStop_fromServe :
    (s.pow.pwrdis = true → Completes .pwrdisHoldExpiry s (fun t => t.pow.stopping = some .watch ∧ t.nv.stopped = true ∧
        fget Fl.AON_MODE_TARGET t = 2 ∧ fget Fl.AON_MODE_TRANS t = 1 ∧ OnlyRegs [Reg.AON_MODE]
          { s with pow := { s.pow with stopping := some .watch }, nv := { s.nv with stopped := true } } t)) ∧
      Completes (.orderlyStop .watch) s (fun t => t.pow.stopping = some .watch ∧ t.nv.stopped = true ∧ fget Fl.AON_MODE_TARGET t = 2) := by
  obtain ⟨htarget, htrans⟩ := fget_beginTransition (m := 2) (by decide)
    (hostStopAdmission { s with pow := { s.pow with stopping := some .watch } })
  have hrow := execOrderlyStop_watch h4 ht hs
  exact ⟨fun hp => ⟨_, (if_pos hp).trans hrow, rfl, rfl, htarget, htrans, beginTransition_onlyRegs 2 _⟩, _, hrow, rfl, rfl, htarget⟩

theorem moduleReset_fromServe (ha : s.pow.afterSeal = .none) (hu : s.mgt.upd.todo = []) (c : RstCause) :
    (requestModuleReset c s).pow.stopping = some (.reset c) ∧ (requestModuleReset c s).nv.stopped = true ∧
      fget Fl.AON_MODE_TRANS (requestModuleReset c s) = 1 := by
  rw [requestModuleReset_serve h4 ht hs ha hu]
  exact ⟨rfl, rfl, (fget_beginTransition (by decide) _).2⟩

end

theorem pwrdisDeassert_wakes {s : State} (hm : mode s = 2) (ha : s.pow.afterSeal = .none) (hp : s.pow.pllWatch = false)
    (hen : fget Fl.AON_WAKE_EN_PWRDIS s = 1) : Completes .pwrdisDeassert s (fun t => mode t = 3 ∧ fget Fl.AON_WAKE_SRC_PWRDIS t = 1) := by
  refine ⟨startRise (fset Fl.AON_WAKE_SRC_PWRDIS 1 (wakeTimer { s with pow := { s.pow with pwrdis := false } })), ?_,
    startRise_fset_wakeSrc rfl rfl (by decide) _⟩
  change execPwrdisDeassert s = _
  unfold execPwrdisDeassert
  dsimp only
  rw [if_pos (.inr hm), if_pos ⟨hen, mayWake_of (.inr hm) ha hp⟩]

theorem pwrdisDeassert_clears {s : State} (h1 : mode s ≠ 1) (h2 : mode s ≠ 2) : Completes .pwrdisDeassert s (fun t => t = { s with pow := { s.pow with
    pwrdis := false, wakeSince := if s.pow.perst then some (s.pow.wakeSince.getD s.tick) else none } }) := by
  refine ⟨wakeTimer { s with pow := { s.pow with pwrdis := false } }, ?_, ?_⟩
  · change execPwrdisDeassert s = _
    unfold execPwrdisDeassert
    dsimp only
    rw [if_neg (by omega)]
  · unfold wakeTimer
    simp

theorem graceExpiry_watch {s : State} (hs : s.pow.stopping = some .watch) (hw : s.pow.waiting = []) :
    Completes .orderlyStopGraceExpiry s (fun t => mode t = 2 ∧ t.pow.stopping = none ∧ statusLeds t = (.hz1, .off)) := by
  obtain ⟨u, hu⟩ : ∃ u : State, u = (let s1 := if mode s = 3 then hostAbortOutstanding s else ftlFlushAndCheckpoint (hostAbortOutstanding s)
    { s1 with pow := { s1.pow with stopping := none }, pbk := { s1.pbk with cleanStop := true } }) := ⟨_, rfl⟩
  refine ⟨{ (goWatch u) with pow := { (goWatch u).pow with waiting := [] } }, ?_, ?_⟩
  · change execOrderlyStopGraceExpiry s = _
    unfold execOrderlyStopGraceExpiry
    rw [hs]
    dsimp only
    rw [serveWaiting_none (by rw [hw]; rfl), hw, hu]
    rfl
  · have hmode : mode ({ (goWatch u) with pow := { (goWatch u).pow with waiting := [] } } : State) = 2 := (goWatch_watches u).1
    refine ⟨hmode, ?_, ?_⟩
    · dsimp only
      rw [goWatch_pow, hu]
    · unfold statusLeds
      rw [hmode]
      dsimp only
      rw [goWatch_pow]
      rfl

theorem wakeTimerExpiry_wakes {s : State} (hm : mode s = 1 ∨ mode s = 2) (ht : (rd Reg.AON_WAKE_TIMER s).toNat ≠ 0) (ha : s.pow.afterSeal = .none)
    (hp : s.pow.pllWatch = false) (hen : fget Fl.AON_WAKE_EN_TIMER s = 1) (hd : mode s = 1 → s.pow.pwrdis = false) :
    Completes .wakeTimerExpiry s (fun t => mode t = 3 ∧ rd Reg.AON_WAKE_TIMER t = 0 ∧ fget Fl.AON_WAKE_SRC_TIMER t = 1) := by
  obtain ⟨hmode, hsrc⟩ := startRise_fset_wakeSrc (f := Fl.AON_WAKE_SRC_TIMER) rfl rfl (by decide) (wr Reg.AON_WAKE_TIMER 0 s)
  refine ⟨startRise (fset Fl.AON_WAKE_SRC_TIMER 1 (wr Reg.AON_WAKE_TIMER 0 s)), ?_, hmode, ?_, hsrc⟩
  · change execWakeTimerExpiry s = _
    unfold execWakeTimerExpiry
    dsimp only
    rw [if_pos ⟨hm, ht⟩, if_pos ⟨hen, mayWake_of hm ha hp⟩]
    split
    · exact congrArg Host.Outcome.next (if_neg (show ¬ s.pow.pwrdis = true by rw [hd ‹_›]; decide))
    · rfl
  · rw [startRise_wakeTimer, rd_fset_ne _ _ _ _ (by decide), rd_wr_self]

theorem withResetKey_right {key req bit : Nat} {f : State → State} {s : State} (h : key % 256 = 0x5A) : withResetKey key req bit f s = f s := if_pos h

theorem withResetKey_wrong {key req bit : Nat} {f : State → State} {s : State} (h : key % 256 ≠ 0x5A) :
    OnlyMarked [] s (withResetKey key req bit f s) := by
  unfold withResetKey
  rw [if_neg h]
  exact writeIgnored_onlyMarked _ _ _ s

/-- Settles O4: each row of a request, by the mode in which it comes. -/
theorem modeRequests : Obligations.ModeRequests := by
  unfold Obligations.ModeRequests
  intro s
  refine ⟨?assert, ?deassert, ?wakes, ?serve, ?commit, ?watch, ?off, ?grace, ?keepStart, ?nssr, ?nssrCommit, ?wrongKey, ?timer⟩
  case assert =>
    refine ⟨_, rfl, ?_⟩
    unfold wakeTimer
    simp
  case deassert => exact pwrdisDeassert_clears
  case wakes => exact pwrdisDeassert_wakes
  case serve =>
    intro h4 ht hs ha
    obtain ⟨hhold, hstop⟩ := orderlyStop_fromServe h4 ht hs
    refine ⟨hhold, hstop, fun hu c req => ⟨⟨_, rfl, moduleReset_fromServe h4 ht hs ha hu c⟩, ?_, fun hh => ?_⟩⟩
    · obtain ⟨hstopping, -, htrans⟩ := moduleReset_fromServe h4 ht hs ha hu .mgmt
      exact ⟨requestModuleReset .mgmt s, congrArg Host.Outcome.next (withResetKey_right rfl), hstopping, htrans⟩
    · obtain ⟨hstopping, -, htrans⟩ := moduleReset_fromServe h4 ht hs ha hu .wdt
      exact ⟨_, if_neg (by simp [h4, hh]), hstopping, htrans⟩
  case commit => exact fun c hm ha hu hw => ⟨_, rfl, requestModuleReset_commit hm ha hu hw⟩
  case watch =>
    intro c hm ha hs hu
    refine ⟨_, rfl, ?_⟩
    rw [requestModuleReset_watch hm ha hs hu]
    exact resetOff_resets c s
  case off =>
    intro ha hm
    obtain ⟨hmode, hstep, -⟩ := startRise_woken s
    exact ⟨startRise s, if_pos ⟨ha, hm⟩, hmode, hstep⟩
  case grace => exact graceExpiry_watch
  case keepStart =>
    intro hm req
    refine ⟨⟨goMode 1 (keepClear s), congrArg Host.Outcome.next ((withResetKey_right rfl).trans (if_pos hm)), mode_goMode (by decide) _⟩,
      fun ha hp => ?_, fun hp => ⟨s, congrArg Host.Outcome.next ((withResetKey_right rfl).trans (if_neg ?_)), rfl⟩⟩
    · obtain ⟨hmode, hstep, -⟩ := startRise_woken s
      exact ⟨startRise s, congrArg Host.Outcome.next ((withResetKey_right rfl).trans (if_pos ⟨hm, mayWake_of (.inr hm) ha hp⟩)), hmode, hstep⟩
    · unfold mayWake
      simp [hp]
  case nssr =>
    intro req hm hp hu
    exact ⟨subsystemResetNow false s, congrArg Host.Outcome.next ((withResetKey_right rfl).trans (nvmSubsystemReset_now hm hp hu)),
      subsystemResetNow_shows false s⟩
  case nssrCommit => exact fun req hm => ⟨_, congrArg Host.Outcome.next ((withResetKey_right rfl).trans (if_pos hm)), rfl⟩
  case wrongKey =>
    exact fun key req hk => ⟨⟨_, rfl, withResetKey_wrong hk⟩, ⟨_, rfl, withResetKey_wrong hk⟩, ⟨_, rfl, withResetKey_wrong hk⟩,
      ⟨_, rfl, withResetKey_wrong hk⟩⟩
  case timer => exact wakeTimerExpiry_wakes

end Sys2Proof.Machine
end

section
/-! Controller reset (R93, R106, R201, R386): what it leaves of its controller and of the others. -/

namespace Sys2Proof.Machine

/-! ### What ends with a controller -/

theorem scanAnswer_hostKept (j : ScanJob) (status index : Nat) (s : State) : HostKept s (scanAnswer j status index s) := by
  unfold scanAnswer
  extract_lets scans s1
  have hends : HostKept s s1 := by
    unfold s1
    split
    · exact HostKept.of_nv rfl
    · exact HostKept.refl s
  refine hends.trans ?_
  split
  · exact HostKept.refl s1
  · split
    · exact completeBoth_hostKept _ _ _ _ _ _ _ s1
    · split <;> exact completeBoth_hostKept _ _ _ _ _ _ _ s1

/-- A job answers for its end once what it held has been released. -/
theorem HostKept.answered {s t : State} (h : t.nv = s.nv) (j : ScanJob) (status index : Nat) : HostKept s (scanAnswer j status index t) :=
  (HostKept.of_nv h).trans (scanAnswer_hostKept j status index t)

/-- A set of parts of the state: all but the host's. -/
theorem notHost : ∃ M, Sub 67108735 M ∧ M.testBit 7 = false := ⟨_, Sub.refl _, rfl⟩

theorem scanEnd_hostKept (j : ScanJob) (status : Nat) (write : Bool) (s : State) : HostKept s (scanEnd j status write s) := by
  obtain ⟨M, hM, h7⟩ := notHost
  unfold scanEnd
  split
  · exact HostKept.refl s
  · rename_i r0 _
    extract_lets r s1 ovf s2 s3 z
    have h1 : Keeps M s s1 := dropScanReads_keeps j.num (forEach_keeps (Keeps.refl s) (fun n t => showCtx_keeps r.ctx j r.desc 0 n (Keeps.refl t)))
    have h2 : Keeps M s s2 := by
      unfold s2
      split
      · exact raiseEvent_keeps _ _ _ h1
      · exact h1
    have h3 : Keeps M s s3 := by
      unfold s3
      split
      · exact useFree_keeps (writeSpace_keeps _ _ _ h2)
      · exact h2
    refine HostKept.answered ?_ j status 0
    exact h3.only.nv h7

theorem scanAbort5_hostKept (p : ScanJob → Bool) (write : Bool) (s : State) : HostKept s (scanAbort5 p write s) := by
  obtain ⟨M, hM, h7⟩ := notHost
  refine HostKept.forEach (fun j t => ?_) _ s
  split
  · exact HostKept.refl t
  · split
    · exact scanEnd_hostKept j 5 write t
    · extract_lets ra t1
      refine HostKept.answered (t := dropScan j.num t1) (Keeps.only ?_ |>.nv h7) j 5 0
      refine dropScan_keeps _ ?_
      unfold t1
      split
      · exact useFree_keeps (writeSpace_keeps _ _ _ (Keeps.refl t))
      · exact Keeps.refl t

theorem releaseExec_hostKept (e : Nat) (x : Exec) (s : State) : HostKept s (releaseExec e x s) := by
  obtain ⟨M, hM, h7⟩ := notHost
  unfold releaseExec
  extract_lets left s1 s2 scans s3 s4 s5
  have h1 : Keeps M s s1 := endLetters_keeps _ _ (forEach_keeps (Keeps.refl s) (fun l t => abortLetterOnEngine_keeps l (Keeps.refl t)))
  have h2 : HostKept s s2 :=
    (HostKept.of_keeps (cancelPreReads_keeps _ h1) h7).trans (scanAbort5_hostKept _ _ _)
  have h4 : Keeps M s2 s4 := forEach_keeps (Keeps.upd_scan (Keeps.refl s2)) (fun w t => unmapWindow_keeps e w.1 (Keeps.refl t))
  have h5 : Keeps M s2 s5 := endOwner_keeps _ _ (forEach_keeps h4 (fun n t => deleteTable_keeps n (Keeps.refl t)))
  exact h2.trans (HostKept.of_keeps (applyWcache_keeps _ (privFree_keeps _ _ (Keeps.upd_prog h5))) h7)

theorem abandonExecs_hostKept (p : Exec → Bool) (s : State) : HostKept s (abandonExecs p s) := by
  obtain ⟨M, hM, h7⟩ := notHost
  refine HostKept.forEach (fun e t => ?_) _ s
  exact (HostKept.of_keeps (stopExec_keeps e.1 e.2.func (Keeps.refl t)) h7).trans (releaseExec_hostKept e.1 e.2 _)

theorem servePigeon_hostKept (p : Nat × Nat → Bool) (s : State) : HostKept s (servePigeon p s) := by
  obtain ⟨M, hM, h7⟩ := notHost
  unfold servePigeon
  extract_lets gone mine
  split
  · exact HostKept.refl s
  · refine HostKept.trans ?_ (HostKept.of_keeps (endLetters_keeps _ _ (Keeps.refl _)) h7)
    exact HostKept.of_ctrls rfl (NoNewCmds.of_sub (fun _ h => h))

theorem refillShared_hostKept (k : Nat) (s : State) : HostKept s (refillShared k s) := by
  obtain ⟨M, hM, h7⟩ := notHost
  unfold refillShared
  extract_lets woken nv s1
  have h1 : HostKept s s1 := HostKept.of_ctrls rfl (NoNewCmds.of_sub (fun _ h => h))
  refine (h1.trans (HostKept.forEach (fun c => updCtrl_hostKept (c := c) (f := fun x => { x with paused := false }) (fun _ => rfl)) woken s1)).trans ?_
  exact HostKept.of_keeps (showTags_keeps (Keeps.refl _)) h7

/-! ### The commands of a controller -/

theorem abandonCmd_host (x : Cmd) (s : State) :
    (abandonCmd x s).nv.ctrls = s.nv.ctrls ∧ (abandonCmd x s).nv.cmds = s.nv.cmds.filter (fun y => y.tag != x.tag) := by
  obtain ⟨M, hM, h7⟩ := notHost
  have hdrop : (dropLanding x.tag s).nv = s.nv := (dropLanding_keeps (M := M) x.tag (Keeps.refl s)).only.nv h7
  unfold abandonCmd
  extract_lets started dropped nv s1
  have h1 : s1.nv.ctrls = s.nv.ctrls ∧ s1.nv.cmds = s.nv.cmds.filter (fun y => y.tag != x.tag) := ⟨(congrArg Nvme.ctrls hdrop :), rfl⟩
  split
  · split
    · rename_i n _
      rw [(forEach_keeps (M := M) (Keeps.refl s1) (fun iu t => abandonUnit_keeps x n iu (Keeps.refl t))).only.nv h7]
      exact h1
    · exact h1
  · exact h1

theorem forEach_abandonCmd_ctrls (l : List Cmd) (s : State) : (forEach abandonCmd l s).nv.ctrls = s.nv.ctrls := by
  induction l generalizing s with
  | nil => rfl
  | cons x l ih => exact (ih _).trans ((abandonCmd_host x s).1)

/-- Of the commands there are, those whose tags are not abandoned stay. -/
theorem forEach_abandonCmd_cmds {l : List Cmd} {s : State} {y : Cmd} (h : y ∈ (forEach abandonCmd l s).nv.cmds) :
    y ∈ s.nv.cmds ∧ ∀ x ∈ l, y.tag ≠ x.tag := by
  induction l generalizing s with
  | nil => exact ⟨h, fun _ hx => absurd hx List.not_mem_nil⟩
  | cons x l ih =>
    obtain ⟨hmem, hl⟩ := ih h
    rw [(abandonCmd_host x s).2] at hmem
    obtain ⟨hy, htag⟩ := List.mem_filter.mp hmem
    refine ⟨hy, fun z hz => ?_⟩
    rcases List.mem_cons.mp hz with rfl | hz
    · simpa using htag
    · exact hl z hz

/-! ### The reset -/

/-- What a controller reset leaves of its controller. -/
def Ctrl.cleared (x : Ctrl) : Ctrl :=
  { Ctrl.fresh x.func x.fabric x.portB x.pf with online := x.online, weight := x.weight, selfTest := x.selfTest, errors := x.errors }

/-- A controller has been reset: it stands disabled and without queues, none of its commands is left, and every other stands as before. -/
structure CtrlCleared (c : Nat) (s t : State) : Prop where
  own : (ctrlAt c t).map Ctrl.standing = some (false, false, true, true)
  others : ∀ d, d ≠ c → (ctrlAt d t).map Ctrl.standing = (ctrlAt d s).map Ctrl.standing
  cmds : NoNewCmds s t
  none_left : ∀ y ∈ t.nv.cmds, y.ctrl ≠ c

theorem CtrlCleared.then_kept {c : Nat} {s t u : State} (h : CtrlCleared c s t) (g : HostKept t u) : CtrlCleared c s u where
  own := (g.1 c).trans h.own
  others d hd := (g.1 d).trans (h.others d hd)
  cmds := h.cmds.trans g.2
  none_left y hy := by
    obtain ⟨x, hx, -, hc⟩ := g.2 y hy
    exact hc ▸ h.none_left x hx

theorem CtrlCleared.after_kept {c : Nat} {s t u : State} (g : HostKept s t) (h : CtrlCleared c t u) : CtrlCleared c s u where
  own := h.own
  others d hd := (h.others d hd).trans (g.1 d)
  cmds := g.2.trans h.cmds
  none_left := h.none_left

theorem ctrlClear_cleared {c : Nat} {x : Ctrl} {s : State} (scanBlock : Bool) (h : ctrlAt c s = some x) :
    CtrlCleared c s (ctrlClear c scanBlock s) := by
  unfold ctrlClear
  rw [h]
  extract_lets mine tags s1 s2 s3 nv progs
  have h1 : s1.nv.ctrls = s.nv.ctrls ∧ ∀ y ∈ s1.nv.cmds, y ∈ s.nv.cmds ∧ y.ctrl ≠ c := by
    refine ⟨forEach_abandonCmd_ctrls _ s, fun y hy => ?_⟩
    obtain ⟨hmem, htags⟩ := forEach_abandonCmd_cmds hy
    exact ⟨hmem, fun hc => htags y (List.mem_filter.mpr ⟨hmem, by simp [hc]⟩) rfl⟩
  have h3 : HostKept s1 s3 := (abandonExecs_hostKept _ s1).trans (scanAbort5_hostKept _ _ _)
  refine CtrlCleared.then_kept ?_ ((servePigeon_hostKept _ _).trans ((refillShared_hostKept _ _).trans (hostKept_goesOn.goOn _)))
  refine ⟨?_, fun d hd => ?_, ?_, ?_⟩
  · exact congrArg (Option.map Ctrl.standing) (SMap.find_put_self s3.nv.ctrls c x.cleared)
  · refine (congrArg (Option.map Ctrl.standing) (SMap.find_put_ne s3.nv.ctrls x.cleared hd)).trans ((h3.1 d).trans ?_)
    rw [ctrlAt_congr h1.1]
  · exact (NoNewCmds.of_sub (fun y hy => (h1.2 y hy).1)).trans h3.2
  · intro z hz
    obtain ⟨w, hw, -, hc⟩ := h3.2 z hz
    exact hc ▸ (h1.2 w hw).2

end Sys2Proof.Machine
end

section
/-! Resets of controllers, functions and ports as their rows ask for them (R72, R84, R106, R458). -/

namespace Sys2Proof.Machine

/-! ### Controllers -/

theorem ctrlReset_cleared {c : Nat} {x : Ctrl} {s : State} (cause : Nat) (h : ctrlAt c s = some x) : CtrlCleared c s (ctrlReset c cause s) := by
  obtain ⟨M, hM, h7⟩ := notHost
  exact (ctrlClear_cleared true h).then_kept (HostKept.of_keeps (resetPostmark_keeps (M := M) 3 cause (Keeps.refl _)) h7)

theorem CtrlCleared.stopped {c : Nat} {s t : State} (h : CtrlCleared c s t) :
    ∃ y, ctrlAt c t = some y ∧ y.en = false ∧ y.rdy = false ∧ y.sqs = [] ∧ y.cqs = [] := by
  obtain ⟨y, hy, hst⟩ := Option.map_eq_some_iff.mp h.own
  simp only [Ctrl.standing, Prod.mk.injEq, List.isEmpty_iff] at hst
  exact ⟨y, hy, hst⟩

theorem controllerReset_resets {c : Nat} {x : Ctrl} {s : State} (hc : ctrlAt c (wakeBy 5 s) = some x) (hen : x.en = true) (hf : x.fabric = false)
    (ha : activating (wakeBy 5 s) = false) (hm : mode (wakeBy 5 s) ≠ 8) (hassoc : ∀ a ∈ (wakeBy 5 s).net.assocs, a.ctrl ≠ c) :
    Completes (.controllerReset c) s (fun t => (∀ y ∈ t.nv.cmds, y.ctrl ≠ c) ∧
      ∃ y, ctrlAt c t = some y ∧ y.en = false ∧ y.rdy = false ∧ y.sqs = [] ∧ y.cqs = []) := by
  have hreset : requestCtrlReset c (wakeBy 5 s) = ctrlReset c 0 (wakeBy 5 s) := by
    unfold requestCtrlReset
    rw [if_neg hm, if_neg (by simp [ha]), if_neg (by simpa using hassoc)]
  refine ⟨ctrlReset c 0 (wakeBy 5 s), ?_, (ctrlReset_cleared 0 hc).none_left, (ctrlReset_cleared 0 hc).stopped⟩
  change execControllerReset c s = _
  unfold execControllerReset hostWake
  dsimp only
  rw [if_neg (by simp [hc, hen, hf]), hreset]

/-! ### Functions -/

/-- Controller `c`, if there is one, is disabled. -/
def CtrlOff (c : Nat) (s : State) : Prop := ∀ y, ctrlAt c s = some y → y.en = false

theorem CtrlOff.kept {c : Nat} {s t : State} (h : CtrlOff c s) (g : HostKept s t) : CtrlOff c t := by
  intro y hy
  have hmap := g.1 c
  rw [hy] at hmap
  obtain ⟨x, hx, hst⟩ := Option.map_eq_some_iff.mp hmap.symm
  exact (congrArg Prod.fst hst).symm.trans (h x hx)

theorem ctrlClear_off (c : Nat) (scanBlock : Bool) (s : State) : CtrlOff c (ctrlClear c scanBlock s) := by
  intro y hy
  cases h : ctrlAt c s with
  | none =>
    have hid : ctrlClear c scanBlock s = s := by
      unfold ctrlClear
      rw [h]
    rw [hid, h] at hy
    cases hy
  | some x =>
    obtain ⟨z, hz, hen, -⟩ := (ctrlClear_cleared scanBlock h).stopped
    rw [hz] at hy
    exact Option.some.inj hy ▸ hen

theorem funcData_hostKept (f : Nat) (s : State) : HostKept s (funcData f s) := by
  obtain ⟨M, hM, h7⟩ := notHost
  refine (abandonExecs_hostKept (fun e => e.func == f) s).trans ?_
  unfold funcData
  generalize abandonExecs (fun e => e.func == f) s = t
  extract_lets mine s1 s2 s3 progs
  have h1 : Keeps M t s1 := deleteTablesOf_keeps f (Keeps.refl t)
  clear_value s1
  have h3 : Keeps M t s3 := dropPages_keeps _ (cancelPreReads_keeps _ (forEach_keeps h1 (fun g u => zeroGranule_keeps g (Keeps.refl u))))
  exact HostKept.of_nv (h3.only.nv h7)

theorem clearIrqs_hostKept (p : Nat → Bool) (s : State) : HostKept s (clearIrqs p s) := HostKept.of_ctrls rfl (NoNewCmds.of_sub (fun _ h => h))

theorem lbxReset_hostKept (f : Nat) (s : State) : HostKept s (lbxReset f s) := by
  obtain ⟨M, hM, h7⟩ := notHost
  exact HostKept.of_keeps (lbxReset_keeps (M := M) f (Keeps.refl s)) h7

theorem flrOne_off (f : Nat) (s : State) : CtrlOff (cntlidOf f s) (flrOne f s) := by
  unfold flrOne
  extract_lets s1 s2
  have h1 : CtrlOff (cntlidOf f s) s1 := ctrlClear_off _ false _
  clear_value s1
  exact ((h1.kept (funcData_hostKept f s1)).kept (lbxReset_hostKept f _)).kept (clearIrqs_hostKept _ s2)

theorem irqPend_hostKept (f v : Nat) (s : State) : HostKept s (irqPend f v s) := by
  unfold irqPend
  split
  · exact HostKept.of_ctrls rfl (NoNewCmds.of_sub (fun _ h => h))
  · exact HostKept.refl s

theorem postMsg_hostKept (f : Nat) (m : Msg) (s : State) : HostKept s (postMsg f m s) := by
  obtain ⟨M, hM, h7⟩ := notHost
  unfold postMsg
  extract_lets t s1
  have h1 : Keeps M s s1 := fset_keeps _ _ (putSlot_keeps _ _ (Keeps.refl s))
  clear_value s1
  split
  · split
    · exact HostKept.of_keeps (Keeps.upd_ten h1) h7
    · exact (HostKept.of_keeps h1 h7).trans (irqPend_hostKept _ _ s1)
  · exact HostKept.of_keeps h1 h7

theorem postNow_hostKept (f : Nat) (m : Msg) (s : State) : HostKept s (postNow f m s) := by
  refine (postMsg_hostKept f (withLost f m s) s).trans ?_
  unfold postNow
  extract_lets s1
  split
  · exact HostKept.of_nv rfl
  · exact HostKept.refl s1

theorem sendMsg_hostKept (f keep : Nat) (m : Msg) (s : State) : HostKept s (sendMsg f keep m s) := by
  obtain ⟨M, hM, h7⟩ := notHost
  unfold sendMsg
  extract_lets q ten dropped lost s1
  have h1 : HostKept s s1 := by
    unfold s1
    split
    · exact postNow_hostKept f m s
    · split
      · exact HostKept.of_nv rfl
      · split <;> exact HostKept.of_nv rfl
  exact h1.trans (HostKept.of_keeps (showLbx_keeps (M := M) f (Keeps.refl s1)) h7)

theorem funcReset_off {f : Nat} {s : State} (hf : isPhysical f s = false) :
    fget Fl.HIF_EVENT_FLR (funcReset f s) = 1 ∧ CtrlOff (cntlidOf f s) (funcReset f s) := by
  obtain ⟨M, hM, h7⟩ := notHost
  unfold funcReset
  simp only [hf, Bool.false_eq_true, if_false]
  generalize hsent : forEach (fun g t => sendMsg t.ten.manager 0 (notice 0x12 g []) t) [f] (forEach flrOne [f] s) = u
  have hu : CtrlOff (cntlidOf f s) u := by
    rw [← hsent]
    simp only [forEach]
    exact (flrOne_off f s).kept (sendMsg_hostKept _ _ _ _)
  exact ⟨(fget_resetPostmark (by decide) _ _ _).trans (fget_raiseEvent_self _ _ _ _ (by decide) rfl (by decide)),
    hu.kept (HostKept.of_keeps (resetPostmark_keeps 4 f (raiseEvent_keeps 0x04 0 Fl.HIF_EVENT_FLR (Keeps.refl u))) h7)⟩

theorem functionLevelReset_resets {f : Nat} {s : State} (hp : pdOn 7 (wakeBy 5 s) = true) (hen : funcEnabled f (wakeBy 5 s) = true)
    (ha : activating (wakeBy 5 s) = false) (hm : mode (wakeBy 5 s) ≠ 8) (hf : isPhysical f (wakeBy 5 s) = false) :
    Completes (.functionLevelReset f) s (fun t => fget Fl.HIF_EVENT_FLR t = 1 ∧
      ∀ y, ctrlAt (cntlidOf f (wakeBy 5 s)) t = some y → y.en = false) := by
  refine ⟨funcReset f (wakeBy 5 s), ?_, funcReset_off hf⟩
  change execFunctionLevelReset f s = _
  unfold execFunctionLevelReset hostWake
  dsimp only
  rw [if_neg (by simp [hp, hen]), if_neg hm, if_neg (by simp [ha])]

/-! ### The subsystem and its ports -/

theorem wakeBy_awake {bit : Nat} {s : State} (h6 : mode s ≠ 6) (h7 : mode s ≠ 7) (hi : s.pow.idleWait = none) : wakeBy bit s = s := by
  unfold wakeBy
  rw [if_neg (by omega), if_neg (by simp [hi])]

theorem subsystemResetNow_pow (perst : Bool) (s : State) : (subsystemResetNow perst s).pow = s.pow :=
  (subsystemResetNow_keeps (M := 58523575) perst (Keeps.refl s) (Sub.refl _)).only.pow rfl

theorem fget_linkOff {f : Fld} (h : f.addr ≠ Reg.HIF_LINK_STATUS) (portB : Bool) (s : State) : fget f (linkOff portB s) = fget f s := by
  unfold linkOff
  rw [fget_setLevels (.inl h)]
  unfold setLink
  split <;> rw [fget_fset_ne _ _ _ _ (.inl h), fget_fset_ne _ _ _ _ (.inl h), fget_fset_ne _ _ _ _ (.inl h), fget_fset_ne _ _ _ _ (.inl h)]

theorem perstAssert_resets {s : State} (h0 : mode s ≠ 0) (h6 : mode s ≠ 6) (h7 : mode s ≠ 7) (h8 : mode s ≠ 8) (hi : s.pow.idleWait = none)
    (hp : pdOn 7 s = true) (hu : s.mgt.upd.todo = []) (hdis : s.pow.pwrdis = false) (hdual : s.nv.dual = false) :
    Completes .perstAssert s (fun t => t.pow.perst = true ∧ t.pow.wakeSince = some (s.pow.wakeSince.getD s.tick) ∧
      fget Fl.HIF_LINK_STATUS_UP_A t = 0 ∧ fget Fl.AON_RST_CAUSE_NVMSSR_PERST t = 1 ∧ fget Fl.HIF_EVENT_NSSR t = 1) := by
  obtain ⟨p, hpin⟩ : ∃ p : State, p = wakeTimer { s with pow := { s.pow with perst := true } } := ⟨_, rfl⟩
  have hpow : p.pow.perst = true ∧ p.pow.wakeSince = some (s.pow.wakeSince.getD s.tick) := by
    rw [hpin]
    refine ⟨rfl, ?_⟩
    unfold wakeTimer
    simp [hdis]
  have hrest : mode p = mode s ∧ p.pow.idleWait = s.pow.idleWait ∧ pdOn 7 p = pdOn 7 s ∧ p.mgt = s.mgt := by
    rw [hpin]
    exact ⟨rfl, rfl, rfl, rfl⟩
  obtain ⟨hmode, hidle, hpd, hmgt⟩ := hrest
  obtain ⟨-, -, hcause, hevent⟩ := subsystemResetNow_shows true p
  refine ⟨linkOff false (subsystemResetNow true p), ?_, ?_, ?_, (linkOff_portA _).1, ?_, ?_⟩
  · change execPerstAssert s = _
    unfold execPerstAssert
    dsimp only
    rw [if_neg h0, if_neg (by simp [hdis]), if_neg (by simp [hdual]), ← hpin, wakeBy_awake (hmode ▸ h6) (hmode ▸ h7) (hidle.trans hi),
      nvmSubsystemReset_now (hmode ▸ h8) (hpd.trans hp) (by rw [hmgt, hu])]
  · rw [show (linkOff false (subsystemResetNow true p)).pow = p.pow from
      ((linkOff_keeps (M := 129) false (Keeps.refl _) (Sub.refl _)).only.pow rfl).trans (subsystemResetNow_pow true p)]
    exact hpow.1
  · rw [show (linkOff false (subsystemResetNow true p)).pow = p.pow from
      ((linkOff_keeps (M := 129) false (Keeps.refl _) (Sub.refl _)).only.pow rfl).trans (subsystemResetNow_pow true p)]
    exact hpow.2
  · exact (fget_linkOff (by decide) false _).trans hcause
  · exact (fget_linkOff (by decide) false _).trans hevent

theorem rd_updCtrl (a c : Nat) (f : Ctrl → Ctrl) (s : State) : rd a (updCtrl c f s) = rd a s := rfl

/-- A port's reset ends as the subsystem's does, its link off. -/
theorem portReset_shows (s : State) : fget Fl.AON_RST_CAUSE_NVMSSR_PERST (portReset true s) = 1 ∧ fget Fl.HIF_LINK_STATUS_UP_B (portReset true s) = 0 := by
  obtain ⟨u, fs, heq⟩ : ∃ u fs, portReset true s =
      goOn (resetEnd true (forEach (fun f t => updCtrl (cntlidOf f t) (fun x => { x with online := true }) t) fs (setNumVf true 0 (linkOff true u)))) :=
    ⟨_, _, rfl⟩
  have honline : fget Fl.HIF_LINK_STATUS_UP_B
      (forEach (fun f t => updCtrl (cntlidOf f t) (fun x => { x with online := true }) t) fs (setNumVf true 0 (linkOff true u))) = 0 := by
    refine (fget_of_rd (rd_forEach fs (fun f _ t => rd_updCtrl _ _ _ t) (setNumVf true 0 (linkOff true u)))).trans ?_
    exact (fget_fset_ne _ _ _ _ (.inl (by decide))).trans (linkOff_portB u)
  rw [heq]
  generalize forEach _ fs (setNumVf true 0 (linkOff true u)) = v at honline ⊢
  obtain ⟨hcause, -, hlink⟩ := resetEnd_shows true v
  constructor
  · rw [fget_goOn ⟨by decide, by decide, by decide⟩]
    exact hcause
  · rw [fget_goOn ⟨by decide, by decide, by decide⟩, fget_of_rd (f := Fl.HIF_LINK_STATUS_UP_B) hlink, honline]

theorem perstbAssert_resets {s : State} (h6 : mode s ≠ 6) (h7 : mode s ≠ 7) (h8 : mode s ≠ 8) (hi : s.pow.idleWait = none)
    (hp : pdOn 7 s = true) (hu : s.mgt.upd.todo = []) (hdual : s.nv.dual = true) :
    Completes .perstbAssert s (fun t => t.pow.perstB = true ∧ fget Fl.AON_RST_CAUSE_NVMSSR_PERST t = 1 ∧ fget Fl.HIF_LINK_STATUS_UP_B t = 0) := by
  obtain ⟨p, hpin⟩ : ∃ p : State, p = { s with pow := { s.pow with perstB := true } } := ⟨_, rfl⟩
  have hrest : mode p = mode s ∧ p.pow.idleWait = s.pow.idleWait ∧ pdOn 7 p = pdOn 7 s ∧ p.mgt = s.mgt ∧ p.pow.perstB = true := by
    rw [hpin]
    exact ⟨rfl, rfl, rfl, rfl, rfl⟩
  obtain ⟨hmode, hidle, hpd, hmgt, hperst⟩ := hrest
  have hreset : requestPortReset true p = portReset true p := by
    unfold requestPortReset
    rw [if_neg (by simp [hpd, hp]), if_neg (hmode ▸ h8), if_neg (by simp [activating_of_idle (hmgt ▸ hu)])]
  refine ⟨portReset true p, ?_, ?_, portReset_shows p⟩
  · change execPerstbAssert s = _
    unfold execPerstbAssert
    dsimp only
    rw [if_pos hdual, ← hpin, wakeBy_awake (hmode ▸ h6) (hmode ▸ h7) (hidle.trans hi), hreset]
  · rw [(portReset_keeps (M := 39649191) true (Keeps.refl p) (Sub.refl _)).only.pow rfl]
    exact hperst

end Sys2Proof.Machine
end

section
/-! Links (R77, R82–R84, R113): training, loss, hot reset, the fundamental reset's end and configuration requests. -/

namespace Sys2Proof.Machine

/-! ### Frames of registers and the recorder -/

theorem OnlyMarked.trans {l : List Nat} {s t u : State} (h : OnlyMarked l s t) (g : OnlyMarked l t u) : OnlyMarked l s u := by
  obtain ⟨hst, hregs⟩ := h
  obtain ⟨htu, gregs⟩ := g
  refine ⟨?_, fun a ha hm => (gregs a ha hm).trans (hregs a ha hm)⟩
  rw [htu, hst]

theorem OnlyMarked.mono {l m : List Nat} {s t : State} (h : OnlyMarked l s t) (hl : l ⊆ m) : OnlyMarked m s t :=
  ⟨h.1, fun a ha => h.2 a (fun hal => ha (hl hal))⟩

theorem OnlyMarked.nv {l : List Nat} {s t : State} (h : OnlyMarked l s t) : t.nv = s.nv := by rw [h.1]

/-! ### The state of a link -/

/-- What a port's link shows and how its L1 levels stand, set together. -/
def linkSet (portB : Bool) (up speed width flit : Nat) (on : List Nat) (level : Nat) (degr : Bool) (s : State) : State :=
  setLevels portB on level degr (setLink portB up speed width flit s)

theorem rd_setLink_ne {a : Nat} (h : a ≠ Reg.HIF_LINK_STATUS) (portB : Bool) (up speed width flit : Nat) (s : State) :
    rd a (setLink portB up speed width flit s) = rd a s := by
  unfold setLink
  split <;> rw [rd_fset_ne _ _ _ _ h, rd_fset_ne _ _ _ _ h, rd_fset_ne _ _ _ _ h, rd_fset_ne _ _ _ _ h]

theorem linkSet_onlyMarked (portB : Bool) (up speed width flit : Nat) (on : List Nat) (level : Nat) (degr : Bool) (s : State) :
    OnlyMarked [Reg.HIF_LINK_STATUS] { s with nv := (linkSet portB up speed width flit on level degr s).nv }
      (linkSet portB up speed width flit on level degr s) := by
  refine ⟨by cases portB <;> rfl, fun a ha _ => ?_⟩
  have hne : a ≠ Reg.HIF_LINK_STATUS := List.ne_of_not_mem_cons ha
  exact (rd_fset_ne _ _ _ _ hne).trans (rd_setLink_ne hne portB up speed width flit s)

theorem linkSet_nv (portB : Bool) (up speed width flit : Nat) (on : List Nat) (level : Nat) (degr : Bool) (s : State) :
    (linkSet portB up speed width flit on level degr s).nv =
      if portB then { s.nv with aspmB := on, levelB := level, degrB := degr } else { s.nv with aspmA := on, levelA := level, degrA := degr } := by
  cases portB <;> rfl

/-- Each field of LINK_STATUS as port A's link sets it. -/
theorem linkSet_showsA (up speed width flit : Nat) (on : List Nat) (level : Nat) (degr : Bool) (s : State) :
    fget Fl.HIF_LINK_STATUS_UP_A (linkSet false up speed width flit on level degr s) = up % 2 ∧
    fget Fl.HIF_LINK_STATUS_SPEED_A (linkSet false up speed width flit on level degr s) = speed % 8 ∧
    fget Fl.HIF_LINK_STATUS_WIDTH_A (linkSet false up speed width flit on level degr s) = width % 16 ∧
    fget Fl.HIF_LINK_STATUS_FLIT_A (linkSet false up speed width flit on level degr s) = flit % 2 ∧
    fget Fl.HIF_LINK_STATUS_DEGRADED (linkSet false up speed width flit on level degr s) = if degr || s.nv.degrB then 1 else 0 := by
  unfold linkSet
  rw [fget_setLevels (by decide), fget_setLevels (by decide), fget_setLevels (by decide), fget_setLevels (by decide)]
  refine ⟨?_, ?_, ?_, ?_, ?_⟩
  · simp (disch := decide) only [setLink, Bool.false_eq_true, if_false, fget_fset_ne]
    exact fget_fset_self _ _ _ (by decide)
  · simp (disch := decide) only [setLink, Bool.false_eq_true, if_false, fget_fset_ne]
    exact fget_fset_self _ _ _ (by decide)
  · simp (disch := decide) only [setLink, Bool.false_eq_true, if_false, fget_fset_ne]
    exact fget_fset_self _ _ _ (by decide)
  · exact fget_fset_self _ _ _ (by decide)
  · refine (fget_fset_self _ _ _ (by decide)).trans ?_
    change (if degr || s.nv.degrB then 1 else 0) % 2 = _
    split <;> rfl

theorem linkSet_downB (speed width flit : Nat) (on : List Nat) (level : Nat) (degr : Bool) (s : State) :
    fget Fl.HIF_LINK_STATUS_UP_B (linkSet true 0 speed width flit on level degr s) = 0 := by
  unfold linkSet
  rw [fget_setLevels (by decide)]
  simp (disch := decide) only [setLink, if_true, fget_fset_ne]
  exact fget_fset_self _ _ _ (by decide)

/-! ### Training, loss and hot reset -/

/-- A link has been set and the loss of a link, or of its capability, has been recorded by an event of HIF. -/
theorem linkSet_raised {ev : Fld} (haddr : ev.addr = Reg.HIF_EVENT) (portB : Bool) (up speed width flit : Nat) (on : List Nat) (level : Nat)
    (degr : Bool) (s : State) :
    let u := linkSet portB up speed width flit on level degr s
    (raiseEvent 0x04 0 ev u).nv = u.nv ∧ (∀ f : Fld, f.addr = Reg.HIF_LINK_STATUS → fget f (raiseEvent 0x04 0 ev u) = fget f u) ∧
      OnlyMarked [Reg.HIF_LINK_STATUS, Reg.HIF_EVENT] { s with nv := u.nv } (raiseEvent 0x04 0 ev u) := by
  intro u
  refine ⟨raiseEvent_nv _ _ _ u, fun f hf => fget_of_rd ?_, ?_⟩
  · rw [hf]
    exact rd_raiseEvent_ne _ _ _ _ _ (by decide) (by rw [haddr]; decide)
  · refine ((linkSet_onlyMarked portB up speed width flit on level degr s).mono (by simp)).trans ?_
    exact (raiseEvent_onlyMarked 0x04 0 ev u).mono (by simp [haddr])

theorem linkDown_down {s : State} (portB : Bool) (hup : linkUp portB s = true) : execLinkDown portB s =
    .next (raiseEvent 0x04 0 (if portB then Fl.HIF_EVENT_LINK_DOWN_B else Fl.HIF_EVENT_LINK_DOWN_A)
      (linkSet portB 0 0 0 0 (aspmOf portB s) 0 (degraded portB s) s)) := if_neg (by simp [hup])

theorem linkDownA_shows {s : State} (hup : fget Fl.HIF_LINK_STATUS_UP_A s = 1) : Completes (.linkDown false) s (fun t =>
    fget Fl.HIF_LINK_STATUS_UP_A t = 0 ∧ fget Fl.HIF_EVENT_LINK_DOWN_A t = 1 ∧ t.nv = { s.nv with levelA := 0 } ∧
      OnlyMarked [Reg.HIF_LINK_STATUS, Reg.HIF_EVENT] { s with nv := t.nv } t) := by
  obtain ⟨hnv, hlink, hmarked⟩ := linkSet_raised (ev := Fl.HIF_EVENT_LINK_DOWN_A) rfl false 0 0 0 0 (aspmOf false s) 0 (degraded false s) s
  refine ⟨_, linkDown_down false (by simpa [linkUp] using hup), ?_, fget_raiseEvent_self _ _ _ _ (by decide) rfl (by decide), ?_, ?_⟩
  · exact (hlink Fl.HIF_LINK_STATUS_UP_A rfl).trans (linkSet_showsA 0 0 0 0 _ _ _ s).1
  · exact hnv.trans (linkSet_nv _ _ _ _ _ _ _ _ s)
  · exact hnv ▸ hmarked

theorem linkDownB_shows {s : State} (hup : fget Fl.HIF_LINK_STATUS_UP_B s = 1) : Completes (.linkDown true) s (fun t =>
    fget Fl.HIF_LINK_STATUS_UP_B t = 0 ∧ fget Fl.HIF_EVENT_LINK_DOWN_B t = 1 ∧ t.nv = { s.nv with levelB := 0 } ∧
      OnlyMarked [Reg.HIF_LINK_STATUS, Reg.HIF_EVENT] { s with nv := t.nv } t) := by
  obtain ⟨hnv, hlink, hmarked⟩ := linkSet_raised (ev := Fl.HIF_EVENT_LINK_DOWN_B) rfl true 0 0 0 0 (aspmOf true s) 0 (degraded true s) s
  refine ⟨_, linkDown_down true (by simpa [linkUp] using hup), ?_, fget_raiseEvent_self _ _ _ _ (by decide) rfl (by decide), ?_, ?_⟩
  · exact (hlink Fl.HIF_LINK_STATUS_UP_B rfl).trans (linkSet_downB 0 0 0 _ _ _ s)
  · exact hnv.trans (linkSet_nv _ _ _ _ _ _ _ _ s)
  · exact hnv ▸ hmarked

/-- Port A trains: the link as it settles, and where the port trained below its partner the record of it. -/
theorem linkTrainedA_shows {s : State} {speed width : Nat} {flit more : Bool} (h7 : pdOn 7 s = true) (h8 : pdOn 8 s = true)
    (hperst : s.pow.perst = false) (h1 : 1 ≤ speed) (hmax : speed ≤ fget Fl.HIF_LINK_CFG_MAX_SPEED s)
    (hw : width = 1 ∨ width = 2 ∨ width = 4 ∨ (width = 8 ∧ s.nv.dual = false)) (hflit : speed = 6 → flit = true) (h6 : speed ≤ 6) :
    let below : Bool := more && decide (speed < 6 ∨ width < 8)
    Completes (.linkTrained false speed width flit more) s (fun t => fget Fl.HIF_LINK_STATUS_UP_A t = 1 ∧
      fget Fl.HIF_LINK_STATUS_SPEED_A t = speed ∧ fget Fl.HIF_LINK_STATUS_WIDTH_A t = width ∧
      fget Fl.HIF_LINK_STATUS_FLIT_A t = (if flit then 1 else 0) ∧ fget Fl.HIF_LINK_STATUS_DEGRADED t = (if below || s.nv.degrB then 1 else 0) ∧
      t.nv = { s.nv with levelA := 0, degrA := below } ∧ OnlyMarked [Reg.HIF_LINK_STATUS, Reg.HIF_EVENT] { s with nv := t.nv } t) := by
  intro below
  obtain ⟨u, hu⟩ : ∃ u, u = linkSet false 1 speed width (if flit then 1 else 0) (aspmOf false s) 0 below s := ⟨_, rfl⟩
  obtain ⟨hup, hspeed, hwidth, hfl, hdegr⟩ := linkSet_showsA 1 speed width (if flit then 1 else 0) (aspmOf false s) 0 below s
  have hnv : u.nv = { s.nv with levelA := 0, degrA := below } := by
    rw [hu]
    exact linkSet_nv _ _ _ _ _ _ _ _ s
  have hset : OnlyMarked [Reg.HIF_LINK_STATUS, Reg.HIF_EVENT] { s with nv := u.nv } u := by
    rw [hu]
    exact (linkSet_onlyMarked false _ _ _ _ _ _ _ s).mono (by simp)
  rw [← hu] at hup hspeed hwidth hfl hdegr
  have hshows {t : State} (ht : OnlyMarked [Reg.HIF_EVENT] u t) : fget Fl.HIF_LINK_STATUS_UP_A t = 1 ∧
      fget Fl.HIF_LINK_STATUS_SPEED_A t = speed ∧ fget Fl.HIF_LINK_STATUS_WIDTH_A t = width ∧
      fget Fl.HIF_LINK_STATUS_FLIT_A t = (if flit then 1 else 0) ∧ fget Fl.HIF_LINK_STATUS_DEGRADED t = (if below || s.nv.degrB then 1 else 0) ∧
      t.nv = { s.nv with levelA := 0, degrA := below } ∧ OnlyMarked [Reg.HIF_LINK_STATUS, Reg.HIF_EVENT] { s with nv := t.nv } t := by
    have hlink {f : Fld} (hf : f.addr = Reg.HIF_LINK_STATUS) : fget f t = fget f u :=
      fget_of_rd (by rw [hf]; exact ht.2 _ (by decide) (by decide))
    rw [hlink (f := Fl.HIF_LINK_STATUS_UP_A) rfl, hlink (f := Fl.HIF_LINK_STATUS_SPEED_A) rfl, hlink (f := Fl.HIF_LINK_STATUS_WIDTH_A) rfl,
      hlink (f := Fl.HIF_LINK_STATUS_FLIT_A) rfl, hlink (f := Fl.HIF_LINK_STATUS_DEGRADED) rfl, hup, hspeed, hwidth, hfl, hdegr, ht.nv, ← hnv]
    refine ⟨rfl, by omega, by omega, ?_, rfl, rfl, hset.trans (ht.mono (by simp))⟩
    cases flit <;> rfl
  have hguard : ¬ (pdOn 7 s = false ∨ pdOn 8 s = false ∨ portInReset false s = true ∨ (false = true ∧ s.nv.dual = false) ∨ speed < 1 ∨
      fget Fl.HIF_LINK_CFG_MAX_SPEED s < speed ∨ ¬ [1, 2, 4, 8].contains width ∨ (s.nv.dual = true ∧ width = 8) ∨
      (speed = 6 ∧ flit = false)) := by
    have hlanes : [1, 2, 4, 8].contains width = true ∧ ¬ (s.nv.dual = true ∧ width = 8) := by
      rcases hw with rfl | rfl | rfl | ⟨rfl, hd⟩
      · simp
      · simp
      · simp
      · simp [hd]
    obtain ⟨hin, hdual⟩ := hlanes
    rintro (h | h | h | h | h | h | h | h | h)
    · simp [h7] at h
    · simp [h8] at h
    · simp [portInReset, hperst] at h
    · simp at h
    · omega
    · omega
    · exact h hin
    · exact hdual h
    · simp [hflit h.1] at h
  have hrow : execLinkTrained false speed width flit more s = (if below = false then .next u
      else if fget Fl.HIF_LINK_STATUS_DEGRADED s = 0 then .next (raiseEvent 0x04 0 Fl.HIF_EVENT_DEGRADED u)
      else .next (postmark 0x0402 0x04 [(rd Reg.HIF_EVENT u).toNat] u)) := by
    rw [hu]
    exact if_neg hguard
  change ∃ t, execLinkTrained false speed width flit more s = .next t ∧ _
  rw [hrow]
  split
  · exact ⟨u, rfl, hshows ⟨rfl, fun _ _ _ => rfl⟩⟩
  · split
    · exact ⟨_, rfl, hshows (raiseEvent_onlyMarked 0x04 0 Fl.HIF_EVENT_DEGRADED u)⟩
    · exact ⟨_, rfl, hshows ((postmark_onlyMarked _ _ _ u).mono (by simp))⟩

theorem pcieHotReset_linkOff {s : State} (hup : fget Fl.HIF_LINK_STATUS_UP_A s = 1) (hoff : ∀ e ∈ s.nv.ctrls, e.2.en = false) :
    Completes (.pcieHotReset false) s (fun t => fget Fl.HIF_LINK_STATUS_UP_A t = 0 ∧
      fget Fl.HIF_EVENT_LINK_DOWN_A t = fget Fl.HIF_EVENT_LINK_DOWN_A s) := by
  have hnone : (portFuncs false s).filter (fun f => (ctrlAt (cntlidOf f s) s).any (·.en)) = [] := by
    refine List.filter_eq_nil_iff.mpr (fun f _ => ?_)
    cases hc : ctrlAt (cntlidOf f s) s with
    | none => simp
    | some x => simpa using hoff _ (mem_of_find hc)
  refine ⟨linkOff false s, ?_, (linkOff_portA s).1, fget_linkOff (by decide) false s⟩
  refine (if_neg (by simp [linkUp, hup])).trans ?_
  rw [hnone]
  rfl

/-! ### The fundamental reset's end -/

theorem reportCommit_perst (s : State) : (reportCommit s).pow.perst = s.pow.perst := by
  unfold reportCommit
  split
  · rw [(postmark_onlyMarked _ _ _ _).1]
  · rfl

theorem perstDeassert_wakes {s : State} (hi : s.pow.idleWait = none) (hm : mode s = 1) (ha : s.pow.afterSeal = .none) (hp : s.pow.pllWatch = false)
    (hen : fget Fl.AON_WAKE_EN_PERST s = 1) (hd : s.pow.pwrdis = false) :
    Completes .perstDeassert s (fun t => mode t = 3 ∧ fget Fl.AON_WAKE_SRC_PERST t = 1 ∧ t.pow.perst = false) := by
  obtain ⟨p, hpin⟩ : ∃ p : State, p = wakeTimer { s with pow := { s.pow with perst := false } } := ⟨_, rfl⟩
  have hrest : mode p = mode s ∧ p.pow.idleWait = s.pow.idleWait ∧ p.pow.pwrdis = s.pow.pwrdis ∧ p.pow.perst = false := by
    rw [hpin]
    exact ⟨rfl, rfl, rfl, rfl⟩
  obtain ⟨hmode, hidle, hdis, hperst⟩ := hrest
  obtain ⟨hrise, hsrc⟩ := startRise_fset_wakeSrc (f := Fl.AON_WAKE_SRC_PERST) rfl rfl (by decide) p
  refine ⟨startRise (fset Fl.AON_WAKE_SRC_PERST 1 p), ?_, hrise, hsrc, ?_⟩
  · change execPerstDeassert s = _
    unfold execPerstDeassert
    dsimp only
    rw [if_pos hm, if_pos ⟨hen, mayWake_of (.inl hm) ha hp⟩, ← hpin, wakeBy_awake (by omega) (by omega) (hidle.trans hi)]
    exact congrArg Host.Outcome.next (if_neg (show ¬ p.pow.pwrdis = true by rw [hdis, hd]; decide))
  · rw [startRise_pow, reportCommit_perst]
    exact hperst

theorem perstDeassert_awake {s : State} (hi : s.pow.idleWait = none) (h6 : mode s ≠ 6) (h7 : mode s ≠ 7) (h1 : mode s ≠ 1) :
    Completes .perstDeassert s (fun t => t = { s with pow := { s.pow with perst := false, wakeSince := none } }) := by
  refine ⟨{ s with pow := { s.pow with perst := false, wakeSince := none } }, ?_, rfl⟩
  change execPerstDeassert s = _
  unfold execPerstDeassert
  dsimp only
  rw [if_neg h1]
  exact congrArg Host.Outcome.next (wakeBy_awake (s := { s with pow := { s.pow with perst := false, wakeSince := none } }) h6 h7 hi)

/-! ### Configuration requests -/

section
variable {s : State} (hp : pdOn 7 (wakeBy 5 s) = true) (hup : fget Fl.HIF_LINK_STATUS_UP_A (wakeBy 5 s) = 1)
include hp hup

theorem configurationRequest_crs (hc : configAnswered (wakeBy 5 s) = false) (r : CfgReq) : Completes (.configurationRequest false r) s
    (fun t => t = { wakeBy 5 s with nv := { (wakeBy 5 s).nv with crs := (wakeBy 5 s).nv.crs + 1 } }) := by
  refine ⟨_, ?_, rfl⟩
  change execConfigurationRequest false r s = _
  unfold execConfigurationRequest hostWake
  dsimp only
  rw [if_neg (by simp [hp, linkUp, hup]), if_neg (by simp [hc])]

variable (hc : configAnswered (wakeBy 5 s) = true)
include hc

/-- A request that control firmware answers: what holds of its effect however many requests have been answered holds of the next state. -/
theorem configurationRequest_answered {r : CfgReq} {P : State → Prop}
    (h : P { (configEffect false r (wakeBy 5 s)) with nv := { (configEffect false r (wakeBy 5 s)).nv with cfgDone := (wakeBy 5 s).nv.cfgDone + 1 } }) :
    Completes (.configurationRequest false r) s P := by
  refine ⟨_, ?_, h⟩
  change execConfigurationRequest false r s = _
  unfold execConfigurationRequest hostWake
  dsimp only
  rw [if_neg (by simp [hp, linkUp, hup]), if_pos hc]

end

theorem configEffect_cmds (r : CfgReq) (s : State) : (configEffect false r s).nv.cmds = s.nv.cmds := by
  cases r with
  | other => rfl
  | numVf n =>
    unfold configEffect
    dsimp only
    generalize (if s.nv.dual = true then 63 else 127) = total
    split <;> rfl
  | aspm on => rfl
  | read i => rfl
  | msix | msi | enterL1 | bar2 =>
    unfold configEffect
    dsimp only
    split <;> rfl

/-- A function is enabled, or not, by a list from which it is taken first. -/
theorem contains_filter_ne (f : Nat) (on : Bool) (l : List Nat) :
    (if on then l.filter (· != f) ++ [f] else l.filter (· != f)).contains f = on := by
  cases on <;> simp

theorem configEffect_numVf {n : Nat} {s : State} (h : n ≤ 63) : configEffect false (.numVf n) s =
    setNumVf false n (setLevels false (aspmOf false s) 0 (degraded false s) s) := by
  refine if_pos ?_
  split <;> omega

theorem configurationRequest_effects {s : State} (hp : pdOn 7 (wakeBy 5 s) = true) (hup : fget Fl.HIF_LINK_STATUS_UP_A (wakeBy 5 s) = 1)
    (hc : configAnswered (wakeBy 5 s) = true) :
    let w := wakeBy 5 s
    (∀ r, Completes (.configurationRequest false r) s (fun t => t.nv.cfgDone = w.nv.cfgDone + 1 ∧ t.nv.cmds = w.nv.cmds)) ∧
    (∀ n, n ≤ 63 → Completes (.configurationRequest false (.numVf n)) s (fun t => t.nv.numVfA = n ∧ fget Fl.HIF_FUNC_STATUS_NUMVF_A t = n)) ∧
    (∀ f on, funcEnabled f w = true → Completes (.configurationRequest false (.msix f on)) s (fun t => t.ten.msixOn.contains f = on)) ∧
    (∀ f on, isPhysical f w = true → Completes (.configurationRequest false (.msi f on)) s (fun t => t.nv.msiOn.contains f = on)) ∧
    (∀ on, Completes (.configurationRequest false (.aspm on)) s (fun t => t.nv.aspmA = on.filter (fun l => decide (1 ≤ l ∧ l ≤ 3)) ∧ t.nv.levelA = 0)) ∧
    (∀ l, Completes (.configurationRequest false (.enterL1 l)) s (fun t => t.nv.levelA =
      (if fget Fl.HIF_LINK_CFG_L1_ALLOW w = 1 ∧ w.nv.aspmA.contains l = true then l else w.nv.levelA))) ∧
    (∀ f k, funcEnabled f w = true → k ≤ 6 → Completes (.configurationRequest false (.bar2 f k)) s (fun t => bar2Size f t = 2 ^ (30 + k))) ∧
    (∀ i, Completes (.configurationRequest false (.read i)) s (fun t => t.nv.cfgRead = configAnswer false i w)) := by
  intro w
  have row {r : CfgReq} {P : State → Prop} := configurationRequest_answered (r := r) (P := P) hp hup hc
  refine ⟨fun r => row ⟨rfl, configEffect_cmds r w⟩, fun n hn => row ?numVf, fun f on hf => row ?msix, fun f on hf => row ?msi,
    fun on => row ⟨rfl, rfl⟩, fun l => row ?enterL1, fun f k hf hk => row ?bar2, fun i => row rfl⟩
  case numVf =>
    rw [configEffect_numVf hn]
    refine ⟨rfl, (fget_fset_self Fl.HIF_FUNC_STATUS_NUMVF_A n _ (by decide)).trans (Nat.mod_eq_of_lt ?_)⟩
    exact hn.trans_lt (by decide)
  case msix =>
    rw [show configEffect false (.msix f on) w = _ from if_pos hf]
    exact contains_filter_ne f on _
  case msi =>
    rw [show configEffect false (.msi f on) w = _ from if_pos hf]
    exact contains_filter_ne f on _
  case enterL1 =>
    unfold configEffect
    dsimp only
    split
    · exact (if_pos ‹_›).symm
    · exact (if_neg ‹_›).symm
  case bar2 =>
    rw [show configEffect false (.bar2 f k) w = _ from if_pos ⟨hf, hk⟩]
    unfold bar2Size
    rw [SMap.getD_put_self, ← Nat.pow_add]

end Sys2Proof.Machine
end

section
/-! Functions, controllers and their BARs (R76, R83, R86–R88, R93, R106–R108, R113, R373), and statement O11. -/

namespace Sys2Proof.Machine

/-! ### Bytes of a function's memory namespace -/

/-- Where a byte of a function's memory namespace stands. -/
theorem xlate_host_congr {s t : State} (hregs : t.regs = s.regs) (hten : t.ten = s.ten) (f a : Nat) :
    xlate (.host f) true a t = xlate (.host f) true a s := by
  have hbase : granBase t = granBase s := by
    unfold granBase threeCh
    rw [fget_congr hregs]
  have hsize : slmSize f t = slmSize f s := by
    unfold slmSize
    rw [hten]
  rw [xlate, xlate, slmByte, slmByte, hsize, granuleByte, granuleByte, hten, hbase]

/-- The write of a byte to the place it stands at, where there is one. -/
def putAt (o : Option Nat) (b : Byte) (s : State) : State :=
  match o with
  | some p => wrByte p b s
  | none => s

theorem xlate_putAt (f c : Nat) (o : Option Nat) (b : Byte) (s : State) : xlate (.host f) true c (putAt o b s) = xlate (.host f) true c s := by
  cases o with
  | none => rfl
  | some p => exact xlate_host_congr (t := wrByte p b s) rfl rfl f c

theorem putSpace_cons (sp : Space) (a : Nat) (b : Byte) (bs : List Byte) (s : State) :
    putSpace sp a (b :: bs) s = putSpace sp (a + 1) bs (putAt (xlate sp true a s) b s) := by
  rw [putSpace]
  cases xlate sp true a s <;> rfl

theorem rdByte_putAt_ne {o : Option Nat} {p : Nat} (h : o ≠ some p) (b : Byte) (s : State) : rdByte p (putAt o b s) = rdByte p s := by
  cases o with
  | none => rfl
  | some q => exact rdByte_wrByte_ne b s (fun he => h (congrArg some he.symm))

theorem rdByte_putAt_self {o : Option Nat} {p : Nat} (h : o = some p) (b : Byte) (s : State) : rdByte p (putAt o b s) = b := by
  rw [h]
  exact rdByte_wrByte_self p b s

/-- A byte that no byte of the list goes to. -/
theorem rdByte_putSpace_host_out {f p : Nat} {bs : List Byte} {a : Nat} {s : State}
    (h : ∀ i, i < bs.length → xlate (.host f) true (a + i) s ≠ some p) : rdByte p (putSpace (.host f) a bs s) = rdByte p s := by
  induction bs generalizing a s with
  | nil => rfl
  | cons b bs ih =>
    have hhead : xlate (.host f) true a s ≠ some p := h 0 (Nat.succ_pos _)
    rw [putSpace_cons, ih, rdByte_putAt_ne hhead]
    intro i hi
    rw [xlate_putAt, Nat.add_assoc, Nat.add_comm 1 i]
    exact h (i + 1) (Nat.succ_lt_succ hi)

/-- The bytes of a list each go where they belong, where no two belong at the same place. -/
theorem rdByte_putSpace_host {f p i : Nat} {bs : List Byte} {a : Nat} {s : State} (hi : i < bs.length)
    (hinj : ∀ j, j < bs.length → xlate (.host f) true (a + j) s = some p → i = j) (hp : xlate (.host f) true (a + i) s = some p) :
    rdByte p (putSpace (.host f) a bs s) = bs.getD i 0 := by
  induction bs generalizing a s i with
  | nil => exact absurd hi (Nat.not_lt_zero i)
  | cons b bs ih =>
    have hnext (j : Nat) : xlate (.host f) true (a + 1 + j) (putAt (xlate (.host f) true a s) b s) = xlate (.host f) true (a + (j + 1)) s := by
      rw [xlate_putAt, Nat.add_assoc, Nat.add_comm 1 j]
    rw [putSpace_cons]
    cases i with
    | zero =>
      have hhead : xlate (.host f) true a s = some p := hp
      rw [rdByte_putSpace_host_out, rdByte_putAt_self hhead, List.getD_cons_zero]
      intro j hj he
      exact absurd (hinj (j + 1) (Nat.succ_lt_succ hj) ((hnext j).symm.trans he)) (Nat.succ_ne_zero j).symm
    | succ i =>
      rw [List.getD_cons_succ]
      refine ih (Nat.lt_of_succ_lt_succ hi) (fun j hj he => ?_) ((hnext i).trans hp)
      exact Nat.succ.inj (hinj (j + 1) (Nat.succ_lt_succ hj) ((hnext j).symm.trans he))

theorem bar2Access_writes {f off : Nat} {d : List Byte} {s : State} (hp : pdOn 7 (wakeBy 5 s) = true) (hf : funcEnabled f (wakeBy 5 s) = true)
    (hoff : off < bar2Size f (wakeBy 5 s)) (hlen : off + d.length ≤ slmSize f (wakeBy 5 s))
    (hinj : ∀ i, i < d.length → ∀ j, j < d.length → (xlate (.host f) true (off + i) (wakeBy 5 s)).isSome = true →
      xlate (.host f) true (off + i) (wakeBy 5 s) = xlate (.host f) true (off + j) (wakeBy 5 s) → i = j) (n : Nat) :
    Completes (.bar2Access f off n (some d)) s (fun t => ∀ i, i < d.length → ∀ p, xlate (.host f) true (off + i) (wakeBy 5 s) = some p →
      rdByte p t = d.getD i 0) := by
  refine ⟨writeSpace (.host f) off d (wakeBy 5 s), ?_, fun i hi p hxp => ?_⟩
  · change execBar2Access f off n (some d) s = _
    unfold execBar2Access hostWake
    dsimp only
    rw [if_neg (by simp [hp, hf, hoff]), if_neg (by omega)]
  · change rdByte p (putSpace (.host f) off d (wakeBy 5 s)) = _
    exact rdByte_putSpace_host hi (fun j hj he => hinj i hi j hj (by simp [hxp]) (hxp.trans he.symm)) hxp

theorem bar2Access_reads {f off n : Nat} {bs : List Byte} {s : State} (hp : pdOn 7 (wakeBy 5 s) = true) (hf : funcEnabled f (wakeBy 5 s) = true)
    (hoff : off < bar2Size f (wakeBy 5 s)) (hr : readSpace (.host f) off n (wakeBy 5 s) = some bs) (hlen : off + n ≤ slmSize f (wakeBy 5 s)) :
    Completes (.bar2Access f off n none) s (fun t => t.nv.barRead = some bs) := by
  refine ⟨{ wakeBy 5 s with nv := { (wakeBy 5 s).nv with barRead := readSpace (.host f) off n (wakeBy 5 s) } }, ?_, hr⟩
  change execBar2Access f off n none s = _
  unfold execBar2Access hostWake
  dsimp only
  rw [if_neg (by simp [hp, hf, hoff]), if_neg (by omega)]

/-! ### Accesses to BAR0 and BAR4 -/

theorem barReserved_counted (f bar off : Nat) (value : Option Nat) (s : State) : (barReserved f bar off value.isSome s).nv.barUr = s.nv.barUr + 1 ∧
    (value = none → (barReserved f bar off value.isSome s).nv.barRead = none) ∧
    OnlyMarked [] { s with nv := (barReserved f bar off value.isSome s).nv } (barReserved f bar off value.isSome s) := by
  obtain ⟨u, hu⟩ : ∃ u, u = postmark 0x0480 0x04 [f, bar, off % 2 ^ 32, off / 2 ^ 32, if value.isSome then 1 else 0] s := ⟨_, rfl⟩
  have hmark : OnlyMarked [] s u := hu ▸ postmark_onlyMarked _ _ _ s
  have heq : barReserved f bar off value.isSome s =
      { u with nv := { u.nv with barUr := u.nv.barUr + 1, barRead := if value.isSome then u.nv.barRead else none } } := by
    rw [hu]
    rfl
  rw [heq, hmark.1]
  refine ⟨rfl, fun hv => ?_, rfl, fun a ha hm => ?_⟩
  · rw [hv]
    rfl
  · exact hmark.2 a ha hm

section
variable {f off : Nat} {s : State} (hp : pdOn 7 (wakeBy 5 s) = true) (hf : funcEnabled f (wakeBy 5 s) = true)
include hp hf

theorem barAccess_reserved {value : Option Nat} (hoff : 0x1108 ≤ off) : Completes (.barReservedAccess f 0 off value) s (fun t =>
    t.nv.barUr = (wakeBy 5 s).nv.barUr + 1 ∧ (value = none → t.nv.barRead = none) ∧ OnlyMarked [] { wakeBy 5 s with nv := t.nv } t) := by
  refine ⟨barReserved f 0 off value.isSome (wakeBy 5 s), ?_, barReserved_counted f 0 off value _⟩
  change execBarReservedAccess f 0 off value s = _
  unfold execBarReservedAccess hostWake
  dsimp only
  rw [if_neg (by simp [hp, hf]), if_pos (by simp [barIsReserved, hoff])]

omit hp hf in
theorem ctrlRegister_notReserved {c v : Nat} {t : State} (h : ctrlRegister c off t = some v) : barIsReserved f 0 off t = false := by
  have hlt : off < 0x1108 := by
    by_contra hge
    unfold ctrlRegister at h
    dsimp only at h
    rw [if_neg (by omega), if_neg (by omega), if_neg (by omega), if_neg (by omega), if_neg (by omega)] at h
    cases h
  simpa [barIsReserved] using hlt

theorem barAccess_register {v : Nat} (hv : ctrlRegister (cntlidOf f (wakeBy 5 s)) off (wakeBy 5 s) = some v) :
    Completes (.barReservedAccess f 0 off none) s (fun t => t = { wakeBy 5 s with nv := { (wakeBy 5 s).nv with barRead := some (leBytes 4 v) } }) := by
  have hres : barIsReserved f 0 off (wakeBy 5 s) = false := ctrlRegister_notReserved hv
  have hdword : barDword f 0 off (wakeBy 5 s) = some v := hv
  refine ⟨_, ?_, rfl⟩
  change execBarReservedAccess f 0 off none s = _
  unfold execBarReservedAccess hostWake
  dsimp only
  rw [if_neg (by simp [hp, hf]), if_neg (by simp [hres]), hdword]

theorem barAccess_msix {v : Nat} (hoff : off < 0x800) (hent : msixEntry f off (wakeBy 5 s) = true) :
    Completes (.barReservedAccess f 4 off (some v)) s (fun t => SMap.find t.nv.msix (512 * f + off / 4) = some (v % 2 ^ 32)) := by
  have hres : barIsReserved f 4 off (wakeBy 5 s) = false := by simp [barIsReserved, hoff]
  refine ⟨msixWrite f off v (wakeBy 5 s), ?_, ?_⟩
  · change execBarReservedAccess f 4 off (some v) s = _
    unfold execBarReservedAccess hostWake
    dsimp only
    rw [if_neg (by simp [hp, hf]), if_neg (by simp [hres]), if_pos ⟨rfl, hoff⟩]
  · change SMap.find (msixWrite f off v (wakeBy 5 s)).nv.msix (512 * f + off / 4) = some (v % 2 ^ 32)
    have hput : (msixWrite f off v (wakeBy 5 s)).nv.msix = SMap.put (wakeBy 5 s).nv.msix (512 * f + off / 4) (v % 2 ^ 32) := by
      unfold msixWrite
      rw [if_pos hent]
      dsimp only
      split <;> rfl
    rw [hput, SMap.find_put_self]

end

/-! ### Enable, readiness, hold and shutdown -/

theorem controllerEnable_enables {f asq acq ams mps : Nat} {s : State} (hp : pdOn 7 (wakeBy 5 s) = true) (hf : funcEnabled f (wakeBy 5 s) = true)
    (hoff : ∀ x, ctrlAt (cntlidOf f (wakeBy 5 s)) (wakeBy 5 s) = some x → x.en = false) (h1 : 2 ≤ asq) (h2 : asq ≤ 4096) (h3 : 2 ≤ acq)
    (h4 : acq ≤ 4096) (h5 : ams ≤ 1) (h6 : [4096, 8192, 16384, 32768, 65536].contains mps = true) :
    let w := wakeBy 5 s
    Completes (.controllerEnable f asq acq ams mps) s (fun t => ∃ y, ctrlAt (cntlidOf f w) t = some y ∧ y.en = true ∧ y.rdy = false ∧
      y.ams = ams ∧ y.mps = mps ∧ y.reserve = Nat.min (fget Fl.HIF_TAG_CFG_RESERVE w) w.nv.sharedFree ∧
      y.sqs = [(0, ⟨asq, 0, 0, 0, 0, false, false, false⟩)] ∧ y.cqs = [(0, ⟨acq, 0, 0, some 0, [], []⟩)] ∧
      t.nv.sharedFree = w.nv.sharedFree - y.reserve) := by
  intro w
  have hnew : (ctrlAt (cntlidOf f w) w).any (·.en) = false := by
    cases hc : ctrlAt (cntlidOf f w) w with
    | none => rfl
    | some x => exact hoff x hc
  refine ⟨enableCtrl (cntlidOf f w) f false (w.nv.dual && decide (64 ≤ f)) asq acq ams mps w, ?_, ?_⟩
  · change execControllerEnable f asq acq ams mps s = _
    unfold execControllerEnable hostWake
    dsimp only
    refine if_neg ?_
    rintro (h | h | h | h | h | h | h | h | h)
    · simp [hp] at h
    · simp [hf] at h
    · exact absurd (hnew.symm.trans h) (by decide)
    · omega
    · omega
    · omega
    · omega
    · omega
    · exact h h6
  · unfold enableCtrl
    extract_lets online want got x0 feats x nv
    refine ⟨x, ?_, rfl, rfl, rfl, rfl, rfl, rfl, rfl, ?_⟩
    · unfold ctrlAt
      rw [showTags_nv]
      exact SMap.find_put_self _ _ _
    · rw [showTags_nv]

theorem cstsRdySet_sets {c : Nat} {x : Ctrl} {s : State} (hs : serving s = true) (hx : ctrlAt c s = some x) (hen : x.en = true)
    (hon : x.online = true) : Completes (.cstsRdySet c) s (fun t => ctrlAt c t = some { x with rdy := true }) := by
  refine ⟨updCtrl c (fun x => { x with rdy := true }) s, if_pos ⟨hs, by simp [hx, hen, hon]⟩, ?_⟩
  exact (ctrlAt_updCtrl_self c _ s).trans (congrArg (Option.map _) hx)

theorem fetchHold_holds {v req : Nat} {s : State} (hv : v < 2) (hp : pdOn 7 s = true) : Completes (.fetchHold v req) s (fun t =>
    fget Fl.HIF_FETCH_CTRL_HOLD t = v ∧ fget Fl.HIF_FETCH_CTRL_HELD t = v ∧ OnlyRegs [Reg.HIF_FETCH_CTRL] s t) := by
  refine ⟨s |> fset Fl.HIF_FETCH_CTRL_HOLD v |> fset Fl.HIF_FETCH_CTRL_HELD v, if_neg (by simp [hp]), ?_, ?_, rfl, fun a ha => ?_⟩
  · rw [fget_fset_ne _ _ _ _ (by decide), fget_fset_self _ _ _ (by decide)]
    exact Nat.mod_eq_of_lt hv
  · rw [fget_fset_self _ _ _ (by decide)]
    exact Nat.mod_eq_of_lt hv
  · have hne : a ≠ Reg.HIF_FETCH_CTRL := List.ne_of_not_mem_cons ha
    rw [rd_fset_ne _ _ _ _ hne, rd_fset_ne _ _ _ _ hne]

/-- A controller in shutdown with nothing left to wait for is through. -/
theorem ctrlAt_shutdownProgress_eq (c : Nat) (s : State) : ctrlAt c (shutdownProgress s) = (ctrlAt c s).map (fun x =>
    if x.shst = 1 ∧ x.ckpt = false ∧ drained c x s = true then { x with shst := 2 } else x) := by
  unfold ctrlAt shutdownProgress
  dsimp only
  rw [SMap_find_map _ _ (by intro e; split <;> rfl)]
  refine congrArg (Option.map · _) (funext fun x => ?_)
  dsimp only
  split <;> rfl

section
variable {c : Nat} {x : Ctrl} {s : State} (hx : ctrlAt c (wakeBy 5 s) = some x) (hen : x.en = true) (hsh : x.shst = 0)
  (hnone : ∀ y ∈ (wakeBy 5 s).nv.cmds, y.ctrl ≠ c) (hf : OnlyFetched (wakeBy 5 s))
include hx hen hsh hnone hf

/-- A shutdown that begins with none of the controller's commands left. -/
theorem shutdown_begins (normal : Bool) :
    let w := wakeBy 5 s
    let last := w.nv.ctrls.all (fun e => e.1 == c || !e.2.en || e.2.shst != 0)
    Completes (.shutdown c normal) s (fun t => ctrlAt c t =
      some { x with shst := if normal && last then 1 else 2, shnNormal := normal, ckpt := normal && last }) := by
  intro w last
  refine ⟨settleAll (beginShutdown c normal w), ?_, ?_⟩
  · change execShutdown c normal s = _
    unfold execShutdown hostWake
    dsimp only
    rw [if_pos (by simp [hx, hen, hsh])]
  · have hbegun : ctrlAt c (beginShutdown c normal w) = some { x with shst := 1, shnNormal := normal, ckpt := normal && last } := by
      unfold beginShutdown
      rw [ctrlAt_updCtrl_self, hx]
      rfl
    have hdrained : ∀ y : Ctrl, drained c y (beginShutdown c normal w) = true := by
      intro y
      refine List.all_eq_true.mpr (fun z hz => ?_)
      simp [hnone z hz]
    change ctrlAt c (settleAll (beginShutdown c normal w)) = _
    rw [settleAll_onlyFetched (s := beginShutdown c normal w) hf, ctrlAt_congr (s := shutdownProgress (beginShutdown c normal w)) (by rw [showTags_nv]),
      ctrlAt_shutdownProgress_eq, hbegun, Option.map_some]
    refine congrArg some ?_
    cases hl : normal && last with
    | false => exact if_pos ⟨rfl, rfl, hdrained _⟩
    | true => exact if_neg (by simp)

theorem shutdown_ends {normal : Bool} (hl : normal = false ∨ ∃ e ∈ (wakeBy 5 s).nv.ctrls, e.1 ≠ c ∧ e.2.en = true ∧ e.2.shst = 0) :
    Completes (.shutdown c normal) s (fun t => ctrlAt c t = some { x with shst := 2, shnNormal := normal, ckpt := false }) := by
  obtain ⟨t, ht, hc⟩ := shutdown_begins hx hen hsh hnone hf normal
  have hlast : (normal && (wakeBy 5 s).nv.ctrls.all (fun e => e.1 == c || !e.2.en || e.2.shst != 0)) = false := by
    rcases hl with hl | ⟨e, he, hne, hon, hst⟩
    · simp [hl]
    · simp only [Bool.and_eq_false_iff, List.all_eq_false]
      exact .inr ⟨e, he, by simp [hne, hon, hst]⟩
  rw [hlast] at hc
  exact ⟨t, ht, hc⟩

theorem shutdown_waits (hl : ∀ e ∈ (wakeBy 5 s).nv.ctrls, e.1 = c ∨ e.2.en = false ∨ e.2.shst ≠ 0) :
    Completes (.shutdown c true) s (fun t => ctrlAt c t = some { x with shst := 1, shnNormal := true, ckpt := true }) := by
  obtain ⟨t, ht, hc⟩ := shutdown_begins hx hen hsh hnone hf true
  have hlast : (true && (wakeBy 5 s).nv.ctrls.all (fun e => e.1 == c || !e.2.en || e.2.shst != 0)) = true := by
    refine List.all_eq_true.mpr (fun e he => ?_)
    rcases hl e he with h | h | h <;> simp [h]
  rw [hlast] at hc
  exact ⟨t, ht, hc⟩

end

/-- Settles O11: each row of a link, a function or a controller. -/
theorem linksAndControllers : Obligations.LinksAndControllers := by
  unfold Obligations.LinksAndControllers
  intro s w
  refine ⟨?enable, ?ready, ?reset, ?flr, ?pins, ?nssr, ?deassert, ?trained, linkDownA_shows, linkDownB_shows, pcieHotReset_linkOff, ?config,
    ?bar, ?hold, ?shutdown⟩
  case enable => exact fun f asq acq ams mps hp hf hoff h1 h2 h3 h4 h5 h6 => controllerEnable_enables hp hf hoff h1 h2 h3 h4 h5 h6
  case ready => exact fun c x => cstsRdySet_sets
  case reset => exact fun c x => controllerReset_resets
  case flr => exact fun f => functionLevelReset_resets
  case pins =>
    intro h6 h7 h8 hi hp hu
    refine ⟨⟨subsystemResetNow false s, ?_, subsystemResetNow_shows false s⟩, fun h0 hdis hdual => perstAssert_resets h0 h6 h7 h8 hi hp hu hdis hdual,
      perstbAssert_resets h6 h7 h8 hi hp hu⟩
    change execNvmSubsystemReset 0x4E564D65 s = _
    unfold execNvmSubsystemReset hostWake
    rw [if_pos rfl, wakeBy_awake h6 h7 hi, nvmSubsystemReset_now h8 hp hu]
  case nssr => exact fun v hv => ⟨w, if_neg hv, rfl⟩
  case deassert =>
    intro hi h6 h7
    refine ⟨perstDeassert_awake hi h6 h7, perstDeassert_wakes hi, { s with pow := { s.pow with perstB := false } }, ?_, rfl⟩
    exact congrArg Host.Outcome.next (wakeBy_awake (s := { s with pow := { s.pow with perstB := false } }) h6 h7 hi)
  case trained => exact fun speed width flit more h7 h8 hperst h1 hmax hw hflit h6 => linkTrainedA_shows h7 h8 hperst h1 hmax hw hflit h6
  case config => exact fun hp hup => ⟨configurationRequest_effects hp hup, configurationRequest_crs hp hup⟩
  case bar =>
    exact fun f off hp hf => ⟨fun value => barAccess_reserved hp hf, fun v => barAccess_register hp hf, fun v => barAccess_msix hp hf,
      fun hoff => ⟨fun n bs => bar2Access_reads hp hf hoff, fun d n hlen hinj => bar2Access_writes hp hf hoff hlen hinj n⟩⟩
  case hold => exact fun v req => fetchHold_holds
  case shutdown =>
    exact fun c x normal hx hen hsh hnone hf => ⟨shutdown_ends hx hen hsh hnone hf, shutdown_waits hx hen hsh hnone hf⟩

end Sys2Proof.Machine
end

section
/-! What follows when letters end (R350–R355, R358): one frame for whatever relation its steps keep, and the end of the last letter. -/

namespace Sys2Proof.Machine

/-- A relation between states that the steps of the scheduler keep as letters end and become ready. -/
structure SchSteps (R : State → State → Prop) : Prop where
  refl : ∀ s, R s s
  trans : ∀ {s t u}, R s t → R t u → R s u
  sch : ∀ f s, R s (updSch f s)
  reason : ∀ e reason low faddr pc s, R s (recordEnd e reason low faddr pc s)
  counted : ∀ l s, R s (execLetterEnded l s)
  shown : ∀ s, R s (showSch s)
  event : ∀ f s, f.addr = Reg.SCH_EVENT → R s (raiseEvent 0x0D 0 f s)

namespace SchSteps

variable {R : State → State → Prop} (h : SchSteps R)
include h

theorem forEach {α : Type} {f : α → State → State} (hf : ∀ a t, R t (f a t)) (l : List α) (s : State) : R s (Machine.forEach f l s) := by
  induction l generalizing s with
  | nil => exact h.refl s
  | cons a l ih => exact h.trans (hf a s) (ih _)

theorem makeReady (id : Nat) (s : State) : R s (Machine.makeReady id s) := by
  unfold Machine.makeReady
  split
  · exact h.refl s
  · split
    · exact h.trans (h.sch _ s) (h.sch _ _)
    · exact h.refl s

theorem releaseReady (s : State) : R s (Machine.releaseReady s) := h.forEach h.makeReady _ s

theorem decrement (i a : Nat) (s : State) : R s (Machine.decrement i a s) := by
  unfold Machine.decrement
  split
  · exact h.refl s
  · split
    · exact h.refl s
    · split
      · exact h.trans (h.sch _ s) (h.event _ _ rfl)
      · exact h.sch _ s

theorem releaseSignals (n : Nat) (s : State) : R s (Machine.releaseSignals n s) := by
  induction n generalizing s with
  | zero => exact h.refl s
  | succ n ih =>
    unfold Machine.releaseSignals
    split
    · exact h.refl s
    · exact h.trans (h.trans (h.sch _ s) (h.decrement _ _ _)) (ih _)

theorem endLetter (id status : Nat) (s : State) : R s (Machine.endLetter id status s) := by
  unfold Machine.endLetter
  split
  · exact h.refl s
  · extract_lets s1 ord s2 s3
    have h1 : R s s1 := h.sch _ s
    have h2 : R s s2 := by
      unfold s2
      split
      · exact h1
      · split
        · exact h.trans h1 (h.sch _ s1)
        · exact h.trans h1 (h.decrement _ _ s1)
    have h3 : R s s3 := h.trans h2 (h.trans (h.releaseSignals _ s2) (h.counted _ _))
    exact h.trans h3 (h.trans (h.sch _ s3) (h.trans (h.releaseReady _) (h.shown _)))

theorem endLetters (ids : List Nat) (status : Nat) (s : State) : R s (Machine.endLetters ids status s) :=
  h.forEach (fun i => h.endLetter i status) ids s

theorem endStranded (s : State) : R s (Machine.endStranded s) := by
  refine h.forEach (fun l t => ?_) _ s
  have hended : R t (raiseEvent 0x0D 0 Fl.SCH_EVENT_NO_TARGET (Machine.endLetter l.id 0x85 t)) := h.trans (h.endLetter l.id 0x85 t) (h.event _ _ rfl)
  dsimp only
  split
  · exact hended
  · exact h.trans hended (h.reason _ _ _ _ _ _)

theorem settleSch (s : State) : R s (Machine.settleSch s) :=
  h.trans (h.releaseReady s) (h.trans (h.endStranded _) (h.shown _))

end SchSteps

/-! ### Registers aside from the scheduler's -/

/-- Registers below the recorder's or above the scheduler's are as before. -/
def AsideKept (s t : State) : Prop := ∀ a, a < 0x40040000 ∨ 0x44000000 ≤ a → rd a t = rd a s

theorem AsideKept.refl (s : State) : AsideKept s s := fun _ _ => rfl

theorem AsideKept.trans {s t u : State} (h : AsideKept s t) (g : AsideKept t u) : AsideKept s u := fun a ha => (g a ha).trans (h a ha)

theorem AsideKept.of_regs {s t : State} (h : t.regs = s.regs) : AsideKept s t := fun a _ => rd_congr h a

theorem AsideKept.forEach {α : Type} {f : α → State → State} (l : List α) (hf : ∀ a ∈ l, ∀ t, AsideKept t (f a t)) (s : State) :
    AsideKept s (Machine.forEach f l s) := fun a ha => rd_forEach l (fun e he t => hf e he t a ha) s

theorem not_pbkRegs_of_aside {a : Nat} (h : a < 0x40040000 ∨ 0x44000000 ≤ a) : a ∉ pbkRegs := by
  simp only [pbkRegs, Reg.PBK_STATUS, Reg.PBK_DROP2, Reg.PBK_DROP3, Reg.PBK_EVENT, List.mem_cons, List.not_mem_nil, or_false, not_or]
  omega

theorem raiseEvent_asideKept {g i : Nat} {f : Fld} (hf : 0x40040000 ≤ f.addr ∧ f.addr < 0x44000000) (s : State) :
    AsideKept s (raiseEvent g i f s) := fun a ha => rd_raiseEvent_ne g i f a s (not_pbkRegs_of_aside ha) (by omega)

theorem postmark_asideKept (code src : Nat) (args : List Nat) (s : State) : AsideKept s (postmark code src args s) :=
  fun a ha => rd_postmark code src args a s (not_pbkRegs_of_aside ha)

theorem showSch_asideKept (s : State) : AsideKept s (showSch s) := by
  intro a ha
  have hne {b : Nat} (hb : 0x43000000 ≤ b) (hlt : b < 0x43010000) : a ≠ b := by omega
  unfold showSch
  extract_lets n ready dues demand s1 s2
  have h1 : rd a s1 = rd a s := by
    unfold s1
    simp (disch := exact hne (by decide) (by decide)) only [rd_fset_ne, rd_wr_ne]
  have h2 : rd a s2 = rd a s1 := by
    refine rd_forN_lt (fun t ht u => rd_forN (fun p v => rd_fset_ne _ _ _ _ ?_) 4 u) s1
    exact hne (by simp only [Fl.SCH_QDEPTH_PRIO, Reg.SCH_QDEPTH]; omega) (by simp only [Fl.SCH_QDEPTH_PRIO, Reg.SCH_QDEPTH]; omega)
  exact (rd_fset_ne _ _ _ _ (hne (by decide) (by decide))).trans (h2.trans h1)

theorem asideKept_schSteps : SchSteps AsideKept where
  refl := AsideKept.refl
  trans := AsideKept.trans
  sch _ _ := AsideKept.of_regs rfl
  reason _ _ _ _ _ _ := AsideKept.of_regs rfl
  counted l s := AsideKept.of_regs ((execLetterEnded_keeps (M := 2048) l (Keeps.refl s) (Sub.refl _)).only.regs rfl)
  shown := showSch_asideKept
  event f s hf := raiseEvent_asideKept (by rw [hf]; decide) s

/-! ### Executions that have an end -/

/-- An execution that has met the event that ends it keeps its reason. -/
def EndsKept (s t : State) : Prop := ∀ e x r, SMap.find s.prog.execs e = some x → x.endWith = some r →
  ∃ y, SMap.find t.prog.execs e = some y ∧ y.endWith = some r

theorem EndsKept.of_execs {s t : State} (h : t.prog.execs = s.prog.execs) : EndsKept s t := fun e x r hx hr => ⟨x, by rw [h, hx], hr⟩

theorem EndsKept.trans {s t u : State} (h : EndsKept s t) (g : EndsKept t u) : EndsKept s u := by
  intro e x r hx hr
  obtain ⟨y, hy, hyr⟩ := h e x r hx hr
  exact g e y r hy hyr

/-- A change of one execution that leaves an end it has met. -/
theorem EndsKept.upd {s t : State} {i : Nat} {f : Exec → Exec} (ht : t.prog.execs = SMap.upd s.prog.execs i f)
    (hf : ∀ x r, x.endWith = some r → (f x).endWith = some r) : EndsKept s t := by
  intro e x r hx hr
  rw [ht]
  by_cases he : e = i
  · subst he
    exact ⟨f x, by rw [SMap_find_upd_self, hx]; rfl, hf x r hr⟩
  · exact ⟨x, by rw [SMap_find_upd_ne _ _ he, hx], hr⟩

theorem recordEnd_endsKept (e reason low : Nat) (faddr pc : Word) (s : State) : EndsKept s (recordEnd e reason low faddr pc s) := by
  refine EndsKept.upd rfl (fun x r hr => ?_)
  rw [if_pos (by rw [hr]; rfl)]
  exact hr

theorem execLetterEnded_endsKept (l : Letter) (s : State) : EndsKept s (execLetterEnded l s) := by
  unfold execLetterEnded
  split
  · exact EndsKept.of_execs rfl
  · exact EndsKept.upd rfl (fun _ _ hr => hr)

theorem endsKept_schSteps : SchSteps EndsKept where
  refl _ := EndsKept.of_execs rfl
  trans := EndsKept.trans
  sch _ _ := EndsKept.of_execs rfl
  reason := recordEnd_endsKept
  counted := execLetterEnded_endsKept
  shown s := EndsKept.of_execs (congrArg Progs.execs ((showSch_keeps (M := 1) (Keeps.refl s) (Sub.refl _)).only.prog rfl))
  event f s _ := EndsKept.of_execs (congrArg Progs.execs ((raiseEvent_keeps (M := 33) _ _ f (Keeps.refl s) (Sub.refl _)).only.prog rfl))

/-- The reason that an execution without one is given. -/
theorem recordEnd_sets {e reason low : Nat} {faddr pc : Word} {x : Exec} {s : State} (hx : SMap.find s.prog.execs e = some x)
    (hn : x.endWith = none) : ∃ y, SMap.find (recordEnd e reason low faddr pc s).prog.execs e = some y ∧ y.endWith = some (reason, low) := by
  unfold recordEnd
  rw [SMap_find_upd_self, hx]
  refine ⟨_, rfl, ?_⟩
  dsimp only
  rw [if_neg (by rw [hn]; decide)]

/-! ### The last letter -/

/-- Letters in flight and the ends of those that were are as before. -/
def LettersKept (s t : State) : Prop := t.sch.letters = s.sch.letters ∧ t.sch.past = s.sch.past

theorem LettersKept.trans {s t u : State} (h : LettersKept s t) (g : LettersKept t u) : LettersKept s u :=
  ⟨g.1.trans h.1, g.2.trans h.2⟩

theorem LettersKept.of_sch {s t : State} (h : t.sch = s.sch) : LettersKept s t := ⟨by rw [h], by rw [h]⟩

theorem showSch_sch (s : State) : (showSch s).sch = s.sch := (showSch_keeps (M := 1) (Keeps.refl s) (Sub.refl _)).only.sch rfl

theorem decrement_lettersKept (i a : Nat) (s : State) : LettersKept s (decrement i a s) := by
  unfold decrement
  split
  · exact LettersKept.of_sch rfl
  · split
    · exact LettersKept.of_sch rfl
    · split
      · refine LettersKept.trans ?_ (LettersKept.of_sch ((raiseEvent_keeps (M := 33) _ _ _ (Keeps.refl _) (Sub.refl _)).only.sch rfl))
        exact ⟨rfl, rfl⟩
      · exact ⟨rfl, rfl⟩

theorem releaseSignals_lettersKept (n : Nat) (s : State) : LettersKept s (releaseSignals n s) := by
  induction n generalizing s with
  | zero => exact LettersKept.of_sch rfl
  | succ n ih =>
    unfold releaseSignals
    split
    · exact LettersKept.of_sch rfl
    · refine LettersKept.trans (LettersKept.trans ?_ (decrement_lettersKept _ _ _)) (ih _)
      exact ⟨rfl, rfl⟩

/-- No letter is in flight, and the last to end was `l`, with this status. -/
def LastEnded (l : Letter) (status : Nat) (t : State) : Prop := t.sch.letters = [] ∧ SMap.find t.sch.past l.id = some (l.gen, status)

theorem LastEnded.kept {l : Letter} {status : Nat} {s t : State} (h : LastEnded l status s) (g : LettersKept s t) : LastEnded l status t :=
  ⟨g.1.trans h.1, (congrArg (SMap.find · l.id) g.2).trans h.2⟩

/-- The end of the one letter in flight. -/
theorem endLetter_last {l : Letter} {status : Nat} {s : State} (hl : s.sch.letters = [l]) : LastEnded l status (endLetter l.id status s) := by
  have hat : letterAt l.id s = some l := by
    unfold letterAt
    rw [hl]
    simp
  unfold endLetter
  split
  · rename_i hnone
    rw [hat] at hnone
    cases hnone
  · rename_i m hm
    obtain rfl : l = m := Option.some.inj (hat.symm.trans hm)
    extract_lets s1 ord s2 s3
    have h1 : LastEnded l status s1 := by
      refine ⟨?_, SMap.find_put_self _ _ _⟩
      change s.sch.letters.filter (fun x => x.id != l.id) = []
      rw [hl]
      simp
    have h2 : LettersKept s1 s2 := by
      unfold s2
      split
      · exact LettersKept.of_sch rfl
      · split
        · exact ⟨rfl, rfl⟩
        · exact decrement_lettersKept _ _ s1
    have h3 : LettersKept s1 s3 := (h2.trans (releaseSignals_lettersKept _ s2)).trans
      (LettersKept.of_sch ((execLetterEnded_keeps (M := 2048) l (Keeps.refl _) (Sub.refl _)).only.sch rfl))
    have hfreed : LastEnded l status (freeRoutes s3) := (h1.kept h3).kept ⟨rfl, rfl⟩
    have hready : releaseReady (freeRoutes s3) = freeRoutes s3 := by
      unfold releaseReady
      rw [hfreed.1]
      rfl
    rw [hready]
    exact hfreed.kept (LettersKept.of_sch (showSch_sch _))

/-- With no letter in flight nothing follows but what the registers show. -/
theorem settleSch_none {s : State} (h : s.sch.letters = []) : settleSch s = showSch s := by
  have hready : releaseReady s = s := by
    unfold releaseReady
    rw [h]
    rfl
  unfold settleSch
  rw [hready]
  unfold endStranded
  rw [h]
  rfl

end Sys2Proof.Machine
end

section
/-! What a cluster's reset and retirement leave (R301, R302, R456): messages and masks beside it, its clear state, and its domain. -/

namespace Sys2Proof.Machine

/-! ### Masks and messages leave the registers of clusters -/

section
variable {f : Nat} (hf : f < 128)
include hf

theorem showLbx_asideKept (s : State) : AsideKept s (showLbx f s) := by
  intro a ha
  have hne : a ≠ Reg.LBX_STATUS f := by
    unfold Reg.LBX_STATUS
    omega
  unfold showLbx
  rw [rd_fset_ne _ _ _ _ hne, rd_fset_ne _ _ _ _ hne, rd_fset_ne _ _ _ _ hne, rd_fset_ne _ _ _ _ hne]

theorem postMsg_asideKept (m : Msg) (s : State) : AsideKept s (postMsg f m s) := by
  unfold postMsg
  extract_lets t s1
  have h1 : AsideKept s s1 := by
    intro a ha
    have htail : a ≠ Reg.LBX_M2H_TAIL f := by
      unfold Reg.LBX_M2H_TAIL
      omega
    refine (rd_fset_ne _ _ _ _ htail).trans (rd_forN_lt (fun j hj u => rd_wr_ne _ _ ?_) s)
    have := Nat.mod_lt t (show 0 < 8 by decide)
    simp only [Reg.LBX_M2H_SLOT]
    omega
  clear_value s1 t
  split
  · split
    · exact h1.trans (AsideKept.of_regs rfl)
    · refine h1.trans (AsideKept.of_regs ?_)
      exact (irqPend_keeps (M := 128) _ _ (Keeps.refl s1) (Sub.refl _)).only.regs rfl
  · exact h1

theorem postNow_asideKept (m : Msg) (s : State) : AsideKept s (postNow f m s) := by
  refine (postMsg_asideKept hf (withLost f m s) s).trans ?_
  unfold postNow
  extract_lets s1
  split <;> exact AsideKept.of_regs rfl

theorem sendMsg_asideKept (keep : Nat) (m : Msg) (s : State) : AsideKept s (sendMsg f keep m s) := by
  unfold sendMsg
  extract_lets q ten dropped lost s1
  refine AsideKept.trans ?_ (showLbx_asideKept hf s1)
  unfold s1
  split
  · exact postNow_asideKept hf m s
  · split
    · exact AsideKept.of_regs rfl
    · split <;> exact AsideKept.of_regs rfl

theorem sendChanged_asideKept (keep res old new cause : Nat) (s : State) : AsideKept s (sendChanged f keep res old new cause s) := by
  unfold sendChanged
  split
  · exact AsideKept.refl s
  · exact sendMsg_asideKept hf keep _ s

end

theorem settleSch_asideKept (s : State) : AsideKept s (settleSch s) := asideKept_schSteps.settleSch s

theorem setMask_asideKept (f m : Nat) (excl : Bool) (s : State) : AsideKept s (setMask f m excl s) := by
  refine AsideKept.trans ?_ (settleSch_asideKept _)
  exact AsideKept.of_regs rfl

theorem maskRetire_asideKept (n : Nat) (s : State) : AsideKept s (maskRetire n s) := by
  refine AsideKept.forEach _ (fun f hf t => ?_) s
  have hlt : f < 128 := List.mem_range.mp (List.mem_filter.mp hf).1
  extract_lets r
  split
  · exact (setMask_asideKept _ _ _ t).trans (sendChanged_asideKept hlt _ _ _ _ _ _)
  · exact AsideKept.refl t

/-! ### The power domain of a retired cluster -/

theorem pd_retireDomain {n : Nat} (hn : n < 32) (s : State) : pdOn n (retireDomain n s) = false ∧ pdRetired n (retireDomain n s) = true := by
  unfold retireDomain pdOn pdRetired
  rw [if_pos hn, if_pos hn, if_pos hn]
  constructor
  · unfold fset
    rw [rd_wr_self]
    dsimp only
    rw [insertField_getLsbD, if_pos ⟨le_rfl, Nat.lt_succ_self n⟩]
    simp
  · rw [rd_fset_ne _ _ _ _ (show Reg.AON_PD_RETIRED_LO ≠ Reg.AON_PD_ON_LO by decide)]
    unfold fset
    rw [rd_wr_self]
    dsimp only
    rw [insertField_getLsbD, if_pos ⟨le_rfl, Nat.lt_succ_self n⟩]
    simp
    omega

/-! ### Registers that a clear leaves, and those it resets -/

theorem find_filter_gone {α : Type} (q : Nat → Bool) {a : Nat} (ha : q a = false) (m : SMap α) :
    SMap.find (m.filter (fun e : Nat × α => q e.1)) a = none := by
  induction m with
  | nil => rfl
  | cons e m ih =>
    obtain ⟨k, v⟩ := e
    by_cases hk : q k = true
    · have hne : a ≠ k := fun he => by rw [he, hk] at ha; cases ha
      rw [List.filter_cons_of_pos (p := fun e : Nat × α => q e.1) (a := (k, v)) hk]
      exact (if_neg hne).trans ih
    · rw [List.filter_cons_of_neg (p := fun e : Nat × α => q e.1) (a := (k, v)) hk, ih]

/-- A register that a condition clears has its reset value. -/
theorem rd_clearRegs_cleared {p : Block → Nat → RegRow → Bool} {a : Nat} (h : (regInfo a).any (fun x => p x.1 x.2.1 x.2.2) = true) (s : State) :
    rd a (clearRegs p s) = resetVal a := by
  have hq : (match regInfo a with
      | some (b, i, r) => !p b i r
      | none => true) = false := by
    revert h
    cases regInfo a with
    | none => exact fun h => by simp at h
    | some x =>
      obtain ⟨b, i, r⟩ := x
      exact fun h => by simpa using h
  unfold rd clearRegs
  dsimp only
  exact congrArg (Option.getD · (resetVal a)) (find_filter_gone (fun a => match regInfo a with
      | some (b, i, r) => !p b i r
      | none => true) hq s.regs)

end Sys2Proof.Machine
end

section
/-! What a cluster's clear leaves (R301, R302): fresh cores, no lines or locks, and registers that are kept. -/

namespace Sys2Proof.Machine

/-- The state in which a reset or retirement leaves a cluster: cores, lines and locks as at power-on, caches off. -/
def ClusFresh (n : Nat) (t : State) : Prop :=
  (∀ i, i < 8 → coreAt (8 * n + i) t = Core.fresh) ∧ (∀ e ∈ t.dirty, e.2.cluster ≠ n) ∧ (clusAt n t).locked = [] ∧
    fget ⟨Reg.AXC_CACHE_CTRL n, 0, 4⟩ t = 0 ∧ fget (Fl.AXC_LOCK_CTRL_WAYS n) t = 0

theorem clusAt_congr {s t : State} (h : t.clus = s.clus) (n : Nat) : clusAt n t = clusAt n s := by
  unfold clusAt
  rw [h]

theorem clusAt_updClus_self (n : Nat) (f : Clus → Clus) (s : State) : clusAt n (updClus n f s) = f (clusAt n s) := SMap.getD_put_self _ _ _ _

theorem clusAt_updClus_ne {m n : Nat} (f : Clus → Clus) (s : State) (h : m ≠ n) : clusAt m (updClus n f s) = clusAt m s :=
  SMap.getD_put_ne _ _ _ h

theorem ClusFresh.kept {n : Nat} {s t : State} (h : ClusFresh n s) (hcores : ∀ i, i < 8 → coreAt (8 * n + i) t = coreAt (8 * n + i) s)
    (hdirty : t.dirty = s.dirty) (hlocked : (clusAt n t).locked = (clusAt n s).locked)
    (hcache : rd (Reg.AXC_CACHE_CTRL n) t = rd (Reg.AXC_CACHE_CTRL n) s) (hlock : rd (Reg.AXC_LOCK_CTRL n) t = rd (Reg.AXC_LOCK_CTRL n) s) :
    ClusFresh n t := by
  obtain ⟨hc, hd, hl, hcc, hlc⟩ := h
  refine ⟨fun i hi => (hcores i hi).trans (hc i hi), hdirty ▸ hd, hlocked.trans hl, ?_, ?_⟩
  · exact (congrArg (extractField · 0 4) hcache).trans hcc
  · exact (congrArg (extractField · 0 16) hlock).trans hlc

/-! ### Cores -/

theorem coreAt_coreReset_self (k : Nat) (s : State) : coreAt k (coreReset k s) = Core.fresh := by
  unfold coreReset
  rw [coreAt_showCore]
  unfold coreAt SMap.getD
  rw [SMap.find_del_self]
  rfl

theorem coreAt_coreReset_ne {j k : Nat} (s : State) (h : j ≠ k) : coreAt j (coreReset k s) = coreAt j s := by
  unfold coreReset
  rw [coreAt_showCore]
  unfold coreAt SMap.getD
  rw [SMap.find_del_ne _ h]

theorem coreAt_resets {n i m : Nat} (hi : i < m) (s : State) : coreAt (8 * n + i) (forN (fun i t => coreReset (8 * n + i) t) m s) = Core.fresh := by
  induction m with
  | zero => omega
  | succ m ih =>
    by_cases him : i = m
    · subst him
      exact coreAt_coreReset_self _ _
    · exact (coreAt_coreReset_ne _ (by omega)).trans (ih (by omega))

theorem coreAt_resets_ne {n k m : Nat} (hm : m ≤ 8) (hk : k / 8 ≠ n) (s : State) :
    coreAt k (forN (fun i t => coreReset (8 * n + i) t) m s) = coreAt k s := by
  induction m with
  | zero => rfl
  | succ m ih => exact (coreAt_coreReset_ne _ (by omega)).trans (ih (by omega))

/-- A mask with registers and clusters and without cores. -/
theorem regsAndClus : ∃ M, Sub 1048577 M ∧ M.testBit 19 = false := ⟨1048577, Sub.refl _, rfl⟩

/-- A mask with registers and cores and without clusters. -/
theorem regsAndCores : ∃ M, Sub 524289 M ∧ M.testBit 20 = false := ⟨524289, Sub.refl _, rfl⟩

theorem coreAt_clusClear_ne {n k : Nat} (hk : k / 8 ≠ n) (s : State) : coreAt k (clusClear n s) = coreAt k s := by
  obtain ⟨M, hM, h19⟩ := regsAndClus
  unfold clusClear
  extract_lets s1 s2 s3 s4
  have h1 : Keeps M s s1 := updClus_keeps n _ (keepClusCounts_keeps n (Keeps.refl s))
  have h2 : Keeps M s s2 := forN_keeps h1 (fun i t => clearPoints_keeps _ (fset_keeps _ _ (Keeps.refl t)))
  have h3 : Keeps M s s3 := clearRegs_keeps _ h2
  have h4 : Keeps M s s4 := fset_keeps _ _ (fset_keeps _ _ (fset_keeps _ _ h3))
  exact (coreAt_resets_ne le_rfl hk s4).trans (coreAt_congr (h4.only.cores h19) k)

theorem coreAt_clusClear {n i : Nat} (hi : i < 8) (s : State) : coreAt (8 * n + i) (clusClear n s) = Core.fresh := coreAt_resets hi _

/-! ### Registers -/

/-- Some registers of a cluster that no step of its clear writes by a field, and all below the recorder's. -/
def ClearAside (n a : Nat) : Prop := a < 0x40040000 ∨ a = Reg.AXC_CACHE_CTRL n ∨ a = Reg.AXC_LOCK_CTRL n ∨ a = Reg.AXC_EVENT n

section
variable {n a : Nat} (hn : n < 8) (ha : ClearAside n a)
include hn ha

theorem ClearAside.bounds : a < 0x40040000 ∨ (0x49000008 ≤ a ∧ a < 0x4A000000 ∧ a % 0x100000 ≠ 0 ∧ a % 0x100000 < 0x38) := by
  rcases ha with h | h | h | h
  · exact Or.inl h
  · right; rw [h]; unfold Reg.AXC_CACHE_CTRL; omega
  · right; rw [h]; unfold Reg.AXC_LOCK_CTRL; omega
  · right; rw [h]; unfold Reg.AXC_EVENT; omega

theorem rd_clearPoints_aside (k : Nat) (s : State) : rd a (clearPoints k s) = rd a s := by
  have hb := ha.bounds hn
  unfold clearPoints
  refine (rd_forN (fun i t => rd_fset_ne _ _ _ _ ?_) 4 _).trans (rd_forN (fun i t => rd_fset_ne _ _ _ _ ?_) 8 s)
  · simp only [Fl.DBG_WP_CFG_EN, Reg.DBG_WP_CFG]; omega
  · simp only [Fl.DBG_BP_EN, Reg.DBG_BP]; omega

theorem rd_coreReset_aside {k : Nat} (hk : k < 64) (s : State) : rd a (coreReset k s) = rd a s := by
  have hb := ha.bounds hn
  have hnot : a ∉ coreShows k := by
    unfold coreShows
    rw [if_pos hk]
    simp only [List.mem_append, List.mem_cons, List.not_mem_nil, or_false, not_or, Reg.AXC_CORE_STATUS, Reg.AXC_STATUS, Reg.AXC_CNT_INSTR,
        Reg.DBG_CORE_DSTATUS,
      Reg.DBG_HALTED_LO, Reg.DBG_HALTED_MID, Reg.DBG_HALTED_HI]
    split <;> omega
  exact (rd_showCore k a _ hnot).trans rfl

/-- Those registers hold after a clear of the cluster what its class M reset alone leaves in them. -/
theorem rd_clusClear (s : State) : ∃ u, rd a u = rd a s ∧
    rd a (clusClear n s) = rd a (clearRegs (fun b i r => b == .axc && i == n && r.cls == .m) u) := by
  have hb := ha.bounds hn
  have hstat : a ≠ Reg.AXC_STATUS n := by unfold Reg.AXC_STATUS; omega
  unfold clusClear
  extract_lets s1 s2 s3 s4
  refine ⟨s2, ?_, ?_⟩
  · refine (rd_forN (fun i t => (rd_clearPoints_aside hn ha _ _).trans (rd_fset_ne _ _ _ _ ?_)) 8 s1).trans rfl
    simp only [Fl.DBG_CORE_DSTATUS_HALTED, Reg.DBG_CORE_DSTATUS]
    omega
  · refine (rd_forN_lt (fun i hi t => rd_coreReset_aside hn ha (by omega) t) s4).trans ?_
    exact ((rd_fset_ne _ _ _ _ hstat).trans (rd_fset_ne _ _ _ _ hstat)).trans (rd_fset_ne _ _ _ _ hstat)

end

theorem rd_clusClear_aon {n a : Nat} (hn : n < 8) (ha : a < 0x40040000) (hb : (regInfo a).map (·.1) = some .aon) (s : State) :
    rd a (clusClear n s) = rd a s := by
  obtain ⟨u, hu, hc⟩ := rd_clusClear hn (a := a) (Or.inl ha) s
  refine hc.trans ((rd_clearRegs (fun b i r hr => ?_) u).trans hu)
  rw [hr] at hb
  obtain rfl : b = .aon := Option.some.inj hb
  rfl

theorem rd_clusClear_event {n : Nat} (hn : n < 8) (s : State) : rd (Reg.AXC_EVENT n) (clusClear n s) = rd (Reg.AXC_EVENT n) s := by
  obtain ⟨u, hu, hc⟩ := rd_clusClear hn (a := Reg.AXC_EVENT n) (Or.inr (Or.inr (Or.inr rfl))) s
  have hk := axcEvent_class hn
  refine hc.trans ((rd_clearRegs (fun b i r hr => ?_) u).trans hu)
  rw [hr] at hk
  have hcls : r.cls = .k := by simpa using hk
  rw [hcls]
  simp

/-- What a clear leaves of the cluster's own record: its counts are added up, and its lock entries and operation go. -/
theorem clusAt_clusClear (n : Nat) (s : State) :
    clusAt n (clusClear n s) = { clusAt n s with acc := (clusAt n (keepClusCounts n s)).acc, locked := [], funcs := [], cmo := 0 } := by
  obtain ⟨M, hM, h20⟩ := regsAndCores
  unfold clusClear
  extract_lets s1 s2 s3 s4
  have h1 : clusAt n s1 = { clusAt n s with acc := (clusAt n (keepClusCounts n s)).acc, locked := [], funcs := [], cmo := 0 } := by
    unfold s1
    rw [clusAt_updClus_self]
    unfold keepClusCounts
    rw [clusAt_updClus_self]
  have h2 : Keeps M s1 s2 := forN_keeps (Keeps.refl s1) (fun i t => clearPoints_keeps _ (fset_keeps _ _ (Keeps.refl t)))
  have h3 : Keeps M s1 s3 := clearRegs_keeps _ h2
  have h4 : Keeps M s1 s4 := fset_keeps _ _ (fset_keeps _ _ (fset_keeps _ _ h3))
  have h5 := forN_keeps h4 (fun i t => coreReset_keeps (8 * n + i) (Keeps.refl t)) (n := 8)
  exact (clusAt_congr (h5.only.clus h20) n).trans h1

/-- A clear leaves the cluster fresh where it holds no dirty line. -/
theorem clusClear_fresh {n : Nat} (hn : n < 8) {s : State} (hd : ∀ e ∈ s.dirty, e.2.cluster ≠ n) : ClusFresh n (clusClear n s) := by
  obtain ⟨u, -, hu⟩ := rd_clusClear hn (a := Reg.AXC_CACHE_CTRL n) (Or.inr (Or.inl rfl)) s
  obtain ⟨v, -, hv⟩ := rd_clusClear hn (a := Reg.AXC_LOCK_CTRL n) (Or.inr (Or.inr (Or.inl rfl))) s
  refine ⟨fun i hi => coreAt_clusClear hi s, ?_, ?_, ?_, ?_⟩
  · rw [(clusClear_keeps (M := 1572865) n (Keeps.refl s) (Sub.refl _)).only.dirty rfl]
    exact hd
  · rw [clusAt_clusClear]
  · exact (congrArg (extractField · 0 4) (hu.trans (rd_clearRegs_cleared (cacheCtrl_cleared hn) u))).trans (cacheCtrl_reset hn)
  · exact (congrArg (extractField · 0 16) (hv.trans (rd_clearRegs_cleared (lockCtrl_cleared hn) v))).trans (lockCtrl_reset hn)

end Sys2Proof.Machine
end

section
/-! The letters of a cluster end with its reset or retirement (R301, R302), and what a retirement leaves. -/

namespace Sys2Proof.Machine

/-! ### Ends that last -/

/-- The end of the one letter in flight by its cluster's fault: status 0x84, and its execution ends with the reason. -/
def LetterEnded (reason : Nat) (s : State) (l : Letter) (t : State) : Prop :=
  LastEnded l 0x84 t ∧ ∀ x, SMap.find s.prog.execs l.exec = some x → l.owner ≠ schFirmware → x.endWith = none →
    ∃ y, SMap.find t.prog.execs l.exec = some y ∧ y.endWith = some (reason, 0)

/-- Executions that have an end keep it, and with no letter in flight the letters' records stay. -/
def IdleKept (s t : State) : Prop := EndsKept s t ∧ (s.sch.letters = [] → LettersKept s t)

theorem IdleKept.of_same {s t : State} (hs : t.sch = s.sch) (hp : t.prog.execs = s.prog.execs) : IdleKept s t :=
  ⟨EndsKept.of_execs hp, fun _ => LettersKept.of_sch hs⟩

theorem IdleKept.of_keeps {M : Nat} {s t : State} (hk : Keeps M s t) (h11 : M.testBit 11 = false) (h18 : M.testBit 18 = false) : IdleKept s t :=
  IdleKept.of_same (hk.only.sch h18) (congrArg Progs.execs (hk.only.prog h11))

theorem IdleKept.trans {s t u : State} (h : IdleKept s t) (g : IdleKept t u) : IdleKept s u := by
  obtain ⟨he, hl⟩ := h
  obtain ⟨ge, gl⟩ := g
  refine ⟨he.trans ge, fun hs => ?_⟩
  have ht := hl hs
  exact ht.trans (gl (ht.1.trans hs))

theorem IdleKept.forEach {α : Type} {f : α → State → State} (hf : ∀ a t, IdleKept t (f a t)) (l : List α) (s : State) :
    IdleKept s (Machine.forEach f l s) := by
  induction l generalizing s with
  | nil => exact IdleKept.of_same rfl rfl
  | cons a l ih => exact (hf a s).trans (ih _)

theorem LetterEnded.kept {reason : Nat} {s : State} {l : Letter} {t u : State} (h : LetterEnded reason s l t) (g : IdleKept t u) :
    LetterEnded reason s l u := by
  obtain ⟨hlast, hexec⟩ := h
  refine ⟨hlast.kept (g.2 hlast.1), fun x hx ho hn => ?_⟩
  obtain ⟨y, hy, hr⟩ := hexec x hx ho hn
  exact g.1 _ y _ hy hr

theorem settleSch_idleKept (s : State) : IdleKept s (settleSch s) := by
  refine ⟨endsKept_schSteps.settleSch s, fun h => ?_⟩
  rw [settleSch_none h]
  exact LettersKept.of_sch (showSch_sch s)

theorem setMask_idleKept (f m : Nat) (excl : Bool) (s : State) : IdleKept s (setMask f m excl s) := by
  refine IdleKept.trans ?_ (settleSch_idleKept _)
  refine ⟨EndsKept.of_execs rfl, fun h => ⟨?_, rfl⟩⟩
  change s.sch.letters.map _ = s.sch.letters
  rw [h]
  rfl

theorem maskRetire_idleKept (n : Nat) (s : State) : IdleKept s (maskRetire n s) := by
  refine IdleKept.forEach (fun f t => ?_) _ s
  extract_lets r
  split
  · rename_i _ m _
    refine IdleKept.trans (setMask_idleKept f m r.excl t) ?_
    exact IdleKept.of_keeps (sendChanged_keeps (M := 1153) _ _ _ _ _ _ (Keeps.refl _) (Sub.refl _ |>.of rfl)) rfl rfl
  · exact IdleKept.of_same rfl rfl

/-! ### Letters of a cluster end -/

theorem mem_letters_of_on {n : Nat} {s : State} {l : Letter} (h : l ∈ lettersOn n s) : l ∈ s.sch.letters := (List.mem_filter.mp h).1

theorem lettersOn_congr {n : Nat} {s t : State} (hl : t.sch.letters = s.sch.letters) (hs : t.prog.saved = s.prog.saved) :
    lettersOn n t = lettersOn n s := by
  unfold lettersOn
  rw [hl, hs]

theorem lettersOn_idle {n : Nat} {s : State} (h : s.sch.letters = []) : lettersOn n s = [] := by
  unfold lettersOn
  rw [h]
  rfl

/-- The one letter in flight, where it is on the cluster, is all there is on it. -/
theorem lettersOn_one {n : Nat} {s : State} {l : Letter} (h : s.sch.letters = [l]) (hl : l ∈ lettersOn n s) : lettersOn n s = [l] := by
  have hp := (List.mem_filter.mp hl).2
  unfold lettersOn
  rw [h]
  exact List.filter_eq_self.mpr (fun a ha => by rw [List.mem_singleton.mp ha]; exact hp)

theorem endLettersOn_asideKept (n reason : Nat) (s : State) : AsideKept s (endLettersOn n reason s) := by
  unfold endLettersOn
  extract_lets ls s1 s2
  have h1 : AsideKept s s1 := by
    refine AsideKept.forEach _ (fun l _ t => ?_) s
    dsimp only
    split
    · exact AsideKept.refl t
    · exact AsideKept.of_regs rfl
  exact (h1.trans (asideKept_schSteps.endLetters _ _ s1)).trans (AsideKept.of_regs rfl)

theorem endLettersOn_endsKept (n reason : Nat) (s : State) : EndsKept s (endLettersOn n reason s) := by
  unfold endLettersOn
  extract_lets ls s1 s2
  have h1 : EndsKept s s1 := by
    refine endsKept_schSteps.forEach (fun l t => ?_) _ s
    dsimp only
    split
    · exact EndsKept.of_execs rfl
    · exact recordEnd_endsKept _ _ _ _ _ t
  exact (h1.trans (endsKept_schSteps.endLetters _ _ s1)).trans (EndsKept.of_execs rfl)

theorem endLettersOn_idleKept (n reason : Nat) (s : State) : IdleKept s (endLettersOn n reason s) := by
  refine ⟨endLettersOn_endsKept n reason s, fun h => ?_⟩
  unfold endLettersOn
  rw [lettersOn_idle h]
  exact LettersKept.of_sch rfl

theorem endLettersOn_ended {n : Nat} (reason : Nat) {s : State} {l : Letter} (h : s.sch.letters = [l]) (hl : l ∈ lettersOn n s) :
    LetterEnded reason s l (endLettersOn n reason s) := by
  unfold endLettersOn
  rw [lettersOn_one h hl]
  extract_lets ls s1 s2
  have h1 : s1.sch = s.sch ∧ ∀ x, SMap.find s.prog.execs l.exec = some x → l.owner ≠ schFirmware → x.endWith = none →
      ∃ y, SMap.find s1.prog.execs l.exec = some y ∧ y.endWith = some (reason, 0) := by
    by_cases ho : l.owner = schFirmware
    · have hs1 : s1 = s := if_pos ho
      rw [hs1]
      exact ⟨rfl, fun x _ hne => absurd ho hne⟩
    · have hs1 : s1 = recordEnd l.exec reason 0 0 (match l.port with | some p => (coreAt p s).pc | none => 0) s := if_neg ho
      rw [hs1]
      exact ⟨rfl, fun x hx _ hn => recordEnd_sets hx hn⟩
  clear_value s1
  obtain ⟨hsch, hexec⟩ := h1
  have hs2 : s2 = endLetter l.id 0x84 s1 := rfl
  have hlast : LastEnded l 0x84 s2 := hs2 ▸ endLetter_last (by rw [hsch, h])
  have hkept : EndsKept s1 s2 := hs2 ▸ endsKept_schSteps.endLetter l.id 0x84 s1
  clear_value s2
  refine ⟨hlast, fun x hx ho hn => ?_⟩
  obtain ⟨y, hy, hr⟩ := hexec x hx ho hn
  exact hkept _ y _ hy hr

/-! ### A cluster retires (R302) -/

/-- What a retirement leaves: the cluster fresh and out of service, its domain off for good. -/
def ClusRetired (n : Nat) (t : State) : Prop :=
  ClusFresh n t ∧ fget (Fl.AXC_STATUS_STATE n) t = 3 ∧ pdOn (12 + n) t = false ∧ pdRetired (12 + n) t = true ∧ fget (Fl.AXC_EVENT_RETIRED n) t = 1

theorem cleanLines_none (n : Nat) (s : State) : ∀ e ∈ (cleanLines n (fun _ => true) s).dirty, e.2.cluster ≠ n := by
  intro e he
  have hp := (List.mem_filter.mp he).2
  simpa using hp

/-- After the end of its letters the rest of a retirement ends none. -/
theorem clusRetire_afterEnd (n : Nat) (s : State) : IdleKept (endLettersOn n 5 s) (clusRetire n s) := by
  unfold clusRetire
  generalize endLettersOn n 5 s = s0
  extract_lets s1 s2
  have h1 : IdleKept s0 s1 := IdleKept.of_keeps (raiseEvent_keeps (M := 33) _ _ _ (Keeps.refl s0) (Sub.refl _)) rfl rfl
  have h2 : IdleKept s1 s2 := 
    IdleKept.trans (t := cleanLines n (fun _ => true) s1) (IdleKept.of_same rfl rfl)
        (IdleKept.of_keeps (clusClear_keeps (M := 1572865) n (Keeps.refl _) (Sub.refl _)) rfl rfl)
  clear_value s1 s2
  have h3 : IdleKept s2 (retireDomain (12 + n) (fset (Fl.AXC_STATUS_STATE n) 3 s2)) :=
    IdleKept.of_keeps (retireDomain_keeps (M := 1) _ (fset_keeps _ _ (Keeps.refl s2) (Sub.refl _)) (Sub.refl _)) rfl rfl
  exact (((h1.trans h2).trans h3).trans (maskRetire_idleKept n _)).trans (settleSch_idleKept _)

theorem clusRetire_idleKept (n : Nat) (s : State) : IdleKept s (clusRetire n s) := (endLettersOn_idleKept n 5 s).trans (clusRetire_afterEnd n s)

theorem clusRetire_ended {n : Nat} {s : State} {l : Letter} (h : s.sch.letters = [l]) (hl : l ∈ lettersOn n s) :
    LetterEnded 5 s l (clusRetire n s) := (endLettersOn_ended 5 h hl).kept (clusRetire_afterEnd n s)

/-- A mask of what settling the scheduler and messages change. -/
theorem schAndMessages : ∃ M, Sub 265377 M ∧ M.testBit 19 = false ∧ M.testBit 20 = false ∧ M.testBit 25 = false := ⟨265377, Sub.refl _, rfl, rfl, rfl⟩

theorem ClusFresh.of_aside {n M : Nat} {s t : State} (h : ClusFresh n s) (hk : Keeps M s t) (ha : AsideKept s t) (h19 : M.testBit 19 = false)
    (h20 : M.testBit 20 = false) (h25 : M.testBit 25 = false) : ClusFresh n t :=
  h.kept (fun _ _ => coreAt_congr (hk.only.cores h19) _) (hk.only.dirty h25) (congrArg Clus.locked (clusAt_congr (hk.only.clus h20) n))
    (ha _ (Or.inr (by unfold Reg.AXC_CACHE_CTRL; omega))) (ha _ (Or.inr (by unfold Reg.AXC_LOCK_CTRL; omega)))

theorem ClusRetired.of_aside {n M : Nat} {s t : State} (h : ClusRetired n s) (hk : Keeps M s t) (ha : AsideKept s t) (h19 : M.testBit 19 = false)
    (h20 : M.testBit 20 = false) (h25 : M.testBit 25 = false) : ClusRetired n t := by
  obtain ⟨hf, hst, hon, hret, hev⟩ := h
  have hfield {f : Fld} (hf : f.addr < 0x40040000 ∨ 0x44000000 ≤ f.addr) : fget f t = fget f s := congrArg (extractField · f.lo f.w) (ha _ hf)
  refine ⟨hf.of_aside hk ha h19 h20 h25, (hfield (Or.inr ?_)).trans hst, ?_, ?_, (hfield (Or.inr ?_)).trans hev⟩
  · simp only [Fl.AXC_STATUS_STATE, Reg.AXC_STATUS]; omega
  · exact (pdOn_congr (ha _ (Or.inl (by decide))) (ha _ (Or.inl (by decide))) _).trans hon
  · exact Eq.trans (by unfold pdRetired; rw [ha Reg.AON_PD_RETIRED_LO (Or.inl (by decide)), ha Reg.AON_PD_RETIRED_HI (Or.inl (by decide))]) hret
  · simp only [Fl.AXC_EVENT_RETIRED, Reg.AXC_EVENT]; omega

theorem clusRetire_retired {n : Nat} (hn : n < 8) (s : State) : ClusRetired n (clusRetire n s) := by
  unfold clusRetire
  generalize endLettersOn n 5 s = s0
  extract_lets s1 s2
  have hev1 : fget (Fl.AXC_EVENT_RETIRED n) s1 = 1 := by
    refine fget_raiseEvent_self _ _ _ _ (not_pbkRegs_of_aside (Or.inr ?_)) rfl (show 5 < 64 by decide)
    simp only [Fl.AXC_EVENT_RETIRED, Reg.AXC_EVENT]; omega
  have hev2 : fget (Fl.AXC_EVENT_RETIRED n) s2 = 1 := (congrArg (extractField · 5 1) (rd_clusClear_event hn _)).trans hev1
  have hfresh2 : ClusFresh n s2 := clusClear_fresh hn (cleanLines_none n s1)
  clear_value s1 s2
  have h3 : ClusRetired n (retireDomain (12 + n) (fset (Fl.AXC_STATUS_STATE n) 3 s2)) := by
    obtain ⟨hon, hret⟩ := pd_retireDomain (show 12 + n < 32 by omega) (fset (Fl.AXC_STATUS_STATE n) 3 s2)
    have hrd {a : Nat} (ha : 0x44000000 ≤ a) : rd a (retireDomain (12 + n) (fset (Fl.AXC_STATUS_STATE n) 3 s2)) =
        rd a (fset (Fl.AXC_STATUS_STATE n) 3 s2) := by
      unfold retireDomain
      rw [if_pos (show 12 + n < 32 by omega), rd_fset_ne _ _ _ _ (by simp only [Reg.AON_PD_ON_LO]; omega),
          rd_fset_ne _ _ _ _ (by simp only [Reg.AON_PD_RETIRED_LO]; omega)]
    have hfield {f : Fld} (hf : 0x44000000 ≤ f.addr) : fget f (retireDomain (12 + n) (fset (Fl.AXC_STATUS_STATE n) 3 s2)) =
        fget f (fset (Fl.AXC_STATUS_STATE n) 3 s2) :=
      congrArg (extractField · f.lo f.w) (hrd hf)
    have hk : Keeps 1 s2 (retireDomain (12 + n) (fset (Fl.AXC_STATUS_STATE n) 3 s2)) :=
      retireDomain_keeps _ (fset_keeps _ _ (Keeps.refl s2) (Sub.refl _)) (Sub.refl _)
    refine ⟨hfresh2.kept (fun _ _ => coreAt_congr (hk.only.cores rfl) _) (hk.only.dirty rfl)
        (congrArg Clus.locked (clusAt_congr (hk.only.clus rfl) n)) ?_ ?_, ?_, hon, hret, ?_⟩
    · rw [hrd (by unfold Reg.AXC_CACHE_CTRL; omega)]
      exact rd_fset_ne _ _ _ _ (by simp only [Reg.AXC_CACHE_CTRL, Fl.AXC_STATUS_STATE, Reg.AXC_STATUS]; omega)
    · rw [hrd (by unfold Reg.AXC_LOCK_CTRL; omega)]
      exact rd_fset_ne _ _ _ _ (by simp only [Reg.AXC_LOCK_CTRL, Fl.AXC_STATUS_STATE, Reg.AXC_STATUS]; omega)
    · rw [hfield (by simp only [Fl.AXC_STATUS_STATE, Reg.AXC_STATUS]; omega)]
      exact fget_fset_self _ _ _ (by simp only [Fl.AXC_STATUS_STATE]; omega)
    · rw [hfield (by simp only [Fl.AXC_EVENT_RETIRED, Reg.AXC_EVENT]; omega)]
      refine (fget_fset_ne _ _ _ _ (Or.inl ?_)).trans hev2
      simp only [Fl.AXC_EVENT_RETIRED, Reg.AXC_EVENT, Fl.AXC_STATUS_STATE, Reg.AXC_STATUS]
      omega
  generalize retireDomain (12 + n) (fset (Fl.AXC_STATUS_STATE n) 3 s2) = s3 at h3 ⊢
  obtain ⟨M, hM, h19, h20, h25⟩ := schAndMessages
  exact h3.of_aside (settleSch_keeps (maskRetire_keeps n (Keeps.refl s3))) ((maskRetire_asideKept n s3).trans (settleSch_asideKept _)) h19 h20 h25

end Sys2Proof.Machine
end

section
/-! A cluster reset (R301): what its steps leave, with the self-test and without. -/

namespace Sys2Proof.Machine

/-! ### Run-ahead, pre-reads and staged pages of the cluster -/

/-- Run-ahead ends on the cluster's cores, and its pre-reads and pre-staged pages are dropped. -/
def resetPrepared (n : Nat) (s : State) : State :=
  dropPages (fun g => g.state == .preStaged && g.core / 8 == n)
    (cancelPreReads (fun r => r.core / 8 == n) (forN (fun i t => leaveAhead (8 * n + i) (freeNat 16 t) (useFree t)) 8 s))

/-- The registers and the postmark show a cluster reset. -/
def resetShown (n : Nat) (s : State) : State :=
  resetPostmark 5 n (fset Fl.AON_RST_CAUSE_CLUSTER 1 <| raiseEvent 0x0C n (Fl.AXC_EVENT_CLUSTER_RESET n) (fset (Fl.AXC_STATUS_STATE n) 1 s))

/-- A cluster after its reset, before its self-test. -/
def resetDone (n reason : Nat) (s : State) : State :=
  resetShown n (updClus n (fun c => { c with resets := Nat.min (c.resets + 1) 0xFFFFFFFF, update := .none })
    (clusClear n (cleanLines n (fun _ => true) (endLettersOn n reason (resetPrepared n s)))))

theorem clusterResetWith_up {n : Nat} {s : State} (h : clusUp n s = true) (reason : Nat) (st : Bool) :
    clusterResetWith n reason st s = settleSch (if st then resetDone n reason s else clusRetire n (resetDone n reason s)) := by
  unfold clusterResetWith
  rw [if_neg (by rw [h]; decide)]
  rfl

theorem coreAt_passCycles_ne {j k : Nat} (h : j ≠ k) (cycles : Nat) (s : State) : coreAt j (passCycles k cycles s) = coreAt j s := by
  have h1 := coreAt_putSys_ne 0 (sysAt k 0 s + BitVec.ofNat 64 cycles) s h
  unfold passCycles
  dsimp only
  split
  · exact (coreAt_congr rfl j).trans h1
  · exact h1

theorem coreAt_leaveAhead_ne {j k : Nat} (h : j ≠ k) (cycles : Nat) (s : State) : coreAt j (leaveAhead k cycles s) = coreAt j s := by
  unfold leaveAhead
  split
  · rfl
  · rw [coreAt_showCore, coreAt_passCycles_ne h]
    exact coreAt_put_ne _ _ h

theorem coreAt_leaveAheads_ne {n k m : Nat} (hm : m ≤ 8) (hk : k / 8 ≠ n) (s : State) :
    coreAt k (forN (fun i t => leaveAhead (8 * n + i) (freeNat 16 t) (useFree t)) m s) = coreAt k s := by
  induction m with
  | zero => rfl
  | succ m ih => exact ((coreAt_leaveAhead_ne (by omega) _ _).trans (coreAt_congr rfl k)).trans (ih (by omega))

theorem dropRead_lettersKept (r : ReadEntry) (s : State) : LettersKept s (dropRead r s) := by
  have hs1 : LettersKept s (cancelChanRead r.handle (updSch (fun z => { z with reads := z.reads.filter (fun x => x.handle != r.handle) }) s)) :=
    LettersKept.trans (t := updSch (fun z => { z with reads := z.reads.filter (fun x => x.handle != r.handle) }) s) ⟨rfl, rfl⟩
      (LettersKept.of_sch ((cancelChanRead_keeps (M := 513) _ (Keeps.refl _) (Sub.refl _)).only.sch rfl))
  unfold dropRead
  extract_lets s1
  refine LettersKept.trans ?_ (LettersKept.of_sch (showSch_sch _))
  split
  · exact hs1.trans (LettersKept.of_sch ((prdEnded_keeps (M := 1) _ _ (Keeps.refl s1) (Sub.refl _)).only.sch rfl))
  · exact hs1

theorem cancelPreReads_lettersKept (p : ReadEntry → Bool) (s : State) : LettersKept s (cancelPreReads p s) := by
  unfold cancelPreReads
  generalize s.sch.reads.filter (fun r => r.pre && p r) = rs
  induction rs generalizing s with
  | nil => exact LettersKept.of_sch rfl
  | cons r rs ih => exact (dropRead_lettersKept r s).trans (ih _)

theorem dropPages_progs (p : StagePage → Bool) (s : State) :
    (dropPages p s).prog.execs = s.prog.execs ∧ (dropPages p s).prog.saved = s.prog.saved := by
  unfold dropPages
  extract_lets u
  have hu : Keeps 1 s u := forEach_keeps (Keeps.refl s) (fun _ t => prdEnded_keeps _ _ (Keeps.refl t) (Sub.refl _))
  have hprog := hu.only.prog rfl
  clear_value u
  have hexecs : u.prog.execs = s.prog.execs := congrArg Progs.execs hprog
  have hsaved : u.prog.saved = s.prog.saved := congrArg Progs.saved hprog
  exact ⟨hexecs, hsaved⟩

/-- What the preparation of a reset leaves. -/
structure Prepared (n : Nat) (s t : State) : Prop where
  letters : LettersKept s t
  execs : t.prog.execs = s.prog.execs
  saved : t.prog.saved = s.prog.saved
  clus : t.clus = s.clus
  cores : ∀ k, k / 8 ≠ n → coreAt k t = coreAt k s
  low : LowKept s t

theorem resetPrepared_prepared (n : Nat) (s : State) : Prepared n s (resetPrepared n s) := by
  unfold resetPrepared
  have h1 : Keeps 524293 s (forN (fun i t => leaveAhead (8 * n + i) (freeNat 16 t) (useFree t)) 8 s) :=
    forN_keeps (Keeps.refl s) (fun i t => leaveAhead_keeps _ _ (useFree_keeps (Keeps.refl t) (Sub.refl _ |>.of rfl)) (Sub.refl _ |>.of rfl))
  have hcores1 (k : Nat) (hk : k / 8 ≠ n) := coreAt_leaveAheads_ne (m := 8) le_rfl hk s
  have hlow1 : LowKept s (forN (fun i t => leaveAhead (8 * n + i) (freeNat 16 t) (useFree t)) 8 s) :=
    forN_low (LowKept.refl s) (fun i t => leaveAhead_low (useFree_low (LowKept.refl t)) _ _)
  generalize forN (fun i t => leaveAhead (8 * n + i) (freeNat 16 t) (useFree t)) 8 s = s1 at h1 hcores1 hlow1 ⊢
  have h2 : Keeps 262657 s1 (cancelPreReads (fun r => r.core / 8 == n) s1) := cancelPreReads_keeps _ (Keeps.refl s1) (Sub.refl _)
  have hletters2 := cancelPreReads_lettersKept (fun r => r.core / 8 == n) s1
  have hlow2 := cancelPreReads_low (LowKept.refl s1) (fun r => r.core / 8 == n)
  generalize cancelPreReads (fun r => r.core / 8 == n) s1 = s2 at h2 hletters2 hlow2 ⊢
  have h3 : Keeps 2049 s2 (dropPages (fun g => g.state == .preStaged && g.core / 8 == n) s2) := dropPages_keeps _ (Keeps.refl s2) (Sub.refl _)
  have hprog3 : (dropPages (fun g => g.state == .preStaged && g.core / 8 == n) s2).prog.execs = s2.prog.execs ∧
      (dropPages (fun g => g.state == .preStaged && g.core / 8 == n) s2).prog.saved = s2.prog.saved := dropPages_progs _ s2
  exact
    { letters := ((LettersKept.of_sch (h1.only.sch rfl)).trans hletters2).trans (LettersKept.of_sch (h3.only.sch rfl))
      execs := hprog3.1.trans (congrArg Progs.execs ((h2.only.prog rfl).trans (h1.only.prog rfl)))
      saved := hprog3.2.trans (congrArg Progs.saved ((h2.only.prog rfl).trans (h1.only.prog rfl)))
      clus := ((h3.only.clus rfl).trans (h2.only.clus rfl)).trans (h1.only.clus rfl)
      cores := fun k hk => ((coreAt_congr (h3.only.cores rfl) k).trans (coreAt_congr (h2.only.cores rfl) k)).trans (hcores1 k hk)
      low := fun a ha => ((dropPages_low (LowKept.refl s2) _) a ha).trans ((hlow2 a ha).trans (hlow1 a ha)) }

/-! ### The reset -/

/-- What a reset that its self-test follows leaves of a cluster. -/
structure ResetLeaves (n reason : Nat) (s t : State) : Prop where
  fresh : ClusFresh n t
  state : fget (Fl.AXC_STATUS_STATE n) t = 1
  event : fget (Fl.AXC_EVENT_CLUSTER_RESET n) t = 1
  record : ∃ acc, clusAt n t = { clusAt n s with
    acc := acc, locked := [], funcs := [], cmo := 0, resets := Nat.min ((clusAt n s).resets + 1) 0xFFFFFFFF, update := .none }
  cause : fget Fl.AON_RST_CAUSE_CLUSTER t = 1
  cores : ∀ k, k / 8 ≠ n → coreAt k t = coreAt k s
  on : rd Reg.AON_PD_ON_LO t = rd Reg.AON_PD_ON_LO s
  execs : EndsKept s t
  ended : ∀ l ∈ lettersOn n s, s.sch.letters = [l] → LetterEnded reason s l t

section
variable (n : Nat) (s : State)

theorem rd_resetShown {a : Nat} (ha : a < 0x40040000 ∨ 0x44000000 ≤ a) (hcause : a ≠ Reg.AON_RST_CAUSE) (hev : a ≠ Reg.AXC_EVENT n)
    (hst : a ≠ Reg.AXC_STATUS n) : rd a (resetShown n s) = rd a s := by
  have hpbk := not_pbkRegs_of_aside ha
  unfold resetShown resetPostmark
  rw [rd_postmark _ _ _ _ _ hpbk, rd_fset_ne _ _ _ _ (show a ≠ Fl.AON_RST_CAUSE_CLUSTER.addr from hcause),
    rd_raiseEvent_ne _ _ _ _ _ hpbk (show a ≠ (Fl.AXC_EVENT_CLUSTER_RESET n).addr from hev),
        rd_fset_ne _ _ _ _ (show a ≠ (Fl.AXC_STATUS_STATE n).addr from hst)]

theorem resetShown_state : fget (Fl.AXC_STATUS_STATE n) (resetShown n s) = 1 := by
  have hpbk : Reg.AXC_STATUS n ∉ pbkRegs := not_pbkRegs_of_aside (Or.inr (by unfold Reg.AXC_STATUS; omega))
  unfold resetShown resetPostmark
  rw [fget_postmark _ _ _ _ _ hpbk,
      fget_fset_ne _ _ _ _ (Or.inl (by simp only [Fl.AXC_STATUS_STATE, Reg.AXC_STATUS, Fl.AON_RST_CAUSE_CLUSTER, Reg.AON_RST_CAUSE]; omega))]
  refine (congrArg (extractField · 0 2) (rd_raiseEvent_ne _ _ _ _ _ hpbk ?_)).trans
      (fget_fset_self (Fl.AXC_STATUS_STATE n) 1 s (show 0 + 2 ≤ 64 by decide))
  simp only [Reg.AXC_STATUS, Fl.AXC_EVENT_CLUSTER_RESET, Reg.AXC_EVENT]
  omega

theorem resetShown_event : fget (Fl.AXC_EVENT_CLUSTER_RESET n) (resetShown n s) = 1 := by
  have hpbk : Reg.AXC_EVENT n ∉ pbkRegs := not_pbkRegs_of_aside (Or.inr (by unfold Reg.AXC_EVENT; omega))
  unfold resetShown resetPostmark
  rw [fget_postmark _ _ _ _ _ hpbk,
      fget_fset_ne _ _ _ _ (Or.inl (by simp only [Fl.AXC_EVENT_CLUSTER_RESET, Reg.AXC_EVENT, Fl.AON_RST_CAUSE_CLUSTER, Reg.AON_RST_CAUSE]; omega))]
  exact fget_raiseEvent_self _ _ _ _ hpbk rfl (show 4 < 64 by decide)

theorem resetShown_cause : fget Fl.AON_RST_CAUSE_CLUSTER (resetShown n s) = 1 := by
  unfold resetShown resetPostmark
  rw [fget_postmark _ _ _ _ _ (by decide)]
  exact fget_fset_self _ _ _ (by decide)

theorem resetShown_keeps : Keeps 33 s (resetShown n s) :=
  resetPostmark_keeps _ _ (fset_keeps _ _ (raiseEvent_keeps _ _ _ (fset_keeps _ _ (Keeps.refl s) (Sub.refl _ |>.of rfl)) (Sub.refl _))
      (Sub.refl _ |>.of rfl)) (Sub.refl _)

end

theorem resetDone_leaves {n : Nat} (hn : n < 8) (reason : Nat) (s : State) : ResetLeaves n reason s (resetDone n reason s) := by
  have hp := resetPrepared_prepared n s
  unfold resetDone
  generalize resetPrepared n s = s1 at hp ⊢
  obtain ⟨hletters, hexecs, hsaved, hclus, hcores, hlow⟩ := hp
  have hk2 : Keeps 264225 s1 (endLettersOn n reason s1) := endLettersOn_keeps n reason (Keeps.refl s1) (Sub.refl _)
  have haside2 := endLettersOn_asideKept n reason s1
  have hends2 := endLettersOn_endsKept n reason s1
  have hended2 (l : Letter) (hl : l ∈ lettersOn n s) (hone : s.sch.letters = [l]) : LetterEnded reason s1 l (endLettersOn n reason s1) :=
    endLettersOn_ended reason (hletters.1.trans hone) (by rw [lettersOn_congr hletters.1 hsaved]; exact hl)
  generalize endLettersOn n reason s1 = s2 at hk2 haside2 hends2 hended2 ⊢
  have hclean := cleanLines_none n s2
  have hk3 : Keeps 33554432 s2 (cleanLines n (fun _ => true) s2) := cleanLines_keeps n _ (Keeps.refl s2) (Sub.refl _)
  generalize cleanLines n (fun _ => true) s2 = s3 at hclean hk3 ⊢
  have hfresh4 := clusClear_fresh hn hclean
  have hk4 : Keeps 1572865 s3 (clusClear n s3) := clusClear_keeps n (Keeps.refl s3) (Sub.refl _)
  have hcores4 (k : Nat) (hk : k / 8 ≠ n) := coreAt_clusClear_ne hk s3
  have hrec4 := clusAt_clusClear n s3
  have hon4 := rd_clusClear_aon hn (show Reg.AON_PD_ON_LO < 0x40040000 by decide) pdRegs_block.1 s3
  generalize clusClear n s3 = s4 at hfresh4 hk4 hcores4 hrec4 hon4 ⊢
  have hrec5 := clusAt_updClus_self n (fun c => { c with resets := Nat.min (c.resets + 1) 0xFFFFFFFF, update := .none }) s4
  have hk5 : Keeps 1048576 s4 (updClus n (fun c => { c with resets := Nat.min (c.resets + 1) 0xFFFFFFFF, update := .none }) s4) :=
    updClus_keeps n _ (Keeps.refl s4) (Sub.refl _)
  generalize updClus n (fun c => { c with resets := Nat.min (c.resets + 1) 0xFFFFFFFF, update := .none }) s4 = s5 at hrec5 hk5 ⊢
  have hk6 := resetShown_keeps n s5
  have hfresh5 : ClusFresh n s5 := hfresh4.kept (fun _ _ => coreAt_congr (hk5.only.cores rfl) _) (hk5.only.dirty rfl) (by rw [hrec5])
    (rd_congr (hk5.only.regs rfl) _) (rd_congr (hk5.only.regs rfl) _)
  have hidle : IdleKept s2 (resetShown n s5) := ((((IdleKept.of_keeps hk3 rfl rfl).trans (IdleKept.of_keeps hk4 rfl rfl)).trans
    (IdleKept.of_keeps hk5 rfl rfl))).trans (IdleKept.of_keeps hk6 rfl rfl)
  have hc2 : clusAt n s3 = clusAt n s := clusAt_congr (((hk3.only.clus rfl).trans (hk2.only.clus rfl)).trans hclus) n
  refine
    { fresh := ?_
      state := resetShown_state n s5
      event := resetShown_event n s5
      record := ⟨(clusAt n (keepClusCounts n s3)).acc, ?_⟩
      cause := resetShown_cause n s5
      cores := fun k hk => ?_
      on := ?_
      execs := (EndsKept.of_execs hexecs).trans (hends2.trans hidle.1)
      ended := fun l hl hone => ?_ }
  · refine hfresh5.kept (fun _ _ => coreAt_congr (hk6.only.cores rfl) _) (hk6.only.dirty rfl)
        (congrArg Clus.locked (clusAt_congr (hk6.only.clus rfl) n)) ?_ ?_
    · exact rd_resetShown n s5 (Or.inr (by unfold Reg.AXC_CACHE_CTRL; omega)) (by unfold Reg.AXC_CACHE_CTRL Reg.AON_RST_CAUSE; omega)
        (by unfold Reg.AXC_CACHE_CTRL Reg.AXC_EVENT; omega) (by unfold Reg.AXC_CACHE_CTRL Reg.AXC_STATUS; omega)
    · exact rd_resetShown n s5 (Or.inr (by unfold Reg.AXC_LOCK_CTRL; omega)) (by unfold Reg.AXC_LOCK_CTRL Reg.AON_RST_CAUSE; omega)
        (by unfold Reg.AXC_LOCK_CTRL Reg.AXC_EVENT; omega) (by unfold Reg.AXC_LOCK_CTRL Reg.AXC_STATUS; omega)
  · rw [clusAt_congr (hk6.only.clus rfl), hrec5, hrec4, hc2]
  · rw [coreAt_congr (hk6.only.cores rfl), coreAt_congr (hk5.only.cores rfl), hcores4 k hk, coreAt_congr (hk3.only.cores rfl),
      coreAt_congr (hk2.only.cores rfl), hcores k hk]
  · rw [rd_resetShown n s5 (Or.inl (by decide)) (by decide) (by unfold Reg.AON_PD_ON_LO Reg.AXC_EVENT; omega)
        (by unfold Reg.AON_PD_ON_LO Reg.AXC_STATUS; omega),
      rd_congr (hk5.only.regs rfl), hon4, rd_congr (hk3.only.regs rfl), haside2 _ (Or.inl (by decide)), hlow _ (by decide)]
  · obtain ⟨hlast, hex⟩ := (hended2 l hl hone).kept hidle
    exact ⟨hlast, fun x hx => hex x (by rw [hexecs]; exact hx)⟩

end Sys2Proof.Machine
end

section
/-! Cluster resets and retirements as the rows ask for them (R73, R301, R302, R303, R306). -/

namespace Sys2Proof.Machine

/-- What a reset shows of a cluster: fresh, in service again, its reset counted and no runtime update under way. -/
def ClusRestarted (n : Nat) (s t : State) : Prop :=
  ClusFresh n t ∧ fget (Fl.AXC_STATUS_STATE n) t = 1 ∧ fget (Fl.AXC_EVENT_CLUSTER_RESET n) t = 1 ∧ (clusAt n t).update = .none ∧
    (clusAt n t).resets = Nat.min ((clusAt n s).resets + 1) 0xFFFFFFFF

/-- The one letter in flight, where it was on the cluster, has ended with status 0x84, and its execution for the reason. -/
def ClusEnded (n reason : Nat) (s t : State) : Prop :=
  s.sch.letters.length = 1 → ∀ l ∈ lettersOn n s, letterAt l.id t = none ∧
    SMap.find t.sch.past l.id = some (l.gen, 0x84) ∧ ∀ x ∈ (SMap.find s.prog.execs l.exec).toList, l.owner ≠ 0x80 → x.endWith = none →
      ∃ y, SMap.find t.prog.execs l.exec = some y ∧ y.endWith = some (reason, 0)

theorem clusEnded_of {n reason : Nat} {s t : State} (h : ∀ l ∈ lettersOn n s, s.sch.letters = [l] → LetterEnded reason s l t) :
    ClusEnded n reason s t := by
  intro hlen l hl
  obtain ⟨m, hm⟩ := List.length_eq_one_iff.mp hlen
  obtain rfl : l = m := by simpa [hm] using mem_letters_of_on hl
  obtain ⟨⟨hnone, hpast⟩, hexec⟩ := h l hl hm
  refine ⟨?_, hpast, fun x hx => hexec x (Option.mem_toList.mp hx)⟩
  unfold letterAt
  rw [hnone]
  rfl

/-- What a reset leaves stays as the scheduler settles. -/
theorem ResetLeaves.settle {n reason : Nat} {s t : State} (h : ResetLeaves n reason s t) : ResetLeaves n reason s (settleSch t) := by
  obtain ⟨hfresh, hstate, hevent, ⟨acc, hrec⟩, hcause, hcores, hon, hexecs, hended⟩ := h
  obtain ⟨M, hM, h19, h20, h25⟩ := schAndMessages
  have hk : Keeps M t (settleSch t) := settleSch_keeps (Keeps.refl t)
  have ha := settleSch_asideKept t
  have hi := settleSch_idleKept t
  generalize settleSch t = u at hk ha hi ⊢
  have hfield {f : Fld} (hf : f.addr < 0x40040000 ∨ 0x44000000 ≤ f.addr) : fget f u = fget f t := congrArg (extractField · f.lo f.w) (ha _ hf)
  exact
    { fresh := hfresh.of_aside hk ha h19 h20 h25
      state := (hfield (Or.inr (by simp only [Fl.AXC_STATUS_STATE, Reg.AXC_STATUS]; omega))).trans hstate
      event := (hfield (Or.inr (by simp only [Fl.AXC_EVENT_CLUSTER_RESET, Reg.AXC_EVENT]; omega))).trans hevent
      record := ⟨acc, (clusAt_congr (hk.only.clus h20) n).trans hrec⟩
      cause := (hfield (Or.inl (by decide))).trans hcause
      cores := fun k hk' => (coreAt_congr (hk.only.cores h19) k).trans (hcores k hk')
      on := (ha _ (Or.inl (by decide))).trans hon
      execs := hexecs.trans hi.1
      ended := fun l hl hone => (hended l hl hone).kept hi }

theorem ResetLeaves.restarted {n reason : Nat} {s t : State} (h : ResetLeaves n reason s t) : ClusRestarted n s t := by
  obtain ⟨acc, hrec⟩ := h.record
  exact ⟨h.fresh, h.state, h.event, by rw [hrec], by rw [hrec]⟩

theorem clusUp_bound {n : Nat} {s : State} (h : clusUp n s = true) : n < 8 ∧ pdOn (12 + n) s = true ∧ fget (Fl.AXC_STATUS_STATE n) s ≠ 3 := by
  unfold clusUp at h
  simpa [and_assoc] using h

theorem reset_passes {n : Nat} {s : State} (h : clusUp n s = true) (reason : Nat) : ResetLeaves n reason s (clusterResetWith n reason true s) := by
  obtain ⟨hn, -, -⟩ := clusUp_bound h
  rw [clusterResetWith_up h]
  exact (resetDone_leaves hn reason s).settle

theorem ClusRetired.settle {n : Nat} {t : State} (h : ClusRetired n t) : ClusRetired n (settleSch t) := by
  obtain ⟨M, hM, h19, h20, h25⟩ := schAndMessages
  exact h.of_aside (M := M) (settleSch_keeps (Keeps.refl t)) (settleSch_asideKept t) h19 h20 h25

theorem reset_fails {n : Nat} {s : State} (h : clusUp n s = true) (reason : Nat) :
    ClusRetired n (clusterResetWith n reason false s) ∧ ClusEnded n reason s (clusterResetWith n reason false s) := by
  obtain ⟨hn, -, -⟩ := clusUp_bound h
  rw [clusterResetWith_up h]
  refine ⟨(clusRetire_retired hn _).settle, clusEnded_of (fun l hl hone => ?_)⟩
  exact (((resetDone_leaves hn reason s).ended l hl hone).kept (clusRetire_idleKept n _)).kept (settleSch_idleKept _)

/-! ### Rows CLUSTER_RESET and CLUSTER_RETIRE -/

theorem request_now {n : Nat} {s : State} (hm : mode s ≠ 8) (st : Bool) : requestClusterReset n st s = clusterResetWith n 5 st s :=
  if_neg (fun h => hm h.1)

theorem request_waits {n : Nat} {s : State} (h : clusUp n s = true) (hm : mode s = 8) (st : Bool) :
    requestClusterReset n st s = waitCommit (.cluster n st) s :=
  if_pos ⟨hm, h⟩

section
variable {n : Nat} {s : State} (h : clusUp n s = true)
include h

theorem clusterReset_passes (hm : mode s ≠ 8) : Completes (.clusterReset n true) s (fun t => ClusRestarted n s t ∧ ClusEnded n 5 s t ∧
    fget Fl.AON_RST_CAUSE_CLUSTER t = 1 ∧ t.mem = s.mem ∧ ∀ k, k < 77 → k / 8 ≠ n → coreAt k t = coreAt k s) := by
  have hl := reset_passes h 5
  refine ⟨_, congrArg Host.Outcome.next (request_now hm true), hl.restarted, clusEnded_of hl.ended, hl.cause, ?_, fun k _ => hl.cores k⟩
  exact (clusterResetWith_keeps (M := 35393189) n 5 true (Keeps.refl s) (Sub.refl _)).only.mem rfl

theorem clusterReset_fails (hm : mode s ≠ 8) : Completes (.clusterReset n false) s (fun t => ClusRetired n t ∧ ClusEnded n 5 s t) :=
  ⟨_, congrArg Host.Outcome.next (request_now hm false), reset_fails h 5⟩

theorem clusterReset_waits (hm : mode s = 8) (st : Bool) : Completes (.clusterReset n st) s (fun t =>
    t = { s with pow := { s.pow with waitResets := s.pow.waitResets ++ [.cluster n st] } }) :=
  ⟨_, congrArg Host.Outcome.next (request_waits h hm st), rfl⟩

theorem clusterRetire_byFault (key req : Nat) : Completes (.clusterRetire n false key req) s (fun t => ClusRetired n t ∧ ClusEnded n 5 s t) := by
  obtain ⟨hn, -, -⟩ := clusUp_bound h
  refine ⟨clusRetire n s, ?_, clusRetire_retired hn s, clusEnded_of (fun l hl hone => clusRetire_ended hone hl)⟩
  change execClusterRetire n false key req s = _
  unfold execClusterRetire
  rw [if_neg (by rw [h]; decide)]
  rfl

/-- A retirement asked for with CTRL is the write of its RETIRE bit and key. -/
theorem exec_clusterRetire_byCtrl (key req : Nat) : exec (.clusterRetire n true key req) s = .next (axcCtrl n (2 + key % 256 * 256) req true s) := by
  change execClusterRetire n true key req s = _
  unfold execClusterRetire
  rw [if_neg (by rw [h]; decide)]
  rfl

theorem clusterRetire_byKey {req : Nat} (hreq : req < 0x40) : Completes (.clusterRetire n true 0x3C req) s (ClusRetired n) := by
  obtain ⟨hn, -, -⟩ := clusUp_bound h
  refine ⟨clusRetire n s, (exec_clusterRetire_byCtrl h _ _).trans (congrArg Host.Outcome.next ?_), clusRetire_retired hn s⟩
  unfold axcCtrl
  rw [if_neg (by omega)]
  rfl

theorem clusterRetire_refused {key req : Nat} (hk : key < 256) (hbad : key ≠ 0x3C ∨ (0x40 ≤ req ∧ req < 0x80)) :
    Completes (.clusterRetire n true key req) s (OnlyMarked [] s) := by
  have hkey : (2 + key % 256 * 256) / 256 % 256 = key := by omega
  refine ⟨_, (exec_clusterRetire_byCtrl h _ _).trans (congrArg Host.Outcome.next ?_),
      writeIgnored_onlyMarked (Reg.AXC_CTRL n) req (2 + key % 256 * 256) s⟩
  unfold axcCtrl
  split
  · rfl
  · rename_i hreq
    rw [hkey, if_pos (show (2 + key % 256 * 256) / 2 % 2 = 1 by omega), if_neg (show ¬ (2 + key % 256 * 256) % 2 = 1 by omega),
      if_neg (hbad.resolve_right hreq)]

/-! ### Rows RUNTIME_UPDATE and RUNTIME_UPDATE_GRACE_EXPIRY -/

theorem runtimeUpdate_begins : Completes (.runtimeUpdate n) s (fun t => t = { s with clus := t.clus } ∧ (clusAt n t).update = .grace ∧
    ∀ m, m < 8 → m ≠ n → clusAt m t = clusAt m s) := by
  refine ⟨updClus n (fun c => { c with update := .grace }) s, if_pos h, rfl, ?_, fun m _ hm => clusAt_updClus_ne _ s hm⟩
  rw [clusAt_updClus_self]

end

end Sys2Proof.Machine
end

section
/-! The end of a runtime update's grace (R303), and what parity faults record of a cluster (R289, R290). -/

namespace Sys2Proof.Machine

theorem ClusRestarted.kept {n : Nat} {s t u : State} (h : ClusRestarted n s t) (hcores : u.cores = t.cores) (hdirty : u.dirty = t.dirty)
    (hlocked : (clusAt n u).locked = (clusAt n t).locked) (hupd : (clusAt n u).update = (clusAt n t).update)
        (hres : (clusAt n u).resets = (clusAt n t).resets)
    (hregs : ∀ a ∈ [Reg.AXC_CACHE_CTRL n, Reg.AXC_LOCK_CTRL n, Reg.AXC_STATUS n], rd a u = rd a t)
    (hev : fget (Fl.AXC_EVENT_CLUSTER_RESET n) u = fget (Fl.AXC_EVENT_CLUSTER_RESET n) t) : ClusRestarted n s u := by
  obtain ⟨hf, hst, he, hup, hr⟩ := h
  refine ⟨hf.kept (fun _ _ => coreAt_congr hcores _) hdirty hlocked (hregs _ (by simp)) (hregs _ (by simp)), ?_, hev.trans he, hupd.trans hup,
      hres.trans hr⟩
  exact (congrArg (extractField · 0 2) (hregs (Reg.AXC_STATUS n) (by simp))).trans hst

theorem unitActivated_other {c unit : Nat} {ok : Bool} {s : State} (h : s.mgt.upd.todo.head? ≠ some c) : unitActivated c unit ok s = s :=
  if_neg (fun g => h g.1)

theorem runLate_of_mgt {s t : State} (h : t.mgt = s.mgt) : runLate s t = t := by
  unfold runLate
  rw [if_pos (by rw [h]; simp)]

theorem ClusEnded.kept {n reason : Nat} {s t u : State} (h : ClusEnded n reason s t) (hsch : u.sch = t.sch) (hex : EndsKept t u) :
    ClusEnded n reason s u := by
  intro hone l hl
  obtain ⟨hnone, hpast, hexec⟩ := h hone l hl
  refine ⟨?_, hsch ▸ hpast, fun x hx ho hn => ?_⟩
  · unfold letterAt at hnone ⊢
    rw [hsch]
    exact hnone
  · obtain ⟨y, hy, hr⟩ := hexec x hx ho hn
    exact hex _ y _ hy hr

theorem reset_mgt (n reason : Nat) (s : State) : (clusterResetWith n reason true s).mgt = s.mgt :=
  (clusterResetWith_keeps (M := 35393189) n reason true (Keeps.refl s) (Sub.refl _)).only.mgt rfl

section
variable {n : Nat} {s : State} (h : clusUp n s = true)
include h

/-- No runtime update is under way. -/
theorem grace_none (hg : (clusAt n s).update = .none) (version : Nat) (ok st : Bool) :
    Completes (.runtimeUpdateGraceExpiry n version ok st) s (fun t => t = s) := by
  have hgrace : graceExpiry n version ok st s = s := by
    unfold graceExpiry
    rw [if_neg (by rw [h]; decide), if_neg (fun g => by rw [hg] at g; exact absurd g.2 (by decide))]
  exact ⟨s, congrArg Host.Outcome.next ((congrArg (runLate s) hgrace).trans (runLate_of_mgt rfl)), rfl⟩

variable (hupd : s.mgt.upd.todo.head? ≠ some 3)
include hupd

/-- The new runtime starts: the reset, and the version it reports. -/
theorem grace_starts {version : Nat} (hg : (clusAt n s).update = .grace) (hv : version < 2 ^ 32) :
    Completes (.runtimeUpdateGraceExpiry n version true true) s (fun t => ClusRestarted n s t ∧ ClusEnded n 6 s t ∧
        (clusAt n t).version = version) := by
  have hl := reset_passes h 6
  have hmgt : (clusterResetWith n 6 true s).mgt = s.mgt := reset_mgt n 6 s
  have hgrace : graceExpiry n version true true s = updClus n (fun c => { c with version := version % 2 ^ 32 }) (clusterResetWith n 6 true s) := by
    unfold graceExpiry
    rw [if_neg (by rw [h]; decide), if_pos ⟨h, hg⟩]
    refine unitActivated_other ?_
    rw [show (updClus n _ (clusterResetWith n 6 true s)).mgt = (clusterResetWith n 6 true s).mgt from rfl, hmgt]
    exact hupd
  generalize clusterResetWith n 6 true s = r at hl hmgt hgrace
  have hrec := clusAt_updClus_self n (fun c => { c with version := version % 2 ^ 32 }) r
  refine ⟨updClus n (fun c => { c with version := version % 2 ^ 32 }) r, ?_, ?_, ?_, ?_⟩
  · exact congrArg Host.Outcome.next ((congrArg (runLate s) hgrace).trans (runLate_of_mgt hmgt))
  · exact hl.restarted.kept rfl rfl (by rw [hrec]) (by rw [hrec]) (by rw [hrec]) (fun _ _ => rfl) rfl
  · exact (clusEnded_of hl.ended).kept rfl (EndsKept.of_execs rfl)
  · rw [hrec]
    exact Nat.mod_eq_of_lt hv

/-- A runtime that fails its start check gives way to the old one. -/
theorem grace_fails {version : Nat} (hg : (clusAt n s).update = .grace) :
    Completes (.runtimeUpdateGraceExpiry n version false true) s
      (fun t => ClusRestarted n s t ∧ ClusEnded n 6 s t ∧ (clusAt n t).version = (clusAt n s).version) := by
  have hl := reset_passes h 6
  have hmgt : (clusterResetWith n 6 true s).mgt = s.mgt := reset_mgt n 6 s
  have hgrace : graceExpiry n version false true s = unitActivated 3 n false
      (otherPostmark 0x0C n (Reg.AXC_STATUS n) version 303 (clusterResetWith n 6 true s)) := by
    unfold graceExpiry
    rw [if_neg (by rw [h]; decide), if_pos ⟨h, hg⟩]
    rfl
  generalize clusterResetWith n 6 true s = r at hl hmgt hgrace
  have hk : Keeps 33 r (otherPostmark 0x0C n (Reg.AXC_STATUS n) version 303 r) := otherPostmark_keeps _ _ _ _ _ (Keeps.refl r) (Sub.refl _)
  have ha : AsideKept r (otherPostmark 0x0C n (Reg.AXC_STATUS n) version 303 r) := postmark_asideKept _ _ _ r
  generalize otherPostmark 0x0C n (Reg.AXC_STATUS n) version 303 r = u at hgrace hk ha
  have humgt : u.mgt = s.mgt := (hk.only.mgt rfl).trans hmgt
  have hclus : clusAt n u = clusAt n r := clusAt_congr (hk.only.clus rfl) n
  obtain ⟨acc, hrec⟩ := hl.record
  refine ⟨u, ?_, ?_, ?_, ?_⟩
  · have hu : graceExpiry n version false true s = u := hgrace.trans (unitActivated_other (by rw [humgt]; exact hupd))
    exact congrArg Host.Outcome.next ((congrArg (runLate s) hu).trans (runLate_of_mgt humgt))
  · refine hl.restarted.kept (hk.only.cores rfl) (hk.only.dirty rfl) (by rw [hclus]) (by rw [hclus]) (by rw [hclus]) (fun a hm => ha a (Or.inr ?_))
      (congrArg (extractField · 4 1) (ha _ (Or.inr ?_)))
    · simp only [List.mem_cons, List.not_mem_nil, or_false, Reg.AXC_CACHE_CTRL, Reg.AXC_LOCK_CTRL, Reg.AXC_STATUS] at hm
      omega
    · simp only [Fl.AXC_EVENT_CLUSTER_RESET, Reg.AXC_EVENT]
      omega
  · exact (clusEnded_of hl.ended).kept (hk.only.sch rfl) (EndsKept.of_execs (congrArg Progs.execs (hk.only.prog rfl)))
  · rw [hclus, hrec]

end

/-! ### Executions that a fault ends -/

/-- An execution that is there and has no end, or the end of a fault. -/
def FaultEnds (e : Nat) (t : State) : Prop := ∃ y, SMap.find t.prog.execs e = some y ∧ (y.endWith = none ∨ y.endWith = some (5, 0))

/-- An execution that is there and has the end of a fault. -/
def FaultEnded (e : Nat) (t : State) : Prop := ∃ y, SMap.find t.prog.execs e = some y ∧ y.endWith = some (5, 0)

theorem FaultEnded.kept {e : Nat} {s t : State} (h : FaultEnded e s) (hk : EndsKept s t) : FaultEnded e t := by
  obtain ⟨y, hy, hr⟩ := h
  exact hk e y _ hy hr

theorem FaultEnds.recorded {i : Nat} {s : State} (h : FaultEnds i s) (e : Nat) : FaultEnds i (recordEnd e 5 0 0 0 s) := by
  obtain ⟨y, hy, hn | hr⟩ := h
  · by_cases he : i = e
    · subst he
      obtain ⟨z, hz, hzr⟩ := recordEnd_sets (reason := 5) (low := 0) (faddr := 0) (pc := 0) hy hn
      exact ⟨z, hz, Or.inr hzr⟩
    · exact ⟨y, (SMap_find_upd_ne _ _ he).trans hy, Or.inl hn⟩
  · obtain ⟨z, hz, hzr⟩ := recordEnd_endsKept e 5 0 0 0 s i y _ hy hr
    exact ⟨z, hz, Or.inr hzr⟩

theorem FaultEnds.recordedAll {i : Nat} {s : State} (h : FaultEnds i s) (es : List (Nat × Exec)) :
    FaultEnds i (forEach (fun e t => recordEnd e.1 5 0 0 0 t) es s) := by
  induction es generalizing s with
  | nil => exact h
  | cons e es ih => exact ih (h.recorded e.1)

theorem recordEnds_kept (es : List (Nat × Exec)) (s : State) : EndsKept s (forEach (fun e t => recordEnd e.1 5 0 0 0 t) es s) :=
  endsKept_schSteps.forEach (fun e t => recordEnd_endsKept e.1 5 0 0 0 t) es s

theorem FaultEnds.ended {i : Nat} {s : State} (h : FaultEnds i s) {es : List (Nat × Exec)} (hi : i ∈ es.map (·.1)) :
    FaultEnded i (forEach (fun e t => recordEnd e.1 5 0 0 0 t) es s) := by
  induction es generalizing s with
  | nil => cases hi
  | cons e es ih =>
    by_cases he : i = e.1
    · subst he
      refine FaultEnded.kept ?_ (recordEnds_kept es _)
      obtain ⟨y, hy, hn | hr⟩ := h
      · exact recordEnd_sets hy hn
      · exact recordEnd_endsKept e.1 5 0 0 0 s e.1 y _ hy hr
    · exact ih (h.recorded e.1) ((List.mem_cons.mp hi).resolve_left he)

/-- Of the module only executions' ends differ. -/
theorem recordEnds_rest (es : List (Nat × Exec)) (s : State) :
    Keeps 2048 s (forEach (fun e t => recordEnd e.1 5 0 0 0 t) es s) ∧
    (forEach (fun e t => recordEnd e.1 5 0 0 0 t) es s).prog.saved = s.prog.saved := by
  refine ⟨forEach_keeps (Keeps.refl s) (fun e t => recordEnd_keeps _ _ _ _ _ (Keeps.refl t) (Sub.refl _)), ?_⟩
  induction es generalizing s with
  | nil => rfl
  | cons e es ih => exact (ih _).trans rfl

end Sys2Proof.Machine
end

section
/-! Dirty parity faults of a cluster (R289, R290): what is noted of them, and the reset or retirement that follows. -/

namespace Sys2Proof.Machine

/-- The fault is noted: its address, its count, its event, and the cluster's faults of the last 24 hours. -/
def faultNoted (n tag addr left : Nat) (s : State) : State :=
  s |> fset (Fl.AXC_FAULT_ADDR_VALID n) 1 |> fset (Fl.AXC_FAULT_ADDR_TAG n) tag
    |> fset (Fl.AXC_FAULT_ADDR_ADDR n) addr |> cntAdd (Reg.AXC_CNT_PAR_DIRTY n) 32 1
    |> raiseEvent 0x0C n (Fl.AXC_EVENT_PAR_DIRTY n)
    |> updClus n (fun c => { c with faultsLife := Nat.min (c.faultsLife + 1) 0xFFFFFFFF, faults24 := c.faults24 - left + 1 })

/-- The third fault of a day retires the cluster. -/
def faultRetires (n : Nat) (s : State) : State := if 3 ≤ (clusAt n s).faults24 ∧ clusUp n s = true then clusRetire n s else s

/-- A dirty line's data is lost, and the line is poisoned. -/
def linePoisoned (l : Nat) (s : State) : State :=
  { loseLine l s with dram := { s.dram with poison := if s.dram.poison.contains l then s.dram.poison else l :: s.dram.poison } }

section
variable (n tag addr left : Nat) (s : State)

theorem rd_faultNoted {a : Nat} (ha : 0x44000000 ≤ a ∨ a < 0x40040000) (hf : a ≠ Reg.AXC_FAULT_ADDR n) (hc : a ≠ Reg.AXC_CNT_PAR_DIRTY n)
    (he : a ≠ Reg.AXC_EVENT n) :
    rd a (faultNoted n tag addr left s) = rd a s := by
  unfold faultNoted
  rw [show ∀ f (u : State), rd a (updClus n f u) = rd a u from fun _ _ => rfl, rd_raiseEvent_ne _ _ _ _ _ (not_pbkRegs_of_aside ha.symm)
      (show a ≠ (Fl.AXC_EVENT_PAR_DIRTY n).addr from he),
    rd_cntAdd_ne _ _ _ _ _ hc, rd_fset_ne _ _ _ _ (show a ≠ (Fl.AXC_FAULT_ADDR_ADDR n).addr from hf),
        rd_fset_ne _ _ _ _ (show a ≠ (Fl.AXC_FAULT_ADDR_TAG n).addr from hf),
    rd_fset_ne _ _ _ _ (show a ≠ (Fl.AXC_FAULT_ADDR_VALID n).addr from hf)]

theorem faultNoted_keeps : Keeps 1048609 s (faultNoted n tag addr left s) :=
  updClus_keeps _ _ (raiseEvent_keeps _ _ _ (cntAdd_keeps _ _ _ (fset_keeps _ _ (fset_keeps _ _ (fset_keeps _ _ (Keeps.refl s) (Sub.refl _ |>.of rfl))
    (Sub.refl _ |>.of rfl)) (Sub.refl _ |>.of rfl)) (Sub.refl _ |>.of rfl)) (Sub.refl _ |>.of rfl)) (Sub.refl _ |>.of rfl)

theorem clusAt_faultNoted : clusAt n (faultNoted n tag addr left s) =
    { clusAt n s with faultsLife := Nat.min ((clusAt n s).faultsLife + 1) 0xFFFFFFFF, faults24 := (clusAt n s).faults24 - left + 1 } := by
  have hk : Keeps 33 s (s |> fset (Fl.AXC_FAULT_ADDR_VALID n) 1 |> fset (Fl.AXC_FAULT_ADDR_TAG n) tag
      |> fset (Fl.AXC_FAULT_ADDR_ADDR n) addr |> cntAdd (Reg.AXC_CNT_PAR_DIRTY n) 32 1 |> raiseEvent 0x0C n (Fl.AXC_EVENT_PAR_DIRTY n)) :=
    raiseEvent_keeps _ _ _ (cntAdd_keeps _ _ _ (fset_keeps _ _ (fset_keeps _ _ (fset_keeps _ _ (Keeps.refl s) (Sub.refl _ |>.of rfl))
      (Sub.refl _ |>.of rfl)) (Sub.refl _ |>.of rfl)) (Sub.refl _ |>.of rfl)) (Sub.refl _)
  unfold faultNoted
  rw [clusAt_updClus_self, clusAt_congr (hk.only.clus rfl)]

theorem faultNoted_event : fget (Fl.AXC_EVENT_PAR_DIRTY n) (faultNoted n tag addr left s) = 1 :=
  fget_raiseEvent_self _ _ _ _ (not_pbkRegs_of_aside (Or.inr (by simp only [Fl.AXC_EVENT_PAR_DIRTY, Reg.AXC_EVENT]; omega))) rfl
      (show 1 < 64 by decide)

/-- Another bit of a cluster's events stays. -/
theorem faultNoted_resetEvent : fget (Fl.AXC_EVENT_CLUSTER_RESET n) (faultNoted n tag addr left s) = fget (Fl.AXC_EVENT_CLUSTER_RESET n) s := by
  have hne {a : Nat} (ha : a = Reg.AXC_FAULT_ADDR n ∨ a = Reg.AXC_CNT_PAR_DIRTY n) : Reg.AXC_EVENT n ≠ a := by
    simp only [Reg.AXC_FAULT_ADDR, Reg.AXC_CNT_PAR_DIRTY] at ha
    simp only [Reg.AXC_EVENT]
    omega
  have hpbk : Reg.AXC_EVENT n ∉ pbkRegs := not_pbkRegs_of_aside (Or.inr (by simp only [Reg.AXC_EVENT]; omega))
  unfold faultNoted raiseEvent
  rw [show ∀ f g (u : State), fget g (updClus n f u) = fget g u from fun _ _ _ => rfl, fget_postmark _ _ _ _ _ hpbk,
      fget_fset_ne _ _ _ _ (Or.inr (Or.inl (show 1 + 1 ≤ 4 by decide)))]
  refine congrArg (extractField · 4 1) ?_
  change rd (Reg.AXC_EVENT n) _ = rd (Reg.AXC_EVENT n) s
  rw [rd_cntAdd_ne _ _ _ _ _ (hne (Or.inr rfl)), rd_fset_ne _ _ _ _ (hne (Or.inl rfl)), rd_fset_ne _ _ _ _ (hne (Or.inl rfl)),
      rd_fset_ne _ _ _ _ (hne (Or.inl rfl))]

/-- The address register names the fault. -/
theorem faultNoted_addr : fget (Fl.AXC_FAULT_ADDR_VALID n) (faultNoted n tag addr left s) = 1 ∧
    fget (Fl.AXC_FAULT_ADDR_TAG n) (faultNoted n tag addr left s) = tag % 2 ∧
    fget (Fl.AXC_FAULT_ADDR_ADDR n) (faultNoted n tag addr left s) = addr % 2 ^ 42 := by
  have hrd : rd (Reg.AXC_FAULT_ADDR n) (faultNoted n tag addr left s) = rd (Reg.AXC_FAULT_ADDR n)
      (s |> fset (Fl.AXC_FAULT_ADDR_VALID n) 1 |> fset (Fl.AXC_FAULT_ADDR_TAG n) tag |> fset (Fl.AXC_FAULT_ADDR_ADDR n) addr) := by
    have hpbk : Reg.AXC_FAULT_ADDR n ∉ pbkRegs := not_pbkRegs_of_aside (Or.inr (by simp only [Reg.AXC_FAULT_ADDR]; omega))
    unfold faultNoted
    rw [show ∀ f (u : State), rd (Reg.AXC_FAULT_ADDR n) (updClus n f u) = rd (Reg.AXC_FAULT_ADDR n) u from fun _ _ => rfl,
      rd_raiseEvent_ne _ _ _ _ _ hpbk (by simp only [Fl.AXC_EVENT_PAR_DIRTY, Reg.AXC_EVENT, Reg.AXC_FAULT_ADDR]; omega),
      rd_cntAdd_ne _ _ _ _ _ (by simp only [Reg.AXC_CNT_PAR_DIRTY, Reg.AXC_FAULT_ADDR]; omega)]
  refine ⟨(congrArg (extractField · 0 1) hrd).trans ?_, (congrArg (extractField · 1 1) hrd).trans ?_, (congrArg (extractField · 6 42) hrd).trans ?_⟩
  · change fget (Fl.AXC_FAULT_ADDR_VALID n) _ = 1
    rw [fget_fset_ne _ _ _ _ (Or.inr (Or.inr (show 0 + 1 ≤ 6 by decide))), fget_fset_ne _ _ _ _ (Or.inr (Or.inr (show 0 + 1 ≤ 1 by decide))),
      fget_fset_self _ _ _ (show 0 + 1 ≤ 64 by decide)]
    rfl
  · change fget (Fl.AXC_FAULT_ADDR_TAG n) _ = _
    rw [fget_fset_ne _ _ _ _ (Or.inr (Or.inr (show 1 + 1 ≤ 6 by decide))), fget_fset_self _ _ _ (show 1 + 1 ≤ 64 by decide)]
    rfl
  · exact fget_fset_self (Fl.AXC_FAULT_ADDR_ADDR n) _ _ (show 6 + 42 ≤ 64 by decide)

end

/-! ### The reset that follows a fault -/

theorem clusUp_congr {n : Nat} {s t : State} (hst : fget (Fl.AXC_STATUS_STATE n) t = fget (Fl.AXC_STATUS_STATE n) s)
    (hon : rd Reg.AON_PD_ON_LO t = rd Reg.AON_PD_ON_LO s) (hn : n < 8) : clusUp n t = clusUp n s := by
  unfold clusUp pdOn
  rw [if_pos (show 12 + n < 32 by omega), if_pos (show 12 + n < 32 by omega), hst, hon]

theorem clusUp_of_regs {n : Nat} {s t : State} (hr : t.regs = s.regs) : clusUp n t = clusUp n s := by
  have hrd (a : Nat) : rd a t = rd a s := rd_congr hr a
  unfold clusUp pdOn
  rw [hrd, hrd, show fget (Fl.AXC_STATUS_STATE n) t = fget (Fl.AXC_STATUS_STATE n) s from congrArg (extractField · 0 2) (hrd _)]

/-- The state in which a fault has ended executions and lost a line: as far as the reset goes it is the state before. -/
structure FaultBase (s u : State) : Prop where
  regs : u.regs = s.regs
  clus : u.clus = s.clus
  sch : u.sch = s.sch
  saved : u.prog.saved = s.prog.saved

/-- What the reset that follows a fault leaves with the fault noted. -/
structure FaultResets (n tag addr left : Nat) (s u t : State) : Prop where
  stays : faultRetires n t = t
  restarted : ClusRestarted n s t
  event : fget (Fl.AXC_EVENT_PAR_DIRTY n) t = 1
  valid : fget (Fl.AXC_FAULT_ADDR_VALID n) t = 1
  tagged : fget (Fl.AXC_FAULT_ADDR_TAG n) t = tag % 2
  addr : fget (Fl.AXC_FAULT_ADDR_ADDR n) t = addr % 2 ^ 42
  faults : (clusAt n t).faults24 = (clusAt n s).faults24 - left + 1
  execs : EndsKept u t
  ended : ∀ l ∈ lettersOn n s, s.sch.letters = [l] → LetterEnded 5 u l t
  mem : t.mem = u.mem
  dram : t.dram = u.dram

theorem fault_resets {n tag addr left : Nat} {s u : State} (h : clusUp n s = true) (hm : mode s ≠ 8) (hu : FaultBase s u)
    (hfew : (clusAt n s).faults24 - left < 2) :
    FaultResets n tag addr left s u (faultNoted n tag addr left (requestClusterReset n true u)) := by
  obtain ⟨hregs, hclus, hsch, hsaved⟩ := hu
  have hc : clusAt n u = clusAt n s := clusAt_congr hclus n
  have hletters : lettersOn n u = lettersOn n s := lettersOn_congr (by rw [hsch]) hsaved
  rw [request_now (by rw [mode_congr (rd_congr hregs _)]; exact hm)]
  have hl := reset_passes ((clusUp_of_regs hregs).trans h) 5
  have hk : Keeps 35393189 u (clusterResetWith n 5 true u) := clusterResetWith_keeps n 5 true (Keeps.refl u) (Sub.refl _)
  generalize clusterResetWith n 5 true u = r at hl hk ⊢
  obtain ⟨acc, hrec⟩ := hl.record
  have hk' := faultNoted_keeps n tag addr left r
  have hrec' := clusAt_faultNoted n tag addr left r
  have hfaults : (clusAt n (faultNoted n tag addr left r)).faults24 = (clusAt n s).faults24 - left + 1 := by
    rw [hrec', hrec, hc]
  obtain ⟨hvalid, htag, haddr⟩ := faultNoted_addr n tag addr left r
  have hres : ClusRestarted n s r := by
    obtain ⟨hf, hst, he, hup, hr⟩ := hl.restarted
    exact ⟨hf, hst, he, hup, by rw [← hc]; exact hr⟩
  have hidle : IdleKept r (faultNoted n tag addr left r) := IdleKept.of_keeps hk' rfl rfl
  refine
    { stays := if_neg (fun g => by rw [hfaults] at g; omega)
      restarted := hres.kept (hk'.only.cores rfl) (hk'.only.dirty rfl) (by rw [hrec']) (by rw [hrec']) (by rw [hrec']) (fun a ha => ?_)
        (faultNoted_resetEvent n tag addr left r)
      event := faultNoted_event n tag addr left r
      valid := hvalid
      tagged := htag
      addr := haddr
      faults := hfaults
      execs := hl.execs.trans hidle.1
      ended := fun l hon hone => (hl.ended l (hletters ▸ hon) (by rw [hsch]; exact hone)).kept hidle
      mem := (hk'.only.mem rfl).trans (hk.only.mem rfl)
      dram := (hk'.only.dram rfl).trans (hk.only.dram rfl) }
  simp only [List.mem_cons, List.not_mem_nil, or_false, Reg.AXC_CACHE_CTRL, Reg.AXC_LOCK_CTRL, Reg.AXC_STATUS] at ha
  exact rd_faultNoted n tag addr left r (Or.inl (by omega)) (by simp only [Reg.AXC_FAULT_ADDR]; omega) (by simp only [Reg.AXC_CNT_PAR_DIRTY]; omega)
    (by simp only [Reg.AXC_EVENT]; omega)

/-- The third fault retires the cluster, also while its reset waits in Commit. -/
theorem fault_retires {n tag addr left : Nat} {s u : State} (h : clusUp n s = true) (hu : FaultBase s u) (hmany : 2 ≤ (clusAt n s).faults24 - left) :
    ClusRetired n (faultRetires n (faultNoted n tag addr left (requestClusterReset n true u))) := by
  obtain ⟨hregs, hclus, hsch, hsaved⟩ := hu
  have hup : clusUp n u = true := (clusUp_of_regs hregs).trans h
  obtain ⟨hn, hon, -⟩ := clusUp_bound hup
  have hr : clusUp n (requestClusterReset n true u) = true ∧ (clusAt n (requestClusterReset n true u)).faults24 = (clusAt n s).faults24 := by
    rw [← clusAt_congr hclus n]
    by_cases hm : mode u = 8
    · rw [request_waits hup hm]
      exact ⟨(clusUp_of_regs rfl).trans hup, rfl⟩
    · rw [request_now hm]
      have hl := reset_passes hup 5
      obtain ⟨acc, hrec⟩ := hl.record
      refine ⟨?_, by rw [hrec]⟩
      unfold clusUp pdOn at *
      rw [if_pos (show 12 + n < 32 by omega)] at *
      rw [hl.on, hl.state, hon]
      simp [hn]
  generalize requestClusterReset n true u = r at hr ⊢
  obtain ⟨hrup, hfaults⟩ := hr
  have hstat : rd (Reg.AXC_STATUS n) (faultNoted n tag addr left r) = rd (Reg.AXC_STATUS n) r :=
    rd_faultNoted n tag addr left r (Or.inl (by simp only [Reg.AXC_STATUS]; omega)) (by simp only [Reg.AXC_STATUS, Reg.AXC_FAULT_ADDR]; omega)
      (by simp only [Reg.AXC_STATUS, Reg.AXC_CNT_PAR_DIRTY]; omega) (by simp only [Reg.AXC_STATUS, Reg.AXC_EVENT]; omega)
  have hpd : rd Reg.AON_PD_ON_LO (faultNoted n tag addr left r) = rd Reg.AON_PD_ON_LO r :=
    rd_faultNoted n tag addr left r (Or.inr (by decide)) (by simp only [Reg.AON_PD_ON_LO, Reg.AXC_FAULT_ADDR]; omega)
      (by simp only [Reg.AON_PD_ON_LO, Reg.AXC_CNT_PAR_DIRTY]; omega) (by simp only [Reg.AON_PD_ON_LO, Reg.AXC_EVENT]; omega)
  have hthird : faultRetires n (faultNoted n tag addr left r) = clusRetire n (faultNoted n tag addr left r) := by
    refine if_pos ⟨?_, (clusUp_congr (congrArg (extractField · 0 2) hstat) hpd hn).trans hrup⟩
    rw [clusAt_faultNoted, hfaults]
    exact Nat.succ_le_succ hmany
  rw [hthird]
  exact clusRetire_retired hn _

end Sys2Proof.Machine
end

section
/-! Rows DIRTY_FAULT and FILL_ERROR (R287, R289, R290). -/

namespace Sys2Proof.Machine

/-! ### The ERROR interrupts of a cluster -/

theorem coreAt_setSysField_ne {j k : Nat} (a lo w v : Nat) (s : State) (h : j ≠ k) : coreAt j (setSysField k a lo w v s) = coreAt j s :=
  coreAt_putSys_ne _ _ _ h

theorem sysField_congr {k : Nat} {s t : State} (h : coreAt k t = coreAt k s) (a lo w : Nat) : sysField k a lo w t = sysField k a lo w s := by
  unfold sysField sysAt
  rw [h]

theorem sysField_setSysField (k a lo w v : Nat) (s : State) (h : lo + w ≤ 64) : sysField k a lo w (setSysField k a lo w v s) = v % 2 ^ w := by
  unfold sysField setSysField
  rw [show sysAt k a (putSys k a (insertField (sysAt k a s) lo w v) s) = insertField (sysAt k a s) lo w v by
    unfold sysAt; rw [coreAt_putSys]; exact SMap.getD_put_self _ _ _ _]
  exact extractField_insertField_self _ _ _ _ h

theorem errorLine_shows {n i : Nat} (hi : i < 8) (s : State) : sysField (8 * n + i) 0x8A 3 1 (errorLine n s) = 1 := by
  have hupto (m : Nat) (him : i < m) : sysField (8 * n + i) 0x8A 3 1 (forN (fun i t => setSysField (8 * n + i) 0x8A 3 1 1 t) m s) = 1 := by
    induction m with
    | zero => omega
    | succ m ih =>
      by_cases he : i = m
      · subst he
        exact sysField_setSysField _ _ _ _ _ _ (by decide)
      · exact (sysField_congr (coreAt_setSysField_ne _ _ _ _ _ (by omega)) _ _ _).trans (ih (by omega))
  exact hupto 8 hi

section
variable {n : Nat} {s : State} (h : clusUp n s = true)
include h

/-! ### Clean lines -/

theorem dirtyFault_clean (left : Nat) (st : Bool) : Completes (.dirtyFault n .clean left st) s (fun t => fget (Fl.AXC_EVENT_PAR_CLEAN n) t = 1 ∧
    (∀ i, i < 8 → sysField (8 * n + i) 0x8A 3 1 t = 1) ∧ t.mem = s.mem ∧ t.dirty = s.dirty ∧
    (rd (Reg.AXC_CNT_PAR_CLEAN n) t).toNat = Nat.min ((rd (Reg.AXC_CNT_PAR_CLEAN n) s).toNat + 1) (2 ^ 32 - 1)) := by
  have hpbk {a : Nat} (ha : 0x44000000 ≤ a) : a ∉ pbkRegs := not_pbkRegs_of_aside (Or.inr ha)
  have hev : fget (Fl.AXC_EVENT_PAR_CLEAN n) (raiseEvent 0x0C n (Fl.AXC_EVENT_PAR_CLEAN n) (cntAdd (Reg.AXC_CNT_PAR_CLEAN n) 32 1 s)) = 1 :=
    fget_raiseEvent_self _ _ _ _ (hpbk (by simp only [Fl.AXC_EVENT_PAR_CLEAN, Reg.AXC_EVENT]; omega)) rfl (show 0 < 64 by decide)
  have hcnt : rd (Reg.AXC_CNT_PAR_CLEAN n) (raiseEvent 0x0C n (Fl.AXC_EVENT_PAR_CLEAN n) (cntAdd (Reg.AXC_CNT_PAR_CLEAN n) 32 1 s)) =
      rd (Reg.AXC_CNT_PAR_CLEAN n) (cntAdd (Reg.AXC_CNT_PAR_CLEAN n) 32 1 s) :=
    rd_raiseEvent_ne _ _ _ _ _ (hpbk (by simp only [Reg.AXC_CNT_PAR_CLEAN]; omega))
        (by simp only [Fl.AXC_EVENT_PAR_CLEAN, Reg.AXC_EVENT, Reg.AXC_CNT_PAR_CLEAN]; omega)
  have hk : Keeps 33 s (raiseEvent 0x0C n (Fl.AXC_EVENT_PAR_CLEAN n) (cntAdd (Reg.AXC_CNT_PAR_CLEAN n) 32 1 s)) :=
    raiseEvent_keeps _ _ _ (cntAdd_keeps _ _ _ (Keeps.refl s) (Sub.refl _ |>.of rfl)) (Sub.refl _)
  have hx : exec (.dirtyFault n .clean left st) s =
      .next (errorLine n (raiseEvent 0x0C n (Fl.AXC_EVENT_PAR_CLEAN n) (cntAdd (Reg.AXC_CNT_PAR_CLEAN n) 32 1 s))) := by
    change execDirtyFault n .clean left st s = _
    unfold execDirtyFault
    rw [if_neg (by rw [h]; decide)]
  generalize raiseEvent 0x0C n (Fl.AXC_EVENT_PAR_CLEAN n) (cntAdd (Reg.AXC_CNT_PAR_CLEAN n) 32 1 s) = u at hev hcnt hk hx
  have he : Keeps 524288 u (errorLine n u) := errorLine_keeps n (Keeps.refl u) (Sub.refl _)
  refine ⟨_, hx, ?_, fun i hi => errorLine_shows hi u, (he.only.mem rfl).trans (hk.only.mem rfl), (he.only.dirty rfl).trans (hk.only.dirty rfl), ?_⟩
  · exact (congrArg (extractField · 0 1) (rd_congr (he.only.regs rfl) _)).trans hev
  · rw [rd_congr (he.only.regs rfl), hcnt]
    exact cntAdd_toNat _ 32 1 (by decide) s

/-! ### Dirty lines and tags -/

theorem exec_dirtyFault_tag (left : Nat) (st : Bool) : exec (.dirtyFault n .tag left st) s = .next (faultRetires n (faultNoted n 1 0 left
    (requestClusterReset n st
      (forEach (fun e t => recordEnd e.1 5 0 0 0 t) (s.prog.execs.filter (fun e => (clusAt n s).funcs.contains e.2.func)) s)))) := by
  change execDirtyFault n .tag left st s = _
  unfold execDirtyFault
  rw [if_neg (by rw [h]; decide)]
  rfl

theorem exec_dirtyFault_data {l : Nat} {old : List Byte} (hl : SMap.find s.dirty l = some ⟨n, old⟩) (left : Nat) (st : Bool) :
    exec (.dirtyFault n (.data l) left st) s = .next (faultRetires n (faultNoted n 0 l left
      (requestClusterReset n st
        (forEach (fun e t => recordEnd e.1 5 0 0 0 t) (s.prog.execs.filter (fun e => execHolds e.2 (lineBase l) s)) (linePoisoned l s))))) := by
  have hline : (if (SMap.find s.dirty l).any (fun d => d.cluster == n) then some l else none) = some l := if_pos (by rw [hl]; simp)
  change execDirtyFault n (.data l) left st s = _
  unfold execDirtyFault
  rw [if_neg (by rw [h]; decide)]
  dsimp only
  rw [hline]
  rfl

end

end Sys2Proof.Machine
end

section
/-! Faults of dirty lines and tags (R289, R290). -/

namespace Sys2Proof.Machine

/-! ### Executions and lines of a fault -/

theorem find_of_mem_sorted {α : Type} {m : SMap α} (hs : SMap.sorted m = true) {e : Nat × α} (he : e ∈ m) : SMap.find m e.1 = some e.2 := by
  induction m with
  | nil => cases he
  | cons x m ih =>
    obtain ⟨k, v⟩ := x
    obtain ⟨hfirst, hrest⟩ := (SMap.sorted_cons k v m).mp hs
    rcases List.mem_cons.mp he with rfl | hmem
    · exact if_pos rfl
    · exact (if_neg (Nat.ne_of_gt (hfirst e hmem))).trans (ih hrest hmem)

theorem faultBase_ends {s u : State} (h : FaultBase s u) (es : List (Nat × Exec)) :
    FaultBase s (forEach (fun e t => recordEnd e.1 5 0 0 0 t) es u) := by
  obtain ⟨hregs, hclus, hsch, hsaved⟩ := h
  obtain ⟨hk, hsv⟩ := recordEnds_rest es u
  exact ⟨(hk.only.regs rfl).trans hregs, (hk.only.clus rfl).trans hclus, (hk.only.sch rfl).trans hsch, hsv.trans hsaved⟩

theorem linePoisoned_base (l : Nat) (s : State) : FaultBase s (linePoisoned l s) ∧ (linePoisoned l s).prog = s.prog := by
  have hk : Keeps 33554434 s (loseLine l s) := loseLine_keeps l (Keeps.refl s) (Sub.refl _)
  exact ⟨⟨hk.only.regs rfl, hk.only.clus rfl, hk.only.sch rfl, congrArg Progs.saved (hk.only.prog rfl)⟩, hk.only.prog rfl⟩

theorem linePoisoned_mem {l n : Nat} {old : List Byte} {s : State} (hl : SMap.find s.dirty l = some ⟨n, old⟩) :
    (linePoisoned l s).mem = (wrBytes (lineBase l) old s).mem := by
  change (loseLine l s).mem = _
  unfold loseLine
  rw [hl]

theorem linePoisoned_poison (l : Nat) (s : State) : l ∈ (linePoisoned l s).dram.poison := by
  change l ∈ (if s.dram.poison.contains l then s.dram.poison else l :: s.dram.poison)
  split
  · rename_i h
    exact List.contains_iff_mem.mp h
  · exact List.mem_cons_self

/-- Letters whose executions the fault has ended already have the fault's end too. -/
theorem FaultResets.clusEnded {n tag addr left : Nat} {s u t : State} (hr : FaultResets n tag addr left s u t)
    (hends : ∀ e x, SMap.find s.prog.execs e = some x → x.endWith = none → FaultEnds e u) : ClusEnded n 5 s t := by
  refine clusEnded_of (fun l hl hone => ?_)
  obtain ⟨hlast, hexec⟩ := hr.ended l hl hone
  refine ⟨hlast, fun x hx ho hn => ?_⟩
  obtain ⟨y, hy, hnone | hsome⟩ := hends _ x hx hn
  · exact hexec y hy ho hnone
  · exact hr.execs _ y _ hy hsome

section
variable {n : Nat} {s : State} (h : clusUp n s = true) (hm : mode s ≠ 8)
include h hm

theorem dirtyFault_data {l : Nat} {old : List Byte} {left : Nat} (hl : SMap.find s.dirty l = some ⟨n, old⟩) (hlen : old.length = 64)
    (hlt : l < 2 ^ 42)
    (hfew : (clusAt n s).faults24 - left < 2) :
    Completes (.dirtyFault n (.data l) left true) s (fun t => ClusRestarted n s t ∧ ClusEnded n 5 s t ∧ fget (Fl.AXC_EVENT_PAR_DIRTY n) t = 1 ∧
        l ∈ t.dram.poison ∧
      rdBytes (64 * l) 64 t = old ∧ (∀ a, a < 64 * l ∨ 64 * l + 64 ≤ a → rdByte a t = rdByte a s) ∧ fget (Fl.AXC_FAULT_ADDR_VALID n) t = 1 ∧
      fget (Fl.AXC_FAULT_ADDR_TAG n) t = 0 ∧ fget (Fl.AXC_FAULT_ADDR_ADDR n) t = l ∧ (clusAt n t).faults24 = (clusAt n s).faults24 - left + 1) := by
  obtain ⟨hbase, hprog⟩ := linePoisoned_base l s
  have hx := exec_dirtyFault_data h hl left true
  generalize s.prog.execs.filter (fun e => execHolds e.2 (lineBase l) s) = es at hx
  have hends (e : Nat) (x : Exec) (hfind : SMap.find s.prog.execs e = some x) (hn : x.endWith = none) :
      FaultEnds e (forEach (fun e t => recordEnd e.1 5 0 0 0 t) es (linePoisoned l s)) :=
    FaultEnds.recordedAll ⟨x, by rw [hprog]; exact hfind, Or.inl hn⟩ es
  have hr := fault_resets (tag := 0) (addr := l) (left := left) h hm (faultBase_ends hbase es) hfew
  obtain ⟨hk, -⟩ := recordEnds_rest es (linePoisoned l s)
  have hmem := (hr.mem.trans (hk.only.mem rfl)).trans (linePoisoned_mem hl)
  have hpoison : l ∈ (faultNoted n 0 l left
      (requestClusterReset n true (forEach (fun e t => recordEnd e.1 5 0 0 0 t) es (linePoisoned l s)))).dram.poison := by
    rw [hr.dram, hk.only.dram rfl]
    exact linePoisoned_poison l s
  generalize faultNoted n 0 l left (requestClusterReset n true (forEach (fun e t => recordEnd e.1 5 0 0 0 t) es (linePoisoned l s))) = t
    at hx hr hmem hpoison
  have hbyte (a : Nat) : rdByte a t = rdByte a (wrBytes (lineBase l) old s) := by
    unfold rdByte
    rw [hmem]
  refine ⟨t, by rw [hx, hr.stays], hr.restarted, hr.clusEnded hends, hr.event, hpoison, ?_, fun a ha => ?_, hr.valid, hr.tagged, ?_, hr.faults⟩
  · rw [rdBytes_eq, List.map_congr_left (fun i _ => hbyte (64 * l + i)), ← rdBytes_eq]
    exact (congrArg (rdBytes (64 * l) · (wrBytes (lineBase l) old s)) hlen.symm).trans (rdBytes_wrBytes (lineBase l) old s)
  · rw [hbyte]
    exact rdByte_wrBytes_out _ _ _ _ (by unfold lineBase; omega)
  · rw [hr.addr]
    exact Nat.mod_eq_of_lt hlt

theorem dirtyFault_tag {left : Nat} (hfew : (clusAt n s).faults24 - left < 2) :
    Completes (.dirtyFault n .tag left true) s (fun t => ClusRestarted n s t ∧ fget (Fl.AXC_EVENT_PAR_DIRTY n) t = 1 ∧
      fget (Fl.AXC_FAULT_ADDR_TAG n) t = 1 ∧ t.dram.poison = s.dram.poison ∧ t.mem = s.mem ∧
      ∀ e ∈ s.prog.execs, e.2.func ∈ (clusAt n s).funcs → e.2.endWith = none → SMap.sorted s.prog.execs = true →
        ∃ y, SMap.find t.prog.execs e.1 = some y ∧ y.endWith = some (5, 0)) := by
  have hx := exec_dirtyFault_tag h left true
  have hsel (e : Nat × Exec) (he : e ∈ s.prog.execs) (hf : e.2.func ∈ (clusAt n s).funcs) :
      e.1 ∈ (s.prog.execs.filter (fun e => (clusAt n s).funcs.contains e.2.func)).map (·.1) :=
    List.mem_map_of_mem (List.mem_filter.mpr ⟨he, List.contains_iff_mem.mpr hf⟩)
  generalize s.prog.execs.filter (fun e => (clusAt n s).funcs.contains e.2.func) = es at hx hsel
  have hr := fault_resets (tag := 1) (addr := 0) (left := left) h hm (faultBase_ends ⟨rfl, rfl, rfl, rfl⟩ es) hfew
  obtain ⟨hk, -⟩ := recordEnds_rest es s
  have hended (e : Nat × Exec) (he : e ∈ s.prog.execs) (hf : e.2.func ∈ (clusAt n s).funcs) (hn : e.2.endWith = none)
      (hs : SMap.sorted s.prog.execs = true) :
      FaultEnded e.1 (forEach (fun e t => recordEnd e.1 5 0 0 0 t) es s) :=
    FaultEnds.ended ⟨e.2, find_of_mem_sorted hs he, Or.inl hn⟩ (hsel e he hf)
  refine ⟨_, by rw [hx, hr.stays], hr.restarted, hr.event, hr.tagged, ?_, ?_, fun e he hf hn hs => (hended e he hf hn hs).kept hr.execs⟩
  · rw [hr.dram, hk.only.dram rfl]
  · rw [hr.mem, hk.only.mem rfl]

omit hm in
theorem dirtyFault_third {left : Nat} (hmany : 2 ≤ (clusAt n s).faults24 - left) : Completes (.dirtyFault n .tag left true) s (ClusRetired n) :=
  ⟨_, exec_dirtyFault_tag h left true, fault_retires h (faultBase_ends ⟨rfl, rfl, rfl, rfl⟩ _) hmany⟩

end

end Sys2Proof.Machine
end

section
/-! Fill errors and the trap of the core that fetched (R287), and statement O30. -/

namespace Sys2Proof.Machine

/-! ### A cluster's event register as cores trap and halt -/

theorem event_apart {n : Nat} (hn : n < 8) : ModeApart (Reg.AXC_EVENT n) := by
  refine ⟨?_, ?_, ?_, showsNoUnit_of (Or.inr (by unfold Reg.AXC_EVENT; omega))⟩ <;> revert n <;> decide

theorem event_notShown {n k : Nat} (hn : n < 8) (hk : k < 64) : Reg.AXC_EVENT n ∉ coreShows k := by
  unfold coreShows
  rw [if_pos hk]
  simp only [List.mem_append, List.mem_cons, List.not_mem_nil, or_false, not_or, Reg.AXC_CORE_STATUS, Reg.AXC_STATUS, Reg.AXC_CNT_INSTR,
      Reg.DBG_CORE_DSTATUS,
    Reg.DBG_HALTED_LO, Reg.DBG_HALTED_MID, Reg.DBG_HALTED_HI, Reg.AXC_EVENT]
  split <;> omega

/-- What a halt and the end of a step leave of a core. -/
def CoreStays (k : Nat) (s t : State) : Prop :=
  (coreAt k t).lvl = (coreAt k s).lvl ∧ (coreAt k t).pc = (coreAt k s).pc ∧ (coreAt k t).sys = (coreAt k s).sys

/-- A core is shown as halted and waits. -/
def haltShown (k cause index : Nat) (s : State) : State :=
  s |> fset (Fl.DBG_CORE_DSTATUS_HALTED k) 1 |> fset (Fl.DBG_CORE_DSTATUS_CAUSE k) cause |> fset (Fl.DBG_CORE_DSTATUS_INDEX k) index
    |> fset (Fl.DBG_PC_ADDR k) (coreAt k s).pc.toNat
    |> setCore k { coreAt k s with stepping := false, idle := false }
    |> updSch (fun z => { z with offered := z.offered.filter (· != k) })
    |> postmark 0x1380 0x13 [k, cause]

theorem haltCore_cases {k : Nat} {s : State} (h : (coreAt k s).ahead = none) (cause index : Nat) :
    haltCore k cause index s = s ∨ haltCore k cause index s = haltMode (haltShown k cause index s) := by
  unfold haltCore
  rw [h]
  split
  · exact Or.inl rfl
  · exact Or.inr rfl

theorem haltShown_core (k cause index : Nat) (s : State) :
    coreAt k (haltShown k cause index s) = { coreAt k s with stepping := false, idle := false } := by
  unfold haltShown
  rw [coreAt_congr ((postmark_keeps (M := 33) _ _ _ (Keeps.refl _) (Sub.refl _)).only.cores rfl),
    coreAt_congr ((updSch_keeps (M := 262144) _ (Keeps.refl _) (Sub.refl _)).only.cores rfl), coreAt_setCore]

theorem haltCore_stays {k : Nat} {s : State} (h : (coreAt k s).ahead = none) (cause index : Nat) : CoreStays k s (haltCore k cause index s) := by
  rcases haltCore_cases h cause index with he | he
  · rw [he]
    exact ⟨rfl, rfl, rfl⟩
  · have hk : Keeps 4194529 (haltShown k cause index s) (haltMode (haltShown k cause index s)) := haltMode_keeps (Keeps.refl _) (Sub.refl _)
    have hcore := (coreAt_congr (hk.only.cores rfl) k).trans (haltShown_core k cause index s)
    rw [he]
    generalize haltMode (haltShown k cause index s) = t at hcore
    unfold CoreStays
    rw [hcore]
    exact ⟨rfl, rfl, rfl⟩

theorem rd_event_haltShown {n k : Nat} (hn : n < 8) (hk : k < 64) (cause index : Nat) (s : State) :
    rd (Reg.AXC_EVENT n) (haltShown k cause index s) = rd (Reg.AXC_EVENT n) s := by
  have hstat : Reg.AXC_EVENT n ≠ Reg.DBG_CORE_DSTATUS k := by
    unfold Reg.AXC_EVENT Reg.DBG_CORE_DSTATUS
    omega
  have hpc : Reg.AXC_EVENT n ≠ Reg.DBG_PC k := by
    unfold Reg.AXC_EVENT Reg.DBG_PC
    omega
  have hset (c : Core) (u : State) : rd (Reg.AXC_EVENT n) (setCore k c u) = rd (Reg.AXC_EVENT n) u :=
      (rd_showCore k _ _ (event_notShown hn hk)).trans rfl
  unfold haltShown
  rw [rd_postmark _ _ _ _ _ (event_apart hn).recorder, show ∀ f (u : State), rd (Reg.AXC_EVENT n) (updSch f u) = rd (Reg.AXC_EVENT n) u from
      fun _ _ => rfl, hset,
    rd_fset_ne _ _ _ _ (show Reg.AXC_EVENT n ≠ (Fl.DBG_PC_ADDR k).addr from hpc),
        rd_fset_ne _ _ _ _ (show Reg.AXC_EVENT n ≠ (Fl.DBG_CORE_DSTATUS_INDEX k).addr from hstat),
    rd_fset_ne _ _ _ _ (show Reg.AXC_EVENT n ≠ (Fl.DBG_CORE_DSTATUS_CAUSE k).addr from hstat),
        rd_fset_ne _ _ _ _ (show Reg.AXC_EVENT n ≠ (Fl.DBG_CORE_DSTATUS_HALTED k).addr from hstat)]

/-- The end of a step leaves the core, though it may halt there, and the clusters' events. -/
theorem afterStep_stays {n k : Nat} (hn : n < 8) (hk : k < 64) {s : State} (h : (coreAt k s).ahead = none) :
    CoreStays k s (afterStep k s) ∧ rd (Reg.AXC_EVENT n) (afterStep k s) = rd (Reg.AXC_EVENT n) s := by
  have hput : coreAt k { s with cores := SMap.put s.cores k { coreAt k s with passBp := false } } = { coreAt k s with passBp := false } :=
      coreAt_put_self _ _ _
  have hrd : rd (Reg.AXC_EVENT n) { s with cores := SMap.put s.cores k { coreAt k s with passBp := false } } = rd (Reg.AXC_EVENT n) s := rfl
  unfold afterStep
  dsimp only
  generalize { s with cores := SMap.put s.cores k { coreAt k s with passBp := false } } = u at hput hrd
  have hu : CoreStays k s u := by
    unfold CoreStays
    rw [hput]
    exact ⟨rfl, rfl, rfl⟩
  have hahead : (coreAt k u).ahead = none := by
    rw [hput]
    exact h
  split
  · refine ⟨?_, ?_⟩
    · obtain ⟨hl, hp, hs⟩ := haltCore_stays hahead 3 0
      exact ⟨hl.trans hu.1, hp.trans hu.2.1, hs.trans hu.2.2⟩
    · rw [← hrd]
      rcases haltCore_cases hahead 3 0 with he | he
      · rw [he]
      · rw [he, rd_haltMode (event_apart hn), rd_event_haltShown hn hk]
  · refine ⟨?_, (rd_showCore k _ u (event_notShown hn hk)).trans hrd⟩
    unfold CoreStays
    rw [coreAt_showCore]
    exact hu

/-! ### The trap of the core that fetched -/

/-- A synchronous trap that does not lock the core enters its level. -/
theorem takeTrap_enters {k c : Nat} {w : Half} {faddr : Word} {s : State} (hf : TrapFree k s) :
    ∃ u, u.cores = s.cores ∧ u.regs = s.regs ∧
        takeTrap k c w faddr s = afterStep k (enterTrap k (trapLevel k s) (if Nested k s then 0x0F else c) false
      (coreAt k s).pc (if c ≤ 2 then 0 else w.setWidth 64) faddr u) := by
  have htoM : (!isCompute k || decide (1 ≤ (coreAt k s).lvl) || Nested k s) = (trapLevel k s == 2) := by
    unfold trapLevel
    by_cases d : (coreAt k s).lvl = 0
    · cases isCompute k <;> cases Nested k s <;> simp [d]
    · simp [d, Nat.one_le_iff_ne_zero.mpr d]
  have hlevel : (if (trapLevel k s == 2) = true then 2 else 1) = trapLevel k s := by
    have hcases : trapLevel k s = 1 ∨ trapLevel k s = 2 := by
      unfold trapLevel
      split
      · exact Or.inl rfl
      · exact Or.inr rfl
    rcases hcases with e | e <;> rw [e] <;> rfl
  have hno : (trapLevel k s == 2 && sysField k 0x80 6 1 s == 1) = false := by
    by_cases e : trapLevel k s = 2
    · simp [hf e]
    · simp [e]
  unfold takeTrap
  dsimp only
  generalize hu : (if (decide ((coreAt k s).lvl = 0) && !(c == 6 && decide (1 ≤ w.toNat % 1024) && decide (w.toNat % 1024 ≤ 12))) = true then
      (match execOfCore k s with
        | some e => recordEnd e 2 c faddr (coreAt k s).pc s
        | none => s)
    else s) = u
  refine ⟨u, ?_, ?_, ?_⟩
  · rw [← hu]
    repeat' split
    all_goals rfl
  · rw [← hu]
    repeat' split
    all_goals rfl
  · rw [show (isCompute k && decide ((coreAt k s).lvl < 2) && sysField k 0x40 6 1 s == 1) = Nested k s from rfl, htoM, hno, hlevel]
    rfl

/-- What a fill error's trap shows of the core. -/
theorem takeTrap_shows {n k c : Nat} (hn : n < 8) (hk : k < 64) {w : Half} {faddr : Word} {s : State} (hf : TrapFree k s)
    (ha : (coreAt k s).ahead = none) :
    rd (Reg.AXC_EVENT n) (takeTrap k c w faddr s) = rd (Reg.AXC_EVENT n) s ∧ (coreAt k (takeTrap k c w faddr s)).lvl = trapLevel k s ∧
    (coreAt k (takeTrap k c w faddr s)).pc = sysAt k (trapBase (trapLevel k s) + 1) s ∧
    sysAt k (trapBase (trapLevel k s) + 3) (takeTrap k c w faddr s) = BitVec.ofNat 64 (if Nested k s then 0x0F else c) ∧
    sysAt k (trapBase (trapLevel k s) + 5) (takeTrap k c w faddr s) = faddr := by
  obtain ⟨u, hcores, hregs, he⟩ := takeTrap_enters (c := c) (w := w) (faddr := faddr) hf
  rw [he]
  have hcore := enterTrap_core k (trapLevel k s) (if Nested k s then 0x0F else c) false (coreAt k s).pc (if c ≤ 2 then 0 else w.setWidth 64) faddr u
  have hev : rd (Reg.AXC_EVENT n) (enterTrap k (trapLevel k s) (if Nested k s then 0x0F else c) false (coreAt k s).pc
      (if c ≤ 2 then 0 else w.setWidth 64) faddr u) =
      rd (Reg.AXC_EVENT n) s := ((rd_showCore k _ _ (event_notShown hn hk)).trans rfl).trans (rd_congr hregs _)
  generalize enterTrap k (trapLevel k s) (if Nested k s then 0x0F else c) false (coreAt k s).pc (if c ≤ 2 then 0 else w.setWidth 64) faddr u = t
    at hcore hev
  have hu : coreAt k u = coreAt k s := coreAt_congr hcores k
  obtain ⟨⟨hlvl, hpc, hsys⟩, hrd⟩ := afterStep_stays hn hk (s := t) (by rw [hcore]; dsimp only; rw [hu]; exact ha)
  refine ⟨hrd.trans hev, by rw [hlvl, hcore], ?_, ?_, ?_⟩
  · rw [hpc, hcore]
    unfold sysAt
    rw [hu]
    simp
  · unfold sysAt
    rw [hsys, hcore]
    dsimp only
    rw [SMap.getD_put_ne _ _ _ (by omega), SMap.getD_put_ne _ _ _ (by omega), SMap.getD_put_self]
    rfl
  · unfold sysAt
    rw [hsys, hcore]
    exact SMap.getD_put_self _ _ _ _

/-! ### The row -/

/-- What an ERROR interrupt that becomes pending leaves of a core. -/
def PendStays (k : Nat) (s t : State) : Prop :=
  (coreAt k t).lvl = (coreAt k s).lvl ∧ (coreAt k t).ahead = (coreAt k s).ahead ∧ ∀ m, m ≠ 0x8A → sysAt k m t = sysAt k m s

theorem errorLine_pendStays (n k : Nat) (s : State) : PendStays k s (errorLine n s) := by
  have hupto (m : Nat) : PendStays k s (forN (fun i t => setSysField (8 * n + i) 0x8A 3 1 1 t) m s) := by
    induction m with
    | zero => exact ⟨rfl, rfl, fun _ _ => rfl⟩
    | succ m ih =>
      obtain ⟨hl, ha, hs⟩ := ih
      change PendStays k s (setSysField (8 * n + m) 0x8A 3 1 1 (forN (fun i t => setSysField (8 * n + i) 0x8A 3 1 1 t) m s))
      generalize forN (fun i t => setSysField (8 * n + i) 0x8A 3 1 1 t) m s = t at hl ha hs
      by_cases hk : k = 8 * n + m
      · subst hk
        have hcore := coreAt_putSys (8 * n + m) 0x8A (insertField (sysAt (8 * n + m) 0x8A t) 3 1 1) t
        unfold setSysField
        generalize insertField (sysAt (8 * n + m) 0x8A t) 3 1 1 = v at hcore ⊢
        refine ⟨by rw [hcore]; exact hl, by rw [hcore]; exact ha, fun r hr => ?_⟩
        rw [← hs r hr]
        unfold sysAt
        rw [hcore]
        exact SMap.getD_put_ne _ _ _ hr
      · have hcore := coreAt_setSysField_ne 0x8A 3 1 1 t hk
        refine ⟨by rw [hcore]; exact hl, by rw [hcore]; exact ha, fun r hr => ?_⟩
        rw [← hs r hr]
        unfold sysAt
        rw [hcore]
  exact hupto 8

theorem PendStays.nested {k : Nat} {s t : State} (h : PendStays k s t) : Nested k t = Nested k s := by
  obtain ⟨hl, -, hs⟩ := h
  unfold Nested sysField
  rw [hl, hs _ (by decide)]

theorem PendStays.trapLevel {k : Nat} {s t : State} (h : PendStays k s t) : Machine.trapLevel k t = Machine.trapLevel k s := by
  unfold Machine.trapLevel
  rw [h.1, h.nested]

theorem PendStays.trapFree {k : Nat} {s t : State} (h : PendStays k s t) (hf : TrapFree k s) : TrapFree k t := by
  intro hl
  unfold sysField
  rw [h.2.2 _ (by decide)]
  exact hf (h.trapLevel.symm.trans hl)

section
variable {n : Nat} {s : State} (h : clusUp n s = true)
include h

theorem exec_fillError_none : exec (.fillError n none) s = .next (errorLine n (raiseEvent 0x0C n (Fl.AXC_EVENT_FILL_ERR n) s)) := by
  change execFillError n none s = _
  unfold execFillError
  exact if_neg (by rw [h]; decide)

theorem exec_fillError_load {k : Nat} (hkn : k / 8 = n) (hruns : coreRuns k s = true) (w : Half) (a : Word) :
    exec (.fillError n (some (k, w, a))) s = .next (takeTrap k 0x0D w a (errorLine n (raiseEvent 0x0C n (Fl.AXC_EVENT_FILL_ERR n) s))) := by
  change execFillError n (some (k, w, a)) s = _
  unfold execFillError
  exact (if_neg (by rw [h]; decide)).trans (if_pos ⟨hkn, hruns⟩)

omit h in
theorem fillError_event (n : Nat) (s : State) :
    fget (Fl.AXC_EVENT_FILL_ERR n) (errorLine n (raiseEvent 0x0C n (Fl.AXC_EVENT_FILL_ERR n) s)) = 1 := by
  have hev : fget (Fl.AXC_EVENT_FILL_ERR n) (raiseEvent 0x0C n (Fl.AXC_EVENT_FILL_ERR n) s) = 1 :=
    fget_raiseEvent_self _ _ _ _ (not_pbkRegs_of_aside (Or.inr (by simp only [Fl.AXC_EVENT_FILL_ERR, Reg.AXC_EVENT]; omega))) rfl
        (show 2 < 64 by decide)
  generalize raiseEvent 0x0C n (Fl.AXC_EVENT_FILL_ERR n) s = u at hev ⊢
  have he : Keeps 524288 u (errorLine n u) := errorLine_keeps n (Keeps.refl u) (Sub.refl _)
  exact (congrArg (extractField · 2 1) (rd_congr (he.only.regs rfl) _)).trans hev

theorem fillError_none : Completes (.fillError n none) s (fun t => fget (Fl.AXC_EVENT_FILL_ERR n) t = 1 ∧
    (∀ i, i < 8 → sysField (8 * n + i) 0x8A 3 1 t = 1) ∧ t.mem = s.mem) := by
  refine ⟨_, exec_fillError_none h, fillError_event n s, fun i hi => errorLine_shows hi _, ?_⟩
  exact (errorLine_keeps (M := 524321) n (raiseEvent_keeps _ _ _ (Keeps.refl s) (Sub.refl _ |>.of rfl)) (Sub.refl _ |>.of rfl)).only.mem rfl

theorem fillError_load {k : Nat} {w : Half} {a : Word} (hkn : k / 8 = n) (hruns : coreRuns k s = true) (hf : TrapFree k s) :
    Completes (.fillError n (some (k, w, a))) s (fun t => fget (Fl.AXC_EVENT_FILL_ERR n) t = 1 ∧
      (coreAt k t).lvl = trapLevel k s ∧ (coreAt k t).pc = sysAt k (trapBase (trapLevel k s) + 1) s ∧
      sysAt k (trapBase (trapLevel k s) + 3) t = (if Nested k s then 0x0F else 0x0D) ∧ sysAt k (trapBase (trapLevel k s) + 5) t = a) := by
  obtain ⟨hn, -, -⟩ := clusUp_bound h
  have hahead : (coreAt k s).ahead = none := by
    unfold coreRuns at hruns
    simp only [Bool.and_eq_true] at hruns
    exact Option.isNone_iff_eq_none.mp hruns.2
  have hev := fillError_event n s
  have hr : Keeps 33 s (raiseEvent 0x0C n (Fl.AXC_EVENT_FILL_ERR n) s) := raiseEvent_keeps _ _ _ (Keeps.refl s) (Sub.refl _)
  have hraised : coreAt k (raiseEvent 0x0C n (Fl.AXC_EVENT_FILL_ERR n) s) = coreAt k s := coreAt_congr (hr.only.cores rfl) k
  have hline := errorLine_pendStays n k (raiseEvent 0x0C n (Fl.AXC_EVENT_FILL_ERR n) s)
  have hx := exec_fillError_load h hkn hruns w a
  generalize errorLine n (raiseEvent 0x0C n (Fl.AXC_EVENT_FILL_ERR n) s) = u at hev hline hx
  have hu : PendStays k s u := by
    obtain ⟨hl, ha, hs⟩ := hline
    exact ⟨by rw [hl, hraised], by rw [ha, hraised], fun m hm => by rw [hs m hm]; unfold sysAt; rw [hraised]⟩
  obtain ⟨hshown, hlvl, hpc, hcause, haddr⟩ := takeTrap_shows (c := 0x0D) (w := w) (faddr := a) hn (show k < 64 by omega) (hu.trapFree hf)
      (hu.2.1.trans hahead)
  rw [hu.trapLevel] at hlvl hpc hcause haddr
  rw [hu.nested] at hcause
  refine ⟨_, hx, (congrArg (extractField · 2 1) hshown).trans hev, hlvl, ?_, ?_, haddr⟩
  · rw [hpc]
    refine hu.2.2 _ ?_
    unfold trapBase
    split <;> decide
  · rw [hcause]
    split <;> rfl

end

/-! ### The statement -/

/-- Settles O30: what a cluster's reset clears and ends, what its retirement adds, and the rows that come to one of them. -/
theorem clusterFaults : Obligations.ClusterFaults := by
  intro s n h
  dsimp only
  refine ⟨fun hm => clusterReset_passes h hm, fun hm => clusterReset_fails h hm, fun hm st => clusterReset_waits h hm st,
      fun key req => clusterRetire_byFault h key req,
    fun req hreq => clusterRetire_byKey h hreq, fun key req hk hbad => clusterRetire_refused h hk hbad, fun left st => dirtyFault_clean h left st,
    fun l old left hm hl hlen hlt hfew => dirtyFault_data h hm hl hlen hlt hfew, fun left hm hfew => dirtyFault_tag h hm hfew,
    fun left hmany => dirtyFault_third h hmany, fillError_none h, fun k w a hk hruns hf => fillError_load h hk hruns hf, runtimeUpdate_begins h,
    fun hg hupd version hv => ⟨grace_starts h hupd hg hv, grace_fails h hupd hg⟩, fun hg _ version ok st => grace_none h hg version ok st⟩

end Sys2Proof.Machine
end

section
/-! Completions of a command that is ready (R93, R94): which completion queue they reach, and what else of the host's state and of the
management subsystem they leave. -/

namespace Sys2Proof.Machine

/-! ### Completion queues that no command answers to -/

/-- No command whose result waits is bound to completion queue `r` of controller `c`. -/
def NonePosts (c r : Nat) (s : State) : Prop :=
  ∀ y ∈ s.nv.cmds, ∀ q, y.ctrl = c → sqAt c y.sq s = some q → q.cq = r → y.result = none ∧ (y.kind = .flush → y.phase ≠ .started)

theorem cqAt_updCq_ne {c q d r : Nat} (f : Cq → Cq) (s : State) (h : d = c → r ≠ q) : cqAt d r (updCq c q f s) = cqAt d r s := by
  unfold cqAt updCq
  by_cases hd : d = c
  · subst hd
    rw [ctrlAt_updCtrl_self]
    cases ctrlAt d s with
    | none => rfl
    | some x => exact SMap_find_upd_ne _ _ (h rfl)
  · rw [ctrlAt_updCtrl_ne _ _ hd]

theorem postResult_cqAt {c r : Nat} {x : Cmd} {s : State} (h : ∀ q, x.ctrl = c → sqAt c x.sq s = some q → q.cq ≠ r) (e : Cqe) :
    cqAt c r (postResult x e s) = cqAt c r s := by
  unfold postResult
  split
  · rename_i q k hq _
    have hne : c = x.ctrl → r ≠ q.cq := fun hc => (h q hc.symm (hc ▸ hq)).symm
    split
    · refine (cqAt_congr (by rw [raiseEvent_nv]) c r).trans (cqAt_updCq_ne _ s hne)
    · exact (cqAt_congr (postEntry_nv x.ctrl q.cq e s).2.2 c r).trans (cqAt_updCq_ne _ s hne)
  · refine cqAt_congr ?_ c r
    change (if x.sq = 65535 then tunnelResult e.sct e.sc e.dw0 e.data s else s).nv.ctrls = s.nv.ctrls
    split
    · rw [tunnelResult_nv]
    · rfl

theorem postResult_cmds_sub (x : Cmd) (e : Cqe) (s : State) : ∀ y ∈ (postResult x e s).nv.cmds, y ∈ s.nv.cmds := by
  intro y hy
  unfold postResult at hy
  split at hy
  · split at hy
    · rwa [raiseEvent_nv] at hy
    · rw [← (postEntry_nv x.ctrl _ e s).1]
      exact (List.mem_filter.mp hy).1
  · have hmem := (List.mem_filter.mp hy).1
    split at hmem
    · rwa [tunnelResult_nv] at hmem
    · exact hmem

theorem settleOne_nonePosts {c r : Nat} {s : State} (h : NonePosts c r s) :
    cqAt c r (settleOne s) = cqAt c r s ∧ NonePosts c r (settleOne s) := by
  unfold settleOne
  split
  · rename_i x hx
    split
    · rename_i e he
      refine ⟨postResult_cqAt (fun q hc hq hr => ?_) e, fun y hy q hc hq hr => ?_⟩
      · obtain ⟨hnone, -⟩ := h x (List.mem_of_find?_eq_some hx) q hc hq hr
        rw [he] at hnone
        cases hnone
      · rw [(postResult_posts x e s).sqAt] at hq
        exact h y (postResult_cmds_sub x e s y hy) q hc hq hr
    · exact ⟨rfl, h⟩
  · split
    · rename_i x hx
      have hwaits := List.find?_some hx
      simp only [Bool.and_eq_true, beq_iff_eq] at hwaits
      obtain ⟨⟨⟨hkind, hphase⟩, -⟩, -⟩ := hwaits
      refine ⟨rfl, fun y hy q hc hq hr => ?_⟩
      obtain ⟨w, hw, rfl⟩ := List.mem_map.mp hy
      by_cases hwx : w.tag = x.tag
      · rw [if_pos hwx] at hc hq
        exact absurd hphase ((h x (List.mem_of_find?_eq_some hx) q hc hq hr).2 hkind)
      · rw [if_neg hwx] at hc hq ⊢
        exact h w hw q hc hq hr
    · exact ⟨rfl, h⟩

theorem settle_cqAt {c r : Nat} (n : Nat) {s : State} (h : NonePosts c r s) : cqAt c r (settle n s) = cqAt c r s := by
  induction n generalizing s with
  | zero => rfl
  | succ n ih =>
    unfold settle
    split
    · rfl
    · obtain ⟨hcq, hnone⟩ := settleOne_nonePosts h
      exact (ih hnone).trans hcq

theorem settleAll_cqAt {c r : Nat} {s : State} (h : NonePosts c r s) : cqAt c r (settleAll s) = cqAt c r s := by
  unfold settleAll
  rw [cqAt_congr (congrArg Nvme.ctrls (showTags_nv _)), cqAt_shutdownProgress, settle_cqAt _ h]

/-- The success of a command that is ready reaches no completion queue but the one its submission queue is bound to. -/
theorem Ready.completeOk_cqAt {tag r : Nat} {kinds : List CmdKind} {x : Cmd} {s : State} (h : Ready tag kinds x s)
    (hr : ∀ q, sqAt x.ctrl x.sq s = some q → q.cq ≠ r) : cqAt x.ctrl r (completeOk tag s) = cqAt x.ctrl r s := by
  obtain ⟨hcmd, -, hres, -, -, hothers, -⟩ := h
  change cqAt x.ctrl r (completeBoth tag 0 0 false 0 0 [] s) = _
  unfold completeBoth
  rw [hcmd]
  dsimp only
  rw [if_neg (by simp [hres]), if_pos ⟨rfl, rfl⟩]
  refine (settleAll_cqAt (fun y hy q _ hq hcq => ?_)).trans rfl
  obtain ⟨-, hall⟩ := setCmd_result ⟨x.sq, x.cid, 0, 0, false, 0, 0, []⟩ hcmd hothers
  rcases hall y hy with rfl | ⟨-, -, hnone, hph⟩
  · exact absurd hcq (hr q hq)
  · exact ⟨hnone, fun _ => by rw [hph]; decide⟩

/-! ### Answers after a change of the queues -/

/-- A command that is ready is answered after a change that leaves the commands, the two queues it answers by, and the mode. -/
theorem Ready.kept {tag : Nat} {kinds : List CmdKind} {x : Cmd} {s u : State} (h : Ready tag kinds x s) (hcmds : u.nv.cmds = s.nv.cmds)
    (hsq : sqAt x.ctrl x.sq u = sqAt x.ctrl x.sq s)
    (hcq : ∀ q, sqAt x.ctrl x.sq s = some q → cqAt x.ctrl q.cq u = cqAt x.ctrl q.cq s) (hm : mode u = mode s) : Ready tag kinds x u := by
  obtain ⟨hcmd, hph, hres, hkind, huniq, hothers, q, k, hq, hord, hmode, hk, hroom⟩ := h
  refine ⟨?_, hph, hres, hkind, hcmds ▸ huniq, hcmds ▸ hothers, q, k, hsq.trans hq, hord, hm ▸ hmode, (hcq q hq).trans hk, hroom⟩
  unfold cmdAt at hcmd ⊢
  rwa [hcmds]

theorem Answered.of_bound {x : Cmd} {sct sc dw0 dw1 : Nat} {dnr : Bool} {data : List Byte} {s u t : State}
    (h : Answered x sct sc dnr dw0 dw1 data u t) (hcmds : u.nv.cmds = s.nv.cmds) (hfreed : u.nv.freedTags = s.nv.freedTags)
    (hsq : sqAt x.ctrl x.sq u = sqAt x.ctrl x.sq s)
    (hcq : ∀ q, sqAt x.ctrl x.sq s = some q → cqAt x.ctrl q.cq u = cqAt x.ctrl q.cq s) : Answered x sct sc dnr dw0 dw1 data s t := by
  obtain ⟨hc, hf, q, k, hq, hk, hpost⟩ := h
  have hq' : sqAt x.ctrl x.sq s = some q := hsq.symm.trans hq
  exact ⟨hcmds ▸ hc, hfreed ▸ hf, q, k, hq', (hcq q hq').symm.trans hk, hpost⟩

end Sys2Proof.Machine
end

section
/-! I/O queues of a PCIe controller (R92, R104, R453), and statement O12. -/

namespace Sys2Proof.Machine

theorem pcieRow_of_ready {tag : Nat} {x : Cmd} {c : Ctrl} {s : State} (h : AdminReady tag x c s) (hf : c.fabric = false)
    (run : Cmd → Ctrl → State → State) : pcieRow tag run s = .next (run x c s) := by
  unfold pcieRow
  rw [adminRow_of_ready h, hf]
  rfl

section
variable {tag : Nat} {x : Cmd} {c : Ctrl} {s : State} (h : AdminReady tag x c s)
include h

theorem AdminReady.sqAt_eq (q : Nat) : sqAt x.ctrl q s = SMap.find c.sqs q := by
  unfold sqAt
  rw [h.2]
  rfl

theorem AdminReady.cqAt_eq (q : Nat) : cqAt x.ctrl q s = SMap.find c.cqs q := by
  unfold cqAt
  rw [h.2]
  rfl

/-- The command's own submission queue exists, and so does the completion queue that it is bound to. -/
theorem AdminReady.queues : ∃ q k, SMap.find c.sqs x.sq = some q ∧ SMap.find c.cqs q.cq = some k := by
  obtain ⟨-, -, -, -, -, -, q, k, hq, -, -, hk, -⟩ := h.1
  exact ⟨q, k, (h.sqAt_eq _).symm.trans hq, (h.cqAt_eq _).symm.trans hk⟩

/-- A change of the controller that leaves the two queues that the command answers by, and the command's success: the submission queues
are those of the change, and so are the completion queues but for the one that is answered by. -/
theorem AdminReady.changeQueues_ok {f : Ctrl → Ctrl} (hsq : SMap.find (f c).sqs x.sq = SMap.find c.sqs x.sq)
    (hcq : ∀ q, SMap.find c.sqs x.sq = some q → SMap.find (f c).cqs q.cq = SMap.find c.cqs q.cq) :
    Succeeded x s (completeOk tag (updCtrl x.ctrl f s)) ∧
      (∀ q, sqAt x.ctrl q (completeOk tag (updCtrl x.ctrl f s)) = SMap.find (f c).sqs q) ∧
      ∀ r, (∀ q, SMap.find c.sqs x.sq = some q → q.cq ≠ r) → cqAt x.ctrl r (completeOk tag (updCtrl x.ctrl f s)) = SMap.find (f c).cqs r := by
  have hctrl : ctrlAt x.ctrl (updCtrl x.ctrl f s) = some (f c) := by
    rw [ctrlAt_updCtrl_self, h.2]
    rfl
  have hsqs (q : Nat) : sqAt x.ctrl q (updCtrl x.ctrl f s) = SMap.find (f c).sqs q := by
    unfold sqAt
    rw [hctrl]
    rfl
  have hcqs (q : Nat) : cqAt x.ctrl q (updCtrl x.ctrl f s) = SMap.find (f c).cqs q := by
    unfold cqAt
    rw [hctrl]
    rfl
  have hsq' : sqAt x.ctrl x.sq (updCtrl x.ctrl f s) = sqAt x.ctrl x.sq s := by rw [hsqs, hsq, h.sqAt_eq]
  have hcq' (q : Sq) (hq : sqAt x.ctrl x.sq s = some q) : cqAt x.ctrl q.cq (updCtrl x.ctrl f s) = cqAt x.ctrl q.cq s := by
    rw [hcqs, h.cqAt_eq, hcq q ((h.sqAt_eq _).symm.trans hq)]
  have hready : Ready tag [.admin] x (updCtrl x.ctrl f s) := h.1.kept rfl hsq' hcq' rfl
  refine ⟨(completeBoth_answered hready).of_bound rfl rfl hsq' hcq', fun q => ?_, fun r hr => ?_⟩
  · exact ((completeBoth_posts tag 0 0 false [] _).sqAt _ _).trans (hsqs q)
  · refine (hready.completeOk_cqAt (fun q hq => hr q ?_)).trans (hcqs r)
    rw [← h.sqAt_eq, ← hsq', hq]

/-! ### Creation -/

theorem createSq_ok {qid size0 cq prio addr : Nat} (hf : c.fabric = false) (haddr : addr % c.mps = 0) (hq1 : 1 ≤ qid) (hq32 : qid ≤ 32)
    (hnew : SMap.find c.sqs qid = none) (hs1 : 1 ≤ size0) (hs2 : size0 ≤ 65535) (hc1 : 1 ≤ cq) (hc32 : cq ≤ 32)
    (hcq : (SMap.find c.cqs cq).isSome = true) (hquota : queuesUsed c.func false s = false) :
    Completes (.createIoSubmissionQueue tag qid size0 cq prio addr true) s (fun t => Succeeded x s t ∧
      sqAt x.ctrl qid t = some ⟨size0 + 1, 0, 0, cq, prio % 4, false, false, false⟩) := by
  refine ⟨_, (rfl : _ = execCreateIoSubmissionQueue tag qid size0 cq prio addr true s).trans (pcieRow_of_ready h hf _), ?_⟩
  dsimp only
  rw [if_neg (by simp [haddr]), if_neg (by rw [hnew]; simp; omega), if_neg (by omega), if_neg (by omega),
    if_neg (by simpa [Option.isSome_iff_ne_none] using hcq), hquota, if_neg (by simp)]
  obtain ⟨q, k, hq, -⟩ := h.queues
  have hne : x.sq ≠ qid := fun e => by rw [e, hnew] at hq; cases hq
  obtain ⟨hok, hsqs, -⟩ := h.changeQueues_ok (f := fun z => { z with
    sqs := SMap.put z.sqs qid ⟨size0 + 1, 0, 0, cq, prio % 4, false, false, false⟩ }) (SMap.find_put_ne _ _ hne) (fun _ _ => rfl)
  exact ⟨hok, (hsqs qid).trans (SMap.find_put_self _ _ _)⟩

theorem createSq_taken {qid size0 cq prio addr : Nat} (hf : c.fabric = false) (haddr : addr % c.mps = 0)
    (hbad : (SMap.find c.sqs qid).isSome = true ∨ 32 < qid) :
    Completes (.createIoSubmissionQueue tag qid size0 cq prio addr true) s (Failed x 1 0x01 true s) := by
  refine ⟨_, (rfl : _ = execCreateIoSubmissionQueue tag qid size0 cq prio addr true s).trans (pcieRow_of_ready h hf _), ?_⟩
  rw [if_neg (by simp [haddr]), if_pos (.inr hbad.symm)]
  exact completeBoth_answered h.1

theorem createCq_ok {qid size0 addr : Nat} {vector : Option Nat} (hf : c.fabric = false) (haddr : addr % c.mps = 0) (hq1 : 1 ≤ qid)
    (hq32 : qid ≤ 32) (hnew : SMap.find c.cqs qid = none) (hs1 : 1 ≤ size0) (hs2 : size0 ≤ 65535)
    (hvec : ∀ v, vector = some v → v < (resOf c.func s).vecs) (hquota : queuesUsed c.func true s = false) :
    Completes (.createIoCompletionQueue tag qid size0 addr true vector) s (fun t => Succeeded x s t ∧
      cqAt x.ctrl qid t = some ⟨size0 + 1, 0, 0, vector, [], []⟩) := by
  have hvec' : vector.any (fun v => decide ((resOf c.func s).vecs ≤ v)) = false := by
    cases vector with
    | none => rfl
    | some v => simpa using hvec v rfl
  refine ⟨_, (rfl : _ = execCreateIoCompletionQueue tag qid size0 addr true vector s).trans (pcieRow_of_ready h hf _), ?_⟩
  dsimp only
  rw [if_neg (by simp [haddr]), if_neg (by rw [hnew]; simp; omega), if_neg (by omega), hvec', if_neg (by simp), hquota, if_neg (by simp)]
  obtain ⟨q, k, hq, hk⟩ := h.queues
  have hne (r : Sq) (hr : SMap.find c.sqs x.sq = some r) : r.cq ≠ qid := by
    intro e
    cases hq.symm.trans hr
    rw [e, hnew] at hk
    cases hk
  obtain ⟨hok, -, hcqs⟩ := h.changeQueues_ok (f := fun z => { z with cqs := SMap.put z.cqs qid ⟨size0 + 1, 0, 0, vector, [], []⟩ })
    rfl (fun r hr => SMap.find_put_ne _ _ (hne r hr))
  exact ⟨hok, (hcqs qid hne).trans (SMap.find_put_self _ _ _)⟩

/-! ### Deletion -/

/-- A queue without commands is deleted and nothing else ends with it. -/
theorem deleteSq_ok {qid : Nat} {k : Sq} (hf : c.fabric = false) (hq1 : 1 ≤ qid) (hk : SMap.find c.sqs qid = some k) (hne : x.sq ≠ qid)
    (hidle : ∀ y ∈ s.nv.cmds, y.ctrl = x.ctrl → y.sq ≠ qid) :
    Completes (.deleteIoSubmissionQueue tag qid) s (fun t => Succeeded x s t ∧ sqAt x.ctrl qid t = none) := by
  have hmine : s.nv.cmds.filter (fun y => y.ctrl == x.ctrl && y.sq == qid) = [] := by
    rw [List.filter_eq_nil_iff]
    intro y hy
    simpa using hidle y hy
  have hexecs : abandonExecs (fun _ => false) s = s := by
    unfold abandonExecs
    rw [List.filter_false]
    rfl
  refine ⟨_, (rfl : _ = execDeleteIoSubmissionQueue tag qid s).trans (pcieRow_of_ready h hf _), ?_⟩
  dsimp only
  rw [if_neg (by rw [hk]; simp; omega), hmine]
  simp only [List.any_nil, List.filter_nil, hexecs, Bool.not_false, List.filter_true]
  obtain ⟨hok, hsqs, -⟩ := h.changeQueues_ok (f := fun z => { z with sqs := SMap.del z.sqs qid }) (SMap.find_del_ne _ hne) (fun _ _ => rfl)
  exact ⟨hok, (hsqs qid).trans (SMap.find_del_self _ _)⟩

theorem deleteCq_ok {qid : Nat} {k : Cq} (hf : c.fabric = false) (hq1 : 1 ≤ qid) (hk : SMap.find c.cqs qid = some k)
    (hfree : ∀ q ∈ c.sqs, q.2.cq ≠ qid) :
    Completes (.deleteIoCompletionQueue tag qid) s (fun t => Succeeded x s t ∧ cqAt x.ctrl qid t = none) := by
  refine ⟨_, (rfl : _ = execDeleteIoCompletionQueue tag qid s).trans (pcieRow_of_ready h hf _), ?_⟩
  dsimp only
  rw [if_neg (by rw [hk]; simp; omega), if_neg (by simpa using fun a b hab => hfree (a, b) hab)]
  have hne (r : Sq) (hr : SMap.find c.sqs x.sq = some r) : r.cq ≠ qid := hfree _ (mem_of_find hr)
  obtain ⟨hok, -, hcqs⟩ := h.changeQueues_ok (f := fun z => { z with cqs := SMap.del z.cqs qid }) rfl
    (fun r hr => SMap.find_del_ne _ (hne r hr))
  exact ⟨hok, (hcqs qid hne).trans (SMap.find_del_self _ _)⟩

theorem deleteCq_bound {qid : Nat} {k : Cq} (hf : c.fabric = false) (hq1 : 1 ≤ qid) (hk : SMap.find c.cqs qid = some k)
    (hbound : ∃ q ∈ c.sqs, q.2.cq = qid) : Completes (.deleteIoCompletionQueue tag qid) s (Failed x 1 0x0C true s) := by
  refine ⟨_, (rfl : _ = execDeleteIoCompletionQueue tag qid s).trans (pcieRow_of_ready h hf _), ?_⟩
  rw [if_neg (by rw [hk]; simp; omega), if_pos (by simpa using hbound)]
  exact completeBoth_answered h.1

end

/-- Settles O12: each row passes its checks in their order, and the queue it makes or deletes is not one that its own completion needs. -/
theorem adminQueues : Obligations.AdminQueues := by
  unfold Obligations.AdminQueues
  intro s tag x c h hf
  refine ⟨?createSq, ?createCq, ?taken, ?deleteSq, ?deleteCq⟩
  case createSq =>
    exact fun qid size0 cq prio addr ha hq1 hq32 hnew hs1 hs2 hc1 hc32 hcq hquota => createSq_ok h hf ha hq1 hq32 hnew hs1 hs2 hc1 hc32 hcq hquota
  case createCq => exact fun qid size0 addr v ha hq1 hq32 hnew hs1 hs2 hv hquota => createCq_ok h hf ha hq1 hq32 hnew hs1 hs2 hv hquota
  case taken => exact fun qid size0 cq prio addr _ hbad ha => createSq_taken h hf ha hbad
  case deleteSq => exact fun qid k hq1 hk hne hidle => deleteSq_ok h hf hq1 hk hne hidle
  case deleteCq => exact fun qid k hq1 hk => ⟨deleteCq_ok h hf hq1 hk, deleteCq_bound h hf hq1 hk⟩

end Sys2Proof.Machine
end

section
/-! What completions leave of the namespaces and of the management subsystem (R93, R471). -/

namespace Sys2Proof.Machine

/-- The management subsystem but for its messages, its interrupts and the results of tunnelled commands. -/
def Mgt.apart (m : Mgt) : Mgt := { m with outbox := [], ibis := [], ibiWait := 0, done := [] }

@[simp] theorem raiseEvent_mgt (g i : Nat) (f : Fld) (s : State) : (raiseEvent g i f s).mgt = s.mgt :=
  (raiseEvent_keeps g i f (Keeps.refl s) (Sub.refl 33)).only.mgt rfl

/-- Between `s` and `t` completions have been posted: the namespaces are as before, and so is the management subsystem but for its messages. -/
structure NsMgtKept (s t : State) : Prop where
  ns : t.nv.ns = s.nv.ns
  mgt : t.mgt.apart = s.mgt.apart

theorem NsMgtKept.refl (s : State) : NsMgtKept s s := ⟨rfl, rfl⟩

theorem NsMgtKept.trans {s t u : State} (h : NsMgtKept s t) (g : NsMgtKept t u) : NsMgtKept s u := ⟨g.ns.trans h.ns, g.mgt.trans h.mgt⟩

theorem tunnelResult_nsMgtKept (sct sc dw0 : Nat) (data : List Byte) (s : State) : NsMgtKept s (tunnelResult sct sc dw0 data s) := by
  refine ⟨by rw [tunnelResult_nv], ?_⟩
  unfold tunnelResult postMctp raiseIbi
  split
  · rfl
  · split <;> rfl

theorem postEntry_nsMgtKept (c q : Nat) (e : Cqe) (s : State) : NsMgtKept s (postEntry c q e s) := by
  unfold postEntry
  dsimp only
  split
  · exact ⟨rfl, rfl⟩
  · split
    · exact ⟨rfl, rfl⟩
    · unfold irqPend
      split <;> exact ⟨rfl, rfl⟩

theorem retireCmd_nsMgtKept (x : Cmd) (s : State) : NsMgtKept s (retireCmd x s) := ⟨rfl, rfl⟩

theorem setCmd_nsMgtKept (c : Cmd) (s : State) : NsMgtKept s (setCmd c s) := ⟨rfl, rfl⟩

theorem showTags_nsMgtKept (s : State) : NsMgtKept s (showTags s) := by
  rw [showTags_eq]
  exact ⟨rfl, rfl⟩

theorem shutdownProgress_nsMgtKept (s : State) : NsMgtKept s (shutdownProgress s) := ⟨rfl, rfl⟩

theorem postResult_nsMgtKept (x : Cmd) (e : Cqe) (s : State) : NsMgtKept s (postResult x e s) := by
  unfold postResult
  split
  · split
    · exact ⟨by rw [raiseEvent_nv]; rfl, by rw [raiseEvent_mgt]; rfl⟩
    · exact (postEntry_nsMgtKept x.ctrl _ e s).trans ⟨rfl, rfl⟩
  · split
    · exact (tunnelResult_nsMgtKept _ _ _ _ s).trans (retireCmd_nsMgtKept x _)
    · exact retireCmd_nsMgtKept x s

theorem settleOne_nsMgtKept (s : State) : NsMgtKept s (settleOne s) := by
  unfold settleOne
  split
  · split
    · exact postResult_nsMgtKept _ _ s
    · exact NsMgtKept.refl s
  · split
    · exact setCmd_nsMgtKept _ s
    · exact NsMgtKept.refl s

theorem settle_nsMgtKept (n : Nat) (s : State) : NsMgtKept s (settle n s) := by
  induction n generalizing s with
  | zero => exact NsMgtKept.refl s
  | succ n ih =>
    unfold settle
    split
    · exact NsMgtKept.refl s
    · exact (settleOne_nsMgtKept s).trans (ih _)

theorem settleAll_nsMgtKept (s : State) : NsMgtKept s (settleAll s) := by
  unfold settleAll
  exact ((settle_nsMgtKept _ s).trans (shutdownProgress_nsMgtKept _)).trans (showTags_nsMgtKept _)

theorem haltQueue_nsMgtKept (x : Cmd) (s : State) : NsMgtKept s (haltQueue x s) := by
  unfold haltQueue
  split
  · exact NsMgtKept.refl s
  · split <;> exact ⟨rfl, rfl⟩

theorem completeBoth_nsMgtKept (tag sct sc : Nat) (dnr : Bool) (dw0 dw1 : Nat) (data : List Byte) (s : State) :
    NsMgtKept s (completeBoth tag sct sc dnr dw0 dw1 data s) := by
  unfold completeBoth
  split
  · exact NsMgtKept.refl s
  · dsimp only
    split
    · exact NsMgtKept.refl s
    · split
      · exact (setCmd_nsMgtKept _ s).trans (settleAll_nsMgtKept _)
      · refine NsMgtKept.trans ?_ (settleAll_nsMgtKept _)
        refine NsMgtKept.trans ?_ (haltQueue_nsMgtKept _ _)
        exact ⟨rfl, rfl⟩

end Sys2Proof.Machine
end

section
/-! Reservations (R89): the rows on a namespace that the controller sees. -/

namespace Sys2Proof.Machine

/-- A command that is ready may have its row given. -/
theorem Ready.justFetched {tag : Nat} {kinds : List CmdKind} {x : Cmd} {s : State} (h : Ready tag kinds x s) :
    Machine.justFetched tag kinds s = some x := by
  obtain ⟨hcmd, hph, hres, hkind, -, -, q, k, -, hord, -⟩ := h
  unfold Machine.justFetched heldByFlush
  rw [hcmd]
  dsimp only
  rw [if_pos ⟨hph, by simp [hres], by simpa using hkind, by simp [hord]⟩]

theorem resvOf_updResv (nsid : Nat) (f : Resv → Resv) (s : State) : resvOf nsid (updResv nsid f s) = (resvOf nsid s).map f := by
  unfold resvOf nsAt updResv
  dsimp only
  rw [SMap_find_upd_self, Option.map_map, Option.map_map]
  rfl

theorem resvOf_congr {s t : State} (h : t.nv.ns = s.nv.ns) (nsid : Nat) : resvOf nsid t = resvOf nsid s := by
  unfold resvOf nsAt
  rw [h]

section
variable {tag : Nat} {x : Cmd} {n : Ns} {s : State} (h : ResvReady tag x n s)
include h

theorem ResvReady.resvOf : Machine.resvOf x.nsid s = some n.resv := by
  unfold Machine.resvOf
  rw [h.2.1]
  rfl

theorem ResvReady.row (run : Cmd → Resv → Nat → State → State) : resvRow tag run s = .next (run x n.resv (hostOf x.ctrl s) s) := by
  obtain ⟨hready, hns, hsees, hcsi, hmode⟩ := h
  unfold resvRow
  rw [hready.justFetched]
  dsimp only
  rw [hns]
  dsimp only
  rw [if_neg (by simp [hsees, hcsi]), if_neg hmode]

/-- The reservation has changed and the command succeeds. -/
theorem ResvReady.succeeds {u : State} {r : Resv} (hns : u = { s with nv := { s.nv with ns := u.nv.ns } })
    (hr : Machine.resvOf x.nsid u = some r) : Succeeded x s (completeOk tag u) ∧ Machine.resvOf x.nsid (completeOk tag u) = some r := by
  refine ⟨?_, (resvOf_congr (completeBoth_nsMgtKept tag 0 0 false 0 0 [] u).ns _).trans hr⟩
  rw [hns]
  exact completeBoth_answered_after h.1 rfl rfl rfl (fun _ => rfl) id

theorem ResvReady.conflicts : Failed x 0 0x83 false s (conflict tag s) ∧ Machine.resvOf x.nsid (conflict tag s) = some n.resv :=
  ⟨completeBoth_answered h.1, (resvOf_congr (completeBoth_nsMgtKept tag 0 0x83 false 0 0 [] s).ns _).trans h.resvOf⟩

theorem reservationRegister_new {iekey : Bool} {crkey nrkey : Nat} (hkey : n.resv.keyOf (hostOf x.ctrl s) = none) :
    Completes (.reservationRegister tag 0 iekey 0 crkey nrkey) s (fun t => Succeeded x s t ∧ resvOf x.nsid t = some
      { n.resv with regs := n.resv.regs ++ [(hostOf x.ctrl s, nrkey)], gen := (n.resv.gen + 1) % 2 ^ 32 }) := by
  refine ⟨_, (rfl : _ = execReservationRegister tag 0 iekey 0 crkey nrkey s).trans (h.row _), ?_⟩
  dsimp only
  rw [if_neg (by decide), hkey]
  dsimp only
  rw [if_pos rfl, if_neg (by decide)]
  refine h.succeeds rfl ?_
  rw [resvOf_updResv, resvOf_updResv, h.resvOf]
  rfl

theorem reservationRegister_other {iekey : Bool} {crkey nrkey k : Nat} (hkey : n.resv.keyOf (hostOf x.ctrl s) = some k) (hne : k ≠ nrkey) :
    Completes (.reservationRegister tag 0 iekey 0 crkey nrkey) s (fun t => Failed x 0 0x83 false s t ∧ resvOf x.nsid t = some n.resv) := by
  refine ⟨_, (rfl : _ = execReservationRegister tag 0 iekey 0 crkey nrkey s).trans (h.row _), ?_⟩
  dsimp only
  rw [if_neg (by decide), hkey]
  dsimp only
  rw [if_pos rfl, if_neg hne]
  exact h.conflicts

theorem reservationAcquire_free {key prkey rtype : Nat} (hkey : n.resv.keyOf (hostOf x.ctrl s) = some key) (hfree : n.resv.holder = none)
    (h1 : 1 ≤ rtype) (h6 : rtype ≤ 6) : Completes (.reservationAcquire tag 0 false rtype key prkey) s (fun t => Succeeded x s t ∧
      resvOf x.nsid t = some { n.resv with holder := some (hostOf x.ctrl s), rtype := rtype }) := by
  refine ⟨_, (rfl : _ = execReservationAcquire tag 0 false rtype key prkey s).trans (h.row _), ?_⟩
  dsimp only
  rw [if_neg (by simp; omega), if_neg (by simp [hkey]), if_pos rfl, hfree, if_neg (by simp)]
  refine h.succeeds rfl ?_
  rw [resvOf_updResv, h.resvOf]
  rfl

theorem reservationAcquire_held {key prkey rtype g : Nat} (hkey : n.resv.keyOf (hostOf x.ctrl s) = some key) (hheld : n.resv.holder = some g)
    (hother : n.resv.heldBy (hostOf x.ctrl s) = false) (h1 : 1 ≤ rtype) (h6 : rtype ≤ 6) :
    Completes (.reservationAcquire tag 0 false rtype key prkey) s (fun t => Failed x 0 0x83 false s t ∧ resvOf x.nsid t = some n.resv) := by
  refine ⟨_, (rfl : _ = execReservationAcquire tag 0 false rtype key prkey s).trans (h.row _), ?_⟩
  dsimp only
  rw [if_neg (by simp; omega), if_neg (by simp [hkey]), if_pos rfl, hheld, hother, if_pos (by simp), if_neg (by simp)]
  exact h.conflicts

/-- Release of a type that no other registrant shares: nobody is notified. -/
theorem reservationRelease_own {key : Nat} (hkey : n.resv.keyOf (hostOf x.ctrl s) = some key) (hown : n.resv.heldBy (hostOf x.ctrl s) = true)
    (htype : n.resv.rtype = 1 ∨ n.resv.rtype = 2) : Completes (.reservationRelease tag 0 false n.resv.rtype key) s (fun t => Succeeded x s t ∧
      resvOf x.nsid t = some { n.resv with holder := none, rtype := 0 }) := by
  refine ⟨_, (rfl : _ = execReservationRelease tag 0 false n.resv.rtype key s).trans (h.row _), ?_⟩
  dsimp only
  unfold releaseResv
  dsimp only
  rw [if_neg (by simp), if_neg (by simp [hkey]), if_neg (by decide), if_neg (by simp [hown]), if_neg (by simp), if_neg (by omega)]
  refine h.succeeds rfl ?_
  rw [resvOf_updResv, h.resvOf]
  rfl

theorem reservationReport_returned (dwords : Nat) (eds : Bool) : Completes (.reservationReport tag dwords eds) s
    (Returned x ((resvStatus x.nsid n.resv eds s).take (4 * dwords)) s) :=
  ⟨_, (rfl : _ = execReservationReport tag dwords eds s).trans (h.row _), completeBoth_answered h.1⟩

end

end Sys2Proof.Machine
end

section
/-! Abort and Asynchronous Event Request (R89, R109), and statement O10. -/

namespace Sys2Proof.Machine

/-! ### A command that is replaced, beside the others -/

/-- What does not ask for the command that is replaced selects the same commands as before. -/
theorem filter_setCmd_of {c : Cmd} {p : Cmd → Bool} (hp : ∀ y, y.tag = c.tag → p y = false) (s : State) :
    (setCmd c s).nv.cmds.filter p = s.nv.cmds.filter p := by
  have hpart (l : List Cmd) : l.filter p = (l.filter (fun y => y.tag != c.tag)).filter p := by
    rw [List.filter_filter]
    refine List.filter_congr (fun y _ => ?_)
    by_cases hy : y.tag = c.tag
    · simp [hp y hy]
    · simp [hy]
  rw [hpart, filter_setCmd, ← hpart]

theorem find_setCmd_of {c : Cmd} {p : Cmd → Bool} (hp : ∀ y, y.tag = c.tag → p y = false) (s : State) :
    (setCmd c s).nv.cmds.find? p = s.nv.cmds.find? p := by
  rw [← List.head?_filter, ← List.head?_filter, filter_setCmd_of hp]

/-- A command is ready beside another one that is replaced and still waits for its row. -/
theorem Ready.setCmd_other {tag : Nat} {kinds : List CmdKind} {x y : Cmd} {s : State} (h : Ready tag kinds y s) (hne : tag ≠ x.tag)
    (hres : x.result = none) (hph : x.phase = .fetched) : Ready tag kinds y (setCmd x s) := by
  obtain ⟨hcmd, hyph, hyres, hkind, huniq, hothers, hqueues⟩ := h
  refine ⟨(find_setCmd_of (fun z hz => by simp [hz, Ne.symm hne]) s).trans hcmd, hyph, hyres, hkind, ?_, ?_, hqueues⟩
  · intro z hz hzt
    obtain ⟨w, hw, rfl⟩ := List.mem_map.mp hz
    by_cases hwx : w.tag = x.tag
    · rw [if_pos hwx] at hzt
      exact absurd hzt.symm hne
    · rw [if_neg hwx] at hzt ⊢
      exact huniq w hw hzt
  · intro z hz hzt
    obtain ⟨w, hw, rfl⟩ := List.mem_map.mp hz
    by_cases hwx : w.tag = x.tag
    · rw [if_pos hwx]
      exact ⟨hres, hph⟩
    · rw [if_neg hwx] at hzt ⊢
      exact hothers w hw hzt

theorem NoNewCmds.gone {s t : State} (h : NoNewCmds s t) {tag : Nat} (hs : cmdAt tag s = none) : cmdAt tag t = none := by
  unfold cmdAt at hs ⊢
  rw [List.find?_eq_none] at hs ⊢
  intro y hy hyt
  obtain ⟨x, hx, hxt, -⟩ := h y hy
  exact hs x hx (by rw [hxt]; exact hyt)

theorem endWrite_gone {tag : Nat} {kinds : List CmdKind} {x : Cmd} {s : State} (h : Ready tag kinds x s) (sct sc : Nat) (dnr : Bool) :
    cmdAt tag (endWrite tag sct sc dnr s) = none := by
  have hans : Answered x sct sc dnr 0 0 [] s (complete tag sct sc dnr 0 [] s) := completeBoth_answered h
  exact (hostKept_goesOn.applyLanded _ _).2.gone (hans.gone (cmdAt_mem h.1).2)

/-! ### Abort -/

/-- The state in which the Abort `x` has counted itself. -/
def aborting (x : Cmd) (s : State) : State := setCmd { x with abort := true } s

/-- The command `tag` of controller `c` waits neither for a program nor for an event any more. -/
def withdrawn (c tag : Nat) (s : State) : State :=
  updCtrl c (fun k => { k with aers := k.aers.filter (· != tag) })
    { s with prog := { s.prog with waiting := s.prog.waiting.filter (fun w => w.1 != tag) } }

theorem withdrawn_sqAt (c tag d q : Nat) (s : State) : sqAt d q (withdrawn c tag s) = sqAt d q s :=
  sqAt_updCtrl_of (f := fun k => { k with aers := k.aers.filter (· != tag) }) (fun _ => rfl) _

theorem withdrawn_cqAt (c tag d q : Nat) (s : State) : cqAt d q (withdrawn c tag s) = cqAt d q s :=
  cqAt_updCtrl_of (f := fun k => { k with aers := k.aers.filter (· != tag) }) (fun _ => rfl) _

theorem Ready.withdrawn {tag c d : Nat} {kinds : List CmdKind} {y : Cmd} {s : State} (h : Ready tag kinds y s) :
    Ready tag kinds y (Machine.withdrawn c d s) :=
  h.kept rfl (withdrawn_sqAt c d _ _ s) (fun _ _ => withdrawn_cqAt c d _ _ s) rfl

section
variable {tag : Nat} {x : Cmd} {s : State} (h : Ready tag [.admin] x s)
include h

/-- The Aborts beside the one that has counted itself. -/
theorem aborting_others : (aborting x s).nv.cmds.filter (fun y => y.ctrl == x.ctrl && y.abort && y.tag != tag) =
    s.nv.cmds.filter (fun y => y.ctrl == x.ctrl && y.abort && y.tag != tag) :=
  filter_setCmd_of (fun y hy => by simp [hy.trans (cmdAt_mem h.1).2]) s

theorem aborting_named (sqid cid : Nat) :
    (aborting x s).nv.cmds.find? (fun y => y.ctrl == x.ctrl && y.sq == sqid && y.cid == cid && y.tag != tag) =
      s.nv.cmds.find? (fun y => y.ctrl == x.ctrl && y.sq == sqid && y.cid == cid && y.tag != tag) :=
  find_setCmd_of (fun y hy => by simp [hy.trans (cmdAt_mem h.1).2]) s

theorem execAbort_notFound {sqid cid : Nat}
    (hlimit : (s.nv.cmds.filter (fun y => y.ctrl == x.ctrl && y.abort && y.tag != tag)).length < 8)
    (hfind : s.nv.cmds.find? (fun y => y.ctrl == x.ctrl && y.sq == sqid && y.cid == cid && y.tag != tag) = none) :
    execAbort tag sqid cid s = .next (completeDw tag 1 (aborting x s)) := by
  have hcount := aborting_others h
  have hnamed := (aborting_named h sqid cid).trans hfind
  unfold aborting at hcount hnamed ⊢
  unfold execAbort
  rw [h.justFetched]
  dsimp only
  rw [hcount, if_neg (by omega), hnamed]

/-- A command that no program executes and that has not started ends before the Abort is answered. -/
theorem execAbort_open {sqid cid : Nat} {y : Cmd}
    (hlimit : (s.nv.cmds.filter (fun y => y.ctrl == x.ctrl && y.abort && y.tag != tag)).length < 8)
    (hfind : s.nv.cmds.find? (fun y => y.ctrl == x.ctrl && y.sq == sqid && y.cid == cid && y.tag != tag) = some y)
    (hidle : s.prog.execs.find? (fun e => e.2.tag == y.tag) = none) (hopen : notStarted y = true) :
    execAbort tag sqid cid s = .next (completeDw tag 0 (endWrite y.tag 0 0x07 false (withdrawn x.ctrl y.tag (aborting x s)))) := by
  have hcount := aborting_others h
  have hnamed := (aborting_named h sqid cid).trans hfind
  have hidle' : (aborting x s).prog.execs.find? (fun e => e.2.tag == y.tag) = none := hidle
  unfold aborting at hcount hnamed hidle' ⊢
  unfold execAbort
  rw [h.justFetched]
  dsimp only
  rw [hcount, if_neg (by omega), hnamed]
  dsimp only
  rw [hidle']
  dsimp only
  rw [if_pos hopen]
  rfl

theorem abort_notFound {sqid cid : Nat} (hlimit : (s.nv.cmds.filter (fun y => y.ctrl == x.ctrl && y.abort && y.tag != tag)).length < 8)
    (hnone : ∀ y ∈ s.nv.cmds, y.tag ≠ tag → ¬ (y.ctrl = x.ctrl ∧ y.sq = sqid ∧ y.cid = cid)) :
    Completes (.abort tag sqid cid) s (Answered x 0 0 false 1 0 [] s) := by
  have hfind : s.nv.cmds.find? (fun y => y.ctrl == x.ctrl && y.sq == sqid && y.cid == cid && y.tag != tag) = none := by
    rw [List.find?_eq_none]
    intro y hy hp
    simp only [Bool.and_eq_true, beq_iff_eq, bne_iff_ne] at hp
    obtain ⟨⟨⟨hc, hs⟩, hi⟩, ht⟩ := hp
    exact hnone y hy ht ⟨hc, hs, hi⟩
  have hmarked : Ready tag [.admin] { x with abort := true } (aborting x s) :=
    InPhase.setCmd h ⟨rfl, h.2.1, h.2.2.1, rfl, rfl, rfl, rfl⟩
  obtain ⟨hcmds, hfreed, hpost⟩ := completeBoth_answered (sct := 0) (sc := 0) (dnr := false) (dw0 := 1) (dw1 := 0) (data := []) hmarked
  exact ⟨completeDw tag 1 (aborting x s), execAbort_notFound h hlimit hfind, hcmds.trans (filter_setCmd { x with abort := true } s), hfreed, hpost⟩

theorem abort_ends {sqid cid : Nat} {y : Cmd} (hlimit : (s.nv.cmds.filter (fun y => y.ctrl == x.ctrl && y.abort && y.tag != tag)).length < 8)
    (hne : y.tag ≠ tag) (hy : Ready y.tag [.read, .write, .flush, .dealloc] y s) (hmedia : y.media = false)
    (hnamed : y.ctrl = x.ctrl ∧ y.sq = sqid ∧ y.cid = cid)
    (hone : ∀ z ∈ s.nv.cmds, z.tag ≠ tag → z.ctrl = x.ctrl → z.sq = sqid → z.cid = cid → z = y)
    (hexecs : ∀ e ∈ s.prog.execs, e.2.tag ≠ y.tag) : Completes (.abort tag sqid cid) s (fun t => cmdAt y.tag t = none) := by
  have hfind : s.nv.cmds.find? (fun y => y.ctrl == x.ctrl && y.sq == sqid && y.cid == cid && y.tag != tag) = some y := by
    obtain ⟨hc, hs, hi⟩ := hnamed
    refine find_unique (cmdAt_mem hy.1).1 (by simp [hc, hs, hi, hne]) (fun z hz hp => ?_)
    simp only [Bool.and_eq_true, beq_iff_eq, bne_iff_ne] at hp
    obtain ⟨⟨⟨hzc, hzs⟩, hzi⟩, hzt⟩ := hp
    exact hone z hz hzt hzc hzs hzi
  have hidle : s.prog.execs.find? (fun e => e.2.tag == y.tag) = none := by
    rw [List.find?_eq_none]
    intro e he
    simpa using hexecs e he
  have hopen : notStarted y = true := by
    obtain ⟨-, -, hres, hkind, -⟩ := hy
    unfold notStarted
    simp only [List.mem_cons, List.not_mem_nil, or_false] at hkind
    rcases hkind with hk | hk | hk | hk <;> simp [hk, hres, hmedia]
  have htag : x.tag = tag := (cmdAt_mem h.1).2
  have hmarked : Ready y.tag [.read, .write, .flush, .dealloc] y (aborting x s) :=
    hy.setCmd_other (by rw [← htag] at hne; exact hne) h.2.2.1 h.2.1
  exact ⟨_, execAbort_open h hlimit hfind hidle hopen,
    (completeBoth_hostKept tag 0 0 false 0 0 [] _).2.gone (endWrite_gone hmarked.withdrawn 0 0x07 false)⟩

end

/-! ### Asynchronous Event Request -/

/-- No event is delivered while none waits. -/
theorem deliverAens_empty {s : State} (h : s.nv.aens = []) (n : Nat) : deliverAens n s = s := by
  cases n with
  | zero => rfl
  | succ n =>
    unfold deliverAens
    rw [h]
    rfl

theorem eventRequest_held {tag : Nat} {x : Cmd} {c : Ctrl} {s : State} (h : AdminReady tag x c s) (hnew : c.aers.contains tag = false)
    (hroom : c.aers.length < 16) (hnone : s.nv.aens = []) : Completes (.asynchronousEventRequest tag) s (fun t =>
      ctrlAt x.ctrl t = some { c with aers := c.aers ++ [tag] } ∧ cmdAt tag t = some { x with phase := .held }) := by
  refine ⟨setCmd { x with phase := .held } (updCtrl x.ctrl (fun c => { c with aers := c.aers ++ [tag] }) s), ?_, ?_, ?_⟩
  · change execAsynchronousEventRequest tag s = _
    unfold execAsynchronousEventRequest
    rw [h.1.justFetched]
    dsimp only
    rw [h.2]
    dsimp only
    rw [hnew, if_neg (by simp), if_neg (by omega)]
    exact congrArg Host.Outcome.next (deliverAens_empty (by exact hnone) _)
  · refine (ctrlAt_congr rfl x.ctrl).trans ((ctrlAt_updCtrl_self x.ctrl _ s).trans ?_)
    rw [h.2]
    rfl
  · exact cmdAt_setCmd (x := x) h.1.1 h.tag_eq

theorem eventRequest_tooMany {tag : Nat} {x : Cmd} {c : Ctrl} {s : State} (h : AdminReady tag x c s) (hnew : c.aers.contains tag = false)
    (hfull : 16 ≤ c.aers.length) : Completes (.asynchronousEventRequest tag) s (Failed x 1 5 true s) := by
  refine ⟨complete tag 1 0x05 true 0 [] s, ?_, completeBoth_answered h.1⟩
  change execAsynchronousEventRequest tag s = _
  unfold execAsynchronousEventRequest
  rw [h.1.justFetched]
  dsimp only
  rw [h.2]
  dsimp only
  rw [hnew, if_neg (by simp), if_pos hfull]

/-- Settles O10: an Abort ends the one command it names or answers that there is none; a reservation row changes the namespace's
reservation before its command is answered. -/
theorem abortsAndReservations : Obligations.AbortsAndReservations := by
  unfold Obligations.AbortsAndReservations
  intro s tag x n
  refine ⟨?abort, ?events, ?reservations⟩
  case abort =>
    exact fun sqid cid h hlimit => ⟨abort_notFound h hlimit,
      fun y hne hy hmedia hc hs hi hone hexecs => abort_ends h hlimit hne hy hmedia ⟨hc, hs, hi⟩ hone hexecs⟩
  case events =>
    exact fun c h hc hnew => ⟨eventRequest_held ⟨h, hc⟩ hnew, eventRequest_tooMany ⟨h, hc⟩ hnew⟩
  case reservations =>
    exact fun h => ⟨fun iekey crkey nrkey => reservationRegister_new h, fun iekey crkey nrkey k => reservationRegister_other h,
      fun key prkey rtype => reservationAcquire_free h, fun key prkey rtype g => reservationAcquire_held h,
      fun key => reservationRelease_own h, reservationReport_returned h⟩

end Sys2Proof.Machine
end

section
/-! Config flash (R473–R478, R492): the commands that its registers take, and what they answer with. -/

namespace Sys2Proof.Machine

/-- An event leaves every field but its own bit. -/
theorem fget_raiseEvent_ne (g i : Nat) (f e : Fld) (s : State) (h : f.addr ∉ pbkRegs)
    (he : f.addr ≠ e.addr ∨ e.lo + e.w ≤ f.lo ∨ f.lo + f.w ≤ e.lo) : fget f (raiseEvent g i e s) = fget f s := by
  unfold raiseEvent
  dsimp only
  rw [fget_postmark _ _ _ _ _ h, fget_fset_ne _ _ _ _ he]

/-! ### A command's registers -/

/-- ADDR, and DATA for a program, are written before CMD. -/
def cflNamed (addr : Nat) (data : Option Word) (s : State) : State :=
  match data with
  | some d => wr Reg.CFL_DATA d (fset Fl.CFL_ADDR_WORD (addr / 8) s)
  | none => fset Fl.CFL_ADDR_WORD (addr / 8) s

theorem cflRow_taken {addr req : Nat} {s : State} (hpd : pdOn 2 s = true) (hreq : req = 0x10 ∨ req = 0x11) (data : Option Word) (v : Nat) :
    cflRow addr data v req s = .next (cflCommand v (cflNamed addr data s)) := by
  have hagent : cflAgent req = true := by rcases hreq with rfl | rfl <;> rfl
  have htaken : ¬ (!pdOn 2 s || !cflAgent req) = true := by
    rw [hpd, hagent]
    decide
  unfold cflRow cflNamed
  refine (if_neg htaken).trans ?_
  cases data <;> rfl

theorem cflRow_refused {addr req : Nat} {s : State} (h : req ≠ 0x10 ∧ req ≠ 0x11) (data : Option Word) (v : Nat) :
    ∃ t, cflRow addr data v req s = .next t ∧ OnlyMarked [] s t := by
  have hagent : cflAgent req = false := by simp [cflAgent, h]
  unfold cflRow
  rw [hagent, if_pos (by simp)]
  exact ⟨_, rfl, busError_onlyMarked _ _ _ s⟩

section
variable {addr req : Nat} {s : State} (hpd : pdOn 2 s = true) (hreq : req = 0x10 ∨ req = 0x11)
include hpd hreq

theorem cflProgram_row (data : Word) : exec (.cflProgram addr data req) s = .next (cflCommand 1 (cflNamed addr (some data) s)) :=
  (rfl : _ = execCflProgram addr data req s).trans (cflRow_taken hpd hreq (some data) 1)

theorem cflEraseSector_row (key : Nat) :
    exec (.cflEraseSector addr key req) s = .next (cflCommand (2 + 256 * (key % 256)) (cflNamed addr none s)) :=
  (rfl : _ = execCflEraseSector addr key req s).trans (cflRow_taken hpd hreq none _)

theorem cflEraseGroup_row (key : Nat) :
    exec (.cflEraseGroup addr key req) s = .next (cflCommand (3 + 256 * (key % 256)) (cflNamed addr none s)) :=
  (rfl : _ = execCflEraseGroup addr key req s).trans (cflRow_taken hpd hreq none _)

end

@[simp] theorem cflNamed_mgt (addr : Nat) (data : Option Word) (s : State) : (cflNamed addr data s).mgt = s.mgt := by
  cases data <;> rfl

theorem rd_cflNamed {a : Nat} (h : a ≠ Reg.CFL_ADDR ∧ a ≠ Reg.CFL_DATA) (addr : Nat) (data : Option Word) (s : State) :
    rd a (cflNamed addr data s) = rd a s := by
  cases data with
  | none => exact rd_fset_ne _ _ _ _ h.1
  | some d => exact (rd_wr_ne _ _ h.2).trans (rd_fset_ne _ _ _ _ h.1)

theorem fget_cflNamed_status {f : Fld} (h : f.addr = Reg.CFL_STATUS) (addr : Nat) (data : Option Word) (s : State) :
    fget f (cflNamed addr data s) = fget f s := fget_of_rd (rd_cflNamed (by rw [h]; decide) addr data s)

theorem cflNamed_word {addr : Nat} (h : addr < 2 ^ 28) (data : Option Word) (s : State) :
    fget Fl.CFL_ADDR_WORD (cflNamed addr data s) = addr / 8 := by
  have hset : fget Fl.CFL_ADDR_WORD (fset Fl.CFL_ADDR_WORD (addr / 8) s) = addr / 8 := by
    rw [fget_fset_self _ _ _ (by decide)]
    exact Nat.mod_eq_of_lt (show addr / 8 < 2 ^ 25 by omega)
  cases data with
  | none => exact hset
  | some d => exact (fget_wr_ne _ _ _ _ (by decide)).trans hset

theorem cflNamed_onlyMarked (addr : Nat) (s : State) : OnlyMarked [Reg.CFL_ADDR] s (cflNamed addr none s) :=
  ⟨rfl, fun a ha _ => rd_fset_ne _ _ _ _ (show a ≠ Reg.CFL_ADDR by simpa using ha)⟩

/-! ### What CMD does -/

/-- An operation has begun on a bank, and no word has changed yet. -/
def CflBusy (op : CflOp) (bank : Nat) (s t : State) : Prop :=
  t.mgt.op = some op ∧ fget Fl.CFL_STATUS_BUSY t = 1 ∧ fget Fl.CFL_STATUS_BANK t = bank ∧ t.mgt.flash = s.mgt.flash

@[simp] theorem cflResult_mgt (r : Nat) (s : State) : (cflResult r s).mgt = s.mgt := rfl

/-- A command has ended with a result and changed nothing. -/
def CflRefused (r : Nat) (s t : State) : Prop := fget Fl.CFL_CMD_RESULT t = r ∧ t.mgt = s.mgt

theorem cflBegin_busy {sec : Nat} (h : sec < 65536) (op : CflOp) (s : State) : CflBusy op (sec / 8192) s (cflBegin op sec s) := by
  refine ⟨rfl, ?_, ?_, rfl⟩
  · change fget Fl.CFL_STATUS_BUSY (fset Fl.CFL_STATUS_SUSP_COUNT 0 (fset Fl.CFL_STATUS_BANK (bankOfSector sec) (fset Fl.CFL_STATUS_BUSY 1 s))) = 1
    rw [fget_fset_ne _ _ _ _ (by decide), fget_fset_ne _ _ _ _ (by decide), fget_fset_self _ _ _ (by decide)]
    rfl
  · change fget Fl.CFL_STATUS_BANK (fset Fl.CFL_STATUS_SUSP_COUNT 0 (fset Fl.CFL_STATUS_BANK (bankOfSector sec) (fset Fl.CFL_STATUS_BUSY 1 s))) = _
    rw [fget_fset_ne _ _ _ _ (by decide), fget_fset_self _ _ _ (by decide)]
    exact Nat.mod_eq_of_lt (show sec / 8192 < 2 ^ 3 by omega)

theorem cflResult_refused {r : Nat} (h : r < 8) (s : State) : CflRefused r s (cflResult r s) :=
  ⟨(fget_fset_self _ _ _ (by decide)).trans (Nat.mod_eq_of_lt h), rfl⟩

section
variable {u : State} (hbusy : fget Fl.CFL_STATUS_BUSY u = 0)
include hbusy

theorem cflCommand_sealed (hseal : fget Fl.CFL_STATUS_SEAL u = 1) {v : Nat} (hv : v = 1 ∨ v = 2 + 256 * 0x69 ∨ v = 3 + 256 * 0x69) :
    cflCommand v u = cflResult 3 u := by
  unfold cflCommand
  dsimp only
  rw [hbusy, hseal, if_neg (by decide)]
  rcases hv with rfl | rfl | rfl <;> rw [if_neg (by decide), if_neg (by decide), if_pos rfl]

/-- An erase with another key than 0x69 is ignored and noted. -/
theorem cflCommand_wrongKey {op key : Nat} (hop : op = 2 ∨ op = 3) (hkey : key < 256) (hne : key ≠ 0x69) :
    OnlyMarked [] u (cflCommand (op + 256 * (key % 256)) u) := by
  have hv8 : (op + 256 * (key % 256)) % 8 = op := by omega
  have hv256 : (op + 256 * (key % 256)) / 256 % 256 = key := by omega
  unfold cflCommand
  dsimp only
  rw [hbusy, if_neg (by decide), hv8, hv256, if_pos ⟨hop, hne⟩]
  exact postmark_onlyMarked _ _ _ u

variable (hseal : fget Fl.CFL_STATUS_SEAL u = 0)
include hseal

theorem cflCommand_program : cflCommand 1 u =
    if (SMap.find u.mgt.flash (fget Fl.CFL_ADDR_WORD u)).isSome || u.mgt.eraseAgain.contains (fget Fl.CFL_ADDR_WORD u / 512) then cflResult 1 u
    else cflBegin (.program (fget Fl.CFL_ADDR_WORD u) (rd Reg.CFL_DATA u)) (fget Fl.CFL_ADDR_WORD u / 512) u := by
  unfold cflCommand
  dsimp only
  rw [hbusy, hseal, if_neg (by decide), if_neg (by decide), if_neg (by decide), if_neg (by decide), if_pos rfl]
  rfl

theorem cflCommand_eraseSector :
    cflCommand (2 + 256 * 0x69) u = cflBegin (.erase (fget Fl.CFL_ADDR_WORD u / 512) 1) (fget Fl.CFL_ADDR_WORD u / 512) u := by
  unfold cflCommand
  dsimp only
  rw [hbusy, hseal, if_neg (by decide), if_neg (by decide), if_neg (by decide), if_neg (by decide), if_neg (by decide), if_pos rfl]
  rfl

theorem cflCommand_eraseGroup : cflCommand (3 + 256 * 0x69) u =
    if fget Fl.CFL_ADDR_WORD u / 512 % 64 ≠ 0 then cflResult 4 u
    else cflBegin (.erase (fget Fl.CFL_ADDR_WORD u / 512) 64) (fget Fl.CFL_ADDR_WORD u / 512) u := by
  unfold cflCommand
  dsimp only
  rw [hbusy, hseal, if_neg (by decide), if_neg (by decide), if_neg (by decide), if_neg (by decide), if_neg (by decide), if_neg (by decide)]
  rfl

end

/-! ### The command rows -/

section
variable {addr req : Nat} {s : State} (hpd : pdOn 2 s = true) (hreq : req = 0x10 ∨ req = 0x11)
  (hbusy : fget Fl.CFL_STATUS_BUSY s = 0)
include hpd hreq hbusy

theorem cfl_sealed (hseal : fget Fl.CFL_STATUS_SEAL s = 1) (data : Word) : Completes (.cflProgram addr data req) s (CflRefused 3 s) ∧
    Completes (.cflEraseSector addr 0x69 req) s (CflRefused 3 s) ∧ Completes (.cflEraseGroup addr 0x69 req) s (CflRefused 3 s) := by
  have hsealed (data : Option Word) {v : Nat} (hv : v = 1 ∨ v = 2 + 256 * 0x69 ∨ v = 3 + 256 * 0x69) :
      CflRefused 3 s (cflCommand v (cflNamed addr data s)) := by
    rw [cflCommand_sealed ((fget_cflNamed_status rfl _ _ _).trans hbusy) ((fget_cflNamed_status rfl _ _ _).trans hseal) hv]
    obtain ⟨hr, hmgt⟩ := cflResult_refused (r := 3) (by decide) (cflNamed addr data s)
    exact ⟨hr, hmgt.trans (cflNamed_mgt _ _ _)⟩
  exact ⟨⟨_, cflProgram_row hpd hreq data, hsealed _ (.inl rfl)⟩, ⟨_, cflEraseSector_row hpd hreq _, hsealed _ (.inr (.inl rfl))⟩,
    ⟨_, cflEraseGroup_row hpd hreq _, hsealed _ (.inr (.inr rfl))⟩⟩

theorem cfl_wrongKey {key : Nat} (hkey : key < 256) (hne : key ≠ 0x69) : Completes (.cflEraseSector addr key req) s (OnlyMarked [Reg.CFL_ADDR] s) ∧
    Completes (.cflEraseGroup addr key req) s (OnlyMarked [Reg.CFL_ADDR] s) := by
  have hnoted {op : Nat} (hop : op = 2 ∨ op = 3) : OnlyMarked [Reg.CFL_ADDR] s (cflCommand (op + 256 * (key % 256)) (cflNamed addr none s)) :=
    (cflNamed_onlyMarked addr s).trans
      ((cflCommand_wrongKey ((fget_cflNamed_status rfl _ _ _).trans hbusy) hop hkey hne).mono (List.nil_subset _))
  exact ⟨⟨_, cflEraseSector_row hpd hreq _, hnoted (.inl rfl)⟩, ⟨_, cflEraseGroup_row hpd hreq _, hnoted (.inr rfl)⟩⟩

variable (hseal : fget Fl.CFL_STATUS_SEAL s = 0) (ha : addr < 2 ^ 28)
include hseal ha

theorem cflProgram_begins (data : Word) (hfree : SMap.find s.mgt.flash (addr / 8) = none) (hwhole : addr / 4096 ∉ s.mgt.eraseAgain) :
    Completes (.cflProgram addr data req) s (CflBusy (.program (addr / 8) data) (addr / 0x2000000) s) := by
  have hdata : rd Reg.CFL_DATA (cflNamed addr (some data) s) = data := rd_wr_self _ _ _
  refine ⟨_, cflProgram_row hpd hreq data, ?_⟩
  rw [cflCommand_program ((fget_cflNamed_status rfl _ _ _).trans hbusy) ((fget_cflNamed_status rfl _ _ _).trans hseal), cflNamed_word ha, hdata,
    cflNamed_mgt, hfree, show addr / 8 / 512 = addr / 4096 by omega, if_neg (by simpa using hwhole)]
  obtain ⟨hop, hb, hbank, hflash⟩ := cflBegin_busy (sec := addr / 4096) (by omega) (.program (addr / 8) data) (cflNamed addr (some data) s)
  exact ⟨hop, hb, hbank.trans (by omega), hflash.trans (by rw [cflNamed_mgt])⟩

theorem cflProgram_refused (data : Word) (h : SMap.find s.mgt.flash (addr / 8) ≠ none ∨ addr / 4096 ∈ s.mgt.eraseAgain) :
    Completes (.cflProgram addr data req) s (CflRefused 1 s) := by
  refine ⟨_, cflProgram_row hpd hreq data, ?_⟩
  rw [cflCommand_program ((fget_cflNamed_status rfl _ _ _).trans hbusy) ((fget_cflNamed_status rfl _ _ _).trans hseal), cflNamed_word ha,
    cflNamed_mgt, show addr / 8 / 512 = addr / 4096 by omega, if_pos (by simpa [Option.isSome_iff_ne_none] using h)]
  obtain ⟨hr, hmgt⟩ := cflResult_refused (r := 1) (by decide) (cflNamed addr (some data) s)
  exact ⟨hr, hmgt.trans (cflNamed_mgt _ _ _)⟩

theorem cflEraseSector_begins : Completes (.cflEraseSector addr 0x69 req) s (CflBusy (.erase (addr / 4096) 1) (addr / 0x2000000) s) := by
  refine ⟨_, cflEraseSector_row hpd hreq _, ?_⟩
  rw [show 2 + 256 * (0x69 % 256) = 2 + 256 * 0x69 from rfl,
    cflCommand_eraseSector ((fget_cflNamed_status rfl _ _ _).trans hbusy) ((fget_cflNamed_status rfl _ _ _).trans hseal), cflNamed_word ha,
    show addr / 8 / 512 = addr / 4096 by omega]
  obtain ⟨hop, hb, hbank, hflash⟩ := cflBegin_busy (sec := addr / 4096) (by omega) (.erase (addr / 4096) 1) (cflNamed addr none s)
  exact ⟨hop, hb, hbank.trans (by omega), hflash⟩

theorem cflEraseGroup_begins (haligned : addr / 4096 % 64 = 0) :
    Completes (.cflEraseGroup addr 0x69 req) s (CflBusy (.erase (addr / 4096) 64) (addr / 0x2000000) s) := by
  refine ⟨_, cflEraseGroup_row hpd hreq _, ?_⟩
  rw [show 3 + 256 * (0x69 % 256) = 3 + 256 * 0x69 from rfl,
    cflCommand_eraseGroup ((fget_cflNamed_status rfl _ _ _).trans hbusy) ((fget_cflNamed_status rfl _ _ _).trans hseal), cflNamed_word ha,
    show addr / 8 / 512 = addr / 4096 by omega, if_neg (by simpa using haligned)]
  obtain ⟨hop, hb, hbank, hflash⟩ := cflBegin_busy (sec := addr / 4096) (by omega) (.erase (addr / 4096) 64) (cflNamed addr none s)
  exact ⟨hop, hb, hbank.trans (by omega), hflash⟩

theorem cflEraseGroup_refused (hunaligned : addr / 4096 % 64 ≠ 0) : Completes (.cflEraseGroup addr 0x69 req) s (CflRefused 4 s) := by
  refine ⟨_, cflEraseGroup_row hpd hreq _, ?_⟩
  rw [show 3 + 256 * (0x69 % 256) = 3 + 256 * 0x69 from rfl,
    cflCommand_eraseGroup ((fget_cflNamed_status rfl _ _ _).trans hbusy) ((fget_cflNamed_status rfl _ _ _).trans hseal), cflNamed_word ha,
    show addr / 8 / 512 = addr / 4096 by omega, if_pos hunaligned]
  exact cflResult_refused (by decide) _

end

end Sys2Proof.Machine
end

section
/-! Config flash (R475–R478): how its operations end and what reads of it give. -/

namespace Sys2Proof.Machine

/-! ### Sectors that are retired (R477) -/

/-- The operation under way has ended. -/
def cflFreed (s : State) : State :=
  setMgt (fun m => { m with op := none }) (s |> fset Fl.CFL_STATUS_BUSY 0 |> fset Fl.CFL_STATUS_SUSPENDED 0)

theorem rd_cflFreed {a : Nat} (h : a ≠ Reg.CFL_STATUS) (s : State) : rd a (cflFreed s) = rd a s :=
  (rd_fset_ne _ _ _ _ h).trans (rd_fset_ne _ _ _ _ h)

theorem cflFreed_busy (s : State) : fget Fl.CFL_STATUS_BUSY (cflFreed s) = 0 :=
  (fget_fset_ne _ _ _ _ (by decide)).trans (fget_fset_self _ _ _ (by decide))

theorem sectorInvalid_regs (sec : Nat) (s : State) : (sectorInvalid sec s).regs = s.regs := by
  unfold sectorInvalid
  split
  · rfl
  · dsimp only
    split
    · rfl
    · split <;> rfl

theorem sectorInvalid_op (sec : Nat) (s : State) : (sectorInvalid sec s).mgt.op = s.mgt.op ∧ (sectorInvalid sec s).mgt.retired = s.mgt.retired := by
  unfold sectorInvalid
  split
  · exact ⟨rfl, rfl⟩
  · dsimp only
    split
    · exact ⟨rfl, rfl⟩
    · split <;> exact ⟨rfl, rfl⟩

/-- Of fields a retired sector changes the spares left and two events. -/
theorem fget_retireSector {f : Fld} (hf : f.addr ∉ pbkRegs) (hs : f.addr ≠ Reg.CFL_SPARES) (he : f.addr ≠ Reg.CFL_EVENT ∨ f.lo + f.w ≤ 4)
    (sec : Nat) (s : State) : fget f (retireSector sec s) = fget f s := by
  have hev {e : Fld} (hea : e.addr = Reg.CFL_EVENT) (hel : 4 ≤ e.lo) : f.addr ≠ e.addr ∨ e.lo + e.w ≤ f.lo ∨ f.lo + f.w ≤ e.lo := by
    rcases he with he | he
    · exact .inl (by rw [hea]; exact he)
    · exact .inr (.inr (by omega))
  unfold retireSector
  extract_lets n s1
  have h1 : fget f s1 = fget f s := by
    unfold s1
    split
    · exact fget_congr (sectorInvalid_regs sec s) f
    · rw [fget_raiseEvent_ne _ _ _ _ _ hf (hev rfl (by decide)), fget_fset_ne _ _ _ _ (.inl hs)]
      rfl
  split
  · rw [fget_raiseEvent_ne _ _ _ _ _ hf (hev rfl (by decide)), h1]
  · exact h1

theorem rd_retireSector {a : Nat} (ha : a ∉ pbkRegs) (hs : a ≠ Reg.CFL_SPARES) (he : a ≠ Reg.CFL_EVENT) (sec : Nat) (s : State) :
    rd a (retireSector sec s) = rd a s := by
  unfold retireSector
  extract_lets n s1
  have h1 : rd a s1 = rd a s := by
    unfold s1
    split
    · exact rd_congr (sectorInvalid_regs sec s) a
    · rw [rd_raiseEvent_ne _ _ _ _ _ ha he, rd_fset_ne _ _ _ _ hs]
      rfl
  split
  · rw [rd_raiseEvent_ne _ _ _ _ _ ha he, h1]
  · exact h1

/-- While spares last, a failing sector is retired to one of them. -/
theorem retireSector_spare {sec : Nat} {s : State} (h : 0 < fget Fl.CFL_SPARES_FREE s) :
    (retireSector sec s).mgt = { s.mgt with retired := s.mgt.retired ++ [sec] } ∧
      fget Fl.CFL_SPARES_FREE (retireSector sec s) = fget Fl.CFL_SPARES_FREE s - 1 ∧ fget Fl.CFL_EVENT_RETIRED (retireSector sec s) = 1 ∧
      (fget Fl.CFL_SPARES_FREE s - 1 < 64 → fget Fl.CFL_EVENT_SPARES_LOW (retireSector sec s) = 1) := by
  have hlt : fget Fl.CFL_SPARES_FREE s < 2 ^ 13 := fget_lt _ _
  unfold retireSector
  extract_lets n s1
  have hs1 : s1 = raiseEvent 0x12 0 Fl.CFL_EVENT_RETIRED
      (fset Fl.CFL_SPARES_FREE (n - 1) (setMgt (fun m => { m with retired := m.retired ++ [sec] }) s)) := if_neg (by omega)
  have hmgt : s1.mgt = { s.mgt with retired := s.mgt.retired ++ [sec] } := by rw [hs1, raiseEvent_mgt]; rfl
  have hspares : fget Fl.CFL_SPARES_FREE s1 = n - 1 := by
    rw [hs1, fget_raiseEvent_ne _ _ _ _ _ (by decide) (by decide), fget_fset_self _ _ _ (by decide)]
    exact Nat.mod_eq_of_lt (by change n - 1 < 2 ^ 13; omega)
  have hretired : fget Fl.CFL_EVENT_RETIRED s1 = 1 := by rw [hs1, fget_raiseEvent_self _ _ _ _ (by decide) rfl (by decide)]
  split
  · refine ⟨(raiseEvent_mgt _ _ _ _).trans hmgt, ?_, ?_, fun _ => fget_raiseEvent_self _ _ _ _ (by decide) rfl (by decide)⟩
    · exact (fget_raiseEvent_ne _ _ _ _ _ (by decide) (by decide)).trans hspares
    · exact (fget_raiseEvent_ne _ _ _ _ _ (by decide) (by decide)).trans hretired
  · rename_i hmany
    exact ⟨hmgt, hspares, hretired, fun hlow => absurd hlow hmany⟩

/-- Without a spare the image in a failing sector is invalid. -/
theorem retireSector_image {sec c k : Nat} {v : FwSlot} {s : State} (h : fget Fl.CFL_SPARES_FREE s = 0) (hslot : slotOfSector sec = some (c, k))
    (hv : SMap.find (fwAt c s).slots k = some v) : (fwSlot c k (retireSector sec s)).state = 2 ∧
      (retireSector sec s).mgt.op = s.mgt.op ∧ (retireSector sec s).mgt.retired = s.mgt.retired := by
  have hmgt : (retireSector sec s).mgt = (sectorInvalid sec s).mgt := by
    unfold retireSector
    extract_lets n s1
    have hs1 : s1 = sectorInvalid sec s := if_pos h
    split
    · rw [raiseEvent_mgt, hs1]
    · rw [hs1]
  obtain ⟨hop, hret⟩ := sectorInvalid_op sec s
  refine ⟨?_, by rw [hmgt, hop], by rw [hmgt, hret]⟩
  unfold fwSlot fwAt
  rw [hmgt]
  unfold sectorInvalid
  rw [hslot]
  change (SMap.getD (SMap.getD (SMap.put s.mgt.fw c _) c Fw.made).slots k _).state = 2
  rw [SMap.getD_put_self]
  unfold SMap.getD
  rw [SMap_find_upd_self, hv]
  rfl

/-! ### Row CFL_OPERATION_DONE -/

/-- Nothing is under way any more. -/
def CflDone (t : State) : Prop := t.mgt.op = none ∧ fget Fl.CFL_STATUS_BUSY t = 0

theorem cflDone_none {s : State} (h : s.mgt.op = none) : Completes (.cflOperationDone []) s (fun t => t = s) := by
  refine ⟨s, ?_, rfl⟩
  change execCflOperationDone [] s = _
  unfold execCflOperationDone
  rw [h]

/-- A program has failed. -/
def cflProgFailed (s : State) : State := raiseEvent 0x12 0 Fl.CFL_EVENT_PROG_FAIL (cflFreed s)

theorem cflProgFailed_mgt (s : State) : (cflProgFailed s).mgt = { s.mgt with op := none } := raiseEvent_mgt ..

theorem cflProgFailed_fields (s : State) : fget Fl.CFL_SPARES_FREE (cflProgFailed s) = fget Fl.CFL_SPARES_FREE s ∧
    fget Fl.CFL_STATUS_BUSY (cflProgFailed s) = 0 ∧ fget Fl.CFL_EVENT_PROG_FAIL (cflProgFailed s) = 1 := by
  refine ⟨?_, ?_, fget_raiseEvent_self _ _ _ _ (by decide) rfl (by decide)⟩
  · exact (fget_raiseEvent_ne _ _ _ _ _ (by decide) (by decide)).trans (fget_of_rd (rd_cflFreed (by decide) s))
  · exact (fget_raiseEvent_ne _ _ _ _ _ (by decide) (by decide)).trans (cflFreed_busy s)

section
variable {w : Nat} {d : Word} {s : State} (h : s.mgt.op = some (.program w d))
include h

theorem cflDone_program_bad : exec (.cflOperationDone [w / 512]) s =
    .next (cflResult 2 (retireSector (w / 512) (cflProgFailed s))) := by
  change execCflOperationDone [w / 512] s = _
  unfold execCflOperationDone
  rw [h]
  dsimp only
  rw [if_pos (by simp [sectorWords])]
  rfl

theorem cflDone_program_good : Completes (.cflOperationDone []) s (fun t => CflDone t ∧ fget Fl.CFL_CMD_RESULT t = 0 ∧
    SMap.find t.mgt.flash w = some d ∧ ∀ e ∈ s.mgt.flash, e.1 ≠ w → SMap.find t.mgt.flash e.1 = SMap.find s.mgt.flash e.1) := by
  refine ⟨cflResult 0 (setMgt (fun m => { m with flash := SMap.put m.flash w d }) (cflFreed s)), ?_, ⟨rfl, ?_⟩, ?_, ?_, fun e _ he => ?_⟩
  · change execCflOperationDone [] s = _
    unfold execCflOperationDone
    rw [h]
    rfl
  · exact (fget_fset_ne _ _ _ _ (by decide)).trans (cflFreed_busy s)
  · exact fget_fset_self _ _ _ (by decide)
  · exact SMap.find_put_self _ _ _
  · exact SMap.find_put_ne _ _ he

theorem cflDone_program_spare (hspare : 0 < fget Fl.CFL_SPARES_FREE s) : Completes (.cflOperationDone [w / 512]) s (fun t => CflDone t ∧
    fget Fl.CFL_CMD_RESULT t = 2 ∧ fget Fl.CFL_EVENT_PROG_FAIL t = 1 ∧ t.mgt.retired = s.mgt.retired ++ [w / 512] ∧
      fget Fl.CFL_SPARES_FREE t = fget Fl.CFL_SPARES_FREE s - 1 ∧ fget Fl.CFL_EVENT_RETIRED t = 1 ∧
      (fget Fl.CFL_SPARES_FREE s - 1 < 64 → fget Fl.CFL_EVENT_SPARES_LOW t = 1)) := by
  refine ⟨_, cflDone_program_bad h, ?_⟩
  have hmgt := cflProgFailed_mgt s
  obtain ⟨hspares, hbusy, hfail⟩ := cflProgFailed_fields s
  generalize cflProgFailed s = u at hmgt hspares hbusy hfail
  obtain ⟨hret, hleft, hevent, hlow⟩ := retireSector_spare (sec := w / 512) (s := u) (by rw [hspares]; exact hspare)
  have hresult (f : Fld) (hf : f.addr ≠ Reg.CFL_CMD) : fget f (cflResult 2 (retireSector (w / 512) u)) = fget f (retireSector (w / 512) u) :=
    fget_fset_ne _ _ _ _ (.inl hf)
  refine ⟨⟨?_, ?_⟩, fget_fset_self _ _ _ (by decide), ?_, ?_, ?_, ?_, fun hn => ?_⟩
  · rw [cflResult_mgt, hret, hmgt]
  · rw [hresult _ (by decide), fget_retireSector (by decide) (by decide) (by decide), hbusy]
  · rw [hresult _ (by decide), fget_retireSector (by decide) (by decide) (by decide), hfail]
  · rw [cflResult_mgt, hret, hmgt]
  · rw [hresult _ (by decide), hleft, hspares]
  · rw [hresult _ (by decide), hevent]
  · rw [hresult _ (by decide), hlow (by rw [hspares]; exact hn)]

theorem cflDone_program_image {c k : Nat} {v : FwSlot} (hnone : fget Fl.CFL_SPARES_FREE s = 0) (hslot : slotOfSector (w / 512) = some (c, k))
    (hv : SMap.find (fwAt c s).slots k = some v) : Completes (.cflOperationDone [w / 512]) s (fun t => CflDone t ∧ (fwSlot c k t).state = 2 ∧
      t.mgt.retired = s.mgt.retired) := by
  refine ⟨_, cflDone_program_bad h, ?_⟩
  have hmgt := cflProgFailed_mgt s
  obtain ⟨hspares, hbusy, -⟩ := cflProgFailed_fields s
  generalize cflProgFailed s = u at hmgt hspares hbusy
  have hv' : SMap.find (fwAt c u).slots k = some v := by
    unfold fwAt at hv ⊢
    rw [hmgt]
    exact hv
  obtain ⟨hstate, hop, hret⟩ := retireSector_image (hspares.trans hnone) hslot hv'
  refine ⟨⟨?_, ?_⟩, hstate, ?_⟩
  · rw [cflResult_mgt, hop, hmgt]
  · exact (fget_fset_ne _ _ _ _ (by decide)).trans ((fget_retireSector (by decide) (by decide) (by decide) _ _).trans hbusy)
  · rw [cflResult_mgt, hret, hmgt]

end

/-- Sectors have been erased: no word of them is held, none of them waits for another erase, and each is counted. -/
def CflErased (sec count : Nat) (s t : State) : Prop :=
  t.mgt.op = none ∧ fget Fl.CFL_STATUS_BUSY t = 0 ∧
    (∀ e ∈ t.mgt.flash, e ∈ s.mgt.flash ∧ (e.1 < sec * 512 ∨ (sec + count) * 512 ≤ e.1)) ∧
    (∀ x ∈ t.mgt.eraseAgain, x ∈ s.mgt.eraseAgain ∧ (x < sec ∨ sec + count ≤ x)) ∧
    rd Reg.CFL_CNT_ERASE t = BitVec.ofNat 64 (Nat.min ((rd Reg.CFL_CNT_ERASE s).toNat + count) (2 ^ 32 - 1))

theorem eraseWords_erased (sec count : Nat) (s : State) :
    CflErased sec count s (cntAdd Reg.CFL_CNT_ERASE 32 count (eraseWords sec count (cflFreed s))) := by
  refine ⟨rfl, ?_, fun e he => ?_, fun x hx => ?_, ?_⟩
  · exact (fget_wr_ne _ _ _ _ (by decide)).trans (cflFreed_busy s)
  · obtain ⟨hmem, hout⟩ := List.mem_filter.mp he
    refine ⟨hmem, ?_⟩
    simp only [sectorWords, Bool.not_eq_true', Bool.and_eq_false_iff] at hout
    rcases hout with hlow | hhigh
    · exact .inl (Nat.lt_of_not_le (of_decide_eq_false hlow))
    · exact .inr (Nat.le_of_not_lt (of_decide_eq_false hhigh))
  · obtain ⟨hmem, hout⟩ := List.mem_filter.mp hx
    refine ⟨hmem, ?_⟩
    simp only [Bool.not_eq_true', Bool.and_eq_false_iff, decide_eq_false_iff_not] at hout
    omega
  · have hcnt : rd Reg.CFL_CNT_ERASE (eraseWords sec count (cflFreed s)) = rd Reg.CFL_CNT_ERASE s := rd_cflFreed (by decide) s
    unfold cntAdd
    rw [rd_wr_self, hcnt]

theorem CflErased.kept {sec count : Nat} {s t u : State} (h : CflErased sec count s t)
    (hmgt : u.mgt.op = t.mgt.op ∧ u.mgt.flash = t.mgt.flash ∧ u.mgt.eraseAgain = t.mgt.eraseAgain)
    (hbusy : fget Fl.CFL_STATUS_BUSY u = fget Fl.CFL_STATUS_BUSY t) (hcnt : rd Reg.CFL_CNT_ERASE u = rd Reg.CFL_CNT_ERASE t) :
    CflErased sec count s u := by
  obtain ⟨hop, hb, hflash, hagain, hc⟩ := h
  obtain ⟨mop, mflash, magain⟩ := hmgt
  exact ⟨mop.trans hop, hbusy.trans hb, by rw [mflash]; exact hflash, by rw [magain]; exact hagain, hcnt.trans hc⟩

section
variable {sec count : Nat} {s : State} (h : s.mgt.op = some (.erase sec count))
include h

theorem cflDone_erase_good : Completes (.cflOperationDone []) s (fun t => CflErased sec count s t ∧ fget Fl.CFL_CMD_RESULT t = 0) := by
  have hnone : ((List.range count).map (fun i => sec + i)).filter (fun x => ([] : List Nat).contains x) = [] := by simp
  refine ⟨cflResult 0 (cntAdd Reg.CFL_CNT_ERASE 32 count (eraseWords sec count (cflFreed s))), ?_, ?_, fget_fset_self _ _ _ (by decide)⟩
  · change execCflOperationDone [] s = _
    unfold execCflOperationDone
    rw [h]
    dsimp only
    rw [hnone]
    rfl
  · exact (eraseWords_erased sec count s).kept ⟨rfl, rfl, rfl⟩ (fget_fset_ne _ _ _ _ (by decide)) (rd_fset_ne _ _ _ _ (by decide))

/-- The first sector of those erased fails its blank check. -/
theorem cflDone_erase_bad (hcount : 0 < count) (hspare : 0 < fget Fl.CFL_SPARES_FREE s) : Completes (.cflOperationDone [sec]) s (fun t =>
    CflErased sec count s t ∧ fget Fl.CFL_CMD_RESULT t = 2 ∧ fget Fl.CFL_EVENT_ERASE_FAIL t = 1 ∧ t.mgt.retired = s.mgt.retired ++ [sec]) := by
  have hone : ((List.range count).map (fun i => sec + i)).filter (fun x => [sec].contains x) = [sec] := by
    obtain ⟨m, rfl⟩ := Nat.exists_eq_succ_of_ne_zero hcount.ne'
    rw [List.range_succ_eq_map, List.map_cons, List.filter_cons, if_pos (by simp), Nat.add_zero]
    congr 1
    rw [List.filter_eq_nil_iff]
    intro x hx
    simp only [List.map_map, List.mem_map, Function.comp] at hx
    obtain ⟨i, -, rfl⟩ := hx
    simp
  have herased := eraseWords_erased sec count s
  have hspares : fget Fl.CFL_SPARES_FREE (cntAdd Reg.CFL_CNT_ERASE 32 count (eraseWords sec count (cflFreed s))) = fget Fl.CFL_SPARES_FREE s :=
    (fget_wr_ne _ _ _ _ (by decide)).trans (fget_of_rd (rd_cflFreed (by decide) s))
  have hretired : (cntAdd Reg.CFL_CNT_ERASE 32 count (eraseWords sec count (cflFreed s))).mgt.retired = s.mgt.retired := rfl
  have hrow : exec (.cflOperationDone [sec]) s = .next (cflResult 2 (retireSector sec (raiseEvent 0x12 0 Fl.CFL_EVENT_ERASE_FAIL
      (cntAdd Reg.CFL_CNT_ERASE 32 count (eraseWords sec count (cflFreed s)))))) := by
    change execCflOperationDone [sec] s = _
    unfold execCflOperationDone
    rw [h]
    dsimp only
    rw [hone]
    rfl
  refine ⟨_, hrow, ?_⟩
  clear hrow
  generalize cntAdd Reg.CFL_CNT_ERASE 32 count (eraseWords sec count (cflFreed s)) = u at herased hspares hretired
  have hspares' : fget Fl.CFL_SPARES_FREE (raiseEvent 0x12 0 Fl.CFL_EVENT_ERASE_FAIL u) = fget Fl.CFL_SPARES_FREE s :=
    (fget_raiseEvent_ne _ _ _ _ _ (by decide) (by decide)).trans hspares
  obtain ⟨hret, -⟩ := retireSector_spare (sec := sec) (s := raiseEvent 0x12 0 Fl.CFL_EVENT_ERASE_FAIL u) (by rw [hspares']; exact hspare)
  rw [raiseEvent_mgt] at hret
  refine ⟨herased.kept ⟨?_, ?_, ?_⟩ ?_ ?_, fget_fset_self _ _ _ (by decide), ?_, ?_⟩
  · rw [cflResult_mgt, hret]
  · rw [cflResult_mgt, hret]
  · rw [cflResult_mgt, hret]
  · exact (fget_fset_ne _ _ _ _ (by decide)).trans ((fget_retireSector (by decide) (by decide) (by decide) _ _).trans
      (fget_raiseEvent_ne _ _ _ _ _ (by decide) (by decide)))
  · exact (rd_fset_ne _ _ _ _ (by decide)).trans ((rd_retireSector (by decide) (by decide) (by decide) _ _).trans
      (rd_raiseEvent_ne _ _ _ _ _ (by decide) (by decide)))
  · exact (fget_fset_ne _ _ _ _ (by decide)).trans ((fget_retireSector (by decide) (by decide) (by decide) _ _).trans
      (fget_raiseEvent_self _ _ _ _ (by decide) rfl (by decide)))
  · exact (congrArg Mgt.retired hret).trans (by rw [hretired])

end

/-! ### Row CFL_READ -/

/-- A read has given the word that is held at an address, where the sector does not wait for another erase. -/
def CflGave (addr : Nat) (s t : State) : Prop :=
  addr / 4096 ∉ s.mgt.eraseAgain → ∀ v ∈ (SMap.find s.mgt.flash (addr / 8)).toList, t.mgt.readWord = v

/-- A read suspends the erase under way and counts it, the last time with an event. -/
def cflSuspended (s : State) : State :=
  if fget Fl.CFL_STATUS_SUSP_COUNT s + 1 = fget Fl.CFL_SUSP_CFG_MAX s then
    raiseEvent 0x12 0 Fl.CFL_EVENT_SUSP_LIMIT (fset Fl.CFL_STATUS_SUSP_COUNT (fget Fl.CFL_STATUS_SUSP_COUNT s + 1) s)
  else fset Fl.CFL_STATUS_SUSP_COUNT (fget Fl.CFL_STATUS_SUSP_COUNT s + 1) s

@[simp] theorem cflSuspended_mgt (s : State) : (cflSuspended s).mgt = s.mgt := by
  unfold cflSuspended
  split
  · exact raiseEvent_mgt _ _ _ _
  · rfl

theorem cflSuspended_count (s : State) (h : fget Fl.CFL_STATUS_SUSP_COUNT s < fget Fl.CFL_SUSP_CFG_MAX s) :
    fget Fl.CFL_STATUS_SUSP_COUNT (cflSuspended s) = fget Fl.CFL_STATUS_SUSP_COUNT s + 1 := by
  have hmax : fget Fl.CFL_SUSP_CFG_MAX s < 2 ^ 6 := fget_lt _ _
  have hcount : fget Fl.CFL_STATUS_SUSP_COUNT (fset Fl.CFL_STATUS_SUSP_COUNT (fget Fl.CFL_STATUS_SUSP_COUNT s + 1) s) =
      fget Fl.CFL_STATUS_SUSP_COUNT s + 1 := by
    rw [fget_fset_self _ _ _ (by decide)]
    exact Nat.mod_eq_of_lt (show _ < 2 ^ 6 by omega)
  unfold cflSuspended
  split
  · exact (fget_raiseEvent_ne _ _ _ _ _ (by decide) (by decide)).trans hcount
  · exact hcount

theorem cflSuspended_last (s : State) (h : fget Fl.CFL_STATUS_SUSP_COUNT s + 1 = fget Fl.CFL_SUSP_CFG_MAX s) :
    fget Fl.CFL_EVENT_SUSP_LIMIT (cflSuspended s) = 1 := by
  unfold cflSuspended
  rw [if_pos h]
  exact fget_raiseEvent_self _ _ _ _ (by decide) rfl (by decide)

theorem cflReadData_good {addr : Nat} {s u : State} (hmgt : u.mgt = s.mgt) (req : Nat) : CflGave addr s (cflReadData addr .good req u) := by
  intro hwhole v hv
  change flashWord addr u = v
  unfold flashWord
  rw [hmgt, if_neg (by simpa using hwhole)]
  unfold SMap.getD
  rw [Option.mem_toList.mp hv]
  rfl

section
variable {addr : Nat} {early : Bool} {req : Nat} {s : State} (hpd : pdOn 2 s = true) (ha : addr < 2 ^ 28)
include hpd ha

/-- The window is there: a read of it goes by the operation under way. -/
theorem cflRead_inWindow : (!pdOn 2 s || decide (cflSectors * 4096 ≤ addr)) = false := by
  rw [hpd, decide_eq_false (by unfold cflSectors; omega)]
  rfl

theorem execCflRead_idle (hop : s.mgt.op = none) (res : MemRes) : exec (.cflRead addr res early req) s = .next (cflReadData addr res req s) := by
  change execCflRead addr res early req s = _
  unfold execCflRead
  rw [cflRead_inWindow hpd ha, if_neg (by decide), hop]

theorem execCflRead_program {w : Nat} {d : Word} (hop : s.mgt.op = some (.program w d)) (res : MemRes) : exec (.cflRead addr res early req) s =
    if w / 512 / 8192 = addr / 4096 / 8192 then .next s else .next (cflReadData addr res req s) := by
  change execCflRead addr res early req s = _
  unfold execCflRead
  rw [cflRead_inWindow hpd ha, if_neg (by decide), hop]
  rfl

theorem execCflRead_erase {sec count : Nat} (hop : s.mgt.op = some (.erase sec count)) (res : MemRes) : exec (.cflRead addr res early req) s =
    if sec / 8192 ≠ addr / 4096 / 8192 then .next (cflReadData addr res req s)
    else if early ∨ fget Fl.CFL_SUSP_CFG_MAX s ≤ fget Fl.CFL_STATUS_SUSP_COUNT s then .next s
    else .next (cflReadData addr res req (cflSuspended s)) := by
  change execCflRead addr res early req s = _
  unfold execCflRead
  rw [cflRead_inWindow hpd ha, if_neg (by decide), hop]
  rfl

theorem cflRead_idle (hop : s.mgt.op = none) :
    Completes (.cflRead addr .good early req) s (fun t => CflGave addr s t ∧ t.regs = s.regs) ∧
      Completes (.cflRead addr (.corrected [] false) early req) s (fun t => CflGave addr s t ∧
        rd Reg.CFL_CNT_CE t = BitVec.ofNat 64 (Nat.min ((rd Reg.CFL_CNT_CE s).toNat + 1) (2 ^ 32 - 1)) ∧ fget Fl.CFL_EVENT_CE t = 1) ∧
      Completes (.cflRead addr (.uncorr false) early req) s (fun t => t.mgt = s.mgt ∧
        rd Reg.CFL_CNT_UE t = BitVec.ofNat 64 (Nat.min ((rd Reg.CFL_CNT_UE s).toNat + 1) (2 ^ 32 - 1)) ∧ fget Fl.CFL_EVENT_UE t = 1) := by
  have hrow (res : MemRes) : exec (.cflRead addr res early req) s = .next (cflReadData addr res req s) :=
    execCflRead_idle hpd ha hop res
  refine ⟨⟨_, hrow _, cflReadData_good rfl req, rfl⟩, ⟨_, hrow _, ?_, ?_, ?_⟩, ⟨_, hrow _, ?_, ?_, ?_⟩⟩
  · exact cflReadData_good (u := raiseEvent 0x12 0 Fl.CFL_EVENT_CE (cntAdd Reg.CFL_CNT_CE 32 1 s)) (by rw [raiseEvent_mgt]; rfl) req
  · exact (rd_raiseEvent_ne _ _ _ _ _ (by decide) (by decide)).trans (rd_wr_self _ _ _)
  · exact fget_raiseEvent_self _ _ _ _ (by decide) rfl (by decide)
  · exact (congrArg State.mgt (busError_onlyMarked _ _ _ _).1).trans (by rw [raiseEvent_mgt]; rfl)
  · exact (rd_postmark _ _ _ _ _ (by decide)).trans ((rd_raiseEvent_ne _ _ _ _ _ (by decide) (by decide)).trans (rd_wr_self _ _ _))
  · exact (fget_postmark _ _ _ _ _ (by decide)).trans (fget_raiseEvent_self _ _ _ _ (by decide) rfl (by decide))

theorem cflRead_otherBank {sec count : Nat} (hop : s.mgt.op = some (.erase sec count)) (hbank : sec / 8192 ≠ addr / 0x2000000) :
    Completes (.cflRead addr .good early req) s (fun t => CflGave addr s t ∧ t.regs = s.regs) := by
  exact ⟨cflReadData addr .good req s, (execCflRead_erase hpd ha hop .good).trans (if_pos (by omega)), cflReadData_good rfl req, rfl⟩

theorem cflRead_programming {w : Nat} {d : Word} (hop : s.mgt.op = some (.program w d)) (hbank : w / 0x400000 = addr / 0x2000000) :
    Completes (.cflRead addr .good early req) s (fun t => t = s) := by
  exact ⟨s, (execCflRead_program hpd ha hop .good).trans (if_pos (by omega)), rfl⟩

section
variable {sec count : Nat} (hop : s.mgt.op = some (.erase sec count)) (hbank : sec / 8192 = addr / 0x2000000)
include hop hbank

theorem cflRead_waits (h : early = true ∨ fget Fl.CFL_SUSP_CFG_MAX s ≤ fget Fl.CFL_STATUS_SUSP_COUNT s) :
    Completes (.cflRead addr .good early req) s (fun t => t = s) := by
  refine ⟨s, ?_, rfl⟩
  rw [execCflRead_erase hpd ha hop, if_neg (by omega), if_pos h]

theorem cflRead_suspends (hearly : early = false) (hlimit : fget Fl.CFL_STATUS_SUSP_COUNT s < fget Fl.CFL_SUSP_CFG_MAX s) :
    Completes (.cflRead addr .good early req) s (fun t => CflGave addr s t ∧
      fget Fl.CFL_STATUS_SUSP_COUNT t = fget Fl.CFL_STATUS_SUSP_COUNT s + 1 ∧ t.mgt.op = s.mgt.op ∧
      (fget Fl.CFL_STATUS_SUSP_COUNT s + 1 = fget Fl.CFL_SUSP_CFG_MAX s → fget Fl.CFL_EVENT_SUSP_LIMIT t = 1)) := by
  refine ⟨cflReadData addr .good req (cflSuspended s), ?_, cflReadData_good (cflSuspended_mgt s) req, ?_, ?_, cflSuspended_last s⟩
  · rw [execCflRead_erase hpd ha hop, if_neg (by omega), if_neg (by rw [hearly]; simp; omega)]
  · exact cflSuspended_count s hlimit
  · change (cflSuspended s).mgt.op = s.mgt.op
    rw [cflSuspended_mgt]

end

end

end Sys2Proof.Machine
end

section
/-! The settings store (R479–R482). -/

namespace Sys2Proof.Machine

section
variable {s : State}

theorem settings_sealed (hseal : fget Fl.CFL_STATUS_SEAL s = 1) (bytes : Nat) :
    Completes (.settingsCommit bytes) s (fun t => t = s) ∧ Completes .settingsCompaction s (fun t => t = s) := by
  refine ⟨⟨s, ?_, rfl⟩, ⟨s, ?_, rfl⟩⟩
  · exact if_pos (by simp [hseal])
  · exact if_pos (by simp [hseal])

variable (hpd : pdOn 2 s = true) (hseal : fget Fl.CFL_STATUS_SEAL s = 0)
include hpd hseal

theorem settingsCommit_kept {bytes : Nat} (h1 : 0 < bytes) (h2 : bytes ≤ 4096) : Completes (.settingsCommit bytes) s (fun t => t.regs = s.regs ∧
    t.mgt.unsaved = [] ∧ t.mgt.storeA.seq = max s.mgt.storeA.seq s.mgt.storeB.seq + 1 ∧ t.mgt.storeB.seq = t.mgt.storeA.seq ∧
    t.mgt.storeA.deltas = s.mgt.storeA.deltas + bytes ∧ t.mgt.storeB.deltas = s.mgt.storeB.deltas + bytes ∧
    t.mgt.storeA.half = s.mgt.storeA.half) := by
  have hn : max 1 (min bytes 4096) = bytes := by omega
  have hrow : exec (.settingsCommit bytes) s =
      .next (setMgt (fun m => { m with
        unsaved := []
        storeA := addDelta (max 1 (min bytes 4096)) (max s.mgt.storeA.seq s.mgt.storeB.seq + 1) m.storeA
        storeB := addDelta (max 1 (min bytes 4096)) (max s.mgt.storeA.seq s.mgt.storeB.seq + 1) m.storeB }) s) := if_neg (by simp [hpd, hseal])
  rw [hn] at hrow
  exact ⟨_, hrow, rfl, rfl, rfl, rfl, rfl, rfl, rfl⟩

theorem settingsCompaction_copies :
    (0x100000 < s.mgt.storeA.deltas → Completes .settingsCompaction s (fun t =>
      t = { s with mgt := { s.mgt with storeA := { s.mgt.storeA with half := 1 - s.mgt.storeA.half, deltas := 0 } } })) ∧
    (s.mgt.storeA.deltas ≤ 0x100000 → 0x100000 < s.mgt.storeB.deltas → Completes .settingsCompaction s (fun t =>
      t = { s with mgt := { s.mgt with storeB := { s.mgt.storeB with half := 1 - s.mgt.storeB.half, deltas := 0 } } })) ∧
    (s.mgt.storeA.deltas ≤ 0x100000 → s.mgt.storeB.deltas ≤ 0x100000 → Completes .settingsCompaction s (fun t => t = s)) := by
  have hrow : exec .settingsCompaction s =
      if compactAt < s.mgt.storeA.deltas then .next (setMgt (fun m => { m with storeA := compacted m.storeA }) s)
      else if compactAt < s.mgt.storeB.deltas then .next (setMgt (fun m => { m with storeB := compacted m.storeB }) s)
      else .next s := if_neg (by simp [hpd, hseal])
  refine ⟨fun hA => ⟨_, hrow.trans (if_pos hA), rfl⟩, fun hA hB => ⟨_, hrow.trans ((if_neg ?_).trans (if_pos hB)), rfl⟩,
    fun hA hB => ⟨_, hrow.trans ((if_neg ?_).trans (if_neg ?_)), rfl⟩⟩
  · exact Nat.not_lt.mpr hA
  · exact Nat.not_lt.mpr hA
  · exact Nat.not_lt.mpr hB

end

end Sys2Proof.Machine
end

section
/-! An update of firmware (R108, R484–R488): its register, the slot a component runs, and how it ends. -/

namespace Sys2Proof.Machine

/-! ### The update's register -/

theorem rd_setUpd {a : Nat} (h : a ≠ Reg.MGT_UPD) (st comp src : Nat) (s : State) : rd a (setUpd st comp src s) = rd a s :=
  (rd_fset_ne _ _ _ _ h).trans ((rd_fset_ne _ _ _ _ h).trans (rd_fset_ne _ _ _ _ h))

theorem setUpd_state {st : Nat} (h : st < 4) (comp src : Nat) (s : State) : fget Fl.MGT_UPD_STATE (setUpd st comp src s) = st := by
  unfold setUpd
  rw [fget_fset_ne _ _ _ _ (by decide), fget_fset_ne _ _ _ _ (by decide), fget_fset_self _ _ _ (by decide)]
  exact Nat.mod_eq_of_lt h

theorem setUpd_component {comp : Nat} (h : comp < 8) (st src : Nat) (s : State) :
    fget Fl.MGT_UPD_COMPONENT (setUpd st comp src s) = comp := by
  unfold setUpd
  rw [fget_fset_ne _ _ _ _ (by decide), fget_fset_self _ _ _ (by decide)]
  exact Nat.mod_eq_of_lt h

theorem setUpd_source {src : Nat} (h : src < 2) (st comp : Nat) (s : State) : fget Fl.MGT_UPD_SOURCE (setUpd st comp src s) = src := by
  unfold setUpd
  rw [fget_fset_self _ _ _ (by decide)]
  exact Nat.mod_eq_of_lt h

/-! ### A component's slots -/

theorem fwAt_congr {s t : State} (h : t.mgt.fw = s.mgt.fw) (c : Nat) : fwAt c t = fwAt c s := by
  unfold fwAt
  rw [h]

theorem fwSlot_congr {c : Nat} {s t : State} (h : fwAt c t = fwAt c s) (k : Nat) : fwSlot c k t = fwSlot c k s := by
  unfold fwSlot
  rw [h]

@[simp] theorem fwAt_setFw_self (c : Nat) (f : Fw → Fw) (s : State) : fwAt c (setFw c f s) = f (fwAt c s) := SMap.getD_put_self _ _ _ _

theorem rd_setMgt (a : Nat) (f : Mgt → Mgt) (s : State) : rd a (setMgt f s) = rd a s := rfl

theorem rd_setFw (a c : Nat) (f : Fw → Fw) (s : State) : rd a (setFw c f s) = rd a s := rfl

theorem fwAt_setFw_ne {c d : Nat} (f : Fw → Fw) (h : d ≠ c) (s : State) : fwAt d (setFw c f s) = fwAt d s := SMap.getD_put_ne _ _ _ h

@[simp] theorem postmark_mgt (code src : Nat) (args : List Nat) (s : State) : (postmark code src args s).mgt = s.mgt :=
  (postmark_keeps code src args (Keeps.refl s) (Sub.refl 33)).only.mgt rfl

theorem NsMgtKept.fw {s t : State} (h : NsMgtKept s t) : t.mgt.fw = s.mgt.fw := by
  change t.mgt.apart.fw = s.mgt.apart.fw
  rw [h.mgt]

theorem NsMgtKept.pieces {s t : State} (h : NsMgtKept s t) : t.mgt.pieces = s.mgt.pieces := by
  change t.mgt.apart.pieces = s.mgt.apart.pieces
  rw [h.mgt]

/-! ### The end of an update (R487) -/

/-- No update is under way, and the last one ended with this result. -/
def updReset (result : Nat) (s : State) : State :=
  setUpd 0 0 (fget Fl.MGT_UPD_SOURCE s) (setMgt (fun m => { m with upd := { Upd.idle with last := result }, pieces := [] }) s)

theorem updEnd_untagged {s : State} (h : s.mgt.upd.tag = none) (r : Nat) : updEnd r s = updReset r s := by
  unfold updEnd
  rw [h]
  rfl

theorem updEnd_tagged {tag : Nat} {s : State} (h : s.mgt.upd.tag = some tag) (r : Nat) :
    updEnd r s = if r = 0 then completeOk tag (updReset r s) else complete tag 1 0x07 true 0 [] (updReset r s) := by
  unfold updEnd
  rw [h]
  rfl

theorem updEnd_nsMgtKept (r : Nat) (s : State) : NsMgtKept (updReset r s) (updEnd r s) := by
  cases h : s.mgt.upd.tag with
  | none => rw [updEnd_untagged h]; exact NsMgtKept.refl _
  | some tag =>
    rw [updEnd_tagged h]
    split
    · exact completeBoth_nsMgtKept ..
    · exact completeBoth_nsMgtKept ..

theorem rd_updEnd_reset {a : Nat} (ha : a ∉ completionRegs) (r : Nat) (s : State) : rd a (updEnd r s) = rd a (updReset r s) := by
  cases h : s.mgt.upd.tag with
  | none => rw [updEnd_untagged h]
  | some tag =>
    rw [updEnd_tagged h]
    split
    · exact rd_completeBoth ha ..
    · exact rd_completeBoth ha ..

theorem rd_updEnd {a : Nat} (ha : a ∉ completionRegs) (hu : a ≠ Reg.MGT_UPD) (r : Nat) (s : State) : rd a (updEnd r s) = rd a s :=
  (rd_updEnd_reset ha r s).trans (rd_setUpd hu _ _ _ _)

/-- An update has ended with a result; what the components run is as before. -/
structure UpdEnded (r : Nat) (s t : State) : Prop where
  fw : t.mgt.fw = s.mgt.fw
  late : t.mgt.late = s.mgt.late
  last : t.mgt.upd.last = r
  idle : fget Fl.MGT_UPD_STATE t = 0 ∧ t.mgt.upd.todo = []

theorem updReset_ended (r : Nat) (s : State) : UpdEnded r s (updReset r s) := ⟨rfl, rfl, rfl, setUpd_state (by decide) _ _ _, rfl⟩

/-- Completions leave an update as it has ended. -/
theorem UpdEnded.kept {r : Nat} {s t u : State} (h : UpdEnded r s t) (hk : NsMgtKept t u) (hrd : rd Reg.MGT_UPD u = rd Reg.MGT_UPD t) :
    UpdEnded r s u := by
  obtain ⟨hfw, hlate, hlast, hstate, htodo⟩ := h
  have hm := hk.mgt
  exact ⟨(congrArg Mgt.fw hm).trans hfw, (congrArg Mgt.late hm).trans hlate, (congrArg (fun m => m.upd.last) hm).trans hlast,
    (fget_of_rd hrd).trans hstate, (congrArg (fun m => m.upd.todo) hm).trans htodo⟩

theorem updEnd_ended (r : Nat) (s : State) : UpdEnded r s (updEnd r s) :=
  (updReset_ended r s).kept (updEnd_nsMgtKept r s) (rd_updEnd_reset (by decide) r s)

theorem mode_updReset (r : Nat) (s : State) : mode (updReset r s) = mode s := mode_of_low (setUpd_low (setMgt_low (LowKept.refl s) _) _ _ _)

section
variable {tag : Nat} {kinds : List CmdKind} {x : Cmd} {s : State} (htag : s.mgt.upd.tag = some tag) (h : InPhase tag .fetched kinds x s)
include htag h

theorem updEnd_succeeded : Succeeded x s (updEnd 0 s) := by
  rw [updEnd_tagged htag, if_pos rfl]
  exact (completeBoth_inPhase (h.congr (t := updReset 0 s) rfl (mode_updReset 0 s)) 0 0 false 0 0 []).of_nv rfl

theorem updEnd_failed : Failed x 1 0x07 true s (updEnd 2 s) := by
  rw [updEnd_tagged htag, if_neg (by decide)]
  exact (completeBoth_inPhase (h.congr (t := updReset 2 s) rfl (mode_updReset 2 s)) 1 0x07 true 0 0 []).of_nv rfl

end

/-! ### The last unit of the last component -/

theorem fwAt_postmark (c code src : Nat) (args : List Nat) (s : State) : fwAt c (postmark code src args s) = fwAt c s :=
  fwAt_congr (congrArg Mgt.fw (postmark_mgt code src args s)) c

/-- A component that runs slot `k`. -/
def runSlot (k : Nat) (f : Fw) : Fw := { f with active := k, next := k, result := 0 }

theorem made_eq (c : Nat) (t : List Nat) (s : State) : updNext.made c t s =
    setMgt (fun m => { m with upd := { m.upd with todo := t, units := [], switching := false } })
      (setFw c (runSlot (SMap.getD s.mgt.upd.slots c (fwAt c s).active)) (postmark 0x1280 0x12 [c, 0] s)) := rfl

theorem fwAt_made (c : Nat) (t : List Nat) (s : State) : fwAt c (updNext.made c t s) =
    { fwAt c s with active := SMap.getD s.mgt.upd.slots c (fwAt c s).active, next := SMap.getD s.mgt.upd.slots c (fwAt c s).active, result := 0 } := by
  rw [made_eq]
  refine (fwAt_congr (s := setFw c (runSlot (SMap.getD s.mgt.upd.slots c (fwAt c s).active)) (postmark 0x1280 0x12 [c, 0] s)) rfl c).trans ?_
  rw [fwAt_setFw_self, fwAt_postmark]
  rfl

@[simp] theorem made_nv (c : Nat) (t : List Nat) (s : State) : (updNext.made c t s).nv = s.nv :=
  (updNext_made_keeps c t (Keeps.refl s) (Sub.refl _)).only.nv rfl

theorem mode_made (c : Nat) (t : List Nat) (s : State) : mode (updNext.made c t s) = mode s :=
  mode_of_low (setMgt_low (setFw_low (postmark_low _ _ _ (LowKept.refl s)) _ _) _)

theorem rd_made {a : Nat} (h : a ∉ pbkRegs) (c : Nat) (t : List Nat) (s : State) : rd a (updNext.made c t s) = rd a s := by
  rw [made_eq, rd_setMgt, rd_setFw, rd_postmark _ _ _ _ _ h]

theorem made_upd (c : Nat) (t : List Nat) (s : State) :
    (updNext.made c t s).mgt.upd = { s.mgt.upd with todo := t, units := [], switching := false } := by
  unfold updNext.made setFw setMgt
  simp only [postmark_mgt]

theorem made_late (c : Nat) (t : List Nat) (s : State) : (updNext.made c t s).mgt.late = s.mgt.late := by
  unfold updNext.made setFw setMgt
  simp only [postmark_mgt]

/-- The component keeps its slot and notes the failure. -/
def updFailed (c : Nat) (s : State) : State := setFw c (fun f => { f with result := 2 }) (postmark 0x1280 0x12 [c, 2] s)

theorem fwAt_updFailed (c : Nat) (s : State) : fwAt c (updFailed c s) = { fwAt c s with result := 2 } := by
  unfold updFailed
  rw [fwAt_setFw_self, fwAt_postmark]

theorem updFailed_nv (c : Nat) (s : State) : (updFailed c s).nv = s.nv := (postmark_keeps _ _ _ (Keeps.refl s) (Sub.refl 33)).only.nv rfl

theorem mode_updFailed (c : Nat) (s : State) : mode (updFailed c s) = mode s :=
  mode_of_low (setFw_low (postmark_low _ _ _ (LowKept.refl s)) _ _)

theorem updFailed_upd (c : Nat) (s : State) : (updFailed c s).mgt.upd = s.mgt.upd ∧ (updFailed c s).mgt.late = s.mgt.late := by
  unfold updFailed setFw setMgt
  simp only [postmark_mgt]
  exact ⟨trivial, trivial⟩

/-- The unit under way in `s` is the last of the last component `c`, and what has been done since then, up to `u`, leaves the update, the
commands and the mode. -/
structure LastUnit (c unit : Nat) (s u : State) : Prop where
  nv : u.nv = s.nv
  mode : Machine.mode u = Machine.mode s
  fw : u.mgt.fw = s.mgt.fw
  slots : u.mgt.upd.slots = s.mgt.upd.slots
  tag : u.mgt.upd.tag = s.mgt.upd.tag
  todo : u.mgt.upd.todo = [c]
  units : u.mgt.upd.units = [unit]
  late : u.mgt.late = []

/-- Component `c` runs the slot that the update names, and the update has ended well. -/
def SwitchGood (c : Nat) (s t : State) : Prop :=
  (fwAt c t).active = SMap.getD s.mgt.upd.slots c (fwAt c s).active ∧ (fwAt c t).result = 0 ∧
    (fget Fl.MGT_UPD_STATE t = 0 ∧ t.mgt.upd.todo = []) ∧ t.mgt.upd.last = 0 ∧
    ∀ tag ∈ s.mgt.upd.tag.toList, ∀ x ∈ (cmdAt tag s).toList, InPhase tag .fetched [.admin] x s → Succeeded x s t

/-- Component `c` runs the slot it ran, and the update has failed. -/
def SwitchBack (c : Nat) (s t : State) : Prop :=
  (fwAt c t).active = (fwAt c s).active ∧ (fwAt c t).result = 2 ∧
    (fget Fl.MGT_UPD_STATE t = 0 ∧ t.mgt.upd.todo = []) ∧ t.mgt.upd.last = 2 ∧
    ∀ tag ∈ s.mgt.upd.tag.toList, ∀ x ∈ (cmdAt tag s).toList, InPhase tag .fetched [.admin] x s → Failed x 1 0x07 true s t

theorem unitActivated_made {c unit : Nat} {u : State} (htodo : u.mgt.upd.todo = [c]) (hunits : u.mgt.upd.units = [unit]) :
    unitActivated c unit true u = updEnd 0 (updNext.made c [] u) := by
  have hend : updNext 6 (updNext.made c [] u) = updEnd 0 (updNext.made c [] u) := rfl
  unfold unitActivated
  dsimp only
  rw [htodo, hunits, if_pos (by simp), if_pos rfl, if_pos (by simp)]
  exact hend

theorem unitActivated_failed {c unit : Nat} {u : State} (htodo : u.mgt.upd.todo = [c]) (hunits : u.mgt.upd.units = [unit]) :
    unitActivated c unit false u = updEnd 2 (updFailed c u) := by
  unfold unitActivated
  dsimp only
  rw [htodo, hunits, if_pos (by simp), if_neg (by decide)]
  rfl

/-- No reset waits for a component. -/
theorem runLate_none {s t : State} (h : t.mgt.late = []) : runLate s t = t := by
  unfold runLate
  rw [h]
  rfl

section
variable {c unit : Nat} {s u : State} (h : LastUnit c unit s u)
include h

theorem LastUnit.good : SwitchGood c s (unitActivated c unit true u) ∧ (unitActivated c unit true u).mgt.late = [] := by
  rw [unitActivated_made h.todo h.units]
  have hend := updEnd_ended 0 (updNext.made c [] u)
  have hfw : fwAt c (updEnd 0 (updNext.made c [] u)) = fwAt c (updNext.made c [] u) := fwAt_congr hend.fw c
  refine ⟨⟨?_, ?_, hend.idle, hend.last, fun tag htag x _ hx => ?_⟩, hend.late.trans ((made_late ..).trans h.late)⟩
  · rw [hfw, fwAt_made, h.slots, fwAt_congr h.fw]
  · rw [hfw, fwAt_made]
  · have hnv : (updNext.made c [] u).nv = s.nv := (made_nv ..).trans h.nv
    have hready := hx.congr hnv ((mode_made ..).trans h.mode)
    refine (updEnd_succeeded ?_ hready).of_nv hnv
    rw [made_upd]
    exact h.tag.trans (Option.mem_toList.mp htag)

theorem LastUnit.back : SwitchBack c s (unitActivated c unit false u) ∧ (unitActivated c unit false u).mgt.late = [] := by
  rw [unitActivated_failed h.todo h.units]
  have hend := updEnd_ended 2 (updFailed c u)
  have hfw : fwAt c (updEnd 2 (updFailed c u)) = fwAt c (updFailed c u) := fwAt_congr hend.fw c
  obtain ⟨hupd, hlate⟩ := updFailed_upd c u
  refine ⟨⟨?_, ?_, hend.idle, hend.last, fun tag htag x _ hx => ?_⟩, hend.late.trans (hlate.trans h.late)⟩
  · rw [hfw, fwAt_updFailed, fwAt_congr h.fw]
  · rw [hfw, fwAt_updFailed]
  · have hnv : (updFailed c u).nv = s.nv := (updFailed_nv ..).trans h.nv
    have hready := hx.congr hnv ((mode_updFailed ..).trans h.mode)
    refine (updEnd_failed ?_ hready).of_nv hnv
    rw [hupd]
    exact h.tag.trans (Option.mem_toList.mp htag)

/-- A register that neither completions nor the update writes. -/
theorem LastUnit.rd {a : Nat} (ha : a ∉ completionRegs) (hu : a ≠ Reg.MGT_UPD) (ok : Bool) : rd a (unitActivated c unit ok u) = rd a u := by
  have hp : a ∉ pbkRegs := fun hm => ha (List.mem_append_right _ hm)
  cases ok with
  | true =>
    rw [unitActivated_made h.todo h.units, rd_updEnd ha hu]
    exact rd_made hp ..
  | false =>
    rw [unitActivated_failed h.todo h.units, rd_updEnd ha hu]
    unfold updFailed
    rw [rd_setFw, rd_postmark _ _ _ _ _ hp]

end

end Sys2Proof.Machine
end

section
/-! The switches of control, management and network firmware (R484–R486): each is begun, and each ends with its component. -/

namespace Sys2Proof.Machine

/-! ### The two steps of a switch -/

/-- The switch of the update's component is under way, or is over. -/
def setSwitching (b : Bool) (s : State) : State := setMgt (fun m => { m with upd := { m.upd with switching := b } }) s

/-- Component `c` is the last of the update and is one unit. -/
def SwitchDue (c : Nat) (switching : Bool) (s : State) : Prop :=
  s.mgt.upd.todo = [c] ∧ s.mgt.upd.units = [0] ∧ s.mgt.upd.switching = switching ∧ s.mgt.late = []

/-- A switch has begun: the update goes on and no component runs another slot. -/
def SwitchBegun (s t : State) : Prop := t.mgt.upd.switching = true ∧ t.mgt.upd.todo = s.mgt.upd.todo ∧ t.mgt.fw = s.mgt.fw

theorem switchBegun_of_mgt {s t : State} (h : t.mgt = (setSwitching true s).mgt) : SwitchBegun s t := by
  unfold SwitchBegun
  rw [h]
  exact ⟨rfl, rfl, rfl⟩

section
variable {c : Nat} {start : State → State} {stop : Bool → State → State} {s : State}

theorem twoStep_idle (h : s.mgt.upd.todo = []) (ended : Option Bool) : twoStep c ended start stop s = .next s := by
  have hdue : switchDue c s = false := by
    unfold switchDue
    rw [h]
    rfl
  unfold twoStep
  rw [hdue]
  cases ended <;> rfl

theorem twoStep_begins (h : SwitchDue c false s) : twoStep c none start stop s = .next (start (setSwitching true s)) := by
  obtain ⟨htodo, -, hsw, -⟩ := h
  refine if_pos ?_
  unfold switchDue
  rw [htodo, hsw]
  simp

theorem twoStep_ends (h : SwitchDue c true s) (ok : Bool) :
    twoStep c (some ok) start stop s = .next (unitEnds c 0 ok (stop ok (setSwitching false s))) := by
  obtain ⟨htodo, -, hsw, -⟩ := h
  refine if_pos ?_
  unfold switchDue
  rw [htodo, hsw]
  simp

end

section
variable {c : Nat} {s u : State} (h : SwitchDue c true s) (hnv : u.nv = s.nv) (hmode : mode u = mode s) (hmgt : u.mgt = (setSwitching false s).mgt)
include h hnv hmode hmgt

theorem SwitchDue.lastUnit : LastUnit c 0 s u := by
  obtain ⟨htodo, hunits, -, hlate⟩ := h
  refine ⟨hnv, hmode, ?_, ?_, ?_, ?_, ?_, ?_⟩ <;> rw [hmgt]
  exacts [rfl, rfl, rfl, htodo, hunits, hlate]

theorem unitEnds_good : SwitchGood c s (unitEnds c 0 true u) := by
  obtain ⟨hgood, hlate⟩ := (h.lastUnit hnv hmode hmgt).good
  unfold unitEnds
  rwa [runLate_none hlate]

theorem unitEnds_back : SwitchBack c s (unitEnds c 0 false u) := by
  obtain ⟨hback, hlate⟩ := (h.lastUnit hnv hmode hmgt).back
  unfold unitEnds
  rwa [runLate_none hlate]

theorem unitEnds_eq (ok : Bool) : unitEnds c 0 ok u = unitActivated c 0 ok u := by
  have hlast := h.lastUnit hnv hmode hmgt
  unfold unitEnds
  cases ok with
  | true => exact runLate_none hlast.good.2
  | false => exact runLate_none hlast.back.2

end

theorem unitActivated_ten (c unit : Nat) (ok : Bool) (s : State) : (unitActivated c unit ok s).ten = s.ten :=
  (unitActivated_keeps c unit ok (Keeps.refl s) (Sub.refl _)).only.ten rfl

theorem unitActivated_net (c unit : Nat) (ok : Bool) (s : State) : (unitActivated c unit ok s).net = s.net :=
  (unitActivated_keeps c unit ok (Keeps.refl s) (Sub.refl _)).only.net rfl

/-! ### Control firmware (R484) -/

/-- HIF stops fetching commands, or fetches them again. -/
def fetchHold (v : Nat) (s : State) : State := s |> fset Fl.HIF_FETCH_CTRL_HOLD v |> fset Fl.HIF_FETCH_CTRL_HELD v

theorem fetchHold_hold {v : Nat} (h : v < 2) (s : State) : fget Fl.HIF_FETCH_CTRL_HOLD (fetchHold v s) = v := by
  unfold fetchHold
  rw [fget_fset_ne _ _ _ _ (by decide), fget_fset_self _ _ _ (by decide)]
  exact Nat.mod_eq_of_lt h

theorem mode_fetchHold (v : Nat) (s : State) : mode (fetchHold v s) = mode s :=
  (fget_fset_ne _ _ _ _ (by decide)).trans (fget_fset_ne _ _ _ _ (by decide))

/-- The letter switch's registers lie above those of the host interface. -/
theorem rd_showSch {a : Nat} (h : a < 0x43000000) (s : State) : rd a (showSch s) = rd a s := by
  have hne {b : Nat} (hb : 0x43000000 ≤ b) : a ≠ b := by omega
  have hdepth (t : Nat) : a ≠ Reg.SCH_QDEPTH t := hne (by unfold Reg.SCH_QDEPTH; omega)
  unfold showSch
  extract_lets n ready dues demand s1 s2
  have h1 : rd a s1 = rd a s := by
    unfold s1
    rw [rd_fset_ne _ _ _ _ (hne (by decide)), rd_wr_ne _ _ (hne (by decide)), rd_fset_ne _ _ _ _ (hne (by decide)),
      rd_fset_ne _ _ _ _ (hne (by decide)), rd_wr_ne _ _ (hne (by decide)), rd_wr_ne _ _ (hne (by decide)),
      rd_fset_ne _ _ _ _ (hne (by decide)), rd_fset_ne _ _ _ _ (hne (by decide))]
  have h2 : rd a s2 = rd a s1 := rd_forN (fun t u => rd_forN (fun p v => rd_fset_ne _ _ _ _ (hdepth t)) 4 u) 7 s1
  exact (rd_fset_ne _ _ _ _ (hdepth 7)).trans (h2.trans h1)

theorem rd_spareTakes {a : Nat} (h : a < 0x43000000) (s : State) : rd a (spareTakes s) = rd a s := by
  refine rd_forN (fun k t => ?_) 12 s
  split
  · rfl
  · split
    · rfl
    · exact rd_showSch h _

theorem controlHandover_row (e : Option Bool) (s : State) : exec (.controlFirmwareHandover e) s =
    twoStep 2 e (fetchHold 1) (fun _ t => spareTakes (fetchHold 0 t)) s := rfl

theorem controlHandover_ends {s : State} (h : SwitchDue 2 true s) : Completes (.controlFirmwareHandover (some true)) s
    (fun t => SwitchGood 2 s t ∧ fget Fl.HIF_FETCH_CTRL_HOLD t = 0) ∧
    Completes (.controlFirmwareHandover (some false)) s (fun t => SwitchBack 2 s t ∧ fget Fl.HIF_FETCH_CTRL_HOLD t = 0) := by
  have hk := spareTakes_keeps (Keeps.refl (fetchHold 0 (setSwitching false s))) (Sub.refl _)
  have hnv : (spareTakes (fetchHold 0 (setSwitching false s))).nv = s.nv := hk.only.nv rfl
  have hmgt : (spareTakes (fetchHold 0 (setSwitching false s))).mgt = (setSwitching false s).mgt := hk.only.mgt rfl
  have hmode : mode (spareTakes (fetchHold 0 (setSwitching false s))) = mode s :=
    (mode_congr (rd_spareTakes (by decide) _)).trans (mode_fetchHold 0 _)
  have hhold (ok : Bool) : fget Fl.HIF_FETCH_CTRL_HOLD (unitEnds 2 0 ok (spareTakes (fetchHold 0 (setSwitching false s)))) = 0 := by
    rw [unitEnds_eq h hnv hmode hmgt,
      fget_of_rd ((h.lastUnit hnv hmode hmgt).rd (by decide) (by decide) ok), fget_of_rd (rd_spareTakes (by decide) _)]
    exact fetchHold_hold (by decide) _
  exact ⟨⟨_, (controlHandover_row _ s).trans (twoStep_ends h true), unitEnds_good h hnv hmode hmgt, hhold true⟩,
    ⟨_, (controlHandover_row _ s).trans (twoStep_ends h false), unitEnds_back h hnv hmode hmgt, hhold false⟩⟩

theorem controlHandover_begins {s : State} (h : SwitchDue 2 false s) :
    Completes (.controlFirmwareHandover none) s (fun t => SwitchBegun s t ∧ fget Fl.HIF_FETCH_CTRL_HOLD t = 1) :=
  ⟨fetchHold 1 (setSwitching true s), (controlHandover_row none s).trans (twoStep_begins h), switchBegun_of_mgt rfl,
    fetchHold_hold (by decide) _⟩

/-! ### Management firmware (R485) -/

theorem setPaused_ten (b : Bool) (s : State) : (setPaused b s).ten = { s.ten with paused := b } :=
  (forEach_keeps (M := 1) (Keeps.refl { s with ten := { s.ten with paused := b } })
    (fun f t => showLbx_keeps f (Keeps.refl t) (Sub.refl 1))).only.ten rfl

/-- Core 76 starts anew and tenants' managers are paused, or are not. -/
theorem managementReset_kept (b : Bool) (s : State) : (setPaused b (coreReset 76 s)).nv = s.nv ∧ mode (setPaused b (coreReset 76 s)) = mode s ∧
    (setPaused b (coreReset 76 s)).mgt = s.mgt := by
  have hk := coreReset_keeps 76 (Keeps.refl s) (Sub.refl _)
  have hp := setPaused_keeps b (Keeps.refl (coreReset 76 s)) (Sub.refl _)
  exact ⟨(hp.only.nv rfl).trans (hk.only.nv rfl), mode_of_low (setPaused_low (coreReset_low (LowKept.refl s) 76) b),
    (hp.only.mgt rfl).trans (hk.only.mgt rfl)⟩

theorem managementSwitch_row (e : Option Bool) (s : State) : exec (.managementFirmwareSwitch e) s =
    twoStep 1 e (fun t => setPaused true (coreReset 76 t)) (fun ok t => setPaused false (if ok then t else coreReset 76 t)) s := rfl

theorem managementSwitch_begins {s : State} (h : SwitchDue 1 false s) : Completes (.managementFirmwareSwitch none) s
    (fun t => SwitchBegun s t ∧ t.ten.paused = true ∧ coreAt 76 t = Core.fresh) := by
  obtain ⟨-, -, hmgt⟩ := managementReset_kept true (setSwitching true s)
  have hcores := (setPaused_keeps true (Keeps.refl (coreReset 76 (setSwitching true s))) (Sub.refl _)).only.cores rfl
  exact ⟨setPaused true (coreReset 76 (setSwitching true s)), (managementSwitch_row none s).trans (twoStep_begins h),
    switchBegun_of_mgt hmgt, by rw [setPaused_ten], (coreAt_congr hcores 76).trans (coreAt_coreReset_self 76 _)⟩

theorem managementSwitch_ends {s : State} (h : SwitchDue 1 true s) : Completes (.managementFirmwareSwitch (some true)) s
    (fun t => SwitchGood 1 s t ∧ t.ten.paused = false) ∧
    Completes (.managementFirmwareSwitch (some false)) s (fun t => SwitchBack 1 s t ∧ t.ten.paused = false) := by
  have hrow (ok : Bool) := (managementSwitch_row (some ok) s).trans (twoStep_ends h ok)
  have hpaused (ok : Bool) (t : State) : (unitActivated 1 0 ok (setPaused false t)).ten.paused = false := by rw [unitActivated_ten, setPaused_ten]
  constructor
  · have hp := setPaused_keeps false (Keeps.refl (setSwitching false s)) (Sub.refl _)
    have hnv : (setPaused false (setSwitching false s)).nv = s.nv := hp.only.nv rfl
    have hmode : mode (setPaused false (setSwitching false s)) = mode s := mode_of_low (setPaused_low (LowKept.refl _) false)
    refine ⟨unitEnds 1 0 true (setPaused false (setSwitching false s)), hrow true, unitEnds_good h hnv hmode (hp.only.mgt rfl), ?_⟩
    rw [unitEnds_eq h hnv hmode (hp.only.mgt rfl), hpaused]
  · obtain ⟨hnv, hmode, hmgt⟩ := managementReset_kept false (setSwitching false s)
    refine ⟨unitEnds 1 0 false (setPaused false (coreReset 76 (setSwitching false s))), hrow false, unitEnds_back h hnv hmode hmgt, ?_⟩
    rw [unitEnds_eq h hnv hmode hmgt, hpaused]

/-! ### Network firmware (R486) -/

/-- Network firmware is being switched, or is not. -/
def netSwitching (b : Bool) (s : State) : State := updNet (fun n => { n with switching := b }) s

theorem mode_netSwitching (b : Bool) (s : State) : mode (netSwitching b s) = mode s :=
  mode_of_low (updNet_low (LowKept.refl s) (fun n => { n with switching := b }))

theorem networkSwitch_row (e : Option Bool) (s : State) : exec (.networkFirmwareSwitch e) s =
    twoStep 5 e (netSwitching true) (fun _ => netSwitching false) s := rfl

theorem networkSwitch_begins {s : State} (h : SwitchDue 5 false s) : Completes (.networkFirmwareSwitch none) s
    (fun t => SwitchBegun s t ∧ t.net = { s.net with switching := true }) :=
  ⟨netSwitching true (setSwitching true s), (networkSwitch_row none s).trans (twoStep_begins h),
    switchBegun_of_mgt rfl, rfl⟩

theorem networkSwitch_ends {s : State} (h : SwitchDue 5 true s) : Completes (.networkFirmwareSwitch (some true)) s
    (fun t => SwitchGood 5 s t ∧ t.net = { s.net with switching := false }) ∧
    Completes (.networkFirmwareSwitch (some false)) s (fun t => SwitchBack 5 s t ∧ t.net = { s.net with switching := false }) := by
  have hrow (ok : Bool) := (networkSwitch_row (some ok) s).trans (twoStep_ends h ok)
  have hnv : (netSwitching false (setSwitching false s)).nv = s.nv := rfl
  have hmgt : (netSwitching false (setSwitching false s)).mgt = (setSwitching false s).mgt := rfl
  have hmode : mode (netSwitching false (setSwitching false s)) = mode s := mode_netSwitching false _
  have hnet (ok : Bool) : (unitEnds 5 0 ok (netSwitching false (setSwitching false s))).net =
      { s.net with switching := false } := by
    rw [unitEnds_eq h hnv hmode hmgt, unitActivated_net]
    rfl
  exact ⟨⟨_, hrow true, unitEnds_good h hnv hmode hmgt, hnet true⟩, ⟨_, hrow false, unitEnds_back h hnv hmode hmgt, hnet false⟩⟩

theorem switches_idle {s : State} (h : s.mgt.upd.todo = []) (e : Option Bool) : Completes (.controlFirmwareHandover e) s (fun t => t = s) ∧
    Completes (.managementFirmwareSwitch e) s (fun t => t = s) ∧ Completes (.networkFirmwareSwitch e) s (fun t => t = s) :=
  ⟨⟨s, (controlHandover_row e s).trans (twoStep_idle h e), rfl⟩,
    ⟨s, (managementSwitch_row e s).trans (twoStep_idle h e), rfl⟩,
    ⟨s, (networkSwitch_row e s).trans (twoStep_idle h e), rfl⟩⟩

end Sys2Proof.Machine
end

section
/-! The microcode switch of a channel (R174, R487): loaded, begun, and ended with the channel's unit. -/

namespace Sys2Proof.Machine

/-! ### A channel that is held -/

theorem chanUp_congr {n : Nat} {s t : State} (h : LowKept s t) (hret : (chanAt n t).retired = (chanAt n s).retired) : chanUp n t = chanUp n s := by
  unfold chanUp
  rw [pdOn_congr (h _ (by decide)) (h _ (by decide)), hret]

theorem chanUp_lt {n : Nat} {s : State} (h : chanUp n s = true) : n < 32 := by
  unfold chanUp at h
  simp only [Bool.and_eq_true, decide_eq_true_eq] at h
  exact h.1.1

theorem ucode_not_chanRegs (n : Nat) : Reg.CHE_UCODE n ∉ chanRegs n := by
  simp only [chanRegs, Reg.CHE_UCODE, Reg.CHE_STATUS, Reg.CHE_CTRL, Reg.CHE_DIE_STATE, Reg.CHE_QDEPTH, List.mem_cons, List.not_mem_nil, or_false,
    not_or]
  omega

theorem ucode_ne_ctrl (n : Nat) : Reg.CHE_UCODE n ≠ Reg.CHE_CTRL n := by
  unfold Reg.CHE_UCODE Reg.CHE_CTRL
  omega

theorem status_ne_ctrl (n : Nat) : Reg.CHE_STATUS n ≠ Reg.CHE_CTRL n := by
  unfold Reg.CHE_STATUS Reg.CHE_CTRL
  omega

theorem status_ne_ucode (n : Nat) : Reg.CHE_STATUS n ≠ Reg.CHE_UCODE n := by
  unfold Reg.CHE_STATUS Reg.CHE_UCODE
  omega

/-- What is shown of a channel leaves its HOLD. -/
theorem fget_showChan_hold (n : Nat) (s : State) : fget (Fl.CHE_CTRL_HOLD n) (showChan n s) = fget (Fl.CHE_CTRL_HOLD n) s := by
  have hdepth : Reg.CHE_CTRL n ≠ Reg.CHE_QDEPTH n := by unfold Reg.CHE_CTRL Reg.CHE_QDEPTH; omega
  have hdie : Reg.CHE_CTRL n ≠ Reg.CHE_DIE_STATE n := by unfold Reg.CHE_CTRL Reg.CHE_DIE_STATE; omega
  unfold showChan
  extract_lets c code s1 s2 busy
  have h1 : fget (Fl.CHE_CTRL_HOLD n) s1 = fget (Fl.CHE_CTRL_HOLD n) s := fget_of_rd (rd_forN (fun i t => rd_fset_ne _ _ _ _ hdie) 8 s)
  have h2 : fget (Fl.CHE_CTRL_HOLD n) s2 = fget (Fl.CHE_CTRL_HOLD n) s1 := fget_of_rd (rd_forN (fun i t => rd_fset_ne _ _ _ _ hdepth) 6 s1)
  rw [fget_fset_ne _ _ _ _ (.inr (.inr (Nat.le_of_ble_eq_true rfl))), fget_fset_ne _ _ _ _ (.inl (status_ne_ctrl n).symm), h2, h1]

theorem fget_setChan_hold (n : Nat) (c : Chan) (s : State) : fget (Fl.CHE_CTRL_HOLD n) (setChan n c s) = fget (Fl.CHE_CTRL_HOLD n) s :=
  fget_showChan_hold n _

theorem fget_setChan_ucode {n : Nat} {f : Fld} (h : f.addr = Reg.CHE_UCODE n) (c : Chan) (s : State) : fget f (setChan n c s) = fget f s :=
  fget_of_rd (by rw [h]; exact rd_setChan c (ucode_not_chanRegs n) s)

theorem setHold_hold {n v : Nat} {s : State} (h : chanUp n s = true) (hv : v < 2) : fget (Fl.CHE_CTRL_HOLD n) (setHold n v s) = v := by
  unfold setHold
  rw [if_pos h, fget_showChan_hold, fget_fset_ne _ _ _ _ (.inl (status_ne_ctrl n).symm), fget_fset_self _ _ _ (Nat.le_of_ble_eq_true rfl)]
  exact Nat.mod_eq_of_lt hv

theorem rd_setHold {n a : Nat} (h : a ∉ chanRegs n) (v : Nat) (s : State) : rd a (setHold n v s) = rd a s := by
  have hnot := h
  simp only [chanRegs, List.mem_cons, List.not_mem_nil, or_false, not_or] at hnot
  obtain ⟨hstatus, hctrl, -, -⟩ := hnot
  unfold setHold
  split
  · rw [rd_showChan h, rd_fset_ne _ _ _ _ hstatus, rd_fset_ne _ _ _ _ hctrl]
  · rfl

/-! ### The steps on the channel -/

theorem rd_leaveSwitch (n : Nat) (s : State) : rd (Reg.CHE_UCODE n) (leaveSwitch n s) = rd (Reg.CHE_UCODE n) s :=
  (rd_setHold (ucode_not_chanRegs n) 0 _).trans (rd_fset_ne _ _ _ _ (status_ne_ucode n).symm)

theorem leaveSwitch_hold {n : Nat} {s : State} (h : chanUp n s = true) : fget (Fl.CHE_CTRL_HOLD n) (leaveSwitch n s) = 0 := by
  have hlow : LowKept s (fset (Fl.CHE_STATUS_REBUILD_ONLY n) 0 s) := fset_low _ _ (LowKept.refl s) (show 0x40040000 ≤ Reg.CHE_STATUS n by
    unfold Reg.CHE_STATUS; omega)
  exact setHold_hold ((chanUp_congr hlow rfl).trans h) (by decide)

section
variable (n version : Nat) (s : State)

theorem switchUcode_low (ok : Bool) : LowKept s (switchUcode n version ok s) := by
  have hucode : 0x40040000 ≤ Reg.CHE_UCODE n := by unfold Reg.CHE_UCODE; omega
  unfold switchUcode
  dsimp only
  split
  · exact setChan_low (fset_low _ _ (fset_low _ _ (LowKept.refl s) hucode) hucode) n _
  · exact postmark_low _ _ _ (fset_low _ _ (LowKept.refl s) hucode)

theorem switchUcode_taken {version : Nat} (hv : version < 65536) : fget (Fl.CHE_UCODE_VERSION n) (switchUcode n version true s) = version := by
  unfold switchUcode
  dsimp only
  rw [if_pos rfl, fget_setChan_ucode rfl, fget_fset_ne _ _ _ _ (.inr (.inr (Nat.le_of_ble_eq_true rfl))),
    fget_fset_self _ _ _ (Nat.le_of_ble_eq_true rfl)]
  exact Nat.mod_eq_of_lt hv

theorem switchUcode_taken_hold : fget (Fl.CHE_CTRL_HOLD n) (switchUcode n version true s) = fget (Fl.CHE_CTRL_HOLD n) s := by
  unfold switchUcode
  dsimp only
  rw [if_pos rfl, fget_setChan_hold, fget_fset_ne _ _ _ _ (.inl (ucode_ne_ctrl n).symm), fget_fset_ne _ _ _ _ (.inl (ucode_ne_ctrl n).symm)]

theorem switchUcode_refused : fget (Fl.CHE_UCODE_STATE n) (switchUcode n version false s) = 3 ∧
    fget (Fl.CHE_UCODE_VERSION n) (switchUcode n version false s) = fget (Fl.CHE_UCODE_VERSION n) s := by
  have hpost : Reg.CHE_UCODE n ∉ pbkRegs := not_mem_pbkRegs (by unfold Reg.CHE_UCODE; omega)
  unfold switchUcode otherPostmark
  dsimp only
  rw [if_neg (by decide), fget_postmark _ _ _ _ _ hpost, fget_postmark _ _ _ _ _ hpost, fget_fset_self _ _ _ (Nat.le_of_ble_eq_true rfl),
    fget_fset_ne _ _ _ _ (.inr (.inr (Nat.le_of_ble_eq_true rfl)))]
  exact ⟨rfl, rfl⟩

end

/-- The switch of an idle channel begins: nothing is diverted and nothing goes on. -/
theorem beginSwitch_idle {n : Nat} {s : State} (h : chanUp n s = true) (hqueue : (chanAt n s).queue = []) (hsusp : (chanAt n s).susp = []) :
    fget (Fl.CHE_UCODE_STATE n) (beginSwitch n s) = 2 ∧ fget (Fl.CHE_CTRL_HOLD n) (beginSwitch n s) = 1 ∧
      fget (Fl.CHE_STATUS_REBUILD_ONLY n) (beginSwitch n s) = 1 := by
  have heq : beginSwitch n s = fset (Fl.CHE_STATUS_REBUILD_ONLY n) 1 (fset (Fl.CHE_UCODE_STATE n) 2 (setHold n 1
      (setChan n { chanAt n s with queue := [] } s))) := by
    unfold beginSwitch
    dsimp only
    rw [hqueue, hsusp]
    rfl
  have hup : chanUp n (setChan n { chanAt n s with queue := [] } s) = true := by
    rw [chanUp_congr (setChan_low (LowKept.refl s) n _) (by rw [chanAt_setChan_self]), h]
  rw [heq]
  refine ⟨?_, ?_, fget_fset_self _ _ _ (Nat.le_of_ble_eq_true rfl)⟩
  · rw [fget_fset_ne _ _ _ _ (.inl (status_ne_ucode n).symm), fget_fset_self _ _ _ (Nat.le_of_ble_eq_true rfl)]
    rfl
  · rw [fget_fset_ne _ _ _ _ (.inl (status_ne_ctrl n).symm), fget_fset_ne _ _ _ _ (.inl (ucode_ne_ctrl n).symm), setHold_hold hup (by decide)]

/-! ### Row MICROCODE_SWITCH -/

section
variable {chan : Nat} {s : State} (htodo : s.mgt.upd.todo = [4]) (hup : chanUp chan s = true)
include htodo

theorem microcodeSwitch_row (hhead : s.mgt.upd.units.head? = some chan) (v : Nat) (ok : Bool) :
    exec (.microcodeSwitch chan v ok) s = .next (runLate s (microcodeSwitch chan v ok s)) := by
  refine if_pos ?_
  unfold switchDue
  rw [htodo, hhead]
  simp

include hup

theorem microcode_loads (hhead : s.mgt.upd.units.head? = some chan) (v : Nat) (ok : Bool)
    (hst : fget (Fl.CHE_UCODE_STATE chan) s = 0 ∨ fget (Fl.CHE_UCODE_STATE chan) s = 3) : Completes (.microcodeSwitch chan v ok) s
      (fun t => fget (Fl.CHE_UCODE_STATE chan) t = 1 ∧ t = { s with regs := t.regs }) := by
  have hrun : microcodeSwitch chan v ok s = fset (Fl.CHE_UCODE_STATE chan) 1 s := by
    unfold microcodeSwitch
    dsimp only
    rw [hup, if_neg (by decide), if_neg (by omega), if_pos (by omega)]
  refine ⟨fset (Fl.CHE_UCODE_STATE chan) 1 s, ?_, (fget_fset_self _ _ _ (Nat.le_of_ble_eq_true rfl)).trans rfl, rfl⟩
  rw [microcodeSwitch_row htodo hhead, hrun, runLate_of_mgt (s := s) (t := fset (Fl.CHE_UCODE_STATE chan) 1 s) rfl]

theorem microcode_begins (hhead : s.mgt.upd.units.head? = some chan) (v : Nat) (ok : Bool) (hst : fget (Fl.CHE_UCODE_STATE chan) s = 1)
    (hqueue : (chanAt chan s).queue = []) (hsusp : (chanAt chan s).susp = []) : Completes (.microcodeSwitch chan v ok) s
      (fun t => fget (Fl.CHE_UCODE_STATE chan) t = 2 ∧ fget (Fl.CHE_CTRL_HOLD chan) t = 1 ∧ fget (Fl.CHE_STATUS_REBUILD_ONLY chan) t = 1 ∧
        t.mgt = s.mgt) := by
  have hrun : microcodeSwitch chan v ok s = beginSwitch chan s := by
    unfold microcodeSwitch
    dsimp only
    rw [hup, if_neg (by decide), if_pos hst]
  have hmgt : (beginSwitch chan s).mgt = s.mgt := (beginSwitch_keeps chan (Keeps.refl s) (Sub.refl _)).only.mgt rfl
  obtain ⟨hstate, hhold, honly⟩ := beginSwitch_idle hup hqueue hsusp
  exact ⟨beginSwitch chan s, by rw [microcodeSwitch_row htodo hhead, hrun, runLate_of_mgt hmgt], hstate, hhold, honly, hmgt⟩

theorem microcode_waits (hhead : s.mgt.upd.units.head? = some chan) (v : Nat) (ok : Bool) (hst : fget (Fl.CHE_UCODE_STATE chan) s = 2)
    (hdies : (chanAt chan s).dies ≠ []) (hsusp : (chanAt chan s).susp = []) : Completes (.microcodeSwitch chan v ok) s (fun t => t = s) := by
  have hrun : microcodeSwitch chan v ok s = s := by
    unfold microcodeSwitch
    dsimp only
    rw [hup, if_neg (by decide), if_neg (by omega), if_neg (by omega), if_neg (by simp [hdies]), hsusp]
    rfl
  exact ⟨s, by rw [microcodeSwitch_row htodo hhead, hrun, runLate_of_mgt rfl], rfl⟩

end

/-- These units of the component are still to be activated. -/
def unitsLeft (units : List Nat) (s : State) : State := setMgt (fun m => { m with upd := { m.upd with units := units } }) s

theorem unitActivated_next {c unit v : Nat} {s : State} (htodo : s.mgt.upd.todo = [c]) (hunits : s.mgt.upd.units = [unit, v]) (hne : v ≠ unit) :
    unitActivated c unit true s = unitsLeft [v] s := by
  have hleft : [unit, v].filter (· != unit) = [v] := by simp [hne]
  unfold unitActivated
  dsimp only
  rw [htodo, hunits, if_pos (by simp), if_pos rfl, hleft, if_neg (by simp)]
  rfl

/-- The channel has left the switch with the new image, or with the old one. -/
def ucodeSwitched (chan v : Nat) (ok : Bool) (s : State) : State := switchUcode chan v ok (leaveSwitch chan s)

theorem ucodeSwitched_kept (chan v : Nat) (ok : Bool) (s : State) : (ucodeSwitched chan v ok s).nv = s.nv ∧
    mode (ucodeSwitched chan v ok s) = mode s ∧ (ucodeSwitched chan v ok s).mgt = s.mgt := by
  have hl := leaveSwitch_keeps chan (Keeps.refl s) (Sub.refl _)
  have hs := switchUcode_keeps chan v ok (Keeps.refl (leaveSwitch chan s)) (Sub.refl _)
  exact ⟨(hs.only.nv rfl).trans (hl.only.nv rfl),
    mode_of_low ((leaveSwitch_low (LowKept.refl s) chan).trans (switchUcode_low chan v _ ok)), (hs.only.mgt rfl).trans (hl.only.mgt rfl)⟩

section
variable {chan : Nat} {s : State} (hup : chanUp chan s = true)
include hup

theorem ucodeSwitched_hold (v : Nat) : fget (Fl.CHE_CTRL_HOLD chan) (ucodeSwitched chan v true s) = 0 :=
  (switchUcode_taken_hold chan v _).trans (leaveSwitch_hold hup)

variable (htodo : s.mgt.upd.todo = [4]) (hst : fget (Fl.CHE_UCODE_STATE chan) s = 2)
  (hdies : (chanAt chan s).dies = []) (hsusp : (chanAt chan s).susp = [])
include htodo hst hdies hsusp

/-- An idle channel ends its switch, and with it its unit. -/
theorem microcode_ends (hhead : s.mgt.upd.units.head? = some chan) (v : Nat) (ok : Bool)
    (hend : (unitActivated 4 chan ok (ucodeSwitched chan v ok s)).mgt.late = []) :
    exec (.microcodeSwitch chan v ok) s = .next (unitActivated 4 chan ok (ucodeSwitched chan v ok s)) := by
  have hrun : microcodeSwitch chan v ok s = unitActivated 4 chan ok (ucodeSwitched chan v ok s) := by
    unfold microcodeSwitch
    dsimp only
    rw [hup, if_neg (by decide), if_neg (by omega), if_neg (by omega), if_pos (by simp [hdies, hsusp])]
    rfl
  rw [microcodeSwitch_row htodo hhead, hrun, runLate_none hend]

variable (hlate : s.mgt.late = [])
include hlate

theorem microcode_last (hunits : s.mgt.upd.units = [chan]) {v : Nat} (hv : v < 65536) :
    Completes (.microcodeSwitch chan v true) s (fun t => SwitchGood 4 s t ∧ fget (Fl.CHE_UCODE_VERSION chan) t = v ∧
      fget (Fl.CHE_CTRL_HOLD chan) t = 0) ∧
    Completes (.microcodeSwitch chan v false) s (fun t => SwitchBack 4 s t ∧
      fget (Fl.CHE_UCODE_VERSION chan) t = fget (Fl.CHE_UCODE_VERSION chan) s ∧ fget (Fl.CHE_UCODE_STATE chan) t = 3) := by
  have hhead : s.mgt.upd.units.head? = some chan := by rw [hunits]; rfl
  have hchan := chanUp_lt hup
  have hlast (ok : Bool) : LastUnit 4 chan s (ucodeSwitched chan v ok s) := by
    obtain ⟨hnv, hmode, hmgt⟩ := ucodeSwitched_kept chan v ok s
    refine ⟨hnv, hmode, ?_, ?_, ?_, ?_, ?_, ?_⟩ <;> rw [hmgt]
    exacts [htodo, hunits, hlate]
  have hucode (ok : Bool) : rd (Reg.CHE_UCODE chan) (unitActivated 4 chan ok (ucodeSwitched chan v ok s)) =
      rd (Reg.CHE_UCODE chan) (ucodeSwitched chan v ok s) := (hlast ok).rd
    (not_mem_completionRegs (by unfold Reg.CHE_UCODE; omega) (by unfold Reg.CHE_UCODE Reg.MGT_CNT_IBI Reg.MGT_CNT_IBI_DEFER; omega))
    (by unfold Reg.CHE_UCODE Reg.MGT_UPD; omega) ok
  have hctrl (ok : Bool) : rd (Reg.CHE_CTRL chan) (unitActivated 4 chan ok (ucodeSwitched chan v ok s)) =
      rd (Reg.CHE_CTRL chan) (ucodeSwitched chan v ok s) := (hlast ok).rd
    (not_mem_completionRegs (by unfold Reg.CHE_CTRL; omega) (by unfold Reg.CHE_CTRL Reg.MGT_CNT_IBI Reg.MGT_CNT_IBI_DEFER; omega))
    (by unfold Reg.CHE_CTRL Reg.MGT_UPD; omega) ok
  obtain ⟨hgood, hgoodLate⟩ := (hlast true).good
  obtain ⟨hback, hbackLate⟩ := (hlast false).back
  obtain ⟨hstate, hversion⟩ := switchUcode_refused chan v (leaveSwitch chan s)
  refine ⟨⟨_, microcode_ends hup htodo hst hdies hsusp hhead v true hgoodLate, hgood, ?_, ?_⟩,
    ⟨_, microcode_ends hup htodo hst hdies hsusp hhead v false hbackLate, hback, ?_, ?_⟩⟩
  · exact (fget_of_rd (hucode true)).trans (switchUcode_taken chan _ hv)
  · exact (fget_of_rd (hctrl true)).trans (ucodeSwitched_hold hup v)
  · exact (fget_of_rd (hucode false)).trans (hversion.trans (fget_of_rd (rd_leaveSwitch chan s)))
  · exact (fget_of_rd (hucode false)).trans hstate

/-- Another channel is still to switch. -/
theorem microcode_next {u : Nat} (hunits : s.mgt.upd.units = [chan, u]) (hne : u ≠ chan) {v : Nat} (hv : v < 65536) :
    Completes (.microcodeSwitch chan v true) s (fun t => t.mgt.upd.units = [u] ∧ t.mgt.upd.todo = [4] ∧ t.mgt.fw = s.mgt.fw ∧
      fget (Fl.CHE_UCODE_VERSION chan) t = v) := by
  have hhead : s.mgt.upd.units.head? = some chan := by rw [hunits]; rfl
  have hversion : fget (Fl.CHE_UCODE_VERSION chan) (ucodeSwitched chan v true s) = v := switchUcode_taken chan (leaveSwitch chan s) hv
  have hrow := microcode_ends hup htodo hst hdies hsusp hhead v true
  obtain ⟨-, -, hmgt⟩ := ucodeSwitched_kept chan v true s
  generalize ucodeSwitched chan v true s = w at hrow hversion hmgt
  have hnext : unitActivated 4 chan true w = unitsLeft [u] w := unitActivated_next (by rw [hmgt, htodo]) (by rw [hmgt, hunits]) hne
  rw [hnext] at hrow
  refine ⟨unitsLeft [u] w, hrow ?_, rfl, ?_, ?_, (fget_of_rd (rd_setMgt (Reg.CHE_UCODE chan) _ w)).trans hversion⟩
  · change w.mgt.late = []
    rw [hmgt, hlate]
  · change w.mgt.upd.todo = [4]
    rw [hmgt, htodo]
  · change w.mgt.fw = s.mgt.fw
    rw [hmgt]

end

end Sys2Proof.Machine
end

section
/-! Firmware download and commit (R108, R482, R489, R490): pieces, slots, and the start of an activation. -/

namespace Sys2Proof.Machine

/-! ### A written slot -/

/-- Image `i` stands in slot `k` of its component, and the commit is under way. -/
def imageWritten (k : Nat) (i : FwImage) (s : State) : State := setUpd 2 0 0 (writeImage k i s)

/-- Of the components' slots, slot `k` of the image's component holds the image, one generation above all others; each component runs the slot
it ran. -/
def SlotWritten (k : Nat) (i : FwImage) (s t : State) : Prop :=
  fwSlot i.comp k t = ⟨i.version % 2 ^ 64, fwTop i.comp s + 1, 1⟩ ∧ (fwAt i.comp t).active = (fwAt i.comp s).active ∧
    ∀ c', c' < 6 → c' ≠ i.comp → fwAt c' t = fwAt c' s

theorem fwAt_imageWritten (k : Nat) (i : FwImage) (s : State) : fwAt i.comp (imageWritten k i s) =
    { fwAt i.comp s with slots := SMap.put (fwAt i.comp s).slots k ⟨i.version % 2 ^ 64, fwTop i.comp s + 1, 1⟩ } := by
  refine (fwAt_congr (s := writeImage k i s) rfl i.comp).trans ?_
  unfold writeImage
  rw [fwAt_setFw_self]

theorem fwAt_imageWritten_ne (k : Nat) (i : FwImage) {c : Nat} (h : c ≠ i.comp) (s : State) : fwAt c (imageWritten k i s) = fwAt c s := by
  refine (fwAt_congr (s := writeImage k i s) rfl c).trans ?_
  unfold writeImage
  rw [fwAt_setFw_ne _ h]

theorem mode_imageWritten (k : Nat) (i : FwImage) (s : State) : mode (imageWritten k i s) = mode s :=
  mode_of_low (setUpd_low (setFw_low (LowKept.refl s) _ _) _ _ _)

theorem rd_imageWritten {a : Nat} (h : a ≠ Reg.MGT_UPD) (k : Nat) (i : FwImage) (s : State) : rd a (imageWritten k i s) = rd a s :=
  rd_setUpd h _ _ _ _

/-- Whether the slot is the next or not, the image is in it. -/
theorem slotWritten_of {k : Nat} {i : FwImage} {s t : State}
    (hself : (fwAt i.comp t).slots = SMap.put (fwAt i.comp s).slots k ⟨i.version % 2 ^ 64, fwTop i.comp s + 1, 1⟩)
    (hactive : (fwAt i.comp t).active = (fwAt i.comp s).active) (hne : ∀ c, c ≠ i.comp → fwAt c t = fwAt c s) : SlotWritten k i s t := by
  refine ⟨?_, hactive, fun c _ hc => hne c hc⟩
  unfold fwSlot
  rw [hself, SMap.getD_put_self]

theorem slotWritten_fw {k : Nat} {i : FwImage} {s t : State} (h : t.mgt.fw = (imageWritten k i s).mgt.fw) :
    SlotWritten k i s t ∧ (fwAt i.comp t).next = (fwAt i.comp s).next := by
  have hself : fwAt i.comp t = fwAt i.comp (imageWritten k i s) := fwAt_congr h _
  rw [fwAt_imageWritten] at hself
  refine ⟨slotWritten_of ?_ ?_ (fun c hc => (fwAt_congr h c).trans (fwAt_imageWritten_ne k i hc s)), ?_⟩ <;> rw [hself]

theorem slotWritten_next {k : Nat} {i : FwImage} {s t : State} (h : t.mgt.fw = (markNext k i.comp (imageWritten k i s)).mgt.fw) :
    SlotWritten k i s t ∧ (fwAt i.comp t).next = k := by
  have hself : fwAt i.comp t = { fwAt i.comp (imageWritten k i s) with next := k } := (fwAt_congr h _).trans (fwAt_setFw_self _ _ _)
  rw [fwAt_imageWritten] at hself
  have hothers (c : Nat) (hc : c ≠ i.comp) : fwAt c t = fwAt c s :=
    (fwAt_congr h c).trans ((fwAt_setFw_ne _ hc _).trans (fwAt_imageWritten_ne k i hc s))
  refine ⟨slotWritten_of ?_ ?_ hothers, ?_⟩ <;> rw [hself]

/-- The last update has failed for its image, and its pieces are dropped. -/
def commitDropped (s : State) : State := setMgt (fun m => { m with upd := { m.upd with last := 1 }, pieces := [] }) (setUpd 0 0 0 s)

/-! ### The start of an activation (R487) -/

theorem updUnits_congr {s t : State} (hlow : LowKept s t) (hmedia : t.media = s.media)
    (haxc : ∀ n, rd (Reg.AXC_STATUS n) t = rd (Reg.AXC_STATUS n) s) (c : Nat) : updUnits c t = updUnits c s := by
  have hchan (n : Nat) : chanUp n t = chanUp n s := chanUp_congr hlow (by rw [chanAt_congr hmedia])
  have hpd (n : Nat) : pdOn n t = pdOn n s := pdOn_congr (hlow _ (by decide)) (hlow _ (by decide)) n
  have hstate (n : Nat) : fget (Fl.AXC_STATUS_STATE n) t = fget (Fl.AXC_STATUS_STATE n) s := fget_of_rd (haxc n)
  unfold updUnits
  simp only [hchan, hpd, hstate]

theorem updNext_starts {n c : Nat} {l : List Nat} {s : State} (htodo : s.mgt.upd.todo = c :: l) (hunits : updUnits c s ≠ []) :
    updNext (n + 1) s = setUpd 3 c (fget Fl.MGT_UPD_SOURCE s)
      (setMgt (fun m => { m with upd := { m.upd with units := updUnits c s, switching := false } }) s) := by
  unfold updNext
  rw [htodo]
  exact if_neg (by simpa using hunits)

/-- The components of a commit of one image, in the order of activation. -/
theorem activationOrder_one {c k : Nat} (h1 : 1 ≤ c) (h5 : c ≤ 5) :
    activationOrder.filter (fun d => (SMap.find (SMap.put [] c k) d).isSome) = [c] := by
  interval_cases c <;> rfl

/-- The activation of one component begins with its units. -/
theorem startActivation_one {c k tag : Nat} {s : State} (h1 : 1 ≤ c) (h5 : c ≤ 5) (hunits : updUnits c s ≠ []) :
    ∃ t, startActivation (SMap.put [] c k) (some tag) 0 s = t ∧ t.nv = s.nv ∧ t.mgt.fw = s.mgt.fw ∧ t.mgt.upd.tag = some tag ∧
      t.mgt.upd.todo = [c] ∧ t.mgt.upd.units = updUnits c s ∧ fget Fl.MGT_UPD_STATE t = 3 ∧ fget Fl.MGT_UPD_COMPONENT t = c := by
  have hne (n : Nat) : Reg.AXC_STATUS n ≠ Reg.MGT_UPD := by unfold Reg.AXC_STATUS Reg.MGT_UPD; omega
  have heq : updUnits c (setUpd 3 0 0 (setMgt (fun m => { m with upd := { m.upd with
      todo := activationOrder.filter (fun d => (SMap.find (SMap.put [] c k) d).isSome), slots := SMap.put [] c k, tag := some tag,
      switching := false } }) s)) = updUnits c s :=
    updUnits_congr (setUpd_low (setMgt_low (LowKept.refl s) _) _ _ _) rfl (fun n => rd_setUpd (hne n) _ _ _ _) c
  refine ⟨_, updNext_starts (activationOrder_one h1 h5) (by rw [heq]; exact hunits), rfl, rfl, rfl, activationOrder_one h1 h5, heq, ?_, ?_⟩
  · exact setUpd_state (by decide) _ _ _
  · exact setUpd_component (by omega) _ _ _

/-! ### Rows FIRMWARE_DOWNLOAD and FIRMWARE_COMMIT -/

section
variable {tag : Nat} {x : Cmd} {c : Ctrl} {s : State} (h : PcieReady tag x c s)
include h

/-- The command's completion after a change that leaves the commands, the queues and the mode. -/
theorem PcieReady.answers {u : State} (hnv : u.nv = s.nv) (hmode : mode u = mode s) (sct sc : Nat) (dnr : Bool) :
    Answered x sct sc dnr 0 0 [] s (complete tag sct sc dnr 0 [] u) :=
  (completeBoth_inPhase (InPhase.congr h.1.1 hnv hmode) sct sc dnr 0 0 []).of_nv hnv

theorem PcieReady.fails (sct sc : Nat) (dnr : Bool) : Failed x sct sc dnr s (complete tag sct sc dnr 0 [] s) ∧
    (complete tag sct sc dnr 0 [] s).mgt.fw = s.mgt.fw ∧ (complete tag sct sc dnr 0 [] s).mgt.pieces = s.mgt.pieces := by
  have hk : NsMgtKept s (complete tag sct sc dnr 0 [] s) := completeBoth_nsMgtKept ..
  exact ⟨h.answers rfl rfl sct sc dnr, hk.fw, hk.pieces⟩

/-- A piece joins those that came before. -/
def pieceTaken (off n : Nat) (s : State) : State := setUpd 1 0 0 (setMgt (fun m => { m with pieces := m.pieces ++ [(off, n)] }) s)

theorem firmwareDownload_row (off n : Nat) : exec (.firmwareDownload tag off n) s = .next (
    if n = 0 ∨ 0x200000 < 4 * n then invalidField tag s
    else if otherUpdate s then complete tag 1 0x13 true 0 [] s
    else if s.mgt.pieces.any (fun p => decide (off < p.1 + p.2) && decide (p.1 < off + n)) then complete tag 1 0x14 true 0 [] s
    else completeOk tag (pieceTaken off n s)) := by
  refine (rfl : _ = execFirmwareDownload tag off n s).trans ((pcieRow_of_ready h.1 h.2.1 _).trans ?_)
  unfold unlessSanitize
  rw [if_neg h.2.2, h.1.tag_eq]
  rfl

theorem download_badLength {off n : Nat} (hn : n = 0 ∨ 0x200000 < 4 * n) : Completes (.firmwareDownload tag off n) s (Failed x 0 0x02 true s) :=
  ⟨_, (firmwareDownload_row h off n).trans (congrArg _ (if_pos hn)), (h.fails 0 0x02 true).1⟩

section
variable {off n : Nat} (hn : 0 < n) (hmax : 4 * n ≤ 0x200000)
include hn hmax

theorem download_other (hother : otherUpdate s = true) : Completes (.firmwareDownload tag off n) s (Failed x 1 0x13 true s) := by
  refine ⟨complete tag 1 0x13 true 0 [] s, ?_, (h.fails 1 0x13 true).1⟩
  rw [firmwareDownload_row h, if_neg (by omega), if_pos hother]

theorem download_overlaps (hother : otherUpdate s = false) (hover : ∃ p ∈ s.mgt.pieces, off < p.1 + p.2 ∧ p.1 < off + n) :
    Completes (.firmwareDownload tag off n) s (fun t => Failed x 1 0x14 true s t ∧ t.mgt.pieces = s.mgt.pieces) := by
  obtain ⟨hfails, -, hpieces⟩ := h.fails 1 0x14 true
  refine ⟨complete tag 1 0x14 true 0 [] s, ?_, hfails, hpieces⟩
  rw [firmwareDownload_row h, if_neg (by omega), hother, if_neg (by decide), if_pos (by simpa using hover)]

theorem download_joins (hother : otherUpdate s = false) (hapart : ∀ p ∈ s.mgt.pieces, off + n ≤ p.1 ∨ p.1 + p.2 ≤ off) :
    Completes (.firmwareDownload tag off n) s (fun t => Succeeded x s t ∧ t.mgt.pieces = s.mgt.pieces ++ [(off, n)] ∧
      fget Fl.MGT_UPD_STATE t = 1 ∧ fget Fl.MGT_UPD_SOURCE t = 0) := by
  have hfree : ¬ s.mgt.pieces.any (fun p => decide (off < p.1 + p.2) && decide (p.1 < off + n)) = true := by
    simp only [List.any_eq_true, Bool.and_eq_true, decide_eq_true_eq, not_exists, not_and]
    intro p hp hlow
    have := hapart p hp
    omega
  have hmode : mode (pieceTaken off n s) = mode s := mode_of_low (setUpd_low (setMgt_low (LowKept.refl s) _) _ _ _)
  have hupd : rd Reg.MGT_UPD (completeOk tag (pieceTaken off n s)) = rd Reg.MGT_UPD (pieceTaken off n s) := rd_completeBoth (by decide) ..
  refine ⟨completeOk tag (pieceTaken off n s), ?_, h.answers (u := pieceTaken off n s) rfl hmode 0 0 false, ?_, ?_, ?_⟩
  · rw [firmwareDownload_row h, if_neg (by omega), hother, if_neg (by decide), if_neg hfree]
  · exact (completeBoth_nsMgtKept tag 0 0 false 0 0 [] (pieceTaken off n s)).pieces
  · exact (fget_of_rd hupd).trans (setUpd_state (by decide) _ _ _)
  · exact (fget_of_rd hupd).trans (setUpd_source (by decide) _ _ _)

end

/-! ### Commits that fail -/

section
variable {fs ca : Nat} {i : FwImage}

theorem firmwareCommit_row : exec (.firmwareCommit tag fs ca [i]) s = .next (firmwareCommit tag fs ca [i] s) := by
  refine (rfl : _ = execFirmwareCommit tag fs ca [i] s).trans ((pcieRow_of_ready h.1 h.2.1 _).trans ?_)
  rw [h.1.tag_eq]

theorem commit_badAction (hca : 3 < ca) : Completes (.firmwareCommit tag fs ca [i]) s
    (fun t => Failed x 0 0x02 true s t ∧ t.mgt.fw = s.mgt.fw) := by
  obtain ⟨hfails, hfw, -⟩ := h.fails 0 0x02 true
  exact ⟨_, (firmwareCommit_row h).trans (congrArg _ (if_pos hca)), hfails, hfw⟩

variable (hca : ca ≤ 3)
include hca

theorem commit_prohibited (hbad : otherUpdate s = true ∨ commitProhibited s = true) : Completes (.firmwareCommit tag fs ca [i]) s
    (fun t => Failed x 1 0x13 true s t ∧ t.mgt.fw = s.mgt.fw) := by
  obtain ⟨hfails, hfw, -⟩ := h.fails 1 0x13 true
  refine ⟨_, (firmwareCommit_row h).trans (congrArg _ ?_), hfails, hfw⟩
  unfold firmwareCommit
  dsimp only
  rw [if_neg (by omega), if_pos (by simpa using hbad)]

variable (hother : otherUpdate s = false) (hproh : commitProhibited s = false)
include hother hproh

theorem commit_badSlot (hfs : 3 < fs ∨ (fs = 0 ∧ ca ≠ 3)) : Completes (.firmwareCommit tag fs ca [i]) s
    (fun t => Failed x 1 0x06 true s t ∧ t.mgt.fw = s.mgt.fw) := by
  obtain ⟨hfails, hfw, -⟩ := h.fails 1 0x06 true
  refine ⟨_, (firmwareCommit_row h).trans (congrArg _ ?_), hfails, hfw⟩
  unfold firmwareCommit
  dsimp only
  rw [if_neg (by omega), hother, hproh, if_neg (by decide), if_neg (by omega), if_pos (by omega)]

variable (h1 : 1 ≤ fs) (h3 : fs ≤ 3)
include h1 h3

theorem commit_activeSlot (hactive : (fwAt i.comp s).active = fs - 1) : Completes (.firmwareCommit tag fs ca [i]) s
    (fun t => Failed x 1 0x06 true s t ∧ t.mgt.fw = s.mgt.fw) := by
  obtain ⟨hfails, hfw, -⟩ := h.fails 1 0x06 true
  refine ⟨_, (firmwareCommit_row h).trans (congrArg _ ?_), hfails, hfw⟩
  unfold firmwareCommit
  dsimp only
  rw [if_neg (by omega), hother, hproh, if_neg (by decide), if_neg (by omega), if_neg (by omega), if_pos (by simp [hactive])]

variable (hactive : (fwAt i.comp s).active ≠ fs - 1) (hc1 : 1 ≤ i.comp) (hc5 : i.comp ≤ 5)
include hactive hc1 hc5

omit h in
/-- A commit to a slot that its component does not run. -/
theorem firmwareCommit_slot : firmwareCommit tag fs ca [i] s =
    if ca = 2 then (if slotValid (fs - 1) i.comp s = false then complete tag 1 0x06 true 0 [] s
      else completeOk tag (updEnd 0 (markNext (fs - 1) i.comp s)))
    else if i.good = false then commitDropped (complete tag 1 0x07 true 0 [] s)
    else if 0xFFFFFFFF ≤ fwTop i.comp s then complete tag 1 0x13 true 0 [] s
    else if ca = 0 then completeOk tag (updEnd 0 (imageWritten (fs - 1) i s))
    else if ca = 1 then completeOk tag (updEnd 0 (markNext (fs - 1) i.comp (imageWritten (fs - 1) i s)))
    else startActivation (SMap.put [] i.comp (fs - 1)) (some tag) 0 (imageWritten (fs - 1) i s) := by
  have hvalid : (([i].map (·.comp)).isEmpty || ([i].map (·.comp)).any (fun c => !slotValid (fs - 1) c s)) = true ↔
      slotValid (fs - 1) i.comp s = false := by simp
  have hgood : ([i].isEmpty || [i].any (fun i => !i.good || decide (i.comp = 0) || decide (5 < i.comp))) = true ↔ i.good = false := by
    simp [show i.comp ≠ 0 by omega, show i.comp ≤ 5 by omega]
  have htop : ([i].any (fun i => decide (genMax ≤ fwTop i.comp s))) = true ↔ 0xFFFFFFFF ≤ fwTop i.comp s := by
    rw [List.any_cons, List.any_nil, Bool.or_false]
    exact decide_eq_true_iff
  unfold firmwareCommit
  dsimp only
  rw [if_neg (by omega), hother, hproh, if_neg (by decide), if_neg (by omega), if_neg (by omega), if_neg (by simp [hactive])]
  simp only [List.isEmpty_cons, Bool.false_eq_true, if_false] at hvalid hgood htop ⊢
  simp only [hvalid, hgood, htop]
  rfl

/-- A bad image: the failure is noted and the pieces are dropped. -/
theorem commit_badImage (hca2 : ca ≠ 2) (hgood : i.good = false) : Completes (.firmwareCommit tag fs ca [i]) s
    (fun t => Failed x 1 0x07 true s t ∧ t.mgt.fw = s.mgt.fw) := by
  obtain ⟨hfails, hfw, -⟩ := h.fails 1 0x07 true
  refine ⟨commitDropped (complete tag 1 0x07 true 0 [] s), (firmwareCommit_row h).trans (congrArg _ ?_), hfails, hfw⟩
  rw [firmwareCommit_slot hca hother hproh h1 h3 hactive hc1 hc5, if_neg hca2, if_pos hgood]

theorem commit_exhausted (hca2 : ca ≠ 2) (hgood : i.good = true) (htop : 0xFFFFFFFF ≤ fwTop i.comp s) :
    Completes (.firmwareCommit tag fs ca [i]) s (fun t => Failed x 1 0x13 true s t ∧ t.mgt.fw = s.mgt.fw) := by
  obtain ⟨hfails, hfw, -⟩ := h.fails 1 0x13 true
  refine ⟨_, (firmwareCommit_row h).trans (congrArg _ ?_), hfails, hfw⟩
  rw [firmwareCommit_slot hca hother hproh h1 h3 hactive hc1 hc5, if_neg hca2, if_neg (by simp [hgood]), if_pos htop]

end

end

/-! ### Commits that succeed -/

section
variable {tag : Nat} {x : Cmd} {c : Ctrl} {s : State} (h : PcieReady tag x c s) (htag : s.mgt.upd.tag = none)
include h htag

/-- A commit ends without an activation. -/
theorem commit_done {u : State} (hnv : u.nv = s.nv) (hmode : mode u = mode s) (hupd : u.mgt.upd = s.mgt.upd) :
    Succeeded x s (completeOk tag (updEnd 0 u)) ∧ (completeOk tag (updEnd 0 u)).mgt.fw = u.mgt.fw ∧
      fget Fl.MGT_UPD_STATE (completeOk tag (updEnd 0 u)) = 0 ∧ (completeOk tag (updEnd 0 u)).mgt.upd.todo = [] := by
  rw [updEnd_untagged (hupd ▸ htag)]
  have hend : UpdEnded 0 u (completeOk tag (updReset 0 u)) :=
    (updReset_ended 0 u).kept (completeBoth_nsMgtKept ..) (rd_completeBoth (by decide) ..)
  exact ⟨h.answers (u := updReset 0 u) hnv ((mode_updReset 0 u).trans hmode) 0 0 false, hend.fw, hend.idle⟩

variable {fs ca : Nat} {i : FwImage} (hca : ca ≤ 3) (hother : otherUpdate s = false) (hproh : commitProhibited s = false) (h1 : 1 ≤ fs)
  (h3 : fs ≤ 3) (hactive : (fwAt i.comp s).active ≠ fs - 1) (hc1 : 1 ≤ i.comp) (hc5 : i.comp ≤ 5)
include hca hother hproh h1 h3 hactive hc1 hc5

theorem commit_marks (hca2 : ca = 2) (hvalid : slotValid (fs - 1) i.comp s = true) : Completes (.firmwareCommit tag fs ca [i]) s
    (fun t => Succeeded x s t ∧ (fwAt i.comp t).next = fs - 1 ∧ (fwAt i.comp t).slots = (fwAt i.comp s).slots ∧
      (fwAt i.comp t).active = (fwAt i.comp s).active) := by
  obtain ⟨hok, hfw, -⟩ := commit_done h htag (u := markNext (fs - 1) i.comp s) rfl (mode_of_low (setFw_low (LowKept.refl s) _ _)) rfl
  have hself := (fwAt_congr hfw i.comp).trans (fwAt_setFw_self i.comp _ s)
  refine ⟨_, (firmwareCommit_row h).trans (congrArg _ ?_), hok, ?_⟩
  · rw [firmwareCommit_slot hca hother hproh h1 h3 hactive hc1 hc5, if_pos hca2, if_neg (by simp [hvalid])]
  · rw [hself]
    exact ⟨rfl, rfl, rfl⟩

variable (hgood : i.good = true) (htop : fwTop i.comp s < 0xFFFFFFFF)
include hgood htop

theorem commit_writes (hca0 : ca = 0) : Completes (.firmwareCommit tag fs ca [i]) s (fun t => Succeeded x s t ∧ SlotWritten (fs - 1) i s t ∧
    (fwAt i.comp t).next = (fwAt i.comp s).next ∧ fget Fl.MGT_UPD_STATE t = 0 ∧ t.mgt.upd.todo = []) := by
  obtain ⟨hok, hfw, hidle⟩ := commit_done h htag (u := imageWritten (fs - 1) i s) rfl (mode_imageWritten _ i s) rfl
  obtain ⟨hwrote, hnext⟩ := slotWritten_fw hfw
  refine ⟨_, (firmwareCommit_row h).trans (congrArg _ ?_), hok, hwrote, hnext, hidle⟩
  rw [firmwareCommit_slot hca hother hproh h1 h3 hactive hc1 hc5, if_neg (by omega), if_neg (by simp [hgood]), if_neg (by omega), if_pos hca0]

theorem commit_writesNext (hca1 : ca = 1) : Completes (.firmwareCommit tag fs ca [i]) s (fun t => Succeeded x s t ∧
    SlotWritten (fs - 1) i s t ∧ (fwAt i.comp t).next = fs - 1 ∧ fget Fl.MGT_UPD_STATE t = 0 ∧ t.mgt.upd.todo = []) := by
  obtain ⟨hok, hfw, hidle⟩ := commit_done h htag (u := markNext (fs - 1) i.comp (imageWritten (fs - 1) i s)) rfl
    ((mode_of_low (setFw_low (LowKept.refl _) _ _)).trans (mode_imageWritten _ i s)) rfl
  obtain ⟨hwrote, hnext⟩ := slotWritten_next hfw
  refine ⟨_, (firmwareCommit_row h).trans (congrArg _ ?_), hok, hwrote, hnext, hidle⟩
  rw [firmwareCommit_slot hca hother hproh h1 h3 hactive hc1 hc5, if_neg (by omega), if_neg (by simp [hgood]), if_neg (by omega),
    if_neg (by omega), if_pos hca1]

omit htag in
/-- The command stays until the component's units have been activated. -/
theorem commit_activates (hca3 : ca = 3) (hunits : updUnits i.comp s ≠ []) : Completes (.firmwareCommit tag fs ca [i]) s (fun t =>
    SlotWritten (fs - 1) i s t ∧ cmdAt tag t = some x ∧ t.mgt.upd.tag = some tag ∧ t.mgt.upd.todo = [i.comp] ∧
      t.mgt.upd.units = updUnits i.comp s ∧ fget Fl.MGT_UPD_STATE t = 3 ∧ fget Fl.MGT_UPD_COMPONENT t = i.comp) := by
  have hne (n : Nat) : Reg.AXC_STATUS n ≠ Reg.MGT_UPD := by unfold Reg.AXC_STATUS Reg.MGT_UPD; omega
  have heq : updUnits i.comp (imageWritten (fs - 1) i s) = updUnits i.comp s :=
    updUnits_congr (setUpd_low (setFw_low (LowKept.refl s) _ _) _ _ _) rfl (fun n => rd_imageWritten (hne n) _ i s) i.comp
  obtain ⟨t, ht, hnv, hfw, htagged, htodo, hus, hstate, hcomp⟩ :=
    startActivation_one (k := fs - 1) (tag := tag) hc1 hc5 (s := imageWritten (fs - 1) i s) (by rw [heq]; exact hunits)
  refine ⟨t, ?_, (slotWritten_fw hfw).1, ?_, htagged, htodo, hus.trans heq, hstate, hcomp⟩
  · rw [firmwareCommit_row h, firmwareCommit_slot hca hother hproh h1 h3 hactive hc1 hc5, if_neg (by omega), if_neg (by simp [hgood]),
      if_neg (by omega), if_neg (by omega), if_neg (by omega), ht]
  · have hcmd : cmdAt tag s = some x := h.1.1.1
    unfold cmdAt at hcmd ⊢
    rw [hnv]
    exact hcmd

end

end Sys2Proof.Machine
end

section
/-! Statement O42, put together from the rows of firmware, config flash and the settings store. -/

namespace Sys2Proof.Machine

/-- Agents beside management and the debug port have no access. -/
theorem cfl_otherAgent {addr key req : Nat} {s : State} (hreq : req ≠ 0x10 ∧ req ≠ 0x11) (data : Word) :
    Completes (.cflProgram addr data req) s (OnlyMarked [] s) ∧ Completes (.cflEraseSector addr key req) s (OnlyMarked [] s) ∧
      Completes (.cflEraseGroup addr key req) s (OnlyMarked [] s) :=
  ⟨cflRow_refused hreq (some data) 1, cflRow_refused hreq none _, cflRow_refused hreq none _⟩

/-- Settles O42: a commit's slot and an activation's start follow the order of the checks; a switch ends with its unit and answers the
commit that began it; config flash and the settings store follow their registers. -/
theorem firmwareAndFlash : Obligations.FirmwareAndFlash := by
  unfold Obligations.FirmwareAndFlash
  intro s
  refine ⟨?host, ⟨?handover, ?handoverEnds, ?management, ?managementEnds, ?network, ?networkEnds, ?idle, ?microcode, ?microcodeEnds⟩, ?flash⟩
  case host =>
    intro tag x c h htag
    refine ⟨?pieces, fun off n => download_badLength h, fun off n => download_other h, ?commit⟩
    case pieces => exact fun off n hn hmax hother => ⟨download_joins h hn hmax hother, download_overlaps h hn hmax hother⟩
    case commit =>
      refine fun fs ca i => ⟨commit_badAction h, commit_prohibited h, fun hca hother hproh => ⟨commit_badSlot h hca hother hproh,
        fun h1 h3 => commit_activeSlot h hca hother hproh h1 h3, fun h1 h3 hactive hc1 hc5 => ⟨?_, ?_, fun hgood htop => ⟨?_, ?_, ?_⟩, ?_⟩⟩⟩
      · exact commit_badImage h hca hother hproh h1 h3 hactive hc1 hc5
      · exact commit_exhausted h hca hother hproh h1 h3 hactive hc1 hc5
      · exact commit_writes h htag hca hother hproh h1 h3 hactive hc1 hc5 hgood htop
      · exact commit_writesNext h htag hca hother hproh h1 h3 hactive hc1 hc5 hgood htop
      · exact commit_activates h hca hother hproh h1 h3 hactive hc1 hc5 hgood htop
      · exact commit_marks h htag hca hother hproh h1 h3 hactive hc1 hc5
  case handover => exact controlHandover_begins
  case handoverEnds => exact controlHandover_ends
  case management => exact managementSwitch_begins
  case managementEnds => exact managementSwitch_ends
  case network => exact networkSwitch_begins
  case networkEnds => exact networkSwitch_ends
  case idle => exact fun e h => switches_idle h e
  case microcode =>
    exact fun chan v ok htodo _ hhead hup => ⟨microcode_loads htodo hup hhead v ok, microcode_begins htodo hup hhead v ok,
      microcode_waits htodo hup hhead v ok⟩
  case microcodeEnds =>
    exact fun chan v htodo hlate hup hst hdies hsusp hv => ⟨fun hunits => microcode_last hup htodo hst hdies hsusp hlate hunits hv,
      fun u hunits hne => microcode_next hup htodo hst hdies hsusp hlate hunits hne hv⟩
  case flash =>
    intro hpd
    refine ⟨?commands, ?others, cflDone_none, ?programDone, ?eraseDone, ?reads, ?settings, ?sealed, ?compaction⟩
    case commands =>
      exact fun addr data key req ha hreq hbusy hkey => ⟨fun hseal => ⟨cflProgram_begins hpd hreq hbusy hseal ha data,
        cflProgram_refused hpd hreq hbusy hseal ha data, cflEraseSector_begins hpd hreq hbusy hseal ha, cflEraseGroup_begins hpd hreq hbusy hseal ha,
        cflEraseGroup_refused hpd hreq hbusy hseal ha⟩, cfl_wrongKey hpd hreq hbusy hkey, fun hseal => cfl_sealed hpd hreq hbusy hseal data⟩
    case others => exact fun addr data key req h0 h1 => cfl_otherAgent ⟨h0, h1⟩ data
    case programDone =>
      exact fun w d hop => ⟨cflDone_program_good hop, cflDone_program_spare hop, fun c k v => cflDone_program_image hop⟩
    case eraseDone => exact fun sec count hop hcount => ⟨cflDone_erase_good hop, cflDone_erase_bad hop hcount⟩
    case reads =>
      exact fun addr early req ha => ⟨cflRead_idle hpd ha,
        fun sec count hop hbank => ⟨cflRead_waits hpd ha hop hbank, cflRead_suspends hpd ha hop hbank⟩,
        fun sec count => cflRead_otherBank hpd ha, fun w d => cflRead_programming hpd ha⟩
    case settings => exact fun bytes hseal => settingsCommit_kept hpd hseal
    case sealed => exact fun bytes hseal => settings_sealed hseal bytes
    case compaction => exact settingsCompaction_copies hpd

end Sys2Proof.Machine
end
